-- ==== Sys2Proof/Word.lean ====
section
/-! DEFINITION. The word types of the manual (R4, R7): a word is 64 bits, a byte 8, a vector 256 B. -/

namespace Sys2Proof

/-- A word of the manual (R4). -/
abbrev Word := BitVec 64
/-- One byte of memory, scratchpad, queues and packets (R7). -/
abbrev Byte := BitVec 8
/-- A vector of 256 B (R363): byte `j` stands in bits `8j+7 .. 8j`. -/
abbrev Vec := BitVec 2048
/-- A predicate register: bit `j` governs byte `j` of a vector (R364). -/
abbrev Pred := BitVec 256

end Sys2Proof
end

