-- ==== Sys2Proof/Config.lean ====
section
/-! DEFINITION. What the manual leaves open: free values that no proof can see, applied to the counter `State.freeCtr` or to the
operands they depend on, and the device's cryptographic and instrument functions. -/

namespace Sys2Proof.Config

/-- A word the manual leaves undefined (R181, R183): a register read too early or after its last use. -/
opaque freeWord : Nat → BitVec 64
/-- A vector the manual leaves undefined (R181, R183). -/
opaque freeVec : Nat → BitVec 2048
/-- A predicate the manual leaves undefined (R181). -/
opaque freePred : Nat → BitVec 256
/-- The codes of a probability register read before its bound (R181). -/
opaque freeCodes : Nat → BitVec 1024
/-- A choice the manual leaves to the device: which translation or line is evicted, which of two permitted results appears. -/
opaque freeBit : Nat → Bool
/-- The set of an L2 slice that a line number selects (R201): 512 sets in a slice of 512 KiB with 16 ways. -/
opaque l2Set : Nat → Nat
/-- The set of a tile translation cache that a tensor and a tile select (R205). -/
opaque ttcSet : BitVec 10 → Nat → Nat
/-- The mesh routers, by pod, between those of two pods, in the order passed (R34, R238). -/
opaque meshHops : Nat → Nat → List Nat
/-- Which of the two FP32 values around tanh a lane returns (R292, faithful rounding). -/
opaque tanhUp : BitVec 32 → Bool
/-- Whether a firmware image's signature verifies (R47). -/
opaque fwValid : List Byte → List Byte → Bool
/-- The check of a flit's bytes 0 to 3 and payload (Table 3.2): the CRC-32 polynomial is not given. -/
opaque crc32 : List Byte → BitVec 32
/-- The entry point of a firmware image on the supervisor core of E0 (0) or E1 (1) (R37, R47). -/
opaque fwEntry : List Byte → Nat → BitVec 64
/-- Where the firmware of an image puts the device fault buffer (R153). -/
opaque fwFaultBuffer : List Byte → BitVec 64
/-- Whether a configuration record's signature verifies (R47). -/
opaque recordValid : List Byte → Bool
/-- The Ultra Ethernet port of an ROD packet delivery context (R94): the hash of the context, told by the peer's job and process, and the destination. -/
opaque rodPort : BitVec 64 → BitVec 128 → Nat
/-- The bytes that a port sends around the payload of an Ultra Ethernet packet. -/
opaque ueOverhead : Nat
/-- The digest of a byte string (R97). -/
opaque digest : List Byte → BitVec 256
/-- The signature of a report by the device identity key under an XMSS leaf (R49, R97). -/
opaque sign : BitVec 20 → List Byte → List Byte
/-- The device identity public key: root and seed (R47, R97). -/
opaque idKey : BitVec 512
/-- The number of registers of an island's IEEE 1687 instrument (R361). -/
opaque capSize : Nat → Nat
/-- What register `r` of an island's instrument reads (R361): island, register, occasion. -/
opaque capReg : Nat → Nat → Nat → BitVec 64

end Sys2Proof.Config
end

