-- ==== Sys2Proof/Syntax.lean ====
section
/-! DEFINITION. The syntax of the machine's steps: one constructor of `Instr` for every row of the opcode table.
An instruction word carries its wait and signal bytes (R299) and the fields of its operand format (R300, Tables 13.2 to 13.9);
a command-list entry carries its flag byte and operand words (R87, R88); an event of an agent or of the outside world carries
what that event brings. -/

namespace Sys2Proof

/-- The engines, in the numbering of TCAUSE.ENG (Table 7.2). -/
inductive Eng where
  | cc | acc | exe | mtx | cpy | net
  deriving DecidableEq, Repr, Inhabited

/-- The number of an engine (Table 7.2). -/
def Eng.num : Eng → Nat
  | .cc => 0 | .acc => 1 | .exe => 2 | .mtx => 3 | .cpy => 4 | .net => 5

/-- WAIT and SIG of an instruction word (R299). -/
structure Hdr where
  wait : BitVec 8
  sig  : BitVec 8
  deriving DecidableEq, Repr, Inhabited

/-- Table 13.2. On the control core `lat` and `q` together form the qualifier field K (R305). -/
structure RR where
  d : BitVec 6
  a : BitVec 6
  la : Bool
  b : BitVec 6
  lb : Bool
  c : BitVec 6
  lc : Bool
  lat : BitVec 4
  q : BitVec 4
  deriving DecidableEq, Repr, Inhabited

/-- Table 13.3. -/
structure RRI where
  d : BitVec 6
  a : BitVec 6
  la : Bool
  imm : BitVec 14
  lat : BitVec 4
  q : BitVec 4
  deriving DecidableEq, Repr, Inhabited

/-- Table 13.4. -/
structure RI where
  d : BitVec 6
  a : BitVec 6
  la : Bool
  imm : BitVec 24
  deriving DecidableEq, Repr, Inhabited

/-- Table 13.5. -/
structure BR where
  a : BitVec 6
  la : Bool
  b : BitVec 6
  lb : Bool
  off : BitVec 23
  deriving DecidableEq, Repr, Inhabited

/-- Table 13.6. -/
structure JM where
  off : BitVec 38
  deriving DecidableEq, Repr, Inhabited

/-- Table 13.7. -/
structure TN where
  tid : BitVec 10
  g : BitVec 6
  x : BitVec 6
  l : Bool
  lat : BitVec 4
  q : BitVec 8
  deriving DecidableEq, Repr, Inhabited

/-- Table 13.8. -/
structure MG where
  cmd : BitVec 8
  p1 : BitVec 8
  p2 : BitVec 8
  nest : BitVec 3
  acc : BitVec 2
  q : BitVec 8
  deriving DecidableEq, Repr, Inhabited

/-- Table 13.9. -/
structure CP where
  dslot : BitVec 6
  g : BitVec 6
  tida : BitVec 10
  tidb : BitVec 10
  q : BitVec 4
  deriving DecidableEq, Repr, Inhabited

/-- The SY layout of R300. -/
structure SY where
  d : BitVec 6
  a : BitVec 6
  la : Bool
  sel : BitVec 11
  imm : BitVec 12
  deriving DecidableEq, Repr, Inhabited

/-- A command-list entry (Table 4.4): FLG and the operand words 1 to 7. -/
structure CL where
  flg : BitVec 8
  w1 : BitVec 64
  w2 : BitVec 64
  w3 : BitVec 64
  w4 : BitVec 64
  w5 : BitVec 64
  w6 : BitVec 64
  w7 : BitVec 64
  deriving DecidableEq, Repr, Inhabited

/-- The head flit payload of a fabric packet (Table 3.3), its reserved fields left out. -/
structure Flit where
  kind : BitVec 8 := 0
  tc : BitVec 2 := 0
  rly : Bool := false
  nc : Bool := false
  srcdev : BitVec 8 := 0
  dstdev : BitVec 8 := 0
  rlydev : BitVec 8 := 0
  cid : BitVec 12 := 0
  inc : BitVec 10 := 0
  nflit : BitVec 7 := 0
  xr : Bool := false
  aq : Bool := false
  aop : BitVec 8 := 0
  status : BitVec 8 := 0
  nmem : BitVec 8 := 0
  srcagt : BitVec 12 := 0
  seq : BitVec 32 := 0
  crd : BitVec 64 := 0
  addr : BitVec 64 := 0
  opnd : BitVec 64 := 0
  opnd2 : BitVec 64 := 0
  gts : BitVec 64 := 0
  tag : BitVec 16 := 0
  deriving DecidableEq, Repr, Inhabited

/-- A member record of a combined atomic (R73). -/
structure Member where
  srcdev : BitVec 8
  srcagt : BitVec 12
  seq : BitVec 32
  opnd : BitVec 64
  deriving DecidableEq, Repr, Inhabited

/-- A fabric packet (R64): head flit, data bytes, and the member records of a combined atomic. `good` is false for a packet
whose NFLIT disagrees with the flits received. -/
structure Pkt where
  head : Flit := {}
  bytes : List Byte := []
  members : List Member := []
  good : Bool := true
  deriving DecidableEq, Repr, Inhabited

/-- A flit on the line of a fabric port (R61, Table 3.2): the wavelength that carries it, LSN, FK, CHK and the payload. -/
structure LFlit where
  lam : Nat := 0
  lsn : BitVec 24 := 0
  fk : BitVec 2 := 0
  chk : BitVec 32 := 0
  payload : BitVec 512 := 0
  deriving DecidableEq, Repr, Inhabited
/-- What reaches a port in a slot (R61 to R63): the flits, and each wavelength's bit errors and corrected symbols. -/
structure SlotRx where
  flits : List LFlit := []
  errs : List (Nat × Nat) := []
  deriving DecidableEq, Repr, Inhabited
/-- A replay on a port (R62): the flit's LSN, and whether this device is its sender, or else the receiver that asks for it. -/
structure ReplayReq where
  port : Nat := 0
  lsn : BitVec 24 := 0
  sender : Bool := false
  deriving DecidableEq, Repr, Inhabited
/-- A wavelength that is to be withdrawn or to rejoin (R63), by this end's estimate or as the other end asked. -/
structure LamReq where
  lam : Nat := 0
  asked : Bool := false
  deriving DecidableEq, Repr, Inhabited

/-- Who sent an Ultra Ethernet message and to whom (R80): the sender's IPv6 address, the job and process it names, and whether
the transport security check passes. -/
structure UeAddr where
  src : BitVec 128 := 0
  job : BitVec 24 := 0
  proc : BitVec 32 := 0
  secure : Bool := true
  port : BitVec 2 := 0
  deriving DecidableEq, Repr, Inhabited

/-- A SUBMIT (Table 4.2); `rsv` is true when a reserved bit of the tag or the payload is set. -/
structure SubmitMsg where
  ue : UeAddr := {}
  queue : BitVec 2 := 0
  list : BitVec 64 := 0
  stag : BitVec 32 := 0
  doneev : Bool := false
  rsv : Bool := false
  deriving DecidableEq, Repr, Inhabited

/-- A host RMA access (R81). -/
structure RmaMsg where
  ue : UeAddr := {}
  addr : BitVec 64 := 0
  deriving DecidableEq, Repr, Inhabited

/-- An attestation request (Table 4.10). -/
structure AttestMsg where
  ue : UeAddr := {}
  rsv : Bool := false
  payload : List Byte := []
  deriving DecidableEq, Repr, Inhabited

/-- One arriving packet of an Ultra Ethernet message (R95, R451). `msg` tells the messages of one sender apart, `off` is the
byte offset of this packet, `total` the message's length, `reply` the operation of this device that an RMA-read reply answers; `connect` marks a
connection request, `unsupported` atomic or deferrable-send semantics. -/
structure UePkt where
  ue : UeAddr := {}
  tagged : Bool := false
  tag : BitVec 64 := 0
  msg : Nat := 0
  off : Nat := 0
  total : Nat := 0
  bytes : List Byte := []
  trimmed : Bool := false
  rudiOrUud : Bool := false
  reply : Option Nat := none
  error : Bool := false
  connect : Bool := false
  unsupported : Bool := false
  deriving DecidableEq, Repr, Inhabited

/-- The straps of Table 2.5 that are sampled. -/
structure Straps where
  bootsrc : Bool := false
  devnum : BitVec 8 := 0
  debugen : Bool := false
  deriving DecidableEq, Repr, Inhabited

/-- What a boot reads from outside (R47): the straps, the firmware image with its signature, the configuration record, whether
reading succeeded, and whether link and memory training succeeded; `lpddr` marks the populated LPDDR-6 channels (R55),
and `positions` is the domain position table that the firmware installs (R57). -/
structure BootInput where
  straps : Straps := {}
  readOk : Bool := true
  fw : List Byte := []
  fwSig : List Byte := []
  record : List Byte := []
  trained : Bool := true
  lpddr : BitVec 32 := 0xFFFFFFFF
  positions : List (BitVec 8 × BitVec 8) := []
  deriving DecidableEq, Repr, Inhabited

/-- A piece of the frozen state that an island's instrument reaches (R53). `f` numbers the field of an engine, context, port or probability
register. -/
inductive TapReg where
  | mem (key : Nat)
  | poison (line : Nat)
  | spad (core addr : Nat)
  | pc (core : Nat)
  | s (core : Nat) (r : BitVec 6)
  | g (core : Nat) (r : BitVec 6)
  | v (core : Nat) (r : BitVec 6)
  | p (core : Nat) (r : BitVec 4)
  | q (core : Nat) (r : BitVec 4) (f : Nat)
  | eng (core : Nat) (e : Eng) (f : Nat)
  | tok (core : Nat) (t : BitVec 8)
  | wset (core : Nat) (i : BitVec 8)
  | cb (core : Nat) (i : BitVec 5)
  | cfg (core sel : Nat)
  | acc (core : Nat) (tile : Bool) (i : Nat)
  | mask (core : Nat) (cols : Bool)
  | flags (core : Nat) (mtx : Bool)
  | counter (core i : Nat)
  | sys (core k : Nat)
  | entry (core : Nat) (store : Bool) (q i : Nat)
  | defer (core : Nat) (tail : Bool)
  | ctx (cid f : Nat)
  | window (cid i f : Nat)
  | part (pid : BitVec 7)
  | phaser (n : BitVec 12) (f : Nat)
  | port (p f : Nat)
  | position (dev : BitVec 8)
  | wfe
  | refWindow
  deriving DecidableEq, Repr

/-- One access through the test access port to the frozen state (R53). -/
inductive TapOp where
  | read (r : TapReg)
  | write (r : TapReg) (v : BitVec 2048)
  deriving DecidableEq, Repr

/-- What the sensors and estimators of an island report (R40, R42): power density in W/cm², junction in °C, module power in W,
and the microseconds for which all three conditions have been clear; and whether firmware asks for a point below the present one. -/
structure ThermReading where
  density : Nat := 0
  junction : Nat := 0
  modpwr : Nat := 0
  clearUs : Nat := 0
  firmware : Bool := false
  deriving DecidableEq, Repr, Inhabited

/-- A request of the debug interface (R184, R261). -/
inductive DebugReq where
  | stop (cid : Nat) (k : BitVec 64)
  | cancel (cid : Nat)
  | resume (cid : Nat)
  | halt (core : Nat)
  | go (core : Nat)
  deriving DecidableEq, Repr

/-- The steps of the machine: one constructor for each row of the opcode table. -/
inductive Instr where
  /-- R324. Waits on its wait set, applies its signal at retirement and does nothing else. -/
  | nop (h : Hdr)
  /-- R175. Retires once every earlier word in its ring has retired; on the control core it acts as a NOP. -/
  | mark (h : Hdr)
  /-- R324. Raises ILLEGAL, whatever its other bits. -/
  | ill (bits : BitVec 64)
  /-- R325. Sets D to A + B, modulo 2^64. -/
  | add (h : Hdr) (o : RR)
  /-- R325. Sets D to A − B, modulo 2^64. -/
  | sub (h : Hdr) (o : RR)
  /-- R325. Sets D to A AND B. -/
  | and (h : Hdr) (o : RR)
  /-- R325. Sets D to A OR B. -/
  | or (h : Hdr) (o : RR)
  /-- R325. Sets D to A XOR B. -/
  | xor (h : Hdr) (o : RR)
  /-- R325. Sets D to A AND NOT B. -/
  | andn (h : Hdr) (o : RR)
  /-- R325. Shifts A left by B[5:0]. -/
  | shl (h : Hdr) (o : RR)
  /-- R325. Shifts A right logically by B[5:0]. -/
  | shr (h : Hdr) (o : RR)
  /-- R325. Shifts A right arithmetically by B[5:0]. -/
  | sar (h : Hdr) (o : RR)
  /-- R325. Sets D to the signed minimum of A and B, or the unsigned minimum with .n. -/
  | min (h : Hdr) (o : RR)
  /-- R325. Sets D to the signed maximum of A and B, or the unsigned maximum with .n. -/
  | max (h : Hdr) (o : RR)
  /-- R325. Sets D to 1 when A < B (signed, or unsigned with .n), and to 0 otherwise. -/
  | slt (h : Hdr) (o : RR)
  /-- R325. Sets D to 1 when A = B, and to 0 otherwise. -/
  | seq (h : Hdr) (o : RR)
  /-- R325. Adds the sign-extended IMM24 to A. -/
  | addi (h : Hdr) (o : RI)
  /-- R325. ANDs A with the sign-extended IMM24. -/
  | andi (h : Hdr) (o : RI)
  /-- R325. ORs A with the sign-extended IMM24. -/
  | ori (h : Hdr) (o : RI)
  /-- R325. XORs A with the sign-extended IMM24. -/
  | xori (h : Hdr) (o : RI)
  /-- R325. Shifts A left by IMM24[5:0]. -/
  | shli (h : Hdr) (o : RI)
  /-- R325. Shifts A right logically by IMM24[5:0]. -/
  | shri (h : Hdr) (o : RI)
  /-- R325. Shifts A right arithmetically by IMM24[5:0]. -/
  | sari (h : Hdr) (o : RI)
  /-- R325. Sets D to 1 when A is less than the sign-extended IMM24 (signed), and to 0 otherwise. -/
  | slti (h : Hdr) (o : RI)
  /-- R325. Sets D to the low 64 bits of A × B. -/
  | mul (h : Hdr) (o : RR)
  /-- R325. Sets D to the high 64 bits of the 128-bit product of A and B, signed or unsigned. -/
  | mulh (h : Hdr) (o : RR)
  /-- R326. Sets D to the quotient of A and B rounded toward zero; division by zero gives all ones and sets DIVZERO. -/
  | div (h : Hdr) (o : RR)
  /-- R326. Sets D to A − B × DIV(A, B); division by zero gives A and sets DIVZERO. -/
  | rem (h : Hdr) (o : RR)
  /-- R325. Sets D to the sign-extended IMM24. -/
  | movi (h : Hdr) (o : RI)
  /-- R325. Sets D to (A << 24) OR the zero-extended IMM24. -/
  | movhi (h : Hdr) (o : RI)
  /-- R325. Sets D to PC + 8 × the sign-extended IMM24. -/
  | movpc (h : Hdr) (o : RI)
  /-- R325. Counts the leading zeros of A. -/
  | clz (h : Hdr) (o : RR)
  /-- R325. Counts the trailing zeros of A. -/
  | ctz (h : Hdr) (o : RR)
  /-- R325. Counts the ones of A. -/
  | popc (h : Hdr) (o : RR)
  /-- R325. Reverses the bit order of A. -/
  | brev (h : Hdr) (o : RR)
  /-- R325. Extracts a bit field of A at position B and width C. -/
  | bext (h : Hdr) (o : RR)
  /-- R325. Inserts A into a bit field of D at position B and width C. -/
  | bins (h : Hdr) (o : RR)
  /-- R325. Sets D to A when C is non-zero, and to B otherwise. -/
  | sel (h : Hdr) (o : RR)
  /-- R325. Sets D to 1 when A is non-zero, and to 0 otherwise. -/
  | cset (h : Hdr) (o : RR)
  /-- R327. Loads 1 byte from a raw address, taking the core's own held stores into account. -/
  | ldb (h : Hdr) (fx : BitVec 1) (o : RI)
  /-- R327. Loads 2 bytes from a raw address, taking the core's own held stores into account. -/
  | ldh (h : Hdr) (fx : BitVec 1) (o : RI)
  /-- R327. Loads 4 bytes from a raw address, taking the core's own held stores into account. -/
  | ldw (h : Hdr) (fx : BitVec 1) (o : RI)
  /-- R327. Loads 8 bytes from a raw address, taking the core's own held stores into account. -/
  | ldd (h : Hdr) (fx : BitVec 1) (o : RI)
  /-- R327. Places a 1-byte raw store in the egress hold. -/
  | stb (h : Hdr) (fx : BitVec 1) (o : RI)
  /-- R327. Places a 2-byte raw store in the egress hold. -/
  | sth (h : Hdr) (fx : BitVec 1) (o : RI)
  /-- R327. Places a 4-byte raw store in the egress hold. -/
  | stw (h : Hdr) (fx : BitVec 1) (o : RI)
  /-- R327. Places an 8-byte raw store in the egress hold. -/
  | std (h : Hdr) (fx : BitVec 1) (o : RI)
  /-- R330. Holds a remote load of an aligned 8-byte word from a device, returned into D when the DATA arrives. -/
  | ldra (h : Hdr) (o : RR)
  /-- R328. Holds an atomic add to an aligned word; the old value returns to D. -/
  | aadd (h : Hdr) (o : RR)
  /-- R328. Holds an atomic AND to an aligned word; the old value returns to D. -/
  | aand (h : Hdr) (o : RR)
  /-- R328. Holds an atomic OR to an aligned word; the old value returns to D. -/
  | aor (h : Hdr) (o : RR)
  /-- R328. Holds an atomic exclusive-or to an aligned word; the old value returns to D. -/
  | axor (h : Hdr) (o : RR)
  /-- R328. Holds an atomic minimum, signed or unsigned with .n; the old value returns to D. -/
  | amin (h : Hdr) (o : RR)
  /-- R328. Holds an atomic maximum, signed or unsigned with .n; the old value returns to D. -/
  | amax (h : Hdr) (o : RR)
  /-- R328. Holds an atomic swap; a remote ASWP with D = s0 is sent as a remote raw store. -/
  | aswp (h : Hdr) (o : RR)
  /-- R328. Holds an atomic compare-and-swap against D. -/
  | acas (h : Hdr) (o : RR)
  /-- R328. Holds an atomic FP32 add to an aligned 4-byte location. -/
  | afadd (h : Hdr) (o : RR)
  /-- R331. Makes every earlier load and atomic of the control core act as an acquire at the named scope. -/
  | facq (h : Hdr) (o : SY)
  /-- R331. Makes every later store and atomic of the control core act as a release at the named scope. -/
  | frel (h : Hdr) (o : SY)
  /-- R331. Acts as both FACQ and FREL, and also orders every later access after the earlier stores and atomics. -/
  | far (h : Hdr) (o : SY)
  /-- R332. Branches when A = B. -/
  | beq (h : Hdr) (o : BR)
  /-- R332. Branches when A ≠ B. -/
  | bne (h : Hdr) (o : BR)
  /-- R332. Branches when A < B, signed or unsigned. -/
  | blt (h : Hdr) (fx : BitVec 1) (o : BR)
  /-- R332. Branches when A ≥ B, signed or unsigned. -/
  | bge (h : Hdr) (fx : BitVec 1) (o : BR)
  /-- R332. Branches when A = 0. -/
  | bz (h : Hdr) (o : BR)
  /-- R332. Branches when A ≠ 0. -/
  | bnz (h : Hdr) (o : BR)
  /-- R332. Decrements A and branches when the result is non-zero. -/
  | dbnz (h : Hdr) (o : BR)
  /-- R332. Jumps to a PC-relative target. -/
  | jmp (h : Hdr) (o : JM)
  /-- R332. Sets s63 to PC + 8 and jumps to a PC-relative target. -/
  | call (h : Hdr) (o : JM)
  /-- R332. Jumps to the address in A. -/
  | jr (h : Hdr) (o : RR)
  /-- R332. Sets s63 to PC + 8 and jumps to the address in A. -/
  | callr (h : Hdr) (o : RR)
  /-- R332. Jumps to the address in s63. -/
  | ret (h : Hdr) (o : RR)
  /-- R333. Sets one level of the control core's CRD and zeroes the levels below it. -/
  | setcl (h : Hdr) (o : SY)
  /-- R333. Adds to one level of the control core's CRD and zeroes the levels below it. -/
  | inccl (h : Hdr) (o : SY)
  /-- R333. Sets the control core's whole CRD from A. -/
  | setcrd (h : Hdr) (o : SY)
  /-- R333. Reads the control core's CRD into D. -/
  | getcrd (h : Hdr) (o : SY)
  /-- R333. Reads one level of the control core's CRD into D. -/
  | getcl (h : Hdr) (o : SY)
  /-- R334. Requests STOP(A) on the task's context and retires once the stop is accepted. -/
  | cut (h : Hdr) (o : SY)
  /-- R334. Reads the stop status word, first cancelling the task's own pending stop when .cancel is given. -/
  | cutq (h : Hdr) (o : SY)
  /-- R334. Sets the core's watch coordinate CUTW. -/
  | cutw (h : Hdr) (o : SY)
  /-- R335. Pushes word A into the ring of engine B, stalling while the ring is full. -/
  | pushq (h : Hdr) (o : RR)
  /-- R335. Pushes word A into an engine ring if there is space, reporting success or failure in D. -/
  | pushqn (h : Hdr) (o : RR)
  /-- R336. Appends a block of words read from memory to an engine's ring. -/
  | ringcpy (h : Hdr) (o : SY)
  /-- R337. Writes one wait-set entry from A. -/
  | wset (h : Hdr) (o : SY)
  /-- R338. Adds IMM12 to a token counter at retirement, as a signal. -/
  | tinc (h : Hdr) (o : SY)
  /-- R338. Waits until a token counter reaches IMM12, then subtracts IMM12 from it. -/
  | tdec (h : Hdr) (o : SY)
  /-- R338. Reads a token counter's count, or its tag with .tag. -/
  | trd (h : Hdr) (o : SY)
  /-- R338. Sets a token counter's count from A and its tag to e. -/
  | tset (h : Hdr) (o : SY)
  /-- R339. Pushes MARK words into the named rings and stalls the control core until each has retired. -/
  | join (h : Hdr) (o : SY)
  /-- R340. Checks a tensor descriptor held in scratchpad and holds the write of that descriptor, with shootdown. -/
  | tdset (h : Hdr) (o : SY)
  /-- R340. Writes a tensor descriptor to scratchpad. -/
  | tdrd (h : Hdr) (o : SY)
  /-- R340. Holds the clearing of a descriptor's VALID bit, with shootdown. -/
  | tdinv (h : Hdr) (o : SY)
  /-- R343. Holds a phaser registration in a named mode. -/
  | phreg (h : Hdr) (o : SY)
  /-- R343. Holds a phaser drop. -/
  | phdrop (h : Hdr) (o : SY)
  /-- R112. Arrives at a phaser for phase ms with a byte count. -/
  | phsig (h : Hdr) (o : SY)
  /-- R112. Waits until phase mw of a phaser is released. -/
  | phwait (h : Hdr) (o : SY)
  /-- R112. Performs PHSIG and then PHWAIT. -/
  | phsw (h : Hdr) (o : SY)
  /-- R343. Adds a byte count to a phaser's pending count. -/
  | phexp (h : Hdr) (o : SY)
  /-- R343. Reads a phaser's phase counter, pending count or status. -/
  | phrd (h : Hdr) (o : SY)
  /-- R110. Raises CRD to the next phase boundary and arrives at the superstep phaser with a byte count. -/
  | phase (h : Hdr) (o : SY)
  /-- R345. Holds the creation of a child launch from a descriptor. -/
  | spawn (h : Hdr) (o : SY)
  /-- R345. Holds the creation of a child launch and retires when the child is COMPLETE. -/
  | spawnw (h : Hdr) (o : SY)
  /-- R346. Holds a write-back of a range, which retires once the core's earlier stores to the range are performed. -/
  | dwb (h : Hdr) (o : SY)
  /-- R346. Holds the dropping of this device's L2 copies of remote lines in a range. -/
  | dinv (h : Hdr) (o : SY)
  /-- R347. Holds the invalidation of a range in the instruction caches of a scope. -/
  | iinv (h : Hdr) (o : SY)
  /-- R347. Waits for the core's earlier IINVs, then discards the fetched but unissued words and refetches them. -/
  | fetchb (h : Hdr) (o : SY)
  /-- R166. Locks the lines of a range in the instruction cache as far as capacity allows. -/
  | ilock (h : Hdr) (o : SY)
  /-- R166. Unlocks the lines of a range and deletes the lock ranges it covers. -/
  | iunlk (h : Hdr) (o : SY)
  /-- R349. Writes an engine configuration item. -/
  | ecfgw (h : Hdr) (o : SY)
  /-- R349. Reads an engine configuration item. -/
  | ecfgr (h : Hdr) (o : SY)
  /-- R350. Reads a system register. -/
  | rdsr (h : Hdr) (o : SY)
  /-- R350. Writes a system register that has no row of its own. -/
  | wrsr (h : Hdr) (o : SY)
  /-- R350. ORs A into a system register. -/
  | setsr (h : Hdr) (o : SY)
  /-- R350. Clears the bits of A in a system register. -/
  | clrsr (h : Hdr) (o : SY)
  /-- R351. Raises the TRAP fault with TVAL set from IMM12. -/
  | trap (h : Hdr) (o : SY)
  /-- R351. Raises the BRK fault with TVAL set from IMM12. -/
  | brk (h : Hdr) (o : SY)
  /-- R151. Returns from a handler, reissuing or skipping the faulting word and re-injecting the replay buffer. -/
  | tret (h : Hdr) (o : SY)
  /-- R353. Reads one word of a circular buffer's state. -/
  | cbstat (h : Hdr) (o : SY)
  /-- R353. Defines a circular buffer and empties it. -/
  | cbrst (h : Hdr) (o : SY)
  /-- R341. Writes a tile-table entry to scratchpad. -/
  | ttrd (h : Hdr) (o : SY)
  /-- R341. Checks a tile-table entry held in scratchpad and holds the entry's update, with shootdown. -/
  | ttset (h : Hdr) (o : SY)
  /-- R341. Holds an increment of the tile's reference counter. -/
  | ttref (h : Hdr) (o : SY)
  /-- R341. Holds the zeroing of an entry and the decrement of its counter, with quarantine at zero. -/
  | ttunref (h : Hdr) (o : SY)
  /-- R342. Posts a page request for a tensor tile to the supervisor at issue and never waits. -/
  | pgreq (h : Hdr) (o : TN)
  /-- R106. Waits for every engine to retire its words, drops the task's phaser registrations and ends the tile task. -/
  | tend (h : Hdr) (o : SY)
  /-- R130. Creates a context from a context descriptor, with a new incarnation number. -/
  | ctxnew (h : Hdr) (o : SY)
  /-- R134. Stops the context's engines, abandons its work and puts it into RECLAIM. -/
  | ctxkill (h : Hdr) (o : SY)
  /-- R135. Kills the current incarnation and starts the next one of the same CID. -/
  | ctxinc (h : Hdr) (o : SY)
  /-- R145. Waits for a stopped context to be quiescent, then writes its image. -/
  | ctxsave (h : Hdr) (o : SY)
  /-- R147. Loads a context image and makes the context LIVE or STOPPED. -/
  | ctxload (h : Hdr) (o : SY)
  /-- R356. Starts the reclaim fence of a CID.INC, or queries whether it has completed. -/
  | rcf (h : Hdr) (o : SY)
  /-- R140. Creates a partition from a partition descriptor, or refuses it. -/
  | pcreate (h : Hdr) (o : SY)
  /-- R357. Applies a queue descriptor: enables the command queues and sets the event endpoint. -/
  | psetq (h : Hdr) (o : SY)
  /-- R142. Destroys a partition that has no children and no live contexts. -/
  | pdestroy (h : Hdr) (o : SY)
  /-- R358. Installs a partition's stage-two segment table. -/
  | chmap (h : Hdr) (o : SY)
  /-- R144. Writes the slice table of a set of shared pods. -/
  | slice (h : Hdr) (o : SY)
  /-- R359. Sets a partition's budget from the next 10 ms window. -/
  | sbudget (h : Hdr) (o : SY)
  /-- R360. Copies the oldest record of the device fault buffer and advances its CONS. -/
  | fbpop (h : Hdr) (o : SY)
  /-- R154. Re-raises the held faults of a partition into its fault buffer. -/
  | fbrel (h : Hdr) (o : SY)
  /-- R360. Copies the oldest page-request record and removes it from the queue. -/
  | pgpop (h : Hdr) (o : SY)
  /-- R360. Resolves a parked fault by continuing the operation or retiring it without effect. -/
  | fbact (h : Hdr) (o : SY)
  /-- R52. Freezes the device. -/
  | frz (h : Hdr) (o : SY)
  /-- R361. Reads a register of an island's IEEE 1687 instrument. -/
  | caprd (h : Hdr) (o : SY)
  /-- R361. Enters the lowest power state, unless work is outstanding. -/
  | sleep (h : Hdr) (o : SY)
  /-- R362. Waits until a WFE cause is pending, then returns the pending causes and clears them. -/
  | wfe (h : Hdr) (o : SY)
  /-- R369. Loads one tensor vector along the fastest dimension into a data queue. -/
  | ldt (h : Hdr) (o : TN)
  /-- R369. Loads one tensor vector, reading absent tiles as zero and setting their residency flags. -/
  | ldtr (h : Hdr) (o : TN)
  /-- R369. Pops a vector from a store queue and writes it to a tensor. -/
  | stt (h : Hdr) (o : TN)
  /-- R372. Pushes 256 bytes of scratchpad into a data queue. -/
  | lds (h : Hdr) (o : RRI)
  /-- R372. Loads 8 bytes of scratchpad into a g register. -/
  | ldsb (h : Hdr) (o : RRI)
  /-- R372. Writes a popped vector, or a g register, to scratchpad. -/
  | sts (h : Hdr) (o : RRI)
  /-- R371. Performs an indexed tensor read driven by an index vector. -/
  | gath (h : Hdr) (o : TN)
  /-- R371. Performs an indexed tensor write driven by an index vector. -/
  | scat (h : Hdr) (o : TN)
  /-- R373. Sets the g register D to A + B. -/
  | gadd (h : Hdr) (o : RR)
  /-- R373. Sets the g register D to A − B. -/
  | gsub (h : Hdr) (o : RR)
  /-- R373. Sets the g register D to the low 64 bits of A × B. -/
  | gmul (h : Hdr) (o : RR)
  /-- R373. Shifts a g register left. -/
  | gshl (h : Hdr) (o : RR)
  /-- R373. Shifts a g register right logically. -/
  | gshr (h : Hdr) (o : RR)
  /-- R373. Sets the g register D to A AND B. -/
  | gand (h : Hdr) (o : RR)
  /-- R373. Sets the g register D to A OR B. -/
  | gor (h : Hdr) (o : RR)
  /-- R373. Sets the g register D to the minimum of A and B, signed or unsigned. -/
  | gmin (h : Hdr) (o : RR)
  /-- R373. Sets the g register D to the maximum of A and B, signed or unsigned. -/
  | gmax (h : Hdr) (o : RR)
  /-- R373. Adds the sign-extended IMM14 to a g register. -/
  | gaddi (h : Hdr) (o : RRI)
  /-- R373. ANDs a g register with the sign-extended IMM14. -/
  | gandi (h : Hdr) (o : RRI)
  /-- R373. Shifts a g register left by an immediate. -/
  | gshli (h : Hdr) (o : RRI)
  /-- R373. Sets a g register to the sign-extended IMM24. -/
  | gmovi (h : Hdr) (o : RI)
  /-- R373. Sets a g register to (A << 24) OR IMM24. -/
  | gmovhi (h : Hdr) (o : RI)
  /-- R373. Reads one level of ACC's CRD into a g register. -/
  | gcl (h : Hdr) (o : RI)
  /-- R374. Reads a launch or tensor parameter into a g register. -/
  | gparm (h : Hdr) (o : RI)
  /-- R375. Runs a software-pipelined hardware loop on ACC. -/
  | loopAcc (h : Hdr) (fx : BitVec 3) (o : RI)
  /-- R179. Runs an ACC loop until its pop of the named store queue takes an end-of-stream token. -/
  | sloop (h : Hdr) (fx : BitVec 1) (o : RI)
  /-- R377. Pushes bit 0 of a g register to the outcome queue boq.a. -/
  | bpushAcc (h : Hdr) (o : RRI)
  /-- R377. Pops a bit from boq.x and skips the next n words when it is 1. -/
  | bskipAcc (h : Hdr) (o : RRI)
  /-- R189. Acquires a filled slot of a circular buffer and writes its address to a g register. -/
  | cbacq (h : Hdr) (o : RRI)
  /-- R189. Returns the oldest acquired slot of a circular buffer. -/
  | cbrel (h : Hdr) (o : RRI)
  /-- R379. Sets one level of ACC's CRD. -/
  | setclAcc (h : Hdr) (o : RRI)
  /-- R379. Adds to one level of ACC's CRD. -/
  | incclAcc (h : Hdr) (o : RRI)
  /-- R380. Waits for the horizon, then discards every entry of a queue. -/
  | dqflush (h : Hdr) (o : RRI)
  /-- R380. Appends an end-of-stream token to a store queue. -/
  | dqeos (h : Hdr) (o : RRI)
  /-- R381. Posts a page request for a tensor tile from ACC. -/
  | pgreqAcc (h : Hdr) (o : TN)
  /-- R382. Adds floating-point vectors element by element. -/
  | vadd (h : Hdr) (fx : BitVec 2) (o : RR)
  /-- R382. Subtracts floating-point vectors element by element. -/
  | vsub (h : Hdr) (fx : BitVec 2) (o : RR)
  /-- R382. Multiplies floating-point vectors element by element. -/
  | vmul (h : Hdr) (fx : BitVec 2) (o : RR)
  /-- R382. Takes the smaller element of each pair. -/
  | vmin (h : Hdr) (fx : BitVec 2) (o : RR)
  /-- R382. Takes the larger element of each pair. -/
  | vmax (h : Hdr) (fx : BitVec 2) (o : RR)
  /-- R382. Clears the sign bit of each element. -/
  | vabs (h : Hdr) (fx : BitVec 2) (o : RR)
  /-- R382. Inverts the sign bit of each element. -/
  | vneg (h : Hdr) (fx : BitVec 2) (o : RR)
  /-- R382. Computes A × B + C element by element. -/
  | vfma (h : Hdr) (fx : BitVec 2) (o : RR)
  /-- R382. Computes A × B − C element by element. -/
  | vfms (h : Hdr) (fx : BitVec 2) (o : RR)
  /-- R382. Computes C − A × B element by element. -/
  | vfnma (h : Hdr) (fx : BitVec 2) (o : RR)
  /-- R383. Adds integer lanes, with optional saturation. -/
  | viadd (h : Hdr) (fx : BitVec 2) (o : RR)
  /-- R383. Subtracts integer lanes, with optional saturation. -/
  | visub (h : Hdr) (fx : BitVec 2) (o : RR)
  /-- R383. Multiplies integer lanes, with optional saturation. -/
  | vimul (h : Hdr) (fx : BitVec 2) (o : RR)
  /-- R383. Shifts integer lanes left. -/
  | vshl (h : Hdr) (fx : BitVec 2) (o : RR)
  /-- R383. Shifts integer lanes right, arithmetically or logically. -/
  | vshr (h : Hdr) (fx : BitVec 2) (o : RR)
  /-- R383. ANDs lanes bitwise. -/
  | vand (h : Hdr) (fx : BitVec 2) (o : RR)
  /-- R383. ORs lanes bitwise. -/
  | vor (h : Hdr) (fx : BitVec 2) (o : RR)
  /-- R383. Exclusive-ORs lanes bitwise. -/
  | vxor (h : Hdr) (fx : BitVec 2) (o : RR)
  /-- R384. Adds a signed-byte dot product of four into 32-bit lanes. -/
  | vdot4 (h : Hdr) (o : RR)
  /-- R384. Adds a BF16 dot product of two into FP32 lanes, rounded once. -/
  | vdot2 (h : Hdr) (o : RR)
  /-- R385. Divides elements, correctly rounded. -/
  | vdiv (h : Hdr) (fx : BitVec 2) (o : RR)
  /-- R385. Takes the square root of each element, correctly rounded. -/
  | vsqrt (h : Hdr) (fx : BitVec 2) (o : RR)
  /-- R385. Takes the reciprocal of each element, correctly rounded. -/
  | vrcp (h : Hdr) (fx : BitVec 2) (o : RR)
  /-- R385. Takes the reciprocal square root of each element, correctly rounded. -/
  | vrsq (h : Hdr) (fx : BitVec 2) (o : RR)
  /-- R292. Computes 2^x on FP32 lanes, correctly rounded. -/
  | vexp2 (h : Hdr) (o : RR)
  /-- R292. Computes log2 on FP32 lanes, correctly rounded. -/
  | vlog2 (h : Hdr) (o : RR)
  /-- R292. Computes tanh on FP32 lanes, faithfully rounded. -/
  | vtanh (h : Hdr) (o : RR)
  /-- R386. Compares floating-point lanes into a predicate. -/
  | vcmp (h : Hdr) (fx : BitVec 5) (o : RR)
  /-- R386. Compares integer lanes into a predicate. -/
  | vicmp (h : Hdr) (fx : BitVec 3) (o : RR)
  /-- R387. Selects bytes from A or B under a predicate. -/
  | vsel (h : Hdr) (o : RR)
  /-- R388. Converts the elements of a vector between formats. -/
  | vcvt (h : Hdr) (fx : BitVec 5) (o : RR)
  /-- R389. Sums the active lanes into every lane of D. -/
  | vrsum (h : Hdr) (fx : BitVec 2) (o : RR)
  /-- R389. Takes the maximum of the active lanes. -/
  | vrmax (h : Hdr) (fx : BitVec 2) (o : RR)
  /-- R389. Takes the minimum of the active lanes. -/
  | vrmin (h : Hdr) (fx : BitVec 2) (o : RR)
  /-- R389. Returns the lowest index of the maximum active lane. -/
  | vrargmax (h : Hdr) (fx : BitVec 2) (o : RR)
  /-- R389. Computes a sequential prefix sum over the lanes. -/
  | vscanadd (h : Hdr) (fx : BitVec 2) (o : RR)
  /-- R389. Computes a sequential prefix maximum over the lanes. -/
  | vscanmax (h : Hdr) (fx : BitVec 2) (o : RR)
  /-- R390. Permutes lanes by index. -/
  | vperm (h : Hdr) (fx : BitVec 2) (o : RR)
  /-- R390. Broadcasts one lane to every lane. -/
  | vbcast (h : Hdr) (fx : BitVec 2) (o : RR)
  /-- R390. Rotates lanes. -/
  | vrot (h : Hdr) (fx : BitVec 2) (o : RR)
  /-- R390. Shuffles lanes from two sources. -/
  | vshuf (h : Hdr) (fx : BitVec 2) (o : RR)
  /-- R390. Copies a whole register, or pushes or pops a queue entry. -/
  | vmov (h : Hdr) (o : RR)
  /-- R390. Writes the sign-extended immediate into every 32-bit lane. -/
  | vmovi (h : Hdr) (o : RRI)
  /-- R391. ANDs predicates. -/
  | pand (h : Hdr) (o : RR)
  /-- R391. ORs predicates. -/
  | por (h : Hdr) (o : RR)
  /-- R391. Exclusive-ORs predicates. -/
  | pxor (h : Hdr) (o : RR)
  /-- R391. Complements a predicate. -/
  | pnot (h : Hdr) (o : RR)
  /-- R391. Finds the lowest set bit of a predicate. -/
  | pffs (h : Hdr) (o : RR)
  /-- R391. Finds the lowest clear bit of a predicate. -/
  | pffz (h : Hdr) (o : RR)
  /-- R391. Counts the set bits of a predicate. -/
  | pcnt (h : Hdr) (o : RR)
  /-- R392. Appends a deferral record for each selected lane, all or none. -/
  | defer (h : Hdr) (o : RR)
  /-- R393. Pops 64 deferral records when at least 64 are held. -/
  | drain (h : Hdr) (o : RR)
  /-- R393. Pops up to 64 deferral records. -/
  | drainf (h : Hdr) (o : RR)
  /-- R375. Runs a software-pipelined hardware loop on EXE. -/
  | loopExe (h : Hdr) (fx : BitVec 3) (o : RI)
  /-- R377. Pushes a predicate bit to the outcome queue boq.x. -/
  | bpushExe (h : Hdr) (o : RRI)
  /-- R377. Pops a bit from boq.a and skips the next n words when it is 1. -/
  | bskipExe (h : Hdr) (o : RRI)
  /-- R379. Sets one level of EXE's CRD. -/
  | setclExe (h : Hdr) (o : RRI)
  /-- R379. Adds to one level of EXE's CRD. -/
  | incclExe (h : Hdr) (o : RRI)
  /-- R285. Quantises values into E2M1S blocks. -/
  | vqblk (h : Hdr) (fx : BitVec 2) (o : RR)
  /-- R394. Decodes E2M1S blocks into lanes. -/
  | vdqblk (h : Hdr) (fx : BitVec 2) (o : RR)
  /-- R394. Multiplies each lane by an E8M0 scale. -/
  | vscale (h : Hdr) (fx : BitVec 2) (o : RR)
  /-- R395. Computes the online maximum and its rescaling factor. -/
  | vomax (h : Hdr) (o : RR)
  /-- R390. Writes each lane's index into that lane. -/
  | viota (h : Hdr) (o : RR)
  /-- R390. Writes one level of EXE's CRD into the lanes. -/
  | vclv (h : Hdr) (o : RR)
  /-- R396. Reads the numeric flags. -/
  | vfrd (h : Hdr) (o : RR)
  /-- R396. Clears the core's numeric flags. -/
  | vfclr (h : Hdr) (o : RR)
  /-- R396. Clears the core's flags and the context image's flag word. -/
  | vfclrCtx (h : Hdr) (o : RR)
  /-- R397. Moves the residency flags of the last popped entry into a predicate. -/
  | vrmask (h : Hdr) (o : RR)
  /-- R405. Forms a probability fraction from a comparison softened by the temperature. -/
  | qcmp (h : Hdr) (fx : BitVec 2) (o : RR)
  /-- R406. Takes the product of two probability fractions. -/
  | qand (h : Hdr) (fx : BitVec 2) (o : RR)
  /-- R406. Combines two probability fractions as an OR. -/
  | qor (h : Hdr) (fx : BitVec 2) (o : RR)
  /-- R406. Complements a probability fraction. -/
  | qnot (h : Hdr) (o : RR)
  /-- R407. Blends two vectors weighted by a probability fraction. -/
  | qsel (h : Hdr) (fx : BitVec 2) (o : RR)
  /-- R408. Collapses probability fractions into predicate bits by a hash draw. -/
  | qcol (h : Hdr) (o : RR)
  /-- R410. Converts FP32 values to probability fractions. -/
  | qfrom (h : Hdr) (o : RR)
  /-- R410. Converts probability fractions to FP32. -/
  | qto (h : Hdr) (o : RR)
  /-- R411. Computes the gradient of a softened comparison. -/
  | qgcmp (h : Hdr) (fx : BitVec 2) (o : RR)
  /-- R411. Computes the gradient of a blend. -/
  | qgsel (h : Hdr) (o : RR)
  /-- R411. Computes the gradient of a product. -/
  | qgand (h : Hdr) (o : RR)
  /-- R412. Copies probability codes and sets their lineage tag. -/
  | qlin (h : Hdr) (o : RR)
  /-- R413. Sums the probability fractions of the active lanes. -/
  | qrsum (h : Hdr) (o : RR)
  /-- R413. Takes the prefix products of the probability fractions across lanes. -/
  | qrprod (h : Hdr) (o : RR)
  /-- R428. Fills the back half of the weight buffer with a B panel. -/
  | mldb (h : Hdr) (o : MG)
  /-- R427. Pops data-queue rows into the A stage. -/
  | mlds (h : Hdr) (o : MG)
  /-- R431. Runs a loop nest of matrix multiply-accumulate points into an accumulator tile. -/
  | mgo (h : Hdr) (o : MG)
  /-- R432. Writes the accumulator tile to a tensor, row by row. -/
  | mdrain (h : Hdr) (o : MG)
  /-- R290. Adds the accumulator tile to a tensor and writes the result, row by row. -/
  | mdraina (h : Hdr) (o : MG)
  /-- R430. Initialises an accumulator tile from a C block. -/
  | minit (h : Hdr) (o : MG)
  /-- R434. Exchanges the front and back halves of the weight buffer. -/
  | mswap (h : Hdr) (o : MG)
  /-- R434. Issues only as the oldest unretired MTX word and holds back every younger word. -/
  | mwait (h : Hdr) (o : MG)
  /-- R434. Pushes the matrix engine's status vector. -/
  | mstat (h : Hdr) (o : MG)
  /-- R433. Pushes the accumulator rows into a data queue. -/
  | mdq (h : Hdr) (o : MG)
  /-- R430. Zeroes accumulator tiles. -/
  | mclr (h : Hdr) (o : MG)
  /-- R427. Loads the A stage from tensor memory. -/
  | mlda (h : Hdr) (o : MG)
  /-- R429. Sets the output row and column masks. -/
  | msel (h : Hdr) (o : MG)
  /-- R442. Copies between scratchpad, tensor memory and raw memory in the slot's mode. -/
  | copy (h : Hdr) (o : CP)
  /-- R442. XOR-accumulates the source into the destination. -/
  | copyXor (h : Hdr) (o : CP)
  /-- R443. Repeats a 32-byte pattern over a destination. -/
  | cfill (h : Hdr) (o : CP)
  /-- R446. Writes local data to a remote device as PUSH packets. -/
  | cpush (h : Hdr) (o : CP)
  /-- R446. XOR-accumulates local data into a remote device. -/
  | cpushXor (h : Hdr) (o : CP)
  /-- R446. Reads remote data into local memory. -/
  | cpull (h : Hdr) (o : CP)
  /-- R445. Performs a superstep exchange transfer into another core's scratchpad or buffer, charged to the phaser. -/
  | cxch (h : Hdr) (o : CP)
  /-- R444. Fills the next free slot of a circular buffer. -/
  | ccb (h : Hdr) (o : CP)
  /-- R448. Performs the copy on write of tiles ahead of any write. -/
  | tcow (h : Hdr) (o : CP)
  /-- R216. Migrates tiles to tier 2. -/
  | tmigDemote (h : Hdr) (o : CP)
  /-- R216. Migrates tiles to tier 0 or tier 1. -/
  | tmigPromote (h : Hdr) (o : CP)
  /-- R213. Makes a destination tile refer to a source tile's frames. -/
  | tshare (h : Hdr) (o : CP)
  /-- R448. Zeroes tile entries and releases their frames. -/
  | tfree (h : Hdr) (o : CP)
  /-- R449. Prefetches tiles or lines into the L2. -/
  | cpref (h : Hdr) (o : CP)
  /-- R449. Retires once every earlier copy word has met its SIG condition. -/
  | csync (h : Hdr) (o : CP)
  /-- R451. Holds an Ultra Ethernet send of a message. -/
  | nsend (h : Hdr) (o : SY)
  /-- R451. Holds the posting of a receive. -/
  | nrecv (h : Hdr) (o : SY)
  /-- R451. Holds an RMA write to a peer. -/
  | nput (h : Hdr) (o : SY)
  /-- R451. Holds an RMA read from a peer. -/
  | nget (h : Hdr) (o : SY)
  /-- R453. Holds the setting of a completion counter's value, threshold and token. -/
  | ncset (h : Hdr) (o : SY)
  /-- R453. Writes a completion counter's contents to scratchpad. -/
  | ncrd (h : Hdr) (o : SY)
  /-- R454. Retires once the core's earlier network transfers are complete. -/
  | nctlFlush (h : Hdr) (o : SY)
  /-- R454. Withdraws every posted receive of the core that has placed no byte. -/
  | nctlCancel (h : Hdr) (o : SY)
  /-- R88. A command-list entry that starts a launch in the list's context and proceeds at once. -/
  | launch (o : CL)
  /-- R88. A command-list entry that waits until a raw word satisfies its condition. -/
  | waitv (o : CL)
  /-- R88. A command-list entry that stores a value with release at SYS. -/
  | sigvSt (o : CL)
  /-- R88. A command-list entry that atomically adds a value with release at SYS. -/
  | sigvAdd (o : CL)
  /-- R88. A command-list entry that atomically ORs a value with release at SYS. -/
  | sigvOr (o : CL)
  /-- R88. A command-list entry that reads a word once and passes over N entries when the test holds. -/
  | skipif (o : CL)
  /-- R88. A command-list entry that continues at its target. -/
  | jump (o : CL)
  /-- R88. A command-list entry that pushes the return address and continues at its target. -/
  | listCall (o : CL)
  /-- R88. A command-list entry that pops a return address and continues there. -/
  | listRet (o : CL)
  /-- R88. A command-list entry that requests STOP(K) on the context. -/
  | cutreqStop (o : CL)
  /-- R267. A command-list entry that cancels the context's pending stop. -/
  | cutreqCancel (o : CL)
  /-- R269. A command-list entry that resumes a stopped context from its cut. -/
  | cutreqResume (o : CL)
  /-- R88. A command-list entry that waits for earlier launches to complete, then releases at SYS. -/
  | fence (o : CL)
  /-- R88. A command-list entry that sends a NOTE event. -/
  | note (o : CL)
  /-- R88. A command-list entry that ends the list, sending LISTDONE if it was requested. -/
  | listEnd (o : CL)
  /-- R78. A write of 1 to FXCTL.CLRCNT clears the port's counters at indices 3–12. -/
  | fxctlClrcnt (port : Nat)
  /-- R78. A write to FXCTL.PDIS takes the fabric port down or brings it back. -/
  | fxctlPdis (port : Nat) (down : Bool)
  /-- R63. A write to FXCTL.WENA enables wavelengths, or withdraws them permanently. -/
  | fxctlWena (port : Nat) (mask : BitVec 8)
  /-- R251. A horizon-bound EXE operation writes its results once its coordinate is at or below the published horizon. -/
  | exeCommit (core : Nat)
  /-- R424. One MGO point's accumulator update commits at the horizon, with any auto-drain that follows it. -/
  | mtxPointCommit (core : Nat)
  /-- R189. A completed circular-buffer fill raises FILLED, advances WIDX and updates TAG. -/
  | ccbFillComplete (core idx : Nat)
  /-- R216. Once the migration copy is done, the entry takes the new frame and tier, and the old run is quarantined. -/
  | migrationFlip (idx : Nat)
  /-- R452. Placed or acknowledged bytes raise a completion counter, which signals its token at the threshold. -/
  | netCompletion (op pkt : Nat)
  /-- R321. An atomic's or a local LDRA's result arrives and is written into D, with its signal applied. -/
  | atomicResult (idx : Nat)
  /-- R239. The home agent performs a (possibly combined) atomic and sends its reply. -/
  | homeAtomicPerform (idx : Nat)
  /-- R238. An atomic arriving at a mesh router combines with a waiting one, or waits or passes on. -/
  | meshCombine (x y : Nat)
  /-- R239. A combining router splits a returning reply among the members. -/
  | replySplit (idx : Nat)
  /-- R214. A copy on write finishes its copy, updates the entry if unchanged and lets the write proceed. -/
  | cowCopyDone (idx : Nat)
  /-- R235. The copy of FRAME to SHADOW finishes and the stalled write proceeds. -/
  | shadowFillDone (idx : Nat)
  /-- R253. Every 64 cycles the horizon network computes and publishes the context's horizon. -/
  | horizonPublish (cid : Nat)
  /-- R262. The horizon network accepts a stop request as EXACT or LATE and fixes the cut. -/
  | stopAccept (cid : Nat)
  /-- R264. Phasers are restored, CUTEFF and STOPC are set, the context enters STOPPED and CUTDONE is sent. -/
  | stopComplete (cid : Nat)
  /-- R263. An engine about to issue an operation at or above CUTW requests STOP(CUTW) and disarms the watch. -/
  | watchFire (core eng : Nat)
  /-- R156. A core with pending work that retires nothing for 2^HANGT cycles raises HANG and writes its hang records. -/
  | hang (core : Nat)
  /-- R154. A host write to CONS that frees entries while OVF is set wakes the supervisor's WFE. -/
  | fbufConsWrite (pid : Nat) (cons : BitVec 32)
  /-- R136. A reclaim fence completes once no agent holds the incarnation and 103.4 µs have passed; the context becomes FREE. -/
  | rcfComplete (cid inc : Nat)
  /-- R113. A phaser releases its phase once every signaller has arrived and pending is 0, and wakes its waiters. -/
  | phaserRelease (ph : Nat)
  /-- R121. When cores free, the launch processor chooses a waiting team and places it on a pod. -/
  | teamPlace (die : Nat)
  /-- R122. A ready team that fits no local pod is migrated to another die that has room. -/
  | teamMigrate (team : Nat) (die : Nat)
  /-- R105. A placed tile task starts once its images are copied in. -/
  | taskStart (core : Nat)
  /-- R106. An ended task's core returns to the launch processor once its peel log and egress hold are empty. -/
  | coreReturn (core : Nat)
  /-- R103. A draining launch becomes COMPLETE once its egress is acknowledged and its children are complete; LAUNCHDONE is sent. -/
  | launchComplete (idx : Nat)
  /-- R119. When a pool entry frees, the head of a non-empty child queue moves into it. -/
  | childQueueMove (die cid : Nat)
  /-- R120. A SPAWN waiting in the pending-spawn slot is appended once its child queue has room. -/
  | pendingSpawnAppend (core : Nat)
  /-- R125. At each 10 ms window every partition's deficit counter is refilled with its budget. -/
  | deficitWindow
  /-- R126. A team that has waited 2 ms moves to the next lower class number. -/
  | classAging (team : Nat)
  /-- R144. At the end of a slice entry, the partition's contexts are stopped, saved and replaced by the next entry's. -/
  | sliceEnd (set : Nat)
  /-- R89. A waiting WAITV re-reads its word after a store to its line, or every 10 µs. -/
  | waitvReread (pid q : Nat)
  /-- R89. A WAITV timeout sends WAITTO and abandons the list. -/
  | waitvTimeout (pid q : Nat)
  /-- R83. A tagged send that hands a command list to a command queue, answered by SUBACK. -/
  | submit (m : SubmitMsg)
  /-- R86. An 8-byte RMA write performed as a store with release at SYS. -/
  | signal (m : RmaMsg) (value : BitVec 64)
  /-- R81. A host RMA write into the context's raw windows. -/
  | rmaWrite (m : RmaMsg) (bytes : List (BitVec 8))
  /-- R81. A host RMA read from the context's raw windows. -/
  | rmaRead (m : RmaMsg) (len : Nat)
  /-- R97. A request answered by a report signed with the device identity key. -/
  | attestationRequest (m : AttestMsg)
  /-- R95. The network engine places an arriving packet at its offset, matching it to a posted receive or NACKing it. -/
  | uePacketReceive (p : UePkt)
  /-- R95. The NSCC retransmission timeout resends unacknowledged packets, and after eight timeouts raises LINK_DOWN. -/
  | ueRetransmitTimeout (op pkt : Nat)
  /-- R95. A NACKed or trimmed packet is retransmitted alone. -/
  | ueNack (op pkt : Nat)
  /-- R56. At the start of each 1.6 µs slot the switches change matching and partners advertise relay space. -/
  | rotorSlotStart (adverts : List (Nat × Nat))
  /-- R76. A TSYNC link-control flit received from a partner steers GTS toward the root. -/
  | tsync (dev : Nat) (gts echo : BitVec 64)
  /-- R62. At the end of a slot's data time, the receiver discards packets it has not received whole. -/
  | slotEndDiscard (port : Nat) (rx : SlotRx)
  /-- R62. A flit that fails FEC or CHK is requested again from the sender's replay buffer. -/
  | linkReplay (req : ReplayReq)
  /-- R63. A wavelength whose error estimate exceeds the threshold is withdrawn by agreement. -/
  | wavelengthWithdraw (port : Nat) (lam : LamReq)
  /-- R63. A retrained wavelength rejoins at a flit boundary. -/
  | wavelengthRejoin (port : Nat) (lam : LamReq)
  /-- R59. A relay forwards a packet in its planned second-hop slot, or drops it. -/
  | relayForward (idx : Nat)
  /-- R68. A remote load request at the destination, deduplicated and answered by DATA. -/
  | ldreq (p : Pkt)
  /-- R68. A remote raw store at the destination, performed once and answered by ACK. -/
  | streq (p : Pkt)
  /-- R73. A remote atomic, possibly combined, performed member by member at the destination. -/
  | atreq (p : Pkt)
  /-- R72. A waiting ATREQ combines with another at an edge-die egress queue or a relay. -/
  | atreqCombine (x y : Nat)
  /-- R459. A remote write of data, or an XOR-accumulate, at the destination, answered by ACK. -/
  | push (p : Pkt)
  /-- R68. A remote read request answered by DATA. -/
  | pullreq (p : Pkt)
  /-- R65. A response to LDREQ or PULLREQ that completes the request at its issuer. -/
  | data (p : Pkt)
  /-- R65. A response to STREQ or PUSH that completes the request at its issuer. -/
  | ack (p : Pkt)
  /-- R73. An atomic response returning each member's result. -/
  | atresp (p : Pkt)
  /-- R70. A request is retransmitted on another path after two rotor cycles, a path failure or a BUSY answer. -/
  | fabricRetransmit (idx : Nat)
  /-- R70. A request with no response is abandoned, raising REMOTE_UNCERTAIN or LINK_DOWN. -/
  | fabricAbandon (idx : Nat)
  /-- R77. At the agreed cycle every device maps the failed number to the spare's position. -/
  | hotSpareTakeover (num pos : BitVec 8) (cyc : BitVec 64)
  /-- R47. The release of reset samples the straps and runs the boot sequence. -/
  | resetRelease (b : BootInput)
  /-- R51. A rising edge on STRAP_WAKE restarts the boot sequence from the lowest power state. -/
  | strapWake (b : BootInput)
  /-- R52. A freeze raised through the test access port puts DRAM into self-refresh and stops every clock. -/
  | freeze
  /-- R54. THAW restarts the clocks and DRAM, and the ports retrain. -/
  | thaw (viaTap : Bool)
  /-- R53. A read or write of frozen state through the test access port. -/
  | tapAccess (op : TapOp)
  /-- R40. An island steps down one operating point on excess power density, junction temperature or module power. -/
  | thermalStepDown (isl : Nat) (r : ThermReading)
  /-- R40. An island steps up one operating point after 100 µs with every condition clear. -/
  | thermalStepUp (isl : Nat) (r : ThermReading)
  /-- R42. An island at OP4 reaching THERMLIM + 10 °C stops issue and keeps its state. -/
  | thermalHold (isl : Nat) (r : ThermReading)
  /-- R42. The hold ends when the junction falls below THERMLIM. -/
  | thermalHoldEnd (isl : Nat) (r : ThermReading)
  /-- R362. A message on the management header sets the MGMT cause of WFE. -/
  | mgmtMessage
  /-- R252. A write that left its engine is performed at its home agent or target and completes. This covers a released store, tensor or copy write, a drain row and a CXCH delivery, and it applies any SIG that waits on that completion. -/
  | performedAtHome (idx : Nat)
  /-- R176. Data read by an ACC or CPY word lands in its data-queue entry, g register or scratchpad, which releases the stalled pops and interlocked readers. -/
  | dataLanded (core eng : Nat)
  /-- R122. The die-to-die messages of a migrated team arrive at the target die, where the team becomes WAITING and is placed on its pods. -/
  | teamMigrationArrival (idx : Nat)
  /-- R77. Under wait-for-repair, the failed device number is marked absent in every position table. -/
  | failedNumberMarkedAbsent (num : BitVec 8)
  /-- R261. The debug interface requests a stop on a context, or halts issue with the replay buffer capturing the engines' state. -/
  | debugInterfaceRequest (r : DebugReq)
  /-- R49. Module power is lost: all state is lost except flash, and an XMSS leaf already advanced may be wasted. -/
  | powerLoss
  deriving DecidableEq, Repr

end Sys2Proof
end

