-- ==== Sys2Proof/WellFormed.lean ====
section
/-! DEFINITION. The static checks of an instruction word and of a command-list entry: the tests of Table 13.16 that need
neither the launch nor the loop state (FN, reserved bits and codes, modifiers, rounding and scope codes, register names and
queue directions, last-use bits, format codes), and the reserved fields of Tables 4.4 and 4.5. -/

namespace Sys2Proof

/-- Why a word or an entry is not well formed. Every one of them raises ILLEGAL (Table 13.16, R91). -/
inductive Ill where
  | reserved   -- a reserved bit, code or FN value, or a field the form does not use (R302 to R306)
  | modifier   -- a modifier or qualifier bit the form does not accept (R304, R305)
  | rounding   -- a rounding code 5 to 7 (R278)
  | scope      -- a scope code 5 to 7, or a scope without an ordering (R225, R305)
  | register   -- a register field without a name, or a queue against its direction (R25)
  | lastUse    -- a last-use bit set against R306
  | guard      -- guard codes 1 to 7 (R303)
  | latency    -- a LAT field that must be 0 (R302, R365)
  | immediate  -- an immediate, selector or count outside its range
  | format     -- a format code reserved or not accepted (R271, R388)
  deriving DecidableEq, Repr

/-- The use a form makes of a register field (Table 1.6, R306). -/
inductive Role where
  | z     -- not used
  | sD | sS | sDS               -- control core: destination, source, data source in the D field
  | gD | gS | gqD | gqS | dqD | stsD   -- ACC
  | vD | vS | vlS | pD | pS | qD | qS | dqS   -- EXE
  deriving DecidableEq, Repr

/-- Whether the LAT field is free or must be 0. -/
inductive LatRule where
  | any
  | zero
  deriving DecidableEq, Repr

/-- The register file a role names; 0 is none. -/
def Role.file : Role → Nat
  | .sD | .sS => 1
  | .gD | .gS | .gqD | .gqS | .stsD => 2
  | .vD | .vS | .vlS => 3
  | .pD | .pS => 4
  | .qD | .qS => 5
  | _ => 0

/-- The field values a role admits (Table 1.6; p0 is never a destination, R364). -/
def Role.ok (r : Role) (v : BitVec 6) : Bool :=
  let n := v.toNat
  match r with
  | .z => n == 0
  | .sD | .sS | .sDS => true
  | .gD | .gS => n < 32
  | .gqD => n < 36 || n == 38
  | .gqS => n < 32 || n == 36 || n == 37 || n == 38
  | .dqD => 32 ≤ n && n < 36
  | .stsD => n < 32 || n == 36 || n == 37
  | .vD => n < 56 || n == 60 || n == 61 || n == 63
  | .vS | .vlS => n < 60 || n == 63
  | .pD => 1 ≤ n && n < 16
  | .pS => n < 16
  | .qD | .qS => n < 16
  | .dqS => 56 ≤ n && n < 60

/-- Whether a source field may carry a last-use bit: an ordinary register, not s0, vz, p0 or a queue (R306). -/
def Role.mayLast (r : Role) (v : BitVec 6) : Bool :=
  let n := v.toNat
  match r with
  | .sS => n != 0
  | .gS | .gqS => n < 32
  | .vS | .vlS => n < 56
  | .pS => n != 0 && n < 16
  | .qS => n < 16
  | _ => false

/-- R306: a last-use bit is 0, or its field may carry it and is not the register the word writes through D. -/
def lastOk (dr : Role) (d : BitVec 6) (r : Role) (v : BitVec 6) (l : Bool) : Bool :=
  !l || (r.mayLast v && !(dr != .sDS && dr != .stsD && dr.file == r.file && d == v))

/-- The first check of a list that fails names the fault. -/
def firstIll : List (Bool × Ill) → Option Ill
  | [] => none
  | (true, _) :: t => firstIll t
  | (false, i) :: _ => some i

/-- R303: a guard is absent (0) or 8 to 15. -/
def guardOk (q : BitVec 4) : Bool := q == 0 || q.getLsbD 3
/-- Table 12.3: rounding codes 0 to 4. -/
def rmOk (rm : BitVec 3) : Bool := rm.toNat ≤ 4
/-- LAT under R365: 0 where required; an outcome-queue destination of a g form also requires 0. -/
def latOk (dr : Role) (d : BitVec 6) (r : LatRule) (lat : BitVec 4) : Bool :=
  lat == 0 || (r == .any && !(dr == .gqD && d == 38))

/-- Modifier masks of R304 over C: RM is C[5:3], SAT C[2], UNS C[1]. -/
def m0 (c : BitVec 6) : Bool := c == 0
def mUns (c : BitVec 6) : Bool := c &&& 0b111101 == 0
def mSU (c : BitVec 6) : Bool := c &&& 0b111001 == 0
def mRS (c : BitVec 6) : Bool := c &&& 0b000011 == 0

/-- Qualifier masks of R305 over K = LAT ‖ Q. -/
def k0 (lat q : BitVec 4) : Bool := lat == 0 && q == 0
def kN (lat q : BitVec 4) : Bool := lat &&& 0b1011 == 0 && q == 0

/-- Control-core RR words. -/
def rrCC (dr ar br cr : Role) (k : BitVec 4 → BitVec 4 → Bool) (o : RR) : Option Ill :=
  firstIll [(k o.lat o.q, .modifier), (dr.ok o.d && ar.ok o.a && br.ok o.b && cr.ok o.c, .reserved),
    (lastOk dr o.d ar o.a o.la && lastOk dr o.d br o.b o.lb && lastOk dr o.d cr o.c o.lc, .lastUse)]

/-- Atomics (R328): SCOPE K[2:0], ORD K[4:3], NC K[5], NQ K[6]. -/
def rrAT (nq : Bool) (o : RR) : Option Ill :=
  let scope := (o.q.extractLsb' 0 3).toNat
  firstIll [(!o.lat.getLsbD 3, .reserved), (nq || !o.lat.getLsbD 2, .modifier),
    (scope ≤ 4 && ((o.lat.getLsbD 0 || o.q.getLsbD 3) || scope == 0), .scope),
    (lastOk .sD o.d .sS o.a o.la && lastOk .sD o.d .sS o.b o.lb && lastOk .sD o.d .sS o.c o.lc, .lastUse)]

def immAny (_ : BitVec 24) : Bool := true
def immShift (i : BitVec 24) : Bool := i.extractLsb' 6 18 == 0
def immCl (i : BitVec 24) : Bool := i.toNat ≤ 5
/-- RI words of the control core and the g moves of ACC. -/
def riCC (dr ar : Role) (im : BitVec 24 → Bool) (o : RI) : Option Ill :=
  firstIll [(dr.ok o.d && ar.ok o.a, .register), (im o.imm, .immediate), (lastOk dr o.d ar o.a o.la, .lastUse)]
/-- Raw loads and stores (R327): IMM24[23:21] is the scope, 0 without an ordering. -/
def riLS (dr ar : Role) (ord : BitVec 1) (o : RI) : Option Ill :=
  let scope := (o.imm.extractLsb' 21 3).toNat
  firstIll [(scope ≤ 4 && (ord == 1 || scope == 0), .scope), (lastOk dr o.d ar o.a o.la, .lastUse)]
/-- GPARM (R374). -/
def riGp (o : RI) : Option Ill :=
  let code := (o.imm.extractLsb' 16 8).toNat
  let arg := o.imm.extractLsb' 0 16
  firstIll [(Role.gqD.ok o.d && o.a == 0 && !o.la, .register), (code ≤ 7, .immediate),
    (if code == 5 || code == 6 then arg.extractLsb' 13 3 == 0 else arg == 0, .immediate)]
/-- LOOP (R375): IMM24[15:0] count, [18:16] stages − 1, [21:19] epilogue, [22] count from register A. -/
def riLoop (ar : Role) (lvl : BitVec 3) (o : RI) : Option Ill :=
  let reg := o.imm.getLsbD 22
  firstIll [(lvl.toNat ≤ 5, .immediate), (!o.imm.getLsbD 23, .reserved),
    ((o.imm.extractLsb' 19 3).toNat ≤ (o.imm.extractLsb' 16 3).toNat, .immediate),
    (if reg then o.imm.extractLsb' 0 16 == 0 && ar.ok o.a else o.a == 0, .reserved),
    (lastOk .z 0 ar o.a o.la && (reg || !o.la), .lastUse)]
def riSloop (o : RI) : Option Ill := firstIll [(o.a == 0 && !o.la && o.imm == 0, .reserved)]

/-- Branches with two sources, and with one (R332). -/
def brCC (ar br : Role) (o : BR) : Option Ill := firstIll [(lastOk .z 0 ar o.a o.la && lastOk .z 0 br o.b o.lb, .lastUse)]
def brZ (o : BR) : Option Ill := firstIll [(o.b == 0 && !o.lb && !o.la, .reserved)]
def jmOk (_ : JM) : Option Ill := none

def immZ (i : BitVec 12) : Bool := i == 0
def immAny12 (_ : BitVec 12) : Bool := true
def immBit (i : BitVec 12) : Bool := i.toNat ≤ 1
def immNZ (i : BitVec 12) : Bool := i != 0
def immMask (i : BitVec 12) : Bool := i != 0 && i.toNat ≤ 31
def immMode (i : BitVec 12) : Bool := i != 0 && i.toNat ≤ 3
def immSel3 (i : BitVec 12) : Bool := i.toNat ≤ 2
def immScope (i : BitVec 12) : Bool := i.toNat ≤ 4
def immLvl (i : BitVec 12) : Bool := (i.extractLsb' 0 3).toNat ≤ 5
def immLvlOnly (i : BitVec 12) : Bool := i.toNat ≤ 5
def selZ (s : BitVec 11) : Bool := s == 0
def selAny (_ : BitVec 11) : Bool := true
def selTok (s : BitVec 11) : Bool := s.toNat < 256
def selTokNZ (s : BitVec 11) : Bool := s != 0 && s.toNat < 256
def selTid (s : BitVec 11) : Bool := s.toNat < 1024
def selCb (s : BitVec 11) : Bool := s.toNat < 32
def selPid (s : BitVec 11) : Bool := s.toNat < 128
def selScope4 (s : BitVec 11) : Bool := s.toNat ≤ 3
/-- SY words of the control core. -/
def syCC (dr ar : Role) (sel : BitVec 11 → Bool) (im : BitVec 12 → Bool) (o : SY) : Option Ill :=
  firstIll [(dr.ok o.d && ar.ok o.a, .reserved), (sel o.sel, .immediate), (im o.imm, .immediate),
    (lastOk dr o.d ar o.a o.la, .lastUse)]
/-- RINGCPY (Table 14.14): D is OFFH, SEL[10:8] the engine. -/
def syRing (o : SY) : Option Ill :=
  let e := (o.sel.extractLsb' 8 3).toNat
  firstIll [(1 ≤ e && e ≤ 5, .immediate), (lastOk .z 0 .sS o.a o.la, .lastUse)]
/-- NET words (R450) and NCTL (R454). -/
def syNet (o : SY) : Option Ill := firstIll [(o.a == 0 && !o.la && o.imm == 0, .reserved)]
def syNctl (op : Nat) (o : SY) : Option Ill :=
  firstIll [(o.a == 0 && !o.la && o.d == 0 && o.sel == 0, .reserved), (o.imm.toNat == op, .immediate)]

/-- TN words: PGREQ, the tensor loads and stores, GATH and SCAT (R342, R369, R371). -/
def tnPg (lim : Nat) (o : TN) : Option Ill :=
  firstIll [(o.x == 0 && !o.l && o.lat == 0 && o.q.extractLsb' 4 4 == 0, .reserved), (o.g.toNat < lim, .register),
    (if lim == 64 then o.q == 0 else guardOk (o.q.extractLsb' 0 4), .guard)]
def tnLd (o : TN) : Option Ill :=
  firstIll [(!o.l && o.q.extractLsb' 4 4 == 0, .reserved), (guardOk (o.q.extractLsb' 0 4), .guard),
    (Role.dqD.ok o.x && o.g.toNat < 32, .register)]
def tnSt (o : TN) : Option Ill :=
  firstIll [(!o.l && o.q.extractLsb' 4 4 == 0, .reserved), (guardOk (o.q.extractLsb' 0 4), .guard),
    ((o.x.toNat == 36 || o.x.toNat == 37) && o.g.toNat < 32, .register), (o.lat == 0, .latency)]
def tnGa (o : TN) : Option Ill :=
  firstIll [(!o.l, .reserved), (guardOk (o.q.extractLsb' 0 4), .guard), (Role.dqD.ok o.x && o.g.toNat < 32, .register)]
def tnSc (o : TN) : Option Ill :=
  firstIll [(!o.l, .reserved), (guardOk (o.q.extractLsb' 0 4), .guard),
    ((o.x.toNat == 36 || o.x.toNat == 37) && o.g.toNat < 32, .register), (o.lat == 0, .latency)]

/-- RR(I) words of ACC and EXE. -/
def rriOk (dr ar : Role) (lr : LatRule) (o : RRI) : Option Ill :=
  firstIll [(dr.ok o.d && ar.ok o.a, .register), (lastOk dr o.d ar o.a o.la, .lastUse), (guardOk o.q, .guard),
    (latOk dr o.d lr o.lat, .latency)]
def rriSh (o : RRI) : Option Ill :=
  (rriOk .gqD .gqS .any o).or (firstIll [(o.imm.extractLsb' 6 8 == 0, .immediate)])
def imm0 (i : BitVec 14) : Bool := i == 0
def immSkip (i : BitVec 14) : Bool := 1 ≤ i.toNat && i.toNat ≤ 63
def immCb (i : BitVec 14) : Bool := i.toNat < 32
def immQ (i : BitVec 14) : Bool := i.toNat ≤ 5
def immSq (i : BitVec 14) : Bool := i.toNat == 4 || i.toNat == 5
def immBit8 (i : BitVec 14) : Bool := i.toNat < 256
def rriIm (dr ar : Role) (im : BitVec 14 → Bool) (lr : LatRule) (o : RRI) : Option Ill :=
  (rriOk dr ar lr o).or (firstIll [(im o.imm, .immediate)])
/-- SETCL and INCCL of ACC and EXE (R379): D = 1 adds a register. -/
def rriCl (ar : Role) (o : RRI) : Option Ill :=
  firstIll [(o.d.toNat ≤ 1, .register), ((o.imm.extractLsb' 0 3).toNat ≤ 5, .immediate),
    (if o.d == 0 then o.a == 0 && !o.la else ar.ok o.a, .register), (lastOk .z 0 ar o.a o.la, .lastUse),
    (guardOk o.q, .guard), (o.lat == 0, .latency)]

/-- RR words of ACC and EXE with a modifier field in C (R304). -/
def rrM (dr ar br : Role) (m : BitVec 6 → Bool) (lr : LatRule) (o : RR) : Option Ill :=
  firstIll [(!o.lc, .reserved), (m o.c, .modifier), (m0 o.c || rmOk (o.c.extractLsb' 3 3), .rounding),
    (dr.ok o.d && ar.ok o.a && br.ok o.b, .register),
    (lastOk dr o.d ar o.a o.la && lastOk dr o.d br o.b o.lb, .lastUse), (guardOk o.q, .guard),
    (latOk dr o.d lr o.lat, .latency)]
/-- The same with a type or width code, where 3 is reserved (R307). -/
def rrMT (t : BitVec 2) (dr ar br : Role) (m : BitVec 6 → Bool) (o : RR) : Option Ill :=
  (rrM dr ar br m .any o).or (firstIll [(t != 3, .reserved)])
/-- RR words of EXE that name a C register. -/
def rrC (dr ar br cr : Role) (o : RR) : Option Ill :=
  firstIll [(dr.ok o.d && ar.ok o.a && br.ok o.b && cr.ok o.c, .register),
    (lastOk dr o.d ar o.a o.la && lastOk dr o.d br o.b o.lb && lastOk dr o.d cr o.c o.lc, .lastUse), (guardOk o.q, .guard)]
def rrCT (t : BitVec 2) (dr ar br cr : Role) (o : RR) : Option Ill :=
  (rrC dr ar br cr o).or (firstIll [(t != 3, .reserved)])
def rrShuf (t : BitVec 2) (o : RR) : Option Ill := (rrC .vD .vS .vS .vS o).or (firstIll [(t.toNat ≤ 1, .reserved)])
def rrCmp (fn : BitVec 5) (o : RR) : Option Ill :=
  (rrM .pD .vS .vS m0 .any o).or (firstIll [((fn.extractLsb' 0 3).toNat ≤ 5 && fn.extractLsb' 3 2 != 3, .reserved)])
def rrICmp (cond : BitVec 3) (o : RR) : Option Ill :=
  (firstIll [(o.c &&& 0b001101 == 0 && o.c.extractLsb' 4 2 != 3 && !o.lc, .modifier), (cond.toNat ≤ 5, .reserved)]).or
    (rrM .pD .vS .vS m0 .any { o with c := 0 })
/-- The formats VCVT accepts (R388): codes 0 to 4, 6 and 8 to 15. -/
def cvtFmtOk (n : Nat) : Bool := n ≤ 4 || n == 6 || (8 ≤ n && n ≤ 15)
def rrCvt (g : BitVec 5) (o : RR) : Option Ill :=
  (firstIll [(o.b.getLsbD 5 == false && !o.lb, .reserved),
    (cvtFmtOk g.toNat && cvtFmtOk (o.b.extractLsb' 0 5).toNat, .format)]).or (rrM .vD .vS .z mRS .any { o with b := 0 })
/-- DEFER (R392), DRAIN and DRAINF (R393). -/
def rrDefer (o : RR) : Option Ill :=
  (firstIll [(o.d.toNat ≤ 3, .reserved), (o.a.toNat + o.d.toNat ≤ 55, .register)]).or
    (rrM .z .vS .pS m0 .any { o with d := 0 })
def rrDrain (o : RR) : Option Ill :=
  (firstIll [(o.a.toNat ≤ 3 && !o.la && !o.lb, .reserved), (o.d.toNat + (o.a.toNat + 1) ≤ 55, .register),
    (Role.pD.ok o.b, .register)]).or (rrM .vD .z .z m0 .any { o with a := 0, b := 0 })
/-- VQBLK and VDQBLK (R394): B[2:0] is the group index. -/
def rrBlk (t : BitVec 2) (o : RR) : Option Ill :=
  (firstIll [(o.b.extractLsb' 3 3 == 0 && !o.lb, .reserved), (t.toNat ≤ 1, .reserved),
    ((o.b.extractLsb' 0 3).toNat ≤ (if t == 0 then 3 else 1), .immediate)]).or (rrM .vD .vS .z m0 .any { o with b := 0 })
def rrOmax (o : RR) : Option Ill := (firstIll [(o.d.toNat ≤ 54, .register)]).or (rrM .vD .vS .vS m0 .any o)
def rrClv (o : RR) : Option Ill :=
  (firstIll [(o.a.toNat ≤ 5 && !o.la, .immediate)]).or (rrM .vD .z .z m0 .any { o with a := 0 })
/-- QAND and QOR (R406): .dep and .strict exclude each other. -/
def rrQl (fx : BitVec 2) (r : Role) (o : RR) : Option Ill :=
  (firstIll [(fx != 3, .modifier)]).or (rrM .qD r r m0 .any o)

/-- MG words (R420, Table 19.6). -/
def mgOk (nest : Bool) (accMax : Nat) (qAny : Bool) (o : MG) : Option Ill :=
  firstIll [(nest || o.nest == 0, .reserved), (o.acc.toNat ≤ accMax, .reserved), (qAny || o.q == 0, .reserved)]
def mgMlds (o : MG) : Option Ill := firstIll [(o.nest == 0 && o.acc.toNat ≤ 1, .reserved)]
def mgMgo (o : MG) : Option Ill :=
  firstIll [(o.acc.toNat ≤ 1 && !o.q.getLsbD 7, .reserved), (rmOk (o.q.extractLsb' 2 3), .rounding),
    (!o.q.getLsbD 1 || o.q.getLsbD 0, .modifier)]
def mgDrain (o : MG) : Option Ill :=
  firstIll [(o.acc.toNat ≤ 1 && o.q.extractLsb' 6 2 == 0, .reserved), (rmOk (o.q.extractLsb' 0 3), .rounding)]
def mgQ (accOk : Bool) (mask : Nat) (o : MG) : Option Ill :=
  firstIll [(o.nest == 0 && o.acc.toNat ≤ (if accOk then 1 else 0), .reserved), (o.q.toNat ≤ mask, .reserved)]

/-- CP words (R438, Table 20.4): the largest value of each field. What the slot's MODE leaves unused is tested at issue. -/
def cpOk (g a b q : Nat) (o : CP) : Option Ill :=
  firstIll [(o.g.toNat ≤ g && o.tida.toNat ≤ a && o.tidb.toNat ≤ b && o.q.toNat ≤ q, .reserved)]
def cpSync (o : CP) : Option Ill :=
  firstIll [(o.dslot == 0 && o.g == 0 && o.tida == 0 && o.tidb == 0 && o.q == 0, .reserved)]

/-- Command-list entries (R87, R88): reserved words and flags are 0, COND is 0 to 5. -/
def CL.flags (o : CL) (max : Nat) : Bool := o.flg.toNat ≤ max
def CL.hi32 (w : BitVec 64) : Bool := w.toNat < 2 ^ 32
def clOk (conds : CL → List (Bool × Ill)) (o : CL) : Option Ill := firstIll (conds o)

/-- The first static check that fails, if any (Table 13.16; Tables 4.4 and 4.5). Events of agents carry no encoding. -/
def Instr.check : Instr → Option Ill
  | .nop _ | .mark _ => none
  | .ill b => firstIll [(b.extractLsb' 40 8 == 0x7F, .reserved)]
  | .add _ o => rrCC .sD .sS .sS .z k0 o
  | .sub _ o => rrCC .sD .sS .sS .z k0 o
  | .and _ o => rrCC .sD .sS .sS .z k0 o
  | .or _ o => rrCC .sD .sS .sS .z k0 o
  | .xor _ o => rrCC .sD .sS .sS .z k0 o
  | .andn _ o => rrCC .sD .sS .sS .z k0 o
  | .shl _ o => rrCC .sD .sS .sS .z k0 o
  | .shr _ o => rrCC .sD .sS .sS .z k0 o
  | .sar _ o => rrCC .sD .sS .sS .z k0 o
  | .min _ o => rrCC .sD .sS .sS .z kN o
  | .max _ o => rrCC .sD .sS .sS .z kN o
  | .slt _ o => rrCC .sD .sS .sS .z kN o
  | .seq _ o => rrCC .sD .sS .sS .z k0 o
  | .addi _ o => riCC .sD .sS immAny o
  | .andi _ o => riCC .sD .sS immAny o
  | .ori _ o => riCC .sD .sS immAny o
  | .xori _ o => riCC .sD .sS immAny o
  | .shli _ o => riCC .sD .sS immShift o
  | .shri _ o => riCC .sD .sS immShift o
  | .sari _ o => riCC .sD .sS immShift o
  | .slti _ o => riCC .sD .sS immAny o
  | .mul _ o => rrCC .sD .sS .sS .z k0 o
  | .mulh _ o => rrCC .sD .sS .sS .z kN o
  | .div _ o => rrCC .sD .sS .sS .z kN o
  | .rem _ o => rrCC .sD .sS .sS .z kN o
  | .movi _ o => riCC .sD .z immAny o
  | .movhi _ o => riCC .sD .sS immAny o
  | .movpc _ o => riCC .sD .z immAny o
  | .clz _ o => rrCC .sD .sS .z .z k0 o
  | .ctz _ o => rrCC .sD .sS .z .z k0 o
  | .popc _ o => rrCC .sD .sS .z .z k0 o
  | .brev _ o => rrCC .sD .sS .z .z k0 o
  | .bext _ o => rrCC .sD .sS .sS .sS k0 o
  | .bins _ o => rrCC .sD .sS .sS .sS k0 o
  | .sel _ o => rrCC .sD .sS .sS .sS k0 o
  | .cset _ o => rrCC .sD .sS .z .z k0 o
  | .ldb _ fx o => riLS .sD .sS fx o
  | .ldh _ fx o => riLS .sD .sS fx o
  | .ldw _ fx o => riLS .sD .sS fx o
  | .ldd _ fx o => riLS .sD .sS fx o
  | .stb _ fx o => riLS .sDS .sS fx o
  | .sth _ fx o => riLS .sDS .sS fx o
  | .stw _ fx o => riLS .sDS .sS fx o
  | .std _ fx o => riLS .sDS .sS fx o
  | .ldra _ o => rrCC .sD .sS .sS .z k0 o
  | .aadd _ o => rrAT false o
  | .aand _ o => rrAT false o
  | .aor _ o => rrAT false o
  | .axor _ o => rrAT false o
  | .amin _ o => rrAT true o
  | .amax _ o => rrAT true o
  | .aswp _ o => rrAT false o
  | .acas _ o => rrAT false o
  | .afadd _ o => rrAT true o
  | .facq _ o => syCC .z .z selZ immScope o
  | .frel _ o => syCC .z .z selZ immScope o
  | .far _ o => syCC .z .z selZ immScope o
  | .beq _ o => brCC .sS .sS o
  | .bne _ o => brCC .sS .sS o
  | .blt _ _ o => brCC .sS .sS o
  | .bge _ _ o => brCC .sS .sS o
  | .bz _ o => brZ o
  | .bnz _ o => brZ o
  | .dbnz _ o => brZ o
  | .jmp _ o => jmOk o
  | .call _ o => jmOk o
  | .jr _ o => rrCC .z .sS .z .z k0 o
  | .callr _ o => rrCC .z .sS .z .z k0 o
  | .ret _ o => rrCC .z .z .z .z k0 o
  | .setcl _ o => syCC .z .sS selZ immLvl o
  | .inccl _ o => syCC .z .sS selZ immLvl o
  | .setcrd _ o => syCC .z .sS selZ immZ o
  | .getcrd _ o => syCC .sD .z selZ immZ o
  | .getcl _ o => syCC .sD .z selZ immLvlOnly o
  | .cut _ o => syCC .z .sS selZ immZ o
  | .cutq _ o => syCC .sD .z selZ immBit o
  | .cutw _ o => syCC .z .sS selZ immZ o
  | .pushq _ o => rrCC .z .sS .sS .z k0 o
  | .pushqn _ o => rrCC .sD .sS .sS .z k0 o
  | .ringcpy _ o => syRing o
  | .wset _ o => syCC .z .sS selTokNZ immZ o
  | .tinc _ o => syCC .z .z selTokNZ immNZ o
  | .tdec _ o => syCC .z .z selTokNZ immNZ o
  | .trd _ o => syCC .sD .z selTok immBit o
  | .tset _ o => syCC .z .sS selTokNZ immZ o
  | .join _ o => syCC .z .z selZ immMask o
  | .tdset _ o => syCC .z .sS selTid immZ o
  | .tdrd _ o => syCC .z .sS selTid immZ o
  | .tdinv _ o => syCC .z .z selTid immZ o
  | .phreg _ o => syCC .z .sS selZ immMode o
  | .phdrop _ o => syCC .z .sS selZ immZ o
  | .phsig _ o => syCC .sDS .sS selZ immZ o
  | .phwait _ o => syCC .z .sS selZ immZ o
  | .phsw _ o => syCC .sDS .sS selZ immZ o
  | .phexp _ o => syCC .sDS .sS selZ immZ o
  | .phrd _ o => syCC .sD .sS selZ immSel3 o
  | .phase _ o => syCC .z .sS selZ immZ o
  | .spawn _ o => syCC .z .sS selZ immZ o
  | .spawnw _ o => syCC .z .sS selZ immZ o
  | .dwb _ o => syCC .z .sS selZ immAny12 o
  | .dinv _ o => syCC .z .sS selZ immAny12 o
  | .iinv _ o => syCC .z .sS selScope4 immAny12 o
  | .fetchb _ o => syCC .z .z selZ immZ o
  | .ilock _ o => syCC .sD .sS selZ immAny12 o
  | .iunlk _ o => syCC .z .sS selZ immAny12 o
  | .ecfgw _ o => syCC .z .sS selAny immZ o
  | .ecfgr _ o => syCC .sD .z selAny immZ o
  | .rdsr _ o => syCC .sD .z selAny immZ o
  | .wrsr _ o => syCC .z .sS selAny immZ o
  | .setsr _ o => syCC .z .sS selAny immZ o
  | .clrsr _ o => syCC .z .sS selAny immZ o
  | .trap _ o => syCC .z .z selZ immAny12 o
  | .brk _ o => syCC .z .z selZ immAny12 o
  | .tret _ o => syCC .z .z selZ immZ o
  | .cbstat _ o => syCC .sD .z selCb immSel3 o
  | .cbrst _ o => syCC .z .sS selCb immZ o
  | .ttrd _ o => syCC .sDS .sS selTid immZ o
  | .ttset _ o => syCC .sDS .sS selTid immZ o
  | .ttref _ o => syCC .z .sS selTid immZ o
  | .ttunref _ o => syCC .z .sS selTid immZ o
  | .pgreq _ o => tnPg 64 o
  | .tend _ o => syCC .z .z selZ immZ o
  | .ctxnew _ o => syCC .sD .sS selZ immZ o
  | .ctxkill _ o => syCC .sD .sS selZ immZ o
  | .ctxinc _ o => syCC .sD .sS selZ immZ o
  | .ctxsave _ o => syCC .sD .sS selZ immZ o
  | .ctxload _ o => syCC .sD .sS selZ immZ o
  | .rcf _ o => syCC .sD .sS selZ immBit o
  | .pcreate _ o => syCC .sD .sS selZ immZ o
  | .psetq _ o => syCC .sD .sS selZ immZ o
  | .pdestroy _ o => syCC .sD .z selPid immZ o
  | .chmap _ o => syCC .sD .sS selPid immZ o
  | .slice _ o => syCC .sD .sS selZ immZ o
  | .sbudget _ o => syCC .sD .sS selPid immZ o
  | .fbpop _ o => syCC .sD .sS selZ immZ o
  | .fbrel _ o => syCC .sD .z selPid immZ o
  | .pgpop _ o => syCC .sD .sS selZ immZ o
  | .fbact _ o => syCC .sD .sS selZ immZ o
  | .frz _ o => syCC .z .z selZ immZ o
  | .caprd _ o => syCC .sD .sS selPid immZ o
  | .sleep _ o => syCC .sD .z selZ immZ o
  | .wfe _ o => syCC .sD .z selZ immZ o
  | .ldt _ o => tnLd o
  | .ldtr _ o => tnLd o
  | .stt _ o => tnSt o
  | .lds _ o => rriOk .dqD .gS .any o
  | .ldsb _ o => rriOk .gD .gS .any o
  | .sts _ o => rriOk .stsD .gS .any o
  | .gath _ o => tnGa o
  | .scat _ o => tnSc o
  | .gadd _ o => rrM .gqD .gqS .gqS m0 .any o
  | .gsub _ o => rrM .gqD .gqS .gqS m0 .any o
  | .gmul _ o => rrM .gqD .gqS .gqS m0 .any o
  | .gshl _ o => rrM .gqD .gqS .gqS m0 .any o
  | .gshr _ o => rrM .gqD .gqS .gqS m0 .any o
  | .gand _ o => rrM .gqD .gqS .gqS m0 .any o
  | .gor _ o => rrM .gqD .gqS .gqS m0 .any o
  | .gmin _ o => rrM .gqD .gqS .gqS mUns .any o
  | .gmax _ o => rrM .gqD .gqS .gqS mUns .any o
  | .gaddi _ o => rriOk .gqD .gqS .any o
  | .gandi _ o => rriOk .gqD .gqS .any o
  | .gshli _ o => rriSh o
  | .gmovi _ o => riCC .gqD .z immAny o
  | .gmovhi _ o => riCC .gqD .gqS immAny o
  | .gcl _ o => riCC .gqD .z immCl o
  | .gparm _ o => riGp o
  | .loopAcc _ fx o => riLoop .gS fx o
  | .sloop _ _ o => riSloop o
  | .bpushAcc _ o => rriIm .z .gS imm0 .zero o
  | .bskipAcc _ o => rriIm .z .z immSkip .zero o
  | .cbacq _ o => rriIm .gD .z immCb .any o
  | .cbrel _ o => rriIm .z .z immCb .zero o
  | .setclAcc _ o => rriCl .gS o
  | .incclAcc _ o => rriCl .gS o
  | .dqflush _ o => rriIm .z .z immQ .zero o
  | .dqeos _ o => rriIm .z .z immSq .zero o
  | .pgreqAcc _ o => tnPg 32 o
  | .vadd _ fx o => rrMT fx .vD .vS .vS mRS o
  | .vsub _ fx o => rrMT fx .vD .vS .vS mRS o
  | .vmul _ fx o => rrMT fx .vD .vS .vS mRS o
  | .vmin _ fx o => rrMT fx .vD .vS .vS m0 o
  | .vmax _ fx o => rrMT fx .vD .vS .vS m0 o
  | .vabs _ fx o => rrMT fx .vD .vS .z m0 o
  | .vneg _ fx o => rrMT fx .vD .vS .z m0 o
  | .vfma _ fx o => rrCT fx .vD .vS .vS .vS o
  | .vfms _ fx o => rrCT fx .vD .vS .vS .vS o
  | .vfnma _ fx o => rrCT fx .vD .vS .vS .vS o
  | .viadd _ fx o => rrMT fx .vD .vS .vS mSU o
  | .visub _ fx o => rrMT fx .vD .vS .vS mSU o
  | .vimul _ fx o => rrMT fx .vD .vS .vS mSU o
  | .vshl _ fx o => rrMT fx .vD .vS .vS m0 o
  | .vshr _ fx o => rrMT fx .vD .vS .vS mUns o
  | .vand _ fx o => rrMT fx .vD .vS .vS m0 o
  | .vor _ fx o => rrMT fx .vD .vS .vS m0 o
  | .vxor _ fx o => rrMT fx .vD .vS .vS m0 o
  | .vdot4 _ o => rrC .vD .vS .vS .vS o
  | .vdot2 _ o => rrC .vD .vS .vS .vS o
  | .vdiv _ fx o => rrMT fx .vD .vS .vS mRS o
  | .vsqrt _ fx o => rrMT fx .vD .vS .z mRS o
  | .vrcp _ fx o => rrMT fx .vD .vS .z mRS o
  | .vrsq _ fx o => rrMT fx .vD .vS .z mRS o
  | .vexp2 _ o => rrM .vD .vS .z m0 .any o
  | .vlog2 _ o => rrM .vD .vS .z m0 .any o
  | .vtanh _ o => rrM .vD .vS .z m0 .any o
  | .vcmp _ fx o => rrCmp fx o
  | .vicmp _ fx o => rrICmp fx o
  | .vsel _ o => rrC .vD .vS .vS .pS o
  | .vcvt _ fx o => rrCvt fx o
  | .vrsum _ fx o => rrMT fx .vD .vS .pS m0 o
  | .vrmax _ fx o => rrMT fx .vD .vS .pS m0 o
  | .vrmin _ fx o => rrMT fx .vD .vS .pS m0 o
  | .vrargmax _ fx o => rrMT fx .vD .vS .pS m0 o
  | .vscanadd _ fx o => rrMT fx .vD .vS .pS m0 o
  | .vscanmax _ fx o => rrMT fx .vD .vS .pS m0 o
  | .vperm _ fx o => rrMT fx .vD .vS .vS m0 o
  | .vbcast _ fx o => rrMT fx .vD .vS .vS m0 o
  | .vrot _ fx o => rrMT fx .vD .vS .vS m0 o
  | .vshuf _ fx o => rrShuf fx o
  | .vmov _ o => rrM .vD .vS .z m0 .any o
  | .vmovi _ o => rriOk .vD .z .any o
  | .pand _ o => rrM .pD .pS .pS m0 .any o
  | .por _ o => rrM .pD .pS .pS m0 .any o
  | .pxor _ o => rrM .pD .pS .pS m0 .any o
  | .pnot _ o => rrM .pD .pS .z m0 .any o
  | .pffs _ o => rrM .vD .pS .z m0 .any o
  | .pffz _ o => rrM .vD .pS .z m0 .any o
  | .pcnt _ o => rrM .vD .pS .z m0 .any o
  | .defer _ o => rrDefer o
  | .drain _ o => rrDrain o
  | .drainf _ o => rrDrain o
  | .loopExe _ fx o => riLoop .vlS fx o
  | .bpushExe _ o => rriIm .z .pS immBit8 .zero o
  | .bskipExe _ o => rriIm .z .z immSkip .zero o
  | .setclExe _ o => rriCl .vlS o
  | .incclExe _ o => rriCl .vlS o
  | .vqblk _ fx o => rrBlk fx o
  | .vdqblk _ fx o => rrBlk fx o
  | .vscale _ fx o => rrMT fx .vD .vS .vS mRS o
  | .vomax _ o => rrOmax o
  | .viota _ o => rrM .vD .z .z m0 .any o
  | .vclv _ o => rrClv o
  | .vfrd _ o => rrM .vD .z .z m0 .any o
  | .vfclr _ o => rrM .z .z .z m0 .zero o
  | .vfclrCtx _ o => rrM .z .z .z m0 .zero o
  | .vrmask _ o => rrM .pD .dqS .z m0 .any o
  | .qcmp _ _ o => rrM .qD .vS .vS m0 .any o
  | .qand _ fx o => rrQl fx .qS o
  | .qor _ fx o => rrQl fx .qS o
  | .qnot _ o => rrM .qD .qS .z m0 .any o
  | .qsel _ fx o => rrCT fx .vD .vS .vS .qS o
  | .qcol _ o => rrM .pD .qS .z m0 .any o
  | .qfrom _ o => rrM .qD .vS .z m0 .any o
  | .qto _ o => rrM .vD .qS .z m0 .any o
  | .qgcmp _ _ o => rrM .vD .vS .vS m0 .any o
  | .qgsel _ o => rrM .vD .vS .vS m0 .any o
  | .qgand _ o => rrM .vD .z .qS m0 .any o
  | .qlin _ o => rrM .qD .qS .vS m0 .any o
  | .qrsum _ o => rrM .vD .qS .pS m0 .any o
  | .qrprod _ o => rrM .qD .qS .pS m0 .any o
  | .mldb _ o => mgOk true 0 true o
  | .mlds _ o => mgMlds o
  | .mgo _ o => mgMgo o
  | .mdrain _ o => mgDrain o
  | .mdraina _ o => mgDrain o
  | .minit _ o => mgOk true 1 false o
  | .mswap _ o => mgOk false 0 false o
  | .mwait _ o => mgOk false 0 false o
  | .mstat _ o => mgQ false 3 o
  | .mdq _ o => mgQ true 7 o
  | .mclr _ o => mgOk false 2 false o
  | .mlda _ o => mgOk true 0 false o
  | .msel _ o => mgQ false 3 o
  | .copy _ o => cpOk 63 1023 1023 0 o
  | .copyXor _ o => cpOk 63 1023 1023 0 o
  | .cfill _ o => cpOk 63 1023 0 0 o
  | .cpush _ o => cpOk 0 1023 1023 0 o
  | .cpushXor _ o => cpOk 0 1023 1023 0 o
  | .cpull _ o => cpOk 0 1023 1023 0 o
  | .cxch _ o => cpOk 0 255 63 0 o
  | .ccb _ o => cpOk 63 1023 31 0 o
  | .tcow _ o => cpOk 0 1023 0 0 o
  | .tmigDemote _ o => cpOk 0 1023 0 0 o
  | .tmigPromote _ o => cpOk 0 1023 0 1 o
  | .tshare _ o => cpOk 0 1023 1023 0 o
  | .tfree _ o => cpOk 0 1023 0 0 o
  | .cpref _ o => cpOk 0 1023 0 0 o
  | .csync _ o => cpSync o
  | .nsend _ o => syNet o
  | .nrecv _ o => syNet o
  | .nput _ o => syNet o
  | .nget _ o => syNet o
  | .ncset _ o => syNet o
  | .ncrd _ o => syNet o
  | .nctlFlush _ o => syNctl 0 o
  | .nctlCancel _ o => syNctl 1 o
  | .launch o => clOk (fun o => [(o.flags 1 && CL.hi32 o.w2 && o.w3 == 0 && o.w4 == 0 && o.w5 == 0 && o.w6 == 0 && o.w7 == 0, .reserved)]) o
  | .waitv o => clOk (fun o => [(o.flags 0 && CL.hi32 o.w5 && o.w6 == 0 && o.w7 == 0, .reserved), (o.w4.toNat ≤ 5, .immediate)]) o
  | .sigvSt o => clOk (fun o => [(o.flags 0 && o.w4 == 0 && o.w5 == 0 && o.w6 == 0 && o.w7 == 0, .reserved), (o.w3 == 0, .immediate)]) o
  | .sigvAdd o => clOk (fun o => [(o.flags 0 && o.w4 == 0 && o.w5 == 0 && o.w6 == 0 && o.w7 == 0, .reserved), (o.w3 == 1, .immediate)]) o
  | .sigvOr o => clOk (fun o => [(o.flags 0 && o.w4 == 0 && o.w5 == 0 && o.w6 == 0 && o.w7 == 0, .reserved), (o.w3 == 2, .immediate)]) o
  | .skipif o => clOk (fun o => [(o.flags 0 && o.w6 == 0 && o.w7 == 0, .reserved), (o.w4.toNat ≤ 5, .immediate), (1 ≤ o.w5.toNat && o.w5.toNat ≤ 255, .immediate)]) o
  | .jump o => clOk (fun o => [(o.flags 0 && o.w2 == 0 && o.w3 == 0 && o.w4 == 0 && o.w5 == 0 && o.w6 == 0 && o.w7 == 0, .reserved)]) o
  | .listCall o => clOk (fun o => [(o.flags 0 && o.w2 == 0 && o.w3 == 0 && o.w4 == 0 && o.w5 == 0 && o.w6 == 0 && o.w7 == 0, .reserved)]) o
  | .listRet o => clOk (fun o => [(o.flags 0 && o.w1 == 0 && o.w2 == 0 && o.w3 == 0 && o.w4 == 0 && o.w5 == 0 && o.w6 == 0 && o.w7 == 0, .reserved)]) o
  | .cutreqStop o => clOk (fun o => [(o.flags 1 && o.w3 == 0 && o.w4 == 0 && o.w5 == 0 && o.w6 == 0 && o.w7 == 0, .reserved), (o.w2 == 0, .immediate)]) o
  | .cutreqCancel o => clOk (fun o => [(o.flags 1 && o.w3 == 0 && o.w4 == 0 && o.w5 == 0 && o.w6 == 0 && o.w7 == 0, .reserved), (o.w2 == 1, .immediate)]) o
  | .cutreqResume o => clOk (fun o => [(o.flags 1 && o.w3 == 0 && o.w4 == 0 && o.w5 == 0 && o.w6 == 0 && o.w7 == 0, .reserved), (o.w2 == 2, .immediate)]) o
  | .fence o => clOk (fun o => [(o.flags 1 && o.w1 == 0 && o.w2 == 0 && o.w3 == 0 && o.w4 == 0 && o.w5 == 0 && o.w6 == 0 && o.w7 == 0, .reserved)]) o
  | .note o => clOk (fun o => [(o.flags 0 && o.w2 == 0 && o.w3 == 0 && o.w4 == 0 && o.w5 == 0 && o.w6 == 0 && o.w7 == 0, .reserved)]) o
  | .listEnd o => clOk (fun o => [(o.flags 0 && o.w1 == 0 && o.w2 == 0 && o.w3 == 0 && o.w4 == 0 && o.w5 == 0 && o.w6 == 0 && o.w7 == 0, .reserved)]) o
  | .fxctlClrcnt _ => none
  | .fxctlPdis _ _ => none
  | .fxctlWena _ _ => none
  | .exeCommit _ => none
  | .mtxPointCommit _ => none
  | .ccbFillComplete _ _ => none
  | .migrationFlip _ => none
  | .netCompletion _ _ => none
  | .atomicResult _ => none
  | .homeAtomicPerform _ => none
  | .meshCombine _ _ => none
  | .replySplit _ => none
  | .cowCopyDone _ => none
  | .shadowFillDone _ => none
  | .horizonPublish _ => none
  | .stopAccept _ => none
  | .stopComplete _ => none
  | .watchFire _ _ => none
  | .hang _ => none
  | .fbufConsWrite _ _ => none
  | .rcfComplete _ _ => none
  | .phaserRelease _ => none
  | .teamPlace _ => none
  | .teamMigrate _ _ => none
  | .taskStart _ => none
  | .coreReturn _ => none
  | .launchComplete _ => none
  | .childQueueMove _ _ => none
  | .pendingSpawnAppend _ => none
  | .deficitWindow => none
  | .classAging _ => none
  | .sliceEnd _ => none
  | .waitvReread _ _ => none
  | .waitvTimeout _ _ => none
  | .submit _ => none
  | .signal _ _ => none
  | .rmaWrite _ _ => none
  | .rmaRead _ _ => none
  | .attestationRequest _ => none
  | .uePacketReceive _ => none
  | .ueRetransmitTimeout _ _ => none
  | .ueNack _ _ => none
  | .rotorSlotStart _ => none
  | .tsync _ _ _ => none
  | .slotEndDiscard _ _ => none
  | .linkReplay _ => none
  | .wavelengthWithdraw _ _ => none
  | .wavelengthRejoin _ _ => none
  | .relayForward _ => none
  | .ldreq _ => none
  | .streq _ => none
  | .atreq _ => none
  | .atreqCombine _ _ => none
  | .push _ => none
  | .pullreq _ => none
  | .data _ => none
  | .ack _ => none
  | .atresp _ => none
  | .fabricRetransmit _ => none
  | .fabricAbandon _ => none
  | .hotSpareTakeover _ _ _ => none
  | .resetRelease _ => none
  | .strapWake _ => none
  | .freeze => none
  | .thaw _ => none
  | .tapAccess _ => none
  | .thermalStepDown _ _ => none
  | .thermalStepUp _ _ => none
  | .thermalHold _ _ => none
  | .thermalHoldEnd _ _ => none
  | .mgmtMessage => none
  | .performedAtHome _ => none
  | .dataLanded _ _ => none
  | .teamMigrationArrival _ => none
  | .failedNumberMarkedAbsent _ => none
  | .debugInterfaceRequest _ => none
  | .powerLoss => none

/-- A well-formed instruction passes every static check. -/
def Instr.wf (i : Instr) : Bool := i.check.isNone

end Sys2Proof
end

