-- ==== Sys2Proof/Decode.lean ====
section
/-! DEFINITION. The decoder and the encoder, both written from Tables 13.1 to 13.13 and Tables 4.4 and 4.5. `decodeFor` reads a
word as one engine decodes it and rejects by name; `encode` lays a well-formed instruction out again. -/

namespace Sys2Proof

/-- Why a word or an entry is no instruction of the engine that reads it (Table 13.16). -/
inductive DecodeError where
  | illegal (why : Ill)   -- raises ILLEGAL
  | mismatch              -- an opcode of another engine: raises ENGINE_MISMATCH
  deriving DecidableEq, Repr

/-- The opcode field (Table 13.1). -/
def opcOf (w : BitVec 64) : BitVec 7 := w.extractLsb' 40 7
/-- WAIT and SIG (Table 13.1). -/
def hdrOf (w : BitVec 64) : Hdr := { wait := w.extractLsb' 56 8, sig := w.extractLsb' 48 8 }

/-- A word of Table 13.1 around an operand field. -/
def packWord (h : Hdr) (opc : BitVec 7) (body : BitVec 40) : BitVec 64 := h.wait ++ h.sig ++ (0#1) ++ opc ++ body

def unpackRR (w : BitVec 64) : RR :=
  { d := w.extractLsb' 34 6, a := w.extractLsb' 28 6, la := w.getLsbD 27, b := w.extractLsb' 21 6, lb := w.getLsbD 20,
    c := w.extractLsb' 14 6, lc := w.getLsbD 13, lat := w.extractLsb' 4 4, q := w.extractLsb' 0 4 }
def packRR (h : Hdr) (opc : BitVec 7) (fn : BitVec 5) (o : RR) : BitVec 64 :=
  packWord h opc (o.d ++ o.a ++ BitVec.ofBool o.la ++ o.b ++ BitVec.ofBool o.lb ++ o.c ++ BitVec.ofBool o.lc ++ fn ++ o.lat ++ o.q)
def unpackRRI (w : BitVec 64) : RRI :=
  { d := w.extractLsb' 34 6, a := w.extractLsb' 28 6, la := w.getLsbD 27, imm := w.extractLsb' 13 14,
    lat := w.extractLsb' 4 4, q := w.extractLsb' 0 4 }
def packRRI (h : Hdr) (opc : BitVec 7) (fn : BitVec 5) (o : RRI) : BitVec 64 :=
  packWord h opc (o.d ++ o.a ++ BitVec.ofBool o.la ++ o.imm ++ fn ++ o.lat ++ o.q)
def unpackRI (w : BitVec 64) : RI :=
  { d := w.extractLsb' 34 6, a := w.extractLsb' 28 6, la := w.getLsbD 27, imm := w.extractLsb' 0 24 }
def packRI (h : Hdr) (opc : BitVec 7) (fn : BitVec 3) (o : RI) : BitVec 64 :=
  packWord h opc (o.d ++ o.a ++ BitVec.ofBool o.la ++ fn ++ o.imm)
def unpackBR (w : BitVec 64) : BR :=
  { a := w.extractLsb' 31 6, la := w.getLsbD 30, b := w.extractLsb' 24 6, lb := w.getLsbD 23, off := w.extractLsb' 0 23 }
def packBR (h : Hdr) (opc : BitVec 7) (fn : BitVec 3) (o : BR) : BitVec 64 :=
  packWord h opc (fn ++ o.a ++ BitVec.ofBool o.la ++ o.b ++ BitVec.ofBool o.lb ++ o.off)
def unpackJM (w : BitVec 64) : JM := { off := w.extractLsb' 0 38 }
def packJM (h : Hdr) (opc : BitVec 7) (fn : BitVec 2) (o : JM) : BitVec 64 := packWord h opc (fn ++ o.off)
def unpackTN (w : BitVec 64) : TN :=
  { tid := w.extractLsb' 30 10, g := w.extractLsb' 24 6, x := w.extractLsb' 18 6, l := w.getLsbD 17,
    lat := w.extractLsb' 8 4, q := w.extractLsb' 0 8 }
def packTN (h : Hdr) (opc : BitVec 7) (fn : BitVec 5) (o : TN) : BitVec 64 :=
  packWord h opc (o.tid ++ o.g ++ o.x ++ BitVec.ofBool o.l ++ fn ++ o.lat ++ o.q)
def unpackMG (w : BitVec 64) : MG :=
  { cmd := w.extractLsb' 32 8, p1 := w.extractLsb' 24 8, p2 := w.extractLsb' 16 8, nest := w.extractLsb' 13 3,
    acc := w.extractLsb' 11 2, q := w.extractLsb' 0 8 }
def packMG (h : Hdr) (opc : BitVec 7) (fn : BitVec 3) (o : MG) : BitVec 64 :=
  packWord h opc (o.cmd ++ o.p1 ++ o.p2 ++ o.nest ++ o.acc ++ fn ++ o.q)
def unpackCP (w : BitVec 64) : CP :=
  { dslot := w.extractLsb' 34 6, g := w.extractLsb' 28 6, tida := w.extractLsb' 14 10, tidb := w.extractLsb' 4 10,
    q := w.extractLsb' 0 4 }
def packCP (h : Hdr) (opc : BitVec 7) (fn : BitVec 4) (o : CP) : BitVec 64 :=
  packWord h opc (o.dslot ++ o.g ++ fn ++ o.tida ++ o.tidb ++ o.q)
def unpackSY (w : BitVec 64) : SY :=
  { d := w.extractLsb' 34 6, a := w.extractLsb' 28 6, la := w.getLsbD 27, sel := w.extractLsb' 16 11, imm := w.extractLsb' 0 12 }
def packSY (h : Hdr) (opc : BitVec 7) (fn : BitVec 4) (o : SY) : BitVec 64 :=
  packWord h opc (o.d ++ o.a ++ BitVec.ofBool o.la ++ o.sel ++ fn ++ o.imm)

/-- Word `k` of a command-list entry (R87). -/
def entryWord (e : BitVec 512) (k : Nat) : BitVec 64 := e.extractLsb' (64 * k) 64
def unpackCL (e : BitVec 512) : CL :=
  { flg := e.extractLsb' 8 8, w1 := entryWord e 1, w2 := entryWord e 2, w3 := entryWord e 3, w4 := entryWord e 4,
    w5 := entryWord e 5, w6 := entryWord e 6, w7 := entryWord e 7 }
def packCL (op : BitVec 8) (o : CL) : BitVec 512 :=
  o.w7 ++ o.w6 ++ o.w5 ++ o.w4 ++ o.w3 ++ o.w2 ++ o.w1 ++ (0#48) ++ o.flg ++ op

noncomputable section

/-- The group of opcode 0x01 (R307). -/
def parse01 (w : BitVec 64) : Option Instr :=
  let h := hdrOf w
  let fn : BitVec 5 := w.extractLsb' 8 5
  if fn == 0 then some (.add h (unpackRR w)) else
  if fn == 1 then some (.sub h (unpackRR w)) else
  if fn == 2 then some (.and h (unpackRR w)) else
  if fn == 3 then some (.or h (unpackRR w)) else
  if fn == 4 then some (.xor h (unpackRR w)) else
  if fn == 5 then some (.andn h (unpackRR w)) else
  if fn == 6 then some (.shl h (unpackRR w)) else
  if fn == 7 then some (.shr h (unpackRR w)) else
  if fn == 8 then some (.sar h (unpackRR w)) else
  if fn == 9 then some (.min h (unpackRR w)) else
  if fn == 10 then some (.max h (unpackRR w)) else
  if fn == 11 then some (.slt h (unpackRR w)) else
  if fn == 12 then some (.seq h (unpackRR w)) else
  none

/-- The group of opcode 0x02 (R307). -/
def parse02 (w : BitVec 64) : Option Instr :=
  let h := hdrOf w
  let fn : BitVec 3 := w.extractLsb' 24 3
  if fn == 0 then some (.addi h (unpackRI w)) else
  if fn == 1 then some (.andi h (unpackRI w)) else
  if fn == 2 then some (.ori h (unpackRI w)) else
  if fn == 3 then some (.xori h (unpackRI w)) else
  if fn == 4 then some (.shli h (unpackRI w)) else
  if fn == 5 then some (.shri h (unpackRI w)) else
  if fn == 6 then some (.sari h (unpackRI w)) else
  if fn == 7 then some (.slti h (unpackRI w)) else
  none

/-- The group of opcode 0x03 (R307). -/
def parse03 (w : BitVec 64) : Option Instr :=
  let h := hdrOf w
  let fn : BitVec 5 := w.extractLsb' 8 5
  if fn == 0 then some (.mul h (unpackRR w)) else
  if fn == 1 then some (.mulh h (unpackRR w)) else
  if fn == 2 then some (.div h (unpackRR w)) else
  if fn == 3 then some (.rem h (unpackRR w)) else
  none

/-- The group of opcode 0x04 (R307). -/
def parse04 (w : BitVec 64) : Option Instr :=
  let h := hdrOf w
  let fn : BitVec 3 := w.extractLsb' 24 3
  if fn == 0 then some (.movi h (unpackRI w)) else
  if fn == 1 then some (.movhi h (unpackRI w)) else
  if fn == 2 then some (.movpc h (unpackRI w)) else
  none

/-- The group of opcode 0x05 (R307). -/
def parse05 (w : BitVec 64) : Option Instr :=
  let h := hdrOf w
  let fn : BitVec 5 := w.extractLsb' 8 5
  if fn == 0 then some (.clz h (unpackRR w)) else
  if fn == 1 then some (.ctz h (unpackRR w)) else
  if fn == 2 then some (.popc h (unpackRR w)) else
  if fn == 3 then some (.brev h (unpackRR w)) else
  if fn == 4 then some (.bext h (unpackRR w)) else
  if fn == 5 then some (.bins h (unpackRR w)) else
  none

/-- The group of opcode 0x06 (R307). -/
def parse06 (w : BitVec 64) : Option Instr :=
  let h := hdrOf w
  let fn : BitVec 5 := w.extractLsb' 8 5
  if fn == 0 then some (.sel h (unpackRR w)) else
  if fn == 1 then some (.cset h (unpackRR w)) else
  none

/-- The group of opcode 0x07 (R307). -/
def parse07 (w : BitVec 64) : Option Instr :=
  let h := hdrOf w
  let fn : BitVec 3 := w.extractLsb' 24 3
  if fn &&& 3 == 0 then some (.ldb h (fn.extractLsb' 2 1) (unpackRI w)) else
  if fn &&& 3 == 1 then some (.ldh h (fn.extractLsb' 2 1) (unpackRI w)) else
  if fn &&& 3 == 2 then some (.ldw h (fn.extractLsb' 2 1) (unpackRI w)) else
  if fn &&& 3 == 3 then some (.ldd h (fn.extractLsb' 2 1) (unpackRI w)) else
  none

/-- The group of opcode 0x08 (R307). -/
def parse08 (w : BitVec 64) : Option Instr :=
  let h := hdrOf w
  let fn : BitVec 3 := w.extractLsb' 24 3
  if fn &&& 3 == 0 then some (.stb h (fn.extractLsb' 2 1) (unpackRI w)) else
  if fn &&& 3 == 1 then some (.sth h (fn.extractLsb' 2 1) (unpackRI w)) else
  if fn &&& 3 == 2 then some (.stw h (fn.extractLsb' 2 1) (unpackRI w)) else
  if fn &&& 3 == 3 then some (.std h (fn.extractLsb' 2 1) (unpackRI w)) else
  none

/-- The group of opcode 0x09 (R307). -/
def parse09 (w : BitVec 64) : Option Instr :=
  let h := hdrOf w
  let fn : BitVec 5 := w.extractLsb' 8 5
  if fn == 0 then some (.ldra h (unpackRR w)) else
  none

/-- The group of opcode 0x0A (R307). -/
def parse0A (w : BitVec 64) : Option Instr :=
  let h := hdrOf w
  let fn : BitVec 5 := w.extractLsb' 8 5
  if fn == 0 then some (.aadd h (unpackRR w)) else
  if fn == 1 then some (.aand h (unpackRR w)) else
  if fn == 2 then some (.aor h (unpackRR w)) else
  if fn == 3 then some (.axor h (unpackRR w)) else
  if fn == 4 then some (.amin h (unpackRR w)) else
  if fn == 5 then some (.amax h (unpackRR w)) else
  if fn == 6 then some (.aswp h (unpackRR w)) else
  if fn == 7 then some (.acas h (unpackRR w)) else
  if fn == 8 then some (.afadd h (unpackRR w)) else
  none

/-- The group of opcode 0x0B (R307). -/
def parse0B (w : BitVec 64) : Option Instr :=
  let h := hdrOf w
  let fn : BitVec 4 := w.extractLsb' 12 4
  if fn == 0 then some (.facq h (unpackSY w)) else
  if fn == 1 then some (.frel h (unpackSY w)) else
  if fn == 2 then some (.far h (unpackSY w)) else
  none

/-- The group of opcode 0x0C (R307). -/
def parse0C (w : BitVec 64) : Option Instr :=
  let h := hdrOf w
  let fn : BitVec 3 := w.extractLsb' 37 3
  if fn == 0 then some (.beq h (unpackBR w)) else
  if fn == 1 then some (.bne h (unpackBR w)) else
  if fn &&& 3 == 2 then some (.blt h (fn.extractLsb' 2 1) (unpackBR w)) else
  if fn &&& 3 == 3 then some (.bge h (fn.extractLsb' 2 1) (unpackBR w)) else
  none

/-- The group of opcode 0x0D (R307). -/
def parse0D (w : BitVec 64) : Option Instr :=
  let h := hdrOf w
  let fn : BitVec 3 := w.extractLsb' 37 3
  if fn == 0 then some (.bz h (unpackBR w)) else
  if fn == 1 then some (.bnz h (unpackBR w)) else
  none

/-- The group of opcode 0x0E (R307). -/
def parse0E (w : BitVec 64) : Option Instr :=
  let h := hdrOf w
  let fn : BitVec 2 := w.extractLsb' 38 2
  if fn == 0 then some (.jmp h (unpackJM w)) else
  if fn == 1 then some (.call h (unpackJM w)) else
  none

/-- The group of opcode 0x0F (R307). -/
def parse0F (w : BitVec 64) : Option Instr :=
  let h := hdrOf w
  let fn : BitVec 5 := w.extractLsb' 8 5
  if fn == 0 then some (.jr h (unpackRR w)) else
  if fn == 1 then some (.callr h (unpackRR w)) else
  if fn == 2 then some (.ret h (unpackRR w)) else
  none

/-- The group of opcode 0x10 (R307). -/
def parse10 (w : BitVec 64) : Option Instr :=
  let h := hdrOf w
  let fn : BitVec 3 := w.extractLsb' 37 3
  if fn == 0 then some (.dbnz h (unpackBR w)) else
  none

/-- The group of opcode 0x11 (R307). -/
def parse11 (w : BitVec 64) : Option Instr :=
  let h := hdrOf w
  let fn : BitVec 4 := w.extractLsb' 12 4
  if fn == 0 then some (.setcl h (unpackSY w)) else
  if fn == 1 then some (.inccl h (unpackSY w)) else
  if fn == 2 then some (.setcrd h (unpackSY w)) else
  if fn == 3 then some (.getcrd h (unpackSY w)) else
  if fn == 4 then some (.getcl h (unpackSY w)) else
  none

/-- The group of opcode 0x12 (R307). -/
def parse12 (w : BitVec 64) : Option Instr :=
  let h := hdrOf w
  let fn : BitVec 4 := w.extractLsb' 12 4
  if fn == 0 then some (.cut h (unpackSY w)) else
  if fn == 1 then some (.cutq h (unpackSY w)) else
  if fn == 2 then some (.cutw h (unpackSY w)) else
  none

/-- The group of opcode 0x13 (R307). -/
def parse13 (w : BitVec 64) : Option Instr :=
  let h := hdrOf w
  let fn : BitVec 5 := w.extractLsb' 8 5
  if fn == 0 then some (.pushq h (unpackRR w)) else
  if fn == 1 then some (.pushqn h (unpackRR w)) else
  none

/-- The group of opcode 0x14 (R307). -/
def parse14 (w : BitVec 64) : Option Instr :=
  let h := hdrOf w
  let fn : BitVec 4 := w.extractLsb' 12 4
  if fn == 0 then some (.ringcpy h (unpackSY w)) else
  none

/-- The group of opcode 0x15 (R307). -/
def parse15 (w : BitVec 64) : Option Instr :=
  let h := hdrOf w
  let fn : BitVec 4 := w.extractLsb' 12 4
  if fn == 0 then some (.wset h (unpackSY w)) else
  none

/-- The group of opcode 0x16 (R307). -/
def parse16 (w : BitVec 64) : Option Instr :=
  let h := hdrOf w
  let fn : BitVec 4 := w.extractLsb' 12 4
  if fn == 0 then some (.tinc h (unpackSY w)) else
  if fn == 1 then some (.tdec h (unpackSY w)) else
  if fn == 2 then some (.trd h (unpackSY w)) else
  if fn == 3 then some (.tset h (unpackSY w)) else
  none

/-- The group of opcode 0x17 (R307). -/
def parse17 (w : BitVec 64) : Option Instr :=
  let h := hdrOf w
  let fn : BitVec 4 := w.extractLsb' 12 4
  if fn == 0 then some (.join h (unpackSY w)) else
  none

/-- The group of opcode 0x18 (R307). -/
def parse18 (w : BitVec 64) : Option Instr :=
  let h := hdrOf w
  let fn : BitVec 4 := w.extractLsb' 12 4
  if fn == 0 then some (.tdset h (unpackSY w)) else
  if fn == 1 then some (.tdrd h (unpackSY w)) else
  if fn == 2 then some (.tdinv h (unpackSY w)) else
  none

/-- The group of opcode 0x19 (R307). -/
def parse19 (w : BitVec 64) : Option Instr :=
  let h := hdrOf w
  let fn : BitVec 4 := w.extractLsb' 12 4
  if fn == 0 then some (.phreg h (unpackSY w)) else
  if fn == 1 then some (.phdrop h (unpackSY w)) else
  if fn == 2 then some (.phsig h (unpackSY w)) else
  if fn == 3 then some (.phwait h (unpackSY w)) else
  if fn == 4 then some (.phsw h (unpackSY w)) else
  if fn == 5 then some (.phexp h (unpackSY w)) else
  if fn == 6 then some (.phrd h (unpackSY w)) else
  none

/-- The group of opcode 0x1A (R307). -/
def parse1A (w : BitVec 64) : Option Instr :=
  let h := hdrOf w
  let fn : BitVec 4 := w.extractLsb' 12 4
  if fn == 0 then some (.phase h (unpackSY w)) else
  none

/-- The group of opcode 0x1B (R307). -/
def parse1B (w : BitVec 64) : Option Instr :=
  let h := hdrOf w
  let fn : BitVec 4 := w.extractLsb' 12 4
  if fn == 0 then some (.spawn h (unpackSY w)) else
  if fn == 1 then some (.spawnw h (unpackSY w)) else
  none

/-- The group of opcode 0x1C (R307). -/
def parse1C (w : BitVec 64) : Option Instr :=
  let h := hdrOf w
  let fn : BitVec 4 := w.extractLsb' 12 4
  if fn == 0 then some (.dwb h (unpackSY w)) else
  if fn == 1 then some (.dinv h (unpackSY w)) else
  none

/-- The group of opcode 0x1D (R307). -/
def parse1D (w : BitVec 64) : Option Instr :=
  let h := hdrOf w
  let fn : BitVec 4 := w.extractLsb' 12 4
  if fn == 0 then some (.iinv h (unpackSY w)) else
  none

/-- The group of opcode 0x1E (R307). -/
def parse1E (w : BitVec 64) : Option Instr :=
  let h := hdrOf w
  let fn : BitVec 4 := w.extractLsb' 12 4
  if fn == 0 then some (.fetchb h (unpackSY w)) else
  none

/-- The group of opcode 0x1F (R307). -/
def parse1F (w : BitVec 64) : Option Instr :=
  let h := hdrOf w
  let fn : BitVec 4 := w.extractLsb' 12 4
  if fn == 0 then some (.ilock h (unpackSY w)) else
  if fn == 1 then some (.iunlk h (unpackSY w)) else
  none

/-- The group of opcode 0x20 (R307). -/
def parse20 (w : BitVec 64) : Option Instr :=
  let h := hdrOf w
  let fn : BitVec 4 := w.extractLsb' 12 4
  if fn == 0 then some (.ecfgw h (unpackSY w)) else
  if fn == 1 then some (.ecfgr h (unpackSY w)) else
  none

/-- The group of opcode 0x21 (R307). -/
def parse21 (w : BitVec 64) : Option Instr :=
  let h := hdrOf w
  let fn : BitVec 4 := w.extractLsb' 12 4
  if fn == 0 then some (.rdsr h (unpackSY w)) else
  if fn == 1 then some (.wrsr h (unpackSY w)) else
  if fn == 2 then some (.setsr h (unpackSY w)) else
  if fn == 3 then some (.clrsr h (unpackSY w)) else
  none

/-- The group of opcode 0x22 (R307). -/
def parse22 (w : BitVec 64) : Option Instr :=
  let h := hdrOf w
  let fn : BitVec 4 := w.extractLsb' 12 4
  if fn == 0 then some (.trap h (unpackSY w)) else
  if fn == 1 then some (.brk h (unpackSY w)) else
  none

/-- The group of opcode 0x23 (R307). -/
def parse23 (w : BitVec 64) : Option Instr :=
  let h := hdrOf w
  let fn : BitVec 4 := w.extractLsb' 12 4
  if fn == 0 then some (.tret h (unpackSY w)) else
  none

/-- The group of opcode 0x24 (R307). -/
def parse24 (w : BitVec 64) : Option Instr :=
  let h := hdrOf w
  let fn : BitVec 4 := w.extractLsb' 12 4
  if fn == 0 then some (.cbstat h (unpackSY w)) else
  if fn == 1 then some (.cbrst h (unpackSY w)) else
  none

/-- The group of opcode 0x25 (R307). -/
def parse25 (w : BitVec 64) : Option Instr :=
  let h := hdrOf w
  let fn : BitVec 4 := w.extractLsb' 12 4
  if fn == 0 then some (.ttrd h (unpackSY w)) else
  if fn == 1 then some (.ttset h (unpackSY w)) else
  if fn == 2 then some (.ttref h (unpackSY w)) else
  if fn == 3 then some (.ttunref h (unpackSY w)) else
  none

/-- The group of opcode 0x26 (R307). -/
def parse26 (w : BitVec 64) : Option Instr :=
  let h := hdrOf w
  let fn : BitVec 5 := w.extractLsb' 12 5
  if fn == 0 then some (.pgreq h (unpackTN w)) else
  none

/-- The group of opcode 0x27 (R307). -/
def parse27 (w : BitVec 64) : Option Instr :=
  let h := hdrOf w
  let fn : BitVec 4 := w.extractLsb' 12 4
  if fn == 0 then some (.tend h (unpackSY w)) else
  none

/-- The group of opcode 0x28 (R307). -/
def parse28 (w : BitVec 64) : Option Instr :=
  let h := hdrOf w
  let fn : BitVec 4 := w.extractLsb' 12 4
  if fn == 0 then some (.ctxnew h (unpackSY w)) else
  if fn == 1 then some (.ctxkill h (unpackSY w)) else
  if fn == 2 then some (.ctxinc h (unpackSY w)) else
  if fn == 3 then some (.ctxsave h (unpackSY w)) else
  if fn == 4 then some (.ctxload h (unpackSY w)) else
  none

/-- The group of opcode 0x29 (R307). -/
def parse29 (w : BitVec 64) : Option Instr :=
  let h := hdrOf w
  let fn : BitVec 4 := w.extractLsb' 12 4
  if fn == 0 then some (.rcf h (unpackSY w)) else
  none

/-- The group of opcode 0x2A (R307). -/
def parse2A (w : BitVec 64) : Option Instr :=
  let h := hdrOf w
  let fn : BitVec 4 := w.extractLsb' 12 4
  if fn == 0 then some (.pcreate h (unpackSY w)) else
  if fn == 1 then some (.psetq h (unpackSY w)) else
  if fn == 2 then some (.pdestroy h (unpackSY w)) else
  none

/-- The group of opcode 0x2B (R307). -/
def parse2B (w : BitVec 64) : Option Instr :=
  let h := hdrOf w
  let fn : BitVec 4 := w.extractLsb' 12 4
  if fn == 0 then some (.chmap h (unpackSY w)) else
  none

/-- The group of opcode 0x2C (R307). -/
def parse2C (w : BitVec 64) : Option Instr :=
  let h := hdrOf w
  let fn : BitVec 4 := w.extractLsb' 12 4
  if fn == 0 then some (.slice h (unpackSY w)) else
  if fn == 1 then some (.sbudget h (unpackSY w)) else
  none

/-- The group of opcode 0x2D (R307). -/
def parse2D (w : BitVec 64) : Option Instr :=
  let h := hdrOf w
  let fn : BitVec 4 := w.extractLsb' 12 4
  if fn == 0 then some (.fbpop h (unpackSY w)) else
  if fn == 1 then some (.fbrel h (unpackSY w)) else
  if fn == 2 then some (.pgpop h (unpackSY w)) else
  if fn == 3 then some (.fbact h (unpackSY w)) else
  none

/-- The group of opcode 0x2E (R307). -/
def parse2E (w : BitVec 64) : Option Instr :=
  let h := hdrOf w
  let fn : BitVec 4 := w.extractLsb' 12 4
  if fn == 0 then some (.frz h (unpackSY w)) else
  if fn == 1 then some (.caprd h (unpackSY w)) else
  if fn == 2 then some (.sleep h (unpackSY w)) else
  none

/-- The group of opcode 0x2F (R307). -/
def parse2F (w : BitVec 64) : Option Instr :=
  let h := hdrOf w
  let fn : BitVec 4 := w.extractLsb' 12 4
  if fn == 0 then some (.wfe h (unpackSY w)) else
  none

/-- The group of opcode 0x30 (R307). -/
def parse30 (w : BitVec 64) : Option Instr :=
  let h := hdrOf w
  let fn : BitVec 5 := w.extractLsb' 12 5
  if fn == 0 then some (.ldt h (unpackTN w)) else
  if fn == 1 then some (.ldtr h (unpackTN w)) else
  none

/-- The group of opcode 0x31 (R307). -/
def parse31 (w : BitVec 64) : Option Instr :=
  let h := hdrOf w
  let fn : BitVec 5 := w.extractLsb' 12 5
  if fn == 0 then some (.stt h (unpackTN w)) else
  none

/-- The group of opcode 0x32 (R307). -/
def parse32 (w : BitVec 64) : Option Instr :=
  let h := hdrOf w
  let fn : BitVec 5 := w.extractLsb' 8 5
  if fn == 0 then some (.lds h (unpackRRI w)) else
  if fn == 1 then some (.ldsb h (unpackRRI w)) else
  none

/-- The group of opcode 0x33 (R307). -/
def parse33 (w : BitVec 64) : Option Instr :=
  let h := hdrOf w
  let fn : BitVec 5 := w.extractLsb' 8 5
  if fn == 0 then some (.sts h (unpackRRI w)) else
  none

/-- The group of opcode 0x34 (R307). -/
def parse34 (w : BitVec 64) : Option Instr :=
  let h := hdrOf w
  let fn : BitVec 5 := w.extractLsb' 12 5
  if fn == 0 then some (.gath h (unpackTN w)) else
  if fn == 1 then some (.scat h (unpackTN w)) else
  none

/-- The group of opcode 0x35 (R307). -/
def parse35 (w : BitVec 64) : Option Instr :=
  let h := hdrOf w
  let fn : BitVec 5 := w.extractLsb' 8 5
  if fn == 0 then some (.gadd h (unpackRR w)) else
  if fn == 1 then some (.gsub h (unpackRR w)) else
  if fn == 2 then some (.gmul h (unpackRR w)) else
  if fn == 3 then some (.gshl h (unpackRR w)) else
  if fn == 4 then some (.gshr h (unpackRR w)) else
  if fn == 5 then some (.gand h (unpackRR w)) else
  if fn == 6 then some (.gor h (unpackRR w)) else
  if fn == 7 then some (.gmin h (unpackRR w)) else
  if fn == 8 then some (.gmax h (unpackRR w)) else
  none

/-- The group of opcode 0x36 (R307). -/
def parse36 (w : BitVec 64) : Option Instr :=
  let h := hdrOf w
  let fn : BitVec 5 := w.extractLsb' 8 5
  if fn == 0 then some (.gaddi h (unpackRRI w)) else
  if fn == 1 then some (.gandi h (unpackRRI w)) else
  if fn == 2 then some (.gshli h (unpackRRI w)) else
  none

/-- The group of opcode 0x37 (R307). -/
def parse37 (w : BitVec 64) : Option Instr :=
  let h := hdrOf w
  let fn : BitVec 3 := w.extractLsb' 24 3
  if fn == 0 then some (.gmovi h (unpackRI w)) else
  if fn == 1 then some (.gmovhi h (unpackRI w)) else
  if fn == 2 then some (.gcl h (unpackRI w)) else
  none

/-- The group of opcode 0x38 (R307). -/
def parse38 (w : BitVec 64) : Option Instr :=
  let h := hdrOf w
  let fn : BitVec 3 := w.extractLsb' 24 3
  some (.loopAcc h (fn.extractLsb' 0 3) (unpackRI w))

/-- The group of opcode 0x39 (R307). -/
def parse39 (w : BitVec 64) : Option Instr :=
  let h := hdrOf w
  let fn : BitVec 3 := w.extractLsb' 24 3
  if fn &&& 6 == 0 then some (.sloop h (fn.extractLsb' 0 1) (unpackRI w)) else
  none

/-- The group of opcode 0x3A (R307). -/
def parse3A (w : BitVec 64) : Option Instr :=
  let h := hdrOf w
  let fn : BitVec 5 := w.extractLsb' 8 5
  if fn == 0 then some (.bpushAcc h (unpackRRI w)) else
  if fn == 1 then some (.bskipAcc h (unpackRRI w)) else
  none

/-- The group of opcode 0x3B (R307). -/
def parse3B (w : BitVec 64) : Option Instr :=
  let h := hdrOf w
  let fn : BitVec 5 := w.extractLsb' 8 5
  if fn == 0 then some (.cbacq h (unpackRRI w)) else
  if fn == 1 then some (.cbrel h (unpackRRI w)) else
  none

/-- The group of opcode 0x3C (R307). -/
def parse3C (w : BitVec 64) : Option Instr :=
  let h := hdrOf w
  let fn : BitVec 5 := w.extractLsb' 8 5
  if fn == 0 then some (.setclAcc h (unpackRRI w)) else
  if fn == 1 then some (.incclAcc h (unpackRRI w)) else
  none

/-- The group of opcode 0x3D (R307). -/
def parse3D (w : BitVec 64) : Option Instr :=
  let h := hdrOf w
  let fn : BitVec 5 := w.extractLsb' 8 5
  if fn == 0 then some (.dqflush h (unpackRRI w)) else
  if fn == 1 then some (.dqeos h (unpackRRI w)) else
  none

/-- The group of opcode 0x3E (R307). -/
def parse3E (w : BitVec 64) : Option Instr :=
  let h := hdrOf w
  let fn : BitVec 5 := w.extractLsb' 12 5
  if fn == 0 then some (.pgreqAcc h (unpackTN w)) else
  none

/-- The group of opcode 0x3F (R307). -/
def parse3F (w : BitVec 64) : Option Instr :=
  let h := hdrOf w
  let fn : BitVec 3 := w.extractLsb' 24 3
  if fn == 0 then some (.gparm h (unpackRI w)) else
  none

/-- The group of opcode 0x40 (R307). -/
def parse40 (w : BitVec 64) : Option Instr :=
  let h := hdrOf w
  let fn : BitVec 5 := w.extractLsb' 8 5
  if fn &&& 7 == 0 then some (.vadd h (fn.extractLsb' 3 2) (unpackRR w)) else
  if fn &&& 7 == 1 then some (.vsub h (fn.extractLsb' 3 2) (unpackRR w)) else
  if fn &&& 7 == 2 then some (.vmul h (fn.extractLsb' 3 2) (unpackRR w)) else
  if fn &&& 7 == 3 then some (.vmin h (fn.extractLsb' 3 2) (unpackRR w)) else
  if fn &&& 7 == 4 then some (.vmax h (fn.extractLsb' 3 2) (unpackRR w)) else
  if fn &&& 7 == 5 then some (.vabs h (fn.extractLsb' 3 2) (unpackRR w)) else
  if fn &&& 7 == 6 then some (.vneg h (fn.extractLsb' 3 2) (unpackRR w)) else
  none

/-- The group of opcode 0x41 (R307). -/
def parse41 (w : BitVec 64) : Option Instr :=
  let h := hdrOf w
  let fn : BitVec 5 := w.extractLsb' 8 5
  if fn &&& 7 == 0 then some (.vfma h (fn.extractLsb' 3 2) (unpackRR w)) else
  if fn &&& 7 == 1 then some (.vfms h (fn.extractLsb' 3 2) (unpackRR w)) else
  if fn &&& 7 == 2 then some (.vfnma h (fn.extractLsb' 3 2) (unpackRR w)) else
  none

/-- The group of opcode 0x42 (R307). -/
def parse42 (w : BitVec 64) : Option Instr :=
  let h := hdrOf w
  let fn : BitVec 5 := w.extractLsb' 8 5
  if fn &&& 7 == 0 then some (.viadd h (fn.extractLsb' 3 2) (unpackRR w)) else
  if fn &&& 7 == 1 then some (.visub h (fn.extractLsb' 3 2) (unpackRR w)) else
  if fn &&& 7 == 2 then some (.vimul h (fn.extractLsb' 3 2) (unpackRR w)) else
  if fn &&& 7 == 3 then some (.vshl h (fn.extractLsb' 3 2) (unpackRR w)) else
  if fn &&& 7 == 4 then some (.vshr h (fn.extractLsb' 3 2) (unpackRR w)) else
  if fn &&& 7 == 5 then some (.vand h (fn.extractLsb' 3 2) (unpackRR w)) else
  if fn &&& 7 == 6 then some (.vor h (fn.extractLsb' 3 2) (unpackRR w)) else
  if fn &&& 7 == 7 then some (.vxor h (fn.extractLsb' 3 2) (unpackRR w)) else
  none

/-- The group of opcode 0x43 (R307). -/
def parse43 (w : BitVec 64) : Option Instr :=
  let h := hdrOf w
  let fn : BitVec 5 := w.extractLsb' 8 5
  if fn == 0 then some (.vdot4 h (unpackRR w)) else
  if fn == 1 then some (.vdot2 h (unpackRR w)) else
  none

/-- The group of opcode 0x44 (R307). -/
def parse44 (w : BitVec 64) : Option Instr :=
  let h := hdrOf w
  let fn : BitVec 5 := w.extractLsb' 8 5
  if fn &&& 7 == 0 then some (.vdiv h (fn.extractLsb' 3 2) (unpackRR w)) else
  if fn &&& 7 == 1 then some (.vsqrt h (fn.extractLsb' 3 2) (unpackRR w)) else
  if fn &&& 7 == 2 then some (.vrcp h (fn.extractLsb' 3 2) (unpackRR w)) else
  if fn &&& 7 == 3 then some (.vrsq h (fn.extractLsb' 3 2) (unpackRR w)) else
  none

/-- The group of opcode 0x45 (R307). -/
def parse45 (w : BitVec 64) : Option Instr :=
  let h := hdrOf w
  let fn : BitVec 5 := w.extractLsb' 8 5
  if fn == 0 then some (.vexp2 h (unpackRR w)) else
  if fn == 1 then some (.vlog2 h (unpackRR w)) else
  if fn == 2 then some (.vtanh h (unpackRR w)) else
  none

/-- The group of opcode 0x46 (R307). -/
def parse46 (w : BitVec 64) : Option Instr :=
  let h := hdrOf w
  let fn : BitVec 5 := w.extractLsb' 8 5
  if fn &&& 24 == 24 then some (.vicmp h (fn.extractLsb' 0 3) (unpackRR w)) else
  some (.vcmp h (fn.extractLsb' 0 5) (unpackRR w))

/-- The group of opcode 0x47 (R307). -/
def parse47 (w : BitVec 64) : Option Instr :=
  let h := hdrOf w
  let fn : BitVec 5 := w.extractLsb' 8 5
  if fn == 0 then some (.vsel h (unpackRR w)) else
  none

/-- The group of opcode 0x48 (R307). -/
def parse48 (w : BitVec 64) : Option Instr :=
  let h := hdrOf w
  let fn : BitVec 5 := w.extractLsb' 8 5
  some (.vcvt h (fn.extractLsb' 0 5) (unpackRR w))

/-- The group of opcode 0x49 (R307). -/
def parse49 (w : BitVec 64) : Option Instr :=
  let h := hdrOf w
  let fn : BitVec 5 := w.extractLsb' 8 5
  if fn &&& 7 == 0 then some (.vrsum h (fn.extractLsb' 3 2) (unpackRR w)) else
  if fn &&& 7 == 1 then some (.vrmax h (fn.extractLsb' 3 2) (unpackRR w)) else
  if fn &&& 7 == 2 then some (.vrmin h (fn.extractLsb' 3 2) (unpackRR w)) else
  if fn &&& 7 == 3 then some (.vrargmax h (fn.extractLsb' 3 2) (unpackRR w)) else
  none

/-- The group of opcode 0x4A (R307). -/
def parse4A (w : BitVec 64) : Option Instr :=
  let h := hdrOf w
  let fn : BitVec 5 := w.extractLsb' 8 5
  if fn &&& 7 == 0 then some (.vscanadd h (fn.extractLsb' 3 2) (unpackRR w)) else
  if fn &&& 7 == 1 then some (.vscanmax h (fn.extractLsb' 3 2) (unpackRR w)) else
  none

/-- The group of opcode 0x4B (R307). -/
def parse4B (w : BitVec 64) : Option Instr :=
  let h := hdrOf w
  let fn : BitVec 5 := w.extractLsb' 8 5
  if fn &&& 7 == 0 then some (.vperm h (fn.extractLsb' 3 2) (unpackRR w)) else
  if fn &&& 7 == 1 then some (.vbcast h (fn.extractLsb' 3 2) (unpackRR w)) else
  if fn &&& 7 == 2 then some (.vrot h (fn.extractLsb' 3 2) (unpackRR w)) else
  if fn &&& 7 == 3 then some (.vshuf h (fn.extractLsb' 3 2) (unpackRR w)) else
  none

/-- The group of opcode 0x4C (R307). -/
def parse4C (w : BitVec 64) : Option Instr :=
  let h := hdrOf w
  let fn : BitVec 5 := w.extractLsb' 8 5
  if fn == 0 then some (.vmov h (unpackRR w)) else
  if fn == 1 then some (.vmovi h (unpackRRI w)) else
  none

/-- The group of opcode 0x4D (R307). -/
def parse4D (w : BitVec 64) : Option Instr :=
  let h := hdrOf w
  let fn : BitVec 5 := w.extractLsb' 8 5
  if fn == 0 then some (.pand h (unpackRR w)) else
  if fn == 1 then some (.por h (unpackRR w)) else
  if fn == 2 then some (.pxor h (unpackRR w)) else
  if fn == 3 then some (.pnot h (unpackRR w)) else
  if fn == 4 then some (.pffs h (unpackRR w)) else
  if fn == 5 then some (.pffz h (unpackRR w)) else
  if fn == 6 then some (.pcnt h (unpackRR w)) else
  none

/-- The group of opcode 0x4E (R307). -/
def parse4E (w : BitVec 64) : Option Instr :=
  let h := hdrOf w
  let fn : BitVec 5 := w.extractLsb' 8 5
  if fn == 0 then some (.defer h (unpackRR w)) else
  none

/-- The group of opcode 0x4F (R307). -/
def parse4F (w : BitVec 64) : Option Instr :=
  let h := hdrOf w
  let fn : BitVec 5 := w.extractLsb' 8 5
  if fn == 0 then some (.drain h (unpackRR w)) else
  if fn == 1 then some (.drainf h (unpackRR w)) else
  none

/-- The group of opcode 0x50 (R307). -/
def parse50 (w : BitVec 64) : Option Instr :=
  let h := hdrOf w
  let fn : BitVec 3 := w.extractLsb' 24 3
  some (.loopExe h (fn.extractLsb' 0 3) (unpackRI w))

/-- The group of opcode 0x51 (R307). -/
def parse51 (w : BitVec 64) : Option Instr :=
  let h := hdrOf w
  let fn : BitVec 5 := w.extractLsb' 8 5
  if fn == 0 then some (.bpushExe h (unpackRRI w)) else
  if fn == 1 then some (.bskipExe h (unpackRRI w)) else
  none

/-- The group of opcode 0x52 (R307). -/
def parse52 (w : BitVec 64) : Option Instr :=
  let h := hdrOf w
  let fn : BitVec 5 := w.extractLsb' 8 5
  if fn == 0 then some (.setclExe h (unpackRRI w)) else
  if fn == 1 then some (.incclExe h (unpackRRI w)) else
  none

/-- The group of opcode 0x53 (R307). -/
def parse53 (w : BitVec 64) : Option Instr :=
  let h := hdrOf w
  let fn : BitVec 5 := w.extractLsb' 8 5
  if fn &&& 7 == 0 then some (.vqblk h (fn.extractLsb' 3 2) (unpackRR w)) else
  if fn &&& 7 == 1 then some (.vdqblk h (fn.extractLsb' 3 2) (unpackRR w)) else
  if fn &&& 7 == 2 then some (.vscale h (fn.extractLsb' 3 2) (unpackRR w)) else
  none

/-- The group of opcode 0x54 (R307). -/
def parse54 (w : BitVec 64) : Option Instr :=
  let h := hdrOf w
  let fn : BitVec 5 := w.extractLsb' 8 5
  if fn == 0 then some (.vomax h (unpackRR w)) else
  none

/-- The group of opcode 0x55 (R307). -/
def parse55 (w : BitVec 64) : Option Instr :=
  let h := hdrOf w
  let fn : BitVec 5 := w.extractLsb' 8 5
  if fn == 0 then some (.viota h (unpackRR w)) else
  if fn == 1 then some (.vclv h (unpackRR w)) else
  none

/-- The group of opcode 0x56 (R307). -/
def parse56 (w : BitVec 64) : Option Instr :=
  let h := hdrOf w
  let fn : BitVec 5 := w.extractLsb' 8 5
  if fn == 0 then some (.vfrd h (unpackRR w)) else
  if fn == 1 then some (.vfclr h (unpackRR w)) else
  if fn == 2 then some (.vfclrCtx h (unpackRR w)) else
  none

/-- The group of opcode 0x57 (R307). -/
def parse57 (w : BitVec 64) : Option Instr :=
  let h := hdrOf w
  let fn : BitVec 5 := w.extractLsb' 8 5
  if fn == 0 then some (.vrmask h (unpackRR w)) else
  none

/-- The group of opcode 0x58 (R307). -/
def parse58 (w : BitVec 64) : Option Instr :=
  let h := hdrOf w
  let fn : BitVec 5 := w.extractLsb' 8 5
  if fn &&& 28 == 0 then some (.qcmp h (fn.extractLsb' 0 2) (unpackRR w)) else
  none

/-- The group of opcode 0x59 (R307). -/
def parse59 (w : BitVec 64) : Option Instr :=
  let h := hdrOf w
  let fn : BitVec 5 := w.extractLsb' 8 5
  if fn &&& 19 == 0 then some (.qand h (fn.extractLsb' 2 2) (unpackRR w)) else
  if fn &&& 19 == 1 then some (.qor h (fn.extractLsb' 2 2) (unpackRR w)) else
  if fn == 2 then some (.qnot h (unpackRR w)) else
  none

/-- The group of opcode 0x5A (R307). -/
def parse5A (w : BitVec 64) : Option Instr :=
  let h := hdrOf w
  let fn : BitVec 5 := w.extractLsb' 8 5
  if fn &&& 7 == 0 then some (.qsel h (fn.extractLsb' 3 2) (unpackRR w)) else
  none

/-- The group of opcode 0x5B (R307). -/
def parse5B (w : BitVec 64) : Option Instr :=
  let h := hdrOf w
  let fn : BitVec 5 := w.extractLsb' 8 5
  if fn == 0 then some (.qcol h (unpackRR w)) else
  none

/-- The group of opcode 0x5C (R307). -/
def parse5C (w : BitVec 64) : Option Instr :=
  let h := hdrOf w
  let fn : BitVec 5 := w.extractLsb' 8 5
  if fn == 0 then some (.qfrom h (unpackRR w)) else
  if fn == 1 then some (.qto h (unpackRR w)) else
  none

/-- The group of opcode 0x5D (R307). -/
def parse5D (w : BitVec 64) : Option Instr :=
  let h := hdrOf w
  let fn : BitVec 5 := w.extractLsb' 8 5
  if fn &&& 19 == 0 then some (.qgcmp h (fn.extractLsb' 2 2) (unpackRR w)) else
  if fn == 1 then some (.qgsel h (unpackRR w)) else
  if fn == 2 then some (.qgand h (unpackRR w)) else
  none

/-- The group of opcode 0x5E (R307). -/
def parse5E (w : BitVec 64) : Option Instr :=
  let h := hdrOf w
  let fn : BitVec 5 := w.extractLsb' 8 5
  if fn == 0 then some (.qlin h (unpackRR w)) else
  none

/-- The group of opcode 0x5F (R307). -/
def parse5F (w : BitVec 64) : Option Instr :=
  let h := hdrOf w
  let fn : BitVec 5 := w.extractLsb' 8 5
  if fn == 0 then some (.qrsum h (unpackRR w)) else
  if fn == 1 then some (.qrprod h (unpackRR w)) else
  none

/-- The group of opcode 0x60 (R307). -/
def parse60 (w : BitVec 64) : Option Instr :=
  let h := hdrOf w
  let fn : BitVec 3 := w.extractLsb' 8 3
  if fn == 0 then some (.mldb h (unpackMG w)) else
  none

/-- The group of opcode 0x61 (R307). -/
def parse61 (w : BitVec 64) : Option Instr :=
  let h := hdrOf w
  let fn : BitVec 3 := w.extractLsb' 8 3
  if fn == 0 then some (.mlds h (unpackMG w)) else
  none

/-- The group of opcode 0x62 (R307). -/
def parse62 (w : BitVec 64) : Option Instr :=
  let h := hdrOf w
  let fn : BitVec 3 := w.extractLsb' 8 3
  if fn == 0 then some (.mgo h (unpackMG w)) else
  none

/-- The group of opcode 0x63 (R307). -/
def parse63 (w : BitVec 64) : Option Instr :=
  let h := hdrOf w
  let fn : BitVec 3 := w.extractLsb' 8 3
  if fn == 0 then some (.mdrain h (unpackMG w)) else
  if fn == 1 then some (.mdraina h (unpackMG w)) else
  none

/-- The group of opcode 0x64 (R307). -/
def parse64 (w : BitVec 64) : Option Instr :=
  let h := hdrOf w
  let fn : BitVec 3 := w.extractLsb' 8 3
  if fn == 0 then some (.minit h (unpackMG w)) else
  none

/-- The group of opcode 0x65 (R307). -/
def parse65 (w : BitVec 64) : Option Instr :=
  let h := hdrOf w
  let fn : BitVec 3 := w.extractLsb' 8 3
  if fn == 0 then some (.mswap h (unpackMG w)) else
  none

/-- The group of opcode 0x66 (R307). -/
def parse66 (w : BitVec 64) : Option Instr :=
  let h := hdrOf w
  let fn : BitVec 3 := w.extractLsb' 8 3
  if fn == 0 then some (.mwait h (unpackMG w)) else
  none

/-- The group of opcode 0x67 (R307). -/
def parse67 (w : BitVec 64) : Option Instr :=
  let h := hdrOf w
  let fn : BitVec 3 := w.extractLsb' 8 3
  if fn == 0 then some (.mstat h (unpackMG w)) else
  none

/-- The group of opcode 0x68 (R307). -/
def parse68 (w : BitVec 64) : Option Instr :=
  let h := hdrOf w
  let fn : BitVec 3 := w.extractLsb' 8 3
  if fn == 0 then some (.mdq h (unpackMG w)) else
  none

/-- The group of opcode 0x69 (R307). -/
def parse69 (w : BitVec 64) : Option Instr :=
  let h := hdrOf w
  let fn : BitVec 3 := w.extractLsb' 8 3
  if fn == 0 then some (.mclr h (unpackMG w)) else
  none

/-- The group of opcode 0x6A (R307). -/
def parse6A (w : BitVec 64) : Option Instr :=
  let h := hdrOf w
  let fn : BitVec 3 := w.extractLsb' 8 3
  if fn == 0 then some (.mlda h (unpackMG w)) else
  none

/-- The group of opcode 0x6B (R307). -/
def parse6B (w : BitVec 64) : Option Instr :=
  let h := hdrOf w
  let fn : BitVec 3 := w.extractLsb' 8 3
  if fn == 0 then some (.msel h (unpackMG w)) else
  none

/-- The group of opcode 0x6C (R307). -/
def parse6C (w : BitVec 64) : Option Instr :=
  let h := hdrOf w
  let fn : BitVec 4 := w.extractLsb' 24 4
  if fn == 0 then some (.copy h (unpackCP w)) else
  if fn == 1 then some (.copyXor h (unpackCP w)) else
  none

/-- The group of opcode 0x6D (R307). -/
def parse6D (w : BitVec 64) : Option Instr :=
  let h := hdrOf w
  let fn : BitVec 4 := w.extractLsb' 24 4
  if fn == 0 then some (.cfill h (unpackCP w)) else
  none

/-- The group of opcode 0x6E (R307). -/
def parse6E (w : BitVec 64) : Option Instr :=
  let h := hdrOf w
  let fn : BitVec 4 := w.extractLsb' 24 4
  if fn == 0 then some (.cpush h (unpackCP w)) else
  if fn == 1 then some (.cpushXor h (unpackCP w)) else
  none

/-- The group of opcode 0x6F (R307). -/
def parse6F (w : BitVec 64) : Option Instr :=
  let h := hdrOf w
  let fn : BitVec 4 := w.extractLsb' 24 4
  if fn == 0 then some (.cpull h (unpackCP w)) else
  none

/-- The group of opcode 0x70 (R307). -/
def parse70 (w : BitVec 64) : Option Instr :=
  let h := hdrOf w
  let fn : BitVec 4 := w.extractLsb' 24 4
  if fn == 0 then some (.cxch h (unpackCP w)) else
  none

/-- The group of opcode 0x71 (R307). -/
def parse71 (w : BitVec 64) : Option Instr :=
  let h := hdrOf w
  let fn : BitVec 4 := w.extractLsb' 24 4
  if fn == 0 then some (.ccb h (unpackCP w)) else
  none

/-- The group of opcode 0x72 (R307). -/
def parse72 (w : BitVec 64) : Option Instr :=
  let h := hdrOf w
  let fn : BitVec 4 := w.extractLsb' 24 4
  if fn == 0 then some (.tcow h (unpackCP w)) else
  none

/-- The group of opcode 0x73 (R307). -/
def parse73 (w : BitVec 64) : Option Instr :=
  let h := hdrOf w
  let fn : BitVec 4 := w.extractLsb' 24 4
  if fn == 0 then some (.tmigDemote h (unpackCP w)) else
  if fn == 1 then some (.tmigPromote h (unpackCP w)) else
  none

/-- The group of opcode 0x74 (R307). -/
def parse74 (w : BitVec 64) : Option Instr :=
  let h := hdrOf w
  let fn : BitVec 4 := w.extractLsb' 24 4
  if fn == 0 then some (.tshare h (unpackCP w)) else
  none

/-- The group of opcode 0x75 (R307). -/
def parse75 (w : BitVec 64) : Option Instr :=
  let h := hdrOf w
  let fn : BitVec 4 := w.extractLsb' 24 4
  if fn == 0 then some (.tfree h (unpackCP w)) else
  none

/-- The group of opcode 0x76 (R307). -/
def parse76 (w : BitVec 64) : Option Instr :=
  let h := hdrOf w
  let fn : BitVec 4 := w.extractLsb' 24 4
  if fn == 0 then some (.cpref h (unpackCP w)) else
  none

/-- The group of opcode 0x77 (R307). -/
def parse77 (w : BitVec 64) : Option Instr :=
  let h := hdrOf w
  let fn : BitVec 4 := w.extractLsb' 24 4
  if fn == 0 then some (.csync h (unpackCP w)) else
  none

/-- The group of opcode 0x78 (R307). -/
def parse78 (w : BitVec 64) : Option Instr :=
  let h := hdrOf w
  let fn : BitVec 4 := w.extractLsb' 12 4
  if fn == 0 then some (.nsend h (unpackSY w)) else
  none

/-- The group of opcode 0x79 (R307). -/
def parse79 (w : BitVec 64) : Option Instr :=
  let h := hdrOf w
  let fn : BitVec 4 := w.extractLsb' 12 4
  if fn == 0 then some (.nrecv h (unpackSY w)) else
  none

/-- The group of opcode 0x7A (R307). -/
def parse7A (w : BitVec 64) : Option Instr :=
  let h := hdrOf w
  let fn : BitVec 4 := w.extractLsb' 12 4
  if fn == 0 then some (.nput h (unpackSY w)) else
  none

/-- The group of opcode 0x7B (R307). -/
def parse7B (w : BitVec 64) : Option Instr :=
  let h := hdrOf w
  let fn : BitVec 4 := w.extractLsb' 12 4
  if fn == 0 then some (.nget h (unpackSY w)) else
  none

/-- The group of opcode 0x7C (R307). -/
def parse7C (w : BitVec 64) : Option Instr :=
  let h := hdrOf w
  let fn : BitVec 4 := w.extractLsb' 12 4
  if fn == 0 then some (.ncset h (unpackSY w)) else
  if fn == 1 then some (.ncrd h (unpackSY w)) else
  none

/-- The group of opcode 0x7D (R307). -/
def parse7D (w : BitVec 64) : Option Instr :=
  let h := hdrOf w
  let fn : BitVec 4 := w.extractLsb' 12 4
  let o := unpackSY w
  if fn == 0 then some (if o.imm == 1 then .nctlCancel h o else .nctlFlush h o) else none

/-- A word by its opcode (R307); `none` for an FN value that no form has, or operand bits set in NOP or MARK. -/
def parseWord (w : BitVec 64) : Option Instr :=
  match (opcOf w).toNat with
  | 0x00 => if w.extractLsb' 0 40 == 0 then some (.nop (hdrOf w)) else none
  | 0x7E => if w.extractLsb' 0 40 == 0 then some (.mark (hdrOf w)) else none
  | 0x7F => some (.ill w)
  | 0x01 => parse01 w
  | 0x02 => parse02 w
  | 0x03 => parse03 w
  | 0x04 => parse04 w
  | 0x05 => parse05 w
  | 0x06 => parse06 w
  | 0x07 => parse07 w
  | 0x08 => parse08 w
  | 0x09 => parse09 w
  | 0x0A => parse0A w
  | 0x0B => parse0B w
  | 0x0C => parse0C w
  | 0x0D => parse0D w
  | 0x0E => parse0E w
  | 0x0F => parse0F w
  | 0x10 => parse10 w
  | 0x11 => parse11 w
  | 0x12 => parse12 w
  | 0x13 => parse13 w
  | 0x14 => parse14 w
  | 0x15 => parse15 w
  | 0x16 => parse16 w
  | 0x17 => parse17 w
  | 0x18 => parse18 w
  | 0x19 => parse19 w
  | 0x1A => parse1A w
  | 0x1B => parse1B w
  | 0x1C => parse1C w
  | 0x1D => parse1D w
  | 0x1E => parse1E w
  | 0x1F => parse1F w
  | 0x20 => parse20 w
  | 0x21 => parse21 w
  | 0x22 => parse22 w
  | 0x23 => parse23 w
  | 0x24 => parse24 w
  | 0x25 => parse25 w
  | 0x26 => parse26 w
  | 0x27 => parse27 w
  | 0x28 => parse28 w
  | 0x29 => parse29 w
  | 0x2A => parse2A w
  | 0x2B => parse2B w
  | 0x2C => parse2C w
  | 0x2D => parse2D w
  | 0x2E => parse2E w
  | 0x2F => parse2F w
  | 0x30 => parse30 w
  | 0x31 => parse31 w
  | 0x32 => parse32 w
  | 0x33 => parse33 w
  | 0x34 => parse34 w
  | 0x35 => parse35 w
  | 0x36 => parse36 w
  | 0x37 => parse37 w
  | 0x38 => parse38 w
  | 0x39 => parse39 w
  | 0x3A => parse3A w
  | 0x3B => parse3B w
  | 0x3C => parse3C w
  | 0x3D => parse3D w
  | 0x3E => parse3E w
  | 0x3F => parse3F w
  | 0x40 => parse40 w
  | 0x41 => parse41 w
  | 0x42 => parse42 w
  | 0x43 => parse43 w
  | 0x44 => parse44 w
  | 0x45 => parse45 w
  | 0x46 => parse46 w
  | 0x47 => parse47 w
  | 0x48 => parse48 w
  | 0x49 => parse49 w
  | 0x4A => parse4A w
  | 0x4B => parse4B w
  | 0x4C => parse4C w
  | 0x4D => parse4D w
  | 0x4E => parse4E w
  | 0x4F => parse4F w
  | 0x50 => parse50 w
  | 0x51 => parse51 w
  | 0x52 => parse52 w
  | 0x53 => parse53 w
  | 0x54 => parse54 w
  | 0x55 => parse55 w
  | 0x56 => parse56 w
  | 0x57 => parse57 w
  | 0x58 => parse58 w
  | 0x59 => parse59 w
  | 0x5A => parse5A w
  | 0x5B => parse5B w
  | 0x5C => parse5C w
  | 0x5D => parse5D w
  | 0x5E => parse5E w
  | 0x5F => parse5F w
  | 0x60 => parse60 w
  | 0x61 => parse61 w
  | 0x62 => parse62 w
  | 0x63 => parse63 w
  | 0x64 => parse64 w
  | 0x65 => parse65 w
  | 0x66 => parse66 w
  | 0x67 => parse67 w
  | 0x68 => parse68 w
  | 0x69 => parse69 w
  | 0x6A => parse6A w
  | 0x6B => parse6B w
  | 0x6C => parse6C w
  | 0x6D => parse6D w
  | 0x6E => parse6E w
  | 0x6F => parse6F w
  | 0x70 => parse70 w
  | 0x71 => parse71 w
  | 0x72 => parse72 w
  | 0x73 => parse73 w
  | 0x74 => parse74 w
  | 0x75 => parse75 w
  | 0x76 => parse76 w
  | 0x77 => parse77 w
  | 0x78 => parse78 w
  | 0x79 => parse79 w
  | 0x7A => parse7A w
  | 0x7B => parse7B w
  | 0x7C => parse7C w
  | 0x7D => parse7D w
  | _ => none

/-- R308: whether an engine decodes an opcode. -/
def decodes (e : Eng) (opc : Nat) : Bool :=
  opc == 0x00 || opc == 0x7E || opc == 0x7F ||
  match e with
  | .cc => 0x01 ≤ opc && opc ≤ 0x2F
  | .acc => 0x30 ≤ opc && opc ≤ 0x3F
  | .exe => 0x40 ≤ opc && opc ≤ 0x5F
  | .mtx => 0x60 ≤ opc && opc ≤ 0x6B
  | .cpy => 0x6C ≤ opc && opc ≤ 0x77
  | .net => 0x78 ≤ opc && opc ≤ 0x7D

/-- The engine whose range holds an opcode; the control core for the common ones (R308). -/
def engOf (opc : Nat) : Eng :=
  if 0x30 ≤ opc && opc ≤ 0x3F then .acc else if 0x40 ≤ opc && opc ≤ 0x5F then .exe
  else if 0x60 ≤ opc && opc ≤ 0x6B then .mtx else if 0x6C ≤ opc && opc ≤ 0x77 then .cpy
  else if 0x78 ≤ opc && opc ≤ 0x7D then .net else .cc

/-- The word an engine reads, under the tests of Table 13.16 that the word alone decides, in its order. -/
def decodeFor (e : Eng) (w : BitVec 64) : Except DecodeError Instr :=
  if w.getLsbD 47 then .error (.illegal .reserved)
  else if (opcOf w).toNat == 0x7F then .ok (.ill w)
  else if !decodes e (opcOf w).toNat then .error .mismatch
  else match parseWord w with
    | none => .error (.illegal .reserved)
    | some i => match i.check with
      | none => .ok i
      | some why => .error (.illegal why)

/-- A command-list entry by its OP (Table 4.5). -/
def parseEntry (e : BitVec 512) : Option Instr :=
  let o := unpackCL e
  if e.extractLsb' 16 48 != 0 then none
  else match (e.extractLsb' 0 8).toNat with
  | 1 => some (.launch o)
  | 2 => some (.waitv o)
  | 3 => if o.w3 == 0 then some (.sigvSt o) else if o.w3 == 1 then some (.sigvAdd o) else if o.w3 == 2 then some (.sigvOr o) else none
  | 4 => some (.skipif o)
  | 5 => some (.jump o)
  | 6 => some (.listCall o)
  | 7 => some (.listRet o)
  | 8 => if o.w2 == 0 then some (.cutreqStop o) else if o.w2 == 1 then some (.cutreqCancel o) else if o.w2 == 2 then some (.cutreqResume o) else none
  | 9 => some (.fence o)
  | 10 => some (.note o)
  | 11 => some (.listEnd o)
  | _ => none

/-- The entry an interpreter reads (R87, R91). -/
def decodeEntry (e : BitVec 512) : Except DecodeError Instr :=
  match parseEntry e with
  | none => .error (.illegal .reserved)
  | some i => match i.check with
    | none => .ok i
    | some why => .error (.illegal why)

/-- The word of an instruction (R299, R300, R307); `none` for entries and events. -/
def Instr.encode : Instr → Option (BitVec 64)
  | .nop h => some (packWord h 0x00 0)
  | .mark h => some (packWord h 0x7E 0)
  | .ill b => some b
  | .add h o => some (packRR h 0x01 0 o)
  | .sub h o => some (packRR h 0x01 1 o)
  | .and h o => some (packRR h 0x01 2 o)
  | .or h o => some (packRR h 0x01 3 o)
  | .xor h o => some (packRR h 0x01 4 o)
  | .andn h o => some (packRR h 0x01 5 o)
  | .shl h o => some (packRR h 0x01 6 o)
  | .shr h o => some (packRR h 0x01 7 o)
  | .sar h o => some (packRR h 0x01 8 o)
  | .min h o => some (packRR h 0x01 9 o)
  | .max h o => some (packRR h 0x01 10 o)
  | .slt h o => some (packRR h 0x01 11 o)
  | .seq h o => some (packRR h 0x01 12 o)
  | .addi h o => some (packRI h 0x02 0 o)
  | .andi h o => some (packRI h 0x02 1 o)
  | .ori h o => some (packRI h 0x02 2 o)
  | .xori h o => some (packRI h 0x02 3 o)
  | .shli h o => some (packRI h 0x02 4 o)
  | .shri h o => some (packRI h 0x02 5 o)
  | .sari h o => some (packRI h 0x02 6 o)
  | .slti h o => some (packRI h 0x02 7 o)
  | .mul h o => some (packRR h 0x03 0 o)
  | .mulh h o => some (packRR h 0x03 1 o)
  | .div h o => some (packRR h 0x03 2 o)
  | .rem h o => some (packRR h 0x03 3 o)
  | .movi h o => some (packRI h 0x04 0 o)
  | .movhi h o => some (packRI h 0x04 1 o)
  | .movpc h o => some (packRI h 0x04 2 o)
  | .clz h o => some (packRR h 0x05 0 o)
  | .ctz h o => some (packRR h 0x05 1 o)
  | .popc h o => some (packRR h 0x05 2 o)
  | .brev h o => some (packRR h 0x05 3 o)
  | .bext h o => some (packRR h 0x05 4 o)
  | .bins h o => some (packRR h 0x05 5 o)
  | .sel h o => some (packRR h 0x06 0 o)
  | .cset h o => some (packRR h 0x06 1 o)
  | .ldb h fx o => some (packRI h 0x07 ((0 : BitVec 3) ||| (fx.setWidth 3 <<< 2)) o)
  | .ldh h fx o => some (packRI h 0x07 ((1 : BitVec 3) ||| (fx.setWidth 3 <<< 2)) o)
  | .ldw h fx o => some (packRI h 0x07 ((2 : BitVec 3) ||| (fx.setWidth 3 <<< 2)) o)
  | .ldd h fx o => some (packRI h 0x07 ((3 : BitVec 3) ||| (fx.setWidth 3 <<< 2)) o)
  | .stb h fx o => some (packRI h 0x08 ((0 : BitVec 3) ||| (fx.setWidth 3 <<< 2)) o)
  | .sth h fx o => some (packRI h 0x08 ((1 : BitVec 3) ||| (fx.setWidth 3 <<< 2)) o)
  | .stw h fx o => some (packRI h 0x08 ((2 : BitVec 3) ||| (fx.setWidth 3 <<< 2)) o)
  | .std h fx o => some (packRI h 0x08 ((3 : BitVec 3) ||| (fx.setWidth 3 <<< 2)) o)
  | .ldra h o => some (packRR h 0x09 0 o)
  | .aadd h o => some (packRR h 0x0A 0 o)
  | .aand h o => some (packRR h 0x0A 1 o)
  | .aor h o => some (packRR h 0x0A 2 o)
  | .axor h o => some (packRR h 0x0A 3 o)
  | .amin h o => some (packRR h 0x0A 4 o)
  | .amax h o => some (packRR h 0x0A 5 o)
  | .aswp h o => some (packRR h 0x0A 6 o)
  | .acas h o => some (packRR h 0x0A 7 o)
  | .afadd h o => some (packRR h 0x0A 8 o)
  | .facq h o => some (packSY h 0x0B 0 o)
  | .frel h o => some (packSY h 0x0B 1 o)
  | .far h o => some (packSY h 0x0B 2 o)
  | .beq h o => some (packBR h 0x0C 0 o)
  | .bne h o => some (packBR h 0x0C 1 o)
  | .blt h fx o => some (packBR h 0x0C ((2 : BitVec 3) ||| (fx.setWidth 3 <<< 2)) o)
  | .bge h fx o => some (packBR h 0x0C ((3 : BitVec 3) ||| (fx.setWidth 3 <<< 2)) o)
  | .bz h o => some (packBR h 0x0D 0 o)
  | .bnz h o => some (packBR h 0x0D 1 o)
  | .dbnz h o => some (packBR h 0x10 0 o)
  | .jmp h o => some (packJM h 0x0E 0 o)
  | .call h o => some (packJM h 0x0E 1 o)
  | .jr h o => some (packRR h 0x0F 0 o)
  | .callr h o => some (packRR h 0x0F 1 o)
  | .ret h o => some (packRR h 0x0F 2 o)
  | .setcl h o => some (packSY h 0x11 0 o)
  | .inccl h o => some (packSY h 0x11 1 o)
  | .setcrd h o => some (packSY h 0x11 2 o)
  | .getcrd h o => some (packSY h 0x11 3 o)
  | .getcl h o => some (packSY h 0x11 4 o)
  | .cut h o => some (packSY h 0x12 0 o)
  | .cutq h o => some (packSY h 0x12 1 o)
  | .cutw h o => some (packSY h 0x12 2 o)
  | .pushq h o => some (packRR h 0x13 0 o)
  | .pushqn h o => some (packRR h 0x13 1 o)
  | .ringcpy h o => some (packSY h 0x14 0 o)
  | .wset h o => some (packSY h 0x15 0 o)
  | .tinc h o => some (packSY h 0x16 0 o)
  | .tdec h o => some (packSY h 0x16 1 o)
  | .trd h o => some (packSY h 0x16 2 o)
  | .tset h o => some (packSY h 0x16 3 o)
  | .join h o => some (packSY h 0x17 0 o)
  | .tdset h o => some (packSY h 0x18 0 o)
  | .tdrd h o => some (packSY h 0x18 1 o)
  | .tdinv h o => some (packSY h 0x18 2 o)
  | .phreg h o => some (packSY h 0x19 0 o)
  | .phdrop h o => some (packSY h 0x19 1 o)
  | .phsig h o => some (packSY h 0x19 2 o)
  | .phwait h o => some (packSY h 0x19 3 o)
  | .phsw h o => some (packSY h 0x19 4 o)
  | .phexp h o => some (packSY h 0x19 5 o)
  | .phrd h o => some (packSY h 0x19 6 o)
  | .phase h o => some (packSY h 0x1A 0 o)
  | .spawn h o => some (packSY h 0x1B 0 o)
  | .spawnw h o => some (packSY h 0x1B 1 o)
  | .dwb h o => some (packSY h 0x1C 0 o)
  | .dinv h o => some (packSY h 0x1C 1 o)
  | .iinv h o => some (packSY h 0x1D 0 o)
  | .fetchb h o => some (packSY h 0x1E 0 o)
  | .ilock h o => some (packSY h 0x1F 0 o)
  | .iunlk h o => some (packSY h 0x1F 1 o)
  | .ecfgw h o => some (packSY h 0x20 0 o)
  | .ecfgr h o => some (packSY h 0x20 1 o)
  | .rdsr h o => some (packSY h 0x21 0 o)
  | .wrsr h o => some (packSY h 0x21 1 o)
  | .setsr h o => some (packSY h 0x21 2 o)
  | .clrsr h o => some (packSY h 0x21 3 o)
  | .trap h o => some (packSY h 0x22 0 o)
  | .brk h o => some (packSY h 0x22 1 o)
  | .tret h o => some (packSY h 0x23 0 o)
  | .cbstat h o => some (packSY h 0x24 0 o)
  | .cbrst h o => some (packSY h 0x24 1 o)
  | .ttrd h o => some (packSY h 0x25 0 o)
  | .ttset h o => some (packSY h 0x25 1 o)
  | .ttref h o => some (packSY h 0x25 2 o)
  | .ttunref h o => some (packSY h 0x25 3 o)
  | .pgreq h o => some (packTN h 0x26 0 o)
  | .tend h o => some (packSY h 0x27 0 o)
  | .ctxnew h o => some (packSY h 0x28 0 o)
  | .ctxkill h o => some (packSY h 0x28 1 o)
  | .ctxinc h o => some (packSY h 0x28 2 o)
  | .ctxsave h o => some (packSY h 0x28 3 o)
  | .ctxload h o => some (packSY h 0x28 4 o)
  | .rcf h o => some (packSY h 0x29 0 o)
  | .pcreate h o => some (packSY h 0x2A 0 o)
  | .psetq h o => some (packSY h 0x2A 1 o)
  | .pdestroy h o => some (packSY h 0x2A 2 o)
  | .chmap h o => some (packSY h 0x2B 0 o)
  | .slice h o => some (packSY h 0x2C 0 o)
  | .sbudget h o => some (packSY h 0x2C 1 o)
  | .fbpop h o => some (packSY h 0x2D 0 o)
  | .fbrel h o => some (packSY h 0x2D 1 o)
  | .pgpop h o => some (packSY h 0x2D 2 o)
  | .fbact h o => some (packSY h 0x2D 3 o)
  | .frz h o => some (packSY h 0x2E 0 o)
  | .caprd h o => some (packSY h 0x2E 1 o)
  | .sleep h o => some (packSY h 0x2E 2 o)
  | .wfe h o => some (packSY h 0x2F 0 o)
  | .ldt h o => some (packTN h 0x30 0 o)
  | .ldtr h o => some (packTN h 0x30 1 o)
  | .stt h o => some (packTN h 0x31 0 o)
  | .lds h o => some (packRRI h 0x32 0 o)
  | .ldsb h o => some (packRRI h 0x32 1 o)
  | .sts h o => some (packRRI h 0x33 0 o)
  | .gath h o => some (packTN h 0x34 0 o)
  | .scat h o => some (packTN h 0x34 1 o)
  | .gadd h o => some (packRR h 0x35 0 o)
  | .gsub h o => some (packRR h 0x35 1 o)
  | .gmul h o => some (packRR h 0x35 2 o)
  | .gshl h o => some (packRR h 0x35 3 o)
  | .gshr h o => some (packRR h 0x35 4 o)
  | .gand h o => some (packRR h 0x35 5 o)
  | .gor h o => some (packRR h 0x35 6 o)
  | .gmin h o => some (packRR h 0x35 7 o)
  | .gmax h o => some (packRR h 0x35 8 o)
  | .gaddi h o => some (packRRI h 0x36 0 o)
  | .gandi h o => some (packRRI h 0x36 1 o)
  | .gshli h o => some (packRRI h 0x36 2 o)
  | .gmovi h o => some (packRI h 0x37 0 o)
  | .gmovhi h o => some (packRI h 0x37 1 o)
  | .gcl h o => some (packRI h 0x37 2 o)
  | .gparm h o => some (packRI h 0x3F 0 o)
  | .loopAcc h fx o => some (packRI h 0x38 ((0 : BitVec 3) ||| (fx.setWidth 3 <<< 0)) o)
  | .sloop h fx o => some (packRI h 0x39 ((0 : BitVec 3) ||| (fx.setWidth 3 <<< 0)) o)
  | .bpushAcc h o => some (packRRI h 0x3A 0 o)
  | .bskipAcc h o => some (packRRI h 0x3A 1 o)
  | .cbacq h o => some (packRRI h 0x3B 0 o)
  | .cbrel h o => some (packRRI h 0x3B 1 o)
  | .setclAcc h o => some (packRRI h 0x3C 0 o)
  | .incclAcc h o => some (packRRI h 0x3C 1 o)
  | .dqflush h o => some (packRRI h 0x3D 0 o)
  | .dqeos h o => some (packRRI h 0x3D 1 o)
  | .pgreqAcc h o => some (packTN h 0x3E 0 o)
  | .vadd h fx o => some (packRR h 0x40 ((0 : BitVec 5) ||| (fx.setWidth 5 <<< 3)) o)
  | .vsub h fx o => some (packRR h 0x40 ((1 : BitVec 5) ||| (fx.setWidth 5 <<< 3)) o)
  | .vmul h fx o => some (packRR h 0x40 ((2 : BitVec 5) ||| (fx.setWidth 5 <<< 3)) o)
  | .vmin h fx o => some (packRR h 0x40 ((3 : BitVec 5) ||| (fx.setWidth 5 <<< 3)) o)
  | .vmax h fx o => some (packRR h 0x40 ((4 : BitVec 5) ||| (fx.setWidth 5 <<< 3)) o)
  | .vabs h fx o => some (packRR h 0x40 ((5 : BitVec 5) ||| (fx.setWidth 5 <<< 3)) o)
  | .vneg h fx o => some (packRR h 0x40 ((6 : BitVec 5) ||| (fx.setWidth 5 <<< 3)) o)
  | .vfma h fx o => some (packRR h 0x41 ((0 : BitVec 5) ||| (fx.setWidth 5 <<< 3)) o)
  | .vfms h fx o => some (packRR h 0x41 ((1 : BitVec 5) ||| (fx.setWidth 5 <<< 3)) o)
  | .vfnma h fx o => some (packRR h 0x41 ((2 : BitVec 5) ||| (fx.setWidth 5 <<< 3)) o)
  | .viadd h fx o => some (packRR h 0x42 ((0 : BitVec 5) ||| (fx.setWidth 5 <<< 3)) o)
  | .visub h fx o => some (packRR h 0x42 ((1 : BitVec 5) ||| (fx.setWidth 5 <<< 3)) o)
  | .vimul h fx o => some (packRR h 0x42 ((2 : BitVec 5) ||| (fx.setWidth 5 <<< 3)) o)
  | .vshl h fx o => some (packRR h 0x42 ((3 : BitVec 5) ||| (fx.setWidth 5 <<< 3)) o)
  | .vshr h fx o => some (packRR h 0x42 ((4 : BitVec 5) ||| (fx.setWidth 5 <<< 3)) o)
  | .vand h fx o => some (packRR h 0x42 ((5 : BitVec 5) ||| (fx.setWidth 5 <<< 3)) o)
  | .vor h fx o => some (packRR h 0x42 ((6 : BitVec 5) ||| (fx.setWidth 5 <<< 3)) o)
  | .vxor h fx o => some (packRR h 0x42 ((7 : BitVec 5) ||| (fx.setWidth 5 <<< 3)) o)
  | .vdot4 h o => some (packRR h 0x43 0 o)
  | .vdot2 h o => some (packRR h 0x43 1 o)
  | .vdiv h fx o => some (packRR h 0x44 ((0 : BitVec 5) ||| (fx.setWidth 5 <<< 3)) o)
  | .vsqrt h fx o => some (packRR h 0x44 ((1 : BitVec 5) ||| (fx.setWidth 5 <<< 3)) o)
  | .vrcp h fx o => some (packRR h 0x44 ((2 : BitVec 5) ||| (fx.setWidth 5 <<< 3)) o)
  | .vrsq h fx o => some (packRR h 0x44 ((3 : BitVec 5) ||| (fx.setWidth 5 <<< 3)) o)
  | .vexp2 h o => some (packRR h 0x45 0 o)
  | .vlog2 h o => some (packRR h 0x45 1 o)
  | .vtanh h o => some (packRR h 0x45 2 o)
  | .vcmp h fx o => some (packRR h 0x46 ((0 : BitVec 5) ||| (fx.setWidth 5 <<< 0)) o)
  | .vicmp h fx o => some (packRR h 0x46 ((24 : BitVec 5) ||| (fx.setWidth 5 <<< 0)) o)
  | .vsel h o => some (packRR h 0x47 0 o)
  | .vcvt h fx o => some (packRR h 0x48 ((0 : BitVec 5) ||| (fx.setWidth 5 <<< 0)) o)
  | .vrsum h fx o => some (packRR h 0x49 ((0 : BitVec 5) ||| (fx.setWidth 5 <<< 3)) o)
  | .vrmax h fx o => some (packRR h 0x49 ((1 : BitVec 5) ||| (fx.setWidth 5 <<< 3)) o)
  | .vrmin h fx o => some (packRR h 0x49 ((2 : BitVec 5) ||| (fx.setWidth 5 <<< 3)) o)
  | .vrargmax h fx o => some (packRR h 0x49 ((3 : BitVec 5) ||| (fx.setWidth 5 <<< 3)) o)
  | .vscanadd h fx o => some (packRR h 0x4A ((0 : BitVec 5) ||| (fx.setWidth 5 <<< 3)) o)
  | .vscanmax h fx o => some (packRR h 0x4A ((1 : BitVec 5) ||| (fx.setWidth 5 <<< 3)) o)
  | .vperm h fx o => some (packRR h 0x4B ((0 : BitVec 5) ||| (fx.setWidth 5 <<< 3)) o)
  | .vbcast h fx o => some (packRR h 0x4B ((1 : BitVec 5) ||| (fx.setWidth 5 <<< 3)) o)
  | .vrot h fx o => some (packRR h 0x4B ((2 : BitVec 5) ||| (fx.setWidth 5 <<< 3)) o)
  | .vshuf h fx o => some (packRR h 0x4B ((3 : BitVec 5) ||| (fx.setWidth 5 <<< 3)) o)
  | .vmov h o => some (packRR h 0x4C 0 o)
  | .vmovi h o => some (packRRI h 0x4C 1 o)
  | .pand h o => some (packRR h 0x4D 0 o)
  | .por h o => some (packRR h 0x4D 1 o)
  | .pxor h o => some (packRR h 0x4D 2 o)
  | .pnot h o => some (packRR h 0x4D 3 o)
  | .pffs h o => some (packRR h 0x4D 4 o)
  | .pffz h o => some (packRR h 0x4D 5 o)
  | .pcnt h o => some (packRR h 0x4D 6 o)
  | .defer h o => some (packRR h 0x4E 0 o)
  | .drain h o => some (packRR h 0x4F 0 o)
  | .drainf h o => some (packRR h 0x4F 1 o)
  | .loopExe h fx o => some (packRI h 0x50 ((0 : BitVec 3) ||| (fx.setWidth 3 <<< 0)) o)
  | .bpushExe h o => some (packRRI h 0x51 0 o)
  | .bskipExe h o => some (packRRI h 0x51 1 o)
  | .setclExe h o => some (packRRI h 0x52 0 o)
  | .incclExe h o => some (packRRI h 0x52 1 o)
  | .vqblk h fx o => some (packRR h 0x53 ((0 : BitVec 5) ||| (fx.setWidth 5 <<< 3)) o)
  | .vdqblk h fx o => some (packRR h 0x53 ((1 : BitVec 5) ||| (fx.setWidth 5 <<< 3)) o)
  | .vscale h fx o => some (packRR h 0x53 ((2 : BitVec 5) ||| (fx.setWidth 5 <<< 3)) o)
  | .vomax h o => some (packRR h 0x54 0 o)
  | .viota h o => some (packRR h 0x55 0 o)
  | .vclv h o => some (packRR h 0x55 1 o)
  | .vfrd h o => some (packRR h 0x56 0 o)
  | .vfclr h o => some (packRR h 0x56 1 o)
  | .vfclrCtx h o => some (packRR h 0x56 2 o)
  | .vrmask h o => some (packRR h 0x57 0 o)
  | .qcmp h fx o => some (packRR h 0x58 ((0 : BitVec 5) ||| (fx.setWidth 5 <<< 0)) o)
  | .qand h fx o => some (packRR h 0x59 ((0 : BitVec 5) ||| (fx.setWidth 5 <<< 2)) o)
  | .qor h fx o => some (packRR h 0x59 ((1 : BitVec 5) ||| (fx.setWidth 5 <<< 2)) o)
  | .qnot h o => some (packRR h 0x59 2 o)
  | .qsel h fx o => some (packRR h 0x5A ((0 : BitVec 5) ||| (fx.setWidth 5 <<< 3)) o)
  | .qcol h o => some (packRR h 0x5B 0 o)
  | .qfrom h o => some (packRR h 0x5C 0 o)
  | .qto h o => some (packRR h 0x5C 1 o)
  | .qgcmp h fx o => some (packRR h 0x5D ((0 : BitVec 5) ||| (fx.setWidth 5 <<< 2)) o)
  | .qgsel h o => some (packRR h 0x5D 1 o)
  | .qgand h o => some (packRR h 0x5D 2 o)
  | .qlin h o => some (packRR h 0x5E 0 o)
  | .qrsum h o => some (packRR h 0x5F 0 o)
  | .qrprod h o => some (packRR h 0x5F 1 o)
  | .mldb h o => some (packMG h 0x60 0 o)
  | .mlds h o => some (packMG h 0x61 0 o)
  | .mgo h o => some (packMG h 0x62 0 o)
  | .mdrain h o => some (packMG h 0x63 0 o)
  | .mdraina h o => some (packMG h 0x63 1 o)
  | .minit h o => some (packMG h 0x64 0 o)
  | .mswap h o => some (packMG h 0x65 0 o)
  | .mwait h o => some (packMG h 0x66 0 o)
  | .mstat h o => some (packMG h 0x67 0 o)
  | .mdq h o => some (packMG h 0x68 0 o)
  | .mclr h o => some (packMG h 0x69 0 o)
  | .mlda h o => some (packMG h 0x6A 0 o)
  | .msel h o => some (packMG h 0x6B 0 o)
  | .copy h o => some (packCP h 0x6C 0 o)
  | .copyXor h o => some (packCP h 0x6C 1 o)
  | .cfill h o => some (packCP h 0x6D 0 o)
  | .cpush h o => some (packCP h 0x6E 0 o)
  | .cpushXor h o => some (packCP h 0x6E 1 o)
  | .cpull h o => some (packCP h 0x6F 0 o)
  | .cxch h o => some (packCP h 0x70 0 o)
  | .ccb h o => some (packCP h 0x71 0 o)
  | .tcow h o => some (packCP h 0x72 0 o)
  | .tmigDemote h o => some (packCP h 0x73 0 o)
  | .tmigPromote h o => some (packCP h 0x73 1 o)
  | .tshare h o => some (packCP h 0x74 0 o)
  | .tfree h o => some (packCP h 0x75 0 o)
  | .cpref h o => some (packCP h 0x76 0 o)
  | .csync h o => some (packCP h 0x77 0 o)
  | .nsend h o => some (packSY h 0x78 0 o)
  | .nrecv h o => some (packSY h 0x79 0 o)
  | .nput h o => some (packSY h 0x7A 0 o)
  | .nget h o => some (packSY h 0x7B 0 o)
  | .ncset h o => some (packSY h 0x7C 0 o)
  | .ncrd h o => some (packSY h 0x7C 1 o)
  | .nctlFlush h o => some (packSY h 0x7D 0 o)
  | .nctlCancel h o => some (packSY h 0x7D 0 o)
  | _ => none

/-- The eight words of a command-list entry (R87, R88); `none` for words and events. -/
def Instr.encodeEntry : Instr → Option (BitVec 512)
  | .launch o => some (packCL 1 o)
  | .waitv o => some (packCL 2 o)
  | .sigvSt o => some (packCL 3 o)
  | .sigvAdd o => some (packCL 3 o)
  | .sigvOr o => some (packCL 3 o)
  | .skipif o => some (packCL 4 o)
  | .jump o => some (packCL 5 o)
  | .listCall o => some (packCL 6 o)
  | .listRet o => some (packCL 7 o)
  | .cutreqStop o => some (packCL 8 o)
  | .cutreqCancel o => some (packCL 8 o)
  | .cutreqResume o => some (packCL 8 o)
  | .fence o => some (packCL 9 o)
  | .note o => some (packCL 10 o)
  | .listEnd o => some (packCL 11 o)
  | _ => none

/-- The word value the fault records of an instruction carry (Table 7.1); 0 where the step has no word. -/
def Instr.word (i : Instr) : BitVec 64 := i.encode.getD 0

/-- Little-endian bytes (R7). -/
def leBytes (w : Nat) : Nat → List Byte
  | 0 => []
  | n + 1 => BitVec.ofNat 8 w :: leBytes (w / 256) n
/-- The number whose little-endian bytes these are (R7). -/
def leNat : List Byte → Nat
  | [] => 0
  | b :: t => b.toNat + 256 * leNat t

/-- A word as it stands in memory or in a ring: eight bytes, the first at the lowest address (R7). -/
def decodeBytes (e : Eng) (bs : List Byte) : Except DecodeError Instr := decodeFor e (BitVec.ofNat 64 (leNat (bs.take 8)))
/-- A command-list entry as it stands in memory: 64 bytes. -/
def decodeEntryBytes (bs : List Byte) : Except DecodeError Instr := decodeEntry (BitVec.ofNat 512 (leNat (bs.take 64)))

/-- The instruction read from bits numbered as the opcode table numbers them: a word of at most 64 bits is read by the engine
that its opcode belongs to, a longer one as a command-list entry. -/
def decodeTableWord (nbits w : Nat) : Option Instr :=
  if nbits ≤ 64 then
    (decodeBytes (engOf (opcOf (BitVec.ofNat 64 (w % 2 ^ nbits))).toNat) (leBytes (w % 2 ^ nbits) 8)).toOption
  else (decodeEntryBytes (leBytes (w % 2 ^ nbits) 64)).toOption

end

end Sys2Proof
end

