-- ==== Sys2Proof/Machine/State.lean ====
section
/-! DEFINITION. The state of the whole device as plain data: cores with their engines, rings, queues, tokens and scratchpad;
contexts, partitions, launches, teams and phasers; memory; the fabric, Ultra Ethernet, command-list and power agents; and the
model's own scheduling data (which agent moves next) and free-value counter. -/

namespace Sys2Proof.Machine

/-- Reasons for which a step of the model stops. Faults of the manual are next states (R148 to R154), so only the model's own
stop stands here. -/
inductive Fault where
  /-- Raised by no meaning of the manual's steps: kept so that a stop has a name. Safe. -/
  | stuck
  deriving DecidableEq, Repr

/-- Reasons for which a step has no meaning. -/
inductive Refusal where
  /-- Raised by `exec` for a row that has no meaning yet, with its mnemonic. Safe. -/
  | notModelled (mnemonic : String)
  deriving DecidableEq, Repr

/-! ### Engines -/

/-- The ring of one engine (Table 8.1, R168), with the coordinate of each slot's push (R322). -/
structure Ring where
  base : BitVec 19 := 0
  size : BitVec 4 := 0
  tail : BitVec 16 := 0
  head : BitVec 16 := 0
  ret : BitVec 16 := 0
  pushE : SMap Word := []
  deriving DecidableEq, Repr, Inhabited

/-- A running LOOP or SLOOP (R27, R178, R179): the ring position of its body, the body's length, the level it is bound to (0
none) with its starting value, the iterations, the stages and the current iteration. -/
structure Loop where
  sloop : Bool := false
  sq : Nat := 0
  start : BitVec 16 := 0
  len : Nat := 0
  lvl : Nat := 0
  lvl0 : Nat := 0
  count : Nat := 0
  stages : Nat := 1
  epi : Nat := 0
  k : Nat := 0
  eos : Bool := false
  deriving DecidableEq, Repr, Inhabited

/-- An entry of a data queue or store queue (R176). `src` names, byte by byte, the memory (and the bits of it) from which an
entry's data has still to land. -/
structure QEnt where
  eos : Bool := false
  data : Vec := 0
  e : Word := 0
  flags : Pred := 0
  fmt : BitVec 5 := 0
  landed : Bool := true
  src : List (Option (Nat × Byte)) := []
  id : Nat := 0
  deriving DecidableEq, Repr, Inhabited

/-- An outcome bit with its pusher's coordinate (R177). -/
structure OBit where
  bit : Bool := false
  e : Word := 0
  deriving DecidableEq, Repr, Inhabited

/-- What an engine keeps with every issued operation, as it stood just before (R367). -/
structure Snap where
  crd : Word := 0
  elast : Word := 0
  loops : List Loop := []
  sp : BitVec 8 := 0
  rot : Nat := 0
  skip : Nat := 0
  lastPop : SMap (BitVec 256 × BitVec 5) := []
  deriving DecidableEq, Repr, Inhabited

/-- An issued word whose ring slot is still held (R170): its position, coordinate, whether it has retired, what it popped from
queues (0 to 3 data, 4 and 5 store) and from an outcome queue, and the snapshot of R367. -/
structure Iss where
  pos : BitVec 16 := 0
  e : Word := 0
  retired : Bool := false
  pops : List (Nat × QEnt) := []
  bits : List OBit := []
  snap : Snap := {}
  id : Nat := 0
  deriving DecidableEq, Repr, Inhabited

/-- A fault record (Table 7.4). -/
structure FRec where
  code : BitVec 8 := 0
  cls : BitVec 2 := 0
  eng : BitVec 3 := 0
  park : Bool := false
  cid : BitVec 12 := 0
  inc : BitVec 10 := 0
  gts : Word := 0
  src : BitVec 20 := 0
  crd : Word := 0
  pc : Word := 0
  val : Word := 0
  detail : BitVec 512 := 0
  deriving DecidableEq, Repr, Inhabited

/-- A fault on which an engine is parked (R148), with the partition and index of its record; `before` tells the restart point,
`held` that its record waits for room in the buffer (R154), `stop` that the engine waits for the supervisor (restart "stopped"),
`paused` that the operation continues by itself (NRES), `core` that the whole core is held (R152), `op` the released operation that
faulted, 0 for a word. -/
structure Park where
  frec : FRec := {}
  before : Bool := true
  pid : Nat := 0
  idx : BitVec 32 := 0
  held : Bool := false
  stop : Bool := false
  paused : Bool := false
  slot : BitVec 16 := 0
  core : Bool := false
  op : Nat := 0
  deriving DecidableEq, Repr, Inhabited

/-- One engine, the control core included: its coordinates (R248, R249), ring, loops, stage predicates, rotation, outcome skip,
parked fault, the operations ordered before its next word (R226), and whether it waits for a stop that its core's watch asked for. -/
structure EngSt where
  crd : Word := 0
  elast : Word := 0
  ring : Ring := {}
  loops : List Loop := []
  sp : BitVec 8 := 0
  rot : Nat := 0
  skip : Nat := 0
  park : Option Park := none
  before : List Nat := []
  waitsStop : Bool := false
  iss : List Iss := []
  deriving DecidableEq, Repr, Inhabited

/-- A token counter (R171): count, tag, and the operations that its signals order before a consumer (R226). `floor` is the model's
own: the largest coordinate of a signal at or below the horizon of its time, which no stop takes back. -/
structure Tok where
  count : BitVec 16 := 0
  tag : Word := 0
  floor : Word := 0
  before : List Nat := []
  deriving DecidableEq, Repr, Inhabited

/-- A probability register (R400): 64 codes, lineage, independence. -/
structure QReg where
  code : BitVec 1024 := 0
  lin : BitVec 16 := 0
  ind : Bool := false
  deriving DecidableEq, Repr, Inhabited

/-- A circular buffer (Table 8.7), with the slots being filled and acquired (R189). -/
structure Cb where
  w0 : Word := 0
  filled : Nat := 0
  free : Nat := 0
  ridx : Nat := 0
  widx : Nat := 0
  tag : Word := 0
  filling : Nat := 0
  acquired : Nat := 0
  deriving DecidableEq, Repr, Inhabited

/-- A peel-log entry (Table 11.5). `new` is the model's own: the value that the change left, for the kinds that count. -/
structure Peel where
  kind : BitVec 4 := 0
  eng : BitVec 3 := 0
  mask : BitVec 32 := 0
  addr : BitVec 48 := 0
  crd : Word := 0
  old : BitVec 256 := 0
  pc : Word := 0
  new : BitVec 256 := 0
  deriving DecidableEq, Repr, Inhabited

/-- A deferral record (Table 8.3). -/
structure DefRec where
  v : BitVec 128 := 0
  lane : BitVec 8 := 0
  nv : BitVec 3 := 0
  crd : Word := 0
  deriving DecidableEq, Repr, Inhabited

/-- What a horizon-bound EXE operation writes when it commits (R251). -/
inductive ExeEff where
  | v (r : Nat) (x : Vec)
  | p (r : Nat) (x : Pred)
  | q (r : Nat) (x : QReg)
  | push (sq : Nat) (x : QEnt)
  | bit (b : OBit)
  | flags (f : BitVec 8)
  | clearFlags (ctx : Bool)
  | defer (rs : List DefRec)
  | deferHead (n : Nat)
  | vflags (r : Nat)
  | pushFlags (sq : Nat) (e : Word)
  deriving DecidableEq, Repr, Inhabited

/-- An issued EXE operation that has not committed: coordinate, signal, ring position, issue number, the cycle from which its
bound makes the result readable, its effects, and a fault that it raises at commit (R402). -/
structure ExeOp where
  e : Word := 0
  sig : BitVec 8 := 0
  slot : BitVec 16 := 0
  id : Nat := 0
  avail : Nat := 0
  effs : List ExeEff := []
  fault : Option (BitVec 8 × Word) := none
  deriving DecidableEq, Repr, Inhabited

/-- A scratchpad write in flight (R181): the cycle at which its bound ends, the bytes it covers within one granule, and their old
contents. -/
structure Flight where
  avail : Nat := 0
  addr : Nat := 0
  len : Nat := 32
  old : BitVec 256 := 0
  deriving DecidableEq, Repr, Inhabited

/-- An ACC load whose data has not landed (R176): its signal, coordinate, ring position and issue number, the queue entry
(queue and entry number) or g register that it fills, and the operations that must be performed first (R228, R230). -/
structure Landing where
  e : Word := 0
  sig : BitVec 8 := 0
  slot : BitVec 16 := 0
  id : Nat := 0
  queue : Option (Nat × Nat) := none
  g : Option Nat := none
  after : List Nat := []
  deriving DecidableEq, Repr, Inhabited

/-- A line of the instruction cache (R165, R166). -/
structure ICLine where
  addr : Nat := 0
  valid : Bool := false
  data : BitVec 512 := 0
  locked : Bool := false
  deriving DecidableEq, Repr, Inhabited

/-- A recorded lock range (R166). -/
structure LockRange where
  addr : Nat := 0
  lines : Nat := 0
  deriving DecidableEq, Repr, Inhabited

/-- A cached tile translation (R205). -/
structure TTCEnt where
  cid : BitVec 12 := 0
  inc : BitVec 10 := 0
  tid : BitVec 10 := 0
  tile : Nat := 0
  ent : BitVec 128 := 0
  deriving DecidableEq, Repr, Inhabited

/-! ### The matrix engine -/

/-- A half of the weight buffer with its panel record (Table 19.1, R428): codes by K row and column, each with its block's bytes; an
element that contributes no product is not listed. -/
structure WRec where
  tidb : BitVec 10 := 0
  bmode : BitVec 2 := 0
  k0 : Nat := 0
  n0 : Nat := 0
  groups : Nat := 0
  valid : Bool := false
  elems : SMap (Option (BitVec 32)) := []
  deriving DecidableEq, Repr, Inhabited

/-- An issued matrix word that has not retired: its ring slot, its number in `iss`, its coordinate and that of its present point, the
loop-nest slot that it captured, its next point and row (R425), whether an auto-drain is under way, the tile that an operand fetch
waits for, the seed of its drains, the entries popped, the rows not yet performed at their homes, and the operations that must be performed
before its accesses (R228, R230). -/
structure MtxOp where
  slot : BitVec 16 := 0
  id : Nat := 0
  w : Word := 0
  e : Word := 0
  pe : Word := 0
  nest : List Word := []
  k : Nat := 0
  row : Nat := 0
  draining : Bool := false
  nres : Option Word := none
  seed : Word := 0
  ents : List QEnt := []
  pend : List Nat := []
  after : List Nat := []
  deriving DecidableEq, Repr, Inhabited

/-- The matrix engine (R414): accumulator tiles by row and column, the kind of each (true: I32), the halves of the weight buffer, the A stage, the masks, the loop-nest slots, and the issued words. -/
structure Mtx where
  acc0 : SMap (BitVec 32) := []
  acc1 : SMap (BitVec 32) := []
  kind0 : Bool := false
  kind1 : Bool := false
  wb0 : WRec := {}
  wb1 : WRec := {}
  front : Bool := false
  arow : SMap Vec := []
  anop : SMap Bool := []
  aM : Nat := 0
  aK : Nat := 0
  apend : Bool := false
  avalid : Bool := false
  rmask : BitVec 128 := BitVec.allOnes 128
  cmask : BitVec 128 := BitVec.allOnes 128
  shadow : SMap Word := []
  active : SMap Word := []
  flags : BitVec 8 := 0
  points : Word := 0
  lastc : Word := 0
  ops : List MtxOp := []
  deriving DecidableEq, Repr, Inhabited

/-! ### Held and in-flight outward effects -/

/-- An atomic operation (Table 10.6), with its eligibility qualifiers. -/
inductive AtomOp where
  | add | and | or | xor | min (uns : Bool) | max (uns : Bool) | swp | cas | fadd (ra : Bool)
  deriving DecidableEq, Repr, Inhabited

/-- Where a write of an ACC, CPY or MTX operand goes: bytes at memory keys. -/
abbrev Bytes := List (Nat × Byte)

/-- One byte written to a tile: the tile's number, the byte of its run, the value and the mask of bits written (R204: a nibble of an
E2M1S byte is merged at the home). -/
structure TCell where
  tile : Nat := 0
  off : Nat := 0
  v : Byte := 0
  mask : Byte := 0xFF
  deriving DecidableEq, Repr, Inhabited

/-- What a copy word captured at issue: the word, its slot's two words, its coordinates, a CFILL's pattern, and the address and number of
the circular-buffer slot that it fills. -/
structure CpyJob where
  w : Word := 0
  d0 : Word := 0
  d1 : Word := 0
  x : List Nat := []
  pat : List Byte := []
  cbAddr : Nat := 0
  cbSlot : Nat := 0
  deriving DecidableEq, Repr, Inhabited

/-- The outward effect of a held or in-flight entry (R258, R319, Table 14.2). -/
inductive Act where
  | store (addr : Word) (n : Nat) (v : Word) (ks : List Nat)
  | atomic (op : AtomOp) (addr : Word) (d : BitVec 6) (x y : Word) (nc : Bool) (ks : List Nat)
  | ldra (addr : Word) (d : BitVec 6) (ks : List Nat)
  | rload (dev : BitVec 8) (addr : Word) (d : BitVec 6)
  | rstore (dev : BitVec 8) (addr : Word) (v : Word)
  | ratomic (dev : BitVec 8) (op : AtomOp) (addr : Word) (d : BitVec 6) (x y : Word) (nc : Bool)
  | bytes (b : Bytes)
  | twrite (tid : BitVec 10) (cells : List TCell)
  | tdset (tid : BitVec 10) (x : BitVec 512)
  | tdinv (tid : BitVec 10)
  | ttset (tid : BitVec 10) (tile : Nat) (x : BitVec 128)
  | ttref (tid : BitVec 10) (tile : Nat)
  | ttunref (tid : BitVec 10) (tile : Nat)
  | phreg (ph : BitVec 12) (mode : BitVec 2)
  | phdrop (ph : BitVec 12)
  | spawn (addr : Word) (waits : Bool)
  | dwb (addr : Word) (lines : Nat)
  | dinv (addr : Word) (lines : Nat)
  | iinv (scope : BitVec 3) (addr : Word) (lines : Nat)
  | cpy (j : CpyJob)
  | net (op : BitVec 3) (words : List Word)
  deriving DecidableEq, Repr, Inhabited

/-- A tile as an operation has translated it for its reads, or with `wr` for its writes: the first frame of its run (R207). -/
structure TRun where
  tid : BitVec 10 := 0
  wr : Bool := false
  tile : Nat := 0
  frame : BitVec 36 := 0
  deriving DecidableEq, Repr, Inhabited

/-- An entry of an egress hold, or after its release an operation still incomplete (R258, R252). `k` counts the
granules, tiles or packets of a copy word already done; `sig` is applied at completion; `parent` is the transfer whose
data it lands; `allSent` that every packet has been sent; `after` names the operations that must be performed first (R228, R230), `rel` those that a
release waits for, by scope (R227), and `runs` the tiles that it has translated (R207). -/
structure Held where
  id : Nat := 0
  core : Nat := 0
  cid : BitVec 12 := 0
  inc : BitVec 10 := 0
  eng : Eng := .cc
  e : Word := 0
  act : Act := .bytes []
  sig : BitVec 8 := 0
  acq : Option (BitVec 3) := none
  after : List Nat := []
  rel : List (BitVec 3 × List Nat) := []
  runs : List TRun := []
  w : Word := 0
  pc : Word := 0
  k : Nat := 0
  cbSlot : Option Nat := none
  parent : Option Nat := none
  allSent : Bool := false
  slot : BitVec 16 := 0
  raised : Bool := false
  deriving DecidableEq, Repr, Inhabited

/-! ### Tile tasks and cores -/

/-- A launch descriptor's fields as accepted (Table 5.1). -/
structure LDesc where
  gx : Nat := 1
  gy : Nat := 1
  gz : Nat := 1
  tasks : Nat := 1
  gang : Bool := false
  stage : BitVec 6 := 0
  cls : BitVec 2 := 0
  entry : Word := 0
  cw : List Nat := [0, 0, 0, 0, 0]
  nbv : Bool := false
  prof : BitVec 6 := 1
  spimg : Word := 0
  splen : Nat := 0
  rings : List Nat := [6, 6, 6, 6, 6]
  wtab : Word := 0
  nwait : Nat := 0
  dfqb : Nat := 0
  dfqen : Bool := false
  arg : Word := 0
  deriving DecidableEq, Repr, Inhabited

/-- The tile task on a core (R98, R99); `loaded` once its state has been written from an image (R147). -/
structure Task where
  cid : BitVec 12 := 0
  inc : BitVec 10 := 0
  launch : Nat := 0
  team : Nat := 0
  t : Nat := 0
  base : Word := 0
  desc : LDesc := {}
  descAddr : Word := 0
  launchId : BitVec 32 := 0
  loaded : Bool := false
  started : Bool := false
  ended : Bool := false
  tending : Bool := false
  superPh : Option (BitVec 12) := none
  deriving DecidableEq, Repr, Inhabited

/-- A wake-up that a control-core word waits for. `phw` awaits the release of phase `n` of a phaser; `woke` is the coordinate that the release gave a
member whose drop took effect with it. -/
inductive CCWait where
  | join (left : List Nat) (marks : List (Nat × BitVec 16))
  | ringcpy (left : List Word) (eng : Nat)
  | cut
  | phw (ph : BitVec 12) (n : Word) (woke : Option Word)
  | spawnw (launch : Option Nat) (id : Nat)
  | ctxsave (cid : BitVec 12)
  deriving DecidableEq, Repr, Inhabited

/-- An issued copy word that has not retired: its ring slot, its number in `iss`, its coordinate and signal, the job with its source buffer
(R399), the granules or tiles already done, the absent tile that it waits for (R440), the tiles translated (R207), and the operations that must be
performed before its accesses (R228, R230). -/
structure CpyOp where
  slot : BitVec 16 := 0
  id : Nat := 0
  e : Word := 0
  sig : BitVec 8 := 0
  job : CpyJob := {}
  buf : List Byte := []
  k : Nat := 0
  done : Bool := false
  nres : Option Word := none
  runs : List TRun := []
  after : List Nat := []
  deriving DecidableEq, Repr, Inhabited

/-- A completion counter of the network engine (R452). -/
structure NCtr where
  value : Word := 0
  thresh : BitVec 48 := 0
  tok : BitVec 8 := 0
  tag : Word := 0
  deriving DecidableEq, Repr, Inhabited

/-- An issued MARK or NCTL.flush that waits to retire (R175, R454): its engine, ring slot, number in `iss`, coordinate and signal. -/
structure WaitOp where
  eng : Eng := .acc
  flush : Bool := false
  slot : BitVec 16 := 0
  id : Nat := 0
  e : Word := 0
  sig : BitVec 8 := 0
  deriving DecidableEq, Repr, Inhabited

/-- A member of a phaser: a tile task, with the counter at which its registration took effect (R112). -/
structure PMember where
  launch : Nat := 0
  team : Nat := 0
  t : Nat := 0
  core : Nat := 0
  mode : BitVec 2 := 0
  ms : Word := 0
  mw : Word := 0
  since : Word := 0
  drop : Bool := false
  deriving DecidableEq, Repr, Inhabited

/-- What a stop needs to take back the end of a tile task above the horizon (R106, R265): the memberships that it dropped, by phaser,
and the lock ranges that it released. -/
structure EndSnap where
  members : List (Nat × PMember) := []
  locks : List LockRange := []
  deriving DecidableEq, Repr, Inhabited

/-- What a fence, or an acquire that awaits its result, has left to wait for (R228, R230): its coordinate, the number by which token edges and JOIN
carry it, and the operations that must be performed before any access ordered after it. -/
structure Bar where
  e : Word := 0
  id : Nat := 0
  ids : List Nat := []
  deriving DecidableEq, Repr, Inhabited

/-- A FREL or FAR (R230): its coordinate and scope, and the operations that every later store and atomic of the control core waits for. -/
structure FRel where
  e : Word := 0
  scope : BitVec 3 := 0
  ids : List Nat := []
  deriving DecidableEq, Repr, Inhabited

/-- One core (R164 to R192), or an edge die's supervisor core. `turn` is the model's own: one past the cycle in which an engine last tested its next
word, and how far the order of R173 has come in that cycle. -/
structure Core where
  task : Option Task := none
  pc : Word := 0
  s : SMap Word := []
  deadS : SMap (Option Word) := []
  cc : EngSt := {}
  acc : EngSt := {}
  exe : EngSt := {}
  mtx : EngSt := {}
  cpy : EngSt := {}
  net : EngSt := {}
  fetched : List (Word × Word) := []
  ccWait : Option CCWait := none
  savedWait : Option (CCWait × Word) := none
  resumeAt : Option Word := none
  spad : SMap Byte := []
  pendBits : SMap Nat := []
  tok : SMap Tok := []
  wset : SMap Word := []
  g : SMap Word := []
  deadG : SMap (Option Word) := []
  gAvail : SMap Nat := []
  gWait : SMap Bool := []
  landQ : List Landing := []
  accFlight : List Flight := []
  exeAvail : SMap Nat := []
  v : SMap Vec := []
  deadV : SMap (Option Word) := []
  p : SMap Pred := []
  q : SMap QReg := []
  deadQ : SMap (Option Word) := []
  qtemp : BitVec 32 := 0
  seed : Word := 0
  lastPop : SMap (Pred × BitVec 5) := []
  dq : SMap (List QEnt) := []
  sq : SMap (List QEnt) := []
  boqA : List OBit := []
  boqX : List OBit := []
  exeQ : List ExeOp := []
  defHead : Nat := 0
  defTail : Nat := 0
  cbs : SMap (Option Cb) := []
  peel : List Peel := []
  hold : List Held := []
  mx : Mtx := {}
  cslot : SMap Word := []
  cpyQ : List CpyOp := []
  waitQ : List WaitOp := []
  nctr : SMap NCtr := []
  flags : BitVec 8 := 0
  tvec : Word := 0
  tcause : Word := 0
  tepc : Word := 0
  tval : Word := 0
  trapE : Word := 0
  trapBefore : Bool := true
  trapSlot : BitVec 16 := 0
  trapLast : Word := 0
  dbgReg : BitVec 3 := 0
  hangt : Nat := 30
  idle : Nat := 0
  hung : Bool := false
  cutw : Word := BitVec.allOnes 64
  stopc : SMap Word := []
  capture : Option Nat := none
  halted : Bool := false
  icache : SMap ICLine := []
  icOwner : BitVec 12 × BitVec 10 := (0, 0)
  locks : List LockRange := []
  ttc : List TTCEnt := []
  phOwn : SMap (BitVec 12) := []
  frels : List FRel := []
  bars : List Bar := []
  sPend : SMap Nat := []
  claims : SMap (List Word) := []
  spawnSlot : Option Held := none
  endSnap : Option EndSnap := none
  turn : Nat × Nat := (0, 0)
  deriving DecidableEq, Repr, Inhabited

/-! ### Contexts, launches, phasers, partitions -/

/-- Table 6.1. -/
inductive CtxState where
  | free | live | stopped | saved | reclaim
  deriving DecidableEq, Repr, Inhabited

/-- Who asked for a stop (R261, Table 11.8). -/
structure StopReq where
  srck : BitVec 3 := 0
  core : BitVec 8 := 0
  queue : Nat := 0
  deriving DecidableEq, Repr, Inhabited

/-- A pending stop (R261, R262): its coordinate; once accepted, the cut and whether it is LATE; and whether cores have begun
to squash (step 3 of Table 11.6). -/
structure Stop where
  k : Word := 0
  accepted : Bool := false
  cut : Word := 0
  late : Bool := false
  reqs : List StopReq := []
  squashed : Bool := false
  byCmd : Bool := false
  deriving DecidableEq, Repr, Inhabited

/-- Table 5.2, launches. -/
inductive LState where
  | ready | running | draining | complete
  deriving DecidableEq, Repr, Inhabited

/-- Table 5.2, teams; a team in transit between dies (R122) is `transit`. -/
inductive TState where
  | waiting | placed | running | stopped | ended | transit
  deriving DecidableEq, Repr, Inhabited

/-- A team that has left the launch's first waiting state, or has moved class, or has migrated (R121, R122, R126); a saved one with the state of its tile
tasks, each with its number and the core that it held. -/
structure Team where
  idx : Nat := 0
  st : TState := .waiting
  die : Nat := 0
  cores : List Nat := []
  ended : List Nat := []
  cls : BitVec 2 := 0
  since : Word := 0
  saved : List (Nat × Nat × Core) := []
  pin : Bool := false
  reserved : Option Nat := none
  deriving DecidableEq, Repr, Inhabited

/-- A launch (R103). Teams with an index at or above `next` have not been touched and are WAITING. -/
structure Launch where
  cid : BitVec 12 := 0
  inc : BitVec 10 := 0
  id : BitVec 32 := 0
  addr : Word := 0
  desc : LDesc := {}
  base : Word := 0
  st : LState := .ready
  next : Nat := 0
  teams : List Team := []
  die : Nat := 0
  since : Word := 0
  parent : Option Nat := none
  child : Bool := false
  spawnId : Nat := 0
  superPh : Option (BitVec 12) := none
  queue : Nat := 0
  stag : BitVec 32 := 0
  doneev : Bool := false
  late : Bool := false
  deriving DecidableEq, Repr, Inhabited

/-- An entry of a child queue (R119, R120): the SPAWN that made it, its die and its parent launch. The ring in memory holds the
descriptor's address and the coordinate. -/
structure CqEnt where
  held : Held := {}
  die : Nat := 0
  parent : Nat := 0
  deriving DecidableEq, Repr, Inhabited

/-- An arrival that a stop may undo, or a change of pending bytes alone: bytes added by PHEXP, or taken off by a completion (`charge`) (R116). -/
structure PArr where
  phase : Word := 0
  core : Nat := 0
  crd : Word := 0
  bytes : BitVec 32 := 0
  charge : Bool := false
  arrives : Bool := true
  after : List Nat := []
  deriving DecidableEq, Repr, Inhabited

/-- A phaser (R111 to R116). Its counter is held in the 64 bits in which PHRD answers it (DESIGN CHOICE, log entry 127: no width is given). -/
structure Phaser where
  owner : Option (BitVec 12 × BitVec 10) := none
  counter : Word := 0
  pending : BitVec 32 := 0
  members : List PMember := []
  regs : List PMember := []
  hist : List PArr := []
  relCrd : SMap Word := []
  super : Bool := false
  deriving DecidableEq, Repr, Inhabited

/-- A context image (Table 6.7), as its bytes in memory hold it; launches are named by their place among the records. -/
structure Image where
  cid : BitVec 12 := 0
  inc : BitVec 10 := 0
  pid : BitVec 7 := 0
  cuteff : Word := 0
  running : Bool := false
  valid : Bool := true
  flags : BitVec 8 := 0
  launchCtr : BitVec 32 := 0
  epoch : BitVec 24 := 0
  launches : List Launch := []
  phasers : List (Nat × Phaser) := []
  cqHead : Nat := 0
  cqTail : Nat := 0
  cq : List CqEnt := []
  deriving DecidableEq, Repr, Inhabited

/-- A context (Table 6.1, Table 6.2, R130 to R137). -/
structure Ctx where
  st : CtxState := .free
  used : Bool := false
  inc : BitVec 10 := 0
  pid : BitVec 7 := 0
  proc : BitVec 32 := 0
  wins : List (Word × Word) := []
  ttab : Word := 0
  rca : Word := 0
  rcn : BitVec 32 := 0
  cqn : Nat := 0
  cqb : Word := 0
  cqHead : Nat := 0
  cqTail : Nat := 0
  cq : List CqEnt := []
  poolt : Word := 0
  img : Word := 0
  launchCtr : BitVec 32 := 0
  epoch : BitVec 24 := 0
  horiz : Word := 0
  cuteff : Word := BitVec.allOnes 64
  stop : Option Stop := none
  result : BitVec 3 := 0
  lastReq : StopReq := {}
  bySlice : Bool := false
  deriving DecidableEq, Repr, Inhabited

/-- A pending reclaim fence (R136): the incarnation and the GTS at which it was left; `asked` once RCF has named it. -/
structure Fence where
  cid : BitVec 12 := 0
  inc : BitVec 10 := 0
  left : Word := 0
  asked : Bool := false
  done : Bool := false
  deriving DecidableEq, Repr, Inhabited

/-- A queued command list (R83). -/
structure QList where
  addr : Word := 0
  stag : BitVec 32 := 0
  doneev : Bool := false
  cid : BitVec 12 := 0
  inc : BitVec 10 := 0
  deriving DecidableEq, Repr, Inhabited

/-- What an interpreter waits for (R88, R89); a WAITV keeps when it last read its word, and what it read. -/
inductive IWait where
  | none
  | waitv (addr : Word) (cond : BitVec 3) (v mask : Word) (deadline : Option Word) (lastRead seen : Word)
  | fence (launches : List Nat)
  | cut
  deriving DecidableEq, Repr, Inhabited

/-- A running command list (R87 to R92), with the entry that it waits in. -/
structure Interp where
  lst : QList := {}
  pc : Word := 0
  entry : BitVec 512 := 0
  stack : List Word := []
  wait : IWait := .none
  deriving DecidableEq, Repr, Inhabited

/-- A command queue (R82 to R84). -/
structure Queue where
  en : Bool := false
  pend : List QList := []
  full : Bool := false
  cur : Option Interp := none
  closing : Bool := false
  deriving DecidableEq, Repr, Inhabited

/-- A partition (Table 6.6, Table 14.18, R140 to R143). -/
structure Part where
  used : Bool := false
  maxctx : Nat := 0
  job : BitVec 24 := 0
  ways : BitVec 16 := 0
  podx : BitVec 32 := 0
  pods : BitVec 32 := 0
  hbm : BitVec 256 := 0
  lp : BitVec 32 := 0
  netsh : Nat := 0
  hangt : BitVec 6 := 0
  budget : BitVec 32 := 0
  nextBudget : Option (BitVec 32) := none
  vault : BitVec 256 := 0
  fbuf : Word := 0
  grant : Word := 0
  segn : Nat := 0
  segbase : Word := 0
  deficit : Int := 0
  q : SMap Queue := []
  evaddr : BitVec 128 := 0
  ejob : BitVec 24 := 0
  eproc : BitVec 32 := 0
  held : List (FRec × Nat × Bool) := []
  deriving DecidableEq, Repr, Inhabited

/-- The slice table of a pod set (R144). -/
structure SliceTab where
  pods : BitVec 32 := 0
  ents : List (BitVec 7 × Nat) := []
  cur : Nat := 0
  started : Word := 0
  deriving DecidableEq, Repr, Inhabited

/-- A page-request record (Table 9.10). -/
structure PgRec where
  cid : BitVec 12 := 0
  inc : BitVec 10 := 0
  tid : BitVec 10 := 0
  tile : BitVec 24 := 0
  crd : Word := 0
  gts : Word := 0
  src : BitVec 20 := 0
  deriving DecidableEq, Repr, Inhabited

/-- A copy on write, shadow fill or migration under way (R214, R216, R235): the pools of the old and the new frame, and for a fill the phase and the
epoch of the access that began it (R234). -/
structure TileOp where
  kind : Nat := 0
  core : Nat := 0
  cid : BitVec 12 := 0
  inc : BitVec 10 := 0
  tid : BitVec 10 := 0
  tile : Nat := 0
  entAddr : Word := 0
  ent : BitVec 128 := 0
  frame : BitVec 36 := 0
  idx : BitVec 24 := 0
  tier : BitVec 2 := 0
  run : Nat := 0
  pool : BitVec 8 := 0
  toPool : BitVec 8 := 0
  epoch : BitVec 24 := 0
  e : Word := 0
  phase : BitVec 16 := 0
  deriving DecidableEq, Repr, Inhabited

/-! ### Mesh, fabric, Ultra Ethernet, host -/

/-- The members of an atomic in the mesh (R239): one core's held atomic, or two requests combined, the first of which had operand `x`. -/
inductive Comb where
  | one (h : Held)
  | two (a b : Comb) (x : Word)
  deriving DecidableEq, Repr, Inhabited

/-- An atomic on its way to its home, or `done` with its reply on the way back (R238, R239). `x` is its operand, `y` the second
operand of ACAS, `ks` the bytes it acts on, `val` the value that comes back; `at_` is the router in whose wait buffer it stands, and `came` the
cycle in which it came there. -/
structure AReq where
  op : AtomOp := .add
  addr : Word := 0
  x : Word := 0
  y : Word := 0
  nc : Bool := false
  ks : List Nat := []
  tree : Comb := .one {}
  done : Bool := false
  poison : Bool := false
  val : Word := 0
  at_ : Option Nat := none
  came : Nat := 0
  deriving DecidableEq, Repr, Inhabited

/-- A fabric port (R78): FXCTL, the active and the retraining wavelengths with the bit errors of their last slots (R63), the next LSN, the
flits sent in this slot, the relayed ones among them, and those kept for replay (R59, R60, R62), and the counters at indices 3 to 12. -/
structure Port where
  ctl : Word := 0xFF5
  act : BitVec 8 := 0
  trn : BitVec 8 := 0
  errs : SMap (List Nat) := []
  trnErrs : SMap (List Nat) := []
  lsn : BitVec 24 := 0
  used : Nat := 0
  relayed : Nat := 0
  replay : List LFlit := []
  corr : Word := 0
  unc : Word := 0
  repl : Word := 0
  wdr : Word := 0
  rtry : Word := 0
  dup : Word := 0
  stale : Word := 0
  orph : Word := 0
  comb : Word := 0
  bad : Word := 0
  deriving DecidableEq, Repr, Inhabited

/-- An outstanding remote request at its issuer (R68 to R70): the GTS of its latest transmission and of the later of its first
transmission and its latest BUSY, whether it has been transmitted at all (until then both are the GTS at which it was queued), whether
its latest response was a BUSY, the path last planned: its port and relay, and whether the L2 will keep the line that it fetches (R242). -/
structure OReq where
  pkt : Pkt := {}
  held : Held := {}
  sent : Word := 0
  start : Word := 0
  tx : Bool := false
  busy : Bool := false
  path : Option (Nat × Option (BitVec 8)) := none
  keep : Bool := false
  deriving DecidableEq, Repr, Inhabited

/-- The deduplication window of one source and incarnation (R68): one past the highest SEQ seen, and the SEQs marked. -/
structure Dedup where
  src : BitVec 8 := 0
  cid : BitVec 12 := 0
  inc : BitVec 10 := 0
  top : BitVec 32 := 0
  marks : List (BitVec 32) := []
  deriving DecidableEq, Repr, Inhabited

/-- An entry of the response cache (R68): whose request it answers, the value and status, and when it was written. -/
structure Cached where
  src : BitVec 8 := 0
  cid : BitVec 12 := 0
  inc : BitVec 10 := 0
  seq : BitVec 32 := 0
  resp : Pkt := {}
  made : Word := 0
  deriving DecidableEq, Repr, Inhabited

/-- A packet that waits for its slot at an egress queue, or at a relay for its second hop (R58, R59, R74): its port, the index of that slot,
when it began to wait, whether it is a retry, whether it is on the first hop of two, whether the wait buffer had room for it (R72), and
whether it is relayed here, with the port that received it. -/
structure Tx where
  pkt : Pkt := {}
  port : Nat := 0
  slot : Nat := 0
  since : Nat := 0
  retry : Bool := false
  hop : Bool := false
  buf : Bool := false
  relayed : Bool := false
  from_ : Nat := 0
  deriving DecidableEq, Repr, Inhabited

/-- A combined atomic in the wait buffer of an edge die (R72, R73): the tag under which it was sent, the packets that it combines in serial
order, and when it was made. -/
structure CombRec where
  tag : BitVec 16 := 0
  die : Nat := 0
  members : List Pkt := []
  made : Word := 0
  deriving DecidableEq, Repr, Inhabited

/-- A send, put or get of this device under way (R94, R95, R451): its kind (0, 2 or 3 as in `Act.net`), its descriptor, the bytes
sent, the packets acknowledged or counted, those placed and not yet counted, the timeouts of each packet without a response, and one past the
port by which each packet whose answer is due left. -/
structure UeOp where
  held : Held := {}
  kind : Nat := 0
  words : List Word := []
  data : List Byte := []
  acked : List Nat := []
  placed : List Nat := []
  timeouts : SMap Nat := []
  via : SMap Nat := []
  deriving DecidableEq, Repr, Inhabited

/-- A posted receive (R451): the message matched to it (sender, job, process, number and length), the byte ranges placed, how many
bytes placed are not yet counted, and whether it is complete. -/
structure Recv where
  held : Held := {}
  words : List Word := []
  msg : Option (UeAddr × Nat × Nat) := none
  got : List (Nat × Nat) := []
  due : Nat := 0
  done : Bool := false
  deriving DecidableEq, Repr, Inhabited

/-- An event record (Table 4.7). -/
structure Event where
  kind : BitVec 8 := 0
  cid : BitVec 12 := 0
  inc : BitVec 10 := 0
  gts : Word := 0
  queue : Nat := 0
  src : BitVec 20 := 0
  arg0 : Word := 0
  arg1 : Word := 0
  deriving DecidableEq, Repr, Inhabited

/-- What the device sends over Ultra Ethernet: events, answers to a host, the packets of an operation of the network engine (the operation, its
kind as in `Act.net`, offset, length, descriptor, bytes), and answers to arriving packets. -/
inductive UeMsg where
  | event (to_ : UeAddr) (e : Event)
  | suback (to_ : UeAddr) (status : BitVec 8) (stag : BitVec 32) (free : BitVec 8)
  | report (to_ : UeAddr) (bytes : List Byte)
  | rmaResp (to_ : UeAddr) (status : BitVec 8) (bytes : List Byte)
  | pkt (op kind off len : Nat) (words : List Word) (bytes : List Byte)
  | ack (to_ : UeAddr) (msg off : Nat)
  | nack (to_ : UeAddr) (msg off : Nat)
  | unsupported (to_ : UeAddr) (msg : Nat)
  | refuse (to_ : UeAddr)
  deriving DecidableEq, Repr, Inhabited

/-- A packet that waits to leave over Ultra Ethernet (R94): its destination, its port where that is fixed, and its message. -/
structure UeTx where
  to_ : BitVec 128 := 0
  fixed : Option Nat := none
  msg : UeMsg := .refuse {}
  deriving DecidableEq, Repr, Inhabited

/-- An Ultra Ethernet port (R35, R50, R94): its NSCC window and the bytes sent and not yet answered, the GTS from which EGRESS lets the next packet
leave, and the packets dropped there. -/
structure UePort where
  wnd : Nat := 1048576
  infl : Nat := 0
  freeAt : Nat := 0
  drops : Nat := 0
  deriving DecidableEq, Repr, Inhabited

/-- What the device sends to the outside world. -/
inductive Out where
  | ue (port : Nat) (m : UeMsg)
  | pkt (port : Nat) (p : Pkt) (line : List LFlit)
  | flit (port : Nat) (f : LFlit)
  | advert (port flits : Nat)
  | tsync (port : Nat) (f : LFlit)
  | waveCtl (port lam : Nat) (withdraw : Bool)
  | tap (v : Vec)
  | mgmt (step cause : Nat) (absent : BitVec 32)
  | linkNack (port : Nat) (lsn : BitVec 24)
  deriving DecidableEq, Repr, Inhabited

/-- A line in the L2 (R200, R201): its tag, which is the device of a remote line, the first-level partition number and the guest-physical line; the way
that it takes in its set; and the copy of a remote line (R242). A line of this device holds what memory holds. -/
structure L2Line where
  dev : Option (BitVec 8) := none
  pid : BitVec 4 := 0
  addr : Nat := 0
  way : Nat := 0
  data : BitVec 512 := 0
  deriving DecidableEq, Repr, Inhabited

/-! ### Power, boot, islands -/

/-- The power and boot states (R47 to R54). -/
inductive PState where
  | reset | running | recovery | lowest | frozen
  deriving DecidableEq, Repr, Inhabited

/-- An island (R38 to R42): operating point 0 to 4, or 5 for OFF. -/
structure Island where
  op : Nat := 0
  hold : Bool := false
  deriving DecidableEq, Repr, Inhabited

/-- What boot has latched from the straps and the configuration record (R45 to R50). -/
structure BootConf where
  bootsrc : Bool := false
  devnum : BitVec 8 := 0
  debugen : Bool := false
  egress : Nat := 0
  endpoints : List (BitVec 128 × BitVec 16) := []
  modpwr : Nat := 0
  lasermax : BitVec 8 := 0
  thermlim : Nat := 0
  dbg : Bool := false
  retain : Bool := false
  record : List Byte := []
  fwBytes : List Byte := []
  lpddr : BitVec 32 := 0
  seqFloor : BitVec 32 := 0
  xmssLeaf : Nat := 0
  failStep : Nat := 0
  failCause : Nat := 0
  dfbBase : Word := 0
  deriving DecidableEq, Repr, Inhabited

/-! ### Scheduling -/

/-- Who moves in a step: a core's engine, a core's fetch unit, a command-list interpreter, an event, or nobody. -/
inductive Who where
  | core (n : Nat) (e : Eng)
  | fetch (n : Nat)
  | list (pid q : Nat)
  | event (i : Instr)
  | idle
  deriving DecidableEq, Repr

/-- One scheduled step: how many core cycles and GTS units pass before it, and who moves. -/
structure Sched where
  dt : Nat := 1
  dg : Nat := 0
  who : Who := .idle
  deriving DecidableEq, Repr

/-- The machine. -/
structure State where
  cores : SMap Core := []
  ctxs : SMap Ctx := []
  parts : SMap Part := []
  launches : SMap (Option Launch) := []
  nextLaunch : Nat := 0
  phasers : SMap Phaser := []
  fences : List Fence := []
  slices : List SliceTab := []
  mem : List Host.Cell := []
  poison : SMap Bool := []
  l2 : List L2Line := []
  flying : List Held := []
  nextId : Nat := 1
  areqs : List AReq := []
  tileOps : List TileOp := []
  pgq : List PgRec := []
  pgdrop : Word := 0
  dorph : SMap Word := []
  rotLast : SMap Nat := []
  window : Word := 0
  wfe : BitVec 7 := 0
  devHeld : List (FRec × Nat × Bool) := []
  ports : SMap Port := []
  posTab : SMap Nat := []
  slotNo : Nat := 0
  slotAt : Word := 0
  tsok : Nat := 0
  tsLast : Nat := 0
  trim : Int := 0
  gtsFrac : Nat := 0
  root : Nat := 0
  adverts : SMap Nat := []
  seqs : SMap (BitVec 32) := []
  oreqs : List OReq := []
  dedup : List Dedup := []
  rcache : List Cached := []
  txq : List Tx := []
  relay : List Tx := []
  combs : List CombRec := []
  destSeen : List (BitVec 8 × BitVec 12 × BitVec 10 × BitVec 10 × Nat) := []
  ueOps : List UeOp := []
  recvs : List Recv := []
  uePorts : SMap UePort := []
  ueq : List UeTx := []
  out : List Out := []
  pstate : PState := .reset
  islands : SMap Island := []
  conf : BootConf := {}
  gts : Word := 0
  cycle : Nat := 0
  freeCtr : Nat := 0
  cur : Nat := 0
  curEng : Eng := .cc
  curQ : Nat × Nat := (0, 0)
  sched : List Sched := []
  deriving DecidableEq, Repr

/-- The canonical form of memory: addresses strictly rising, and no entry equal to 0, which an unlisted address reads as. -/
def Memory.wf (m : List Host.Cell) : Bool := SMap.wf 0 m

/-- The machine right after reset: every field at its reset value; the boot sequence has not run (R47). -/
def State.reset : State := {}

end Sys2Proof.Machine
end

