-- ==== Sys2Proof/Machine/Ops.lean ====
section
/-! DEFINITION. The named operations over memory, contexts, the peel log, tokens and faults that the meanings share; taking a
trap (R150) and returning from one (R151) are each one operation here. -/

namespace Sys2Proof.Machine

/-- What a step answers. -/
abbrev Result := Host.Outcome State Fault Refusal

/-! ### Parts of the state -/

/-- Core `n`: 0 to 255 (R36), 256 and 257 the supervisor cores of E0 and E1 (R37). -/
def State.core (s : State) (n : Nat) : Core := s.cores.get {} n
def State.setCore (s : State) (n : Nat) (c : Core) : State := { s with cores := s.cores.set {} n c }
def State.modCore (s : State) (n : Nat) (f : Core → Core) : State := s.setCore n (f (s.core n))
/-- The core whose engine moves in this step. -/
def State.me (s : State) : Core := s.core s.cur
/-- Context `cid`. -/
def State.ctx (s : State) (cid : BitVec 12) : Ctx := s.ctxs.get {} cid.toNat
def State.setCtx (s : State) (cid : BitVec 12) (c : Ctx) : State := { s with ctxs := s.ctxs.set {} cid.toNat c }
def State.modCtx (s : State) (cid : BitVec 12) (f : Ctx → Ctx) : State := s.setCtx cid (f (s.ctx cid))
/-- Partition `pid` (Table 6.5). -/
def State.part (s : State) (pid : BitVec 7) : Part := s.parts.get {} pid.toNat
def State.setPart (s : State) (pid : BitVec 7) (p : Part) : State := { s with parts := s.parts.set {} pid.toNat p }
def State.modPart (s : State) (pid : BitVec 7) (f : Part → Part) : State := s.setPart pid (f (s.part pid))
/-- A phaser by its device-wide number (R111). -/
def State.phaser (s : State) (n : BitVec 12) : Phaser := s.phasers.get {} n.toNat
def State.setPhaser (s : State) (n : BitVec 12) (p : Phaser) : State := { s with phasers := s.phasers.set {} n.toNat p }

/-- An engine of a core (Table 7.2). -/
def Core.eng (c : Core) : Eng → EngSt
  | .cc => c.cc | .acc => c.acc | .exe => c.exe | .mtx => c.mtx | .cpy => c.cpy | .net => c.net
def Core.setEng (c : Core) (e : Eng) (x : EngSt) : Core :=
  match e with
  | .cc => { c with cc := x } | .acc => { c with acc := x } | .exe => { c with exe := x }
  | .mtx => { c with mtx := x } | .cpy => { c with cpy := x } | .net => { c with net := x }
def Core.modEng (c : Core) (e : Eng) (f : EngSt → EngSt) : Core := c.setEng e (f (c.eng e))
/-- Engine `n` of Table 7.2; 0 and the reserved numbers give the control core. -/
def engOfNum (n : Nat) : Eng :=
  if n == 1 then .acc else if n == 2 then .exe else if n == 3 then .mtx else if n == 4 then .cpy else if n == 5 then .net else .cc

/-- Whether a core number is a supervisor core (R37). -/
def isSup (n : Nat) : Bool := 256 ≤ n
/-- The E0 supervisor core, the only one that runs opcodes 0x28 to 0x2F (R37). -/
def e0 : Nat := 256
/-- The number by which an agent of this device is a source: device, then agent (R73, R93). -/
def State.src (s : State) (agent : Nat) : BitVec 20 := s.conf.devnum ++ BitVec.ofNat 12 agent
/-- The context of a core: 0 on a supervisor core (R323) or an idle core. -/
def Core.cid (c : Core) : BitVec 12 := (c.task.map (·.cid)).getD 0
def Core.inc (c : Core) : BitVec 10 := (c.task.map (·.inc)).getD 0
/-- Whether the incarnation of a request is live on this device (R131). -/
def State.live (s : State) (cid : BitVec 12) (inc : BitVec 10) : Bool :=
  let c := s.ctx cid
  cid == 0 || ((c.st == .live || c.st == .stopped || c.st == .saved) && c.inc == inc)

/-! ### Dies and islands (R33 to R39, R200) -/

/-- The die of an agent's core: compute dies 0 to 3, then E0 and E1 (R36, R37). -/
def coreDie (n : Nat) : Nat := if isSup n then n - 252 else n / 64
/-- The dies that memory and ports are attached to (Table 2.2): vaults, HBM4 channels, LPDDR-6 channels; Ultra Ethernet and fabric ports. -/
def vaultDie (v : Nat) : Nat := v / 8
def hbmDie (ch : Nat) : Nat := ch / 64
def lpddrDie (ch : Nat) : Nat := ch / 8
def ueDie (p : Nat) : Nat := 4 + p / 2
/-- The edge die of a fabric port, 0 or 1. -/
def portDie (p : Nat) : Nat := p / 8 % 2
def fabricDie (p : Nat) : Nat := 4 + portDie p
/-- The dies that traffic enters on its way from one die to another, the last one included (R34): between compute dies horizontally first, then
vertically; an edge die enters, and is left through, the lower-numbered die that it touches where it does not touch the other. -/
def dieRoute (a b : Nat) : List Nat :=
  let across (x y : Nat) : List Nat := (if x % 2 == y % 2 then [] else [x / 2 * 2 + y % 2]) ++ (if x / 2 == y / 2 then [] else [y])
  let door (e c : Nat) : Nat := if (e - 4) == c / 2 then c else 2 * (e - 4)
  if a == b then []
  else if 4 ≤ a && 4 ≤ b then 2 * (a - 4) :: (across (2 * (a - 4)) (2 * (b - 4)) ++ [b])
  else if 4 ≤ a then door a b :: across (door a b) b
  else if 4 ≤ b then across a (door b a) ++ [b]
  else across a b
/-- The boundaries between two dies. -/
def dieDist (a b : Nat) : Nat := (dieRoute a b).length
/-- The home slice of a guest-physical line (R200), numbered as R36 numbers cores. -/
def homeSlice (gpa : Nat) : Nat :=
  let l := gpa / 64
  (l ^^^ l / 2 ^ 8 ^^^ l / 2 ^ 16 ^^^ l / 2 ^ 24 ^^^ l / 2 ^ 32) % 256
/-- Table 2.3: the island of a core, of a vault, of the uncore quadrant of a pod (0 to 31), and of a unit of an edge die. -/
def edgeIsland (e j : Nat) : Nat := 112 + 8 * e + j
def coreIsland (n : Nat) : Nat := if isSup n then edgeIsland (n - 256) 0 else 28 * (n / 64) + n % 64 / 4
def vaultIsland (v : Nat) : Nat := 28 * vaultDie v + 16 + v % 8
def quadIsland (pod : Nat) : Nat := 28 * (pod / 8) + 24 + pod % 8 / 2
def portIsland (p : Nat) : Nat := edgeIsland (portDie p) (3 + p % 8 / 2)
def uePortIsland (p : Nat) : Nat := edgeIsland (p / 2) 2
/-- An island by its number. -/
def State.island (s : State) (i : Nat) : Island := s.islands.get {} i
def State.setIsland (s : State) (i : Nat) (x : Island) : State := { s with islands := s.islands.set {} i x }
/-- Whether an island's clock runs: it is neither held nor gated (R39, R42). -/
def State.islandOn (s : State) (i : Nat) : Bool := let x := s.island i; !x.hold && x.op != 5
/-- Whether a core's engines have a clock, and whether its pod's mesh router has one. -/
def State.coreOn (s : State) (n : Nat) : Bool := s.islandOn (coreIsland n)
def State.routerOn (s : State) (n : Nat) : Bool := isSup n || s.islandOn (quadIsland (n / 8))
/-- Whether the sync engine and the launch processor of a compute die have a clock. -/
def State.syncOn (s : State) (die : Nat) : Bool := s.islandOn (quadIsland (8 * die))

/-! ### Coordinates (R246 to R249) -/

/-- The launches of a context that are not COMPLETE. -/
def State.openLaunches (s : State) (cid : BitVec 12) : List Launch :=
  s.launches.filterMap fun (_, l) => l.bind fun l =>
    if l.cid == cid && l.inc == (s.ctx cid).inc && l.st != .complete then some l else none

/-- Widths of levels 0 to 5 (R15, R246). -/
def widths (cw : List Nat) : List Nat := 16 :: cw
/-- The lowest bit of level `l`. -/
def lvlLow (cw : List Nat) (l : Nat) : Nat := 64 - ((widths cw).take (l + 1)).sum
def lvlWidth (cw : List Nat) (l : Nat) : Nat := (widths cw).getD l 0
/-- Level `l` of a coordinate. -/
def lvlGet (cw : List Nat) (l : Nat) (c : Word) : Nat := (c.toNat / 2 ^ lvlLow cw l) % 2 ^ lvlWidth cw l
/-- A coordinate with level `l` set and the levels below it zero (Table 11.2). -/
def lvlSet (cw : List Nat) (l : Nat) (c : Word) (v : Nat) : Word :=
  let low := lvlLow cw l
  let top := low + lvlWidth cw l
  BitVec.ofNat 64 (c.toNat / 2 ^ top * 2 ^ top + v * 2 ^ low)
/-- The lowest bit of the lowest level of non-zero width. -/
def lastLevelBit (cw : List Nat) : Nat := 64 - (widths cw).sum
/-- A bit below the last level is set (Table 11.2). -/
def belowLast (cw : List Nat) (c : Word) : Bool := c.toNat % 2 ^ lastLevelBit cw != 0
/-- NEXT of R247. -/
def State.nextCrd (s : State) (cid : BitVec 12) (c : Word) : Word :=
  let bs := (s.openLaunches cid).map fun l => lastLevelBit l.desc.cw
  let b := bs.foldl Nat.min 48
  if c == BitVec.allOnes 64 then c else c + BitVec.ofNat 64 (2 ^ b)

def maxW (a b : Word) : Word := if a.ult b then b else a
def minW (a b : Word) : Word := if a.ult b then a else b

/-- The published horizon that a core's engines act on (R253); a supervisor core has none, and nothing of it lies above (R323). -/
def State.horizonOf (s : State) (n : Nat) : Word :=
  if isSup n then BitVec.allOnes 64 else (s.ctx (s.core n).cid).horiz

/-- The cut of an accepted pending stop of a core's context (R262). -/
def State.cutOf (s : State) (n : Nat) : Option Word :=
  if isSup n then none else
  (s.ctx (s.core n).cid).stop.bind fun st => if st.accepted then some st.cut else none
/-- Whether a stop at or below a coordinate is pending on a core's context (R251, R254, R259). -/
def State.stopAtOrBelow (s : State) (n : Nat) (e : Word) : Bool :=
  match s.cutOf n with
  | some c => c.ule e
  | none => false

/-! ### Bytes of memory (R7, R193 to R199) -/

/-- The key of a byte of device memory: kind 0 vault, 1 HBM, 2 LPDDR-6, 3 supervisor memory; unit; offset. -/
def memKey (kind unit off : Nat) : Nat := (kind * 256 + unit) * 2 ^ 40 + off
/-- The kind and the unit of memory that a key lies in. -/
def keyKind (k : Nat) : Nat := k / 2 ^ 48
def keyUnit (k : Nat) : Nat := k / 2 ^ 40 % 256
/-- The die that a byte of memory is attached to (Table 2.2); supervisor memory belongs to E0. -/
def keyDie (k : Nat) : Nat :=
  if keyKind k == 0 then vaultDie (keyUnit k) else if keyKind k == 1 then hbmDie (keyUnit k) else if keyKind k == 2 then lpddrDie (keyUnit k) else 4
/-- The byte at a key; a byte that nothing has written reads as 0. -/
def State.byte (s : State) (k : Nat) : Byte := SMap.get 0 s.mem k
def State.setByte (s : State) (k : Nat) (v : Byte) : State := { s with mem := SMap.set 0 s.mem k v }
/-- Bytes at consecutive keys. -/
def State.bytesAt (s : State) (k : Nat) : Nat → List Byte
  | 0 => []
  | n + 1 => s.byte k :: s.bytesAt (k + 1) n
/-- Writes bytes at consecutive keys. -/
def State.putBytes (s : State) (k : Nat) : List Byte → State
  | [] => s
  | b :: t => (s.setByte k b).putBytes (k + 1) t
/-- Writes bytes at named keys. -/
def State.putCells (s : State) : List (Nat × Byte) → State
  | [] => s
  | (k, b) :: t => (s.setByte k b).putCells t
/-- A little-endian number at a key (R7). -/
def State.numAt (s : State) (k n : Nat) : Nat := leNat (s.bytesAt k n)
def State.putNum (s : State) (k n v : Nat) : State := s.putBytes k (leBytes v n)

/-- The key of a line: poison is held by line (R149). -/
def lineOf (k : Nat) : Nat := k / 64
def State.poisoned (s : State) (k : Nat) : Bool := s.poison.get false (lineOf k)
def State.anyPoison (s : State) (ks : List Nat) : Bool := ks.any s.poisoned

/-- The members of a channel set in ascending order (R198). -/
def channels {w : Nat} (b : BitVec w) : List Nat := (List.range w).filter fun i => b.getLsbD i

/-- Segment-table entry `seg` of a partition (Table 9.3); it lies in supervisor memory (R197). -/
def State.segEntry (s : State) (p : Part) (seg : Nat) : Word := BitVec.ofNat 64 (s.numAt (memKey 3 0 (p.segbase.toNat + 8 * seg)) 8)

/-- The second-level partitions of a first-level one. -/
def State.kidParts (s : State) (pid : BitVec 7) : List Part :=
  s.parts.filterMap fun (k, c) => if c.used && pid.toNat % 8 == 0 && k / 8 == pid.toNat / 8 && k != pid.toNat then some c else none
/-- What a partition may use: its descriptor's resources without those of its children (R139), and of its LPDDR-6 channels the populated ones. -/
def State.own (s : State) (pid : BitVec 7) : Part :=
  let p := (s.kidParts pid).foldl (fun (p : Part) c => { p with podx := p.podx &&& ~~~(c.podx ||| c.pods), pods := p.pods &&& ~~~c.podx, hbm := p.hbm &&& ~~~c.hbm,
                                                                lp := p.lp &&& ~~~c.lp, ways := p.ways &&& ~~~c.ways, vault := p.vault - c.vault }) (s.part pid)
  { p with lp := p.lp &&& s.conf.lpddr }
/-- MiB in vault `v`. -/
def Part.vaultMiB (p : Part) (v : Nat) : Nat := (p.vault.extractLsb' (8 * v) 8).toNat
/-- The bytes that a partition holds of a kind: vault, HBM (1.5 GB a channel), LPDDR-6 (32 GiB a channel). -/
def Part.kindBytes (p : Part) (kind unit : Nat) : Nat :=
  if kind == 0 then p.vaultMiB unit * 2 ^ 20
  else if kind == 1 then (channels p.hbm).length * 1500000000
  else if kind == 2 then (channels p.lp).length * 2 ^ 35
  else 0
/-- Where a valid segment entry places offset `low` of its segment (R198); none outside the partition's share (R199). -/
def segPlace (pid : BitVec 7) (p : Part) (ent : Word) (low : Nat) : Option Nat :=
  let a := (ent.extractLsb' 16 24).toNat * 2 ^ 21 + low
  let kind := (ent.extractLsb' 1 2).toNat
  let unit := (ent.extractLsb' 4 5).toNat
  let inter (cs : List Nat) (k : Nat) : Option Nat :=
    if cs.length == 0 then none else
    some (memKey k (cs.getD (a / 1024 % cs.length) 0) (a / 1024 / cs.length * 1024 + a % 1024))
  if !ent.getLsbD 0 || p.kindBytes kind unit ≤ a then none else
  if kind == 0 then some (memKey 0 unit (pid.toNat * 2 ^ 32 + a))
  else if kind == 1 then inter (channels p.hbm) 1
  else if kind == 2 then inter (channels p.lp) 2
  else none

/-- Stage two: a guest-physical byte of a partition (R197 to R199). -/
def State.stage2 (s : State) (pid : BitVec 7) (gpa : Nat) : Option Nat :=
  let p := s.own pid
  let seg := gpa / 2 ^ 21
  if gpa < 2 ^ 48 && seg < p.segn then segPlace pid p (s.segEntry p seg) (gpa % 2 ^ 21) else none
/-- Stage two of `n` consecutive bytes. -/
def State.stage2s (s : State) (pid : BitVec 7) (gpa : Nat) : Nat → Option (List Nat)
  | 0 => some []
  | n + 1 => do
    let k ← s.stage2 pid gpa
    let t ← s.stage2s pid (gpa + 1) n
    pure (k :: t)

/-! ### The L2 (R200 to R202, R222, R242) -/

/-- The pod whose mesh router is the stop of a byte's home agent (R222): its vault's; that of its line's home slice; and for a partition that
allocates nowhere that of its channel's controller. Supervisor memory has none. -/
def State.homePod (s : State) (pid : BitVec 7) (gpa k : Nat) : Option Nat :=
  let slice := (s.own pid).ways != 0
  if keyKind k == 0 then some (keyUnit k)
  else if keyKind k == 1 then some (if slice then homeSlice gpa / 8 else 8 * hbmDie (keyUnit k) + keyUnit k % 64 / 8)
  else if keyKind k == 2 then some (if slice then homeSlice gpa / 8 else 8 * lpddrDie (keyUnit k) + keyUnit k % 8)
  else none
/-- The tag's partition number: that of the first level (R200). -/
def pidTag (pid : BitVec 7) : BitVec 4 := pid.extractLsb' 3 4
def L2Line.has (l : L2Line) (dev : Option (BitVec 8)) (pid : BitVec 7) (gpa : Nat) : Bool := l.dev == dev && l.pid == pidTag pid && l.addr == gpa / 64
/-- A line that the L2 holds under a tag, whoever's ways it stands in (R201). -/
def State.l2Find (s : State) (dev : Option (BitVec 8)) (pid : BitVec 7) (gpa : Nat) : Option L2Line := s.l2.find? fun l => l.has dev pid gpa
/-- A hit refreshes a line's age: the list is in the order of use, the latest first (R201). -/
def State.l2Hit (s : State) (l : L2Line) : State := { s with l2 := l :: s.l2.erase l }
/-- Whether two lines stand in one set: of one slice, with one index. -/
def l2Same (a b : Nat) : Bool := homeSlice (64 * a) == homeSlice (64 * b) && Config.l2Set a % 512 == Config.l2Set b % 512
/-- Allocates a line in the ways of its partition alone, in place of the least recently used of them where none is empty; a partition with none
allocates nowhere (R201). -/
def State.l2Put (s : State) (pid : BitVec 7) (l : L2Line) : State :=
  let ways := channels (s.own pid).ways
  match ways.head? with
  | none => s
  | some w0 =>
    let set := s.l2.filter fun x => l2Same x.addr l.addr
    match ways.find? fun w => !(set.any fun x => x.way == w) with
    | some w => { s with l2 := { l with way := w } :: s.l2 }
    | none =>
      match set.reverse.find? fun x => ways.contains x.way with
      | some old => { s with l2 := { l with way := old.way } :: s.l2.erase old }
      | none => { s with l2 := { l with way := w0 } :: s.l2 }
/-- An access of this device's memory meets the L2 with the line of each byte that is HBM or LPDDR-6; a supervisor core's never allocates (R200,
R201). -/
def State.l2See (s : State) (pid : BitVec 7) (alloc : Bool) : List (Nat × Nat) → State
  | [] => s
  | (gpa, k) :: t =>
    (if keyKind k != 1 && keyKind k != 2 then s else
     match s.l2Find none pid gpa with
     | some l => s.l2Hit l
     | none => if alloc then s.l2Put pid { pid := pidTag pid, addr := gpa / 64 } else s).l2See pid alloc t
/-- The partition and the guest-physical address that a raw access of a core names (R143, R194). -/
def State.rawGpa (s : State) (n : Nat) (addr : Word) : BitVec 7 × Nat :=
  if isSup n then (addr.extractLsb' 40 7, addr.toNat % 2 ^ 40) else ((s.ctx (s.core n).cid).pid, addr.toNat)
/-- A raw access of bytes that lie in one line meets the L2. -/
def State.l2Raw (s : State) (n : Nat) (addr : Word) (ks : List Nat) : State :=
  let (pid, gpa) := s.rawGpa n addr
  s.l2See pid (!isSup n) ((ks.take 1).map fun k => (gpa, k))

/-- The permissions of R194. -/
inductive Perm where
  | r | w | x | atomic
  deriving DecidableEq, Repr

/-- Whether a window holds every byte of an access (R194, Table 6.2). -/
def winCovers (w : Word × Word) (a n : Nat) : Bool :=
  let lim := (w.2.extractLsb' 12 52).toNat
  lim != 0 && w.1.toNat % 4096 == 0 && w.1.toNat ≤ a && a + n ≤ w.1.toNat + 4096 * lim
def winGrants (w : Word × Word) (p : Perm) : Bool :=
  match p with
  | .r => w.2.getLsbD 0
  | .w => w.2.getLsbD 1
  | .x => w.2.getLsbD 2
  | .atomic => w.2.getLsbD 0 && w.2.getLsbD 1 && w.2.getLsbD 3
/-- The window of lowest index that covers the access decides (R194). -/
def winAllows (ws : List (Word × Word)) (a n : Nat) (p : Perm) : Bool :=
  match ws.find? fun w => winCovers w a n with
  | some w => winGrants w p
  | none => false

/-- The keys of a raw access of a context, or none where R194 or R199 refuses it. -/
def State.rawKeys (s : State) (cid : BitVec 12) (addr : Word) (n : Nat) (p : Perm) : Option (List Nat) :=
  let c := s.ctx cid
  if addr.toNat + n ≤ 2 ^ 48 && winAllows c.wins addr.toNat n p then s.stage2s c.pid addr.toNat n else none

/-- What a supervisor core's raw access reaches: its own memory below 2^40, or above that the memory of the partition named by
bits 46 to 40, through the partition's grant (R143). `inr true` is an access outside the grant (PRIV). The limit is taken as a length above
the base (DESIGN CHOICE: the rule says only "the limit"). -/
def State.supKeys (s : State) (addr : Word) (n : Nat) (p : Perm) : (List Nat) ⊕ Bool :=
  let a := addr.toNat
  if a + n ≤ 2 ^ 40 then .inl ((List.range n).map fun i => memKey 3 0 (a + i)) else
  let pid : BitVec 7 := addr.extractLsb' 40 7
  let pt := s.part pid
  let g := a % 2 ^ 40
  if 2 ^ 47 ≤ a || !pt.used then .inr false else
  match s.stage2s pid pt.grant.toNat 16 with
  | none => .inr true
  | some ks =>
    let v := leNat (ks.map s.byte)
    let w0 : Word := BitVec.ofNat 64 v
    let base := w0.toNat / 2 ^ 21 * 2 ^ 21
    let lim := (v / 2 ^ 64) / 2 ^ 21 * 2 ^ 21
    let perm := match p with | .r => w0.getLsbD 0 | .w => w0.getLsbD 1 | .atomic => w0.getLsbD 0 && w0.getLsbD 1 | .x => false
    if pt.grant != 0 && w0.getLsbD 2 && perm && base ≤ g && g + n ≤ base + lim then
      match s.stage2s pid g n with
      | some ks => .inl ks
      | none => .inr false
    else .inr true

/-- Fault codes (Table 7.1). -/
def fIllegal : BitVec 8 := 0x01
def fMismatch : BitVec 8 := 0x02
def fRegdead : BitVec 8 := 0x03
def fLatShort : BitVec 8 := 0x04
def fSpadRange : BitVec 8 := 0x05
def fSpadPending : BitVec 8 := 0x06
def fRawWindow : BitVec 8 := 0x07
def fTensorBounds : BitVec 8 := 0x08
def fNres : BitVec 8 := 0x09
def fTtNode : BitVec 8 := 0x0A
def fPhaseConflict : BitVec 8 := 0x0B
def fCowNoframe : BitVec 8 := 0x0C
def fDfqFull : BitVec 8 := 0x0D
def fTokOvf : BitVec 8 := 0x0E
def fAtomPoison : BitVec 8 := 0x0F
def fRemoteUncertain : BitVec 8 := 0x10
def fLinkDown : BitVec 8 := 0x11
def fProbDep : BitVec 8 := 0x12
def fEccUe : BitVec 8 := 0x13
def fPriv : BitVec 8 := 0x14
def fTrap : BitVec 8 := 0x15
def fBrk : BitVec 8 := 0x16
def fHang : BitVec 8 := 0x17
def fIncBusy : BitVec 8 := 0x18

/-- The keys of a raw access made by a core, or the fault that it raises (R143, R194, R199). -/
def State.coreKeys (s : State) (n : Nat) (addr : Word) (len : Nat) (p : Perm) : (List Nat) ⊕ BitVec 8 :=
  if isSup n then
    match s.supKeys addr len p with
    | .inl ks => .inl ks
    | .inr true => .inr fPriv
    | .inr false => .inr fRawWindow
  else
    match s.rawKeys (s.core n).cid addr len p with
    | some ks => .inl ks
    | none => .inr fRawWindow

/-! ### The peel log (R254, Table 11.4, Table 11.5) -/

/-- Whether an engine's changes are logged: run-ahead work above the published horizon, never on a supervisor core. -/
def State.logs (s : State) (n : Nat) (e : Word) : Bool := !isSup n && (s.horizonOf n).ult e
/-- Writes an entry, newest first, when the change lies above the published horizon. -/
def State.log (s : State) (n : Nat) (p : Peel) : State :=
  if s.logs n p.crd then s.modCore n fun c => { c with peel := p :: c.peel } else s
/-- An entry of kind 4 (Table 14.1). -/
def State.log4 (s : State) (n : Nat) (addr : Nat) (e old : Word) : State :=
  s.log n { kind := 4, addr := BitVec.ofNat 48 addr, crd := e, old := old.setWidth 256 }
/-- A token's count and tag, and a circular buffer's counters and tag, as entries of kinds 5 and 6 hold them. -/
def tokBits (k : Tok) : BitVec 256 := (k.tag ++ k.count).setWidth 256
def cbWord1 (b : Cb) : Word := BitVec.ofNat 64 (b.filled + 2 ^ 9 * b.free + 2 ^ 18 * b.ridx + 2 ^ 26 * b.widx)
def cbBits (b : Option Cb) : BitVec 256 :=
  let x := b.getD {}
  BitVec.ofNat 256 ((if b.isSome then 2 ^ 192 else 0) + (x.filling + 1024 * x.acquired) * 2 ^ 128) ||| ((x.tag ++ cbWord1 x).setWidth 256)
/-- Changes a token counter, logged under kind 5: its count and tag before the change. -/
def State.setTok (s : State) (n : Nat) (eng : Eng) (t : Nat) (e : Word) (x : Tok) : State :=
  (s.log n { kind := 5, eng := BitVec.ofNat 3 eng.num, addr := BitVec.ofNat 48 t, crd := e, old := tokBits ((s.core n).tok.get {} t), new := tokBits x }).modCore n fun c =>
    { c with tok := c.tok.set {} t x }
/-- Changes a circular buffer, logged under kind 6: its counters and tag before the change. -/
def State.setCb (s : State) (n : Nat) (eng : Eng) (i : Nat) (e : Word) (x : Cb) : State :=
  (s.log n { kind := 6, eng := BitVec.ofNat 3 eng.num, addr := BitVec.ofNat 48 i, crd := e, old := cbBits ((s.core n).cbs.get none i), new := cbBits (some x) }).modCore n fun c =>
    { c with cbs := c.cbs.set none i (some x) }
/-- An entry as its 64 bytes hold it (Table 11.5), and from them; `new` is kept. -/
def Peel.num (p : Peel) : Nat :=
  p.kind.toNat + 2 ^ 4 * p.eng.toNat + 2 ^ 8 * p.mask.toNat + 2 ^ 40 * p.addr.toNat + 2 ^ 128 * p.crd.toNat + 2 ^ 192 * p.old.toNat + 2 ^ 448 * p.pc.toNat
def Peel.put (p : Peel) (x : BitVec 512) : Peel :=
  { p with kind := x.extractLsb' 0 4, eng := x.extractLsb' 4 3, mask := x.extractLsb' 8 32, addr := x.extractLsb' 40 48, crd := x.extractLsb' 128 64,
           old := x.extractLsb' 192 256, pc := x.extractLsb' 448 64 }
/-- PEELFREE (Table 11.3). -/
def Core.peelFree (c : Core) : Nat := 1024 - c.peel.length

/-! ### Scratchpad (R185, R186) -/

def Core.spadBytes (c : Core) (a : Nat) : Nat → List Byte
  | 0 => []
  | n + 1 => c.spad.get 0 a :: c.spadBytes (a + 1) n
def putSpad (m : SMap Byte) (a : Nat) : List Byte → SMap Byte
  | [] => m
  | b :: t => putSpad (m.set 0 a b) (a + 1) t
/-- The end of the program area. -/
def spadEnd : Nat := 0x70000
/-- A byte of a whole scratchpad (Table 8.5): the program area, then the peel log, whose oldest entry stands first (DESIGN CHOICE). -/
def Core.spadByte (c : Core) (a : Nat) : Byte :=
  if a < spadEnd then c.spad.get 0 a
  else match c.peel.reverse[(a - spadEnd) / 64]? with
    | some p => BitVec.ofNat 8 (p.num / 2 ^ (8 * (a % 64)))
    | none => 0
/-- A write of a byte there; a place of the log that holds no entry keeps nothing. -/
def Core.putSpadByte (c : Core) (a : Nat) (v : Byte) : Core :=
  if a < spadEnd then { c with spad := c.spad.set 0 a v } else
  let i := (a - spadEnd) / 64
  let l := c.peel.reverse
  match l[i]? with
  | some p =>
    let old := p.num / 2 ^ (8 * (a % 64)) % 256
    let n := p.num + v.toNat * 2 ^ (8 * (a % 64)) - old * 2 ^ (8 * (a % 64))
    { c with peel := (l.set i (p.put (BitVec.ofNat 512 n))).reverse }
  | none => c
/-- Little-endian bits of a byte list (R7). -/
def bitsOf (w : Nat) (bs : List Byte) : BitVec w := BitVec.ofNat w (leNat bs)

/-- Logs the granules that a scratchpad write of an engine touches under kind 1 (Table 11.4): `gs` counts granules from `g`. -/
def State.logGranules (s : State) (n : Nat) (eng : Eng) (e : Word) (a len : Nat) (g : Nat) : Nat → State
  | 0 => s
  | gs + 1 =>
    let lo := Nat.max a (32 * g)
    let hi := Nat.min (a + len) (32 * g + 32)
    let mask : BitVec 32 := BitVec.ofNat 32 ((2 ^ (hi - lo) - 1) * 2 ^ (lo - 32 * g))
    let p : Peel := { kind := 1, eng := BitVec.ofNat 3 eng.num, mask := mask, addr := BitVec.ofNat 48 (32 * g), crd := e,
                      old := bitsOf 256 ((s.core n).spadBytes (32 * g) 32) }
    (s.log n p).logGranules n eng e a len (g + 1) gs
/-- A scratchpad write of a run-ahead engine: logged above the horizon, then performed. -/
def State.spadWrite (s : State) (n : Nat) (eng : Eng) (e : Word) (a : Nat) (bs : List Byte) : State :=
  if bs.isEmpty then s else
  (s.logGranules n eng e a bs.length (a / 32) ((a + bs.length - 1) / 32 + 1 - a / 32)).modCore n fun c =>
    { c with spad := putSpad c.spad a bs }

/-! ### Fault records (R148, R149, R153, R154) -/

/-- Words of a fault record as it stands in memory (Table 7.4). -/
def FRec.num (r : FRec) : Nat :=
  r.code.toNat + 2 ^ 8 * r.cls.toNat + 2 ^ 10 * r.eng.toNat + 2 ^ 13 * (if r.park then 1 else 0) + 2 ^ 16 * r.cid.toNat
    + 2 ^ 28 * r.inc.toNat + 2 ^ 64 * r.gts.toNat + 2 ^ 128 * r.src.toNat + 2 ^ 192 * r.crd.toNat + 2 ^ 256 * r.pc.toNat
    + 2 ^ 320 * r.val.toNat + 2 ^ 512 * r.detail.toNat
def FRec.bytes (r : FRec) : List Byte := leBytes r.num 128

/-- The device of a fault buffer's bytes: PID 0x00 names the supervisor's device buffer (R153, R154). -/
def State.fbufKeys (s : State) (pid : BitVec 7) (off n : Nat) : Option (List Nat) :=
  if pid == 0 then some ((List.range n).map fun i => memKey 3 0 (s.conf.dfbBase.toNat + off + i))
  else s.stage2s pid ((s.part pid).fbuf.toNat + off) n
def State.fbufGet (s : State) (pid : BitVec 7) (off n : Nat) : Nat :=
  match s.fbufKeys pid off n with
  | some ks => leNat (ks.map s.byte)
  | none => 0
def State.fbufPut (s : State) (pid : BitVec 7) (off : Nat) (bs : List Byte) : State :=
  match s.fbufKeys pid off bs.length with
  | some ks => s.putCells (ks.zip bs)
  | none => s
/-- PROD and CONS of a buffer (Table 7.3). -/
def State.prod (s : State) (pid : BitVec 7) : BitVec 32 := BitVec.ofNat 32 (s.fbufGet pid 0 4)
def State.cons (s : State) (pid : BitVec 7) : BitVec 32 := BitVec.ofNat 32 (s.fbufGet pid 8 4)
def State.fbFull (s : State) (pid : BitVec 7) : Bool := s.prod pid - s.cons pid == 256
/-- The faults held for a buffer, with core and whether an engine is parked on it. -/
def State.fheld (s : State) (pid : BitVec 7) : List (FRec × Nat × Bool) :=
  if pid == 0 then s.devHeld else (s.part pid).held
/-- Sets the held faults, with HELD and OVF of the control page following (R154). -/
def State.setFheld (s : State) (pid : BitVec 7) (h : List (FRec × Nat × Bool)) : State :=
  let s := if pid == 0 then { s with devHeld := h } else s.modPart pid fun p => { p with held := h }
  s.fbufPut pid 16 (leBytes ((if h.isEmpty then 0 else 1) + 2 ^ 16 * h.length) 4)

/-- Raises a WFE cause (Table 14.20). -/
def State.wake (s : State) (cause : Nat) : State := { s with wfe := s.wfe ||| BitVec.ofNat 7 (2 ^ cause) }

/-! ### Ultra Ethernet ports (R50, R93, R94) -/

def State.uePort (s : State) (p : Nat) : UePort := s.uePorts.get {} p
def State.modUePort (s : State) (p : Nat) (f : UePort → UePort) : State := { s with uePorts := s.uePorts.modify {} p f }
/-- A packet dropped at a port and counted there. -/
def State.ueDropAt (s : State) (p : Nat) : State := s.modUePort p fun x => { x with drops := x.drops + 1 }
/-- Whether an address is a permitted endpoint, and whether it is one on a port: bit `p` of an entry's mask permits it on port `p`. -/
def State.isEndpoint (s : State) (a : BitVec 128) : Bool := s.conf.endpoints.any fun x => x.1 == a
def State.permits (s : State) (p : Nat) (a : BitVec 128) : Bool := s.conf.endpoints.any fun x => x.1 == a && x.2.getLsbD p
/-- The room in a port's NSCC window. -/
def UePort.room (x : UePort) : Nat := x.wnd - x.infl
/-- The port with the most room; ties go to the lower one. -/
def State.uePick (s : State) : Nat := [1, 2, 3].foldl (fun m p => if (s.uePort m).room < (s.uePort p).room then p else m) 0
/-- The payload of a message in bytes. -/
def UeMsg.size : UeMsg → Nat
  | .event .. => 64
  | .suback .. => 16
  | .report _ b => b.length
  | .rmaResp _ _ b => b.length
  | .pkt _ _ _ _ _ b => b.length
  | _ => 0
/-- The operation of the network engine that a message belongs to, with its packet: NSCC counts these. -/
def UeMsg.op : UeMsg → Option (Nat × Nat)
  | .pkt op _ off _ _ _ => some (op, off / 4096)
  | _ => none
/-- When and where an event arose; none for another message. -/
def UeMsg.eventKey : UeMsg → Option Nat
  | .event _ e => some (e.gts.toNat * 2 ^ 20 + e.src.toNat)
  | _ => none
/-- A packet joins those that wait; an event goes before the events of a later GTS, or of the same GTS and a higher source number (R93). -/
def ueInsert (t : UeTx) : List UeTx → List UeTx
  | [] => [t]
  | x :: xs => match t.msg.eventKey, x.msg.eventKey with
    | some k, some j => if k < j then t :: x :: xs else x :: ueInsert t xs
    | _, _ => x :: ueInsert t xs
/-- Gives a packet to the ports; with EGRESS 0 nothing ever leaves (R50). -/
def State.sendTx (s : State) (t : UeTx) : State := if s.conf.egress == 0 then s else { s with ueq := ueInsert t s.ueq }
/-- A message to a host or a partition's event endpoint, over ROD: its port is chosen by the hash of R94. -/
def State.send (s : State) (to_ : UeAddr) (m : UeMsg) : State :=
  s.sendTx { to_ := to_.src, fixed := some (Config.rodPort (to_.job.setWidth 64 ||| (to_.proc.setWidth 64 <<< 24)) to_.src % 4), msg := m }
/-- Whether a packet may leave by a port now: the port's rate stays within EGRESS, and the packet of an operation fits the window. -/
def State.ueMay (s : State) (p : Nat) (t : UeTx) : Bool :=
  let x := s.uePort p
  x.freeAt ≤ s.gts.toNat && (t.msg.op.isNone || t.msg.size ≤ x.room || x.infl == 0)
/-- A packet at its port: outside the permitted set it is dropped and counted; else it leaves, at EGRESS times 10 Gb/s at most. -/
def State.depart (s : State) (p : Nat) (t : UeTx) : State :=
  if !s.permits p t.to_ then s.ueDropAt p else
  let n := t.msg.size + Config.ueOverhead
  let s := s.modUePort p fun x =>
    { x with freeAt := s.gts.toNat + (8 * n + 10 * s.conf.egress - 1) / (10 * s.conf.egress), infl := x.infl + (if t.msg.op.isSome then t.msg.size else 0) }
  let s : State := { s with out := s.out ++ [.ue p t.msg] }
  match t.msg.op with
  | some (op, k) => { s with ueOps := s.ueOps.map fun u => if u.held.id == op then { u with via := u.via.set 0 k (p + 1) } else u }
  | none => s
/-- The waiting packets leave in their order where their ports let them; what follows a packet that waits for its port waits there too, and events
keep their order over all ports (place 4 of `shut`). -/
def State.ueDrain (s : State) (shut : List Nat) : List UeTx → State
  | [] => s
  | t :: ts =>
    let p := t.fixed.getD s.uePick
    let ev := t.msg.eventKey.isSome
    if !shut.contains p && !(ev && shut.contains 4) && s.ueMay p t then (s.depart p t).ueDrain shut ts
    else ({ s with ueq := s.ueq ++ [t] } : State).ueDrain (p :: if ev then 4 :: shut else shut) ts
def State.flushUe (s : State) : State := ({ s with ueq := [] } : State).ueDrain [] s.ueq
/-- A packet of an operation has been answered, or is given up at its timeout: its bytes leave the window, which NSCC sets anew (free, and never
less than one packet). -/
def State.nscc (s : State) (u : UeOp) (k : Nat) : State :=
  match u.via.get 0 k with
  | 0 => s
  | p + 1 => s.modUePort p fun x =>
      { x with infl := x.infl - Nat.min 4096 (u.data.length - 4096 * k), wnd := 4096 + (Config.freeWord (s.freeCtr + 310 + p)).toNat % 2 ^ 24 }
/-- Sends an event to the partition's endpoint (R93). -/
def State.event (s : State) (ev : BitVec 8) (pid : BitVec 7) (cid : BitVec 12) (inc : BitVec 10) (q : Nat) (a0 a1 : Word) : State :=
  let p := s.part pid
  let to_ : UeAddr := { src := p.evaddr, job := p.ejob, proc := p.eproc }
  s.send to_ (.event to_ { kind := ev, cid := cid, inc := inc, gts := s.gts, queue := q, src := s.src (0x100 + q % 2), arg0 := a0, arg1 := a1 })

/-- R153: the record is written, PROD advances, and then the FAULT event is sent, as queue 0 and source agent 0x100 whatever the fault belongs to (DESIGN
CHOICE: the rules name neither for it); the device buffer wakes the supervisor. -/
def State.writeRec (s : State) (pid : BitVec 7) (r : FRec) : State :=
  let i := s.prod pid
  let s := s.fbufPut pid (4096 + 128 * (i.toNat % 256)) r.bytes
  let s := s.fbufPut pid 0 (leBytes (i + 1).toNat 4)
  if pid == 0 then s.wake 0 else s.event 6 pid r.cid r.inc 0 0 (i.setWidth 64)

/-- Whether a fault waits for room: its buffer is full (R154), or holds back an older fault of the same source (R155). -/
def State.mustHold (s : State) (pid : BitVec 7) (r : FRec) : Bool := s.fbFull pid || (s.fheld pid).any fun x => x.1.src == r.src
/-- Writes a record, or holds the fault (R154). -/
def State.record (s : State) (pid : BitVec 7) (r : FRec) (n : Nat) (parked : Bool) : State :=
  if s.mustHold pid r then s.setFheld pid (s.fheld pid ++ [(r, n, parked)]) else s.writeRec pid r

/-- Parks an engine on a fault of the word at `slot`, whose record goes to the buffer of `pid` (R148, R154). -/
def State.park (s : State) (n : Nat) (eng : Eng) (pid : BitVec 7) (r : FRec) (before stop paused : Bool) (slot : BitVec 16) (core : Bool := false) (op : Nat := 0) : State :=
  let full := s.mustHold pid r
  let idx := s.prod pid
  (s.record pid r n true).modCore n fun c => c.modEng eng fun x =>
    { x with park := some { frec := r, before := before, pid := pid.toNat, idx := idx, held := full, stop := stop, paused := paused, slot := slot, core := core, op := op } }
/-- The record of a fault that holds up no engine by itself; while it waits for room the engine stalls with it (R154), but for the supervisor core that
alone can make room. -/
def State.recordOn (s : State) (pid : BitVec 7) (r : FRec) (n : Nat) (eng : Eng) : State :=
  let c := s.core n
  if s.mustHold pid r && n != e0 && n < 258 && (c.eng eng).park.isNone && c.cid == r.cid && c.inc == r.inc then s.park n eng pid r false false false 0
  else s.record pid r n false

/-- A stop requested on a context (R261): it merges with a pending one, and is ignored when the context is stopped or saved. -/
def State.requestStop (s : State) (cid : BitVec 12) (k : Word) (r : StopReq) (byCmd : Bool) : State :=
  s.modCtx cid fun c =>
    if c.st == .live then
      match c.stop with
      | none => { c with stop := some { k := k, reqs := [r], byCmd := byCmd } }
      | some st =>
        let k' := minW st.k k
        let exact := c.horiz.ult k'
        let cut := if exact then k' else s.nextCrd cid c.horiz
        let lower := st.accepted && cut.ult st.cut
        { c with stop := some { st with k := k', cut := if lower then cut else st.cut, late := if lower then !exact else st.late,
                                        reqs := st.reqs ++ [r], byCmd := st.byCmd || byCmd } }
    else { c with result := 4, lastReq := r }

/-- The class that Table 7.1 gives a code: 0 user, 1 partition, 2 device. -/
def faultClass (code : BitVec 8) : BitVec 2 :=
  if code == fNres || code == fTtNode || code == fEccUe || code == fIncBusy then 2
  else if code == fRemoteUncertain || code == fLinkDown || code == fHang then 1 else 0

/-- TCAUSE (Table 7.2). -/
def tcInh (t : Word) : Bool := t.getLsbD 11
def tcSkip (t : Word) : Bool := t.getLsbD 12

/-- R150: entry to the handler of a core. Every engine stops issue (they hold while INH is 1), the exposed state is captured (the
results in flight keep the cycles that remain), and TEPC, TCAUSE, TVAL and the PC are set. `slot` is the ring slot of the faulting
word. The PC of the core is that of the faulting word for a control-core word with restart "before", and of the next word
otherwise; a control-core word that has issued and waits goes on after the return. -/
def State.trapEnter (s : State) (n : Nat) (eng : Eng) (code : BitVec 8) (val e : Word) (before : Bool) (slot : BitVec 16) : State :=
  s.modCore n fun c =>
    let widx : BitVec 12 := if eng == .cc then 0 else (slot &&& BitVec.ofNat 16 (2 ^ (c.eng eng).ring.size.toNat - 1)).setWidth 12
    { c with tepc := if c.ccWait.isSome && !(eng == .cc && before) then c.pc + 8 else c.pc, savedWait := c.ccWait.map (·, c.pc), ccWait := none,
             pc := c.tvec, tval := val, trapE := e, trapBefore := before, trapSlot := slot, trapLast := c.cc.elast, capture := some s.cycle, fetched := [],
             tcause := (code.setWidth 64) ||| (BitVec.ofNat 64 eng.num <<< 8) ||| (1#64 <<< 11) ||| (widx.setWidth 64 <<< 16) }

/-- The address that a record's PC field holds: the PC, or the ring word's scratchpad address (Table 7.4). -/
def Core.faultPc (c : Core) (eng : Eng) (slot : BitVec 16) : Word :=
  if eng == .cc then c.pc
  else
    let r := (c.eng eng).ring
    BitVec.ofNat 64 (r.base.toNat + 8 * (slot.toNat % 2 ^ r.size.toNat))

/-- R148: raises a fault of an engine of core `n`, of the word at `pc`. User class vectors to the handler, or is delivered as partition class when the
task has ended, the context is not LIVE, TVEC is 0 or a handler runs, when the whole core is held (R152); device class goes to the device buffer, and
restart "stopped" asks for STOP at the horizon. A supervisor core's own word vectors to its handler, device class recorded besides (R323). -/
def State.raiseFrom (pc : Word) (s : State) (n : Nat) (eng : Eng) (code : BitVec 8) (val e : Word) (before : Bool) (slot : BitVec 16) : State :=
  let c := s.core n
  let cls := if code == fPriv && isSup n then 2 else faultClass code
  let pid : BitVec 7 := if isSup n then 0 else (s.ctx c.cid).pid
  let r : FRec := { code := code, cls := cls, eng := BitVec.ofNat 3 eng.num, park := true, cid := c.cid, inc := c.inc, gts := s.gts,
                    src := s.src n, crd := e, pc := pc, val := val }
  let asP := c.tvec == 0 || tcInh c.tcause || (!isSup n && (match c.task with | none => true | some t => t.ended || (s.ctx c.cid).st != .live))
  if code == fIncBusy then
    let s := s.recordOn 0 { r with park := false } n eng
    if asP then s else s.trapEnter n eng code val e before slot
  else if cls == 2 && !isSup n then
    let stopped := code == fTtNode || code == fEccUe
    let s := s.park n eng 0 { r with park := stopped } before stopped (code == fNres) slot
    if stopped then
      s.requestStop c.cid (s.ctx c.cid).horiz { srck := 2, core := BitVec.ofNat 8 n } true
    else s
  else if cls == 1 then
    if s.mustHold pid r then s.park n eng pid { r with park := false } before false false slot else s.record pid { r with park := false } n false
  else if asP then s.park n eng pid r before false false slot (tcInh c.tcause)
  else
    let s := if cls == 2 then s.record 0 { r with park := false } n false else s
    s.trapEnter n eng code val e before slot
/-- A fault of the word at a ring slot, or at the PC. -/
def State.raise (s : State) (n : Nat) (eng : Eng) (code : BitVec 8) (val e : Word) (before : Bool) (slot : BitVec 16) : State :=
  s.raiseFrom ((s.core n).faultPc eng slot) n eng code val e before slot

/-! ### Tokens (R171 to R173) -/

/-- Union of the operation numbers ordered before something (R226). -/
def mergeIds (a b : List Nat) : List Nat := a ++ b.filter fun x => !a.contains x

/-- A signal (R171): count plus `k`, tag raised to `e`; past 0xFFFF the counter keeps 0xFFFF and TOK_OVF is raised, restart
"after". Logged under kind 5 above the horizon. -/
def State.signal (s : State) (n : Nat) (eng : Eng) (t k : Nat) (e : Word) (ids : List Nat) (slot : BitVec 16) : State :=
  if t == 0 then s else
  let x := (s.core n).tok.get {} t
  let ovf := 0xFFFF < x.count.toNat + k
  let x' : Tok := { count := if ovf then 0xFFFF else x.count + BitVec.ofNat 16 k, tag := maxW x.tag e, floor := if s.logs n e then x.floor else maxW x.floor e, before := mergeIds x.before ids }
  let s := s.setTok n eng t e x'
  if ovf then s.raise n eng fTokOvf (BitVec.ofNat 64 t) e false slot else s

/-- The terms of a wait-set entry (Table 8.2): token and count. -/
def waitTerms (w : Word) : List (Nat × Nat) :=
  [((w.extractLsb' 0 8).toNat, (w.extractLsb' 8 4).toNat), ((w.extractLsb' 16 8).toNat, (w.extractLsb' 24 4).toNat),
   ((w.extractLsb' 32 8).toNat, (w.extractLsb' 40 4).toNat)]
/-- Whether an entry obeys R172. -/
def waitOk (w : Word) : Bool :=
  let ts := waitTerms w
  let names := (ts.map (·.1)).filter (· != 0)
  ts.all (fun (t, k) => (t == 0) == (k == 0)) && decide names.Nodup &&
    w.extractLsb' 12 4 == 0 && w.extractLsb' 28 4 == 0 && w.extractLsb' 44 20 == 0
/-- The present terms. -/
def waitPresent (w : Word) : List (Nat × Nat) := (waitTerms w).filter fun t => t.1 != 0
/-- Whether every term finds its count (R173). -/
def Core.waitMet (c : Core) (w : Word) : Bool := (waitPresent w).all fun (t, k) => k ≤ (c.tok.get {} t).count.toNat
/-- The largest tag of the terms consumed. -/
def Core.waitTag (c : Core) (w : Word) : Word := (waitPresent w).foldl (fun m (t, _) => maxW m (c.tok.get {} t).tag) 0
def Core.waitIds (c : Core) (w : Word) : List Nat := (waitPresent w).foldl (fun m (t, _) => mergeIds m (c.tok.get {} t).before) []
/-- Consumption at issue: counts subtracted, tags unchanged, logged under kind 5 (R171, R173). -/
def State.consume (s : State) (n : Nat) (eng : Eng) (e : Word) : List (Nat × Nat) → State
  | [] => s
  | (t, k) :: ts =>
    let x := (s.core n).tok.get {} t
    (s.setTok n eng t e { x with count := x.count - BitVec.ofNat 16 k }).consume n eng e ts

end Sys2Proof.Machine
end

