-- ==== Sys2Proof/Machine/Image.lean ====
section
/-! DEFINITION. The context image as bytes (R146, Table 6.7): a header of 256 B, launch records of 64 B, phaser records, and the sections of each team
and tile task. The manual gives the sections, their order and their contents, and no layout within them: the layout here is the model's (DESIGN
CHOICE). The numeric flag word of R158 stands in the header. -/

namespace Sys2Proof.Machine

/-! ### Codecs -/

/-- How a kind of value is laid out as bytes, and read back from the front of a list. -/
structure Codec (α : Type) where
  enc : α → List Byte
  dec : List Byte → Option (α × List Byte)

def bytesC (n : Nat) : Codec Nat where
  enc x := leBytes x n
  dec l := if l.length < n then none else some (leNat (l.take n), l.drop n)
def Codec.map {α β : Type} (c : Codec α) (f : β → α) (g : α → β) : Codec β where
  enc x := c.enc (f x)
  dec l := (c.dec l).map fun x => (g x.1, x.2)
def bvC (w : Nat) : Codec (BitVec w) := (bytesC ((w + 7) / 8)).map (·.toNat) (BitVec.ofNat w)
/-- A number below 2^2040: its length in bytes, then its bytes. -/
def natC : Codec Nat where
  enc x := let n := (Nat.log2 x) / 8 + 1; leBytes n 1 ++ leBytes x n
  dec l := match l with
    | [] => none
    | n :: t => (bytesC n.toNat).dec t
def boolC : Codec Bool := (bytesC 1).map (fun b => if b then 1 else 0) (· == 1)
def pairC {α β : Type} (a : Codec α) (b : Codec β) : Codec (α × β) where
  enc x := a.enc x.1 ++ b.enc x.2
  dec l := (a.dec l).bind fun x => (b.dec x.2).map fun y => ((x.1, y.1), y.2)
def optC {α : Type} (c : Codec α) : Codec (Option α) where
  enc x := match x with | none => [0] | some a => 1 :: c.enc a
  dec l := match l with
    | [] => none
    | b :: t => if b == 0 then some (none, t) else (c.dec t).map fun x => (some x.1, x.2)
def decList {α : Type} (c : Codec α) : Nat → List Byte → Option (List α × List Byte)
  | 0, l => some ([], l)
  | n + 1, l => (c.dec l).bind fun x => (decList c n x.2).map fun y => (x.1 :: y.1, y.2)
def listC {α : Type} (c : Codec α) : Codec (List α) where
  enc l := natC.enc l.length ++ l.flatMap c.enc
  dec l := (natC.dec l).bind fun n => decList c n.1 n.2
def smapC {α : Type} (c : Codec α) : Codec (SMap α) := listC (pairC natC c)
/-- Bytes from address `i` on, up to the last listed one. -/
def dense (i : Nat) : SMap Byte → List Byte
  | [] => []
  | (k, v) :: t => List.replicate (k - i) 0 ++ v :: dense (k + 1) t
/-- A scratchpad, up to its last byte that is not 0. -/
def spadC : Codec (SMap Byte) where
  enc m := let bs := dense 0 m; natC.enc bs.length ++ bs
  dec l := (natC.dec l).bind fun n =>
    if n.2.length < n.1 then none else some (((List.range n.1).zip (n.2.take n.1)).filter (fun x => x.2 != 0), n.2.drop n.1)

/-- One field of a record: how it is written, and how it is read into the record. -/
structure Fld (α : Type) where
  enc : α → List Byte
  dec : α → List Byte → Option (α × List Byte)
def field {α β : Type} (c : Codec β) (get : α → β) (put : α → β → α) : Fld α where
  enc x := c.enc (get x)
  dec x l := (c.dec l).map fun y => (put x y.1, y.2)
def decFlds {α : Type} : List (Fld α) → α → List Byte → Option (α × List Byte)
  | [], x, l => some (x, l)
  | f :: fs, x, l => (f.dec x l).bind fun y => decFlds fs y.1 y.2
/-- A record by its fields, the others at their resting values. -/
def recC {α : Type} (init : α) (fs : List (Fld α)) : Codec α where
  enc x := fs.flatMap fun f => f.enc x
  dec l := decFlds fs init l

def wordC : Codec Word := bvC 64
def vecC : Codec Vec := bvC 2048
def engC : Codec Eng := natC.map Eng.num engOfNum

/-- Registers, entries and records of a core. -/
def ringC : Codec Ring := recC {} [
  field (bvC 19) (·.base) fun x v => { x with base := v },
  field (bvC 4) (·.size) fun x v => { x with size := v },
  field (bvC 16) (·.tail) fun x v => { x with tail := v },
  field (bvC 16) (·.head) fun x v => { x with head := v },
  field (bvC 16) (·.ret) fun x v => { x with ret := v },
  field (smapC wordC) (·.pushE) fun x v => { x with pushE := v }]
def loopC : Codec Loop := recC {} [
  field boolC (·.sloop) fun x v => { x with sloop := v },
  field natC (·.sq) fun x v => { x with sq := v },
  field (bvC 16) (·.start) fun x v => { x with start := v },
  field natC (·.len) fun x v => { x with len := v },
  field natC (·.lvl) fun x v => { x with lvl := v },
  field natC (·.lvl0) fun x v => { x with lvl0 := v },
  field natC (·.count) fun x v => { x with count := v },
  field natC (·.stages) fun x v => { x with stages := v },
  field natC (·.epi) fun x v => { x with epi := v },
  field natC (·.k) fun x v => { x with k := v },
  field boolC (·.eos) fun x v => { x with eos := v }]
def qentC : Codec QEnt := recC {} [
  field boolC (·.eos) fun x v => { x with eos := v },
  field vecC (·.data) fun x v => { x with data := v },
  field wordC (·.e) fun x v => { x with e := v },
  field (bvC 256) (·.flags) fun x v => { x with flags := v },
  field (bvC 5) (·.fmt) fun x v => { x with fmt := v },
  field boolC (·.landed) fun x v => { x with landed := v },
  field (listC (optC (pairC natC (bvC 8)))) (·.src) fun x v => { x with src := v },
  field natC (·.id) fun x v => { x with id := v }]
def obitC : Codec OBit := recC {} [
  field boolC (·.bit) fun x v => { x with bit := v },
  field wordC (·.e) fun x v => { x with e := v }]
def snapC : Codec Snap := recC {} [
  field wordC (·.crd) fun x v => { x with crd := v },
  field wordC (·.elast) fun x v => { x with elast := v },
  field (listC loopC) (·.loops) fun x v => { x with loops := v },
  field (bvC 8) (·.sp) fun x v => { x with sp := v },
  field natC (·.rot) fun x v => { x with rot := v },
  field natC (·.skip) fun x v => { x with skip := v },
  field (smapC (pairC (bvC 256) (bvC 5))) (·.lastPop) fun x v => { x with lastPop := v }]
def issC : Codec Iss := recC {} [
  field (bvC 16) (·.pos) fun x v => { x with pos := v },
  field wordC (·.e) fun x v => { x with e := v },
  field boolC (·.retired) fun x v => { x with retired := v },
  field (listC (pairC natC qentC)) (·.pops) fun x v => { x with pops := v },
  field (listC obitC) (·.bits) fun x v => { x with bits := v },
  field snapC (·.snap) fun x v => { x with snap := v },
  field natC (·.id) fun x v => { x with id := v }]
def frecC : Codec FRec := recC {} [
  field (bvC 8) (·.code) fun x v => { x with code := v },
  field (bvC 2) (·.cls) fun x v => { x with cls := v },
  field (bvC 3) (·.eng) fun x v => { x with eng := v },
  field boolC (·.park) fun x v => { x with park := v },
  field (bvC 12) (·.cid) fun x v => { x with cid := v },
  field (bvC 10) (·.inc) fun x v => { x with inc := v },
  field wordC (·.gts) fun x v => { x with gts := v },
  field (bvC 20) (·.src) fun x v => { x with src := v },
  field wordC (·.crd) fun x v => { x with crd := v },
  field wordC (·.pc) fun x v => { x with pc := v },
  field wordC (·.val) fun x v => { x with val := v },
  field (bvC 512) (·.detail) fun x v => { x with detail := v }]
def parkC : Codec Park := recC {} [
  field frecC (·.frec) fun x v => { x with frec := v },
  field boolC (·.before) fun x v => { x with before := v },
  field natC (·.pid) fun x v => { x with pid := v },
  field (bvC 32) (·.idx) fun x v => { x with idx := v },
  field boolC (·.held) fun x v => { x with held := v },
  field boolC (·.stop) fun x v => { x with stop := v },
  field boolC (·.paused) fun x v => { x with paused := v },
  field (bvC 16) (·.slot) fun x v => { x with slot := v }]
def engStC : Codec EngSt := recC {} [
  field wordC (·.crd) fun x v => { x with crd := v },
  field wordC (·.elast) fun x v => { x with elast := v },
  field ringC (·.ring) fun x v => { x with ring := v },
  field (listC loopC) (·.loops) fun x v => { x with loops := v },
  field (bvC 8) (·.sp) fun x v => { x with sp := v },
  field natC (·.rot) fun x v => { x with rot := v },
  field natC (·.skip) fun x v => { x with skip := v },
  field (optC parkC) (·.park) fun x v => { x with park := v },
  field (listC natC) (·.before) fun x v => { x with before := v },
  field (listC issC) (·.iss) fun x v => { x with iss := v }]
def tokC : Codec Tok := recC {} [
  field (bvC 16) (·.count) fun x v => { x with count := v },
  field wordC (·.tag) fun x v => { x with tag := v },
  field wordC (·.floor) fun x v => { x with floor := v },
  field (listC natC) (·.before) fun x v => { x with before := v }]
def qregC : Codec QReg := recC {} [
  field (bvC 1024) (·.code) fun x v => { x with code := v },
  field (bvC 16) (·.lin) fun x v => { x with lin := v },
  field boolC (·.ind) fun x v => { x with ind := v }]
def cbC : Codec Cb := recC {} [
  field wordC (·.w0) fun x v => { x with w0 := v },
  field natC (·.filled) fun x v => { x with filled := v },
  field natC (·.free) fun x v => { x with free := v },
  field natC (·.ridx) fun x v => { x with ridx := v },
  field natC (·.widx) fun x v => { x with widx := v },
  field wordC (·.tag) fun x v => { x with tag := v },
  field natC (·.filling) fun x v => { x with filling := v },
  field natC (·.acquired) fun x v => { x with acquired := v }]
def wrecC : Codec WRec := recC {} [
  field (bvC 10) (·.tidb) fun x v => { x with tidb := v },
  field (bvC 2) (·.bmode) fun x v => { x with bmode := v },
  field natC (·.k0) fun x v => { x with k0 := v },
  field natC (·.n0) fun x v => { x with n0 := v },
  field natC (·.groups) fun x v => { x with groups := v },
  field boolC (·.valid) fun x v => { x with valid := v },
  field (smapC (optC (bvC 32))) (·.elems) fun x v => { x with elems := v }]
def mtxOpC : Codec MtxOp := recC {} [
  field (bvC 16) (·.slot) fun x v => { x with slot := v },
  field natC (·.id) fun x v => { x with id := v },
  field wordC (·.w) fun x v => { x with w := v },
  field wordC (·.e) fun x v => { x with e := v },
  field wordC (·.pe) fun x v => { x with pe := v },
  field (listC wordC) (·.nest) fun x v => { x with nest := v },
  field natC (·.k) fun x v => { x with k := v },
  field natC (·.row) fun x v => { x with row := v },
  field boolC (·.draining) fun x v => { x with draining := v },
  field (optC wordC) (·.nres) fun x v => { x with nres := v },
  field wordC (·.seed) fun x v => { x with seed := v },
  field (listC qentC) (·.ents) fun x v => { x with ents := v },
  field (listC natC) (·.pend) fun x v => { x with pend := v },
  field (listC natC) (·.after) fun x v => { x with after := v }]
def mtxC : Codec Mtx := recC {} [
  field (smapC (bvC 32)) (·.acc0) fun x v => { x with acc0 := v },
  field (smapC (bvC 32)) (·.acc1) fun x v => { x with acc1 := v },
  field boolC (·.kind0) fun x v => { x with kind0 := v },
  field boolC (·.kind1) fun x v => { x with kind1 := v },
  field wrecC (·.wb0) fun x v => { x with wb0 := v },
  field wrecC (·.wb1) fun x v => { x with wb1 := v },
  field boolC (·.front) fun x v => { x with front := v },
  field (smapC vecC) (·.arow) fun x v => { x with arow := v },
  field (smapC boolC) (·.anop) fun x v => { x with anop := v },
  field natC (·.aM) fun x v => { x with aM := v },
  field natC (·.aK) fun x v => { x with aK := v },
  field boolC (·.apend) fun x v => { x with apend := v },
  field boolC (·.avalid) fun x v => { x with avalid := v },
  field (bvC 128) (·.rmask) fun x v => { x with rmask := v },
  field (bvC 128) (·.cmask) fun x v => { x with cmask := v },
  field (smapC wordC) (·.shadow) fun x v => { x with shadow := v },
  field (smapC wordC) (·.active) fun x v => { x with active := v },
  field (bvC 8) (·.flags) fun x v => { x with flags := v },
  field wordC (·.points) fun x v => { x with points := v },
  field wordC (·.lastc) fun x v => { x with lastc := v },
  field (listC mtxOpC) (·.ops) fun x v => { x with ops := v }]
def nctrC : Codec NCtr := recC {} [
  field wordC (·.value) fun x v => { x with value := v },
  field (bvC 48) (·.thresh) fun x v => { x with thresh := v },
  field (bvC 8) (·.tok) fun x v => { x with tok := v },
  field wordC (·.tag) fun x v => { x with tag := v }]
def lockC : Codec LockRange := recC {} [
  field natC (·.addr) fun x v => { x with addr := v },
  field natC (·.lines) fun x v => { x with lines := v }]
/-- A task of an image; its descriptor is that of its launch. -/
def taskC : Codec Task := recC {} [
  field natC (·.launch) fun x v => { x with launch := v },
  field natC (·.team) fun x v => { x with team := v },
  field natC (·.t) fun x v => { x with t := v },
  field wordC (·.base) fun x v => { x with base := v },
  field wordC (·.descAddr) fun x v => { x with descAddr := v },
  field (bvC 32) (·.launchId) fun x v => { x with launchId := v },
  field boolC (·.started) fun x v => { x with started := v },
  field boolC (·.ended) fun x v => { x with ended := v },
  field boolC (·.tending) fun x v => { x with tending := v },
  field (optC (bvC 12)) (·.superPh) fun x v => { x with superPh := v }]
def waitC : Codec CCWait where
  enc x := match x with
    | .join l m => 0 :: (pairC (listC natC) (listC (pairC natC (bvC 16)))).enc (l, m)
    | .ringcpy l n => 1 :: (pairC (listC wordC) natC).enc (l, n)
    | .cut => [2]
    | .phw ph n w => 3 :: (pairC (bvC 12) (pairC wordC (optC wordC))).enc (ph, n, w)
    | .spawnw l i => 4 :: (pairC (optC natC) natC).enc (l, i)
    | .ctxsave c => 5 :: (bvC 12).enc c
  dec l := match l with
    | [] => none
    | b :: t =>
      if b == 0 then ((pairC (listC natC) (listC (pairC natC (bvC 16)))).map (fun (_ : CCWait) => ([], [])) fun x => .join x.1 x.2).dec t
      else if b == 1 then ((pairC (listC wordC) natC).map (fun (_ : CCWait) => ([], 0)) fun x => .ringcpy x.1 x.2).dec t
      else if b == 2 then some (.cut, t)
      else if b == 3 then ((pairC (bvC 12) (pairC wordC (optC wordC))).map (fun (_ : CCWait) => (0, 0, none)) fun x => .phw x.1 x.2.1 x.2.2).dec t
      else if b == 4 then ((pairC (optC natC) natC).map (fun (_ : CCWait) => (none, 0)) fun x => .spawnw x.1 x.2).dec t
      else if b == 5 then ((bvC 12).map (fun (_ : CCWait) => 0) CCWait.ctxsave).dec t
      else none
/-- The sections of a tile task: control core, engines, matrix engine, scratchpad (Table 6.7). -/
def coreC : Codec Core := recC {} [
  field (optC taskC) (·.task) fun x v => { x with task := v },
  field wordC (·.pc) fun x v => { x with pc := v },
  field (smapC wordC) (·.s) fun x v => { x with s := v },
  field (smapC (optC wordC)) (·.deadS) fun x v => { x with deadS := v },
  field engStC (·.cc) fun x v => { x with cc := v },
  field engStC (·.acc) fun x v => { x with acc := v },
  field engStC (·.exe) fun x v => { x with exe := v },
  field engStC (·.mtx) fun x v => { x with mtx := v },
  field engStC (·.cpy) fun x v => { x with cpy := v },
  field engStC (·.net) fun x v => { x with net := v },
  field (optC waitC) (·.ccWait) fun x v => { x with ccWait := v },
  field (optC (pairC waitC wordC)) (·.savedWait) fun x v => { x with savedWait := v },
  field (optC wordC) (·.resumeAt) fun x v => { x with resumeAt := v },
  field (smapC tokC) (·.tok) fun x v => { x with tok := v },
  field (smapC wordC) (·.wset) fun x v => { x with wset := v },
  field (smapC (optC cbC)) (·.cbs) fun x v => { x with cbs := v },
  field (smapC wordC) (·.g) fun x v => { x with g := v },
  field (smapC (optC wordC)) (·.deadG) fun x v => { x with deadG := v },
  field (smapC vecC) (·.v) fun x v => { x with v := v },
  field (smapC (optC wordC)) (·.deadV) fun x v => { x with deadV := v },
  field (smapC (bvC 256)) (·.p) fun x v => { x with p := v },
  field (smapC qregC) (·.q) fun x v => { x with q := v },
  field (smapC (optC wordC)) (·.deadQ) fun x v => { x with deadQ := v },
  field (bvC 32) (·.qtemp) fun x v => { x with qtemp := v },
  field wordC (·.seed) fun x v => { x with seed := v },
  field (smapC (pairC (bvC 256) (bvC 5))) (·.lastPop) fun x v => { x with lastPop := v },
  field (smapC (listC qentC)) (·.dq) fun x v => { x with dq := v },
  field (smapC (listC qentC)) (·.sq) fun x v => { x with sq := v },
  field (listC obitC) (·.boqA) fun x v => { x with boqA := v },
  field (listC obitC) (·.boqX) fun x v => { x with boqX := v },
  field natC (·.defHead) fun x v => { x with defHead := v },
  field natC (·.defTail) fun x v => { x with defTail := v },
  field (smapC wordC) (·.cslot) fun x v => { x with cslot := v },
  field (smapC nctrC) (·.nctr) fun x v => { x with nctr := v },
  field wordC (·.tvec) fun x v => { x with tvec := v },
  field wordC (·.tcause) fun x v => { x with tcause := v },
  field wordC (·.tepc) fun x v => { x with tepc := v },
  field wordC (·.tval) fun x v => { x with tval := v },
  field wordC (·.trapE) fun x v => { x with trapE := v },
  field boolC (·.trapBefore) fun x v => { x with trapBefore := v },
  field (bvC 16) (·.trapSlot) fun x v => { x with trapSlot := v },
  field wordC (·.trapLast) fun x v => { x with trapLast := v },
  field (bvC 3) (·.dbgReg) fun x v => { x with dbgReg := v },
  field natC (·.hangt) fun x v => { x with hangt := v },
  field wordC (·.cutw) fun x v => { x with cutw := v },
  field (smapC wordC) (·.stopc) fun x v => { x with stopc := v },
  field (listC lockC) (·.locks) fun x v => { x with locks := v },
  field (smapC (bvC 12)) (·.phOwn) fun x v => { x with phOwn := v },
  field (smapC (listC wordC)) (·.claims) fun x v => { x with claims := v },
  field (smapC natC) (·.pendBits) fun x v => { x with pendBits := v },
  field mtxC (·.mx) fun x v => { x with mx := v },
  field spadC (·.spad) fun x v => { x with spad := v }]

/-! ### Launch, phaser and child-queue records -/

def TState.num : TState → Nat
  | .waiting => 0 | .placed => 1 | .running => 2 | .stopped => 3 | .ended => 4 | .transit => 5
def TState.ofNum (n : Nat) : TState :=
  if n == 1 then .placed else if n == 2 then .running else if n == 3 then .stopped else if n == 4 then .ended else if n == 5 then .transit else .waiting
def LState.num : LState → Nat
  | .ready => 0 | .running => 1 | .draining => 2 | .complete => 3
def LState.ofNum (n : Nat) : LState := if n == 1 then .running else if n == 2 then .draining else if n == 3 then .complete else .ready
/-- A team with its tile tasks: which have ended, the cores that they held, and the saved states. -/
def teamC : Codec Team := recC {} [
  field natC (·.idx) fun x v => { x with idx := v },
  field (natC.map TState.num TState.ofNum) (·.st) fun x v => { x with st := v },
  field natC (·.die) fun x v => { x with die := v },
  field (listC natC) (·.cores) fun x v => { x with cores := v },
  field (listC natC) (·.ended) fun x v => { x with ended := v },
  field (bvC 2) (·.cls) fun x v => { x with cls := v },
  field wordC (·.since) fun x v => { x with since := v },
  field boolC (·.pin) fun x v => { x with pin := v },
  field (listC (pairC natC (pairC natC coreC))) (·.saved) fun x v => { x with saved := v }]
def nfld (x lo n : Nat) : Nat := x / 2 ^ lo % 2 ^ n
/-- A launch record: 64 B. Launches are named by their place among the records. -/
def Launch.record (l : Launch) : List Byte :=
  leBytes (l.addr.toNat + 2 ^ 64 * l.base.toNat + 2 ^ 128 * l.id.toNat + 2 ^ 160 * l.st.num + (if l.late then 2 ^ 162 else 0) + (if l.child then 2 ^ 163 else 0) +
    (if l.doneev then 2 ^ 164 else 0) + (if l.parent.isSome then 2 ^ 165 else 0) + (if l.superPh.isSome then 2 ^ 166 else 0) + 2 ^ 168 * (l.die % 4) + 2 ^ 172 * (l.queue % 16) +
    2 ^ 176 * (l.superPh.getD 0).toNat + 2 ^ 192 * (l.next % 2 ^ 64) + 2 ^ 256 * (l.parent.getD 0 % 2 ^ 64) + 2 ^ 320 * (l.spawnId % 2 ^ 64) + 2 ^ 384 * l.since.toNat + 2 ^ 448 * l.stag.toNat) 64
def Launch.ofRecord (x : Nat) : Launch :=
  { addr := BitVec.ofNat 64 x, base := BitVec.ofNat 64 (nfld x 64 64), id := BitVec.ofNat 32 (nfld x 128 32), st := LState.ofNum (nfld x 160 2), late := nfld x 162 1 == 1, child := nfld x 163 1 == 1,
    doneev := nfld x 164 1 == 1, parent := if nfld x 165 1 == 1 then some (nfld x 256 64) else none,
    superPh := if nfld x 166 1 == 1 then some (BitVec.ofNat 12 (nfld x 176 12)) else none, die := nfld x 168 2, queue := nfld x 172 4, next := nfld x 192 64, spawnId := nfld x 320 64,
    since := BitVec.ofNat 64 (nfld x 384 64), stag := BitVec.ofNat 32 (nfld x 448 32) }
def launchC : Codec Launch := (bytesC 64).map (fun l => leNat l.record) Launch.ofRecord
def memberC : Codec PMember := recC {} [
  field natC (·.launch) fun x v => { x with launch := v },
  field natC (·.team) fun x v => { x with team := v },
  field natC (·.t) fun x v => { x with t := v },
  field natC (·.core) fun x v => { x with core := v },
  field (bvC 2) (·.mode) fun x v => { x with mode := v },
  field wordC (·.ms) fun x v => { x with ms := v },
  field wordC (·.mw) fun x v => { x with mw := v },
  field wordC (·.since) fun x v => { x with since := v },
  field boolC (·.drop) fun x v => { x with drop := v }]
def arrC : Codec PArr := recC {} [
  field wordC (·.phase) fun x v => { x with phase := v },
  field natC (·.core) fun x v => { x with core := v },
  field wordC (·.crd) fun x v => { x with crd := v },
  field (bvC 32) (·.bytes) fun x v => { x with bytes := v },
  field boolC (·.charge) fun x v => { x with charge := v },
  field boolC (·.arrives) fun x v => { x with arrives := v }]
def phaserC : Codec Phaser := recC {} [
  field wordC (·.counter) fun x v => { x with counter := v },
  field (bvC 32) (·.pending) fun x v => { x with pending := v },
  field (listC memberC) (·.members) fun x v => { x with members := v },
  field (listC memberC) (·.regs) fun x v => { x with regs := v },
  field (listC arrC) (·.hist) fun x v => { x with hist := v },
  field (smapC wordC) (·.relCrd) fun x v => { x with relCrd := v },
  field boolC (·.super) fun x v => { x with super := v }]
/-- What a context keeps of a child-queue entry beside the ring in memory, which holds its descriptor's address and its coordinate. -/
def cqC : Codec CqEnt := recC {} [
  field natC (·.held.id) fun x v => { x with held := { x.held with id := v } },
  field natC (·.held.core) fun x v => { x with held := { x.held with core := v } },
  field wordC (·.held.pc) fun x v => { x with held := { x.held with pc := v } },
  field boolC (fun x => match x.held.act with | .spawn _ w => w | _ => false) fun x v => { x with held := { x.held with act := .spawn 0 v } },
  field natC (·.die) fun x v => { x with die := v },
  field natC (·.parent) fun x v => { x with parent := v }]

/-! ### The image -/

/-- The bytes of the header. -/
def headerLen : Nat := 256
/-- Where the numeric flag word lies in the header, and the byte and bit of the valid bit. -/
def flagWordAt : Nat := 16
def validAt : Nat := 4
/-- The sections after the header: the launch records, the phaser records, then the teams with their tile tasks, and the child queue's entries. -/
def Image.body (m : Image) : List Byte :=
  m.launches.flatMap launchC.enc ++ (listC (pairC natC phaserC)).enc m.phasers ++ (listC (listC teamC)).enc (m.launches.map (·.teams)) ++ (listC cqC).enc m.cq
/-- The image as it stands at IMG. -/
def Image.bytes (m : Image) : List Byte :=
  let b := m.body
  leBytes (m.cid.toNat + 2 ^ 12 * m.inc.toNat + 2 ^ 22 * m.pid.toNat + (if m.valid then 2 ^ 32 else 0) + (if m.running then 2 ^ 40 else 0) + 2 ^ 64 * m.cuteff.toNat + 2 ^ 128 * m.flags.toNat +
    2 ^ 192 * m.launchCtr.toNat + 2 ^ 224 * m.epoch.toNat + 2 ^ 256 * m.launches.length + 2 ^ 288 * m.phasers.length + 2 ^ 320 * b.length + 2 ^ 384 * m.cqHead + 2 ^ 448 * m.cqTail) headerLen ++ b
/-- The length of the sections that a header tells. -/
def bodyLen (hd : Nat) : Nat := nfld hd 320 64
/-- A launch with what its teams' sections hold: their tasks take its context and its descriptor's address. -/
def Launch.withTeams (cid : BitVec 12) (inc : BitVec 10) (l : Launch) (ts : List Team) : Launch :=
  { l with cid := cid, inc := inc, teams := ts.map fun t => { t with saved := t.saved.map fun (i, n, c) => (i, n, { c with task := c.task.map fun k => { k with cid := cid, inc := inc } }) } }
/-- Reads an image from the bytes of its header and of its sections. -/
def Image.ofBytes (hd : Nat) (body : List Byte) : Option Image := do
  let cid : BitVec 12 := BitVec.ofNat 12 hd
  let inc : BitVec 10 := BitVec.ofNat 10 (nfld hd 12 10)
  let (ls, b) ← decList launchC (nfld hd 256 32) body
  let (ps, b) ← (listC (pairC natC phaserC)).dec b
  let (ts, b) ← (listC (listC teamC)).dec b
  let (cq, _) ← (listC cqC).dec b
  some { cid := cid, inc := inc, pid := BitVec.ofNat 7 (nfld hd 22 7), valid := nfld hd 32 1 == 1, running := nfld hd 40 1 == 1, cuteff := BitVec.ofNat 64 (nfld hd 64 64),
         flags := BitVec.ofNat 8 (nfld hd 128 8), launchCtr := BitVec.ofNat 32 (nfld hd 192 32), epoch := BitVec.ofNat 24 (nfld hd 224 24),
         launches := (ls.zip ts).map fun x => x.1.withTeams cid inc x.2, phasers := ps, cqHead := nfld hd 384 64, cqTail := nfld hd 448 64, cq := cq }

/-! ### The image area in memory -/

/-- Bytes at a guest-physical address of a context; 0 where stage two places nothing. -/
def State.gpaBytes (s : State) (cid : BitVec 12) (gpa : Nat) (n : Nat) : List Byte :=
  (List.range n).map fun i => match s.stage2 (s.ctx cid).pid (gpa + i) with | some k => s.byte k | none => 0
/-- Writes bytes at a guest-physical address of a context, where stage two places them. -/
def State.putGpa (s : State) (cid : BitVec 12) (gpa : Nat) (bs : List Byte) : State :=
  s.putCells (((List.range bs.length).zip bs).filterMap fun (i, b) => (s.stage2 (s.ctx cid).pid (gpa + i)).map fun k => (k, b))
/-- The key of a context's image area. -/
def State.imgKey (s : State) (cid : BitVec 12) : Option Nat := s.stage2 (s.ctx cid).pid (s.ctx cid).img.toNat
/-- The image that stands at IMG, if its bytes are one and its valid bit is set. -/
def State.imageAt (s : State) (cid : BitVec 12) : Option Image :=
  let img := (s.ctx cid).img.toNat
  let hd := leNat (s.gpaBytes cid img headerLen)
  if (s.imgKey cid).isNone || nfld hd 32 1 == 0 || 2 ^ 28 < bodyLen hd then none else Image.ofBytes hd (s.gpaBytes cid (img + headerLen) (bodyLen hd))
/-- Writes an image at IMG. -/
def State.putImage (s : State) (cid : BitVec 12) (m : Image) : State := s.putGpa cid (s.ctx cid).img.toNat m.bytes
/-- Marks the image at IMG invalid (R134, R135). -/
def State.dropImage (s : State) (cid : BitVec 12) : State := s.putGpa cid ((s.ctx cid).img.toNat + validAt) [0]
/-- The numeric flag word of a context, in the image header (R158): its eight flags, and changes of it. -/
def State.imgFlags (s : State) (cid : BitVec 12) : BitVec 8 := bitsOf 8 (s.gpaBytes cid ((s.ctx cid).img.toNat + flagWordAt) 1)
def State.putFlags (s : State) (cid : BitVec 12) (f : BitVec 8) : State := s.putGpa cid ((s.ctx cid).img.toNat + flagWordAt) (leBytes f.toNat 8)
def State.orFlags (s : State) (cid : BitVec 12) (f : BitVec 8) : State := s.putFlags cid (s.imgFlags cid ||| f)

end Sys2Proof.Machine
end

