-- ==== Sys2Proof/Machine/Operands.lean ====
section
/-! DEFINITION. Operands of control-core words (s registers with last use, R183, R318, R321) and the issue of a control-core word:
its wait set, effective coordinate, stop and watch tests, logging, effect, signal and retirement (R164, R170, R173, R249, R254,
R263, R264). -/

namespace Sys2Proof.Machine

/-- What the effect of a word answers. `stall` leaves the word unissued; `fault` raises with restart "before"; `done` retires it
with its signal; `after` retires it and raises with restart "after"; `wait` keeps an issued word at its place until it can retire;
`quiet` retires it with its signal left to a later completion. -/
inductive Body where
  | stall
  | fault (code : BitVec 8) (val : Word)
  | done (s : State)
  | after (s : State) (code : BitVec 8) (val : Word)
  | wait (s : State)
  | quiet (s : State)

/-! ### s registers -/

/-- The value a control-core word reads: s0 is zero; a register freed by a last use reads as a free value (R183). -/
def State.rdS (s : State) (r : BitVec 6) : Word :=
  if r == 0 then 0
  else if (s.me.deadS.get none r.toNat).isSome then Config.freeWord (s.freeCtr + r.toNat)
  else s.me.s.get 0 r.toNat

/-- Writes an s register: a write to s0 is discarded; the old value is logged under kind 4; a pending delivery to it is cancelled
(R318, R321). -/
def State.wrSOf (s : State) (n : Nat) (r : BitVec 6) (e v : Word) : State :=
  if r == 0 then s else
  (s.log4 n r.toNat e ((s.core n).s.get 0 r.toNat)).modCore n fun c =>
    { c with s := c.s.set 0 r.toNat v, deadS := c.deadS.set none r.toNat none, sPend := c.sPend.set 0 r.toNat 0 }
def State.wrS (s : State) (r : BitVec 6) (e v : Word) : State := s.wrSOf s.cur r e v

/-- Frees the registers whose last-use bit is set (R183). -/
def freeS (e : Word) : List (BitVec 6 × Bool) → SMap (Option Word) → SMap (Option Word)
  | [], m => m
  | (r, l) :: t, m => freeS e t (if l then m.set none r.toNat (some e) else m)

/-- Sign extension of an immediate. -/
def sext {w : Nat} (x : BitVec w) : Word := x.signExtend 64
/-- 0 or 1. -/
def boolW (b : Bool) : Word := if b then 1 else 0

/-! ### Issue of a control-core word -/

/-- The effective coordinate of a control-core word with consumed tags up to `tag` (R249, R323). -/
def ccE (s : State) (tag : Word) : Word := if isSup s.cur then 0 else maxW (maxW s.me.cc.elast s.me.cc.crd) tag

/-- The watch of a core covers a coordinate (R263). -/
def Core.watched (c : Core) (e : Word) : Bool := c.cutw != BitVec.allOnes 64 && c.cutw.ule e

/-- An entry of kind 9 for an engine: its CRD and ELAST as they stand (Table 11.4). -/
def State.log9 (s : State) (n : Nat) (eng : Eng) (e pc : Word) : State :=
  let x := (s.core n).eng eng
  s.log n { kind := 9, eng := BitVec.ofNat 3 eng.num, crd := e, old := ((x.crd ++ x.elast).setWidth 256), pc := pc }

/-- Raises ELAST of an engine to `e`, logged under kind 9 when it rises. -/
def State.raiseElast (s : State) (n : Nat) (eng : Eng) (e pc : Word) : State :=
  if ((s.core n).eng eng).elast.ult e then
    (s.log9 n eng e pc).modCore n fun c => c.modEng eng fun x => { x with elast := e }
  else s

/-- The effect of issuing on a core apart from the word's own: ELAST, consumption, last uses, orderings inherited, PC past the
word, the fetched word taken. -/
def State.ccIssue (s : State) (e : Word) (toks : List (Nat × Nat)) (ids : List Nat) (srcs : List (BitVec 6 × Bool)) : State :=
  let n := s.cur
  ((s.raiseElast n .cc e s.me.pc).consume n .cc e toks).modCore n fun c =>
    { c with pc := c.pc + 8, fetched := c.fetched.tail, deadS := freeS e srcs c.deadS,
             cc := { c.cc with before := mergeIds c.cc.before ids } }

/-- Marks that a core retires a word (R156). -/
def State.retired (s : State) (n : Nat) : State := s.modCore n fun c => { c with idle := s.cycle, hung := false }

/-- A change fits the peel log and the egress hold (R255, R258). -/
def Core.fits (c : Core) : Bool := c.peel.length ≤ 1024 && c.hold.length ≤ 128

/-- The end of a wait of an issued control-core word (R150). -/
def State.ccEndWait (s : State) (n : Nat) (was : Bool) : State :=
  if was then s.modCore n fun c => { c with ccWait := none, pc := c.resumeAt.getD c.pc, resumeAt := none } else s
/-- Retirement of a control-core word with its signal (R170); `was` tells that it waited. -/
def State.ccRetire (s : State) (was : Bool) (sig : BitVec 8) (e : Word) : State :=
  let n := s.cur
  ((s.ccEndWait n was).retired n).signal n .cc sig.toNat 1 e s.me.cc.before 0

/-- What becomes of the answer of a word's effect; `s0` is the state before issue. -/
def ccFinish (h : Hdr) (e : Word) (s0 : State) : Body → Result
  | .stall => .next s0
  | .fault code val => .next (s0.raise s0.cur .cc code val e true 0)
  | .done s => if s.me.fits then .next (s.ccRetire s0.me.ccWait.isSome h.sig e) else .next s0
  | .quiet s => if s.me.fits then .next ((s.ccEndWait s.cur s0.me.ccWait.isSome).retired s.cur) else .next s0
  | .after s code val => if s.me.fits then .next ((s.ccRetire s0.me.ccWait.isSome h.sig e).raise s.cur .cc code val e false 0) else .next s0
  | .wait s => if s.me.fits then .next (s.modCore s.cur fun c => { c with pc := s0.me.pc, fetched := s0.me.fetched }) else .next s0

/-- How many counts of a token the terms of a word take together. -/
def tokNeed (ts : List (Nat × Nat)) (t : Nat) : Nat := ((ts.filter fun x => x.1 == t).map (·.2)).sum

/-- Issues a control-core word: `srcs` are the register fields it reads with their last-use bits, `toks` the further tokens it
consumes (TDEC), `extra` a coordinate that it inherits (R115), `body` its effect from the state after issue. A word that has issued and waits (`ccWait`) goes on with its body
alone. -/
def ccWordAt (extra : Word) (h : Hdr) (w : Word) (srcs : List (BitVec 6 × Bool)) (toks : List (Nat × Nat)) (body : Word → State → Body)
    (s : State) : Result :=
  let c := s.me
  if c.ccWait.isSome then
    let e := maxW c.cc.elast extra
    ccFinish h e s (body e ((s.raiseElast s.cur .cc e c.pc).modCore s.cur fun c => { c with pc := c.pc + 8, fetched := c.fetched.tail }))
  else
    let wv := if h.wait == 0 then 0 else c.wset.get 0 h.wait.toNat
    let ts := waitPresent wv ++ toks
    let tag := maxW (c.waitTag wv) (toks.foldl (fun m (t, _) => maxW m (c.tok.get {} t).tag) 0)
    let ids := mergeIds (c.waitIds wv) (toks.foldl (fun m (t, _) => mergeIds m (c.tok.get {} t).before) [])
    let e := ccE s (maxW tag extra)
    if !waitOk wv then .next (s.raise s.cur .cc fIllegal w e true 0)
    else if !ts.all (fun (t, _) => tokNeed ts t ≤ (c.tok.get {} t).count.toNat) then .next s
    else if srcs.any (fun (r, _) => c.sPend.get 0 r.toNat != 0) then .next s
    else
      match if c.dbgReg.getLsbD 1 then srcs.find? (fun (r, _) => (c.deadS.get none r.toNat).isSome) else none with
      | some (r, _) => .next (s.raise s.cur .cc fRegdead (r.setWidth 64) e true 0)
      | none =>
        if s.stopAtOrBelow s.cur e || c.cc.waitsStop then .next s
        else if c.watched e then .next (s.modCore s.cur fun c => { c with cc := { c.cc with waitsStop := true } })
        else ccFinish h e s (body e (s.ccIssue e ts ids srcs))

/-- A control-core word that takes no further coordinate. -/
def ccWord (h : Hdr) (w : Word) (srcs : List (BitVec 6 × Bool)) (toks : List (Nat × Nat)) (body : Word → State → Body) (s : State) : Result :=
  ccWordAt 0 h w srcs toks body s

/-- A word that computes one s register from its sources. -/
def ccAlu (h : Hdr) (w : Word) (srcs : List (BitVec 6 × Bool)) (d : BitVec 6) (v : Word) (s : State) : Result :=
  ccWord h w srcs [] (fun e s' => .done (s'.wrS d e v)) s

/-! ### The egress hold -/

/-- Places an effect in the egress hold of a core (R258); a supervisor core's entry is released at once (R323), its SPAWN to the pending-spawn slot. -/
def State.place (s : State) (n : Nat) (x : Held) : State :=
  let c := s.core n
  let x := { x with id := s.nextId, core := n, cid := c.cid, inc := c.inc }
  let s := { s with nextId := s.nextId + 1 }
  let spawn := match x.act with | .spawn .. => true | _ => false
  if !isSup n then s.modCore n fun c => { c with hold := c.hold ++ [x] }
  else if spawn then s.modCore n fun c => { c with spawnSlot := some x }
  else { s with flying := s.flying ++ [x] }
/-- The number that the next placed entry receives. -/
def State.placedId (s : State) : Nat := s.nextId

/-- The stronger of two release scopes. -/
def scopeMax (a b : Option (BitVec 3)) : Option (BitVec 3) :=
  match a, b with
  | none, x => x
  | x, none => x
  | some x, some y => some (if x.ult y then y else x)

/-- What an entry of the control core waits for as a release (R227, R230): by its own qualifier the operations ordered before it, and at each earlier
FREL or FAR those ordered before that fence. -/
def Core.relNeeds (c : Core) (rel : Option (BitVec 3)) : List (BitVec 3 × List Nat) :=
  (rel.map fun sc => (sc, c.cc.before)).toList ++ c.frels.map fun f => (f.scope, f.ids)
/-- The operations that must be performed before any access ordered after fences and acquires (R228, R230, R240): all those of the control core, or those
that token edges and JOIN carry to an engine with the numbers `ids` (R226). -/
def Core.barAll (c : Core) : List Nat := c.bars.foldl (fun m b => mergeIds m b.ids) []
def Core.barOf (c : Core) (ids : List Nat) : List Nat := (c.bars.filter fun b => ids.contains b.id).foldl (fun m b => mergeIds m b.ids) []
/-- Holds an effect of a control-core word; it joins the operations ordered before the core's later words (R226), waits for earlier acquires and for what an
earlier FAR names, as a release for those of `relNeeds`, and holds back what is ordered after it until its result where it is an acquire (R240). -/
def State.ccHold (s : State) (e w : Word) (sig : BitVec 8) (a : Act) (rel acq : Option (BitVec 3)) : State :=
  let n := s.cur
  let c := s.me
  let id := s.placedId
  (s.place n { eng := .cc, e := e, act := a, sig := sig, w := w, pc := c.pc - 8, acq := acq, after := c.barAll, rel := c.relNeeds rel }).modCore n fun c =>
    { c with cc := { c.cc with before := mergeIds c.cc.before [id] }, bars := if acq.isSome then c.bars ++ [{ e := e, id := id, ids := [id] }] else c.bars }

/-- The members of a request in their order (R239). -/
def Comb.members : Comb → List Held
  | .one h => [h]
  | .two a b _ => a.members ++ b.members

/-- Changes every member of a request. -/
def Comb.map (f : Held → Held) : Comb → Comb
  | .one h => .one (f h)
  | .two a b x => .two (a.map f) (b.map f) x

/-- Whether an operation number is still held or in flight. -/
def State.outstanding (s : State) (id : Nat) : Bool :=
  s.flying.any (·.id == id) || s.cores.any (fun (_, c) => c.hold.any (·.id == id)) ||
    s.oreqs.any (·.held.id == id) || s.areqs.any (fun a => a.tree.members.any (·.id == id)) || s.ueOps.any (fun u => u.held.id == id)

/-- Whether none of some operations is still held or in flight. -/
def State.clear (s : State) (ids : List Nat) : Bool := ids.all fun i => !s.outstanding i

/-- R224: a byte of a load from the youngest store of the core still held for it, else from memory. -/
def forwardByte (hold : List Held) (addr : Word) (mem : Byte) : Byte :=
  hold.foldl (fun b h =>
    match h.act with
    | .store a n v _ => if a.ule addr && (addr - a).toNat < n then v.extractLsb' (8 * (addr - a).toNat) 8 else b
    | _ => b) mem

/-- The released entries of a core's task that are still in flight, in the order of issue. -/
def State.releasedOf (s : State) (n : Nat) : List Held :=
  let c := s.core n
  s.flying.filter fun h => h.core == n && h.cid == c.cid && h.inc == c.inc
/-- A core's entries that are held, or released and still in flight, in the order of issue. A load takes from one of the latter too, so that it returns
nothing older than an earlier load did (R222). -/
def State.pendingOf (s : State) (n : Nat) : List Held := s.releasedOf n ++ (s.core n).hold
/-- The bytes that a control-core load of keys `ks` at `addr` returns (R224). -/
def State.loadBytes (s : State) (n : Nat) (addr : Word) : List Nat → Nat → List Byte
  | [], _ => []
  | k :: ks, i => forwardByte (s.pendingOf n) (addr + BitVec.ofNat 64 i) (s.byte k) :: s.loadBytes n addr ks (i + 1)

end Sys2Proof.Machine
end

