-- ==== Sys2Proof/Machine/ControlInt.lean ====
section
/-! DEFINITION. NOP, MARK, ILL and the integer forms of the control core (R324 to R326, Table 14.5). -/

namespace Sys2Proof.Machine

/-- A shift amount B[5:0]. -/
def shAmt (b : Word) : Nat := b.toNat % 64
def shImm (i : BitVec 24) : Nat := i.toNat % 64
def ltOf (u : Bool) (a b : Word) : Bool := if u then a.ult b else a.slt b
def minOf (u : Bool) (a b : Word) : Word := if ltOf u b a then b else a
def maxOf (u : Bool) (a b : Word) : Word := if ltOf u a b then b else a
/-- The high half of the 128-bit product. -/
def mulHigh (u : Bool) (a b : Word) : Word :=
  if u then BitVec.ofNat 64 (a.toNat * b.toNat / 2 ^ 64) else BitVec.ofInt 64 (a.toInt * b.toInt / 2 ^ 64)
/-- R326. -/
def divOf (u : Bool) (a b : Word) : Word := if b == 0 then BitVec.allOnes 64 else if u then a / b else a.sdiv b
def remOf (u : Bool) (a b : Word) : Word := if b == 0 then a else a - b * divOf u a b
def leadZeros (x : Word) : Nat → Nat
  | 0 => 0
  | n + 1 => if x.getLsbD n then 0 else 1 + leadZeros x n
def trailZeros (x : Word) (i : Nat) : Nat → Nat
  | 0 => 0
  | n + 1 => if x.getLsbD i then 0 else 1 + trailZeros x (i + 1) n
def onesOf (x : Word) : Nat → Nat
  | 0 => 0
  | n + 1 => (if x.getLsbD n then 1 else 0) + onesOf x n
/-- The width of a BEXT or BINS field: MIN(C[6:0], 64 − p). -/
def fieldWidth (b c : Word) : Nat := Nat.min (c.toNat % 128) (64 - b.toNat % 64)
def fieldMask (b c : Word) : Word := BitVec.ofNat 64 (2 ^ fieldWidth b c - 1)
def fieldOf (a b c : Word) : Word := (a >>> (b.toNat % 64)) &&& fieldMask b c
def insertField (d a b c : Word) : Word :=
  let m := fieldMask b c
  (d &&& ~~~(m <<< (b.toNat % 64))) ||| ((a &&& m) <<< (b.toNat % 64))

/-- Sets numeric flags of a core (Table 7.7). -/
def State.setFlags (s : State) (n : Nat) (f : BitVec 8) : State := s.modCore n fun c => { c with flags := c.flags ||| f }
/-- A division: the result, and DIVZERO when the divisor is zero (R326). -/
def ccDiv (h : Hdr) (w : Word) (srcs : List (BitVec 6 × Bool)) (d : BitVec 6) (b v : Word) (s : State) : Result :=
  ccWord h w srcs [] (fun e s' => .done (((if b == 0 then s'.setFlags s.cur 0x02 else s')).wrS d e v)) s

/-- A word with no effect beyond its wait and its signal (R324): on the control core; in a ring, MARK is issued by the engine. -/
def ccNop (h : Hdr) (w : Word) (s : State) : Result := ccWord h w [] [] (fun _ s' => .done s') s

/-- R325: D ← A + B. -/
def execAdd (h : Hdr) (o : RR) (s : State) : Result :=
  ccAlu h (packRR h 0x01 0 o) [(o.a, o.la), (o.b, o.lb)] o.d ((s.rdS o.a) + (s.rdS o.b)) s

/-- R325: D ← A − B. -/
def execSub (h : Hdr) (o : RR) (s : State) : Result :=
  ccAlu h (packRR h 0x01 1 o) [(o.a, o.la), (o.b, o.lb)] o.d ((s.rdS o.a) - (s.rdS o.b)) s

/-- R325: D ← A AND B. -/
def execAnd (h : Hdr) (o : RR) (s : State) : Result :=
  ccAlu h (packRR h 0x01 2 o) [(o.a, o.la), (o.b, o.lb)] o.d ((s.rdS o.a) &&& (s.rdS o.b)) s

/-- R325: D ← A OR B. -/
def execOr (h : Hdr) (o : RR) (s : State) : Result :=
  ccAlu h (packRR h 0x01 3 o) [(o.a, o.la), (o.b, o.lb)] o.d ((s.rdS o.a) ||| (s.rdS o.b)) s

/-- R325: D ← A XOR B. -/
def execXor (h : Hdr) (o : RR) (s : State) : Result :=
  ccAlu h (packRR h 0x01 4 o) [(o.a, o.la), (o.b, o.lb)] o.d ((s.rdS o.a) ^^^ (s.rdS o.b)) s

/-- R325: D ← A AND NOT B. -/
def execAndn (h : Hdr) (o : RR) (s : State) : Result :=
  ccAlu h (packRR h 0x01 5 o) [(o.a, o.la), (o.b, o.lb)] o.d ((s.rdS o.a) &&& ~~~(s.rdS o.b)) s

/-- R325: D ← A shifted left by B[5:0]. -/
def execShl (h : Hdr) (o : RR) (s : State) : Result :=
  ccAlu h (packRR h 0x01 6 o) [(o.a, o.la), (o.b, o.lb)] o.d ((s.rdS o.a) <<< shAmt (s.rdS o.b)) s

/-- R325: D ← A shifted right logically by B[5:0]. -/
def execShr (h : Hdr) (o : RR) (s : State) : Result :=
  ccAlu h (packRR h 0x01 7 o) [(o.a, o.la), (o.b, o.lb)] o.d ((s.rdS o.a) >>> shAmt (s.rdS o.b)) s

/-- R325: D ← A shifted right arithmetically by B[5:0]. -/
def execSar (h : Hdr) (o : RR) (s : State) : Result :=
  ccAlu h (packRR h 0x01 8 o) [(o.a, o.la), (o.b, o.lb)] o.d (BitVec.sshiftRight (s.rdS o.a) (shAmt (s.rdS o.b))) s

/-- R325: D ← the minimum of A and B, signed or with .n unsigned. -/
def execMin (h : Hdr) (o : RR) (s : State) : Result :=
  ccAlu h (packRR h 0x01 9 o) [(o.a, o.la), (o.b, o.lb)] o.d (minOf (o.lat.getLsbD 2) (s.rdS o.a) (s.rdS o.b)) s

/-- R325: D ← the maximum of A and B, signed or with .n unsigned. -/
def execMax (h : Hdr) (o : RR) (s : State) : Result :=
  ccAlu h (packRR h 0x01 10 o) [(o.a, o.la), (o.b, o.lb)] o.d (maxOf (o.lat.getLsbD 2) (s.rdS o.a) (s.rdS o.b)) s

/-- R325: D ← 1 when A < B, signed or with .n unsigned, else 0. -/
def execSlt (h : Hdr) (o : RR) (s : State) : Result :=
  ccAlu h (packRR h 0x01 11 o) [(o.a, o.la), (o.b, o.lb)] o.d (boolW (ltOf (o.lat.getLsbD 2) (s.rdS o.a) (s.rdS o.b))) s

/-- R325: D ← 1 when A = B, else 0. -/
def execSeq (h : Hdr) (o : RR) (s : State) : Result :=
  ccAlu h (packRR h 0x01 12 o) [(o.a, o.la), (o.b, o.lb)] o.d (boolW ((s.rdS o.a) == (s.rdS o.b))) s

/-- R325: D ← A + SEXT(IMM24). -/
def execAddi (h : Hdr) (o : RI) (s : State) : Result :=
  ccAlu h (packRI h 0x02 0 o) [(o.a, o.la)] o.d ((s.rdS o.a) + sext o.imm) s

/-- R325: D ← A AND SEXT(IMM24). -/
def execAndi (h : Hdr) (o : RI) (s : State) : Result :=
  ccAlu h (packRI h 0x02 1 o) [(o.a, o.la)] o.d ((s.rdS o.a) &&& sext o.imm) s

/-- R325: D ← A OR SEXT(IMM24). -/
def execOri (h : Hdr) (o : RI) (s : State) : Result :=
  ccAlu h (packRI h 0x02 2 o) [(o.a, o.la)] o.d ((s.rdS o.a) ||| sext o.imm) s

/-- R325: D ← A XOR SEXT(IMM24). -/
def execXori (h : Hdr) (o : RI) (s : State) : Result :=
  ccAlu h (packRI h 0x02 3 o) [(o.a, o.la)] o.d ((s.rdS o.a) ^^^ sext o.imm) s

/-- R325: D ← A shifted left by IMM24[5:0]. -/
def execShli (h : Hdr) (o : RI) (s : State) : Result :=
  ccAlu h (packRI h 0x02 4 o) [(o.a, o.la)] o.d ((s.rdS o.a) <<< shImm o.imm) s

/-- R325: D ← A shifted right logically by IMM24[5:0]. -/
def execShri (h : Hdr) (o : RI) (s : State) : Result :=
  ccAlu h (packRI h 0x02 5 o) [(o.a, o.la)] o.d ((s.rdS o.a) >>> shImm o.imm) s

/-- R325: D ← A shifted right arithmetically by IMM24[5:0]. -/
def execSari (h : Hdr) (o : RI) (s : State) : Result :=
  ccAlu h (packRI h 0x02 6 o) [(o.a, o.la)] o.d (BitVec.sshiftRight (s.rdS o.a) (shImm o.imm)) s

/-- R325: D ← 1 when A < SEXT(IMM24), signed, else 0. -/
def execSlti (h : Hdr) (o : RI) (s : State) : Result :=
  ccAlu h (packRI h 0x02 7 o) [(o.a, o.la)] o.d (boolW (BitVec.slt (s.rdS o.a) (sext o.imm))) s

/-- R325: D ← the low 64 bits of A × B. -/
def execMul (h : Hdr) (o : RR) (s : State) : Result :=
  ccAlu h (packRR h 0x03 0 o) [(o.a, o.la), (o.b, o.lb)] o.d ((s.rdS o.a) * (s.rdS o.b)) s

/-- R325: D ← the high 64 bits of the product, signed or with .n unsigned. -/
def execMulh (h : Hdr) (o : RR) (s : State) : Result :=
  ccAlu h (packRR h 0x03 1 o) [(o.a, o.la), (o.b, o.lb)] o.d (mulHigh (o.lat.getLsbD 2) (s.rdS o.a) (s.rdS o.b)) s

/-- R325, R326: D ← the quotient rounded toward zero; by zero all ones, and DIVZERO is set. -/
def execDiv (h : Hdr) (o : RR) (s : State) : Result :=
  ccDiv h (packRR h 0x03 2 o) [(o.a, o.la), (o.b, o.lb)] o.d (s.rdS o.b) (divOf (o.lat.getLsbD 2) (s.rdS o.a) (s.rdS o.b)) s

/-- R325, R326: D ← A − B × DIV(A, B); by zero A, and DIVZERO is set. -/
def execRem (h : Hdr) (o : RR) (s : State) : Result :=
  ccDiv h (packRR h 0x03 3 o) [(o.a, o.la), (o.b, o.lb)] o.d (s.rdS o.b) (remOf (o.lat.getLsbD 2) (s.rdS o.a) (s.rdS o.b)) s

/-- R325: D ← SEXT(IMM24). -/
def execMovi (h : Hdr) (o : RI) (s : State) : Result :=
  ccAlu h (packRI h 0x04 0 o) [] o.d (sext o.imm) s

/-- R325: D ← (A << 24) OR ZEXT(IMM24). -/
def execMovhi (h : Hdr) (o : RI) (s : State) : Result :=
  ccAlu h (packRI h 0x04 1 o) [(o.a, o.la)] o.d ((s.rdS o.a) <<< 24 ||| o.imm.setWidth 64) s

/-- R325: D ← PC + 8 × SEXT(IMM24). -/
def execMovpc (h : Hdr) (o : RI) (s : State) : Result :=
  ccAlu h (packRI h 0x04 2 o) [] o.d (s.me.pc + 8 * sext o.imm) s

/-- R325: D ← the leading zeros of A. -/
def execClz (h : Hdr) (o : RR) (s : State) : Result :=
  ccAlu h (packRR h 0x05 0 o) [(o.a, o.la)] o.d (BitVec.ofNat 64 (leadZeros (s.rdS o.a) 64)) s

/-- R325: D ← the trailing zeros of A. -/
def execCtz (h : Hdr) (o : RR) (s : State) : Result :=
  ccAlu h (packRR h 0x05 1 o) [(o.a, o.la)] o.d (BitVec.ofNat 64 (trailZeros (s.rdS o.a) 0 64)) s

/-- R325: D ← the ones of A. -/
def execPopc (h : Hdr) (o : RR) (s : State) : Result :=
  ccAlu h (packRR h 0x05 2 o) [(o.a, o.la)] o.d (BitVec.ofNat 64 (onesOf (s.rdS o.a) 64)) s

/-- R325: D ← A with bit i moved to 63 − i. -/
def execBrev (h : Hdr) (o : RR) (s : State) : Result :=
  ccAlu h (packRR h 0x05 3 o) [(o.a, o.la)] o.d (BitVec.reverse (s.rdS o.a)) s

/-- R325: D ← the field of A at B[5:0] of width MIN(C[6:0], 64 − B[5:0]). -/
def execBext (h : Hdr) (o : RR) (s : State) : Result :=
  ccAlu h (packRR h 0x05 4 o) [(o.a, o.la), (o.b, o.lb), (o.c, o.lc)] o.d (fieldOf (s.rdS o.a) (s.rdS o.b) (s.rdS o.c)) s

/-- R325: D with the field at B[5:0] of width MIN(C[6:0], 64 − B[5:0]) replaced by A. -/
def execBins (h : Hdr) (o : RR) (s : State) : Result :=
  ccAlu h (packRR h 0x05 5 o) [(o.a, o.la), (o.b, o.lb), (o.c, o.lc), (o.d, false)] o.d (insertField (s.rdS o.d) (s.rdS o.a) (s.rdS o.b) (s.rdS o.c)) s

/-- R325: D ← (C ≠ 0) ? A : B. -/
def execSel (h : Hdr) (o : RR) (s : State) : Result :=
  ccAlu h (packRR h 0x06 0 o) [(o.a, o.la), (o.b, o.lb), (o.c, o.lc)] o.d (if (s.rdS o.c) != 0 then (s.rdS o.a) else (s.rdS o.b)) s

/-- R325: D ← (A ≠ 0) ? 1 : 0. -/
def execCset (h : Hdr) (o : RR) (s : State) : Result :=
  ccAlu h (packRR h 0x06 1 o) [(o.a, o.la)] o.d (boolW ((s.rdS o.a) != 0)) s

end Sys2Proof.Machine
end

