-- ==== Sys2Proof/Machine/Ring.lean ====
section
/-! DEFINITION. The issue of a ring word by ACC, EXE, CPY or NET: guards and loops (R27, R178), outcome skips (R177), queue pops
(R176), the snapshot and ring bookkeeping of R170 and R367, and g registers with their bounds (R181 to R183). -/

namespace Sys2Proof.Machine

/-! ### Rings (R168, R170) -/

/-- The scratchpad address of a ring position. -/
def Ring.addr (r : Ring) (pos : BitVec 16) : Nat := r.base.toNat + 8 * (pos.toNat % 2 ^ r.size.toNat)
/-- Words between two pointers, modulo 65,536. -/
def ptrDiff (a b : BitVec 16) : Nat := (a - b).toNat
def Ring.freeWords (r : Ring) : Nat := 2 ^ r.size.toNat - ptrDiff r.tail r.ret
/-- The word at a ring position. -/
def Core.ringWord (c : Core) (eng : Eng) (pos : BitVec 16) : Word := bitsOf 64 (c.spadBytes ((c.eng eng).ring.addr pos) 8)

/-- The first position that a running loop still needs: the start of the outermost body. -/
def EngSt.loopFloor (x : EngSt) : Option (BitVec 16) := x.loops.getLast?.map (·.start)

/-- Advances RET over the contiguous run of slots no longer held: before HEAD, before a running loop's body, and without an
issued word kept in `iss` (R170). -/
def advanceRet (iss : List Iss) (stop : BitVec 16) (ret : BitVec 16) : Nat → BitVec 16
  | 0 => ret
  | n + 1 => if ret == stop || iss.any (·.pos == ret) then ret else advanceRet iss stop (ret + 1) n
/-- Drops issued words that have retired with the published horizon at or past their coordinate, and advances RET. `ooo` keeps those
at or behind HEAD, which an engine that issues out of ring order still needs to know (R421). -/
def EngSt.trim (x : EngSt) (ooo : Bool) (h : Word) (cut : Option Word) : EngSt :=
  let iss := x.iss.filter fun i =>
    !(i.retired && i.e.ule h && (match cut with | some c => i.e.ult c | none => true) && !(ooo && ptrDiff i.pos x.ring.head < 32768))
  let stop := match x.loopFloor with
    | some f => f
    | none => x.ring.head
  { x with iss := iss, ring := { x.ring with ret := advanceRet iss stop x.ring.ret (ptrDiff stop x.ring.ret) } }
/-- HEAD moves past words that have issued (R421); used by the engine that issues out of ring order. -/
def EngSt.passIssued (x : EngSt) : Nat → EngSt
  | 0 => x
  | f + 1 =>
    if x.ring.head != x.ring.tail && x.iss.any (·.pos == x.ring.head) then
      EngSt.passIssued { x with ring := { x.ring with head := x.ring.head + 1 } } f
    else x
def State.trimEng (s : State) (n : Nat) (eng : Eng) : State :=
  s.modCore n fun c => c.modEng eng fun x => x.trim (eng == .mtx) (s.horizonOf n) (s.cutOf n)

/-- The mapping of a rotating register (R27): `base` is the first rotating register, `size` how many rotate. -/
def rotReg (rot base size r : Nat) : Nat := if base ≤ r && r < base + size then base + (r - base + size - rot % size) % size else r

/-- Stage predicates of a loop in its iteration (R27): spj is true when j ≤ k < count + j. An SLOOP has one stage and no count: its sp0 is true in
every iteration (DEDUCED: no k reaches its count). -/
def Loop.sp (l : Loop) : BitVec 8 :=
  if l.sloop then 1 else BitVec.ofNat 8 (((List.range l.stages).filter fun j => j ≤ l.k && l.k < l.count + j).foldl (fun m j => m + 2 ^ j) 0)
/-- The iterations that a loop runs. -/
def Loop.total (l : Loop) : Nat := if l.count == 0 then 0 else l.count + l.epi
/-- The coordinate at iteration `k` of a bound loop (Table 11.2). -/
def Loop.crdAt (l : Loop) (cw : List Nat) (c : Word) (k : Nat) : Word := if l.lvl == 0 then c else lvlSet cw l.lvl c (l.lvl0 + k)

/-- HEAD after the word at `pos`: at the end of a body the next iteration starts, or the loop ends and its outer loop is tested. -/
def EngSt.goTo (cw : List Nat) (pos : BitVec 16) (x : EngSt) : List Loop → EngSt
  | [] => { x with loops := [], sp := 0, ring := { x.ring with head := pos } }
  | l :: ls =>
    if pos == l.start + BitVec.ofNat 16 l.len then
      let rot := if l.sloop then x.rot else x.rot + 1
      let again := if l.sloop then !l.eos else l.k + 1 < l.total
      if again then
        let l' := { l with k := l.k + 1 }
        { x with loops := l' :: ls, sp := l'.sp, rot := rot, crd := l.crdAt cw x.crd (l.k + 1), ring := { x.ring with head := l.start } }
      else EngSt.goTo cw pos { x with rot := rot, crd := l.crdAt cw x.crd l.total, loops := ls } ls
    else { x with loops := l :: ls, sp := l.sp, ring := { x.ring with head := pos } }
/-- HEAD past the present word. -/
def EngSt.next (cw : List Nat) (x : EngSt) : EngSt := EngSt.goTo cw (x.ring.head + 1) x x.loops

/-- Level widths of a core's launch. -/
def Core.cw (c : Core) : List Nat := match c.task with | some t => t.desc.cw | none => [0, 0, 0, 0, 0]

def EngSt.snap (x : EngSt) : Snap := { crd := x.crd, elast := x.elast, loops := x.loops, sp := x.sp, rot := x.rot, skip := x.skip }

/-! ### Queues (R176, R177) -/

/-- Queue `q`: 0 to 3 are dq0 to dq3, 4 and 5 are sq0 and sq1. -/
def Core.queue (c : Core) (q : Nat) : List QEnt := if q < 4 then c.dq.get [] q else c.sq.get [] (q - 4)
def Core.setQueue (c : Core) (q : Nat) (l : List QEnt) : Core :=
  if q < 4 then { c with dq := c.dq.set [] q l } else { c with sq := c.sq.set [] (q - 4) l }
def queueCap : Nat := 16
def Core.queueFull (c : Core) (q : Nat) : Bool := queueCap ≤ (c.queue q).length

/-- What a word's pops meet: a stall, an end-of-stream token, or the entries with what is left of the core's queues. -/
inductive Pops where
  | stall
  | eos
  | ok (es : List (Nat × QEnt)) (c : Core)
/-- Pops one entry from each named queue in order; an entry whose data has not landed stalls (R176). `eosOk` names the queue of an
SLOOP, whose pop may take an end-of-stream token (R179). -/
def popAll (eosOk : Option Nat) (c : Core) : List Nat → Pops
  | [] => .ok [] c
  | q :: qs =>
    match c.queue q with
    | [] => .stall
    | x :: t =>
      if !x.landed then .stall
      else if x.eos && eosOk != some q then .eos
      else
        let c' := c.setQueue q t
        let c' := if q < 4 then { c' with lastPop := c'.lastPop.set (0, 0) q (x.flags, x.fmt) } else c'
        match popAll eosOk c' qs with
        | .ok es c'' => .ok ((q, x) :: es) c''
        | r => r

/-! ### Issue of a ring word -/

/-- Passes over a word: a false guard or a skip (R27, R169, R177). -/
def State.passWord (s : State) (n : Nat) (eng : Eng) (skip : Nat) : State :=
  ((s.modCore n fun c => c.modEng eng fun x => EngSt.next c.cw { x with skip := skip }).trimEng n eng).retired n

/-- Whether a guard field lets a word act (R303). -/
def EngSt.guarded (x : EngSt) (q : BitVec 4) : Bool := q.getLsbD 3 && !x.sp.getLsbD (q.extractLsb' 0 3).toNat

/-- Marks an issued word retired and trims the ring (R170). -/
def State.retireIss (s : State) (n : Nat) (eng : Eng) (id : Nat) : State :=
  ((s.modCore n fun c => c.modEng eng fun x => { x with iss := x.iss.map fun i => if i.id == id then { i with retired := true } else i }).trimEng n eng).retired n

/-- The effect of issuing a ring word apart from its own: logs of HEAD and ELAST for a run-ahead engine (kinds 7 and 9), ELAST,
consumption, the record of R367. `c'` is the core with its pops made. -/
def State.ringIssue (s : State) (eng : Eng) (e : Word) (toks : List (Nat × Nat)) (ids : List Nat) (es : List (Nat × QEnt))
    (bits : List OBit) (c' : Core) : State :=
  let n := s.cur
  let x := c'.eng eng
  let lp := (s.core n).lastPop
  let s := s.setCore n c'
  let ahead := eng != .exe && eng != .mtx
  let s := if ahead then (s.log n { kind := 7, eng := BitVec.ofNat 3 eng.num, addr := BitVec.ofNat 48 eng.num, crd := e, old := x.ring.head.setWidth 256 }) else s
  let s := if ahead then s.raiseElast n eng e 0 else s.modCore n fun c => c.modEng eng fun y => { y with elast := e }
  let id := s.nextId
  let s : State := { s with nextId := id + 1 }
  (s.consume n eng e toks).modCore n fun c => c.modEng eng fun y =>
    { y with
        iss := y.iss ++ [{ pos := x.ring.head, e := e, pops := es, bits := bits, snap := { x.snap with lastPop := if eng == .exe then lp else [] }, id := id }],
        before := mergeIds y.before ids }

/-- HEAD past the word that has just issued. -/
def State.ringNext (s : State) (n : Nat) (eng : Eng) : State := s.modCore n fun c => c.modEng eng fun x => EngSt.next c.cw x

/-- The end of a stream (R179): the token is taken, and the word and the rest of the iteration pass; the loop then ends. -/
def State.endStream (s : State) (eng : Eng) (es : List (Nat × QEnt)) (c' : Core) : State :=
  let n := s.cur
  let x := c'.eng eng
  let id := s.nextId
  let e := (es.map (·.2.e)).foldl maxW x.elast
  let s : State := { s with nextId := id + 1 }
  (s.setCore n c').modCore n (fun c => c.modEng eng fun y =>
    match y.loops with
    | [] => y
    | l :: ls =>
      { y with iss := y.iss ++ [{ pos := x.ring.head, e := e, retired := true, pops := es, snap := x.snap, id := id }],
               loops := { l with eos := true } :: ls })
    |>.passWord n eng (((x.loops.head?.map fun l => ptrDiff (l.start + BitVec.ofNat 16 l.len) (x.ring.head + 1)).getD 0))

/-- Issues a ring word at HEAD. `guard` is its stage guard, `chk` what its own register and operand tests find at its coordinate (a
stall, a fault, or a wait that leaves the word unissued in a changed state),
`pops` the queues it pops, `bits` how many outcome bits it pops, `extra` a further coordinate it takes, and `body` its effect, from
its coordinate, its entries, its bits, its issue number and the state after issue. -/
def engWord (eng : Eng) (h : Hdr) (w : Word) (guard : BitVec 4) (chk : Word → Option Body) (pops : List Nat) (bits : Nat) (extra : Word)
    (body : Word → List QEnt → List OBit → Nat → State → Body) (s : State) : Result :=
  let n := s.cur
  let c := s.me
  let x := c.eng eng
  let pos := x.ring.head
  let wv := if h.wait == 0 then 0 else c.wset.get 0 h.wait.toNat
  let boq := if eng == .acc then c.boqX else c.boqA
  let bad (code : BitVec 8) (val e : Word) : Result := .next (s.raise n eng code val e true pos)
  let retire (s' : State) (e : Word) (id : Nat) : State :=
    ((s'.ringNext n eng).retireIss n eng id).signal n eng h.sig.toNat 1 e (s'.me.eng eng).before pos
  if 0 < x.skip then .next (s.passWord n eng (x.skip - 1))
  else if x.guarded guard then .next (s.passWord n eng 0)
  else if !waitOk wv then bad fIllegal w (maxW x.elast x.crd)
  else if !c.waitMet wv then .next s
  else
    match popAll (x.loops.head?.bind fun l => if l.sloop then some (4 + l.sq) else none) c pops with
    | .stall => .next s
    | .eos => bad fIllegal w (maxW x.elast x.crd)
    | .ok es c' =>
      if boq.length < bits then .next s
      else if es.any (·.2.eos) then .next (s.endStream eng es c') else
      let ob := boq.take bits
      let c' := if bits == 0 then c' else if eng == .acc then { c' with boqX := boq.drop bits } else { c' with boqA := boq.drop bits }
      let tag := (es.map (·.2.e) ++ ob.map (·.e)).foldl maxW (maxW (c.waitTag wv) extra)
      let e := maxW (maxW (maxW x.elast x.crd) (x.ring.pushE.get 0 (pos.toNat % 2 ^ x.ring.size.toNat))) tag
      if s.stopAtOrBelow n e || x.waitsStop then .next s
      else if c.watched e then .next (s.modCore n fun c => c.modEng eng fun y => { y with waitsStop := true })
      else
        match chk e with
        | some (.fault code val) => bad code val e
        | some (.wait s') => .next s'
        | some _ => .next s
        | none =>
          match body e (es.map (·.2)) ob s.nextId (s.ringIssue eng e (waitPresent wv) (c.waitIds wv) es ob c') with
          | .stall => .next s
          | .wait _ => .next s
          | .fault code val => bad code val e
          | .done s' => if s'.me.fits then .next (retire s' e s.nextId) else .next s
          | .quiet s' => if s'.me.fits then .next (s'.ringNext n eng) else .next s
          | .after s' code val => if s'.me.fits then .next ((retire s' e s.nextId).raise n eng code val e false pos) else .next s

/-! ### g registers (R181 to R183) -/

/-- The physical g register behind a name (R27). -/
def Core.gIdx (c : Core) (r : BitVec 6) : Nat := rotReg c.acc.rot 16 16 r.toNat
/-- The value an ACC word reads from a g register: free before its bound or after a last use. -/
def State.rdG (s : State) (r : BitVec 6) : Word :=
  let k := s.me.gIdx r
  if (s.me.deadG.get none k).isSome || s.cycle < s.me.gAvail.get 0 k then Config.freeWord (s.freeCtr + 64 + k) else s.me.g.get 0 k
/-- The stall or fault that reading g registers meets: a result not landed at its bound (R182), a register freed (R183). -/
def State.chkG (s : State) (w : Word) : List (BitVec 6) → Option Body
  | [] => none
  | r :: rs =>
    let k := s.me.gIdx r
    if 32 ≤ r.toNat then s.chkG w rs
    else if s.me.dbgReg.getLsbD 1 && (s.me.deadG.get none k).isSome then some (.fault fRegdead (r.setWidth 64))
    else if s.me.gWait.get false k && s.me.gAvail.get 0 k ≤ s.cycle then
      (if s.me.dbgReg.getLsbD 2 then some (.fault fLatShort w) else some .stall)
    else s.chkG w rs
/-- Bound codes (Table 1.8). -/
def latBound (c : BitVec 4) : Nat := [1, 2, 3, 4, 5, 6, 8, 10, 12, 16, 20, 24, 32, 48, 64, 96].getD c.toNat 1
/-- Writes a g register: logged under kind 8, readable from the end of its bound. -/
def State.wrG (s : State) (r : BitVec 6) (e v : Word) (lat : BitVec 4) : State :=
  let n := s.cur
  let k := s.me.gIdx r
  (s.log n { kind := 8, eng := 1, addr := BitVec.ofNat 48 k, crd := e, old := (s.me.g.get 0 k).setWidth 256 }).modCore n fun c =>
    { c with g := c.g.set 0 k v, deadG := c.deadG.set none k none, gAvail := c.gAvail.set 0 k (s.cycle + latBound lat), gWait := c.gWait.set false k false }
/-- Frees g registers read with their last-use bit. -/
def State.freeG (s : State) (e : Word) : List (BitVec 6 × Bool) → State
  | [] => s
  | (r, l) :: t =>
    (if l && r.toNat < 32 then s.modCore s.cur fun c => { c with deadG := c.deadG.set none (c.gIdx r) (some e) } else s).freeG e t

end Sys2Proof.Machine
end

