-- ==== Sys2Proof/Machine/ControlFlow.lean ====
section
/-! DEFINITION. Branches, coordinate words, CUT words, ring pushes and token words of the control core (R332 to R339). -/

namespace Sys2Proof.Machine

/-! ### Branches (R332) -/

/-- Moves the PC of the core that moves. -/
def State.jump (s : State) (t : Word) : State := s.modCore s.cur fun c => { c with pc := t, fetched := [] }
/-- A conditional branch to PC + 8 × OFF. -/
def ccBranch {k : Nat} (h : Hdr) (w : Word) (srcs : List (BitVec 6 × Bool)) (off : BitVec k) (cond : Bool) (s : State) : Result :=
  ccWord h w srcs [] (fun _ s' => .done (if cond then s'.jump (s.me.pc + 8 * sext off) else s')) s

/-- R332: branches if A = B. -/
def execBeq (h : Hdr) (o : BR) (s : State) : Result :=
  ccBranch h (packBR h 0x0C 0 o) [(o.a, o.la), (o.b, o.lb)] o.off (s.rdS o.a == s.rdS o.b) s
/-- R332: branches if A ≠ B. -/
def execBne (h : Hdr) (o : BR) (s : State) : Result :=
  ccBranch h (packBR h 0x0C 1 o) [(o.a, o.la), (o.b, o.lb)] o.off (s.rdS o.a != s.rdS o.b) s
/-- R332: branches if A < B, signed, or unsigned with FN[2]. -/
def execBlt (h : Hdr) (fx : BitVec 1) (o : BR) (s : State) : Result :=
  ccBranch h (packBR h 0x0C (fx ++ 2#2) o) [(o.a, o.la), (o.b, o.lb)] o.off (ltOf (fx == 1) (s.rdS o.a) (s.rdS o.b)) s
/-- R332: branches if A ≥ B, signed, or unsigned with FN[2]. -/
def execBge (h : Hdr) (fx : BitVec 1) (o : BR) (s : State) : Result :=
  ccBranch h (packBR h 0x0C (fx ++ 3#2) o) [(o.a, o.la), (o.b, o.lb)] o.off (!ltOf (fx == 1) (s.rdS o.a) (s.rdS o.b)) s
/-- R332: branches if A = 0. -/
def execBz (h : Hdr) (o : BR) (s : State) : Result := ccBranch h (packBR h 0x0D 0 o) [(o.a, false)] o.off (s.rdS o.a == 0) s
/-- R332: branches if A ≠ 0. -/
def execBnz (h : Hdr) (o : BR) (s : State) : Result := ccBranch h (packBR h 0x0D 1 o) [(o.a, false)] o.off (s.rdS o.a != 0) s
/-- R332: A ← A − 1, and a branch if the result is not zero (s0 reads zero after its discarded write). -/
def execDbnz (h : Hdr) (o : BR) (s : State) : Result :=
  ccWord h (packBR h 0x10 0 o) [(o.a, false)] [] (fun e s' =>
    let v := s.rdS o.a - 1
    let s' := s'.wrS o.a e v
    .done (if o.a != 0 && v != 0 then s'.jump (s.me.pc + 8 * sext o.off) else s')) s
/-- R332: jumps to PC + 8 × OFF38. -/
def execJmp (h : Hdr) (o : JM) (s : State) : Result := ccBranch h (packJM h 0x0E 0 o) [] o.off true s
/-- R332: s63 ← PC + 8, then jumps. -/
def execCall (h : Hdr) (o : JM) (s : State) : Result :=
  ccWord h (packJM h 0x0E 1 o) [] [] (fun e s' => .done ((s'.wrS 63 e (s.me.pc + 8)).jump (s.me.pc + 8 * sext o.off))) s
/-- A jump to a register; a target with bits [2:0] not zero raises ILLEGAL, before. -/
def ccJumpReg (h : Hdr) (w : Word) (srcs : List (BitVec 6 × Bool)) (t : Word) (link : Bool) (s : State) : Result :=
  ccWord h w srcs [] (fun e s' =>
    if t.toNat % 8 != 0 then .fault fIllegal w
    else .done ((if link then s'.wrS 63 e (s.me.pc + 8) else s').jump t)) s
/-- R332: PC ← A. -/
def execJr (h : Hdr) (o : RR) (s : State) : Result := ccJumpReg h (packRR h 0x0F 0 o) [(o.a, o.la)] (s.rdS o.a) false s
/-- R332: s63 ← PC + 8, then PC ← A, with A read first. -/
def execCallr (h : Hdr) (o : RR) (s : State) : Result := ccJumpReg h (packRR h 0x0F 1 o) [(o.a, o.la)] (s.rdS o.a) true s
/-- R332: PC ← s63. -/
def execRet (h : Hdr) (o : RR) (s : State) : Result := ccJumpReg h (packRR h 0x0F 2 o) [(63, false)] (s.rdS 63) false s

/-! ### The coordinate (R248, R333) -/

def syLvl (o : SY) : Nat := (o.imm.extractLsb' 0 3).toNat
def syAmt (o : SY) : Nat := (o.imm.extractLsb' 3 9).toNat
/-- Changes the control core's CRD, logged under kind 9 with its ELAST and CRD before the word, `was` (Table 11.4). -/
def State.setCcCrd (s : State) (was : EngSt) (e pc crd : Word) : State :=
  (s.log s.cur { kind := 9, crd := e, old := (was.crd ++ was.elast).setWidth 256, pc := pc }).modCore s.cur fun c => { c with cc := { c.cc with crd := crd } }
/-- A word that sets a level of CRD to `v`; ILLEGAL on a supervisor core, at a level of width 0, or past its width (Table 11.2). -/
def ccLevel (h : Hdr) (w : Word) (o : SY) (v : Nat) (s : State) : Result :=
  ccWord h w [(o.a, o.la)] [] (fun e s' =>
    let cw := s.me.cw
    if isSup s.cur || lvlWidth cw (syLvl o) == 0 || 2 ^ lvlWidth cw (syLvl o) ≤ v then .fault fIllegal w
    else .done (s'.setCcCrd s.me.cc e s.me.pc (lvlSet cw (syLvl o) s.me.cc.crd v))) s
/-- R333: level LVL ← A + AMT, the levels below it ← 0. -/
def execSetcl (h : Hdr) (o : SY) (s : State) : Result := ccLevel h (packSY h 0x11 0 o) o ((s.rdS o.a).toNat + syAmt o) s
/-- R333: level LVL ← level + A + AMT, the levels below it ← 0. -/
def execInccl (h : Hdr) (o : SY) (s : State) : Result :=
  ccLevel h (packSY h 0x11 1 o) o (lvlGet s.me.cw (syLvl o) s.me.cc.crd + (s.rdS o.a).toNat + syAmt o) s
/-- R333: CRD ← A; ILLEGAL when a bit below the last level is set. -/
def execSetcrd (h : Hdr) (o : SY) (s : State) : Result :=
  let w := packSY h 0x11 2 o
  ccWord h w [(o.a, o.la)] [] (fun e s' =>
    if isSup s.cur || belowLast s.me.cw (s.rdS o.a) then .fault fIllegal w else .done (s'.setCcCrd s.me.cc e s.me.pc (s.rdS o.a))) s
/-- R333: D ← CRD. -/
def execGetcrd (h : Hdr) (o : SY) (s : State) : Result :=
  let w := packSY h 0x11 3 o
  ccWord h w [] [] (fun e s' => if isSup s.cur then .fault fIllegal w else .done (s'.wrS o.d e s.me.cc.crd)) s
/-- R333: D ← level LVL of CRD. -/
def execGetcl (h : Hdr) (o : SY) (s : State) : Result :=
  let w := packSY h 0x11 4 o
  ccWord h w [] [] (fun e s' =>
    if isSup s.cur then .fault fIllegal w else .done (s'.wrS o.d e (BitVec.ofNat 64 (lvlGet s.me.cw (syLvl o) s.me.cc.crd)))) s

/-! ### Stops from a tile task (R261, R267, R268, R334) -/

/-- The stop status word (Table 11.8). -/
def stopWord (state : Nat) (result : BitVec 3) (r : StopReq) : Word :=
  BitVec.ofNat 64 (state + 4 * result.toNat + 32 * r.srck.toNat + 256 * r.core.toNat)
/-- The status word that CUTQ reads for a context: that of the requester accepted first. -/
def Ctx.stopStatus (c : Ctx) : Word :=
  match c.stop with
  | some st => stopWord 1 (if st.late then 1 else 0) (st.reqs.headD {})
  | none => stopWord (if c.st == .stopped then 2 else 0) c.result c.lastReq
/-- One CUTDONE event for each requester of a stop (R268). -/
def State.cutDone (s : State) (cid : BitVec 12) (inc : BitVec 10) (state : Nat) (result : BitVec 3) : List StopReq → State
  | [] => s
  | r :: rs =>
    (s.event 7 (s.ctx cid).pid cid inc r.queue (s.ctx cid).cuteff (stopWord state result r)).cutDone cid inc state result rs
/-- Engines of a context's cores stop waiting for a stop's acceptance (R263). -/
def Core.clearWaits (c : Core) : Core :=
  let f (x : EngSt) : EngSt := { x with waitsStop := false }
  { c with cc := f c.cc, acc := f c.acc, exe := f c.exe, mtx := f c.mtx, cpy := f c.cpy, net := f c.net }
/-- The cores that hold tile tasks of a context. -/
def State.coresOf (s : State) (cid : BitVec 12) : List Nat :=
  s.cores.filterMap fun (n, c) => match c.task with
    | some t => if t.cid == cid && !isSup n then some n else none
    | none => none
def State.modCores (s : State) (f : Core → Core) : List Nat → State
  | [] => s
  | n :: ns => (s.modCore n f).modCores f ns
/-- The launches that came while a stop was pending or in force count from now on (R107). -/
def State.unlate (s : State) (cid : BitVec 12) : State :=
  { s with launches := s.launches.map fun (k, l) => (k, l.map fun l => if l.cid == cid then { l with late := false } else l) }
/-- R267: a cancel removes a pending stop before step 3 begins; otherwise it reports NONE. -/
def State.cancelStop (s : State) (cid : BitVec 12) : State :=
  let c := s.ctx cid
  match c.stop with
  | some st =>
    if st.squashed then s else
    let s := s.setCtx cid { c with stop := none, result := 2, lastReq := st.reqs.headD {} }
    (s.unlate cid).modCores Core.clearWaits (s.coresOf cid) |>.cutDone cid c.inc 0 2 st.reqs
  | none => s.setCtx cid { c with result := 4 }

/-- R334: requests STOP(A); it retires when the horizon network has accepted the stop. -/
def execCut (h : Hdr) (o : SY) (s : State) : Result :=
  let w := packSY h 0x12 0 o
  ccWord h w [(o.a, o.la)] [] (fun e s' =>
    let cid := s.me.cid
    match s.me.ccWait with
    | some _ =>
      match (s.ctx cid).stop with
      | some st => if st.accepted then .done s' else .wait s'
      | none => .done s'
    | none =>
      let k := s.rdS o.a
      if isSup s.cur || belowLast s.me.cw k || k.ule e then .fault fIllegal w
      else .wait ((s'.requestStop cid k { srck := 1, core := BitVec.ofNat 8 s.cur } true).modCore s.cur fun c => { c with ccWait := some .cut })) s
/-- R334: D ← the stop status word, first cancelling this task's own pending CUT with .cancel. -/
def execCutq (h : Hdr) (o : SY) (s : State) : Result :=
  let w := packSY h 0x12 1 o
  ccWord h w [] [] (fun e s' =>
    if isSup s.cur then .fault fIllegal w else
    let cid := s.me.cid
    let own := match (s.ctx cid).stop with
      | some st => st.reqs.any fun r => r.srck == 1 && r.core == BitVec.ofNat 8 s.cur
      | none => true
    let s' := if o.imm.getLsbD 0 && own then s'.cancelStop cid else s'
    .done (s'.wrS o.d e (s'.ctx cid).stopStatus)) s
/-- R334: CUTW ← A, a system-register change (kind 4). -/
def execCutw (h : Hdr) (o : SY) (s : State) : Result :=
  let w := packSY h 0x12 2 o
  ccWord h w [(o.a, o.la)] [] (fun e s' =>
    if isSup s.cur then .fault fIllegal w
    else .done ((s'.log4 s.cur (0x800 + 0x023) e s.me.cutw).modCore s.cur fun c => { c with cutw := s.rdS o.a })) s

/-! ### Rings (R169, R322, R335, R336) -/

/-- Pushes one word at TAIL with the pushing word's coordinate; its slot is logged under kind 1, and the change of TAIL under kind 4. -/
def State.pushRing (s : State) (n : Nat) (eng : Eng) (e w : Word) : State :=
  let r := ((s.core n).eng eng).ring
  ((s.log4 n (0x4000 + eng.num) e (r.tail.setWidth 64)).spadWrite n .cc e (r.addr r.tail) (leBytes w.toNat 8)).modCore n fun c =>
    c.modEng eng fun x =>
      { x with ring := { x.ring with tail := r.tail + 1, pushE := x.ring.pushE.set 0 (r.tail.toNat % 2 ^ r.size.toNat) e } }
def State.ringFree (s : State) (n : Nat) (eng : Eng) : Nat := ((s.core n).eng eng).ring.freeWords
/-- Whether a number names an engine with a ring. -/
def ringEng (k : Nat) : Bool := 1 ≤ k && k ≤ 5
/-- A word that reaches a ring after TEND has issued is illegal (R106). -/
def Core.tendIssued (c : Core) : Bool := match c.task with | some t => t.tending | none => false

/-- R335: pushes A into the ring of engine B[2:0], stalling while it is full. -/
def execPushq (h : Hdr) (o : RR) (s : State) : Result :=
  let w := packRR h 0x13 0 o
  ccWord h w [(o.a, o.la), (o.b, o.lb)] [] (fun e s' =>
    let k := (s.rdS o.b).toNat % 8
    if !ringEng k || s.me.tendIssued then .fault fIllegal w
    else if s.ringFree s.cur (engOfNum k) == 0 then .stall
    else .done (s'.pushRing s.cur (engOfNum k) e (s.rdS o.a))) s
/-- R335: pushes A if there is space and writes 0 to D, else writes 1. -/
def execPushqn (h : Hdr) (o : RR) (s : State) : Result :=
  let w := packRR h 0x13 1 o
  ccWord h w [(o.a, o.la), (o.b, o.lb)] [] (fun e s' =>
    let k := (s.rdS o.b).toNat % 8
    if !ringEng k || s.me.tendIssued then .fault fIllegal w
    else if s.ringFree s.cur (engOfNum k) == 0 then .done (s'.wrS o.d e 1)
    else .done ((s'.pushRing s.cur (engOfNum k) e (s.rdS o.a)).wrS o.d e 0)) s

/-- Appends words while the ring has space; answers what is left. -/
def pushSome (n : Nat) (eng : Eng) (e : Word) : List Word → State → State × List Word
  | [], s => (s, [])
  | w :: ws, s => if s.ringFree n eng == 0 then (s, w :: ws) else pushSome n eng e ws (s.pushRing n eng e w)
/-- Appends a block as space frees; the word retires after the last one. -/
def ringcpyGo (n : Nat) (k : Nat) (e : Word) (ws : List Word) (s : State) : Body :=
  let (s', rest) := pushSome n (engOfNum k) e ws s
  if rest.isEmpty then .done s' else .wait (s'.modCore n fun c => { c with ccWait := some (.ringcpy rest k) })
/-- The words of a RINGCPY block, read as raw loads with the core's held store bytes; none where a check fails. -/
def State.blockWords (s : State) (addr : Word) : Nat → (List Word) ⊕ (BitVec 8 × Word)
  | 0 => .inl []
  | m + 1 =>
    if addr.toNat % 8 != 0 then .inr (fRawWindow, addr) else
    match s.coreKeys s.cur addr 8 .r with
    | .inr f => .inr (f, addr)
    | .inl ks =>
      if s.anyPoison ks then .inr (fEccUe, addr) else
      match s.blockWords (addr + 8) m with
      | .inr f => .inr f
      | .inl ws => .inl (bitsOf 64 (s.loadBytes s.cur addr ks 0) :: ws)
/-- The base and offset of a RINGCPY block (R336): PC when the A field is 0. -/
def ringcpyAddr (o : SY) (s : State) : Word :=
  (if o.a == 0 then s.me.pc else s.rdS o.a) + 8 * sext (o.d ++ (o.sel.extractLsb' 0 8 : BitVec 8))
/-- R336: appends n words read from memory to the ring of engine ENG. -/
def execRingcpy (h : Hdr) (o : SY) (s : State) : Result :=
  let w := packSY h 0x14 0 o
  let k := (o.sel.extractLsb' 8 3).toNat
  let len := o.imm.toNat + 1
  ccWord h w [(o.a, o.la)] [] (fun e s' =>
    match s.me.ccWait with
    | some (.ringcpy ws k) => ringcpyGo s.cur k e ws s'
    | _ =>
      if !ringEng k || s.me.tendIssued || 2 ^ (s.me.eng (engOfNum k)).ring.size.toNat < len then .fault fIllegal w else
      match s.blockWords (ringcpyAddr o s) len with
      | .inr (f, a) => .fault f a
      | .inl ws => if !s.clear s.me.barAll then .stall else ringcpyGo s.cur k e ws s') s

/-! ### Tokens, wait sets and JOIN (R337 to R339) -/

/-- R337: writes wait-set entry N from A; ILLEGAL when the entry breaks R172. -/
def execWset (h : Hdr) (o : SY) (s : State) : Result :=
  let w := packSY h 0x15 0 o
  ccWord h w [(o.a, o.la)] [] (fun e s' =>
    if !waitOk (s.rdS o.a) then .fault fIllegal w else
    .done ((s'.log4 s.cur (0x2000 + o.sel.toNat) e (s.me.wset.get 0 o.sel.toNat)).modCore s.cur fun c =>
      { c with wset := c.wset.set 0 o.sel.toNat (s.rdS o.a) })) s
/-- R338: adds IMM12 to a counter as a signal; past 0xFFFF the count stays there and TOK_OVF is raised. -/
def execTinc (h : Hdr) (o : SY) (s : State) : Result :=
  ccWord h (packSY h 0x16 0 o) [] [] (fun e s' =>
    .done (s'.signal s.cur .cc o.sel.toNat o.imm.toNat e s'.me.cc.before 0)) s
/-- R338: waits until a counter reaches IMM12, then subtracts it and takes the tag into e. -/
def execTdec (h : Hdr) (o : SY) (s : State) : Result :=
  ccWord h (packSY h 0x16 1 o) [] [(o.sel.toNat, o.imm.toNat)] (fun _ s' => .done s') s
/-- R338: D ← the count, or with .tag the tag. The word's own wait set has been consumed when it reads (R173). DEDUCED. -/
def execTrd (h : Hdr) (o : SY) (s : State) : Result :=
  ccWord h (packSY h 0x16 2 o) [] [] (fun e s' =>
    let t := s'.me.tok.get {} o.sel.toNat
    .done (s'.wrS o.d e (if o.imm.getLsbD 0 then t.tag else t.count.setWidth 64))) s
/-- R338: count ← A[15:0], tag ← e. -/
def execTset (h : Hdr) (o : SY) (s : State) : Result :=
  ccWord h (packSY h 0x16 3 o) [(o.a, o.la)] [] (fun e s' =>
    .done (s'.setTok s.cur .cc o.sel.toNat e { count := (s.rdS o.a).setWidth 16, tag := e, before := s'.me.cc.before })) s

/-- The word MARK without wait or signal. -/
def markWord : Word := packWord { wait := 0, sig := 0 } 0x7E 0
/-- Whether the word at a ring position has issued and retired. -/
def Core.retiredAt (c : Core) (eng : Eng) (pos : BitVec 16) : Bool :=
  let x := c.eng eng
  0 < ptrDiff x.ring.head pos && ptrDiff x.ring.head pos < 32768 && !x.iss.any fun i => i.pos == pos && !i.retired
/-- Pushes MARK into the rings named, in order, while there is space. -/
def pushMarks (n : Nat) (e : Word) : List Nat → List (Nat × BitVec 16) → State → State × List Nat × List (Nat × BitVec 16)
  | [], ms, s => (s, [], ms)
  | k :: ks, ms, s =>
    if s.ringFree n (engOfNum k) == 0 then (s, k :: ks, ms)
    else pushMarks n e ks (ms ++ [(k, ((s.core n).eng (engOfNum k)).ring.tail)]) (s.pushRing n (engOfNum k) e markWord)
/-- The accesses of joined engines become ordered before the core's later words (R226). -/
def Core.joinIds (c : Core) (ks : List Nat) : Core :=
  { c with cc := { c.cc with before := ks.foldl (fun m k => mergeIds m (c.eng (engOfNum k)).before) c.cc.before } }
/-- R339, R175: pushes MARK into each named ring and waits until each has retired. -/
def joinGo (n : Nat) (e : Word) (left : List Nat) (marks : List (Nat × BitVec 16)) (s : State) : Body :=
  let (s, left, marks) := pushMarks n e left marks s
  if left.isEmpty && marks.all (fun (k, p) => (s.core n).retiredAt (engOfNum k) p) then .done (s.modCore n fun c => c.joinIds (marks.map (·.1)))
  else .wait (s.modCore n fun c => { c with ccWait := some (.join left marks) })
/-- The engines of a JOIN mask, in bit order (R175). -/
def maskEngs (m : BitVec 12) : List Nat := ((List.range 5).filter fun i => m.getLsbD i).map (· + 1)
/-- R339, R175: the marker fence; an empty mask, or a core whose TEND has issued, raises ILLEGAL. -/
def execJoin (h : Hdr) (o : SY) (s : State) : Result :=
  ccWord h (packSY h 0x17 0 o) [] [] (fun e s' =>
    match s.me.ccWait with
    | some (.join left marks) => joinGo s.cur e left marks s'
    | _ => if s.me.tendIssued || (maskEngs o.imm).isEmpty then .fault fIllegal (packSY h 0x17 0 o) else joinGo s.cur e (maskEngs o.imm) [] s') s

end Sys2Proof.Machine
end

