-- ==== Sys2Proof/Machine/Tiles.lean ====
section
/-! DEFINITION. Tensor descriptors, the layout mapping, tile-table entries and their translation caches, frame pools, reference
counts and quarantine, copy on write and the phased-entry rules (R203 to R218, R233 to R235, R257). -/

namespace Sys2Proof.Machine

/-! ### Guest-physical numbers of a context -/

/-- A little-endian number at a guest-physical address of a context; 0 where stage two places nothing. -/
def State.gpaNum (s : State) (cid : BitVec 12) (gpa n : Nat) : Nat :=
  match s.stage2s (s.ctx cid).pid gpa n with
  | some ks => leNat (ks.map s.byte)
  | none => 0
def State.gpaPut (s : State) (cid : BitVec 12) (gpa n v : Nat) : State :=
  match s.stage2s (s.ctx cid).pid gpa n with
  | some ks => s.putCells (ks.zip (leBytes v n))
  | none => s

/-! ### Descriptors (R203, Table 9.4) -/

/-- The element bits of a format (Table 12.1). -/
def fmtBits (f : Nat) : Nat := [32, 16, 16, 8, 8, 4, 8, 16, 8, 16, 32, 64, 8, 16, 32, 64].getD f 8

structure TDesc where
  fmt : Nat := 0
  rank : Nat := 0
  order : List Nat := []
  dims : List Nat := []
  tsh : List Nat := []
  sbo : Nat := 0
  ttb : Nat := 0
  valid : Bool := false
  phased : Bool := false
  nodem : Bool := false
  noprom : Bool := false
  rdonly : Bool := false
  pools : List (BitVec 8) := []
  deriving DecidableEq, Repr, Inhabited

def TDesc.ofBits (x : BitVec 512) : TDesc :=
  { fmt := (x.extractLsb' 0 5).toNat, rank := (x.extractLsb' 5 3).toNat,
    order := (List.range 6).map fun k => (x.extractLsb' (8 + 3 * k) 3).toNat,
    dims := (List.range 6).map fun k => (x.extractLsb' (32 + 32 * k) 32).toNat,
    tsh := (List.range 6).map fun k => (x.extractLsb' (224 + 4 * k) 4).toNat,
    sbo := (x.extractLsb' 248 8).toNat, ttb := (x.extractLsb' 256 48).toNat, valid := x.getLsbD 304, phased := x.getLsbD 305,
    nodem := x.getLsbD 306, noprom := x.getLsbD 307, rdonly := x.getLsbD 308,
    pools := [x.extractLsb' 312 8, x.extractLsb' 320 8, x.extractLsb' 328 8] }

/-- The tile size S of R203 in bytes. -/
def TDesc.tileBytes (d : TDesc) : Nat := 2 ^ d.tsh.sum * fmtBits d.fmt / 8
/-- Frames of a run (R204). -/
def TDesc.run (d : TDesc) : Nat := if d.fmt == 5 then d.sbo + (d.tileBytes + 32767) / 32768 else d.tileBytes / 4096
/-- Whether a descriptor passes the checks of R203. -/
def tdOk (x : BitVec 512) : Bool :=
  let d := TDesc.ofBits x
  let low := List.range d.rank
  let high := (List.range 6).drop d.rank
  1 ≤ d.rank && d.rank ≤ 6 && d.fmt ≤ 15
    && high.all (fun k => d.dims.getD k 0 == 0 && d.tsh.getD k 0 == 0 && d.order.getD k 0 == 0) && low.all (fun k => d.dims.getD k 0 != 0)
    && low.all (fun k => (d.order.take d.rank).contains k)
    && 4096 ≤ d.tileBytes && d.tileBytes ≤ 262144
    && (if d.fmt == 5 then 5 ≤ d.tsh.getD (d.order.getD 0 0) 0 && d.tileBytes / 4096 ≤ d.sbo else d.sbo == 0)
    && d.ttb % 16 == 0
    && x.extractLsb' 26 6 == 0 && x.extractLsb' 309 3 == 0 && x.extractLsb' 336 176 == 0

/-- The bits of descriptor `t` as core `n` sees them for a word at `e`: memory, with the core's own held TDSET and TDINV applied at
or below that coordinate (R320). -/
def State.tdBits (s : State) (n : Nat) (e : Word) (t : BitVec 10) : BitVec 512 :=
  let c := s.core n
  let m : BitVec 512 := BitVec.ofNat 512 (s.gpaNum c.cid ((s.ctx c.cid).ttab.toNat + 64 * t.toNat) 64)
  (c.hold ++ s.flying.filter (·.core == n)).foldl (fun x h =>
    match h.act with
    | .tdset t' v => if t' == t && h.e.ule e then v else x
    | .tdinv t' => if t' == t && h.e.ule e then x &&& ~~~(1#512 <<< 304) else x
    | _ => x) m
/-- A valid descriptor, or none (TENSOR_BOUNDS). -/
def State.tdesc (s : State) (n : Nat) (e : Word) (t : BitVec 10) : Option TDesc :=
  let x := s.tdBits n e t
  if x.getLsbD 304 && tdOk x then some (TDesc.ofBits x) else none

/-- Extent in tiles of dimension `k`. -/
def TDesc.tilesOf (d : TDesc) (k : Nat) : Nat := (d.dims.getD k 0 + 2 ^ d.tsh.getD k 0 - 1) / 2 ^ d.tsh.getD k 0
/-- The number of tiles of a tensor (R341). -/
def TDesc.tiles (d : TDesc) : Nat := (List.range d.rank).foldl (fun m k => m * d.tilesOf k) 1
/-- R204: tile number and element offset of coordinates; none outside the tensor. -/
def TDesc.locate (d : TDesc) (x : List Nat) : Option (Nat × Nat) :=
  if !(List.range d.rank).all fun k => x.getD k 0 < d.dims.getD k 0 then none else
  let go := (List.range d.rank).foldl (fun (tn, o, tm, em) j =>
    let k := d.order.getD j 0
    let t := d.tsh.getD k 0
    (tn + tm * (x.getD k 0 / 2 ^ t), o + em * (x.getD k 0 % 2 ^ t), tm * d.tilesOf k, em * 2 ^ t)) (0, 0, 1, 1)
  some (go.1, go.2.1)

/-! ### Tile-table entries (R208, Table 9.5) -/

def entV (x : BitVec 128) : Bool := x.getLsbD 0
def entTier (x : BitVec 128) : BitVec 2 := x.extractLsb' 1 2
def entMig (x : BitVec 128) : Bool := x.getLsbD 3
def entCow (x : BitVec 128) : Bool := x.getLsbD 4
def entRo (x : BitVec 128) : Bool := x.getLsbD 5
def entSh (x : BitVec 128) : Bool := x.getLsbD 6
def entFrame (x : BitVec 128) : BitVec 36 := x.extractLsb' 8 36
def entShadow (x : BitVec 128) : BitVec 36 := x.extractLsb' 44 36
def entOwner (x : BitVec 128) : BitVec 8 := x.extractLsb' 80 8
def entSph (x : BitVec 128) : BitVec 16 := x.extractLsb' 88 16
def entIdx (x : BitVec 128) : BitVec 24 := x.extractLsb' 104 24
/-- An entry from its fields. -/
def mkEnt (v : Bool) (tier : BitVec 2) (mig cow ro sh : Bool) (frame shadow : BitVec 36) (owner : BitVec 8) (sph : BitVec 16) (idx : BitVec 24) :
    BitVec 128 :=
  idx ++ sph ++ owner ++ shadow ++ frame ++ (0#1) ++ BitVec.ofBool sh ++ BitVec.ofBool ro ++ BitVec.ofBool cow ++ BitVec.ofBool mig ++ tier ++
    BitVec.ofBool v
def entAbsent (x : BitVec 128) : Bool := !entV x || entTier x == 3
/-- An entry with some fields replaced. -/
def entWith (x : BitVec 128) (frame shadow : BitVec 36) (owner : BitVec 8) (sph : BitVec 16) (idx : BitVec 24) (tier : BitVec 2)
    (mig cow sh : Bool) : BitVec 128 :=
  mkEnt (entV x) tier mig cow (entRo x) sh frame shadow owner sph idx
def entSetCow (x : BitVec 128) (b : Bool) : BitVec 128 :=
  entWith x (entFrame x) (entShadow x) (entOwner x) (entSph x) (entIdx x) (entTier x) (entMig x) b (entSh x)
def entSetMig (x : BitVec 128) (b : Bool) : BitVec 128 :=
  entWith x (entFrame x) (entShadow x) (entOwner x) (entSph x) (entIdx x) (entTier x) b (entCow x) (entSh x)
/-- R208: what TTSET checks of an entry (with MIG and reserved bits 0); an absent one leaves FRAME, SHADOW, OWNER and SPH free. -/
def entOk (phased : Bool) (x : BitVec 128) : Bool :=
  !entMig x && !x.getLsbD 7 &&
    (if phased then !entSh x && !entCow x
     else entSh x == (entIdx x != 0) && (!entCow x || entSh x) && (entAbsent x || (entShadow x == 0 && entOwner x == 0 && entSph x == 0)))

/-- The address of a tile's entry. -/
def TDesc.entAddr (d : TDesc) (tile : Nat) : Nat := d.ttb + 16 * tile
/-- Whether the page that holds an entry may be used (R205): a valid HBM segment that is not being moved. -/
def State.pageOk (s : State) (cid : BitVec 12) (gpa : Nat) : Bool :=
  let p := s.part (s.ctx cid).pid
  let seg := gpa / 2 ^ 21
  let ent := s.segEntry p seg
  seg < p.segn && ent.getLsbD 0 && ent.extractLsb' 1 2 == 1 && !ent.getLsbD 3 && (s.stage2s (s.ctx cid).pid gpa 16).isSome
def State.entAt (s : State) (cid : BitVec 12) (gpa : Nat) : BitVec 128 := BitVec.ofNat 128 (s.gpaNum cid gpa 16)
/-- Drops a tile's translation from every cache of the context: the shootdown (R206). -/
def State.shootdown (s : State) (cid : BitVec 12) (tid : BitVec 10) (tile : Option Nat) : State :=
  { s with cores := s.cores.map fun (n, c) =>
      (n, { c with ttc := c.ttc.filter fun t => !(t.cid == cid && t.tid == tid && (match tile with | some k => t.tile == k | none => true)) }) }
/-- Writes an entry at its home, with shootdown (R206). -/
def State.putEnt (s : State) (cid : BitVec 12) (tid : BitVec 10) (tile gpa : Nat) (x : BitVec 128) : State :=
  (s.gpaPut cid gpa 16 x.toNat).shootdown cid tid (some tile)
/-- UPDATE_IF_SAME (R214). -/
def State.updateIfSame (s : State) (cid : BitVec 12) (tid : BitVec 10) (tile gpa : Nat) (old new : BitVec 128) : Bool × State :=
  if s.entAt cid gpa == old then (true, s.putEnt cid tid tile gpa new) else (false, s)

/-- The core's own held TTSET, applied to translations at or above its coordinate (R320). -/
def State.heldEnt (s : State) (n : Nat) (e : Word) (tid : BitVec 10) (tile : Nat) : Option (BitVec 128) :=
  ((s.core n).hold ++ s.flying.filter (·.core == n)).foldl (fun x h =>
    match h.act with
    | .ttset t k v => if t == tid && k == tile && h.e.ule e then some v else x
    | _ => x) none

/-- The translation that a core's cache holds (R205). -/
def Core.ttcHit (c : Core) (tid : BitVec 10) (tile : Nat) : Option TTCEnt :=
  c.ttc.find? fun t => t.cid == c.cid && t.inc == c.inc && t.tid == tid && t.tile == tile
/-- Whether a cached translation stands in the set of a tile. -/
def TTCEnt.inSet (t : TTCEnt) (tid : BitVec 10) (tile : Nat) : Bool := Config.ttcSet t.tid t.tile % 64 == Config.ttcSet tid tile % 64
/-- A translation joins the cache, in the order of use, the latest first: 64 sets of 8 ways, the least recently used of a full set replaced (R205). -/
def Core.ttcPut (c : Core) (t : TTCEnt) : Core :=
  let set := c.ttc.filter fun u => u.inSet t.tid t.tile
  { c with ttc := t :: if set.length < 8 then c.ttc else match set.getLast? with | some u => c.ttc.erase u | none => c.ttc }
/-- A translation through the core's cache (R205): a hit becomes the latest used; a miss reads the entry and fills. -/
def State.ttcRead (s : State) (n : Nat) (tid : BitVec 10) (tile gpa : Nat) : BitVec 128 × State :=
  let c := s.core n
  match c.ttcHit tid tile with
  | some t => (t.ent, s.modCore n fun c => { c with ttc := t :: c.ttc.erase t })
  | none =>
    let x := s.entAt c.cid gpa
    (x, s.modCore n fun c => c.ttcPut { cid := c.cid, inc := c.inc, tid := tid, tile := tile, ent := x })

/-- What translating one tile answers: frames from a run's first frame, an absent tile, a fault, or a wait. -/
inductive Tile where
  | run (frame : BitVec 36) (s : State)
  | absent (s : State)
  | fault (code : BitVec 8) (val : Word)
  | stall (s : State)
  | noframe (pool : Nat) (s : State)

/-- The value of NRES: tensor, then tile. -/
def nresVal (tid : BitVec 10) (tile : Nat) : Word := BitVec.ofNat 64 (tid.toNat + 2 ^ 10 * tile)

/-- The entry of a tile for core `n` at `e`; a miss in its cache first meets the page check of R205. -/
def State.entry (s : State) (n : Nat) (e : Word) (d : TDesc) (tid : BitVec 10) (tile : Nat) : Option (BitVec 128 × State) :=
  let gpa := d.entAddr tile
  if ((s.core n).ttcHit tid tile).isNone && !s.pageOk (s.core n).cid gpa then none else
  match s.heldEnt n e tid tile with
  | some x => some (x, s)
  | none => some (s.ttcRead n tid tile gpa)

/-- Logs the update of a phased entry made by a run-ahead engine (kind 3). -/
def State.log3 (s : State) (n : Nat) (eng : Eng) (e : Word) (gpa : Nat) (old : BitVec 128) (tid : BitVec 10) (tile : Nat) : State :=
  if eng == .mtx || eng == .exe then s else
  s.log n { kind := 3, eng := BitVec.ofNat 3 eng.num, addr := BitVec.ofNat 48 gpa, crd := e, old := (BitVec.ofNat 24 tile ++ tid ++ old).setWidth 256 }

/-- The flip of a phased entry (Table 10.4). -/
def entFlip (x : BitVec 128) : BitVec 128 := entWith x (entShadow x) (entFrame x) 0 0xFFFF 0 (entTier x) (entMig x) false false
/-- Whether a pending entry counts as of an earlier phase: an older epoch, or p > SPH (Table 10.4, R234). -/
def entOld (epoch : BitVec 24) (p : BitVec 16) (x : BitVec 128) : Bool := entIdx x != epoch || (entSph x).ult p
def phaseOf (e : Word) : BitVec 16 := e.extractLsb' 48 16

/-- Whether an operation is writing a tile under a translation that it keeps: an update of the entry by another waits for it (R206, R207). -/
def State.writing (s : State) (cid : BitVec 12) (tid : BitVec 10) (tile : Nat) : Bool :=
  let of (l : List TRun) : Bool := l.any fun r => r.wr && r.tid == tid && r.tile == tile
  s.flying.any (fun h => h.cid == cid && of h.runs) || s.cores.any fun x => x.2.cid == cid && x.2.cpyQ.any fun o => of o.runs
/-- The run that a read of a tile uses (Table 10.4, R218). -/
def State.readTile (s : State) (n : Nat) (eng : Eng) (e : Word) (d : TDesc) (tid : BitVec 10) (tile : Nat) : Tile :=
  let cid := (s.core n).cid
  let gpa := d.entAddr tile
  match s.entry n e d tid tile with
  | none => .fault fTtNode (BitVec.ofNat 64 gpa)
  | some (x, s) =>
    if entAbsent x then .absent s
    else if !d.phased || entSph x == 0xFFFF then .run (entFrame x) s
    else if entOld (s.ctx cid).epoch (phaseOf e) x then
      if s.writing cid tid tile then .stall s else
      match s.updateIfSame cid tid tile gpa x (entFlip x) with
      | (true, s') => .run (entShadow x) (s'.log3 n eng e gpa x tid tile)
      | (false, s') => .stall (s'.shootdown cid tid (some tile))
    else if entSph x == phaseOf e && (entOwner x).toNat == n then .run (entShadow x) s
    else .run (entFrame x) s

/-! ### Pools and quarantine (R209 to R212) -/

def State.poolAddr (s : State) (cid : BitVec 12) (p : Nat) : Nat := (s.ctx cid).poolt.toNat + 32 * p
/-- A pool entry's words (Table 9.6). -/
structure PoolEnt where
  head : Nat := 0
  rsv : Nat := 0
  tail : Nat := 0
  flist : Nat := 0
  lcap : Nat := 0
  run : Nat := 0
  tier : Nat := 0
  deriving DecidableEq, Repr, Inhabited
def State.poolEnt (s : State) (cid : BitVec 12) (p : Nat) : PoolEnt :=
  let v := s.gpaNum cid (s.poolAddr cid p) 32
  { head := v % 2 ^ 64, rsv := v / 2 ^ 64 % 2 ^ 64, tail := v / 2 ^ 128 % 2 ^ 64, flist := v / 2 ^ 192 % 2 ^ 48, lcap := v / 2 ^ 240 % 32,
    run := v / 2 ^ 245 % 128, tier := v / 2 ^ 252 % 4 }
/-- The key under which an issued word or a held entry, by its number, keeps its pool claims (R215). -/
def claimKey (id : Nat) : Nat := 16 + id
/-- A device POP (R210, R215): a kept claim of the operation `key` of core `n` is used first; a claim whose slot is not published
is kept, and the pool answers nothing. -/
def State.popPool (s : State) (n key : Nat) (cid : BitVec 12) (p : Nat) : Option Nat × State :=
  let q := s.poolEnt cid p
  let k := key * 256 + p
  let kept := (s.core n).claims.get [] k
  let (i, s) : Nat × State := match kept with
    | i :: _ => (i.toNat, s)
    | [] => (q.head, s.gpaPut cid (s.poolAddr cid p) 8 (q.head + 1))
  if q.tail ≤ i then (none, s.modCore n fun c => { c with claims := c.claims.set [] k [BitVec.ofNat 64 i] })
  else (some (s.gpaNum cid (q.flist + 8 * (i % 2 ^ q.lcap)) 8), s.modCore n fun c => { c with claims := c.claims.set [] k [] })
/-- RETURN (R210): possible when no other return is between its reservation and its publication. -/
def State.returnPool (s : State) (cid : BitVec 12) (p x : Nat) : Option State :=
  let q := s.poolEnt cid p
  if q.rsv != q.tail then none else
  let s := s.gpaPut cid (s.poolAddr cid p + 8) 8 (q.rsv + 1)
  let s := s.gpaPut cid (q.flist + 8 * (q.rsv % 2 ^ q.lcap)) 8 x
  some (s.gpaPut cid (s.poolAddr cid p + 16) 8 (q.tail + 1))

def State.rcAddr (s : State) (cid : BitVec 12) (i : BitVec 24) : Nat := (s.ctx cid).rca.toNat + 4 * i.toNat
def State.rc (s : State) (cid : BitVec 12) (i : BitVec 24) : Nat := s.gpaNum cid (s.rcAddr cid i) 4
def State.setRc (s : State) (cid : BitVec 12) (i : BitVec 24) (v : Nat) : State := s.gpaPut cid (s.rcAddr cid i) 4 v

def State.qCtl (s : State) (cid : BitVec 12) : Nat := (s.ctx cid).poolt.toNat + 0x2000
def State.qIn (s : State) (cid : BitVec 12) : Nat := s.gpaNum cid (s.qCtl cid) 8
def State.qOut (s : State) (cid : BitVec 12) : Nat := s.gpaNum cid (s.qCtl cid + 8) 8
/-- Whether `n` more records fit in the quarantine (R212). -/
def State.quarFits (s : State) (cid : BitVec 12) (n : Nat) : Bool := n == 0 || s.qIn cid - s.qOut cid + n ≤ 4096
/-- The phase under which a run is quarantined (R212). -/
def State.quarPhase (s : State) (cid : BitVec 12) (e : Word) : Nat :=
  Nat.max (phaseOf e).toNat (phaseOf (s.ctx cid).horiz).toNat
/-- Writes a quarantine record (R212). -/
def State.quarantine (s : State) (cid : BitVec 12) (e : Word) (frame : Option (BitVec 36)) (pool : BitVec 8) (idx : BitVec 24) : State :=
  let i := s.qIn cid
  let v := (frame.map (·.toNat)).getD 0 + 2 ^ 36 * pool.toNat + 2 ^ 44 * idx.toNat + (if frame.isSome then 2 ^ 68 else 0) + 2 ^ 80 * s.quarPhase cid e
  (s.gpaPut cid ((s.ctx cid).poolt.toNat + 0x2040 + 16 * (i % 4096)) 16 v).gpaPut cid (s.qCtl cid) 8 (i + 1)
/-- Releases records, oldest first, while their phase is passed or the context has no open launch (R212). -/
def State.quarRelease (s : State) (cid : BitVec 12) : Nat → State
  | 0 => s
  | n + 1 =>
    let o := s.qOut cid
    if s.qIn cid ≤ o then s else
    let v := s.gpaNum cid ((s.ctx cid).poolt.toNat + 0x2040 + 16 * (o % 4096)) 16
    let ph := v / 2 ^ 80 % 2 ^ 16
    let idx := v / 2 ^ 44 % 2 ^ 24
    if (phaseOf (s.ctx cid).horiz).toNat ≤ ph && !(s.openLaunches cid).isEmpty then s else
    let s1 := if v / 2 ^ 68 % 2 == 1 then s.returnPool cid (v / 2 ^ 36 % 256) (v % 2 ^ 36) else some s
    let s2 := s1.bind fun s => if idx != 0 then s.returnPool cid 255 idx else some s
    match s2 with
    | none => s
    | some s => (s.gpaPut cid (s.qCtl cid + 8) 8 (o + 1)).quarRelease cid n

/-- The pool that a descriptor names for a tier. -/
def TDesc.pool (d : TDesc) (tier : BitVec 2) : BitVec 8 := d.pools.getD tier.toNat 0
/-- The records that taking one user off a run adds. -/
def State.dropAdds (s : State) (cid : BitVec 12) (x : BitVec 128) : Nat := if entSh x && entIdx x != 0 && s.rc cid (entIdx x) != 1 then 0 else 1
/-- Takes one user off a run: its counter falls, and at zero the run and its index are quarantined (R211, R213). -/
def State.dropRun (s : State) (cid : BitVec 12) (e : Word) (x : BitVec 128) (pool : BitVec 8) : State :=
  if entSh x && entIdx x != 0 then
    let n := s.rc cid (entIdx x)
    let s := s.setRc cid (entIdx x) (n - 1)
    if n == 1 then s.quarantine cid e (some (entFrame x)) pool (entIdx x) else s
  else s.quarantine cid e (some (entFrame x)) pool 0

/-! ### Copies of runs -/

/-- Copies `n` bytes between guest-physical places, where both are mapped. -/
def State.copyGpa (s : State) (cid : BitVec 12) (src dst : Nat) : Nat → State
  | 0 => s
  | n + 1 =>
    let p := (s.ctx cid).pid
    (match s.stage2 p src, s.stage2 p dst with
     | some a, some b => s.setByte b (s.byte a)
     | _, _ => s).copyGpa cid (src + 1) (dst + 1) n
def frameAddr (f : BitVec 36) : Nat := 4096 * f.toNat
def State.copyRun (s : State) (cid : BitVec 12) (src dst : BitVec 36) (run : Nat) : State :=
  s.copyGpa cid (frameAddr src) (frameAddr dst) (4096 * run)
/-- Whether stage two places every page of a run (R199). -/
def State.runPlaced (s : State) (cid : BitVec 12) (f : BitVec 36) (run : Nat) : Bool :=
  (List.range run).all fun i => (s.stage2s (s.ctx cid).pid (frameAddr f + 4096 * i) 4096).isSome

/-- Clears the poison of the lines that a write covers whole (R149). -/
def State.cleanLines (s : State) (cells : List (Nat × Byte)) : State :=
  let ks := cells.map (·.1)
  { s with poison := s.poison.filter fun (l, _) => !((List.range 64).all fun i => ks.contains (64 * l + i)) }
/-- Bytes written at memory keys. -/
def State.writeBytes (s : State) (cells : List (Nat × Byte)) : State :=
  if s.poison.isEmpty then s.putCells cells else (s.putCells cells).cleanLines cells

/-- The number of the operation on whose fault an engine is parked: a released one, or the issued word at the slot. -/
def Core.parkedOp (c : Core) (eng : Eng) (p : Park) : Nat :=
  if p.op != 0 then p.op
  else if eng == .mtx then ((c.mx.ops.find? fun o => o.slot == p.slot).map (·.id)).getD 0
  else ((c.cpyQ.find? fun o => o.slot == p.slot).map (·.id)).getD 0
/-- Whether the cause of a parked COW_NOFRAME or of a paused NRES has gone by itself (R148, R149, R215): the slot of the operation's own claim is
published, or the tile is present. -/
def State.causeGone (s : State) (n : Nat) (eng : Eng) (p : Park) : Bool :=
  let c := s.core n
  if p.frec.code == fCowNoframe then
    let pool := p.frec.val.toNat
    match c.claims.get [] (claimKey (c.parkedOp eng p) * 256 + pool) with
    | i :: _ => i.toNat < (s.poolEnt c.cid pool).tail
    | [] => true
  else if p.frec.code == fNres then
    let tid : BitVec 10 := p.frec.val.setWidth 10
    match s.tdesc n p.frec.crd tid with
    | none => true
    | some d => !entAbsent (s.entAt c.cid (d.entAddr (p.frec.val.toNat / 2 ^ 10)))
  else false
/-- An engine parked on a fault whose cause has gone acts again. -/
def State.selfClear (s : State) (n : Nat) (eng : Eng) : State :=
  match ((s.core n).eng eng).park with
  | some p => if s.causeGone n eng p then s.modCore n fun c => c.modEng eng fun x => { x with park := none } else s
  | none => s

/-! ### Writes (R214, Table 9.8, Table 10.4, R235) -/

/-- Whether core `n` has a copy, fill or migration of a tile under way. -/
def State.tileBusy (s : State) (n : Nat) (cid : BitVec 12) (tid : BitVec 10) (tile : Nat) : Bool :=
  s.tileOps.any fun t => t.core == n && t.cid == cid && t.tid == tid && t.tile == tile
/-- Takes a frame from a pool and, where `idx` is set, an index from pool 255, for the operation `key` of core `n`; a frame taken while no index is to be had
is kept for it (R210, R215). -/
def State.popPair (s : State) (n key : Nat) (cid : BitVec 12) (pool : Nat) (idx : Bool) : (Nat × Nat × State) ⊕ (Nat × State) :=
  let kf := (key + 2 ^ 32) * 256 + pool
  let keep (s : State) (l : List Word) : State := s.modCore n fun c => { c with claims := c.claims.set [] kf l }
  let first : Option Nat × State :=
    match (s.core n).claims.get [] kf with
    | f :: _ => (some f.toNat, keep s [])
    | [] => s.popPool n key cid pool
  match first with
  | (none, s) => .inr (pool, s)
  | (some f, s) =>
    match if idx then s.popPool n key cid 255 else (some 0, s) with
    | (none, s) => .inr (255, keep s [BitVec.ofNat 64 f])
    | (some i, s) => .inl (f, i, s)

/-- Starts or resolves a copy on write (R214), each core for itself. `key` identifies the operation for its claims (R215). -/
def State.cow (s : State) (n key : Nat) (e : Word) (d : TDesc) (tid : BitVec 10) (tile : Nat) (x : BitVec 128) : Tile :=
  let cid := (s.core n).cid
  let gpa := d.entAddr tile
  if s.tileBusy n cid tid tile then .stall s
  else if entIdx x == 0 || s.rc cid (entIdx x) == 1 then
    match s.updateIfSame cid tid tile gpa x (entSetCow x false) with
    | (true, s) => .stall s
    | (false, s) => .stall (s.shootdown cid tid (some tile))
  else if !s.runPlaced cid (entFrame x) d.run then .fault fTtNode (BitVec.ofNat 64 gpa)
  else
    let pool := d.pool (entTier x)
    match s.popPair n key cid pool.toNat true with
    | .inr (p, s) => .noframe p s
    | .inl (f, i, s) =>
      let s := s.setRc cid (BitVec.ofNat 24 i) 1
      let op : TileOp := { kind := 0, core := n, cid := cid, inc := (s.ctx cid).inc, tid := tid, tile := tile, ent := x, pool := pool, toPool := pool,
                           entAddr := BitVec.ofNat 64 gpa, frame := BitVec.ofNat 36 f, idx := BitVec.ofNat 24 i, run := d.run, e := e }
      .stall { s with tileOps := s.tileOps ++ [op] }

/-- The run that a write of a tile uses, with what must happen before it (R208, R214, R217, Table 10.4). `full` marks a write that
alone covers the whole run (R235). -/
def State.writeTile (s : State) (n key : Nat) (eng : Eng) (e : Word) (d : TDesc) (tid : BitVec 10) (tile : Nat) (full : Bool) : Tile :=
  let cid := (s.core n).cid
  let gpa := d.entAddr tile
  let p := phaseOf e
  match s.entry n e d tid tile with
  | none => .fault fTtNode (BitVec.ofNat 64 gpa)
  | some (x, s) =>
    let start (s : State) (x : BitVec 128) : Tile :=
      let x' := entWith x (entFrame x) (entShadow x) (BitVec.ofNat 8 n) p (s.ctx cid).epoch (entTier x) (entMig x) false false
      if full then
        match s.updateIfSame cid tid tile gpa x x' with
        | (true, s') => .run (entShadow x) (s'.log3 n eng e gpa x tid tile)
        | (false, s') => .stall (s'.shootdown cid tid (some tile))
      else if s.tileBusy n cid tid tile then .stall s
      else if !s.runPlaced cid (entFrame x) d.run || !s.runPlaced cid (entShadow x) d.run then .fault fTtNode (BitVec.ofNat 64 gpa)
      else
        let op : TileOp := { kind := 1, core := n, cid := cid, inc := (s.ctx cid).inc, tid := tid, tile := tile, ent := x, phase := p, epoch := (s.ctx cid).epoch,
                             entAddr := BitVec.ofNat 64 gpa, run := d.run, e := e, frame := entShadow x, idx := BitVec.ofNat 24 eng.num }
        .stall { s with tileOps := s.tileOps ++ [op] }
    if entAbsent x then .absent s
    else if entRo x || d.rdonly then .fault fTensorBounds (tid.setWidth 64)
    else if entMig x then .stall (s.shootdown cid tid (some tile))
    else if !d.phased then (if entCow x then s.cow n key e d tid tile x else .run (entFrame x) s)
    else if p == 0xFFFF then .fault fPhaseConflict (BitVec.ofNat 64 tile)
    else if entSph x == 0xFFFF then start s x
    else if entOld (s.ctx cid).epoch p x then
      if s.writing cid tid tile then .stall s else
      match s.updateIfSame cid tid tile gpa x (entFlip x) with
      | (true, s') => start (s'.log3 n eng e gpa x tid tile) (entFlip x)
      | (false, s') => .stall (s'.shootdown cid tid (some tile))
    else if entSph x == p && (entOwner x).toNat == n then .run (entShadow x) s
    else .fault fPhaseConflict (BitVec.ofNat 64 tile)

/-- Merges a byte under a mask. -/
def mergeByte (old v mask : Byte) : Byte := (old &&& ~~~mask) ||| (v &&& mask)
/-- The keys of cells in resolved runs; none where stage two does not place a frame (R199). -/
def State.cellKeys (s : State) (cid : BitVec 12) (runs : List (Nat × BitVec 36)) : List TCell → Option (List (Nat × Byte))
  | [] => some []
  | c :: cs => do
    let f ← (runs.find? fun (r : Nat × BitVec 36) => r.1 == c.tile).map (·.2)
    let k ← s.stage2 (s.ctx cid).pid (frameAddr f + c.off)
    let t ← s.cellKeys cid runs cs
    pure ((k, c.v) :: t)
/-- Writes a byte of a run. -/
def State.putRunByte (s : State) (cid : BitVec 12) (frame : BitVec 36) (c : TCell) : State :=
  match s.stage2 (s.ctx cid).pid (frameAddr frame + c.off) with
  | none => s
  | some k => s.setByte k (mergeByte (s.byte k) c.v c.mask)
/-- The bytes of a granule that are among some addresses. -/
def granMask (as : List Nat) (g : Nat) : BitVec 32 := as.foldl (fun m a => if a / 32 == g then m ||| BitVec.ofNat 32 (2 ^ (a % 32)) else m) 0
/-- Entries of kind 2 for a write of bytes at guest-physical addresses: one for each granule, with the bytes that the write names (R257). -/
def State.logCells (s : State) (n : Nat) (eng : Eng) (e : Word) (as : List Nat) : List Nat → State
  | [] => s
  | g :: gs =>
    (s.log n { kind := 2, eng := BitVec.ofNat 3 eng.num, mask := granMask as g, addr := BitVec.ofNat 48 (32 * g), crd := e,
               old := BitVec.ofNat 256 (s.gpaNum (s.core n).cid (32 * g) 32) }).logCells n eng e as gs

/-- The tiles that a list of cells touches, without repeats. -/
def tilesOf (cs : List TCell) : List Nat := cs.foldl (fun m c => if m.contains c.tile then m else m ++ [c.tile]) []

/-- Resolves every tile of a write in turn; the runs found, or the first obstacle. -/
def State.writeTiles (s : State) (n key : Nat) (eng : Eng) (e : Word) (d : TDesc) (tid : BitVec 10) (full : Nat → Bool) :
    List Nat → List (Nat × BitVec 36) → Tile ⊕ (State × List (Nat × BitVec 36))
  | [], acc => .inr (s, acc)
  | t :: ts, acc =>
    match s.writeTile n key eng e d tid t (full t) with
    | .run f s => s.writeTiles n key eng e d tid full ts (acc ++ [(t, f)])
    | r => .inl r
/-- The guest-physical addresses of cells in resolved runs. -/
def cellGpas (runs : List (Nat × BitVec 36)) (cs : List TCell) : List Nat :=
  cs.filterMap fun c => (runs.find? fun (r : Nat × BitVec 36) => r.1 == c.tile).map fun r => frameAddr r.2 + c.off
/-- Writes cells into resolved runs. -/
def State.putRuns (s : State) (cid : BitVec 12) (runs : List (Nat × BitVec 36)) : List TCell → State
  | [] => s
  | c :: cs =>
    (match runs.find? (fun (r : Nat × BitVec 36) => r.1 == c.tile) with
     | some r => s.putRunByte cid r.2 c
     | none => s).putRuns cid runs cs
/-- A write of cells into resolved runs; a phased write of a run-ahead engine above the horizon is logged first. -/
def State.putCellsIn (s : State) (n : Nat) (eng : Eng) (e : Word) (phased : Bool) (runs : List (Nat × BitVec 36)) (cs : List TCell) : State :=
  let as := cellGpas runs cs
  (if phased && eng != .mtx && eng != .exe then s.logCells n eng e as (as.map (· / 32)).eraseDups else s).putRuns (s.core n).cid runs cs

/-- Whether cells cover the whole run of a tile (R235). -/
def coversRun (d : TDesc) (cs : List TCell) (t : Nat) : Bool :=
  let os := (cs.filter fun c => c.tile == t && c.mask == 0xFF).map (·.off)
  decide (4096 * d.run ≤ os.length) && decide (4096 * d.run ≤ os.eraseDups.length)

/-- What a write of cells to a tensor answers at issue: phased cells are written to the shadow at once (R257), unphased cells are
left for the egress hold after the tests that do not wait. -/
inductive TWrite where
  | held (s : State)
  | done (s : State)
  | absent (tile : Nat)
  | fault (code : BitVec 8) (val : Word)
  | stall (s : State)

/-- The tests of an unphased write at issue (R218, R369): page, absence and RO of each tile. -/
def State.precheckTiles (s : State) (n : Nat) (e : Word) (d : TDesc) (tid : BitVec 10) : List Nat → TWrite
  | [] => .held s
  | t :: ts =>
    match s.entry n e d tid t with
    | none => .fault fTtNode (BitVec.ofNat 64 (d.entAddr t))
    | some (x, s) =>
      if entAbsent x then .absent t
      else if entRo x || d.rdonly then .fault fTensorBounds (tid.setWidth 64)
      else s.precheckTiles n e d tid ts

/-- Whether the accesses of an engine's next word must still wait for what acquires and fences that lead to it name (R226, R228, R230). -/
def Core.barOn (c : Core) (eng : Eng) : List Nat := c.barOf (c.eng eng).before
/-- Whether an access of ACC or MTX at some granules must wait for an earlier write of its engine that has been released and not performed (R224): cells of a
tensor, or bytes at keys. A write still held is not waited for (R260). -/
def State.ownWrite (s : State) (n : Nat) (eng : Eng) (tid : BitVec 10) (cs : List (Nat × Nat)) (ks : List Nat) : Bool :=
  (s.releasedOf n).any fun h => h.eng == eng && match h.act with
    | .twrite t ws => t == tid && ws.any fun w => cs.any fun c => w.tile == c.1 && w.off / 32 == c.2 / 32
    | .bytes b => b.any fun w => ks.any fun k => w.1 / 32 == k / 32
    | _ => false
/-- Whether a load of ACC has still to read some granules (R224): loads numbered below `id`. -/
def Core.unlanded (c : Core) (id : Nat) (ks : List Nat) : Bool :=
  let due := c.landQ.filterMap fun l => if l.id < id then l.queue.bind fun q => (c.queue q.1).find? fun x => x.id == l.id else none
  due.any fun x => x.src.any fun b => b.any fun b => ks.any fun k => k / 32 == b.1 / 32

/-- A write of ACC to a tensor at issue. A phased one waits for the earlier loads of its engine, and for acquires and fences (R224, R228). -/
def State.tensorWrite (s : State) (n : Nat) (eng : Eng) (e : Word) (d : TDesc) (tid : BitVec 10) (cs : List TCell) : TWrite :=
  if d.rdonly then .fault fTensorBounds (tid.setWidth 64)
  else if d.phased then
    if !s.clear ((s.core n).barOn eng) then .stall s else
    match s.writeTiles n eng.num eng e d tid (coversRun d cs) (tilesOf cs) [] with
    | .inr (s, runs) =>
      match s.cellKeys (s.core n).cid runs cs with
      | none => .fault fTtNode (BitVec.ofNat 64 (d.entAddr ((tilesOf cs).headD 0)))
      | some ks => if (s.core n).unlanded s.nextId (ks.map (·.1)) then .stall s else .done (s.putCellsIn n eng e true runs cs)
    | .inl (.run _ s) => .stall s
    | .inl (.absent s) => .absent (((tilesOf cs).find? fun t => match s.entry n e d tid t with | some (x, _) => entAbsent x | none => false).getD 0)
    | .inl (.fault c v) => .fault c v
    | .inl (.stall s) => .stall s
    | .inl (.noframe _ s) => .stall s
  else s.precheckTiles n e d tid (tilesOf cs)

end Sys2Proof.Machine
end

