-- ==== Sys2Proof/Machine/ControlTensor.lean ====
section
/-! DEFINITION. Tensor-descriptor and tile-table words, page requests, circular-buffer words and the cache words of the control
core (R340 to R342, R346 to R348, R353, R166, R189, R219). -/

namespace Sys2Proof.Machine

/-! ### Scratchpad operands of the control core -/

/-- With DEBUG.PENDTRAP, the first address of a range that lies in a pending granule (R187). A pending bit holds the cycle after
which it clears, or past 2^40 the copy or network word that clears it. -/
def Core.pendingAt (c : Core) (now a len : Nat) : Option Nat :=
  if !c.dbgReg.getLsbD 0 then none else
  ((List.range ((a + len + 31) / 32 - a / 32)).map fun i => 32 * (a / 32 + i)).find? fun g =>
    let v := c.pendBits.get 0 (g / 32)
    v != 0 && (2 ^ 40 ≤ v || now < v)
/-- Sets the pending bits of a range with DEBUG.PENDTRAP (R187): `v` is the cycle at which they clear, or a word's mark. -/
def State.setPend (s : State) (n a len v : Nat) : State :=
  if !(s.core n).dbgReg.getLsbD 0 || len == 0 then s else
  s.modCore n fun c =>
    { c with pendBits := ((List.range ((a + len + 31) / 32 - a / 32)).map fun i => a / 32 + i).foldl (fun m g => m.set 0 g v) c.pendBits }
/-- The mark under which an issued copy word holds its granules pending. -/
def pendMark (id : Nat) : Nat := 2 ^ 40 + id
/-- The fault of a scratchpad operand of `len` bytes aligned to `al`: SPAD_RANGE, with the address or the first one past the program area
(R185, R186), or SPAD_PENDING for a read. -/
def State.spadChk (s : State) (a : Word) (len al : Nat) (read : Bool) : Option Body :=
  if a.toNat % al != 0 then some (.fault fSpadRange a) else
  if spadEnd < a.toNat + len then some (.fault fSpadRange (BitVec.ofNat 64 (Nat.max a.toNat spadEnd))) else
  match if read then s.me.pendingAt s.cycle a.toNat len else none with
  | some g => some (.fault fSpadPending (BitVec.ofNat 64 g))
  | none => none

/-! ### Descriptors (R340) -/

/-- R340: checks 64 B of scratchpad under R203 and holds the write of descriptor t. -/
def execTdset (h : Hdr) (o : SY) (s : State) : Result :=
  let w := packSY h 0x18 0 o
  ccWord h w [(o.a, o.la)] [] (fun e s' =>
    let a := s.rdS o.a
    match s.spadChk a 64 64 true with
    | some b => b
    | none =>
      let x : BitVec 512 := bitsOf 512 (s.me.spadBytes a.toNat 64)
      if !tdOk x then .fault fIllegal w else .done (s'.ccHold e w 0 (.tdset (o.sel.setWidth 10) x) none none)) s
/-- R340: writes descriptor t, with R320 applied, to scratchpad. -/
def execTdrd (h : Hdr) (o : SY) (s : State) : Result :=
  let w := packSY h 0x18 1 o
  ccWord h w [(o.a, o.la)] [] (fun e s' =>
    let a := s.rdS o.a
    match s.spadChk a 64 64 false with
    | some b => b
    | none => .done (s'.spadWrite s.cur .cc e a.toNat (leBytes (s.tdBits s.cur e (o.sel.setWidth 10)).toNat 64))) s
/-- R340: holds the clearing of VALID. -/
def execTdinv (h : Hdr) (o : SY) (s : State) : Result :=
  let w := packSY h 0x18 2 o
  ccWord h w [] [] (fun e s' => .done (s'.ccHold e w 0 (.tdinv (o.sel.setWidth 10)) none none)) s

/-! ### Tile-table entries (R341) -/

def syTid (o : SY) : BitVec 10 := o.sel.setWidth 10
/-- The tests common to the tile-table words: a valid descriptor and a tile number inside it. -/
def State.tileChk (s : State) (e : Word) (tid : BitVec 10) (tile : Word) : TDesc ⊕ Body :=
  match s.tdesc s.cur e tid with
  | none => .inr (.fault fTensorBounds (tid.setWidth 64))
  | some d => if d.tiles ≤ tile.toNat then .inr (.fault fTensorBounds (tid.setWidth 64)) else .inl d
/-- The stage-two kind of a guest-physical address, 3 when none is mapped. -/
def State.segKind (s : State) (cid : BitVec 12) (gpa : Nat) : Nat :=
  let p := s.part (s.ctx cid).pid
  let ent := s.segEntry p (gpa / 2 ^ 21)
  if gpa / 2 ^ 21 < p.segn && ent.getLsbD 0 then (ent.extractLsb' 1 2).toNat else 3
/-- R208: TIER of a present entry names the stage-two kind of FRAME. -/
def State.tierOk (s : State) (cid : BitVec 12) (x : BitVec 128) : Bool :=
  entAbsent x || s.segKind cid (frameAddr (entFrame x)) == (entTier x).toNat

/-- R341: writes the entry, with R320 applied, to scratchpad. -/
def execTtrd (h : Hdr) (o : SY) (s : State) : Result :=
  ccWord h (packSY h 0x25 0 o) [(o.a, o.la), (o.d, false)] [] (fun e s' =>
    match s.tileChk e (syTid o) (s.rdS o.a) with
    | .inr b => b
    | .inl d =>
      match s.spadChk (s.rdS o.d) 16 16 false with
      | some b => b
      | none =>
        match s'.entry s.cur e d (syTid o) (s.rdS o.a).toNat with
        | none => .fault fTtNode (BitVec.ofNat 64 (d.entAddr (s.rdS o.a).toNat))
        | some (x, s') => .done (s'.spadWrite s.cur .cc e (s.rdS o.d).toNat (leBytes x.toNat 16))) s
/-- R341: checks an entry in scratchpad under R208 and holds the entry's update. -/
def execTtset (h : Hdr) (o : SY) (s : State) : Result :=
  let w := packSY h 0x25 1 o
  ccWord h w [(o.a, o.la), (o.d, false)] [] (fun e s' =>
    match s.tileChk e (syTid o) (s.rdS o.a) with
    | .inr b => b
    | .inl d =>
      match s.spadChk (s.rdS o.d) 16 16 true with
      | some b => b
      | none =>
        let x : BitVec 128 := bitsOf 128 (s.me.spadBytes (s.rdS o.d).toNat 16)
        if !entOk d.phased x || !s.tierOk s.me.cid x then .fault fIllegal w
        else .done (s'.ccHold e w 0 (.ttset (syTid o) (s.rdS o.a).toNat x) none none)) s
/-- A held tile-table word that names only a tile. -/
def ccTileHold (h : Hdr) (w : Word) (o : SY) (a : BitVec 10 → Nat → Act) (s : State) : Result :=
  ccWord h w [(o.a, o.la)] [] (fun e s' =>
    match s.tileChk e (syTid o) (s.rdS o.a) with
    | .inr b => b
    | .inl _ => .done (s'.ccHold e w 0 (a (syTid o) (s.rdS o.a).toNat) none none)) s
/-- R341: holds an increment of the tile's counter. -/
def execTtref (h : Hdr) (o : SY) (s : State) : Result := ccTileHold h (packSY h 0x25 2 o) o .ttref s
/-- R341: holds the zeroing of an entry and the release of its run. -/
def execTtunref (h : Hdr) (o : SY) (s : State) : Result := ccTileHold h (packSY h 0x25 3 o) o .ttunref s

/-! ### Page requests (R219, R342) -/

/-- Posts a page request: merged with an equal one, dropped and counted when 256 are queued, else queued with the WFE woken. -/
def State.postPage (s : State) (n : Nat) (e : Word) (tid : BitVec 10) (tile : Nat) : State :=
  let c := s.core n
  let r : PgRec := { cid := c.cid, inc := c.inc, tid := tid, tile := BitVec.ofNat 24 tile, crd := e, gts := s.gts, src := s.src n }
  if s.pgq.any fun q => q.cid == r.cid && q.inc == r.inc && q.tid == r.tid && q.tile == r.tile then s
  else if 256 ≤ s.pgq.length then { s with pgdrop := if s.pgdrop == BitVec.allOnes 64 then s.pgdrop else s.pgdrop + 1 }
  else ({ s with pgq := s.pgq ++ [r] } : State).wake 2
/-- The s registers of a coordinate base. -/
def sBase (g : BitVec 6) (rank : Nat) : List (BitVec 6) := (List.range rank).map fun i => g + BitVec.ofNat 6 i
/-- R342: posts a page request at issue. -/
def execPgreq (h : Hdr) (o : TN) (s : State) : Result :=
  let rank := ((s.tdesc s.cur (ccE s 0) o.tid).map (·.rank)).getD 0
  let rank := if 64 < o.g.toNat + rank then 0 else rank
  ccWord h (packTN h 0x26 0 o) ((sBase o.g rank).map fun r => (r, false)) [] (fun e s' =>
    match s.tdesc s.cur e o.tid with
    | none => .fault fTensorBounds (o.tid.setWidth 64)
    | some d =>
      if 64 < o.g.toNat + d.rank then .fault fTensorBounds (o.tid.setWidth 64) else
      match d.locate ((sBase o.g d.rank).map fun r => (s.rdS r).toNat) with
      | none => .fault fTensorBounds (o.tid.setWidth 64)
      | some (tile, _) => .done (s'.postPage s.cur e o.tid tile)) s

/-! ### Circular buffers (R189, R353) -/

def cbBase (w : Word) : Nat := (w.extractLsb' 0 19).toNat
def cbSlotBytes (w : Word) : Nat := 32 * ((w.extractLsb' 19 11).toNat + 1)
def cbSlots (w : Word) : Nat := (w.extractLsb' 30 8).toNat + 1
/-- R353: D ← a word of a buffer's state; ILLEGAL before its CBRST. -/
def execCbstat (h : Hdr) (o : SY) (s : State) : Result :=
  let w := packSY h 0x24 0 o
  ccWord h w [] [] (fun e s' =>
    match s.me.cbs.get none o.sel.toNat with
    | none => .fault fIllegal w
    | some b => .done (s'.wrS o.d e (if o.imm == 0 then b.w0 else if o.imm == 1 then cbWord1 b else b.tag))) s
/-- R353: defines a buffer and empties it; logged under kinds 4 and 6. -/
def execCbrst (h : Hdr) (o : SY) (s : State) : Result :=
  let w := packSY h 0x24 1 o
  ccWord h w [(o.a, o.la)] [] (fun e s' =>
    let a := s.rdS o.a
    if a.extractLsb' 38 26 != 0 || cbBase a % 32 != 0 || spadEnd < cbBase a + cbSlotBytes a * cbSlots a then .fault fIllegal w else
    let n := s.cur
    let old := ((s.me.cbs.get none o.sel.toNat).map (·.w0)).getD 0
    .done ((s'.log4 n (0x3000 + o.sel.toNat) e old).setCb n .cc o.sel.toNat e { w0 := a, free := cbSlots a })) s

/-! ### Data-cache and instruction-cache words (R166, R346 to R348) -/

/-- The line range of a cache word: its first byte and its lines. -/
def lineRange (o : SY) (s : State) : Nat × Nat := ((s.rdS o.a).toNat / 64 * 64, o.imm.toNat + 1)
/-- Whether an R window holds a range; for a supervisor core, its own memory or a partition's grant (R143). -/
def State.rangeOk (s : State) (a len : Nat) : Bool :=
  if isSup s.cur then (match s.supKeys (BitVec.ofNat 64 a) len .r with | .inl _ => true | .inr _ => false) else a + len ≤ 2 ^ 48 && winAllows (s.ctx s.me.cid).wins a len .r
/-- A held cache word over a range. -/
def ccRangeHold (h : Hdr) (w : Word) (o : SY) (a : Word → Nat → Act) (s : State) : Result :=
  ccWord h w [(o.a, o.la)] [] (fun e s' =>
    let (b, k) := lineRange o s
    if !s.rangeOk b (64 * k) then .fault fRawWindow (s.rdS o.a) else .done (s'.ccHold e w 0 (a (BitVec.ofNat 64 b) k) none none)) s
/-- R346: holds a write-back of a range. -/
def execDwb (h : Hdr) (o : SY) (s : State) : Result := ccRangeHold h (packSY h 0x1C 0 o) o .dwb s
/-- R346: holds the drop of this device's copies of remote lines in a range. -/
def execDinv (h : Hdr) (o : SY) (s : State) : Result := ccRangeHold h (packSY h 0x1C 1 o) o .dinv s
/-- R347: holds the invalidation of a range in the instruction caches of a scope. -/
def execIinv (h : Hdr) (o : SY) (s : State) : Result :=
  ccRangeHold h (packSY h 0x1D 0 o) o (.iinv (o.sel.extractLsb' 0 3)) s
/-- R347: waits for the core's earlier IINVs, then discards fetched, unissued words. -/
def execFetchb (h : Hdr) (o : SY) (s : State) : Result :=
  ccWord h (packSY h 0x1E 0 o) [] [] (fun _ s' =>
    let mine (x : Held) : Bool := x.core == s.cur && (match x.act with | .iinv _ _ _ => true | _ => false)
    if s.me.hold.any mine || s.flying.any mine then .stall
    else .done (s'.modCore s.cur fun c => { c with fetched := [] })) s

/-- The set of an address (R165). -/
def icSet (a : Nat) : Nat := a / 64 % 256
/-- The way of a set that holds a line; 4 when none does. -/
def icFind (m : SMap ICLine) (a : Nat) : Nat :=
  ((List.range 4).find? fun w => let l := m.get {} (icSet a * 4 + w); l.valid && l.addr == a / 64).getD 4
/-- Whether a line is locked; a locked line stays locked while invalid (R166). -/
def icLocked (m : SMap ICLine) (a : Nat) : Bool :=
  (List.range 4).any fun w => let l := m.get {} (icSet a * 4 + w); l.locked && l.addr == a / 64
/-- The 64 bytes of an instruction line in memory. -/
def State.lineData (s : State) (n a : Nat) : BitVec 512 :=
  match if isSup n then (match s.supKeys (BitVec.ofNat 64 a) 64 .r with | .inl ks => some ks | .inr _ => none)
        else s.stage2s (s.ctx (s.core n).cid).pid a 64 with
  | some ks => bitsOf 512 (ks.map s.byte)
  | none => 0
/-- R166: locks one line where capacity allows, in way 2 first. -/
def State.lockLine (s : State) (n a : Nat) : State :=
  let m := (s.core n).icache
  if icLocked m a then s else
  let free (w : Nat) : Bool := !(m.get {} (icSet a * 4 + w)).locked
  match if free 2 then some 2 else if free 3 then some 3 else none with
  | none => s
  | some w =>
    let d := s.lineData n a
    let old := icFind m a
    s.modCore n fun c =>
      let m := if old < 4 then m.set {} (icSet a * 4 + old) {} else m
      { c with icache := m.set {} (icSet a * 4 + w) { addr := a / 64, valid := true, data := d, locked := true } }
def State.lockLines (s : State) (n a : Nat) : Nat → State
  | 0 => s
  | k + 1 => (s.lockLine n a).lockLines n (a + 64) k
def lockedLines (m : SMap ICLine) (a : Nat) : Nat → Nat
  | 0 => 0
  | k + 1 => (if icLocked m a then 1 else 0) + lockedLines m (a + 64) k
/-- Unlocks the lines of a range. -/
def unlockRange (m : SMap ICLine) (a k : Nat) : SMap ICLine :=
  m.filterMap fun (i, l) =>
    let l' : ICLine := if a / 64 ≤ l.addr && l.addr < a / 64 + k then { l with locked := false } else l
    if l' = ({} : ICLine) then none else some (i, l')
/-- R166, R348: locks a range as far as capacity allows and answers how many of its lines are locked. -/
def execIlock (h : Hdr) (o : SY) (s : State) : Result :=
  ccWord h (packSY h 0x1F 0 o) [(o.a, o.la)] [] (fun e s' =>
    let (a, k) := lineRange o s
    if !s.rangeOk a (64 * k) then .fault fRawWindow (s.rdS o.a)
    else if 16 ≤ s.me.locks.length then .done (s'.wrS o.d e 0)
    else
      let s' := s'.lockLines s.cur a k
      let m := lockedLines s'.me.icache a k
      let s' := if m == 0 then s' else s'.modCore s.cur fun c => { c with locks := c.locks ++ [{ addr := a, lines := k }] }
      .done (s'.wrS o.d e (BitVec.ofNat 64 m))) s
/-- R166, R348: unlocks a range and deletes the recorded ranges that it covers. -/
def execIunlk (h : Hdr) (o : SY) (s : State) : Result :=
  ccWord h (packSY h 0x1F 1 o) [(o.a, o.la)] [] (fun _ s' =>
    let (a, k) := lineRange o s
    if !s.rangeOk a (64 * k) then .fault fRawWindow (s.rdS o.a) else
    .done (s'.modCore s.cur fun c =>
      { c with icache := unlockRange c.icache a k, locks := c.locks.filter fun r => !(a ≤ r.addr && r.addr + 64 * r.lines ≤ a + 64 * k) })) s

end Sys2Proof.Machine
end

