-- ==== Sys2Proof/Machine/Elems.lean ====
section
/-! DEFINITION. The bytes of a tensor that a vector, a gather or a scatter touches (R204, R369, R371), the runs behind them, the bytes
of memory behind those (R199), and the placing of held tensor writes. -/

namespace Sys2Proof.Machine

/-- One byte of a tensor: tile number, byte of the tile's run, mask of the bits taken. -/
structure TByte where
  tile : Nat := 0
  off : Nat := 0
  mask : Byte := 0xFF
  deriving DecidableEq, Repr, Inhabited

/-- Lanes of a vector of a tensor's elements (R369). -/
def TDesc.lanes (d : TDesc) : Nat := if d.fmt == 5 then 256 else 2048 / fmtBits d.fmt
/-- Bytes of one element that is not E2M1S. -/
def TDesc.ebytes (d : TDesc) : Nat := fmtBits d.fmt / 8
/-- The coordinates with dimension `k` moved by `i`. -/
def shiftDim (x : List Nat) (k i : Nat) : List Nat := x.set k (x.getD k 0 + i)
/-- The bytes of the element at coordinates `x`, or none outside the tensor. -/
def TDesc.elem (d : TDesc) (x : List Nat) : List (Option TByte) :=
  match d.locate x with
  | some (t, o) => (List.range d.ebytes).map fun i => some { tile := t, off := o * d.ebytes + i }
  | none => List.replicate d.ebytes none
/-- Byte `j` of the nibbles of an E2M1S vector. -/
def TDesc.nibbles (d : TDesc) (x : List Nat) (k j : Nat) : Option TByte :=
  match d.locate (shiftDim x k (2 * j)), d.locate (shiftDim x k (2 * j + 1)) with
  | some (t, o), some _ => some { tile := t, off := o / 2 }
  | some (t, o), none => some { tile := t, off := o / 2, mask := 0x0F }
  | none, _ => none
/-- Byte `j` of the block words of an E2M1S vector. -/
def TDesc.blockByte (d : TDesc) (x : List Nat) (k j : Nat) : Option TByte :=
  (d.locate (shiftDim x k (32 * (j / 2)))).map fun (t, o) => { tile := t, off := d.sbo * 4096 + 2 * (o / 32) + j % 2 }
/-- The 256 bytes of the vector at coordinates `x` along the fastest dimension (R369). -/
def TDesc.row (d : TDesc) (x : List Nat) : List (Option TByte) :=
  let k := d.order.getD 0 0
  if d.fmt == 5 then
    (List.range 128).map (d.nibbles x k) ++ (List.range 16).map (d.blockByte x k) ++ List.replicate 112 none
  else (List.range d.lanes).flatMap fun i => d.elem (shiftDim x k i)
/-- The tile of each element of that vector. -/
def TDesc.rowTiles (d : TDesc) (x : List Nat) : List (Option Nat) :=
  (List.range d.lanes).map fun i => (d.locate (shiftDim x (d.order.getD 0 0) i)).map (·.1)

/-- The tiles that bytes touch, without repeats. -/
def bytesTiles (bs : List (Option TByte)) : List Nat :=
  bs.foldl (fun m b => match b with | some b => if m.contains b.tile then m else m ++ [b.tile] | none => m) []

/-- The outcome of resolving the tiles of a read: the run of each, none for an absent tile. -/
def State.readTiles (s : State) (n : Nat) (eng : Eng) (e : Word) (d : TDesc) (tid : BitVec 10) (absentOk : Bool) :
    List Nat → List (Nat × Option (BitVec 36)) → Tile ⊕ (State × List (Nat × Option (BitVec 36)))
  | [], acc => .inr (s, acc)
  | t :: ts, acc =>
    match s.readTile n eng e d tid t with
    | .run f s => s.readTiles n eng e d tid absentOk ts (acc ++ [(t, some f)])
    | .absent s => if absentOk then s.readTiles n eng e d tid absentOk ts (acc ++ [(t, none)]) else .inl (.fault fNres (nresVal tid t))
    | r => .inl r

/-- The run found for a tile. -/
def runOf (runs : List (Nat × Option (BitVec 36))) (t : Nat) : Option (BitVec 36) :=
  ((runs.find? fun (r : Nat × Option (BitVec 36)) => r.1 == t).bind (·.2))
/-- The memory byte behind a tensor byte; `none` on the left for a byte of an absent tile. -/
def State.tbyteKey (s : State) (cid : BitVec 12) (runs : List (Nat × Option (BitVec 36))) (b : TByte) : Option (Option Nat) :=
  match runOf runs b.tile with
  | none => some none
  | some f => (s.stage2 (s.ctx cid).pid (frameAddr f + b.off)).map some
/-- The sources of a vector, byte by byte, or the first tile whose frames stage two does not place (R199). -/
def State.sources (s : State) (cid : BitVec 12) (runs : List (Nat × Option (BitVec 36))) :
    List (Option TByte) → (List (Option (Nat × Byte))) ⊕ Nat
  | [] => .inl []
  | b :: bs =>
    match s.sources cid runs bs with
    | .inr t => .inr t
    | .inl ks =>
      match b with
      | none => .inl (none :: ks)
      | some b =>
        match s.tbyteKey cid runs b with
        | none => .inr b.tile
        | some none => .inl (none :: ks)
        | some (some k) => .inl (some (k, b.mask) :: ks)

/-- What reading tensor bytes answers. -/
inductive TRead where
  | ok (src : List (Option (Nat × Byte))) (runs : List (Nat × Option (BitVec 36))) (s : State)
  | stop (b : Body)
/-- The first of some bytes in each line. -/
def lineHeads (l : List (Nat × Nat)) : List (Nat × Nat) := l.foldl (fun m x => if m.any fun y => y.1 / 64 == x.1 / 64 then m else m ++ [x]) []
/-- The guest-physical addresses of bytes of resolved runs, with their keys. -/
def gpaKeys (runs : List (Nat × Option (BitVec 36))) (bs : List (Option TByte)) (src : List (Option (Nat × Byte))) : List (Nat × Nat) :=
  (bs.zip src).filterMap fun (b, k) => b.bind fun b => k.bind fun k => (runOf runs b.tile).map fun f => (frameAddr f + b.off, k.1)
/-- Resolves the bytes of a read (R207, R218, R369), for a word that has not issued: a stall that changed the state is a wait. `known` are the tiles that
the operation has translated already. A word of ACC or MTX waits for the earlier writes of its engine to the same granules (R224). -/
def State.tensorReadAt (s : State) (n : Nat) (eng : Eng) (known : List (Nat × Option (BitVec 36))) (e : Word) (d : TDesc) (tid : BitVec 10) (absentOk : Bool)
    (bs : List (Option TByte)) : TRead :=
  let tiles := bytesTiles bs
  match s.readTiles n eng e d tid absentOk (tiles.filter fun t => !known.any fun r => r.1 == t) (known.filter fun r => tiles.contains r.1) with
  | .inl (.fault c v) => .stop (.fault c v)
  | .inl (.stall s) => .stop (.wait s)
  | .inl _ => .stop .stall
  | .inr (s, runs) =>
    match s.sources (s.core n).cid runs bs with
    | .inr t => .stop (.fault fTtNode (BitVec.ofNat 64 (d.entAddr t)))
    | .inl src =>
      let gks := gpaKeys runs bs src
      match gks.find? fun g => s.poisoned g.2 with
      | some g => .stop (.fault fEccUe (BitVec.ofNat 64 g.1))
      | none =>
        if eng != .cpy && s.ownWrite n eng tid (bs.filterMap fun b => b.map fun b => (b.tile, b.off)) (gks.map (·.2)) then .stop (.wait s)
        else .ok src runs (s.l2See (s.ctx (s.core n).cid).pid true (lineHeads gks))
def State.tensorRead (s : State) (n : Nat) (eng : Eng) (e : Word) (d : TDesc) (tid : BitVec 10) (absentOk : Bool) (bs : List (Option TByte)) : TRead :=
  s.tensorReadAt n eng [] e d tid absentOk bs

/-- Residency flags: bit `i` for element `i` of an absent tile (R369). -/
def residency (runs : List (Nat × Option (BitVec 36))) (ts : List (Option Nat)) : Pred :=
  BitVec.ofNat 256 (((List.range ts.length).filter fun i =>
    match ts.getD i none with
    | some t => runs.any fun r => r.1 == t && r.2.isNone
    | none => false).foldl (fun m i => m + 2 ^ i) 0)

/-- Byte `j` of a vector. -/
def vByte (v : Vec) (j : Nat) : Byte := v.extractLsb' (8 * j) 8
/-- A vector from bytes. -/
def vOfBytes (bs : List Byte) : Vec := bitsOf 2048 bs
/-- The cells of a write of a vector's bytes. -/
def rowCells (bs : List (Option TByte)) (v : Vec) : List TCell :=
  ((List.range bs.length).zip bs).filterMap fun (j, b) => b.map fun b => { tile := b.tile, off := b.off, v := vByte v j, mask := b.mask }

/-- Holds an effect of a ring engine's word; it joins the operations ordered before the engine's later words (R226), and waits for what acquires and fences
that lead to the word name (R228, R230). -/
def State.engHold (s : State) (eng : Eng) (e w : Word) (sig : BitVec 8) (slot : BitVec 16) (a : Act) : State :=
  let id := s.placedId
  (s.place s.cur { eng := eng, e := e, act := a, sig := sig, w := w, slot := slot, after := s.me.barOn eng }).modCore s.cur fun c =>
    c.modEng eng fun x => { x with before := mergeIds x.before [id] }

/-- The tests of a tensor write before its word issues; `none` lets it issue. -/
def TWrite.obstacle (t : TWrite) (tid : BitVec 10) : Option Body :=
  match t with
  | .held _ => none
  | .done _ => none
  | .absent t => some (.fault fNres (nresVal tid t))
  | .fault c v => some (.fault c v)
  | .stall s => some (.wait s)

end Sys2Proof.Machine
end

