-- ==== Sys2Proof/Machine/Access.lean ====
section
/-! DEFINITION. Access-sequencer words (R363 to R381): tensor vectors, gathers and scatters, scratchpad moves, g forms, launch
parameters, loops, outcome queues, circular buffers, coordinate words, queue control and page requests; and DATA_LANDED for ACC. -/

namespace Sys2Proof.Machine

/-! ### Operands -/

/-- The guard field of an ACC word (R303). -/
def guardOf (q : BitVec 8) : BitVec 4 := q.extractLsb' 0 4
/-- The g registers of a coordinate base (R26). -/
def gBase (g : BitVec 6) (rank : Nat) : List (BitVec 6) := (List.range rank).map fun i => g + BitVec.ofNat 6 i
/-- The queues that source fields pop, in order: fields 36 and 37 are sq0 and sq1. -/
def accPops (rs : List (BitVec 6)) : List Nat := (rs.filter fun r => r == 36 || r == 37).map fun r => r.toNat - 32
/-- How many bits of boq.x source fields pop: field 38. -/
def accBits (rs : List (BitVec 6)) : Nat := (rs.filter (· == 38)).length
/-- The values of source fields (R373): a register, bytes 0 to 7 of a popped entry, or a popped bit. -/
def accVals (s : State) : List (BitVec 6) → List QEnt → List OBit → List Word
  | [], _, _ => []
  | r :: rs, es, bs =>
    if r == 36 || r == 37 then ((es.head?.map fun x => x.data.extractLsb' 0 64).getD 0) :: accVals s rs es.tail bs
    else if r == 38 then boolW ((bs.head?.map (·.bit)).getD false) :: accVals s rs es bs.tail
    else s.rdG r :: accVals s rs es bs
/-- Whether a destination can take a push: a data queue or boq.a that is full stalls the word (R176, R177). -/
def State.accRoom (s : State) (d : BitVec 6) : Bool :=
  if 32 ≤ d.toNat && d.toNat < 36 then !s.me.queueFull (d.toNat - 32)
  else if d == 38 then s.me.boqA.length < 64 else true
/-- Pushes an entry to a queue of the core that moves. -/
def State.pushQ (s : State) (q : Nat) (x : QEnt) : State := s.modCore s.cur fun c => c.setQueue q (c.queue q ++ [x])
/-- The value in each of the 32 eight-byte slots of a vector (R373). -/
def splat64 (v : Word) : Vec := BitVec.ofNat 2048 ((List.range 32).foldl (fun m i => m + v.toNat * 2 ^ (64 * i)) 0)
/-- Writes the result of a g form (R373). -/
def State.accPut (s : State) (d : BitVec 6) (e v : Word) (lat : BitVec 4) (id : Nat) : State :=
  if 32 ≤ d.toNat && d.toNat < 36 then s.pushQ (d.toNat - 32) { data := splat64 v, e := e, id := id }
  else if d == 38 then s.modCore s.cur fun c => { c with boqA := c.boqA ++ [{ bit := v.getLsbD 0, e := e }] }
  else s.wrG d e v lat
/-- A stall where a condition fails. -/
def stallUnless (b : Bool) : Option Body := if b then none else some .stall
/-- The first of two tests that stops a word. -/
def orTest (a : Option Body) (b : Option Body) : Option Body := match a with | some x => some x | none => b

/-! ### g forms (R373, R374) -/

/-- A g form: its sources, destination and function. -/
def gForm (h : Hdr) (w : Word) (guard : BitVec 4) (d : BitVec 6) (srcs : List (BitVec 6 × Bool)) (lat : BitVec 4) (f : List Word → Word) (s : State) :
    Result :=
  let rs := srcs.map (·.1)
  engWord .acc h w guard (fun _ => orTest (s.chkG w rs) (stallUnless (s.accRoom d))) (accPops rs) (accBits rs) 0
    (fun e es bs id s' => .done ((s'.freeG e srcs).accPut d e (f (accVals s rs es bs)) lat id)) s
/-- A two-source g form. -/
def gOp (h : Hdr) (w : Word) (o : RR) (f : Word → Word → Word) (s : State) : Result :=
  gForm h w o.q o.d [(o.a, o.la), (o.b, o.lb)] o.lat (fun v => f (v.getD 0 0) (v.getD 1 0)) s
/-- A g form with an immediate. -/
def gOpi (h : Hdr) (w : Word) (o : RRI) (f : Word → Word) (s : State) : Result :=
  gForm h w o.q o.d [(o.a, o.la)] o.lat (fun v => f (v.getD 0 0)) s
/-- UNS of the modifier field (R304). -/
def mUns (o : RR) : Bool := o.c.getLsbD 1

/-- R373: A + B. -/
def execGadd (h : Hdr) (o : RR) (s : State) : Result := gOp h (packRR h 0x35 0 o) o (· + ·) s
/-- R373: A − B. -/
def execGsub (h : Hdr) (o : RR) (s : State) : Result := gOp h (packRR h 0x35 1 o) o (· - ·) s
/-- R373: the low 64 bits of A × B. -/
def execGmul (h : Hdr) (o : RR) (s : State) : Result := gOp h (packRR h 0x35 2 o) o (· * ·) s
/-- R373: A shifted left by B[5:0]. -/
def execGshl (h : Hdr) (o : RR) (s : State) : Result := gOp h (packRR h 0x35 3 o) o (fun a b => a <<< (b.toNat % 64)) s
/-- R373: A shifted right logically by B[5:0]. -/
def execGshr (h : Hdr) (o : RR) (s : State) : Result := gOp h (packRR h 0x35 4 o) o (fun a b => a >>> (b.toNat % 64)) s
/-- R373: A AND B. -/
def execGand (h : Hdr) (o : RR) (s : State) : Result := gOp h (packRR h 0x35 5 o) o (· &&& ·) s
/-- R373: A OR B. -/
def execGor (h : Hdr) (o : RR) (s : State) : Result := gOp h (packRR h 0x35 6 o) o (· ||| ·) s
/-- R373: the minimum, signed, or unsigned with .n. -/
def execGmin (h : Hdr) (o : RR) (s : State) : Result :=
  gOp h (packRR h 0x35 7 o) o (fun a b => if ltOf (mUns o) b a then b else a) s
/-- R373: the maximum, signed, or unsigned with .n. -/
def execGmax (h : Hdr) (o : RR) (s : State) : Result :=
  gOp h (packRR h 0x35 8 o) o (fun a b => if ltOf (mUns o) a b then b else a) s
/-- R373: A + SEXT(IMM14). -/
def execGaddi (h : Hdr) (o : RRI) (s : State) : Result := gOpi h (packRRI h 0x36 0 o) o (· + sext o.imm) s
/-- R373: A AND SEXT(IMM14). -/
def execGandi (h : Hdr) (o : RRI) (s : State) : Result := gOpi h (packRRI h 0x36 1 o) o (· &&& sext o.imm) s
/-- R373: A shifted left by IMM14[5:0]. -/
def execGshli (h : Hdr) (o : RRI) (s : State) : Result := gOpi h (packRRI h 0x36 2 o) o (· <<< (o.imm.toNat % 64)) s
/-- R373: SEXT(IMM24); bound code 0. -/
def execGmovi (h : Hdr) (o : RI) (s : State) : Result := gForm h (packRI h 0x37 0 o) 0 o.d [] 0 (fun _ => sext o.imm) s
/-- R373: (A << 24) OR ZEXT(IMM24). -/
def execGmovhi (h : Hdr) (o : RI) (s : State) : Result :=
  gForm h (packRI h 0x37 1 o) 0 o.d [(o.a, o.la)] 0 (fun v => (v.getD 0 0 <<< 24) ||| o.imm.setWidth 64) s
/-- R373: a level of ACC's CRD. -/
def execGcl (h : Hdr) (o : RI) (s : State) : Result :=
  gForm h (packRI h 0x37 2 o) 0 o.d [] 0 (fun _ => BitVec.ofNat 64 (lvlGet s.me.cw (o.imm.toNat % 8) s.me.acc.crd)) s

/-- TEAMID of R99. -/
def Task.teamId (t : Task) : Word :=
  let x := t.team % t.desc.gx
  let y := t.team / t.desc.gx % t.desc.gy
  let z := t.team / t.desc.gx / t.desc.gy
  BitVec.ofNat 64 (x + 2 ^ 16 * y + 2 ^ 32 * z)
/-- TASKCRD of R99. -/
def Task.taskCrd (t : Task) : Word := t.teamId ||| BitVec.ofNat 64 (t.t * 2 ^ 48)
/-- GPARM's value (Table 15.6), or the tensor whose descriptor or dimension refuses it. -/
def State.gparm (s : State) (e : Word) (code arg : Nat) : Word ⊕ Body :=
  let t := s.me.task.getD {}
  let tid : BitVec 10 := BitVec.ofNat 10 arg
  let dim := arg / 1024 % 8
  let dimOf (f : TDesc → Nat) : Word ⊕ Body :=
    match s.tdesc s.cur e tid with
    | none => .inr (.fault fTensorBounds (tid.setWidth 64))
    | some d => if d.rank ≤ dim then .inr (.fault fTensorBounds (tid.setWidth 64)) else .inl (BitVec.ofNat 64 (f d))
  if code == 0 then .inl t.taskCrd
  else if code == 1 then .inl t.teamId
  else if code == 2 then .inl (t.desc.stage.setWidth 64)
  else if code == 3 then .inl (t.launchId.setWidth 64)
  else if code == 4 then .inl t.desc.arg
  else if code == 5 then dimOf fun d => d.dims.getD dim 0
  else if code == 6 then dimOf fun d => 2 ^ d.tsh.getD dim 0
  else .inl ((s.me.inc ++ s.me.cid).setWidth 64)
/-- R374: a launch or tensor parameter. -/
def execGparm (h : Hdr) (o : RI) (s : State) : Result :=
  let code := (o.imm.extractLsb' 16 8).toNat
  let arg := (o.imm.extractLsb' 0 16).toNat
  engWord .acc h (packRI h 0x3F 0 o) 0
    (fun e => orTest (match s.gparm e code arg with | .inr b => some b | .inl _ => none) (stallUnless (s.accRoom o.d))) [] 0 0
    (fun e _ _ id s' => match s.gparm e code arg with | .inr b => b | .inl v => .done (s'.accPut o.d e v 0 id)) s

/-! ### Scratchpad (R372) -/

/-- The address of a scratchpad form. -/
def accAddr (s : State) (o : RRI) : Word := s.rdG o.a + 32 * sext o.imm
/-- A byte of scratchpad as an ACC word reads it: before the end of a bound, the contents that the store found (R181). Of the stores in
flight over a byte, those older than one whose bound has ended are over. -/
def flightByte (now a : Nat) (cur : Byte) (fs : List Flight) : Byte :=
  (fs.foldl (fun (r : Option Byte) f =>
    if f.addr ≤ a && a < f.addr + f.len then
      (if f.avail ≤ now then none
       else match r with | some b => some b | none => some (f.old.extractLsb' (8 * (a - f.addr)) 8))
    else r) none).getD cur
def Core.spadSeen (fs : List Flight) (c : Core) (now a : Nat) : Nat → List Byte
  | 0 => []
  | n + 1 => flightByte now a (c.spad.get 0 a) fs :: c.spadSeen fs now (a + 1) n
/-- The flights that a write of bytes puts over its granules. -/
def flights (c : Core) (until_ a : Nat) (bs : List Byte) : List Flight :=
  (List.range ((bs.length + 31) / 32)).map fun i =>
    let n := Nat.min 32 (bs.length - 32 * i)
    { avail := until_, addr := a + 32 * i, len := n, old := bitsOf 256 (c.spadBytes (a + 32 * i) n) }
/-- Flights that may still be seen. -/
def liveFlights (now : Nat) (fs : List Flight) : List Flight := fs.dropWhile fun f => f.avail ≤ now
/-- A scratchpad write of ACC with its bound. -/
def State.accStore (s : State) (e : Word) (a : Nat) (bs : List Byte) (lat : BitVec 4) : State :=
  let until_ := s.cycle + latBound lat
  let fs := flights s.me until_ a bs
  ((s.spadWrite s.cur .acc e a bs).setPend s.cur a bs.length until_).modCore s.cur fun c =>
    { c with accFlight := liveFlights s.cycle c.accFlight ++ fs }

/-- R372: pushes 256 B of scratchpad into a data queue. -/
def execLds (h : Hdr) (o : RRI) (s : State) : Result :=
  let a := accAddr s o
  let q := o.d.toNat - 32
  engWord .acc h (packRRI h 0x32 0 o) o.q
    (fun _ => orTest (s.chkG (packRRI h 0x32 0 o) [o.a]) (orTest (s.spadChk a 256 32 true) (stallUnless (s.accRoom o.d)))) [] 0 0
    (fun e _ _ id s' =>
      .done ((s'.freeG e [(o.a, o.la)]).pushQ q { data := vOfBytes (s.me.spadSeen s.me.accFlight s.cycle a.toNat 256), e := e, id := id })) s
/-- R372: loads 8 B of scratchpad into a g register. It lands by DATA_LANDED; a reader past the bound waits for it (R182). -/
def execLdsb (h : Hdr) (o : RRI) (s : State) : Result :=
  let w := packRRI h 0x32 1 o
  let a := accAddr s o
  engWord .acc h w o.q (fun _ => orTest (s.chkG w [o.a]) (s.spadChk a 8 8 true)) [] 0 0
    (fun e _ _ id s' =>
      let v : Word := bitsOf 64 (s.me.spadSeen s.me.accFlight s.cycle a.toNat 8)
      let k := s.me.gIdx o.d
      .quiet (((s'.freeG e [(o.a, o.la)]).wrG o.d e v o.lat).modCore s.cur fun c =>
        { c with gWait := c.gWait.set false k true, landQ := c.landQ ++ [{ e := e, sig := h.sig, slot := s.me.acc.ring.head, id := id, g := some k }] })) s
/-- R372: writes a popped vector, or the 8 B of a g register, to scratchpad. -/
def execSts (h : Hdr) (o : RRI) (s : State) : Result :=
  let w := packRRI h 0x33 0 o
  let a := accAddr s o
  let len := if o.d.toNat < 32 then 8 else 256
  let al := if o.d.toNat < 32 then 8 else 32
  engWord .acc h w o.q (fun _ => orTest (s.chkG w [o.a, o.d]) (s.spadChk a len al false)) (accPops [o.d]) 0 0
    (fun e es _ _ s' =>
      let v : Vec := if o.d.toNat < 32 then (s.rdG o.d).setWidth 2048 else (es.head?.map (·.data)).getD 0
      .done ((s'.freeG e [(o.a, o.la)]).accStore e a.toNat (leBytes v.toNat len) o.lat)) s

/-! ### Tensor vectors (R369 to R371) -/

/-- What an ACC tensor word names at its coordinate: a valid descriptor whose base fits, and the coordinates. -/
def State.accTensor (s : State) (e : Word) (o : TN) : (TDesc × List Nat) ⊕ Body :=
  let bad : (TDesc × List Nat) ⊕ Body := .inr (.fault fTensorBounds (o.tid.setWidth 64))
  match s.tdesc s.cur e o.tid with
  | none => bad
  | some d => if 32 < o.g.toNat + d.rank then bad else .inl (d, (gBase o.g d.rank).map fun r => (s.rdG r).toNat)
/-- The register tests of the coordinate base. -/
def State.chkBase (s : State) (e w : Word) (o : TN) : Option Body :=
  match s.tdesc s.cur e o.tid with
  | none => none
  | some d => s.chkG w (gBase o.g d.rank)
/-- The vector that an LDT, LDTR or STT names: its first element inside the tensor, at a block boundary for E2M1S. -/
def State.accRow (s : State) (e w : Word) (o : TN) : (TDesc × List Nat) ⊕ Body :=
  match s.accTensor e o with
  | .inr b => .inr b
  | .inl (d, x) =>
    match s.chkBase e w o with
    | some b => .inr b
    | none =>
      if (d.locate x).isNone || (d.fmt == 5 && x.getD (d.order.getD 0 0) 0 % 32 != 0) then .inr (.fault fTensorBounds (o.tid.setWidth 64))
      else .inl (d, x)
/-- The entry that a load pushes, and its landing. -/
def State.pushLoad (s : State) (h : Hdr) (e : Word) (q id : Nat) (fmt : Nat) (flags : Pred) (src : List (Option (Nat × Byte))) (slot : BitVec 16) : State :=
  (s.pushQ q { e := e, flags := flags, fmt := BitVec.ofNat 5 fmt, landed := false, src := src, id := id }).modCore s.cur fun c =>
    { c with landQ := c.landQ ++ [{ e := e, sig := h.sig, slot := slot, id := id, queue := some (q, id), after := c.barOn .acc }] }
/-- A vector load (R369): the tiles are translated at issue, and the bytes land by DATA_LANDED. -/
def accLoad (h : Hdr) (w : Word) (o : TN) (res : Bool) (s : State) : Result :=
  let q := o.x.toNat - 32
  engWord .acc h w (guardOf o.q)
    (fun e =>
      match s.accRow e w o with
      | .inr b => some b
      | .inl (d, x) =>
        if !s.accRoom o.x then some .stall else
        match s.tensorRead s.cur .acc e d o.tid res (d.row x) with
        | .stop b => some b
        | .ok _ _ _ => none) [] 0 0
    (fun e _ _ id s' =>
      match s.accRow e w o with
      | .inr b => b
      | .inl (d, x) =>
        match s'.tensorRead s.cur .acc e d o.tid res (d.row x) with
        | .stop b => b
        | .ok src runs s' =>
          .quiet (s'.pushLoad h e q id d.fmt (if res then residency runs (d.rowTiles x) else 0) src s.me.acc.ring.head)) s
/-- R369: LDT. -/
def execLdt (h : Hdr) (o : TN) (s : State) : Result := accLoad h (packTN h 0x30 0 o) o false s
/-- R369: LDTR: absent tiles read as zero and set their residency flags. -/
def execLdtr (h : Hdr) (o : TN) (s : State) : Result := accLoad h (packTN h 0x30 1 o) o true s

/-- A write of an ACC word's cells: a phased tensor is written to its shadow, an unphased write enters the egress hold (R369). -/
def State.accWrite (s : State) (e w : Word) (d : TDesc) (tid : BitVec 10) (slot : BitVec 16) (cs : List TCell) : Body :=
  match s.tensorWrite s.cur .acc e d tid cs with
  | .done s => .done s
  | .held s => .done (s.engHold .acc e w 0 slot (.twrite tid cs))
  | .absent t => .fault fNres (nresVal tid t)
  | .fault c v => .fault c v
  | .stall _ => .stall
/-- R369: STT: pops a vector and writes it. -/
def execStt (h : Hdr) (o : TN) (s : State) : Result :=
  let w := packTN h 0x31 0 o
  engWord .acc h w (guardOf o.q)
    (fun e =>
      match s.accRow e w o with
      | .inr b => some b
      | .inl (d, x) => (s.tensorWrite s.cur .acc e d o.tid (rowCells (d.row x) 0)).obstacle o.tid) (accPops [o.x]) 0 0
    (fun e es _ _ s' =>
      match s.accRow e w o with
      | .inr b => b
      | .inl (d, x) => s'.accWrite e w d o.tid s.me.acc.ring.head (rowCells (d.row x) ((es.head?.map (·.data)).getD 0))) s

/-- Lane `i` of a vector of 32-bit lanes. -/
def lane32 (v : Vec) (i : Nat) : BitVec 32 := v.extractLsb' (32 * i) 32
/-- The bytes of a gather or scatter (R371), lane by lane; a skipped or unused lane has none. `none` overall when a lane lies outside. -/
def TDesc.indexed (d : TDesc) (x : List Nat) (dim : Nat) (idx : Vec) : Option (List (List (Option TByte))) :=
  let lanes := (List.range (Nat.min 64 d.lanes)).map fun i =>
    let j := lane32 idx i
    if j == BitVec.allOnes 32 then some (List.replicate d.ebytes none) else
    let y := shiftDim x dim j.toNat
    if (d.locate y).isNone then none else some (d.elem y)
  if lanes.any (·.isNone) then none else some (lanes.filterMap id)
/-- The operands of GATH and SCAT that do not depend on the index vector. -/
def State.accIndexed (s : State) (e w : Word) (o : TN) : (TDesc × List Nat × Nat) ⊕ Body :=
  match s.accTensor e o with
  | .inr b => .inr b
  | .inl (d, x) =>
    match s.chkBase e w o with
    | some b => .inr b
    | none =>
      let dim := (o.q.extractLsb' 5 3).toNat
      if d.rank ≤ dim || d.fmt == 5 then .inr (.fault fTensorBounds (o.tid.setWidth 64)) else .inl (d, x, dim)
/-- The index queue that a word names. -/
def idxQueue (o : TN) : Nat := 4 + (o.q.extractLsb' 4 1).toNat
/-- The index vector at the head of its queue. -/
def State.idxHead (s : State) (o : TN) : Vec := ((s.me.queue (idxQueue o)).head?.map (·.data)).getD 0
/-- R371: GATH. -/
def execGath (h : Hdr) (o : TN) (s : State) : Result :=
  let w := packTN h 0x34 0 o
  let q := o.x.toNat - 32
  let bytes (d : TDesc) (x : List Nat) (dim : Nat) : Option (List (Option TByte)) := (d.indexed x dim (s.idxHead o)).map fun l => l.flatten
  engWord .acc h w (guardOf o.q)
    (fun e =>
      match s.accIndexed e w o with
      | .inr b => some b
      | .inl (d, x, dim) =>
        if !s.accRoom o.x then some .stall else
        match bytes d x dim with
        | none => some (.fault fTensorBounds (o.tid.setWidth 64))
        | some bs =>
          match s.tensorRead s.cur .acc e d o.tid false bs with
          | .stop b => some b
          | .ok _ _ _ => none) [idxQueue o] 0 0
    (fun e _ _ id s' =>
      match s.accIndexed e w o with
      | .inr b => b
      | .inl (d, x, dim) =>
        match s'.tensorRead s.cur .acc e d o.tid false ((bytes d x dim).getD []) with
        | .stop b => b
        | .ok src _ s' => .quiet (s'.pushLoad h e q id d.fmt 0 src s.me.acc.ring.head)) s
/-- R371: SCAT. -/
def execScat (h : Hdr) (o : TN) (s : State) : Result :=
  let w := packTN h 0x34 1 o
  let cells (d : TDesc) (x : List Nat) (dim : Nat) (v : Vec) : Option (List TCell) := (d.indexed x dim (s.idxHead o)).map fun l => rowCells l.flatten v
  engWord .acc h w (guardOf o.q)
    (fun e =>
      match s.accIndexed e w o with
      | .inr b => some b
      | .inl (d, x, dim) =>
        match cells d x dim 0 with
        | none => some (.fault fTensorBounds (o.tid.setWidth 64))
        | some cs => (s.tensorWrite s.cur .acc e d o.tid cs).obstacle o.tid) ([idxQueue o] ++ accPops [o.x]) 0 0
    (fun e es _ _ s' =>
      match s.accIndexed e w o with
      | .inr b => b
      | .inl (d, x, dim) => s'.accWrite e w d o.tid s.me.acc.ring.head ((cells d x dim ((es.getD 1 {}).data)).getD [])) s

/-! ### Loops (R27, R178, R179, R375, R376) -/

/-- The fields of a LOOP word. -/
def loopStages (o : RI) : Nat := (o.imm.extractLsb' 16 3).toNat + 1
def loopEpi (o : RI) : Nat := (o.imm.extractLsb' 19 3).toNat
/-- Whether a LOOP word is legal in the loops that run (R178): at most two deep, the outer with one stage and epilogue 0, the inner
wholly within its body, never inside an SLOOP. -/
def nestOk (pos : BitVec 16) (len : Nat) : List Loop → Bool
  | [] => true
  | [l] => !l.sloop && l.stages == 1 && l.epi == 0 && ptrDiff (pos + 1 + BitVec.ofNat 16 len) l.start ≤ l.len
  | _ => false
/-- The tests of a LOOP word (R375, Table 11.2). -/
def loopOk (cw : List Nat) (x : EngSt) (o : RI) (lvl count : Nat) : Bool :=
  let n := count + loopEpi o
  count ≤ 65535 && loopEpi o < loopStages o && lvl ≤ 5 && nestOk x.ring.head (o.d.toNat + 1) x.loops &&
    (lvl == 0 || (lvlWidth cw lvl != 0 && lvlGet cw lvl x.crd + n < 2 ^ lvlWidth cw lvl))
/-- Starts a loop behind the present word; with count 0 its body is passed over. -/
def startLoop (cw : List Nat) (o : RI) (lvl count : Nat) (x : EngSt) : EngSt :=
  let len := o.d.toNat + 1
  if count == 0 then { x with ring := { x.ring with head := x.ring.head + BitVec.ofNat 16 len } } else
  let l : Loop := { start := x.ring.head + 1, len := len, lvl := lvl, lvl0 := lvlGet cw lvl x.crd, count := count, stages := loopStages o, epi := loopEpi o }
  { x with loops := l :: x.loops, sp := l.sp, crd := l.crdAt cw x.crd 0 }
/-- Whether a body of `len` words stands in the ring behind HEAD. -/
def EngSt.bodyIn (x : EngSt) (len : Nat) : Bool := len + 1 ≤ ptrDiff x.ring.tail x.ring.head
/-- R375: LOOP on ACC. -/
def execLoopAcc (h : Hdr) (fx : BitVec 3) (o : RI) (s : State) : Result :=
  let w := packRI h 0x38 (fx.setWidth 3) o
  let reg := o.imm.getLsbD 22
  let count := if reg then (s.rdG o.a).toNat else (o.imm.extractLsb' 0 16).toNat
  engWord .acc h w 0
    (fun _ => orTest (if reg then s.chkG w [o.a] else none)
      (if loopOk s.me.cw s.me.acc o fx.toNat count then stallUnless (count != 0 || s.me.acc.bodyIn (o.d.toNat + 1)) else some (.fault fIllegal w))) [] 0 0
    (fun e _ _ _ s' => .done ((s'.freeG e [(o.a, o.la)]).modCore s.cur fun c => { c with acc := startLoop c.cw o fx.toNat count c.acc })) s
/-- R376: SLOOP. -/
def execSloop (h : Hdr) (fx : BitVec 1) (o : RI) (s : State) : Result :=
  let w := packRI h 0x39 (fx.setWidth 3) o
  engWord .acc h w 0 (fun _ => if s.me.acc.loops.isEmpty then none else some (.fault fIllegal w)) [] 0 0
    (fun _ _ _ _ s' => .done (s'.modCore s.cur fun c =>
      let l : Loop := { sloop := true, sq := fx.toNat, start := c.acc.ring.head + 1, len := o.d.toNat + 1, count := 1 }
      { c with acc := { c.acc with loops := [l], sp := l.sp } })) s

/-! ### Outcome queues, buffers, coordinates and queue control (R377 to R381) -/

/-- R377: BPUSH: pushes a bit of a g register to boq.a. -/
def execBpushAcc (h : Hdr) (o : RRI) (s : State) : Result :=
  let w := packRRI h 0x3A 0 o
  engWord .acc h w o.q (fun _ => orTest (s.chkG w [o.a]) (stallUnless (s.accRoom 38))) [] 0 0
    (fun e _ _ _ s' => .done ((s'.freeG e [(o.a, o.la)]).modCore s.cur fun c => { c with boqA := c.boqA ++ [{ bit := (s.rdG o.a).getLsbD 0, e := e }] })) s
/-- The words that a skip may pass: to the end of the innermost body, or of the words in the ring (R177). -/
def EngSt.skipRoom (x : EngSt) : Nat :=
  let left := ptrDiff x.ring.tail (x.ring.head + 1)
  match x.loops with
  | [] => left
  | l :: _ => Nat.min left (ptrDiff (l.start + BitVec.ofNat 16 l.len) (x.ring.head + 1))
/-- R377: BSKIP: pops a bit of boq.x and passes over words when it is 1; a skip past the body or the ring raises ILLEGAL. -/
def execBskipAcc (h : Hdr) (o : RRI) (s : State) : Result :=
  let w := packRRI h 0x3A 1 o
  let n := o.imm.toNat
  engWord .acc h w o.q (fun _ => none) [] 1 0
    (fun _ _ bs _ s' =>
      if !(bs.head?.map (·.bit)).getD false then .done s'
      else if s.me.acc.skipRoom < n then .fault fIllegal w
      else .done (s'.modCore s.cur fun c => { c with acc := { c.acc with skip := n } })) s

/-- The buffer that a circular-buffer word names. -/
def rriCb (o : RRI) : Nat := (o.imm.extractLsb' 0 5).toNat
/-- R378, R189: CBACQ. -/
def execCbacq (h : Hdr) (o : RRI) (s : State) : Result :=
  let w := packRRI h 0x3B 0 o
  let i := rriCb o
  let cb := s.me.cbs.get none i
  engWord .acc h w o.q
    (fun _ => match cb with | none => some (.fault fIllegal w) | some b => stallUnless (b.filled != 0)) [] 0 ((cb.map (·.tag)).getD 0)
    (fun e _ _ _ s' =>
      match cb with
      | none => .fault fIllegal w
      | some b =>
        .done ((s'.setCb s.cur .acc i e { b with filled := b.filled - 1, acquired := b.acquired + 1, ridx := (b.ridx + 1) % cbSlots b.w0 }).wrG o.d e
          (BitVec.ofNat 64 (cbBase b.w0 + cbSlotBytes b.w0 * b.ridx)) o.lat)) s
/-- R378, R189: CBREL; ILLEGAL with no slot acquired. -/
def execCbrel (h : Hdr) (o : RRI) (s : State) : Result :=
  let w := packRRI h 0x3B 1 o
  let i := rriCb o
  engWord .acc h w o.q (fun _ => match s.me.cbs.get none i with | none => some (.fault fIllegal w) | some b => if b.acquired == 0 then some (.fault fIllegal w) else none)
    [] 0 0
    (fun e _ _ _ s' =>
      match s.me.cbs.get none i with
      | none => .fault fIllegal w
      | some b => .done (s'.setCb s.cur .acc i e { b with acquired := b.acquired - 1, free := b.free + 1 })) s

def rriLvl (o : RRI) : Nat := (o.imm.extractLsb' 0 3).toNat
def rriAmt (o : RRI) : Nat := (o.imm.extractLsb' 3 11).toNat
/-- Whether a level may take a value (Table 11.2). -/
def lvlOk (cw : List Nat) (l v : Nat) : Bool := l ≤ 5 && lvlWidth cw l != 0 && v < 2 ^ lvlWidth cw l
/-- A coordinate word of ACC (R379): `f` gives the level's new value from its old one and the amount. -/
def accLevel (h : Hdr) (w : Word) (o : RRI) (f : Nat → Nat → Nat) (s : State) : Result :=
  let reg := o.d == 1
  let v := f (lvlGet s.me.cw (rriLvl o) s.me.acc.crd) ((if reg then (s.rdG o.a).toNat else 0) + rriAmt o)
  engWord .acc h w o.q
    (fun _ => orTest (if reg then s.chkG w [o.a] else none) (if lvlOk s.me.cw (rriLvl o) v then none else some (.fault fIllegal w))) [] 0 0
    (fun e _ _ _ s' => .done ((s'.freeG e [(o.a, o.la)]).modCore s.cur fun c =>
      { c with acc := { c.acc with crd := lvlSet c.cw (rriLvl o) c.acc.crd v } })) s
/-- R379: SETCL on ACC. -/
def execSetclAcc (h : Hdr) (o : RRI) (s : State) : Result := accLevel h (packRRI h 0x3C 0 o) o (fun _ v => v) s
/-- R379: INCCL on ACC. -/
def execIncclAcc (h : Hdr) (o : RRI) (s : State) : Result := accLevel h (packRRI h 0x3C 1 o) o (fun x v => x + v) s

/-- The queue that a queue-control word names. -/
def rriQueue (o : RRI) : Nat := (o.imm.extractLsb' 0 3).toNat
/-- R380: DQFLUSH waits for the horizon, then discards a queue; a discarded load lands nowhere. -/
def execDqflush (h : Hdr) (o : RRI) (s : State) : Result :=
  let q := rriQueue o
  engWord .acc h (packRRI h 0x3D 0 o) o.q (fun e => stallUnless (e.ule (s.horizonOf s.cur) && !s.stopAtOrBelow s.cur e)) [] 0 0
    (fun _ _ _ _ s' => .done (s'.modCore s.cur fun c =>
      { c.setQueue q [] with landQ := c.landQ.map fun l => if (l.queue.map (·.1)) == some q then { l with queue := none } else l })) s
/-- R380: DQEOS appends an end-of-stream token. -/
def execDqeos (h : Hdr) (o : RRI) (s : State) : Result :=
  let q := rriQueue o
  engWord .acc h (packRRI h 0x3D 1 o) o.q (fun _ => stallUnless (!s.me.queueFull q)) [] 0 0
    (fun e _ _ id s' => .done (s'.pushQ q { eos := true, e := e, id := id })) s
/-- R381: a page request from ACC (R219, R342). -/
def execPgreqAcc (h : Hdr) (o : TN) (s : State) : Result :=
  let w := packTN h 0x3E 0 o
  let at_ (e : Word) : Nat ⊕ Body :=
    match s.accTensor e o with
    | .inr b => .inr b
    | .inl (d, x) =>
      match s.chkBase e w o with
      | some b => .inr b
      | none => match d.locate x with | some (t, _) => .inl t | none => .inr (.fault fTensorBounds (o.tid.setWidth 64))
  engWord .acc h w (guardOf o.q) (fun e => match at_ e with | .inr b => some b | .inl _ => none) [] 0 0
    (fun e _ _ _ s' => match at_ e with | .inr b => b | .inl t => .done (s'.postPage s.cur e o.tid t)) s

/-! ### DATA_LANDED for ACC (R176, R223) -/

/-- Lands the bytes of an entry whose granules `pick` chooses. -/
def landBytes (byte : Nat → Byte) (pick : Nat → Bool) (v : Vec) : Nat → List (Option (Nat × Byte)) → Vec × List (Option (Nat × Byte))
  | _, [] => (v, [])
  | j, x :: xs =>
    let (v', x') : Vec × Option (Nat × Byte) := match x with
      | some (k, m) => if pick (k / 32) then (v ||| ((byte k &&& m).setWidth 2048 <<< (8 * j)), none) else (v, x)
      | none => (v, none)
    let (v'', xs') := landBytes byte pick v' (j + 1) xs
    (v'', x' :: xs')
/-- Lands part of a queue entry: a free choice says which granules are performed now (R370: in no defined order), of those that no earlier load of the
engine has still to read (R224). -/
def State.landEntry (s : State) (c : Core) (x : QEnt) : QEnt :=
  let pick (g : Nat) : Bool := (Config.freeBit s.freeCtr || Config.freeBit (s.freeCtr + 1 + g)) && !c.unlanded x.id [32 * g]
  let (v, src) := landBytes s.byte pick x.data 0 x.src
  { x with data := v, src := src, landed := src.all (·.isNone) }
/-- The landing that a DATA_LANDED of ACC serves: a free choice among those under way. -/
def pickLanding (ctr : Nat) : List Landing → Option Landing
  | [] => none
  | [l] => some l
  | l :: ls => if Config.freeBit (ctr + 7) then some l else pickLanding (ctr + 1) ls
/-- The word of a landing retires (R170) and its signal is applied. -/
def State.finishLanding (s : State) (n : Nat) (l : Landing) : State :=
  ((s.modCore n fun c => { c with landQ := c.landQ.filter fun x => x.id != l.id }).retireIss n .acc l.id).signal n .acc l.sig.toNat 1 l.e
    (s.core n).acc.before l.slot
/-- Data of an ACC load lands: in its queue entry, or in its g register. A load waits for the acquires and fences before it (R228, R230), and a core
without a clock makes no progress (R42). -/
def State.landAcc (s : State) (n : Nat) : State :=
  if !s.coreOn n then s else
  match pickLanding s.freeCtr ((s.core n).landQ.filter fun l => s.clear l.after) with
  | none => s
  | some l =>
    match l.queue with
    | some (q, id) =>
      let xs := ((s.core n).queue q).map fun x => if x.id == id then s.landEntry (s.core n) x else x
      let s := s.modCore n fun c => c.setQueue q xs
      if xs.any fun x => x.id == id && !x.landed then s else s.finishLanding n l
    | none =>
      (match l.g with
       | some k => s.modCore n fun c => { c with gWait := c.gWait.set false k false }
       | none => s).finishLanding n l

end Sys2Proof.Machine
end

