-- ==== Sys2Proof/Machine/Phaser.lean ====
section
/-! DEFINITION. Phasers: registration, arrival, release, drop and the restoration of a stop (R109 to R116). -/

namespace Sys2Proof.Machine

def PMember.signals (m : PMember) : Bool := m.mode.getLsbD 0
def PMember.waits (m : PMember) : Bool := m.mode.getLsbD 1
/-- Whether a member is the tile task (R112). -/
def PMember.isTask (m : PMember) (t : Task) : Bool := m.launch == t.launch && m.team == t.team && m.t == t.t
def Phaser.member (p : Phaser) (t : Task) : Option PMember := p.members.find? (·.isTask t)
def Phaser.modMember (p : Phaser) (t : Task) (f : PMember → PMember) : Phaser :=
  { p with members := p.members.map fun m => if m.isTask t then f m else m }
/-- A registration takes effect at a counter (R112). -/
def PMember.join (m : PMember) (n : Word) : PMember := { m with ms := n, mw := n, since := n }
/-- Whether a signalling member counts as arrived for the phase being gathered; one that has asked to drop does (R114). -/
def PMember.arrived (p : Phaser) (m : PMember) : Bool := p.counter.toNat < m.ms.toNat || m.drop
/-- A free phaser of the launch processors or of programs. -/
def Phaser.isFree (p : Phaser) : Bool := p.owner.isNone

/-- When every registered member has asked to drop, all drops take effect; registrations awaiting the phaser then take effect, and
otherwise it becomes free (R114). A superstep phaser stays with its launch (R109). -/
def Phaser.settle (p : Phaser) : Phaser :=
  if !p.members.isEmpty && p.members.all (·.drop) then
    if p.regs.isEmpty then (if p.super then { p with members := [] } else {})
    else { p with members := p.regs.map fun m => m.join p.counter, regs := [] }
  else if p.members.isEmpty && !p.regs.isEmpty then
    { p with members := p.regs.map fun m => m.join p.counter, regs := [] }
  else p

/-- What a performed registration answers. -/
inductive RegAns where
  | ok (p : Phaser)
  | priv
  | illegal
/-- PHREG performed (R111, R112, R114). -/
def Phaser.register (p : Phaser) (cid : BitVec 12) (inc : BitVec 10) (m : PMember) (t : Task) : RegAns :=
  let p := if p.isFree then { p with owner := some (cid, inc), counter := 0, pending := 0 } else p
  if p.owner != some (cid, inc) then .priv
  else if (p.member t).isSome || p.regs.any (·.isTask t) then .illegal
  else if (m.signals && 256 ≤ ((p.members ++ p.regs).filter (·.signals)).length) || (m.waits && 256 ≤ ((p.members ++ p.regs).filter (·.waits)).length) then .illegal
  else if p.members.any (·.signals) then .ok { p with regs := p.regs ++ [m] }
  else .ok { p with members := p.members ++ [m.join p.counter] }
/-- PHDROP performed: takes effect at the next release, or at once as R114 says; none when the task is no member. -/
def Phaser.dropTask (p : Phaser) (t : Task) : Option Phaser :=
  if (p.member t).isSome then some (p.modMember t fun m => { m with drop := true }).settle
  else if p.regs.any (·.isTask t) then some { p with regs := p.regs.filter fun m => !m.isTask t }
  else none

/-- An arrival for phase ms (R112): it is counted once the operations ordered before it are performed (R231). -/
def Phaser.arrive (p : Phaser) (t : Task) (core : Nat) (e : Word) (bytes : BitVec 32) (after : List Nat) : Phaser :=
  let ms := ((p.member t).map (·.ms)).getD 0
  { p.modMember t (fun m => { m with ms := m.ms + 1 }) with
      pending := p.pending + bytes
      hist := p.hist ++ [{ phase := ms, core := core, crd := e, bytes := bytes, after := after }] }

/-- PHEXP adds bytes (R112), a charge that a stop may undo (R116, R249). -/
def Phaser.expect (p : Phaser) (core : Nat) (e : Word) (bytes : BitVec 32) : Phaser :=
  { p with pending := p.pending + bytes, hist := p.hist ++ [{ phase := p.counter, core := core, crd := e, bytes := bytes, arrives := false }] }
/-- A completion takes its bytes off (R113, R116). -/
def Phaser.completed (p : Phaser) (core : Nat) (e : Word) (bytes : BitVec 32) : Phaser :=
  { p with pending := p.pending - bytes, hist := p.hist ++ [{ phase := p.counter, core := core, crd := e, bytes := bytes, charge := true, arrives := false }] }
/-- Whether the arrivals of the phase being gathered have all been counted. -/
def Phaser.counted (out : Nat → Bool) (p : Phaser) : Bool :=
  p.hist.all fun a => !a.arrives || a.phase != p.counter || a.after.all fun i => !out i
/-- R113: whether the phaser releases its phase. -/
def Phaser.ready (out : Nat → Bool) (p : Phaser) : Bool :=
  p.members.any (·.signals) && (p.members.filter (·.signals)).all (PMember.arrived p) && p.pending == 0 && p.counted out
/-- The coordinate that the waiters of the phase inherit (R115). -/
def Phaser.phaseCrd (p : Phaser) : Word :=
  (p.hist.filter fun a => a.arrives && a.phase == p.counter).foldl (fun m a => if m.ult a.crd then a.crd else m) 0
/-- The release of a phase (R113, R114): drops and registrations take effect. -/
def Phaser.release (p : Phaser) : Phaser :=
  let n := p.counter + 1
  let ms := (p.members.filter fun m => !m.drop) ++ p.regs.map fun m => m.join n
  let p' := { p with counter := n, members := ms, regs := [], relCrd := p.relCrd.set 0 p.counter.toNat p.phaseCrd }
  if ms.isEmpty && !p.super then {} else p'

/-- R116: a stop at K removes the arrivals and charges at or above K, undoes releases that needed any, and restores ms and mw; a member that registered
at an undone release keeps its phases. -/
def Phaser.restore (p : Phaser) (k : Word) : Phaser :=
  let gone := p.hist.filter fun a => k.ule a.crd
  if gone.isEmpty then p else
  let n := gone.foldl (fun m a => Nat.min m a.phase.toNat) p.counter.toNat
  { p with
      counter := BitVec.ofNat 64 n
      pending := gone.foldl (fun m a => if a.charge then m + a.bytes else m - a.bytes) p.pending
      hist := p.hist.filter fun a => !k.ule a.crd
      members := p.members.map fun m =>
        let ms := (gone.filter fun a => a.arrives && a.core == m.core).foldl (fun x a => Nat.min x a.phase.toNat) m.ms.toNat
        { m with ms := BitVec.ofNat 64 ms, mw := BitVec.ofNat 64 (Nat.max m.since.toNat (Nat.min m.mw.toNat n)) } }
/-- Forgets the arrivals and charges of the phases that the horizon has passed (R116). -/
def Phaser.forget (p : Phaser) (h : Word) : Phaser :=
  { p with hist := p.hist.filter fun a =>
      p.counter.ule a.phase || (p.hist.any fun b => b.phase == a.phase && h.ule b.crd) }

/-- PHRD sel 2 (Table 5.4). -/
def Phaser.status (out : Nat → Bool) (p : Phaser) : Word :=
  let sig := p.members.filter (·.signals)
  let narr := (sig.filter (PMember.arrived p)).length
  let st := if p.isFree then 0 else if sig.length != 0 && sig.all (PMember.arrived p) && p.counted out && p.pending != 0 then 2 else 1
  let (cid, inc) := p.owner.getD (0, 0)
  BitVec.ofNat 64 (sig.length + 2 ^ 9 * (p.members.filter (·.waits)).length + 2 ^ 18 * narr + 2 ^ 27 * st + 2 ^ 32 * cid.toNat + 2 ^ 44 * inc.toNat)

/-- TEND and CORE_RETURN drop every registration of a task (R106, R114). -/
def State.dropTaskPhasers (s : State) (t : Task) : State :=
  { s with phasers := s.phasers.filterMap fun (n, p) =>
      let p' := (p.dropTask t).getD p
      if p' = ({} : Phaser) then none else some (n, p') }

end Sys2Proof.Machine
end

