-- ==== Sys2Proof/Machine/ControlSync.lean ====
section
/-! DEFINITION. Phaser words, PHASE, SPAWN, TRAP, BRK, TRET and TEND (R106, R109 to R115, R118, R150, R151, R343 to R345, R351, R352). -/

namespace Sys2Proof.Machine

/-! ### Phaser words (R112, R343) -/

def phNum (a : Word) : BitVec 12 := a.extractLsb' 0 12
/-- A form names a phaser of the launch processors, or one that the core's cache records as another context's (R343). -/
def State.phPriv (s : State) (ph : BitVec 12) : Bool :=
  let o := s.me.phOwn.get 0 ph.toNat
  ph.toNat % 1024 < 64 || (o != 0 && o != s.me.cid)
/-- A PHREG or PHDROP of the core naming the phaser is still held or in flight. -/
def State.phBusy (s : State) (ph : BitVec 12) : Bool :=
  let f (x : Held) : Bool := x.core == s.cur && (match x.act with | .phreg p _ => p == ph | .phdrop p => p == ph | _ => false)
  s.me.hold.any f || s.flying.any f
/-- The core's phaser cache learns an owner. -/
def State.learnPh (s : State) (ph : BitVec 12) : State :=
  s.modCore s.cur fun c => { c with phOwn := c.phOwn.set 0 ph.toNat (((s.phaser ph).owner.map (·.1)).getD 0) }

/-- The tests of a phaser word that is not held: ownership, earlier registrations, membership under a mode. -/
def State.phChk (s : State) (w : Word) (ph : BitVec 12) (ok : PMember → Bool) : (Task × PMember) ⊕ Body :=
  if s.phPriv ph then .inr (.fault fPriv w)
  else if s.phBusy ph then .inr .stall
  else
    match s.me.task with
    | none => .inr (.fault fIllegal w)
    | some t =>
      let p := s.phaser ph
      if p.owner.isSome && p.owner != some (t.cid, t.inc) then .inr (.fault fPriv w) else
      match p.member t with
      | none => .inr (.fault fIllegal w)
      | some m => if ok m then .inl (t, m) else .inr (.fault fIllegal w)

/-- R343: holds a registration. -/
def execPhreg (h : Hdr) (o : SY) (s : State) : Result :=
  let w := packSY h 0x19 0 o
  ccWord h w [(o.a, o.la)] [] (fun e s' =>
    let ph := phNum (s.rdS o.a)
    if s.phPriv ph then .fault fPriv w else .done (s'.ccHold e w 0 (.phreg ph (o.imm.extractLsb' 0 2)) none none)) s
/-- R343: holds a drop. -/
def execPhdrop (h : Hdr) (o : SY) (s : State) : Result :=
  let w := packSY h 0x19 1 o
  ccWord h w [(o.a, o.la)] [] (fun e s' =>
    let ph := phNum (s.rdS o.a)
    if s.phPriv ph then .fault fPriv w else .done (s'.ccHold e w 0 (.phdrop ph) none none)) s
def phBytes (s : State) (o : SY) : BitVec 32 := (s.rdS o.d).extractLsb' 0 32
/-- R112: PHSIG. -/
def execPhsig (h : Hdr) (o : SY) (s : State) : Result :=
  let w := packSY h 0x19 2 o
  ccWord h w [(o.a, o.la), (o.d, false)] [] (fun e s' =>
    let ph := phNum (s.rdS o.a)
    match s.phChk w ph (·.signals) with
    | .inr b => b
    | .inl (t, m) =>
      if (s.phaser ph).counter.toNat < m.ms.toNat then .stall
      else .done ((s'.learnPh ph).setPhaser ph ((s.phaser ph).arrive t s.cur e (phBytes s o) s'.me.cc.before))) s
/-- The coordinate of a phaser's release of phase `n`, once it has been (R115). -/
def State.phInherit (s : State) (ph : BitVec 12) (n : Word) : Word :=
  if n.toNat < (s.phaser ph).counter.toNat then (s.phaser ph).relCrd.get 0 n.toNat else 0
/-- What a core that waits at a phaser inherits at its wake-up. -/
def State.phWake (s : State) : Word := match s.me.ccWait with | some (.phw ph n woke) => woke.getD (s.phInherit ph n) | _ => 0
/-- What a member inherits that awaits a phase released already. -/
def State.phNow (s : State) (ph : BitVec 12) : Word :=
  match s.me.task.bind (s.phaser ph).member with | some m => s.phInherit ph m.mw | none => 0
/-- A member awaits the release of its phase mw. -/
def State.phHold (s : State) (ph : BitVec 12) (m : PMember) : Body := .wait (s.modCore s.cur fun c => { c with ccWait := some (.phw ph m.mw none) })
/-- The wait of a member for phase `n`: its phase mw advances once the phaser has released it; a member whose drop took effect is woken too. -/
def phAwait (ph : BitVec 12) (n : Word) (woke : Option Word) (t : Task) (s' : State) : Body :=
  let p := s'.phaser ph
  match p.member t with
  | none => .done s'
  | some _ => if woke.isNone && p.counter.toNat ≤ n.toNat then .wait s' else .done (s'.setPhaser ph (p.modMember t fun m => { m with mw := m.mw + 1 }))
/-- R112, R115: PHWAIT. -/
def execPhwait (h : Hdr) (o : SY) (s : State) : Result :=
  let w := packSY h 0x19 3 o
  let ph := phNum (s.rdS o.a)
  ccWordAt (if s.me.ccWait.isSome then s.phWake else s.phNow ph) h w [(o.a, o.la)] [] (fun _ s' =>
    match s.me.ccWait, s.me.task with
    | some (.phw q n woke), some t => phAwait q n woke t s'
    | _, _ =>
      match s.phChk w ph (·.waits) with
      | .inr b => b
      | .inl (t, m) => if (s.phaser ph).counter.toNat ≤ m.mw.toNat then (s'.learnPh ph).phHold ph m else phAwait ph m.mw none t (s'.learnPh ph)) s
/-- R112: PHSW: PHSIG, then PHWAIT. -/
def execPhsw (h : Hdr) (o : SY) (s : State) : Result :=
  let w := packSY h 0x19 4 o
  let ph := phNum (s.rdS o.a)
  ccWordAt s.phWake h w [(o.a, o.la), (o.d, false)] [] (fun e s' =>
    match s.me.ccWait, s.me.task with
    | some (.phw q n woke), some t => phAwait q n woke t s'
    | _, _ =>
      match s.phChk w ph (fun m => m.signals && m.waits) with
      | .inr b => b
      | .inl (t, m) =>
        if (s.phaser ph).counter.toNat < m.ms.toNat then .stall
        else ((s'.learnPh ph).setPhaser ph ((s.phaser ph).arrive t s.cur e (phBytes s o) s'.me.cc.before)).phHold ph m) s
/-- R343: PHEXP: pending ← pending + bytes. -/
def execPhexp (h : Hdr) (o : SY) (s : State) : Result :=
  let w := packSY h 0x19 5 o
  ccWord h w [(o.a, o.la), (o.d, false)] [] (fun e s' =>
    let ph := phNum (s.rdS o.a)
    match s.phChk w ph (fun _ => true) with
    | .inr b => b
    | .inl _ => .done ((s'.learnPh ph).setPhaser ph ((s.phaser ph).expect s.cur e (phBytes s o)))) s
/-- R343: PHRD: D ← the phase counter, the pending bytes, or the status. -/
def execPhrd (h : Hdr) (o : SY) (s : State) : Result :=
  let w := packSY h 0x19 6 o
  ccWord h w [(o.a, o.la)] [] (fun e s' =>
    let ph := phNum (s.rdS o.a)
    match s.phChk w ph (fun _ => true) with
    | .inr b => b
    | .inl _ =>
      let p := s.phaser ph
      .done ((s'.learnPh ph).wrS o.d e (if o.imm == 0 then p.counter else if o.imm == 1 then p.pending.setWidth 64 else p.status s.outstanding))) s

/-- The boundary coordinate of a phase (R110). -/
def boundary (n : Word) : Word := (n + 1) <<< 48
/-- R110, R344: PHASE: CRD rises to the boundary, then PHSW on the superstep phaser. -/
def execPhase (h : Hdr) (o : SY) (s : State) : Result :=
  let w := packSY h 0x1A 0 o
  let ph := s.me.task.bind (·.superPh)
  let n := ((ph.map s.phaser).map (·.counter)).getD 0xFFFF
  ccWordAt (if s.me.ccWait.isSome then s.phWake else if n == 0xFFFF then 0 else boundary n) h w [(o.a, o.la)] [] (fun e s' =>
    match s.me.task, ph with
    | some t, some ph =>
      match s.me.ccWait with
      | some (.phw q k woke) => phAwait q k woke t s'
      | _ =>
        if n == 0xFFFF then .fault fIllegal w
        else
          match (s.phaser ph).member t with
          | none => .fault fIllegal w
          | some m =>
            if n.toNat < m.ms.toNat then .stall else
            let b := boundary n
            let s' := if s.me.cc.crd.ult b then s'.setCcCrd s.me.cc e s.me.pc b else s'
            (s'.setPhaser ph ((s.phaser ph).arrive t s.cur e ((s.rdS o.a).extractLsb' 0 32) s'.me.cc.before)).phHold ph m
    | _, _ => .fault fIllegal w) s

/-! ### SPAWN (R118, R345) -/

/-- The tests of SPAWN at issue: the descriptor's address, and the pending-spawn slot (R120). -/
def State.spawnChk (s : State) (a : Word) : Option Body :=
  if a.toNat % 64 != 0 then some (.fault fRawWindow a) else
  match s.coreKeys s.cur a 64 .r with
  | .inr f => some (.fault f a)
  | .inl _ => if s.me.spawnSlot.isSome then some .stall else none
/-- R345: holds the creation of a child launch. -/
def execSpawn (h : Hdr) (o : SY) (s : State) : Result :=
  let w := packSY h 0x1B 0 o
  ccWord h w [(o.a, o.la)] [] (fun e s' =>
    match s.spawnChk (s.rdS o.a) with
    | some b => b
    | none => .done (s'.ccHold e w 0 (.spawn (s.rdS o.a) false) (some 3) none)) s
/-- R118, R345: SPAWNW also waits until the child launch is COMPLETE. -/
def execSpawnw (h : Hdr) (o : SY) (s : State) : Result :=
  let w := packSY h 0x1B 1 o
  ccWord h w [(o.a, o.la)] [] (fun e s' =>
    match s.me.ccWait with
    | some (.spawnw _ id) =>
      if s.launches.any fun (_, l) => match l with | some l => l.spawnId == id && l.st == .complete | none => false then .done s' else .wait s'
    | _ =>
      match s.spawnChk (s.rdS o.a) with
      | some b => b
      | none =>
        .wait ((s'.ccHold e w 0 (.spawn (s.rdS o.a) true) (some 3) none).modCore s.cur fun c => { c with ccWait := some (.spawnw none s'.placedId) })) s

/-! ### TRAP, BRK, TRET, TEND -/

/-- R351: raises TRAP, restart "after". -/
def execTrap (h : Hdr) (o : SY) (s : State) : Result :=
  ccWord h (packSY h 0x22 0 o) [] [] (fun _ s' => .after s' fTrap (o.imm.setWidth 64)) s
/-- R351: raises BRK, restart "after". -/
def execBrk (h : Hdr) (o : SY) (s : State) : Result :=
  ccWord h (packSY h 0x22 1 o) [] [] (fun _ s' => .after s' fBrk (o.imm.setWidth 64)) s

/-- R184, R151: the captured state is given back: each result in flight lands as many cycles from now as remained. -/
def Core.reinject (c : Core) (now : Nat) : Core :=
  match c.capture with
  | none => c
  | some t =>
    let d := now - t
    let later (v : Nat) : Nat := if t < v then v + d else v
    { c with capture := none, gAvail := c.gAvail.map (fun (k, v) => (k, later v)), exeQ := c.exeQ.map (fun x => { x with avail := later x.avail }),
             pendBits := c.pendBits.map (fun (k, v) => (k, if v < 2 ^ 40 then later v else v)),
             accFlight := c.accFlight.map (fun f => { f with avail := later f.avail }), exeAvail := c.exeAvail.map (fun (k, v) => (k, later v)) }
/-- Faults that an EXE word raises at commit, with its word at the head of the commit queue (R392, R402). -/
def commitFault (code : BitVec 8) : Bool := code == fDfqFull || code == fProbDep
/-- The EXE word at the head of the commit queue retires with no effect and no signal. -/
def State.dropExe (s : State) (n : Nat) : State :=
  match (s.core n).exeQ with
  | [] => s
  | x :: xs => (s.modCore n fun c => { c with exeQ := xs }).retireIss n .exe x.id
/-- A matrix word at a ring slot retires with no effect and no signal (R425): one that had issued keeps what it has performed. -/
def State.dropMtx (s : State) (n : Nat) (slot : BitVec 16) : State :=
  let c := s.core n
  match c.mx.ops.find? fun o => o.slot == slot with
  | some o => (s.modCore n fun c => { c with mx := { c.mx with ops := c.mx.ops.filter fun p => p.id != o.id } }).retireIss n .mtx o.id
  | none =>
    let id := s.nextId
    (({ s with nextId := id + 1 } : State).modCore n fun c =>
      { c with mtx := ({ c.mtx with iss := c.mtx.iss ++ [{ pos := slot, e := maxW c.mtx.elast c.mtx.crd, retired := true, snap := c.mtx.snap, id := id }] } : EngSt).passIssued 65536 })
      |>.trimEng n .mtx
/-- A copy word at a ring slot retires with no effect and no signal (R440); none when it has not issued. -/
def State.dropCpy (s : State) (n : Nat) (slot : BitVec 16) : Option State :=
  ((s.core n).cpyQ.find? fun o => o.slot == slot && !o.done).map fun o =>
    (s.modCore n fun c => { c with cpyQ := c.cpyQ.filter fun p => p.id != o.id }).retireIss n .cpy o.id
/-- The "before" word of an engine that is passed over: it retires with no effect and no signal. -/
def State.skipWord (s : State) (n : Nat) (eng : Eng) (code : BitVec 8) (slot : BitVec 16) : State :=
  if eng == .exe && commitFault code then s.dropExe n
  else if eng == .mtx then s.dropMtx n slot
  else
    match if eng == .cpy then s.dropCpy n slot else none with
    | some s => s
    | none => s.passWord n eng (((s.core n).eng eng).skip)
/-- R151: the return from a handler: PC ← TEPC, INH ← 0; with SKIP the "before" word of an engine retires with no effect and no
signal, and that of the control core is passed. -/
def State.trapReturn (s : State) (n : Nat) : State :=
  let c := s.core n
  let eng := engOfNum (c.tcause.extractLsb' 8 3).toNat
  let skip := c.trapBefore && tcSkip c.tcause
  let pc := if skip && eng == .cc then c.tepc + 8 else c.tepc
  let s := s.modCore n fun c =>
    let x := { c.reinject s.cycle with fetched := [], tcause := c.tcause &&& ~~~(1#64 <<< 11), savedWait := none }
    match c.savedWait with
    | some (w, a) =>
      if skip && eng == .cc then { x with pc := pc } else { x with ccWait := some w, pc := a, resumeAt := if pc == a + 8 || pc == a then none else some pc }
    | none => { x with pc := pc }
  if skip && eng != .cc then s.skipWord n eng (c.tcause.setWidth 8) c.trapSlot else s
/-- R151, R351: TRET; ILLEGAL when no handler runs. -/
def execTret (h : Hdr) (o : SY) (s : State) : Result :=
  let w := packSY h 0x23 0 o
  ccWord h w [] [] (fun _ s' => if !tcInh s.me.tcause then .fault fIllegal w else .done (s'.trapReturn s.cur)) s

/-- Whether every engine of a core has retired every word pushed to it. -/
def Core.drained (c : Core) : Bool :=
  [Eng.acc, .exe, .mtx, .cpy, .net].all (fun e =>
    let x := c.eng e
    x.ring.head == x.ring.tail && x.loops.isEmpty && x.iss.all (·.retired)) && c.exeQ.isEmpty && c.mx.ops.isEmpty && c.cpyQ.isEmpty
/-- The number of teams of a launch (R98). -/
def LDesc.teams (d : LDesc) : Nat := d.gx * d.gy * d.gz
/-- A tile task ends in its team and launch (Table 5.2): the team with its last task, the launch with its last team. -/
def Launch.taskEnd (l : Launch) (t : Task) : Launch :=
  let ts := l.teams.map fun x =>
    if x.idx == t.team then
      let x := { x with ended := t.t :: x.ended }
      if l.desc.tasks ≤ x.ended.length then { x with st := .ended } else x
    else x
  { l with teams := ts, st := if ts.length == l.desc.teams && ts.all (·.st == .ended) then .draining else l.st }
def State.modLaunch (s : State) (k : Nat) (f : Launch → Launch) : State := { s with launches := s.launches.modify none k fun l => l.map f }

/-- The end of a tile task: registrations dropped, locks released, flags joined to the context's word (R106, R158, R166). -/
def State.endTask (s : State) (n : Nat) (e : Word) (t : Task) : State :=
  let c := s.core n
  let snap : EndSnap := { members := s.phasers.filterMap fun (k, p) => (p.member t).map fun m => (k, m), locks := c.locks }
  let s := s.orFlags t.cid c.flags
  ((s.modLaunch t.launch fun l => l.taskEnd t).dropTaskPhasers t).modCore n fun c =>
    { c with task := some { t with ended := true, tending := true }, locks := [], flags := 0, endSnap := if s.logs n e then some snap else none,
             icache := unlockRange c.icache 0 (2 ^ 58) }
/-- R106, R352: TEND waits for every engine and ends the tile task; ILLEGAL while a handler runs. -/
def execTend (h : Hdr) (o : SY) (s : State) : Result :=
  let w := packSY h 0x27 0 o
  ccWord h w [] [] (fun e s' =>
    match s.me.task with
    | none => .fault fIllegal w
    | some t =>
      if tcInh s.me.tcause then .fault fIllegal w
      else if s.me.drained then .done (s'.endTask s.cur e t)
      else .wait (s'.modCore s.cur fun c => { c with task := some { t with tending := true }, ccWait := some (.join [] []) })) s

end Sys2Proof.Machine
end

