-- ==== Sys2Proof/Machine/Flags.lean ====
section
/-! DEFINITION. Number formats, exact values, rounding and the numeric flags (R271 to R286, R291 to R298, Table 7.7): every value is
formed exactly as a fraction and narrowed once. -/

namespace Sys2Proof.Machine

/-! ### Flags (Table 7.7) -/

abbrev Flags := BitVec 8
def flInvalid : Flags := 0x01
def flDivZero : Flags := 0x02
def flOverflow : Flags := 0x04
def flUnderflow : Flags := 0x08
def flInexact : Flags := 0x10
def flSat : Flags := 0x20
def flIovf : Flags := 0x40
def flQdep : Flags := 0x80
/-- A flag under a condition. -/
def flIf (b : Bool) (f : Flags) : Flags := if b then f else 0

/-! ### Formats (R272, Table 12.2) -/

/-- A floating-point format: mantissa and exponent widths, bias, the code of its largest finite magnitude, whether it has infinities. -/
structure Fmt where
  mant : Nat
  ebits : Nat
  bias : Nat
  maxCode : Nat
  hasInf : Bool := true
  deriving DecidableEq, Repr

def fp32 : Fmt := { mant := 23, ebits := 8, bias := 127, maxCode := 0x7F7FFFFF }
def bf16 : Fmt := { mant := 7, ebits := 8, bias := 127, maxCode := 0x7F7F }
def fp16 : Fmt := { mant := 10, ebits := 5, bias := 15, maxCode := 0x7BFF }
def e5m2 : Fmt := { mant := 2, ebits := 5, bias := 15, maxCode := 0x7B }
def e4m3 : Fmt := { mant := 3, ebits := 4, bias := 7, maxCode := 0x7E, hasInf := false }
/-- The float of a code 0 to 4 of Table 12.1, which are also the type codes T (R307). -/
def fmtOf (c : Nat) : Fmt := [fp32, bf16, fp16, e5m2, e4m3].getD c fp32
def Fmt.width (F : Fmt) : Nat := 1 + F.ebits + F.mant
def Fmt.signBit (F : Fmt) : Nat := 2 ^ (F.ebits + F.mant)
def Fmt.infCode (F : Fmt) : Nat := (2 ^ F.ebits - 1) * 2 ^ F.mant
/-- The canonical NaN (R273). -/
def Fmt.nan (F : Fmt) : Nat := if F.hasInf then F.infCode + 2 ^ (F.mant - 1) else 0x7F
def Fmt.signed (F : Fmt) (neg : Bool) (c : Nat) : Nat := if neg then F.signBit + c else c

/-- An exact value: a NaN with sign, whether it signals, and its mantissa at the top of FP32's (R283); an infinity; or a signed
fraction with a positive denominator, the zeros keeping their sign. -/
inductive Val where
  | nan (neg sig : Bool) (m : Nat)
  | inf (neg : Bool)
  | fin (neg : Bool) (num den : Nat)
  deriving DecidableEq, Repr

def Val.isNan : Val → Bool | .nan _ _ _ => true | _ => false
def Val.isSig : Val → Bool | .nan _ s _ => s | _ => false
def Val.isInf : Val → Bool | .inf _ => true | _ => false
def Val.isZero : Val → Bool | .fin _ n _ => n == 0 | _ => false
def Val.neg? : Val → Bool | .nan n _ _ => n | .inf n => n | .fin n _ _ => n
def Val.negate : Val → Val | .nan n s m => .nan (!n) s m | .inf n => .inf (!n) | .fin n a b => .fin (!n) a b
/-- The canonical NaN as a value. -/
def Val.cnan : Val := .nan false false (2 ^ 22)
def Val.ofInt (x : Int) : Val := .fin (x < 0) x.natAbs 1
/-- `m` × 2^`e`. -/
def Val.scaled (neg : Bool) (m : Nat) (e : Int) : Val := if 0 ≤ e then .fin neg (m * 2 ^ e.toNat) 1 else .fin neg m (2 ^ (-e).toNat)

/-- The value of a code (R272, R273). -/
def Fmt.decode (F : Fmt) (c : Nat) : Val :=
  let neg := c / F.signBit % 2 == 1
  let e := c / 2 ^ F.mant % 2 ^ F.ebits
  let m := c % 2 ^ F.mant
  if e == 2 ^ F.ebits - 1 && F.hasInf then
    (if m == 0 then .inf neg else .nan neg (m / 2 ^ (F.mant - 1) == 0) (m * 2 ^ (23 - F.mant)))
  else if !F.hasInf && c % F.signBit == 0x7F then .nan neg false (7 * 2 ^ 20)
  else if e == 0 then Val.scaled neg m (1 - (F.bias : Int) - F.mant)
  else Val.scaled neg (2 ^ F.mant + m) ((e : Int) - F.bias - F.mant)
/-- R274: an E8M0 code. -/
def e8m0 (c : Nat) : Val := if c == 0xFF then .cnan else Val.scaled false 1 ((c : Int) - 127)

/-! ### Rounding (R278 to R281) -/

/-- How a result is rounded: the mode of Table 12.3, .sat, and the hash that stochastic rounding takes. -/
structure Rm where
  mode : Nat := 0
  sat : Bool := false
  u : Nat := 0
  deriving DecidableEq, Repr

/-- Rounds a fraction to an integer: the magnitude, and whether it was inexact. -/
def rint (r : Rm) (neg : Bool) (num den : Nat) : Nat × Bool :=
  let q := num / den
  let x := num % den
  if x == 0 then (q, false) else
  let up := match r.mode with
    | 0 => den < 2 * x || (2 * x == den && q % 2 == 1)
    | 1 => false
    | 2 => neg
    | 3 => !neg
    | _ => r.u < x * 2 ^ 32 / den
  (if up then q + 1 else q, true)
/-- ⌊log2⌋ of a positive fraction. -/
def ilog2 (num den : Nat) : Int :=
  let k : Int := (Nat.log2 num : Int) - Nat.log2 den
  if 0 ≤ k then (if den * 2 ^ k.toNat ≤ num then k else k - 1) else (if den ≤ num * 2 ^ (-k).toNat then k else k - 1)
/-- A fraction divided by 2^`k`. -/
def scaleDown (num den : Nat) (k : Int) : Nat × Nat := if 0 ≤ k then (num, den * 2 ^ k.toNat) else (num * 2 ^ (-k).toNat, den)

/-- Rounds a finite value to a code, with the flags of R280 and R281. -/
def Fmt.rnd (F : Fmt) (r : Rm) (neg : Bool) (num den : Nat) : Nat × Flags :=
  if num == 0 then (F.signed neg 0, 0) else
  let e := ilog2 num den
  let emin : Int := 1 - F.bias
  let qe := max e emin - F.mant
  let (a, b) := scaleDown num den qe
  let (n, ix) := rint r neg a b
  let code := n + (qe - (emin - F.mant)).toNat * 2 ^ F.mant
  if F.maxCode < code then
    if r.sat then (F.signed neg F.maxCode, flSat ||| flInexact) else
    let away := r.mode == 0 || 4 ≤ r.mode || (r.mode == 2 && neg) || (r.mode == 3 && !neg)
    (F.signed neg (if away then (if F.hasInf then F.infCode else F.nan) else F.maxCode), flOverflow ||| flInexact)
  else
    -- tiny after rounding: rounded as if the exponent had no lower bound, the magnitude stays below 2^emin
    let (a', b') := scaleDown num den (e - F.mant)
    let tiny := e < emin && (e + 1 < emin || (rint r neg a' b').1 < 2 ^ (F.mant + 1))
    (F.signed neg code, flIf ix flInexact ||| flIf (ix && tiny) flUnderflow)

/-- The code of a NaN: its sign and top mantissa bits, quieted (R282, R283). -/
def Fmt.nanCode (F : Fmt) (neg : Bool) (m : Nat) : Nat :=
  if F.hasInf then F.signed neg (F.infCode + (m / 2 ^ (23 - F.mant) ||| 2 ^ (F.mant - 1))) else F.signed neg 0x7F
/-- A value as a code of a float format (R280, R283). -/
def Fmt.encode (F : Fmt) (r : Rm) : Val → Nat × Flags
  | .nan neg _ m => (F.nanCode neg m, 0)
  | .inf neg => if F.hasInf then (F.signed neg F.infCode, 0) else (F.signed neg F.nan, flInvalid)
  | .fin neg n d => F.rnd r neg n d
/-- RNE to FP32. -/
def rne32 (v : Val) : Nat × Flags := fp32.encode {} v

/-! ### Arithmetic on exact values (R282) -/

/-- The first NaN operand, with INVALID when any operand signals. -/
def nanOf (vs : List Val) : Option (Val × Flags) :=
  (vs.find? Val.isNan).map fun v => (v, flIf (vs.any Val.isSig) flInvalid)
/-- The sum of two values that are no NaN; a zero sum of opposite signs is +0, or −0 toward −∞. -/
def addFin (mode : Nat) : Val → Val → Val × Flags
  | .inf a, .inf b => if a == b then (.inf a, 0) else (.cnan, flInvalid)
  | .inf a, _ => (.inf a, 0)
  | _, .inf b => (.inf b, 0)
  | .fin s a b, .fin t c d =>
    let x : Int := (if s then -(a * d : Int) else a * d) + (if t then -(c * b : Int) else c * b)
    if x == 0 then (.fin (if a == 0 && c == 0 && s == t then s else mode == 2) 0 1, 0) else (.fin (x < 0) x.natAbs (b * d), 0)
  | _, _ => (.cnan, 0)
/-- The product of two values that are no NaN. -/
def mulFin : Val → Val → Val × Flags
  | .fin s a b, .fin t c d => (.fin (s != t) (a * c) (b * d), 0)
  | .inf s, .fin t c _ => if c == 0 then (.cnan, flInvalid) else (.inf (s != t), 0)
  | .fin s a _, .inf t => if a == 0 then (.cnan, flInvalid) else (.inf (s != t), 0)
  | .inf s, .inf t => (.inf (s != t), 0)
  | _, _ => (.cnan, 0)
def vadd (mode : Nat) (a b : Val) : Val × Flags := (nanOf [a, b]).getD (addFin mode a b)
def vsub (mode : Nat) (a b : Val) : Val × Flags := (nanOf [a, b]).getD (addFin mode a b.negate)
def vmul (a b : Val) : Val × Flags := (nanOf [a, b]).getD (mulFin a b)
/-- ±(A × B) ± C in one rounding. -/
def vfma (mode : Nat) (negP negC : Bool) (a b c : Val) : Val × Flags :=
  (nanOf [a, b, c]).getD
    (match mulFin a b with
     | (p, 0) => addFin mode (if negP then p.negate else p) (if negC then c.negate else c)
     | r => r)
/-- A / B: x / ±0 is ±∞ with DIVZERO (Table 12.5). -/
def vdiv (a b : Val) : Val × Flags :=
  (nanOf [a, b]).getD
    (match a, b with
     | .inf _, .inf _ => (.cnan, flInvalid)
     | .inf s, .fin t _ _ => (.inf (s != t), 0)
     | .fin s _ _, .inf t => (.fin (s != t) 0 1, 0)
     | .fin s n d, .fin t m e =>
       if m == 0 then (if n == 0 then (.cnan, flInvalid) else (.inf (s != t), flDivZero)) else (.fin (s != t) (n * e) (d * m), 0)
     | _, _ => (.cnan, 0))

/-- Integer square root by Newton steps from above. -/
def isqrtGo (n : Nat) : Nat → Nat → Nat
  | 0, x => x
  | f + 1, x => let y := (x + n / x) / 2; if y < x then isqrtGo n f y else x
def isqrt (n : Nat) : Nat := if n == 0 then 0 else isqrtGo n (Nat.log2 n + 2) (2 ^ (Nat.log2 n / 2 + 1))
/-- √(num / den) to 300 places, with half a last place added when it is inexact, so that every later rounding is that of the root. -/
def rootFin (num den : Nat) : Val :=
  let x := num * 4 ^ 300 / den
  let r := isqrt x
  if r * r * den == num * 4 ^ 300 then .fin false r (2 ^ 300) else .fin false (2 * r + 1) (2 ^ 301)
def vsqrt (a : Val) : Val × Flags :=
  (nanOf [a]).getD
    (match a with
     | .fin s n d => if n == 0 then (.fin s 0 1, 0) else if s then (.cnan, flInvalid) else (rootFin n d, 0)
     | .inf s => if s then (.cnan, flInvalid) else (.inf false, 0)
     | _ => (.cnan, 0))
def vrcp (a : Val) : Val × Flags := vdiv (.fin false 1 1) a
def vrsq (a : Val) : Val × Flags :=
  (nanOf [a]).getD
    (match a with
     | .fin s n d => if n == 0 then (.inf s, flDivZero) else if s then (.cnan, flInvalid) else (rootFin d n, 0)
     | .inf s => if s then (.cnan, flInvalid) else (.fin false 0 1, 0)
     | _ => (.cnan, 0))

/-- Order of two values that are no NaN, with −0 equal to +0: −1, 0 or 1. -/
def cmpVal : Val → Val → Int
  | .inf s, .inf t => if s == t then 0 else if s then -1 else 1
  | .inf s, _ => if s then -1 else 1
  | _, .inf t => if t then 1 else -1
  | .fin s a b, .fin t c d =>
    let x : Int := (if s then -(a * d : Int) else a * d) - (if t then -(c * b : Int) else c * b)
    if x < 0 then -1 else if x == 0 then 0 else 1
  | _, _ => 0
/-- Order with −0 below +0 (R291, R382). -/
def totVal (a b : Val) : Int :=
  let c := cmpVal a b
  if c == 0 && a.isZero && b.isZero then (if a.neg? == b.neg? then 0 else if a.neg? then -1 else 1) else c
/-- The smaller or larger of two values. -/
def vminmax (larger : Bool) (a b : Val) : Val × Flags :=
  (nanOf [a, b]).getD (if larger then (if totVal a b < 0 then b else a, 0) else (if totVal b a < 0 then b else a, 0))

/-! ### Functions (R292, Table 12.5) -/

/-- The fixed-point places of the functions. -/
def fxP : Nat := 256
/-- 2^F with F = `f` / 2^`n`: each bit of F multiplies by a root of 2, `c` being 2^(2^-i) in `fxP` places. -/
def exp2Go (f : Nat) : Nat → Nat → Nat → Nat
  | 0, _, acc => acc
  | n + 1, c, acc =>
    let c' := isqrt (c * 2 ^ fxP)
    exp2Go f n c' (if f / 2 ^ n % 2 == 1 then acc * c' / 2 ^ fxP else acc)
/-- The fractional places of FP32 values. -/
def fxX : Nat := 149
/-- 2^x of a finite value, sticky unless x is an integer; far out of range any value that rounds alike stands for it. -/
def exp2Fin (neg : Bool) (num den : Nat) : Val :=
  if den * 2 ^ 12 ≤ num then Val.scaled false 3 (if neg then -4097 else 4096) else
  let x : Int := if neg then -((num * 2 ^ fxX / den : Nat) : Int) else ((num * 2 ^ fxX / den : Nat) : Int)
  let i := x / (2 ^ fxX : Int)
  let f := (x % (2 ^ fxX : Int)).toNat
  if f == 0 then Val.scaled false 1 i
  else Val.scaled false (2 * exp2Go f fxX (2 * 2 ^ fxP) (2 ^ fxP) + 1) (i - 1 - fxP)
def vexp2 (a : Val) : Val × Flags :=
  (nanOf [a]).getD
    (match a with
     | .inf s => (if s then .fin false 0 1 else .inf false, 0)
     | .fin s n d => (exp2Fin s n d, 0)
     | _ => (.cnan, 0))
/-- The places of the squarings of log2. -/
def fxL : Nat := 512
/-- `n` fraction bits of log2 of a mantissa in [1, 2) by repeated squaring. -/
def log2Go : Nat → Nat → Nat → Nat
  | 0, _, acc => acc
  | n + 1, m, acc =>
    let q := m * m / 2 ^ fxL
    if 2 ^ (fxL + 1) ≤ q then log2Go n (q / 2) (2 * acc + 1) else log2Go n q (2 * acc)
/-- log2 of a positive value: exact for a power of 2, else to 200 places and sticky. -/
def log2Fin (num den : Nat) : Val :=
  let e := ilog2 num den
  let (a, b) := scaleDown num den (e - fxL)
  let m := a / b
  if m == 2 ^ fxL then Val.ofInt e
  else
    let x : Int := 2 * (e * 2 ^ 200 + log2Go 200 m 0) + 1
    .fin (x < 0) x.natAbs (2 ^ 201)
def vlog2 (a : Val) : Val × Flags :=
  (nanOf [a]).getD
    (match a with
     | .inf s => if s then (.cnan, flInvalid) else (.inf false, 0)
     | .fin s n d => if n == 0 then (.inf true, flDivZero) else if s then (.cnan, flInvalid) else (log2Fin n d, 0)
     | _ => (.cnan, 0))
/-- log2 of e in 240 places. -/
def log2e : Nat := 0x171547652b82fe1777d0ffda0d23a7d11d6aef551bad2b4b1164a2cd9a342
/-- tanh of a positive finite value to about 200 places, as a fraction below 1. -/
def tanhMid (num den : Nat) : Nat × Nat :=
  let y := 2 * num * log2e * 2 ^ fxX / (den * 2 ^ 240)
  let t := exp2Go (y % 2 ^ fxX) fxX (2 * 2 ^ fxP) (2 ^ fxP) * 2 ^ (y / 2 ^ fxX)
  (t - 2 ^ fxP, t + 2 ^ fxP)
/-- tanh on an FP32 lane (R292): one of the two codes around the exact result, the same for every core; tanh(±0) and tanh(±∞) exactly. -/
def tanh32 (c : Nat) : Nat × Flags :=
  match fp32.decode c with
  | .nan n s m => (fp32.nanCode n m, flIf s flInvalid)
  | .inf s => (fp32.signed s 0x3F800000, 0)
  | .fin s n d =>
    if n == 0 then (fp32.signed s 0, 0) else
    let below : Nat :=
      if n * 2 ^ 12 ≤ d then c % 2 ^ 31 - 1           -- x − x³/3 < tanh x < x lies less than one place below x
      else if 16 * d ≤ n then 0x3F7FFFFF
      else let (a, b) := tanhMid n d; (fp32.rnd { mode := 1 } false a b).1
    let r := if Config.tanhUp (BitVec.ofNat 32 c) then below + 1 else below
    (fp32.signed s r, flInexact ||| flIf (r < 2 ^ 23) flUnderflow)

/-! ### Conversions (R283) -/

/-- The float or integer behind a format code of Table 12.1 that a conversion accepts. -/
def isFloat (c : Nat) : Bool := c ≤ 4
def isIntFmt (c : Nat) : Bool := 8 ≤ c && c ≤ 15
/-- Bits of an integer format, and whether it is signed. -/
def intBits (c : Nat) : Nat := 8 * 2 ^ (c % 4)
def intSigned (c : Nat) : Bool := c < 12
def intVal (c x : Nat) : Int :=
  let x := x % 2 ^ intBits c
  if intSigned c && 2 ^ (intBits c - 1) ≤ x then (x : Int) - 2 ^ intBits c else x
def intLo (c : Nat) : Int := if intSigned c then -(2 ^ (intBits c - 1) : Int) else 0
def intHi (c : Nat) : Int := if intSigned c then 2 ^ (intBits c - 1) - 1 else 2 ^ intBits c - 1
def intCode (c : Nat) (x : Int) : Nat := (x % (2 ^ intBits c : Int)).toNat
/-- The value of a code of any accepted format. -/
def decodeFmt (c x : Nat) : Val :=
  if isFloat c then (fmtOf c).decode x else if c == 6 then e8m0 (x % 256) else Val.ofInt (intVal c x)
/-- A value to an integer format. -/
def toIntFmt (r : Rm) (c : Nat) : Val → Nat × Flags
  | .nan _ _ _ => (0, flInvalid)
  | .inf neg => (intCode c (if neg then intLo c else intHi c), if r.sat then flSat else flInvalid)
  | .fin neg n d =>
    let (q, ix) := rint r neg n d
    let x : Int := if neg then -(q : Int) else q
    if x < intLo c then (intCode c (intLo c), if r.sat then flSat else flInvalid)
    else if intHi c < x then (intCode c (intHi c), if r.sat then flSat else flInvalid)
    else (intCode c x, flIf ix flInexact)
/-- A value to E8M0: ⌊log2 x⌋ + 127, clamped. -/
def toE8m0 : Val → Nat × Flags
  | .nan _ _ _ => (0xFF, flInvalid)
  | .inf neg => if neg then (0xFF, flInvalid) else (254, flSat)
  | .fin neg n d =>
    if neg || n == 0 then (0xFF, flInvalid) else
    let e := ilog2 n d
    let (a, b) := scaleDown n d e
    let k := e + 127
    let ix := flIf (a != b) flInexact
    if k < 0 then (0, flSat ||| ix) else if 254 < k then (254, flSat ||| ix) else (k.toNat, ix)
/-- CVT of R283: from format `f` to format `g`. -/
def cvt (r : Rm) (f g x : Nat) : Nat × Flags :=
  if f == g then (x, 0)
  else if isIntFmt f && isIntFmt g then
    let v := intVal f x
    if r.sat && (v < intLo g || intHi g < v) then (intCode g (if v < intLo g then intLo g else intHi g), flSat) else (intCode g v, 0)
  else
    let v := decodeFmt f x
    let sig := flIf v.isSig flInvalid
    let (y, fl) :=
      if isFloat g then
        (match v with
         | .inf neg => if r.sat && g != 0 then ((fmtOf g).signed neg (fmtOf g).maxCode, flSat) else (fmtOf g).encode r v
         | v => (fmtOf g).encode r v)
      else if g == 6 then toE8m0 v else toIntFmt r g v
    (y, sig ||| fl)

/-! ### Blocks (R275, R285) -/

/-- The magnitude of an E2M1 code times 2. -/
def e2m1x2 (c : Nat) : Nat := [0, 1, 2, 3, 4, 6, 8, 12].getD (c % 8) 0
/-- R275: an element under its block's scale and special byte. -/
def e2m1s (code s z : Nat) : Val :=
  if s == 0xFF then .cnan
  else if code == 8 then
    (if z == 0 then .fin false 0 1 else
     match e4m3.decode z with
     | .fin n a b => (mulFin (.fin n a b) (e8m0 s)).1
     | v => v)
  else (mulFin (.fin (8 ≤ code) (e2m1x2 code) 2) (e8m0 s)).1
/-- A signed fraction as a multiple of 2^-`k`. -/
def fixVal (k : Nat) : Val → Int
  | .fin s n d => let x : Int := (n * 2 ^ k / d : Nat); if s then -x else x
  | _ => 0
/-- The candidates of a block's grid: the 15 E2M1 codes other than 1000, as (code, value in halves). -/
def gridCodes : List (Nat × Int) := ((List.range 16).filter (· != 8)).map fun c => (c, if 8 ≤ c then -(e2m1x2 c : Int) else e2m1x2 c)
/-- The better of two candidates for `y` (all in units of 2^-`u` ×½): nearer, then grid before 1000, then mantissa bit 0 (R285). -/
def nearer (y : Int) (a b : Nat × Int) : Nat × Int :=
  let da := (y - a.2).natAbs
  let db := (y - b.2).natAbs
  if db < da then b
  else if da < db then a
  else if a.1 == 8 then b else if b.1 == 8 then a
  else if b.1 % 2 == 0 && a.1 % 2 == 1 then b else a
/-- The candidate that `y`, scaled by 2^(`u`+1), takes, with special value `v` (none for 0x00); a negative zero becomes code 0. -/
def blockPick (u : Nat) (v : Option Int) (y : Int) : Nat × Int :=
  let cs := gridCodes.map fun (c, x) => (c, x * 2 ^ u)
  let cs := match v with | some x => cs ++ [(8, x)] | none => cs
  cs.foldl (fun m c => nearer y m c) (0, 0)
/-- The error of a special byte. -/
def blockErr (u : Nat) (ys : List Int) (v : Option Int) : Nat :=
  ys.foldl (fun m y => m + (y - (blockPick u v y).2).natAbs ^ 2) 0
/-- Places below one half of the scaled block values: enough for an FP32 value under any scale and for E4M3. -/
def blkU : Nat := 290
/-- The special value of a byte in units of 2^-(`blkU`+1). -/
def blkSpecial (z : Nat) : Option Int := if z == 0 then none else some (fixVal (blkU + 1) (e4m3.decode z))
/-- The special bytes tried, in ascending order. -/
def blkBytes : List Nat := (List.range 256).filter fun z => z != 0x7F && z != 0xFF
/-- R285: quantises 32 values: scale, special byte, codes, flags. -/
def quantBlock (xs : List Val) : Nat × Nat × List Nat × Flags :=
  if xs.any fun x => x.isNan || x.isInf then (0xFF, 0, List.replicate 32 0, flInvalid) else
  let amax := xs.foldl (fun (m : Nat × Nat) x => match x with | .fin _ n d => if m.1 * d < n * m.2 then (n, d) else m | _ => m) (0, 1)
  if amax.1 == 0 then (0, 0, List.replicate 32 0, 0) else
  let k := ilog2 amax.1 amax.2 - 2 + 127
  let s : Nat := if k < 0 then 0 else if 254 < k then 254 else k.toNat
  let ys := xs.map fun x => match x with
    | .fin n a b => let (a, b) := scaleDown a b ((s : Int) - 127); fixVal (blkU + 1) (.fin n a b)
    | _ => 0
  let best := blkBytes.foldl (fun (m : Nat × Nat) z => let r := blockErr blkU ys (blkSpecial z); if r < m.2 then (z, r) else m)
    (0, blockErr blkU ys none)
  let cs := ys.map (blockPick blkU (blkSpecial best.1))
  (s, best.1, cs.map (·.1), flIf (best.2 != 0) flInexact)

/-! ### The device hash and probability fractions (R293 to R298) -/

/-- R296. -/
def devHash (lane crd seed : BitVec 32) : BitVec 32 :=
  let u := lane ^^^ (crd <<< 8) ^^^ seed
  let u := u ^^^ (u >>> 16)
  let u := u * 0x7FEB352D
  let u := u ^^^ (u >>> 15)
  let u := u * 0x846CA68B
  u ^^^ (u >>> 16)
/-- The hash of stochastic rounding (R279). -/
def srHash (seed : BitVec 64) (crd : BitVec 64) (i : Nat) : Nat := (devHash (BitVec.ofNat 32 i) (crd.setWidth 32) (seed.extractLsb' 32 32)).toNat
/-- R279: a rounding that takes the hash of element `i`. -/
def rmAt (mode : Nat) (sat : Bool) (seed crd : BitVec 64) (i : Nat) : Rm :=
  { mode := mode, sat := sat, u := if mode == 4 then srHash seed crd i else 0 }

/-- An integer nearest to a fraction, ties to even. -/
def rneNat (num den : Nat) : Nat := (rint {} false num den).1
/-- R294. -/
def qand (dep : Bool) (a b : Nat) : Nat := if dep then Nat.min a b else rneNat (a * b) 65535
def qnot (a : Nat) : Nat := 65535 - a
def qor (dep : Bool) (a b : Nat) : Nat := if dep then Nat.max a b else qnot (qand false (qnot a) (qnot b))
/-- A condition of QCMP: 0 GT, 1 GE, 2 LT, 3 LE. -/
def qcond (c : Nat) (a b : Val) : Bool :=
  let x := cmpVal a b
  match c with
  | 0 => 0 < x
  | 1 => 0 ≤ x
  | 2 => x < 0
  | _ => x ≤ 0
/-- Whether a temperature is refused: NaN, or negative other than −0 (R293). -/
def badTemp : Val → Bool
  | .nan _ _ _ => true
  | .inf s => s
  | .fin s n _ => s && n != 0
/-- y of R293: RNE(x / (4·T)) with x the rounded difference in the condition's direction. -/
def qy (c : Nat) (a b t : Val) : Val :=
  let x := fp32.decode (rne32 (if c ≤ 1 then vsub 0 a b else vsub 0 b a).1).1
  fp32.decode (rne32 (vdiv x (mulFin (.fin false 4 1) t).1).1).1
/-- RNE(0.5 + y) as a value. -/
def qhalf (y : Val) : Val := fp32.decode (rne32 (vadd 0 (.fin false 1 2) y).1).1
/-- A value clamped to 0 to 1. -/
def clamp01 : Val → Nat × Nat
  | .fin s n d => if s then (0, 1) else if d < n then (1, 1) else (n, d)
  | .inf s => if s then (0, 1) else (1, 1)
  | _ => (0, 1)
/-- R293: the code of a lane. -/
def qcmp (c : Nat) (a b t : Nat) : Nat × Flags :=
  let va := fp32.decode a
  let vb := fp32.decode b
  let vt := fp32.decode t
  if va.isNan || vb.isNan || badTemp vt then (0, flInvalid)
  else if vt.isZero then (if qcond c va vb then 65535 else 0, 0)
  else
    let y := qy c va vb vt
    if y.isNan then (0, flInvalid) else
    let (n, d) := clamp01 (qhalf y)
    (rneNat (65535 * n) d, 0)
/-- R295: QSEL on a lane of a format. -/
def qsel (F : Fmt) (c a b : Nat) : Nat × Flags :=
  if c == 65535 then (a, 0) else if c == 0 then (b, 0) else
  let va := F.decode a
  let vb := F.decode b
  let (v, f) := (nanOf [va, vb]).getD (addFin 0 (mulFin (.fin false c 65535) va).1 (mulFin (.fin false (65535 - c) 65535) vb).1)
  let (r, g) := F.encode {} v
  (r, f ||| g)
/-- QFROM of a value. -/
def qfrom (v : Val) : Nat × Flags :=
  if v.isNan then (0, flInvalid) else let (n, d) := clamp01 v; (rneNat (65535 * n) d, 0)
/-- QTO and QGAND: RNE(c / 65,535) in FP32. -/
def qto (c : Nat) : Nat × Flags := fp32.rnd {} false c 65535
/-- R298: QGCMP on a lane. -/
def qgcmp (c : Nat) (a b t : Nat) : Nat × Flags :=
  let va := fp32.decode a
  let vb := fp32.decode b
  let vt := fp32.decode t
  if badTemp vt then (fp32.nan, flInvalid) else
  match nanOf [va, vb] with
  | some (v, f) => let (r, g) := fp32.encode {} v; (r, f ||| g)
  | none =>
    if vt.isZero then (0, 0) else
    let y := qy c va vb vt
    if y.isNan then (fp32.nan, flInvalid) else
    let q := qhalf y
    if 0 < cmpVal q (.fin false 0 1) && cmpVal q (.fin false 1 1) < 0 then
      (match vdiv (.fin (2 ≤ c) 1 1) (mulFin (.fin false 4 1) vt).1 with
       | (v, f) => let (r, g) := fp32.encode {} v; (r, f ||| g))
    else (0, 0)

end Sys2Proof.Machine
end

