-- ==== Sys2Proof/Machine/Exe.lean ====
section
/-! DEFINITION. The execute sequencer's pipeline (R251, R363 to R368): reading v, p and q registers under their bounds (R181 to R183),
the commit queue, and the commit of its oldest word. -/

namespace Sys2Proof.Machine

/-! ### Lanes (R363, R364) -/

/-- Lane `i` of `w` bytes. -/
def vLane (v : Vec) (w i : Nat) : Nat := (v.extractLsb' (8 * w * i) (8 * w)).toNat
def vLanes (v : Vec) (w : Nat) : List Nat := (List.range (256 / w)).map (vLane v w)
/-- A little-endian number of lanes of `w` bytes. -/
def packLanes (w : Nat) : List Nat → Nat
  | [] => 0
  | x :: xs => x % 2 ^ (8 * w) + 2 ^ (8 * w) * packLanes w xs
def ofLanes (w : Nat) (xs : List Nat) : Vec := BitVec.ofNat 2048 (packLanes w xs)
/-- Lane width of a type code T and of a width code W (R363). -/
def tWidth (t : Nat) : Nat := if t == 0 then 4 else 2
def wWidth (w : Nat) : Nat := if w == 0 then 4 else if w == 1 then 2 else 1
/-- A predicate from lanes of `w` bytes (R364). -/
def predOf (w : Nat) (bs : List Bool) : Pred :=
  BitVec.ofNat 256 (bs.foldr (fun b m => (if b then 2 ^ w - 1 else 0) + 2 ^ w * m) 0)
/-- Whether lane `i` of `w` bytes is active. -/
def active (p : Pred) (w i : Nat) : Bool := p.getLsbD (w * i)

/-! ### Registers -/

/-- The physical v register behind a name (R27). -/
def Core.vIdx (c : Core) (r : BitVec 6) : Nat := rotReg c.exe.rot 32 24 r.toNat
/-- Registers of EXE in one numbering: v from 0, p from 64, q from 128. -/
def pKey (r : Nat) : Nat := 64 + r
def qKey (r : Nat) : Nat := 128 + r
/-- The register that an effect writes. -/
def ExeEff.key : ExeEff → Option Nat
  | .v r _ => some r
  | .p r _ => some (pKey r)
  | .q r _ => some (qKey r)
  | .vflags r => some r
  | _ => none
/-- Whether an issued word that has not committed writes a register. -/
def Core.exePending (c : Core) (k : Nat) : Bool := c.exeQ.any fun x => x.effs.any fun f => f.key == some k
/-- Whether a read comes before the end of the bound of the latest write (R181). -/
def State.exeEarly (s : State) (k : Nat) : Bool := s.cycle < s.me.exeAvail.get 0 k
/-- The value of a v source that is a register: vz is zero; a value read early or after a last use is free. -/
def State.rdV (s : State) (r : BitVec 6) : Vec :=
  let k := s.me.vIdx r
  if r == 63 then 0
  else if s.exeEarly k || (s.me.deadV.get none k).isSome then Config.freeVec (s.freeCtr + k) else s.me.v.get 0 k
/-- p0 has every bit set (R364). -/
def State.rdP (s : State) (r : BitVec 6) : Pred :=
  if r == 0 then BitVec.allOnes 256
  else if s.exeEarly (pKey r.toNat) then Config.freePred (s.freeCtr + r.toNat) else s.me.p.get 0 r.toNat
/-- A q register; read early or after its last use, its codes, LIN and IND are free (R401). -/
def State.rdQ (s : State) (r : BitVec 6) : QReg :=
  if s.exeEarly (qKey r.toNat) || (s.me.deadQ.get none r.toNat).isSome then
    let w := Config.freeWord (s.freeCtr + 128 + r.toNat)
    { code := Config.freeCodes (s.freeCtr + r.toNat), lin := w.setWidth 16, ind := w.getLsbD 16 }
  else s.me.q.get {} r.toNat
/-- A result that has not landed at its bound stalls its reader, or with DEBUG.LATCHK raises LAT_SHORT (R182). -/
def State.chkLanded (s : State) (w : Word) (k : Nat) : Option Body :=
  if s.me.exePending k && !s.exeEarly k then (if s.me.dbgReg.getLsbD 2 then some (.fault fLatShort w) else some .stall) else none
/-- A register freed by a last use raises REGDEAD with DEBUG.REGCHK (R183). -/
def State.chkDead (s : State) (r : BitVec 6) (dead : Bool) : Option Body :=
  if s.me.dbgReg.getLsbD 1 && dead then some (.fault fRegdead (r.setWidth 64)) else none
def State.chkV (s : State) (w : Word) : List (BitVec 6) → Option Body
  | [] => none
  | r :: rs =>
    if 56 ≤ r.toNat then s.chkV w rs else
    let k := s.me.vIdx r
    orTest (s.chkLanded w k) (orTest (s.chkDead r ((s.me.deadV.get none k).isSome && !s.me.exePending k)) (s.chkV w rs))
def State.chkP (s : State) (w : Word) : List (BitVec 6) → Option Body
  | [] => none
  | r :: rs => if r == 0 then s.chkP w rs else orTest (s.chkLanded w (pKey r.toNat)) (s.chkP w rs)
def State.chkQ (s : State) (w : Word) : List (BitVec 6) → Option Body
  | [] => none
  | r :: rs =>
    orTest (s.chkLanded w (qKey r.toNat))
      (orTest (s.chkDead r ((s.me.deadQ.get none r.toNat).isSome && !s.me.exePending (qKey r.toNat))) (s.chkQ w rs))

/-- The data queues that v source fields pop: fields 56 to 59. -/
def exePops (rs : List (BitVec 6)) : List Nat := (rs.filter fun r => 56 ≤ r.toNat && r.toNat < 60).map fun r => r.toNat - 56
/-- The values of v sources, popped or read. -/
def exeVals (s : State) : List (BitVec 6) → List QEnt → List Vec
  | [], _ => []
  | r :: rs, es =>
    if 56 ≤ r.toNat && r.toNat < 60 then ((es.head?.map (·.data)).getD 0) :: exeVals s rs es.tail else s.rdV r :: exeVals s rs es
/-- Frees v registers, and q registers (R401), read with their last-use bit. -/
def State.freeV (s : State) (e : Word) : List (BitVec 6 × Bool) → State
  | [] => s
  | (r, l) :: t =>
    (if l && r.toNat < 56 then s.modCore s.cur fun c => { c with deadV := c.deadV.set none (c.vIdx r) (some e) } else s).freeV e t
def State.freeQ (s : State) (e : Word) : List (BitVec 6 × Bool) → State
  | [] => s
  | (r, l) :: t =>
    (if l then s.modCore s.cur fun c => { c with deadQ := c.deadQ.set none r.toNat (some e) } else s).freeQ e t

/-! ### Issue and the commit queue -/

/-- How many entries issued words will still push to a store queue, and bits to boq.x. -/
def Core.pushesTo (c : Core) (sq : Nat) : Nat :=
  (c.exeQ.map fun x => (x.effs.filter fun f => match f with | .push q _ => q == sq | .pushFlags q _ => q == sq | _ => false).length).sum
def Core.bitsDue (c : Core) : Nat := (c.exeQ.map fun x => (x.effs.filter fun f => match f with | .bit _ => true | _ => false).length).sum
/-- Whether a v destination has room: a full store queue stalls its pusher at issue (R176). -/
def Core.exeRoom (c : Core) (d : BitVec 6) : Bool :=
  if d == 60 || d == 61 then (c.queue (d.toNat - 56)).length + c.pushesTo (d.toNat - 60) < queueCap else true
/-- The effect of a v result: a register, a push to a store queue, or nothing for vz. -/
def Core.outV (c : Core) (d : BitVec 6) (e : Word) (x : Vec) : List ExeEff :=
  if d == 60 || d == 61 then [.push (d.toNat - 60) { data := x, e := e }] else if d == 63 then [] else [.v (c.vIdx d) x]
/-- Puts an issued word into the commit queue, with the bounds of its results. -/
def State.exePut (s : State) (h : Hdr) (e : Word) (slot : BitVec 16) (id : Nat) (lat : BitVec 4) (fault : Option (BitVec 8 × Word)) (fs : List ExeEff) : State :=
  let av := s.cycle + latBound lat
  s.modCore s.cur fun c =>
    { c with exeQ := c.exeQ ++ [{ e := e, sig := h.sig, slot := slot, id := id, avail := av, effs := fs, fault := fault }],
             exeAvail := (fs.filterMap ExeEff.key).foldl (fun m k => m.set 0 k av) c.exeAvail }

/-- What an EXE form names: its v, p and q sources with last-use bits, and its v destination (63 when it has none). -/
structure ExeOps where
  vs : List (BitVec 6 × Bool) := []
  ps : List (BitVec 6) := []
  qs : List (BitVec 6 × Bool) := []
  d : BitVec 6 := 63
  fault : Option (BitVec 8 × Word) := none

/-- Issues an EXE word: sources are read and queues popped at issue (R366), its effects enter the commit queue, and it retires at
commit. `bits` counts the outcome bits it pops, `extra` is a further coordinate, `test` a further test at its coordinate; `f` gives its
effects from its coordinate and the values of its v sources, and `post` what it does to the engine at issue. -/
def exeWord (h : Hdr) (w : Word) (guard : BitVec 4) (lat : BitVec 4) (o : ExeOps) (bits : Nat) (extra : Word) (test : Word → Option Body)
    (f : Word → List Vec → List ExeEff) (post : List OBit → State → State) (s : State) : Result :=
  let rs := o.vs.map (·.1)
  engWord .exe h w guard
    (fun e => orTest (s.chkV w rs) (orTest (s.chkP w o.ps) (orTest (s.chkQ w (o.qs.map (·.1))) (orTest (test e) (stallUnless (s.me.exeRoom o.d))))))
    (exePops rs) bits extra
    (fun e es bs id s' =>
      .quiet (post bs (((s'.freeV e o.vs).freeQ e o.qs).exePut h e s.me.exe.ring.head id lat o.fault (f e (exeVals s rs es))))) s
/-- A form that only computes. -/
def exeOp (h : Hdr) (w : Word) (guard : BitVec 4) (lat : BitVec 4) (o : ExeOps) (f : Word → List Vec → List ExeEff) (s : State) : Result :=
  exeWord h w guard lat o 0 0 (fun _ => none) f (fun _ s => s) s
/-- The value that a v source will have: the entry at the head of its queue, or the register. -/
def State.peekV (s : State) (r : BitVec 6) : Vec :=
  if 56 ≤ r.toNat && r.toNat < 60 then ((s.me.queue (r.toNat - 56)).head?.map (·.data)).getD 0 else s.rdV r

/-! ### Commit (R251, R366, R368) -/

/-- The deferral region of a core, when its launch declares one (R180). -/
def Core.defBase (c : Core) : Option Nat := c.task.bind fun t => if t.desc.dfqen then some (t.desc.dfqb * 1024) else none
/-- A deferral record's bytes (Table 8.3). -/
def DefRec.bytes (r : DefRec) : List Byte :=
  leBytes (r.v.toNat + 2 ^ 128 * r.lane.toNat + 2 ^ 136 * r.nv.toNat + 2 ^ 192 * r.crd.toNat) 32
def DefRec.ofBits (x : BitVec 256) : DefRec :=
  { v := x.extractLsb' 0 128, lane := x.extractLsb' 128 8, nv := x.extractLsb' 136 3, crd := x.extractLsb' 192 64 }
/-- The place of record `k`. -/
def defAddr (base k : Nat) : Nat := base + 32 * (k % 1024)
/-- Appends records to the deferral queue. -/
def Core.appendDef (c : Core) (base : Nat) : List DefRec → Core
  | [] => c
  | r :: rs => { c with spad := putSpad c.spad (defAddr base c.defTail) r.bytes, defTail := c.defTail + 1 }.appendDef base rs

/-- One effect of a committing word. -/
def State.exeApply (s : State) (n : Nat) : ExeEff → State
  | .v r x => s.modCore n fun c => { c with v := c.v.set 0 r x, deadV := c.deadV.set none r none }
  | .p r x => s.modCore n fun c => { c with p := c.p.set 0 r x }
  | .q r x => s.modCore n fun c => { c with q := c.q.set {} r x, deadQ := c.deadQ.set none r none }
  | .push sq x => s.modCore n fun c => c.setQueue (4 + sq) (c.queue (4 + sq) ++ [x])
  | .bit b => s.modCore n fun c => { c with boqX := c.boqX ++ [b] }
  | .flags f => s.modCore n fun c => { c with flags := c.flags ||| f }
  | .clearFlags ctx =>
    let s := s.modCore n fun c => { c with flags := 0 }
    if ctx then s.putFlags (s.core n).cid 0 else s
  | .defer rs => s.modCore n fun c => match c.defBase with | some b => c.appendDef b rs | none => c
  | .deferHead k => s.modCore n fun c => { c with defHead := c.defHead + k }
  | .vflags r =>
    let x := (s.core n).flags ||| s.imgFlags (s.core n).cid
    s.modCore n fun c => { c with v := c.v.set 0 r (ofLanes 4 (List.replicate 64 x.toNat)), deadV := c.deadV.set none r none }
  | .pushFlags sq e =>
    let x := (s.core n).flags ||| s.imgFlags (s.core n).cid
    s.modCore n fun c => c.setQueue (4 + sq) (c.queue (4 + sq) ++ [{ data := ofLanes 4 (List.replicate 64 x.toNat), e := e }])
def State.exeApplyAll (s : State) (n : Nat) : List ExeEff → State
  | [] => s
  | f :: fs => (s.exeApply n f).exeApplyAll n fs
/-- The fault of a committing word: its own, or DFQ_FULL with the records wanted (R180, R392). -/
def Core.commitFault (c : Core) (x : ExeOp) : Option (BitVec 8 × Word) :=
  match x.fault with
  | some f => some f
  | none =>
    match x.effs.find? fun f => match f with | .defer _ => true | _ => false with
    | some (.defer rs) => if 1024 < c.defTail - c.defHead + rs.length then some (fDfqFull, BitVec.ofNat 64 rs.length) else none
    | _ => none
/-- Whether a core's engines act: its island has a clock (R42), no handler runs, no debug halt, no park of this engine, its context LIVE. -/
def State.engRuns (s : State) (n : Nat) (eng : Eng) : Bool :=
  let c := s.core n
  s.coreOn n && !tcInh c.tcause && !c.halted && ((c.eng eng).park.isNone || eng == .cc) && (isSup n || ((s.ctx c.cid).st == .live && (match c.task with | some t => t.started | none => false)))
/-- Whether a committing word leaves nothing that the horizon could hold back: no result, no fault and no signal. A MARK that JOIN
pushed is one: it retires when every word before it has (R175, R251). -/
def ExeOp.idle (x : ExeOp) : Bool := x.effs.isEmpty && x.fault.isNone && x.sig == 0
/-- The oldest issued EXE word commits, when its coordinate is reached and no stop lies at or below it (R251); a fault at commit has
restart "before" and writes nothing. A word without a result does not wait. -/
def State.commitExe (s : State) (n : Nat) : State :=
  match (s.core n).exeQ with
  | [] => s
  | x :: xs =>
    if !s.engRuns n .exe || (!x.idle && (!(x.e.ule (s.horizonOf n)) || s.stopAtOrBelow n x.e)) then s else
    match (s.core n).commitFault x with
    | some (code, val) => s.raise n .exe code val x.e true x.slot
    | none =>
      let s := (s.modCore n fun c => { c with exeQ := xs }).exeApplyAll n x.effs
      (s.retireIss n .exe x.id).signal n .exe x.sig.toNat 1 x.e (s.core n).exe.before x.slot
/-- R251: EXE_COMMIT. -/
def execExeCommit (core : Nat) (s : State) : Result := .next (s.commitExe core)

end Sys2Proof.Machine
end

