-- ==== Sys2Proof/Machine/Matrix.lean ====
section
/-! DEFINITION. The matrix engine (R414 to R434): loop-nest slots and their points, operand blocks, group sums, issue through the command
graph, and the progress of issued words, which write at the horizon one point or row at a time. -/

namespace Sys2Proof.Machine

/-! ### Loop-nest slots (R415 to R418) -/

/-- A level of a nest (Table 19.3). -/
structure NLvl where
  cnt : Nat
  adim : Nat
  astr : Int
  bdim : Nat
  bstr : Int
  cdim : Nat
  cstr : Int
  cl : Nat
  deriving DecidableEq, Repr, Inhabited
/-- A slot's words, taken apart (Tables 19.2 and 19.3, R417). -/
structure Nest where
  tida : BitVec 10
  tidb : BitVec 10
  tidc : BitVec 10
  bmode : Nat
  asrc : Bool
  bsrc : Bool
  adm : Nat
  adk : Nat
  bdk : Nat
  bdn : Nat
  cdm : Nat
  cdn : Nat
  cle : Nat
  lv : List NLvl
  ba : List Nat
  bb : List Nat
  bc : List Nat
  deriving DecidableEq, Repr, Inhabited

/-- The 16 words of a slot in the shadow or active copy. -/
def slotWords (m : SMap Word) (k : Nat) : List Word := (List.range 16).map fun i => m.get 0 (16 * k + i)
def NLvl.of (w : Word) : NLvl :=
  { cnt := (w.extractLsb' 0 16).toNat, adim := (w.extractLsb' 16 3).toNat, astr := (w.extractLsb' 19 12).toInt,
    bdim := (w.extractLsb' 31 3).toNat, bstr := (w.extractLsb' 34 12).toInt, cdim := (w.extractLsb' 46 3).toNat,
    cstr := (w.extractLsb' 49 12).toInt, cl := (w.extractLsb' 61 3).toNat }
/-- Six base coordinates from three words. -/
def nestBase (ws : List Word) (j : Nat) : List Nat :=
  (List.range 6).map fun k => ((ws.getD (j + k / 2) 0).extractLsb' (32 * (k % 2)) 32).toNat
def Nest.of (ws : List Word) : Nest :=
  let w := ws.getD 0 0
  { tida := w.extractLsb' 0 10, tidb := w.extractLsb' 10 10, tidc := w.extractLsb' 20 10, bmode := (w.extractLsb' 30 2).toNat,
    asrc := w.getLsbD 32, bsrc := w.getLsbD 33, adm := (w.extractLsb' 34 3).toNat, adk := (w.extractLsb' 37 3).toNat,
    bdk := (w.extractLsb' 40 3).toNat, bdn := (w.extractLsb' 43 3).toNat, cdm := (w.extractLsb' 46 3).toNat,
    cdn := (w.extractLsb' 49 3).toNat, cle := (w.extractLsb' 52 8).toNat,
    lv := (List.range 6).map fun i => NLvl.of (ws.getD (i + 1) 0), ba := nestBase ws 7, bb := nestBase ws 10, bc := nestBase ws 13 }
/-- No reserved code is set in a slot. -/
def slotOk (ws : List Word) : Bool :=
  let x := Nest.of ws
  x.bmode != 3 && [x.adm, x.adk, x.bdk, x.bdn, x.cdm, x.cdn].all (· ≤ 5) &&
    x.lv.all fun l => l.cl ≤ 5 && l.adim ≤ 5 && l.bdim ≤ 5 && l.cdim ≤ 5

/-- The points of a nest. -/
def Nest.points (x : Nest) : Nat := x.lv.foldl (fun m l => m * l.cnt) 1
/-- The indices of point `p`, level 0 first. -/
def nestIdx : List NLvl → Nat → List Nat
  | [], _ => []
  | l :: ls, p => p % l.cnt :: nestIdx ls (p / l.cnt)
/-- An origin: the base with each level's stride applied, in 32-bit two's complement. -/
def originOf (base : List Nat) (dim : NLvl → Nat) (str : NLvl → Int) : List NLvl → List Nat → List Nat
  | l :: ls, i :: is =>
    originOf (base.set (dim l) (((base.getD (dim l) 0 : Int) + i * str l) % (2 ^ 32 : Int)).toNat) dim str ls is
  | _, _ => base
def Nest.oA (x : Nest) (p : Nat) : List Nat := originOf x.ba NLvl.adim NLvl.astr x.lv (nestIdx x.lv p)
def Nest.oB (x : Nest) (p : Nat) : List Nat := originOf x.bb NLvl.bdim NLvl.bstr x.lv (nestIdx x.lv p)
def Nest.oC (x : Nest) (p : Nat) : List Nat := originOf x.bc NLvl.cdim NLvl.cstr x.lv (nestIdx x.lv p)
/-- The coordinate that the bound levels give point `p`, outermost level first. -/
def Nest.crd (x : Nest) (cw : List Nat) (e : Word) (p : Nat) : Word :=
  (x.lv.zip (nestIdx x.lv p)).foldr (fun (l, i) c => if l.cl == 0 then c else lvlSet cw l.cl c (lvlGet cw l.cl e + i)) e

/-- The group size of a format of A (Table 19.4). -/
def groupOf (fa : Nat) : Nat := if fa == 1 || fa == 2 then 16 else 32
/-- R419, Table 19.4: the accepted pairings, with E2M1S blocks along K. -/
def pairOk (x : Nest) (a b : TDesc) : Bool :=
  let byte (f : Nat) : Bool := f == 3 || f == 4
  (if b.fmt == 5 then x.bmode == 2 && (byte a.fmt || a.fmt == 5)
   else x.bmode < 2 && (if byte a.fmt || a.fmt == 5 then byte b.fmt
     else if a.fmt == 1 || a.fmt == 2 then b.fmt == 1 || b.fmt == 2 else a.fmt == 8 && b.fmt == 8)) &&
    (a.fmt != 5 || a.order.getD 0 0 == x.adk) && (b.fmt != 5 || b.order.getD 0 0 == x.bdk)
/-- R419, R431: what MGO refuses of its levels and bases at coordinate `e`. -/
def mgoOk (x : Nest) (g : Nat) (cw : List Nat) (e : Word) (drn : Bool) : Bool :=
  let bound := (x.lv.filter (·.cl != 0)).map (·.cl)
  !(x.bmode == 1 && !x.bsrc) && x.ba.getD x.adk 0 % g == 0 && x.bb.getD x.bdk 0 % g == 0 &&
    x.lv.all (fun l =>
      (l.adim != x.adk || l.astr % g == 0) && (l.bdim != x.bdk || l.bstr % g == 0) && (l.cnt ≤ 1 || l.cstr == 0 || drn) &&
      (l.cl == 0 || (lvlWidth cw l.cl != 0 && (l.cnt == 0 || lvlGet cw l.cl e + l.cnt - 1 < 2 ^ lvlWidth cw l.cl)))) &&
    -- an inner bound level names a finer coordinate level than every outer one
    decide (bound.Pairwise (· > ·))
/-- The formats of TIDC that a drain writes (R432): those of an FP32 kind and of an I32 kind. -/
def cFmtOk (i32 : Bool) (f : Nat) : Bool := if i32 then f == 8 || f == 9 || f == 10 else f ≤ 4
/-- Panel bytes per 32 rows of K (Table 19.8). -/
def panelBytes (fb bmode : Nat) : Nat :=
  if bmode == 2 then 2304 else if fb == 1 || fb == 2 then (if bmode == 1 then 4608 else 8192) else (if bmode == 1 then 2560 else 4096)

/-! ### Operand elements -/

/-- The bytes of one element: its own, or a nibble's byte and its block's two bytes (R204, R275), and whether it is a high nibble. -/
def TDesc.mtxElem (d : TDesc) (x : List Nat) : Option (List TByte × Bool) :=
  (d.locate x).map fun (t, o) =>
    if d.fmt == 5 then
      let b := d.sbo * 4096 + 2 * (o / 32)
      ([{ tile := t, off := o / 2 }, { tile := t, off := b }, { tile := t, off := b + 1 }], o % 2 == 1)
    else ((List.range d.ebytes).map fun i => { tile := t, off := o * d.ebytes + i }, false)
/-- A code from its bytes; an E2M1S code carries its block's scale in bits 15 to 8 and special byte in bits 23 to 16. -/
def rawOf (fmt : Nat) (hi : Bool) (bs : List Byte) : BitVec 32 :=
  if fmt == 5 then
    let b := (bs.getD 0 0).toNat
    BitVec.ofNat 32 ((if hi then b / 16 else b % 16) + 2 ^ 8 * (bs.getD 1 0).toNat + 2 ^ 16 * (bs.getD 2 0).toNat)
  else BitVec.ofNat 32 (leNat bs)
/-- The value of such a code. -/
def rawVal (fmt : Nat) (r : BitVec 32) : Val :=
  if fmt == 5 then e2m1s (r.toNat % 16) (r.toNat / 2 ^ 8 % 256) (r.toNat / 2 ^ 16 % 256) else decodeFmt fmt r.toNat

/-- What fetching operand elements answers: the codes, none past DIM; a wait in a changed state; a fault. -/
inductive Fetch where
  | ok (vs : List (Option (BitVec 32))) (s : State)
  | wait (s : State)
  | fault (code : BitVec 8) (val : Word)
/-- Reads the bytes of a list of elements from the memory keys `ks` that stand behind them. -/
def codesOf (s : State) (fmt : Nat) : List (Option (List TByte × Bool)) → List (Option (Nat × Byte)) → List (Option (BitVec 32))
  | [], _ => []
  | none :: es, ks => none :: codesOf s fmt es ks
  | some (bs, hi) :: es, ks =>
    let k := ks.take bs.length
    some (rawOf fmt hi (k.map fun x => match x with | some (a, _) => s.byte a | none => 0)) :: codesOf s fmt es (ks.drop bs.length)
/-- Fetches elements of a tensor at coordinate `e` (R425, Table 19.7). -/
def State.fetch (s : State) (n : Nat) (e : Word) (d : TDesc) (tid : BitVec 10) (xs : List (Option (List Nat))) : Fetch :=
  let es := xs.map fun x => x.bind d.mtxElem
  match s.tensorRead n .mtx e d tid false (es.flatMap fun x => match x with | some (bs, _) => bs.map some | none => []) with
  | .stop (.fault c v) => .fault c v
  | .stop (.wait s) => .wait s
  | .stop _ => .wait s
  | .ok src _ s => .ok (codesOf s d.fmt es src) s

/-- An origin inside the extent of every dimension of its tensor, and zero on the others (R417, R418). -/
def originOk (d : TDesc) (o : List Nat) : Bool :=
  (List.range 6).all fun k => if k < d.rank then o.getD k 0 < d.dims.getD k 0 else o.getD k 0 == 0
/-- Coordinates moved by `i` along one dimension and `j` along another; none past DIM on either. -/
def blockAt (d : TDesc) (o : List Nat) (di i dj j : Nat) : Option (List Nat) :=
  let x := (shiftDim o di i)
  let y := shiftDim x dj j
  if y.getD di 0 < d.dims.getD di 0 && y.getD dj 0 < d.dims.getD dj 0 then some y else none

/-! ### Group sums (R287 to R289) -/

/-- A product of two operand values, its NaN without a payload. -/
def mtxProd (a b : Val) : Val × Flags :=
  match nanOf [a, b] with
  | some (_, f) => (.cnan, f)
  | none => mulFin a b
/-- ⌊log2⌋ of the largest non-zero finite product. -/
def emaxOf (ps : List Val) : Option Int :=
  ps.foldl (fun m p => match p with
    | .fin _ n d => if n == 0 then m else
      let e := ilog2 n d
      (match m with | some x => some (max x e) | none => some e)
    | _ => m) none
/-- A product truncated toward zero to a multiple of 2^(emax − 26), with whether bits were lost. -/
def truncTo (q : Int) : Val → Val × Bool
  | .fin s n d =>
    let (a, b) := scaleDown n d q
    (Val.scaled s (a / b) q, a % b != 0)
  | v => (v, false)
/-- The exact sum of finite products, as a value; a zero sum is +0 unless every product is −0. -/
def sumFin (ps : List Val) : Val :=
  let t := ps.foldl (fun m p => m + fixVal 400 p) 0
  if t == 0 then .fin (!ps.isEmpty && ps.all fun p => p.isZero && p.neg?) 0 1 else .fin (t < 0) t.natAbs (2 ^ 400)
/-- The sum of one accumulation group, rounded to FP32. -/
def groupSum (trunc : Bool) (qs : List (Val × Flags)) : Nat × Flags :=
  let ps := qs.map (·.1)
  let f := qs.foldl (fun m q => m ||| q.2) 0
  if ps.any Val.isNan then (fp32.nan, f)
  else if ps.any Val.isInf then
    let infs := ps.filter Val.isInf
    if infs.any Val.neg? && infs.any fun p => !p.neg? then (fp32.nan, f ||| flInvalid)
    else (fp32.signed (infs.any Val.neg?) fp32.infCode, f)
  else
    match if trunc then emaxOf ps else none with
    | none => let (r, g) := rne32 (sumFin ps); (r, f ||| g)
    | some m =>
      let ts := ps.map (truncTo (m - 26))
      let (r, g) := rne32 (sumFin (ts.map (·.1)))
      (r, f ||| g ||| flIf (ts.any (·.2)) flInexact)
/-- An FP32 addition whose NaN carries no payload. -/
def mtxAdd (a b : Nat) : Nat × Flags :=
  let (x, y) := (fp32.decode a, fp32.decode b)
  match nanOf [x, y] with
  | some (_, f) => (fp32.nan, f)
  | none => let (v, f) := addFin 0 x y; let (r, g) := rne32 v; (r, f ||| g)
/-- Splits a list into runs of `g`. -/
def chunks {α : Type} (g : Nat) : Nat → List α → List (List α)
  | 0, _ => []
  | f + 1, l => if l.isEmpty then [] else l.take g :: chunks g f (l.drop g)
/-- One output of one point: the accumulator after its group, for the pairs that contribute a product. -/
def pointOut (i8 nbv : Bool) (fa fb : Nat) (t : BitVec 32) (ps : List (Option (BitVec 32 × BitVec 32))) : BitVec 32 × Flags :=
  if i8 then
    let r := ps.foldl (fun (m : Int × Bool) p => match p with
      | some (a, b) =>
        let x := m.1 + intVal 8 a.toNat * intVal 8 b.toNat
        (x, m.2 || x < -(2 ^ 31) || 2 ^ 31 ≤ x)
      | none => m) (t.toInt, false)
    (BitVec.ofInt 32 r.1, flIf r.2 flIovf)
  else
    let gs := if nbv then [ps] else chunks 16 32 ps
    gs.foldl (fun (m : BitVec 32 × Flags) g =>
      let (x, f) := groupSum (!nbv) ((g.filterMap id).map fun (a, b) => mtxProd (rawVal fa a) (rawVal fb b))
      let (y, h) := mtxAdd m.1.toNat x
      (BitVec.ofNat 32 y, m.2 ||| f ||| h)) (t, 0)

/-! ### Accumulators, stage, panel -/

def Mtx.acc (x : Mtx) (t : Bool) (m n : Nat) : BitVec 32 := (if t then x.acc1 else x.acc0).get 0 (128 * m + n)
def Mtx.setAcc (x : Mtx) (t : Bool) (m n : Nat) (v : BitVec 32) : Mtx :=
  if t then { x with acc1 := x.acc1.set 0 (128 * m + n) v } else { x with acc0 := x.acc0.set 0 (128 * m + n) v }
def Mtx.kind (x : Mtx) (t : Bool) : Bool := if t then x.kind1 else x.kind0
/-- Marks a tile written, with its kind. -/
def Mtx.mark (x : Mtx) (t i32 : Bool) : Mtx :=
  if t then { x with kind1 := i32 } else { x with kind0 := i32 }
def Mtx.rows (x : Mtx) : List Nat := (List.range 128).filter x.rmask.getLsbD
def Mtx.cols (x : Mtx) : List Nat := (List.range 128).filter x.cmask.getLsbD
def Mtx.half (x : Mtx) (h : Bool) : WRec := if h then x.wb1 else x.wb0
def Mtx.setHalf (x : Mtx) (h : Bool) (r : WRec) : Mtx := if h then { x with wb1 := r } else { x with wb0 := r }
/-- Element `k` of a stage row in a format (R369, R427). -/
def stageElem (fmt : Nat) (v : Vec) (k : Nat) : BitVec 32 :=
  if fmt == 5 then rawOf 5 (k % 2 == 1) [vByte v (k / 2), vByte v (128 + 2 * (k / 32)), vByte v (129 + 2 * (k / 32))]
  else let b := fmtBits fmt / 8; rawOf fmt false ((List.range b).map fun i => vByte v (b * k + i))
/-- Elements of a stage row. -/
def stageLen (fmt : Nat) : Nat := if fmtBits fmt ≤ 8 then 256 else 128

/-! ### The command graph (R420, R421) -/

/-- The unit that runs an opcode: 1 load, 2 array, 3 drain, 0 none. -/
def mtxUnit (w : Word) : Nat :=
  let o := opcOf w
  if o == 0x60 || o == 0x61 || o == 0x6A || o == 0x6B then 1
  else if o == 0x62 || o == 0x64 || o == 0x69 then 2
  else if o == 0x63 || o == 0x67 || o == 0x68 then 3
  else 0
def isMwait (w : Word) : Bool := opcOf w == 0x66
/-- Ring positions from `a`, `n` of them. -/
def positions (a : BitVec 16) (n : Nat) : List (BitVec 16) := (List.range n).map fun i => a + BitVec.ofNat 16 i
/-- The 16 oldest unissued positions from HEAD. -/
def EngSt.window (x : EngSt) : List (BitVec 16) :=
  ((positions x.ring.head (ptrDiff x.ring.tail x.ring.head)).filter fun p => !x.iss.any (·.pos == p)).take 16
/-- Whether the word at a position has retired. -/
def EngSt.posRetired (x : EngSt) (p : BitVec 16) : Bool :=
  match x.iss.find? (·.pos == p) with
  | some i => i.retired
  | none => 32768 ≤ ptrDiff p x.ring.head
/-- Whether every word from RET up to a position has retired. -/
def EngSt.allBefore (x : EngSt) (p : BitVec 16) : Bool := (positions x.ring.ret (ptrDiff p x.ring.ret)).all x.posRetired
/-- Whether the predecessor that a field of the word at `p` names has retired: the nearest earlier word with CMD `k` behind RET. -/
def Core.predMet (c : Core) (p : BitVec 16) (k : BitVec 8) : Bool :=
  k == 0 ||
    match (positions c.mtx.ring.ret (ptrDiff p c.mtx.ring.ret)).reverse.find? fun q => (c.ringWord .mtx q).extractLsb' 32 8 == k with
    | some q => c.mtx.posRetired q
    | none => true
/-- Whether the word at an unissued position may issue as far as the graph, the units and its wait set go. -/
def Core.mtxReady (c : Core) (p : BitVec 16) : Bool :=
  let w := c.ringWord .mtx p
  let wv := if (hdrOf w).wait == 0 then 0 else c.wset.get 0 (hdrOf w).wait.toNat
  let older := positions c.mtx.ring.ret (ptrDiff p c.mtx.ring.ret)
  (!waitOk wv || c.waitMet wv) && c.predMet p (w.extractLsb' 24 8) && c.predMet p (w.extractLsb' 16 8) &&
    (mtxUnit w == 0 || !c.mx.ops.any fun o => mtxUnit o.w == mtxUnit w) && (!isMwait w || c.mtx.allBefore p) &&
    older.all fun q => !isMwait (c.ringWord .mtx q) || c.mtx.posRetired q
/-- The positions that may issue, oldest first. -/
def Core.mtxReadies (c : Core) : List (BitVec 16) := c.mtx.window.filter c.mtxReady

/-! ### Issue -/

/-- What a word takes at its issue. -/
structure MtxTake where
  nest : List Word := []
  seed : Word := 0
  ents : List QEnt := []
  last : Word := 0
  fix : Mtx → Mtx := id

/-- Issues a matrix word: the oldest ready position that holds it (R421). `chk` gives what it takes, or what stops it, at its coordinate;
`pop` names a data queue whose head it pops. The word then waits among the issued words for its writes. -/
def mtxWord (h : Hdr) (w : Word) (pop : Option Nat) (chk : Word → MtxTake ⊕ Body) (s : State) : Result :=
  let n := s.cur
  let c := s.me
  let x := c.mtx
  match c.mtxReadies.find? fun p => c.ringWord .mtx p == w with
  | none => .next s
  | some p =>
    let wv := if h.wait == 0 then 0 else c.wset.get 0 h.wait.toNat
    if !waitOk wv then .next (s.raise n .mtx fIllegal w (maxW x.elast x.crd) true p) else
    match popAll none c pop.toList with
    | .stall => .next s
    | .eos => .next (s.raise n .mtx fIllegal w (maxW x.elast x.crd) true p)
    | .ok es c' =>
      let e := maxW (maxW (maxW x.elast x.crd) (x.ring.pushE.get 0 (p.toNat % 2 ^ x.ring.size.toNat)))
        ((es.map (·.2.e)).foldl maxW (c.waitTag wv))
      if s.stopAtOrBelow n e || x.waitsStop then .next s
      else if c.watched e then .next (s.modCore n fun c => { c with mtx := { c.mtx with waitsStop := true } })
      else
        match chk e with
        | .inr (.fault code val) => .next (s.raise n .mtx code val e true p)
        | .inr _ => .next s
        | .inl t =>
          let id := s.nextId
          let s1 : State := ({ s with nextId := id + 1 } : State).setCore n c'
          let s2 := (s1.consume n .mtx e (waitPresent wv)).modCore n fun c =>
            let y : EngSt := { c.mtx with
              iss := c.mtx.iss ++ [{ pos := p, e := e, pops := es, snap := c.mtx.snap, id := id }], elast := maxW e t.last,
              before := mergeIds c.mtx.before (c'.waitIds wv) }
            let op : MtxOp := { slot := p, id := id, w := w, e := e, pe := e, nest := t.nest, seed := t.seed, ents := es.map (·.2), after := c.barOf y.before }
            { c with mtx := y.passIssued 16, mx := { t.fix c.mx with ops := c.mx.ops ++ [op] } }
          if s2.me.fits then .next s2 else .next s

/-- The shadow words of the slot that a word names. -/
def State.slotOf (s : State) (o : MG) : List Word := slotWords s.me.mx.shadow o.nest.toNat
/-- The tensors of A and B of a slot at a coordinate, or what stops the word (R419). -/
def State.pairAt (s : State) (e w : Word) (ws : List Word) : (Nest × TDesc × TDesc) ⊕ Body :=
  let x := Nest.of ws
  if !slotOk ws then .inr (.fault fIllegal w) else
  match s.tdesc s.cur e x.tida, s.tdesc s.cur e x.tidb with
  | none, _ => .inr (.fault fTensorBounds (x.tida.setWidth 64))
  | _, none => .inr (.fault fTensorBounds (x.tidb.setWidth 64))
  | some a, some b => if pairOk x a b then .inl (x, a, b) else .inr (.fault fIllegal w)
/-- The tensor of C, and the kind that A gives the tile; its format must be one that a drain writes where `fmt` is set. -/
def State.cAt (s : State) (e w : Word) (ws : List Word) (clamp fmt : Bool) : (Nest × TDesc × Bool) ⊕ Body :=
  let x := Nest.of ws
  if !slotOk ws then .inr (.fault fIllegal w) else
  match s.tdesc s.cur e x.tida, s.tdesc s.cur e x.tidc with
  | none, _ => .inr (.fault fTensorBounds (x.tida.setWidth 64))
  | _, none => .inr (.fault fTensorBounds (x.tidc.setWidth 64))
  | some a, some c =>
    let i32 := a.fmt == 8
    if (fmt && !cFmtOk i32 c.fmt) || (clamp && (i32 || x.cle == 0xFF)) then .inr (.fault fIllegal w) else .inl (x, c, i32)
/-- EXE's SEED, read when a drain word issues (R279). -/
def State.drainSeed (s : State) : Word := s.me.seed

/-- R427: MLDA. -/
def execMlda (h : Hdr) (o : MG) (s : State) : Result :=
  let w := packMG h 0x6A 0 o
  mtxWord h w none (fun e => match s.pairAt e w (s.slotOf o) with | .inr b => .inr b | .inl _ => .inl { nest := s.slotOf o }) s
/-- R428: MLDB; ILLEGAL when the panel exceeds half the weight buffer. -/
def execMldb (h : Hdr) (o : MG) (s : State) : Result :=
  let w := packMG h 0x60 0 o
  mtxWord h w none (fun e => match s.pairAt e w (s.slotOf o) with
    | .inr b => .inr b
    | .inl (x, _, b) => if 131072 < (o.q.toNat + 1) * panelBytes b.fmt x.bmode then .inr (.fault fIllegal w) else .inl { nest := s.slotOf o }) s
/-- R427: MLDS. -/
def execMlds (h : Hdr) (o : MG) (s : State) : Result := mtxWord h (packMG h 0x61 0 o) none (fun _ => .inl {}) s
/-- R429: MSEL pops its vector at issue. -/
def execMsel (h : Hdr) (o : MG) (s : State) : Result :=
  mtxWord h (packMG h 0x6B 0 o) (some (o.q.toNat % 4)) (fun _ => .inl {}) s
/-- R431: MGO: the checks of R419, R423 and R431, and the active copy of the slot. -/
def execMgo (h : Hdr) (o : MG) (s : State) : Result :=
  let w := packMG h 0x62 0 o
  let ws := s.slotOf o
  mtxWord h w none (fun e =>
    match s.pairAt e w ws with
    | .inr b => .inr b
    | .inl (x, a, _) =>
      let drn := o.q.getLsbD 0
      match s.cAt e w ws (o.q.getLsbD 6) drn with
      | .inr b => .inr b
      | .inl _ =>
        if !mgoOk x (groupOf a.fmt) s.me.cw e drn then .inr (.fault fIllegal w) else
        .inl { nest := ws, seed := s.drainSeed, last := if x.points == 0 then 0 else x.crd s.me.cw e (x.points - 1),
               fix := fun m => { m with active := (List.range 16).foldl (fun t i => t.set 0 (16 * o.nest.toNat + i) (ws.getD i 0)) m.active } }) s
/-- The checks of a drain (R423, R432). -/
def mtxDrain (h : Hdr) (w : Word) (o : MG) (s : State) : Result :=
  mtxWord h w none (fun e => match s.cAt e w (s.slotOf o) (o.q.getLsbD 4) true with
    | .inr b => .inr b
    | .inl _ => .inl { nest := s.slotOf o, seed := s.drainSeed }) s
/-- R432: MDRAIN. -/
def execMdrain (h : Hdr) (o : MG) (s : State) : Result := mtxDrain h (packMG h 0x63 0 o) o s
/-- R290, R432: MDRAINA. -/
def execMdraina (h : Hdr) (o : MG) (s : State) : Result := mtxDrain h (packMG h 0x63 1 o) o s
/-- R430: MINIT. -/
def execMinit (h : Hdr) (o : MG) (s : State) : Result :=
  let w := packMG h 0x64 0 o
  mtxWord h w none (fun e => match s.pairAt e w (s.slotOf o), s.cAt e w (s.slotOf o) false true with
    | .inr b, _ => .inr b
    | _, .inr b => .inr b
    | .inl _, .inl _ => .inl { nest := s.slotOf o }) s
/-- R434: MSWAP. -/
def execMswap (h : Hdr) (o : MG) (s : State) : Result := mtxWord h (packMG h 0x65 0 o) none (fun _ => .inl {}) s
/-- R434: MWAIT. -/
def execMwait (h : Hdr) (o : MG) (s : State) : Result := mtxWord h (packMG h 0x66 0 o) none (fun _ => .inl {}) s
/-- R434: MSTAT. -/
def execMstat (h : Hdr) (o : MG) (s : State) : Result := mtxWord h (packMG h 0x67 0 o) none (fun _ => .inl {}) s
/-- R433: MDQ. -/
def execMdq (h : Hdr) (o : MG) (s : State) : Result := mtxWord h (packMG h 0x68 0 o) none (fun _ => .inl {}) s
/-- R430: MCLR. -/
def execMclr (h : Hdr) (o : MG) (s : State) : Result := mtxWord h (packMG h 0x69 0 o) none (fun _ => .inl {}) s

/-! ### Progress of issued words (R424, R425) -/

/-- What an attempt to carry an issued word further answers. -/
inductive Adv where
  | no
  | go (s : State)
  | fault (code : BitVec 8) (val : Word) (s : State)

/-- Whether a write of MTX may be made at a coordinate (R424). -/
def State.writeOk (s : State) (n : Nat) (c : Word) : Bool := c.ule (s.horizonOf n) && !s.stopAtOrBelow n c
def State.setOp (s : State) (n : Nat) (o : MtxOp) : State :=
  s.modCore n fun c => { c with mx := { c.mx with ops := c.mx.ops.map fun p => if p.id == o.id then o else p } }
/-- A commit at coordinate `c`: the state it writes and the flags it raises (R424). -/
def State.mtxWrite (s : State) (n : Nat) (c : Word) (f : Flags) (g : Mtx → Mtx) : State :=
  s.modCore n fun k => let m := g k.mx; { k with flags := k.flags ||| f, mx := { m with flags := m.flags ||| f, lastc := c } }
/-- Retirement of an issued word, signalling with its last coordinate. -/
def State.mtxRetire (s : State) (n : Nat) (o : MtxOp) : State :=
  let s := s.modCore n fun c => { c with mx := { c.mx with ops := c.mx.ops.filter fun p => p.id != o.id } }
  (s.retireIss n .mtx o.id).signal n .mtx (hdrOf o.w).sig.toNat 1 o.pe (s.core n).mtx.before o.slot
/-- A word with one write retires with it. -/
def State.mtxOnce (s : State) (n : Nat) (o : MtxOp) (f : Flags) (g : Mtx → Mtx) : Adv :=
  if s.writeOk n o.pe then .go ((s.mtxWrite n o.pe f g).mtxRetire n o) else .no
def Fetch.adv (f : Fetch) (s : State) (k : List (Option (BitVec 32)) → State → Adv) : Adv :=
  match f with
  | .ok vs s => k vs s
  | .wait s => .go s
  | .fault c v => .fault c v s
def tbounds (tid : BitVec 10) (s : State) : Adv := .fault fTensorBounds (tid.setWidth 64) s

/-- A stage row from the codes of its elements, in the layout of LDT. -/
def rowVec (fmt : Nat) (cs : List (Option (BitVec 32))) : Vec :=
  let code (i : Nat) : Nat := ((cs.getD i none).map (·.toNat)).getD 0
  if fmt == 5 then
    vOfBytes ((List.range 128).map (fun j => BitVec.ofNat 8 (code (2 * j) % 16 + 16 * (code (2 * j + 1) % 16))) ++
      (List.range 16).map fun j => BitVec.ofNat 8 (code (32 * (j / 2)) / 2 ^ (8 + 8 * (j % 2))))
  else ofLanes (fmtBits fmt / 8) ((List.range cs.length).map code)
/-- R427: the fill of the A stage by MLDA. -/
def State.advMlda (s : State) (n : Nat) (o : MtxOp) : Adv :=
  let x := Nest.of o.nest
  match s.tdesc n o.e x.tida with
  | none => tbounds x.tida s
  | some d =>
    if !originOk d x.ba then tbounds x.tida s else
    let len := stageLen d.fmt
    (s.fetch n o.e d x.tida ((List.range 128).flatMap fun m => (List.range len).map fun k => blockAt d x.ba x.adm m x.adk k)).adv s fun vs s =>
      s.mtxOnce n o 0 fun m =>
        { m with arow := (List.range 128).foldl (fun t i => t.set 0 i (rowVec d.fmt ((vs.drop (len * i)).take len))) m.arow,
                 anop := (List.range 128).foldl (fun t i => t.set false i (d.dims.getD x.adm 0 ≤ x.ba.getD x.adm 0 + i)) m.anop,
                 aM := x.ba.getD x.adm 0, aK := x.ba.getD x.adk 0, apend := false, avalid := true }
/-- R427: MLDS pops its rows one by one, each raising its coordinate, and writes the stage with the last. -/
def State.advMlds (s : State) (n : Nat) (o : MtxOp) : Adv :=
  let rows := (o.w.extractLsb' 2 6).toNat + 1
  let first := if o.w.getLsbD 11 then 64 else 0
  if o.ents.length < rows then
    match popAll none (s.core n) [(o.w.extractLsb' 0 2).toNat] with
    | .ok [(q, x)] c =>
      if s.stopAtOrBelow n (maxW o.pe x.e) then .no else
      let c := { c with mtx := { c.mtx with elast := maxW c.mtx.elast x.e,
                                            iss := c.mtx.iss.map fun i => if i.id == o.id then { i with pops := i.pops ++ [(q, x)], e := maxW i.e x.e } else i } }
      .go ((s.setCore n c).setOp n { o with ents := o.ents ++ [x], pe := maxW o.pe x.e })
    | _ => .no
  else
    s.mtxOnce n o 0 fun m =>
      let is := List.range rows
      { m with arow := is.foldl (fun t i => t.set 0 (first + i) (o.ents.getD i {}).data) m.arow,
               anop := is.foldl (fun t i => t.set false (first + i) false) m.anop, apend := true, avalid := true }
/-- The magnitude order of R428: NaN largest. -/
def magLt (a b : Val) : Bool :=
  if b.isNan then !a.isNan else if a.isNan then false else
  let abs (v : Val) : Val := if v.neg? then v.negate else v
  cmpVal (abs a) (abs b) < 0
/-- The 2:4 decompressor on one run of a column: the codes it keeps, and whether it dropped one. -/
def keep24 (fmt : Nat) (run : List (Option (BitVec 32))) : List (Option (BitVec 32)) × Bool :=
  let v (i : Nat) : Val := match run.getD i none with | some r => rawVal fmt r | none => .fin false 0 1
  let better (j i : Nat) : Bool := magLt (v i) (v j) || (!magLt (v j) (v i) && j < i)
  let drop (i : Nat) : Bool := !(v i).isZero && 2 ≤ ((List.range run.length).filter fun j => j != i && !(v j).isZero && better j i).length
  ((List.range run.length).map fun i => if drop i then some 0 else run.getD i none, (List.range run.length).any drop)
/-- The decompressor on one column, whose first element has K index `k0`. -/
def col24 (fmt : Nat) : Nat → Nat → List (Option (BitVec 32)) → List (Option (BitVec 32)) × Bool
  | 0, _, l => (l, false)
  | f + 1, k0, l =>
    if l.isEmpty then ([], false) else
    let len := 4 - k0 % 4
    let (a, x) := keep24 fmt (l.take len)
    let (b, y) := col24 fmt f (k0 + len) (l.drop len)
    (a ++ b, x || y)
/-- R428: the fill of the back half by MLDB. -/
def State.advMldb (s : State) (n : Nat) (o : MtxOp) : Adv :=
  let x := Nest.of o.nest
  let groups := (o.w.extractLsb' 0 8).toNat + 1
  let ks := 32 * groups
  match s.tdesc n o.e x.tidb with
  | none => tbounds x.tidb s
  | some d =>
    if !originOk d x.bb then tbounds x.tidb s else
    (s.fetch n o.e d x.tidb ((List.range 128).flatMap fun j => (List.range ks).map fun k => blockAt d x.bb x.bdk k x.bdn j)).adv s fun vs s =>
      let cols := (List.range 128).map fun j =>
        let c := (vs.drop (ks * j)).take ks
        if x.bmode == 1 then col24 d.fmt (ks + 1) (x.bb.getD x.bdk 0) c else (c, false)
      let elems := (List.range 128).foldl (fun t j => (List.range ks).foldl (fun t k => SMap.set none t (128 * k + j) (((cols.getD j ([], false)).1).getD k none)) t)
        ([] : SMap (Option (BitVec 32)))
      s.mtxOnce n o (flIf (cols.any (·.2)) flInexact) fun m =>
        m.setHalf (!m.front) { tidb := x.tidb, bmode := x.bmode, k0 := x.bb.getD x.bdk 0, n0 := x.bb.getD x.bdn 0, groups := groups,
                               valid := true, elems := elems }
/-- R429: the masks that MSEL sets. -/
def State.advMsel (s : State) (n : Nat) (o : MtxOp) : Adv :=
  let v := (o.ents.getD 0 {}).data
  s.mtxOnce n o 0 fun m => { m with rmask := v.extractLsb' 0 128, cmask := v.extractLsb' 128 128 }
/-- R430: MCLR: whole tiles, whatever the masks. -/
def State.advMclr (s : State) (n : Nat) (o : MtxOp) : Adv :=
  let t := (o.w.extractLsb' 11 2).toNat
  s.mtxOnce n o 0 fun m =>
    let m := if t != 1 then { m with acc0 := [] } else m
    if t != 0 then { m with acc1 := [] } else m
/-- Table 19.9. -/
def Mtx.status (m : Mtx) : Vec :=
  (m.points.setWidth 2048) ||| (m.lastc.setWidth 2048 <<< 64) ||| (m.flags.setWidth 2048 <<< 128) |||
    (BitVec.ofNat 2048 ((if m.front then 1 else 0) + (if (m.half m.front).valid then 2 else 0) + (if (m.half (!m.front)).valid then 4 else 0) +
      (if m.avalid then 8 else 0)) <<< 136)
/-- A vector pushed to a data queue by MTX. -/
def State.mtxPush (s : State) (n q : Nat) (e : Word) (v : Vec) : State :=
  s.modCore n fun c => c.setQueue q (c.queue q ++ [{ data := v, e := e, id := s.nextId }])
/-- R434: MSTAT. -/
def State.advMstat (s : State) (n : Nat) (o : MtxOp) : Adv :=
  let q := (o.w.extractLsb' 0 2).toNat
  if !s.writeOk n o.pe || (s.core n).queueFull q then .no
  else .go (((s.mtxPush n q o.pe (s.core n).mx.status).mtxWrite n o.pe 0 id).mtxRetire n o)
/-- R433: the next vector of MDQ; `row` counts vectors. -/
def State.advMdq (s : State) (n : Nat) (o : MtxOp) : Adv :=
  let m := (s.core n).mx
  let q := (o.w.extractLsb' 0 2).toNat
  let bf := o.w.getLsbD 2
  let t := o.w.getLsbD 11
  let per := if bf then 1 else 2
  match ((List.range (128 * per)).drop o.row).find? fun v => m.rmask.getLsbD (v / per) with
  | none => .go (s.mtxRetire n o)
  | some v =>
    if !s.writeOk n o.pe || (s.core n).queueFull q then .no else
    let word (i : Nat) : Nat := if m.cmask.getLsbD i then (m.acc t (v / per) i).toNat else 0
    let (x, f) : Vec × Flags :=
      if bf then
        let rs := (List.range 128).map fun i => if m.cmask.getLsbD i then cvt {} (if m.kind t then 10 else 0) 1 (word i) else (0, 0)
        (ofLanes 2 (rs.map (·.1)), rs.foldl (fun g r => g ||| r.2) 0)
      else (ofLanes 4 ((List.range 64).map fun i => word (64 * (v % 2) + i)), 0)
    .go (((s.mtxPush n q o.pe x).mtxWrite n o.pe f id).setOp n { o with row := v + 1 })
/-- R430: the next row of MINIT. -/
def State.advMinit (s : State) (n : Nat) (o : MtxOp) : Adv :=
  let x := Nest.of o.nest
  let mx := (s.core n).mx
  let t := o.w.getLsbD 11
  match s.tdesc n o.e x.tida, s.tdesc n o.e x.tidc with
  | some a, some d =>
    let i32 := a.fmt == 8
    match mx.rows.find? (o.row ≤ ·) with
    | none => .go (s.mtxRetire n o)
    | some r =>
      if !originOk d ((x.bc.set x.cdm 0).set x.cdn 0) then tbounds x.tidc s else
      let cols := mx.cols
      (s.fetch n o.e d x.tidc (cols.map fun j => blockAt d x.bc x.cdm r x.cdn j)).adv s fun vs s =>
        if !s.writeOk n o.pe then .no else
        let rs := vs.map fun v => match v with | some c => cvt {} d.fmt (if i32 then 10 else 0) c.toNat | none => (0, 0)
        let g (m : Mtx) : Mtx := ((cols.zip rs).foldl (fun m (j, v) => m.setAcc t r j (BitVec.ofNat 32 v.1)) m).mark t i32
        .go ((s.mtxWrite n o.pe (rs.foldl (fun f v => f ||| v.2) 0) g).setOp n { o with row := r + 1 })
  | none, _ => tbounds x.tida s
  | _, none => tbounds x.tidc s

/-! ### Drains (R432) -/

/-- How a drain writes: the tile, whether it adds memory, its rounding, .sat, clamp exponent, clear, seed. -/
structure Drain where
  t : Bool
  i32 : Bool
  add : Bool
  rm : Nat
  sat : Bool
  clamp : Option Nat
  clr : Bool
  seed : Word
  deriving DecidableEq, Repr
/-- A magnitude clamped to 2^(`k` − 127), as an FP32 code. -/
def clampTo (k : Nat) (c : Nat) : Nat :=
  match fp32.decode c with
  | .nan _ _ _ => c
  | v =>
    let b := Val.scaled false 1 ((k : Int) - 127)
    let abs : Val := if v.neg? then v.negate else v
    if cmpVal b abs < 0 then (rne32 (if v.neg? then b.negate else b)).1 else c
/-- The value that a drain writes for element (`r`, `j`) of the tile, given what memory holds. -/
def Drain.value (k : Drain) (fmt : Nat) (c : Word) (r j : Nat) (acc : BitVec 32) (mem : Nat) : Nat × Flags :=
  if k.i32 then
    let v := if k.add then acc + BitVec.ofInt 32 (intVal fmt mem) else acc
    cvt { sat := k.sat } 10 fmt v.toNat
  else
    let (v, f) : Nat × Flags :=
      if k.add then
        let (m, f) := cvt {} fmt 0 mem
        let (x, g) := mtxAdd m acc.toNat
        (x, (f ||| g))
      else (acc.toNat, 0)
    let v := match k.clamp with | some e => clampTo e v | none => v
    let (x, g) := cvt (rmAt k.rm k.sat k.seed c (128 * r + j)) 0 fmt v
    (x, f ||| g)
/-- The columns of row `r` of a C block at `oC`, with the tile and element of each. -/
def Mtx.drainCols (mx : Mtx) (d : TDesc) (x : Nest) (oC : List Nat) (r : Nat) : List (Nat × Nat × Nat) :=
  mx.cols.filterMap fun j => (blockAt d oC x.cdm r x.cdn j).bind fun y => (d.locate y).map fun (t, o) => (j, t, o)
/-- The cells of elements of `w` bytes with their values. -/
def drainCells (w : Nat) (cols : List (Nat × Nat × Nat)) (vs : List Nat) : List TCell :=
  (cols.zip vs).flatMap fun ((_, t, o), v) => (List.range w).map fun i => { tile := t, off := o * w + i, v := BitVec.ofNat 8 (v / 2 ^ (8 * i)), mask := 0xFF }
/-- One row written to C at `oC`, indivisibly: translated, computed, and sent to its home; a row that adds memory is performed there at
once. A write is of the full tile where the drain of all its rows is (R235). `then_` continues with the numbers of the rows still to be performed. -/
def State.drainRow (s : State) (n key : Nat) (k : Drain) (d : TDesc) (tid : BitVec 10) (x : Nest) (oC : List Nat) (r : Nat) (c : Word)
    (then_ : List Nat → State → State) : Adv :=
  let mx := (s.core n).mx
  let cid := (s.core n).cid
  let cols := mx.drainCols d x oC r
  let w := d.ebytes
  let zero := drainCells w cols (cols.map fun _ => 0)
  let whole := mx.rows.flatMap fun m => let cs := mx.drainCols d x oC m; drainCells w cs (cs.map fun _ => 0)
  if !s.writeOk n c then .no
  else if d.rdonly then tbounds tid s
  else
    match s.writeTiles n key .mtx c d tid (coversRun d whole) (tilesOf zero) [] with
    | .inl (.absent s) => .fault fNres (nresVal tid (((tilesOf zero).find? fun t => match s.entry n c d tid t with | some (x, _) => entAbsent x | none => false).getD 0)) s
    | .inl (.fault code v) => .fault code v s
    | .inl (.noframe p s) => .fault fCowNoframe (BitVec.ofNat 64 p) s
    | .inl (.stall s) => .go s
    | .inl (.run _ s) => .go s
    | .inr (s, runs) =>
      match s.cellKeys cid runs zero with
      | none => .fault fTtNode (BitVec.ofNat 64 (d.entAddr ((tilesOf zero).headD 0))) s
      | some ks =>
        match if k.add then ((cellGpas runs zero).zip ks).find? fun b => s.poisoned b.2.1 else none with
        | some b => .fault fEccUe (BitVec.ofNat 64 b.1) s
        | none =>
        if k.add && s.ownWrite n .mtx tid [] (ks.map (·.1)) then .go s else
        let s := s.l2See (s.ctx cid).pid true (lineHeads ((cellGpas runs zero).zip (ks.map (·.1))))
        let old := ((List.range cols.length).map fun i => leNat (((ks.drop (w * i)).take w).map fun b => s.byte b.1))
        let rs := (cols.zip old).map fun ((j, _, _), m) => k.value d.fmt c r j (mx.acc k.t r j) m
        let cells := (ks.zip (drainCells w cols (rs.map (·.1)))).map fun (b, t) => (b.1, t.v)
        let f := rs.foldl (fun g v => g ||| v.2) 0
        let s := s.mtxWrite n c f fun m => if k.clr then cols.foldl (fun m (j, _, _) => m.setAcc k.t r j 0) m else m
        if k.add then .go (then_ [] (s.writeBytes cells))
        else
          let id := s.nextId
          let kept : List TRun := runs.map fun r => { tid := tid, wr := true, tile := r.1, frame := r.2 }
          let h : Held := { id := id, core := n, cid := cid, inc := (s.core n).inc, eng := .mtx, e := c, act := .bytes cells, runs := kept }
          .go (then_ [id] { s with nextId := id + 1, flying := s.flying ++ [h] })
/-- The next row of a drain at `oC` from `row` on: unmasked and inside DIM. -/
def drainNext (mx : Mtx) (d : TDesc) (x : Nest) (oC : List Nat) (row : Nat) : Option Nat :=
  mx.rows.find? fun r => row ≤ r && oC.getD x.cdm 0 + r < d.dims.getD x.cdm 0
/-- R432: MDRAIN and MDRAINA: the next row, or retirement once every row has been performed at its home. -/
def State.advDrain (s : State) (n : Nat) (o : MtxOp) : Adv :=
  let x := Nest.of o.nest
  match s.tdesc n o.e x.tida, s.tdesc n o.e x.tidc with
  | some a, some d =>
    let k : Drain := { t := o.w.getLsbD 11, i32 := a.fmt == 8, add := o.w.getLsbD 8, rm := (o.w.extractLsb' 0 3).toNat, sat := o.w.getLsbD 3,
                       clamp := if o.w.getLsbD 4 then some x.cle else none, clr := o.w.getLsbD 5, seed := o.seed }
    match drainNext (s.core n).mx d x x.bc o.row with
    | none => if o.pend.any s.outstanding then .no else .go (s.mtxRetire n o)
    | some r =>
      if !originOk d x.bc then tbounds x.tidc s else
      s.drainRow n (claimKey o.id) k d x.tidc x x.bc r o.pe fun ids s => s.setOp n { o with row := r + 1, pend := o.pend ++ ids, nres := none }
  | none, _ => tbounds x.tida s
  | _, none => tbounds x.tidc s

/-! ### Points (R418, R431) -/

/-- The codes of A for the rows of the masks, G to a row; none for an element that contributes no product. -/
def State.pointA (s : State) (n : Nat) (o : MtxOp) (x : Nest) (d : TDesc) (oA : List Nat) (g : Nat) (rows : List Nat)
    (k : List (Option (BitVec 32)) → State → Adv) : Adv :=
  let mx := (s.core n).mx
  let xs := rows.flatMap fun m => (List.range g).map fun i => blockAt d oA x.adm m x.adk i
  if x.asrc then
    let ko : Int := (oA.getD x.adk 0 : Int) - mx.aK
    if !mx.avalid || ko < 0 || (stageLen d.fmt : Int) - g < ko then tbounds x.tida s else
    let cs := rows.flatMap fun m => (List.range g).map fun i =>
      if mx.anop.get false m then none else some (stageElem d.fmt (mx.arow.get 0 m) (ko.toNat + i))
    k ((xs.zip cs).map fun (p, c) => p.bind fun _ => c) s
  else (s.fetch n o.pe d x.tida xs).adv s k
/-- The codes of B for the columns of the masks, G to a column. -/
def State.pointB (s : State) (n : Nat) (o : MtxOp) (x : Nest) (d : TDesc) (oB : List Nat) (g : Nat) (cols : List Nat)
    (k : List (Option (BitVec 32)) → State → Adv) : Adv :=
  let mx := (s.core n).mx
  if x.bsrc then
    let r := mx.half mx.front
    let ko : Int := (oB.getD x.bdk 0 : Int) - r.k0
    if !r.valid || r.tidb != x.tidb || r.bmode != x.bmode || r.n0 != oB.getD x.bdn 0 || ko < 0 || 32 * (r.groups : Int) - g < ko then tbounds x.tidb s else
    k (cols.flatMap fun j => (List.range g).map fun i => r.elems.get none (128 * (ko.toNat + i) + j)) s
  else (s.fetch n o.pe d x.tidb (cols.flatMap fun j => (List.range g).map fun i => blockAt d oB x.bdk i x.bdn j)).adv s k
/-- The point after `k`, with its coordinate. -/
def MtxOp.nextPoint (o : MtxOp) (x : Nest) (cw : List Nat) : MtxOp :=
  { o with k := o.k + 1, row := 0, draining := false, nres := none, pe := if o.k + 1 < x.points then maxW o.pe (x.crd cw o.e (o.k + 1)) else o.pe }
/-- R431: the next point, or the next row of the drain that follows it, or retirement. -/
def State.advMgo (s : State) (n : Nat) (o : MtxOp) : Adv :=
  let c := s.core n
  let mx := c.mx
  let x := Nest.of o.nest
  let t := o.w.getLsbD 11
  if x.points ≤ o.k then (if o.pend.any s.outstanding then .no else .go (s.mtxRetire n o))
  else if c.watched o.pe then .go (s.modCore n fun c => { c with mtx := { c.mtx with waitsStop := true } })
  else
    match s.tdesc n o.pe x.tida, s.tdesc n o.pe x.tidb, s.tdesc n o.pe x.tidc with
    | some da, some db, some dc =>
      let i32 := da.fmt == 8
      let oC := x.oC o.k
      if o.draining then
        let k : Drain := { t := t, i32 := i32, add := o.w.getLsbD 1, rm := (o.w.extractLsb' 2 3).toNat, sat := o.w.getLsbD 5,
                           clamp := if o.w.getLsbD 6 then some x.cle else none, clr := false, seed := o.seed }
        match drainNext mx dc x oC o.row with
        | some r => s.drainRow n (claimKey o.id) k dc x.tidc x oC r o.pe fun ids s => s.setOp n { o with row := r + 1, pend := o.pend ++ ids, nres := none }
        | none =>
          if !s.writeOk n o.pe then .no else
          .go ((s.mtxWrite n o.pe 0 fun m => m.rows.foldl (fun m r => m.cols.foldl (fun m j => m.setAcc t r j 0) m) m).setOp n (o.nextPoint x c.cw))
      else
        let oA := x.oA o.k
        let oB := x.oB o.k
        let g := groupOf da.fmt
        if !originOk da oA then tbounds x.tida s
        else if !originOk db oB then tbounds x.tidb s
        else if !originOk dc oC then tbounds x.tidc s
        else
          -- the stage that MLDS filled takes its origins from the next MGO's A base (R427)
          let s := if mx.apend && (o.k == 0 || x.asrc) then
              s.modCore n fun c => { c with mx := { c.mx with aM := x.ba.getD x.adm 0, aK := x.ba.getD x.adk 0, apend := false } }
            else s
          let rows := mx.rows.filter fun m => oA.getD x.adm 0 + m < da.dims.getD x.adm 0 && !(x.asrc && mx.anop.get false m)
          let cols := mx.cols.filter fun j => oB.getD x.bdn 0 + j < db.dims.getD x.bdn 0
          s.pointA n o x da oA g rows fun av s =>
            s.pointB n o x db oB g cols fun bv s =>
              if !s.writeOk n o.pe then .no else
              let outs := (List.range rows.length).flatMap fun i => (List.range cols.length).map fun j =>
                let a := (av.drop (g * i)).take g
                let b := (bv.drop (g * j)).take g
                let m := rows.getD i 0
                let q := cols.getD j 0
                (m, q, pointOut i32 ((c.task.map (·.desc.nbv)).getD false) da.fmt db.fmt (mx.acc t m q)
                  ((a.zip b).map fun (u, v) => match u, v with | some u, some v => some (u, v) | _, _ => none))
              let f := outs.foldl (fun f r => f ||| r.2.2.2) 0
              let s := s.mtxWrite n o.pe f fun m =>
                let m := outs.foldl (fun m r => m.setAcc t r.1 r.2.1 r.2.2.1) (m.mark t i32)
                { m with points := m.points + 1 }
              let drn := o.w.getLsbD 0 && (o.k + 1 == x.points || x.oC (o.k + 1) != oC)
              .go (s.setOp n (if drn then { o with draining := true, row := 0, nres := none } else o.nextPoint x c.cw))
    | none, _, _ => tbounds x.tida s
    | _, none, _ => tbounds x.tidb s
    | _, _, none => tbounds x.tidc s

/-- Whether a word that writes nothing may retire: at once without a signal, with one as a write (R175, R251). -/
def State.idleOk (s : State) (n : Nat) (o : MtxOp) : Bool := (hdrOf o.w).sig == 0 || s.writeOk n o.pe
/-- Carries an issued word further (R424). -/
def State.mtxAdv (s : State) (n : Nat) (o : MtxOp) : Adv :=
  match (opcOf o.w).toNat with
  | 0x60 => s.advMldb n o
  | 0x61 => s.advMlds n o
  | 0x62 => s.advMgo n o
  | 0x63 => s.advDrain n o
  | 0x64 => s.advMinit n o
  | 0x65 => s.mtxOnce n o 0 fun m => { m with front := !m.front }
  | 0x67 => s.advMstat n o
  | 0x68 => s.advMdq n o
  | 0x69 => s.advMclr n o
  | 0x6A => s.advMlda n o
  | 0x6B => s.advMsel n o
  -- NOP, MWAIT and MARK write nothing, so the horizon holds only their signal; a MARK retires once every word before it has (R175)
  | 0x7E => if (s.core n).mtx.allBefore o.slot && s.idleOk n o then .go (s.mtxRetire n o) else .no
  | _ => if s.idleOk n o then .go (s.mtxRetire n o) else .no
/-- The tensors that an issued word reads, and that it writes. -/
def MtxOp.tensors (o : MtxOp) : List (BitVec 10) × List (BitVec 10) :=
  let x := Nest.of o.nest
  let some_ (b : Bool) (t : BitVec 10) : List (BitVec 10) := if b then [t] else []
  match (opcOf o.w).toNat with
  | 0x60 => ([x.tidb], [])
  | 0x6A => ([x.tida], [])
  | 0x64 => ([x.tidc], [])
  | 0x62 => (some_ (!x.asrc) x.tida ++ some_ (!x.bsrc) x.tidb ++ some_ (o.w.getLsbD 0 && o.w.getLsbD 1) x.tidc, some_ (o.w.getLsbD 0) x.tidc)
  | 0x63 => (some_ (o.w.getLsbD 8) x.tidc, [x.tidc])
  | _ => ([], [])
/-- Whether an issued word must wait for one issued before it: their accesses to a granule of one tensor are performed in issue order (R224), which the
engine keeps tensor by tensor. -/
def Core.mtxAfter (c : Core) (o : MtxOp) : Bool :=
  let (r, w) := o.tensors
  c.mx.ops.any fun p => p.id < o.id &&
    (let (r', w') := p.tensors; w'.any (fun t => r.contains t || w.contains t) || r'.any w.contains)
/-- The outcome of an attempt: an absent tile pauses the word and is reported once (R149, R425); another fault has restart "before". -/
def State.mtxTry (s : State) (n : Nat) (o : MtxOp) : Option State :=
  if !s.clear o.after || (s.core n).mtxAfter o then none else
  match s.mtxAdv n o with
  | .no => none
  | .go s => some s
  | .fault code val s =>
    if code == fNres then
      if o.nres == some val then none else
      let c := s.core n
      let r : FRec := { code := code, cls := 2, eng := 3, park := false, cid := c.cid, inc := c.inc, gts := s.gts, src := s.src n, crd := o.pe,
                        pc := c.faultPc .mtx o.slot, val := val }
      some ((s.record 0 r n false).setOp n { o with nres := some val })
    else some (s.raise n .mtx code val o.pe true o.slot)
/-- One of the issued words that can go further: which one, where several can, is a free choice (R422). -/
def State.mtxPick (s : State) (n : Nat) : List MtxOp → Option State
  | [] => none
  | o :: os =>
    match s.mtxTry n o with
    | none => s.mtxPick n os
    | some a => if os.isEmpty then some a else if Config.freeBit (s.freeCtr + o.id) then some ((s.mtxPick n os).getD a) else some a
/-- R424: the next write of the matrix engine of a core. -/
def State.commitMtx (s : State) (n : Nat) : State :=
  let s := s.selfClear n .mtx
  if s.engRuns n .mtx then (s.mtxPick n (s.core n).mx.ops).getD s else s
/-- R424: MTX_POINT_COMMIT. -/
def execMtxPointCommit (core : Nat) (s : State) : Result := .next (s.commitMtx core)

end Sys2Proof.Machine
end

