-- ==== Sys2Proof/Machine/Copy.lean ====
section
/-! DEFINITION. The copy engine (R398, R399, R435 to R449): slots and their checks, the granules that a word moves, the entry updates of
TCOW and TMIG, what is placed in the egress hold, circular-buffer fills, and the progress of issued words. -/

namespace Sys2Proof.Machine

/-! ### Jobs and slots (R435 to R437) -/

/-- The fields of a copy word (Table 13.9). -/
def CpyJob.o (j : CpyJob) : CP := unpackCP j.w
def CpyJob.opc (j : CpyJob) : Nat := (opcOf j.w).toNat
def CpyJob.fn (j : CpyJob) : Nat := (j.w.extractLsb' 24 4).toNat
def CpyJob.tida (j : CpyJob) : BitVec 10 := j.o.tida
def CpyJob.tidb (j : CpyJob) : BitVec 10 := j.o.tidb
def CpyJob.mode (j : CpyJob) : Nat := (j.d1.extractLsb' 62 2).toNat
/-- A bit field of a slot word, as a number. -/
def fld (w : Word) (lo n : Nat) : Nat := (w.extractLsb' lo n).toNat
-- MODE 0
def CpyJob.src0 (j : CpyJob) : Nat := fld j.d0 0 19
def CpyJob.dst0 (j : CpyJob) : Nat := fld j.d0 32 19
def CpyJob.len0 (j : CpyJob) : Nat := fld j.d1 0 19
def CpyJob.step (j : CpyJob) : Nat := fld j.d1 32 19
-- MODE 1
def CpyJob.spa1 (j : CpyJob) : Nat := fld j.d0 0 19
def CpyJob.rdim (j : CpyJob) : Nat := fld j.d0 20 3
def CpyJob.rows (j : CpyJob) : Nat := fld j.d0 24 16 + 1
def CpyJob.nel (j : CpyJob) : Nat := fld j.d1 0 18
def CpyJob.pitch (j : CpyJob) : Nat := fld j.d1 19 19
-- MODE 2
def CpyJob.ta (j : CpyJob) : Nat := fld j.d0 0 24
def CpyJob.tb (j : CpyJob) : Nat := fld j.d0 24 24
def CpyJob.nt (j : CpyJob) : Nat := fld j.d1 0 16 + 1
def CpyJob.spa2 (j : CpyJob) : Nat := fld j.d1 16 19
def CpyJob.sps (j : CpyJob) : Bool := j.d1.getLsbD 35
-- MODE 3
def CpyJob.raw (j : CpyJob) : Nat := fld j.d0 0 48
def CpyJob.spa3 (j : CpyJob) : Nat := fld j.d1 0 19
def CpyJob.len3 (j : CpyJob) : Nat := fld j.d1 20 19
/-- DIR of MODES 1 and 3, and DEV and AUTO. -/
def CpyJob.dir (j : CpyJob) : Bool := if j.mode == 1 then j.d0.getLsbD 19 else j.d1.getLsbD 19
def CpyJob.dev (j : CpyJob) : BitVec 8 := j.d0.extractLsb' 56 8
def CpyJob.auto (j : CpyJob) : Bool := j.d1.getLsbD 61
/-- Whether a word XORs its source into its destination. -/
def CpyJob.xor (j : CpyJob) : Bool := (j.opc == 0x6C || j.opc == 0x6E) && j.fn == 1
def CpyJob.isRemote (j : CpyJob) : Bool := j.opc == 0x6E || j.opc == 0x6F

/-- No reserved bit of a slot is set and every field is in its range (R399, R435). -/
def CpyJob.slotOk (j : CpyJob) : Bool :=
  match j.mode with
  | 0 => fld j.d0 19 13 == 0 && fld j.d0 51 13 == 0 && fld j.d1 19 13 == 0 && fld j.d1 51 11 == 0 &&
      j.src0 % 32 == 0 && j.dst0 % 32 == 0 && j.step % 32 == 0 && j.len0 % 32 == 0 && j.len0 != 0 && j.len0 ≤ 458752
  | 1 => !j.d0.getLsbD 23 && fld j.d0 40 24 == 0 && !j.d1.getLsbD 18 && fld j.d1 38 23 == 0 && j.spa1 % 32 == 0 && j.pitch % 32 == 0
  | 2 => fld j.d0 48 8 == 0 && fld j.d1 36 25 == 0 && j.spa2 % 32 == 0 && (j.dev == 0 || j.isRemote)
  | _ => fld j.d0 48 8 == 0 && fld j.d1 39 22 == 0 && j.raw % 32 == 0 && j.spa3 % 32 == 0 && j.len3 % 32 == 0 && 32 ≤ j.len3 &&
      j.len3 ≤ 458752 && (j.dev == 0 || j.isRemote)
/-- Two words of a copy-descriptor slot. -/
def Core.slot (c : Core) (k i : Nat) : Word := c.cslot.get 0 (2 * k + i)
/-- The coordinates that MODE 1 takes from coordinate slots (R436). -/
def Core.slotCoords (c : Core) (g : Nat) : List Nat :=
  let a := c.slot g 0
  let b := c.slot g 1
  let d := c.slot (g + 1) 0
  [fld a 0 32, fld a 32 32, fld b 0 32, fld b 32 32, fld d 0 32, fld d 32 32]

/-! ### What a word moves -/

/-- One granule's source or destination. -/
inductive Loc where
  | data (bs : List Byte)
  | spad (core a : Nat)
  | raw (a : Nat)
  | tens (tid : BitVec 10) (bs : List (Option TByte))
  deriving DecidableEq, Repr
/-- Granules of a run. -/
def TDesc.granules (d : TDesc) : Nat := 128 * d.run
/-- Bytes of a MODE 1 row. -/
def CpyJob.rowBytes (j : CpyJob) (d : TDesc) : Nat := j.nel * fmtBits d.fmt / 8
/-- The bytes of granule `i` of row `r` of a MODE 1 word; none past DIM. -/
def CpyJob.rowGranule (j : CpyJob) (d : TDesc) (r i : Nat) : List (Option TByte) :=
  let b := d.ebytes
  if b == 0 then List.replicate 32 none else
  let y := shiftDim j.x j.rdim r
  (List.range (Nat.max 1 (32 / b))).flatMap fun q => d.elem (shiftDim y (d.order.getD 0 0) (32 * i / b + q))
/-- Granule `i` of the run of a tile. -/
def runGranule (tile i : Nat) : List (Option TByte) := (List.range 32).map fun q => some { tile := tile, off := 32 * i + q }
/-- The tensor whose run length a MODE 2 word takes: the local one (R442, R446). -/
def CpyJob.lenTid (j : CpyJob) : BitVec 10 := if j.opc == 0x6F then j.tidb else j.tida
/-- How many granules a moving word has in all; `d` is the tensor that fixes its length. -/
def CpyJob.total (j : CpyJob) (d : TDesc) : Nat :=
  match j.mode with
  | 0 => j.len0 / 32
  | 1 => j.rows * (j.rowBytes d / 32)
  | 2 => j.nt * d.granules
  | _ => j.len3 / 32
/-- Source and destination of granule `k` of a word of core `n`, with `buf` what it read at issue. -/
def CpyJob.move (j : CpyJob) (n : Nat) (buf : List Byte) (d : TDesc) (k : Nat) : Loc × Loc :=
  let fill := j.opc == 0x6D
  let ccb := j.opc == 0x71
  let pull := j.opc == 0x6F
  let from_ (l : Loc) : Loc := if fill then .data j.pat else l
  match j.mode with
  | 0 => (if fill then .data j.pat else .data ((buf.drop (32 * k)).take 32), .spad n (if ccb then j.cbAddr + 32 * k else j.dst0 + 32 * k))
  | 1 =>
    let per := Nat.max 1 (j.rowBytes d / 32)
    let (r, i) := (k / per, k % per)
    let t : Loc := .tens j.tida (j.rowGranule d r i)
    let a := j.spa1 + r * j.pitch + 32 * i
    if ccb then (t, .spad n (j.cbAddr + r * j.pitch + 32 * i))
    else if j.dir then (from_ (.spad n a), t) else (t, .spad n a)
  | 2 =>
    let per := Nat.max 1 d.granules
    let (t, i) := (k / per, k % per)
    let sp : Loc := .spad n (j.spa2 + 32 * k)
    let a : Loc := .tens j.tida (runGranule (j.ta + t) i)
    let b : Loc := .tens j.tidb (runGranule (j.tb + t) i)
    if pull then (a, if j.sps then sp else b) else (if j.sps then sp else a, b)
  | _ =>
    let m : Loc := .raw (j.raw + 32 * k)
    if ccb then (m, .spad n (j.cbAddr + 32 * k))
    else if j.opc == 0x6E then (.spad n (j.spa3 + 32 * k), m)
    else if pull then (m, .spad n (j.spa3 + 32 * k))
    else if j.dir then (from_ (.spad n (j.spa3 + 32 * k)), m) else (m, .spad n (j.spa3 + 32 * k))

/-- What an operation has translated of a tensor for its reads, or with `wr` for its writes (R207). -/
def runsOf (runs : List TRun) (wr : Bool) (tid : BitVec 10) : List (Nat × BitVec 36) :=
  (runs.filter fun r => r.wr == wr && r.tid == tid).map fun r => (r.tile, r.frame)
/-- Adds translations to those that an operation keeps. -/
def keepRuns (runs : List TRun) (wr : Bool) (tid : BitVec 10) (new : List (Nat × BitVec 36)) : List TRun :=
  runs ++ (new.filter fun r => !(runsOf runs wr tid).any fun q => q.1 == r.1).map fun r => { tid := tid, wr := wr, tile := r.1, frame := r.2 }
/-- Reads 32 bytes for core `n` at coordinate `e`, under the translations `runs` that the operation has made, then goes on with them and the
translations. -/
def State.locRead (s : State) (n : Nat) (e : Word) (runs : List TRun) (l : Loc) (then_ : List Byte → List TRun → State → Adv) : Adv :=
  match l with
  | .data bs => then_ bs runs s
  | .spad c a => then_ ((s.core c).spadBytes a 32) runs s
  | .raw a =>
    match s.rawKeys (s.core n).cid (BitVec.ofNat 64 a) 32 .r with
    | none => .fault fRawWindow (BitVec.ofNat 64 a) s
    | some ks => if s.anyPoison ks then .fault fEccUe (BitVec.ofNat 64 a) s else then_ (ks.map s.byte) runs (s.l2Raw n (BitVec.ofNat 64 a) ks)
  | .tens tid bs =>
    match s.tdesc n e tid with
    | none => .fault fTensorBounds (tid.setWidth 64) s
    | some d =>
      match s.tensorReadAt n .cpy ((runsOf runs false tid).map fun r => (r.1, some r.2)) e d tid false bs with
      | .stop (.fault c v) => .fault c v s
      | .stop (.wait s) => .go s
      | .stop _ => .no
      | .ok src found s =>
        then_ (src.map fun x => match x with | some (k, m) => s.byte k &&& m | none => 0)
          (keepRuns runs false tid (found.filterMap fun r => r.2.map fun f => (r.1, f))) s
/-- XOR of old and new bytes under .xor. -/
def mixBytes (xor : Bool) (old new : List Byte) : List Byte := if xor then (old.zip new).map fun (a, b) => a ^^^ b else new
/-- Whether a moving word alone writes every byte of the run of a tile that it writes (R235): a tile of MODE 2 always, of MODE 1 where its rows, which
never meet (R442), cover it. -/
def CpyJob.coversTile (j : CpyJob) (d : TDesc) (t : Nat) : Bool :=
  if j.xor then false
  else if j.mode == 2 then true
  else j.mode == 1 &&
    let per := j.rowBytes d / 32
    let bs := (List.range (j.rows * per)).flatMap fun k => (j.rowGranule d (k / per) (k % per)).filterMap id
    4096 * d.run ≤ (bs.filter fun b => b.tile == t && b.mask == 0xFF).length
/-- Writes 32 bytes of word `j` under the translations `runs`, with `log` for scratchpad that is logged. -/
def State.locWrite (s : State) (n key : Nat) (e : Word) (j : CpyJob) (log : Bool) (runs : List TRun) (l : Loc) (bs : List Byte)
    (then_ : List TRun → State → Adv) : Adv :=
  match l with
  | .data _ => then_ runs s
  | .spad c a =>
    let v := mixBytes j.xor ((s.core c).spadBytes a 32) bs
    then_ runs (if log then s.spadWrite c .cpy e a v else s.modCore c fun k => { k with spad := putSpad k.spad a v })
  | .raw a =>
    match s.rawKeys (s.core n).cid (BitVec.ofNat 64 a) 32 .w with
    | none => .fault fRawWindow (BitVec.ofNat 64 a) s
    | some ks => then_ runs ((s.l2Raw n (BitVec.ofNat 64 a) ks).writeBytes (ks.zip (mixBytes j.xor (ks.map s.byte) bs)))
  | .tens tid ts =>
    match s.tdesc n e tid with
    | none => .fault fTensorBounds (tid.setWidth 64) s
    | some d =>
      let cs : List TCell := (ts.zip bs).filterMap fun (t, b) => t.map fun t => { tile := t.tile, off := t.off, v := b, mask := t.mask }
      if d.rdonly then .fault fTensorBounds (tid.setWidth 64) s else
      let tiles := tilesOf cs
      let known := (runsOf runs true tid).filter fun r => tiles.contains r.1
      match s.writeTiles n key .cpy e d tid (j.coversTile d) (tiles.filter fun t => !known.any fun r => r.1 == t) known with
      | .inl (.absent s) => .fault fNres (nresVal tid ((tiles.find? fun t => match s.entry n e d tid t with | some (x, _) => entAbsent x | none => false).getD 0)) s
      | .inl (.fault c v) => .fault c v s
      | .inl (.noframe p s) => .fault fCowNoframe (BitVec.ofNat 64 p) s
      | .inl (.stall s) => .go s
      | .inl (.run _ s) => .go s
      | .inr (s, found) =>
        match s.cellKeys (s.core n).cid found cs with
        | none => .fault fTtNode (BitVec.ofNat 64 (d.entAddr (tiles.headD 0))) s
        | some ks =>
          let cs' := (cs.zip (mixBytes j.xor (ks.map fun k => s.byte k.1) (cs.map (·.v)))).map fun (c, b) => { c with v := b }
          let s := s.l2See (s.ctx (s.core n).cid).pid true (lineHeads ((cellGpas found cs).zip (ks.map (·.1))))
          then_ (keepRuns runs true tid found)
            (if d.phased then s.putCellsIn n .cpy e true found cs'
             else s.writeBytes ((ks.zip cs').map fun (k, c) => (k.1, mergeByte (s.byte k.1) c.v c.mask)))
/-- One granule. -/
def State.moveOne (s : State) (n key : Nat) (e : Word) (j : CpyJob) (log : Bool) (runs : List TRun) (m : Loc × Loc) (then_ : List TRun → State → Adv) : Adv :=
  s.locRead n e runs m.1 fun bs runs s => s.locWrite n key e j log runs m.2 bs then_

/-! ### Accesses that meet (R224, R440) -/

/-- Whether two accesses touch one granule. -/
def Loc.meets : Loc → Loc → Bool
  | .spad c a, .spad c' a' => c == c' && a / 32 == a' / 32
  | .raw a, .raw a' => a / 32 == a' / 32
  | .tens t xs, .tens t' ys =>
    t == t' && xs.any fun x => ys.any fun y =>
      match x, y with
      | some x, some y => x.tile == y.tile && x.off / 32 == y.off / 32
      | _, _ => false
  | _, _ => false
/-- The tensor that fixes a word's length; an empty one where none does. -/
def State.lenDesc (s : State) (n : Nat) (e : Word) (j : CpyJob) : TDesc :=
  if j.mode == 1 then (s.tdesc n e j.tida).getD {} else if j.mode == 2 then (s.tdesc n e j.lenTid).getD {} else {}
/-- The granules of this device that a held copy word has still to read or write. -/
def State.locsLeft (s : State) (h : Held) (j : CpyJob) : List Loc :=
  let d := s.lenDesc h.core h.e j
  let far := j.isRemote && j.dev != s.conf.devnum
  if j.opc == 0x70 then
    ((List.range (j.len0 / 32)).drop h.k).flatMap fun i => [.spad h.core (j.src0 + 32 * i), .spad j.tida.toNat (j.dst0 + 32 * i)]
  else
    ((List.range (j.total d)).drop (if far then 128 * h.k else h.k)).flatMap fun i =>
      let m := j.move h.core [] d i
      if far then (if j.opc == 0x6E then [m.1] else [m.2]) else [m.1, m.2]
/-- Whether a copy word updates the entries of tiles: TCOW, TMIG, TSHARE, TFREE. -/
def CpyJob.entryOp (j : CpyJob) : Bool := 0x72 ≤ j.opc && j.opc ≤ 0x75
/-- Whether two copy words name a tensor together. -/
def CpyJob.sameTensor (j k : CpyJob) : Bool := j.tida == k.tida || j.tida == k.tidb || j.tidb == k.tida || j.tidb == k.tidb
/-- Whether a copy entry has still to touch one of some granules. -/
def State.entryMeets (s : State) (h : Held) (ls : List Loc) : Bool :=
  match h.act with
  | .cpy k => (s.locsLeft h k).any fun x => ls.any x.meets
  | .twrite t cs => ls.any fun x => match x with
    | .tens t' bs => t == t' && bs.any fun b => match b with | some b => cs.any fun c => c.tile == b.tile && c.off / 32 == b.off / 32 | none => false
    | _ => false
  | _ => false
/-- Whether the next part of an issued copy word must wait for a copy word before it (R188, R224): for one released, or that is held and meets it in
scratchpad or where this one writes; a read of memory does not wait for a held write (R260). -/
def State.cpyAfter (s : State) (n : Nat) (o : CpyOp) : Bool :=
  let j := o.job
  let earlier (h : Held) : Bool := h.core == n && h.eng == .cpy && h.id < o.id
  let released := (s.releasedOf n ++ s.oreqs.map (·.held)).filter earlier
  let held := (s.core n).hold.filter earlier
  if j.entryOp then (released ++ held).any fun h => match h.act with | .cpy k => j.sameTensor k | _ => false
  else
    let m := j.move n o.buf (s.lenDesc n o.e j) o.k
    let src : List Loc := match m.1 with | .spad c a => [.spad c a] | _ => []
    released.any (fun h => s.entryMeets h [m.1, m.2] || (match h.act with | .cpy k => k.entryOp && j.sameTensor k | _ => false)) ||
      held.any fun h => s.entryMeets h (src ++ [m.2])

/-! ### Issue -/

/-- A copy word's tensor, or what stops the word. -/
def State.cpyTensor (s : State) (e : Word) (tid : BitVec 10) : TDesc ⊕ Body :=
  match s.tdesc s.cur e tid with
  | none => .inr (.fault fTensorBounds (tid.setWidth 64))
  | some d => .inl d
/-- Whether two tensors have equal format and tile size (R442, R448). -/
def sameTiles (a b : TDesc) : Bool := a.fmt == b.fmt && a.tileBytes == b.tileBytes
/-- SPAD_RANGE for a range that reaches the end of the program area: its first address at or above it (R399). -/
def spadRange (a len : Nat) : Option Body :=
  if spadEnd < a + len then some (.fault fSpadRange (BitVec.ofNat 64 (Nat.max a spadEnd))) else none
/-- The tests of R435, R436 and R438 that every word has in common: MODE, slot, fields that the mode leaves unused, coordinates. -/
def State.cpyCommon (_ : State) (w : Word) (j : CpyJob) (modes : List Nat) (useA useB : Bool) : Option Body :=
  let o := j.o
  let m := j.mode
  let bad : Option Body := some (.fault fIllegal w)
  if !modes.contains m || !j.slotOk then bad
  else if (m != 1 && o.g != 0) || (!useA && m != 1 && m != 2 && o.tida != 0) || (!useB && m != 2 && o.tidb != 0) then bad
  else if m == 1 && o.g == o.dslot then bad
  else none
/-- MODE 1's own tests (R436, R442). -/
def State.cpyRows (s : State) (e w : Word) (j : CpyJob) (ccb : Bool) : Option Body :=
  match s.cpyTensor e j.tida with
  | .inr b => some b
  | .inl d =>
    let o := j.o
    let g := o.g.toNat
    let bad : Option Body := some (.fault fIllegal w)
    let two := 5 ≤ d.rank
    if two && (g == 63 || g + 1 == o.dslot.toNat || s.me.slot (g + 1) 1 != 0) then bad
    else if (List.range 6).any fun k => d.rank ≤ k && (two || k < 4) && j.x.getD k 0 != 0 then bad
    else if d.rank ≤ j.rdim || d.fmt == 5 || j.nel * fmtBits d.fmt % 256 != 0 then bad
    else if 1 < j.rows && j.rdim == d.order.getD 0 0 then bad
    else if j.pitch < j.rowBytes d then bad
    else
      match if ccb then none else spadRange j.spa1 ((j.rows - 1) * j.pitch + j.rowBytes d) with
      | some b => some b
      | none => if ((d.locate (j.x.take d.rank)).isNone) then some (.fault fTensorBounds (j.tida.setWidth 64)) else none
/-- MODE 2's tests: tile numbers of the tensors named, and that two local ones agree. -/
def State.cpyTiles (s : State) (e : Word) (j : CpyJob) (a b : Bool) : Option Body :=
  let chk (tid : BitVec 10) (t : Nat) : Option Body :=
    match s.cpyTensor e tid with
    | .inr x => some x
    | .inl d => if d.tiles < t + j.nt then some (.fault fTensorBounds (tid.setWidth 64)) else none
  orTest (if a then chk j.tida j.ta else none)
    (orTest (if b then chk j.tidb j.tb else none)
      (match s.tdesc s.cur e j.tida, s.tdesc s.cur e j.tidb with
       | some x, some y => if a && b && !sameTiles x y then some (.fault fTensorBounds (j.tidb.setWidth 64)) else none
       | _, _ => none))
/-- A raw range under a permission (R194, R199). -/
def State.cpyRaw (s : State) (j : CpyJob) (p : Perm) : Option Body :=
  let a : Word := BitVec.ofNat 64 j.raw
  match s.coreKeys s.cur a j.len3 p with
  | .inr f => some (.fault f a)
  | .inl _ => none
/-- The scratchpad that a range read by a word names may be pending (R187). -/
def State.cpyPend (s : State) (a len : Nat) : Option Body :=
  (s.me.pendingAt s.cycle a len).map fun g => .fault fSpadPending (BitVec.ofNat 64 g)
/-- The mode tests of the words that move bytes: COPY, CFILL and CCB. -/
def State.cpyMoves (s : State) (e w : Word) (j : CpyJob) (fill ccb : Bool) : Option Body :=
  match j.mode with
  | 0 => orTest (if fill then none else orTest (spadRange j.src0 j.len0) (s.cpyPend j.src0 j.len0)) (if ccb then none else spadRange j.dst0 j.len0)
  | 1 => orTest (if (fill && !j.dir) || (ccb && j.dir) then some (.fault fIllegal w) else none) (s.cpyRows e w j ccb)
  | 2 => orTest (s.cpyTiles e j (!j.sps) true)
      (if !j.sps then none else
       match s.cpyTensor e j.tida, s.tdesc s.cur e j.tidb with
       | .inr b, _ => some b
       | .inl d, some y => if !sameTiles d y then some (.fault fTensorBounds (j.tidb.setWidth 64)) else spadRange j.spa2 (32 * j.nt * d.granules)
       | .inl _, none => none)
  | _ => orTest (if (fill && !j.dir) || (ccb && j.dir) then some (.fault fIllegal w) else none)
      (orTest (if ccb then none else spadRange j.spa3 j.len3) (s.cpyRaw j (if j.dir then .w else .r)))

/-- Whether the destination of a moving word is memory, and whether it is a phased tensor (R439). -/
def State.toMemory (s : State) (n : Nat) (e : Word) (j : CpyJob) : Bool × Bool :=
  let phased (t : BitVec 10) : Bool := ((s.tdesc n e t).map (·.phased)).getD false
  if j.opc == 0x71 then (false, false) else
  match j.mode with
  | 0 => (false, false)
  | 1 => (j.dir, phased j.tida)
  | 2 => (true, phased j.tidb)
  | _ => (j.dir, false)
/-- The scratchpad of its core that a word reads, and that it writes, as ranges of address and length (R187). -/
def CpyJob.spadParts (j : CpyJob) (d : TDesc) : List (Nat × Nat) × List (Nat × Nat) :=
  let rows (a : Nat) : List (Nat × Nat) := (List.range j.rows).map fun r => (a + r * j.pitch, j.rowBytes d)
  let (fill, push, pull, ccb) := (j.opc == 0x6D, j.opc == 0x6E, j.opc == 0x6F, j.opc == 0x71)
  if j.opc == 0x70 then ([(j.src0, j.len0)], [])
  else if !(j.opc == 0x6C || fill || push || pull || ccb) then ([], [])
  else match j.mode with
  | 0 => (if fill then [] else [(j.src0, j.len0)], [(if ccb then j.cbAddr else j.dst0, j.len0)])
  | 1 => if ccb then ([], rows j.cbAddr) else if j.dir then (if fill then [] else rows j.spa1, []) else ([], rows j.spa1)
  | 2 => if !j.sps then ([], []) else if pull then ([], [(j.spa2, 32 * j.nt * d.granules)]) else ([(j.spa2, 32 * j.nt * d.granules)], [])
  | _ => if ccb then ([], [(j.cbAddr, j.len3)]) else if push || (j.dir && !pull) then (if fill then [] else [(j.spa3, j.len3)], []) else ([], [(j.spa3, j.len3)])
/-- Whether scratchpad that a word reads is pending. -/
def State.jobPend (s : State) (e : Word) (j : CpyJob) : Option Body := ((j.spadParts (s.lenDesc s.cur e j)).1.map fun x => s.cpyPend x.1 x.2).foldr orTest none
/-- The job of a word at issue. -/
def State.jobOf (s : State) (w : Word) : CpyJob :=
  let o := unpackCP w
  let k := o.dslot.toNat
  { w := w, d0 := s.me.slot k 0, d1 := s.me.slot k 1, x := s.me.slotCoords o.g.toNat }
/-- The ring slots of core-local copy work still under way bar the next word (R437, R439): issue-time parts run one after another. -/
def Core.cpyBusy (c : Core) : Bool := c.cpyQ.any fun o => !o.done

/-- Writes a copy-descriptor slot's word, logged under kind 4 (R437). -/
def State.setSlot (s : State) (n : Nat) (e : Word) (k i : Nat) (v : Word) : State :=
  (s.log n { kind := 4, eng := 4, addr := BitVec.ofNat 48 (0x1000 + 0x440 + 2 * k + i), crd := e, old := ((s.core n).slot k i).setWidth 256 }).modCore n fun c =>
    { c with cslot := c.cslot.set 0 (2 * k + i) v }
/-- Replaces a bit field of a word. -/
def setFld (w : Word) (lo n v : Nat) : Word :=
  BitVec.ofNat 64 (w.toNat - fld w lo n * 2 ^ lo + v % 2 ^ n * 2 ^ lo)
/-- The advance of a word's slots on completing its issue-time part (R399, R437); CCB advances only the memory side. -/
def State.autoAdvance (s : State) (n : Nat) (e : Word) (j : CpyJob) : State :=
  let k := j.o.dslot.toNat
  let ccb := j.opc == 0x71
  let d := s.lenDesc n e j
  match j.mode with
  | 0 =>
    let w := (s.core n).slot k 0
    let w := setFld w 0 19 (fld w 0 19 + j.step)
    s.setSlot n e k 0 (if ccb then w else setFld w 32 19 (fld w 32 19 + j.step))
  | 1 =>
    if !j.auto then s else
    let g := j.o.g.toNat + j.rdim / 4
    let i := j.rdim % 4 / 2
    let w := (s.core n).slot g i
    let s := s.setSlot n e g i (setFld w (32 * (j.rdim % 2)) 32 (fld w (32 * (j.rdim % 2)) 32 + j.rows))
    if ccb then s else
    let v := (s.core n).slot k 0
    s.setSlot n e k 0 (setFld v 0 19 (fld v 0 19 + j.rows * j.pitch))
  | 2 =>
    if !j.auto then s else
    let w := (s.core n).slot k 0
    let s := s.setSlot n e k 0 (setFld (setFld w 0 24 (fld w 0 24 + j.nt)) 24 24 (fld w 24 24 + j.nt))
    let v := (s.core n).slot k 1
    s.setSlot n e k 1 (setFld v 16 19 (fld v 16 19 + 32 * j.nt * d.granules))
  | _ =>
    if !j.auto then s else
    let w := (s.core n).slot k 0
    let s := s.setSlot n e k 0 (setFld w 0 48 (fld w 0 48 + j.len3))
    if ccb then s else
    let v := (s.core n).slot k 1
    s.setSlot n e k 1 (setFld v 0 19 (fld v 0 19 + j.len3))
/-- CFILL's DST alone advances in MODE 0 (R443). -/
def State.slotAdvance (s : State) (n : Nat) (e : Word) (j : CpyJob) : State :=
  if j.opc == 0x6D && j.mode == 0 then
    let k := j.o.dslot.toNat
    let w := (s.core n).slot k 0
    s.setSlot n e k 0 (setFld w 32 19 (fld w 32 19 + j.step))
  else s.autoAdvance n e j

/-- The scratchpad granules that a word's issue-time part will log (R255). -/
def State.logNeed (s : State) (n : Nat) (e : Word) (j : CpyJob) : Nat :=
  if !s.logs n e then 0
  else if (s.toMemory n e j).1 && !(s.toMemory n e j).2 then 0 else j.total (s.lenDesc n e j)
/-- R255: room in the peel log before the first change; a word that needs more than the log holds waits for the horizon. -/
def State.logRoom (s : State) (n : Nat) (e : Word) (j : CpyJob) : Bool := s.logNeed n e j ≤ (s.core n).peelFree

/-- Issues a copy word: `test` is its own test, `body` its effect. -/
def cpyWord (h : Hdr) (w : Word) (test : Word → CpyJob → Option Body) (body : Word → CpyJob → Nat → State → Body) (s : State) : Result :=
  let j := s.jobOf w
  engWord .cpy h w 0 (fun e => if s.me.cpyBusy then some .stall else orTest (test e j) (s.jobPend e j)) [] 0 0 (fun e _ _ id s' => body e j id s') s
/-- Puts a word among the issued ones; what it writes of its scratchpad is pending until it retires (R187). -/
def State.cpyStart (s : State) (h : Hdr) (e : Word) (slot : BitVec 16) (id : Nat) (j : CpyJob) (buf : List Byte) : State :=
  let n := s.cur
  let s := (j.spadParts (s.lenDesc n e j)).2.foldl (fun (s : State) x => s.setPend n x.1 x.2 (pendMark id)) s
  s.modCore n fun c => { c with cpyQ := c.cpyQ ++ [{ slot := slot, id := id, e := e, sig := h.sig, job := j, buf := buf, after := c.barOn .cpy }] }
/-- Holds the outward effect of a copy word, whose signal follows its completion (R438); its slots advance. -/
def State.cpyHold (s : State) (h : Hdr) (e : Word) (slot : BitVec 16) (j : CpyJob) (id : Nat) : Body :=
  let s := s.slotAdvance s.cur e j
  -- the word retires when its entry is held, without its signal
  .quiet ((s.engHold .cpy e j.w h.sig slot (.cpy j)).retireIss s.cur .cpy id)
/-- A word that moves bytes: at issue into scratchpad or a phased tensor's shadow, held otherwise (R439). -/
def State.cpyMover (s0 : State) (h : Hdr) (e : Word) (j : CpyJob) (buf : List Byte) (id : Nat) (s : State) : Body :=
  let (mem, phased) := s0.toMemory s0.cur e j
  let slot := s0.me.cpy.ring.head
  if mem && !phased then s.cpyHold h e slot j id else .quiet (s.cpyStart h e slot id j buf)

/-- COPY and COPY.xor (R399, R442). -/
def cpyCopy (h : Hdr) (w : Word) (s : State) : Result :=
  cpyWord h w
    (fun e j => orTest (s.cpyCommon w j [0, 1, 2, 3] false false) (orTest (s.cpyMoves e w j false false) (stallUnless (s.logRoom s.cur e j))))
    (fun e j id s' => s.cpyMover h e j (if j.mode == 0 then s.me.spadBytes j.src0 j.len0 else []) id s') s
/-- R399, R442: COPY. -/
def execCopy (h : Hdr) (o : CP) (s : State) : Result := cpyCopy h (packCP h 0x6C 0 o) s
/-- R442: COPY.xor. -/
def execCopyXor (h : Hdr) (o : CP) (s : State) : Result := cpyCopy h (packCP h 0x6C 1 o) s
/-- R443: CFILL; its pattern is read at issue. -/
def execCfill (h : Hdr) (o : CP) (s : State) : Result :=
  let w := packCP h 0x6D 0 o
  let at_ (j : CpyJob) : Nat := if j.mode == 0 then j.src0 else if j.mode == 1 then j.spa1 else j.spa3
  cpyWord h w
    (fun e j => orTest (s.cpyCommon w j [0, 1, 3] false false)
      (orTest (if j.mode == 0 then none else spadRange (at_ j) 32) (orTest (spadRange (at_ j) 32) (orTest (s.cpyPend (at_ j) 32)
        (orTest (s.cpyMoves e w j true false) (stallUnless (s.logRoom s.cur e j)))))))
    (fun e j id s' => s.cpyMover h e { j with pat := s.me.spadBytes (at_ j) 32 } [] id s') s
/-- The tests of CPUSH and CPULL at issue: the local side (R446). -/
def State.cpyFar (s : State) (e w : Word) (j : CpyJob) (pull : Bool) : Option Body :=
  orTest (s.cpyCommon w j [2, 3] false false)
    (if j.mode == 3 then
      orTest (if j.dir == pull then some (.fault fIllegal w) else none)
        (orTest (spadRange j.spa3 j.len3) (if j.dev == s.conf.devnum then s.cpyRaw j (if pull then .r else .w) else none))
     else
      match s.cpyTensor e j.lenTid with
      | .inr b => some b
      | .inl d =>
        orTest (if j.sps then spadRange j.spa2 (32 * j.nt * d.granules) else s.cpyTiles e j (!pull) pull)
          (if j.dev == s.conf.devnum then s.cpyTiles e j pull (!pull) else none))
/-- A transfer with another device, always held (R446). -/
def cpyRemote (h : Hdr) (w : Word) (pull : Bool) (s : State) : Result :=
  cpyWord h w (fun e j => s.cpyFar e w j pull) (fun e j id s' => s'.cpyHold h e s.me.cpy.ring.head j id) s
/-- R446: CPUSH. -/
def execCpush (h : Hdr) (o : CP) (s : State) : Result := cpyRemote h (packCP h 0x6E 0 o) false s
/-- R446: CPUSH.xor. -/
def execCpushXor (h : Hdr) (o : CP) (s : State) : Result := cpyRemote h (packCP h 0x6E 1 o) false s
/-- R446: CPULL. -/
def execCpull (h : Hdr) (o : CP) (s : State) : Result := cpyRemote h (packCP h 0x6F 0 o) true s
/-- R445: CXCH; ILLEGAL where the launch has no superstep phaser. -/
def execCxch (h : Hdr) (o : CP) (s : State) : Result :=
  let w := packCP h 0x70 0 o
  cpyWord h w
    (fun _ j => orTest (s.cpyCommon w j [0] true true)
      (orTest (if (s.me.task.bind (·.superPh)).isNone || 256 ≤ o.tida.toNat || 64 ≤ o.tidb.toNat then some (.fault fIllegal w) else none)
        (orTest (spadRange j.src0 j.len0) (s.cpyPend j.src0 j.len0))))
    (fun e j id s' => s'.cpyHold h e s.me.cpy.ring.head j id) s
/-- The bytes of a CCB's source (R444). -/
def CpyJob.ccbBytes (j : CpyJob) : Nat := if j.mode == 0 then j.len0 else if j.mode == 1 then j.rows * j.pitch else j.len3
/-- R189, R444: CCB takes a free slot and fills it. -/
def execCcb (h : Hdr) (o : CP) (s : State) : Result :=
  let w := packCP h 0x71 0 o
  let k := o.tidb.toNat % 32
  cpyWord h w
    (fun e j => orTest (s.cpyCommon w j [0, 1, 3] false true)
      (match s.me.cbs.get none k with
       | none => some (.fault fIllegal w)
       | some b =>
         if 32 ≤ o.tidb.toNat || j.ccbBytes != cbSlotBytes b.w0 then some (.fault fIllegal w)
         else orTest (s.cpyMoves e w j false true) (stallUnless (b.free != 0 && s.logRoom s.cur e j))))
    (fun e j id s' =>
      match s.me.cbs.get none k with
      | none => .stall
      | some b =>
        let slot := (b.widx + b.filling) % cbSlots b.w0
        let j := { j with cbAddr := cbBase b.w0 + cbSlotBytes b.w0 * slot, cbSlot := slot }
        .quiet ((s'.setCb s.cur .cpy k e { b with free := b.free - 1, filling := b.filling + 1 }).cpyStart
          h e s.me.cpy.ring.head id j (if j.mode == 0 then s.me.spadBytes j.src0 j.len0 else []))) s
/-- The tests of the words that update tile entries (R448). -/
def State.cpyEnts (s : State) (e w : Word) (j : CpyJob) (two : Bool) : Option Body :=
  orTest (s.cpyCommon w j [2] false false)
    (orTest (if two then none else if j.tidb != 0 then some (.fault fIllegal w) else none)
      (orTest (s.cpyTiles e j true two)
        (match s.tdesc s.cur e j.tida, s.tdesc s.cur e j.tidb with
         | some a, b => if a.phased || (two && (b.map (·.phased)).getD false) then some (.fault fIllegal w) else none
         | none, _ => none)))
/-- R448: TCOW. -/
def execTcow (h : Hdr) (o : CP) (s : State) : Result :=
  let w := packCP h 0x72 0 o
  cpyWord h w (fun e j => s.cpyEnts e w j false) (fun e j id s' => .quiet (s'.cpyStart h e s.me.cpy.ring.head id j [])) s
/-- TMIG (R216): ILLEGAL against NODEM or NOPROM. -/
def cpyMig (h : Hdr) (w : Word) (promote : Bool) (s : State) : Result :=
  cpyWord h w
    (fun e j => orTest (s.cpyEnts e w j false)
      (match s.tdesc s.cur e j.tida with
       | some d => if (if promote then d.noprom || 1 < j.o.q.toNat else d.nodem) then some (.fault fIllegal w) else none
       | none => none))
    (fun e j id s' => .quiet (s'.cpyStart h e s.me.cpy.ring.head id j [])) s
/-- R216, R448: TMIG.DEMOTE. -/
def execTmigDemote (h : Hdr) (o : CP) (s : State) : Result := cpyMig h (packCP h 0x73 0 o) false s
/-- R216, R448: TMIG.PROMOTE. -/
def execTmigPromote (h : Hdr) (o : CP) (s : State) : Result := cpyMig h (packCP h 0x73 1 o) true s
/-- R213, R448: TSHARE is held. -/
def execTshare (h : Hdr) (o : CP) (s : State) : Result :=
  let w := packCP h 0x74 0 o
  cpyWord h w (fun e j => s.cpyEnts e w j true) (fun e j id s' => s'.cpyHold h e s.me.cpy.ring.head j id) s
/-- R448: TFREE is held. -/
def execTfree (h : Hdr) (o : CP) (s : State) : Result :=
  let w := packCP h 0x75 0 o
  cpyWord h w (fun e j => s.cpyEnts e w j false) (fun e j id s' => s'.cpyHold h e s.me.cpy.ring.head j id) s
/-- CPREF brings the lines of a tile's run into the L2 (R201, R449): absent tiles, those past the tensor and those of a vault are skipped. -/
def State.prefTile (s : State) (n : Nat) (e : Word) (d : TDesc) (tid : BitVec 10) (t : Nat) : State :=
  if d.tiles ≤ t then s else
  match s.entry n e d tid t with
  | none => s
  | some (x, s) =>
    if entAbsent x then s else
    let pid := (s.ctx (s.core n).cid).pid
    let a := frameAddr (entFrame x)
    s.l2See pid true ((List.range (64 * d.run)).filterMap fun i => (s.stage2 pid (a + 64 * i)).map fun k => (a + 64 * i, k))
/-- CPREF brings a raw line into the L2; one outside an R window is skipped. -/
def State.prefLine (s : State) (n i : Nat) : State :=
  match s.rawKeys (s.core n).cid (BitVec.ofNat 64 (64 * i)) 64 .r with
  | none => s
  | some ks => s.l2Raw n (BitVec.ofNat 64 (64 * i)) ks
/-- What CPREF brings (R449). -/
def State.cpyPrefetch (s : State) (n : Nat) (e : Word) (j : CpyJob) : State :=
  if j.mode == 2 then
    match s.tdesc n e j.tida with
    | none => s
    | some d => (List.range j.nt).foldl (fun s i => s.prefTile n e d j.tida (j.ta + i)) s
  else (List.range ((j.raw + j.len3 + 63) / 64 - j.raw / 64)).foldl (fun s i => s.prefLine n (j.raw / 64 + i)) s
/-- R449: CPREF brings data into the L2 and changes no state that a program can read; its slot advances. -/
def execCpref (h : Hdr) (o : CP) (s : State) : Result :=
  let w := packCP h 0x76 0 o
  cpyWord h w
    (fun _ j => orTest (s.cpyCommon w j [2, 3] false false) (if j.mode == 2 && j.tidb != 0 then some (.fault fIllegal w) else none))
    (fun e j _ s' => .done ((s'.cpyPrefetch s.cur e j).slotAdvance s.cur e j)) s
/-- R449: CSYNC waits, among the issued words, for every earlier copy word of its core. -/
def execCsync (h : Hdr) (o : CP) (s : State) : Result :=
  let w := packCP h 0x77 0 o
  engWord .cpy h w 0 (fun _ => if s.me.cpyBusy then some .stall else none) [] 0 0
    (fun e _ _ id s' => .quiet (s'.modCore s.cur fun c =>
      { c with cpyQ := c.cpyQ ++ [{ slot := s.me.cpy.ring.head, id := id, e := e, sig := h.sig, job := { w := w }, done := true }] })) s

/-! ### Progress of issued words (R439, R440) -/

def State.setCpy (s : State) (n : Nat) (o : CpyOp) : State :=
  s.modCore n fun c => { c with cpyQ := c.cpyQ.map fun p => if p.id == o.id then o else p }
/-- Retirement of an issued copy word with its signal. -/
def State.cpyRetire (s : State) (n : Nat) (o : CpyOp) : State :=
  let s := s.modCore n fun c => { c with cpyQ := c.cpyQ.filter (fun p => p.id != o.id), pendBits := c.pendBits.filter fun x => x.2 != pendMark o.id }
  (s.retireIss n .cpy o.id).signal n .cpy o.sig.toNat 1 o.e (s.core n).cpy.before o.slot
/-- The end of an issue-time part: its slots advance, and it retires unless it fills a circular buffer. -/
def State.cpyFinish (s : State) (n : Nat) (o : CpyOp) : State :=
  let s := s.slotAdvance n o.e o.job
  if o.job.opc == 0x71 then s.setCpy n { o with done := true } else s.cpyRetire n o

/-- TCOW on its next tile (R214, R448). -/
def State.tcowOne (s : State) (n : Nat) (o : CpyOp) (d : TDesc) (tile : Nat) (next : State → Adv) : Adv :=
  match s.entry n o.e d o.job.tida tile with
  | none => .fault fTtNode (BitVec.ofNat 64 (d.entAddr tile)) s
  | some (x, s) =>
    if entAbsent x || !entCow x then next s
    else if entMig x then .no
    else
      match s.cow n (claimKey o.id) o.e d o.job.tida tile x with
      | .noframe p s => .fault fCowNoframe (BitVec.ofNat 64 p) s
      | .stall s' => if s' = s then .no else .go s'
      | _ => .no
/-- TMIG on its next tile (R216, Table 9.7): a frame, and for a shared run an index, is popped before MIG is set. -/
def State.tmigOne (s : State) (n : Nat) (o : CpyOp) (d : TDesc) (tile : Nat) (next : State → Adv) : Adv :=
  let tid := o.job.tida
  let cid := (s.core n).cid
  let tier : BitVec 2 := if o.job.fn == 0 then 2 else o.job.o.q.setWidth 2
  match s.entry n o.e d tid tile with
  | none => .fault fTtNode (BitVec.ofNat 64 (d.entAddr tile)) s
  | some (x, s) =>
    if s.tileBusy n cid tid tile || s.writing cid tid tile then .no
    else if entMig x then .go (s.shootdown cid tid (some tile))
    else if entAbsent x || entTier x == tier then next s
    else if s.entAt cid (d.entAddr tile) != x then .go (s.shootdown cid tid (some tile))
    else if !s.runPlaced cid (entFrame x) d.run then .fault fTtNode (BitVec.ofNat 64 (d.entAddr tile)) s
    else
      let pool := d.pool tier
      match s.popPair n (claimKey o.id) cid pool.toNat (entSh x) with
      | .inr (p, s) => .fault fCowNoframe (BitVec.ofNat 64 p) s
      | .inl (f, i, s) =>
        let s := s.putEnt cid tid tile (d.entAddr tile) (entSetMig x true)
        let op : TileOp := { kind := 2, core := n, cid := cid, inc := (s.ctx cid).inc, tid := tid, tile := tile, ent := entSetMig x true, pool := d.pool (entTier x),
                             toPool := pool, entAddr := BitVec.ofNat 64 (d.entAddr tile), frame := BitVec.ofNat 36 f, idx := BitVec.ofNat 24 i, tier := tier,
                             run := d.run, e := o.e }
        .go { s with tileOps := s.tileOps ++ [op] }
/-- Whether every earlier copy word of the core has met its SIG condition (R449). -/
def State.copiesDone (s : State) (n id : Nat) : Bool :=
  (s.core n).cpyQ.all (fun o => id ≤ o.id) &&
    !((s.core n).hold ++ s.flying ++ s.oreqs.map (·.held)).any fun h => h.core == n && h.eng == .cpy && h.id < id
/-- Carries an issued copy word further. -/
def State.cpyAdv (s : State) (n : Nat) (o : CpyOp) : Adv :=
  let j := o.job
  let step (runs : List TRun) (s : State) : Adv := .go (s.setCpy n { o with k := o.k + 1, nres := none, runs := runs })
  if j.opc == 0x77 then (if s.copiesDone n o.id then .go (s.cpyRetire n o) else .no)
  else if o.done then .no
  else if j.opc == 0x72 || j.opc == 0x73 then
    if j.nt ≤ o.k then .go (s.cpyFinish n o) else
    match s.tdesc n o.e j.tida with
    | none => .fault fTensorBounds (j.tida.setWidth 64) s
    | some d => if j.opc == 0x72 then s.tcowOne n o d (j.ta + o.k) (step []) else s.tmigOne n o d (j.ta + o.k) (step [])
  else
    let d := s.lenDesc n o.e j
    if j.total d ≤ o.k then .go (s.cpyFinish n o)
    else s.moveOne n (claimKey o.id) o.e j true o.runs (j.move n o.buf d o.k) fun runs s => if (s.core n).peel.length ≤ 1024 then step runs s else .no
/-- The outcome of an attempt (R218, R440): an absent tile pauses the word and is reported once. -/
def State.cpyTry (s : State) (n : Nat) (o : CpyOp) : Option State :=
  if !o.done && (!s.clear o.after || s.cpyAfter n o) then none else
  match s.cpyAdv n o with
  | .no => none
  | .go s => some s
  | .fault code val s =>
    if code == fNres then
      if o.nres == some val then none else
      let c := s.core n
      let r : FRec := { code := code, cls := 2, eng := 4, park := false, cid := c.cid, inc := c.inc, gts := s.gts, src := s.src n, crd := o.e,
                        pc := c.faultPc .cpy o.slot, val := val }
      some ((s.record 0 r n false).setCpy n { o with nres := some val })
    else some (s.raise n .cpy code val o.e true o.slot)
/-- The first issued copy word that can go further. -/
def State.cpyPick (s : State) (n : Nat) : List CpyOp → Option State
  | [] => none
  | o :: os => match s.cpyTry n o with | some a => some a | none => s.cpyPick n os
/-- DATA_LANDED for CPY: the next part of an issued copy word. -/
def State.landCpy (s : State) (n : Nat) : State :=
  let s := s.selfClear n .cpy
  if s.engRuns n .cpy then (s.cpyPick n (s.core n).cpyQ).getD s else s
/-- R176: DATA_LANDED: for ACC (1) or CPY (4). -/
def execDataLanded (core eng : Nat) (s : State) : Result := .next (if eng == 4 then s.landCpy core else if eng == 1 then s.landAcc core else s)

/-- A completed fill of slot WIDX raises FILLED and TAG (R189). -/
def Cb.fillDone (b : Cb) (e : Word) : Cb :=
  { b with filled := b.filled + 1, filling := b.filling - 1, widx := (b.widx + 1) % cbSlots b.w0, tag := maxW b.tag e }
/-- R189: CCB_FILL_COMPLETE: the fill of the slot at WIDX, once its bytes have all been written, and its word retires. -/
def execCcbFillComplete (core idx : Nat) (s : State) : Result :=
  let c := s.core core
  match c.cbs.get none idx, c.cpyQ.find? fun o => o.job.opc == 0x71 && o.done && o.job.tidb.toNat == idx with
  | some b, some o =>
    if o.job.cbSlot != b.widx || !s.engRuns core .cpy then .next s else
    .next ((s.setCb core .cpy idx o.e (b.fillDone o.e)).cpyRetire core o)
  | _, _ => .next s

end Sys2Proof.Machine
end

