-- ==== Sys2Proof/Machine/Net.lean ====
section
/-! DEFINITION. The network engine (R450 to R455) and its side of Ultra Ethernet (R80, R94, R95): descriptors and their checks, the words,
what a released entry does, arriving packets, acknowledgements, timeouts and NACKs; and the failures of held entries (R319, R440). -/

namespace Sys2Proof.Machine

/-! ### Failures of held entries (R319, R440, R455) -/

/-- The record of a failure of an entry that has left its word: partition class, PARK 0. -/
def State.heldFail (s : State) (h : Held) (code : BitVec 8) (val : Word) (detail : BitVec 512) : State :=
  let c := s.core h.core
  let sup := isSup h.core
  let pid : BitVec 7 := if sup then 0 else (s.ctx h.cid).pid
  s.recordOn pid { code := code, cls := if sup then 2 else 1, eng := BitVec.ofNat 3 h.eng.num, cid := h.cid, inc := h.inc, gts := s.gts, src := s.src h.core,
                   crd := h.e, pc := if h.eng == .cc then h.pc else c.faultPc h.eng h.slot, val := val, detail := detail } h.core h.eng
/-- Whether a core runs a task of an entry's context. -/
def Held.onCore (h : Held) (c : Core) : Bool := match c.task with | some t => t.cid == h.cid && t.inc == h.inc | none => false
/-- A device-class fault of an entry with restart "stopped": STOP at the horizon, and the engine stays parked until the supervisor resumes or kills the
context, or until the entry completes (R149). -/
def State.heldStop (s : State) (h : Held) (code : BitVec 8) (val : Word) : State :=
  if isSup h.core then s.heldFail h code val 0 else
  let c := s.core h.core
  let r : FRec := { code := code, cls := 2, eng := BitVec.ofNat 3 h.eng.num, park := h.onCore c && (c.eng h.eng).park.isNone, cid := h.cid, inc := h.inc, gts := s.gts, src := s.src h.core, crd := h.e,
                    pc := if h.eng == .cc then h.pc else c.faultPc h.eng h.slot, val := val }
  let s := if r.park then s.park h.core h.eng 0 r false true false h.slot false h.id else s.record 0 r h.core false
  s.requestStop h.cid (s.ctx h.cid).horiz { srck := 2, core := BitVec.ofNat 8 h.core } true
/-- An engine that was parked for an entry goes on once the entry is done with. -/
def State.unparkOp (s : State) (h : Held) : State :=
  match ((s.core h.core).eng h.eng).park with
  | some p => if p.op == h.id && h.id != 0 && h.onCore (s.core h.core) then s.modCore h.core fun c => c.modEng h.eng fun x => { x with park := none } else s
  | none => s

/-! ### Where a task's state is (R159, R452) -/

/-- Changes the core of an entry: the one that runs its task, else, while its CID.INC is live, the state of it in the saved image. -/
def State.modHome (s : State) (h : Held) (f : Core → Core) : State :=
  if isSup h.core || h.onCore (s.core h.core) then s.modCore h.core f
  else if !s.live h.cid h.inc || (s.ctx h.cid).st != .saved then s
  else
    match s.imageAt h.cid with
    | none => s
    | some m =>
      let g (t : Team) : Team := { t with saved := t.saved.map fun (i, n, c) => (i, n, if n == h.core then f c else c) }
      s.putImage h.cid { m with launches := m.launches.map fun l => { l with teams := l.teams.map g } }
/-- The signal that an entry applies at its completion; to a saved task, in its image. -/
def State.heldSig (s : State) (h : Held) : State :=
  if h.sig == 0 then s
  else if isSup h.core || h.onCore (s.core h.core) then s.signal h.core h.eng h.sig.toNat 1 h.e [] h.slot
  else s.modHome h fun c =>
    { c with tok := c.tok.modify {} h.sig.toNat fun x => { x with count := if x.count == 0xFFFF then x.count else x.count + 1, tag := maxW x.tag h.e } }
/-- R159: the numeric flags of a completion, which come to the context's image word when its task has ended or been saved. No transfer of Table 20.7 raises
one, so they are zero. -/
def State.lateFlags (s : State) (h : Held) (f : BitVec 8) : State :=
  if isSup h.core then s
  else if h.onCore (s.core h.core) then s.setFlags h.core f
  else if s.live h.cid h.inc then s.orFlags h.cid f else s

/-! ### Descriptors (Table 20.6) -/

/-- Eight words of scratchpad. -/
def Core.words (c : Core) (a n : Nat) : List Word := (List.range n).map fun i => bitsOf 64 (c.spadBytes (a + 8 * i) 8)
def wd (ws : List Word) (i : Nat) : Word := ws.getD i 0
def nLoc (ws : List Word) : Nat := fld (wd ws 0) 0 48
def nRaw (ws : List Word) : Bool := (wd ws 0).getLsbD 63
def nLen (ws : List Word) : Nat := fld (wd ws 1) 0 32
def nTagged (ws : List Word) : Bool := (wd ws 1).getLsbD 33
def nPeer (ws : List Word) : BitVec 128 := wd ws 2 ++ wd ws 3
def nTag (ws : List Word) : Word := wd ws 5
/-- The eight words as DETAIL holds them (R455). -/
def nDetail (ws : List Word) : BitVec 512 := BitVec.ofNat 512 ((ws.take 8).foldr (fun w m => w.toNat + 2 ^ 64 * m) 0)
/-- No reserved bit is set, LEN is not 0, and the fields that form `kind` leaves unused are 0 (R450, Table 20.7). -/
def nOk (kind : Nat) (ws : List Word) : Bool :=
  fld (wd ws 0) 48 15 == 0 && (nRaw ws || fld (wd ws 0) 19 29 == 0) && fld (wd ws 1) 34 30 == 0 && fld (wd ws 4) 56 8 == 0 && wd ws 7 == 0 && nLen ws != 0 &&
  (match kind with
   | 0 => wd ws 6 == 0
   | 1 => wd ws 2 == 0 && wd ws 3 == 0 && wd ws 4 == 0 && wd ws 6 == 0 && !(wd ws 1).getLsbD 32
   | _ => wd ws 5 == 0 && !nTagged ws)
/-- The tests of a transfer word at issue (R450). -/
def State.netChk (s : State) (w : Word) (kind a : Nat) : Option Body :=
  let ws := s.me.words a 8
  match s.spadChk (BitVec.ofNat 64 a) 64 64 true with
  | some b => some b
  | none =>
    if !nOk kind ws then some (.fault fIllegal w)
    else if !nRaw ws then orTest (spadRange (nLoc ws) (nLen ws)) (if kind == 0 || kind == 2 then s.cpyPend (nLoc ws) (nLen ws) else none)
    else
      match s.coreKeys s.cur (BitVec.ofNat 64 (nLoc ws)) (nLen ws) (if kind == 0 || kind == 2 then .r else .w) with
      | .inr f => some (.fault f (BitVec.ofNat 64 (nLoc ws)))
      | .inl _ => none

/-! ### Words (R450 to R454) -/

/-- The scratchpad address that SEL names. -/
def netAddr (o : SY) : Nat := 64 * o.sel.toNat
/-- The completion counter that D of a held word names. -/
def Held.ctr (h : Held) : Nat := (unpackSY h.w).d.toNat
/-- A transfer word: it retires when held and applies its SIG when complete (R451). -/
def netTransfer (kind : Nat) (h : Hdr) (w : Word) (o : SY) (s : State) : Result :=
  engWord .net h w 0 (fun _ => s.netChk w kind (netAddr o)) [] 0 0
    (fun e _ _ id s' => .quiet ((s'.engHold .net e w h.sig s.me.net.ring.head (.net (BitVec.ofNat 3 kind) (s.me.words (netAddr o) 8))).retireIss s.cur .net id)) s
/-- R451: NSEND. -/
def execNsend (h : Hdr) (o : SY) (s : State) : Result := netTransfer 0 h (packSY h 0x78 0 o) o s
/-- R451: NRECV. -/
def execNrecv (h : Hdr) (o : SY) (s : State) : Result := netTransfer 1 h (packSY h 0x79 0 o) o s
/-- R451: NPUT. -/
def execNput (h : Hdr) (o : SY) (s : State) : Result := netTransfer 2 h (packSY h 0x7A 0 o) o s
/-- R451: NGET. -/
def execNget (h : Hdr) (o : SY) (s : State) : Result := netTransfer 3 h (packSY h 0x7B 0 o) o s
/-- R453: NCSET reads its record at issue and is held. -/
def execNcset (h : Hdr) (o : SY) (s : State) : Result :=
  let w := packSY h 0x7C 0 o
  let ws := s.me.words (netAddr o) 2
  engWord .net h w 0
    (fun _ => orTest (s.spadChk (BitVec.ofNat 64 (netAddr o)) 16 64 true) (if fld (wd ws 1) 56 8 != 0 then some (.fault fIllegal w) else none)) [] 0 0
    (fun e _ _ _ s' => .done (s'.engHold .net e w 0 s.me.net.ring.head (.net 4 ws))) s
/-- R453: NCRD writes a counter's value, threshold and token to scratchpad; the counter's TAG enters its coordinate. -/
def execNcrd (h : Hdr) (o : SY) (s : State) : Result :=
  let w := packSY h 0x7C 1 o
  let x := s.me.nctr.get {} o.d.toNat
  engWord .net h w 0 (fun _ => none) [] 0 x.tag
    (fun e _ _ _ s' => .done (s'.spadWrite s.cur .net e (netAddr o)
      (leBytes (x.value.toNat + 2 ^ 64 * x.thresh.toNat + 2 ^ 112 * x.tok.toNat) 16))) s
/-- A word that waits to retire behind earlier work of its engine. -/
def State.waitOp (s : State) (eng : Eng) (flush : Bool) (h : Hdr) (e : Word) (id : Nat) (slot : BitVec 16) : State :=
  s.modCore s.cur fun c => { c with waitQ := c.waitQ ++ [{ eng := eng, flush := flush, slot := slot, id := id, e := e, sig := h.sig }] }
/-- R454: NCTL.flush. -/
def execNctlFlush (h : Hdr) (o : SY) (s : State) : Result :=
  engWord .net h (packSY h 0x7D 0 o) 0 (fun _ => none) [] 0 0 (fun e _ _ id s' => .quiet (s'.waitOp .net true h e id s.me.net.ring.head)) s
/-- R454: NCTL.cancel is held. -/
def execNctlCancel (h : Hdr) (o : SY) (s : State) : Result :=
  let w := packSY h 0x7D 0 o
  engWord .net h w 0 (fun _ => none) [] 0 0 (fun e _ _ _ s' => .done (s'.engHold .net e w 0 s.me.net.ring.head (.net 5 []))) s

/-- Whether a held effect is one that NCTL.flush waits for. -/
def Act.flushes : Act → Bool
  | .net op _ => op != 1 && op != 5
  | _ => false
/-- Whether a waiting word may retire: every earlier word of its ring has retired (R175), and for a flush every earlier transfer of the
core is complete or abandoned (R454). -/
def State.waitDone (s : State) (n : Nat) (o : WaitOp) : Bool :=
  if o.flush then
    let early (h : Held) : Bool := h.core == n && h.id < o.id && h.act.flushes
    !((s.core n).hold.any early || s.flying.any early || s.ueOps.any fun u => early u.held)
  else ((s.core n).eng o.eng).iss.all fun i => o.id ≤ i.id || i.retired
/-- Retires the first waiting word of an engine that may retire. -/
def State.waitRetire (s : State) (n : Nat) (eng : Eng) : Option State :=
  ((s.core n).waitQ.find? fun o => o.eng == eng && s.waitDone n o).map fun o =>
    ((s.modCore n fun c => { c with waitQ := c.waitQ.filter fun p => p.id != o.id }).retireIss n eng o.id).signal n eng o.sig.toNat 1 o.e
      ((s.core n).eng eng).before o.slot

/-! ### Completion counters (R452) -/

/-- The threshold test: at VALUE ≥ THRESH the token is signalled and cleared. -/
def State.ctrTest (s : State) (n k : Nat) : State :=
  let x := (s.core n).nctr.get {} k
  if x.tok == 0 || x.value.ult (x.thresh.setWidth 64) then s
  else ((s.modCore n fun c => { c with nctr := c.nctr.set {} k { x with tok := 0 } })).signal n .net x.tok.toNat 1 x.tag [] 0
/-- A counter rises by bytes of an operation; a saved task's test waits for CTXLOAD. -/
def State.ctrRise (s : State) (h : Held) (bytes : Nat) : State :=
  let s := s.modHome h fun c => { c with nctr := c.nctr.modify {} h.ctr fun x => { x with value := x.value + BitVec.ofNat 64 bytes, tag := maxW x.tag h.e } }
  if h.onCore (s.core h.core) then s.ctrTest h.core h.ctr else s

/-! ### Released entries (Table 20.7) -/

/-- Packets of a message: at most 4,096 bytes each. -/
def packets (len : Nat) : Nat := (len + 4095) / 4096
/-- Sends packet `k` of an operation: over ROD by the port of its packet delivery context, over RUD by the port with the most room (R94). -/
def State.sendUe (s : State) (u : UeOp) (k : Nat) : State :=
  s.sendTx { to_ := nPeer u.words, fixed := if (wd u.words 1).getLsbD 32 then some (Config.rodPort (wd u.words 4) (nPeer u.words) % 4) else none,
             msg := .pkt u.held.id u.kind (4096 * k) (Nat.min 4096 (nLen u.words - 4096 * k)) u.words ((u.data.drop (4096 * k)).take 4096) }
def State.sendUes (s : State) (u : UeOp) : List Nat → State
  | [] => s
  | k :: ks => (s.sendUe u k).sendUes u ks
/-- The bytes of a local buffer. -/
def State.netBytes (s : State) (h : Held) (ws : List Word) : Option (List Byte) :=
  if !nRaw ws then some ((s.core h.core).spadBytes (nLoc ws) (nLen ws)) else
  match s.coreKeys h.core (BitVec.ofNat 64 (nLoc ws)) (nLen ws) .r with
  | .inl ks => some (ks.map s.byte)
  | .inr _ => none
/-- What a released network entry does. -/
def State.netStart (s : State) (h : Held) (op : Nat) (ws : List Word) : State :=
  if op == 4 then
    let x : NCtr := { value := wd ws 0, thresh := (wd ws 1).setWidth 48, tok := (wd ws 1).extractLsb' 48 8, tag := h.e }
    (s.modCore h.core fun c => { c with nctr := c.nctr.set {} h.ctr x }).ctrTest h.core h.ctr
  else if op == 5 then
    { s with recvs := s.recvs.filter fun r => !(r.held.core == h.core && r.held.cid == h.cid && r.held.inc == h.inc && !r.done && r.got.isEmpty) }
  else if op == 1 then { s with recvs := s.recvs ++ [{ held := h, words := ws }] }
  else if !s.isEndpoint (nPeer ws) then s.heldFail h fPriv h.w (nDetail ws)
  else
    let u : UeOp := { held := h, kind := op, words := ws }
    if op == 3 then (({ s with ueOps := s.ueOps ++ [u] } : State)).sendUes u (List.range (packets (nLen ws)))
    else
      match s.netBytes h ws with
      | none => s.heldFail h fRawWindow (BitVec.ofNat 64 (nLoc ws)) (nDetail ws)
      | some bs =>
        let u := { u with data := bs }
        (({ s with ueOps := s.ueOps ++ [u] } : State)).sendUes u (List.range (packets (nLen ws)))

/-! ### Completions (R95, R452) -/

/-- Length of packet `k` of an operation. -/
def UeOp.packetLen (u : UeOp) (k : Nat) : Nat := Nat.min 4096 (nLen u.words - 4096 * k)
/-- An operation whose packets are all counted is complete: its signal is applied. -/
def State.ueFinish (s : State) (u : UeOp) : State :=
  if packets (nLen u.words) ≤ u.acked.length then
    ((({ s with ueOps := s.ueOps.filter fun v => v.held.id != u.held.id } : State)).heldSig u.held).lateFlags u.held 0
  else { s with ueOps := s.ueOps.map fun v => if v.held.id == u.held.id then u else v }
/-- The bytes of a receive's message that its buffer takes. -/
def Recv.want (r : Recv) : Nat := match r.msg with | some (_, _, len) => Nat.min len (nLen r.words) | none => 0
/-- Bytes placed in all. -/
def Recv.size (r : Recv) : Nat := (r.got.map (·.2)).sum
/-- A receive whose message is placed and counted is complete. -/
def State.recvFinish (s : State) (r : Recv) : State :=
  let fin := r.msg.isSome && r.want ≤ r.size && !r.done
  let s : State := { s with recvs := s.recvs.map fun q => if q.held.id == r.held.id then { r with done := r.done || fin } else q }
  if fin then (s.heldSig r.held).lateFlags r.held 0 else s
/-- R452: NET_COMPLETION: packet `pkt` of a send or put has been acknowledged, or that of a get has been placed, and is counted; or the
bytes that a receive has placed are counted. -/
def execNetCompletion (op pkt : Nat) (s : State) : Result :=
  match s.ueOps.find? fun u => u.held.id == op with
  | some u =>
    if u.acked.contains pkt || packets (nLen u.words) ≤ pkt || (u.kind == 3 && !u.placed.contains pkt) then .next s
    else .next (((s.nscc u pkt).ctrRise u.held (u.packetLen pkt)).ueFinish { u with acked := u.acked ++ [pkt], via := u.via.set 0 pkt 0 })
  | none =>
    match s.recvs.find? fun r => r.held.id == op with
    | some r => if r.done || r.msg.isNone then .next s else .next ((s.ctrRise r.held r.due).recvFinish { r with due := 0 })
    | none => .next s

/-- An operation is abandoned with a fault (R455); bytes already placed stand. -/
def State.ueAbandon (s : State) (u : UeOp) (code : BitVec 8) : State :=
  (({ s with ueOps := s.ueOps.filter fun v => v.held.id != u.held.id } : State)).heldFail u.held code u.held.w (nDetail u.words)
/-- R95, R455: UE_RETRANSMIT_TIMEOUT: an unacknowledged packet is resent alone; after eight timeouts without a response, LINK_DOWN. -/
def execUeRetransmitTimeout (op pkt : Nat) (s : State) : Result :=
  match s.ueOps.find? fun u => u.held.id == op with
  | none => .next s
  | some u =>
    if u.acked.contains pkt || u.placed.contains pkt || packets (nLen u.words) ≤ pkt then .next s else
    let k := u.timeouts.get 0 pkt + 1
    if 8 ≤ k then .next (s.ueAbandon u fLinkDown) else
    let s := s.nscc u pkt
    let u := { u with timeouts := u.timeouts.set 0 pkt k, via := u.via.set 0 pkt 0 }
    .next ((({ s with ueOps := s.ueOps.map fun v => if v.held.id == op then u else v } : State)).sendUe u pkt)
/-- R95, R455: UE_NACK: the packet is resent alone, and its count of timeouts restarts. -/
def execUeNack (op pkt : Nat) (s : State) : Result :=
  match s.ueOps.find? fun u => u.held.id == op with
  | none => .next s
  | some u =>
    if u.acked.contains pkt || packets (nLen u.words) ≤ pkt then .next s else
    let s := s.nscc u pkt
    let u := { u with timeouts := u.timeouts.set 0 pkt 0, via := u.via.set 0 pkt 0 }
    .next ((({ s with ueOps := s.ueOps.map fun v => if v.held.id == op then u else v } : State)).sendUe u pkt)

/-! ### Arriving packets (R80, R95, R451) -/

/-- The partition that a job names (R80). -/
def State.jobPart (s : State) (job : BitVec 24) : Option (BitVec 7) :=
  (s.parts.find? fun (_, p) => p.used && p.job == job).map fun (k, _) => BitVec.ofNat 7 k
/-- The live context of a partition that a process names. -/
def State.procCtx (s : State) (pid : BitVec 7) (proc : BitVec 32) : Option (BitVec 12) :=
  (s.ctxs.find? fun (_, c) => c.pid == pid && c.proc == proc && (c.st == .live || c.st == .stopped || c.st == .saved)).map fun (k, _) => BitVec.ofNat 12 k
/-- Whether a packet's sender is accepted: its security check passes and it lies in the permitted endpoint set of the port it came by. -/
def State.ueOk (s : State) (a : UeAddr) : Bool := a.secure && s.permits a.port.toNat a.src
/-- The context that a packet names, none when it is dropped. -/
def State.ueCtx (s : State) (a : UeAddr) : Option (BitVec 12) :=
  if s.ueOk a then (s.jobPart a.job).bind fun p => s.procCtx p a.proc else none
/-- A packet dropped at the port it came by, and counted. -/
def State.ueDrop (s : State) (a : UeAddr) : State := s.ueDropAt a.port.toNat
/-- An answer to an arriving packet leaves by the port it came by. -/
def State.answerUe (s : State) (a : UeAddr) (m : UeMsg) : State := s.sendTx { to_ := a.src, fixed := some a.port.toNat, msg := m }

/-- Whether an offset lies in a range already placed. -/
def covered (got : List (Nat × Nat)) (i : Nat) : Bool := got.any fun (o, n) => o ≤ i && i < o + n
/-- The keys of an entry's raw buffer, as the windows of its own context stand now; a supervisor core's as R143 says. -/
def State.heldKeys (s : State) (h : Held) (addr : Word) (n : Nat) (p : Perm) : Option (List Nat) :=
  if isSup h.core then (match s.coreKeys h.core addr n p with | .inl ks => some ks | .inr _ => none) else s.rawKeys h.cid addr n p
/-- Places bytes at an offset of a local buffer, each byte at most once; the windows of the context still decide a raw buffer. -/
def State.netPlace (s : State) (h : Held) (ws : List Word) (off : Nat) (bs : List Byte) (skip : Nat → Bool) : State :=
  let cells := ((List.range bs.length).zip bs).filter fun (i, _) => !skip (off + i) && off + i < nLen ws
  if nRaw ws then
    match s.heldKeys h (BitVec.ofNat 64 (nLoc ws)) (nLen ws) .w with
    | some ks => s.writeBytes (cells.map fun (i, b) => (ks.getD (off + i) 0, b))
    | none => s
  else s.modHome h fun c => { c with spad := cells.foldl (fun m (i, b) => m.set 0 (nLoc ws + off + i) b) c.spad }
/-- The receive that an arriving packet belongs to: the one already matched to its message, or else the context's oldest posted
receive that can take it. -/
def State.matchRecv (s : State) (cid : BitVec 12) (p : UePkt) : Option Recv :=
  let from_ (a : UeAddr) : Bool := { a with port := p.ue.port } == p.ue
  match s.recvs.find? fun r => match r.msg with | some (a, m, _) => from_ a && m == p.msg && r.held.cid == cid && r.held.inc == (s.ctx cid).inc | none => false with
  | some r => some r
  | none => s.recvs.find? fun r => r.msg.isNone && !r.done && r.held.cid == cid && r.held.inc == (s.ctx cid).inc && nTagged r.words == p.tagged && (!p.tagged || nTag r.words == p.tag)
/-- A reply to an operation of this device: an error completion raises RAW_WINDOW, a trimmed packet is NACKed and asked for alone, data of a get is
placed at its offset. -/
def State.ueReply (s : State) (op : Nat) (p : UePkt) : State :=
  match s.ueOps.find? fun u => u.held.id == op with
  | none => s.ueDrop p.ue
  | some u =>
    if p.error then s.ueAbandon u fRawWindow
    else if p.trimmed then s.answerUe p.ue (.nack p.ue p.msg p.off)
    else if u.kind != 3 || p.off % 4096 != 0 || packets (nLen u.words) ≤ p.off / 4096 || p.bytes.length != u.packetLen (p.off / 4096) then s.ueDrop p.ue
    else if u.placed.contains (p.off / 4096) then s
    else
      (({ s with ueOps := s.ueOps.map fun v => if v.held.id == op then { u with placed := u.placed ++ [p.off / 4096] } else v } : State)).netPlace u.held u.words p.off p.bytes
        (fun _ => false)
/-- A packet of a message for a context: NACKed when trimmed or without a posted receive; else its new bytes are placed, and it is acknowledged. -/
def State.ueMessage (s : State) (cid : BitVec 12) (p : UePkt) : State :=
  let nack := s.answerUe p.ue (.nack p.ue p.msg p.off)
  if p.trimmed then nack else
  match s.matchRecv cid p with
  | none => nack
  | some r =>
    let r := { r with msg := some (p.ue, p.msg, p.total) }
    let fresh := (List.range p.bytes.length).filter fun i => !covered r.got (p.off + i) && p.off + i < nLen r.words
    let r' := { r with got := r.got ++ fresh.map (fun i => (p.off + i, 1)), due := r.due + fresh.length }
    let s := s.netPlace r.held r.words p.off p.bytes (covered r.got)
    ({ s with recvs := s.recvs.map (fun q => if q.held.id == r.held.id then r' else q) } : State).answerUe p.ue (.ack p.ue p.msg p.off)
/-- R79, R80, R95: UE_PACKET_RECEIVE: a packet whose sender is not accepted, of RUDI or UUD delivery, or that names an unknown job or process is dropped
and counted; a connection request for RUDI or UUD is refused; atomic and deferrable-send semantics get a not-supported error completion. -/
def execUePacketReceive (p : UePkt) (s : State) : Result :=
  .next (if !s.ueOk p.ue then s.ueDrop p.ue
    else if p.connect then (if p.rudiOrUud then s.answerUe p.ue (.refuse p.ue) else s)
    else if p.rudiOrUud then s.ueDrop p.ue
    else match s.ueCtx p.ue with
      | none => s.ueDrop p.ue
      | some cid =>
        if p.unsupported then s.answerUe p.ue (.unsupported p.ue p.msg)
        else match p.reply with
          | some op => s.ueReply op p
          | none => s.ueMessage cid p)

end Sys2Proof.Machine
end

