-- ==== Sys2Proof/Machine/Common.lean ====
section
/-! DEFINITION. The words that every engine decodes: NOP, MARK and ILL (R175, R324). -/

namespace Sys2Proof.Machine

/-- The word of a NOP or MARK: [39:0] are 0. -/
def packCommon (h : Hdr) (opc : BitVec 7) : Word := packSY h opc 0 { d := 0, a := 0, la := false, sel := 0, imm := 0 }
/-- R324: NOP waits on its wait set and applies its signal at retirement. -/
def execNop (h : Hdr) (s : State) : Result :=
  let w := packCommon h 0x00
  match s.curEng with
  | .cc => ccWord h w [] [] (fun _ s' => .done s') s
  | .exe => exeOp h w 0 0 {} (fun _ _ => []) s
  | .mtx => mtxWord h w none (fun _ => .inl {}) s
  | eng => engWord eng h w 0 (fun _ => none) [] 0 0 (fun _ _ _ _ s' => .done s') s
/-- R175, R324: MARK retires once every earlier word in its ring has retired; on the control core it acts as NOP. -/
def execMark (h : Hdr) (s : State) : Result :=
  let w := packCommon h 0x7E
  match s.curEng with
  | .cc => ccWord h w [] [] (fun _ s' => .done s') s
  | .exe => exeOp h w 0 0 {} (fun _ _ => []) s
  | .mtx => mtxWord h w none (fun _ => .inl {}) s
  | eng => engWord eng h w 0 (fun _ => none) [] 0 0 (fun e _ _ id s' => .quiet (s'.waitOp eng false h e id (s.me.eng eng).ring.head)) s
/-- R324: ILL raises ILLEGAL, whatever its other bits. -/
def execIll (bits : BitVec 64) (s : State) : Result :=
  let x := s.me.eng s.curEng
  .next (s.raise s.cur s.curEng fIllegal bits (if s.curEng == .cc then ccE s 0 else maxW x.elast x.crd) true x.ring.head)

end Sys2Proof.Machine
end

