-- ==== Sys2Proof/Machine/ControlMem.lean ====
section
/-! DEFINITION. Raw loads and stores, atomics, remote loads and fences of the control core (R327 to R331, R224 to R230). -/

namespace Sys2Proof.Machine

/-- Drops the remote lines of a context from the L2, and those that are on their way there: an acquire at SYS (R228, R242). The tags name no context, so
the lines are those of its first-level partition (R200). -/
def State.dropRemote (s : State) (cid : BitVec 12) : State :=
  let tag := pidTag (s.ctx cid).pid
  { s with l2 := s.l2.filter (fun l => !(l.dev.isSome && l.pid == tag)),
           oreqs := s.oreqs.map fun o => if pidTag (s.ctx o.held.cid).pid == tag then { o with keep := false } else o }
/-- The effect of an acquire of the core that moves, at a scope (R228). -/
def State.acquire (s : State) (scope : BitVec 3) : State := if scope == 4 then s.dropRemote s.me.cid else s

/-- Whether all that earlier acquires and FARs of the core wait for has been performed (R228, R230). -/
def State.farClear (s : State) : Bool := s.clear s.me.barAll

/-- The address of LD and ST (R327). -/
def rawAddr (s : State) (o : RI) : Word := s.rdS o.a + sext (o.imm.extractLsb' 0 21)
def scopeField (o : RI) : BitVec 3 := o.imm.extractLsb' 21 3

/-- A raw load of `n` bytes (R327). -/
def ccLoad (n : Nat) (h : Hdr) (w : Word) (fx : BitVec 1) (o : RI) (s : State) : Result :=
  ccWord h w [(o.a, o.la)] [] (fun e s' =>
    let addr := rawAddr s o
    if addr.toNat % n != 0 then .fault fRawWindow addr else
    match s.coreKeys s.cur addr n .r with
    | .inr f => .fault f addr
    | .inl ks =>
      if !s.farClear then .stall
      else if s.anyPoison ks then .fault fEccUe addr
      else
        let v : Word := bitsOf 64 (s.loadBytes s.cur addr ks 0)
        let s' := s'.l2Raw s.cur addr ks
        .done ((if fx == 1 then s'.acquire (scopeField o) else s').wrS o.d e v)) s

/-- A raw store of `n` bytes (R327): it enters the egress hold. -/
def ccStore (n : Nat) (h : Hdr) (w : Word) (fx : BitVec 1) (o : RI) (s : State) : Result :=
  ccWord h w [(o.a, o.la), (o.d, false)] [] (fun e s' =>
    let addr := rawAddr s o
    if addr.toNat % n != 0 then .fault fRawWindow addr else
    match s.coreKeys s.cur addr n .w with
    | .inr f => .fault f addr
    | .inl ks => .done (s'.ccHold e w 0 (.store addr n (s.rdS o.d) ks) (if fx == 1 then some (scopeField o) else none) none)) s

/-- R327: loads 1 byte. -/
def execLdb (h : Hdr) (fx : BitVec 1) (o : RI) (s : State) : Result := ccLoad 1 h (packRI h 0x07 (fx ++ 0#2) o) fx o s
/-- R327: loads 2 bytes. -/
def execLdh (h : Hdr) (fx : BitVec 1) (o : RI) (s : State) : Result := ccLoad 2 h (packRI h 0x07 (fx ++ 1#2) o) fx o s
/-- R327: loads 4 bytes. -/
def execLdw (h : Hdr) (fx : BitVec 1) (o : RI) (s : State) : Result := ccLoad 4 h (packRI h 0x07 (fx ++ 2#2) o) fx o s
/-- R327: loads 8 bytes. -/
def execLdd (h : Hdr) (fx : BitVec 1) (o : RI) (s : State) : Result := ccLoad 8 h (packRI h 0x07 (fx ++ 3#2) o) fx o s
/-- R327: holds a store of 1 byte. -/
def execStb (h : Hdr) (fx : BitVec 1) (o : RI) (s : State) : Result := ccStore 1 h (packRI h 0x08 (fx ++ 0#2) o) fx o s
/-- R327: holds a store of 2 bytes. -/
def execSth (h : Hdr) (fx : BitVec 1) (o : RI) (s : State) : Result := ccStore 2 h (packRI h 0x08 (fx ++ 1#2) o) fx o s
/-- R327: holds a store of 4 bytes. -/
def execStw (h : Hdr) (fx : BitVec 1) (o : RI) (s : State) : Result := ccStore 4 h (packRI h 0x08 (fx ++ 2#2) o) fx o s
/-- R327: holds a store of 8 bytes. -/
def execStd (h : Hdr) (fx : BitVec 1) (o : RI) (s : State) : Result := ccStore 8 h (packRI h 0x08 (fx ++ 3#2) o) fx o s

/-! ### Atomics and LDRA -/

/-- SCOPE and ORD of K (R305): the acquire and release scopes that they name. -/
def kAcq (o : RR) : Option (BitVec 3) := if o.q.getLsbD 3 then some (o.q.extractLsb' 0 3) else none
def kRel (o : RR) : Option (BitVec 3) := if o.lat.getLsbD 0 then some (o.q.extractLsb' 0 3) else none
def kNc (o : RR) : Bool := o.lat.getLsbD 1
def kNq (o : RR) : Bool := o.lat.getLsbD 2

/-- Whether C sends an atomic to another device (R329). -/
def remoteDev (s : State) (c : Word) : Option (BitVec 8) :=
  if c.getLsbD 8 && c.extractLsb' 0 8 != s.conf.devnum then some (c.extractLsb' 0 8) else none

/-- Marks D as awaiting the result of the entry just placed (R321). -/
def State.await (s : State) (d : BitVec 6) (id : Nat) : State :=
  if d == 0 then s else s.modCore s.cur fun c => { c with sPend := c.sPend.set 0 d.toNat id }

/-- Holds an atomic (R328, R329). ACAS compares with D and writes B; the others combine B. -/
def ccAtomic (op : AtomOp) (h : Hdr) (w : Word) (o : RR) (s : State) : Result :=
  let cas := op == .cas
  let fadd := match op with | .fadd _ => true | _ => false
  ccWord h w ([(o.a, o.la), (o.b, o.lb), (o.c, o.lc)] ++ (if cas then [(o.d, false)] else [])) [] (fun e s' =>
    let addr := s.rdS o.a
    let n := if fadd then 4 else 8
    let x := if cas then s.rdS o.d else s.rdS o.b
    let y := if cas then s.rdS o.b else 0
    if addr.toNat % n != 0 then .fault fRawWindow addr else
    match remoteDev s (s.rdS o.c) with
    | some dev =>
      let a := if op == .swp && o.d == 0 then Act.rstore dev addr x else Act.ratomic dev op addr o.d x y (kNc o)
      .done ((s'.ccHold e w 0 a (kRel o) (kAcq o)).await o.d s'.placedId)
    | none =>
      match s.coreKeys s.cur addr n .atomic with
      | .inr f => .fault f addr
      | .inl ks => .done ((s'.ccHold e w 0 (.atomic op addr o.d x y (kNc o) ks) (kRel o) (kAcq o)).await o.d s'.placedId)) s

/-- R328: atomic add. -/
def execAadd (h : Hdr) (o : RR) (s : State) : Result := ccAtomic .add h (packRR h 0x0A 0 o) o s
/-- R328: atomic AND. -/
def execAand (h : Hdr) (o : RR) (s : State) : Result := ccAtomic .and h (packRR h 0x0A 1 o) o s
/-- R328: atomic OR. -/
def execAor (h : Hdr) (o : RR) (s : State) : Result := ccAtomic .or h (packRR h 0x0A 2 o) o s
/-- R328: atomic exclusive or. -/
def execAxor (h : Hdr) (o : RR) (s : State) : Result := ccAtomic .xor h (packRR h 0x0A 3 o) o s
/-- R328: atomic minimum, signed or with .n unsigned. -/
def execAmin (h : Hdr) (o : RR) (s : State) : Result := ccAtomic (.min (kNq o)) h (packRR h 0x0A 4 o) o s
/-- R328: atomic maximum, signed or with .n unsigned. -/
def execAmax (h : Hdr) (o : RR) (s : State) : Result := ccAtomic (.max (kNq o)) h (packRR h 0x0A 5 o) o s
/-- R328, R329: atomic swap; a remote ASWP into s0 is sent as a remote raw store. -/
def execAswp (h : Hdr) (o : RR) (s : State) : Result := ccAtomic .swp h (packRR h 0x0A 6 o) o s
/-- R328: compare and swap against D. -/
def execAcas (h : Hdr) (o : RR) (s : State) : Result := ccAtomic .cas h (packRR h 0x0A 7 o) o s
/-- R328: atomic FP32 add on an aligned 4-byte location. -/
def execAfadd (h : Hdr) (o : RR) (s : State) : Result := ccAtomic (.fadd (kNq o)) h (packRR h 0x0A 8 o) o s

/-- R330: holds a remote load; its signal is applied when the data arrives. A load from this device's own number is local. -/
def execLdra (h : Hdr) (o : RR) (s : State) : Result :=
  let w := packRR h 0x09 0 o
  ccWord h w [(o.a, o.la), (o.b, o.lb)] [] (fun e s' =>
    let addr := s.rdS o.a
    let dev : BitVec 8 := (s.rdS o.b).extractLsb' 0 8
    if addr.toNat % 8 != 0 then .fault fRawWindow addr
    else if dev == s.conf.devnum then
      match s.coreKeys s.cur addr 8 .r with
      | .inr f => .fault f addr
      | .inl ks => .quiet ((s'.ccHold e w h.sig (.ldra addr o.d ks) none none).await o.d s'.placedId)
    else .quiet ((s'.ccHold e w h.sig (.rload dev addr o.d) none none).await o.d s'.placedId)) s

/-! ### Fences (R230, R331) -/

/-- The scope field of a fence. -/
def fenceScope (o : SY) : BitVec 3 := o.imm.extractLsb' 0 3
/-- Forgets the fences and acquires that have nothing left to wait for. -/
def State.freshFences (s : State) (c : Core) : Core := { c with frels := c.frels.filter fun f => !s.clear f.ids, bars := c.bars.filter fun b => !s.clear b.ids }
/-- The release half of a fence: later stores and atomics act as releases for the accesses ordered before it. -/
def State.fenceRel (s : State) (e : Word) (scope : BitVec 3) : State :=
  s.modCore s.cur fun c => { s.freshFences c with frels := (s.freshFences c).frels ++ [{ e := e, scope := scope, ids := c.cc.before }] }
/-- Whether an effect reads a value that comes back to the core. -/
def Act.returns : Act → Bool
  | .atomic .. => true
  | .ldra .. => true
  | .rload .. => true
  | .ratomic .. => true
  | _ => false
/-- Whether an effect is sent to another device, a copy's included. -/
def Act.remote (own : BitVec 8) : Act → Bool
  | .rload .. => true
  | .rstore .. => true
  | .ratomic .. => true
  | .cpy j => (opcOf j.w == 0x6E#7 || opcOf j.w == 0x6F#7) && j.d0.extractLsb' 56 8 != own
  | _ => false
/-- The operations that have not been performed, held or in flight. -/
def State.unperformed (s : State) (n : Nat) : List Held :=
  ((s.core n).hold ++ s.flying ++ s.oreqs.map (·.held) ++ (s.areqs.flatMap fun a => a.tree.members) ++ s.ueOps.map (·.held)).filter (·.core == n)
/-- What a FAR holds back the accesses after it for: every store and atomic ordered before it, until performed at its scope (R227, R230). -/
def State.farIds (s : State) (scope : BitVec 3) : List Nat :=
  ((s.unperformed s.cur).filter fun h => s.me.cc.before.contains h.id && (scope == 4 || !h.act.remote s.conf.devnum)).map (·.id)
/-- The acquire half of a fence (R230): earlier loads have been performed; earlier atomics and remote loads act as acquires. The accesses ordered after it
wait for their results, and for `more`. -/
def State.fenceAcq (s : State) (e : Word) (scope : BitVec 3) (more : List Nat) : State :=
  let n := s.cur
  let mine (h : Held) : Bool := h.core == n && h.eng == .cc && h.act.returns
  let mark (h : Held) : Held := if mine h then { h with acq := scopeMax h.acq (some scope) } else h
  let due : List Nat := ((s.unperformed n).filter mine).map (·.id)
  let id := s.nextId
  let c := s.freshFences s.me
  let s := s.acquire scope
  ({ s with nextId := id + 1, flying := s.flying.map mark, oreqs := s.oreqs.map (fun o => { o with held := mark o.held }),
            areqs := s.areqs.map fun a => { a with tree := a.tree.map mark } } : State).setCore n
    { c with hold := c.hold.map mark, bars := c.bars ++ [{ e := e, id := id, ids := mergeIds due more }],
             cc := { c.cc with before := mergeIds c.cc.before [id] } }
/-- R331: FACQ. -/
def execFacq (h : Hdr) (o : SY) (s : State) : Result :=
  ccWord h (packSY h 0x0B 0 o) [] [] (fun e s' => .done (s'.fenceAcq e (fenceScope o) [])) s
/-- R331: FREL. -/
def execFrel (h : Hdr) (o : SY) (s : State) : Result :=
  ccWord h (packSY h 0x0B 1 o) [] [] (fun e s' => .done (s'.fenceRel e (fenceScope o))) s
/-- R331: FAR: both, and the accesses after it wait for the earlier stores and atomics. -/
def execFar (h : Hdr) (o : SY) (s : State) : Result :=
  ccWord h (packSY h 0x0B 2 o) [] [] (fun e s' =>
    .done ((s'.fenceRel e (fenceScope o)).fenceAcq e (fenceScope o) (s'.farIds (fenceScope o)))) s

end Sys2Proof.Machine
end

