-- ==== Sys2Proof/Machine/Perform.lean ====
section
/-! DEFINITION. What an entry that has left its core does at its home agent (R222 to R232, R319, R340 to R347, R440 to R448): the order in
which entries may be performed, stores, tensor writes, table, phaser and cache words, copies, exchange transfers; the completion of copies
on write, shadow fills and migrations (R214, R216, R235); and atomics in the mesh (R237 to R241). -/

namespace Sys2Proof.Machine

/-! ### Order (R224, R226, R227, R330) -/

/-- The released operations not yet performed or complete. -/
def State.inFlight (s : State) : List Held :=
  s.flying ++ s.oreqs.map (·.held) ++ (s.areqs.filter fun a => !a.done).flatMap (fun a => a.tree.members) ++ s.ueOps.map (·.held)
/-- Whether a release at a scope still waits for an operation (R227): a remote request holds back only a release at SYS. -/
def State.waitsFor (s : State) (scope : BitVec 3) (id : Nat) : Bool :=
  s.outstanding id && (scope == 4 || !(s.inFlight.any fun h => h.id == id && h.act.remote s.conf.devnum))
/-- Whether everything that an entry waits for has been performed: what acquires and fences before it name, and what it publishes as a release. -/
def State.heldReady (s : State) (h : Held) : Bool := s.clear h.after && h.rel.all fun r => r.2.all fun i => !s.waitsFor r.1 i

/-- The bytes of memory that an effect names. -/
def Act.keys : Act → List Nat
  | .store _ _ _ ks => ks
  | .atomic _ _ _ _ _ _ ks => ks
  | .ldra _ _ ks => ks
  | .bytes b => b.map (·.1)
  | _ => []
/-- The guest-physical address that a raw access of a context or a supervisor core names (R143, R200). -/
def Act.gpa (sup : Bool) (a : Act) : Option Nat :=
  let g (x : Word) : Nat := if sup then x.toNat % 2 ^ 40 else x.toNat
  match a with
  | .store x _ _ _ => some (g x)
  | .atomic _ x _ _ _ _ _ => some (g x)
  | .ldra x _ _ => some (g x)
  | _ => none
/-- The partition and guest-physical address of a raw access that an entry makes. -/
def State.heldGpa (s : State) (h : Held) : Option (BitVec 7 × Nat) :=
  let sup := isSup h.core
  (h.act.gpa sup).map fun g => (match h.act with
    | .store x _ _ _ => if sup then x.extractLsb' 40 7 else (s.ctx h.cid).pid
    | .atomic _ x _ _ _ _ _ => if sup then x.extractLsb' 40 7 else (s.ctx h.cid).pid
    | .ldra x _ _ => if sup then x.extractLsb' 40 7 else (s.ctx h.cid).pid
    | _ => 0, g)
/-- The pod of the home agent of a raw access of this device (R222). -/
def State.heldHome (s : State) (h : Held) : Option Nat :=
  match s.heldGpa h, h.act.keys with
  | some (pid, g), k :: _ => s.homePod pid g k
  | _, _ => none
/-- Whether the vaults that an entry reaches, and the quadrant of its home agent, have a clock (Table 2.3). -/
def State.homeOn (s : State) (h : Held) : Bool :=
  h.act.keys.all (fun k => keyKind k != 0 || s.islandOn (vaultIsland (keyUnit k))) &&
    (match s.heldHome h, h.act.keys with | some p, k :: _ => keyKind k == 0 || s.islandOn (quadIsland p) | _, _ => true)
/-- A raw access meets the L2 at its line's home (R201, R222). -/
def State.heldSee (s : State) (h : Held) : State :=
  match s.heldGpa h, h.act.keys with
  | some (pid, g), k :: _ => s.l2See pid (!isSup h.core) [(g, k)]
  | _, _ => s
/-- The descriptor whose table a held word changes. -/
def Act.table : Act → Option (BitVec 10)
  | .tdset t _ => some t
  | .tdinv t => some t
  | .ttset t _ _ => some t
  | .ttref t _ => some t
  | .ttunref t _ => some t
  | _ => none
def Act.phaserOf : Act → Option (BitVec 12)
  | .phreg p _ => some p
  | .phdrop p => some p
  | _ => none
def Act.isCache : Act → Bool
  | .dwb .. => true
  | .dinv .. => true
  | .iinv .. => true
  | _ => false

/-- The line of another device that an effect acts on. -/
def Act.farLine : Act → Option (BitVec 8 × Nat)
  | .rload d a _ => some (d, a.toNat / 64)
  | .rstore d a _ => some (d, a.toNat / 64)
  | .ratomic d _ a _ _ _ _ => some (d, a.toNat / 64)
  | _ => none
/-- Whether a later entry of the same engine must follow an earlier one. -/
def State.conflict (s : State) (a b : Held) : Bool :=
  let unit := if b.eng == .cc then 64 else 32
  (a.act.keys.any fun k => b.act.keys.any fun k' => k / unit == k' / unit) ||
  (a.act.table.isSome && a.act.table == b.act.table) || (a.act.phaserOf.isSome && a.act.phaserOf == b.act.phaserOf) ||
  (a.act.isCache && b.act.isCache) ||
  (match a.act.farLine, b.act.farLine with | some x, some y => x == y | _, _ => false) ||
  (match a.act, b.act with
   | .store x n _ _, .dwb y k => x.toNat < y.toNat + 64 * k && y.toNat < x.toNat + n
   | .atomic _ x _ _ _ _ _, .dwb y k => x.toNat < y.toNat + 64 * k && y.toNat < x.toNat + 8
   | .twrite t cs, .twrite t' cs' => t == t' && cs.any fun c => cs'.any fun c' => c.tile == c'.tile && c.off / 32 == c'.off / 32
   | .cpy j, .cpy k =>
     if j.entryOp || k.entryOp then j.sameTensor k
     else (s.locsLeft a j).any fun x => (s.locsLeft b k).any fun y => x.meets y
   | _, _ => false)
/-- Whether an earlier raw access of a core and context precedes another on a way through a die that relays both to one home (R34). -/
def State.sameWay (s : State) (a b : Held) : Bool :=
  a.cid == b.cid && a.inc == b.inc && s.heldReady a &&
    (match s.heldHome a, s.heldHome b with
     | some x, some y => x == y && 2 ≤ (dieRoute (coreDie a.core) (x / 8)).length
     | _, _ => false)
/-- Whether an entry must still wait for an earlier one of its engine, other than those named. -/
def State.blocked (s : State) (h : Held) (but : List Nat) : Bool :=
  s.inFlight.any fun a => a.core == h.core && a.eng == h.eng && a.id < h.id && !but.contains a.id && (s.conflict a h || s.sameWay a h)

/-! ### Entries in flight -/

def State.setFly (s : State) (h : Held) : State := { s with flying := s.flying.map fun x => if x.id == h.id then h else x }
def State.dropFly (s : State) (id : Nat) : State := { s with flying := s.flying.filter fun x => x.id != id }
/-- A part of a transfer from another device has landed: its word is complete when every packet has been sent and answered and every
byte written (R447). -/
def State.parentDone (s : State) (h : Held) : State :=
  match h.parent with
  | none => s
  | some p =>
    match s.flying.find? fun x => x.id == p with
    | some x =>
      if x.allSent && !(s.oreqs.any fun o => o.held.id == p) && !(s.flying.any fun y => y.parent == some p) then
        (if x.raised then s.dropFly p else (s.dropFly p).heldSig x)
      else s
    | none => s
/-- An entry is complete: its signal is applied, and an engine that was parked for it goes on. -/
def State.finishFly (s : State) (h : Held) : State := (((s.dropFly h.id).heldSig h).parentDone h).unparkOp h
/-- An entry fails when it is performed: it has no effect and no signal (R319, R440). -/
def State.failFly (s : State) (h : Held) (code : BitVec 8) : State := (((s.dropFly h.id).heldFail h code h.w 0).parentDone h).unparkOp h
/-- An entry waits for a cause that may clear, and is reported once (R149, R215); a cause with restart "stopped" also stops the context and parks the
engine. -/
def State.pauseFly (s : State) (h : Held) (code : BitVec 8) (val : Word) : State :=
  if h.raised then s else
  let c := s.core h.core
  let s := if code == fTtNode || code == fEccUe then s.heldStop h code val else
    s.recordOn (if code == fCowNoframe then (s.ctx h.cid).pid else 0)
      { code := code, cls := if code == fCowNoframe then 1 else faultClass code, eng := BitVec.ofNat 3 h.eng.num, cid := h.cid, inc := h.inc, gts := s.gts, src := s.src h.core, crd := h.e,
        pc := if h.eng == .cc then h.pc else c.faultPc h.eng h.slot, val := match h.act with | .cpy _ => (if code == fCowNoframe then h.w else val) | _ => val } h.core h.eng
  s.setFly { h with raised := true }
/-- What a fault of an entry at its performance comes to. -/
def State.stopFly (s : State) (h : Held) (code : BitVec 8) (val : Word) : State :=
  if code == fNres || code == fEccUe || code == fTtNode || code == fCowNoframe then s.pauseFly h code val else s.failFly h code

/-! ### Table and phaser words (R340, R341, R343) -/

/-- Zeroes an entry and takes one user off its run; none when its counter is bad (R341, R448). -/
def State.unref (s : State) (cid : BitVec 12) (e : Word) (d : TDesc) (tid : BitVec 10) (tile : Nat) (x : BitVec 128) : Option State :=
  if entSh x && (entIdx x == 0 || s.rc cid (entIdx x) == 0) then none
  else some ((s.putEnt cid tid tile (d.entAddr tile) 0).dropRun cid e x (d.pool (entTier x)))
/-- The descriptor of a held word, as it stands in memory. -/
def State.homeDesc (s : State) (h : Held) (tid : BitVec 10) : Option TDesc :=
  let x : BitVec 512 := BitVec.ofNat 512 (s.gpaNum h.cid ((s.ctx h.cid).ttab.toNat + 64 * tid.toNat) 64)
  if x.getLsbD 304 && tdOk x then some (TDesc.ofBits x) else none
/-- A tile-table word is performed. -/
def State.performTile (s : State) (h : Held) (tid : BitVec 10) (tile : Nat) : State :=
  match s.homeDesc h tid with
  | none => s.failFly h fIllegal
  | some d =>
    if d.tiles ≤ tile then s.failFly h fIllegal else
    let gpa := d.entAddr tile
    if !s.pageOk h.cid gpa then s.pauseFly h fTtNode (BitVec.ofNat 64 gpa) else
    let x := s.entAt h.cid gpa
    match h.act with
    | .ttset _ _ v => if entMig x || s.writing h.cid tid tile then s else (s.putEnt h.cid tid tile gpa v).finishFly h
    | .ttref _ _ =>
      if d.phased || entIdx x == 0 || s.rc h.cid (entIdx x) == 0xFFFFFFFF then s.failFly h fIllegal
      else (s.setRc h.cid (entIdx x) (s.rc h.cid (entIdx x) + 1)).finishFly h
    | _ =>
      if entAbsent x then s.finishFly h
      else if entMig x || s.writing h.cid tid tile then s
      else
        match s.unref h.cid h.e d tid tile x with
        | none => s.failFly h fIllegal
        | some s' => if s.quarFits h.cid (s.dropAdds h.cid x) then s'.finishFly h else s
/-- A descriptor's 64 bytes are written, with shootdown (R206, R340). -/
def State.putDesc (s : State) (h : Held) (tid : BitVec 10) (v : BitVec 512) : State :=
  (s.gpaPut h.cid ((s.ctx h.cid).ttab.toNat + 64 * tid.toNat) 64 v.toNat).shootdown h.cid tid none
/-- A registration or a drop is performed (R343). -/
def State.performPhaser (s : State) (h : Held) : State :=
  match (s.core h.core).task with
  | none => s.dropFly h.id
  | some t =>
    match h.act with
    | .phreg ph mode =>
      match (s.phaser ph).register h.cid h.inc { launch := t.launch, team := t.team, t := t.t, core := h.core, mode := mode } t with
      | .ok p => (s.setPhaser ph p).finishFly h
      | .priv => s.failFly h fPriv
      | .illegal => s.failFly h fIllegal
    | .phdrop ph =>
      if (s.phaser ph).owner != some (h.cid, h.inc) then s.failFly h fPriv else
      match (s.phaser ph).dropTask t with
      | some p => (s.setPhaser ph p).finishFly h
      | none => s.failFly h fIllegal
    | _ => s

/-! ### Cache words (R346, R347) -/

/-- Whether core `m` lies within a scope of core `n` (Table 10.1). -/
def inScope (scope : BitVec 3) (n m : Nat) : Bool :=
  if scope == 0 then m == n else if scope == 1 then m / 8 == n / 8 && !isSup m else if scope == 2 then m / 64 == n / 64 && !isSup m else true
/-- Invalidates a range in the instruction caches within a scope; a locked line stays locked while invalid (R166). -/
def State.invalidate (s : State) (n : Nat) (scope : BitVec 3) (a k : Nat) : State :=
  { s with cores := s.cores.map fun (m, c) =>
      (m, if !inScope scope n m then c else
          { c with icache := c.icache.filterMap fun (i, l) =>
              let l' : ICLine := if a / 64 ≤ l.addr && l.addr < a / 64 + k then (if l.locked then { l with valid := false, data := 0 } else {}) else l
              if l' = ({} : ICLine) then none else some (i, l') }) }
/-- Drops the copies of remote lines in a range, of a context's first-level partition (R200, R346). -/
def State.dropRange (s : State) (cid : BitVec 12) (a k : Nat) : State :=
  let tag := pidTag (s.ctx cid).pid
  let hit (line : Nat) : Bool := a / 64 ≤ line && line < a / 64 + k
  { s with l2 := s.l2.filter (fun l => !(l.dev.isSome && l.pid == tag && hit l.addr)),
           oreqs := s.oreqs.map fun o => if pidTag (s.ctx o.held.cid).pid == tag && hit (o.pkt.head.addr.toNat / 64) then { o with keep := false } else o }

/-! ### Tensor writes (R232, R369) -/

/-- The entry that keeps an operation's translations: the transfer whose data it lands, or itself (R207). -/
def State.runHolder (s : State) (h : Held) : Held := (h.parent.bind fun p => s.flying.find? fun x => x.id == p).getD h
/-- A held write of cells is translated, once for a tile (R207), and performed; one of ACC follows the earlier loads of its engine (R224). -/
def State.performTwrite (s : State) (h : Held) (tid : BitVec 10) (cs : List TCell) : State :=
  match s.tdesc h.core h.e tid with
  | none => s.failFly h fTensorBounds
  | some d =>
    let own := s.runHolder h
    let known := (runsOf own.runs true tid).filter fun r => (tilesOf cs).contains r.1
    match s.writeTiles h.core (claimKey h.id) h.eng h.e d tid (coversRun d cs) ((tilesOf cs).filter fun t => !known.any fun r => r.1 == t) known with
    | .inl (.fault c v) => s.stopFly h c v
    | .inl (.absent s) => s.pauseFly h fNres (nresVal tid (((tilesOf cs).find? fun t => entAbsent (s.entAt h.cid (d.entAddr t))).getD 0))
    | .inl (.noframe p s) => s.pauseFly h fCowNoframe (BitVec.ofNat 64 p)
    | .inl (.stall s) => s
    | .inl (.run _ s) => s
    | .inr (s, runs) =>
      match s.cellKeys h.cid runs cs with
      | none => s.pauseFly h fTtNode (BitVec.ofNat 64 (d.entAddr ((tilesOf cs).headD 0)))
      | some ks =>
        if h.eng == .acc && (s.core h.core).unlanded h.id (ks.map (·.1)) then s else
        let s := s.l2See (s.ctx h.cid).pid true (lineHeads ((cellGpas runs cs).zip (ks.map (·.1))))
        let s := if own.id == h.id then s else s.setFly { own with runs := keepRuns own.runs true tid runs }
        (s.writeBytes ((ks.zip cs).map fun (k, c) => (k.1, mergeByte (s.byte k.1) c.v c.mask))).finishFly h

/-! ### Copies (R440 to R448) -/

/-- The next step of a held word that has `n` parts: it goes on, or is complete. -/
def State.flyStep (s : State) (h : Held) (n : Nat) : State :=
  if n ≤ h.k + 1 then s.finishFly h else s.setFly { h with k := h.k + 1, raised := false }
/-- The next granule of a held copy within this device. -/
def State.performCopy (s : State) (h : Held) (j : CpyJob) : State :=
  let d := s.lenDesc h.core h.e j
  if j.total d ≤ h.k then s.finishFly h else
  match s.moveOne h.core (claimKey h.id) h.e j false h.runs (j.move h.core [] d h.k) fun runs s => .go (s.flyStep { h with runs := runs } (j.total d)) with
  | .no => s
  | .go s => s
  | .fault c v s => s.stopFly h c v
/-- TSHARE on its next tile (R213, R448). -/
def State.performShare (s : State) (h : Held) (j : CpyJob) : State :=
  match s.homeDesc h j.tida, s.homeDesc h j.tidb with
  | some a, some b =>
    let (ta, tb) := (j.ta + h.k, j.tb + h.k)
    if j.tida == j.tidb && ta == tb then s.flyStep h j.nt else
    let (ga, gb) := (a.entAddr ta, b.entAddr tb)
    if !s.pageOk h.cid ga || !s.pageOk h.cid gb then s.pauseFly h fTtNode (BitVec.ofNat 64 (if s.pageOk h.cid ga then gb else ga)) else
    let x := s.entAt h.cid ga
    let y := s.entAt h.cid gb
    if entAbsent x then s.flyStep h j.nt
    else if entMig x || entMig y || s.writing h.cid j.tida ta || s.writing h.cid j.tidb tb then s
    else
      let counted := entSh x && entIdx x != 0
      if counted && s.rc h.cid (entIdx x) == 0xFFFFFFFF then s.failFly h fIllegal
      else if !entAbsent y && entSh y && (entIdx y == 0 || s.rc h.cid (entIdx y) == 0) then s.failFly h fIllegal
      else if !s.quarFits h.cid (if entAbsent y then 0 else s.dropAdds h.cid y) then s
      else
        match if counted then (some (entIdx x).toNat, s) else s.popPool h.core (claimKey h.id) h.cid 255 with
        | (none, s) => s.pauseFly h fCowNoframe 255
        | (some i, s) =>
          let i : BitVec 24 := BitVec.ofNat 24 i
          let s := s.setRc h.cid i (if counted then s.rc h.cid i + 1 else 2)
          let s := if entAbsent y then s else (s.unref h.cid h.e b j.tidb tb y).getD s
          let v := entWith x (entFrame x) (entShadow x) (entOwner x) (entSph x) i (entTier x) false true true
          ((s.putEnt h.cid j.tida ta ga v).putEnt h.cid j.tidb tb gb v).flyStep h j.nt
  | _, _ => s.failFly h fIllegal
/-- TFREE on its next tile (R448). -/
def State.performFree (s : State) (h : Held) (j : CpyJob) : State :=
  match s.homeDesc h j.tida with
  | none => s.failFly h fIllegal
  | some d =>
    let t := j.ta + h.k
    if !s.pageOk h.cid (d.entAddr t) then s.pauseFly h fTtNode (BitVec.ofNat 64 (d.entAddr t)) else
    let x := s.entAt h.cid (d.entAddr t)
    if entAbsent x then s.flyStep h j.nt
    else if entMig x || s.writing h.cid j.tida t then s
    else
      match s.unref h.cid h.e d j.tida t x with
      | none => s.failFly h fIllegal
      | some s' => if s.quarFits h.cid (s.dropAdds h.cid x) then s'.flyStep h j.nt else s
/-- The charge of an exchange transfer to its superstep phaser (R116, R445). -/
def State.exchCharge (s : State) (h : Held) (ph : BitVec 12) (len : Nat) : State :=
  s.setPhaser ph ((s.phaser ph).completed h.core h.e (BitVec.ofNat 32 len))
/-- Whether a phaser is in EXCHANGE (R113). -/
def State.exchanging (s : State) (ph : BitVec 12) : Bool :=
  let p := s.phaser ph
  p.members.any (·.signals) && (p.members.filter (·.signals)).all (PMember.arrived p) && p.counted (s.waitsFor 3) && p.pending != 0
/-- CXCH (R445): once the superstep phaser is in EXCHANGE, its granules go to the target core, then the charge is made. A target that
fails is reported, and the charge is still made. -/
def State.performExch (s : State) (h : Held) (j : CpyJob) : State :=
  match (s.core h.core).task with
  | none => s.dropFly h.id
  | some t =>
    match t.superPh with
    | none => s.failFly h fIllegal
    | some ph =>
      let m := j.tida.toNat % 256
      let tgt := s.core m
      let same := match tgt.task with | some u => u.launch == t.launch && u.cid == t.cid && u.inc == t.inc && !u.ended | none => false
      let bad (s : State) (code : BitVec 8) : State := (s.failFly h code).exchCharge h ph j.len0
      let write (s : State) (a : Nat) (fin : State → State) : State :=
        let bs := (s.core h.core).spadBytes (j.src0 + 32 * h.k) 32
        let s := s.modCore m fun c => { c with spad := putSpad c.spad (a + 32 * h.k) bs }
        if j.len0 / 32 ≤ h.k + 1 then fin s else s.setFly { h with k := h.k + 1 }
      if h.k == 0 && h.cbSlot.isNone && !s.exchanging ph then s
      else if !same then bad s fIllegal
      else if !j.tidb.getLsbD 5 then
        (if spadEnd < j.dst0 + j.len0 then bad s fSpadRange else write s j.dst0 fun s => (s.finishFly h).exchCharge h ph j.len0)
      else
        let k := j.tidb.toNat % 32
        match tgt.cbs.get none k with
        | none => bad s fIllegal
        | some b =>
          if cbSlotBytes b.w0 != j.len0 then bad s fIllegal else
          match h.cbSlot with
          | none =>
            if b.free == 0 then s else
            (s.modCore m fun c => { c with cbs := c.cbs.set none k (some { b with free := b.free - 1, filling := b.filling + 1 }) }).setFly
              { h with cbSlot := some ((b.widx + b.filling) % cbSlots b.w0) }
          | some i =>
            if j.len0 / 32 ≤ h.k + 1 && i != b.widx then s else
            write s (cbBase b.w0 + cbSlotBytes b.w0 * i) fun s =>
              ((s.modCore m fun c => { c with cbs := c.cbs.set none k (some (b.fillDone h.e)) }).finishFly h).exchCharge h ph j.len0

/-! ### Performing an entry -/

/-- A supervisor core's raw access uses the grant that stands when it is performed (R143): its bytes, or the fault; none for another core's. -/
def State.regrant (s : State) (h : Held) (addr : Word) (n : Nat) (p : Perm) : Option (List Nat) ⊕ BitVec 8 :=
  if isSup h.core then (match s.coreKeys h.core addr n p with | .inl ks => .inl (some ks) | .inr code => .inr code) else .inl none

/-- An entry of this device is performed at its home agent, once everything ordered before it has been; one of an incarnation that is
not live is dropped (R131). -/
def State.performHere (s : State) (h : Held) : State :=
  if !isSup h.core && !s.live h.cid h.inc then s.dropFly h.id
  else if !s.homeOn h || !s.heldReady h || s.blocked h [] then s
  else
    match h.act with
    | .store addr n v ks =>
      match s.regrant h addr n .w with
      | .inl g => ((s.heldSee h).writeBytes ((g.getD ks).zip (leBytes v.toNat n))).finishFly h
      | .inr code => s.failFly h code
    | .bytes b => (s.writeBytes b).finishFly h
    | .ldra addr _ ks =>
      match s.regrant h addr 8 .r with
      | .inr code => s.failFly h code
      | .inl g =>
      let ks := g.getD ks
      if s.anyPoison ks then s.pauseFly h fEccUe addr
      else { (s.heldSee h).dropFly h.id with areqs := s.areqs ++ [{ tree := .one h, done := true, val := bitsOf 64 (ks.map s.byte) }] }
    | .twrite tid cs => s.performTwrite h tid cs
    | .tdset tid x => (s.putDesc h tid x).finishFly h
    | .tdinv tid =>
      let x : BitVec 512 := BitVec.ofNat 512 (s.gpaNum h.cid ((s.ctx h.cid).ttab.toNat + 64 * tid.toNat) 64)
      (s.putDesc h tid (x &&& ~~~(1#512 <<< 304))).finishFly h
    | .ttset tid tile _ => s.performTile h tid tile
    | .ttref tid tile => s.performTile h tid tile
    | .ttunref tid tile => s.performTile h tid tile
    | .phreg .. => s.performPhaser h
    | .phdrop .. => s.performPhaser h
    | .dwb .. => s.finishFly h
    | .dinv a k => (s.dropRange h.cid a.toNat k).finishFly h
    | .iinv scope a k => (s.invalidate h.core scope a.toNat k).finishFly h
    | .cpy j =>
      if j.opc == 0x74 then s.performShare h j
      else if j.opc == 0x75 then s.performFree h j
      else if j.opc == 0x70 then s.performExch h j
      else if j.isRemote && j.dev != s.conf.devnum then s
      else s.performCopy h j
    | _ => s

/-! ### Copies on write, shadow fills and migrations -/

/-- Marks the lines of a copied run poisoned where the source is (R149). -/
def State.copyPoison (s : State) (cid : BitVec 12) (src dst : BitVec 36) : Nat → State
  | 0 => s
  | n + 1 =>
    let p := (s.ctx cid).pid
    (match s.stage2 p (frameAddr src + 64 * n), s.stage2 p (frameAddr dst + 64 * n) with
     | some a, some b => { s with poison := s.poison.set false (lineOf b) (s.poisoned a) }
     | _, _ => s).copyPoison cid src dst n
/-- Copies a run with its poison. -/
def State.copyWhole (s : State) (cid : BitVec 12) (src dst : BitVec 36) (run : Nat) : State :=
  (s.copyRun cid src dst run).copyPoison cid src dst (64 * run)
def State.runPoisoned (s : State) (cid : BitVec 12) (f : BitVec 36) (run : Nat) : Bool :=
  (List.range (64 * run)).any fun i => match s.stage2 (s.ctx cid).pid (frameAddr f + 64 * i) with | some k => s.poisoned k | none => false
def State.dropTileOp (s : State) (t : TileOp) : State := { s with tileOps := s.tileOps.filter (· != t) }
/-- Whether an operation's entry is still as it found it, and the runs that it copies between are placed; a copy of a run that has lost its place waits. -/
def State.tileSame (s : State) (t : TileOp) : Bool := s.entAt t.cid t.entAddr.toNat == t.ent
def State.tilePlaced (s : State) (t : TileOp) : Bool := s.runPlaced t.cid (entFrame t.ent) t.run && s.runPlaced t.cid t.frame t.run
/-- R214: COW_COPY_DONE: the copy is done; the entry takes the new run, or another core has changed it and the new run is quarantined. -/
def execCowCopyDone (idx : Nat) (s : State) : Result :=
  match s.tileOps[idx]? with
  | none => .next s
  | some t =>
    let n := s.rc t.cid (entIdx t.ent)
    if t.kind != 0 || !s.tilePlaced t || !s.quarFits t.cid (if s.tileSame t && n != 1 then 0 else 1) then .next s else
    let s := (s.copyWhole t.cid (entFrame t.ent) t.frame t.run).dropTileOp t
    let new := entWith t.ent t.frame (entShadow t.ent) (entOwner t.ent) (entSph t.ent) t.idx (entTier t.ent) (entMig t.ent) false true
    match s.updateIfSame t.cid t.tid t.tile t.entAddr.toNat t.ent new with
    | (true, s) =>
      let s := s.setRc t.cid (entIdx t.ent) (n - 1)
      .next (if n == 1 then s.quarantine t.cid t.e (some (entFrame t.ent)) t.pool (entIdx t.ent) else s)
    | (false, s) => .next ((s.quarantine t.cid t.e (some t.frame) t.pool t.idx).shootdown t.cid t.tid (some t.tile))

/-- Logs the granules of a fill under kind 2 (R257): `g` counts them down. -/
def State.logFill (s : State) (t : TileOp) (eng : Eng) : Nat → State
  | 0 => s
  | g + 1 =>
    let a := frameAddr t.frame + 32 * g
    (s.log t.core { kind := 2, eng := BitVec.ofNat 3 eng.num, mask := BitVec.allOnes 32, addr := BitVec.ofNat 48 a, crd := t.e,
                    old := BitVec.ofNat 256 (s.gpaNum t.cid a 32) }).logFill t eng g
/-- R235: SHADOW_FILL_DONE: FRAME has been copied to SHADOW, and the entry becomes pending in the phase and epoch of the write that began it (R234), unless
another write has made it pending first: then nothing is copied over that. Logged for a run-ahead engine above the horizon with room in the log (R255,
R257), and never while a stop at or below its coordinate is pending (R266). -/
def execShadowFillDone (idx : Nat) (s : State) : Result :=
  match s.tileOps[idx]? with
  | none => .next s
  | some t =>
    if t.kind != 1 || !s.tilePlaced t then .next s
    else if !s.tileSame t then .next ((s.dropTileOp t).shootdown t.cid t.tid (some t.tile))
    else
      let eng := engOfNum t.idx.toNat
      let c := s.core t.core
      let mine := match c.task with | some k => k.cid == t.cid && k.inc == t.inc | none => false
      let logged := mine && eng != .mtx && eng != .exe && s.logs t.core t.e && !s.stopAtOrBelow t.core t.e && (s.ctx t.cid).st == .live
      if logged && c.peelFree < 128 * t.run + 1 then .next s else
      let s := if logged then s.logFill t eng (128 * t.run) else s
      let s := (s.copyWhole t.cid (entFrame t.ent) t.frame t.run).dropTileOp t
      let new := entWith t.ent (entFrame t.ent) (entShadow t.ent) (BitVec.ofNat 8 t.core) t.phase t.epoch (entTier t.ent) (entMig t.ent) false false
      let s := s.putEnt t.cid t.tid t.tile t.entAddr.toNat new
      .next (if logged then s.log3 t.core eng t.e t.entAddr.toNat t.ent t.tid t.tile else s)
/-- R216: MIGRATION_FLIP: the copy is done and the entry takes its new frame and tier; an uncorrectable error abandons the migration
(Table 9.8), and is raised where the core still runs the context. -/
def execMigrationFlip (idx : Nat) (s : State) : Result :=
  match s.tileOps[idx]? with
  | none => .next s
  | some t =>
    let x := t.ent
    let gpa := t.entAddr.toNat
    let bad := s.runPoisoned t.cid (entFrame x) t.run
    if t.kind != 2 || !s.tilePlaced t || !s.quarFits t.cid (if !bad && s.tileSame t then s.dropAdds t.cid x else 1) then .next s
    else if bad then
      let s := (s.updateIfSame t.cid t.tid t.tile gpa x (entSetMig x false)).2.dropTileOp t
      let s := s.quarantine t.cid t.e (some t.frame) t.toPool t.idx
      let mine := match (s.core t.core).task with | some k => k.cid == t.cid && k.inc == t.inc | none => false
      .next (if mine then s.raise t.core .cpy fEccUe (BitVec.ofNat 64 (frameAddr (entFrame x))) t.e false 0 else s)
    else
      let s := (s.copyWhole t.cid (entFrame x) t.frame t.run).dropTileOp t
      let new := if entSh x then entWith x t.frame (entShadow x) (entOwner x) (entSph x) t.idx t.tier false false true
                 else entWith x t.frame (entShadow x) (entOwner x) (entSph x) (entIdx x) t.tier false (entCow x) false
      match s.updateIfSame t.cid t.tid t.tile gpa x new with
      | (true, s) => .next ((if entSh x then s.setRc t.cid t.idx 1 else s).dropRun t.cid t.e x t.pool)
      | (false, s) => .next ((s.quarantine t.cid t.e (some t.frame) t.toPool t.idx).shootdown t.cid t.tid (some t.tile))

/-! ### Atomics (R237 to R241) -/

/-- FP32 addition rounded RNE with the rules of R282 (Table 10.6). -/
def faddBits (a b : BitVec 32) : BitVec 32 := BitVec.ofNat 32 (rne32 (vadd 0 (fp32.decode a.toNat) (fp32.decode b.toNat)).1).1
/-- a ⊕ b of Table 10.6; ACAS does not combine. -/
def AtomOp.combine (op : AtomOp) (a b : Word) : Word :=
  match op with
  | .add => a + b
  | .and => a &&& b
  | .or => a ||| b
  | .xor => a ^^^ b
  | .min u => if ltOf u b a then b else a
  | .max u => if ltOf u a b then b else a
  | .swp => b
  | .cas => b
  | .fadd _ => (faddBits (a.setWidth 32) (b.setWidth 32)).setWidth 64
/-- What an atomic leaves in memory: ACAS compares with its first operand. -/
def AtomOp.result (op : AtomOp) (old x y : Word) : Word :=
  if op == .cas then (if old == x then y else old) else op.combine old x
/-- Whether an operation may combine (Table 10.6). -/
def AtomOp.combines (op : AtomOp) (nc : Bool) : Bool := !nc && op != .cas && op != .fadd false
/-- The first member of a request. -/
def Comb.first : Comb → Held
  | .one h => h
  | .two a _ _ => a.first
/-- Whether a request's members may reach its home: everything ordered before them there has been performed. -/
def State.areqFree (s : State) (a : AReq) (but : List Nat) : Bool :=
  a.tree.members.all fun h => !s.blocked h (but ++ a.tree.members.map (·.id))
/-- The mesh routers that a request still passes, from the one at which it is, by pod: its core's, or for a supervisor core's the first of the die that it
enters; those between, which lie on the dies of R34; and its home agent's. -/
def State.meshPath (s : State) (a : AReq) : List Nat :=
  let h := a.tree.first
  match s.heldHome h with
  | none => []
  | some home =>
    let dies := coreDie h.core :: dieRoute (coreDie h.core) (home / 8)
    let src := if isSup h.core then [] else [h.core / 8]
    let all := src ++ ((Config.meshHops (if isSup h.core then 28 + coreDie h.core else h.core / 8) home).filter fun p => dies.contains (p / 8)) ++ [home]
    match a.at_ with
    | some r => all.dropWhile (· != r)
    | none => all
/-- The router at which two requests meet. -/
def State.meetAt (s : State) (x y : AReq) : Option Nat := (s.meshPath x).find? (s.meshPath y).contains
/-- The requests that wait at a router (R238). -/
def State.waitAt (s : State) (r : Nat) : Nat := (s.areqs.filter fun a => !a.done && a.at_ == some r).length
/-- Whether two requests of one router arrived there in an order against X before Y: later, or in the same cycle with a higher source number (R239). -/
def State.meshLate (s : State) (x y : AReq) : Bool :=
  (s.meshPath x).head? == (s.meshPath y).head? &&
    (y.came < x.came || (x.came == y.came && (s.src y.tree.first.core).toNat < (s.src x.tree.first.core).toNat))
/-- The qualifiers and scope of an atomic's word. -/
def Held.quals (h : Held) : BitVec 4 × BitVec 4 := ((unpackRR h.w).q, (unpackRR h.w).lat)
/-- Whether two requests combine, X ordered first (R238, R239). -/
def State.mayCombine (s : State) (x y : AReq) : Bool :=
  let (hx, hy) := (x.tree.first, y.tree.first)
  !x.done && !y.done && x.addr == y.addr && x.op == y.op && x.nc == y.nc && x.op.combines x.nc && hx.quals == hy.quals &&
    hx.cid == hy.cid && hx.inc == hy.inc && x.tree.members.length + y.tree.members.length ≤ 64 &&
    (match s.meetAt x y with | some r => x.at_ == some r || s.waitAt r < 32 | none => false) && !s.meshLate x y &&
    s.areqFree x [] && s.areqFree y (x.tree.members.map (·.id))
/-- R238: MESH_COMBINE: request `y` reaches a router at which `x` waits; the two combine where R238 allows, and otherwise it passes on. -/
def execMeshCombine (x y : Nat) (s : State) : Result :=
  match s.areqs[x]?, s.areqs[y]? with
  | some a, some b =>
    if x == y || !s.mayCombine a b then .next s else
    let c := { a with x := a.op.combine a.x b.x, tree := .two a.tree b.tree a.x, at_ := s.meetAt a b, came := s.cycle }
    .next { s with areqs := (s.areqs.set x c).eraseIdx y }
  | _, _ => .next s
/-- R237, R241: HOME_ATOMIC_PERFORM: indivisible, nothing written over an uncorrectable error; a stale request is dropped. -/
def execHomeAtomicPerform (idx : Nat) (s : State) : Result :=
  match s.areqs[idx]? with
  | none => .next s
  | some a =>
    let h := a.tree.first
    if a.done then .next s
    else if !isSup h.core && !s.live h.cid h.inc then .next { s with areqs := s.areqs.eraseIdx idx }
    else if !s.homeOn h || !s.areqFree a [] then .next s
    else match s.regrant h a.addr a.ks.length .atomic with
    | .inr code => .next ({ s with areqs := s.areqs.eraseIdx idx }.heldFail h code h.w 0)
    | .inl _ =>
    if s.anyPoison a.ks then .next { s with areqs := s.areqs.set idx { a with done := true, poison := true, val := 0 } }
    else
      let old : Word := bitsOf 64 (a.ks.map s.byte)
      let s := (s.heldSee h).putCells (a.ks.zip (leBytes (a.op.result old a.x a.y).toNat a.ks.length))
      .next { s with areqs := s.areqs.set idx { a with done := true, val := old } }
/-- R239: REPLY_SPLIT: X receives the value that came back, Y that value ⊕ the operand of X. -/
def execReplySplit (idx : Nat) (s : State) : Result :=
  match s.areqs[idx]? with
  | some a =>
    match a.tree with
    | .two l r x =>
      if !a.done then .next s else
      let al := { a with tree := l }
      let ar := { a with tree := r, val := if a.poison then 0 else a.op.combine a.val x }
      .next { s with areqs := s.areqs.eraseIdx idx ++ [al, ar] }
    | .one _ => .next s
  | none => .next s
/-- The register that a returned value goes to. -/
def Act.dest : Act → BitVec 6
  | .atomic _ _ d _ _ _ _ => d
  | .ldra _ d _ => d
  | .rload _ _ d => d
  | .ratomic _ _ _ d _ _ _ => d
  | _ => 0
/-- The counter of stale responses of a die, saturating (R133). -/
def State.countOrph (s : State) (die : Nat) : State :=
  { s with dorph := s.dorph.modify 0 die fun x => if x == BitVec.allOnes 64 then x else x + 1 }
/-- A value returns to its core: D receives it unless a later word has written D (R321), an acquire at SYS drops remote lines. A response
to an incarnation that is not live is dropped and counted. -/
def State.deliver (s : State) (h : Held) (v : Word) (signal : Bool) : State :=
  if !isSup h.core && (!s.live h.cid h.inc || !h.onCore (s.core h.core)) then s.countOrph (h.core / 64) else
  let d := h.act.dest
  let s := if d != 0 && (s.core h.core).sPend.get 0 d.toNat == h.id then
      s.modCore h.core fun c => { c with s := c.s.set 0 d.toNat v, sPend := c.sPend.set 0 d.toNat 0, deadS := c.deadS.set none d.toNat none }
    else s
  let s := if h.acq == some 4 then s.dropRemote h.cid else s
  if signal then s.heldSig h else s
/-- R321: ATOMIC_RESULT: one member's value arrives; with POISON, D receives 0 and ATOM_POISON is raised, restart "after" (R241). -/
def execAtomicResult (idx : Nat) (s : State) : Result :=
  match s.areqs[idx]? with
  | some a =>
    match a.tree with
    | .one h =>
      if !a.done then .next s else
      let s := ({ s with areqs := s.areqs.eraseIdx idx } : State)
      let ok := isSup h.core || (s.live h.cid h.inc && h.onCore (s.core h.core))
      let s := s.deliver h a.val (!a.poison)
      .next (if a.poison && ok then s.raise h.core .cc fAtomPoison a.addr h.e false 0 else s)
    | .two .. => .next s
  | none => .next s

end Sys2Proof.Machine
end

