-- ==== Sys2Proof/Machine/Fabric.lean ====
section
/-! DEFINITION. The rotor fabric (R56 to R78, R459): ports and wavelengths, paths and slots, requests at their issuer with retry and
abandonment, combining, relays, requests at their destination with at-most-once delivery, responses, time-stamp synchronisation and
device replacement; and PERFORMED_AT_HOME, which also sends and lands the packets of remote copies. -/

namespace Sys2Proof.Machine

/-! ### Ports (R61 to R63, R78) -/

def State.port (s : State) (p : Nat) : Port := s.ports.get {} p
def State.modPort (s : State) (p : Nat) (f : Port → Port) : State := { s with ports := s.ports.modify {} p f }
/-- A counter that saturates at all ones (R78). -/
def bump (w : Word) (n : Nat) : Word := if 2 ^ 64 ≤ w.toNat + n then BitVec.allOnes 64 else w + BitVec.ofNat 64 n
def Port.bad1 (p : Port) : Port := { p with bad := bump p.bad 1 }
def Port.orph1 (p : Port) : Port := { p with orph := bump p.orph 1 }
def Port.stale1 (p : Port) : Port := { p with stale := bump p.stale 1 }
def Port.dup1 (p : Port) : Port := { p with dup := bump p.dup 1 }
def Port.comb1 (p : Port) : Port := { p with comb := bump p.comb 1 }
def Port.rtry1 (p : Port) : Port := { p with rtry := bump p.rtry 1 }
def Port.wena (p : Port) : BitVec 8 := p.ctl.extractLsb' 4 8
def Port.pdis (p : Port) : Bool := p.ctl.getLsbD 12
def Port.berx (p : Port) : Nat := (p.ctl.extractLsb' 0 4).toNat
/-- A port with no active wavelength, or disabled, is down (R63). -/
def Port.up (p : Port) : Bool := p.act != 0 && !p.pdis
def Port.cleared (p : Port) : Port :=
  { p with corr := 0, unc := 0, repl := 0, wdr := 0, rtry := 0, dup := 0, stale := 0, orph := 0, comb := 0, bad := 0 }
/-- Withdraws wavelengths; those enabled begin to retrain (R63). -/
def Port.withdraw (p : Port) (m : BitVec 8) : Port :=
  { p with act := p.act &&& ~~~m, trn := p.trn ||| (p.act &&& m &&& p.wena), wdr := bump p.wdr (channels (p.act &&& m)).length,
           trnErrs := p.trnErrs.filter fun x => !m.getLsbD x.1 }
/-- A write of WENA: a wavelength whose bit clears is withdrawn and never retrains; one whose bit is set anew trains (R63). -/
def Port.setWena (p : Port) (m : BitVec 8) : Port :=
  let q := { p with ctl := (p.ctl &&& ~~~(0xFF0#64)) ||| (m.setWidth 64 <<< 4) }.withdraw (p.act &&& ~~~m)
  { q with trn := (q.trn &&& m) ||| (m &&& ~~~p.wena) }
/-- A write of PDIS: the port goes down, or comes back and retrains. -/
def Port.setPdis (p : Port) (down : Bool) : Port :=
  if down then { p with ctl := p.ctl ||| (1#64 <<< 12), act := 0, trn := 0 }
  else { p with ctl := p.ctl &&& ~~~(1#64 <<< 12), trn := if p.pdis then p.wena else p.trn }
/-- A write of FXCTL (Table 3.6): a BERX outside 3 to 9 discards the write. -/
def Port.setCtl (p : Port) (v : Word) : Port :=
  let b := (v.extractLsb' 0 4).toNat
  if b < 3 || 9 < b then p else
  let p := (p.setWena (v.extractLsb' 4 8)).setPdis (v.getLsbD 12)
  let p := { p with ctl := (p.ctl &&& ~~~(0xF#64)) ||| (v &&& 0xF#64) }
  if v.getLsbD 13 then p.cleared else p
/-- A change of a port; when the port goes down, the E1 supervisor core reports it (R63, Table 14.20). -/
def State.turnPort (s : State) (p : Nat) (f : Port → Port) : State :=
  let t := s.modPort p f
  if (s.port p).up && !(t.port p).up then t.wake 4 else t
/-- R78: FXCTL.CLRCNT. -/
def execFxctlClrcnt (port : Nat) (s : State) : Result := .next (if port < 16 then s.modPort port Port.cleared else s)
/-- R78: FXCTL.PDIS. -/
def execFxctlPdis (port : Nat) (down : Bool) (s : State) : Result := .next (if port < 16 then s.turnPort port fun p => p.setPdis down else s)
/-- R63: FXCTL.WENA. -/
def execFxctlWena (port : Nat) (mask : BitVec 8) (s : State) : Result := .next (if port < 16 then s.turnPort port fun p => p.setWena mask else s)

/-! ### Flits on the line (R60 to R62) -/

/-- Flits that one wavelength carries in the data time of a slot (R61). -/
def slotFlits : Nat := 480
/-- Flits that one wavelength can still carry after `t` nanoseconds of a slot, at its constant rate (R56, R60, R61). -/
def timeFlits (t : Nat) : Nat := (1500 - t) * slotFlits / 1500
/-- The check of a flit (Table 3.2): over bytes 0 to 3 and the payload. -/
def chkOf (lsn : BitVec 24) (fk : BitVec 2) (payload : BitVec 512) : BitVec 32 :=
  Config.crc32 (leBytes (lsn.toNat + 2 ^ 24 * fk.toNat) 4 ++ leBytes payload.toNat 64)
/-- Sends flits, given by kind and payload: consecutive LSNs, striped over the active wavelengths in ascending order by their number in the
slot; the last 512 are kept for replay (R62). -/
def Port.send (p : Port) : List (BitVec 2 × BitVec 512) → List LFlit × Port
  | [] => ([], p)
  | (fk, x) :: xs =>
    let ws := channels p.act
    let f : LFlit := { lam := ws.getD (p.used % Nat.max 1 ws.length) 0, lsn := p.lsn, fk := fk, chk := chkOf p.lsn fk x, payload := x }
    let (fs, q) := { p with lsn := p.lsn + 1, used := p.used + 1, replay := (f :: p.replay).take 512 }.send xs
    (f :: fs, q)
/-- The flits that a port can still send in this slot: the rest of its 480 on each active wavelength, in the data time left (R60). -/
def State.portLeft (s : State) (p : Nat) : Nat :=
  let n := (channels (s.port p).act).length
  Nat.min (slotFlits * n - (s.port p).used) (n * timeFlits (s.gts.toNat - s.slotAt.toNat))
/-- The head flit's payload (Table 3.3), also what DETAIL holds. -/
def flitBits (f : Flit) : BitVec 512 :=
  f.tag ++ f.gts ++ f.opnd2 ++ f.opnd ++ f.addr ++ f.crd ++ (0#32) ++ f.seq ++ (0#4) ++ f.srcagt ++ f.nmem ++ f.status ++ f.aop ++ (0#5) ++
    BitVec.ofBool f.aq ++ BitVec.ofBool f.xr ++ f.nflit ++ f.inc ++ f.cid ++ f.rlydev ++ f.dstdev ++ f.srcdev ++ BitVec.ofBool f.nc ++ BitVec.ofBool f.rly ++
    f.tc ++ f.kind
/-- A member record (R73). -/
def memberBits (m : Member) : BitVec 128 := m.opnd ++ m.seq ++ (0#12) ++ m.srcagt ++ m.srcdev
/-- The bytes of a packet's data flits: data, or member records, four per flit. -/
def pktPayload (p : Pkt) : List Byte := p.bytes ++ p.members.flatMap fun m => leBytes (memberBits m).toNat 16
/-- The flits of a packet (R64): its head flit and its data flits. -/
def pktFlits (p : Pkt) : List (BitVec 2 × BitVec 512) :=
  (0, flitBits p.head) :: (List.range p.head.nflit.toNat).map fun i => (1, bitsOf 512 (((pktPayload p).drop (64 * i)).take 64))
/-- How many flits a packet takes. -/
def pktSize (p : Pkt) : Nat := 1 + p.head.nflit.toNat
/-- R62: LINK_REPLAY: a flit that fails FEC or CHK is requested again; its sender replays it in the same slot, from its replay buffer. -/
def execLinkReplay (req : ReplayReq) (s : State) : Result :=
  let port := req.port
  .next (if 16 ≤ port then s
    else if !req.sender then { s with out := s.out ++ [.linkNack port req.lsn] }
    else match (s.port port).replay.find? fun f => f.lsn == req.lsn with
      | some f =>
        if s.portLeft port == 0 then s else
        { s.modPort port fun p => { p with used := p.used + 1, repl := bump p.repl 1 } with out := s.out ++ [.flit port f] }
      | none => s)

/-- Flits in the order of their LSNs, counted from the first of the slot (R62). -/
def lsnInsert (base : BitVec 24) (f : LFlit) : List LFlit → List LFlit
  | [] => [f]
  | g :: gs => if (f.lsn - base).ult (g.lsn - base) then f :: g :: gs else g :: lsnInsert base f gs
/-- The flits of packets not received whole, in LSN order: a packet is a head flit followed, without a gap, by as many data flits as its
NFLIT says; a flit whose CHK fails has not been received. `n` is the data flits that the packet at hand still misses, `k` those it has. -/
def partials (next : BitVec 24) (n k : Nat) : List LFlit → Nat
  | [] => if n == 0 then 0 else k
  | f :: fs =>
    let gap := f.lsn != next && n != 0
    let lost := if gap then k else 0
    let n := if gap then 0 else n
    if f.fk == 0 then
      let m := (f.payload.extractLsb' 58 7).toNat
      (if n != 0 then k else lost) + partials (f.lsn + 1) m 1 fs
    else if f.fk == 1 then
      (if n == 0 then lost + 1 + partials (f.lsn + 1) 0 0 fs
       else partials (f.lsn + 1) (n - 1) (k + 1) fs)
    else lost + partials (f.lsn + 1) n k fs
/-- The bit errors of a wavelength's last slots, newest first. -/
def pushErr (m : SMap (List Nat)) (n i e : Nat) : SMap (List Nat) := m.modify [] i fun x => (e :: x).take n
/-- What the errors of a slot leave: corrected symbols counted, and the last 64 data-carrying slots of each active wavelength, and the last
16 training slots of each retraining one, kept (R63). `es` gives bit errors and corrected symbols of each wavelength. -/
def Port.slotErrs (p : Port) (data : Bool) (es : List (Nat × Nat)) : Port :=
  let p := { p with corr := bump p.corr (es.map (·.2)).sum }
  (List.range 8).foldl (fun q i =>
    let e := (es.getD i (0, 0)).1
    if q.act.getLsbD i then (if data then { q with errs := pushErr q.errs 64 i e } else q)
    else if q.trn.getLsbD i then { q with trnErrs := pushErr q.trnErrs 16 i e } else q) p
/-- R62: SLOT_END_DISCARD: packets not received whole at the end of a slot's data time are discarded, and their flits counted. -/
def execSlotEndDiscard (port : Nat) (rx : SlotRx) (s : State) : Result :=
  .next (if 16 ≤ port then s else
    let ok := rx.flits.filter fun f => f.chk == chkOf f.lsn f.fk f.payload
    let base := (rx.flits.head?.map (·.lsn)).getD 0
    let fs := ok.foldr (lsnInsert base) []
    s.modPort port fun p => { (p.slotErrs (rx.flits.any fun f => f.fk.toNat ≤ 1) rx.errs) with unc := bump p.unc (partials base 0 0 fs) })
/-- Bits that a wavelength carries in the data time of a slot: 200 Gb/s for 1.5 µs. -/
def waveBits : Nat := 300000
/-- Whether the estimate of an active wavelength exceeds 10^(-BERX) (R63). -/
def Port.noisy (p : Port) (lam : Nat) : Bool := let x := p.errs.get [] lam; decide (x.length * waveBits < x.sum * 10 ^ p.berx)
/-- Whether the estimate of a retraining wavelength over 16 slots is below a tenth of the threshold (R63). -/
def Port.quiet (p : Port) (lam : Nat) : Bool := let x := p.trnErrs.get [] lam; x.length == 16 && decide (x.sum * 10 ^ (p.berx + 1) < 16 * waveBits)
/-- R63: WAVELENGTH_WITHDRAW: by this end's estimate, which it tells the other end by a link-control flit, or asked by the other end. -/
def execWavelengthWithdraw (port : Nat) (r : LamReq) (s : State) : Result :=
  let lam := r.lam
  .next (if 16 ≤ port || 8 ≤ lam || !(s.port port).act.getLsbD lam || !(r.asked || (s.port port).noisy lam) then s else
    let t := s.turnPort port fun p => { p.withdraw (BitVec.ofNat 8 (2 ^ lam)) with errs := p.errs.set [] lam [] }
    if r.asked then t else { t with out := t.out ++ [.waveCtl port lam true] })
/-- R63: WAVELENGTH_REJOIN: agreed the same way. -/
def execWavelengthRejoin (port : Nat) (r : LamReq) (s : State) : Result :=
  let lam := r.lam
  .next (if 16 ≤ port || 8 ≤ lam || !(s.port port).trn.getLsbD lam || !(s.port port).wena.getLsbD lam || !(r.asked || (s.port port).quiet lam) then s else
    let t := s.modPort port fun p =>
      let b : BitVec 8 := BitVec.ofNat 8 (2 ^ lam)
      { p with act := p.act ||| b, trn := p.trn &&& ~~~b, trnErrs := p.trnErrs.set [] lam [] }
    if r.asked then t else { t with out := t.out ++ [.waveCtl port lam false] })

/-! ### Positions and paths (R56 to R60) -/

/-- The position of a device number; none when it is absent. -/
def State.pos (s : State) (dev : BitVec 8) : Option Nat :=
  let v := s.posTab.get 0 dev.toNat
  if v == 0 then none else some (v - 1)
/-- The device number at a position. -/
def State.devAt (s : State) (pos : Nat) : Option (BitVec 8) := (s.posTab.find? fun (_, v) => v == pos + 1).map fun (k, _) => BitVec.ofNat 8 k
/-- This device's position. -/
def State.at_ (s : State) : Option Nat := s.pos s.conf.devnum
/-- The device that a port meets in the slot at index `i` (R56); none when its position holds no device, or is this one's own. -/
def State.partner (s : State) (p i : Nat) : Option (BitVec 8) :=
  s.at_.bind fun a => if 16 * p + i % 16 == 0 then none else s.devAt (a ^^^ (16 * p + i % 16))
/-- The first index at or after `i` whose slot is `t`. -/
def nextSlot (i t : Nat) : Nat := i + (t + 16 - i % 16) % 16
/-- A plan: port and index of the first hop, and the relay when there is one. -/
structure Plan where
  port : Nat := 0
  slot : Nat := 0
  relay : Option (BitVec 8) := none
  deriving DecidableEq, Repr, Inhabited
def Plan.path (k : Plan) : Nat × Option (BitVec 8) := (k.port, k.relay)
/-- The free flits of a class on a port in the slot at index `i`: what the slot carries, less the waiting packets that go before or with
that class (R58, R74). -/
def State.freeFlits (s : State) (p i : Nat) (tc : BitVec 2) : Nat :=
  (if i == s.slotNo then s.portLeft p else slotFlits * (channels (s.port p).act).length) -
    (((s.txq ++ s.relay).filter fun t => t.port == p && t.slot == i && t.pkt.head.tc ≤ tc).map fun t => pktSize t.pkt).sum
/-- Ports with the most free flits first; ties: the lower port. -/
def portInsert (f : Nat → Nat) (p : Nat) : List Nat → List Nat
  | [] => [p]
  | q :: qs => if f q ≤ f p then p :: q :: qs else q :: portInsert f p qs
/-- The relays for a first hop at index `i`, in the tie order of R58, without those that are absent or behind a port that is down. -/
def State.relayPorts (s : State) (a b i : Nat) (tc : BitVec 2) : List Plan :=
  ((List.range 16).foldr (portInsert fun p => s.freeFlits p i tc) []).filterMap fun p =>
    let r := a ^^^ (16 * p + i % 16)
    match s.devAt r with
    | some d => if (s.port p).up && r != a && r != b then some { port := p, slot := i, relay := some d } else none
    | none => none
/-- The candidates of R58 in order of arrival: the direct meeting first among equals, then earlier first hops. -/
def pathOrder (a b now : Nat) : List (Nat × Option Nat) :=
  let d := a ^^^ b
  let direct : List (Nat × Option Nat) := (List.range 2).map fun c => (nextSlot now (d % 16) + 16 * c, none)
  let relayed : List (Nat × Option Nat) := (List.range 16).map fun k => (nextSlot (now + k + 1) ((d % 16) ^^^ ((now + k) % 16)), some (now + k))
  (List.range 48).flatMap fun t => (direct.filter fun c => c.1 == now + t) ++ (relayed.filter fun c => c.1 == now + t)
/-- The first slot whose data time can still hold a packet of `n` flits, on a port with every wavelength active. -/
def State.nowIndex (s : State) (n : Nat) : Nat := if n ≤ 8 * timeFlits (s.gts.toNat - s.slotAt.toNat) then s.slotNo else s.slotNo + 1
/-- The paths of a packet queued now, the one that R58 chooses first. -/
def State.plans (s : State) (a b : Nat) (p : Pkt) : List Plan :=
  let dp := (a ^^^ b) / 16
  (pathOrder a b (s.nowIndex (pktSize p))).flatMap fun (j, hop) =>
    match hop with
    | none => if (s.port dp).up then [{ port := dp, slot := j }] else []
    | some i => s.relayPorts a b i p.head.tc
/-- R58: the path of a packet queued now; a retry takes another than the one that it has tried, if there is one (R70). -/
def State.plan (s : State) (a b : Nat) (p : Pkt) (avoid : Option (Nat × Option (BitVec 8))) : Option Plan :=
  let ks := s.plans a b p
  match ks.find? fun k => some k.path != avoid with
  | some k => some k
  | none => ks.head?

/-! ### Sending (R50, R59, R60, R69, R70, R74) -/

/-- Cycles of the rotor in nanoseconds. -/
def rotorNs : Nat := 25600
/-- The member records of an ATREQ. -/
def recsOf (p : Pkt) : List Member :=
  if p.members.isEmpty then [{ srcdev := p.head.srcdev, srcagt := p.head.srcagt, seq := p.head.seq, opnd := p.head.opnd }] else p.members
/-- Whether a packet is a copy of an outstanding request of this device, alone or as a member. -/
def State.isCopy (s : State) (p : Pkt) (o : OReq) : Bool :=
  1 ≤ p.head.kind.toNat && p.head.kind.toNat ≤ 5 && o.pkt.head.dstdev == p.head.dstdev && o.held.cid == p.head.cid && o.held.inc == p.head.inc &&
    (recsOf p).any fun m => m.srcdev == s.conf.devnum && m.seq == o.pkt.head.seq
/-- A request's last transmission: four rotor cycles after the later of its first and its latest BUSY (R70). -/
def OReq.over (o : OReq) (now : Word) : Bool := o.tx && decide (4 * rotorNs < now.toNat - o.start.toNat)
/-- R74: class order, then the oldest GTS, then the lower source number. -/
def txBefore (a b : Tx) : Bool :=
  let k (t : Tx) : Nat := (t.pkt.head.tc.toNat * 2 ^ 64 + t.pkt.head.gts.toNat) * 2 ^ 20 + t.pkt.head.srcdev.toNat * 2 ^ 12 + t.pkt.head.srcagt.toNat
  k a ≤ k b
def txInsert (t : Tx) : List Tx → List Tx
  | [] => [t]
  | u :: us => if txBefore u t then u :: txInsert t us else t :: u :: us
/-- Whether a waiting packet may start now on its port: it fits in the data time, and one on its first hop of two in the space that the
partner has advertised (R59, R60). -/
def State.fits (s : State) (t : Tx) : Bool :=
  (s.port t.port).up && pktSize t.pkt ≤ s.portLeft t.port && (!t.hop || (s.port t.port).relayed + pktSize t.pkt ≤ s.adverts.get 0 t.port)
/-- The packets that may start now on a port, in their order: those of the egress queue, and those relayed here whose slot it is. -/
def State.ready (s : State) (p : Nat) : List Tx :=
  ((s.txq.filter fun t => t.port == p && t.slot ≤ s.slotNo && s.fits t) ++ (s.relay.filter fun t => t.port == p && t.slot == s.slotNo && s.fits t)).foldr txInsert []
/-- A packet as its port transmits it: one of this device with its device number and the GTS of this transmission (R50, R70), one on its
second hop with RLY set. -/
def State.stamped (s : State) (t : Tx) : Pkt :=
  if t.relayed then { t.pkt with head := { t.pkt.head with rly := true } }
  else { t.pkt with head := { t.pkt.head with srcdev := s.conf.devnum, gts := s.gts } }
/-- Transmits a waiting packet. -/
def State.transmit (s : State) (t : Tx) : State :=
  let p := s.stamped t
  let (line, q) := (s.port t.port).send (pktFlits p)
  let q := if t.hop then { q with relayed := q.relayed + pktSize p } else q
  { s with ports := s.ports.set {} t.port (if t.retry then q.rtry1 else q), txq := s.txq.erase t, relay := s.relay.erase t, out := s.out ++ [.pkt t.port p line],
           oreqs := if t.relayed then s.oreqs else
             s.oreqs.map fun o => if s.isCopy p o then { o with sent := s.gts, start := if o.tx then o.start else s.gts, tx := true } else o }
/-- Sends a port's packets in their order, up to one that waits for its RELAY_FORWARD; a copy of a request whose period of retry is over is not
sent (R70). -/
def State.portSend (s : State) (p : Nat) : Nat → State
  | 0 => s
  | n + 1 =>
    match s.ready p with
    | [] => s
    | t :: _ =>
      if t.relayed then s
      else if s.oreqs.any fun o => s.isCopy t.pkt o && o.over s.gts then ({ s with txq := s.txq.erase t } : State).portSend p n
      else (s.transmit t).portSend p n
/-- Sends on every port. -/
def State.sendAll (s : State) : State := (List.range 16).foldl (fun s p => s.portSend p s.txq.length) s
/-- The atomics that a wait buffer holds (R72): those waiting in it, and the members kept for their results. -/
def State.bufUsed (s : State) (die : Nat) : Nat :=
  ((s.txq ++ s.relay).filter fun t => t.buf && portDie t.port == die).length + ((s.combs.filter fun c => c.die == die).map fun c => c.members.length).sum
/-- Whether a packet that begins to wait on a port finds room in the wait buffer of its edge die. -/
def State.bufRoom (s : State) (p : Pkt) (port : Nat) : Bool := p.head.kind == 3 && s.bufUsed (portDie port) < 256
/-- Queues a packet of this device for its slot on the path of R58, and the plan; none, for a packet without a path. -/
def State.placeTx (s : State) (p : Pkt) (retry : Bool) (avoid : Option (Nat × Option (BitVec 8))) : Option (Plan × State) := do
  let a ← s.at_
  let b ← s.pos p.head.dstdev
  let k ← s.plan a b p avoid
  let p := { p with head := { p.head with srcdev := s.conf.devnum, rly := false, rlydev := k.relay.getD 0, gts := s.gts } }
  let t : Tx := { pkt := p, port := k.port, slot := k.slot, since := s.cycle, retry := retry, hop := k.relay.isSome, buf := s.bufRoom p k.port }
  pure (k, { s with txq := s.txq ++ [t], oreqs := s.oreqs.map fun o => if s.isCopy p o then { o with path := some k.path } else o })
/-- Queues a packet of this device for its slot, and starts what may start (R58). A packet without a path is not queued. -/
def State.enqueueFor (s : State) (p : Pkt) (retry : Bool) (avoid : Option (Nat × Option (BitVec 8))) : State :=
  match s.placeTx p retry avoid with
  | some (k, s) => if k.slot == s.slotNo then s.portSend k.port s.txq.length else s
  | none => s
def State.enqueue (s : State) (p : Pkt) : State := s.enqueueFor p false none
/-- Queues again, from this slot on, the packets that their slots did not hold. -/
def State.requeue (s : State) : List Tx → State
  | [] => s
  | t :: ts => (match s.placeTx t.pkt t.retry none with | some (_, s) => s | none => s).requeue ts

/-! ### Slots and time (R56, R59, R76) -/

/-- Flits of relay space on each edge die: 8 MiB (R59). -/
def relaySpace : Nat := 2 ^ 17
/-- The relay space left on an edge die. -/
def State.relayLeft (s : State) (die : Nat) : Nat := relaySpace - ((s.relay.filter fun t => portDie t.from_ == die).map fun t => pktSize t.pkt).sum
/-- What a device sends to its partner on a port at the start of a slot: TSYNC with its GTS, and the relay space that it will accept in the
slot, of which each of the die's eight ports offers at most an eighth. -/
def State.greet (s : State) (p : Nat) : State :=
  if !(s.port p).up || (s.partner p s.slotNo).isNone then s else
  let n := (Config.freeWord (s.freeCtr + 300 + p)).toNat % (s.relayLeft (portDie p) / 8 + 1)
  match (s.port p).send [(2, flitBits { kind := 0x0A, srcdev := s.conf.devnum, dstdev := (s.partner p s.slotNo).getD 0, gts := s.gts })] with
  | ([f], q) => { s with ports := s.ports.set {} p q, out := s.out ++ [.tsync p f, .advert p n] }
  | _ => s
/-- A port as a slot starts: nothing sent, nothing to replay. -/
def Port.slotStart (p : Port) : Port := { p with used := 0, relayed := 0, replay := [] }
/-- Counts packets that could not be forwarded (R59). -/
def State.dropTx (s : State) : List Tx → State
  | [] => s
  | t :: ts => (s.modPort t.port Port.bad1).dropTx ts
/-- The count of consecutive cycles within 20 ns of the root, at a cycle boundary: the root agrees with itself, and a device that has not met
it in the cycle before starts again (R76). -/
def State.cycleTsok (s : State) (root : Nat) : Nat :=
  if s.conf.devnum.toNat == root then Nat.min 64 (s.tsok + 1) else if s.tsLast + 1 < s.slotNo / 16 then 0 else s.tsok
/-- R56, R59, R76: ROTOR_SLOT_START: the next slot with the partners' adverts; a packet that its slot did not hold is queued again, or at a relay
dropped; at a cycle boundary the lowest live device is root. -/
def execRotorSlotStart (adverts : List (Nat × Nat)) (s : State) : Result :=
  let n := s.slotNo + 1
  let late := s.txq.filter fun t => t.slot < n
  let missed := s.relay.filter fun t => t.slot < n
  let s := { s with slotNo := n, slotAt := s.gts, adverts := adverts.foldl (fun (m : SMap Nat) (x : Nat × Nat) => m.set 0 x.1 x.2) [], txq := s.txq.filter (fun t => n ≤ t.slot),
                    relay := s.relay.filter (fun t => n ≤ t.slot),
                    ports := (List.range 16).foldl (fun (m : SMap Port) p => m.modify {} p Port.slotStart) s.ports }
  let s := if n % 16 == 0 then
      let root := (s.posTab.head?.map (·.1)).getD s.conf.devnum.toNat
      { s with root := root, tsok := s.cycleTsok root }
    else s
  .next ((((s.dropTx missed).requeue late) |> fun s => (List.range 16).foldl State.greet s).sendAll)

/-- Half of an offset measured twice. -/
def halfInt (x : Int) : Int := x / 2
/-- R76: TSYNC from a partner, with its GTS when it sent it and when it received this device's: from the root, GTS steps forward when it is more
than 1 µs behind, and otherwise the rate is trimmed; cycles within 20 ns are counted. -/
def execTsync (dev : Nat) (gts echo : BitVec 64) (s : State) : Result :=
  if dev != s.root || s.conf.devnum.toNat == s.root then .next s else
  let off := halfInt (((echo.toNat : Int) - s.slotAt.toNat) + ((gts.toNat : Int) - s.gts.toNat))
  let cyc := s.slotNo / 16
  let near := decide (-20 ≤ off ∧ off ≤ 20)
  let s := { s with tsok := if !near then 0 else if cyc == s.tsLast then s.tsok else if cyc == s.tsLast + 1 then Nat.min 64 (s.tsok + 1) else 1,
                    tsLast := cyc, trim := if off < 0 then -100 else ((Config.freeWord (s.freeCtr + 320)).toNat % 101 : Nat) }
  .next (if 1000 < off then { s with gts := s.gts + BitVec.ofNat 64 off.toNat } else s)

/-! ### Requests at their issuer (R64, R65, R68, R70) -/

/-- The port on which a packet arrives: where its last sender meets this device. -/
def State.arrPort (s : State) (p : Pkt) : Nat :=
  match s.at_, s.pos (if p.head.rly then p.head.rlydev else p.head.srcdev) with
  | some a, some b => (a ^^^ b) / 16 % 16
  | _, _ => 0
/-- The key of a sequence of requests (R68). -/
def seqKey (dst : BitVec 8) (cid : BitVec 12) (inc : BitVec 10) : Nat := (dst.toNat * 4096 + cid.toNat) * 1024 + inc.toNat
/-- Whether a further SEQ fits the window after `ahead` that are still to be taken (R68). -/
def State.seqRoom (s : State) (dst : BitVec 8) (cid : BitVec 12) (inc : BitVec 10) (ahead : Nat) : Bool :=
  let n := s.seqs.get 0 (seqKey dst cid inc)
  (s.oreqs.filter fun o => o.pkt.head.dstdev == dst && o.held.cid == cid && o.held.inc == inc).all fun o => (n - o.pkt.head.seq).toNat + ahead < 4096
/-- The class in which a core's requests travel (R329). -/
def Core.tc (c : Core) : BitVec 2 := (c.task.map (·.desc.cls)).getD 0
/-- The operand fields of an atomic (Table 3.3): AOP and AQ. -/
def AtomOp.code : AtomOp → BitVec 8 × Bool
  | .add => (0, false) | .and => (1, false) | .or => (2, false) | .xor => (3, false) | .min u => (4, u) | .max u => (5, u)
  | .swp => (6, false) | .cas => (7, false) | .fadd r => (8, r)
def atomOfCode (c : BitVec 8) (q : Bool) : Option AtomOp :=
  match c.toNat with
  | 0 => some .add | 1 => some .and | 2 => some .or | 3 => some .xor | 4 => some (.min q) | 5 => some (.max q)
  | 6 => some .swp | 7 => some .cas | 8 => some (.fadd q) | _ => none
/-- Flits that hold `n` bytes. -/
def flitsOf (n : Nat) : BitVec 7 := BitVec.ofNat 7 ((n + 63) / 64)

/-- Whether a request's failure has been reported already: a copy word that has many is reported once. -/
def State.reqTold (s : State) (h : Held) : Bool := match h.act with | .cpy _ => s.flying.any fun x => x.id == h.id && x.raised | _ => false
/-- What a request's failure leaves beside its record (R70, R329, R330, R447): D ← 0, no signal; a copy word sends no more. -/
def State.reqEnd (s : State) (h : Held) : State :=
  match h.act with
  | .cpy _ =>
    match s.flying.find? fun x => x.id == h.id with
    | some x => (s.setFly { x with raised := true, allSent := true }).parentDone { h with parent := some h.id }
    | none => s
  | _ => s.deliver h 0 false
/-- A request's abandonment or refusal: a record in the issuing context, once. -/
def State.reqFail (s : State) (h : Held) (code : BitVec 8) (val : Word) (detail : BitVec 512) : State :=
  (if s.reqTold h then s else s.heldFail h code val detail).reqEnd h
/-- Sends a new request: numbered, queued and remembered; an absent destination fails at once with LINK_DOWN. -/
def State.request (s : State) (h : Held) (f : Flit) (bytes : List Byte) : State :=
  let f := { f with srcdev := s.conf.devnum, cid := h.cid, inc := h.inc, tc := (s.core h.core).tc, srcagt := BitVec.ofNat 12 h.core, crd := h.e,
                    tag := BitVec.ofNat 16 h.id, gts := s.gts, nflit := flitsOf bytes.length }
  if (s.pos f.dstdev).isNone then s.reqFail h fLinkDown h.w (flitBits f) else
  let k := seqKey f.dstdev h.cid h.inc
  let n := s.seqs.get 0 k
  let p : Pkt := { head := { f with seq := n }, bytes := bytes }
  let keep := f.kind == 1 && !isSup h.core && (s.own (s.ctx h.cid).pid).ways != 0
  ({ s with seqs := s.seqs.set 0 k (n + 1), oreqs := s.oreqs ++ [{ pkt := p, held := h, sent := s.gts, start := s.gts, keep := keep }] } : State).enqueue p
/-- The destination of a held request, when it has one. -/
def Act.dst : Act → Option (BitVec 8)
  | .rload d _ _ => some d
  | .rstore d _ _ => some d
  | .ratomic d _ _ _ _ _ _ => some d
  | .cpy j => if j.isRemote then some j.dev else none
  | _ => none
/-- The released requests to a destination that have still to take a SEQ. -/
def State.unnumbered (s : State) (dst : BitVec 8) (cid : BitVec 12) (inc : BitVec 10) : Nat :=
  (s.flying.filter fun h => h.act.dst == some dst && h.cid == cid && h.inc == inc && !h.allSent).length

/-- The partition under whose tag the L2 holds the remote lines of an entry's context (R200). -/
def State.heldPid (s : State) (h : Held) : BitVec 7 := (s.ctx h.cid).pid
/-- Whether a request is the fetch of a line under a tag of a first-level partition. -/
def OReq.fetches (o : OReq) (dev : BitVec 8) (line : Nat) : Bool := o.pkt.head.kind == 1 && o.pkt.head.dstdev == dev && o.pkt.head.addr.toNat / 64 == line
/-- Forgets to keep the line of a fetch in flight: what it returns may be older than what its context has done since (R242). -/
def State.dropFetch (s : State) (h : Held) (dev : BitVec 8) (a : Nat) : State :=
  { s with oreqs := s.oreqs.map fun o => if o.fetches dev (a / 64) && pidTag (s.heldPid o.held) == pidTag (s.heldPid h) then { o with keep := false } else o }
/-- A remote store also updates the bytes of a held copy; a remote atomic drops it (R242). -/
def State.touchLine (s : State) (h : Held) (dev : BitVec 8) (a : Nat) (v : Option Word) : State :=
  let pid := s.heldPid h
  let sh := 8 * (a % 64)
  let put (l : L2Line) (v : Word) : L2Line := { l with data := (l.data &&& ~~~(((BitVec.allOnes 64).setWidth 512) <<< sh)) ||| (v.setWidth 512 <<< sh) }
  let t := s.dropFetch h dev a
  { t with l2 := t.l2.filterMap fun l => if l.has (some dev) pid a then v.map (put l) else some l }
/-- What a remote read finds in the L2 of this device (R242): the line, which is then the latest used; nothing, where none is held or this one has been
evicted since (a free choice: other traffic of the set is not traced); or the line on its way there. -/
inductive L2Find where
  | hit (data : BitVec 512) (s : State)
  | miss (s : State)
  | coming
def State.remoteLine (s : State) (h : Held) (dev : BitVec 8) (a : Nat) : L2Find :=
  let pid := s.heldPid h
  match s.l2Find (some dev) pid a with
  | some l => if Config.freeBit (s.freeCtr + h.id) then .miss { s with l2 := s.l2.erase l } else .hit l.data (s.l2Hit l)
  | none => if s.oreqs.any fun o => o.keep && o.fetches dev (a / 64) && pidTag (s.heldPid o.held) == pidTag pid then .coming else .miss s
/-- A released entry whose effect is not at a home agent of this device starts, once everything ordered before it has been performed:
atomics enter the mesh, remote requests are sent, network transfers begin. -/
def State.sendOne (s : State) (h : Held) : State :=
  let far := h.act.farLine.isSome
  if !s.heldReady h || (far && s.blocked h []) then s else
  let gone := s.dropFly h.id
  match h.act with
  | .atomic op addr _ x y nc ks =>
    { gone with areqs := s.areqs ++ [{ op := op, addr := addr, x := x, y := y, nc := nc, ks := ks, tree := .one h, came := s.cycle }] }
  | .rload dev addr _ =>
    match gone.remoteLine h dev addr.toNat with
    | .hit data s' => { s' with areqs := s'.areqs ++ [{ tree := .one h, done := true, val := data.extractLsb' (8 * (addr.toNat % 64)) 64 }] }
    | .miss s' => if s.seqRoom dev h.cid h.inc 0 then s'.request h { kind := 1, dstdev := dev, addr := addr } [] else s
    | .coming => s
  | .rstore dev addr v =>
    if s.seqRoom dev h.cid h.inc 0 then (gone.touchLine h dev addr.toNat (some v)).request h { kind := 2, dstdev := dev, addr := addr, opnd := v } [] else s
  | .ratomic dev op addr _ x y nc =>
    if s.seqRoom dev h.cid h.inc 0 then
      (gone.touchLine h dev addr.toNat none).request h
        { kind := 3, dstdev := dev, addr := addr, opnd := x, opnd2 := y, aop := op.code.1, aq := op.code.2, nc := nc } []
    else s
  | .net op ws => gone.netStart h op.toNat ws
  | _ => s

/-! ### Packets of remote copies (R446, R447) -/

/-- Packets of a remote copy word: at most 4,096 bytes, never across a tile's run. -/
def CpyJob.packetCount (j : CpyJob) (d : TDesc) : Nat := if j.mode == 2 then j.nt * d.run else (j.len3 + 4095) / 4096
/-- The address of packet `k` at the other device and its length. -/
def CpyJob.packetAt (j : CpyJob) (d : TDesc) (k : Nat) : Word × Nat :=
  if j.mode == 2 then
    let t := k / Nat.max 1 d.run
    let i := k % Nat.max 1 d.run
    let (tid, tile) := if j.opc == 0x6E then (j.tidb, j.tb + t) else (j.tida, j.ta + t)
    (BitVec.ofNat 64 (2 ^ 63 + tid.toNat * 2 ^ 48 + tile % 2 ^ 24 * 2 ^ 24 + 4096 * i), 4096)
  else (BitVec.ofNat 64 (j.raw + 4096 * k), Nat.min 4096 (j.len3 - 4096 * k))
/-- Reads the local source of a packet, granule by granule, under the translations of its operation (R207). -/
def State.readGranules (s : State) (h : Held) (j : CpyJob) (d : TDesc) (i : Nat) : Nat → List Byte → (List Byte → List TRun → State → Adv) → Adv
  | 0, acc, k => k acc h.runs s
  | n + 1, acc, k => s.locRead h.core h.e h.runs (j.move h.core [] d i).1 fun bs runs s => s.readGranules { h with runs := runs } j d (i + 1) n (acc ++ bs) k
/-- Sends the next packet of a remote copy. -/
def State.sendPacket (s : State) (h : Held) (j : CpyJob) : State :=
  let d := s.lenDesc h.core h.e j
  if h.allSent || j.packetCount d ≤ h.k then (s.setFly { h with allSent := true }).parentDone { h with parent := some h.id }
  else if !s.seqRoom j.dev h.cid h.inc 0 then s
  else
    let (addr, len) := j.packetAt d h.k
    let h' := { h with k := h.k + 1, allSent := decide (j.packetCount d ≤ h.k + 1) }
    if j.opc == 0x6F then (s.setFly h').request h' { kind := 5, dstdev := j.dev, addr := addr, opnd := BitVec.ofNat 64 len } []
    else
      match s.readGranules h j d (128 * h.k) (len / 32) [] fun bs runs s =>
          let h' := { h' with runs := runs }
          .go ((s.setFly h').request h' { kind := 4, dstdev := j.dev, addr := addr, xr := j.xor } bs) with
      | .no => s
      | .go s => s
      | .fault c v s => s.stopFly h c v
/-- The data of packet `k` of a CPULL lands: in scratchpad at once, in a tile by an entry of its own. -/
def State.landPull (s : State) (h : Held) (j : CpyJob) (addr : Word) (bs : List Byte) : State :=
  let d := s.lenDesc h.core h.e j
  match (List.range (j.packetCount d)).find? fun k => (j.packetAt d k).1 == addr with
  | none => s
  | some k =>
    if j.mode == 3 || j.sps then
      let a := (if j.mode == 3 then j.spa3 else j.spa2) + 4096 * k
      s.modHome h fun c => { c with spad := putSpad c.spad a bs }
    else
      let t := j.tb + k / Nat.max 1 d.run
      let cells : List TCell := ((List.range bs.length).zip bs).map fun (i, b) => { tile := t, off := 4096 * (k % Nat.max 1 d.run) + i, v := b, mask := 0xFF }
      { s with nextId := s.nextId + 1,
               flying := s.flying ++ [{ id := s.nextId, core := h.core, cid := h.cid, inc := h.inc, eng := .cpy, e := h.e, act := .twrite j.tidb cells,
                                         w := h.w, slot := h.slot, parent := some h.id }] }
/-- R252: PERFORMED_AT_HOME: the operation with that number moves on at its home agent, or sends its next packet. -/
def execPerformedAtHome (idx : Nat) (s : State) : Result :=
  match s.flying.find? fun h => h.id == idx with
  | none => .next s
  | some h =>
    if !isSup h.core && !s.live h.cid h.inc then .next (s.dropFly h.id) else
    match h.act with
    | .cpy j =>
      if j.isRemote && j.dev != s.conf.devnum then
        (if !s.heldReady h || (h.k == 0 && s.blocked h []) then .next s else .next (s.sendPacket h j))
      else .next (s.performHere h)
    | .atomic .. => .next (s.sendOne h)
    | .rload .. => .next (s.sendOne h)
    | .rstore .. => .next (s.sendOne h)
    | .ratomic .. => .next (s.sendOne h)
    | .net .. => .next (s.sendOne h)
    | _ => .next (s.performHere h)

/-! ### Responses at their issuer (R65, R66, R70) -/

/-- R64: a packet that is dropped on arrival whatever its context; `kind` is the kind whose handling the step is, so a reserved KIND is
dropped. -/
def malformed (kind : BitVec 8) (p : Pkt) : Bool :=
  let f := p.head
  !p.good || f.kind != kind || f.nflit.toNat != (p.bytes.length + 63) / 64 + (p.members.length + 3) / 4 || 64 < f.nflit.toNat || (f.xr && f.kind != 4) ||
    (f.aq && !(f.kind == 3 && (f.aop == 4 || f.aop == 5 || f.aop == 8)))
/-- A packet dropped and counted on the port on which it arrived. -/
def State.countAt (s : State) (p : Pkt) (f : Port → Port) : State := s.modPort (s.arrPort p) f
/-- Whether a packet is a request. -/
def isReq (p : Pkt) : Bool := p.head.kind.toNat ≤ 5
/-- Whether a request is more than four rotor cycles old (R69). -/
def State.overAge (s : State) (p : Pkt) : Bool := isReq p && decide (4 * rotorNs < s.gts.toNat - p.head.gts.toNat)
/-- A packet for another device that arrives here on its first hop waits for its second (R59), within the relay space of the edge die that
received it, with its incarnation live (R66, Table 6.3), and a request within the age limit (R69). -/
def State.takeRelay (s : State) (p : Pkt) : State :=
  match s.at_, s.pos p.head.dstdev with
  | some a, some b =>
    let d := a ^^^ b
    let from_ := s.arrPort p
    if p.head.rly || p.head.rlydev != s.conf.devnum || s.overAge p || s.relayLeft (portDie from_) < pktSize p then s.countAt p Port.bad1
    else if !s.live p.head.cid p.head.inc then s.countAt p (if isReq p then Port.stale1 else Port.orph1)
    else
      let port := d / 16 % 16
      { s with relay := s.relay ++ [{ pkt := p, port := port, slot := nextSlot (s.slotNo + 1) (d % 16), since := s.cycle, buf := s.bufRoom p port, relayed := true, from_ := from_ }] }
  | _, _ => s.countAt p Port.bad1
/-- Handles an arriving response: malformed ones and those of another device aside. -/
def State.arrive (s : State) (kind : BitVec 8) (p : Pkt) (k : State) : Result :=
  if malformed kind p then .next (s.countAt p Port.bad1)
  else if p.head.dstdev != s.conf.devnum then .next (s.takeRelay p)
  else .next k
/-- The outstanding request that a response answers: that of its SEQ and TAG (a member's result comes from its combining point, R73). -/
def State.answered (s : State) (p : Pkt) (kinds : List Nat) : Option OReq :=
  s.oreqs.find? fun o => o.pkt.head.tag == p.head.tag && o.held.cid == p.head.cid && o.held.inc == p.head.inc && o.pkt.head.seq == p.head.seq &&
    kinds.contains o.pkt.head.kind.toNat
/-- A request is no longer outstanding; copies of it that still wait for their slot are not sent. -/
def State.dropReq (s : State) (o : OReq) : State :=
  { s with oreqs := s.oreqs.filter (· != o), txq := s.txq.filter fun t => !(t.pkt.members.isEmpty && s.isCopy t.pkt o) }
/-- A BUSY response extends the period of retry (R70). -/
def State.busyReq (s : State) (o : OReq) : State :=
  { s with oreqs := s.oreqs.map fun x => if x == o then { x with busy := true, start := s.gts } else x }
/-- The fault of a RANGE response (R65). -/
def rangeFault (addr : Word) : BitVec 8 := if addr.getLsbD 63 then fTensorBounds else fRawWindow
/-- Its value: the address, and for a copy word the word (R440). -/
def rangeVal (h : Held) (addr : Word) : Word := match h.act with | .cpy _ => h.w | _ => addr
/-- What a response to a request other than an atomic does. An uncorrectable error at the destination is a device-class fault, restart "stopped". -/
def State.respond (s : State) (p : Pkt) (kinds : List Nat) (ok : OReq → State → State) : State :=
  match s.answered p kinds with
  | none => s.countAt p Port.orph1
  | some o =>
    let h := o.held
    if !isSup h.core && !s.live h.cid h.inc then (s.dropReq o).countAt p Port.orph1
    else
      match p.head.status.toNat with
      | 0 => ok o (s.dropReq o)
      | 3 => s.busyReq o
      | 2 => (s.dropReq o).reqFail h (rangeFault o.pkt.head.addr) (rangeVal h o.pkt.head.addr) 0
      | _ => (if s.reqTold h then s.dropReq o else (s.dropReq o).heldStop h fEccUe o.pkt.head.addr).reqEnd h
/-- R65: DATA completes an LDREQ, whose line may be kept (R242), or a PULLREQ. -/
def execData (p : Pkt) (s : State) : Result :=
  s.arrive 6 p (s.respond p [1, 5] fun o s =>
    let h := o.held
    match h.act with
    | .cpy j => (s.landPull h j o.pkt.head.addr p.bytes).parentDone { h with parent := some h.id }
    | _ =>
      let a := o.pkt.head.addr.toNat
      let v : Word := bitsOf 64 ((p.bytes.drop (a % 64)).take 8)
      let pid := s.heldPid h
      let new := o.keep && (s.l2Find (some o.pkt.head.dstdev) pid a).isNone
      let s := if new then s.l2Put pid { dev := some o.pkt.head.dstdev, pid := pidTag pid, addr := a / 64, data := bitsOf 512 p.bytes } else s
      s.deliver h v true)
/-- R65: ACK completes a STREQ or a PUSH. -/
def execAck (p : Pkt) (s : State) : Result :=
  s.arrive 7 p (s.respond p [2, 4] fun o s =>
    let h := o.held
    match h.act with
    | .cpy _ => s.parentDone { h with parent := some h.id }
    | _ => s.heldSig h)
/-- The result of an atomic that this device issued (R73, R329). -/
def State.atomAnswer (s : State) (p : Pkt) (status : Nat) (v : Word) : State :=
  match s.answered p [3] with
  | none => s.countAt p Port.orph1
  | some o =>
    let h := o.held
    if !isSup h.core && !s.live h.cid h.inc then (s.dropReq o).countAt p Port.orph1
    else if status == 3 then s.busyReq o
    else if status == 2 then (s.dropReq o).reqFail h (rangeFault o.pkt.head.addr) o.pkt.head.addr 0
    else if status == 1 then ((s.dropReq o).deliver h 0 true).raise h.core .cc fAtomPoison o.pkt.head.addr h.e false 0
    else (s.dropReq o).deliver h v true
/-- The results of one combined packet's part, in an ATRESP of its own: with its members' records when it is itself combined. -/
def partResp (p q : Pkt) (vs : List Word) : Pkt :=
  let h : Flit := { p.head with srcdev := p.head.dstdev, dstdev := q.head.srcdev, srcagt := q.head.srcagt, seq := q.head.seq, tag := q.head.tag, opnd := vs.headD 0, nmem := q.head.nmem,
                                nflit := q.head.nflit, rly := false, rlydev := 0 }
  { head := h, members := (q.members.zip vs).map fun (m, v) => { m with opnd := v } }
/-- A combining point gives each member its result, under that member's SEQ and TAG, in serial order (R73); STATUS is that of every member. -/
def State.splitResp (s : State) (p : Pkt) (vs : List Word) : List Pkt → State
  | [] => s
  | q :: qs =>
    let n := (recsOf q).length
    let r := partResp p q (vs.take n)
    (if q.head.srcdev == s.conf.devnum && q.members.isEmpty then s.atomAnswer r p.head.status.toNat r.head.opnd else s.enqueue r).splitResp p (vs.drop n) qs
/-- R73: ATRESP returns each member's result. -/
def execAtresp (p : Pkt) (s : State) : Result :=
  s.arrive 8 p (match s.combs.find? fun c => c.tag == p.head.tag && p.head.nmem != 0 with
    | some c => ({ s with combs := s.combs.filter (· != c) } : State).splitResp p (p.members.map (·.opnd)) c.members
    | none => s.atomAnswer p p.head.status.toNat p.head.opnd)

/-! ### Retransmission and abandonment (R70) -/

/-- Whether the path last planned for a request is known to have failed: its port is down, its relay absent, or it has none. -/
def State.pathFailed (s : State) (o : OReq) : Bool :=
  match o.path with
  | some (p, r) => !(s.port p).up || (match r with | some d => (s.pos d).isNone | none => false)
  | none => true
/-- Whether a copy of a request still waits for its slot. -/
def State.queued (s : State) (o : OReq) : Bool := s.txq.any fun t => s.isCopy t.pkt o
/-- Whether a request is to be retransmitted (R70). -/
def State.retryDue (s : State) (o : OReq) : Bool :=
  let since := s.gts.toNat - o.sent.toNat
  (o.tx && !s.queued o && (decide (2 * rotorNs ≤ since) || (o.busy && decide (rotorNs ≤ s.gts.toNat - o.start.toNat)))) || s.pathFailed o
/-- R70: FABRIC_RETRANSMIT: after two rotor cycles without a response, one cycle after a BUSY, or when the path has failed, on another path; never
later than four cycles after the first transmission or the latest BUSY. -/
def execFabricRetransmit (idx : Nat) (s : State) : Result :=
  match s.oreqs[idx]? with
  | none => .next s
  | some o =>
    if !s.retryDue o || o.over s.gts then .next s else
    let s := { s with txq := s.txq.filter fun t => !(t.pkt.members.isEmpty && s.isCopy t.pkt o), oreqs := s.oreqs.set idx { o with busy := false } }
    .next (s.enqueueFor o.pkt o.tx o.path)
/-- The fault of an abandoned request (R70). -/
def abandonFault (kind : BitVec 8) : BitVec 8 := if kind == 1 || kind == 5 then fLinkDown else fRemoteUncertain
def State.abandon (s : State) (o : OReq) : State :=
  if !isSup o.held.core && !s.live o.held.cid o.held.inc then s.dropReq o else
  (s.dropReq o).reqFail o.held (abandonFault o.pkt.head.kind) o.held.w (flitBits o.pkt.head)
/-- R70: FABRIC_ABANDON: four rotor cycles and 1 µs after the last transmission without a response other than BUSY; a request that has never been
sent, because its destination is now absent, at once and with LINK_DOWN. -/
def execFabricAbandon (idx : Nat) (s : State) : Result :=
  match s.oreqs[idx]? with
  | none => .next s
  | some o =>
    if !o.tx && (s.pos o.pkt.head.dstdev).isNone then .next ((s.dropReq o).reqFail o.held fLinkDown o.held.w (flitBits o.pkt.head))
    else if s.gts.toNat - o.sent.toNat < 4 * rotorNs + 1000 then .next s else .next (s.abandon o)

/-! ### Combining and relays (R59, R72, R73) -/

/-- The packets waiting here: in the egress queues, then those held for their second hop. -/
def State.waiting (s : State) : List Tx := s.txq ++ s.relay
/-- The order in which two packets came to a combining point: arrival, and in one cycle the lower source number of the first member (R73). -/
def combBefore (a b : Tx) : Bool :=
  let n (t : Tx) : Nat := match recsOf t.pkt with | m :: _ => m.srcdev.toNat * 4096 + m.srcagt.toNat | [] => 0
  a.since < b.since || (a.since == b.since && n a ≤ n b)
/-- Whether two waiting packets combine, X first (R72, R73): they wait in the wait buffer of one combining point, and X came first. -/
def mayMerge (x y : Tx) : Bool :=
  let (f, g) := (x.pkt.head, y.pkt.head)
  f.kind == 3 && g.kind == 3 && f.dstdev == g.dstdev && f.addr == g.addr && f.aop == g.aop && f.aq == g.aq && f.cid == g.cid && f.inc == g.inc &&
    !f.nc && !g.nc && (match atomOfCode f.aop f.aq with | some op => op.combines false | none => false) && (recsOf x.pkt).length + (recsOf y.pkt).length ≤ 64 &&
    x.buf && y.buf && x.relayed == y.relayed && portDie x.port == portDie y.port && combBefore x y
/-- The packets that a waiting one stands for: those that this device combined, or itself. -/
def State.partsOf (s : State) (p : Pkt) : List Pkt :=
  match s.combs.find? fun c => c.tag == p.head.tag && p.head.nmem != 0 && p.head.srcdev == s.conf.devnum with
  | some c => c.members
  | none => [p]
/-- Wait-buffer entries whose members can no longer be answered. -/
def State.freshCombs (s : State) : List CombRec := s.combs.filter fun c => s.gts.toNat - c.made.toNat ≤ 12 * rotorNs
/-- R72, R73: ATREQ_COMBINE: waiting ATREQ `y` reaches a combining point that holds `x`. -/
def execAtreqCombine (x y : Nat) (s : State) : Result :=
  match s.waiting[x]?, s.waiting[y]? with
  | some a, some b =>
    if x == y || !mayMerge a b then .next s else
    let tag : BitVec 16 := BitVec.ofNat 16 s.nextId
    let ms := recsOf a.pkt ++ recsOf b.pkt
    let c : Pkt := { head := { a.pkt.head with srcdev := s.conf.devnum, nmem := BitVec.ofNat 8 ms.length, nflit := BitVec.ofNat 7 ((ms.length + 3) / 4), tag := tag },
                     bytes := [], members := ms }
    let parts := s.partsOf a.pkt ++ s.partsOf b.pkt
    let keep := s.freshCombs.filter fun k => !(k.tag == a.pkt.head.tag && a.pkt.head.nmem != 0) && !(k.tag == b.pkt.head.tag && b.pkt.head.nmem != 0)
    let sub (q : Tx) : Option Tx := if q == a then some { a with pkt := c } else if q == b then none else some q
    let s' : State := { s with nextId := s.nextId + 1, combs := keep ++ [{ tag := tag, die := portDie a.port, members := parts, made := s.gts }],
                               txq := s.txq.filterMap sub, relay := s.relay.filterMap sub }
    .next (s'.modPort a.port Port.comb1)
  | _, _ => .next s
/-- R59: RELAY_FORWARD: in the slot of its second hop, when its turn has come on its port (R74), a packet goes on, with RLY set; a request that has
become stale or too old, and a packet that cannot go, is dropped and counted. -/
def execRelayForward (idx : Nat) (s : State) : Result :=
  match s.relay[idx]? with
  | none => .next s
  | some t =>
    let gone := { s with relay := s.relay.eraseIdx idx }
    if s.slotNo < t.slot then .next s
    else if !s.live t.pkt.head.cid t.pkt.head.inc then .next (gone.modPort t.from_ (if isReq t.pkt then Port.stale1 else Port.orph1))
    else if s.overAge t.pkt || t.slot < s.slotNo || !s.fits t then .next (gone.modPort t.port Port.bad1)
    else if (s.ready t.port).head? == some t then .next ((s.transmit t).portSend t.port (s.txq.length + 1))
    else .next s

/-! ### Requests at their destination (R66 to R69, R73, R459) -/

/-- The window of a source and incarnation. -/
def State.window_ (s : State) (src : BitVec 8) (cid : BitVec 12) (inc : BitVec 10) : Dedup :=
  (s.dedup.find? fun d => d.src == src && d.cid == cid && d.inc == inc).getD { src := src, cid := cid, inc := inc }
/-- Whether a SEQ lies below the window of 4,096. -/
def Dedup.below (d : Dedup) (q : BitVec 32) : Bool := let k := (d.top - q).toNat; 4096 < k && k < 2 ^ 31
def Dedup.marked (d : Dedup) (q : BitVec 32) : Bool := d.marks.contains q
/-- Marks a SEQ; the window moves up with the highest. -/
def Dedup.mark (d : Dedup) (q : BitVec 32) : Dedup :=
  let top := if (q + 1 - d.top).toNat < 2 ^ 31 then q + 1 else d.top
  { d with top := top, marks := (q :: d.marks).filter fun m => (top - m).toNat ≤ 4096 }
def State.markSeq (s : State) (src : BitVec 8) (cid : BitVec 12) (inc : BitVec 10) (q : BitVec 32) : State :=
  let d := (s.window_ src cid inc).mark q
  { s with dedup := s.dedup.filter (fun e => !(e.src == src && e.cid == cid && e.inc == inc)) ++ [d] }
/-- The response cache without entries older than eight rotor cycles. -/
def State.freshCache (s : State) : List Cached := s.rcache.filter fun c => s.gts.toNat - c.made.toNat ≤ 8 * rotorNs
def State.cached (s : State) (src : BitVec 8) (p : Pkt) (q : BitVec 32) : Option Pkt :=
  (s.freshCache.find? fun c => c.src == src && c.cid == p.head.cid && c.inc == p.head.inc && c.seq == q).map (·.resp)
def State.cacheResp (s : State) (src : BitVec 8) (p : Pkt) (q : BitVec 32) (r : Pkt) : State :=
  { s with rcache := s.freshCache ++ [{ src := src, cid := p.head.cid, inc := p.head.inc, seq := q, resp := r, made := s.gts }] }
/-- A response to a request; to a combined atomic, with its member records, each operand replaced by its result. -/
def respTo (p : Pkt) (kind : BitVec 8) (status : BitVec 8) (v : Word) (bytes : List Byte) : Pkt :=
  { head := { kind := kind, tc := p.head.tc, dstdev := p.head.srcdev, srcdev := p.head.dstdev, cid := p.head.cid, inc := p.head.inc, status := status, nmem := p.head.nmem,
              seq := p.head.seq, crd := p.head.crd, addr := p.head.addr, opnd := v, tag := p.head.tag, srcagt := p.head.srcagt,
              nflit := if p.members.isEmpty then flitsOf bytes.length else BitVec.ofNat 7 ((p.members.length + 3) / 4) },
    bytes := bytes, members := p.members.map fun m => { m with opnd := v } }
/-- Sends a response. -/
def State.reply (s : State) (r : Pkt) : State := s.enqueue r
/-- The kind of a request's response (R65). -/
def respKind (kind : BitVec 8) : BitVec 8 := if kind == 1 || kind == 5 then 6 else if kind == 3 then 8 else 7
/-- What every arriving request meets (R64, R66, R68, R69): `marked` answers one whose SEQ has been performed, `fresh` performs one that has not;
with the response cache full a request that is not marked is answered BUSY. DESIGN CHOICE (log entry 112): CID 0, under which a supervisor core's
request travels, is live at no device but the sender's: the destination drops the request as stale, and a relay forwards it. -/
def State.request_ (s : State) (kind : BitVec 8) (p : Pkt) (marked fresh : State → State) : Result :=
  if malformed kind p then .next (s.countAt p Port.bad1)
  else if p.head.dstdev != s.conf.devnum then .next (s.takeRelay p)
  else if s.overAge p then .next (s.countAt p Port.bad1)
  else if p.head.cid == 0 || !s.live p.head.cid p.head.inc then .next (s.countAt p Port.stale1)
  else
    let d := s.window_ p.head.srcdev p.head.cid p.head.inc
    if p.members.isEmpty && d.below p.head.seq then .next (s.countAt p Port.dup1)
    else if p.members.isEmpty && d.marked p.head.seq then .next (marked s)
    else if 4096 < s.freshCache.length + (recsOf p).length then .next (s.reply (respTo p (respKind kind) 3 0 []))
    else .next (fresh s)

/-- The layout unit of the edge die whose port received a request (R459): an agent with a translation cache of its own. -/
def State.edgeAgent (s : State) (p : Pkt) : Nat := 258 + portDie (s.arrPort p)
/-- The key under which a request, by its source and SEQ, keeps its pool claims at its destination (R215). -/
def edgeKey (p : Pkt) : Nat := 2 ^ 34 * (p.head.srcdev.toNat + 1) + p.head.seq.toNat
/-- Acts as the edge's layout unit for a context. -/
def State.asEdge (s : State) (p : Pkt) : State :=
  s.modCore (s.edgeAgent p) fun c => { c with task := some { cid := p.head.cid, inc := p.head.inc } }
def State.noEdge (s : State) (p : Pkt) : State := s.modCore (s.edgeAgent p) fun c => { c with task := none }
/-- The fields of a tensor address (R446). -/
def tTid (a : Word) : BitVec 10 := a.extractLsb' 48 10
def tTile (a : Word) : Nat := (a.extractLsb' 24 24).toNat
def tOff (a : Word) : Nat := (a.extractLsb' 0 24).toNat
/-- What reaching the target of a request finds: its bytes in memory, a refusal, or a wait that is answered BUSY. -/
inductive Reach where
  | ok (ks : List Nat) (s : State)
  | range
  | busy (s : State)
  | poison
/-- Reports NRES or TT_NODE at the destination once, with restart "paused" and no stop (R459); an empty pool in the partition's buffer. -/
def State.destFault (s : State) (p : Pkt) (code : BitVec 8) (val : Word) : State :=
  let k := (code, p.head.cid, p.head.inc, tTid p.head.addr, tTile p.head.addr)
  if s.destSeen.contains k then s else
  let pid : BitVec 7 := if code == fCowNoframe then (s.ctx p.head.cid).pid else 0
  let r : FRec := { code := code, cls := if code == fCowNoframe then 1 else faultClass code, cid := p.head.cid, inc := p.head.inc, gts := s.gts, src := s.src (0x100 + portDie (s.arrPort p)), crd := p.head.crd, val := val }
  { s.record pid r (s.edgeAgent p) false with destSeen := s.destSeen ++ [k] }
def State.destOk (s : State) (p : Pkt) : State :=
  { s with destSeen := s.destSeen.filter fun k => !(k.2.1 == p.head.cid && k.2.2.1 == p.head.inc && k.2.2.2.1 == tTid p.head.addr && k.2.2.2.2 == tTile p.head.addr) }
/-- The bytes that a request names (R459). -/
def State.reach (s : State) (p : Pkt) (len : Nat) (write : Bool) : Reach :=
  let a := p.head.addr
  let cid := p.head.cid
  if !a.getLsbD 63 then
    match s.rawKeys cid a len (if write then .w else .r) with
    | none => .range
    | some ks => .ok ks s
  else
    let tid := tTid a
    let s := s.asEdge p
    match s.tdesc (s.edgeAgent p) p.head.crd tid with
    | none => .range
    | some d =>
      let tile := tTile a
      if d.tiles ≤ tile || 4096 * d.run < tOff a + len || len == 0 then .range
      else if write && (d.phased || d.rdonly) then .range
      else
        let res := if write then s.writeTile (s.edgeAgent p) (edgeKey p) .cpy p.head.crd d tid tile false else s.readTile (s.edgeAgent p) .cpy p.head.crd d tid tile
        match res with
        | .run f s =>
          match s.stage2s (s.ctx cid).pid (frameAddr f + tOff a) len with
          | none => .range
          | some ks => .ok ks ((s.noEdge p).destOk p)
        | .absent s => .busy ((s.noEdge p).destFault p fNres (nresVal tid tile))
        | .fault c v => if c == fTtNode then .busy ((s.noEdge p).destFault p fTtNode v) else .range
        | .stall s => .busy (s.noEdge p)
        | .noframe q s => .busy ((s.noEdge p).destFault p fCowNoframe (BitVec.ofNat 64 q))

/-- Answers a marked LDREQ or ATREQ from the response cache. DESIGN CHOICE (log entry 113): one whose cached response has expired is dropped and
counted in FXDUP. -/
def State.answerCached (s : State) (p : Pkt) : State :=
  match s.cached p.head.srcdev p p.head.seq with
  | some r => s.reply { r with head := { r.head with tag := p.head.tag } }
  | none => s.countAt p Port.dup1
/-- R68: LDREQ: answered by DATA with the word's line; a marked one from the response cache. -/
def execLdreq (p : Pkt) (s : State) : Result :=
  s.request_ 1 p (fun s => s.answerCached p) fun s =>
    let f := p.head
    let done (s : State) (r : Pkt) : State := ((s.markSeq f.srcdev f.cid f.inc f.seq).cacheResp f.srcdev p f.seq r).reply r
    if f.addr.getLsbD 63 || f.addr.toNat % 8 != 0 then s.reply (respTo p 6 2 0 []) else
    match s.rawKeys f.cid f.addr 8 .r, s.rawKeys f.cid (BitVec.ofNat 64 (f.addr.toNat / 64 * 64)) 64 .r with
    | some ks, some line => if s.anyPoison ks then done s (respTo p 6 1 0 []) else done s (respTo p 6 0 0 (line.map s.byte))
    | _, _ => s.reply (respTo p 6 2 0 [])
/-- R68: STREQ: performed once, answered by ACK. -/
def execStreq (p : Pkt) (s : State) : Result :=
  s.request_ 2 p (fun s => s.reply (respTo p 7 0 0 [])) fun s =>
    let f := p.head
    if f.addr.getLsbD 63 || f.addr.toNat % 8 != 0 then s.reply (respTo p 7 2 0 [])
    else
      match s.rawKeys f.cid f.addr 8 .w with
      | none => s.reply (respTo p 7 2 0 [])
      | some ks => ((s.writeBytes (ks.zip (leBytes f.opnd.toNat 8))).markSeq f.srcdev f.cid f.inc f.seq).reply (respTo p 7 0 0 [])
/-- One member after another of an ATREQ (R73): those marked take their cached result. -/
def State.atMembers (s : State) (p : Pkt) (op : AtomOp) (poison : Bool) : List Member → Word → State × Word × List Word
  | [], acc => (s, acc, [])
  | m :: ms, acc =>
    let d := s.window_ m.srcdev p.head.cid p.head.inc
    if d.marked m.seq then
      let v := ((s.cached m.srcdev p m.seq).map fun r => r.head.opnd).getD 0
      let (s, a, rs) := s.atMembers p op poison ms acc
      (s, a, v :: rs)
    else
      let v := if poison then 0 else acc
      let acc' := if poison then acc else op.result acc m.opnd p.head.opnd2
      let r := respTo { p with head := { p.head with srcdev := m.srcdev, seq := m.seq, srcagt := m.srcagt } } 8 (if poison then 1 else 0) v []
      let s := (s.markSeq m.srcdev p.head.cid p.head.inc m.seq).cacheResp m.srcdev p m.seq r
      let (s, a, rs) := s.atMembers p op poison ms acc'
      (s, a, v :: rs)
/-- R73: ATREQ: performed member by member at the home agent, answered by ATRESP. DESIGN CHOICE (log entry 114): a refusal (RANGE, BUSY) of a combined
ATREQ keeps its NMEM and member records, so that its STATUS is every member's. -/
def execAtreq (p : Pkt) (s : State) : Result :=
  s.request_ 3 p (fun s => s.answerCached p) fun s =>
    let f := p.head
    match atomOfCode f.aop f.aq with
    | none => s.countAt p Port.bad1
    | some op =>
      let n := match op with | .fadd _ => 4 | _ => 8
      if f.addr.getLsbD 63 || f.addr.toNat % n != 0 then s.reply (respTo p 8 2 0 [])
      else
        match s.rawKeys f.cid f.addr n .atomic with
        | none => s.reply (respTo p 8 2 0 [])
        | some ks =>
          let bad := s.anyPoison ks
          let (s, acc, rs) := s.atMembers p op bad (recsOf p) (bitsOf 64 (ks.map s.byte))
          let s := if bad then s else s.putCells (ks.zip (leBytes acc.toNat n))
          let r := respTo p 8 (if bad then 1 else 0) (rs.headD 0) []
          s.reply { r with members := (p.members.zip rs).map fun (m, v) => { m with opnd := v } }
/-- R459: PUSH: a write, or an XOR-accumulate, of each granule at its home; answered by ACK. -/
def execPush (p : Pkt) (s : State) : Result :=
  s.request_ 4 p (fun s => s.reply (respTo p 7 0 0 [])) fun s =>
    let f := p.head
    match s.reach p p.bytes.length true with
    | .range => (s.noEdge p).reply (respTo p 7 2 0 [])
    | .busy s => s.reply (respTo p 7 3 0 [])
    | .poison => s.reply (respTo p 7 1 0 [])
    | .ok ks s => ((s.writeBytes (ks.zip (mixBytes f.xr (ks.map s.byte) p.bytes))).markSeq f.srcdev f.cid f.inc f.seq).reply (respTo p 7 0 0 [])
/-- The answer to a PULLREQ: the region is read. -/
def State.pulled (s : State) (p : Pkt) : State :=
  let f := p.head
  let len := f.opnd.toNat
  if 4096 < len then s.reply (respTo p 6 2 0 []) else
  match s.reach p len false with
  | .range => (s.noEdge p).reply (respTo p 6 2 0 [])
  | .busy s => s.reply (respTo p 6 3 0 [])
  | .poison => s.reply (respTo p 6 1 0 [])
  | .ok ks s =>
    if s.anyPoison ks then s.reply (respTo p 6 1 0 [])
    else (s.markSeq f.srcdev f.cid f.inc f.seq).reply (respTo p 6 0 0 (ks.map s.byte))
/-- R68: PULLREQ: the region is read, again for a marked one; answered by DATA. -/
def execPullreq (p : Pkt) (s : State) : Result := s.request_ 5 p (fun s => s.pulled p) fun s => s.pulled p

/-! ### Device replacement (R77) -/

/-- Abandons every outstanding request to a device number. -/
def State.abandonAll (s : State) : List OReq → State
  | [] => s
  | o :: os => (s.abandon o).abandonAll os
/-- R77: HOT_SPARE_TAKEOVER at the agreed cycle: outstanding requests to N are abandoned, relayed packets for it dropped, N maps to the
spare's position; the spare takes the number with empty windows and caches. DESIGN CHOICE (log entry 115): the spare marks its own old number absent
in its table, and the other devices keep it until they are told. -/
def execHotSpareTakeover (num pos : BitVec 8) (cyc : BitVec 64) (s : State) : Result :=
  if s.slotNo != 16 * cyc.toNat then .next s else
  let s := s.abandonAll (s.oreqs.filter fun o => o.pkt.head.dstdev == num)
  let s := { s with relay := s.relay.filter (fun t => t.pkt.head.dstdev != num), txq := s.txq.filter (fun t => t.pkt.head.dstdev != num) }
  let me := s.pos s.conf.devnum == some pos.toNat
  let tab := if me then s.posTab.set 0 s.conf.devnum.toNat 0 else s.posTab
  let s := { s with posTab := tab.set 0 num.toNat (pos.toNat + 1) }
  .next (if me then { s with conf := { s.conf with devnum := num }, dedup := [], rcache := [] } else s)
/-- R77: FAILED_NUMBER_MARKED_ABSENT. -/
def execFailedNumberMarkedAbsent (num : BitVec 8) (s : State) : Result := .next { s with posTab := s.posTab.set 0 num.toNat 0 }

end Sys2Proof.Machine
end

