-- ==== Sys2Proof/Machine/ControlCfg.lean ====
section
/-! DEFINITION. System registers and engine configuration items (R78, R310 to R313, R349, R350): reading, writing, and the raw writes
that a stop's restoration shares with them. -/

namespace Sys2Proof.Machine

/-! ### System registers (R310, Table 13.17) -/

/-- FXSTAT of a port (Table 3.7). -/
def State.fxstat (s : State) (p : Port) : Word :=
  BitVec.ofNat 64 (p.act.toNat + 2 ^ 8 * p.trn.toNat + (if p.up then 2 ^ 16 else 0) + (if 64 ≤ s.tsok then 2 ^ 17 else 0) + 2 ^ 18 * (s.slotNo % 16))
/-- A fabric port register by its index (Table 3.5). -/
def State.portReg (s : State) (p i : Nat) : Word :=
  let x := s.port p
  [x.ctl, s.fxstat x, BitVec.ofNat 64 (s.slotNo / 16), x.corr, x.unc, x.repl, x.wdr, x.rtry, x.dup, x.stale, x.orph, x.comb, x.bad].getD i 0
/-- ILK: lines locked and lock ranges recorded (Table 13.17). -/
def Core.ilk (c : Core) : Word := BitVec.ofNat 64 ((c.icache.filter fun l => l.2.locked).length + 2 ^ 16 * c.locks.length)
/-- The value of a system register as core `n` reads it; none for a number that is not assigned. The block from 0x600 is the supervisor
cores' own. -/
def State.sysReg (s : State) (n k : Nat) : Option Word :=
  let c := s.core n
  let x := s.ctx c.cid
  let ofTask (f : Task → Word) : Option Word := some ((c.task.map f).getD 0)
  if k == 0x000 then some c.tvec
  else if k == 0x001 then some c.tcause
  else if k == 0x002 then some c.tepc
  else if k == 0x003 then some c.tval
  else if k == 0x010 then ofTask fun t => if t.desc.nbv then 1 else 0
  else if k == 0x011 then some (c.dbgReg.setWidth 64)
  else if k == 0x012 then some (BitVec.ofNat 64 c.hangt)
  else if k == 0x020 then some s.gts
  else if k == 0x021 then some (if isSup n then 0 else x.horiz)
  else if k == 0x022 then some (if isSup n then BitVec.allOnes 64 else x.cuteff)
  else if k == 0x023 then some c.cutw
  else if k == 0x024 then some (BitVec.ofNat 64 c.peelFree)
  else if 0x028 ≤ k && k ≤ 0x02D then some (c.stopc.get (BitVec.allOnes 64) (k - 0x028))
  else if k == 0x030 then some (c.cid.setWidth 64)
  else if k == 0x031 then some (c.inc.setWidth 64)
  else if k == 0x040 then ofTask Task.taskCrd
  else if k == 0x041 then ofTask Task.teamId
  else if k == 0x042 then ofTask fun t => t.desc.stage.setWidth 64
  else if k == 0x043 then ofTask fun t => t.launchId.setWidth 64
  else if k == 0x044 then some c.ilk
  else if 0x600 ≤ k && k ≤ 0x6FF then some (s.portReg ((k - 0x600) / 16) (k % 16))
  else if 0x700 ≤ k && k ≤ 0x703 then some (s.dorph.get 0 (k - 0x700))
  else if k == 0x704 then some s.pgdrop
  else none
/-- Whether a number lies in the block of the supervisor cores (R311). -/
def supReg (k : Nat) : Bool := 0x600 ≤ k && k ≤ 0x704
/-- Whether core `n` may write a system register (Table 13.17, Table 3.5); a write to indices 13 to 15 of a port is discarded (R78). -/
def sysRw (n k : Nat) : Bool :=
  k == 0x000 || k == 0x001 || k == 0x002 || k == 0x011 || k == 0x023 || (k == 0x012 && isSup n) ||
    (0x600 ≤ k && k ≤ 0x6FF && (k % 16 == 0 || 13 ≤ k % 16))
/-- Whether a value may be written (R156). -/
def sysOk (k : Nat) (v : Word) : Bool := k != 0x012 || v == 0 || (16 ≤ v.toNat && v.toNat ≤ 40)
/-- A core's own register takes a value, its reserved bits discarded (R8); in TCAUSE only SKIP changes. -/
def Core.putSys (c : Core) (k : Nat) (v : Word) : Core :=
  if k == 0x000 then { c with tvec := v }
  else if k == 0x001 then { c with tcause := (c.tcause &&& ~~~(1#64 <<< 12)) ||| (v &&& (1#64 <<< 12)) }
  else if k == 0x002 then { c with tepc := v }
  else if k == 0x011 then { c with dbgReg := v.setWidth 3 }
  else if k == 0x012 then { c with hangt := v.toNat }
  else if k == 0x023 then { c with cutw := v }
  else c
/-- A write of a system register by a control-core word, logged under kind 4 (R311, R318). -/
def State.putSysReg (s : State) (n : Nat) (e : Word) (k : Nat) (v : Word) : State :=
  if 0x600 ≤ k then (if k % 16 == 0 then s.turnPort ((k - 0x600) / 16) fun p => p.setCtl v else s)
  else (s.log4 n (0x800 + k) e ((s.sysReg n k).getD 0)).modCore n fun c => c.putSys k v

/-- R350: RDSR: D ← sr. -/
def execRdsr (h : Hdr) (o : SY) (s : State) : Result :=
  let w := packSY h 0x21 0 o
  let k := o.sel.toNat
  ccWord h w [] [] (fun e s' =>
    if supReg k && !isSup s.cur then .fault fPriv w else
    match s.sysReg s.cur k with
    | none => .fault fIllegal w
    | some v => .done (s'.wrS o.d e v)) s
/-- The word that writes `f sr A` to a system register. -/
def ccSysPut (h : Hdr) (w : Word) (o : SY) (f : Word → Word → Word) (s : State) : Result :=
  let k := o.sel.toNat
  ccWord h w [(o.a, o.la)] [] (fun e s' =>
    if supReg k && !isSup s.cur then .fault fPriv w else
    match s.sysReg s.cur k with
    | none => .fault fIllegal w
    | some old =>
      let v := f old (s.rdS o.a)
      if sysRw s.cur k && sysOk k v then .done (s'.putSysReg s.cur e k v) else .fault fIllegal w) s
/-- R350: WRSR: sr ← A. -/
def execWrsr (h : Hdr) (o : SY) (s : State) : Result := ccSysPut h (packSY h 0x21 1 o) o (fun _ a => a) s
/-- R350: SETSR: sr ← sr OR A. -/
def execSetsr (h : Hdr) (o : SY) (s : State) : Result := ccSysPut h (packSY h 0x21 2 o) o (fun v a => v ||| a) s
/-- R350: CLRSR: sr ← sr AND NOT A. -/
def execClrsr (h : Hdr) (o : SY) (s : State) : Result := ccSysPut h (packSY h 0x21 3 o) o (fun v a => v &&& ~~~a) s

/-! ### Engine configuration (R312, Table 13.18) -/

/-- RCFG and RPTR of a ring (Table 8.1). -/
def Ring.cfg (r : Ring) : Word := BitVec.ofNat 64 (r.base.toNat + 2 ^ 19 * r.size.toNat)
def Ring.ptrs (r : Ring) : Word := BitVec.ofNat 64 (r.tail.toNat + 2 ^ 16 * r.head.toNat + 2 ^ 32 * r.ret.toNat)
/-- A configuration item by SEL; none where none is listed. -/
def Core.cfgItem (c : Core) (sel : Nat) : Option Word :=
  let e := sel / 256
  let i := sel % 256
  if e == 0 || 5 < e then none
  else if i == 0 then some (c.eng (engOfNum e)).ring.cfg
  else if i == 1 then some (c.eng (engOfNum e)).ring.ptrs
  else if e == 2 && i == 0x10 then some c.seed
  else if e == 2 && i == 0x11 then some (c.qtemp.setWidth 64)
  else if e == 3 && 0x40 ≤ i && i ≤ 0xBF then some (c.mx.shadow.get 0 (i - 0x40))
  else if e == 4 && 0x40 ≤ i && i ≤ 0xBF then some (c.cslot.get 0 (i - 0x40))
  else none
/-- A listed RW item takes a value; reserved bits of QTEMP are discarded (R8). -/
def Core.putCfg (c : Core) (sel : Nat) (v : Word) : Core :=
  let e := sel / 256
  let i := sel % 256
  if e == 2 && i == 0x10 then { c with seed := v }
  else if e == 2 && i == 0x11 then { c with qtemp := v.setWidth 32 }
  else if e == 3 && 0x40 ≤ i && i ≤ 0xBF then { c with mx := { c.mx with shadow := c.mx.shadow.set 0 (i - 0x40) (if (i - 0x40) % 16 == 0 then v &&& ~~~(0xF#64 <<< 60) else v) } }
  else if e == 4 && 0x40 ≤ i && i ≤ 0xBF then { c with cslot := c.cslot.set 0 (i - 0x40) v }
  else c
/-- R349: ECFGW writes A to an item, logged under kind 4 (R318). -/
def execEcfgw (h : Hdr) (o : SY) (s : State) : Result :=
  let w := packSY h 0x20 0 o
  let k := o.sel.toNat
  ccWord h w [(o.a, o.la)] [] (fun e s' =>
    match s.me.cfgItem k with
    | none => .fault fIllegal w
    | some old =>
      if k % 256 < 2 then .fault fIllegal w
      else .done ((s'.log4 s.cur (0x1000 + k) e old).modCore s.cur fun c => c.putCfg k (s.rdS o.a))) s
/-- R349: ECFGR: D ← item. -/
def execEcfgr (h : Hdr) (o : SY) (s : State) : Result :=
  let w := packSY h 0x20 1 o
  ccWord h w [] [] (fun e s' =>
    match s.me.cfgItem o.sel.toNat with
    | none => .fault fIllegal w
    | some v => .done (s'.wrS o.d e v)) s

end Sys2Proof.Machine
end

