-- ==== Sys2Proof/Machine/Launch.lean ====
section
/-! DEFINITION. Launches (R98 to R128): descriptors and their checks, acceptance, the child pool and queue, placement, migration, the
start of a tile task, the return of a core, completion, and the launch processors' clocks; and the release of a phaser (R113). -/

namespace Sys2Proof.Machine

/-! ### Descriptors (R100 to R102) -/

/-- The fields of a launch descriptor (Table 5.1). -/
def LDesc.ofBits (x : BitVec 512) : LDesc :=
  let f (lo w : Nat) : Nat := x.toNat / 2 ^ lo % 2 ^ w
  { gx := f 0 16, gy := f 16 16, gz := f 32 16, tasks := f 48 3 + 1, gang := x.getLsbD 51, stage := x.extractLsb' 52 6, cls := x.extractLsb' 58 2,
    entry := x.extractLsb' 64 64, cw := [f 128 6, f 134 6, f 140 6, f 146 6, f 152 6], nbv := x.getLsbD 158, prof := x.extractLsb' 164 6,
    spimg := x.extractLsb' 192 64, splen := f 256 19, rings := [f 276 4, f 280 4, f 284 4, f 288 4, f 292 4], wtab := x.extractLsb' 320 64,
    nwait := f 384 8, dfqb := f 400 9, dfqen := x.getLsbD 409, arg := x.extractLsb' 448 64 }
/-- The reserved bits of a launch descriptor. -/
def ldescRsv (x : BitVec 512) : Bool :=
  let f (lo w : Nat) : Nat := x.toNat / 2 ^ lo % 2 ^ w
  f 60 4 != 0 || f 159 1 != 0 || f 170 22 != 0 || f 275 1 != 0 || f 296 24 != 0 || f 392 8 != 0 || f 410 38 != 0
/-- Where the rings start and end (R20). -/
def LDesc.ringBase (d : LDesc) : Nat := (d.splen + 255) / 256 * 256
def LDesc.ringEnd (d : LDesc) : Nat := d.ringBase + (d.rings.map fun k => 8 * 2 ^ k).sum
/-- The pods that a partition's launches may be given (R139, R141): its exclusive and shared ones, without those of its children. -/
def State.pods (s : State) (pid : BitVec 7) : BitVec 32 := let p := s.own pid; p.podx ||| p.pods
def popCount {w : Nat} (b : BitVec w) : Nat := ((List.range w).filter fun i => b.getLsbD i).length
/-- R102: whether a descriptor is refused with ILLEGAL. -/
def State.ldescBad (s : State) (pid : BitVec 7) (x : BitVec 512) : Bool :=
  let d := LDesc.ofBits x
  let lo := d.dfqb * 1024
  ldescRsv x || d.gx == 0 || d.gy == 0 || d.gz == 0 || 48 < d.cw.sum || x.extractLsb' 160 4 != 1 || !d.prof.getLsbD 0 ||
    d.rings.any (fun k => k < 6 || 12 < k) || d.splen % 256 != 0 || spadEnd < d.splen || spadEnd < d.ringEnd ||
    (d.dfqen && (lo < d.ringEnd || spadEnd < lo + 32768)) || (d.gang && popCount (s.pods pid) * (8 / d.tasks) < d.teams)
/-- R102: whether ENTRY, SPIMG or WTAB lies outside the context's raw windows: the 8 bytes at ENTRY in one that grants X, the whole image and the whole
wait table in ones that grant R (DESIGN CHOICE: the rule names neither a permission nor a length). -/
def State.ldescOut (s : State) (cid : BitVec 12) (d : LDesc) : Bool :=
  (s.rawKeys cid d.entry 8 .x).isNone || (d.spimg != 0 && d.splen != 0 && (s.rawKeys cid d.spimg d.splen .r).isNone) ||
    (d.nwait != 0 && (s.rawKeys cid d.wtab (8 * d.nwait) .r).isNone)
/-- A descriptor read and checked: its fields, or the fault of its refusal. -/
def State.ldesc (s : State) (cid : BitVec 12) (addr : Word) : LDesc ⊕ BitVec 8 :=
  if addr.toNat % 64 != 0 then .inr fRawWindow else
  match s.rawKeys cid addr 64 .r with
  | none => .inr fRawWindow
  | some ks =>
    let x : BitVec 512 := bitsOf 512 (ks.map s.byte)
    let d := LDesc.ofBits x
    if s.ldescBad (s.ctx cid).pid x then .inr fIllegal else if s.ldescOut cid d then .inr fRawWindow else .inl d

/-! ### Acceptance (R103, R104, R107) -/

def State.launch (s : State) (k : Nat) : Launch := (s.launches.get none k).getD {}
/-- The compute dies that hold pods of a partition, in ascending order. -/
def State.partDies (s : State) (pid : BitVec 7) : List Nat := (List.range 4).filter fun d => (s.pods pid).extractLsb' (8 * d) 8 != 0
/-- The die at index STAGE of a partition that spans several dies (R121). -/
def State.stageDie (s : State) (pid : BitVec 7) (stage : BitVec 6) : Option Nat :=
  let ds := s.partDies pid
  if ds.length < 2 then none else ds[stage.toNat % ds.length]?
/-- The base of a launch accepted from a LAUNCH entry (R104). -/
def State.launchBase (s : State) (cid : BitVec 12) : Word := phaseOf (s.ctx cid).horiz ++ (0#48)
/-- Adds a launch, with the next LAUNCHID of its context. -/
def State.addLaunch (s : State) (l : Launch) : State :=
  let c := s.ctx l.cid
  ({ s with launches := s.launches.set none s.nextLaunch (some { l with id := c.launchCtr, inc := c.inc, since := s.gts }), nextLaunch := s.nextLaunch + 1 } : State).modCtx l.cid
    fun c => { c with launchCtr := c.launchCtr + 1 }

/-! ### SPAWN released, the child pool and the child queue (R118 to R120) -/

/-- Whether a team of a launch is WAITING. -/
def Launch.waiting (l : Launch) : Bool := l.st != .complete && l.st != .draining && (l.teams.length < l.desc.teams || l.teams.any fun t => t.st == .waiting)
/-- The entries of a die's child pool that are taken. -/
def State.poolUsed (s : State) (die : Nat) : Nat :=
  (s.launches.filter fun (_, l) => match l with | some l => l.child && l.die == die && l.waiting | none => false).length
def State.poolFree (s : State) (die : Nat) : Nat := 256 - s.poolUsed die
/-- A refused SPAWN is a user-class fault of its tile task (R102): restart "before" for a SPAWNW, which waits, else "after". -/
def State.spawnRefused (s : State) (h : Held) (code : BitVec 8) : State :=
  match h.act with
  | .spawn addr waits =>
    if !h.onCore (s.core h.core) then s.heldFail h code addr 0 else
    let s := if waits then s.modCore h.core fun c => { c with ccWait := none, savedWait := none } else s
    s.raiseFrom h.pc h.core .cc code addr h.e waits 0
  | _ => s
/-- A child launch is accepted on a die (R118), or its descriptor refused. -/
def State.acceptChild (s : State) (h : Held) (die parent : Nat) : State :=
  match h.act with
  | .spawn addr _ =>
    match s.ldesc h.cid addr with
    | .inr code => s.spawnRefused h code
    | .inl d => s.addLaunch { cid := h.cid, addr := addr, desc := d, base := h.e, die := die, parent := some parent, child := true, spawnId := h.id }
  | _ => s
/-- Whether a context's child queue has room. -/
def Ctx.cqRoom (c : Ctx) : Bool := c.cqTail - c.cqHead < 2 ^ c.cqn
/-- Appends an entry to the child queue in memory. -/
def State.cqAppend (s : State) (x : CqEnt) : State :=
  let c := s.ctx x.held.cid
  let addr := match x.held.act with | .spawn a _ => a | _ => 0
  (s.gpaPut x.held.cid (c.cqb.toNat + 16 * (c.cqTail % 2 ^ c.cqn)) 16 (addr.toNat + 2 ^ 64 * x.held.e.toNat)).modCtx x.held.cid fun c =>
    { c with cqTail := c.cqTail + 1, cq := c.cq ++ [x] }
/-- The launch of the tile task that an entry belongs to. -/
def State.parentOf (s : State) (h : Held) : Nat := ((s.core h.core).task.map (·.launch)).getD 0
/-- A released SPAWN takes its place in the pool or the child queue (R119, R120), once it may as a release (R231), and waits in the pending-spawn slot till
then; a stale one is dropped. -/
def State.spawnRelease (s : State) (h : Held) : State :=
  if !isSup h.core && !s.live h.cid h.inc then s
  else if !s.heldReady h then s.modCore h.core fun c => { c with spawnSlot := some h }
  else if isSup h.core then s.acceptChild h 0 0
  else
    let die := h.core / 64
    let c := s.ctx h.cid
    if c.cq.isEmpty && 32 < s.poolFree die then s.acceptChild h die (s.parentOf h)
    else if c.cqRoom then s.cqAppend { held := h, die := die, parent := s.parentOf h }
    else s.modCore h.core fun c => { c with spawnSlot := some h }
/-- R119: CHILD_QUEUE_MOVE. -/
def execChildQueueMove (die cid : Nat) (s : State) : Result :=
  let k : BitVec 12 := BitVec.ofNat 12 cid
  match (s.ctx k).cq with
  | [] => .next s
  | x :: xs =>
    if x.die != die || !s.syncOn die || s.poolFree die == 0 || !((s.ctx k).st == .live || (s.ctx k).st == .stopped) then .next s else
    .next ((s.modCtx k fun c => { c with cq := xs, cqHead := c.cqHead + 1 }).acceptChild x.held die x.parent)
/-- R120: PENDING_SPAWN_APPEND: a SPAWN in the pending-spawn slot of a core leaves it when it can. -/
def execPendingSpawnAppend (core : Nat) (s : State) : Result :=
  match (s.core core).spawnSlot with
  | none => .next s
  | some h =>
    .next ((s.modCore core fun c => { c with spawnSlot := none }).spawnRelease h)

/-! ### Choosing and placing (R121, R124, R125, R127) -/

/-- The pods on which a partition's teams may be placed now: its exclusive ones, and a shared one while its slice runs (R144). -/
def State.podsNow (s : State) (pid : BitVec 7) : BitVec 32 :=
  let p := s.own pid
  let mine := s.slices.foldl (fun m t => match t.ents[t.cur]? with | some (q, _) => if q == pid then m ||| t.pods else m | none => m) 0
  p.podx ||| (p.pods &&& mine)
/-- The free cores of a pod (numbered 8·die + pod), in ascending order. -/
def State.freeCores (s : State) (pod : Nat) : List Nat := ((List.range 8).map fun i => 8 * pod + i).filter fun n => (s.core n).task.isNone
/-- A team as the launch holds it: one not yet touched is WAITING. -/
def Launch.team (l : Launch) (i : Nat) : Team := (l.teams.find? fun t => t.idx == i).getD { idx := i, die := l.die, cls := l.desc.cls, since := l.since }
def Launch.setTeam (l : Launch) (t : Team) : Launch := { l with teams := l.teams.filter (fun u => u.idx != t.idx) ++ [t] }
/-- The first index at or above `i` that is not touched. -/
def Launch.firstNew (l : Launch) (i : Nat) : Nat → Nat
  | 0 => i
  | f + 1 => if l.teams.any fun t => t.idx == i then l.firstNew (i + 1) f else i
/-- Places a team among others by its grid index. -/
def teamInsert (t : Team) : List Team → List Team
  | [] => [t]
  | u :: us => if t.idx < u.idx then t :: u :: us else u :: teamInsert t us
/-- The WAITING teams that a die holds in a class, by grid index (R124). Of those not yet touched, which are alike in all that a placement asks, the
first stands for all. -/
def Launch.ready (l : Launch) (die : Nat) (cls : BitVec 2) : List Team :=
  let ts := l.teams.filter fun t => t.st == .waiting && t.die == die && t.cls == cls
  let i := l.firstNew 0 l.teams.length
  let new := if i < l.desc.teams && l.die == die && l.desc.cls == cls then [l.team i] else []
  (ts ++ new).foldr teamInsert []
/-- The pods reserved for other teams (R127). -/
def State.reservedPods (s : State) (k i : Nat) : List Nat :=
  s.launches.flatMap fun (j, l) => match l with
    | some l => l.teams.filterMap fun t => if t.st == .waiting && !(j == k && (l.desc.gang || t.idx == i)) then t.reserved else none
    | none => []
/-- The pod of a die with the fewest free cores that still holds a team (R121). -/
def State.pickPod (s : State) (pods : BitVec 32) (shut : List Nat) (tasks die : Nat) : Option Nat :=
  let fit := ((List.range 8).map fun p => 8 * die + p).filter fun p => pods.getLsbD p && !shut.contains p && tasks ≤ (s.freeCores p).length
  fit.foldl (fun m p => match m with
    | none => some p
    | some q => some (if (s.freeCores p).length < (s.freeCores q).length then p else q)) none
/-- The dies that a placement of a team on a die tries, in order. -/
def State.dieOrder (s : State) (l : Launch) (t : Team) : List Nat :=
  let first := if t.st == .transit then none else s.stageDie (s.ctx l.cid).pid l.desc.stage
  (first.toList ++ [t.die]) ++ (if l.desc.gang then s.partDies (s.ctx l.cid).pid else [])
/-- The place of a task that has ended in a team's list of cores. -/
def noCore : Nat := 1024
/-- The cores on which a team would be placed: one for each task that has not ended. A team saved away from a phase boundary waits for the cores it held (R123, R129). -/
def State.placeOf (s : State) (k : Nat) (l : Launch) (t : Team) : Option (List Nat) :=
  let left := l.desc.tasks - t.ended.length
  let pods := s.podsNow (s.ctx l.cid).pid
  if t.pin then
    let held := ((List.range l.desc.tasks).filter fun i => !t.ended.contains i).map fun i => t.cores.getD i noCore
    if held.all fun n => (s.core n).task.isNone && pods.getLsbD (n / 8) then some held else none
  else (s.dieOrder l t).findSome? fun d => (s.pickPod pods (s.reservedPods k t.idx) left d).map fun p => (s.freeCores p).take left
/-- The task that task `i` of a team starts as. -/
def Launch.task (l : Launch) (k : Nat) (t : Team) (i : Nat) : Task :=
  { cid := l.cid, inc := l.inc, launch := k, team := t.idx, t := i, base := l.base, desc := l.desc, descAddr := l.addr, launchId := l.id, superPh := l.superPh }
/-- The tile tasks from `i` on of a team, each with its core: those that have not ended take the cores in ascending order (R121, R129). -/
def Team.seats (t : Team) (i : Nat) : Nat → List Nat → List Nat
  | 0, _ => []
  | f + 1, ns =>
    if t.ended.contains i then noCore :: t.seats (i + 1) f ns
    else match ns with
      | [] => noCore :: t.seats (i + 1) f []
      | n :: ns => n :: t.seats (i + 1) f ns
/-- Locks the recorded ranges again, in order, their lines refetched (R167). -/
def State.relock (s : State) (n : Nat) : List LockRange → State
  | [] => s
  | r :: rs => (s.lockLines n r.addr r.lines).relock n rs
/-- A core whose tile task continues from its image, once the task has started again (R147). -/
def State.loadCore (s : State) (n : Nat) (t : Task) (img : Core) : State :=
  let old := s.core n
  let go := (img.task.map (·.started)).getD false
  let c : Core := { img with task := some { (img.task.getD t) with cid := t.cid, inc := t.inc, launch := t.launch, desc := t.desc, superPh := t.superPh, started := false, loaded := go },
                             icache := [], icOwner := (t.cid, t.inc), ttc := old.ttc, idle := s.cycle, hung := false, halted := old.halted }
  (s.setCore n c).relock n img.locks
/-- Assigns the tile tasks of a team to their cores; one with a saved state has it written there. -/
def State.assign (s : State) (k : Nat) (l : Launch) (t : Team) : List Nat → Nat → State
  | [], _ => s
  | n :: ns, i =>
    (if n == noCore then s else
      match t.saved.find? fun x => x.1 == i with
      | some (_, _, img) => s.loadCore n (l.task k t i) img
      | none => s.modCore n fun c => { c with task := some (l.task k t i) }).assign k l t ns (i + 1)
/-- The operations of a team's saved tasks that wait for the outside world follow the tasks to their new cores. -/
def State.rehome (s : State) (l : Launch) (t : Team) (cores : List Nat) : State :=
  let f (h : Held) : Held := if h.cid == l.cid && h.inc == l.inc then
      (match t.saved.find? fun x => x.2.1 == h.core with | some (i, _, _) => { h with core := cores.getD i h.core } | none => h)
    else h
  { s with ueOps := s.ueOps.map (fun u => { u with held := f u.held }), recvs := s.recvs.map fun r => { r with held := f r.held } }
/-- A team is placed: PLACED on its cores, and its launch RUNNING. -/
def State.placeTeam (s : State) (k : Nat) (l : Launch) (t : Team) (cores : List Nat) : State :=
  let t' : Team := { t with st := .placed, cores := t.seats 0 l.desc.tasks cores, die := (cores.headD 0) / 64, reserved := none }
  let l' := { l.setTeam t' with st := if l.st == .ready then .running else l.st, next := Nat.max l.next (t.idx + 1) }
  ((({ s with launches := s.launches.set none k (some { l.setTeam { t' with saved := [] } with st := l'.st, next := l'.next }) } : State)).rehome l t t'.cores).assign k l' t' t'.cores 0
/-- The phaser with which a GANG launch registers every tile task (R109, R112). -/
def gangPhaser (k : Nat) (l : Launch) : Phaser :=
  let p : Word := (phaseOf l.base).setWidth 64
  let ms := (List.range l.desc.teams).flatMap fun i => (List.range l.desc.tasks).map fun t => (i, t)
  { owner := some (l.cid, l.inc), counter := p, super := true,
    members := ms.map fun (i, t) => { launch := k, team := i, t := t, core := 0, mode := 3, ms := p, mw := p, since := p } }
/-- Records where the members of a launch run (R112, R116). -/
def State.seatMembers (s : State) (k : Nat) : State :=
  let l := s.launch k
  { s with phasers := s.phasers.map fun (n, p) => (n, { p with members := p.members.map fun m =>
      if m.launch == k then { m with core := (l.team m.team).cores.getD m.t m.core } else m }) }
/-- Places the teams of a GANG launch one after another; none when one does not fit. -/
def State.placeAll (s : State) (k : Nat) : List Nat → Option State
  | [] => some s
  | i :: is =>
    let l := s.launch k
    let t := l.team i
    if t.st != .waiting then s.placeAll k is else
    match s.placeOf k l t with
    | none => none
    | some cs => (s.placeTeam k l t cs).placeAll k is
/-- A GANG launch is placed together, with a free superstep phaser of the die that holds team 0 (R109). A launch that already has its
phaser, loaded from an image, keeps it. -/
def State.placeGang (s : State) (k : Nat) : Option State :=
  match s.placeAll k (List.range (s.launch k).desc.teams) with
  | none => none
  | some s' =>
    if (s.launch k).superPh.isSome then some (s'.seatMembers k) else
    let die := ((s'.launch k).team 0).die
    match (List.range 64).find? fun i => (s.phaser (BitVec.ofNat 12 (1024 * die + i))).isFree with
    | none => none
    | some i =>
      let ph : BitVec 12 := BitVec.ofNat 12 (1024 * die + i)
      let s' := (s'.setPhaser ph (gangPhaser k (s.launch k))).modLaunch k fun l => { l with superPh := some ph }
      let seat (c : Core) : Core := { c with task := c.task.map fun t => if t.launch == k then { t with superPh := some ph } else t }
      let s' : State := { s' with cores := s'.cores.map fun x => (x.1, seat x.2) }
      some (s'.seatMembers k)
/-- Whether a launch's teams may be placed: its context is LIVE, and no stop was pending when it came (R107). -/
def State.mayPlace (s : State) (l : Launch) : Bool := (s.ctx l.cid).st == .live && (s.ctx l.cid).inc == l.inc && !l.late
/-- The die to which a team may migrate (R122): it fits none of its partition's pods on its own die, and that die is the nearest with a
pod of the partition that has enough free cores. -/
def State.migrateTo (s : State) (k : Nat) (l : Launch) (t : Team) : Option Nat :=
  let pods := s.podsNow (s.ctx l.cid).pid
  let fits (d : Nat) : Bool := (s.pickPod pods (s.reservedPods k t.idx) (l.desc.tasks - t.ended.length) d).isSome
  if l.desc.gang || t.pin || fits t.die then none else
  ((List.range 4).filter fun d => d != t.die && fits d).foldl (fun m d => match m with
    | none => some d
    | some x => some (if dieDist t.die d < dieDist t.die x then d else x)) none
/-- The teams of a partition that a die holds WAITING in a class, by their launches' order of acceptance, then by grid index. -/
def State.readyIn (s : State) (die : Nat) (cls : BitVec 2) (pid : Nat) : List (Nat × Launch × Team) :=
  s.launches.flatMap fun (k, l) => match l with
    | some l => if (s.ctx l.cid).pid.toNat == pid && l.waiting && s.mayPlace l then (l.ready die cls).map fun t => (k, l, t) else []
    | none => []
/-- The partitions with a ready team in a class, in the order in which R125 serves them. -/
def State.partOrder (s : State) (die : Nat) (cls : BitVec 2) : List Nat :=
  let last := s.rotLast.get 0 (4 * die + cls.toNat)
  let ps := ((List.range 128).map fun i => (last + 1 + i) % 128).filter fun p => !(s.readyIn die cls p).isEmpty
  let rich := ps.filter fun p => 0 < (s.part (BitVec.ofNat 7 p)).deficit
  if rich.isEmpty then ps else rich
/-- The candidates of a die in the order of R124. -/
def State.candidates (s : State) (die : Nat) : List (Nat × BitVec 2 × Nat × Launch × Team) :=
  (List.range 4).flatMap fun c =>
    let cls := BitVec.ofNat 2 c
    (s.partOrder die cls).flatMap fun p => (s.readyIn die cls p).map fun x => (p, cls, x)
/-- The pod of a team's partition with the most free cores (R127). -/
def State.reservePod (s : State) (l : Launch) : Option Nat :=
  let pods := s.podsNow (s.ctx l.cid).pid
  let ps := (List.range 32).filter fun p => pods.getLsbD p
  ps.foldl (fun m p => match m with | none => some p | some q => some (if (s.freeCores q).length < (s.freeCores p).length then p else q)) none
/-- Places the first candidate that fits; a team at class 0 that is passed over reserves a pod (R127). -/
def State.placeFirst (s : State) (die : Nat) : List (Nat × BitVec 2 × Nat × Launch × Team) → State
  | [] => s
  | (p, cls, k, l, t) :: xs =>
    let served (s : State) : State := { s with rotLast := s.rotLast.set 0 (4 * die + cls.toNat) p }
    let placed : Option State := if l.desc.gang then s.placeGang k else (s.placeOf k l t).map fun cs => (s.placeTeam k l t cs).seatMembers k
    match placed with
    | some s' => served s'
    | none =>
      let s := if cls == 0 && t.reserved.isNone && (s.migrateTo k l t).isNone then
          s.modLaunch k fun l => l.setTeam { t with reserved := s.reservePod l }
        else s
      s.placeFirst die xs
/-- R121, R124: TEAM_PLACE. -/
def execTeamPlace (die : Nat) (s : State) : Result := .next (if s.syncOn die then s.placeFirst die (s.candidates die) else s)

/-- A team's number: its launch and its grid index. -/
def teamLaunch (team : Nat) : Nat := team / 2 ^ 48
def teamIdx (team : Nat) : Nat := team % 2 ^ 48
/-- R122: TEAM_MIGRATE: a ready team that fits no pod of its die leaves for the nearest die with room. -/
def execTeamMigrate (team die : Nat) (s : State) : Result :=
  let k := teamLaunch team
  let l := s.launch k
  let t := l.team (teamIdx team)
  if l.desc.teams ≤ teamIdx team || t.st != .waiting || !l.waiting || !s.syncOn t.die || !s.mayPlace l || s.migrateTo k l t != some die then .next s else
  .next (s.modLaunch k fun l => l.setTeam { t with st := .transit, die := die })
/-- R122: TEAM_MIGRATION_ARRIVAL: the team is placed on the target's pods, or WAITS there. -/
def execTeamMigrationArrival (team : Nat) (s : State) : Result :=
  let k := teamLaunch team
  let l := s.launch k
  let t := l.team (teamIdx team)
  if t.st != .transit || !s.syncOn t.die then .next s else
  let w := s.modLaunch k fun l => l.setTeam { t with st := .waiting }
  if !s.mayPlace l then .next w else
  match s.placeOf k l t with
  | some cs => .next ((w.placeTeam k (w.launch k) ((w.launch k).team t.idx) cs).seatMembers k)
  | none => .next w

/-! ### The start of a tile task (R99, R105, R147) -/

/-- HANGT of a partition's cores (R156). -/
def Part.hang (p : Part) : Nat := if p.hangt == 0 then 30 else if p.hangt == 1 then 0 else p.hangt.toNat
/-- The five rings of a task (R20), each from its base. -/
def ringsAt (a : Nat) : List Nat → List Ring
  | [] => []
  | k :: ks => { base := BitVec.ofNat 19 a, size := BitVec.ofNat 4 k } :: ringsAt (a + 8 * 2 ^ k) ks
/-- An engine at the start of a task. -/
def engAt (base : Word) (r : Ring) : EngSt := { crd := base, elast := base, ring := r }
/-- A core as a tile task finds it (R105). -/
def State.startCore (s : State) (old : Core) (t : Task) : Core :=
  let d := t.desc
  let rs := ringsAt d.ringBase d.rings
  let e (i : Nat) : EngSt := engAt t.base (rs.getD i {})
  let wt := s.gpaBytes t.cid d.wtab.toNat (8 * d.nwait)
  { task := some { t with started := true }, pc := d.entry, s := SMap.set 0 (SMap.set 0 [] 1 d.arg) 2 t.descAddr,
    spad := if d.spimg == 0 then [] else putSpad [] 0 (s.gpaBytes t.cid d.spimg.toNat d.splen),
    wset := (List.range d.nwait).foldl (fun m k => m.set 0 (k + 1) (bitsOf 64 ((wt.drop (8 * k)).take 8))) [],
    cc := engAt t.base {}, acc := e 0, exe := e 1, mtx := e 2, cpy := e 3, net := e 4,
    hangt := (s.part (s.ctx t.cid).pid).hang, idle := s.cycle, halted := old.halted, ttc := old.ttc,
    icache := if old.icOwner == (t.cid, t.inc) then old.icache else [], icOwner := (t.cid, t.inc) }
/-- The tests of counters whose bytes came while a task was saved (R452). -/
def State.ctrTests (s : State) (n : Nat) : List Nat → State
  | [] => s
  | k :: ks => (s.ctrTest n k).ctrTests n ks
/-- Whether every task of a team has started, or has ended already (Table 5.2). -/
def State.upTeam (s : State) (tm : Team) : Bool :=
  ((List.range tm.cores.length).zip tm.cores).all fun (i, n) => tm.ended.contains i || ((s.core n).task.map (·.started)).getD false
/-- R105: TASK_START: the acquire of R231, then the task's state, or its going on from the image loaded; the team is RUNNING when all its tasks have
started. -/
def execTaskStart (core : Nat) (s : State) : Result :=
  match (s.core core).task with
  | none => .next s
  | some t =>
    let l := s.launch t.launch
    let tm := l.team t.team
    if t.started || isSup core || tm.st != .placed || (s.ctx t.cid).st != .live then .next s else
    let s := if l.parent.isNone then s.dropRemote t.cid else s
    let s := if t.loaded then (s.modCore core fun c => { c with task := some { t with started := true, loaded := false } }).ctrTests core (List.range 64)
      else s.setCore core (s.startCore (s.core core) t)
    .next (if s.upTeam tm then s.modLaunch t.launch fun l => l.setTeam { tm with st := .running, pin := false } else s)

/-! ### The end (R103, R106, R109, R120) -/

/-- Operations of a core that have left its hold and are not complete; a posted receive does not count (R451). -/
def State.coreBusy (s : State) (n : Nat) (cid : BitVec 12) (inc : BitVec 10) : Bool :=
  let mine (h : Held) : Bool := h.core == n && h.cid == cid && h.inc == inc
  s.flying.any mine || s.oreqs.any (fun o => mine o.held) || s.ueOps.any (fun u => mine u.held) || s.areqs.any (fun a => a.tree.members.any mine) ||
    s.tileOps.any fun t => t.core == n && t.cid == cid && t.inc == inc
/-- R106: CORE_RETURN. -/
def execCoreReturn (core : Nat) (s : State) : Result :=
  let c := s.core core
  match c.task with
  | none => .next s
  | some t =>
    if !t.ended || !c.peel.isEmpty || !c.hold.isEmpty || c.spawnSlot.isSome || s.coreBusy core t.cid t.inc then .next s
    else .next (s.setCore core { icache := c.icache, icOwner := c.icOwner, ttc := c.ttc, halted := c.halted })
/-- Whether a launch has a child that is not COMPLETE, or a SPAWN still on its way. -/
def State.hasChildren (s : State) (k : Nat) : Bool :=
  s.launches.any (fun (_, l) => match l with | some l => l.parent == some k && l.st != .complete | none => false) ||
    s.ctxs.any fun (_, c) => c.cq.any fun x => x.parent == k
/-- The end of the last launch of a context: HORIZ reads 0, the phase epoch rises, and quarantined runs return (R104, R212, R234). -/
def State.lastLaunch (s : State) (cid : BitVec 12) : State :=
  if !(s.openLaunches cid).isEmpty then s else
  (s.modCtx cid fun c => { c with horiz := 0, epoch := c.epoch + 1 }).quarRelease cid 4096
/-- R103: LAUNCH_COMPLETE. -/
def execLaunchComplete (idx : Nat) (s : State) : Result :=
  let l := s.launch idx
  if l.st != .draining || (s.cores.any fun (_, c) => match c.task with | some t => t.launch == idx | none => false) || s.hasChildren idx then .next s else
  let s := s.modLaunch idx fun l => { l with st := .complete, teams := [] }
  let s := match l.superPh with | some ph => s.setPhaser ph {} | none => s
  let s := s.lastLaunch l.cid
  .next (if l.doneev then s.event 3 (s.ctx l.cid).pid l.cid l.inc l.queue (l.stag.setWidth 64) 0 else s)

/-! ### Clocks of the launch processors (R125, R126) and phasers (R113) -/

/-- R125: DEFICIT_WINDOW: every 10 ms each deficit becomes min(deficit, 0) + budget, held here in core-nanoseconds; a new budget takes
effect (R142). -/
def execDeficitWindow (s : State) : Result :=
  if s.gts.toNat < s.window.toNat + 10000000 then .next s else
  let parts := s.parts.map fun (k, p) =>
    let b := p.nextBudget.getD p.budget
    (k, { p with budget := b, nextBudget := none, deficit := (if p.deficit < 0 then p.deficit else 0) + 1000 * (b.toNat : Int) })
  .next { s with window := s.window + 10000000, parts := parts }
/-- The charge of the running tile tasks over `dg` nanoseconds (R125), to their partition and its parent (R141). -/
def State.charge (s : State) (dg : Nat) : State :=
  if dg == 0 then s else
  let pids := s.cores.filterMap fun (n, c) => if isSup n then none else c.task.bind fun t => if t.started && !t.ended then some (s.ctx t.cid).pid.toNat else none
  let count (k : Nat) : Nat := (pids.filter fun p => p == k || (p / 8 == k / 8 && k % 8 == 0)).length
  { s with parts := s.parts.map fun (k, p) => (k, { p with deficit := p.deficit - (dg * count k : Nat) }) }
/-- R126: CLASS_AGING: after 2 ms in one class a waiting team moves to the next lower one. -/
def execClassAging (team : Nat) (s : State) : Result :=
  let k := teamLaunch team
  let l := s.launch k
  let t := l.team (teamIdx team)
  if l.desc.teams ≤ teamIdx team || !l.waiting || t.st != .waiting || t.cls == 0 || s.gts.toNat < t.since.toNat + 2000000 then .next s
  else .next (s.modLaunch k fun l => l.setTeam { t with cls := t.cls - 1, since := s.gts })
/-- The waiters of a release whose drops take effect with it are woken, with the coordinate that they inherit (R113, R115). -/
def State.wakeDropped (s : State) (ph : BitVec 12) (p : Phaser) : List PMember → State
  | [] => s
  | m :: ms =>
    let wake (w : CCWait) : CCWait := match w with
      | .phw q n none => if q == ph && n.toNat == p.counter.toNat then .phw q n (some p.phaseCrd) else w
      | _ => w
    (if m.drop && m.waits then s.modCore m.core fun c => { c with ccWait := c.ccWait.map wake, savedWait := c.savedWait.map fun x => (wake x.1, x.2) } else s).wakeDropped ph p ms
/-- R113: PHASER_RELEASE, while the owner is live (Table 6.3). -/
def execPhaserRelease (ph : Nat) (s : State) : Result :=
  let n : BitVec 12 := BitVec.ofNat 12 ph
  let p := s.phaser n
  let live := match p.owner with | some (c, i) => s.live c i | none => false
  .next (if live && s.syncOn (ph / 1024 % 4) && p.ready (s.waitsFor 3) then (s.setPhaser n p.release).wakeDropped n p p.members else s)

end Sys2Proof.Machine
end

