-- ==== Sys2Proof/Machine/Cut.lean ====
section
/-! DEFINITION. The cut: LOWC and the horizon with what its publication releases and retires (R252 to R260), stops with their
squash, peel and completion (R261 to R269), the watch of a core (R263), hang detection (R156, R157), and a host's write of CONS (R154). -/

namespace Sys2Proof.Machine

/-! ### LOWC and the horizon (R252, R253) -/

def engines : List Eng := [.cc, .acc, .exe, .mtx, .cpy, .net]
/-- The least of a list of coordinates. -/
def lowest : List Word → Option Word
  | [] => none
  | x :: xs => some (xs.foldl minW x)
/-- The coordinates of a core's released operations that are not complete, by engine. -/
def State.outOps (s : State) (n : Nat) : List (Eng × Word) :=
  let c := s.core n
  let mine (h : Held) : Bool := h.core == n && h.cid == c.cid && h.inc == c.inc
  let of (hs : List Held) : List (Eng × Word) := (hs.filter mine).map fun h => (h.eng, h.e)
  of s.flying ++ of (s.oreqs.map (·.held)) ++ of (s.ueOps.map (·.held)) ++ of (s.areqs.flatMap fun a => a.tree.members) ++
    (s.tileOps.filter fun t => t.core == n && t.cid == c.cid && t.inc == c.inc).map fun t => (.cpy, t.e)
/-- The operations that an engine has issued and that have not retired. A control-core word that waits is one of them, but for a TEND,
which has nothing left to issue. -/
def Core.issuedOps (c : Core) (eng : Eng) : List Word :=
  match eng with
  | .cc =>
    (if c.ccWait.isSome && !c.tendIssued then [c.cc.elast] else []) ++ (if c.savedWait.isSome && !c.tendIssued then [c.trapLast] else []) ++
      c.spawnSlot.toList.map (·.e)
  | .mtx => c.mx.ops.map (·.pe)
  | eng => (c.eng eng).iss.filterMap fun i => if i.retired then none else some i.e
/-- Whether the next word of a control core is a TEND, waiting for its wait set. -/
def Core.atTend (c : Core) : Bool :=
  !tcInh c.tcause && (match c.fetched with | (a, w) :: _ => a == c.pc && w.extractLsb' 40 7 == 0x27#7 | [] => false)
/-- LOWC of an engine (R252). -/
def Core.lowc (c : Core) (outs : List (Eng × Word)) (eng : Eng) : Option Word :=
  let x := c.eng eng
  let ops := c.issuedOps eng ++ (c.hold.filter fun h => h.eng == eng).map (·.e) ++ (outs.filter fun o => o.1 == eng).map (·.2)
  if !ops.isEmpty then lowest ops
  else if eng == .cc then
    (if (match c.task with | some t => t.ended || t.tending | none => true) || c.atTend then none else some (maxW x.elast x.crd))
  else if x.ring.head != x.ring.tail then some (maxW x.elast x.crd)
  else none
/-- The coordinates that a core with a tile task reports: its base until the task starts, then the LOWC of its engines; a core whose task
has ended reports the last coordinate that it has logged until its peel log is empty (R106). -/
def State.coreLow (s : State) (n : Nat) : List Word :=
  let c := s.core n
  match c.task with
  | none => []
  | some t =>
    if !t.started then [t.base] else
    engines.filterMap (c.lowc (s.outOps n)) ++ (if t.ended then ((c.peel.map (·.crd)).foldl maxW 0 :: []).filter fun _ => !c.peel.isEmpty else [])
/-- A launch with teams not placed, or in transit, counts at its base (R104, R252). -/
def State.launchLow (s : State) (cid : BitVec 12) : List Word :=
  ((s.openLaunches cid).filter fun l => !l.late && (l.waiting || l.teams.any fun t => t.st == .transit)).map (·.base)
/-- The horizon of a context as its engines report it (R253). -/
def State.trueLow (s : State) (cid : BitVec 12) : Option Word := lowest (s.launchLow cid ++ (s.coresOf cid).flatMap s.coreLow)

/-! ### What a published horizon releases (R254, R259) -/

/-- The order of release: coordinate, then core, then issue. -/
def relBefore (a b : Held) : Bool := a.e.ult b.e || (a.e == b.e && (a.core < b.core || (a.core == b.core && a.id ≤ b.id)))
def relInsert (a : Held) : List Held → List Held
  | [] => [a]
  | b :: bs => if relBefore a b then a :: b :: bs else b :: relInsert a bs
/-- Releases entries in order; one that cannot leave holds back the later entries of its core. -/
def State.releaseAll (s : State) (shut : List Nat) : List Held → State
  | [] => s
  | h :: hs =>
    let gone := s.modCore h.core fun c => { c with hold := c.hold.filter fun x => x.id != h.id }
    if shut.contains h.core || !s.routerOn h.core then s.releaseAll shut hs
    else
      match h.act with
      | .spawn .. =>
        if (s.core h.core).spawnSlot.isSome then s.releaseAll (h.core :: shut) hs else (gone.spawnRelease h).releaseAll shut hs
      | a =>
        match a.dst with
        | some d =>
          if d == s.conf.devnum || (s.pos d).isNone || s.seqRoom d h.cid h.inc (s.unnumbered d h.cid h.inc) then ({ gone with flying := gone.flying ++ [h] } : State).releaseAll shut hs
          else s.releaseAll (h.core :: shut) hs
        | none => ({ gone with flying := gone.flying ++ [h] } : State).releaseAll shut hs
/-- The held entries of a context that a horizon lets go. -/
def State.releasable (s : State) (cid : BitVec 12) (h : Word) : List Held :=
  ((s.coresOf cid).flatMap fun n => (s.core n).hold.filter fun x => x.e.ule h && !s.stopAtOrBelow n x.e).foldr relInsert []
/-- Retires peel-log entries, oldest first (R254). -/
def retirePeel (h : Word) (cut : Option Word) (p : List Peel) : List Peel :=
  (p.reverse.dropWhile fun x => x.crd.ule h && (match cut with | some c => x.crd.ult c | none => true)).reverse
/-- What follows a publication on one core: log entries retire, and ring slots are passed (R170). -/
def State.passHorizon (s : State) (h : Word) (n : Nat) : State :=
  let cut := s.cutOf n
  [Eng.acc, .exe, .mtx, .cpy, .net].foldl (fun s e => s.trimEng n e) (s.modCore n fun c => { c with peel := retirePeel h cut c.peel })

/-! ### The squash (R264 step 3, R367) -/

/-- A field of a counter with the changes of `old` to `new` taken back, modulo `2^w`. -/
def undoFld (w : Nat) (cur old new : Nat) : Nat := (cur + old + 2 ^ w - new % 2 ^ w) % 2 ^ w
/-- The tag of a token or buffer with the entries at or above the cut taken back: the oldest entry's old tag, with the coordinates that
later entries below the cut have added. -/
def undoTag (cut cur floor : Word) (olds : List (Word × Word × Bool)) : Word :=
  if cur.ult cut then cur else
  olds.reverse.foldl (fun (m : Option Word) (x : Word × Word × Bool) => match m with
    | none => if cut.ule x.1 then some (maxW x.2.1 floor) else none
    | some t => if x.1.ult cut && x.2.2 then some (maxW t x.1) else some t) none |>.getD cur
def Peel.fld (p : Peel) (lo n : Nat) : Nat := (p.old.extractLsb' lo n).toNat
def Peel.fldN (p : Peel) (lo n : Nat) : Nat := (p.new.extractLsb' lo n).toNat
/-- Entries of one kind and number, newest first, as `undoTag` reads them: coordinate, old tag, and whether the change added. -/
def tagsOf (ps : List Peel) (k : BitVec 4) (a lo w : Nat) : List (Word × Word × Bool) :=
  (ps.filter fun p => p.kind == k && p.addr.toNat == a).map fun p =>
    (p.crd, p.old.extractLsb' (if k == 5 then 16 else 64) 64, decide (p.fld lo w < p.fldN lo w))
/-- Gives back an item of Table 14.1. -/
def Core.putItem (c : Core) (a : Nat) (v : Word) : Core :=
  if a < 0x40 then { c with s := c.s.set 0 a v, deadS := c.deadS.set none a none }
  else if a < 0x1000 then (if a - 0x800 == 0x001 then { c with tcause := v } else c.putSys (a - 0x800) v)
  else if a < 0x1800 then c.putCfg (a - 0x1000) v
  else if a < 0x2100 then { c with wset := c.wset.set 0 (a - 0x2000) v }
  else if a < 0x3020 then { c with cbs := c.cbs.set none (a - 0x3000) ((c.cbs.get none (a - 0x3000)).map fun b => { b with w0 := v }) }
  else c.modEng (engOfNum (a - 0x4000)) fun x => { x with ring := { x.ring with tail := v.setWidth 16 } }
/-- Bytes under a mask, from the old 32 bytes of an entry. -/
def maskedBytes (m : BitVec 32) (old : BitVec 256) (a : Nat) : List (Nat × Byte) :=
  (List.range 32).filterMap fun i => if m.getLsbD i then some (a + i, old.extractLsb' (8 * i) 8) else none
/-- A token counter with one entry taken back. -/
def Tok.undo (t : Tok) (p : Peel) : Tok := { t with count := BitVec.ofNat 16 (undoFld 16 t.count.toNat (p.fld 0 16) (p.fldN 0 16)) }
/-- A circular buffer with one entry taken back; CBRST is taken back whole. -/
def Cb.undo (b : Cb) (p : Peel) : Option Cb :=
  let f (lo w cur : Nat) : Nat := undoFld w cur (p.fld lo w) (p.fldN lo w)
  if p.eng == 0 then
    (if p.old.getLsbD 192 then
      some { b with filled := p.fld 0 9, free := p.fld 9 9, ridx := p.fld 18 8, widx := p.fld 26 8, tag := p.old.extractLsb' 64 64,
                    filling := p.fld 128 10, acquired := p.fld 138 10 }
     else none)
  else
    some { b with filled := f 0 9 b.filled, free := f 9 9 b.free, ridx := (b.ridx + p.fld 18 8 + cbSlots b.w0 - p.fldN 18 8) % cbSlots b.w0,
                  widx := (b.widx + p.fld 26 8 + cbSlots b.w0 - p.fldN 26 8) % cbSlots b.w0, filling := f 128 10 b.filling, acquired := f 138 10 b.acquired }
/-- Restores OLD of one entry at or above the cut (Table 11.4). Kinds 7 and 9 of an engine with a ring are restored with the snapshot of
its first squashed word. -/
def State.undo (s : State) (n : Nat) (p : Peel) : State :=
  let a := p.addr.toNat
  match p.kind.toNat with
  | 1 => s.modCore n fun c => { c with spad := (maskedBytes p.mask p.old a).foldl (fun m (k, b) => m.set 0 k b) c.spad }
  | 2 =>
    let cid := (s.core n).cid
    s.putCells ((maskedBytes p.mask p.old a).filterMap fun (k, b) => (s.stage2 (s.ctx cid).pid k).map fun k => (k, b))
  | 3 => s.putEnt (s.core n).cid (p.old.extractLsb' 128 10) (p.fld 138 24) a (p.old.setWidth 128)
  | 4 => s.modCore n fun c => c.putItem a (p.old.setWidth 64)
  | 5 => s.modCore n fun c => { c with tok := c.tok.modify {} a fun t => t.undo p }
  | 6 => s.modCore n fun c => { c with cbs := c.cbs.set none a ((c.cbs.get none a).bind fun b => b.undo p) }
  | 8 => s.modCore n fun c => { c with g := c.g.set 0 a (p.old.setWidth 64), deadG := c.deadG.set none a none }
  | 9 => if p.eng != 0 then s else s.modCore n fun c =>
      { c with pc := p.pc, cc := { c.cc with elast := p.old.extractLsb' 0 64, crd := p.old.extractLsb' 64 64 } }
  | _ => s
/-- Peels entries at or above the cut, newest first. -/
def State.peelAll (s : State) (n : Nat) (cut : Word) : List Peel → State
  | [] => s
  | p :: ps => (if cut.ule p.crd then s.undo n p else s).peelAll n cut ps
/-- The tags of tokens and buffers after the peel. -/
def Core.undoTags (c : Core) (cut : Word) (ps : List Peel) : Core :=
  { c with tok := c.tok.filterMap fun (k, t) =>
             let t' := { t with tag := undoTag cut t.tag t.floor (tagsOf ps 5 k 0 16) }
             if t' = ({} : Tok) then none else some (k, t')
           cbs := c.cbs.map fun (k, b) => (k, b.map fun b => { b with tag := undoTag cut b.tag 0 (tagsOf ps 6 k 0 9) }) }

/-- Entries popped by squashed words return to the front of their queues, in the order popped (R367). -/
def Core.returnPops (c : Core) : List (Nat × QEnt) → Core
  | [] => c
  | (q, x) :: r => let c := c.returnPops r; c.setQueue q (x :: c.queue q)
/-- Squashed issued words in the order of issue. -/
def issInsert (a : Iss) : List Iss → List Iss
  | [] => [a]
  | b :: bs => if a.id ≤ b.id then a :: b :: bs else b :: issInsert a bs
/-- An engine with a ring without its words at or above the cut: HEAD, coordinates, loops, stage predicates, rotation and skip as they
stood before the first of them. -/
def EngSt.squash (x : EngSt) (cut : Word) : EngSt :=
  match x.iss.find? fun i => cut.ule i.e with
  | none => x
  | some f =>
    { x with iss := x.iss.filter (fun i => i.e.ult cut), crd := f.snap.crd, elast := f.snap.elast, loops := f.snap.loops, sp := f.snap.sp,
             rot := f.snap.rot, skip := f.snap.skip, ring := { x.ring with head := f.pos } }
/-- A matrix word that stays issued with points or rows at or above the cut: what it popped there is given back, and its coordinate is
that of its next point. -/
def MtxOp.cutTo (o : MtxOp) (cw : List Nat) (cut : Word) : MtxOp :=
  if o.pe.ult cut then o else
  let es := o.ents.filter fun x => x.e.ult cut
  let pe := if o.w.extractLsb' 40 7 == 0x62#7 then (Nest.of o.nest).crd cw o.e o.k else (es.map (·.e)).foldl maxW o.e
  { o with ents := es, pe := maxW o.e pe, nres := none }
/-- The largest coordinate that an issued matrix word takes. -/
def MtxOp.last (o : MtxOp) (cw : List Nat) : Word :=
  if o.w.extractLsb' 40 7 == 0x62#7 then maxW o.e ((Nest.of o.nest).crd cw o.e ((Nest.of o.nest).points - 1)) else (o.ents.map (·.e)).foldl maxW o.e
/-- The matrix engine's ring side: it issues out of ring order, so HEAD goes to the first squashed slot in ring order (R264). -/
def EngSt.squashMtx (x : EngSt) (ops kept : List MtxOp) (cw : List Nat) (cut : Word) : EngSt :=
  let gone (i : Iss) : Bool := (i.retired && cut.ule i.e) || ops.any fun o => o.id == i.id && cut.ule o.e
  let out := x.iss.filter gone
  let head := out.foldl (fun h i => if ptrDiff i.pos x.ring.ret < ptrDiff h x.ring.ret then i.pos else h) x.ring.head
  let iss := (x.iss.filter fun i => !gone i).map fun i => { i with pops := i.pops.filter fun p => p.2.e.ult cut, e := if cut.ule i.e then
    ((kept.find? fun o => o.id == i.id).map fun o => (o.ents.map (·.e)).foldl maxW o.e).getD i.e else i.e }
  let was := match out.head? with | some f => f.snap.elast | none => x.elast
  let elast := if cut.ule was then (kept.map fun o => o.last cw).foldl maxW ((iss.map (·.e)).foldl maxW 0) else was
  { x with iss := iss, elast := if kept.isEmpty && out.isEmpty then x.elast else elast, ring := { x.ring with head := head } }
/-- Last-use marks of words at or above the cut are withdrawn. -/
def liveAgain (cut : Word) (m : SMap (Option Word)) : SMap (Option Word) := m.filter fun x => match x.2 with | some e => e.ult cut | none => false
/-- STOPC of an engine: its first squashed word's coordinate; the cut when it held an unissued word; else all ones (R264). -/
def stopcOf (first : Option Word) (waiting : Bool) (cut : Word) : Word := first.getD (if waiting then cut else BitVec.allOnes 64)
/-- The coordinate of an engine's first squashed operation. -/
def Core.firstGone (c : Core) (cut : Word) (eng : Eng) : Option Word :=
  match eng with
  | .cc => if cut.ule c.cc.elast then lowest ((c.peel.filter fun p => p.kind == 9 && p.eng == 0 && cut.ule p.crd).map (·.crd)) else none
  | .mtx => lowest ((c.mx.ops.map (·.e) ++ (c.mtx.iss.filter (·.retired)).map (·.e)).filter fun e => cut.ule e)
  | eng => ((c.eng eng).iss.find? fun i => cut.ule i.e).map (·.e)
def Core.parkBelow (x : EngSt) (cut : Word) : EngSt :=
  { x with park := x.park.bind fun p => if cut.ule p.frec.crd then none else some p, waitsStop := false }
/-- The engines of a core with their words at or above the cut squashed, and its queues as they then stand. -/
def Core.squashEngines (c : Core) (cut : Word) : Core :=
  let ops := c.mx.ops
  let kept := (ops.filter fun o => o.e.ult cut).map fun o => o.cutTo c.cw cut
  let out (x : EngSt) : List Iss := x.iss.filter fun i => cut.ule i.e
  let outM := c.mtx.iss.filter fun i => (i.retired && cut.ule i.e) || ops.any fun o => o.id == i.id && cut.ule o.e
  let all := (out c.acc ++ out c.exe ++ outM ++ out c.cpy ++ out c.net).foldr issInsert []
  let boqX := (out c.acc).flatMap (·.bits) ++ c.boqX
  let boqA := ((out c.exe).flatMap (·.bits)) ++ c.boqA
  let last := match c.exe.iss.find? fun i => cut.ule i.e with | some f => f.snap.lastPop | none => c.lastPop
  let c := c.returnPops (all.flatMap (·.pops))
  let below (l : List QEnt) : List QEnt := l.filter fun x => x.e.ult cut
  { c with dq := (c.dq.map fun (k, l) => (k, below l)).filter (fun x => x.2 != []), sq := (c.sq.map fun (k, l) => (k, below l)).filter (fun x => x.2 != []),
           boqX := boqX.filter (fun b => b.e.ult cut), boqA := boqA.filter (fun b => b.e.ult cut), lastPop := last,
           acc := Core.parkBelow (c.acc.squash cut) cut, exe := Core.parkBelow (c.exe.squash cut) cut,
           mtx := Core.parkBelow (c.mtx.squashMtx ops kept c.cw cut) cut,
           cpy := Core.parkBelow (c.cpy.squash cut) cut, net := Core.parkBelow (c.net.squash cut) cut, cc := Core.parkBelow c.cc cut,
           mx := { c.mx with ops := kept }, exeQ := c.exeQ.filter (fun x => x.e.ult cut), landQ := c.landQ.filter (fun x => x.e.ult cut),
           cpyQ := c.cpyQ.filter (fun x => x.e.ult cut), waitQ := c.waitQ.filter (fun x => x.e.ult cut),
           hold := c.hold.filter (fun x => x.e.ult cut),
           sPend := c.sPend.filter (fun x => !c.hold.any fun h => h.id == x.2 && cut.ule h.e),
           deadS := liveAgain cut c.deadS, deadG := liveAgain cut c.deadG, deadV := liveAgain cut c.deadV, deadQ := liveAgain cut c.deadQ,
           exeAvail := [], accFlight := [], pendBits := [], gAvail := [], gWait := [], capture := none, fetched := [],
           frels := c.frels.filter (fun f => f.e.ult cut), bars := c.bars.filter (fun b => b.e.ult cut) }
/-- A handler whose fault lies at or above the cut is squashed with its fault: INH returns to 0, and a control core that had issued
nothing at or above the cut before it goes on where it stood (R152). -/
def Core.squashHandler (c : Core) (old : Core) (cut : Word) : Core :=
  if tcInh old.tcause && cut.ule old.trapE then
    let c := { c with tcause := c.tcause &&& ~~~(1#64 <<< 11), savedWait := none }
    if old.trapLast.ult cut then
      match old.savedWait with
      | some (w, a) => { c with ccWait := some w, pc := a, resumeAt := if old.tepc == a + 8 then none else some old.tepc }
      | none => { c with pc := old.tepc }
    else c
  else { c with savedWait := old.savedWait.bind fun x => if old.trapLast.ult cut then some x else none }
/-- The end of a tile task at or above the cut is taken back (R265): the task goes on, with the memberships and lock ranges that its
TEND gave up. -/
def State.untend (s : State) (n : Nat) : State :=
  let c := s.core n
  match c.task with
  | none => s
  | some t =>
    let s := s.modCore n fun c => { c with task := some { t with ended := false, tending := false }, endSnap := none }
    if !t.ended then s else
    let snap := c.endSnap.getD {}
    let s := s.modLaunch t.launch fun l =>
      { l with st := if l.st == .draining then .running else l.st,
               teams := l.teams.map fun x => if x.idx == t.team then { x with ended := x.ended.filter (· != t.t), st := if x.st == .ended then .running else x.st } else x }
    let back (s : State) (k : Nat) (m : PMember) : State :=
      let p := s.phasers.get {} k
      let p' : Phaser := if p.owner != some (t.cid, t.inc) then p
        else if (p.member t).isSome then p.modMember t fun x => { x with drop := m.drop } else { p with members := p.members ++ [m] }
      { s with phasers := s.phasers.set {} k p' }
    let s := snap.members.foldl (fun s (k, m) => back s k m) s
    (s.modCore n fun c => { c with locks := snap.locks }).relock n snap.locks
/-- A wake-up by a release that needed something at or above the cut is taken back (R116). -/
def CCWait.undo (cut : Word) : CCWait → CCWait
  | .phw ph n (some e) => .phw ph n (if cut.ule e then none else some e)
  | w => w
/-- R264 step 3 on one core. -/
def State.squashCore (s : State) (cut : Word) (n : Nat) : State :=
  let old := s.core n
  let waits (eng : Eng) : Bool := match eng with
    | .cc => match old.task with | some t => t.started && !(t.ended && old.cc.elast.ult cut) | none => false
    | eng => (old.eng eng).ring.head != (old.eng eng).ring.tail
  let stopc := engines.foldl (fun m eng => SMap.set (BitVec.allOnes 64) m eng.num (stopcOf (old.firstGone cut eng) (waits eng) cut)) []
  let ended := cut.ule old.cc.elast && (match old.task with | some t => t.tending || t.ended | none => false)
  let s := s.modCore n fun c => c.squashEngines cut
  let s := s.peelAll n cut old.peel
  let s := s.modCore n fun c =>
    let c := (c.undoTags cut old.peel).squashHandler old cut
    { c with peel := [], stopc := stopc, savedWait := c.savedWait.map fun x => (x.1.undo cut, x.2), ccWait := CCWait.undo cut <$> if tcInh old.tcause && cut.ule old.trapE then c.ccWait else if old.cc.elast.ult cut then old.ccWait else none }
  if ended then s.untend n else s
def State.squashAll (s : State) (cut : Word) : List Nat → State
  | [] => s
  | n :: ns => (s.squashCore cut n).squashAll cut ns

/-! ### HORIZON_PUBLISH -/

/-- A horizon reaches the cores of a context: entries are released, log entries retire, phasers forget what no stop can undo, and
quarantined runs return; when it is the cut of a pending stop, the cores squash (R264). -/
def State.publish (s : State) (cid : BitVec 12) (h : Word) : State :=
  let s := s.modCtx cid fun c => { c with horiz := h }
  let s := s.releaseAll [] (s.releasable cid h)
  let s := (s.coresOf cid).foldl (fun s n => s.passHorizon h n) s
  let inc := (s.ctx cid).inc
  let s : State := { s with phasers := s.phasers.map fun (k, p) => (k, if p.owner == some (cid, inc) then p.forget h else p) }
  let s := s.quarRelease cid 4096
  match (s.ctx cid).stop with
  | some st =>
    if st.accepted && !st.squashed && st.cut.ule h then
      (s.squashAll st.cut (s.coresOf cid)).modCtx cid fun c => { c with stop := c.stop.map fun st => { st with squashed := true } }
    else s
  | none => s
/-- R253: HORIZON_PUBLISH: the larger of the computed and the last published value, never above the cut of a pending stop (R262). While
nothing reports a coordinate the published value stands, or rises to the cut of a pending stop. -/
def execHorizonPublish (cid : Nat) (s : State) : Result :=
  let k : BitVec 12 := BitVec.ofNat 12 cid
  let c := s.ctx k
  if c.st != .live || (s.openLaunches k).isEmpty then .next s else
  let cap := match c.stop with | some st => if st.accepted then some (maxW st.cut c.horiz) else none | none => none
  let h := maxW c.horiz ((s.trueLow k).getD (cap.getD c.horiz))
  let h := match cap with | some m => minW h m | none => h
  .next (s.publish k h)

/-! ### Stops (R261 to R264, R268, R269) -/

/-- R262: STOP_ACCEPT: exact above the published horizon, otherwise LATE at the next coordinate. -/
def execStopAccept (cid : Nat) (s : State) : Result :=
  let k : BitVec 12 := BitVec.ofNat 12 cid
  let c := s.ctx k
  match c.stop with
  | none => .next s
  | some st =>
    if st.accepted || c.st != .live then .next s else
    let exact := c.horiz.ult st.k
    let st := { st with accepted := true, cut := if exact then st.k else s.nextCrd k c.horiz, late := !exact }
    .next ((s.setCtx k { c with stop := some st }).modCores Core.clearWaits (s.coresOf k))
/-- The teams of a context's launches change state. -/
def State.modTeams (s : State) (cid : BitVec 12) (f : TState → TState) : State :=
  { s with launches := s.launches.map fun (k, l) => (k, l.map fun l =>
      if l.cid == cid then { l with teams := l.teams.map fun t => { t with st := f t.st } } else l) }
/-- R264 step 4: STOP_COMPLETE, once the cores have squashed, or at once in a context with no open launch. -/
def execStopComplete (cid : Nat) (s : State) : Result :=
  let k : BitVec 12 := BitVec.ofNat 12 cid
  let c := s.ctx k
  match c.stop with
  | none => .next s
  | some st =>
    if c.st != .live || !st.accepted || !(st.squashed || (s.openLaunches k).isEmpty) then .next s else
    let s : State := { s with phasers := s.phasers.map fun (i, p) => (i, if p.owner == some (k, c.inc) then p.restore st.cut else p) }
    let s := s.modTeams k fun t => if t == .placed || t == .running then .stopped else t
    let r : BitVec 3 := if st.late then 1 else 0
    let s := s.setCtx k { c with st := .stopped, cuteff := st.cut, stop := none, result := r, lastReq := st.reqs.headD {}, bySlice := !st.byCmd }
    .next (s.cutDone k c.inc 2 r st.reqs)
/-- A stopped team's state after the resume: PLACED until every task has started. -/
def State.unstop (s : State) (t : Team) : TState :=
  if t.st != .stopped then t.st
  else if s.upTeam t then .running else .placed
/-- R269: a resume of a STOPPED context; devices faults that asked for the stop are for the supervisor to service. -/
def State.resume (s : State) (cid : BitVec 12) : State :=
  if (s.ctx cid).st != .stopped then s else
  let s := s.modCtx cid fun c => { c with st := .live, bySlice := false }
  let s : State := { s with launches := s.launches.map fun (k, l) => (k, l.map fun l =>
    if l.cid == cid then { l with late := false, teams := l.teams.map fun t => { t with st := s.unstop t } } else l) }
  let go (c : Core) : Core :=
    let f (x : EngSt) : EngSt := { x with park := x.park.bind fun p => if p.stop then none else some p }
    { c with cc := f c.cc, acc := f c.acc, exe := f c.exe, mtx := f c.mtx, cpy := f c.cpy, net := f c.net }
  s.modCores go (s.coresOf cid)

/-- R263: WATCH_FIRE: an engine that waits at a coordinate its core watches requests STOP(CUTW), and CUTW becomes all ones. -/
def execWatchFire (core eng : Nat) (s : State) : Result :=
  let c := s.core core
  let e := engOfNum eng
  if isSup core || c.cutw == BitVec.allOnes 64 || !(c.eng e).waitsStop then .next s else
  let s := (s.requestStop c.cid c.cutw { srck := 4, core := BitVec.ofNat 8 core } true).modCore core fun c => { c with cutw := BitVec.allOnes 64 }
  let done := match (s.ctx c.cid).stop with | some st => st.accepted | none => true
  .next (if done then s.modCores Core.clearWaits [core] else s)

/-! ### Hang detection (R156, R157) -/

/-- Whether an engine of a core has unretired work (R156); the control core of a supervisor core, which has no task to end, always does. -/
def Core.unretired (c : Core) (sup : Bool) (eng : Eng) : Bool :=
  let x := c.eng eng
  x.park.isSome || (match eng with
    | .cc => match c.task with | some t => t.started && !t.ended | none => sup
    | _ => x.ring.head != x.ring.tail || x.iss.any fun i => !i.retired)
/-- The word at an engine's ring head, or at the PC. -/
def State.headWord (s : State) (n : Nat) (eng : Eng) : Word :=
  let c := s.core n
  match eng with
  | .cc => match s.coreKeys n c.pc 8 .x with | .inl ks => bitsOf 64 (ks.map s.byte) | .inr _ => 0
  | _ => c.ringWord eng (c.eng eng).ring.head
/-- The words queued in a core's rings, unissued or unretired. -/
def Core.queuedWords (c : Core) : List (Eng × Word) :=
  [Eng.acc, .exe, .mtx, .cpy, .net].flatMap fun eng =>
    let x := c.eng eng
    (((List.range (ptrDiff x.ring.tail x.ring.head)).map fun i => x.ring.head + BitVec.ofNat 16 i) ++ (x.iss.filter fun i => !i.retired).map (·.pos)).map fun p =>
      (eng, c.ringWord eng p)
/-- Whether a control core waits for a phaser's release. -/
def Core.phWaits (c : Core) : Bool :=
  let ph (w : CCWait) : Bool := match w with | .phw .. => true | _ => false
  c.ccWait.any ph || c.savedWait.any fun x => ph x.1
/-- Whether something that is not a queued word may still signal a token or fill a queue of the core (R157): a circular-buffer fill, a phaser's release,
a remote response, a thermal hold. -/
def State.stillDue (s : State) (n : Nat) : Bool :=
  let c := s.core n
  c.phWaits || (c.cbs.any fun x => x.2.any fun b => b.filling != 0) || !(s.outOps n).isEmpty || !c.hold.isEmpty || (c.nctr.any fun x => x.2.tok != 0) || (s.island (coreIsland n)).hold ||
    (s.recvs.any fun r => r.held.core == n && r.held.cid == c.cid)
/-- A wait term of a HANG record: token, need, have, orphan mark (Table 7.6). -/
def State.hangTerm (s : State) (n : Nat) (t k : Nat) : Nat :=
  let c := s.core n
  if t == 0 then 0 else
  let have_ := (c.tok.get {} t).count.toNat
  let queued := (c.queuedWords.filter fun w => (w.2.extractLsb' 48 8).toNat == t).length
  t + 2 ^ 8 * k + 2 ^ 12 * have_ + (if have_ + queued < k && !s.stillDue n then 2 ^ 28 else 0)
/-- The fields of a word that name registers or queues: D, A and B. -/
def fieldsOf (w : Word) : List Nat := [(w.extractLsb' 34 6).toNat, (w.extractLsb' 28 6).toNat, (w.extractLsb' 21 6).toNat]
/-- What an engine's next ring word would pop: kind (Table 7.6) and number; 0 for nothing. -/
def popKind (eng : Eng) (w : Word) : Nat × Nat :=
  let opc := (w.extractLsb' 40 7).toNat
  let fs := fieldsOf w
  match eng with
  | .exe =>
    if opc == 0x51 then (if w.getLsbD 8 then (3, 0) else (0, 0))
    else match (fs.drop 1).find? fun r => 56 ≤ r && r < 60 with | some r => (1, r - 56) | none => (0, 0)
  | .acc =>
    if opc == 0x3A then (if w.getLsbD 8 then (3, 1) else (0, 0))
    else if opc == 0x3B && w.extractLsb' 8 5 == 0#5 then (4, (w.extractLsb' 13 5).toNat)
    else match fs.find? fun r => r == 36 || r == 37 with | some r => (2, r - 36) | none => (0, 0)
  | .mtx => if opc == 0x61 || opc == 0x6B then (1, (w.extractLsb' 0 2).toNat) else (0, 0)
  | _ => (0, 0)
/-- Whether a queued word pushes to a queue, or fills a circular buffer. -/
def pushesQ (k q : Nat) (x : Eng × Word) : Bool :=
  let opc := (x.2.extractLsb' 40 7).toNat
  if k == 1 then x.1 == .acc && (fieldsOf x.2).any fun r => r == 32 + q
  else if k == 2 then x.1 == .exe && (fieldsOf x.2).headD 0 == 60 + q
  else if k == 3 then (if q == 0 then x.1 == .acc && opc == 0x3A else x.1 == .exe && opc == 0x51)
  else x.1 == .cpy && opc == 0x71 && (unpackCP x.2).tidb.toNat % 32 == q
/-- DETAIL of a HANG record (Table 7.6). -/
def State.hangDetail (s : State) (n : Nat) (eng : Eng) : BitVec 512 :=
  let c := s.core n
  let x := c.eng eng
  let w := s.headWord n eng
  let wv := if w.extractLsb' 56 8 == 0#8 then 0 else c.wset.get 0 (w.extractLsb' 56 8).toNat
  let ts := waitTerms wv
  let term (i : Nat) : Nat := let t := ts.getD i (0, 0); s.hangTerm n t.1 t.2
  let phw := opcOf w == 0x19#7 && (w.extractLsb' 12 4 == 3#4 || w.extractLsb' 12 4 == 4#4)
  let (pk, pi) : Nat × Nat := if eng != .cc then popKind eng w else
    match c.ccWait with
    | some (.phw ph _ _) => (5, ph.toNat)
    | _ => if phw then (5, (phNum (c.s.get 0 (unpackSY w).a.toNat)).toNat) else (0, 0)
  let orph := pk != 0 && pk != 5 && !(c.queuedWords.any (pushesQ pk pi)) && !s.stillDue n
  let crd := if eng == .cc && c.ccWait.isSome then x.elast else maxW (maxW x.elast x.crd) (c.waitTag wv)
  BitVec.ofNat 512 (w.toNat + 2 ^ 64 * crd.toNat + 2 ^ 128 * term 0 + 2 ^ 160 * term 1 + 2 ^ 192 * term 2 + 2 ^ 224 * pk + 2 ^ 227 * pi +
    (if orph then 2 ^ 239 else 0) + (if (s.island (coreIsland n)).hold then 2 ^ 240 else 0))
/-- One record for each engine with unretired work, all with one GTS. -/
def State.hangRecs (s : State) (n : Nat) : List Eng → State
  | [] => s
  | eng :: es =>
    let c := s.core n
    let r : FRec := { code := fHang, cls := 1, eng := BitVec.ofNat 3 eng.num, cid := c.cid, inc := c.inc, gts := s.gts, src := s.src n,
                      crd := (c.eng eng).elast, pc := c.faultPc eng (c.eng eng).ring.head, val := BitVec.ofNat 64 eng.num, detail := s.hangDetail n eng }
    (if c.unretired (isSup n) eng then s.recordOn (if isSup n then 0 else (s.ctx c.cid).pid) r n eng else s).hangRecs n es
/-- R156: HANG: a core with pending work that has retired nothing for 2^HANGT cycles. -/
def execHang (core : Nat) (s : State) : Result :=
  let c := s.core core
  if c.hangt == 0 || c.hung || !(engines.any (c.unretired (isSup core))) || s.cycle < c.idle + 2 ^ c.hangt then .next s
  else .next ((s.hangRecs core engines).modCore core fun c => { c with hung := true })

/-! ### CONS (R154) -/

/-- R154: FBUF_CONS_WRITE: a host's write of CONS that frees entries while OVF is 1 wakes the supervisor. -/
def execFbufConsWrite (pid : Nat) (cons : BitVec 32) (s : State) : Result :=
  let k : BitVec 7 := BitVec.ofNat 7 pid
  if k != 0 && !(s.part k).used then .next s else
  let frees := s.cons k != cons
  let s := s.fbufPut k 8 (leBytes cons.toNat 4)
  .next (if frees && !(s.fheld k).isEmpty then s.wake 3 else s)

end Sys2Proof.Machine
end

