-- ==== Sys2Proof/Machine/Context.lean ====
section
/-! DEFINITION. Contexts, incarnations and partitions (R129 to R147): creation, kill and restart, the reclaim fence, quiescence, the image
with saving and loading, partitions and their resources, segment tables (R197, R198), and time slicing (R144). -/

namespace Sys2Proof.Machine

/-- A bit field of a descriptor as a number. -/
def dfld {w : Nat} (x : BitVec w) (lo n : Nat) : Nat := x.toNat / 2 ^ lo % 2 ^ n

/-! ### Partitions (R139 to R142) -/

/-- Whether a partition number is legal and not the supervisor's (Table 6.5). -/
def pidOk (pid : BitVec 7) : Bool := 1 ≤ pid.toNat / 8 && pid.toNat % 8 ≤ 4
def isChild (pid : BitVec 7) : Bool := pid.toNat % 8 != 0
/-- The first-level partition of a number. -/
def parentPid (pid : BitVec 7) : BitVec 7 := pid &&& 0x78#7
/-- A partition descriptor's fields (Table 6.6). -/
def Part.ofBits (x : BitVec 1024) : Part :=
  { used := true, maxctx := dfld x 8 9, job := x.extractLsb' 20 24, ways := x.extractLsb' 48 16, podx := x.extractLsb' 64 32, pods := x.extractLsb' 96 32,
    hbm := x.extractLsb' 128 256, lp := x.extractLsb' 384 32, netsh := dfld x 416 10, hangt := x.extractLsb' 426 6, budget := x.extractLsb' 448 32,
    vault := x.extractLsb' 512 256, fbuf := x.extractLsb' 768 64, grant := x.extractLsb' 832 64 }
def pdescRsv (x : BitVec 1024) : Bool :=
  dfld x 7 1 != 0 || dfld x 17 3 != 0 || dfld x 44 4 != 0 || dfld x 432 16 != 0 || dfld x 480 32 != 0 || dfld x 896 128 != 0
/-- The partitions in use, with their numbers. -/
def State.usedParts (s : State) : List (BitVec 7 × Part) := s.parts.filterMap fun (k, p) => if p.used then some (BitVec.ofNat 7 k, p) else none
/-- The partitions at the level of a number: the first-level ones, or the other children of its parent. -/
def State.siblings (s : State) (pid : BitVec 7) : List Part :=
  (s.usedParts.filter fun (k, _) => k != pid && (if isChild pid then isChild k && parentPid k == parentPid pid else !isChild k)).map (·.2)
def State.children (s : State) (pid : BitVec 7) : List Part :=
  if isChild pid then [] else (s.usedParts.filter fun (k, _) => isChild k && parentPid k == pid).map (·.2)
def subset {w : Nat} (a b : BitVec w) : Bool := a &&& ~~~b == 0
def meets {w : Nat} (a b : BitVec w) : Bool := a &&& b != 0
/-- Two partitions of one level hold one exclusive resource, or share a pod that one holds alone. Ways are exclusive among the children of
one parent. -/
def clash (child : Bool) (a b : Part) : Bool :=
  meets a.podx b.podx || meets a.podx b.pods || meets a.pods b.podx || meets a.hbm b.hbm || meets a.lp b.lp || (child && meets a.ways b.ways)
/-- A child's resources lie within its parent's. -/
def withinParent (c p : Part) : Bool :=
  subset c.podx p.podx && subset c.pods (p.podx ||| p.pods) && subset c.hbm p.hbm && subset c.lp p.lp && subset c.ways p.ways
/-- The budget of a partition from the next window on (R142). -/
def Part.soon (p : Part) : Nat := (p.nextBudget.getD p.budget).toNat
/-- R140: whether PCREATE refuses a descriptor, apart from a number in use. The buffer at FBUF must fit the capacity of the descriptor's own HBM channels
(DEDUCED: no channel map of a partition exists before its creation). -/
def State.partBad (s : State) (pid : BitVec 7) (x : BitVec 1024) : Bool :=
  let p := Part.ofBits x
  let sib := s.siblings pid
  let up := s.part (parentPid pid)
  let cap (v : Nat) : Nat := if isChild pid then up.vaultMiB v else 64
  let sum (f : Part → Nat) : Nat := ((p :: sib).map f).sum
  !pidOk pid || (isChild pid && !up.used) || pdescRsv x || p.maxctx == 0 || 256 < p.maxctx || 1000 < p.netsh || (2 ≤ p.hangt.toNat && p.hangt.toNat < 16) ||
    40 < p.hangt.toNat || (List.range 32).any (fun v => 64 < p.vaultMiB v || cap v < sum fun q => q.vaultMiB v) || sib.any (clash (isChild pid) p) || meets p.podx p.pods ||
    (isChild pid && (!withinParent p up || up.soon < sum Part.soon || up.maxctx < sum (·.maxctx) || up.netsh < sum (·.netsh))) ||
    p.lp &&& ~~~s.conf.lpddr != 0 || p.fbuf.toNat % 4096 != 0 || p.kindBytes 1 0 < p.fbuf.toNat + 36864
/-- The contexts of a partition outside FREE. -/
def State.ctxsOf (s : State) (pid : BitVec 7) : List (BitVec 12) :=
  s.ctxs.filterMap fun (k, c) => if c.pid == pid && c.st != .free then some (BitVec.ofNat 12 k) else none
/-- R142: a budget within the limits of R140. -/
def State.budgetOk (s : State) (pid : BitVec 7) (b : BitVec 32) : Bool :=
  if isChild pid then b.toNat + ((s.siblings pid).map Part.soon).sum ≤ (s.part (parentPid pid)).soon else ((s.children pid).map Part.soon).sum ≤ b.toNat

/-! ### Segment tables (R197, R198) -/

/-- The device-physical segment that an entry names. -/
def segName (x : Word) : Nat × Nat × Nat := (dfld x 1 2, if dfld x 1 2 == 0 then dfld x 4 5 else 0, dfld x 16 24)
/-- Whether a segment entry may be installed for a partition with those resources. -/
def segOk (p : Part) (x : Word) : Bool :=
  let (kind, unit, dps) := segName x
  !x.getLsbD 0 || (dps + 1) * 2 ^ 21 ≤ p.kindBytes kind unit
/-- The entries of a table in supervisor memory. -/
def State.segTable (s : State) (base n : Nat) : List Word := (List.range n).map fun i => BitVec.ofNat 64 (s.numAt (memKey 3 0 (base + 8 * i)) 8)
/-- R198: whether CHMAP installs a table. -/
def State.mapOk (s : State) (p : Part) (base n : Nat) : Bool :=
  let t := s.segTable base n
  base % 4096 == 0 && base + 8 * n ≤ 2 ^ 40 && t.all (segOk p) && decide ((t.filter fun x => x.getLsbD 0).map segName).Nodup
/-- Whether guest-physical bytes lie in valid HBM segments of a partition (R130). -/
def State.inHbm (s : State) (pid : BitVec 7) (a n : Nat) : Bool :=
  let p := s.own pid
  a + n ≤ 2 ^ 48 && (List.range ((a + Nat.max 1 n - 1) / 2 ^ 21 + 1 - a / 2 ^ 21)).all fun i =>
    let k := a / 2 ^ 21 + i
    let x := s.segEntry p k
    k < p.segn && x.getLsbD 0 && dfld x 1 2 == 1

/-! ### Creation (R130, R137) -/

/-- The 16 windows of a table. -/
def windowsOf (bs : List Byte) : List (Word × Word) :=
  (List.range 16).map fun i => (bitsOf 64 ((bs.drop (16 * i)).take 8), bitsOf 64 ((bs.drop (16 * i + 8)).take 8))
/-- A context's fields from its descriptor (Table 6.2) and window table. -/
def Ctx.ofBits (x : BitVec 512) (wins : List (Word × Word)) : Ctx :=
  { pid := x.extractLsb' 12 7, proc := x.extractLsb' 19 32, wins := wins, ttab := x.extractLsb' 128 64, rca := x.extractLsb' 192 64,
    rcn := x.extractLsb' 256 32, cqn := dfld x 288 16, cqb := x.extractLsb' 320 64, poolt := x.extractLsb' 384 64, img := x.extractLsb' 448 64 }
/-- The cores of a partition. -/
def Part.cores (p : Part) : Nat := 8 * popCount (p.podx ||| p.pods)
/-- The window table of a context descriptor, as it stands in memory. -/
def State.winTab (s : State) (x : BitVec 512) : List (Word × Word) :=
  windowsOf (match s.stage2s (Ctx.ofBits x []).pid (dfld x 64 64) 256 with | some ks => ks.map s.byte | none => [])
/-- R130: whether a context descriptor is refused. The reserved bits that it tests are those of the descriptor and of the window-table entries,
both of Table 6.2 (DEDUCED). -/
def State.ctxBad (s : State) (x : BitVec 512) : Bool :=
  let c := Ctx.ofBits x []
  let wt := dfld x 64 64
  let p := s.part c.pid
  dfld x 0 12 == 0 || dfld x 51 13 != 0 || dfld x 304 16 != 0 || (s.winTab x).any (fun w => w.2.extractLsb' 4 8 != 0) || !p.used || c.cqn < 6 || 16 < c.cqn || wt % 16 != 0 || c.ttab.toNat % 65536 != 0 ||
    c.rca.toNat % 4 != 0 || c.cqb.toNat % (16 * 2 ^ c.cqn) != 0 || c.img.toNat % 4096 != 0 ||
    !s.inHbm c.pid wt 256 || !s.inHbm c.pid c.ttab.toNat 65536 || !s.inHbm c.pid c.rca.toNat (4 * c.rcn.toNat) || !s.inHbm c.pid c.cqb.toNat (16 * 2 ^ c.cqn) ||
    !s.inHbm c.pid c.poolt.toNat 0x12040 || !s.inHbm c.pid c.img.toNat (p.cores * 896 * 1024 + 65536) ||
    (s.ctxsOf c.pid).any fun k => (s.ctx k).proc == c.proc
/-- The INC that a CID takes next. -/
def Ctx.nextInc (c : Ctx) : BitVec 10 := if c.used then c.inc + 1 else 0
/-- R137: whether a fence of an incarnation is pending. -/
def State.fencePending (s : State) (cid : BitVec 12) (inc : BitVec 10) : Bool := s.fences.any fun f => f.cid == cid && f.inc == inc
/-- A context comes to life (R130). -/
def State.newCtx (s : State) (cid : BitVec 12) (x : BitVec 512) : State :=
  (s.setCtx cid { Ctx.ofBits x (s.winTab x) with st := .live, used := true, inc := (s.ctx cid).nextInc }).putFlags cid 0

/-! ### Kill and restart (R131, R134, R135) -/

/-- Whether a core is in a CTXSAVE of a context, its handler running or not. -/
def Core.saves (c : Core) (cid : BitVec 12) : Bool := c.ccWait == some (.ctxsave cid) || c.savedWait.any fun x => x.1 == .ctxsave cid
/-- A kill of the current incarnation: its cores, launches, held faults and transfers go, its phasers freeze, its stop is cancelled, the image of a SAVED
context or of a save under way is invalid, and its fence is pending. What is on its way to a home or to another device is dropped there
(Table 6.3). -/
def State.killInc (s : State) (cid : BitVec 12) : State :=
  let c := s.ctx cid
  let s := if c.st == .saved || (s.core e0).saves cid then s.dropImage cid else s
  let s := match c.stop with | some st => s.cutDone cid c.inc 0 3 st.reqs | none => s
  let res := match c.stop with | some st => (3, st.reqs.headD {}) | none => (c.result, c.lastReq)
  let s := s.setCtx cid { c with stop := none, result := res.1, lastReq := res.2, cq := [], cqHead := c.cqTail, horiz := 0, bySlice := false }
  let s := (s.coresOf cid).foldl (fun s n => s.setCore n { halted := (s.core n).halted }) s
  let alive (h : Held) : Bool := !(h.cid == cid && h.inc == c.inc)
  let faults (l : List (FRec × Nat × Bool)) : List (FRec × Nat × Bool) := l.filter fun (r, _, _) => !(r.cid == cid && r.inc == c.inc)
  let s := if faults (s.fheld c.pid) != s.fheld c.pid then s.setFheld c.pid (faults (s.fheld c.pid)) else s
  let s := if faults s.devHeld != s.devHeld then s.setFheld 0 (faults s.devHeld) else s
  { s with
      cores := s.cores.map fun (n, k) => (n, { k with ttc := k.ttc.filter fun t => t.cid != cid })
      launches := s.launches.filter fun (_, l) => match l with | some l => l.cid != cid | none => false
      ueOps := s.ueOps.filter (fun u => alive u.held)
      recvs := s.recvs.filter (fun r => alive r.held)
      destSeen := s.destSeen.filter (fun k => k.2.1 != cid)
      fences := s.fences ++ [{ cid := cid, inc := c.inc, left := s.gts }] }
/-- R134: CTXKILL. -/
def State.kill (s : State) (cid : BitVec 12) : State := (s.killInc cid).modCtx cid fun c => { c with st := .reclaim }
/-- R135: CTXINC: the phase epoch rises (R234), and everything else of the context stays. -/
def State.incCtx (s : State) (cid : BitVec 12) : State := (s.killInc cid).modCtx cid fun c => { c with st := .live, inc := c.inc + 1, epoch := c.epoch + 1 }

/-! ### The reclaim fence (R136) -/

/-- Whether an agent of the device still holds something of an incarnation. -/
def State.holds (s : State) (cid : BitVec 12) (inc : BitVec 10) : Bool :=
  let of (h : Held) : Bool := h.cid == cid && h.inc == inc
  let pkt (p : Pkt) : Bool := p.head.cid == cid && p.head.inc == inc
  let lst (l : QList) : Bool := l.cid == cid && l.inc == inc
  s.flying.any of || s.oreqs.any (fun o => of o.held) || s.areqs.any (fun a => a.tree.members.any of) || s.ueOps.any (fun u => of u.held) ||
    s.recvs.any (fun r => of r.held) || s.tileOps.any (fun t => t.cid == cid && t.inc == inc) || s.txq.any (fun t => pkt t.pkt) || s.relay.any (fun t => pkt t.pkt) ||
    s.combs.any (fun c => c.members.any pkt) || s.parts.any fun (_, p) => p.q.any fun (_, q) => (q.cur.map (·.lst)).toList.any lst || q.pend.any lst
/-- R136: RCF_COMPLETE: four rotor cycles and 1 µs after the incarnation was left, when no agent holds anything of it; its phasers become
free (R111), and a context in RECLAIM becomes FREE. -/
def execRcfComplete (cid inc : Nat) (s : State) : Result :=
  let k : BitVec 12 := BitVec.ofNat 12 cid
  let i : BitVec 10 := BitVec.ofNat 10 inc
  match s.fences.find? fun f => f.cid == k && f.inc == i with
  | none => .next s
  | some f =>
    if !f.asked || s.gts.toNat < f.left.toNat + 103400 || s.holds k i then .next s else
    let c := s.ctx k
    let s := if c.st == .reclaim && c.inc == i then s.setCtx k { c with st := .free } else s
    let s : State := { s with
      fences := s.fences.filter (fun f => !(f.cid == k && f.inc == i))
      phasers := s.phasers.filter (fun x => x.2.owner != some (k, i))
      dedup := s.dedup.filter (fun d => !(d.cid == k && d.inc == i))
      rcache := s.rcache.filter (fun d => !(d.cid == k && d.inc == i))
      seqs := s.seqs.filter fun x => x.1 % (4096 * 1024) != k.toNat * 1024 + i.toNat }
    .next (s.wake 1)

/-! ### Quiescence, saving and loading (R145 to R147) -/

/-- R145: whether a stopped context is quiescent; what the network engine has sent and others have not acknowledged does not count. A charge of a
phaser is outstanding while the completions below the cut have not taken its bytes off. -/
def State.quiescent (s : State) (cid : BitVec 12) : Bool :=
  let inc := (s.ctx cid).inc
  let of (h : Held) : Bool := h.cid == cid && h.inc == inc
  let still (c : Core) : Bool := c.peel.isEmpty && c.hold.isEmpty && c.spawnSlot.isNone && c.capture.isNone
  (s.coresOf cid).all (fun n => still (s.core n)) && !s.flying.any of && !s.oreqs.any (fun o => of o.held) && !s.areqs.any (fun a => a.tree.members.any of) &&
    !s.tileOps.any (fun t => t.cid == cid && t.inc == inc) && s.phasers.all fun x => x.2.owner != some (cid, inc) || x.2.pending == 0
/-- The saved state of a core: what lies in its caches is left out (R146). -/
def Core.saved (c : Core) : Core := { c with icache := [], icOwner := (0, 0), ttc := [], fetched := [], flags := 0, halted := false }
/-- A team leaves its cores: it waits again, with the state of its unfinished tasks and the cores that they held; away from a phase boundary it
returns to those cores (R129). -/
def State.saveTeam (s : State) (k : Nat) (atPhase : Bool) (t : Team) : Team :=
  if t.st != .stopped then t else
  let part (i n : Nat) : Option (Nat × Nat × Core) := (s.core n).task.bind fun x =>
    if x.launch == k && x.team == t.idx && x.t == i && !x.ended && !t.ended.contains i then some (i, n, (s.core n).saved) else none
  { t with st := .waiting, saved := ((List.range t.cores.length).zip t.cores).filterMap (fun (i, n) => part i n), pin := !atPhase, since := s.gts }
/-- A launch with its parent and its tasks' launches renamed, for an incarnation. -/
def Launch.rekey (inc : BitVec 10) (f : Nat → Nat) (l : Launch) : Launch :=
  { l with inc := inc, parent := l.parent.map f,
           teams := l.teams.map fun t => { t with saved := t.saved.map fun (i, n, c) => (i, n, { c with task := c.task.map fun k => { k with launch := f k.launch, inc := inc } }) } }
/-- A phaser with its members' launches renamed, for an incarnation. -/
def Phaser.rekey (cid : BitVec 12) (inc : BitVec 10) (f : Nat → Nat) (p : Phaser) : Phaser :=
  let g (m : PMember) : PMember := { m with launch := f m.launch }
  { p with owner := some (cid, inc), members := p.members.map g, regs := p.regs.map g }
/-- The place of a number in a list. -/
def placeIn (ks : List Nat) (k : Nat) : Nat := (ks.findIdx? (· == k)).getD ks.length
/-- The image of a stopped context: its launches and phasers, with the state of every unfinished tile task. -/
def State.imageOf (s : State) (cid : BitVec 12) : Image :=
  let c := s.ctx cid
  let atPhase := c.cuteff.extractLsb' 0 48 == 0#48
  let ls := s.launches.filterMap fun (k, l) => l.bind fun l => if l.cid == cid && l.inc == c.inc && l.st != .complete then some (k, l) else none
  let f := placeIn (ls.map (·.1))
  { cid := cid, inc := c.inc, pid := c.pid, cuteff := c.cuteff, running := c.bySlice, flags := (s.coresOf cid).foldl (fun f n => f ||| (s.core n).flags) (s.imgFlags cid),
    launchCtr := c.launchCtr, epoch := c.epoch, launches := ls.map fun (k, l) => Launch.rekey c.inc f { l with teams := l.teams.map (s.saveTeam k atPhase) }
    phasers := (s.phasers.filter fun x => x.2.owner == some (cid, c.inc)).map fun (n, p) => (n, p.rekey cid c.inc f)
    cqHead := c.cqHead, cqTail := c.cqTail, cq := c.cq.map fun x => { x with parent := f x.parent } }
/-- R145, R146: the image of a stopped, quiescent context is written at IMG and its cores are released. -/
def State.saveCtx (s : State) (cid : BitVec 12) : State :=
  let c := s.ctx cid
  let cores := s.coresOf cid
  let wait (t : Team) : Team := if t.st == .stopped then { t with st := .waiting } else t
  let img := s.imageOf cid
  let s : State := { s with launches := s.launches.map fun (k, l) => (k, l.map fun l => if l.cid == cid then { l with teams := l.teams.map wait } else l) }
  let s := (s.setCtx cid { c with st := .saved, bySlice := false }).putImage cid img
  cores.foldl (fun s n => s.setCore n { halted := (s.core n).halted, ttc := (s.core n).ttc }) s
/-- What CTXLOAD finds: an image to load, or the status of its refusal. -/
def State.loadable (s : State) (cid : BitVec 12) : Image ⊕ Nat :=
  let c := s.ctx cid
  if !(c.st == .saved || (c.st == .live && (s.openLaunches cid).isEmpty && (s.coresOf cid).isEmpty)) then .inr 1 else
  match s.imageAt cid with
  | none => .inr 5
  | some m => if m.cid != cid || (c.st == .saved && m.inc != c.inc) then .inr 5 else .inl m
/-- The device's number of a launch of an image: that of the launch of the same LAUNCHID which the context still has, else a new one. -/
def State.launchKey (s : State) (cid : BitVec 12) (base i : Nat) (l : Launch) : Nat :=
  match s.launches.find? fun (_, x) => match x with | some x => x.cid == cid && x.inc == (s.ctx cid).inc && x.id == l.id && x.st != .complete | none => false with
  | some (k, _) => k
  | none => base + i
/-- A launch of an image as the device holds it again: its descriptor is that of the launch which it continues, or stands in memory at its address. -/
def State.revive (s : State) (cid : BitVec 12) (k : Nat) (l : Launch) : Launch :=
  match s.launches.get none k with
  | some x => { l with desc := x.desc }
  | none => { l with desc := match s.rawKeys cid l.addr 64 .r with | some ks => LDesc.ofBits (bitsOf 512 (ks.map s.byte)) | none => {} }
/-- The child-queue entries of an image, with what the ring in memory holds of them. -/
def State.reviveCq (s : State) (cid : BitVec 12) (inc : BitVec 10) (f : Nat → Nat) (head : Nat) (cq : List CqEnt) : List CqEnt :=
  let c := s.ctx cid
  ((List.range cq.length).zip cq).map fun (i, x) =>
    let n := leNat (s.gpaBytes cid (c.cqb.toNat + 16 * ((head + i) % 2 ^ c.cqn)) 16)
    let w := match x.held.act with | .spawn _ w => w | _ => false
    { x with parent := f x.parent, held := { x.held with cid := cid, inc := inc, eng := .cc, act := .spawn (BitVec.ofNat 64 n) w, e := BitVec.ofNat 64 (n / 2 ^ 64) } }
/-- R147: CTXLOAD of an image. A SAVED context's launches keep their numbers; a LIVE one takes every item of the image but its INC. A phaser that another
context has taken since is not loaded (DESIGN CHOICE). -/
def State.loadCtx (s : State) (cid : BitVec 12) (m : Image) : State :=
  let c := s.ctx cid
  let live := c.st == .live
  let base := s.nextLaunch
  let keys := ((List.range m.launches.length).zip m.launches).map fun (i, l) => s.launchKey cid base i l
  let f (i : Nat) : Nat := keys.getD i base
  let launches := (keys.zip m.launches).foldl (fun (ls : SMap (Option Launch)) (k, l) => ls.set none k (some ((s.revive cid k l).rekey c.inc f))) s.launches
  let phasers := m.phasers.foldl (fun (ps : SMap Phaser) (n, p) =>
    if match (ps.get {} n).owner with | some (k, _) => k != cid | none => false then ps else ps.set {} n (p.rekey cid c.inc f)) s.phasers
  let s' : State := { s with launches := launches, phasers := phasers, nextLaunch := base + keys.length }
  let c' : Ctx := { c with st := if m.running then .live else .stopped, cuteff := m.cuteff }
  let s' := s'.setCtx cid (if live then { c' with launchCtr := m.launchCtr, epoch := m.epoch, horiz := if m.cuteff == BitVec.allOnes 64 then 0 else m.cuteff,
                                                  cqHead := m.cqHead, cqTail := m.cqTail, cq := s.reviveCq cid c.inc f m.cqHead m.cq } else c')
  if m.running then s'.unlate cid else s'

/-! ### Time slicing (R144) -/

/-- Whether a partition has ready or saved work. -/
def State.hasWork (s : State) (pid : BitVec 7) : Bool :=
  (s.ctxsOf pid).any fun k => (s.ctx k).st == .saved || !(s.coresOf k).isEmpty || (s.openLaunches k).any Launch.waiting
/-- The contexts of a partition that hold cores of a pod set. -/
def State.onPods (s : State) (pid : BitVec 7) (pods : BitVec 32) : List (BitVec 12) :=
  (s.ctxsOf pid).filter fun k => (s.coresOf k).any fun n => pods.getLsbD (n / 8)
/-- Each context is stopped at the next coordinate of its horizon (a request that merges with a pending stop, R261), and saved once it is quiescent. -/
def State.preempt (s : State) : List (BitVec 12) → State
  | [] => s
  | k :: ks =>
    let c := s.ctx k
    let s := if c.st == .live && !(c.stop.any fun st => st.reqs.any fun r => r.srck == 2) then s.requestStop k (s.nextCrd k c.horiz) { srck := 2 } false
      else if c.st == .stopped && s.quiescent k && (s.imgKey k).isSome then s.saveCtx k
      else s
    s.preempt ks
/-- The SAVED contexts of a partition are loaded. -/
def State.loadAll (s : State) : List (BitVec 12) → State
  | [] => s
  | k :: ks => (if (s.ctx k).st == .saved then (match s.loadable k with | .inl m => s.loadCtx k m | .inr _ => s) else s).loadAll ks
/-- The next entry of a rotation whose partition has work. -/
def State.nextSlice (s : State) (t : SliceTab) : Option Nat :=
  let n := t.ents.length
  ((List.range n).map fun i => (t.cur + 1 + i) % n).find? fun i => match t.ents[i]? with | some (p, _) => s.hasWork p | none => false
/-- R144: SLICE_END: at the end of an entry, or when its partition has no work, its contexts leave the set step by step, and then the next
entry with work begins. -/
def execSliceEnd (set : Nat) (s : State) : Result :=
  match s.slices[set]? with
  | none => .next s
  | some t =>
    match t.ents[t.cur]? with
    | none => .next s
    | some (pid, len) =>
      if s.hasWork pid && s.gts.toNat < t.started.toNat + 100000 * len then .next s else
      let on := s.onPods pid t.pods
      if !on.isEmpty then .next (s.preempt on) else
      match s.nextSlice t with
      | none => .next s
      | some i =>
        let s : State := { s with slices := s.slices.set set { t with cur := i, started := s.gts } }
        .next (s.loadAll (s.ctxsOf ((t.ents[i]?.map (·.1)).getD 0)))

end Sys2Proof.Machine
end

