-- ==== Sys2Proof/Machine/Host.lean ====
section
/-! DEFINITION. The host interface (R79 to R97): command queues, SUBMIT, SIGNAL and RMA accesses, the entries of command lists, and
attestation. An entry acts on the list that the interpreter `State.curQ` runs. -/

namespace Sys2Proof.Machine

/-! ### Queues (R82 to R84) -/

/-- A command queue of a partition. -/
def State.queue (s : State) (pid q : Nat) : Queue := (s.part (BitVec.ofNat 7 pid)).q.get {} q
def State.setQueue (s : State) (pid q : Nat) (x : Queue) : State := s.modPart (BitVec.ofNat 7 pid) fun p => { p with q := p.q.set {} q x }
/-- The free entries of a queue: a list being walked still holds its entry. -/
def Queue.free (x : Queue) : Nat := 64 - (x.pend.length + if x.cur.isSome then 1 else 0)
/-- R84: the QSPACE event, once the free entries rise to 16 after a QFULL. DESIGN CHOICE (log entry 101): it concerns a queue and no context, and its
CID and INC are 0. -/
def State.qspace (s : State) (pid q : Nat) : State :=
  let x := s.queue pid q
  if x.full && 16 ≤ x.free then (s.setQueue pid q { x with full := false }).event 1 (BitVec.ofNat 7 pid) 0 0 q 0 0 else s
/-- A list leaves its queue. -/
def State.listGone (s : State) (pid q : Nat) : State := (s.setQueue pid q { s.queue pid q with cur := none }).qspace pid q

/-- The interpreter that moves in this step. -/
def State.interp (s : State) : Option Interp := (s.queue s.curQ.1 s.curQ.2).cur
def State.setInterp (s : State) (i : Interp) : State := s.setQueue s.curQ.1 s.curQ.2 { s.queue s.curQ.1 s.curQ.2 with cur := some i }
/-- The record of a fault of an entry, with the entry's address. -/
def State.listRec (s : State) (i : Interp) (code : BitVec 8) (cls : BitVec 2) (val : Word) : State :=
  let n := 256 + s.curQ.2 % 2
  s.record (BitVec.ofNat 7 s.curQ.1)
    { code := code, cls := cls, eng := 7, cid := i.lst.cid, inc := i.lst.inc, gts := s.gts, src := s.src n, pc := i.pc, val := val } n false
/-- R91: a fault of an entry abandons its list and is delivered as partition class, with the entry's address. -/
def State.listFault (s : State) (i : Interp) (code : BitVec 8) (val : Word) : State :=
  (s.listRec i code 1 val).listGone s.curQ.1 s.curQ.2
/-- An uncorrectable error met by a read of the host's side (R149): a device-class record and a stop of the context at its horizon. -/
def State.hostPoison (s : State) (cid : BitVec 12) (agent : Nat) (pc val : Word) : State :=
  let c := s.ctx cid
  (s.record 0 { code := fEccUe, cls := 2, eng := 7, cid := cid, inc := c.inc, gts := s.gts, src := s.src agent, pc := pc, val := val } agent false).requestStop cid c.horiz
    { srck := 2 } true
/-- An entry of the list that moves; without one nothing happens. -/
def entry (s : State) (f : Interp → State) : Result :=
  match s.interp with
  | none => .next s
  | some i => .next (f i)
/-- The list goes on at an address. -/
def State.goEntry (s : State) (i : Interp) (pc : Word) : State := s.setInterp { i with pc := pc, wait := .none }
def Interp.nextPc (i : Interp) : Word := i.pc + 64

/-! ### Entries (R87 to R91) -/

/-- A condition of Table 4.6; none for the illegal codes. -/
def condHolds (c : Nat) (a b : Word) : Option Bool :=
  match c with
  | 0 => some (a == b) | 1 => some (a != b) | 2 => some (b.ule a) | 3 => some (a.ult b) | 4 => some (b.sle a) | 5 => some (a.slt b) | _ => none
/-- The keys of an entry's word: ADDR a multiple of 8 in a window that grants every permission named (R88). -/
def State.entryWord (s : State) (i : Interp) (addr : Word) (ps : List Perm) : Option (List Nat) :=
  if addr.toNat % 8 != 0 || ps.any (fun p => (s.rawKeys i.lst.cid addr 8 p).isNone) then none else s.rawKeys i.lst.cid addr 8 .r
/-- What TEST finds: the fault of its read, or whether it holds. The read is an acquire at SYS: the context's copies of remote lines are dropped
(R228, R231). -/
def State.entryTest (s : State) (i : Interp) (o : CL) (f : List Nat → Bool → State → State) : State :=
  match s.entryWord i o.w1 [.r] with
  | none => s.listFault i fRawWindow o.w1
  | some ks =>
    if s.anyPoison ks then (s.hostPoison i.lst.cid (256 + s.curQ.2 % 2) i.pc o.w1).listGone s.curQ.1 s.curQ.2 else
    match condHolds o.w4.toNat (bitsOf 64 (ks.map s.byte) &&& o.w3) o.w2 with
    | none => s.listFault i fIllegal 0
    | some b => f ks b (s.dropRemote i.lst.cid)
/-- R88, R102, R107: LAUNCH starts the launch in the list's context and proceeds at once. -/
def execLaunch (o : CL) (s : State) : Result :=
  entry s fun i =>
    let cid := i.lst.cid
    let c := s.ctx cid
    match s.ldesc cid o.w1 with
    | .inr code => s.listFault i code o.w1
    | .inl d =>
      let die := (s.stageDie c.pid d.stage).getD ((s.partDies c.pid).headD 0)
      (s.addLaunch { cid := cid, addr := o.w1, desc := d, base := s.launchBase cid, die := die, queue := s.curQ.2, stag := o.w2.setWidth 32,
                     doneev := o.flg.getLsbD 0, late := c.st != .live || c.stop.isSome }).goEntry i i.nextPc
/-- R89: a list is abandoned at its WAITV's deadline, with a WAITTO event that names the entry. -/
def State.waitTo (s : State) (i : Interp) : State :=
  (s.event 5 (BitVec.ofNat 7 s.curQ.1) i.lst.cid i.lst.inc s.curQ.2 i.pc 0).listGone s.curQ.1 s.curQ.2
/-- R88, R89: WAITV waits until TEST holds; a read at or after its deadline comes too late. -/
def execWaitv (o : CL) (s : State) : Result :=
  entry s fun i => s.entryTest i o fun ks b s =>
    let seen : Word := bitsOf 64 (ks.map s.byte)
    match i.wait with
    | .waitv a c v m d _ _ =>
      if (match d with | some d => d.ule s.gts | none => false) then s.waitTo i
      else if b then s.goEntry i i.nextPc
      else s.setInterp { i with wait := .waitv a c v m d s.gts seen }
    | _ =>
      if b then s.goEntry i i.nextPc
      else s.setInterp { i with wait := .waitv o.w1 (o.w4.setWidth 3) o.w2 o.w3 (if o.w5 == 0 then none else some (s.gts + BitVec.ofNat 64 (1000 * o.w5.toNat))) s.gts seen }
/-- R88: a SIGV writes `f old` to its word, with release at SYS: whatever this interpreter did before has been performed. A poisoned word
of an atomic raises ATOM_POISON and is left as it is. -/
def entrySigv (o : CL) (atomic : Bool) (f : Word → Word) (s : State) : Result :=
  entry s fun i =>
    match s.entryWord i o.w1 [.r, .w] with
    | none => s.listFault i fRawWindow o.w1
    | some ks =>
      if atomic && s.anyPoison ks then (s.listRec i fAtomPoison 0 o.w1).goEntry i i.nextPc
      else (s.writeBytes (ks.zip (leBytes (f (bitsOf 64 (ks.map s.byte))).toNat 8))).goEntry i i.nextPc
/-- R88: SIGV.st. -/
def execSigvSt (o : CL) (s : State) : Result := entrySigv o false (fun _ => o.w2) s
/-- R88: SIGV.add. -/
def execSigvAdd (o : CL) (s : State) : Result := entrySigv o true (fun v => v + o.w2) s
/-- R88: SIGV.or. -/
def execSigvOr (o : CL) (s : State) : Result := entrySigv o true (fun v => v ||| o.w2) s
/-- R88: SKIPIF passes over N entries when TEST holds. -/
def execSkipif (o : CL) (s : State) : Result :=
  entry s fun i => s.entryTest i o fun _ b s => s.goEntry i (if b then i.nextPc + 64 * o.w5 else i.nextPc)
/-- Whether a target is a multiple of 64 in a readable window (R88). -/
def State.targetOk (s : State) (i : Interp) (a : Word) : Bool := a.toNat % 64 == 0 && (s.rawKeys i.lst.cid a 64 .r).isSome
/-- R88: JUMP. -/
def execJump (o : CL) (s : State) : Result :=
  entry s fun i => if s.targetOk i o.w1 then s.goEntry i o.w1 else s.listFault i fRawWindow o.w1
/-- R88, R91: CALL, with at most eight addresses held. -/
def execListCall (o : CL) (s : State) : Result :=
  entry s fun i =>
    if 8 ≤ i.stack.length then s.listFault i fIllegal (BitVec.setWidth 64 (packCL 6 o))
    else if s.targetOk i o.w1 then s.goEntry { i with stack := i.nextPc :: i.stack } o.w1 else s.listFault i fRawWindow o.w1
/-- R88, R91: RET. -/
def execListRet (o : CL) (s : State) : Result :=
  entry s fun i =>
    match i.stack with
    | [] => s.listFault i fIllegal (BitVec.setWidth 64 (packCL 7 o))
    | a :: t => s.goEntry { i with stack := t } a
/-- A CUTREQ: its request is made once; with wait set the list stays until `done`. -/
def entryCut (o : CL) (ask : BitVec 12 → State → State) (fin : State → BitVec 12 → Bool) (s : State) : Result :=
  entry s fun i =>
    let cid := i.lst.cid
    let s := if i.wait == .cut then s else ask cid s
    if !o.flg.getLsbD 0 || fin s cid then s.goEntry i i.nextPc else s.setInterp { i with wait := .cut }
/-- R88, R261: CUTREQ.stop. -/
def execCutreqStop (o : CL) (s : State) : Result :=
  entryCut o (fun cid s => s.requestStop cid o.w1 { srck := 0, queue := s.curQ.2 } true) (fun s cid => (s.ctx cid).stop.isNone) s
/-- R267: CUTREQ.cancel. -/
def execCutreqCancel (o : CL) (s : State) : Result := entryCut o (fun cid s => s.cancelStop cid) (fun s cid => (s.ctx cid).stop.isNone) s
/-- R269: CUTREQ.resume. -/
def execCutreqResume (o : CL) (s : State) : Result := entryCut o (fun cid s => s.resume cid) (fun s cid => (s.ctx cid).st == .live) s
/-- The launches that a FENCE waits for: those that this queue, or any queue of the partition, started from an entry. -/
def State.fenceOf (s : State) (all : Bool) : List Nat :=
  s.launches.filterMap fun (k, l) => l.bind fun l =>
    if !l.child && l.st != .complete && (s.ctx l.cid).pid.toNat == s.curQ.1 && (all || l.queue == s.curQ.2) then some k else none
/-- R88: FENCE waits for every such launch to complete, and then releases at SYS. -/
def execFence (o : CL) (s : State) : Result :=
  entry s fun i =>
    let ks := match i.wait with | .fence ks => ks | _ => s.fenceOf (o.flg.getLsbD 0)
    let open_ := ks.filter fun k => match s.launches.get none k with | some l => l.st != .complete | none => false
    if open_.isEmpty then s.goEntry i i.nextPc else s.setInterp { i with wait := .fence open_ }
/-- R88: NOTE. -/
def execNote (o : CL) (s : State) : Result :=
  entry s fun i => (s.event 4 (BitVec.ofNat 7 s.curQ.1) i.lst.cid i.lst.inc s.curQ.2 o.w1 0).goEntry i i.nextPc
/-- R88: END. -/
def execListEnd (_o : CL) (s : State) : Result :=
  entry s fun i =>
    (if i.lst.doneev then s.event 2 (BitVec.ofNat 7 s.curQ.1) i.lst.cid i.lst.inc s.curQ.2 (i.lst.stag.setWidth 64) 0 else s).listGone s.curQ.1 s.curQ.2

/-- The entry of a waiting WAITV, from what it keeps. -/
def waitvEntry (a v m : Word) (c : BitVec 3) : CL := { flg := 0, w1 := a, w2 := v, w3 := m, w4 := c.setWidth 64, w5 := 0, w6 := 0, w7 := 0 }
/-- R89: WAITV_REREAD: a waiting WAITV reads its word again. -/
def execWaitvReread (pid q : Nat) (s : State) : Result :=
  let s : State := { s with curQ := (pid, q) }
  match s.interp with
  | none => .next s
  | some i =>
    match i.wait with
    | .waitv a c v m _ _ _ => execWaitv (waitvEntry a v m c) s
    | _ => .next s
/-- R89: WAITV_TIMEOUT: the deadline passes; TEST has not held, or the list would have gone on. -/
def execWaitvTimeout (pid q : Nat) (s : State) : Result :=
  let s : State := { s with curQ := (pid, q) }
  match s.interp with
  | none => .next s
  | some i =>
    match i.wait with
    | .waitv _ _ _ _ (some d) _ _ => .next (if s.gts.ult d then s else s.waitTo i)
    | _ => .next s
/-- Whether a waiting WAITV reads again before the clock goes on by `dg`: its word has changed since it read it, or ten microseconds will have passed
(R89). -/
def State.rereadDue (s : State) (i : Interp) (dg : Nat) : Bool :=
  match i.wait with
  | .waitv a _ _ _ _ t seen =>
    t.toNat + 10000 ≤ s.gts.toNat + dg || (match s.rawKeys i.lst.cid a 8 .r with | some ks => bitsOf 64 (ks.map s.byte) != seen | none => true)
  | _ => false
/-- The running lists of the device, by partition and queue. -/
def State.running (s : State) : List (Nat × Nat × Interp) := s.parts.flatMap fun (k, p) => p.q.filterMap fun (q, x) => x.cur.map fun i => (k, q, i)
/-- The waiting WAITVs that are due read again. -/
def State.rereads (s : State) (dg : Nat) : List (Nat × Nat × Interp) → State
  | [] => s
  | (k, q, i) :: xs =>
    (if s.rereadDue i dg then (match execWaitvReread k q s with | .next t => { t with curQ := s.curQ } | _ => s) else s).rereads dg xs

/-! ### SUBMIT (R80, R83, R84) -/

/-- The status of a SUBMIT (Table 4.3). -/
def State.submitStatus (s : State) (pid : Nat) (cid : BitVec 12) (m : SubmitMsg) : Nat :=
  let x := s.queue pid m.queue.toNat
  if !x.en || m.rsv then 2
  else if m.list.toNat % 64 != 0 || (s.rawKeys cid m.list 64 .r).isNone then 3
  else if x.free == 0 then 1
  else 0
/-- R83: SUBMIT, answered by SUBACK; one that names no live context is dropped (R80). -/
def execSubmit (m : SubmitMsg) (s : State) : Result :=
  match s.ueCtx m.ue with
  | none => .next (s.ueDrop m.ue)
  | some cid =>
    let pid := (s.ctx cid).pid.toNat
    let q := m.queue.toNat
    let st := s.submitStatus pid cid m
    let x := s.queue pid q
    let s := if st == 0 then s.setQueue pid q { x with pend := x.pend ++ [{ addr := m.list, stag := m.stag, doneev := m.doneev, cid := cid, inc := (s.ctx cid).inc }] }
      else if st == 1 then s.setQueue pid q { x with full := true } else s
    .next (s.send m.ue (.suback m.ue (BitVec.ofNat 8 st) m.stag (BitVec.ofNat 8 (s.queue pid q).free)))

/-! ### RMA (R81, R86) -/

/-- A host write into the raw windows of a context; freeing entries of its partition's fault buffer while OVF is 1 wakes the supervisor
(R154). -/
def State.hostWrite (s : State) (m : RmaMsg) (bs : List Byte) : State :=
  match s.ueCtx m.ue with
  | none => s.ueDrop m.ue
  | some cid =>
    match s.rawKeys cid m.addr bs.length .w with
    | none => s.send m.ue (.rmaResp m.ue 1 [])
    | some ks =>
      let pid := (s.ctx cid).pid
      let t := s.writeBytes (ks.zip bs)
      let t := if s.cons pid != t.cons pid && !(s.fheld pid).isEmpty then t.wake 3 else t
      t.send m.ue (.rmaResp m.ue 0 [])
/-- R86: SIGNAL: an RMA write of 8 B, performed with release at SYS. -/
def execSignal (m : RmaMsg) (value : BitVec 64) (s : State) : Result := .next (s.hostWrite m (leBytes value.toNat 8))
/-- R81: RMA_WRITE. -/
def execRmaWrite (m : RmaMsg) (bytes : List Byte) (s : State) : Result := .next (s.hostWrite m bytes)
/-- R81: RMA_READ. -/
def execRmaRead (m : RmaMsg) (len : Nat) (s : State) : Result :=
  match s.ueCtx m.ue with
  | none => .next (s.ueDrop m.ue)
  | some cid =>
    match s.rawKeys cid m.addr len .r with
    | none => .next (s.send m.ue (.rmaResp m.ue 1 []))
    | some ks =>
      if s.anyPoison ks then .next ((s.hostPoison cid 256 0 m.addr).send m.ue (.rmaResp m.ue 1 []))
      else .next (s.send m.ue (.rmaResp m.ue 0 (ks.map s.byte)))

/-! ### Attestation (R49, R97) -/

/-- A partition's descriptor in force (Table 6.6): as accepted, with later changes of its budget. -/
def Part.toNat (pid : Nat) (p : Part) : Nat :=
  pid + 2 ^ 8 * p.maxctx + 2 ^ 20 * p.job.toNat + 2 ^ 48 * p.ways.toNat + 2 ^ 64 * p.podx.toNat + 2 ^ 96 * p.pods.toNat + 2 ^ 128 * p.hbm.toNat + 2 ^ 384 * p.lp.toNat +
    2 ^ 416 * p.netsh + 2 ^ 426 * p.hangt.toNat + 2 ^ 448 * (p.nextBudget.getD p.budget).toNat + 2 ^ 512 * p.vault.toNat + 2 ^ 768 * p.fbuf.toNat + 2 ^ 832 * p.grant.toNat
/-- The partition descriptors in force, by ascending PID. -/
def State.partBytes (s : State) : List Byte := s.parts.flatMap fun (k, p) => if p.used then leBytes (p.toNat k) 128 else []
/-- The leaves of the identity key (R49). -/
def xmssLeaves : Nat := 2 ^ 20
/-- Bytes 0 to 199 of a report (Table 4.11). -/
def State.report (s : State) (nonce : List Byte) : List Byte :=
  leBytes (s.conf.xmssLeaf * 2 ^ 32) 8 ++ nonce ++ leBytes (Config.digest s.conf.fwBytes).toNat 32 ++ leBytes (Config.digest s.conf.record).toNat 32 ++
    leBytes (Config.digest s.partBytes).toNat 32 ++ leBytes Config.idKey.toNat 64
/-- A report without a signature: bits 319 to 0. LEAF is not stated in it, and neither is a byte of NONCE that the request did not have. -/
def State.shortReport (s : State) (status : Nat) (payload : List Byte) : List Byte :=
  let p := payload.take 32
  leBytes (status + 2 ^ 32 * ((Config.freeWord s.freeCtr).toNat % 2 ^ 32)) 8 ++ p ++ ((leBytes (Config.freeVec s.freeCtr).toNat 32).drop p.length)
/-- R97: ATTESTATION_REQUEST: the leaf is advanced before the signature leaves the device. -/
def execAttestationRequest (m : AttestMsg) (s : State) : Result :=
  if !s.ueOk m.ue || (s.jobPart m.ue.job).isNone then .next (s.ueDrop m.ue)
  else if m.rsv || m.payload.length != 32 then .next (s.send m.ue (.report m.ue (s.shortReport 2 m.payload)))
  else if xmssLeaves ≤ s.conf.xmssLeaf then .next (s.send m.ue (.report m.ue (s.shortReport 1 m.payload)))
  else
    let r := s.report m.payload
    .next (({ s with conf := { s.conf with xmssLeaf := s.conf.xmssLeaf + 1 } } : State).send m.ue (.report m.ue (r ++ Config.sign (BitVec.ofNat 20 s.conf.xmssLeaf) r)))

end Sys2Proof.Machine
end

