-- ==== Sys2Proof/Machine/Power.lean ====
section
/-! DEFINITION. Power, boot and the test port (R38 to R54, R184, R362): the boot sequence, the lowest power state, freeze and thaw, accesses
to the frozen state, operating points and the thermal hold, messages on the management header, and the debug interface. -/

namespace Sys2Proof.Machine

/-! ### What is lost (R49, R51) -/

def isDram (k : Nat) : Bool := keyKind k == 1 || keyKind k == 2
/-- Everything but flash is lost; DRAM too unless it is kept. Flash holds the SEQ floor and the count of spent leaves. What the device has
already sent is the outside world's, and the clock of steps, the schedule and the numbers of free values are the model's own. -/
def State.lose (s : State) (keep : Bool) : State :=
  { ({} : State) with
      mem := if keep then s.mem.filter (fun x => isDram x.1) else []
      poison := if keep then s.poison.filter (fun x => isDram (64 * x.1)) else []
      conf := { seqFloor := s.conf.seqFloor, xmssLeaf := s.conf.xmssLeaf, retain := s.conf.retain }
      out := s.out, cycle := s.cycle, freeCtr := s.freeCtr, sched := s.sched, nextId := s.nextId, cur := s.cur, curEng := s.curEng, curQ := s.curQ }
/-- R51: the lowest power state: every island is gated. -/
def State.toLowest (s : State) : State :=
  { s.lose s.conf.retain with pstate := .lowest, islands := (List.range 128).foldl (fun (m : SMap Island) i => m.set {} i { op := 5 }) [] }

/-! ### Boot (R45 to R48) -/

/-- A field of the configuration record header (Table 2.6), by its lowest bit and width. -/
def recFld (r : List Byte) (lo n : Nat) : Nat := leNat (r.take 32) / 2 ^ lo % 2 ^ n
/-- The checks of boot step 3 on the header. -/
def recordOk (r : List Byte) : Bool :=
  32 ≤ r.length && recFld r 0 32 == 0x4643584E && recFld r 32 16 == 1 && 32 + 32 * recFld r 112 16 + 2820 ≤ 64 * recFld r 48 16 &&
    recFld r 104 8 ≤ 80 && recFld r 112 16 ≤ 1024 && 400 ≤ recFld r 128 16 && recFld r 128 16 ≤ 1900 && 85 ≤ recFld r 152 8 && recFld r 152 8 ≤ 105 && recFld r 162 94 == 0
/-- The permitted endpoints of a record: the address and the port mask of each entry. -/
def recEndpoints (r : List Byte) : List (BitVec 128 × BitVec 16) :=
  (List.range (recFld r 112 16)).map fun i =>
    let b := r.drop (32 + 32 * i)
    (BitVec.ofNat 128 (leNat (b.take 16)), BitVec.ofNat 16 (leNat ((b.drop 16).take 2)))
/-- What boot step 4 latches. -/
def latched (b : BootInput) (leaf : Nat) : BootConf :=
  let r := b.record
  let num := recFld r 96 8
  { bootsrc := b.straps.bootsrc, devnum := if num == 0 then b.straps.devnum else BitVec.ofNat 8 num, debugen := b.straps.debugen, egress := recFld r 104 8,
    endpoints := recEndpoints r, modpwr := recFld r 128 16, lasermax := BitVec.ofNat 8 (recFld r 144 8), thermlim := recFld r 152 8,
    dbg := recFld r 160 1 == 1, retain := recFld r 161 1 == 1, record := r, fwBytes := b.fw, lpddr := b.lpddr, seqFloor := BitVec.ofNat 32 (recFld r 64 32), xmssLeaf := leaf,
    dfbBase := Config.fwFaultBuffer b.fw }
/-- What the management header reports of a boot: the failed step with its cause (R48), and the channels found absent (R55). -/
def State.bootReport (s : State) (step cause : Nat) (absent : BitVec 32) : State := { s with out := s.out ++ [.mgmt step cause absent] }
/-- The recovery state, with the failed step and its cause (R48): the Ultra Ethernet and fabric ports stay dark. -/
def State.recover (s : State) (step cause : Nat) : State :=
  let dark := [0, 1].flatMap fun e => [2, 3, 4, 5, 6].map (edgeIsland e)
  let s := s.bootReport step cause 0
  { s with pstate := .recovery, conf := { s.conf with failStep := step, failCause := cause },
           islands := dark.foldl (fun (m : SMap Island) i => m.set {} i { op := 5 }) s.islands }
/-- A port retrains (R54), or trains after boot. -/
def Port.retrain (p : Port) : Port := if p.pdis then p else { p with act := 0, trn := p.wena }
/-- All sixteen ports retrain. -/
def State.retrain (s : State) : State := { s with ports := (List.range 16).foldl (fun (m : SMap Port) p => m.set {} p (s.port p).retrain) s.ports }
/-- The supervisor cores at the firmware's entry point, its image in supervisor memory, and the optics training (R37, R47 step 6). -/
def State.startFirmware (s : State) (fw : List Byte) : State :=
  (((({ s with pstate := .running } : State).retrain).putBytes (memKey 3 0 0) fw).setCore 256 { pc := Config.fwEntry fw 0 }).setCore 257 { pc := Config.fwEntry fw 1 }
/-- R47: the boot sequence on a device whose state is `s`. -/
def State.boot (s : State) (b : BootInput) : State :=
  if !b.readOk then s.recover 2 0
  else if !Config.fwValid b.fw b.fwSig then s.recover 3 1
  else if !Config.recordValid b.record then s.recover 3 2
  else if !recordOk b.record then s.recover 3 3
  else if recFld b.record 64 32 < s.conf.seqFloor.toNat then s.recover 3 4
  else
    let s : State := { s with conf := latched b s.conf.xmssLeaf }
    if !b.trained then s.recover 5 0 else
    let s := if b.lpddr == BitVec.allOnes 32 then s else s.bootReport 5 0 (~~~b.lpddr)
    let tab := b.positions.foldl (fun (m : SMap Nat) (d, p) => m.set 0 d.toNat (p.toNat + 1)) []
    (({ s with posTab := tab } : State)).startFirmware b.fw
/-- R47: RESET_RELEASE: HBM and LPDDR-6 keep what they hold. -/
def execResetRelease (b : BootInput) (s : State) : Result := .next ((s.lose true).boot b)
/-- R51: STRAP_WAKE restarts the boot sequence from the lowest power state, with HBM and LPDDR-6 untouched when RETAIN is 1. -/
def execStrapWake (b : BootInput) (s : State) : Result := .next (if s.pstate == .lowest then (s.lose s.conf.retain).boot b else s)
/-- R49: POWER_LOSS: all state but flash is lost; a leaf may be wasted. -/
def execPowerLoss (s : State) : Result :=
  let t := s.lose false
  .next { t with conf := { t.conf with retain := false, xmssLeaf := if Config.freeBit s.freeCtr then Nat.min xmssLeaves (s.conf.xmssLeaf + 1) else s.conf.xmssLeaf } }

/-! ### Freeze, thaw and the test access port (R52 to R54) -/

/-- Whether the test access port exposes the instrument network (R53). -/
def State.exposed (s : State) : Bool := s.conf.debugen && s.conf.dbg
/-- R52: FREEZE from the test access port. -/
def execFreeze (s : State) : Result := .next (if s.pstate == .running && s.exposed then { s with pstate := .frozen } else s)
/-- R54: THAW. -/
def execThaw (viaTap : Bool) (s : State) : Result :=
  .next (if s.pstate != .frozen || (viaTap && !s.exposed) then s else
    ({ s with pstate := .running, tsok := 0 } : State).retrain)
/-- Writes field `f` of an engine, ring pointers included. -/
def EngSt.tapPut (x : EngSt) (f : Nat) (v : Word) : EngSt :=
  match f with
  | 0 => { x with crd := v }
  | 1 => { x with elast := v }
  | 2 => { x with sp := v.setWidth 8 }
  | 3 => { x with ring := { x.ring with base := v.setWidth 19 } }
  | 4 => { x with ring := { x.ring with size := v.setWidth 4 } }
  | 5 => { x with ring := { x.ring with tail := v.setWidth 16 } }
  | 6 => { x with ring := { x.ring with head := v.setWidth 16 } }
  | 7 => { x with ring := { x.ring with ret := v.setWidth 16 } }
  | 8 => { x with skip := v.toNat }
  | _ => x
def EngSt.tapGet (x : EngSt) (f : Nat) : Word :=
  match f with
  | 0 => x.crd
  | 1 => x.elast
  | 2 => x.sp.setWidth 64
  | 3 => x.ring.base.setWidth 64
  | 4 => x.ring.size.setWidth 64
  | 5 => x.ring.tail.setWidth 64
  | 6 => x.ring.head.setWidth 64
  | 7 => x.ring.ret.setWidth 64
  | 8 => BitVec.ofNat 64 x.skip
  | _ => 0
/-- Field `f` of a context (Tables 6.1 and 6.2, R132, R248); its state by its number in Table 6.1. -/
def Ctx.tapGet (c : Ctx) (f : Nat) : Word :=
  match f with
  | 0 => match c.st with | .free => 0 | .live => 1 | .stopped => 2 | .saved => 3 | .reclaim => 4
  | 1 => c.inc.setWidth 64
  | 2 => c.pid.setWidth 64
  | 3 => c.proc.setWidth 64
  | 4 => c.ttab
  | 5 => c.rca
  | 6 => c.rcn.setWidth 64
  | 7 => BitVec.ofNat 64 c.cqn
  | 8 => c.cqb
  | 9 => c.poolt
  | 10 => c.img
  | 11 => c.launchCtr.setWidth 64
  | 12 => c.epoch.setWidth 64
  | 13 => c.horiz
  | 14 => c.cuteff
  | 15 => BitVec.ofNat 64 c.cqHead
  | 16 => BitVec.ofNat 64 c.cqTail
  | _ => 0
def Ctx.tapPut (c : Ctx) (f : Nat) (v : Word) : Ctx :=
  match f with
  | 0 => { c with st := match v.toNat with | 0 => .free | 1 => .live | 2 => .stopped | 3 => .saved | 4 => .reclaim | _ => c.st }
  | 1 => { c with inc := v.setWidth 10 }
  | 2 => { c with pid := v.setWidth 7 }
  | 3 => { c with proc := v.setWidth 32 }
  | 4 => { c with ttab := v }
  | 5 => { c with rca := v }
  | 6 => { c with rcn := v.setWidth 32 }
  | 7 => { c with cqn := v.toNat }
  | 8 => { c with cqb := v }
  | 9 => { c with poolt := v }
  | 10 => { c with img := v }
  | 11 => { c with launchCtr := v.setWidth 32 }
  | 12 => { c with epoch := v.setWidth 24 }
  | 13 => { c with horiz := v }
  | 14 => { c with cuteff := v }
  | 15 => { c with cqHead := v.toNat }
  | 16 => { c with cqTail := v.toNat }
  | _ => c
/-- A field of a port by its index in Table 3.9: FXCTL, the two wavelength masks, then the counters. -/
def Port.tapPut (p : Port) (f : Nat) (v : Word) : Port :=
  match f with
  | 0 => { p with ctl := v }
  | 1 => { p with act := v.setWidth 8 }
  | 2 => { p with trn := v.setWidth 8 }
  | 3 => { p with corr := v }
  | 4 => { p with unc := v }
  | 5 => { p with repl := v }
  | 6 => { p with wdr := v }
  | 7 => { p with rtry := v }
  | 8 => { p with dup := v }
  | 9 => { p with stale := v }
  | 10 => { p with orph := v }
  | 11 => { p with comb := v }
  | 12 => { p with bad := v }
  | _ => p
def Port.tapGet (p : Port) (f : Nat) : Word :=
  match f with
  | 0 => p.ctl
  | 1 => p.act.setWidth 64
  | 2 => p.trn.setWidth 64
  | 3 => p.corr
  | 4 => p.unc
  | 5 => p.repl
  | 6 => p.wdr
  | 7 => p.rtry
  | 8 => p.dup
  | 9 => p.stale
  | 10 => p.orph
  | 11 => p.comb
  | 12 => p.bad
  | _ => 0
/-- A completion counter: value, threshold, token and tag. -/
def NCtr.bits (c : NCtr) : BitVec 184 := c.tag ++ (c.tok ++ (c.thresh ++ c.value))
def NCtr.ofBits (v : Vec) : NCtr := { value := v.extractLsb' 0 64, thresh := v.extractLsb' 64 48, tok := v.extractLsb' 112 8, tag := v.extractLsb' 120 64 }
/-- The data of entry `i` of a queue takes a value, where there is one. -/
def putData : List QEnt → Nat → Vec → List QEnt
  | [], _, _ => []
  | x :: xs, 0, v => { x with data := v } :: xs
  | x :: xs, i + 1, v => x :: putData xs i v
/-- What a piece of the frozen state holds. -/
def State.tapGet (s : State) (r : TapReg) : Vec :=
  match r with
  | .mem k => (s.byte k).setWidth 2048
  | .poison k => if s.poison.get false k then 1 else 0
  | .spad n a => ((s.core n).spadByte a).setWidth 2048
  | .pc n => (s.core n).pc.setWidth 2048
  | .s n r => ((s.core n).s.get 0 r.toNat).setWidth 2048
  | .g n r => ((s.core n).g.get 0 r.toNat).setWidth 2048
  | .v n r => (s.core n).v.get 0 r.toNat
  | .p n r => ((s.core n).p.get 0 r.toNat).setWidth 2048
  | .q n r f =>
    let x := (s.core n).q.get {} r.toNat
    if f == 0 then x.code.setWidth 2048 else if f == 1 then x.lin.setWidth 2048 else if x.ind then 1 else 0
  | .eng n e f => (((s.core n).eng e).tapGet f).setWidth 2048
  | .tok n t => (tokBits ((s.core n).tok.get {} t.toNat)).setWidth 2048
  | .wset n i => ((s.core n).wset.get 0 i.toNat).setWidth 2048
  | .cb n i => (cbBits ((s.core n).cbs.get none i.toNat)).setWidth 2048
  | .cfg n sel => (((s.core n).cfgItem sel).getD 0).setWidth 2048
  | .acc n t i => ((if t then (s.core n).mx.acc1 else (s.core n).mx.acc0).get 0 i).setWidth 2048
  | .mask n c => (if c then (s.core n).mx.cmask else (s.core n).mx.rmask).setWidth 2048
  | .flags n m => (if m then (s.core n).mx.flags else (s.core n).flags).setWidth 2048
  | .counter n i => ((s.core n).nctr.get {} i).bits.setWidth 2048
  | .sys n k => ((s.sysReg n k).getD 0).setWidth 2048
  | .entry n st q i => (((if st then (s.core n).sq else (s.core n).dq).get [] q)[i]?.getD {}).data
  | .defer n t => BitVec.ofNat 2048 (if t then (s.core n).defTail else (s.core n).defHead)
  | .ctx k f => ((s.ctx (BitVec.ofNat 12 k)).tapGet f).setWidth 2048
  | .window k i f =>
    let w := ((s.ctx (BitVec.ofNat 12 k)).wins.getD i (0, 0))
    (if f == 0 then w.1 else w.2).setWidth 2048
  | .part pid => BitVec.ofNat 2048 ((s.part pid).toNat pid.toNat)
  | .phaser n f => if f == 0 then (s.phaser n).counter.setWidth 2048 else (s.phaser n).pending.setWidth 2048
  | .port p f => ((s.port p).tapGet f).setWidth 2048
  | .position d => BitVec.ofNat 2048 (s.posTab.get 0 d.toNat)
  | .wfe => s.wfe.setWidth 2048
  | .refWindow => s.window.setWidth 2048
/-- A piece of the frozen state takes a value; s0 keeps 0, and what only reads elsewhere (a task's identity, the clock) keeps its value. -/
def State.tapPut (s : State) (r : TapReg) (v : Vec) : State :=
  let w : Word := v.setWidth 64
  match r with
  | .mem k => s.setByte k (v.setWidth 8)
  | .poison k => { s with poison := s.poison.set false k (v.getLsbD 0) }
  | .spad n a => s.modCore n fun c => c.putSpadByte a (v.setWidth 8)
  | .pc n => s.modCore n fun c => { c with pc := w, fetched := [] }
  | .s n r => s.modCore n fun c => { c with s := if r == 0 then c.s else c.s.set 0 r.toNat w }
  | .g n r => s.modCore n fun c => { c with g := c.g.set 0 r.toNat w }
  | .v n r => s.modCore n fun c => { c with v := c.v.set 0 r.toNat v }
  | .p n r => s.modCore n fun c => { c with p := c.p.set 0 r.toNat (v.setWidth 256) }
  | .q n r f => s.modCore n fun c =>
      let x := c.q.get {} r.toNat
      { c with q := c.q.set {} r.toNat (if f == 0 then { x with code := v.setWidth 1024 } else if f == 1 then { x with lin := v.setWidth 16 } else { x with ind := v.getLsbD 0 }) }
  | .eng n e f => s.modCore n fun c => c.modEng e fun x => x.tapPut f w
  | .tok n t => s.modCore n fun c => { c with tok := c.tok.modify {} t.toNat fun x => { x with count := v.extractLsb' 0 16, tag := v.extractLsb' 16 64 } }
  | .wset n i => s.modCore n fun c => { c with wset := c.wset.set 0 i.toNat w }
  | .cb n i => s.modCore n fun c =>
      { c with cbs := c.cbs.modify none i.toNat fun b => b.map fun b =>
          { b with filled := dfld v 0 9, free := dfld v 9 9, ridx := dfld v 18 8, widx := dfld v 26 8, tag := v.extractLsb' 64 64 } }
  | .cfg n sel => s.modCore n fun c => if (c.cfgItem sel).isSome then c.putCfg sel w else c
  | .acc n t i => s.modCore n fun c =>
      { c with mx := if t then { c.mx with acc1 := c.mx.acc1.set 0 i (v.setWidth 32) } else { c.mx with acc0 := c.mx.acc0.set 0 i (v.setWidth 32) } }
  | .mask n cl => s.modCore n fun c => { c with mx := if cl then { c.mx with cmask := v.setWidth 128 } else { c.mx with rmask := v.setWidth 128 } }
  | .flags n m => s.modCore n fun c => if m then { c with mx := { c.mx with flags := v.setWidth 8 } } else { c with flags := v.setWidth 8 }
  | .counter n i => s.modCore n fun c => { c with nctr := c.nctr.set {} i (NCtr.ofBits v) }
  | .sys n k => s.modCore n fun c => if k == 1 then { c with tcause := w } else if k == 3 then { c with tval := w } else c.putSys k w
  | .entry n st q i => s.modCore n fun c =>
      if st then { c with sq := c.sq.modify [] q fun l => putData l i v } else { c with dq := c.dq.modify [] q fun l => putData l i v }
  | .defer n t => s.modCore n fun c => if t then { c with defTail := v.toNat } else { c with defHead := v.toNat }
  | .ctx k f => s.modCtx (BitVec.ofNat 12 k) fun c => c.tapPut f w
  | .window k i f => s.modCtx (BitVec.ofNat 12 k) fun c =>
      { c with wins := (c.wins.take i) ++ ((c.wins.drop i).take 1).map (fun x => if f == 0 then (w, x.2) else (x.1, w)) ++ c.wins.drop (i + 1) }
  | .part pid => s.modPart pid fun p =>
      let q := Part.ofBits (v.setWidth 1024)
      { p with maxctx := q.maxctx, job := q.job, ways := q.ways, podx := q.podx, pods := q.pods, hbm := q.hbm, lp := q.lp, netsh := q.netsh, hangt := q.hangt,
               budget := q.budget, vault := q.vault, fbuf := q.fbuf, grant := q.grant }
  | .phaser n f => s.setPhaser n (let p := s.phaser n; if f == 0 then { p with counter := v.setWidth 64 } else { p with pending := v.setWidth 32 })
  | .port p f => s.modPort p fun x => x.tapPut f w
  | .position d => { s with posTab := s.posTab.set 0 d.toNat (v.toNat % 65) }
  | .wfe => { s with wfe := v.setWidth 7 }
  | .refWindow => { s with window := w }
/-- R53: TAP_ACCESS: a read or write of the frozen state. -/
def execTapAccess (op : TapOp) (s : State) : Result :=
  .next (if s.pstate != .frozen || !s.exposed then s else
    match op with
    | .read r => { s with out := s.out ++ [.tap (s.tapGet r)] }
    | .write r v => s.tapPut r v)

/-! ### Operating points (R39 to R42) -/

/-- One of the conditions of R40 holds. -/
def State.hot (s : State) (r : ThermReading) : Bool := 200 < r.density || s.conf.thermlim < r.junction || s.conf.modpwr < r.modpwr
/-- R40: THERMAL_STEP_DOWN, on an island of a compute die, by hardware or because firmware asks for a lower point. -/
def execThermalStepDown (isl : Nat) (r : ThermReading) (s : State) : Result :=
  let x := s.island isl
  .next (if isl < 112 && x.op < 4 && (s.hot r || r.firmware) then (s.setIsland isl { x with op := x.op + 1 }).wake 5 else s)
/-- R40: THERMAL_STEP_UP. -/
def execThermalStepUp (isl : Nat) (r : ThermReading) (s : State) : Result :=
  let x := s.island isl
  .next (if isl < 112 && 0 < x.op && x.op ≤ 4 && !s.hot r && !r.firmware && 100 ≤ r.clearUs then s.setIsland isl { x with op := x.op - 1 } else s)
/-- R42: THERMAL_HOLD: issue stops on the island's engines, which keep their state; a held island is OFF (Table 2.4). -/
def execThermalHold (isl : Nat) (r : ThermReading) (s : State) : Result :=
  let x := s.island isl
  .next (if isl < 112 && x.op == 4 && !x.hold && s.conf.thermlim + 10 ≤ r.junction then (s.setIsland isl { op := 5, hold := true }).wake 5 else s)
/-- R42: THERMAL_HOLD_END: the island runs on at OP4. -/
def execThermalHoldEnd (isl : Nat) (r : ThermReading) (s : State) : Result :=
  let x := s.island isl
  .next (if x.hold && r.junction < s.conf.thermlim then s.setIsland isl { op := 4 } else s)

/-! ### The management header and the debug interface (R184, R261, R362) -/

/-- R362: MGMT_MESSAGE. -/
def execMgmtMessage (s : State) : Result := .next (s.wake 6)
/-- R184, R261: DEBUG_INTERFACE_REQUEST: a stop, its cancel, a resume, or a halt of a core whose exposed state the replay buffer takes. -/
def execDebugInterfaceRequest (r : DebugReq) (s : State) : Result :=
  match r with
  | .stop cid k => .next (s.requestStop (BitVec.ofNat 12 cid) k { srck := 3 } true)
  | .cancel cid => .next (s.cancelStop (BitVec.ofNat 12 cid))
  | .resume cid => .next (s.resume (BitVec.ofNat 12 cid))
  | .halt n => .next (if (s.core n).halted then s else s.modCore n fun c => { c with halted := true, capture := if c.capture.isSome then c.capture else some s.cycle })
  | .go n => .next (if !(s.core n).halted then s else
      s.modCore n fun c => let c := { c with halted := false }; if tcInh c.tcause then c else c.reinject s.cycle)

end Sys2Proof.Machine
end

