-- ==== Sys2Proof/Machine/Vector.lean ====
section
/-! DEFINITION. Execute-sequencer words (R382 to R397): floating and integer arithmetic, functions, compares, conversions, reductions,
moves, predicates, the deferral queue, loops, blocks and flags. -/

namespace Sys2Proof.Machine

/-! ### Lane by lane -/

/-- RM, SAT and UNS of the modifier field (R304). -/
def mRm (o : RR) : Nat := (o.c.extractLsb' 3 3).toNat
def mSat (o : RR) : Bool := o.c.getLsbD 2
/-- Results of `n` lanes of `w` bytes with the flags they raise. -/
def lanesOf (w n : Nat) (f : Nat → Nat × Flags) : Vec × Flags :=
  let rs := (List.range n).map f
  (ofLanes w (rs.map (·.1)), (rs.map (·.2)).foldl (· ||| ·) 0)
/-- The effects of a v result with flags. -/
def Core.outF (c : Core) (d : BitVec 6) (e : Word) (r : Vec × Flags) : List ExeEff := c.outV d e r.1 ++ [.flags r.2]
/-- The packed FN of a form with a two-bit type or width code. -/
def fnT (form : BitVec 5) (t : BitVec 2) : BitVec 5 := form ||| (t.setWidth 5 <<< 3)
/-- A form of one to three v sources that computes `n` lanes of `w` bytes; `g` takes the lane number and the lane's codes. -/
def vLaneOp (h : Hdr) (word : Word) (o : RR) (vs : List (BitVec 6 × Bool)) (w : Nat) (g : Word → Nat → List Nat → Nat × Flags) (s : State) : Result :=
  exeOp h word o.q o.lat { vs := vs, d := o.d }
    (fun e xs => s.me.outF o.d e (lanesOf w (256 / w) fun i => g e i (xs.map fun x => vLane x w i))) s
/-- A floating form in type `t` (R382, R385): the exact result of its lanes, rounded in a mode. -/
def vFloat (h : Hdr) (word : Word) (o : RR) (vs : List (BitVec 6 × Bool)) (t mode : Nat) (sat : Bool) (g : List Val → Val × Flags) (s : State) : Result :=
  let F := fmtOf t
  vLaneOp h word o vs (tWidth t) (fun e i cs =>
    let (v, f) := g (cs.map F.decode)
    let (c, f') := F.encode (rmAt mode sat s.me.seed e i) v
    (c, f ||| f')) s
def srcA (o : RR) : List (BitVec 6 × Bool) := [(o.a, o.la)]
def srcAB (o : RR) : List (BitVec 6 × Bool) := [(o.a, o.la), (o.b, o.lb)]
def srcABC (o : RR) : List (BitVec 6 × Bool) := [(o.a, o.la), (o.b, o.lb), (o.c, o.lc)]
/-- The `i`-th of a list of values. -/
def nthV (l : List Val) (i : Nat) : Val := l.getD i .cnan

/-! ### Floating arithmetic (R382, R385) -/

/-- R382: A + B. -/
def execVadd (h : Hdr) (fx : BitVec 2) (o : RR) (s : State) : Result :=
  vFloat h (packRR h 0x40 (fnT 0 fx) o) o (srcAB o) fx.toNat (mRm o) (mSat o) (fun v => vadd (mRm o) (nthV v 0) (nthV v 1)) s
/-- R382: A − B. -/
def execVsub (h : Hdr) (fx : BitVec 2) (o : RR) (s : State) : Result :=
  vFloat h (packRR h 0x40 (fnT 1 fx) o) o (srcAB o) fx.toNat (mRm o) (mSat o) (fun v => vsub (mRm o) (nthV v 0) (nthV v 1)) s
/-- R382: A × B. -/
def execVmul (h : Hdr) (fx : BitVec 2) (o : RR) (s : State) : Result :=
  vFloat h (packRR h 0x40 (fnT 2 fx) o) o (srcAB o) fx.toNat (mRm o) (mSat o) (fun v => vmul (nthV v 0) (nthV v 1)) s
/-- R382: the smaller, −0 below +0. -/
def execVmin (h : Hdr) (fx : BitVec 2) (o : RR) (s : State) : Result :=
  vFloat h (packRR h 0x40 (fnT 3 fx) o) o (srcAB o) fx.toNat 0 false (fun v => vminmax false (nthV v 0) (nthV v 1)) s
/-- R382: the larger. -/
def execVmax (h : Hdr) (fx : BitVec 2) (o : RR) (s : State) : Result :=
  vFloat h (packRR h 0x40 (fnT 4 fx) o) o (srcAB o) fx.toNat 0 false (fun v => vminmax true (nthV v 0) (nthV v 1)) s
/-- R382: the sign bit cleared, NaNs included. -/
def execVabs (h : Hdr) (fx : BitVec 2) (o : RR) (s : State) : Result :=
  vLaneOp h (packRR h 0x40 (fnT 5 fx) o) o (srcA o) (tWidth fx.toNat) (fun _ _ cs => let c := cs.getD 0 0; (c % (fmtOf fx.toNat).signBit, 0)) s
/-- R382: the sign bit inverted. -/
def execVneg (h : Hdr) (fx : BitVec 2) (o : RR) (s : State) : Result :=
  vLaneOp h (packRR h 0x40 (fnT 6 fx) o) o (srcA o) (tWidth fx.toNat) (fun _ _ cs => let c := cs.getD 0 0; (c ^^^ (fmtOf fx.toNat).signBit, 0)) s
/-- R382: A × B + C, rounded once. -/
def execVfma (h : Hdr) (fx : BitVec 2) (o : RR) (s : State) : Result :=
  vFloat h (packRR h 0x41 (fnT 0 fx) o) o (srcABC o) fx.toNat 0 false (fun v => vfma 0 false false (nthV v 0) (nthV v 1) (nthV v 2)) s
/-- R382: A × B − C. -/
def execVfms (h : Hdr) (fx : BitVec 2) (o : RR) (s : State) : Result :=
  vFloat h (packRR h 0x41 (fnT 1 fx) o) o (srcABC o) fx.toNat 0 false (fun v => vfma 0 false true (nthV v 0) (nthV v 1) (nthV v 2)) s
/-- R382: C − A × B. -/
def execVfnma (h : Hdr) (fx : BitVec 2) (o : RR) (s : State) : Result :=
  vFloat h (packRR h 0x41 (fnT 2 fx) o) o (srcABC o) fx.toNat 0 false (fun v => vfma 0 true false (nthV v 0) (nthV v 1) (nthV v 2)) s
/-- R385: A / B, correctly rounded. -/
def execVdiv (h : Hdr) (fx : BitVec 2) (o : RR) (s : State) : Result :=
  vFloat h (packRR h 0x44 (fnT 0 fx) o) o (srcAB o) fx.toNat (mRm o) (mSat o) (fun v => vdiv (nthV v 0) (nthV v 1)) s
/-- R385: √A. -/
def execVsqrt (h : Hdr) (fx : BitVec 2) (o : RR) (s : State) : Result :=
  vFloat h (packRR h 0x44 (fnT 1 fx) o) o (srcA o) fx.toNat (mRm o) (mSat o) (fun v => vsqrt (nthV v 0)) s
/-- R385: 1 / A. -/
def execVrcp (h : Hdr) (fx : BitVec 2) (o : RR) (s : State) : Result :=
  vFloat h (packRR h 0x44 (fnT 2 fx) o) o (srcA o) fx.toNat (mRm o) (mSat o) (fun v => vrcp (nthV v 0)) s
/-- R385: 1 / √A. -/
def execVrsq (h : Hdr) (fx : BitVec 2) (o : RR) (s : State) : Result :=
  vFloat h (packRR h 0x44 (fnT 3 fx) o) o (srcA o) fx.toNat (mRm o) (mSat o) (fun v => vrsq (nthV v 0)) s
/-- R292, R385: 2^A on FP32 lanes. -/
def execVexp2 (h : Hdr) (o : RR) (s : State) : Result :=
  vFloat h (packRR h 0x45 0 o) o (srcA o) 0 0 false (fun v => vexp2 (nthV v 0)) s
/-- R292, R385: log2 A on FP32 lanes. -/
def execVlog2 (h : Hdr) (o : RR) (s : State) : Result :=
  vFloat h (packRR h 0x45 1 o) o (srcA o) 0 0 false (fun v => vlog2 (nthV v 0)) s
/-- R292, R385: tanh A on FP32 lanes, faithfully rounded. -/
def execVtanh (h : Hdr) (o : RR) (s : State) : Result :=
  vLaneOp h (packRR h 0x45 2 o) o (srcA o) 4 (fun _ _ cs => tanh32 (cs.getD 0 0)) s

/-! ### Integer arithmetic and dots (R383, R384) -/

/-- A lane as a signed, or with .n unsigned, number of `b` bits. -/
def laneInt (uns : Bool) (b x : Nat) : Int := if !uns && 2 ^ (b - 1) ≤ x then (x : Int) - 2 ^ b else x
/-- An exact result reduced to `b` bits, or clamped under .sat. -/
def laneFit (uns sat : Bool) (b : Nat) (x : Int) : Nat × Flags :=
  let lo : Int := if uns then 0 else -(2 ^ (b - 1) : Int)
  let hi : Int := if uns then 2 ^ b - 1 else 2 ^ (b - 1) - 1
  let wrap (y : Int) : Nat := (y % (2 ^ b : Int)).toNat
  if sat && x < lo then (wrap lo, flSat) else if sat && hi < x then (wrap hi, flSat) else (wrap x, 0)
/-- An integer form on lanes of width code `wc` (R383). -/
def vInt (h : Hdr) (word : Word) (o : RR) (wc : Nat) (g : Nat → Nat → Nat → Nat × Flags) (s : State) : Result :=
  let w := wWidth wc
  vLaneOp h word o (srcAB o) w (fun _ _ cs => g (8 * w) (cs.getD 0 0) (cs.getD 1 0)) s

/-- R383: the sum. -/
def execViadd (h : Hdr) (fx : BitVec 2) (o : RR) (s : State) : Result :=
  vInt h (packRR h 0x42 (fnT 0 fx) o) o fx.toNat (fun b x y => laneFit (mUns o) (mSat o) b (laneInt (mUns o) b x + laneInt (mUns o) b y)) s
/-- R383: the difference. -/
def execVisub (h : Hdr) (fx : BitVec 2) (o : RR) (s : State) : Result :=
  vInt h (packRR h 0x42 (fnT 1 fx) o) o fx.toNat (fun b x y => laneFit (mUns o) (mSat o) b (laneInt (mUns o) b x - laneInt (mUns o) b y)) s
/-- R383: the product. -/
def execVimul (h : Hdr) (fx : BitVec 2) (o : RR) (s : State) : Result :=
  vInt h (packRR h 0x42 (fnT 2 fx) o) o fx.toNat (fun b x y => laneFit (mUns o) (mSat o) b (laneInt (mUns o) b x * laneInt (mUns o) b y)) s
/-- R383: A shifted left by B mod the width. -/
def execVshl (h : Hdr) (fx : BitVec 2) (o : RR) (s : State) : Result :=
  vInt h (packRR h 0x42 (fnT 3 fx) o) o fx.toNat (fun b x y => (x * 2 ^ (y % b), 0)) s
/-- R383: A shifted right, arithmetically or with .n logically. -/
def execVshr (h : Hdr) (fx : BitVec 2) (o : RR) (s : State) : Result :=
  vInt h (packRR h 0x42 (fnT 4 fx) o) o fx.toNat (fun b x y => laneFit false false b (laneInt (mUns o) b x / 2 ^ (y % b))) s
/-- R383: A AND B. -/
def execVand (h : Hdr) (fx : BitVec 2) (o : RR) (s : State) : Result :=
  vInt h (packRR h 0x42 (fnT 5 fx) o) o fx.toNat (fun _ x y => (x &&& y, 0)) s
/-- R383: A OR B. -/
def execVor (h : Hdr) (fx : BitVec 2) (o : RR) (s : State) : Result :=
  vInt h (packRR h 0x42 (fnT 6 fx) o) o fx.toNat (fun _ x y => (x ||| y, 0)) s
/-- R383: A XOR B. -/
def execVxor (h : Hdr) (fx : BitVec 2) (o : RR) (s : State) : Result :=
  vInt h (packRR h 0x42 (fnT 7 fx) o) o fx.toNat (fun _ x y => (x ^^^ y, 0)) s
/-- R384: C + the dot product of four signed bytes, modulo 2^32. -/
def execVdot4 (h : Hdr) (o : RR) (s : State) : Result :=
  vLaneOp h (packRR h 0x43 0 o) o (srcABC o) 4 (fun _ _ cs =>
    let b (k j : Nat) : Int := laneInt false 8 (cs.getD k 0 / 2 ^ (8 * j) % 256)
    let x : Int := (cs.getD 2 0 : Int) + b 0 0 * b 1 0 + b 0 1 * b 1 1 + b 0 2 * b 1 2 + b 0 3 * b 1 3
    laneFit true false 32 x) s
/-- The sum of two BF16 products and an FP32 value, formed exactly; NaN operands in the order A, B, C of each field's lanes (R282). -/
def dot2 (a0 a1 b0 b1 c : Val) : Val × Flags :=
  (nanOf [a0, a1, b0, b1, c]).getD
    (match mulFin a0 b0, mulFin a1 b1 with
     | (p, 0), (q, 0) => (match addFin 0 p q with | (r, 0) => addFin 0 r c | x => x)
     | _, _ => (.cnan, flInvalid))
/-- R384: C + A₀ × B₀ + A₁ × B₁ rounded once; BF16 factors, FP32 sum. -/
def execVdot2 (h : Hdr) (o : RR) (s : State) : Result :=
  vLaneOp h (packRR h 0x43 1 o) o (srcABC o) 4 (fun _ _ cs =>
    let half (k j : Nat) : Val := bf16.decode (cs.getD k 0 / 2 ^ (16 * j) % 2 ^ 16)
    let (v, f) := dot2 (half 0 0) (half 0 1) (half 1 0) (half 1 1) (fp32.decode (cs.getD 2 0))
    let (c, f') := fp32.encode {} v
    (c, f ||| f')) s

/-! ### Compares, selects and conversions (R386 to R388) -/

/-- Conditions 0 to 5: EQ NE LT LE GT GE, from an order. -/
def condOf (k : Nat) (x : Int) : Bool :=
  match k with
  | 0 => x == 0
  | 1 => x != 0
  | 2 => x < 0
  | 3 => x ≤ 0
  | 4 => 0 < x
  | _ => 0 ≤ x
/-- A floating compare: a NaN makes every condition but NE false; it sets INVALID when it signals or the condition orders. -/
def fcmp (k : Nat) (a b : Val) : Bool × Flags :=
  if a.isNan || b.isNan then (k == 1, flIf (a.isSig || b.isSig || 2 ≤ k) flInvalid) else (condOf k (cmpVal a b), 0)
/-- Results of `n` lanes as a predicate with flags. -/
def predLanes (w n : Nat) (f : Nat → Bool × Flags) : Pred × Flags :=
  let rs := (List.range n).map f
  (predOf w (rs.map (·.1)), (rs.map (·.2)).foldl (· ||| ·) 0)
def pOut (d : BitVec 6) (r : Pred × Flags) : List ExeEff := [.p d.toNat r.1, .flags r.2]
/-- R386: a floating compare into a predicate. -/
def execVcmp (h : Hdr) (fx : BitVec 5) (o : RR) (s : State) : Result :=
  let t := fx.toNat / 8
  let w := tWidth t
  let F := fmtOf t
  exeOp h (packRR h 0x46 fx o) o.q o.lat { vs := srcAB o }
    (fun _ xs => pOut o.d (predLanes w (256 / w) fun i => fcmp (fx.toNat % 8) (F.decode (vLane (xs.getD 0 0) w i)) (F.decode (vLane (xs.getD 1 0) w i)))) s
/-- R386: an integer compare; the width stands in M[5:4], .n in M[1]. -/
def execVicmp (h : Hdr) (fx : BitVec 3) (o : RR) (s : State) : Result :=
  let w := wWidth (o.c.extractLsb' 4 2).toNat
  exeOp h (packRR h 0x46 (24 ||| fx.setWidth 5) o) o.q o.lat { vs := srcAB o }
    (fun _ xs => pOut o.d (predLanes w (256 / w) fun i =>
      (condOf fx.toNat (laneInt (mUns o) (8 * w) (vLane (xs.getD 0 0) w i) - laneInt (mUns o) (8 * w) (vLane (xs.getD 1 0) w i)), 0))) s
/-- R387: bytes of A where the predicate is set, of B elsewhere. -/
def execVsel (h : Hdr) (o : RR) (s : State) : Result :=
  exeOp h (packRR h 0x47 0 o) o.q o.lat { vs := srcAB o, ps := [o.c], d := o.d }
    (fun e xs => s.me.outV o.d e (ofLanes 1 ((List.range 256).map fun j => vLane (xs.getD (if (s.rdP o.c).getLsbD j then 0 else 1) 0) 1 j))) s
/-- Element bytes of a format. -/
def fmtBytes (c : Nat) : Nat := ([32, 16, 16, 8, 8, 4, 8, 16, 8, 16, 32, 64, 8, 16, 32, 64].getD c 8) / 8
/-- R388: converts from the format in B[25:21] to that of FN; the bytes above the results are zero. -/
def execVcvt (h : Hdr) (fx : BitVec 5) (o : RR) (s : State) : Result :=
  let f := (o.b.extractLsb' 0 5).toNat
  let g := fx.toNat
  let n := 256 / Nat.max (fmtBytes f) (fmtBytes g)
  exeOp h (packRR h 0x48 fx o) o.q o.lat { vs := srcA o, d := o.d }
    (fun e xs => s.me.outF o.d e (lanesOf (fmtBytes g) n fun i => cvt (rmAt (mRm o) (mSat o) s.me.seed e i) f g (vLane (xs.getD 0 0) (fmtBytes f) i))) s

/-! ### Reductions and scans (R291, R389) -/

/-- One step of a reduction in FP32: the operation, then its result as an FP32 value. -/
def redStep (g : Val → Val → Val × Flags) (a b : Val × Flags) : Val × Flags :=
  let (v, f) := g a.1 b.1
  let (c, f') := fp32.encode {} v
  (fp32.decode c, a.2 ||| b.2 ||| f ||| f')
/-- One level of the pairwise tree. -/
def pairUp (g : Val → Val → Val × Flags) : List (Val × Flags) → List (Val × Flags)
  | a :: b :: t => redStep g a b :: pairUp g t
  | l => l
/-- Reduces lanes pairwise, level by level (NBV = 1). -/
def treeRed (g : Val → Val → Val × Flags) : Nat → List (Val × Flags) → Val × Flags
  | 0, l => l.headD (.cnan, 0)
  | k + 1, l => treeRed g k (pairUp g l)
/-- Reduces lanes in sequence (NBV = 0). -/
def seqRed (g : Val → Val → Val × Flags) : List (Val × Flags) → Val × Flags
  | [] => (.cnan, 0)
  | a :: t => t.foldl (redStep g) a
/-- The active lanes of A widened to FP32, an inactive lane as the identity. -/
def redLanes (t : Nat) (p : Pred) (x : Vec) (ident : Val) : List (Val × Flags) :=
  let w := tWidth t
  (List.range (256 / w)).map fun i => (if active p w i then (fmtOf t).decode (vLane x w i) else ident, 0)
def Core.nbv (c : Core) : Bool := ((c.task.map (·.desc.nbv)).getD false)
/-- A reduction into every FP32 lane. -/
def vReduce (h : Hdr) (word : Word) (o : RR) (t : Nat) (g : Val → Val → Val × Flags) (ident : Val) (s : State) : Result :=
  exeOp h word o.q o.lat { vs := srcA o, ps := [o.b], d := o.d }
    (fun e xs =>
      let ls := redLanes t (s.rdP o.b) (xs.getD 0 0) ident
      let (v, f) := if s.me.nbv then treeRed g 7 ls else seqRed g ls
      s.me.outF o.d e (ofLanes 4 (List.replicate 64 (fp32.encode {} v).1), f)) s
/-- −0, −∞ and +∞: the identities of R291. -/
def negZero : Val := .fin true 0 1
/-- R389: the sum of the active lanes. -/
def execVrsum (h : Hdr) (fx : BitVec 2) (o : RR) (s : State) : Result :=
  vReduce h (packRR h 0x49 (fnT 0 fx) o) o fx.toNat (vadd 0) negZero s
/-- R389: the maximum of the active lanes. -/
def execVrmax (h : Hdr) (fx : BitVec 2) (o : RR) (s : State) : Result :=
  vReduce h (packRR h 0x49 (fnT 1 fx) o) o fx.toNat (vminmax true) (.inf true) s
/-- R389: the minimum of the active lanes. -/
def execVrmin (h : Hdr) (fx : BitVec 2) (o : RR) (s : State) : Result :=
  vReduce h (packRR h 0x49 (fnT 2 fx) o) o fx.toNat (vminmax false) (.inf false) s
/-- The lowest active lane that holds the maximum; a NaN lane wins (R291). -/
def argMax (ls : List (Nat × Val)) : Option Nat :=
  match ls.find? fun l => l.2.isNan with
  | some l => some l.1
  | none => (ls.foldl (fun (m : Option (Nat × Val)) l => match m with
      | none => some l
      | some x => if totVal x.2 l.2 < 0 then some l else some x) none).map (·.1)
/-- R389: the index of the maximum in every N32 lane. -/
def execVrargmax (h : Hdr) (fx : BitVec 2) (o : RR) (s : State) : Result :=
  let w := tWidth fx.toNat
  exeOp h (packRR h 0x49 (fnT 3 fx) o) o.q o.lat { vs := srcA o, ps := [o.b], d := o.d }
    (fun e xs =>
      let ls := ((List.range (256 / w)).filter (active (s.rdP o.b) w)).map fun i => (i, (fmtOf fx.toNat).decode (vLane (xs.getD 0 0) w i))
      s.me.outF o.d e (ofLanes 4 (List.replicate 64 ((argMax ls).getD 0xFFFFFFFF)), flIf (ls.any fun l => l.2.isSig) flInvalid)) s
/-- The running values of a scan. -/
def scanGo (g : Val → Val → Val × Flags) : Val × Flags → List (Val × Flags) → List (Val × Flags)
  | _, [] => []
  | a, x :: xs => let r := redStep g a x; r :: scanGo g r xs
/-- A scan: sequential in FP32, each lane rounded to T. -/
def vScan (h : Hdr) (word : Word) (o : RR) (t : Nat) (g : Val → Val → Val × Flags) (ident : Val) (s : State) : Result :=
  exeOp h word o.q o.lat { vs := srcA o, ps := [o.b], d := o.d }
    (fun e xs =>
      let rs := scanGo g (ident, 0) (redLanes t (s.rdP o.b) (xs.getD 0 0) ident)
      s.me.outF o.d e (lanesOf (tWidth t) (256 / tWidth t) fun i =>
        let (v, f) := rs.getD i (.cnan, 0)
        let (c, f') := (fmtOf t).encode {} v
        (c, f ||| f'))) s
/-- R389: the sequential prefix sum. -/
def execVscanadd (h : Hdr) (fx : BitVec 2) (o : RR) (s : State) : Result :=
  vScan h (packRR h 0x4A (fnT 0 fx) o) o fx.toNat (vadd 0) negZero s
/-- R389: the sequential prefix maximum. -/
def execVscanmax (h : Hdr) (fx : BitVec 2) (o : RR) (s : State) : Result :=
  vScan h (packRR h 0x4A (fnT 1 fx) o) o fx.toNat (vminmax true) (.inf true) s

/-! ### Moves (R390) -/

/-- A lane move: `g` gives the source vector and lane for lane `i` of `n`. -/
def vMove (h : Hdr) (word : Word) (o : RR) (vs : List (BitVec 6 × Bool)) (wc : Nat) (g : Nat → List Vec → Nat → Nat × Nat) (s : State) : Result :=
  let w := wWidth wc
  exeOp h word o.q o.lat { vs := vs, d := o.d }
    (fun e xs => s.me.outV o.d e (ofLanes w ((List.range (256 / w)).map fun i => let (k, j) := g (256 / w) xs i; vLane (xs.getD k 0) w j))) s
/-- R390: A[B[i] mod n]. -/
def execVperm (h : Hdr) (fx : BitVec 2) (o : RR) (s : State) : Result :=
  vMove h (packRR h 0x4B (fnT 0 fx) o) o (srcAB o) fx.toNat (fun n xs i => (0, vLane (xs.getD 1 0) (wWidth fx.toNat) i % n)) s
/-- R390: A[B[0] mod n] in every lane. -/
def execVbcast (h : Hdr) (fx : BitVec 2) (o : RR) (s : State) : Result :=
  vMove h (packRR h 0x4B (fnT 1 fx) o) o (srcAB o) fx.toNat (fun n xs _ => (0, vLane (xs.getD 1 0) (wWidth fx.toNat) 0 % n)) s
/-- R390: A[(i + B[0]) mod n]. -/
def execVrot (h : Hdr) (fx : BitVec 2) (o : RR) (s : State) : Result :=
  vMove h (packRR h 0x4B (fnT 2 fx) o) o (srcAB o) fx.toNat (fun n xs i => (0, (i + vLane (xs.getD 1 0) (wWidth fx.toNat) 0) % n)) s
/-- R390: lane C[i] mod 2n of A and B end to end. -/
def execVshuf (h : Hdr) (fx : BitVec 2) (o : RR) (s : State) : Result :=
  vMove h (packRR h 0x4B (fnT 3 fx) o) o (srcABC o) fx.toNat (fun n xs i =>
    let j := vLane (xs.getD 2 0) (wWidth fx.toNat) i % (2 * n)
    if j < n then (0, j) else (1, j - n)) s
/-- R390: a whole register, pop or push. -/
def execVmov (h : Hdr) (o : RR) (s : State) : Result :=
  exeOp h (packRR h 0x4C 0 o) o.q o.lat { vs := srcA o, d := o.d } (fun e xs => s.me.outV o.d e (xs.getD 0 0)) s
/-- A v result that needs no source: the same value in every 32-bit lane, or by lane. -/
def vConst (h : Hdr) (word : Word) (q lat : BitVec 4) (d : BitVec 6) (g : Nat → Nat) (s : State) : Result :=
  exeOp h word q lat { d := d } (fun e _ => s.me.outV d e (ofLanes 4 ((List.range 64).map g))) s
/-- R390: SEXT(IMM14) in every 32-bit lane. -/
def execVmovi (h : Hdr) (o : RRI) (s : State) : Result :=
  vConst h (packRRI h 0x4C 1 o) o.q o.lat o.d (fun _ => (o.imm.signExtend 32).toNat) s
/-- R390: the lane number in 64 N32 lanes. -/
def execViota (h : Hdr) (o : RR) (s : State) : Result := vConst h (packRR h 0x55 0 o) o.q o.lat o.d id s
/-- R390: bits [31:0] of a level of EXE's CRD in every lane. -/
def execVclv (h : Hdr) (o : RR) (s : State) : Result :=
  vConst h (packRR h 0x55 1 o) o.q o.lat o.d (fun _ => lvlGet s.me.cw o.a.toNat s.me.exe.crd) s

/-! ### Predicates (R391) -/

/-- A predicate form. -/
def pOp (h : Hdr) (word : Word) (o : RR) (ps : List (BitVec 6)) (x : Pred) (s : State) : Result :=
  exeOp h word o.q o.lat { ps := ps } (fun _ _ => [.p o.d.toNat x]) s
/-- R391: AND. -/
def execPand (h : Hdr) (o : RR) (s : State) : Result := pOp h (packRR h 0x4D 0 o) o [o.a, o.b] (s.rdP o.a &&& s.rdP o.b) s
/-- R391: OR. -/
def execPor (h : Hdr) (o : RR) (s : State) : Result := pOp h (packRR h 0x4D 1 o) o [o.a, o.b] (s.rdP o.a ||| s.rdP o.b) s
/-- R391: exclusive or. -/
def execPxor (h : Hdr) (o : RR) (s : State) : Result := pOp h (packRR h 0x4D 2 o) o [o.a, o.b] (s.rdP o.a ^^^ s.rdP o.b) s
/-- R391: complement. -/
def execPnot (h : Hdr) (o : RR) (s : State) : Result := pOp h (packRR h 0x4D 3 o) o [o.a] (~~~ s.rdP o.a) s
/-- A number from a predicate in every N32 lane. -/
def pNum (h : Hdr) (word : Word) (o : RR) (g : Pred → Nat) (s : State) : Result :=
  exeOp h word o.q o.lat { ps := [o.a], d := o.d } (fun e _ => s.me.outV o.d e (ofLanes 4 (List.replicate 64 (g (s.rdP o.a))))) s
/-- R391: the lowest set bit, 256 if none. -/
def execPffs (h : Hdr) (o : RR) (s : State) : Result :=
  pNum h (packRR h 0x4D 4 o) o (fun p => ((List.range 256).find? fun i => p.getLsbD i).getD 256) s
/-- R391: the lowest clear bit, 256 if none. -/
def execPffz (h : Hdr) (o : RR) (s : State) : Result :=
  pNum h (packRR h 0x4D 5 o) o (fun p => ((List.range 256).find? fun i => !p.getLsbD i).getD 256) s
/-- R391: the number of set bits. -/
def execPcnt (h : Hdr) (o : RR) (s : State) : Result :=
  pNum h (packRR h 0x4D 6 o) o (fun p => ((List.range 256).filter fun i => p.getLsbD i).length) s

/-! ### The deferral queue (R180, R392, R393) -/

/-- The records that issued words have still to append. -/
def ExeOp.defers (x : ExeOp) : Nat := (x.effs.map fun f => match f with | .defer rs => rs.length | _ => 0).sum
/-- The granules that the last issued DEFER will write are pending until its bound (R187). -/
def State.deferPend (s : State) (lat : BitVec 4) : State :=
  let c := s.core s.cur
  match c.exeQ.reverse, c.defBase with
  | x :: xs, some b => (List.range x.defers).foldl (fun (s : State) i => s.setPend s.cur (defAddr b (c.defTail + (xs.map ExeOp.defers).sum + i)) 32 (s.cycle + latBound lat)) s
  | _, _ => s
/-- R392: appends a record for each active lane at commit. -/
def execDefer (h : Hdr) (o : RR) (s : State) : Result :=
  let word := packRR h 0x4E 0 o
  let nv := o.d.toNat + 1
  exeWord h word o.q o.lat { vs := (List.range nv).map fun k => (o.a + BitVec.ofNat 6 k, o.la && k == 0), ps := [o.b] } 0 0
    (fun _ => if s.me.defBase.isNone then some (.fault fIllegal word) else none)
    (fun e xs => [.defer (((List.range 64).filter (active (s.rdP o.b) 4)).map fun i =>
      { v := BitVec.ofNat 128 (packLanes 4 (xs.map fun x => vLane x 4 i)), lane := BitVec.ofNat 8 i, nv := BitVec.ofNat 3 nv, crd := e })])
    (fun _ s => s.deferPend o.lat) s
/-- Whether a deferral effect has still to commit. -/
def Core.defPending (c : Core) : Bool := c.exeQ.any fun x => x.effs.any fun f => match f with | .defer _ => true | .deferHead _ => true | _ => false
/-- The oldest `k` records. -/
def Core.defRecs (c : Core) (base k : Nat) : List DefRec :=
  (List.range k).map fun i => DefRec.ofBits (bitsOf 256 (c.spadBytes (defAddr base (c.defHead + i)) 32))
/-- A drain of `k` records (R393). -/
def vDrain (h : Hdr) (word : Word) (o : RR) (k : Nat → Nat) (s : State) : Result :=
  let nv := o.a.toNat + 1
  let n := k (s.me.defTail - s.me.defHead)
  let rs := s.me.defRecs (s.me.defBase.getD 0) n
  let val (r : DefRec) (j : Nat) : Nat := if j < r.nv.toNat then (r.v.extractLsb' (32 * j) 32).toNat else 0
  exeWord h word o.q o.lat {} 0 (rs.foldl (fun m r => maxW m r.crd) 0)
    (fun _ => match s.me.defBase with
      | none => some (.fault fIllegal word)
      | some b => orTest (stallUnless (!s.me.defPending))
          (((List.range n).findSome? fun i => s.me.pendingAt s.cycle (defAddr b (s.me.defHead + i)) 32).map fun g => .fault fSpadPending (BitVec.ofNat 64 g)))
    (fun e _ =>
      ((List.range nv).flatMap fun j => s.me.outV (o.d + BitVec.ofNat 6 j) e (ofLanes 4 (rs.map (val · j))))
        ++ s.me.outV (o.d + BitVec.ofNat 6 nv) e (ofLanes 4 (rs.map fun r => r.lane.toNat))
        ++ [.p o.b.toNat (predOf 4 (List.replicate n true)), .deferHead n])
    (fun _ s => s) s
/-- R393: takes 64 records when 64 are held, else none. -/
def execDrain (h : Hdr) (o : RR) (s : State) : Result := vDrain h (packRR h 0x4F 0 o) o (fun m => if 64 ≤ m then 64 else 0) s
/-- R393: takes up to 64 records. -/
def execDrainf (h : Hdr) (o : RR) (s : State) : Result := vDrain h (packRR h 0x4F 1 o) o (fun m => Nat.min 64 m) s

/-! ### Loops, outcome bits and coordinates (R375, R377, R379) -/

/-- Bits [31:0] of lane 0 of a v source. -/
def State.lane0 (s : State) (r : BitVec 6) : Nat := vLane (s.peekV r) 4 0
/-- Changes EXE's own state at issue. -/
def State.modExe (s : State) (f : List Nat → EngSt → EngSt) : State := s.modCore s.cur fun c => { c with exe := f c.cw c.exe }
/-- R375: LOOP on EXE. -/
def execLoopExe (h : Hdr) (fx : BitVec 3) (o : RI) (s : State) : Result :=
  let word := packRI h 0x50 (fx.setWidth 3) o
  let reg := o.imm.getLsbD 22
  let count := if reg then s.lane0 o.a else (o.imm.extractLsb' 0 16).toNat
  exeWord h word 0 0 { vs := if reg then [(o.a, o.la)] else [] } 0 0
    (fun _ => if loopOk s.me.cw s.me.exe o fx.toNat count then stallUnless (count != 0 || s.me.exe.bodyIn (o.d.toNat + 1)) else some (.fault fIllegal word))
    (fun _ _ => []) (fun _ s' => s'.modExe fun cw x => startLoop cw o fx.toNat count x) s
/-- R377: pushes a bit of a predicate to boq.x at commit. -/
def execBpushExe (h : Hdr) (o : RRI) (s : State) : Result :=
  exeWord h (packRRI h 0x51 0 o) o.q o.lat { ps := [o.a] } 0 0 (fun _ => stallUnless (s.me.boqX.length + s.me.bitsDue < 64))
    (fun e _ => [.bit { bit := (s.rdP o.a).getLsbD (o.imm.extractLsb' 0 8).toNat, e := e }]) (fun _ s => s) s
/-- R377: pops a bit of boq.a and passes over words when it is 1. -/
def execBskipExe (h : Hdr) (o : RRI) (s : State) : Result :=
  let word := packRRI h 0x51 1 o
  let n := o.imm.toNat
  exeWord h word o.q o.lat {} 1 0
    (fun _ => if (s.me.boqA.head?.map (·.bit)).getD false && s.me.exe.skipRoom < n then some (.fault fIllegal word) else none) (fun _ _ => [])
    (fun bs s' => if (bs.head?.map (·.bit)).getD false then s'.modExe fun _ x => { x with skip := n } else s') s
/-- A coordinate word of EXE (R379). -/
def exeLevel (h : Hdr) (word : Word) (o : RRI) (f : Nat → Nat → Nat) (s : State) : Result :=
  let reg := o.d == 1
  let v := f (lvlGet s.me.cw (rriLvl o) s.me.exe.crd) ((if reg then s.lane0 o.a else 0) + rriAmt o)
  exeWord h word o.q o.lat { vs := if reg then [(o.a, o.la)] else [] } 0 0
    (fun _ => if lvlOk s.me.cw (rriLvl o) v then none else some (.fault fIllegal word)) (fun _ _ => [])
    (fun _ s' => s'.modExe fun cw x => { x with crd := lvlSet cw (rriLvl o) x.crd v }) s
/-- R379: SETCL on EXE. -/
def execSetclExe (h : Hdr) (o : RRI) (s : State) : Result := exeLevel h (packRRI h 0x52 0 o) o (fun _ v => v) s
/-- R379: INCCL on EXE. -/
def execIncclExe (h : Hdr) (o : RRI) (s : State) : Result := exeLevel h (packRRI h 0x52 1 o) o (fun x v => x + v) s

/-! ### Blocks and scales (R394) -/

/-- Values of a block group in type T, and the first block of group `j`. -/
def grpVals (t : Nat) : Nat := if t == 0 then 64 else 128
def grpBlock (t j : Nat) : Nat := if t == 0 then 2 * j else 4 * j
/-- The index of the group (B[23:21]). -/
def grpIdx (o : RR) : Nat := (o.b.extractLsb' 0 3).toNat
/-- A vector with byte `j` replaced. -/
def setVByte (v : Vec) (j x : Nat) : Vec := (v &&& ~~~((0xFF : Vec) <<< (8 * j))) ||| (BitVec.ofNat 2048 (x % 256) <<< (8 * j))
def setVBytes (v : Vec) : List (Nat × Nat) → Vec
  | [] => v
  | (j, x) :: t => setVBytes (setVByte v j x) t
/-- The bytes of block `b` of an E2M1S vector (R369). -/
def blockBytes (b s z : Nat) (cs : List Nat) : List (Nat × Nat) :=
  ((List.range 16).map fun i => (16 * b + i, cs.getD (2 * i) 0 + 16 * cs.getD (2 * i + 1) 0)) ++ [(128 + 2 * b, s), (129 + 2 * b, z)]
/-- R394: quantises the group's blocks; the other bytes of a register D are kept, those of a push are zero. -/
def execVqblk (h : Hdr) (fx : BitVec 2) (o : RR) (s : State) : Result :=
  let t := fx.toNat
  let reg := o.d.toNat < 56
  exeOp h (packRR h 0x53 (fnT 0 fx) o) o.q o.lat { vs := srcA o ++ (if reg then [(o.d, false)] else []), d := o.d }
    (fun e xs =>
      let val (i : Nat) : Val := (fmtOf t).decode (vLane (xs.getD 0 0) (tWidth t) i)
      let qs := (List.range (grpVals t / 32)).map fun k =>
        let (sc, z, cs, f) := quantBlock ((List.range 32).map fun i => val (32 * k + i))
        (blockBytes (grpBlock t (grpIdx o) + k) sc z cs, f)
      let old : Vec := if reg then xs.getD 1 0 else 0
      s.me.outF o.d e (setVBytes old (qs.flatMap (·.1)), (qs.map (·.2)).foldl (· ||| ·) 0)) s
/-- The value of element `i` of block `b` of an E2M1S vector. -/
def blockElem (v : Vec) (b i : Nat) : Val :=
  let byte := (vByte v (16 * b + i / 2)).toNat
  e2m1s (if i % 2 == 0 then byte % 16 else byte / 16) (vByte v (128 + 2 * b)).toNat (vByte v (129 + 2 * b)).toNat
/-- R394: decodes the group's blocks into all lanes of D. -/
def execVdqblk (h : Hdr) (fx : BitVec 2) (o : RR) (s : State) : Result :=
  let t := fx.toNat
  exeOp h (packRR h 0x53 (fnT 1 fx) o) o.q o.lat { vs := srcA o, d := o.d }
    (fun e xs => s.me.outF o.d e (lanesOf (tWidth t) (256 / tWidth t) fun i =>
      (fmtOf t).encode {} (blockElem (xs.getD 0 0) (grpBlock t (grpIdx o) + i / 32) (i % 32)))) s
/-- R394: A times the E8M0 code in the low byte of B; 0xFF gives the canonical NaN with INVALID. -/
def execVscale (h : Hdr) (fx : BitVec 2) (o : RR) (s : State) : Result :=
  let F := fmtOf fx.toNat
  vLaneOp h (packRR h 0x53 (fnT 2 fx) o) o (srcAB o) (tWidth fx.toNat) (fun e i cs =>
    let k := cs.getD 1 0 % 256
    if k == 0xFF then (F.nan, flInvalid) else
    let (v, f) := vmul (F.decode (cs.getD 0 0)) (e8m0 k)
    let (c, f') := F.encode (rmAt (mRm o) (mSat o) s.me.seed e i) v
    (c, f ||| f')) s

/-! ### Online maximum and flags (R395 to R397) -/

/-- The factor of R395: 2^RNE(a − m), or 1 when both are −∞. -/
def omaxScale (a m : Val) : Nat × Flags :=
  if a == .inf true && m == .inf true then (0x3F800000, 0) else
  let (d, f) := vsub 0 a m
  let (c, f1) := fp32.encode {} d
  let (x, f2) := vexp2 (fp32.decode c)
  let (y, f3) := fp32.encode {} x
  (y, f ||| f1 ||| f2 ||| f3)
/-- R395: VOMAX. -/
def execVomax (h : Hdr) (o : RR) (s : State) : Result :=
  exeOp h (packRR h 0x54 0 o) o.q o.lat { vs := srcAB o, d := o.d }
    (fun e xs =>
      let a (i : Nat) : Val := fp32.decode (vLane (xs.getD 0 0) 4 i)
      let m (i : Nat) : Val × Flags := vminmax true (a i) (fp32.decode (vLane (xs.getD 1 0) 4 i))
      let d0 := lanesOf 4 64 fun i => ((fp32.encode {} (m i).1).1, (m i).2)
      let d1 := lanesOf 4 64 fun i => omaxScale (a i) (fp32.decode (vLane d0.1 4 i))
      s.me.outV o.d e d0.1 ++ s.me.outV (o.d + 1) e d1.1 ++ [.flags (d0.2 ||| d1.2)]) s
/-- R396: the OR of the core's flags and the image word, read at commit. -/
def execVfrd (h : Hdr) (o : RR) (s : State) : Result :=
  exeOp h (packRR h 0x56 0 o) o.q o.lat { d := o.d }
    (fun e _ => if o.d == 60 || o.d == 61 then [.pushFlags (o.d.toNat - 60) e] else if o.d == 63 then [] else [.vflags (s.me.vIdx o.d)]) s
/-- R396: clears the core's flags at commit. -/
def execVfclr (h : Hdr) (o : RR) (s : State) : Result := exeOp h (packRR h 0x56 1 o) o.q o.lat {} (fun _ _ => [.clearFlags false]) s
/-- R396: also zeroes the image word. -/
def execVfclrCtx (h : Hdr) (o : RR) (s : State) : Result := exeOp h (packRR h 0x56 2 o) o.q o.lat {} (fun _ _ => [.clearFlags true]) s
/-- R397: the residency flags of the last entry popped from a data queue, one per element of its format. -/
def execVrmask (h : Hdr) (o : RR) (s : State) : Result :=
  exeOp h (packRR h 0x57 0 o) o.q o.lat {}
    (fun _ _ =>
      let (fl, fmt) := s.me.lastPop.get (0, 0) (o.a.toNat - 56)
      let w := if fmt == 5 then 1 else fmtBytes fmt.toNat
      [.p o.d.toNat (predOf w ((List.range (256 / w)).map fun i => fl.getLsbD i))]) s

end Sys2Proof.Machine
end

