-- ==== Sys2Proof/Machine/Probability.lean ====
section
/-! DEFINITION. Probability-predicate words of the execute sequencer (R400 to R413). -/

namespace Sys2Proof.Machine

/-- Code of lane `i` of a q register (Table 17.1). -/
def QReg.lane (x : QReg) (i : Nat) : Nat := (x.code.extractLsb' (16 * i) 16).toNat
/-- The codes of a q register from 64 lanes. -/
def qCodes (f : Nat → Nat) : BitVec 1024 := BitVec.ofNat 1024 (packLanes 2 ((List.range 64).map f))
/-- The effect of a q result. -/
def qOut (d : BitVec 6) (x : QReg) (f : Flags) : List ExeEff := [.q d.toNat x, .flags f]
/-- FN of a form with a two-bit code at bit 2. -/
def fnQ (form : BitVec 5) (x : BitVec 2) : BitVec 5 := form ||| (x.setWidth 5 <<< 2)
/-- 64 lanes of codes with the flags they raise. -/
def qLanes (f : Nat → Nat × Flags) : BitVec 1024 × Flags :=
  let rs := (List.range 64).map f
  (BitVec.ofNat 1024 (packLanes 2 (rs.map (·.1))), (rs.map (·.2)).foldl (· ||| ·) 0)

/-- R405: the softened comparison of two v sources at temperature qtemp. -/
def execQcmp (h : Hdr) (fx : BitVec 2) (o : RR) (s : State) : Result :=
  exeOp h (packRR h 0x58 (fx.setWidth 5) o) o.q o.lat { vs := srcAB o }
    (fun _ xs =>
      let (c, f) := qLanes fun i => qcmp fx.toNat (vLane (xs.getD 0 0) 4 i) (vLane (xs.getD 1 0) 4 i) s.me.qtemp.toNat
      qOut o.d { code := c, lin := BitVec.ofNat 16 (2 ^ o.d.toNat), ind := true } f) s

/-- QAND and QOR (R404, R406): `fx` is .dep in bit 0, .strict in bit 1. -/
def qLogic (h : Hdr) (word : Word) (fx : BitVec 2) (o : RR) (g : Bool → Nat → Nat → Nat) (s : State) : Result :=
  let dep := fx.getLsbD 0
  let strict := fx.getLsbD 1
  let a := s.rdQ o.a
  let b := s.rdQ o.b
  let overlap := a.lin &&& b.lin != 0
  exeOp h word o.q o.lat
    { qs := srcAB o, fault := if strict && (overlap || !a.ind || !b.ind) then some (fProbDep, word) else none }
    (fun _ _ =>
      qOut o.d { code := qCodes fun i => g dep (a.lane i) (b.lane i), lin := a.lin ||| b.lin,
                 ind := if strict then true else if dep then a.ind && b.ind else a.ind && b.ind && !overlap }
        (flIf (!dep && !strict && overlap) flQdep)) s
/-- R406: the product rule for AND. -/
def execQand (h : Hdr) (fx : BitVec 2) (o : RR) (s : State) : Result := qLogic h (packRR h 0x59 (fnQ 0 fx) o) fx o qand s
/-- R406: the product rule for OR. -/
def execQor (h : Hdr) (fx : BitVec 2) (o : RR) (s : State) : Result := qLogic h (packRR h 0x59 (fnQ 1 fx) o) fx o qor s
/-- R406: the complement. -/
def execQnot (h : Hdr) (o : RR) (s : State) : Result :=
  let a := s.rdQ o.a
  exeOp h (packRR h 0x59 2 o) o.q o.lat { qs := srcA o } (fun _ _ => qOut o.d { a with code := qCodes fun i => qnot (a.lane i) } 0) s
/-- R407: blends two v sources under a q register. -/
def execQsel (h : Hdr) (fx : BitVec 2) (o : RR) (s : State) : Result :=
  let t := fx.toNat
  let c := s.rdQ o.c
  exeOp h (packRR h 0x5A (fnT 0 fx) o) o.q o.lat { vs := srcAB o, qs := [(o.c, o.lc)], d := o.d }
    (fun e xs => s.me.outF o.d e (lanesOf (tWidth t) (256 / tWidth t) fun i =>
      qsel (fmtOf t) (c.lane (if t == 0 then i else i / 2)) (vLane (xs.getD 0 0) (tWidth t) i) (vLane (xs.getD 1 0) (tWidth t) i))) s
/-- A lane's collapse (R296, R408). -/
def collapse (seed : Word) (e : Word) (code i : Nat) : Bool :=
  code == 65535 || ((devHash (BitVec.ofNat 32 i) (e.setWidth 32) (seed.setWidth 32)).toNat / 2 ^ 16 < code)
/-- R408: the random collapse of a q register into a predicate. -/
def execQcol (h : Hdr) (o : RR) (s : State) : Result :=
  let a := s.rdQ o.a
  exeOp h (packRR h 0x5B 0 o) o.q o.lat { qs := srcA o }
    (fun e _ => [.p o.d.toNat (predOf 4 ((List.range 64).map fun i => collapse s.me.seed e (a.lane i) i))]) s
/-- R410: QFROM. -/
def execQfrom (h : Hdr) (o : RR) (s : State) : Result :=
  exeOp h (packRR h 0x5C 0 o) o.q o.lat { vs := srcA o }
    (fun _ xs =>
      let (c, f) := qLanes fun i => qfrom (fp32.decode (vLane (xs.getD 0 0) 4 i))
      qOut o.d { code := c, lin := BitVec.ofNat 16 (2 ^ o.d.toNat), ind := true } f) s
/-- R410: QTO; it sets no flag. -/
def execQto (h : Hdr) (o : RR) (s : State) : Result :=
  let a := s.rdQ o.a
  exeOp h (packRR h 0x5C 1 o) o.q o.lat { qs := srcA o, d := o.d }
    (fun e _ => s.me.outV o.d e (ofLanes 4 ((List.range 64).map fun i => (qto (a.lane i)).1))) s
/-- R411: the gradient of a comparison. -/
def execQgcmp (h : Hdr) (fx : BitVec 2) (o : RR) (s : State) : Result :=
  exeOp h (packRR h 0x5D (fnQ 0 fx) o) o.q o.lat { vs := srcAB o, d := o.d }
    (fun e xs => s.me.outF o.d e (lanesOf 4 64 fun i =>
      qgcmp fx.toNat (vLane (xs.getD 0 0) 4 i) (vLane (xs.getD 1 0) 4 i) s.me.qtemp.toNat)) s
/-- R411: RNE(A − B). -/
def execQgsel (h : Hdr) (o : RR) (s : State) : Result :=
  vFloat h (packRR h 0x5D 1 o) o (srcAB o) 0 0 false (fun v => vsub 0 (nthV v 0) (nthV v 1)) s
/-- R411: RNE(code of B / 65,535); it sets no flag. -/
def execQgand (h : Hdr) (o : RR) (s : State) : Result :=
  let b := s.rdQ o.b
  exeOp h (packRR h 0x5D 2 o) o.q o.lat { qs := [(o.b, o.lb)], d := o.d }
    (fun e _ => s.me.outV o.d e (ofLanes 4 ((List.range 64).map fun i => (qto (b.lane i)).1))) s
/-- R412: copies the codes of A under a new lineage. -/
def execQlin (h : Hdr) (o : RR) (s : State) : Result :=
  let a := s.rdQ o.a
  exeOp h (packRR h 0x5E 0 o) o.q o.lat { vs := [(o.b, o.lb)], qs := srcA o }
    (fun _ xs => qOut o.d { code := a.code, lin := (xs.getD 0 0).extractLsb' 0 16, ind := true } 0) s
/-- R413: the sum over the active lanes, in every FP32 lane; no flag. -/
def execQrsum (h : Hdr) (o : RR) (s : State) : Result :=
  let a := s.rdQ o.a
  let p := s.rdP o.b
  exeOp h (packRR h 0x5F 0 o) o.q o.lat { qs := srcA o, ps := [o.b], d := o.d }
    (fun e _ =>
      let t := (((List.range 64).filter (active p 4)).map a.lane).sum
      s.me.outV o.d e (ofLanes 4 (List.replicate 64 (fp32.rnd {} false t 65535).1))) s
/-- The running product of R413. -/
def qProd (a : QReg) (p : Pred) : Nat → Nat → Nat → List Nat
  | 0, _, _ => []
  | n + 1, i, r =>
    let r' := if active p 4 i then rneNat (r * a.lane i) 65535 else r
    r' :: qProd a p n (i + 1) r'
/-- R413: the running product over the active lanes. -/
def execQrprod (h : Hdr) (o : RR) (s : State) : Result :=
  let a := s.rdQ o.a
  let p := s.rdP o.b
  exeOp h (packRR h 0x5F 1 o) o.q o.lat { qs := srcA o, ps := [o.b] }
    (fun _ _ => qOut o.d { a with code := BitVec.ofNat 1024 (packLanes 2 (qProd a p 64 0 65535)) } 0) s

end Sys2Proof.Machine
end

