-- ==== Sys2Proof/Machine/Supervisor.lean ====
section
/-! DEFINITION. The supervisor forms (R354 to R362), which only the E0 supervisor core runs: contexts, the reclaim fence, partitions, segment
tables, slices, fault and page-request buffers, freeze, instruments, sleep and waiting. Each writes a status or value into D. -/

namespace Sys2Proof.Machine

/-- A supervisor form: `body` gets the coordinate, the value of A and the state after issue. -/
def supForm (h : Hdr) (w : Word) (o : SY) (body : Word → Word → State → Body) (s : State) : Result :=
  ccWord h w [(o.a, o.la)] [] (fun e s' => body e (s.rdS o.a) s') s
/-- A form that ends with a status in D. -/
def State.status (s : State) (o : SY) (e : Word) (v : Nat) : Body := .done (s.wrS o.d e (BitVec.ofNat 64 v))
/-- The keys of a descriptor of the supervisor's own windows: unaligned or unreachable raises RAW_WINDOW, and a read of poison ECC_UE. -/
def State.supDesc (s : State) (a : Word) (n align : Nat) (p : Perm) (k : List Nat → Body) : Body :=
  if a.toNat % align != 0 then .fault fRawWindow a else
  match s.coreKeys s.cur a n p with
  | .inr _ => .fault fRawWindow a
  | .inl ks => if p == .r && s.anyPoison ks then .fault fEccUe a else k ks
def State.bitsAt (s : State) (w : Nat) (ks : List Nat) : BitVec w := bitsOf w (ks.map s.byte)

/-! ### CTX and RCF (R355, R356) -/

/-- CID.INC as a fault's value. -/
def cidInc (cid : BitVec 12) (inc : BitVec 10) : Word := (inc ++ cid).setWidth 64
/-- R130, R137, R355: CTXNEW. -/
def execCtxnew (h : Hdr) (o : SY) (s : State) : Result :=
  supForm h (packSY h 0x28 0 o) o (fun e a s' => s.supDesc a 64 64 .r fun ks =>
    let x : BitVec 512 := s.bitsAt 512 ks
    let cid := x.extractLsb' 0 12
    let c := s.ctx cid
    let pid := x.extractLsb' 12 7
    if c.st != .free then s'.status o e 1
    else if (s.part pid).used && (s.part pid).maxctx ≤ (s.ctxsOf pid).length then s'.status o e 2
    else if s.ctxBad x then s'.status o e 3
    else if s.fencePending cid c.nextInc then .after (s'.wrS o.d e 4) fIncBusy (cidInc cid c.nextInc)
    else (s'.newCtx cid x).status o e 0) s
/-- Whether a CID may be killed or restarted. -/
def Ctx.held (c : Ctx) : Bool := c.st == .live || c.st == .stopped || c.st == .saved
/-- R134, R355: CTXKILL. -/
def execCtxkill (h : Hdr) (o : SY) (s : State) : Result :=
  supForm h (packSY h 0x28 1 o) o (fun e a s' =>
    let cid := a.extractLsb' 0 12
    if !(s.ctx cid).held then s'.status o e 1 else (s'.kill cid).status o e 0) s
/-- R135, R137, R355: CTXINC. -/
def execCtxinc (h : Hdr) (o : SY) (s : State) : Result :=
  supForm h (packSY h 0x28 2 o) o (fun e a s' =>
    let cid := a.extractLsb' 0 12
    let c := s.ctx cid
    if !c.held then s'.status o e 1
    else if s.fencePending cid (c.inc + 1) then .after (s'.wrS o.d e 4) fIncBusy (cidInc cid (c.inc + 1))
    else (s'.incCtx cid).status o e 0) s
/-- R145, R355: CTXSAVE waits for quiescence. -/
def execCtxsave (h : Hdr) (o : SY) (s : State) : Result :=
  supForm h (packSY h 0x28 3 o) o (fun e a s' =>
    let cid := match s.me.ccWait with | some (.ctxsave k) => k | _ => a.extractLsb' 0 12
    if (s.ctx cid).st != .stopped then s'.status o e 1
    else if !s.quiescent cid then .wait (s'.modCore s.cur fun c => { c with ccWait := some (.ctxsave cid) })
    else if (s.imgKey cid).isNone then s'.status o e 5 else (s'.saveCtx cid).status o e 0) s
/-- R147, R355: CTXLOAD. -/
def execCtxload (h : Hdr) (o : SY) (s : State) : Result :=
  supForm h (packSY h 0x28 4 o) o (fun e a s' =>
    let cid := a.extractLsb' 0 12
    match s.loadable cid with
    | .inr code => s'.status o e code
    | .inl m => (s'.loadCtx cid m).status o e 0) s
/-- R136, R356: RCF starts a fence, or asks whether it is complete. -/
def execRcf (h : Hdr) (o : SY) (s : State) : Result :=
  supForm h (packSY h 0x29 0 o) o (fun e a s' =>
    let cid := a.extractLsb' 0 12
    let inc := a.extractLsb' 12 10
    if o.imm.getLsbD 0 then s'.status o e (if s.fencePending cid inc then 0 else 1)
    else if s.live cid inc then s'.status o e 1
    else ({ s' with fences := s'.fences.map fun f => if f.cid == cid && f.inc == inc then { f with asked := true } else f } : State).status o e 0) s

/-! ### Partitions (R357 to R359) -/

/-- R140, R357: PCREATE. -/
def execPcreate (h : Hdr) (o : SY) (s : State) : Result :=
  supForm h (packSY h 0x2A 0 o) o (fun e a s' => s.supDesc a 128 128 .r fun ks =>
    let x : BitVec 1024 := s.bitsAt 1024 ks
    let pid := x.extractLsb' 0 7
    if (s.part pid).used then s'.status o e 2
    else if s.partBad pid x then s'.status o e 3
    else (s'.setPart pid (Part.ofBits x)).status o e 0) s
/-- A queue as PSETQ leaves it: disabled, its queued lists are discarded, and its running list ends at its next entry boundary. -/
def Queue.enable (x : Queue) (en : Bool) : Queue :=
  if en then { x with en := true } else { x with en := false, pend := [], closing := x.closing || x.cur.isSome }
/-- R357, Table 14.18: PSETQ. -/
def execPsetq (h : Hdr) (o : SY) (s : State) : Result :=
  supForm h (packSY h 0x2A 1 o) o (fun e a s' => s.supDesc a 32 32 .r fun ks =>
    let x : BitVec 256 := s.bitsAt 256 ks
    let pid := x.extractLsb' 0 7
    if !(s.part pid).used then s'.status o e 3
    else
      let t := s'.modPart pid fun p => { p with evaddr := x.extractLsb' 64 128, ejob := x.extractLsb' 192 24, eproc := x.extractLsb' 216 32 }
      let t := (List.range 4).foldl (fun (t : State) q => (t.setQueue pid.toNat q ((t.queue pid.toNat q).enable (x.getLsbD (8 + q)))).qspace pid.toNat q) t
      t.status o e 0) s
/-- R142, R357: PDESTROY. -/
def execPdestroy (h : Hdr) (o : SY) (s : State) : Result :=
  supForm h (packSY h 0x2A 2 o) o (fun e _ s' =>
    let pid := o.sel.extractLsb' 0 7
    if !(s.part pid).used then s'.status o e 3
    else if !(s.children pid).isEmpty || !(s.ctxsOf pid).isEmpty then s'.status o e 6
    else (s'.setPart pid {}).status o e 0) s
/-- R197, R198, R358: CHMAP. -/
def execChmap (h : Hdr) (o : SY) (s : State) : Result :=
  supForm h (packSY h 0x2B 0 o) o (fun e a s' => s.supDesc a 16 16 .r fun ks =>
    let x : BitVec 128 := s.bitsAt 128 ks
    let pid := o.sel.extractLsb' 0 7
    let base := x.extractLsb' 64 64
    if !(s.part pid).used || !s.mapOk (s.own pid) base.toNat (dfld x 0 27) then s'.status o e 3
    else (s'.modPart pid fun p => { p with segn := dfld x 0 27, segbase := base }).status o e 0) s
/-- A slice table's entries: partition and length. -/
def sliceEnts (x : BitVec 576) : List (BitVec 7 × Nat) := (List.range (dfld x 32 4)).map fun i => (x.extractLsb' (64 * (i + 1)) 7, dfld x (64 * (i + 1) + 8) 8)
/-- Whether SLICE refuses a table (Table 14.19); no refusal is stated for its reserved bits, which are ignored (R8). -/
def State.sliceBad (s : State) (x : BitVec 576) : Bool :=
  let pods := x.extractLsb' 0 32
  8 < dfld x 32 4 ||
    (sliceEnts x).any (fun (pid, len) => len == 0 || !(s.part pid).used || !subset pods (s.part pid).pods) || s.slices.any fun t => t.pods != pods && meets t.pods pods
/-- R144, R359: SLICE. -/
def execSlice (h : Hdr) (o : SY) (s : State) : Result :=
  supForm h (packSY h 0x2C 0 o) o (fun e a s' => s.supDesc a 72 8 .r fun ks =>
    let x : BitVec 576 := s.bitsAt 576 ks
    let pods := x.extractLsb' 0 32
    if s.sliceBad x then s'.status o e 3
    else
      let rest := s'.slices.filter fun t => t.pods != pods
      let new : List SliceTab := if (sliceEnts x).isEmpty then [] else [{ pods := pods, ents := sliceEnts x, started := s.gts }]
      ({ s' with slices := rest ++ new } : State).status o e 0) s
/-- R142, R359: SBUDGET. -/
def execSbudget (h : Hdr) (o : SY) (s : State) : Result :=
  supForm h (packSY h 0x2C 1 o) o (fun e a s' =>
    let pid := o.sel.extractLsb' 0 7
    let b := a.extractLsb' 0 32
    if !(s.part pid).used || !s.budgetOk pid b then s'.status o e 3
    else (s'.modPart pid fun p => { p with nextBudget := some b }).status o e 0) s

/-! ### Buffers (R154, R219, R360) -/

/-- R360: FBPOP copies the oldest record of the device fault buffer. -/
def execFbpop (h : Hdr) (o : SY) (s : State) : Result :=
  supForm h (packSY h 0x2D 0 o) o (fun e a s' => s.supDesc a 128 128 .w fun ks =>
    let c := s.cons 0
    if s.prod 0 == c then s'.status o e 0
    else
      let r := match s.fbufKeys 0 (4096 + 128 * (c.toNat % 256)) 128 with | some src => src.map s.byte | none => []
      ((s'.writeBytes (ks.zip r)).fbufPut 0 8 (leBytes (c + 1).toNat 4)).status o e 1) s
/-- Held faults in order of GTS, ties to the lower source. -/
def heldBefore (a b : FRec) : Bool := a.gts.ult b.gts || (a.gts == b.gts && a.src.ule b.src)
def heldInsert (x : FRec × Nat × Bool) : List (FRec × Nat × Bool) → List (FRec × Nat × Bool)
  | [] => [x]
  | y :: ys => if heldBefore y.1 x.1 then y :: heldInsert x ys else x :: y :: ys
/-- An engine whose held record has been written: one that its record parks stays so, the others go on. -/
def EngSt.unhold (x : EngSt) (pid : BitVec 7) (r : FRec) (idx : BitVec 32) : EngSt :=
  { x with park := x.park.bind fun p =>
      if p.held && p.frec == r && p.pid == pid.toNat then (if p.paused || r.park || p.stop then some { p with held := false, idx := idx } else none) else some p }
/-- Changes every engine of a core. -/
def Core.modEngs (c : Core) (f : EngSt → EngSt) : Core := { c with cc := f c.cc, acc := f c.acc, exe := f c.exe, mtx := f c.mtx, cpy := f c.cpy, net := f c.net }
/-- R154: the held faults are raised again until the buffer is full; how many, and which stay. -/
def State.releaseHeld (s : State) (pid : BitVec 7) : List (FRec × Nat × Bool) → Nat → State × Nat × List (FRec × Nat × Bool)
  | [], k => (s, k, [])
  | (r, n, parked) :: xs, k =>
    if s.fbFull pid then (s, k, (r, n, parked) :: xs) else
    let idx := s.prod pid
    let t := s.writeRec pid r
    let t := if parked then t.modCore n fun c => c.modEngs fun x => x.unhold pid r idx else t
    t.releaseHeld pid xs (k + 1)
/-- R154, R360: FBREL. -/
def execFbrel (h : Hdr) (o : SY) (s : State) : Result :=
  supForm h (packSY h 0x2D 1 o) o (fun e _ s' =>
    let pid := o.sel.extractLsb' 0 7
    let (t, k, rest) := s'.releaseHeld pid ((s'.fheld pid).foldr heldInsert []) 0
    (if k == 0 then s' else t.setFheld pid rest).status o e k) s
/-- A page-request record's bytes (Table 9.10). -/
def PgRec.bytes (r : PgRec) : List Byte :=
  leBytes (r.cid.toNat + 2 ^ 12 * r.inc.toNat + 2 ^ 22 * r.tid.toNat + 2 ^ 32 * r.tile.toNat + 2 ^ 64 * r.crd.toNat + 2 ^ 128 * r.gts.toNat + 2 ^ 192 * r.src.toNat) 32
/-- R219, R360: PGPOP. -/
def execPgpop (h : Hdr) (o : SY) (s : State) : Result :=
  supForm h (packSY h 0x2D 2 o) o (fun e a s' => s.supDesc a 32 32 .w fun ks =>
    match s.pgq with
    | [] => s'.status o e 0
    | r :: rs => (({ s' with pgq := rs } : State).writeBytes (ks.zip r.bytes)).status o e 1) s
/-- The engine parked on the record at an index of a buffer. -/
def State.parkedOn (s : State) (pid : Nat) (idx : BitVec 32) : Option (Nat × Eng × Park) :=
  s.cores.findSome? fun (n, c) => engines.findSome? fun eng => (c.eng eng).park.bind fun p =>
    if p.frec.park && !p.held && p.pid == pid && p.idx == idx && s.live p.frec.cid p.frec.inc then some (n, eng, p) else none
/-- R148, R360: a parked operation goes on, or with `skip` its "before" word retires with no effect and no signal. -/
def State.resolve (s : State) (n : Nat) (eng : Eng) (p : Park) (skip : Bool) : State :=
  let s := s.modCore n fun c => c.modEng eng fun x => { x with park := none }
  if !(skip && p.before) then s
  else if eng == .cc then (s.modCore n fun c => { c with pc := c.pc + 8, fetched := [], ccWait := none }).retired n
  else (s.skipWord n eng p.frec.code p.slot).retired n
/-- R148, R360: FBACT. An operand with bit 7 or a bit of [63:41] set names no parked fault (DESIGN CHOICE). -/
def execFbact (h : Hdr) (o : SY) (s : State) : Result :=
  supForm h (packSY h 0x2D 3 o) o (fun e a s' =>
    if dfld a 7 1 != 0 || dfld a 41 23 != 0 then s'.status o e 1 else
    match s.parkedOn (dfld a 0 7) (a.extractLsb' 8 32) with
    | none => s'.status o e 1
    | some (n, eng, p) => (s'.resolve n eng p (a.getLsbD 40)).status o e 0) s

/-! ### Freeze, instruments, sleep and waiting (R361, R362) -/

/-- R52, R361: FRZ. -/
def execFrz (h : Hdr) (o : SY) (s : State) : Result :=
  ccWord h (packSY h 0x2E 0 o) [] [] (fun _ s' => .done { s' with pstate := .frozen }) s
/-- R361: CAPRD. -/
def execCaprd (h : Hdr) (o : SY) (s : State) : Result :=
  let w := packSY h 0x2E 1 o
  supForm h w o (fun e a s' =>
    let isl := dfld o.sel 0 7
    let r := dfld a 0 16
    if Config.capSize isl ≤ r then .fault fIllegal w else .done (s'.wrS o.d e (Config.capReg isl r s.freeCtr))) s
/-- Whether SLEEP is refused: a core holds a tile task, a queue holds a list, or a request of the device is outstanding. -/
def State.awake (s : State) : Bool :=
  s.cores.any (fun (_, c) => c.task.isSome) || s.parts.any (fun (_, p) => p.q.any fun (_, q) => !q.pend.isEmpty || q.cur.isSome) || !s.oreqs.isEmpty || !s.ueOps.isEmpty
/-- R51, R361: SLEEP enters the lowest power state and never retires. -/
def execSleep (h : Hdr) (o : SY) (s : State) : Result :=
  ccWord h (packSY h 0x2E 2 o) [] [] (fun e s' => if s.awake then s'.status o e 1 else .wait s'.toLowest) s
/-- R362: WFE waits for a cause, and returns and clears every one. -/
def execWfe (h : Hdr) (o : SY) (s : State) : Result :=
  ccWord h (packSY h 0x2F 0 o) [] [] (fun e s' =>
    if s.wfe == 0 then .stall else .done (({ s' with wfe := 0 } : State).wrS o.d e (s.wfe.setWidth 64))) s

end Sys2Proof.Machine
end

