-- ==== Sys2Proof/Machine/Dispatch.lean ====
section
/-! DEFINITION. The one dispatch: an arm for every constructor of `Instr`. -/

namespace Sys2Proof.Machine

/-- The meaning of a step. -/
def exec (i : Instr) (s : State) : Host.Outcome State Fault Refusal :=
  match i with
  | .nop h => Sys2Proof.Machine.execNop h s
  | .mark h => Sys2Proof.Machine.execMark h s
  | .ill bits => Sys2Proof.Machine.execIll bits s
  | .add h o => Sys2Proof.Machine.execAdd h o s
  | .sub h o => Sys2Proof.Machine.execSub h o s
  | .and h o => Sys2Proof.Machine.execAnd h o s
  | .or h o => Sys2Proof.Machine.execOr h o s
  | .xor h o => Sys2Proof.Machine.execXor h o s
  | .andn h o => Sys2Proof.Machine.execAndn h o s
  | .shl h o => Sys2Proof.Machine.execShl h o s
  | .shr h o => Sys2Proof.Machine.execShr h o s
  | .sar h o => Sys2Proof.Machine.execSar h o s
  | .min h o => Sys2Proof.Machine.execMin h o s
  | .max h o => Sys2Proof.Machine.execMax h o s
  | .slt h o => Sys2Proof.Machine.execSlt h o s
  | .seq h o => Sys2Proof.Machine.execSeq h o s
  | .addi h o => Sys2Proof.Machine.execAddi h o s
  | .andi h o => Sys2Proof.Machine.execAndi h o s
  | .ori h o => Sys2Proof.Machine.execOri h o s
  | .xori h o => Sys2Proof.Machine.execXori h o s
  | .shli h o => Sys2Proof.Machine.execShli h o s
  | .shri h o => Sys2Proof.Machine.execShri h o s
  | .sari h o => Sys2Proof.Machine.execSari h o s
  | .slti h o => Sys2Proof.Machine.execSlti h o s
  | .mul h o => Sys2Proof.Machine.execMul h o s
  | .mulh h o => Sys2Proof.Machine.execMulh h o s
  | .div h o => Sys2Proof.Machine.execDiv h o s
  | .rem h o => Sys2Proof.Machine.execRem h o s
  | .movi h o => Sys2Proof.Machine.execMovi h o s
  | .movhi h o => Sys2Proof.Machine.execMovhi h o s
  | .movpc h o => Sys2Proof.Machine.execMovpc h o s
  | .clz h o => Sys2Proof.Machine.execClz h o s
  | .ctz h o => Sys2Proof.Machine.execCtz h o s
  | .popc h o => Sys2Proof.Machine.execPopc h o s
  | .brev h o => Sys2Proof.Machine.execBrev h o s
  | .bext h o => Sys2Proof.Machine.execBext h o s
  | .bins h o => Sys2Proof.Machine.execBins h o s
  | .sel h o => Sys2Proof.Machine.execSel h o s
  | .cset h o => Sys2Proof.Machine.execCset h o s
  | .ldb h fx o => Sys2Proof.Machine.execLdb h fx o s
  | .ldh h fx o => Sys2Proof.Machine.execLdh h fx o s
  | .ldw h fx o => Sys2Proof.Machine.execLdw h fx o s
  | .ldd h fx o => Sys2Proof.Machine.execLdd h fx o s
  | .stb h fx o => Sys2Proof.Machine.execStb h fx o s
  | .sth h fx o => Sys2Proof.Machine.execSth h fx o s
  | .stw h fx o => Sys2Proof.Machine.execStw h fx o s
  | .std h fx o => Sys2Proof.Machine.execStd h fx o s
  | .ldra h o => Sys2Proof.Machine.execLdra h o s
  | .aadd h o => Sys2Proof.Machine.execAadd h o s
  | .aand h o => Sys2Proof.Machine.execAand h o s
  | .aor h o => Sys2Proof.Machine.execAor h o s
  | .axor h o => Sys2Proof.Machine.execAxor h o s
  | .amin h o => Sys2Proof.Machine.execAmin h o s
  | .amax h o => Sys2Proof.Machine.execAmax h o s
  | .aswp h o => Sys2Proof.Machine.execAswp h o s
  | .acas h o => Sys2Proof.Machine.execAcas h o s
  | .afadd h o => Sys2Proof.Machine.execAfadd h o s
  | .facq h o => Sys2Proof.Machine.execFacq h o s
  | .frel h o => Sys2Proof.Machine.execFrel h o s
  | .far h o => Sys2Proof.Machine.execFar h o s
  | .beq h o => Sys2Proof.Machine.execBeq h o s
  | .bne h o => Sys2Proof.Machine.execBne h o s
  | .blt h fx o => Sys2Proof.Machine.execBlt h fx o s
  | .bge h fx o => Sys2Proof.Machine.execBge h fx o s
  | .bz h o => Sys2Proof.Machine.execBz h o s
  | .bnz h o => Sys2Proof.Machine.execBnz h o s
  | .dbnz h o => Sys2Proof.Machine.execDbnz h o s
  | .jmp h o => Sys2Proof.Machine.execJmp h o s
  | .call h o => Sys2Proof.Machine.execCall h o s
  | .jr h o => Sys2Proof.Machine.execJr h o s
  | .callr h o => Sys2Proof.Machine.execCallr h o s
  | .ret h o => Sys2Proof.Machine.execRet h o s
  | .setcl h o => Sys2Proof.Machine.execSetcl h o s
  | .inccl h o => Sys2Proof.Machine.execInccl h o s
  | .setcrd h o => Sys2Proof.Machine.execSetcrd h o s
  | .getcrd h o => Sys2Proof.Machine.execGetcrd h o s
  | .getcl h o => Sys2Proof.Machine.execGetcl h o s
  | .cut h o => Sys2Proof.Machine.execCut h o s
  | .cutq h o => Sys2Proof.Machine.execCutq h o s
  | .cutw h o => Sys2Proof.Machine.execCutw h o s
  | .pushq h o => Sys2Proof.Machine.execPushq h o s
  | .pushqn h o => Sys2Proof.Machine.execPushqn h o s
  | .ringcpy h o => Sys2Proof.Machine.execRingcpy h o s
  | .wset h o => Sys2Proof.Machine.execWset h o s
  | .tinc h o => Sys2Proof.Machine.execTinc h o s
  | .tdec h o => Sys2Proof.Machine.execTdec h o s
  | .trd h o => Sys2Proof.Machine.execTrd h o s
  | .tset h o => Sys2Proof.Machine.execTset h o s
  | .join h o => Sys2Proof.Machine.execJoin h o s
  | .tdset h o => Sys2Proof.Machine.execTdset h o s
  | .tdrd h o => Sys2Proof.Machine.execTdrd h o s
  | .tdinv h o => Sys2Proof.Machine.execTdinv h o s
  | .phreg h o => Sys2Proof.Machine.execPhreg h o s
  | .phdrop h o => Sys2Proof.Machine.execPhdrop h o s
  | .phsig h o => Sys2Proof.Machine.execPhsig h o s
  | .phwait h o => Sys2Proof.Machine.execPhwait h o s
  | .phsw h o => Sys2Proof.Machine.execPhsw h o s
  | .phexp h o => Sys2Proof.Machine.execPhexp h o s
  | .phrd h o => Sys2Proof.Machine.execPhrd h o s
  | .phase h o => Sys2Proof.Machine.execPhase h o s
  | .spawn h o => Sys2Proof.Machine.execSpawn h o s
  | .spawnw h o => Sys2Proof.Machine.execSpawnw h o s
  | .dwb h o => Sys2Proof.Machine.execDwb h o s
  | .dinv h o => Sys2Proof.Machine.execDinv h o s
  | .iinv h o => Sys2Proof.Machine.execIinv h o s
  | .fetchb h o => Sys2Proof.Machine.execFetchb h o s
  | .ilock h o => Sys2Proof.Machine.execIlock h o s
  | .iunlk h o => Sys2Proof.Machine.execIunlk h o s
  | .ecfgw h o => Sys2Proof.Machine.execEcfgw h o s
  | .ecfgr h o => Sys2Proof.Machine.execEcfgr h o s
  | .rdsr h o => Sys2Proof.Machine.execRdsr h o s
  | .wrsr h o => Sys2Proof.Machine.execWrsr h o s
  | .setsr h o => Sys2Proof.Machine.execSetsr h o s
  | .clrsr h o => Sys2Proof.Machine.execClrsr h o s
  | .trap h o => Sys2Proof.Machine.execTrap h o s
  | .brk h o => Sys2Proof.Machine.execBrk h o s
  | .tret h o => Sys2Proof.Machine.execTret h o s
  | .cbstat h o => Sys2Proof.Machine.execCbstat h o s
  | .cbrst h o => Sys2Proof.Machine.execCbrst h o s
  | .ttrd h o => Sys2Proof.Machine.execTtrd h o s
  | .ttset h o => Sys2Proof.Machine.execTtset h o s
  | .ttref h o => Sys2Proof.Machine.execTtref h o s
  | .ttunref h o => Sys2Proof.Machine.execTtunref h o s
  | .pgreq h o => Sys2Proof.Machine.execPgreq h o s
  | .tend h o => Sys2Proof.Machine.execTend h o s
  | .ctxnew h o => Sys2Proof.Machine.execCtxnew h o s
  | .ctxkill h o => Sys2Proof.Machine.execCtxkill h o s
  | .ctxinc h o => Sys2Proof.Machine.execCtxinc h o s
  | .ctxsave h o => Sys2Proof.Machine.execCtxsave h o s
  | .ctxload h o => Sys2Proof.Machine.execCtxload h o s
  | .rcf h o => Sys2Proof.Machine.execRcf h o s
  | .pcreate h o => Sys2Proof.Machine.execPcreate h o s
  | .psetq h o => Sys2Proof.Machine.execPsetq h o s
  | .pdestroy h o => Sys2Proof.Machine.execPdestroy h o s
  | .chmap h o => Sys2Proof.Machine.execChmap h o s
  | .slice h o => Sys2Proof.Machine.execSlice h o s
  | .sbudget h o => Sys2Proof.Machine.execSbudget h o s
  | .fbpop h o => Sys2Proof.Machine.execFbpop h o s
  | .fbrel h o => Sys2Proof.Machine.execFbrel h o s
  | .pgpop h o => Sys2Proof.Machine.execPgpop h o s
  | .fbact h o => Sys2Proof.Machine.execFbact h o s
  | .frz h o => Sys2Proof.Machine.execFrz h o s
  | .caprd h o => Sys2Proof.Machine.execCaprd h o s
  | .sleep h o => Sys2Proof.Machine.execSleep h o s
  | .wfe h o => Sys2Proof.Machine.execWfe h o s
  | .ldt h o => Sys2Proof.Machine.execLdt h o s
  | .ldtr h o => Sys2Proof.Machine.execLdtr h o s
  | .stt h o => Sys2Proof.Machine.execStt h o s
  | .lds h o => Sys2Proof.Machine.execLds h o s
  | .ldsb h o => Sys2Proof.Machine.execLdsb h o s
  | .sts h o => Sys2Proof.Machine.execSts h o s
  | .gath h o => Sys2Proof.Machine.execGath h o s
  | .scat h o => Sys2Proof.Machine.execScat h o s
  | .gadd h o => Sys2Proof.Machine.execGadd h o s
  | .gsub h o => Sys2Proof.Machine.execGsub h o s
  | .gmul h o => Sys2Proof.Machine.execGmul h o s
  | .gshl h o => Sys2Proof.Machine.execGshl h o s
  | .gshr h o => Sys2Proof.Machine.execGshr h o s
  | .gand h o => Sys2Proof.Machine.execGand h o s
  | .gor h o => Sys2Proof.Machine.execGor h o s
  | .gmin h o => Sys2Proof.Machine.execGmin h o s
  | .gmax h o => Sys2Proof.Machine.execGmax h o s
  | .gaddi h o => Sys2Proof.Machine.execGaddi h o s
  | .gandi h o => Sys2Proof.Machine.execGandi h o s
  | .gshli h o => Sys2Proof.Machine.execGshli h o s
  | .gmovi h o => Sys2Proof.Machine.execGmovi h o s
  | .gmovhi h o => Sys2Proof.Machine.execGmovhi h o s
  | .gcl h o => Sys2Proof.Machine.execGcl h o s
  | .gparm h o => Sys2Proof.Machine.execGparm h o s
  | .loopAcc h fx o => Sys2Proof.Machine.execLoopAcc h fx o s
  | .sloop h fx o => Sys2Proof.Machine.execSloop h fx o s
  | .bpushAcc h o => Sys2Proof.Machine.execBpushAcc h o s
  | .bskipAcc h o => Sys2Proof.Machine.execBskipAcc h o s
  | .cbacq h o => Sys2Proof.Machine.execCbacq h o s
  | .cbrel h o => Sys2Proof.Machine.execCbrel h o s
  | .setclAcc h o => Sys2Proof.Machine.execSetclAcc h o s
  | .incclAcc h o => Sys2Proof.Machine.execIncclAcc h o s
  | .dqflush h o => Sys2Proof.Machine.execDqflush h o s
  | .dqeos h o => Sys2Proof.Machine.execDqeos h o s
  | .pgreqAcc h o => Sys2Proof.Machine.execPgreqAcc h o s
  | .vadd h fx o => Sys2Proof.Machine.execVadd h fx o s
  | .vsub h fx o => Sys2Proof.Machine.execVsub h fx o s
  | .vmul h fx o => Sys2Proof.Machine.execVmul h fx o s
  | .vmin h fx o => Sys2Proof.Machine.execVmin h fx o s
  | .vmax h fx o => Sys2Proof.Machine.execVmax h fx o s
  | .vabs h fx o => Sys2Proof.Machine.execVabs h fx o s
  | .vneg h fx o => Sys2Proof.Machine.execVneg h fx o s
  | .vfma h fx o => Sys2Proof.Machine.execVfma h fx o s
  | .vfms h fx o => Sys2Proof.Machine.execVfms h fx o s
  | .vfnma h fx o => Sys2Proof.Machine.execVfnma h fx o s
  | .viadd h fx o => Sys2Proof.Machine.execViadd h fx o s
  | .visub h fx o => Sys2Proof.Machine.execVisub h fx o s
  | .vimul h fx o => Sys2Proof.Machine.execVimul h fx o s
  | .vshl h fx o => Sys2Proof.Machine.execVshl h fx o s
  | .vshr h fx o => Sys2Proof.Machine.execVshr h fx o s
  | .vand h fx o => Sys2Proof.Machine.execVand h fx o s
  | .vor h fx o => Sys2Proof.Machine.execVor h fx o s
  | .vxor h fx o => Sys2Proof.Machine.execVxor h fx o s
  | .vdot4 h o => Sys2Proof.Machine.execVdot4 h o s
  | .vdot2 h o => Sys2Proof.Machine.execVdot2 h o s
  | .vdiv h fx o => Sys2Proof.Machine.execVdiv h fx o s
  | .vsqrt h fx o => Sys2Proof.Machine.execVsqrt h fx o s
  | .vrcp h fx o => Sys2Proof.Machine.execVrcp h fx o s
  | .vrsq h fx o => Sys2Proof.Machine.execVrsq h fx o s
  | .vexp2 h o => Sys2Proof.Machine.execVexp2 h o s
  | .vlog2 h o => Sys2Proof.Machine.execVlog2 h o s
  | .vtanh h o => Sys2Proof.Machine.execVtanh h o s
  | .vcmp h fx o => Sys2Proof.Machine.execVcmp h fx o s
  | .vicmp h fx o => Sys2Proof.Machine.execVicmp h fx o s
  | .vsel h o => Sys2Proof.Machine.execVsel h o s
  | .vcvt h fx o => Sys2Proof.Machine.execVcvt h fx o s
  | .vrsum h fx o => Sys2Proof.Machine.execVrsum h fx o s
  | .vrmax h fx o => Sys2Proof.Machine.execVrmax h fx o s
  | .vrmin h fx o => Sys2Proof.Machine.execVrmin h fx o s
  | .vrargmax h fx o => Sys2Proof.Machine.execVrargmax h fx o s
  | .vscanadd h fx o => Sys2Proof.Machine.execVscanadd h fx o s
  | .vscanmax h fx o => Sys2Proof.Machine.execVscanmax h fx o s
  | .vperm h fx o => Sys2Proof.Machine.execVperm h fx o s
  | .vbcast h fx o => Sys2Proof.Machine.execVbcast h fx o s
  | .vrot h fx o => Sys2Proof.Machine.execVrot h fx o s
  | .vshuf h fx o => Sys2Proof.Machine.execVshuf h fx o s
  | .vmov h o => Sys2Proof.Machine.execVmov h o s
  | .vmovi h o => Sys2Proof.Machine.execVmovi h o s
  | .pand h o => Sys2Proof.Machine.execPand h o s
  | .por h o => Sys2Proof.Machine.execPor h o s
  | .pxor h o => Sys2Proof.Machine.execPxor h o s
  | .pnot h o => Sys2Proof.Machine.execPnot h o s
  | .pffs h o => Sys2Proof.Machine.execPffs h o s
  | .pffz h o => Sys2Proof.Machine.execPffz h o s
  | .pcnt h o => Sys2Proof.Machine.execPcnt h o s
  | .defer h o => Sys2Proof.Machine.execDefer h o s
  | .drain h o => Sys2Proof.Machine.execDrain h o s
  | .drainf h o => Sys2Proof.Machine.execDrainf h o s
  | .loopExe h fx o => Sys2Proof.Machine.execLoopExe h fx o s
  | .bpushExe h o => Sys2Proof.Machine.execBpushExe h o s
  | .bskipExe h o => Sys2Proof.Machine.execBskipExe h o s
  | .setclExe h o => Sys2Proof.Machine.execSetclExe h o s
  | .incclExe h o => Sys2Proof.Machine.execIncclExe h o s
  | .vqblk h fx o => Sys2Proof.Machine.execVqblk h fx o s
  | .vdqblk h fx o => Sys2Proof.Machine.execVdqblk h fx o s
  | .vscale h fx o => Sys2Proof.Machine.execVscale h fx o s
  | .vomax h o => Sys2Proof.Machine.execVomax h o s
  | .viota h o => Sys2Proof.Machine.execViota h o s
  | .vclv h o => Sys2Proof.Machine.execVclv h o s
  | .vfrd h o => Sys2Proof.Machine.execVfrd h o s
  | .vfclr h o => Sys2Proof.Machine.execVfclr h o s
  | .vfclrCtx h o => Sys2Proof.Machine.execVfclrCtx h o s
  | .vrmask h o => Sys2Proof.Machine.execVrmask h o s
  | .qcmp h fx o => Sys2Proof.Machine.execQcmp h fx o s
  | .qand h fx o => Sys2Proof.Machine.execQand h fx o s
  | .qor h fx o => Sys2Proof.Machine.execQor h fx o s
  | .qnot h o => Sys2Proof.Machine.execQnot h o s
  | .qsel h fx o => Sys2Proof.Machine.execQsel h fx o s
  | .qcol h o => Sys2Proof.Machine.execQcol h o s
  | .qfrom h o => Sys2Proof.Machine.execQfrom h o s
  | .qto h o => Sys2Proof.Machine.execQto h o s
  | .qgcmp h fx o => Sys2Proof.Machine.execQgcmp h fx o s
  | .qgsel h o => Sys2Proof.Machine.execQgsel h o s
  | .qgand h o => Sys2Proof.Machine.execQgand h o s
  | .qlin h o => Sys2Proof.Machine.execQlin h o s
  | .qrsum h o => Sys2Proof.Machine.execQrsum h o s
  | .qrprod h o => Sys2Proof.Machine.execQrprod h o s
  | .mldb h o => Sys2Proof.Machine.execMldb h o s
  | .mlds h o => Sys2Proof.Machine.execMlds h o s
  | .mgo h o => Sys2Proof.Machine.execMgo h o s
  | .mdrain h o => Sys2Proof.Machine.execMdrain h o s
  | .mdraina h o => Sys2Proof.Machine.execMdraina h o s
  | .minit h o => Sys2Proof.Machine.execMinit h o s
  | .mswap h o => Sys2Proof.Machine.execMswap h o s
  | .mwait h o => Sys2Proof.Machine.execMwait h o s
  | .mstat h o => Sys2Proof.Machine.execMstat h o s
  | .mdq h o => Sys2Proof.Machine.execMdq h o s
  | .mclr h o => Sys2Proof.Machine.execMclr h o s
  | .mlda h o => Sys2Proof.Machine.execMlda h o s
  | .msel h o => Sys2Proof.Machine.execMsel h o s
  | .copy h o => Sys2Proof.Machine.execCopy h o s
  | .copyXor h o => Sys2Proof.Machine.execCopyXor h o s
  | .cfill h o => Sys2Proof.Machine.execCfill h o s
  | .cpush h o => Sys2Proof.Machine.execCpush h o s
  | .cpushXor h o => Sys2Proof.Machine.execCpushXor h o s
  | .cpull h o => Sys2Proof.Machine.execCpull h o s
  | .cxch h o => Sys2Proof.Machine.execCxch h o s
  | .ccb h o => Sys2Proof.Machine.execCcb h o s
  | .tcow h o => Sys2Proof.Machine.execTcow h o s
  | .tmigDemote h o => Sys2Proof.Machine.execTmigDemote h o s
  | .tmigPromote h o => Sys2Proof.Machine.execTmigPromote h o s
  | .tshare h o => Sys2Proof.Machine.execTshare h o s
  | .tfree h o => Sys2Proof.Machine.execTfree h o s
  | .cpref h o => Sys2Proof.Machine.execCpref h o s
  | .csync h o => Sys2Proof.Machine.execCsync h o s
  | .nsend h o => Sys2Proof.Machine.execNsend h o s
  | .nrecv h o => Sys2Proof.Machine.execNrecv h o s
  | .nput h o => Sys2Proof.Machine.execNput h o s
  | .nget h o => Sys2Proof.Machine.execNget h o s
  | .ncset h o => Sys2Proof.Machine.execNcset h o s
  | .ncrd h o => Sys2Proof.Machine.execNcrd h o s
  | .nctlFlush h o => Sys2Proof.Machine.execNctlFlush h o s
  | .nctlCancel h o => Sys2Proof.Machine.execNctlCancel h o s
  | .launch o => Sys2Proof.Machine.execLaunch o s
  | .waitv o => Sys2Proof.Machine.execWaitv o s
  | .sigvSt o => Sys2Proof.Machine.execSigvSt o s
  | .sigvAdd o => Sys2Proof.Machine.execSigvAdd o s
  | .sigvOr o => Sys2Proof.Machine.execSigvOr o s
  | .skipif o => Sys2Proof.Machine.execSkipif o s
  | .jump o => Sys2Proof.Machine.execJump o s
  | .listCall o => Sys2Proof.Machine.execListCall o s
  | .listRet o => Sys2Proof.Machine.execListRet o s
  | .cutreqStop o => Sys2Proof.Machine.execCutreqStop o s
  | .cutreqCancel o => Sys2Proof.Machine.execCutreqCancel o s
  | .cutreqResume o => Sys2Proof.Machine.execCutreqResume o s
  | .fence o => Sys2Proof.Machine.execFence o s
  | .note o => Sys2Proof.Machine.execNote o s
  | .listEnd o => Sys2Proof.Machine.execListEnd o s
  | .fxctlClrcnt port => Sys2Proof.Machine.execFxctlClrcnt port s
  | .fxctlPdis port down => Sys2Proof.Machine.execFxctlPdis port down s
  | .fxctlWena port mask => Sys2Proof.Machine.execFxctlWena port mask s
  | .exeCommit core => Sys2Proof.Machine.execExeCommit core s
  | .mtxPointCommit core => Sys2Proof.Machine.execMtxPointCommit core s
  | .ccbFillComplete core idx => Sys2Proof.Machine.execCcbFillComplete core idx s
  | .migrationFlip idx => Sys2Proof.Machine.execMigrationFlip idx s
  | .netCompletion op pkt => Sys2Proof.Machine.execNetCompletion op pkt s
  | .atomicResult idx => Sys2Proof.Machine.execAtomicResult idx s
  | .homeAtomicPerform idx => Sys2Proof.Machine.execHomeAtomicPerform idx s
  | .meshCombine x y => Sys2Proof.Machine.execMeshCombine x y s
  | .replySplit idx => Sys2Proof.Machine.execReplySplit idx s
  | .cowCopyDone idx => Sys2Proof.Machine.execCowCopyDone idx s
  | .shadowFillDone idx => Sys2Proof.Machine.execShadowFillDone idx s
  | .horizonPublish cid => Sys2Proof.Machine.execHorizonPublish cid s
  | .stopAccept cid => Sys2Proof.Machine.execStopAccept cid s
  | .stopComplete cid => Sys2Proof.Machine.execStopComplete cid s
  | .watchFire core eng => Sys2Proof.Machine.execWatchFire core eng s
  | .hang core => Sys2Proof.Machine.execHang core s
  | .fbufConsWrite pid cons => Sys2Proof.Machine.execFbufConsWrite pid cons s
  | .rcfComplete cid inc => Sys2Proof.Machine.execRcfComplete cid inc s
  | .phaserRelease ph => Sys2Proof.Machine.execPhaserRelease ph s
  | .teamPlace die => Sys2Proof.Machine.execTeamPlace die s
  | .teamMigrate team die => Sys2Proof.Machine.execTeamMigrate team die s
  | .taskStart core => Sys2Proof.Machine.execTaskStart core s
  | .coreReturn core => Sys2Proof.Machine.execCoreReturn core s
  | .launchComplete idx => Sys2Proof.Machine.execLaunchComplete idx s
  | .childQueueMove die cid => Sys2Proof.Machine.execChildQueueMove die cid s
  | .pendingSpawnAppend core => Sys2Proof.Machine.execPendingSpawnAppend core s
  | .deficitWindow => Sys2Proof.Machine.execDeficitWindow s
  | .classAging team => Sys2Proof.Machine.execClassAging team s
  | .sliceEnd set => Sys2Proof.Machine.execSliceEnd set s
  | .waitvReread pid q => Sys2Proof.Machine.execWaitvReread pid q s
  | .waitvTimeout pid q => Sys2Proof.Machine.execWaitvTimeout pid q s
  | .submit m => Sys2Proof.Machine.execSubmit m s
  | .signal m value => Sys2Proof.Machine.execSignal m value s
  | .rmaWrite m bytes => Sys2Proof.Machine.execRmaWrite m bytes s
  | .rmaRead m len => Sys2Proof.Machine.execRmaRead m len s
  | .attestationRequest m => Sys2Proof.Machine.execAttestationRequest m s
  | .uePacketReceive p => Sys2Proof.Machine.execUePacketReceive p s
  | .ueRetransmitTimeout op pkt => Sys2Proof.Machine.execUeRetransmitTimeout op pkt s
  | .ueNack op pkt => Sys2Proof.Machine.execUeNack op pkt s
  | .rotorSlotStart adverts => Sys2Proof.Machine.execRotorSlotStart adverts s
  | .tsync dev gts echo => Sys2Proof.Machine.execTsync dev gts echo s
  | .slotEndDiscard port rx => Sys2Proof.Machine.execSlotEndDiscard port rx s
  | .linkReplay req => Sys2Proof.Machine.execLinkReplay req s
  | .wavelengthWithdraw port lam => Sys2Proof.Machine.execWavelengthWithdraw port lam s
  | .wavelengthRejoin port lam => Sys2Proof.Machine.execWavelengthRejoin port lam s
  | .relayForward idx => Sys2Proof.Machine.execRelayForward idx s
  | .ldreq p => Sys2Proof.Machine.execLdreq p s
  | .streq p => Sys2Proof.Machine.execStreq p s
  | .atreq p => Sys2Proof.Machine.execAtreq p s
  | .atreqCombine x y => Sys2Proof.Machine.execAtreqCombine x y s
  | .push p => Sys2Proof.Machine.execPush p s
  | .pullreq p => Sys2Proof.Machine.execPullreq p s
  | .data p => Sys2Proof.Machine.execData p s
  | .ack p => Sys2Proof.Machine.execAck p s
  | .atresp p => Sys2Proof.Machine.execAtresp p s
  | .fabricRetransmit idx => Sys2Proof.Machine.execFabricRetransmit idx s
  | .fabricAbandon idx => Sys2Proof.Machine.execFabricAbandon idx s
  | .hotSpareTakeover num pos cyc => Sys2Proof.Machine.execHotSpareTakeover num pos cyc s
  | .resetRelease b => Sys2Proof.Machine.execResetRelease b s
  | .strapWake b => Sys2Proof.Machine.execStrapWake b s
  | .freeze => Sys2Proof.Machine.execFreeze s
  | .thaw viaTap => Sys2Proof.Machine.execThaw viaTap s
  | .tapAccess op => Sys2Proof.Machine.execTapAccess op s
  | .thermalStepDown isl r => Sys2Proof.Machine.execThermalStepDown isl r s
  | .thermalStepUp isl r => Sys2Proof.Machine.execThermalStepUp isl r s
  | .thermalHold isl r => Sys2Proof.Machine.execThermalHold isl r s
  | .thermalHoldEnd isl r => Sys2Proof.Machine.execThermalHoldEnd isl r s
  | .mgmtMessage => Sys2Proof.Machine.execMgmtMessage s
  | .performedAtHome idx => Sys2Proof.Machine.execPerformedAtHome idx s
  | .dataLanded core eng => Sys2Proof.Machine.execDataLanded core eng s
  | .teamMigrationArrival idx => Sys2Proof.Machine.execTeamMigrationArrival idx s
  | .failedNumberMarkedAbsent num => Sys2Proof.Machine.execFailedNumberMarkedAbsent num s
  | .debugInterfaceRequest r => Sys2Proof.Machine.execDebugInterfaceRequest r s
  | .powerLoss => Sys2Proof.Machine.execPowerLoss s

end Sys2Proof.Machine
end

