-- ==== Sys2Proof/Machine/Fetch.lean ====
section
/-! DEFINITION. What a step runs (R164 to R166, R308, R309, R421, R42, R92): the clocks of a step, instruction fetch and its cache, the decode tests
of Table 13.16, the choice of each engine's next word, the walk of a command list, and what may happen in each power state. -/

namespace Sys2Proof.Machine

/-! ### Clocks -/

/-- GTS after `dg` nanoseconds of the device's own clock, at a rate trimmed by `trim` parts in a million (R76), with the part of a nanosecond that
remains. -/
def State.passGts (s : State) (dg : Nat) : State :=
  let n := s.gtsFrac + dg * (1000000 + s.trim).toNat
  { s with gts := s.gts + BitVec.ofNat 64 (n / 1000000), gtsFrac := n % 1000000 }
/-- The cycles and GTS units that pass before a step, and the free values that it may use. Before GTS goes on, packets leave over Ultra Ethernet and
waiting WAITVs that are due read again (R89, R94). Clocks stand still unless the device runs (R52). -/
def State.tick (s : State) (dt dg : Nat) : State :=
  let s : State := { s with freeCtr := s.freeCtr + 4096 }
  let s := if s.pstate == .running && dg != 0 then (s.rereads dg s.running).flushUe else s
  if s.pstate == .running then { (s.charge dg).passGts dg with cycle := s.cycle + dt } else s

/-! ### Instruction fetch (R164, R165, R191) -/

/-- The way that a line fills: the one whose locked tag it matches, else an unlocked way that the device chooses. -/
def State.fillWay (s : State) (m : SMap ICLine) (a : Nat) : Nat :=
  match (List.range 4).find? fun w => let l := m.get {} (icSet a * 4 + w); l.locked && l.addr == a / 64 with
  | some w => w
  | none =>
    let w := (Config.freeWord (s.freeCtr + 201)).toNat % 4
    if (m.get {} (icSet a * 4 + w)).locked then w % 2 else w
/-- The instruction word at an address, from the cache or from memory through a fill; an unlocked line may have been evicted since. A fault is that
of an address outside the X windows, or of poison. -/
def State.fetchAt (s : State) (n : Nat) (a : Word) : (Word × State) ⊕ BitVec 8 :=
  if a.toNat % 8 != 0 then .inr fRawWindow else
  match s.coreKeys n a 8 .x with
  | .inr f => .inr f
  | .inl ks =>
    let m := (s.core n).icache
    let ln := a.toNat / 64 * 64
    let i := icSet ln * 4 + icFind m ln
    let l := m.get {} i
    if icFind m ln < 4 && (l.locked || !Config.freeBit (s.freeCtr + 200)) then .inl (l.data.extractLsb' (8 * (a.toNat % 64)) 64, s)
    else if s.anyPoison ks then .inr fEccUe
    else
      let m := if icFind m ln < 4 then m.set {} i {} else m
      let w := icSet ln * 4 + s.fillWay m ln
      let l' : ICLine := { addr := ln / 64, valid := true, data := s.lineData n ln, locked := (m.get {} w).locked }
      .inl (bitsOf 64 (ks.map s.byte), s.modCore n fun c => { c with icache := m.set {} w l' })
/-- The words that a core may hold fetched and unissued. -/
def fetchDepth : Nat := 32
/-- Fetches the next word in sequence, ahead of its issue. -/
def State.prefetch (s : State) (n : Nat) : State :=
  let c := s.core n
  let a := match c.fetched.getLast? with | some (a, _) => a + 8 | none => c.pc
  if fetchDepth ≤ c.fetched.length then s else
  match s.fetchAt n a with
  | .inl (w, t) => t.modCore n fun c => { c with fetched := c.fetched ++ [(a, w)] }
  | .inr _ => s
/-- The word at the PC, with the state in which it heads the fetched words. -/
def State.fetchPc (s : State) (n : Nat) : (Word × State) ⊕ BitVec 8 :=
  let c := s.core n
  match c.fetched with
  | (a, w) :: rest =>
    if a == c.pc then .inl (w, s)
    else match (s.modCore n fun c => { c with fetched := [] }).fetchAt n c.pc with
      | .inl (w, t) => .inl (w, t.modCore n fun d => { d with fetched := [(c.pc, w)] })
      | .inr f => let _ := rest; .inr f
  | [] =>
    match s.fetchAt n c.pc with
    | .inl (w, t) => .inl (w, t.modCore n fun d => { d with fetched := [(c.pc, w)] })
    | .inr f => .inr f

/-! ### Decode (R108, R308, R309) -/

/-- The profile that covers an opcode (R13, R308): its bit in PROF. -/
def profileOf (opc : Nat) : Nat :=
  if opc < 0x30 || 0x7E ≤ opc then 0 else if 0x58 ≤ opc && opc ≤ 0x5F then 2 else if opc < 0x60 then 1 else if opc < 0x6C then 3 else if opc < 0x78 then 4 else 5
/-- Whether a core's launch declares the profile of an opcode; a supervisor core has no launch. -/
def Core.hasProfile (c : Core) (opc : Nat) : Bool := match c.task with | some t => t.desc.prof.getLsbD (profileOf opc) | none => true
/-- Whether words of an opcode hold a stage guard in bits 3 to 0 (R303). -/
def hasGuard (opc : Nat) : Bool := 0x30 ≤ opc && opc ≤ 0x5F && !(opc == 0x37 || opc == 0x38 || opc == 0x39 || opc == 0x3F || opc == 0x50)
/-- A guard outside every loop body, or on a stage that the innermost loop does not have. -/
def EngSt.guardBad (x : EngSt) (w : Word) : Bool :=
  hasGuard (opcOf w).toNat && w.getLsbD 3 && (match x.loops.head? with | some l => l.stages ≤ (w.extractLsb' 0 3).toNat | none => true)
/-- The tests of Table 13.16, in order: the instruction, or the fault. -/
noncomputable def State.decodeOn (s : State) (n : Nat) (eng : Eng) (w : Word) : Instr ⊕ BitVec 8 :=
  let opc := (opcOf w).toNat
  if w.getLsbD 47 then .inr fIllegal
  else if opc != 0x7F && !decodes eng opc then .inr fMismatch
  else if 0x28 ≤ opc && opc ≤ 0x2F && n != e0 then .inr fPriv
  else if opc != 0x7F && !(s.core n).hasProfile opc then .inr fIllegal
  else match decodeFor eng w with
    | .error _ => .inr fIllegal
    | .ok i => if ((s.core n).eng eng).guardBad w then .inr fIllegal else .inl i

/-! ### The next word of an engine -/

/-- Whether a fault raised while a handler ran holds the whole core (R152). -/
def Core.coreHeld (c : Core) : Bool := engines.any fun eng => (c.eng eng).park.any (·.core)
/-- Whether an engine of a core may act: the device runs, the core's island has a clock (R42) and its issue not halted (R184), no handler runs
for a ring engine (R150), no fault parks it (R148) or holds the whole core (R152), and its task has started in a LIVE context. -/
def State.mayAct (s : State) (n : Nat) (eng : Eng) : Bool :=
  let c := s.core n
  s.pstate == .running && n ≤ 257 && s.coreOn n && !c.halted && (eng == .cc || !tcInh c.tcause) && (c.eng eng).park.isNone && !c.coreHeld &&
    (isSup n || ((s.ctx c.cid).st == .live && (match c.task with | some t => t.started && !(eng == .cc && t.ended) | none => false)))
/-- A decoded word runs; one that fails a test raises its fault with restart "before" (R309). -/
noncomputable def State.runWord (s : State) (n : Nat) (eng : Eng) (w : Word) (slot : BitVec 16) : (Instr × State) ⊕ State :=
  match s.decodeOn n eng w with
  | .inl i => .inl (i, s)
  | .inr code =>
    let x := (s.core n).eng eng
    .inr (s.raise n eng code w (if eng == .cc then ccE s 0 else maxW x.elast x.crd) true slot)
/-- The next word of a control core. -/
noncomputable def State.ccNext (s : State) (n : Nat) : (Instr × State) ⊕ State :=
  match s.fetchPc n with
  | .inr code => .inr (s.raise n .cc code (s.core n).pc (ccE s 0) true 0)
  | .inl (w, t) => t.runWord n .cc w 0
/-- The next word of ACC, EXE, CPY or NET: the one at HEAD. -/
noncomputable def State.ringWordNext (s : State) (n : Nat) (eng : Eng) : (Instr × State) ⊕ State :=
  let c := s.core n
  let r := (c.eng eng).ring
  if r.head == r.tail then .inr s else s.runWord n eng (c.ringWord eng r.head) r.head
/-- Whether the queue that a matrix word pops holds landed data. -/
def Core.mtxPopMet (c : Core) (p : BitVec 16) : Bool :=
  match popKind .mtx (c.ringWord .mtx p) with
  | (1, q) => match c.dq.get [] q with | x :: _ => x.landed | [] => false
  | _ => true
/-- The next word of MTX (R421): the oldest ready one that passes decode. One that does not raises its fault at HEAD. -/
noncomputable def State.mtxNext (s : State) (n : Nat) : (Instr × State) ⊕ State :=
  let c := s.core n
  let r := c.mtx.ring
  let bad (p : BitVec 16) : Bool := match s.decodeOn n .mtx (c.ringWord .mtx p) with | .inl _ => false | .inr _ => true
  if r.head != r.tail && bad r.head then s.runWord n .mtx (c.ringWord .mtx r.head) r.head
  else match (c.mtxReadies.filter fun p => c.mtxPopMet p && !bad p).head? with
    | some p => s.runWord n .mtx (c.ringWord .mtx p) p
    | none => .inr s
/-- Whether an engine's turn to test its next word is still to come in this cycle: each engine tests one word in a cycle, the matrix engine any number
(R164, R169), in the order control core, ACC, EXE, MTX, CPY, NET (R173). -/
def Core.mayTest (c : Core) (now : Nat) (eng : Eng) : Bool := c.turn.1 != now + 1 || c.turn.2 ≤ eng.num
/-- An engine takes its turn. -/
def State.takeTurn (s : State) (n : Nat) (eng : Eng) : State :=
  s.modCore n fun c => { c with turn := (s.cycle + 1, if eng == .mtx then eng.num else eng.num + 1) }
/-- What an engine does when it moves: a waiting word retires if it can; otherwise its next word runs, if its turn has not passed. -/
noncomputable def State.coreNext (s : State) (n : Nat) (eng : Eng) : (Instr × State) ⊕ State :=
  let s : State := { s with cur := n, curEng := eng }
  let s := if s.pstate == .running then s.selfClear n eng else s
  if !s.mayAct n eng then .inr s else
  match s.waitRetire n eng with
  | some t => .inr t
  | none =>
    if !(s.core n).mayTest s.cycle eng then .inr s else
    let s := s.takeTurn n eng
    match eng with
    | .cc => s.ccNext n
    | .mtx => s.mtxNext n
    | .acc => s.ringWordNext n .acc
    | .exe => s.ringWordNext n .exe
    | .cpy => s.ringWordNext n .cpy
    | .net => s.ringWordNext n .net

/-! ### Command lists (R82, R87, R91, R92, R357) -/

/-- An entry as an interpreter finds it at its address, or the fault of reading it. -/
def State.entryAt (s : State) (i : Interp) : BitVec 512 ⊕ State :=
  match s.rawKeys i.lst.cid i.pc 64 .r with
  | none => .inr (s.listFault i fRawWindow i.pc)
  | some ks =>
    if s.anyPoison ks then .inr ((s.hostPoison i.lst.cid (256 + s.curQ.2 % 2) i.pc i.pc).listGone s.curQ.1 s.curQ.2) else .inl (bitsOf 512 (ks.map s.byte))
/-- An entry runs, or its encoding abandons the list. -/
noncomputable def State.runEntry (s : State) (i : Interp) (x : BitVec 512) : (Instr × State) ⊕ State :=
  match decodeEntry x with
  | .ok j => .inl (j, s.setInterp { i with entry := x })
  | .error _ => .inr (s.listFault i fIllegal (x.extractLsb' 0 64))
/-- What an interpreter does when it moves: it takes the queue's next list, dropping one whose incarnation is gone; it abandons a list whose
incarnation is gone or whose queue has been disabled; or it runs the entry it stands at. -/
noncomputable def State.listNext (s : State) (pid q : Nat) : (Instr × State) ⊕ State :=
  let s : State := { s with curQ := (pid, q) }
  let x := s.queue pid q
  if s.pstate != .running then .inr s else
  match x.cur with
  | some i =>
    if x.closing || !s.live i.lst.cid i.lst.inc then .inr ((s.setQueue pid q { x with cur := none, closing := false }).qspace pid q)
    else if i.wait != .none then s.runEntry i i.entry
    else match s.entryAt i with
      | .inl e => s.runEntry i e
      | .inr t => .inr t
  | none =>
    match x.pend with
    | [] => .inr s
    | l :: rest =>
      if !s.live l.cid l.inc then .inr ((s.setQueue pid q { x with pend := rest }).qspace pid q)
      else .inr (s.setQueue pid q { x with pend := rest, cur := some { lst := l, pc := l.addr } })

/-! ### Events -/

/-- Whether a step is an event, not a word or an entry. -/
noncomputable def Instr.isEvent (i : Instr) : Bool := i.encode.isNone && i.encodeEntry.isNone
/-- Whether an event may happen in a power state (R48, R51, R53). -/
def PState.admits (p : PState) : Instr → Bool
  | .resetRelease _ => true
  | .powerLoss => true
  | .strapWake _ => p == .lowest
  | .thaw _ => p == .frozen
  | .tapAccess _ => p == .frozen
  | _ => p == .running

/-- What a scheduled move runs: an instruction in a state, or a state that is the whole of the step. -/
noncomputable def State.next (s : State) (who : Who) : (Instr × State) ⊕ State :=
  match who with
  | .core n eng => s.coreNext n eng
  | .fetch n => .inr (if s.mayAct n .cc then s.prefetch n else s)
  | .list pid q => s.listNext pid q
  | .event i => if Instr.isEvent i && s.pstate.admits i then .inl (i, s) else .inr s
  | .idle => .inr s

/-- A core whose engine meets a word next: a tile task of context 1 that has started, with the word in the engine's ring or fetched. -/
def Core.placeWord (c : Core) (sup : Bool) (eng : Eng) (w : Word) : Core :=
  let t : Task := { cid := 1, started := true, desc := { prof := 0x3F } }
  let c := { c with task := if sup then c.task else some t, halted := false, ccWait := none, tcause := 0, waitQ := [], turn := (0, 0) }
  if eng == .cc then { c with fetched := [(c.pc, w)], cc := { c.cc with park := none, waitsStop := false } }
  else
    let x := c.eng eng
    ({ c with spad := putSpad c.spad 0 (leBytes w.toNat 8) } : Core).setEng eng
      { x with ring := { size := 6, tail := 1 }, iss := [], loops := [], skip := 0, park := none, waitsStop := false }
/-- The state in which the next move of an engine meets a word. -/
def State.placeWord (s : State) (w : Word) : State :=
  let opc := (opcOf w).toNat
  let eng := engOf opc
  let n := if 0x28 ≤ opc && opc ≤ 0x2F then e0 else 0
  let s : State := { s with pstate := .running, islands := s.islands.set {} (coreIsland n) {}, sched := { who := .core n eng } :: s.sched }
  (s.modCtx 1 fun c => { c with st := .live, used := true, inc := 0, stop := none }).modCore n fun c => c.placeWord (isSup n) eng w
/-- The state in which the next move of an interpreter meets an entry: partition 8 with one segment of HBM, context 1 with a window over it, and a
list of queue 0 that stands at the entry. -/
def State.placeEntry (s : State) (x : BitVec 512) : State :=
  let s : State := { s with pstate := .running, sched := { who := .list 8 0 } :: s.sched }
  let s := s.putBytes (memKey 3 0 0) (leBytes 3 8)
  let s := s.modPart 8 fun p => { p with used := true, hbm := 1, segn := 1, segbase := 0 }
  let s := s.modCtx 1 fun c => { c with st := .live, used := true, inc := 0, pid := 8, wins := [(0, 0x100F)] }
  let s := (s.putBytes (memKey 1 0 0) (leBytes x.toNat 64))
  s.setQueue 8 0 { s.queue 8 0 with en := true, closing := false, cur := some { lst := { cid := 1 } } }

end Sys2Proof.Machine
end

