-- ==== Sys2Proof/Machine/Step.lean ====
section
/-! DEFINITION. One step of the device: the next scheduled move passes its clocks, and what it runs is executed. The schedule is plain data of
the state; every interleaving of the agents, and every event of the outside world, is some schedule. -/

namespace Sys2Proof.Machine

/-- One step. With nothing scheduled nothing moves. -/
noncomputable def step (s : State) : Host.Outcome State Fault Refusal :=
  match s.sched with
  | [] => .next (s.tick 1 1)
  | x :: xs =>
    match (({ s with sched := xs } : State).tick x.dt x.dg).next x.who with
    | .inl (i, t) => exec i t
    | .inr t => .next t

/-- `s` with an instruction where its next step fetches: a word of at most 64 bits in the ring of its opcode's engine or fetched by the control
core, a longer one as the entry at which a command list stands. -/
def State.withFetchWord (s : State) (nbits w : Nat) : State :=
  if nbits ≤ 64 then s.placeWord (BitVec.ofNat 64 (w % 2 ^ nbits)) else s.placeEntry (BitVec.ofNat 512 (w % 2 ^ nbits))

end Sys2Proof.Machine
end

