-- ==== Sys2Proof/Safety.lean ====
section
/-! DEFINITION. The terms in which claims about runs are made: a step that goes on, the invariants of memory and registers, when a word of
an engine may issue (the conditions of R164 to R183, R255, R258, R263 and R264 on the state alone), and what an instruction may change. -/

namespace Sys2Proof.Machine

/-- The machine goes on from a state. -/
def Goes (s : State) : Prop := ∃ t, step s = .next t
/-- A run of `n` steps that never stops. -/
def SafeRun (s : State) (n : Nat) : Prop := ∃ t, Sys2Proof.core.run n s = .next t

/-- The invariant of memory that every step keeps: its canonical form. -/
def MemInv (s : State) : Prop := Memory.wf s.mem = true
/-- Each core is listed once, which every step keeps. -/
def CoresInv (s : State) : Prop := (s.cores.map (·.1)).Nodup

/-! ### When a control-core word issues -/

/-- The wait-set entry that a word names; 0 names none (R172). -/
def Core.waitVal (c : Core) (h : Hdr) : Word := if h.wait == 0 then 0 else c.wset.get 0 h.wait.toNat
/-- The effective coordinate of a control-core word (R249): ELAST, CRD, and the tags of the tokens it consumes. -/
def State.ccCrd (s : State) (h : Hdr) (toks : List (Nat × Nat)) (extra : Word) : Word :=
  ccE s (maxW (maxW (s.me.waitTag (s.me.waitVal h)) (toks.foldl (fun m (t, _) => maxW m (s.me.tok.get {} t).tag) 0)) extra)

/-- A control-core word of the moving core may issue and retire at once: no issued word waits; its wait set is legal and met (R172, R173);
no source register awaits a delivery (R321) or, under REGCHK, is freed (R183); no stop lies at or below its coordinate and no watch covers
it (R263, R264); the peel log and the egress hold have room (R255, R258); its signal does not overflow (R171). -/
structure CcMay (s : State) (h : Hdr) (srcs : List (BitVec 6 × Bool)) (toks : List (Nat × Nat)) (extra : Word) : Prop where
  fresh : s.me.ccWait = none
  legal : waitOk (s.me.waitVal h) = true
  met : ∀ x ∈ waitPresent (s.me.waitVal h) ++ toks, tokNeed (waitPresent (s.me.waitVal h) ++ toks) x.1 ≤ (s.me.tok.get {} x.1).count.toNat
  landed : ∀ x ∈ srcs, s.me.sPend.get 0 x.1.toNat = 0
  alive : s.me.dbgReg.getLsbD 1 = true → ∀ x ∈ srcs, s.me.deadS.get none x.1.toNat = none
  noStop : s.stopAtOrBelow s.cur (s.ccCrd h toks extra) = false
  noWatch : s.me.watched (s.ccCrd h toks extra) = false
  ungated : s.me.cc.waitsStop = false
  room : s.me.peel.length + toks.length + 12 ≤ 1024 ∧ s.me.hold.length + 1 ≤ 128
  signal : h.sig = 0 ∨ (s.me.tok.get {} h.sig.toNat).count.toNat < 0xFFFF

/-! ### When a ring word issues -/

/-- The outcome bits that a word of an engine pops (R177), and the core without the first of them. -/
def Core.boq (c : Core) (eng : Eng) : List OBit := if eng == .acc then c.boqX else c.boqA
def Core.dropBits (c : Core) (eng : Eng) (k : Nat) : Core :=
  if k == 0 then c else if eng == .acc then { c with boqX := c.boqX.drop k } else { c with boqA := c.boqA.drop k }
/-- The coordinate of a ring word (R249): ELAST, CRD, the coordinate with which it was pushed, and the tags of what it takes. -/
def State.engCrd (s : State) (eng : Eng) (h : Hdr) (es : List (Nat × QEnt)) (bits : Nat) (extra : Word) : Word :=
  let x := s.me.eng eng
  maxW (maxW (maxW x.elast x.crd) (x.ring.pushE.get 0 (x.ring.head.toNat % 2 ^ x.ring.size.toNat)))
    ((es.map (·.2.e) ++ ((s.me.boq eng).take bits).map (·.e)).foldl maxW (maxW (s.me.waitTag (s.me.waitVal h)) extra))

/-- A ring word at HEAD of an engine of the moving core may issue, popping the entries `es` and so leaving the core `c'`: it is neither skipped
nor guarded off (R27, R169, R177); its wait set is legal and met; its data has landed (R176), and its bits are there; no stop or watch holds
it; the peel log and the hold have room; its signal does not overflow. -/
structure EngMay (s : State) (eng : Eng) (h : Hdr) (guard : BitVec 4) (pops : List Nat) (bits : Nat) (extra : Word)
    (es : List (Nat × QEnt)) (c' : Core) : Prop where
  here : (s.me.eng eng).skip = 0
  on : (s.me.eng eng).guarded guard = false
  legal : waitOk (s.me.waitVal h) = true
  met : ∀ x ∈ waitPresent (s.me.waitVal h), tokNeed (waitPresent (s.me.waitVal h)) x.1 ≤ (s.me.tok.get {} x.1).count.toNat
  taken : popAll ((s.me.eng eng).loops.head?.bind fun l => if l.sloop then some (4 + l.sq) else none) s.me pops = .ok es c'
  data : es.any (·.2.eos) = false
  avail : bits ≤ (s.me.boq eng).length
  noStop : s.stopAtOrBelow s.cur (s.engCrd eng h es bits extra) = false
  noWatch : s.me.watched (s.engCrd eng h es bits extra) = false
  ungated : (s.me.eng eng).waitsStop = false
  room : s.me.peel.length + 24 ≤ 1024 ∧ s.me.hold.length + 1 ≤ 128
  signal : h.sig = 0 ∨ (s.me.tok.get {} h.sig.toNat).count.toNat < 0xFFFF

/-! ### What an instruction leaves alone -/

/-- A step changed core `n` alone: every other core, every context, every byte of memory and every other part of the device stand. The
counter that numbers operations may have moved. -/
def CoreOnly (s t : State) (n : Nat) : Prop :=
  t = { s with cores := t.cores, nextId := t.nextId } ∧ ∀ m, m ≠ n → t.core m = s.core m

/-- The frame of a control-core word on its core: beside the s registers, only its own issue and retirement show (PC, the fetched word, ELAST
and what is ordered before later words, token counters, the peel log, marks of awaited and freed registers, the time of the last retirement). -/
def CcFrame (c c' : Core) : Prop :=
  c' = { c with s := c'.s, deadS := c'.deadS, sPend := c'.sPend, pc := c'.pc, fetched := c'.fetched, tok := c'.tok, peel := c'.peel,
                idle := c'.idle, hung := c'.hung,
                cc := { c.cc with elast := c'.cc.elast, before := c'.cc.before } }
/-- Token counters: a word consumes what its wait set and `toks` name, and signals one token; the tokens `tx` change by the word's own effect,
and the others stand (R171, R173). -/
structure TokRan (c c' : Core) (h : Hdr) (toks : List (Nat × Nat)) (tx : List Nat) : Prop where
  others : ∀ k, k ∉ tx → k ≠ h.sig.toNat → (∀ x ∈ waitPresent (c.waitVal h) ++ toks, x.1 ≠ k) → c'.tok.get {} k = c.tok.get {} k
  counts : ∀ k, k ∉ tx → (c'.tok.get {} k).count.toNat + tokNeed (waitPresent (c.waitVal h) ++ toks) k =
    (c.tok.get {} k).count.toNat + (if h.sig ≠ 0 ∧ k = h.sig.toNat then 1 else 0)
/-- Every s register but `d` stands. -/
def RegFrame (c c' : Core) (d : BitVec 6) : Prop := ∀ r, r ≠ d.toNat → c'.s.get 0 r = c.s.get 0 r

/-- A write of an s register: `v` into `d`; s0 discards it (R318). Every other register stands. -/
def Wrote (c c' : Core) (d : BitVec 6) (v : Word) : Prop :=
  RegFrame c c' d ∧ (d ≠ 0 → c'.s.get 0 d.toNat = v) ∧ (d = 0 → c'.s = c.s)
/-- A control-core word has issued and retired: `base` is its core with what the word itself changes beside s registers and tokens, `s0` the
state with what it changes outside the core, `tx` the tokens that it changes beside those it waits for, consumes (`toks`) and signals, and `p`
where the PC then stands. -/
structure CcRan (s t : State) (h : Hdr) (toks : List (Nat × Nat)) (base : Core) (tx : List Nat) (p : Word) (s0 : State) : Prop where
  only : CoreOnly s0 t s.cur
  frame : CcFrame base (t.core s.cur)
  tokens : TokRan s.me (t.core s.cur) h toks tx
  pc : (t.core s.cur).pc = p
/-- A word that changes no more than s registers, and goes on with the next word. -/
def CcPlain (s t : State) (h : Hdr) : Prop := CcRan s t h [] s.me [] (s.me.pc + 8) s

/-- An instruction answers a next state in which `d` holds `v`, and nothing else has changed but the word's own issue and retirement. -/
def Computes (i : Instr) (h : Hdr) (d : BitVec 6) (v : Word) (s : State) : Prop :=
  ∃ t, exec i s = .next t ∧ CcPlain s t h ∧ Wrote s.me (t.core s.cur) d v

/-- A control-core word answers a next state with no s register changed. -/
def CcDoes (i : Instr) (h : Hdr) (toks : List (Nat × Nat)) (base : Core) (tx : List Nat) (p : Word) (s0 s : State) : Prop :=
  ∃ t, exec i s = .next t ∧ CcRan s t h toks base tx p s0 ∧ (t.core s.cur).s = s.me.s

/-- The operations ordered before an access of a control-core word (R226): those before the core's earlier words, and those that the tokens of its wait
set carry. -/
def State.ccBefore (s : State) (h : Hdr) : List Nat := mergeIds s.me.cc.before (s.me.waitIds (s.me.waitVal h))
/-- What stands in the egress hold for a control-core word (R258, R319): its coordinate, its effect, the signal that its completion applies,
and the acquire that it is. It waits for earlier acquires and for what an earlier FAR names (R228, R230), as a release for the accesses ordered before it
(R227), and for those ordered before each earlier FREL. -/
structure HeldAs (s : State) (h : Hdr) (x : Held) (e : Word) (sig : BitVec 8) (a : Act) (rel acq : Option (BitVec 3)) : Prop where
  eng : x.eng = .cc
  crd : x.e = e
  act : x.act = a
  sig : x.sig = sig
  core : x.core = s.cur
  owner : x.cid = s.me.cid ∧ x.inc = s.me.inc
  pc : x.pc = s.me.pc
  acq : x.acq = acq
  released : x.rel = (rel.map fun sc => (sc, s.ccBefore h)).toList ++ s.me.frels.map fun f => (f.scope, f.ids)
  after : x.after = s.me.barAll
/-- Whether an effect is a SPAWN, which a supervisor core keeps in its pending-spawn slot (R120). -/
def Act.isSpawn : Act → Bool
  | .spawn .. => true
  | _ => false
/-- The device beside the core once `x` is held: a supervisor core's effects are released at once (R323), its SPAWN to the pending-spawn slot. -/
def State.withHeld (s : State) (x : Held) : State := if isSup s.cur && !x.act.isSpawn then { s with flying := s.flying ++ [x] } else s
/-- The core once `x` is held; later accesses wait for an acquire (R240). -/
def State.heldBase (s : State) (x : Held) : Core :=
  { s.me with hold := if isSup s.cur then s.me.hold else s.me.hold ++ [x],
              spawnSlot := if isSup s.cur && x.act.isSpawn then some x else s.me.spawnSlot,
              bars := if x.acq.isSome then s.me.bars ++ [{ e := x.e, id := x.id, ids := [x.id] }] else s.me.bars }
/-- A control-core word holds an effect and retires, `hr` being the header by which it signals now; `d` awaits the value that comes back (R321).
No register, no byte of memory and nothing else of the device changes. -/
def Holds (i : Instr) (h hr : Hdr) (sig : BitVec 8) (a : Act) (rel acq : Option (BitVec 3)) (d : BitVec 6) (s : State) : Prop :=
  ∃ t x, exec i s = .next t ∧ HeldAs s h x (s.ccCrd h [] 0) sig a rel acq ∧ CcRan s t hr [] (s.heldBase x) [] (s.me.pc + 8) (s.withHeld x) ∧
    (t.core s.cur).s = s.me.s ∧ (d ≠ 0 → (t.core s.cur).sPend.get 0 d.toNat = x.id)

/-- A control-core word that fails a test of its own raises its fault with restart "before": the fault finds the state as it stood (R148). -/
def Raises (i : Instr) (h : Hdr) (code : BitVec 8) (val : Word) (s : State) : Prop :=
  exec i s = .next (s.raise s.cur .cc code val (s.ccCrd h [] 0) true 0)

/-- A control-core word raises ILLEGAL with itself as the value, before (Table 7.1). -/
def RaisesIllegal (i : Instr) (h : Hdr) (s : State) : Prop := Raises i h 0x01 i.word s

/-- A control-core word that has issued stands at its place until `x` is over; its signal is still to come. -/
def CcWaits (i : Instr) (h : Hdr) (base : Core) (x : CCWait) (s0 s : State) : Prop :=
  CcDoes i { h with sig := 0 } [] { base with ccWait := some x } [] s.me.pc s0 s
/-- A waiting control-core word has room to go on and to signal (R171, R255, R258). -/
structure CcMayEnd (s : State) (h : Hdr) : Prop where
  room : s.me.peel.length + 12 ≤ 1024 ∧ s.me.hold.length + 1 ≤ 128
  signal : h.sig = 0 ∨ (s.me.tok.get {} h.sig.toNat).count.toNat < 0xFFFF
/-- A waiting control-core word retires: it signals, and the core goes on after it, or where a trap that it outlived had left (R150). It has
consumed its tokens already. -/
def CcEnds (i : Instr) (h : Hdr) (base : Core) (s0 s : State) : Prop :=
  CcDoes i { h with wait := 0 } [] { base with ccWait := none, resumeAt := none } [] (s.me.resumeAt.getD (s.me.pc + 8)) s0 s
/-- A supervisor form retires with `v` in D: `s0` is the device as the form leaves it (R354). -/
def Answers (i : Instr) (h : Hdr) (d : BitVec 6) (v : Word) (s0 s : State) : Prop :=
  ∃ t, exec i s = .next t ∧ CcRan s t h [] s0.me [] (s.me.pc + 8) s0 ∧ Wrote s0.me (t.core s.cur) d v
/-- A supervisor form whose operand A names `n` bytes: it goes on as `k` says once they are aligned, within the supervisor's windows and, where it
reads them, free of poison; else it raises RAW_WINDOW or ECC_UE with A, before. -/
def WithDescr (i : Instr) (h : Hdr) (a : Word) (n align : Nat) (p : Perm) (k : List Nat → Prop) (s : State) : Prop :=
  (a.toNat % align ≠ 0 → Raises i h 0x07 a s) ∧
  (∀ f, a.toNat % align = 0 → s.coreKeys s.cur a n p = .inr f → Raises i h 0x07 a s) ∧
  (∀ ks, a.toNat % align = 0 → s.coreKeys s.cur a n p = .inl ks →
    (p = .r → s.anyPoison ks = true → Raises i h 0x13 a s) ∧ ((p = .r → s.anyPoison ks = false) → k ks))
/-- A word in a ring slot of a core: `w` stands at TAIL with its coordinate, TAIL has gone on, and nothing else has changed (R169, R322). -/
structure Pushed (c c' : Core) (eng : Eng) (e w : Word) : Prop where
  word : c'.ringWord eng (c.eng eng).ring.tail = w
  spad : ∀ a, a < (c.eng eng).ring.addr (c.eng eng).ring.tail ∨ (c.eng eng).ring.addr (c.eng eng).ring.tail + 8 ≤ a → c'.spad.get 0 a = c.spad.get 0 a
  crd : (c'.eng eng).ring.pushE.get 0 ((c.eng eng).ring.tail.toNat % 2 ^ (c.eng eng).ring.size.toNat) = e
  frame : c' = { c with spad := c'.spad }.setEng eng
    { c.eng eng with ring := { (c.eng eng).ring with tail := (c.eng eng).ring.tail + 1, pushE := (c'.eng eng).ring.pushE } }

/-! ### What a ring word leaves -/

/-- A ring word has issued: HEAD has gone on, in the loops that run, from the engine as `post` leaves it; ELAST is its coordinate. Beside the
engine, the core is `base` but for token counters, the peel log and the time of the last retirement; `s0` is the device beside the core.
The header `hr` is that by which it has signalled. -/
structure EngRan (s t : State) (eng : Eng) (hr : Hdr) (e : Word) (base : Core) (tx : List Nat) (post : EngSt → EngSt) (s0 : State) : Prop where
  only : CoreOnly s0 t s.cur
  core : t.core s.cur = { base.setEng eng ((t.core s.cur).eng eng) with
    tok := (t.core s.cur).tok, peel := (t.core s.cur).peel, idle := (t.core s.cur).idle, hung := (t.core s.cur).hung }
  eng : ∃ y : EngSt, y = { s.me.eng eng with elast := e, iss := y.iss, before := y.before } ∧
    (t.core s.cur).eng eng = { EngSt.next s.me.cw (post y) with
      iss := ((t.core s.cur).eng eng).iss, ring := { (EngSt.next s.me.cw (post y)).ring with ret := ((t.core s.cur).eng eng).ring.ret } }
  tokens : TokRan s.me (t.core s.cur) hr [] tx

/-- A ring word answers a next state: from any entries `es` that it pops, `Q` says of its coordinate and those what it leaves of the core, `post` what it
does to its engine, and nothing else changes. -/
def EngDoes (i : Instr) (eng : Eng) (h hr : Hdr) (guard : BitVec 4) (pops : List Nat) (bits : Nat) (extra : Word) (tx : List Nat)
    (Q : Word → List (Nat × QEnt) → Core → Core → Prop) (post : List OBit → EngSt → EngSt) (s : State) : Prop :=
  ∀ es c', EngMay s eng h guard pops bits extra es c' →
    let e := s.engCrd eng h es bits extra
    ∃ t base, exec i s = .next t ∧ Q e es (c'.dropBits eng bits) base ∧ EngRan s t eng hr e base tx (post ((s.me.boq eng).take bits)) s
/-- A ring word that fails a test of its own raises its fault with restart "before", and nothing is popped or consumed (R148). -/
def EngRaises (i : Instr) (eng : Eng) (h : Hdr) (guard : BitVec 4) (pops : List Nat) (bits : Nat) (extra : Word) (code : BitVec 8) (val : Word)
    (s : State) : Prop :=
  ∀ es c', EngMay s eng h guard pops bits extra es c' →
    exec i s = .next (s.raise s.cur eng code val (s.engCrd eng h es bits extra) true (s.me.eng eng).ring.head)

/-! ### Access-sequencer words -/

/-- The g registers that an ACC word reads: none with a load that has not landed at its bound (R182), none freed under REGCHK (R183). -/
def GReady (s : State) (rs : List (BitVec 6)) : Prop :=
  ∀ r ∈ rs, r.toNat < 32 → (s.me.dbgReg.getLsbD 1 = true → s.me.deadG.get none (s.me.gIdx r) = none) ∧
    (s.me.gAvail.get 0 (s.me.gIdx r) ≤ s.cycle → s.me.gWait.get false (s.me.gIdx r) = false)
/-- Last-use marks after a word that frees `srcs` at `e`. -/
def FreedG (s : State) (e : Word) (srcs : List (BitVec 6 × Bool)) (m m' : SMap (Option Word)) : Prop :=
  ∀ k, m'.get none k = if ∃ y ∈ srcs, y.2 = true ∧ y.1.toNat < 32 ∧ s.me.gIdx y.1 = k then some e else m.get none k
/-- The destination of a g form (R373): a g register readable from the end of its bound, a data queue, or boq.a. -/
structure GDest (s : State) (c0 c : Core) (d : BitVec 6) (e v : Word) (lat : BitVec 4) (srcs : List (BitVec 6 × Bool)) : Prop where
  reg : d.toNat < 32 → c.g.get 0 (s.me.gIdx d) = v ∧ c.gAvail.get 0 (s.me.gIdx d) = s.cycle + latBound lat ∧ c.deadG.get none (s.me.gIdx d) = none
  regs : ∀ k, ¬(d.toNat < 32 ∧ k = s.me.gIdx d) → c.g.get 0 k = c0.g.get 0 k ∧ c.gAvail.get 0 k = c0.gAvail.get 0 k
  freed : ∀ k, ¬(d.toNat < 32 ∧ k = s.me.gIdx d) →
    c.deadG.get none k = if ∃ y ∈ srcs, y.2 = true ∧ y.1.toNat < 32 ∧ s.me.gIdx y.1 = k then some e else c0.deadG.get none k
  queue : 32 ≤ d.toNat → d.toNat < 36 → ∃ x : QEnt, c.queue (d.toNat - 32) = c0.queue (d.toNat - 32) ++ [x] ∧ x.e = e ∧ x.eos = false ∧ x.landed = true ∧
    ∀ i, i < 32 → x.data.extractLsb' (64 * i) 64 = v
  queues : ∀ q, q < 6 → q + 32 ≠ d.toNat → c.queue q = c0.queue q
  bit : c.boqA = if d = 38 then c0.boqA ++ [{ bit := v.getLsbD 0, e := e }] else c0.boqA
  frame : c = { c0 with g := c.g, deadG := c.deadG, gAvail := c.gAvail, gWait := c.gWait, dq := c.dq, boqA := c.boqA }
/-- A g form: `f` gives its value from those of its sources, registers, popped entries and bits alike. -/
def AccComputes (i : Instr) (h : Hdr) (guard : BitVec 4) (d : BitVec 6) (srcs : List (BitVec 6 × Bool)) (lat : BitVec 4) (f : List Word → Word)
    (s : State) : Prop :=
  d.toNat < 36 ∨ d = 38 → GReady s (srcs.map (·.1)) → s.accRoom d = true →
  EngDoes i .acc h h guard (accPops (srcs.map (·.1))) (accBits (srcs.map (·.1))) 0 []
    (fun e es c0 c => GDest s c0 c d e (f (accVals s (srcs.map (·.1)) (es.map (·.2)) (s.me.boqX.take (accBits (srcs.map (·.1)))))) lat srcs) (fun _ x => x) s

/-! ### Execute-sequencer words -/

/-- The registers that an EXE form reads, in the numbering of EXE (v from 0, p from 64, q from 128). -/
def ExeOps.keys (o : ExeOps) (c : Core) : List Nat :=
  (o.vs.filter fun x => x.1.toNat < 56).map (fun x => c.vIdx x.1) ++ (o.ps.filter fun r => r != 0).map (fun r => pKey r.toNat) ++
    o.qs.map fun x => qKey x.1.toNat
/-- The operands of an EXE form are ready: a register with a result under way is read within the bound of that result (R181) or has it (R182);
under REGCHK none is freed (R183); a destination queue has room (R176). -/
structure ExeReady (s : State) (o : ExeOps) : Prop where
  landed : ∀ k ∈ o.keys s.me, s.me.exePending k = true → s.exeEarly k = true
  aliveV : s.me.dbgReg.getLsbD 1 = true → ∀ x ∈ o.vs, x.1.toNat < 56 → s.me.deadV.get none (s.me.vIdx x.1) = none
  aliveQ : s.me.dbgReg.getLsbD 1 = true → ∀ x ∈ o.qs, s.me.deadQ.get none x.1.toNat = none
  room : s.me.exeRoom o.d = true

/-- What an EXE word leaves of its core at issue (R181, R183, R251, R366): `x` waits in the commit queue, readers of what it writes wait for its
bound, and what it reads with its last-use bit is freed. -/
structure ExeCore (s : State) (c0 c : Core) (h : Hdr) (e : Word) (lat : BitVec 4) (o : ExeOps) (x : ExeOp) : Prop where
  crd : x.e = e
  sig : x.sig = h.sig
  slot : x.slot = s.me.exe.ring.head
  avail : x.avail = s.cycle + latBound lat
  fault : x.fault = o.fault
  queue : c.exeQ = s.me.exeQ ++ [x]
  bound : ∀ k, c.exeAvail.get 0 k = if some k ∈ x.effs.map ExeEff.key then s.cycle + latBound lat else s.me.exeAvail.get 0 k
  freedV : ∀ k, c.deadV.get none k = if ∃ y ∈ o.vs, y.2 = true ∧ y.1.toNat < 56 ∧ s.me.vIdx y.1 = k then some e else s.me.deadV.get none k
  freedQ : ∀ k, c.deadQ.get none k = if ∃ y ∈ o.qs, y.2 = true ∧ y.1.toNat = k then some e else s.me.deadQ.get none k
  pend : s.me.dbgReg.getLsbD 0 = false ∨ (∀ rs, .defer rs ∉ x.effs) → c.pendBits = c0.pendBits
  frame : c = { c0 with exeQ := c.exeQ, exeAvail := c.exeAvail, deadV := c.deadV, deadQ := c.deadQ, pendBits := c.pendBits }

/-- An EXE word issues: from any entries and bits that it pops, its effects, which `P` describes from its coordinate and the values of its v
sources, enter the commit queue; no v, p or q register, no flag and no byte of memory changes until EXE_COMMIT; `post` is what it does to the
engine, from the bits that it pops. -/
def ExeIssues (i : Instr) (h : Hdr) (guard lat : BitVec 4) (o : ExeOps) (bits : Nat) (extra : Word) (post : List OBit → EngSt → EngSt)
    (P : Word → List Vec → List ExeEff → Prop) (s : State) : Prop :=
  ∀ es c', EngMay s .exe h guard (exePops (o.vs.map (·.1))) bits extra es c' → ExeReady s o →
    let e := s.engCrd .exe h es bits extra
    ∃ t x base, exec i s = .next t ∧ P e (exeVals s (o.vs.map (·.1)) (es.map (·.2))) x.effs ∧
      ExeCore s (c'.dropBits .exe bits) base h e lat o x ∧
      EngRan s t .exe { h with sig := 0 } e base [] (post (s.me.boqA.take bits)) s
/-- An EXE word that only computes. -/
def ExeComputes (i : Instr) (h : Hdr) (guard lat : BitVec 4) (o : ExeOps) (P : Word → List Vec → List ExeEff → Prop) (s : State) : Prop :=
  ExeIssues i h guard lat o 0 0 (fun _ x => x) P s

/-- A v result of lanes of `w` bytes, with the flags of all lanes (R363): lane `i` is `(g i).1`. -/
def LaneRes (c : Core) (d : BitVec 6) (e : Word) (w : Nat) (g : Nat → Nat × Flags) (fs : List ExeEff) : Prop :=
  ∃ (x : Vec) (f : Flags), fs = c.outV d e x ++ [.flags f] ∧ (∀ i, i < 256 / w → vLane x w i = (g i).1 % 2 ^ (8 * w)) ∧
    ∀ b, f.getLsbD b = true ↔ ∃ i, i < 256 / w ∧ (g i).2.getLsbD b = true
/-- A v result of lanes of `w` bytes that raises no flag. -/
def LaneOut (c : Core) (d : BitVec 6) (e : Word) (w : Nat) (g : Nat → Nat) (fs : List ExeEff) : Prop :=
  ∃ x : Vec, fs = c.outV d e x ∧ ∀ i, i < 256 / w → vLane x w i = g i % 2 ^ (8 * w)
/-- A predicate result from lanes of `w` bytes (R364): every bit of lane `i` is `g i`. -/
def PredRes (d : BitVec 6) (w : Nat) (g : Nat → Bool) (fs : List ExeEff) : Prop :=
  ∃ x : Pred, fs = [.p d.toNat x] ∧ ∀ j, j < 256 → x.getLsbD j = g (j / w)

/-! ### Words of a ring engine whose effect is held -/

/-- What an access of a ring word waits for (R226, R228, R230): the acquires and fences among the operations that its engine's earlier words and the tokens
of its wait set carry to it. -/
def State.engAfter (s : State) (eng : Eng) (h : Hdr) : List Nat :=
  s.me.barOf (mergeIds (s.me.eng eng).before (s.me.waitIds (s.me.waitVal h)))
/-- A ring word holds an effect (R258), which waits for the acquires and fences before it, and retires, `hr` being the header by which it signals now; beside the hold its core is as `P` says. -/
def EngHolds (i : Instr) (eng : Eng) (h hr : Hdr) (sig : BitVec 8) (a : Act) (P : Core → Core → Prop) (s : State) : Prop :=
  ∀ es c', EngMay s eng h 0 [] 0 0 es c' → ∃ t y base, exec i s = .next t ∧
    (y.eng = eng ∧ y.act = a ∧ y.sig = sig ∧ y.e = s.engCrd eng h es 0 0 ∧ y.core = s.cur ∧ y.cid = s.me.cid ∧ y.inc = s.me.inc ∧ y.w = i.word ∧ y.after = s.engAfter eng h) ∧
    P s.me { base with hold := s.me.hold } ∧ base.hold = (if isSup s.cur then s.me.hold else s.me.hold ++ [y]) ∧
    EngRan s t eng hr (s.engCrd eng h es 0 0) base [] (fun x => x) (s.withHeld y)

/-! ### Matrix words -/

/-- The coordinate of a matrix word at ring position `pos` (R249). -/
def State.mtxCrd (s : State) (h : Hdr) (pos : BitVec 16) (es : List (Nat × QEnt)) : Word :=
  let x := s.me.mtx
  maxW (maxW (maxW x.elast x.crd) (x.ring.pushE.get 0 (pos.toNat % 2 ^ x.ring.size.toNat))) ((es.map (·.2.e)).foldl maxW (s.me.waitTag (s.me.waitVal h)))
/-- A matrix word may issue: `pos` is the oldest ready position that holds it (R421: its predecessors have retired, its unit is free and its wait set
met), it pops `es` and so leaves the core `c'`, no stop or watch holds it, and the peel log has room. -/
structure MtxMay (s : State) (h : Hdr) (w : Word) (pos : BitVec 16) (pop : Option Nat) (es : List (Nat × QEnt)) (c' : Core) : Prop where
  ready : (s.me.mtxReadies.find? fun p => s.me.ringWord .mtx p == w) = some pos
  legal : waitOk (s.me.waitVal h) = true
  taken : popAll none s.me pop.toList = .ok es c'
  noStop : s.stopAtOrBelow s.cur (s.mtxCrd h pos es) = false
  noWatch : s.me.watched (s.mtxCrd h pos es) = false
  ungated : s.me.mtx.waitsStop = false
  room : s.me.peel.length + 24 ≤ 1024 ∧ s.me.hold.length ≤ 128
/-- A matrix word has issued: it waits among the issued words with the slot and the seed that it takes; its tokens are consumed; `fix` is what its
issue does to the matrix engine. -/
structure MtxRan (s t : State) (h : Hdr) (w : Word) (pos : BitVec 16) (e last : Word) (es : List (Nat × QEnt)) (c' : Core) (nest : List Word) (seed : Word)
    (fix : Mtx → Mtx) : Prop where
  only : CoreOnly s t s.cur
  core : t.core s.cur = { c' with mtx := (t.core s.cur).mtx, mx := (t.core s.cur).mx, tok := (t.core s.cur).tok, peel := (t.core s.cur).peel }
  eng : ∃ y : EngSt, (t.core s.cur).mtx = { s.me.mtx with elast := maxW e last, iss := y.iss, before := y.before,
                                                          ring := { s.me.mtx.ring with head := y.ring.head } }
  mx : (t.core s.cur).mx = { fix s.me.mx with
    ops := s.me.mx.ops ++ [{ slot := pos, id := s.nextId, w := w, e := e, pe := e, nest := nest, seed := seed, ents := es.map (·.2),
                             after := s.engAfter .mtx h }] }
  tokens : TokRan s.me (t.core s.cur) { h with sig := 0 } [] []
/-- A matrix word issues where its operands are as `need` says at its coordinate; `last` gives the coordinate of its last write. -/
def MtxIssues (i : Instr) (h : Hdr) (pop : Option Nat) (need : Word → Prop) (nest : List Word) (seed : Word) (last : Word → Word) (fix : Mtx → Mtx)
    (s : State) : Prop :=
  ∀ pos es c', MtxMay s h i.word pos pop es c' → need (s.mtxCrd h pos es) →
    ∃ t, exec i s = .next t ∧ MtxRan s t h i.word pos (s.mtxCrd h pos es) (last (s.mtxCrd h pos es)) es c' nest seed fix
/-- A matrix word raises a fault at issue, before, where its operands are as `need` says. -/
def MtxRaises (i : Instr) (h : Hdr) (pop : Option Nat) (need : Word → Prop) (code : BitVec 8) (val : Word) (s : State) : Prop :=
  ∀ pos es c', MtxMay s h i.word pos pop es c' → need (s.mtxCrd h pos es) →
    exec i s = .next (s.raise s.cur .mtx code val (s.mtxCrd h pos es) true pos)

/-! ### Effects at home -/

/-- Bytes of memory are written: each of `cells` stands, every other byte as before; a line written whole is clean again (R149). Nothing else changes. -/
structure Stored (s t : State) (cells : List (Nat × Byte)) : Prop where
  others : ∀ a, (∀ x ∈ cells, x.1 ≠ a) → t.byte a = s.byte a
  bytes : (cells.map (·.1)).Nodup → ∀ x ∈ cells, t.byte x.1 = x.2
  clean : ∀ l, t.poison.get false l = if (List.range 64).all (fun i => (cells.map (·.1)).contains (64 * l + i)) then false else s.poison.get false l
  frame : t = { s with mem := t.mem, poison := t.poison }
/-- The tile tasks of a team stand on the cores `cs`, in ascending order: one that was saved as its image, any other to start anew (R105, R121, R147). -/
def Seated (t : State) (k : Nat) (l : Launch) (m : Team) (cs : List Nat) : Prop :=
  ((t.launch k).team m.idx).st = .placed ∧ ((t.launch k).team m.idx).cores = m.seats 0 l.desc.tasks cs ∧
  ∀ i n, i < l.desc.tasks → (m.seats 0 l.desc.tasks cs).getD i noCore = n → n ≠ noCore →
    ((m.saved.find? fun x => x.1 == i) = none → (t.core n).task = some (l.task k m i)) ∧
    ∀ j c, (m.saved.find? fun x => x.1 == i) = some (i, j, c) →
      (t.core n).s = c.s ∧ (t.core n).v = c.v ∧ (t.core n).pc = c.pc ∧ (t.core n).spad = c.spad ∧
      ∃ x, (t.core n).task = some x ∧ x.cid = l.cid ∧ x.launch = k ∧ x.started = false

/-- An entry in flight may be performed (R42, R131, R226, R227): its incarnation is live, what it reaches has a clock, everything ordered before it has
been performed, and no earlier entry of its engine conflicts with it. -/
structure HomeMay (s : State) (h : Held) : Prop where
  found : s.flying.find? (fun x => x.id == h.id) = some h
  live : isSup h.core = true ∨ s.live h.cid h.inc = true
  on : s.homeOn h = true
  ready : s.heldReady h = true
  free : s.blocked h [] = false

end Sys2Proof.Machine
end

