-- ==== Sys2Proof/Certificates/Slice0/Obligations.lean ====
section
/-! DEFINITION. The statements for the provers, in the order of the chapters that they formalise. -/

open Sys2Proof Sys2Proof.Machine

/-! ### The integer forms and the words that every engine decodes (R324 to R326) -/

/-- R325, Table 14.5: every integer form computes D; of the operands, `a`, `b`, `c` are what the fields read, `p` is B[5:0], `w` is
MIN(C[6:0], 64 − p), `i` is IMM24, and `uns` is .n. (DIV and REM, which also set a flag, stand in `DivRem`.) -/
def Obligations.IntegerForms : Prop :=
  (∀ (h : Hdr) (o : RR) (s : State), CcMay s h [(o.a, o.la), (o.b, o.lb)] [] 0 →
    let a := s.rdS o.a
    let b := s.rdS o.b
    let p := b.toNat % 64
    let uns := o.lat.getLsbD 2
    let less (x y : Word) : Bool := if uns then decide (x.toNat < y.toNat) else decide (x.toInt < y.toInt)
    Computes (.add h o) h o.d (a + b) s ∧ Computes (.sub h o) h o.d (a - b) s ∧ Computes (.and h o) h o.d (a &&& b) s ∧
    Computes (.or h o) h o.d (a ||| b) s ∧ Computes (.xor h o) h o.d (a ^^^ b) s ∧ Computes (.andn h o) h o.d (a &&& ~~~b) s ∧
    Computes (.shl h o) h o.d (BitVec.ofNat 64 (a.toNat * 2 ^ p)) s ∧ Computes (.shr h o) h o.d (BitVec.ofNat 64 (a.toNat / 2 ^ p)) s ∧
    Computes (.sar h o) h o.d (BitVec.ofInt 64 (a.toInt / 2 ^ p)) s ∧
    Computes (.min h o) h o.d (if less b a then b else a) s ∧ Computes (.max h o) h o.d (if less a b then b else a) s ∧
    Computes (.slt h o) h o.d (if less a b then 1 else 0) s ∧ Computes (.seq h o) h o.d (if a = b then 1 else 0) s ∧
    Computes (.mul h o) h o.d (BitVec.ofNat 64 (a.toNat * b.toNat)) s ∧
    Computes (.mulh h o) h o.d
      (if uns then BitVec.ofNat 64 (a.toNat * b.toNat / 2 ^ 64) else BitVec.ofInt 64 (a.toInt * b.toInt / 2 ^ 64)) s) ∧
  (∀ (h : Hdr) (o : RI) (s : State), CcMay s h [(o.a, o.la)] [] 0 →
    let a := s.rdS o.a
    let i := o.imm.signExtend 64
    let p := o.imm.toNat % 64
    Computes (.addi h o) h o.d (a + i) s ∧ Computes (.andi h o) h o.d (a &&& i) s ∧ Computes (.ori h o) h o.d (a ||| i) s ∧
    Computes (.xori h o) h o.d (a ^^^ i) s ∧ Computes (.shli h o) h o.d (BitVec.ofNat 64 (a.toNat * 2 ^ p)) s ∧
    Computes (.shri h o) h o.d (BitVec.ofNat 64 (a.toNat / 2 ^ p)) s ∧ Computes (.sari h o) h o.d (BitVec.ofInt 64 (a.toInt / 2 ^ p)) s ∧
    Computes (.slti h o) h o.d (if a.toInt < o.imm.toInt then 1 else 0) s ∧
    Computes (.movhi h o) h o.d (BitVec.ofNat 64 (a.toNat * 2 ^ 24 + o.imm.toNat)) s) ∧
  (∀ (h : Hdr) (o : RI) (s : State), CcMay s h [] [] 0 →
    Computes (.movi h o) h o.d (o.imm.signExtend 64) s ∧ Computes (.movpc h o) h o.d (s.me.pc + 8 * o.imm.signExtend 64) s) ∧
  (∀ (h : Hdr) (o : RR) (s : State), CcMay s h [(o.a, o.la)] [] 0 →
    let a := s.rdS o.a
    (∃ n, Computes (.clz h o) h o.d (BitVec.ofNat 64 n) s ∧ n ≤ 64 ∧ (∀ k, 64 - n ≤ k → a.getLsbD k = false) ∧ (n < 64 → a.getLsbD (63 - n) = true)) ∧
    (∃ n, Computes (.ctz h o) h o.d (BitVec.ofNat 64 n) s ∧ n ≤ 64 ∧ (∀ k, k < n → a.getLsbD k = false) ∧ (n < 64 → a.getLsbD n = true)) ∧
    Computes (.popc h o) h o.d (BitVec.ofNat 64 ((List.range 64).filter fun k => a.getLsbD k).length) s ∧
    (∃ v : Word, Computes (.brev h o) h o.d v s ∧ ∀ k, k < 64 → v.getLsbD k = a.getLsbD (63 - k)) ∧
    Computes (.cset h o) h o.d (if a = 0 then 0 else 1) s) ∧
  (∀ (h : Hdr) (o : RR) (s : State), CcMay s h [(o.a, o.la), (o.b, o.lb), (o.c, o.lc)] [] 0 →
    let a := s.rdS o.a
    let b := s.rdS o.b
    let c := s.rdS o.c
    let p := b.toNat % 64
    let w := min (c.toNat % 128) (64 - p)
    Computes (.bext h o) h o.d (BitVec.ofNat 64 (a.toNat / 2 ^ p % 2 ^ w)) s ∧ Computes (.sel h o) h o.d (if c = 0 then b else a) s) ∧
  (∀ (h : Hdr) (o : RR) (s : State), CcMay s h [(o.a, o.la), (o.b, o.lb), (o.c, o.lc), (o.d, false)] [] 0 →
    let p := (s.rdS o.b).toNat % 64
    let w := min ((s.rdS o.c).toNat % 128) (64 - p)
    ∃ v : Word, Computes (.bins h o) h o.d v s ∧
      ∀ k, k < 64 → v.getLsbD k = if p ≤ k ∧ k < p + w then (s.rdS o.a).getLsbD (k - p) else (s.rdS o.d).getLsbD k)

/-- R325, R326, Table 14.5: DIV gives the quotient rounded toward zero and REM the remainder, signed or with .n unsigned; by zero DIV gives all
ones and REM gives A, and DIVZERO (flag bit 1, Table 7.7) is set; −2^63 by −1 gives −2^63 and 0. No other flag changes, and no other integer form sets a flag. -/
def Obligations.DivRem : Prop :=
  (∀ (h : Hdr) (o : RR) (s : State), CcMay s h [(o.a, o.la), (o.b, o.lb)] [] 0 →
     let a := s.rdS o.a
     let b := s.rdS o.b
     let uns := o.lat.getLsbD 2
     let base := { s.me with flags := s.me.flags ||| (if b = 0 then 0x02 else 0) }
     let q : Word := if b = 0 then BitVec.allOnes 64 else if uns then BitVec.ofNat 64 (a.toNat / b.toNat) else BitVec.ofInt 64 (a.toInt.tdiv b.toInt)
     let r : Word := if b = 0 then a else if uns then BitVec.ofNat 64 (a.toNat % b.toNat) else BitVec.ofInt 64 (a.toInt.tmod b.toInt)
     (∃ t, exec (.div h o) s = .next t ∧ CcRan s t h [] base [] (s.me.pc + 8) s ∧ Wrote s.me (t.core s.cur) o.d q) ∧
     (∃ t, exec (.rem h o) s = .next t ∧ CcRan s t h [] base [] (s.me.pc + 8) s ∧ Wrote s.me (t.core s.cur) o.d r)) ∧
  ∀ (h : Hdr) (o : RR) (r : RI) (s : State), CcMay s h [(o.a, o.la), (o.b, o.lb), (o.c, o.lc), (o.d, false), (r.a, r.la)] [] 0 →
    ∀ i ∈ [Instr.add h o, .sub h o, .and h o, .or h o, .xor h o, .andn h o, .shl h o, .shr h o, .sar h o, .min h o, .max h o, .slt h o, .seq h o,
        .mul h o, .mulh h o, .clz h o, .ctz h o, .popc h o, .brev h o, .bext h o, .bins h o, .sel h o, .cset h o,
        .addi h r, .andi h r, .ori h r, .xori h r, .shli h r, .shri h r, .sari h r, .slti h r, .movi h r, .movhi h r, .movpc h r],
      ∃ t, exec i s = .next t ∧ (t.core s.cur).flags = s.me.flags

/-! ### Raw loads and stores, atomics, remote loads and fences (R224, R227, R228, R230, R327 to R331) -/

/-- R200, R224, R227, R228, R327: a raw load of 1, 2, 4 or 8 bytes writes the zero-extended bytes at A + SEXT(OFFSET) to D, each byte from the
core's youngest store to it that has not been performed, if any; it meets the L2 with its line, and .acq at SYS drops the lines of other devices of its
first-level partition (DESIGN CHOICE, log entry 141: their tag names no context). Nothing else changes.
R227, R258, R319, R327: a raw store of D[8n − 1:0] enters the egress hold, with .rel as a release of its scope; no byte of memory and no
register changes at issue.
R327: an unaligned raw access, or one that R194 refuses, raises its fault with the address, before; on a tile task that is RAW_WINDOW. -/
def Obligations.RawAccesses : Prop :=
  (∀ (h : Hdr) (fx : BitVec 1) (o : RI) (s : State), CcMay s h [(o.a, o.la)] [] 0 → s.farClear = true →
     let addr := s.rdS o.a + (o.imm.extractLsb' 0 21).signExtend 64
     let drops := fx = 1 ∧ o.imm.extractLsb' 21 3 = 4
     let loads (i : Instr) (n : Nat) : Prop := ∀ ks, addr.toNat % n = 0 → s.coreKeys s.cur addr n .r = .inl ks → s.anyPoison ks = false →
       let s0 := if drops then (s.l2Raw s.cur addr ks).dropRemote s.me.cid else s.l2Raw s.cur addr ks
       s0 = { s with l2 := s0.l2, oreqs := s0.oreqs } ∧ (drops → ∀ l ∈ s0.l2, l.dev.isSome = true → l.pid ≠ pidTag (s.ctx s.me.cid).pid) ∧
       ∃ (t : State) (v : Word), exec i s = .next t ∧ CcRan s t h [] s.me [] (s.me.pc + 8) s0 ∧ Wrote s.me (t.core s.cur) o.d v ∧
         ∀ j, j < 8 → v.extractLsb' (8 * j) 8 =
           if j < n then forwardByte (s.pendingOf s.cur) (addr + BitVec.ofNat 64 j) (s.byte (ks.getD j 0)) else 0
     loads (.ldb h fx o) 1 ∧ loads (.ldh h fx o) 2 ∧ loads (.ldw h fx o) 4 ∧ loads (.ldd h fx o) 8) ∧
  (∀ (h : Hdr) (fx : BitVec 1) (o : RI) (s : State), CcMay s h [(o.a, o.la), (o.d, false)] [] 0 →
     let addr := s.rdS o.a + (o.imm.extractLsb' 0 21).signExtend 64
     let rel := if fx = 1 then some (o.imm.extractLsb' 21 3) else none
     let stores (i : Instr) (n : Nat) : Prop := ∀ ks, addr.toNat % n = 0 → s.coreKeys s.cur addr n .w = .inl ks →
       Holds i h h 0 (.store addr n (s.rdS o.d) ks) rel none 0 s
     stores (.stb h fx o) 1 ∧ stores (.sth h fx o) 2 ∧ stores (.stw h fx o) 4 ∧ stores (.std h fx o) 8) ∧
  ((∀ (s : State) (addr : Word) (n : Nat) (p : Perm) (f : BitVec 8), isSup s.cur = false → s.coreKeys s.cur addr n p = .inr f →
     f = fRawWindow ∧ s.rawKeys s.me.cid addr n p = none) ∧
   (∀ (h : Hdr) (fx : BitVec 1) (o : RI) (s : State), CcMay s h [(o.a, o.la)] [] 0 →
     let addr := s.rdS o.a + (o.imm.extractLsb' 0 21).signExtend 64
     let refused (i : Instr) (n : Nat) : Prop :=
       (addr.toNat % n ≠ 0 → Raises i h 0x07 addr s) ∧
       (∀ f, addr.toNat % n = 0 → s.coreKeys s.cur addr n .r = .inr f → Raises i h f addr s)
     refused (.ldb h fx o) 1 ∧ refused (.ldh h fx o) 2 ∧ refused (.ldw h fx o) 4 ∧ refused (.ldd h fx o) 8) ∧
   (∀ (h : Hdr) (fx : BitVec 1) (o : RI) (s : State), CcMay s h [(o.a, o.la), (o.d, false)] [] 0 →
     let addr := s.rdS o.a + (o.imm.extractLsb' 0 21).signExtend 64
     let refused (i : Instr) (n : Nat) : Prop :=
       (addr.toNat % n ≠ 0 → Raises i h 0x07 addr s) ∧
       (∀ f, addr.toNat % n = 0 → s.coreKeys s.cur addr n .w = .inr f → Raises i h f addr s)
     refused (.stb h fx o) 1 ∧ refused (.sth h fx o) 2 ∧ refused (.stw h fx o) 4 ∧ refused (.std h fx o) 8))

/-- R305, R321, R328, R329: an atomic is held with its operation and operands, and D awaits the old word; C sends it to another device, where
an ASWP into s0 goes as a raw store; a device number equal to this device's own is local. A misaligned one raises RAW_WINDOW, before. -/
def Obligations.Atomics : Prop :=
  ∀ (h : Hdr) (o : RR) (s : State),
    let a := s.rdS o.a
    let b := s.rdS o.b
    let c := s.rdS o.c
    let d := s.rdS o.d
    let dev : BitVec 8 := c.extractLsb' 0 8
    let away := c.getLsbD 8 = true ∧ dev ≠ s.conf.devnum
    let rel := if o.lat.getLsbD 0 then some (o.q.extractLsb' 0 3) else none
    let acq := if o.q.getLsbD 3 then some (o.q.extractLsb' 0 3) else none
    let nc := o.lat.getLsbD 1
    let nq := o.lat.getLsbD 2
    let srcs := [(o.a, o.la), (o.b, o.lb), (o.c, o.lc)]
    let held (i : Instr) (op : AtomOp) (n : Nat) (x y : Word) : Prop :=
      (a.toNat % n ≠ 0 → Raises i h 0x07 a s) ∧
      (∀ ks, a.toNat % n = 0 → ¬away → s.coreKeys s.cur a n .atomic = .inl ks → Holds i h h 0 (.atomic op a o.d x y nc ks) rel acq o.d s) ∧
      (∀ f, a.toNat % n = 0 → ¬away → s.coreKeys s.cur a n .atomic = .inr f → Raises i h f a s)
    let sent (i : Instr) (op : AtomOp) (n : Nat) (x y : Word) : Prop :=
      a.toNat % n = 0 → away → Holds i h h 0 (.ratomic dev op a o.d x y nc) rel acq o.d s
    (CcMay s h srcs [] 0 →
      (held (.aadd h o) .add 8 b 0 ∧ held (.aand h o) .and 8 b 0 ∧ held (.aor h o) .or 8 b 0 ∧ held (.axor h o) .xor 8 b 0 ∧
       held (.amin h o) (.min nq) 8 b 0 ∧ held (.amax h o) (.max nq) 8 b 0 ∧ held (.aswp h o) .swp 8 b 0 ∧ held (.afadd h o) (.fadd nq) 4 b 0) ∧
      (sent (.aadd h o) .add 8 b 0 ∧ sent (.aand h o) .and 8 b 0 ∧ sent (.aor h o) .or 8 b 0 ∧ sent (.axor h o) .xor 8 b 0 ∧
       sent (.amin h o) (.min nq) 8 b 0 ∧ sent (.amax h o) (.max nq) 8 b 0 ∧ (o.d ≠ 0 → sent (.aswp h o) .swp 8 b 0) ∧
       sent (.afadd h o) (.fadd nq) 4 b 0) ∧
      (o.d = 0 → a.toNat % 8 = 0 → away → Holds (.aswp h o) h h 0 (.rstore dev a b) rel acq 0 s)) ∧
    (CcMay s h (srcs ++ [(o.d, false)]) [] 0 → held (.acas h o) .cas 8 d b ∧ sent (.acas h o) .cas 8 d b)

/-- R321, R330: LDRA is held, retires, and leaves its signal to the arrival of the data, for which D waits; from this device's own number it reads
locally, under R194.
R228, R230, R331: FACQ makes the core's earlier atomics and remote loads acquires that later accesses wait for, and at SYS drops the lines of other
devices of the context's first-level partition; FREL makes later stores and atomics releases, at its scope, for what is ordered before it; FAR does both,
and later accesses wait also for the earlier stores and atomics (below SYS, but for those sent to another device, R227). Each retires at issue, and changes
no register and no byte of memory. -/
def Obligations.RemoteLoadFences : Prop :=
  (∀ (h : Hdr) (o : RR) (s : State), CcMay s h [(o.a, o.la), (o.b, o.lb)] [] 0 →
     let a := s.rdS o.a
     let dev : BitVec 8 := (s.rdS o.b).extractLsb' 0 8
     (a.toNat % 8 ≠ 0 → Raises (.ldra h o) h 0x07 a s) ∧
     (a.toNat % 8 = 0 → dev ≠ s.conf.devnum → Holds (.ldra h o) h { h with sig := 0 } h.sig (.rload dev a o.d) none none o.d s) ∧
     (∀ ks, a.toNat % 8 = 0 → dev = s.conf.devnum → s.coreKeys s.cur a 8 .r = .inl ks →
       Holds (.ldra h o) h { h with sig := 0 } h.sig (.ldra a o.d ks) none none o.d s) ∧
     (∀ f, a.toNat % 8 = 0 → dev = s.conf.devnum → s.coreKeys s.cur a 8 .r = .inr f → Raises (.ldra h o) h f a s)) ∧
  (∀ (h : Hdr) (o : SY) (s : State), CcMay s h [] [] 0 →
     let sc : BitVec 3 := o.imm.extractLsb' 0 3
     let e := s.ccCrd h [] 0
     let u := s.modCore s.cur fun c => { c with cc := { c.cc with before := s.ccBefore h } }
     let acq := u.fenceAcq e sc []
     let rel := u.fenceRel e sc
     let both := rel.fenceAcq e sc (u.farIds sc)
     (CcDoes (.facq h o) h [] acq.me [] (s.me.pc + 8) acq s ∧ CcDoes (.frel h o) h [] rel.me [] (s.me.pc + 8) rel s ∧
       CcDoes (.far h o) h [] both.me [] (s.me.pc + 8) both s) ∧
     (∀ v ∈ [acq, both],
       (∀ x ∈ v.me.hold, x.core = s.cur → x.eng = .cc → x.act.returns = true → x.acq.isSome = true ∧ x.id ∈ v.me.barAll) ∧
       (∀ i ∈ s.me.barAll, s.outstanding i = true → i ∈ v.me.barAll) ∧
       (sc = 4 → ∀ l ∈ v.l2, l.dev.isSome = true → l.pid ≠ pidTag (s.ctx s.me.cid).pid) ∧ v.mem = s.mem) ∧
     (∀ v ∈ [rel, both], (∃ f ∈ v.me.frels, f.scope = sc ∧ f.ids = s.ccBefore h) ∧
       ∀ f ∈ s.me.frels, s.clear f.ids = false → f ∈ v.me.frels) ∧
     ∀ x ∈ s.unperformed s.cur, x.id ∈ s.ccBefore h → sc = 4 ∨ x.act.remote s.conf.devnum = false → x.id ∈ both.me.barAll)

/-! ### Branches and the coordinate (R248, R249, R301, R332, R333) -/

/-- R332, Table 14.11: a branch goes to PC + 8 × OFF when its condition holds and to PC + 8 otherwise; `fx` is FN[2]. DBNZ subtracts 1 from A and
branches unless A is then 0 (s0 stays 0). No other register changes. -/
def Obligations.Branches : Prop :=
  (∀ (h : Hdr) (fx : BitVec 1) (o : BR) (s : State), CcMay s h [(o.a, o.la), (o.b, o.lb)] [] 0 →
    let a := s.rdS o.a
    let b := s.rdS o.b
    let less : Prop := if fx = 1 then a.toNat < b.toNat else a.toInt < b.toInt
    let goes (i : Instr) (taken : Prop) : Prop :=
      (taken → CcDoes i h [] s.me [] (s.me.pc + 8 * o.off.signExtend 64) s s) ∧ (¬taken → CcDoes i h [] s.me [] (s.me.pc + 8) s s)
    goes (.beq h o) (a = b) ∧ goes (.bne h o) (a ≠ b) ∧ goes (.blt h fx o) less ∧ goes (.bge h fx o) (¬less)) ∧
  (∀ (h : Hdr) (o : BR) (s : State), CcMay s h [(o.a, false)] [] 0 →
    let a := s.rdS o.a
    let goes (i : Instr) (taken : Prop) : Prop :=
      (taken → CcDoes i h [] s.me [] (s.me.pc + 8 * o.off.signExtend 64) s s) ∧ (¬taken → CcDoes i h [] s.me [] (s.me.pc + 8) s s)
    goes (.bz h o) (a = 0) ∧ goes (.bnz h o) (a ≠ 0) ∧
    ∃ t, exec (.dbnz h o) s = .next t ∧ Wrote s.me (t.core s.cur) o.a (a - 1) ∧
      CcRan s t h [] s.me [] (if o.a = 0 ∨ a = 1 then s.me.pc + 8 else s.me.pc + 8 * o.off.signExtend 64) s) ∧
  (∀ (h : Hdr) (o : JM) (s : State), CcMay s h [] [] 0 →
    CcDoes (.jmp h o) h [] s.me [] (s.me.pc + 8 * o.off.signExtend 64) s s ∧
    ∃ t, exec (.call h o) s = .next t ∧ Wrote s.me (t.core s.cur) 63 (s.me.pc + 8) ∧
      CcRan s t h [] s.me [] (s.me.pc + 8 * o.off.signExtend 64) s) ∧
  (∀ (h : Hdr) (o : RR) (s : State), CcMay s h [(o.a, o.la)] [] 0 →
    let a := s.rdS o.a
    (a.toNat % 8 = 0 → CcDoes (.jr h o) h [] s.me [] a s s ∧
      ∃ t, exec (.callr h o) s = .next t ∧ Wrote s.me (t.core s.cur) 63 (s.me.pc + 8) ∧ CcRan s t h [] s.me [] a s) ∧
    (a.toNat % 8 ≠ 0 → RaisesIllegal (.jr h o) h s ∧ RaisesIllegal (.callr h o) h s)) ∧
  (∀ (h : Hdr) (o : RR) (s : State), CcMay s h [(63, false)] [] 0 →
    let a := s.rdS 63
    (a.toNat % 8 = 0 → CcDoes (.ret h o) h [] s.me [] a s s) ∧ (a.toNat % 8 ≠ 0 → RaisesIllegal (.ret h o) h s))

/-- R246, R248, R333, Tables 11.2 and 14.13: SETCL sets level LVL of the control core's CRD to A + AMT and INCCL raises it by A + AMT, each clearing the
levels below it; SETCRD sets CRD; GETCRD and GETCL read CRD and one level of it. A level of width 0, a value past its width, a bit below
the last level, and a supervisor core raise ILLEGAL, before. -/
def Obligations.CoordinateWords : Prop :=
  ∀ (h : Hdr) (o : SY) (s : State),
    let cw := s.me.cw
    let a := s.rdS o.a
    let lvl := (o.imm.extractLsb' 0 3).toNat
    let amt := (o.imm.extractLsb' 3 9).toNat
    let crd := s.me.cc.crd
    let base (v : Word) : Core := { s.me with cc := { s.me.cc with crd := v } }
    let sets (i : Instr) (v : Nat) : Prop :=
      if isSup s.cur = true ∨ lvlWidth cw lvl = 0 ∨ 2 ^ lvlWidth cw lvl ≤ v then RaisesIllegal i h s
      else CcDoes i h [] (base (lvlSet cw lvl crd v)) [] (s.me.pc + 8) s s
    (CcMay s h [(o.a, o.la)] [] 0 →
      sets (.setcl h o) (a.toNat + amt) ∧ sets (.inccl h o) (lvlGet cw lvl crd + a.toNat + amt) ∧
      (if isSup s.cur = true ∨ a.toNat % 2 ^ lastLevelBit cw ≠ 0 then RaisesIllegal (.setcrd h o) h s
       else CcDoes (.setcrd h o) h [] (base a) [] (s.me.pc + 8) s s)) ∧
    (CcMay s h [] [] 0 →
      (if isSup s.cur = true then RaisesIllegal (.getcrd h o) h s ∧ RaisesIllegal (.getcl h o) h s
       else Computes (.getcrd h o) h o.d crd s ∧ Computes (.getcl h o) h o.d (BitVec.ofNat 64 (lvlGet cw lvl crd)) s))

/-! ### Stops from a task, ring pushes, tokens and JOIN (R169, R171 to R175, R261, R263, R267, R334 to R339) -/

/-- R334: CUT asks for STOP(A) on its context and waits until the stop has been accepted; A with a bit below the last level, A ≤ e, or a
supervisor core raises ILLEGAL, before. CUTQ reads the stop status word (Table 11.8), .cancel first cancelling a stop that this task's CUT
requested. CUTW sets the watch. -/
def Obligations.StopWords : Prop :=
  ∀ (h : Hdr) (o : SY) (s : State),
    let a := s.rdS o.a
    let cid := s.me.cid
    let e := s.ccCrd h [] 0
    (CcMay s h [(o.a, o.la)] [] 0 →
      (if isSup s.cur = true ∨ a.toNat % 2 ^ lastLevelBit s.me.cw ≠ 0 ∨ a.toNat ≤ e.toNat then RaisesIllegal (.cut h o) h s
       else CcWaits (.cut h o) h s.me .cut (s.requestStop cid a { srck := 1, core := BitVec.ofNat 8 s.cur } true) s) ∧
      (if isSup s.cur = true then RaisesIllegal (.cutw h o) h s
       else CcDoes (.cutw h o) h [] { s.me with cutw := a } [] (s.me.pc + 8) s s)) ∧
    (s.me.ccWait = some .cut → CcMayEnd s h → (∀ st, (s.ctx cid).stop = some st → st.accepted = true) → CcEnds (.cut h o) h s.me s s) ∧
    (CcMay s h [] [] 0 →
      let own := ∀ st, (s.ctx cid).stop = some st → ∃ r ∈ st.reqs, r.srck = 1 ∧ r.core = BitVec.ofNat 8 s.cur
      let s0 := s.cancelStop cid
      let reads (u : State) (v : Word) : Prop :=
        ∃ t, exec (.cutq h o) s = .next t ∧ CcRan s t h [] u.me [] (s.me.pc + 8) u ∧ Wrote s.me (t.core s.cur) o.d v
      (isSup s.cur = true → RaisesIllegal (.cutq h o) h s) ∧
      (isSup s.cur = false → o.imm.getLsbD 0 = true → own → reads s0 (s0.ctx cid).stopStatus) ∧
      (isSup s.cur = false → ¬(o.imm.getLsbD 0 = true ∧ own) →
        (∀ st, (s.ctx cid).stop = some st → reads s
          (BitVec.ofNat 64 (1 + 4 * (if st.late then 1 else 0) + 32 * (st.reqs.headD {}).srck.toNat + 256 * (st.reqs.headD {}).core.toNat))) ∧
        ((s.ctx cid).stop = none → reads s
          (BitVec.ofNat 64 ((if (s.ctx cid).st = .stopped then 2 else 0) + 4 * (s.ctx cid).result.toNat +
            32 * (s.ctx cid).lastReq.srck.toNat + 256 * (s.ctx cid).lastReq.core.toNat)))))

/-- R169, R322, R335: PUSHQ writes A at TAIL of the ring of engine B[2:0] with its own coordinate, stalling while the ring is full; PUSHQN does so
and writes 0 to D, or writes 1 where the ring is full. Engine 0, 6 or 7, or a task whose TEND has issued (R106), raises ILLEGAL.
R224, R322, R336: RINGCPY reads the whole block of N words at base + 8 × SEXT(OFFH ‖ OFFL), the base being PC or A, as raw loads, and pushes them
in order; it retires after the last one and waits while the ring is full. A word that a raw load would refuse, or that is poisoned, raises that fault,
before, and nothing is pushed. -/
def Obligations.RingWords : Prop :=
  (∀ (h : Hdr) (o : RR) (s : State), CcMay s h [(o.a, o.la), (o.b, o.lb)] [] 0 →
     let k := (s.rdS o.b).toNat % 8
     let eng := engOfNum k
     let e := s.ccCrd h [] 0
     let bad := k = 0 ∨ 5 < k ∨ s.me.tendIssued = true
     (bad → RaisesIllegal (.pushq h o) h s ∧ RaisesIllegal (.pushqn h o) h s) ∧
     (¬bad → s.ringFree s.cur eng = 0 → exec (.pushq h o) s = .next s ∧ Computes (.pushqn h o) h o.d 1 s) ∧
     (¬bad → s.ringFree s.cur eng ≠ 0 →
       (∃ base, Pushed s.me base eng e (s.rdS o.a) ∧ CcDoes (.pushq h o) h [] base [] (s.me.pc + 8) s s) ∧
       ∃ base t, Pushed s.me base eng e (s.rdS o.a) ∧ exec (.pushqn h o) s = .next t ∧ CcRan s t h [] base [] (s.me.pc + 8) s ∧
         Wrote s.me (t.core s.cur) o.d 0)) ∧
  ((∀ (h : Hdr) (o : SY) (s : State), CcMay s h [(o.a, o.la)] [] 0 →
     let k := (o.sel.extractLsb' 8 3).toNat
     let eng := engOfNum k
     let n := o.imm.toNat + 1
     let addr := (if o.a = 0 then s.me.pc else s.rdS o.a) + 8 * (o.d ++ o.sel.extractLsb' 0 8).signExtend 64
     let e := s.ccCrd h [] 0
     let bad := k = 0 ∨ 5 < k ∨ s.me.tendIssued = true ∨ 2 ^ (s.me.eng eng).ring.size.toNat < n
     let after (ws : List Word) : Core := (ws.foldl (fun u w => u.pushRing s.cur eng e w) s).me
     (bad → RaisesIllegal (.ringcpy h o) h s) ∧
     (∀ f a, ¬bad → s.blockWords addr n = .inr (f, a) → Raises (.ringcpy h o) h f a s) ∧
     (∀ ws, ¬bad → s.blockWords addr n = .inl ws → s.farClear = true → s.me.peel.length + 3 * n + 12 ≤ 1024 →
       (n ≤ s.ringFree s.cur eng → CcDoes (.ringcpy h o) h [] (after ws) [] (s.me.pc + 8) s s) ∧
       (s.ringFree s.cur eng < n →
         CcWaits (.ringcpy h o) h (after (ws.take (s.ringFree s.cur eng))) (.ringcpy (ws.drop (s.ringFree s.cur eng)) k) s s))) ∧
   (∀ (h : Hdr) (o : SY) (s : State) (ws : List Word) (k : Nat), s.me.ccWait = some (.ringcpy ws k) → CcMayEnd s h →
     s.me.peel.length + 3 * ws.length + 12 ≤ 1024 → 1 ≤ k → k ≤ 5 → ws.length ≤ s.ringFree s.cur (engOfNum k) →
     CcEnds (.ringcpy h o) h (ws.foldl (fun u w => u.pushRing s.cur (engOfNum k) s.me.cc.elast w) s).me s s) ∧
   (∀ (s : State) (addr : Word) (n : Nat) (ws : List Word), s.blockWords addr n = .inl ws →
     ws.length = n ∧ ∀ j, j < n → ∃ ks, s.coreKeys s.cur (addr + 8 * BitVec.ofNat 64 j) 8 .r = .inl ks ∧ (addr + 8 * BitVec.ofNat 64 j).toNat % 8 = 0 ∧
       ws.getD j 0 = bitsOf 64 (s.loadBytes s.cur (addr + 8 * BitVec.ofNat 64 j) ks 0)))

/-- R171 to R173, R337, R338: WSET writes a wait-set entry under the checks of R172; TINC adds IMM12 to a counter and raises its tag to e, TOK_OVF
leaving 0xFFFF; TDEC subtracts IMM12 and takes the tag into e; TRD reads the count or the tag; TSET sets the count to A[15:0] and the tag to e.
R175, R339: JOIN pushes MARK into each ring that its mask names, in order, and waits; it retires once each MARK has retired. A mask of 0,
and a core whose TEND has issued (R106), raise ILLEGAL. -/
def Obligations.TokenAndJoin : Prop :=
  (∀ (h : Hdr) (o : SY) (s : State),
     let n := o.sel.toNat
     let tok := s.me.tok.get {} n
     let e := s.ccCrd h [] 0
     let own := if h.sig ≠ 0 ∧ n = h.sig.toNat then 1 else 0
     (CcMay s h [(o.a, o.la)] [] 0 →
       (if waitOk (s.rdS o.a) then CcDoes (.wset h o) h [] { s.me with wset := s.me.wset.set 0 n (s.rdS o.a) } [] (s.me.pc + 8) s s
        else RaisesIllegal (.wset h o) h s) ∧
       (((s.rdS o.a).setWidth 16).toNat + own ≤ 0xFFFF → ∃ t, exec (.tset h o) s = .next t ∧ CcRan s t h [] s.me [n] (s.me.pc + 8) s ∧
         (t.core s.cur).s = s.me.s ∧ ((t.core s.cur).tok.get {} n).count.toNat = ((s.rdS o.a).setWidth 16).toNat + own ∧
         ((t.core s.cur).tok.get {} n).tag = e)) ∧
     (CcMay s h [] [] 0 →
       (n ≠ 0 → tok.count.toNat + o.imm.toNat + own ≤ 0xFFFF → ∃ t, exec (.tinc h o) s = .next t ∧ CcRan s t h [] s.me [n] (s.me.pc + 8) s ∧
         (t.core s.cur).s = s.me.s ∧
         ((t.core s.cur).tok.get {} n).count.toNat + tokNeed (waitPresent (s.me.waitVal h)) n = tok.count.toNat + o.imm.toNat + own ∧
         ((t.core s.cur).tok.get {} n).tag = maxW tok.tag e) ∧
       (n ≠ 0 → h.sig = 0 → tokNeed (waitPresent (s.me.waitVal h)) n = 0 → 0xFFFF < tok.count.toNat + o.imm.toNat → s.me.tvec ≠ 0 → tcInh s.me.tcause = false →
         (isSup s.cur = true ∨ ∃ k, s.me.task = some k ∧ k.ended = false ∧ (s.ctx s.me.cid).st = .live) →
         ∃ t, exec (.tinc h o) s = .next t ∧ ((t.core s.cur).tok.get {} n).count = 0xFFFF ∧ (t.core s.cur).pc = s.me.tvec ∧
           (t.core s.cur).tcause = 0x80E ∧ (t.core s.cur).tval = BitVec.ofNat 64 n ∧ (t.core s.cur).tepc = s.me.pc + 8) ∧
       ∃ v, Computes (.trd h o) h o.d v s ∧
         if o.imm.getLsbD 0 then v = tok.tag else v.toNat + tokNeed (waitPresent (s.me.waitVal h)) n = tok.count.toNat) ∧
     (CcMay s h [] [(n, o.imm.toNat)] 0 →
       ∃ t, exec (.tdec h o) s = .next t ∧ CcRan s t h [(n, o.imm.toNat)] s.me [] (s.me.pc + 8) s ∧ (t.core s.cur).s = s.me.s ∧
         (t.core s.cur).cc.elast = maxW s.me.cc.elast (s.ccCrd h [(n, o.imm.toNat)] 0))) ∧
  ((∀ (h : Hdr) (o : SY) (s : State), CcMay s h [] [] 0 → s.me.tendIssued = false → s.me.peel.length + 20 ≤ 1024 →
     let engs := ((List.range 5).filter fun i => o.imm.getLsbD i).map (· + 1)
     let e := s.ccCrd h [] 0
     let mark : Word := 0x7E0000000000
     (engs = [] → RaisesIllegal (.join h o) h s) ∧
     (engs ≠ [] → (∀ k ∈ engs, s.ringFree s.cur (engOfNum k) ≠ 0 ∧
         ptrDiff (s.me.eng (engOfNum k)).ring.tail (s.me.eng (engOfNum k)).ring.head < 32768) →
       CcWaits (.join h o) h (engs.foldl (fun u k => u.pushRing s.cur (engOfNum k) e mark) s).me
         (.join [] (engs.map fun k => (k, (s.me.eng (engOfNum k)).ring.tail))) s s)) ∧
   (∀ (h : Hdr) (o : SY) (s : State), CcMay s h [] [] 0 → s.me.tendIssued = true → RaisesIllegal (.join h o) h s) ∧
   (∀ (h : Hdr) (o : SY) (s : State) (marks : List (Nat × BitVec 16)), s.me.ccWait = some (.join [] marks) → CcMayEnd s h →
     (∀ x ∈ marks, s.me.retiredAt (engOfNum x.1) x.2 = true) → CcEnds (.join h o) h s.me s s))

/-! ### Descriptors, tile-table entries, page requests and circular buffers (R186, R189, R203, R205, R219, R340 to R342, R353) -/

/-- R203, R320, R340: TDSET checks 64 B of scratchpad and holds the write of descriptor t; TDRD writes descriptor t, with the core's own held writes
applied, to scratchpad; TDINV holds the clearing of VALID. An address that is no multiple of 64, or reaches 0x70000, raises SPAD_RANGE.
R205, R208, R320, R341: a tile-table word names a tile inside a valid descriptor, or raises TENSOR_BOUNDS, before. TTRD writes the entry to
scratchpad; TTSET checks 16 B of scratchpad and holds the update; TTREF and TTUNREF are held. A page that breaks R205 raises TT_NODE, where the entry is
not in the core's translation cache. -/
def Obligations.TileDescriptors : Prop :=
  ((∀ (h : Hdr) (o : SY) (s : State), CcMay s h [(o.a, o.la)] [] 0 →
     let a := s.rdS o.a
     let t : BitVec 10 := o.sel.setWidth 10
     let x : BitVec 512 := bitsOf 512 (s.me.spadBytes a.toNat 64)
     let inside := a.toNat % 64 = 0 ∧ a.toNat + 64 ≤ 0x70000
     (¬inside → ∃ v, Raises (.tdset h o) h 0x05 v s ∧ Raises (.tdrd h o) h 0x05 v s) ∧
     (inside → s.me.pendingAt s.cycle a.toNat 64 = none →
       (tdOk x = true → Holds (.tdset h o) h h 0 (.tdset t x) none none 0 s) ∧ (tdOk x = false → RaisesIllegal (.tdset h o) h s)) ∧
     (inside → CcDoes (.tdrd h o) h []
       { s.me with spad := putSpad s.me.spad a.toNat (leBytes (s.tdBits s.cur (s.ccCrd h [] 0) t).toNat 64) } [] (s.me.pc + 8) s s)) ∧
   (∀ (h : Hdr) (o : SY) (s : State), CcMay s h [] [] 0 → Holds (.tdinv h o) h h 0 (.tdinv (o.sel.setWidth 10)) none none 0 s)) ∧
  (∀ (h : Hdr) (o : SY) (s : State),
     let tid : BitVec 10 := o.sel.setWidth 10
     let e := s.ccCrd h [] 0
     let k := (s.rdS o.a).toNat
     let a := s.rdS o.d
     let out := ∀ d, s.tdesc s.cur e tid = some d → d.tiles ≤ k
     let inside := a.toNat % 16 = 0 ∧ a.toNat + 16 ≤ 0x70000
     let x : BitVec 128 := bitsOf 128 (s.me.spadBytes a.toNat 16)
     (CcMay s h [(o.a, o.la)] [] 0 →
       (out → Raises (.ttref h o) h 0x08 (tid.setWidth 64) s ∧ Raises (.ttunref h o) h 0x08 (tid.setWidth 64) s) ∧
       (¬out → Holds (.ttref h o) h h 0 (.ttref tid k) none none 0 s ∧ Holds (.ttunref h o) h h 0 (.ttunref tid k) none none 0 s)) ∧
     (CcMay s h [(o.a, o.la), (o.d, false)] [] 0 →
       (out → Raises (.ttrd h o) h 0x08 (tid.setWidth 64) s ∧ Raises (.ttset h o) h 0x08 (tid.setWidth 64) s) ∧
       (¬out → ¬inside → ∃ v, Raises (.ttrd h o) h 0x05 v s ∧ Raises (.ttset h o) h 0x05 v s) ∧
       (∀ d, s.tdesc s.cur e tid = some d → k < d.tiles → inside →
         (s.me.ttcHit tid k = none → s.pageOk s.me.cid (d.entAddr k) = false → Raises (.ttrd h o) h 0x0A (BitVec.ofNat 64 (d.entAddr k)) s) ∧
         (∀ y u, s.entry s.cur e d tid k = some (y, u) →
           CcDoes (.ttrd h o) h [] { s.me with spad := putSpad s.me.spad a.toNat (leBytes y.toNat 16), ttc := u.me.ttc } [] (s.me.pc + 8) s s) ∧
         (s.me.pendingAt s.cycle a.toNat 16 = none →
           (entOk d.phased x = true ∧ s.tierOk s.me.cid x = true → Holds (.ttset h o) h h 0 (.ttset tid k x) none none 0 s) ∧
           (¬(entOk d.phased x = true ∧ s.tierOk s.me.cid x = true) → RaisesIllegal (.ttset h o) h s)))))

/-- R219, R342: PGREQ posts a request for the tile that holds the element whose coordinates the registers from s[G] give, and does not wait. An equal
request is merged; the 257th is dropped and counted; else the queue grows and WFE cause 2 is raised. A descriptor that is not valid, a base
past s63 or a coordinate outside the tensor raises TENSOR_BOUNDS.
R189, R353: CBRST defines a buffer from A and empties it, all slots free; CBSTAT reads A, the counters or the tag, and raises ILLEGAL before the
buffer's CBRST. A definition with bits above 37, a base that is no multiple of 32, or one past the program area raises ILLEGAL. -/
def Obligations.PagesAndBuffers : Prop :=
  (∀ (h : Hdr) (o : TN) (s : State),
     let rank := ((s.tdesc s.cur (ccE s 0) o.tid).map (·.rank)).getD 0
     let e := s.ccCrd h [] 0
     let x (d : TDesc) : List Nat := (List.range d.rank).map fun i => (s.rdS (o.g + BitVec.ofNat 6 i)).toNat
     CcMay s h ((List.range (if 64 < o.g.toNat + rank then 0 else rank)).map fun i => (o.g + BitVec.ofNat 6 i, false)) [] 0 →
     (s.tdesc s.cur e o.tid = none → Raises (.pgreq h o) h 0x08 (o.tid.setWidth 64) s) ∧
     (∀ d, s.tdesc s.cur e o.tid = some d →
       (64 < o.g.toNat + d.rank ∨ d.locate (x d) = none → Raises (.pgreq h o) h 0x08 (o.tid.setWidth 64) s) ∧
       (∀ tile off, o.g.toNat + d.rank ≤ 64 → d.locate (x d) = some (tile, off) →
         let r : PgRec := { cid := s.me.cid, inc := s.me.inc, tid := o.tid, tile := BitVec.ofNat 24 tile, crd := e, gts := s.gts, src := s.src s.cur }
         let same := ∃ q ∈ s.pgq, q.cid = r.cid ∧ q.inc = r.inc ∧ q.tid = r.tid ∧ q.tile = r.tile
         let does (s0 : State) : Prop := CcDoes (.pgreq h o) h [] s.me [] (s.me.pc + 8) s0 s
         (same → does s) ∧
         (¬same → s.pgq.length < 256 → does { s with pgq := s.pgq ++ [r], wfe := s.wfe ||| 4 }) ∧
         (¬same → 256 ≤ s.pgq.length → does { s with pgdrop := if s.pgdrop = BitVec.allOnes 64 then s.pgdrop else s.pgdrop + 1 })))) ∧
  (∀ (h : Hdr) (o : SY) (s : State),
     let a := s.rdS o.a
     let base := (a.extractLsb' 0 19).toNat
     let size := 32 * ((a.extractLsb' 19 11).toNat + 1)
     let n := (a.extractLsb' 30 8).toNat + 1
     let fresh : Cb := { w0 := a, filled := 0, free := n, ridx := 0, widx := 0, tag := 0, filling := 0, acquired := 0 }
     (CcMay s h [(o.a, o.la)] [] 0 →
       (a.toNat < 2 ^ 38 ∧ base % 32 = 0 ∧ base + size * n ≤ 0x70000 →
         CcDoes (.cbrst h o) h [] { s.me with cbs := s.me.cbs.set none o.sel.toNat (some fresh) } [] (s.me.pc + 8) s s) ∧
       (¬(a.toNat < 2 ^ 38 ∧ base % 32 = 0 ∧ base + size * n ≤ 0x70000) → RaisesIllegal (.cbrst h o) h s)) ∧
     (CcMay s h [] [] 0 →
       (s.me.cbs.get none o.sel.toNat = none → RaisesIllegal (.cbstat h o) h s) ∧
       ∀ b, s.me.cbs.get none o.sel.toNat = some b → Computes (.cbstat h o) h o.d
         (if o.imm = 0 then b.w0 else if o.imm = 1 then BitVec.ofNat 64 (b.filled + 2 ^ 9 * b.free + 2 ^ 18 * b.ridx + 2 ^ 26 * b.widx) else b.tag) s))

/-! ### Phasers, PHASE and SPAWN (R109 to R120, R343 to R345) -/

/-- R112 to R115, R343: on a phaser that its core's cache does not record as another context's, and that it is registered on, PHSIG arrives for
phase ms with D[31:0] bytes; PHWAIT passes once phase mw is released; PHEXP adds bytes; PHRD reads the phase, the pending bytes or the
status; PHSW arrives and waits; a wait ends at the release, and for a member whose drop takes effect with it. PHREG and PHDROP are held. A phaser of the launch processors or of another context raises PRIV; a form that
the membership or its mode does not allow raises ILLEGAL. -/
def Obligations.PhaserWords : Prop :=
  ∀ (h : Hdr) (o : SY) (s : State),
    let ph : BitVec 12 := (s.rdS o.a).extractLsb' 0 12
    let e := s.ccCrd h [] 0
    let bytes : BitVec 32 := (s.rdS o.d).extractLsb' 0 32
    let p := s.phaser ph
    let cached := s.me.phOwn.get 0 ph.toNat
    let priv := ph.toNat % 1024 < 64 ∨ (cached ≠ 0 ∧ cached ≠ s.me.cid)
    let base := { s.me with phOwn := s.me.phOwn.set 0 ph.toNat ((p.owner.map (·.1)).getD 0) }
    let wd (i : Instr) : Prop := Raises i h 0x14 i.word s
    let mine (t : Task) (m : PMember) : Prop := ¬priv ∧ s.phBusy ph = false ∧ s.me.task = some t ∧ (p.owner = none ∨ p.owner = some (t.cid, t.inc)) ∧
      p.member t = some m
    let pass (t : Task) : Phaser := p.modMember t fun m => { m with mw := m.mw + 1 }
    (CcMay s h [(o.a, o.la)] [] 0 →
      (priv → wd (.phreg h o) ∧ wd (.phdrop h o) ∧ wd (.phrd h o)) ∧
      (¬priv → Holds (.phreg h o) h h 0 (.phreg ph (o.imm.extractLsb' 0 2)) none none 0 s ∧ Holds (.phdrop h o) h h 0 (.phdrop ph) none none 0 s) ∧
      (∀ t m, mine t m → ∃ u, exec (.phrd h o) s = .next u ∧ CcRan s u h [] base [] (s.me.pc + 8) s ∧ Wrote s.me (u.core s.cur) o.d
        (if o.imm = 0 then p.counter else if o.imm = 1 then p.pending.setWidth 64 else p.status s.outstanding))) ∧
    (s.me.ccWait = none → CcMay s h [(o.a, o.la)] [] (s.phNow ph) → ∀ t m, mine t m →
      (m.waits = false → exec (.phwait h o) s =
        .next (s.raise s.cur .cc 0x01 (Instr.phwait h o).word (s.ccCrd h [] (s.phNow ph)) true 0)) ∧
      (m.waits = true → m.mw.toNat < p.counter.toNat →
        s.phNow ph = p.relCrd.get 0 m.mw.toNat ∧ CcDoes (.phwait h o) h [] base [] (s.me.pc + 8) (s.setPhaser ph (pass t)) s) ∧
      (m.waits = true → p.counter.toNat ≤ m.mw.toNat → CcWaits (.phwait h o) h base (.phw ph m.mw none) s s)) ∧
    (CcMay s h [(o.a, o.la), (o.d, false)] [] 0 →
      (priv → wd (.phsig h o) ∧ wd (.phexp h o)) ∧
      (∀ t m, mine t m →
        (m.signals = false → RaisesIllegal (.phsig h o) h s) ∧
        (m.signals = true → p.counter.toNat < m.ms.toNat → exec (.phsig h o) s = .next s) ∧
        (m.signals = true → m.ms.toNat ≤ p.counter.toNat → ∃ b, (∀ i ∈ s.me.cc.before, i ∈ b) ∧
          CcDoes (.phsig h o) h [] base [] (s.me.pc + 8) (s.setPhaser ph (p.arrive t s.cur e bytes b)) s) ∧
        CcDoes (.phexp h o) h [] base [] (s.me.pc + 8) (s.setPhaser ph (p.expect s.cur e bytes)) s ∧ (p.expect s.cur e bytes).pending = p.pending + bytes ∧
        (s.me.ccWait = none → m.signals = true → m.waits = true → m.ms.toNat ≤ p.counter.toNat → ∃ b, (∀ i ∈ s.me.cc.before, i ∈ b) ∧
          CcWaits (.phsw h o) h base (.phw ph m.mw none) (s.setPhaser ph (p.arrive t s.cur e bytes b)) s))) ∧
    (∀ q n woke t, s.me.ccWait = some (.phw q n woke) → s.me.task = some t → CcMayEnd s h →
      ∀ i ∈ [Instr.phwait h o, .phsw h o],
        (∀ m, (s.phaser q).member t = some m →
          (woke ≠ none ∨ n.toNat < (s.phaser q).counter.toNat →
            CcEnds i h s.me (s.setPhaser q ((s.phaser q).modMember t fun m => { m with mw := m.mw + 1 })) s) ∧
          (woke = none → (s.phaser q).counter.toNat ≤ n.toNat → CcDoes i { h with wait := 0, sig := 0 } [] s.me [] s.me.pc s s)) ∧
        ((s.phaser q).member t = none → CcEnds i h s.me s s))

/-- R112, R113: an arrival adds its bytes, advances the member's ms and is recorded with its coordinate and phase; a phaser releases its phase only
when every signalling member has arrived or asked to drop and no byte is pending; the counter then goes on by one. -/
def Obligations.PhaserRules : Prop :=
  (∀ (p : Phaser) (t : Task) (m : PMember) (n : Nat) (e : Word) (bytes : BitVec 32) (b : List Nat), p.member t = some m →
    let p' := p.arrive t n e bytes b
    p'.pending = p.pending + bytes ∧ p'.counter = p.counter ∧ p'.member t = some { m with ms := m.ms + 1 } ∧
    p'.hist = p.hist ++ [{ phase := m.ms, core := n, crd := e, bytes := bytes, charge := false, arrives := true, after := b }] ∧
    ∀ k ∈ p.members, k.isTask t = false → k ∈ p'.members) ∧
  (∀ (p : Phaser) (out : Nat → Bool), p.ready out = true →
    p.pending = 0 ∧ (∀ m ∈ p.members, m.signals = true → p.counter.toNat < m.ms.toNat ∨ m.drop = true) ∧ ∃ m ∈ p.members, m.signals = true) ∧
  (∀ p : Phaser, (∃ m ∈ p.members, m.drop = false) →
    p.release.counter = p.counter + 1 ∧ (∀ m ∈ p.members, m.drop = false → m ∈ p.release.members) ∧
    ∀ m ∈ p.regs, { m with ms := p.counter + 1, mw := p.counter + 1, since := p.counter + 1 } ∈ p.release.members)

/-- R110, R115, R344: PHASE raises CRD to the next phase boundary, arrives at the superstep phaser with A[31:0] bytes at a coordinate of at least that
boundary, and waits for the release of its phase. At phase 0xFFFF, or with no superstep phaser, it raises ILLEGAL.
R118, R120, R231, R345: SPAWN and SPAWNW hold the creation of a child launch from the descriptor at A, a release at DEVICE scope; SPAWNW waits until that launch is COMPLETE. An
address that is unaligned or outside an R window raises RAW_WINDOW, before; a spawn still pending on the core stalls them. -/
def Obligations.SuperstepsSpawns : Prop :=
  ((∀ (h : Hdr) (o : SY) (s : State) (t : Task) (ph : BitVec 12) (m : PMember), s.me.task = some t → t.superPh = some ph →
     (s.phaser ph).member t = some m →
     let p := s.phaser ph
     let b : Word := BitVec.ofNat 64 ((p.counter.toNat + 1) * 2 ^ 48)
     let e := s.ccCrd h [] b
     p.counter.toNat < 0xFFFF → CcMay s h [(o.a, o.la)] [] b → m.ms.toNat ≤ p.counter.toNat →
     ∃ l, (∀ i ∈ s.me.cc.before, i ∈ l) ∧
       CcWaits (.phase h o) h { s.me with cc := { s.me.cc with crd := if s.me.cc.crd.toNat < b.toNat then b else s.me.cc.crd } } (.phw ph m.mw none)
         (s.setPhaser ph (p.arrive t s.cur e ((s.rdS o.a).extractLsb' 0 32) l)) s) ∧
   (∀ (h : Hdr) (o : SY) (s : State) (t : Task) (q : BitVec 12) (n : Word) (woke : Option Word) (m : PMember), s.me.ccWait = some (.phw q n woke) →
     s.me.task = some t → t.superPh ≠ none → (s.phaser q).member t = some m → woke ≠ none ∨ n.toNat < (s.phaser q).counter.toNat → CcMayEnd s h →
     CcEnds (.phase h o) h s.me (s.setPhaser q ((s.phaser q).modMember t fun m => { m with mw := m.mw + 1 })) s) ∧
   (∀ (h : Hdr) (o : SY) (s : State), CcMay s h [(o.a, o.la)] [] 0 →
     (∀ t ph, s.me.task = some t → t.superPh = some ph → (s.phaser ph).counter = 0xFFFF) → RaisesIllegal (.phase h o) h s)) ∧
  ((∀ (h : Hdr) (o : SY) (s : State), CcMay s h [(o.a, o.la)] [] 0 →
     let a := s.rdS o.a
     (a.toNat % 64 ≠ 0 → Raises (.spawn h o) h 0x07 a s ∧ Raises (.spawnw h o) h 0x07 a s) ∧
     (∀ f, a.toNat % 64 = 0 → s.coreKeys s.cur a 64 .r = .inr f → Raises (.spawn h o) h f a s ∧ Raises (.spawnw h o) h f a s) ∧
     (∀ ks, a.toNat % 64 = 0 → s.coreKeys s.cur a 64 .r = .inl ks →
       (s.me.spawnSlot ≠ none → exec (.spawn h o) s = .next s ∧ exec (.spawnw h o) s = .next s) ∧
       (s.me.spawnSlot = none → Holds (.spawn h o) h h 0 (.spawn a false) (some 3) none 0 s ∧
         ∃ x, HeldAs s h x (s.ccCrd h [] 0) 0 (.spawn a true) (some 3) none ∧
           CcWaits (.spawnw h o) h (s.heldBase x) (.spawnw none x.id) (s.withHeld x) s))) ∧
   (∀ (h : Hdr) (o : SY) (s : State) (w : Option Nat) (id k : Nat) (l : Launch), s.me.ccWait = some (.spawnw w id) → (k, some l) ∈ s.launches →
     l.spawnId = id → l.st = .complete → CcMayEnd s h → CcEnds (.spawnw h o) h s.me s s))

/-! ### Cache words, configuration, system registers, traps and the end of a task (R78, R106, R148 to R154, R165, R166, R310 to R313, R346 to R352) -/

/-- R165, R166, R346 to R348: DWB, DINV and IINV are held over their range of lines; ILOCK locks what capacity allows, records the range and answers
how many of its lines are locked, a locked line staying so; IUNLK unlocks. A range outside an R window raises RAW_WINDOW, before. FETCHB
waits for the core's earlier IINVs and then discards its fetched words. -/
def Obligations.CacheWords : Prop :=
  (∀ (h : Hdr) (o : SY) (s : State), CcMay s h [(o.a, o.la)] [] 0 →
    let a := (s.rdS o.a).toNat / 64 * 64
    let n := o.imm.toNat + 1
    (s.rangeOk a (64 * n) = false →
      Raises (.dwb h o) h 0x07 (s.rdS o.a) s ∧ Raises (.dinv h o) h 0x07 (s.rdS o.a) s ∧ Raises (.iinv h o) h 0x07 (s.rdS o.a) s ∧
      Raises (.ilock h o) h 0x07 (s.rdS o.a) s ∧ Raises (.iunlk h o) h 0x07 (s.rdS o.a) s) ∧
    (s.rangeOk a (64 * n) = true →
      Holds (.dwb h o) h h 0 (.dwb (BitVec.ofNat 64 a) n) none none 0 s ∧ Holds (.dinv h o) h h 0 (.dinv (BitVec.ofNat 64 a) n) none none 0 s ∧
      Holds (.iinv h o) h h 0 (.iinv (o.sel.extractLsb' 0 3) (BitVec.ofNat 64 a) n) none none 0 s ∧
      (16 ≤ s.me.locks.length → Computes (.ilock h o) h o.d 0 s) ∧
      (s.me.locks.length < 16 → ∃ (m : SMap ICLine) (l : List LockRange) (t : State),
        exec (.ilock h o) s = .next t ∧ CcRan s t h [] { s.me with icache := m, locks := l } [] (s.me.pc + 8) s ∧
        Wrote s.me (t.core s.cur) o.d (BitVec.ofNat 64 (lockedLines m a n)) ∧ (∀ x, icLocked s.me.icache x = true → icLocked m x = true) ∧
        (lockedLines m a n = 0 → l = s.me.locks) ∧ (lockedLines m a n ≠ 0 → l = s.me.locks ++ [{ addr := a, lines := n }]) ∧
        (n = 1 → (s.me.icache.get {} (icSet a * 4 + 2)).locked = false → lockedLines m a n = 1)) ∧
      CcDoes (.iunlk h o) h [] { s.me with
        icache := unlockRange s.me.icache a n
        locks := s.me.locks.filter fun r => !(decide (a ≤ r.addr) && decide (r.addr + 64 * r.lines ≤ a + 64 * n)) } [] (s.me.pc + 8) s s)) ∧
  (∀ (h : Hdr) (o : SY) (s : State), CcMay s h [] [] 0 →
    let pending := ∃ x ∈ s.me.hold ++ s.flying, x.core = s.cur ∧ ∃ sc a n, x.act = .iinv sc a n
    (pending → exec (.fetchb h o) s = .next s) ∧
    (¬pending → ∃ t, exec (.fetchb h o) s = .next t ∧ CcRan s t h [] s.me [] (s.me.pc + 8) s ∧ (t.core s.cur).s = s.me.s ∧ (t.core s.cur).fetched = []))

/-- R312, R313, R318, R349: ECFGW writes A to a listed RW configuration item and ECFGR reads an item; an item not listed, or a write of a ring's
RCFG or RPTR, raises ILLEGAL. Of QTEMP the low 32 bits are held, and word 0 of a nest slot discards its reserved bits (R8). -/
def Obligations.EngineConfiguration : Prop :=
  (∀ (h : Hdr) (o : SY) (s : State),
    let k := o.sel.toNat
    (CcMay s h [(o.a, o.la)] [] 0 →
      (s.me.cfgItem k = none ∨ k % 256 < 2 → RaisesIllegal (.ecfgw h o) h s) ∧
      (s.me.cfgItem k ≠ none → 2 ≤ k % 256 → CcDoes (.ecfgw h o) h [] (s.me.putCfg k (s.rdS o.a)) [] (s.me.pc + 8) s s)) ∧
    (CcMay s h [] [] 0 →
      (s.me.cfgItem k = none → RaisesIllegal (.ecfgr h o) h s) ∧ ∀ v, s.me.cfgItem k = some v → Computes (.ecfgr h o) h o.d v s)) ∧
  (∀ (c : Core) (k : Nat) (v : Word), c.cfgItem k ≠ none → 2 ≤ k % 256 →
    (c.putCfg k v).cfgItem k = some (if k = 0x211 then (v.setWidth 32).setWidth 64
      else if 0x340 ≤ k ∧ k < 0x3C0 ∧ k % 16 = 0 then (v.setWidth 60).setWidth 64 else v) ∧
    ∀ j, j ≠ k → (c.putCfg k v).cfgItem j = c.cfgItem j) ∧
  (∀ (c : Core) (i : Nat), i < 128 →
    c.cfgItem (0x340 + i) = some (c.mx.shadow.get 0 i) ∧ c.cfgItem (0x440 + i) = some (c.cslot.get 0 i)) ∧
  (∀ c : Core, c.cfgItem 0x210 = some c.seed ∧ c.cfgItem 0x211 = some (c.qtemp.setWidth 64) ∧ c.cfgItem 0 = none ∧
    (c.cfgItem 0x101).map (·.extractLsb' 16 16) = some c.acc.ring.head)

/-- R310, R311, R350, Table 13.17: RDSR reads a system register; WRSR, SETSR and CLRSR write A, the register OR A, and the register AND NOT A. A number
that is not assigned, or a write of a register that is not RW, raises ILLEGAL; the supervisor cores' block raises PRIV on a task's core.
R8, Tables 7.2 and 13.17: what the system registers of a core hold. A write of TCAUSE changes SKIP alone, and DEBUG holds three bits. -/
def Obligations.SystemRegisters : Prop :=
  (∀ (h : Hdr) (o : SY) (s : State),
     let k := o.sel.toNat
     let priv := 0x600 ≤ k ∧ k ≤ 0x704 ∧ isSup s.cur = false
     let rw := k = 0 ∨ k = 1 ∨ k = 2 ∨ k = 0x11 ∨ k = 0x23
     let puts (i : Instr) (f : Word → Word → Word) : Prop :=
       (priv → Raises i h 0x14 i.word s) ∧
       (¬priv → s.sysReg s.cur k = none → RaisesIllegal i h s) ∧
       (∀ v, ¬priv → s.sysReg s.cur k = some v →
         (rw → CcDoes i h [] (s.me.putSys k (f v (s.rdS o.a))) [] (s.me.pc + 8) s s) ∧
         (k < 0x600 → ¬rw → ¬(k = 0x12 ∧ isSup s.cur = true ∧ sysOk k (f v (s.rdS o.a)) = true) → RaisesIllegal i h s) ∧
         (k = 0x12 → isSup s.cur = true → sysOk k (f v (s.rdS o.a)) = true →
           CcDoes i h [] { s.me with hangt := (f v (s.rdS o.a)).toNat } [] (s.me.pc + 8) s s) ∧
         (0x600 ≤ k → k ≤ 0x6FF → 13 ≤ k % 16 → CcDoes i h [] s.me [] (s.me.pc + 8) s s) ∧
         (0x600 ≤ k → k % 16 ≠ 0 → k % 16 < 13 → RaisesIllegal i h s) ∧
         (0x600 ≤ k → k ≤ 0x6FF → k % 16 = 0 → CcDoes i h [] s.me [] (s.me.pc + 8) (s.turnPort ((k - 0x600) / 16) fun p => p.setCtl (f v (s.rdS o.a))) s))
     (CcMay s h [] [] 0 →
       (priv → Raises (.rdsr h o) h 0x14 (Instr.rdsr h o).word s) ∧
       (¬priv → s.sysReg s.cur k = none → RaisesIllegal (.rdsr h o) h s) ∧
       (∀ v, ¬priv → s.sysReg s.cur k = some v → Computes (.rdsr h o) h o.d v s)) ∧
     (CcMay s h [(o.a, o.la)] [] 0 →
       puts (.wrsr h o) (fun _ a => a) ∧ puts (.setsr h o) (fun v a => v ||| a) ∧ puts (.clrsr h o) (fun v a => v &&& ~~~a))) ∧
  ((∀ s : State,
     let c := s.me
     s.sysReg s.cur 0 = some c.tvec ∧ s.sysReg s.cur 1 = some c.tcause ∧ s.sysReg s.cur 2 = some c.tepc ∧ s.sysReg s.cur 3 = some c.tval ∧
     s.sysReg s.cur 0x11 = some (c.dbgReg.setWidth 64) ∧ s.sysReg s.cur 0x20 = some s.gts ∧ s.sysReg s.cur 0x23 = some c.cutw ∧
     s.sysReg s.cur 0x24 = some (BitVec.ofNat 64 (1024 - c.peel.length)) ∧ s.sysReg s.cur 0x30 = some (c.cid.setWidth 64) ∧
     s.sysReg s.cur 0x31 = some (c.inc.setWidth 64) ∧ s.sysReg s.cur 0x704 = some s.pgdrop ∧
     (isSup s.cur = false → s.sysReg s.cur 0x21 = some (s.ctx c.cid).horiz ∧ s.sysReg s.cur 0x22 = some (s.ctx c.cid).cuteff) ∧
     (∀ k, 4 ≤ k → k < 0x10 → s.sysReg s.cur k = none) ∧ ∀ k, 0x704 < k → s.sysReg s.cur k = none) ∧
   (∀ (c : Core) (v : Word),
     c.putSys 0 v = { c with tvec := v } ∧ c.putSys 2 v = { c with tepc := v } ∧ c.putSys 0x11 v = { c with dbgReg := v.extractLsb' 0 3 } ∧
     c.putSys 0x23 v = { c with cutw := v } ∧
     ∃ x : Word, c.putSys 1 v = { c with tcause := x } ∧ ∀ j, x.getLsbD j = if j = 12 then v.getLsbD 12 else c.tcause.getLsbD j))

/-- R148, R150: a user-class fault of a core whose handler is set and does not run vectors: TEPC takes the PC, TCAUSE the code, the engine, INH and the
ring index of the word, TVAL the value, and the PC becomes TVEC. Nothing else of the core changes but what the return needs.
R148, R152, R153: a user-class fault of a core with no handler, or in its handler (which then holds the whole core), parks the engine on a record, which
goes to the partition's buffer, or to the device's for a supervisor core; where the buffer is full, or holds back an older fault of the same source, the
fault is held (R154, R155). -/
def Obligations.TrapsAndParks : Prop :=
  (∀ (s : State) (n : Nat) (eng : Eng) (code : BitVec 8) (val e : Word) (before : Bool) (slot : BitVec 16),
     let c := s.core n
     faultClass code = 0 → ¬(code = 0x14 ∧ isSup n = true) → c.tvec ≠ 0 → tcInh c.tcause = false → c.ccWait = none →
     (isSup n = true ∨ ∃ k, c.task = some k ∧ k.ended = false ∧ (s.ctx c.cid).st = .live) →
     let t := s.raise n eng code val e before slot
     t = { s with cores := t.cores } ∧ (∀ m, m ≠ n → t.core m = s.core m) ∧
     let c' := t.core n
     c' = { c with pc := c.tvec, tepc := c.pc, tval := val, tcause := c'.tcause, capture := some s.cycle, trapE := e, trapBefore := before,
                   trapSlot := slot, trapLast := c.cc.elast, fetched := [], savedWait := none } ∧
     c'.tcause.extractLsb' 0 8 = code ∧ c'.tcause.extractLsb' 8 3 = BitVec.ofNat 3 eng.num ∧ c'.tcause.getLsbD 11 = true ∧ c'.tcause.getLsbD 12 = false ∧
     c'.tcause.extractLsb' 16 12 = (if eng = .cc then 0 else BitVec.ofNat 12 (slot.toNat % 2 ^ (c.eng eng).ring.size.toNat))) ∧
  (∀ (s : State) (n : Nat) (eng : Eng) (code : BitVec 8) (val e : Word) (before : Bool) (slot : BitVec 16),
     let c := s.core n
     let pid : BitVec 7 := if isSup n then 0 else (s.ctx c.cid).pid
     faultClass code = 0 → ¬(code = 0x14 ∧ isSup n = true) → c.tvec = 0 ∨ tcInh c.tcause = true →
     let t := s.raise n eng code val e before slot
     ∃ r : FRec, r.code = code ∧ r.eng = BitVec.ofNat 3 eng.num ∧ r.cid = c.cid ∧ r.inc = c.inc ∧ r.gts = s.gts ∧ r.crd = e ∧ r.val = val ∧ r.park = true ∧
       r.cls = 0 ∧ (eng = .cc → r.pc = c.pc) ∧
       t = { s.record pid r n true with cores := t.cores } ∧ (∀ m, m ≠ n → t.core m = s.core m) ∧
       ∃ p : Park, t.core n = c.setEng eng { c.eng eng with park := some p } ∧ p.frec = r ∧ p.before = before ∧ p.pid = pid.toNat ∧
         p.idx = s.prod pid ∧ p.held = s.mustHold pid r ∧ p.core = tcInh c.tcause)

/-- R149, R351: TRAP and BRK retire, with their signal, and raise TRAP (0x15) or BRK (0x16) with IMM12, after. TRET with INH = 1 goes back to TEPC and
clears INH; with SKIP a "before" word of the control core is passed; with INH = 0 it raises ILLEGAL. -/
def Obligations.TrapWords : Prop :=
  ∀ (h : Hdr) (o : SY) (s : State), CcMay s h [] [] 0 →
    let traps (i : Instr) (code : BitVec 8) : Prop :=
      ∃ u : State, CcRan s u h [] s.me [] (s.me.pc + 8) s ∧ (u.core s.cur).s = s.me.s ∧
        exec i s = .next (u.raise s.cur .cc code (o.imm.setWidth 64) (s.ccCrd h [] 0) false 0)
    let eng := engOfNum (s.me.tcause.extractLsb' 8 3).toNat
    let skip := s.me.trapBefore && s.me.tcause.getLsbD 12
    let back := { s.me.reinject s.cycle with tcause := s.me.tcause &&& ~~~(1#64 <<< 11), savedWait := none }
    traps (.trap h o) 0x15 ∧ traps (.brk h o) 0x16 ∧
    (s.me.tcause.getLsbD 11 = false → RaisesIllegal (.tret h o) h s) ∧
    (s.me.tcause.getLsbD 11 = true → s.me.savedWait = none → ¬(skip = true ∧ eng ≠ .cc) →
      CcDoes (.tret h o) h [] back [] (if skip then s.me.tepc + 8 else s.me.tepc) s s) ∧
    (∀ w a, s.me.tcause.getLsbD 11 = true → s.me.savedWait = some (w, a) → skip = false →
      CcDoes (.tret h o) h [] { back with ccWait := some w, resumeAt := if s.me.tepc = a + 8 ∨ s.me.tepc = a then none else some s.me.tepc } [] a s s) ∧
    (s.me.tcause.getLsbD 11 = true → skip = true → eng ≠ .cc →
      ∃ t, exec (.tret h o) s = .next t ∧ (t.core s.cur).tcause.getLsbD 11 = false ∧ (s.me.savedWait = none → (t.core s.cur).pc = s.me.tepc))

/-- R106, R158, R166, R352: TEND waits until every engine has retired every word pushed to it, and then ends the task: its flags join the context's
word in its image header, its phaser registrations and its cache locks go, and its team and launch count it. In a handler it raises ILLEGAL. -/
def Obligations.TaskEnd : Prop :=
  (∀ (h : Hdr) (o : SY) (s : State), CcMay s h [] [] 0 → s.me.task = none ∨ tcInh s.me.tcause = true → RaisesIllegal (.tend h o) h s) ∧
  ∀ (h : Hdr) (o : SY) (s : State) (k : Task), s.me.task = some k → tcInh s.me.tcause = false →
    let ended (z : Option EndSnap) : Core :=
      { s.me with task := some { k with ended := true, tending := true }, locks := [], flags := 0, endSnap := z,
                  icache := unlockRange s.me.icache 0 (2 ^ 58) }
    let s0 := ((s.orFlags k.cid s.me.flags).modLaunch k.launch fun l => l.taskEnd k).dropTaskPhasers k
    let at_ (i : Nat) := s.stage2 (s.ctx k.cid).pid ((s.ctx k.cid).img.toNat + 16 + i)
    (at_ 0 ≠ none → (∀ i, 0 < i → i < 8 → at_ i ≠ at_ 0) → (s.orFlags k.cid s.me.flags).imgFlags k.cid = s.imgFlags k.cid ||| s.me.flags) ∧
    (CcMay s h [] [] 0 → s.me.drained = true → ∃ z, CcDoes (.tend h o) h [] (ended z) [] (s.me.pc + 8) s0 s) ∧
    (CcMay s h [] [] 0 → s.me.drained = false → CcWaits (.tend h o) h { s.me with task := some { k with tending := true } } (.join [] []) s s) ∧
    (s.me.ccWait = some (.join [] []) → CcMayEnd s h → s.me.drained = true → ∃ z, CcEnds (.tend h o) h (ended z) s0 s)

/-! ### The supervisor's forms (R37, R129 to R147, R154, R197, R198, R219, R354 to R362) -/

/-- R130, R134 to R137, R145, R147, R355, R356: the context forms and the reclaim fence on a supervisor core, each with its status in D; a refused form
changes nothing but D. CTXNEW and CTXINC answer 4 and raise INC_BUSY while a fence of the incarnation is pending; CTXSAVE waits for quiescence. -/
def Obligations.SupervisorContexts : Prop :=
  (∀ (h : Hdr) (o : SY) (s : State), CcMay s h [(o.a, o.la)] [] 0 → isSup s.cur = true →
    let a := s.rdS o.a
    let cid : BitVec 12 := a.extractLsb' 0 12
    let inc : BitVec 10 := a.extractLsb' 12 10
    let c := s.ctx cid
    let ends (i : Instr) (v : Word) (s0 : State) : Prop := Answers i h o.d v s0 s
    let busy (i : Instr) (v : Word) : Prop := ∃ u, CcRan s u h [] s.me [] (s.me.pc + 8) s ∧ Wrote s.me (u.core s.cur) o.d 4 ∧
      exec i s = .next (u.raise s.cur .cc 0x18 v (s.ccCrd h [] 0) false 0)
    WithDescr (.ctxnew h o) h a 64 64 .r (fun ks =>
      let x : BitVec 512 := bitsOf 512 (ks.map s.byte)
      let n : BitVec 12 := x.extractLsb' 0 12
      let p := s.part (x.extractLsb' 12 7)
      let full := p.used = true ∧ p.maxctx ≤ (s.ctxsOf (x.extractLsb' 12 7)).length
      ((s.ctx n).st ≠ .free → ends (.ctxnew h o) 1 s) ∧
      ((s.ctx n).st = .free → full → ends (.ctxnew h o) 2 s) ∧
      ((s.ctx n).st = .free → ¬full → s.ctxBad x = true → ends (.ctxnew h o) 3 s) ∧
      ((s.ctx n).st = .free → ¬full → s.ctxBad x = false → s.fencePending n (s.ctx n).nextInc = true →
        busy (.ctxnew h o) (((s.ctx n).nextInc ++ n).setWidth 64)) ∧
      ((s.ctx n).st = .free → ¬full → s.ctxBad x = false → s.fencePending n (s.ctx n).nextInc = false → ends (.ctxnew h o) 0 (s.newCtx n x))) s ∧
    (c.held = false → ends (.ctxkill h o) 1 s ∧ ends (.ctxinc h o) 1 s) ∧
    (c.held = true → ends (.ctxkill h o) 0 (s.kill cid) ∧
      (s.fencePending cid (c.inc + 1) = true → busy (.ctxinc h o) (((c.inc + 1) ++ cid).setWidth 64)) ∧
      (s.fencePending cid (c.inc + 1) = false → ends (.ctxinc h o) 0 (s.incCtx cid))) ∧
    (c.st ≠ .stopped → ends (.ctxsave h o) 1 s) ∧
    (c.st = .stopped → s.quiescent cid = false → CcWaits (.ctxsave h o) h s.me (.ctxsave cid) s s) ∧
    (c.st = .stopped → s.quiescent cid = true → ends (.ctxsave h o) (if s.imgKey cid = none then 5 else 0) (if s.imgKey cid = none then s else s.saveCtx cid)) ∧
    (∀ v, s.loadable cid = .inr v → ends (.ctxload h o) (BitVec.ofNat 64 v) s) ∧
    (∀ m, s.loadable cid = .inl m → ends (.ctxload h o) 0 (s.loadCtx cid m)) ∧
    (o.imm.getLsbD 0 = true → ends (.rcf h o) (if s.fencePending cid inc then 0 else 1) s) ∧
    (o.imm.getLsbD 0 = false → s.live cid inc = true → ends (.rcf h o) 1 s) ∧
    (o.imm.getLsbD 0 = false → s.live cid inc = false → ends (.rcf h o) 0
      { s with fences := s.fences.map fun f => if f.cid = cid ∧ f.inc = inc then { f with asked := true } else f })) ∧
  (∀ (h : Hdr) (o : SY) (s : State) (cid : BitVec 12) (k : Nat), s.me.ccWait = some (.ctxsave cid) → isSup s.cur = true → CcMayEnd s h →
    (s.ctx cid).st = .stopped → s.quiescent cid = true → s.imgKey cid = some k →
    ∃ t, exec (.ctxsave h o) s = .next t ∧ (t.ctx cid).st = .saved ∧ (t.core s.cur).ccWait = none ∧ (o.d ≠ 0 → (t.core s.cur).s.get 0 o.d.toNat = 0))

/-- R130, R131, R134, R135, R137: a new context is LIVE under its next incarnation; a kill leaves RECLAIM, no core with a task of the context and no
launch, transfer or cached entry of it, and its fence pending; a restart leaves the context LIVE under the next incarnation and phase epoch, its descriptor unchanged. -/
def Obligations.ContextLife : Prop :=
  ∀ (s : State) (cid : BitVec 12),
    let c := s.ctx cid
    let gone (t : State) : Prop :=
      (∀ n k, isSup n = false → (t.core n).task = some k → k.cid ≠ cid) ∧ (∀ k l, t.launches.get none k = some l → l.cid ≠ cid) ∧
      (∃ f ∈ t.fences, f.cid = cid ∧ f.inc = c.inc ∧ f.left = s.gts ∧ f.asked = false) ∧ (t.ctx cid).horiz = 0 ∧
      (∀ u ∈ t.ueOps, ¬(u.held.cid = cid ∧ u.held.inc = c.inc)) ∧ (∀ n, ∀ x ∈ (t.core n).ttc, x.cid ≠ cid) ∧
      ∀ m, m ≠ cid → t.ctx m = s.ctx m
    (∀ x, ((s.newCtx cid x).ctx cid).st = .live ∧ ((s.newCtx cid x).ctx cid).inc = c.nextInc ∧ ((s.newCtx cid x).ctx cid).pid = x.extractLsb' 12 7 ∧
      ((s.newCtx cid x).ctx cid).horiz = 0 ∧ ((s.newCtx cid x).ctx cid).stop = none) ∧
    gone (s.kill cid) ∧ ((s.kill cid).ctx cid).st = .reclaim ∧ ((s.kill cid).ctx cid).inc = c.inc ∧
    gone (s.incCtx cid) ∧
    (let d := (s.incCtx cid).ctx cid
     d.st = .live ∧ d.inc = c.inc + 1 ∧ d.epoch = c.epoch + 1 ∧ d.pid = c.pid ∧ d.wins = c.wins ∧ d.ttab = c.ttab ∧ d.launchCtr = c.launchCtr ∧ d.stop = none)

/-- R140 to R144, R197, R198, R357 to R359: the partition, segment-table, slice and budget forms, each refused with its status or taking effect. -/
def Obligations.SupervisorPartitions : Prop :=
  ∀ (h : Hdr) (o : SY) (s : State), CcMay s h [(o.a, o.la)] [] 0 → isSup s.cur = true →
    let a := s.rdS o.a
    let pid : BitVec 7 := o.sel.extractLsb' 0 7
    let ends (i : Instr) (v : Word) (s0 : State) : Prop := Answers i h o.d v s0 s
    WithDescr (.pcreate h o) h a 128 128 .r (fun ks =>
      let x : BitVec 1024 := bitsOf 1024 (ks.map s.byte)
      let n : BitVec 7 := x.extractLsb' 0 7
      ((s.part n).used = true → ends (.pcreate h o) 2 s) ∧
      ((s.part n).used = false → s.partBad n x = true → ends (.pcreate h o) 3 s) ∧
      ((s.part n).used = false → s.partBad n x = false → ends (.pcreate h o) 0 (s.setPart n (Part.ofBits x)))) s ∧
    WithDescr (.psetq h o) h a 32 32 .r (fun ks =>
      let x : BitVec 256 := bitsOf 256 (ks.map s.byte)
      let n : BitVec 7 := x.extractLsb' 0 7
      let bad := (s.part n).used = false
      (bad → ends (.psetq h o) 3 s) ∧
      (¬bad → ∃ s0, ends (.psetq h o) 0 s0 ∧ (s0.part n).evaddr = x.extractLsb' 64 128 ∧ (s0.part n).ejob = x.extractLsb' 192 24 ∧
        (s0.part n).eproc = x.extractLsb' 216 32 ∧
        ∀ q, q < 4 → (s0.queue n.toNat q).en = x.getLsbD (8 + q) ∧ (s0.queue n.toNat q).cur = (s.queue n.toNat q).cur ∧
          (x.getLsbD (8 + q) = false → (s0.queue n.toNat q).pend = [] ∧ ((s.queue n.toNat q).cur ≠ none → (s0.queue n.toNat q).closing = true)))) s ∧
    ((s.part pid).used = false → ends (.pdestroy h o) 3 s) ∧
    ((s.part pid).used = true → s.children pid ≠ [] ∨ s.ctxsOf pid ≠ [] → ends (.pdestroy h o) 6 s) ∧
    ((s.part pid).used = true → s.children pid = [] → s.ctxsOf pid = [] → ends (.pdestroy h o) 0 (s.setPart pid {})) ∧
    WithDescr (.chmap h o) h a 16 16 .r (fun ks =>
      let x : BitVec 128 := bitsOf 128 (ks.map s.byte)
      let n := (x.extractLsb' 0 27).toNat
      let base : Word := x.extractLsb' 64 64
      let ok := (s.part pid).used = true ∧ s.mapOk (s.own pid) base.toNat n = true
      (ok → ends (.chmap h o) 0 (s.setPart pid { s.part pid with segn := n, segbase := base })) ∧ (¬ok → ends (.chmap h o) 3 s)) s ∧
    WithDescr (.slice h o) h a 72 8 .r (fun ks =>
      let x : BitVec 576 := bitsOf 576 (ks.map s.byte)
      let pods : BitVec 32 := x.extractLsb' 0 32
      (s.sliceBad x = true → ends (.slice h o) 3 s) ∧
      (s.sliceBad x = false → ∃ l, ends (.slice h o) 0 { s with slices := s.slices.filter (fun t => t.pods != pods) ++ l } ∧
        ((x.extractLsb' 32 4).toNat = 0 → l = []) ∧
        ((x.extractLsb' 32 4).toNat ≠ 0 → ∃ t, l = [t] ∧ t.pods = pods ∧ t.cur = 0 ∧ t.started = s.gts ∧ t.ents.length = (x.extractLsb' 32 4).toNat ∧
          ∀ i, i < t.ents.length → t.ents.getD i (0, 0) = (x.extractLsb' (64 * (i + 1)) 7, (x.extractLsb' (64 * (i + 1) + 8) 8).toNat)))) s ∧
    (let b : BitVec 32 := a.extractLsb' 0 32
     let ok := (s.part pid).used = true ∧ s.budgetOk pid b = true
     (ok → ends (.sbudget h o) 0 (s.setPart pid { s.part pid with nextBudget := some b })) ∧ (¬ok → ends (.sbudget h o) 3 s))

/-- R148, R154, R219, R360: FBPOP and PGPOP copy the oldest device fault record or page request to memory and remove it; FBREL raises held faults
again; FBACT lets a parked engine go on, or with A[40] passes a "before" word.
R51, R52, R361, R362: FRZ freezes the device; CAPRD reads an instrument register; SLEEP is refused while a core holds a task, a queue a list, or a
request is outstanding, and else loses all but what retention keeps; WFE waits for a cause, and returns and clears them all. -/
def Obligations.SupervisorBuffersPower : Prop :=
  (∀ (h : Hdr) (o : SY) (s : State), CcMay s h [(o.a, o.la)] [] 0 → isSup s.cur = true →
     let a := s.rdS o.a
     let pid : BitVec 7 := o.sel.extractLsb' 0 7
     let ends (i : Instr) (v : Word) (s0 : State) : Prop := Answers i h o.d v s0 s
     WithDescr (.fbpop h o) h a 128 128 .w (fun ks =>
       (s.prod 0 = s.cons 0 → ends (.fbpop h o) 0 s) ∧
       (∀ src, s.prod 0 ≠ s.cons 0 → s.fbufKeys 0 (4096 + 128 * ((s.cons 0).toNat % 256)) 128 = some src →
         ends (.fbpop h o) 1 ((s.writeBytes (ks.zip (src.map s.byte))).fbufPut 0 8 (leBytes (s.cons 0 + 1).toNat 4)))) s ∧
     WithDescr (.pgpop h o) h a 32 32 .w (fun ks =>
       (s.pgq = [] → ends (.pgpop h o) 0 s) ∧
       (∀ r rs, s.pgq = r :: rs → ∃ bs : List Byte, bs.length = 32 ∧
         leNat bs = r.cid.toNat + 2 ^ 12 * r.inc.toNat + 2 ^ 22 * r.tid.toNat + 2 ^ 32 * r.tile.toNat + 2 ^ 64 * r.crd.toNat + 2 ^ 128 * r.gts.toNat +
           2 ^ 192 * r.src.toNat ∧
         ends (.pgpop h o) 1 (({ s with pgq := rs } : State).writeBytes (ks.zip bs)))) s ∧
     (let x := s.releaseHeld pid ((s.fheld pid).foldr heldInsert []) 0
      ends (.fbrel h o) (BitVec.ofNat 64 x.2.1) (if x.2.1 = 0 then s else x.1.setFheld pid x.2.2)) ∧
     (let bad := a.getLsbD 7 = true ∨ a.extractLsb' 41 23 ≠ 0
      let rec_ := s.parkedOn (a.extractLsb' 0 7).toNat (a.extractLsb' 8 32)
      (bad ∨ rec_ = none → ends (.fbact h o) 1 s) ∧
      (∀ n eng p, ¬bad → rec_ = some (n, eng, p) → ¬(n = s.cur ∧ eng = .cc) → ends (.fbact h o) 0 (s.resolve n eng p (a.getLsbD 40))))) ∧
  ((∀ (h : Hdr) (o : SY) (s : State), CcMay s h [] [] 0 →
     CcDoes (.frz h o) h [] s.me [] (s.me.pc + 8) { s with pstate := .frozen } s ∧
     (s.wfe = 0 → exec (.wfe h o) s = .next s) ∧ (s.wfe ≠ 0 → Answers (.wfe h o) h o.d (s.wfe.setWidth 64) { s with wfe := 0 } s) ∧
     (let awake := (∃ x ∈ s.cores, x.2.task ≠ none) ∨ (∃ x ∈ s.parts, ∃ q ∈ x.2.q, q.2.pend ≠ [] ∨ q.2.cur ≠ none) ∨ s.oreqs ≠ [] ∨ s.ueOps ≠ []
      (awake → Answers (.sleep h o) h o.d 1 s s) ∧
      (¬awake → ∃ t, exec (.sleep h o) s = .next t ∧ t.pstate = .lowest ∧ t.ctxs = [] ∧ t.launches = [] ∧ t.out = s.out ∧
        (∀ n, n ≠ s.cur → t.core n = {}) ∧ ∀ k, t.byte k = if s.conf.retain = true ∧ isDram k = true then s.byte k else 0))) ∧
   (∀ (h : Hdr) (o : SY) (s : State), CcMay s h [(o.a, o.la)] [] 0 →
     let r := (s.rdS o.a).toNat % 2 ^ 16
     let isl := o.sel.toNat % 2 ^ 7
     (Config.capSize isl ≤ r → RaisesIllegal (.caprd h o) h s) ∧
     (r < Config.capSize isl → Computes (.caprd h o) h o.d (Config.capReg isl r s.freeCtr) s)))

/-! ### The access sequencer (R27, R176 to R189, R363 to R381) -/

/-- R181 to R183, R373, R374: each g form gives its value of A and B, which are g registers, entries popped from sq0 and sq1, or bits popped from boq.x; the
result goes to a g register with its bound, to a data queue in 32 slots, or to boq.a. -/
def Obligations.AccessIntegers : Prop :=
  (∀ (h : Hdr) (o : RR) (s : State),
    let uns := o.c.getLsbD 1
    let less (x y : Word) : Bool := if uns then decide (x.toNat < y.toNat) else decide (x.toInt < y.toInt)
    let form (i : Instr) (f : Word → Word → Word) : Prop :=
      AccComputes i h o.q o.d [(o.a, o.la), (o.b, o.lb)] o.lat (fun v => f (v.getD 0 0) (v.getD 1 0)) s
    form (.gadd h o) (fun a b => a + b) ∧ form (.gsub h o) (fun a b => a - b) ∧ form (.gmul h o) (fun a b => BitVec.ofNat 64 (a.toNat * b.toNat)) ∧
    form (.gshl h o) (fun a b => BitVec.ofNat 64 (a.toNat * 2 ^ (b.toNat % 64))) ∧ form (.gshr h o) (fun a b => BitVec.ofNat 64 (a.toNat / 2 ^ (b.toNat % 64))) ∧
    form (.gand h o) (fun a b => a &&& b) ∧ form (.gor h o) (fun a b => a ||| b) ∧
    form (.gmin h o) (fun a b => if less b a then b else a) ∧ form (.gmax h o) (fun a b => if less a b then b else a)) ∧
  (∀ (h : Hdr) (o : RRI) (s : State),
    let i := o.imm.signExtend 64
    let form (j : Instr) (f : Word → Word) : Prop := AccComputes j h o.q o.d [(o.a, o.la)] o.lat (fun v => f (v.getD 0 0)) s
    form (.gaddi h o) (fun a => a + i) ∧ form (.gandi h o) (fun a => a &&& i) ∧ form (.gshli h o) (fun a => BitVec.ofNat 64 (a.toNat * 2 ^ (o.imm.toNat % 64)))) ∧
  (∀ (h : Hdr) (o : RI) (s : State),
    AccComputes (.gmovi h o) h 0 o.d [] 0 (fun _ => o.imm.signExtend 64) s ∧
    AccComputes (.gmovhi h o) h 0 o.d [(o.a, o.la)] 0 (fun v => BitVec.ofNat 64 ((v.getD 0 0).toNat * 2 ^ 24) ||| o.imm.setWidth 64) s ∧
    AccComputes (.gcl h o) h 0 o.d [] 0 (fun _ => BitVec.ofNat 64 (lvlGet s.me.cw (o.imm.toNat % 8) s.me.acc.crd)) s) ∧
  (∀ (h : Hdr) (o : RI) (s : State) (t : Task), s.me.task = some t →
    let code := (o.imm.extractLsb' 16 8).toNat
    let arg := (o.imm.extractLsb' 0 16).toNat
    let tid : BitVec 10 := BitVec.ofNat 10 arg
    let dim := arg / 1024 % 8
    let is (v : Word) : Prop := AccComputes (.gparm h o) h 0 o.d [] 0 (fun _ => v) s
    (code = 0 → is t.taskCrd) ∧ (code = 1 → is t.teamId) ∧ (code = 2 → is (t.desc.stage.setWidth 64)) ∧ (code = 3 → is (t.launchId.setWidth 64)) ∧
    (code = 4 → is t.desc.arg) ∧ (code = 7 → is ((s.me.inc ++ s.me.cid).setWidth 64)) ∧
    (∀ d, code = 5 ∨ code = 6 → s.tdesc s.cur (s.engCrd .acc h [] 0 0) tid = some d → dim < d.rank →
      is (BitVec.ofNat 64 (if code = 5 then d.dims.getD dim 0 else 2 ^ d.tsh.getD dim 0))) ∧
    (code = 5 ∨ code = 6 → (∀ d, s.tdesc s.cur (s.engCrd .acc h [] 0 0) tid = some d → d.rank ≤ dim) →
      EngRaises (.gparm h o) .acc h 0 [] 0 0 0x08 (tid.setWidth 64) s))

/-- R181, R185 to R187, R372: LDS pushes 256 B of scratchpad, LDSB loads 8 B, and STS writes a popped vector or 8 B, at A + 32 × IMM14; until a store's
bound ends ACC reads the old bytes. A misaligned range, or one that reaches 0x70000, raises SPAD_RANGE. -/
def Obligations.AccessScratchpad : Prop :=
  ∀ (h : Hdr) (o : RRI) (s : State),
    let a := s.rdG o.a + 32 * o.imm.signExtend 64
    let inside (n al : Nat) : Prop := a.toNat % al = 0 ∧ a.toNat + n ≤ 0x70000
    let out (al : Nat) : Word := if a.toNat % al ≠ 0 then a else BitVec.ofNat 64 (Nat.max a.toNat 0x70000)
    let seen (x : Nat) : Byte := flightByte s.cycle x (s.me.spad.get 0 x) s.me.accFlight
    let reg := o.d.toNat < 32
    let len := if reg then 8 else 256
    (GReady s [o.a] → inside 256 32 → s.me.pendingAt s.cycle a.toNat 256 = none → 32 ≤ o.d.toNat → o.d.toNat < 36 → s.accRoom o.d = true →
      EngDoes (.lds h o) .acc h h o.q [] 0 0 [] (fun e _ c0 c => ∃ x : QEnt, x.e = e ∧ x.eos = false ∧ x.landed = true ∧
        (∀ j, j < 256 → x.data.extractLsb' (8 * j) 8 = seen (a.toNat + j)) ∧ FreedG s e [(o.a, o.la)] c0.deadG c.deadG ∧
        c = { c0.setQueue (o.d.toNat - 32) (c0.queue (o.d.toNat - 32) ++ [x]) with deadG := c.deadG }) (fun _ x => x) s) ∧
    (GReady s [o.a] → inside 8 8 → s.me.pendingAt s.cycle a.toNat 8 = none →
      EngDoes (.ldsb h o) .acc h { h with sig := 0 } o.q [] 0 0 [] (fun e _ c0 c =>
        let k := s.me.gIdx o.d
        (∀ j, j < 8 → (c.g.get 0 k).extractLsb' (8 * j) 8 = seen (a.toNat + j)) ∧ c.gAvail.get 0 k = s.cycle + latBound o.lat ∧ c.gWait.get false k = true ∧
        (∀ j, j ≠ k → c.g.get 0 j = c0.g.get 0 j ∧ c.gAvail.get 0 j = c0.gAvail.get 0 j ∧ c.gWait.get false j = c0.gWait.get false j) ∧
        c.deadG.get none k = none ∧
        (∀ j, j ≠ k → c.deadG.get none j = if o.la = true ∧ o.a.toNat < 32 ∧ s.me.gIdx o.a = j then some e else c0.deadG.get none j) ∧
        (∃ l : Landing, c.landQ = c0.landQ ++ [l] ∧ l.g = some k ∧ l.sig = h.sig ∧ l.e = e) ∧
        c = { c0 with g := c.g, deadG := c.deadG, gAvail := c.gAvail, gWait := c.gWait, landQ := c.landQ }) (fun _ x => x) s) ∧
    (GReady s [o.a, o.d] → inside len (if reg then 8 else 32) →
      EngDoes (.sts h o) .acc h h o.q (accPops [o.d]) 0 0 [] (fun e es c0 c =>
        let v : Vec := if reg then (s.rdG o.d).setWidth 2048 else ((es.head?.map (·.2.data)).getD 0)
        (∀ j, j < len → c.spad.get 0 (a.toNat + j) = v.extractLsb' (8 * j) 8) ∧
        (∀ x, x < a.toNat ∨ a.toNat + len ≤ x → c.spad.get 0 x = c0.spad.get 0 x) ∧
        (∃ fs : List Flight, c.accFlight = (c0.accFlight.dropWhile fun f => decide (f.avail ≤ s.cycle)) ++ fs ∧ (∀ f ∈ fs, f.avail = s.cycle + latBound o.lat) ∧
          ∀ j, j < len → ∃ f ∈ fs, f.addr ≤ a.toNat + j ∧ a.toNat + j < f.addr + f.len ∧
            f.old.extractLsb' (8 * (a.toNat + j - f.addr)) 8 = c0.spad.get 0 (a.toNat + j)) ∧
        FreedG s e [(o.a, o.la)] c0.deadG c.deadG ∧ (s.me.dbgReg.getLsbD 0 = false → c.pendBits = c0.pendBits) ∧
        c = { c0 with spad := c.spad, accFlight := c.accFlight, pendBits := c.pendBits, deadG := c.deadG }) (fun _ x => x) s) ∧
    (GReady s [o.a] → ¬inside 256 32 → EngRaises (.lds h o) .acc h o.q [] 0 0 0x05 (out 32) s) ∧
    (GReady s [o.a] → ¬inside 8 8 → EngRaises (.ldsb h o) .acc h o.q [] 0 0 0x05 (out 8) s) ∧
    (GReady s [o.a, o.d] → ¬inside len (if reg then 8 else 32) → EngRaises (.sts h o) .acc h o.q (accPops [o.d]) 0 0 0x05 (out (if reg then 8 else 32)) s)

/-- R176, R204, R205, R218, R369 to R371: LDT, LDTR and GATH resolve the tiles of the 256 bytes that they name and push an entry whose bytes land later
from those places, once the acquires and fences before the word have been performed (R228, R230); LDTR marks the elements of absent tiles, where the others raise NRES. A vector or lane outside the tensor raises
TENSOR_BOUNDS. Of an unphased tensor no byte of memory changes. -/
def Obligations.TensorLoads : Prop :=
  ∀ (h : Hdr) (o : TN) (s : State),
    let q := o.x.toNat - 32
    let guard : BitVec 4 := o.q.extractLsb' 0 4
    let loads (i : Instr) (pops : List Nat) (d : TDesc) (bs : List (Option TByte)) (absentOk : Bool) (flags : List (Nat × Option (BitVec 36)) → Pred) : Prop :=
      ∀ es c', EngMay s .acc h guard pops 0 0 es c' →
        let e := s.engCrd .acc h es 0 0
        (∀ src runs u, s.tensorRead s.cur .acc e d o.tid absentOk bs = .ok src runs u → u.me.peel.length + 24 ≤ 1024 →
          ∃ (t : State) (y : QEnt) (l : Landing), exec i s = .next t ∧
            (t.core s.cur).queue q = c'.queue q ++ [y] ∧ y.e = e ∧ y.eos = false ∧ y.landed = false ∧ y.src = src ∧ y.fmt = BitVec.ofNat 5 d.fmt ∧
            y.flags = flags runs ∧ (t.core s.cur).landQ = s.me.landQ ++ [l] ∧ l.queue = some (q, y.id) ∧ l.sig = h.sig ∧ l.e = e ∧
            l.after = s.engAfter .acc h ∧ (∀ k, k < 6 → k ≠ q → (t.core s.cur).queue k = c'.queue k) ∧ (t.core s.cur).g = s.me.g ∧ (t.core s.cur).spad = s.me.spad ∧
            (t.core s.cur).acc.elast = e ∧ (d.phased = false → t.mem = s.mem)) ∧
        (∀ code val, s.tensorRead s.cur .acc e d o.tid absentOk bs = .stop (.fault code val) →
          exec i s = .next (s.raise s.cur .acc code val e true s.me.acc.ring.head))
    32 ≤ o.x.toNat → o.x.toNat < 36 → s.accRoom o.x = true →
    (∀ d x, s.accRow (s.engCrd .acc h [] 0 0) (Instr.ldt h o).word o = .inl (d, x) → loads (.ldt h o) [] d (d.row x) false fun _ => 0) ∧
    (∀ d x, s.accRow (s.engCrd .acc h [] 0 0) (Instr.ldtr h o).word o = .inl (d, x) →
      loads (.ldtr h o) [] d (d.row x) true fun runs => residency runs (d.rowTiles x)) ∧
    (∀ code val, s.accRow (s.engCrd .acc h [] 0 0) (Instr.ldt h o).word o = .inr (.fault code val) → EngRaises (.ldt h o) .acc h guard [] 0 0 code val s) ∧
    (∀ es c', EngMay s .acc h guard [idxQueue o] 0 0 es c' → ∀ d x dim, s.accIndexed (s.engCrd .acc h es 0 0) (Instr.gath h o).word o = .inl (d, x, dim) →
      (∀ bs, d.indexed x dim (s.idxHead o) = some bs → loads (.gath h o) [idxQueue o] d bs.flatten false fun _ => 0) ∧
      (d.indexed x dim (s.idxHead o) = none →
        exec (.gath h o) s = .next (s.raise s.cur .acc 0x08 (o.tid.setWidth 64) (s.engCrd .acc h es 0 0) true s.me.acc.ring.head)))

/-- R208, R257, R258, R369, R371: STT and SCAT write the popped vector's bytes. On an unphased tensor they enter the egress hold and no byte of memory
changes; on a phased one they go to the shadow run at once, when the acquires and fences before them have been performed (R228, R230). A write that the tile or the tensor refuses raises that fault. -/
def Obligations.TensorStores : Prop :=
  ∀ (h : Hdr) (o : TN) (s : State), isSup s.cur = false →
    let guard : BitVec 4 := o.q.extractLsb' 0 4
    let stores (i : Instr) (pops : List Nat) (d : TDesc) (cells : Vec → List TCell) (data : List (Nat × QEnt) → Vec) : Prop :=
      ∀ es c', EngMay s .acc h guard pops 0 0 es c' →
        let e := s.engCrd .acc h es 0 0
        (∀ u, s.tensorWrite s.cur .acc e d o.tid (cells 0) = .held u →
          ∃ (t : State) (y : Held), exec i s = .next t ∧ (t.core s.cur).hold = s.me.hold ++ [y] ∧ y.act = .twrite o.tid (cells (data es)) ∧ y.e = e ∧ y.eng = .acc ∧
            y.after = s.engAfter .acc h ∧ y.core = s.cur ∧ y.cid = s.me.cid ∧ y.inc = s.me.inc ∧ y.sig = 0 ∧ t.mem = s.mem ∧ (t.core s.cur).g = s.me.g ∧ (t.core s.cur).spad = s.me.spad ∧
            (∀ k, k < 6 → (t.core s.cur).queue k = c'.queue k) ∧ (t.core s.cur).acc.elast = e) ∧
        (∀ u, s.tensorWrite s.cur .acc e d o.tid (cells (data es)) = .done u → u.me.peel.length + 24 ≤ 1024 → s.clear (s.engAfter .acc h) = true →
          (∀ l ∈ s.me.landQ, l.id < s.nextId) →
          ∃ t : State, exec i s = .next t ∧ t.mem = u.mem ∧ (t.core s.cur).hold = s.me.hold ∧ (t.core s.cur).g = s.me.g ∧ (t.core s.cur).spad = s.me.spad ∧
            (∀ k, k < 6 → (t.core s.cur).queue k = c'.queue k) ∧ (t.core s.cur).acc.elast = e) ∧
        (∀ code val, s.tensorWrite s.cur .acc e d o.tid (cells 0) = .fault code val → exec i s = .next (s.raise s.cur .acc code val e true s.me.acc.ring.head)) ∧
        (∀ k, s.tensorWrite s.cur .acc e d o.tid (cells 0) = .absent k →
          exec i s = .next (s.raise s.cur .acc 0x09 (BitVec.ofNat 64 (o.tid.toNat + 2 ^ 10 * k)) e true s.me.acc.ring.head))
    (∀ es c' d x, EngMay s .acc h guard (accPops [o.x]) 0 0 es c' → s.accRow (s.engCrd .acc h es 0 0) (Instr.stt h o).word o = .inl (d, x) →
      stores (.stt h o) (accPops [o.x]) d (rowCells (d.row x)) fun es => (es.head?.map (·.2.data)).getD 0) ∧
    (∀ es c' d x dim bs, EngMay s .acc h guard (idxQueue o :: accPops [o.x]) 0 0 es c' →
      s.accIndexed (s.engCrd .acc h es 0 0) (Instr.scat h o).word o = .inl (d, x, dim) → d.indexed x dim (s.idxHead o) = some bs →
      stores (.scat h o) (idxQueue o :: accPops [o.x]) d (rowCells bs.flatten) fun es => (es.getD 1 (0, {})).2.data)

/-- R27, R177 to R179, R375 to R377: LOOP on ACC starts a loop behind itself, its level bound from its present value; with count 0 its body is passed over.
SLOOP starts the stream loop of a queue. BPUSH pushes bit 0 of A to boq.a; BSKIP pops a bit of boq.x, and passes over IMM14 words if it is 1. A loop that
R178 forbids, and a skip past the body or the ring, raise ILLEGAL.
R189, R378 to R381: CBACQ takes a filled slot of a buffer and writes its address to a g register; CBREL returns it. SETCL and INCCL set a level of ACC's
coordinate, zeroing the lower ones. DQFLUSH empties a queue once the horizon has reached it; DQEOS appends an end-of-stream token. PGREQ
posts a page request. Each raises ILLEGAL or TENSOR_BOUNDS where its rule says so. -/
def Obligations.AccessSequence : Prop :=
  ((∀ (h : Hdr) (fx : BitVec 3) (o : RI) (s : State),
     let reg := o.imm.getLsbD 22
     let count := if reg then (s.rdG o.a).toNat else (o.imm.extractLsb' 0 16).toNat
     let stages := (o.imm.extractLsb' 16 3).toNat + 1
     let epi := (o.imm.extractLsb' 19 3).toNat
     let len := o.d.toNat + 1
     let lvl := fx.toNat
     let x := s.me.acc
     let v := lvlGet s.me.cw lvl x.crd
     let legal := count ≤ 65535 ∧ epi < stages ∧ lvl ≤ 5 ∧
       (match x.loops with
        | [] => True
        | [l] => l.sloop = false ∧ l.stages = 1 ∧ l.epi = 0 ∧ (x.ring.head + 1 + BitVec.ofNat 16 len - l.start).toNat ≤ l.len
        | _ => False) ∧
       (lvl = 0 ∨ lvlWidth s.me.cw lvl ≠ 0 ∧ v + (count + epi) < 2 ^ lvlWidth s.me.cw lvl)
     (reg = true → GReady s [o.a]) →
     (legal → (count = 0 → len < (x.ring.tail - x.ring.head).toNat) →
       EngDoes (.loopAcc h fx o) .acc h h 0 [] 0 0 [] (fun e _ c0 c => FreedG s e [(o.a, o.la)] c0.deadG c.deadG ∧ c = { c0 with deadG := c.deadG })
         (fun _ y => if count = 0 then { y with ring := { y.ring with head := y.ring.head + BitVec.ofNat 16 len } } else
           { y with sp := 1, crd := if lvl = 0 then y.crd else lvlSet s.me.cw lvl y.crd v
                    loops := { start := y.ring.head + 1, len := len, lvl := lvl, lvl0 := v, count := count, stages := stages, epi := epi } :: y.loops }) s) ∧
     (¬legal → EngRaises (.loopAcc h fx o) .acc h 0 [] 0 0 0x01 (Instr.loopAcc h fx o).word s)) ∧
   (∀ (h : Hdr) (fx : BitVec 1) (o : RI) (s : State),
     (s.me.acc.loops = [] → EngDoes (.sloop h fx o) .acc h h 0 [] 0 0 [] (fun _ _ c0 c => c = c0)
       (fun _ y => { y with sp := 1, loops := [{ sloop := true, sq := fx.toNat, start := y.ring.head + 1, len := o.d.toNat + 1, count := 1 }] }) s) ∧
     (s.me.acc.loops ≠ [] → EngRaises (.sloop h fx o) .acc h 0 [] 0 0 0x01 (Instr.sloop h fx o).word s)) ∧
   (∀ (h : Hdr) (o : RRI) (s : State),
     let n := o.imm.toNat
     let left := (s.me.acc.ring.tail - (s.me.acc.ring.head + 1)).toNat
     let room := match s.me.acc.loops with | [] => left | l :: _ => min left (l.start + BitVec.ofNat 16 l.len - (s.me.acc.ring.head + 1)).toNat
     let one := (s.me.boqX.head?.map (·.bit)).getD false
     (GReady s [o.a] → s.me.boqA.length < 64 → EngDoes (.bpushAcc h o) .acc h h o.q [] 0 0 []
       (fun e _ c0 c => FreedG s e [(o.a, o.la)] c0.deadG c.deadG ∧
         c = { c0 with deadG := c.deadG, boqA := c0.boqA ++ [{ bit := (s.rdG o.a).getLsbD 0, e := e }] }) (fun _ y => y) s) ∧
     (one = false ∨ n ≤ room → EngDoes (.bskipAcc h o) .acc h h o.q [] 1 0 [] (fun _ _ c0 c => c = c0)
       (fun _ y => if one = true then { y with skip := n } else y) s) ∧
     (one = true → room < n → EngRaises (.bskipAcc h o) .acc h o.q [] 1 0 0x01 (Instr.bskipAcc h o).word s))) ∧
  ((∀ (h : Hdr) (o : RRI) (s : State),
     let i := (o.imm.extractLsb' 0 5).toNat
     let lvl := (o.imm.extractLsb' 0 3).toNat
     let q := (o.imm.extractLsb' 0 3).toNat
     let a := (if o.d = 1 then (s.rdG o.a).toNat else 0) + (o.imm.extractLsb' 3 11).toNat
     let level (j : Instr) (v : Nat) : Prop :=
       let ok := lvl ≤ 5 ∧ lvlWidth s.me.cw lvl ≠ 0 ∧ v < 2 ^ lvlWidth s.me.cw lvl
       (o.d = 1 → GReady s [o.a]) →
       (ok → EngDoes j .acc h h o.q [] 0 0 [] (fun e _ c0 c => FreedG s e [(o.a, o.la)] c0.deadG c.deadG ∧ c = { c0 with deadG := c.deadG })
         (fun _ y => { y with crd := lvlSet s.me.cw lvl y.crd v }) s) ∧
       (¬ok → EngRaises j .acc h o.q [] 0 0 0x01 j.word s)
     (∀ b, s.me.cbs.get none i = some b →
       let base := (b.w0.extractLsb' 0 19).toNat
       let size := 32 * ((b.w0.extractLsb' 19 11).toNat + 1)
       let n := (b.w0.extractLsb' 30 8).toNat + 1
       (b.filled ≠ 0 → o.d.toNat < 32 → EngDoes (.cbacq h o) .acc h h o.q [] 0 b.tag [] (fun e _ c0 c =>
         GDest s { c0 with cbs := c0.cbs.set none i (some { b with filled := b.filled - 1, acquired := b.acquired + 1, ridx := (b.ridx + 1) % n }) } c o.d e
           (BitVec.ofNat 64 (base + size * b.ridx)) o.lat []) (fun _ y => y) s) ∧
       (b.acquired ≠ 0 → EngDoes (.cbrel h o) .acc h h o.q [] 0 0 [] (fun _ _ c0 c =>
         c = { c0 with cbs := c0.cbs.set none i (some { b with acquired := b.acquired - 1, free := b.free + 1 }) }) (fun _ y => y) s) ∧
       (b.acquired = 0 → EngRaises (.cbrel h o) .acc h o.q [] 0 0 0x01 (Instr.cbrel h o).word s)) ∧
     (s.me.cbs.get none i = none → EngRaises (.cbacq h o) .acc h o.q [] 0 0 0x01 (Instr.cbacq h o).word s ∧
       EngRaises (.cbrel h o) .acc h o.q [] 0 0 0x01 (Instr.cbrel h o).word s) ∧
     level (.setclAcc h o) a ∧ level (.incclAcc h o) (lvlGet s.me.cw lvl s.me.acc.crd + a) ∧
     ((s.engCrd .acc h [] 0 0).toNat ≤ (s.horizonOf s.cur).toNat → EngDoes (.dqflush h o) .acc h h o.q [] 0 0 [] (fun _ _ c0 c =>
       c = { c0.setQueue q [] with landQ := c0.landQ.map fun l => if l.queue.map (·.1) = some q then { l with queue := none } else l }) (fun _ y => y) s) ∧
     ((s.me.queue q).length < 16 → EngDoes (.dqeos h o) .acc h h o.q [] 0 0 [] (fun e _ c0 c =>
       c = c0.setQueue q (c0.queue q ++ [{ eos := true, e := e, id := s.nextId }])) (fun _ y => y) s)) ∧
   (∀ (h : Hdr) (o : TN) (s : State),
     let guard : BitVec 4 := o.q.extractLsb' 0 4
     let e := s.engCrd .acc h [] 0 0
     let x (d : TDesc) : List Nat := (List.range d.rank).map fun i => (s.rdG (o.g + BitVec.ofNat 6 i)).toNat
     let ready (d : TDesc) : Prop := GReady s ((List.range d.rank).map fun i => o.g + BitVec.ofNat 6 i)
     let bad := EngRaises (.pgreqAcc h o) .acc h guard [] 0 0 0x08 (o.tid.setWidth 64) s
     (s.tdesc s.cur e o.tid = none → bad) ∧
     (∀ d, s.tdesc s.cur e o.tid = some d →
       (32 < o.g.toNat + d.rank → bad) ∧ (o.g.toNat + d.rank ≤ 32 → ready d → d.locate (x d) = none → bad) ∧
       (∀ tile off, o.g.toNat + d.rank ≤ 32 → ready d → d.locate (x d) = some (tile, off) →
         let r : PgRec := { cid := s.me.cid, inc := s.me.inc, tid := o.tid, tile := BitVec.ofNat 24 tile, crd := e, gts := s.gts, src := s.src s.cur }
         let same := ∃ p ∈ s.pgq, p.cid = r.cid ∧ p.inc = r.inc ∧ p.tid = r.tid ∧ p.tile = r.tile
         let does (s0 : State) : Prop := ∀ es c', EngMay s .acc h guard [] 0 0 es c' →
           ∃ t, exec (.pgreqAcc h o) s = .next t ∧ EngRan s t .acc h e s.me [] (fun y => y) s0
         (same → does s) ∧ (¬same → s.pgq.length < 256 → does { s with pgq := s.pgq ++ [r], wfe := s.wfe ||| 4 }) ∧
         (¬same → 256 ≤ s.pgq.length → does { s with pgdrop := if s.pgdrop = BitVec.allOnes 64 then s.pgdrop else s.pgdrop + 1 })))))

/-! ### The execute sequencer (R363 to R413) -/

/-- R271 to R283, R292, R363, R366, R382, R385: each floating form gives, lane by lane, the exact result of its operands rounded once to the type T, in the
mode of the word where the form has one, and raises the flags of both; VABS and VNEG act on the sign bit alone. -/
def Obligations.VectorFloats : Prop :=
  ∀ (h : Hdr) (o : RR) (s : State),
    let rm := (o.c.extractLsb' 3 3).toNat
    let sat := o.c.getLsbD 2
    let one := [(o.a, o.la)]
    let two := [(o.a, o.la), (o.b, o.lb)]
    let three := [(o.a, o.la), (o.b, o.lb), (o.c, o.lc)]
    let lanes (i : Instr) (vs : List (BitVec 6 × Bool)) (w : Nat) (g : Word → List Vec → Nat → Nat × Flags) : Prop :=
      ExeComputes i h o.q o.lat { vs := vs, d := o.d } (fun e xs fs => LaneRes s.me o.d e w (g e xs) fs) s
    let form (i : Instr) (fx : BitVec 2) (vs : List (BitVec 6 × Bool)) (mode : Nat) (sat : Bool) (g : Val → Val → Val → Val × Flags) : Prop :=
      let F := fmtOf fx.toNat
      let w := if fx = 0 then 4 else 2
      lanes i vs w fun e xs l =>
        let r := g (F.decode (vLane (xs.getD 0 0) w l)) (F.decode (vLane (xs.getD 1 0) w l)) (F.decode (vLane (xs.getD 2 0) w l))
        let c := F.encode (rmAt mode sat s.me.seed e l) r.1
        (c.1, r.2 ||| c.2)
    (∀ fx : BitVec 2,
      form (.vadd h fx o) fx two rm sat (fun a b _ => vadd rm a b) ∧ form (.vsub h fx o) fx two rm sat (fun a b _ => vsub rm a b) ∧
      form (.vmul h fx o) fx two rm sat (fun a b _ => vmul a b) ∧
      form (.vmin h fx o) fx two 0 false (fun a b _ => vminmax false a b) ∧ form (.vmax h fx o) fx two 0 false (fun a b _ => vminmax true a b) ∧
      form (.vfma h fx o) fx three 0 false (fun a b c => vfma 0 false false a b c) ∧
      form (.vfms h fx o) fx three 0 false (fun a b c => vfma 0 false true a b c) ∧
      form (.vfnma h fx o) fx three 0 false (fun a b c => vfma 0 true false a b c) ∧
      form (.vdiv h fx o) fx two rm sat (fun a b _ => vdiv a b) ∧ form (.vsqrt h fx o) fx one rm sat (fun a _ _ => vsqrt a) ∧
      form (.vrcp h fx o) fx one rm sat (fun a _ _ => vdiv (.fin false 1 1) a) ∧ form (.vrsq h fx o) fx one rm sat (fun a _ _ => vrsq a) ∧
      (let w := if fx = 0 then 4 else 2
       let sign := 2 ^ (8 * w - 1)
       fx.toNat < 3 → lanes (.vabs h fx o) one w (fun _ xs l => (vLane (xs.getD 0 0) w l % sign, 0)) ∧
         lanes (.vneg h fx o) one w (fun _ xs l => ((vLane (xs.getD 0 0) w l + sign) % (2 * sign), 0)))) ∧
    form (.vexp2 h o) 0 one 0 false (fun a _ _ => vexp2 a) ∧ form (.vlog2 h o) 0 one 0 false (fun a _ _ => vlog2 a) ∧
    lanes (.vtanh h o) one 4 (fun _ xs l => tanh32 (vLane (xs.getD 0 0) 4 l))

/-- R363, R383, R384, R386: each integer form gives its value of signed lanes, or with .n unsigned ones, modulo the width, or clamped with SAT under
.sat; VDOT4 adds four signed products of bytes and VDOT2 two BF16 products, rounded once; VCMP and VICMP give a predicate. -/
def Obligations.VectorIntegers : Prop :=
  ∀ (h : Hdr) (o : RR) (s : State),
    let uns := o.c.getLsbD 1
    let sat := o.c.getLsbD 2
    let width (k : Nat) : Nat := if k = 0 then 4 else if k = 1 then 2 else 1
    let num (u : Bool) (b x : Nat) : Int := if u = false ∧ 2 ^ (b - 1) ≤ x then (x : Int) - 2 ^ b else x
    let low (b : Nat) (x : Int) : Nat := (x % (2 ^ b : Int)).toNat
    let least (b : Nat) : Int := if uns then 0 else -(2 ^ (b - 1) : Int)
    let most (b : Nat) : Int := if uns then 2 ^ b - 1 else 2 ^ (b - 1) - 1
    let fit (b : Nat) (x : Int) : Nat × Flags :=
      if sat ∧ x < least b then (low b (least b), 0x20) else if sat ∧ most b < x then (low b (most b), 0x20) else (low b x, 0)
    let two := [(o.a, o.la), (o.b, o.lb)]
    let form (fx : BitVec 2) (i : Instr) (g : Nat → Nat → Nat → Nat × Flags) : Prop :=
      let w := width fx.toNat
      ExeComputes i h o.q o.lat { vs := two, d := o.d } (fun e xs fs =>
        LaneRes s.me o.d e w (fun l => g (8 * w) (vLane (xs.getD 0 0) w l) (vLane (xs.getD 1 0) w l)) fs) s
    let dot (i : Instr) (g : Nat → Nat → Nat → Nat × Flags) : Prop :=
      ExeComputes i h o.q o.lat { vs := two ++ [(o.c, o.lc)], d := o.d } (fun e xs fs =>
        LaneRes s.me o.d e 4 (fun l => g (vLane (xs.getD 0 0) 4 l) (vLane (xs.getD 1 0) 4 l) (vLane (xs.getD 2 0) 4 l)) fs) s
    let cmp (i : Instr) (w : Nat) (g : Nat → Nat → Bool × Flags) : Prop :=
      ExeComputes i h o.q o.lat { vs := two } (fun _ xs fs => ∃ (x : Pred) (f : Flags), fs = [.p o.d.toNat x, .flags f] ∧
        (∀ j, j < 256 → x.getLsbD j = (g (vLane (xs.getD 0 0) w (j / w)) (vLane (xs.getD 1 0) w (j / w))).1) ∧
        ∀ b, f.getLsbD b = true ↔ ∃ l, l < 256 / w ∧ (g (vLane (xs.getD 0 0) w l) (vLane (xs.getD 1 0) w l)).2.getLsbD b = true) s
    let cond (k : Nat) (x : Int) : Bool :=
      decide (if k = 0 then x = 0 else if k = 1 then x ≠ 0 else if k = 2 then x < 0 else if k = 3 then x ≤ 0 else if k = 4 then 0 < x else 0 ≤ x)
    (∀ fx : BitVec 2,
      form fx (.viadd h fx o) (fun b x y => fit b (num uns b x + num uns b y)) ∧ form fx (.visub h fx o) (fun b x y => fit b (num uns b x - num uns b y)) ∧
      form fx (.vimul h fx o) (fun b x y => fit b (num uns b x * num uns b y)) ∧
      form fx (.vshl h fx o) (fun b x y => (x * 2 ^ (y % b), 0)) ∧ form fx (.vshr h fx o) (fun b x y => (low b (num uns b x / 2 ^ (y % b)), 0)) ∧
      form fx (.vand h fx o) (fun _ x y => (x &&& y, 0)) ∧ form fx (.vor h fx o) (fun _ x y => (x ||| y, 0)) ∧
      form fx (.vxor h fx o) (fun _ x y => (x ^^^ y, 0))) ∧
    dot (.vdot4 h o) (fun a b c =>
      let p (j : Nat) : Int := num false 8 (a / 2 ^ (8 * j) % 256) * num false 8 (b / 2 ^ (8 * j) % 256)
      (low 32 (c + p 0 + p 1 + p 2 + p 3), 0)) ∧
    dot (.vdot2 h o) (fun a b c =>
      let r := dot2 (bf16.decode (a % 2 ^ 16)) (bf16.decode (a / 2 ^ 16 % 2 ^ 16)) (bf16.decode (b % 2 ^ 16)) (bf16.decode (b / 2 ^ 16 % 2 ^ 16)) (fp32.decode c)
      let v := fp32.encode {} r.1
      (v.1, r.2 ||| v.2)) ∧
    (∀ fx : BitVec 5, cmp (.vcmp h fx o) (if fx.toNat / 8 = 0 then 4 else 2) (fun x y =>
      let a := (fmtOf (fx.toNat / 8)).decode x
      let b := (fmtOf (fx.toNat / 8)).decode y
      let k := fx.toNat % 8
      if a.isNan = true ∨ b.isNan = true then (decide (k = 1), if a.isSig = true ∨ b.isSig = true ∨ 2 ≤ k then 0x01 else 0) else (cond k (cmpVal a b), 0))) ∧
    (∀ fx : BitVec 3,
      let w := width (o.c.extractLsb' 4 2).toNat
      cmp (.vicmp h fx o) w (fun x y => (cond fx.toNat (num uns (8 * w) x - num uns (8 * w) y), 0)))

/-- R275, R283, R285, R291, R387, R388, R389, R394, R395: selects, conversions, reductions, scans, block and scale forms, and the online maximum. A reduction
takes its active lanes pairwise where the launch's NBV is 1, else in sequence, an inactive lane being the identity of its operation. -/
def Obligations.VectorConversions : Prop :=
  ∀ (h : Hdr) (o : RR) (s : State),
    let one := [(o.a, o.la)]
    let two := [(o.a, o.la), (o.b, o.lb)]
    let p := s.rdP o.b
    let all (fs : List ExeEff) (e : Word) (v : Nat) (f : Flags) : Prop := ∃ x : Vec, fs = s.me.outV o.d e x ++ [.flags f] ∧ ∀ i, i < 64 → vLane x 4 i = v
    ExeComputes (.vsel h o) h o.q o.lat { vs := two, ps := [o.c], d := o.d } (fun e xs fs =>
      LaneOut s.me o.d e 1 (fun j => if (s.rdP o.c).getLsbD j then vLane (xs.getD 0 0) 1 j else vLane (xs.getD 1 0) 1 j) fs) s ∧
    (∀ fx : BitVec 5,
      let f := (o.b.extractLsb' 0 5).toNat
      let n := 256 / Nat.max (fmtBytes f) (fmtBytes fx.toNat)
      f < 16 → f ≠ 5 → fx.toNat < 16 → fx ≠ 5 → ExeComputes (.vcvt h fx o) h o.q o.lat { vs := one, d := o.d } (fun e xs fs =>
        LaneRes s.me o.d e (fmtBytes fx.toNat) (fun l => if l < n then
          cvt (rmAt (o.c.extractLsb' 3 3).toNat (o.c.getLsbD 2) s.me.seed e l) f fx.toNat (vLane (xs.getD 0 0) (fmtBytes f) l) else (0, 0)) fs) s) ∧
    (∀ fx : BitVec 2,
      let F := fmtOf fx.toNat
      let w := if fx = 0 then 4 else 2
      let lane (xs : List Vec) (l : Nat) : Val := F.decode (vLane (xs.getD 0 0) w l)
      let ls (ident : Val) (xs : List Vec) : List (Val × Flags) :=
        (List.range (256 / w)).map fun l => (if p.getLsbD (w * l) then lane xs l else ident, 0)
      let red (i : Instr) (g : Val → Val → Val × Flags) (ident : Val) : Prop :=
        ExeComputes i h o.q o.lat { vs := one, ps := [o.b], d := o.d } (fun e xs fs =>
          let r := if s.me.nbv then treeRed g 7 (ls ident xs) else seqRed g (ls ident xs)
          all fs e ((fp32.encode {} r.1).1 % 2 ^ 32) r.2) s
      let scan (i : Instr) (g : Val → Val → Val × Flags) (ident : Val) : Prop :=
        ExeComputes i h o.q o.lat { vs := one, ps := [o.b], d := o.d } (fun e xs fs => ∃ r : Nat → Val × Flags, r 0 = (ident, 0) ∧
          (∀ l, l < 256 / w → r (l + 1) = redStep g (r l) ((ls ident xs).getD l (ident, 0))) ∧
          LaneRes s.me o.d e w (fun l => let c := F.encode {} (r (l + 1)).1; (c.1, (r (l + 1)).2 ||| c.2)) fs) s
      red (.vrsum h fx o) (vadd 0) (.fin true 0 1) ∧ red (.vrmax h fx o) (vminmax true) (.inf true) ∧ red (.vrmin h fx o) (vminmax false) (.inf false) ∧
      scan (.vscanadd h fx o) (vadd 0) (.fin true 0 1) ∧ scan (.vscanmax h fx o) (vminmax true) (.inf true) ∧
      ExeComputes (.vrargmax h fx o) h o.q o.lat { vs := one, ps := [o.b], d := o.d } (fun e xs fs =>
        let on (l : Nat) : Prop := l < 256 / w ∧ p.getLsbD (w * l) = true
        let nan (l : Nat) : Prop := (lane xs l).isNan = true
        ∃ v f, all fs e v f ∧ (∀ b, f.getLsbD b = true ↔ b = 0 ∧ ∃ l, on l ∧ (lane xs l).isSig = true) ∧
          ((∀ l, ¬on l) → v = 0xFFFFFFFF) ∧
          ((∃ l, on l) → on v ∧
            ((∃ l, on l ∧ nan l) → nan v ∧ ∀ l, l < v → on l → ¬nan l) ∧
            ((∀ l, on l → ¬nan l) → ∀ l, on l → totVal (lane xs v) (lane xs l) ≥ 0 ∧ (l < v → totVal (lane xs l) (lane xs v) < 0)))) s ∧
      ExeComputes (.vscale h fx o) h o.q o.lat { vs := two, d := o.d } (fun e xs fs => LaneRes s.me o.d e w (fun l =>
        let k := vLane (xs.getD 1 0) w l % 256
        if k = 0xFF then (F.nan, 0x01) else
          let r := vmul (lane xs l) (e8m0 k)
          let c := F.encode (rmAt (o.c.extractLsb' 3 3).toNat (o.c.getLsbD 2) s.me.seed e l) r.1
          (c.1, r.2 ||| c.2)) fs) s ∧
      (let grp := (o.b.extractLsb' 0 3).toNat
       let b0 := if fx = 0 then 2 * grp else 4 * grp
       let reg := o.d.toNat < 56
       let vals := if fx = 0 then 64 else 128
       (b0 + vals / 32 ≤ 8 → ExeComputes (.vqblk h fx o) h o.q o.lat { vs := one ++ (if reg then [(o.d, false)] else []), d := o.d } (fun e xs fs =>
         let q (k : Nat) := quantBlock ((List.range 32).map fun i => lane xs (32 * k + i))
         ∃ (x : Vec) (f : Flags), fs = s.me.outV o.d e x ++ [.flags f] ∧ (∀ b, f.getLsbD b = true ↔ ∃ k, k < vals / 32 ∧ (q k).2.2.2.getLsbD b = true) ∧
           (∀ k, k < vals / 32 → (vByte x (128 + 2 * (b0 + k))).toNat = (q k).1 % 256 ∧ (vByte x (129 + 2 * (b0 + k))).toNat = (q k).2.1 % 256 ∧
             ∀ i, i < 16 → (vByte x (16 * (b0 + k) + i)).toNat = ((q k).2.2.1.getD (2 * i) 0 + 16 * (q k).2.2.1.getD (2 * i + 1) 0) % 256) ∧
           ∀ j, j < 256 → (∀ k, k < vals / 32 → ¬(16 * (b0 + k) ≤ j ∧ j < 16 * (b0 + k) + 16) ∧ j ≠ 128 + 2 * (b0 + k) ∧ j ≠ 129 + 2 * (b0 + k)) →
             vByte x j = if reg then vByte (xs.getD 1 0) j else 0) s) ∧
       ExeComputes (.vdqblk h fx o) h o.q o.lat { vs := one, d := o.d } (fun e xs fs => LaneRes s.me o.d e w (fun l =>
         let x := xs.getD 0 0
         let b := b0 + l / 32
         let y := (vByte x (16 * b + l % 32 / 2)).toNat
         F.encode {} (e2m1s (if l % 2 = 0 then y % 16 else y / 16) (vByte x (128 + 2 * b)).toNat (vByte x (129 + 2 * b)).toNat)) fs) s)) ∧
    ExeComputes (.vomax h o) h o.q o.lat { vs := two, d := o.d } (fun e xs fs =>
      let a (l : Nat) : Val := fp32.decode (vLane (xs.getD 0 0) 4 l)
      let m (l : Nat) : Val × Flags := vminmax true (a l) (fp32.decode (vLane (xs.getD 1 0) 4 l))
      ∃ (x y : Vec) (f : Flags), fs = s.me.outV o.d e x ++ s.me.outV (o.d + 1) e y ++ [.flags f] ∧
        (∀ l, l < 64 → vLane x 4 l = (fp32.encode {} (m l).1).1 % 2 ^ 32) ∧
        ∀ l, l < 64 → let M := fp32.decode (vLane x 4 l)
          vLane y 4 l = if a l = .inf true ∧ M = .inf true then 0x3F800000 else
            (fp32.encode {} (vexp2 (fp32.decode (fp32.encode {} (vsub 0 (a l) M).1).1)).1).1 % 2 ^ 32) s

/-- R364, R390, R391: lane moves, constants and predicate forms.
R178, R180, R187, R375, R377, R379, R392, R393, R396, R397: deferral, drains, loops, outcome bits, levels and flags of the execute sequencer. DEFER, DRAIN and
DRAINF without a deferral queue, a loop that R178 forbids, a level out of range and a skip past the body raise ILLEGAL. -/
def Obligations.VectorMovesControl : Prop :=
  ((∀ (h : Hdr) (o : RR) (s : State),
     let one := [(o.a, o.la)]
     let two := [(o.a, o.la), (o.b, o.lb)]
     let move (i : Instr) (vs : List (BitVec 6 × Bool)) (fx : BitVec 2) (g : Nat → Nat → (Nat → Nat → Nat) → Nat) : Prop :=
       let w := if fx = 0 then 4 else if fx = 1 then 2 else 1
       ExeComputes i h o.q o.lat { vs := vs, d := o.d } (fun e xs fs => LaneOut s.me o.d e w (fun l => g (256 / w) l fun k => vLane (xs.getD k 0) w) fs) s
     let pred (i : Instr) (ps : List (BitVec 6)) (g : Nat → Bool) : Prop :=
       ExeComputes i h o.q o.lat { ps := ps } (fun _ _ fs => PredRes o.d 1 g fs) s
     let number (i : Instr) (v : Nat → Prop) : Prop :=
       ExeComputes i h o.q o.lat { ps := [o.a], d := o.d } (fun e _ fs => ∃ n, v n ∧ LaneOut s.me o.d e 4 (fun _ => n) fs) s
     let pa := s.rdP o.a
     let pb := s.rdP o.b
     (∀ fx : BitVec 2,
       move (.vperm h fx o) two fx (fun n l x => x 0 (x 1 l % n)) ∧ move (.vbcast h fx o) two fx (fun n _ x => x 0 (x 1 0 % n)) ∧
       move (.vrot h fx o) two fx (fun n l x => x 0 ((l + x 1 0) % n)) ∧
       move (.vshuf h fx o) (two ++ [(o.c, o.lc)]) fx (fun n l x => let j := x 2 l % (2 * n); if j < n then x 0 j else x 1 (j - n))) ∧
     ExeComputes (.vmov h o) h o.q o.lat { vs := one, d := o.d } (fun e xs fs => fs = s.me.outV o.d e (xs.getD 0 0)) s ∧
     ExeComputes (.viota h o) h o.q o.lat { d := o.d } (fun e _ fs => LaneOut s.me o.d e 4 (fun l => l) fs) s ∧
     ExeComputes (.vclv h o) h o.q o.lat { d := o.d } (fun e _ fs => LaneOut s.me o.d e 4 (fun _ => lvlGet s.me.cw o.a.toNat s.me.exe.crd) fs) s ∧
     pred (.pand h o) [o.a, o.b] (fun j => pa.getLsbD j && pb.getLsbD j) ∧ pred (.por h o) [o.a, o.b] (fun j => pa.getLsbD j || pb.getLsbD j) ∧
     pred (.pxor h o) [o.a, o.b] (fun j => pa.getLsbD j != pb.getLsbD j) ∧ pred (.pnot h o) [o.a] (fun j => !pa.getLsbD j) ∧
     number (.pffs h o) (fun n => (n < 256 ∧ pa.getLsbD n = true ∨ n = 256) ∧ ∀ j, j < n → pa.getLsbD j = false) ∧
     number (.pffz h o) (fun n => (n < 256 ∧ pa.getLsbD n = false ∨ n = 256) ∧ ∀ j, j < n → pa.getLsbD j = true) ∧
     number (.pcnt h o) (fun n => n = ((List.range 256).filter fun j => pa.getLsbD j).length)) ∧
   ∀ (h : Hdr) (o : RRI) (s : State),
     ExeComputes (.vmovi h o) h o.q o.lat { d := o.d } (fun e _ fs => LaneOut s.me o.d e 4 (fun _ => (o.imm.signExtend 32).toNat) fs) s) ∧
  ((∀ (h : Hdr) (o : RR) (s : State),
     let dops : ExeOps := { vs := (List.range (o.d.toNat + 1)).map fun k => (o.a + BitVec.ofNat 6 k, o.la && k == 0), ps := [o.b] }
     let drain (i : Instr) (n : Nat) : Prop :=
       let nv := o.a.toNat + 1
       let r (j : Nat) : DefRec := DefRec.ofBits (bitsOf 256 (s.me.spadBytes (s.me.defBase.getD 0 + 32 * ((s.me.defHead + j) % 1024)) 32))
       let newest := ((List.range n).map fun j => (r j).crd).foldl maxW 0
       let pend (j : Nat) : Option Nat := s.me.pendingAt s.cycle (s.me.defBase.getD 0 + 32 * ((s.me.defHead + j) % 1024)) 32
       (s.me.defBase = none → EngRaises i .exe h o.q [] 0 newest 0x01 i.word s) ∧
       (s.me.defBase ≠ none → s.me.defPending = false → ∀ j g, j < n → pend j = some g → (∀ k, k < j → pend k = none) →
         EngRaises i .exe h o.q [] 0 newest 0x06 (BitVec.ofNat 64 g) s) ∧
       (s.me.defBase ≠ none → s.me.defPending = false → (∀ j, j < n → pend j = none) → ExeIssues i h o.q o.lat {} 0 newest (fun _ y => y) (fun e _ fs =>
         ∃ (x : Nat → Vec) (p : Pred), fs = ((List.range (nv + 1)).flatMap fun j => s.me.outV (o.d + BitVec.ofNat 6 j) e (x j)) ++ [.p o.b.toNat p, .deferHead n] ∧
           (∀ j l, j < nv → l < 64 → vLane (x j) 4 l = if l < n ∧ j < (r l).nv.toNat then ((r l).v.extractLsb' (32 * j) 32).toNat else 0) ∧
           (∀ l, l < 64 → vLane (x nv) 4 l = if l < n then (r l).lane.toNat else 0) ∧ ∀ j, j < 256 → p.getLsbD j = decide (j / 4 < n)) s)
     (s.me.defBase ≠ none → ExeComputes (.defer h o) h o.q o.lat dops (fun e xs fs =>
       fs = [.defer (((List.range 64).filter fun l => (s.rdP o.b).getLsbD (4 * l)).map fun l =>
         { v := BitVec.ofNat 128 (packLanes 4 (xs.map fun x => vLane x 4 l)), lane := BitVec.ofNat 8 l, nv := BitVec.ofNat 3 (o.d.toNat + 1), crd := e })]) s) ∧
     drain (.drain h o) (if 64 ≤ s.me.defTail - s.me.defHead then 64 else 0) ∧ drain (.drainf h o) (Nat.min 64 (s.me.defTail - s.me.defHead)) ∧
     (s.me.defBase = none →
       (ExeReady s dops → EngRaises (.defer h o) .exe h o.q (exePops (dops.vs.map (·.1))) 0 0 0x01 (Instr.defer h o).word s)) ∧
     ExeComputes (.vfrd h o) h o.q o.lat { d := o.d } (fun e _ fs =>
       fs = if o.d = 60 ∨ o.d = 61 then [.pushFlags (o.d.toNat - 60) e] else if o.d = 63 then [] else [.vflags (s.me.vIdx o.d)]) s ∧
     ExeComputes (.vfclr h o) h o.q o.lat {} (fun _ _ fs => fs = [.clearFlags false]) s ∧
     ExeComputes (.vfclrCtx h o) h o.q o.lat {} (fun _ _ fs => fs = [.clearFlags true]) s ∧
     (56 ≤ o.a.toNat → o.a.toNat < 60 → ExeComputes (.vrmask h o) h o.q o.lat {} (fun _ _ fs =>
       let x := s.me.lastPop.get (0, 0) (o.a.toNat - 56)
       PredRes o.d (if x.2 = 5 then 1 else fmtBytes x.2.toNat) (fun l => x.1.getLsbD l) fs) s)) ∧
   (∀ (h : Hdr) (fx : BitVec 3) (o : RI) (s : State),
     let reg := o.imm.getLsbD 22
     let count := if reg then vLane (s.peekV o.a) 4 0 else (o.imm.extractLsb' 0 16).toNat
     let stages := (o.imm.extractLsb' 16 3).toNat + 1
     let epi := (o.imm.extractLsb' 19 3).toNat
     let len := o.d.toNat + 1
     let lvl := fx.toNat
     let x := s.me.exe
     let v := lvlGet s.me.cw lvl x.crd
     let legal := count ≤ 65535 ∧ epi < stages ∧ lvl ≤ 5 ∧
       (match x.loops with
        | [] => True
        | [l] => l.sloop = false ∧ l.stages = 1 ∧ l.epi = 0 ∧ (x.ring.head + 1 + BitVec.ofNat 16 len - l.start).toNat ≤ l.len
        | _ => False) ∧
       (lvl = 0 ∨ lvlWidth s.me.cw lvl ≠ 0 ∧ v + (count + epi) < 2 ^ lvlWidth s.me.cw lvl)
     let ops : ExeOps := { vs := if reg then [(o.a, o.la)] else [] }
     (legal → (count = 0 → len < (x.ring.tail - x.ring.head).toNat) →
       ExeIssues (.loopExe h fx o) h 0 0 ops 0 0 (fun _ y => if count = 0 then { y with ring := { y.ring with head := y.ring.head + BitVec.ofNat 16 len } } else
           { y with sp := 1, crd := if lvl = 0 then y.crd else lvlSet s.me.cw lvl y.crd v
                    loops := { start := y.ring.head + 1, len := len, lvl := lvl, lvl0 := v, count := count, stages := stages, epi := epi } :: y.loops })
         (fun _ _ fs => fs = []) s) ∧
     (¬legal → ExeReady s ops → EngRaises (.loopExe h fx o) .exe h 0 (exePops (ops.vs.map (·.1))) 0 0 0x01 (Instr.loopExe h fx o).word s)) ∧
   ∀ (h : Hdr) (o : RRI) (s : State),
     let n := o.imm.toNat
     let left := (s.me.exe.ring.tail - (s.me.exe.ring.head + 1)).toNat
     let room := match s.me.exe.loops with | [] => left | l :: _ => min left (l.start + BitVec.ofNat 16 l.len - (s.me.exe.ring.head + 1)).toNat
     let one := (s.me.boqA.head?.map (·.bit)).getD false
     let lvl := (o.imm.extractLsb' 0 3).toNat
     let a := (if o.d = 1 then vLane (s.peekV o.a) 4 0 else 0) + (o.imm.extractLsb' 3 11).toNat
     let ops : ExeOps := { vs := if o.d = 1 then [(o.a, o.la)] else [] }
     let level (j : Instr) (v : Nat) : Prop :=
       let ok := lvl ≤ 5 ∧ lvlWidth s.me.cw lvl ≠ 0 ∧ v < 2 ^ lvlWidth s.me.cw lvl
       (ok → ExeIssues j h o.q o.lat ops 0 0 (fun _ y => { y with crd := lvlSet s.me.cw lvl y.crd v }) (fun _ _ fs => fs = []) s) ∧
       (¬ok → ExeReady s ops → EngRaises j .exe h o.q (exePops (ops.vs.map (·.1))) 0 0 0x01 j.word s)
     (s.me.boqX.length + s.me.bitsDue < 64 → ExeComputes (.bpushExe h o) h o.q o.lat { ps := [o.a] } (fun e _ fs =>
       fs = [.bit { bit := (s.rdP o.a).getLsbD (o.imm.extractLsb' 0 8).toNat, e := e }]) s) ∧
     (one = false ∨ n ≤ room → ExeIssues (.bskipExe h o) h o.q o.lat {} 1 0 (fun _ y => if one = true then { y with skip := n } else y) (fun _ _ fs => fs = []) s) ∧
     (one = true → room < n → EngRaises (.bskipExe h o) .exe h o.q [] 1 0 0x01 (Instr.bskipExe h o).word s) ∧
     level (.setclExe h o) a ∧ level (.incclExe h o) (lvlGet s.me.cw lvl s.me.exe.crd + a))

/-- R293 to R298, R401 to R413: the probability forms: the code of every lane, the lineage and independence bit of the result, and the flags. QAND and QOR
with .strict on operands that are not independent raise PROB_DEP when they commit. -/
def Obligations.ProbabilityWords : Prop :=
  ∀ (h : Hdr) (o : RR) (s : State),
    let one := [(o.a, o.la)]
    let two := [(o.a, o.la), (o.b, o.lb)]
    let a := s.rdQ o.a
    let b := s.rdQ o.b
    let c := s.rdQ o.c
    let p := s.rdP o.b
    let res (g : Nat → Nat) (lin : BitVec 16) (ind : Bool) (f : Flags) (fs : List ExeEff) : Prop :=
      ∃ x : QReg, fs = [.q o.d.toNat x, .flags f] ∧ x.lin = lin ∧ x.ind = ind ∧ ∀ l, l < 64 → x.lane l = g l % 2 ^ 16
    let resF (g : Nat → Nat × Flags) (fs : List ExeEff) : Prop :=
      ∃ f : Flags, res (fun l => (g l).1) (BitVec.ofNat 16 (2 ^ o.d.toNat)) true f fs ∧ ∀ k, f.getLsbD k = true ↔ ∃ l, l < 64 ∧ (g l).2.getLsbD k = true
    let logic (i : Instr) (dep strict : Bool) (g : Nat → Nat → Nat) : Prop :=
      let overlap := a.lin &&& b.lin ≠ 0
      ExeComputes i h o.q o.lat { qs := two, fault := if strict = true ∧ (overlap ∨ a.ind = false ∨ b.ind = false) then some (0x12, i.word) else none }
        (fun _ _ fs => res (fun l => g (a.lane l) (b.lane l)) (a.lin ||| b.lin)
          (if strict then true else a.ind && b.ind && (dep || decide (¬overlap))) (if dep = false ∧ strict = false ∧ overlap then 0x80 else 0) fs) s
    (∀ fx : BitVec 2,
      ExeComputes (.qcmp h fx o) h o.q o.lat { vs := two } (fun _ xs fs =>
        resF (fun l => qcmp fx.toNat (vLane (xs.getD 0 0) 4 l) (vLane (xs.getD 1 0) 4 l) s.me.qtemp.toNat) fs) s ∧
      ExeComputes (.qgcmp h fx o) h o.q o.lat { vs := two, d := o.d } (fun e xs fs =>
        LaneRes s.me o.d e 4 (fun l => qgcmp fx.toNat (vLane (xs.getD 0 0) 4 l) (vLane (xs.getD 1 0) 4 l) s.me.qtemp.toNat) fs) s ∧
      (let w := if fx = 0 then 4 else 2
       ExeComputes (.qsel h fx o) h o.q o.lat { vs := two, qs := [(o.c, o.lc)], d := o.d } (fun e xs fs =>
         LaneRes s.me o.d e w (fun l => qsel (fmtOf fx.toNat) (c.lane (if fx = 0 then l else l / 2)) (vLane (xs.getD 0 0) w l) (vLane (xs.getD 1 0) w l)) fs) s) ∧
      logic (.qand h fx o) (fx.getLsbD 0) (fx.getLsbD 1) (fun x y => if fx.getLsbD 0 then Nat.min x y else rneNat (x * y) 65535) ∧
      logic (.qor h fx o) (fx.getLsbD 0) (fx.getLsbD 1)
        (fun x y => if fx.getLsbD 0 then Nat.max x y else 65535 - rneNat ((65535 - x) * (65535 - y)) 65535)) ∧
    ExeComputes (.qnot h o) h o.q o.lat { qs := one } (fun _ _ fs => res (fun l => 65535 - a.lane l) a.lin a.ind 0 fs) s ∧
    ExeComputes (.qcol h o) h o.q o.lat { qs := one } (fun e _ fs => PredRes o.d 4 (fun l => decide (a.lane l = 65535 ∨
      (devHash (BitVec.ofNat 32 l) (e.setWidth 32) (s.me.seed.setWidth 32)).toNat / 2 ^ 16 < a.lane l)) fs) s ∧
    ExeComputes (.qfrom h o) h o.q o.lat { vs := one } (fun _ xs fs => resF (fun l => qfrom (fp32.decode (vLane (xs.getD 0 0) 4 l))) fs) s ∧
    ExeComputes (.qto h o) h o.q o.lat { qs := one, d := o.d } (fun e _ fs =>
      LaneOut s.me o.d e 4 (fun l => (fp32.rnd {} false (a.lane l) 65535).1) fs) s ∧
    ExeComputes (.qgand h o) h o.q o.lat { qs := [(o.b, o.lb)], d := o.d } (fun e _ fs =>
      LaneOut s.me o.d e 4 (fun l => (fp32.rnd {} false (b.lane l) 65535).1) fs) s ∧
    ExeComputes (.qgsel h o) h o.q o.lat { vs := two, d := o.d } (fun e xs fs => LaneRes s.me o.d e 4 (fun l =>
      let r := vsub 0 (fp32.decode (vLane (xs.getD 0 0) 4 l)) (fp32.decode (vLane (xs.getD 1 0) 4 l))
      let v := fp32.encode {} r.1
      (v.1, r.2 ||| v.2)) fs) s ∧
    ExeComputes (.qlin h o) h o.q o.lat { vs := [(o.b, o.lb)], qs := one } (fun _ xs fs => res a.lane ((xs.getD 0 0).extractLsb' 0 16) true 0 fs) s ∧
    ExeComputes (.qrsum h o) h o.q o.lat { qs := one, ps := [o.b], d := o.d } (fun e _ fs =>
      LaneOut s.me o.d e 4 (fun _ => (fp32.rnd {} false (((List.range 64).filter fun l => p.getLsbD (4 * l)).map a.lane).sum 65535).1) fs) s ∧
    ExeComputes (.qrprod h o) h o.q o.lat { qs := one, ps := [o.b] } (fun _ _ fs => ∃ r : Nat → Nat, r 0 = 65535 ∧
      (∀ l, l < 64 → r (l + 1) = if p.getLsbD (4 * l) then rneNat (r l * a.lane l) 65535 else r l) ∧ res (fun l => r (l + 1)) a.lin a.ind 0 fs) s

/-- R251, R366, R368, R396, R402: EXE_COMMIT does nothing until the horizon has reached the oldest issued word (a word that leaves nothing does not wait);
then that word's effects are made in order, or it raises its own fault, or DFQ_FULL with the records wanted, before, and writes nothing. -/
def Obligations.ExecuteCommit : Prop :=
  ∀ (s : State) (n : Nat) (x : ExeOp) (xs : List ExeOp), (s.core n).exeQ = x :: xs →
    let c := s.core n
    let free := s.engRuns n .exe = true ∧ (x.effs = [] ∧ x.fault = none ∧ x.sig = 0 ∨ x.e.toNat ≤ (s.horizonOf n).toNat ∧ s.stopAtOrBelow n x.e = false)
    let wanted (rs : List DefRec) : Prop := .defer rs ∈ x.effs ∧ ∀ qs, .defer qs ∈ x.effs → qs = rs
    let goes := x.fault = none ∧ ∀ rs, .defer rs ∈ x.effs → c.defTail - c.defHead + rs.length ≤ 1024
    (¬free → exec (.exeCommit n) s = .next s) ∧
    (free → ∀ code val, x.fault = some (code, val) → exec (.exeCommit n) s = .next (s.raise n .exe code val x.e true x.slot)) ∧
    (free → x.fault = none → ∀ rs, wanted rs → 1024 < c.defTail - c.defHead + rs.length →
      exec (.exeCommit n) s = .next (s.raise n .exe 0x0D (BitVec.ofNat 64 rs.length) x.e true x.slot)) ∧
    (free → goes → (x.sig = 0 ∨ (c.tok.get {} x.sig.toNat).count.toNat < 0xFFFF) → ∃ t, exec (.exeCommit n) s = .next t ∧
      let d := t.core n
      let seen : BitVec 8 := c.flags ||| s.imgFlags c.cid
      let word (i : Nat) := s.stage2 (s.ctx c.cid).pid ((s.ctx c.cid).img.toNat + 16 + i)
      d.exeQ = xs ∧ (.clearFlags true ∉ x.effs → t.mem = s.mem) ∧ (∀ m, m ≠ n → t.core m = s.core m) ∧ d.g = c.g ∧ d.s = c.s ∧ d.hold = c.hold ∧ d.dq = c.dq ∧ d.boqA = c.boqA ∧
      (∀ r, (∀ k, .vflags k ∉ x.effs) → d.v.get 0 r =
        ((x.effs.filterMap fun f => match f with | .v k y => if k = r then some y else none | _ => none).getLast?).getD (c.v.get 0 r)) ∧
      (∀ r, d.p.get 0 r = ((x.effs.filterMap fun f => match f with | .p k y => if k = r then some y else none | _ => none).getLast?).getD (c.p.get 0 r)) ∧
      (∀ r, d.q.get {} r = ((x.effs.filterMap fun f => match f with | .q k y => if k = r then some y else none | _ => none).getLast?).getD (c.q.get {} r)) ∧
      ((∀ b, .clearFlags b ∉ x.effs) → d.flags = (x.effs.filterMap fun f => match f with | .flags g => some g | _ => none).foldl (· ||| ·) c.flags ∧
        t.imgFlags c.cid = s.imgFlags c.cid) ∧
      ((∀ k e, .pushFlags k e ∉ x.effs) → ∀ k, k < 2 →
        d.queue (4 + k) = c.queue (4 + k) ++ x.effs.filterMap fun f => match f with | .push j y => if j = k then some y else none | _ => none) ∧
      d.boqX = c.boqX ++ (x.effs.filterMap fun f => match f with | .bit b => some b | _ => none) ∧
      (x.effs = [.clearFlags false] → d.flags = 0 ∧ t.imgFlags c.cid = s.imgFlags c.cid) ∧
      (x.effs = [.clearFlags true] → d.flags = 0 ∧ t.mem = (s.putFlags c.cid 0).mem ∧
        (word 0 ≠ none → (∀ i, 0 < i → i < 8 → word i ≠ word 0) → t.imgFlags c.cid = 0)) ∧
      (∀ r, x.effs = [.vflags r] → ∀ l, l < 64 → vLane (d.v.get 0 r) 4 l = seen.toNat) ∧
      (∀ k e, k < 2 → x.effs = [.pushFlags k e] → ∃ y : QEnt, d.queue (4 + k) = c.queue (4 + k) ++ [y] ∧ y.e = e ∧ ∀ l, l < 64 → vLane y.data 4 l = seen.toNat) ∧
      ((∀ rs, .defer rs ∉ x.effs) → d.spad = c.spad ∧ d.defTail = c.defTail) ∧
      (∀ rs base, x.effs = [.defer rs] → c.defBase = some base → d.defTail = c.defTail + rs.length ∧
        ∀ j, j < rs.length → rs.length ≤ 1024 → DefRec.ofBits (bitsOf 256 (d.spadBytes (base + 32 * ((c.defTail + j) % 1024)) 32)) = rs.getD j default) ∧
      d.defHead = c.defHead + ((x.effs.filterMap fun f => match f with | .deferHead k => some k | _ => none).sum) ∧
      (x.sig ≠ 0 → (d.tok.get {} x.sig.toNat).count.toNat = (c.tok.get {} x.sig.toNat).count.toNat + 1) ∧
      ∀ k, k ≠ x.sig.toNat → d.tok.get {} k = c.tok.get {} k)

/-! ### The matrix engine (R414 to R434) -/

/-- R415 to R421, R423, R427 to R434: a matrix word issues from its ring once its predecessors have retired, and takes at issue the loop-nest slot that it
names, EXE's seed where it drains, and the vector that it pops. MGO also makes the slot active and takes the coordinate of its last point. A slot with a
reserved code, a pairing that R419 does not accept, a panel over half the weight buffer, a clamp of an I32 tile, and a nest that R431 forbids raise
ILLEGAL; a descriptor that is not valid raises TENSOR_BOUNDS. -/
def Obligations.MatrixIssue : Prop :=
  ∀ (h : Hdr) (o : MG) (s : State),
    let ws := (List.range 16).map fun i => s.me.mx.shadow.get 0 (16 * o.nest.toNat + i)
    let x := Nest.of ws
    let n := s.cur
    let pair (e : Word) (a b : TDesc) : Prop := slotOk ws = true ∧ s.tdesc n e x.tida = some a ∧ s.tdesc n e x.tidb = some b ∧ pairOk x a b = true
    let out (clamp fmt : Bool) (e : Word) : Prop := slotOk ws = true ∧ ∃ a c, s.tdesc n e x.tida = some a ∧ s.tdesc n e x.tidc = some c ∧
      (fmt = true → cFmtOk (a.fmt == 8) c.fmt = true) ∧ (clamp = true → a.fmt ≠ 8 ∧ x.cle ≠ 0xFF)
    let simple (i : Instr) (pop : Option Nat) : Prop := MtxIssues i h pop (fun _ => True) [] 0 (fun _ => 0) id s
    let takes (i : Instr) (need : Word → Prop) (seed : Word) : Prop := MtxIssues i h none need ws seed (fun _ => 0) id s
    let bad (i : Instr) (need : Word → Prop) : Prop := MtxRaises i h none need 0x01 i.word s
    let lost (i : Instr) (b : Bool) : Prop :=
      MtxRaises i h none (fun e => slotOk ws = true ∧ s.tdesc n e x.tida = none) 0x08 (x.tida.setWidth 64) s ∧
      (b = true → MtxRaises i h none (fun e => slotOk ws = true ∧ s.tdesc n e x.tida ≠ none ∧ s.tdesc n e x.tidb = none) 0x08 (x.tidb.setWidth 64) s) ∧
      (b = false → MtxRaises i h none (fun e => slotOk ws = true ∧ s.tdesc n e x.tida ≠ none ∧ s.tdesc n e x.tidc = none) 0x08 (x.tidc.setWidth 64) s)
    let drn := o.q.getLsbD 0
    let go (e : Word) (a : TDesc) : Bool := mgoOk x (groupOf a.fmt) s.me.cw e drn
    simple (.mlds h o) none ∧ simple (.mswap h o) none ∧ simple (.mwait h o) none ∧ simple (.mstat h o) none ∧ simple (.mdq h o) none ∧
    simple (.mclr h o) none ∧ simple (.msel h o) (some (o.q.toNat % 4)) ∧
    takes (.mlda h o) (fun e => ∃ a b, pair e a b) 0 ∧
    takes (.mldb h o) (fun e => ∃ a b, pair e a b ∧ (o.q.toNat + 1) * panelBytes b.fmt x.bmode ≤ 131072) 0 ∧
    takes (.minit h o) (fun e => (∃ a b, pair e a b) ∧ out false true e) 0 ∧
    takes (.mdrain h o) (out (o.q.getLsbD 4) true) s.me.seed ∧ takes (.mdraina h o) (out (o.q.getLsbD 4) true) s.me.seed ∧
    MtxIssues (.mgo h o) h none (fun e => ∃ a b, pair e a b ∧ out (o.q.getLsbD 6) drn e ∧ go e a = true) ws s.me.seed
      (fun e => if x.points = 0 then 0 else x.crd s.me.cw e (x.points - 1))
      (fun m => { m with active := (List.range 16).foldl (fun t i => t.set 0 (16 * o.nest.toNat + i) (ws.getD i 0)) m.active }) s ∧
    (∀ i ∈ [Instr.mlda h o, .mldb h o, .minit h o, .mgo h o], bad i (fun _ => slotOk ws = false) ∧ lost i true ∧
      bad i (fun e => ∃ a b, slotOk ws = true ∧ s.tdesc n e x.tida = some a ∧ s.tdesc n e x.tidb = some b ∧ pairOk x a b = false)) ∧
    (∀ i ∈ [Instr.mdrain h o, .mdraina h o], bad i (fun _ => slotOk ws = false) ∧ lost i false ∧
      bad i (fun e => ∃ a c, slotOk ws = true ∧ s.tdesc n e x.tida = some a ∧ s.tdesc n e x.tidc = some c ∧ ¬out (o.q.getLsbD 4) true e)) ∧
    bad (.mldb h o) (fun e => ∃ a b, pair e a b ∧ 131072 < (o.q.toNat + 1) * panelBytes b.fmt x.bmode) ∧
    bad (.mgo h o) (fun e => ∃ a b, pair e a b ∧ out (o.q.getLsbD 6) drn e ∧ go e a = false)

/-- R287 to R289, R424, R427, R429 to R431, R434: MTX_POINT_COMMIT carries the issued word of a core one write further, once the horizon has reached its
coordinate and the acquires and fences before the word have been performed (R228, R230). MSWAP, MSEL, MCLR and MSTAT write and retire; MWAIT writes nothing. A point of MGO whose operands stand in the stage and the panel adds
one accumulation group to each output of its masked rows and columns inside the tensors, and no other output changes. -/
def Obligations.MatrixCommit : Prop :=
  ∀ (s : State) (n : Nat) (o : MtxOp), (s.core n).mx.ops = [o] → s.clear o.after = true →
    let c := s.core n
    let mx := c.mx
    let opc := (o.w.extractLsb' 40 7).toNat
    let sig : BitVec 8 := (hdrOf o.w).sig
    let runs := s.engRuns n .mtx = true
    let may := o.pe.toNat ≤ (s.horizonOf n).toNat ∧ s.stopAtOrBelow n o.pe = false
    let calm := sig = 0 ∨ (c.tok.get {} sig.toNat).count.toNat < 0xFFFF
    let same (t : State) : Prop := t.mem = s.mem ∧ (∀ m, m ≠ n → t.core m = s.core m) ∧ (t.core n).v = c.v ∧ (t.core n).g = c.g ∧ (t.core n).s = c.s ∧
      (t.core n).spad = c.spad ∧ (t.core n).hold = c.hold ∧ t.flying = s.flying
    let writes (f : Mtx → Mtx) : Prop := may → calm → ∃ t, exec (.mtxPointCommit n) s = .next t ∧ same t ∧ (t.core n).dq = c.dq ∧
      (t.core n).mx = { f mx with lastc := o.pe, ops := [] }
    let t0 := (o.w.extractLsb' 11 2).toNat
    (c.mtx.park = none → ¬runs → exec (.mtxPointCommit n) s = .next s) ∧
    (runs → opc ∈ [0x65, 0x67, 0x69, 0x6B] → ¬may → exec (.mtxPointCommit n) s = .next s) ∧
    (runs → opc = 0x65 → writes fun m => { m with front := !m.front }) ∧
    (runs → opc = 0x6B → writes fun m =>
      { m with rmask := ((o.ents.getD 0 {}).data).extractLsb' 0 128, cmask := ((o.ents.getD 0 {}).data).extractLsb' 128 128 }) ∧
    (runs → opc = 0x69 → writes fun m => { m with acc0 := if t0 = 1 then m.acc0 else [],
                                                   acc1 := if t0 = 0 then m.acc1 else [] }) ∧
    (runs → opc = 0x66 → (sig = 0 ∨ may) → calm → ∃ t, exec (.mtxPointCommit n) s = .next t ∧ same t ∧ (t.core n).mx = { mx with ops := [] }) ∧
    (runs → opc = 0x67 → may → calm → c.queueFull (o.w.extractLsb' 0 2).toNat = false → ∃ t y, exec (.mtxPointCommit n) s = .next t ∧ same t ∧
      (t.core n).mx = { mx with lastc := o.pe, ops := [] } ∧ (t.core n).queue (o.w.extractLsb' 0 2).toNat = c.queue (o.w.extractLsb' 0 2).toNat ++ [y] ∧ y.e = o.pe ∧
      (let v : Vec := y.data
       v.extractLsb' 0 64 = mx.points ∧ v.extractLsb' 64 64 = mx.lastc ∧ v.extractLsb' 128 8 = mx.flags ∧ v.getLsbD 136 = mx.front ∧
       v.getLsbD 137 = (mx.half mx.front).valid ∧ v.getLsbD 138 = (mx.half (!mx.front)).valid ∧ v.getLsbD 139 = mx.avalid ∧ v.toNat < 2 ^ 140)) ∧
    (let x := Nest.of o.nest
     let tile := o.w.getLsbD 11
     let oA := x.oA o.k
     let oB := x.oB o.k
     let oC := x.oC o.k
     ∀ da db dc, runs → opc = 0x62 → o.k < x.points → c.watched o.pe = false → o.draining = false → mx.apend = false → x.asrc = true → x.bsrc = true →
       s.tdesc n o.pe x.tida = some da → s.tdesc n o.pe x.tidb = some db → s.tdesc n o.pe x.tidc = some dc →
       originOk da oA = true → originOk db oB = true → originOk dc oC = true → may →
       let g := groupOf da.fmt
       let r := mx.half mx.front
       let ka := oA.getD x.adk 0 - mx.aK
       let kb := oB.getD x.bdk 0 - r.k0
       (mx.avalid = true ∧ mx.aK ≤ oA.getD x.adk 0 ∧ ka + g ≤ stageLen da.fmt) →
       (r.valid = true ∧ r.tidb = x.tidb ∧ r.bmode = x.bmode ∧ r.n0 = oB.getD x.bdn 0 ∧ r.k0 ≤ oB.getD x.bdk 0 ∧ kb + g ≤ 32 * r.groups) →
       let row (m : Nat) : Prop := m < 128 ∧ mx.rmask.getLsbD m = true ∧ oA.getD x.adm 0 + m < da.dims.getD x.adm 0 ∧ mx.anop.get false m = false
       let col (j : Nat) : Prop := j < 128 ∧ mx.cmask.getLsbD j = true ∧ oB.getD x.bdn 0 + j < db.dims.getD x.bdn 0
       let a (m i : Nat) : Option (BitVec 32) := (blockAt da oA x.adm m x.adk i).map fun _ => stageElem da.fmt (mx.arow.get 0 m) (ka + i)
       let b (i j : Nat) : Option (BitVec 32) := r.elems.get none (128 * (kb + i) + j)
       let both (m j i : Nat) : Option (BitVec 32 × BitVec 32) := (a m i).bind fun u => (b i j).map fun v => (u, v)
       ∃ t, exec (.mtxPointCommit n) s = .next t ∧ same t ∧ (t.core n).mx.points = mx.points + 1 ∧ (t.core n).mx.lastc = o.pe ∧
         (∀ m j, m < 128 → j < 128 → row m → col j → (t.core n).mx.acc tile m j =
           (pointOut (da.fmt == 8) c.nbv da.fmt db.fmt (mx.acc tile m j) ((List.range g).map (both m j))).1) ∧
         (∀ m j, m < 128 → j < 128 → ¬(row m ∧ col j) → (t.core n).mx.acc tile m j = mx.acc tile m j) ∧
         ∀ m j, (t.core n).mx.acc (!tile) m j = mx.acc (!tile) m j)

/-! ### The copy and network engines (R398, R399, R435 to R455) -/

/-- R399, R435 to R449: a copy word that passes the tests of its form reads its slot and, as R439 says, either enters the egress hold, its slots advancing by
R437, or starts its issue-time part; CPREF advances its slots and touches only translations and lines of the L2 (R201, R449), and CSYNC waits behind every earlier copy word. A test that fails raises its
fault, before. -/
def Obligations.CopyWords : Prop :=
  ∀ (h : Hdr) (o : CP) (s : State), s.me.cpyBusy = false →
    let e := s.engCrd .cpy h [] 0 0
    let slots (j : CpyJob) (m : SMap Word) : Prop :=
      let k := 2 * j.o.dslot.toNat
      let old := s.me.cslot
      let g := 2 * (j.o.g.toNat + j.rdim / 4) + j.rdim % 4 / 2
      let lo := 32 * (j.rdim % 2)
      let rows := old.set 0 g (setFld (old.get 0 g) lo 32 (fld (old.get 0 g) lo 32 + j.rows))
      let w0 := old.get 0 k
      m = if j.mode = 0 then old.set 0 k (setFld (setFld w0 0 19 (fld w0 0 19 + j.step)) 32 19 (fld w0 32 19 + j.step))
          else if j.auto = false then old
          else if j.mode = 1 then rows.set 0 k (setFld (rows.get 0 k) 0 19 (fld (rows.get 0 k) 0 19 + j.rows * j.pitch))
          else if j.mode = 2 then (old.set 0 k (setFld (setFld w0 0 24 (fld w0 0 24 + j.nt)) 24 24 (fld w0 24 24 + j.nt))).set 0 (k + 1)
            (setFld (old.get 0 (k + 1)) 16 19 (fld (old.get 0 (k + 1)) 16 19 + 32 * j.nt * (s.lenDesc s.cur e j).granules))
          else (old.set 0 k (setFld w0 0 48 (fld w0 0 48 + j.len3))).set 0 (k + 1)
            (setFld (old.get 0 (k + 1)) 0 19 (fld (old.get 0 (k + 1)) 0 19 + j.len3))
    let pends (c d : Core) : Prop := s.me.dbgReg.getLsbD 0 = false → d.pendBits = c.pendBits
    let held (i : Instr) (j : CpyJob) : Prop := EngHolds i .cpy h { h with sig := 0 } h.sig (.cpy j)
      (fun c d => ∃ m, slots j m ∧ d = { c with cslot := m }) s
    let starts (i : Instr) (j : CpyJob) (buf : List Byte) : Prop := EngDoes i .cpy h { h with sig := 0 } 0 [] 0 0 []
      (fun e _ c d => ∃ x : CpyOp, x.slot = s.me.cpy.ring.head ∧ x.id = s.nextId ∧ x.e = e ∧ x.sig = h.sig ∧ x.job = j ∧ x.buf = buf ∧ x.k = 0 ∧ x.done = false ∧
        x.after = s.engAfter .cpy h ∧ pends c d ∧ d = { c with cpyQ := c.cpyQ ++ [x], pendBits := d.pendBits }) (fun _ x => x) s
    let moves (i : Instr) (j : CpyJob) (buf : List Byte) : Prop :=
      (s.toMemory s.cur e j = (true, false) → held i j) ∧ (s.toMemory s.cur e j ≠ (true, false) → s.logRoom s.cur e j = true → starts i j buf)
    let raises (i : Instr) (b : Option Body) : Prop := ∀ code val, b = some (.fault code val) → EngRaises i .cpy h 0 [] 0 0 code val s
    let job (i : Instr) : CpyJob := s.jobOf i.word
    let test (i : Instr) (modes : List Nat) (a b : Bool) : Option Body := s.cpyCommon i.word (job i) modes a b
    let tiles (i : Instr) (two : Bool) : Option Body := s.cpyEnts e i.word (job i) two
    let far (i : Instr) (pull : Bool) : Option Body := s.cpyFar e i.word (job i) pull
    (∀ i ∈ [Instr.copy h o, .copyXor h o],
      let j := job i
      (test i [0, 1, 2, 3] false false = none → s.cpyMoves e i.word j false false = none →
        (s.logRoom s.cur e j = true → raises i (s.jobPend e j)) ∧ (s.jobPend e j = none → moves i j (if j.mode = 0 then s.me.spadBytes j.src0 j.len0 else []))) ∧
      raises i (test i [0, 1, 2, 3] false false) ∧ (test i [0, 1, 2, 3] false false = none → raises i (s.cpyMoves e i.word j false false))) ∧
    (let i := Instr.cfill h o
     let j := job i
     let a := if j.mode = 0 then j.src0 else if j.mode = 1 then j.spa1 else j.spa3
     raises i (test i [0, 1, 3] false false) ∧
     (test i [0, 1, 3] false false = none → spadRange a 32 = none → s.cpyPend a 32 = none → s.cpyMoves e i.word j true false = none → s.logRoom s.cur e j = true →
       moves i { j with pat := s.me.spadBytes a 32 } [])) ∧
    (∀ i ∈ [Instr.cpush h o, .cpushXor h o], (far i false = none → raises i (s.jobPend e (job i)) ∧ (s.jobPend e (job i) = none → held i (job i))) ∧ raises i (far i false)) ∧
    ((far (.cpull h o) true = none → s.jobPend e (job (.cpull h o)) = none ∧ held (.cpull h o) (job (.cpull h o))) ∧ raises (.cpull h o) (far (.cpull h o) true)) ∧
    (let i := Instr.cxch h o
     let j := job i
     let none3 := (∃ t ph, s.me.task = some t ∧ t.superPh = some ph) ∧ o.tida.toNat < 256 ∧ o.tidb.toNat < 64
     raises i (test i [0] true true) ∧
     (test i [0] true true = none → ¬none3 → EngRaises i .cpy h 0 [] 0 0 0x01 i.word s) ∧
     (test i [0] true true = none → none3 → spadRange j.src0 j.len0 = none → s.cpyPend j.src0 j.len0 = none → held i j)) ∧
    (let i := Instr.ccb h o
     let j := job i
     let n := if j.mode = 0 then j.len0 else if j.mode = 1 then j.rows * j.pitch else j.len3
     test i [0, 1, 3] false true = none →
       (s.me.cbs.get none (o.tidb.toNat % 32) = none → EngRaises i .cpy h 0 [] 0 0 0x01 i.word s) ∧
       ∀ b, s.me.cbs.get none (o.tidb.toNat % 32) = some b →
         let size := 32 * ((b.w0.extractLsb' 19 11).toNat + 1)
         let at_ := (b.widx + b.filling) % ((b.w0.extractLsb' 30 8).toNat + 1)
         (32 ≤ o.tidb.toNat ∨ n ≠ size → EngRaises i .cpy h 0 [] 0 0 0x01 i.word s) ∧
         (o.tidb.toNat < 32 → n = size → s.cpyMoves e i.word j false true = none → b.free ≠ 0 → s.logRoom s.cur e j = true →
           raises i (s.jobPend e j) ∧ (s.jobPend e j = none →
           EngDoes i .cpy h { h with sig := 0 } 0 [] 0 0 [] (fun e _ c d => ∃ x : CpyOp, x.slot = s.me.cpy.ring.head ∧ x.e = e ∧ x.sig = h.sig ∧
             x.job = { j with cbAddr := (b.w0.extractLsb' 0 19).toNat + size * at_, cbSlot := at_ } ∧ x.k = 0 ∧ x.done = false ∧
             x.after = s.engAfter .cpy h ∧ pends c d ∧ d = { c with
               cpyQ := c.cpyQ ++ [x], pendBits := d.pendBits
               cbs := c.cbs.set none o.tidb.toNat (some { b with free := b.free - 1, filling := b.filling + 1 }) }) (fun _ x => x) s))) ∧
    ((tiles (.tcow h o) false = none → starts (.tcow h o) (job (.tcow h o)) []) ∧ raises (.tcow h o) (tiles (.tcow h o) false)) ∧
    (∀ d, s.tdesc s.cur e o.tida = some d →
      (tiles (.tmigDemote h o) false = none → (d.nodem = false → starts (.tmigDemote h o) (job (.tmigDemote h o)) []) ∧
        (d.nodem = true → EngRaises (.tmigDemote h o) .cpy h 0 [] 0 0 0x01 (Instr.tmigDemote h o).word s)) ∧
      (tiles (.tmigPromote h o) false = none → (d.noprom = false ∧ o.q.toNat ≤ 1 → starts (.tmigPromote h o) (job (.tmigPromote h o)) []) ∧
        (d.noprom = true ∨ 1 < o.q.toNat → EngRaises (.tmigPromote h o) .cpy h 0 [] 0 0 0x01 (Instr.tmigPromote h o).word s))) ∧
    ((tiles (.tshare h o) true = none → held (.tshare h o) (job (.tshare h o))) ∧ raises (.tshare h o) (tiles (.tshare h o) true)) ∧
    ((tiles (.tfree h o) false = none → held (.tfree h o) (job (.tfree h o))) ∧ raises (.tfree h o) (tiles (.tfree h o) false)) ∧
    (let i := Instr.cpref h o
     let j := job i
     raises i (test i [2, 3] false false) ∧ (test i [2, 3] false false = none → (j.mode = 2 → o.tidb = 0) →
       let s0 := s.cpyPrefetch s.cur e j
       s0 = { s with l2 := s0.l2, oreqs := s0.oreqs, cores := s0.cores } ∧ s0.me = { s.me with ttc := s0.me.ttc } ∧
       (∀ m, m ≠ s.cur → s0.core m = s.core m) ∧ ∀ es c', EngMay s .cpy h 0 [] 0 0 es c' →
         ∃ t m, exec i s = .next t ∧ slots j m ∧ EngRan s t .cpy h e { c' with cslot := m, ttc := s0.me.ttc } [] (fun y => y) s0)) ∧
    EngDoes (.csync h o) .cpy h { h with sig := 0 } 0 [] 0 0 [] (fun e _ c d => ∃ x : CpyOp, x.slot = s.me.cpy.ring.head ∧ x.e = e ∧ x.sig = h.sig ∧ x.done = true ∧
      x.job = { w := (Instr.csync h o).word } ∧ d = { c with cpyQ := c.cpyQ ++ [x] }) (fun _ x => x) s

/-- R450 to R454: NSEND, NRECV, NPUT and NGET hold the transfer that the 64 bytes of scratchpad at 64 × SEL describe, and apply their SIG only at its
completion; NCSET holds a counter's new record; NCRD writes a counter to scratchpad, its TAG entering the word's coordinate; NCTL.flush waits, and
NCTL.cancel is held. A descriptor that its rule refuses raises ILLEGAL, SPAD_RANGE or the window's fault, before. -/
def Obligations.NetworkWords : Prop :=
  ∀ (h : Hdr) (o : SY) (s : State),
    let a := 64 * o.sel.toNat
    let word (i : Nat) : Word := bitsOf 64 (s.me.spadBytes (a + 8 * i) 8)
    let ws := (List.range 8).map word
    let r := s.me.nctr.get {} o.d.toNat
    let transfer (i : Instr) (k : Nat) : Prop :=
      (s.netChk i.word k a = none → EngHolds i .net h { h with sig := 0 } h.sig (.net (BitVec.ofNat 3 k) ws) (fun c d => d = c) s) ∧
      (∀ code val, s.netChk i.word k a = some (.fault code val) → EngRaises i .net h 0 [] 0 0 code val s)
    transfer (.nsend h o) 0 ∧ transfer (.nrecv h o) 1 ∧ transfer (.nput h o) 2 ∧ transfer (.nget h o) 3 ∧
    (a + 16 ≤ 0x70000 → s.me.pendingAt s.cycle a 16 = none →
      ((word 1).toNat < 2 ^ 56 → EngHolds (.ncset h o) .net h h 0 (.net 4 [word 0, word 1]) (fun c d => d = c) s) ∧
      (2 ^ 56 ≤ (word 1).toNat → EngRaises (.ncset h o) .net h 0 [] 0 0 0x01 (Instr.ncset h o).word s)) ∧
    EngDoes (.ncrd h o) .net h h 0 [] 0 r.tag [] (fun _ _ c d => ∃ m, d = { c with spad := m } ∧
      (∀ j, j < 8 → m.get 0 (a + j) = r.value.extractLsb' (8 * j) 8) ∧ (∀ j, j < 6 → m.get 0 (a + 8 + j) = r.thresh.extractLsb' (8 * j) 8) ∧
      m.get 0 (a + 14) = r.tok ∧ m.get 0 (a + 15) = 0 ∧ ∀ x, x < a ∨ a + 16 ≤ x → m.get 0 x = c.spad.get 0 x) (fun _ x => x) s ∧
    EngDoes (.nctlFlush h o) .net h { h with sig := 0 } 0 [] 0 0 [] (fun e _ c d => ∃ x : WaitOp, x.eng = .net ∧ x.flush = true ∧ x.e = e ∧ x.sig = h.sig ∧
      x.slot = s.me.net.ring.head ∧ d = { c with waitQ := c.waitQ ++ [x] }) (fun _ x => x) s ∧
    EngHolds (.nctlCancel h o) .net h h 0 (.net 5 []) (fun c d => d = c) s

/-! ### Words of every engine (R175, R324) -/

/-- R175, R324: on every engine NOP has no effect, and MARK none but to wait behind every earlier word of its ring (on the control core it acts as NOP);
ILL raises ILLEGAL with itself, before. -/
def Obligations.CommonWords : Prop :=
  (∀ (h : Hdr) (s : State),
    (s.curEng = .cc → CcMay s h [] [] 0 → CcDoes (.nop h) h [] s.me [] (s.me.pc + 8) s s ∧ CcDoes (.mark h) h [] s.me [] (s.me.pc + 8) s s) ∧
    (∀ eng : Eng, eng = .acc ∨ eng = .cpy ∨ eng = .net → s.curEng = eng →
      EngDoes (.nop h) eng h h 0 [] 0 0 [] (fun _ _ c d => d = c) (fun _ x => x) s ∧
      EngDoes (.mark h) eng h { h with sig := 0 } 0 [] 0 0 [] (fun e _ c d => ∃ x : WaitOp, x.eng = eng ∧ x.flush = false ∧ x.slot = (s.me.eng eng).ring.head ∧
        x.id = s.nextId ∧ x.e = e ∧ x.sig = h.sig ∧ d = { c with waitQ := c.waitQ ++ [x] }) (fun _ x => x) s) ∧
    (s.curEng = .exe → ExeComputes (.nop h) h 0 0 {} (fun _ _ fs => fs = []) s ∧ ExeComputes (.mark h) h 0 0 {} (fun _ _ fs => fs = []) s) ∧
    (s.curEng = .mtx → MtxIssues (.nop h) h none (fun _ => True) [] 0 (fun _ => 0) id s ∧ MtxIssues (.mark h) h none (fun _ => True) [] 0 (fun _ => 0) id s)) ∧
  ∀ (bits : BitVec 64) (s : State), ∃ e, exec (.ill bits) s =
    .next (s.raise s.cur s.curEng 0x01 bits e true (s.me.eng s.curEng).ring.head) ∧ (s.me.eng s.curEng).elast.toNat ≤ e.toNat

/-! ### Entries at their homes (R131, R212 to R216, R222 to R243, R319, R340 to R347, R440 to R448) -/

/-- R131, R222 to R232, R340, R343, R346, R347, R445 to R448: PERFORMED_AT_HOME performs the entry of that number once all that is ordered before it has been,
or drops it with its incarnation: a store and a tensor write reach memory, a table, phaser or cache word has its effect, a copy moves its next granule, a
request leaves for its device and a transfer begins. Only then does an entry signal. A supervisor core's access uses the grant that then stands (R143);
a remote read takes the line of the L2 unless that has been evicted meanwhile (a free choice, log entry 116), and waits for one on its way (R242). -/
def Obligations.PerformedAtHome : Prop :=
  (∀ (s : State) (h : Held), s.flying.find? (fun x => x.id == h.id) = some h →
    (isSup h.core = false → s.live h.cid h.inc = false → exec (.performedAtHome h.id) s = .next { s with flying := s.flying.filter fun x => x.id ≠ h.id }) ∧
    (isSup h.core = true ∨ s.live h.cid h.inc = true → s.heldReady h = false → exec (.performedAtHome h.id) s = .next s)) ∧
  ∀ (s : State) (h : Held), HomeMay s h →
    let gone : State := { s with flying := s.flying.filter fun x => x.id ≠ h.id }
    let ends (u : State) : Prop := exec (.performedAtHome h.id) s = .next (u.finishFly h)
    let leaves (u : State) : Prop := exec (.performedAtHome h.id) s = .next u
    let fails (code : BitVec 8) : Prop := leaves (((gone.heldFail h code h.w 0).parentDone h).unparkOp h)
    let asks (dev : BitVec 8) (g : State) (f : Flit) : Prop := s.seqRoom dev h.cid h.inc 0 = true → leaves (g.request h { f with dstdev := dev } [])
    let seen := s.heldSee h
    let granted (ks : List Nat) (a : Word) (n : Nat) (p : Perm) (g : List Nat) : Prop :=
      if isSup h.core = true then s.coreKeys h.core a n p = .inl g else g = ks
    seen = { s with l2 := seen.l2, oreqs := seen.oreqs } ∧
    (∀ a n v ks, h.act = .store a n v ks →
      (∀ g, granted ks a n .w g → ∃ u, ends u ∧ Stored seen u (g.zip (leBytes v.toNat n))) ∧
      ∀ code, isSup h.core = true → s.coreKeys h.core a n .w = .inr code → fails code) ∧
    (∀ b, h.act = .bytes b → ∃ u, ends u ∧ Stored s u b) ∧
    (∀ a d ks, h.act = .ldra a d ks →
      (∀ g, granted ks a 8 .r g → s.anyPoison g = false →
        leaves { seen with flying := gone.flying, areqs := s.areqs ++ [{ tree := .one h, done := true, val := bitsOf 64 (g.map s.byte) }] }) ∧
      ∀ code, isSup h.core = true → s.coreKeys h.core a 8 .r = .inr code → fails code) ∧
    (∀ t cs d u runs ks, h.act = .twrite t cs → s.tdesc h.core h.e t = some d →
      let own := s.runHolder h
      let known := (runsOf own.runs true t).filter fun r => (tilesOf cs).contains r.1
      s.writeTiles h.core (claimKey h.id) h.eng h.e d t (coversRun d cs) ((tilesOf cs).filter fun k => !known.any fun r => r.1 == k) known = .inr (u, runs) →
      u.cellKeys h.cid runs cs = some ks →
      let waits := h.eng = .acc ∧ (u.core h.core).unlanded h.id (ks.map (·.1)) = true
      let w := u.l2See (u.ctx h.cid).pid true (lineHeads ((cellGpas runs cs).zip (ks.map (·.1))))
      let w' := if own.id = h.id then w else w.setFly { own with runs := keepRuns own.runs true t runs }
      (waits → leaves u) ∧ (¬waits → ∃ v, ends v ∧ Stored w' v ((ks.zip cs).map fun (k, c) => (k.1, mergeByte (u.byte k.1) c.v c.mask)))) ∧
    (∀ t x, h.act = .tdset t x → ends ((s.gpaPut h.cid ((s.ctx h.cid).ttab.toNat + 64 * t.toNat) 64 x.toNat).shootdown h.cid t none)) ∧
    (∀ t, h.act = .tdinv t →
      let a := (s.ctx h.cid).ttab.toNat + 64 * t.toNat
      let x : BitVec 512 := BitVec.ofNat 512 (s.gpaNum h.cid a 64)
      ∃ y : BitVec 512, y.getLsbD 304 = false ∧ (∀ i, i ≠ 304 → y.getLsbD i = x.getLsbD i) ∧ ends ((s.gpaPut h.cid a 64 y.toNat).shootdown h.cid t none)) ∧
    (∀ t d k, s.homeDesc h t = some d → k < d.tiles → s.pageOk h.cid (d.entAddr k) = true →
      let x := s.entAt h.cid (d.entAddr k)
      let held := entMig x = true ∨ s.writing h.cid t k = true
      (∀ v, h.act = .ttset t k v → (¬held → ends (s.putEnt h.cid t k (d.entAddr k) v)) ∧ (held → leaves s)) ∧
      (h.act = .ttref t k →
        (d.phased = true ∨ entIdx x = 0 ∨ s.rc h.cid (entIdx x) = 0xFFFFFFFF → fails 0x01) ∧
        (d.phased = false → entIdx x ≠ 0 → s.rc h.cid (entIdx x) ≠ 0xFFFFFFFF → ends (s.setRc h.cid (entIdx x) (s.rc h.cid (entIdx x) + 1)))) ∧
      (h.act = .ttunref t k →
        (entAbsent x = true → ends s) ∧
        (entAbsent x = false → held → leaves s) ∧
        (entAbsent x = false → ¬held →
          let bad := entSh x = true ∧ (entIdx x = 0 ∨ s.rc h.cid (entIdx x) = 0)
          (bad → fails 0x01) ∧
          (¬bad → s.quarFits h.cid (s.dropAdds h.cid x) = false → leaves s) ∧
          (¬bad → s.quarFits h.cid (s.dropAdds h.cid x) = true → ends ((s.putEnt h.cid t k (d.entAddr k) 0).dropRun h.cid h.e x (d.pool (entTier x))))))) ∧
    (∀ ph mode k, h.act = .phreg ph mode → (s.core h.core).task = some k →
      let r := (s.phaser ph).register h.cid h.inc { launch := k.launch, team := k.team, t := k.t, core := h.core, mode := mode } k
      (∀ p, r = .ok p → ends (s.setPhaser ph p)) ∧ (r = .priv → fails 0x14) ∧ (r = .illegal → fails 0x01)) ∧
    (∀ ph k, h.act = .phdrop ph → (s.core h.core).task = some k →
      ((s.phaser ph).owner ≠ some (h.cid, h.inc) → fails 0x14) ∧
      ((s.phaser ph).owner = some (h.cid, h.inc) → ((s.phaser ph).dropTask k = none → fails 0x01) ∧ ∀ p, (s.phaser ph).dropTask k = some p → ends (s.setPhaser ph p))) ∧
    (∀ a k, h.act = .dwb a k → ends s) ∧
    (∀ a k, h.act = .dinv a k → ∃ u, ends u ∧ u = { s with l2 := u.l2, oreqs := u.oreqs } ∧ ∀ l, l ∈ u.l2 ↔ l ∈ s.l2 ∧
      ¬(l.dev.isSome = true ∧ l.pid = pidTag (s.ctx h.cid).pid ∧ a.toNat / 64 ≤ l.addr ∧ l.addr < a.toNat / 64 + k)) ∧
    (∀ sc a k, h.act = .iinv sc a k → ends (s.invalidate h.core sc a.toNat k)) ∧
    (∀ j, h.act = .cpy j → (j.isRemote = false ∨ j.dev = s.conf.devnum) → j.opc ≠ 0x70 → j.opc ≠ 0x74 → j.opc ≠ 0x75 →
      let n := j.total (s.lenDesc h.core h.e j)
      (n ≤ h.k → ends s) ∧
      (h.k < n → ∀ u, s.moveOne h.core (claimKey h.id) h.e j false h.runs (j.move h.core [] (s.lenDesc h.core h.e j) h.k)
        (fun runs u => .go (u.flyStep { h with runs := runs } n)) = .go u → leaves u)) ∧
    (∀ j, h.act = .cpy j → (j.opc = 0x74 → leaves (s.performShare h j)) ∧ (j.opc = 0x75 → leaves (s.performFree h j)) ∧ (j.opc = 0x70 → leaves (s.performExch h j))) ∧
    (∀ j, h.act = .cpy j → j.isRemote = true → j.dev ≠ s.conf.devnum → leaves (s.sendPacket h j)) ∧
    (∀ op a d x y nc ks, h.act = .atomic op a d x y nc ks → leaves { gone with areqs := s.areqs ++
      [{ op := op, addr := a, x := x, y := y, nc := nc, ks := ks, tree := .one h, came := s.cycle }] }) ∧
    (∀ dev a d, h.act = .rload dev a d →
      let line := s.l2Find (some dev) (s.ctx h.cid).pid a.toNat
      let coming := ∃ o ∈ s.oreqs, o.keep = true ∧ o.fetches dev (a.toNat / 64) = true ∧ pidTag (s.ctx o.held.cid).pid = pidTag (s.ctx h.cid).pid
      (line = none → coming → leaves s) ∧ (line = none → ¬coming → asks dev gone { kind := 1, addr := a }) ∧
      (∀ l, line = some l → Config.freeBit (s.freeCtr + h.id) = true → asks dev { gone with l2 := s.l2.erase l } { kind := 1, addr := a }) ∧
      (∀ l, line = some l → Config.freeBit (s.freeCtr + h.id) = false → leaves { gone with
        l2 := l :: s.l2.erase l
        areqs := s.areqs ++ [{ tree := .one h, done := true, val := l.data.extractLsb' (8 * (a.toNat % 64)) 64 }] })) ∧
    (∀ dev a v, h.act = .rstore dev a v → asks dev (gone.touchLine h dev a.toNat (some v)) { kind := 2, addr := a, opnd := v }) ∧
    (∀ dev op a d x y nc, h.act = .ratomic dev op a d x y nc →
      asks dev (gone.touchLine h dev a.toNat none) { kind := 3, addr := a, opnd := x, opnd2 := y, aop := op.code.1, aq := op.code.2, nc := nc }) ∧
    (∀ op ws, h.act = .net op ws → leaves (gone.netStart h op.toNat ws))

/-- R237 to R241, R321: an atomic reads and writes its word indivisibly at its home; two combine in the mesh only where R238 allows, and the reply gives each
member what a serial order of the members would (its operator associates); a value returns to its register unless a later word has written it. Over an
uncorrectable error nothing is written, the member receives 0, and ATOM_POISON is raised, after. -/
def Obligations.MeshAtomics : Prop :=
  (∀ a x y : Word,
    AtomOp.result .add a x y = a + x ∧ AtomOp.result .and a x y = a &&& x ∧ AtomOp.result .or a x y = a ||| x ∧ AtomOp.result .xor a x y = a ^^^ x ∧
    AtomOp.result (.min true) a x y = (if x.ult a then x else a) ∧ AtomOp.result (.min false) a x y = (if x.slt a then x else a) ∧
    AtomOp.result (.max true) a x y = (if a.ult x then x else a) ∧ AtomOp.result (.max false) a x y = (if a.slt x then x else a) ∧
    AtomOp.result .swp a x y = x ∧ AtomOp.result .cas a x y = (if a = x then y else a)) ∧
  (∀ (op : AtomOp) (a x y : Word), op.combines false = true → op ≠ .fadd true → op.result (op.result a x 0) y 0 = op.result a (op.combine x y) 0) ∧
  (∀ (s : State) (x y : Nat) (a b : AReq), s.areqs[x]? = some a → s.areqs[y]? = some b →
    (s.mayCombine a b = true → a.op = b.op ∧ a.op ≠ .cas ∧ a.op ≠ .fadd false ∧ a.nc = false ∧ b.nc = false ∧ a.addr = b.addr ∧
      a.tree.first.cid = b.tree.first.cid ∧ a.tree.first.inc = b.tree.first.inc ∧ a.tree.members.length + b.tree.members.length ≤ 64 ∧
      a.tree.first.quals = b.tree.first.quals ∧ s.meshLate a b = false ∧ ∃ r, r ∈ s.meshPath a ∧ r ∈ s.meshPath b ∧ (a.at_ = some r ∨ s.waitAt r < 32)) ∧
    (x ≠ y → s.mayCombine a b = true → exec (.meshCombine x y) s =
      .next { s with areqs := (s.areqs.set x { a with
        x := a.op.combine a.x b.x, tree := .two a.tree b.tree a.x, at_ := s.meetAt a b, came := s.cycle }).eraseIdx y }) ∧
    (s.mayCombine a b = false → exec (.meshCombine x y) s = .next s)) ∧
  (∀ (s : State) (i : Nat) (a : AReq), s.areqs[i]? = some a →
    let h := a.tree.first
    let old : Word := bitsOf 64 (a.ks.map s.byte)
    (a.done = false → isSup h.core = false → s.live h.cid h.inc = false → exec (.homeAtomicPerform i) s = .next { s with areqs := s.areqs.eraseIdx i }) ∧
    (a.done = false → isSup h.core = true ∨ s.live h.cid h.inc = true → s.homeOn h = true → s.areqFree a [] = true →
      (isSup h.core = true → ∃ g, s.coreKeys h.core a.addr a.ks.length .atomic = .inl g) →
      (s.anyPoison a.ks = true → exec (.homeAtomicPerform i) s = .next { s with areqs := s.areqs.set i { a with done := true, poison := true, val := 0 } }) ∧
      (s.anyPoison a.ks = false → ∃ t, exec (.homeAtomicPerform i) s = .next t ∧ t = { s.heldSee h with mem := t.mem, areqs := s.areqs.set i { a with done := true, val := old } } ∧
        (∀ k, k ∉ a.ks → t.byte k = s.byte k) ∧
        (a.ks.Nodup → ∀ j, j < a.ks.length → t.byte (a.ks.getD j 0) = (a.op.result old a.x a.y).extractLsb' (8 * j) 8))) ∧
    (∀ l r x, a.done = true → a.tree = .two l r x → exec (.replySplit i) s = .next { s with areqs := s.areqs.eraseIdx i ++
      [{ a with tree := l }, { a with tree := r, val := if a.poison then 0 else a.op.combine a.val x }] }) ∧
    (∀ h, a.done = true → a.tree = .one h →
      let gone : State := { s with areqs := s.areqs.eraseIdx i }
      let here := isSup h.core = true ∨ (s.live h.cid h.inc = true ∧ h.onCore (s.core h.core) = true)
      let d := h.act.dest
      let waits := d ≠ 0 ∧ (s.core h.core).sPend.get 0 d.toNat = h.id
      let u (v : Word) : State := if h.acq = some 4 then (if waits then gone.modCore h.core fun c =>
          { c with s := c.s.set 0 d.toNat v, sPend := c.sPend.set 0 d.toNat 0, deadS := c.deadS.set none d.toNat none } else gone).dropRemote h.cid
        else (if waits then gone.modCore h.core fun c =>
          { c with s := c.s.set 0 d.toNat v, sPend := c.sPend.set 0 d.toNat 0, deadS := c.deadS.set none d.toNat none } else gone)
      (here → a.poison = false → exec (.atomicResult i) s = .next ((u a.val).heldSig h)) ∧
      (here → a.poison = true → exec (.atomicResult i) s = .next ((u a.val).raise h.core .cc 0x0F a.addr h.e false 0)) ∧
      (¬here → exec (.atomicResult i) s = .next (gone.countOrph (h.core / 64)))))

/-- R176, R189, R214, R216, R217, R223, R235: the operations that run on after their word. A copy on write, a shadow fill and a migration flip the entry that they were
begun for, and leave a changed one alone, a run that was taken from a pool quarantined; a load's bytes land in its queue entry or free its register; a copy word's
next granule is moved, both once the acquires and fences before them have been performed (R228, R230); and a circular buffer is filled slot by slot in order. -/
def Obligations.TileCompletions : Prop :=
  (∀ (s : State) (i : Nat) (t : TileOp), s.tileOps[i]? = some t →
    let gpa := t.entAddr.toNat
    let x := t.ent
    let rest (u : State) : State := { u with tileOps := u.tileOps.filter fun o => o ≠ t }
    let copied (a b : BitVec 36) : State := rest (s.copyWhole t.cid a b t.run)
    (t.kind = 0 → s.tilePlaced t = true →
      let u := copied (entFrame x) t.frame
      let n := s.rc t.cid (entIdx x)
      s.quarFits t.cid (if s.entAt t.cid gpa = x ∧ n ≠ 1 then 0 else 1) = true →
      let v := (u.putEnt t.cid t.tid t.tile gpa (entWith x t.frame (entShadow x) (entOwner x) (entSph x) t.idx (entTier x) (entMig x) false true)).setRc t.cid (entIdx x) (n - 1)
      (u.entAt t.cid gpa = x → exec (.cowCopyDone i) s = .next (if n = 1 then v.quarantine t.cid t.e (some (entFrame x)) t.pool (entIdx x) else v)) ∧
      (u.entAt t.cid gpa ≠ x → exec (.cowCopyDone i) s = .next ((u.quarantine t.cid t.e (some t.frame) t.pool t.idx).shootdown t.cid t.tid (some t.tile)))) ∧
    (t.kind = 1 → s.tilePlaced t = true →
      let new := entWith x (entFrame x) (entShadow x) (BitVec.ofNat 8 t.core) t.phase t.epoch (entTier x) (entMig x) false false
      (s.entAt t.cid gpa = x → s.logs t.core t.e = false →
        exec (.shadowFillDone i) s = .next ((copied (entFrame x) t.frame).putEnt t.cid t.tid t.tile gpa new)) ∧
      (s.entAt t.cid gpa ≠ x → exec (.shadowFillDone i) s = .next ((rest s).shootdown t.cid t.tid (some t.tile)))) ∧
    (t.kind = 2 → s.tilePlaced t = true →
      s.quarFits t.cid (if s.runPoisoned t.cid (entFrame x) t.run = false ∧ s.entAt t.cid gpa = x then s.dropAdds t.cid x else 1) = true →
      let u := copied (entFrame x) t.frame
      let new := if entSh x = true then entWith x t.frame (entShadow x) (entOwner x) (entSph x) t.idx t.tier false false true
        else entWith x t.frame (entShadow x) (entOwner x) (entSph x) (entIdx x) t.tier false (entCow x) false
      let mine := ∃ k, (s.core t.core).task = some k ∧ k.cid = t.cid ∧ k.inc = t.inc
      let v := u.putEnt t.cid t.tid t.tile gpa new
      (s.runPoisoned t.cid (entFrame x) t.run = true → s.entAt t.cid gpa = x →
        let w := (rest (s.putEnt t.cid t.tid t.tile gpa (entSetMig x false))).quarantine t.cid t.e (some t.frame) t.toPool t.idx
        (mine → exec (.migrationFlip i) s = .next (w.raise t.core .cpy 0x13 (BitVec.ofNat 64 (frameAddr (entFrame x))) t.e false 0)) ∧
        (¬mine → exec (.migrationFlip i) s = .next w)) ∧
      (s.runPoisoned t.cid (entFrame x) t.run = false → u.entAt t.cid gpa = x → exec (.migrationFlip i) s =
        .next ((if entSh x = true then v.setRc t.cid t.idx 1 else v).dropRun t.cid t.e x t.pool)) ∧
      (s.runPoisoned t.cid (entFrame x) t.run = false → u.entAt t.cid gpa ≠ x → exec (.migrationFlip i) s =
        .next ((u.quarantine t.cid t.e (some t.frame) t.toPool t.idx).shootdown t.cid t.tid (some t.tile))))) ∧
  (∀ (s : State) (n : Nat) (l : Landing), (s.core n).landQ = [l] → s.coreOn n = true → s.clear l.after = true → l.sig = 0 ∨ ((s.core n).tok.get {} l.sig.toNat).count.toNat < 0xFFFF →
    let ended (t : State) : Prop := (t.core n).landQ = [] ∧ (l.sig ≠ 0 → ((t.core n).tok.get {} l.sig.toNat).count.toNat = ((s.core n).tok.get {} l.sig.toNat).count.toNat + 1)
    (∀ k, l.queue = none → l.g = some k → ∃ t, exec (.dataLanded n 1) s = .next t ∧ ended t ∧ (t.core n).gWait.get false k = false ∧ (t.core n).g = (s.core n).g) ∧
    (∀ q id x, l.queue = some (q, id) → q < 6 → (s.core n).queue q = [x] → x.id = id → l.id = id → Config.freeBit s.freeCtr = true →
      ∃ t y, exec (.dataLanded n 1) s = .next t ∧ ended t ∧ (t.core n).queue q = [y] ∧ y.landed = true ∧ y.e = x.e ∧ y.eos = x.eos ∧
        ∀ j k m, j < 256 → x.src[j]? = some (some (k, m)) → y.data.extractLsb' (8 * j) 8 = x.data.extractLsb' (8 * j) 8 ||| (s.byte k &&& m))) ∧
  (∀ (s : State) (n : Nat) (o : CpyOp) (os : List CpyOp), s.engRuns n .cpy = true → (s.core n).cpyQ = o :: os →
    let j := o.job
    let may := s.clear o.after = true ∧ s.cpyAfter n o = false
    (∀ u, o.done = true ∨ may → s.cpyAdv n o = .go u → exec (.dataLanded n 4) s = .next u) ∧
    (may → j.opc = 0x6C → j.fn ≠ 1 → j.mode = 0 → o.done = false → o.k < j.len0 / 32 → 32 * o.k + 32 ≤ o.buf.length → (s.core n).peel.length + 2 ≤ 1024 →
      (∀ p ∈ os, p.id ≠ o.id) →
      ∃ t, exec (.dataLanded n 4) s = .next t ∧ (t.core n).cpyQ = { o with k := o.k + 1, nres := none } :: os ∧
        (∀ a, a < 32 → (t.core n).spad.get 0 (j.dst0 + 32 * o.k + a) = o.buf.getD (32 * o.k + a) 0) ∧
        ∀ a, a < j.dst0 + 32 * o.k ∨ j.dst0 + 32 * o.k + 32 ≤ a → (t.core n).spad.get 0 a = (s.core n).spad.get 0 a)) ∧
  ∀ (s : State) (n i : Nat) (b : Cb) (o : CpyOp), (s.core n).cbs.get none i = some b →
    ((s.core n).cpyQ.find? fun p => p.job.opc == 0x71 && p.done && p.job.tidb.toNat == i) = some o → s.engRuns n .cpy = true →
    (o.job.cbSlot ≠ b.widx → exec (.ccbFillComplete n i) s = .next s) ∧
    (o.job.cbSlot = b.widx → o.sig = 0 ∨ ((s.core n).tok.get {} o.sig.toNat).count.toNat < 0xFFFF →
      ∃ t, exec (.ccbFillComplete n i) s = .next t ∧ (∀ p ∈ (t.core n).cpyQ, p.id ≠ o.id) ∧
        (t.core n).cbs.get none i = some { b with filled := b.filled + 1, filling := b.filling - 1, widx := (b.widx + 1) % ((b.w0.extractLsb' 30 8).toNat + 1),
                                                  tag := if b.tag.ult o.e then o.e else b.tag } ∧
        (o.sig ≠ 0 → ((t.core n).tok.get {} o.sig.toNat).count.toNat = ((s.core n).tok.get {} o.sig.toNat).count.toNat + 1))

/-! ### The rotor fabric (R56 to R78, R459) -/

/-- R56, R58, R59, R61 to R63, R74, R76 to R78: the port controls and counters, withdrawn and retrained wavelengths, a port that goes down reported; flits numbered
and striped over the active wavelengths, the last 512 kept for replay; at each slot what missed its own is queued again, or at a relay dropped, and the packets
for it leave in the order of class, GTS and source; time stamps from the root; and a spare that takes over a number. -/
def Obligations.FabricPorts : Prop :=
  (∀ (s : State) (p : Nat), p < 16 →
    let x := s.port p
    let down (y : Port) : Prop := y.act = 0 ∨ y.ctl.getLsbD 12 = true
    let turnsOut (i : Instr) (f : Port → Port) (o : List Out) : Prop := ∃ t, exec i s = .next t ∧ t = { s with ports := t.ports, wfe := t.wfe, out := s.out ++ o } ∧
      t.port p = f x ∧ (∀ q, q ≠ p → t.port q = s.port q) ∧ (down x ∨ ¬down (f x) → t.wfe = s.wfe) ∧ (¬down x → down (f x) → t.wfe = s.wfe ||| 0x10)
    let turns (i : Instr) (f : Port → Port) : Prop := turnsOut i f []
    turns (.fxctlClrcnt p) (fun x => { x with corr := 0, unc := 0, repl := 0, wdr := 0, rtry := 0, dup := 0, stale := 0, orph := 0, comb := 0, bad := 0 }) ∧
    turns (.fxctlPdis p true) (fun x => { x with ctl := x.ctl ||| 0x1000, act := 0, trn := 0 }) ∧
    turns (.fxctlPdis p false) (fun x => { x with ctl := x.ctl &&& ~~~0x1000#64, trn := if x.ctl.getLsbD 12 then x.ctl.extractLsb' 4 8 else x.trn }) ∧
    (∀ m : BitVec 8, turns (.fxctlWena p m) (fun x => { x with
      ctl := (x.ctl &&& ~~~0xFF0#64) ||| (m.setWidth 64 <<< 4), act := x.act &&& m, trn := (x.trn &&& m) ||| (m &&& ~~~(x.ctl.extractLsb' 4 8))
      wdr := bump x.wdr ((List.range 8).filter fun k => x.act.getLsbD k && !m.getLsbD k).length
      trnErrs := x.trnErrs.filter fun y => !(x.act &&& ~~~m).getLsbD y.1 })) ∧
    (∀ k asked, k < 8 →
      let b : BitVec 8 := BitVec.ofNat 8 (2 ^ k)
      let berx := (x.ctl.extractLsb' 0 4).toNat
      let e := x.errs.get [] k
      let r := x.trnErrs.get [] k
      let out := x.act.getLsbD k = true ∧ (asked = true ∨ e.length * 300000 < e.sum * 10 ^ berx)
      let back := x.trn.getLsbD k = true ∧ x.ctl.getLsbD (4 + k) = true ∧ (asked = true ∨ r.length = 16 ∧ r.sum * 10 ^ (berx + 1) < 16 * 300000)
      let tells (w : Bool) : List Out := if asked then [] else [.waveCtl p k w]
      (out → turnsOut (.wavelengthWithdraw p { lam := k, asked := asked }) (fun x => { x with
        act := x.act &&& ~~~b, trn := if x.ctl.getLsbD (4 + k) then x.trn ||| b else x.trn, wdr := bump x.wdr 1, errs := x.errs.set [] k []
        trnErrs := x.trnErrs.filter fun y => y.1 != k }) (tells true)) ∧
      (¬out → exec (.wavelengthWithdraw p { lam := k, asked := asked }) s = .next s) ∧
      (back → turnsOut (.wavelengthRejoin p { lam := k, asked := asked }) (fun x => { x with act := x.act ||| b, trn := x.trn &&& ~~~b, trnErrs := x.trnErrs.set [] k [] }) (tells false)) ∧
      (¬back → exec (.wavelengthRejoin p { lam := k, asked := asked }) s = .next s)) ∧
    (∀ lsn, turnsOut (.linkReplay { port := p, lsn := lsn }) id [.linkNack p lsn] ∧
      (∀ g, x.replay.find? (fun y => y.lsn == lsn) = some g → s.portLeft p ≠ 0 →
        turnsOut (.linkReplay { port := p, lsn := lsn, sender := true }) (fun x => { x with used := x.used + 1, repl := bump x.repl 1 }) [.flit p g]) ∧
      (x.replay.find? (fun y => y.lsn == lsn) = none ∨ s.portLeft p = 0 → exec (.linkReplay { port := p, lsn := lsn, sender := true }) s = .next s)) ∧
    ∀ (rx : List LFlit) (es : List (Nat × Nat)),
      let data := rx.any fun y => decide (y.fk.toNat ≤ 1)
      let base := (rx.head?.map (·.lsn)).getD 0
      let good := rx.filter fun y => y.chk == chkOf y.lsn y.fk y.payload
      let y := x.slotErrs data es
      turns (.slotEndDiscard p { flits := rx, errs := es }) (fun x => { x with
        corr := bump x.corr (es.map (·.2)).sum, unc := bump x.unc (partials base 0 0 (good.foldr (lsnInsert base) [])), errs := y.errs, trnErrs := y.trnErrs }) ∧
      ∀ k, k < 8 →
        (y.errs.get [] k = if x.act.getLsbD k = true ∧ data = true then ((es.getD k (0, 0)).1 :: x.errs.get [] k).take 64 else x.errs.get [] k) ∧
        y.trnErrs.get [] k = if x.act.getLsbD k = false ∧ x.trn.getLsbD k = true then ((es.getD k (0, 0)).1 :: x.trnErrs.get [] k).take 16 else x.trnErrs.get [] k) ∧
  (∀ (w : Word) (n : Nat), (bump w n).toNat = min (w.toNat + n) (2 ^ 64 - 1)) ∧
  (∀ (p : Port) (xs : List (BitVec 2 × BitVec 512)),
    let fs := (p.send xs).1
    let ws := channels p.act
    fs.length = xs.length ∧ (p.send xs).2 = { p with lsn := p.lsn + BitVec.ofNat 24 xs.length, used := p.used + xs.length, replay := (p.send xs).2.replay } ∧
      (p.replay.length ≤ 512 → (p.send xs).2.replay = (fs.reverse ++ p.replay).take 512) ∧
      ∀ i, i < xs.length → let x := xs.getD i (0, 0); let n := p.lsn + BitVec.ofNat 24 i
        fs.getD i default = { lam := ws.getD ((p.used + i) % max 1 ws.length) 0, lsn := n, fk := x.1, chk := chkOf n x.1 x.2, payload := x.2 }) ∧
  (∀ (s : State) (ads : List (Nat × Nat)), ∃ t u : State, exec (.rotorSlotStart ads) s = .next t ∧ t = u.sendAll ∧
    u = { s with slotNo := s.slotNo + 1, slotAt := s.gts, adverts := u.adverts, root := u.root, tsok := u.tsok, ports := u.ports, txq := u.txq, relay := u.relay,
                 oreqs := u.oreqs, out := u.out } ∧
    (∀ q n, ads = [(q, n)] → u.adverts.get 0 q = n) ∧ (∀ q, (∀ n, (q, n) ∉ ads) → u.adverts.get 0 q = 0) ∧
    ((s.slotNo + 1) % 16 ≠ 0 → u.root = s.root ∧ u.tsok = s.tsok) ∧
    ((s.slotNo + 1) % 16 = 0 → (∀ x xs, s.posTab = x :: xs → u.root = x.1) ∧ (s.posTab = [] → u.root = s.conf.devnum.toNat)) ∧
    u.relay = s.relay.filter (fun x => s.slotNo + 1 ≤ x.slot) ∧
    (∀ x ∈ s.txq, s.slotNo + 1 ≤ x.slot → x ∈ u.txq) ∧ (∀ x ∈ u.txq, s.slotNo + 1 ≤ x.slot) ∧
    (∀ q, (u.port q).bad = bump (s.port q).bad (s.relay.filter fun x => x.slot < s.slotNo + 1 && x.port == q).length ∧ (q < 16 → (u.port q).relayed = 0))) ∧
  (∀ (s : State) (q n : Nat),
    (∀ x, x ∈ s.ready q ↔ s.fits x = true ∧ x.port = q ∧ (x ∈ s.txq ∧ x.slot ≤ s.slotNo ∨ x ∈ s.relay ∧ x.slot = s.slotNo)) ∧
    (s.ready q).Pairwise (fun a b => a.pkt.head.tc.toNat ≤ b.pkt.head.tc.toNat ∧
      (a.pkt.head.tc = b.pkt.head.tc → a.pkt.head.gts.toNat ≤ b.pkt.head.gts.toNat ∧ (a.pkt.head.gts = b.pkt.head.gts → a.pkt.head.srcdev.toNat ≤ b.pkt.head.srcdev.toNat))) ∧
    (s.ready q = [] → s.portSend q n = s) ∧
    ∀ x xs, s.ready q = x :: xs → x.relayed = false → (∀ o ∈ s.oreqs, ¬(s.isCopy x.pkt o = true ∧ o.over s.gts = true)) →
      s.portSend q (n + 1) = (s.transmit x).portSend q n ∧
      ∃ line, (s.transmit x).out = s.out ++ [.pkt x.port { x.pkt with head := { x.pkt.head with srcdev := s.conf.devnum, gts := s.gts } } line] ∧
        line.length = 1 + x.pkt.head.nflit.toNat ∧ (s.transmit x).txq = s.txq.erase x) ∧
  (∀ (s : State) (dev : Nat) (g r : Word),
    let off : Int := (((r.toNat : Int) - s.slotAt.toNat) + ((g.toNat : Int) - s.gts.toNat)) / 2
    let cyc := s.slotNo / 16
    (dev = s.root → s.conf.devnum.toNat ≠ s.root → ∃ t, exec (.tsync dev g r) s = .next t ∧ t = { s with gts := t.gts, tsok := t.tsok, tsLast := cyc, trim := t.trim } ∧
      t.gts = (if 1000 < off then s.gts + BitVec.ofNat 64 off.toNat else s.gts) ∧ -100 ≤ t.trim ∧ t.trim ≤ 100 ∧
      (-20 ≤ off ∧ off ≤ 20 → t.tsok = if cyc = s.tsLast then s.tsok else if cyc = s.tsLast + 1 then min 64 (s.tsok + 1) else 1) ∧
      (off < -20 ∨ 20 < off → t.tsok = 0)) ∧
    (dev ≠ s.root ∨ s.conf.devnum.toNat = s.root → exec (.tsync dev g r) s = .next s)) ∧
  ∀ (s : State) (num pos : BitVec 8) (cyc : Word),
    (s.slotNo ≠ 16 * cyc.toNat → exec (.hotSpareTakeover num pos cyc) s = .next s) ∧
    (s.slotNo = 16 * cyc.toNat → ∃ t, exec (.hotSpareTakeover num pos cyc) s = .next t ∧ t.posTab.get 0 num.toNat = pos.toNat + 1 ∧
      (∀ o ∈ t.oreqs, o.pkt.head.dstdev ≠ num) ∧ (∀ x ∈ t.relay, x.pkt.head.dstdev ≠ num) ∧ (∀ x ∈ t.txq, x.pkt.head.dstdev ≠ num) ∧
      (∀ x ∈ s.relay, x.pkt.head.dstdev ≠ num → x ∈ t.relay) ∧
      (s.pos s.conf.devnum = some pos.toNat → t.conf = { s.conf with devnum := num } ∧ t.dedup = [] ∧ t.rcache = []) ∧
      (s.pos s.conf.devnum ≠ some pos.toNat → t.conf = s.conf ∧ t.dedup = s.dedup ∧ t.rcache = s.rcache ∧
        ∀ k, k ≠ num.toNat → t.posTab.get 0 k = s.posTab.get 0 k)) ∧
    ∃ t, exec (.failedNumberMarkedAbsent num) s = .next t ∧ t = { s with posTab := t.posTab } ∧ t.pos num = none ∧
      ∀ k, k ≠ num → t.pos k = s.pos k

/-- R59, R64 to R69, R73, R459: LDREQ, STREQ, ATREQ, PUSH and PULLREQ from another device are dropped and counted when malformed, stale, too old or below their
window, held for the second hop when they are another device's, and else performed at most once, each with its response; DATA, ACK and ATRESP complete the
request that they answer, or fail it by their status, or are dropped and counted. -/
def Obligations.FabricArrivals : Prop :=
  ∀ (s : State) (p : Pkt),
    let f := p.head
    let count (g : Port → Port) : State := s.modPort (s.arrPort p) g
    let bad := count fun x => { x with bad := bump x.bad 1 }
    let dup := count fun x => { x with dup := bump x.dup 1 }
    let stale := count fun x => { x with stale := bump x.stale 1 }
    let orph := count fun x => { x with orph := bump x.orph 1 }
    let ends (i : Instr) (t : State) : Prop := exec i s = .next t
    let old := f.kind.toNat ≤ 5 ∧ 102400 < s.gts.toNat - f.gts.toNat
    let live := s.live f.cid f.inc = true
    let requests : List (BitVec 8 × Instr) := [(1, .ldreq p), (2, .streq p), (3, .atreq p), (4, .push p), (5, .pullreq p)]
    let responses : List (BitVec 8 × Instr) := [(6, .data p), (7, .ack p), (8, .atresp p)]
    (∀ x ∈ requests ++ responses,
      (malformed x.1 p = true → ends x.2 bad) ∧
      (malformed x.1 p = false → f.dstdev ≠ s.conf.devnum →
        let no := s.pos s.conf.devnum = none ∨ s.pos f.dstdev = none ∨ f.rly = true ∨ f.rlydev ≠ s.conf.devnum ∨ old ∨
          s.relayLeft (portDie (s.arrPort p)) < 1 + f.nflit.toNat
        (no → ends x.2 bad) ∧ (¬no → ¬live → ends x.2 (if f.kind.toNat ≤ 5 then stale else orph)) ∧
        (¬no → live → ∀ a b, s.pos s.conf.devnum = some a → s.pos f.dstdev = some b →
          let port := (a ^^^ b) / 16 % 16
          ends x.2 { s with relay := s.relay ++ [{ pkt := p, port := port, slot := nextSlot (s.slotNo + 1) ((a ^^^ b) % 16), since := s.cycle,
                                                   buf := s.bufRoom p port, relayed := true, from_ := s.arrPort p }] }))) ∧
    (f.dstdev = s.conf.devnum →
      let win := s.window_ f.srcdev f.cid f.inc
      let one := p.members = []
      let meets := ¬old ∧ f.cid ≠ 0 ∧ live
      let again := meets ∧ one ∧ win.below f.seq = false ∧ win.marked f.seq = true
      let full := 4096 < s.freshCache.length + (recsOf p).length
      let fresh (kind : BitVec 8) : Prop := malformed kind p = false ∧ meets ∧ (one → win.below f.seq = false ∧ win.marked f.seq = false) ∧ ¬full
      let marks (u : State) : State := u.markSeq f.srcdev f.cid f.inc f.seq
      let fromCache (i : Instr) : Prop := (∀ r, s.cached f.srcdev p f.seq = some r → ends i (s.reply { r with head := { r.head with tag := f.tag } })) ∧
        (s.cached f.srcdev p f.seq = none → ends i dup)
      (∀ x ∈ requests, malformed x.1 p = false →
        (old → ends x.2 bad) ∧ (¬old → f.cid = 0 ∨ ¬live → ends x.2 stale) ∧ (meets → one → win.below f.seq = true → ends x.2 dup) ∧
        (meets → ¬(one ∧ (win.below f.seq = true ∨ win.marked f.seq = true)) → full →
          ends x.2 (s.reply (respTo p (if x.1 = 1 ∨ x.1 = 5 then 6 else if x.1 = 3 then 8 else 7) 3 0 [])))) ∧
      (again → (malformed 1 p = false → fromCache (.ldreq p)) ∧ (malformed 3 p = false → fromCache (.atreq p)) ∧
        (malformed 2 p = false → ends (.streq p) (s.reply (respTo p 7 0 0 []))) ∧ (malformed 4 p = false → ends (.push p) (s.reply (respTo p 7 0 0 [])))) ∧
      (fresh 1 →
        let line := BitVec.ofNat 64 (f.addr.toNat / 64 * 64)
        (f.addr.getLsbD 63 = true ∨ f.addr.toNat % 8 ≠ 0 ∨ s.rawKeys f.cid f.addr 8 .r = none ∨ s.rawKeys f.cid line 64 .r = none →
          ends (.ldreq p) (s.reply (respTo p 6 2 0 []))) ∧
        (f.addr.getLsbD 63 = false → f.addr.toNat % 8 = 0 → ∀ ks ls, s.rawKeys f.cid f.addr 8 .r = some ks → s.rawKeys f.cid line 64 .r = some ls →
          let r := if s.anyPoison ks then respTo p 6 1 0 [] else respTo p 6 0 0 (ls.map s.byte)
          ends (.ldreq p) (((marks s).cacheResp f.srcdev p f.seq r).reply r))) ∧
      (fresh 2 →
        (f.addr.getLsbD 63 = true ∨ f.addr.toNat % 8 ≠ 0 ∨ s.rawKeys f.cid f.addr 8 .w = none → ends (.streq p) (s.reply (respTo p 7 2 0 []))) ∧
        (f.addr.getLsbD 63 = false → f.addr.toNat % 8 = 0 → ∀ ks, s.rawKeys f.cid f.addr 8 .w = some ks →
          ∃ u, ends (.streq p) ((marks u).reply (respTo p 7 0 0 [])) ∧ Stored s u (ks.zip (leBytes f.opnd.toNat 8)))) ∧
      (fresh 3 → (atomOfCode f.aop f.aq = none → ends (.atreq p) bad) ∧ ∀ op, atomOfCode f.aop f.aq = some op →
        let n := if op = .fadd true ∨ op = .fadd false then 4 else 8
        (f.addr.getLsbD 63 = true ∨ f.addr.toNat % n ≠ 0 ∨ s.rawKeys f.cid f.addr n .atomic = none → ends (.atreq p) (s.reply (respTo p 8 2 0 []))) ∧
        (f.addr.getLsbD 63 = false → f.addr.toNat % n = 0 → ∀ ks, s.rawKeys f.cid f.addr n .atomic = some ks → s.anyPoison ks = false →
          let ms := recsOf p
          let v (i : Nat) : Word := (ms.take i).foldl (fun v m => op.result v m.opnd f.opnd2) (bitsOf 64 (ks.map s.byte))
          (ms.map fun m => (m.srcdev, m.seq)).Nodup → (∀ m ∈ ms, (s.window_ m.srcdev f.cid f.inc).marked m.seq = false) →
          ∃ u : State, ends (.atreq p) (u.reply { respTo p 8 0 (v 0) [] with members := (p.members.zip ((List.range ms.length).map v)).map fun (m, x) => { m with opnd := x } }) ∧
            u = { s with mem := u.mem, dedup := u.dedup, rcache := u.rcache } ∧ (∀ k, k ∉ ks → u.byte k = s.byte k) ∧
            (ks.Nodup → ∀ j, j < ks.length → u.byte (ks.getD j 0) = (v ms.length).extractLsb' (8 * j) 8) ∧
            (one → u.dedup = (marks s).dedup ∧ u.rcache = (s.cacheResp f.srcdev p f.seq (respTo p 8 0 (v 0) [])).rcache))) ∧
      (∀ len w, f.addr.getLsbD 63 = false → s.reach p len w = match s.rawKeys f.cid f.addr len (if w then .w else .r) with | none => .range | some ks => .ok ks s) ∧
      (fresh 4 →
        (∀ ks u, s.reach p p.bytes.length true = .ok ks u →
          ∃ v, ends (.push p) ((marks v).reply (respTo p 7 0 0 [])) ∧ Stored u v (ks.zip (if f.xr then (ks.map u.byte).zipWith (· ^^^ ·) p.bytes else p.bytes))) ∧
        (s.reach p p.bytes.length true = .range → ends (.push p) ((s.noEdge p).reply (respTo p 7 2 0 []))) ∧
        ∀ u, s.reach p p.bytes.length true = .busy u → ends (.push p) (u.reply (respTo p 7 3 0 []))) ∧
      (fresh 5 ∨ again ∧ malformed 5 p = false →
        let n := f.opnd.toNat
        (4096 < n → ends (.pullreq p) (s.reply (respTo p 6 2 0 []))) ∧
        (n ≤ 4096 → (∀ ks u, s.reach p n false = .ok ks u →
          (u.anyPoison ks = false → ends (.pullreq p) ((marks u).reply (respTo p 6 0 0 (ks.map u.byte)))) ∧
          (u.anyPoison ks = true → ends (.pullreq p) (u.reply (respTo p 6 1 0 [])))) ∧
          (s.reach p n false = .range → ends (.pullreq p) ((s.noEdge p).reply (respTo p 6 2 0 []))) ∧
          ∀ u, s.reach p n false = .busy u → ends (.pullreq p) (u.reply (respTo p 6 3 0 [])))) ∧
      (∀ o : OReq,
        let h := o.held
        let a := o.pkt.head.addr
        let mine := isSup h.core = true ∨ s.live h.cid h.inc = true
        let copy := ∃ j, h.act = .cpy j
        let gone : State := { s with oreqs := s.oreqs.filter fun x => x ≠ o, txq := s.txq.filter fun t => ¬(t.pkt.members = [] ∧ s.isCopy t.pkt o = true) }
        let fails (i : Instr) : Prop := ends i (gone.reqFail h (if a.getLsbD 63 then 0x08 else 0x07) (match h.act with | .cpy _ => h.w | _ => a) 0)
        let waits (i : Instr) : Prop := ends i { s with oreqs := s.oreqs.map fun x => if x = o then { x with busy := true, start := s.gts } else x }
        let drops (i : Instr) : Prop := ends i (gone.modPort (s.arrPort p) fun x => { x with orph := bump x.orph 1 })
        let refused (i : Instr) : Prop := (¬mine → drops i) ∧ (mine → f.status = 2 → fails i) ∧ (mine → f.status = 3 → waits i) ∧
          (mine → f.status = 1 → s.reqTold h = false → ends i ((gone.heldStop h 0x13 a).reqEnd h))
        let keep (u : State) : State := if o.keep = true ∧ s.l2Find (some o.pkt.head.dstdev) (s.ctx h.cid).pid a.toNat = none then
          u.l2Put (s.ctx h.cid).pid { dev := some o.pkt.head.dstdev, pid := pidTag (s.ctx h.cid).pid, addr := a.toNat / 64, data := bitsOf 512 p.bytes } else u
        (malformed 6 p = false → s.answered p [1, 5] = some o → refused (.data p) ∧
          (mine → f.status = 0 → ¬copy → ends (.data p) ((keep gone).deliver h (bitsOf 64 ((p.bytes.drop (a.toNat % 64)).take 8)) true)) ∧
          ∀ j, mine → f.status = 0 → h.act = .cpy j → ends (.data p) ((gone.landPull h j a p.bytes).parentDone { h with parent := some h.id })) ∧
        (malformed 7 p = false → s.answered p [2, 4] = some o → refused (.ack p) ∧
          (mine → f.status = 0 → ¬copy → ends (.ack p) (gone.heldSig h)) ∧
          (mine → f.status = 0 → copy → ends (.ack p) (gone.parentDone { h with parent := some h.id }))) ∧
        (malformed 8 p = false → f.nmem = 0 → s.answered p [3] = some o → (¬mine → drops (.atresp p)) ∧ (mine →
          (f.status = 0 → ends (.atresp p) (gone.deliver h f.opnd true)) ∧
          (f.status = 1 → ends (.atresp p) ((gone.deliver h 0 true).raise h.core .cc 0x0F a h.e false 0)) ∧
          (f.status = 2 → ends (.atresp p) (gone.reqFail h (if a.getLsbD 63 then 0x08 else 0x07) a 0)) ∧ (f.status = 3 → waits (.atresp p))))) ∧
      (malformed 6 p = false → s.answered p [1, 5] = none → ends (.data p) orph) ∧ (malformed 7 p = false → s.answered p [2, 4] = none → ends (.ack p) orph) ∧
      (malformed 8 p = false → f.nmem = 0 → s.answered p [3] = none → ends (.atresp p) orph) ∧
      (malformed 8 p = false → f.nmem ≠ 0 → ∀ c, s.combs.find? (fun c => c.tag == f.tag && f.nmem != 0) = some c →
        ends (.atresp p) (({ s with combs := s.combs.filter fun x => x ≠ c } : State).splitResp p (p.members.map (·.opnd)) c.members)) ∧
      ∀ (u : State) (v : Word) (vs : List Word) (q : Pkt) (qs : List Pkt), q.members = [] →
        (q.head.srcdev ≠ u.conf.devnum → u.splitResp p (v :: vs) (q :: qs) = (u.enqueue { head := { f with
          srcdev := f.dstdev, dstdev := q.head.srcdev, srcagt := q.head.srcagt, seq := q.head.seq, tag := q.head.tag, opnd := v, nmem := q.head.nmem
          nflit := q.head.nflit, rly := false, rlydev := 0 } }).splitResp p vs qs) ∧ u.splitResp p [] [] = u)

/-- R58, R59, R70, R72 to R74: a request is sent again, on another path where there is one, after two rotor cycles, one cycle after a BUSY or when its path fails,
and abandoned four cycles and 1 µs after its last transmission; two ATREQs that wait at one combining point go on as one; and a relayed packet goes on in the
slot of its second hop when its turn comes. -/
def Obligations.FabricRetries : Prop :=
  (∀ (s : State) (i : Nat) (o : OReq), s.oreqs[i]? = some o →
    let h := o.held
    let dst := s.pos o.pkt.head.dstdev
    let since := s.gts.toNat - o.sent.toNat
    let period := s.gts.toNat - o.start.toNat
    let copies (t : Tx) : Prop := t.pkt.members = [] ∧ s.isCopy t.pkt o = true
    let failed := ∀ port relay, o.path = some (port, relay) → (s.port port).up = false ∨ ∃ d, relay = some d ∧ s.pos d = none
    let due := (o.tx = true ∧ (∀ t ∈ s.txq, s.isCopy t.pkt o = false) ∧ (51200 ≤ since ∨ o.busy = true ∧ 25600 ≤ period)) ∨ failed
    let late := o.tx = true ∧ 102400 < period
    let mine := isSup h.core = true ∨ s.live h.cid h.inc = true
    let gone : State := { s with oreqs := s.oreqs.filter fun x => x ≠ o, txq := s.txq.filter fun t => ¬copies t }
    (due → ¬late → exec (.fabricRetransmit i) s = .next
      (({ s with txq := s.txq.filter fun t => ¬copies t, oreqs := s.oreqs.set i { o with busy := false } } : State).enqueueFor o.pkt o.tx o.path)) ∧
    (¬due ∨ late → exec (.fabricRetransmit i) s = .next s) ∧
    (o.tx = false → dst = none → exec (.fabricAbandon i) s = .next (gone.reqFail h 0x11 h.w (flitBits o.pkt.head))) ∧
    (o.tx = true ∨ dst ≠ none →
      (since < 103400 → exec (.fabricAbandon i) s = .next s) ∧
      (103400 ≤ since → mine → exec (.fabricAbandon i) s =
        .next (gone.reqFail h (if o.pkt.head.kind = 1 ∨ o.pkt.head.kind = 5 then 0x11 else 0x10) h.w (flitBits o.pkt.head))) ∧
      (103400 ≤ since → ¬mine → exec (.fabricAbandon i) s = .next gone))) ∧
  (∀ (s : State) (a b : Nat) (p : Pkt) (retry : Bool) (av : Option (Nat × Option (BitVec 8))), s.pos s.conf.devnum = some a → s.pos p.head.dstdev = some b →
    (s.plans a b p = [] → s.enqueueFor p retry av = s) ∧
    (s.plans a b p ≠ [] → ∃ k, k ∈ s.plans a b p ∧ s.plan a b p av = some k ∧ (some k.path = av → ∀ j ∈ s.plans a b p, some j.path = av) ∧
      (k.slot ≠ s.slotNo → ∃ t x, s.enqueueFor p retry av = t ∧ t = { s with txq := s.txq ++ [x], oreqs := t.oreqs } ∧ x.port = k.port ∧ x.slot = k.slot ∧
        x.hop = k.relay.isSome ∧ x.pkt = { p with head := { p.head with srcdev := s.conf.devnum, rly := false, rlydev := k.relay.getD 0, gts := s.gts } })) ∧
    ∀ k ∈ s.plans a b p, (s.port k.port).up = true ∧ (k.relay = none → k.port = (a ^^^ b) / 16 ∧ k.slot % 16 = (a ^^^ b) % 16) ∧
      ∀ d, k.relay = some d → s.devAt (a ^^^ (16 * k.port + k.slot % 16)) = some d) ∧
  (∀ (s : State) (x y : Nat) (a b : Tx), s.waiting[x]? = some a → s.waiting[y]? = some b →
    let f := a.pkt.head
    let g := b.pkt.head
    let ms := recsOf a.pkt ++ recsOf b.pkt
    (mayMerge a b = true → f.dstdev = g.dstdev ∧ f.addr = g.addr ∧ f.aop = g.aop ∧ f.aq = g.aq ∧ f.cid = g.cid ∧ f.inc = g.inc ∧ f.nc = false ∧ g.nc = false ∧
      f.aop ≠ 7 ∧ (f.aop ≠ 8 ∨ f.aq = true) ∧ ms.length ≤ 64 ∧ a.buf = true ∧ b.buf = true ∧ a.relayed = b.relayed ∧ portDie a.port = portDie b.port ∧ a.since ≤ b.since) ∧
    (x = y ∨ mayMerge a b = false → exec (.atreqCombine x y) s = .next s) ∧
    (x ≠ y → mayMerge a b = true → ∃ t, exec (.atreqCombine x y) s = .next t ∧
      t = { s with nextId := s.nextId + 1, combs := t.combs, txq := t.txq, relay := t.relay, ports := t.ports } ∧
      (∀ q ∈ t.waiting, q ∈ s.waiting ∧ q ≠ a ∧ q ≠ b ∨ q = { a with pkt := { members := ms, head := { f with
        srcdev := s.conf.devnum, nmem := BitVec.ofNat 8 ms.length, nflit := BitVec.ofNat 7 ((ms.length + 3) / 4), tag := BitVec.ofNat 16 s.nextId } } }) ∧
      (∃ k ∈ t.combs, k.tag = BitVec.ofNat 16 s.nextId ∧ k.die = portDie a.port ∧ k.members = s.partsOf a.pkt ++ s.partsOf b.pkt) ∧
      (t.port a.port).comb = bump (s.port a.port).comb 1)) ∧
  ∀ (s : State) (i : Nat) (t : Tx), s.relay[i]? = some t →
    let f := t.pkt.head
    let live := s.live f.cid f.inc = true
    let old := f.kind.toNat ≤ 5 ∧ 102400 < s.gts.toNat - f.gts.toNat
    let no := old ∨ t.slot < s.slotNo ∨ s.fits t = false
    let gone : State := { s with relay := s.relay.eraseIdx i }
    (s.slotNo < t.slot → exec (.relayForward i) s = .next s) ∧
    (t.slot ≤ s.slotNo → ¬live → exec (.relayForward i) s = .next (gone.modPort t.from_ fun x =>
      if f.kind.toNat ≤ 5 then { x with stale := bump x.stale 1 } else { x with orph := bump x.orph 1 })) ∧
    (t.slot ≤ s.slotNo → live → no → exec (.relayForward i) s = .next (gone.modPort t.port fun x => { x with bad := bump x.bad 1 })) ∧
    (t.slot ≤ s.slotNo → live → ¬no → (s.ready t.port).head? ≠ some t → exec (.relayForward i) s = .next s) ∧
    (t.slot ≤ s.slotNo → live → ¬no → (s.ready t.port).head? = some t → t.relayed = true →
      ∃ (u : State) (line : List LFlit), exec (.relayForward i) s = .next (u.portSend t.port (s.txq.length + 1)) ∧ line.length = 1 + f.nflit.toNat ∧
        u = { s with ports := u.ports, txq := s.txq.erase t, relay := s.relay.erase t,
                     out := s.out ++ [.pkt t.port { t.pkt with head := { f with rly := true } } line] })

/-! ### Ultra Ethernet and the host (R79 to R97, R450 to R455) -/

/-- R95, R451, R452, R455: a packet of a send, put or get is counted once, and an operation whose packets all are is complete; a counter at its threshold signals its
token once; a packet is resent alone after a timeout or a NACK, and abandoned with LINK_DOWN at the eighth timeout; arriving bytes of a message are placed
in the receive that it matches, each at most once, and acknowledged; a packet of no use is dropped and counted at its port, and what the device does not
support is answered so. A packet of a RUD operation leaves by the port with the most room, within the rate of EGRESS, and none to an address outside the
port's permitted set; events leave in the order of GTS and source (R50, R79, R93, R94).
R80 to R84, R86, R97, R154: the host's messages. A SUBMIT is answered with its status and the free entries, and only an accepted one is queued; a write or a SIGNAL
reaches the context's windows whole or not at all; a read answers the bytes; and an attestation spends a leaf before the report with its signature leaves. -/
def Obligations.DeviceMessages : Prop :=
  ((∀ (s : State) (u : UeOp) (k : Nat), (s.ueOps.find? fun v => v.held.id == u.held.id) = some u →
     let h := u.held
     let op := h.id
     let count := packets (nLen u.words)
     let n := u.timeouts.get 0 k + 1
     let x := (s.core h.core).nctr.get {} h.ctr
     let value := x.value + BitVec.ofNat 64 (min 4096 (nLen u.words - 4096 * k))
     let open_ : State := s.nscc u k
     let now (v : UeOp) : State := { open_ with ueOps := s.ueOps.map fun w => if w.held.id = op then v else w }
     let again (n : Nat) : UeOp := { u with timeouts := u.timeouts.set 0 k n, via := u.via.set 0 k 0 }
     open_ = { s with uePorts := open_.uePorts } ∧
     (k < count → k ∉ u.acked → (u.kind = 3 → k ∈ u.placed) →
       ∃ t, exec (.netCompletion op k) s = .next t ∧
         (h.onCore (s.core h.core) = true → (t.core h.core).nctr.get {} h.ctr = { x with value := value, tag := maxW x.tag h.e, tok := if x.thresh.toNat ≤ value.toNat then 0 else x.tok }) ∧
         (count ≤ u.acked.length + 1 → ∀ v ∈ t.ueOps, v.held.id ≠ op) ∧ (u.acked.length + 1 < count → { u with acked := u.acked ++ [k], via := u.via.set 0 k 0 } ∈ t.ueOps)) ∧
     (count ≤ k ∨ k ∈ u.acked → exec (.netCompletion op k) s = .next s ∧ exec (.ueRetransmitTimeout op k) s = .next s ∧ exec (.ueNack op k) s = .next s) ∧
     (k < count → k ∉ u.acked →
       exec (.ueNack op k) s = .next ((now (again 0)).sendUe (again 0) k) ∧
       (k ∉ u.placed → n < 8 → exec (.ueRetransmitTimeout op k) s = .next ((now (again n)).sendUe (again n) k)) ∧
       (k ∉ u.placed → 8 ≤ n → exec (.ueRetransmitTimeout op k) s =
         .next (({ s with ueOps := s.ueOps.filter fun v => v.held.id ≠ op } : State).heldFail h 0x11 h.w (nDetail u.words))))) ∧
   (∀ (s : State) (r : Recv), (s.ueOps.find? fun v => v.held.id == r.held.id) = none → (s.recvs.find? fun q => q.held.id == r.held.id) = some r →
     r.done = false → r.msg ≠ none → ∃ t, exec (.netCompletion r.held.id 0) s = .next t ∧
       { r with due := 0, done := decide (r.want ≤ (r.got.map (·.2)).sum) } ∈ t.recvs ∧ ∀ q ∈ s.recvs, q.held.id ≠ r.held.id → q ∈ t.recvs) ∧
   (∀ (s : State) (u : UeOp) (k : Nat), s.conf.egress ≠ 0 → s.sendUe u k =
     { s with ueq := s.ueq ++ [{ to_ := nPeer u.words, fixed := if (wd u.words 1).getLsbD 32 then some (Config.rodPort (wd u.words 4) (nPeer u.words) % 4) else none
                                 msg := .pkt u.held.id u.kind (4096 * k) (min 4096 (nLen u.words - 4096 * k)) u.words ((u.data.drop (4096 * k)).take 4096) }] }) ∧
   (∀ (s : State) (u : UeOp) (k : Nat), s.conf.egress = 0 → s.sendUe u k = s) ∧
   (∀ (s : State) (q : Nat), s.uePick < 4 ∧ (q < 4 → (s.uePort q).room ≤ (s.uePort s.uePick).room ∧ ((s.uePort q).room = (s.uePort s.uePick).room → s.uePick ≤ q))) ∧
   (∀ (s : State) (q : Nat) (t : UeTx),
     (s.permits q t.to_ = false → s.depart q t = s.modUePort q fun x => { x with drops := x.drops + 1 }) ∧
     (s.permits q t.to_ = true → (s.depart q t).out = s.out ++ [.ue q t.msg] ∧
       ((s.depart q t).uePort q).freeAt = s.gts.toNat + (8 * (t.msg.size + Config.ueOverhead) + 10 * s.conf.egress - 1) / (10 * s.conf.egress))) ∧
   ∀ (s : State) (p : UePkt),
     let ends (t : State) : Prop := exec (.uePacketReceive p) s = .next t
     let port := p.ue.port.toNat
     let drop : State := s.modUePort port fun x => { x with drops := x.drops + 1 }
     let ok := p.ue.secure = true ∧ s.permits port p.ue.src = true
     let answer (m : UeMsg) : State := if s.conf.egress = 0 then s else { s with ueq := s.ueq ++ [{ to_ := p.ue.src, fixed := some port, msg := m }] }
     let nack : State := answer (.nack p.ue p.msg p.off)
     (¬ok → ends drop) ∧
     (ok → p.connect = true → (p.rudiOrUud = true → ends (answer (.refuse p.ue))) ∧ (p.rudiOrUud = false → ends s)) ∧
     (ok → p.connect = false → p.rudiOrUud = true ∨ s.ueCtx p.ue = none → ends drop) ∧
     (ok → p.connect = false → p.rudiOrUud = false → ∀ cid, s.ueCtx p.ue = some cid →
       (p.unsupported = true → ends (answer (.unsupported p.ue p.msg))) ∧
       (p.unsupported = false →
         (∀ op, p.reply = some op →
           ((s.ueOps.find? fun v => v.held.id == op) = none → ends drop) ∧
           ∀ u, (s.ueOps.find? fun v => v.held.id == op) = some u →
             (p.error = true → ends (({ s with ueOps := s.ueOps.filter fun v => v.held.id ≠ u.held.id } : State).heldFail u.held 0x07 u.held.w (nDetail u.words))) ∧
             (p.error = false → p.trimmed = true → ends nack) ∧
             (p.error = false → p.trimmed = false → u.kind = 3 → p.off % 4096 = 0 → p.off / 4096 < packets (nLen u.words) →
               p.bytes.length = min 4096 (nLen u.words - p.off) → p.off / 4096 ∉ u.placed → nRaw u.words = false → u.held.onCore (s.core u.held.core) = true →
               ∃ t, ends t ∧ (∀ i, i < p.bytes.length → (t.core u.held.core).spad.get 0 (nLoc u.words + p.off + i) = p.bytes.getD i 0) ∧
                 { u with placed := u.placed ++ [p.off / 4096] } ∈ t.ueOps)) ∧
         (p.reply = none →
           (p.trimmed = true ∨ s.matchRecv cid p = none → ends nack) ∧
           ∀ r, p.trimmed = false → s.matchRecv cid p = some r →
             let fresh := (List.range p.bytes.length).filter fun i => covered r.got (p.off + i) = false ∧ p.off + i < nLen r.words
             ∃ t, ends t ∧ t.ueq = (answer (.ack p.ue p.msg p.off)).ueq ∧
               (r ∈ s.recvs → { r with msg := some (p.ue, p.msg, p.total), got := r.got ++ fresh.map (fun i => (p.off + i, 1)), due := r.due + fresh.length } ∈ t.recvs) ∧
               (nRaw r.words = false → r.held.onCore (s.core r.held.core) = true →
                 (∀ i ∈ fresh, (t.core r.held.core).spad.get 0 (nLoc r.words + p.off + i) = p.bytes.getD i 0) ∧
                 ∀ a, (∀ i ∈ fresh, a ≠ nLoc r.words + p.off + i) → (t.core r.held.core).spad.get 0 a = (s.core r.held.core).spad.get 0 a))))) ∧
  ((∀ (s : State) (a : UeAddr) (m : UeMsg),
     let t : UeTx := { to_ := a.src, fixed := some (Config.rodPort (a.job.setWidth 64 ||| (a.proc.setWidth 64 <<< 24)) a.src % 4), msg := m }
     (s.conf.egress = 0 → s.send a m = s) ∧
     (s.conf.egress ≠ 0 → (m.eventKey = none → s.send a m = { s with ueq := s.ueq ++ [t] }) ∧
       ∀ k, m.eventKey = some k → ∃ xs ys, s.ueq = xs ++ ys ∧ s.send a m = { s with ueq := xs ++ t :: ys } ∧ (∀ x ∈ xs, ∀ j, x.msg.eventKey = some j → j ≤ k) ∧
         ∀ y, ys.head? = some y → ∃ j, y.msg.eventKey = some j ∧ k < j)) ∧
   (∀ (s : State) (a : UeAddr), s.ueCtx a ≠ none → a.secure = true ∧ s.permits a.port.toNat a.src = true) ∧
   (∀ (s : State) (m : SubmitMsg),
     (s.ueCtx m.ue = none → exec (.submit m) s = .next (s.ueDrop m.ue)) ∧
     ∀ cid, s.ueCtx m.ue = some cid →
       let pid := (s.ctx cid).pid.toNat
       let x := s.queue pid m.queue.toNat
       let used := x.pend.length + (if x.cur = none then 0 else 1)
       let answer (u : State) (st n : Nat) : Prop := exec (.submit m) s = .next (u.send m.ue (.suback m.ue (BitVec.ofNat 8 st) m.stag (BitVec.ofNat 8 n)))
       let bad := x.en = false ∨ m.rsv = true
       let out := m.list.toNat % 64 ≠ 0 ∨ s.rawKeys cid m.list 64 .r = none
       (bad → answer s 2 (64 - used)) ∧ (¬bad → out → answer s 3 (64 - used)) ∧
       (¬bad → ¬out → 64 ≤ used → answer (s.setQueue pid m.queue.toNat { x with full := true }) 1 0) ∧
       (¬bad → ¬out → used < 64 → answer (s.setQueue pid m.queue.toNat { x with
         pend := x.pend ++ [{ addr := m.list, stag := m.stag, doneev := m.doneev, cid := cid, inc := (s.ctx cid).inc }] }) 0 (63 - used))) ∧
   (∀ (s : State) (m : RmaMsg) (v : Word) (bs : List Byte) (n : Nat),
     let resp (u : State) (st : BitVec 8) (b : List Byte) : State := u.send m.ue (.rmaResp m.ue st b)
     (s.ueCtx m.ue = none → ∀ i ∈ [Instr.signal m v, .rmaWrite m bs, .rmaRead m n], exec i s = .next (s.ueDrop m.ue)) ∧
     ∀ cid, s.ueCtx m.ue = some cid →
       let writes (i : Instr) (b : List Byte) : Prop :=
         (s.rawKeys cid m.addr b.length .w = none → exec i s = .next (resp s 1 [])) ∧
         ∀ ks, s.rawKeys cid m.addr b.length .w = some ks → ∃ u, Stored s u (ks.zip b) ∧
           exec i s = .next (resp (if s.cons (s.ctx cid).pid ≠ u.cons (s.ctx cid).pid ∧ u.fheld (s.ctx cid).pid ≠ [] then { u with wfe := u.wfe ||| 8 } else u) 0 [])
       writes (.signal m v) (leBytes v.toNat 8) ∧ writes (.rmaWrite m bs) bs ∧
       (s.rawKeys cid m.addr n .r = none → exec (.rmaRead m n) s = .next (resp s 1 [])) ∧
       ∀ ks, s.rawKeys cid m.addr n .r = some ks →
         (s.anyPoison ks = false → exec (.rmaRead m n) s = .next (resp s 0 (ks.map s.byte))) ∧
         (s.anyPoison ks = true → exec (.rmaRead m n) s = .next (resp (s.hostPoison cid 256 0 m.addr) 1 []))) ∧
   ∀ (s : State) (m : AttestMsg),
     let known := m.ue.secure = true ∧ s.permits m.ue.port.toNat m.ue.src = true ∧ (s.jobPart m.ue.job).isSome = true
     let good := m.rsv = false ∧ m.payload.length = 32
     (¬known → exec (.attestationRequest m) s = .next (s.ueDrop m.ue)) ∧
     (known → ¬good → exec (.attestationRequest m) s = .next (s.send m.ue (.report m.ue (s.shortReport 2 m.payload)))) ∧
     (known → good → 2 ^ 20 ≤ s.conf.xmssLeaf → exec (.attestationRequest m) s = .next (s.send m.ue (.report m.ue (s.shortReport 1 m.payload)))) ∧
     (known → good → s.conf.xmssLeaf < 2 ^ 20 →
       let r := leBytes (s.conf.xmssLeaf * 2 ^ 32) 8 ++ m.payload ++ leBytes (Config.digest s.conf.fwBytes).toNat 32 ++ leBytes (Config.digest s.conf.record).toNat 32 ++
         leBytes (Config.digest s.partBytes).toNat 32 ++ leBytes Config.idKey.toNat 64
       exec (.attestationRequest m) s = .next (({ s with conf := { s.conf with xmssLeaf := s.conf.xmssLeaf + 1 } } : State).send m.ue
         (.report m.ue (r ++ Config.sign (BitVec.ofNat 20 s.conf.xmssLeaf) r)))))

/-! ### Launches and the cut (R98 to R128, R136, R144, R154, R156, R252 to R269) -/

/-- R99, R103 to R106, R113, R118 to R127: the launch processors. A queued SPAWN is accepted in order while its die has room; the first candidate that fits is placed, on
the free cores of one pod in ascending order, or leaves for the nearest die with room; a core starts its task in the state of R105, and is returned when nothing of it
is left; a launch is COMPLETE when its cores and children are; classes age by 2 ms, deficits by 10 ms; and a phaser that is ready releases its phase. -/
def Obligations.LaunchEvents : Prop :=
  (∀ (s : State) (die k : Nat),
    let cid : BitVec 12 := BitVec.ofNat 12 k
    let c := s.ctx cid
    (c.cq = [] → exec (.childQueueMove die k) s = .next s) ∧
    ∀ x xs, c.cq = x :: xs →
      (x.die ≠ die ∨ s.syncOn die = false ∨ s.poolFree die = 0 ∨ c.st ≠ .live ∧ c.st ≠ .stopped → exec (.childQueueMove die k) s = .next s) ∧
      ∀ a w d, x.die = die → s.syncOn die = true → s.poolFree die ≠ 0 → c.st = .live ∨ c.st = .stopped → x.held.act = .spawn a w → x.held.cid = cid → s.ldesc cid a = .inl d →
        ∃ t, exec (.childQueueMove die k) s = .next t ∧ t.nextLaunch = s.nextLaunch + 1 ∧ (t.ctx cid).cq = xs ∧ (t.ctx cid).cqHead = c.cqHead + 1 ∧
          (t.ctx cid).launchCtr = c.launchCtr + 1 ∧ t.cores = s.cores ∧ t.mem = s.mem ∧
          t.launches.get none s.nextLaunch = some {
            cid := cid, addr := a, desc := d, base := x.held.e, die := die, parent := some x.parent, child := true,
            spawnId := x.held.id, id := c.launchCtr, inc := c.inc, since := s.gts }) ∧
  (∀ (s : State) (n : Nat) (h : Held), (s.core n).spawnSlot = some h →
    let c := s.ctx h.cid
    let u := s.modCore n fun c => { c with spawnSlot := none }
    let may := u.heldReady h = true
    let near := c.cq = [] ∧ 32 < s.poolFree (n / 64)
    h.core = n → isSup n = false →
      (s.live h.cid h.inc = false → exec (.pendingSpawnAppend n) s = .next u) ∧
      (s.live h.cid h.inc = true → may → near → exec (.pendingSpawnAppend n) s = .next (u.acceptChild h (n / 64) (s.parentOf h))) ∧
      (s.live h.cid h.inc = true → may → ¬near → c.cqTail - c.cqHead < 2 ^ c.cqn → ∃ t, exec (.pendingSpawnAppend n) s = .next t ∧
        (t.core n).spawnSlot = none ∧ (t.ctx h.cid).cqTail = c.cqTail + 1 ∧ (t.ctx h.cid).cq = c.cq ++ [{ held := h, die := n / 64, parent := s.parentOf h }]) ∧
      (s.live h.cid h.inc = true → ¬may ∨ ¬near ∧ 2 ^ c.cqn ≤ c.cqTail - c.cqHead → ∃ t, exec (.pendingSpawnAppend n) s = .next t ∧
        t = { s with cores := t.cores } ∧ ∀ m, t.core m = s.core m)) ∧
  (∀ (s : State) (die : Nat),
    (s.syncOn die = false ∨ s.candidates die = [] → exec (.teamPlace die) s = .next s) ∧
    ∀ p cls k l (m : Team) rest, s.syncOn die = true → s.candidates die = (p, cls, k, l, m) :: rest →
      (∀ cs, l.desc.gang = false → s.placeOf k l m = some cs → cs.Nodup →
        ∃ t, exec (.teamPlace die) s = .next t ∧ Seated t k l m cs ∧ (∀ n, n ∉ cs → t.core n = s.core n) ∧
          t.rotLast.get 0 (4 * die + cls.toNat) = p) ∧
      (∀ u, l.desc.gang = true → s.placeGang k = some u → exec (.teamPlace die) s = .next { u with rotLast := u.rotLast.set 0 (4 * die + cls.toNat) p })) ∧
  (∀ (s : State) (k : Nat) (l : Launch) (m : Team) (cs : List Nat), m.pin = false → s.placeOf k l m = some cs →
    cs.length = l.desc.tasks - m.ended.length ∧ cs.Pairwise (· < ·) ∧ ∃ pod, ∀ n ∈ cs, n / 8 = pod ∧ (s.core n).task = none) ∧
  (∀ (s : State) (team die : Nat),
    let k := team / 2 ^ 48
    let l := s.launch k
    let m := l.team (team % 2 ^ 48)
    let waits := team % 2 ^ 48 < l.desc.teams ∧ m.st = .waiting ∧ l.waiting = true
    let sets (i : Instr) (x : Team) : Prop := exec i s = .next (s.modLaunch k fun l => l.setTeam x)
    (waits → s.syncOn m.die = true → s.mayPlace l = true → s.migrateTo k l m = some die → sets (.teamMigrate team die) { m with st := .transit, die := die }) ∧
    (¬waits ∨ s.syncOn m.die = false ∨ s.mayPlace l = false ∨ s.migrateTo k l m ≠ some die → exec (.teamMigrate team die) s = .next s) ∧
    (m.st ≠ .transit ∨ s.syncOn m.die = false → exec (.teamMigrationArrival team) s = .next s) ∧
    (m.st = .transit → s.syncOn m.die = true → s.mayPlace l = false ∨ s.placeOf k l m = none → sets (.teamMigrationArrival team) { m with st := .waiting }) ∧
    (∀ cs, s.launches.get none k = some l → m.st = .transit → s.syncOn m.die = true → s.mayPlace l = true → s.placeOf k l m = some cs → cs.Nodup →
      ∃ t, exec (.teamMigrationArrival team) s = .next t ∧ Seated t k l m cs) ∧
    (waits → m.cls ≠ 0 → m.since.toNat + 2000000 ≤ s.gts.toNat → sets (.classAging team) { m with cls := m.cls - 1, since := s.gts }) ∧
    (¬waits ∨ m.cls = 0 ∨ s.gts.toNat < m.since.toNat + 2000000 → exec (.classAging team) s = .next s)) ∧
  (∀ (s : State) (n : Nat) (t : Task), (s.core n).task = some t → t.started = false → isSup n = false → (s.ctx t.cid).st = .live →
    let d := t.desc
    let m := (s.launch t.launch).team t.team
    m.st = .placed → t.loaded = false → ∃ u, exec (.taskStart n) s = .next u ∧
      let c := u.core n
      c.task = some { t with started := true } ∧ c.pc = d.entry ∧ c.s.get 0 1 = d.arg ∧ c.s.get 0 2 = t.descAddr ∧ (∀ r, r ≠ 1 → r ≠ 2 → c.s.get 0 r = 0) ∧
      c.g = [] ∧ c.v = [] ∧ c.p = [] ∧ c.q = [] ∧ c.tok = [] ∧ c.dq = [] ∧ c.sq = [] ∧ c.cbs = [] ∧ c.peel = [] ∧ c.hold = [] ∧ c.tcause = 0 ∧ c.tvec = 0 ∧
      (∀ eng, (c.eng eng).crd = t.base ∧ (c.eng eng).elast = t.base ∧ (c.eng eng).ring.head = 0 ∧ (c.eng eng).ring.tail = 0) ∧
      (∀ ka ke km kc kn, d.rings = [ka, ke, km, kc, kn] →
        let b := (d.splen + 255) / 256 * 256
        (c.acc.ring.base = BitVec.ofNat 19 b ∧ c.acc.ring.size = BitVec.ofNat 4 ka) ∧ (c.exe.ring.base = BitVec.ofNat 19 (b + 8 * 2 ^ ka) ∧ c.exe.ring.size = BitVec.ofNat 4 ke) ∧
        (c.mtx.ring.base = BitVec.ofNat 19 (b + 8 * 2 ^ ka + 8 * 2 ^ ke) ∧ c.mtx.ring.size = BitVec.ofNat 4 km) ∧
        (c.cpy.ring.base = BitVec.ofNat 19 (b + 8 * 2 ^ ka + 8 * 2 ^ ke + 8 * 2 ^ km) ∧ c.cpy.ring.size = BitVec.ofNat 4 kc) ∧
        (c.net.ring.base = BitVec.ofNat 19 (b + 8 * 2 ^ ka + 8 * 2 ^ ke + 8 * 2 ^ km + 8 * 2 ^ kc) ∧ c.net.ring.size = BitVec.ofNat 4 kn)) ∧
      (∀ k, k < d.nwait → c.wset.get 0 (k + 1) = bitsOf 64 (((s.gpaBytes t.cid d.wtab.toNat (8 * d.nwait)).drop (8 * k)).take 8)) ∧
      (d.spimg = 0 → c.spad = []) ∧ (d.spimg ≠ 0 → ∀ a, a < d.splen → c.spad.get 0 a = (s.gpaBytes t.cid d.spimg.toNat d.splen).getD a 0) ∧
      ∀ j, j ≠ n → u.core j = s.core j) ∧
  (∀ (s : State) (n : Nat) (t : Task), (s.core n).task = some t →
    let c := s.core n
    let finished := t.ended = true ∧ c.peel = [] ∧ c.hold = [] ∧ c.spawnSlot = none ∧ s.coreBusy n t.cid t.inc = false
    (finished → exec (.coreReturn n) s = .next (s.setCore n { icache := c.icache, icOwner := c.icOwner, ttc := c.ttc, halted := c.halted })) ∧
    (¬finished → exec (.coreReturn n) s = .next s)) ∧
  (∀ (s : State) (k : Nat) (l : Launch), s.launches.get none k = some l →
    let finished := l.st = .draining ∧ (∀ x ∈ s.cores, ∀ t, x.2.task = some t → t.launch ≠ k) ∧ s.hasChildren k = false
    (finished → ∃ t, exec (.launchComplete k) s = .next t ∧ t.launches.get none k = some { l with st := .complete, teams := [] } ∧
      (∀ ph, l.superPh = some ph → t.phaser ph = {}) ∧
      (s.openLaunches l.cid = [l] → (t.ctx l.cid).horiz = 0 ∧ (t.ctx l.cid).epoch = (s.ctx l.cid).epoch + 1)) ∧
    (¬finished → exec (.launchComplete k) s = .next s)) ∧
  (∀ s : State,
    (s.gts.toNat < s.window.toNat + 10000000 → exec .deficitWindow s = .next s) ∧
    (s.window.toNat + 10000000 ≤ s.gts.toNat → exec .deficitWindow s = .next { s with window := s.window + 10000000, parts := s.parts.map fun (k, p) =>
      (k, { p with budget := p.nextBudget.getD p.budget, nextBudget := none, deficit := min p.deficit 0 + 1000 * ((p.nextBudget.getD p.budget).toNat : Int) }) })) ∧
  ∀ (s : State) (k : Nat),
    let ph : BitVec 12 := BitVec.ofNat 12 k
    let p := s.phaser ph
    let may := (∃ c i, p.owner = some (c, i) ∧ s.live c i = true) ∧ s.syncOn (k / 1024 % 4) = true ∧ p.ready (s.waitsFor 3) = true
    (may → exec (.phaserRelease k) s = .next ((s.setPhaser ph p.release).wakeDropped ph p p.members) ∧
      ∃ t, exec (.phaserRelease k) s = .next t ∧ t = { s with cores := t.cores, phasers := s.phasers.set {} ph.toNat p.release }) ∧ (¬may → exec (.phaserRelease k) s = .next s)

/-- R136, R144, R154, R156, R252 to R269: the cut. The published horizon is the least coordinate that is reported, never falls and never passes an accepted cut; it releases
held effects in the order of their coordinates and retires log entries, oldest first; at the cut of a pending stop every core squashes what lies at or above it. A stop is exact
above the horizon and LATE otherwise; a watched core asks for one; a reclaim fence, a hang, a host's CONS and the end of a slice have their effects. -/
def Obligations.CutEvents : Prop :=
  (∀ (s : State) (k : Nat),
    let cid : BitVec 12 := BitVec.ofNat 12 k
    let c := s.ctx cid
    let on (n : Nat) : Prop := isSup n = false ∧ ∃ t, (s.core n).task = some t ∧ t.cid = cid
    (c.st ≠ .live ∨ s.openLaunches cid = [] → exec (.horizonPublish k) s = .next s) ∧
    (c.st = .live → s.openLaunches cid ≠ [] →
      (c.stop = none → CoresInv s →
        let low := (s.trueLow cid).getD c.horiz
        let h := if c.horiz.ult low then low else c.horiz
        let goes (n : Nat) : Prop := s.routerOn n = true
        (∀ n, on n → ∀ x ∈ (s.core n).hold, x.core = n ∧ x.act.dst = none ∧ ∀ a w, x.act ≠ .spawn a w) →
        ∃ (t : State) (l : List Held), exec (.horizonPublish k) s = .next t ∧ (t.ctx cid).horiz = h ∧ t.flying = s.flying ++ l ∧
          l.Perm ((s.coresOf cid).flatMap fun n => (s.core n).hold.filter fun x => s.routerOn n && decide (x.e.toNat ≤ h.toNat)) ∧ l.Pairwise (fun a b => a.e.toNat ≤ b.e.toNat) ∧
          ∀ n, on n → (goes n → ∀ x ∈ (t.core n).hold, h.toNat < x.e.toNat ∧ x ∈ (s.core n).hold) ∧ (¬goes n → (t.core n).hold = (s.core n).hold) ∧
            (∃ out, (s.core n).peel = (t.core n).peel ++ out ∧ ∀ p ∈ out, p.crd.toNat ≤ h.toNat) ∧
            ∀ p, (t.core n).peel.getLast? = some p → h.toNat < p.crd.toNat) ∧
      (∀ st, c.stop = some st → st.accepted = true → st.squashed = false → c.horiz.toNat ≤ st.cut.toNat →
        let low := (s.trueLow cid).getD st.cut
        (low.toNat < st.cut.toNat → ∃ t, exec (.horizonPublish k) s = .next t ∧ (t.ctx cid).horiz = (if c.horiz.ult low then low else c.horiz)) ∧
        (st.cut.toNat ≤ low.toNat → ∃ t, exec (.horizonPublish k) s = .next t ∧ (t.ctx cid).horiz = st.cut ∧ (t.ctx cid).stop = some { st with squashed := true } ∧
          ∀ n, on n → (t.core n).peel = [] ∧ (∀ x ∈ (t.core n).hold, x.e.toNat < st.cut.toNat) ∧ (∀ x ∈ (t.core n).exeQ, x.e.toNat < st.cut.toNat) ∧
            (∀ x ∈ (t.core n).cpyQ, x.e.toNat < st.cut.toNat) ∧ ∀ x ∈ (t.core n).mx.ops, x.e.toNat < st.cut.toNat)))) ∧
  (∀ (s : State) (k : Nat),
    let cid : BitVec 12 := BitVec.ofNat 12 k
    let c := s.ctx cid
    (c.stop = none → exec (.stopAccept k) s = .next s ∧ exec (.stopComplete k) s = .next s) ∧
    ∀ st, c.stop = some st →
      (st.accepted = true ∨ c.st ≠ .live → exec (.stopAccept k) s = .next s) ∧
      (st.accepted = false → c.st = .live → ∃ t, exec (.stopAccept k) s = .next t ∧ (t.ctx cid) = { c with stop := some { st with
          accepted := true, cut := if c.horiz.ult st.k then st.k else s.nextCrd cid c.horiz, late := !c.horiz.ult st.k } }) ∧
      (let finished := c.st = .live ∧ st.accepted = true ∧ (st.squashed = true ∨ s.openLaunches cid = [])
       (¬finished → exec (.stopComplete k) s = .next s) ∧
       (finished → ∃ t, exec (.stopComplete k) s = .next t ∧ t.ctx cid = { c with
            st := .stopped, cuteff := st.cut, stop := none, result := if st.late then 1 else 0,
            lastReq := st.reqs.headD {}, bySlice := !st.byCmd } ∧ t.cores = s.cores ∧
          ∀ j l, t.launches.get none j = some l → l.cid = cid → ∀ m ∈ l.teams, m.st ≠ .placed ∧ m.st ≠ .running))) ∧
  (∀ (s : State) (n e : Nat),
    let c := s.core n
    let fires := isSup n = false ∧ c.cutw ≠ BitVec.allOnes 64 ∧ (c.eng (engOfNum e)).waitsStop = true
    (¬fires → exec (.watchFire n e) s = .next s) ∧
    (fires → ∃ t, exec (.watchFire n e) s = .next t ∧ (t.core n).cutw = BitVec.allOnes 64 ∧
      ((s.ctx c.cid).st = .live → (s.ctx c.cid).stop = none → (t.ctx c.cid).stop = some { k := c.cutw, reqs := [{ srck := 4, core := BitVec.ofNat 8 n }], byCmd := true }) ∧
      ∀ m, m ≠ n → t.core m = s.core m)) ∧
  (∀ (s : State) (n : Nat),
    let c := s.core n
    let hangs := c.hangt ≠ 0 ∧ c.hung = false ∧ (∃ eng ∈ engines, c.unretired (isSup n) eng = true) ∧ c.idle + 2 ^ c.hangt ≤ s.cycle
    (¬hangs → exec (.hang n) s = .next s) ∧
    (hangs → exec (.hang n) s = .next ((s.hangRecs n engines).modCore n fun c => { c with hung := true }))) ∧
  (∀ (s : State) (k : Nat) (cons : BitVec 32),
    let pid : BitVec 7 := BitVec.ofNat 7 k
    let t := s.fbufPut pid 8 (leBytes cons.toNat 4)
    (pid = 0 ∨ (s.part pid).used = true → exec (.fbufConsWrite k cons) s = .next (if s.cons pid ≠ cons ∧ t.fheld pid ≠ [] then { t with wfe := t.wfe ||| 8 } else t)) ∧
    (pid ≠ 0 → (s.part pid).used = false → exec (.fbufConsWrite k cons) s = .next s)) ∧
  (∀ (s : State) (k j : Nat) (f : Fence),
    let cid : BitVec 12 := BitVec.ofNat 12 k
    let inc : BitVec 10 := BitVec.ofNat 10 j
    (s.fences.find? fun f => f.cid == cid && f.inc == inc) = some f →
    let finished := f.asked = true ∧ f.left.toNat + 103400 ≤ s.gts.toNat ∧ s.holds cid inc = false
    (¬finished → exec (.rcfComplete k j) s = .next s) ∧
    (finished → ∃ t, exec (.rcfComplete k j) s = .next t ∧ t.fencePending cid inc = false ∧ (∀ x ∈ t.phasers, x.2.owner ≠ some (cid, inc)) ∧ t.wfe = s.wfe ||| 2 ∧
      t.ctx cid = (if (s.ctx cid).st = .reclaim ∧ (s.ctx cid).inc = inc then { s.ctx cid with st := .free } else s.ctx cid) ∧ t.mem = s.mem ∧ t.cores = s.cores)) ∧
  ∀ (s : State) (k : Nat) (x : SliceTab) (pid : BitVec 7) (len : Nat), s.slices[k]? = some x → x.ents[x.cur]? = some (pid, len) →
    let due := s.hasWork pid = false ∨ x.started.toNat + 100000 * len ≤ s.gts.toNat
    (¬due → exec (.sliceEnd k) s = .next s) ∧
    (due → s.onPods pid x.pods ≠ [] → exec (.sliceEnd k) s = .next (s.preempt (s.onPods pid x.pods))) ∧
    (due → s.onPods pid x.pods = [] → s.nextSlice x = none → exec (.sliceEnd k) s = .next s) ∧
    (∀ i q n, due → s.onPods pid x.pods = [] → s.nextSlice x = some i → x.ents[i]? = some (q, n) → exec (.sliceEnd k) s =
      .next (({ s with slices := s.slices.set k { x with cur := i, started := s.gts } } : State).loadAll
        (({ s with slices := s.slices.set k { x with cur := i, started := s.gts } } : State).ctxsOf q)))

/-! ### Command lists, power and the test port (R38 to R54, R82 to R93, R184, R261, R267, R269, R362) -/

/-- R82, R84, R87 to R93, R102 to R104, R107, R261, R267, R269: each entry acts for the list that its interpreter walks, and the list goes on after it; WAITV, FENCE and a CUTREQ with
its wait bit stay until they are met, and WAITV until its deadline; an entry that its rule refuses abandons the list with a fault that names it. -/
def Obligations.ListEntries : Prop :=
  ∀ (s : State) (x : Interp) (o : CL), s.interp = some x →
    let cid := x.lst.cid
    let sets (u : State) (y : Interp) : State := u.setQueue u.curQ.1 u.curQ.2 { u.queue u.curQ.1 u.curQ.2 with cur := some y }
    let goes (u : State) (pc : Word) : State := sets u { x with pc := pc, wait := .none }
    let next := x.pc + 64
    let agent := 256 + s.curQ.2 % 2
    let rec_ (code : BitVec 8) (cls : BitVec 2) (val : Word) : State := s.record (BitVec.ofNat 7 s.curQ.1)
      { code := code, cls := cls, eng := 7, cid := cid, inc := x.lst.inc, gts := s.gts, src := s.src agent, pc := x.pc, val := val } agent false
    let fails (i : Instr) (code : BitVec 8) (val : Word) : Prop := exec i s = .next ((rec_ code 1 val).listGone s.curQ.1 s.curQ.2)
    let ends (i : Instr) (u : State) : Prop := exec i s = .next u
    let cond (a b : Word) : Option Bool := if o.w4.toNat = 0 then some (a == b) else if o.w4.toNat = 1 then some (a != b) else if o.w4.toNat = 2 then some (b.ule a)
      else if o.w4.toNat = 3 then some (a.ult b) else if o.w4.toNat = 4 then some (b.sle a) else if o.w4.toNat = 5 then some (a.slt b) else none
    let see (ks : List Nat) : Word := bitsOf 64 (ks.map s.byte)
    let acq : State := s.dropRemote cid
    let waitTo (u : State) : State := (u.event 5 (BitVec.ofNat 7 s.curQ.1) cid x.lst.inc s.curQ.2 x.pc 0).listGone s.curQ.1 s.curQ.2
    let test (i : Instr) (yes : Prop) (no : Word → Prop) : Prop :=
      (o.w1.toNat % 8 ≠ 0 ∨ s.rawKeys cid o.w1 8 .r = none → fails i 0x07 o.w1) ∧
      ∀ ks, o.w1.toNat % 8 = 0 → s.rawKeys cid o.w1 8 .r = some ks →
        (s.anyPoison ks = true → ends i ((s.hostPoison cid agent x.pc o.w1).listGone s.curQ.1 s.curQ.2)) ∧
        (s.anyPoison ks = false →
          let c := cond (see ks &&& o.w3) o.w2
          (c = none → fails i 0x01 0) ∧ (c = some true → yes) ∧ (c = some false → no (see ks)))
    let word (i : Instr) (f : Word → Word) : Prop :=
      (o.w1.toNat % 8 ≠ 0 ∨ s.rawKeys cid o.w1 8 .r = none ∨ s.rawKeys cid o.w1 8 .w = none → fails i 0x07 o.w1) ∧
      ∀ ks, o.w1.toNat % 8 = 0 → s.rawKeys cid o.w1 8 .w ≠ none → s.rawKeys cid o.w1 8 .r = some ks → s.anyPoison ks = false →
        ∃ u, Stored s u (ks.zip (leBytes (f (bitsOf 64 (ks.map s.byte))).toNat 8)) ∧ ends i (goes u next)
    let target (i : Instr) (u : State) : Prop :=
      (o.w1.toNat % 64 = 0 → s.rawKeys cid o.w1 64 .r ≠ none → ends i u) ∧ (o.w1.toNat % 64 ≠ 0 ∨ s.rawKeys cid o.w1 64 .r = none → fails i 0x07 o.w1)
    let cut (i : Instr) (u : State) (done : State → Prop) : Prop :=
      let v := if x.wait = .cut then s else u
      ((o.flg.getLsbD 0 = false ∨ done v) → ends i (goes v next)) ∧ (o.flg.getLsbD 0 = true → ¬done v → ends i (sets v { x with wait := .cut }))
    (∀ code, s.ldesc cid o.w1 = .inr code → fails (.launch o) code o.w1) ∧
    (∀ d, s.ldesc cid o.w1 = .inl d → ∃ u v, ends (.launch o) v ∧ v = goes u next ∧ u.nextLaunch = s.nextLaunch + 1 ∧ (u.ctx cid).launchCtr = (s.ctx cid).launchCtr + 1 ∧
      ∃ die, u.launches.get none s.nextLaunch = some {
        cid := cid, inc := (s.ctx cid).inc, id := (s.ctx cid).launchCtr, addr := o.w1, desc := d, base := (s.ctx cid).horiz.extractLsb' 48 16 ++ (0#48), die := die,
        since := s.gts, queue := s.curQ.2, stag := o.w2.setWidth 32, doneev := o.flg.getLsbD 0, late := decide ((s.ctx cid).st ≠ .live ∨ (s.ctx cid).stop ≠ none) }) ∧
    ((∀ a c v m d r z, x.wait ≠ .waitv a c v m d r z) → test (.waitv o) (ends (.waitv o) (goes acq next)) (fun z => ends (.waitv o) (sets acq { x with
      wait := .waitv o.w1 (o.w4.setWidth 3) o.w2 o.w3 (if o.w5 = 0 then none else some (s.gts + BitVec.ofNat 64 (1000 * o.w5.toNat))) s.gts z }))) ∧
    word (.sigvSt o) (fun _ => o.w2) ∧ word (.sigvAdd o) (fun v => v + o.w2) ∧ word (.sigvOr o) (fun v => v ||| o.w2) ∧
    test (.skipif o) (ends (.skipif o) (goes acq (next + 64 * o.w5))) (fun _ => ends (.skipif o) (goes acq next)) ∧
    target (.jump o) (goes s o.w1) ∧
    (8 ≤ x.stack.length → fails (.listCall o) 0x01 ((packCL 6 o).extractLsb' 0 64)) ∧
    (x.stack.length < 8 → target (.listCall o) (sets s { x with pc := o.w1, wait := .none, stack := next :: x.stack })) ∧
    (x.stack = [] → fails (.listRet o) 0x01 ((packCL 7 o).extractLsb' 0 64)) ∧
    (∀ a r, x.stack = a :: r → ends (.listRet o) (sets s { x with pc := a, wait := .none, stack := r })) ∧
    cut (.cutreqStop o) (s.requestStop cid o.w1 { srck := 0, queue := s.curQ.2 } true) (fun u => (u.ctx cid).stop = none) ∧
    cut (.cutreqCancel o) (s.cancelStop cid) (fun u => (u.ctx cid).stop = none) ∧
    cut (.cutreqResume o) (s.resume cid) (fun u => (u.ctx cid).st = .live) ∧
    (let ks := match x.wait with | .fence ks => ks | _ => s.fenceOf (o.flg.getLsbD 0)
     let left := ks.filter fun k => ∃ l, s.launches.get none k = some l ∧ l.st ≠ .complete
     (left = [] → ends (.fence o) (goes s next)) ∧ (left ≠ [] → ends (.fence o) (sets s { x with wait := .fence left }))) ∧
    (∀ all k, k ∈ s.fenceOf all ↔ ∃ l, (k, some l) ∈ s.launches ∧ l.child = false ∧ l.st ≠ .complete ∧ (s.ctx l.cid).pid.toNat = s.curQ.1 ∧ (all = true ∨ l.queue = s.curQ.2)) ∧
    ends (.note o) (goes (s.event 4 (BitVec.ofNat 7 s.curQ.1) cid x.lst.inc s.curQ.2 o.w1 0) next) ∧
    ends (.listEnd o) ((if x.lst.doneev = true then s.event 2 (BitVec.ofNat 7 s.curQ.1) cid x.lst.inc s.curQ.2 (x.lst.stag.setWidth 64) 0 else s).listGone s.curQ.1 s.curQ.2) ∧
    (∀ c v m d r z, x.wait = .waitv o.w1 c v m d r z → o.w2 = v → o.w3 = m → o.w4 = c.setWidth 64 →
      let late := ∃ e, d = some e ∧ e.toNat ≤ s.gts.toNat
      let reads (u : State) : Prop := ends (.waitvReread s.curQ.1 s.curQ.2) u
      test (.waitvReread s.curQ.1 s.curQ.2) ((late → reads (waitTo acq)) ∧ (¬late → reads (goes acq next)))
        (fun z => (late → reads (waitTo acq)) ∧ (¬late → reads (sets acq { x with wait := .waitv o.w1 c v m d s.gts z }))) ∧
      (∀ e, d = some e → s.gts.ult e = false → ends (.waitvTimeout s.curQ.1 s.curQ.2) (waitTo s)) ∧
      (∀ e, d = some e → s.gts.ult e = true → ends (.waitvTimeout s.curQ.1 s.curQ.2) s))

/-- R38 to R54, R184, R261, R362: boot, the lowest power state, a loss of power, freeze and thaw, accesses of the test port to the frozen state, the thermal steps and the
hold of an island, a message on the management header, and the debug interface. -/
def Obligations.PowerEvents : Prop :=
  (∀ (s : State) (b : BootInput),
    let r := b.record
    let good := b.readOk = true ∧ Config.fwValid b.fw b.fwSig = true ∧ Config.recordValid r = true ∧ recordOk r = true ∧ s.conf.seqFloor.toNat ≤ recFld r 64 32
    let boots (i : Instr) (keep : Bool) : Prop := ∃ t, exec i s = .next t ∧
      let recovers (step : Nat) : Prop := t.pstate = .recovery ∧ t.conf.failStep = step ∧ t.out = s.out ++ [.mgmt step t.conf.failCause 0] ∧
        ∀ e k, e < 2 → 2 ≤ k → k ≤ 6 → t.islandOn (edgeIsland e k) = false
      (b.readOk = false → recovers 2) ∧ (b.readOk = true → ¬good → recovers 3) ∧ (good → b.trained = false → recovers 5) ∧
      (good → b.trained = true → t.out = s.out ++ (if b.lpddr = BitVec.allOnes 32 then [] else [.mgmt 5 0 (~~~b.lpddr)])) ∧
      (good → t.conf.devnum = (if recFld r 96 8 = 0 then b.straps.devnum else BitVec.ofNat 8 (recFld r 96 8)) ∧ t.conf.debugen = b.straps.debugen ∧
        t.conf.egress = recFld r 104 8 ∧ t.conf.thermlim = recFld r 152 8 ∧ t.conf.modpwr = recFld r 128 16 ∧ t.conf.retain = (recFld r 161 1 == 1) ∧
        t.conf.seqFloor.toNat = recFld r 64 32 ∧ t.conf.xmssLeaf = s.conf.xmssLeaf) ∧
      (good → b.trained = true → t.pstate = .running ∧ (t.core 256).pc = Config.fwEntry b.fw 0 ∧ (t.core 257).pc = Config.fwEntry b.fw 1 ∧
        (∀ j, j < b.fw.length → t.byte (memKey 3 0 j) = b.fw.getD j 0) ∧ ∀ p, p < 16 → (t.port p).act = 0) ∧
      (∀ a, a / 2 ^ 48 = 1 ∨ a / 2 ^ 48 = 2 → t.byte a = if keep = true then s.byte a else 0) ∧ t.ctxs = [] ∧ t.launches = [] ∧ t.parts = []
    boots (.resetRelease b) true ∧ (s.pstate = .lowest → boots (.strapWake b) s.conf.retain) ∧ (s.pstate ≠ .lowest → exec (.strapWake b) s = .next s)) ∧
  (∀ s : State,
    let open_ := s.conf.debugen = true ∧ s.conf.dbg = true
    (∃ t, exec .powerLoss s = .next t ∧ t.mem = [] ∧ t.cores = [] ∧ t.ctxs = [] ∧ t.parts = [] ∧ t.conf.seqFloor = s.conf.seqFloor ∧
      (t.conf.xmssLeaf = s.conf.xmssLeaf ∨ t.conf.xmssLeaf = min (2 ^ 20) (s.conf.xmssLeaf + 1))) ∧
    (s.pstate = .running → open_ → exec .freeze s = .next { s with pstate := .frozen }) ∧
    (s.pstate ≠ .running ∨ ¬open_ → exec .freeze s = .next s) ∧
    (∀ tap, s.pstate = .frozen → tap = false ∨ open_ → ∃ t, exec (.thaw tap) s = .next t ∧ t = { s with pstate := .running, tsok := 0, ports := t.ports } ∧
      ∀ p, p < 16 → t.port p = if (s.port p).ctl.getLsbD 12 = true then s.port p else { s.port p with act := 0, trn := (s.port p).ctl.extractLsb' 4 8 }) ∧
    (∀ tap, s.pstate ≠ .frozen ∨ (tap = true ∧ ¬open_) → exec (.thaw tap) s = .next s) ∧
    (∀ op, s.pstate ≠ .frozen ∨ ¬open_ → exec (.tapAccess op) s = .next s) ∧
    (s.pstate = .frozen → open_ →
      let puts (r : TapReg) (v : Vec) (n : Nat) (f : Core → Core) : Prop := ∃ t, exec (.tapAccess (.write r v)) s = .next t ∧ t = { s with cores := t.cores } ∧
        t.core n = f (s.core n) ∧ ∀ m, m ≠ n → t.core m = s.core m
      (∀ r, exec (.tapAccess (.read r)) s = .next { s with out := s.out ++ [.tap (s.tapGet r)] }) ∧
      (∀ r v, exec (.tapAccess (.write r v)) s = .next (s.tapPut r v)) ∧
      (∀ k v, s.tapGet (.mem k) = (s.byte k).setWidth 2048 ∧ ∃ t, exec (.tapAccess (.write (.mem k) v)) s = .next t ∧ t = { s with mem := t.mem } ∧
        t.byte k = v.setWidth 8 ∧ ∀ j, j ≠ k → t.byte j = s.byte j) ∧
      ∀ n a v,
        (a < 0x70000 → s.tapGet (.spad n a) = ((s.core n).spad.get 0 a).setWidth 2048 ∧ puts (.spad n a) v n fun c => { c with spad := c.spad.set 0 a (v.setWidth 8) }) ∧
        (∀ i p b, i < 1024 → b < 64 → (s.core n).peel.reverse[i]? = some p → s.tapGet (.spad n (0x70000 + 64 * i + b)) = BitVec.ofNat 2048 (p.num / 2 ^ (8 * b) % 256)) ∧
        (∀ r, s.tapGet (.s n r) = ((s.core n).s.get 0 r.toNat).setWidth 2048 ∧ (r ≠ 0 → puts (.s n r) v n fun c => { c with s := c.s.set 0 r.toNat (v.setWidth 64) }) ∧
          (r = 0 → puts (.s n r) v n fun c => c)) ∧
        (∀ r, s.tapGet (.g n r) = ((s.core n).g.get 0 r.toNat).setWidth 2048 ∧ puts (.g n r) v n fun c => { c with g := c.g.set 0 r.toNat (v.setWidth 64) }) ∧
        (∀ r, s.tapGet (.v n r) = (s.core n).v.get 0 r.toNat ∧ puts (.v n r) v n fun c => { c with v := c.v.set 0 r.toNat v }) ∧
        (∀ r, s.tapGet (.p n r) = ((s.core n).p.get 0 r.toNat).setWidth 2048 ∧ puts (.p n r) v n fun c => { c with p := c.p.set 0 r.toNat (v.setWidth 256) }) ∧
        s.tapGet (.pc n) = (s.core n).pc.setWidth 2048 ∧ puts (.pc n) v n fun c => { c with pc := v.setWidth 64, fetched := [] })) ∧
  (∀ (s : State) (k : Nat) (r : ThermReading),
    let x := s.islands.get {} k
    let hot := 200 < r.density ∨ s.conf.thermlim < r.junction ∨ s.conf.modpwr < r.modpwr
    let down := k < 112 ∧ x.op < 4 ∧ (hot ∨ r.firmware = true)
    let up := k < 112 ∧ 0 < x.op ∧ x.op ≤ 4 ∧ ¬hot ∧ r.firmware = false ∧ 100 ≤ r.clearUs
    let hold := k < 112 ∧ x.op = 4 ∧ x.hold = false ∧ s.conf.thermlim + 10 ≤ r.junction
    let free := x.hold = true ∧ r.junction < s.conf.thermlim
    let sets (i : Instr) (y : Island) (u : State) : Prop := exec i s = .next { u with islands := s.islands.set {} k y }
    let therm : State := { s with wfe := s.wfe ||| 0x20 }
    (down → sets (.thermalStepDown k r) { x with op := x.op + 1 } therm) ∧ (¬down → exec (.thermalStepDown k r) s = .next s) ∧
    (up → sets (.thermalStepUp k r) { x with op := x.op - 1 } s) ∧ (¬up → exec (.thermalStepUp k r) s = .next s) ∧
    (hold → sets (.thermalHold k r) { op := 5, hold := true } therm) ∧ (¬hold → exec (.thermalHold k r) s = .next s) ∧
    (free → sets (.thermalHoldEnd k r) { op := 4 } s) ∧ (¬free → exec (.thermalHoldEnd k r) s = .next s)) ∧
  ∀ (s : State) (k n : Nat) (w : Word),
    let cid : BitVec 12 := BitVec.ofNat 12 k
    let c := s.core n
    exec .mgmtMessage s = .next { s with wfe := s.wfe ||| 0x40 } ∧
    exec (.debugInterfaceRequest (.stop k w)) s = .next (s.requestStop cid w { srck := 3 } true) ∧
    exec (.debugInterfaceRequest (.cancel k)) s = .next (s.cancelStop cid) ∧
    exec (.debugInterfaceRequest (.resume k)) s = .next (s.resume cid) ∧
    (c.halted = false → ∃ t, exec (.debugInterfaceRequest (.halt n)) s = .next t ∧
      t.core n = { c with halted := true, capture := if c.capture = none then some s.cycle else c.capture } ∧ t = { s with cores := t.cores } ∧
      ∀ m, m ≠ n → t.core m = s.core m) ∧
    (c.halted = true → exec (.debugInterfaceRequest (.halt n)) s = .next s ∧ ∃ t, exec (.debugInterfaceRequest (.go n)) s = .next t ∧ (t.core n).halted = false ∧
      (t.core n).pc = c.pc ∧ (t.core n).s = c.s ∧ t = { s with cores := t.cores } ∧ ∀ m, m ≠ n → t.core m = s.core m) ∧
    (c.halted = false → exec (.debugInterfaceRequest (.go n)) s = .next s)

/-! ### Reset, encodings and the step (R44 to R47, R78, R87, R133, R156, R164 to R170, R299 to R309) -/

/-- The machine right after reset (Tables 2.6, 3.12, 11.3; R44, R78, R133, R156, R168, R219): nothing runs, every port register, GTS, PGDROP and orphan counter is at its stated value, the
cores hold no task, CUTW and CUTEFF are all ones, HORIZ is 0, HANGT of the supervisor cores is 30 and PEELFREE 0x400. Memory has its canonical form, and each core is listed
once. That an unlisted byte reads as 0 is the model's choice (log entry 1). -/
def Obligations.ResetState : Prop :=
  MemInv State.reset ∧ CoresInv State.reset ∧ State.reset.pstate = .reset ∧ State.reset.gts = 0 ∧ State.reset.pgdrop = 0 ∧ State.reset.mem = [] ∧
  (∀ p, (State.reset.port p).ctl = 0xFF5 ∧ (State.reset.port p).act = 0 ∧ (State.reset.port p).repl = 0 ∧ (State.reset.port p).bad = 0) ∧
  (∀ d, State.reset.dorph.get 0 d = 0) ∧
  (∀ n, let c := State.reset.core n
    c.task = none ∧ c.hangt = 30 ∧ c.tcause = 0 ∧ c.cutw = BitVec.ofNat 64 (2 ^ 64 - 1) ∧ c.peelFree = 0x400 ∧ ∀ eng, (c.eng eng).ring.head = 0 ∧ (c.eng eng).ring.tail = 0) ∧
  ∀ cid, (State.reset.ctx cid).st = .free ∧ (State.reset.ctx cid).horiz = 0 ∧ (State.reset.ctx cid).cuteff = BitVec.ofNat 64 (2 ^ 64 - 1)

/-- Words written out from the spec's encodings (the examples of chapters 13 to 23) decode to the instructions that they stand for. -/
def Obligations.DecodeWords : Prop :=
  decodeFor .cc 0x0000071466600010 = .ok (.ldw ⟨0, 0⟩ 1 { d := 5, a := 6, la := false, imm := 0x600010 }) ∧
  decodeFor .cc 0x00000D23807FFFFD = .ok (.bnz ⟨0, 0⟩ { a := 7, la := false, b := 0, lb := false, off := 0x7FFFFD }) ∧
  decodeFor .cc 0x0003110000001009 = .ok (.inccl ⟨0, 3⟩ { d := 0, a := 0, la := false, sel := 0, imm := 9 }) ∧
  decodeFor .acc 0x0600328020020000 = .ok (.lds ⟨6, 0⟩ { d := 32, a := 2, la := false, imm := 16, lat := 0, q := 0 }) ∧
  decodeFor .exe 0x0000411040620000 = .ok (.vfma ⟨0, 0⟩ 0 { d := 4, a := 4, la := false, b := 3, lb := false, c := 8, lc := false, lat := 0, q := 0 }) ∧
  decodeFor .mtx 0x0000620504002800 = .ok (.mgo ⟨0, 0⟩ { cmd := 5, p1 := 4, p2 := 0, nest := 1, acc := 1, q := 0 }) ∧
  decodeFor .cpy 0x03046E0000000010 = .ok (.cpush ⟨3, 4⟩ { dslot := 0, g := 0, tida := 0, tidb := 1, q := 0 })

/-- R87, R299, R300, R307, decode after encode, for every instruction with a word or an entry: its encoding, where it is well formed, decodes to it with every operand. -/
def Obligations.DecodeEncode : Prop :=
  ∀ i : Instr, i.check = none →
    (∀ w, i.encode = some w → decodeFor (engOf (opcOf w).toNat) w = .ok i) ∧ ∀ e, i.encodeEntry = some e → decodeEntry e = .ok i

/-- R299, R300, R307, R308, encode after decode: a word has one meaning. Whatever an engine decodes a word to is well formed and encodes as exactly that word: no bit of it is dropped, and
no reserved bit is set. -/
def Obligations.EncodeDecode : Prop :=
  ∀ (eng : Eng) (w : Word) (i : Instr), decodeFor eng w = .ok i → i.encode = some w ∧ ((opcOf w).toNat = 0x7F ∨ (i.check = none ∧ decodes eng (opcOf w).toNat = true))

/-- R13, R37, R308, R309, Table 13.16: the tests of a word at decode, in their order: bit 47, its engine, opcodes 0x28 to 0x2F off the E0 supervisor core, its profile, and then its fields and its
guard. A failed test raises its fault with the word, before, and nothing else of the word happens. -/
def Obligations.DecodeTests : Prop :=
  ∀ (s : State) (n : Nat) (eng : Eng) (w : Word) (slot : BitVec 16),
    let opc := (opcOf w).toNat
    let fault (code : BitVec 8) : Prop := s.decodeOn n eng w = .inr code ∧
      s.runWord n eng w slot = .inr (s.raise n eng code w (if eng = .cc then ccE s 0 else maxW ((s.core n).eng eng).elast ((s.core n).eng eng).crd) true slot)
    let here := opc = 0x7F ∨ decodes eng opc = true
    let priv := 0x28 ≤ opc ∧ opc ≤ 0x2F ∧ n ≠ 256
    (w.getLsbD 47 = true → fault 0x01) ∧
    (w.getLsbD 47 = false → ¬here → fault 0x02) ∧
    (w.getLsbD 47 = false → here → priv → fault 0x14) ∧
    (w.getLsbD 47 = false → here → ¬priv → opc ≠ 0x7F → (s.core n).hasProfile opc = false → fault 0x01) ∧
    (w.getLsbD 47 = false → here → ¬priv → opc = 0x7F ∨ (s.core n).hasProfile opc = true →
      (∀ e, decodeFor eng w = .error e → fault 0x01) ∧
      ∀ i, decodeFor eng w = .ok i → (((s.core n).eng eng).guardBad w = true → fault 0x01) ∧
        (((s.core n).eng eng).guardBad w = false → s.decodeOn n eng w = .inl i ∧ s.runWord n eng w slot = .inl (i, s)))

/-- R92, R164 to R166, R170, R308, R421: a step runs the decoded instruction. A scheduled move passes its clocks; the control core's word at the PC, a ring's word at HEAD, the matrix engine's oldest
ready word, the entry at which a list stands, or an event, is executed in the state so reached; a word that waits to retire goes first; and with nothing scheduled nothing moves. -/
def Obligations.StepRunsDecoded : Prop :=
  (∀ s : State, s.sched = [] → step s = .next (s.tick 1 1)) ∧
  ∀ (s : State) (x : Sched) (xs : List Sched), s.sched = x :: xs →
    let u0 : State := ({ s with sched := xs } : State).tick x.dt x.dg
    (∀ n eng, x.who = .core n eng →
      let u : State := { u0 with cur := n, curEng := eng }
      let c := u.core n
      let r := (c.eng eng).ring
      (c.eng eng).park = none →
      (u.mayAct n eng = false → step s = .next u) ∧
      (u.mayAct n eng = true →
        (∀ t, u.waitRetire n eng = some t → step s = .next t) ∧
        (u.waitRetire n eng = none → c.mayTest u.cycle eng = false → step s = .next u) ∧
        (u.waitRetire n eng = none → c.mayTest u.cycle eng = true →
          let v := u.takeTurn n eng
          (∀ w rest i, eng = .cc → c.fetched = (c.pc, w) :: rest → v.decodeOn n .cc w = .inl i → step s = exec i v) ∧
          (∀ i ks, eng = .cc → c.fetched = [] → c.pc.toNat % 8 = 0 → v.coreKeys n c.pc 8 .x = .inl ks → v.anyPoison ks = false → 4 ≤ icFind c.icache (c.pc.toNat / 64 * 64) →
            let w : Word := bitsOf 64 (ks.map v.byte)
            let m := c.icache.set {} (icSet (c.pc.toNat / 64 * 64) * 4 + v.fillWay c.icache (c.pc.toNat / 64 * 64)) {
              addr := c.pc.toNat / 64 * 64 / 64, valid := true, data := v.lineData n (c.pc.toNat / 64 * 64),
              locked := (c.icache.get {} (icSet (c.pc.toNat / 64 * 64) * 4 + v.fillWay c.icache (c.pc.toNat / 64 * 64))).locked }
            let z : State := v.modCore n fun c => { c with icache := m, fetched := [(c.pc, w)] }
            z.decodeOn n .cc w = .inl i → step s = exec i z) ∧
          (∀ f, eng = .cc → c.fetched = [] → c.pc.toNat % 8 = 0 → v.coreKeys n c.pc 8 .x = .inr f → step s = .next (v.raise n .cc f c.pc (ccE v 0) true 0)) ∧
          (∀ i, eng ≠ .cc → eng ≠ .mtx → r.head ≠ r.tail → v.decodeOn n eng (c.ringWord eng r.head) = .inl i → step s = exec i v) ∧
          (eng ≠ .cc → eng ≠ .mtx → r.head = r.tail → step s = .next v) ∧
          (∀ p i, eng = .mtx → (c.mtxReadies.filter fun p => c.mtxPopMet p && (v.decodeOn n .mtx (c.ringWord .mtx p)).isLeft).head? = some p →
            (r.head ≠ r.tail → (v.decodeOn n .mtx (c.ringWord .mtx r.head)).isLeft = true) → v.decodeOn n .mtx (c.ringWord .mtx p) = .inl i → step s = exec i v)))) ∧
    (∀ pid q i e j, x.who = .list pid q → u0.pstate = .running →
      let u : State := { u0 with curQ := (pid, q) }
      u.interp = some i → (u.queue pid q).closing = false → u.live i.lst.cid i.lst.inc = true → decodeEntry e = .ok j →
        ((i.wait ≠ .none ∧ i.entry = e) ∨ (i.wait = .none ∧ ∃ ks, u.rawKeys i.lst.cid i.pc 64 .r = some ks ∧ u.anyPoison ks = false ∧ bitsOf 512 (ks.map u.byte) = e)) →
        step s = exec j (u.setInterp { i with entry := e })) ∧
    (∀ i, x.who = .event i → Instr.isEvent i = true → u0.pstate.admits i = true → step s = exec i u0) ∧
    (x.who = .idle → step s = .next u0)

/-- R148: what the spec gives no other end goes on: no instruction stops the machine. Every word, entry and event answers a next state, in every state. -/
def Obligations.EveryStepGoesOn : Prop :=
  (∀ (i : Instr) (s : State), ∃ t, exec i s = .next t) ∧ ∀ s : State, Goes s

/-- Memory keeps its canonical form under every step, from every state that has it: addresses strictly rising, and no entry equal to what an unlisted address reads
as; and each core stays listed once, from every state in which it is. -/
def Obligations.MemoryStaysCanonical : Prop :=
  (∀ s t : State, MemInv s → step s = .next t → MemInv t) ∧ ∀ s t : State, CoresInv s → step s = .next t → CoresInv t
end

