-- ==== Sys2Proof/Laws/SMap.lean ====
section
/-! SUPPORT. Sparse data: a read after a write, and the canonical form kept by every write. -/

set_option Elab.async false

namespace Sys2Proof.Machine

variable {α : Type}

theorem SMap.get_erase_self (d : α) (m : SMap α) (k : Nat) : (m.erase k).get d k = d := by
  induction m with
  | nil => rfl
  | cons x t ih => obtain ⟨k', v⟩ := x; by_cases h : k' = k <;> simp [SMap.erase, SMap.get, h, ih]
theorem SMap.get_erase_ne (d : α) (m : SMap α) {k j : Nat} (hj : j ≠ k) : (m.erase k).get d j = m.get d j := by
  induction m with
  | nil => rfl
  | cons x t ih =>
    obtain ⟨k', v⟩ := x
    by_cases h : k' = k
    · have : k' ≠ j := fun e => hj (e ▸ h)
      simp [SMap.erase, SMap.get, h, ih, hj.symm]
    · simp [SMap.erase, SMap.get, h, ih]
theorem SMap.get_insert_self (d : α) (m : SMap α) (k : Nat) (v : α) (hk : ∀ x ∈ m, x.1 ≠ k) :
    (m.insert k v).get d k = v := by
  induction m with
  | nil => simp [SMap.insert, SMap.get]
  | cons x t ih =>
    obtain ⟨k', v'⟩ := x
    have hne : k' ≠ k := hk _ (List.mem_cons_self ..)
    by_cases h' : k < k'
    · simp [SMap.insert, SMap.get, h']
    · simp [SMap.insert, SMap.get, h', hne, ih fun x hx => hk x (List.mem_cons_of_mem _ hx)]
theorem SMap.get_insert_ne (d : α) (m : SMap α) {k j : Nat} (v : α) (hj : j ≠ k) : (m.insert k v).get d j = m.get d j := by
  induction m with
  | nil => simp [SMap.insert, SMap.get, hj.symm]
  | cons x t ih =>
    obtain ⟨k', v'⟩ := x
    by_cases h' : k < k' <;> simp [SMap.insert, SMap.get, h', ih, hj.symm]
theorem SMap.mem_erase {m : SMap α} {k : Nat} {x : Nat × α} (h : x ∈ m.erase k) : x.1 ≠ k ∧ x ∈ m := by
  induction m with
  | nil => simp [SMap.erase] at h
  | cons y t ih =>
    obtain ⟨k', v⟩ := y
    by_cases hk : k' = k
    · rw [SMap.erase, if_pos hk] at h; exact ⟨(ih h).1, List.mem_cons_of_mem _ (ih h).2⟩
    · rw [SMap.erase, if_neg hk] at h
      rcases List.mem_cons.mp h with rfl | h
      · exact ⟨hk, List.mem_cons_self ..⟩
      · exact ⟨(ih h).1, List.mem_cons_of_mem _ (ih h).2⟩

variable [DecidableEq α]

/-- A read of the key written gives the value written. -/
@[simp] theorem SMap.get_set_self (d : α) (m : SMap α) (k : Nat) (v : α) : (m.set d k v).get d k = v := by
  unfold SMap.set
  split
  · rename_i h; rw [h]; exact SMap.get_erase_self d m k
  · exact SMap.get_insert_self d _ k v fun x hx => (SMap.mem_erase hx).1
/-- A write leaves every other key alone. -/
theorem SMap.get_set_ne (d : α) (m : SMap α) {k j : Nat} (v : α) (hj : j ≠ k) : (m.set d k v).get d j = m.get d j := by
  unfold SMap.set
  split
  · exact SMap.get_erase_ne d m hj
  · rw [SMap.get_insert_ne d _ v hj, SMap.get_erase_ne d m hj]
theorem SMap.get_set (d : α) (m : SMap α) (k j : Nat) (v : α) : (m.set d k v).get d j = if j = k then v else m.get d j := by
  split
  · rename_i h; rw [h]; exact SMap.get_set_self d m k v
  · rename_i h; exact SMap.get_set_ne d m v h
@[simp] theorem SMap.get_modify_self (d : α) (m : SMap α) (k : Nat) (f : α → α) : (m.modify d k f).get d k = f (m.get d k) :=
  SMap.get_set_self ..
theorem SMap.get_modify_ne (d : α) (m : SMap α) {k j : Nat} (f : α → α) (hj : j ≠ k) : (m.modify d k f).get d j = m.get d j :=
  SMap.get_set_ne _ _ _ hj

/-- The canonical form, key by key: strictly rising keys above `b`, and no entry equal to the default. -/
theorem SMap.wf_cons (d : α) (k : Nat) (v : α) (t : SMap α) :
    SMap.wf d ((k, v) :: t) = true ↔ v ≠ d ∧ (∀ x ∈ t.head?, k < x.1) ∧ SMap.wf d t = true := by
  cases t with
  | nil => simp [SMap.wf]
  | cons y t => obtain ⟨k', v'⟩ := y; simp [SMap.wf, Bool.and_eq_true, and_assoc]
/-- In canonical form a smaller first key is below every key. -/
theorem SMap.wf_lt (d : α) {k : Nat} {v : α} {t : SMap α} (h : SMap.wf d ((k, v) :: t) = true) : ∀ x ∈ t, k < x.1 := by
  induction t generalizing k v with
  | nil => simp
  | cons y t ih =>
    obtain ⟨k', v'⟩ := y
    have hh := (SMap.wf_cons d k v _).mp h
    have hlt : k < k' := hh.2.1 (k', v') (by simp)
    intro x hx
    rcases List.mem_cons.mp hx with rfl | hx
    · exact hlt
    · exact Nat.lt_trans hlt (ih hh.2.2 x hx)
theorem SMap.wf_erase (d : α) (m : SMap α) (k : Nat) (h : SMap.wf d m = true) : SMap.wf d (m.erase k) = true := by
  induction m with
  | nil => rfl
  | cons y t ih =>
    obtain ⟨k', v⟩ := y
    have hh := (SMap.wf_cons d k' v t).mp h
    by_cases hk : k' = k
    · rw [SMap.erase, if_pos hk]; exact ih hh.2.2
    · rw [SMap.erase, if_neg hk]
      refine (SMap.wf_cons d k' v _).mpr ⟨hh.1, fun x hx => ?_, ih hh.2.2⟩
      exact SMap.wf_lt d h x (SMap.mem_erase (List.mem_of_mem_head? hx)).2
theorem SMap.mem_insert {m : SMap α} {k : Nat} {v : α} {x : Nat × α} (h : x ∈ m.insert k v) : x = (k, v) ∨ x ∈ m := by
  induction m with
  | nil => simpa [SMap.insert] using h
  | cons y t ih =>
    obtain ⟨k', v'⟩ := y
    by_cases hk : k < k'
    · rw [SMap.insert, if_pos hk] at h; exact (List.mem_cons.mp h).imp id id
    · rw [SMap.insert, if_neg hk] at h
      rcases List.mem_cons.mp h with rfl | h
      · exact .inr (List.mem_cons_self ..)
      · exact (ih h).imp id (List.mem_cons_of_mem _)
theorem SMap.wf_insert (d : α) (m : SMap α) (k : Nat) (v : α) (hv : v ≠ d) (hk : ∀ x ∈ m, x.1 ≠ k) (h : SMap.wf d m = true) :
    SMap.wf d (m.insert k v) = true := by
  induction m with
  | nil => simp [SMap.insert, SMap.wf, hv]
  | cons y t ih =>
    obtain ⟨k', v'⟩ := y
    have hh := (SMap.wf_cons d k' v' t).mp h
    have hne : k' ≠ k := hk _ (List.mem_cons_self ..)
    by_cases hlt : k < k'
    · rw [SMap.insert, if_pos hlt]
      exact (SMap.wf_cons d k v _).mpr ⟨hv, by simpa using hlt, h⟩
    · rw [SMap.insert, if_neg hlt]
      refine (SMap.wf_cons d k' v' _).mpr ⟨hh.1, fun x hx => ?_, ih (fun x hx => hk x (List.mem_cons_of_mem _ hx)) hh.2.2⟩
      rcases SMap.mem_insert (List.mem_of_mem_head? hx) with rfl | hm
      · show k' < k; omega
      · exact SMap.wf_lt d h x hm
/-- A write keeps the canonical form. -/
theorem SMap.wf_set (d : α) (m : SMap α) (k : Nat) (v : α) (h : SMap.wf d m = true) : SMap.wf d (m.set d k v) = true := by
  unfold SMap.set
  split
  · exact SMap.wf_erase d m k h
  · rename_i hv
    exact SMap.wf_insert d _ k v hv (fun x hx => (SMap.mem_erase hx).1) (SMap.wf_erase d m k h)
/-- Dropping entries keeps the canonical form. -/
theorem SMap.wf_filter (d : α) (m : SMap α) (p : Nat × α → Bool) (h : SMap.wf d m = true) : SMap.wf d (m.filter p) = true := by
  induction m with
  | nil => rfl
  | cons y t ih =>
    obtain ⟨k', v'⟩ := y
    have hh := (SMap.wf_cons d k' v' t).mp h
    rw [List.filter_cons]
    split
    · refine (SMap.wf_cons d k' v' _).mpr ⟨hh.1, fun x hx => ?_, ih hh.2.2⟩
      exact SMap.wf_lt d h x (List.mem_filter.mp (List.mem_of_mem_head? hx)).1
    · exact ih hh.2.2
/-- Erasing a key that is not listed changes nothing. -/
theorem SMap.erase_of_not_mem (m : SMap α) (k : Nat) (h : ∀ x ∈ m, x.1 ≠ k) : m.erase k = m := by
  induction m with
  | nil => rfl
  | cons a t ih => rw [SMap.erase, if_neg (h a (List.mem_cons_self ..)), ih fun x hx => h x (List.mem_cons_of_mem _ hx)]
theorem SMap.erase_insert (m : SMap α) (k : Nat) (v : α) (h : ∀ x ∈ m, x.1 ≠ k) : (m.insert k v).erase k = m := by
  induction m with
  | nil => simp [SMap.insert, SMap.erase]
  | cons a t ih =>
    rw [SMap.insert]
    split
    · rw [SMap.erase, if_pos rfl, SMap.erase_of_not_mem _ _ h]
    · rw [SMap.erase, if_neg (h a (List.mem_cons_self ..)), ih fun x hx => h x (List.mem_cons_of_mem _ hx)]
/-- Of two writes of one key the later stands, in any list. -/
@[simp] theorem SMap.set_set [DecidableEq α] (d : α) (m : SMap α) (k : Nat) (a b : α) : (m.set d k a).set d k b = m.set d k b := by
  have h : (m.set d k a).erase k = m.erase k := by
    unfold SMap.set; split
    · exact SMap.erase_of_not_mem _ _ fun x hx => (SMap.mem_erase hx).1
    · exact SMap.erase_insert _ _ _ fun x hx => (SMap.mem_erase hx).1
  unfold SMap.set at h ⊢; rw [h]

end Sys2Proof.Machine
end

