-- ==== Sys2Proof/Laws/State.lean ====
section
/-! SUPPORT. One lemma per field per update of the state: what an update leaves alone, and what a read after it gives. -/

set_option Elab.async false

namespace Sys2Proof.Machine

/-! ### setCore -/

@[simp] theorem State.setCore_ctxs (s : State) (n : Nat) (c : Core) : (s.setCore n c).ctxs = s.ctxs := rfl
@[simp] theorem State.setCore_parts (s : State) (n : Nat) (c : Core) : (s.setCore n c).parts = s.parts := rfl
@[simp] theorem State.setCore_launches (s : State) (n : Nat) (c : Core) : (s.setCore n c).launches = s.launches := rfl
@[simp] theorem State.setCore_nextLaunch (s : State) (n : Nat) (c : Core) : (s.setCore n c).nextLaunch = s.nextLaunch := rfl
@[simp] theorem State.setCore_phasers (s : State) (n : Nat) (c : Core) : (s.setCore n c).phasers = s.phasers := rfl
@[simp] theorem State.setCore_fences (s : State) (n : Nat) (c : Core) : (s.setCore n c).fences = s.fences := rfl
@[simp] theorem State.setCore_slices (s : State) (n : Nat) (c : Core) : (s.setCore n c).slices = s.slices := rfl
@[simp] theorem State.setCore_mem (s : State) (n : Nat) (c : Core) : (s.setCore n c).mem = s.mem := rfl
@[simp] theorem State.setCore_poison (s : State) (n : Nat) (c : Core) : (s.setCore n c).poison = s.poison := rfl
@[simp] theorem State.setCore_l2 (s : State) (n : Nat) (c : Core) : (s.setCore n c).l2 = s.l2 := rfl
@[simp] theorem State.setCore_flying (s : State) (n : Nat) (c : Core) : (s.setCore n c).flying = s.flying := rfl
@[simp] theorem State.setCore_nextId (s : State) (n : Nat) (c : Core) : (s.setCore n c).nextId = s.nextId := rfl
@[simp] theorem State.setCore_areqs (s : State) (n : Nat) (c : Core) : (s.setCore n c).areqs = s.areqs := rfl
@[simp] theorem State.setCore_tileOps (s : State) (n : Nat) (c : Core) : (s.setCore n c).tileOps = s.tileOps := rfl
@[simp] theorem State.setCore_pgq (s : State) (n : Nat) (c : Core) : (s.setCore n c).pgq = s.pgq := rfl
@[simp] theorem State.setCore_pgdrop (s : State) (n : Nat) (c : Core) : (s.setCore n c).pgdrop = s.pgdrop := rfl
@[simp] theorem State.setCore_dorph (s : State) (n : Nat) (c : Core) : (s.setCore n c).dorph = s.dorph := rfl
@[simp] theorem State.setCore_rotLast (s : State) (n : Nat) (c : Core) : (s.setCore n c).rotLast = s.rotLast := rfl
@[simp] theorem State.setCore_window (s : State) (n : Nat) (c : Core) : (s.setCore n c).window = s.window := rfl
@[simp] theorem State.setCore_wfe (s : State) (n : Nat) (c : Core) : (s.setCore n c).wfe = s.wfe := rfl
@[simp] theorem State.setCore_devHeld (s : State) (n : Nat) (c : Core) : (s.setCore n c).devHeld = s.devHeld := rfl
@[simp] theorem State.setCore_ports (s : State) (n : Nat) (c : Core) : (s.setCore n c).ports = s.ports := rfl
@[simp] theorem State.setCore_posTab (s : State) (n : Nat) (c : Core) : (s.setCore n c).posTab = s.posTab := rfl
@[simp] theorem State.setCore_slotNo (s : State) (n : Nat) (c : Core) : (s.setCore n c).slotNo = s.slotNo := rfl
@[simp] theorem State.setCore_slotAt (s : State) (n : Nat) (c : Core) : (s.setCore n c).slotAt = s.slotAt := rfl
@[simp] theorem State.setCore_tsok (s : State) (n : Nat) (c : Core) : (s.setCore n c).tsok = s.tsok := rfl
@[simp] theorem State.setCore_tsLast (s : State) (n : Nat) (c : Core) : (s.setCore n c).tsLast = s.tsLast := rfl
@[simp] theorem State.setCore_trim (s : State) (n : Nat) (c : Core) : (s.setCore n c).trim = s.trim := rfl
@[simp] theorem State.setCore_gtsFrac (s : State) (n : Nat) (c : Core) : (s.setCore n c).gtsFrac = s.gtsFrac := rfl
@[simp] theorem State.setCore_root (s : State) (n : Nat) (c : Core) : (s.setCore n c).root = s.root := rfl
@[simp] theorem State.setCore_adverts (s : State) (n : Nat) (c : Core) : (s.setCore n c).adverts = s.adverts := rfl
@[simp] theorem State.setCore_seqs (s : State) (n : Nat) (c : Core) : (s.setCore n c).seqs = s.seqs := rfl
@[simp] theorem State.setCore_oreqs (s : State) (n : Nat) (c : Core) : (s.setCore n c).oreqs = s.oreqs := rfl
@[simp] theorem State.setCore_dedup (s : State) (n : Nat) (c : Core) : (s.setCore n c).dedup = s.dedup := rfl
@[simp] theorem State.setCore_rcache (s : State) (n : Nat) (c : Core) : (s.setCore n c).rcache = s.rcache := rfl
@[simp] theorem State.setCore_txq (s : State) (n : Nat) (c : Core) : (s.setCore n c).txq = s.txq := rfl
@[simp] theorem State.setCore_relay (s : State) (n : Nat) (c : Core) : (s.setCore n c).relay = s.relay := rfl
@[simp] theorem State.setCore_combs (s : State) (n : Nat) (c : Core) : (s.setCore n c).combs = s.combs := rfl
@[simp] theorem State.setCore_destSeen (s : State) (n : Nat) (c : Core) : (s.setCore n c).destSeen = s.destSeen := rfl
@[simp] theorem State.setCore_ueOps (s : State) (n : Nat) (c : Core) : (s.setCore n c).ueOps = s.ueOps := rfl
@[simp] theorem State.setCore_recvs (s : State) (n : Nat) (c : Core) : (s.setCore n c).recvs = s.recvs := rfl
@[simp] theorem State.setCore_uePorts (s : State) (n : Nat) (c : Core) : (s.setCore n c).uePorts = s.uePorts := rfl
@[simp] theorem State.setCore_ueq (s : State) (n : Nat) (c : Core) : (s.setCore n c).ueq = s.ueq := rfl
@[simp] theorem State.setCore_out (s : State) (n : Nat) (c : Core) : (s.setCore n c).out = s.out := rfl
@[simp] theorem State.setCore_pstate (s : State) (n : Nat) (c : Core) : (s.setCore n c).pstate = s.pstate := rfl
@[simp] theorem State.setCore_islands (s : State) (n : Nat) (c : Core) : (s.setCore n c).islands = s.islands := rfl
@[simp] theorem State.setCore_conf (s : State) (n : Nat) (c : Core) : (s.setCore n c).conf = s.conf := rfl
@[simp] theorem State.setCore_gts (s : State) (n : Nat) (c : Core) : (s.setCore n c).gts = s.gts := rfl
@[simp] theorem State.setCore_cycle (s : State) (n : Nat) (c : Core) : (s.setCore n c).cycle = s.cycle := rfl
@[simp] theorem State.setCore_freeCtr (s : State) (n : Nat) (c : Core) : (s.setCore n c).freeCtr = s.freeCtr := rfl
@[simp] theorem State.setCore_cur (s : State) (n : Nat) (c : Core) : (s.setCore n c).cur = s.cur := rfl
@[simp] theorem State.setCore_curEng (s : State) (n : Nat) (c : Core) : (s.setCore n c).curEng = s.curEng := rfl
@[simp] theorem State.setCore_curQ (s : State) (n : Nat) (c : Core) : (s.setCore n c).curQ = s.curQ := rfl
@[simp] theorem State.setCore_sched (s : State) (n : Nat) (c : Core) : (s.setCore n c).sched = s.sched := rfl

/-! ### modCore -/

@[simp] theorem State.modCore_ctxs (s : State) (n : Nat) (f : Core → Core) : (s.modCore n f).ctxs = s.ctxs := rfl
@[simp] theorem State.modCore_parts (s : State) (n : Nat) (f : Core → Core) : (s.modCore n f).parts = s.parts := rfl
@[simp] theorem State.modCore_launches (s : State) (n : Nat) (f : Core → Core) : (s.modCore n f).launches = s.launches := rfl
@[simp] theorem State.modCore_nextLaunch (s : State) (n : Nat) (f : Core → Core) : (s.modCore n f).nextLaunch = s.nextLaunch := rfl
@[simp] theorem State.modCore_phasers (s : State) (n : Nat) (f : Core → Core) : (s.modCore n f).phasers = s.phasers := rfl
@[simp] theorem State.modCore_fences (s : State) (n : Nat) (f : Core → Core) : (s.modCore n f).fences = s.fences := rfl
@[simp] theorem State.modCore_slices (s : State) (n : Nat) (f : Core → Core) : (s.modCore n f).slices = s.slices := rfl
@[simp] theorem State.modCore_mem (s : State) (n : Nat) (f : Core → Core) : (s.modCore n f).mem = s.mem := rfl
@[simp] theorem State.modCore_poison (s : State) (n : Nat) (f : Core → Core) : (s.modCore n f).poison = s.poison := rfl
@[simp] theorem State.modCore_l2 (s : State) (n : Nat) (f : Core → Core) : (s.modCore n f).l2 = s.l2 := rfl
@[simp] theorem State.modCore_flying (s : State) (n : Nat) (f : Core → Core) : (s.modCore n f).flying = s.flying := rfl
@[simp] theorem State.modCore_nextId (s : State) (n : Nat) (f : Core → Core) : (s.modCore n f).nextId = s.nextId := rfl
@[simp] theorem State.modCore_areqs (s : State) (n : Nat) (f : Core → Core) : (s.modCore n f).areqs = s.areqs := rfl
@[simp] theorem State.modCore_tileOps (s : State) (n : Nat) (f : Core → Core) : (s.modCore n f).tileOps = s.tileOps := rfl
@[simp] theorem State.modCore_pgq (s : State) (n : Nat) (f : Core → Core) : (s.modCore n f).pgq = s.pgq := rfl
@[simp] theorem State.modCore_pgdrop (s : State) (n : Nat) (f : Core → Core) : (s.modCore n f).pgdrop = s.pgdrop := rfl
@[simp] theorem State.modCore_dorph (s : State) (n : Nat) (f : Core → Core) : (s.modCore n f).dorph = s.dorph := rfl
@[simp] theorem State.modCore_rotLast (s : State) (n : Nat) (f : Core → Core) : (s.modCore n f).rotLast = s.rotLast := rfl
@[simp] theorem State.modCore_window (s : State) (n : Nat) (f : Core → Core) : (s.modCore n f).window = s.window := rfl
@[simp] theorem State.modCore_wfe (s : State) (n : Nat) (f : Core → Core) : (s.modCore n f).wfe = s.wfe := rfl
@[simp] theorem State.modCore_devHeld (s : State) (n : Nat) (f : Core → Core) : (s.modCore n f).devHeld = s.devHeld := rfl
@[simp] theorem State.modCore_ports (s : State) (n : Nat) (f : Core → Core) : (s.modCore n f).ports = s.ports := rfl
@[simp] theorem State.modCore_posTab (s : State) (n : Nat) (f : Core → Core) : (s.modCore n f).posTab = s.posTab := rfl
@[simp] theorem State.modCore_slotNo (s : State) (n : Nat) (f : Core → Core) : (s.modCore n f).slotNo = s.slotNo := rfl
@[simp] theorem State.modCore_slotAt (s : State) (n : Nat) (f : Core → Core) : (s.modCore n f).slotAt = s.slotAt := rfl
@[simp] theorem State.modCore_tsok (s : State) (n : Nat) (f : Core → Core) : (s.modCore n f).tsok = s.tsok := rfl
@[simp] theorem State.modCore_tsLast (s : State) (n : Nat) (f : Core → Core) : (s.modCore n f).tsLast = s.tsLast := rfl
@[simp] theorem State.modCore_trim (s : State) (n : Nat) (f : Core → Core) : (s.modCore n f).trim = s.trim := rfl
@[simp] theorem State.modCore_gtsFrac (s : State) (n : Nat) (f : Core → Core) : (s.modCore n f).gtsFrac = s.gtsFrac := rfl
@[simp] theorem State.modCore_root (s : State) (n : Nat) (f : Core → Core) : (s.modCore n f).root = s.root := rfl
@[simp] theorem State.modCore_adverts (s : State) (n : Nat) (f : Core → Core) : (s.modCore n f).adverts = s.adverts := rfl
@[simp] theorem State.modCore_seqs (s : State) (n : Nat) (f : Core → Core) : (s.modCore n f).seqs = s.seqs := rfl
@[simp] theorem State.modCore_oreqs (s : State) (n : Nat) (f : Core → Core) : (s.modCore n f).oreqs = s.oreqs := rfl
@[simp] theorem State.modCore_dedup (s : State) (n : Nat) (f : Core → Core) : (s.modCore n f).dedup = s.dedup := rfl
@[simp] theorem State.modCore_rcache (s : State) (n : Nat) (f : Core → Core) : (s.modCore n f).rcache = s.rcache := rfl
@[simp] theorem State.modCore_txq (s : State) (n : Nat) (f : Core → Core) : (s.modCore n f).txq = s.txq := rfl
@[simp] theorem State.modCore_relay (s : State) (n : Nat) (f : Core → Core) : (s.modCore n f).relay = s.relay := rfl
@[simp] theorem State.modCore_combs (s : State) (n : Nat) (f : Core → Core) : (s.modCore n f).combs = s.combs := rfl
@[simp] theorem State.modCore_destSeen (s : State) (n : Nat) (f : Core → Core) : (s.modCore n f).destSeen = s.destSeen := rfl
@[simp] theorem State.modCore_ueOps (s : State) (n : Nat) (f : Core → Core) : (s.modCore n f).ueOps = s.ueOps := rfl
@[simp] theorem State.modCore_recvs (s : State) (n : Nat) (f : Core → Core) : (s.modCore n f).recvs = s.recvs := rfl
@[simp] theorem State.modCore_uePorts (s : State) (n : Nat) (f : Core → Core) : (s.modCore n f).uePorts = s.uePorts := rfl
@[simp] theorem State.modCore_ueq (s : State) (n : Nat) (f : Core → Core) : (s.modCore n f).ueq = s.ueq := rfl
@[simp] theorem State.modCore_out (s : State) (n : Nat) (f : Core → Core) : (s.modCore n f).out = s.out := rfl
@[simp] theorem State.modCore_pstate (s : State) (n : Nat) (f : Core → Core) : (s.modCore n f).pstate = s.pstate := rfl
@[simp] theorem State.modCore_islands (s : State) (n : Nat) (f : Core → Core) : (s.modCore n f).islands = s.islands := rfl
@[simp] theorem State.modCore_conf (s : State) (n : Nat) (f : Core → Core) : (s.modCore n f).conf = s.conf := rfl
@[simp] theorem State.modCore_gts (s : State) (n : Nat) (f : Core → Core) : (s.modCore n f).gts = s.gts := rfl
@[simp] theorem State.modCore_cycle (s : State) (n : Nat) (f : Core → Core) : (s.modCore n f).cycle = s.cycle := rfl
@[simp] theorem State.modCore_freeCtr (s : State) (n : Nat) (f : Core → Core) : (s.modCore n f).freeCtr = s.freeCtr := rfl
@[simp] theorem State.modCore_cur (s : State) (n : Nat) (f : Core → Core) : (s.modCore n f).cur = s.cur := rfl
@[simp] theorem State.modCore_curEng (s : State) (n : Nat) (f : Core → Core) : (s.modCore n f).curEng = s.curEng := rfl
@[simp] theorem State.modCore_curQ (s : State) (n : Nat) (f : Core → Core) : (s.modCore n f).curQ = s.curQ := rfl
@[simp] theorem State.modCore_sched (s : State) (n : Nat) (f : Core → Core) : (s.modCore n f).sched = s.sched := rfl

/-! ### setCtx -/

@[simp] theorem State.setCtx_cores (s : State) (cid : BitVec 12) (c : Ctx) : (s.setCtx cid c).cores = s.cores := rfl
@[simp] theorem State.setCtx_parts (s : State) (cid : BitVec 12) (c : Ctx) : (s.setCtx cid c).parts = s.parts := rfl
@[simp] theorem State.setCtx_launches (s : State) (cid : BitVec 12) (c : Ctx) : (s.setCtx cid c).launches = s.launches := rfl
@[simp] theorem State.setCtx_nextLaunch (s : State) (cid : BitVec 12) (c : Ctx) : (s.setCtx cid c).nextLaunch = s.nextLaunch := rfl
@[simp] theorem State.setCtx_phasers (s : State) (cid : BitVec 12) (c : Ctx) : (s.setCtx cid c).phasers = s.phasers := rfl
@[simp] theorem State.setCtx_fences (s : State) (cid : BitVec 12) (c : Ctx) : (s.setCtx cid c).fences = s.fences := rfl
@[simp] theorem State.setCtx_slices (s : State) (cid : BitVec 12) (c : Ctx) : (s.setCtx cid c).slices = s.slices := rfl
@[simp] theorem State.setCtx_mem (s : State) (cid : BitVec 12) (c : Ctx) : (s.setCtx cid c).mem = s.mem := rfl
@[simp] theorem State.setCtx_poison (s : State) (cid : BitVec 12) (c : Ctx) : (s.setCtx cid c).poison = s.poison := rfl
@[simp] theorem State.setCtx_l2 (s : State) (cid : BitVec 12) (c : Ctx) : (s.setCtx cid c).l2 = s.l2 := rfl
@[simp] theorem State.setCtx_flying (s : State) (cid : BitVec 12) (c : Ctx) : (s.setCtx cid c).flying = s.flying := rfl
@[simp] theorem State.setCtx_nextId (s : State) (cid : BitVec 12) (c : Ctx) : (s.setCtx cid c).nextId = s.nextId := rfl
@[simp] theorem State.setCtx_areqs (s : State) (cid : BitVec 12) (c : Ctx) : (s.setCtx cid c).areqs = s.areqs := rfl
@[simp] theorem State.setCtx_tileOps (s : State) (cid : BitVec 12) (c : Ctx) : (s.setCtx cid c).tileOps = s.tileOps := rfl
@[simp] theorem State.setCtx_pgq (s : State) (cid : BitVec 12) (c : Ctx) : (s.setCtx cid c).pgq = s.pgq := rfl
@[simp] theorem State.setCtx_pgdrop (s : State) (cid : BitVec 12) (c : Ctx) : (s.setCtx cid c).pgdrop = s.pgdrop := rfl
@[simp] theorem State.setCtx_dorph (s : State) (cid : BitVec 12) (c : Ctx) : (s.setCtx cid c).dorph = s.dorph := rfl
@[simp] theorem State.setCtx_rotLast (s : State) (cid : BitVec 12) (c : Ctx) : (s.setCtx cid c).rotLast = s.rotLast := rfl
@[simp] theorem State.setCtx_window (s : State) (cid : BitVec 12) (c : Ctx) : (s.setCtx cid c).window = s.window := rfl
@[simp] theorem State.setCtx_wfe (s : State) (cid : BitVec 12) (c : Ctx) : (s.setCtx cid c).wfe = s.wfe := rfl
@[simp] theorem State.setCtx_devHeld (s : State) (cid : BitVec 12) (c : Ctx) : (s.setCtx cid c).devHeld = s.devHeld := rfl
@[simp] theorem State.setCtx_ports (s : State) (cid : BitVec 12) (c : Ctx) : (s.setCtx cid c).ports = s.ports := rfl
@[simp] theorem State.setCtx_posTab (s : State) (cid : BitVec 12) (c : Ctx) : (s.setCtx cid c).posTab = s.posTab := rfl
@[simp] theorem State.setCtx_slotNo (s : State) (cid : BitVec 12) (c : Ctx) : (s.setCtx cid c).slotNo = s.slotNo := rfl
@[simp] theorem State.setCtx_slotAt (s : State) (cid : BitVec 12) (c : Ctx) : (s.setCtx cid c).slotAt = s.slotAt := rfl
@[simp] theorem State.setCtx_tsok (s : State) (cid : BitVec 12) (c : Ctx) : (s.setCtx cid c).tsok = s.tsok := rfl
@[simp] theorem State.setCtx_tsLast (s : State) (cid : BitVec 12) (c : Ctx) : (s.setCtx cid c).tsLast = s.tsLast := rfl
@[simp] theorem State.setCtx_trim (s : State) (cid : BitVec 12) (c : Ctx) : (s.setCtx cid c).trim = s.trim := rfl
@[simp] theorem State.setCtx_gtsFrac (s : State) (cid : BitVec 12) (c : Ctx) : (s.setCtx cid c).gtsFrac = s.gtsFrac := rfl
@[simp] theorem State.setCtx_root (s : State) (cid : BitVec 12) (c : Ctx) : (s.setCtx cid c).root = s.root := rfl
@[simp] theorem State.setCtx_adverts (s : State) (cid : BitVec 12) (c : Ctx) : (s.setCtx cid c).adverts = s.adverts := rfl
@[simp] theorem State.setCtx_seqs (s : State) (cid : BitVec 12) (c : Ctx) : (s.setCtx cid c).seqs = s.seqs := rfl
@[simp] theorem State.setCtx_oreqs (s : State) (cid : BitVec 12) (c : Ctx) : (s.setCtx cid c).oreqs = s.oreqs := rfl
@[simp] theorem State.setCtx_dedup (s : State) (cid : BitVec 12) (c : Ctx) : (s.setCtx cid c).dedup = s.dedup := rfl
@[simp] theorem State.setCtx_rcache (s : State) (cid : BitVec 12) (c : Ctx) : (s.setCtx cid c).rcache = s.rcache := rfl
@[simp] theorem State.setCtx_txq (s : State) (cid : BitVec 12) (c : Ctx) : (s.setCtx cid c).txq = s.txq := rfl
@[simp] theorem State.setCtx_relay (s : State) (cid : BitVec 12) (c : Ctx) : (s.setCtx cid c).relay = s.relay := rfl
@[simp] theorem State.setCtx_combs (s : State) (cid : BitVec 12) (c : Ctx) : (s.setCtx cid c).combs = s.combs := rfl
@[simp] theorem State.setCtx_destSeen (s : State) (cid : BitVec 12) (c : Ctx) : (s.setCtx cid c).destSeen = s.destSeen := rfl
@[simp] theorem State.setCtx_ueOps (s : State) (cid : BitVec 12) (c : Ctx) : (s.setCtx cid c).ueOps = s.ueOps := rfl
@[simp] theorem State.setCtx_recvs (s : State) (cid : BitVec 12) (c : Ctx) : (s.setCtx cid c).recvs = s.recvs := rfl
@[simp] theorem State.setCtx_uePorts (s : State) (cid : BitVec 12) (c : Ctx) : (s.setCtx cid c).uePorts = s.uePorts := rfl
@[simp] theorem State.setCtx_ueq (s : State) (cid : BitVec 12) (c : Ctx) : (s.setCtx cid c).ueq = s.ueq := rfl
@[simp] theorem State.setCtx_out (s : State) (cid : BitVec 12) (c : Ctx) : (s.setCtx cid c).out = s.out := rfl
@[simp] theorem State.setCtx_pstate (s : State) (cid : BitVec 12) (c : Ctx) : (s.setCtx cid c).pstate = s.pstate := rfl
@[simp] theorem State.setCtx_islands (s : State) (cid : BitVec 12) (c : Ctx) : (s.setCtx cid c).islands = s.islands := rfl
@[simp] theorem State.setCtx_conf (s : State) (cid : BitVec 12) (c : Ctx) : (s.setCtx cid c).conf = s.conf := rfl
@[simp] theorem State.setCtx_gts (s : State) (cid : BitVec 12) (c : Ctx) : (s.setCtx cid c).gts = s.gts := rfl
@[simp] theorem State.setCtx_cycle (s : State) (cid : BitVec 12) (c : Ctx) : (s.setCtx cid c).cycle = s.cycle := rfl
@[simp] theorem State.setCtx_freeCtr (s : State) (cid : BitVec 12) (c : Ctx) : (s.setCtx cid c).freeCtr = s.freeCtr := rfl
@[simp] theorem State.setCtx_cur (s : State) (cid : BitVec 12) (c : Ctx) : (s.setCtx cid c).cur = s.cur := rfl
@[simp] theorem State.setCtx_curEng (s : State) (cid : BitVec 12) (c : Ctx) : (s.setCtx cid c).curEng = s.curEng := rfl
@[simp] theorem State.setCtx_curQ (s : State) (cid : BitVec 12) (c : Ctx) : (s.setCtx cid c).curQ = s.curQ := rfl
@[simp] theorem State.setCtx_sched (s : State) (cid : BitVec 12) (c : Ctx) : (s.setCtx cid c).sched = s.sched := rfl

/-! ### modCtx -/

@[simp] theorem State.modCtx_cores (s : State) (cid : BitVec 12) (f : Ctx → Ctx) : (s.modCtx cid f).cores = s.cores := rfl
@[simp] theorem State.modCtx_parts (s : State) (cid : BitVec 12) (f : Ctx → Ctx) : (s.modCtx cid f).parts = s.parts := rfl
@[simp] theorem State.modCtx_launches (s : State) (cid : BitVec 12) (f : Ctx → Ctx) : (s.modCtx cid f).launches = s.launches := rfl
@[simp] theorem State.modCtx_nextLaunch (s : State) (cid : BitVec 12) (f : Ctx → Ctx) : (s.modCtx cid f).nextLaunch = s.nextLaunch := rfl
@[simp] theorem State.modCtx_phasers (s : State) (cid : BitVec 12) (f : Ctx → Ctx) : (s.modCtx cid f).phasers = s.phasers := rfl
@[simp] theorem State.modCtx_fences (s : State) (cid : BitVec 12) (f : Ctx → Ctx) : (s.modCtx cid f).fences = s.fences := rfl
@[simp] theorem State.modCtx_slices (s : State) (cid : BitVec 12) (f : Ctx → Ctx) : (s.modCtx cid f).slices = s.slices := rfl
@[simp] theorem State.modCtx_mem (s : State) (cid : BitVec 12) (f : Ctx → Ctx) : (s.modCtx cid f).mem = s.mem := rfl
@[simp] theorem State.modCtx_poison (s : State) (cid : BitVec 12) (f : Ctx → Ctx) : (s.modCtx cid f).poison = s.poison := rfl
@[simp] theorem State.modCtx_l2 (s : State) (cid : BitVec 12) (f : Ctx → Ctx) : (s.modCtx cid f).l2 = s.l2 := rfl
@[simp] theorem State.modCtx_flying (s : State) (cid : BitVec 12) (f : Ctx → Ctx) : (s.modCtx cid f).flying = s.flying := rfl
@[simp] theorem State.modCtx_nextId (s : State) (cid : BitVec 12) (f : Ctx → Ctx) : (s.modCtx cid f).nextId = s.nextId := rfl
@[simp] theorem State.modCtx_areqs (s : State) (cid : BitVec 12) (f : Ctx → Ctx) : (s.modCtx cid f).areqs = s.areqs := rfl
@[simp] theorem State.modCtx_tileOps (s : State) (cid : BitVec 12) (f : Ctx → Ctx) : (s.modCtx cid f).tileOps = s.tileOps := rfl
@[simp] theorem State.modCtx_pgq (s : State) (cid : BitVec 12) (f : Ctx → Ctx) : (s.modCtx cid f).pgq = s.pgq := rfl
@[simp] theorem State.modCtx_pgdrop (s : State) (cid : BitVec 12) (f : Ctx → Ctx) : (s.modCtx cid f).pgdrop = s.pgdrop := rfl
@[simp] theorem State.modCtx_dorph (s : State) (cid : BitVec 12) (f : Ctx → Ctx) : (s.modCtx cid f).dorph = s.dorph := rfl
@[simp] theorem State.modCtx_rotLast (s : State) (cid : BitVec 12) (f : Ctx → Ctx) : (s.modCtx cid f).rotLast = s.rotLast := rfl
@[simp] theorem State.modCtx_window (s : State) (cid : BitVec 12) (f : Ctx → Ctx) : (s.modCtx cid f).window = s.window := rfl
@[simp] theorem State.modCtx_wfe (s : State) (cid : BitVec 12) (f : Ctx → Ctx) : (s.modCtx cid f).wfe = s.wfe := rfl
@[simp] theorem State.modCtx_devHeld (s : State) (cid : BitVec 12) (f : Ctx → Ctx) : (s.modCtx cid f).devHeld = s.devHeld := rfl
@[simp] theorem State.modCtx_ports (s : State) (cid : BitVec 12) (f : Ctx → Ctx) : (s.modCtx cid f).ports = s.ports := rfl
@[simp] theorem State.modCtx_posTab (s : State) (cid : BitVec 12) (f : Ctx → Ctx) : (s.modCtx cid f).posTab = s.posTab := rfl
@[simp] theorem State.modCtx_slotNo (s : State) (cid : BitVec 12) (f : Ctx → Ctx) : (s.modCtx cid f).slotNo = s.slotNo := rfl
@[simp] theorem State.modCtx_slotAt (s : State) (cid : BitVec 12) (f : Ctx → Ctx) : (s.modCtx cid f).slotAt = s.slotAt := rfl
@[simp] theorem State.modCtx_tsok (s : State) (cid : BitVec 12) (f : Ctx → Ctx) : (s.modCtx cid f).tsok = s.tsok := rfl
@[simp] theorem State.modCtx_tsLast (s : State) (cid : BitVec 12) (f : Ctx → Ctx) : (s.modCtx cid f).tsLast = s.tsLast := rfl
@[simp] theorem State.modCtx_trim (s : State) (cid : BitVec 12) (f : Ctx → Ctx) : (s.modCtx cid f).trim = s.trim := rfl
@[simp] theorem State.modCtx_gtsFrac (s : State) (cid : BitVec 12) (f : Ctx → Ctx) : (s.modCtx cid f).gtsFrac = s.gtsFrac := rfl
@[simp] theorem State.modCtx_root (s : State) (cid : BitVec 12) (f : Ctx → Ctx) : (s.modCtx cid f).root = s.root := rfl
@[simp] theorem State.modCtx_adverts (s : State) (cid : BitVec 12) (f : Ctx → Ctx) : (s.modCtx cid f).adverts = s.adverts := rfl
@[simp] theorem State.modCtx_seqs (s : State) (cid : BitVec 12) (f : Ctx → Ctx) : (s.modCtx cid f).seqs = s.seqs := rfl
@[simp] theorem State.modCtx_oreqs (s : State) (cid : BitVec 12) (f : Ctx → Ctx) : (s.modCtx cid f).oreqs = s.oreqs := rfl
@[simp] theorem State.modCtx_dedup (s : State) (cid : BitVec 12) (f : Ctx → Ctx) : (s.modCtx cid f).dedup = s.dedup := rfl
@[simp] theorem State.modCtx_rcache (s : State) (cid : BitVec 12) (f : Ctx → Ctx) : (s.modCtx cid f).rcache = s.rcache := rfl
@[simp] theorem State.modCtx_txq (s : State) (cid : BitVec 12) (f : Ctx → Ctx) : (s.modCtx cid f).txq = s.txq := rfl
@[simp] theorem State.modCtx_relay (s : State) (cid : BitVec 12) (f : Ctx → Ctx) : (s.modCtx cid f).relay = s.relay := rfl
@[simp] theorem State.modCtx_combs (s : State) (cid : BitVec 12) (f : Ctx → Ctx) : (s.modCtx cid f).combs = s.combs := rfl
@[simp] theorem State.modCtx_destSeen (s : State) (cid : BitVec 12) (f : Ctx → Ctx) : (s.modCtx cid f).destSeen = s.destSeen := rfl
@[simp] theorem State.modCtx_ueOps (s : State) (cid : BitVec 12) (f : Ctx → Ctx) : (s.modCtx cid f).ueOps = s.ueOps := rfl
@[simp] theorem State.modCtx_recvs (s : State) (cid : BitVec 12) (f : Ctx → Ctx) : (s.modCtx cid f).recvs = s.recvs := rfl
@[simp] theorem State.modCtx_uePorts (s : State) (cid : BitVec 12) (f : Ctx → Ctx) : (s.modCtx cid f).uePorts = s.uePorts := rfl
@[simp] theorem State.modCtx_ueq (s : State) (cid : BitVec 12) (f : Ctx → Ctx) : (s.modCtx cid f).ueq = s.ueq := rfl
@[simp] theorem State.modCtx_out (s : State) (cid : BitVec 12) (f : Ctx → Ctx) : (s.modCtx cid f).out = s.out := rfl
@[simp] theorem State.modCtx_pstate (s : State) (cid : BitVec 12) (f : Ctx → Ctx) : (s.modCtx cid f).pstate = s.pstate := rfl
@[simp] theorem State.modCtx_islands (s : State) (cid : BitVec 12) (f : Ctx → Ctx) : (s.modCtx cid f).islands = s.islands := rfl
@[simp] theorem State.modCtx_conf (s : State) (cid : BitVec 12) (f : Ctx → Ctx) : (s.modCtx cid f).conf = s.conf := rfl
@[simp] theorem State.modCtx_gts (s : State) (cid : BitVec 12) (f : Ctx → Ctx) : (s.modCtx cid f).gts = s.gts := rfl
@[simp] theorem State.modCtx_cycle (s : State) (cid : BitVec 12) (f : Ctx → Ctx) : (s.modCtx cid f).cycle = s.cycle := rfl
@[simp] theorem State.modCtx_freeCtr (s : State) (cid : BitVec 12) (f : Ctx → Ctx) : (s.modCtx cid f).freeCtr = s.freeCtr := rfl
@[simp] theorem State.modCtx_cur (s : State) (cid : BitVec 12) (f : Ctx → Ctx) : (s.modCtx cid f).cur = s.cur := rfl
@[simp] theorem State.modCtx_curEng (s : State) (cid : BitVec 12) (f : Ctx → Ctx) : (s.modCtx cid f).curEng = s.curEng := rfl
@[simp] theorem State.modCtx_curQ (s : State) (cid : BitVec 12) (f : Ctx → Ctx) : (s.modCtx cid f).curQ = s.curQ := rfl
@[simp] theorem State.modCtx_sched (s : State) (cid : BitVec 12) (f : Ctx → Ctx) : (s.modCtx cid f).sched = s.sched := rfl

/-! ### setPart -/

@[simp] theorem State.setPart_cores (s : State) (pid : BitVec 7) (p : Part) : (s.setPart pid p).cores = s.cores := rfl
@[simp] theorem State.setPart_ctxs (s : State) (pid : BitVec 7) (p : Part) : (s.setPart pid p).ctxs = s.ctxs := rfl
@[simp] theorem State.setPart_launches (s : State) (pid : BitVec 7) (p : Part) : (s.setPart pid p).launches = s.launches := rfl
@[simp] theorem State.setPart_nextLaunch (s : State) (pid : BitVec 7) (p : Part) : (s.setPart pid p).nextLaunch = s.nextLaunch := rfl
@[simp] theorem State.setPart_phasers (s : State) (pid : BitVec 7) (p : Part) : (s.setPart pid p).phasers = s.phasers := rfl
@[simp] theorem State.setPart_fences (s : State) (pid : BitVec 7) (p : Part) : (s.setPart pid p).fences = s.fences := rfl
@[simp] theorem State.setPart_slices (s : State) (pid : BitVec 7) (p : Part) : (s.setPart pid p).slices = s.slices := rfl
@[simp] theorem State.setPart_mem (s : State) (pid : BitVec 7) (p : Part) : (s.setPart pid p).mem = s.mem := rfl
@[simp] theorem State.setPart_poison (s : State) (pid : BitVec 7) (p : Part) : (s.setPart pid p).poison = s.poison := rfl
@[simp] theorem State.setPart_l2 (s : State) (pid : BitVec 7) (p : Part) : (s.setPart pid p).l2 = s.l2 := rfl
@[simp] theorem State.setPart_flying (s : State) (pid : BitVec 7) (p : Part) : (s.setPart pid p).flying = s.flying := rfl
@[simp] theorem State.setPart_nextId (s : State) (pid : BitVec 7) (p : Part) : (s.setPart pid p).nextId = s.nextId := rfl
@[simp] theorem State.setPart_areqs (s : State) (pid : BitVec 7) (p : Part) : (s.setPart pid p).areqs = s.areqs := rfl
@[simp] theorem State.setPart_tileOps (s : State) (pid : BitVec 7) (p : Part) : (s.setPart pid p).tileOps = s.tileOps := rfl
@[simp] theorem State.setPart_pgq (s : State) (pid : BitVec 7) (p : Part) : (s.setPart pid p).pgq = s.pgq := rfl
@[simp] theorem State.setPart_pgdrop (s : State) (pid : BitVec 7) (p : Part) : (s.setPart pid p).pgdrop = s.pgdrop := rfl
@[simp] theorem State.setPart_dorph (s : State) (pid : BitVec 7) (p : Part) : (s.setPart pid p).dorph = s.dorph := rfl
@[simp] theorem State.setPart_rotLast (s : State) (pid : BitVec 7) (p : Part) : (s.setPart pid p).rotLast = s.rotLast := rfl
@[simp] theorem State.setPart_window (s : State) (pid : BitVec 7) (p : Part) : (s.setPart pid p).window = s.window := rfl
@[simp] theorem State.setPart_wfe (s : State) (pid : BitVec 7) (p : Part) : (s.setPart pid p).wfe = s.wfe := rfl
@[simp] theorem State.setPart_devHeld (s : State) (pid : BitVec 7) (p : Part) : (s.setPart pid p).devHeld = s.devHeld := rfl
@[simp] theorem State.setPart_ports (s : State) (pid : BitVec 7) (p : Part) : (s.setPart pid p).ports = s.ports := rfl
@[simp] theorem State.setPart_posTab (s : State) (pid : BitVec 7) (p : Part) : (s.setPart pid p).posTab = s.posTab := rfl
@[simp] theorem State.setPart_slotNo (s : State) (pid : BitVec 7) (p : Part) : (s.setPart pid p).slotNo = s.slotNo := rfl
@[simp] theorem State.setPart_slotAt (s : State) (pid : BitVec 7) (p : Part) : (s.setPart pid p).slotAt = s.slotAt := rfl
@[simp] theorem State.setPart_tsok (s : State) (pid : BitVec 7) (p : Part) : (s.setPart pid p).tsok = s.tsok := rfl
@[simp] theorem State.setPart_tsLast (s : State) (pid : BitVec 7) (p : Part) : (s.setPart pid p).tsLast = s.tsLast := rfl
@[simp] theorem State.setPart_trim (s : State) (pid : BitVec 7) (p : Part) : (s.setPart pid p).trim = s.trim := rfl
@[simp] theorem State.setPart_gtsFrac (s : State) (pid : BitVec 7) (p : Part) : (s.setPart pid p).gtsFrac = s.gtsFrac := rfl
@[simp] theorem State.setPart_root (s : State) (pid : BitVec 7) (p : Part) : (s.setPart pid p).root = s.root := rfl
@[simp] theorem State.setPart_adverts (s : State) (pid : BitVec 7) (p : Part) : (s.setPart pid p).adverts = s.adverts := rfl
@[simp] theorem State.setPart_seqs (s : State) (pid : BitVec 7) (p : Part) : (s.setPart pid p).seqs = s.seqs := rfl
@[simp] theorem State.setPart_oreqs (s : State) (pid : BitVec 7) (p : Part) : (s.setPart pid p).oreqs = s.oreqs := rfl
@[simp] theorem State.setPart_dedup (s : State) (pid : BitVec 7) (p : Part) : (s.setPart pid p).dedup = s.dedup := rfl
@[simp] theorem State.setPart_rcache (s : State) (pid : BitVec 7) (p : Part) : (s.setPart pid p).rcache = s.rcache := rfl
@[simp] theorem State.setPart_txq (s : State) (pid : BitVec 7) (p : Part) : (s.setPart pid p).txq = s.txq := rfl
@[simp] theorem State.setPart_relay (s : State) (pid : BitVec 7) (p : Part) : (s.setPart pid p).relay = s.relay := rfl
@[simp] theorem State.setPart_combs (s : State) (pid : BitVec 7) (p : Part) : (s.setPart pid p).combs = s.combs := rfl
@[simp] theorem State.setPart_destSeen (s : State) (pid : BitVec 7) (p : Part) : (s.setPart pid p).destSeen = s.destSeen := rfl
@[simp] theorem State.setPart_ueOps (s : State) (pid : BitVec 7) (p : Part) : (s.setPart pid p).ueOps = s.ueOps := rfl
@[simp] theorem State.setPart_recvs (s : State) (pid : BitVec 7) (p : Part) : (s.setPart pid p).recvs = s.recvs := rfl
@[simp] theorem State.setPart_uePorts (s : State) (pid : BitVec 7) (p : Part) : (s.setPart pid p).uePorts = s.uePorts := rfl
@[simp] theorem State.setPart_ueq (s : State) (pid : BitVec 7) (p : Part) : (s.setPart pid p).ueq = s.ueq := rfl
@[simp] theorem State.setPart_out (s : State) (pid : BitVec 7) (p : Part) : (s.setPart pid p).out = s.out := rfl
@[simp] theorem State.setPart_pstate (s : State) (pid : BitVec 7) (p : Part) : (s.setPart pid p).pstate = s.pstate := rfl
@[simp] theorem State.setPart_islands (s : State) (pid : BitVec 7) (p : Part) : (s.setPart pid p).islands = s.islands := rfl
@[simp] theorem State.setPart_conf (s : State) (pid : BitVec 7) (p : Part) : (s.setPart pid p).conf = s.conf := rfl
@[simp] theorem State.setPart_gts (s : State) (pid : BitVec 7) (p : Part) : (s.setPart pid p).gts = s.gts := rfl
@[simp] theorem State.setPart_cycle (s : State) (pid : BitVec 7) (p : Part) : (s.setPart pid p).cycle = s.cycle := rfl
@[simp] theorem State.setPart_freeCtr (s : State) (pid : BitVec 7) (p : Part) : (s.setPart pid p).freeCtr = s.freeCtr := rfl
@[simp] theorem State.setPart_cur (s : State) (pid : BitVec 7) (p : Part) : (s.setPart pid p).cur = s.cur := rfl
@[simp] theorem State.setPart_curEng (s : State) (pid : BitVec 7) (p : Part) : (s.setPart pid p).curEng = s.curEng := rfl
@[simp] theorem State.setPart_curQ (s : State) (pid : BitVec 7) (p : Part) : (s.setPart pid p).curQ = s.curQ := rfl
@[simp] theorem State.setPart_sched (s : State) (pid : BitVec 7) (p : Part) : (s.setPart pid p).sched = s.sched := rfl

/-! ### modPart -/

@[simp] theorem State.modPart_cores (s : State) (pid : BitVec 7) (f : Part → Part) : (s.modPart pid f).cores = s.cores := rfl
@[simp] theorem State.modPart_ctxs (s : State) (pid : BitVec 7) (f : Part → Part) : (s.modPart pid f).ctxs = s.ctxs := rfl
@[simp] theorem State.modPart_launches (s : State) (pid : BitVec 7) (f : Part → Part) : (s.modPart pid f).launches = s.launches := rfl
@[simp] theorem State.modPart_nextLaunch (s : State) (pid : BitVec 7) (f : Part → Part) : (s.modPart pid f).nextLaunch = s.nextLaunch := rfl
@[simp] theorem State.modPart_phasers (s : State) (pid : BitVec 7) (f : Part → Part) : (s.modPart pid f).phasers = s.phasers := rfl
@[simp] theorem State.modPart_fences (s : State) (pid : BitVec 7) (f : Part → Part) : (s.modPart pid f).fences = s.fences := rfl
@[simp] theorem State.modPart_slices (s : State) (pid : BitVec 7) (f : Part → Part) : (s.modPart pid f).slices = s.slices := rfl
@[simp] theorem State.modPart_mem (s : State) (pid : BitVec 7) (f : Part → Part) : (s.modPart pid f).mem = s.mem := rfl
@[simp] theorem State.modPart_poison (s : State) (pid : BitVec 7) (f : Part → Part) : (s.modPart pid f).poison = s.poison := rfl
@[simp] theorem State.modPart_l2 (s : State) (pid : BitVec 7) (f : Part → Part) : (s.modPart pid f).l2 = s.l2 := rfl
@[simp] theorem State.modPart_flying (s : State) (pid : BitVec 7) (f : Part → Part) : (s.modPart pid f).flying = s.flying := rfl
@[simp] theorem State.modPart_nextId (s : State) (pid : BitVec 7) (f : Part → Part) : (s.modPart pid f).nextId = s.nextId := rfl
@[simp] theorem State.modPart_areqs (s : State) (pid : BitVec 7) (f : Part → Part) : (s.modPart pid f).areqs = s.areqs := rfl
@[simp] theorem State.modPart_tileOps (s : State) (pid : BitVec 7) (f : Part → Part) : (s.modPart pid f).tileOps = s.tileOps := rfl
@[simp] theorem State.modPart_pgq (s : State) (pid : BitVec 7) (f : Part → Part) : (s.modPart pid f).pgq = s.pgq := rfl
@[simp] theorem State.modPart_pgdrop (s : State) (pid : BitVec 7) (f : Part → Part) : (s.modPart pid f).pgdrop = s.pgdrop := rfl
@[simp] theorem State.modPart_dorph (s : State) (pid : BitVec 7) (f : Part → Part) : (s.modPart pid f).dorph = s.dorph := rfl
@[simp] theorem State.modPart_rotLast (s : State) (pid : BitVec 7) (f : Part → Part) : (s.modPart pid f).rotLast = s.rotLast := rfl
@[simp] theorem State.modPart_window (s : State) (pid : BitVec 7) (f : Part → Part) : (s.modPart pid f).window = s.window := rfl
@[simp] theorem State.modPart_wfe (s : State) (pid : BitVec 7) (f : Part → Part) : (s.modPart pid f).wfe = s.wfe := rfl
@[simp] theorem State.modPart_devHeld (s : State) (pid : BitVec 7) (f : Part → Part) : (s.modPart pid f).devHeld = s.devHeld := rfl
@[simp] theorem State.modPart_ports (s : State) (pid : BitVec 7) (f : Part → Part) : (s.modPart pid f).ports = s.ports := rfl
@[simp] theorem State.modPart_posTab (s : State) (pid : BitVec 7) (f : Part → Part) : (s.modPart pid f).posTab = s.posTab := rfl
@[simp] theorem State.modPart_slotNo (s : State) (pid : BitVec 7) (f : Part → Part) : (s.modPart pid f).slotNo = s.slotNo := rfl
@[simp] theorem State.modPart_slotAt (s : State) (pid : BitVec 7) (f : Part → Part) : (s.modPart pid f).slotAt = s.slotAt := rfl
@[simp] theorem State.modPart_tsok (s : State) (pid : BitVec 7) (f : Part → Part) : (s.modPart pid f).tsok = s.tsok := rfl
@[simp] theorem State.modPart_tsLast (s : State) (pid : BitVec 7) (f : Part → Part) : (s.modPart pid f).tsLast = s.tsLast := rfl
@[simp] theorem State.modPart_trim (s : State) (pid : BitVec 7) (f : Part → Part) : (s.modPart pid f).trim = s.trim := rfl
@[simp] theorem State.modPart_gtsFrac (s : State) (pid : BitVec 7) (f : Part → Part) : (s.modPart pid f).gtsFrac = s.gtsFrac := rfl
@[simp] theorem State.modPart_root (s : State) (pid : BitVec 7) (f : Part → Part) : (s.modPart pid f).root = s.root := rfl
@[simp] theorem State.modPart_adverts (s : State) (pid : BitVec 7) (f : Part → Part) : (s.modPart pid f).adverts = s.adverts := rfl
@[simp] theorem State.modPart_seqs (s : State) (pid : BitVec 7) (f : Part → Part) : (s.modPart pid f).seqs = s.seqs := rfl
@[simp] theorem State.modPart_oreqs (s : State) (pid : BitVec 7) (f : Part → Part) : (s.modPart pid f).oreqs = s.oreqs := rfl
@[simp] theorem State.modPart_dedup (s : State) (pid : BitVec 7) (f : Part → Part) : (s.modPart pid f).dedup = s.dedup := rfl
@[simp] theorem State.modPart_rcache (s : State) (pid : BitVec 7) (f : Part → Part) : (s.modPart pid f).rcache = s.rcache := rfl
@[simp] theorem State.modPart_txq (s : State) (pid : BitVec 7) (f : Part → Part) : (s.modPart pid f).txq = s.txq := rfl
@[simp] theorem State.modPart_relay (s : State) (pid : BitVec 7) (f : Part → Part) : (s.modPart pid f).relay = s.relay := rfl
@[simp] theorem State.modPart_combs (s : State) (pid : BitVec 7) (f : Part → Part) : (s.modPart pid f).combs = s.combs := rfl
@[simp] theorem State.modPart_destSeen (s : State) (pid : BitVec 7) (f : Part → Part) : (s.modPart pid f).destSeen = s.destSeen := rfl
@[simp] theorem State.modPart_ueOps (s : State) (pid : BitVec 7) (f : Part → Part) : (s.modPart pid f).ueOps = s.ueOps := rfl
@[simp] theorem State.modPart_recvs (s : State) (pid : BitVec 7) (f : Part → Part) : (s.modPart pid f).recvs = s.recvs := rfl
@[simp] theorem State.modPart_uePorts (s : State) (pid : BitVec 7) (f : Part → Part) : (s.modPart pid f).uePorts = s.uePorts := rfl
@[simp] theorem State.modPart_ueq (s : State) (pid : BitVec 7) (f : Part → Part) : (s.modPart pid f).ueq = s.ueq := rfl
@[simp] theorem State.modPart_out (s : State) (pid : BitVec 7) (f : Part → Part) : (s.modPart pid f).out = s.out := rfl
@[simp] theorem State.modPart_pstate (s : State) (pid : BitVec 7) (f : Part → Part) : (s.modPart pid f).pstate = s.pstate := rfl
@[simp] theorem State.modPart_islands (s : State) (pid : BitVec 7) (f : Part → Part) : (s.modPart pid f).islands = s.islands := rfl
@[simp] theorem State.modPart_conf (s : State) (pid : BitVec 7) (f : Part → Part) : (s.modPart pid f).conf = s.conf := rfl
@[simp] theorem State.modPart_gts (s : State) (pid : BitVec 7) (f : Part → Part) : (s.modPart pid f).gts = s.gts := rfl
@[simp] theorem State.modPart_cycle (s : State) (pid : BitVec 7) (f : Part → Part) : (s.modPart pid f).cycle = s.cycle := rfl
@[simp] theorem State.modPart_freeCtr (s : State) (pid : BitVec 7) (f : Part → Part) : (s.modPart pid f).freeCtr = s.freeCtr := rfl
@[simp] theorem State.modPart_cur (s : State) (pid : BitVec 7) (f : Part → Part) : (s.modPart pid f).cur = s.cur := rfl
@[simp] theorem State.modPart_curEng (s : State) (pid : BitVec 7) (f : Part → Part) : (s.modPart pid f).curEng = s.curEng := rfl
@[simp] theorem State.modPart_curQ (s : State) (pid : BitVec 7) (f : Part → Part) : (s.modPart pid f).curQ = s.curQ := rfl
@[simp] theorem State.modPart_sched (s : State) (pid : BitVec 7) (f : Part → Part) : (s.modPart pid f).sched = s.sched := rfl

/-! ### setPhaser -/

@[simp] theorem State.setPhaser_cores (s : State) (n : BitVec 12) (p : Phaser) : (s.setPhaser n p).cores = s.cores := rfl
@[simp] theorem State.setPhaser_ctxs (s : State) (n : BitVec 12) (p : Phaser) : (s.setPhaser n p).ctxs = s.ctxs := rfl
@[simp] theorem State.setPhaser_parts (s : State) (n : BitVec 12) (p : Phaser) : (s.setPhaser n p).parts = s.parts := rfl
@[simp] theorem State.setPhaser_launches (s : State) (n : BitVec 12) (p : Phaser) : (s.setPhaser n p).launches = s.launches := rfl
@[simp] theorem State.setPhaser_nextLaunch (s : State) (n : BitVec 12) (p : Phaser) : (s.setPhaser n p).nextLaunch = s.nextLaunch := rfl
@[simp] theorem State.setPhaser_fences (s : State) (n : BitVec 12) (p : Phaser) : (s.setPhaser n p).fences = s.fences := rfl
@[simp] theorem State.setPhaser_slices (s : State) (n : BitVec 12) (p : Phaser) : (s.setPhaser n p).slices = s.slices := rfl
@[simp] theorem State.setPhaser_mem (s : State) (n : BitVec 12) (p : Phaser) : (s.setPhaser n p).mem = s.mem := rfl
@[simp] theorem State.setPhaser_poison (s : State) (n : BitVec 12) (p : Phaser) : (s.setPhaser n p).poison = s.poison := rfl
@[simp] theorem State.setPhaser_l2 (s : State) (n : BitVec 12) (p : Phaser) : (s.setPhaser n p).l2 = s.l2 := rfl
@[simp] theorem State.setPhaser_flying (s : State) (n : BitVec 12) (p : Phaser) : (s.setPhaser n p).flying = s.flying := rfl
@[simp] theorem State.setPhaser_nextId (s : State) (n : BitVec 12) (p : Phaser) : (s.setPhaser n p).nextId = s.nextId := rfl
@[simp] theorem State.setPhaser_areqs (s : State) (n : BitVec 12) (p : Phaser) : (s.setPhaser n p).areqs = s.areqs := rfl
@[simp] theorem State.setPhaser_tileOps (s : State) (n : BitVec 12) (p : Phaser) : (s.setPhaser n p).tileOps = s.tileOps := rfl
@[simp] theorem State.setPhaser_pgq (s : State) (n : BitVec 12) (p : Phaser) : (s.setPhaser n p).pgq = s.pgq := rfl
@[simp] theorem State.setPhaser_pgdrop (s : State) (n : BitVec 12) (p : Phaser) : (s.setPhaser n p).pgdrop = s.pgdrop := rfl
@[simp] theorem State.setPhaser_dorph (s : State) (n : BitVec 12) (p : Phaser) : (s.setPhaser n p).dorph = s.dorph := rfl
@[simp] theorem State.setPhaser_rotLast (s : State) (n : BitVec 12) (p : Phaser) : (s.setPhaser n p).rotLast = s.rotLast := rfl
@[simp] theorem State.setPhaser_window (s : State) (n : BitVec 12) (p : Phaser) : (s.setPhaser n p).window = s.window := rfl
@[simp] theorem State.setPhaser_wfe (s : State) (n : BitVec 12) (p : Phaser) : (s.setPhaser n p).wfe = s.wfe := rfl
@[simp] theorem State.setPhaser_devHeld (s : State) (n : BitVec 12) (p : Phaser) : (s.setPhaser n p).devHeld = s.devHeld := rfl
@[simp] theorem State.setPhaser_ports (s : State) (n : BitVec 12) (p : Phaser) : (s.setPhaser n p).ports = s.ports := rfl
@[simp] theorem State.setPhaser_posTab (s : State) (n : BitVec 12) (p : Phaser) : (s.setPhaser n p).posTab = s.posTab := rfl
@[simp] theorem State.setPhaser_slotNo (s : State) (n : BitVec 12) (p : Phaser) : (s.setPhaser n p).slotNo = s.slotNo := rfl
@[simp] theorem State.setPhaser_slotAt (s : State) (n : BitVec 12) (p : Phaser) : (s.setPhaser n p).slotAt = s.slotAt := rfl
@[simp] theorem State.setPhaser_tsok (s : State) (n : BitVec 12) (p : Phaser) : (s.setPhaser n p).tsok = s.tsok := rfl
@[simp] theorem State.setPhaser_tsLast (s : State) (n : BitVec 12) (p : Phaser) : (s.setPhaser n p).tsLast = s.tsLast := rfl
@[simp] theorem State.setPhaser_trim (s : State) (n : BitVec 12) (p : Phaser) : (s.setPhaser n p).trim = s.trim := rfl
@[simp] theorem State.setPhaser_gtsFrac (s : State) (n : BitVec 12) (p : Phaser) : (s.setPhaser n p).gtsFrac = s.gtsFrac := rfl
@[simp] theorem State.setPhaser_root (s : State) (n : BitVec 12) (p : Phaser) : (s.setPhaser n p).root = s.root := rfl
@[simp] theorem State.setPhaser_adverts (s : State) (n : BitVec 12) (p : Phaser) : (s.setPhaser n p).adverts = s.adverts := rfl
@[simp] theorem State.setPhaser_seqs (s : State) (n : BitVec 12) (p : Phaser) : (s.setPhaser n p).seqs = s.seqs := rfl
@[simp] theorem State.setPhaser_oreqs (s : State) (n : BitVec 12) (p : Phaser) : (s.setPhaser n p).oreqs = s.oreqs := rfl
@[simp] theorem State.setPhaser_dedup (s : State) (n : BitVec 12) (p : Phaser) : (s.setPhaser n p).dedup = s.dedup := rfl
@[simp] theorem State.setPhaser_rcache (s : State) (n : BitVec 12) (p : Phaser) : (s.setPhaser n p).rcache = s.rcache := rfl
@[simp] theorem State.setPhaser_txq (s : State) (n : BitVec 12) (p : Phaser) : (s.setPhaser n p).txq = s.txq := rfl
@[simp] theorem State.setPhaser_relay (s : State) (n : BitVec 12) (p : Phaser) : (s.setPhaser n p).relay = s.relay := rfl
@[simp] theorem State.setPhaser_combs (s : State) (n : BitVec 12) (p : Phaser) : (s.setPhaser n p).combs = s.combs := rfl
@[simp] theorem State.setPhaser_destSeen (s : State) (n : BitVec 12) (p : Phaser) : (s.setPhaser n p).destSeen = s.destSeen := rfl
@[simp] theorem State.setPhaser_ueOps (s : State) (n : BitVec 12) (p : Phaser) : (s.setPhaser n p).ueOps = s.ueOps := rfl
@[simp] theorem State.setPhaser_recvs (s : State) (n : BitVec 12) (p : Phaser) : (s.setPhaser n p).recvs = s.recvs := rfl
@[simp] theorem State.setPhaser_uePorts (s : State) (n : BitVec 12) (p : Phaser) : (s.setPhaser n p).uePorts = s.uePorts := rfl
@[simp] theorem State.setPhaser_ueq (s : State) (n : BitVec 12) (p : Phaser) : (s.setPhaser n p).ueq = s.ueq := rfl
@[simp] theorem State.setPhaser_out (s : State) (n : BitVec 12) (p : Phaser) : (s.setPhaser n p).out = s.out := rfl
@[simp] theorem State.setPhaser_pstate (s : State) (n : BitVec 12) (p : Phaser) : (s.setPhaser n p).pstate = s.pstate := rfl
@[simp] theorem State.setPhaser_islands (s : State) (n : BitVec 12) (p : Phaser) : (s.setPhaser n p).islands = s.islands := rfl
@[simp] theorem State.setPhaser_conf (s : State) (n : BitVec 12) (p : Phaser) : (s.setPhaser n p).conf = s.conf := rfl
@[simp] theorem State.setPhaser_gts (s : State) (n : BitVec 12) (p : Phaser) : (s.setPhaser n p).gts = s.gts := rfl
@[simp] theorem State.setPhaser_cycle (s : State) (n : BitVec 12) (p : Phaser) : (s.setPhaser n p).cycle = s.cycle := rfl
@[simp] theorem State.setPhaser_freeCtr (s : State) (n : BitVec 12) (p : Phaser) : (s.setPhaser n p).freeCtr = s.freeCtr := rfl
@[simp] theorem State.setPhaser_cur (s : State) (n : BitVec 12) (p : Phaser) : (s.setPhaser n p).cur = s.cur := rfl
@[simp] theorem State.setPhaser_curEng (s : State) (n : BitVec 12) (p : Phaser) : (s.setPhaser n p).curEng = s.curEng := rfl
@[simp] theorem State.setPhaser_curQ (s : State) (n : BitVec 12) (p : Phaser) : (s.setPhaser n p).curQ = s.curQ := rfl
@[simp] theorem State.setPhaser_sched (s : State) (n : BitVec 12) (p : Phaser) : (s.setPhaser n p).sched = s.sched := rfl

/-! ### setByte -/

@[simp] theorem State.setByte_cores (s : State) (k : Nat) (v : Byte) : (s.setByte k v).cores = s.cores := rfl
@[simp] theorem State.setByte_ctxs (s : State) (k : Nat) (v : Byte) : (s.setByte k v).ctxs = s.ctxs := rfl
@[simp] theorem State.setByte_parts (s : State) (k : Nat) (v : Byte) : (s.setByte k v).parts = s.parts := rfl
@[simp] theorem State.setByte_launches (s : State) (k : Nat) (v : Byte) : (s.setByte k v).launches = s.launches := rfl
@[simp] theorem State.setByte_nextLaunch (s : State) (k : Nat) (v : Byte) : (s.setByte k v).nextLaunch = s.nextLaunch := rfl
@[simp] theorem State.setByte_phasers (s : State) (k : Nat) (v : Byte) : (s.setByte k v).phasers = s.phasers := rfl
@[simp] theorem State.setByte_fences (s : State) (k : Nat) (v : Byte) : (s.setByte k v).fences = s.fences := rfl
@[simp] theorem State.setByte_slices (s : State) (k : Nat) (v : Byte) : (s.setByte k v).slices = s.slices := rfl
@[simp] theorem State.setByte_poison (s : State) (k : Nat) (v : Byte) : (s.setByte k v).poison = s.poison := rfl
@[simp] theorem State.setByte_l2 (s : State) (k : Nat) (v : Byte) : (s.setByte k v).l2 = s.l2 := rfl
@[simp] theorem State.setByte_flying (s : State) (k : Nat) (v : Byte) : (s.setByte k v).flying = s.flying := rfl
@[simp] theorem State.setByte_nextId (s : State) (k : Nat) (v : Byte) : (s.setByte k v).nextId = s.nextId := rfl
@[simp] theorem State.setByte_areqs (s : State) (k : Nat) (v : Byte) : (s.setByte k v).areqs = s.areqs := rfl
@[simp] theorem State.setByte_tileOps (s : State) (k : Nat) (v : Byte) : (s.setByte k v).tileOps = s.tileOps := rfl
@[simp] theorem State.setByte_pgq (s : State) (k : Nat) (v : Byte) : (s.setByte k v).pgq = s.pgq := rfl
@[simp] theorem State.setByte_pgdrop (s : State) (k : Nat) (v : Byte) : (s.setByte k v).pgdrop = s.pgdrop := rfl
@[simp] theorem State.setByte_dorph (s : State) (k : Nat) (v : Byte) : (s.setByte k v).dorph = s.dorph := rfl
@[simp] theorem State.setByte_rotLast (s : State) (k : Nat) (v : Byte) : (s.setByte k v).rotLast = s.rotLast := rfl
@[simp] theorem State.setByte_window (s : State) (k : Nat) (v : Byte) : (s.setByte k v).window = s.window := rfl
@[simp] theorem State.setByte_wfe (s : State) (k : Nat) (v : Byte) : (s.setByte k v).wfe = s.wfe := rfl
@[simp] theorem State.setByte_devHeld (s : State) (k : Nat) (v : Byte) : (s.setByte k v).devHeld = s.devHeld := rfl
@[simp] theorem State.setByte_ports (s : State) (k : Nat) (v : Byte) : (s.setByte k v).ports = s.ports := rfl
@[simp] theorem State.setByte_posTab (s : State) (k : Nat) (v : Byte) : (s.setByte k v).posTab = s.posTab := rfl
@[simp] theorem State.setByte_slotNo (s : State) (k : Nat) (v : Byte) : (s.setByte k v).slotNo = s.slotNo := rfl
@[simp] theorem State.setByte_slotAt (s : State) (k : Nat) (v : Byte) : (s.setByte k v).slotAt = s.slotAt := rfl
@[simp] theorem State.setByte_tsok (s : State) (k : Nat) (v : Byte) : (s.setByte k v).tsok = s.tsok := rfl
@[simp] theorem State.setByte_tsLast (s : State) (k : Nat) (v : Byte) : (s.setByte k v).tsLast = s.tsLast := rfl
@[simp] theorem State.setByte_trim (s : State) (k : Nat) (v : Byte) : (s.setByte k v).trim = s.trim := rfl
@[simp] theorem State.setByte_gtsFrac (s : State) (k : Nat) (v : Byte) : (s.setByte k v).gtsFrac = s.gtsFrac := rfl
@[simp] theorem State.setByte_root (s : State) (k : Nat) (v : Byte) : (s.setByte k v).root = s.root := rfl
@[simp] theorem State.setByte_adverts (s : State) (k : Nat) (v : Byte) : (s.setByte k v).adverts = s.adverts := rfl
@[simp] theorem State.setByte_seqs (s : State) (k : Nat) (v : Byte) : (s.setByte k v).seqs = s.seqs := rfl
@[simp] theorem State.setByte_oreqs (s : State) (k : Nat) (v : Byte) : (s.setByte k v).oreqs = s.oreqs := rfl
@[simp] theorem State.setByte_dedup (s : State) (k : Nat) (v : Byte) : (s.setByte k v).dedup = s.dedup := rfl
@[simp] theorem State.setByte_rcache (s : State) (k : Nat) (v : Byte) : (s.setByte k v).rcache = s.rcache := rfl
@[simp] theorem State.setByte_txq (s : State) (k : Nat) (v : Byte) : (s.setByte k v).txq = s.txq := rfl
@[simp] theorem State.setByte_relay (s : State) (k : Nat) (v : Byte) : (s.setByte k v).relay = s.relay := rfl
@[simp] theorem State.setByte_combs (s : State) (k : Nat) (v : Byte) : (s.setByte k v).combs = s.combs := rfl
@[simp] theorem State.setByte_destSeen (s : State) (k : Nat) (v : Byte) : (s.setByte k v).destSeen = s.destSeen := rfl
@[simp] theorem State.setByte_ueOps (s : State) (k : Nat) (v : Byte) : (s.setByte k v).ueOps = s.ueOps := rfl
@[simp] theorem State.setByte_recvs (s : State) (k : Nat) (v : Byte) : (s.setByte k v).recvs = s.recvs := rfl
@[simp] theorem State.setByte_uePorts (s : State) (k : Nat) (v : Byte) : (s.setByte k v).uePorts = s.uePorts := rfl
@[simp] theorem State.setByte_ueq (s : State) (k : Nat) (v : Byte) : (s.setByte k v).ueq = s.ueq := rfl
@[simp] theorem State.setByte_out (s : State) (k : Nat) (v : Byte) : (s.setByte k v).out = s.out := rfl
@[simp] theorem State.setByte_pstate (s : State) (k : Nat) (v : Byte) : (s.setByte k v).pstate = s.pstate := rfl
@[simp] theorem State.setByte_islands (s : State) (k : Nat) (v : Byte) : (s.setByte k v).islands = s.islands := rfl
@[simp] theorem State.setByte_conf (s : State) (k : Nat) (v : Byte) : (s.setByte k v).conf = s.conf := rfl
@[simp] theorem State.setByte_gts (s : State) (k : Nat) (v : Byte) : (s.setByte k v).gts = s.gts := rfl
@[simp] theorem State.setByte_cycle (s : State) (k : Nat) (v : Byte) : (s.setByte k v).cycle = s.cycle := rfl
@[simp] theorem State.setByte_freeCtr (s : State) (k : Nat) (v : Byte) : (s.setByte k v).freeCtr = s.freeCtr := rfl
@[simp] theorem State.setByte_cur (s : State) (k : Nat) (v : Byte) : (s.setByte k v).cur = s.cur := rfl
@[simp] theorem State.setByte_curEng (s : State) (k : Nat) (v : Byte) : (s.setByte k v).curEng = s.curEng := rfl
@[simp] theorem State.setByte_curQ (s : State) (k : Nat) (v : Byte) : (s.setByte k v).curQ = s.curQ := rfl
@[simp] theorem State.setByte_sched (s : State) (k : Nat) (v : Byte) : (s.setByte k v).sched = s.sched := rfl

/-! ### putBytes and putCells -/

theorem State.putBytes_mem_only (s : State) (k : Nat) (bs : List Byte) : ∃ m, s.putBytes k bs = { s with mem := m } := by
  induction bs generalizing s k with
  | nil => exact ⟨s.mem, rfl⟩
  | cons b t ih => obtain ⟨m, h⟩ := ih (s.setByte k b) (k + 1); exact ⟨m, h⟩
theorem State.putCells_mem_only (s : State) (cs : List (Nat × Byte)) : ∃ m, s.putCells cs = { s with mem := m } := by
  induction cs generalizing s with
  | nil => exact ⟨s.mem, rfl⟩
  | cons c t ih => obtain ⟨m, h⟩ := ih (s.setByte c.1 c.2); exact ⟨m, h⟩
@[simp] theorem State.putBytes_cores (s : State) (k : Nat) (bs : List Byte) : (s.putBytes k bs).cores = s.cores := by
  obtain ⟨m, h⟩ := s.putBytes_mem_only k bs; rw [h]
@[simp] theorem State.putBytes_ctxs (s : State) (k : Nat) (bs : List Byte) : (s.putBytes k bs).ctxs = s.ctxs := by
  obtain ⟨m, h⟩ := s.putBytes_mem_only k bs; rw [h]
@[simp] theorem State.putBytes_parts (s : State) (k : Nat) (bs : List Byte) : (s.putBytes k bs).parts = s.parts := by
  obtain ⟨m, h⟩ := s.putBytes_mem_only k bs; rw [h]
@[simp] theorem State.putBytes_launches (s : State) (k : Nat) (bs : List Byte) : (s.putBytes k bs).launches = s.launches := by
  obtain ⟨m, h⟩ := s.putBytes_mem_only k bs; rw [h]
@[simp] theorem State.putBytes_nextLaunch (s : State) (k : Nat) (bs : List Byte) : (s.putBytes k bs).nextLaunch = s.nextLaunch := by
  obtain ⟨m, h⟩ := s.putBytes_mem_only k bs; rw [h]
@[simp] theorem State.putBytes_phasers (s : State) (k : Nat) (bs : List Byte) : (s.putBytes k bs).phasers = s.phasers := by
  obtain ⟨m, h⟩ := s.putBytes_mem_only k bs; rw [h]
@[simp] theorem State.putBytes_fences (s : State) (k : Nat) (bs : List Byte) : (s.putBytes k bs).fences = s.fences := by
  obtain ⟨m, h⟩ := s.putBytes_mem_only k bs; rw [h]
@[simp] theorem State.putBytes_slices (s : State) (k : Nat) (bs : List Byte) : (s.putBytes k bs).slices = s.slices := by
  obtain ⟨m, h⟩ := s.putBytes_mem_only k bs; rw [h]
@[simp] theorem State.putBytes_poison (s : State) (k : Nat) (bs : List Byte) : (s.putBytes k bs).poison = s.poison := by
  obtain ⟨m, h⟩ := s.putBytes_mem_only k bs; rw [h]
@[simp] theorem State.putBytes_l2 (s : State) (k : Nat) (bs : List Byte) : (s.putBytes k bs).l2 = s.l2 := by
  obtain ⟨m, h⟩ := s.putBytes_mem_only k bs; rw [h]
@[simp] theorem State.putBytes_flying (s : State) (k : Nat) (bs : List Byte) : (s.putBytes k bs).flying = s.flying := by
  obtain ⟨m, h⟩ := s.putBytes_mem_only k bs; rw [h]
@[simp] theorem State.putBytes_nextId (s : State) (k : Nat) (bs : List Byte) : (s.putBytes k bs).nextId = s.nextId := by
  obtain ⟨m, h⟩ := s.putBytes_mem_only k bs; rw [h]
@[simp] theorem State.putBytes_areqs (s : State) (k : Nat) (bs : List Byte) : (s.putBytes k bs).areqs = s.areqs := by
  obtain ⟨m, h⟩ := s.putBytes_mem_only k bs; rw [h]
@[simp] theorem State.putBytes_tileOps (s : State) (k : Nat) (bs : List Byte) : (s.putBytes k bs).tileOps = s.tileOps := by
  obtain ⟨m, h⟩ := s.putBytes_mem_only k bs; rw [h]
@[simp] theorem State.putBytes_pgq (s : State) (k : Nat) (bs : List Byte) : (s.putBytes k bs).pgq = s.pgq := by
  obtain ⟨m, h⟩ := s.putBytes_mem_only k bs; rw [h]
@[simp] theorem State.putBytes_pgdrop (s : State) (k : Nat) (bs : List Byte) : (s.putBytes k bs).pgdrop = s.pgdrop := by
  obtain ⟨m, h⟩ := s.putBytes_mem_only k bs; rw [h]
@[simp] theorem State.putBytes_dorph (s : State) (k : Nat) (bs : List Byte) : (s.putBytes k bs).dorph = s.dorph := by
  obtain ⟨m, h⟩ := s.putBytes_mem_only k bs; rw [h]
@[simp] theorem State.putBytes_rotLast (s : State) (k : Nat) (bs : List Byte) : (s.putBytes k bs).rotLast = s.rotLast := by
  obtain ⟨m, h⟩ := s.putBytes_mem_only k bs; rw [h]
@[simp] theorem State.putBytes_window (s : State) (k : Nat) (bs : List Byte) : (s.putBytes k bs).window = s.window := by
  obtain ⟨m, h⟩ := s.putBytes_mem_only k bs; rw [h]
@[simp] theorem State.putBytes_wfe (s : State) (k : Nat) (bs : List Byte) : (s.putBytes k bs).wfe = s.wfe := by
  obtain ⟨m, h⟩ := s.putBytes_mem_only k bs; rw [h]
@[simp] theorem State.putBytes_devHeld (s : State) (k : Nat) (bs : List Byte) : (s.putBytes k bs).devHeld = s.devHeld := by
  obtain ⟨m, h⟩ := s.putBytes_mem_only k bs; rw [h]
@[simp] theorem State.putBytes_ports (s : State) (k : Nat) (bs : List Byte) : (s.putBytes k bs).ports = s.ports := by
  obtain ⟨m, h⟩ := s.putBytes_mem_only k bs; rw [h]
@[simp] theorem State.putBytes_posTab (s : State) (k : Nat) (bs : List Byte) : (s.putBytes k bs).posTab = s.posTab := by
  obtain ⟨m, h⟩ := s.putBytes_mem_only k bs; rw [h]
@[simp] theorem State.putBytes_slotNo (s : State) (k : Nat) (bs : List Byte) : (s.putBytes k bs).slotNo = s.slotNo := by
  obtain ⟨m, h⟩ := s.putBytes_mem_only k bs; rw [h]
@[simp] theorem State.putBytes_slotAt (s : State) (k : Nat) (bs : List Byte) : (s.putBytes k bs).slotAt = s.slotAt := by
  obtain ⟨m, h⟩ := s.putBytes_mem_only k bs; rw [h]
@[simp] theorem State.putBytes_tsok (s : State) (k : Nat) (bs : List Byte) : (s.putBytes k bs).tsok = s.tsok := by
  obtain ⟨m, h⟩ := s.putBytes_mem_only k bs; rw [h]
@[simp] theorem State.putBytes_tsLast (s : State) (k : Nat) (bs : List Byte) : (s.putBytes k bs).tsLast = s.tsLast := by
  obtain ⟨m, h⟩ := s.putBytes_mem_only k bs; rw [h]
@[simp] theorem State.putBytes_trim (s : State) (k : Nat) (bs : List Byte) : (s.putBytes k bs).trim = s.trim := by
  obtain ⟨m, h⟩ := s.putBytes_mem_only k bs; rw [h]
@[simp] theorem State.putBytes_gtsFrac (s : State) (k : Nat) (bs : List Byte) : (s.putBytes k bs).gtsFrac = s.gtsFrac := by
  obtain ⟨m, h⟩ := s.putBytes_mem_only k bs; rw [h]
@[simp] theorem State.putBytes_root (s : State) (k : Nat) (bs : List Byte) : (s.putBytes k bs).root = s.root := by
  obtain ⟨m, h⟩ := s.putBytes_mem_only k bs; rw [h]
@[simp] theorem State.putBytes_adverts (s : State) (k : Nat) (bs : List Byte) : (s.putBytes k bs).adverts = s.adverts := by
  obtain ⟨m, h⟩ := s.putBytes_mem_only k bs; rw [h]
@[simp] theorem State.putBytes_seqs (s : State) (k : Nat) (bs : List Byte) : (s.putBytes k bs).seqs = s.seqs := by
  obtain ⟨m, h⟩ := s.putBytes_mem_only k bs; rw [h]
@[simp] theorem State.putBytes_oreqs (s : State) (k : Nat) (bs : List Byte) : (s.putBytes k bs).oreqs = s.oreqs := by
  obtain ⟨m, h⟩ := s.putBytes_mem_only k bs; rw [h]
@[simp] theorem State.putBytes_dedup (s : State) (k : Nat) (bs : List Byte) : (s.putBytes k bs).dedup = s.dedup := by
  obtain ⟨m, h⟩ := s.putBytes_mem_only k bs; rw [h]
@[simp] theorem State.putBytes_rcache (s : State) (k : Nat) (bs : List Byte) : (s.putBytes k bs).rcache = s.rcache := by
  obtain ⟨m, h⟩ := s.putBytes_mem_only k bs; rw [h]
@[simp] theorem State.putBytes_txq (s : State) (k : Nat) (bs : List Byte) : (s.putBytes k bs).txq = s.txq := by
  obtain ⟨m, h⟩ := s.putBytes_mem_only k bs; rw [h]
@[simp] theorem State.putBytes_relay (s : State) (k : Nat) (bs : List Byte) : (s.putBytes k bs).relay = s.relay := by
  obtain ⟨m, h⟩ := s.putBytes_mem_only k bs; rw [h]
@[simp] theorem State.putBytes_combs (s : State) (k : Nat) (bs : List Byte) : (s.putBytes k bs).combs = s.combs := by
  obtain ⟨m, h⟩ := s.putBytes_mem_only k bs; rw [h]
@[simp] theorem State.putBytes_destSeen (s : State) (k : Nat) (bs : List Byte) : (s.putBytes k bs).destSeen = s.destSeen := by
  obtain ⟨m, h⟩ := s.putBytes_mem_only k bs; rw [h]
@[simp] theorem State.putBytes_ueOps (s : State) (k : Nat) (bs : List Byte) : (s.putBytes k bs).ueOps = s.ueOps := by
  obtain ⟨m, h⟩ := s.putBytes_mem_only k bs; rw [h]
@[simp] theorem State.putBytes_recvs (s : State) (k : Nat) (bs : List Byte) : (s.putBytes k bs).recvs = s.recvs := by
  obtain ⟨m, h⟩ := s.putBytes_mem_only k bs; rw [h]
@[simp] theorem State.putBytes_uePorts (s : State) (k : Nat) (bs : List Byte) : (s.putBytes k bs).uePorts = s.uePorts := by
  obtain ⟨m, h⟩ := s.putBytes_mem_only k bs; rw [h]
@[simp] theorem State.putBytes_ueq (s : State) (k : Nat) (bs : List Byte) : (s.putBytes k bs).ueq = s.ueq := by
  obtain ⟨m, h⟩ := s.putBytes_mem_only k bs; rw [h]
@[simp] theorem State.putBytes_out (s : State) (k : Nat) (bs : List Byte) : (s.putBytes k bs).out = s.out := by
  obtain ⟨m, h⟩ := s.putBytes_mem_only k bs; rw [h]
@[simp] theorem State.putBytes_pstate (s : State) (k : Nat) (bs : List Byte) : (s.putBytes k bs).pstate = s.pstate := by
  obtain ⟨m, h⟩ := s.putBytes_mem_only k bs; rw [h]
@[simp] theorem State.putBytes_islands (s : State) (k : Nat) (bs : List Byte) : (s.putBytes k bs).islands = s.islands := by
  obtain ⟨m, h⟩ := s.putBytes_mem_only k bs; rw [h]
@[simp] theorem State.putBytes_conf (s : State) (k : Nat) (bs : List Byte) : (s.putBytes k bs).conf = s.conf := by
  obtain ⟨m, h⟩ := s.putBytes_mem_only k bs; rw [h]
@[simp] theorem State.putBytes_gts (s : State) (k : Nat) (bs : List Byte) : (s.putBytes k bs).gts = s.gts := by
  obtain ⟨m, h⟩ := s.putBytes_mem_only k bs; rw [h]
@[simp] theorem State.putBytes_cycle (s : State) (k : Nat) (bs : List Byte) : (s.putBytes k bs).cycle = s.cycle := by
  obtain ⟨m, h⟩ := s.putBytes_mem_only k bs; rw [h]
@[simp] theorem State.putBytes_freeCtr (s : State) (k : Nat) (bs : List Byte) : (s.putBytes k bs).freeCtr = s.freeCtr := by
  obtain ⟨m, h⟩ := s.putBytes_mem_only k bs; rw [h]
@[simp] theorem State.putBytes_cur (s : State) (k : Nat) (bs : List Byte) : (s.putBytes k bs).cur = s.cur := by
  obtain ⟨m, h⟩ := s.putBytes_mem_only k bs; rw [h]
@[simp] theorem State.putBytes_curEng (s : State) (k : Nat) (bs : List Byte) : (s.putBytes k bs).curEng = s.curEng := by
  obtain ⟨m, h⟩ := s.putBytes_mem_only k bs; rw [h]
@[simp] theorem State.putBytes_curQ (s : State) (k : Nat) (bs : List Byte) : (s.putBytes k bs).curQ = s.curQ := by
  obtain ⟨m, h⟩ := s.putBytes_mem_only k bs; rw [h]
@[simp] theorem State.putBytes_sched (s : State) (k : Nat) (bs : List Byte) : (s.putBytes k bs).sched = s.sched := by
  obtain ⟨m, h⟩ := s.putBytes_mem_only k bs; rw [h]
@[simp] theorem State.putCells_cores (s : State) (cs : List (Nat × Byte)) : (s.putCells cs).cores = s.cores := by
  obtain ⟨m, h⟩ := s.putCells_mem_only cs; rw [h]
@[simp] theorem State.putCells_ctxs (s : State) (cs : List (Nat × Byte)) : (s.putCells cs).ctxs = s.ctxs := by
  obtain ⟨m, h⟩ := s.putCells_mem_only cs; rw [h]
@[simp] theorem State.putCells_parts (s : State) (cs : List (Nat × Byte)) : (s.putCells cs).parts = s.parts := by
  obtain ⟨m, h⟩ := s.putCells_mem_only cs; rw [h]
@[simp] theorem State.putCells_launches (s : State) (cs : List (Nat × Byte)) : (s.putCells cs).launches = s.launches := by
  obtain ⟨m, h⟩ := s.putCells_mem_only cs; rw [h]
@[simp] theorem State.putCells_nextLaunch (s : State) (cs : List (Nat × Byte)) : (s.putCells cs).nextLaunch = s.nextLaunch := by
  obtain ⟨m, h⟩ := s.putCells_mem_only cs; rw [h]
@[simp] theorem State.putCells_phasers (s : State) (cs : List (Nat × Byte)) : (s.putCells cs).phasers = s.phasers := by
  obtain ⟨m, h⟩ := s.putCells_mem_only cs; rw [h]
@[simp] theorem State.putCells_fences (s : State) (cs : List (Nat × Byte)) : (s.putCells cs).fences = s.fences := by
  obtain ⟨m, h⟩ := s.putCells_mem_only cs; rw [h]
@[simp] theorem State.putCells_slices (s : State) (cs : List (Nat × Byte)) : (s.putCells cs).slices = s.slices := by
  obtain ⟨m, h⟩ := s.putCells_mem_only cs; rw [h]
@[simp] theorem State.putCells_poison (s : State) (cs : List (Nat × Byte)) : (s.putCells cs).poison = s.poison := by
  obtain ⟨m, h⟩ := s.putCells_mem_only cs; rw [h]
@[simp] theorem State.putCells_l2 (s : State) (cs : List (Nat × Byte)) : (s.putCells cs).l2 = s.l2 := by
  obtain ⟨m, h⟩ := s.putCells_mem_only cs; rw [h]
@[simp] theorem State.putCells_flying (s : State) (cs : List (Nat × Byte)) : (s.putCells cs).flying = s.flying := by
  obtain ⟨m, h⟩ := s.putCells_mem_only cs; rw [h]
@[simp] theorem State.putCells_nextId (s : State) (cs : List (Nat × Byte)) : (s.putCells cs).nextId = s.nextId := by
  obtain ⟨m, h⟩ := s.putCells_mem_only cs; rw [h]
@[simp] theorem State.putCells_areqs (s : State) (cs : List (Nat × Byte)) : (s.putCells cs).areqs = s.areqs := by
  obtain ⟨m, h⟩ := s.putCells_mem_only cs; rw [h]
@[simp] theorem State.putCells_tileOps (s : State) (cs : List (Nat × Byte)) : (s.putCells cs).tileOps = s.tileOps := by
  obtain ⟨m, h⟩ := s.putCells_mem_only cs; rw [h]
@[simp] theorem State.putCells_pgq (s : State) (cs : List (Nat × Byte)) : (s.putCells cs).pgq = s.pgq := by
  obtain ⟨m, h⟩ := s.putCells_mem_only cs; rw [h]
@[simp] theorem State.putCells_pgdrop (s : State) (cs : List (Nat × Byte)) : (s.putCells cs).pgdrop = s.pgdrop := by
  obtain ⟨m, h⟩ := s.putCells_mem_only cs; rw [h]
@[simp] theorem State.putCells_dorph (s : State) (cs : List (Nat × Byte)) : (s.putCells cs).dorph = s.dorph := by
  obtain ⟨m, h⟩ := s.putCells_mem_only cs; rw [h]
@[simp] theorem State.putCells_rotLast (s : State) (cs : List (Nat × Byte)) : (s.putCells cs).rotLast = s.rotLast := by
  obtain ⟨m, h⟩ := s.putCells_mem_only cs; rw [h]
@[simp] theorem State.putCells_window (s : State) (cs : List (Nat × Byte)) : (s.putCells cs).window = s.window := by
  obtain ⟨m, h⟩ := s.putCells_mem_only cs; rw [h]
@[simp] theorem State.putCells_wfe (s : State) (cs : List (Nat × Byte)) : (s.putCells cs).wfe = s.wfe := by
  obtain ⟨m, h⟩ := s.putCells_mem_only cs; rw [h]
@[simp] theorem State.putCells_devHeld (s : State) (cs : List (Nat × Byte)) : (s.putCells cs).devHeld = s.devHeld := by
  obtain ⟨m, h⟩ := s.putCells_mem_only cs; rw [h]
@[simp] theorem State.putCells_ports (s : State) (cs : List (Nat × Byte)) : (s.putCells cs).ports = s.ports := by
  obtain ⟨m, h⟩ := s.putCells_mem_only cs; rw [h]
@[simp] theorem State.putCells_posTab (s : State) (cs : List (Nat × Byte)) : (s.putCells cs).posTab = s.posTab := by
  obtain ⟨m, h⟩ := s.putCells_mem_only cs; rw [h]
@[simp] theorem State.putCells_slotNo (s : State) (cs : List (Nat × Byte)) : (s.putCells cs).slotNo = s.slotNo := by
  obtain ⟨m, h⟩ := s.putCells_mem_only cs; rw [h]
@[simp] theorem State.putCells_slotAt (s : State) (cs : List (Nat × Byte)) : (s.putCells cs).slotAt = s.slotAt := by
  obtain ⟨m, h⟩ := s.putCells_mem_only cs; rw [h]
@[simp] theorem State.putCells_tsok (s : State) (cs : List (Nat × Byte)) : (s.putCells cs).tsok = s.tsok := by
  obtain ⟨m, h⟩ := s.putCells_mem_only cs; rw [h]
@[simp] theorem State.putCells_tsLast (s : State) (cs : List (Nat × Byte)) : (s.putCells cs).tsLast = s.tsLast := by
  obtain ⟨m, h⟩ := s.putCells_mem_only cs; rw [h]
@[simp] theorem State.putCells_trim (s : State) (cs : List (Nat × Byte)) : (s.putCells cs).trim = s.trim := by
  obtain ⟨m, h⟩ := s.putCells_mem_only cs; rw [h]
@[simp] theorem State.putCells_gtsFrac (s : State) (cs : List (Nat × Byte)) : (s.putCells cs).gtsFrac = s.gtsFrac := by
  obtain ⟨m, h⟩ := s.putCells_mem_only cs; rw [h]
@[simp] theorem State.putCells_root (s : State) (cs : List (Nat × Byte)) : (s.putCells cs).root = s.root := by
  obtain ⟨m, h⟩ := s.putCells_mem_only cs; rw [h]
@[simp] theorem State.putCells_adverts (s : State) (cs : List (Nat × Byte)) : (s.putCells cs).adverts = s.adverts := by
  obtain ⟨m, h⟩ := s.putCells_mem_only cs; rw [h]
@[simp] theorem State.putCells_seqs (s : State) (cs : List (Nat × Byte)) : (s.putCells cs).seqs = s.seqs := by
  obtain ⟨m, h⟩ := s.putCells_mem_only cs; rw [h]
@[simp] theorem State.putCells_oreqs (s : State) (cs : List (Nat × Byte)) : (s.putCells cs).oreqs = s.oreqs := by
  obtain ⟨m, h⟩ := s.putCells_mem_only cs; rw [h]
@[simp] theorem State.putCells_dedup (s : State) (cs : List (Nat × Byte)) : (s.putCells cs).dedup = s.dedup := by
  obtain ⟨m, h⟩ := s.putCells_mem_only cs; rw [h]
@[simp] theorem State.putCells_rcache (s : State) (cs : List (Nat × Byte)) : (s.putCells cs).rcache = s.rcache := by
  obtain ⟨m, h⟩ := s.putCells_mem_only cs; rw [h]
@[simp] theorem State.putCells_txq (s : State) (cs : List (Nat × Byte)) : (s.putCells cs).txq = s.txq := by
  obtain ⟨m, h⟩ := s.putCells_mem_only cs; rw [h]
@[simp] theorem State.putCells_relay (s : State) (cs : List (Nat × Byte)) : (s.putCells cs).relay = s.relay := by
  obtain ⟨m, h⟩ := s.putCells_mem_only cs; rw [h]
@[simp] theorem State.putCells_combs (s : State) (cs : List (Nat × Byte)) : (s.putCells cs).combs = s.combs := by
  obtain ⟨m, h⟩ := s.putCells_mem_only cs; rw [h]
@[simp] theorem State.putCells_destSeen (s : State) (cs : List (Nat × Byte)) : (s.putCells cs).destSeen = s.destSeen := by
  obtain ⟨m, h⟩ := s.putCells_mem_only cs; rw [h]
@[simp] theorem State.putCells_ueOps (s : State) (cs : List (Nat × Byte)) : (s.putCells cs).ueOps = s.ueOps := by
  obtain ⟨m, h⟩ := s.putCells_mem_only cs; rw [h]
@[simp] theorem State.putCells_recvs (s : State) (cs : List (Nat × Byte)) : (s.putCells cs).recvs = s.recvs := by
  obtain ⟨m, h⟩ := s.putCells_mem_only cs; rw [h]
@[simp] theorem State.putCells_uePorts (s : State) (cs : List (Nat × Byte)) : (s.putCells cs).uePorts = s.uePorts := by
  obtain ⟨m, h⟩ := s.putCells_mem_only cs; rw [h]
@[simp] theorem State.putCells_ueq (s : State) (cs : List (Nat × Byte)) : (s.putCells cs).ueq = s.ueq := by
  obtain ⟨m, h⟩ := s.putCells_mem_only cs; rw [h]
@[simp] theorem State.putCells_out (s : State) (cs : List (Nat × Byte)) : (s.putCells cs).out = s.out := by
  obtain ⟨m, h⟩ := s.putCells_mem_only cs; rw [h]
@[simp] theorem State.putCells_pstate (s : State) (cs : List (Nat × Byte)) : (s.putCells cs).pstate = s.pstate := by
  obtain ⟨m, h⟩ := s.putCells_mem_only cs; rw [h]
@[simp] theorem State.putCells_islands (s : State) (cs : List (Nat × Byte)) : (s.putCells cs).islands = s.islands := by
  obtain ⟨m, h⟩ := s.putCells_mem_only cs; rw [h]
@[simp] theorem State.putCells_conf (s : State) (cs : List (Nat × Byte)) : (s.putCells cs).conf = s.conf := by
  obtain ⟨m, h⟩ := s.putCells_mem_only cs; rw [h]
@[simp] theorem State.putCells_gts (s : State) (cs : List (Nat × Byte)) : (s.putCells cs).gts = s.gts := by
  obtain ⟨m, h⟩ := s.putCells_mem_only cs; rw [h]
@[simp] theorem State.putCells_cycle (s : State) (cs : List (Nat × Byte)) : (s.putCells cs).cycle = s.cycle := by
  obtain ⟨m, h⟩ := s.putCells_mem_only cs; rw [h]
@[simp] theorem State.putCells_freeCtr (s : State) (cs : List (Nat × Byte)) : (s.putCells cs).freeCtr = s.freeCtr := by
  obtain ⟨m, h⟩ := s.putCells_mem_only cs; rw [h]
@[simp] theorem State.putCells_cur (s : State) (cs : List (Nat × Byte)) : (s.putCells cs).cur = s.cur := by
  obtain ⟨m, h⟩ := s.putCells_mem_only cs; rw [h]
@[simp] theorem State.putCells_curEng (s : State) (cs : List (Nat × Byte)) : (s.putCells cs).curEng = s.curEng := by
  obtain ⟨m, h⟩ := s.putCells_mem_only cs; rw [h]
@[simp] theorem State.putCells_curQ (s : State) (cs : List (Nat × Byte)) : (s.putCells cs).curQ = s.curQ := by
  obtain ⟨m, h⟩ := s.putCells_mem_only cs; rw [h]
@[simp] theorem State.putCells_sched (s : State) (cs : List (Nat × Byte)) : (s.putCells cs).sched = s.sched := by
  obtain ⟨m, h⟩ := s.putCells_mem_only cs; rw [h]

/-! ### Reads of a part after a write of one -/

@[simp] theorem State.core_setCore_self (s : State) (n : Nat) (c : Core) : (s.setCore n c).core n = c := SMap.get_set_self ..
theorem State.core_setCore_ne (s : State) {n m : Nat} (c : Core) (h : m ≠ n) : (s.setCore n c).core m = s.core m := SMap.get_set_ne _ _ _ h
@[simp] theorem State.core_modCore_self (s : State) (n : Nat) (f : Core → Core) : (s.modCore n f).core n = f (s.core n) := SMap.get_set_self ..
/-- Two changes of one core are one. -/
theorem State.modCore_modCore (s : State) (n : Nat) (f g : Core → Core) : (s.modCore n f).modCore n g = s.modCore n fun c => g (f c) := by
  unfold State.modCore State.setCore State.core
  simp only [SMap.get_set_self, SMap.set_set]
theorem State.core_modCore_ne (s : State) {n m : Nat} (f : Core → Core) (h : m ≠ n) : (s.modCore n f).core m = s.core m := SMap.get_set_ne _ _ _ h
@[simp] theorem State.me_modCore_cur (s : State) (f : Core → Core) : (s.modCore s.cur f).me = f s.me := SMap.get_set_self ..
theorem State.core_modCore (s : State) (n m : Nat) (f : Core → Core) : (s.modCore n f).core m = if m = n then f (s.core m) else s.core m := by
  split
  · rename_i h; subst h; simp
  · rename_i h; exact s.core_modCore_ne f h
@[simp] theorem State.ctx_setCtx_self (s : State) (cid : BitVec 12) (c : Ctx) : (s.setCtx cid c).ctx cid = c := SMap.get_set_self ..
theorem State.ctx_setCtx_ne (s : State) {a b : BitVec 12} (c : Ctx) (h : b ≠ a) : (s.setCtx a c).ctx b = s.ctx b :=
  SMap.get_set_ne _ _ _ fun e => h (BitVec.eq_of_toNat_eq e)
@[simp] theorem State.ctx_modCtx_self (s : State) (cid : BitVec 12) (f : Ctx → Ctx) : (s.modCtx cid f).ctx cid = f (s.ctx cid) := SMap.get_set_self ..
@[simp] theorem State.part_setPart_self (s : State) (pid : BitVec 7) (p : Part) : (s.setPart pid p).part pid = p := SMap.get_set_self ..
theorem State.part_setPart_ne (s : State) {a b : BitVec 7} (p : Part) (h : b ≠ a) : (s.setPart a p).part b = s.part b :=
  SMap.get_set_ne _ _ _ fun e => h (BitVec.eq_of_toNat_eq e)
@[simp] theorem State.part_modPart_self (s : State) (pid : BitVec 7) (f : Part → Part) : (s.modPart pid f).part pid = f (s.part pid) := SMap.get_set_self ..
@[simp] theorem State.phaser_setPhaser_self (s : State) (n : BitVec 12) (p : Phaser) : (s.setPhaser n p).phaser n = p := SMap.get_set_self ..
@[simp] theorem State.byte_setByte_self (s : State) (k : Nat) (v : Byte) : (s.setByte k v).byte k = v := SMap.get_set_self ..
theorem State.byte_setByte_ne (s : State) {k j : Nat} (v : Byte) (h : j ≠ k) : (s.setByte k v).byte j = s.byte j := SMap.get_set_ne _ _ _ h
/-- Parts that an update of a core, a context or a byte does not reach. -/
@[simp] theorem State.ctx_setCore (s : State) (n : Nat) (c : Core) (cid : BitVec 12) : (s.setCore n c).ctx cid = s.ctx cid := rfl
@[simp] theorem State.ctx_modCore (s : State) (n : Nat) (f : Core → Core) (cid : BitVec 12) : (s.modCore n f).ctx cid = s.ctx cid := rfl
@[simp] theorem State.byte_setCore (s : State) (n : Nat) (c : Core) (k : Nat) : (s.setCore n c).byte k = s.byte k := rfl
@[simp] theorem State.byte_modCore (s : State) (n : Nat) (f : Core → Core) (k : Nat) : (s.modCore n f).byte k = s.byte k := rfl
@[simp] theorem State.part_modCore (s : State) (n : Nat) (f : Core → Core) (pid : BitVec 7) : (s.modCore n f).part pid = s.part pid := rfl
@[simp] theorem State.core_setCtx (s : State) (cid : BitVec 12) (c : Ctx) (n : Nat) : (s.setCtx cid c).core n = s.core n := rfl
@[simp] theorem State.core_modCtx (s : State) (cid : BitVec 12) (f : Ctx → Ctx) (n : Nat) : (s.modCtx cid f).core n = s.core n := rfl
@[simp] theorem State.core_modPart (s : State) (pid : BitVec 7) (f : Part → Part) (n : Nat) : (s.modPart pid f).core n = s.core n := rfl
@[simp] theorem State.core_setByte (s : State) (k : Nat) (v : Byte) (n : Nat) : (s.setByte k v).core n = s.core n := rfl
/-- A read outside the bytes written gives what it gave. -/
theorem State.byte_putBytes_out (s : State) (k : Nat) (bs : List Byte) (j : Nat) (h : j < k ∨ k + bs.length ≤ j) :
    (s.putBytes k bs).byte j = s.byte j := by
  induction bs generalizing s k with
  | nil => rfl
  | cons b t ih =>
    simp only [List.length_cons] at h
    have hne : j ≠ k := by omega
    show ((s.setByte k b).putBytes (k + 1) t).byte j = s.byte j
    rw [ih (s.setByte k b) (k + 1) (by omega), s.byte_setByte_ne b hne]
/-- The bytes written read back. -/
theorem State.byte_putBytes_in (s : State) (k : Nat) (bs : List Byte) (i : Nat) (h : i < bs.length) :
    (s.putBytes k bs).byte (k + i) = bs[i] := by
  induction bs generalizing s k i with
  | nil => simp at h
  | cons b t ih =>
    show ((s.setByte k b).putBytes (k + 1) t).byte (k + i) = _
    cases i with
    | zero => rw [State.byte_putBytes_out _ _ _ _ (by omega)]; simp
    | succ i => rw [show k + (i + 1) = k + 1 + i by omega, ih (s.setByte k b) (k + 1) i (by simpa using h)]; rfl

/-! ### Memory keeps its canonical form -/

theorem State.setByte_wf (s : State) (k : Nat) (v : Byte) (h : Memory.wf s.mem = true) : Memory.wf (s.setByte k v).mem = true := SMap.wf_set _ _ _ _ h
theorem State.putBytes_wf (s : State) (k : Nat) (bs : List Byte) (h : Memory.wf s.mem = true) : Memory.wf (s.putBytes k bs).mem = true := by
  induction bs generalizing s k with
  | nil => exact h
  | cons b t ih => exact ih _ _ (s.setByte_wf k b h)
theorem State.putCells_wf (s : State) (cs : List (Nat × Byte)) (h : Memory.wf s.mem = true) : Memory.wf (s.putCells cs).mem = true := by
  induction cs generalizing s with
  | nil => exact h
  | cons c t ih => exact ih _ (s.setByte_wf c.1 c.2 h)
theorem State.putNum_wf (s : State) (k n v : Nat) (h : Memory.wf s.mem = true) : Memory.wf (s.putNum k n v).mem = true := s.putBytes_wf _ _ h
theorem State.reset_wf : Memory.wf State.reset.mem = true := rfl

/-! ### Engines of a core -/

@[simp] theorem Core.eng_setEng_self (c : Core) (e : Eng) (x : EngSt) : (c.setEng e x).eng e = x := by cases e <;> rfl
theorem Core.eng_setEng_ne (c : Core) {e f : Eng} (x : EngSt) (h : f ≠ e) : (c.setEng e x).eng f = c.eng f := by
  cases e <;> cases f <;> first | rfl | exact absurd rfl h
@[simp] theorem Core.setEng_task (c : Core) (e : Eng) (x : EngSt) : (c.setEng e x).task = c.task := by cases e <;> rfl
@[simp] theorem Core.modEng_task (c : Core) (e : Eng) (x : EngSt → EngSt) : (c.modEng e x).task = c.task := by cases e <;> rfl
@[simp] theorem Core.setEng_pc (c : Core) (e : Eng) (x : EngSt) : (c.setEng e x).pc = c.pc := by cases e <;> rfl
@[simp] theorem Core.modEng_pc (c : Core) (e : Eng) (x : EngSt → EngSt) : (c.modEng e x).pc = c.pc := by cases e <;> rfl
@[simp] theorem Core.setEng_s (c : Core) (e : Eng) (x : EngSt) : (c.setEng e x).s = c.s := by cases e <;> rfl
@[simp] theorem Core.modEng_s (c : Core) (e : Eng) (x : EngSt → EngSt) : (c.modEng e x).s = c.s := by cases e <;> rfl
@[simp] theorem Core.setEng_deadS (c : Core) (e : Eng) (x : EngSt) : (c.setEng e x).deadS = c.deadS := by cases e <;> rfl
@[simp] theorem Core.modEng_deadS (c : Core) (e : Eng) (x : EngSt → EngSt) : (c.modEng e x).deadS = c.deadS := by cases e <;> rfl
@[simp] theorem Core.setEng_fetched (c : Core) (e : Eng) (x : EngSt) : (c.setEng e x).fetched = c.fetched := by cases e <;> rfl
@[simp] theorem Core.modEng_fetched (c : Core) (e : Eng) (x : EngSt → EngSt) : (c.modEng e x).fetched = c.fetched := by cases e <;> rfl
@[simp] theorem Core.setEng_ccWait (c : Core) (e : Eng) (x : EngSt) : (c.setEng e x).ccWait = c.ccWait := by cases e <;> rfl
@[simp] theorem Core.modEng_ccWait (c : Core) (e : Eng) (x : EngSt → EngSt) : (c.modEng e x).ccWait = c.ccWait := by cases e <;> rfl
@[simp] theorem Core.setEng_savedWait (c : Core) (e : Eng) (x : EngSt) : (c.setEng e x).savedWait = c.savedWait := by cases e <;> rfl
@[simp] theorem Core.modEng_savedWait (c : Core) (e : Eng) (x : EngSt → EngSt) : (c.modEng e x).savedWait = c.savedWait := by cases e <;> rfl
@[simp] theorem Core.setEng_resumeAt (c : Core) (e : Eng) (x : EngSt) : (c.setEng e x).resumeAt = c.resumeAt := by cases e <;> rfl
@[simp] theorem Core.modEng_resumeAt (c : Core) (e : Eng) (x : EngSt → EngSt) : (c.modEng e x).resumeAt = c.resumeAt := by cases e <;> rfl
@[simp] theorem Core.setEng_spad (c : Core) (e : Eng) (x : EngSt) : (c.setEng e x).spad = c.spad := by cases e <;> rfl
@[simp] theorem Core.modEng_spad (c : Core) (e : Eng) (x : EngSt → EngSt) : (c.modEng e x).spad = c.spad := by cases e <;> rfl
@[simp] theorem Core.setEng_pendBits (c : Core) (e : Eng) (x : EngSt) : (c.setEng e x).pendBits = c.pendBits := by cases e <;> rfl
@[simp] theorem Core.modEng_pendBits (c : Core) (e : Eng) (x : EngSt → EngSt) : (c.modEng e x).pendBits = c.pendBits := by cases e <;> rfl
@[simp] theorem Core.setEng_tok (c : Core) (e : Eng) (x : EngSt) : (c.setEng e x).tok = c.tok := by cases e <;> rfl
@[simp] theorem Core.modEng_tok (c : Core) (e : Eng) (x : EngSt → EngSt) : (c.modEng e x).tok = c.tok := by cases e <;> rfl
@[simp] theorem Core.setEng_wset (c : Core) (e : Eng) (x : EngSt) : (c.setEng e x).wset = c.wset := by cases e <;> rfl
@[simp] theorem Core.modEng_wset (c : Core) (e : Eng) (x : EngSt → EngSt) : (c.modEng e x).wset = c.wset := by cases e <;> rfl
@[simp] theorem Core.setEng_g (c : Core) (e : Eng) (x : EngSt) : (c.setEng e x).g = c.g := by cases e <;> rfl
@[simp] theorem Core.modEng_g (c : Core) (e : Eng) (x : EngSt → EngSt) : (c.modEng e x).g = c.g := by cases e <;> rfl
@[simp] theorem Core.setEng_deadG (c : Core) (e : Eng) (x : EngSt) : (c.setEng e x).deadG = c.deadG := by cases e <;> rfl
@[simp] theorem Core.modEng_deadG (c : Core) (e : Eng) (x : EngSt → EngSt) : (c.modEng e x).deadG = c.deadG := by cases e <;> rfl
@[simp] theorem Core.setEng_gAvail (c : Core) (e : Eng) (x : EngSt) : (c.setEng e x).gAvail = c.gAvail := by cases e <;> rfl
@[simp] theorem Core.modEng_gAvail (c : Core) (e : Eng) (x : EngSt → EngSt) : (c.modEng e x).gAvail = c.gAvail := by cases e <;> rfl
@[simp] theorem Core.setEng_gWait (c : Core) (e : Eng) (x : EngSt) : (c.setEng e x).gWait = c.gWait := by cases e <;> rfl
@[simp] theorem Core.modEng_gWait (c : Core) (e : Eng) (x : EngSt → EngSt) : (c.modEng e x).gWait = c.gWait := by cases e <;> rfl
@[simp] theorem Core.setEng_landQ (c : Core) (e : Eng) (x : EngSt) : (c.setEng e x).landQ = c.landQ := by cases e <;> rfl
@[simp] theorem Core.modEng_landQ (c : Core) (e : Eng) (x : EngSt → EngSt) : (c.modEng e x).landQ = c.landQ := by cases e <;> rfl
@[simp] theorem Core.setEng_accFlight (c : Core) (e : Eng) (x : EngSt) : (c.setEng e x).accFlight = c.accFlight := by cases e <;> rfl
@[simp] theorem Core.modEng_accFlight (c : Core) (e : Eng) (x : EngSt → EngSt) : (c.modEng e x).accFlight = c.accFlight := by cases e <;> rfl
@[simp] theorem Core.setEng_exeAvail (c : Core) (e : Eng) (x : EngSt) : (c.setEng e x).exeAvail = c.exeAvail := by cases e <;> rfl
@[simp] theorem Core.modEng_exeAvail (c : Core) (e : Eng) (x : EngSt → EngSt) : (c.modEng e x).exeAvail = c.exeAvail := by cases e <;> rfl
@[simp] theorem Core.setEng_v (c : Core) (e : Eng) (x : EngSt) : (c.setEng e x).v = c.v := by cases e <;> rfl
@[simp] theorem Core.modEng_v (c : Core) (e : Eng) (x : EngSt → EngSt) : (c.modEng e x).v = c.v := by cases e <;> rfl
@[simp] theorem Core.setEng_deadV (c : Core) (e : Eng) (x : EngSt) : (c.setEng e x).deadV = c.deadV := by cases e <;> rfl
@[simp] theorem Core.modEng_deadV (c : Core) (e : Eng) (x : EngSt → EngSt) : (c.modEng e x).deadV = c.deadV := by cases e <;> rfl
@[simp] theorem Core.setEng_p (c : Core) (e : Eng) (x : EngSt) : (c.setEng e x).p = c.p := by cases e <;> rfl
@[simp] theorem Core.modEng_p (c : Core) (e : Eng) (x : EngSt → EngSt) : (c.modEng e x).p = c.p := by cases e <;> rfl
@[simp] theorem Core.setEng_q (c : Core) (e : Eng) (x : EngSt) : (c.setEng e x).q = c.q := by cases e <;> rfl
@[simp] theorem Core.modEng_q (c : Core) (e : Eng) (x : EngSt → EngSt) : (c.modEng e x).q = c.q := by cases e <;> rfl
@[simp] theorem Core.setEng_deadQ (c : Core) (e : Eng) (x : EngSt) : (c.setEng e x).deadQ = c.deadQ := by cases e <;> rfl
@[simp] theorem Core.modEng_deadQ (c : Core) (e : Eng) (x : EngSt → EngSt) : (c.modEng e x).deadQ = c.deadQ := by cases e <;> rfl
@[simp] theorem Core.setEng_qtemp (c : Core) (e : Eng) (x : EngSt) : (c.setEng e x).qtemp = c.qtemp := by cases e <;> rfl
@[simp] theorem Core.modEng_qtemp (c : Core) (e : Eng) (x : EngSt → EngSt) : (c.modEng e x).qtemp = c.qtemp := by cases e <;> rfl
@[simp] theorem Core.setEng_seed (c : Core) (e : Eng) (x : EngSt) : (c.setEng e x).seed = c.seed := by cases e <;> rfl
@[simp] theorem Core.modEng_seed (c : Core) (e : Eng) (x : EngSt → EngSt) : (c.modEng e x).seed = c.seed := by cases e <;> rfl
@[simp] theorem Core.setEng_lastPop (c : Core) (e : Eng) (x : EngSt) : (c.setEng e x).lastPop = c.lastPop := by cases e <;> rfl
@[simp] theorem Core.modEng_lastPop (c : Core) (e : Eng) (x : EngSt → EngSt) : (c.modEng e x).lastPop = c.lastPop := by cases e <;> rfl
@[simp] theorem Core.setEng_dq (c : Core) (e : Eng) (x : EngSt) : (c.setEng e x).dq = c.dq := by cases e <;> rfl
@[simp] theorem Core.modEng_dq (c : Core) (e : Eng) (x : EngSt → EngSt) : (c.modEng e x).dq = c.dq := by cases e <;> rfl
@[simp] theorem Core.setEng_sq (c : Core) (e : Eng) (x : EngSt) : (c.setEng e x).sq = c.sq := by cases e <;> rfl
@[simp] theorem Core.modEng_sq (c : Core) (e : Eng) (x : EngSt → EngSt) : (c.modEng e x).sq = c.sq := by cases e <;> rfl
@[simp] theorem Core.setEng_boqA (c : Core) (e : Eng) (x : EngSt) : (c.setEng e x).boqA = c.boqA := by cases e <;> rfl
@[simp] theorem Core.modEng_boqA (c : Core) (e : Eng) (x : EngSt → EngSt) : (c.modEng e x).boqA = c.boqA := by cases e <;> rfl
@[simp] theorem Core.setEng_boqX (c : Core) (e : Eng) (x : EngSt) : (c.setEng e x).boqX = c.boqX := by cases e <;> rfl
@[simp] theorem Core.modEng_boqX (c : Core) (e : Eng) (x : EngSt → EngSt) : (c.modEng e x).boqX = c.boqX := by cases e <;> rfl
@[simp] theorem Core.setEng_exeQ (c : Core) (e : Eng) (x : EngSt) : (c.setEng e x).exeQ = c.exeQ := by cases e <;> rfl
@[simp] theorem Core.modEng_exeQ (c : Core) (e : Eng) (x : EngSt → EngSt) : (c.modEng e x).exeQ = c.exeQ := by cases e <;> rfl
@[simp] theorem Core.setEng_defHead (c : Core) (e : Eng) (x : EngSt) : (c.setEng e x).defHead = c.defHead := by cases e <;> rfl
@[simp] theorem Core.modEng_defHead (c : Core) (e : Eng) (x : EngSt → EngSt) : (c.modEng e x).defHead = c.defHead := by cases e <;> rfl
@[simp] theorem Core.setEng_defTail (c : Core) (e : Eng) (x : EngSt) : (c.setEng e x).defTail = c.defTail := by cases e <;> rfl
@[simp] theorem Core.modEng_defTail (c : Core) (e : Eng) (x : EngSt → EngSt) : (c.modEng e x).defTail = c.defTail := by cases e <;> rfl
@[simp] theorem Core.setEng_cbs (c : Core) (e : Eng) (x : EngSt) : (c.setEng e x).cbs = c.cbs := by cases e <;> rfl
@[simp] theorem Core.modEng_cbs (c : Core) (e : Eng) (x : EngSt → EngSt) : (c.modEng e x).cbs = c.cbs := by cases e <;> rfl
@[simp] theorem Core.setEng_peel (c : Core) (e : Eng) (x : EngSt) : (c.setEng e x).peel = c.peel := by cases e <;> rfl
@[simp] theorem Core.modEng_peel (c : Core) (e : Eng) (x : EngSt → EngSt) : (c.modEng e x).peel = c.peel := by cases e <;> rfl
@[simp] theorem Core.setEng_hold (c : Core) (e : Eng) (x : EngSt) : (c.setEng e x).hold = c.hold := by cases e <;> rfl
@[simp] theorem Core.modEng_hold (c : Core) (e : Eng) (x : EngSt → EngSt) : (c.modEng e x).hold = c.hold := by cases e <;> rfl
@[simp] theorem Core.setEng_mx (c : Core) (e : Eng) (x : EngSt) : (c.setEng e x).mx = c.mx := by cases e <;> rfl
@[simp] theorem Core.modEng_mx (c : Core) (e : Eng) (x : EngSt → EngSt) : (c.modEng e x).mx = c.mx := by cases e <;> rfl
@[simp] theorem Core.setEng_cslot (c : Core) (e : Eng) (x : EngSt) : (c.setEng e x).cslot = c.cslot := by cases e <;> rfl
@[simp] theorem Core.modEng_cslot (c : Core) (e : Eng) (x : EngSt → EngSt) : (c.modEng e x).cslot = c.cslot := by cases e <;> rfl
@[simp] theorem Core.setEng_cpyQ (c : Core) (e : Eng) (x : EngSt) : (c.setEng e x).cpyQ = c.cpyQ := by cases e <;> rfl
@[simp] theorem Core.modEng_cpyQ (c : Core) (e : Eng) (x : EngSt → EngSt) : (c.modEng e x).cpyQ = c.cpyQ := by cases e <;> rfl
@[simp] theorem Core.setEng_waitQ (c : Core) (e : Eng) (x : EngSt) : (c.setEng e x).waitQ = c.waitQ := by cases e <;> rfl
@[simp] theorem Core.modEng_waitQ (c : Core) (e : Eng) (x : EngSt → EngSt) : (c.modEng e x).waitQ = c.waitQ := by cases e <;> rfl
@[simp] theorem Core.setEng_nctr (c : Core) (e : Eng) (x : EngSt) : (c.setEng e x).nctr = c.nctr := by cases e <;> rfl
@[simp] theorem Core.modEng_nctr (c : Core) (e : Eng) (x : EngSt → EngSt) : (c.modEng e x).nctr = c.nctr := by cases e <;> rfl
@[simp] theorem Core.setEng_flags (c : Core) (e : Eng) (x : EngSt) : (c.setEng e x).flags = c.flags := by cases e <;> rfl
@[simp] theorem Core.modEng_flags (c : Core) (e : Eng) (x : EngSt → EngSt) : (c.modEng e x).flags = c.flags := by cases e <;> rfl
@[simp] theorem Core.setEng_tvec (c : Core) (e : Eng) (x : EngSt) : (c.setEng e x).tvec = c.tvec := by cases e <;> rfl
@[simp] theorem Core.modEng_tvec (c : Core) (e : Eng) (x : EngSt → EngSt) : (c.modEng e x).tvec = c.tvec := by cases e <;> rfl
@[simp] theorem Core.setEng_tcause (c : Core) (e : Eng) (x : EngSt) : (c.setEng e x).tcause = c.tcause := by cases e <;> rfl
@[simp] theorem Core.modEng_tcause (c : Core) (e : Eng) (x : EngSt → EngSt) : (c.modEng e x).tcause = c.tcause := by cases e <;> rfl
@[simp] theorem Core.setEng_tepc (c : Core) (e : Eng) (x : EngSt) : (c.setEng e x).tepc = c.tepc := by cases e <;> rfl
@[simp] theorem Core.modEng_tepc (c : Core) (e : Eng) (x : EngSt → EngSt) : (c.modEng e x).tepc = c.tepc := by cases e <;> rfl
@[simp] theorem Core.setEng_tval (c : Core) (e : Eng) (x : EngSt) : (c.setEng e x).tval = c.tval := by cases e <;> rfl
@[simp] theorem Core.modEng_tval (c : Core) (e : Eng) (x : EngSt → EngSt) : (c.modEng e x).tval = c.tval := by cases e <;> rfl
@[simp] theorem Core.setEng_trapE (c : Core) (e : Eng) (x : EngSt) : (c.setEng e x).trapE = c.trapE := by cases e <;> rfl
@[simp] theorem Core.modEng_trapE (c : Core) (e : Eng) (x : EngSt → EngSt) : (c.modEng e x).trapE = c.trapE := by cases e <;> rfl
@[simp] theorem Core.setEng_trapBefore (c : Core) (e : Eng) (x : EngSt) : (c.setEng e x).trapBefore = c.trapBefore := by cases e <;> rfl
@[simp] theorem Core.modEng_trapBefore (c : Core) (e : Eng) (x : EngSt → EngSt) : (c.modEng e x).trapBefore = c.trapBefore := by cases e <;> rfl
@[simp] theorem Core.setEng_trapSlot (c : Core) (e : Eng) (x : EngSt) : (c.setEng e x).trapSlot = c.trapSlot := by cases e <;> rfl
@[simp] theorem Core.modEng_trapSlot (c : Core) (e : Eng) (x : EngSt → EngSt) : (c.modEng e x).trapSlot = c.trapSlot := by cases e <;> rfl
@[simp] theorem Core.setEng_trapLast (c : Core) (e : Eng) (x : EngSt) : (c.setEng e x).trapLast = c.trapLast := by cases e <;> rfl
@[simp] theorem Core.modEng_trapLast (c : Core) (e : Eng) (x : EngSt → EngSt) : (c.modEng e x).trapLast = c.trapLast := by cases e <;> rfl
@[simp] theorem Core.setEng_dbgReg (c : Core) (e : Eng) (x : EngSt) : (c.setEng e x).dbgReg = c.dbgReg := by cases e <;> rfl
@[simp] theorem Core.modEng_dbgReg (c : Core) (e : Eng) (x : EngSt → EngSt) : (c.modEng e x).dbgReg = c.dbgReg := by cases e <;> rfl
@[simp] theorem Core.setEng_hangt (c : Core) (e : Eng) (x : EngSt) : (c.setEng e x).hangt = c.hangt := by cases e <;> rfl
@[simp] theorem Core.modEng_hangt (c : Core) (e : Eng) (x : EngSt → EngSt) : (c.modEng e x).hangt = c.hangt := by cases e <;> rfl
@[simp] theorem Core.setEng_idle (c : Core) (e : Eng) (x : EngSt) : (c.setEng e x).idle = c.idle := by cases e <;> rfl
@[simp] theorem Core.modEng_idle (c : Core) (e : Eng) (x : EngSt → EngSt) : (c.modEng e x).idle = c.idle := by cases e <;> rfl
@[simp] theorem Core.setEng_hung (c : Core) (e : Eng) (x : EngSt) : (c.setEng e x).hung = c.hung := by cases e <;> rfl
@[simp] theorem Core.modEng_hung (c : Core) (e : Eng) (x : EngSt → EngSt) : (c.modEng e x).hung = c.hung := by cases e <;> rfl
@[simp] theorem Core.setEng_cutw (c : Core) (e : Eng) (x : EngSt) : (c.setEng e x).cutw = c.cutw := by cases e <;> rfl
@[simp] theorem Core.modEng_cutw (c : Core) (e : Eng) (x : EngSt → EngSt) : (c.modEng e x).cutw = c.cutw := by cases e <;> rfl
@[simp] theorem Core.setEng_stopc (c : Core) (e : Eng) (x : EngSt) : (c.setEng e x).stopc = c.stopc := by cases e <;> rfl
@[simp] theorem Core.modEng_stopc (c : Core) (e : Eng) (x : EngSt → EngSt) : (c.modEng e x).stopc = c.stopc := by cases e <;> rfl
@[simp] theorem Core.setEng_capture (c : Core) (e : Eng) (x : EngSt) : (c.setEng e x).capture = c.capture := by cases e <;> rfl
@[simp] theorem Core.modEng_capture (c : Core) (e : Eng) (x : EngSt → EngSt) : (c.modEng e x).capture = c.capture := by cases e <;> rfl
@[simp] theorem Core.setEng_halted (c : Core) (e : Eng) (x : EngSt) : (c.setEng e x).halted = c.halted := by cases e <;> rfl
@[simp] theorem Core.modEng_halted (c : Core) (e : Eng) (x : EngSt → EngSt) : (c.modEng e x).halted = c.halted := by cases e <;> rfl
@[simp] theorem Core.setEng_icache (c : Core) (e : Eng) (x : EngSt) : (c.setEng e x).icache = c.icache := by cases e <;> rfl
@[simp] theorem Core.modEng_icache (c : Core) (e : Eng) (x : EngSt → EngSt) : (c.modEng e x).icache = c.icache := by cases e <;> rfl
@[simp] theorem Core.setEng_icOwner (c : Core) (e : Eng) (x : EngSt) : (c.setEng e x).icOwner = c.icOwner := by cases e <;> rfl
@[simp] theorem Core.modEng_icOwner (c : Core) (e : Eng) (x : EngSt → EngSt) : (c.modEng e x).icOwner = c.icOwner := by cases e <;> rfl
@[simp] theorem Core.setEng_locks (c : Core) (e : Eng) (x : EngSt) : (c.setEng e x).locks = c.locks := by cases e <;> rfl
@[simp] theorem Core.modEng_locks (c : Core) (e : Eng) (x : EngSt → EngSt) : (c.modEng e x).locks = c.locks := by cases e <;> rfl
@[simp] theorem Core.setEng_ttc (c : Core) (e : Eng) (x : EngSt) : (c.setEng e x).ttc = c.ttc := by cases e <;> rfl
@[simp] theorem Core.modEng_ttc (c : Core) (e : Eng) (x : EngSt → EngSt) : (c.modEng e x).ttc = c.ttc := by cases e <;> rfl
@[simp] theorem Core.setEng_phOwn (c : Core) (e : Eng) (x : EngSt) : (c.setEng e x).phOwn = c.phOwn := by cases e <;> rfl
@[simp] theorem Core.modEng_phOwn (c : Core) (e : Eng) (x : EngSt → EngSt) : (c.modEng e x).phOwn = c.phOwn := by cases e <;> rfl
@[simp] theorem Core.setEng_frels (c : Core) (e : Eng) (x : EngSt) : (c.setEng e x).frels = c.frels := by cases e <;> rfl
@[simp] theorem Core.modEng_frels (c : Core) (e : Eng) (x : EngSt → EngSt) : (c.modEng e x).frels = c.frels := by cases e <;> rfl
@[simp] theorem Core.setEng_bars (c : Core) (e : Eng) (x : EngSt) : (c.setEng e x).bars = c.bars := by cases e <;> rfl
@[simp] theorem Core.modEng_bars (c : Core) (e : Eng) (x : EngSt → EngSt) : (c.modEng e x).bars = c.bars := by cases e <;> rfl
@[simp] theorem Core.setEng_sPend (c : Core) (e : Eng) (x : EngSt) : (c.setEng e x).sPend = c.sPend := by cases e <;> rfl
@[simp] theorem Core.modEng_sPend (c : Core) (e : Eng) (x : EngSt → EngSt) : (c.modEng e x).sPend = c.sPend := by cases e <;> rfl
@[simp] theorem Core.setEng_claims (c : Core) (e : Eng) (x : EngSt) : (c.setEng e x).claims = c.claims := by cases e <;> rfl
@[simp] theorem Core.modEng_claims (c : Core) (e : Eng) (x : EngSt → EngSt) : (c.modEng e x).claims = c.claims := by cases e <;> rfl
@[simp] theorem Core.setEng_spawnSlot (c : Core) (e : Eng) (x : EngSt) : (c.setEng e x).spawnSlot = c.spawnSlot := by cases e <;> rfl
@[simp] theorem Core.setEng_endSnap (c : Core) (e : Eng) (x : EngSt) : (c.setEng e x).endSnap = c.endSnap := by cases e <;> rfl
@[simp] theorem Core.setEng_turn (c : Core) (e : Eng) (x : EngSt) : (c.setEng e x).turn = c.turn := by cases e <;> rfl
@[simp] theorem Core.modEng_spawnSlot (c : Core) (e : Eng) (x : EngSt → EngSt) : (c.modEng e x).spawnSlot = c.spawnSlot := by cases e <;> rfl
@[simp] theorem Core.modEng_endSnap (c : Core) (e : Eng) (x : EngSt → EngSt) : (c.modEng e x).endSnap = c.endSnap := by cases e <;> rfl
@[simp] theorem Core.modEng_turn (c : Core) (e : Eng) (x : EngSt → EngSt) : (c.modEng e x).turn = c.turn := by cases e <;> rfl

end Sys2Proof.Machine
end

