-- ==== Sys2Proof/Laws/Bytes.lean ====
section
/-! SUPPORT. Little-endian numbers and the keys of raw accesses (R7, R194 to R199, R224). -/

set_option Elab.async false

namespace Sys2Proof.Machine

/-- Byte `j` of a little-endian number. -/
theorem leNat_byte (bs : List Byte) (j : Nat) : leNat bs / 2 ^ (8 * j) % 256 = (bs.getD j 0).toNat := by
  induction bs generalizing j with
  | nil => simp [leNat]
  | cons b t ih =>
    have hb := b.isLt
    have hl : leNat (b :: t) = b.toNat + 256 * leNat t := rfl
    cases j with
    | zero => simp [hl]; omega
    | succ j =>
      have := ih j
      rw [show 8 * (j + 1) = 8 + 8 * j by omega, Nat.pow_add, ← Nat.div_div_eq_div_mul, hl,
        show (b.toNat + 256 * leNat t) / 2 ^ 8 = leNat t by omega, this]
      simp
/-- Byte `j` of a word from bytes. -/
theorem bitsOf_byte (bs : List Byte) (j : Nat) (hj : j < 8) : (bitsOf 64 bs).extractLsb' (8 * j) 8 = bs.getD j 0 := by
  apply BitVec.eq_of_toNat_eq
  rw [← leNat_byte, BitVec.extractLsb'_toNat, bitsOf, BitVec.toNat_ofNat, Nat.shiftRight_eq_div_pow]
  obtain ⟨q, hq⟩ : ∃ q, leNat bs = leNat bs % 2 ^ 64 + 2 ^ 64 * q := ⟨leNat bs / 2 ^ 64, by omega⟩
  have h64 : (2 : Nat) ^ 64 = 2 ^ (8 * j) * (256 * 2 ^ (56 - 8 * j)) := by
    rw [show (256 : Nat) = 2 ^ 8 from rfl, ← Nat.pow_add, ← Nat.pow_add]; congr 1; omega
  conv_rhs => rw [hq, h64, Nat.mul_assoc, Nat.add_mul_div_left _ _ (Nat.two_pow_pos _), Nat.mul_assoc, Nat.add_mul_mod_self_left]
  rw [← h64]

theorem State.stage2s_length (s : State) (pid : BitVec 7) (g n : Nat) (ks : List Nat) (h : s.stage2s pid g n = some ks) : ks.length = n := by
  induction n generalizing g ks with
  | zero => simp [State.stage2s] at h; subst h; rfl
  | succ n ih =>
    simp only [State.stage2s, Option.pure_def, Option.bind_eq_bind, Option.bind_eq_some_iff, Option.some.injEq] at h
    obtain ⟨k, -, t, ht, rfl⟩ := h
    rw [List.length_cons, ih _ _ ht]
theorem State.supKeys_length (s : State) (a : Word) (len : Nat) (p : Perm) (ks : List Nat) (h : s.supKeys a len p = .inl ks) : ks.length = len := by
  unfold State.supKeys at h
  dsimp only at h
  repeat' split at h
  all_goals first
    | (cases h; done)
    | (cases h; simp; done)
    | (cases h; exact s.stage2s_length _ _ _ _ ‹_›)
/-- A raw access has one key for each of its bytes. -/
theorem State.coreKeys_length (s : State) (n : Nat) (a : Word) (len : Nat) (p : Perm) (ks : List Nat) (h : s.coreKeys n a len p = .inl ks) :
    ks.length = len := by
  unfold State.coreKeys at h
  split at h
  · split at h
    · rename_i hk; cases h; exact s.supKeys_length _ _ _ _ hk
    · cases h
    · cases h
  · split at h
    · rename_i hk
      cases h
      unfold State.rawKeys at hk
      dsimp only at hk
      split at hk
      · exact s.stage2s_length _ _ _ _ hk
      · cases hk
    · cases h

theorem State.loadBytes_length (s : State) (n : Nat) (a : Word) (ks : List Nat) (i : Nat) : (s.loadBytes n a ks i).length = ks.length := by
  induction ks generalizing i with
  | nil => rfl
  | cons k ks ih => simp [State.loadBytes, ih]
/-- R224: each byte of a load, from the youngest held store to it or from memory. -/
theorem State.loadBytes_get (s : State) (n : Nat) (a : Word) (ks : List Nat) (i j : Nat) (hj : j < ks.length) :
    (s.loadBytes n a ks i).getD j 0 = forwardByte (s.pendingOf n) (a + BitVec.ofNat 64 (i + j)) (s.byte (ks.getD j 0)) := by
  induction ks generalizing i j with
  | nil => simp at hj
  | cons k ks ih =>
    cases j with
    | zero => simp [State.loadBytes]
    | succ j => simpa [State.loadBytes, Nat.add_assoc, Nat.add_comm 1 j] using ih (i + 1) j (by simpa using hj)

end Sys2Proof.Machine
end

