-- ==== Sys2Proof/Laws/Encode.lean ====
section
/-! SUPPORT. The fields of a packed word read back: what the formats of Table 13.1 lay out, the readers of the decoder take out again. -/

set_option Elab.async false

namespace Sys2Proof.Laws

/-- A field that lies in the low part of a concatenation. -/
theorem field_low {a b : Nat} (x : BitVec a) (y : BitVec b) (k n : Nat) (h : k + n ≤ b) :
    (x ++ y).extractLsb' k n = y.extractLsb' k n := by
  rw [BitVec.extractLsb'_append_eq_of_add_le h]

/-- A field that lies in the high part of a concatenation. -/
theorem field_high {a b : Nat} (x : BitVec a) (y : BitVec b) (k n : Nat) (h : b ≤ k) :
    (x ++ y).extractLsb' k n = x.extractLsb' (k - b) n := by
  rw [BitVec.extractLsb'_append_eq_of_le h]

/-- A field that is the whole of a vector. -/
theorem field_all {a : Nat} (x : BitVec a) : x.extractLsb' 0 a = x := by simp

theorem bit_low {a b : Nat} (x : BitVec a) (y : BitVec b) (k : Nat) (h : k < b) : (x ++ y).getLsbD k = y.getLsbD k := by
  simp [BitVec.getLsbD_append, h]
theorem bit_high {a b : Nat} (x : BitVec a) (y : BitVec b) (k : Nat) (h : b ≤ k) : (x ++ y).getLsbD k = x.getLsbD (k - b) := by
  simp [BitVec.getLsbD_append, Nat.not_lt.mpr h]
theorem bit_flag (b : Bool) : (BitVec.ofBool b).getLsbD 0 = b := by simp

section
variable (h : Hdr) (opc : BitVec 7) (body : BitVec 40)

@[simp] theorem opcOf_packWord : opcOf (packWord h opc body) = opc := by
  unfold opcOf packWord
  rw [field_high _ _ _ _ (by decide), field_low _ _ _ _ (by decide), field_all]
@[simp] theorem hdrOf_packWord : hdrOf (packWord h opc body) = h := by
  unfold hdrOf packWord
  congr 1
  · rw [field_high _ _ _ _ (by decide), field_high _ _ _ _ (by decide), field_high _ _ _ _ (by decide),
      field_high _ _ _ _ (by decide)]; simp
  · rw [field_high _ _ _ _ (by decide), field_high _ _ _ _ (by decide), field_high _ _ _ _ (by decide), field_low _ _ _ _ (by decide)]; simp
@[simp] theorem bit47_packWord : (packWord h opc body).getLsbD 47 = false := by
  unfold packWord
  rw [bit_high _ _ _ (by decide), bit_high _ _ _ (by decide), bit_low _ _ _ (by decide)]; simp
/-- A field of the body is the same field of the word. -/
theorem body_packWord (k n : Nat) (hk : k + n ≤ 40) : (packWord h opc body).extractLsb' k n = body.extractLsb' k n := by
  unfold packWord; exact field_low _ _ _ _ hk
theorem bodyBit_packWord (k : Nat) (hk : k < 40) : (packWord h opc body).getLsbD k = body.getLsbD k := by
  unfold packWord; exact bit_low _ _ _ hk
end

section
variable (h : Hdr) (opc : BitVec 7) (fn : BitVec 5) (o : RR)
@[simp] theorem opcOf_packRR : opcOf (packRR h opc fn o) = opc := opcOf_packWord ..
@[simp] theorem hdrOf_packRR : hdrOf (packRR h opc fn o) = h := hdrOf_packWord ..
@[simp] theorem bit47_packRR : (packRR h opc fn o).getLsbD 47 = false := bit47_packWord ..
@[simp] theorem fn_packRR : (packRR h opc fn o).extractLsb' 8 5 = fn := by
  simp (disch := decide) only [packRR, body_packWord, field_low, field_high, field_all, Nat.reduceSub]
@[simp] theorem unpackRR_packRR : unpackRR (packRR h opc fn o) = o := by
  simp (disch := decide) only [unpackRR, packRR, body_packWord, bodyBit_packWord, field_low, field_high, field_all, bit_low, bit_high, bit_flag, Nat.reduceSub]
end

section
variable (h : Hdr) (opc : BitVec 7) (fn : BitVec 5) (o : RRI)
@[simp] theorem opcOf_packRRI : opcOf (packRRI h opc fn o) = opc := opcOf_packWord ..
@[simp] theorem hdrOf_packRRI : hdrOf (packRRI h opc fn o) = h := hdrOf_packWord ..
@[simp] theorem bit47_packRRI : (packRRI h opc fn o).getLsbD 47 = false := bit47_packWord ..
@[simp] theorem fn_packRRI : (packRRI h opc fn o).extractLsb' 8 5 = fn := by
  simp (disch := decide) only [packRRI, body_packWord, field_low, field_high, field_all, Nat.reduceSub]
@[simp] theorem unpackRRI_packRRI : unpackRRI (packRRI h opc fn o) = o := by
  simp (disch := decide) only [unpackRRI, packRRI, body_packWord, bodyBit_packWord, field_low, field_high, field_all, bit_low, bit_high, bit_flag, Nat.reduceSub]
end

section
variable (h : Hdr) (opc : BitVec 7) (fn : BitVec 3) (o : RI)
@[simp] theorem opcOf_packRI : opcOf (packRI h opc fn o) = opc := opcOf_packWord ..
@[simp] theorem hdrOf_packRI : hdrOf (packRI h opc fn o) = h := hdrOf_packWord ..
@[simp] theorem bit47_packRI : (packRI h opc fn o).getLsbD 47 = false := bit47_packWord ..
@[simp] theorem fn_packRI : (packRI h opc fn o).extractLsb' 24 3 = fn := by
  simp (disch := decide) only [packRI, body_packWord, field_low, field_high, field_all, Nat.reduceSub]
@[simp] theorem unpackRI_packRI : unpackRI (packRI h opc fn o) = o := by
  simp (disch := decide) only [unpackRI, packRI, body_packWord, bodyBit_packWord, field_low, field_high, field_all, bit_low, bit_high, bit_flag, Nat.reduceSub]
end

section
variable (h : Hdr) (opc : BitVec 7) (fn : BitVec 3) (o : BR)
@[simp] theorem opcOf_packBR : opcOf (packBR h opc fn o) = opc := opcOf_packWord ..
@[simp] theorem hdrOf_packBR : hdrOf (packBR h opc fn o) = h := hdrOf_packWord ..
@[simp] theorem bit47_packBR : (packBR h opc fn o).getLsbD 47 = false := bit47_packWord ..
@[simp] theorem fn_packBR : (packBR h opc fn o).extractLsb' 37 3 = fn := by
  simp (disch := decide) only [packBR, body_packWord, field_low, field_high, field_all, Nat.reduceSub]
@[simp] theorem unpackBR_packBR : unpackBR (packBR h opc fn o) = o := by
  simp (disch := decide) only [unpackBR, packBR, body_packWord, bodyBit_packWord, field_low, field_high, field_all, bit_low, bit_high, bit_flag, Nat.reduceSub]
end

section
variable (h : Hdr) (opc : BitVec 7) (fn : BitVec 2) (o : JM)
@[simp] theorem opcOf_packJM : opcOf (packJM h opc fn o) = opc := opcOf_packWord ..
@[simp] theorem hdrOf_packJM : hdrOf (packJM h opc fn o) = h := hdrOf_packWord ..
@[simp] theorem bit47_packJM : (packJM h opc fn o).getLsbD 47 = false := bit47_packWord ..
@[simp] theorem fn_packJM : (packJM h opc fn o).extractLsb' 38 2 = fn := by
  simp (disch := decide) only [packJM, body_packWord, field_low, field_high, field_all, Nat.reduceSub]
@[simp] theorem unpackJM_packJM : unpackJM (packJM h opc fn o) = o := by
  simp (disch := decide) only [unpackJM, packJM, body_packWord, bodyBit_packWord, field_low, field_high, field_all, bit_low, bit_high, bit_flag, Nat.reduceSub]
end

section
variable (h : Hdr) (opc : BitVec 7) (fn : BitVec 5) (o : TN)
@[simp] theorem opcOf_packTN : opcOf (packTN h opc fn o) = opc := opcOf_packWord ..
@[simp] theorem hdrOf_packTN : hdrOf (packTN h opc fn o) = h := hdrOf_packWord ..
@[simp] theorem bit47_packTN : (packTN h opc fn o).getLsbD 47 = false := bit47_packWord ..
@[simp] theorem fn_packTN : (packTN h opc fn o).extractLsb' 12 5 = fn := by
  simp (disch := decide) only [packTN, body_packWord, field_low, field_high, field_all, Nat.reduceSub]
@[simp] theorem unpackTN_packTN : unpackTN (packTN h opc fn o) = o := by
  simp (disch := decide) only [unpackTN, packTN, body_packWord, bodyBit_packWord, field_low, field_high, field_all, bit_low, bit_high, bit_flag, Nat.reduceSub]
end

section
variable (h : Hdr) (opc : BitVec 7) (fn : BitVec 3) (o : MG)
@[simp] theorem opcOf_packMG : opcOf (packMG h opc fn o) = opc := opcOf_packWord ..
@[simp] theorem hdrOf_packMG : hdrOf (packMG h opc fn o) = h := hdrOf_packWord ..
@[simp] theorem bit47_packMG : (packMG h opc fn o).getLsbD 47 = false := bit47_packWord ..
@[simp] theorem fn_packMG : (packMG h opc fn o).extractLsb' 8 3 = fn := by
  simp (disch := decide) only [packMG, body_packWord, field_low, field_high, field_all, Nat.reduceSub]
@[simp] theorem unpackMG_packMG : unpackMG (packMG h opc fn o) = o := by
  simp (disch := decide) only [unpackMG, packMG, body_packWord, bodyBit_packWord, field_low, field_high, field_all, bit_low, bit_high, bit_flag, Nat.reduceSub]
end

section
variable (h : Hdr) (opc : BitVec 7) (fn : BitVec 4) (o : CP)
@[simp] theorem opcOf_packCP : opcOf (packCP h opc fn o) = opc := opcOf_packWord ..
@[simp] theorem hdrOf_packCP : hdrOf (packCP h opc fn o) = h := hdrOf_packWord ..
@[simp] theorem bit47_packCP : (packCP h opc fn o).getLsbD 47 = false := bit47_packWord ..
@[simp] theorem fn_packCP : (packCP h opc fn o).extractLsb' 24 4 = fn := by
  simp (disch := decide) only [packCP, body_packWord, field_low, field_high, field_all, Nat.reduceSub]
@[simp] theorem unpackCP_packCP : unpackCP (packCP h opc fn o) = o := by
  simp (disch := decide) only [unpackCP, packCP, body_packWord, bodyBit_packWord, field_low, field_high, field_all, bit_low, bit_high, bit_flag, Nat.reduceSub]
end

section
variable (h : Hdr) (opc : BitVec 7) (fn : BitVec 4) (o : SY)
@[simp] theorem opcOf_packSY : opcOf (packSY h opc fn o) = opc := opcOf_packWord ..
@[simp] theorem hdrOf_packSY : hdrOf (packSY h opc fn o) = h := hdrOf_packWord ..
@[simp] theorem bit47_packSY : (packSY h opc fn o).getLsbD 47 = false := bit47_packWord ..
@[simp] theorem fn_packSY : (packSY h opc fn o).extractLsb' 12 4 = fn := by
  simp (disch := decide) only [packSY, body_packWord, field_low, field_high, field_all, Nat.reduceSub]
@[simp] theorem unpackSY_packSY : unpackSY (packSY h opc fn o) = o := by
  simp (disch := decide) only [unpackSY, packSY, body_packWord, bodyBit_packWord, field_low, field_high, field_all, bit_low, bit_high, bit_flag, Nat.reduceSub]
end

end Sys2Proof.Laws
end

