-- ==== Sys2Proof/Laws/Issue.lean ====
section
/-! SUPPORT. What issue and retirement of a word do (R164, R170 to R173, R249, R254): one lemma per shared operation. -/

set_option Elab.async false

namespace Sys2Proof.Machine

/-! ### Changes of one core's token counters, peel log and engine records -/

/-- `t` is `s` but for core `n`, of which only token counters, peel log and ELAST of engine `e` may differ, the log by at most `k`
entries, and of the tokens only those named. -/
structure Touch (s t : State) (n : Nat) (e : Eng) (k : Nat) (toks : List Nat) : Prop where
  only : CoreOnly s t n
  core : t.core n = { ((s.core n).modEng e fun x => { x with elast := ((t.core n).eng e).elast }) with tok := (t.core n).tok, peel := (t.core n).peel }
  log : (t.core n).peel.length ≤ (s.core n).peel.length + k
  tokens : ∀ j, j ∉ toks → (t.core n).tok.get {} j = (s.core n).tok.get {} j

@[simp] theorem Core.setEng_eng (c : Core) (e : Eng) : c.setEng e (c.eng e) = c := by cases e <;> rfl
theorem Core.setEng_setEng (c : Core) (e : Eng) (x y : EngSt) : (c.setEng e x).setEng e y = c.setEng e y := by cases e <;> rfl

theorem CoreOnly.refl (s : State) (n : Nat) : CoreOnly s s n := ⟨rfl, fun _ _ => rfl⟩
theorem CoreOnly.trans {s t u : State} {n : Nat} (a : CoreOnly s t n) (b : CoreOnly t u n) : CoreOnly s u n := by
  refine ⟨?_, fun m h => (b.2 m h).trans (a.2 m h)⟩
  rw [b.1, a.1]
theorem CoreOnly.modCore (s : State) (n : Nat) (f : Core → Core) : CoreOnly s (s.modCore n f) n :=
  ⟨rfl, fun _ h => s.core_modCore_ne f h⟩
theorem CoreOnly.setCore (s : State) (n : Nat) (c : Core) : CoreOnly s (s.setCore n c) n :=
  ⟨rfl, fun _ h => s.core_setCore_ne c h⟩
theorem CoreOnly.cur {s t : State} {n : Nat} (a : CoreOnly s t n) : t.cur = s.cur := by rw [a.1]
theorem CoreOnly.byte {s t : State} {n : Nat} (a : CoreOnly s t n) (k : Nat) : t.byte k = s.byte k := by rw [a.1]; rfl
theorem CoreOnly.ctx {s t : State} {n : Nat} (a : CoreOnly s t n) (cid : BitVec 12) : t.ctx cid = s.ctx cid := by rw [a.1]; rfl
theorem CoreOnly.cycle {s t : State} {n : Nat} (a : CoreOnly s t n) : t.cycle = s.cycle := by rw [a.1]
theorem CoreOnly.lines {s t : State} {n : Nat} (a : CoreOnly s t n) (l : List L2Line) (o : List OReq) :
    CoreOnly { s with l2 := l, oreqs := o } { t with l2 := l, oreqs := o } n := ⟨by rw [a.1], a.2⟩
theorem CoreOnly.mem {s t : State} {n : Nat} (a : CoreOnly s t n) : t.mem = s.mem := by rw [a.1]

theorem Touch.refl (s : State) (n : Nat) (e : Eng) : Touch s s n e 0 [] :=
  ⟨.refl s n, by cases e <;> rfl, by simp, fun _ _ => rfl⟩
theorem Touch.trans {s t u : State} {n : Nat} {e : Eng} {k l : Nat} {a b : List Nat} (x : Touch s t n e k a) (y : Touch t u n e l b) :
    Touch s u n e (k + l) (a ++ b) := by
  refine ⟨x.only.trans y.only, ?_, by have := x.log; have := y.log; omega, fun j hj => ?_⟩
  · have h := y.core
    rw [x.core] at h
    rw [h]; cases e <;> rfl
  · rw [y.tokens j (fun h => hj (List.mem_append_right _ h)), x.tokens j (fun h => hj (List.mem_append_left _ h))]
theorem Touch.mono {s t : State} {n : Nat} {e : Eng} {k l : Nat} {a b : List Nat} (x : Touch s t n e k a) (h : k ≤ l) (hs : ∀ j ∈ a, j ∈ b) :
    Touch s t n e l b := ⟨x.only, x.core, x.log.trans (by omega), fun j hj => x.tokens j fun h => hj (hs j h)⟩

theorem State.log_touch (s : State) (n : Nat) (e : Eng) (p : Peel) : Touch s (s.log n p) n e 1 [] := by
  unfold State.log
  split
  · exact ⟨.modCore .., by simp only [State.core_modCore_self]; cases e <;> rfl, by simp, fun j _ => by simp⟩
  · exact (Touch.refl s n e).mono (by omega) (by simp)
theorem State.setTok_touch (s : State) (n : Nat) (e f : Eng) (t : Nat) (c : Word) (x : Tok) : Touch s (s.setTok n f t c x) n e 1 [t] := by
  unfold State.setTok
  refine ((s.log_touch n e _).trans (l := 0) (b := [t]) ⟨.modCore .., by simp only [State.core_modCore_self]; cases e <;> rfl, by simp, fun j hj => ?_⟩).mono (by omega) (by simp)
  simp only [State.core_modCore_self]
  exact SMap.get_set_ne _ _ _ (by simpa using hj)
theorem State.consume_touch (s : State) (n : Nat) (e f : Eng) (c : Word) (ts : List (Nat × Nat)) :
    Touch s (s.consume n f c ts) n e ts.length (ts.map (·.1)) := by
  induction ts generalizing s with
  | nil => exact .refl s n e
  | cons x ts ih =>
    obtain ⟨t, k⟩ := x
    exact ((s.setTok_touch n e f t c _).trans (ih _)).mono (by simp; omega) (by simp)
theorem State.tok_log (s : State) (n : Nat) (p : Peel) : ((s.log n p).core n).tok = (s.core n).tok := by
  unfold State.log; split <;> simp
theorem State.tok_setTok (s : State) (n : Nat) (f : Eng) (t : Nat) (c : Word) (x : Tok) :
    ((s.setTok n f t c x).core n).tok = (s.core n).tok.set {} t x := by
  unfold State.setTok; rw [State.core_modCore_self, s.tok_log]
/-- Consumption takes from each counter what the terms need of it. -/
theorem State.consume_count (s : State) (n : Nat) (f : Eng) (c : Word) (ts : List (Nat × Nat))
    (h : ∀ j, tokNeed ts j ≤ ((s.core n).tok.get {} j).count.toNat) (j : Nat) :
    (((s.consume n f c ts).core n).tok.get {} j).count.toNat + tokNeed ts j = ((s.core n).tok.get {} j).count.toNat := by
  induction ts generalizing s with
  | nil => rfl
  | cons x ts ih =>
    obtain ⟨t, k⟩ := x
    have ht : k + tokNeed ts t ≤ ((s.core n).tok.get {} t).count.toNat := by simpa [tokNeed] using h t
    have hsub : (((s.core n).tok.get {} t).count - BitVec.ofNat 16 k).toNat = ((s.core n).tok.get {} t).count.toNat - k := by
      have := ((s.core n).tok.get {} t).count.isLt
      rw [BitVec.toNat_sub_of_le]
      · simp [Nat.mod_eq_of_lt (show k < 65536 by omega)]
      · rw [BitVec.le_def, BitVec.toNat_ofNat, Nat.mod_eq_of_lt (by omega)]; omega
    have step : ∀ i, tokNeed ((t, k) :: ts) i = (if i = t then k else 0) + tokNeed ts i := fun i => by
      by_cases hi : i = t
      · subst hi; simp [tokNeed]
      · simp [tokNeed, hi, Ne.symm hi]
    have get : ∀ i, (((s.setTok n f t c { (s.core n).tok.get {} t with count := ((s.core n).tok.get {} t).count - BitVec.ofNat 16 k }).core n).tok.get {} i).count.toNat
        = ((s.core n).tok.get {} i).count.toNat - (if i = t then k else 0) := fun i => by
      rw [s.tok_setTok]
      by_cases hi : i = t
      · subst hi; rw [SMap.get_set_self, if_pos rfl]; exact hsub
      · rw [SMap.get_set_ne _ _ _ hi, if_neg hi]; rfl
    have h2 : ∀ i, (if i = t then k else 0) + tokNeed ts i ≤ ((s.core n).tok.get {} i).count.toNat := fun i => step i ▸ h i
    have := ih (s.setTok n f t c { (s.core n).tok.get {} t with count := ((s.core n).tok.get {} t).count - BitVec.ofNat 16 k }) (fun i => by
      rw [get]; have := h2 i; omega)
    rw [get] at this
    rw [step]
    have fin : ∀ A B c n : Nat, A + n = B - c → c + n ≤ B → A + (c + n) = B := by omega
    exact fin _ _ _ _ this (h2 j)
theorem State.raiseElast_touch (s : State) (n : Nat) (e : Eng) (c pc : Word) : Touch s (s.raiseElast n e c pc) n e 1 [] := by
  unfold State.raiseElast
  split
  · refine ((s.log_touch n e _).trans (l := 0) (b := []) ⟨.modCore .., ?_, by simp, fun j _ => by simp [Core.modEng]⟩).mono (by omega) (by simp)
    simp only [State.core_modCore_self]; cases e <;> rfl
  · exact (Touch.refl s n e).mono (by omega) (by simp)

/-! ### Control-core words -/

/-- A token whose count has room takes its signal without a fault. -/
theorem State.signal_touch (s : State) (n : Nat) (e f : Eng) (t : Nat) (c : Word) (ids : List Nat) (slot : BitVec 16)
    (h : t = 0 ∨ ((s.core n).tok.get {} t).count.toNat < 0xFFFF) : Touch s (s.signal n f t 1 c ids slot) n e 1 [t] := by
  unfold State.signal
  by_cases ht : t = 0
  · simp only [ht, beq_self_eq_true, if_true]; exact (Touch.refl s n e).mono (by omega) (by simp)
  · have hc := h.resolve_left ht
    have h2 : ¬ (0xFFFF < ((s.core n).tok.get {} t).count.toNat + 1) := by omega
    simp only [beq_iff_eq, ht, if_false, h2, decide_false, Bool.false_eq_true]
    exact s.setTok_touch n e f t c _

/-- What issue leaves: the PC behind the word, the word taken, its tokens consumed. -/
structure CcIssued (s s1 : State) (e : Word) (ts : List (Nat × Nat)) (srcs : List (BitVec 6 × Bool)) : Prop where
  only : CoreOnly s s1 s.cur
  core : s1.me = { s.me with pc := s.me.pc + 8, fetched := s.me.fetched.tail, deadS := freeS e srcs s.me.deadS, tok := s1.me.tok, peel := s1.me.peel,
                             cc := { s.me.cc with elast := s1.me.cc.elast, before := s1.me.cc.before } }
  log : s1.me.peel.length ≤ s.me.peel.length + 1 + ts.length
  tokens : ∀ j, (∀ x ∈ ts, x.1 ≠ j) → s1.me.tok.get {} j = s.me.tok.get {} j
  count : ∀ j, (s1.me.tok.get {} j).count.toNat + tokNeed ts j = (s.me.tok.get {} j).count.toNat

theorem State.me_modCore {s : State} {n : Nat} (h : s.cur = n) (f : Core → Core) : (s.modCore n f).me = f (s.core n) := by
  subst h; exact s.me_modCore_cur f
theorem State.ccIssue_issued (s : State) (e : Word) (ts : List (Nat × Nat)) (ids : List Nat) (srcs : List (BitVec 6 × Bool))
    (h : ∀ j, tokNeed ts j ≤ (s.me.tok.get {} j).count.toNat) : CcIssued s (s.ccIssue e ts ids srcs) e ts srcs := by
  have y := s.raiseElast_touch s.cur .cc e s.me.pc
  have z := State.consume_count (s.raiseElast s.cur .cc e s.me.pc) s.cur .cc e ts (by
    intro j; rw [y.tokens j (by simp)]; exact h j)
  have x := (s.raiseElast_touch s.cur .cc e s.me.pc).trans (State.consume_touch _ s.cur .cc .cc e ts)
  dsimp only [State.ccIssue]
  generalize (s.raiseElast s.cur .cc e s.me.pc).consume s.cur .cc e ts = u at x z ⊢
  refine ⟨x.only.trans (.modCore ..), ?_, ?_, fun j hj => ?_, fun j => ?_⟩
  · rw [State.me_modCore x.only.cur, x.core]; rfl
  · rw [State.me_modCore x.only.cur]; have := x.log; show (u.core s.cur).peel.length ≤ (s.core s.cur).peel.length + 1 + ts.length; omega
  · rw [State.me_modCore x.only.cur]
    refine x.tokens j fun hm => ?_
    obtain ⟨y, hy, rfl⟩ := List.mem_map.mp (show j ∈ ts.map (·.1) by simpa using hm)
    exact hj y hy rfl
  · rw [State.me_modCore x.only.cur]; have := z j; rw [y.tokens j (by simp)] at this; exact this
/-- R226: what issue adds to the operations ordered before the core's later words. -/
theorem State.ccIssue_before (s : State) (e : Word) (ts : List (Nat × Nat)) (ids : List Nat) (srcs : List (BitVec 6 × Bool)) :
    (s.ccIssue e ts ids srcs).me.cc.before = mergeIds s.me.cc.before ids := by
  have x := (s.raiseElast_touch s.cur .cc e s.me.pc).trans (State.consume_touch _ s.cur .cc .cc e ts)
  dsimp only [State.ccIssue]
  generalize (s.raiseElast s.cur .cc e s.me.pc).consume s.cur .cc e ts = u at x ⊢
  rw [State.me_modCore x.only.cur, x.core]; rfl

theorem CcMay.need {s : State} {h : Hdr} {srcs : List (BitVec 6 × Bool)} {toks : List (Nat × Nat)} {extra : Word}
    (m : CcMay s h srcs toks extra) (j : Nat) : tokNeed (waitPresent (s.me.waitVal h) ++ toks) j ≤ (s.me.tok.get {} j).count.toNat := by
  by_cases hj : ∃ x ∈ waitPresent (s.me.waitVal h) ++ toks, x.1 = j
  · obtain ⟨x, hx, rfl⟩ := hj; exact m.met x hx
  · have : (waitPresent (s.me.waitVal h) ++ toks).filter (fun x => x.1 == j) = [] := by
      rw [List.filter_eq_nil_iff]; intro x hx; simpa using fun e => hj ⟨x, hx, e⟩
    simp [tokNeed, this]
/-- What the tokens that a word takes carry of operations before it (R226). -/
def State.ccIds (s : State) (h : Hdr) (toks : List (Nat × Nat)) : List Nat :=
  mergeIds (s.me.waitIds (s.me.waitVal h)) (toks.foldl (fun m (t, _) => mergeIds m (s.me.tok.get {} t).before) [])
/-- Issue under `CcMay`: the effect of the word acts on the state after issue. -/
theorem ccWordAt_go {s : State} {h : Hdr} {srcs : List (BitVec 6 × Bool)} {toks : List (Nat × Nat)} {extra : Word}
    (m : CcMay s h srcs toks extra) (w : Word) (body : Word → State → Body) :
    ccWordAt extra h w srcs toks body s =
      ccFinish h (s.ccCrd h toks extra) s
        (body (s.ccCrd h toks extra) (s.ccIssue (s.ccCrd h toks extra) (waitPresent (s.me.waitVal h) ++ toks) (s.ccIds h toks) srcs)) := by
  have h1 : s.me.ccWait.isSome = false := by simp [m.fresh]
  have h2 : (waitPresent (s.me.waitVal h) ++ toks).all (fun (t, _) => tokNeed (waitPresent (s.me.waitVal h) ++ toks) t ≤ (s.me.tok.get {} t).count.toNat) = true := by
    rw [List.all_eq_true]; intro x hx; simpa using m.met x hx
  have h3 : srcs.any (fun (r, _) => s.me.sPend.get 0 r.toNat != 0) = false := by
    rw [List.any_eq_false]; intro x hx; simpa using m.landed x hx
  have h4 : (if s.me.dbgReg.getLsbD 1 then srcs.find? (fun (r, _) => (s.me.deadS.get none r.toNat).isSome) else none) = none := by
    split
    · rename_i hd; rw [List.find?_eq_none]; intro x hx; simp [m.alive hd x hx]
    · rfl
  unfold ccWordAt
  simp only [h1, Bool.false_eq_true, if_false]
  have e0 : (if h.wait == 0 then 0 else s.me.wset.get 0 h.wait.toNat) = s.me.waitVal h := rfl
  simp only [e0, m.legal, Bool.not_true, Bool.false_eq_true, if_false, h2, h3, h4]
  have e1 : ccE s (maxW (maxW (s.me.waitTag (s.me.waitVal h)) (toks.foldl (fun m (t, _) => maxW m (s.me.tok.get {} t).tag) 0)) extra)
      = s.ccCrd h toks extra := rfl
  simp only [e1, m.noStop, m.ungated, m.noWatch, Bool.or_false, Bool.false_eq_true, if_false]
  rfl

/-- The effect of a control-core word on core `n`: `base` is the core with what it changes beside s registers, `p` its PC, `tx` the tokens it
changes, `s0` the state with what it changes outside the core; it writes at most `k` log entries. -/
structure CcEff (s0 s1 s2 : State) (n k : Nat) (base : Core) (tx : List Nat) (p : Word) : Prop where
  only : CoreOnly s0 s2 n
  frame : CcFrame base (s2.core n)
  pc : (s2.core n).pc = p
  tok : ∀ j, j ∉ tx → (s2.core n).tok.get {} j = (s1.core n).tok.get {} j
  log : (s2.core n).peel.length ≤ (s1.core n).peel.length + k

/-- What retirement leaves of the state after a word's effect: its signal, and the time of the last retirement. -/
structure Retired (s2 t : State) (n : Nat) (sig : BitVec 8) : Prop where
  only : CoreOnly s2 t n
  core : t.core n = { s2.core n with tok := (t.core n).tok, peel := (t.core n).peel, idle := (t.core n).idle, hung := (t.core n).hung,
                                     cc := { (s2.core n).cc with elast := (t.core n).cc.elast } }
  tokens : ∀ j, j ≠ sig.toNat → (t.core n).tok.get {} j = (s2.core n).tok.get {} j
  count : ∀ j, ((t.core n).tok.get {} j).count.toNat = ((s2.core n).tok.get {} j).count.toNat + (if sig ≠ 0 ∧ j = sig.toNat then 1 else 0)

theorem State.retired_retired (s2 : State) : Retired s2 (s2.retired s2.cur) s2.cur 0 := by
  have hc : (s2.retired s2.cur).core s2.cur = { s2.core s2.cur with idle := s2.cycle, hung := false } := s2.core_modCore_self ..
  exact ⟨.modCore .., by rw [hc], fun j _ => by rw [hc], fun j => by rw [hc]; simp⟩
theorem State.ccRetire_retired (s2 : State) (sig : BitVec 8) (e : Word)
    (h : sig = 0 ∨ (s2.me.tok.get {} sig.toNat).count.toNat < 0xFFFF) : Retired s2 (s2.ccRetire false sig e) s2.cur sig := by
  have a : CoreOnly s2 (s2.retired s2.cur) s2.cur := .modCore ..
  have hc : (s2.retired s2.cur).core s2.cur = { s2.core s2.cur with idle := s2.cycle, hung := false } := s2.core_modCore_self ..
  have hr : s2.ccRetire false sig e = (s2.retired s2.cur).signal s2.cur .cc sig.toNat 1 e s2.me.cc.before 0 := rfl
  have hs : sig.toNat = 0 ∨ (((s2.retired s2.cur).core s2.cur).tok.get {} sig.toNat).count.toNat < 0xFFFF := by
    rw [hc]
    rcases h with rfl | h
    · left; rfl
    · right; exact h
  have x := (s2.retired s2.cur).signal_touch s2.cur .cc .cc sig.toNat e s2.me.cc.before 0 hs
  rw [← hr] at x
  refine ⟨a.trans x.only, ?_, fun j hj => ?_, fun j => ?_⟩
  · rw [x.core, hc]; rfl
  · rw [x.tokens j (by simpa using hj), hc]
  · by_cases hj : j = sig.toNat
    · subst hj
      by_cases hz : sig = 0
      · subst hz
        have h0 : s2.ccRetire false 0 e = s2.retired s2.cur := by rw [hr]; rfl
        rw [h0, hc]; simp
      · have hn : sig.toNat ≠ 0 := fun e => hz (BitVec.eq_of_toNat_eq (by simpa using e))
        have hlt := hs.resolve_left hn
        rw [hr]; unfold State.signal
        have h2 : ¬ (0xFFFF < (((s2.retired s2.cur).core s2.cur).tok.get {} sig.toNat).count.toNat + 1) := by omega
        simp only [beq_iff_eq, hn, if_false, h2, decide_false, Bool.false_eq_true, State.tok_setTok, SMap.get_set_self]
        rw [hc] at hlt ⊢
        simp only [BitVec.toNat_add, ne_eq, hz, not_false_eq_true, and_self, if_true]
        have : (BitVec.ofNat 16 1).toNat = 1 := rfl
        rw [this]
        have fin : ∀ x : Nat, x < 0xFFFF → (x + 1) % 2 ^ 16 = x + 1 := by omega
        exact fin _ hlt
    · rw [x.tokens j (by simpa using hj), hc, if_neg (fun h => hj h.2), Nat.add_zero]

theorem CcFrame.refl (c : Core) : CcFrame c c := rfl
theorem CcFrame.trans {a b c : Core} (x : CcFrame a b) (y : CcFrame b c) : CcFrame a c := by
  unfold CcFrame at *; rw [y, x]
theorem CcFrame.hold {a b : Core} (x : CcFrame a b) : b.hold = a.hold := by rw [x]
theorem CcIssued.here {s s1 : State} {e : Word} {ts : List (Nat × Nat)} {srcs : List (BitVec 6 × Bool)} (i : CcIssued s s1 e ts srcs) :
    s1.core s.cur = s1.me := by rw [State.me, i.only.cur]
theorem CcIssued.frame {s s1 : State} {e : Word} {ts : List (Nat × Nat)} {srcs : List (BitVec 6 × Bool)} (i : CcIssued s s1 e ts srcs) :
    CcFrame s.me (s1.core s.cur) := by unfold CcFrame; rw [i.here, i.core]
theorem CcIssued.regs {s s1 : State} {e : Word} {ts : List (Nat × Nat)} {srcs : List (BitVec 6 × Bool)} (i : CcIssued s s1 e ts srcs) :
    (s1.core s.cur).s = s.me.s := by rw [i.here, i.core]
theorem CcIssued.pc {s s1 : State} {e : Word} {ts : List (Nat × Nat)} {srcs : List (BitVec 6 × Bool)} (i : CcIssued s s1 e ts srcs) :
    (s1.core s.cur).pc = s.me.pc + 8 := by rw [i.here, i.core]

/-- The answer of a word's effect by which it retires now: with its signal, or with the signal left to a later completion. -/
def retires (b : Body) (s2 : State) (sig : BitVec 8) (h : Hdr) : Prop := (b = .done s2 ∧ sig = h.sig) ∨ (b = .quiet s2 ∧ sig = 0)

/-- A control-core word runs: from the state `s1` after issue, whatever its effect leaves is what it answers, retired. -/
theorem ccWordAt_exit {s : State} {h : Hdr} {srcs : List (BitVec 6 × Bool)} {toks : List (Nat × Nat)} {extra : Word}
    (m : CcMay s h srcs toks extra) (w : Word) (body : Word → State → Body) :
    ∃ s1, CcIssued s s1 (s.ccCrd h toks extra) (waitPresent (s.me.waitVal h) ++ toks) srcs ∧
      s1.me.cc.before = mergeIds s.me.cc.before (s.ccIds h toks) ∧
      ∀ s2 s0 sig k base tx p, k ≤ 8 → base.hold.length ≤ 128 → (h.sig = 0 ∨ h.sig.toNat ∉ tx) → s0.cur = s.cur →
        retires (body (s.ccCrd h toks extra) s1) s2 sig h → CcEff s0 s1 s2 s.cur k base tx p →
        ∃ t, Retired s2 t s.cur sig ∧ ccWordAt extra h w srcs toks body s = .next t ∧ CcRan s t { h with sig := sig } toks base tx p s0 := by
  have hgo := ccWordAt_go m w body
  have i := s.ccIssue_issued (s.ccCrd h toks extra) (waitPresent (s.me.waitVal h) ++ toks) (s.ccIds h toks) srcs m.need
  have hb := s.ccIssue_before (s.ccCrd h toks extra) (waitPresent (s.me.waitVal h) ++ toks) (s.ccIds h toks) srcs
  generalize s.ccIssue (s.ccCrd h toks extra) (waitPresent (s.me.waitVal h) ++ toks) (s.ccIds h toks) srcs = s1 at hgo i hb
  refine ⟨s1, i, hb, fun s2 s0 sig k base tx p hk hh hx hs0 hd ef => ?_⟩
  have hcur : s2.cur = s.cur := ef.only.cur.trans hs0
  have hlen : (waitPresent (s.me.waitVal h)).length ≤ 3 := by
    unfold waitPresent; exact (List.length_filter_le _ _).trans (by simp [waitTerms])
  have hlog := ef.log
  have hl1 := i.log
  have hroom := m.room
  rw [i.here] at hlog
  simp only [List.length_append] at hl1
  have hfits : s2.me.fits = true := by
    unfold Core.fits
    rw [State.me, hcur, ef.frame.hold, Bool.and_eq_true, decide_eq_true_eq, decide_eq_true_eq]
    exact ⟨by omega, by omega⟩
  have hw : s.me.ccWait.isSome = false := by simp [m.fresh]
  obtain ⟨t, ht, r⟩ : ∃ t, ccWordAt extra h w srcs toks body s = .next t ∧ Retired s2 t s.cur sig := by
    rcases hd with ⟨hd, rfl⟩ | ⟨hd, rfl⟩
    · have r := s2.ccRetire_retired h.sig (s.ccCrd h toks extra) (by
        rcases hx with hx | hx
        · exact .inl hx
        · refine m.signal.imp id fun hs => ?_
          rw [State.me, hcur, ef.tok _ hx, i.here]
          have := i.count h.sig.toNat
          omega)
      rw [hcur] at r
      exact ⟨_, by rw [hgo, hd]; simp only [ccFinish, hfits, if_true, hw], r⟩
    · have r := s2.retired_retired
      rw [hcur] at r
      exact ⟨_, by rw [hgo, hd]; simp only [ccFinish, hfits, if_true, hw, State.ccEndWait, Bool.false_eq_true, if_false]; rw [hcur], r⟩
  refine ⟨t, r, ht, ef.only.trans r.only, ef.frame.trans (by unfold CcFrame; rw [r.core]), ⟨fun j h1 hj hj2 => ?_, fun j h1 => ?_⟩, ?_⟩
  · rw [r.tokens j hj, ef.tok j h1, i.here]
    exact i.tokens j hj2
  · rw [r.count j, ef.tok j h1, i.here]
    have fin : ∀ a b c d : Nat, a + c = d → a + b + c = d + b := by omega
    exact fin _ _ _ _ (i.count j)
  · rw [r.core, ef.pc]

/-- A word that retires with its signal. -/
theorem ccDone_ran {s s0 : State} {h : Hdr} {srcs : List (BitVec 6 × Bool)} {toks : List (Nat × Nat)} {extra : Word}
    (m : CcMay s h srcs toks extra) (w : Word) (body : Word → State → Body) {k : Nat} {base : Core} {tx : List Nat} {p : Word}
    (hk : k ≤ 8) (hh : base.hold.length ≤ 128) (hx : h.sig = 0 ∨ h.sig.toNat ∉ tx) (hs0 : s0.cur = s.cur)
    (hb : ∀ s1, CcIssued s s1 (s.ccCrd h toks extra) (waitPresent (s.me.waitVal h) ++ toks) srcs →
      ∃ s2, body (s.ccCrd h toks extra) s1 = .done s2 ∧ CcEff s0 s1 s2 s.cur k base tx p) :
    ∃ s1 s2 t, CcIssued s s1 (s.ccCrd h toks extra) (waitPresent (s.me.waitVal h) ++ toks) srcs ∧
      body (s.ccCrd h toks extra) s1 = .done s2 ∧ CcEff s0 s1 s2 s.cur k base tx p ∧ Retired s2 t s.cur h.sig ∧
      ccWordAt extra h w srcs toks body s = .next t ∧ CcRan s t h toks base tx p s0 := by
  obtain ⟨s1, i, -, hx2⟩ := ccWordAt_exit m w body
  obtain ⟨s2, hd, ef⟩ := hb s1 i
  obtain ⟨t, r, hn, ran⟩ := hx2 s2 s0 h.sig k base tx p hk hh hx hs0 (.inl ⟨hd, rfl⟩) ef
  exact ⟨s1, s2, t, i, hd, ef, r, hn, ran⟩

end Sys2Proof.Machine
end

