-- ==== Sys2Proof/Laws/Engine.lean ====
section
/-! SUPPORT. Issue and retirement of a word of a ring engine (R170, R171, R173, R176, R249, R251): one lemma per shared operation, and one for
the word as a whole. -/

set_option Elab.async false

namespace Sys2Proof.Machine

theorem mem_tokNeed (ts : List (Nat × Nat)) (x : Nat × Nat) (h : x ∈ ts) : x.2 ≤ tokNeed ts x.1 := by
  induction ts with
  | nil => cases h
  | cons y ts ih =>
    rcases List.mem_cons.mp h with rfl | h
    · simp [tokNeed]
    · have := ih h
      unfold tokNeed at *
      rw [List.filter_cons]
      split
      · rw [List.map_cons, List.sum_cons]; omega
      · exact this

/-- Pops change queues and the flags of the last popped entry alone. -/
theorem popAll_frame (eo : Option Nat) (qs : List Nat) (c : Core) (es : List (Nat × QEnt)) (c' : Core) (h : popAll eo c qs = .ok es c') :
    c' = { c with dq := c'.dq, sq := c'.sq, lastPop := c'.lastPop } := by
  induction qs generalizing c es c' with
  | nil => simp only [popAll, Pops.ok.injEq] at h; obtain ⟨-, rfl⟩ := h; rfl
  | cons q qs ih =>
    unfold popAll at h
    dsimp only at h
    split at h
    · cases h
    · split at h
      · cases h
      · split at h
        · cases h
        · split at h
          · rename_i hp
            simp only [Pops.ok.injEq] at h
            obtain ⟨-, rfl⟩ := h
            have := ih _ _ _ hp
            rw [this]
            unfold Core.setQueue
            split <;> rfl
          · rename_i hne
            exact absurd h (hne _ _)
theorem Core.dropBits_frame (c : Core) (eng : Eng) (k : Nat) :
    c.dropBits eng k = { c with boqX := (c.dropBits eng k).boqX, boqA := (c.dropBits eng k).boqA } := by
  unfold Core.dropBits; repeat' split
  all_goals rfl

/-- What issue of a ring word leaves: the pops made, its tokens consumed, ELAST at its coordinate, and its record. -/
structure EngIssued (s s1 : State) (eng : Eng) (e : Word) (ts : List (Nat × Nat)) (c' : Core) : Prop where
  only : CoreOnly s s1 s.cur
  core : s1.core s.cur = { c'.setEng eng ((s1.core s.cur).eng eng) with tok := (s1.core s.cur).tok, peel := (s1.core s.cur).peel }
  eng : (s1.core s.cur).eng eng = { c'.eng eng with elast := e, iss := ((s1.core s.cur).eng eng).iss, before := ((s1.core s.cur).eng eng).before }
  log : (s1.core s.cur).peel.length ≤ s.me.peel.length + 2 + ts.length
  tokens : ∀ j, (∀ x ∈ ts, x.1 ≠ j) → (s1.core s.cur).tok.get {} j = s.me.tok.get {} j
  count : ∀ j, ((s1.core s.cur).tok.get {} j).count.toNat + tokNeed ts j = (s.me.tok.get {} j).count.toNat

theorem maxW_le_left (a b : Word) : (maxW a b).ult a = false := by
  unfold maxW; split
  · rename_i h; simp only [BitVec.ult_eq_decide, decide_eq_true_eq, decide_eq_false_iff_not] at *; omega
  · simp [BitVec.ult_eq_decide]
theorem ult_false_iff (a b : Word) : a.ult b = false ↔ b.toNat ≤ a.toNat := by simp [BitVec.ult_eq_decide]
theorem maxW_toNat (a b : Word) : (maxW a b).toNat = Nat.max a.toNat b.toNat := by
  unfold maxW; simp only [BitVec.ult_eq_decide, decide_eq_true_eq]
  split
  · exact (Nat.max_eq_right (by omega)).symm
  · exact (Nat.max_eq_left (by omega)).symm
theorem State.engCrd_ge (s : State) (eng : Eng) (h : Hdr) (es : List (Nat × QEnt)) (bits : Nat) (extra : Word) :
    (s.me.eng eng).elast.toNat ≤ (s.engCrd eng h es bits extra).toNat := by
  unfold State.engCrd; dsimp only
  rw [maxW_toNat, maxW_toNat, maxW_toNat]
  exact (Nat.le_max_left _ _).trans ((Nat.le_max_left _ _).trans (Nat.le_max_left _ _))

theorem State.raiseElast_elast (s : State) (n : Nat) (eng : Eng) (e pc : Word) (h : ((s.core n).eng eng).elast.toNat ≤ e.toNat) :
    ((s.raiseElast n eng e pc).core n).eng eng = { (s.core n).eng eng with elast := e } := by
  unfold State.raiseElast
  split
  · rw [State.core_modCore_self]
    have : ((s.log9 n eng e pc).core n).eng eng = (s.core n).eng eng := by
      have x := s.log_touch n eng { kind := 9, eng := BitVec.ofNat 3 eng.num, crd := e, old := ((((s.core n).eng eng).crd ++ ((s.core n).eng eng).elast).setWidth 256), pc := pc }
      have hc := x.core
      unfold State.log9
      dsimp only
      unfold State.log
      split
      · rw [State.core_modCore_self]; cases eng <;> rfl
      · rfl
    rw [Core.modEng, this]; cases eng <;> rfl
  · rename_i hn
    have : ((s.core n).eng eng).elast = e := BitVec.eq_of_toNat_eq (by
      have := (ult_false_iff ((s.core n).eng eng).elast e).mp (by simpa using hn); omega)
    rw [← this]

theorem State.log_eng (s : State) (n : Nat) (p : Peel) (eng : Eng) : ((s.log n p).core n).eng eng = (s.core n).eng eng := by
  unfold State.log
  split
  · rw [State.core_modCore_self]; cases eng <;> rfl
  · rfl
/-- ELAST raised, whichever way the engine records it. -/
theorem State.ringElast (s : State) (n : Nat) (eng : Eng) (e : Word) (p : Peel) (ahead : Bool) (h : ((s.core n).eng eng).elast.toNat ≤ e.toNat) :
    ∃ u, u = (if ahead then (if ahead then s.log n p else s).raiseElast n eng e 0
        else (if ahead then s.log n p else s).modCore n fun c => c.modEng eng fun y => { y with elast := e }) ∧
      Touch s u n eng 2 [] ∧ (u.core n).eng eng = { (s.core n).eng eng with elast := e } := by
  refine ⟨_, rfl, ?_⟩
  cases ahead with
  | true =>
    simp only [if_true]
    refine ⟨(s.log_touch n eng p).trans ((s.log n p).raiseElast_touch n eng e 0), ?_⟩
    rw [State.raiseElast_elast _ _ _ _ _ (by rw [s.log_eng]; exact h), s.log_eng]
  | false =>
    simp only [Bool.false_eq_true, if_false]
    refine ⟨⟨.modCore .., ?_, ?_, ?_⟩, ?_⟩
    · rw [State.core_modCore_self]; cases eng <;> rfl
    · rw [State.core_modCore_self]; cases eng <;> exact Nat.le_add_right _ _
    · intro j _; rw [State.core_modCore_self]; cases eng <;> rfl
    · rw [State.core_modCore_self]; cases eng <;> rfl
theorem Core.setEng_get (c : Core) (e : Eng) (x : EngSt) : (c.setEng e x).eng e = x := by cases e <;> rfl
theorem State.setTok_eng (s : State) (n : Nat) (f : Eng) (t : Nat) (c : Word) (x : Tok) (eng : Eng) :
    ((s.setTok n f t c x).core n).eng eng = (s.core n).eng eng := by
  unfold State.setTok
  rw [State.core_modCore_self]
  have h : ∀ (c : Core) (m : SMap Tok), ({ c with tok := m } : Core).eng eng = c.eng eng := fun c m => by cases eng <;> rfl
  rw [h]
  exact s.log_eng ..
theorem State.consume_eng (s : State) (n : Nat) (f : Eng) (c : Word) (ts : List (Nat × Nat)) (eng : Eng) :
    ((s.consume n f c ts).core n).eng eng = (s.core n).eng eng := by
  induction ts generalizing s with
  | nil => rfl
  | cons x ts ih =>
    obtain ⟨t, k⟩ := x
    exact (ih _).trans (s.setTok_eng ..)

theorem State.ringIssue_issued (s : State) (eng : Eng) (e : Word) (toks : List (Nat × Nat)) (ids : List Nat) (es : List (Nat × QEnt))
    (bits : List OBit) (c' : Core) (htok : c'.tok = s.me.tok) (hpeel : c'.peel = s.me.peel) (he : (c'.eng eng).elast.toNat ≤ e.toNat)
    (h : ∀ j, tokNeed toks j ≤ (s.me.tok.get {} j).count.toNat) :
    EngIssued s (s.ringIssue eng e toks ids es bits c') eng e toks c' := by
  have hc0 : (s.setCore s.cur c').core s.cur = c' := s.core_setCore_self ..
  obtain ⟨u, hu, ut, ue⟩ := (s.setCore s.cur c').ringElast s.cur eng e
    { kind := 7, eng := BitVec.ofNat 3 eng.num, addr := BitVec.ofNat 48 eng.num, crd := e, old := (c'.eng eng).ring.head.setWidth 256 }
    (eng != .exe && eng != .mtx) (by rw [hc0]; exact he)
  have v1 : CoreOnly u { u with nextId := u.nextId + 1 } s.cur := ⟨rfl, fun _ _ => rfl⟩
  have v2 : State.core { u with nextId := u.nextId + 1 } s.cur = u.core s.cur := rfl
  have hform : ∃ f : Core → Core, s.ringIssue eng e toks ids es bits c' = (State.consume { u with nextId := u.nextId + 1 } s.cur eng e toks).modCore s.cur f ∧
      ∀ c, ∃ y : EngSt, f c = c.setEng eng y ∧ y = { c.eng eng with iss := y.iss, before := y.before } := by
    refine ⟨fun c => c.modEng eng fun y => { y with
        iss := y.iss ++ [{ pos := (c'.eng eng).ring.head, e := e, pops := es, bits := bits, id := u.nextId,
                           snap := { (c'.eng eng).snap with lastPop := if eng == .exe then (s.core s.cur).lastPop else [] } }],
        before := mergeIds y.before ids }, ?_, fun c => ?_⟩
    · rw [hu]; rfl
    · exact ⟨_, rfl, rfl⟩
  obtain ⟨f, hf, hfc⟩ := hform
  rw [hf]
  generalize ({ u with nextId := u.nextId + 1 } : State) = v at *
  have x := State.consume_touch v s.cur eng eng e toks
  have htv : ∀ j, (v.core s.cur).tok.get {} j = s.me.tok.get {} j := fun j => by
    rw [v2, ut.tokens j (by simp), hc0, htok]
  have z := State.consume_count v s.cur eng e toks (fun j => by rw [htv]; exact h j)
  obtain ⟨y, hy, hy2⟩ := hfc ((v.consume s.cur eng e toks).core s.cur)
  have hcore : ((v.consume s.cur eng e toks).modCore s.cur f).core s.cur = ((v.consume s.cur eng e toks).core s.cur).setEng eng y := by
    rw [State.core_modCore_self, hy]
  have hE : ((v.consume s.cur eng e toks).core s.cur).eng eng = { c'.eng eng with elast := e } := by
    rw [v.consume_eng, v2, ue, hc0]
  have hX : (((v.consume s.cur eng e toks).modCore s.cur f).core s.cur).eng eng = y := by rw [hcore, Core.setEng_get]
  refine ⟨((CoreOnly.setCore s s.cur c').trans ut.only).trans ((v1.trans x.only).trans (.modCore ..)), ?_, ?_, ?_, fun j hj => ?_, fun j => ?_⟩
  · rw [hX, hcore, x.core, v2, ut.core, hc0]; cases eng <;> rfl
  · rw [hX, hy2, hE]
  · rw [hcore, Core.setEng_peel]
    have h1 := x.log
    have h2 := ut.log
    rw [hc0, hpeel] at h2
    rw [v2] at h1
    omega
  · rw [hcore, Core.setEng_tok, x.tokens j (fun hm => by
      obtain ⟨q, hq, rfl⟩ := List.mem_map.mp hm
      exact hj q hq rfl), htv]
  · rw [hcore, Core.setEng_tok]
    have := z j
    rw [htv] at this
    exact this

/-- The effect of a ring word on core `n`: `base` is the core with what it changes beside its engine, `post` what it does to the engine. -/
structure EngEff (s0 s1 s2 : State) (eng : Eng) (n k : Nat) (base : Core) (tx : List Nat) (post : EngSt → EngSt) : Prop where
  only : CoreOnly s0 s2 n
  core : s2.core n = { base.setEng eng (post ((s1.core n).eng eng)) with tok := (s2.core n).tok, peel := (s2.core n).peel }
  tok : ∀ j, j ∉ tx → (s2.core n).tok.get {} j = (s1.core n).tok.get {} j
  log : (s2.core n).peel.length ≤ (s1.core n).peel.length + k

/-- HEAD gone on, and with `now` the word retired: what the end of a ring word leaves. -/
structure EngLeft (s2 t : State) (eng : Eng) (n : Nat) (sig : BitVec 8) : Prop where
  only : CoreOnly s2 t n
  core : t.core n = { (s2.core n).setEng eng ((t.core n).eng eng) with
    tok := (t.core n).tok, peel := (t.core n).peel, idle := (t.core n).idle, hung := (t.core n).hung }
  eng : (t.core n).eng eng = { EngSt.next (s2.core n).cw ((s2.core n).eng eng) with
      iss := ((t.core n).eng eng).iss, ring := { (EngSt.next (s2.core n).cw ((s2.core n).eng eng)).ring with ret := ((t.core n).eng eng).ring.ret } }
  tokens : ∀ j, j ≠ sig.toNat → (t.core n).tok.get {} j = (s2.core n).tok.get {} j
  count : ∀ j, ((t.core n).tok.get {} j).count.toNat = ((s2.core n).tok.get {} j).count.toNat + (if sig ≠ 0 ∧ j = sig.toNat then 1 else 0)

theorem State.ringNext_left (s : State) (n : Nat) (eng : Eng) : EngLeft s (s.ringNext n eng) eng n 0 := by
  have hc : (s.ringNext n eng).core n = (s.core n).setEng eng (EngSt.next (s.core n).cw ((s.core n).eng eng)) := s.core_modCore_self ..
  refine ⟨.modCore .., ?_, ?_, fun j _ => ?_, fun j => ?_⟩
  · rw [hc, Core.setEng_get]
  · rw [hc, Core.setEng_get]
  · rw [hc, Core.setEng_tok]
  · rw [hc, Core.setEng_tok]; simp
/-- The exact count after a signal that does not overflow. -/
theorem State.signal_count (s : State) (n : Nat) (f : Eng) (sig : BitVec 8) (c : Word) (ids : List Nat) (slot : BitVec 16)
    (h : sig = 0 ∨ ((s.core n).tok.get {} sig.toNat).count.toNat < 0xFFFF) (j : Nat) :
    (((s.signal n f sig.toNat 1 c ids slot).core n).tok.get {} j).count.toNat =
      ((s.core n).tok.get {} j).count.toNat + (if sig ≠ 0 ∧ j = sig.toNat then 1 else 0) := by
  by_cases hz : sig = 0
  · subst hz; simp [State.signal]
  · have hn : sig.toNat ≠ 0 := fun e => hz (BitVec.eq_of_toNat_eq (by simpa using e))
    have hlt := h.resolve_left hz
    unfold State.signal
    have h2 : ¬ (0xFFFF < ((s.core n).tok.get {} sig.toNat).count.toNat + 1) := by omega
    simp only [beq_iff_eq, hn, if_false, h2, decide_false, Bool.false_eq_true, State.tok_setTok]
    by_cases hj : j = sig.toNat
    · subst hj
      simp only [SMap.get_set_self, BitVec.toNat_add, ne_eq, hz, not_false_eq_true, and_self, if_true]
      have fin : ∀ x : Nat, x < 0xFFFF → (x + 1) % 2 ^ 16 = x + 1 := by omega
      exact fin _ hlt
    · rw [SMap.get_set_ne _ _ _ hj, if_neg (fun h => hj h.2), Nat.add_zero]
theorem State.signal_eng (s : State) (n : Nat) (f : Eng) (sig : BitVec 8) (c : Word) (ids : List Nat) (slot : BitVec 16)
    (h : sig = 0 ∨ ((s.core n).tok.get {} sig.toNat).count.toNat < 0xFFFF) (eng : Eng) :
    ((s.signal n f sig.toNat 1 c ids slot).core n).eng eng = (s.core n).eng eng := by
  by_cases hz : sig = 0
  · subst hz; rfl
  · have hn : sig.toNat ≠ 0 := fun e => hz (BitVec.eq_of_toNat_eq (by simpa using e))
    have hlt := h.resolve_left hz
    unfold State.signal
    have h2 : ¬ (0xFFFF < ((s.core n).tok.get {} sig.toNat).count.toNat + 1) := by omega
    simp only [beq_iff_eq, hn, if_false, h2, decide_false, Bool.false_eq_true]
    exact s.setTok_eng ..
theorem State.retireIss_core (s : State) (n : Nat) (eng : Eng) (id : Nat) :
    CoreOnly s (s.retireIss n eng id) n ∧ ∃ y : EngSt, (s.retireIss n eng id).core n = { (s.core n).setEng eng y with idle := s.cycle, hung := false } ∧
      y = { (s.core n).eng eng with iss := y.iss, ring := { ((s.core n).eng eng).ring with ret := y.ring.ret } } := by
  unfold State.retireIss State.retired State.trimEng
  refine ⟨((CoreOnly.modCore s n _).trans (.modCore _ n _)).trans (.modCore _ n _), ?_⟩
  rw [State.core_modCore_self, State.core_modCore_self, State.core_modCore_self]
  refine ⟨EngSt.trim { (s.core n).eng eng with iss := ((s.core n).eng eng).iss.map fun i => if i.id == id then { i with retired := true } else i } (eng == .mtx)
      ((s.modCore n fun c => c.modEng eng fun x => { x with iss := x.iss.map fun i => if i.id == id then { i with retired := true } else i }).horizonOf n)
      ((s.modCore n fun c => c.modEng eng fun x => { x with iss := x.iss.map fun i => if i.id == id then { i with retired := true } else i }).cutOf n), ?_, rfl⟩
  cases eng <;> rfl
/-- Retirement of a ring word that has issued at HEAD. -/
theorem State.ringRetire_left (s : State) (n : Nat) (eng : Eng) (id : Nat) (sig : BitVec 8) (e : Word) (ids : List Nat) (pos : BitVec 16)
    (h : sig = 0 ∨ ((s.core n).tok.get {} sig.toNat).count.toNat < 0xFFFF) :
    EngLeft s (((s.ringNext n eng).retireIss n eng id).signal n eng sig.toNat 1 e ids pos) eng n sig := by
  have a := s.ringNext_left n eng
  obtain ⟨bo, y, hb, hy⟩ := (s.ringNext n eng).retireIss_core n eng id
  have hc : (s.ringNext n eng).core n = (s.core n).setEng eng (EngSt.next (s.core n).cw ((s.core n).eng eng)) := s.core_modCore_self ..
  have hb2 : ((s.ringNext n eng).retireIss n eng id).core n = { (s.core n).setEng eng y with idle := (s.ringNext n eng).cycle, hung := false } := by
    rw [hb, hc]; cases eng <;> rfl
  have hs : sig = 0 ∨ ((((s.ringNext n eng).retireIss n eng id).core n).tok.get {} sig.toNat).count.toNat < 0xFFFF := by
    rw [hb2]; cases eng <;> exact h
  have x := ((s.ringNext n eng).retireIss n eng id).signal_touch n eng eng sig.toNat e ids pos (hs.imp (fun e => by rw [e]; rfl) (fun e => e))
  have xe := ((s.ringNext n eng).retireIss n eng id).signal_eng n eng sig e ids pos hs eng
  have xc := ((s.ringNext n eng).retireIss n eng id).signal_count n eng sig e ids pos hs
  have hye : (((s.ringNext n eng).retireIss n eng id).core n).eng eng = y := by rw [hb2]; cases eng <;> rfl
  rw [hye] at xe
  refine ⟨a.only.trans (bo.trans x.only), ?_, ?_, fun j hj => ?_, fun j => ?_⟩
  · rw [xe, x.core, xe, hb2]; cases eng <;> rfl
  · rw [xe, hy, hc, Core.setEng_get]
  · rw [x.tokens j (by simpa using hj), hb2]; cases eng <;> rfl
  · rw [xc, hb2]; cases eng <;> rfl

theorem Core.setEng_setEng_eng (c : Core) (e : Eng) (x : EngSt) : (c.setEng e x).eng e = x := Core.setEng_get ..
/-- Pops leave engines, tokens and the peel log alone. -/
theorem EngMay.popped {s : State} {eng : Eng} {h : Hdr} {guard : BitVec 4} {pops : List Nat} {bits : Nat} {extra : Word}
    {es : List (Nat × QEnt)} {c' : Core} (m : EngMay s eng h guard pops bits extra es c') :
    (c'.dropBits eng bits).tok = s.me.tok ∧ (c'.dropBits eng bits).peel = s.me.peel ∧ (c'.dropBits eng bits).eng eng = s.me.eng eng ∧
      (c'.dropBits eng bits).task = s.me.task ∧ (c'.dropBits eng bits).hold = s.me.hold := by
  have h1 := popAll_frame _ _ _ _ _ m.taken
  have h2 := c'.dropBits_frame eng bits
  refine ⟨?_, ?_, ?_, ?_, ?_⟩ <;> rw [h2, h1] <;> cases eng <;> rfl

theorem engWord_go {s : State} {eng : Eng} {h : Hdr} {guard : BitVec 4} {pops : List Nat} {bits : Nat} {extra : Word}
    {es : List (Nat × QEnt)} {c' : Core} (m : EngMay s eng h guard pops bits extra es c') (w : Word) (chk : Word → Option Body)
    (hchk : chk (s.engCrd eng h es bits extra) = none) (body : Word → List QEnt → List OBit → Nat → State → Body) :
    ∃ ids, engWord eng h w guard chk pops bits extra body s =
      (let s1 := s.ringIssue eng (s.engCrd eng h es bits extra) (waitPresent (s.me.waitVal h)) ids es ((s.me.boq eng).take bits) (c'.dropBits eng bits)
       match body (s.engCrd eng h es bits extra) (es.map (·.2)) ((s.me.boq eng).take bits) s.nextId s1 with
       | .stall => .next s
       | .wait _ => .next s
       | .fault code val => .next (s.raise s.cur eng code val (s.engCrd eng h es bits extra) true (s.me.eng eng).ring.head)
       | .done s' => if s'.me.fits then .next (((s'.ringNext s.cur eng).retireIss s.cur eng s.nextId).signal s.cur eng h.sig.toNat 1
           (s.engCrd eng h es bits extra) (s'.me.eng eng).before (s.me.eng eng).ring.head) else .next s
       | .quiet s' => if s'.me.fits then .next (s'.ringNext s.cur eng) else .next s
       | .after s' code val => if s'.me.fits then .next (((((s'.ringNext s.cur eng).retireIss s.cur eng s.nextId).signal s.cur eng h.sig.toNat 1
           (s.engCrd eng h es bits extra) (s'.me.eng eng).before (s.me.eng eng).ring.head)).raise s.cur eng code val
             (s.engCrd eng h es bits extra) false (s.me.eng eng).ring.head) else .next s) := by
  refine ⟨s.me.waitIds (s.me.waitVal h), ?_⟩
  have h1 : ¬ 0 < (s.me.eng eng).skip := by have := m.here; omega
  have h2 : s.me.waitMet (s.me.waitVal h) = true := by
    unfold Core.waitMet
    rw [List.all_eq_true]
    intro x hx
    simpa using (mem_tokNeed _ x hx).trans (m.met x hx)
  have e0 : (if h.wait == 0 then 0 else s.me.wset.get 0 h.wait.toNat) = s.me.waitVal h := rfl
  have hav := m.avail
  have e1 : (if eng == .acc then s.me.boqX else s.me.boqA) = s.me.boq eng := rfl
  have hd : (if bits == 0 then c' else if eng == .acc then { c' with boqX := (s.me.boq eng).drop bits } else { c' with boqA := (s.me.boq eng).drop bits })
      = c'.dropBits eng bits := by
    have hp := popAll_frame _ _ _ _ _ m.taken
    unfold Core.dropBits Core.boq
    by_cases hb : bits = 0
    · simp [hb]
    · cases eng <;> simp only [hb, beq_iff_eq, if_false, reduceCtorEq, if_true] <;> (rw [hp])
  have e2 : maxW (maxW (maxW (s.me.eng eng).elast (s.me.eng eng).crd)
      ((s.me.eng eng).ring.pushE.get 0 ((s.me.eng eng).ring.head.toNat % 2 ^ (s.me.eng eng).ring.size.toNat)))
      ((es.map (·.2.e) ++ ((s.me.boq eng).take bits).map (·.e)).foldl maxW (maxW (s.me.waitTag (s.me.waitVal h)) extra)) = s.engCrd eng h es bits extra := rfl
  unfold engWord
  simp only [h1, if_false, m.on, Bool.false_eq_true, e0, m.legal, Bool.not_true, h2, m.taken, e1, Nat.not_lt.mpr hav, m.data, hd, e2,
    m.noStop, m.ungated, m.noWatch, Bool.or_false, hchk]
  all_goals (generalize body _ _ _ _ _ = b; cases b <;> rfl)

/-- A ring word runs: from the state `s1` after issue, whatever its effect leaves is what it answers, with HEAD gone on and the word retired, or
with its retirement left to a later completion. -/
theorem engWord_exit {s : State} {eng : Eng} {h : Hdr} {guard : BitVec 4} {pops : List Nat} {bits : Nat} {extra : Word}
    {es : List (Nat × QEnt)} {c' : Core} (m : EngMay s eng h guard pops bits extra es c') (w : Word) (chk : Word → Option Body)
    (hchk : chk (s.engCrd eng h es bits extra) = none) (body : Word → List QEnt → List OBit → Nat → State → Body) :
    ∃ s1, EngIssued s s1 eng (s.engCrd eng h es bits extra) (waitPresent (s.me.waitVal h)) (c'.dropBits eng bits) ∧
      ∀ s2 s0 k base tx post, k ≤ 16 → base.hold.length ≤ 128 → base.task = s.me.task → (h.sig = 0 ∨ h.sig.toNat ∉ tx) → s0.cur = s.cur →
        EngEff s0 s1 s2 eng s.cur k base tx post →
        (body (s.engCrd eng h es bits extra) (es.map (·.2)) ((s.me.boq eng).take bits) s.nextId s1 = .done s2 →
          ∃ t, engWord eng h w guard chk pops bits extra body s = .next t ∧ EngLeft s2 t eng s.cur h.sig ∧
            EngRan s t eng h (s.engCrd eng h es bits extra) base tx post s0) ∧
        (body (s.engCrd eng h es bits extra) (es.map (·.2)) ((s.me.boq eng).take bits) s.nextId s1 = .quiet s2 →
          ∃ t, engWord eng h w guard chk pops bits extra body s = .next t ∧ EngLeft s2 t eng s.cur 0 ∧
            EngRan s t eng { h with sig := 0 } (s.engCrd eng h es bits extra) base tx post s0) := by
  obtain ⟨ids, hgo⟩ := engWord_go m w chk hchk body
  obtain ⟨ptok, ppeel, peng, ptask, phold⟩ := m.popped
  have i := s.ringIssue_issued eng (s.engCrd eng h es bits extra) (waitPresent (s.me.waitVal h)) ids es ((s.me.boq eng).take bits)
    (c'.dropBits eng bits) ptok ppeel (by rw [peng]; exact s.engCrd_ge ..) (fun j => by
      by_cases hj : ∃ x ∈ waitPresent (s.me.waitVal h), x.1 = j
      · obtain ⟨x, hx, rfl⟩ := hj; exact m.met x hx
      · have : (waitPresent (s.me.waitVal h)).filter (fun x => x.1 == j) = [] := by
          rw [List.filter_eq_nil_iff]; intro x hx; simpa using fun e => hj ⟨x, hx, e⟩
        simp [tokNeed, this])
  generalize s.ringIssue eng (s.engCrd eng h es bits extra) (waitPresent (s.me.waitVal h)) ids es ((s.me.boq eng).take bits) (c'.dropBits eng bits) = s1 at hgo i
  refine ⟨s1, i, fun s2 s0 k base tx post hk hh htask hx hs0 ef => ?_⟩
  have hcur : s2.cur = s.cur := ef.only.cur.trans hs0
  have hlen : (waitPresent (s.me.waitVal h)).length ≤ 3 := by
    unfold waitPresent; exact (List.length_filter_le _ _).trans (by simp [waitTerms])
  have hlog := ef.log
  have hl1 := i.log
  have hroom := m.room
  have hhold : (s2.core s.cur).hold = base.hold := by rw [ef.core]; exact Core.setEng_hold ..
  have hcw : (s2.core s.cur).cw = s.me.cw := by
    have : (s2.core s.cur).task = s.me.task := by rw [ef.core]; exact (Core.setEng_task ..).trans htask
    unfold Core.cw; rw [this]
  have hfits : s2.me.fits = true := by
    unfold Core.fits
    rw [State.me, hcur, hhold, Bool.and_eq_true, decide_eq_true_eq, decide_eq_true_eq]
    exact ⟨by omega, by omega⟩
  have h2eng : (s2.core s.cur).eng eng = post ((s1.core s.cur).eng eng) := by
    have := congrArg (fun c => Core.eng c eng) ef.core
    refine this.trans ?_
    cases eng <;> rfl
  have fin : ∀ t sig, EngLeft s2 t eng s.cur sig → EngRan s t eng { h with sig := sig } (s.engCrd eng h es bits extra) base tx post s0 := by
    intro t sig r
    refine ⟨ef.only.trans r.only, ?_, ⟨(s1.core s.cur).eng eng, ?_, ?_⟩, ⟨fun j h1 hj hj2 => ?_, fun j h1 => ?_⟩⟩
    · have a := r.core
      have b := ef.core
      generalize (t.core s.cur).eng eng = X at a ⊢
      generalize post ((s1.core s.cur).eng eng) = Y at b
      rw [a, b]; cases eng <;> rfl
    · have := i.eng; rw [peng] at this; exact this
    · have := r.eng; rw [hcw, h2eng] at this; exact this
    · rw [r.tokens j hj, ef.tok j h1]
      exact i.tokens j fun x hx => hj2 x (List.mem_append_left _ hx)
    · rw [r.count j, ef.tok j h1]
      have fin : ∀ a b c d : Nat, a + c = d → a + b + c = d + b := by omega
      have := i.count j
      rw [List.append_nil]
      exact fin _ _ _ _ this
  refine ⟨fun hd => ?_, fun hd => ?_⟩
  · have hsig : h.sig = 0 ∨ ((s2.core s.cur).tok.get {} h.sig.toNat).count.toNat < 0xFFFF := by
      rcases hx with hx | hx
      · exact .inl hx
      · refine m.signal.imp id fun hs => ?_
        rw [ef.tok _ hx]
        have := i.count h.sig.toNat
        omega
    have r := s2.ringRetire_left s.cur eng s.nextId h.sig (s.engCrd eng h es bits extra) (s2.me.eng eng).before (s.me.eng eng).ring.head hsig
    exact ⟨_, by rw [hgo]; simp only [hd, hfits, if_true], r, fin _ _ r⟩
  · have r := s2.ringNext_left s.cur eng
    exact ⟨_, by rw [hgo]; simp only [hd, hfits, if_true], r, fin _ _ r⟩

end Sys2Proof.Machine
end

