-- ==== Sys2Proof/Laws/Execute.lean ====
section
/-! SUPPORT. What an execute-sequencer word leaves at issue (R181 to R183, R251, R366), and lanes of vectors and predicates (R363, R364). -/

set_option Elab.async false

namespace Sys2Proof.Machine

/-! ### Operand tests -/

theorem State.chkLanded_none (s : State) (w : Word) (k : Nat) (h : s.me.exePending k = true → s.exeEarly k = true) : s.chkLanded w k = none := by
  unfold State.chkLanded
  cases hp : s.me.exePending k
  · simp
  · simp [h hp]
theorem State.chkV_none (s : State) (w : Word) (vs : List (BitVec 6 × Bool))
    (h1 : ∀ x ∈ vs, x.1.toNat < 56 → s.me.exePending (s.me.vIdx x.1) = true → s.exeEarly (s.me.vIdx x.1) = true)
    (h2 : s.me.dbgReg.getLsbD 1 = true → ∀ x ∈ vs, x.1.toNat < 56 → s.me.deadV.get none (s.me.vIdx x.1) = none) : s.chkV w (vs.map (·.1)) = none := by
  induction vs with
  | nil => rfl
  | cons x vs ih =>
    have ih := ih (fun y hy => h1 y (List.mem_cons_of_mem _ hy)) (fun hd y hy => h2 hd y (List.mem_cons_of_mem _ hy))
    rw [List.map_cons, State.chkV]
    split
    · exact ih
    · rename_i hlt
      have hr : x.1.toNat < 56 := by omega
      dsimp only
      rw [s.chkLanded_none w _ (h1 x (List.mem_cons_self ..) hr), ih]
      unfold State.chkDead
      by_cases hd : s.me.dbgReg.getLsbD 1 = true
      · rw [h2 hd x (List.mem_cons_self ..) hr]; simp [orTest]
      · rw [show s.me.dbgReg.getLsbD 1 = false by simpa using hd]; rfl
theorem State.chkP_none (s : State) (w : Word) (ps : List (BitVec 6))
    (h1 : ∀ r ∈ ps, r ≠ 0 → s.me.exePending (pKey r.toNat) = true → s.exeEarly (pKey r.toNat) = true) : s.chkP w ps = none := by
  induction ps with
  | nil => rfl
  | cons r ps ih =>
    have ih := ih fun y hy => h1 y (List.mem_cons_of_mem _ hy)
    rw [State.chkP]
    split
    · exact ih
    · rename_i hr
      rw [s.chkLanded_none w _ (h1 r (List.mem_cons_self ..) (by simpa using hr)), ih]; rfl
theorem State.chkQ_none (s : State) (w : Word) (qs : List (BitVec 6 × Bool))
    (h1 : ∀ x ∈ qs, s.me.exePending (qKey x.1.toNat) = true → s.exeEarly (qKey x.1.toNat) = true)
    (h2 : s.me.dbgReg.getLsbD 1 = true → ∀ x ∈ qs, s.me.deadQ.get none x.1.toNat = none) : s.chkQ w (qs.map (·.1)) = none := by
  induction qs with
  | nil => rfl
  | cons x qs ih =>
    have ih := ih (fun y hy => h1 y (List.mem_cons_of_mem _ hy)) (fun hd y hy => h2 hd y (List.mem_cons_of_mem _ hy))
    rw [List.map_cons, State.chkQ, s.chkLanded_none w _ (h1 x (List.mem_cons_self ..)), ih]
    unfold State.chkDead
    by_cases hd : s.me.dbgReg.getLsbD 1 = true
    · rw [h2 hd x (List.mem_cons_self ..)]; simp [orTest]
    · rw [show s.me.dbgReg.getLsbD 1 = false by simpa using hd]; rfl
/-- The operand tests of an EXE form pass when its operands are ready. -/
theorem ExeReady.chk {s : State} {o : ExeOps} (r : ExeReady s o) (w : Word) (test : Option Body) :
    orTest (s.chkV w (o.vs.map (·.1))) (orTest (s.chkP w o.ps) (orTest (s.chkQ w (o.qs.map (·.1))) (orTest test (stallUnless (s.me.exeRoom o.d))))) = test := by
  have hk := r.landed
  rw [s.chkV_none w o.vs (fun x hx hr => hk _ (by
      unfold ExeOps.keys
      exact List.mem_append_left _ (List.mem_append_left _ (List.mem_map.mpr ⟨x, List.mem_filter.mpr ⟨hx, by simpa using hr⟩, rfl⟩)))) r.aliveV,
    s.chkP_none w o.ps (fun x hx hr => hk _ (by
      unfold ExeOps.keys
      exact List.mem_append_left _ (List.mem_append_right _ (List.mem_map.mpr ⟨x, List.mem_filter.mpr ⟨hx, by simpa using hr⟩, rfl⟩)))),
    s.chkQ_none w o.qs (fun x hx => hk _ (by
      unfold ExeOps.keys
      exact List.mem_append_right _ (List.mem_map.mpr ⟨x, hx, rfl⟩))) r.aliveQ, r.room]
  cases test <;> rfl

/-! ### Issue -/

theorem State.freeV_core (s : State) (e : Word) (vs : List (BitVec 6 × Bool)) :
    CoreOnly s (s.freeV e vs) s.cur ∧ ∃ m, (s.freeV e vs).core s.cur = { s.core s.cur with deadV := m } ∧
      ∀ k, m.get none k = if ∃ y ∈ vs, y.2 = true ∧ y.1.toNat < 56 ∧ s.me.vIdx y.1 = k then some e else s.me.deadV.get none k := by
  induction vs generalizing s with
  | nil => exact ⟨.refl .., _, rfl, fun k => (if_neg (by rintro ⟨y, hy, -⟩; cases hy)).symm⟩
  | cons x vs ih =>
    obtain ⟨r, l⟩ := x
    rw [State.freeV]
    by_cases hl : (l && r.toNat < 56) = true
    · rw [if_pos hl]
      have hu : CoreOnly s (s.modCore s.cur fun c => { c with deadV := c.deadV.set none (c.vIdx r) (some e) }) s.cur := .modCore ..
      have hc : (s.modCore s.cur fun c => { c with deadV := c.deadV.set none (c.vIdx r) (some e) }).core s.cur
        = { s.core s.cur with deadV := (s.core s.cur).deadV.set none ((s.core s.cur).vIdx r) (some e) } := s.core_modCore_self ..
      obtain ⟨a, m, b, c⟩ := ih (s.modCore s.cur fun c => { c with deadV := c.deadV.set none (c.vIdx r) (some e) })
      rw [hu.cur] at a b
      have hme : (s.modCore s.cur fun c => { c with deadV := c.deadV.set none (c.vIdx r) (some e) }).me
        = { s.core s.cur with deadV := (s.core s.cur).deadV.set none ((s.core s.cur).vIdx r) (some e) } := by rw [State.me, hu.cur, hc]
      refine ⟨hu.trans a, m, by rw [b, hc], fun k => ?_⟩
      rw [c k, hme]
      simp only [Bool.and_eq_true, decide_eq_true_eq] at hl
      have hv : ∀ y : BitVec 6, Core.vIdx { s.core s.cur with deadV := (s.core s.cur).deadV.set none ((s.core s.cur).vIdx r) (some e) } y = s.me.vIdx y := fun _ => rfl
      simp only [hv]
      by_cases h1 : ∃ y ∈ vs, y.2 = true ∧ y.1.toNat < 56 ∧ s.me.vIdx y.1 = k
      · rw [if_pos h1, if_pos (by obtain ⟨y, hy, h⟩ := h1; exact ⟨y, List.mem_cons_of_mem _ hy, h⟩)]
      · rw [if_neg h1]
        by_cases h2 : s.me.vIdx r = k
        · rw [if_pos ⟨(r, l), List.mem_cons_self .., hl.1, hl.2, h2⟩]
          subst h2; exact SMap.get_set_self ..
        · rw [if_neg (by
            rintro ⟨y, hy, h⟩
            rcases List.mem_cons.mp hy with rfl | hy
            · exact h2 h.2.2
            · exact h1 ⟨y, hy, h⟩)]
          exact SMap.get_set_ne _ _ _ (fun h => h2 h.symm)
    · rw [if_neg hl]
      obtain ⟨a, m, b, c⟩ := ih s
      refine ⟨a, m, b, fun k => ?_⟩
      rw [c k]
      congr 1
      apply propext
      constructor
      · rintro ⟨y, hy, h⟩; exact ⟨y, List.mem_cons_of_mem _ hy, h⟩
      · rintro ⟨y, hy, h⟩
        rcases List.mem_cons.mp hy with rfl | hy
        · exact absurd (by rw [Bool.and_eq_true]; exact ⟨h.1, by simpa using h.2.1⟩) hl
        · exact ⟨y, hy, h⟩
theorem State.freeQ_core (s : State) (e : Word) (qs : List (BitVec 6 × Bool)) :
    CoreOnly s (s.freeQ e qs) s.cur ∧ ∃ m, (s.freeQ e qs).core s.cur = { s.core s.cur with deadQ := m } ∧
      ∀ k, m.get none k = if ∃ y ∈ qs, y.2 = true ∧ y.1.toNat = k then some e else s.me.deadQ.get none k := by
  induction qs generalizing s with
  | nil => exact ⟨.refl .., _, rfl, fun k => (if_neg (by rintro ⟨y, hy, -⟩; cases hy)).symm⟩
  | cons x qs ih =>
    obtain ⟨r, l⟩ := x
    rw [State.freeQ]
    by_cases hl : l = true
    · rw [if_pos hl]
      have hu : CoreOnly s (s.modCore s.cur fun c => { c with deadQ := c.deadQ.set none r.toNat (some e) }) s.cur := .modCore ..
      have hc : (s.modCore s.cur fun c => { c with deadQ := c.deadQ.set none r.toNat (some e) }).core s.cur
        = { s.core s.cur with deadQ := (s.core s.cur).deadQ.set none r.toNat (some e) } := s.core_modCore_self ..
      obtain ⟨a, m, b, c⟩ := ih (s.modCore s.cur fun c => { c with deadQ := c.deadQ.set none r.toNat (some e) })
      rw [hu.cur] at a b
      have hme : (s.modCore s.cur fun c => { c with deadQ := c.deadQ.set none r.toNat (some e) }).me
        = { s.core s.cur with deadQ := (s.core s.cur).deadQ.set none r.toNat (some e) } := by rw [State.me, hu.cur, hc]
      refine ⟨hu.trans a, m, by rw [b, hc], fun k => ?_⟩
      rw [c k, hme]
      by_cases h1 : ∃ y ∈ qs, y.2 = true ∧ y.1.toNat = k
      · rw [if_pos h1, if_pos (by obtain ⟨y, hy, h⟩ := h1; exact ⟨y, List.mem_cons_of_mem _ hy, h⟩)]
      · rw [if_neg h1]
        by_cases h2 : r.toNat = k
        · rw [if_pos ⟨(r, l), List.mem_cons_self .., hl, h2⟩]; subst h2; dsimp only; exact SMap.get_set_self ..
        · rw [if_neg (by
            rintro ⟨y, hy, h⟩
            rcases List.mem_cons.mp hy with rfl | hy
            · exact h2 h.2
            · exact h1 ⟨y, hy, h⟩)]
          dsimp only; exact SMap.get_set_ne _ _ _ (fun h => h2 h.symm)
    · rw [if_neg hl]
      obtain ⟨a, m, b, c⟩ := ih s
      refine ⟨a, m, b, fun k => ?_⟩
      rw [c k]
      congr 1
      apply propext
      constructor
      · rintro ⟨y, hy, h⟩; exact ⟨y, List.mem_cons_of_mem _ hy, h⟩
      · rintro ⟨y, hy, h⟩
        rcases List.mem_cons.mp hy with rfl | hy
        · exact absurd h.1 hl
        · exact ⟨y, hy, h⟩
theorem foldl_setAvail (ks : List Nat) (av : Nat) (m : SMap Nat) (k : Nat) :
    (ks.foldl (fun m k => m.set 0 k av) m).get 0 k = if k ∈ ks then av else m.get 0 k := by
  induction ks generalizing m with
  | nil => simp
  | cons a ks ih =>
    rw [List.foldl_cons, ih, SMap.get_set]
    by_cases h : k = a
    · subst h; simp
    · simp [h]

/-- An EXE word issues. -/
theorem exeWord_ran {s : State} {h : Hdr} {guard lat : BitVec 4} {o : ExeOps} {bits : Nat} {extra : Word} {es : List (Nat × QEnt)} {c' : Core}
    (m : EngMay s .exe h guard (exePops (o.vs.map (·.1))) bits extra es c') (r : ExeReady s o) (w : Word) (test : Word → Option Body)
    (ht : test (s.engCrd .exe h es bits extra) = none) (f : Word → List Vec → List ExeEff) (post : List OBit → State → State)
    (pf : List OBit → EngSt → EngSt)
    (hp : ∀ bs u, u.cur = s.cur → (u.core s.cur).cw = s.me.cw → CoreOnly u (post bs u) s.cur ∧
      (post bs u).core s.cur = { u.core s.cur with exe := pf bs (u.core s.cur).exe }) :
    ∃ t x base, exeWord h w guard lat o bits extra test f post s = .next t ∧
      x.effs = f (s.engCrd .exe h es bits extra) (exeVals s (o.vs.map (·.1)) (es.map (·.2))) ∧
      ExeCore s (c'.dropBits .exe bits) base h (s.engCrd .exe h es bits extra) lat o x ∧
      EngRan s t .exe { h with sig := 0 } (s.engCrd .exe h es bits extra) base [] (pf (s.me.boqA.take bits)) s := by
  have e1 : ∀ e, orTest (s.chkV w (o.vs.map (·.1))) (orTest (s.chkP w o.ps) (orTest (s.chkQ w (o.qs.map (·.1))) (orTest (test e) (stallUnless (s.me.exeRoom o.d))))) = test e :=
    fun e => r.chk w (test e)
  obtain ⟨s1, i, hx⟩ := engWord_exit m w (fun e => orTest (s.chkV w (o.vs.map (·.1))) (orTest (s.chkP w o.ps) (orTest (s.chkQ w (o.qs.map (·.1))) (orTest (test e) (stallUnless (s.me.exeRoom o.d))))))
    (by rw [e1]; exact ht)
    (fun e es bs id s' => .quiet (post bs (((s'.freeV e o.vs).freeQ e o.qs).exePut h e s.me.exe.ring.head id lat o.fault (f e (exeVals s (o.vs.map (·.1)) es)))))
  generalize hE : s.engCrd .exe h es bits extra = e at *
  have hcur : s1.cur = s.cur := i.only.cur
  obtain ⟨-, -, peng, ptask, phold⟩ := m.popped
  have fr := popAll_frame _ _ _ _ _ m.taken
  have fd := c'.dropBits_frame .exe bits
  obtain ⟨hq, ha, hdV, hdQ, hrot⟩ : (c'.dropBits .exe bits).exeQ = s.me.exeQ ∧ (c'.dropBits .exe bits).exeAvail = s.me.exeAvail ∧
      (c'.dropBits .exe bits).deadV = s.me.deadV ∧ (c'.dropBits .exe bits).deadQ = s.me.deadQ ∧ (c'.dropBits .exe bits).exe = s.me.exe := by
    rw [fd, fr]; exact ⟨rfl, rfl, rfl, rfl, rfl⟩
  have hcore1 := i.core
  have heng1 : (s1.core s.cur).exe = { s.me.exe with elast := e, iss := (s1.core s.cur).exe.iss, before := (s1.core s.cur).exe.before } := by have := i.eng; rw [peng] at this; exact this
  have hme1 : s1.me = s1.core s.cur := by rw [State.me, hcur]
  obtain ⟨cV, mV, hV, gV⟩ := s1.freeV_core e o.vs
  obtain ⟨cQ, mQ, hQ, gQ⟩ := (s1.freeV e o.vs).freeQ_core e o.qs
  have hv1 : (s1.freeV e o.vs).me = { s1.core s.cur with deadV := mV } := by rw [State.me, cV.cur, hcur, ← hcur, hV, hcur]
  rw [cV.cur, hcur] at cQ hQ
  rw [hcur] at cV hV
  have hvIdx : ∀ y, s1.me.vIdx y = s.me.vIdx y := fun y => by
    unfold Core.vIdx; rw [hme1]; rw [heng1]
  have hd1 : s1.me.deadV = s.me.deadV := by rw [hme1, hcore1, ← hdV]; rfl
  have hd2 : (s1.freeV e o.vs).me.deadQ = s.me.deadQ := by rw [hv1, hcore1, ← hdQ]; rfl
  simp only [hvIdx, hd1] at gV
  rw [hd2] at gQ
  generalize hu : (s1.freeV e o.vs).freeQ e o.qs = u at *
  rw [hV] at hQ
  have hucur : u.cur = s.cur := by rw [cQ.cur]; exact cV.cur.trans hcur
  have hcy : u.cycle = s.cycle := by rw [cQ.cycle, cV.cycle, i.only.cycle]
  let fs := f e (exeVals s (o.vs.map (·.1)) (es.map (·.2)))
  let x : ExeOp := { e := e, sig := h.sig, slot := s.me.exe.ring.head, id := s.nextId, avail := u.cycle + latBound lat, effs := fs, fault := o.fault }
  let av := (fs.filterMap ExeEff.key).foldl (fun m k => m.set 0 k (u.cycle + latBound lat)) s.me.exeAvail
  let v := u.exePut h e s.me.exe.ring.head s.nextId lat o.fault fs
  have hvc : v.core s.cur = { u.core s.cur with exeQ := (u.core s.cur).exeQ ++ [x], exeAvail := (fs.filterMap ExeEff.key).foldl (fun m k => m.set 0 k (u.cycle + latBound lat)) (u.core s.cur).exeAvail } := by
    show (u.modCore u.cur _).core s.cur = _
    rw [hucur, State.core_modCore_self]
  have hvo : CoreOnly u v u.cur := by
    show CoreOnly u (u.exePut h e s.me.exe.ring.head s.nextId lat o.fault fs) u.cur
    unfold State.exePut
    exact CoreOnly.modCore ..
  rw [hucur] at hvo
  have hvcur : v.cur = s.cur := hvo.cur.trans hucur
  have hux : (u.core s.cur).exeQ = s.me.exeQ ∧ (u.core s.cur).exeAvail = s.me.exeAvail ∧ (u.core s.cur).cw = s.me.cw ∧ (u.core s.cur).exe = (s1.core s.cur).exe := by
    have ht : (u.core s.cur).task = s.me.task := by rw [hQ, hcore1]; exact ptask
    refine ⟨by rw [hQ, hcore1, ← hq]; rfl, by rw [hQ, hcore1, ← ha]; rfl, by unfold Core.cw; rw [ht], by rw [hQ]⟩
  obtain ⟨po, pc⟩ := hp ((s.me.boq .exe).take bits) v hvcur (by rw [hvc]; exact hux.2.2.1)
  have ef : EngEff s s1 (post ((s.me.boq .exe).take bits) v) .exe s.cur 0
      { c'.dropBits .exe bits with exeQ := s.me.exeQ ++ [x], exeAvail := av, deadV := mV, deadQ := mQ } [] (pf ((s.me.boq .exe).take bits)) := by
    refine ⟨((i.only.trans (cV.trans cQ)).trans hvo).trans po, ?_, fun j _ => ?_, ?_⟩
    · rw [pc, hvc, hux.1, hux.2.1]
      rw [show (Core.exe { u.core s.cur with exeQ := s.me.exeQ ++ [x], exeAvail := (fs.filterMap ExeEff.key).foldl (fun m k => m.set 0 k (u.cycle + latBound lat)) s.me.exeAvail }) = (s1.core s.cur).exe from hux.2.2.2]
      rw [hQ, hcore1]; rfl
    · rw [pc, hvc, hQ]
    · rw [pc, hvc, hQ]; exact Nat.le_refl _
  obtain ⟨-, hquiet⟩ := hx _ s 0 _ [] _ (by omega) (by show (c'.dropBits .exe bits).hold.length ≤ 128; rw [phold]; have := m.room; omega)
    (by exact ptask) (.inr (by simp)) rfl ef
  obtain ⟨t, ht2, -, ran⟩ := hquiet rfl
  refine ⟨t, x, _, ht2, rfl, ?_, ran⟩
  refine ⟨rfl, rfl, rfl, by show u.cycle + _ = _; rw [hcy], rfl, rfl, fun k => ?_, gV, gQ, fun _ => rfl, rfl⟩
  show (((fs.filterMap ExeEff.key).foldl (fun m k => m.set 0 k (u.cycle + latBound lat)) s.me.exeAvail)).get 0 k = _
  rw [foldl_setAvail, hcy]
  congr 1
  simp [List.mem_filterMap, List.mem_map]; rfl

/-! ### Lanes -/

theorem packLanes_lane (w : Nat) (xs : List Nat) (i : Nat) : packLanes w xs / 2 ^ (8 * w * i) % 2 ^ (8 * w) = xs.getD i 0 % 2 ^ (8 * w) := by
  induction xs generalizing i with
  | nil => simp [packLanes]
  | cons x xs ih =>
    have hp := Nat.two_pow_pos (8 * w)
    cases i with
    | zero => simp [packLanes]
    | succ i =>
      rw [show 8 * w * (i + 1) = 8 * w + 8 * w * i by ring, Nat.pow_add, ← Nat.div_div_eq_div_mul, packLanes,
        Nat.add_mul_div_left _ _ hp, Nat.div_eq_of_lt (Nat.mod_lt _ hp), Nat.zero_add, ih i]
      simp
theorem packLanes_lt (w : Nat) (xs : List Nat) : packLanes w xs < 2 ^ (8 * w * xs.length) := by
  induction xs with
  | nil => simp [packLanes]
  | cons x xs ih =>
    have hp := Nat.two_pow_pos (8 * w)
    have h1 := Nat.mod_lt x hp
    rw [List.length_cons, show 8 * w * (xs.length + 1) = 8 * w + 8 * w * xs.length by ring, Nat.pow_add, packLanes]
    calc x % 2 ^ (8 * w) + 2 ^ (8 * w) * packLanes w xs < 2 ^ (8 * w) + 2 ^ (8 * w) * packLanes w xs := by omega
      _ = 2 ^ (8 * w) * (packLanes w xs + 1) := by ring
      _ ≤ _ := Nat.mul_le_mul_left _ ih
/-- Lane `i` of a vector from lanes. -/
theorem ofLanes_lane (w : Nat) (xs : List Nat) (i : Nat) (h : 8 * w * xs.length ≤ 2048) : vLane (ofLanes w xs) w i = xs.getD i 0 % 2 ^ (8 * w) := by
  unfold vLane ofLanes
  rw [BitVec.extractLsb'_toNat, BitVec.toNat_ofNat, Nat.shiftRight_eq_div_pow,
    Nat.mod_eq_of_lt (Nat.lt_of_lt_of_le (packLanes_lt w xs) (Nat.pow_le_pow_right (by omega) h)), packLanes_lane]
theorem foldl_or_bit (fs : List Flags) (f : Flags) (b : Nat) : (fs.foldl (· ||| ·) f).getLsbD b = true ↔ f.getLsbD b = true ∨ ∃ g ∈ fs, g.getLsbD b = true := by
  induction fs generalizing f with
  | nil => simp
  | cons g fs ih => rw [List.foldl_cons, ih]; simp [or_assoc]
/-- Lanes that a form computes are a result lane by lane. -/
theorem lanesOf_res (c : Core) (d : BitVec 6) (e : Word) (w : Nat) (g : Nat → Nat × Flags) :
    LaneRes c d e w g (c.outF d e (lanesOf w (256 / w) g)) := by
  refine ⟨_, _, rfl, fun i hi => ?_, fun b => ?_⟩
  · unfold lanesOf
    dsimp only
    rw [ofLanes_lane _ _ _ (by
      have := Nat.mul_div_le 256 w
      simp only [List.length_map, List.length_range]
      rw [Nat.mul_assoc]; omega)]
    simp [hi]
  · unfold lanesOf
    dsimp only
    rw [foldl_or_bit]
    simp
theorem ofLanes_out (c : Core) (d : BitVec 6) (e : Word) (w : Nat) (g : Nat → Nat) :
    LaneOut c d e w g (c.outV d e (ofLanes w ((List.range (256 / w)).map g))) := by
  refine ⟨_, rfl, fun i hi => ?_⟩
  rw [ofLanes_lane _ _ _ (by
      have := Nat.mul_div_le 256 w
      simp only [List.length_map, List.length_range]
      rw [Nat.mul_assoc]; omega)]
  simp [hi]

end Sys2Proof.Machine
end

