-- ==== Sys2Proof/Laws/Scalar.lean ====
section
/-! SUPPORT. The shared operations of control-core words over s registers: what each of them does when its word may issue. -/

set_option Elab.async false

namespace Sys2Proof.Machine

/-- What an operation on core `n` inside a word's effect leaves: the frame, PC and tokens stand, and at most `k` log entries are written. -/
structure CcStep (a b : State) (n k : Nat) : Prop where
  only : CoreOnly a b n
  frame : CcFrame (a.core n) (b.core n)
  pc : (b.core n).pc = (a.core n).pc
  tok : (b.core n).tok = (a.core n).tok
  log : (b.core n).peel.length ≤ (a.core n).peel.length + k

theorem CcStep.refl (s : State) (n k : Nat) : CcStep s s n k := ⟨.refl s n, rfl, rfl, rfl, by omega⟩
theorem CcStep.trans {a b c : State} {n k l : Nat} (x : CcStep a b n k) (y : CcStep b c n l) : CcStep a c n (k + l) :=
  ⟨x.only.trans y.only, x.frame.trans y.frame, y.pc.trans x.pc, y.tok.trans x.tok, by have := x.log; have := y.log; omega⟩
/-- An operation of a word that has issued is an effect with the PC behind the word. -/
theorem CcIssued.eff {s s1 s2 : State} {e : Word} {ts : List (Nat × Nat)} {srcs : List (BitVec 6 × Bool)} {k : Nat}
    (i : CcIssued s s1 e ts srcs) (x : CcStep s1 s2 s.cur k) : CcEff s s1 s2 s.cur k s.me [] (s.me.pc + 8) :=
  ⟨i.only.trans x.only, i.frame.trans x.frame, x.pc.trans i.pc, fun _ _ => by rw [x.tok], x.log⟩
theorem State.log_step (s : State) (n : Nat) (p : Peel) : CcStep s (s.log n p) n 1 := by
  unfold State.log
  split
  · exact ⟨.modCore .., by simp only [CcFrame, State.core_modCore_self], by simp, by simp, by simp⟩
  · exact .refl s n 1
theorem State.log_s (s : State) (n : Nat) (p : Peel) : ((s.log n p).core n).s = (s.core n).s := by
  unfold State.log; split <;> simp
/-- R318, R321: a write of an s register. -/
theorem State.wrSOf_step (s : State) (n : Nat) (d : BitVec 6) (e v : Word) :
    CcStep s (s.wrSOf n d e v) n 1 ∧ Wrote (s.core n) ((s.wrSOf n d e v).core n) d v := by
  unfold State.wrSOf
  by_cases hd : d = 0
  · subst hd
    exact ⟨by simpa using CcStep.refl s n 1, fun r _ => by simp, fun h => absurd rfl h, fun _ => by simp⟩
  · have hb : (d == 0) = false := by simpa using hd
    simp only [hb, Bool.false_eq_true, if_false]
    have x : CcStep s (s.log4 n d.toNat e ((s.core n).s.get 0 d.toNat)) n 1 := s.log_step n _
    have hs : ((s.log4 n d.toNat e ((s.core n).s.get 0 d.toNat)).core n).s = (s.core n).s := s.log_s n _
    refine ⟨x.trans (l := 0) ⟨.modCore .., ?_, ?_, ?_, ?_⟩, fun r hr => ?_, fun _ => ?_, fun h => absurd h hd⟩
    · simp only [CcFrame, State.core_modCore_self]
    · simp only [State.core_modCore_self]
    · simp only [State.core_modCore_self]
    · simp only [State.core_modCore_self]; exact Nat.le_refl _
    · simp only [State.core_modCore_self]; rw [hs]; exact SMap.get_set_ne _ _ _ hr
    · simp only [State.core_modCore_self]; exact SMap.get_set_self ..

/-- A write carries over retirement and the issue before it. -/
theorem Wrote.through {s s1 s2 t : State} {e : Word} {ts : List (Nat × Nat)} {srcs : List (BitVec 6 × Bool)} {d : BitVec 6} {v : Word}
    {sig : BitVec 8} (i : CcIssued s s1 e ts srcs) (w : Wrote (s1.core s.cur) (s2.core s.cur) d v) (r : Retired s2 t s.cur sig) :
    Wrote s.me (t.core s.cur) d v := by
  have h2 : (t.core s.cur).s = (s2.core s.cur).s := by rw [r.core]
  refine ⟨fun x hx => ?_, fun hx => ?_, fun hx => ?_⟩
  · rw [h2, w.1 x hx, i.regs]
  · rw [h2, w.2.1 hx]
  · rw [h2, w.2.2 hx, i.regs]

/-- A word that writes one s register, whatever else its effect computes. -/
theorem ccWrite_ran {s : State} {h : Hdr} {srcs : List (BitVec 6 × Bool)} {extra : Word} (m : CcMay s h srcs [] extra) (w : Word)
    (d : BitVec 6) (v : Word) (body : Word → State → Body)
    (hb : ∀ e s1, CcIssued s s1 e (waitPresent (s.me.waitVal h) ++ []) srcs → body e s1 = .done (s1.wrS d e v)) :
    ∃ t, ccWordAt extra h w srcs [] body s = .next t ∧ CcPlain s t h ∧ Wrote s.me (t.core s.cur) d v := by
  have hroom := m.room
  obtain ⟨s1, s2, t, i, hd, _, r, hn, ran⟩ := ccDone_ran m w body (k := 1) (base := s.me) (tx := []) (p := s.me.pc + 8) (s0 := s)
    (by omega) (by omega) (.inr (by simp)) rfl fun s1 i => ⟨_, hb _ s1 i, by
      refine i.eff ?_; rw [State.wrS, i.only.cur]; exact (s1.wrSOf_step s.cur d _ v).1⟩
  refine ⟨t, hn, ran, ?_⟩
  have hs2 : s2 = s1.wrSOf s.cur d (s.ccCrd h [] extra) v := by
    rw [hb _ s1 i] at hd; injection hd with hd; rw [← hd, State.wrS, i.only.cur]
  exact .through i (hs2 ▸ (s1.wrSOf_step s.cur d (s.ccCrd h [] extra) v).2) r
/-- A word that computes one s register writes it, and nothing else. -/
theorem ccAlu_ran {s : State} {h : Hdr} {srcs : List (BitVec 6 × Bool)} (m : CcMay s h srcs [] 0) (w : Word) (d : BitVec 6) (v : Word) :
    ∃ t, ccAlu h w srcs d v s = .next t ∧ CcPlain s t h ∧ Wrote s.me (t.core s.cur) d v :=
  ccWrite_ran m w d v _ fun _ _ _ => rfl

/-- A word that changes its core or the device beside it by `f`, and no s register. -/
theorem ccDo_ran {s s0 : State} {h : Hdr} {srcs : List (BitVec 6 × Bool)} {toks : List (Nat × Nat)} {extra : Word} (m : CcMay s h srcs toks extra)
    (w : Word) (body : Word → State → Body) {k : Nat} {base : Core} {tx : List Nat} {p : Word} (hk : k ≤ 8) (hh : base.hold.length ≤ 128)
    (hx : h.sig = 0 ∨ h.sig.toNat ∉ tx) (hs0 : s0.cur = s.cur)
    (hb : ∀ s1, CcIssued s s1 (s.ccCrd h toks extra) (waitPresent (s.me.waitVal h) ++ toks) srcs →
      ∃ s2, body (s.ccCrd h toks extra) s1 = .done s2 ∧ CcEff s0 s1 s2 s.cur k base tx p ∧ (s2.core s.cur).s = s.me.s) :
    ∃ t, ccWordAt extra h w srcs toks body s = .next t ∧ CcRan s t h toks base tx p s0 ∧ (t.core s.cur).s = s.me.s := by
  obtain ⟨s1, s2, t, i, hd, _, r, hn, ran⟩ := ccDone_ran m w body hk hh hx hs0 fun s1 i =>
    let ⟨s2, hd, ef, _⟩ := hb s1 i; ⟨s2, hd, ef⟩
  obtain ⟨s3, h3, -, hs⟩ := hb s1 i
  rw [h3] at hd; injection hd with hd; subst hd
  exact ⟨t, hn, ran, by rw [r.core]; exact hs⟩
/-- A word that only waits, consumes and signals. -/
theorem ccNop_ran {s : State} {h : Hdr} {toks : List (Nat × Nat)} (m : CcMay s h [] toks 0) (w : Word) :
    ∃ t, ccWord h w [] toks (fun _ s' => .done s') s = .next t ∧ CcRan s t h toks s.me [] (s.me.pc + 8) s ∧ (t.core s.cur).s = s.me.s :=
  ccDo_ran m w _ (k := 0) (by omega) (by have := m.room; omega) (.inr (by simp)) rfl fun s1 i => ⟨s1, rfl, i.eff (.refl ..), i.regs⟩

/-- R326: a division writes its result, and sets DIVZERO when the divisor is zero. -/
theorem ccDiv_ran {s : State} {h : Hdr} {srcs : List (BitVec 6 × Bool)} (m : CcMay s h srcs [] 0) (w : Word) (d : BitVec 6) (b v : Word) :
    ∃ t, ccDiv h w srcs d b v s = .next t ∧
      CcRan s t h [] { s.me with flags := s.me.flags ||| (if b = 0 then 0x02 else 0) } [] (s.me.pc + 8) s ∧ Wrote s.me (t.core s.cur) d v := by
  have hroom := m.room
  have step : ∀ s1, CcIssued s s1 (s.ccCrd h [] 0) (waitPresent (s.me.waitVal h) ++ []) srcs →
      ∃ u, (if b == 0 then s1.setFlags s.cur 0x02 else s1) = u ∧ CoreOnly s1 u s.cur ∧
        u.core s.cur = { s1.core s.cur with flags := (s1.core s.cur).flags ||| (if b = 0 then 0x02 else 0) } := by
    intro s1 i
    by_cases hb : b = 0
    · exact ⟨s1.setFlags s.cur 0x02, by simp [hb], .modCore .., by simp [hb, State.setFlags]⟩
    · have hz : (s1.core s.cur).flags ||| (if b = 0 then 0x02 else 0) = (s1.core s.cur).flags := by rw [if_neg hb]; exact BitVec.or_zero
      exact ⟨s1, by rw [if_neg (by simpa using hb)], .refl .., by rw [hz]⟩
  obtain ⟨s1, s2, t, i, hd, _, r, hn, ran⟩ := ccDone_ran m w
    (fun e s' => .done (((if b == 0 then s'.setFlags s.cur 0x02 else s')).wrS d e v)) (k := 1)
    (base := { s.me with flags := s.me.flags ||| (if b = 0 then 0x02 else 0) }) (tx := []) (p := s.me.pc + 8) (s0 := s)
    (by omega) (by show s.me.hold.length ≤ 128; omega) (.inr (by simp)) rfl fun s1 i => by
      obtain ⟨u, hu, ho, hc⟩ := step s1 i
      have hcur : u.cur = s.cur := ho.cur.trans i.only.cur
      refine ⟨_, rfl, ?_⟩
      rw [hu, State.wrS, hcur]
      have x := (u.wrSOf_step s.cur d (s.ccCrd h [] 0) v).1
      refine ⟨(i.only.trans ho).trans x.only, CcFrame.trans ?_ x.frame, ?_, fun j _ => by rw [x.tok, hc], ?_⟩
      · have := i.frame; unfold CcFrame at *; rw [hc, this]
      · rw [x.pc, hc]; exact i.pc
      · have := x.log; rw [hc] at this; exact this
  refine ⟨t, hn, ran, ?_⟩
  obtain ⟨u, hu, ho, hc⟩ := step s1 i
  have hcur : u.cur = s.cur := ho.cur.trans i.only.cur
  have hs2 : s2 = u.wrSOf s.cur d (s.ccCrd h [] 0) v := by
    injection hd with hd; rw [← hd, hu, State.wrS, hcur]
  have w2 := (u.wrSOf_step s.cur d (s.ccCrd h [] 0) v).2
  rw [← hs2, hc] at w2
  exact .through i w2 r

/-- A word whose effect raises with restart "before". -/
theorem ccFault_ran {s : State} {h : Hdr} {srcs : List (BitVec 6 × Bool)} {toks : List (Nat × Nat)} {extra : Word} (m : CcMay s h srcs toks extra)
    (w : Word) (body : Word → State → Body) (code : BitVec 8) (val : Word)
    (hb : ∀ s1, CcIssued s s1 (s.ccCrd h toks extra) (waitPresent (s.me.waitVal h) ++ toks) srcs → body (s.ccCrd h toks extra) s1 = .fault code val) :
    ccWordAt extra h w srcs toks body s = .next (s.raise s.cur .cc code val (s.ccCrd h toks extra) true 0) := by
  rw [ccWordAt_go m w body, hb _ (s.ccIssue_issued _ _ (s.ccIds h toks) srcs m.need)]; rfl

end Sys2Proof.Machine
end

