-- ==== Sys2Proof/Laws/Hold.lean ====
section
/-! SUPPORT. Words of the control core whose effect enters the egress hold (R258, R319): one lemma for all of them. -/

set_option Elab.async false

namespace Sys2Proof.Machine

theorem CoreOnly.flying {s t : State} {n : Nat} (a : CoreOnly s t n) (x : Held) (k : Nat) :
    CoreOnly { s with flying := s.flying ++ [x] } { t with nextId := k, flying := t.flying ++ [x] } n := ⟨by rw [a.1], a.2⟩
theorem CoreOnly.nextId {s t : State} {n : Nat} (a : CoreOnly s t n) (k : Nat) : CoreOnly s { t with nextId := k } n := ⟨by rw [a.1], a.2⟩

/-- Placing an effect, with the number it receives and the core that it belongs to filled in (R258, R323, R120). -/
theorem State.place_held (s : State) (y x : Held)
    (h : x = { y with id := s.nextId, core := s.cur, cid := s.me.cid, inc := s.me.inc }) :
    CoreOnly (s.withHeld x) (s.place s.cur y) s.cur ∧ (s.place s.cur y).core s.cur =
      { s.me with hold := if isSup s.cur then s.me.hold else s.me.hold ++ [x],
                  spawnSlot := if isSup s.cur && x.act.isSpawn then some x else s.me.spawnSlot } := by
  have hsp : (match y.act with | .spawn .. => true | _ => false) = x.act.isSpawn := by subst h; rfl
  have hp : s.place s.cur y = if !isSup s.cur then ({ s with nextId := s.nextId + 1 } : State).modCore s.cur fun c => { c with hold := c.hold ++ [x] }
      else if x.act.isSpawn then ({ s with nextId := s.nextId + 1 } : State).modCore s.cur fun c => { c with spawnSlot := some x }
      else { s with nextId := s.nextId + 1, flying := s.flying ++ [x] } := by
    subst h; rfl
  rw [hp]
  unfold State.withHeld
  have a := (CoreOnly.refl s s.cur).nextId (s.nextId + 1)
  have hc : State.core { s with nextId := s.nextId + 1 } s.cur = s.me := rfl
  cases isSup s.cur <;> cases x.act.isSpawn <;>
    simp only [Bool.not_true, Bool.not_false, Bool.and_true, Bool.and_false, Bool.false_eq_true, if_true, if_false]
  case true.false => exact ⟨(CoreOnly.refl s s.cur).flying x _, rfl⟩
  all_goals exact ⟨a.trans (.modCore ..), by rw [State.core_modCore_self, hc]⟩

/-- What holding an effect leaves: it stands in the hold, or on a supervisor core among the operations in flight or in the pending-spawn slot. -/
theorem State.ccHold_eff {s s1 : State} {e0 : Word} {h : Hdr} {ts : List (Nat × Nat)} {srcs : List (BitVec 6 × Bool)} (i : CcIssued s s1 e0 ts srcs)
    (hb : s1.me.cc.before = s.ccBefore h) (e w : Word) (sig : BitVec 8) (a : Act) (rel acq : Option (BitVec 3)) (d : BitVec 6) :
    ∃ x, HeldAs s h x e sig a rel acq ∧
      CcEff (s.withHeld x) s1 ((s1.ccHold e w sig a rel acq).await d s1.placedId) s.cur 0 (s.heldBase x) [] (s.me.pc + 8) ∧
      (((s1.ccHold e w sig a rel acq).await d s1.placedId).core s.cur).s = s.me.s ∧
      (d ≠ 0 → (((s1.ccHold e w sig a rel acq).await d s1.placedId).core s.cur).sPend.get 0 d.toNat = x.id) := by
  have hc1 : s1.cur = s.cur := i.only.cur
  have hpc : s1.me.pc - 8 = s.me.pc := by rw [i.core]; exact BitVec.add_sub_cancel ..
  obtain ⟨hcid, hinc, hfr, hbars, hhold, hslot⟩ : s1.me.cid = s.me.cid ∧ s1.me.inc = s.me.inc ∧ s1.me.frels = s.me.frels ∧
      s1.me.bars = s.me.bars ∧ s1.me.hold = s.me.hold ∧ s1.me.spawnSlot = s.me.spawnSlot := by
    rw [i.core]; exact ⟨rfl, rfl, rfl, rfl, rfl, rfl⟩
  obtain ⟨y, hy⟩ : ∃ y : Held, y = { eng := .cc, e := e, act := a, sig := sig, w := w, pc := s1.me.pc - 8, acq := acq,
                                     after := s1.me.barAll, rel := s1.me.relNeeds rel } := ⟨_, rfl⟩
  obtain ⟨x, hx⟩ : ∃ x : Held, x = { y with id := s1.nextId, core := s1.cur, cid := s1.me.cid, inc := s1.me.inc } := ⟨_, rfl⟩
  have hacq : x.acq = acq := by rw [hx, hy]
  have hid : x.id = s1.nextId := by rw [hx]
  have hxe : x.e = e := by rw [hx, hy]
  obtain ⟨po, pc⟩ := s1.place_held y x hx
  have hw : CoreOnly (s.withHeld x) (s1.withHeld x) s.cur := by
    unfold State.withHeld; rw [hc1]
    split
    · exact ⟨by rw [i.only.1], i.only.2⟩
    · exact i.only
  obtain ⟨u, hu, ho, hcu, hcore⟩ : ∃ u, s1.ccHold e w sig a rel acq = u ∧ CoreOnly (s.withHeld x) u s.cur ∧ u.cur = s.cur ∧
      u.core s.cur = { s1.me with hold := if isSup s.cur then s1.me.hold else s1.me.hold ++ [x],
                                  spawnSlot := if isSup s.cur && x.act.isSpawn then some x else s1.me.spawnSlot,
                                  cc := { s1.me.cc with before := mergeIds s1.me.cc.before [s1.nextId] },
                                  bars := if acq.isSome then s1.me.bars ++ [{ e := e, id := s1.nextId, ids := [s1.nextId] }] else s1.me.bars } := by
    have hdef : s1.ccHold e w sig a rel acq = (s1.place s1.cur y).modCore s1.cur fun c =>
        { c with cc := { c.cc with before := mergeIds c.cc.before [s1.nextId] },
                 bars := if acq.isSome then c.bars ++ [{ e := e, id := s1.nextId, ids := [s1.nextId] }] else c.bars } := by
      rw [hy]; rfl
    rw [hc1] at po pc hdef
    have := (hw.trans po).cur
    refine ⟨_, hdef, (hw.trans po).trans (.modCore ..), ?_, ?_⟩
    · rw [State.modCore_cur, this]; unfold State.withHeld; split <;> rfl
    · rw [State.core_modCore_self, pc]
  have aw : ∃ v, u.await d s1.placedId = v ∧ CoreOnly (s.withHeld x) v s.cur ∧
      v.core s.cur = { u.core s.cur with sPend := (v.core s.cur).sPend } ∧ (d ≠ 0 → (v.core s.cur).sPend.get 0 d.toNat = s1.nextId) := by
    unfold State.await
    by_cases hd : d = 0
    · subst hd; exact ⟨u, rfl, ho, rfl, fun h => absurd rfl h⟩
    · have hb : (d == 0) = false := by simpa using hd
      refine ⟨_, rfl, ?_, ?_, fun _ => ?_⟩
      · simp only [hb, Bool.false_eq_true, if_false, hcu]; exact ho.trans (.modCore ..)
      · simp only [hb, Bool.false_eq_true, if_false, hcu, State.core_modCore_self]
      · simp only [hb, Bool.false_eq_true, if_false, hcu, State.core_modCore_self, SMap.get_set_self]; rfl
  obtain ⟨v, hv, hvo, hvc, hvp⟩ := aw
  refine ⟨x, ⟨by rw [hx, hy], hxe, by rw [hx, hy], by rw [hx, hy], by rw [hx, hc1], ⟨by rw [hx, ← hcid], by rw [hx, ← hinc]⟩,
    by rw [hx, hy]; exact hpc, hacq, ?_, ?_⟩, ?_, ?_, ?_⟩
  · rw [hx, hy]; unfold Core.relNeeds; rw [hb, hfr]
  · rw [hx, hy]; unfold Core.barAll; rw [hbars]
  · rw [hu, hv]
    refine ⟨hvo, ?_, ?_, fun j _ => ?_, ?_⟩
    · unfold CcFrame State.heldBase
      rw [hvc, hcore, hhold, hbars, hslot, hacq, hid, hxe, i.core]
    · rw [hvc, hcore, i.core]
    · rw [hvc, hcore, i.here]
    · rw [hvc, hcore, i.here]; exact Nat.le_refl _
  · rw [hu, hv, hvc, hcore, i.core]
  · rw [hu, hv, hid]; exact hvp

/-- A word whose effect enters the egress hold. -/
theorem ccHold_ran {s : State} {h : Hdr} {srcs : List (BitVec 6 × Bool)} (m : CcMay s h srcs [] 0) (w w2 : Word) (body : Word → State → Body)
    (sig : BitVec 8) (a : Act) (rel acq : Option (BitVec 3)) (d : BitVec 6) (now : BitVec 8)
    (hb : ∀ s1, CcIssued s s1 (s.ccCrd h [] 0) (waitPresent (s.me.waitVal h) ++ []) srcs →
      retires (body (s.ccCrd h [] 0) s1) ((s1.ccHold (s.ccCrd h [] 0) w2 sig a rel acq).await d s1.placedId) now h) :
    ∃ t x, ccWord h w srcs [] body s = .next t ∧ HeldAs s h x (s.ccCrd h [] 0) sig a rel acq ∧
      CcRan s t { h with sig := now } [] (s.heldBase x) [] (s.me.pc + 8) (s.withHeld x) ∧ (t.core s.cur).s = s.me.s ∧
      (d ≠ 0 → (t.core s.cur).sPend.get 0 d.toNat = x.id) := by
  have hroom := m.room
  obtain ⟨s1, i, hbf, hx⟩ := ccWordAt_exit m w body
  have hids : s.ccIds h [] = s.me.waitIds (s.me.waitVal h) := by simp [State.ccIds, mergeIds]
  obtain ⟨x, hh, ef, hs, hp⟩ := State.ccHold_eff (h := h) i (by rw [hbf, hids]; rfl) (s.ccCrd h [] 0) w2 sig a rel acq d
  obtain ⟨t, r, hn, ran⟩ := hx _ (s.withHeld x) now 0 (s.heldBase x) [] (s.me.pc + 8) (by omega)
    (by
      show (if isSup s.cur then s.me.hold else s.me.hold ++ [x]).length ≤ 128
      split
      · omega
      · rw [List.length_append]; show _ + 1 ≤ 128; omega) (.inr (by simp)) (by unfold State.withHeld; split <;> rfl) (hb s1 i) ef
  exact ⟨t, x, hn, hh, ran, by rw [r.core]; exact hs, fun hd => by rw [r.core]; exact hp hd⟩

end Sys2Proof.Machine
end

