-- ==== Sys2Proof/Laws/PerInstr.lean ====
section
/-! SUPPORT. Per instruction: the decoder reads what the encoder lays out (R299, R300, R307, R87). -/

set_option Elab.async false

namespace Sys2Proof.Laws

/-- Decoding the encoding of a well-formed instruction gives the instruction: words on the engine of their opcode, entries of command
lists on an interpreter. -/
def RoundTrip.Statement (i : Instr) : Prop :=
  (∀ w, i.encode = some w → i.check = none → decodeFor (engOf (opcOf w).toNat) w = .ok i) ∧
    ∀ e, i.encodeEntry = some e → i.check = none → decodeEntry e = .ok i

/-- A word that its engine decodes and the groups read is the instruction, when that is well formed. -/
theorem rt_ofWord {i : Instr} {w : BitVec 64} (he : i.encode = some w) (hn : i.encodeEntry = none) (hb : w.getLsbD 47 = false)
    (h7 : ((opcOf w).toNat == 0x7F) = false) (hd : decodes (engOf (opcOf w).toNat) (opcOf w).toNat = true)
    (hp : i.check = none → parseWord w = some i) : RoundTrip.Statement i := by
  refine ⟨fun w' hw hc => ?_, fun e h _ => by simp [hn] at h⟩
  obtain rfl : w = w' := by simpa [he] using hw
  simp only [decodeFor, hb, h7, hd, hp hc, hc]; rfl
/-- An entry that the interpreter reads. -/
theorem rt_ofEntry {i : Instr} {x : BitVec 512} (he : i.encode = none) (hn : i.encodeEntry = some x)
    (hp : i.check = none → parseEntry x = some i) : RoundTrip.Statement i := by
  refine ⟨fun w h _ => by simp [he] at h, fun e h hc => ?_⟩
  obtain rfl : x = e := by simpa [hn] using h
  simp [decodeEntry, hp hc, hc]
/-- A step of another agent has neither word nor entry. -/
theorem rt_ofEvent {i : Instr} (he : i.encode = none) (hn : i.encodeEntry = none) : RoundTrip.Statement i :=
  ⟨fun w h _ => by simp [he] at h, fun e h _ => by simp [hn] at h⟩

/-- A bit vector is the literal of its value. -/
theorem bv_lit {w : Nat} (x : BitVec w) : ∃ k, k < 2 ^ w ∧ x = BitVec.ofNat w k := ⟨x.toNat, x.isLt, by simp⟩

/-! ### The group of each opcode -/

theorem group_01 {w : BitVec 64} (h : opcOf w = 0x01) : parseWord w = parse01 w := by unfold parseWord; rw [h]; rfl
theorem group_02 {w : BitVec 64} (h : opcOf w = 0x02) : parseWord w = parse02 w := by unfold parseWord; rw [h]; rfl
theorem group_03 {w : BitVec 64} (h : opcOf w = 0x03) : parseWord w = parse03 w := by unfold parseWord; rw [h]; rfl
theorem group_04 {w : BitVec 64} (h : opcOf w = 0x04) : parseWord w = parse04 w := by unfold parseWord; rw [h]; rfl
theorem group_05 {w : BitVec 64} (h : opcOf w = 0x05) : parseWord w = parse05 w := by unfold parseWord; rw [h]; rfl
theorem group_06 {w : BitVec 64} (h : opcOf w = 0x06) : parseWord w = parse06 w := by unfold parseWord; rw [h]; rfl
theorem group_07 {w : BitVec 64} (h : opcOf w = 0x07) : parseWord w = parse07 w := by unfold parseWord; rw [h]; rfl
theorem group_08 {w : BitVec 64} (h : opcOf w = 0x08) : parseWord w = parse08 w := by unfold parseWord; rw [h]; rfl
theorem group_09 {w : BitVec 64} (h : opcOf w = 0x09) : parseWord w = parse09 w := by unfold parseWord; rw [h]; rfl
theorem group_0A {w : BitVec 64} (h : opcOf w = 0x0A) : parseWord w = parse0A w := by unfold parseWord; rw [h]; rfl
theorem group_0B {w : BitVec 64} (h : opcOf w = 0x0B) : parseWord w = parse0B w := by unfold parseWord; rw [h]; rfl
theorem group_0C {w : BitVec 64} (h : opcOf w = 0x0C) : parseWord w = parse0C w := by unfold parseWord; rw [h]; rfl
theorem group_0D {w : BitVec 64} (h : opcOf w = 0x0D) : parseWord w = parse0D w := by unfold parseWord; rw [h]; rfl
theorem group_0E {w : BitVec 64} (h : opcOf w = 0x0E) : parseWord w = parse0E w := by unfold parseWord; rw [h]; rfl
theorem group_0F {w : BitVec 64} (h : opcOf w = 0x0F) : parseWord w = parse0F w := by unfold parseWord; rw [h]; rfl
theorem group_10 {w : BitVec 64} (h : opcOf w = 0x10) : parseWord w = parse10 w := by unfold parseWord; rw [h]; rfl
theorem group_11 {w : BitVec 64} (h : opcOf w = 0x11) : parseWord w = parse11 w := by unfold parseWord; rw [h]; rfl
theorem group_12 {w : BitVec 64} (h : opcOf w = 0x12) : parseWord w = parse12 w := by unfold parseWord; rw [h]; rfl
theorem group_13 {w : BitVec 64} (h : opcOf w = 0x13) : parseWord w = parse13 w := by unfold parseWord; rw [h]; rfl
theorem group_14 {w : BitVec 64} (h : opcOf w = 0x14) : parseWord w = parse14 w := by unfold parseWord; rw [h]; rfl
theorem group_15 {w : BitVec 64} (h : opcOf w = 0x15) : parseWord w = parse15 w := by unfold parseWord; rw [h]; rfl
theorem group_16 {w : BitVec 64} (h : opcOf w = 0x16) : parseWord w = parse16 w := by unfold parseWord; rw [h]; rfl
theorem group_17 {w : BitVec 64} (h : opcOf w = 0x17) : parseWord w = parse17 w := by unfold parseWord; rw [h]; rfl
theorem group_18 {w : BitVec 64} (h : opcOf w = 0x18) : parseWord w = parse18 w := by unfold parseWord; rw [h]; rfl
theorem group_19 {w : BitVec 64} (h : opcOf w = 0x19) : parseWord w = parse19 w := by unfold parseWord; rw [h]; rfl
theorem group_1A {w : BitVec 64} (h : opcOf w = 0x1A) : parseWord w = parse1A w := by unfold parseWord; rw [h]; rfl
theorem group_1B {w : BitVec 64} (h : opcOf w = 0x1B) : parseWord w = parse1B w := by unfold parseWord; rw [h]; rfl
theorem group_1C {w : BitVec 64} (h : opcOf w = 0x1C) : parseWord w = parse1C w := by unfold parseWord; rw [h]; rfl
theorem group_1D {w : BitVec 64} (h : opcOf w = 0x1D) : parseWord w = parse1D w := by unfold parseWord; rw [h]; rfl
theorem group_1E {w : BitVec 64} (h : opcOf w = 0x1E) : parseWord w = parse1E w := by unfold parseWord; rw [h]; rfl
theorem group_1F {w : BitVec 64} (h : opcOf w = 0x1F) : parseWord w = parse1F w := by unfold parseWord; rw [h]; rfl
theorem group_20 {w : BitVec 64} (h : opcOf w = 0x20) : parseWord w = parse20 w := by unfold parseWord; rw [h]; rfl
theorem group_21 {w : BitVec 64} (h : opcOf w = 0x21) : parseWord w = parse21 w := by unfold parseWord; rw [h]; rfl
theorem group_22 {w : BitVec 64} (h : opcOf w = 0x22) : parseWord w = parse22 w := by unfold parseWord; rw [h]; rfl
theorem group_23 {w : BitVec 64} (h : opcOf w = 0x23) : parseWord w = parse23 w := by unfold parseWord; rw [h]; rfl
theorem group_24 {w : BitVec 64} (h : opcOf w = 0x24) : parseWord w = parse24 w := by unfold parseWord; rw [h]; rfl
theorem group_25 {w : BitVec 64} (h : opcOf w = 0x25) : parseWord w = parse25 w := by unfold parseWord; rw [h]; rfl
theorem group_26 {w : BitVec 64} (h : opcOf w = 0x26) : parseWord w = parse26 w := by unfold parseWord; rw [h]; rfl
theorem group_27 {w : BitVec 64} (h : opcOf w = 0x27) : parseWord w = parse27 w := by unfold parseWord; rw [h]; rfl
theorem group_28 {w : BitVec 64} (h : opcOf w = 0x28) : parseWord w = parse28 w := by unfold parseWord; rw [h]; rfl
theorem group_29 {w : BitVec 64} (h : opcOf w = 0x29) : parseWord w = parse29 w := by unfold parseWord; rw [h]; rfl
theorem group_2A {w : BitVec 64} (h : opcOf w = 0x2A) : parseWord w = parse2A w := by unfold parseWord; rw [h]; rfl
theorem group_2B {w : BitVec 64} (h : opcOf w = 0x2B) : parseWord w = parse2B w := by unfold parseWord; rw [h]; rfl
theorem group_2C {w : BitVec 64} (h : opcOf w = 0x2C) : parseWord w = parse2C w := by unfold parseWord; rw [h]; rfl
theorem group_2D {w : BitVec 64} (h : opcOf w = 0x2D) : parseWord w = parse2D w := by unfold parseWord; rw [h]; rfl
theorem group_2E {w : BitVec 64} (h : opcOf w = 0x2E) : parseWord w = parse2E w := by unfold parseWord; rw [h]; rfl
theorem group_2F {w : BitVec 64} (h : opcOf w = 0x2F) : parseWord w = parse2F w := by unfold parseWord; rw [h]; rfl
theorem group_30 {w : BitVec 64} (h : opcOf w = 0x30) : parseWord w = parse30 w := by unfold parseWord; rw [h]; rfl
theorem group_31 {w : BitVec 64} (h : opcOf w = 0x31) : parseWord w = parse31 w := by unfold parseWord; rw [h]; rfl
theorem group_32 {w : BitVec 64} (h : opcOf w = 0x32) : parseWord w = parse32 w := by unfold parseWord; rw [h]; rfl
theorem group_33 {w : BitVec 64} (h : opcOf w = 0x33) : parseWord w = parse33 w := by unfold parseWord; rw [h]; rfl
theorem group_34 {w : BitVec 64} (h : opcOf w = 0x34) : parseWord w = parse34 w := by unfold parseWord; rw [h]; rfl
theorem group_35 {w : BitVec 64} (h : opcOf w = 0x35) : parseWord w = parse35 w := by unfold parseWord; rw [h]; rfl
theorem group_36 {w : BitVec 64} (h : opcOf w = 0x36) : parseWord w = parse36 w := by unfold parseWord; rw [h]; rfl
theorem group_37 {w : BitVec 64} (h : opcOf w = 0x37) : parseWord w = parse37 w := by unfold parseWord; rw [h]; rfl
theorem group_38 {w : BitVec 64} (h : opcOf w = 0x38) : parseWord w = parse38 w := by unfold parseWord; rw [h]; rfl
theorem group_39 {w : BitVec 64} (h : opcOf w = 0x39) : parseWord w = parse39 w := by unfold parseWord; rw [h]; rfl
theorem group_3A {w : BitVec 64} (h : opcOf w = 0x3A) : parseWord w = parse3A w := by unfold parseWord; rw [h]; rfl
theorem group_3B {w : BitVec 64} (h : opcOf w = 0x3B) : parseWord w = parse3B w := by unfold parseWord; rw [h]; rfl
theorem group_3C {w : BitVec 64} (h : opcOf w = 0x3C) : parseWord w = parse3C w := by unfold parseWord; rw [h]; rfl
theorem group_3D {w : BitVec 64} (h : opcOf w = 0x3D) : parseWord w = parse3D w := by unfold parseWord; rw [h]; rfl
theorem group_3E {w : BitVec 64} (h : opcOf w = 0x3E) : parseWord w = parse3E w := by unfold parseWord; rw [h]; rfl
theorem group_3F {w : BitVec 64} (h : opcOf w = 0x3F) : parseWord w = parse3F w := by unfold parseWord; rw [h]; rfl
theorem group_40 {w : BitVec 64} (h : opcOf w = 0x40) : parseWord w = parse40 w := by unfold parseWord; rw [h]; rfl
theorem group_41 {w : BitVec 64} (h : opcOf w = 0x41) : parseWord w = parse41 w := by unfold parseWord; rw [h]; rfl
theorem group_42 {w : BitVec 64} (h : opcOf w = 0x42) : parseWord w = parse42 w := by unfold parseWord; rw [h]; rfl
theorem group_43 {w : BitVec 64} (h : opcOf w = 0x43) : parseWord w = parse43 w := by unfold parseWord; rw [h]; rfl
theorem group_44 {w : BitVec 64} (h : opcOf w = 0x44) : parseWord w = parse44 w := by unfold parseWord; rw [h]; rfl
theorem group_45 {w : BitVec 64} (h : opcOf w = 0x45) : parseWord w = parse45 w := by unfold parseWord; rw [h]; rfl
theorem group_46 {w : BitVec 64} (h : opcOf w = 0x46) : parseWord w = parse46 w := by unfold parseWord; rw [h]; rfl
theorem group_47 {w : BitVec 64} (h : opcOf w = 0x47) : parseWord w = parse47 w := by unfold parseWord; rw [h]; rfl
theorem group_48 {w : BitVec 64} (h : opcOf w = 0x48) : parseWord w = parse48 w := by unfold parseWord; rw [h]; rfl
theorem group_49 {w : BitVec 64} (h : opcOf w = 0x49) : parseWord w = parse49 w := by unfold parseWord; rw [h]; rfl
theorem group_4A {w : BitVec 64} (h : opcOf w = 0x4A) : parseWord w = parse4A w := by unfold parseWord; rw [h]; rfl
theorem group_4B {w : BitVec 64} (h : opcOf w = 0x4B) : parseWord w = parse4B w := by unfold parseWord; rw [h]; rfl
theorem group_4C {w : BitVec 64} (h : opcOf w = 0x4C) : parseWord w = parse4C w := by unfold parseWord; rw [h]; rfl
theorem group_4D {w : BitVec 64} (h : opcOf w = 0x4D) : parseWord w = parse4D w := by unfold parseWord; rw [h]; rfl
theorem group_4E {w : BitVec 64} (h : opcOf w = 0x4E) : parseWord w = parse4E w := by unfold parseWord; rw [h]; rfl
theorem group_4F {w : BitVec 64} (h : opcOf w = 0x4F) : parseWord w = parse4F w := by unfold parseWord; rw [h]; rfl
theorem group_50 {w : BitVec 64} (h : opcOf w = 0x50) : parseWord w = parse50 w := by unfold parseWord; rw [h]; rfl
theorem group_51 {w : BitVec 64} (h : opcOf w = 0x51) : parseWord w = parse51 w := by unfold parseWord; rw [h]; rfl
theorem group_52 {w : BitVec 64} (h : opcOf w = 0x52) : parseWord w = parse52 w := by unfold parseWord; rw [h]; rfl
theorem group_53 {w : BitVec 64} (h : opcOf w = 0x53) : parseWord w = parse53 w := by unfold parseWord; rw [h]; rfl
theorem group_54 {w : BitVec 64} (h : opcOf w = 0x54) : parseWord w = parse54 w := by unfold parseWord; rw [h]; rfl
theorem group_55 {w : BitVec 64} (h : opcOf w = 0x55) : parseWord w = parse55 w := by unfold parseWord; rw [h]; rfl
theorem group_56 {w : BitVec 64} (h : opcOf w = 0x56) : parseWord w = parse56 w := by unfold parseWord; rw [h]; rfl
theorem group_57 {w : BitVec 64} (h : opcOf w = 0x57) : parseWord w = parse57 w := by unfold parseWord; rw [h]; rfl
theorem group_58 {w : BitVec 64} (h : opcOf w = 0x58) : parseWord w = parse58 w := by unfold parseWord; rw [h]; rfl
theorem group_59 {w : BitVec 64} (h : opcOf w = 0x59) : parseWord w = parse59 w := by unfold parseWord; rw [h]; rfl
theorem group_5A {w : BitVec 64} (h : opcOf w = 0x5A) : parseWord w = parse5A w := by unfold parseWord; rw [h]; rfl
theorem group_5B {w : BitVec 64} (h : opcOf w = 0x5B) : parseWord w = parse5B w := by unfold parseWord; rw [h]; rfl
theorem group_5C {w : BitVec 64} (h : opcOf w = 0x5C) : parseWord w = parse5C w := by unfold parseWord; rw [h]; rfl
theorem group_5D {w : BitVec 64} (h : opcOf w = 0x5D) : parseWord w = parse5D w := by unfold parseWord; rw [h]; rfl
theorem group_5E {w : BitVec 64} (h : opcOf w = 0x5E) : parseWord w = parse5E w := by unfold parseWord; rw [h]; rfl
theorem group_5F {w : BitVec 64} (h : opcOf w = 0x5F) : parseWord w = parse5F w := by unfold parseWord; rw [h]; rfl
theorem group_60 {w : BitVec 64} (h : opcOf w = 0x60) : parseWord w = parse60 w := by unfold parseWord; rw [h]; rfl
theorem group_61 {w : BitVec 64} (h : opcOf w = 0x61) : parseWord w = parse61 w := by unfold parseWord; rw [h]; rfl
theorem group_62 {w : BitVec 64} (h : opcOf w = 0x62) : parseWord w = parse62 w := by unfold parseWord; rw [h]; rfl
theorem group_63 {w : BitVec 64} (h : opcOf w = 0x63) : parseWord w = parse63 w := by unfold parseWord; rw [h]; rfl
theorem group_64 {w : BitVec 64} (h : opcOf w = 0x64) : parseWord w = parse64 w := by unfold parseWord; rw [h]; rfl
theorem group_65 {w : BitVec 64} (h : opcOf w = 0x65) : parseWord w = parse65 w := by unfold parseWord; rw [h]; rfl
theorem group_66 {w : BitVec 64} (h : opcOf w = 0x66) : parseWord w = parse66 w := by unfold parseWord; rw [h]; rfl
theorem group_67 {w : BitVec 64} (h : opcOf w = 0x67) : parseWord w = parse67 w := by unfold parseWord; rw [h]; rfl
theorem group_68 {w : BitVec 64} (h : opcOf w = 0x68) : parseWord w = parse68 w := by unfold parseWord; rw [h]; rfl
theorem group_69 {w : BitVec 64} (h : opcOf w = 0x69) : parseWord w = parse69 w := by unfold parseWord; rw [h]; rfl
theorem group_6A {w : BitVec 64} (h : opcOf w = 0x6A) : parseWord w = parse6A w := by unfold parseWord; rw [h]; rfl
theorem group_6B {w : BitVec 64} (h : opcOf w = 0x6B) : parseWord w = parse6B w := by unfold parseWord; rw [h]; rfl
theorem group_6C {w : BitVec 64} (h : opcOf w = 0x6C) : parseWord w = parse6C w := by unfold parseWord; rw [h]; rfl
theorem group_6D {w : BitVec 64} (h : opcOf w = 0x6D) : parseWord w = parse6D w := by unfold parseWord; rw [h]; rfl
theorem group_6E {w : BitVec 64} (h : opcOf w = 0x6E) : parseWord w = parse6E w := by unfold parseWord; rw [h]; rfl
theorem group_6F {w : BitVec 64} (h : opcOf w = 0x6F) : parseWord w = parse6F w := by unfold parseWord; rw [h]; rfl
theorem group_70 {w : BitVec 64} (h : opcOf w = 0x70) : parseWord w = parse70 w := by unfold parseWord; rw [h]; rfl
theorem group_71 {w : BitVec 64} (h : opcOf w = 0x71) : parseWord w = parse71 w := by unfold parseWord; rw [h]; rfl
theorem group_72 {w : BitVec 64} (h : opcOf w = 0x72) : parseWord w = parse72 w := by unfold parseWord; rw [h]; rfl
theorem group_73 {w : BitVec 64} (h : opcOf w = 0x73) : parseWord w = parse73 w := by unfold parseWord; rw [h]; rfl
theorem group_74 {w : BitVec 64} (h : opcOf w = 0x74) : parseWord w = parse74 w := by unfold parseWord; rw [h]; rfl
theorem group_75 {w : BitVec 64} (h : opcOf w = 0x75) : parseWord w = parse75 w := by unfold parseWord; rw [h]; rfl
theorem group_76 {w : BitVec 64} (h : opcOf w = 0x76) : parseWord w = parse76 w := by unfold parseWord; rw [h]; rfl
theorem group_77 {w : BitVec 64} (h : opcOf w = 0x77) : parseWord w = parse77 w := by unfold parseWord; rw [h]; rfl
theorem group_78 {w : BitVec 64} (h : opcOf w = 0x78) : parseWord w = parse78 w := by unfold parseWord; rw [h]; rfl
theorem group_79 {w : BitVec 64} (h : opcOf w = 0x79) : parseWord w = parse79 w := by unfold parseWord; rw [h]; rfl
theorem group_7A {w : BitVec 64} (h : opcOf w = 0x7A) : parseWord w = parse7A w := by unfold parseWord; rw [h]; rfl
theorem group_7B {w : BitVec 64} (h : opcOf w = 0x7B) : parseWord w = parse7B w := by unfold parseWord; rw [h]; rfl
theorem group_7C {w : BitVec 64} (h : opcOf w = 0x7C) : parseWord w = parse7C w := by unfold parseWord; rw [h]; rfl
theorem group_7D {w : BitVec 64} (h : opcOf w = 0x7D) : parseWord w = parse7D w := by unfold parseWord; rw [h]; rfl

/-! ### Entries -/

theorem op_packCL (op : BitVec 8) (o : CL) : (packCL op o).extractLsb' 0 8 = op := by
  simp (disch := decide) only [packCL, field_low, field_high, field_all, Nat.reduceSub]
theorem zero_packCL (op : BitVec 8) (o : CL) : (packCL op o).extractLsb' 16 48 = 0 := by
  simp (disch := decide) only [packCL, field_low, field_high, field_all, Nat.reduceSub]; rfl
theorem unpackCL_packCL (op : BitVec 8) (o : CL) : unpackCL (packCL op o) = o := by
  simp (disch := decide) only [unpackCL, entryWord, packCL, field_low, field_high, field_all, Nat.reduceSub, Nat.reduceMul]

/-! ### What the checks fix where one FN or OP names several instructions -/

theorem firstIll_cons {c : Bool} {i : Ill} {t : List (Bool × Ill)} (h : firstIll ((c, i) :: t) = none) : c = true ∧ firstIll t = none := by
  cases c <;> simp_all [firstIll]
theorem RoundTrip.sigvSt_op (o : CL) (h : (Instr.sigvSt o).check = none) : o.w3 = 0 := by simpa using (firstIll_cons (firstIll_cons h).2).1
theorem RoundTrip.sigvAdd_op (o : CL) (h : (Instr.sigvAdd o).check = none) : o.w3 = 1 := by simpa using (firstIll_cons (firstIll_cons h).2).1
theorem RoundTrip.sigvOr_op (o : CL) (h : (Instr.sigvOr o).check = none) : o.w3 = 2 := by simpa using (firstIll_cons (firstIll_cons h).2).1
theorem RoundTrip.cutreqStop_op (o : CL) (h : (Instr.cutreqStop o).check = none) : o.w2 = 0 := by simpa using (firstIll_cons (firstIll_cons h).2).1
theorem RoundTrip.cutreqCancel_op (o : CL) (h : (Instr.cutreqCancel o).check = none) : o.w2 = 1 := by simpa using (firstIll_cons (firstIll_cons h).2).1
theorem RoundTrip.cutreqResume_op (o : CL) (h : (Instr.cutreqResume o).check = none) : o.w2 = 2 := by simpa using (firstIll_cons (firstIll_cons h).2).1
theorem nctl_op (k : Nat) (o : SY) (h : syNctl k o = none) : o.imm.toNat = k := by simpa using (firstIll_cons (firstIll_cons h).2).1
/-- A comparison of numbers never carries the FN of an integer comparison. -/
theorem vcmp_fn (o : RR) (fn : BitVec 5) (hf : fn.extractLsb' 3 2 = 3) : rrCmp fn o ≠ none := by
  intro h
  have := (Option.or_eq_none_iff.mp h).2
  simp [firstIll, hf] at this

/-! ### One lemma per constructor -/

theorem RoundTrip.nop (h : Hdr) : RoundTrip.Statement (.nop h) := by
  refine rt_ofWord rfl rfl (bit47_packWord ..) (by rw [opcOf_packWord]; rfl) (by rw [opcOf_packWord]; rfl) fun _ => ?_
  unfold parseWord; rw [opcOf_packWord, hdrOf_packWord, body_packWord _ _ _ _ _ (by decide)]; rfl
theorem RoundTrip.mark (h : Hdr) : RoundTrip.Statement (.mark h) := by
  refine rt_ofWord rfl rfl (bit47_packWord ..) (by rw [opcOf_packWord]; rfl) (by rw [opcOf_packWord]; rfl) fun _ => ?_
  unfold parseWord; rw [opcOf_packWord, hdrOf_packWord, body_packWord _ _ _ _ _ (by decide)]; rfl
theorem RoundTrip.ill (bits : BitVec 64) : RoundTrip.Statement (.ill bits) := by
  refine ⟨fun w hw hc => ?_, fun e h _ => by simp [Instr.encodeEntry] at h⟩
  obtain rfl : bits = w := Option.some.inj hw
  have h8 : bits.extractLsb' 40 8 = 0x7F := by simpa using (firstIll_cons hc).1
  have h7 : opcOf bits = 0x7F := by
    have : opcOf bits = (bits.extractLsb' 40 8).setWidth 7 := by unfold opcOf; ext i hi; simp; omega
    rw [this, h8]; rfl
  have hb : bits.getLsbD 47 = false := by
    have : bits.getLsbD 47 = (bits.extractLsb' 40 8).getLsbD 7 := by simp
    rw [this, h8]; rfl
  simp only [decodeFor, hb, h7]; rfl
theorem RoundTrip.add (h : Hdr) (o : RR) : RoundTrip.Statement (.add h o) := by
  refine rt_ofWord rfl rfl (bit47_packRR ..) (by rw [opcOf_packRR]; rfl) (by rw [opcOf_packRR]; rfl) fun _ => ?_
  rw [group_01 (opcOf_packRR ..), parse01, hdrOf_packRR, unpackRR_packRR, fn_packRR]; rfl
theorem RoundTrip.sub (h : Hdr) (o : RR) : RoundTrip.Statement (.sub h o) := by
  refine rt_ofWord rfl rfl (bit47_packRR ..) (by rw [opcOf_packRR]; rfl) (by rw [opcOf_packRR]; rfl) fun _ => ?_
  rw [group_01 (opcOf_packRR ..), parse01, hdrOf_packRR, unpackRR_packRR, fn_packRR]; rfl
theorem RoundTrip.and (h : Hdr) (o : RR) : RoundTrip.Statement (.and h o) := by
  refine rt_ofWord rfl rfl (bit47_packRR ..) (by rw [opcOf_packRR]; rfl) (by rw [opcOf_packRR]; rfl) fun _ => ?_
  rw [group_01 (opcOf_packRR ..), parse01, hdrOf_packRR, unpackRR_packRR, fn_packRR]; rfl
theorem RoundTrip.or (h : Hdr) (o : RR) : RoundTrip.Statement (.or h o) := by
  refine rt_ofWord rfl rfl (bit47_packRR ..) (by rw [opcOf_packRR]; rfl) (by rw [opcOf_packRR]; rfl) fun _ => ?_
  rw [group_01 (opcOf_packRR ..), parse01, hdrOf_packRR, unpackRR_packRR, fn_packRR]; rfl
theorem RoundTrip.xor (h : Hdr) (o : RR) : RoundTrip.Statement (.xor h o) := by
  refine rt_ofWord rfl rfl (bit47_packRR ..) (by rw [opcOf_packRR]; rfl) (by rw [opcOf_packRR]; rfl) fun _ => ?_
  rw [group_01 (opcOf_packRR ..), parse01, hdrOf_packRR, unpackRR_packRR, fn_packRR]; rfl
theorem RoundTrip.andn (h : Hdr) (o : RR) : RoundTrip.Statement (.andn h o) := by
  refine rt_ofWord rfl rfl (bit47_packRR ..) (by rw [opcOf_packRR]; rfl) (by rw [opcOf_packRR]; rfl) fun _ => ?_
  rw [group_01 (opcOf_packRR ..), parse01, hdrOf_packRR, unpackRR_packRR, fn_packRR]; rfl
theorem RoundTrip.shl (h : Hdr) (o : RR) : RoundTrip.Statement (.shl h o) := by
  refine rt_ofWord rfl rfl (bit47_packRR ..) (by rw [opcOf_packRR]; rfl) (by rw [opcOf_packRR]; rfl) fun _ => ?_
  rw [group_01 (opcOf_packRR ..), parse01, hdrOf_packRR, unpackRR_packRR, fn_packRR]; rfl
theorem RoundTrip.shr (h : Hdr) (o : RR) : RoundTrip.Statement (.shr h o) := by
  refine rt_ofWord rfl rfl (bit47_packRR ..) (by rw [opcOf_packRR]; rfl) (by rw [opcOf_packRR]; rfl) fun _ => ?_
  rw [group_01 (opcOf_packRR ..), parse01, hdrOf_packRR, unpackRR_packRR, fn_packRR]; rfl
theorem RoundTrip.sar (h : Hdr) (o : RR) : RoundTrip.Statement (.sar h o) := by
  refine rt_ofWord rfl rfl (bit47_packRR ..) (by rw [opcOf_packRR]; rfl) (by rw [opcOf_packRR]; rfl) fun _ => ?_
  rw [group_01 (opcOf_packRR ..), parse01, hdrOf_packRR, unpackRR_packRR, fn_packRR]; rfl
theorem RoundTrip.min (h : Hdr) (o : RR) : RoundTrip.Statement (.min h o) := by
  refine rt_ofWord rfl rfl (bit47_packRR ..) (by rw [opcOf_packRR]; rfl) (by rw [opcOf_packRR]; rfl) fun _ => ?_
  rw [group_01 (opcOf_packRR ..), parse01, hdrOf_packRR, unpackRR_packRR, fn_packRR]; rfl
theorem RoundTrip.max (h : Hdr) (o : RR) : RoundTrip.Statement (.max h o) := by
  refine rt_ofWord rfl rfl (bit47_packRR ..) (by rw [opcOf_packRR]; rfl) (by rw [opcOf_packRR]; rfl) fun _ => ?_
  rw [group_01 (opcOf_packRR ..), parse01, hdrOf_packRR, unpackRR_packRR, fn_packRR]; rfl
theorem RoundTrip.slt (h : Hdr) (o : RR) : RoundTrip.Statement (.slt h o) := by
  refine rt_ofWord rfl rfl (bit47_packRR ..) (by rw [opcOf_packRR]; rfl) (by rw [opcOf_packRR]; rfl) fun _ => ?_
  rw [group_01 (opcOf_packRR ..), parse01, hdrOf_packRR, unpackRR_packRR, fn_packRR]; rfl
theorem RoundTrip.seq (h : Hdr) (o : RR) : RoundTrip.Statement (.seq h o) := by
  refine rt_ofWord rfl rfl (bit47_packRR ..) (by rw [opcOf_packRR]; rfl) (by rw [opcOf_packRR]; rfl) fun _ => ?_
  rw [group_01 (opcOf_packRR ..), parse01, hdrOf_packRR, unpackRR_packRR, fn_packRR]; rfl
theorem RoundTrip.addi (h : Hdr) (o : RI) : RoundTrip.Statement (.addi h o) := by
  refine rt_ofWord rfl rfl (bit47_packRI ..) (by rw [opcOf_packRI]; rfl) (by rw [opcOf_packRI]; rfl) fun _ => ?_
  rw [group_02 (opcOf_packRI ..), parse02, hdrOf_packRI, unpackRI_packRI, fn_packRI]; rfl
theorem RoundTrip.andi (h : Hdr) (o : RI) : RoundTrip.Statement (.andi h o) := by
  refine rt_ofWord rfl rfl (bit47_packRI ..) (by rw [opcOf_packRI]; rfl) (by rw [opcOf_packRI]; rfl) fun _ => ?_
  rw [group_02 (opcOf_packRI ..), parse02, hdrOf_packRI, unpackRI_packRI, fn_packRI]; rfl
theorem RoundTrip.ori (h : Hdr) (o : RI) : RoundTrip.Statement (.ori h o) := by
  refine rt_ofWord rfl rfl (bit47_packRI ..) (by rw [opcOf_packRI]; rfl) (by rw [opcOf_packRI]; rfl) fun _ => ?_
  rw [group_02 (opcOf_packRI ..), parse02, hdrOf_packRI, unpackRI_packRI, fn_packRI]; rfl
theorem RoundTrip.xori (h : Hdr) (o : RI) : RoundTrip.Statement (.xori h o) := by
  refine rt_ofWord rfl rfl (bit47_packRI ..) (by rw [opcOf_packRI]; rfl) (by rw [opcOf_packRI]; rfl) fun _ => ?_
  rw [group_02 (opcOf_packRI ..), parse02, hdrOf_packRI, unpackRI_packRI, fn_packRI]; rfl
theorem RoundTrip.shli (h : Hdr) (o : RI) : RoundTrip.Statement (.shli h o) := by
  refine rt_ofWord rfl rfl (bit47_packRI ..) (by rw [opcOf_packRI]; rfl) (by rw [opcOf_packRI]; rfl) fun _ => ?_
  rw [group_02 (opcOf_packRI ..), parse02, hdrOf_packRI, unpackRI_packRI, fn_packRI]; rfl
theorem RoundTrip.shri (h : Hdr) (o : RI) : RoundTrip.Statement (.shri h o) := by
  refine rt_ofWord rfl rfl (bit47_packRI ..) (by rw [opcOf_packRI]; rfl) (by rw [opcOf_packRI]; rfl) fun _ => ?_
  rw [group_02 (opcOf_packRI ..), parse02, hdrOf_packRI, unpackRI_packRI, fn_packRI]; rfl
theorem RoundTrip.sari (h : Hdr) (o : RI) : RoundTrip.Statement (.sari h o) := by
  refine rt_ofWord rfl rfl (bit47_packRI ..) (by rw [opcOf_packRI]; rfl) (by rw [opcOf_packRI]; rfl) fun _ => ?_
  rw [group_02 (opcOf_packRI ..), parse02, hdrOf_packRI, unpackRI_packRI, fn_packRI]; rfl
theorem RoundTrip.slti (h : Hdr) (o : RI) : RoundTrip.Statement (.slti h o) := by
  refine rt_ofWord rfl rfl (bit47_packRI ..) (by rw [opcOf_packRI]; rfl) (by rw [opcOf_packRI]; rfl) fun _ => ?_
  rw [group_02 (opcOf_packRI ..), parse02, hdrOf_packRI, unpackRI_packRI, fn_packRI]; rfl
theorem RoundTrip.mul (h : Hdr) (o : RR) : RoundTrip.Statement (.mul h o) := by
  refine rt_ofWord rfl rfl (bit47_packRR ..) (by rw [opcOf_packRR]; rfl) (by rw [opcOf_packRR]; rfl) fun _ => ?_
  rw [group_03 (opcOf_packRR ..), parse03, hdrOf_packRR, unpackRR_packRR, fn_packRR]; rfl
theorem RoundTrip.mulh (h : Hdr) (o : RR) : RoundTrip.Statement (.mulh h o) := by
  refine rt_ofWord rfl rfl (bit47_packRR ..) (by rw [opcOf_packRR]; rfl) (by rw [opcOf_packRR]; rfl) fun _ => ?_
  rw [group_03 (opcOf_packRR ..), parse03, hdrOf_packRR, unpackRR_packRR, fn_packRR]; rfl
theorem RoundTrip.div (h : Hdr) (o : RR) : RoundTrip.Statement (.div h o) := by
  refine rt_ofWord rfl rfl (bit47_packRR ..) (by rw [opcOf_packRR]; rfl) (by rw [opcOf_packRR]; rfl) fun _ => ?_
  rw [group_03 (opcOf_packRR ..), parse03, hdrOf_packRR, unpackRR_packRR, fn_packRR]; rfl
theorem RoundTrip.rem (h : Hdr) (o : RR) : RoundTrip.Statement (.rem h o) := by
  refine rt_ofWord rfl rfl (bit47_packRR ..) (by rw [opcOf_packRR]; rfl) (by rw [opcOf_packRR]; rfl) fun _ => ?_
  rw [group_03 (opcOf_packRR ..), parse03, hdrOf_packRR, unpackRR_packRR, fn_packRR]; rfl
theorem RoundTrip.movi (h : Hdr) (o : RI) : RoundTrip.Statement (.movi h o) := by
  refine rt_ofWord rfl rfl (bit47_packRI ..) (by rw [opcOf_packRI]; rfl) (by rw [opcOf_packRI]; rfl) fun _ => ?_
  rw [group_04 (opcOf_packRI ..), parse04, hdrOf_packRI, unpackRI_packRI, fn_packRI]; rfl
theorem RoundTrip.movhi (h : Hdr) (o : RI) : RoundTrip.Statement (.movhi h o) := by
  refine rt_ofWord rfl rfl (bit47_packRI ..) (by rw [opcOf_packRI]; rfl) (by rw [opcOf_packRI]; rfl) fun _ => ?_
  rw [group_04 (opcOf_packRI ..), parse04, hdrOf_packRI, unpackRI_packRI, fn_packRI]; rfl
theorem RoundTrip.movpc (h : Hdr) (o : RI) : RoundTrip.Statement (.movpc h o) := by
  refine rt_ofWord rfl rfl (bit47_packRI ..) (by rw [opcOf_packRI]; rfl) (by rw [opcOf_packRI]; rfl) fun _ => ?_
  rw [group_04 (opcOf_packRI ..), parse04, hdrOf_packRI, unpackRI_packRI, fn_packRI]; rfl
theorem RoundTrip.clz (h : Hdr) (o : RR) : RoundTrip.Statement (.clz h o) := by
  refine rt_ofWord rfl rfl (bit47_packRR ..) (by rw [opcOf_packRR]; rfl) (by rw [opcOf_packRR]; rfl) fun _ => ?_
  rw [group_05 (opcOf_packRR ..), parse05, hdrOf_packRR, unpackRR_packRR, fn_packRR]; rfl
theorem RoundTrip.ctz (h : Hdr) (o : RR) : RoundTrip.Statement (.ctz h o) := by
  refine rt_ofWord rfl rfl (bit47_packRR ..) (by rw [opcOf_packRR]; rfl) (by rw [opcOf_packRR]; rfl) fun _ => ?_
  rw [group_05 (opcOf_packRR ..), parse05, hdrOf_packRR, unpackRR_packRR, fn_packRR]; rfl
theorem RoundTrip.popc (h : Hdr) (o : RR) : RoundTrip.Statement (.popc h o) := by
  refine rt_ofWord rfl rfl (bit47_packRR ..) (by rw [opcOf_packRR]; rfl) (by rw [opcOf_packRR]; rfl) fun _ => ?_
  rw [group_05 (opcOf_packRR ..), parse05, hdrOf_packRR, unpackRR_packRR, fn_packRR]; rfl
theorem RoundTrip.brev (h : Hdr) (o : RR) : RoundTrip.Statement (.brev h o) := by
  refine rt_ofWord rfl rfl (bit47_packRR ..) (by rw [opcOf_packRR]; rfl) (by rw [opcOf_packRR]; rfl) fun _ => ?_
  rw [group_05 (opcOf_packRR ..), parse05, hdrOf_packRR, unpackRR_packRR, fn_packRR]; rfl
theorem RoundTrip.bext (h : Hdr) (o : RR) : RoundTrip.Statement (.bext h o) := by
  refine rt_ofWord rfl rfl (bit47_packRR ..) (by rw [opcOf_packRR]; rfl) (by rw [opcOf_packRR]; rfl) fun _ => ?_
  rw [group_05 (opcOf_packRR ..), parse05, hdrOf_packRR, unpackRR_packRR, fn_packRR]; rfl
theorem RoundTrip.bins (h : Hdr) (o : RR) : RoundTrip.Statement (.bins h o) := by
  refine rt_ofWord rfl rfl (bit47_packRR ..) (by rw [opcOf_packRR]; rfl) (by rw [opcOf_packRR]; rfl) fun _ => ?_
  rw [group_05 (opcOf_packRR ..), parse05, hdrOf_packRR, unpackRR_packRR, fn_packRR]; rfl
theorem RoundTrip.sel (h : Hdr) (o : RR) : RoundTrip.Statement (.sel h o) := by
  refine rt_ofWord rfl rfl (bit47_packRR ..) (by rw [opcOf_packRR]; rfl) (by rw [opcOf_packRR]; rfl) fun _ => ?_
  rw [group_06 (opcOf_packRR ..), parse06, hdrOf_packRR, unpackRR_packRR, fn_packRR]; rfl
theorem RoundTrip.cset (h : Hdr) (o : RR) : RoundTrip.Statement (.cset h o) := by
  refine rt_ofWord rfl rfl (bit47_packRR ..) (by rw [opcOf_packRR]; rfl) (by rw [opcOf_packRR]; rfl) fun _ => ?_
  rw [group_06 (opcOf_packRR ..), parse06, hdrOf_packRR, unpackRR_packRR, fn_packRR]; rfl
theorem RoundTrip.ldb (h : Hdr) (fx : BitVec 1) (o : RI) : RoundTrip.Statement (.ldb h fx o) := by
  refine rt_ofWord rfl rfl (bit47_packRI ..) (by rw [opcOf_packRI]; rfl) (by rw [opcOf_packRI]; rfl) fun _ => ?_
  rw [group_07 (opcOf_packRI ..), parse07, hdrOf_packRI, unpackRI_packRI, fn_packRI]
  obtain ⟨k, hk, rfl⟩ := bv_lit fx; interval_cases k <;> rfl
theorem RoundTrip.ldh (h : Hdr) (fx : BitVec 1) (o : RI) : RoundTrip.Statement (.ldh h fx o) := by
  refine rt_ofWord rfl rfl (bit47_packRI ..) (by rw [opcOf_packRI]; rfl) (by rw [opcOf_packRI]; rfl) fun _ => ?_
  rw [group_07 (opcOf_packRI ..), parse07, hdrOf_packRI, unpackRI_packRI, fn_packRI]
  obtain ⟨k, hk, rfl⟩ := bv_lit fx; interval_cases k <;> rfl
theorem RoundTrip.ldw (h : Hdr) (fx : BitVec 1) (o : RI) : RoundTrip.Statement (.ldw h fx o) := by
  refine rt_ofWord rfl rfl (bit47_packRI ..) (by rw [opcOf_packRI]; rfl) (by rw [opcOf_packRI]; rfl) fun _ => ?_
  rw [group_07 (opcOf_packRI ..), parse07, hdrOf_packRI, unpackRI_packRI, fn_packRI]
  obtain ⟨k, hk, rfl⟩ := bv_lit fx; interval_cases k <;> rfl
theorem RoundTrip.ldd (h : Hdr) (fx : BitVec 1) (o : RI) : RoundTrip.Statement (.ldd h fx o) := by
  refine rt_ofWord rfl rfl (bit47_packRI ..) (by rw [opcOf_packRI]; rfl) (by rw [opcOf_packRI]; rfl) fun _ => ?_
  rw [group_07 (opcOf_packRI ..), parse07, hdrOf_packRI, unpackRI_packRI, fn_packRI]
  obtain ⟨k, hk, rfl⟩ := bv_lit fx; interval_cases k <;> rfl
theorem RoundTrip.stb (h : Hdr) (fx : BitVec 1) (o : RI) : RoundTrip.Statement (.stb h fx o) := by
  refine rt_ofWord rfl rfl (bit47_packRI ..) (by rw [opcOf_packRI]; rfl) (by rw [opcOf_packRI]; rfl) fun _ => ?_
  rw [group_08 (opcOf_packRI ..), parse08, hdrOf_packRI, unpackRI_packRI, fn_packRI]
  obtain ⟨k, hk, rfl⟩ := bv_lit fx; interval_cases k <;> rfl
theorem RoundTrip.sth (h : Hdr) (fx : BitVec 1) (o : RI) : RoundTrip.Statement (.sth h fx o) := by
  refine rt_ofWord rfl rfl (bit47_packRI ..) (by rw [opcOf_packRI]; rfl) (by rw [opcOf_packRI]; rfl) fun _ => ?_
  rw [group_08 (opcOf_packRI ..), parse08, hdrOf_packRI, unpackRI_packRI, fn_packRI]
  obtain ⟨k, hk, rfl⟩ := bv_lit fx; interval_cases k <;> rfl
theorem RoundTrip.stw (h : Hdr) (fx : BitVec 1) (o : RI) : RoundTrip.Statement (.stw h fx o) := by
  refine rt_ofWord rfl rfl (bit47_packRI ..) (by rw [opcOf_packRI]; rfl) (by rw [opcOf_packRI]; rfl) fun _ => ?_
  rw [group_08 (opcOf_packRI ..), parse08, hdrOf_packRI, unpackRI_packRI, fn_packRI]
  obtain ⟨k, hk, rfl⟩ := bv_lit fx; interval_cases k <;> rfl
theorem RoundTrip.std (h : Hdr) (fx : BitVec 1) (o : RI) : RoundTrip.Statement (.std h fx o) := by
  refine rt_ofWord rfl rfl (bit47_packRI ..) (by rw [opcOf_packRI]; rfl) (by rw [opcOf_packRI]; rfl) fun _ => ?_
  rw [group_08 (opcOf_packRI ..), parse08, hdrOf_packRI, unpackRI_packRI, fn_packRI]
  obtain ⟨k, hk, rfl⟩ := bv_lit fx; interval_cases k <;> rfl
theorem RoundTrip.ldra (h : Hdr) (o : RR) : RoundTrip.Statement (.ldra h o) := by
  refine rt_ofWord rfl rfl (bit47_packRR ..) (by rw [opcOf_packRR]; rfl) (by rw [opcOf_packRR]; rfl) fun _ => ?_
  rw [group_09 (opcOf_packRR ..), parse09, hdrOf_packRR, unpackRR_packRR, fn_packRR]; rfl
theorem RoundTrip.aadd (h : Hdr) (o : RR) : RoundTrip.Statement (.aadd h o) := by
  refine rt_ofWord rfl rfl (bit47_packRR ..) (by rw [opcOf_packRR]; rfl) (by rw [opcOf_packRR]; rfl) fun _ => ?_
  rw [group_0A (opcOf_packRR ..), parse0A, hdrOf_packRR, unpackRR_packRR, fn_packRR]; rfl
theorem RoundTrip.aand (h : Hdr) (o : RR) : RoundTrip.Statement (.aand h o) := by
  refine rt_ofWord rfl rfl (bit47_packRR ..) (by rw [opcOf_packRR]; rfl) (by rw [opcOf_packRR]; rfl) fun _ => ?_
  rw [group_0A (opcOf_packRR ..), parse0A, hdrOf_packRR, unpackRR_packRR, fn_packRR]; rfl
theorem RoundTrip.aor (h : Hdr) (o : RR) : RoundTrip.Statement (.aor h o) := by
  refine rt_ofWord rfl rfl (bit47_packRR ..) (by rw [opcOf_packRR]; rfl) (by rw [opcOf_packRR]; rfl) fun _ => ?_
  rw [group_0A (opcOf_packRR ..), parse0A, hdrOf_packRR, unpackRR_packRR, fn_packRR]; rfl
theorem RoundTrip.axor (h : Hdr) (o : RR) : RoundTrip.Statement (.axor h o) := by
  refine rt_ofWord rfl rfl (bit47_packRR ..) (by rw [opcOf_packRR]; rfl) (by rw [opcOf_packRR]; rfl) fun _ => ?_
  rw [group_0A (opcOf_packRR ..), parse0A, hdrOf_packRR, unpackRR_packRR, fn_packRR]; rfl
theorem RoundTrip.amin (h : Hdr) (o : RR) : RoundTrip.Statement (.amin h o) := by
  refine rt_ofWord rfl rfl (bit47_packRR ..) (by rw [opcOf_packRR]; rfl) (by rw [opcOf_packRR]; rfl) fun _ => ?_
  rw [group_0A (opcOf_packRR ..), parse0A, hdrOf_packRR, unpackRR_packRR, fn_packRR]; rfl
theorem RoundTrip.amax (h : Hdr) (o : RR) : RoundTrip.Statement (.amax h o) := by
  refine rt_ofWord rfl rfl (bit47_packRR ..) (by rw [opcOf_packRR]; rfl) (by rw [opcOf_packRR]; rfl) fun _ => ?_
  rw [group_0A (opcOf_packRR ..), parse0A, hdrOf_packRR, unpackRR_packRR, fn_packRR]; rfl
theorem RoundTrip.aswp (h : Hdr) (o : RR) : RoundTrip.Statement (.aswp h o) := by
  refine rt_ofWord rfl rfl (bit47_packRR ..) (by rw [opcOf_packRR]; rfl) (by rw [opcOf_packRR]; rfl) fun _ => ?_
  rw [group_0A (opcOf_packRR ..), parse0A, hdrOf_packRR, unpackRR_packRR, fn_packRR]; rfl
theorem RoundTrip.acas (h : Hdr) (o : RR) : RoundTrip.Statement (.acas h o) := by
  refine rt_ofWord rfl rfl (bit47_packRR ..) (by rw [opcOf_packRR]; rfl) (by rw [opcOf_packRR]; rfl) fun _ => ?_
  rw [group_0A (opcOf_packRR ..), parse0A, hdrOf_packRR, unpackRR_packRR, fn_packRR]; rfl
theorem RoundTrip.afadd (h : Hdr) (o : RR) : RoundTrip.Statement (.afadd h o) := by
  refine rt_ofWord rfl rfl (bit47_packRR ..) (by rw [opcOf_packRR]; rfl) (by rw [opcOf_packRR]; rfl) fun _ => ?_
  rw [group_0A (opcOf_packRR ..), parse0A, hdrOf_packRR, unpackRR_packRR, fn_packRR]; rfl
theorem RoundTrip.facq (h : Hdr) (o : SY) : RoundTrip.Statement (.facq h o) := by
  refine rt_ofWord rfl rfl (bit47_packSY ..) (by rw [opcOf_packSY]; rfl) (by rw [opcOf_packSY]; rfl) fun _ => ?_
  rw [group_0B (opcOf_packSY ..), parse0B, hdrOf_packSY, unpackSY_packSY, fn_packSY]; rfl
theorem RoundTrip.frel (h : Hdr) (o : SY) : RoundTrip.Statement (.frel h o) := by
  refine rt_ofWord rfl rfl (bit47_packSY ..) (by rw [opcOf_packSY]; rfl) (by rw [opcOf_packSY]; rfl) fun _ => ?_
  rw [group_0B (opcOf_packSY ..), parse0B, hdrOf_packSY, unpackSY_packSY, fn_packSY]; rfl
theorem RoundTrip.far (h : Hdr) (o : SY) : RoundTrip.Statement (.far h o) := by
  refine rt_ofWord rfl rfl (bit47_packSY ..) (by rw [opcOf_packSY]; rfl) (by rw [opcOf_packSY]; rfl) fun _ => ?_
  rw [group_0B (opcOf_packSY ..), parse0B, hdrOf_packSY, unpackSY_packSY, fn_packSY]; rfl
theorem RoundTrip.beq (h : Hdr) (o : BR) : RoundTrip.Statement (.beq h o) := by
  refine rt_ofWord rfl rfl (bit47_packBR ..) (by rw [opcOf_packBR]; rfl) (by rw [opcOf_packBR]; rfl) fun _ => ?_
  rw [group_0C (opcOf_packBR ..), parse0C, hdrOf_packBR, unpackBR_packBR, fn_packBR]; rfl
theorem RoundTrip.bne (h : Hdr) (o : BR) : RoundTrip.Statement (.bne h o) := by
  refine rt_ofWord rfl rfl (bit47_packBR ..) (by rw [opcOf_packBR]; rfl) (by rw [opcOf_packBR]; rfl) fun _ => ?_
  rw [group_0C (opcOf_packBR ..), parse0C, hdrOf_packBR, unpackBR_packBR, fn_packBR]; rfl
theorem RoundTrip.blt (h : Hdr) (fx : BitVec 1) (o : BR) : RoundTrip.Statement (.blt h fx o) := by
  refine rt_ofWord rfl rfl (bit47_packBR ..) (by rw [opcOf_packBR]; rfl) (by rw [opcOf_packBR]; rfl) fun _ => ?_
  rw [group_0C (opcOf_packBR ..), parse0C, hdrOf_packBR, unpackBR_packBR, fn_packBR]
  obtain ⟨k, hk, rfl⟩ := bv_lit fx; interval_cases k <;> rfl
theorem RoundTrip.bge (h : Hdr) (fx : BitVec 1) (o : BR) : RoundTrip.Statement (.bge h fx o) := by
  refine rt_ofWord rfl rfl (bit47_packBR ..) (by rw [opcOf_packBR]; rfl) (by rw [opcOf_packBR]; rfl) fun _ => ?_
  rw [group_0C (opcOf_packBR ..), parse0C, hdrOf_packBR, unpackBR_packBR, fn_packBR]
  obtain ⟨k, hk, rfl⟩ := bv_lit fx; interval_cases k <;> rfl
theorem RoundTrip.bz (h : Hdr) (o : BR) : RoundTrip.Statement (.bz h o) := by
  refine rt_ofWord rfl rfl (bit47_packBR ..) (by rw [opcOf_packBR]; rfl) (by rw [opcOf_packBR]; rfl) fun _ => ?_
  rw [group_0D (opcOf_packBR ..), parse0D, hdrOf_packBR, unpackBR_packBR, fn_packBR]; rfl
theorem RoundTrip.bnz (h : Hdr) (o : BR) : RoundTrip.Statement (.bnz h o) := by
  refine rt_ofWord rfl rfl (bit47_packBR ..) (by rw [opcOf_packBR]; rfl) (by rw [opcOf_packBR]; rfl) fun _ => ?_
  rw [group_0D (opcOf_packBR ..), parse0D, hdrOf_packBR, unpackBR_packBR, fn_packBR]; rfl
theorem RoundTrip.dbnz (h : Hdr) (o : BR) : RoundTrip.Statement (.dbnz h o) := by
  refine rt_ofWord rfl rfl (bit47_packBR ..) (by rw [opcOf_packBR]; rfl) (by rw [opcOf_packBR]; rfl) fun _ => ?_
  rw [group_10 (opcOf_packBR ..), parse10, hdrOf_packBR, unpackBR_packBR, fn_packBR]; rfl
theorem RoundTrip.jmp (h : Hdr) (o : JM) : RoundTrip.Statement (.jmp h o) := by
  refine rt_ofWord rfl rfl (bit47_packJM ..) (by rw [opcOf_packJM]; rfl) (by rw [opcOf_packJM]; rfl) fun _ => ?_
  rw [group_0E (opcOf_packJM ..), parse0E, hdrOf_packJM, unpackJM_packJM, fn_packJM]; rfl
theorem RoundTrip.call (h : Hdr) (o : JM) : RoundTrip.Statement (.call h o) := by
  refine rt_ofWord rfl rfl (bit47_packJM ..) (by rw [opcOf_packJM]; rfl) (by rw [opcOf_packJM]; rfl) fun _ => ?_
  rw [group_0E (opcOf_packJM ..), parse0E, hdrOf_packJM, unpackJM_packJM, fn_packJM]; rfl
theorem RoundTrip.jr (h : Hdr) (o : RR) : RoundTrip.Statement (.jr h o) := by
  refine rt_ofWord rfl rfl (bit47_packRR ..) (by rw [opcOf_packRR]; rfl) (by rw [opcOf_packRR]; rfl) fun _ => ?_
  rw [group_0F (opcOf_packRR ..), parse0F, hdrOf_packRR, unpackRR_packRR, fn_packRR]; rfl
theorem RoundTrip.callr (h : Hdr) (o : RR) : RoundTrip.Statement (.callr h o) := by
  refine rt_ofWord rfl rfl (bit47_packRR ..) (by rw [opcOf_packRR]; rfl) (by rw [opcOf_packRR]; rfl) fun _ => ?_
  rw [group_0F (opcOf_packRR ..), parse0F, hdrOf_packRR, unpackRR_packRR, fn_packRR]; rfl
theorem RoundTrip.ret (h : Hdr) (o : RR) : RoundTrip.Statement (.ret h o) := by
  refine rt_ofWord rfl rfl (bit47_packRR ..) (by rw [opcOf_packRR]; rfl) (by rw [opcOf_packRR]; rfl) fun _ => ?_
  rw [group_0F (opcOf_packRR ..), parse0F, hdrOf_packRR, unpackRR_packRR, fn_packRR]; rfl
theorem RoundTrip.setcl (h : Hdr) (o : SY) : RoundTrip.Statement (.setcl h o) := by
  refine rt_ofWord rfl rfl (bit47_packSY ..) (by rw [opcOf_packSY]; rfl) (by rw [opcOf_packSY]; rfl) fun _ => ?_
  rw [group_11 (opcOf_packSY ..), parse11, hdrOf_packSY, unpackSY_packSY, fn_packSY]; rfl
theorem RoundTrip.inccl (h : Hdr) (o : SY) : RoundTrip.Statement (.inccl h o) := by
  refine rt_ofWord rfl rfl (bit47_packSY ..) (by rw [opcOf_packSY]; rfl) (by rw [opcOf_packSY]; rfl) fun _ => ?_
  rw [group_11 (opcOf_packSY ..), parse11, hdrOf_packSY, unpackSY_packSY, fn_packSY]; rfl
theorem RoundTrip.setcrd (h : Hdr) (o : SY) : RoundTrip.Statement (.setcrd h o) := by
  refine rt_ofWord rfl rfl (bit47_packSY ..) (by rw [opcOf_packSY]; rfl) (by rw [opcOf_packSY]; rfl) fun _ => ?_
  rw [group_11 (opcOf_packSY ..), parse11, hdrOf_packSY, unpackSY_packSY, fn_packSY]; rfl
theorem RoundTrip.getcrd (h : Hdr) (o : SY) : RoundTrip.Statement (.getcrd h o) := by
  refine rt_ofWord rfl rfl (bit47_packSY ..) (by rw [opcOf_packSY]; rfl) (by rw [opcOf_packSY]; rfl) fun _ => ?_
  rw [group_11 (opcOf_packSY ..), parse11, hdrOf_packSY, unpackSY_packSY, fn_packSY]; rfl
theorem RoundTrip.getcl (h : Hdr) (o : SY) : RoundTrip.Statement (.getcl h o) := by
  refine rt_ofWord rfl rfl (bit47_packSY ..) (by rw [opcOf_packSY]; rfl) (by rw [opcOf_packSY]; rfl) fun _ => ?_
  rw [group_11 (opcOf_packSY ..), parse11, hdrOf_packSY, unpackSY_packSY, fn_packSY]; rfl
theorem RoundTrip.cut (h : Hdr) (o : SY) : RoundTrip.Statement (.cut h o) := by
  refine rt_ofWord rfl rfl (bit47_packSY ..) (by rw [opcOf_packSY]; rfl) (by rw [opcOf_packSY]; rfl) fun _ => ?_
  rw [group_12 (opcOf_packSY ..), parse12, hdrOf_packSY, unpackSY_packSY, fn_packSY]; rfl
theorem RoundTrip.cutq (h : Hdr) (o : SY) : RoundTrip.Statement (.cutq h o) := by
  refine rt_ofWord rfl rfl (bit47_packSY ..) (by rw [opcOf_packSY]; rfl) (by rw [opcOf_packSY]; rfl) fun _ => ?_
  rw [group_12 (opcOf_packSY ..), parse12, hdrOf_packSY, unpackSY_packSY, fn_packSY]; rfl
theorem RoundTrip.cutw (h : Hdr) (o : SY) : RoundTrip.Statement (.cutw h o) := by
  refine rt_ofWord rfl rfl (bit47_packSY ..) (by rw [opcOf_packSY]; rfl) (by rw [opcOf_packSY]; rfl) fun _ => ?_
  rw [group_12 (opcOf_packSY ..), parse12, hdrOf_packSY, unpackSY_packSY, fn_packSY]; rfl
theorem RoundTrip.pushq (h : Hdr) (o : RR) : RoundTrip.Statement (.pushq h o) := by
  refine rt_ofWord rfl rfl (bit47_packRR ..) (by rw [opcOf_packRR]; rfl) (by rw [opcOf_packRR]; rfl) fun _ => ?_
  rw [group_13 (opcOf_packRR ..), parse13, hdrOf_packRR, unpackRR_packRR, fn_packRR]; rfl
theorem RoundTrip.pushqn (h : Hdr) (o : RR) : RoundTrip.Statement (.pushqn h o) := by
  refine rt_ofWord rfl rfl (bit47_packRR ..) (by rw [opcOf_packRR]; rfl) (by rw [opcOf_packRR]; rfl) fun _ => ?_
  rw [group_13 (opcOf_packRR ..), parse13, hdrOf_packRR, unpackRR_packRR, fn_packRR]; rfl
theorem RoundTrip.ringcpy (h : Hdr) (o : SY) : RoundTrip.Statement (.ringcpy h o) := by
  refine rt_ofWord rfl rfl (bit47_packSY ..) (by rw [opcOf_packSY]; rfl) (by rw [opcOf_packSY]; rfl) fun _ => ?_
  rw [group_14 (opcOf_packSY ..), parse14, hdrOf_packSY, unpackSY_packSY, fn_packSY]; rfl
theorem RoundTrip.wset (h : Hdr) (o : SY) : RoundTrip.Statement (.wset h o) := by
  refine rt_ofWord rfl rfl (bit47_packSY ..) (by rw [opcOf_packSY]; rfl) (by rw [opcOf_packSY]; rfl) fun _ => ?_
  rw [group_15 (opcOf_packSY ..), parse15, hdrOf_packSY, unpackSY_packSY, fn_packSY]; rfl
theorem RoundTrip.tinc (h : Hdr) (o : SY) : RoundTrip.Statement (.tinc h o) := by
  refine rt_ofWord rfl rfl (bit47_packSY ..) (by rw [opcOf_packSY]; rfl) (by rw [opcOf_packSY]; rfl) fun _ => ?_
  rw [group_16 (opcOf_packSY ..), parse16, hdrOf_packSY, unpackSY_packSY, fn_packSY]; rfl
theorem RoundTrip.tdec (h : Hdr) (o : SY) : RoundTrip.Statement (.tdec h o) := by
  refine rt_ofWord rfl rfl (bit47_packSY ..) (by rw [opcOf_packSY]; rfl) (by rw [opcOf_packSY]; rfl) fun _ => ?_
  rw [group_16 (opcOf_packSY ..), parse16, hdrOf_packSY, unpackSY_packSY, fn_packSY]; rfl
theorem RoundTrip.trd (h : Hdr) (o : SY) : RoundTrip.Statement (.trd h o) := by
  refine rt_ofWord rfl rfl (bit47_packSY ..) (by rw [opcOf_packSY]; rfl) (by rw [opcOf_packSY]; rfl) fun _ => ?_
  rw [group_16 (opcOf_packSY ..), parse16, hdrOf_packSY, unpackSY_packSY, fn_packSY]; rfl
theorem RoundTrip.tset (h : Hdr) (o : SY) : RoundTrip.Statement (.tset h o) := by
  refine rt_ofWord rfl rfl (bit47_packSY ..) (by rw [opcOf_packSY]; rfl) (by rw [opcOf_packSY]; rfl) fun _ => ?_
  rw [group_16 (opcOf_packSY ..), parse16, hdrOf_packSY, unpackSY_packSY, fn_packSY]; rfl
theorem RoundTrip.join (h : Hdr) (o : SY) : RoundTrip.Statement (.join h o) := by
  refine rt_ofWord rfl rfl (bit47_packSY ..) (by rw [opcOf_packSY]; rfl) (by rw [opcOf_packSY]; rfl) fun _ => ?_
  rw [group_17 (opcOf_packSY ..), parse17, hdrOf_packSY, unpackSY_packSY, fn_packSY]; rfl
theorem RoundTrip.tdset (h : Hdr) (o : SY) : RoundTrip.Statement (.tdset h o) := by
  refine rt_ofWord rfl rfl (bit47_packSY ..) (by rw [opcOf_packSY]; rfl) (by rw [opcOf_packSY]; rfl) fun _ => ?_
  rw [group_18 (opcOf_packSY ..), parse18, hdrOf_packSY, unpackSY_packSY, fn_packSY]; rfl
theorem RoundTrip.tdrd (h : Hdr) (o : SY) : RoundTrip.Statement (.tdrd h o) := by
  refine rt_ofWord rfl rfl (bit47_packSY ..) (by rw [opcOf_packSY]; rfl) (by rw [opcOf_packSY]; rfl) fun _ => ?_
  rw [group_18 (opcOf_packSY ..), parse18, hdrOf_packSY, unpackSY_packSY, fn_packSY]; rfl
theorem RoundTrip.tdinv (h : Hdr) (o : SY) : RoundTrip.Statement (.tdinv h o) := by
  refine rt_ofWord rfl rfl (bit47_packSY ..) (by rw [opcOf_packSY]; rfl) (by rw [opcOf_packSY]; rfl) fun _ => ?_
  rw [group_18 (opcOf_packSY ..), parse18, hdrOf_packSY, unpackSY_packSY, fn_packSY]; rfl
theorem RoundTrip.phreg (h : Hdr) (o : SY) : RoundTrip.Statement (.phreg h o) := by
  refine rt_ofWord rfl rfl (bit47_packSY ..) (by rw [opcOf_packSY]; rfl) (by rw [opcOf_packSY]; rfl) fun _ => ?_
  rw [group_19 (opcOf_packSY ..), parse19, hdrOf_packSY, unpackSY_packSY, fn_packSY]; rfl
theorem RoundTrip.phdrop (h : Hdr) (o : SY) : RoundTrip.Statement (.phdrop h o) := by
  refine rt_ofWord rfl rfl (bit47_packSY ..) (by rw [opcOf_packSY]; rfl) (by rw [opcOf_packSY]; rfl) fun _ => ?_
  rw [group_19 (opcOf_packSY ..), parse19, hdrOf_packSY, unpackSY_packSY, fn_packSY]; rfl
theorem RoundTrip.phsig (h : Hdr) (o : SY) : RoundTrip.Statement (.phsig h o) := by
  refine rt_ofWord rfl rfl (bit47_packSY ..) (by rw [opcOf_packSY]; rfl) (by rw [opcOf_packSY]; rfl) fun _ => ?_
  rw [group_19 (opcOf_packSY ..), parse19, hdrOf_packSY, unpackSY_packSY, fn_packSY]; rfl
theorem RoundTrip.phwait (h : Hdr) (o : SY) : RoundTrip.Statement (.phwait h o) := by
  refine rt_ofWord rfl rfl (bit47_packSY ..) (by rw [opcOf_packSY]; rfl) (by rw [opcOf_packSY]; rfl) fun _ => ?_
  rw [group_19 (opcOf_packSY ..), parse19, hdrOf_packSY, unpackSY_packSY, fn_packSY]; rfl
theorem RoundTrip.phsw (h : Hdr) (o : SY) : RoundTrip.Statement (.phsw h o) := by
  refine rt_ofWord rfl rfl (bit47_packSY ..) (by rw [opcOf_packSY]; rfl) (by rw [opcOf_packSY]; rfl) fun _ => ?_
  rw [group_19 (opcOf_packSY ..), parse19, hdrOf_packSY, unpackSY_packSY, fn_packSY]; rfl
theorem RoundTrip.phexp (h : Hdr) (o : SY) : RoundTrip.Statement (.phexp h o) := by
  refine rt_ofWord rfl rfl (bit47_packSY ..) (by rw [opcOf_packSY]; rfl) (by rw [opcOf_packSY]; rfl) fun _ => ?_
  rw [group_19 (opcOf_packSY ..), parse19, hdrOf_packSY, unpackSY_packSY, fn_packSY]; rfl
theorem RoundTrip.phrd (h : Hdr) (o : SY) : RoundTrip.Statement (.phrd h o) := by
  refine rt_ofWord rfl rfl (bit47_packSY ..) (by rw [opcOf_packSY]; rfl) (by rw [opcOf_packSY]; rfl) fun _ => ?_
  rw [group_19 (opcOf_packSY ..), parse19, hdrOf_packSY, unpackSY_packSY, fn_packSY]; rfl
theorem RoundTrip.phase (h : Hdr) (o : SY) : RoundTrip.Statement (.phase h o) := by
  refine rt_ofWord rfl rfl (bit47_packSY ..) (by rw [opcOf_packSY]; rfl) (by rw [opcOf_packSY]; rfl) fun _ => ?_
  rw [group_1A (opcOf_packSY ..), parse1A, hdrOf_packSY, unpackSY_packSY, fn_packSY]; rfl
theorem RoundTrip.spawn (h : Hdr) (o : SY) : RoundTrip.Statement (.spawn h o) := by
  refine rt_ofWord rfl rfl (bit47_packSY ..) (by rw [opcOf_packSY]; rfl) (by rw [opcOf_packSY]; rfl) fun _ => ?_
  rw [group_1B (opcOf_packSY ..), parse1B, hdrOf_packSY, unpackSY_packSY, fn_packSY]; rfl
theorem RoundTrip.spawnw (h : Hdr) (o : SY) : RoundTrip.Statement (.spawnw h o) := by
  refine rt_ofWord rfl rfl (bit47_packSY ..) (by rw [opcOf_packSY]; rfl) (by rw [opcOf_packSY]; rfl) fun _ => ?_
  rw [group_1B (opcOf_packSY ..), parse1B, hdrOf_packSY, unpackSY_packSY, fn_packSY]; rfl
theorem RoundTrip.dwb (h : Hdr) (o : SY) : RoundTrip.Statement (.dwb h o) := by
  refine rt_ofWord rfl rfl (bit47_packSY ..) (by rw [opcOf_packSY]; rfl) (by rw [opcOf_packSY]; rfl) fun _ => ?_
  rw [group_1C (opcOf_packSY ..), parse1C, hdrOf_packSY, unpackSY_packSY, fn_packSY]; rfl
theorem RoundTrip.dinv (h : Hdr) (o : SY) : RoundTrip.Statement (.dinv h o) := by
  refine rt_ofWord rfl rfl (bit47_packSY ..) (by rw [opcOf_packSY]; rfl) (by rw [opcOf_packSY]; rfl) fun _ => ?_
  rw [group_1C (opcOf_packSY ..), parse1C, hdrOf_packSY, unpackSY_packSY, fn_packSY]; rfl
theorem RoundTrip.iinv (h : Hdr) (o : SY) : RoundTrip.Statement (.iinv h o) := by
  refine rt_ofWord rfl rfl (bit47_packSY ..) (by rw [opcOf_packSY]; rfl) (by rw [opcOf_packSY]; rfl) fun _ => ?_
  rw [group_1D (opcOf_packSY ..), parse1D, hdrOf_packSY, unpackSY_packSY, fn_packSY]; rfl
theorem RoundTrip.fetchb (h : Hdr) (o : SY) : RoundTrip.Statement (.fetchb h o) := by
  refine rt_ofWord rfl rfl (bit47_packSY ..) (by rw [opcOf_packSY]; rfl) (by rw [opcOf_packSY]; rfl) fun _ => ?_
  rw [group_1E (opcOf_packSY ..), parse1E, hdrOf_packSY, unpackSY_packSY, fn_packSY]; rfl
theorem RoundTrip.ilock (h : Hdr) (o : SY) : RoundTrip.Statement (.ilock h o) := by
  refine rt_ofWord rfl rfl (bit47_packSY ..) (by rw [opcOf_packSY]; rfl) (by rw [opcOf_packSY]; rfl) fun _ => ?_
  rw [group_1F (opcOf_packSY ..), parse1F, hdrOf_packSY, unpackSY_packSY, fn_packSY]; rfl
theorem RoundTrip.iunlk (h : Hdr) (o : SY) : RoundTrip.Statement (.iunlk h o) := by
  refine rt_ofWord rfl rfl (bit47_packSY ..) (by rw [opcOf_packSY]; rfl) (by rw [opcOf_packSY]; rfl) fun _ => ?_
  rw [group_1F (opcOf_packSY ..), parse1F, hdrOf_packSY, unpackSY_packSY, fn_packSY]; rfl
theorem RoundTrip.ecfgw (h : Hdr) (o : SY) : RoundTrip.Statement (.ecfgw h o) := by
  refine rt_ofWord rfl rfl (bit47_packSY ..) (by rw [opcOf_packSY]; rfl) (by rw [opcOf_packSY]; rfl) fun _ => ?_
  rw [group_20 (opcOf_packSY ..), parse20, hdrOf_packSY, unpackSY_packSY, fn_packSY]; rfl
theorem RoundTrip.ecfgr (h : Hdr) (o : SY) : RoundTrip.Statement (.ecfgr h o) := by
  refine rt_ofWord rfl rfl (bit47_packSY ..) (by rw [opcOf_packSY]; rfl) (by rw [opcOf_packSY]; rfl) fun _ => ?_
  rw [group_20 (opcOf_packSY ..), parse20, hdrOf_packSY, unpackSY_packSY, fn_packSY]; rfl
theorem RoundTrip.rdsr (h : Hdr) (o : SY) : RoundTrip.Statement (.rdsr h o) := by
  refine rt_ofWord rfl rfl (bit47_packSY ..) (by rw [opcOf_packSY]; rfl) (by rw [opcOf_packSY]; rfl) fun _ => ?_
  rw [group_21 (opcOf_packSY ..), parse21, hdrOf_packSY, unpackSY_packSY, fn_packSY]; rfl
theorem RoundTrip.wrsr (h : Hdr) (o : SY) : RoundTrip.Statement (.wrsr h o) := by
  refine rt_ofWord rfl rfl (bit47_packSY ..) (by rw [opcOf_packSY]; rfl) (by rw [opcOf_packSY]; rfl) fun _ => ?_
  rw [group_21 (opcOf_packSY ..), parse21, hdrOf_packSY, unpackSY_packSY, fn_packSY]; rfl
theorem RoundTrip.setsr (h : Hdr) (o : SY) : RoundTrip.Statement (.setsr h o) := by
  refine rt_ofWord rfl rfl (bit47_packSY ..) (by rw [opcOf_packSY]; rfl) (by rw [opcOf_packSY]; rfl) fun _ => ?_
  rw [group_21 (opcOf_packSY ..), parse21, hdrOf_packSY, unpackSY_packSY, fn_packSY]; rfl
theorem RoundTrip.clrsr (h : Hdr) (o : SY) : RoundTrip.Statement (.clrsr h o) := by
  refine rt_ofWord rfl rfl (bit47_packSY ..) (by rw [opcOf_packSY]; rfl) (by rw [opcOf_packSY]; rfl) fun _ => ?_
  rw [group_21 (opcOf_packSY ..), parse21, hdrOf_packSY, unpackSY_packSY, fn_packSY]; rfl
theorem RoundTrip.trap (h : Hdr) (o : SY) : RoundTrip.Statement (.trap h o) := by
  refine rt_ofWord rfl rfl (bit47_packSY ..) (by rw [opcOf_packSY]; rfl) (by rw [opcOf_packSY]; rfl) fun _ => ?_
  rw [group_22 (opcOf_packSY ..), parse22, hdrOf_packSY, unpackSY_packSY, fn_packSY]; rfl
theorem RoundTrip.brk (h : Hdr) (o : SY) : RoundTrip.Statement (.brk h o) := by
  refine rt_ofWord rfl rfl (bit47_packSY ..) (by rw [opcOf_packSY]; rfl) (by rw [opcOf_packSY]; rfl) fun _ => ?_
  rw [group_22 (opcOf_packSY ..), parse22, hdrOf_packSY, unpackSY_packSY, fn_packSY]; rfl
theorem RoundTrip.tret (h : Hdr) (o : SY) : RoundTrip.Statement (.tret h o) := by
  refine rt_ofWord rfl rfl (bit47_packSY ..) (by rw [opcOf_packSY]; rfl) (by rw [opcOf_packSY]; rfl) fun _ => ?_
  rw [group_23 (opcOf_packSY ..), parse23, hdrOf_packSY, unpackSY_packSY, fn_packSY]; rfl
theorem RoundTrip.cbstat (h : Hdr) (o : SY) : RoundTrip.Statement (.cbstat h o) := by
  refine rt_ofWord rfl rfl (bit47_packSY ..) (by rw [opcOf_packSY]; rfl) (by rw [opcOf_packSY]; rfl) fun _ => ?_
  rw [group_24 (opcOf_packSY ..), parse24, hdrOf_packSY, unpackSY_packSY, fn_packSY]; rfl
theorem RoundTrip.cbrst (h : Hdr) (o : SY) : RoundTrip.Statement (.cbrst h o) := by
  refine rt_ofWord rfl rfl (bit47_packSY ..) (by rw [opcOf_packSY]; rfl) (by rw [opcOf_packSY]; rfl) fun _ => ?_
  rw [group_24 (opcOf_packSY ..), parse24, hdrOf_packSY, unpackSY_packSY, fn_packSY]; rfl
theorem RoundTrip.ttrd (h : Hdr) (o : SY) : RoundTrip.Statement (.ttrd h o) := by
  refine rt_ofWord rfl rfl (bit47_packSY ..) (by rw [opcOf_packSY]; rfl) (by rw [opcOf_packSY]; rfl) fun _ => ?_
  rw [group_25 (opcOf_packSY ..), parse25, hdrOf_packSY, unpackSY_packSY, fn_packSY]; rfl
theorem RoundTrip.ttset (h : Hdr) (o : SY) : RoundTrip.Statement (.ttset h o) := by
  refine rt_ofWord rfl rfl (bit47_packSY ..) (by rw [opcOf_packSY]; rfl) (by rw [opcOf_packSY]; rfl) fun _ => ?_
  rw [group_25 (opcOf_packSY ..), parse25, hdrOf_packSY, unpackSY_packSY, fn_packSY]; rfl
theorem RoundTrip.ttref (h : Hdr) (o : SY) : RoundTrip.Statement (.ttref h o) := by
  refine rt_ofWord rfl rfl (bit47_packSY ..) (by rw [opcOf_packSY]; rfl) (by rw [opcOf_packSY]; rfl) fun _ => ?_
  rw [group_25 (opcOf_packSY ..), parse25, hdrOf_packSY, unpackSY_packSY, fn_packSY]; rfl
theorem RoundTrip.ttunref (h : Hdr) (o : SY) : RoundTrip.Statement (.ttunref h o) := by
  refine rt_ofWord rfl rfl (bit47_packSY ..) (by rw [opcOf_packSY]; rfl) (by rw [opcOf_packSY]; rfl) fun _ => ?_
  rw [group_25 (opcOf_packSY ..), parse25, hdrOf_packSY, unpackSY_packSY, fn_packSY]; rfl
theorem RoundTrip.pgreq (h : Hdr) (o : TN) : RoundTrip.Statement (.pgreq h o) := by
  refine rt_ofWord rfl rfl (bit47_packTN ..) (by rw [opcOf_packTN]; rfl) (by rw [opcOf_packTN]; rfl) fun _ => ?_
  rw [group_26 (opcOf_packTN ..), parse26, hdrOf_packTN, unpackTN_packTN, fn_packTN]; rfl
theorem RoundTrip.tend (h : Hdr) (o : SY) : RoundTrip.Statement (.tend h o) := by
  refine rt_ofWord rfl rfl (bit47_packSY ..) (by rw [opcOf_packSY]; rfl) (by rw [opcOf_packSY]; rfl) fun _ => ?_
  rw [group_27 (opcOf_packSY ..), parse27, hdrOf_packSY, unpackSY_packSY, fn_packSY]; rfl
theorem RoundTrip.ctxnew (h : Hdr) (o : SY) : RoundTrip.Statement (.ctxnew h o) := by
  refine rt_ofWord rfl rfl (bit47_packSY ..) (by rw [opcOf_packSY]; rfl) (by rw [opcOf_packSY]; rfl) fun _ => ?_
  rw [group_28 (opcOf_packSY ..), parse28, hdrOf_packSY, unpackSY_packSY, fn_packSY]; rfl
theorem RoundTrip.ctxkill (h : Hdr) (o : SY) : RoundTrip.Statement (.ctxkill h o) := by
  refine rt_ofWord rfl rfl (bit47_packSY ..) (by rw [opcOf_packSY]; rfl) (by rw [opcOf_packSY]; rfl) fun _ => ?_
  rw [group_28 (opcOf_packSY ..), parse28, hdrOf_packSY, unpackSY_packSY, fn_packSY]; rfl
theorem RoundTrip.ctxinc (h : Hdr) (o : SY) : RoundTrip.Statement (.ctxinc h o) := by
  refine rt_ofWord rfl rfl (bit47_packSY ..) (by rw [opcOf_packSY]; rfl) (by rw [opcOf_packSY]; rfl) fun _ => ?_
  rw [group_28 (opcOf_packSY ..), parse28, hdrOf_packSY, unpackSY_packSY, fn_packSY]; rfl
theorem RoundTrip.ctxsave (h : Hdr) (o : SY) : RoundTrip.Statement (.ctxsave h o) := by
  refine rt_ofWord rfl rfl (bit47_packSY ..) (by rw [opcOf_packSY]; rfl) (by rw [opcOf_packSY]; rfl) fun _ => ?_
  rw [group_28 (opcOf_packSY ..), parse28, hdrOf_packSY, unpackSY_packSY, fn_packSY]; rfl
theorem RoundTrip.ctxload (h : Hdr) (o : SY) : RoundTrip.Statement (.ctxload h o) := by
  refine rt_ofWord rfl rfl (bit47_packSY ..) (by rw [opcOf_packSY]; rfl) (by rw [opcOf_packSY]; rfl) fun _ => ?_
  rw [group_28 (opcOf_packSY ..), parse28, hdrOf_packSY, unpackSY_packSY, fn_packSY]; rfl
theorem RoundTrip.rcf (h : Hdr) (o : SY) : RoundTrip.Statement (.rcf h o) := by
  refine rt_ofWord rfl rfl (bit47_packSY ..) (by rw [opcOf_packSY]; rfl) (by rw [opcOf_packSY]; rfl) fun _ => ?_
  rw [group_29 (opcOf_packSY ..), parse29, hdrOf_packSY, unpackSY_packSY, fn_packSY]; rfl
theorem RoundTrip.pcreate (h : Hdr) (o : SY) : RoundTrip.Statement (.pcreate h o) := by
  refine rt_ofWord rfl rfl (bit47_packSY ..) (by rw [opcOf_packSY]; rfl) (by rw [opcOf_packSY]; rfl) fun _ => ?_
  rw [group_2A (opcOf_packSY ..), parse2A, hdrOf_packSY, unpackSY_packSY, fn_packSY]; rfl
theorem RoundTrip.psetq (h : Hdr) (o : SY) : RoundTrip.Statement (.psetq h o) := by
  refine rt_ofWord rfl rfl (bit47_packSY ..) (by rw [opcOf_packSY]; rfl) (by rw [opcOf_packSY]; rfl) fun _ => ?_
  rw [group_2A (opcOf_packSY ..), parse2A, hdrOf_packSY, unpackSY_packSY, fn_packSY]; rfl
theorem RoundTrip.pdestroy (h : Hdr) (o : SY) : RoundTrip.Statement (.pdestroy h o) := by
  refine rt_ofWord rfl rfl (bit47_packSY ..) (by rw [opcOf_packSY]; rfl) (by rw [opcOf_packSY]; rfl) fun _ => ?_
  rw [group_2A (opcOf_packSY ..), parse2A, hdrOf_packSY, unpackSY_packSY, fn_packSY]; rfl
theorem RoundTrip.chmap (h : Hdr) (o : SY) : RoundTrip.Statement (.chmap h o) := by
  refine rt_ofWord rfl rfl (bit47_packSY ..) (by rw [opcOf_packSY]; rfl) (by rw [opcOf_packSY]; rfl) fun _ => ?_
  rw [group_2B (opcOf_packSY ..), parse2B, hdrOf_packSY, unpackSY_packSY, fn_packSY]; rfl
theorem RoundTrip.slice (h : Hdr) (o : SY) : RoundTrip.Statement (.slice h o) := by
  refine rt_ofWord rfl rfl (bit47_packSY ..) (by rw [opcOf_packSY]; rfl) (by rw [opcOf_packSY]; rfl) fun _ => ?_
  rw [group_2C (opcOf_packSY ..), parse2C, hdrOf_packSY, unpackSY_packSY, fn_packSY]; rfl
theorem RoundTrip.sbudget (h : Hdr) (o : SY) : RoundTrip.Statement (.sbudget h o) := by
  refine rt_ofWord rfl rfl (bit47_packSY ..) (by rw [opcOf_packSY]; rfl) (by rw [opcOf_packSY]; rfl) fun _ => ?_
  rw [group_2C (opcOf_packSY ..), parse2C, hdrOf_packSY, unpackSY_packSY, fn_packSY]; rfl
theorem RoundTrip.fbpop (h : Hdr) (o : SY) : RoundTrip.Statement (.fbpop h o) := by
  refine rt_ofWord rfl rfl (bit47_packSY ..) (by rw [opcOf_packSY]; rfl) (by rw [opcOf_packSY]; rfl) fun _ => ?_
  rw [group_2D (opcOf_packSY ..), parse2D, hdrOf_packSY, unpackSY_packSY, fn_packSY]; rfl
theorem RoundTrip.fbrel (h : Hdr) (o : SY) : RoundTrip.Statement (.fbrel h o) := by
  refine rt_ofWord rfl rfl (bit47_packSY ..) (by rw [opcOf_packSY]; rfl) (by rw [opcOf_packSY]; rfl) fun _ => ?_
  rw [group_2D (opcOf_packSY ..), parse2D, hdrOf_packSY, unpackSY_packSY, fn_packSY]; rfl
theorem RoundTrip.pgpop (h : Hdr) (o : SY) : RoundTrip.Statement (.pgpop h o) := by
  refine rt_ofWord rfl rfl (bit47_packSY ..) (by rw [opcOf_packSY]; rfl) (by rw [opcOf_packSY]; rfl) fun _ => ?_
  rw [group_2D (opcOf_packSY ..), parse2D, hdrOf_packSY, unpackSY_packSY, fn_packSY]; rfl
theorem RoundTrip.fbact (h : Hdr) (o : SY) : RoundTrip.Statement (.fbact h o) := by
  refine rt_ofWord rfl rfl (bit47_packSY ..) (by rw [opcOf_packSY]; rfl) (by rw [opcOf_packSY]; rfl) fun _ => ?_
  rw [group_2D (opcOf_packSY ..), parse2D, hdrOf_packSY, unpackSY_packSY, fn_packSY]; rfl
theorem RoundTrip.frz (h : Hdr) (o : SY) : RoundTrip.Statement (.frz h o) := by
  refine rt_ofWord rfl rfl (bit47_packSY ..) (by rw [opcOf_packSY]; rfl) (by rw [opcOf_packSY]; rfl) fun _ => ?_
  rw [group_2E (opcOf_packSY ..), parse2E, hdrOf_packSY, unpackSY_packSY, fn_packSY]; rfl
theorem RoundTrip.caprd (h : Hdr) (o : SY) : RoundTrip.Statement (.caprd h o) := by
  refine rt_ofWord rfl rfl (bit47_packSY ..) (by rw [opcOf_packSY]; rfl) (by rw [opcOf_packSY]; rfl) fun _ => ?_
  rw [group_2E (opcOf_packSY ..), parse2E, hdrOf_packSY, unpackSY_packSY, fn_packSY]; rfl
theorem RoundTrip.sleep (h : Hdr) (o : SY) : RoundTrip.Statement (.sleep h o) := by
  refine rt_ofWord rfl rfl (bit47_packSY ..) (by rw [opcOf_packSY]; rfl) (by rw [opcOf_packSY]; rfl) fun _ => ?_
  rw [group_2E (opcOf_packSY ..), parse2E, hdrOf_packSY, unpackSY_packSY, fn_packSY]; rfl
theorem RoundTrip.wfe (h : Hdr) (o : SY) : RoundTrip.Statement (.wfe h o) := by
  refine rt_ofWord rfl rfl (bit47_packSY ..) (by rw [opcOf_packSY]; rfl) (by rw [opcOf_packSY]; rfl) fun _ => ?_
  rw [group_2F (opcOf_packSY ..), parse2F, hdrOf_packSY, unpackSY_packSY, fn_packSY]; rfl
theorem RoundTrip.ldt (h : Hdr) (o : TN) : RoundTrip.Statement (.ldt h o) := by
  refine rt_ofWord rfl rfl (bit47_packTN ..) (by rw [opcOf_packTN]; rfl) (by rw [opcOf_packTN]; rfl) fun _ => ?_
  rw [group_30 (opcOf_packTN ..), parse30, hdrOf_packTN, unpackTN_packTN, fn_packTN]; rfl
theorem RoundTrip.ldtr (h : Hdr) (o : TN) : RoundTrip.Statement (.ldtr h o) := by
  refine rt_ofWord rfl rfl (bit47_packTN ..) (by rw [opcOf_packTN]; rfl) (by rw [opcOf_packTN]; rfl) fun _ => ?_
  rw [group_30 (opcOf_packTN ..), parse30, hdrOf_packTN, unpackTN_packTN, fn_packTN]; rfl
theorem RoundTrip.stt (h : Hdr) (o : TN) : RoundTrip.Statement (.stt h o) := by
  refine rt_ofWord rfl rfl (bit47_packTN ..) (by rw [opcOf_packTN]; rfl) (by rw [opcOf_packTN]; rfl) fun _ => ?_
  rw [group_31 (opcOf_packTN ..), parse31, hdrOf_packTN, unpackTN_packTN, fn_packTN]; rfl
theorem RoundTrip.lds (h : Hdr) (o : RRI) : RoundTrip.Statement (.lds h o) := by
  refine rt_ofWord rfl rfl (bit47_packRRI ..) (by rw [opcOf_packRRI]; rfl) (by rw [opcOf_packRRI]; rfl) fun _ => ?_
  rw [group_32 (opcOf_packRRI ..), parse32, hdrOf_packRRI, unpackRRI_packRRI, fn_packRRI]; rfl
theorem RoundTrip.ldsb (h : Hdr) (o : RRI) : RoundTrip.Statement (.ldsb h o) := by
  refine rt_ofWord rfl rfl (bit47_packRRI ..) (by rw [opcOf_packRRI]; rfl) (by rw [opcOf_packRRI]; rfl) fun _ => ?_
  rw [group_32 (opcOf_packRRI ..), parse32, hdrOf_packRRI, unpackRRI_packRRI, fn_packRRI]; rfl
theorem RoundTrip.sts (h : Hdr) (o : RRI) : RoundTrip.Statement (.sts h o) := by
  refine rt_ofWord rfl rfl (bit47_packRRI ..) (by rw [opcOf_packRRI]; rfl) (by rw [opcOf_packRRI]; rfl) fun _ => ?_
  rw [group_33 (opcOf_packRRI ..), parse33, hdrOf_packRRI, unpackRRI_packRRI, fn_packRRI]; rfl
theorem RoundTrip.gath (h : Hdr) (o : TN) : RoundTrip.Statement (.gath h o) := by
  refine rt_ofWord rfl rfl (bit47_packTN ..) (by rw [opcOf_packTN]; rfl) (by rw [opcOf_packTN]; rfl) fun _ => ?_
  rw [group_34 (opcOf_packTN ..), parse34, hdrOf_packTN, unpackTN_packTN, fn_packTN]; rfl
theorem RoundTrip.scat (h : Hdr) (o : TN) : RoundTrip.Statement (.scat h o) := by
  refine rt_ofWord rfl rfl (bit47_packTN ..) (by rw [opcOf_packTN]; rfl) (by rw [opcOf_packTN]; rfl) fun _ => ?_
  rw [group_34 (opcOf_packTN ..), parse34, hdrOf_packTN, unpackTN_packTN, fn_packTN]; rfl
theorem RoundTrip.gadd (h : Hdr) (o : RR) : RoundTrip.Statement (.gadd h o) := by
  refine rt_ofWord rfl rfl (bit47_packRR ..) (by rw [opcOf_packRR]; rfl) (by rw [opcOf_packRR]; rfl) fun _ => ?_
  rw [group_35 (opcOf_packRR ..), parse35, hdrOf_packRR, unpackRR_packRR, fn_packRR]; rfl
theorem RoundTrip.gsub (h : Hdr) (o : RR) : RoundTrip.Statement (.gsub h o) := by
  refine rt_ofWord rfl rfl (bit47_packRR ..) (by rw [opcOf_packRR]; rfl) (by rw [opcOf_packRR]; rfl) fun _ => ?_
  rw [group_35 (opcOf_packRR ..), parse35, hdrOf_packRR, unpackRR_packRR, fn_packRR]; rfl
theorem RoundTrip.gmul (h : Hdr) (o : RR) : RoundTrip.Statement (.gmul h o) := by
  refine rt_ofWord rfl rfl (bit47_packRR ..) (by rw [opcOf_packRR]; rfl) (by rw [opcOf_packRR]; rfl) fun _ => ?_
  rw [group_35 (opcOf_packRR ..), parse35, hdrOf_packRR, unpackRR_packRR, fn_packRR]; rfl
theorem RoundTrip.gshl (h : Hdr) (o : RR) : RoundTrip.Statement (.gshl h o) := by
  refine rt_ofWord rfl rfl (bit47_packRR ..) (by rw [opcOf_packRR]; rfl) (by rw [opcOf_packRR]; rfl) fun _ => ?_
  rw [group_35 (opcOf_packRR ..), parse35, hdrOf_packRR, unpackRR_packRR, fn_packRR]; rfl
theorem RoundTrip.gshr (h : Hdr) (o : RR) : RoundTrip.Statement (.gshr h o) := by
  refine rt_ofWord rfl rfl (bit47_packRR ..) (by rw [opcOf_packRR]; rfl) (by rw [opcOf_packRR]; rfl) fun _ => ?_
  rw [group_35 (opcOf_packRR ..), parse35, hdrOf_packRR, unpackRR_packRR, fn_packRR]; rfl
theorem RoundTrip.gand (h : Hdr) (o : RR) : RoundTrip.Statement (.gand h o) := by
  refine rt_ofWord rfl rfl (bit47_packRR ..) (by rw [opcOf_packRR]; rfl) (by rw [opcOf_packRR]; rfl) fun _ => ?_
  rw [group_35 (opcOf_packRR ..), parse35, hdrOf_packRR, unpackRR_packRR, fn_packRR]; rfl
theorem RoundTrip.gor (h : Hdr) (o : RR) : RoundTrip.Statement (.gor h o) := by
  refine rt_ofWord rfl rfl (bit47_packRR ..) (by rw [opcOf_packRR]; rfl) (by rw [opcOf_packRR]; rfl) fun _ => ?_
  rw [group_35 (opcOf_packRR ..), parse35, hdrOf_packRR, unpackRR_packRR, fn_packRR]; rfl
theorem RoundTrip.gmin (h : Hdr) (o : RR) : RoundTrip.Statement (.gmin h o) := by
  refine rt_ofWord rfl rfl (bit47_packRR ..) (by rw [opcOf_packRR]; rfl) (by rw [opcOf_packRR]; rfl) fun _ => ?_
  rw [group_35 (opcOf_packRR ..), parse35, hdrOf_packRR, unpackRR_packRR, fn_packRR]; rfl
theorem RoundTrip.gmax (h : Hdr) (o : RR) : RoundTrip.Statement (.gmax h o) := by
  refine rt_ofWord rfl rfl (bit47_packRR ..) (by rw [opcOf_packRR]; rfl) (by rw [opcOf_packRR]; rfl) fun _ => ?_
  rw [group_35 (opcOf_packRR ..), parse35, hdrOf_packRR, unpackRR_packRR, fn_packRR]; rfl
theorem RoundTrip.gaddi (h : Hdr) (o : RRI) : RoundTrip.Statement (.gaddi h o) := by
  refine rt_ofWord rfl rfl (bit47_packRRI ..) (by rw [opcOf_packRRI]; rfl) (by rw [opcOf_packRRI]; rfl) fun _ => ?_
  rw [group_36 (opcOf_packRRI ..), parse36, hdrOf_packRRI, unpackRRI_packRRI, fn_packRRI]; rfl
theorem RoundTrip.gandi (h : Hdr) (o : RRI) : RoundTrip.Statement (.gandi h o) := by
  refine rt_ofWord rfl rfl (bit47_packRRI ..) (by rw [opcOf_packRRI]; rfl) (by rw [opcOf_packRRI]; rfl) fun _ => ?_
  rw [group_36 (opcOf_packRRI ..), parse36, hdrOf_packRRI, unpackRRI_packRRI, fn_packRRI]; rfl
theorem RoundTrip.gshli (h : Hdr) (o : RRI) : RoundTrip.Statement (.gshli h o) := by
  refine rt_ofWord rfl rfl (bit47_packRRI ..) (by rw [opcOf_packRRI]; rfl) (by rw [opcOf_packRRI]; rfl) fun _ => ?_
  rw [group_36 (opcOf_packRRI ..), parse36, hdrOf_packRRI, unpackRRI_packRRI, fn_packRRI]; rfl
theorem RoundTrip.gmovi (h : Hdr) (o : RI) : RoundTrip.Statement (.gmovi h o) := by
  refine rt_ofWord rfl rfl (bit47_packRI ..) (by rw [opcOf_packRI]; rfl) (by rw [opcOf_packRI]; rfl) fun _ => ?_
  rw [group_37 (opcOf_packRI ..), parse37, hdrOf_packRI, unpackRI_packRI, fn_packRI]; rfl
theorem RoundTrip.gmovhi (h : Hdr) (o : RI) : RoundTrip.Statement (.gmovhi h o) := by
  refine rt_ofWord rfl rfl (bit47_packRI ..) (by rw [opcOf_packRI]; rfl) (by rw [opcOf_packRI]; rfl) fun _ => ?_
  rw [group_37 (opcOf_packRI ..), parse37, hdrOf_packRI, unpackRI_packRI, fn_packRI]; rfl
theorem RoundTrip.gcl (h : Hdr) (o : RI) : RoundTrip.Statement (.gcl h o) := by
  refine rt_ofWord rfl rfl (bit47_packRI ..) (by rw [opcOf_packRI]; rfl) (by rw [opcOf_packRI]; rfl) fun _ => ?_
  rw [group_37 (opcOf_packRI ..), parse37, hdrOf_packRI, unpackRI_packRI, fn_packRI]; rfl
theorem RoundTrip.gparm (h : Hdr) (o : RI) : RoundTrip.Statement (.gparm h o) := by
  refine rt_ofWord rfl rfl (bit47_packRI ..) (by rw [opcOf_packRI]; rfl) (by rw [opcOf_packRI]; rfl) fun _ => ?_
  rw [group_3F (opcOf_packRI ..), parse3F, hdrOf_packRI, unpackRI_packRI, fn_packRI]; rfl
theorem RoundTrip.loopAcc (h : Hdr) (fx : BitVec 3) (o : RI) : RoundTrip.Statement (.loopAcc h fx o) := by
  refine rt_ofWord rfl rfl (bit47_packRI ..) (by rw [opcOf_packRI]; rfl) (by rw [opcOf_packRI]; rfl) fun _ => ?_
  rw [group_38 (opcOf_packRI ..), parse38, hdrOf_packRI, unpackRI_packRI, fn_packRI]
  obtain ⟨k, hk, rfl⟩ := bv_lit fx; interval_cases k <;> rfl
theorem RoundTrip.sloop (h : Hdr) (fx : BitVec 1) (o : RI) : RoundTrip.Statement (.sloop h fx o) := by
  refine rt_ofWord rfl rfl (bit47_packRI ..) (by rw [opcOf_packRI]; rfl) (by rw [opcOf_packRI]; rfl) fun _ => ?_
  rw [group_39 (opcOf_packRI ..), parse39, hdrOf_packRI, unpackRI_packRI, fn_packRI]
  obtain ⟨k, hk, rfl⟩ := bv_lit fx; interval_cases k <;> rfl
theorem RoundTrip.bpushAcc (h : Hdr) (o : RRI) : RoundTrip.Statement (.bpushAcc h o) := by
  refine rt_ofWord rfl rfl (bit47_packRRI ..) (by rw [opcOf_packRRI]; rfl) (by rw [opcOf_packRRI]; rfl) fun _ => ?_
  rw [group_3A (opcOf_packRRI ..), parse3A, hdrOf_packRRI, unpackRRI_packRRI, fn_packRRI]; rfl
theorem RoundTrip.bskipAcc (h : Hdr) (o : RRI) : RoundTrip.Statement (.bskipAcc h o) := by
  refine rt_ofWord rfl rfl (bit47_packRRI ..) (by rw [opcOf_packRRI]; rfl) (by rw [opcOf_packRRI]; rfl) fun _ => ?_
  rw [group_3A (opcOf_packRRI ..), parse3A, hdrOf_packRRI, unpackRRI_packRRI, fn_packRRI]; rfl
theorem RoundTrip.cbacq (h : Hdr) (o : RRI) : RoundTrip.Statement (.cbacq h o) := by
  refine rt_ofWord rfl rfl (bit47_packRRI ..) (by rw [opcOf_packRRI]; rfl) (by rw [opcOf_packRRI]; rfl) fun _ => ?_
  rw [group_3B (opcOf_packRRI ..), parse3B, hdrOf_packRRI, unpackRRI_packRRI, fn_packRRI]; rfl
theorem RoundTrip.cbrel (h : Hdr) (o : RRI) : RoundTrip.Statement (.cbrel h o) := by
  refine rt_ofWord rfl rfl (bit47_packRRI ..) (by rw [opcOf_packRRI]; rfl) (by rw [opcOf_packRRI]; rfl) fun _ => ?_
  rw [group_3B (opcOf_packRRI ..), parse3B, hdrOf_packRRI, unpackRRI_packRRI, fn_packRRI]; rfl
theorem RoundTrip.setclAcc (h : Hdr) (o : RRI) : RoundTrip.Statement (.setclAcc h o) := by
  refine rt_ofWord rfl rfl (bit47_packRRI ..) (by rw [opcOf_packRRI]; rfl) (by rw [opcOf_packRRI]; rfl) fun _ => ?_
  rw [group_3C (opcOf_packRRI ..), parse3C, hdrOf_packRRI, unpackRRI_packRRI, fn_packRRI]; rfl
theorem RoundTrip.incclAcc (h : Hdr) (o : RRI) : RoundTrip.Statement (.incclAcc h o) := by
  refine rt_ofWord rfl rfl (bit47_packRRI ..) (by rw [opcOf_packRRI]; rfl) (by rw [opcOf_packRRI]; rfl) fun _ => ?_
  rw [group_3C (opcOf_packRRI ..), parse3C, hdrOf_packRRI, unpackRRI_packRRI, fn_packRRI]; rfl
theorem RoundTrip.dqflush (h : Hdr) (o : RRI) : RoundTrip.Statement (.dqflush h o) := by
  refine rt_ofWord rfl rfl (bit47_packRRI ..) (by rw [opcOf_packRRI]; rfl) (by rw [opcOf_packRRI]; rfl) fun _ => ?_
  rw [group_3D (opcOf_packRRI ..), parse3D, hdrOf_packRRI, unpackRRI_packRRI, fn_packRRI]; rfl
theorem RoundTrip.dqeos (h : Hdr) (o : RRI) : RoundTrip.Statement (.dqeos h o) := by
  refine rt_ofWord rfl rfl (bit47_packRRI ..) (by rw [opcOf_packRRI]; rfl) (by rw [opcOf_packRRI]; rfl) fun _ => ?_
  rw [group_3D (opcOf_packRRI ..), parse3D, hdrOf_packRRI, unpackRRI_packRRI, fn_packRRI]; rfl
theorem RoundTrip.pgreqAcc (h : Hdr) (o : TN) : RoundTrip.Statement (.pgreqAcc h o) := by
  refine rt_ofWord rfl rfl (bit47_packTN ..) (by rw [opcOf_packTN]; rfl) (by rw [opcOf_packTN]; rfl) fun _ => ?_
  rw [group_3E (opcOf_packTN ..), parse3E, hdrOf_packTN, unpackTN_packTN, fn_packTN]; rfl
theorem RoundTrip.vadd (h : Hdr) (fx : BitVec 2) (o : RR) : RoundTrip.Statement (.vadd h fx o) := by
  refine rt_ofWord rfl rfl (bit47_packRR ..) (by rw [opcOf_packRR]; rfl) (by rw [opcOf_packRR]; rfl) fun _ => ?_
  rw [group_40 (opcOf_packRR ..), parse40, hdrOf_packRR, unpackRR_packRR, fn_packRR]
  obtain ⟨k, hk, rfl⟩ := bv_lit fx; interval_cases k <;> rfl
theorem RoundTrip.vsub (h : Hdr) (fx : BitVec 2) (o : RR) : RoundTrip.Statement (.vsub h fx o) := by
  refine rt_ofWord rfl rfl (bit47_packRR ..) (by rw [opcOf_packRR]; rfl) (by rw [opcOf_packRR]; rfl) fun _ => ?_
  rw [group_40 (opcOf_packRR ..), parse40, hdrOf_packRR, unpackRR_packRR, fn_packRR]
  obtain ⟨k, hk, rfl⟩ := bv_lit fx; interval_cases k <;> rfl
theorem RoundTrip.vmul (h : Hdr) (fx : BitVec 2) (o : RR) : RoundTrip.Statement (.vmul h fx o) := by
  refine rt_ofWord rfl rfl (bit47_packRR ..) (by rw [opcOf_packRR]; rfl) (by rw [opcOf_packRR]; rfl) fun _ => ?_
  rw [group_40 (opcOf_packRR ..), parse40, hdrOf_packRR, unpackRR_packRR, fn_packRR]
  obtain ⟨k, hk, rfl⟩ := bv_lit fx; interval_cases k <;> rfl
theorem RoundTrip.vmin (h : Hdr) (fx : BitVec 2) (o : RR) : RoundTrip.Statement (.vmin h fx o) := by
  refine rt_ofWord rfl rfl (bit47_packRR ..) (by rw [opcOf_packRR]; rfl) (by rw [opcOf_packRR]; rfl) fun _ => ?_
  rw [group_40 (opcOf_packRR ..), parse40, hdrOf_packRR, unpackRR_packRR, fn_packRR]
  obtain ⟨k, hk, rfl⟩ := bv_lit fx; interval_cases k <;> rfl
theorem RoundTrip.vmax (h : Hdr) (fx : BitVec 2) (o : RR) : RoundTrip.Statement (.vmax h fx o) := by
  refine rt_ofWord rfl rfl (bit47_packRR ..) (by rw [opcOf_packRR]; rfl) (by rw [opcOf_packRR]; rfl) fun _ => ?_
  rw [group_40 (opcOf_packRR ..), parse40, hdrOf_packRR, unpackRR_packRR, fn_packRR]
  obtain ⟨k, hk, rfl⟩ := bv_lit fx; interval_cases k <;> rfl
theorem RoundTrip.vabs (h : Hdr) (fx : BitVec 2) (o : RR) : RoundTrip.Statement (.vabs h fx o) := by
  refine rt_ofWord rfl rfl (bit47_packRR ..) (by rw [opcOf_packRR]; rfl) (by rw [opcOf_packRR]; rfl) fun _ => ?_
  rw [group_40 (opcOf_packRR ..), parse40, hdrOf_packRR, unpackRR_packRR, fn_packRR]
  obtain ⟨k, hk, rfl⟩ := bv_lit fx; interval_cases k <;> rfl
theorem RoundTrip.vneg (h : Hdr) (fx : BitVec 2) (o : RR) : RoundTrip.Statement (.vneg h fx o) := by
  refine rt_ofWord rfl rfl (bit47_packRR ..) (by rw [opcOf_packRR]; rfl) (by rw [opcOf_packRR]; rfl) fun _ => ?_
  rw [group_40 (opcOf_packRR ..), parse40, hdrOf_packRR, unpackRR_packRR, fn_packRR]
  obtain ⟨k, hk, rfl⟩ := bv_lit fx; interval_cases k <;> rfl
theorem RoundTrip.vfma (h : Hdr) (fx : BitVec 2) (o : RR) : RoundTrip.Statement (.vfma h fx o) := by
  refine rt_ofWord rfl rfl (bit47_packRR ..) (by rw [opcOf_packRR]; rfl) (by rw [opcOf_packRR]; rfl) fun _ => ?_
  rw [group_41 (opcOf_packRR ..), parse41, hdrOf_packRR, unpackRR_packRR, fn_packRR]
  obtain ⟨k, hk, rfl⟩ := bv_lit fx; interval_cases k <;> rfl
theorem RoundTrip.vfms (h : Hdr) (fx : BitVec 2) (o : RR) : RoundTrip.Statement (.vfms h fx o) := by
  refine rt_ofWord rfl rfl (bit47_packRR ..) (by rw [opcOf_packRR]; rfl) (by rw [opcOf_packRR]; rfl) fun _ => ?_
  rw [group_41 (opcOf_packRR ..), parse41, hdrOf_packRR, unpackRR_packRR, fn_packRR]
  obtain ⟨k, hk, rfl⟩ := bv_lit fx; interval_cases k <;> rfl
theorem RoundTrip.vfnma (h : Hdr) (fx : BitVec 2) (o : RR) : RoundTrip.Statement (.vfnma h fx o) := by
  refine rt_ofWord rfl rfl (bit47_packRR ..) (by rw [opcOf_packRR]; rfl) (by rw [opcOf_packRR]; rfl) fun _ => ?_
  rw [group_41 (opcOf_packRR ..), parse41, hdrOf_packRR, unpackRR_packRR, fn_packRR]
  obtain ⟨k, hk, rfl⟩ := bv_lit fx; interval_cases k <;> rfl
theorem RoundTrip.viadd (h : Hdr) (fx : BitVec 2) (o : RR) : RoundTrip.Statement (.viadd h fx o) := by
  refine rt_ofWord rfl rfl (bit47_packRR ..) (by rw [opcOf_packRR]; rfl) (by rw [opcOf_packRR]; rfl) fun _ => ?_
  rw [group_42 (opcOf_packRR ..), parse42, hdrOf_packRR, unpackRR_packRR, fn_packRR]
  obtain ⟨k, hk, rfl⟩ := bv_lit fx; interval_cases k <;> rfl
theorem RoundTrip.visub (h : Hdr) (fx : BitVec 2) (o : RR) : RoundTrip.Statement (.visub h fx o) := by
  refine rt_ofWord rfl rfl (bit47_packRR ..) (by rw [opcOf_packRR]; rfl) (by rw [opcOf_packRR]; rfl) fun _ => ?_
  rw [group_42 (opcOf_packRR ..), parse42, hdrOf_packRR, unpackRR_packRR, fn_packRR]
  obtain ⟨k, hk, rfl⟩ := bv_lit fx; interval_cases k <;> rfl
theorem RoundTrip.vimul (h : Hdr) (fx : BitVec 2) (o : RR) : RoundTrip.Statement (.vimul h fx o) := by
  refine rt_ofWord rfl rfl (bit47_packRR ..) (by rw [opcOf_packRR]; rfl) (by rw [opcOf_packRR]; rfl) fun _ => ?_
  rw [group_42 (opcOf_packRR ..), parse42, hdrOf_packRR, unpackRR_packRR, fn_packRR]
  obtain ⟨k, hk, rfl⟩ := bv_lit fx; interval_cases k <;> rfl
theorem RoundTrip.vshl (h : Hdr) (fx : BitVec 2) (o : RR) : RoundTrip.Statement (.vshl h fx o) := by
  refine rt_ofWord rfl rfl (bit47_packRR ..) (by rw [opcOf_packRR]; rfl) (by rw [opcOf_packRR]; rfl) fun _ => ?_
  rw [group_42 (opcOf_packRR ..), parse42, hdrOf_packRR, unpackRR_packRR, fn_packRR]
  obtain ⟨k, hk, rfl⟩ := bv_lit fx; interval_cases k <;> rfl
theorem RoundTrip.vshr (h : Hdr) (fx : BitVec 2) (o : RR) : RoundTrip.Statement (.vshr h fx o) := by
  refine rt_ofWord rfl rfl (bit47_packRR ..) (by rw [opcOf_packRR]; rfl) (by rw [opcOf_packRR]; rfl) fun _ => ?_
  rw [group_42 (opcOf_packRR ..), parse42, hdrOf_packRR, unpackRR_packRR, fn_packRR]
  obtain ⟨k, hk, rfl⟩ := bv_lit fx; interval_cases k <;> rfl
theorem RoundTrip.vand (h : Hdr) (fx : BitVec 2) (o : RR) : RoundTrip.Statement (.vand h fx o) := by
  refine rt_ofWord rfl rfl (bit47_packRR ..) (by rw [opcOf_packRR]; rfl) (by rw [opcOf_packRR]; rfl) fun _ => ?_
  rw [group_42 (opcOf_packRR ..), parse42, hdrOf_packRR, unpackRR_packRR, fn_packRR]
  obtain ⟨k, hk, rfl⟩ := bv_lit fx; interval_cases k <;> rfl
theorem RoundTrip.vor (h : Hdr) (fx : BitVec 2) (o : RR) : RoundTrip.Statement (.vor h fx o) := by
  refine rt_ofWord rfl rfl (bit47_packRR ..) (by rw [opcOf_packRR]; rfl) (by rw [opcOf_packRR]; rfl) fun _ => ?_
  rw [group_42 (opcOf_packRR ..), parse42, hdrOf_packRR, unpackRR_packRR, fn_packRR]
  obtain ⟨k, hk, rfl⟩ := bv_lit fx; interval_cases k <;> rfl
theorem RoundTrip.vxor (h : Hdr) (fx : BitVec 2) (o : RR) : RoundTrip.Statement (.vxor h fx o) := by
  refine rt_ofWord rfl rfl (bit47_packRR ..) (by rw [opcOf_packRR]; rfl) (by rw [opcOf_packRR]; rfl) fun _ => ?_
  rw [group_42 (opcOf_packRR ..), parse42, hdrOf_packRR, unpackRR_packRR, fn_packRR]
  obtain ⟨k, hk, rfl⟩ := bv_lit fx; interval_cases k <;> rfl
theorem RoundTrip.vdot4 (h : Hdr) (o : RR) : RoundTrip.Statement (.vdot4 h o) := by
  refine rt_ofWord rfl rfl (bit47_packRR ..) (by rw [opcOf_packRR]; rfl) (by rw [opcOf_packRR]; rfl) fun _ => ?_
  rw [group_43 (opcOf_packRR ..), parse43, hdrOf_packRR, unpackRR_packRR, fn_packRR]; rfl
theorem RoundTrip.vdot2 (h : Hdr) (o : RR) : RoundTrip.Statement (.vdot2 h o) := by
  refine rt_ofWord rfl rfl (bit47_packRR ..) (by rw [opcOf_packRR]; rfl) (by rw [opcOf_packRR]; rfl) fun _ => ?_
  rw [group_43 (opcOf_packRR ..), parse43, hdrOf_packRR, unpackRR_packRR, fn_packRR]; rfl
theorem RoundTrip.vdiv (h : Hdr) (fx : BitVec 2) (o : RR) : RoundTrip.Statement (.vdiv h fx o) := by
  refine rt_ofWord rfl rfl (bit47_packRR ..) (by rw [opcOf_packRR]; rfl) (by rw [opcOf_packRR]; rfl) fun _ => ?_
  rw [group_44 (opcOf_packRR ..), parse44, hdrOf_packRR, unpackRR_packRR, fn_packRR]
  obtain ⟨k, hk, rfl⟩ := bv_lit fx; interval_cases k <;> rfl
theorem RoundTrip.vsqrt (h : Hdr) (fx : BitVec 2) (o : RR) : RoundTrip.Statement (.vsqrt h fx o) := by
  refine rt_ofWord rfl rfl (bit47_packRR ..) (by rw [opcOf_packRR]; rfl) (by rw [opcOf_packRR]; rfl) fun _ => ?_
  rw [group_44 (opcOf_packRR ..), parse44, hdrOf_packRR, unpackRR_packRR, fn_packRR]
  obtain ⟨k, hk, rfl⟩ := bv_lit fx; interval_cases k <;> rfl
theorem RoundTrip.vrcp (h : Hdr) (fx : BitVec 2) (o : RR) : RoundTrip.Statement (.vrcp h fx o) := by
  refine rt_ofWord rfl rfl (bit47_packRR ..) (by rw [opcOf_packRR]; rfl) (by rw [opcOf_packRR]; rfl) fun _ => ?_
  rw [group_44 (opcOf_packRR ..), parse44, hdrOf_packRR, unpackRR_packRR, fn_packRR]
  obtain ⟨k, hk, rfl⟩ := bv_lit fx; interval_cases k <;> rfl
theorem RoundTrip.vrsq (h : Hdr) (fx : BitVec 2) (o : RR) : RoundTrip.Statement (.vrsq h fx o) := by
  refine rt_ofWord rfl rfl (bit47_packRR ..) (by rw [opcOf_packRR]; rfl) (by rw [opcOf_packRR]; rfl) fun _ => ?_
  rw [group_44 (opcOf_packRR ..), parse44, hdrOf_packRR, unpackRR_packRR, fn_packRR]
  obtain ⟨k, hk, rfl⟩ := bv_lit fx; interval_cases k <;> rfl
theorem RoundTrip.vexp2 (h : Hdr) (o : RR) : RoundTrip.Statement (.vexp2 h o) := by
  refine rt_ofWord rfl rfl (bit47_packRR ..) (by rw [opcOf_packRR]; rfl) (by rw [opcOf_packRR]; rfl) fun _ => ?_
  rw [group_45 (opcOf_packRR ..), parse45, hdrOf_packRR, unpackRR_packRR, fn_packRR]; rfl
theorem RoundTrip.vlog2 (h : Hdr) (o : RR) : RoundTrip.Statement (.vlog2 h o) := by
  refine rt_ofWord rfl rfl (bit47_packRR ..) (by rw [opcOf_packRR]; rfl) (by rw [opcOf_packRR]; rfl) fun _ => ?_
  rw [group_45 (opcOf_packRR ..), parse45, hdrOf_packRR, unpackRR_packRR, fn_packRR]; rfl
theorem RoundTrip.vtanh (h : Hdr) (o : RR) : RoundTrip.Statement (.vtanh h o) := by
  refine rt_ofWord rfl rfl (bit47_packRR ..) (by rw [opcOf_packRR]; rfl) (by rw [opcOf_packRR]; rfl) fun _ => ?_
  rw [group_45 (opcOf_packRR ..), parse45, hdrOf_packRR, unpackRR_packRR, fn_packRR]; rfl
theorem RoundTrip.vcmp (h : Hdr) (fx : BitVec 5) (o : RR) : RoundTrip.Statement (.vcmp h fx o) := by
  refine rt_ofWord rfl rfl (bit47_packRR ..) (by rw [opcOf_packRR]; rfl) (by rw [opcOf_packRR]; rfl) fun hc => ?_
  rw [group_46 (opcOf_packRR ..), parse46, hdrOf_packRR, unpackRR_packRR, fn_packRR]
  obtain ⟨k, hk, rfl⟩ := bv_lit fx; interval_cases k <;> first | rfl | exact absurd hc (vcmp_fn o _ (by decide))
theorem RoundTrip.vicmp (h : Hdr) (fx : BitVec 3) (o : RR) : RoundTrip.Statement (.vicmp h fx o) := by
  refine rt_ofWord rfl rfl (bit47_packRR ..) (by rw [opcOf_packRR]; rfl) (by rw [opcOf_packRR]; rfl) fun _ => ?_
  rw [group_46 (opcOf_packRR ..), parse46, hdrOf_packRR, unpackRR_packRR, fn_packRR]
  obtain ⟨k, hk, rfl⟩ := bv_lit fx; interval_cases k <;> rfl
theorem RoundTrip.vsel (h : Hdr) (o : RR) : RoundTrip.Statement (.vsel h o) := by
  refine rt_ofWord rfl rfl (bit47_packRR ..) (by rw [opcOf_packRR]; rfl) (by rw [opcOf_packRR]; rfl) fun _ => ?_
  rw [group_47 (opcOf_packRR ..), parse47, hdrOf_packRR, unpackRR_packRR, fn_packRR]; rfl
theorem RoundTrip.vcvt (h : Hdr) (fx : BitVec 5) (o : RR) : RoundTrip.Statement (.vcvt h fx o) := by
  refine rt_ofWord rfl rfl (bit47_packRR ..) (by rw [opcOf_packRR]; rfl) (by rw [opcOf_packRR]; rfl) fun _ => ?_
  rw [group_48 (opcOf_packRR ..), parse48, hdrOf_packRR, unpackRR_packRR, fn_packRR]
  obtain ⟨k, hk, rfl⟩ := bv_lit fx; interval_cases k <;> rfl
theorem RoundTrip.vrsum (h : Hdr) (fx : BitVec 2) (o : RR) : RoundTrip.Statement (.vrsum h fx o) := by
  refine rt_ofWord rfl rfl (bit47_packRR ..) (by rw [opcOf_packRR]; rfl) (by rw [opcOf_packRR]; rfl) fun _ => ?_
  rw [group_49 (opcOf_packRR ..), parse49, hdrOf_packRR, unpackRR_packRR, fn_packRR]
  obtain ⟨k, hk, rfl⟩ := bv_lit fx; interval_cases k <;> rfl
theorem RoundTrip.vrmax (h : Hdr) (fx : BitVec 2) (o : RR) : RoundTrip.Statement (.vrmax h fx o) := by
  refine rt_ofWord rfl rfl (bit47_packRR ..) (by rw [opcOf_packRR]; rfl) (by rw [opcOf_packRR]; rfl) fun _ => ?_
  rw [group_49 (opcOf_packRR ..), parse49, hdrOf_packRR, unpackRR_packRR, fn_packRR]
  obtain ⟨k, hk, rfl⟩ := bv_lit fx; interval_cases k <;> rfl
theorem RoundTrip.vrmin (h : Hdr) (fx : BitVec 2) (o : RR) : RoundTrip.Statement (.vrmin h fx o) := by
  refine rt_ofWord rfl rfl (bit47_packRR ..) (by rw [opcOf_packRR]; rfl) (by rw [opcOf_packRR]; rfl) fun _ => ?_
  rw [group_49 (opcOf_packRR ..), parse49, hdrOf_packRR, unpackRR_packRR, fn_packRR]
  obtain ⟨k, hk, rfl⟩ := bv_lit fx; interval_cases k <;> rfl
theorem RoundTrip.vrargmax (h : Hdr) (fx : BitVec 2) (o : RR) : RoundTrip.Statement (.vrargmax h fx o) := by
  refine rt_ofWord rfl rfl (bit47_packRR ..) (by rw [opcOf_packRR]; rfl) (by rw [opcOf_packRR]; rfl) fun _ => ?_
  rw [group_49 (opcOf_packRR ..), parse49, hdrOf_packRR, unpackRR_packRR, fn_packRR]
  obtain ⟨k, hk, rfl⟩ := bv_lit fx; interval_cases k <;> rfl
theorem RoundTrip.vscanadd (h : Hdr) (fx : BitVec 2) (o : RR) : RoundTrip.Statement (.vscanadd h fx o) := by
  refine rt_ofWord rfl rfl (bit47_packRR ..) (by rw [opcOf_packRR]; rfl) (by rw [opcOf_packRR]; rfl) fun _ => ?_
  rw [group_4A (opcOf_packRR ..), parse4A, hdrOf_packRR, unpackRR_packRR, fn_packRR]
  obtain ⟨k, hk, rfl⟩ := bv_lit fx; interval_cases k <;> rfl
theorem RoundTrip.vscanmax (h : Hdr) (fx : BitVec 2) (o : RR) : RoundTrip.Statement (.vscanmax h fx o) := by
  refine rt_ofWord rfl rfl (bit47_packRR ..) (by rw [opcOf_packRR]; rfl) (by rw [opcOf_packRR]; rfl) fun _ => ?_
  rw [group_4A (opcOf_packRR ..), parse4A, hdrOf_packRR, unpackRR_packRR, fn_packRR]
  obtain ⟨k, hk, rfl⟩ := bv_lit fx; interval_cases k <;> rfl
theorem RoundTrip.vperm (h : Hdr) (fx : BitVec 2) (o : RR) : RoundTrip.Statement (.vperm h fx o) := by
  refine rt_ofWord rfl rfl (bit47_packRR ..) (by rw [opcOf_packRR]; rfl) (by rw [opcOf_packRR]; rfl) fun _ => ?_
  rw [group_4B (opcOf_packRR ..), parse4B, hdrOf_packRR, unpackRR_packRR, fn_packRR]
  obtain ⟨k, hk, rfl⟩ := bv_lit fx; interval_cases k <;> rfl
theorem RoundTrip.vbcast (h : Hdr) (fx : BitVec 2) (o : RR) : RoundTrip.Statement (.vbcast h fx o) := by
  refine rt_ofWord rfl rfl (bit47_packRR ..) (by rw [opcOf_packRR]; rfl) (by rw [opcOf_packRR]; rfl) fun _ => ?_
  rw [group_4B (opcOf_packRR ..), parse4B, hdrOf_packRR, unpackRR_packRR, fn_packRR]
  obtain ⟨k, hk, rfl⟩ := bv_lit fx; interval_cases k <;> rfl
theorem RoundTrip.vrot (h : Hdr) (fx : BitVec 2) (o : RR) : RoundTrip.Statement (.vrot h fx o) := by
  refine rt_ofWord rfl rfl (bit47_packRR ..) (by rw [opcOf_packRR]; rfl) (by rw [opcOf_packRR]; rfl) fun _ => ?_
  rw [group_4B (opcOf_packRR ..), parse4B, hdrOf_packRR, unpackRR_packRR, fn_packRR]
  obtain ⟨k, hk, rfl⟩ := bv_lit fx; interval_cases k <;> rfl
theorem RoundTrip.vshuf (h : Hdr) (fx : BitVec 2) (o : RR) : RoundTrip.Statement (.vshuf h fx o) := by
  refine rt_ofWord rfl rfl (bit47_packRR ..) (by rw [opcOf_packRR]; rfl) (by rw [opcOf_packRR]; rfl) fun _ => ?_
  rw [group_4B (opcOf_packRR ..), parse4B, hdrOf_packRR, unpackRR_packRR, fn_packRR]
  obtain ⟨k, hk, rfl⟩ := bv_lit fx; interval_cases k <;> rfl
theorem RoundTrip.vmov (h : Hdr) (o : RR) : RoundTrip.Statement (.vmov h o) := by
  refine rt_ofWord rfl rfl (bit47_packRR ..) (by rw [opcOf_packRR]; rfl) (by rw [opcOf_packRR]; rfl) fun _ => ?_
  rw [group_4C (opcOf_packRR ..), parse4C, hdrOf_packRR, unpackRR_packRR, fn_packRR]; rfl
theorem RoundTrip.vmovi (h : Hdr) (o : RRI) : RoundTrip.Statement (.vmovi h o) := by
  refine rt_ofWord rfl rfl (bit47_packRRI ..) (by rw [opcOf_packRRI]; rfl) (by rw [opcOf_packRRI]; rfl) fun _ => ?_
  rw [group_4C (opcOf_packRRI ..), parse4C, hdrOf_packRRI, unpackRRI_packRRI, fn_packRRI]; rfl
theorem RoundTrip.pand (h : Hdr) (o : RR) : RoundTrip.Statement (.pand h o) := by
  refine rt_ofWord rfl rfl (bit47_packRR ..) (by rw [opcOf_packRR]; rfl) (by rw [opcOf_packRR]; rfl) fun _ => ?_
  rw [group_4D (opcOf_packRR ..), parse4D, hdrOf_packRR, unpackRR_packRR, fn_packRR]; rfl
theorem RoundTrip.por (h : Hdr) (o : RR) : RoundTrip.Statement (.por h o) := by
  refine rt_ofWord rfl rfl (bit47_packRR ..) (by rw [opcOf_packRR]; rfl) (by rw [opcOf_packRR]; rfl) fun _ => ?_
  rw [group_4D (opcOf_packRR ..), parse4D, hdrOf_packRR, unpackRR_packRR, fn_packRR]; rfl
theorem RoundTrip.pxor (h : Hdr) (o : RR) : RoundTrip.Statement (.pxor h o) := by
  refine rt_ofWord rfl rfl (bit47_packRR ..) (by rw [opcOf_packRR]; rfl) (by rw [opcOf_packRR]; rfl) fun _ => ?_
  rw [group_4D (opcOf_packRR ..), parse4D, hdrOf_packRR, unpackRR_packRR, fn_packRR]; rfl
theorem RoundTrip.pnot (h : Hdr) (o : RR) : RoundTrip.Statement (.pnot h o) := by
  refine rt_ofWord rfl rfl (bit47_packRR ..) (by rw [opcOf_packRR]; rfl) (by rw [opcOf_packRR]; rfl) fun _ => ?_
  rw [group_4D (opcOf_packRR ..), parse4D, hdrOf_packRR, unpackRR_packRR, fn_packRR]; rfl
theorem RoundTrip.pffs (h : Hdr) (o : RR) : RoundTrip.Statement (.pffs h o) := by
  refine rt_ofWord rfl rfl (bit47_packRR ..) (by rw [opcOf_packRR]; rfl) (by rw [opcOf_packRR]; rfl) fun _ => ?_
  rw [group_4D (opcOf_packRR ..), parse4D, hdrOf_packRR, unpackRR_packRR, fn_packRR]; rfl
theorem RoundTrip.pffz (h : Hdr) (o : RR) : RoundTrip.Statement (.pffz h o) := by
  refine rt_ofWord rfl rfl (bit47_packRR ..) (by rw [opcOf_packRR]; rfl) (by rw [opcOf_packRR]; rfl) fun _ => ?_
  rw [group_4D (opcOf_packRR ..), parse4D, hdrOf_packRR, unpackRR_packRR, fn_packRR]; rfl
theorem RoundTrip.pcnt (h : Hdr) (o : RR) : RoundTrip.Statement (.pcnt h o) := by
  refine rt_ofWord rfl rfl (bit47_packRR ..) (by rw [opcOf_packRR]; rfl) (by rw [opcOf_packRR]; rfl) fun _ => ?_
  rw [group_4D (opcOf_packRR ..), parse4D, hdrOf_packRR, unpackRR_packRR, fn_packRR]; rfl
theorem RoundTrip.defer (h : Hdr) (o : RR) : RoundTrip.Statement (.defer h o) := by
  refine rt_ofWord rfl rfl (bit47_packRR ..) (by rw [opcOf_packRR]; rfl) (by rw [opcOf_packRR]; rfl) fun _ => ?_
  rw [group_4E (opcOf_packRR ..), parse4E, hdrOf_packRR, unpackRR_packRR, fn_packRR]; rfl
theorem RoundTrip.drain (h : Hdr) (o : RR) : RoundTrip.Statement (.drain h o) := by
  refine rt_ofWord rfl rfl (bit47_packRR ..) (by rw [opcOf_packRR]; rfl) (by rw [opcOf_packRR]; rfl) fun _ => ?_
  rw [group_4F (opcOf_packRR ..), parse4F, hdrOf_packRR, unpackRR_packRR, fn_packRR]; rfl
theorem RoundTrip.drainf (h : Hdr) (o : RR) : RoundTrip.Statement (.drainf h o) := by
  refine rt_ofWord rfl rfl (bit47_packRR ..) (by rw [opcOf_packRR]; rfl) (by rw [opcOf_packRR]; rfl) fun _ => ?_
  rw [group_4F (opcOf_packRR ..), parse4F, hdrOf_packRR, unpackRR_packRR, fn_packRR]; rfl
theorem RoundTrip.loopExe (h : Hdr) (fx : BitVec 3) (o : RI) : RoundTrip.Statement (.loopExe h fx o) := by
  refine rt_ofWord rfl rfl (bit47_packRI ..) (by rw [opcOf_packRI]; rfl) (by rw [opcOf_packRI]; rfl) fun _ => ?_
  rw [group_50 (opcOf_packRI ..), parse50, hdrOf_packRI, unpackRI_packRI, fn_packRI]
  obtain ⟨k, hk, rfl⟩ := bv_lit fx; interval_cases k <;> rfl
theorem RoundTrip.bpushExe (h : Hdr) (o : RRI) : RoundTrip.Statement (.bpushExe h o) := by
  refine rt_ofWord rfl rfl (bit47_packRRI ..) (by rw [opcOf_packRRI]; rfl) (by rw [opcOf_packRRI]; rfl) fun _ => ?_
  rw [group_51 (opcOf_packRRI ..), parse51, hdrOf_packRRI, unpackRRI_packRRI, fn_packRRI]; rfl
theorem RoundTrip.bskipExe (h : Hdr) (o : RRI) : RoundTrip.Statement (.bskipExe h o) := by
  refine rt_ofWord rfl rfl (bit47_packRRI ..) (by rw [opcOf_packRRI]; rfl) (by rw [opcOf_packRRI]; rfl) fun _ => ?_
  rw [group_51 (opcOf_packRRI ..), parse51, hdrOf_packRRI, unpackRRI_packRRI, fn_packRRI]; rfl
theorem RoundTrip.setclExe (h : Hdr) (o : RRI) : RoundTrip.Statement (.setclExe h o) := by
  refine rt_ofWord rfl rfl (bit47_packRRI ..) (by rw [opcOf_packRRI]; rfl) (by rw [opcOf_packRRI]; rfl) fun _ => ?_
  rw [group_52 (opcOf_packRRI ..), parse52, hdrOf_packRRI, unpackRRI_packRRI, fn_packRRI]; rfl
theorem RoundTrip.incclExe (h : Hdr) (o : RRI) : RoundTrip.Statement (.incclExe h o) := by
  refine rt_ofWord rfl rfl (bit47_packRRI ..) (by rw [opcOf_packRRI]; rfl) (by rw [opcOf_packRRI]; rfl) fun _ => ?_
  rw [group_52 (opcOf_packRRI ..), parse52, hdrOf_packRRI, unpackRRI_packRRI, fn_packRRI]; rfl
theorem RoundTrip.vqblk (h : Hdr) (fx : BitVec 2) (o : RR) : RoundTrip.Statement (.vqblk h fx o) := by
  refine rt_ofWord rfl rfl (bit47_packRR ..) (by rw [opcOf_packRR]; rfl) (by rw [opcOf_packRR]; rfl) fun _ => ?_
  rw [group_53 (opcOf_packRR ..), parse53, hdrOf_packRR, unpackRR_packRR, fn_packRR]
  obtain ⟨k, hk, rfl⟩ := bv_lit fx; interval_cases k <;> rfl
theorem RoundTrip.vdqblk (h : Hdr) (fx : BitVec 2) (o : RR) : RoundTrip.Statement (.vdqblk h fx o) := by
  refine rt_ofWord rfl rfl (bit47_packRR ..) (by rw [opcOf_packRR]; rfl) (by rw [opcOf_packRR]; rfl) fun _ => ?_
  rw [group_53 (opcOf_packRR ..), parse53, hdrOf_packRR, unpackRR_packRR, fn_packRR]
  obtain ⟨k, hk, rfl⟩ := bv_lit fx; interval_cases k <;> rfl
theorem RoundTrip.vscale (h : Hdr) (fx : BitVec 2) (o : RR) : RoundTrip.Statement (.vscale h fx o) := by
  refine rt_ofWord rfl rfl (bit47_packRR ..) (by rw [opcOf_packRR]; rfl) (by rw [opcOf_packRR]; rfl) fun _ => ?_
  rw [group_53 (opcOf_packRR ..), parse53, hdrOf_packRR, unpackRR_packRR, fn_packRR]
  obtain ⟨k, hk, rfl⟩ := bv_lit fx; interval_cases k <;> rfl
theorem RoundTrip.vomax (h : Hdr) (o : RR) : RoundTrip.Statement (.vomax h o) := by
  refine rt_ofWord rfl rfl (bit47_packRR ..) (by rw [opcOf_packRR]; rfl) (by rw [opcOf_packRR]; rfl) fun _ => ?_
  rw [group_54 (opcOf_packRR ..), parse54, hdrOf_packRR, unpackRR_packRR, fn_packRR]; rfl
theorem RoundTrip.viota (h : Hdr) (o : RR) : RoundTrip.Statement (.viota h o) := by
  refine rt_ofWord rfl rfl (bit47_packRR ..) (by rw [opcOf_packRR]; rfl) (by rw [opcOf_packRR]; rfl) fun _ => ?_
  rw [group_55 (opcOf_packRR ..), parse55, hdrOf_packRR, unpackRR_packRR, fn_packRR]; rfl
theorem RoundTrip.vclv (h : Hdr) (o : RR) : RoundTrip.Statement (.vclv h o) := by
  refine rt_ofWord rfl rfl (bit47_packRR ..) (by rw [opcOf_packRR]; rfl) (by rw [opcOf_packRR]; rfl) fun _ => ?_
  rw [group_55 (opcOf_packRR ..), parse55, hdrOf_packRR, unpackRR_packRR, fn_packRR]; rfl
theorem RoundTrip.vfrd (h : Hdr) (o : RR) : RoundTrip.Statement (.vfrd h o) := by
  refine rt_ofWord rfl rfl (bit47_packRR ..) (by rw [opcOf_packRR]; rfl) (by rw [opcOf_packRR]; rfl) fun _ => ?_
  rw [group_56 (opcOf_packRR ..), parse56, hdrOf_packRR, unpackRR_packRR, fn_packRR]; rfl
theorem RoundTrip.vfclr (h : Hdr) (o : RR) : RoundTrip.Statement (.vfclr h o) := by
  refine rt_ofWord rfl rfl (bit47_packRR ..) (by rw [opcOf_packRR]; rfl) (by rw [opcOf_packRR]; rfl) fun _ => ?_
  rw [group_56 (opcOf_packRR ..), parse56, hdrOf_packRR, unpackRR_packRR, fn_packRR]; rfl
theorem RoundTrip.vfclrCtx (h : Hdr) (o : RR) : RoundTrip.Statement (.vfclrCtx h o) := by
  refine rt_ofWord rfl rfl (bit47_packRR ..) (by rw [opcOf_packRR]; rfl) (by rw [opcOf_packRR]; rfl) fun _ => ?_
  rw [group_56 (opcOf_packRR ..), parse56, hdrOf_packRR, unpackRR_packRR, fn_packRR]; rfl
theorem RoundTrip.vrmask (h : Hdr) (o : RR) : RoundTrip.Statement (.vrmask h o) := by
  refine rt_ofWord rfl rfl (bit47_packRR ..) (by rw [opcOf_packRR]; rfl) (by rw [opcOf_packRR]; rfl) fun _ => ?_
  rw [group_57 (opcOf_packRR ..), parse57, hdrOf_packRR, unpackRR_packRR, fn_packRR]; rfl
theorem RoundTrip.qcmp (h : Hdr) (fx : BitVec 2) (o : RR) : RoundTrip.Statement (.qcmp h fx o) := by
  refine rt_ofWord rfl rfl (bit47_packRR ..) (by rw [opcOf_packRR]; rfl) (by rw [opcOf_packRR]; rfl) fun _ => ?_
  rw [group_58 (opcOf_packRR ..), parse58, hdrOf_packRR, unpackRR_packRR, fn_packRR]
  obtain ⟨k, hk, rfl⟩ := bv_lit fx; interval_cases k <;> rfl
theorem RoundTrip.qand (h : Hdr) (fx : BitVec 2) (o : RR) : RoundTrip.Statement (.qand h fx o) := by
  refine rt_ofWord rfl rfl (bit47_packRR ..) (by rw [opcOf_packRR]; rfl) (by rw [opcOf_packRR]; rfl) fun _ => ?_
  rw [group_59 (opcOf_packRR ..), parse59, hdrOf_packRR, unpackRR_packRR, fn_packRR]
  obtain ⟨k, hk, rfl⟩ := bv_lit fx; interval_cases k <;> rfl
theorem RoundTrip.qor (h : Hdr) (fx : BitVec 2) (o : RR) : RoundTrip.Statement (.qor h fx o) := by
  refine rt_ofWord rfl rfl (bit47_packRR ..) (by rw [opcOf_packRR]; rfl) (by rw [opcOf_packRR]; rfl) fun _ => ?_
  rw [group_59 (opcOf_packRR ..), parse59, hdrOf_packRR, unpackRR_packRR, fn_packRR]
  obtain ⟨k, hk, rfl⟩ := bv_lit fx; interval_cases k <;> rfl
theorem RoundTrip.qnot (h : Hdr) (o : RR) : RoundTrip.Statement (.qnot h o) := by
  refine rt_ofWord rfl rfl (bit47_packRR ..) (by rw [opcOf_packRR]; rfl) (by rw [opcOf_packRR]; rfl) fun _ => ?_
  rw [group_59 (opcOf_packRR ..), parse59, hdrOf_packRR, unpackRR_packRR, fn_packRR]; rfl
theorem RoundTrip.qsel (h : Hdr) (fx : BitVec 2) (o : RR) : RoundTrip.Statement (.qsel h fx o) := by
  refine rt_ofWord rfl rfl (bit47_packRR ..) (by rw [opcOf_packRR]; rfl) (by rw [opcOf_packRR]; rfl) fun _ => ?_
  rw [group_5A (opcOf_packRR ..), parse5A, hdrOf_packRR, unpackRR_packRR, fn_packRR]
  obtain ⟨k, hk, rfl⟩ := bv_lit fx; interval_cases k <;> rfl
theorem RoundTrip.qcol (h : Hdr) (o : RR) : RoundTrip.Statement (.qcol h o) := by
  refine rt_ofWord rfl rfl (bit47_packRR ..) (by rw [opcOf_packRR]; rfl) (by rw [opcOf_packRR]; rfl) fun _ => ?_
  rw [group_5B (opcOf_packRR ..), parse5B, hdrOf_packRR, unpackRR_packRR, fn_packRR]; rfl
theorem RoundTrip.qfrom (h : Hdr) (o : RR) : RoundTrip.Statement (.qfrom h o) := by
  refine rt_ofWord rfl rfl (bit47_packRR ..) (by rw [opcOf_packRR]; rfl) (by rw [opcOf_packRR]; rfl) fun _ => ?_
  rw [group_5C (opcOf_packRR ..), parse5C, hdrOf_packRR, unpackRR_packRR, fn_packRR]; rfl
theorem RoundTrip.qto (h : Hdr) (o : RR) : RoundTrip.Statement (.qto h o) := by
  refine rt_ofWord rfl rfl (bit47_packRR ..) (by rw [opcOf_packRR]; rfl) (by rw [opcOf_packRR]; rfl) fun _ => ?_
  rw [group_5C (opcOf_packRR ..), parse5C, hdrOf_packRR, unpackRR_packRR, fn_packRR]; rfl
theorem RoundTrip.qgcmp (h : Hdr) (fx : BitVec 2) (o : RR) : RoundTrip.Statement (.qgcmp h fx o) := by
  refine rt_ofWord rfl rfl (bit47_packRR ..) (by rw [opcOf_packRR]; rfl) (by rw [opcOf_packRR]; rfl) fun _ => ?_
  rw [group_5D (opcOf_packRR ..), parse5D, hdrOf_packRR, unpackRR_packRR, fn_packRR]
  obtain ⟨k, hk, rfl⟩ := bv_lit fx; interval_cases k <;> rfl
theorem RoundTrip.qgsel (h : Hdr) (o : RR) : RoundTrip.Statement (.qgsel h o) := by
  refine rt_ofWord rfl rfl (bit47_packRR ..) (by rw [opcOf_packRR]; rfl) (by rw [opcOf_packRR]; rfl) fun _ => ?_
  rw [group_5D (opcOf_packRR ..), parse5D, hdrOf_packRR, unpackRR_packRR, fn_packRR]; rfl
theorem RoundTrip.qgand (h : Hdr) (o : RR) : RoundTrip.Statement (.qgand h o) := by
  refine rt_ofWord rfl rfl (bit47_packRR ..) (by rw [opcOf_packRR]; rfl) (by rw [opcOf_packRR]; rfl) fun _ => ?_
  rw [group_5D (opcOf_packRR ..), parse5D, hdrOf_packRR, unpackRR_packRR, fn_packRR]; rfl
theorem RoundTrip.qlin (h : Hdr) (o : RR) : RoundTrip.Statement (.qlin h o) := by
  refine rt_ofWord rfl rfl (bit47_packRR ..) (by rw [opcOf_packRR]; rfl) (by rw [opcOf_packRR]; rfl) fun _ => ?_
  rw [group_5E (opcOf_packRR ..), parse5E, hdrOf_packRR, unpackRR_packRR, fn_packRR]; rfl
theorem RoundTrip.qrsum (h : Hdr) (o : RR) : RoundTrip.Statement (.qrsum h o) := by
  refine rt_ofWord rfl rfl (bit47_packRR ..) (by rw [opcOf_packRR]; rfl) (by rw [opcOf_packRR]; rfl) fun _ => ?_
  rw [group_5F (opcOf_packRR ..), parse5F, hdrOf_packRR, unpackRR_packRR, fn_packRR]; rfl
theorem RoundTrip.qrprod (h : Hdr) (o : RR) : RoundTrip.Statement (.qrprod h o) := by
  refine rt_ofWord rfl rfl (bit47_packRR ..) (by rw [opcOf_packRR]; rfl) (by rw [opcOf_packRR]; rfl) fun _ => ?_
  rw [group_5F (opcOf_packRR ..), parse5F, hdrOf_packRR, unpackRR_packRR, fn_packRR]; rfl
theorem RoundTrip.mldb (h : Hdr) (o : MG) : RoundTrip.Statement (.mldb h o) := by
  refine rt_ofWord rfl rfl (bit47_packMG ..) (by rw [opcOf_packMG]; rfl) (by rw [opcOf_packMG]; rfl) fun _ => ?_
  rw [group_60 (opcOf_packMG ..), parse60, hdrOf_packMG, unpackMG_packMG, fn_packMG]; rfl
theorem RoundTrip.mlds (h : Hdr) (o : MG) : RoundTrip.Statement (.mlds h o) := by
  refine rt_ofWord rfl rfl (bit47_packMG ..) (by rw [opcOf_packMG]; rfl) (by rw [opcOf_packMG]; rfl) fun _ => ?_
  rw [group_61 (opcOf_packMG ..), parse61, hdrOf_packMG, unpackMG_packMG, fn_packMG]; rfl
theorem RoundTrip.mgo (h : Hdr) (o : MG) : RoundTrip.Statement (.mgo h o) := by
  refine rt_ofWord rfl rfl (bit47_packMG ..) (by rw [opcOf_packMG]; rfl) (by rw [opcOf_packMG]; rfl) fun _ => ?_
  rw [group_62 (opcOf_packMG ..), parse62, hdrOf_packMG, unpackMG_packMG, fn_packMG]; rfl
theorem RoundTrip.mdrain (h : Hdr) (o : MG) : RoundTrip.Statement (.mdrain h o) := by
  refine rt_ofWord rfl rfl (bit47_packMG ..) (by rw [opcOf_packMG]; rfl) (by rw [opcOf_packMG]; rfl) fun _ => ?_
  rw [group_63 (opcOf_packMG ..), parse63, hdrOf_packMG, unpackMG_packMG, fn_packMG]; rfl
theorem RoundTrip.mdraina (h : Hdr) (o : MG) : RoundTrip.Statement (.mdraina h o) := by
  refine rt_ofWord rfl rfl (bit47_packMG ..) (by rw [opcOf_packMG]; rfl) (by rw [opcOf_packMG]; rfl) fun _ => ?_
  rw [group_63 (opcOf_packMG ..), parse63, hdrOf_packMG, unpackMG_packMG, fn_packMG]; rfl
theorem RoundTrip.minit (h : Hdr) (o : MG) : RoundTrip.Statement (.minit h o) := by
  refine rt_ofWord rfl rfl (bit47_packMG ..) (by rw [opcOf_packMG]; rfl) (by rw [opcOf_packMG]; rfl) fun _ => ?_
  rw [group_64 (opcOf_packMG ..), parse64, hdrOf_packMG, unpackMG_packMG, fn_packMG]; rfl
theorem RoundTrip.mswap (h : Hdr) (o : MG) : RoundTrip.Statement (.mswap h o) := by
  refine rt_ofWord rfl rfl (bit47_packMG ..) (by rw [opcOf_packMG]; rfl) (by rw [opcOf_packMG]; rfl) fun _ => ?_
  rw [group_65 (opcOf_packMG ..), parse65, hdrOf_packMG, unpackMG_packMG, fn_packMG]; rfl
theorem RoundTrip.mwait (h : Hdr) (o : MG) : RoundTrip.Statement (.mwait h o) := by
  refine rt_ofWord rfl rfl (bit47_packMG ..) (by rw [opcOf_packMG]; rfl) (by rw [opcOf_packMG]; rfl) fun _ => ?_
  rw [group_66 (opcOf_packMG ..), parse66, hdrOf_packMG, unpackMG_packMG, fn_packMG]; rfl
theorem RoundTrip.mstat (h : Hdr) (o : MG) : RoundTrip.Statement (.mstat h o) := by
  refine rt_ofWord rfl rfl (bit47_packMG ..) (by rw [opcOf_packMG]; rfl) (by rw [opcOf_packMG]; rfl) fun _ => ?_
  rw [group_67 (opcOf_packMG ..), parse67, hdrOf_packMG, unpackMG_packMG, fn_packMG]; rfl
theorem RoundTrip.mdq (h : Hdr) (o : MG) : RoundTrip.Statement (.mdq h o) := by
  refine rt_ofWord rfl rfl (bit47_packMG ..) (by rw [opcOf_packMG]; rfl) (by rw [opcOf_packMG]; rfl) fun _ => ?_
  rw [group_68 (opcOf_packMG ..), parse68, hdrOf_packMG, unpackMG_packMG, fn_packMG]; rfl
theorem RoundTrip.mclr (h : Hdr) (o : MG) : RoundTrip.Statement (.mclr h o) := by
  refine rt_ofWord rfl rfl (bit47_packMG ..) (by rw [opcOf_packMG]; rfl) (by rw [opcOf_packMG]; rfl) fun _ => ?_
  rw [group_69 (opcOf_packMG ..), parse69, hdrOf_packMG, unpackMG_packMG, fn_packMG]; rfl
theorem RoundTrip.mlda (h : Hdr) (o : MG) : RoundTrip.Statement (.mlda h o) := by
  refine rt_ofWord rfl rfl (bit47_packMG ..) (by rw [opcOf_packMG]; rfl) (by rw [opcOf_packMG]; rfl) fun _ => ?_
  rw [group_6A (opcOf_packMG ..), parse6A, hdrOf_packMG, unpackMG_packMG, fn_packMG]; rfl
theorem RoundTrip.msel (h : Hdr) (o : MG) : RoundTrip.Statement (.msel h o) := by
  refine rt_ofWord rfl rfl (bit47_packMG ..) (by rw [opcOf_packMG]; rfl) (by rw [opcOf_packMG]; rfl) fun _ => ?_
  rw [group_6B (opcOf_packMG ..), parse6B, hdrOf_packMG, unpackMG_packMG, fn_packMG]; rfl
theorem RoundTrip.copy (h : Hdr) (o : CP) : RoundTrip.Statement (.copy h o) := by
  refine rt_ofWord rfl rfl (bit47_packCP ..) (by rw [opcOf_packCP]; rfl) (by rw [opcOf_packCP]; rfl) fun _ => ?_
  rw [group_6C (opcOf_packCP ..), parse6C, hdrOf_packCP, unpackCP_packCP, fn_packCP]; rfl
theorem RoundTrip.copyXor (h : Hdr) (o : CP) : RoundTrip.Statement (.copyXor h o) := by
  refine rt_ofWord rfl rfl (bit47_packCP ..) (by rw [opcOf_packCP]; rfl) (by rw [opcOf_packCP]; rfl) fun _ => ?_
  rw [group_6C (opcOf_packCP ..), parse6C, hdrOf_packCP, unpackCP_packCP, fn_packCP]; rfl
theorem RoundTrip.cfill (h : Hdr) (o : CP) : RoundTrip.Statement (.cfill h o) := by
  refine rt_ofWord rfl rfl (bit47_packCP ..) (by rw [opcOf_packCP]; rfl) (by rw [opcOf_packCP]; rfl) fun _ => ?_
  rw [group_6D (opcOf_packCP ..), parse6D, hdrOf_packCP, unpackCP_packCP, fn_packCP]; rfl
theorem RoundTrip.cpush (h : Hdr) (o : CP) : RoundTrip.Statement (.cpush h o) := by
  refine rt_ofWord rfl rfl (bit47_packCP ..) (by rw [opcOf_packCP]; rfl) (by rw [opcOf_packCP]; rfl) fun _ => ?_
  rw [group_6E (opcOf_packCP ..), parse6E, hdrOf_packCP, unpackCP_packCP, fn_packCP]; rfl
theorem RoundTrip.cpushXor (h : Hdr) (o : CP) : RoundTrip.Statement (.cpushXor h o) := by
  refine rt_ofWord rfl rfl (bit47_packCP ..) (by rw [opcOf_packCP]; rfl) (by rw [opcOf_packCP]; rfl) fun _ => ?_
  rw [group_6E (opcOf_packCP ..), parse6E, hdrOf_packCP, unpackCP_packCP, fn_packCP]; rfl
theorem RoundTrip.cpull (h : Hdr) (o : CP) : RoundTrip.Statement (.cpull h o) := by
  refine rt_ofWord rfl rfl (bit47_packCP ..) (by rw [opcOf_packCP]; rfl) (by rw [opcOf_packCP]; rfl) fun _ => ?_
  rw [group_6F (opcOf_packCP ..), parse6F, hdrOf_packCP, unpackCP_packCP, fn_packCP]; rfl
theorem RoundTrip.cxch (h : Hdr) (o : CP) : RoundTrip.Statement (.cxch h o) := by
  refine rt_ofWord rfl rfl (bit47_packCP ..) (by rw [opcOf_packCP]; rfl) (by rw [opcOf_packCP]; rfl) fun _ => ?_
  rw [group_70 (opcOf_packCP ..), parse70, hdrOf_packCP, unpackCP_packCP, fn_packCP]; rfl
theorem RoundTrip.ccb (h : Hdr) (o : CP) : RoundTrip.Statement (.ccb h o) := by
  refine rt_ofWord rfl rfl (bit47_packCP ..) (by rw [opcOf_packCP]; rfl) (by rw [opcOf_packCP]; rfl) fun _ => ?_
  rw [group_71 (opcOf_packCP ..), parse71, hdrOf_packCP, unpackCP_packCP, fn_packCP]; rfl
theorem RoundTrip.tcow (h : Hdr) (o : CP) : RoundTrip.Statement (.tcow h o) := by
  refine rt_ofWord rfl rfl (bit47_packCP ..) (by rw [opcOf_packCP]; rfl) (by rw [opcOf_packCP]; rfl) fun _ => ?_
  rw [group_72 (opcOf_packCP ..), parse72, hdrOf_packCP, unpackCP_packCP, fn_packCP]; rfl
theorem RoundTrip.tmigDemote (h : Hdr) (o : CP) : RoundTrip.Statement (.tmigDemote h o) := by
  refine rt_ofWord rfl rfl (bit47_packCP ..) (by rw [opcOf_packCP]; rfl) (by rw [opcOf_packCP]; rfl) fun _ => ?_
  rw [group_73 (opcOf_packCP ..), parse73, hdrOf_packCP, unpackCP_packCP, fn_packCP]; rfl
theorem RoundTrip.tmigPromote (h : Hdr) (o : CP) : RoundTrip.Statement (.tmigPromote h o) := by
  refine rt_ofWord rfl rfl (bit47_packCP ..) (by rw [opcOf_packCP]; rfl) (by rw [opcOf_packCP]; rfl) fun _ => ?_
  rw [group_73 (opcOf_packCP ..), parse73, hdrOf_packCP, unpackCP_packCP, fn_packCP]; rfl
theorem RoundTrip.tshare (h : Hdr) (o : CP) : RoundTrip.Statement (.tshare h o) := by
  refine rt_ofWord rfl rfl (bit47_packCP ..) (by rw [opcOf_packCP]; rfl) (by rw [opcOf_packCP]; rfl) fun _ => ?_
  rw [group_74 (opcOf_packCP ..), parse74, hdrOf_packCP, unpackCP_packCP, fn_packCP]; rfl
theorem RoundTrip.tfree (h : Hdr) (o : CP) : RoundTrip.Statement (.tfree h o) := by
  refine rt_ofWord rfl rfl (bit47_packCP ..) (by rw [opcOf_packCP]; rfl) (by rw [opcOf_packCP]; rfl) fun _ => ?_
  rw [group_75 (opcOf_packCP ..), parse75, hdrOf_packCP, unpackCP_packCP, fn_packCP]; rfl
theorem RoundTrip.cpref (h : Hdr) (o : CP) : RoundTrip.Statement (.cpref h o) := by
  refine rt_ofWord rfl rfl (bit47_packCP ..) (by rw [opcOf_packCP]; rfl) (by rw [opcOf_packCP]; rfl) fun _ => ?_
  rw [group_76 (opcOf_packCP ..), parse76, hdrOf_packCP, unpackCP_packCP, fn_packCP]; rfl
theorem RoundTrip.csync (h : Hdr) (o : CP) : RoundTrip.Statement (.csync h o) := by
  refine rt_ofWord rfl rfl (bit47_packCP ..) (by rw [opcOf_packCP]; rfl) (by rw [opcOf_packCP]; rfl) fun _ => ?_
  rw [group_77 (opcOf_packCP ..), parse77, hdrOf_packCP, unpackCP_packCP, fn_packCP]; rfl
theorem RoundTrip.nsend (h : Hdr) (o : SY) : RoundTrip.Statement (.nsend h o) := by
  refine rt_ofWord rfl rfl (bit47_packSY ..) (by rw [opcOf_packSY]; rfl) (by rw [opcOf_packSY]; rfl) fun _ => ?_
  rw [group_78 (opcOf_packSY ..), parse78, hdrOf_packSY, unpackSY_packSY, fn_packSY]; rfl
theorem RoundTrip.nrecv (h : Hdr) (o : SY) : RoundTrip.Statement (.nrecv h o) := by
  refine rt_ofWord rfl rfl (bit47_packSY ..) (by rw [opcOf_packSY]; rfl) (by rw [opcOf_packSY]; rfl) fun _ => ?_
  rw [group_79 (opcOf_packSY ..), parse79, hdrOf_packSY, unpackSY_packSY, fn_packSY]; rfl
theorem RoundTrip.nput (h : Hdr) (o : SY) : RoundTrip.Statement (.nput h o) := by
  refine rt_ofWord rfl rfl (bit47_packSY ..) (by rw [opcOf_packSY]; rfl) (by rw [opcOf_packSY]; rfl) fun _ => ?_
  rw [group_7A (opcOf_packSY ..), parse7A, hdrOf_packSY, unpackSY_packSY, fn_packSY]; rfl
theorem RoundTrip.nget (h : Hdr) (o : SY) : RoundTrip.Statement (.nget h o) := by
  refine rt_ofWord rfl rfl (bit47_packSY ..) (by rw [opcOf_packSY]; rfl) (by rw [opcOf_packSY]; rfl) fun _ => ?_
  rw [group_7B (opcOf_packSY ..), parse7B, hdrOf_packSY, unpackSY_packSY, fn_packSY]; rfl
theorem RoundTrip.ncset (h : Hdr) (o : SY) : RoundTrip.Statement (.ncset h o) := by
  refine rt_ofWord rfl rfl (bit47_packSY ..) (by rw [opcOf_packSY]; rfl) (by rw [opcOf_packSY]; rfl) fun _ => ?_
  rw [group_7C (opcOf_packSY ..), parse7C, hdrOf_packSY, unpackSY_packSY, fn_packSY]; rfl
theorem RoundTrip.ncrd (h : Hdr) (o : SY) : RoundTrip.Statement (.ncrd h o) := by
  refine rt_ofWord rfl rfl (bit47_packSY ..) (by rw [opcOf_packSY]; rfl) (by rw [opcOf_packSY]; rfl) fun _ => ?_
  rw [group_7C (opcOf_packSY ..), parse7C, hdrOf_packSY, unpackSY_packSY, fn_packSY]; rfl
theorem RoundTrip.nctlFlush (h : Hdr) (o : SY) : RoundTrip.Statement (.nctlFlush h o) := by
  refine rt_ofWord rfl rfl (bit47_packSY ..) (by rw [opcOf_packSY]; rfl) (by rw [opcOf_packSY]; rfl) fun hc => ?_
  rw [group_7D (opcOf_packSY ..), parse7D, hdrOf_packSY, unpackSY_packSY, fn_packSY]
  have h0 : o.imm = 0#12 := BitVec.eq_of_toNat_eq (nctl_op 0 o hc)
  simp [h0]
theorem RoundTrip.nctlCancel (h : Hdr) (o : SY) : RoundTrip.Statement (.nctlCancel h o) := by
  refine rt_ofWord rfl rfl (bit47_packSY ..) (by rw [opcOf_packSY]; rfl) (by rw [opcOf_packSY]; rfl) fun hc => ?_
  rw [group_7D (opcOf_packSY ..), parse7D, hdrOf_packSY, unpackSY_packSY, fn_packSY]
  have h1 : o.imm = 1#12 := BitVec.eq_of_toNat_eq (nctl_op 1 o hc)
  simp [h1]
theorem RoundTrip.launch (o : CL) : RoundTrip.Statement (.launch o) := rt_ofEntry rfl rfl fun _ => by simp [parseEntry, op_packCL, zero_packCL, unpackCL_packCL]
theorem RoundTrip.waitv (o : CL) : RoundTrip.Statement (.waitv o) := rt_ofEntry rfl rfl fun _ => by simp [parseEntry, op_packCL, zero_packCL, unpackCL_packCL]
theorem RoundTrip.sigvSt (o : CL) : RoundTrip.Statement (.sigvSt o) := by
  refine rt_ofEntry rfl rfl fun hc => ?_
  have hk : o.w3 = 0 := RoundTrip.sigvSt_op o hc
  simp [parseEntry, op_packCL, zero_packCL, unpackCL_packCL, hk]
theorem RoundTrip.sigvAdd (o : CL) : RoundTrip.Statement (.sigvAdd o) := by
  refine rt_ofEntry rfl rfl fun hc => ?_
  have hk : o.w3 = 1 := RoundTrip.sigvAdd_op o hc
  simp [parseEntry, op_packCL, zero_packCL, unpackCL_packCL, hk]
theorem RoundTrip.sigvOr (o : CL) : RoundTrip.Statement (.sigvOr o) := by
  refine rt_ofEntry rfl rfl fun hc => ?_
  have hk : o.w3 = 2 := RoundTrip.sigvOr_op o hc
  simp [parseEntry, op_packCL, zero_packCL, unpackCL_packCL, hk]
theorem RoundTrip.skipif (o : CL) : RoundTrip.Statement (.skipif o) := rt_ofEntry rfl rfl fun _ => by simp [parseEntry, op_packCL, zero_packCL, unpackCL_packCL]
theorem RoundTrip.jump (o : CL) : RoundTrip.Statement (.jump o) := rt_ofEntry rfl rfl fun _ => by simp [parseEntry, op_packCL, zero_packCL, unpackCL_packCL]
theorem RoundTrip.listCall (o : CL) : RoundTrip.Statement (.listCall o) := rt_ofEntry rfl rfl fun _ => by simp [parseEntry, op_packCL, zero_packCL, unpackCL_packCL]
theorem RoundTrip.listRet (o : CL) : RoundTrip.Statement (.listRet o) := rt_ofEntry rfl rfl fun _ => by simp [parseEntry, op_packCL, zero_packCL, unpackCL_packCL]
theorem RoundTrip.cutreqStop (o : CL) : RoundTrip.Statement (.cutreqStop o) := by
  refine rt_ofEntry rfl rfl fun hc => ?_
  have hk : o.w2 = 0 := RoundTrip.cutreqStop_op o hc
  simp [parseEntry, op_packCL, zero_packCL, unpackCL_packCL, hk]
theorem RoundTrip.cutreqCancel (o : CL) : RoundTrip.Statement (.cutreqCancel o) := by
  refine rt_ofEntry rfl rfl fun hc => ?_
  have hk : o.w2 = 1 := RoundTrip.cutreqCancel_op o hc
  simp [parseEntry, op_packCL, zero_packCL, unpackCL_packCL, hk]
theorem RoundTrip.cutreqResume (o : CL) : RoundTrip.Statement (.cutreqResume o) := by
  refine rt_ofEntry rfl rfl fun hc => ?_
  have hk : o.w2 = 2 := RoundTrip.cutreqResume_op o hc
  simp [parseEntry, op_packCL, zero_packCL, unpackCL_packCL, hk]
theorem RoundTrip.fence (o : CL) : RoundTrip.Statement (.fence o) := rt_ofEntry rfl rfl fun _ => by simp [parseEntry, op_packCL, zero_packCL, unpackCL_packCL]
theorem RoundTrip.note (o : CL) : RoundTrip.Statement (.note o) := rt_ofEntry rfl rfl fun _ => by simp [parseEntry, op_packCL, zero_packCL, unpackCL_packCL]
theorem RoundTrip.listEnd (o : CL) : RoundTrip.Statement (.listEnd o) := rt_ofEntry rfl rfl fun _ => by simp [parseEntry, op_packCL, zero_packCL, unpackCL_packCL]
theorem RoundTrip.fxctlClrcnt (port : Nat) : RoundTrip.Statement (.fxctlClrcnt port) := rt_ofEvent rfl rfl
theorem RoundTrip.fxctlPdis (port : Nat) (down : Bool) : RoundTrip.Statement (.fxctlPdis port down) := rt_ofEvent rfl rfl
theorem RoundTrip.fxctlWena (port : Nat) (mask : BitVec 8) : RoundTrip.Statement (.fxctlWena port mask) := rt_ofEvent rfl rfl
theorem RoundTrip.exeCommit (core : Nat) : RoundTrip.Statement (.exeCommit core) := rt_ofEvent rfl rfl
theorem RoundTrip.mtxPointCommit (core : Nat) : RoundTrip.Statement (.mtxPointCommit core) := rt_ofEvent rfl rfl
theorem RoundTrip.ccbFillComplete (core idx : Nat) : RoundTrip.Statement (.ccbFillComplete core idx) := rt_ofEvent rfl rfl
theorem RoundTrip.migrationFlip (idx : Nat) : RoundTrip.Statement (.migrationFlip idx) := rt_ofEvent rfl rfl
theorem RoundTrip.netCompletion (op pkt : Nat) : RoundTrip.Statement (.netCompletion op pkt) := rt_ofEvent rfl rfl
theorem RoundTrip.atomicResult (idx : Nat) : RoundTrip.Statement (.atomicResult idx) := rt_ofEvent rfl rfl
theorem RoundTrip.homeAtomicPerform (idx : Nat) : RoundTrip.Statement (.homeAtomicPerform idx) := rt_ofEvent rfl rfl
theorem RoundTrip.meshCombine (x y : Nat) : RoundTrip.Statement (.meshCombine x y) := rt_ofEvent rfl rfl
theorem RoundTrip.replySplit (idx : Nat) : RoundTrip.Statement (.replySplit idx) := rt_ofEvent rfl rfl
theorem RoundTrip.cowCopyDone (idx : Nat) : RoundTrip.Statement (.cowCopyDone idx) := rt_ofEvent rfl rfl
theorem RoundTrip.shadowFillDone (idx : Nat) : RoundTrip.Statement (.shadowFillDone idx) := rt_ofEvent rfl rfl
theorem RoundTrip.horizonPublish (cid : Nat) : RoundTrip.Statement (.horizonPublish cid) := rt_ofEvent rfl rfl
theorem RoundTrip.stopAccept (cid : Nat) : RoundTrip.Statement (.stopAccept cid) := rt_ofEvent rfl rfl
theorem RoundTrip.stopComplete (cid : Nat) : RoundTrip.Statement (.stopComplete cid) := rt_ofEvent rfl rfl
theorem RoundTrip.watchFire (core eng : Nat) : RoundTrip.Statement (.watchFire core eng) := rt_ofEvent rfl rfl
theorem RoundTrip.hang (core : Nat) : RoundTrip.Statement (.hang core) := rt_ofEvent rfl rfl
theorem RoundTrip.fbufConsWrite (pid : Nat) (cons : BitVec 32) : RoundTrip.Statement (.fbufConsWrite pid cons) := rt_ofEvent rfl rfl
theorem RoundTrip.rcfComplete (cid inc : Nat) : RoundTrip.Statement (.rcfComplete cid inc) := rt_ofEvent rfl rfl
theorem RoundTrip.phaserRelease (ph : Nat) : RoundTrip.Statement (.phaserRelease ph) := rt_ofEvent rfl rfl
theorem RoundTrip.teamPlace (die : Nat) : RoundTrip.Statement (.teamPlace die) := rt_ofEvent rfl rfl
theorem RoundTrip.teamMigrate (team : Nat) (die : Nat) : RoundTrip.Statement (.teamMigrate team die) := rt_ofEvent rfl rfl
theorem RoundTrip.taskStart (core : Nat) : RoundTrip.Statement (.taskStart core) := rt_ofEvent rfl rfl
theorem RoundTrip.coreReturn (core : Nat) : RoundTrip.Statement (.coreReturn core) := rt_ofEvent rfl rfl
theorem RoundTrip.launchComplete (idx : Nat) : RoundTrip.Statement (.launchComplete idx) := rt_ofEvent rfl rfl
theorem RoundTrip.childQueueMove (die cid : Nat) : RoundTrip.Statement (.childQueueMove die cid) := rt_ofEvent rfl rfl
theorem RoundTrip.pendingSpawnAppend (core : Nat) : RoundTrip.Statement (.pendingSpawnAppend core) := rt_ofEvent rfl rfl
theorem RoundTrip.deficitWindow : RoundTrip.Statement .deficitWindow := rt_ofEvent rfl rfl
theorem RoundTrip.classAging (team : Nat) : RoundTrip.Statement (.classAging team) := rt_ofEvent rfl rfl
theorem RoundTrip.sliceEnd (set : Nat) : RoundTrip.Statement (.sliceEnd set) := rt_ofEvent rfl rfl
theorem RoundTrip.waitvReread (pid q : Nat) : RoundTrip.Statement (.waitvReread pid q) := rt_ofEvent rfl rfl
theorem RoundTrip.waitvTimeout (pid q : Nat) : RoundTrip.Statement (.waitvTimeout pid q) := rt_ofEvent rfl rfl
theorem RoundTrip.submit (m : SubmitMsg) : RoundTrip.Statement (.submit m) := rt_ofEvent rfl rfl
theorem RoundTrip.signal (m : RmaMsg) (value : BitVec 64) : RoundTrip.Statement (.signal m value) := rt_ofEvent rfl rfl
theorem RoundTrip.rmaWrite (m : RmaMsg) (bytes : List (BitVec 8)) : RoundTrip.Statement (.rmaWrite m bytes) := rt_ofEvent rfl rfl
theorem RoundTrip.rmaRead (m : RmaMsg) (len : Nat) : RoundTrip.Statement (.rmaRead m len) := rt_ofEvent rfl rfl
theorem RoundTrip.attestationRequest (m : AttestMsg) : RoundTrip.Statement (.attestationRequest m) := rt_ofEvent rfl rfl
theorem RoundTrip.uePacketReceive (p : UePkt) : RoundTrip.Statement (.uePacketReceive p) := rt_ofEvent rfl rfl
theorem RoundTrip.ueRetransmitTimeout (op pkt : Nat) : RoundTrip.Statement (.ueRetransmitTimeout op pkt) := rt_ofEvent rfl rfl
theorem RoundTrip.ueNack (op pkt : Nat) : RoundTrip.Statement (.ueNack op pkt) := rt_ofEvent rfl rfl
theorem RoundTrip.rotorSlotStart (adverts : List (Nat × Nat)) : RoundTrip.Statement (.rotorSlotStart adverts) := rt_ofEvent rfl rfl
theorem RoundTrip.tsync (dev : Nat) (gts echo : BitVec 64) : RoundTrip.Statement (.tsync dev gts echo) := rt_ofEvent rfl rfl
theorem RoundTrip.slotEndDiscard (port : Nat) (rx : SlotRx) : RoundTrip.Statement (.slotEndDiscard port rx) := rt_ofEvent rfl rfl
theorem RoundTrip.linkReplay (req : ReplayReq) : RoundTrip.Statement (.linkReplay req) := rt_ofEvent rfl rfl
theorem RoundTrip.wavelengthWithdraw (port : Nat) (lam : LamReq) : RoundTrip.Statement (.wavelengthWithdraw port lam) := rt_ofEvent rfl rfl
theorem RoundTrip.wavelengthRejoin (port : Nat) (lam : LamReq) : RoundTrip.Statement (.wavelengthRejoin port lam) := rt_ofEvent rfl rfl
theorem RoundTrip.relayForward (idx : Nat) : RoundTrip.Statement (.relayForward idx) := rt_ofEvent rfl rfl
theorem RoundTrip.ldreq (p : Pkt) : RoundTrip.Statement (.ldreq p) := rt_ofEvent rfl rfl
theorem RoundTrip.streq (p : Pkt) : RoundTrip.Statement (.streq p) := rt_ofEvent rfl rfl
theorem RoundTrip.atreq (p : Pkt) : RoundTrip.Statement (.atreq p) := rt_ofEvent rfl rfl
theorem RoundTrip.atreqCombine (x y : Nat) : RoundTrip.Statement (.atreqCombine x y) := rt_ofEvent rfl rfl
theorem RoundTrip.push (p : Pkt) : RoundTrip.Statement (.push p) := rt_ofEvent rfl rfl
theorem RoundTrip.pullreq (p : Pkt) : RoundTrip.Statement (.pullreq p) := rt_ofEvent rfl rfl
theorem RoundTrip.data (p : Pkt) : RoundTrip.Statement (.data p) := rt_ofEvent rfl rfl
theorem RoundTrip.ack (p : Pkt) : RoundTrip.Statement (.ack p) := rt_ofEvent rfl rfl
theorem RoundTrip.atresp (p : Pkt) : RoundTrip.Statement (.atresp p) := rt_ofEvent rfl rfl
theorem RoundTrip.fabricRetransmit (idx : Nat) : RoundTrip.Statement (.fabricRetransmit idx) := rt_ofEvent rfl rfl
theorem RoundTrip.fabricAbandon (idx : Nat) : RoundTrip.Statement (.fabricAbandon idx) := rt_ofEvent rfl rfl
theorem RoundTrip.hotSpareTakeover (num pos : BitVec 8) (cyc : BitVec 64) : RoundTrip.Statement (.hotSpareTakeover num pos cyc) := rt_ofEvent rfl rfl
theorem RoundTrip.resetRelease (b : BootInput) : RoundTrip.Statement (.resetRelease b) := rt_ofEvent rfl rfl
theorem RoundTrip.strapWake (b : BootInput) : RoundTrip.Statement (.strapWake b) := rt_ofEvent rfl rfl
theorem RoundTrip.freeze : RoundTrip.Statement .freeze := rt_ofEvent rfl rfl
theorem RoundTrip.thaw (viaTap : Bool) : RoundTrip.Statement (.thaw viaTap) := rt_ofEvent rfl rfl
theorem RoundTrip.tapAccess (op : TapOp) : RoundTrip.Statement (.tapAccess op) := rt_ofEvent rfl rfl
theorem RoundTrip.thermalStepDown (isl : Nat) (r : ThermReading) : RoundTrip.Statement (.thermalStepDown isl r) := rt_ofEvent rfl rfl
theorem RoundTrip.thermalStepUp (isl : Nat) (r : ThermReading) : RoundTrip.Statement (.thermalStepUp isl r) := rt_ofEvent rfl rfl
theorem RoundTrip.thermalHold (isl : Nat) (r : ThermReading) : RoundTrip.Statement (.thermalHold isl r) := rt_ofEvent rfl rfl
theorem RoundTrip.thermalHoldEnd (isl : Nat) (r : ThermReading) : RoundTrip.Statement (.thermalHoldEnd isl r) := rt_ofEvent rfl rfl
theorem RoundTrip.mgmtMessage : RoundTrip.Statement .mgmtMessage := rt_ofEvent rfl rfl
theorem RoundTrip.performedAtHome (idx : Nat) : RoundTrip.Statement (.performedAtHome idx) := rt_ofEvent rfl rfl
theorem RoundTrip.dataLanded (core eng : Nat) : RoundTrip.Statement (.dataLanded core eng) := rt_ofEvent rfl rfl
theorem RoundTrip.teamMigrationArrival (idx : Nat) : RoundTrip.Statement (.teamMigrationArrival idx) := rt_ofEvent rfl rfl
theorem RoundTrip.failedNumberMarkedAbsent (num : BitVec 8) : RoundTrip.Statement (.failedNumberMarkedAbsent num) := rt_ofEvent rfl rfl
theorem RoundTrip.debugInterfaceRequest (r : DebugReq) : RoundTrip.Statement (.debugInterfaceRequest r) := rt_ofEvent rfl rfl
theorem RoundTrip.powerLoss : RoundTrip.Statement .powerLoss := rt_ofEvent rfl rfl

end Sys2Proof.Laws
end

