-- ==== Sys2Proof/Tests/Slice0.lean ====
section
/-! SUPPORT. The model's own tests: ill-formed terms that the checks refuse, words written out from the encodings of the spec, and, for every
statement with hypotheses, a state that meets them. -/

open Sys2Proof Sys2Proof.Machine

set_option Elab.async false


/-! ### Ill-formed terms (R271, R278, R302 to R306): one for each check -/

theorem test_illReserved : (Instr.setcl ⟨0, 0⟩ { d := 1, a := 3, la := false, sel := 0, imm := 1 }).check = some .reserved := by decide
theorem test_illModifier : (Instr.vadd ⟨0, 0⟩ 3 { d := 1, a := 2, la := false, b := 3, lb := false, c := 63, lc := false, lat := 0, q := 0 }).check = some .modifier := by decide
theorem test_illRegister : (Instr.qcmp ⟨0, 0⟩ 0 { d := 16, a := 3, la := false, b := 63, lb := false, c := 0, lc := false, lat := 0, q := 0 }).check = some .register := by decide
theorem test_illLastUse : (Instr.qcmp ⟨0, 0⟩ 0 { d := 1, a := 63, la := true, b := 63, lb := false, c := 0, lc := false, lat := 0, q := 0 }).check = some .lastUse := by decide
theorem test_illGuard : (Instr.lds ⟨0, 0⟩ { d := 32, a := 2, la := false, imm := 16, lat := 0, q := 1 }).check = some .guard := by decide
theorem test_illLatency : (Instr.setclAcc ⟨0, 0⟩ { d := 1, a := 1, la := false, imm := 1, lat := 3, q := 0 }).check = some .latency := by decide
theorem test_illImmediate : (Instr.inccl ⟨0, 0⟩ { d := 0, a := 0, la := false, sel := 1, imm := 6 }).check = some .immediate := by decide
theorem test_illRounding : (Instr.vadd ⟨0, 0⟩ 0 { d := 1, a := 2, la := false, b := 3, lb := false, c := 40, lc := false, lat := 0, q := 0 }).check = some .rounding := by decide
theorem test_illScope : (Instr.ldw ⟨0, 0⟩ 0 { d := 5, a := 6, la := false, imm := 0xA00010 }).check = some .scope := by decide
theorem test_illFormat : (Instr.vcvt ⟨0, 0⟩ 5 { d := 5, a := 6, la := false, b := 0, lb := false, c := 0, lc := false, lat := 0, q := 0 }).check = some .format := by decide

/-! ### Words written out from the spec's encodings (Tables 14.21, 16.3, 18.1, 21.3, 22.2, 23.2; R327) -/

theorem test_word_ldw : decodeFor .cc 0x0000071466600010 = .ok (.ldw ⟨0, 0⟩ 1 { d := 5, a := 6, la := false, imm := 0x600010 }) := by decide +kernel
theorem test_word_aswp : decodeFor .cc 0x00000A0060E20614 = .ok (.aswp ⟨0, 0⟩ { d := 0, a := 6, la := false, b := 7, lb := false, c := 8, lc := false, lat := 1, q := 4 }) := by decide +kernel
theorem test_word_ringcpy : decodeFor .cc 0x000014000228000B = .ok (.ringcpy ⟨0, 0⟩ { d := 0, a := 0, la := false, sel := 0x228, imm := 11 }) := by decide +kernel
theorem test_word_inccl : decodeFor .cc 0x0003110000001009 = .ok (.inccl ⟨0, 3⟩ { d := 0, a := 0, la := false, sel := 0, imm := 9 }) := by decide +kernel
theorem test_word_bnz : decodeFor .cc 0x00000D23807FFFFD = .ok (.bnz ⟨0, 0⟩ { a := 7, la := false, b := 0, lb := false, off := 0x7FFFFD }) := by decide +kernel
theorem test_word_ecfgw : decodeFor .cc 0x0003200084400000 = .ok (.ecfgw ⟨0, 3⟩ { d := 0, a := 8, la := false, sel := 0x440, imm := 0 }) := by decide +kernel
theorem test_word_setcl : decodeFor .cc 0x0000110030000001 = .ok (.setcl ⟨0, 0⟩ { d := 0, a := 3, la := false, sel := 0, imm := 1 }) := by decide +kernel
theorem test_word_pushq : decodeFor .cc 0x0100130060A00000 = .ok (.pushq ⟨1, 0⟩ { d := 0, a := 6, la := false, b := 5, lb := false, c := 0, lc := false, lat := 0, q := 0 }) := by decide +kernel
theorem test_word_copy : decodeFor .cpy 0x03046C0000000000 = .ok (.copy ⟨3, 4⟩ { dslot := 0, g := 0, tida := 0, tidb := 0, q := 0 }) := by decide +kernel
theorem test_word_loopAcc : decodeFor .acc 0x0000382400000003 = .ok (.loopAcc ⟨0, 0⟩ 0 { d := 9, a := 0, la := false, imm := 3 }) := by decide +kernel
theorem test_word_lds : decodeFor .acc 0x0600328020020000 = .ok (.lds ⟨6, 0⟩ { d := 32, a := 2, la := false, imm := 16, lat := 0, q := 0 }) := by decide +kernel
theorem test_word_sts : decodeFor .acc 0x0001339010020060 = .ok (.sts ⟨0, 1⟩ { d := 36, a := 1, la := false, imm := 16, lat := 6, q := 0 }) := by decide +kernel
theorem test_word_vimul : decodeFor .exe 0x000042F380C11200 = .ok (.vimul ⟨0, 0⟩ 2 { d := 60, a := 56, la := false, b := 6, lb := false, c := 4, lc := false, lat := 0, q := 0 }) := by decide +kernel
theorem test_word_qcmp : decodeFor .exe 0x020058043FE00030 = .ok (.qcmp ⟨2, 0⟩ 0 { d := 1, a := 3, la := true, b := 63, lb := false, c := 0, lc := false, lat := 3, q := 0 }) := by decide +kernel
theorem test_word_vdiv : decodeFor .exe 0x0000441028300090 = .ok (.vdiv ⟨0, 0⟩ 0 { d := 4, a := 2, la := true, b := 1, lb := true, c := 0, lc := false, lat := 9, q := 0 }) := by decide +kernel
theorem test_word_qrprod : decodeFor .exe 0x00005F1030000160 = .ok (.qrprod ⟨0, 0⟩ { d := 4, a := 3, la := false, b := 0, lb := false, c := 0, lc := false, lat := 6, q := 0 }) := by decide +kernel
theorem test_word_qcol : decodeFor .exe 0x03005B1030000010 = .ok (.qcol ⟨3, 0⟩ { d := 4, a := 3, la := false, b := 0, lb := false, c := 0, lc := false, lat := 1, q := 0 }) := by decide +kernel
theorem test_word_pffz : decodeFor .exe 0x00004D1440000510 = .ok (.pffz ⟨0, 0⟩ { d := 5, a := 4, la := false, b := 0, lb := false, c := 0, lc := false, lat := 1, q := 0 }) := by decide +kernel
theorem test_word_ttset : decodeFor .cc 0x0000251840021000 = .ok (.ttset ⟨0, 0⟩ { d := 6, a := 4, la := false, sel := 2, imm := 0 }) := by decide +kernel
theorem test_word_msel : decodeFor .mtx 0x01046B0100000000 = .ok (.msel ⟨1, 4⟩ { cmd := 1, p1 := 0, p2 := 0, nest := 0, acc := 0, q := 0 }) := by decide +kernel
theorem test_word_mdq : decodeFor .mtx 0x0000680302000002 = .ok (.mdq ⟨0, 0⟩ { cmd := 3, p1 := 2, p2 := 0, nest := 0, acc := 0, q := 2 }) := by decide +kernel
theorem test_word_mlds : decodeFor .mtx 0x000061040100001D = .ok (.mlds ⟨0, 0⟩ { cmd := 4, p1 := 1, p2 := 0, nest := 0, acc := 0, q := 0x1D }) := by decide +kernel
theorem test_word_mgo : decodeFor .mtx 0x0000620504002800 = .ok (.mgo ⟨0, 0⟩ { cmd := 5, p1 := 4, p2 := 0, nest := 1, acc := 1, q := 0 }) := by decide +kernel
theorem test_word_mdraina : decodeFor .mtx 0x0002630605002900 = .ok (.mdraina ⟨0, 2⟩ { cmd := 6, p1 := 5, p2 := 0, nest := 1, acc := 1, q := 0 }) := by decide +kernel
theorem test_word_tmigDemote : decodeFor .cpy 0x0300730000004000 = .ok (.tmigDemote ⟨3, 0⟩ { dslot := 0, g := 0, tida := 1, tidb := 0, q := 0 }) := by decide +kernel
theorem test_word_vomax : decodeFor .exe 0x0000541820A00000 = .ok (.vomax ⟨0, 0⟩ { d := 6, a := 2, la := false, b := 5, lb := false, c := 0, lc := false, lat := 0, q := 0 }) := by decide +kernel
theorem test_word_vfma : decodeFor .exe 0x0000411040620000 = .ok (.vfma ⟨0, 0⟩ 0 { d := 4, a := 4, la := false, b := 3, lb := false, c := 8, lc := false, lat := 0, q := 0 }) := by decide +kernel
theorem test_word_vcvt : decodeFor .exe 0x000048F090000100 = .ok (.vcvt ⟨0, 0⟩ 1 { d := 60, a := 9, la := false, b := 0, lb := false, c := 0, lc := false, lat := 0, q := 0 }) := by decide +kernel
theorem test_word_tshare : decodeFor .cpy 0x0302740000000000 = .ok (.tshare ⟨3, 2⟩ { dslot := 0, g := 0, tida := 0, tidb := 0, q := 0 }) := by decide +kernel
theorem test_word_phase : decodeFor .cc 0x00001A0000000000 = .ok (.phase ⟨0, 0⟩ { d := 0, a := 0, la := false, sel := 0, imm := 0 }) := by decide +kernel
theorem test_word_aadd : decodeFor .cc 0x00000A2950C00000 = .ok (.aadd ⟨0, 0⟩ { d := 10, a := 21, la := false, b := 6, lb := false, c := 0, lc := false, lat := 0, q := 0 }) := by decide +kernel
theorem test_word_cfill : decodeFor .cpy 0x04016D1060000000 = .ok (.cfill ⟨4, 1⟩ { dslot := 4, g := 6, tida := 0, tidb := 0, q := 0 }) := by decide +kernel
theorem test_word_cpush : decodeFor .cpy 0x03046E0000000010 = .ok (.cpush ⟨3, 4⟩ { dslot := 0, g := 0, tida := 0, tidb := 1, q := 0 }) := by decide +kernel
theorem test_word_blt : decodeFor .cc 0x00000C45827FFFFF = .ok (.blt ⟨0, 0⟩ 0 { a := 11, la := false, b := 2, lb := false, off := 0x7FFFFF }) := by decide +kernel
theorem test_word_setcrd : decodeFor .cc 0x00001100B0002000 = .ok (.setcrd ⟨0, 0⟩ { d := 0, a := 11, la := false, sel := 0, imm := 0 }) := by decide +kernel

/-! ### States for the witnesses -/

/-- A tile task that runs in context 1, registered on the superstep phaser 65. -/
def wTask : Task := { cid := 1, started := true, superPh := some 65, desc := { cw := [8, 8, 8, 8, 8], prof := 0x3F, dfqen := true, dfqb := 32 } }
/-- Descriptor 0: a BF16 tensor of 64 by 32 elements in one tile, and that tile's entry: frame 5 of HBM. -/
def wDesc : Nat := 1 + 2 * 2 ^ 5 + 2 ^ 11 + 64 * 2 ^ 32 + 32 * 2 ^ 64 + 6 * 2 ^ 224 + 5 * 2 ^ 228 + 0x2000 * 2 ^ 256 + 2 ^ 304
def wMem : List Host.Cell :=
  (((({} : State).putBytes (memKey 3 0 0) (leBytes 3 8)).putBytes (memKey 1 0 0x1000) (leBytes wDesc 64)).putBytes (memKey 1 0 0x2000) (leBytes 0x501 16)).mem
/-- Core 0 with the task, in a live context with one segment of HBM and a window over it. -/
def wDev (c : Core) : State :=
  { cores := [(0, { c with task := some wTask })]
    ctxs := [(1, { st := .live, used := true, pid := 8, wins := [(0, 0x100F)], ttab := 0x1000 })]
    parts := [(8, { used := true, hbm := 1, segn := 1, maxctx := 2 })]
    mem := wMem
    pstate := .running }
/-- The supervisor core of E0. -/
def wSup (c : Core) : State := { cores := [(256, c)], cur := 256, pstate := .running }
/-- Whether a raw access of a core reaches memory free of poison. -/
def wReach (s : State) (n : Nat) (a : Word) (len : Nat) (p : Perm) : Bool :=
  match s.coreKeys n a len p with | .inl ks => !s.anyPoison ks | .inr _ => false
/-- Whether it is refused. -/
def wRefused (s : State) (n : Nat) (a : Word) (len : Nat) (p : Perm) : Bool := match s.coreKeys n a len p with | .inl _ => false | .inr _ => true
/-- Registers 1 to 7 of a core, one value each. -/
def wRegs (l : List Word) : Core := { s := ((List.range l.length).map fun i => (i + 1, l.getD i 0)).filter fun x => x.2 != 0 }

/-! ### Words of the control core -/

theorem test_meets_IntegerForms :
    CcMay (wDev { wset := [(1, 0x105)], tok := [(2, { count := 0xFFFE }), (5, { count := 1 })] }) ⟨1, 2⟩ [(1, true), (2, true), (3, true), (4, false)] [] 0 := by
  constructor <;> first | decide +kernel | rfl
theorem test_meets_DivRem_zero : CcMay (wDev (wRegs [7])) ⟨0, 0⟩ [(1, false), (2, false)] [] 0 ∧ (wDev (wRegs [7])).rdS 2 = 0 :=
  by refine ⟨?_, ?_⟩ <;> first | decide +kernel | (constructor <;> first | decide +kernel | rfl)
theorem test_meets_DivRem_least :
    let s := wDev (wRegs [0x8000000000000000, 0xFFFFFFFFFFFFFFFF])
    CcMay s ⟨0, 0⟩ [(1, false), (2, false)] [] 0 ∧ (s.rdS 1).toInt = -2 ^ 63 ∧ (s.rdS 2).toInt = -1 :=
  by refine ⟨?_, ?_, ?_⟩ <;> first | decide +kernel | (constructor <;> first | decide +kernel | rfl)
/-- The last aligned doubleword of the window, and one past it. -/
theorem test_meets_RawAccesses :
    let s := wDev (wRegs [0xFF0])
    CcMay s ⟨0, 0⟩ [(1, false), (2, false)] [] 0 ∧ s.farClear = true ∧ (s.rdS 1 + 8).toNat % 8 = 0 ∧ wReach s 0 (s.rdS 1 + 8) 8 .r = true ∧
      wReach s 0 (s.rdS 1 + 8) 8 .w = true ∧ wRefused s 0 (s.rdS 1 + 16) 8 .r = true ∧ wRefused s 0 (s.rdS 1 + 16) 8 .w = true ∧ (s.rdS 1 + 9).toNat % 8 ≠ 0 :=
  by refine ⟨?_, ?_, ?_, ?_, ?_, ?_, ?_, ?_⟩ <;> first | decide +kernel | (constructor <;> first | decide +kernel | rfl)
/-- Local, with C[8] set for this device's own number; away; misaligned; refused. -/
theorem test_meets_Atomics :
    let s := wDev (wRegs [0x100, 1, 0x100, 0x101, 0x104, 0x400000])
    CcMay s ⟨0, 0⟩ [(1, false), (2, false), (3, false), (4, false)] [] 0 ∧ (s.rdS 1).toNat % 8 = 0 ∧
      ((s.rdS 3).getLsbD 8 = true ∧ (s.rdS 3).extractLsb' 0 8 = s.conf.devnum) ∧ ((s.rdS 4).getLsbD 8 = true ∧ (s.rdS 4).extractLsb' 0 8 ≠ s.conf.devnum) ∧
      wReach s 0 (s.rdS 1) 8 .atomic = true ∧ (s.rdS 5).toNat % 8 ≠ 0 ∧ (s.rdS 5).toNat % 4 = 0 ∧ wRefused s 0 (s.rdS 6) 8 .atomic = true :=
  by refine ⟨?_, ?_, ?_, ?_, ?_, ?_, ?_, ?_⟩ <;> first | decide +kernel | (constructor <;> first | decide +kernel | rfl)
theorem test_meets_RemoteLoadFences :
    let s := wDev (wRegs [0x100, 1, 0x104, 0x400000])
    CcMay s ⟨0, 0⟩ [(1, false), (2, false)] [] 0 ∧ (s.rdS 1).toNat % 8 = 0 ∧ (s.rdS 2).extractLsb' 0 8 ≠ s.conf.devnum ∧ (s.rdS 5).extractLsb' 0 8 = s.conf.devnum ∧
      wReach s 0 (s.rdS 1) 8 .r = true ∧ (s.rdS 3).toNat % 8 ≠ 0 ∧ wRefused s 0 (s.rdS 4) 8 .r = true :=
  by refine ⟨?_, ?_, ?_, ?_, ?_, ?_, ?_⟩ <;> first | decide +kernel | (constructor <;> first | decide +kernel | rfl)
theorem test_meets_Branches :
    let s := wDev { wRegs [5, 5, 6, 8] with s := [(1, 5), (2, 5), (3, 6), (4, 8), (63, 16)] }
    CcMay s ⟨0, 0⟩ [(1, false), (2, false), (63, false)] [] 0 ∧ s.rdS 1 = s.rdS 2 ∧ s.rdS 1 ≠ s.rdS 3 ∧ (s.rdS 4).toNat % 8 = 0 ∧ (s.rdS 3).toNat % 8 ≠ 0 ∧
      (s.rdS 63).toNat % 8 = 0 :=
  by refine ⟨?_, ?_, ?_, ?_, ?_, ?_⟩ <;> first | decide +kernel | (constructor <;> first | decide +kernel | rfl)
/-- The greatest value of a level and one past it; a supervisor core. -/
theorem test_meets_CoordinateWords :
    let s := wDev (wRegs [200])
    CcMay s ⟨0, 0⟩ [(1, false)] [] 0 ∧ lvlWidth s.me.cw 1 = 8 ∧ (s.rdS 1).toNat + 55 < 2 ^ 8 ∧ 2 ^ 8 ≤ (s.rdS 1).toNat + 56 ∧
      CcMay (wSup {}) ⟨0, 0⟩ [] [] 0 ∧ isSup (wSup {}).cur = true :=
  by refine ⟨?_, ?_, ?_, ?_, ?_, ?_⟩ <;> first | decide +kernel | (constructor <;> first | decide +kernel | rfl)
/-- The last level's bit: a legal cut one unit above the coordinate, and the coordinate itself. -/
theorem test_meets_StopWords :
    let s := wDev (wRegs [2 ^ 8])
    CcMay s ⟨0, 0⟩ [(1, false)] [] 0 ∧ lastLevelBit s.me.cw = 8 ∧ (s.rdS 1).toNat % 2 ^ lastLevelBit s.me.cw = 0 ∧ (s.ccCrd ⟨0, 0⟩ [] 0).toNat < (s.rdS 1).toNat ∧
      (s.rdS 2).toNat ≤ (s.ccCrd ⟨0, 0⟩ [] 0).toNat :=
  by refine ⟨?_, ?_, ?_, ?_, ?_⟩ <;> first | decide +kernel | (constructor <;> first | decide +kernel | rfl)
/-- A waiting CUT whose stop has been accepted; a pending stop that this core's CUT asked for, and one that it did not. -/
theorem test_meets_StopWords_pending :
    let s : State := { wDev { ccWait := some .cut } with ctxs := [(1, { st := .live, stop := some { accepted := true, cut := 2 ^ 48, k := 2 ^ 48, reqs := [{ srck := 1, core := 0 }] } })] }
    s.me.ccWait = some .cut ∧ CcMayEnd s ⟨0, 0⟩ ∧ (∀ st, (s.ctx 1).stop = some st → st.accepted = true) ∧
      (∀ st, (s.ctx 1).stop = some st → ∃ r ∈ st.reqs, r.srck = 1 ∧ r.core = 0) :=
  ⟨by decide +kernel, by constructor <;> first | decide +kernel | rfl, fun st h => by cases h; rfl, fun st h => by cases h; exact ⟨_, .head _, rfl, rfl⟩⟩
/-- A ring with one free place, a full ring, and a core whose TEND has issued. -/
theorem test_meets_RingWords :
    let s := wDev { wRegs [1, 2, 3] with acc := { ring := { size := 1, tail := 1 } }, exe := { ring := { size := 1, tail := 2 } } }
    CcMay s ⟨0, 0⟩ [(1, false), (2, false)] [] 0 ∧ s.ringFree 0 .acc = 1 ∧ s.ringFree 0 .exe = 0 ∧ s.me.tendIssued = false ∧
      (match s.blockWords 0x100 2 with | .inl ws => ws.length == 2 | .inr _ => false) = true ∧ (match s.blockWords 0xFF8 2 with | .inl _ => false | .inr _ => true) = true ∧
      s.farClear = true ∧ s.me.peel.length + 3 * 2 + 12 ≤ 1024 ∧ CcMayEnd s ⟨0, 0⟩ :=
  by refine ⟨?_, ?_, ?_, ?_, ?_, ?_, ?_, ?_, ?_⟩ <;> first | decide +kernel | (constructor <;> first | decide +kernel | rfl)
theorem test_meets_TokenAndJoin :
    let s := wDev { wRegs [0x105, 0x1105] with tok := [(5, { count := 0xFFFE }), (6, { count := 3 })], tvec := 0x100, acc := { ring := { size := 1 } } }
    CcMay s ⟨0, 0⟩ [(1, false)] [] 0 ∧ waitOk (s.rdS 1) = true ∧ waitOk (s.rdS 2) = false ∧ (s.me.tok.get {} 5).count.toNat + 1 ≤ 0xFFFF ∧
      0xFFFF < (s.me.tok.get {} 5).count.toNat + 2 ∧ s.me.tvec ≠ 0 ∧ tcInh s.me.tcause = false ∧ (s.ctx s.me.cid).st = .live ∧
      s.me.peel.length + 20 ≤ 1024 ∧ CcMay s ⟨0, 0⟩ [] [(6, 3)] 0 ∧ s.ringFree 0 .acc ≠ 0 ∧ s.me.tendIssued = false :=
  by refine ⟨?_, ?_, ?_, ?_, ?_, ?_, ?_, ?_, ?_, ?_, ?_, ?_⟩ <;> first | decide +kernel | (constructor <;> first | decide +kernel | rfl)
/-- A JOIN whose MARK has retired. -/
theorem test_meets_TokenAndJoin_ends :
    let s := wDev { ccWait := some (.join [] [(1, 0)]), acc := { ring := { size := 1, tail := 1, head := 1, ret := 1 } } }
    CcMayEnd s ⟨0, 0⟩ ∧ s.me.retiredAt (engOfNum 1) 0 = true :=
  by refine ⟨?_, ?_⟩ <;> first | decide +kernel | (constructor <;> first | decide +kernel | rfl)
/-- The last 64 bytes below 0x70000, and the first that reach it. -/
theorem test_meets_TileDescriptors :
    let s := wDev (wRegs [0x6FFC0, 0x70000, 0x20, 0, 1])
    CcMay s ⟨0, 0⟩ [(1, false), (4, false)] [] 0 ∧ ((s.rdS 1).toNat % 64 = 0 ∧ (s.rdS 1).toNat + 64 ≤ 0x70000) ∧ ¬((s.rdS 2).toNat % 64 = 0 ∧ (s.rdS 2).toNat + 64 ≤ 0x70000) ∧
      ¬((s.rdS 3).toNat % 64 = 0 ∧ (s.rdS 3).toNat + 64 ≤ 0x70000) ∧ s.me.pendingAt s.cycle (s.rdS 1).toNat 64 = none ∧ tdOk (BitVec.ofNat 512 wDesc) = true ∧
      tdOk (bitsOf 512 (s.me.spadBytes (s.rdS 1).toNat 64)) = false :=
  by refine ⟨?_, ?_, ?_, ?_, ?_, ?_, ?_⟩ <;> first | decide +kernel | (constructor <;> first | decide +kernel | rfl)
theorem test_meets_TileDescriptors_entry :
    let s := wDev {}
    ((s.tdesc 0 0 0).map fun d => decide (d.tiles = 1) && s.pageOk 1 (d.entAddr 0) && (s.entry 0 0 d 0 0).isSome) = some true ∧ s.tdesc 0 0 1 = none ∧
      entOk false 0x501 = true :=
  by refine ⟨?_, ?_, ?_⟩ <;> decide +kernel
/-- The last element of the tensor and the first coordinate past it; a definition that just fits and one that does not. -/
theorem test_meets_PagesAndBuffers :
    let s := wDev (wRegs [63, 31, 64])
    CcMay s ⟨0, 0⟩ [(1, false), (2, false)] [] 0 ∧
      ((s.tdesc 0 0 0).map fun d => (d.locate [63, 31]).isSome && (d.locate [64, 31]).isNone && decide (d.rank = 2)) = some true ∧
      s.pgq.length < 256 ∧ (let a : Word := BitVec.ofNat 64 (0x6FFE0 + 0 * 2 ^ 19); a.toNat < 2 ^ 38 ∧ (a.extractLsb' 0 19).toNat % 32 = 0 ∧
        (a.extractLsb' 0 19).toNat + 32 * ((a.extractLsb' 19 11).toNat + 1) * ((a.extractLsb' 30 8).toNat + 1) ≤ 0x70000) :=
  by refine ⟨?_, ?_, ?_, ?_⟩ <;> first | decide +kernel | (constructor <;> first | decide +kernel | rfl)
/-- Phaser 65 of context 1, which the task has joined to signal and wait, in phase 3, with a phase to arrive for and one already released. -/
def wPh (ms mw : Word) : Phaser :=
  { owner := some (1, 0), counter := 3, members := [{ mode := 3, ms := ms, mw := mw }] }
def wPhDev (c : Core) (ms mw : Word) : State := { wDev c with phasers := [(65, wPh ms mw)] }
theorem test_meets_PhaserWords :
    let s := wPhDev (wRegs [65, 9, 3]) 3 2
    let u := wPhDev (wRegs [65, 9, 3]) 4 3
    CcMay s ⟨0, 0⟩ [(1, false), (2, false)] [] 0 ∧ s.me.ccWait = none ∧ CcMay s ⟨0, 0⟩ [(1, false)] [] (s.phNow 65) ∧ CcMay u ⟨0, 0⟩ [(1, false)] [] (u.phNow 65) ∧
      s.phBusy 65 = false ∧ s.me.task = some wTask ∧
      ((wPh 3 2).member wTask).map (fun m => (m.signals, m.waits, decide (m.ms.toNat ≤ 3), decide (m.mw.toNat < 3))) = some (true, true, true, true) ∧
      ((wPh 4 3).member wTask).map (fun m => (decide (3 < m.ms.toNat), decide (3 ≤ m.mw.toNat))) = some (true, true) ∧ (s.rdS 3).toNat % 1024 < 64 := by
  refine ⟨?_, ?_, ?_, ?_, ?_, ?_, ?_, ?_, ?_⟩ <;> first | decide +kernel | (constructor <;> first | decide +kernel | rfl)
/-- A wait for a phase released, one whose drop has woken it, one still to go on, and one whose member has gone. -/
theorem test_meets_PhaserWords_ends :
    let s := wPhDev { ccWait := some (.phw 65 2 none) } 4 2
    let u := wPhDev { ccWait := some (.phw 65 3 (some 9)) } 4 3
    let v : State := { wPhDev { ccWait := some (.phw 65 3 none) } 4 3 with phasers := [] }
    CcMayEnd s ⟨0, 0⟩ ∧ CcMayEnd u ⟨0, 0⟩ ∧ CcMayEnd v ⟨0, 0⟩ ∧ (2 : Word).toNat < (s.phaser 65).counter.toNat ∧ (s.phaser 65).counter.toNat ≤ (3 : Word).toNat ∧
      ((s.phaser 65).member wTask).isSome = true ∧ (v.phaser 65).member wTask = none := by
  refine ⟨?_, ?_, ?_, ?_, ?_, ?_, ?_⟩ <;> first | decide +kernel | (constructor <;> first | decide +kernel | rfl)
theorem test_meets_PhaserRules : (wPh 4 3).ready (fun _ => false) = true ∧ (wPh 3 3).ready (fun _ => false) = false :=
  by refine ⟨?_, ?_⟩ <;> decide +kernel
/-- A PHASE from phase 3, one whose phaser has released phase 3, and one at the last phase; a SPAWN and a pending one. -/
theorem test_meets_SuperstepsSpawns :
    let s := wPhDev (wRegs [16, 0x1C0, 0x20]) 3 3
    CcMay s ⟨0, 0⟩ [(1, false)] [] (BitVec.ofNat 64 (4 * 2 ^ 48)) ∧ ((s.phaser 65).member wTask).isSome = true ∧ (s.phaser 65).counter.toNat < 0xFFFF ∧
      wReach s 0 (s.rdS 2) 64 .r = true ∧ (s.rdS 2).toNat % 64 = 0 ∧ (s.rdS 3).toNat % 64 ≠ 0 ∧ s.me.spawnSlot = none :=
  by refine ⟨?_, ?_, ?_, ?_, ?_, ?_, ?_⟩ <;> first | decide +kernel | (constructor <;> first | decide +kernel | rfl)
theorem test_meets_SuperstepsSpawns_ends :
    let s : State := { wPhDev { ccWait := some (.phw 65 3 none) } 5 3 with phasers := [(65, { wPh 5 3 with counter := 4 })], launches := [(0, some { spawnId := 7, st := .complete })] }
    CcMayEnd s ⟨0, 0⟩ ∧ ((s.phaser 65).member wTask).isSome = true ∧ (3 : Word).toNat < (s.phaser 65).counter.toNat ∧
      (0, some ({ spawnId := 7, st := .complete } : Launch)) ∈ s.launches :=
  by refine ⟨?_, ?_, ?_, ?_⟩ <;> first | decide +kernel | (constructor <;> first | decide +kernel | rfl)
/-- The last line of the window, and a range that leaves it. -/
theorem test_meets_CacheWords :
    let s := wDev (wRegs [0xFC0])
    CcMay s ⟨0, 0⟩ [(1, false)] [] 0 ∧ s.rangeOk 0xFC0 64 = true ∧ s.rangeOk 0xFC0 128 = false ∧ s.me.locks.length < 16 ∧
      (s.me.icache.get {} (icSet 0xFC0 * 4 + 2)).locked = false :=
  by refine ⟨?_, ?_, ?_, ?_, ?_⟩ <;> first | decide +kernel | (constructor <;> first | decide +kernel | rfl)
theorem test_meets_EngineConfiguration :
    let s := wDev (wRegs [9])
    CcMay s ⟨0, 0⟩ [(1, false)] [] 0 ∧ s.me.cfgItem 0x210 ≠ none ∧ 2 ≤ 0x210 % 256 ∧ s.me.cfgItem 0 = none ∧ s.me.cfgItem 0x101 ≠ none :=
  by refine ⟨?_, ?_, ?_, ?_, ?_⟩ <;> first | decide +kernel | (constructor <;> first | decide +kernel | rfl)
/-- Both ends of the supervisor block on a task's core, a register that is RW, one that is RO, one without a name; the supervisor's own. -/
theorem test_meets_SystemRegisters :
    let s := wDev (wRegs [9])
    let u := wSup (wRegs [9])
    CcMay s ⟨0, 0⟩ [(1, false)] [] 0 ∧ CcMay u ⟨0, 0⟩ [(1, false)] [] 0 ∧ isSup s.cur = false ∧ isSup u.cur = true ∧ (s.sysReg 0 0).isSome = true ∧ (s.sysReg 0 3).isSome = true ∧
      s.sysReg 0 4 = none ∧ s.sysReg 0 0x705 = none ∧ (u.sysReg 256 0x600).isSome = true ∧ (u.sysReg 256 0x704).isSome = true ∧ (u.sysReg 256 0x12).isSome = true ∧
      sysOk 0x12 30 = true :=
  by refine ⟨?_, ?_, ?_, ?_, ?_, ?_, ?_, ?_, ?_, ?_, ?_, ?_⟩ <;> first | decide +kernel | (constructor <;> first | decide +kernel | rfl)
/-- A core with a handler, which vectors, and one without, which parks. -/
theorem test_meets_TrapsAndParks :
    let s := wDev { tvec := 0x100 }
    faultClass 0x01 = 0 ∧ (s.core 0).tvec ≠ 0 ∧ tcInh (s.core 0).tcause = false ∧ (s.core 0).ccWait = none ∧ (s.core 0).task = some wTask ∧ wTask.ended = false ∧
      (s.ctx (s.core 0).cid).st = .live ∧ ((wDev {}).core 0).tvec = 0 ∧ tcInh 0x800 = true :=
  by refine ⟨?_, ?_, ?_, ?_, ?_, ?_, ?_, ?_, ?_⟩ <;> decide +kernel
/-- In no handler; in the handler of a fault "before" of the control core, with SKIP; of ACC, with SKIP; with an interrupted wait. -/
theorem test_meets_TrapWords :
    CcMay (wDev {}) ⟨0, 0⟩ [] [] 0 ∧ (wDev {}).me.tcause.getLsbD 11 = false ∧
      (let s := wDev { tcause := 0x1807, tepc := 0x100 }
       CcMay s ⟨0, 0⟩ [] [] 0 ∧ s.me.tcause.getLsbD 11 = true ∧ s.me.savedWait = none ∧ (s.me.trapBefore && s.me.tcause.getLsbD 12) = true ∧
         engOfNum (s.me.tcause.extractLsb' 8 3).toNat = .cc) ∧
      (let s := wDev { tcause := 0x1905, tepc := 0x100 }
       CcMay s ⟨0, 0⟩ [] [] 0 ∧ (s.me.trapBefore && s.me.tcause.getLsbD 12) = true ∧ engOfNum (s.me.tcause.extractLsb' 8 3).toNat ≠ .cc) ∧
      (let s := wDev { tcause := 0x0905, tepc := 0x108, savedWait := some (.cut, 0x100) }
       CcMay s ⟨0, 0⟩ [] [] 0 ∧ s.me.savedWait = some (.cut, 0x100) ∧ (s.me.trapBefore && s.me.tcause.getLsbD 12) = false) :=
  by refine ⟨?_, ?_, ⟨?_, ?_, ?_, ?_, ?_⟩, ⟨?_, ?_, ?_⟩, ⟨?_, ?_, ?_⟩⟩ <;> first | decide +kernel | (constructor <;> first | decide +kernel | rfl)
theorem test_meets_TaskEnd :
    CcMay (wDev {}) ⟨0, 0⟩ [] [] 0 ∧ (wDev {}).me.task = some wTask ∧ tcInh (wDev {}).me.tcause = false ∧ (wDev {}).me.drained = true ∧
      (wDev { acc := { ring := { size := 1, tail := 1 } } }).me.drained = false ∧ CcMay (wSup {}) ⟨0, 0⟩ [] [] 0 ∧ (wSup {}).me.task = none ∧
      CcMayEnd (wDev { ccWait := some (.join [] []) }) ⟨0, 0⟩ :=
  by refine ⟨?_, ?_, ?_, ?_, ?_, ?_, ?_, ?_⟩ <;> first | decide +kernel | (constructor <;> first | decide +kernel | rfl)

/-! ### Supervisor forms -/

/-- A supervisor core beside partition 8, a live context 1, a stopped one, a saved one, a fence of a left incarnation, and a fault record's park. -/
def wSupDev (c : Core) : State :=
  { wSup c with
    ctxs := [(1, { st := .live, used := true, pid := 8, inc := 3 }), (2, { st := .stopped, used := true, pid := 8 }), (3, { st := .free, used := true, inc := 5, pid := 8 })]
    parts := [(8, { used := true, hbm := 1, segn := 1, maxctx := 2, budget := 10 })]
    fences := [{ cid := 3, inc := 6 }, { cid := 1, inc := 2 }]
    mem := wMem }
theorem test_meets_SupervisorContexts :
    let s := wSupDev (wRegs [0x1C0, 1, 2, 3])
    CcMay s ⟨0, 0⟩ [(1, false)] [] 0 ∧ isSup s.cur = true ∧ wReach s 256 0x1C0 64 .r = true ∧ (s.ctx 1).st ≠ .free ∧ (s.ctx 1).held = true ∧ (s.ctx 3).held = false ∧
      (s.ctx 3).st = .free ∧ s.fencePending 3 (s.ctx 3).nextInc = true ∧ s.fencePending 1 2 = true ∧ s.fencePending 1 ((s.ctx 1).inc + 1) = false ∧
      (s.ctx 2).st = .stopped ∧ s.quiescent 2 = true ∧ (s.imgKey 2).isSome = true ∧ s.live 1 3 = true ∧ s.live 1 2 = false ∧
      (match s.loadable 1 with | .inr v => v == 5 | .inl _ => false) = true ∧ (match s.loadable 2 with | .inr v => v == 1 | .inl _ => false) = true :=
  by refine ⟨?_, ?_, ?_, ?_, ?_, ?_, ?_, ?_, ?_, ?_, ?_, ?_, ?_, ?_, ?_, ?_, ?_⟩ <;> first | decide +kernel | (constructor <;> first | decide +kernel | rfl)
/-- A stopped context that is not quiescent, a loadable image, and the waiting CTXSAVE. -/
theorem test_meets_SupervisorContexts_waits :
    let s : State := (wSupDev { ccWait := some (.ctxsave 2) }).putImage 1 { cid := 1, pid := 8 }
    s.me.ccWait = some (.ctxsave 2) ∧ CcMayEnd s ⟨0, 0⟩ ∧ s.quiescent 2 = true ∧ s.imgKey 2 = some (memKey 1 0 0) ∧
      ({ s with flying := [{ cid := 2 }] } : State).quiescent 2 = false ∧ (match s.loadable 1 with | .inl _ => true | .inr _ => false) = true :=
  by refine ⟨?_, ?_, ?_, ?_, ?_, ?_⟩ <;> first | decide +kernel | (constructor <;> first | decide +kernel | rfl)
theorem test_meets_SupervisorPartitions :
    let s := wSupDev (wRegs [0x200])
    CcMay s ⟨0, 0⟩ [(1, false)] [] 0 ∧ isSup s.cur = true ∧ wReach s 256 0x200 128 .r = true ∧ wReach s 256 0x200 72 .r = true ∧ (0x200 : Word).toNat % 128 = 0 ∧ (0x1FC : Word).toNat % 8 ≠ 0 ∧
      wRefused s 256 0x80000000000 16 .r = true ∧ (s.part 8).used = true ∧ (s.part 9).used = false ∧ s.ctxsOf 8 ≠ [] ∧ s.children 8 = [] ∧
      s.mapOk (s.part 8) 0x1000 1 = true ∧ s.mapOk (s.part 8) 0x10 1 = false ∧ s.budgetOk 8 10 = true ∧ s.sliceBad 0 = false ∧ s.sliceBad (BitVec.ofNat 576 (1 + 2 ^ 32)) = true :=
  by refine ⟨?_, ?_, ?_, ?_, ?_, ?_, ?_, ?_, ?_, ?_, ?_, ?_, ?_, ?_, ?_, ?_⟩ <;> first | decide +kernel | (constructor <;> first | decide +kernel | rfl)
/-- An empty device buffer and one with a record; an empty page-request queue and a full one; a parked engine; no cause and one cause for WFE; the last instrument register. -/
theorem test_meets_SupervisorBuffersPower :
    let r : FRec := { code := 1, cid := 1, inc := 3, park := true }
    let s := wSupDev (wRegs [0x200])
    let u : State := { s with cores := [(5, { acc := { park := some { frec := r, pid := 8, idx := 2 } } }), (256, wRegs [0x200])], pgq := [{}], wfe := 4 }
    CcMay s ⟨0, 0⟩ [(1, false)] [] 0 ∧ CcMay u ⟨0, 0⟩ [(1, false)] [] 0 ∧ wReach s 256 0x200 128 .w = true ∧ ({ s with mem := [] } : State).prod 0 = ({ s with mem := [] } : State).cons 0 ∧
      (s.fbufPut 0 0 [1]).prod 0 ≠ (s.fbufPut 0 0 [1]).cons 0 ∧ (s.fbufKeys 0 4096 128).isSome = true ∧ s.pgq = [] ∧ u.pgq = [{}] ∧ s.wfe = 0 ∧ u.wfe ≠ 0 ∧
      (u.parkedOn 8 2).isSome = true ∧ u.parkedOn 8 3 = none :=
  by refine ⟨?_, ?_, ?_, ?_, ?_, ?_, ?_, ?_, ?_, ?_, ?_, ?_⟩ <;> first | decide +kernel | (constructor <;> first | decide +kernel | rfl)

/-! ### The access sequencer -/

/-- An ACC core with g registers, an entry in sq0 and one in dq0, and outcome bits of both queues. -/
def wAcc : Core :=
  { g := [(1, 0x40), (2, 3), (3, 0x70000), (4, 0x21)], sq := [(0, [{ data := 7 }])], dq := [(0, [{ data := 9 }])], boqX := [{ bit := true }], boqA := [{ bit := false }],
    acc := { ring := { size := 6, tail := 4 } } }
theorem test_meets_AccessIntegers :
    EngMay (wDev wAcc) .acc ⟨0, 0⟩ 0 (accPops [36, 2]) 0 0 [(4, { data := 7 })] { (wDev wAcc).me with sq := [] } ∧
    EngMay (wDev wAcc) .acc ⟨0, 0⟩ 0 [] (accBits [1, 39]) 0 [] (wDev wAcc).me :=
  by refine ⟨?_, ?_⟩ <;> first | decide +kernel | (constructor <;> first | decide +kernel | rfl)
theorem test_meets_AccessIntegers_ready : GReady (wDev wAcc) [1, 2] ∧ (wDev wAcc).accRoom 32 = true ∧ (wDev wAcc).accRoom 38 = true ∧
    EngMay (wDev wAcc) .acc ⟨0, 0⟩ 0 [] 0 0 [] (wDev wAcc).me ∧
    ((wDev wAcc).tdesc 0 ((wDev wAcc).engCrd .acc ⟨0, 0⟩ [] 0 0) 0).map (fun d => decide (1 < d.rank ∧ d.rank ≤ 2)) = some true :=
  ⟨by unfold GReady; decide +kernel, by decide +kernel, by decide +kernel, by constructor <;> first | decide +kernel | rfl, by decide +kernel⟩
/-- The last vector and the last doubleword below 0x70000, and the first addresses that reach it or are misaligned. -/
theorem test_meets_AccessScratchpad :
    let s := wDev { wAcc with g := [(1, 0x6FF00), (2, 0x6FFF8), (3, 0x6FF20), (4, 0x70000), (5, 0x21)] }
    GReady s [1, 2, 3, 4, 5] ∧ EngMay s .acc ⟨0, 0⟩ 0 [] 0 0 [] s.me ∧ ((s.rdG 1).toNat % 32 = 0 ∧ (s.rdG 1).toNat + 256 ≤ 0x70000) ∧
      ((s.rdG 2).toNat % 8 = 0 ∧ (s.rdG 2).toNat + 8 ≤ 0x70000) ∧ ¬((s.rdG 3).toNat % 32 = 0 ∧ (s.rdG 3).toNat + 256 ≤ 0x70000) ∧
      ¬((s.rdG 4).toNat % 8 = 0 ∧ (s.rdG 4).toNat + 8 ≤ 0x70000) ∧ ¬((s.rdG 5).toNat % 8 = 0 ∧ (s.rdG 5).toNat + 8 ≤ 0x70000) ∧
      s.me.pendingAt s.cycle (s.rdG 1).toNat 256 = none ∧ s.accRoom 32 = true :=
  ⟨by unfold GReady; decide +kernel, by constructor <;> first | decide +kernel | rfl, by decide +kernel, by decide +kernel, by decide +kernel, by decide +kernel, by decide +kernel,
   by decide +kernel, by decide +kernel⟩
/-- Operands of a tensor word whose base coordinates stand in g1 and g2: the first element; a coordinate outside. -/
def wTn (g : BitVec 6) : TN := { tid := 0, g := g, x := 32, l := false, lat := 0, q := 0 }
def wTens : Core := { wAcc with g := [(3, 64), (4, 64)], sq := [(0, [{ data := 0 }])], dq := [(0, [{ data := 9 }])] }
theorem test_meets_TensorLoads :
    let s := wDev wTens
    EngMay s .acc ⟨0, 0⟩ 0 [] 0 0 [] s.me ∧ s.accRoom 32 = true ∧
      (match s.accRow 0 (Instr.ldt ⟨0, 0⟩ (wTn 1)).word (wTn 1) with
       | .inl (d, x) => (match s.tensorRead 0 .acc 0 d 0 false (d.row x) with | .ok _ _ u => decide (u.me.peel.length + 24 ≤ 1024) | .stop _ => false) &&
           (d.indexed x 0 0).isSome
       | .inr _ => false) = true ∧
      (match s.accRow 0 (Instr.ldt ⟨0, 0⟩ (wTn 3)).word (wTn 3) with | .inr (.fault code _) => code == 0x08 | _ => false) = true :=
  by refine ⟨?_, ?_, ?_, ?_⟩ <;> first | decide +kernel | (constructor <;> first | decide +kernel | rfl)
theorem test_meets_TensorStores :
    let s := wDev wTens
    isSup s.cur = false ∧ EngMay s .acc ⟨0, 0⟩ 0 (accPops [36]) 0 0 [(4, { data := 0 })] { s.me with sq := [] } ∧
      (match s.accRow 0 (Instr.stt ⟨0, 0⟩ (wTn 1)).word (wTn 1) with
       | .inl (d, x) => (match s.tensorWrite 0 .acc 0 d 0 (rowCells (d.row x) 0) with | .held _ => true | _ => false)
       | .inr _ => false) = true :=
  by refine ⟨?_, ?_, ?_⟩ <;> first | decide +kernel | (constructor <;> first | decide +kernel | rfl)
/-- The greatest count of a level and one past it; an outcome skip that just fits and one that does not; a buffer with a filled and an acquired slot. -/
theorem test_meets_AccessSequence :
    let s := wDev { wAcc with cbs := [(0, some { filled := 1, acquired := 1, free := 0 })] }
    EngMay s .acc ⟨0, 0⟩ 0 [] 0 0 [] s.me ∧ EngMay s .acc ⟨0, 0⟩ 0 [] 1 0 [] s.me ∧ s.me.acc.loops = [] ∧ lvlWidth s.me.cw 1 = 8 ∧ lvlGet s.me.cw 1 s.me.acc.crd + (255 + 0) < 2 ^ 8 ∧
      ¬lvlGet s.me.cw 1 s.me.acc.crd + (256 + 0) < 2 ^ 8 ∧ 2 < (s.me.acc.ring.tail - s.me.acc.ring.head).toNat ∧ (s.me.boqX.head?.map (·.bit)).getD false = true ∧
      3 ≤ (s.me.acc.ring.tail - (s.me.acc.ring.head + 1)).toNat ∧ (s.me.acc.ring.tail - (s.me.acc.ring.head + 1)).toNat < 4 ∧
      (s.me.cbs.get none 0).map (fun b => decide (b.filled ≠ 0 ∧ b.acquired ≠ 0)) = some true ∧ s.me.cbs.get none 1 = none ∧
      (s.engCrd .acc ⟨0, 0⟩ [] 0 0).toNat ≤ (s.horizonOf s.cur).toNat ∧ (s.me.queue 0).length < 16 :=
  by refine ⟨?_, ?_, ?_, ?_, ?_, ?_, ?_, ?_, ?_, ?_, ?_, ?_, ?_, ?_⟩ <;> first | decide +kernel | (constructor <;> first | decide +kernel | rfl)

/-! ### The execute sequencer -/

def wExe : Core :=
  { v := [(1, 5), (2, 6)], dq := [(0, [{ data := 9 }])], exe := { ring := { size := 6, tail := 4 } }, boqA := [{ bit := true }] }
def wOps : ExeOps := { vs := [(1, true), (2, false)], ps := [1], qs := [(3, true)], d := 4 }
/-- VectorFloats, VectorIntegers, VectorConversions, ProbabilityWords: two v sources, a predicate and a probability register; and a source that pops dq0. -/
theorem test_meets_VectorFloats :
    let s := wDev wExe
    EngMay s .exe ⟨0, 0⟩ 0 (exePops (wOps.vs.map (·.1))) 0 0 [] s.me ∧ ExeReady s wOps :=
  by refine ⟨?_, ?_⟩ <;> first | decide +kernel | (constructor <;> first | decide +kernel | rfl)
theorem test_meets_VectorFloats_pops :
    let s := wDev wExe
    EngMay s .exe ⟨0, 0⟩ 0 (exePops [56, 2]) 0 0 [(0, { data := 9 })] { s.me with dq := [] } := by constructor <;> first | decide +kernel | rfl
theorem test_meets_VectorMovesControl :
    let s := wDev wExe
    EngMay s .exe ⟨0, 0⟩ 0 [] 1 0 [] s.me ∧ ExeReady s {} ∧ s.me.defBase ≠ none ∧ s.me.defPending = false ∧ (wSup {}).me.defBase = none ∧
      EngMay (wSup {}) .exe ⟨0, 0⟩ 0 [] 0 0 [] (wSup {}).me ∧ (s.me.boqA.head?.map (·.bit)).getD false = true ∧
      3 ≤ (s.me.exe.ring.tail - (s.me.exe.ring.head + 1)).toNat ∧ (s.me.exe.ring.tail - (s.me.exe.ring.head + 1)).toNat < 4 ∧ s.me.boqX.length + s.me.bitsDue < 64 :=
  by refine ⟨?_, ?_, ?_, ?_, ?_, ?_, ?_, ?_, ?_, ?_⟩ <;> first | decide +kernel | (constructor <;> first | decide +kernel | rfl)
/-- The oldest word at the horizon, one above it, one with a fault of its own, and one record too many for the deferral queue. -/
theorem test_meets_ExecuteCommit :
    let s := wDev { exeQ := [{ effs := [.v 1 5] }] }
    let u := wDev { exeQ := [{ effs := [.v 1 5], e := 1 }] }
    (s.core 0).exeQ = [{ effs := [.v 1 5] }] ∧ s.engRuns 0 .exe = true ∧ (0 : Word).toNat ≤ (s.horizonOf 0).toNat ∧ s.stopAtOrBelow 0 0 = false ∧
      ¬(1 : Word).toNat ≤ (u.horizonOf 0).toNat ∧ 1024 < 1024 - 0 + [({} : DefRec)].length ∧ 1023 - 0 + [({} : DefRec)].length ≤ 1024 :=
  by refine ⟨?_, ?_, ?_, ?_, ?_, ?_, ?_⟩ <;> decide +kernel

/-! ### The matrix, copy and network engines -/

/-- A core whose matrix ring holds one word, with slot 0 all zero: TIDA, TIDB and TIDC are tensor 0. -/
def wMtx (w : Word) : State := wDev { spad := putSpad [] 0 (leBytes w.toNat 8), mtx := { ring := { size := 6, tail := 1 } } }
def wMg : MG := { cmd := 0, p1 := 0, p2 := 0, nest := 0, acc := 0, q := 0 }
theorem test_meets_MatrixIssue :
    let w := (Instr.mlda ⟨0, 0⟩ wMg).word
    let s := wMtx w
    MtxMay s ⟨0, 0⟩ w 0 none [] s.me ∧ slotOk ((List.range 16).map fun i => s.me.mx.shadow.get 0 i) = true ∧
      ((s.tdesc 0 0 0).map fun d => pairOk (Nest.of (List.replicate 16 0)) d d && cFmtOk (d.fmt == 8) d.fmt && d.fmt != 8 && mgoOk (Nest.of (List.replicate 16 0)) (groupOf d.fmt) s.me.cw 0 false &&
        decide (16 * panelBytes d.fmt 0 ≤ 131072) && decide (131072 < 17 * panelBytes d.fmt 0)) = some true ∧
      slotOk [BitVec.ofNat 64 (2 ^ 30 * 3)] = false ∧ s.tdesc 0 0 1 = none :=
  by refine ⟨?_, ?_, ?_, ?_, ?_⟩ <;> first | decide +kernel | (constructor <;> first | decide +kernel | rfl)
theorem test_meets_MatrixIssue_pop :
    let w := (Instr.msel ⟨0, 0⟩ wMg).word
    let s := (wMtx w).modCore 0 fun c => { c with dq := [(0, [{ data := 3 }])] }
    MtxMay s ⟨0, 0⟩ w 0 (some 0) [(0, { data := 3 })] { s.me with dq := [] } := by constructor <;> first | decide +kernel | rfl
/-- An issued word of each kind at the horizon. -/
theorem test_meets_MatrixCommit :
    let s (opc : Nat) : State := wDev { mx := { ops := [{ w := BitVec.ofNat 64 (opc * 2 ^ 40) }] } }
    (∀ opc ∈ [0x62, 0x65, 0x66, 0x67, 0x69, 0x6B], ((s opc).core 0).mx.ops = [{ w := BitVec.ofNat 64 (opc * 2 ^ 40) }] ∧ (s opc).engRuns 0 .mtx = true ∧
      (s opc).clear [] = true ∧ (0 : Word).toNat ≤ ((s opc).horizonOf 0).toNat ∧ (s opc).stopAtOrBelow 0 0 = false ∧ ((s opc).core 0).queueFull 0 = false) := by decide +kernel
/-- A point of MGO of one group: A from the stage, B from the panel. -/
theorem test_meets_MatrixCommit_point :
    let lvl : Word := 1
    let x := Nest.of [BitVec.ofNat 64 (3 * 2 ^ 32 + 2 ^ 37 + 2 ^ 43 + 2 ^ 49), lvl, lvl, lvl, lvl, lvl, lvl]
    let s := wDev { mx := { avalid := true, wb1 := { valid := true, groups := 1 }, wb0 := { valid := true, groups := 1 } } }
    0 < x.points ∧ x.asrc = true ∧ x.bsrc = true ∧
      ((s.tdesc 0 0 0).map fun d => originOk d (x.oA 0) && decide (groupOf d.fmt ≤ stageLen d.fmt) && decide (groupOf d.fmt ≤ 32)) = some true ∧
      (let r := s.me.mx.half s.me.mx.front
       r.valid = true ∧ r.tidb = x.tidb ∧ r.bmode = x.bmode ∧ r.n0 = (x.oB 0).getD x.bdn 0 ∧ r.k0 ≤ (x.oB 0).getD x.bdk 0) :=
  by refine ⟨?_, ?_, ?_, ?_, ?_⟩ <;> decide +kernel
def wCp : CP := { dslot := 0, g := 0, tida := 0, tidb := 0, q := 0 }
theorem test_meets_CopyWords :
    let s := wDev { cslot := [(1, 32)], cpy := { ring := { size := 6, tail := 1 } } }
    s.me.cpyBusy = false ∧ EngMay s .cpy ⟨0, 0⟩ 0 [] 0 0 [] s.me ∧
      (match s.cpyCommon (Instr.copy ⟨0, 0⟩ wCp).word (s.jobOf (Instr.copy ⟨0, 0⟩ wCp).word) [0, 1, 2, 3] false false with | some _ => false | none => true) = true :=
  by refine ⟨?_, ?_, ?_⟩ <;> first | decide +kernel | (constructor <;> first | decide +kernel | rfl)
def wSy (sel : BitVec 11) : SY := { d := 0, a := 0, la := false, sel := sel, imm := 0 }
/-- A put of 32 bytes, which its rule accepts; a descriptor of no bytes, which it refuses; the last 16 bytes below 0x70000 for a counter. -/
theorem test_meets_NetworkWords :
    let s := wDev { net := { ring := { size := 6, tail := 1 } }, spad := putSpad [] 8 [32] }
    EngMay s .net ⟨0, 0⟩ 0 [] 0 0 [] s.me ∧ 64 * (wSy 0x6FF).sel.toNat + 16 ≤ 0x70000 ∧ s.me.pendingAt s.cycle 0 16 = none ∧
      (match s.netChk (Instr.nput ⟨0, 0⟩ (wSy 0)).word 2 0 with | some _ => false | none => true) = true ∧
      (match s.netChk (Instr.nput ⟨0, 0⟩ (wSy 1)).word 2 64 with | some (.fault _ _) => true | _ => false) = true :=
  by refine ⟨?_, ?_, ?_, ?_, ?_⟩ <;> first | decide +kernel | (constructor <;> first | decide +kernel | rfl)
theorem test_meets_CommonWords : (wDev {}).curEng = .cc ∧ CcMay (wDev {}) ⟨0, 0⟩ [] [] 0 ∧ ({ wDev {} with curEng := .cpy } : State).curEng = .cpy :=
  by refine ⟨?_, ?_, ?_⟩ <;> first | decide +kernel | (constructor <;> first | decide +kernel | rfl)

/-! ### Entries at their homes, the mesh and completions -/

/-- A store of the supervisor core in flight. -/
def wHome : State := { wSup {} with flying := [{ id := 7, core := 256, act := .store 0x100 8 5 ((List.range 8).map fun i => memKey 3 0 (0x100 + i)) }] }
theorem test_meets_PerformedAtHome : HomeMay wHome (wHome.flying.headD {}) ∧ (wDev {}).live 1 9 = false ∧
    ({ wHome with flying := [{ id := 7, core := 256, after := [8] }, { id := 8, core := 256 }] } : State).heldReady { id := 7, core := 256, after := [8] } = false :=
  ⟨by constructor <;> first | decide +kernel | rfl | exact .inl (by decide +kernel), by decide +kernel, by decide +kernel⟩
/-- A table write, a counted entry, a phaser and a copy granule of a live context: what their clauses ask of the state. -/
theorem test_meets_PerformedAtHome_forms :
    let s := wDev {}
    let h : Held := { id := 7, cid := 1, core := 0, act := .ttref 0 0 }
    (match s.tdesc 0 0 0 with
     | some d => (match s.writeTiles 0 0 .acc 0 d 0 (coversRun d [{ v := 5 }]) (tilesOf [{ v := 5 }]) [] with
         | .inr (u, runs) => (u.cellKeys 1 runs [{ v := 5 }]).isSome | .inl _ => false)
     | none => false) = true ∧
      ((s.homeDesc h 0).map fun d => decide (0 < d.tiles) && s.pageOk 1 (d.entAddr 0) && !entMig (s.entAt 1 (d.entAddr 0)) && decide (entIdx (s.entAt 1 (d.entAddr 0)) = 0) &&
        !s.writing 1 0 0 && s.quarFits 1 (s.dropAdds 1 (s.entAt 1 (d.entAddr 0)))) = some true ∧
      (match ({} : Phaser).register 1 0 { mode := 3 } wTask with | .ok _ => true | _ => false) = true ∧ (wPh 3 2).dropTask wTask ≠ none ∧
      (match (wPh 3 2).register 1 0 { mode := 3 } wTask with | .illegal => true | _ => false) = true ∧ (match (wPh 3 2).register 2 0 { mode := 3 } wTask with | .ok _ => false | _ => true) = true ∧ s.seqRoom 3 1 0 0 = true := by
  refine ⟨?_, ?_, ?_, ?_, ?_, ?_, ?_⟩ <;> decide +kernel
/-- Two additions to one doubleword that may combine, an operation not yet performed, and one performed of two requesters. -/
def wReq (id : Nat) (x : Word) : AReq :=
  let ks := (List.range 8).map fun i => memKey 1 0 (0x100 + i)
  { addr := 0x100, x := x, ks := ks, tree := .one { id := id, cid := 1, act := .atomic .add 0x100 5 x 0 false ks } }
theorem test_meets_MeshAtomics :
    let s : State := { wDev { sPend := [(5, 7)] } with areqs := [wReq 7 1, wReq 8 2] }
    AtomOp.combines .add false = true ∧ s.mayCombine (wReq 7 1) (wReq 8 2) = true ∧ s.mayCombine (wReq 7 1) { wReq 8 2 with nc := true } = false ∧
      s.live 1 0 = true ∧ s.homeOn (wReq 7 1).tree.first = true ∧ s.areqFree (wReq 7 1) [] = true ∧ s.anyPoison (wReq 7 1).ks = false ∧ (wReq 7 1).ks.Nodup ∧
      (wReq 7 1).tree.first.onCore (s.core 0) = true ∧ (s.core 0).sPend.get 0 5 = 7 ∧ (wReach (wSup {}) 256 0x100 8 .atomic) = true := by
  refine ⟨?_, ?_, ?_, ?_, ?_, ?_, ?_, ?_, ?_, ?_, ?_⟩ <;> decide +kernel
theorem test_meets_TileCompletions :
    let o : TileOp := { cid := 1, ent := 0x501, entAddr := 0x2000, frame := 6 }
    let s : State := { wDev { landQ := [{ g := some 3, sig := 5 }] } with tileOps := [o] }
    s.tilePlaced o = true ∧ s.quarFits 1 1 = true ∧ s.logs 0 0 = false ∧ (s.entAt 1 0x2000 = 0x501) ∧ s.runPoisoned 1 5 1 = false ∧ (s.core 0).landQ = [{ g := some 3, sig := 5 }] ∧
      s.coreOn 0 = true ∧ s.clear [] = true ∧ ((s.core 0).tok.get {} 5).count.toNat < 0xFFFF := by refine ⟨?_, ?_, ?_, ?_, ?_, ?_, ?_, ?_, ?_⟩ <;> decide +kernel
/-- A fill of 32 bytes under way, and a buffer whose slot 0 is filled. -/
theorem test_meets_TileCompletions_copies :
    let o : CpyOp := { id := 4, job := { w := 0x6C * 2 ^ 40, d1 := 32 }, buf := List.replicate 32 7 }
    let p : CpyOp := { id := 5, job := { w := 0x71 * 2 ^ 40 }, done := true }
    let s := wDev { cpyQ := [o], cbs := [(0, some { filling := 1 })] }
    let u := wDev { cpyQ := [p], cbs := [(0, some { filling := 1 })] }
    s.engRuns 0 .cpy = true ∧ s.cpyAfter 0 o = false ∧ (s.core 0).cpyQ = [o] ∧ o.job.opc = 0x6C ∧ o.job.fn ≠ 1 ∧ o.job.mode = 0 ∧ o.k < o.job.len0 / 32 ∧ 32 * o.k + 32 ≤ o.buf.length ∧
      (u.core 0).cbs.get none 0 = some { filling := 1 } ∧
      ((u.core 0).cpyQ.find? fun p => p.job.opc == 0x71 && p.done && p.job.tidb.toNat == 0) = some p ∧ p.job.cbSlot = 0 := by
  refine ⟨?_, ?_, ?_, ?_, ?_, ?_, ?_, ?_, ?_, ?_, ?_⟩ <;> decide +kernel

/-! ### The fabric, the host and launches -/

/-- Position 0 of device 0 and position 17 of device 3: their packets go by port 1 in the slots congruent to 1. -/
def wFab : State :=
  { wDev {} with
    posTab := [(0, 1), (3, 18)], slotNo := 1, gts := 1000, slotAt := 1000, root := 3,
    ports := [(1, { act := 0x0F, trn := 0x30, errs := [(3, [4])], trnErrs := [(4, List.replicate 16 0)], replay := [{ lsn := 7 }] })],
    conf := { egress := 2, endpoints := [(9, 0xFFFF)] }, parts := [(8, { used := true, job := 4, hbm := 1, segn := 1, maxctx := 2 })] }
/-- A request of device 3 to this device's context 1, in its window. -/
def wPkt (kind : BitVec 8) : Pkt := { head := { kind := kind, srcdev := 3, cid := 1, addr := 0x100, opnd := 8, seq := 1, gts := 1000 } }
/-- A packet that waits for a port in a slot. -/
def wTx (slot : Nat) (relayed : Bool) : Tx :=
  { pkt := { wPkt 3 with head := { (wPkt 3).head with dstdev := 3 } }, port := 1, slot := slot, relayed := relayed, buf := true, from_ := 1 }
/-- One wavelength to withdraw by its estimate and one to rejoin, a flit to replay, a packet that may start, and a slot before the cycle boundary. -/
theorem test_meets_FabricPorts :
    let x := wFab.port 1
    let s : State := { wFab with txq := [wTx 1 false] }
    (x.act.getLsbD 3 = true ∧ (x.errs.get [] 3).length * 300000 < (x.errs.get [] 3).sum * 10 ^ (x.ctl.extractLsb' 0 4).toNat) ∧
      (x.trn.getLsbD 4 = true ∧ x.ctl.getLsbD 8 = true ∧ (x.trnErrs.get [] 4).length = 16 ∧
        (x.trnErrs.get [] 4).sum * 10 ^ ((x.ctl.extractLsb' 0 4).toNat + 1) < 16 * 300000) ∧
      x.replay.find? (fun y => y.lsn == 7) = some { lsn := 7 } ∧ x.replay.find? (fun y => y.lsn == 8) = none ∧ wFab.portLeft 1 ≠ 0 ∧ x.replay.length ≤ 512 ∧
      s.ready 1 = [wTx 1 false] ∧ wFab.ready 1 = [] ∧ (wFab.slotNo + 1) % 16 ≠ 0 ∧ ({ wFab with slotNo := 15 } : State).slotNo + 1 = 16 ∧
      wFab.root = 3 ∧ wFab.conf.devnum.toNat ≠ wFab.root ∧ wFab.slotNo ≠ 16 * (1 : Word).toNat ∧ ({ wFab with slotNo := 16 } : State).slotNo = 16 * (1 : Word).toNat ∧
      wFab.pos 0 = some 0 ∧ wFab.pos 0 ≠ some 1 := by decide +kernel
/-- The store request: fresh, malformed, too old, of another incarnation, of CID 0, below its window, marked, with the cache full, and for device 3. -/
theorem test_meets_FabricArrivals :
    let far : Pkt := { wPkt 2 with head := { (wPkt 2).head with dstdev := 3, srcdev := 3 } }
    let seen : State := { wFab with dedup := [{ src := 3, cid := 1, inc := 0, top := 2, marks := [1] }], rcache := [{ src := 3, cid := 1, inc := 0, seq := 1, made := 1000 }] }
    malformed 2 (wPkt 2) = false ∧ malformed 2 { wPkt 2 with good := false } = true ∧ malformed 1 (wPkt 2) = true ∧ (wPkt 2).head.dstdev = wFab.conf.devnum ∧
      (wFab.live 1 0 = true ∧ wFab.live 1 9 = false ∧ (wPkt 2).head.cid ≠ 0) ∧ 102400 < ({ wFab with gts := 200000 } : State).gts.toNat - (wPkt 2).head.gts.toNat ∧
      ((wFab.window_ 3 1 0).below 1 = false ∧ (wFab.window_ 3 1 0).marked 1 = false) ∧ (seen.window_ 3 1 0).marked 1 = true ∧
      ({ src := 3, top := 5000 } : Dedup).below 1 = true ∧ (seen.cached 3 (wPkt 1) 1).isSome = true ∧ wFab.cached 3 (wPkt 1) 1 = none ∧
      ¬4096 < wFab.freshCache.length + (recsOf (wPkt 2)).length ∧
      (far.head.dstdev ≠ wFab.conf.devnum ∧ far.head.rly = false ∧ far.head.rlydev = wFab.conf.devnum ∧ ¬wFab.relayLeft (portDie (wFab.arrPort far)) < 1 + far.head.nflit.toNat ∧
        wFab.pos wFab.conf.devnum = some 0 ∧ wFab.pos 3 = some 17) := by decide +kernel
/-- Its targets: a word and its line in the window, a word outside, an operation, and the bytes of a tile, of an absent tile and of no window. -/
theorem test_meets_FabricArrivals_targets :
    let tile : Pkt := { wPkt 5 with head := { (wPkt 5).head with addr := 0x8000000000000000 } }
    let away : State := { wFab with mem := (wFab.putBytes (memKey 1 0 0x2000) (List.replicate 16 0)).mem }
    (wFab.rawKeys 1 0x100 8 .w).isSome = true ∧ (wFab.rawKeys 1 0x100 8 .r).isSome = true ∧ (wFab.rawKeys 1 0x100 64 .r).isSome = true ∧ wFab.rawKeys 1 0x100000 8 .w = none ∧
      atomOfCode 0 false = some .add ∧ atomOfCode 9 false = none ∧ (wFab.rawKeys 1 0x100 8 .atomic).isSome = true ∧
      ((recsOf (wPkt 3)).map fun m => (m.srcdev, m.seq)).Nodup ∧ (∀ m ∈ recsOf (wPkt 3), (wFab.window_ m.srcdev 1 0).marked m.seq = false) ∧
      (match wFab.reach tile 32 false with | .ok ks u => ks.length == 32 && !u.anyPoison ks | _ => false) = true ∧ (match wFab.reach tile 0 false with | .range => true | _ => false) = true ∧
      (match away.reach tile 32 false with | .busy _ => true | _ => false) = true := by decide +kernel
/-- A store and an atomic of this device that wait for their answers, and answers that find none. -/
theorem test_meets_FabricArrivals_answers :
    let o (kind : BitVec 8) : OReq := { pkt := { wPkt kind with head := { (wPkt kind).head with dstdev := 3, srcdev := 0 } }, held := { cid := 1, act := .rstore 3 0x100 8 } }
    let c : OReq := { pkt := (wPkt 5), held := { cid := 1, act := .cpy {} } }
    let s : State := { wFab with oreqs := [o 2, o 3] }
    s.answered (wPkt 7) [2, 4] = some (o 2) ∧ s.answered (wPkt 8) [3] = some (o 3) ∧ s.answered (wPkt 6) [1, 5] = none ∧ ({ s with oreqs := [c] } : State).answered (wPkt 6) [1, 5] = some c ∧
      (wPkt 7).head.status = 0 ∧ s.live 1 0 = true ∧ s.live 1 9 = false ∧ ((o 3).held.onCore (s.core 0)) = true := by decide +kernel
/-- A request due again, one whose time is over, one whose path has failed; two atomics that combine; and a relayed packet before, in and after its slot. -/
theorem test_meets_FabricRetries :
    let o : OReq := { pkt := { wPkt 2 with head := { (wPkt 2).head with dstdev := 3, srcdev := 0 } }, held := { cid := 1, act := .rstore 3 0x100 8 }, tx := true, path := some (1, none) }
    let s : State := { wFab with oreqs := [o], relay := [wTx 1 true] }
    s.oreqs[0]? = some o ∧ 51200 ≤ ({ s with gts := 60000 } : State).gts.toNat - o.sent.toNat ∧ 103400 ≤ ({ s with gts := 110000 } : State).gts.toNat - o.sent.toNat ∧
      102400 < ({ s with gts := 110000 } : State).gts.toNat - o.start.toNat ∧ (s.port 1).up = true ∧ (s.port 2).up = false ∧ s.pos 9 = none ∧
      (s.plans 0 17 o.pkt ≠ [] ∧ ({ s with ports := [] } : State).plans 0 17 o.pkt = []) ∧
      mayMerge (wTx 1 false) { wTx 1 false with since := 1 } = true ∧ mayMerge (wTx 1 false) (wTx 1 true) = false ∧
      s.relay[0]? = some (wTx 1 true) ∧ s.fits (wTx 1 true) = true ∧ (s.ready 1).head? = some (wTx 1 true) ∧ s.slotNo < (wTx 2 true).slot ∧ (wTx 0 true).slot < s.slotNo := by
  decide +kernel
/-- A send of one packet, a receive that matches a message, and the host's messages from a permitted endpoint. -/
def wUe : UeAddr := { src := 9, job := 4 }
theorem test_meets_DeviceMessages :
    let u : UeOp := { held := { id := 6, core := 0, cid := 1 }, kind := 3, words := [0, 32, 0, 0, 0, 0, 0, 0] }
    let r : Recv := { held := { id := 7, core := 0, cid := 1 }, words := [0, 32, 0, 0, 0, 0, 0, 0] }
    let s : State := { wFab with ueOps := [u], recvs := [r] }
    let p : UePkt := { ue := wUe, total := 32, bytes := List.replicate 32 5 }
    (s.ueOps.find? fun v => v.held.id == 6) = some u ∧ 0 < packets (nLen u.words) ∧ p.off / 4096 < packets (nLen u.words) ∧ p.bytes.length = min 4096 (nLen u.words - p.off) ∧
      nRaw u.words = false ∧ u.held.onCore (s.core 0) = true ∧ s.ueCtx wUe = some 1 ∧ s.ueCtx { wUe with src := 8 } = none ∧ s.matchRecv 1 p = some r ∧
      s.matchRecv 1 { p with tagged := true } = none := by refine ⟨?_, ?_, ?_, ?_, ?_, ?_, ?_, ?_, ?_, ?_⟩ <;> decide +kernel
theorem test_meets_DeviceMessages_host :
    wFab.ueCtx wUe = some 1 ∧ (wFab.rawKeys 1 0x1C0 64 .r).isSome = true ∧ wFab.rawKeys 1 0x100000 64 .r = none ∧ (wFab.queue 8 0).en = false ∧
      (({ wFab with parts := [(8, { wFab.part 8 with q := [(0, { en := true })] })] } : State).queue 8 0).en = true ∧ (wFab.jobPart 4).isSome = true ∧
      wFab.conf.xmssLeaf < 2 ^ 20 ∧ wFab.conf.egress ≠ 0 ∧ wFab.permits 0 9 = true ∧ wFab.permits 0 8 = false := by decide +kernel
/-- A waiting launch of one task, a core it may be placed on, its started, ended and drained states, and a queued child. -/
def wLaunch : Launch := { cid := 1, teams := [{}] }
def wLau : State :=
  { cores := [(1, { task := some { cid := 1 } }), (2, { task := some { cid := 1, ended := true } })]
    ctxs := [(1, { st := .live, used := true, pid := 8, cqn := 4, wins := [(0, 0x100F)], cq := [{ held := { id := 3, cid := 1, act := .spawn 0x100 false } }], cqTail := 1 })]
    parts := [(8, { used := true, hbm := 1, segn := 1, maxctx := 2, podx := 1, budget := 10 })]
    launches := [(0, some wLaunch)], nextLaunch := 1, pstate := .running, gts := 3000000 }
theorem test_meets_LaunchEvents :
    (wLau.poolFree 0 ≠ 0) ∧ wLau.mayPlace wLaunch = true ∧ wLau.placeOf 0 wLaunch {} = some [0] ∧ (wLau.candidates 0).length = 1 ∧
      ((wLau.ctx 1).cqTail - (wLau.ctx 1).cqHead < 2 ^ (wLau.ctx 1).cqn) ∧ wLaunch.waiting = true ∧ (wLau.core 1).task = some { cid := 1 } ∧ wLau.coreBusy 2 1 0 = false ∧
      (wLau.core 2).task = some { cid := 1, ended := true } ∧ wLau.hasChildren 1 = false ∧ (wLau.window.toNat + 10000000 ≤ ({ wLau with gts := 10000000 } : State).gts.toNat) := by
  refine ⟨?_, ?_, ?_, ?_, ?_, ?_, ?_, ?_, ?_, ?_, ?_⟩ <;> decide +kernel
/-- A SPAWN in the pending-spawn slot, which may leave it, for the pool. -/
theorem test_meets_LaunchEvents_spawn :
    let h : Held := { id := 3, cid := 1, core := 2, act := .spawn 0x100 false }
    let s : State := { wLau with cores := [(2, { task := some { cid := 1 }, spawnSlot := some h })] }
    let u := s.modCore 2 fun c => { c with spawnSlot := none }
    (s.core 2).spawnSlot = some h ∧ h.core = 2 ∧ isSup 2 = false ∧ s.live 1 0 = true ∧ s.live 1 9 = false ∧ u.heldReady h = true ∧
      ({ s with ctxs := [(1, { s.ctx 1 with cq := [] })] } : State).poolFree 0 > 32 ∧ wLau.syncOn 0 = true ∧ wLau.routerOn 0 = true := by
  refine ⟨?_, ?_, ?_, ?_, ?_, ?_, ?_, ?_, ?_⟩ <;> decide +kernel
theorem test_meets_LaunchEvents_phaser : (wPh 4 3).ready ((wPhDev {} 4 3).waitsFor 3) = true ∧ (wPhDev {} 4 3).live 1 0 = true ∧ (wPhDev {} 4 3).syncOn 0 = true ∧
    (wPh 3 3).ready ((wPhDev {} 3 3).waitsFor 3) = false := by refine ⟨?_, ?_, ?_, ?_⟩ <;> decide +kernel

/-! ### The cut, lists, power and steps -/

theorem test_meets_CutEvents :
    let s := wLau
    let u : State := { s with ctxs := [(1, { s.ctx 1 with stop := some { accepted := true, cut := 2 ^ 48, k := 2 ^ 48 } })] }
    let v : State := { s with ctxs := [(1, { s.ctx 1 with stop := some { k := 5 } })] }
    (s.ctx 1).st = .live ∧ s.openLaunches 1 ≠ [] ∧ (s.ctx 1).stop = none ∧ ((u.ctx 1).stop.map (·.accepted)) = some true ∧ (u.ctx 1).horiz.toNat ≤ 2 ^ 48 ∧
      ((v.ctx 1).stop.map (·.accepted)) = some false := by refine ⟨?_, ?_, ?_, ?_, ?_, ?_⟩ <;> decide +kernel
theorem test_meets_CutEvents_cores : CoresInv (wDev {}) := by unfold CoresInv; decide +kernel
theorem test_meets_CutEvents_watch :
    let s := wDev { cutw := 5, acc := { waitsStop := true, ring := { size := 1, tail := 1 } } }
    isSup 0 = false ∧ (s.core 0).cutw ≠ BitVec.allOnes 64 ∧ ((s.core 0).eng .acc).waitsStop = true ∧ (s.core 0).unretired false .acc = true ∧ (s.core 0).idle + 2 ^ (s.core 0).hangt ≤ 2 ^ 30 := by
  decide +kernel
theorem test_meets_CutEvents_fence :
    let f : Fence := { cid := 1, inc := 0, asked := true }
    let s : State := { ({} : State) with fences := [f], gts := 103400, slices := [{ pods := 1, ents := [(8, 1), (9, 1)] }], pstate := .running }
    (s.fences.find? fun f => f.cid == 1 && f.inc == 0) = some f ∧ f.left.toNat + 103400 ≤ s.gts.toNat ∧ s.holds 1 0 = false ∧ s.slices[0]? = some { pods := 1, ents := [(8, 1), (9, 1)] } ∧
      s.hasWork 8 = false ∧ s.onPods 8 1 = [] := by decide +kernel
/-- A list of context 1 in queue 0 of partition 8, its interpreter at 0x200, where memory holds an entry NOTE. -/
def wList (w : IWait) : State :=
  let s : State := { wDev {} with curQ := (8, 0), parts := [(8, { used := true, hbm := 1, segn := 1, maxctx := 2, q := [(0, { en := true, cur := some { lst := { addr := 0x200, cid := 1 }, pc := 0x200, wait := w } })] })] }
  { s with mem := (s.putBytes (memKey 1 0 0x200) (leBytes (packCL 12 ⟨0, 5, 0, 0, 0, 0, 0, 0⟩).toNat 64)).mem, sched := [{ who := .list 8 0 }] }
theorem test_meets_ListEntries :
    (wList .none).interp = some { lst := { addr := 0x200, cid := 1 }, pc := 0x200 } ∧ (match (wList .none).ldesc 1 0x100000 with | .inr _ => true | .inl _ => false) = true ∧
      ((wList .none).rawKeys 1 0x200 8 .r).isSome = true ∧ ((wList .none).rawKeys 1 0x200 8 .w).isSome = true ∧ (wList .none).rawKeys 1 0x100000 8 .r = none := by decide +kernel
theorem test_meets_ListEntries_wait :
    let w : IWait := .waitv 0x100 0 5 0xFF (some 7) 0 4
    (wList w).interp.map (·.wait) = some w ∧ ({ wList w with gts := 7 } : State).gts.ult 7 = false ∧ (wList w).gts.ult 7 = true ∧ ¬(7 : Word).toNat ≤ (wList w).gts.toNat := by
  decide +kernel
/-- A frozen device whose test port is open; an island that steps down, one that may step up, one to hold and one to let go. -/
theorem test_meets_PowerEvents :
    let s : State := { pstate := .frozen, conf := { debugen := true, dbg := true, thermlim := 100, modpwr := 1000 } }
    (s.conf.debugen = true ∧ s.conf.dbg = true) ∧ s.pstate = .frozen ∧ s.conf.thermlim < (101 : Nat) ∧ ¬(200 < 0 ∨ s.conf.thermlim < 90 ∨ s.conf.modpwr < 0) ∧ s.conf.thermlim + 10 ≤ (110 : Nat) ∧
      ((wDev {}).core 0).halted = false ∧ (({ readOk := false } : BootInput).readOk = false) := by decide +kernel
/-- A configuration record of revision 1 with a thermal limit of 100 °C and 1000 W, valid when its signature is. -/
theorem test_meets_PowerEvents_record :
    recordOk (leBytes (0x4643584E + 2 ^ 32 + 45 * 2 ^ 48 + 1000 * 2 ^ 128 + 100 * 2 ^ 152) 32) = true := by decide +kernel
/-- A word that decodes, one of another engine, one with a reserved bit, one of the supervisor core, and one of a profile that the core lacks. -/
theorem test_meets_DecodeTests :
    let s := wDev {}
    let u : State := { s with cores := [(0, { task := some { wTask with desc := { prof := 1 } } })] }
    (match s.decodeOn 0 .cc 0 with | .inl _ => true | .inr _ => false) = true ∧ decodes .cc 0x41 = false ∧ decodes .exe 0x41 = true ∧ (s.core 0).hasProfile 0x41 = true ∧
      (u.core 0).hasProfile 0x62 = false ∧ decodes .mtx 0x62 = true ∧ ((s.core 0).eng .cc).guardBad 0 = false := by refine ⟨?_, ?_, ?_, ?_, ?_, ?_, ?_⟩ <;> decide +kernel
theorem test_meets_StepRunsDecoded :
    let u : State := { wDev { fetched := [(0, 0)] } with sched := [{ who := .core 0 .cc }] }
    u.mayAct 0 .cc = true ∧ (u.waitRetire 0 .cc).isNone = true ∧ (u.core 0).fetched = ((u.core 0).pc, 0) :: [] ∧ ((u.core 0).eng .cc).park = none ∧
      (match u.decodeOn 0 .cc 0 with | .inl _ => true | .inr _ => false) = true ∧
      (let v := wDev { pc := 0x40 }
       (match v.coreKeys 0 0x40 8 .x with | .inl ks => !v.anyPoison ks | .inr _ => false) = true ∧ 4 ≤ icFind (v.core 0).icache 0x40 ∧
         (match (wDev { pc := 0x100000 }).coreKeys 0 0x100000 8 .x with | .inl _ => false | .inr _ => true) = true) ∧
      (let v := wDev { exe := { ring := { size := 6, tail := 1 } } }
       (v.core 0).exe.ring.head ≠ (v.core 0).exe.ring.tail ∧ (match v.decodeOn 0 .exe ((v.core 0).ringWord .exe 0) with | .inl _ => true | .inr _ => false) = true) ∧
      ((wMtx 0).core 0).mtxReadies.head? = some 0 ∧ (wList .none).pstate.admits (.classAging 0) = true := by
  refine ⟨?_, ?_, ?_, ?_, ?_, ⟨?_, ?_, ?_⟩, ⟨?_, ?_⟩, ?_, ?_⟩ <;> decide +kernel
theorem test_meets_MemoryStaysCanonical : MemInv (wDev {}) := by unfold MemInv; decide +kernel
theorem test_meets_MemoryStaysCanonical_cores : CoresInv (wDev {}) := by unfold CoresInv; decide +kernel
theorem test_meets_DecodeEncode : (Instr.add ⟨1, 2⟩ { d := 63, a := 63, la := false, b := 63, lb := false, c := 0, lc := false, lat := 0, q := 0 }).check = none := by decide +kernel

/-! ### More words of the spec (Tables 13.21, 15.10, 19.10, 20.x and chapter 4), and reserved bits that are refused -/

theorem test_word_tend : decodeFor .cc 0x0100270000000000 = .ok (.tend ⟨1, 0⟩ { d := 0, a := 0, la := false, sel := 0, imm := 0 }) := by decide +kernel
theorem test_word_stt : decodeFor .acc 0x000131004690000A = .ok (.stt ⟨0, 1⟩ { tid := 1, g := 6, x := 36, l := false, lat := 0, q := 10 }) := by decide +kernel
theorem test_word_nsend : decodeFor .net 0x0000780C02000000 = .ok (.nsend ⟨0, 0⟩ { d := 3, a := 0, la := false, sel := 0x200, imm := 0 }) := by decide +kernel
theorem test_word_ctxnew : decodeFor .cc 0x0000280050000000 = .ok (.ctxnew ⟨0, 0⟩ { d := 0, a := 5, la := false, sel := 0, imm := 0 }) := by decide +kernel
theorem test_entry_waitv : decodeEntry (packCL 2 ⟨0, 0x4000001000, 0, 0xFFFFFFFFFFFFFFFF, 1, 0, 0, 0⟩) = .ok (.waitv ⟨0, 0x4000001000, 0, 0xFFFFFFFFFFFFFFFF, 1, 0, 0, 0⟩) := by
  decide +kernel
theorem test_otherEngine : decodeFor .acc 0x000040A218400039 = .error .mismatch := by decide +kernel
theorem test_reservedBit : decodeFor .exe 0x000040A218404039 = .error (.illegal .modifier) := by decide +kernel
theorem test_tableWord : decodeTableWord 64 0x0000271400000000 = none ∧ decodeTableWord 64 0x0000680302000002 =
    some (.mdq ⟨0, 0⟩ { cmd := 3, p1 := 2, p2 := 0, nest := 0, acc := 0, q := 2 }) := by decide +kernel

/-! ### Single steps -/

/-- The state after an instruction. -/
def wNext (i : Instr) (s : State) : State := match exec i s with | .next t => t | _ => s
def wRR (d a b : BitVec 6) : RR := { d := d, a := a, la := false, b := b, lb := false, c := 0, lc := false, lat := 0, q := 0 }
/-- R325: the sum wraps; the pc moves on by 8. -/
theorem test_step_add : let t := wNext (.add ⟨0, 0⟩ (wRR 3 1 2)) (wDev (wRegs [0xFFFFFFFFFFFFFFFF, 2])); t.me.s.get 0 3 = 1 ∧ t.me.pc = 8 := by decide +kernel
/-- R325: the source is also the destination. -/
theorem test_step_sub : (wNext (.sub ⟨0, 0⟩ (wRR 1 1 2)) (wDev (wRegs [2, 5]))).me.s.get 0 1 = 0xFFFFFFFFFFFFFFFD := by decide +kernel
/-- R326: division by zero gives all ones and sets DIVZERO. -/
theorem test_step_div : let t := wNext (.div ⟨0, 0⟩ (wRR 3 1 2)) (wDev (wRegs [7])); t.me.s.get 0 3 = 0xFFFFFFFFFFFFFFFF ∧ t.me.flags ≠ 0 := by decide +kernel
/-- R299, R325: s0 discards what is written. -/
theorem test_step_zero : (wNext (.add ⟨0, 0⟩ (wRR 0 1 1)) (wDev (wRegs [7]))).me.s.get 0 0 = 0 := by decide +kernel
/-- R131, R254: a store below the horizon of a supervisor core leaves for its home, and reaches memory there, least significant byte first. -/
theorem test_step_home : let t := wNext (.performedAtHome 7) wHome; t.byte (memKey 3 0 0x100) = 5 ∧ t.byte (memKey 3 0 0x101) = 0 ∧ t.flying = [] := by decide +kernel
/-- R324: ILL raises ILLEGAL, code 1, with restart "before": the control core of a task parks with that record. -/
theorem test_step_ill : ((wNext (.ill 0x7F0000000000) (wDev {})).me.cc.park.map fun p => (p.frec.code, p.before)) = some (0x01, true) := by decide +kernel
/-- R299: the first step after a placed NOP of the control core moves its pc on. -/
theorem test_step_placed : (match step (State.reset.withFetchWord 64 0) with | .next t => (t.core 0).pc == 8 | _ => false) = true := by decide +kernel
theorem test_reset : State.reset.mem = [] ∧ State.reset.pstate = .reset ∧ Memory.wf State.reset.mem = true ∧ (State.reset.port 0).ctl = 0xFF5 := by decide +kernel
end

section
/-! PROOFS of the launch processors' statement (O49): what their events do, from the acceptance of a SPAWN to the release of a phaser. -/

namespace Sys2Proof.Machine

/-! ### What `exec` runs for each event -/

theorem exec_childQueueMove (die k : Nat) (s : State) : exec (.childQueueMove die k) s = execChildQueueMove die k s := by rfl
theorem exec_pendingSpawnAppend (n : Nat) (s : State) : exec (.pendingSpawnAppend n) s = execPendingSpawnAppend n s := by rfl
theorem exec_teamPlace (die : Nat) (s : State) : exec (.teamPlace die) s = execTeamPlace die s := by rfl
theorem exec_teamMigrate (team die : Nat) (s : State) : exec (.teamMigrate team die) s = execTeamMigrate team die s := by rfl
theorem exec_teamMigrationArrival (team : Nat) (s : State) : exec (.teamMigrationArrival team) s = execTeamMigrationArrival team s := by rfl
theorem exec_classAging (team : Nat) (s : State) : exec (.classAging team) s = execClassAging team s := by rfl
theorem exec_taskStart (n : Nat) (s : State) : exec (.taskStart n) s = execTaskStart n s := by rfl
theorem exec_coreReturn (n : Nat) (s : State) : exec (.coreReturn n) s = execCoreReturn n s := by rfl
theorem exec_launchComplete (k : Nat) (s : State) : exec (.launchComplete k) s = execLaunchComplete k s := by rfl
theorem exec_deficitWindow (s : State) : exec .deficitWindow s = execDeficitWindow s := by rfl
theorem exec_phaserRelease (k : Nat) (s : State) : exec (.phaserRelease k) s = execPhaserRelease k s := by rfl

/-- A test that holds an event back: what the event answers when nothing does, and when something does. -/
theorem if_guard {b : Bool} {p : Prop} (h : b = false ↔ p) (x y : Result) : (p → (if b then x else y) = y) ∧ (¬p → (if b then x else y) = x) :=
  ⟨fun hp => if_neg (ne_true_of_eq_false (h.mpr hp)), fun hp => if_pos (Bool.of_not_eq_false fun hb => hp (h.mp hb))⟩

/-! ### Memory written through stage two -/

theorem State.gpaPut_mem_only (s : State) (cid : BitVec 12) (gpa n v : Nat) : ∃ m, s.gpaPut cid gpa n v = { s with mem := m } := by
  unfold State.gpaPut
  split
  · exact s.putCells_mem_only _
  · exact ⟨s.mem, rfl⟩

theorem State.gpaPut_three_mem_only (s : State) (cid : BitVec 12) (a b c u v w : Nat) :
    ∃ m, ((s.gpaPut cid a 8 u).gpaPut cid b 8 v).gpaPut cid c 8 w = { s with mem := m } := by
  obtain ⟨m₁, h₁⟩ := s.gpaPut_mem_only cid a 8 u
  obtain ⟨m₂, h₂⟩ := State.gpaPut_mem_only { s with mem := m₁ } cid b 8 v
  rw [h₁, h₂]
  exact State.gpaPut_mem_only { s with mem := m₂ } cid c 8 w
theorem State.returnPool_mem_only {s t : State} {cid : BitVec 12} {p x : Nat} (h : s.returnPool cid p x = some t) : ∃ m, t = { s with mem := m } := by
  unfold State.returnPool at h
  dsimp only at h
  generalize s.poolEnt cid p = q at h
  split at h
  · cases h
  · rw [← Option.some.inj h]
    exact s.gpaPut_three_mem_only cid _ _ _ _ _ _

/-- What two optional returns to a pool, one after the other, may leave. -/
theorem State.returns_mem_only {s t : State} {cid : BitVec 12} {a b : Bool} {p x q y : Nat}
    (h : ((if a then s.returnPool cid p x else some s).bind fun u => if b then u.returnPool cid q y else some u) = some t) :
    ∃ m, t = { s with mem := m } := by
  obtain ⟨u, hu, ht⟩ := Option.bind_eq_some_iff.mp h
  have hus : ∃ m, u = { s with mem := m } := by
    split at hu
    · exact State.returnPool_mem_only hu
    · cases hu; exact ⟨s.mem, rfl⟩
  obtain ⟨m, rfl⟩ := hus
  split at ht
  · obtain ⟨m', rfl⟩ := State.returnPool_mem_only ht; exact ⟨m', rfl⟩
  · cases ht; exact ⟨m, rfl⟩

theorem State.quarRelease_mem_only (s : State) (cid : BitVec 12) (n : Nat) : ∃ m, s.quarRelease cid n = { s with mem := m } := by
  induction n generalizing s with
  | zero => exact ⟨s.mem, rfl⟩
  | succ n ih =>
    simp only [State.quarRelease]
    split
    · exact ⟨s.mem, rfl⟩
    split
    · exact ⟨s.mem, rfl⟩
    split
    · exact ⟨s.mem, rfl⟩
    · rename_i t ht
      obtain ⟨m₁, rfl⟩ := State.returns_mem_only ht
      obtain ⟨m₂, h₂⟩ := State.gpaPut_mem_only { s with mem := m₁ } cid (State.qCtl { s with mem := m₁ } cid + 8) 8 (s.qOut cid + 1)
      rw [h₂]
      exact ih _

theorem State.event_ueq_only (s : State) (ev : BitVec 8) (pid : BitVec 7) (cid : BitVec 12) (inc : BitVec 10) (q : Nat) (a b : Word) :
    ∃ u, s.event ev pid cid inc q a b = { s with ueq := u } := by
  simp only [State.event, State.send, State.sendTx]
  split
  · exact ⟨s.ueq, rfl⟩
  · exact ⟨_, rfl⟩

/-! ### Launches and their teams -/

theorem State.launch_eq {s : State} {k : Nat} {l : Launch} (h : s.launches.get none k = some l) : s.launch k = l := by
  rw [State.launch, h, Option.getD_some]
theorem State.launches_modLaunch_self {s : State} {k : Nat} {l : Launch} (h : s.launches.get none k = some l) (f : Launch → Launch) :
    (s.modLaunch k f).launches.get none k = some (f l) := by
  rw [State.modLaunch, SMap.get_modify_self, h, Option.map_some]
@[simp] theorem Launch.team_setTeam (l : Launch) (t : Team) : (l.setTeam t).team t.idx = t := by
  have h : (l.teams.filter fun u => u.idx != t.idx).find? (fun u => u.idx == t.idx) = none := by
    simp [List.find?_eq_none]
  simp [Launch.team, Launch.setTeam, List.find?_append, h]

/-! ### Seats of a team -/

theorem Team.seats_congr {a b : Team} (h : a.ended = b.ended) (i f : Nat) (ns : List Nat) : a.seats i f ns = b.seats i f ns := by
  induction f generalizing i ns with
  | zero => rfl
  | succ f ih => cases ns <;> simp only [Team.seats, h, ih]
theorem Team.mem_of_mem_seats {t : Team} {n i f : Nat} {ns : List Nat} (h : n ∈ t.seats i f ns) (hn : n ≠ noCore) : n ∈ ns := by
  induction f generalizing i ns with
  | zero => simp [Team.seats] at h
  | succ f ih =>
    cases ns with
    | nil =>
      have : n ∈ noCore :: t.seats (i + 1) f [] := by simpa only [Team.seats, ite_self] using h
      exact ih ((List.mem_cons.mp this).resolve_left hn)
    | cons m ns =>
      simp only [Team.seats] at h
      split at h
      · exact ih ((List.mem_cons.mp h).resolve_left hn)
      · exact List.mem_cons.mpr ((List.mem_cons.mp h).imp id ih)
/-- No core is taken by two tile tasks of a team. -/
theorem Team.seats_pairwise (t : Team) (i f : Nat) {ns : List Nat} (h : ns.Nodup) : (t.seats i f ns).Pairwise fun a b => a ≠ noCore → a ≠ b := by
  have skip {l : List Nat} (hl : l.Pairwise fun a b => a ≠ noCore → a ≠ b) : (noCore :: l).Pairwise fun a b => a ≠ noCore → a ≠ b :=
    List.pairwise_cons.mpr ⟨fun _ _ hn => absurd rfl hn, hl⟩
  induction f generalizing i ns with
  | zero => simp [Team.seats]
  | succ f ih =>
    cases ns with
    | nil => simpa only [Team.seats, ite_self] using skip (ih (i + 1) h)
    | cons m ns =>
      obtain ⟨hm, hns⟩ := List.nodup_cons.mp h
      simp only [Team.seats]
      split
      · exact skip (ih _ h)
      · exact List.pairwise_cons.mpr ⟨fun a ha hn e => hm (Team.mem_of_mem_seats (e ▸ ha) hn), ih _ hns⟩

/-! ### Locked lines and loaded cores -/

theorem State.lockLine_icache (s : State) (n a : Nat) :
    CoreOnly s (s.lockLine n a) n ∧ ∃ m, (s.lockLine n a).core n = { s.core n with icache := m } := by
  unfold State.lockLine
  dsimp only
  split
  · exact ⟨.refl s n, _, rfl⟩
  split
  · exact ⟨.refl s n, _, rfl⟩
  · exact ⟨.modCore s n _, _, State.core_modCore_self ..⟩
theorem State.lockLines_icache (s : State) (n a k : Nat) :
    CoreOnly s (s.lockLines n a k) n ∧ ∃ m, (s.lockLines n a k).core n = { s.core n with icache := m } := by
  induction k generalizing s a with
  | zero => exact ⟨.refl s n, _, rfl⟩
  | succ k ih =>
    obtain ⟨o₁, m₁, h₁⟩ := s.lockLine_icache n a
    obtain ⟨o₂, m₂, h₂⟩ := ih (s.lockLine n a) (a + 64)
    exact ⟨o₁.trans o₂, m₂, by rw [State.lockLines, h₂, h₁]⟩
theorem State.relock_icache (s : State) (n : Nat) (rs : List LockRange) :
    CoreOnly s (s.relock n rs) n ∧ ∃ m, (s.relock n rs).core n = { s.core n with icache := m } := by
  induction rs generalizing s with
  | nil => exact ⟨.refl s n, _, rfl⟩
  | cons r rs ih =>
    obtain ⟨o₁, m₁, h₁⟩ := s.lockLines_icache n r.addr r.lines
    obtain ⟨o₂, m₂, h₂⟩ := ih (s.lockLines n r.addr r.lines)
    exact ⟨o₁.trans o₂, m₂, by rw [State.relock, h₂, h₁]⟩

/-- What stands on the core of tile task `i` of a team once it is placed: the task, to start anew or to go on from its image (R105, R147). -/
def Sits (k : Nat) (l : Launch) (m : Team) (i : Nat) (c : Core) : Prop :=
  ((m.saved.find? fun x => x.1 == i) = none → c.task = some (l.task k m i)) ∧
    ∀ j img, (m.saved.find? fun x => x.1 == i) = some (i, j, img) →
      c.s = img.s ∧ c.v = img.v ∧ c.pc = img.pc ∧ c.spad = img.spad ∧ ∃ x, c.task = some x ∧ x.cid = l.cid ∧ x.launch = k ∧ x.started = false
/-- One step of `State.assign`: tile task `i` of a team takes core `n`. -/
def State.seat (s : State) (k : Nat) (l : Launch) (m : Team) (n i : Nat) : State :=
  if n == noCore then s else
    match m.saved.find? fun x => x.1 == i with
    | some (_, _, img) => s.loadCore n (l.task k m i) img
    | none => s.modCore n fun c => { c with task := some (l.task k m i) }
theorem State.assign_cons (s : State) (k : Nat) (l : Launch) (m : Team) (n : Nat) (ns : List Nat) (i : Nat) :
    s.assign k l m (n :: ns) i = (s.seat k l m n i).assign k l m ns (i + 1) := rfl

theorem State.loadCore_only (s : State) (n : Nat) (t : Task) (img : Core) : CoreOnly s (s.loadCore n t img) n :=
  (CoreOnly.setCore s n _).trans (State.relock_icache _ n _).1
theorem State.seat_only (s : State) (k : Nat) (l : Launch) (m : Team) (n i : Nat) : CoreOnly s (s.seat k l m n i) n := by
  unfold State.seat
  split
  · exact .refl s n
  split
  · exact s.loadCore_only n _ _
  · exact .modCore s n _
theorem State.seat_sits (s : State) (k : Nat) (l : Launch) (m : Team) {n : Nat} (i : Nat) (hn : n ≠ noCore) :
    Sits k l m i ((s.seat k l m n i).core n) := by
  have hb : (n == noCore) = false := by simpa using hn
  unfold State.seat
  rw [hb]
  cases hf : m.saved.find? fun x => x.1 == i with
  | none => exact ⟨fun _ => by simp, fun j img h => by rw [hf] at h; cases h⟩
  | some x =>
    refine ⟨fun h => by (rw [hf] at h; cases h), fun j img h => ?_⟩
    obtain rfl := Option.some.inj (hf.symm.trans h)
    simp only [Bool.false_eq_true, if_false, State.loadCore]
    obtain ⟨-, c, hc⟩ := State.relock_icache (s.setCore n _) n img.locks
    rw [hc, State.core_setCore_self]
    exact ⟨rfl, rfl, rfl, rfl, _, rfl, rfl, rfl, rfl⟩

theorem State.assign_launches (s : State) (k : Nat) (l : Launch) (m : Team) (ns : List Nat) (i : Nat) :
    (s.assign k l m ns i).launches = s.launches := by
  induction ns generalizing s i with
  | nil => rfl
  | cons x xs ih => rw [State.assign_cons, ih, (s.seat_only k l m x i).1]
theorem State.assign_core_ne (s : State) (k : Nat) (l : Launch) (m : Team) (ns : List Nat) (i : Nat) {n : Nat} (hn : n = noCore ∨ n ∉ ns) :
    (s.assign k l m ns i).core n = s.core n := by
  induction ns generalizing s i with
  | nil => rfl
  | cons x xs ih =>
    rw [State.assign_cons, ih _ _ (hn.imp id fun h hx => h (List.mem_cons_of_mem _ hx))]
    by_cases e : n = x
    · subst e
      obtain rfl := hn.resolve_right (not_not.mpr (List.mem_cons_self ..))
      rfl
    · exact (s.seat_only k l m x i).2 n e
/-- Each tile task of a team sits on its own core. -/
theorem State.assign_sits (s : State) (k : Nat) (l : Launch) (m : Team) {ns : List Nat} (i j : Nat) {n : Nat}
    (hp : ns.Pairwise fun a b => a ≠ noCore → a ≠ b) (hj : ns[j]? = some n) (hn : n ≠ noCore) :
    Sits k l m (i + j) ((s.assign k l m ns i).core n) := by
  induction ns generalizing s i j with
  | nil => simp at hj
  | cons x xs ih =>
    obtain ⟨hx, hxs⟩ := List.pairwise_cons.mp hp
    rw [State.assign_cons]
    cases j with
    | zero =>
      obtain rfl : x = n := by simpa using hj
      rw [State.assign_core_ne _ _ _ _ _ _ (.inr fun h => hx x h hn rfl)]
      exact s.seat_sits k l m i hn
    | succ j =>
      have := ih (s.seat k l m x i) (i + 1) j hxs (by simpa using hj)
      rwa [show i + 1 + j = i + (j + 1) by omega] at this

/-! ### Placement of a team (R121) -/

/-- A team as it stands once placed on `cs`, and its launch with it: what `State.placeTeam` assigns to the cores. -/
def Team.placedOn (m : Team) (l : Launch) (cs : List Nat) : Team :=
  { m with st := .placed, cores := m.seats 0 l.desc.tasks cs, die := (cs.headD 0) / 64, reserved := none }
def Launch.placing (l : Launch) (m : Team) (cs : List Nat) : Launch :=
  { l.setTeam (m.placedOn l cs) with st := if l.st == .ready then .running else l.st, next := Nat.max l.next (m.idx + 1) }
theorem State.placeTeam_eq_assign (s : State) (k : Nat) (l : Launch) (m : Team) (cs : List Nat) :
    ∃ u : State, u.cores = s.cores ∧
      u.launches = s.launches.set none k (some { l.placing m cs with teams := (l.setTeam { m.placedOn l cs with saved := [] }).teams }) ∧
      s.placeTeam k l m cs = u.assign k (l.placing m cs) (m.placedOn l cs) (m.seats 0 l.desc.tasks cs) 0 := by
  refine ⟨_, ?_, ?_, rfl⟩ <;> rfl
theorem State.placeTeam_team (s : State) (k : Nat) (l : Launch) (m : Team) (cs : List Nat) :
    ((s.placeTeam k l m cs).launch k).team m.idx = { m.placedOn l cs with saved := [] } := by
  obtain ⟨u, -, hl, h⟩ := s.placeTeam_eq_assign k l m cs
  rw [h, State.launch, State.assign_launches, hl, SMap.get_set_self]
  exact Launch.team_setTeam l { m.placedOn l cs with saved := [] }
theorem State.placeTeam_core_ne (s : State) (k : Nat) (l : Launch) (m : Team) {cs : List Nat} {n : Nat} (hn : n ∉ cs) :
    (s.placeTeam k l m cs).core n = s.core n := by
  obtain ⟨u, hc, -, h⟩ := s.placeTeam_eq_assign k l m cs
  rw [h, State.assign_core_ne _ _ _ _ _ _ ((Classical.em (n = noCore)).imp id fun hk hm => hn (Team.mem_of_mem_seats hm hk)), State.core, hc]
  rfl
theorem State.placeTeam_sits (s : State) (k : Nat) (l : Launch) (m : Team) {cs : List Nat} (hcs : cs.Nodup) {i n : Nat}
    (hi : (m.seats 0 l.desc.tasks cs)[i]? = some n) (hn : n ≠ noCore) : Sits k l m i ((s.placeTeam k l m cs).core n) := by
  obtain ⟨u, -, -, h⟩ := s.placeTeam_eq_assign k l m cs
  have hs := u.assign_sits k (l.placing m cs) (m.placedOn l cs) 0 i (m.seats_pairwise 0 l.desc.tasks hcs) hi hn
  rw [← h, Nat.zero_add] at hs
  exact hs
/-- R121: the tile tasks of a team that is placed stand on its cores. -/
theorem State.placeTeam_seated (s : State) (k : Nat) (l : Launch) (m : Team) {cs : List Nat} (hcs : cs.Nodup) :
    Seated (s.placeTeam k l m cs) k l m cs := by
  have hm := s.placeTeam_team k l m cs
  refine ⟨by rw [hm]; rfl, by rw [hm]; rfl, fun i n _ hget hn => ?_⟩
  refine s.placeTeam_sits k l m hcs ?_ hn
  rw [List.getD_eq_getElem?_getD] at hget
  cases h : (m.seats 0 l.desc.tasks cs)[i]? with
  | none => rw [h] at hget; exact absurd hget.symm hn
  | some x => rw [h] at hget; exact congrArg some hget
/-- `Seated` asks for no more of a team than its number, which of its tasks have ended and the images of the others. -/
theorem Seated.congr {t : State} {k : Nat} {l l' : Launch} {m m' : Team} {cs : List Nat} (hs : Seated t k l' m' cs) (hi : m'.idx = m.idx)
    (he : m'.ended = m.ended) (hv : m'.saved = m.saved) (hl : l'.cid = l.cid) (hd : l'.desc = l.desc) (ht : ∀ i, l'.task k m' i = l.task k m i) :
    Seated t k l m cs := by
  unfold Seated at hs ⊢
  rw [hi, hv, hl, hd, Team.seats_congr he] at hs
  simp only [ht] at hs
  exact hs

/-! ### Where a team would be placed (R121) -/

/-- A fold that keeps what it has or takes what it meets ends with one of them. -/
theorem foldl_pick {α : Type} (g : Option α → α → Option α) (hg : ∀ m x y, g m x = some y → y = x ∨ m = some y)
    (xs : List α) (m : Option α) {y : α} (h : xs.foldl g m = some y) : y ∈ xs ∨ m = some y := by
  induction xs generalizing m with
  | nil => exact .inr h
  | cons x xs ih =>
    rcases ih _ h with h | h
    · exact .inl (List.mem_cons_of_mem _ h)
    · exact (hg m x y h).imp (fun (e : y = x) => e ▸ List.mem_cons_self ..) id
theorem State.pickPod_fits {s : State} {pods : BitVec 32} {shut : List Nat} {tasks die p : Nat} (h : s.pickPod pods shut tasks die = some p) :
    tasks ≤ (s.freeCores p).length := by
  unfold State.pickPod at h
  refine (foldl_pick _ (fun m x y hy => ?_) _ _ h).elim (fun hp => ?_) nofun
  · cases m with
    | none => exact .inl (Option.some.inj hy).symm
    | some q =>
      have hq := Option.some.inj hy
      split at hq
      · exact .inl hq.symm
      · exact .inr (congrArg some hq)
  · simp only [List.mem_filter, Bool.and_eq_true, decide_eq_true_eq] at hp
    obtain ⟨-, -, hp⟩ := hp
    exact hp
theorem State.mem_freeCores {s : State} {pod n : Nat} (h : n ∈ s.freeCores pod) : n / 8 = pod ∧ (s.core n).task = none := by
  simp only [State.freeCores, List.mem_filter, List.mem_map, List.mem_range, Option.isNone_iff_eq_none] at h
  obtain ⟨⟨i, hi, rfl⟩, ht⟩ := h
  exact ⟨by omega, ht⟩
theorem State.freeCores_pairwise (s : State) (pod : Nat) : (s.freeCores pod).Pairwise (· < ·) :=
  .filter _ (List.pairwise_map.mpr (List.pairwise_lt_range.imp fun h => by omega))
theorem State.placeOf_freeCores {s : State} {k : Nat} {l : Launch} {m : Team} {cs : List Nat} (hm : m.pin = false) (h : s.placeOf k l m = some cs) :
    ∃ pod, l.desc.tasks - m.ended.length ≤ (s.freeCores pod).length ∧ cs = (s.freeCores pod).take (l.desc.tasks - m.ended.length) := by
  simp only [State.placeOf, hm, Bool.false_eq_true, if_false] at h
  obtain ⟨d, -, hd⟩ := List.exists_of_findSome?_eq_some h
  obtain ⟨pod, hp, rfl⟩ := Option.map_eq_some_iff.mp hd
  exact ⟨pod, State.pickPod_fits hp, rfl⟩

/-! ### The start of a tile task (R105) -/

theorem get_putSpad (m : SMap Byte) (a x : Nat) (bs : List Byte) :
    (putSpad m a bs).get 0 x = if a ≤ x ∧ x < a + bs.length then bs.getD (x - a) 0 else m.get 0 x := by
  induction bs generalizing m a with
  | nil => simp [putSpad]
  | cons b bs ih =>
    rw [putSpad, ih, SMap.get_set]
    by_cases h : x = a
    · subst h; simp
    · by_cases hx : a + 1 ≤ x ∧ x < a + 1 + bs.length
      · rw [if_pos hx, if_pos (by simp; omega), show x - a = x - (a + 1) + 1 by omega, List.getD_cons_succ]
      · rw [if_neg hx, if_neg h, if_neg (by simp; omega)]
theorem get_putSpad_zero (bs : List Byte) (x : Nat) : (putSpad [] 0 bs).get 0 x = bs.getD x 0 := by
  rw [get_putSpad]
  split
  · rfl
  · rw [List.getD_eq_default _ _ (by omega)]; rfl
/-- The wait table of a task, entry `k` at `k + 1`. -/
theorem get_waitTable (g : Nat → Word) (n k : Nat) (hk : k < n) :
    ((List.range n).foldl (fun (m : SMap Word) j => m.set 0 (j + 1) (g j)) []).get 0 (k + 1) = g k := by
  induction n with
  | zero => omega
  | succ n ih =>
    rw [List.range_succ, List.foldl_append, List.foldl_cons, List.foldl_nil, SMap.get_set]
    split
    · rw [show k = n by omega]
    · exact ih (by omega)
theorem ringsAt_empty (a : Nat) (ks : List Nat) : ∀ r ∈ ringsAt a ks, r.head = 0 ∧ r.tail = 0 := by
  induction ks generalizing a with
  | nil => simp [ringsAt]
  | cons k ks ih =>
    intro r hr
    rcases List.mem_cons.mp hr with rfl | hr
    · exact ⟨rfl, rfl⟩
    · exact ih _ r hr
theorem ringsAt_getD_empty (a : Nat) (ks : List Nat) (i : Nat) : ((ringsAt a ks).getD i {}).head = 0 ∧ ((ringsAt a ks).getD i {}).tail = 0 := by
  by_cases h : i < (ringsAt a ks).length
  · rw [List.getD_eq_getElem _ _ h]; exact ringsAt_empty a ks _ (List.getElem_mem h)
  · rw [List.getD_eq_default _ _ (by omega)]; exact ⟨rfl, rfl⟩
/-- Every engine starts at the task's base, its ring empty. -/
theorem State.startCore_eng (s : State) (old : Core) (t : Task) (eng : Eng) :
    ((s.startCore old t).eng eng).crd = t.base ∧ ((s.startCore old t).eng eng).elast = t.base ∧
      ((s.startCore old t).eng eng).ring.head = 0 ∧ ((s.startCore old t).eng eng).ring.tail = 0 := by
  cases eng
  case cc => exact ⟨rfl, rfl, rfl, rfl⟩
  all_goals exact ⟨rfl, rfl, ringsAt_getD_empty _ _ _⟩
theorem State.startCore_wset (s : State) (old : Core) (t : Task) {k : Nat} (hk : k < t.desc.nwait) :
    (s.startCore old t).wset.get 0 (k + 1) = bitsOf 64 (((s.gpaBytes t.cid t.desc.wtab.toNat (8 * t.desc.nwait)).drop (8 * k)).take 8) :=
  get_waitTable (fun j => bitsOf 64 (((s.gpaBytes t.cid t.desc.wtab.toNat (8 * t.desc.nwait)).drop (8 * j)).take 8)) _ k hk
theorem State.startCore_s (s : State) (old : Core) (t : Task) (r : Nat) :
    (s.startCore old t).s.get 0 r = if r = 2 then t.descAddr else if r = 1 then t.desc.arg else 0 := by
  show SMap.get 0 (SMap.set 0 (SMap.set 0 [] 1 t.desc.arg) 2 t.descAddr) r = _
  rw [SMap.get_set, SMap.get_set]; rfl
theorem State.startCore_spad (s : State) (old : Core) (t : Task) :
    (s.startCore old t).spad = if t.desc.spimg == 0 then [] else putSpad [] 0 (s.gpaBytes t.cid t.desc.spimg.toNat t.desc.splen) := rfl
/-- R20: the five rings lie one behind the other, from the end of the task's scratchpad image on. -/
theorem State.startCore_rings (s : State) (old : Core) (t : Task) {ka ke km kc kn : Nat} (h : t.desc.rings = [ka, ke, km, kc, kn]) :
    [(s.startCore old t).acc.ring, (s.startCore old t).exe.ring, (s.startCore old t).mtx.ring, (s.startCore old t).cpy.ring, (s.startCore old t).net.ring] =
      ringsAt t.desc.ringBase [ka, ke, km, kc, kn] := by
  simp only [State.startCore, engAt, h, ringsAt]; rfl
/-- Dropping the remote lines of a partition changes nothing that a task starts from. -/
theorem State.startCore_dropRemote (s : State) (b : Bool) (cid : BitVec 12) (old : Core) (t : Task) :
    (if b then s.dropRemote cid else s).startCore old t = s.startCore old t := by cases b <;> rfl
theorem State.core_dropRemote (s : State) (b : Bool) (cid : BitVec 12) (n : Nat) : (if b then s.dropRemote cid else s).core n = s.core n := by
  cases b <;> rfl
theorem State.core_ite_modLaunch (s : State) (b : Bool) (k n : Nat) (f : Launch → Launch) : (if b then s.modLaunch k f else s).core n = s.core n := by
  cases b <;> rfl
/-- R105: a tile task that was placed and may start finds its core as `State.startCore` sets it; no other core changes. -/
theorem taskStart_starts {s : State} {n : Nat} {t : Task} (ht : (s.core n).task = some t) (hs : t.started = false) (hn : isSup n = false)
    (hc : (s.ctx t.cid).st = .live) (hm : ((s.launch t.launch).team t.team).st = .placed) (hl : t.loaded = false) :
    ∃ u, exec (.taskStart n) s = .next u ∧ u.core n = s.startCore (s.core n) t ∧ ∀ j, j ≠ n → u.core j = s.core j := by
  rw [exec_taskStart, execTaskStart, ht]
  simp only [hs, hn, hm, hc, hl, bne_self_eq_false, Bool.or_self, Bool.false_eq_true, if_false]
  refine ⟨_, rfl, ?_, fun j hj => ?_⟩
  · rw [State.core_ite_modLaunch, State.core_setCore_self, State.startCore_dropRemote, State.core_dropRemote]
  · rw [State.core_ite_modLaunch, State.core_setCore_ne _ _ hj, State.core_dropRemote]

/-! ### The end of a launch (R103) -/

/-- The launch that a launch slot holds, if it is an open one of context `cid` in incarnation `inc`. -/
def openOf (cid : BitVec 12) (inc : BitVec 10) (l : Option Launch) : Option Launch :=
  l.bind fun l => if l.cid == cid && l.inc == inc && l.st != .complete then some l else none
theorem State.openLaunches_eq (s : State) (cid : BitVec 12) : s.openLaunches cid = s.launches.filterMap fun x => openOf cid (s.ctx cid).inc x.2 := rfl
theorem SMap.mem_of_get {α : Type} {d v : α} {m : SMap α} {k : Nat} (h : m.get d k = v) (hv : v ≠ d) : (k, v) ∈ m := by
  induction m with
  | nil => exact absurd h.symm hv
  | cons x t ih =>
    obtain ⟨j, w⟩ := x
    rw [SMap.get] at h
    split at h
    · rename_i hj; subst hj; subst h; exact List.mem_cons_self ..
    · exact List.mem_cons_of_mem _ (ih h)
theorem SMap.mem_set {α : Type} [DecidableEq α] {d v : α} {m : SMap α} {k : Nat} {x : Nat × α} (h : x ∈ m.set d k v) :
    x = (k, v) ∨ x ∈ m ∧ x.1 ≠ k := by
  unfold SMap.set at h
  split at h
  · exact .inr (SMap.mem_erase h).symm
  · exact (SMap.mem_insert h).imp id fun h => (SMap.mem_erase h).symm
/-- When only one entry of a list passes a filter, no entry of another key does. -/
theorem filterMap_singleton {α β γ : Type} {f : α × β → Option γ} {m : List (α × β)} {x : α × β} {c : γ}
    (h : m.filterMap f = [c]) (hx : x ∈ m) (hc : f x = some c) : ∀ y ∈ m, y.1 ≠ x.1 → f y = none := by
  obtain ⟨as, bs, rfl⟩ := List.append_of_mem hx
  rw [List.filterMap_append, List.filterMap_cons_some hc, List.append_eq_singleton_iff] at h
  obtain ⟨ha, hb⟩ : as.filterMap f = [] ∧ bs.filterMap f = [] := by
    rcases h with ⟨h, e⟩ | ⟨-, e⟩
    · exact ⟨h, (List.cons.inj e).2⟩
    · cases e
  intro y hy hne
  rcases List.mem_append.mp hy with hy | hy
  · exact List.filterMap_eq_nil_iff.mp ha y hy
  · rcases List.mem_cons.mp hy with rfl | hy
    · exact absurd rfl hne
    · exact List.filterMap_eq_nil_iff.mp hb y hy
/-- A context whose one open launch is complete has none. -/
theorem State.openLaunches_modLaunch_complete {s : State} {k : Nat} {l : Launch} (hl : s.launches.get none k = some l)
    (h : s.openLaunches l.cid = [l]) {f : Launch → Launch} (hf : (f l).st = .complete) : (s.modLaunch k f).openLaunches l.cid = [] := by
  rw [State.openLaunches_eq] at h ⊢
  have hmem := SMap.mem_of_get hl (by simp)
  have hopen : openOf l.cid (s.ctx l.cid).inc (some l) = some l := by
    obtain ⟨y, -, hy⟩ := List.mem_filterMap.mp (h ▸ List.mem_singleton_self l : l ∈ s.launches.filterMap _)
    obtain ⟨l', -, hl'⟩ := Option.bind_eq_some_iff.mp hy
    split at hl'
    · obtain rfl := Option.some.inj hl'
      rename_i hc
      exact if_pos hc
    · cases hl'
  refine List.filterMap_eq_nil_iff.mpr fun y hy => ?_
  rcases SMap.mem_set hy with rfl | ⟨hy, hne⟩
  · rw [hl]; simp [openOf, hf]
  · exact filterMap_singleton h hmem hopen y hy hne

theorem State.lastLaunch_only (s : State) (cid : BitVec 12) : ∃ m c, s.lastLaunch cid = { s with mem := m, ctxs := c } := by
  unfold State.lastLaunch
  split
  · exact ⟨_, _, rfl⟩
  · obtain ⟨m, h⟩ := State.quarRelease_mem_only (s.modCtx cid fun c => { c with horiz := 0, epoch := c.epoch + 1 }) cid 4096
    exact ⟨m, _, h⟩
theorem State.ctx_quarRelease (s : State) (cid c : BitVec 12) (n : Nat) : (s.quarRelease cid n).ctx c = s.ctx c := by
  obtain ⟨m, h⟩ := s.quarRelease_mem_only cid n
  rw [h]; rfl
theorem State.lastLaunch_launches (s : State) (cid : BitVec 12) : (s.lastLaunch cid).launches = s.launches := by
  obtain ⟨m, c, h⟩ := s.lastLaunch_only cid; rw [h]
theorem State.lastLaunch_phasers (s : State) (cid : BitVec 12) : (s.lastLaunch cid).phasers = s.phasers := by
  obtain ⟨m, c, h⟩ := s.lastLaunch_only cid; rw [h]
/-- R104, R234: at the end of its last launch a context's horizon reads 0 and its phase epoch rises. -/
theorem State.lastLaunch_ctx {s : State} {cid : BitVec 12} (h : s.openLaunches cid = []) :
    (s.lastLaunch cid).ctx cid = { s.ctx cid with horiz := 0, epoch := (s.ctx cid).epoch + 1 } := by
  simp only [State.lastLaunch, h, List.isEmpty_nil, Bool.not_true, Bool.false_eq_true, if_false]
  rw [State.ctx_quarRelease, State.ctx_modCtx_self]

/-- Whether a launch is at its end: it drains, no core holds a task of it, and no child is left (R103). -/
def State.atEnd (s : State) (k : Nat) (l : Launch) : Prop :=
  l.st = .draining ∧ (∀ x ∈ s.cores, ∀ t, x.2.task = some t → t.launch ≠ k) ∧ s.hasChildren k = false
theorem State.atEnd_iff {s : State} {k : Nat} {l : Launch} {f : Nat × Core → Bool} (hf : ∀ j c, f (j, c) = c.task.any fun t => t.launch == k) :
    s.atEnd k l ↔ (l.st != .draining || s.cores.any f || s.hasChildren k) = false := by
  obtain rfl : f = fun x => x.2.task.any fun t => t.launch == k := funext fun x => hf x.1 x.2
  simp only [State.atEnd, Bool.or_eq_false_iff, bne_eq_false_iff_eq, List.any_eq_false, Option.any_eq_true, beq_iff_eq, not_exists, not_and, and_assoc, ne_eq]
theorem launchComplete_waits {s : State} {k : Nat} {l : Launch} (hl : s.launches.get none k = some l) (h : ¬s.atEnd k l) :
    exec (.launchComplete k) s = .next s := by
  rw [exec_launchComplete, execLaunchComplete, State.launch_eq hl]
  exact if_pos (Bool.of_not_eq_false fun e => h ((State.atEnd_iff fun j c => by dsimp only; cases c.task <;> rfl).mpr e))
/-- What completes: `x` is the state once the launch is COMPLETE and its superstep phaser free. -/
theorem execLaunchComplete_eq {s : State} {k : Nat} {l : Launch} (hl : s.launches.get none k = some l) (h : s.atEnd k l) :
    ∃ x : State, x.launches = (s.modLaunch k fun l => { l with st := .complete, teams := [] }).launches ∧ x.ctxs = s.ctxs ∧
      (∀ ph, l.superPh = some ph → x.phaser ph = {}) ∧
      execLaunchComplete k s = .next (if l.doneev then (x.lastLaunch l.cid).event 3 ((x.lastLaunch l.cid).ctx l.cid).pid l.cid l.inc l.queue
        (l.stag.setWidth 64) 0 else x.lastLaunch l.cid) := by
  have going (f : Nat × Core → Bool) (hf : ∀ j c, f (j, c) = c.task.any fun t => t.launch == k) :
      ¬(l.st != .draining || s.cores.any f || s.hasChildren k) = true := by
    rw [Bool.not_eq_true]; exact (State.atEnd_iff hf).mp h
  unfold execLaunchComplete
  rw [State.launch_eq hl]
  dsimp only
  cases hph : l.superPh with
  | none =>
    exact ⟨s.modLaunch k fun l => { l with st := .complete, teams := [] }, rfl, rfl, nofun,
      if_neg (going _ fun j c => by dsimp only; cases c.task <;> rfl)⟩
  | some ph =>
    refine ⟨(s.modLaunch k fun l => { l with st := .complete, teams := [] }).setPhaser ph {}, rfl, rfl, fun ph' e => ?_,
      if_neg (going _ fun j c => by dsimp only; cases c.task <;> rfl)⟩
    cases e
    exact State.phaser_setPhaser_self ..
theorem State.event_ite_only (s : State) (b : Bool) (ev : BitVec 8) (pid : BitVec 7) (cid : BitVec 12) (inc : BitVec 10) (q : Nat) (a0 a1 : Word) :
    ∃ u, (if b then s.event ev pid cid inc q a0 a1 else s) = { s with ueq := u } := by
  cases b
  · exact ⟨s.ueq, rfl⟩
  · exact s.event_ueq_only ..
/-- R103, R104, R109: a launch at its end is COMPLETE and its superstep phaser free; with a context's last launch the horizon starts over. -/
theorem launchComplete_completes {s : State} {k : Nat} {l : Launch} (hl : s.launches.get none k = some l) (h : s.atEnd k l) :
    ∃ t, exec (.launchComplete k) s = .next t ∧ t.launches.get none k = some { l with st := .complete, teams := [] } ∧
      (∀ ph, l.superPh = some ph → t.phaser ph = {}) ∧
      (s.openLaunches l.cid = [l] → (t.ctx l.cid).horiz = 0 ∧ (t.ctx l.cid).epoch = (s.ctx l.cid).epoch + 1) := by
  obtain ⟨x, hxl, hxc, hxp, he⟩ := execLaunchComplete_eq hl h
  obtain ⟨q, hq⟩ := (x.lastLaunch l.cid).event_ite_only l.doneev 3 ((x.lastLaunch l.cid).ctx l.cid).pid l.cid l.inc l.queue (l.stag.setWidth 64) 0
  refine ⟨_, (exec_launchComplete k s).trans he, ?_⟩
  rw [hq]
  refine ⟨?_, fun ph hph => ?_, fun ho => ?_⟩
  · show (x.lastLaunch l.cid).launches.get none k = _
    rw [x.lastLaunch_launches, hxl, State.launches_modLaunch_self hl]
  · show (x.lastLaunch l.cid).phasers.get {} ph.toNat = _
    rw [x.lastLaunch_phasers]
    exact hxp ph hph
  · show ((x.lastLaunch l.cid).ctx l.cid).horiz = 0 ∧ ((x.lastLaunch l.cid).ctx l.cid).epoch = _
    have hn : x.openLaunches l.cid = [] := by
      rw [State.openLaunches_eq, hxl, State.ctx, hxc]
      exact State.openLaunches_modLaunch_complete hl ho rfl
    rw [State.lastLaunch_ctx hn]
    exact ⟨rfl, by rw [State.ctx, hxc]; rfl⟩

/-! ### Child launches (R118 to R120) -/

theorem State.ctx_modCtx_same {β : Type} (s : State) (cid : BitVec 12) {f : Ctx → Ctx} (g : Ctx → β)
    (h : g (f (s.ctx cid)) = g (s.ctx cid)) (c : BitVec 12) : g ((s.modCtx cid f).ctx c) = g (s.ctx c) := by
  by_cases e : c = cid
  · subst e; rw [State.ctx_modCtx_self, h]
  · rw [State.modCtx, State.ctx_setCtx_ne _ _ e]
theorem State.stage2s_modCtx (s : State) (cid : BitVec 12) (f : Ctx → Ctx) (pid : BitVec 7) (a n : Nat) :
    (s.modCtx cid f).stage2s pid a n = s.stage2s pid a n := by
  induction n generalizing a with
  | zero => rfl
  | succ n ih => simp only [State.stage2s, ih]; rfl
theorem State.rawKeys_modCtx (s : State) (cid : BitVec 12) {f : Ctx → Ctx}
    (h : ((f (s.ctx cid)).pid, (f (s.ctx cid)).wins) = ((s.ctx cid).pid, (s.ctx cid).wins))
    (c : BitVec 12) (a : Word) (n : Nat) (p : Perm) : (s.modCtx cid f).rawKeys c a n p = s.rawKeys c a n p := by
  obtain ⟨hp, hw⟩ := Prod.mk.inj (s.ctx_modCtx_same cid (fun x => (x.pid, x.wins)) h c)
  simp only [State.rawKeys, hp, hw, State.stage2s_modCtx]
/-- A descriptor is read and checked as before when of a context neither the partition nor the raw windows change. -/
theorem State.ldesc_modCtx (s : State) (cid : BitVec 12) {f : Ctx → Ctx}
    (h : ((f (s.ctx cid)).pid, (f (s.ctx cid)).wins) = ((s.ctx cid).pid, (s.ctx cid).wins))
    (c : BitVec 12) (a : Word) : (s.modCtx cid f).ldesc c a = s.ldesc c a := by
  have hp := (Prod.mk.inj (s.ctx_modCtx_same cid (fun x => (x.pid, x.wins)) h c)).1
  simp only [State.ldesc, State.ldescOut, State.rawKeys_modCtx s cid h, hp]
  rfl
theorem State.acceptChild_spawn {s : State} {h : Held} {a : Word} {w : Bool} {d : LDesc} (ha : h.act = .spawn a w)
    (hd : s.ldesc h.cid a = .inl d) (die parent : Nat) :
    s.acceptChild h die parent =
      s.addLaunch { cid := h.cid, addr := a, desc := d, base := h.e, die := die, parent := some parent, child := true, spawnId := h.id } := by
  simp only [State.acceptChild, ha, hd]
theorem State.addLaunch_get (s : State) (l : Launch) :
    (s.addLaunch l).launches.get none s.nextLaunch = some { l with id := (s.ctx l.cid).launchCtr, inc := (s.ctx l.cid).inc, since := s.gts } := by
  unfold State.addLaunch
  dsimp only
  rw [State.modCtx_launches, SMap.get_set_self]
theorem State.addLaunch_ctx (s : State) (l : Launch) : (s.addLaunch l).ctx l.cid = { s.ctx l.cid with launchCtr := (s.ctx l.cid).launchCtr + 1 } :=
  State.ctx_modCtx_self ..

theorem State.core_gpaPut (s : State) (cid : BitVec 12) (a n v j : Nat) : (s.gpaPut cid a n v).core j = s.core j := by
  obtain ⟨m, h⟩ := s.gpaPut_mem_only cid a n v; rw [h]; rfl
theorem State.ctx_gpaPut (s : State) (cid : BitVec 12) (a n v : Nat) (c : BitVec 12) : (s.gpaPut cid a n v).ctx c = s.ctx c := by
  obtain ⟨m, h⟩ := s.gpaPut_mem_only cid a n v; rw [h]; rfl
theorem State.core_cqAppend (s : State) (x : CqEnt) (n : Nat) : (s.cqAppend x).core n = s.core n := by
  unfold State.cqAppend; dsimp only; rw [State.core_modCtx, State.core_gpaPut]
theorem State.ctx_cqAppend (s : State) (x : CqEnt) : (s.cqAppend x).ctx x.held.cid =
    { s.ctx x.held.cid with cqTail := (s.ctx x.held.cid).cqTail + 1, cq := (s.ctx x.held.cid).cq ++ [x] } := by
  unfold State.cqAppend; dsimp only; rw [State.ctx_modCtx_self, State.ctx_gpaPut]
theorem State.parentOf_modCore (s : State) (h : Held) {f : Core → Core} (hf : (f (s.core h.core)).task = (s.core h.core).task) :
    (s.modCore h.core f).parentOf h = s.parentOf h := by
  unfold State.parentOf; rw [State.core_modCore_self, hf]

/-- The acceptance of a queued SPAWN (R118, R119). -/
theorem childQueueMove_accepts {s : State} {die k : Nat} {x : CqEnt} {xs : List CqEnt} {a : Word} {w : Bool} {d : LDesc}
    (hq : (s.ctx (BitVec.ofNat 12 k)).cq = x :: xs) (hx : x.die = die) (hon : s.syncOn die = true) (hf : s.poolFree die ≠ 0)
    (hc : (s.ctx (BitVec.ofNat 12 k)).st = .live ∨ (s.ctx (BitVec.ofNat 12 k)).st = .stopped) (ha : x.held.act = .spawn a w)
    (hcid : x.held.cid = BitVec.ofNat 12 k) (hd : s.ldesc (BitVec.ofNat 12 k) a = .inl d) :
    exec (.childQueueMove die k) s = .next ((s.modCtx (BitVec.ofNat 12 k) fun c => { c with cq := xs, cqHead := c.cqHead + 1 }).addLaunch
      { cid := BitVec.ofNat 12 k, addr := a, desc := d, base := x.held.e, die := die, parent := some x.parent, child := true, spawnId := x.held.id }) := by
  have hst : ((s.ctx (BitVec.ofNat 12 k)).st == .live || (s.ctx (BitVec.ofNat 12 k)).st == .stopped) = true := by
    rcases hc with h | h <;> rw [h] <;> rfl
  rw [exec_childQueueMove, execChildQueueMove, hq]
  simp only [hx, hon, hst, beq_eq_false_iff_ne.mpr hf, bne_self_eq_false, Bool.not_true, Bool.or_self, Bool.false_eq_true, if_false]
  rw [State.acceptChild_spawn ha (by rw [State.ldesc_modCtx _ _ rfl, hcid]; exact hd), hcid]

/-! A SPAWN of a tile core that is released is dropped, accepted, queued, or kept in the pending-spawn slot (R119, R120, R231). -/

theorem State.spawnRelease_dead {s : State} {h : Held} (hs : isSup h.core = false) (hl : s.live h.cid h.inc = false) : s.spawnRelease h = s := by
  simp [State.spawnRelease, hs, hl]
theorem State.spawnRelease_near {s : State} {h : Held} (hs : isSup h.core = false) (hl : s.live h.cid h.inc = true) (hr : s.heldReady h = true)
    (hn : (s.ctx h.cid).cq = [] ∧ 32 < s.poolFree (h.core / 64)) : s.spawnRelease h = s.acceptChild h (h.core / 64) (s.parentOf h) := by
  simp [State.spawnRelease, hs, hl, hr, hn]
theorem State.spawnRelease_queue {s : State} {h : Held} (hs : isSup h.core = false) (hl : s.live h.cid h.inc = true) (hr : s.heldReady h = true)
    (hn : ¬((s.ctx h.cid).cq = [] ∧ 32 < s.poolFree (h.core / 64))) (hq : (s.ctx h.cid).cqTail - (s.ctx h.cid).cqHead < 2 ^ (s.ctx h.cid).cqn) :
    s.spawnRelease h = s.cqAppend { held := h, die := h.core / 64, parent := s.parentOf h } := by
  simp [State.spawnRelease, hs, hl, hr, hn, Ctx.cqRoom, hq]
theorem State.spawnRelease_keep {s : State} {h : Held} (hs : isSup h.core = false) (hl : s.live h.cid h.inc = true)
    (hr : s.heldReady h ≠ true ∨ ¬((s.ctx h.cid).cq = [] ∧ 32 < s.poolFree (h.core / 64)) ∧
      2 ^ (s.ctx h.cid).cqn ≤ (s.ctx h.cid).cqTail - (s.ctx h.cid).cqHead) :
    s.spawnRelease h = s.modCore h.core fun c => { c with spawnSlot := some h } := by
  by_cases hb : s.heldReady h = true
  · obtain ⟨hn, hq⟩ := hr.resolve_left (not_not.mpr hb)
    simp [State.spawnRelease, hs, hl, hb, hn, Ctx.cqRoom, Nat.not_lt.mpr hq]
  · simp [State.spawnRelease, hs, hl, hb]
theorem exec_pendingSpawnAppend_some {s : State} {n : Nat} {h : Held} (hs : (s.core n).spawnSlot = some h) :
    exec (.pendingSpawnAppend n) s = .next ((s.modCore n fun c => { c with spawnSlot := none }).spawnRelease h) := by
  rw [exec_pendingSpawnAppend, execPendingSpawnAppend, hs]

/-- TEAM_PLACE places its first candidate when that fits (R124). -/
theorem teamPlace_first {s u : State} {die p k : Nat} {cls : BitVec 2} {l : Launch} {m : Team} {rest : List (Nat × BitVec 2 × Nat × Launch × Team)}
    (hon : s.syncOn die = true) (hc : s.candidates die = (p, cls, k, l, m) :: rest)
    (hu : (if l.desc.gang then s.placeGang k else (s.placeOf k l m).map fun cs => (s.placeTeam k l m cs).seatMembers k) = some u) :
    exec (.teamPlace die) s = .next { u with rotLast := u.rotLast.set 0 (4 * die + cls.toNat) p } := by
  rw [exec_teamPlace, execTeamPlace, hon, hc]
  simp only [if_true, State.placeFirst, hu]

/-! ### Migration and ageing (R122, R126) -/

/-- The team of number `team`, as its launch holds it, and whether it waits for a place. -/
def State.teamNo (s : State) (team : Nat) : Team := (s.launch (team / 2 ^ 48)).team (team % 2 ^ 48)
def State.teamWaits (s : State) (team : Nat) : Prop :=
  team % 2 ^ 48 < (s.launch (team / 2 ^ 48)).desc.teams ∧ (s.teamNo team).st = .waiting ∧ (s.launch (team / 2 ^ 48)).waiting = true
/-- A team that fits no pod of its die leaves for the die that `State.migrateTo` names, and no other does. -/
theorem teamMigrate_leaves (s : State) (team die : Nat) :
    let leaves := s.teamWaits team ∧ s.syncOn (s.teamNo team).die = true ∧ s.mayPlace (s.launch (team / 2 ^ 48)) = true ∧
      s.migrateTo (team / 2 ^ 48) (s.launch (team / 2 ^ 48)) (s.teamNo team) = some die
    (leaves → exec (.teamMigrate team die) s =
      .next (s.modLaunch (team / 2 ^ 48) fun l => l.setTeam { s.teamNo team with st := .transit, die := die })) ∧
    (¬leaves → exec (.teamMigrate team die) s = .next s) := by
  rw [exec_teamMigrate]
  refine if_guard ?_ _ _
  simp only [Bool.or_eq_false_iff, decide_eq_false_iff_not, bne_eq_false_iff_eq, Bool.not_eq_false', Nat.not_le, State.teamWaits, and_assoc]
  rfl
theorem teamMigrationArrival_stays {s : State} {team : Nat} (h : (s.teamNo team).st ≠ .transit ∨ s.syncOn (s.teamNo team).die = false) :
    exec (.teamMigrationArrival team) s = .next s := by
  rw [exec_teamMigrationArrival]
  refine if_pos ?_
  rw [Bool.or_eq_true, bne_iff_ne, Bool.not_eq_true']
  exact h
/-- A team that has arrived: it WAITS on its new die where it may not be placed at once. -/
theorem teamMigrationArrival_waits {s : State} {team : Nat} (ht : (s.teamNo team).st = .transit) (hon : s.syncOn (s.teamNo team).die = true)
    (h : s.mayPlace (s.launch (team / 2 ^ 48)) = false ∨ s.placeOf (team / 2 ^ 48) (s.launch (team / 2 ^ 48)) (s.teamNo team) = none) :
    exec (.teamMigrationArrival team) s = .next (s.modLaunch (team / 2 ^ 48) fun l => l.setTeam { s.teamNo team with st := .waiting }) := by
  unfold State.teamNo at *
  rw [exec_teamMigrationArrival]
  refine (if_neg (by rw [teamLaunch, teamIdx, ht, hon]; decide)).trans ?_
  dsimp only [teamLaunch, teamIdx]
  rcases h with h | h
  · exact if_pos (by rw [h]; rfl)
  · rw [h]; exact ite_self _
/-- R122: a team that has arrived is placed on its new die where it fits. -/
theorem teamMigrationArrival_places {s : State} {team : Nat} {cs : List Nat} (ht : (s.teamNo team).st = .transit)
    (hon : s.syncOn (s.teamNo team).die = true) (hp : s.mayPlace (s.launch (team / 2 ^ 48)) = true)
    (hcs : s.placeOf (team / 2 ^ 48) (s.launch (team / 2 ^ 48)) (s.teamNo team) = some cs) :
    let w := s.modLaunch (team / 2 ^ 48) fun l => l.setTeam { s.teamNo team with st := .waiting }
    exec (.teamMigrationArrival team) s = .next ((w.placeTeam (team / 2 ^ 48) (w.launch (team / 2 ^ 48))
      ((w.launch (team / 2 ^ 48)).team (s.teamNo team).idx) cs).seatMembers (team / 2 ^ 48)) := by
  unfold State.teamNo at *
  rw [exec_teamMigrationArrival]
  refine (if_neg (by rw [teamLaunch, teamIdx, ht, hon]; decide)).trans ((if_neg (by rw [teamLaunch, hp]; decide)).trans ?_)
  dsimp only [teamLaunch, teamIdx]
  rw [hcs]
theorem teamMigrationArrival_seats {s : State} {team : Nat} {cs : List Nat}
    (hl : s.launches.get none (team / 2 ^ 48) = some (s.launch (team / 2 ^ 48))) (ht : (s.teamNo team).st = .transit)
    (hon : s.syncOn (s.teamNo team).die = true) (hp : s.mayPlace (s.launch (team / 2 ^ 48)) = true)
    (hcs : s.placeOf (team / 2 ^ 48) (s.launch (team / 2 ^ 48)) (s.teamNo team) = some cs) (hnd : cs.Nodup) :
    ∃ t, exec (.teamMigrationArrival team) s = .next t ∧ Seated t (team / 2 ^ 48) (s.launch (team / 2 ^ 48)) (s.teamNo team) cs := by
  refine ⟨_, teamMigrationArrival_places ht hon hp hcs, ?_⟩
  rw [State.launch_eq (State.launches_modLaunch_self hl _)]
  generalize s.launch (team / 2 ^ 48) = l, s.teamNo team = m at *
  have hw : (l.setTeam { m with st := .waiting }).team m.idx = { m with st := .waiting } := Launch.team_setTeam l { m with st := .waiting }
  rw [hw]
  exact Seated.congr (State.placeTeam_seated _ _ _ _ hnd) rfl rfl rfl rfl rfl fun _ => rfl
/-- R126: a waiting team moves to the next lower class number once it has been 2 ms in one. -/
theorem classAging_ages (s : State) (team : Nat) :
    let ages := s.teamWaits team ∧ (s.teamNo team).cls ≠ 0 ∧ (s.teamNo team).since.toNat + 2000000 ≤ s.gts.toNat
    (ages → exec (.classAging team) s =
      .next (s.modLaunch (team / 2 ^ 48) fun l => l.setTeam { s.teamNo team with cls := (s.teamNo team).cls - 1, since := s.gts })) ∧
    (¬ages → exec (.classAging team) s = .next s) := by
  rw [exec_classAging]
  refine if_guard ?_ _ _
  simp only [Bool.or_eq_false_iff, decide_eq_false_iff_not, bne_eq_false_iff_eq, beq_eq_false_iff_ne, Bool.not_eq_false', Nat.not_le, Nat.not_lt, and_assoc,
    State.teamWaits]
  exact and_congr_right fun _ => and_left_comm

/-! ### Clocks and phasers (R113, R125) -/

theorem min_zero_eq_ite (x : Int) : min x 0 = if x < 0 then x else 0 := by omega
/-- Waking the waiters of a release changes cores alone (R113, R115). -/
theorem State.wakeDropped_cores_only (s : State) (ph : BitVec 12) (p : Phaser) (ms : List PMember) :
    s.wakeDropped ph p ms = { s with cores := (s.wakeDropped ph p ms).cores } := by
  induction ms generalizing s with
  | nil => rfl
  | cons m ms ih =>
    rw [State.wakeDropped]
    split <;> exact ih _
/-- R113: a phaser that may releases its phase: it changes as `Phaser.release` says, and of the rest only its waiters' cores. -/
theorem phaserRelease_releases (s : State) (k : Nat) :
    let ph : BitVec 12 := BitVec.ofNat 12 k
    let may := (∃ c i, (s.phaser ph).owner = some (c, i) ∧ s.live c i = true) ∧ s.syncOn (k / 1024 % 4) = true ∧
      (s.phaser ph).ready (s.waitsFor 3) = true
    (may → exec (.phaserRelease k) s = .next ((s.setPhaser ph (s.phaser ph).release).wakeDropped ph (s.phaser ph) (s.phaser ph).members)) ∧
    (¬may → exec (.phaserRelease k) s = .next s) := by
  intro ph may
  have hb : ((match (s.phaser ph).owner with | some (c, i) => s.live c i | none => false) && s.syncOn (k / 1024 % 4) &&
      (s.phaser ph).ready (s.waitsFor 3)) = true ↔ may := by
    rw [Bool.and_eq_true, Bool.and_eq_true, and_assoc]
    refine and_congr_left fun _ => ?_
    rcases (s.phaser ph).owner with _ | ⟨c, i⟩ <;> simp
  rw [exec_phaserRelease]
  exact ⟨fun h => congrArg _ (if_pos (hb.mpr h)), fun h => congrArg _ (if_neg (mt hb.mp h))⟩

/-! ### The statement -/

/-- Settles O49: each event of the launch processors by what it does when it may happen and by its leaving the state alone when it may not; the placed
team by induction on the cores it is assigned. -/
theorem launchEvents : Obligations.LaunchEvents := by
  unfold Obligations.LaunchEvents
  refine ⟨?_, ?_, ?_, ?_, ?_, ?_, ?_, ?_, ?_, ?_⟩
  · intro s die k cid c
    refine ⟨fun hq => ?_, fun x xs hq => ⟨fun h => ?_, fun a w d hx hon hf hc ha hcid hd => ?_⟩⟩
    · rw [exec_childQueueMove, execChildQueueMove, hq]
    · rw [exec_childQueueMove, execChildQueueMove, hq]
      refine if_pos ?_
      simpa [or_assoc] using h
    · obtain ⟨t, ht⟩ : ∃ t, t = (s.modCtx cid fun c => { c with cq := xs, cqHead := c.cqHead + 1 }).addLaunch
          { cid := cid, addr := a, desc := d, base := x.held.e, die := die, parent := some x.parent, child := true, spawnId := x.held.id } := ⟨_, rfl⟩
      have hctx : t.ctx cid = { c with cq := xs, cqHead := c.cqHead + 1, launchCtr := c.launchCtr + 1 } := by
        rw [ht, State.addLaunch_ctx, State.ctx_modCtx_self]
      refine ⟨t, ht ▸ childQueueMove_accepts hq hx hon hf hc ha hcid hd, ht ▸ rfl, by rw [hctx], by rw [hctx], by rw [hctx], ht ▸ rfl, ht ▸ rfl, ?_⟩
      rw [ht]
      refine (State.addLaunch_get _ _).trans ?_
      rw [State.ctx_modCtx_self]
      rfl
  · intro s n h hslot c u may near hcore hsup
    subst hcore
    rw [exec_pendingSpawnAppend_some hslot]
    refine ⟨fun hl => congrArg _ (State.spawnRelease_dead (s := u) hsup hl), fun hl hm hn => ?_, fun hl hm hn hq => ?_, fun hl hk => ?_⟩
    · rw [State.spawnRelease_near (s := u) hsup hl hm hn, State.parentOf_modCore _ _ rfl]
    · refine ⟨_, congrArg _ (State.spawnRelease_queue (s := u) hsup hl hm hn hq), ?_, ?_, ?_⟩
      · rw [State.core_cqAppend, State.core_modCore_self]
      · rw [State.ctx_cqAppend]; rfl
      · rw [State.ctx_cqAppend, State.parentOf_modCore _ _ rfl]; rfl
    · refine ⟨_, congrArg _ (State.spawnRelease_keep (s := u) hsup hl hk), rfl, fun m => ?_⟩
      rw [State.modCore_modCore, State.core_modCore]
      split
      · rename_i hm; subst hm; rw [← hslot]
      · rfl
  · intro s die
    refine ⟨fun h => ?_, fun p cls k l m rest hon hc => ⟨fun cs hg hp hcs => ?_, fun u hg hu => teamPlace_first hon hc (by rw [hg]; exact hu)⟩⟩
    · rw [exec_teamPlace, execTeamPlace]
      rcases h with h | h
      · rw [h]; rfl
      · rw [h]; exact congrArg _ (ite_self s)
    · exact ⟨_, teamPlace_first (u := (s.placeTeam k l m cs).seatMembers k) hon hc (by rw [hg, hp]; rfl), s.placeTeam_seated k l m hcs,
        fun n hn => s.placeTeam_core_ne k l m hn, SMap.get_set_self ..⟩
  · intro s k l m cs hm hp
    obtain ⟨pod, hle, rfl⟩ := State.placeOf_freeCores hm hp
    exact ⟨by rw [List.length_take, Nat.min_eq_left hle], (s.freeCores_pairwise pod).sublist (List.take_sublist ..), pod, fun n hn =>
      State.mem_freeCores (List.mem_of_mem_take hn)⟩
  · intro s team die k l m waits sets
    refine ⟨fun hw hon hp hd => ?_, fun h => ?_, fun h => ?_, fun ht hon h => ?_, fun cs hl ht hon hp hcs hnd => ?_, fun hw hcls hg => ?_, fun h => ?_⟩
    · exact (teamMigrate_leaves s team die).1 ⟨hw, hon, hp, hd⟩
    · refine (teamMigrate_leaves s team die).2 fun ⟨hw, hon, hp, hd⟩ => ?_
      rcases h with h | h | h | h
      · exact h hw
      · exact Bool.false_ne_true (h.symm.trans hon)
      · exact Bool.false_ne_true (h.symm.trans hp)
      · exact h hd
    · exact teamMigrationArrival_stays h
    · exact teamMigrationArrival_waits ht hon h
    · exact teamMigrationArrival_seats hl ht hon hp hcs hnd
    · exact (classAging_ages s team).1 ⟨hw, hcls, hg⟩
    · refine (classAging_ages s team).2 fun ⟨hw, hcls, hg⟩ => ?_
      rcases h with h | h | h
      · exact h hw
      · exact hcls h
      · exact Nat.not_le.mpr h hg
  · intro s n t ht hs hn hc d m hm hl
    obtain ⟨u, hu, hcore, hne⟩ := taskStart_starts ht hs hn hc hm hl
    refine ⟨u, hu, ?_⟩
    rw [hcore]
    have hsp := s.startCore_spad (s.core n) t
    refine ⟨rfl, rfl, s.startCore_s .., s.startCore_s .., fun r h1 h2 => (s.startCore_s ..).trans (by rw [if_neg h2, if_neg h1]), rfl, rfl, rfl, rfl, rfl,
      rfl, rfl, rfl, rfl, rfl, rfl, rfl, s.startCore_eng _ _, fun ka ke km kc kn hr => ?_, fun k => s.startCore_wset _ _, fun h0 => ?_, fun h0 a _ => ?_, hne⟩
    · have hrings := s.startCore_rings (s.core n) t hr
      simp only [ringsAt, List.cons.injEq, and_true] at hrings
      obtain ⟨ha, he, hm, hc, hn⟩ := hrings
      rw [ha, he, hm, hc, hn]
      exact ⟨⟨rfl, rfl⟩, ⟨rfl, rfl⟩, ⟨rfl, rfl⟩, ⟨rfl, rfl⟩, ⟨rfl, rfl⟩⟩
    · rw [hsp, h0]; rfl
    · rw [hsp, if_neg (by simpa using h0)]; exact get_putSpad_zero _ a
  · intro s n t ht c finished
    rw [exec_coreReturn, execCoreReturn, ht]
    dsimp only
    exact if_guard (by simp [finished, c, and_assoc]) _ _
  · intro s k l hl
    exact ⟨launchComplete_completes hl, launchComplete_waits hl⟩
  · intro s
    rw [exec_deficitWindow, execDeficitWindow]
    refine ⟨fun h => if_pos h, fun h => (if_neg (Nat.not_lt.mpr h)).trans ?_⟩
    simp only [min_zero_eq_ite]
  · intro s k ph p may
    obtain ⟨hr, hn⟩ := phaserRelease_releases s k
    exact ⟨fun h => ⟨hr h, _, hr h, State.wakeDropped_cores_only ..⟩, hn⟩

end Sys2Proof.Machine
end

section
/-! PROOFS of the atomics' statement (O43): the operators of Table 10.6, combining in the mesh, the operation at its home, and the value's return. -/

namespace Sys2Proof.Machine

/-! ### What `exec` runs for each event -/

theorem exec_meshCombine (x y : Nat) (s : State) : exec (.meshCombine x y) s = execMeshCombine x y s := by rfl
theorem exec_homeAtomicPerform (i : Nat) (s : State) : exec (.homeAtomicPerform i) s = execHomeAtomicPerform i s := by rfl
theorem exec_replySplit (i : Nat) (s : State) : exec (.replySplit i) s = execReplySplit i s := by rfl
theorem exec_atomicResult (i : Nat) (s : State) : exec (.atomicResult i) s = execAtomicResult i s := by rfl

/-! ### The operators of Table 10.6 -/

theorem AtomOp.result_cas (a x y : Word) : AtomOp.cas.result a x y = if a = x then y else a := by
  simp [AtomOp.result]
theorem AtomOp.result_of_ne_cas {op : AtomOp} (h : op ≠ .cas) (a x y : Word) : op.result a x y = op.combine a x := by
  rw [AtomOp.result, if_neg (by simpa using h)]
theorem AtomOp.combines_iff {op : AtomOp} {nc : Bool} : op.combines nc = true ↔ nc = false ∧ op ≠ .cas ∧ op ≠ .fadd false := by
  simp [AtomOp.combines, and_assoc]

/-- The number by which a comparison of words goes: unsigned or signed. -/
def ltKey (u : Bool) (a : Word) : Int := if u then a.toNat else a.toInt
theorem ltOf_iff_ltKey (u : Bool) (a b : Word) : ltOf u a b = true ↔ ltKey u a < ltKey u b := by
  cases u
  · exact BitVec.slt_iff_toInt_lt
  · exact BitVec.ult_iff_lt.trans (by simp [ltKey, BitVec.lt_def])
/-- Of two words the second where its key is less, else the first. -/
def pickLess (k : Word → Int) (a b : Word) : Word := if k b < k a then b else a
/-- Of three words the first of least key is picked in either order of the picks. -/
theorem pickLess_assoc (k : Word → Int) (a x y : Word) : pickLess k (pickLess k a x) y = pickLess k a (pickLess k x y) := by
  unfold pickLess
  grind
theorem AtomOp.combine_min (u : Bool) (a b : Word) : (AtomOp.min u).combine a b = pickLess (ltKey u) a b :=
  if_congr (ltOf_iff_ltKey u b a) rfl rfl
theorem AtomOp.combine_max (u : Bool) (a b : Word) : (AtomOp.max u).combine a b = pickLess (fun w => -ltKey u w) a b :=
  if_congr ((ltOf_iff_ltKey u a b).trans neg_lt_neg_iff.symm) rfl rfl
/-- The operators that combine exactly associate (Table 10.6). -/
theorem AtomOp.combine_assoc {op : AtomOp} (hf : ∀ ra, op ≠ .fadd ra) (a x y : Word) :
    op.combine (op.combine a x) y = op.combine a (op.combine x y) := by
  cases op with
  | add => exact BitVec.add_assoc a x y
  | and => exact BitVec.and_assoc a x y
  | or => exact BitVec.or_assoc a x y
  | xor => exact BitVec.xor_assoc a x y
  | min u => simp only [AtomOp.combine_min, pickLess_assoc]
  | max u => simp only [AtomOp.combine_max, pickLess_assoc]
  | swp => rfl
  | cas => rfl
  | fadd ra => exact absurd rfl (hf ra)

/-! ### Combining in the mesh (R238, R239) -/

/-- What stands when two requests may combine. -/
theorem State.mayCombine_elim {s : State} {a b : AReq} (h : s.mayCombine a b = true) :
    a.op = b.op ∧ a.op.combines a.nc = true ∧ a.nc = b.nc ∧ a.addr = b.addr ∧ a.tree.first.cid = b.tree.first.cid ∧ a.tree.first.inc = b.tree.first.inc ∧
      a.tree.members.length + b.tree.members.length ≤ 64 ∧ a.tree.first.quals = b.tree.first.quals ∧ s.meshLate a b = false ∧
      ∃ r, s.meetAt a b = some r ∧ (a.at_ = some r ∨ s.waitAt r < 32) := by
  simp only [State.mayCombine, Bool.and_eq_true, beq_iff_eq, Bool.not_eq_true', decide_eq_true_eq] at h
  obtain ⟨⟨⟨⟨⟨⟨⟨⟨⟨⟨⟨⟨⟨-, -⟩, haddr⟩, hop⟩, hnc⟩, hcomb⟩, hq⟩, hcid⟩, hinc⟩, hlen⟩, hmeet⟩, hlate⟩, -⟩, -⟩ := h
  refine ⟨hop, hcomb, hnc, haddr, hcid, hinc, hlen, hq, hlate, ?_⟩
  cases hr : s.meetAt a b with
  | none => simp [hr] at hmeet
  | some r => exact ⟨r, rfl, by simpa [hr] using hmeet⟩
/-- The router at which two requests meet is on the path of both. -/
theorem State.meetAt_mem {s : State} {a b : AReq} {r : Nat} (h : s.meetAt a b = some r) : r ∈ s.meshPath a ∧ r ∈ s.meshPath b :=
  ⟨List.mem_of_find?_eq_some h, by simpa using List.find?_some h⟩
/-- MESH_COMBINE joins two requests that may combine, and leaves the state alone for any others. -/
theorem meshCombine_eq {s : State} {x y : Nat} {a b : AReq} (ha : s.areqs[x]? = some a) (hb : s.areqs[y]? = some b) :
    exec (.meshCombine x y) s = if x == y || !s.mayCombine a b then .next s else .next { s with areqs := (s.areqs.set x { a with
      x := a.op.combine a.x b.x, tree := .two a.tree b.tree a.x, at_ := s.meetAt a b, came := s.cycle }).eraseIdx y } := by
  rw [exec_meshCombine, execMeshCombine, ha, hb]

/-! ### Bytes of a word, and bytes written at named keys -/

theorem leBytes_length (w n : Nat) : (leBytes w n).length = n := by
  induction n generalizing w with
  | zero => rfl
  | succ n ih => rw [leBytes, List.length_cons, ih]
theorem leBytes_getD (w : Nat) {n j : Nat} (h : j < n) : (leBytes w n).getD j 0 = BitVec.ofNat 8 (w / 2 ^ (8 * j)) := by
  induction n generalizing w j with
  | zero => exact absurd h (Nat.not_lt_zero j)
  | succ n ih =>
    cases j with
    | zero => simp [leBytes]
    | succ j => rw [leBytes, List.getD_cons_succ, ih _ (Nat.lt_of_succ_lt_succ h), Nat.div_div_eq_div_mul, show 8 * (j + 1) = 8 + 8 * j by omega, Nat.pow_add]
/-- Byte `j` of a word among its little-endian bytes; past its eighth they are 0. -/
theorem leBytes_toNat_getD (w : Word) {n j : Nat} (h : j < n) : (leBytes w.toNat n).getD j 0 = w.extractLsb' (8 * j) 8 := by
  rw [leBytes_getD _ h]
  apply BitVec.eq_of_toNat_eq
  rw [BitVec.toNat_ofNat, BitVec.extractLsb'_toNat, Nat.shiftRight_eq_div_pow]
theorem State.byte_putCells_of_notMem (s : State) (cs : List (Nat × Byte)) {k : Nat} (h : ∀ c ∈ cs, c.1 ≠ k) : (s.putCells cs).byte k = s.byte k := by
  induction cs generalizing s with
  | nil => rfl
  | cons c cs ih =>
    rw [State.putCells, ih _ fun d hd => h d (List.mem_cons_of_mem _ hd), State.byte_setByte_ne _ _ (h c List.mem_cons_self).symm]
theorem State.byte_putCells_zip_out (s : State) {ks : List Nat} (bs : List Byte) {k : Nat} (h : k ∉ ks) : (s.putCells (ks.zip bs)).byte k = s.byte k :=
  s.byte_putCells_of_notMem _ fun _ hc hk => h (hk ▸ (List.of_mem_zip hc).1)
/-- The bytes written at distinct keys read back. -/
theorem State.byte_putCells_zip_in (s : State) {ks : List Nat} {bs : List Byte} (hl : ks.length ≤ bs.length) (hn : ks.Nodup) {j : Nat} (hj : j < ks.length) :
    (s.putCells (ks.zip bs)).byte (ks.getD j 0) = bs.getD j 0 := by
  induction ks generalizing s bs j with
  | nil => exact absurd hj (Nat.not_lt_zero j)
  | cons k ks ih =>
    obtain _ | ⟨b, bs⟩ := bs
    · exact absurd hl (Nat.not_succ_le_zero _)
    obtain ⟨hk, hn⟩ := List.nodup_cons.mp hn
    rw [List.zip_cons_cons, State.putCells]
    cases j with
    | zero => rw [List.getD_cons_zero, List.getD_cons_zero, State.byte_putCells_zip_out _ bs hk, State.byte_setByte_self]
    | succ j => exact ih _ (Nat.le_of_succ_le_succ hl) hn (Nat.lt_of_succ_lt_succ hj)

/-! ### The L2 beside memory (R201, R222) -/

theorem State.l2Put_l2_only (s : State) (pid : BitVec 7) (l : L2Line) : ∃ m, s.l2Put pid l = { s with l2 := m } := by
  unfold State.l2Put
  dsimp only
  split
  · exact ⟨s.l2, rfl⟩
  split
  · exact ⟨_, rfl⟩
  split <;> exact ⟨_, rfl⟩
/-- An access that meets the L2 changes the lines it holds, and of the state nothing else. -/
theorem State.l2See_l2_only (s : State) (pid : BitVec 7) (alloc : Bool) (xs : List (Nat × Nat)) : ∃ m, s.l2See pid alloc xs = { s with l2 := m } := by
  induction xs generalizing s with
  | nil => exact ⟨s.l2, rfl⟩
  | cons x xs ih =>
    rw [State.l2See]
    split
    · exact ih s
    split
    · exact ih (s.l2Hit _)
    split
    · obtain ⟨m, hm⟩ := s.l2Put_l2_only pid { pid := pidTag pid, addr := x.1 / 64 }
      rw [hm]
      exact ih { s with l2 := m }
    · exact ih s
theorem State.heldSee_l2_only (s : State) (h : Held) : ∃ m, s.heldSee h = { s with l2 := m } := by
  unfold State.heldSee
  split
  · exact s.l2See_l2_only ..
  · exact ⟨s.l2, rfl⟩
theorem State.byte_heldSee (s : State) (h : Held) (k : Nat) : (s.heldSee h).byte k = s.byte k := by
  obtain ⟨m, hm⟩ := s.heldSee_l2_only h
  rw [hm]
  rfl

/-! ### The operation at its home (R237, R241) -/

/-- A request of an incarnation that is not live is dropped (R131). -/
theorem homeAtomicPerform_stale {s : State} {i : Nat} {a : AReq} (ha : s.areqs[i]? = some a) (hd : a.done = false) (hs : isSup a.tree.first.core = false)
    (hl : s.live a.tree.first.cid a.tree.first.inc = false) : exec (.homeAtomicPerform i) s = .next { s with areqs := s.areqs.eraseIdx i } := by
  rw [exec_homeAtomicPerform, execHomeAtomicPerform, ha]
  simp [hd, hs, hl]
/-- Whether a core's access stands at its home: a supervisor core's by the grant it has now (R143), a tile core's always. -/
theorem State.regrant_inl {s : State} {h : Held} {addr : Word} {n : Nat} {p : Perm}
    (hg : isSup h.core = true → ∃ g, s.coreKeys h.core addr n p = .inl g) : ∃ g, s.regrant h addr n p = .inl g := by
  unfold State.regrant
  split
  · obtain ⟨g, hg⟩ := hg ‹_›
    exact ⟨some g, by rw [hg]⟩
  · exact ⟨none, rfl⟩

/-- The state after a request's operation at its home, over bytes without an uncorrectable error. -/
def State.homeAtomic (s : State) (i : Nat) (a : AReq) : State :=
  let old : Word := bitsOf 64 (a.ks.map s.byte)
  { (s.heldSee a.tree.first).putCells (a.ks.zip (leBytes (a.op.result old a.x a.y).toNat a.ks.length)) with areqs := s.areqs.set i { a with done := true, val := old } }

/-- A request that may be performed: over poison it is answered with 0, and else its word is read and written at once. -/
theorem homeAtomicPerform_performs {s : State} {i : Nat} {a : AReq} (ha : s.areqs[i]? = some a) (hd : a.done = false)
    (hl : isSup a.tree.first.core = true ∨ s.live a.tree.first.cid a.tree.first.inc = true) (hon : s.homeOn a.tree.first = true) (hf : s.areqFree a [] = true)
    (hg : isSup a.tree.first.core = true → ∃ g, s.coreKeys a.tree.first.core a.addr a.ks.length .atomic = .inl g) :
    exec (.homeAtomicPerform i) s = if s.anyPoison a.ks then .next { s with areqs := s.areqs.set i { a with done := true, poison := true, val := 0 } }
      else .next (s.homeAtomic i a) := by
  obtain ⟨g, hg⟩ := State.regrant_inl hg
  have hstale : (!isSup a.tree.first.core && !s.live a.tree.first.cid a.tree.first.inc) = false := by
    rcases hl with h | h <;> simp [h]
  obtain ⟨m, hm⟩ := s.heldSee_l2_only a.tree.first
  rw [exec_homeAtomicPerform, execHomeAtomicPerform, ha]
  dsimp only
  rw [hd, hstale, hon, hf, hg]
  simp only [Bool.not_true, Bool.or_self, Bool.false_eq_true, if_false, State.homeAtomic, State.putCells_areqs, hm]
theorem State.homeAtomic_frame (s : State) (i : Nat) (a : AReq) :
    s.homeAtomic i a = { s.heldSee a.tree.first with
      mem := (s.homeAtomic i a).mem, areqs := s.areqs.set i { a with done := true, val := bitsOf 64 (a.ks.map s.byte) } } := by
  obtain ⟨m, hm⟩ := (s.heldSee a.tree.first).putCells_mem_only
    (a.ks.zip (leBytes (a.op.result (bitsOf 64 (a.ks.map s.byte)) a.x a.y).toNat a.ks.length))
  unfold State.homeAtomic
  dsimp only
  rw [hm]
theorem State.byte_homeAtomic_out (s : State) (i : Nat) {a : AReq} {k : Nat} (h : k ∉ a.ks) : (s.homeAtomic i a).byte k = s.byte k :=
  ((s.heldSee a.tree.first).byte_putCells_zip_out _ h).trans (s.byte_heldSee _ k)
theorem State.byte_homeAtomic_in (s : State) (i : Nat) {a : AReq} (hn : a.ks.Nodup) {j : Nat} (hj : j < a.ks.length) :
    (s.homeAtomic i a).byte (a.ks.getD j 0) = (a.op.result (bitsOf 64 (a.ks.map s.byte)) a.x a.y).extractLsb' (8 * j) 8 :=
  ((s.heldSee a.tree.first).byte_putCells_zip_in (leBytes_length ..).ge hn hj).trans (leBytes_toNat_getD _ hj)

/-! ### The reply and the value's return (R239, R321, R133) -/

theorem replySplit_splits {s : State} {i : Nat} {a : AReq} {l r : Comb} {x : Word} (ha : s.areqs[i]? = some a) (hd : a.done = true) (ht : a.tree = .two l r x) :
    exec (.replySplit i) s = .next { s with areqs := s.areqs.eraseIdx i ++
      [{ a with tree := l }, { a with tree := r, val := if a.poison then 0 else a.op.combine a.val x }] } := by
  rw [exec_replySplit, execReplySplit, ha]
  simp only [ht, hd]
  rfl

/-- Whether the task or supervisor core that a held word came from is still there to receive its value (R131). -/
def State.receives (s : State) (h : Held) : Prop := isSup h.core = true ∨ (s.live h.cid h.inc = true ∧ h.onCore (s.core h.core) = true)
/-- A value in its register and an acquire's drop of remote lines, before any signal. -/
def State.receive (s : State) (h : Held) (v : Word) : State :=
  let d := h.act.dest
  let t := if d ≠ 0 ∧ (s.core h.core).sPend.get 0 d.toNat = h.id then
      s.modCore h.core fun c => { c with s := c.s.set 0 d.toNat v, sPend := c.sPend.set 0 d.toNat 0, deadS := c.deadS.set none d.toNat none }
    else s
  if h.acq = some 4 then t.dropRemote h.cid else t
theorem State.receives_iff {s : State} {h : Held} : (isSup h.core || (s.live h.cid h.inc && h.onCore (s.core h.core))) = true ↔ s.receives h := by
  rw [Bool.or_eq_true, Bool.and_eq_true, State.receives]
theorem State.deliver_eq (s : State) (h : Held) (v : Word) (signal : Bool) :
    s.deliver h v signal = if isSup h.core || (s.live h.cid h.inc && h.onCore (s.core h.core)) then (if signal then (s.receive h v).heldSig h else s.receive h v)
      else s.countOrph (h.core / 64) := by
  have hb : (!isSup h.core && (!s.live h.cid h.inc || !h.onCore (s.core h.core))) = !(isSup h.core || (s.live h.cid h.inc && h.onCore (s.core h.core))) := by
    rw [Bool.not_or, Bool.not_and]
  unfold State.deliver State.receive
  rw [hb]
  cases isSup h.core || (s.live h.cid h.inc && h.onCore (s.core h.core)) with
  | false => rfl
  | true => simp only [Bool.not_true, Bool.false_eq_true, if_false, if_true, Bool.and_eq_true, bne_iff_ne, beq_iff_eq]
/-- ATOMIC_RESULT: one member's value arrives and signals, or arrives with its poison's fault, or finds no task and is counted. -/
theorem atomicResult_eq {s : State} {i : Nat} {a : AReq} {h : Held} (ha : s.areqs[i]? = some a) (hd : a.done = true) (ht : a.tree = .one h) :
    let gone : State := { s with areqs := s.areqs.eraseIdx i }
    (s.receives h → a.poison = false → exec (.atomicResult i) s = .next ((gone.receive h a.val).heldSig h)) ∧
    (s.receives h → a.poison = true → exec (.atomicResult i) s = .next ((gone.receive h a.val).raise h.core .cc fAtomPoison a.addr h.e false 0)) ∧
    (¬s.receives h → exec (.atomicResult i) s = .next (gone.countOrph (h.core / 64))) := by
  intro gone
  have hrun : exec (.atomicResult i) s = .next (if a.poison && (isSup h.core || (s.live h.cid h.inc && h.onCore (s.core h.core))) then
      (gone.deliver h a.val (!a.poison)).raise h.core .cc fAtomPoison a.addr h.e false 0 else gone.deliver h a.val (!a.poison)) := by
    rw [exec_atomicResult, execAtomicResult, ha]
    simp only [ht, hd]
    rfl
  have hdel : gone.deliver h a.val (!a.poison) = if isSup h.core || (s.live h.cid h.inc && h.onCore (s.core h.core)) then
      (if !a.poison then (gone.receive h a.val).heldSig h else gone.receive h a.val) else gone.countOrph (h.core / 64) := gone.deliver_eq h a.val _
  rw [hrun, hdel]
  refine ⟨fun hr hp => ?_, fun hr hp => ?_, fun hr => ?_⟩
  · rw [State.receives_iff.mpr hr, hp]; rfl
  · rw [State.receives_iff.mpr hr, hp]; rfl
  · rw [Bool.eq_false_iff.mpr (mt State.receives_iff.mp hr), Bool.and_false]; rfl

/-! ### The statement -/

/-- Settles O43: each event of an atomic by what it does when it may happen; the combined operand by the operators' associativity, and the bytes of the word by
induction on its keys. -/
theorem meshAtomics : Obligations.MeshAtomics := by
  unfold Obligations.MeshAtomics
  refine ⟨fun a x y => ?_, fun op a x y hc hf => ?_, fun s x y a b ha hb => ⟨fun hm => ?_, fun hxy hm => ?_, fun hm => ?_⟩, fun s i a ha => ?_⟩
  · exact ⟨rfl, rfl, rfl, rfl, rfl, rfl, rfl, rfl, rfl, AtomOp.result_cas a x y⟩
  · obtain ⟨-, hcas, hf'⟩ := AtomOp.combines_iff.mp hc
    simp only [AtomOp.result_of_ne_cas hcas]
    refine AtomOp.combine_assoc (fun ra => ?_) a x y
    cases ra
    · exact hf'
    · exact hf
  · obtain ⟨hop, hcomb, hnc, haddr, hcid, hinc, hlen, hq, hlate, r, hr, hroom⟩ := State.mayCombine_elim hm
    obtain ⟨hna, hcas, hf⟩ := AtomOp.combines_iff.mp hcomb
    exact ⟨hop, hcas, hf, hna, hnc.symm.trans hna, haddr, hcid, hinc, hlen, hq, hlate, r, (State.meetAt_mem hr).1, (State.meetAt_mem hr).2, hroom⟩
  · rw [meshCombine_eq ha hb, hm]
    exact if_neg (by simpa using hxy)
  · rw [meshCombine_eq ha hb, hm]
    exact if_pos (by simp)
  · refine ⟨homeAtomicPerform_stale ha, fun hd hl hon hf hg => ?_, fun l r x hd ht => replySplit_splits ha hd ht, fun h hd ht => atomicResult_eq ha hd ht⟩
    rw [homeAtomicPerform_performs ha hd hl hon hf hg]
    refine ⟨fun hp => if_pos hp, fun hp => ⟨s.homeAtomic i a, if_neg (by simp [hp]), s.homeAtomic_frame i a, fun k => s.byte_homeAtomic_out i,
      fun hn j => s.byte_homeAtomic_in i hn⟩⟩

end Sys2Proof.Machine
end

section
/-! PROOFS of the probability statement (O35): the codes, the lineage and the flags that each form of R401 to R413 leaves in the commit queue. -/

namespace Sys2Proof.Machine

/-! ### What `exec` runs for each form -/

theorem exec_qcmp (h : Hdr) (fx : BitVec 2) (o : RR) (s : State) : exec (.qcmp h fx o) s = execQcmp h fx o s := by rfl
theorem exec_qgcmp (h : Hdr) (fx : BitVec 2) (o : RR) (s : State) : exec (.qgcmp h fx o) s = execQgcmp h fx o s := by rfl
theorem exec_qsel (h : Hdr) (fx : BitVec 2) (o : RR) (s : State) : exec (.qsel h fx o) s = execQsel h fx o s := by rfl
theorem exec_qand (h : Hdr) (fx : BitVec 2) (o : RR) (s : State) : exec (.qand h fx o) s = qLogic h (Instr.qand h fx o).word fx o qand s := by rfl
theorem exec_qor (h : Hdr) (fx : BitVec 2) (o : RR) (s : State) : exec (.qor h fx o) s = qLogic h (Instr.qor h fx o).word fx o qor s := by rfl
theorem exec_qnot (h : Hdr) (o : RR) (s : State) : exec (.qnot h o) s = execQnot h o s := by rfl
theorem exec_qcol (h : Hdr) (o : RR) (s : State) : exec (.qcol h o) s = execQcol h o s := by rfl
theorem exec_qfrom (h : Hdr) (o : RR) (s : State) : exec (.qfrom h o) s = execQfrom h o s := by rfl
theorem exec_qto (h : Hdr) (o : RR) (s : State) : exec (.qto h o) s = execQto h o s := by rfl
theorem exec_qgand (h : Hdr) (o : RR) (s : State) : exec (.qgand h o) s = execQgand h o s := by rfl
theorem exec_qgsel (h : Hdr) (o : RR) (s : State) :
    exec (.qgsel h o) s = vFloat h (packRR h 0x5D 1 o) o (srcAB o) 0 0 false (fun v => vsub 0 (nthV v 0) (nthV v 1)) s := by rfl
theorem exec_qlin (h : Hdr) (o : RR) (s : State) : exec (.qlin h o) s = execQlin h o s := by rfl
theorem exec_qrsum (h : Hdr) (o : RR) (s : State) : exec (.qrsum h o) s = execQrsum h o s := by rfl
theorem exec_qrprod (h : Hdr) (o : RR) (s : State) : exec (.qrprod h o) s = execQrprod h o s := by rfl

/-! ### Forms that only compute -/

theorem exeVals_length (s : State) (rs : List (BitVec 6)) (es : List QEnt) : (exeVals s rs es).length = rs.length := by
  induction rs generalizing es with
  | nil => rfl
  | cons r rs ih => rw [exeVals]; split <;> simp [ih]

/-- A form that only computes leaves what its function gives from one value for each v source. -/
theorem ExeComputes.of_exeOp {i : Instr} {h : Hdr} {w : Word} {guard lat : BitVec 4} {o : ExeOps} {f : Word → List Vec → List ExeEff}
    {P : Word → List Vec → List ExeEff → Prop} {s : State} (hi : exec i s = exeOp h w guard lat o f s)
    (hP : ∀ e xs, xs.length = o.vs.length → P e xs (f e xs)) : ExeComputes i h guard lat o P s := by
  intro es c' m r
  obtain ⟨t, x, base, ht, hx, hcore, hran⟩ := exeWord_ran m r w (fun _ => none) rfl f (fun _ u => u) (fun _ y => y)
    fun _ u _ _ => ⟨.refl .., rfl⟩
  exact ⟨t, x, base, hi.trans ht, hx ▸ hP _ _ (by rw [exeVals_length, List.length_map]), hcore, hran⟩

/-- A source of a floating form, decoded. -/
theorem nthV_decode {xs : List Vec} {n k : Nat} (hx : xs.length = n) (hk : k < n) (F : Fmt) (w l : Nat) :
    nthV ((xs.map fun x => vLane x w l).map F.decode) k = F.decode (vLane (xs.getD k 0) w l) := by
  subst hx
  simp [nthV, hk]
/-- A floating form leaves its function's value of each lane, rounded in its mode (R363, R382). -/
theorem ExeComputes.of_vFloat {i : Instr} {h : Hdr} {w : Word} {o : RR} {vs : List (BitVec 6 × Bool)} {t mode : Nat} {sat : Bool} {g : List Val → Val × Flags}
    {g' : Nat → List Vec → Val × Flags} {s : State} (hi : exec i s = vFloat h w o vs t mode sat g s)
    (hg : ∀ l xs, xs.length = vs.length → g ((xs.map fun x => vLane x (tWidth t) l).map (fmtOf t).decode) = g' l xs) :
    ExeComputes i h o.q o.lat { vs := vs, d := o.d } (fun e xs => LaneRes s.me o.d e (tWidth t) fun l =>
      let r := g' l xs
      let c := (fmtOf t).encode (rmAt mode sat s.me.seed e l) r.1
      (c.1, r.2 ||| c.2)) s := by
  unfold vFloat vLaneOp at hi
  refine .of_exeOp hi fun e xs hx => ?_
  simp only [hg _ xs hx]
  exact lanesOf_res ..

/-! ### Lanes of vectors, predicates and q registers (R363, R364, R400) -/

theorem tWidth_eq (fx : BitVec 2) : tWidth fx.toNat = if fx = 0 then 4 else 2 := by
  by_cases hf : fx = 0
  · subst hf; rfl
  · rw [if_neg hf, tWidth, if_neg (by simpa [BitVec.toNat_eq] using hf)]
/-- One value in every lane. -/
theorem ofLanes_replicate_out (c : Core) (d : BitVec 6) (e : Word) (w n : Nat) :
    LaneOut c d e w (fun _ => n) (c.outV d e (ofLanes w (List.replicate (256 / w) n))) := by
  have hout := ofLanes_out c d e w fun _ => n
  rwa [List.map_const', List.length_range] at hout

theorem testBit_foldr_lanes {w : Nat} (hw : 0 < w) (bs : List Bool) (j : Nat) :
    (bs.foldr (fun (b : Bool) m => (if b then 2 ^ w - 1 else 0) + 2 ^ w * m) 0).testBit j = bs.getD (j / w) false := by
  induction bs generalizing j with
  | nil => simp
  | cons b bs ih =>
    have hlt : (if b then 2 ^ w - 1 else 0) < 2 ^ w := by have := Nat.two_pow_pos w; split <;> omega
    rw [List.foldr_cons, Nat.add_comm, Nat.testBit_two_pow_mul_add _ hlt]
    by_cases hj : j < w
    · rw [if_pos hj, Nat.div_eq_of_lt hj]
      cases b <;> simp [hj]
    · rw [if_neg hj, ih, ← Nat.sub_add_cancel (Nat.le_of_not_lt hj), Nat.add_div_right _ hw, Nat.add_sub_cancel]
      rfl
theorem predOf_getLsbD {w : Nat} (hw : 0 < w) (bs : List Bool) {j : Nat} (hj : j < 256) : (predOf w bs).getLsbD j = bs.getD (j / w) false := by
  rw [predOf, BitVec.getLsbD_ofNat, testBit_foldr_lanes hw, decide_eq_true hj, Bool.true_and]
/-- A predicate of lanes is a result lane by lane. -/
theorem predOf_res (d : BitVec 6) {w n : Nat} (hw : 0 < w) (hn : 256 ≤ n * w) (g : Nat → Bool) : PredRes d w g [.p d.toNat (predOf w ((List.range n).map g))] := by
  refine ⟨_, rfl, fun j hj => ?_⟩
  have hl : j / w < n := (Nat.div_lt_iff_lt_mul hw).mpr (by omega)
  rw [predOf_getLsbD hw _ hj]
  simp [hl]

theorem QReg.lane_packLanes {xs : List Nat} (hx : xs.length ≤ 64) (lin : BitVec 16) (ind : Bool) (l : Nat) :
    QReg.lane { code := BitVec.ofNat 1024 (packLanes 2 xs), lin := lin, ind := ind } l = xs.getD l 0 % 2 ^ 16 := by
  have hb : 8 * 2 * xs.length ≤ 1024 := by omega
  rw [QReg.lane, BitVec.extractLsb'_toNat, BitVec.toNat_ofNat, Nat.shiftRight_eq_div_pow,
    Nat.mod_eq_of_lt (Nat.lt_of_lt_of_le (packLanes_lt 2 xs) (Nat.pow_le_pow_right Nat.two_pos hb))]
  exact packLanes_lane 2 xs l
theorem QReg.lane_lt (x : QReg) (l : Nat) : x.lane l < 2 ^ 16 := BitVec.isLt _

/-- A q result: its codes, its lineage and independence (Table 17.3), and the flags. -/
def QRes (d : BitVec 6) (g : Nat → Nat) (lin : BitVec 16) (ind : Bool) (f : Flags) (fs : List ExeEff) : Prop :=
  ∃ x : QReg, fs = [.q d.toNat x, .flags f] ∧ x.lin = lin ∧ x.ind = ind ∧ ∀ l, l < 64 → x.lane l = g l % 2 ^ 16
/-- Codes packed from a list are a q result lane by lane. -/
theorem qOut_res (d : BitVec 6) {xs : List Nat} (hx : xs.length ≤ 64) {g : Nat → Nat} (hg : ∀ l, l < 64 → xs.getD l 0 = g l) (lin : BitVec 16) (ind : Bool)
    (f : Flags) : QRes d g lin ind f (qOut d { code := BitVec.ofNat 1024 (packLanes 2 xs), lin := lin, ind := ind } f) :=
  ⟨_, rfl, rfl, rfl, fun l hl => by rw [QReg.lane_packLanes hx, hg l hl]⟩
/-- The codes of a register under another lineage. -/
theorem qOut_copy (d : BitVec 6) (x : QReg) (lin : BitVec 16) (ind : Bool) (f : Flags) :
    QRes d x.lane lin ind f (qOut d { code := x.code, lin := lin, ind := ind } f) :=
  ⟨_, rfl, rfl, rfl, fun l _ => (Nat.mod_eq_of_lt (x.lane_lt l)).symm⟩
theorem qCodes_res (d : BitVec 6) (g : Nat → Nat) (lin : BitVec 16) (ind : Bool) (f : Flags) :
    QRes d g lin ind f (qOut d { code := qCodes g, lin := lin, ind := ind } f) :=
  qOut_res d (by simp) (fun l hl => by simp [hl]) lin ind f
/-- Codes that a form computes with their flags, under a lineage of their own. -/
theorem qLanes_res (d : BitVec 6) (g : Nat → Nat × Flags) (lin : BitVec 16) (ind : Bool) :
    ∃ f : Flags, QRes d (fun l => (g l).1) lin ind f (qOut d { code := (qLanes g).1, lin := lin, ind := ind } (qLanes g).2) ∧
      ∀ k, f.getLsbD k = true ↔ ∃ l, l < 64 ∧ (g l).2.getLsbD k = true := by
  refine ⟨(qLanes g).2, qOut_res d (by simp) (fun l hl => by simp [hl]) lin ind _, fun k => ?_⟩
  rw [qLanes, foldl_or_bit]
  simp

/-! ### The running product (R413) -/

/-- The product over the active lanes below `l`. -/
def QReg.prodBelow (a : QReg) (p : Pred) : Nat → Nat
  | 0 => 65535
  | l + 1 => if p.getLsbD (4 * l) then rneNat (a.prodBelow p l * a.lane l) 65535 else a.prodBelow p l
theorem qProd_length (a : QReg) (p : Pred) (n i r : Nat) : (qProd a p n i r).length = n := by
  induction n generalizing i r with
  | zero => rfl
  | succ n ih => rw [qProd, List.length_cons, ih]
theorem qProd_getD (a : QReg) (p : Pred) {n l : Nat} (hl : l < n) (i : Nat) : (qProd a p n i (a.prodBelow p i)).getD l 0 = a.prodBelow p (i + l + 1) := by
  induction n generalizing i l with
  | zero => omega
  | succ n ih =>
    have hstep : qProd a p (n + 1) i (a.prodBelow p i) = a.prodBelow p (i + 1) :: qProd a p n (i + 1) (a.prodBelow p (i + 1)) := rfl
    rw [hstep]
    cases l with
    | zero => rfl
    | succ l => rw [List.getD_cons_succ, ih (by omega), show i + 1 + l + 1 = i + (l + 1) + 1 by omega]

/-! ### The product rules (R404, R406) -/

/-- QAND and QOR: under .strict an operand that is not independent gives the word the fault PROB_DEP; a plain form flags an overlap. -/
theorem qLogic_computes {i : Instr} {h : Hdr} {fx : BitVec 2} {o : RR} {g : Bool → Nat → Nat → Nat} {s : State} (hi : exec i s = qLogic h i.word fx o g s) :
    let a := s.rdQ o.a
    let b := s.rdQ o.b
    let dep := fx.getLsbD 0
    let strict := fx.getLsbD 1
    let overlap := a.lin &&& b.lin ≠ 0
    ExeComputes i h o.q o.lat
      { qs := srcAB o, fault := if strict = true ∧ (overlap ∨ a.ind = false ∨ b.ind = false) then some (0x12, i.word) else none }
      (fun _ _ => QRes o.d (fun l => g dep (a.lane l) (b.lane l)) (a.lin ||| b.lin)
        (if strict then true else a.ind && b.ind && (dep || decide (¬overlap))) (if dep = false ∧ strict = false ∧ overlap then 0x80 else 0)) s := by
  intro a b dep strict overlap
  have hfault : (if strict && ((a.lin &&& b.lin != 0) || !a.ind || !b.ind) then some (fProbDep, i.word) else none) =
      if strict = true ∧ (overlap ∨ a.ind = false ∨ b.ind = false) then some (0x12, i.word) else none :=
    if_congr (by simp [overlap, or_assoc]) rfl rfl
  have hind : (if dep then a.ind && b.ind else a.ind && b.ind && !(a.lin &&& b.lin != 0)) = (a.ind && b.ind && (dep || decide (¬overlap))) := by
    cases dep <;> simp [overlap, bne, beq_eq_decide]
  have hflag : flIf (!dep && !strict && (a.lin &&& b.lin != 0)) flQdep = if dep = false ∧ strict = false ∧ overlap then 0x80 else 0 :=
    if_congr (by simp [overlap, and_assoc]) rfl rfl
  rw [← hfault, ← hind, ← hflag]
  exact .of_exeOp hi fun _ _ _ => qCodes_res ..

/-! ### The statement -/

/-- Settles O35: each form issues as `ExeComputes.of_exeOp` says, and leaves lanes of a vector, a predicate or a q register; QAND and QOR with their
lineage, and QRPROD by induction on its lanes. -/
theorem probabilityWords : Obligations.ProbabilityWords := by
  unfold Obligations.ProbabilityWords
  intro h o s
  refine ⟨fun fx => ⟨?qcmp, ?qgcmp, ?qsel, ?qand, ?qor⟩, ?qnot, ?qcol, ?qfrom, ?qto, ?qgand, ?qgsel, ?qlin, ?qrsum, ?qrprod⟩
  case qcmp => exact .of_exeOp (exec_qcmp h fx o s) fun _ _ _ => qLanes_res ..
  case qgcmp => exact .of_exeOp (exec_qgcmp h fx o s) fun _ _ _ => lanesOf_res ..
  case qsel =>
    refine .of_exeOp (exec_qsel h fx o s) fun e xs _ => ?_
    have hz : (fx.toNat == 0) = decide (fx = 0) := by simp [BitVec.toNat_eq, beq_eq_decide]
    simp only [hz, decide_eq_true_eq, tWidth_eq]
    exact lanesOf_res ..
  case qand => exact qLogic_computes (exec_qand h fx o s)
  case qor => exact qLogic_computes (exec_qor h fx o s)
  case qnot => exact .of_exeOp (exec_qnot h o s) fun _ _ _ => qCodes_res ..
  case qcol =>
    refine .of_exeOp (exec_qcol h o s) fun e _ _ => ?_
    have hc : ∀ code l, collapse s.me.seed e code l = decide (code = 65535 ∨
        (devHash (BitVec.ofNat 32 l) (e.setWidth 32) (s.me.seed.setWidth 32)).toNat / 2 ^ 16 < code) := fun code l => by
      rw [collapse, Bool.decide_or]; rfl
    simp only [hc]
    exact predOf_res o.d (by decide) (by decide) _
  case qfrom => exact .of_exeOp (exec_qfrom h o s) fun _ _ _ => qLanes_res ..
  case qto => exact .of_exeOp (exec_qto h o s) fun _ _ _ => ofLanes_out ..
  case qgand => exact .of_exeOp (exec_qgand h o s) fun _ _ _ => ofLanes_out ..
  case qgsel =>
    exact .of_vFloat (exec_qgsel h o s) fun l xs hx => by
      rw [nthV_decode hx (k := 0) (by simp [srcAB]), nthV_decode hx (k := 1) (by simp [srcAB])]; rfl
  case qlin => exact .of_exeOp (exec_qlin h o s) fun _ _ _ => qOut_copy o.d (s.rdQ o.a) _ true 0
  case qrsum => exact .of_exeOp (exec_qrsum h o s) fun _ _ _ => ofLanes_replicate_out ..
  case qrprod =>
    exact .of_exeOp (exec_qrprod h o s) fun _ _ _ => ⟨(s.rdQ o.a).prodBelow (s.rdP o.b), rfl, fun _ _ => rfl,
      qOut_res o.d (qProd_length ..).le (fun l hl => (qProd_getD (s.rdQ o.a) (s.rdP o.b) hl 0).trans (by rw [Nat.zero_add])) _ _ _⟩

end Sys2Proof.Machine
end

section
/-! PROOFS of the division statement (O2): the quotients and remainders of R326, the flag that a zero divisor sets, and the flags that the other
integer forms of Table 14.5 leave. -/

namespace Sys2Proof.Machine

/-! ### The quotient and the remainder (R326) -/

/-- The signed quotient is rounded toward zero; −2^63 by −1 wraps to −2^63, since both sides keep the low 64 bits. -/
theorem sdiv_eq_ofInt_tdiv (a b : Word) : a.sdiv b = BitVec.ofInt 64 (a.toInt.tdiv b.toInt) :=
  BitVec.eq_of_toInt_eq (by rw [BitVec.toInt_sdiv, BitVec.toInt_ofInt])
theorem divOf_eq (u : Bool) (a b : Word) : divOf u a b =
    if b = 0 then BitVec.allOnes 64 else if u then BitVec.ofNat 64 (a.toNat / b.toNat) else BitVec.ofInt 64 (a.toInt.tdiv b.toInt) := by
  simp only [divOf, beq_iff_eq, BitVec.udiv_def, sdiv_eq_ofInt_tdiv]

theorem sub_mul_udiv (a b : Word) : a - b * BitVec.ofNat 64 (a.toNat / b.toNat) = BitVec.ofNat 64 (a.toNat % b.toNat) := by
  have split : a = b * BitVec.ofNat 64 (a.toNat / b.toNat) + BitVec.ofNat 64 (a.toNat % b.toNat) :=
    calc a = BitVec.ofNat 64 (b.toNat * (a.toNat / b.toNat) + a.toNat % b.toNat) := by
          rw [Nat.div_add_mod, BitVec.ofNat_toNat, BitVec.setWidth_eq]
      _ = _ := by rw [BitVec.ofNat_add, BitVec.ofNat_mul, BitVec.ofNat_toNat, BitVec.setWidth_eq]
  exact sub_eq_of_eq_add' split
theorem sub_mul_tdiv (a b : Word) : a - b * BitVec.ofInt 64 (a.toInt.tdiv b.toInt) = BitVec.ofInt 64 (a.toInt.tmod b.toInt) := by
  rw [Int.tmod_def, Int.sub_eq_add_neg, BitVec.ofInt_add, BitVec.ofInt_neg, BitVec.ofInt_mul, BitVec.ofInt_toInt, BitVec.ofInt_toInt,
    BitVec.sub_eq_add_neg]
/-- The remainder A − B × DIV(A, B) is that of the division whose quotient DIV gives. -/
theorem remOf_eq (u : Bool) (a b : Word) : remOf u a b =
    if b = 0 then a else if u then BitVec.ofNat 64 (a.toNat % b.toNat) else BitVec.ofInt 64 (a.toInt.tmod b.toInt) := by
  rw [remOf, divOf_eq]
  by_cases hb : b = 0
  · simp [hb]
  · simp only [beq_iff_eq, if_neg hb]
    cases u
    · exact sub_mul_tdiv a b
    · exact sub_mul_udiv a b

/-! ### What `exec` runs for a division -/

theorem exec_div (h : Hdr) (o : RR) (s : State) : exec (.div h o) s = execDiv h o s := by rfl
theorem exec_rem (h : Hdr) (o : RR) (s : State) : exec (.rem h o) s = execRem h o s := by rfl

/-! ### The other integer forms leave the flags -/

/-- A word that may issue may also do so with fewer of its registers read. -/
theorem CcMay.of_subset {s : State} {h : Hdr} {srcs srcs' : List (BitVec 6 × Bool)} {toks : List (Nat × Nat)} {extra : Word}
    (m : CcMay s h srcs toks extra) (sub : srcs' ⊆ srcs) : CcMay s h srcs' toks extra :=
  { m with
    landed := fun x hx => m.landed x (sub hx)
    alive := fun hr x hx => m.alive hr x (sub hx) }
theorem CcPlain.flags {s t : State} {h : Hdr} (p : CcPlain s t h) : (t.core s.cur).flags = s.me.flags := by
  rw [p.frame]
/-- A word that does no more than compute one s register goes on with the flags as they stand. -/
theorem flags_of_ccAlu {i : Instr} {h : Hdr} {w : Word} {srcs : List (BitVec 6 × Bool)} {d : BitVec 6} {v : Word} {s : State}
    (m : CcMay s h srcs [] 0) (hi : exec i s = ccAlu h w srcs d v s) :
    ∃ t, exec i s = .next t ∧ (t.core s.cur).flags = s.me.flags :=
  let ⟨t, hn, plain, _⟩ := ccAlu_ran m w d v
  ⟨t, hi.trans hn, plain.flags⟩

/-! ### The statement -/

/-- Settles O2: a division writes what `divOf` and `remOf` give and sets DIVZERO as `ccDiv_ran` says; every other form is a `ccAlu` word, here grouped by
the registers that it reads, and `flags_of_ccAlu` says what such a word leaves. -/
theorem divRem : Obligations.DivRem := by
  unfold Obligations.DivRem
  refine ⟨fun h o s m => ?_, fun h o r s m => ?_⟩
  · simp only [← divOf_eq, ← remOf_eq, exec_div, exec_rem]
    exact ⟨ccDiv_ran m .., ccDiv_ran m ..⟩
  · have a := m.of_subset (srcs' := [(o.a, o.la)]) (by simp)
    have ab := m.of_subset (srcs' := [(o.a, o.la), (o.b, o.lb)]) (by simp)
    have abc := m.of_subset (srcs' := [(o.a, o.la), (o.b, o.lb), (o.c, o.lc)]) (by simp)
    have abcd := m.of_subset (srcs' := [(o.a, o.la), (o.b, o.lb), (o.c, o.lc), (o.d, false)]) (by simp)
    have imm := m.of_subset (srcs' := [(r.a, r.la)]) (by simp)
    have noReg := m.of_subset (srcs' := []) (by simp)
    simp only [List.forall_mem_cons, List.not_mem_nil, false_implies, implies_true, and_true]
    refine ⟨?add, ?sub, ?and, ?or, ?xor, ?andn, ?shl, ?shr, ?sar, ?min, ?max, ?slt, ?seq, ?mul, ?mulh, ?clz, ?ctz, ?popc, ?brev, ?bext, ?bins, ?sel,
      ?cset, ?addi, ?andi, ?ori, ?xori, ?shli, ?shri, ?sari, ?slti, ?movi, ?movhi, ?movpc⟩
    case add | sub | and | or | xor | andn | shl | shr | sar | min | max | slt | seq | mul | mulh => exact flags_of_ccAlu ab rfl
    case clz | ctz | popc | brev | cset => exact flags_of_ccAlu a rfl
    case bext | sel => exact flags_of_ccAlu abc rfl
    case bins => exact flags_of_ccAlu abcd rfl
    case addi | andi | ori | xori | shli | shri | sari | slti | movhi => exact flags_of_ccAlu imm rfl
    case movi | movpc => exact flags_of_ccAlu noReg rfl

end Sys2Proof.Machine
end

section
/-! PROOFS of the conversion statement (O33): selects, conversions, reductions, scans, block and scale forms, and the online maximum, as the lanes, bytes
and flags that each form leaves in the commit queue. -/

namespace Sys2Proof.Machine

/-! ### What `exec` runs for each form -/

theorem exec_vsel (h : Hdr) (o : RR) (s : State) : exec (.vsel h o) s = execVsel h o s := by rfl
theorem exec_vcvt (h : Hdr) (fx : BitVec 5) (o : RR) (s : State) : exec (.vcvt h fx o) s = execVcvt h fx o s := by rfl
theorem exec_vrsum (h : Hdr) (fx : BitVec 2) (o : RR) (s : State) : exec (.vrsum h fx o) s = execVrsum h fx o s := by rfl
theorem exec_vrmax (h : Hdr) (fx : BitVec 2) (o : RR) (s : State) : exec (.vrmax h fx o) s = execVrmax h fx o s := by rfl
theorem exec_vrmin (h : Hdr) (fx : BitVec 2) (o : RR) (s : State) : exec (.vrmin h fx o) s = execVrmin h fx o s := by rfl
theorem exec_vscanadd (h : Hdr) (fx : BitVec 2) (o : RR) (s : State) : exec (.vscanadd h fx o) s = execVscanadd h fx o s := by rfl
theorem exec_vscanmax (h : Hdr) (fx : BitVec 2) (o : RR) (s : State) : exec (.vscanmax h fx o) s = execVscanmax h fx o s := by rfl
theorem exec_vrargmax (h : Hdr) (fx : BitVec 2) (o : RR) (s : State) : exec (.vrargmax h fx o) s = execVrargmax h fx o s := by rfl
theorem exec_vscale (h : Hdr) (fx : BitVec 2) (o : RR) (s : State) : exec (.vscale h fx o) s = execVscale h fx o s := by rfl
theorem exec_vqblk (h : Hdr) (fx : BitVec 2) (o : RR) (s : State) : exec (.vqblk h fx o) s = execVqblk h fx o s := by rfl
theorem exec_vdqblk (h : Hdr) (fx : BitVec 2) (o : RR) (s : State) : exec (.vdqblk h fx o) s = execVdqblk h fx o s := by rfl
theorem exec_vomax (h : Hdr) (o : RR) (s : State) : exec (.vomax h o) s = execVomax h o s := by rfl

/-! ### Lanes that a form computes (R363) -/

/-- A lane of a result of `n` lanes; those above are zero. -/
theorem vLane_lanesOf {w n i : Nat} (hn : n ≤ 256 / w) (g : Nat → Nat × Flags) :
    vLane (lanesOf w n g).1 w i = if i < n then (g i).1 % 2 ^ (8 * w) else 0 := by
  have hfit : w * n ≤ 256 := (Nat.mul_le_mul_left w hn).trans (Nat.mul_div_le 256 w)
  rw [lanesOf, ofLanes_lane _ _ _ (by simp only [List.length_map, List.length_range]; rw [Nat.mul_assoc]; omega)]
  by_cases hi : i < n <;> simp [hi]
theorem lanesOf_flags (w n : Nat) (g : Nat → Nat × Flags) (b : Nat) : (lanesOf w n g).2.getLsbD b = true ↔ ∃ i, i < n ∧ (g i).2.getLsbD b = true := by
  rw [lanesOf, foldl_or_bit]
  simp
/-- Fewer lanes than fit are a result whose other lanes are zero and raise nothing (R388). -/
theorem lanesOf_padded_res (c : Core) (d : BitVec 6) (e : Word) {w n : Nat} (hn : n ≤ 256 / w) (g : Nat → Nat × Flags) :
    LaneRes c d e w (fun l => if l < n then g l else (0, 0)) (c.outF d e (lanesOf w n g)) := by
  refine ⟨_, _, rfl, fun i _ => ?_, fun b => ?_⟩
  · rw [vLane_lanesOf hn]
    by_cases hi : i < n <;> simp [hi]
  · rw [lanesOf_flags]
    constructor
    · rintro ⟨i, hi, hb⟩
      exact ⟨i, hi.trans_le hn, by simpa [hi] using hb⟩
    · rintro ⟨i, -, hb⟩
      by_cases hi : i < n
      · exact ⟨i, hi, by simpa [hi] using hb⟩
      · simp [hi] at hb
theorem LaneRes.congr {c : Core} {d : BitVec 6} {e : Word} {w : Nat} {g g' : Nat → Nat × Flags} {fs : List ExeEff} (hr : LaneRes c d e w g fs)
    (hg : ∀ l, l < 256 / w → g l = g' l) : LaneRes c d e w g' fs := by
  obtain ⟨x, f, hfs, hlane, hflag⟩ := hr
  exact ⟨x, f, hfs, fun i hi => hg i hi ▸ hlane i hi,
    fun b => (hflag b).trans (exists_congr fun i => and_congr_right fun hi => by rw [hg i hi])⟩
/-- The lane of a source, taken from the lanes of all sources. -/
theorem getD_map_vLane (xs : List Vec) (k w l : Nat) : (xs.map fun x => vLane x w l).getD k 0 = vLane (xs.getD k 0) w l := by
  have hz : vLane 0 w l = 0 := by simp [vLane]
  calc (xs.map fun x => vLane x w l).getD k 0 = (xs.map fun x => vLane x w l).getD k (vLane 0 w l) := by rw [hz]
    _ = vLane (xs.getD k 0) w l := List.getD_map ..

/-- Every format has elements of at least a byte, but for the blocks of code 5 (Table 12.1). -/
theorem fmtBytes_pos : ∀ c, c < 16 → c ≠ 5 → 0 < fmtBytes c := by decide

/-! ### Reductions and scans (R291, R389) -/

/-- A v result with one value in every 32-bit lane, and flags. -/
def SplatRes (c : Core) (d : BitVec 6) (e : Word) (v : Nat) (f : Flags) (fs : List ExeEff) : Prop :=
  ∃ x : Vec, fs = c.outV d e x ++ [.flags f] ∧ ∀ i, i < 64 → vLane x 4 i = v
theorem splat_res (c : Core) (d : BitVec 6) (e : Word) (v : Nat) (f : Flags) :
    SplatRes c d e (v % 2 ^ 32) f (c.outF d e (ofLanes 4 (List.replicate 64 v), f)) := by
  obtain ⟨x, hx, hlane⟩ := ofLanes_replicate_out c d e 4 v
  exact ⟨x, congrArg (· ++ [ExeEff.flags f]) hx, hlane⟩

/-- A reduction leaves its result, by the tree or in sequence, in every lane. -/
theorem vReduce_computes {i : Instr} {h : Hdr} {w : Word} {o : RR} {t : Nat} {g : Val → Val → Val × Flags} {ident : Val} {s : State}
    (hi : exec i s = vReduce h w o t g ident s) :
    ExeComputes i h o.q o.lat { vs := srcA o, ps := [o.b], d := o.d } (fun e xs fs =>
      let ls := redLanes t (s.rdP o.b) (xs.getD 0 0) ident
      let r := if s.me.nbv then treeRed g 7 ls else seqRed g ls
      SplatRes s.me o.d e ((fp32.encode {} r.1).1 % 2 ^ 32) r.2 fs) s :=
  .of_exeOp hi fun _ _ _ => splat_res ..

/-- A scan gives at lane `l` what the lanes up to it reduce to in sequence. -/
theorem scanGo_getD (g : Val → Val → Val × Flags) {ls : List (Val × Flags)} {l : Nat} (hl : l < ls.length) (a z : Val × Flags) :
    (scanGo g a ls).getD l z = (ls.take (l + 1)).foldl (redStep g) a := by
  induction ls generalizing a l with
  | nil => simp at hl
  | cons x ls ih =>
    rw [scanGo]
    cases l with
    | zero => simp
    | succ l => simpa using ih (by simpa using hl) (redStep g a x)
theorem foldl_take_succ {α β : Type} (f : β → α → β) {ls : List α} {l : Nat} (hl : l < ls.length) (b : β) (z : α) :
    (ls.take (l + 1)).foldl f b = f ((ls.take l).foldl f b) (ls.getD l z) := by
  rw [List.take_add_one, List.foldl_append]
  simp [hl]
theorem redLanes_length (t : Nat) (p : Pred) (x : Vec) (ident : Val) : (redLanes t p x ident).length = 256 / tWidth t := by
  simp [redLanes]

/-- A scan leaves in each lane the running value after it, rounded to the type of the lanes. -/
theorem vScan_computes {i : Instr} {h : Hdr} {w : Word} {o : RR} {t : Nat} {g : Val → Val → Val × Flags} {ident : Val} {s : State}
    (hi : exec i s = vScan h w o t g ident s) :
    ExeComputes i h o.q o.lat { vs := srcA o, ps := [o.b], d := o.d } (fun e xs fs => ∃ r : Nat → Val × Flags, r 0 = (ident, 0) ∧
      (∀ l, l < 256 / tWidth t → r (l + 1) = redStep g (r l) ((redLanes t (s.rdP o.b) (xs.getD 0 0) ident).getD l (ident, 0))) ∧
      LaneRes s.me o.d e (tWidth t) (fun l => let c := (fmtOf t).encode {} (r (l + 1)).1; (c.1, (r (l + 1)).2 ||| c.2)) fs) s := by
  refine .of_exeOp hi fun e xs _ => ?_
  have hlen := redLanes_length t (s.rdP o.b) (xs.getD 0 0) ident
  refine ⟨fun l => ((redLanes t (s.rdP o.b) (xs.getD 0 0) ident).take l).foldl (redStep g) (ident, 0), rfl,
    fun l hl => foldl_take_succ _ (hlen ▸ hl) _ _, (lanesOf_res ..).congr fun l hl => ?_⟩
  rw [scanGo_getD g (hlen ▸ hl)]

/-! ### The order of values (R291): −∞, the finite values with −0 below +0, +∞ -/

/-- A value that is no NaN, its denominator positive. -/
def Val.IsNum : Val → Prop
  | .nan _ _ _ => False
  | .inf _ => True
  | .fin _ _ d => 0 < d
/-- The rational number of a signed fraction. -/
def ratOf (s : Bool) (n d : Nat) : ℚ := (if s then -(n : ℚ) else n) / d
/-- Where a value stands in the order: below, among or above the finite ones; its number; and for a zero its sign. -/
def Val.rank : Val → ℤ ×ₗ ℚ ×ₗ ℤ
  | .nan _ _ _ => toLex (0, toLex (0, 0))
  | .inf s => toLex (if s then -1 else 1, toLex (0, 0))
  | .fin s n d => toLex (0, toLex (ratOf s n d, if n = 0 ∧ s = false then 1 else 0))

theorem Val.scaled_isNum (neg : Bool) (m : Nat) (e : Int) : (Val.scaled neg m e).IsNum := by
  rw [Val.scaled]
  split
  · exact Nat.one_pos
  · exact Nat.two_pow_pos _
theorem Fmt.decode_isNum_or_isNan (F : Fmt) (c : Nat) : (F.decode c).IsNum ∨ (F.decode c).isNan = true := by
  unfold Fmt.decode
  dsimp only
  split
  · split
    · exact .inl trivial
    · exact .inr rfl
  · split
    · exact .inr rfl
    · split <;> exact .inl (Val.scaled_isNum ..)

/-- The numerators' difference under the common denominator `b * d`. -/
theorem ratOf_sub (s t : Bool) (a c : Nat) {b d : Nat} (hb : 0 < b) (hd : 0 < d) :
    (((if s then -(a * d : Int) else a * d) - (if t then -(c * b : Int) else c * b) : Int) : ℚ) = (ratOf s a b - ratOf t c d) * (b * d) := by
  have hb' : (b : ℚ) ≠ 0 := by positivity
  have hd' : (d : ℚ) ≠ 0 := by positivity
  unfold ratOf
  field_simp
  cases s <;> cases t <;> push_cast <;> simp [mul_comm (c : ℚ)]
theorem ratOf_eq_zero {s : Bool} {n d : Nat} (hd : 0 < d) : ratOf s n d = 0 ↔ n = 0 := by
  have hd' : (d : ℚ) ≠ 0 := by positivity
  cases s <;> simp [ratOf, hd']
/-- What two finite values compare by, under a common denominator, has the sign of their difference. -/
theorem cmpVal_fin {s t : Bool} {a b c d : Nat} (hb : 0 < b) (hd : 0 < d) :
    cmpVal (.fin s a b) (.fin t c d) = if ratOf s a b < ratOf t c d then -1 else if ratOf s a b = ratOf t c d then 0 else 1 := by
  have hpos : (0 : ℚ) < b * d := by positivity
  have hsub := ratOf_sub s t a c hb hd
  rw [cmpVal]
  generalize ((if s then -(a * d : Int) else a * d) - (if t then -(c * b : Int) else c * b) : Int) = x at hsub
  have hlt : x < 0 ↔ ratOf s a b < ratOf t c d := by
    rw [← Int.cast_lt_zero (R := ℚ), hsub, ← sub_neg (a := ratOf s a b)]
    exact ⟨fun h => neg_of_mul_neg_left h hpos.le, fun h => mul_neg_of_neg_of_pos h hpos⟩
  have heq : x = 0 ↔ ratOf s a b = ratOf t c d := by
    rw [← Int.cast_eq_zero (α := ℚ), hsub, mul_eq_zero, sub_eq_zero, or_iff_left hpos.ne']
  simp only [hlt, beq_iff_eq, heq]
/-- The order of R291 is that of the ranks. -/
theorem totVal_neg_iff {a b : Val} (ha : a.IsNum) (hb : b.IsNum) : totVal a b < 0 ↔ a.rank < b.rank := by
  match a, b with
  | .nan _ _ _, _ => exact ha.elim
  | _, .nan _ _ _ => exact hb.elim
  | .inf s, .inf t => cases s <;> cases t <;> decide +revert
  | .inf s, .fin t c d => cases s <;> simp [totVal, cmpVal, Val.rank, Val.isZero, Prod.Lex.toLex_lt_toLex]
  | .fin s a b, .inf t => cases t <;> simp [totVal, cmpVal, Val.rank, Val.isZero, Prod.Lex.toLex_lt_toLex]
  | .fin s a b, .fin t c d =>
    have hzero : ratOf s a b = ratOf t c d → (a = 0 ↔ c = 0) := fun h => by rw [← ratOf_eq_zero ha, h, ratOf_eq_zero hb]
    simp only [totVal, cmpVal_fin ha hb, Val.rank, Prod.Lex.toLex_lt_toLex, lt_irrefl, true_and, false_or, Val.isZero, Val.neg?]
    rcases lt_trichotomy (ratOf s a b) (ratOf t c d) with h | h | h
    · simp [h]
    · simp only [h, lt_irrefl, if_false, if_true, true_and, false_or]
      by_cases hc : c = 0
      · have ha0 : a = 0 := (hzero h).mpr hc
        cases s <;> cases t <;> simp [ha0, hc]
      · have ha0 : a ≠ 0 := fun ha0 => hc ((hzero h).mp ha0)
        simp [ha0, hc]
    · simp [h.not_gt, h.ne']

/-! ### The index of the maximum (R291) -/

/-- A later lane takes the place of the best one so far only if it is larger. -/
def largerOf (m : Option (Nat × Val)) (l : Nat × Val) : Option (Nat × Val) :=
  match m with
  | none => some l
  | some x => if totVal x.2 l.2 < 0 then some l else some x
theorem argMax_of_no_nan {ls : List (Nat × Val)} (hn : ∀ l ∈ ls, l.2.isNan = false) : argMax ls = (ls.foldl largerOf none).map (·.1) := by
  have hfind : ls.find? (fun l => l.2.isNan) = none := by simpa using hn
  unfold argMax
  rw [hfind]
  rfl
/-- The order of lanes: by value, and of equal values the lower lane is the larger. -/
def laneRank (l : Nat × Val) : (ℤ ×ₗ ℚ ×ₗ ℤ) ×ₗ ℤ := toLex (l.2.rank, -(l.1 : ℤ))
theorem laneRank_lt_iff {x l : Nat × Val} (h : x.1 < l.1) : laneRank x < laneRank l ↔ x.2.rank < l.2.rank := by
  rw [laneRank, laneRank, Prod.Lex.toLex_lt_toLex, or_iff_left]
  rintro ⟨-, hlt⟩
  dsimp only at hlt
  omega
theorem rank_of_laneRank_le {l m : Nat × Val} (h : laneRank l ≤ laneRank m) : l.2.rank ≤ m.2.rank ∧ (l.1 < m.1 → l.2.rank < m.2.rank) := by
  rcases Prod.Lex.toLex_le_toLex.mp h with hlt | ⟨heq, hle⟩
  · exact ⟨hlt.le, fun _ => hlt⟩
  · refine ⟨heq.le, fun hlt => ?_⟩
    dsimp only at hle
    omega
/-- Of lanes in ascending order the best one is the largest in the order of lanes. -/
theorem foldl_largerOf {ls : List (Nat × Val)} (hs : ls.Pairwise fun x y => x.1 < y.1) (hn : ∀ l ∈ ls, l.2.IsNum) :
    ls.foldl largerOf none = ls.argmax laneRank := by
  induction ls using List.reverseRecOn with
  | nil => rfl
  | append_singleton ls l ih =>
    obtain ⟨hs, -, hlast⟩ := List.pairwise_append.mp hs
    rw [List.foldl_append, ih hs fun x hx => hn x (by simp [hx]), List.argmax_concat]
    cases hm : ls.argmax laneRank with
    | none => rfl
    | some x =>
      have hx : x ∈ ls := List.argmax_mem hm
      have hle : totVal x.2 l.2 < 0 ↔ laneRank x < laneRank l :=
        (totVal_neg_iff (hn x (by simp [hx])) (hn l (by simp))).trans (laneRank_lt_iff (hlast x hx l (by simp))).symm
      simp [largerOf, hle]

/-- INVALID is bit 0 (Table 7.7). -/
theorem flIf_invalid_getLsbD (x : Bool) (b : Nat) : (flIf x flInvalid).getLsbD b = true ↔ b = 0 ∧ x = true := by
  cases x
  · simp [flIf]
  · simp [flIf, flInvalid, eq_comm]

/-- Lane `l` is one of `n` and active. -/
abbrev LaneOn (n : Nat) (on : Nat → Bool) (l : Nat) : Prop := l < n ∧ on l = true
/-- The active lanes below `n` in ascending order, with their values. -/
def activeLanes (n : Nat) (on : Nat → Bool) (f : Nat → Val) : List (Nat × Val) := ((List.range n).filter on).map fun i => (i, f i)

section
variable {n : Nat} {on : Nat → Bool} {f : Nat → Val}

theorem mem_activeLanes {l : Nat × Val} : l ∈ activeLanes n on f ↔ LaneOn n on l.1 ∧ l.2 = f l.1 := by
  obtain ⟨i, v⟩ := l
  simp only [activeLanes, List.mem_map, List.mem_filter, List.mem_range, Prod.mk.injEq]
  constructor
  · rintro ⟨_, h, rfl, rfl⟩
    exact ⟨h, rfl⟩
  · rintro ⟨h, rfl⟩
    exact ⟨i, h, rfl, rfl⟩
theorem activeLanes_ascending : (activeLanes n on f).Pairwise fun x y => x.1 < y.1 :=
  List.pairwise_map.mpr (List.pairwise_lt_range.filter _)
/-- Without an active lane there is no maximum. -/
theorem argMax_none (h : ∀ l, ¬LaneOn n on l) : argMax (activeLanes n on f) = none := by
  have hnil : activeLanes n on f = [] := List.eq_nil_iff_forall_not_mem.mpr fun x hx => h x.1 (mem_activeLanes.mp hx).1
  rw [hnil]
  rfl
/-- The lowest active NaN wins. -/
theorem argMax_nan (h : ∃ l, LaneOn n on l ∧ (f l).isNan = true) : ∃ v, argMax (activeLanes n on f) = some v ∧ LaneOn n on v ∧
    (f v).isNan = true ∧ ∀ l, l < v → LaneOn n on l → ¬(f l).isNan = true := by
  have hfind : (activeLanes n on f).find? (fun l => l.2.isNan) = ((List.range n).find? fun i => on i && (f i).isNan).map fun i => (i, f i) := by
    simp only [activeLanes, List.find?_map, List.find?_filter, Function.comp_def, Bool.decide_and, Bool.decide_eq_true]
  obtain ⟨v, hv⟩ : ∃ v, (List.range n).find? (fun i => on i && (f i).isNan) = some v := by
    obtain ⟨l, ⟨hl, hon⟩, hnan⟩ := h
    exact Option.isSome_iff_exists.mp (List.find?_isSome.mpr ⟨l, by simpa using hl, by simp [hon, hnan]⟩)
  obtain ⟨hnan, hlt, hfirst⟩ := List.find?_range_eq_some.mp hv
  rw [Bool.and_eq_true] at hnan
  refine ⟨v, ?_, ⟨by simpa using hlt, hnan.1⟩, hnan.2, fun l hl hon hn => ?_⟩
  · unfold argMax
    rw [hfind, hv]
    rfl
  · simpa [hon.2, hn] using hfirst l hl
/-- Else the lowest of the largest active lanes wins. -/
theorem argMax_num (hf : ∀ l, (f l).IsNum ∨ (f l).isNan = true) (hon : ∃ l, LaneOn n on l)
    (hn : ∀ l, LaneOn n on l → ¬(f l).isNan = true) :
    ∃ v, argMax (activeLanes n on f) = some v ∧ LaneOn n on v ∧
      ∀ l, LaneOn n on l → totVal (f v) (f l) ≥ 0 ∧ (l < v → totVal (f l) (f v) < 0) := by
  have hnum : ∀ l, LaneOn n on l → (f l).IsNum := fun l hl => (hf l).resolve_right (hn l hl)
  have hmem : ∀ l, LaneOn n on l → (l, f l) ∈ activeLanes n on f := fun l hl => mem_activeLanes.mpr ⟨hl, rfl⟩
  have hmax : argMax (activeLanes n on f) = ((activeLanes n on f).argmax laneRank).map (·.1) := by
    rw [argMax_of_no_nan, foldl_largerOf activeLanes_ascending]
    · intro l hl
      obtain ⟨hl, he⟩ := mem_activeLanes.mp hl
      exact he ▸ hnum _ hl
    · intro l hl
      obtain ⟨hl, he⟩ := mem_activeLanes.mp hl
      simpa [he] using hn _ hl
  cases hm : (activeLanes n on f).argmax laneRank with
  | none =>
    obtain ⟨l, hl⟩ := hon
    have := hmem l hl
    simp [List.argmax_eq_none.mp hm] at this
  | some m =>
    obtain ⟨hv, he⟩ := mem_activeLanes.mp (List.argmax_mem hm)
    refine ⟨m.1, by rw [hmax, hm]; rfl, hv, fun l hl => ?_⟩
    obtain ⟨hle, hlt⟩ := rank_of_laneRank_le (List.le_of_mem_argmax (hmem l hl) hm)
    rw [he] at hle hlt
    exact ⟨not_lt.mp fun h => hle.not_gt ((totVal_neg_iff (hnum _ hv) (hnum l hl)).mp h),
      fun h => (totVal_neg_iff (hnum l hl) (hnum _ hv)).mpr (hlt h)⟩
/-- What VRARGMAX chooses: `z` when no lane is active; else the lowest NaN, or without one the lowest of the largest lanes. -/
theorem argMax_getD (hf : ∀ l, (f l).IsNum ∨ (f l).isNan = true) (z : Nat) :
    let v := (argMax (activeLanes n on f)).getD z
    ((∀ l, ¬LaneOn n on l) → v = z) ∧
      ((∃ l, LaneOn n on l) → LaneOn n on v ∧
        ((∃ l, LaneOn n on l ∧ (f l).isNan = true) → (f v).isNan = true ∧ ∀ l, l < v → LaneOn n on l → ¬(f l).isNan = true) ∧
        ((∀ l, LaneOn n on l → ¬(f l).isNan = true) →
          ∀ l, LaneOn n on l → totVal (f v) (f l) ≥ 0 ∧ (l < v → totVal (f l) (f v) < 0))) := by
  refine ⟨fun h => by rw [argMax_none h]; rfl, fun hon => ?_⟩
  by_cases hnan : ∃ l, LaneOn n on l ∧ (f l).isNan = true
  · obtain ⟨v, hv, hactive, hfirst⟩ := argMax_nan hnan
    rw [hv]
    exact ⟨hactive, fun _ => hfirst, fun hn => absurd hfirst.1 (hn v hactive)⟩
  · have hn : ∀ l, LaneOn n on l → ¬(f l).isNan = true := fun l hl h => hnan ⟨l, hl, h⟩
    obtain ⟨v, hv, hactive, hmax⟩ := argMax_num hf hon hn
    rw [hv]
    exact ⟨hactive, fun h => absurd h hnan, fun _ => hmax⟩
theorem argMax_getD_lt (hf : ∀ l, (f l).IsNum ∨ (f l).isNan = true) {z m : Nat} (hn : n ≤ m) (hz : z < m) :
    (argMax (activeLanes n on f)).getD z < m := by
  obtain ⟨hnone, hsome⟩ := argMax_getD hf z
  by_cases hon : ∃ l, LaneOn n on l
  · exact (hsome hon).1.1.trans_le hn
  · rwa [hnone (not_exists.mp hon)]
theorem activeLanes_any_isSig : ((activeLanes n on f).any fun l => l.2.isSig) = true ↔ ∃ l, LaneOn n on l ∧ (f l).isSig = true := by
  rw [List.any_eq_true]
  constructor
  · rintro ⟨l, hl, hsig⟩
    obtain ⟨hon, he⟩ := mem_activeLanes.mp hl
    exact ⟨l.1, hon, he ▸ hsig⟩
  · rintro ⟨l, hon, hsig⟩
    exact ⟨(l, f l), mem_activeLanes.mpr ⟨hon, rfl⟩, hsig⟩

end

/-! ### Bytes of blocks (R394) -/

theorem vByte_setVByte (v : Vec) {j : Nat} (hj : j < 256) (x k : Nat) : vByte (setVByte v j x) k = if k = j then BitVec.ofNat 8 x else vByte v k := by
  refine BitVec.eq_of_getLsbD_eq fun i hi => ?_
  have hmask : ∀ m, (0xFF : Vec).getLsbD m = decide (m < 8) := fun m => by
    rw [show (0xFF : Vec) = BitVec.ofNat 2048 (2 ^ 8 - 1) from rfl, BitVec.getLsbD_ofNat, Nat.testBit_two_pow_sub_one]
    by_cases hm : m < 8 <;> simp [hm]; omega
  have hval : ∀ m, (BitVec.ofNat 2048 (x % 256)).getLsbD m = (decide (m < 8) && x.testBit m) := fun m => by
    rw [BitVec.getLsbD_ofNat, show 256 = 2 ^ 8 from rfl, Nat.testBit_mod_two_pow]
    by_cases hm : m < 8 <;> simp [hm]; omega
  simp only [vByte, setVByte, BitVec.getLsbD_extractLsb', BitVec.getLsbD_or, BitVec.getLsbD_and, BitVec.getLsbD_not, BitVec.getLsbD_shiftLeft, hmask, hval]
  by_cases hk : k = j
  · subst hk
    have hin : 8 * k + i < 2048 := by omega
    rw [if_pos rfl, BitVec.getLsbD_ofNat]
    simp [hi, hin]
  · have hout : 8 * k + i < 8 * j ∨ ¬8 * k + i - 8 * j < 8 := by omega
    rcases hout with hout | hout <;> simpa [hi, hk, hout] using BitVec.lt_of_getLsbD
theorem vByte_setVBytes_of_not_mem {l : List (Nat × Nat)} {j : Nat} (hl : ∀ p ∈ l, p.1 < 256) (hj : ∀ p ∈ l, p.1 ≠ j) (v : Vec) :
    vByte (setVBytes v l) j = vByte v j := by
  induction l generalizing v with
  | nil => rfl
  | cons p l ih =>
    obtain ⟨hp, hl⟩ := List.forall_mem_cons.mp hl
    obtain ⟨hpj, hj⟩ := List.forall_mem_cons.mp hj
    rw [setVBytes, ih hl hj, vByte_setVByte v hp, if_neg hpj.symm]
/-- A byte that a list of writes names is the one value that the list gives it. -/
theorem vByte_setVBytes_of_mem {l : List (Nat × Nat)} {j x : Nat} (hl : ∀ p ∈ l, p.1 < 256) (hx : (j, x) ∈ l) (hone : ∀ y, (j, y) ∈ l → y = x)
    (v : Vec) : vByte (setVBytes v l) j = BitVec.ofNat 8 x := by
  induction l generalizing v with
  | nil => simp at hx
  | cons p l ih =>
    obtain ⟨hp, htl⟩ := List.forall_mem_cons.mp hl
    rw [setVBytes]
    by_cases hlater : ∃ y, (j, y) ∈ l
    · obtain ⟨y, hy⟩ := hlater
      have hyx := hone y (List.mem_cons_of_mem _ hy)
      exact ih htl (hyx ▸ hy) (fun z hz => hone z (List.mem_cons_of_mem _ hz)) _
    · have hpx : p = (j, x) := ((List.mem_cons.mp hx).resolve_right fun h => hlater ⟨x, h⟩).symm
      subst hpx
      rw [vByte_setVBytes_of_not_mem htl fun q hq (he : q.1 = j) => hlater ⟨q.2, he ▸ hq⟩, vByte_setVByte v hp, if_pos rfl]

theorem mem_blockBytes {b z c : Nat} {cs : List Nat} {p : Nat × Nat} : p ∈ blockBytes b c z cs ↔
    (∃ i, i < 16 ∧ p = (16 * b + i, cs.getD (2 * i) 0 + 16 * cs.getD (2 * i + 1) 0)) ∨ p = (128 + 2 * b, c) ∨ p = (129 + 2 * b, z) := by
  simp [blockBytes, eq_comm]

/-- The bytes of `n` quantised blocks from block `b` on. -/
def groupBytes (b n : Nat) (q : Nat → Nat × Nat × List Nat × Flags) : List (Nat × Nat) :=
  (List.range n).flatMap fun k => blockBytes (b + k) (q k).1 (q k).2.1 (q k).2.2.1

section
variable {b n : Nat} {q : Nat → Nat × Nat × List Nat × Flags}

theorem mem_groupBytes {p : Nat × Nat} : p ∈ groupBytes b n q ↔ ∃ k, k < n ∧ p ∈ blockBytes (b + k) (q k).1 (q k).2.1 (q k).2.2.1 := by
  simp [groupBytes]
theorem groupBytes_lt (hn : b + n ≤ 8) {p : Nat × Nat} (hp : p ∈ groupBytes b n q) : p.1 < 256 := by
  obtain ⟨k, hk, hp⟩ := mem_groupBytes.mp hp
  rcases mem_blockBytes.mp hp with ⟨i, hi, rfl⟩ | rfl | rfl <;> dsimp only <;> omega
/-- What the vector holds at byte `j` of the group: two codes, or a block's scale or special byte (R369). -/
def groupByte (b : Nat) (q : Nat → Nat × Nat × List Nat × Flags) (j : Nat) : Nat :=
  if j < 128 then (q (j / 16 - b)).2.2.1.getD (2 * (j % 16)) 0 + 16 * (q (j / 16 - b)).2.2.1.getD (2 * (j % 16) + 1) 0
  else if j % 2 = 0 then (q ((j - 128) / 2 - b)).1 else (q ((j - 128) / 2 - b)).2.1
theorem groupByte_of_mem (hn : b + n ≤ 8) {p : Nat × Nat} (hp : p ∈ groupBytes b n q) : p.2 = groupByte b q p.1 := by
  obtain ⟨k, hk, hp⟩ := mem_groupBytes.mp hp
  rcases mem_blockBytes.mp hp with ⟨i, hi, rfl⟩ | rfl | rfl
  · have hlow : 16 * (b + k) + i < 128 := by omega
    have hblock : (16 * (b + k) + i) / 16 - b = k := by omega
    have hcode : (16 * (b + k) + i) % 16 = i := by omega
    simp only [groupByte, hlow, hblock, hcode, if_true]
  · have hblock : (128 + 2 * (b + k) - 128) / 2 - b = k := by omega
    rw [groupByte, if_neg (by omega), if_pos (by omega), hblock]
  · have hblock : (129 + 2 * (b + k) - 128) / 2 - b = k := by omega
    rw [groupByte, if_neg (by omega), if_neg (by omega), hblock]
/-- A written byte of the group reads back. -/
theorem vByte_groupBytes (hn : b + n ≤ 8) (v : Vec) {k j x : Nat} (hk : k < n) (hx : (j, x) ∈ blockBytes (b + k) (q k).1 (q k).2.1 (q k).2.2.1) :
    (vByte (setVBytes v (groupBytes b n q)) j).toNat = x % 256 := by
  have hmem := mem_groupBytes.mpr ⟨k, hk, hx⟩
  rw [vByte_setVBytes_of_mem (fun _ => groupBytes_lt hn) hmem fun y hy => (groupByte_of_mem hn hy).trans (groupByte_of_mem hn hmem).symm,
    BitVec.toNat_ofNat]

/-- A v result that holds `n` quantised blocks from block `b` on, the other bytes being those of `old`, with the flags of all blocks. -/
def GroupRes (c : Core) (d : BitVec 6) (e : Word) (b n : Nat) (q : Nat → Nat × Nat × List Nat × Flags) (old : Vec) (fs : List ExeEff) : Prop :=
  ∃ (x : Vec) (f : Flags), fs = c.outV d e x ++ [.flags f] ∧ (∀ j, f.getLsbD j = true ↔ ∃ k, k < n ∧ (q k).2.2.2.getLsbD j = true) ∧
    (∀ k, k < n → (vByte x (128 + 2 * (b + k))).toNat = (q k).1 % 256 ∧ (vByte x (129 + 2 * (b + k))).toNat = (q k).2.1 % 256 ∧
      ∀ i, i < 16 → (vByte x (16 * (b + k) + i)).toNat = ((q k).2.2.1.getD (2 * i) 0 + 16 * (q k).2.2.1.getD (2 * i + 1) 0) % 256) ∧
    ∀ j, j < 256 → (∀ k, k < n → ¬(16 * (b + k) ≤ j ∧ j < 16 * (b + k) + 16) ∧ j ≠ 128 + 2 * (b + k) ∧ j ≠ 129 + 2 * (b + k)) →
      vByte x j = vByte old j
theorem group_res (c : Core) (d : BitVec 6) (e : Word) (hn : b + n ≤ 8) (old : Vec) : GroupRes c d e b n q old
    (c.outF d e (setVBytes old (groupBytes b n q), ((List.range n).map fun k => (q k).2.2.2).foldl (· ||| ·) 0)) := by
  refine ⟨_, _, rfl, fun j => ?flags, fun k hk => ⟨?scale, ?special, fun i hi => ?codes⟩, fun j _ hj => ?rest⟩
  case flags =>
    rw [foldl_or_bit]
    simp
  case scale => exact vByte_groupBytes hn old hk (mem_blockBytes.mpr (.inr (.inl rfl)))
  case special => exact vByte_groupBytes hn old hk (mem_blockBytes.mpr (.inr (.inr rfl)))
  case codes => exact vByte_groupBytes hn old hk (mem_blockBytes.mpr (.inl ⟨i, hi, rfl⟩))
  case rest =>
    refine vByte_setVBytes_of_not_mem (fun _ => groupBytes_lt hn) (fun p hp he => ?_) old
    obtain ⟨k, hk, hp⟩ := mem_groupBytes.mp hp
    obtain ⟨hcodes, hscale, hspecial⟩ := hj k hk
    rcases mem_blockBytes.mp hp with ⟨i, hi, rfl⟩ | rfl | rfl
    · exact hcodes ⟨by omega, by omega⟩
    · exact hscale he.symm
    · exact hspecial he.symm

end

theorem typeCode_beq_zero (fx : BitVec 2) : (fx.toNat == 0) = decide (fx = 0) := by
  simp [BitVec.toNat_eq, beq_eq_decide]
theorem grpBlock_eq (fx : BitVec 2) (j : Nat) : grpBlock fx.toNat j = if fx = 0 then 2 * j else 4 * j := by
  simp [grpBlock, typeCode_beq_zero]
theorem grpVals_eq (fx : BitVec 2) : grpVals fx.toNat = if fx = 0 then 64 else 128 := by
  simp [grpVals, typeCode_beq_zero]

/-! ### The online maximum (R395) -/

theorem omaxScale_fst (a m : Val) : (omaxScale a m).1 = if a = .inf true ∧ m = .inf true then 0x3F800000 else
    (fp32.encode {} (vexp2 (fp32.decode (fp32.encode {} (vsub 0 a m).1).1)).1).1 := by
  by_cases h : a = .inf true ∧ m = .inf true
  · simp [omaxScale, h]
  · rw [omaxScale, if_neg (by simpa using h), if_neg h]

/-! ### The statement -/

/-- Settles O33: each form issues as `ExeComputes.of_exeOp` says, and leaves lanes of a vector and their flags. The scans run as `scanGo_getD` says, VRARGMAX is
`List.argmax` in the order of R291, and the bytes that VQBLK writes are those of disjoint blocks. -/
theorem vectorConversions : Obligations.VectorConversions := by
  unfold Obligations.VectorConversions
  intro h o s
  simp only [← tWidth_eq, ← grpBlock_eq, ← grpVals_eq]
  refine ⟨?vsel, fun fx => ?vcvt, fun fx => ⟨?vrsum, ?vrmax, ?vrmin, ?vscanadd, ?vscanmax, ?vrargmax, ?vscale, ?vqblk, ?vdqblk⟩, ?vomax⟩
  case vsel =>
    refine .of_exeOp (exec_vsel h o s) fun e xs _ => ?_
    have hsel : ∀ j, vLane (xs.getD (if (s.rdP o.c).getLsbD j then 0 else 1) 0) 1 j =
        if (s.rdP o.c).getLsbD j then vLane (xs.getD 0 0) 1 j else vLane (xs.getD 1 0) 1 j := fun j => by split <;> rfl
    simp only [← hsel]
    exact ofLanes_out ..
  case vcvt =>
    intro hf hf5 hg hg5
    exact .of_exeOp (exec_vcvt h fx o s) fun _ _ _ =>
      lanesOf_padded_res _ _ _ (Nat.div_le_div_left (Nat.le_max_right _ _) (fmtBytes_pos _ hg fun h => hg5 (BitVec.eq_of_toNat_eq h))) _
  case vrsum => exact vReduce_computes (exec_vrsum h fx o s)
  case vrmax => exact vReduce_computes (exec_vrmax h fx o s)
  case vrmin => exact vReduce_computes (exec_vrmin h fx o s)
  case vscanadd => exact vScan_computes (exec_vscanadd h fx o s)
  case vscanmax => exact vScan_computes (exec_vscanmax h fx o s)
  case vrargmax =>
    refine .of_exeOp (exec_vrargmax h fx o s) fun e xs _ => ?_
    have hf := fun l => (fmtOf fx.toNat).decode_isNum_or_isNan (vLane (xs.getD 0 0) (tWidth fx.toNat) l)
    have hlanes : 256 / tWidth fx.toNat ≤ 2 ^ 32 := (Nat.div_le_self ..).trans (by decide)
    have hfit := Nat.mod_eq_of_lt (argMax_getD_lt (on := active (s.rdP o.b) (tWidth fx.toNat)) hf hlanes (z := 0xFFFFFFFF) (by decide))
    exact ⟨_, _, hfit ▸ splat_res .., fun b => (flIf_invalid_getLsbD ..).trans (and_congr_right' activeLanes_any_isSig), argMax_getD hf _⟩
  case vscale =>
    have hi := exec_vscale h fx o s
    unfold execVscale vLaneOp at hi
    refine .of_exeOp hi fun e xs _ => ?_
    simp only [getD_map_vLane, beq_iff_eq]
    exact (lanesOf_res ..).congr fun l _ => rfl
  case vqblk =>
    intro hn
    refine .of_exeOp (exec_vqblk h fx o s) fun e xs _ => ?_
    have hold : ∀ j, (if o.d.toNat < 56 then vByte (xs.getD 1 0) j else 0) = vByte (if o.d.toNat < 56 then xs.getD 1 0 else 0) j :=
      fun j => by split <;> simp [vByte]
    simp only [List.flatMap_map, List.map_map, hold]
    exact group_res s.me o.d e hn _
  case vdqblk =>
    refine .of_exeOp (exec_vdqblk h fx o s) fun e xs _ => (lanesOf_res ..).congr fun l _ => ?_
    have hpar : l % 32 % 2 = l % 2 := by omega
    simp only [blockElem, hpar, beq_iff_eq]
    rfl
  case vomax =>
    refine .of_exeOp (exec_vomax h o s) fun e xs _ => ⟨_, _, _, rfl, fun l hl => ?_, fun l hl => ?_⟩
    · rw [vLane_lanesOf (by decide), if_pos hl]
    · rw [vLane_lanesOf (by decide), if_pos hl, omaxScale_fst]
      split <;> rfl

end Sys2Proof.Machine
end

section
/-! PROOFS of the encoding statements (O55, O56): the decoder reads what the encoder lays out, and the encoder lays out what the decoder read. -/

set_option Elab.async false

namespace Sys2Proof.Laws

/-! ### Decode after encode (R87, R299, R300, R307) -/

/-- Every instruction reads back, constructor by constructor. -/
theorem roundTrip (i : Instr) : RoundTrip.Statement i := by
  cases i
  exacts [
    RoundTrip.nop .., RoundTrip.mark .., RoundTrip.ill .., RoundTrip.add .., RoundTrip.sub .., RoundTrip.and .., RoundTrip.or .., RoundTrip.xor ..,
    RoundTrip.andn .., RoundTrip.shl .., RoundTrip.shr .., RoundTrip.sar .., RoundTrip.min .., RoundTrip.max .., RoundTrip.slt .., RoundTrip.seq ..,
    RoundTrip.addi .., RoundTrip.andi .., RoundTrip.ori .., RoundTrip.xori .., RoundTrip.shli .., RoundTrip.shri .., RoundTrip.sari .., RoundTrip.slti ..,
    RoundTrip.mul .., RoundTrip.mulh .., RoundTrip.div .., RoundTrip.rem .., RoundTrip.movi .., RoundTrip.movhi .., RoundTrip.movpc .., RoundTrip.clz ..,
    RoundTrip.ctz .., RoundTrip.popc .., RoundTrip.brev .., RoundTrip.bext .., RoundTrip.bins .., RoundTrip.sel .., RoundTrip.cset .., RoundTrip.ldb ..,
    RoundTrip.ldh .., RoundTrip.ldw .., RoundTrip.ldd .., RoundTrip.stb .., RoundTrip.sth .., RoundTrip.stw .., RoundTrip.std .., RoundTrip.ldra ..,
    RoundTrip.aadd .., RoundTrip.aand .., RoundTrip.aor .., RoundTrip.axor .., RoundTrip.amin .., RoundTrip.amax .., RoundTrip.aswp .., RoundTrip.acas ..,
    RoundTrip.afadd .., RoundTrip.facq .., RoundTrip.frel .., RoundTrip.far .., RoundTrip.beq .., RoundTrip.bne .., RoundTrip.blt .., RoundTrip.bge ..,
    RoundTrip.bz .., RoundTrip.bnz .., RoundTrip.dbnz .., RoundTrip.jmp .., RoundTrip.call .., RoundTrip.jr .., RoundTrip.callr .., RoundTrip.ret ..,
    RoundTrip.setcl .., RoundTrip.inccl .., RoundTrip.setcrd .., RoundTrip.getcrd .., RoundTrip.getcl .., RoundTrip.cut .., RoundTrip.cutq ..,
    RoundTrip.cutw .., RoundTrip.pushq .., RoundTrip.pushqn .., RoundTrip.ringcpy .., RoundTrip.wset .., RoundTrip.tinc .., RoundTrip.tdec ..,
    RoundTrip.trd .., RoundTrip.tset .., RoundTrip.join .., RoundTrip.tdset .., RoundTrip.tdrd .., RoundTrip.tdinv .., RoundTrip.phreg ..,
    RoundTrip.phdrop .., RoundTrip.phsig .., RoundTrip.phwait .., RoundTrip.phsw .., RoundTrip.phexp .., RoundTrip.phrd .., RoundTrip.phase ..,
    RoundTrip.spawn .., RoundTrip.spawnw .., RoundTrip.dwb .., RoundTrip.dinv .., RoundTrip.iinv .., RoundTrip.fetchb .., RoundTrip.ilock ..,
    RoundTrip.iunlk .., RoundTrip.ecfgw .., RoundTrip.ecfgr .., RoundTrip.rdsr .., RoundTrip.wrsr .., RoundTrip.setsr .., RoundTrip.clrsr ..,
    RoundTrip.trap .., RoundTrip.brk .., RoundTrip.tret .., RoundTrip.cbstat .., RoundTrip.cbrst .., RoundTrip.ttrd .., RoundTrip.ttset ..,
    RoundTrip.ttref .., RoundTrip.ttunref .., RoundTrip.pgreq .., RoundTrip.tend .., RoundTrip.ctxnew .., RoundTrip.ctxkill .., RoundTrip.ctxinc ..,
    RoundTrip.ctxsave .., RoundTrip.ctxload .., RoundTrip.rcf .., RoundTrip.pcreate .., RoundTrip.psetq .., RoundTrip.pdestroy .., RoundTrip.chmap ..,
    RoundTrip.slice .., RoundTrip.sbudget .., RoundTrip.fbpop .., RoundTrip.fbrel .., RoundTrip.pgpop .., RoundTrip.fbact .., RoundTrip.frz ..,
    RoundTrip.caprd .., RoundTrip.sleep .., RoundTrip.wfe .., RoundTrip.ldt .., RoundTrip.ldtr .., RoundTrip.stt .., RoundTrip.lds .., RoundTrip.ldsb ..,
    RoundTrip.sts .., RoundTrip.gath .., RoundTrip.scat .., RoundTrip.gadd .., RoundTrip.gsub .., RoundTrip.gmul .., RoundTrip.gshl .., RoundTrip.gshr ..,
    RoundTrip.gand .., RoundTrip.gor .., RoundTrip.gmin .., RoundTrip.gmax .., RoundTrip.gaddi .., RoundTrip.gandi .., RoundTrip.gshli ..,
    RoundTrip.gmovi .., RoundTrip.gmovhi .., RoundTrip.gcl .., RoundTrip.gparm .., RoundTrip.loopAcc .., RoundTrip.sloop .., RoundTrip.bpushAcc ..,
    RoundTrip.bskipAcc .., RoundTrip.cbacq .., RoundTrip.cbrel .., RoundTrip.setclAcc .., RoundTrip.incclAcc .., RoundTrip.dqflush .., RoundTrip.dqeos ..,
    RoundTrip.pgreqAcc .., RoundTrip.vadd .., RoundTrip.vsub .., RoundTrip.vmul .., RoundTrip.vmin .., RoundTrip.vmax .., RoundTrip.vabs ..,
    RoundTrip.vneg .., RoundTrip.vfma .., RoundTrip.vfms .., RoundTrip.vfnma .., RoundTrip.viadd .., RoundTrip.visub .., RoundTrip.vimul ..,
    RoundTrip.vshl .., RoundTrip.vshr .., RoundTrip.vand .., RoundTrip.vor .., RoundTrip.vxor .., RoundTrip.vdot4 .., RoundTrip.vdot2 .., RoundTrip.vdiv ..,
    RoundTrip.vsqrt .., RoundTrip.vrcp .., RoundTrip.vrsq .., RoundTrip.vexp2 .., RoundTrip.vlog2 .., RoundTrip.vtanh .., RoundTrip.vcmp ..,
    RoundTrip.vicmp .., RoundTrip.vsel .., RoundTrip.vcvt .., RoundTrip.vrsum .., RoundTrip.vrmax .., RoundTrip.vrmin .., RoundTrip.vrargmax ..,
    RoundTrip.vscanadd .., RoundTrip.vscanmax .., RoundTrip.vperm .., RoundTrip.vbcast .., RoundTrip.vrot .., RoundTrip.vshuf .., RoundTrip.vmov ..,
    RoundTrip.vmovi .., RoundTrip.pand .., RoundTrip.por .., RoundTrip.pxor .., RoundTrip.pnot .., RoundTrip.pffs .., RoundTrip.pffz .., RoundTrip.pcnt ..,
    RoundTrip.defer .., RoundTrip.drain .., RoundTrip.drainf .., RoundTrip.loopExe .., RoundTrip.bpushExe .., RoundTrip.bskipExe .., RoundTrip.setclExe ..,
    RoundTrip.incclExe .., RoundTrip.vqblk .., RoundTrip.vdqblk .., RoundTrip.vscale .., RoundTrip.vomax .., RoundTrip.viota .., RoundTrip.vclv ..,
    RoundTrip.vfrd .., RoundTrip.vfclr .., RoundTrip.vfclrCtx .., RoundTrip.vrmask .., RoundTrip.qcmp .., RoundTrip.qand .., RoundTrip.qor ..,
    RoundTrip.qnot .., RoundTrip.qsel .., RoundTrip.qcol .., RoundTrip.qfrom .., RoundTrip.qto .., RoundTrip.qgcmp .., RoundTrip.qgsel ..,
    RoundTrip.qgand .., RoundTrip.qlin .., RoundTrip.qrsum .., RoundTrip.qrprod .., RoundTrip.mldb .., RoundTrip.mlds .., RoundTrip.mgo ..,
    RoundTrip.mdrain .., RoundTrip.mdraina .., RoundTrip.minit .., RoundTrip.mswap .., RoundTrip.mwait .., RoundTrip.mstat .., RoundTrip.mdq ..,
    RoundTrip.mclr .., RoundTrip.mlda .., RoundTrip.msel .., RoundTrip.copy .., RoundTrip.copyXor .., RoundTrip.cfill .., RoundTrip.cpush ..,
    RoundTrip.cpushXor .., RoundTrip.cpull .., RoundTrip.cxch .., RoundTrip.ccb .., RoundTrip.tcow .., RoundTrip.tmigDemote .., RoundTrip.tmigPromote ..,
    RoundTrip.tshare .., RoundTrip.tfree .., RoundTrip.cpref .., RoundTrip.csync .., RoundTrip.nsend .., RoundTrip.nrecv .., RoundTrip.nput ..,
    RoundTrip.nget .., RoundTrip.ncset .., RoundTrip.ncrd .., RoundTrip.nctlFlush .., RoundTrip.nctlCancel .., RoundTrip.launch .., RoundTrip.waitv ..,
    RoundTrip.sigvSt .., RoundTrip.sigvAdd .., RoundTrip.sigvOr .., RoundTrip.skipif .., RoundTrip.jump .., RoundTrip.listCall .., RoundTrip.listRet ..,
    RoundTrip.cutreqStop .., RoundTrip.cutreqCancel .., RoundTrip.cutreqResume .., RoundTrip.fence .., RoundTrip.note .., RoundTrip.listEnd ..,
    RoundTrip.fxctlClrcnt .., RoundTrip.fxctlPdis .., RoundTrip.fxctlWena .., RoundTrip.exeCommit .., RoundTrip.mtxPointCommit ..,
    RoundTrip.ccbFillComplete .., RoundTrip.migrationFlip .., RoundTrip.netCompletion .., RoundTrip.atomicResult .., RoundTrip.homeAtomicPerform ..,
    RoundTrip.meshCombine .., RoundTrip.replySplit .., RoundTrip.cowCopyDone .., RoundTrip.shadowFillDone .., RoundTrip.horizonPublish ..,
    RoundTrip.stopAccept .., RoundTrip.stopComplete .., RoundTrip.watchFire .., RoundTrip.hang .., RoundTrip.fbufConsWrite .., RoundTrip.rcfComplete ..,
    RoundTrip.phaserRelease .., RoundTrip.teamPlace .., RoundTrip.teamMigrate .., RoundTrip.taskStart .., RoundTrip.coreReturn ..,
    RoundTrip.launchComplete .., RoundTrip.childQueueMove .., RoundTrip.pendingSpawnAppend .., RoundTrip.deficitWindow .., RoundTrip.classAging ..,
    RoundTrip.sliceEnd .., RoundTrip.waitvReread .., RoundTrip.waitvTimeout .., RoundTrip.submit .., RoundTrip.signal .., RoundTrip.rmaWrite ..,
    RoundTrip.rmaRead .., RoundTrip.attestationRequest .., RoundTrip.uePacketReceive .., RoundTrip.ueRetransmitTimeout .., RoundTrip.ueNack ..,
    RoundTrip.rotorSlotStart .., RoundTrip.tsync .., RoundTrip.slotEndDiscard .., RoundTrip.linkReplay .., RoundTrip.wavelengthWithdraw ..,
    RoundTrip.wavelengthRejoin .., RoundTrip.relayForward .., RoundTrip.ldreq .., RoundTrip.streq .., RoundTrip.atreq .., RoundTrip.atreqCombine ..,
    RoundTrip.push .., RoundTrip.pullreq .., RoundTrip.data .., RoundTrip.ack .., RoundTrip.atresp .., RoundTrip.fabricRetransmit ..,
    RoundTrip.fabricAbandon .., RoundTrip.hotSpareTakeover .., RoundTrip.resetRelease .., RoundTrip.strapWake .., RoundTrip.freeze .., RoundTrip.thaw ..,
    RoundTrip.tapAccess .., RoundTrip.thermalStepDown .., RoundTrip.thermalStepUp .., RoundTrip.thermalHold .., RoundTrip.thermalHoldEnd ..,
    RoundTrip.mgmtMessage .., RoundTrip.performedAtHome .., RoundTrip.dataLanded .., RoundTrip.teamMigrationArrival ..,
    RoundTrip.failedNumberMarkedAbsent .., RoundTrip.debugInterfaceRequest .., RoundTrip.powerLoss ..]

/-- Settles O55: each constructor reads back by its own round trip. -/
theorem decodeEncode : Obligations.DecodeEncode := by
  unfold Obligations.DecodeEncode
  intro i hc
  obtain ⟨word, entry⟩ := roundTrip i
  exact ⟨fun w hw => word w hw hc, fun e he => entry e he hc⟩

/-! ### Encode after decode (R299, R300, R307, R308) -/

theorem ofBool_getLsbD {m : Nat} (x : BitVec m) (k : Nat) : BitVec.ofBool (x.getLsbD k) = x.extractLsb' k 1 := by
  ext i hi
  obtain rfl : i = 0 := by omega
  simp

section
variable {w : BitVec 64} (hb : w.getLsbD 47 = false)
include hb

/-- The fields of Table 13.1 lie side by side and are the whole word. -/
theorem packWord_of_fields : packWord (hdrOf w) (opcOf w) (w.extractLsb' 0 40) = w := by
  have h47 : (0#1) = w.extractLsb' 47 1 := by rw [← ofBool_getLsbD, hb]; rfl
  simp (disch := decide) only [packWord, hdrOf, opcOf, h47, BitVec.extractLsb'_append_extractLsb'_eq_extractLsb']
  exact field_all w
theorem packWord_eq_iff (opc : BitVec 7) (body : BitVec 40) : packWord (hdrOf w) opc body = w ↔ opcOf w = opc ∧ w.extractLsb' 0 40 = body := by
  refine ⟨fun h => ⟨by rw [← opcOf_packWord (hdrOf w) opc body, h], ?_⟩, ?_⟩
  · rw [← field_all body, ← body_packWord (hdrOf w) opc body 0 40 (by decide), h]
  · rintro ⟨rfl, rfl⟩
    exact packWord_of_fields hb

/-! A word of a format is its operands around an opcode and an FN exactly where it holds those. -/

theorem packRR_eq_iff (opc : BitVec 7) (fn : BitVec 5) : packRR (hdrOf w) opc fn (unpackRR w) = w ↔ opcOf w = opc ∧ w.extractLsb' 8 5 = fn := by
  refine ⟨fun h => ⟨by rw [← opcOf_packRR (hdrOf w) opc fn (unpackRR w), h], by rw [← fn_packRR (hdrOf w) opc fn (unpackRR w), h]⟩, ?_⟩
  rintro ⟨rfl, rfl⟩
  refine Eq.trans ?_ (packWord_of_fields hb)
  simp (disch := decide) only [packRR, unpackRR, ofBool_getLsbD, BitVec.extractLsb'_append_extractLsb'_eq_extractLsb']
theorem packRRI_eq_iff (opc : BitVec 7) (fn : BitVec 5) : packRRI (hdrOf w) opc fn (unpackRRI w) = w ↔ opcOf w = opc ∧ w.extractLsb' 8 5 = fn := by
  refine ⟨fun h => ⟨by rw [← opcOf_packRRI (hdrOf w) opc fn (unpackRRI w), h], by rw [← fn_packRRI (hdrOf w) opc fn (unpackRRI w), h]⟩, ?_⟩
  rintro ⟨rfl, rfl⟩
  refine Eq.trans ?_ (packWord_of_fields hb)
  simp (disch := decide) only [packRRI, unpackRRI, ofBool_getLsbD, BitVec.extractLsb'_append_extractLsb'_eq_extractLsb']
theorem packRI_eq_iff (opc : BitVec 7) (fn : BitVec 3) : packRI (hdrOf w) opc fn (unpackRI w) = w ↔ opcOf w = opc ∧ w.extractLsb' 24 3 = fn := by
  refine ⟨fun h => ⟨by rw [← opcOf_packRI (hdrOf w) opc fn (unpackRI w), h], by rw [← fn_packRI (hdrOf w) opc fn (unpackRI w), h]⟩, ?_⟩
  rintro ⟨rfl, rfl⟩
  refine Eq.trans ?_ (packWord_of_fields hb)
  simp (disch := decide) only [packRI, unpackRI, ofBool_getLsbD, BitVec.extractLsb'_append_extractLsb'_eq_extractLsb']
theorem packBR_eq_iff (opc : BitVec 7) (fn : BitVec 3) : packBR (hdrOf w) opc fn (unpackBR w) = w ↔ opcOf w = opc ∧ w.extractLsb' 37 3 = fn := by
  refine ⟨fun h => ⟨by rw [← opcOf_packBR (hdrOf w) opc fn (unpackBR w), h], by rw [← fn_packBR (hdrOf w) opc fn (unpackBR w), h]⟩, ?_⟩
  rintro ⟨rfl, rfl⟩
  refine Eq.trans ?_ (packWord_of_fields hb)
  simp (disch := decide) only [packBR, unpackBR, ofBool_getLsbD, BitVec.extractLsb'_append_extractLsb'_eq_extractLsb']
theorem packJM_eq_iff (opc : BitVec 7) (fn : BitVec 2) : packJM (hdrOf w) opc fn (unpackJM w) = w ↔ opcOf w = opc ∧ w.extractLsb' 38 2 = fn := by
  refine ⟨fun h => ⟨by rw [← opcOf_packJM (hdrOf w) opc fn (unpackJM w), h], by rw [← fn_packJM (hdrOf w) opc fn (unpackJM w), h]⟩, ?_⟩
  rintro ⟨rfl, rfl⟩
  refine Eq.trans ?_ (packWord_of_fields hb)
  simp (disch := decide) only [packJM, unpackJM, BitVec.extractLsb'_append_extractLsb'_eq_extractLsb']
theorem packTN_eq_iff (opc : BitVec 7) (fn : BitVec 5) : packTN (hdrOf w) opc fn (unpackTN w) = w ↔ opcOf w = opc ∧ w.extractLsb' 12 5 = fn := by
  refine ⟨fun h => ⟨by rw [← opcOf_packTN (hdrOf w) opc fn (unpackTN w), h], by rw [← fn_packTN (hdrOf w) opc fn (unpackTN w), h]⟩, ?_⟩
  rintro ⟨rfl, rfl⟩
  refine Eq.trans ?_ (packWord_of_fields hb)
  simp (disch := decide) only [packTN, unpackTN, ofBool_getLsbD, BitVec.extractLsb'_append_extractLsb'_eq_extractLsb']
theorem packMG_eq_iff (opc : BitVec 7) (fn : BitVec 3) : packMG (hdrOf w) opc fn (unpackMG w) = w ↔ opcOf w = opc ∧ w.extractLsb' 8 3 = fn := by
  refine ⟨fun h => ⟨by rw [← opcOf_packMG (hdrOf w) opc fn (unpackMG w), h], by rw [← fn_packMG (hdrOf w) opc fn (unpackMG w), h]⟩, ?_⟩
  rintro ⟨rfl, rfl⟩
  refine Eq.trans ?_ (packWord_of_fields hb)
  simp (disch := decide) only [packMG, unpackMG, BitVec.extractLsb'_append_extractLsb'_eq_extractLsb']
theorem packCP_eq_iff (opc : BitVec 7) (fn : BitVec 4) : packCP (hdrOf w) opc fn (unpackCP w) = w ↔ opcOf w = opc ∧ w.extractLsb' 24 4 = fn := by
  refine ⟨fun h => ⟨by rw [← opcOf_packCP (hdrOf w) opc fn (unpackCP w), h], by rw [← fn_packCP (hdrOf w) opc fn (unpackCP w), h]⟩, ?_⟩
  rintro ⟨rfl, rfl⟩
  refine Eq.trans ?_ (packWord_of_fields hb)
  simp (disch := decide) only [packCP, unpackCP, BitVec.extractLsb'_append_extractLsb'_eq_extractLsb']
theorem packSY_eq_iff (opc : BitVec 7) (fn : BitVec 4) : packSY (hdrOf w) opc fn (unpackSY w) = w ↔ opcOf w = opc ∧ w.extractLsb' 12 4 = fn := by
  refine ⟨fun h => ⟨by rw [← opcOf_packSY (hdrOf w) opc fn (unpackSY w), h], by rw [← fn_packSY (hdrOf w) opc fn (unpackSY w), h]⟩, ?_⟩
  rintro ⟨rfl, rfl⟩
  refine Eq.trans ?_ (packWord_of_fields hb)
  simp (disch := decide) only [packSY, unpackSY, ofBool_getLsbD, BitVec.extractLsb'_append_extractLsb'_eq_extractLsb']

end

/-! An FN under a mask, and the modifier beside it, are the whole FN. -/

theorem fn_7 : ∀ x k : BitVec 5, x &&& 7 = k → x = k ||| (x.extractLsb' 3 2).setWidth 5 <<< 3 := by decide
theorem fn_19 : ∀ x k : BitVec 5, x &&& 19 = k → x = k ||| (x.extractLsb' 2 2).setWidth 5 <<< 2 := by decide
theorem fn_24 : ∀ x k : BitVec 5, x &&& 24 = k → x = k ||| (x.extractLsb' 0 3).setWidth 5 <<< 0 := by decide
theorem fn_28 : ∀ x k : BitVec 5, x &&& 28 = k → x = k ||| (x.extractLsb' 0 2).setWidth 5 <<< 0 := by decide
theorem fn_3 : ∀ x k : BitVec 3, x &&& 3 = k → x = k ||| (x.extractLsb' 2 1).setWidth 3 <<< 2 := by decide
theorem fn_6 : ∀ x k : BitVec 3, x &&& 6 = k → x = k ||| (x.extractLsb' 0 1).setWidth 3 <<< 0 := by decide

theorem fn_5 : ∀ x : BitVec 5, x = 0 ||| (x.extractLsb' 0 5).setWidth 5 <<< 0 := by decide
theorem fn_0 : ∀ x : BitVec 3, x = 0 ||| (x.extractLsb' 0 3).setWidth 3 <<< 0 := by decide

/-- Whatever is read of a word encodes as it. -/
def Encodes (w : BitVec 64) (i : Option Instr) : Prop := ∀ j, i = some j → j.encode = some w
theorem encodes_none (w : BitVec 64) : Encodes w none := by simp [Encodes]
theorem encodes_some {w : BitVec 64} {i : Instr} (h : i.encode = some w) : Encodes w (some i) := by simpa [Encodes] using h
theorem Encodes.ite {w : BitVec 64} {n : Nat} {x k : BitVec n} {i : Instr} {j : Option Instr} (hi : x = k → i.encode = some w) (hj : Encodes w j) :
    Encodes w (if x == k then some i else j) := by
  split
  · exact encodes_some (hi (eq_of_beq ‹_›))
  · exact hj

/-- Each opcode group (R307) reads a form where the word holds its opcode and its FN, and the encoder lays out the same two around the same operands. The cases
stand together by format; case `h_k` is that of opcode `k - 3`. -/
theorem parseWord_encodes {w : BitVec 64} (hb : w.getLsbD 47 = false) : Encodes w (parseWord w) := by
  unfold parseWord
  split
  case h_1 h | h_2 h =>
    exact .ite (fun hz => congrArg some ((packWord_eq_iff hb ..).mpr ⟨BitVec.eq_of_toNat_eq h, hz⟩)) (encodes_none w)
  case h_3 => exact encodes_some rfl
  case h_129 => exact encodes_none w
  case h_4 h | h_6 h | h_8 h | h_9 h | h_12 h | h_13 h | h_18 h | h_22 h | h_56 h | h_70 h | h_72 h | h_74 h | h_80 h | h_81 h | h_82 h | h_87 h | h_88 h |
    h_89 h | h_90 h | h_94 h | h_95 h | h_97 h | h_98 h =>
    simp only [parse01, parse03, parse05, parse06, parse09, parse0A, parse0F, parse13, parse35, parse43, parse45, parse47, parse4D, parse4E, parse4F, parse54,
      parse55, parse56, parse57, parse5B, parse5C, parse5E, parse5F]
    repeat refine .ite (fun hf => congrArg some ((packRR_eq_iff hb ..).mpr ⟨BitVec.eq_of_toNat_eq h, hf⟩)) ?_
    exact encodes_none w
  case h_5 h | h_7 h | h_58 h | h_66 h =>
    simp only [parse02, parse04, parse37, parse3F]
    repeat refine .ite (fun hf => congrArg some ((packRI_eq_iff hb ..).mpr ⟨BitVec.eq_of_toNat_eq h, hf⟩)) ?_
    exact encodes_none w
  case h_14 h | h_20 h | h_21 h | h_23 h | h_24 h | h_25 h | h_26 h | h_27 h | h_28 h | h_29 h | h_30 h | h_31 h | h_32 h | h_33 h | h_34 h | h_35 h |
    h_36 h | h_37 h | h_38 h | h_39 h | h_40 h | h_42 h | h_43 h | h_44 h | h_45 h | h_46 h | h_47 h | h_48 h | h_49 h | h_50 h | h_123 h | h_124 h |
    h_125 h | h_126 h | h_127 h =>
    simp only [parse0B, parse11, parse12, parse14, parse15, parse16, parse17, parse18, parse19, parse1A, parse1B, parse1C, parse1D, parse1E, parse1F, parse20,
      parse21, parse22, parse23, parse24, parse25, parse27, parse28, parse29, parse2A, parse2B, parse2C, parse2D, parse2E, parse2F, parse78, parse79,
      parse7A, parse7B, parse7C]
    repeat refine .ite (fun hf => congrArg some ((packSY_eq_iff hb ..).mpr ⟨BitVec.eq_of_toNat_eq h, hf⟩)) ?_
    exact encodes_none w
  case h_16 h | h_19 h =>
    simp only [parse0D, parse10]
    repeat refine .ite (fun hf => congrArg some ((packBR_eq_iff hb ..).mpr ⟨BitVec.eq_of_toNat_eq h, hf⟩)) ?_
    exact encodes_none w
  case h_17 h =>
    unfold parse0E
    repeat refine .ite (fun hf => congrArg some ((packJM_eq_iff hb ..).mpr ⟨BitVec.eq_of_toNat_eq h, hf⟩)) ?_
    exact encodes_none w
  case h_41 h | h_51 h | h_52 h | h_55 h | h_65 h =>
    simp only [parse26, parse30, parse31, parse34, parse3E]
    repeat refine .ite (fun hf => congrArg some ((packTN_eq_iff hb ..).mpr ⟨BitVec.eq_of_toNat_eq h, hf⟩)) ?_
    exact encodes_none w
  case h_53 h | h_54 h | h_57 h | h_61 h | h_62 h | h_63 h | h_64 h | h_84 h | h_85 h =>
    simp only [parse32, parse33, parse36, parse3A, parse3B, parse3C, parse3D, parse51, parse52]
    repeat refine .ite (fun hf => congrArg some ((packRRI_eq_iff hb ..).mpr ⟨BitVec.eq_of_toNat_eq h, hf⟩)) ?_
    exact encodes_none w
  case h_99 h | h_100 h | h_101 h | h_102 h | h_103 h | h_104 h | h_105 h | h_106 h | h_107 h | h_108 h | h_109 h | h_110 h =>
    simp only [parse60, parse61, parse62, parse63, parse64, parse65, parse66, parse67, parse68, parse69, parse6A, parse6B]
    repeat refine .ite (fun hf => congrArg some ((packMG_eq_iff hb ..).mpr ⟨BitVec.eq_of_toNat_eq h, hf⟩)) ?_
    exact encodes_none w
  case h_111 h | h_112 h | h_113 h | h_114 h | h_115 h | h_116 h | h_117 h | h_118 h | h_119 h | h_120 h | h_121 h | h_122 h =>
    simp only [parse6C, parse6D, parse6E, parse6F, parse70, parse71, parse72, parse73, parse74, parse75, parse76, parse77]
    repeat refine .ite (fun hf => congrArg some ((packCP_eq_iff hb ..).mpr ⟨BitVec.eq_of_toNat_eq h, hf⟩)) ?_
    exact encodes_none w
  case h_67 h | h_68 h | h_69 h | h_71 h | h_76 h | h_77 h | h_78 h | h_86 h | h_93 h =>
    simp only [parse40, parse41, parse42, parse44, parse49, parse4A, parse4B, parse53, parse5A]
    repeat refine .ite (fun hf => congrArg some ((packRR_eq_iff hb ..).mpr ⟨BitVec.eq_of_toNat_eq h, fn_7 _ _ hf⟩)) ?_
    exact encodes_none w
  case h_91 h =>
    unfold parse58
    repeat refine .ite (fun hf => congrArg some ((packRR_eq_iff hb ..).mpr ⟨BitVec.eq_of_toNat_eq h, fn_28 _ _ hf⟩)) ?_
    exact encodes_none w
  case h_10 h | h_11 h =>
    simp only [parse07, parse08]
    repeat refine .ite (fun hf => congrArg some ((packRI_eq_iff hb ..).mpr ⟨BitVec.eq_of_toNat_eq h, fn_3 _ _ hf⟩)) ?_
    exact encodes_none w
  case h_60 h =>
    unfold parse39
    repeat refine .ite (fun hf => congrArg some ((packRI_eq_iff hb ..).mpr ⟨BitVec.eq_of_toNat_eq h, fn_6 _ _ hf⟩)) ?_
    exact encodes_none w
  case h_15 h =>
    unfold parse0C
    iterate 2 refine .ite (fun hf => congrArg some ((packBR_eq_iff hb ..).mpr ⟨BitVec.eq_of_toNat_eq h, hf⟩)) ?_
    iterate 2 refine .ite (fun hf => congrArg some ((packBR_eq_iff hb ..).mpr ⟨BitVec.eq_of_toNat_eq h, fn_3 _ _ hf⟩)) ?_
    exact encodes_none w
  case h_92 h =>
    unfold parse59
    iterate 2 refine .ite (fun hf => congrArg some ((packRR_eq_iff hb ..).mpr ⟨BitVec.eq_of_toNat_eq h, fn_19 _ _ hf⟩)) ?_
    refine .ite (fun hf => congrArg some ((packRR_eq_iff hb ..).mpr ⟨BitVec.eq_of_toNat_eq h, hf⟩)) ?_
    exact encodes_none w
  case h_96 h =>
    unfold parse5D
    refine .ite (fun hf => congrArg some ((packRR_eq_iff hb ..).mpr ⟨BitVec.eq_of_toNat_eq h, fn_19 _ _ hf⟩)) ?_
    iterate 2 refine .ite (fun hf => congrArg some ((packRR_eq_iff hb ..).mpr ⟨BitVec.eq_of_toNat_eq h, hf⟩)) ?_
    exact encodes_none w
  case h_79 h =>
    unfold parse4C
    refine .ite (fun hf => congrArg some ((packRR_eq_iff hb ..).mpr ⟨BitVec.eq_of_toNat_eq h, hf⟩)) ?_
    refine .ite (fun hf => congrArg some ((packRRI_eq_iff hb ..).mpr ⟨BitVec.eq_of_toNat_eq h, hf⟩)) ?_
    exact encodes_none w
  case h_73 h =>
    unfold parse46
    refine .ite (fun hf => congrArg some ((packRR_eq_iff hb ..).mpr ⟨BitVec.eq_of_toNat_eq h, fn_24 _ _ hf⟩)) ?_
    exact encodes_some (congrArg some ((packRR_eq_iff hb ..).mpr ⟨BitVec.eq_of_toNat_eq h, fn_5 _⟩))
  case h_75 h =>
    unfold parse48
    exact encodes_some (congrArg some ((packRR_eq_iff hb ..).mpr ⟨BitVec.eq_of_toNat_eq h, fn_5 _⟩))
  case h_59 h =>
    unfold parse38
    exact encodes_some (congrArg some ((packRI_eq_iff hb ..).mpr ⟨BitVec.eq_of_toNat_eq h, fn_0 _⟩))
  case h_83 h =>
    unfold parse50
    exact encodes_some (congrArg some ((packRI_eq_iff hb ..).mpr ⟨BitVec.eq_of_toNat_eq h, fn_0 _⟩))
  case h_128 h =>
    unfold parse7D
    refine .ite (fun hf => ?_) (encodes_none w)
    have hw := (packSY_eq_iff hb 0x7D _).mpr ⟨BitVec.eq_of_toNat_eq h, hf⟩
    split <;> exact congrArg some hw

/-- What `decodeFor` accepts beside ILL: a word without bit 47, of an opcode that the engine decodes, whose group reads a well-formed form (Table 13.16). -/
theorem decodeFor_ok {eng : Eng} {w : BitVec 64} {i : Instr} (h : decodeFor eng w = .ok i) :
    w.getLsbD 47 = false ∧ ((opcOf w).toNat = 0x7F ∧ i = .ill w ∨ decodes eng (opcOf w).toNat = true ∧ parseWord w = some i ∧ i.check = none) := by
  unfold decodeFor at h
  split at h
  · cases h
  next hb =>
  refine ⟨by simpa using hb, ?_⟩
  split at h
  next ho => exact .inl ⟨by simpa using ho, by cases h; rfl⟩
  split at h
  · cases h
  next hd =>
  split at h
  · cases h
  next hp =>
  split at h
  next hc => cases h; exact .inr ⟨by simpa using hd, hp, hc⟩
  · cases h

/-- Settles O56: the word of ILL is the instruction itself, and any other word is the encoding of what its group reads. -/
theorem encodeDecode : Obligations.EncodeDecode := by
  unfold Obligations.EncodeDecode
  intro eng w i h
  obtain ⟨hb, ⟨ho, rfl⟩ | ⟨hd, hp, hc⟩⟩ := decodeFor_ok h
  · exact ⟨rfl, .inl ho⟩
  · exact ⟨parseWord_encodes hb i hp, .inr ⟨hc, hd⟩⟩

end Sys2Proof.Laws
end


section
/-! PROOFS of the decoding statements (O54, O57): words of the spec's tables, and the tests of Table 13.16. -/

set_option Elab.async false

open Sys2Proof Sys2Proof.Machine

namespace Sys2Proof.Machine

/-- Settles O54: the decoder computes on each of the seven words. -/
theorem decodeWords : Obligations.DecodeWords := by
  unfold Obligations.DecodeWords
  refine ⟨?ldw, ?bnz, ?inccl, ?lds, ?vfma, ?mgo, ?cpush⟩ <;> decide +kernel

/-! ### The tests of Table 13.16, in their order -/

section
variable {s : State} {n : Nat} {eng : Eng} {w : Word}

theorem decodeOn_bit47 (hb : w.getLsbD 47 = true) : s.decodeOn n eng w = .inr 0x01 := by
  simp [State.decodeOn, hb, fIllegal]
theorem decodeOn_mismatch (hb : w.getLsbD 47 = false) (h : ¬((opcOf w).toNat = 0x7F ∨ decodes eng (opcOf w).toNat = true)) :
    s.decodeOn n eng w = .inr 0x02 := by
  simp_all [State.decodeOn, fMismatch]
theorem decodeOn_priv (hb : w.getLsbD 47 = false) (h : (opcOf w).toNat = 0x7F ∨ decodes eng (opcOf w).toNat = true)
    (hp : 0x28 ≤ (opcOf w).toNat ∧ (opcOf w).toNat ≤ 0x2F ∧ n ≠ 256) : s.decodeOn n eng w = .inr 0x14 := by
  have h7 : (opcOf w).toNat ≠ 0x7F := by omega
  simp_all [State.decodeOn, fPriv, e0]
/-- Past the tests of its opcode, the word is what its fields and its guard say. -/
theorem decodeOn_opcode (hb : w.getLsbD 47 = false) (h : (opcOf w).toNat = 0x7F ∨ decodes eng (opcOf w).toNat = true)
    (hp : ¬(0x28 ≤ (opcOf w).toNat ∧ (opcOf w).toNat ≤ 0x2F ∧ n ≠ 256)) : s.decodeOn n eng w =
      if (opcOf w).toNat ≠ 0x7F ∧ (s.core n).hasProfile (opcOf w).toNat = false then .inr 0x01
      else match decodeFor eng w with
        | .error _ => .inr 0x01
        | .ok i => if ((s.core n).eng eng).guardBad w then .inr 0x01 else .inl i := by
  have hm : ((opcOf w).toNat != 0x7F && !decodes eng (opcOf w).toNat) = false := by rcases h with h | h <;> simp [h]
  have hq : (0x28 ≤ (opcOf w).toNat && (opcOf w).toNat ≤ 0x2F && n != e0) = false := by simpa [e0] using hp
  unfold State.decodeOn
  simp only [hb, hm, hq, Bool.false_eq_true, if_false]
  exact if_congr (by simp) rfl rfl

theorem runWord_of_fault {code : BitVec 8} (h : s.decodeOn n eng w = .inr code) (slot : BitVec 16) : s.runWord n eng w slot =
    .inr (s.raise n eng code w (if eng = .cc then ccE s 0 else maxW ((s.core n).eng eng).elast ((s.core n).eng eng).crd) true slot) := by
  simp [State.runWord, h]
theorem runWord_of_instr {i : Instr} (h : s.decodeOn n eng w = .inl i) (slot : BitVec 16) : s.runWord n eng w slot = .inl (i, s) := by
  simp [State.runWord, h]
end

/-- Settles O57: `decodeOn` takes the tests in this order, and `runWord` raises the fault of the first that fails. -/
theorem decodeTests : Obligations.DecodeTests := by
  unfold Obligations.DecodeTests
  intro s n eng w slot opc fault here priv
  have faults {code : BitVec 8} (h : s.decodeOn n eng w = .inr code) : fault code := ⟨h, runWord_of_fault h slot⟩
  refine ⟨fun hb => faults (decodeOn_bit47 hb), fun hb hh => faults (decodeOn_mismatch hb hh), fun hb hh hp => faults (decodeOn_priv hb hh hp),
    fun hb hh hp h7 hf => faults ?profile, fun hb hh hp hf => ⟨fun e he => faults ?fields, fun i hi => ⟨fun hg => faults ?guard, fun hg => ?runs⟩⟩⟩
  case profile => rw [decodeOn_opcode hb hh hp, if_pos ⟨h7, hf⟩]
  all_goals
    have hprof : ¬(opc ≠ 0x7F ∧ (s.core n).hasProfile opc = false) := by rcases hf with hf | hf <;> simp [hf]
    have hd := (decodeOn_opcode (s := s) hb hh hp).trans (if_neg hprof)
  case fields => simpa [he] using hd
  case guard => simpa [hi, hg] using hd
  case runs =>
    have hr : s.decodeOn n eng w = .inl i := by simpa [hi, hg] using hd
    exact ⟨hr, runWord_of_instr hr slot⟩

end Sys2Proof.Machine
end

section
/-! PROOFS of the statements about reset and the step (O53, O58): the values of the initial state, and what a scheduled move runs. -/

set_option Elab.async false

open Sys2Proof Sys2Proof.Machine

namespace Sys2Proof.Machine

/-- Settles O53: the reset state lists nothing, so that every register, port and context reads as its default. -/
theorem resetState : Obligations.ResetState := by
  unfold Obligations.ResetState
  refine ⟨rfl, List.nodup_nil, rfl, rfl, rfl, rfl, fun p => ⟨rfl, rfl, rfl, rfl⟩, fun d => rfl, fun n => ⟨rfl, rfl, rfl, rfl, rfl, fun eng => ?_⟩,
    fun cid => ⟨rfl, rfl, rfl⟩⟩
  cases eng <;> exact ⟨rfl, rfl⟩

/-! ### A scheduled move (R92, R164, R170) -/

theorem step_idle {s : State} (h : s.sched = []) : step s = .next (s.tick 1 1) := by
  simp [step, h]
/-! The head of the schedule moves, in the state that its clocks leave. -/

theorem step_inl {s t : State} {x : Sched} {xs : List Sched} {i : Instr} (h : s.sched = x :: xs)
    (hn : (({ s with sched := xs } : State).tick x.dt x.dg).next x.who = .inl (i, t)) : step s = exec i t := by
  simp only [step, h, hn]
theorem step_inr {s t : State} {x : Sched} {xs : List Sched} (h : s.sched = x :: xs)
    (hn : (({ s with sched := xs } : State).tick x.dt x.dg).next x.who = .inr t) : step s = .next t := by
  simp only [step, h, hn]

/-! ### The next word of an engine (R164 to R166, R308, R421) -/

/-- What engine `eng` of a core runs next, once it may act and its turn has come. -/
noncomputable def State.wordNext (s : State) (n : Nat) : Eng → (Instr × State) ⊕ State
  | .cc => s.ccNext n
  | .mtx => s.mtxNext n
  | eng => s.ringWordNext n eng
/-- The move of an engine from the state in which it is the one that moves. -/
noncomputable def State.engNext (s : State) (n : Nat) (eng : Eng) : (Instr × State) ⊕ State :=
  if !s.mayAct n eng then .inr s else
  match s.waitRetire n eng with
  | some t => .inr t
  | none => if !(s.core n).mayTest s.cycle eng then .inr s else (s.takeTurn n eng).wordNext n eng

/-- Whether a test of Table 13.16 fails. -/
def failsDecode (x : Instr ⊕ BitVec 8) : Bool :=
  match x with
  | .inl _ => false
  | .inr _ => true
theorem failsDecode_eq (x : Instr ⊕ BitVec 8) : failsDecode x = !x.isLeft := by cases x <;> rfl
/-- The oldest ready word that passes, after the word at HEAD has passed (R421). -/
theorem mtxNext_eq (s : State) (n : Nat) : s.mtxNext n =
    let c := s.core n
    let r := c.mtx.ring
    let bad (p : BitVec 16) : Bool := failsDecode (s.decodeOn n .mtx (c.ringWord .mtx p))
    if r.head != r.tail && bad r.head then s.runWord n .mtx (c.ringWord .mtx r.head) r.head
    else match (c.mtxReadies.filter fun p => c.mtxPopMet p && !bad p).head? with
      | some p => s.runWord n .mtx (c.ringWord .mtx p) p
      | none => .inr s := rfl

section
variable {s : State} {n : Nat} {eng : Eng}

theorem selfClear_of_unparked (hp : ((s.core n).eng eng).park = none) : s.selfClear n eng = s := by
  simp [State.selfClear, hp]
theorem coreNext_eq_engNext (s : State) (n : Nat) (eng : Eng) :
    let u : State := { s with cur := n, curEng := eng }
    s.coreNext n eng = (if u.pstate == .running then u.selfClear n eng else u).engNext n eng := by
  cases eng <;> rfl
theorem coreNext_of_unparked (hp : ((s.core n).eng eng).park = none) :
    s.coreNext n eng = ({ s with cur := n, curEng := eng } : State).engNext n eng := by
  have hu : ((({ s with cur := n, curEng := eng } : State).core n).eng eng).park = none := hp
  rw [coreNext_eq_engNext, selfClear_of_unparked hu, ite_self]

theorem ccNext_fetched {w : Word} {rest : List (Word × Word)} {i : Instr} (hf : (s.core n).fetched = ((s.core n).pc, w) :: rest)
    (hd : s.decodeOn n .cc w = .inl i) : s.ccNext n = .inl (i, s) := by
  simp [State.ccNext, State.fetchPc, hf, runWord_of_instr hd]
theorem ccNext_refused {f : BitVec 8} (hf : (s.core n).fetched = []) (ha : (s.core n).pc.toNat % 8 = 0)
    (hk : s.coreKeys n (s.core n).pc 8 .x = .inr f) : s.ccNext n = .inr (s.raise n .cc f (s.core n).pc (ccE s 0) true 0) := by
  simp [State.ccNext, State.fetchPc, hf, State.fetchAt, ha, hk]
/-- A line that no way holds fills one (R165). -/
theorem fetchAt_fills {a : Word} {ks : List Nat} (ha : a.toNat % 8 = 0) (hk : s.coreKeys n a 8 .x = .inl ks) (hp : s.anyPoison ks = false)
    (hm : 4 ≤ icFind (s.core n).icache (a.toNat / 64 * 64)) : s.fetchAt n a =
      .inl (bitsOf 64 (ks.map s.byte), s.modCore n fun d => { d with
        icache := (s.core n).icache.set {} (icSet (a.toNat / 64 * 64) * 4 + s.fillWay (s.core n).icache (a.toNat / 64 * 64)) {
          addr := a.toNat / 64 * 64 / 64, valid := true, data := s.lineData n (a.toNat / 64 * 64),
          locked := ((s.core n).icache.get {} (icSet (a.toNat / 64 * 64) * 4 + s.fillWay (s.core n).icache (a.toNat / 64 * 64))).locked } }) := by
  have ha' : (a.toNat % 8 != 0) = false := by simp [ha]
  have hmiss : ¬icFind (s.core n).icache (a.toNat / 64 * 64) < 4 := by omega
  unfold State.fetchAt
  simp only [ha', hk, hp, hmiss, decide_false, Bool.false_and, Bool.false_eq_true, if_false]
theorem ccNext_fills {t : State} {w : Word} {i : Instr} (hf : (s.core n).fetched = []) (ha : s.fetchAt n (s.core n).pc = .inl (w, t)) :
    let z := t.modCore n fun d => { d with fetched := [((s.core n).pc, w)] }
    z.decodeOn n .cc w = .inl i → s.ccNext n = .inl (i, z) := by
  intro z hd
  simp only [State.ccNext, State.fetchPc, hf, ha]
  exact runWord_of_instr hd 0
theorem ringWordNext_head {i : Instr} (hr : ((s.core n).eng eng).ring.head ≠ ((s.core n).eng eng).ring.tail)
    (hd : s.decodeOn n eng ((s.core n).ringWord eng ((s.core n).eng eng).ring.head) = .inl i) : s.ringWordNext n eng = .inl (i, s) := by
  simp [State.ringWordNext, hr, runWord_of_instr hd]
theorem ringWordNext_empty (hr : ((s.core n).eng eng).ring.head = ((s.core n).eng eng).ring.tail) : s.ringWordNext n eng = .inr s := by
  simp [State.ringWordNext, hr]
theorem mtxNext_ready {p : BitVec 16} {i : Instr}
    (hp : ((s.core n).mtxReadies.filter fun p => (s.core n).mtxPopMet p && (s.decodeOn n .mtx ((s.core n).ringWord .mtx p)).isLeft).head? = some p)
    (hh : (s.core n).mtx.ring.head ≠ (s.core n).mtx.ring.tail → (s.decodeOn n .mtx ((s.core n).ringWord .mtx (s.core n).mtx.ring.head)).isLeft = true)
    (hd : s.decodeOn n .mtx ((s.core n).ringWord .mtx p) = .inl i) : s.mtxNext n = .inl (i, s) := by
  have hhead : ((s.core n).mtx.ring.head != (s.core n).mtx.ring.tail &&
      !(s.decodeOn n .mtx ((s.core n).ringWord .mtx (s.core n).mtx.ring.head)).isLeft) = false := by simpa using hh
  rw [mtxNext_eq]
  simp only [failsDecode_eq, hhead, Bool.not_not, hp, Bool.false_eq_true, if_false]
  exact runWord_of_instr hd p

/-- Of an engine that may act, a waiting word goes first, then the word that `wordNext` finds. -/
theorem engNext_blocked (h : s.mayAct n eng = false) : s.engNext n eng = .inr s := by simp [State.engNext, h]
theorem engNext_retires {t : State} (h : s.mayAct n eng = true) (hw : s.waitRetire n eng = some t) : s.engNext n eng = .inr t := by
  simp [State.engNext, h, hw]
theorem engNext_passed (h : s.mayAct n eng = true) (hw : s.waitRetire n eng = none) (ht : (s.core n).mayTest s.cycle eng = false) :
    s.engNext n eng = .inr s := by simp [State.engNext, h, hw, ht]
theorem engNext_runs (h : s.mayAct n eng = true) (hw : s.waitRetire n eng = none) (ht : (s.core n).mayTest s.cycle eng = true) :
    s.engNext n eng = (s.takeTurn n eng).wordNext n eng := by simp [State.engNext, h, hw, ht]
theorem wordNext_ring (s : State) (n : Nat) (hc : eng ≠ .cc) (hm : eng ≠ .mtx) : s.wordNext n eng = s.ringWordNext n eng := by
  cases eng with
  | cc => exact absurd rfl hc
  | mtx => exact absurd rfl hm
  | _ => rfl
/-- The turn that an engine takes is all that it changes of its core. -/
theorem core_takeTurn (s : State) (n : Nat) (eng : Eng) : (s.takeTurn n eng).core n =
    { s.core n with turn := (s.cycle + 1, if eng == .mtx then eng.num else eng.num + 1) } := s.core_modCore_self ..

end

theorem mtxReadies_turn (c : Core) (x : Nat × Nat) : ({ c with turn := x } : Core).mtxReadies = c.mtxReadies := rfl
theorem mtxPopMet_turn (c : Core) (x : Nat × Nat) (p : BitVec 16) : ({ c with turn := x } : Core).mtxPopMet p = c.mtxPopMet p := rfl

/-! ### The next entry of a list (R82, R92) -/

theorem entryAt_inl {s : State} {i : Interp} {ks : List Nat} (hk : s.rawKeys i.lst.cid i.pc 64 .r = some ks) (hp : s.anyPoison ks = false) :
    s.entryAt i = .inl (bitsOf 512 (ks.map s.byte)) := by simp [State.entryAt, hk, hp]
theorem runEntry_ok {i : Interp} {e : BitVec 512} {j : Instr} (h : decodeEntry e = .ok j) (s : State) :
    s.runEntry i e = .inl (j, s.setInterp { i with entry := e }) := by simp [State.runEntry, h]
theorem listNext_entry {s : State} {pid q : Nat} {i : Interp} {e : BitVec 512} {j : Instr} (hr : s.pstate = .running)
    (hi : (s.queue pid q).cur = some i) (hc : (s.queue pid q).closing = false) (hl : s.live i.lst.cid i.lst.inc = true) (hd : decodeEntry e = .ok j) :
    let u : State := { s with curQ := (pid, q) }
    (i.wait ≠ .none ∧ i.entry = e) ∨ (i.wait = .none ∧ u.entryAt i = .inl e) → s.listNext pid q = .inl (j, u.setInterp { i with entry := e }) := by
  intro u he
  have hr' : (u.pstate != .running) = false := by simp [u, hr]
  have hi' : (u.queue pid q).cur = some i := hi
  have hc' : ((u.queue pid q).closing || !u.live i.lst.cid i.lst.inc) = false := Bool.or_eq_false_iff.mpr ⟨hc, by rw [Bool.not_eq_false']; exact hl⟩
  unfold State.listNext
  change (if u.pstate != .running then _ else _) = _
  rw [hr', if_neg Bool.false_ne_true, hi']
  change (if (u.queue pid q).closing || !u.live i.lst.cid i.lst.inc then _ else _) = _
  rw [hc', if_neg Bool.false_ne_true]
  rcases he with ⟨hw, rfl⟩ | ⟨hw, he⟩
  · rw [if_pos (by simpa using hw)]
    exact runEntry_ok hd u
  · rw [if_neg (by simp [hw]), he]
    exact runEntry_ok hd u
theorem next_event {s : State} {i : Instr} (he : Instr.isEvent i = true) (hp : s.pstate.admits i = true) : s.next (.event i) = .inl (i, s) := by
  simp only [State.next, he, hp, Bool.and_self, if_true]

/-! ### The statement -/

/-- Settles O58: the head of the schedule moves by `step_inl` and `step_inr`; an engine by `engNext` and what `wordNext` finds, a list by `listNext_entry`. -/
theorem stepRunsDecoded : Obligations.StepRunsDecoded := by
  unfold Obligations.StepRunsDecoded
  refine ⟨fun s h => step_idle h, ?_⟩
  intro s x xs h u0
  refine ⟨?engine, ?list, fun i hw hev hp => ?event, fun hw => step_inr h (by rw [hw]; rfl)⟩
  case engine =>
    intro n eng hw u c r hpark
    have hnext : u0.next x.who = u.engNext n eng := by rw [hw]; exact coreNext_of_unparked hpark
    refine ⟨fun hmay => step_inr h (hnext.trans (engNext_blocked hmay)), fun hmay => ⟨fun t ht => step_inr h (hnext.trans (engNext_retires hmay ht)),
      fun hn ht => step_inr h (hnext.trans (engNext_passed hmay hn ht)), ?_⟩⟩
    intro hn ht v
    have hrun : u0.next x.who = v.wordNext n eng := hnext.trans (engNext_runs hmay hn ht)
    have hv : v.core n = { c with turn := (u.cycle + 1, if eng == .mtx then eng.num else eng.num + 1) } := core_takeTurn u n eng
    have hfetched : (v.core n).fetched = c.fetched := by rw [hv]
    have hpc : (v.core n).pc = c.pc := by rw [hv]
    have hicache : (v.core n).icache = c.icache := by rw [hv]
    have heng : (v.core n).eng eng = c.eng eng := by rw [hv]; cases eng <;> rfl
    have hword : ∀ p, (v.core n).ringWord eng p = c.ringWord eng p := fun p => by rw [hv]; cases eng <;> rfl
    clear_value v c
    refine ⟨fun w rest i hcc hf hd => ?fetched, ?fills, fun f hcc hf ha hk => ?refused,
      fun i hcc hmtx hht hd => ?head, fun hcc hmtx hht => ?empty, fun p i hmtx hp hh hd => ?matrix⟩
    case fetched =>
      subst hcc
      exact step_inl h (hrun.trans (ccNext_fetched (by rw [hfetched, hpc, hf]) hd))
    case fills =>
      intro i ks hcc hf ha hk hp hm w m z hd
      subst hcc
      have hfill := fetchAt_fills (s := v) (n := n) ha hk hp (by rw [hicache]; exact hm)
      rw [hicache] at hfill
      have hz := ccNext_fills (i := i) (hfetched.trans hf) (by rw [hpc]; exact hfill)
      rw [State.modCore_modCore] at hz
      exact step_inl h (hrun.trans (hz hd))
    case refused =>
      subst hcc
      rw [← hpc] at ha hk
      exact step_inr h (hrun.trans (hpc ▸ ccNext_refused (hfetched.trans hf) ha hk))
    case head =>
      exact step_inl h (hrun.trans ((wordNext_ring v n hcc hmtx).trans (ringWordNext_head (by rw [heng]; exact hht) (by rw [heng, hword]; exact hd))))
    case empty => exact step_inr h (hrun.trans ((wordNext_ring v n hcc hmtx).trans (ringWordNext_empty (by rw [heng]; exact hht))))
    case matrix =>
      subst hmtx
      have hready : (v.core n).mtxReadies = c.mtxReadies := by rw [hv, mtxReadies_turn]
      have hpop : ∀ p, (v.core n).mtxPopMet p = c.mtxPopMet p := fun p => by rw [hv, mtxPopMet_turn]
      have hring : (v.core n).mtx.ring = r := congrArg EngSt.ring heng
      exact step_inl h (hrun.trans (mtxNext_ready (by simp only [hready, hpop, hword]; exact hp) (by rw [hring, hword]; exact hh) (by rw [hword]; exact hd)))
  case list =>
    intro pid q i e j hw hr u hi hc hl hd he
    refine step_inl h ?_
    rw [hw]
    refine listNext_entry (s := u0) hr hi hc hl hd (he.imp_right fun ⟨hn, ks, hk, hp, hb⟩ => ⟨hn, ?_⟩)
    rw [← hb]
    exact entryAt_inl hk hp
  case event => exact step_inl h (by rw [hw]; exact next_event hev hp)

end Sys2Proof.Machine
end

section
/-! PROOFS of the integer statement (O1): the value of Table 14.5 that each form of the control core writes. -/

set_option Elab.async false

open Sys2Proof Sys2Proof.Machine

namespace Sys2Proof.Machine

/-- A word that does no more than compute one s register. -/
theorem Computes.of_ccAlu {i : Instr} {h : Hdr} {w : Word} {srcs : List (BitVec 6 × Bool)} {d : BitVec 6} {v v' : Word} {s : State}
    (m : CcMay s h srcs [] 0) (hi : exec i s = ccAlu h w srcs d v s) (hv : v = v') : Computes i h d v' s := by
  obtain ⟨t, ht, ran, wrote⟩ := ccAlu_ran m w d v
  exact ⟨t, hi.trans ht, ran, hv ▸ wrote⟩

/-! ### Shifts, products and orders -/

theorem shiftLeft_eq_ofNat (a : Word) (p : Nat) : a <<< p = BitVec.ofNat 64 (a.toNat * 2 ^ p) := by
  apply BitVec.eq_of_toNat_eq
  rw [BitVec.toNat_shiftLeft, Nat.shiftLeft_eq, BitVec.toNat_ofNat]
theorem ushiftRight_eq_ofNat (a : Word) (p : Nat) : a >>> p = BitVec.ofNat 64 (a.toNat / 2 ^ p) := by
  rw [← Nat.shiftRight_eq_div_pow, ← BitVec.toNat_ushiftRight, BitVec.ofNat_toNat, BitVec.setWidth_eq]
theorem sshiftRight_eq_ofInt (a : Word) (p : Nat) : a.sshiftRight p = BitVec.ofInt 64 (a.toInt / 2 ^ p) := by
  rw [BitVec.sshiftRight, Int.shiftRight_eq_div_pow]
  norm_cast
theorem mul_eq_ofNat (a b : Word) : a * b = BitVec.ofNat 64 (a.toNat * b.toNat) := rfl
theorem ltOf_eq (u : Bool) (a b : Word) : ltOf u a b = if u then decide (a.toNat < b.toNat) else decide (a.toInt < b.toInt) := rfl
theorem boolW_decide (p : Prop) [Decidable p] : boolW (decide p) = if p then 1 else 0 := by
  simp [boolW]
theorem shiftLeft_or_low (a : Word) (i : BitVec 24) : a <<< 24 ||| i.setWidth 64 = BitVec.ofNat 64 (a.toNat * 2 ^ 24 + i.toNat) := by
  rw [← Nat.shiftLeft_eq, Nat.shiftLeft_add_eq_or_of_lt i.isLt, BitVec.ofNat_or, Nat.shiftLeft_eq, shiftLeft_eq_ofNat, BitVec.ofNat_toNat]

/-! ### Counts of bits -/

theorem leadZeros_le (x : Word) (n : Nat) : leadZeros x n ≤ n := by
  induction n with
  | zero => simp [leadZeros]
  | succ n ih => simp only [leadZeros]; split <;> omega
theorem leadZeros_spec (x : Word) (n : Nat) :
    (∀ k, n - leadZeros x n ≤ k → k < n → x.getLsbD k = false) ∧ (leadZeros x n < n → x.getLsbD (n - 1 - leadZeros x n) = true) := by
  induction n with
  | zero => simp [leadZeros]
  | succ n ih =>
    obtain ⟨hz, ho⟩ := ih
    have hle := leadZeros_le x n
    by_cases hx : x.getLsbD n = true
    · simp [leadZeros, hx]; omega
    · simp only [leadZeros, hx, if_false, Bool.false_eq_true]
      refine ⟨fun k hk hkn => ?_, fun hlt => ?_⟩
      · by_cases he : k = n
        · simpa [he] using hx
        · exact hz k (by omega) (by omega)
      · rw [show n + 1 - 1 - (1 + leadZeros x n) = n - 1 - leadZeros x n by omega]
        exact ho (by omega)
theorem trailZeros_le (x : Word) (i n : Nat) : trailZeros x i n ≤ n := by
  induction n generalizing i with
  | zero => simp [trailZeros]
  | succ n ih => simp only [trailZeros]; have := ih (i + 1); split <;> omega
theorem trailZeros_spec (x : Word) (i n : Nat) :
    (∀ k, i ≤ k → k < i + trailZeros x i n → x.getLsbD k = false) ∧ (trailZeros x i n < n → x.getLsbD (i + trailZeros x i n) = true) := by
  induction n generalizing i with
  | zero => exact ⟨fun k hik hki => absurd hki (Nat.not_lt.mpr hik), fun h => absurd h (Nat.not_lt_zero _)⟩
  | succ n ih =>
    obtain ⟨hz, ho⟩ := ih (i + 1)
    by_cases hx : x.getLsbD i = true
    · simp [trailZeros, hx]; omega
    · simp only [trailZeros, hx, if_false, Bool.false_eq_true]
      refine ⟨fun k hk hkn => ?_, fun hlt => ?_⟩
      · by_cases he : k = i
        · simpa [he] using hx
        · exact hz k (by omega) (by omega)
      · rw [← Nat.add_assoc]
        exact ho (by omega)
theorem onesOf_eq (x : Word) (n : Nat) : onesOf x n = ((List.range n).filter fun k => x.getLsbD k).length := by
  induction n with
  | zero => rfl
  | succ n ih =>
    rw [onesOf, ih, List.range_succ, List.filter_append, List.length_append, Nat.add_comm]
    cases hx : x.getLsbD n <;> simp [hx]

/-! ### Fields -/

/-- The width of a field, MIN(C[6:0], 64 − B[5:0]). -/
theorem fieldMask_toNat (b c : Word) : (fieldMask b c).toNat = 2 ^ fieldWidth b c - 1 := by
  have hw : fieldWidth b c ≤ 64 := (Nat.min_le_right ..).trans (Nat.sub_le ..)
  have hp := Nat.pow_le_pow_right Nat.two_pos hw
  have h1 := Nat.two_pow_pos (fieldWidth b c)
  rw [fieldMask, BitVec.toNat_ofNat, Nat.mod_eq_of_lt (by omega)]
theorem getLsbD_fieldMask (b c : Word) (k : Nat) : (fieldMask b c).getLsbD k = decide (k < fieldWidth b c) := by
  rw [BitVec.getLsbD, fieldMask_toNat, Nat.testBit_two_pow_sub_one]
theorem fieldOf_eq (a b c : Word) : fieldOf a b c = BitVec.ofNat 64 (a.toNat / 2 ^ (b.toNat % 64) % 2 ^ fieldWidth b c) := by
  rw [← Nat.and_two_pow_sub_one_eq_mod, ← fieldMask_toNat, BitVec.ofNat_and, ← ushiftRight_eq_ofNat, BitVec.ofNat_toNat, BitVec.setWidth_eq]
  rfl
theorem getLsbD_insertField (d a b c : Word) {k : Nat} (hk : k < 64) :
    (insertField d a b c).getLsbD k =
      if b.toNat % 64 ≤ k ∧ k < b.toNat % 64 + fieldWidth b c then a.getLsbD (k - b.toNat % 64) else d.getLsbD k := by
  have hpos : b.toNat % 64 ≤ k ∧ k < b.toNat % 64 + fieldWidth b c ↔ ¬k < b.toNat % 64 ∧ k - b.toNat % 64 < fieldWidth b c := by omega
  simp only [insertField, BitVec.getLsbD_or, BitVec.getLsbD_and, BitVec.getLsbD_not, BitVec.getLsbD_shiftLeft, getLsbD_fieldMask, hk, hpos]
  by_cases hlow : k < b.toNat % 64 <;> by_cases hin : k - b.toNat % 64 < fieldWidth b c <;> simp [hlow, hin]

/-! ### The statement -/

/-- Settles O1: each form is a `ccAlu` word, whose value is that of Table 14.5. -/
theorem integerForms : Obligations.IntegerForms := by
  unfold Obligations.IntegerForms
  refine ⟨?regs, ?imm, ?noReg, ?one, ?three, ?insert⟩
  case regs =>
    intro h o s m a b p uns less
    refine ⟨.of_ccAlu m rfl rfl, .of_ccAlu m rfl rfl, .of_ccAlu m rfl rfl, .of_ccAlu m rfl rfl, .of_ccAlu m rfl rfl, .of_ccAlu m rfl rfl,
      .of_ccAlu m rfl (shiftLeft_eq_ofNat a p), .of_ccAlu m rfl (ushiftRight_eq_ofNat a p), .of_ccAlu m rfl (sshiftRight_eq_ofInt a p),
      .of_ccAlu m rfl rfl, .of_ccAlu m rfl rfl, .of_ccAlu m rfl rfl, .of_ccAlu m rfl ?_, .of_ccAlu m rfl rfl, .of_ccAlu m rfl rfl⟩
    exact boolW_decide (a = b)
  case imm =>
    intro h o s m a i p
    refine ⟨.of_ccAlu m rfl rfl, .of_ccAlu m rfl rfl, .of_ccAlu m rfl rfl, .of_ccAlu m rfl rfl, .of_ccAlu m rfl (shiftLeft_eq_ofNat a p),
      .of_ccAlu m rfl (ushiftRight_eq_ofNat a p), .of_ccAlu m rfl (sshiftRight_eq_ofInt a p), .of_ccAlu m rfl ?_, .of_ccAlu m rfl (shiftLeft_or_low a o.imm)⟩
    have hi : i.toInt = o.imm.toInt := BitVec.toInt_signExtend_of_le (by decide)
    rw [← hi]
    exact boolW_decide (a.toInt < i.toInt)
  case noReg => exact fun h o s m => ⟨.of_ccAlu m rfl rfl, .of_ccAlu m rfl rfl⟩
  case one =>
    intro h o s m a
    have hlead := leadZeros_spec a 64
    have htrail := trailZeros_spec a 0 64
    refine ⟨⟨leadZeros a 64, .of_ccAlu m rfl rfl, leadZeros_le a 64, fun k hk => ?_, fun hn => ?_⟩,
      ⟨trailZeros a 0 64, .of_ccAlu m rfl rfl, trailZeros_le a 0 64, fun k hk => ?_, fun hn => ?_⟩,
      .of_ccAlu m rfl (congrArg _ (onesOf_eq a 64)), ⟨a.reverse, .of_ccAlu m rfl rfl, fun k hk => ?_⟩, .of_ccAlu m rfl ?_⟩
    · rcases Nat.lt_or_ge k 64 with hlt | hge
      · exact hlead.1 k hk hlt
      · exact BitVec.getLsbD_of_ge a k hge
    · exact hlead.2 hn
    · exact htrail.1 k (Nat.zero_le k) (by omega)
    · rw [← Nat.zero_add (trailZeros a 0 64)]
      exact htrail.2 hn
    · rw [BitVec.getLsbD_reverse, BitVec.getMsbD, decide_eq_true hk, Bool.true_and]
    · by_cases ha : a = 0 <;> simp [boolW, ha, a]
  case three =>
    intro h o s m a b c p w
    refine ⟨.of_ccAlu m rfl (fieldOf_eq a b c), .of_ccAlu m rfl ?_⟩
    by_cases hc : c = 0 <;> simp [hc, c, a, b]
  case insert =>
    intro h o s m p w
    exact ⟨_, .of_ccAlu m rfl rfl, fun k hk => getLsbD_insertField _ _ _ _ hk⟩

end Sys2Proof.Machine
end

section
/-! PROOFS of the MemoryStaysCanonical (O60) and EveryStepGoesOn (O59) statements: what every step keeps. `Keeps s t` says that the two invariants
pass from `s` to `t`; one lemma per operation of the model says that it keeps them, in the order of the model's definitions. -/
set_option Elab.async false

namespace Sys2Proof.Machine

/-- The two invariants pass from a state to another. -/
structure Keeps (s t : State) : Prop where
  mem : MemInv s → MemInv t
  cores : CoresInv s → CoresInv t

/-- Every state inside an answer keeps the invariants of `s`; `KeepsR` also says that the machine goes on. -/
def KeepsR (s : State) : Result → Prop
  | .next t => Keeps s t
  | _ => False
def KeepsB (s : State) : Body → Prop
  | .stall => True
  | .fault _ _ => True
  | .done t => Keeps s t
  | .after t _ _ => Keeps s t
  | .wait t => Keeps s t
  | .quiet t => Keeps s t
def KeepsA (s : State) : Adv → Prop
  | .no => True
  | .go t => Keeps s t
  | .fault _ _ t => Keeps s t
def KeepsT (s : State) : Tile → Prop
  | .run _ t => Keeps s t
  | .absent t => Keeps s t
  | .fault _ _ => True
  | .stall t => Keeps s t
  | .noframe _ t => Keeps s t
def KeepsTR (s : State) : TRead → Prop
  | .ok _ _ t => Keeps s t
  | .stop b => KeepsB s b
def KeepsTW (s : State) : TWrite → Prop
  | .held t => Keeps s t
  | .done t => Keeps s t
  | .absent _ => True
  | .fault _ _ => True
  | .stall t => Keeps s t
def KeepsF (s : State) : Fetch → Prop
  | .ok _ t => Keeps s t
  | .wait t => Keeps s t
  | .fault _ _ => True
def KeepsRe (s : State) : Reach → Prop
  | .ok _ t => Keeps s t
  | .range => True
  | .busy t => Keeps s t
  | .poison => True
def KeepsL (s : State) : L2Find → Prop
  | .hit _ t => Keeps s t
  | .miss t => Keeps s t
  | .coming => True
def OptAll {α : Type} (P : α → Prop) : Option α → Prop
  | none => True
  | some x => P x
def SumAll {α β : Type} (P : α → Prop) (Q : β → Prop) : α ⊕ β → Prop
  | .inl x => P x
  | .inr x => Q x

theorem KeepsB.of_eq {s : State} {x y : Body} (h : KeepsB s x) (e : x = y) : KeepsB s y := e ▸ h
theorem KeepsA.of_eq {s : State} {x y : Adv} (h : KeepsA s x) (e : x = y) : KeepsA s y := e ▸ h
theorem KeepsT.of_eq {s : State} {x y : Tile} (h : KeepsT s x) (e : x = y) : KeepsT s y := e ▸ h
theorem KeepsTR.of_eq {s : State} {x y : TRead} (h : KeepsTR s x) (e : x = y) : KeepsTR s y := e ▸ h
theorem KeepsTW.of_eq {s : State} {x y : TWrite} (h : KeepsTW s x) (e : x = y) : KeepsTW s y := e ▸ h
theorem KeepsF.of_eq {s : State} {x y : Fetch} (h : KeepsF s x) (e : x = y) : KeepsF s y := e ▸ h
theorem KeepsRe.of_eq {s : State} {x y : Reach} (h : KeepsRe s x) (e : x = y) : KeepsRe s y := e ▸ h
theorem KeepsL.of_eq {s : State} {x y : L2Find} (h : KeepsL s x) (e : x = y) : KeepsL s y := e ▸ h
theorem KeepsR.of_eq {s : State} {x y : Result} (h : KeepsR s x) (e : x = y) : KeepsR s y := e ▸ h
theorem OptAll.of_eq {α : Type} {P : α → Prop} {x y : Option α} (h : OptAll P x) (e : x = y) : OptAll P y := e ▸ h
theorem SumAll.of_eq {α β : Type} {P : α → Prop} {Q : β → Prop} {x y : α ⊕ β} (h : SumAll P Q x) (e : x = y) : SumAll P Q y := e ▸ h
theorem Keeps.of_fst {α : Type} {s t : State} {p : State × α} {a : α} (h : Keeps s p.1) (e : p = (t, a)) : Keeps s t := by rwa [e] at h
theorem Keeps.of_snd {α : Type} {s t : State} {p : α × State} {a : α} (h : Keeps s p.2) (e : p = (a, t)) : Keeps s t := by rwa [e] at h
theorem Keeps.refl (s : State) : Keeps s s := ⟨id, id⟩
/-- An update of any field but the memory and the cores. -/
theorem Keeps.upd {s t u : State} (h : Keeps s t) (hm : u.mem = t.mem := by rfl) (hc : u.cores = t.cores := by rfl) : Keeps s u :=
  ⟨by unfold MemInv; rw [hm]; exact h.mem, by unfold CoresInv; rw [hc]; exact h.cores⟩
theorem SMap.nodup_erase {α : Type} (m : SMap α) (k : Nat) (h : (m.map (·.1)).Nodup) : ((m.erase k).map (·.1)).Nodup := by
  induction m with
  | nil => exact h
  | cons x t ih =>
    obtain ⟨hx, ht⟩ := List.nodup_cons.mp h
    rw [SMap.erase]
    split
    · exact ih ht
    · refine List.nodup_cons.mpr ⟨fun hin => hx ?_, ih ht⟩
      obtain ⟨y, hy, hyx⟩ := List.mem_map.mp hin
      exact List.mem_map.mpr ⟨y, (SMap.mem_erase hy).2, hyx⟩
theorem SMap.nodup_insert {α : Type} [DecidableEq α] (m : SMap α) (k : Nat) (v : α) (hk : ∀ x ∈ m, x.1 ≠ k) (h : (m.map (·.1)).Nodup) :
    ((m.insert k v).map (·.1)).Nodup := by
  induction m with
  | nil => exact List.nodup_singleton k
  | cons x t ih =>
    obtain ⟨hx, ht⟩ := List.nodup_cons.mp h
    rw [SMap.insert]
    split
    · refine List.nodup_cons.mpr ⟨fun hin => ?_, h⟩
      obtain ⟨y, hy, hyk⟩ := List.mem_map.mp hin
      exact hk y hy hyk
    · refine List.nodup_cons.mpr ⟨fun hin => ?_, ih (fun y hy => hk y (List.mem_cons_of_mem _ hy)) ht⟩
      obtain ⟨y, hy, hyx⟩ := List.mem_map.mp hin
      rcases SMap.mem_insert hy with rfl | hy
      · exact hk x (List.mem_cons_self ..) hyx.symm
      · exact hx (List.mem_map.mpr ⟨y, hy, hyx⟩)
/-- A write keeps each key listed once. -/
theorem SMap.nodup_set {α : Type} [DecidableEq α] (d : α) (m : SMap α) (k : Nat) (v : α) (h : (m.map (·.1)).Nodup) :
    ((m.set d k v).map (·.1)).Nodup := by
  unfold SMap.set
  split
  · exact m.nodup_erase k h
  · exact SMap.nodup_insert _ k v (fun x hx => (SMap.mem_erase hx).1) (m.nodup_erase k h)
/-- A change of every core under its own number. -/
theorem Keeps.mapCores {s t u : State} (h : Keeps s t) {g : Nat × Core → Nat × Core} (hm : u.mem = t.mem) (hc : u.cores = t.cores.map g)
    (hg : ∀ x, (g x).1 = x.1) : Keeps s u := by
  refine ⟨by unfold MemInv; rw [hm]; exact h.mem, fun hs => ?_⟩
  have hk : u.cores.map (·.1) = t.cores.map (·.1) := by simp [hc, hg]
  unfold CoresInv
  rw [hk]
  exact h.cores hs
theorem Keeps.ite {s t u : State} {c : Prop} [Decidable c] (ht : Keeps s t) (hu : Keeps s u) : Keeps s (if c then t else u) := by
  split <;> assumption
theorem OptAll.none {α : Type} {P : α → Prop} : OptAll P .none := trivial
theorem OptAll.ite {α : Type} {P : α → Prop} {o q : Option α} {c : Prop} [Decidable c] (ho : OptAll P o) (hq : OptAll P q) :
    OptAll P (if c then o else q) := by
  split <;> assumption
theorem SumAll.ite {α β : Type} {P : α → Prop} {Q : β → Prop} {o q : α ⊕ β} {c : Prop} [Decidable c] (ho : SumAll P Q o)
    (hq : SumAll P Q q) :
    SumAll P Q (if c then o else q) := by
  split <;> assumption
theorem KeepsR.ite {s : State} {r q : Result} {c : Prop} [Decidable c] (hr : KeepsR s r) (hq : KeepsR s q) : KeepsR s (if c then r else q) := by
  split <;> assumption
theorem KeepsRe.ite {s : State} {r q : Reach} {c : Prop} [Decidable c] (hr : KeepsRe s r) (hq : KeepsRe s q) : KeepsRe s (if c then r else q) := by
  split <;> assumption
theorem Keeps.getD {s t : State} {o : Option State} (ho : OptAll (Keeps s) o) (ht : Keeps s t) : Keeps s (o.getD t) := by
  cases o with
  | none => exact ht
  | some u => exact ho
theorem Keeps.foldl {α : Type} {s t : State} {f : State → α → State} {xs : List α} (h : Keeps s t)
    (hf : ∀ u x, Keeps s u → Keeps s (f u x)) :
    Keeps s (xs.foldl f t) := by
  induction xs generalizing t with
  | nil => exact h
  | cons x xs ih => exact ih (hf _ _ h)

variable {s0 s : State}


/-! ### Machine/Ops -/

theorem Keeps.setCore {a1 a2} (h : Keeps s0 s) : Keeps s0 (State.setCore s a1 a2) := ⟨h.mem, fun hs => SMap.nodup_set _ _ _ _ (h.cores hs)⟩
theorem Keeps.modCore {a1 a2} (h : Keeps s0 s) : Keeps s0 (State.modCore s a1 a2) := h.setCore
theorem Keeps.setCtx {a1 a2} (h : Keeps s0 s) : Keeps s0 (State.setCtx s a1 a2) := h.upd
theorem Keeps.modCtx {a1 a2} (h : Keeps s0 s) : Keeps s0 (State.modCtx s a1 a2) := h.setCtx
theorem Keeps.setPart {a1 a2} (h : Keeps s0 s) : Keeps s0 (State.setPart s a1 a2) := h.upd
theorem Keeps.modPart {a1 a2} (h : Keeps s0 s) : Keeps s0 (State.modPart s a1 a2) := h.setPart
theorem Keeps.setPhaser {a1 a2} (h : Keeps s0 s) : Keeps s0 (State.setPhaser s a1 a2) := h.upd
theorem Keeps.setIsland {a1 a2} (h : Keeps s0 s) : Keeps s0 (State.setIsland s a1 a2) := h.upd
theorem Keeps.setByte {a1 a2} (h : Keeps s0 s) : Keeps s0 (State.setByte s a1 a2) := ⟨fun hs => State.setByte_wf _ _ _ (h.mem hs), h.cores⟩
theorem Keeps.putBytes {a1 a2} (h : Keeps s0 s) : Keeps s0 (State.putBytes s a1 a2) := by
  induction a2 generalizing s a1 with
  | nil => exact h
  | cons x xs ih => exact ih h.setByte
theorem Keeps.putCells {a1} (h : Keeps s0 s) : Keeps s0 (State.putCells s a1) := by
  induction a1 generalizing s with
  | nil => exact h
  | cons x xs ih => exact ih h.setByte
theorem Keeps.l2Hit {a1} (h : Keeps s0 s) : Keeps s0 (State.l2Hit s a1) := h.upd
theorem Keeps.l2Put {a1 a2} (h : Keeps s0 s) : Keeps s0 (State.l2Put s a1 a2) := by
  unfold State.l2Put
  extract_lets
  split
  · exact h
  · split
    · exact h.upd
    · split <;> exact h.upd
theorem Keeps.l2See {a1 a2 a3} (h : Keeps s0 s) : Keeps s0 (State.l2See s a1 a2 a3) := by
  induction a3 generalizing s a1 a2 with
  | nil => exact h
  | cons x xs ih =>
    refine ih ?_
    split
    · exact h
    · split
      · exact h.l2Hit
      · split
        · exact h.l2Put
        · exact h
theorem Keeps.l2Raw {a1 a2 a3} (h : Keeps s0 s) : Keeps s0 (State.l2Raw s a1 a2 a3) := by
  unfold State.l2Raw
  split
  · rename_i e
    exact h.l2See
theorem Keeps.log {a1 a2} (h : Keeps s0 s) : Keeps s0 (State.log s a1 a2) := by
  unfold State.log
  split
  · exact h.modCore
  · exact h
theorem Keeps.log4 {a1 a2 a3 a4} (h : Keeps s0 s) : Keeps s0 (State.log4 s a1 a2 a3 a4) := h.log
theorem Keeps.setTok {a1 a2 a3 a4 a5} (h : Keeps s0 s) : Keeps s0 (State.setTok s a1 a2 a3 a4 a5) := h.log.modCore
theorem Keeps.setCb {a1 a2 a3 a4 a5} (h : Keeps s0 s) : Keeps s0 (State.setCb s a1 a2 a3 a4 a5) := h.log.modCore
theorem Keeps.logGranules {a1 a2 a3 a4 a5 a6 a7} (h : Keeps s0 s) : Keeps s0 (State.logGranules s a1 a2 a3 a4 a5 a6 a7) := by
  induction a7 generalizing s a1 a2 a3 a4 a5 a6 with
  | zero => exact h
  | succ k ih => exact ih h.log
theorem Keeps.spadWrite {a1 a2 a3 a4 a5} (h : Keeps s0 s) : Keeps s0 (State.spadWrite s a1 a2 a3 a4 a5) := by
  unfold State.spadWrite
  split
  · exact h
  · exact h.logGranules.modCore
theorem Keeps.fbufPut {a1 a2 a3} (h : Keeps s0 s) : Keeps s0 (State.fbufPut s a1 a2 a3) := by
  unfold State.fbufPut
  split
  · exact h.putCells
  · exact h
theorem Keeps.setFheld {a1 a2} (h : Keeps s0 s) : Keeps s0 (State.setFheld s a1 a2) := by
  unfold State.setFheld
  extract_lets t
  have ht : Keeps s0 t := by
    unfold t
    split
    · exact h.upd
    · exact h.modPart
  exact ht.fbufPut
theorem Keeps.wake {a1} (h : Keeps s0 s) : Keeps s0 (State.wake s a1) := h.upd
theorem Keeps.modUePort {a1 a2} (h : Keeps s0 s) : Keeps s0 (State.modUePort s a1 a2) := h.upd
theorem Keeps.ueDropAt {a1} (h : Keeps s0 s) : Keeps s0 (State.ueDropAt s a1) := h.modUePort
theorem Keeps.sendTx {a1} (h : Keeps s0 s) : Keeps s0 (State.sendTx s a1) := by
  unfold State.sendTx
  split
  · exact h
  · exact h.upd
theorem Keeps.send {a1 a2} (h : Keeps s0 s) : Keeps s0 (State.send s a1 a2) := h.sendTx
theorem Keeps.depart {a1 a2} (h : Keeps s0 s) : Keeps s0 (State.depart s a1 a2) := by
  unfold State.depart
  split
  · exact h.ueDropAt
  · extract_lets _ t t1
    have ht : Keeps s0 t := h.modUePort
    have ht1 : Keeps s0 t1 := ht.upd
    split
    · exact ht1.upd
    · exact ht1
theorem Keeps.ueDrain {a1 a2} (h : Keeps s0 s) : Keeps s0 (State.ueDrain s a1 a2) := by
  induction a2 generalizing s a1 with
  | nil => exact h
  | cons x xs ih =>
    unfold State.ueDrain
    extract_lets
    split
    · exact ih h.depart
    · exact ih h.upd
theorem Keeps.flushUe (h : Keeps s0 s) : Keeps s0 (State.flushUe s) := h.upd.ueDrain
theorem Keeps.nscc {a1 a2} (h : Keeps s0 s) : Keeps s0 (State.nscc s a1 a2) := by
  unfold State.nscc
  split
  · exact h
  · exact h.modUePort
theorem Keeps.event {a1 a2 a3 a4 a5 a6 a7} (h : Keeps s0 s) : Keeps s0 (State.event s a1 a2 a3 a4 a5 a6 a7) := by
  unfold State.event
  exact h.send
theorem Keeps.writeRec {a1 a2} (h : Keeps s0 s) : Keeps s0 (State.writeRec s a1 a2) := by
  unfold State.writeRec
  extract_lets _ t t1
  have ht : Keeps s0 t := h.fbufPut
  have ht1 : Keeps s0 t1 := ht.fbufPut
  split
  · exact ht1.wake
  · exact ht1.event
theorem Keeps.record {a1 a2 a3 a4} (h : Keeps s0 s) : Keeps s0 (State.record s a1 a2 a3 a4) := by
  unfold State.record
  split
  · exact h.setFheld
  · exact h.writeRec
theorem Keeps.park {a1 a2 a3 a4 a5 a6 a7 a8 a9 a10} (h : Keeps s0 s) : Keeps s0 (State.park s a1 a2 a3 a4 a5 a6 a7 a8 a9 a10) := by
  unfold State.park
  exact h.record.modCore
theorem Keeps.recordOn {a1 a2 a3 a4} (h : Keeps s0 s) : Keeps s0 (State.recordOn s a1 a2 a3 a4) := by
  unfold State.recordOn
  extract_lets
  split
  · exact h.park
  · exact h.record
theorem Keeps.requestStop {a1 a2 a3 a4} (h : Keeps s0 s) : Keeps s0 (State.requestStop s a1 a2 a3 a4) := h.modCtx
theorem Keeps.trapEnter {a1 a2 a3 a4 a5 a6 a7} (h : Keeps s0 s) : Keeps s0 (State.trapEnter s a1 a2 a3 a4 a5 a6 a7) := h.modCore
theorem Keeps.raiseFrom {a1 a2 a3 a4 a5 a6 a7 a8} (h : Keeps s0 s) : Keeps s0 (State.raiseFrom a1 s a2 a3 a4 a5 a6 a7 a8) := by
  unfold State.raiseFrom
  extract_lets _ _ _ _ _ t _ t1 t2
  have ht : Keeps s0 t := h.recordOn
  have ht1 : Keeps s0 t1 := h.park
  have ht2 : Keeps s0 t2 := by
    unfold t2
    split
    · exact h.record
    · exact h
  split
  · split
    · exact ht
    · exact ht.trapEnter
  · split
    · split
      · exact ht1.requestStop
      · exact ht1
    · split
      · split
        · exact h.park
        · exact h.record
      · split
        · exact h.park
        · exact ht2.trapEnter
theorem Keeps.raise {a1 a2 a3 a4 a5 a6 a7} (h : Keeps s0 s) : Keeps s0 (State.raise s a1 a2 a3 a4 a5 a6 a7) := h.raiseFrom
theorem Keeps.signal {a1 a2 a3 a4 a5 a6 a7} (h : Keeps s0 s) : Keeps s0 (State.signal s a1 a2 a3 a4 a5 a6 a7) := by
  unfold State.signal
  split
  · exact h
  · extract_lets _ _ _ t
    have ht : Keeps s0 t := h.setTok
    split
    · exact ht.raise
    · exact ht
theorem Keeps.consume {a1 a2 a3 a4} (h : Keeps s0 s) : Keeps s0 (State.consume s a1 a2 a3 a4) := by
  induction a4 generalizing s a1 a2 a3 with
  | nil => exact h
  | cons x xs ih => exact ih h.setTok

/-! ### Machine/Image -/

theorem Keeps.putGpa {a1 a2 a3} (h : Keeps s0 s) : Keeps s0 (State.putGpa s a1 a2 a3) := h.putCells
theorem Keeps.putImage {a1 a2} (h : Keeps s0 s) : Keeps s0 (State.putImage s a1 a2) := h.putGpa
theorem Keeps.dropImage {a1} (h : Keeps s0 s) : Keeps s0 (State.dropImage s a1) := h.putGpa
theorem Keeps.putFlags {a1 a2} (h : Keeps s0 s) : Keeps s0 (State.putFlags s a1 a2) := h.putGpa
theorem Keeps.orFlags {a1 a2} (h : Keeps s0 s) : Keeps s0 (State.orFlags s a1 a2) := h.putFlags

/-! ### Machine/Operands -/

theorem Keeps.wrSOf {a1 a2 a3 a4} (h : Keeps s0 s) : Keeps s0 (State.wrSOf s a1 a2 a3 a4) := by
  unfold State.wrSOf
  split
  · exact h
  · exact h.log4.modCore
theorem Keeps.wrS {a1 a2 a3} (h : Keeps s0 s) : Keeps s0 (State.wrS s a1 a2 a3) := h.wrSOf
theorem Keeps.log9 {a1 a2 a3 a4} (h : Keeps s0 s) : Keeps s0 (State.log9 s a1 a2 a3 a4) := by
  unfold State.log9
  exact h.log
theorem Keeps.raiseElast {a1 a2 a3 a4} (h : Keeps s0 s) : Keeps s0 (State.raiseElast s a1 a2 a3 a4) := by
  unfold State.raiseElast
  split
  · exact h.log9.modCore
  · exact h
theorem Keeps.ccIssue {a1 a2 a3 a4} (h : Keeps s0 s) : Keeps s0 (State.ccIssue s a1 a2 a3 a4) := by
  unfold State.ccIssue
  exact h.raiseElast.consume.modCore
theorem Keeps.retired {a1} (h : Keeps s0 s) : Keeps s0 (State.retired s a1) := h.modCore
theorem Keeps.ccEndWait {a1 a2} (h : Keeps s0 s) : Keeps s0 (State.ccEndWait s a1 a2) := by
  unfold State.ccEndWait
  split
  · exact h.modCore
  · exact h
theorem Keeps.ccRetire {a1 a2 a3} (h : Keeps s0 s) : Keeps s0 (State.ccRetire s a1 a2 a3) := by
  unfold State.ccRetire
  exact h.ccEndWait.retired.signal
theorem Keeps.ccFinish {a1 a2 B} (h : Keeps s0 s) (hB : KeepsB s0 B) : KeepsR s0 (ccFinish a1 a2 s B) := by
  unfold Machine.ccFinish
  split
  · exact h
  · exact h.raise
  · rename_i u
    split
    · exact (hB : Keeps s0 u).ccRetire
    · exact h
  · rename_i u
    split
    · exact (hB : Keeps s0 u).ccEndWait.retired
    · exact h
  · rename_i u _ _
    split
    · exact (hB : Keeps s0 u).ccRetire.raise
    · exact h
  · rename_i u
    split
    · exact (hB : Keeps s0 u).modCore
    · exact h
theorem Keeps.ccWordAt {a1 a2 a3 a4 a5 body} (h : Keeps s0 s) (hbody : ∀ e u, Keeps s0 u → KeepsB s0 (body e u)) :
    KeepsR s0 (ccWordAt a1 a2 a3 a4 a5 body s) := by
  unfold Machine.ccWordAt
  extract_lets
  split
  · exact h.ccFinish (hbody _ _ h.raiseElast.modCore)
  · split
    · exact h.raise
    · split
      · exact h
      · split
        · exact h
        · split
          · exact h.raise
          · split
            · exact h
            · split
              · exact h.modCore
              · exact h.ccFinish (hbody _ _ h.ccIssue)
theorem Keeps.ccWord {a1 a2 a3 a4 body} (h : Keeps s0 s) (hbody : ∀ e u, Keeps s0 u → KeepsB s0 (body e u)) :
    KeepsR s0 (ccWord a1 a2 a3 a4 body s) := h.ccWordAt (fun _ _ hu => hbody _ _ hu)
theorem Keeps.ccAlu {a1 a2 a3 a4 a5} (h : Keeps s0 s) : KeepsR s0 (ccAlu a1 a2 a3 a4 a5 s) := h.ccWord (fun _ _ hu => hu.wrS)
theorem Keeps.place {a1 a2} (h : Keeps s0 s) : Keeps s0 (State.place s a1 a2) := by
  unfold State.place
  extract_lets _ _ t
  have ht : Keeps s0 t := h.upd
  split
  · exact ht.modCore
  · split
    · exact ht.modCore
    · exact ht.upd
theorem Keeps.ccHold {a1 a2 a3 a4 a5 a6} (h : Keeps s0 s) : Keeps s0 (State.ccHold s a1 a2 a3 a4 a5 a6) := by
  unfold State.ccHold
  exact h.place.modCore

/-! ### Machine/ControlInt -/

theorem Keeps.setFlags {a1 a2} (h : Keeps s0 s) : Keeps s0 (State.setFlags s a1 a2) := h.modCore
theorem Keeps.ccDiv {a1 a2 a3 a4 a5 a6} (h : Keeps s0 s) : KeepsR s0 (ccDiv a1 a2 a3 a4 a5 a6 s) := by
  unfold Machine.ccDiv
  refine Keeps.ccWord h ?_
  intro e u hu
  refine Keeps.wrS ?_
  split
  · exact hu.setFlags
  · exact hu

/-! ### Machine/Ring -/

theorem Keeps.trimEng {a1 a2} (h : Keeps s0 s) : Keeps s0 (State.trimEng s a1 a2) := h.modCore
theorem Keeps.passWord {a1 a2 a3} (h : Keeps s0 s) : Keeps s0 (State.passWord s a1 a2 a3) := h.modCore.trimEng.retired
theorem Keeps.retireIss {a1 a2 a3} (h : Keeps s0 s) : Keeps s0 (State.retireIss s a1 a2 a3) := h.modCore.trimEng.retired
theorem Keeps.ringIssue {a1 a2 a3 a4 a5 a6 a7} (h : Keeps s0 s) : Keeps s0 (State.ringIssue s a1 a2 a3 a4 a5 a6 a7) := by
  unfold State.ringIssue
  extract_lets _ _ _ t _ t1 t2 _ t3
  have ht : Keeps s0 t := h.setCore
  have ht1 : Keeps s0 t1 := by
    unfold t1
    split
    · exact ht.log
    · exact ht
  have ht2 : Keeps s0 t2 := by
    unfold t2
    split
    · exact ht1.raiseElast
    · exact ht1.modCore
  have ht3 : Keeps s0 t3 := ht2.upd
  exact ht3.consume.modCore
theorem Keeps.ringNext {a1 a2} (h : Keeps s0 s) : Keeps s0 (State.ringNext s a1 a2) := h.modCore
theorem Keeps.endStream {a1 a2 a3} (h : Keeps s0 s) : Keeps s0 (State.endStream s a1 a2 a3) := by
  unfold State.endStream
  extract_lets _ _ _ _ t
  have ht : Keeps s0 t := h.upd
  exact ht.setCore.modCore.passWord
theorem Keeps.engWord {a1 a2 a3 a4 chk a5 a6 a7 body} (h : Keeps s0 s) (hchk : ∀ e, OptAll (KeepsB s0) (chk e))
    (hbody : ∀ e q b k u, Keeps s0 u → KeepsB s0 (body e q b k u)) :
    KeepsR s0 (engWord a1 a2 a3 a4 chk a5 a6 a7 body s) := by
  unfold Machine.engWord
  extract_lets _ _ _ _ _ _ _ retire
  have hretire : ∀ (s' : State) (e : Word) (id : ℕ), Keeps s0 s' → Keeps s0 (retire s' e id) := fun _ _ _ hid => hid.ringNext.retireIss.signal
  refine KeepsR.ite h.passWord ?_
  split
  · exact h.passWord
  · split
    · exact h.raise
    · split
      · exact h
      · split
        · exact h
        · exact h.raise
        · split
          · exact h
          · split
            · exact h.endStream
            · extract_lets
              split
              · exact h
              · split
                · exact h.modCore
                · split
                  · exact h.raise
                  · rename_i u e2
                    exact ((hchk _).of_eq e2 : Keeps s0 u)
                  · exact h
                  · split
                    · exact h
                    · exact h
                    · exact h.raise
                    · rename_i u e3
                      split
                      · exact hretire _ _ _ ((hbody _ _ _ _ _ h.ringIssue).of_eq e3 : Keeps s0 u)
                      · exact h
                    · rename_i u e3
                      split
                      · exact ((hbody _ _ _ _ _ h.ringIssue).of_eq e3 : Keeps s0 u).ringNext
                      · exact h
                    · rename_i u _ _ e3
                      split
                      · exact (hretire _ _ _ ((hbody _ _ _ _ _ h.ringIssue).of_eq e3 : Keeps s0 u)).raise
                      · exact h
theorem Keeps.chkG {a1 a2}  : OptAll (KeepsB s0) (State.chkG s a1 a2) := by
  induction a2 generalizing s a1 with
  | nil => exact trivial
  | cons x xs ih =>
    unfold State.chkG
    exact OptAll.ite ih (OptAll.ite trivial (OptAll.ite (OptAll.ite trivial trivial) ih))
theorem Keeps.wrG {a1 a2 a3 a4} (h : Keeps s0 s) : Keeps s0 (State.wrG s a1 a2 a3 a4) := by
  unfold State.wrG
  exact h.log.modCore
theorem Keeps.freeG {a1 a2} (h : Keeps s0 s) : Keeps s0 (State.freeG s a1 a2) := by
  induction a2 generalizing s a1 with
  | nil => exact h
  | cons x xs ih =>
    refine ih ?_
    split
    · exact h.modCore
    · exact h

/-! ### Machine/ControlFlow -/

theorem Keeps.jump {a1} (h : Keeps s0 s) : Keeps s0 (State.jump s a1) := h.modCore
theorem Keeps.ccBranch {k : Nat} {a4 : BitVec k} {a1 a2 a3 a5} (h : Keeps s0 s) : KeepsR s0 (ccBranch a1 a2 a3 a4 a5 s) := by
  unfold Machine.ccBranch
  refine Keeps.ccWord h ?_
  intro e u hu
  split
  · exact hu.jump
  · exact hu
theorem Keeps.execDbnz {a1 a2} (h : Keeps s0 s) : KeepsR s0 (execDbnz a1 a2 s) := by
  unfold Machine.execDbnz
  refine Keeps.ccWord h ?_
  intro e u hu
  extract_lets _ t
  have ht : Keeps s0 t := hu.wrS
  split
  · exact ht.jump
  · exact ht
theorem Keeps.ccJumpReg {a1 a2 a3 a4 a5} (h : Keeps s0 s) : KeepsR s0 (ccJumpReg a1 a2 a3 a4 a5 s) := by
  unfold Machine.ccJumpReg
  refine Keeps.ccWord h ?_
  intro e u hu
  split
  · exact trivial
  · refine Keeps.jump ?_
    split
    · exact hu.wrS
    · exact hu
theorem Keeps.setCcCrd {a1 a2 a3 a4} (h : Keeps s0 s) : Keeps s0 (State.setCcCrd s a1 a2 a3 a4) := h.log.modCore
theorem Keeps.ccLevel {a1 a2 a3 a4} (h : Keeps s0 s) : KeepsR s0 (ccLevel a1 a2 a3 a4 s) := by
  unfold Machine.ccLevel
  refine Keeps.ccWord h ?_
  intro e u hu
  extract_lets
  split
  · exact trivial
  · exact hu.setCcCrd
theorem Keeps.execSetcrd {a1 a2} (h : Keeps s0 s) : KeepsR s0 (execSetcrd a1 a2 s) := by
  unfold Machine.execSetcrd
  extract_lets
  refine Keeps.ccWord h ?_
  intro e u hu
  split
  · exact trivial
  · exact hu.setCcCrd
theorem Keeps.execGetcrd {a1 a2} (h : Keeps s0 s) : KeepsR s0 (execGetcrd a1 a2 s) := by
  unfold Machine.execGetcrd
  extract_lets
  refine Keeps.ccWord h ?_
  intro e u hu
  split
  · exact trivial
  · exact hu.wrS
theorem Keeps.execGetcl {a1 a2} (h : Keeps s0 s) : KeepsR s0 (execGetcl a1 a2 s) := by
  unfold Machine.execGetcl
  extract_lets
  refine Keeps.ccWord h ?_
  intro e u hu
  split
  · exact trivial
  · exact hu.wrS
theorem Keeps.cutDone {a1 a2 a3 a4 a5} (h : Keeps s0 s) : Keeps s0 (State.cutDone s a1 a2 a3 a4 a5) := by
  induction a5 generalizing s a1 a2 a3 a4 with
  | nil => exact h
  | cons x xs ih => exact ih h.event
theorem Keeps.modCores {a1 a2} (h : Keeps s0 s) : Keeps s0 (State.modCores s a1 a2) := by
  induction a2 generalizing s a1 with
  | nil => exact h
  | cons x xs ih => exact ih h.modCore
theorem Keeps.unlate {a1} (h : Keeps s0 s) : Keeps s0 (State.unlate s a1) := h.upd
theorem Keeps.cancelStop {a1} (h : Keeps s0 s) : Keeps s0 (State.cancelStop s a1) := by
  unfold State.cancelStop
  extract_lets
  split
  · split
    · exact h
    · extract_lets t
      have ht : Keeps s0 t := h.setCtx
      exact ht.unlate.modCores.cutDone
  · exact h.setCtx
theorem Keeps.execCut {a1 a2} (h : Keeps s0 s) : KeepsR s0 (execCut a1 a2 s) := by
  unfold Machine.execCut
  extract_lets
  refine Keeps.ccWord h ?_
  intro e u hu
  split
  · split
    · split <;> exact hu
    · exact hu
  · split
    · exact trivial
    · exact hu.requestStop.modCore
theorem Keeps.execCutq {a1 a2} (h : Keeps s0 s) : KeepsR s0 (execCutq a1 a2 s) := by
  unfold Machine.execCutq
  extract_lets
  refine Keeps.ccWord h ?_
  intro e u hu
  split
  · exact trivial
  · extract_lets t
    have ht : Keeps s0 t := by
      unfold t
      split
      · exact hu.cancelStop
      · exact hu
    exact ht.wrS
theorem Keeps.execCutw {a1 a2} (h : Keeps s0 s) : KeepsR s0 (execCutw a1 a2 s) := by
  unfold Machine.execCutw
  extract_lets
  refine Keeps.ccWord h ?_
  intro e u hu
  split
  · exact trivial
  · exact hu.log4.modCore
theorem Keeps.pushRing {a1 a2 a3 a4} (h : Keeps s0 s) : Keeps s0 (State.pushRing s a1 a2 a3 a4) := by
  unfold State.pushRing
  exact h.log4.spadWrite.modCore
theorem Keeps.execPushq {a1 a2} (h : Keeps s0 s) : KeepsR s0 (execPushq a1 a2 s) := by
  unfold Machine.execPushq
  extract_lets
  refine Keeps.ccWord h ?_
  intro e u hu
  split
  · exact trivial
  · split
    · exact trivial
    · exact hu.pushRing
theorem Keeps.execPushqn {a1 a2} (h : Keeps s0 s) : KeepsR s0 (execPushqn a1 a2 s) := by
  unfold Machine.execPushqn
  extract_lets
  refine Keeps.ccWord h ?_
  intro e u hu
  split
  · exact trivial
  · split
    · exact hu.wrS
    · exact hu.pushRing.wrS
theorem Keeps.pushSome {a1 a2 a3 a4} (h : Keeps s0 s) : Keeps s0 (pushSome a1 a2 a3 a4 s).1 := by
  induction a4 generalizing s a1 a2 a3 with
  | nil => exact h
  | cons x xs ih =>
    unfold Machine.pushSome
    split
    · exact h
    · exact ih h.pushRing
theorem Keeps.ringcpyGo {a1 a2 a3 a4} (h : Keeps s0 s) : KeepsB s0 (ringcpyGo a1 a2 a3 a4 s) := by
  unfold Machine.ringcpyGo
  split
  · rename_i u _ e
    split
    · exact (h.pushSome.of_fst e : Keeps s0 u)
    · exact (h.pushSome.of_fst e : Keeps s0 u).modCore
theorem Keeps.execRingcpy {a1 a2} (h : Keeps s0 s) : KeepsR s0 (execRingcpy a1 a2 s) := by
  unfold Machine.execRingcpy
  extract_lets
  refine Keeps.ccWord h ?_
  intro e u hu
  split
  · exact hu.ringcpyGo
  · split
    · exact trivial
    · split
      · exact trivial
      · split
        · exact trivial
        · exact hu.ringcpyGo
theorem Keeps.execWset {a1 a2} (h : Keeps s0 s) : KeepsR s0 (execWset a1 a2 s) := by
  unfold Machine.execWset
  extract_lets
  refine Keeps.ccWord h ?_
  intro e u hu
  split
  · exact trivial
  · exact hu.log4.modCore
theorem Keeps.pushMarks {a1 a2 a3 a4} (h : Keeps s0 s) : Keeps s0 (pushMarks a1 a2 a3 a4 s).1 := by
  induction a3 generalizing s a1 a2 a4 with
  | nil => exact h
  | cons x xs ih =>
    unfold Machine.pushMarks
    split
    · exact h
    · exact ih h.pushRing
theorem Keeps.joinGo {a1 a2 a3 a4} (h : Keeps s0 s) : KeepsB s0 (joinGo a1 a2 a3 a4 s) := by
  unfold Machine.joinGo
  split
  · rename_i u _ _ e
    split <;> exact (h.pushMarks.of_fst e : Keeps s0 u).modCore
theorem Keeps.execJoin {a1 a2} (h : Keeps s0 s) : KeepsR s0 (execJoin a1 a2 s) := by
  unfold Machine.execJoin
  refine Keeps.ccWord h ?_
  intro e u hu
  split
  · exact hu.joinGo
  · split
    · exact trivial
    · exact hu.joinGo

/-! ### Machine/Tiles -/

theorem Keeps.gpaPut {a1 a2 a3 a4} (h : Keeps s0 s) : Keeps s0 (State.gpaPut s a1 a2 a3 a4) := by
  unfold State.gpaPut
  split
  · exact h.putCells
  · exact h
theorem Keeps.shootdown {a1 a2 a3} (h : Keeps s0 s) : Keeps s0 (State.shootdown s a1 a2 a3) := by
  unfold State.shootdown
  exact h.mapCores rfl rfl fun _ => rfl
theorem Keeps.putEnt {a1 a2 a3 a4 a5} (h : Keeps s0 s) : Keeps s0 (State.putEnt s a1 a2 a3 a4 a5) := h.gpaPut.shootdown
theorem Keeps.updateIfSame {a1 a2 a3 a4 a5 a6} (h : Keeps s0 s) : Keeps s0 (State.updateIfSame s a1 a2 a3 a4 a5 a6).2 := by
  unfold State.updateIfSame
  split
  · exact h.putEnt
  · exact h
theorem Keeps.ttcRead {a1 a2 a3 a4} (h : Keeps s0 s) : Keeps s0 (State.ttcRead s a1 a2 a3 a4).2 := by
  unfold State.ttcRead
  dsimp only
  split
  · dsimp only
    exact h.modCore
  · dsimp only
    exact h.modCore
theorem Keeps.tileEntry {a1 a2 a3 a4 a5} (h : Keeps s0 s) : OptAll (fun x => Keeps s0 x.2) (State.entry s a1 a2 a3 a4 a5) := by
  unfold State.entry
  extract_lets
  split
  · exact trivial
  · split
    · exact h
    · exact h.ttcRead
theorem Keeps.log3 {a1 a2 a3 a4 a5 a6 a7} (h : Keeps s0 s) : Keeps s0 (State.log3 s a1 a2 a3 a4 a5 a6 a7) := by
  unfold State.log3
  split
  · exact h
  · exact h.log
theorem Keeps.readTile {a1 a2 a3 a4 a5 a6} (h : Keeps s0 s) : KeepsT s0 (State.readTile s a1 a2 a3 a4 a5 a6) := by
  unfold State.readTile
  extract_lets
  split
  · exact trivial
  · rename_i u e
    split
    · exact (h.tileEntry.of_eq e : Keeps s0 u)
    · split
      · exact (h.tileEntry.of_eq e : Keeps s0 u)
      · split
        · split
          · exact (h.tileEntry.of_eq e : Keeps s0 u)
          · split
            · rename_i u1 e2
              exact (((h.tileEntry.of_eq e : Keeps s0 u).updateIfSame).of_snd e2 : Keeps s0 u1).log3
            · rename_i u1 e2
              exact (((h.tileEntry.of_eq e : Keeps s0 u).updateIfSame).of_snd e2 : Keeps s0 u1).shootdown
        · split <;> exact (h.tileEntry.of_eq e : Keeps s0 u)
theorem Keeps.popPool {a1 a2 a3 a4} (h : Keeps s0 s) : Keeps s0 (State.popPool s a1 a2 a3 a4).2 := by
  unfold State.popPool
  extract_lets q k kept
  clear_value kept
  split
  rename_i i u e
  have hu : Keeps s0 u := by
    split at e
    · exact (Prod.mk.inj e).2 ▸ h
    · exact (Prod.mk.inj e).2 ▸ h.gpaPut
  split
  · dsimp only
    exact hu.modCore
  · dsimp only
    exact hu.modCore
theorem Keeps.returnPool {a1 a2 a3} (h : Keeps s0 s) : OptAll (Keeps s0) (State.returnPool s a1 a2 a3) := by
  unfold State.returnPool
  extract_lets _ t t1
  have ht : Keeps s0 t := h.gpaPut
  have ht1 : Keeps s0 t1 := ht.gpaPut
  exact OptAll.ite trivial ht1.gpaPut
theorem Keeps.setRc {a1 a2 a3} (h : Keeps s0 s) : Keeps s0 (State.setRc s a1 a2 a3) := h.gpaPut
theorem Keeps.quarantine {a1 a2 a3 a4 a5} (h : Keeps s0 s) : Keeps s0 (State.quarantine s a1 a2 a3 a4 a5) := by
  unfold State.quarantine
  exact h.gpaPut.gpaPut
theorem Keeps.quarRelease {a1 a2} (h : Keeps s0 s) : Keeps s0 (State.quarRelease s a1 a2) := by
  induction a2 generalizing s with
  | zero => exact h
  | succ k ih =>
    unfold State.quarRelease
    extract_lets o v ph idx s1 s2
    have h1 : OptAll (Keeps s0) s1 := OptAll.ite h.returnPool h
    have h2 : OptAll (Keeps s0) s2 := by
      unfold s2
      cases e : s1 with
      | none => exact trivial
      | some t =>
        have ht : Keeps s0 t := h1.of_eq e
        exact OptAll.ite ht.returnPool ht
    refine Keeps.ite h (Keeps.ite h ?_)
    cases e : s2 with
    | none => exact h
    | some t => exact ih (Keeps.gpaPut (h2.of_eq e))
theorem Keeps.dropRun {a1 a2 a3 a4} (h : Keeps s0 s) : Keeps s0 (State.dropRun s a1 a2 a3 a4) := by
  unfold State.dropRun
  split
  · extract_lets _ t
    have ht : Keeps s0 t := h.setRc
    split
    · exact ht.quarantine
    · exact ht
  · exact h.quarantine
theorem Keeps.copyGpa {a1 a2 a3 a4} (h : Keeps s0 s) : Keeps s0 (State.copyGpa s a1 a2 a3 a4) := by
  induction a4 generalizing s a1 a2 a3 with
  | zero => exact h
  | succ k ih =>
    refine ih ?_
    split
    · exact h.setByte
    · exact h
theorem Keeps.copyRun {a1 a2 a3 a4} (h : Keeps s0 s) : Keeps s0 (State.copyRun s a1 a2 a3 a4) := h.copyGpa
theorem Keeps.cleanLines {a1} (h : Keeps s0 s) : Keeps s0 (State.cleanLines s a1) := by
  unfold State.cleanLines
  exact h.upd
theorem Keeps.writeBytes {a1} (h : Keeps s0 s) : Keeps s0 (State.writeBytes s a1) := by
  unfold State.writeBytes
  split
  · exact h.putCells
  · exact h.putCells.cleanLines
theorem Keeps.selfClear {a1 a2} (h : Keeps s0 s) : Keeps s0 (State.selfClear s a1 a2) := by
  unfold State.selfClear
  split
  · split
    · exact h.modCore
    · exact h
  · exact h
theorem Keeps.popPair {a1 a2 a3 a4 a5} (h : Keeps s0 s) :
    SumAll (fun x => Keeps s0 x.2.2) (fun x => Keeps s0 x.2) (State.popPair s a1 a2 a3 a4 a5) := by
  unfold State.popPair
  extract_lets kf keep first
  have hk : ∀ u l, Keeps s0 u → Keeps s0 (keep u l) := fun _ _ hu => hu.modCore
  have hf : Keeps s0 first.2 := by
    cases hl : (s.core a1).claims.get [] kf with
    | nil => simpa only [first, hl] using h.popPool
    | cons f l => simpa only [first, hl] using hk s [] h
  clear_value first
  obtain ⟨_ | f, u⟩ := first
  · exact hf
  · have hi : Keeps s0 (if a5 = true then u.popPool a1 a2 a3 255 else (some 0, u)).2 := by
      split
      · exact Keeps.popPool hf
      · exact hf
    dsimp only
    split
    · rename_i w e
      exact hk _ _ (hi.of_snd e)
    · rename_i i w e
      exact hi.of_snd e
theorem Keeps.cow {a1 a2 a3 a4 a5 a6 a7} (h : Keeps s0 s) : KeepsT s0 (State.cow s a1 a2 a3 a4 a5 a6 a7) := by
  unfold State.cow
  extract_lets
  split
  · exact h
  · split
    · split
      · rename_i u e1
        exact (h.updateIfSame.of_snd e1 : Keeps s0 u)
      · rename_i u e1
        exact (h.updateIfSame.of_snd e1 : Keeps s0 u).shootdown
    · split
      · exact trivial
      · split
        · rename_i u e
          exact (h.popPair.of_eq e : Keeps s0 u)
        · rename_i u e
          extract_lets t
          have ht : Keeps s0 t := (h.popPair.of_eq e : Keeps s0 u).setRc
          exact ht.upd
theorem Keeps.writeTile {a1 a2 a3 a4 a5 a6 a7 a8} (h : Keeps s0 s) : KeepsT s0 (State.writeTile s a1 a2 a3 a4 a5 a6 a7 a8) := by
  unfold State.writeTile
  extract_lets _ _ _ start
  split
  · exact trivial
  · rename_i u e
    split
    · exact (h.tileEntry.of_eq e : Keeps s0 u)
    · split
      · exact trivial
      · split
        · exact (h.tileEntry.of_eq e : Keeps s0 u).shootdown
        · split
          · split
            · exact (h.tileEntry.of_eq e : Keeps s0 u).cow
            · exact (h.tileEntry.of_eq e : Keeps s0 u)
          · split
            · exact trivial
            · split
              · unfold start
                extract_lets
                split
                · split
                  · rename_i u1 e3
                    exact (((h.tileEntry.of_eq e : Keeps s0 u).updateIfSame).of_snd e3 : Keeps s0 u1).log3
                  · rename_i u1 e3
                    exact (((h.tileEntry.of_eq e : Keeps s0 u).updateIfSame).of_snd e3 : Keeps s0 u1).shootdown
                · split
                  · exact (h.tileEntry.of_eq e : Keeps s0 u)
                  · split
                    · exact trivial
                    · exact (h.tileEntry.of_eq e : Keeps s0 u).upd
              · split
                · split
                  · exact (h.tileEntry.of_eq e : Keeps s0 u)
                  · split
                    · rename_i u1 e2
                      unfold start
                      extract_lets
                      split
                      · split
                        · rename_i u2 e4
                          exact (((((h.tileEntry.of_eq e : Keeps s0 u).updateIfSame).of_snd e2 : Keeps s0 u1).log3.updateIfSame
                            ).of_snd e4 : Keeps s0 u2).log3
                        · rename_i u2 e4
                          exact (((((h.tileEntry.of_eq e : Keeps s0 u).updateIfSame).of_snd e2 : Keeps s0 u1).log3.updateIfSame
                            ).of_snd e4 : Keeps s0 u2).shootdown
                      · split
                        · exact (((h.tileEntry.of_eq e : Keeps s0 u).updateIfSame).of_snd e2 : Keeps s0 u1).log3
                        · split
                          · exact trivial
                          · exact (((h.tileEntry.of_eq e : Keeps s0 u).updateIfSame).of_snd e2 : Keeps s0 u1).log3.upd
                    · rename_i u1 e2
                      exact (((h.tileEntry.of_eq e : Keeps s0 u).updateIfSame).of_snd e2 : Keeps s0 u1).shootdown
                · split
                  · exact (h.tileEntry.of_eq e : Keeps s0 u)
                  · exact trivial
theorem Keeps.putRunByte {a1 a2 a3} (h : Keeps s0 s) : Keeps s0 (State.putRunByte s a1 a2 a3) := by
  unfold State.putRunByte
  split
  · exact h
  · exact h.setByte
theorem Keeps.logCells {a1 a2 a3 a4 a5} (h : Keeps s0 s) : Keeps s0 (State.logCells s a1 a2 a3 a4 a5) := by
  induction a5 generalizing s a1 a2 a3 a4 with
  | nil => exact h
  | cons x xs ih => exact ih h.log
theorem Keeps.writeTiles {a1 a2 a3 a4 a5 a6 a7 a8 a9} (h : Keeps s0 s) :
    SumAll (KeepsT s0) (fun x => Keeps s0 x.1) (State.writeTiles s a1 a2 a3 a4 a5 a6 a7 a8 a9) := by
  induction a8 generalizing s a1 a2 a3 a4 a5 a6 a7 a9 with
  | nil => exact h
  | cons x xs ih =>
    unfold State.writeTiles
    split
    · rename_i u e
      exact ih (h.writeTile.of_eq e : Keeps s0 u)
    · exact h.writeTile
theorem Keeps.putRuns {a1 a2 a3} (h : Keeps s0 s) : Keeps s0 (State.putRuns s a1 a2 a3) := by
  induction a3 generalizing s a1 a2 with
  | nil => exact h
  | cons x xs ih =>
    refine ih ?_
    split
    · exact h.putRunByte
    · exact h
theorem Keeps.putCellsIn {a1 a2 a3 a4 a5 a6} (h : Keeps s0 s) : Keeps s0 (State.putCellsIn s a1 a2 a3 a4 a5 a6) := by
  unfold State.putCellsIn
  extract_lets
  refine Keeps.putRuns ?_
  split
  · exact h.logCells
  · exact h
theorem Keeps.precheckTiles {a1 a2 a3 a4 a5} (h : Keeps s0 s) : KeepsTW s0 (State.precheckTiles s a1 a2 a3 a4 a5) := by
  induction a5 generalizing s a1 a2 a3 a4 with
  | nil => exact h
  | cons x xs ih =>
    unfold State.precheckTiles
    split
    · exact trivial
    · rename_i u e
      split
      · exact trivial
      · split
        · exact trivial
        · exact ih (h.tileEntry.of_eq e : Keeps s0 u)
theorem Keeps.tensorWrite {a1 a2 a3 a4 a5 a6} (h : Keeps s0 s) : KeepsTW s0 (State.tensorWrite s a1 a2 a3 a4 a5 a6) := by
  unfold State.tensorWrite
  split
  · exact trivial
  · split
    · split
      · exact h
      · split
        · rename_i u _ e1
          split
          · exact trivial
          · split
            · exact (h.writeTiles.of_eq e1 : Keeps s0 u)
            · exact (h.writeTiles.of_eq e1 : Keeps s0 u).putCellsIn
        · rename_i u e1
          exact (h.writeTiles.of_eq e1 : Keeps s0 u)
        · exact trivial
        · exact trivial
        · rename_i u e1
          exact (h.writeTiles.of_eq e1 : Keeps s0 u)
        · rename_i u e1
          exact (h.writeTiles.of_eq e1 : Keeps s0 u)
    · exact h.precheckTiles

/-! ### Machine/ControlTensor -/

theorem Keeps.setPend {a1 a2 a3 a4} (h : Keeps s0 s) : Keeps s0 (State.setPend s a1 a2 a3 a4) := by
  unfold State.setPend
  split
  · exact h
  · exact h.modCore
theorem Keeps.spadChk {a1 a2 a3 a4}  : OptAll (KeepsB s0) (State.spadChk s a1 a2 a3 a4) := by
  unfold State.spadChk
  split
  · exact trivial
  · split
    · exact trivial
    · split <;> exact trivial
theorem Keeps.execTdset {a1 a2} (h : Keeps s0 s) : KeepsR s0 (execTdset a1 a2 s) := by
  unfold Machine.execTdset
  extract_lets
  refine Keeps.ccWord h ?_
  intro e u hu
  split
  · rename_i e1
    exact Keeps.spadChk.of_eq e1
  · split
    · exact trivial
    · exact hu.ccHold
theorem Keeps.execTdrd {a1 a2} (h : Keeps s0 s) : KeepsR s0 (execTdrd a1 a2 s) := by
  unfold Machine.execTdrd
  extract_lets
  refine Keeps.ccWord h ?_
  intro e u hu
  split
  · rename_i e1
    exact Keeps.spadChk.of_eq e1
  · exact hu.spadWrite
theorem Keeps.execTdinv {a1 a2} (h : Keeps s0 s) : KeepsR s0 (execTdinv a1 a2 s) := by
  unfold Machine.execTdinv
  exact h.ccWord (fun _ _ hu => hu.ccHold)
theorem Keeps.tileChk {a1 a2 a3}  : SumAll (fun _ => True) (KeepsB s0) (State.tileChk s a1 a2 a3) := by
  unfold State.tileChk
  split
  · exact trivial
  · exact SumAll.ite trivial trivial
theorem Keeps.execTtrd {a1 a2} (h : Keeps s0 s) : KeepsR s0 (execTtrd a1 a2 s) := by
  unfold Machine.execTtrd
  refine Keeps.ccWord h ?_
  intro e u hu
  split
  · rename_i e1
    exact Keeps.tileChk.of_eq e1
  · split
    · rename_i e2
      exact Keeps.spadChk.of_eq e2
    · split
      · exact trivial
      · rename_i u1 e3
        exact (hu.tileEntry.of_eq e3 : Keeps s0 u1).spadWrite
theorem Keeps.execTtset {a1 a2} (h : Keeps s0 s) : KeepsR s0 (execTtset a1 a2 s) := by
  unfold Machine.execTtset
  extract_lets
  refine Keeps.ccWord h ?_
  intro e u hu
  split
  · rename_i e1
    exact Keeps.tileChk.of_eq e1
  · split
    · rename_i e2
      exact Keeps.spadChk.of_eq e2
    · split
      · exact trivial
      · exact hu.ccHold
theorem Keeps.ccTileHold {a1 a2 a3 a4} (h : Keeps s0 s) : KeepsR s0 (ccTileHold a1 a2 a3 a4 s) := by
  unfold Machine.ccTileHold
  refine Keeps.ccWord h ?_
  intro e u hu
  split
  · rename_i e1
    exact Keeps.tileChk.of_eq e1
  · exact hu.ccHold
theorem Keeps.postPage {a1 a2 a3 a4} (h : Keeps s0 s) : Keeps s0 (State.postPage s a1 a2 a3 a4) := by
  unfold State.postPage
  extract_lets
  split
  · exact h
  · split
    · exact h.upd
    · exact h.upd.wake
theorem Keeps.execPgreq {a1 a2} (h : Keeps s0 s) : KeepsR s0 (execPgreq a1 a2 s) := by
  unfold Machine.execPgreq
  extract_lets
  refine Keeps.ccWord h ?_
  intro e u hu
  split
  · exact trivial
  · split
    · exact trivial
    · split
      · exact trivial
      · exact hu.postPage
theorem Keeps.execCbstat {a1 a2} (h : Keeps s0 s) : KeepsR s0 (execCbstat a1 a2 s) := by
  unfold Machine.execCbstat
  extract_lets
  refine Keeps.ccWord h ?_
  intro e u hu
  split
  · exact trivial
  · exact hu.wrS
theorem Keeps.execCbrst {a1 a2} (h : Keeps s0 s) : KeepsR s0 (execCbrst a1 a2 s) := by
  unfold Machine.execCbrst
  extract_lets
  refine Keeps.ccWord h ?_
  intro e u hu
  split
  · exact trivial
  · exact hu.log4.setCb
theorem Keeps.ccRangeHold {a1 a2 a3 a4} (h : Keeps s0 s) : KeepsR s0 (ccRangeHold a1 a2 a3 a4 s) := by
  unfold Machine.ccRangeHold
  refine Keeps.ccWord h ?_
  intro e u hu
  split
  · split
    · exact trivial
    · exact hu.ccHold
theorem Keeps.execFetchb {a1 a2} (h : Keeps s0 s) : KeepsR s0 (execFetchb a1 a2 s) := by
  unfold Machine.execFetchb
  refine Keeps.ccWord h ?_
  intro e u hu
  extract_lets
  split
  · exact trivial
  · exact hu.modCore
theorem Keeps.lockLine {a1 a2} (h : Keeps s0 s) : Keeps s0 (State.lockLine s a1 a2) := by
  unfold State.lockLine
  extract_lets
  split
  · exact h
  · split
    · exact h
    · exact h.modCore
theorem Keeps.lockLines {a1 a2 a3} (h : Keeps s0 s) : Keeps s0 (State.lockLines s a1 a2 a3) := by
  induction a3 generalizing s a1 a2 with
  | zero => exact h
  | succ k ih => exact ih h.lockLine
theorem Keeps.execIlock {a1 a2} (h : Keeps s0 s) : KeepsR s0 (execIlock a1 a2 s) := by
  unfold Machine.execIlock
  refine Keeps.ccWord h ?_
  intro e u hu
  split
  · split
    · exact trivial
    · split
      · exact hu.wrS
      · extract_lets t1 _ t2
        have ht1 : Keeps s0 t1 := hu.lockLines
        have ht2 : Keeps s0 t2 := by
          unfold t2
          split
          · exact ht1
          · exact ht1.modCore
        exact ht2.wrS
theorem Keeps.execIunlk {a1 a2} (h : Keeps s0 s) : KeepsR s0 (execIunlk a1 a2 s) := by
  unfold Machine.execIunlk
  refine Keeps.ccWord h ?_
  intro e u hu
  split
  · split
    · exact trivial
    · exact hu.modCore

/-! ### Machine/Elems -/

theorem Keeps.readTiles {a1 a2 a3 a4 a5 a6 a7 a8} (h : Keeps s0 s) :
    SumAll (KeepsT s0) (fun x => Keeps s0 x.1) (State.readTiles s a1 a2 a3 a4 a5 a6 a7 a8) := by
  induction a7 generalizing s a1 a2 a3 a4 a5 a6 a8 with
  | nil => exact h
  | cons x xs ih =>
    unfold State.readTiles
    split
    · rename_i u e
      exact ih (h.readTile.of_eq e : Keeps s0 u)
    · rename_i u e
      exact SumAll.ite (ih (h.readTile.of_eq e : Keeps s0 u)) trivial
    · exact h.readTile
theorem Keeps.tensorReadAt {a1 a2 a3 a4 a5 a6 a7 a8} (h : Keeps s0 s) : KeepsTR s0 (State.tensorReadAt s a1 a2 a3 a4 a5 a6 a7 a8) := by
  unfold State.tensorReadAt
  extract_lets
  split
  · exact trivial
  · rename_i u e
    exact (h.readTiles.of_eq e : Keeps s0 u)
  · exact trivial
  · rename_i u _ e
    split
    · exact trivial
    · extract_lets
      split
      · exact trivial
      · split
        · exact (h.readTiles.of_eq e : Keeps s0 u)
        · exact (h.readTiles.of_eq e : Keeps s0 u).l2See
theorem Keeps.tensorRead {a1 a2 a3 a4 a5 a6 a7} (h : Keeps s0 s) : KeepsTR s0 (State.tensorRead s a1 a2 a3 a4 a5 a6 a7) := h.tensorReadAt
theorem Keeps.engHold {a1 a2 a3 a4 a5 a6} (h : Keeps s0 s) : Keeps s0 (State.engHold s a1 a2 a3 a4 a5 a6) := by
  unfold State.engHold
  exact h.place.modCore
theorem Keeps.obstacle {a1 a2} (h : KeepsTW s0 a1) : OptAll (KeepsB s0) (TWrite.obstacle a1 a2) := by
  unfold TWrite.obstacle
  split
  · exact trivial
  · exact trivial
  · exact trivial
  · exact trivial
  · rename_i u
    exact (h : Keeps s0 u)

/-! ### Machine/Access -/

theorem Keeps.pushQ {a1 a2} (h : Keeps s0 s) : Keeps s0 (State.pushQ s a1 a2) := h.modCore
theorem Keeps.accPut {a1 a2 a3 a4 a5} (h : Keeps s0 s) : Keeps s0 (State.accPut s a1 a2 a3 a4 a5) := by
  unfold State.accPut
  split
  · exact h.pushQ
  · split
    · exact h.modCore
    · exact h.wrG
theorem Keeps.stallUnless {a1}  : OptAll (KeepsB s0) (stallUnless a1) := OptAll.ite trivial trivial
theorem Keeps.orTest {a b} (ha : OptAll (KeepsB s0) a) (hb : OptAll (KeepsB s0) b) : OptAll (KeepsB s0) (orTest a b) := by
  unfold Machine.orTest
  split
  · exact ha
  · exact hb
theorem Keeps.gForm {a1 a2 a3 a4 a5 a6 a7} (h : Keeps s0 s) : KeepsR s0 (gForm a1 a2 a3 a4 a5 a6 a7 s) := by
  unfold Machine.gForm
  exact h.engWord (fun _ => Keeps.orTest Keeps.chkG Keeps.stallUnless) (fun _ _ _ _ _ hu => hu.freeG.accPut)
theorem Keeps.gOp {a1 a2 a3 a4} (h : Keeps s0 s) : KeepsR s0 (gOp a1 a2 a3 a4 s) := h.gForm
theorem Keeps.gOpi {a1 a2 a3 a4} (h : Keeps s0 s) : KeepsR s0 (gOpi a1 a2 a3 a4 s) := h.gForm
theorem Keeps.gparm {a1 a2 a3}  : SumAll (fun _ => True) (KeepsB s0) (State.gparm s a1 a2 a3) := by
  unfold State.gparm
  extract_lets _ _ _ dimOf
  split
  · exact trivial
  · split
    · exact trivial
    · split
      · exact trivial
      · split
        · exact trivial
        · split
          · exact trivial
          · split
            · unfold dimOf
              split
              · exact trivial
              · exact SumAll.ite trivial trivial
            · split
              · unfold dimOf
                split
                · exact trivial
                · exact SumAll.ite trivial trivial
              · exact trivial
theorem Keeps.execGparm {a1 a2} (h : Keeps s0 s) : KeepsR s0 (execGparm a1 a2 s) := by
  unfold Machine.execGparm
  extract_lets
  refine Keeps.engWord h ?_ ?_
  · intro e
    refine Keeps.orTest ?_ Keeps.stallUnless
    split
    · rename_i e1
      exact Keeps.gparm.of_eq e1
    · exact trivial
  · intro e q b k u hu
    split
    · rename_i e1
      exact Keeps.gparm.of_eq e1
    · exact hu.accPut
theorem Keeps.accStore {a1 a2 a3 a4} (h : Keeps s0 s) : Keeps s0 (State.accStore s a1 a2 a3 a4) := by
  unfold State.accStore
  exact h.spadWrite.setPend.modCore
theorem Keeps.execLds {a1 a2} (h : Keeps s0 s) : KeepsR s0 (execLds a1 a2 s) := by
  unfold Machine.execLds
  exact h.engWord (fun _ => Keeps.orTest Keeps.chkG (Keeps.orTest Keeps.spadChk Keeps.stallUnless)) (fun _ _ _ _ _ hu => hu.freeG.pushQ)
theorem Keeps.execLdsb {a1 a2} (h : Keeps s0 s) : KeepsR s0 (execLdsb a1 a2 s) := by
  unfold Machine.execLdsb
  exact h.engWord (fun _ => Keeps.orTest Keeps.chkG Keeps.spadChk) (fun _ _ _ _ _ hu => hu.freeG.wrG.modCore)
theorem Keeps.execSts {a1 a2} (h : Keeps s0 s) : KeepsR s0 (execSts a1 a2 s) := by
  unfold Machine.execSts
  exact h.engWord (fun _ => Keeps.orTest Keeps.chkG Keeps.spadChk) (fun _ _ _ _ _ hu => hu.freeG.accStore)
theorem Keeps.accTensor {a1 a2}  : SumAll (fun _ => True) (KeepsB s0) (State.accTensor s a1 a2) := by
  unfold State.accTensor
  extract_lets
  split
  · exact trivial
  · exact SumAll.ite trivial trivial
theorem Keeps.chkBase {a1 a2 a3}  : OptAll (KeepsB s0) (State.chkBase s a1 a2 a3) := by
  unfold State.chkBase
  split
  · exact trivial
  · exact Keeps.chkG
theorem Keeps.accRow {a1 a2 a3}  : SumAll (fun _ => True) (KeepsB s0) (State.accRow s a1 a2 a3) := by
  unfold State.accRow
  split
  · rename_i e
    exact Keeps.accTensor.of_eq e
  · split
    · rename_i e1
      exact Keeps.chkBase.of_eq e1
    · exact SumAll.ite trivial trivial
theorem Keeps.pushLoad {a1 a2 a3 a4 a5 a6 a7 a8} (h : Keeps s0 s) : Keeps s0 (State.pushLoad s a1 a2 a3 a4 a5 a6 a7 a8) := h.pushQ.modCore
theorem Keeps.accLoad {a1 a2 a3 a4} (h : Keeps s0 s) : KeepsR s0 (accLoad a1 a2 a3 a4 s) := by
  unfold Machine.accLoad
  extract_lets
  refine Keeps.engWord h ?_ ?_
  · intro e
    split
    · rename_i e1
      exact Keeps.accRow.of_eq e1
    · split
      · exact trivial
      · split
        · rename_i e2
          exact h.tensorRead.of_eq e2
        · exact trivial
  · intro e q1 b k u hu
    split
    · rename_i e1
      exact Keeps.accRow.of_eq e1
    · split
      · rename_i e2
        exact hu.tensorRead.of_eq e2
      · rename_i u1 e2
        exact (hu.tensorRead.of_eq e2 : Keeps s0 u1).pushLoad
theorem Keeps.accWrite {a1 a2 a3 a4 a5 a6} (h : Keeps s0 s) : KeepsB s0 (State.accWrite s a1 a2 a3 a4 a5 a6) := by
  unfold State.accWrite
  split
  · rename_i u e
    exact (h.tensorWrite.of_eq e : Keeps s0 u)
  · rename_i u e
    exact (h.tensorWrite.of_eq e : Keeps s0 u).engHold
  · exact trivial
  · exact trivial
  · exact trivial
theorem Keeps.execStt {a1 a2} (h : Keeps s0 s) : KeepsR s0 (execStt a1 a2 s) := by
  unfold Machine.execStt
  extract_lets
  refine Keeps.engWord h ?_ ?_
  · intro e
    split
    · rename_i e1
      exact Keeps.accRow.of_eq e1
    · exact Keeps.obstacle h.tensorWrite
  · intro e q b k u hu
    split
    · rename_i e1
      exact Keeps.accRow.of_eq e1
    · exact hu.accWrite
theorem Keeps.accIndexed {a1 a2 a3}  : SumAll (fun _ => True) (KeepsB s0) (State.accIndexed s a1 a2 a3) := by
  unfold State.accIndexed
  split
  · rename_i e
    exact Keeps.accTensor.of_eq e
  · split
    · rename_i e1
      exact Keeps.chkBase.of_eq e1
    · exact SumAll.ite trivial trivial
theorem Keeps.execGath {a1 a2} (h : Keeps s0 s) : KeepsR s0 (execGath a1 a2 s) := by
  unfold Machine.execGath
  extract_lets
  refine Keeps.engWord h ?_ ?_
  · intro e
    split
    · rename_i e1
      exact Keeps.accIndexed.of_eq e1
    · split
      · exact trivial
      · split
        · exact trivial
        · split
          · rename_i e3
            exact h.tensorRead.of_eq e3
          · exact trivial
  · intro e q1 b k u hu
    split
    · rename_i e1
      exact Keeps.accIndexed.of_eq e1
    · split
      · rename_i e2
        exact hu.tensorRead.of_eq e2
      · rename_i u1 e2
        exact (hu.tensorRead.of_eq e2 : Keeps s0 u1).pushLoad
theorem Keeps.execScat {a1 a2} (h : Keeps s0 s) : KeepsR s0 (execScat a1 a2 s) := by
  unfold Machine.execScat
  extract_lets
  refine Keeps.engWord h ?_ ?_
  · intro e
    split
    · rename_i e1
      exact Keeps.accIndexed.of_eq e1
    · split
      · exact trivial
      · exact Keeps.obstacle h.tensorWrite
  · intro e q b k u hu
    split
    · rename_i e1
      exact Keeps.accIndexed.of_eq e1
    · exact hu.accWrite
theorem Keeps.execLoopAcc {a1 a2 a3} (h : Keeps s0 s) : KeepsR s0 (execLoopAcc a1 a2 a3 s) := by
  unfold Machine.execLoopAcc
  exact h.engWord (fun _ => Keeps.orTest (OptAll.ite Keeps.chkG trivial) (OptAll.ite Keeps.stallUnless trivial))
    (fun _ _ _ _ _ hu => hu.freeG.modCore)
theorem Keeps.execSloop {a1 a2 a3} (h : Keeps s0 s) : KeepsR s0 (execSloop a1 a2 a3 s) := by
  unfold Machine.execSloop
  exact h.engWord (fun _ => OptAll.ite trivial trivial) (fun _ _ _ _ _ hu => hu.modCore)
theorem Keeps.execBpushAcc {a1 a2} (h : Keeps s0 s) : KeepsR s0 (execBpushAcc a1 a2 s) := by
  unfold Machine.execBpushAcc
  exact h.engWord (fun _ => Keeps.orTest Keeps.chkG Keeps.stallUnless) (fun _ _ _ _ _ hu => hu.freeG.modCore)
theorem Keeps.execBskipAcc {a1 a2} (h : Keeps s0 s) : KeepsR s0 (execBskipAcc a1 a2 s) := by
  unfold Machine.execBskipAcc
  extract_lets
  refine Keeps.engWord h (fun _ => trivial) ?_
  intro e q b k u hu
  split
  · exact hu
  · split
    · exact trivial
    · exact hu.modCore
theorem Keeps.execCbacq {a1 a2} (h : Keeps s0 s) : KeepsR s0 (execCbacq a1 a2 s) := by
  unfold Machine.execCbacq
  extract_lets w i cb
  refine h.engWord (fun _ => ?_) (fun _ _ _ _ _ hu => ?_)
  · cases cb with
    | none => exact trivial
    | some b => exact Keeps.stallUnless
  · cases cb with
    | none => exact trivial
    | some b => exact hu.setCb.wrG
theorem Keeps.execCbrel {a1 a2} (h : Keeps s0 s) : KeepsR s0 (execCbrel a1 a2 s) := by
  unfold Machine.execCbrel
  extract_lets
  refine Keeps.engWord h ?_ ?_
  · intro e
    split
    · exact trivial
    · exact OptAll.ite trivial trivial
  · intro e q b k u hu
    split
    · exact trivial
    · exact hu.setCb
theorem Keeps.accLevel {a1 a2 a3 a4} (h : Keeps s0 s) : KeepsR s0 (accLevel a1 a2 a3 a4 s) := by
  unfold Machine.accLevel
  exact h.engWord (fun _ => Keeps.orTest (OptAll.ite Keeps.chkG trivial) (OptAll.ite trivial trivial)) (fun _ _ _ _ _ hu => hu.freeG.modCore)
theorem Keeps.execDqflush {a1 a2} (h : Keeps s0 s) : KeepsR s0 (execDqflush a1 a2 s) := by
  unfold Machine.execDqflush
  exact h.engWord (fun _ => Keeps.stallUnless) (fun _ _ _ _ _ hu => hu.modCore)
theorem Keeps.execDqeos {a1 a2} (h : Keeps s0 s) : KeepsR s0 (execDqeos a1 a2 s) := by
  unfold Machine.execDqeos
  exact h.engWord (fun _ => Keeps.stallUnless) (fun _ _ _ _ _ hu => hu.pushQ)
theorem Keeps.execPgreqAcc {a1 a2} (h : Keeps s0 s) : KeepsR s0 (execPgreqAcc a1 a2 s) := by
  unfold Machine.execPgreqAcc
  extract_lets w at_
  have hat : ∀ e, SumAll (fun _ => True) (KeepsB s0) (at_ e) := by
    intro e
    unfold at_
    split
    · rename_i b eb
      exact Keeps.accTensor.of_eq eb
    · split
      · rename_i b eb
        exact Keeps.chkBase.of_eq eb
      · split <;> exact trivial
  refine h.engWord (fun e => ?_) (fun e _ _ _ _ hu => ?_)
  · cases eb : at_ e with
    | inr b => exact (hat e).of_eq eb
    | inl t => exact trivial
  · cases eb : at_ e with
    | inr b => exact (hat e).of_eq eb
    | inl t => exact hu.postPage
theorem Keeps.finishLanding {a1 a2} (h : Keeps s0 s) : Keeps s0 (State.finishLanding s a1 a2) := h.modCore.retireIss.signal
theorem Keeps.landAcc {a1} (h : Keeps s0 s) : Keeps s0 (State.landAcc s a1) := by
  unfold State.landAcc
  split
  · exact h
  · split
    · exact h
    · split
      · extract_lets _ t
        have ht : Keeps s0 t := h.modCore
        split
        · exact ht
        · exact ht.finishLanding
      · refine Keeps.finishLanding ?_
        split
        · exact h.modCore
        · exact h

/-! ### Machine/Phaser -/

theorem Keeps.dropTaskPhasers {a1} (h : Keeps s0 s) : Keeps s0 (State.dropTaskPhasers s a1) := h.upd

/-! ### Machine/ControlSync -/

theorem Keeps.learnPh {a1} (h : Keeps s0 s) : Keeps s0 (State.learnPh s a1) := h.modCore
theorem Keeps.phChk {a1 a2 a3}  : SumAll (fun _ => True) (KeepsB s0) (State.phChk s a1 a2 a3) := by
  unfold State.phChk
  split
  · exact trivial
  · split
    · exact trivial
    · split
      · exact trivial
      · extract_lets
        split
        · exact trivial
        · split
          · exact trivial
          · exact SumAll.ite trivial trivial
theorem Keeps.execPhreg {a1 a2} (h : Keeps s0 s) : KeepsR s0 (execPhreg a1 a2 s) := by
  unfold Machine.execPhreg
  extract_lets
  refine Keeps.ccWord h ?_
  intro e u hu
  split
  · exact trivial
  · exact hu.ccHold
theorem Keeps.execPhdrop {a1 a2} (h : Keeps s0 s) : KeepsR s0 (execPhdrop a1 a2 s) := by
  unfold Machine.execPhdrop
  extract_lets
  refine Keeps.ccWord h ?_
  intro e u hu
  split
  · exact trivial
  · exact hu.ccHold
theorem Keeps.execPhsig {a1 a2} (h : Keeps s0 s) : KeepsR s0 (execPhsig a1 a2 s) := by
  unfold Machine.execPhsig
  extract_lets
  refine Keeps.ccWord h ?_
  intro e u hu
  split
  · rename_i e1
    exact Keeps.phChk.of_eq e1
  · split
    · exact trivial
    · exact hu.learnPh.setPhaser
theorem Keeps.phHold {a1 a2} (h : Keeps s0 s) : KeepsB s0 (State.phHold s a1 a2) := h.modCore
theorem Keeps.phAwait {a1 a2 a3 a4} (h : Keeps s0 s) : KeepsB s0 (phAwait a1 a2 a3 a4 s) := by
  unfold Machine.phAwait
  extract_lets
  split
  · exact h
  · split
    · exact h
    · exact h.setPhaser
theorem Keeps.execPhwait {a1 a2} (h : Keeps s0 s) : KeepsR s0 (execPhwait a1 a2 s) := by
  unfold Machine.execPhwait
  extract_lets
  refine Keeps.ccWordAt h ?_
  intro e u hu
  split
  · exact hu.phAwait
  · split
    · rename_i e1
      exact Keeps.phChk.of_eq e1
    · split
      · exact hu.learnPh.phHold
      · exact hu.learnPh.phAwait
theorem Keeps.execPhsw {a1 a2} (h : Keeps s0 s) : KeepsR s0 (execPhsw a1 a2 s) := by
  unfold Machine.execPhsw
  extract_lets
  refine Keeps.ccWordAt h ?_
  intro e u hu
  split
  · exact hu.phAwait
  · split
    · rename_i e1
      exact Keeps.phChk.of_eq e1
    · split
      · exact trivial
      · exact hu.learnPh.setPhaser.phHold
theorem Keeps.execPhexp {a1 a2} (h : Keeps s0 s) : KeepsR s0 (execPhexp a1 a2 s) := by
  unfold Machine.execPhexp
  extract_lets
  refine Keeps.ccWord h ?_
  intro e u hu
  split
  · rename_i e1
    exact Keeps.phChk.of_eq e1
  · exact hu.learnPh.setPhaser
theorem Keeps.execPhrd {a1 a2} (h : Keeps s0 s) : KeepsR s0 (execPhrd a1 a2 s) := by
  unfold Machine.execPhrd
  extract_lets
  refine Keeps.ccWord h ?_
  intro e u hu
  split
  · rename_i e1
    exact Keeps.phChk.of_eq e1
  · exact hu.learnPh.wrS
theorem Keeps.execPhase {a1 a2} (h : Keeps s0 s) : KeepsR s0 (execPhase a1 a2 s) := by
  unfold Machine.execPhase
  extract_lets
  refine Keeps.ccWordAt h ?_
  intro e u hu
  split
  · split
    · exact hu.phAwait
    · split
      · exact trivial
      · split
        · exact trivial
        · split
          · exact trivial
          · extract_lets t1
            have ht1 : Keeps s0 t1 := by
              unfold t1
              split
              · exact hu.setCcCrd
              · exact hu
            exact ht1.setPhaser.phHold
  · exact trivial
theorem Keeps.spawnChk {a1}  : OptAll (KeepsB s0) (State.spawnChk s a1) := by
  unfold State.spawnChk
  split
  · exact trivial
  · split
    · exact trivial
    · exact OptAll.ite trivial trivial
theorem Keeps.execSpawn {a1 a2} (h : Keeps s0 s) : KeepsR s0 (execSpawn a1 a2 s) := by
  unfold Machine.execSpawn
  extract_lets
  refine Keeps.ccWord h ?_
  intro e u hu
  split
  · rename_i e1
    exact Keeps.spawnChk.of_eq e1
  · exact hu.ccHold
theorem Keeps.execSpawnw {a1 a2} (h : Keeps s0 s) : KeepsR s0 (execSpawnw a1 a2 s) := by
  unfold Machine.execSpawnw
  extract_lets
  refine Keeps.ccWord h ?_
  intro e u hu
  split
  · split <;> exact hu
  · split
    · rename_i e1
      exact Keeps.spawnChk.of_eq e1
    · exact hu.ccHold.modCore
theorem Keeps.dropExe {a1} (h : Keeps s0 s) : Keeps s0 (State.dropExe s a1) := by
  unfold State.dropExe
  split
  · exact h
  · exact h.modCore.retireIss
theorem Keeps.dropMtx {a1 a2} (h : Keeps s0 s) : Keeps s0 (State.dropMtx s a1 a2) := by
  unfold State.dropMtx
  extract_lets
  split
  · exact h.modCore.retireIss
  · exact h.upd.modCore.trimEng
theorem Keeps.dropCpy {a1 a2} (h : Keeps s0 s) : OptAll (Keeps s0) (State.dropCpy s a1 a2) := by
  unfold State.dropCpy
  unfold Option.map
  split
  · exact h.modCore.retireIss
  · exact trivial
theorem Keeps.skipWord {a1 a2 a3 a4} (h : Keeps s0 s) : Keeps s0 (State.skipWord s a1 a2 a3 a4) := by
  unfold State.skipWord
  split
  · exact h.dropExe
  · split
    · exact h.dropMtx
    · split
      · rename_i u e
        exact ((OptAll.ite h.dropCpy OptAll.none).of_eq e : Keeps s0 u)
      · exact h.passWord
theorem Keeps.trapReturn {a1} (h : Keeps s0 s) : Keeps s0 (State.trapReturn s a1) := by
  unfold State.trapReturn
  extract_lets _ _ _ _ t
  have ht : Keeps s0 t := h.modCore
  split
  · exact ht.skipWord
  · exact ht
theorem Keeps.execTret {a1 a2} (h : Keeps s0 s) : KeepsR s0 (execTret a1 a2 s) := by
  unfold Machine.execTret
  extract_lets
  refine Keeps.ccWord h ?_
  intro e u hu
  split
  · exact trivial
  · exact hu.trapReturn
theorem Keeps.modLaunch {a1 a2} (h : Keeps s0 s) : Keeps s0 (State.modLaunch s a1 a2) := h.upd
theorem Keeps.endTask {a1 a2 a3} (h : Keeps s0 s) : Keeps s0 (State.endTask s a1 a2 a3) := by
  unfold State.endTask
  extract_lets _ _ t
  have ht : Keeps s0 t := h.orFlags
  exact ht.modLaunch.dropTaskPhasers.modCore
theorem Keeps.execTend {a1 a2} (h : Keeps s0 s) : KeepsR s0 (execTend a1 a2 s) := by
  unfold Machine.execTend
  extract_lets
  refine Keeps.ccWord h ?_
  intro e u hu
  split
  · exact trivial
  · split
    · exact trivial
    · split
      · exact hu.endTask
      · exact hu.modCore

/-! ### Machine/Exe -/

theorem Keeps.chkLanded {a1 a2}  : OptAll (KeepsB s0) (State.chkLanded s a1 a2) := OptAll.ite (OptAll.ite trivial trivial) trivial
theorem Keeps.chkDead {a1 a2}  : OptAll (KeepsB s0) (State.chkDead s a1 a2) := OptAll.ite trivial trivial
theorem Keeps.chkV {a1 a2}  : OptAll (KeepsB s0) (State.chkV s a1 a2) := by
  induction a2 generalizing s a1 with
  | nil => exact trivial
  | cons x xs ih => exact OptAll.ite ih (Keeps.orTest Keeps.chkLanded (Keeps.orTest Keeps.chkDead ih))
theorem Keeps.chkP {a1 a2}  : OptAll (KeepsB s0) (State.chkP s a1 a2) := by
  induction a2 generalizing s a1 with
  | nil => exact trivial
  | cons x xs ih => exact OptAll.ite ih (Keeps.orTest Keeps.chkLanded ih)
theorem Keeps.chkQ {a1 a2}  : OptAll (KeepsB s0) (State.chkQ s a1 a2) := by
  induction a2 generalizing s a1 with
  | nil => exact trivial
  | cons x xs ih => exact Keeps.orTest Keeps.chkLanded (Keeps.orTest Keeps.chkDead ih)
theorem Keeps.freeV {a1 a2} (h : Keeps s0 s) : Keeps s0 (State.freeV s a1 a2) := by
  induction a2 generalizing s a1 with
  | nil => exact h
  | cons x xs ih =>
    refine ih ?_
    split
    · exact h.modCore
    · exact h
theorem Keeps.freeQ {a1 a2} (h : Keeps s0 s) : Keeps s0 (State.freeQ s a1 a2) := by
  induction a2 generalizing s a1 with
  | nil => exact h
  | cons x xs ih =>
    refine ih ?_
    split
    · exact h.modCore
    · exact h
theorem Keeps.exePut {a1 a2 a3 a4 a5 a6 a7} (h : Keeps s0 s) : Keeps s0 (State.exePut s a1 a2 a3 a4 a5 a6 a7) := by
  unfold State.exePut
  exact h.modCore
theorem Keeps.exeWord {a1 a2 a3 a4 a5 a6 a7 test a8 post} (h : Keeps s0 s) (htest : ∀ e, OptAll (KeepsB s0) (test e))
    (hpost : ∀ b u, Keeps s0 u → Keeps s0 (post b u)) :
    KeepsR s0 (exeWord a1 a2 a3 a4 a5 a6 a7 test a8 post s) := by
  unfold Machine.exeWord
  exact h.engWord (fun _ => Keeps.orTest Keeps.chkV (Keeps.orTest Keeps.chkP (Keeps.orTest Keeps.chkQ (Keeps.orTest (htest _) Keeps.stallUnless))))
    (fun _ _ _ _ _ hu => hpost _ _ hu.freeV.freeQ.exePut)
theorem Keeps.exeOp {a1 a2 a3 a4 a5 a6} (h : Keeps s0 s) : KeepsR s0 (exeOp a1 a2 a3 a4 a5 a6 s) := h.exeWord (fun _ => trivial) (fun _ _ hu => hu)
theorem Keeps.exeApply {a1 a2} (h : Keeps s0 s) : Keeps s0 (State.exeApply s a1 a2) := by
  unfold State.exeApply
  split
  · exact h.modCore
  · exact h.modCore
  · exact h.modCore
  · exact h.modCore
  · exact h.modCore
  · exact h.modCore
  · extract_lets t
    have ht : Keeps s0 t := h.modCore
    split
    · exact ht.putFlags
    · exact ht
  · exact h.modCore
  · exact h.modCore
  · exact h.modCore
  · exact h.modCore
theorem Keeps.exeApplyAll {a1 a2} (h : Keeps s0 s) : Keeps s0 (State.exeApplyAll s a1 a2) := by
  induction a2 generalizing s a1 with
  | nil => exact h
  | cons x xs ih => exact ih h.exeApply
theorem Keeps.commitExe {a1} (h : Keeps s0 s) : Keeps s0 (State.commitExe s a1) := by
  unfold State.commitExe
  split
  · exact h
  · split
    · exact h
    · split
      · exact h.raise
      · extract_lets t
        have ht : Keeps s0 t := h.modCore.exeApplyAll
        exact ht.retireIss.signal

/-! ### Machine/Matrix -/

theorem Keeps.fetch {a1 a2 a3 a4 a5} (h : Keeps s0 s) : KeepsF s0 (State.fetch s a1 a2 a3 a4 a5) := by
  unfold State.fetch
  extract_lets
  split
  · exact trivial
  · rename_i u e
    exact (h.tensorRead.of_eq e : Keeps s0 u)
  · exact h
  · rename_i u e
    exact (h.tensorRead.of_eq e : Keeps s0 u)
theorem Keeps.mtxWord {a1 a2 a3 a4} (h : Keeps s0 s) : KeepsR s0 (mtxWord a1 a2 a3 a4 s) := by
  unfold Machine.mtxWord
  extract_lets
  split
  · exact h
  · split
    · exact h.raise
    · split
      · exact h
      · exact h.raise
      · extract_lets _ t
        have ht : Keeps s0 t := h.upd.setCore
        split
        · exact h
        · split
          · exact h.modCore
          · split
            · exact h.raise
            · exact h
            · extract_lets t2
              have ht2 : Keeps s0 t2 := ht.consume.modCore
              split
              · exact ht2
              · exact h
theorem Keeps.pairAt {a1 a2 a3}  : SumAll (fun _ => True) (KeepsB s0) (State.pairAt s a1 a2 a3) := by
  unfold State.pairAt
  extract_lets
  split
  · exact trivial
  · split
    · exact trivial
    · exact trivial
    · exact SumAll.ite trivial trivial
theorem Keeps.cAt {a1 a2 a3 a4 a5}  : SumAll (fun _ => True) (KeepsB s0) (State.cAt s a1 a2 a3 a4 a5) := by
  unfold State.cAt
  extract_lets
  split
  · exact trivial
  · split
    · exact trivial
    · exact trivial
    · exact SumAll.ite trivial trivial
theorem Keeps.execMlda {a1 a2} (h : Keeps s0 s) : KeepsR s0 (execMlda a1 a2 s) := by
  unfold Machine.execMlda
  exact h.mtxWord
theorem Keeps.execMldb {a1 a2} (h : Keeps s0 s) : KeepsR s0 (execMldb a1 a2 s) := by
  unfold Machine.execMldb
  exact h.mtxWord
theorem Keeps.execMgo {a1 a2} (h : Keeps s0 s) : KeepsR s0 (execMgo a1 a2 s) := by
  unfold Machine.execMgo
  exact h.mtxWord
theorem Keeps.mtxDrain {a1 a2 a3} (h : Keeps s0 s) : KeepsR s0 (mtxDrain a1 a2 a3 s) := h.mtxWord
theorem Keeps.execMinit {a1 a2} (h : Keeps s0 s) : KeepsR s0 (execMinit a1 a2 s) := by
  unfold Machine.execMinit
  exact h.mtxWord
theorem Keeps.setOp {a1 a2} (h : Keeps s0 s) : Keeps s0 (State.setOp s a1 a2) := h.modCore
theorem Keeps.mtxWrite {a1 a2 a3 a4} (h : Keeps s0 s) : Keeps s0 (State.mtxWrite s a1 a2 a3 a4) := h.modCore
theorem Keeps.mtxRetire {a1 a2} (h : Keeps s0 s) : Keeps s0 (State.mtxRetire s a1 a2) := by
  unfold State.mtxRetire
  extract_lets t
  have ht : Keeps s0 t := h.modCore
  exact ht.retireIss.signal
theorem Keeps.mtxOnce {a1 a2 a3 a4} (h : Keeps s0 s) : KeepsA s0 (State.mtxOnce s a1 a2 a3 a4) := by
  unfold State.mtxOnce
  split
  · exact h.mtxWrite.mtxRetire
  · exact trivial
theorem Keeps.fetchAdv {f k} (h : Keeps s0 s) (hf : KeepsF s0 f) (hk : ∀ vs u, Keeps s0 u → KeepsA s0 (k vs u)) : KeepsA s0 (Fetch.adv f s k) := by
  unfold Fetch.adv
  split
  · rename_i u
    exact hk _ _ (hf : Keeps s0 u)
  · rename_i u
    exact (hf : Keeps s0 u)
  · exact h
theorem Keeps.tbounds {a1} (h : Keeps s0 s) : KeepsA s0 (tbounds a1 s) := h
theorem Keeps.advMlda {a1 a2} (h : Keeps s0 s) : KeepsA s0 (State.advMlda s a1 a2) := by
  unfold State.advMlda
  extract_lets
  split
  · exact h.tbounds
  · split
    · exact h.tbounds
    · exact h.fetchAdv h.fetch (fun _ _ hu => hu.mtxOnce)
theorem Keeps.advMlds {a1 a2} (h : Keeps s0 s) : KeepsA s0 (State.advMlds s a1 a2) := by
  unfold State.advMlds
  extract_lets
  split
  · split
    · split
      · exact trivial
      · exact h.setCore.setOp
    · exact trivial
  · exact h.mtxOnce
theorem Keeps.advMldb {a1 a2} (h : Keeps s0 s) : KeepsA s0 (State.advMldb s a1 a2) := by
  unfold State.advMldb
  extract_lets
  split
  · exact h.tbounds
  · split
    · exact h.tbounds
    · exact h.fetchAdv h.fetch (fun _ _ hu => hu.mtxOnce)
theorem Keeps.advMsel {a1 a2} (h : Keeps s0 s) : KeepsA s0 (State.advMsel s a1 a2) := by
  unfold State.advMsel
  exact h.mtxOnce
theorem Keeps.advMclr {a1 a2} (h : Keeps s0 s) : KeepsA s0 (State.advMclr s a1 a2) := by
  unfold State.advMclr
  exact h.mtxOnce
theorem Keeps.mtxPush {a1 a2 a3 a4} (h : Keeps s0 s) : Keeps s0 (State.mtxPush s a1 a2 a3 a4) := h.modCore
theorem Keeps.advMstat {a1 a2} (h : Keeps s0 s) : KeepsA s0 (State.advMstat s a1 a2) := by
  unfold State.advMstat
  extract_lets
  split
  · exact trivial
  · exact h.mtxPush.mtxWrite.mtxRetire
theorem Keeps.advMdq {a1 a2} (h : Keeps s0 s) : KeepsA s0 (State.advMdq s a1 a2) := by
  unfold State.advMdq
  extract_lets
  split
  · exact h.mtxRetire
  · split
    · exact trivial
    · extract_lets
      split
      · exact h.mtxPush.mtxWrite.setOp
theorem Keeps.advMinit {a1 a2} (h : Keeps s0 s) : KeepsA s0 (State.advMinit s a1 a2) := by
  unfold State.advMinit
  extract_lets
  split
  · extract_lets
    split
    · exact h.mtxRetire
    · split
      · exact h.tbounds
      · refine Keeps.fetchAdv h h.fetch ?_
        intro vs u hu
        split
        · exact trivial
        · exact hu.mtxWrite.setOp
  · exact h.tbounds
  · exact h.tbounds
theorem Keeps.drainRow {a1 a2 a3 a4 a5 a6 a7 a8 a9 then_} (h : Keeps s0 s) (hthen : ∀ l u, Keeps s0 u → Keeps s0 (then_ l u)) :
    KeepsA s0 (State.drainRow s a1 a2 a3 a4 a5 a6 a7 a8 a9 then_) := by
  unfold State.drainRow
  extract_lets
  split
  · exact trivial
  · split
    · exact h.tbounds
    · split
      · rename_i u e
        exact (h.writeTiles.of_eq e : Keeps s0 u)
      · exact h
      · rename_i u e
        exact (h.writeTiles.of_eq e : Keeps s0 u)
      · rename_i u e
        exact (h.writeTiles.of_eq e : Keeps s0 u)
      · rename_i u e
        exact (h.writeTiles.of_eq e : Keeps s0 u)
      · rename_i u _ e
        split
        · exact (h.writeTiles.of_eq e : Keeps s0 u)
        · split
          · exact (h.writeTiles.of_eq e : Keeps s0 u)
          · split
            · exact (h.writeTiles.of_eq e : Keeps s0 u)
            · extract_lets t _ _ _ _ t1
              have ht : Keeps s0 t := (h.writeTiles.of_eq e : Keeps s0 u).l2See
              have ht1 : Keeps s0 t1 := ht.mtxWrite
              split
              · exact hthen _ _ ht1.writeBytes
              · exact hthen _ _ ht1.upd
theorem Keeps.advDrain {a1 a2} (h : Keeps s0 s) : KeepsA s0 (State.advDrain s a1 a2) := by
  unfold State.advDrain
  extract_lets
  split
  · extract_lets
    split
    · split
      · exact trivial
      · exact h.mtxRetire
    · split
      · exact h.tbounds
      · exact h.drainRow (fun _ _ hu => hu.setOp)
  · exact h.tbounds
  · exact h.tbounds
theorem Keeps.pointA {a1 a2 a3 a4 a5 a6 a7 k} (h : Keeps s0 s) (hk : ∀ l u, Keeps s0 u → KeepsA s0 (k l u)) :
    KeepsA s0 (State.pointA s a1 a2 a3 a4 a5 a6 a7 k) := by
  unfold State.pointA
  extract_lets
  split
  · split
    · exact h.tbounds
    · exact hk _ _ h
  · exact h.fetchAdv h.fetch (fun _ _ hu => hk _ _ hu)
theorem Keeps.pointB {a1 a2 a3 a4 a5 a6 a7 k} (h : Keeps s0 s) (hk : ∀ l u, Keeps s0 u → KeepsA s0 (k l u)) :
    KeepsA s0 (State.pointB s a1 a2 a3 a4 a5 a6 a7 k) := by
  unfold State.pointB
  extract_lets
  split
  · split
    · exact h.tbounds
    · exact hk _ _ h
  · exact h.fetchAdv h.fetch (fun _ _ hu => hk _ _ hu)
theorem Keeps.advMgo {a1 a2} (h : Keeps s0 s) : KeepsA s0 (State.advMgo s a1 a2) := by
  unfold State.advMgo
  extract_lets _ _ _ _ _ _ _ t1
  have ht1 : Keeps s0 t1 := by
    unfold t1
    split
    · exact h.modCore
    · exact h
  split
  · split
    · exact trivial
    · exact h.mtxRetire
  · split
    · exact h.modCore
    · split
      · extract_lets
        split
        · split
          · exact h.drainRow (fun _ _ hu => hu.setOp)
          · split
            · exact trivial
            · exact h.mtxWrite.setOp
        · split
          · exact h.tbounds
          · split
            · exact h.tbounds
            · split
              · exact h.tbounds
              · refine Keeps.pointA ht1 ?_
                intro l u hu
                refine Keeps.pointB hu ?_
                intro l1 u1 hu1
                split
                · exact trivial
                · extract_lets _ _ t2
                  have ht2 : Keeps s0 t2 := hu1.mtxWrite
                  exact ht2.setOp
      · exact h.tbounds
      · exact h.tbounds
      · exact h.tbounds
theorem Keeps.mtxAdv {a1 a2} (h : Keeps s0 s) : KeepsA s0 (State.mtxAdv s a1 a2) := by
  unfold State.mtxAdv
  split
  · exact h.advMldb
  · exact h.advMlds
  · exact h.advMgo
  · exact h.advDrain
  · exact h.advMinit
  · exact h.mtxOnce
  · exact h.advMstat
  · exact h.advMdq
  · exact h.advMclr
  · exact h.advMlda
  · exact h.advMsel
  · split
    · exact h.mtxRetire
    · exact trivial
  · split
    · exact h.mtxRetire
    · exact trivial
theorem Keeps.mtxTry {a1 a2} (h : Keeps s0 s) : OptAll (Keeps s0) (State.mtxTry s a1 a2) := by
  unfold State.mtxTry
  split
  · exact trivial
  · split
    · exact trivial
    · rename_i u e
      exact (h.mtxAdv.of_eq e : Keeps s0 u)
    · rename_i u e
      exact OptAll.ite (OptAll.ite trivial ((h.mtxAdv.of_eq e : Keeps s0 u).record.setOp)) ((h.mtxAdv.of_eq e : Keeps s0 u).raise)
theorem Keeps.mtxPick {a1 a2} (h : Keeps s0 s) : OptAll (Keeps s0) (State.mtxPick s a1 a2) := by
  induction a2 generalizing s a1 with
  | nil => exact trivial
  | cons x xs ih =>
    unfold State.mtxPick
    split
    · exact ih h
    · rename_i u e
      exact OptAll.ite (h.mtxTry.of_eq e : Keeps s0 u)
        (OptAll.ite (Keeps.getD (ih h) (h.mtxTry.of_eq e : Keeps s0 u)) (h.mtxTry.of_eq e : Keeps s0 u))
theorem Keeps.commitMtx {a1} (h : Keeps s0 s) : Keeps s0 (State.commitMtx s a1) := by
  unfold State.commitMtx
  extract_lets t
  have ht : Keeps s0 t := h.selfClear
  split
  · exact Keeps.getD ht.mtxPick ht
  · exact ht

/-! ### Machine/Copy -/

theorem Keeps.locRead {a1 a2 a3 a4 then_} (h : Keeps s0 s) (hthen : ∀ bs rs u, Keeps s0 u → KeepsA s0 (then_ bs rs u)) :
    KeepsA s0 (State.locRead s a1 a2 a3 a4 then_) := by
  unfold State.locRead
  split
  · exact hthen _ _ _ h
  · exact hthen _ _ _ h
  · split
    · exact h
    · split
      · exact h
      · exact hthen _ _ _ h.l2Raw
  · split
    · exact h
    · split
      · exact h
      · rename_i u e1
        exact (h.tensorReadAt.of_eq e1 : Keeps s0 u)
      · exact trivial
      · rename_i u e1
        exact hthen _ _ _ (h.tensorReadAt.of_eq e1 : Keeps s0 u)
theorem Keeps.locWrite {a1 a2 a3 a4 a5 a6 a7 a8 then_} (h : Keeps s0 s) (hthen : ∀ rs u, Keeps s0 u → KeepsA s0 (then_ rs u)) :
    KeepsA s0 (State.locWrite s a1 a2 a3 a4 a5 a6 a7 a8 then_) := by
  unfold State.locWrite
  split
  · exact hthen _ _ h
  · extract_lets
    refine hthen _ _ ?_
    split
    · exact h.spadWrite
    · exact h.modCore
  · split
    · exact h
    · exact hthen _ _ h.l2Raw.writeBytes
  · split
    · exact h
    · rename_i e
      extract_lets
      split
      · exact h
      · split
        · rename_i u e1
          exact (h.writeTiles.of_eq e1 : Keeps s0 u)
        · exact h
        · rename_i u e1
          exact (h.writeTiles.of_eq e1 : Keeps s0 u)
        · rename_i u e1
          exact (h.writeTiles.of_eq e1 : Keeps s0 u)
        · rename_i u e1
          exact (h.writeTiles.of_eq e1 : Keeps s0 u)
        · rename_i u _ e1
          split
          · exact (h.writeTiles.of_eq e1 : Keeps s0 u)
          · extract_lets _ t
            have ht : Keeps s0 t := (h.writeTiles.of_eq e1 : Keeps s0 u).l2See
            refine hthen _ _ ?_
            split
            · exact ht.putCellsIn
            · exact ht.writeBytes
theorem Keeps.moveOne {a1 a2 a3 a4 a5 a6 a7 then_} (h : Keeps s0 s) (hthen : ∀ rs u, Keeps s0 u → KeepsA s0 (then_ rs u)) :
    KeepsA s0 (State.moveOne s a1 a2 a3 a4 a5 a6 a7 then_) := h.locRead (fun _ _ _ hu => hu.locWrite (fun _ _ hu1 => hthen _ _ hu1))
theorem Keeps.cpyTensor {a1 a2}  : SumAll (fun _ => True) (KeepsB s0) (State.cpyTensor s a1 a2) := by
  unfold State.cpyTensor
  split <;> exact trivial
theorem Keeps.spadRange {a1 a2}  : OptAll (KeepsB s0) (spadRange a1 a2) := OptAll.ite trivial trivial
theorem Keeps.cpyCommon {a1 a2 a3 a4 a5}  : OptAll (KeepsB s0) (State.cpyCommon s a1 a2 a3 a4 a5) := by
  unfold State.cpyCommon
  exact OptAll.ite trivial (OptAll.ite trivial (OptAll.ite trivial trivial))
theorem Keeps.cpyRows {a1 a2 a3 a4}  : OptAll (KeepsB s0) (State.cpyRows s a1 a2 a3 a4) := by
  unfold State.cpyRows
  split
  · rename_i e
    exact Keeps.cpyTensor.of_eq e
  · extract_lets
    refine OptAll.ite trivial (OptAll.ite trivial (OptAll.ite trivial (OptAll.ite trivial (OptAll.ite trivial ?_))))
    split
    · rename_i e
      exact (OptAll.ite OptAll.none Keeps.spadRange).of_eq e
    · exact OptAll.ite trivial trivial
theorem Keeps.cpyTiles {a1 a2 a3 a4}  : OptAll (KeepsB s0) (State.cpyTiles s a1 a2 a3 a4) := by
  unfold State.cpyTiles
  extract_lets chk
  refine Keeps.orTest ?_ ?_
  · split
    · unfold chk
      split
      · rename_i e1
        exact Keeps.cpyTensor.of_eq e1
      · exact OptAll.ite trivial trivial
    · exact trivial
  · refine Keeps.orTest ?_ ?_
    · split
      · unfold chk
        split
        · rename_i e1
          exact Keeps.cpyTensor.of_eq e1
        · exact OptAll.ite trivial trivial
      · exact trivial
    · split
      · exact OptAll.ite trivial trivial
      · exact trivial
theorem Keeps.cpyRaw {a1 a2}  : OptAll (KeepsB s0) (State.cpyRaw s a1 a2) := by
  unfold State.cpyRaw
  extract_lets
  split <;> exact trivial
theorem Keeps.cpyPend {a1 a2}  : OptAll (KeepsB s0) (State.cpyPend s a1 a2) := by
  unfold State.cpyPend
  unfold Option.map
  split <;> exact trivial
theorem Keeps.cpyMoves {a1 a2 a3 a4 a5}  : OptAll (KeepsB s0) (State.cpyMoves s a1 a2 a3 a4 a5) := by
  unfold State.cpyMoves
  split
  · exact Keeps.orTest (OptAll.ite trivial (Keeps.orTest Keeps.spadRange Keeps.cpyPend)) (OptAll.ite trivial Keeps.spadRange)
  · exact Keeps.orTest (OptAll.ite trivial trivial) Keeps.cpyRows
  · refine Keeps.orTest Keeps.cpyTiles ?_
    split
    · exact trivial
    · split
      · rename_i e1
        exact Keeps.cpyTensor.of_eq e1
      · exact OptAll.ite trivial Keeps.spadRange
      · exact trivial
  · exact Keeps.orTest (OptAll.ite trivial trivial) (Keeps.orTest (OptAll.ite trivial Keeps.spadRange) Keeps.cpyRaw)
theorem Keeps.jobPend {a1 a2}  : OptAll (KeepsB s0) (State.jobPend s a1 a2) := by
  unfold State.jobPend
  induction (a2.spadParts (s.lenDesc s.cur a1 a2)).1 with
  | nil => exact trivial
  | cons x xs ih => exact Keeps.orTest Keeps.cpyPend ih
theorem Keeps.setSlot {a1 a2 a3 a4 a5} (h : Keeps s0 s) : Keeps s0 (State.setSlot s a1 a2 a3 a4 a5) := h.log.modCore
theorem Keeps.autoAdvance {a1 a2 a3} (h : Keeps s0 s) : Keeps s0 (State.autoAdvance s a1 a2 a3) := by
  unfold State.autoAdvance
  extract_lets _ _ _ _ _ _ _ _ t _ t1 _ t2
  have ht : Keeps s0 t := h.setSlot
  have ht1 : Keeps s0 t1 := h.setSlot
  have ht2 : Keeps s0 t2 := h.setSlot
  split
  · exact h.setSlot
  · split
    · exact h
    · split
      · exact ht
      · exact ht.setSlot
  · split
    · exact h
    · exact ht1.setSlot
  · split
    · exact h
    · split
      · exact ht2
      · exact ht2.setSlot
theorem Keeps.slotAdvance {a1 a2 a3} (h : Keeps s0 s) : Keeps s0 (State.slotAdvance s a1 a2 a3) := by
  unfold State.slotAdvance
  split
  · exact h.setSlot
  · exact h.autoAdvance
theorem Keeps.cpyWord {a1 a2 test body} (h : Keeps s0 s) (htest : ∀ e j, OptAll (KeepsB s0) (test e j))
    (hbody : ∀ e j i u, Keeps s0 u → KeepsB s0 (body e j i u)) :
    KeepsR s0 (cpyWord a1 a2 test body s) := by
  unfold Machine.cpyWord
  exact h.engWord (fun _ => OptAll.ite trivial (Keeps.orTest (htest _ _) Keeps.jobPend)) (fun _ _ _ _ _ hu => hbody _ _ _ _ hu)
theorem Keeps.cpyStart {a1 a2 a3 a4 a5 a6} (h : Keeps s0 s) : Keeps s0 (State.cpyStart s a1 a2 a3 a4 a5 a6) := by
  unfold State.cpyStart
  extract_lets _ t
  have ht : Keeps s0 t := h.foldl (fun _ _ hx => hx.setPend)
  exact ht.modCore
theorem Keeps.cpyHold {a1 a2 a3 a4 a5} (h : Keeps s0 s) : KeepsB s0 (State.cpyHold s a1 a2 a3 a4 a5) := by
  unfold State.cpyHold
  extract_lets t
  have ht : Keeps s0 t := h.slotAdvance
  exact ht.engHold.retireIss
theorem Keeps.cpyMover {u a1 a2 a3 a4 a5} (h : Keeps s0 s) : KeepsB s0 (State.cpyMover u a1 a2 a3 a4 a5 s) := by
  unfold State.cpyMover
  split
  · extract_lets
    split
    · exact h.cpyHold
    · exact h.cpyStart
theorem Keeps.cpyCopy {a1 a2} (h : Keeps s0 s) :
    KeepsR s0 (cpyCopy a1 a2 s) :=
  h.cpyWord (fun _ _ => Keeps.orTest Keeps.cpyCommon (Keeps.orTest Keeps.cpyMoves Keeps.stallUnless)) (fun _ _ _ _ hu => hu.cpyMover)
theorem Keeps.execCfill {a1 a2} (h : Keeps s0 s) : KeepsR s0 (execCfill a1 a2 s) := by
  unfold Machine.execCfill
  exact h.cpyWord (fun _ _ => Keeps.orTest Keeps.cpyCommon (Keeps.orTest (OptAll.ite trivial Keeps.spadRange) (Keeps.orTest Keeps.spadRange (Keeps.orTest Keeps.cpyPend (Keeps.orTest Keeps.cpyMoves Keeps.stallUnless)))))
    (fun _ _ _ _ hu => hu.cpyMover)
theorem Keeps.cpyFar {a1 a2 a3 a4}  : OptAll (KeepsB s0) (State.cpyFar s a1 a2 a3 a4) := by
  unfold State.cpyFar
  refine Keeps.orTest Keeps.cpyCommon ?_
  split
  · exact Keeps.orTest (OptAll.ite trivial trivial) (Keeps.orTest Keeps.spadRange (OptAll.ite Keeps.cpyRaw trivial))
  · split
    · rename_i e
      exact Keeps.cpyTensor.of_eq e
    · exact Keeps.orTest (OptAll.ite Keeps.spadRange Keeps.cpyTiles) (OptAll.ite Keeps.cpyTiles trivial)
theorem Keeps.cpyRemote {a1 a2 a3} (h : Keeps s0 s) :
    KeepsR s0 (cpyRemote a1 a2 a3 s) := h.cpyWord (fun _ _ => Keeps.cpyFar) (fun _ _ _ _ hu => hu.cpyHold)
theorem Keeps.execCxch {a1 a2} (h : Keeps s0 s) : KeepsR s0 (execCxch a1 a2 s) := by
  unfold Machine.execCxch
  exact h.cpyWord (fun _ _ => Keeps.orTest Keeps.cpyCommon (Keeps.orTest (OptAll.ite trivial trivial) (Keeps.orTest Keeps.spadRange Keeps.cpyPend)))
    (fun _ _ _ _ hu => hu.cpyHold)
theorem Keeps.execCcb {a1 a2} (h : Keeps s0 s) : KeepsR s0 (execCcb a1 a2 s) := by
  unfold Machine.execCcb
  extract_lets
  refine Keeps.cpyWord h ?_ ?_
  · intro e j
    refine Keeps.orTest Keeps.cpyCommon ?_
    split
    · exact trivial
    · exact OptAll.ite trivial (Keeps.orTest Keeps.cpyMoves Keeps.stallUnless)
  · intro e j i u hu
    split
    · exact trivial
    · exact hu.setCb.cpyStart
theorem Keeps.cpyEnts {a1 a2 a3 a4}  : OptAll (KeepsB s0) (State.cpyEnts s a1 a2 a3 a4) := by
  unfold State.cpyEnts
  refine Keeps.orTest Keeps.cpyCommon ?_
  refine Keeps.orTest (OptAll.ite trivial (OptAll.ite trivial trivial)) ?_
  refine Keeps.orTest Keeps.cpyTiles ?_
  split
  · exact OptAll.ite trivial trivial
  · exact trivial
theorem Keeps.execTcow {a1 a2} (h : Keeps s0 s) : KeepsR s0 (execTcow a1 a2 s) := by
  unfold Machine.execTcow
  exact h.cpyWord (fun _ _ => Keeps.cpyEnts) (fun _ _ _ _ hu => hu.cpyStart)
theorem Keeps.cpyMig {a1 a2 a3} (h : Keeps s0 s) : KeepsR s0 (cpyMig a1 a2 a3 s) := by
  unfold Machine.cpyMig
  refine Keeps.cpyWord h ?_ (fun _ _ _ _ hu => hu.cpyStart)
  intro e j
  refine Keeps.orTest Keeps.cpyEnts ?_
  split
  · exact OptAll.ite trivial trivial
  · exact trivial
theorem Keeps.execTshare {a1 a2} (h : Keeps s0 s) : KeepsR s0 (execTshare a1 a2 s) := by
  unfold Machine.execTshare
  exact h.cpyWord (fun _ _ => Keeps.cpyEnts) (fun _ _ _ _ hu => hu.cpyHold)
theorem Keeps.execTfree {a1 a2} (h : Keeps s0 s) : KeepsR s0 (execTfree a1 a2 s) := by
  unfold Machine.execTfree
  exact h.cpyWord (fun _ _ => Keeps.cpyEnts) (fun _ _ _ _ hu => hu.cpyHold)
theorem Keeps.prefTile {a1 a2 a3 a4 a5} (h : Keeps s0 s) : Keeps s0 (State.prefTile s a1 a2 a3 a4 a5) := by
  unfold State.prefTile
  split
  · exact h
  · split
    · exact h
    · rename_i u e
      split
      · exact (h.tileEntry.of_eq e : Keeps s0 u)
      · exact (h.tileEntry.of_eq e : Keeps s0 u).l2See
theorem Keeps.prefLine {a1 a2} (h : Keeps s0 s) : Keeps s0 (State.prefLine s a1 a2) := by
  unfold State.prefLine
  split
  · exact h
  · exact h.l2Raw
theorem Keeps.cpyPrefetch {a1 a2 a3} (h : Keeps s0 s) : Keeps s0 (State.cpyPrefetch s a1 a2 a3) := by
  unfold State.cpyPrefetch
  split
  · split
    · exact h
    · exact h.foldl (fun _ _ hx1 => hx1.prefTile)
  · exact h.foldl (fun _ _ hx => hx.prefLine)
theorem Keeps.execCpref {a1 a2} (h : Keeps s0 s) : KeepsR s0 (execCpref a1 a2 s) := by
  unfold Machine.execCpref
  exact h.cpyWord (fun _ _ => Keeps.orTest Keeps.cpyCommon (OptAll.ite trivial trivial)) (fun _ _ _ _ hu => hu.cpyPrefetch.slotAdvance)
theorem Keeps.execCsync {a1 a2} (h : Keeps s0 s) : KeepsR s0 (execCsync a1 a2 s) := by
  unfold Machine.execCsync
  exact h.engWord (fun _ => OptAll.ite trivial trivial) (fun _ _ _ _ _ hu => hu.modCore)
theorem Keeps.setCpy {a1 a2} (h : Keeps s0 s) : Keeps s0 (State.setCpy s a1 a2) := h.modCore
theorem Keeps.cpyRetire {a1 a2} (h : Keeps s0 s) : Keeps s0 (State.cpyRetire s a1 a2) := by
  unfold State.cpyRetire
  extract_lets t
  have ht : Keeps s0 t := h.modCore
  exact ht.retireIss.signal
theorem Keeps.cpyFinish {a1 a2} (h : Keeps s0 s) : Keeps s0 (State.cpyFinish s a1 a2) := by
  unfold State.cpyFinish
  extract_lets t
  have ht : Keeps s0 t := h.slotAdvance
  split
  · exact ht.setCpy
  · exact ht.cpyRetire
theorem Keeps.tcowOne {a1 a2 a3 a4 next} (h : Keeps s0 s) (hnext : ∀ u, Keeps s0 u → KeepsA s0 (next u)) :
    KeepsA s0 (State.tcowOne s a1 a2 a3 a4 next) := by
  unfold State.tcowOne
  split
  · exact h
  · rename_i u e
    split
    · exact hnext _ (h.tileEntry.of_eq e : Keeps s0 u)
    · split
      · exact trivial
      · split
        · rename_i u1 e1
          exact (((h.tileEntry.of_eq e : Keeps s0 u).cow).of_eq e1 : Keeps s0 u1)
        · rename_i u1 e1
          split
          · exact trivial
          · exact (((h.tileEntry.of_eq e : Keeps s0 u).cow).of_eq e1 : Keeps s0 u1)
        · exact trivial
theorem Keeps.tmigOne {a1 a2 a3 a4 next} (h : Keeps s0 s) (hnext : ∀ u, Keeps s0 u → KeepsA s0 (next u)) :
    KeepsA s0 (State.tmigOne s a1 a2 a3 a4 next) := by
  unfold State.tmigOne
  extract_lets
  split
  · exact h
  · rename_i u e
    split
    · exact trivial
    · split
      · exact (h.tileEntry.of_eq e : Keeps s0 u).shootdown
      · split
        · exact hnext _ (h.tileEntry.of_eq e : Keeps s0 u)
        · split
          · exact (h.tileEntry.of_eq e : Keeps s0 u).shootdown
          · split
            · exact (h.tileEntry.of_eq e : Keeps s0 u)
            · split
              · rename_i u1 e1
                exact (((h.tileEntry.of_eq e : Keeps s0 u).popPair).of_eq e1 : Keeps s0 u1)
              · rename_i u1 e1
                extract_lets t
                have ht : Keeps s0 t := (((h.tileEntry.of_eq e : Keeps s0 u).popPair).of_eq e1 : Keeps s0 u1).putEnt
                exact ht.upd
theorem Keeps.cpyAdv {a1 a2} (h : Keeps s0 s) : KeepsA s0 (State.cpyAdv s a1 a2) := by
  unfold State.cpyAdv
  extract_lets _ step
  have hstep : ∀ (runs : List TRun) (s : State), Keeps s0 s → KeepsA s0 (step runs s) := fun _ _ hu => hu.setCpy
  split
  · split
    · exact h.cpyRetire
    · exact trivial
  · split
    · exact trivial
    · split
      · split
        · exact h.cpyFinish
        · split
          · exact h
          · split
            · exact h.tcowOne (fun _ hu => hstep _ _ hu)
            · exact h.tmigOne (fun _ hu => hstep _ _ hu)
      · split
        · exact h.cpyFinish
        · refine Keeps.moveOne h ?_
          intro rs u hu
          split
          · exact hstep _ _ hu
          · exact trivial
theorem Keeps.cpyTry {a1 a2} (h : Keeps s0 s) : OptAll (Keeps s0) (State.cpyTry s a1 a2) := by
  unfold State.cpyTry
  split
  · exact trivial
  · split
    · exact trivial
    · rename_i u e
      exact (h.cpyAdv.of_eq e : Keeps s0 u)
    · rename_i u e
      exact OptAll.ite (OptAll.ite trivial ((h.cpyAdv.of_eq e : Keeps s0 u).record.setCpy)) ((h.cpyAdv.of_eq e : Keeps s0 u).raise)
theorem Keeps.cpyPick {a1 a2} (h : Keeps s0 s) : OptAll (Keeps s0) (State.cpyPick s a1 a2) := by
  induction a2 generalizing s a1 with
  | nil => exact trivial
  | cons x xs ih =>
    unfold State.cpyPick
    split
    · rename_i u e
      exact (h.cpyTry.of_eq e : Keeps s0 u)
    · exact ih h
theorem Keeps.landCpy {a1} (h : Keeps s0 s) : Keeps s0 (State.landCpy s a1) := by
  unfold State.landCpy
  extract_lets t
  have ht : Keeps s0 t := h.selfClear
  split
  · exact Keeps.getD ht.cpyPick ht
  · exact ht
theorem Keeps.execDataLanded {a1 a2} (h : Keeps s0 s) : KeepsR s0 (execDataLanded a1 a2 s) := by
  unfold Machine.execDataLanded
  split
  · exact h.landCpy
  · rename_i c
    split
    · exact h.landAcc
    · exact h
theorem Keeps.execCcbFillComplete {a1 a2} (h : Keeps s0 s) : KeepsR s0 (execCcbFillComplete a1 a2 s) := by
  unfold Machine.execCcbFillComplete
  extract_lets
  split
  · split
    · exact h
    · exact h.setCb.cpyRetire
  · exact h

/-! ### Machine/Net -/

theorem Keeps.heldFail {a1 a2 a3 a4} (h : Keeps s0 s) : Keeps s0 (State.heldFail s a1 a2 a3 a4) := by
  unfold State.heldFail
  exact h.recordOn
theorem Keeps.heldStop {a1 a2 a3} (h : Keeps s0 s) : Keeps s0 (State.heldStop s a1 a2 a3) := by
  unfold State.heldStop
  split
  · exact h.heldFail
  · extract_lets _ _ t
    have ht : Keeps s0 t := by
      unfold t
      split
      · exact h.park
      · exact h.record
    exact ht.requestStop
theorem Keeps.unparkOp {a1} (h : Keeps s0 s) : Keeps s0 (State.unparkOp s a1) := by
  unfold State.unparkOp
  split
  · split
    · exact h.modCore
    · exact h
  · exact h
theorem Keeps.modHome {a1 a2} (h : Keeps s0 s) : Keeps s0 (State.modHome s a1 a2) := by
  unfold State.modHome
  split
  · exact h.modCore
  · split
    · exact h
    · split
      · exact h
      · exact h.putImage
theorem Keeps.heldSig {a1} (h : Keeps s0 s) : Keeps s0 (State.heldSig s a1) := by
  unfold State.heldSig
  split
  · exact h
  · split
    · exact h.signal
    · exact h.modHome
theorem Keeps.lateFlags {a1 a2} (h : Keeps s0 s) : Keeps s0 (State.lateFlags s a1 a2) := by
  unfold State.lateFlags
  split
  · exact h
  · split
    · exact h.setFlags
    · split
      · exact h.orFlags
      · exact h
theorem Keeps.netChk {a1 a2 a3}  : OptAll (KeepsB s0) (State.netChk s a1 a2 a3) := by
  unfold State.netChk
  extract_lets ws
  clear_value ws
  cases e : s.spadChk (BitVec.ofNat 64 a3) 64 64 true with
  | some b => exact Keeps.spadChk.of_eq e
  | none =>
    dsimp only
    split
    · exact trivial
    · split
      · refine Keeps.orTest ?_ ?_
        · exact Keeps.spadRange
        · split
          · exact Keeps.cpyPend
          · exact trivial
      · split
        · exact trivial
        · exact trivial
theorem Keeps.netTransfer {a1 a2 a3 a4} (h : Keeps s0 s) :
    KeepsR s0 (netTransfer a1 a2 a3 a4 s) := h.engWord (fun _ => Keeps.netChk) (fun _ _ _ _ _ hu => hu.engHold.retireIss)
theorem Keeps.execNcset {a1 a2} (h : Keeps s0 s) : KeepsR s0 (execNcset a1 a2 s) := by
  unfold Machine.execNcset
  exact h.engWord (fun _ => Keeps.orTest Keeps.spadChk (OptAll.ite trivial trivial)) (fun _ _ _ _ _ hu => hu.engHold)
theorem Keeps.execNcrd {a1 a2} (h : Keeps s0 s) : KeepsR s0 (execNcrd a1 a2 s) := by
  unfold Machine.execNcrd
  exact h.engWord (fun _ => trivial) (fun _ _ _ _ _ hu => hu.spadWrite)
theorem Keeps.waitOp {a1 a2 a3 a4 a5 a6} (h : Keeps s0 s) : Keeps s0 (State.waitOp s a1 a2 a3 a4 a5 a6) := h.modCore
theorem Keeps.execNctlCancel {a1 a2} (h : Keeps s0 s) : KeepsR s0 (execNctlCancel a1 a2 s) := by
  unfold Machine.execNctlCancel
  exact h.engWord (fun _ => trivial) (fun _ _ _ _ _ hu => hu.engHold)
theorem Keeps.waitRetire {a1 a2} (h : Keeps s0 s) : OptAll (Keeps s0) (State.waitRetire s a1 a2) := by
  unfold State.waitRetire
  unfold Option.map
  split
  · exact h.modCore.retireIss.signal
  · exact trivial
theorem Keeps.ctrTest {a1 a2} (h : Keeps s0 s) : Keeps s0 (State.ctrTest s a1 a2) := by
  unfold State.ctrTest
  extract_lets
  split
  · exact h
  · exact h.modCore.signal
theorem Keeps.ctrRise {a1 a2} (h : Keeps s0 s) : Keeps s0 (State.ctrRise s a1 a2) := by
  unfold State.ctrRise
  extract_lets t
  have ht : Keeps s0 t := h.modHome
  split
  · exact ht.ctrTest
  · exact ht
theorem Keeps.sendUe {a1 a2} (h : Keeps s0 s) : Keeps s0 (State.sendUe s a1 a2) := h.sendTx
theorem Keeps.sendUes {a1 a2} (h : Keeps s0 s) : Keeps s0 (State.sendUes s a1 a2) := by
  induction a2 generalizing s a1 with
  | nil => exact h
  | cons x xs ih => exact ih h.sendUe
theorem Keeps.netStart {a1 a2 a3} (h : Keeps s0 s) : Keeps s0 (State.netStart s a1 a2 a3) := by
  unfold State.netStart
  split
  · exact h.modCore.ctrTest
  · split
    · exact h.upd
    · split
      · exact h.upd
      · split
        · exact h.heldFail
        · extract_lets
          split
          · exact h.upd.sendUes
          · split
            · exact h.heldFail
            · exact h.upd.sendUes
theorem Keeps.ueFinish {a1} (h : Keeps s0 s) : Keeps s0 (State.ueFinish s a1) := by
  unfold State.ueFinish
  split
  · exact h.upd.heldSig.lateFlags
  · exact h.upd
theorem Keeps.recvFinish {a1} (h : Keeps s0 s) : Keeps s0 (State.recvFinish s a1) := by
  unfold State.recvFinish
  extract_lets _ t
  have ht : Keeps s0 t := h.upd
  split
  · exact ht.heldSig.lateFlags
  · exact ht
theorem Keeps.execNetCompletion {a1 a2} (h : Keeps s0 s) : KeepsR s0 (execNetCompletion a1 a2 s) := by
  unfold Machine.execNetCompletion
  split
  · split
    · exact h
    · rename_i c
      exact h.nscc.ctrRise.ueFinish
  · split
    · split
      · exact h
      · exact h.ctrRise.recvFinish
    · exact h
theorem Keeps.ueAbandon {a1 a2} (h : Keeps s0 s) : Keeps s0 (State.ueAbandon s a1 a2) := h.upd.heldFail
theorem Keeps.execUeRetransmitTimeout {a1 a2} (h : Keeps s0 s) : KeepsR s0 (execUeRetransmitTimeout a1 a2 s) := by
  unfold Machine.execUeRetransmitTimeout
  split
  · exact h
  · split
    · exact h
    · rename_i c
      extract_lets _ t
      have ht : Keeps s0 t := h.nscc
      split
      · exact h.ueAbandon
      · exact ht.upd.sendUe
theorem Keeps.execUeNack {a1 a2} (h : Keeps s0 s) : KeepsR s0 (execUeNack a1 a2 s) := by
  unfold Machine.execUeNack
  split
  · exact h
  · split
    · exact h
    · rename_i c
      extract_lets t
      have ht : Keeps s0 t := h.nscc
      exact ht.upd.sendUe
theorem Keeps.ueDrop {a1} (h : Keeps s0 s) : Keeps s0 (State.ueDrop s a1) := h.ueDropAt
theorem Keeps.answerUe {a1 a2} (h : Keeps s0 s) : Keeps s0 (State.answerUe s a1 a2) := h.sendTx
theorem Keeps.netPlace {a1 a2 a3 a4 a5} (h : Keeps s0 s) : Keeps s0 (State.netPlace s a1 a2 a3 a4 a5) := by
  unfold State.netPlace
  extract_lets
  split
  · split
    · exact h.writeBytes
    · exact h
  · exact h.modHome
theorem Keeps.ueReply {a1 a2} (h : Keeps s0 s) : Keeps s0 (State.ueReply s a1 a2) := by
  unfold State.ueReply
  split
  · exact h.ueDrop
  · split
    · exact h.ueAbandon
    · split
      · exact h.answerUe
      · split
        · exact h.ueDrop
        · split
          · exact h
          · exact h.upd.netPlace
theorem Keeps.ueMessage {a1 a2} (h : Keeps s0 s) : Keeps s0 (State.ueMessage s a1 a2) := by
  unfold State.ueMessage
  extract_lets t
  have ht : Keeps s0 t := h.answerUe
  split
  · exact ht
  · split
    · exact ht
    · extract_lets _ _ _ t1
      have ht1 : Keeps s0 t1 := h.netPlace
      exact ht1.upd.answerUe
theorem Keeps.execUePacketReceive {a1} (h : Keeps s0 s) : KeepsR s0 (execUePacketReceive a1 s) := by
  unfold Machine.execUePacketReceive
  split
  · exact h.ueDrop
  · split
    · split
      · exact h.answerUe
      · exact h
    · split
      · exact h.ueDrop
      · split
        · exact h.ueDrop
        · split
          · exact h.answerUe
          · split
            · exact h.ueReply
            · exact h.ueMessage

/-! ### Machine/Common -/

theorem Keeps.execNop {a1} (h : Keeps s0 s) : KeepsR s0 (execNop a1 s) := by
  unfold Machine.execNop
  extract_lets
  split
  · exact h.ccWord (fun _ _ hu => hu)
  · exact h.exeOp
  · exact h.mtxWord
  · exact h.engWord (fun _ => trivial) (fun _ _ _ _ _ hu => hu)
theorem Keeps.execMark {a1} (h : Keeps s0 s) : KeepsR s0 (execMark a1 s) := by
  unfold Machine.execMark
  extract_lets
  split
  · exact h.ccWord (fun _ _ hu => hu)
  · exact h.exeOp
  · exact h.mtxWord
  · exact h.engWord (fun _ => trivial) (fun _ _ _ _ _ hu => hu.waitOp)
theorem Keeps.execIll {a1} (h : Keeps s0 s) : KeepsR s0 (execIll a1 s) := by
  unfold Machine.execIll
  exact h.raise

/-! ### Machine/ControlMem -/

theorem Keeps.dropRemote {a1} (h : Keeps s0 s) : Keeps s0 (State.dropRemote s a1) := by
  unfold State.dropRemote
  exact h.upd
theorem Keeps.acquire {a1} (h : Keeps s0 s) : Keeps s0 (State.acquire s a1) := by
  unfold State.acquire
  split
  · exact h.dropRemote
  · exact h
theorem Keeps.ccLoad {a1 a2 a3 a4 a5} (h : Keeps s0 s) : KeepsR s0 (ccLoad a1 a2 a3 a4 a5 s) := by
  unfold Machine.ccLoad
  refine Keeps.ccWord h ?_
  intro e u hu
  extract_lets
  split
  · exact trivial
  · split
    · exact trivial
    · split
      · exact trivial
      · split
        · exact trivial
        · extract_lets _ t
          have ht : Keeps s0 t := hu.l2Raw
          refine Keeps.wrS ?_
          split
          · exact ht.acquire
          · exact ht
theorem Keeps.ccStore {a1 a2 a3 a4 a5} (h : Keeps s0 s) : KeepsR s0 (ccStore a1 a2 a3 a4 a5 s) := by
  unfold Machine.ccStore
  refine Keeps.ccWord h ?_
  intro e u hu
  extract_lets
  split
  · exact trivial
  · split
    · exact trivial
    · exact hu.ccHold
theorem Keeps.await {a1 a2} (h : Keeps s0 s) : Keeps s0 (State.await s a1 a2) := by
  unfold State.await
  split
  · exact h
  · exact h.modCore
theorem Keeps.ccAtomic {a1 a2 a3 a4} (h : Keeps s0 s) : KeepsR s0 (ccAtomic a1 a2 a3 a4 s) := by
  unfold Machine.ccAtomic
  extract_lets
  refine Keeps.ccWord h ?_
  intro e u hu
  split
  · exact trivial
  · split
    · exact hu.ccHold.await
    · split
      · exact trivial
      · exact hu.ccHold.await
theorem Keeps.execLdra {a1 a2} (h : Keeps s0 s) : KeepsR s0 (execLdra a1 a2 s) := by
  unfold Machine.execLdra
  extract_lets
  refine Keeps.ccWord h ?_
  intro e u hu
  split
  · exact trivial
  · split
    · split
      · exact trivial
      · exact hu.ccHold.await
    · exact hu.ccHold.await
theorem Keeps.fenceRel {a1 a2} (h : Keeps s0 s) : Keeps s0 (State.fenceRel s a1 a2) := h.modCore
theorem Keeps.fenceAcq {a1 a2 a3} (h : Keeps s0 s) : Keeps s0 (State.fenceAcq s a1 a2 a3) := by
  unfold State.fenceAcq
  extract_lets _ _ _ _ _ _ t
  have ht : Keeps s0 t := h.acquire
  exact ht.upd.setCore

/-! ### Machine/Perform -/

theorem Keeps.heldSee {a1} (h : Keeps s0 s) : Keeps s0 (State.heldSee s a1) := by
  unfold State.heldSee
  split
  · rename_i e _
    exact h.l2See
  · exact h
theorem Keeps.setFly {a1} (h : Keeps s0 s) : Keeps s0 (State.setFly s a1) := h.upd
theorem Keeps.dropFly {a1} (h : Keeps s0 s) : Keeps s0 (State.dropFly s a1) := h.upd
theorem Keeps.parentDone {a1} (h : Keeps s0 s) : Keeps s0 (State.parentDone s a1) := by
  unfold State.parentDone
  split
  · exact h
  · split
    · split
      · split
        · exact h.dropFly
        · exact h.dropFly.heldSig
      · exact h
    · exact h
theorem Keeps.finishFly {a1} (h : Keeps s0 s) : Keeps s0 (State.finishFly s a1) := h.dropFly.heldSig.parentDone.unparkOp
theorem Keeps.failFly {a1 a2} (h : Keeps s0 s) : Keeps s0 (State.failFly s a1 a2) := h.dropFly.heldFail.parentDone.unparkOp
theorem Keeps.pauseFly {a1 a2 a3} (h : Keeps s0 s) : Keeps s0 (State.pauseFly s a1 a2 a3) := by
  unfold State.pauseFly
  split
  · exact h
  · extract_lets _ t
    have ht : Keeps s0 t := by
      unfold t
      split
      · exact h.heldStop
      · exact h.recordOn
    exact ht.setFly
theorem Keeps.stopFly {a1 a2 a3} (h : Keeps s0 s) : Keeps s0 (State.stopFly s a1 a2 a3) := by
  unfold State.stopFly
  split
  · exact h.pauseFly
  · exact h.failFly
theorem Keeps.unref {a1 a2 a3 a4 a5 a6} (h : Keeps s0 s) : OptAll (Keeps s0) (State.unref s a1 a2 a3 a4 a5 a6) := OptAll.ite trivial h.putEnt.dropRun
theorem Keeps.performTile {a1 a2 a3} (h : Keeps s0 s) : Keeps s0 (State.performTile s a1 a2 a3) := by
  unfold State.performTile
  split
  · exact h.failFly
  · split
    · exact h.failFly
    · extract_lets
      split
      · exact h.pauseFly
      · split
        · split
          · exact h
          · exact h.putEnt.finishFly
        · split
          · exact h.failFly
          · exact h.setRc.finishFly
        · split
          · exact h.finishFly
          · split
            · exact h
            · split
              · exact h.failFly
              · rename_i u e1
                split
                · exact (h.unref.of_eq e1 : Keeps s0 u).finishFly
                · exact h
theorem Keeps.putDesc {a1 a2 a3} (h : Keeps s0 s) : Keeps s0 (State.putDesc s a1 a2 a3) := h.gpaPut.shootdown
theorem Keeps.performPhaser {a1} (h : Keeps s0 s) : Keeps s0 (State.performPhaser s a1) := by
  unfold State.performPhaser
  split
  · exact h.dropFly
  · split
    · split
      · exact h.setPhaser.finishFly
      · exact h.failFly
      · exact h.failFly
    · split
      · exact h.failFly
      · split
        · exact h.setPhaser.finishFly
        · exact h.failFly
    · exact h
theorem Keeps.invalidate {a1 a2 a3 a4} (h : Keeps s0 s) : Keeps s0 (State.invalidate s a1 a2 a3 a4) := by
  unfold State.invalidate
  exact h.mapCores rfl rfl fun _ => rfl
theorem Keeps.dropRange {a1 a2 a3} (h : Keeps s0 s) : Keeps s0 (State.dropRange s a1 a2 a3) := by
  unfold State.dropRange
  exact h.upd
theorem Keeps.performTwrite {a1 a2 a3} (h : Keeps s0 s) : Keeps s0 (State.performTwrite s a1 a2 a3) := by
  unfold State.performTwrite
  split
  · exact h.failFly
  · rename_i e
    extract_lets
    split
    · exact h.stopFly
    · rename_i u e1
      exact (h.writeTiles.of_eq e1 : Keeps s0 u).pauseFly
    · rename_i u e1
      exact (h.writeTiles.of_eq e1 : Keeps s0 u).pauseFly
    · rename_i u e1
      exact (h.writeTiles.of_eq e1 : Keeps s0 u)
    · rename_i u e1
      exact (h.writeTiles.of_eq e1 : Keeps s0 u)
    · rename_i u _ e1
      split
      · exact (h.writeTiles.of_eq e1 : Keeps s0 u).pauseFly
      · split
        · exact (h.writeTiles.of_eq e1 : Keeps s0 u)
        · extract_lets t t1
          have ht : Keeps s0 t := (h.writeTiles.of_eq e1 : Keeps s0 u).l2See
          have ht1 : Keeps s0 t1 := by
            unfold t1
            split
            · exact ht
            · exact ht.setFly
          exact ht1.writeBytes.finishFly
theorem Keeps.flyStep {a1 a2} (h : Keeps s0 s) : Keeps s0 (State.flyStep s a1 a2) := by
  unfold State.flyStep
  split
  · exact h.finishFly
  · exact h.setFly
theorem Keeps.performCopy {a1 a2} (h : Keeps s0 s) : Keeps s0 (State.performCopy s a1 a2) := by
  unfold State.performCopy
  extract_lets d
  refine Keeps.ite h.finishFly ?_
  split
  · exact h
  · rename_i u e
    exact KeepsA.of_eq (by exact h.moveOne fun _ _ hu => hu.flyStep) e
  · rename_i u e
    exact Keeps.stopFly (KeepsA.of_eq (by exact h.moveOne fun _ _ hu => hu.flyStep) e)
theorem Keeps.performShare {a1 a2} (h : Keeps s0 s) : Keeps s0 (State.performShare s a1 a2) := by
  unfold State.performShare
  split
  · dsimp only
    refine Keeps.ite h.flyStep (Keeps.ite h.pauseFly (Keeps.ite h.flyStep (Keeps.ite h (Keeps.ite h.failFly (Keeps.ite h.failFly (Keeps.ite h ?_))))))
    split
    · rename_i u e
      exact Keeps.pauseFly (Keeps.of_snd (by split; exacts [h, h.popPool]) e)
    · rename_i i u e
      have hu : Keeps s0 u := Keeps.of_snd (by split; exacts [h, h.popPool]) e
      refine Keeps.flyStep (Keeps.putEnt (Keeps.putEnt ?_))
      split
      · exact hu.setRc
      · refine Keeps.getD (Keeps.unref ?_) ?_
        · exact hu.setRc
        · exact hu.setRc
  · exact h.failFly
theorem Keeps.performFree {a1 a2} (h : Keeps s0 s) : Keeps s0 (State.performFree s a1 a2) := by
  unfold State.performFree
  split
  · exact h.failFly
  · extract_lets
    split
    · exact h.pauseFly
    · split
      · exact h.flyStep
      · split
        · exact h
        · split
          · exact h.failFly
          · rename_i u e1
            split
            · exact (h.unref.of_eq e1 : Keeps s0 u).flyStep
            · exact h
theorem Keeps.exchCharge {a1 a2 a3} (h : Keeps s0 s) : Keeps s0 (State.exchCharge s a1 a2 a3) := h.setPhaser
theorem Keeps.performExch {a1 a2} (h : Keeps s0 s) : Keeps s0 (State.performExch s a1 a2) := by
  unfold State.performExch
  split
  · exact h.dropFly
  · split
    · exact h.failFly
    · extract_lets _ _ _ bad write
      have hbad : ∀ (s : State) (code : BitVec 8), Keeps s0 s → Keeps s0 (bad s code) := fun _ _ hcode => hcode.failFly.exchCharge
      split
      · exact h
      · split
        · exact hbad _ _ h
        · split
          · split
            · exact hbad _ _ h
            · unfold write
              extract_lets _ t1
              have ht1 : Keeps s0 t1 := h.modCore
              split
              · exact ht1.finishFly.exchCharge
              · exact ht1.setFly
          · split
            · exact hbad _ _ h
            · split
              · exact hbad _ _ h
              · split
                · split
                  · exact h
                  · exact h.modCore.setFly
                · split
                  · exact h
                  · unfold write
                    extract_lets _ t1
                    have ht1 : Keeps s0 t1 := h.modCore
                    split
                    · exact ht1.modCore.finishFly.exchCharge
                    · exact ht1.setFly
theorem Keeps.performHere {a1} (h : Keeps s0 s) : Keeps s0 (State.performHere s a1) := by
  unfold State.performHere
  split
  · exact h.dropFly
  · split
    · exact h
    · split
      · rename_i e
        split
        · exact h.heldSee.writeBytes.finishFly
        · exact h.failFly
      · exact h.writeBytes.finishFly
      · rename_i e
        split
        · exact h.failFly
        · extract_lets _ t
          have ht : Keeps s0 t := h.heldSee.dropFly
          split
          · exact h.pauseFly
          · exact ht.upd
      · exact h.performTwrite
      · exact h.putDesc.finishFly
      · exact h.putDesc.finishFly
      · exact h.performTile
      · exact h.performTile
      · exact h.performTile
      · exact h.performPhaser
      · exact h.performPhaser
      · exact h.finishFly
      · exact h.dropRange.finishFly
      · exact h.invalidate.finishFly
      · rename_i e
        split
        · exact h.performShare
        · split
          · exact h.performFree
          · split
            · exact h.performExch
            · split
              · exact h
              · exact h.performCopy
      · exact h
theorem Keeps.copyPoison {a1 a2 a3 a4} (h : Keeps s0 s) : Keeps s0 (State.copyPoison s a1 a2 a3 a4) := by
  induction a4 generalizing s a1 a2 a3 with
  | zero => exact h
  | succ k ih =>
    refine ih ?_
    split
    · exact h.upd
    · exact h
theorem Keeps.copyWhole {a1 a2 a3 a4} (h : Keeps s0 s) : Keeps s0 (State.copyWhole s a1 a2 a3 a4) := h.copyRun.copyPoison
theorem Keeps.dropTileOp {a1} (h : Keeps s0 s) : Keeps s0 (State.dropTileOp s a1) := h.upd
theorem Keeps.execCowCopyDone {a1} (h : Keeps s0 s) : KeepsR s0 (execCowCopyDone a1 s) := by
  unfold Machine.execCowCopyDone
  split
  · exact h
  · extract_lets _ t1
    have ht1 : Keeps s0 t1 := h.copyWhole.dropTileOp
    split
    · split
      · exact h
      · split
        · rename_i u e2
          extract_lets t2
          have ht2 : Keeps s0 t2 := (ht1.updateIfSame.of_snd e2 : Keeps s0 u).setRc
          split
          · exact ht2.quarantine
          · exact ht2
        · rename_i u e2
          exact (ht1.updateIfSame.of_snd e2 : Keeps s0 u).quarantine.shootdown
    · split
      · exact h
      · split
        · rename_i u e1
          extract_lets t2
          have ht2 : Keeps s0 t2 := (ht1.updateIfSame.of_snd e1 : Keeps s0 u).setRc
          split
          · exact ht2.quarantine
          · exact ht2
        · rename_i u e1
          exact (ht1.updateIfSame.of_snd e1 : Keeps s0 u).quarantine.shootdown
theorem Keeps.logFill {a1 a2 a3} (h : Keeps s0 s) : Keeps s0 (State.logFill s a1 a2 a3) := by
  induction a3 generalizing s a1 a2 with
  | zero => exact h
  | succ k ih => exact ih h.log
theorem Keeps.execShadowFillDone {a1} (h : Keeps s0 s) : KeepsR s0 (execShadowFillDone a1 s) := by
  unfold Machine.execShadowFillDone
  split
  · exact h
  · split
    · exact h
    · split
      · exact h.dropTileOp.shootdown
      · extract_lets _ _ _ _ t1 t2 _ t3
        have ht1 : Keeps s0 t1 := by
          unfold t1
          split
          · exact h.logFill
          · exact h
        have ht2 : Keeps s0 t2 := ht1.copyWhole.dropTileOp
        have ht3 : Keeps s0 t3 := ht2.putEnt
        split
        · exact h
        · split
          · exact ht3.log3
          · exact ht3
theorem Keeps.execMigrationFlip {a1} (h : Keeps s0 s) : KeepsR s0 (execMigrationFlip a1 s) := by
  unfold Machine.execMigrationFlip
  split
  · exact h
  · extract_lets _ _ _ t1 t2 _ t3
    have ht1 : Keeps s0 t1 := h.updateIfSame.dropTileOp
    have ht2 : Keeps s0 t2 := ht1.quarantine
    have ht3 : Keeps s0 t3 := h.copyWhole.dropTileOp
    split
    · split
      · exact h
      · split
        · split
          · exact ht2.raise
          · exact ht1.quarantine
        · split
          · rename_i u e2
            refine Keeps.dropRun ?_
            split
            · exact (ht3.updateIfSame.of_snd e2 : Keeps s0 u).setRc
            · exact (ht3.updateIfSame.of_snd e2 : Keeps s0 u)
          · rename_i u e2
            exact (ht3.updateIfSame.of_snd e2 : Keeps s0 u).quarantine.shootdown
    · split
      · exact h
      · split
        · split
          · exact ht2.raise
          · exact ht1.quarantine
        · split
          · rename_i u e1
            refine Keeps.dropRun ?_
            split
            · exact (ht3.updateIfSame.of_snd e1 : Keeps s0 u).setRc
            · exact (ht3.updateIfSame.of_snd e1 : Keeps s0 u)
          · rename_i u e1
            exact (ht3.updateIfSame.of_snd e1 : Keeps s0 u).quarantine.shootdown
theorem Keeps.execMeshCombine {a1 a2} (h : Keeps s0 s) : KeepsR s0 (execMeshCombine a1 a2 s) := by
  unfold Machine.execMeshCombine
  split
  · split
    · exact h
    · exact h.upd
  · exact h
theorem Keeps.execHomeAtomicPerform {a1} (h : Keeps s0 s) : KeepsR s0 (execHomeAtomicPerform a1 s) := by
  unfold Machine.execHomeAtomicPerform
  split
  · exact h
  · rename_i e
    extract_lets _ _ t
    have ht : Keeps s0 t := h.heldSee.putCells
    split
    · exact h
    · split
      · exact h.upd
      · split
        · exact h
        · split
          · exact h.upd.heldFail
          · split
            · exact h.upd
            · exact ht.upd
theorem Keeps.execReplySplit {a1} (h : Keeps s0 s) : KeepsR s0 (execReplySplit a1 s) := by
  unfold Machine.execReplySplit
  split
  · split
    · split
      · exact h
      · exact h.upd
    · exact h
  · exact h
theorem Keeps.countOrph {a1} (h : Keeps s0 s) : Keeps s0 (State.countOrph s a1) := h.upd
theorem Keeps.deliver {a1 a2 a3} (h : Keeps s0 s) : Keeps s0 (State.deliver s a1 a2 a3) := by
  unfold State.deliver
  split
  · exact h.countOrph
  · extract_lets _ t t1
    have ht : Keeps s0 t := by
      unfold t
      split
      · exact h.modCore
      · exact h
    have ht1 : Keeps s0 t1 := by
      unfold t1
      split
      · exact ht.dropRemote
      · exact ht
    split
    · exact ht1.heldSig
    · exact ht1
theorem Keeps.execAtomicResult {a1} (h : Keeps s0 s) : KeepsR s0 (execAtomicResult a1 s) := by
  unfold Machine.execAtomicResult
  split
  · split
    · split
      · exact h
      · extract_lets t _ t1
        have ht : Keeps s0 t := h.upd
        have ht1 : Keeps s0 t1 := ht.deliver
        split
        · exact ht1.raise
        · exact ht1
    · exact h
  · exact h

/-! ### Machine/Fabric -/

theorem Keeps.modPort {a1 a2} (h : Keeps s0 s) : Keeps s0 (State.modPort s a1 a2) := h.upd
theorem Keeps.turnPort {a1 a2} (h : Keeps s0 s) : Keeps s0 (State.turnPort s a1 a2) := by
  unfold State.turnPort
  extract_lets t
  have ht : Keeps s0 t := h.modPort
  split
  · exact ht.wake
  · exact ht
theorem Keeps.execFxctlClrcnt {a1} (h : Keeps s0 s) : KeepsR s0 (execFxctlClrcnt a1 s) := by
  unfold Machine.execFxctlClrcnt
  split
  · exact h.modPort
  · exact h
theorem Keeps.execFxctlPdis {a1 a2} (h : Keeps s0 s) : KeepsR s0 (execFxctlPdis a1 a2 s) := by
  unfold Machine.execFxctlPdis
  split
  · exact h.turnPort
  · exact h
theorem Keeps.execFxctlWena {a1 a2} (h : Keeps s0 s) : KeepsR s0 (execFxctlWena a1 a2 s) := by
  unfold Machine.execFxctlWena
  split
  · exact h.turnPort
  · exact h
theorem Keeps.execLinkReplay {a1} (h : Keeps s0 s) : KeepsR s0 (execLinkReplay a1 s) := by
  unfold Machine.execLinkReplay
  extract_lets _ t
  have ht : Keeps s0 t := h.modPort
  split
  · exact h
  · split
    · exact h.upd
    · split
      · split
        · exact h
        · exact ht.upd
      · exact h
theorem Keeps.execSlotEndDiscard {a1 a2} (h : Keeps s0 s) : KeepsR s0 (execSlotEndDiscard a1 a2 s) := by
  unfold Machine.execSlotEndDiscard
  split
  · exact h
  · exact h.modPort
theorem Keeps.execWavelengthWithdraw {a1 a2} (h : Keeps s0 s) : KeepsR s0 (execWavelengthWithdraw a1 a2 s) := by
  unfold Machine.execWavelengthWithdraw
  extract_lets _ t
  have ht : Keeps s0 t := h.turnPort
  split
  · exact h
  · split
    · exact ht
    · exact ht.upd
theorem Keeps.execWavelengthRejoin {a1 a2} (h : Keeps s0 s) : KeepsR s0 (execWavelengthRejoin a1 a2 s) := by
  unfold Machine.execWavelengthRejoin
  extract_lets _ _ t
  have ht : Keeps s0 t := h.modPort
  split
  · exact h
  · split
    · exact ht
    · exact ht.upd
theorem Keeps.transmit {a1} (h : Keeps s0 s) : Keeps s0 (State.transmit s a1) := by
  unfold State.transmit
  extract_lets
  split
  · exact h.upd
theorem Keeps.portSend {a1 a2} (h : Keeps s0 s) : Keeps s0 (State.portSend s a1 a2) := by
  induction a2 generalizing s a1 with
  | zero => exact h
  | succ k ih =>
    unfold State.portSend
    split
    · exact h
    · split
      · exact h
      · split
        · exact ih h.upd
        · exact ih h.transmit
theorem Keeps.sendAll (h : Keeps s0 s) : Keeps s0 (State.sendAll s) := h.foldl (fun _ _ hx => hx.portSend)
theorem Keeps.placeTx {a1 a2 a3} (h : Keeps s0 s) : OptAll (fun x => Keeps s0 x.2) (State.placeTx s a1 a2 a3) := by
  unfold State.placeTx
  cases s.at_ with
  | none => exact trivial
  | some a =>
    cases s.pos a1.head.dstdev with
    | none => exact trivial
    | some b =>
      dsimp only [bind, Option.bind]
      split
      · exact trivial
      · dsimp only [OptAll]
        exact h.upd
theorem Keeps.enqueueFor {a1 a2 a3} (h : Keeps s0 s) : Keeps s0 (State.enqueueFor s a1 a2 a3) := by
  unfold State.enqueueFor
  split
  · rename_i u e
    split
    · exact (h.placeTx.of_eq e : Keeps s0 u).portSend
    · exact (h.placeTx.of_eq e : Keeps s0 u)
  · exact h
theorem Keeps.enqueue {a1} (h : Keeps s0 s) : Keeps s0 (State.enqueue s a1) := h.enqueueFor
theorem Keeps.requeue {a1} (h : Keeps s0 s) : Keeps s0 (State.requeue s a1) := by
  induction a1 generalizing s with
  | nil => exact h
  | cons x xs ih =>
    refine ih ?_
    split
    · rename_i u e
      exact (h.placeTx.of_eq e : Keeps s0 u)
    · exact h
theorem Keeps.greet {a1} (h : Keeps s0 s) : Keeps s0 (State.greet s a1) := by
  unfold State.greet
  split
  · exact h
  · extract_lets
    split
    · exact h.upd
    · exact h
theorem Keeps.dropTx {a1} (h : Keeps s0 s) : Keeps s0 (State.dropTx s a1) := by
  induction a1 generalizing s with
  | nil => exact h
  | cons x xs ih => exact ih h.modPort
theorem Keeps.execRotorSlotStart {a1} (h : Keeps s0 s) : KeepsR s0 (execRotorSlotStart a1 s) := by
  unfold Machine.execRotorSlotStart
  extract_lets _ _ _ t _ t1
  have ht : Keeps s0 t := h.upd
  have ht1 : Keeps s0 t1 := by
    unfold t1
    split
    · exact ht.upd
    · exact ht
  exact (ht1.dropTx.requeue.foldl (fun _ _ hx => hx.greet)).sendAll
theorem Keeps.execTsync {a1 a2 a3} (h : Keeps s0 s) : KeepsR s0 (execTsync a1 a2 a3 s) := by
  unfold Machine.execTsync
  split
  · exact h
  · extract_lets _ _ _ t
    have ht : Keeps s0 t := h.upd
    split
    · exact ht.upd
    · exact ht
theorem Keeps.reqEnd {a1} (h : Keeps s0 s) : Keeps s0 (State.reqEnd s a1) := by
  unfold State.reqEnd
  split
  · split
    · exact h.setFly.parentDone
    · exact h
  · exact h.deliver
theorem Keeps.reqFail {a1 a2 a3 a4} (h : Keeps s0 s) : Keeps s0 (State.reqFail s a1 a2 a3 a4) := by
  unfold State.reqFail
  refine Keeps.reqEnd ?_
  split
  · exact h
  · exact h.heldFail
theorem Keeps.request {a1 a2 a3} (h : Keeps s0 s) : Keeps s0 (State.request s a1 a2 a3) := by
  unfold State.request
  extract_lets
  split
  · exact h.reqFail
  · exact h.upd.enqueue
theorem Keeps.dropFetch {a1 a2 a3} (h : Keeps s0 s) : Keeps s0 (State.dropFetch s a1 a2 a3) := h.upd
theorem Keeps.touchLine {a1 a2 a3 a4} (h : Keeps s0 s) : Keeps s0 (State.touchLine s a1 a2 a3 a4) := by
  unfold State.touchLine
  extract_lets _ _ _ t
  have ht : Keeps s0 t := h.dropFetch
  exact ht.upd
theorem Keeps.remoteLine {a1 a2 a3} (h : Keeps s0 s) : KeepsL s0 (State.remoteLine s a1 a2 a3) := by
  unfold State.remoteLine
  extract_lets
  split
  · split
    · exact h.upd
    · exact h.l2Hit
  · split
    · exact trivial
    · exact h
theorem Keeps.sendOne {a1} (h : Keeps s0 s) : Keeps s0 (State.sendOne s a1) := by
  unfold State.sendOne
  extract_lets _ t
  have ht : Keeps s0 t := h.dropFly
  split
  · exact h
  · split
    · exact ht.upd
    · split
      · rename_i u e1
        exact (ht.remoteLine.of_eq e1 : Keeps s0 u).upd
      · rename_i u e1
        split
        · exact (ht.remoteLine.of_eq e1 : Keeps s0 u).request
        · exact h
      · exact h
    · split
      · exact ht.touchLine.request
      · exact h
    · split
      · exact ht.touchLine.request
      · exact h
    · exact ht.netStart
    · exact h
theorem Keeps.readGranules {a1 a2 a3 a4 a5 a6 K} (h : Keeps s0 s) (hK : ∀ bs rs u, Keeps s0 u → KeepsA s0 (K bs rs u)) :
    KeepsA s0 (State.readGranules s a1 a2 a3 a4 a5 a6 K) := by
  induction a5 generalizing s a1 a2 a3 a4 a6 K with
  | zero => exact hK _ _ _ h
  | succ k ih => exact h.locRead (fun _ _ _ hu => ih hu (fun _ _ _ hu1 => hK _ _ _ hu1))
theorem Keeps.sendPacket {a1 a2} (h : Keeps s0 s) : Keeps s0 (State.sendPacket s a1 a2) := by
  unfold State.sendPacket
  extract_lets d
  refine Keeps.ite h.setFly.parentDone (Keeps.ite h ?_)
  split
  refine Keeps.ite h.setFly.request ?_
  split
  · exact h
  · rename_i u e
    exact KeepsA.of_eq (by exact h.readGranules fun _ _ _ hu => hu.setFly.request) e
  · rename_i u e
    exact Keeps.stopFly (KeepsA.of_eq (by exact h.readGranules fun _ _ _ hu => hu.setFly.request) e)
theorem Keeps.landPull {a1 a2 a3 a4} (h : Keeps s0 s) : Keeps s0 (State.landPull s a1 a2 a3 a4) := by
  unfold State.landPull
  extract_lets
  split
  · exact h
  · split
    · exact h.modHome
    · exact h.upd
theorem Keeps.execPerformedAtHome {a1} (h : Keeps s0 s) : KeepsR s0 (execPerformedAtHome a1 s) := by
  unfold Machine.execPerformedAtHome
  split
  · exact h
  · split
    · exact h.dropFly
    · split
      · split
        · split
          · exact h
          · exact h.sendPacket
        · exact h.performHere
      · exact h.sendOne
      · exact h.sendOne
      · exact h.sendOne
      · exact h.sendOne
      · exact h.sendOne
      · exact h.performHere
theorem Keeps.countAt {a1 a2} (h : Keeps s0 s) : Keeps s0 (State.countAt s a1 a2) := h.modPort
theorem Keeps.takeRelay {a1} (h : Keeps s0 s) : Keeps s0 (State.takeRelay s a1) := by
  unfold State.takeRelay
  split
  · extract_lets
    split
    · exact h.countAt
    · split
      · exact h.countAt
      · exact h.upd
  · exact h.countAt
theorem Keeps.arrive {a1 a2 k} (h : Keeps s0 s) (hk : Keeps s0 k) : KeepsR s0 (State.arrive s a1 a2 k) := by
  unfold State.arrive
  split
  · exact h.countAt
  · split
    · exact h.takeRelay
    · exact hk
theorem Keeps.dropReq {a1} (h : Keeps s0 s) : Keeps s0 (State.dropReq s a1) := h.upd
theorem Keeps.busyReq {a1} (h : Keeps s0 s) : Keeps s0 (State.busyReq s a1) := h.upd
theorem Keeps.respond {a1 a2 ok} (h : Keeps s0 s) (hok : ∀ o u, Keeps s0 u → Keeps s0 (ok o u)) : Keeps s0 (State.respond s a1 a2 ok) := by
  unfold State.respond
  split
  · exact h.countAt
  · extract_lets
    split
    · exact h.dropReq.countAt
    · split
      · exact hok _ _ h.dropReq
      · exact h.busyReq
      · exact h.dropReq.reqFail
      · refine Keeps.reqEnd ?_
        split
        · exact h.dropReq
        · exact h.dropReq.heldStop
theorem Keeps.execData {a1} (h : Keeps s0 s) : KeepsR s0 (execData a1 s) := by
  unfold Machine.execData
  refine Keeps.arrive h ?_
  refine Keeps.respond h ?_
  intro o u hu
  extract_lets _ _ _ _ _ t
  have ht : Keeps s0 t := by
    unfold t
    split
    · exact hu.l2Put
    · exact hu
  split
  · exact hu.landPull.parentDone
  · exact ht.deliver
theorem Keeps.execAck {a1} (h : Keeps s0 s) : KeepsR s0 (execAck a1 s) := by
  unfold Machine.execAck
  refine Keeps.arrive h ?_
  refine Keeps.respond h ?_
  intro o u hu
  extract_lets
  split
  · exact hu.parentDone
  · exact hu.heldSig
theorem Keeps.atomAnswer {a1 a2 a3} (h : Keeps s0 s) : Keeps s0 (State.atomAnswer s a1 a2 a3) := by
  unfold State.atomAnswer
  split
  · exact h.countAt
  · extract_lets
    split
    · exact h.dropReq.countAt
    · split
      · exact h.busyReq
      · split
        · exact h.dropReq.reqFail
        · split
          · exact h.dropReq.deliver.raise
          · exact h.dropReq.deliver
theorem Keeps.splitResp {a1 a2 a3} (h : Keeps s0 s) : Keeps s0 (State.splitResp s a1 a2 a3) := by
  induction a3 generalizing s a1 a2 with
  | nil => exact h
  | cons x xs ih =>
    refine ih ?_
    split
    · exact h.atomAnswer
    · exact h.enqueue
theorem Keeps.execAtresp {a1} (h : Keeps s0 s) : KeepsR s0 (execAtresp a1 s) := by
  unfold Machine.execAtresp
  refine Keeps.arrive h ?_
  split
  · exact h.upd.splitResp
  · exact h.atomAnswer
theorem Keeps.execFabricRetransmit {a1} (h : Keeps s0 s) : KeepsR s0 (execFabricRetransmit a1 s) := by
  unfold Machine.execFabricRetransmit
  split
  · exact h
  · split
    · exact h
    · extract_lets t
      have ht : Keeps s0 t := h.upd
      exact ht.enqueueFor
theorem Keeps.abandon {a1} (h : Keeps s0 s) : Keeps s0 (State.abandon s a1) := by
  unfold State.abandon
  split
  · exact h.dropReq
  · exact h.dropReq.reqFail
theorem Keeps.execFabricAbandon {a1} (h : Keeps s0 s) : KeepsR s0 (execFabricAbandon a1 s) := by
  unfold Machine.execFabricAbandon
  split
  · exact h
  · split
    · exact h.dropReq.reqFail
    · split
      · exact h
      · exact h.abandon
theorem Keeps.execAtreqCombine {a1 a2} (h : Keeps s0 s) : KeepsR s0 (execAtreqCombine a1 a2 s) := by
  unfold Machine.execAtreqCombine
  split
  · split
    · exact h
    · extract_lets _ _ _ _ _ _ _ t
      have ht : Keeps s0 t := h.upd
      exact ht.modPort
  · exact h
theorem Keeps.execRelayForward {a1} (h : Keeps s0 s) : KeepsR s0 (execRelayForward a1 s) := by
  unfold Machine.execRelayForward
  split
  · exact h
  · extract_lets t1
    have ht1 : Keeps s0 t1 := h.upd
    split
    · exact h
    · split
      · exact ht1.modPort
      · split
        · exact ht1.modPort
        · split
          · exact h.transmit.portSend
          · exact h
theorem Keeps.markSeq {a1 a2 a3 a4} (h : Keeps s0 s) : Keeps s0 (State.markSeq s a1 a2 a3 a4) := by
  unfold State.markSeq
  exact h.upd
theorem Keeps.cacheResp {a1 a2 a3 a4} (h : Keeps s0 s) : Keeps s0 (State.cacheResp s a1 a2 a3 a4) := h.upd
theorem Keeps.reply {a1} (h : Keeps s0 s) : Keeps s0 (State.reply s a1) := h.enqueue
theorem Keeps.requestArrives {a1 a2 marked fresh} (h : Keeps s0 s) (hmarked : ∀ u, Keeps s0 u → Keeps s0 (marked u))
    (hfresh : ∀ u, Keeps s0 u → Keeps s0 (fresh u)) :
    KeepsR s0 (State.request_ s a1 a2 marked fresh) := by
  unfold State.request_
  split
  · exact h.countAt
  · split
    · exact h.takeRelay
    · split
      · exact h.countAt
      · split
        · exact h.countAt
        · extract_lets
          split
          · exact h.countAt
          · split
            · exact hmarked _ h
            · split
              · exact h.reply
              · exact hfresh _ h
theorem Keeps.asEdge {a1} (h : Keeps s0 s) : Keeps s0 (State.asEdge s a1) := h.modCore
theorem Keeps.noEdge {a1} (h : Keeps s0 s) : Keeps s0 (State.noEdge s a1) := h.modCore
theorem Keeps.destFault {a1 a2 a3} (h : Keeps s0 s) : Keeps s0 (State.destFault s a1 a2 a3) := by
  unfold State.destFault
  extract_lets _ _ _ t
  have ht : Keeps s0 t := h.record
  split
  · exact h
  · exact ht.upd
theorem Keeps.destOk {a1} (h : Keeps s0 s) : Keeps s0 (State.destOk s a1) := h.upd
theorem Keeps.reach {a1 a2 a3} (h : Keeps s0 s) : KeepsRe s0 (State.reach s a1 a2 a3) := by
  unfold State.reach
  extract_lets a cid tid t _
  have ht : Keeps s0 t := h.asEdge
  split
  · split
    · exact trivial
    · exact h
  · split
    · exact trivial
    · rename_i d _
      extract_lets res
      have hr : KeepsT s0 res := by
        unfold res
        split
        · exact ht.writeTile
        · exact ht.readTile
      refine KeepsRe.ite trivial (KeepsRe.ite trivial ?_)
      cases e : res with
      | run f u =>
        dsimp only
        split
        · exact trivial
        · exact Keeps.destOk (Keeps.noEdge (hr.of_eq e))
      | absent u => exact Keeps.destFault (Keeps.noEdge (hr.of_eq e))
      | fault c v => exact KeepsRe.ite ht.noEdge.destFault trivial
      | stall u => exact Keeps.noEdge (hr.of_eq e)
      | noframe q u => exact Keeps.destFault (Keeps.noEdge (hr.of_eq e))
theorem Keeps.answerCached {a1} (h : Keeps s0 s) : Keeps s0 (State.answerCached s a1) := by
  unfold State.answerCached
  split
  · exact h.reply
  · exact h.countAt
theorem Keeps.execLdreq {a1} (h : Keeps s0 s) : KeepsR s0 (execLdreq a1 s) := by
  unfold Machine.execLdreq
  refine Keeps.requestArrives h (fun _ hu => hu.answerCached) ?_
  intro u hu
  extract_lets _ done
  have hdone : ∀ (s : State) (r : Pkt), Keeps s0 s → Keeps s0 (done s r) := fun _ _ hr => hr.markSeq.cacheResp.reply
  split
  · exact hu.reply
  · split
    · split <;> exact hdone _ _ hu
    · exact hu.reply
theorem Keeps.execStreq {a1} (h : Keeps s0 s) : KeepsR s0 (execStreq a1 s) := by
  unfold Machine.execStreq
  refine Keeps.requestArrives h (fun _ hu => hu.reply) ?_
  intro u hu
  extract_lets
  split
  · exact hu.reply
  · split
    · exact hu.reply
    · exact hu.writeBytes.markSeq.reply
theorem Keeps.atMembers {a1 a2 a3 a4 a5} (h : Keeps s0 s) : Keeps s0 (State.atMembers s a1 a2 a3 a4 a5).1 := by
  induction a4 generalizing s a5 with
  | nil => exact h
  | cons x xs ih =>
    unfold State.atMembers
    extract_lets
    split
    · exact ih h
    · exact ih h.markSeq.cacheResp
theorem Keeps.execAtreq {a1} (h : Keeps s0 s) : KeepsR s0 (execAtreq a1 s) := by
  unfold Machine.execAtreq
  refine Keeps.requestArrives h (fun _ hu => hu.answerCached) ?_
  intro u hu
  extract_lets
  split
  · exact hu.countAt
  · extract_lets
    split
    · exact hu.reply
    · split
      · exact hu.reply
      · extract_lets
        split
        · rename_i u1 _ _ e2
          extract_lets t
          have ht : Keeps s0 t := by
            unfold t
            split
            · exact (hu.atMembers.of_fst e2 : Keeps s0 u1)
            · exact (hu.atMembers.of_fst e2 : Keeps s0 u1).putCells
          exact ht.reply
theorem Keeps.execPush {a1} (h : Keeps s0 s) : KeepsR s0 (execPush a1 s) := by
  unfold Machine.execPush
  refine Keeps.requestArrives h (fun _ hu => hu.reply) ?_
  intro u hu
  extract_lets
  split
  · exact hu.noEdge.reply
  · rename_i u1 e
    exact (hu.reach.of_eq e : Keeps s0 u1).reply
  · exact hu.reply
  · rename_i u1 e
    exact (hu.reach.of_eq e : Keeps s0 u1).writeBytes.markSeq.reply
theorem Keeps.pulled {a1} (h : Keeps s0 s) : Keeps s0 (State.pulled s a1) := by
  unfold State.pulled
  extract_lets
  split
  · exact h.reply
  · split
    · exact h.noEdge.reply
    · rename_i u e
      exact (h.reach.of_eq e : Keeps s0 u).reply
    · exact h.reply
    · rename_i u e
      split
      · exact (h.reach.of_eq e : Keeps s0 u).reply
      · exact (h.reach.of_eq e : Keeps s0 u).markSeq.reply
theorem Keeps.abandonAll {a1} (h : Keeps s0 s) : Keeps s0 (State.abandonAll s a1) := by
  induction a1 generalizing s with
  | nil => exact h
  | cons x xs ih => exact ih h.abandon
theorem Keeps.execHotSpareTakeover {a1 a2 a3} (h : Keeps s0 s) : KeepsR s0 (execHotSpareTakeover a1 a2 a3 s) := by
  unfold Machine.execHotSpareTakeover
  split
  · exact h
  · extract_lets t t1 _ _ t2
    have ht : Keeps s0 t := h.abandonAll
    have ht1 : Keeps s0 t1 := ht.upd
    have ht2 : Keeps s0 t2 := ht1.upd
    split
    · exact ht2.upd
    · exact ht2

/-! ### Machine/ControlCfg -/

theorem Keeps.putSysReg {a1 a2 a3 a4} (h : Keeps s0 s) : Keeps s0 (State.putSysReg s a1 a2 a3 a4) := by
  unfold State.putSysReg
  split
  · split
    · exact h.turnPort
    · exact h
  · exact h.log4.modCore
theorem Keeps.execRdsr {a1 a2} (h : Keeps s0 s) : KeepsR s0 (execRdsr a1 a2 s) := by
  unfold Machine.execRdsr
  extract_lets
  refine Keeps.ccWord h ?_
  intro e u hu
  split
  · exact trivial
  · split
    · exact trivial
    · exact hu.wrS
theorem Keeps.ccSysPut {a1 a2 a3 a4} (h : Keeps s0 s) : KeepsR s0 (ccSysPut a1 a2 a3 a4 s) := by
  unfold Machine.ccSysPut
  extract_lets
  refine Keeps.ccWord h ?_
  intro e u hu
  split
  · exact trivial
  · split
    · exact trivial
    · extract_lets
      split
      · exact hu.putSysReg
      · exact trivial
theorem Keeps.execEcfgw {a1 a2} (h : Keeps s0 s) : KeepsR s0 (execEcfgw a1 a2 s) := by
  unfold Machine.execEcfgw
  extract_lets
  refine Keeps.ccWord h ?_
  intro e u hu
  split
  · exact trivial
  · split
    · exact trivial
    · exact hu.log4.modCore
theorem Keeps.execEcfgr {a1 a2} (h : Keeps s0 s) : KeepsR s0 (execEcfgr a1 a2 s) := by
  unfold Machine.execEcfgr
  extract_lets
  refine Keeps.ccWord h ?_
  intro e u hu
  split
  · exact trivial
  · exact hu.wrS

/-! ### Machine/Launch -/

theorem Keeps.addLaunch {a1} (h : Keeps s0 s) : Keeps s0 (State.addLaunch s a1) := by
  unfold State.addLaunch
  exact h.upd.modCtx
theorem Keeps.spawnRefused {a1 a2} (h : Keeps s0 s) : Keeps s0 (State.spawnRefused s a1 a2) := by
  unfold State.spawnRefused
  split
  · split
    · exact h.heldFail
    · extract_lets t
      have ht : Keeps s0 t := by
        unfold t
        split
        · exact h.modCore
        · exact h
      exact ht.raiseFrom
  · exact h
theorem Keeps.acceptChild {a1 a2 a3} (h : Keeps s0 s) : Keeps s0 (State.acceptChild s a1 a2 a3) := by
  unfold State.acceptChild
  split
  · split
    · exact h.spawnRefused
    · exact h.addLaunch
  · exact h
theorem Keeps.cqAppend {a1} (h : Keeps s0 s) : Keeps s0 (State.cqAppend s a1) := by
  unfold State.cqAppend
  exact h.gpaPut.modCtx
theorem Keeps.spawnRelease {a1} (h : Keeps s0 s) : Keeps s0 (State.spawnRelease s a1) := by
  unfold State.spawnRelease
  split
  · exact h
  · split
    · exact h.modCore
    · split
      · exact h.acceptChild
      · extract_lets
        split
        · exact h.acceptChild
        · split
          · exact h.cqAppend
          · exact h.modCore
theorem Keeps.execChildQueueMove {a1 a2} (h : Keeps s0 s) : KeepsR s0 (execChildQueueMove a1 a2 s) := by
  unfold Machine.execChildQueueMove
  extract_lets
  split
  · exact h
  · split
    · exact h
    · exact h.modCtx.acceptChild
theorem Keeps.execPendingSpawnAppend {a1} (h : Keeps s0 s) : KeepsR s0 (execPendingSpawnAppend a1 s) := by
  unfold Machine.execPendingSpawnAppend
  split
  · exact h
  · exact h.modCore.spawnRelease
theorem Keeps.relock {a1 a2} (h : Keeps s0 s) : Keeps s0 (State.relock s a1 a2) := by
  induction a2 generalizing s a1 with
  | nil => exact h
  | cons x xs ih => exact ih h.lockLines
theorem Keeps.loadCore {a1 a2 a3} (h : Keeps s0 s) : Keeps s0 (State.loadCore s a1 a2 a3) := by
  unfold State.loadCore
  exact h.setCore.relock
theorem Keeps.assign {a1 a2 a3 a4 a5} (h : Keeps s0 s) : Keeps s0 (State.assign s a1 a2 a3 a4 a5) := by
  induction a4 generalizing s a1 a2 a3 a5 with
  | nil => exact h
  | cons x xs ih =>
    refine ih ?_
    split
    · exact h
    · split
      · exact h.loadCore
      · exact h.modCore
theorem Keeps.rehome {a1 a2 a3} (h : Keeps s0 s) : Keeps s0 (State.rehome s a1 a2 a3) := by
  unfold State.rehome
  exact h.upd
theorem Keeps.placeTeam {a1 a2 a3 a4} (h : Keeps s0 s) : Keeps s0 (State.placeTeam s a1 a2 a3 a4) := by
  unfold State.placeTeam
  exact h.upd.rehome.assign
theorem Keeps.seatMembers {a1} (h : Keeps s0 s) : Keeps s0 (State.seatMembers s a1) := by
  unfold State.seatMembers
  exact h.upd
theorem Keeps.placeAll {a1 a2} (h : Keeps s0 s) : OptAll (Keeps s0) (State.placeAll s a1 a2) := by
  induction a2 generalizing s a1 with
  | nil => exact h
  | cons x xs ih =>
    unfold State.placeAll
    extract_lets
    split
    · exact ih h
    · split
      · exact trivial
      · exact ih h.placeTeam
theorem Keeps.placeGang {a1} (h : Keeps s0 s) : OptAll (Keeps s0) (State.placeGang s a1) := by
  unfold State.placeGang
  split
  · exact trivial
  · rename_i u e
    have hu : Keeps s0 u := h.placeAll.of_eq e
    refine OptAll.ite hu.seatMembers ?_
    dsimp only
    split
    · exact trivial
    · dsimp only [OptAll]
      exact Keeps.seatMembers (hu.setPhaser.modLaunch.mapCores rfl rfl fun _ => rfl)
theorem Keeps.placeFirst {a1 a2} (h : Keeps s0 s) : Keeps s0 (State.placeFirst s a1 a2) := by
  induction a2 generalizing s with
  | nil => exact h
  | cons x xs ih =>
    obtain ⟨p, cls, k, l, t⟩ := x
    unfold State.placeFirst
    extract_lets served placed u
    have hp : OptAll (Keeps s0) placed := by
      refine OptAll.ite h.placeGang ?_
      cases s.placeOf k l t with
      | none => exact trivial
      | some cs => exact h.placeTeam.seatMembers
    cases e : placed with
    | some w => exact Keeps.upd (hp.of_eq e)
    | none => exact ih (Keeps.ite h.modLaunch h)
theorem Keeps.execTeamPlace {a1} (h : Keeps s0 s) : KeepsR s0 (execTeamPlace a1 s) := by
  unfold Machine.execTeamPlace
  split
  · exact h.placeFirst
  · exact h
theorem Keeps.execTeamMigrate {a1 a2} (h : Keeps s0 s) : KeepsR s0 (execTeamMigrate a1 a2 s) := by
  unfold Machine.execTeamMigrate
  extract_lets
  split
  · exact h
  · exact h.modLaunch
theorem Keeps.execTeamMigrationArrival {a1} (h : Keeps s0 s) : KeepsR s0 (execTeamMigrationArrival a1 s) := by
  unfold Machine.execTeamMigrationArrival
  extract_lets _ _ _ t1
  have ht1 : Keeps s0 t1 := h.modLaunch
  split
  · exact h
  · split
    · exact ht1
    · split
      · exact ht1.placeTeam.seatMembers
      · exact ht1
theorem Keeps.ctrTests {a1 a2} (h : Keeps s0 s) : Keeps s0 (State.ctrTests s a1 a2) := by
  induction a2 generalizing s a1 with
  | nil => exact h
  | cons x xs ih => exact ih h.ctrTest
theorem Keeps.execTaskStart {a1} (h : Keeps s0 s) : KeepsR s0 (execTaskStart a1 s) := by
  unfold Machine.execTaskStart
  split
  · exact h
  · extract_lets _ _ t1 t2
    have ht1 : Keeps s0 t1 := by
      unfold t1
      split
      · exact h.dropRemote
      · exact h
    have ht2 : Keeps s0 t2 := by
      unfold t2
      split
      · exact ht1.modCore.ctrTests
      · exact ht1.setCore
    split
    · exact h
    · split
      · exact ht2.modLaunch
      · exact ht2
theorem Keeps.execCoreReturn {a1} (h : Keeps s0 s) : KeepsR s0 (execCoreReturn a1 s) := by
  unfold Machine.execCoreReturn
  extract_lets
  split
  · exact h
  · split
    · exact h
    · exact h.setCore
theorem Keeps.lastLaunch {a1} (h : Keeps s0 s) : Keeps s0 (State.lastLaunch s a1) := by
  unfold State.lastLaunch
  split
  · exact h
  · exact h.modCtx.quarRelease
theorem Keeps.execLaunchComplete {a1} (h : Keeps s0 s) : KeepsR s0 (execLaunchComplete a1 s) := by
  unfold Machine.execLaunchComplete
  extract_lets _ t t1 t2
  have ht : Keeps s0 t := h.modLaunch
  have ht1 : Keeps s0 t1 := by
    unfold t1
    split
    · exact ht.setPhaser
    · exact ht
  have ht2 : Keeps s0 t2 := ht1.lastLaunch
  split
  · exact h
  · split
    · exact ht2.event
    · exact ht2
theorem Keeps.execDeficitWindow (h : Keeps s0 s) : KeepsR s0 (execDeficitWindow s) := by
  unfold Machine.execDeficitWindow
  split
  · exact h
  · exact h.upd
theorem Keeps.charge {a1} (h : Keeps s0 s) : Keeps s0 (State.charge s a1) := by
  unfold State.charge
  split
  · exact h
  · exact h.upd
theorem Keeps.execClassAging {a1} (h : Keeps s0 s) : KeepsR s0 (execClassAging a1 s) := by
  unfold Machine.execClassAging
  extract_lets
  split
  · exact h
  · exact h.modLaunch
theorem Keeps.wakeDropped {a1 a2 a3} (h : Keeps s0 s) : Keeps s0 (State.wakeDropped s a1 a2 a3) := by
  induction a3 generalizing s a1 a2 with
  | nil => exact h
  | cons x xs ih =>
    refine ih ?_
    split
    · exact h.modCore
    · exact h
theorem Keeps.execPhaserRelease {a1} (h : Keeps s0 s) : KeepsR s0 (execPhaserRelease a1 s) := by
  unfold Machine.execPhaserRelease
  extract_lets
  split
  · exact h.setPhaser.wakeDropped
  · exact h

/-! ### Machine/Cut -/

theorem Keeps.releaseAll {a1 a2} (h : Keeps s0 s) : Keeps s0 (State.releaseAll s a1 a2) := by
  induction a2 generalizing s a1 with
  | nil => exact h
  | cons x xs ih =>
    unfold State.releaseAll
    extract_lets t
    have ht : Keeps s0 t := h.modCore
    split
    · exact ih h
    · split
      · split
        · exact ih h
        · exact ih ht.spawnRelease
      · split
        · split
          · exact ih ht.upd
          · exact ih h
        · exact ih ht.upd
theorem Keeps.passHorizon {a1 a2} (h : Keeps s0 s) : Keeps s0 (State.passHorizon s a1 a2) := by
  unfold State.passHorizon
  exact h.modCore.foldl (fun _ _ hx => hx.trimEng)
theorem Keeps.undo {a1 a2} (h : Keeps s0 s) : Keeps s0 (State.undo s a1 a2) := by
  unfold State.undo
  extract_lets
  split
  · exact h.modCore
  · exact h.putCells
  · exact h.putEnt
  · exact h.modCore
  · exact h.modCore
  · exact h.modCore
  · exact h.modCore
  · split
    · exact h
    · exact h.modCore
  · exact h
theorem Keeps.peelAll {a1 a2 a3} (h : Keeps s0 s) : Keeps s0 (State.peelAll s a1 a2 a3) := by
  induction a3 generalizing s a1 a2 with
  | nil => exact h
  | cons x xs ih =>
    refine ih ?_
    split
    · exact h.undo
    · exact h
theorem Keeps.untend {a1} (h : Keeps s0 s) : Keeps s0 (State.untend s a1) := by
  unfold State.untend
  extract_lets
  split
  · exact h
  · extract_lets t1 t2 back t3
    have ht1 : Keeps s0 t1 := h.modCore
    have ht2 : Keeps s0 t2 := ht1.modLaunch
    have hback : ∀ (s : State) (k : ℕ) (m : PMember), Keeps s0 s → Keeps s0 (back s k m) := fun _ _ _ hm => hm.upd
    have ht3 : Keeps s0 t3 := by
      unfold t3
      refine Keeps.foldl ht2 ?_
      intro u x1 hx1
      split
      · exact hback _ _ _ hx1
    split
    · exact ht1
    · exact ht3.modCore.relock
theorem Keeps.squashCore {a1 a2} (h : Keeps s0 s) : Keeps s0 (State.squashCore s a1 a2) := by
  unfold State.squashCore
  extract_lets _ _ _ _ t t1 t2
  have ht : Keeps s0 t := h.modCore
  have ht1 : Keeps s0 t1 := ht.peelAll
  have ht2 : Keeps s0 t2 := ht1.modCore
  split
  · exact ht2.untend
  · exact ht2
theorem Keeps.squashAll {a1 a2} (h : Keeps s0 s) : Keeps s0 (State.squashAll s a1 a2) := by
  induction a2 generalizing s a1 with
  | nil => exact h
  | cons x xs ih => exact ih h.squashCore
theorem Keeps.publish {a1 a2} (h : Keeps s0 s) : Keeps s0 (State.publish s a1 a2) := by
  unfold State.publish
  extract_lets t t1 t2 _ t3 t4
  have ht : Keeps s0 t := h.modCtx
  have ht1 : Keeps s0 t1 := ht.releaseAll
  have ht2 : Keeps s0 t2 := ht1.foldl (fun _ _ hx => hx.passHorizon)
  have ht3 : Keeps s0 t3 := ht2.upd
  have ht4 : Keeps s0 t4 := ht3.quarRelease
  split
  · split
    · exact ht4.squashAll.modCtx
    · exact ht4
  · exact ht4
theorem Keeps.execHorizonPublish {a1} (h : Keeps s0 s) : KeepsR s0 (execHorizonPublish a1 s) := by
  unfold Machine.execHorizonPublish
  extract_lets
  split
  · exact h
  · exact h.publish
theorem Keeps.execStopAccept {a1} (h : Keeps s0 s) : KeepsR s0 (execStopAccept a1 s) := by
  unfold Machine.execStopAccept
  extract_lets
  split
  · exact h
  · split
    · exact h
    · exact h.setCtx.modCores
theorem Keeps.modTeams {a1 a2} (h : Keeps s0 s) : Keeps s0 (State.modTeams s a1 a2) := h.upd
theorem Keeps.execStopComplete {a1} (h : Keeps s0 s) : KeepsR s0 (execStopComplete a1 s) := by
  unfold Machine.execStopComplete
  extract_lets
  split
  · exact h
  · split
    · exact h
    · extract_lets t t1 _ t2
      have ht : Keeps s0 t := h.upd
      have ht1 : Keeps s0 t1 := ht.modTeams
      have ht2 : Keeps s0 t2 := ht1.setCtx
      exact ht2.cutDone
theorem Keeps.resume {a1} (h : Keeps s0 s) : Keeps s0 (State.resume s a1) := by
  unfold State.resume
  split
  · exact h
  · extract_lets t t1
    have ht : Keeps s0 t := h.modCtx
    have ht1 : Keeps s0 t1 := ht.upd
    exact ht1.modCores
theorem Keeps.execWatchFire {a1 a2} (h : Keeps s0 s) : KeepsR s0 (execWatchFire a1 a2 s) := by
  unfold Machine.execWatchFire
  extract_lets _ _ t
  have ht : Keeps s0 t := h.requestStop.modCore
  split
  · exact h
  · split
    · exact ht.modCores
    · exact h.requestStop.modCore
theorem Keeps.hangRecs {a1 a2} (h : Keeps s0 s) : Keeps s0 (State.hangRecs s a1 a2) := by
  induction a2 generalizing s a1 with
  | nil => exact h
  | cons x xs ih =>
    refine ih ?_
    split
    · exact h.recordOn
    · exact h
theorem Keeps.execHang {a1} (h : Keeps s0 s) : KeepsR s0 (execHang a1 s) := by
  unfold Machine.execHang
  extract_lets
  split
  · exact h
  · exact h.hangRecs.modCore
theorem Keeps.execFbufConsWrite {a1 a2} (h : Keeps s0 s) : KeepsR s0 (execFbufConsWrite a1 a2 s) := by
  unfold Machine.execFbufConsWrite
  extract_lets _ _ t
  have ht : Keeps s0 t := h.fbufPut
  split
  · exact h
  · split
    · exact ht.wake
    · exact ht

/-! ### Machine/Context -/

theorem Keeps.newCtx {a1 a2} (h : Keeps s0 s) : Keeps s0 (State.newCtx s a1 a2) := h.setCtx.putFlags
theorem Keeps.killInc {a1} (h : Keeps s0 s) : Keeps s0 (State.killInc s a1) := by
  unfold State.killInc
  extract_lets c t1 t2 res t3 t4 alive faults t5 t6
  have h1 : Keeps s0 t1 := Keeps.ite h.dropImage h
  have h2 : Keeps s0 t2 := by
    unfold t2
    split
    · exact h1.cutDone
    · exact h1
  have h4 : Keeps s0 t4 := Keeps.foldl h2.setCtx fun _ _ hu => hu.setCore
  have h5 : Keeps s0 t5 := Keeps.ite h4.setFheld h4
  have h6 : Keeps s0 t6 := Keeps.ite h5.setFheld h5
  exact h6.mapCores rfl rfl fun _ => rfl
theorem Keeps.kill {a1} (h : Keeps s0 s) : Keeps s0 (State.kill s a1) := h.killInc.modCtx
theorem Keeps.incCtx {a1} (h : Keeps s0 s) : Keeps s0 (State.incCtx s a1) := h.killInc.modCtx
theorem Keeps.execRcfComplete {a1 a2} (h : Keeps s0 s) : KeepsR s0 (execRcfComplete a1 a2 s) := by
  unfold Machine.execRcfComplete
  extract_lets _ _ _ t t1
  have ht : Keeps s0 t := by
    unfold t
    split
    · exact h.setCtx
    · exact h
  have ht1 : Keeps s0 t1 := ht.upd
  split
  · exact h
  · split
    · exact h
    · exact ht1.wake
theorem Keeps.saveCtx {a1} (h : Keeps s0 s) : Keeps s0 (State.saveCtx s a1) := by
  unfold State.saveCtx
  extract_lets _ _ _ _ t t1
  have ht : Keeps s0 t := h.upd
  have ht1 : Keeps s0 t1 := ht.setCtx.putImage
  exact ht1.foldl (fun _ _ hx => hx.setCore)
theorem Keeps.loadCtx {a1 a2} (h : Keeps s0 s) : Keeps s0 (State.loadCtx s a1 a2) := by
  unfold State.loadCtx
  extract_lets _ _ _ _ _ _ _ t _ t1
  have ht : Keeps s0 t := h.upd
  have ht1 : Keeps s0 t1 := ht.setCtx
  split
  · exact ht1.unlate
  · exact ht1
theorem Keeps.preempt {a1} (h : Keeps s0 s) : Keeps s0 (State.preempt s a1) := by
  induction a1 generalizing s with
  | nil => exact h
  | cons x xs ih =>
    refine ih ?_
    split
    · exact h.requestStop
    · split
      · exact h.saveCtx
      · exact h
theorem Keeps.loadAll {a1} (h : Keeps s0 s) : Keeps s0 (State.loadAll s a1) := by
  induction a1 generalizing s with
  | nil => exact h
  | cons x xs ih =>
    refine ih (Keeps.ite ?_ h)
    split
    · exact h.loadCtx
    · exact h
theorem Keeps.execSliceEnd {a1} (h : Keeps s0 s) : KeepsR s0 (execSliceEnd a1 s) := by
  unfold Machine.execSliceEnd
  split
  · exact h
  · split
    · exact h
    · split
      · exact h
      · extract_lets
        split
        · exact h.preempt
        · split
          · exact h
          · extract_lets t1
            have ht1 : Keeps s0 t1 := h.upd
            exact ht1.loadAll

/-! ### Machine/Host -/

theorem Keeps.setQueue {a1 a2 a3} (h : Keeps s0 s) : Keeps s0 (State.setQueue s a1 a2 a3) := h.modPart
theorem Keeps.qspace {a1 a2} (h : Keeps s0 s) : Keeps s0 (State.qspace s a1 a2) := by
  unfold State.qspace
  extract_lets
  split
  · exact h.setQueue.event
  · exact h
theorem Keeps.listGone {a1 a2} (h : Keeps s0 s) : Keeps s0 (State.listGone s a1 a2) := h.setQueue.qspace
theorem Keeps.setInterp {a1} (h : Keeps s0 s) : Keeps s0 (State.setInterp s a1) := h.setQueue
theorem Keeps.listRec {a1 a2 a3 a4} (h : Keeps s0 s) : Keeps s0 (State.listRec s a1 a2 a3 a4) := by
  unfold State.listRec
  exact h.record
theorem Keeps.listFault {a1 a2 a3} (h : Keeps s0 s) : Keeps s0 (State.listFault s a1 a2 a3) := h.listRec.listGone
theorem Keeps.hostPoison {a1 a2 a3 a4} (h : Keeps s0 s) : Keeps s0 (State.hostPoison s a1 a2 a3 a4) := by
  unfold State.hostPoison
  exact h.record.requestStop
theorem Keeps.entryWord {f} (h : Keeps s0 s) (hf : ∀ i, Keeps s0 (f i)) : KeepsR s0 (entry s f) := by
  unfold Machine.entry
  split
  · exact h
  · exact hf _
theorem Keeps.goEntry {a1 a2} (h : Keeps s0 s) : Keeps s0 (State.goEntry s a1 a2) := h.setInterp
theorem Keeps.entryTest {a1 a2 f} (h : Keeps s0 s) (hf : ∀ ks b u, Keeps s0 u → Keeps s0 (f ks b u)) : Keeps s0 (State.entryTest s a1 a2 f) := by
  unfold State.entryTest
  split
  · exact h.listFault
  · split
    · exact h.hostPoison.listGone
    · split
      · exact h.listFault
      · exact hf _ _ _ h.dropRemote
theorem Keeps.execLaunch {a1} (h : Keeps s0 s) : KeepsR s0 (execLaunch a1 s) := by
  unfold Machine.execLaunch
  refine Keeps.entryWord h ?_
  intro i
  extract_lets
  split
  · exact h.listFault
  · exact h.addLaunch.goEntry
theorem Keeps.waitTo {a1} (h : Keeps s0 s) : Keeps s0 (State.waitTo s a1) := h.event.listGone
theorem Keeps.execWaitv {a1} (h : Keeps s0 s) : KeepsR s0 (execWaitv a1 s) := by
  unfold Machine.execWaitv
  refine Keeps.entryWord h ?_
  intro i
  refine Keeps.entryTest h ?_
  intro ks b u hu
  extract_lets
  split
  · split
    · split
      · exact hu.waitTo
      · split
        · exact hu.goEntry
        · exact hu.setInterp
    · split
      · exact hu.waitTo
      · split
        · exact hu.goEntry
        · exact hu.setInterp
  · split
    · exact hu.goEntry
    · exact hu.setInterp
theorem Keeps.entrySigv {a1 a2 a3} (h : Keeps s0 s) : KeepsR s0 (entrySigv a1 a2 a3 s) := by
  unfold Machine.entrySigv
  refine Keeps.entryWord h ?_
  intro i
  split
  · exact h.listFault
  · split
    · exact h.listRec.goEntry
    · exact h.writeBytes.goEntry
theorem Keeps.execJump {a1} (h : Keeps s0 s) : KeepsR s0 (execJump a1 s) := by
  unfold Machine.execJump
  refine Keeps.entryWord h ?_
  intro i
  split
  · exact h.goEntry
  · exact h.listFault
theorem Keeps.execListCall {a1} (h : Keeps s0 s) : KeepsR s0 (execListCall a1 s) := by
  unfold Machine.execListCall
  refine Keeps.entryWord h ?_
  intro i
  split
  · exact h.listFault
  · split
    · exact h.goEntry
    · exact h.listFault
theorem Keeps.execListRet {a1} (h : Keeps s0 s) : KeepsR s0 (execListRet a1 s) := by
  unfold Machine.execListRet
  refine Keeps.entryWord h ?_
  intro i
  split
  · exact h.listFault
  · exact h.goEntry
theorem Keeps.entryCut {a1 ask a2} (h : Keeps s0 s) (hask : ∀ c u, Keeps s0 u → Keeps s0 (ask c u)) : KeepsR s0 (entryCut a1 ask a2 s) := by
  unfold Machine.entryCut
  refine Keeps.entryWord h ?_
  intro i
  extract_lets _ t
  have ht : Keeps s0 t := by
    unfold t
    split
    · exact h
    · exact hask _ _ h
  split
  · exact ht.goEntry
  · exact ht.setInterp
theorem Keeps.execFence {a1} (h : Keeps s0 s) : KeepsR s0 (execFence a1 s) := by
  unfold Machine.execFence
  refine Keeps.entryWord h ?_
  intro i
  extract_lets
  split
  · exact h.goEntry
  · exact h.setInterp
theorem Keeps.execListEnd {a1} (h : Keeps s0 s) : KeepsR s0 (execListEnd a1 s) := by
  unfold Machine.execListEnd
  refine Keeps.entryWord h ?_
  intro i
  refine Keeps.listGone ?_
  split
  · exact h.event
  · exact h
theorem Keeps.execWaitvReread {a1 a2} (h : Keeps s0 s) : KeepsR s0 (execWaitvReread a1 a2 s) := by
  unfold Machine.execWaitvReread
  extract_lets t
  have ht : Keeps s0 t := h.upd
  split
  · exact ht
  · split
    · exact ht.execWaitv
    · exact ht
theorem Keeps.execWaitvTimeout {a1 a2} (h : Keeps s0 s) : KeepsR s0 (execWaitvTimeout a1 a2 s) := by
  unfold Machine.execWaitvTimeout
  extract_lets t
  have ht : Keeps s0 t := h.upd
  split
  · exact ht
  · split
    · split
      · exact ht
      · exact ht.waitTo
    · exact ht
theorem Keeps.rereads {a1 a2} (h : Keeps s0 s) : Keeps s0 (State.rereads s a1 a2) := by
  induction a2 generalizing s with
  | nil => exact h
  | cons x xs ih =>
    refine ih (Keeps.ite ?_ h)
    split
    · rename_i u e
      exact Keeps.upd (h.execWaitvReread.of_eq e)
    · exact h
theorem Keeps.execSubmit {a1} (h : Keeps s0 s) : KeepsR s0 (execSubmit a1 s) := by
  unfold Machine.execSubmit
  split
  · exact h.ueDrop
  · extract_lets _ _ _ _ t
    have ht : Keeps s0 t := by
      unfold t
      split
      · exact h.setQueue
      · split
        · exact h.setQueue
        · exact h
    exact ht.send
theorem Keeps.hostWrite {a1 a2} (h : Keeps s0 s) : Keeps s0 (State.hostWrite s a1 a2) := by
  unfold State.hostWrite
  split
  · exact h.ueDrop
  · split
    · exact h.send
    · extract_lets _ t t1
      have ht : Keeps s0 t := h.writeBytes
      have ht1 : Keeps s0 t1 := by
        unfold t1
        split
        · exact ht.wake
        · exact ht
      exact ht1.send
theorem Keeps.execRmaRead {a1 a2} (h : Keeps s0 s) : KeepsR s0 (execRmaRead a1 a2 s) := by
  unfold Machine.execRmaRead
  split
  · exact h.ueDrop
  · split
    · exact h.send
    · split
      · exact h.hostPoison.send
      · exact h.send
theorem Keeps.execAttestationRequest {a1} (h : Keeps s0 s) : KeepsR s0 (execAttestationRequest a1 s) := by
  unfold Machine.execAttestationRequest
  split
  · exact h.ueDrop
  · split
    · exact h.send
    · split
      · exact h.send
      · exact h.upd.send

/-! ### Machine/Power -/

theorem Keeps.lose {a1} (h : Keeps s0 s) : Keeps s0 (State.lose s a1) := by
  refine ⟨fun hs => ?_, fun _ => List.nodup_nil⟩
  cases a1 with
  | false => rfl
  | true => exact SMap.wf_filter _ _ _ (h.mem hs)
theorem Keeps.toLowest (h : Keeps s0 s) : Keeps s0 (State.toLowest s) := by
  unfold State.toLowest
  extract_lets t
  have ht : Keeps s0 t := h.lose
  exact ht.upd
theorem Keeps.bootReport {a1 a2 a3} (h : Keeps s0 s) : Keeps s0 (State.bootReport s a1 a2 a3) := h.upd
theorem Keeps.recover {a1 a2} (h : Keeps s0 s) : Keeps s0 (State.recover s a1 a2) := by
  unfold State.recover
  extract_lets _ t
  have ht : Keeps s0 t := h.bootReport
  exact ht.upd
theorem Keeps.retrain (h : Keeps s0 s) : Keeps s0 (State.retrain s) := h.upd
theorem Keeps.startFirmware {a1} (h : Keeps s0 s) : Keeps s0 (State.startFirmware s a1) := h.upd.retrain.putBytes.setCore.setCore
theorem Keeps.boot {a1} (h : Keeps s0 s) : Keeps s0 (State.boot s a1) := by
  unfold State.boot
  split
  · exact h.recover
  · split
    · exact h.recover
    · split
      · exact h.recover
      · split
        · exact h.recover
        · split
          · exact h.recover
          · extract_lets t t1
            have ht : Keeps s0 t := h.upd
            have ht1 : Keeps s0 t1 := by
              unfold t1
              split
              · exact ht
              · exact ht.bootReport
            split
            · exact ht.recover
            · exact ht1.upd.startFirmware
theorem Keeps.execStrapWake {a1} (h : Keeps s0 s) : KeepsR s0 (execStrapWake a1 s) := by
  unfold Machine.execStrapWake
  split
  · exact h.lose.boot
  · exact h
theorem Keeps.execPowerLoss (h : Keeps s0 s) : KeepsR s0 (execPowerLoss s) := by
  unfold Machine.execPowerLoss
  extract_lets t
  have ht : Keeps s0 t := h.lose
  exact ht.upd
theorem Keeps.execFreeze (h : Keeps s0 s) : KeepsR s0 (execFreeze s) := by
  unfold Machine.execFreeze
  split
  · exact h.upd
  · exact h
theorem Keeps.execThaw {a1} (h : Keeps s0 s) : KeepsR s0 (execThaw a1 s) := by
  unfold Machine.execThaw
  split
  · exact h
  · exact h.upd.retrain
theorem Keeps.tapPut {a1 a2} (h : Keeps s0 s) : Keeps s0 (State.tapPut s a1 a2) := by
  unfold State.tapPut
  extract_lets
  split
  · exact h.setByte
  · exact h.upd
  · exact h.modCore
  · exact h.modCore
  · exact h.modCore
  · exact h.modCore
  · exact h.modCore
  · exact h.modCore
  · exact h.modCore
  · exact h.modCore
  · exact h.modCore
  · exact h.modCore
  · exact h.modCore
  · exact h.modCore
  · exact h.modCore
  · exact h.modCore
  · exact h.modCore
  · exact h.modCore
  · exact h.modCore
  · exact h.modCore
  · exact h.modCore
  · exact h.modCtx
  · exact h.modCtx
  · exact h.modPart
  · exact h.setPhaser
  · exact h.modPort
  · exact h.upd
  · exact h.upd
  · exact h.upd
theorem Keeps.execTapAccess {a1} (h : Keeps s0 s) : KeepsR s0 (execTapAccess a1 s) := by
  unfold Machine.execTapAccess
  split
  · exact h
  · split
    · exact h.upd
    · exact h.tapPut
theorem Keeps.execThermalStepDown {a1 a2} (h : Keeps s0 s) : KeepsR s0 (execThermalStepDown a1 a2 s) := by
  unfold Machine.execThermalStepDown
  extract_lets
  split
  · exact h.setIsland.wake
  · exact h
theorem Keeps.execThermalStepUp {a1 a2} (h : Keeps s0 s) : KeepsR s0 (execThermalStepUp a1 a2 s) := by
  unfold Machine.execThermalStepUp
  extract_lets
  split
  · exact h.setIsland
  · exact h
theorem Keeps.execThermalHold {a1 a2} (h : Keeps s0 s) : KeepsR s0 (execThermalHold a1 a2 s) := by
  unfold Machine.execThermalHold
  extract_lets
  split
  · exact h.setIsland.wake
  · exact h
theorem Keeps.execThermalHoldEnd {a1 a2} (h : Keeps s0 s) : KeepsR s0 (execThermalHoldEnd a1 a2 s) := by
  unfold Machine.execThermalHoldEnd
  extract_lets
  split
  · exact h.setIsland
  · exact h
theorem Keeps.execDebugInterfaceRequest {a1} (h : Keeps s0 s) : KeepsR s0 (execDebugInterfaceRequest a1 s) := by
  unfold Machine.execDebugInterfaceRequest
  split
  · exact h.requestStop
  · exact h.cancelStop
  · exact h.resume
  · split
    · exact h
    · exact h.modCore
  · split
    · exact h
    · exact h.modCore

/-! ### Machine/Vector -/

theorem Keeps.vLaneOp {a1 a2 a3 a4 a5 a6} (h : Keeps s0 s) : KeepsR s0 (vLaneOp a1 a2 a3 a4 a5 a6 s) := h.exeOp
theorem Keeps.vFloat {a1 a2 a3 a4 a5 a6 a7 a8} (h : Keeps s0 s) : KeepsR s0 (vFloat a1 a2 a3 a4 a5 a6 a7 a8 s) := by
  unfold Machine.vFloat
  exact h.vLaneOp
theorem Keeps.vInt {a1 a2 a3 a4 a5} (h : Keeps s0 s) : KeepsR s0 (vInt a1 a2 a3 a4 a5 s) := by
  unfold Machine.vInt
  exact h.vLaneOp
theorem Keeps.execVcmp {a1 a2 a3} (h : Keeps s0 s) : KeepsR s0 (execVcmp a1 a2 a3 s) := by
  unfold Machine.execVcmp
  exact h.exeOp
theorem Keeps.execVicmp {a1 a2 a3} (h : Keeps s0 s) : KeepsR s0 (execVicmp a1 a2 a3 s) := by
  unfold Machine.execVicmp
  exact h.exeOp
theorem Keeps.execVcvt {a1 a2 a3} (h : Keeps s0 s) : KeepsR s0 (execVcvt a1 a2 a3 s) := by
  unfold Machine.execVcvt
  exact h.exeOp
theorem Keeps.vReduce {a1 a2 a3 a4 a5 a6} (h : Keeps s0 s) : KeepsR s0 (vReduce a1 a2 a3 a4 a5 a6 s) := h.exeOp
theorem Keeps.execVrargmax {a1 a2 a3} (h : Keeps s0 s) : KeepsR s0 (execVrargmax a1 a2 a3 s) := by
  unfold Machine.execVrargmax
  exact h.exeOp
theorem Keeps.vScan {a1 a2 a3 a4 a5 a6} (h : Keeps s0 s) : KeepsR s0 (vScan a1 a2 a3 a4 a5 a6 s) := h.exeOp
theorem Keeps.vMove {a1 a2 a3 a4 a5 a6} (h : Keeps s0 s) : KeepsR s0 (vMove a1 a2 a3 a4 a5 a6 s) := by
  unfold Machine.vMove
  exact h.exeOp
theorem Keeps.vConst {a1 a2 a3 a4 a5 a6} (h : Keeps s0 s) : KeepsR s0 (vConst a1 a2 a3 a4 a5 a6 s) := h.exeOp
theorem Keeps.pOp {a1 a2 a3 a4 a5} (h : Keeps s0 s) : KeepsR s0 (pOp a1 a2 a3 a4 a5 s) := h.exeOp
theorem Keeps.pNum {a1 a2 a3 a4} (h : Keeps s0 s) : KeepsR s0 (pNum a1 a2 a3 a4 s) := h.exeOp
theorem Keeps.deferPend {a1} (h : Keeps s0 s) : Keeps s0 (State.deferPend s a1) := by
  unfold State.deferPend
  extract_lets
  split
  · exact h.foldl (fun _ _ hx3 => hx3.setPend)
  · exact h
theorem Keeps.execDefer {a1 a2} (h : Keeps s0 s) : KeepsR s0 (execDefer a1 a2 s) := by
  unfold Machine.execDefer
  exact h.exeWord (fun _ => OptAll.ite trivial trivial) (fun _ _ hu => hu.deferPend)
theorem Keeps.vDrain {a1 a2 a3 a4} (h : Keeps s0 s) : KeepsR s0 (vDrain a1 a2 a3 a4 s) := by
  unfold Machine.vDrain
  extract_lets
  refine Keeps.exeWord h ?_ (fun _ _ hu => hu)
  intro e
  split
  · exact trivial
  · refine Keeps.orTest Keeps.stallUnless ?_
    unfold Option.map
    split <;> exact trivial
theorem Keeps.modExe {a1} (h : Keeps s0 s) : Keeps s0 (State.modExe s a1) := h.modCore
theorem Keeps.execLoopExe {a1 a2 a3} (h : Keeps s0 s) : KeepsR s0 (execLoopExe a1 a2 a3 s) := by
  unfold Machine.execLoopExe
  exact h.exeWord (fun _ => OptAll.ite Keeps.stallUnless trivial) (fun _ _ hu => hu.modExe)
theorem Keeps.execBskipExe {a1 a2} (h : Keeps s0 s) : KeepsR s0 (execBskipExe a1 a2 s) := by
  unfold Machine.execBskipExe
  extract_lets
  refine Keeps.exeWord h (fun _ => OptAll.ite trivial trivial) ?_
  intro b u hu
  split
  · exact hu.modExe
  · exact hu
theorem Keeps.exeLevel {a1 a2 a3 a4} (h : Keeps s0 s) : KeepsR s0 (exeLevel a1 a2 a3 a4 s) := by
  unfold Machine.exeLevel
  exact h.exeWord (fun _ => OptAll.ite trivial trivial) (fun _ _ hu => hu.modExe)
theorem Keeps.execVqblk {a1 a2 a3} (h : Keeps s0 s) : KeepsR s0 (execVqblk a1 a2 a3 s) := by
  unfold Machine.execVqblk
  exact h.exeOp
theorem Keeps.execVdqblk {a1 a2 a3} (h : Keeps s0 s) : KeepsR s0 (execVdqblk a1 a2 a3 s) := by
  unfold Machine.execVdqblk
  exact h.exeOp
theorem Keeps.execVscale {a1 a2 a3} (h : Keeps s0 s) : KeepsR s0 (execVscale a1 a2 a3 s) := by
  unfold Machine.execVscale
  exact h.vLaneOp

/-! ### Machine/Probability -/

theorem Keeps.qLogic {a1 a2 a3 a4 a5} (h : Keeps s0 s) : KeepsR s0 (qLogic a1 a2 a3 a4 a5 s) := by
  unfold Machine.qLogic
  exact h.exeOp
theorem Keeps.execQnot {a1 a2} (h : Keeps s0 s) : KeepsR s0 (execQnot a1 a2 s) := by
  unfold Machine.execQnot
  exact h.exeOp
theorem Keeps.execQsel {a1 a2 a3} (h : Keeps s0 s) : KeepsR s0 (execQsel a1 a2 a3 s) := by
  unfold Machine.execQsel
  exact h.exeOp
theorem Keeps.execQcol {a1 a2} (h : Keeps s0 s) : KeepsR s0 (execQcol a1 a2 s) := by
  unfold Machine.execQcol
  exact h.exeOp
theorem Keeps.execQto {a1 a2} (h : Keeps s0 s) : KeepsR s0 (execQto a1 a2 s) := by
  unfold Machine.execQto
  exact h.exeOp
theorem Keeps.execQgand {a1 a2} (h : Keeps s0 s) : KeepsR s0 (execQgand a1 a2 s) := by
  unfold Machine.execQgand
  exact h.exeOp
theorem Keeps.execQlin {a1 a2} (h : Keeps s0 s) : KeepsR s0 (execQlin a1 a2 s) := by
  unfold Machine.execQlin
  exact h.exeOp
theorem Keeps.execQrsum {a1 a2} (h : Keeps s0 s) : KeepsR s0 (execQrsum a1 a2 s) := by
  unfold Machine.execQrsum
  exact h.exeOp
theorem Keeps.execQrprod {a1 a2} (h : Keeps s0 s) : KeepsR s0 (execQrprod a1 a2 s) := by
  unfold Machine.execQrprod
  exact h.exeOp

/-! ### Machine/Supervisor -/

theorem Keeps.supForm {a1 a2 a3 body} (h : Keeps s0 s) (hbody : ∀ e w u, Keeps s0 u → KeepsB s0 (body e w u)) :
    KeepsR s0 (supForm a1 a2 a3 body s) := h.ccWord (fun _ _ hu => hbody _ _ _ hu)
theorem Keeps.status {a1 a2 a3} (h : Keeps s0 s) : KeepsB s0 (State.status s a1 a2 a3) := h.wrS
theorem Keeps.supDesc {a1 a2 a3 a4 k} (hk : ∀ ks, KeepsB s0 (k ks)) : KeepsB s0 (State.supDesc s a1 a2 a3 a4 k) := by
  unfold State.supDesc
  split
  · exact trivial
  · split
    · exact trivial
    · split
      · exact trivial
      · exact hk _
theorem Keeps.execCtxnew {a1 a2} (h : Keeps s0 s) : KeepsR s0 (execCtxnew a1 a2 s) := by
  unfold Machine.execCtxnew
  refine Keeps.supForm h ?_
  intro e w u hu
  refine Keeps.supDesc ?_
  intro ks
  extract_lets
  split
  · exact hu.status
  · split
    · exact hu.status
    · split
      · exact hu.status
      · split
        · exact hu.wrS
        · exact hu.newCtx.status
theorem Keeps.execCtxkill {a1 a2} (h : Keeps s0 s) : KeepsR s0 (execCtxkill a1 a2 s) := by
  unfold Machine.execCtxkill
  refine Keeps.supForm h ?_
  intro e w u hu
  extract_lets
  split
  · exact hu.status
  · exact hu.kill.status
theorem Keeps.execCtxinc {a1 a2} (h : Keeps s0 s) : KeepsR s0 (execCtxinc a1 a2 s) := by
  unfold Machine.execCtxinc
  refine Keeps.supForm h ?_
  intro e w u hu
  extract_lets
  split
  · exact hu.status
  · split
    · exact hu.wrS
    · exact hu.incCtx.status
theorem Keeps.execCtxsave {a1 a2} (h : Keeps s0 s) : KeepsR s0 (execCtxsave a1 a2 s) := by
  unfold Machine.execCtxsave
  refine Keeps.supForm h ?_
  intro e w u hu
  extract_lets
  split
  · exact hu.status
  · split
    · exact hu.modCore
    · split
      · exact hu.status
      · exact hu.saveCtx.status
theorem Keeps.execCtxload {a1 a2} (h : Keeps s0 s) : KeepsR s0 (execCtxload a1 a2 s) := by
  unfold Machine.execCtxload
  refine Keeps.supForm h ?_
  intro e w u hu
  extract_lets
  split
  · exact hu.status
  · exact hu.loadCtx.status
theorem Keeps.execRcf {a1 a2} (h : Keeps s0 s) : KeepsR s0 (execRcf a1 a2 s) := by
  unfold Machine.execRcf
  refine Keeps.supForm h ?_
  intro e w u hu
  extract_lets
  split
  · exact hu.status
  · split
    · exact hu.status
    · exact hu.upd.status
theorem Keeps.execPcreate {a1 a2} (h : Keeps s0 s) : KeepsR s0 (execPcreate a1 a2 s) := by
  unfold Machine.execPcreate
  refine Keeps.supForm h ?_
  intro e w u hu
  refine Keeps.supDesc ?_
  intro ks
  extract_lets
  split
  · exact hu.status
  · split
    · exact hu.status
    · exact hu.setPart.status
theorem Keeps.execPsetq {a1 a2} (h : Keeps s0 s) : KeepsR s0 (execPsetq a1 a2 s) := by
  unfold Machine.execPsetq
  refine Keeps.supForm h ?_
  intro e w u hu
  refine Keeps.supDesc ?_
  intro ks
  extract_lets _ _ t t1
  have ht : Keeps s0 t := hu.modPart
  have ht1 : Keeps s0 t1 := ht.foldl (fun _ _ hx1 => hx1.setQueue.qspace)
  split
  · exact hu.status
  · exact ht1.status
theorem Keeps.execPdestroy {a1 a2} (h : Keeps s0 s) : KeepsR s0 (execPdestroy a1 a2 s) := by
  unfold Machine.execPdestroy
  refine Keeps.supForm h ?_
  intro e w u hu
  extract_lets
  split
  · exact hu.status
  · split
    · exact hu.status
    · exact hu.setPart.status
theorem Keeps.execChmap {a1 a2} (h : Keeps s0 s) : KeepsR s0 (execChmap a1 a2 s) := by
  unfold Machine.execChmap
  refine Keeps.supForm h ?_
  intro e w u hu
  refine Keeps.supDesc ?_
  intro ks
  extract_lets
  split
  · exact hu.status
  · exact hu.modPart.status
theorem Keeps.execSlice {a1 a2} (h : Keeps s0 s) : KeepsR s0 (execSlice a1 a2 s) := by
  unfold Machine.execSlice
  refine Keeps.supForm h ?_
  intro e w u hu
  refine Keeps.supDesc ?_
  intro ks
  extract_lets
  split
  · exact hu.status
  · exact hu.upd.status
theorem Keeps.execSbudget {a1 a2} (h : Keeps s0 s) : KeepsR s0 (execSbudget a1 a2 s) := by
  unfold Machine.execSbudget
  refine Keeps.supForm h ?_
  intro e w u hu
  extract_lets
  split
  · exact hu.status
  · exact hu.modPart.status
theorem Keeps.execFbpop {a1 a2} (h : Keeps s0 s) : KeepsR s0 (execFbpop a1 a2 s) := by
  unfold Machine.execFbpop
  refine Keeps.supForm h ?_
  intro e w u hu
  refine Keeps.supDesc ?_
  intro ks
  extract_lets
  split
  · exact hu.status
  · exact hu.writeBytes.fbufPut.status
theorem Keeps.releaseHeld {a1 a2 a3} (h : Keeps s0 s) : Keeps s0 (State.releaseHeld s a1 a2 a3).1 := by
  induction a2 generalizing s a1 a3 with
  | nil => exact h
  | cons x xs ih =>
    unfold State.releaseHeld
    split
    · exact h
    · refine ih ?_
      split
      · exact h.writeRec.modCore
      · exact h.writeRec
theorem Keeps.execFbrel {a1 a2} (h : Keeps s0 s) : KeepsR s0 (execFbrel a1 a2 s) := by
  unfold Machine.execFbrel
  refine Keeps.supForm h ?_
  intro e w u hu
  extract_lets
  split
  · rename_i u1 _ _ e1
    refine Keeps.status ?_
    split
    · exact hu
    · exact (hu.releaseHeld.of_fst e1 : Keeps s0 u1).setFheld
theorem Keeps.execPgpop {a1 a2} (h : Keeps s0 s) : KeepsR s0 (execPgpop a1 a2 s) := by
  unfold Machine.execPgpop
  refine Keeps.supForm h ?_
  intro e w u hu
  refine Keeps.supDesc ?_
  intro ks
  split
  · exact hu.status
  · exact hu.upd.writeBytes.status
theorem Keeps.resolve {a1 a2 a3 a4} (h : Keeps s0 s) : Keeps s0 (State.resolve s a1 a2 a3 a4) := by
  unfold State.resolve
  extract_lets t
  have ht : Keeps s0 t := h.modCore
  split
  · exact ht
  · split
    · exact ht.modCore.retired
    · exact ht.skipWord.retired
theorem Keeps.execFbact {a1 a2} (h : Keeps s0 s) : KeepsR s0 (execFbact a1 a2 s) := by
  unfold Machine.execFbact
  refine Keeps.supForm h ?_
  intro e w u hu
  split
  · exact hu.status
  · split
    · exact hu.status
    · exact hu.resolve.status
theorem Keeps.execCaprd {a1 a2} (h : Keeps s0 s) : KeepsR s0 (execCaprd a1 a2 s) := by
  unfold Machine.execCaprd
  extract_lets
  refine Keeps.supForm h ?_
  intro e w1 u hu
  extract_lets
  split
  · exact trivial
  · exact hu.wrS
theorem Keeps.execSleep {a1 a2} (h : Keeps s0 s) : KeepsR s0 (execSleep a1 a2 s) := by
  unfold Machine.execSleep
  refine Keeps.ccWord h ?_
  intro e u hu
  split
  · exact hu.status
  · exact hu.toLowest
theorem Keeps.execWfe {a1 a2} (h : Keeps s0 s) : KeepsR s0 (execWfe a1 a2 s) := by
  unfold Machine.execWfe
  refine Keeps.ccWord h ?_
  intro e u hu
  split
  · exact trivial
  · exact hu.upd.wrS

/-! ### Machine/Dispatch -/

theorem Keeps.exec {a1} (h : Keeps s0 s) : KeepsR s0 (exec a1 s) := by
  unfold Machine.exec
  split
  · exact h.execNop
  · exact h.execMark
  · exact h.execIll
  · exact h.ccAlu
  · exact h.ccAlu
  · exact h.ccAlu
  · exact h.ccAlu
  · exact h.ccAlu
  · exact h.ccAlu
  · exact h.ccAlu
  · exact h.ccAlu
  · exact h.ccAlu
  · exact h.ccAlu
  · exact h.ccAlu
  · exact h.ccAlu
  · exact h.ccAlu
  · exact h.ccAlu
  · exact h.ccAlu
  · exact h.ccAlu
  · exact h.ccAlu
  · exact h.ccAlu
  · exact h.ccAlu
  · exact h.ccAlu
  · exact h.ccAlu
  · exact h.ccAlu
  · exact h.ccAlu
  · exact h.ccDiv
  · exact h.ccDiv
  · exact h.ccAlu
  · exact h.ccAlu
  · exact h.ccAlu
  · exact h.ccAlu
  · exact h.ccAlu
  · exact h.ccAlu
  · exact h.ccAlu
  · exact h.ccAlu
  · exact h.ccAlu
  · exact h.ccAlu
  · exact h.ccAlu
  · exact h.ccLoad
  · exact h.ccLoad
  · exact h.ccLoad
  · exact h.ccLoad
  · exact h.ccStore
  · exact h.ccStore
  · exact h.ccStore
  · exact h.ccStore
  · exact h.execLdra
  · exact h.ccAtomic
  · exact h.ccAtomic
  · exact h.ccAtomic
  · exact h.ccAtomic
  · exact h.ccAtomic
  · exact h.ccAtomic
  · exact h.ccAtomic
  · exact h.ccAtomic
  · exact h.ccAtomic
  · exact h.ccWord (fun _ _ hu => hu.fenceAcq)
  · exact h.ccWord (fun _ _ hu => hu.fenceRel)
  · exact h.ccWord (fun _ _ hu => hu.fenceRel.fenceAcq)
  · exact h.ccBranch
  · exact h.ccBranch
  · exact h.ccBranch
  · exact h.ccBranch
  · exact h.ccBranch
  · exact h.ccBranch
  · exact h.execDbnz
  · exact h.ccBranch
  · exact h.ccWord (fun _ _ hu => hu.wrS.jump)
  · exact h.ccJumpReg
  · exact h.ccJumpReg
  · exact h.ccJumpReg
  · exact h.ccLevel
  · exact h.ccLevel
  · exact h.execSetcrd
  · exact h.execGetcrd
  · exact h.execGetcl
  · exact h.execCut
  · exact h.execCutq
  · exact h.execCutw
  · exact h.execPushq
  · exact h.execPushqn
  · exact h.execRingcpy
  · exact h.execWset
  · exact h.ccWord (fun _ _ hu => hu.signal)
  · exact h.ccWord (fun _ _ hu => hu)
  · exact h.ccWord (fun _ _ hu => hu.wrS)
  · exact h.ccWord (fun _ _ hu => hu.setTok)
  · exact h.execJoin
  · exact h.execTdset
  · exact h.execTdrd
  · exact h.execTdinv
  · exact h.execPhreg
  · exact h.execPhdrop
  · exact h.execPhsig
  · exact h.execPhwait
  · exact h.execPhsw
  · exact h.execPhexp
  · exact h.execPhrd
  · exact h.execPhase
  · exact h.execSpawn
  · exact h.execSpawnw
  · exact h.ccRangeHold
  · exact h.ccRangeHold
  · exact h.ccRangeHold
  · exact h.execFetchb
  · exact h.execIlock
  · exact h.execIunlk
  · exact h.execEcfgw
  · exact h.execEcfgr
  · exact h.execRdsr
  · exact h.ccSysPut
  · exact h.ccSysPut
  · exact h.ccSysPut
  · exact h.ccWord (fun _ _ hu => hu)
  · exact h.ccWord (fun _ _ hu => hu)
  · exact h.execTret
  · exact h.execCbstat
  · exact h.execCbrst
  · exact h.execTtrd
  · exact h.execTtset
  · exact h.ccTileHold
  · exact h.ccTileHold
  · exact h.execPgreq
  · exact h.execTend
  · exact h.execCtxnew
  · exact h.execCtxkill
  · exact h.execCtxinc
  · exact h.execCtxsave
  · exact h.execCtxload
  · exact h.execRcf
  · exact h.execPcreate
  · exact h.execPsetq
  · exact h.execPdestroy
  · exact h.execChmap
  · exact h.execSlice
  · exact h.execSbudget
  · exact h.execFbpop
  · exact h.execFbrel
  · exact h.execPgpop
  · exact h.execFbact
  · exact h.ccWord (fun _ _ hu => hu.upd)
  · exact h.execCaprd
  · exact h.execSleep
  · exact h.execWfe
  · exact h.accLoad
  · exact h.accLoad
  · exact h.execStt
  · exact h.execLds
  · exact h.execLdsb
  · exact h.execSts
  · exact h.execGath
  · exact h.execScat
  · exact h.gOp
  · exact h.gOp
  · exact h.gOp
  · exact h.gOp
  · exact h.gOp
  · exact h.gOp
  · exact h.gOp
  · exact h.gOp
  · exact h.gOp
  · exact h.gOpi
  · exact h.gOpi
  · exact h.gOpi
  · exact h.gForm
  · exact h.gForm
  · exact h.gForm
  · exact h.execGparm
  · exact h.execLoopAcc
  · exact h.execSloop
  · exact h.execBpushAcc
  · exact h.execBskipAcc
  · exact h.execCbacq
  · exact h.execCbrel
  · exact h.accLevel
  · exact h.accLevel
  · exact h.execDqflush
  · exact h.execDqeos
  · exact h.execPgreqAcc
  · exact h.vFloat
  · exact h.vFloat
  · exact h.vFloat
  · exact h.vFloat
  · exact h.vFloat
  · exact h.vLaneOp
  · exact h.vLaneOp
  · exact h.vFloat
  · exact h.vFloat
  · exact h.vFloat
  · exact h.vInt
  · exact h.vInt
  · exact h.vInt
  · exact h.vInt
  · exact h.vInt
  · exact h.vInt
  · exact h.vInt
  · exact h.vInt
  · exact h.vLaneOp
  · exact h.vLaneOp
  · exact h.vFloat
  · exact h.vFloat
  · exact h.vFloat
  · exact h.vFloat
  · exact h.vFloat
  · exact h.vFloat
  · exact h.vLaneOp
  · exact h.execVcmp
  · exact h.execVicmp
  · exact h.exeOp
  · exact h.execVcvt
  · exact h.vReduce
  · exact h.vReduce
  · exact h.vReduce
  · exact h.execVrargmax
  · exact h.vScan
  · exact h.vScan
  · exact h.vMove
  · exact h.vMove
  · exact h.vMove
  · exact h.vMove
  · exact h.exeOp
  · exact h.vConst
  · exact h.pOp
  · exact h.pOp
  · exact h.pOp
  · exact h.pOp
  · exact h.pNum
  · exact h.pNum
  · exact h.pNum
  · exact h.execDefer
  · exact h.vDrain
  · exact h.vDrain
  · exact h.execLoopExe
  · exact h.exeWord (fun _ => Keeps.stallUnless) (fun _ _ hu => hu)
  · exact h.execBskipExe
  · exact h.exeLevel
  · exact h.exeLevel
  · exact h.execVqblk
  · exact h.execVdqblk
  · exact h.execVscale
  · exact h.exeOp
  · exact h.vConst
  · exact h.vConst
  · exact h.exeOp
  · exact h.exeOp
  · exact h.exeOp
  · exact h.exeOp
  · exact h.exeOp
  · exact h.qLogic
  · exact h.qLogic
  · exact h.execQnot
  · exact h.execQsel
  · exact h.execQcol
  · exact h.exeOp
  · exact h.execQto
  · exact h.exeOp
  · exact h.vFloat
  · exact h.execQgand
  · exact h.execQlin
  · exact h.execQrsum
  · exact h.execQrprod
  · exact h.execMldb
  · exact h.mtxWord
  · exact h.execMgo
  · exact h.mtxDrain
  · exact h.mtxDrain
  · exact h.execMinit
  · exact h.mtxWord
  · exact h.mtxWord
  · exact h.mtxWord
  · exact h.mtxWord
  · exact h.mtxWord
  · exact h.execMlda
  · exact h.mtxWord
  · exact h.cpyCopy
  · exact h.cpyCopy
  · exact h.execCfill
  · exact h.cpyRemote
  · exact h.cpyRemote
  · exact h.cpyRemote
  · exact h.execCxch
  · exact h.execCcb
  · exact h.execTcow
  · exact h.cpyMig
  · exact h.cpyMig
  · exact h.execTshare
  · exact h.execTfree
  · exact h.execCpref
  · exact h.execCsync
  · exact h.netTransfer
  · exact h.netTransfer
  · exact h.netTransfer
  · exact h.netTransfer
  · exact h.execNcset
  · exact h.execNcrd
  · exact h.engWord (fun _ => trivial) (fun _ _ _ _ _ hu => hu.waitOp)
  · exact h.execNctlCancel
  · exact h.execLaunch
  · exact h.execWaitv
  · exact h.entrySigv
  · exact h.entrySigv
  · exact h.entrySigv
  · exact h.entryWord (fun _ => h.entryTest (fun _ _ _ hu => hu.goEntry))
  · exact h.execJump
  · exact h.execListCall
  · exact h.execListRet
  · exact h.entryCut (fun _ _ hu => hu.requestStop)
  · exact h.entryCut (fun _ _ hu => hu.cancelStop)
  · exact h.entryCut (fun _ _ hu => hu.resume)
  · exact h.execFence
  · exact h.entryWord (fun _ => h.event.goEntry)
  · exact h.execListEnd
  · exact h.execFxctlClrcnt
  · exact h.execFxctlPdis
  · exact h.execFxctlWena
  · exact h.commitExe
  · exact h.commitMtx
  · exact h.execCcbFillComplete
  · exact h.execMigrationFlip
  · exact h.execNetCompletion
  · exact h.execAtomicResult
  · exact h.execHomeAtomicPerform
  · exact h.execMeshCombine
  · exact h.execReplySplit
  · exact h.execCowCopyDone
  · exact h.execShadowFillDone
  · exact h.execHorizonPublish
  · exact h.execStopAccept
  · exact h.execStopComplete
  · exact h.execWatchFire
  · exact h.execHang
  · exact h.execFbufConsWrite
  · exact h.execRcfComplete
  · exact h.execPhaserRelease
  · exact h.execTeamPlace
  · exact h.execTeamMigrate
  · exact h.execTaskStart
  · exact h.execCoreReturn
  · exact h.execLaunchComplete
  · exact h.execChildQueueMove
  · exact h.execPendingSpawnAppend
  · exact h.execDeficitWindow
  · exact h.execClassAging
  · exact h.execSliceEnd
  · exact h.execWaitvReread
  · exact h.execWaitvTimeout
  · exact h.execSubmit
  · exact h.hostWrite
  · exact h.hostWrite
  · exact h.execRmaRead
  · exact h.execAttestationRequest
  · exact h.execUePacketReceive
  · exact h.execUeRetransmitTimeout
  · exact h.execUeNack
  · exact h.execRotorSlotStart
  · exact h.execTsync
  · exact h.execSlotEndDiscard
  · exact h.execLinkReplay
  · exact h.execWavelengthWithdraw
  · exact h.execWavelengthRejoin
  · exact h.execRelayForward
  · exact h.execLdreq
  · exact h.execStreq
  · exact h.execAtreq
  · exact h.execAtreqCombine
  · exact h.execPush
  · exact h.requestArrives (fun _ hu => hu.pulled) (fun _ hu => hu.pulled)
  · exact h.execData
  · exact h.execAck
  · exact h.execAtresp
  · exact h.execFabricRetransmit
  · exact h.execFabricAbandon
  · exact h.execHotSpareTakeover
  · exact h.lose.boot
  · exact h.execStrapWake
  · exact h.execFreeze
  · exact h.execThaw
  · exact h.execTapAccess
  · exact h.execThermalStepDown
  · exact h.execThermalStepUp
  · exact h.execThermalHold
  · exact h.execThermalHoldEnd
  · exact h.wake
  · exact h.execPerformedAtHome
  · exact h.execDataLanded
  · exact h.execTeamMigrationArrival
  · exact h.upd
  · exact h.execDebugInterfaceRequest
  · exact h.execPowerLoss

/-! ### Machine/Fetch -/

theorem Keeps.passGts {a1} (h : Keeps s0 s) : Keeps s0 (State.passGts s a1) := by
  unfold State.passGts
  exact h.upd
theorem Keeps.tick {a1 a2} (h : Keeps s0 s) : Keeps s0 (State.tick s a1 a2) := by
  unfold State.tick
  extract_lets t t1 t2
  have ht : Keeps s0 t := h.upd
  have ht1 : Keeps s0 t1 := by
    unfold t1
    split
    · exact ht.rereads.flushUe
    · exact ht
  have ht2 : Keeps s0 t2 := ht1.charge.passGts
  split
  · exact ht2.upd
  · exact ht1
theorem Keeps.fetchAt {a1 a2} (h : Keeps s0 s) : SumAll (fun x => Keeps s0 x.2) (fun _ => True) (State.fetchAt s a1 a2) := by
  unfold State.fetchAt
  split
  · exact trivial
  · split
    · exact trivial
    · extract_lets
      split
      · exact h
      · split
        · exact trivial
        · dsimp only [SumAll]
          exact h.modCore
theorem Keeps.prefetch {a1} (h : Keeps s0 s) : Keeps s0 (State.prefetch s a1) := by
  unfold State.prefetch
  extract_lets
  split
  · exact h
  · split
    · rename_i u e
      exact (h.fetchAt.of_eq e : Keeps s0 u).modCore
    · exact h
theorem Keeps.fetchPc {a1} (h : Keeps s0 s) : SumAll (fun x => Keeps s0 x.2) (fun _ => True) (State.fetchPc s a1) := by
  unfold State.fetchPc
  extract_lets
  split
  · split
    · exact h
    · split
      · rename_i u e
        dsimp only [SumAll]
        exact Keeps.modCore (h.modCore.fetchAt.of_eq e)
      · exact trivial
  · split
    · rename_i u e
      dsimp only [SumAll]
      exact Keeps.modCore (h.fetchAt.of_eq e)
    · exact trivial
theorem Keeps.runWord {a1 a2 a3 a4} (h : Keeps s0 s) : SumAll (fun x => Keeps s0 x.2) (Keeps s0) (State.runWord s a1 a2 a3 a4) := by
  unfold State.runWord
  split
  · exact h
  · exact h.raise
theorem Keeps.ccNext {a1} (h : Keeps s0 s) : SumAll (fun x => Keeps s0 x.2) (Keeps s0) (State.ccNext s a1) := by
  unfold State.ccNext
  split
  · exact h.raise
  · rename_i u e
    exact (h.fetchPc.of_eq e : Keeps s0 u).runWord
theorem Keeps.ringWordNext {a1 a2} (h : Keeps s0 s) : SumAll (fun x => Keeps s0 x.2) (Keeps s0) (State.ringWordNext s a1 a2) := by
  unfold State.ringWordNext
  exact SumAll.ite h h.runWord
theorem Keeps.mtxNext {a1} (h : Keeps s0 s) : SumAll (fun x => Keeps s0 x.2) (Keeps s0) (State.mtxNext s a1) := by
  unfold State.mtxNext
  extract_lets
  split
  · exact h.runWord
  · split
    · exact h.runWord
    · exact h
theorem Keeps.takeTurn {a1 a2} (h : Keeps s0 s) : Keeps s0 (State.takeTurn s a1 a2) := h.modCore
theorem Keeps.coreNext {a1 a2} (h : Keeps s0 s) : SumAll (fun x => Keeps s0 x.2) (Keeps s0) (State.coreNext s a1 a2) := by
  unfold State.coreNext
  extract_lets t t1 t2
  have ht : Keeps s0 t := h.upd
  have ht1 : Keeps s0 t1 := by
    unfold t1
    split
    · exact ht.selfClear
    · exact ht
  have ht2 : Keeps s0 t2 := ht1.takeTurn
  split
  · exact ht1
  · split
    · rename_i u e
      exact (ht1.waitRetire.of_eq e : Keeps s0 u)
    · split
      · exact ht1
      · split
        · exact ht2.ccNext
        · exact ht2.mtxNext
        · exact ht2.ringWordNext
        · exact ht2.ringWordNext
        · exact ht2.ringWordNext
        · exact ht2.ringWordNext
theorem Keeps.entryAt {a1} (h : Keeps s0 s) : SumAll (fun _ => True) (Keeps s0) (State.entryAt s a1) := by
  unfold State.entryAt
  split
  · exact h.listFault
  · exact SumAll.ite h.hostPoison.listGone trivial
theorem Keeps.runEntry {a1 a2} (h : Keeps s0 s) : SumAll (fun x => Keeps s0 x.2) (Keeps s0) (State.runEntry s a1 a2) := by
  unfold State.runEntry
  split
  · exact h.setInterp
  · exact h.listFault
theorem Keeps.listNext {a1 a2} (h : Keeps s0 s) : SumAll (fun x => Keeps s0 x.2) (Keeps s0) (State.listNext s a1 a2) := by
  unfold State.listNext
  extract_lets t
  have ht : Keeps s0 t := h.upd
  split
  · exact ht
  · split
    · split
      · exact ht.setQueue.qspace
      · split
        · exact ht.runEntry
        · split
          · exact ht.runEntry
          · rename_i u e1
            exact (ht.entryAt.of_eq e1 : Keeps s0 u)
    · split
      · exact ht
      · rename_i l _ _
        exact SumAll.ite ht.setQueue.qspace ht.setQueue
theorem Keeps.next {a1} (h : Keeps s0 s) : SumAll (fun x => Keeps s0 x.2) (Keeps s0) (State.next s a1) := by
  unfold State.next
  split
  · exact h.coreNext
  · split
    · exact h.prefetch
    · exact h
  · exact h.listNext
  · exact SumAll.ite h h
  · exact h

/-! ### Machine/Step -/

theorem Keeps.step (h : Keeps s0 s) : KeepsR s0 (step s) := by
  unfold Machine.step
  split
  · exact h.tick
  · split
    · rename_i u e1
      exact (h.upd.tick.next.of_eq e1 : Keeps s0 u).exec
    · rename_i u e1
      exact (h.upd.tick.next.of_eq e1 : Keeps s0 u)

/-- Settles O59: by the inversion of every operation above, an instruction and a step answer `.next`. -/
theorem everyStepGoesOn : Obligations.EveryStepGoesOn := by
  have goes : ∀ {s : State} {r : Result}, KeepsR s r → ∃ t, r = .next t := by
    intro s r hr
    cases r with
    | next t => exact ⟨t, rfl⟩
    | _ => exact hr.elim
  exact ⟨fun _ s => goes (Keeps.refl s).exec, fun s => goes (Keeps.refl s).step⟩

/-- Settles O60: a step keeps both invariants, as every operation of the model does. -/
theorem memoryStaysCanonical : Obligations.MemoryStaysCanonical := by
  have kept : ∀ {s t : State}, step s = .next t → Keeps s t := fun {s t} e => (Keeps.refl s).step.of_eq e
  exact ⟨fun _ _ hs e => (kept e).mem hs, fun _ _ hs e => (kept e).cores hs⟩

end Sys2Proof.Machine
end


section
/-! PROOFS of the Branches statement (O6) and the CoordinateWords statement (O7): branches and coordinate words change
the PC, the link register and CRD alone. -/

set_option Elab.async false

namespace Sys2Proof.Machine

/-! ### Effects of control-core words that change their own core -/

section
variable {s s1 u : State} {e : Word} {ts : List (Nat × Nat)} {srcs : List (BitVec 6 × Bool)} {k : Nat}

/-- What `f` makes of a core in a word's frame: `base` in that frame, with tokens and peel log as they stood. -/
structure FrameMap (c base : Core) (f : Core → Core) : Prop where
  frame : ∀ x, CcFrame c x → CcFrame base (f x)
  tok : ∀ x, (f x).tok = x.tok
  log : ∀ x, (f x).peel = x.peel

/-- A word that has issued, does `u` and then changes its own core by `f`. -/
theorem CcIssued.modEff {base : Core} {p : Word} {f : Core → Core} (i : CcIssued s s1 e ts srcs) (x : CcStep s1 u s.cur k)
    (m : FrameMap s.me base f) (hp : (f (u.core s.cur)).pc = p) : CcEff s s1 (u.modCore s.cur f) s.cur k base [] p := by
  refine ⟨(i.only.trans x.only).trans (.modCore ..), ?_, ?_, fun j _ => ?_, ?_⟩
  · rw [State.core_modCore_self]; exact m.frame _ (i.frame.trans x.frame)
  · rw [State.core_modCore_self]; exact hp
  · rw [State.core_modCore_self, m.tok, x.tok]
  · rw [State.core_modCore_self, m.log]; exact x.log

/-- The map of a jump keeps the frame. -/
theorem FrameMap.jump (c : Core) (t : Word) : FrameMap c c fun c => { c with pc := t, fetched := [] } :=
  ⟨fun x h => by unfold CcFrame at *; rw [h], fun _ => rfl, fun _ => rfl⟩
/-- A jump after an operation of an issued word. -/
theorem CcIssued.jumpEff (i : CcIssued s s1 e ts srcs) (x : CcStep s1 u s.cur k) (t : Word) :
    CcEff s s1 (u.jump t) s.cur k s.me [] t := by
  rw [State.jump, x.only.cur, i.only.cur]
  exact i.modEff x (.jump ..) rfl
theorem State.jump_s (u : State) (t : Word) : ((u.jump t).core u.cur).s = (u.core u.cur).s := by
  rw [State.jump, State.core_modCore_self]

end

/-- A word whose effect does `u`, and then changes its own core by `f` but no s register. -/
theorem ccMod_ran {s : State} {h : Hdr} {srcs : List (BitVec 6 × Bool)} {toks : List (Nat × Nat)} {extra : Word} (m : CcMay s h srcs toks extra)
    (w : Word) (body : Word → State → Body) {base : Core} {p : Word} (f : Core → Core) (hh : base.hold = s.me.hold) (fm : FrameMap s.me base f)
    (hs : ∀ x, (f x).s = x.s) (hb : ∀ s1, CcIssued s s1 (s.ccCrd h toks extra) (waitPresent (s.me.waitVal h) ++ toks) srcs →
      ∃ u, body (s.ccCrd h toks extra) s1 = .done (u.modCore s.cur f) ∧ CcStep s1 u s.cur 8 ∧ (u.core s.cur).s = s.me.s ∧ (f (u.core s.cur)).pc = p) :
    ∃ t, ccWordAt extra h w srcs toks body s = .next t ∧ CcRan s t h toks base [] p s ∧ (t.core s.cur).s = s.me.s :=
  ccDo_ran m w body (k := 8) (by omega) (by have := m.room; rw [hh]; omega) (.inr (by simp)) rfl fun s1 i => by
    obtain ⟨u, hd, x, hu, hp⟩ := hb s1 i
    exact ⟨_, hd, i.modEff x fm hp, by rw [State.core_modCore_self, hs, hu]⟩

section
variable {s : State} {h : Hdr} {srcs : List (BitVec 6 × Bool)} {toks : List (Nat × Nat)} {i : Instr} {w : Word} {body : Word → State → Body}
  {r : Result}

/-- An instruction whose body answers a fault raises it. -/
theorem Raises.of_body (m : CcMay s h srcs [] 0) (hr : r = ccWord h w srcs [] body s) {code : BitVec 8} {val : Word}
    (hb : ∀ s1, CcIssued s s1 (s.ccCrd h [] 0) (waitPresent (s.me.waitVal h) ++ []) srcs → body (s.ccCrd h [] 0) s1 = .fault code val)
    (hi : exec i s = r := by rfl) : Raises i h code val s := (hi.trans hr).trans (ccFault_ran m w body code val hb)
/-- An instruction whose body writes one register computes it. -/
theorem Computes.of_body (m : CcMay s h srcs [] 0) (hr : r = ccWord h w srcs [] body s) {d : BitVec 6} {v : Word}
    (hb : ∀ e s1, CcIssued s s1 e (waitPresent (s.me.waitVal h) ++ []) srcs → body e s1 = .done (s1.wrS d e v))
    (hi : exec i s = r := by rfl) : Computes i h d v s := by
  obtain ⟨t, hn, x⟩ := ccWrite_ran m w d v body hb
  exact ⟨t, (hi.trans hr).trans hn, x⟩
/-- An instruction whose body does `u` and then changes its core by `f` leaves that core. -/
theorem CcDoes.of_mod (m : CcMay s h srcs toks 0) (hr : r = ccWord h w srcs toks body s) {base : Core} {p : Word} (f : Core → Core)
    (hh : base.hold = s.me.hold) (fm : FrameMap s.me base f) (hs : ∀ x, (f x).s = x.s)
    (hb : ∀ s1, CcIssued s s1 (s.ccCrd h toks 0) (waitPresent (s.me.waitVal h) ++ toks) srcs →
      ∃ u, body (s.ccCrd h toks 0) s1 = .done (u.modCore s.cur f) ∧ CcStep s1 u s.cur 8 ∧ (u.core s.cur).s = s.me.s ∧ (f (u.core s.cur)).pc = p)
    (hi : exec i s = r := by rfl) : CcDoes i h toks base [] p s s := by
  obtain ⟨t, hn, x⟩ := ccMod_ran m w body f hh fm hs hb
  exact ⟨t, (hi.trans hr).trans hn, x⟩
end

/-! ### Branches (R332) -/

/-- A branch goes to its target where its condition holds, and on to the next word otherwise. -/
theorem ccBranch_ran {n : Nat} {s : State} {h : Hdr} {srcs : List (BitVec 6 × Bool)} (m : CcMay s h srcs [] 0) (w : Word) (off : BitVec n) (c : Bool) :
    ∃ t, ccBranch h w srcs off c s = .next t ∧
      CcRan s t h [] s.me [] (if c then s.me.pc + 8 * off.signExtend 64 else s.me.pc + 8) s ∧ (t.core s.cur).s = s.me.s := by
  unfold ccBranch ccWord
  refine ccDo_ran m w _ (k := 0) (by omega) (by have := m.room; omega) (.inr (by simp)) rfl fun s1 i => ?_
  · refine ⟨_, rfl, ?_⟩
    cases c with
    | false => exact ⟨i.eff (.refl ..), i.regs⟩
    | true => exact ⟨i.jumpEff (.refl ..) _, by rw [if_pos rfl, ← i.only.cur, State.jump_s, i.only.cur, i.regs]⟩

/-- The two cases of a branch, by its condition as a proposition. -/
theorem ccBranch_goes {n : Nat} {s : State} {h : Hdr} {srcs : List (BitVec 6 × Bool)} (m : CcMay s h srcs [] 0) (w : Word) (off : BitVec n) (c : Bool)
    (i : Instr) (hi : exec i s = ccBranch h w srcs off c s) (taken : Prop) (hc : c = true ↔ taken) :
    (taken → CcDoes i h [] s.me [] (s.me.pc + 8 * off.signExtend 64) s s) ∧ (¬taken → CcDoes i h [] s.me [] (s.me.pc + 8) s s) := by
  have r := ccBranch_ran m w off c
  rw [← hi] at r
  refine ⟨fun t => ?_, fun t => ?_⟩
  · rw [if_pos (hc.2 t)] at r; exact r
  · rw [if_neg (fun h => t (hc.1 h))] at r; exact r

theorem ltOf_iff (fx : BitVec 1) (a b : Word) :
    ltOf (fx == 1) a b = true ↔ if fx = 1 then a.toNat < b.toNat else a.toInt < b.toInt := by
  unfold ltOf
  by_cases h : fx = 1
  · rw [if_pos h, if_pos (by simpa using h)]; simp [BitVec.ult]
  · rw [if_neg h, if_neg (by simpa using h)]; simp [BitVec.slt]

/-- A word that writes one s register and then jumps, or goes on. -/
theorem ccWriteJump_ran {s : State} {h : Hdr} {srcs : List (BitVec 6 × Bool)} (m : CcMay s h srcs [] 0) (w : Word) (body : Word → State → Body)
    (d : BitVec 6) (v : Word) (jumps : Bool) (target : Word)
    (hb : ∀ e s1, body e s1 = .done (if jumps then (s1.wrS d e v).jump target else s1.wrS d e v)) :
    ∃ t, ccWord h w srcs [] body s = .next t ∧ Wrote s.me (t.core s.cur) d v ∧
      CcRan s t h [] s.me [] (if jumps then target else s.me.pc + 8) s := by
  obtain ⟨s1, s2, t, i, hd, _, r, hn, ran⟩ := ccDone_ran m w body (k := 1) (base := s.me) (tx := [])
    (p := if jumps then target else s.me.pc + 8) (s0 := s) (by omega) (by have := m.room; omega) (.inr (by simp)) rfl fun s1 i => by
      refine ⟨_, hb _ s1, ?_⟩
      have x := (s1.wrSOf_step s.cur d (s.ccCrd h [] 0) v).1
      rw [State.wrS, i.only.cur]
      cases jumps with
      | false => exact i.eff x
      | true => exact i.jumpEff x target
  refine ⟨t, hn, .through i ?_ r, ran⟩
  rw [hb] at hd
  injection hd with hd
  have x := s1.wrSOf_step s.cur d (s.ccCrd h [] 0) v
  have hc : (s1.wrSOf s.cur d (s.ccCrd h [] 0) v).cur = s.cur := x.1.only.cur.trans i.only.cur
  rw [← hd, State.wrS, i.only.cur]
  cases jumps with
  | false => exact x.2
  | true =>
    have hs : (((s1.wrSOf s.cur d (s.ccCrd h [] 0) v).jump target).core s.cur).s = ((s1.wrSOf s.cur d (s.ccCrd h [] 0) v).core s.cur).s := by
      rw [State.jump, hc, State.core_modCore_self]
    obtain ⟨x1, x2, x3⟩ := x.2
    exact ⟨fun r hr => by rw [if_pos rfl, hs]; exact x1 r hr, fun h => by rw [if_pos rfl, hs]; exact x2 h, fun h => by rw [if_pos rfl, hs]; exact x3 h⟩

/-- A jump to a register that is a multiple of 8. -/
theorem ccJumpReg_ran {s : State} {h : Hdr} {srcs : List (BitVec 6 × Bool)} (m : CcMay s h srcs [] 0) (w target : Word) (ha : target.toNat % 8 = 0) :
    ∃ t, ccJumpReg h w srcs target false s = .next t ∧ CcRan s t h [] s.me [] target s ∧ (t.core s.cur).s = s.me.s := by
  unfold ccJumpReg ccWord
  refine ccDo_ran m w _ (k := 0) (by omega) (by have := m.room; omega) (.inr (by simp)) rfl fun s1 i => ?_
  · refine ⟨s1.jump target, ?_, i.jumpEff (.refl ..) _, by rw [← i.only.cur, State.jump_s, i.only.cur, i.regs]⟩
    simp only [ha, bne_self_eq_false, Bool.false_eq_true, if_false]
theorem ccCallReg_ran {s : State} {h : Hdr} {srcs : List (BitVec 6 × Bool)} (m : CcMay s h srcs [] 0) (w target : Word) (ha : target.toNat % 8 = 0) :
    ∃ t, ccJumpReg h w srcs target true s = .next t ∧ Wrote s.me (t.core s.cur) 63 (s.me.pc + 8) ∧ CcRan s t h [] s.me [] target s :=
  ccWriteJump_ran m w _ 63 (s.me.pc + 8) true target fun e s1 => by
    simp only [ha, bne_self_eq_false, Bool.false_eq_true, if_false, if_true]
theorem ccJumpReg_refused {s : State} {h : Hdr} {srcs : List (BitVec 6 × Bool)} (m : CcMay s h srcs [] 0) (w target : Word) (link : Bool)
    (ha : target.toNat % 8 ≠ 0) : ccJumpReg h w srcs target link s = .next (s.raise s.cur .cc 0x01 w (s.ccCrd h [] 0) true 0) := by
  unfold ccJumpReg ccWord
  exact ccFault_ran m w _ _ _ fun s1 _ => if_pos (by simpa using ha)

/-- Settles O6: a branch moves the PC by its condition, CALL and CALLR write the link register, DBNZ writes its counter. -/
theorem branches : Obligations.Branches := by
  unfold Obligations.Branches
  refine ⟨fun h fx o s m => ?_, fun h o s m => ?_, fun h o s m => ⟨(ccBranch_goes m _ o.off true (.jmp h o) rfl True (by simp)).1 trivial, ?_⟩,
    fun h o s m => ⟨fun ha => ⟨ccJumpReg_ran m _ _ ha, ccCallReg_ran m _ _ ha⟩, fun ha => ⟨ccJumpReg_refused m _ _ _ ha, ccJumpReg_refused m _ _ _ ha⟩⟩,
    fun h o s m => ⟨fun ha => ccJumpReg_ran m _ _ ha, fun ha => ccJumpReg_refused m _ _ _ ha⟩⟩
  · intro a b less goes
    refine ⟨ccBranch_goes m _ o.off (s.rdS o.a == s.rdS o.b) (.beq h o) rfl _ beq_iff_eq,
      ccBranch_goes m _ o.off (s.rdS o.a != s.rdS o.b) (.bne h o) rfl _ bne_iff_ne,
      ccBranch_goes m _ o.off (ltOf (fx == 1) (s.rdS o.a) (s.rdS o.b)) (.blt h fx o) rfl _ (ltOf_iff ..),
      ccBranch_goes m _ o.off (!ltOf (fx == 1) (s.rdS o.a) (s.rdS o.b)) (.bge h fx o) rfl _ ?_⟩
    rw [Bool.not_eq_true', ← Bool.not_eq_true, ltOf_iff]
  · intro a goes
    refine ⟨ccBranch_goes m _ o.off (s.rdS o.a == 0) (.bz h o) rfl _ beq_iff_eq, ccBranch_goes m _ o.off (s.rdS o.a != 0) (.bnz h o) rfl _ bne_iff_ne, ?_⟩
    obtain ⟨t, hn, hw, ran⟩ := ccWriteJump_ran m (packBR h 0x10 0 o) _ o.a (a - 1) (o.a != 0 && a - 1 != 0) (s.me.pc + 8 * sext o.off) fun _ _ => rfl
    refine ⟨t, hn, hw, ?_⟩
    have hc : ((o.a != 0 && a - 1 != 0) = true) ↔ ¬(o.a = 0 ∨ a = 1) := by
      have : a - 1 = 0 ↔ a = 1 := by constructor <;> intro h <;> bv_omega
      simp only [Bool.and_eq_true, bne_iff_ne, ne_eq, this, not_or]
    by_cases hz : o.a = 0 ∨ a = 1
    · rw [if_neg (fun h => hc.1 h hz)] at ran; rw [if_pos hz]; exact ran
    · rw [if_pos (hc.2 hz)] at ran; rw [if_neg hz]; exact ran
  · exact ccWriteJump_ran m (packJM h 0x0E 1 o) (fun e s' => .done ((s'.wrS 63 e (s.me.pc + 8)).jump (s.me.pc + 8 * sext o.off))) 63 (s.me.pc + 8) true _
      fun _ _ => rfl

/-! ### The coordinate (R248, R333) -/

/-- An instruction whose body sets CRD to `v` changes its core's CRD alone. -/
theorem CcDoes.of_crd {s : State} {h : Hdr} {srcs : List (BitVec 6 × Bool)} (m : CcMay s h srcs [] 0) {i : Instr} {w : Word} {body : Word → State → Body}
    (hr : r = ccWord h w srcs [] body s) {was : EngSt} {pc v : Word} (hb : ∀ e s1, body e s1 = .done (s1.setCcCrd was e pc v))
    (hi : exec i s = r := by rfl) :
    CcDoes i h [] { s.me with cc := { s.me.cc with crd := v } } [] (s.me.pc + 8) s s :=
  .of_mod m hr (fun c => { c with cc := { c.cc with crd := v } }) rfl
    ⟨fun x h => by unfold CcFrame at *; rw [h], fun _ => rfl, fun _ => rfl⟩ (fun _ => rfl) (hi := hi) fun s1 i => by
      have x := s1.log_step s.cur { kind := 9, crd := s.ccCrd h [] 0, old := (was.crd ++ was.elast).setWidth 256, pc := pc }
      refine ⟨_, ?_, x.trans (.refl _ _ 7), (s1.log_s ..).trans i.regs, x.pc.trans i.pc⟩
      rw [hb, State.setCcCrd, i.only.cur]

/-- SETCL and INCCL: refused, or the level is `v`. -/
theorem ccLevel_sets {s : State} {h : Hdr} {o : SY} (m : CcMay s h [(o.a, o.la)] [] 0) (i : Instr) (v : Nat)
    (hi : exec i s = ccLevel h i.word o v s) :
    if isSup s.cur = true ∨ lvlWidth s.me.cw (o.imm.extractLsb' 0 3).toNat = 0 ∨ 2 ^ lvlWidth s.me.cw (o.imm.extractLsb' 0 3).toNat ≤ v
    then RaisesIllegal i h s
    else CcDoes i h [] { s.me with cc := { s.me.cc with crd := lvlSet s.me.cw (o.imm.extractLsb' 0 3).toNat s.me.cc.crd v } } [] (s.me.pc + 8) s s := by
  have hc : (isSup s.cur || lvlWidth s.me.cw (syLvl o) == 0 || 2 ^ lvlWidth s.me.cw (syLvl o) ≤ v : Bool) = true ↔
      isSup s.cur = true ∨ lvlWidth s.me.cw (o.imm.extractLsb' 0 3).toNat = 0 ∨ 2 ^ lvlWidth s.me.cw (o.imm.extractLsb' 0 3).toNat ≤ v := by
    rw [Bool.or_eq_true, Bool.or_eq_true, beq_iff_eq, decide_eq_true_iff, or_assoc]; exact Iff.rfl
  unfold ccLevel at hi
  split
  case isTrue hb => exact .of_body m rfl (fun s1 _ => if_pos (hc.2 hb)) hi
  case isFalse hb => exact .of_crd m rfl (fun e s1 => if_neg (fun h => hb (hc.1 h))) hi

/-- A word that a supervisor core may not run writes one register elsewhere. -/
theorem ccRead_computes {s : State} {h : Hdr} (m : CcMay s h [] [] 0) (i : Instr) (d : BitVec 6) (v : Word)
    (hi : exec i s = ccWord h i.word [] [] (fun e s' => if isSup s.cur then .fault fIllegal i.word else .done (s'.wrS d e v)) s) :
    if isSup s.cur = true then RaisesIllegal i h s else Computes i h d v s := by
  split
  case isTrue hs => exact .of_body m rfl (fun s1 _ => if_pos hs) hi
  case isFalse hs => exact .of_body m rfl (fun e s1 _ => if_neg hs) hi

/-- Settles O7: the coordinate words set or read the control core's CRD by levels, or raise ILLEGAL. -/
theorem coordinateWords : Obligations.CoordinateWords := by
  unfold Obligations.CoordinateWords
  intro h o s cw a lvl amt crd base sets
  refine ⟨fun m => ⟨ccLevel_sets m (.setcl h o) _ rfl, ccLevel_sets m (.inccl h o) _ rfl, ?_⟩, fun m => ?_⟩
  · have hc : (isSup s.cur || belowLast s.me.cw (s.rdS o.a)) = true ↔ isSup s.cur = true ∨ a.toNat % 2 ^ lastLevelBit cw ≠ 0 := by
      simp only [Bool.or_eq_true, belowLast, bne_iff_ne, ne_eq]; exact Iff.rfl
    split
    case isTrue hb => exact Raises.of_body m (.refl (execSetcrd h o s)) fun s1 _ => if_pos (hc.2 hb)
    case isFalse hb => exact CcDoes.of_crd m (.refl (execSetcrd h o s)) fun e s1 => if_neg (fun h => hb (hc.1 h))
  · have h1 := ccRead_computes m (.getcrd h o) o.d crd rfl
    have h2 := ccRead_computes m (.getcl h o) o.d (BitVec.ofNat 64 (lvlGet cw lvl crd)) rfl
    split
    case isTrue hs => rw [if_pos hs] at h1 h2; exact ⟨h1, h2⟩
    case isFalse hs => rw [if_neg hs] at h1 h2; exact ⟨h1, h2⟩

end Sys2Proof.Machine
end


section
/-! PROOFS of the RawAccesses statement (O3), the Atomics statement (O4) and the RemoteLoadFences statement (O5): raw loads, held stores and atomics, remote loads
and fences of the control core. -/

set_option Elab.async false

namespace Sys2Proof.Machine

/-! ### Words that write a register beside another effect, and words that hold an effect -/

theorem CcEff.wrS {s0 s1 u : State} {n k : Nat} {base : Core} {tx : List Nat} {p : Word} (x : CcEff s0 s1 u n k base tx p) (hc : s0.cur = n) (d : BitVec 6)
    (e v : Word) : CcEff s0 s1 (u.wrS d e v) n (k + 1) base tx p := by
  have y := (u.wrSOf_step n d e v).1
  have hu : u.wrS d e v = u.wrSOf n d e v := by rw [State.wrS, x.only.cur, hc]
  rw [hu]
  exact ⟨x.only.trans y.only, x.frame.trans y.frame, y.pc.trans x.pc, fun j hj => by rw [y.tok]; exact x.tok j hj, by have := x.log; have := y.log; omega⟩

section
variable {s s0 : State} {h : Hdr} {srcs : List (BitVec 6 × Bool)} {toks : List (Nat × Nat)} {extra : Word} {body : Word → State → Body}
  {k : Nat} {base c0 : Core} {tx : List Nat} {p : Word}

/-- A word that does `u` and then writes one s register. -/
theorem ccWriteAt_ran (m : CcMay s h srcs toks extra) (w : Word) (d : BitVec 6) (v : Word) (hk : k ≤ 7) (hh : base.hold.length ≤ 128)
    (hx : h.sig = 0 ∨ h.sig.toNat ∉ tx) (hs0 : s0.cur = s.cur)
    (hb : ∀ s1, CcIssued s s1 (s.ccCrd h toks extra) (waitPresent (s.me.waitVal h) ++ toks) srcs →
      ∃ u, body (s.ccCrd h toks extra) s1 = .done (u.wrS d (s.ccCrd h toks extra) v) ∧ CcEff s0 s1 u s.cur k base tx p ∧ (u.core s.cur).s = c0.s) :
    ∃ t, ccWordAt extra h w srcs toks body s = .next t ∧ CcRan s t h toks base tx p s0 ∧ Wrote c0 (t.core s.cur) d v := by
  obtain ⟨s1, s2, t, i, hd, _, r, hn, ran⟩ := ccDone_ran m w body (k := k + 1) (base := base) (tx := tx) (p := p) (s0 := s0)
    (by omega) hh hx hs0 fun s1 i =>
      let ⟨u, hd, x, _⟩ := hb s1 i
      ⟨_, hd, x.wrS hs0 d _ v⟩
  obtain ⟨u, hu, x, hs⟩ := hb s1 i
  rw [hu] at hd
  injection hd with hd
  have w2 := (u.wrSOf_step s.cur d (s.ccCrd h toks extra) v).2
  rw [State.wrS, x.only.cur, hs0] at hd
  rw [hd] at w2
  have ht : (t.core s.cur).s = (s2.core s.cur).s := by rw [r.core]
  obtain ⟨w21, w22, w23⟩ := w2
  exact ⟨t, hn, ran, fun j hj => by rw [ht, w21 j hj, hs], fun hd => by rw [ht, w22 hd], fun hd => by rw [ht, w23 hd, hs]⟩

/-- An instruction whose body holds an effect, and retires with its signal. -/
theorem Holds.of_done {i : Instr} {w w2 : Word} {r : Result} (m : CcMay s h srcs [] 0) (hr : r = ccWord h w srcs [] body s)
    {a : Act} {rel acq : Option (BitVec 3)} {d : BitVec 6}
    (hb : ∀ s1, body (s.ccCrd h [] 0) s1 = .done ((s1.ccHold (s.ccCrd h [] 0) w2 0 a rel acq).await d s1.placedId)) (hi : exec i s = r := by rfl) :
    Holds i h h 0 a rel acq d s := by
  obtain ⟨t, x, hn, y⟩ := ccHold_ran m w w2 body 0 a rel acq d h.sig fun s1 _ => .inl ⟨hb s1, rfl⟩
  exact ⟨t, x, (hi.trans hr).trans hn, y⟩
/-- An instruction whose body holds an effect, and leaves its signal to it. -/
theorem Holds.of_quiet {i : Instr} {w w2 : Word} {r : Result} (m : CcMay s h srcs [] 0) (hr : r = ccWord h w srcs [] body s)
    {sig : BitVec 8} {a : Act} {rel acq : Option (BitVec 3)} {d : BitVec 6}
    (hb : ∀ s1, body (s.ccCrd h [] 0) s1 = .quiet ((s1.ccHold (s.ccCrd h [] 0) w2 sig a rel acq).await d s1.placedId)) (hi : exec i s = r := by rfl) :
    Holds i h { h with sig := 0 } sig a rel acq d s := by
  obtain ⟨t, x, hn, y⟩ := ccHold_ran m w w2 body sig a rel acq d 0 fun s1 _ => .inr ⟨hb s1, rfl⟩
  exact ⟨t, x, (hi.trans hr).trans hn, y⟩
end

/-! ### The L2 and the core that moves -/

theorem State.l2Put_cores (s : State) (c : SMap Core) (k : Nat) (pid : BitVec 7) (l : L2Line) :
    ({ s with cores := c, nextId := k } : State).l2Put pid l = { s.l2Put pid l with cores := c, nextId := k } := by
  have ho : ({ s with cores := c, nextId := k } : State).own pid = s.own pid := rfl
  unfold State.l2Put
  dsimp only
  rw [ho]
  split
  · rfl
  split
  · rfl
  split <;> rfl
/-- An access meets the L2 whatever the cores hold. -/
theorem State.l2See_cores (s : State) (c : SMap Core) (k : Nat) (pid : BitVec 7) (alloc : Bool) (xs : List (Nat × Nat)) :
    ({ s with cores := c, nextId := k } : State).l2See pid alloc xs = { s.l2See pid alloc xs with cores := c, nextId := k } := by
  induction xs generalizing s with
  | nil => rfl
  | cons x xs ih =>
    have hf : ({ s with cores := c, nextId := k } : State).l2Find none pid x.1 = s.l2Find none pid x.1 := rfl
    rw [State.l2See, State.l2See]
    split
    · exact ih s
    rw [hf]
    split
    · exact ih (s.l2Hit _)
    split
    · rw [State.l2Put_cores]; exact ih _
    · exact ih s
theorem State.l2Raw_only {s s1 : State} {n : Nat} (h : CoreOnly s s1 n) (hc : (s1.core n).cid = (s.core n).cid) (addr : Word) (ks : List Nat) :
    s1.l2Raw n addr ks = { s1 with l2 := (s.l2Raw n addr ks).l2 } := by
  have hg : s1.rawGpa n addr = s.rawGpa n addr := by unfold State.rawGpa; rw [hc, h.ctx]
  obtain ⟨l, hl⟩ := s.l2See_l2_only (s.rawGpa n addr).1 (!isSup n) ((ks.take 1).map fun k => ((s.rawGpa n addr).2, k))
  have hs : s.l2Raw n addr ks = { s with l2 := l } := hl
  have h1 : s1.l2Raw n addr ks = s1.l2See (s.rawGpa n addr).1 (!isSup n) ((ks.take 1).map fun k => ((s.rawGpa n addr).2, k)) := by
    unfold State.l2Raw; rw [hg]
  rw [h1, hs]
  conv_lhs => rw [h.1, State.l2See_cores, hl]
  conv_rhs => rw [h.1]
theorem State.l2Raw_l2_only (s : State) (n : Nat) (addr : Word) (ks : List Nat) : ∃ l, s.l2Raw n addr ks = { s with l2 := l } :=
  s.l2See_l2_only ..
/-- An acquire at SYS leaves no line of another device under its tag. -/
theorem State.dropRemote_tag (s : State) (cid : BitVec 12) (l : L2Line) (hl : l ∈ (s.dropRemote cid).l2) (hd : l.dev.isSome = true) :
    l.pid ≠ pidTag (s.ctx cid).pid := by
  have := (List.mem_filter.mp hl).2
  simpa [hd] using this
theorem CoreOnly.dropRemote {s t : State} {n : Nat} (h : CoreOnly s t n) (cid : BitVec 12) : CoreOnly (s.dropRemote cid) (t.dropRemote cid) n := by
  refine ⟨?_, h.2⟩
  conv_lhs => rw [h.1]
  rfl

/-! ### Raw loads and stores (R327) -/

/-- The state beside the core after a raw load: the L2 has met its line, and an acquire at SYS drops those of other devices. -/
def State.loadSees (s : State) (drops : Bool) (addr : Word) (ks : List Nat) : State :=
  if drops then (s.l2Raw s.cur addr ks).dropRemote s.me.cid else s.l2Raw s.cur addr ks

/-- A raw load that no test refuses. -/
theorem ccLoad_ran {s : State} {h : Hdr} {o : RI} (m : CcMay s h [(o.a, o.la)] [] 0) (hf : s.farClear = true) (n : Nat) (w : Word) (fx : BitVec 1)
    (ks : List Nat) (ha : (rawAddr s o).toNat % n = 0) (hk : s.coreKeys s.cur (rawAddr s o) n .r = .inl ks) (hp : s.anyPoison ks = false) :
    ∃ t, ccLoad n h w fx o s = .next t ∧
      CcRan s t h [] s.me [] (s.me.pc + 8) (s.loadSees (fx == 1 && scopeField o == 4) (rawAddr s o) ks) ∧
      Wrote s.me (t.core s.cur) o.d (bitsOf 64 (s.loadBytes s.cur (rawAddr s o) ks 0)) := by
  unfold ccLoad ccWord
  refine ccWriteAt_ran m w o.d _ (k := 0) (by omega) (by have := m.room; omega) (.inr (by simp)) ?_ fun s1 i =>
    ⟨(if fx == 1 then (s1.l2Raw s.cur (rawAddr s o) ks).acquire (scopeField o) else s1.l2Raw s.cur (rawAddr s o) ks), ?_, ?_, ?_⟩
  · obtain ⟨l, hl⟩ := s.l2Raw_l2_only s.cur (rawAddr s o) ks
    unfold State.loadSees
    rw [hl]
    split <;> rfl
  · simp only [ha, hk, hf, hp, bne_self_eq_false, Bool.not_true, Bool.false_eq_true, if_false]
  · have hcid : (s1.core s.cur).cid = (s.core s.cur).cid := by rw [i.here, i.core]; rfl
    have hl1 := State.l2Raw_only i.only hcid (rawAddr s o) ks
    obtain ⟨l, hl⟩ := s.l2Raw_l2_only s.cur (rawAddr s o) ks
    have hme : ({ s1 with l2 := l } : State).me.cid = s.me.cid := by show (s1.core s1.cur).cid = _; rw [i.only.cur]; exact hcid
    rw [hl1, hl]
    unfold State.loadSees State.acquire
    rw [hme]
    have hlines : CoreOnly ({ s with l2 := l } : State) ({ s1 with l2 := l } : State) s.cur := ⟨by rw [i.only.1], i.only.2⟩
    have hmk : ∀ u0 u : State, CoreOnly u0 u s.cur → u.core s.cur = s1.core s.cur → CcEff u0 s1 u s.cur 0 s.me [] (s.me.pc + 8) := fun u0 u hu hc =>
      ⟨hu, by rw [hc]; exact i.frame, by rw [hc]; exact i.pc, fun _ _ => by rw [hc], by rw [hc]; exact Nat.le_refl _⟩
    rw [hl]
    cases hx : fx == 1 <;> cases hsc : scopeField o == 4 <;>
      simp only [Bool.and_true, Bool.and_false, Bool.false_eq_true, if_true, if_false]
    case true.true => exact hmk _ _ (hlines.dropRemote _) rfl
    all_goals exact hmk _ _ hlines rfl
  · obtain ⟨l, hl⟩ := s1.l2Raw_l2_only s.cur (rawAddr s o) ks
    have hc : (if fx == 1 then (s1.l2Raw s.cur (rawAddr s o) ks).acquire (scopeField o) else s1.l2Raw s.cur (rawAddr s o) ks).core s.cur = s1.core s.cur := by
      rw [hl]; unfold State.acquire; split <;> (try split) <;> rfl
    rw [hc]
    exact i.regs

/-- What a raw load answers, in the bytes of its value. -/
theorem loadValue_byte {s : State} {addr : Word} {n : Nat} {ks : List Nat} (hk : s.coreKeys s.cur addr n .r = .inl ks) (j : Nat) (hj : j < 8) :
    (bitsOf 64 (s.loadBytes s.cur addr ks 0)).extractLsb' (8 * j) 8 =
      if j < n then forwardByte (s.pendingOf s.cur) (addr + BitVec.ofNat 64 j) (s.byte (ks.getD j 0)) else 0 := by
  have hlen := s.coreKeys_length s.cur addr n .r ks hk
  rw [bitsOf_byte _ _ hj]
  split
  case isTrue hjn => rw [s.loadBytes_get _ _ _ _ _ (by omega), Nat.zero_add]
  case isFalse hjn => rw [List.getD_eq_default]; rw [s.loadBytes_length]; omega

/-- Each raw load: its value, the state beside the core, and the lines that an acquire leaves. -/
theorem load_loads {s : State} {h : Hdr} {fx : BitVec 1} {o : RI} (m : CcMay s h [(o.a, o.la)] [] 0) (hf : s.farClear = true) {i : Instr} {n : Nat} {w : Word}
    (hi : exec i s = ccLoad n h w fx o s) (ks : List Nat) (ha : (rawAddr s o).toNat % n = 0) (hk : s.coreKeys s.cur (rawAddr s o) n .r = .inl ks)
    (hp : s.anyPoison ks = false) :
    let drops := fx = 1 ∧ o.imm.extractLsb' 21 3 = 4
    let s0 := if drops then (s.l2Raw s.cur (rawAddr s o) ks).dropRemote s.me.cid else s.l2Raw s.cur (rawAddr s o) ks
    s0 = { s with l2 := s0.l2, oreqs := s0.oreqs } ∧ (drops → ∀ l ∈ s0.l2, l.dev.isSome = true → l.pid ≠ pidTag (s.ctx s.me.cid).pid) ∧
    ∃ (t : State) (v : Word), exec i s = .next t ∧ CcRan s t h [] s.me [] (s.me.pc + 8) s0 ∧ Wrote s.me (t.core s.cur) o.d v ∧
      ∀ j, j < 8 → v.extractLsb' (8 * j) 8 =
        if j < n then forwardByte (s.pendingOf s.cur) (rawAddr s o + BitVec.ofNat 64 j) (s.byte (ks.getD j 0)) else 0 := by
  intro drops s0
  have hd : (fx == 1 && scopeField o == 4) = true ↔ drops := by simp only [Bool.and_eq_true, beq_iff_eq]; exact Iff.rfl
  obtain ⟨l, hl⟩ := s.l2Raw_l2_only s.cur (rawAddr s o) ks
  refine ⟨?_, fun hdr l' hl' hs => ?_, ?_⟩
  · by_cases hdr : drops
    · simp only [s0, if_pos hdr, hl]; rfl
    · simp only [s0, if_neg hdr, hl]
  · simp only [s0, if_pos hdr, hl] at hl'
    exact State.dropRemote_tag { s with l2 := l } _ l' hl' hs
  · obtain ⟨t, hn, ran, hw⟩ := ccLoad_ran m hf n w fx ks ha hk hp
    have hs0 : s.loadSees (fx == 1 && scopeField o == 4) (rawAddr s o) ks = s0 := by
      unfold State.loadSees
      by_cases hdr : drops
      · simp only [s0]; rw [if_pos hdr, if_pos (hd.2 hdr)]
      · simp only [s0]; rw [if_neg hdr, if_neg (fun h => hdr (hd.1 h))]
    exact ⟨t, _, hi.trans hn, hs0 ▸ ran, hw, loadValue_byte hk⟩

/-- Each raw store is held. -/
theorem store_holds {s : State} {h : Hdr} {fx : BitVec 1} {o : RI} (m : CcMay s h [(o.a, o.la), (o.d, false)] [] 0) {i : Instr} {n : Nat} {w : Word}
    (hi : exec i s = ccStore n h w fx o s) (ks : List Nat) (ha : (rawAddr s o).toNat % n = 0) (hk : s.coreKeys s.cur (rawAddr s o) n .w = .inl ks) :
    Holds i h h 0 (.store (rawAddr s o) n (s.rdS o.d) ks) (if fx = 1 then some (o.imm.extractLsb' 21 3) else none) none 0 s := by
  refine .of_done (w2 := w) m rfl (fun s1 => ?_) hi
  have hfx : (if fx == 1 then some (scopeField o) else none) = (if fx = 1 then some (o.imm.extractLsb' 21 3) else none) := by
    simp only [beq_iff_eq]; rfl
  simp only [ha, hk, hfx, bne_self_eq_false, Bool.false_eq_true, if_false]
  rfl

/-- A raw access that is not aligned, or that R194 refuses, raises its fault. -/
theorem load_refused {s : State} {h : Hdr} {fx : BitVec 1} {o : RI} (m : CcMay s h [(o.a, o.la)] [] 0) {i : Instr} {n : Nat} {w : Word}
    (hi : exec i s = ccLoad n h w fx o s) :
    ((rawAddr s o).toNat % n ≠ 0 → Raises i h 0x07 (rawAddr s o) s) ∧
    ∀ f, (rawAddr s o).toNat % n = 0 → s.coreKeys s.cur (rawAddr s o) n .r = .inr f → Raises i h f (rawAddr s o) s :=
  ⟨fun ha => .of_body m rfl (fun _ _ => if_pos (by simpa using ha)) hi,
   fun f ha hk => .of_body m rfl (fun _ _ => by simp only [ha, hk, bne_self_eq_false, Bool.false_eq_true, if_false]) hi⟩
theorem store_refused {s : State} {h : Hdr} {fx : BitVec 1} {o : RI} (m : CcMay s h [(o.a, o.la), (o.d, false)] [] 0) {i : Instr} {n : Nat} {w : Word}
    (hi : exec i s = ccStore n h w fx o s) :
    ((rawAddr s o).toNat % n ≠ 0 → Raises i h 0x07 (rawAddr s o) s) ∧
    ∀ f, (rawAddr s o).toNat % n = 0 → s.coreKeys s.cur (rawAddr s o) n .w = .inr f → Raises i h f (rawAddr s o) s :=
  ⟨fun ha => .of_body m rfl (fun _ _ => if_pos (by simpa using ha)) hi,
   fun f ha hk => .of_body m rfl (fun _ _ => by simp only [ha, hk, bne_self_eq_false, Bool.false_eq_true, if_false]) hi⟩
/-- A tile task's raw access is refused by its windows alone. -/
theorem coreKeys_refused {s : State} {addr : Word} {n : Nat} {p : Perm} {f : BitVec 8} (hs : isSup s.cur = false) (hk : s.coreKeys s.cur addr n p = .inr f) :
    f = fRawWindow ∧ s.rawKeys s.me.cid addr n p = none := by
  unfold State.coreKeys at hk
  rw [hs] at hk
  simp only [Bool.false_eq_true, if_false] at hk
  split at hk
  case h_1 => cases hk
  case h_2 hr => injection hk with hk; exact ⟨hk.symm, hr⟩

/-- Settles O3: a load answers its bytes and leaves the rest, a store is held, and what R194 refuses faults with its address. -/
theorem rawAccesses : Obligations.RawAccesses := by
  unfold Obligations.RawAccesses
  refine ⟨fun h fx o s m hf => ?_, fun h fx o s m => ?_, fun s addr n p f => coreKeys_refused, fun h fx o s m => ?_, fun h fx o s m => ?_⟩
  · exact ⟨load_loads m hf (i := .ldb h fx o) rfl, load_loads m hf (i := .ldh h fx o) rfl, load_loads m hf (i := .ldw h fx o) rfl,
      load_loads m hf (i := .ldd h fx o) rfl⟩
  · exact ⟨store_holds m (i := .stb h fx o) rfl, store_holds m (i := .sth h fx o) rfl, store_holds m (i := .stw h fx o) rfl,
      store_holds m (i := .std h fx o) rfl⟩
  · exact ⟨load_refused m (i := .ldb h fx o) rfl, load_refused m (i := .ldh h fx o) rfl, load_refused m (i := .ldw h fx o) rfl,
      load_refused m (i := .ldd h fx o) rfl⟩
  · exact ⟨store_refused m (i := .stb h fx o) rfl, store_refused m (i := .sth h fx o) rfl, store_refused m (i := .stw h fx o) rfl,
      store_refused m (i := .std h fx o) rfl⟩

/-! ### Atomics (R328, R329) -/

/-- The effect of an atomic of `n` bytes with operands `x` and `y`. -/
def atomicBody (s : State) (w : Word) (o : RR) (op : AtomOp) (n : Nat) (x y e : Word) (s' : State) : Body :=
  if (s.rdS o.a).toNat % n != 0 then .fault fRawWindow (s.rdS o.a) else
  match remoteDev s (s.rdS o.c) with
  | some dev =>
    .done ((s'.ccHold e w 0 (if op == .swp && o.d == 0 then Act.rstore dev (s.rdS o.a) x else Act.ratomic dev op (s.rdS o.a) o.d x y (kNc o)) (kRel o) (kAcq o)).await o.d s'.placedId)
  | none =>
    match s.coreKeys s.cur (s.rdS o.a) n .atomic with
    | .inr f => .fault f (s.rdS o.a)
    | .inl ks => .done ((s'.ccHold e w 0 (.atomic op (s.rdS o.a) o.d x y (kNc o) ks) (kRel o) (kAcq o)).await o.d s'.placedId)

section
variable {s : State} {h : Hdr} {o : RR} {srcs : List (BitVec 6 × Bool)} {i : Instr} {w : Word} {op : AtomOp} {n : Nat} {x y : Word}

theorem remoteDev_none {c : Word} (hd : ¬(c.getLsbD 8 = true ∧ c.extractLsb' 0 8 ≠ s.conf.devnum)) : remoteDev s c = none :=
  if_neg (by simpa [Bool.and_eq_true, bne_iff_ne] using hd)
theorem remoteDev_some {c : Word} (hd : c.getLsbD 8 = true ∧ c.extractLsb' 0 8 ≠ s.conf.devnum) : remoteDev s c = some (c.extractLsb' 0 8) :=
  if_pos (by simpa [Bool.and_eq_true, bne_iff_ne] using hd)

/-- An atomic of this device is held, or refused. -/
theorem atomic_held (m : CcMay s h srcs [] 0) (hi : exec i s = ccWord h w srcs [] (atomicBody s w o op n x y) s) :
    ((s.rdS o.a).toNat % n ≠ 0 → Raises i h 0x07 (s.rdS o.a) s) ∧
    (∀ ks, (s.rdS o.a).toNat % n = 0 → ¬((s.rdS o.c).getLsbD 8 = true ∧ (s.rdS o.c).extractLsb' 0 8 ≠ s.conf.devnum) →
      s.coreKeys s.cur (s.rdS o.a) n .atomic = .inl ks → Holds i h h 0 (.atomic op (s.rdS o.a) o.d x y (kNc o) ks) (kRel o) (kAcq o) o.d s) ∧
    ∀ f, (s.rdS o.a).toNat % n = 0 → ¬((s.rdS o.c).getLsbD 8 = true ∧ (s.rdS o.c).extractLsb' 0 8 ≠ s.conf.devnum) →
      s.coreKeys s.cur (s.rdS o.a) n .atomic = .inr f → Raises i h f (s.rdS o.a) s := by
  refine ⟨fun ha => .of_body m rfl (fun _ _ => if_pos (by simpa using ha)) hi, fun ks ha hd hk => .of_done (w2 := w) m rfl (fun _ => ?_) hi,
    fun f ha hd hk => .of_body m rfl (fun _ _ => ?_) hi⟩
  all_goals
    unfold atomicBody
    simp only [ha, bne_self_eq_false, Bool.false_eq_true, if_false, remoteDev_none hd, hk]
/-- An atomic that C sends away is held as an access of that device. -/
theorem atomic_sent (m : CcMay s h srcs [] 0) (hi : exec i s = ccWord h w srcs [] (atomicBody s w o op n x y) s) (ha : (s.rdS o.a).toNat % n = 0)
    (hd : (s.rdS o.c).getLsbD 8 = true ∧ (s.rdS o.c).extractLsb' 0 8 ≠ s.conf.devnum) :
    Holds i h h 0 (if op == .swp && o.d == 0 then .rstore ((s.rdS o.c).extractLsb' 0 8) (s.rdS o.a) x
      else .ratomic ((s.rdS o.c).extractLsb' 0 8) op (s.rdS o.a) o.d x y (kNc o)) (kRel o) (kAcq o) o.d s :=
  .of_done (w2 := w) m rfl (fun _ => by
    unfold atomicBody
    simp only [ha, bne_self_eq_false, Bool.false_eq_true, if_false, remoteDev_some hd]) hi
end

/-- Settles O4: each atomic is one held effect, here or away, or its refusal. -/
theorem atomics : Obligations.Atomics := by
  unfold Obligations.Atomics
  intro h o s a b c d dev away rel acq nc nq srcs held sent
  refine ⟨fun m => ⟨⟨atomic_held m (i := .aadd h o) rfl, atomic_held m (i := .aand h o) rfl, atomic_held m (i := .aor h o) rfl, atomic_held m (i := .axor h o) rfl,
      atomic_held m (i := .amin h o) rfl, atomic_held m (i := .amax h o) rfl, atomic_held m (i := .aswp h o) rfl, atomic_held m (i := .afadd h o) rfl⟩,
    ⟨atomic_sent m (i := .aadd h o) rfl, atomic_sent m (i := .aand h o) rfl, atomic_sent m (i := .aor h o) rfl, atomic_sent m (i := .axor h o) rfl,
      atomic_sent m (i := .amin h o) rfl, atomic_sent m (i := .amax h o) rfl, fun hd ha hw => ?_, atomic_sent m (i := .afadd h o) rfl⟩, fun hd ha hw => ?_⟩,
    fun m => ⟨atomic_held m (i := .acas h o) rfl, atomic_sent m (i := .acas h o) rfl⟩⟩
  · have := atomic_sent m (i := .aswp h o) (op := .swp) (n := 8) (x := b) (y := 0) rfl ha hw
    rwa [if_neg (by simpa using hd)] at this
  · have := atomic_sent m (i := .aswp h o) (op := .swp) (n := 8) (x := b) (y := 0) rfl ha hw
    rwa [if_pos (by simp [hd]), hd] at this

/-! ### A state that lists a core twice (R331) -/

/-- An effect with the number 5. -/
def heldFive : Held := { eng := .cc, e := 0, act := .store 0 1 0 [], sig := 0, w := 0, pc := 0, id := 5 }
/-- Core 0 stands twice: the first entry, which is the core, has a fence that waits for operation 5; only the second, which nothing reads as a core, holds it. -/
def twiceListed : State := { cores := [(0, { bars := [{ e := 0, id := 9, ids := [5] }] }), (0, { hold := [heldFive] })], cur := 0 }
/-- FACQ at scope 0, without wait or signal. -/
def plainHdr : Hdr := { wait := 0, sig := 0 }
def plainSY : SY := { d := 0, a := 0, la := false, sel := 0, imm := 0 }

theorem twiceListed_may : CcMay twiceListed plainHdr [] [] 0 where
  fresh := rfl
  legal := by decide
  met := fun x hx => by cases hx
  landed := fun x hx => by cases hx
  alive := fun h => absurd h (by decide)
  noStop := rfl
  noWatch := by decide
  ungated := rfl
  room := ⟨by decide, by decide⟩
  signal := .inl rfl

/-- Refutes O5: where a core is listed twice, the first write to it drops the second entry, and with it the operation that an earlier fence waits for: FACQ
then forgets that fence, though the operation was outstanding before it. -/
theorem not_remoteLoadFences : ¬ Obligations.RemoteLoadFences := by
  unfold Obligations.RemoteLoadFences
  rintro ⟨-, fences⟩
  obtain ⟨-, acquires, -⟩ := fences plainHdr plainSY twiceListed twiceListed_may
  obtain ⟨-, kept, -⟩ := acquires _ (List.mem_cons_self ..)
  have hm := kept 5 (by decide) (by decide)
  exact absurd hm (by decide)

end Sys2Proof.Machine
end


section
/-! PROOFS of the StopWords statement (O8): a state that lists a core twice breaks it. -/

set_option Elab.async false

namespace Sys2Proof.Machine

/-- Core 0 stands twice: the first entry, which is the core, holds no task and has an access sequencer that waits for a stop; the second, which nothing
reads as a core, holds a task of context 0. Context 0 has a stop that core 0 asked for. -/
def twiceTasked : State :=
  { cores := [(0, { acc := { waitsStop := true } }), (0, { task := some {} })],
    ctxs := [(0, { stop := some { k := 0, reqs := [{ srck := 1, core := 0 }], byCmd := true } })], cur := 0 }
/-- CUTQ.cancel into s0. -/
def cancelSY : SY := { d := 0, a := 0, la := false, sel := 0, imm := 1 }
/-- Whether the access sequencer of core 0 waits for a stop. -/
def accWaits : Result → Bool
  | .next t => (t.core 0).acc.waitsStop
  | _ => false

theorem twiceTasked_may : CcMay twiceTasked plainHdr [] [] 0 where
  fresh := rfl
  legal := by decide
  met := fun x hx => by cases hx
  landed := fun x hx => by cases hx
  alive := fun h => absurd h (by decide)
  noStop := rfl
  noWatch := by decide
  ungated := rfl
  room := ⟨by decide, by decide⟩
  signal := .inl rfl

/-- Refutes O8: the cancel ends the waits of the cores that hold tasks of the context. Read before the word issues, the list of cores names core 0 for its second
entry; issue drops that entry, and the cancel then leaves core 0 alone. -/
theorem not_stopWords : ¬ Obligations.StopWords := by
  unfold Obligations.StopWords
  intro words
  obtain ⟨-, -, cutq⟩ := words plainHdr cancelSY twiceTasked
  obtain ⟨-, cancels, -⟩ := cutq twiceTasked_may
  obtain ⟨t, ht, ran, -⟩ := cancels (by decide) (by decide) (by decide)
  have hw : accWaits (exec (.cutq plainHdr cancelSY) twiceTasked) = true := by decide
  rw [ht] at hw
  have hf : (t.core 0).acc = ((twiceTasked.cancelStop 0).core 0).acc := (congrArg Core.acc (show t.core 0 = _ from ran.frame)).trans rfl
  rw [accWaits, hf] at hw
  exact absurd hw (by decide)

end Sys2Proof.Machine
end


section
/-! SUPPORT. Control-core words whose effect writes more log entries than eight, that wait at their place once issued, or that go on after such a wait. -/

set_option Elab.async false

namespace Sys2Proof.Machine

/-! ### Issue and retirement keep the number of the next operation -/

theorem State.log_nextId (s : State) (n : Nat) (p : Peel) : (s.log n p).nextId = s.nextId := by
  unfold State.log; split <;> rfl
theorem State.setTok_nextId (s : State) (n : Nat) (f : Eng) (t : Nat) (c : Word) (x : Tok) : (s.setTok n f t c x).nextId = s.nextId :=
  s.log_nextId ..
theorem State.consume_nextId (s : State) (n : Nat) (f : Eng) (c : Word) (ts : List (Nat × Nat)) : (s.consume n f c ts).nextId = s.nextId := by
  induction ts generalizing s with
  | nil => rfl
  | cons x ts ih => exact (ih _).trans (s.setTok_nextId ..)
theorem State.raiseElast_nextId (s : State) (n : Nat) (eng : Eng) (e pc : Word) : (s.raiseElast n eng e pc).nextId = s.nextId := by
  unfold State.raiseElast
  split
  · exact s.log_nextId ..
  · rfl
theorem State.ccIssue_nextId (s : State) (e : Word) (ts : List (Nat × Nat)) (ids : List Nat) (srcs : List (BitVec 6 × Bool)) :
    (s.ccIssue e ts ids srcs).nextId = s.nextId :=
  (State.consume_nextId ..).trans (s.raiseElast_nextId ..)

/-! ### Issue, and going on -/

section
variable {s : State} {h : Hdr} {srcs : List (BitVec 6 × Bool)} {toks : List (Nat × Nat)} {extra : Word}

/-- A word that may issue answers what its effect makes of one state after issue. -/
theorem ccWordAt_issues (m : CcMay s h srcs toks extra) :
    ∃ s1, CcIssued s s1 (s.ccCrd h toks extra) (waitPresent (s.me.waitVal h) ++ toks) srcs ∧
      s1.me.cc.before = mergeIds s.me.cc.before (s.ccIds h toks) ∧ s1.nextId = s.nextId ∧
      ∀ w body, ccWordAt extra h w srcs toks body s = ccFinish h (s.ccCrd h toks extra) s (body (s.ccCrd h toks extra) s1) :=
  ⟨_, s.ccIssue_issued _ _ (s.ccIds h toks) srcs m.need, s.ccIssue_before .., s.ccIssue_nextId .., fun w body => ccWordAt_go m w body⟩

theorem maxW_zero (a : Word) : maxW a 0 = a := by
  unfold maxW
  rw [if_neg (by simp [BitVec.ult_eq_decide])]
theorem State.raiseElast_same (s : State) (n : Nat) (eng : Eng) (pc : Word) : s.raiseElast n eng ((s.core n).eng eng).elast pc = s := by
  unfold State.raiseElast
  rw [if_neg (by simp [BitVec.ult_eq_decide])]

/-- A word that waits goes on at the coordinate that the core has reached. -/
theorem ccWordAt_resumes (hw : s.me.ccWait.isSome = true) :
    ∃ s1, CcIssued s s1 s.me.cc.elast [] [] ∧ s1.me.cc.before = s.me.cc.before ∧ s1.nextId = s.nextId ∧
      ∀ w srcs toks body, ccWordAt 0 h w srcs toks body s = ccFinish h s.me.cc.elast s (body s.me.cc.elast s1) := by
  have hr : s.raiseElast s.cur .cc s.me.cc.elast s.me.pc = s := s.raiseElast_same s.cur .cc s.me.pc
  obtain ⟨s1, hs1⟩ : ∃ s1, s1 = s.modCore s.cur fun c => { c with pc := c.pc + 8, fetched := c.fetched.tail } := ⟨_, rfl⟩
  have hc : s1.core s.cur = { s.me with pc := s.me.pc + 8, fetched := s.me.fetched.tail } := by rw [hs1, State.core_modCore_self]; rfl
  have hme : s1.me = { s.me with pc := s.me.pc + 8, fetched := s.me.fetched.tail } := by
    rw [← hc]; show s1.core s1.cur = _; rw [hs1]; rfl
  refine ⟨s1, ⟨hs1 ▸ .modCore .., ?_, ?_, fun j _ => by rw [hme], fun j => by rw [hme]; simp [tokNeed]⟩, by rw [hme], by rw [hs1]; rfl, fun w srcs toks body => ?_⟩
  · rw [hme]; rfl
  · rw [hme]; exact Nat.le_add_right _ _
  · unfold ccWordAt
    simp only [hw, if_true, maxW_zero]
    rw [hr, hs1]

/-- The peel log has room for an effect of `k` entries, and the egress hold for what the word holds. -/
theorem CcEff.fits {s s0 s1 s2 : State} {e : Word} {ts : List (Nat × Nat)} {srcs : List (BitVec 6 × Bool)} {k : Nat} {base : Core} {tx : List Nat} {p : Word}
    (i : CcIssued s s1 e ts srcs) (ef : CcEff s0 s1 s2 s.cur k base tx p) (hs0 : s0.cur = s.cur) (hk : s.me.peel.length + 1 + ts.length + k ≤ 1024)
    (hh : base.hold.length ≤ 128) : s2.me.fits = true := by
  have hlog := ef.log
  have hl1 := i.log
  rw [i.here] at hlog
  unfold Core.fits
  rw [State.me, ef.only.cur.trans hs0, ef.frame.hold, Bool.and_eq_true, decide_eq_true_eq, decide_eq_true_eq]
  exact ⟨by omega, by omega⟩

theorem waitPresent_length (w : Word) : (waitPresent w).length ≤ 3 :=
  (List.length_filter_le _ _).trans (by simp [waitTerms])

end

/-! ### The ends of an issued word -/

section
variable {s s0 s1 s2 : State} {h : Hdr} {e : Word} {toks : List (Nat × Nat)} {srcs : List (BitVec 6 × Bool)} {k : Nat} {base : Core} {tx : List Nat} {p : Word}

theorem ccFinish_done_eq (h : Hdr) (e : Word) (s u : State) (hf : u.me.fits = true) :
    ccFinish h e s (.done u) = .next (u.ccRetire s.me.ccWait.isSome h.sig e) := if_pos hf
theorem ccFinish_wait_eq (h : Hdr) (e : Word) (s u : State) (hf : u.me.fits = true) :
    ccFinish h e s (.wait u) = .next (u.modCore u.cur fun c => { c with pc := s.me.pc, fetched := s.me.fetched }) := if_pos hf

/-- The tokens of a word after its effect and its signal. -/
theorem CcEff.tokens {t : State} {ts : List (Nat × Nat)} {sig : BitVec 8} (i : CcIssued s s1 e ts srcs)
    (ef : CcEff s0 s1 s2 s.cur k base tx p) (r : Retired s2 t s.cur sig) (hts : ts = waitPresent (s.me.waitVal h) ++ toks) :
    TokRan s.me (t.core s.cur) { h with sig := sig } toks tx := by
  subst hts
  refine ⟨fun j h1 hj hj2 => ?_, fun j h1 => ?_⟩
  · rw [r.tokens j hj, ef.tok j h1, i.here]
    exact i.tokens j hj2
  · rw [r.count j, ef.tok j h1, i.here]
    have fin : ∀ a b c d : Nat, a + c = d → a + b + c = d + b := by omega
    exact fin _ _ _ _ (i.count j)

/-- A word that waits at its place: it has issued, and signals later. -/
theorem ccFinish_waits (i : CcIssued s s1 e (waitPresent (s.me.waitVal h) ++ toks) srcs) (ef : CcEff s0 s1 s2 s.cur k base [] p) (hs0 : s0.cur = s.cur)
    (hk : s.me.peel.length + 4 + toks.length + k ≤ 1024) (hh : base.hold.length ≤ 128) :
    ∃ t, ccFinish h e s (.wait s2) = .next t ∧ CcRan s t { h with sig := 0 } toks base [] s.me.pc s0 ∧ (t.core s.cur).s = (s2.core s.cur).s := by
  have hl := waitPresent_length (s.me.waitVal h)
  have hf := ef.fits i hs0 (by rw [List.length_append]; omega) hh
  have hcur : s2.cur = s.cur := ef.only.cur.trans hs0
  refine ⟨_, (ccFinish_wait_eq h e s s2 hf).trans (by rw [hcur]), ⟨ef.only.trans (.modCore ..), ?_, ?_, ?_⟩, by rw [State.core_modCore_self]⟩
  · rw [State.core_modCore_self]; have := ef.frame; unfold CcFrame at *; rw [this]
  · rw [State.core_modCore_self]
    refine ⟨fun j _ _ hj => ?_, fun j _ => ?_⟩
    · show (s2.core s.cur).tok.get {} j = _
      rw [ef.tok j (by simp), i.here]; exact i.tokens j hj
    · show ((s2.core s.cur).tok.get {} j).count.toNat + _ = _
      rw [ef.tok j (by simp), i.here, if_neg (fun h => h.1 rfl)]; exact i.count j
  · rw [State.core_modCore_self]

/-- A word that retires with its signal, whatever the number of entries that its effect logs. -/
theorem ccFinish_done (i : CcIssued s s1 e (waitPresent (s.me.waitVal h) ++ toks) srcs) (ef : CcEff s0 s1 s2 s.cur k base tx p) (hs0 : s0.cur = s.cur)
    (hw : s.me.ccWait = none) (hk : s.me.peel.length + 4 + toks.length + k ≤ 1024) (hh : base.hold.length ≤ 128)
    (hsig : h.sig = 0 ∨ ((s2.core s.cur).tok.get {} h.sig.toNat).count.toNat < 0xFFFF) :
    ∃ t, ccFinish h e s (.done s2) = .next t ∧ Retired s2 t s.cur h.sig ∧ CcRan s t h toks base tx p s0 := by
  have hl := waitPresent_length (s.me.waitVal h)
  have hf := ef.fits i hs0 (by rw [List.length_append]; omega) hh
  have hcur : s2.cur = s.cur := ef.only.cur.trans hs0
  have r := s2.ccRetire_retired h.sig e (by rw [State.me, hcur]; exact hsig)
  rw [hcur] at r
  refine ⟨_, (ccFinish_done_eq h e s s2 hf).trans (by rw [hw]; rfl), r, ef.only.trans r.only, ef.frame.trans (by unfold CcFrame; rw [r.core]), ef.tokens i r rfl, ?_⟩
  rw [r.core, ef.pc]

/-- A word that waited retires with its signal, and the core goes on after it. -/
theorem ccFinish_ends (hw : s.me.ccWait.isSome = true) (i : CcIssued s s1 e [] []) (ef : CcEff s0 s1 s2 s.cur k base [] p) (hs0 : s0.cur = s.cur)
    (m : CcMayEnd s h) (hk : s.me.peel.length + 1 + k ≤ 1024) (hh : base.hold.length ≤ 128) :
    ∃ t, ccFinish h e s (.done s2) = .next t ∧ CcRan s t { h with wait := 0 } [] { base with ccWait := none, resumeAt := none } [] (base.resumeAt.getD p) s0 ∧
      (t.core s.cur).s = (s2.core s.cur).s := by
  have hf := ef.fits i hs0 (by simpa using hk) hh
  have hcur : s2.cur = s.cur := ef.only.cur.trans hs0
  obtain ⟨u, hu⟩ : ∃ u, u = s2.modCore s.cur fun c => { c with ccWait := none, pc := c.resumeAt.getD c.pc, resumeAt := none } := ⟨_, rfl⟩
  have huc : u.core s.cur = { s2.core s.cur with ccWait := none, pc := (s2.core s.cur).resumeAt.getD (s2.core s.cur).pc, resumeAt := none } := by
    rw [hu, State.core_modCore_self]
  have hucur : u.cur = s.cur := by rw [hu]; exact hcur
  have hres : (s2.core s.cur).resumeAt = base.resumeAt := by rw [ef.frame]
  have eu : CcEff s0 s1 u s.cur k { base with ccWait := none, resumeAt := none } [] (base.resumeAt.getD p) := by
    refine ⟨ef.only.trans (hu ▸ .modCore ..), ?_, ?_, fun j hj => by rw [huc]; exact ef.tok j hj, by rw [huc]; exact ef.log⟩
    · rw [huc]; have := ef.frame; unfold CcFrame at *; rw [this]
    · rw [huc]
      show (s2.core s.cur).resumeAt.getD (s2.core s.cur).pc = _
      rw [hres, ef.pc]
  have hsig : h.sig = 0 ∨ (u.me.tok.get {} h.sig.toNat).count.toNat < 0xFFFF := m.signal.imp id fun hs => by
    rw [State.me, hucur, eu.tok _ (by simp), i.here, i.tokens _ (by simp)]; exact hs
  have r := u.ccRetire_retired h.sig e hsig
  rw [hucur] at r
  have hme : s2.ccRetire true h.sig e = u.ccRetire false h.sig e := by
    have hb : s2.me.cc.before = u.me.cc.before := by rw [State.me, State.me, hcur, hucur, huc]
    have he : s2.ccEndWait s2.cur true = u := by rw [hcur, hu]; rfl
    have he2 : u.ccEndWait u.cur false = u := rfl
    unfold State.ccRetire
    dsimp only
    rw [he, he2, hb, hcur, hucur]
  have hwait : waitPresent (s.me.waitVal { h with wait := 0 }) = [] := by
    show waitPresent 0 = []
    decide
  refine ⟨_, (ccFinish_done_eq h e s s2 hf).trans (by rw [hw, hme]), ⟨eu.only.trans r.only, eu.frame.trans (by unfold CcFrame; rw [r.core]), ?_, by rw [r.core, eu.pc]⟩,
    by rw [r.core, huc]⟩
  exact eu.tokens (h := { h with wait := 0 }) i r (by rw [hwait]; rfl)
end

end Sys2Proof.Machine
end


section
/-! PROOFS of the RingWords statement (O9): words pushed to the ring of an engine, one by one or as a block that a raw load would read. -/

set_option Elab.async false

namespace Sys2Proof.Machine

/-! ### Log entries beside a change -/

/-- `u` is `s` but for the peel log of core `n`, which has grown by at most `k` entries. -/
structure Logged (s u : State) (n k : Nat) : Prop where
  only : CoreOnly s u n
  core : u.core n = { s.core n with peel := (u.core n).peel }
  log : (u.core n).peel.length ≤ (s.core n).peel.length + k

theorem Logged.refl (s : State) (n : Nat) : Logged s s n 0 := ⟨.refl s n, rfl, Nat.le_refl _⟩
theorem Logged.trans {s t u : State} {n k l : Nat} (a : Logged s t n k) (b : Logged t u n l) : Logged s u n (k + l) :=
  ⟨a.only.trans b.only, by rw [b.core, a.core], by have := a.log; have := b.log; omega⟩
theorem Logged.mono {s t : State} {n k l : Nat} (a : Logged s t n k) (h : k ≤ l) : Logged s t n l := ⟨a.only, a.core, a.log.trans (by omega)⟩
theorem State.log_logged (s : State) (n : Nat) (p : Peel) : Logged s (s.log n p) n 1 := by
  unfold State.log
  split
  · exact ⟨.modCore .., by rw [State.core_modCore_self], by rw [State.core_modCore_self]; exact Nat.le_refl _⟩
  · exact (Logged.refl s n).mono (by omega)
theorem State.logGranules_logged (s : State) (n : Nat) (eng : Eng) (e : Word) (a len g gs : Nat) : Logged s (s.logGranules n eng e a len g gs) n gs := by
  induction gs generalizing s g with
  | zero => exact .refl s n
  | succ gs ih => exact ((s.log_logged n _).trans (ih _ _)).mono (by omega)

/-! ### One word pushed to a ring -/

/-- The core once a word is pushed to the ring of an engine. -/
def Core.pushed (c : Core) (eng : Eng) (e w : Word) : Core :=
  let r := (c.eng eng).ring
  ({ c with spad := putSpad c.spad (r.addr r.tail) (leBytes w.toNat 8) } : Core).modEng eng fun x =>
    { x with ring := { x.ring with tail := r.tail + 1, pushE := x.ring.pushE.set 0 (r.tail.toNat % 2 ^ r.size.toNat) e } }

theorem Core.pushed_peel (c : Core) (p : List Peel) (eng : Eng) (e w : Word) : ({ c with peel := p } : Core).pushed eng e w = { c.pushed eng e w with peel := p } := by
  cases eng <;> rfl
theorem CcFrame.pushed {c x : Core} (h : CcFrame c x) (eng : Eng) (e w : Word) : CcFrame (c.pushed eng e w) (x.pushed eng e w) := by
  unfold CcFrame at *
  rw [h]
  cases eng <;> rfl
@[simp] theorem Core.pushed_s (c : Core) (eng : Eng) (e w : Word) : (c.pushed eng e w).s = c.s := by cases eng <;> rfl
@[simp] theorem Core.pushed_pc (c : Core) (eng : Eng) (e w : Word) : (c.pushed eng e w).pc = c.pc := by cases eng <;> rfl
@[simp] theorem Core.pushed_tok (c : Core) (eng : Eng) (e w : Word) : (c.pushed eng e w).tok = c.tok := by cases eng <;> rfl
@[simp] theorem Core.pushed_logs (c : Core) (eng : Eng) (e w : Word) : (c.pushed eng e w).peel = c.peel := by cases eng <;> rfl
@[simp] theorem Core.pushed_hold (c : Core) (eng : Eng) (e w : Word) : (c.pushed eng e w).hold = c.hold := by cases eng <;> rfl

theorem CcFrame.peels {a b : Core} (h : CcFrame a b) (p q : List Peel) : CcFrame { a with peel := p } { b with peel := q } := by
  unfold CcFrame at h ⊢
  exact congrArg (fun c : Core => { c with peel := q }) h

/-- R169: a push changes the core as `Core.pushed` says, and logs at most three entries. -/
theorem State.pushRing_core (s : State) (n : Nat) (eng : Eng) (e w : Word) :
    CoreOnly s (s.pushRing n eng e w) n ∧
    (s.pushRing n eng e w).core n = { (s.core n).pushed eng e w with peel := ((s.pushRing n eng e w).core n).peel } ∧
    ((s.pushRing n eng e w).core n).peel.length ≤ (s.core n).peel.length + 3 := by
  have hne : (leBytes w.toNat 8).isEmpty = false := rfl
  have hlen : (leBytes w.toNat 8).length = 8 := leBytes_length ..
  unfold State.pushRing State.spadWrite
  dsimp only
  rw [hne, if_neg (by simp), hlen]
  obtain ⟨r, hr⟩ : ∃ r, r = ((s.core n).eng eng).ring := ⟨_, rfl⟩
  rw [← hr]
  have l1 := s.log_logged n { kind := 4, addr := BitVec.ofNat 48 (0x4000 + eng.num), crd := e, old := (r.tail.setWidth 64).setWidth 256 }
  have l2 := (l1.trans (State.logGranules_logged _ n .cc e (r.addr r.tail) 8 (r.addr r.tail / 32) ((r.addr r.tail + 8 - 1) / 32 + 1 - r.addr r.tail / 32))).mono
    (l := 3) (by omega)
  rw [show s.log4 n (0x4000 + eng.num) e (r.tail.setWidth 64) = s.log n { kind := 4, addr := BitVec.ofNat 48 (0x4000 + eng.num), crd := e, old := (r.tail.setWidth 64).setWidth 256 } from rfl]
  generalize ((s.log n { kind := 4, addr := BitVec.ofNat 48 (0x4000 + eng.num), crd := e, old := (r.tail.setWidth 64).setWidth 256 }).logGranules n .cc e (r.addr r.tail) 8
    (r.addr r.tail / 32) ((r.addr r.tail + 8 - 1) / 32 + 1 - r.addr r.tail / 32)) = u at l2
  refine ⟨(l2.only.trans (.modCore ..)).trans (.modCore ..), ?_, ?_⟩
  · rw [State.core_modCore_self, State.core_modCore_self, l2.core, hr]
    cases eng <;> rfl
  · rw [State.core_modCore_self, State.core_modCore_self]
    refine Nat.le_trans (Nat.le_of_eq ?_) l2.log
    cases eng <;> rfl

/-! ### Words pushed in order -/

/-- Pushes words to the rings that they name, in order. -/
def State.pushAll (s : State) (n : Nat) (e : Word) (ps : List (Eng × Word)) : State := ps.foldl (fun u p => u.pushRing n p.1 e p.2) s
/-- The core once words are pushed in order. -/
def Core.pushedAll (c : Core) (e : Word) (ps : List (Eng × Word)) : Core := ps.foldl (fun c p => c.pushed p.1 e p.2) c

theorem Core.pushedAll_keeps {α : Type} (f : Core → α) (h : ∀ c eng e w, f (Core.pushed c eng e w) = f c) (c : Core) (e : Word) (ps : List (Eng × Word)) :
    f (c.pushedAll e ps) = f c := by
  induction ps generalizing c with
  | nil => rfl
  | cons p ps ih => exact (ih _).trans (h ..)
theorem Core.pushedAll_peel (c : Core) (l : List Peel) (e : Word) (ps : List (Eng × Word)) :
    ({ c with peel := l } : Core).pushedAll e ps = { c.pushedAll e ps with peel := l } := by
  induction ps generalizing c with
  | nil => rfl
  | cons p ps ih =>
    show (({ c with peel := l } : Core).pushed p.1 e p.2).pushedAll e ps = _
    rw [Core.pushed_peel]; exact ih _
theorem CcFrame.pushedAll {c x : Core} (h : CcFrame c x) (e : Word) (ps : List (Eng × Word)) : CcFrame (c.pushedAll e ps) (x.pushedAll e ps) := by
  induction ps generalizing c x with
  | nil => exact h
  | cons p ps ih => exact ih (h.pushed ..)
theorem State.pushAll_core (s : State) (n : Nat) (e : Word) (ps : List (Eng × Word)) :
    CoreOnly s (s.pushAll n e ps) n ∧
    (s.pushAll n e ps).core n = { (s.core n).pushedAll e ps with peel := ((s.pushAll n e ps).core n).peel } ∧
    ((s.pushAll n e ps).core n).peel.length ≤ (s.core n).peel.length + 3 * ps.length := by
  induction ps generalizing s with
  | nil => exact ⟨.refl s n, rfl, Nat.le_refl _⟩
  | cons p ps ih =>
    obtain ⟨h1, h2, h3⟩ := s.pushRing_core n p.1 e p.2
    obtain ⟨g1, g2, g3⟩ := ih (s.pushRing n p.1 e p.2)
    refine ⟨h1.trans g1, ?_, ?_⟩
    · rw [h2, Core.pushedAll_peel] at g2; exact g2
    · show (((s.pushRing n p.1 e p.2).pushAll n e ps).core n).peel.length ≤ _
      rw [List.length_cons]; omega

/-- The words of one ring in order. -/
theorem State.pushAll_ring (s : State) (n : Nat) (eng : Eng) (e : Word) (ws : List Word) :
    ws.foldl (fun u w => u.pushRing n eng e w) s = s.pushAll n e (ws.map fun w => (eng, w)) := by
  rw [State.pushAll, List.foldl_map]

/-- An issued word that pushes words leaves the core with them. -/
theorem CcIssued.pushEff {s s1 : State} {e0 : Word} {ts : List (Nat × Nat)} {srcs : List (BitVec 6 × Bool)} (i : CcIssued s s1 e0 ts srcs) (e : Word)
    (ps : List (Eng × Word)) :
    CcEff s s1 (s1.pushAll s.cur e ps) s.cur (3 * ps.length) (s.pushAll s.cur e ps).me [] (s.me.pc + 8) ∧ ((s1.pushAll s.cur e ps).core s.cur).s = s.me.s := by
  obtain ⟨a1, a2, -⟩ := s.pushAll_core s.cur e ps
  obtain ⟨b1, b2, b3⟩ := s1.pushAll_core s.cur e ps
  have hme : (s.pushAll s.cur e ps).me = (s.pushAll s.cur e ps).core s.cur := by rw [State.me, a1.cur]
  refine ⟨⟨i.only.trans b1, ?_, ?_, fun j _ => ?_, b3⟩, ?_⟩
  · rw [hme, a2, b2]
    exact ((show CcFrame s.me (s1.core s.cur) from i.frame).pushedAll e ps).peels ..
  · rw [b2]; exact (Core.pushedAll_keeps (·.pc) Core.pushed_pc _ e ps).trans i.pc
  · rw [b2]; exact congrArg (fun t => SMap.get {} t j) (Core.pushedAll_keeps (·.tok) Core.pushed_tok (s1.core s.cur) e ps)
  · rw [b2]; exact (Core.pushedAll_keeps (·.s) Core.pushed_s _ e ps).trans i.regs
theorem State.pushAll_hold (s : State) (e : Word) (ps : List (Eng × Word)) : (s.pushAll s.cur e ps).me.hold = s.me.hold := by
  obtain ⟨a1, a2, -⟩ := s.pushAll_core s.cur e ps
  rw [State.me, a1.cur, a2]; exact Core.pushedAll_keeps (·.hold) Core.pushed_hold _ e ps

/-! ### What stands in the ring -/

theorem leNat_leBytes (w n : Nat) : leNat (leBytes w n) = w % 256 ^ n := by
  induction n generalizing w with
  | zero => rw [Nat.pow_zero, Nat.mod_one]; rfl
  | succ n ih =>
    show (BitVec.ofNat 8 w).toNat + 256 * leNat (leBytes (w / 256) n) = _
    have hm : w % 256 ^ (n + 1) = w % 256 + 256 * (w / 256 % 256 ^ n) := by rw [Nat.pow_succ', Nat.mod_mul]
    rw [ih, BitVec.toNat_ofNat, hm]
theorem bitsOf_leBytes (w : Word) : bitsOf 64 (leBytes w.toNat 8) = w := by
  apply BitVec.eq_of_toNat_eq
  have := w.isLt
  rw [bitsOf, leNat_leBytes, BitVec.toNat_ofNat]
  omega
/-- Bytes read back where they were put. -/
theorem spadBytes_put (c : Core) (m : SMap Byte) (a k : Nat) (bs : List Byte) (n : Nat) (hn : k + n ≤ bs.length) (hc : c.spad = putSpad m a bs) :
    c.spadBytes (a + k) n = (bs.drop k).take n := by
  induction n generalizing k with
  | zero => rw [List.take_zero]; rfl
  | succ n ih =>
    have hk : k < bs.length := by omega
    rw [Core.spadBytes, Nat.add_assoc, ih (k + 1) (by omega), hc, get_putSpad, if_pos (by omega), Nat.add_sub_cancel_left, List.drop_eq_getElem_cons hk, List.take_succ_cons]
    simp [List.getD_eq_getElem?_getD, hk]
/-- R169, R322: a pushed word stands at TAIL with its coordinate. -/
theorem Core.pushed_pushed (c : Core) (eng : Eng) (e w : Word) : Pushed c (c.pushed eng e w) eng e w := by
  obtain ⟨r, hr⟩ : ∃ r, r = (c.eng eng).ring := ⟨_, rfl⟩
  have hsp : (c.pushed eng e w).spad = putSpad c.spad (r.addr r.tail) (leBytes w.toNat 8) := by rw [hr]; cases eng <;> rfl
  have heng : ((c.pushed eng e w).eng eng).ring =
      { r with tail := r.tail + 1, pushE := r.pushE.set 0 (r.tail.toNat % 2 ^ r.size.toNat) e } := by rw [hr]; cases eng <;> rfl
  have hlen : (leBytes w.toNat 8).length = 8 := leBytes_length ..
  refine ⟨?_, fun a ha => ?_, ?_, ?_⟩
  · have hb := spadBytes_put (c.pushed eng e w) c.spad (r.addr r.tail) 0 (leBytes w.toNat 8) 8 (by omega) hsp
    rw [Nat.add_zero, List.drop_zero, List.take_of_length_le (by omega)] at hb
    have ha : Ring.addr ((c.pushed eng e w).eng eng).ring r.tail = r.addr r.tail := by rw [heng]; rfl
    unfold Core.ringWord
    rw [← hr, ha, hb, bitsOf_leBytes]
  · rw [hsp, get_putSpad, hlen, if_neg (by rw [← hr] at ha; omega)]
  · rw [heng, ← hr]; exact SMap.get_set_self ..
  · rw [heng]; rw [hr]; cases eng <;> rfl

/-! ### Pushes while the ring has space -/

theorem ptrDiff_succ (a b : BitVec 16) (h : ptrDiff a b < 65535) : ptrDiff (a + 1) b = ptrDiff a b + 1 := by
  unfold ptrDiff at *
  rw [show a + 1 - b = (a - b) + 1 by ring_nf, BitVec.toNat_add]
  show ((a - b).toNat + 1) % 65536 = _
  omega
/-- A push takes one of the free words. -/
theorem State.ringFree_pushRing (s : State) (n : Nat) (eng : Eng) (e w : Word) (h : s.ringFree n eng ≠ 0) :
    (s.pushRing n eng e w).ringFree n eng = s.ringFree n eng - 1 := by
  obtain ⟨-, h2, -⟩ := s.pushRing_core n eng e w
  obtain ⟨r, hr⟩ : ∃ r, r = ((s.core n).eng eng).ring := ⟨_, rfl⟩
  have heng : (((s.pushRing n eng e w).core n).eng eng).ring =
      { r with tail := r.tail + 1, pushE := r.pushE.set 0 (r.tail.toNat % 2 ^ r.size.toNat) e } := by rw [h2, hr]; cases eng <;> rfl
  unfold State.ringFree Ring.freeWords at *
  rw [heng]
  rw [← hr] at h ⊢
  have hsz : 2 ^ r.size.toNat ≤ 2 ^ 15 := Nat.pow_le_pow_right (by omega) (by have := r.size.isLt; omega)
  show 2 ^ r.size.toNat - ptrDiff (r.tail + 1) r.ret = _
  rw [ptrDiff_succ _ _ (by omega)]
  omega
theorem pushSome_eq (n : Nat) (eng : Eng) (e : Word) (ws : List Word) (s : State) :
    pushSome n eng e ws s = (s.pushAll n e ((ws.take (s.ringFree n eng)).map fun w => (eng, w)), ws.drop (s.ringFree n eng)) := by
  induction ws generalizing s with
  | nil => simp [pushSome, State.pushAll]
  | cons w ws ih =>
    unfold pushSome
    by_cases h : s.ringFree n eng = 0
    · rw [if_pos (by simpa using h), h]; rfl
    · rw [if_neg (by simpa using h), ih, s.ringFree_pushRing n eng e w h]
      obtain ⟨k, hk⟩ := Nat.exists_eq_succ_of_ne_zero h
      rw [hk]
      rfl
theorem CcIssued.ringFree {s s1 : State} {e : Word} {ts : List (Nat × Nat)} {srcs : List (BitVec 6 × Bool)} (i : CcIssued s s1 e ts srcs) (eng : Eng) :
    s1.ringFree s.cur eng = s.ringFree s.cur eng := by
  unfold State.ringFree
  rw [i.here, i.core]
  cases eng <;> rfl

/-! ### PUSHQ, PUSHQN and RINGCPY (R335, R336) -/

section
variable {s : State} {h : Hdr} {srcs : List (BitVec 6 × Bool)} {i : Instr} {w : Word} {body : Word → State → Body} {r : Result}

/-- An instruction whose body stalls leaves everything as it stands. -/
theorem exec_stalls (m : CcMay s h srcs [] 0) (hr : r = ccWord h w srcs [] body s) (hb : ∀ e s1, body e s1 = .stall) (hi : exec i s = r := by rfl) :
    exec i s = .next s := by
  obtain ⟨s1, -, -, -, hgo⟩ := ccWordAt_issues m
  rw [hi, hr, ccWord, hgo, hb]; rfl
/-- An instruction whose body pushes words does so, and retires. -/
theorem CcDoes.of_push (m : CcMay s h srcs [] 0) (hr : r = ccWord h w srcs [] body s) (ps : List (Eng × Word))
    (hp : s.me.peel.length + 4 + 3 * ps.length ≤ 1024)
    (hb : ∀ s1, CcIssued s s1 (s.ccCrd h [] 0) (waitPresent (s.me.waitVal h) ++ []) srcs →
      body (s.ccCrd h [] 0) s1 = .done (s1.pushAll s.cur (s.ccCrd h [] 0) ps)) (hi : exec i s = r := by rfl) :
    CcDoes i h [] (s.pushAll s.cur (s.ccCrd h [] 0) ps).me [] (s.me.pc + 8) s s := by
  obtain ⟨s1, iss, -, -, hgo⟩ := ccWordAt_issues m
  obtain ⟨ef, hs⟩ := iss.pushEff (s.ccCrd h [] 0) ps
  obtain ⟨t, ht, rt, ran⟩ := ccFinish_done iss ef rfl m.fresh (by simpa using hp) (by rw [State.pushAll_hold]; have := m.room; omega) (m.signal.imp id fun hc => by
    rw [ef.tok _ (by simp), iss.here]
    have := iss.count h.sig.toNat
    omega)
  refine ⟨t, ?_, ran, by rw [rt.core]; exact hs⟩
  rw [hi, hr, ccWord, hgo, hb s1 iss, ht]

/-- An instruction whose body pushes words and then waits as `x` says. -/
theorem CcWaits.of_push (m : CcMay s h srcs [] 0) (hr : r = ccWord h w srcs [] body s) (ps : List (Eng × Word)) (x : CCWait)
    (hp : s.me.peel.length + 4 + 3 * ps.length ≤ 1024)
    (hb : ∀ s1, CcIssued s s1 (s.ccCrd h [] 0) (waitPresent (s.me.waitVal h) ++ []) srcs →
      body (s.ccCrd h [] 0) s1 = .wait ((s1.pushAll s.cur (s.ccCrd h [] 0) ps).modCore s.cur fun c => { c with ccWait := some x })) (hi : exec i s = r := by rfl) :
    CcWaits i h (s.pushAll s.cur (s.ccCrd h [] 0) ps).me x s s := by
  obtain ⟨s1, iss, -, -, hgo⟩ := ccWordAt_issues m
  obtain ⟨ef, hs⟩ := iss.pushEff (s.ccCrd h [] 0) ps
  have ef2 : CcEff s s1 ((s1.pushAll s.cur (s.ccCrd h [] 0) ps).modCore s.cur fun c => { c with ccWait := some x }) s.cur (3 * ps.length)
      { (s.pushAll s.cur (s.ccCrd h [] 0) ps).me with ccWait := some x } [] (s.me.pc + 8) := by
    refine ⟨ef.only.trans (.modCore ..), ?_, ?_, fun j hj => ?_, ?_⟩
    · rw [State.core_modCore_self]; have := ef.frame; unfold CcFrame at *; exact congrArg (fun c : Core => { c with ccWait := some x }) this
    · rw [State.core_modCore_self]; exact ef.pc
    · rw [State.core_modCore_self]; exact ef.tok j hj
    · rw [State.core_modCore_self]; exact ef.log
  obtain ⟨t, ht, ran, hst⟩ := ccFinish_waits iss ef2 rfl (by simpa using hp) (by show (State.me _).hold.length ≤ 128; rw [State.pushAll_hold]; have := m.room; omega)
  refine ⟨t, ?_, ran, by rw [hst, State.core_modCore_self]; exact hs⟩
  rw [hi, hr, ccWord, hgo, hb s1 iss, ht]
end

/-- The peel log of the base core is free. -/
theorem CcRan.rebase {s t s0 : State} {h : Hdr} {toks : List (Nat × Nat)} {base base' : Core} {tx : List Nat} {p : Word} {q : List Peel}
    (r : CcRan s t h toks base tx p s0) (hb : base = { base' with peel := q }) : CcRan s t h toks base' tx p s0 := by
  subst hb
  exact ⟨r.only, r.frame, r.tokens, r.pc⟩
theorem State.pushAll_me (s : State) (e : Word) (ps : List (Eng × Word)) :
    (s.pushAll s.cur e ps).me = { s.me.pushedAll e ps with peel := (s.pushAll s.cur e ps).me.peel } := by
  obtain ⟨a1, a2, -⟩ := s.pushAll_core s.cur e ps
  have hme : (s.pushAll s.cur e ps).me = (s.pushAll s.cur e ps).core s.cur := by rw [State.me, a1.cur]
  rw [hme]; exact a2

theorem ringEng_bad {k : Nat} {b : Bool} : (!ringEng k || b) = true ↔ k = 0 ∨ 5 < k ∨ b = true := by
  unfold ringEng
  cases b <;> simp

section
variable {s : State} {h : Hdr} {o : RR}

/-- PUSHQ and PUSHQN to a ring with space. -/
theorem pushq_pushes (m : CcMay s h [(o.a, o.la), (o.b, o.lb)] [] 0)
    (hg : ¬((s.rdS o.b).toNat % 8 = 0 ∨ 5 < (s.rdS o.b).toNat % 8 ∨ s.me.tendIssued = true))
    (hf : s.ringFree s.cur (engOfNum ((s.rdS o.b).toNat % 8)) ≠ 0) :
    CcDoes (.pushq h o) h [] (s.me.pushed (engOfNum ((s.rdS o.b).toNat % 8)) (s.ccCrd h [] 0) (s.rdS o.a)) [] (s.me.pc + 8) s s ∧
    ∃ t, exec (.pushqn h o) s = .next t ∧
      CcRan s t h [] (s.me.pushed (engOfNum ((s.rdS o.b).toNat % 8)) (s.ccCrd h [] 0) (s.rdS o.a)) [] (s.me.pc + 8) s ∧ Wrote s.me (t.core s.cur) o.d 0 := by
  have hroom := m.room
  have hg2 := fun h => hg (ringEng_bad.1 h)
  have hf2 : ¬((s.ringFree s.cur (engOfNum ((s.rdS o.b).toNat % 8)) == 0) = true) := by simpa using hf
  constructor
  · obtain ⟨t, ht, ran, hs⟩ := CcDoes.of_push m (.refl (execPushq h o s)) [(engOfNum ((s.rdS o.b).toNat % 8), s.rdS o.a)] (by simp; omega)
      (fun s1 _ => by dsimp only; rw [if_neg hg2, if_neg hf2]; rfl) (i := .pushq h o)
    exact ⟨t, ht, ran.rebase (s.pushAll_me _ _), hs⟩
  · have := ccWriteAt_ran m (packRR h 0x13 1 o) o.d 0 (s0 := s) (c0 := s.me) (k := 3) (tx := []) (p := s.me.pc + 8)
      (base := s.me.pushed (engOfNum ((s.rdS o.b).toNat % 8)) (s.ccCrd h [] 0) (s.rdS o.a))
      (body := fun e s' => if !ringEng ((s.rdS o.b).toNat % 8) || s.me.tendIssued then .fault fIllegal (packRR h 0x13 1 o)
        else if s.ringFree s.cur (engOfNum ((s.rdS o.b).toNat % 8)) == 0 then .done (s'.wrS o.d e 1)
        else .done ((s'.pushRing s.cur (engOfNum ((s.rdS o.b).toNat % 8)) e (s.rdS o.a)).wrS o.d e 0))
      (by omega) (by rw [Core.pushed_hold]; omega) (.inr (by simp)) rfl fun s1 i => by
        obtain ⟨ef, hs⟩ := i.pushEff (s.ccCrd h [] 0) [(engOfNum ((s.rdS o.b).toNat % 8), s.rdS o.a)]
        refine ⟨_, by rw [if_neg hg2, if_neg hf2]; rfl, ⟨ef.only, ?_, ef.pc, ef.tok, ef.log⟩, hs⟩
        have := ef.frame
        rw [s.pushAll_me] at this
        exact this
    exact this

/-- PUSHQ and PUSHQN refused, and at a full ring. -/
theorem pushq_refused (m : CcMay s h [(o.a, o.la), (o.b, o.lb)] [] 0)
    (hg : (s.rdS o.b).toNat % 8 = 0 ∨ 5 < (s.rdS o.b).toNat % 8 ∨ s.me.tendIssued = true) : RaisesIllegal (.pushq h o) h s ∧ RaisesIllegal (.pushqn h o) h s :=
  ⟨.of_body m (.refl (execPushq h o s)) fun s1 _ => if_pos (ringEng_bad.2 hg), .of_body m (.refl (execPushqn h o s)) fun s1 _ => if_pos (ringEng_bad.2 hg)⟩
theorem pushq_full (m : CcMay s h [(o.a, o.la), (o.b, o.lb)] [] 0)
    (hg : ¬((s.rdS o.b).toNat % 8 = 0 ∨ 5 < (s.rdS o.b).toNat % 8 ∨ s.me.tendIssued = true))
    (hf : s.ringFree s.cur (engOfNum ((s.rdS o.b).toNat % 8)) = 0) : exec (.pushq h o) s = .next s ∧ Computes (.pushqn h o) h o.d 1 s := by
  have hg2 := fun h => hg (ringEng_bad.1 h)
  have hf2 : (s.ringFree s.cur (engOfNum ((s.rdS o.b).toNat % 8)) == 0) = true := by simpa using hf
  refine ⟨exec_stalls m (.refl (execPushq h o s)) (fun e s1 => ?_), .of_body m (.refl (execPushqn h o s)) fun e s1 _ => ?_⟩
  all_goals dsimp only; rw [if_neg hg2, if_pos hf2]
end

/-! ### RINGCPY -/

/-- The words of a block are what raw loads of them return. -/
theorem blockWords_loads (s : State) (addr : Word) (n : Nat) (ws : List Word) (h : s.blockWords addr n = .inl ws) :
    ws.length = n ∧ ∀ j, j < n → ∃ ks, s.coreKeys s.cur (addr + 8 * BitVec.ofNat 64 j) 8 .r = .inl ks ∧ (addr + 8 * BitVec.ofNat 64 j).toNat % 8 = 0 ∧
      ws.getD j 0 = bitsOf 64 (s.loadBytes s.cur (addr + 8 * BitVec.ofNat 64 j) ks 0) := by
  induction n generalizing addr ws with
  | zero => rw [State.blockWords] at h; injection h with h; subst h; exact ⟨rfl, fun j hj => absurd hj (Nat.not_lt_zero j)⟩
  | succ n ih =>
    rw [State.blockWords] at h
    split at h
    case isTrue => cases h
    case isFalse ha =>
    split at h
    case h_1 => cases h
    case h_2 ks hk =>
    split at h
    case isTrue => cases h
    case isFalse hp =>
    split at h
    case h_1 => cases h
    case h_2 vs hv =>
    injection h with h
    subst h
    obtain ⟨hl, hw⟩ := ih _ _ hv
    refine ⟨by rw [List.length_cons, hl], fun j hj => ?_⟩
    cases j with
    | zero => exact ⟨ks, by simpa using hk, by simpa using ha, by simp⟩
    | succ j =>
      have hadd : addr + 8 * BitVec.ofNat 64 (j + 1) = addr + 8 + 8 * BitVec.ofNat 64 j := by
        rw [BitVec.ofNat_add, show (BitVec.ofNat 64 1 : Word) = 1 from rfl]; ring
      rw [hadd, List.getD_cons_succ]
      exact hw j (by omega)

/-- R336: what RINGCPY does with the words that it has left. -/
theorem ringcpyGo_fits {s1 : State} {n k : Nat} {e : Word} {ws : List Word} (h : ws.length ≤ s1.ringFree n (engOfNum k)) :
    ringcpyGo n k e ws s1 = .done (s1.pushAll n e (ws.map fun w => (engOfNum k, w))) := by
  unfold ringcpyGo
  rw [pushSome_eq, List.take_of_length_le h, List.drop_eq_nil_of_le h]
  rfl
theorem ringcpyGo_waits {s1 : State} {n k : Nat} {e : Word} {ws : List Word} (h : s1.ringFree n (engOfNum k) < ws.length) :
    ringcpyGo n k e ws s1 = .wait ((s1.pushAll n e ((ws.take (s1.ringFree n (engOfNum k))).map fun w => (engOfNum k, w))).modCore n fun c =>
      { c with ccWait := some (.ringcpy (ws.drop (s1.ringFree n (engOfNum k))) k) }) := by
  have hne : (ws.drop (s1.ringFree n (engOfNum k))).isEmpty = false := by
    rw [List.isEmpty_eq_false_iff, Ne, List.drop_eq_nil_iff]; omega
  unfold ringcpyGo
  rw [pushSome_eq]
  dsimp only
  rw [hne]
  rfl

/-- An instruction that waited and whose body then pushes words goes on after them. -/
theorem CcEnds.of_push {s : State} {h : Hdr} {i : Instr} {w : Word} {srcs : List (BitVec 6 × Bool)} {toks : List (Nat × Nat)} {body : Word → State → Body} {r : Result}
    (hw : s.me.ccWait.isSome = true) (m : CcMayEnd s h) (hr : r = ccWord h w srcs toks body s) (ps : List (Eng × Word))
    (hp : s.me.peel.length + 1 + 3 * ps.length ≤ 1024)
    (hb : ∀ s1, CcIssued s s1 s.me.cc.elast [] [] → body s.me.cc.elast s1 = .done (s1.pushAll s.cur s.me.cc.elast ps)) (hi : exec i s = r := by rfl) :
    CcEnds i h (s.pushAll s.cur s.me.cc.elast ps).me s s := by
  obtain ⟨s1, iss, -, -, hgo⟩ := ccWordAt_resumes (h := h) hw
  obtain ⟨ef, hs⟩ := iss.pushEff s.me.cc.elast ps
  obtain ⟨t, ht, ran, hst⟩ := ccFinish_ends hw iss ef rfl m hp (by rw [State.pushAll_hold]; have := m.room; omega)
  have hres : (s.pushAll s.cur s.me.cc.elast ps).me.resumeAt = s.me.resumeAt := by
    rw [State.pushAll_me]
    exact Core.pushedAll_keeps (·.resumeAt) (fun c eng e w => by cases eng <;> rfl) _ _ ps
  rw [hres] at ran
  exact ⟨t, by rw [hi, hr, ccWord, hgo, hb s1 iss, ht], ran, hst.trans hs⟩

/-- Settles O9: PUSHQ and PUSHQN push one word, RINGCPY the block that raw loads would read, as far as the ring has space. -/
theorem ringWords : Obligations.RingWords := by
  unfold Obligations.RingWords
  refine ⟨fun h o s m => ⟨pushq_refused m, pushq_full m, fun hg hf => ?_⟩, fun h o s m => ?_, fun h o s ws k hw me hp h1 h5 hf => ?_, blockWords_loads⟩
  · obtain ⟨hd, t, ht, ran, hw⟩ := pushq_pushes m hg hf
    exact ⟨⟨_, s.me.pushed_pushed .., hd⟩, _, t, s.me.pushed_pushed .., ht, ran, hw⟩
  · intro k eng n addr e bad after
    have hbad : (!ringEng k || s.me.tendIssued || 2 ^ (s.me.eng (engOfNum k)).ring.size.toNat < o.imm.toNat + 1 : Bool) = true ↔ bad := by
      rw [Bool.or_eq_true, ringEng_bad, decide_eq_true_iff, or_assoc, or_assoc]
    have hnb : ¬bad → (!ringEng k || s.me.tendIssued || 2 ^ (s.me.eng (engOfNum k)).ring.size.toNat < o.imm.toNat + 1 : Bool) = false := fun hg => by
      rw [Bool.eq_false_iff]; exact fun h => hg (hbad.1 h)
    have haddr : ringcpyAddr o s = addr := by unfold ringcpyAddr; simp only [beq_iff_eq]; rfl
    refine ⟨fun hg => ?_, fun f a hg hblk => ?_, fun ws hg hblk hfar hp => ?_⟩
    · refine Raises.of_body m (.refl (execRingcpy h o s)) fun s1 _ => ?_
      simp only [m.fresh]; rw [if_pos (hbad.2 hg)]; rfl
    · refine Raises.of_body m (.refl (execRingcpy h o s)) fun s1 _ => ?_
      simp only [m.fresh, haddr]; rw [if_neg (fun h => hg (hbad.1 h))]
      rw [← haddr] at hblk ⊢
      rw [hblk]
    · obtain ⟨hlen, -⟩ := blockWords_loads _ _ _ _ hblk
      have hb : ∀ s1, CcIssued s s1 (s.ccCrd h [] 0) (waitPresent (s.me.waitVal h) ++ []) [(o.a, o.la)] → s1.ringFree s.cur (engOfNum k) = s.ringFree s.cur eng :=
        fun s1 i => i.ringFree _
      have hf2 : s.clear s.me.barAll = true := hfar
      rw [← haddr] at hblk
      refine ⟨fun hfit => ?_, fun hfit => ?_⟩
      · have := CcDoes.of_push m (.refl (execRingcpy h o s)) (ws.map fun w => (eng, w)) (by rw [List.length_map, hlen]; omega) (fun s1 i => by
          simp only [m.fresh]
          rw [if_neg (fun h => hg (hbad.1 h)), hblk]
          simp only [hf2, Bool.not_true, Bool.false_eq_true, if_false]
          exact ringcpyGo_fits (by rw [hb s1 i, hlen]; exact hfit)) (i := .ringcpy h o)
        rwa [← State.pushAll_ring] at this
      · have := CcWaits.of_push m (.refl (execRingcpy h o s)) ((ws.take (s.ringFree s.cur eng)).map fun w => (eng, w)) (.ringcpy (ws.drop (s.ringFree s.cur eng)) k)
          (by rw [List.length_map, List.length_take, hlen]; omega) (fun s1 i => by
          simp only [m.fresh]
          rw [if_neg (fun h => hg (hbad.1 h)), hblk]
          simp only [hf2, Bool.not_true, Bool.false_eq_true, if_false]
          have := ringcpyGo_waits (s1 := s1) (n := s.cur) (k := k) (e := s.ccCrd h [] 0) (ws := ws) (by rw [hb s1 i, hlen]; exact hfit)
          rw [hb s1 i] at this
          exact this) (i := .ringcpy h o)
        rwa [← State.pushAll_ring] at this
  · have := CcEnds.of_push (by rw [hw]; rfl) me (.refl (execRingcpy h o s)) (ws.map fun w => (engOfNum k, w)) (by rw [List.length_map]; omega) (fun s1 i => by
      simp only [hw]
      exact ringcpyGo_fits (by rw [i.ringFree]; exact hf)) (i := .ringcpy h o)
    rwa [← State.pushAll_ring] at this

end Sys2Proof.Machine
end


section
/-! PROOFS of the TokenAndJoin statement (O10): wait sets and tokens, and the marker fence. -/

set_option Elab.async false

namespace Sys2Proof.Machine

/-! ### Words that change one token by their own effect -/

/-- Consumption leaves tags as they stand. -/
theorem State.consume_tag (s : State) (n : Nat) (f : Eng) (c : Word) (ts : List (Nat × Nat)) (j : Nat) :
    (((s.consume n f c ts).core n).tok.get {} j).tag = ((s.core n).tok.get {} j).tag := by
  induction ts generalizing s with
  | nil => rfl
  | cons x ts ih =>
    refine (ih _).trans ?_
    rw [s.tok_setTok, SMap.get_set]
    split
    case isTrue hj => rw [hj]
    case isFalse => rfl
/-- The state after the issue of a word. -/
def State.ccTaken (s : State) (h : Hdr) (toks : List (Nat × Nat)) (srcs : List (BitVec 6 × Bool)) : State :=
  s.ccIssue (s.ccCrd h toks 0) (waitPresent (s.me.waitVal h) ++ toks) (s.ccIds h toks) srcs
theorem CcMay.taken {s : State} {h : Hdr} {srcs : List (BitVec 6 × Bool)} {toks : List (Nat × Nat)} (m : CcMay s h srcs toks 0) :
    CcIssued s (s.ccTaken h toks srcs) (s.ccCrd h toks 0) (waitPresent (s.me.waitVal h) ++ toks) srcs :=
  s.ccIssue_issued _ _ _ _ m.need
theorem ccWord_go {s : State} {h : Hdr} {srcs : List (BitVec 6 × Bool)} {toks : List (Nat × Nat)} (m : CcMay s h srcs toks 0) (w : Word)
    (body : Word → State → Body) :
    ccWord h w srcs toks body s = ccFinish h (s.ccCrd h toks 0) s (body (s.ccCrd h toks 0) (s.ccTaken h toks srcs)) := ccWordAt_go m w body
theorem State.ccTaken_tag (s : State) (h : Hdr) (toks : List (Nat × Nat)) (srcs : List (BitVec 6 × Bool)) (j : Nat) :
    (((s.ccTaken h toks srcs).core s.cur).tok.get {} j).tag = (s.me.tok.get {} j).tag := by
  unfold State.ccTaken State.ccIssue
  rw [State.core_modCore_self]
  refine (State.consume_tag ..).trans ?_
  rw [(s.raiseElast_touch s.cur .cc _ _).tokens j (by simp)]
  rfl

/-- A signal that does not overflow raises the tag of its token. -/
theorem State.signal_tag (s : State) (n : Nat) (f : Eng) (sig : BitVec 8) (e : Word) (ids : List Nat) (slot : BitVec 16)
    (h : sig = 0 ∨ ((s.core n).tok.get {} sig.toNat).count.toNat < 0xFFFF) (j : Nat) :
    (((s.signal n f sig.toNat 1 e ids slot).core n).tok.get {} j).tag =
      if sig ≠ 0 ∧ j = sig.toNat then maxW ((s.core n).tok.get {} j).tag e else ((s.core n).tok.get {} j).tag := by
  unfold State.signal
  by_cases hz : sig = 0
  · subst hz; simp
  · have hn : sig.toNat ≠ 0 := fun e => hz (BitVec.eq_of_toNat_eq (by simpa using e))
    have hc := h.resolve_left hz
    have h2 : ¬ (0xFFFF < ((s.core n).tok.get {} sig.toNat).count.toNat + 1) := by omega
    simp only [beq_iff_eq, hn, if_false, h2, State.tok_setTok]
    by_cases hj : j = sig.toNat
    · subst hj; rw [SMap.get_set_self]; exact (if_pos ⟨hz, rfl⟩).symm
    · simp [hj, SMap.get_set_ne]
/-- The tag of a token once a word retires. -/
theorem State.ccRetire_tag (s : State) (sig : BitVec 8) (e : Word) (h : sig = 0 ∨ (s.me.tok.get {} sig.toNat).count.toNat < 0xFFFF) (j : Nat) :
    (((s.ccRetire false sig e).core s.cur).tok.get {} j).tag = if sig ≠ 0 ∧ j = sig.toNat then maxW (s.me.tok.get {} j).tag e else (s.me.tok.get {} j).tag := by
  have hc : ((s.retired s.cur).core s.cur).tok = s.me.tok := by rw [State.retired, State.core_modCore_self]; rfl
  have := (s.retired s.cur).signal_tag s.cur .cc sig e s.me.cc.before 0 (by rw [hc]; exact h) j
  rw [hc] at this
  exact this

section
variable {s : State} {h : Hdr} {srcs : List (BitVec 6 × Bool)} {i : Instr} {w : Word} {body : Word → State → Body} {r : Result}

/-- A word whose effect writes token `n`, as `x` of the state after issue, and that then signals: what the token holds in the end. -/
theorem ccSetTok_ran (m : CcMay s h srcs [] 0) (hr : r = ccWord h w srcs [] body s) (n : Nat) (x : Tok)
    (hb : body (s.ccCrd h [] 0) (s.ccTaken h [] srcs) = .done ((s.ccTaken h [] srcs).setTok s.cur .cc n (s.ccCrd h [] 0) x))
    (hx : x.count.toNat + (if h.sig ≠ 0 ∧ n = h.sig.toNat then 1 else 0) ≤ 0xFFFF) (hi : exec i s = r := by rfl) :
    ∃ t, exec i s = .next t ∧ CcRan s t h [] s.me [n] (s.me.pc + 8) s ∧ (t.core s.cur).s = s.me.s ∧
      ((t.core s.cur).tok.get {} n).count.toNat = x.count.toNat + (if h.sig ≠ 0 ∧ n = h.sig.toNat then 1 else 0) ∧
      ((t.core s.cur).tok.get {} n).tag = if h.sig ≠ 0 ∧ n = h.sig.toNat then maxW x.tag (s.ccCrd h [] 0) else x.tag := by
  have iss := m.taken
  have hgo := ccWord_go m w body
  rw [hb] at hgo
  generalize s.ccTaken h [] srcs = s1 at iss hgo
  have hcore : (s1.setTok s.cur .cc n (s.ccCrd h [] 0) x).core s.cur =
      { s1.core s.cur with tok := (s1.core s.cur).tok.set {} n x, peel := ((s1.setTok s.cur .cc n (s.ccCrd h [] 0) x).core s.cur).peel } := by
    unfold State.setTok
    rw [State.core_modCore_self, (State.log_logged ..).core]
  have ef : CcEff s s1 (s1.setTok s.cur .cc n (s.ccCrd h [] 0) x) s.cur 1 s.me [n] (s.me.pc + 8) := by
    have t := s1.setTok_touch s.cur .cc .cc n (s.ccCrd h [] 0) x
    refine ⟨iss.only.trans t.only, ?_, by rw [hcore]; exact iss.pc, fun j hj => t.tokens j hj, t.log⟩
    rw [hcore]; have := iss.frame; unfold CcFrame at *; rw [this]
  have hroom := m.room
  have hsig : h.sig = 0 ∨ (((s1.setTok s.cur .cc n (s.ccCrd h [] 0) x).core s.cur).tok.get {} h.sig.toNat).count.toNat < 0xFFFF := by
    by_cases hz : h.sig = 0
    · exact .inl hz
    · right
      by_cases hn : n = h.sig.toNat
      · have := hx
        rw [if_pos ⟨hz, hn⟩] at this
        rw [hcore, ← hn]
        show (SMap.get {} (SMap.set {} _ n x) n).count.toNat < _
        rw [SMap.get_set_self]; omega
      · rw [ef.tok _ (by simpa using fun h => hn h.symm), iss.here]
        have := iss.count h.sig.toNat
        have := m.signal.resolve_left hz
        omega
  obtain ⟨t, ht, rt, ran⟩ := ccFinish_done iss ef rfl m.fresh (by simp; omega) (by omega) hsig
  have hget : ((s1.setTok s.cur .cc n (s.ccCrd h [] 0) x).core s.cur).tok.get {} n = x := by rw [hcore]; exact SMap.get_set_self ..
  refine ⟨t, by rw [hi, hr, hgo, ht], ran, by rw [rt.core, hcore]; exact iss.regs, by rw [rt.count, hget], ?_⟩
  have hcur : (s1.setTok s.cur .cc n (s.ccCrd h [] 0) x).cur = s.cur := ef.only.cur
  have hfin := ht.symm.trans (ccFinish_done_eq h (s.ccCrd h [] 0) s _ (ef.fits iss rfl (by
    have := waitPresent_length (s.me.waitVal h); rw [List.length_append]; simp; omega) (by omega)))
  rw [m.fresh] at hfin
  injection hfin with hfin
  have htag := State.ccRetire_tag (s1.setTok s.cur .cc n (s.ccCrd h [] 0) x) h.sig (s.ccCrd h [] 0) (by rw [State.me, hcur]; exact hsig) n
  rw [State.me, hcur, hget] at htag
  rw [hfin]
  exact htag
end

/-- A signal that does not overflow leaves the coordinate of the core. -/
theorem State.ccRetire_elast (s : State) (sig : BitVec 8) (e : Word) (h : sig = 0 ∨ (s.me.tok.get {} sig.toNat).count.toNat < 0xFFFF) :
    ((s.ccRetire false sig e).core s.cur).cc.elast = s.me.cc.elast := by
  have hc : (s.retired s.cur).core s.cur = { s.me with idle := s.cycle, hung := false } := by rw [State.retired, State.core_modCore_self]; rfl
  have := (s.retired s.cur).signal_eng s.cur .cc sig e s.me.cc.before 0 (by rw [hc]; exact h) .cc
  rw [hc] at this
  exact congrArg EngSt.elast this
/-- The coordinate that an issued word leaves its core at. -/
theorem State.ccTaken_elast (s : State) (h : Hdr) (toks : List (Nat × Nat)) (srcs : List (BitVec 6 × Bool)) :
    ((s.ccTaken h toks srcs).core s.cur).cc.elast = maxW s.me.cc.elast (s.ccCrd h toks 0) := by
  unfold State.ccTaken State.ccIssue
  rw [State.core_modCore_self]
  have hc := State.consume_eng (s.raiseElast s.cur .cc (s.ccCrd h toks 0) s.me.pc) s.cur .cc (s.ccCrd h toks 0) (waitPresent (s.me.waitVal h) ++ toks) .cc
  refine (congrArg EngSt.elast hc).trans ?_
  unfold maxW
  cases hlt : s.me.cc.elast.ult (s.ccCrd h toks 0) with
  | true => rw [State.raiseElast_elast _ _ _ _ _ (by simp [BitVec.ult_eq_decide] at hlt; exact Nat.le_of_lt hlt)]; rfl
  | false => unfold State.raiseElast; rw [if_neg (by rw [show ((s.core s.cur).eng Eng.cc).elast = s.me.cc.elast from rfl, hlt]; simp)]; rfl
/-- An instruction whose body, from the state after its issue, writes one register. -/
theorem Computes.of_taken {s : State} {h : Hdr} {srcs : List (BitVec 6 × Bool)} {i : Instr} {w : Word} {body : Word → State → Body} {r : Result}
    (m : CcMay s h srcs [] 0) (hr : r = ccWord h w srcs [] body s) {d : BitVec 6} {v : Word}
    (hb : body (s.ccCrd h [] 0) (s.ccTaken h [] srcs) = .done ((s.ccTaken h [] srcs).wrS d (s.ccCrd h [] 0) v)) (hi : exec i s = r := by rfl) :
    Computes i h d v s := by
  have iss := m.taken
  have hgo := ccWord_go m w body
  rw [hb] at hgo
  generalize s.ccTaken h [] srcs = s1 at iss hgo
  obtain ⟨x, wr⟩ := s1.wrSOf_step s.cur d (s.ccCrd h [] 0) v
  have hu : s1.wrS d (s.ccCrd h [] 0) v = s1.wrSOf s.cur d (s.ccCrd h [] 0) v := by rw [State.wrS, iss.only.cur]
  rw [hu] at hgo
  have ef := iss.eff x
  have hroom := m.room
  obtain ⟨t, ht, rt, ran⟩ := ccFinish_done iss ef rfl m.fresh (by simp; omega) (by omega) (m.signal.imp id fun hc => by
    have := iss.count h.sig.toNat
    rw [x.tok, iss.here]; omega)
  exact ⟨t, by rw [hi, hr, hgo, ht], ran, .through iss wr rt⟩

theorem maxW_self (a : Word) : maxW a a = a := by
  unfold maxW; split <;> rfl
theorem maxW_maxW_right (a b : Word) : maxW (maxW a b) b = maxW a b := by
  apply BitVec.eq_of_toNat_eq
  rw [maxW_toNat, maxW_toNat]
  exact Nat.max_eq_left (Nat.le_max_right _ _)

/-! ### The token words (R337, R338) -/

section
variable {s : State} {h : Hdr} {o : SY}

/-- WSET writes the entry that R172 allows. -/
theorem wset_sets (m : CcMay s h [(o.a, o.la)] [] 0) :
    if waitOk (s.rdS o.a) then CcDoes (.wset h o) h [] { s.me with wset := s.me.wset.set 0 o.sel.toNat (s.rdS o.a) } [] (s.me.pc + 8) s s
    else RaisesIllegal (.wset h o) h s := by
  split
  case isTrue hk =>
    refine CcDoes.of_mod m (.refl (execWset h o s)) (fun c => { c with wset := c.wset.set 0 o.sel.toNat (s.rdS o.a) }) rfl
      ⟨fun x h => by unfold CcFrame at *; rw [h], fun _ => rfl, fun _ => rfl⟩ (fun _ => rfl) fun s1 i => ?_
    have x := s1.log_step s.cur { kind := 4, addr := BitVec.ofNat 48 (0x2000 + o.sel.toNat), crd := s.ccCrd h [] 0, old := (s.me.wset.get 0 o.sel.toNat).setWidth 256 }
    refine ⟨_, ?_, x.trans (.refl _ _ 7), (s1.log_s ..).trans i.regs, x.pc.trans i.pc⟩
    rw [hk]
    rfl
  case isFalse hk =>
    refine Raises.of_body m (.refl (execWset h o s)) fun s1 _ => if_pos ?_
    rw [Bool.not_eq_true']; exact Bool.eq_false_iff.2 hk

/-- TSET: count and tag. -/
theorem tset_sets (m : CcMay s h [(o.a, o.la)] [] 0)
    (hc : ((s.rdS o.a).setWidth 16).toNat + (if h.sig ≠ 0 ∧ o.sel.toNat = h.sig.toNat then 1 else 0) ≤ 0xFFFF) :
    ∃ t, exec (.tset h o) s = .next t ∧ CcRan s t h [] s.me [o.sel.toNat] (s.me.pc + 8) s ∧ (t.core s.cur).s = s.me.s ∧
      ((t.core s.cur).tok.get {} o.sel.toNat).count.toNat = ((s.rdS o.a).setWidth 16).toNat + (if h.sig ≠ 0 ∧ o.sel.toNat = h.sig.toNat then 1 else 0) ∧
      ((t.core s.cur).tok.get {} o.sel.toNat).tag = s.ccCrd h [] 0 := by
  obtain ⟨t, ht, ran, hs, hcount, htag⟩ := ccSetTok_ran m (.refl (execTset h o s)) o.sel.toNat
    { count := (s.rdS o.a).setWidth 16, tag := s.ccCrd h [] 0, before := (s.ccTaken h [] [(o.a, o.la)]).me.cc.before } rfl hc (i := .tset h o)
  exact ⟨t, ht, ran, hs, hcount, by rw [htag, maxW_self, ite_self]⟩

/-- TINC adds to the count and raises the tag. -/
theorem tinc_adds (m : CcMay s h [] [] 0) (hn : o.sel.toNat ≠ 0)
    (hc : (s.me.tok.get {} o.sel.toNat).count.toNat + o.imm.toNat + (if h.sig ≠ 0 ∧ o.sel.toNat = h.sig.toNat then 1 else 0) ≤ 0xFFFF) :
    ∃ t, exec (.tinc h o) s = .next t ∧ CcRan s t h [] s.me [o.sel.toNat] (s.me.pc + 8) s ∧ (t.core s.cur).s = s.me.s ∧
      ((t.core s.cur).tok.get {} o.sel.toNat).count.toNat + tokNeed (waitPresent (s.me.waitVal h)) o.sel.toNat =
        (s.me.tok.get {} o.sel.toNat).count.toNat + o.imm.toNat + (if h.sig ≠ 0 ∧ o.sel.toNat = h.sig.toNat then 1 else 0) ∧
      ((t.core s.cur).tok.get {} o.sel.toNat).tag = maxW (s.me.tok.get {} o.sel.toNat).tag (s.ccCrd h [] 0) := by
  have iss := m.taken
  obtain ⟨old, hold⟩ : ∃ old, old = ((s.ccTaken h [] []).core s.cur).tok.get {} o.sel.toNat := ⟨_, rfl⟩
  have hcount : old.count.toNat + tokNeed (waitPresent (s.me.waitVal h)) o.sel.toNat = (s.me.tok.get {} o.sel.toNat).count.toNat := by
    have := iss.count o.sel.toNat
    rw [List.append_nil] at this
    rw [hold, iss.here]; exact this
  have htag : old.tag = (s.me.tok.get {} o.sel.toNat).tag := by rw [hold, State.ccTaken_tag]
  obtain ⟨x, hx⟩ : ∃ x : Tok, x = { count := old.count + BitVec.ofNat 16 o.imm.toNat, tag := maxW old.tag (s.ccCrd h [] 0),
                                    floor := if (s.ccTaken h [] []).logs s.cur (s.ccCrd h [] 0) then old.floor else maxW old.floor (s.ccCrd h [] 0),
                                    before := mergeIds old.before (s.ccTaken h [] []).me.cc.before } := ⟨_, rfl⟩
  have himm := o.imm.isLt
  have hxc : x.count.toNat = old.count.toNat + o.imm.toNat := by
    rw [hx]
    show (old.count + BitVec.ofNat 16 o.imm.toNat).toNat = _
    rw [BitVec.toNat_add, BitVec.toNat_ofNat, Nat.mod_eq_of_lt (by omega : o.imm.toNat < 2 ^ 16), Nat.mod_eq_of_lt (by omega)]
  obtain ⟨t, ht, ran, hs, hct, htg⟩ := ccSetTok_ran m (.refl (execTinc h o s)) o.sel.toNat x (by
      unfold State.signal
      have hov : ¬(0xFFFF < old.count.toNat + o.imm.toNat) := by omega
      rw [if_neg (by simpa using hn), ← hold]
      simp only [hov, if_false, hx]) (by rw [hxc]; omega) (i := .tinc h o)
  refine ⟨t, ht, ran, hs, by rw [hct, hxc]; omega, ?_⟩
  rw [htg, hx, ← htag]
  split
  · exact maxW_maxW_right ..
  · rfl

/-- TRD reads the counter after its own wait set has been consumed. -/
theorem trd_reads (m : CcMay s h [] [] 0) : ∃ v, Computes (.trd h o) h o.d v s ∧
    if o.imm.getLsbD 0 then v = (s.me.tok.get {} o.sel.toNat).tag
    else v.toNat + tokNeed (waitPresent (s.me.waitVal h)) o.sel.toNat = (s.me.tok.get {} o.sel.toNat).count.toNat := by
  have iss := m.taken
  have hcount := iss.count o.sel.toNat
  have htag := s.ccTaken_tag h [] [] o.sel.toNat
  rw [List.append_nil] at hcount
  rw [iss.here] at htag
  refine ⟨_, Computes.of_taken m (.refl (execTrd h o s)) rfl, ?_⟩
  cases hb : o.imm.getLsbD 0 with
  | true => rw [if_pos rfl]; exact htag
  | false =>
    rw [if_neg (by simp)]
    show (BitVec.setWidth 64 ((s.ccTaken h [] []).me.tok.get {} o.sel.toNat).count).toNat + _ = _
    rw [BitVec.toNat_setWidth_of_le (by omega)]
    exact hcount

/-- TDEC consumes its token and takes the tag into the coordinate. -/
theorem tdec_consumes (m : CcMay s h [] [(o.sel.toNat, o.imm.toNat)] 0) :
    ∃ t, exec (.tdec h o) s = .next t ∧ CcRan s t h [(o.sel.toNat, o.imm.toNat)] s.me [] (s.me.pc + 8) s ∧ (t.core s.cur).s = s.me.s ∧
      (t.core s.cur).cc.elast = maxW s.me.cc.elast (s.ccCrd h [(o.sel.toNat, o.imm.toNat)] 0) := by
  obtain ⟨t, ht, ran, hs⟩ := ccNop_ran m (packSY h 0x16 1 o)
  refine ⟨t, ht, ran, hs, ?_⟩
  have hgo := ccWord_go m (packSY h 0x16 1 o) fun _ s' => .done s'
  have iss := m.taken
  have hel := s.ccTaken_elast h [(o.sel.toNat, o.imm.toNat)] []
  rw [ht] at hgo
  generalize s.ccTaken h [(o.sel.toNat, o.imm.toNat)] [] = s1 at iss hgo hel
  have hroom := m.room
  have ef : CcEff s s1 s1 s.cur 0 s.me [] (s.me.pc + 8) := iss.eff (.refl ..)
  have hl := waitPresent_length (s.me.waitVal h)
  rw [ccFinish_done_eq _ _ _ _ (ef.fits iss rfl (by rw [List.length_append]; omega) (by omega)), m.fresh] at hgo
  injection hgo with hgo
  have hret := s1.ccRetire_elast h.sig (s.ccCrd h [(o.sel.toNat, o.imm.toNat)] 0) (m.signal.imp id fun hc => by
    have := iss.count h.sig.toNat
    omega)
  rw [iss.only.cur] at hret
  have hel1 : s1.me.cc.elast = maxW s.me.cc.elast (s.ccCrd h [(o.sel.toNat, o.imm.toNat)] 0) := by rw [State.me, iss.only.cur]; exact hel
  rw [hgo]
  exact hret.trans hel1

/-- R148, R150: a user-class fault of a core whose handler is set and not running enters it. -/
theorem State.raise_enters (s : State) (n : Nat) (eng : Eng) (code : BitVec 8) (val e : Word) (before : Bool) (slot : BitVec 16)
    (hcls : faultClass code = 0) (hp : code ≠ fPriv) (hv : (s.core n).tvec ≠ 0) (hi : tcInh (s.core n).tcause = false)
    (ht : isSup n = true ∨ ∃ k, (s.core n).task = some k ∧ k.ended = false ∧ (s.ctx (s.core n).cid).st = .live) :
    s.raise n eng code val e before slot = s.trapEnter n eng code val e before slot := by
  have hb : (code == fIncBusy) = false := by
    rw [beq_eq_false_iff_ne]
    rintro rfl
    exact absurd hcls (by decide)
  have hpb : (code == fPriv) = false := by simpa using hp
  have hvb : ((s.core n).tvec == 0) = false := by simpa using hv
  have htb : (!isSup n && (match (s.core n).task with | none => true | some t => t.ended || (s.ctx (s.core n).cid).st != .live)) = false := by
    rcases ht with ht | ⟨k, hk, hend, hlive⟩
    · rw [ht]; rfl
    · rw [hk]; simp [hend, hlive]
  unfold State.raise State.raiseFrom
  simp only [hb, hpb, hcls, hvb, hi, Bool.false_and, Bool.false_eq_true, if_false, Bool.false_or]
  have h2 : ((0 : BitVec 2) == 2) = false := by decide
  have h1 : ((0 : BitVec 2) == 1) = false := by decide
  simp only [h2, h1, Bool.false_and, Bool.false_eq_true, if_false]
  rw [if_neg]
  rw [Bool.not_eq_true]
  exact htb
/-- What entry to the handler leaves of the core that enters it. -/
theorem State.trapEnter_core (s : State) (n : Nat) (eng : Eng) (code : BitVec 8) (val e : Word) (before : Bool) (slot : BitVec 16) :
    CoreOnly s (s.trapEnter n eng code val e before slot) n ∧
    ((s.trapEnter n eng code val e before slot).core n).tok = (s.core n).tok ∧
    ((s.trapEnter n eng code val e before slot).core n).peel = (s.core n).peel ∧
    ((s.trapEnter n eng code val e before slot).core n).hold = (s.core n).hold ∧
    ((s.trapEnter n eng code val e before slot).core n).pc = (s.core n).tvec ∧
    ((s.trapEnter n eng code val e before slot).core n).tval = val ∧
    ((s.trapEnter n eng code val e before slot).core n).tepc =
      (if (s.core n).ccWait.isSome && !(eng == .cc && before) then (s.core n).pc + 8 else (s.core n).pc) ∧
    ((s.trapEnter n eng code val e before slot).core n).tcause =
      (code.setWidth 64) ||| (BitVec.ofNat 64 eng.num <<< 8) ||| (1#64 <<< 11) |||
        ((if eng == .cc then 0 else (slot &&& BitVec.ofNat 16 (2 ^ ((s.core n).eng eng).ring.size.toNat - 1)).setWidth 12 : BitVec 12).setWidth 64 <<< 16) := by
  refine ⟨.modCore .., ?_⟩
  unfold State.trapEnter
  rw [State.core_modCore_self]
  exact ⟨rfl, rfl, rfl, rfl, rfl, rfl, rfl⟩

/-- R171: a signal past 0xFFFF leaves the count there, and raises TOK_OVF after the word. -/
theorem State.signal_overflows (s : State) (n : Nat) (f : Eng) {t k : Nat} (ht : t ≠ 0) (e : Word) (ids : List Nat) (slot : BitVec 16)
    (hov : 0xFFFF < ((s.core n).tok.get {} t).count.toNat + k) :
    ∃ x : Tok, x.count = 0xFFFF ∧ s.signal n f t k e ids slot = (s.setTok n f t e x).raise n f fTokOvf (BitVec.ofNat 64 t) e false slot := by
  refine ⟨{ count := 0xFFFF, tag := maxW ((s.core n).tok.get {} t).tag e,
            floor := if s.logs n e then ((s.core n).tok.get {} t).floor else maxW ((s.core n).tok.get {} t).floor e,
            before := mergeIds ((s.core n).tok.get {} t).before ids }, rfl, ?_⟩
  unfold State.signal
  rw [if_neg (by simpa using ht)]
  simp only [hov, if_true]

/-- TINC past 0xFFFF: the count stays there, and the handler is entered with TOK_OVF, after the word. -/
theorem tinc_overflows (m : CcMay s h [] [] 0) (hn : o.sel.toNat ≠ 0) (hs : h.sig = 0) (hw : tokNeed (waitPresent (s.me.waitVal h)) o.sel.toNat = 0)
    (hc : 0xFFFF < (s.me.tok.get {} o.sel.toNat).count.toNat + o.imm.toNat) (hv : s.me.tvec ≠ 0) (hi : tcInh s.me.tcause = false)
    (ht : isSup s.cur = true ∨ ∃ k, s.me.task = some k ∧ k.ended = false ∧ (s.ctx s.me.cid).st = .live) :
    ∃ t, exec (.tinc h o) s = .next t ∧ ((t.core s.cur).tok.get {} o.sel.toNat).count = 0xFFFF ∧ (t.core s.cur).pc = s.me.tvec ∧
      (t.core s.cur).tcause = 0x80E ∧ (t.core s.cur).tval = BitVec.ofNat 64 o.sel.toNat ∧ (t.core s.cur).tepc = s.me.pc + 8 := by
  have iss := m.taken
  have hgo : exec (.tinc h o) s = _ := ccWord_go m (packSY h 0x16 0 o) fun e s' => .done (s'.signal s.cur .cc o.sel.toNat o.imm.toNat e s'.me.cc.before 0)
  generalize s.ccTaken h [] [] = s1 at iss hgo
  have hcount := iss.count o.sel.toNat
  rw [List.append_nil, hw, Nat.add_zero] at hcount
  rw [← iss.here] at hcount
  have hov : 0xFFFF < ((s1.core s.cur).tok.get {} o.sel.toNat).count.toNat + o.imm.toNat := by omega
  obtain ⟨x, hxc, hx⟩ := s1.signal_overflows s.cur .cc hn (s.ccCrd h [] 0) s1.me.cc.before 0 hov
  have t1 := s1.setTok_touch s.cur .cc .cc o.sel.toNat (s.ccCrd h [] 0) x
  have htok := s1.tok_setTok s.cur .cc o.sel.toNat (s.ccCrd h [] 0) x
  have hcore : (s1.setTok s.cur .cc o.sel.toNat (s.ccCrd h [] 0) x).core s.cur = { s1.me with tok := ((s1.setTok s.cur .cc o.sel.toNat (s.ccCrd h [] 0) x).core s.cur).tok, peel := ((s1.setTok s.cur .cc o.sel.toNat (s.ccCrd h [] 0) x).core s.cur).peel } := by
    unfold State.setTok
    rw [State.core_modCore_self, (State.log_logged ..).core, iss.here]
  generalize s1.setTok s.cur .cc o.sel.toNat (s.ccCrd h [] 0) x = s2 at hx t1 htok hcore
  have hreg : (s2.core s.cur).tvec = s.me.tvec ∧ (s2.core s.cur).tcause = s.me.tcause ∧ (s2.core s.cur).task = s.me.task ∧ (s2.core s.cur).cid = s.me.cid ∧
      (s2.core s.cur).hold = s.me.hold ∧ (s2.core s.cur).pc = s.me.pc + 8 ∧ (s2.core s.cur).ccWait = none := by
    rw [hcore, iss.core, m.fresh]; exact ⟨rfl, rfl, rfl, rfl, rfl, rfl, rfl⟩
  obtain ⟨htv, htc, htk, hcid, hhold, hpc, hwt⟩ := hreg
  have hctx : s2.ctx s.me.cid = s.ctx s.me.cid := (iss.only.trans t1.only).ctx _
  rw [hx, s2.raise_enters s.cur .cc fTokOvf _ _ false 0 (by decide) (by decide) (by rw [htv]; exact hv) (by rw [htc]; exact hi)
    (by rw [htk, hcid, hctx]; exact ht)] at hgo
  obtain ⟨e1, etok, epeel, ehold, epc, etval, etepc, etcause⟩ := s2.trapEnter_core s.cur .cc fTokOvf (BitVec.ofNat 64 o.sel.toNat) (s.ccCrd h [] 0) false 0
  generalize s2.trapEnter s.cur .cc fTokOvf (BitVec.ofNat 64 o.sel.toNat) (s.ccCrd h [] 0) false 0 = s3 at hgo e1 etok epeel ehold epc etval etepc etcause
  have hcur : s3.cur = s.cur := ((iss.only.trans t1.only).trans e1).cur
  have hroom := m.room
  have hfits : s3.me.fits = true := by
    have := t1.log
    have := iss.log
    have := waitPresent_length (s.me.waitVal h)
    rw [iss.here] at *
    unfold Core.fits
    rw [State.me, hcur, epeel, ehold, hhold, Bool.and_eq_true, decide_eq_true_eq, decide_eq_true_eq]
    simp only [List.append_nil, List.length_nil] at *
    exact ⟨by omega, by omega⟩
  rw [ccFinish_done_eq _ _ _ _ hfits, m.fresh] at hgo
  have r := s3.ccRetire_retired h.sig (s.ccCrd h [] 0) (.inl hs)
  rw [hcur] at r
  refine ⟨_, hgo, ?_, ?_, ?_, ?_, ?_⟩
  · have hcount2 := r.count o.sel.toNat
    rw [hs, if_neg (fun h => h.1 rfl), Nat.add_zero, etok, htok, SMap.get_set_self] at hcount2
    rw [← hxc, hs]; exact BitVec.eq_of_toNat_eq hcount2
  · exact (congrArg Core.pc r.core).trans (epc.trans htv)
  · refine (congrArg Core.tcause r.core).trans (etcause.trans ?_)
    rw [if_pos (by decide)]
    decide
  · exact (congrArg Core.tval r.core).trans etval
  · refine (congrArg Core.tepc r.core).trans (etepc.trans ?_)
    rw [hwt]; exact hpc
end

/-! ### JOIN (R175, R339) -/

/-- An instruction that waited, and whose body then does `u` and changes its core by `f`, goes on with that core. -/
theorem CcEnds.of_mod {s : State} {h : Hdr} {i : Instr} {w : Word} {srcs : List (BitVec 6 × Bool)} {toks : List (Nat × Nat)} {body : Word → State → Body} {r : Result}
    {base : Core} (hw : s.me.ccWait.isSome = true) (m : CcMayEnd s h) (hr : r = ccWord h w srcs toks body s) (f : Core → Core) (hh : base.hold = s.me.hold)
    (hres : base.resumeAt = s.me.resumeAt) (fm : FrameMap s.me base f) (hs : ∀ x, (f x).s = x.s)
    (hb : ∀ s1, CcIssued s s1 s.me.cc.elast [] [] → ∃ u, body s.me.cc.elast s1 = .done (u.modCore s.cur f) ∧ CcStep s1 u s.cur 8 ∧ (u.core s.cur).s = s.me.s ∧
      (f (u.core s.cur)).pc = s.me.pc + 8) (hi : exec i s = r := by rfl) : CcEnds i h base s s := by
  obtain ⟨s1, iss, -, -, hgo⟩ := ccWordAt_resumes (h := h) hw
  obtain ⟨u, hd, x, hu, hp⟩ := hb s1 iss
  have hroom := m.room
  obtain ⟨t, ht, ran, hst⟩ := ccFinish_ends hw iss (iss.modEff x fm hp) rfl m (by omega) (by rw [hh]; omega)
  rw [hres] at ran
  exact ⟨t, by rw [hi, hr, ccWord, hgo, hd, ht], ran, by rw [hst, State.core_modCore_self, hs, hu]⟩

/-- A push changes no pointer of another ring. -/
theorem Core.pushed_eng_ne (c : Core) {eng f : Eng} (h : f ≠ eng) (e w : Word) : (c.pushed eng e w).eng f = c.eng f := by
  cases eng <;> cases f <;> first | rfl | exact absurd rfl h
theorem State.pushRing_eng_ne (s : State) (n : Nat) {eng f : Eng} (h : f ≠ eng) (e w : Word) :
    ((s.pushRing n eng e w).core n).eng f = (s.core n).eng f := by
  rw [(s.pushRing_core n eng e w).2.1]
  have := (s.core n).pushed_eng_ne h e w
  revert this
  cases f <;> exact id
theorem engOfNum_inj {a b : Nat} (ha : 1 ≤ a ∧ a ≤ 5) (hb : 1 ≤ b ∧ b ≤ 5) (h : engOfNum a = engOfNum b) : a = b := by
  obtain ⟨ha1, ha5⟩ := ha
  obtain ⟨hb1, hb5⟩ := hb
  interval_cases a <;> interval_cases b <;> first | rfl | exact absurd h (by decide)

/-- The marks of engines whose rings have space are pushed in order. -/
theorem pushMarks_eq (n : Nat) (e : Word) (ks : List Nat) (ms : List (Nat × BitVec 16)) (s : State) (hnd : ks.Nodup) (hr : ∀ k ∈ ks, 1 ≤ k ∧ k ≤ 5)
    (hf : ∀ k ∈ ks, s.ringFree n (engOfNum k) ≠ 0) :
    pushMarks n e ks ms s = (s.pushAll n e (ks.map fun k => (engOfNum k, markWord)), [], ms ++ ks.map fun k => (k, ((s.core n).eng (engOfNum k)).ring.tail)) := by
  induction ks generalizing ms s with
  | nil => simp [pushMarks, State.pushAll]
  | cons k ks ih =>
    obtain ⟨hk, hnd⟩ := List.nodup_cons.mp hnd
    have hne : ∀ j ∈ ks, engOfNum j ≠ engOfNum k := fun j hj he =>
      hk (engOfNum_inj (hr j (List.mem_cons_of_mem _ hj)) (hr k List.mem_cons_self) he ▸ hj)
    have hsame : ∀ j ∈ ks, ((s.pushRing n (engOfNum k) e markWord).core n).eng (engOfNum j) = (s.core n).eng (engOfNum j) := fun j hj =>
      s.pushRing_eng_ne n (hne j hj) e markWord
    rw [pushMarks, if_neg (by simpa using hf k List.mem_cons_self), ih _ _ hnd (fun j hj => hr j (List.mem_cons_of_mem _ hj)) fun j hj => by
      unfold State.ringFree; rw [hsame j hj]; exact hf j (List.mem_cons_of_mem _ hj)]
    have hmap : (ks.map fun j => (j, (((s.pushRing n (engOfNum k) e markWord).core n).eng (engOfNum j)).ring.tail)) =
        ks.map fun j => (j, ((s.core n).eng (engOfNum j)).ring.tail) := List.map_congr_left fun j hj => by rw [hsame j hj]
    rw [hmap, List.append_assoc]
    rfl

/-- A push moves the HEAD of no ring. -/
theorem Core.pushedAll_head (c : Core) (e : Word) (ps : List (Eng × Word)) (f : Eng) : ((c.pushedAll e ps).eng f).ring.head = (c.eng f).ring.head :=
  Core.pushedAll_keeps (fun c => (c.eng f).ring.head) (fun c eng e w => by cases eng <;> cases f <;> rfl) c e ps
/-- A position at or after HEAD has not retired. -/
theorem Core.not_retiredAt (c : Core) (eng : Eng) (p : BitVec 16) (h : ptrDiff p (c.eng eng).ring.head < 32768) : c.retiredAt eng p = false := by
  have hd : ptrDiff (c.eng eng).ring.head p = 0 ∨ 32768 ≤ ptrDiff (c.eng eng).ring.head p := by
    unfold ptrDiff at *
    bv_omega
  unfold Core.retiredAt
  rcases hd with h0 | h1
  · simp [h0]
  · simp [Nat.not_lt.2 h1]

section
variable {s : State} {h : Hdr} {o : SY}

theorem maskEngs_mem {m : BitVec 12} {k : Nat} (hk : k ∈ maskEngs m) : 1 ≤ k ∧ k ≤ 5 := by
  unfold maskEngs at hk
  obtain ⟨j, hj, rfl⟩ := List.mem_map.mp hk
  have := List.mem_range.mp (List.mem_filter.mp hj).1
  omega
theorem maskEngs_nodup (m : BitVec 12) : (maskEngs m).Nodup :=
  (List.nodup_range.filter _).map fun a b h => by simpa using h
theorem maskEngs_length (m : BitVec 12) : (maskEngs m).length ≤ 5 := by
  unfold maskEngs
  rw [List.length_map]
  exact (List.length_filter_le _ _).trans (by simp)

/-- JOIN pushes its marks and waits. -/
theorem join_waits (m : CcMay s h [] [] 0) (ht : s.me.tendIssued = false) (hp : s.me.peel.length + 20 ≤ 1024) (hne : maskEngs o.imm ≠ [])
    (hr : ∀ k ∈ maskEngs o.imm, s.ringFree s.cur (engOfNum k) ≠ 0 ∧ ptrDiff (s.me.eng (engOfNum k)).ring.tail (s.me.eng (engOfNum k)).ring.head < 32768) :
    CcWaits (.join h o) h (s.pushAll s.cur (s.ccCrd h [] 0) ((maskEngs o.imm).map fun k => (engOfNum k, markWord))).me
      (.join [] ((maskEngs o.imm).map fun k => (k, (s.me.eng (engOfNum k)).ring.tail))) s s := by
  have hl := maskEngs_length o.imm
  refine CcWaits.of_push m (.refl (execJoin h o s)) _ _ (by rw [List.length_map]; omega) (fun s1 i => ?_)
  have heng : ∀ f : Eng, ((s1.core s.cur).eng f).ring = (s.me.eng f).ring := fun f => by rw [i.here, i.core]; cases f <;> rfl
  have hemp : (maskEngs o.imm).isEmpty = false := by simpa using hne
  simp only [m.fresh, ht, hemp, Bool.or_self, Bool.false_eq_true, if_false]
  unfold joinGo
  rw [pushMarks_eq _ _ _ _ _ (maskEngs_nodup _) (fun k => maskEngs_mem) fun k hk => by rw [i.ringFree]; exact (hr k hk).1]
  dsimp only
  simp only [heng, List.nil_append]
  rw [if_neg]
  obtain ⟨k, hk⟩ := List.exists_mem_of_ne_nil _ hne
  intro hall
  have hall := (Bool.and_eq_true_iff.mp hall).2
  rw [List.all_eq_true] at hall
  have := hall (k, (s.me.eng (engOfNum k)).ring.tail) (List.mem_map.mpr ⟨k, hk, rfl⟩)
  rw [Core.not_retiredAt] at this
  · exact absurd this (by simp)
  · have hcore := (s1.pushAll_core s.cur (s.ccCrd h [] 0) ((maskEngs o.imm).map fun k => (engOfNum k, markWord))).2.1
    have hhead : (((s1.pushAll s.cur (s.ccCrd h [] 0) ((maskEngs o.imm).map fun k => (engOfNum k, markWord))).core s.cur).eng (engOfNum k)).ring.head =
        (s.me.eng (engOfNum k)).ring.head := by
      rw [← heng, hcore, ← (s1.core s.cur).pushedAll_head (s.ccCrd h [] 0) ((maskEngs o.imm).map fun k => (engOfNum k, markWord))]
      cases engOfNum k <;> rfl
    rw [hhead]
    exact (hr k hk).2

/-- JOIN ends when its marks have retired. -/
theorem join_ends {marks : List (Nat × BitVec 16)} (hw : s.me.ccWait = some (.join [] marks)) (m : CcMayEnd s h)
    (hr : ∀ x ∈ marks, s.me.retiredAt (engOfNum x.1) x.2 = true) : CcEnds (.join h o) h s.me s s := by
  refine CcEnds.of_mod (by rw [hw]; rfl) m (.refl (execJoin h o s)) (fun c => c.joinIds (marks.map (·.1))) rfl rfl
    ⟨fun x h => by unfold CcFrame Core.joinIds at *; rw [h], fun _ => rfl, fun _ => rfl⟩ (fun _ => rfl) fun s1 i => ⟨s1, ?_, .refl .., i.regs, i.pc⟩
  have heng : ∀ f : Eng, ((s1.core s.cur).eng f).ring = (s.me.eng f).ring ∧ ((s1.core s.cur).eng f).iss = (s.me.eng f).iss := fun f => by
    rw [i.here, i.core]; cases f <;> exact ⟨rfl, rfl⟩
  simp only [hw]
  unfold joinGo pushMarks
  dsimp only
  rw [if_pos]
  rw [List.isEmpty_nil, Bool.true_and, List.all_eq_true]
  intro x hx
  rw [← hr x hx]
  unfold Core.retiredAt
  dsimp only
  rw [(heng _).1, (heng _).2]
end

/-- Settles O10: the token words write one counter or entry, TDEC consumes, and JOIN pushes its marks and waits for them. -/
theorem tokenAndJoin : Obligations.TokenAndJoin := by
  unfold Obligations.TokenAndJoin
  refine ⟨fun h o s => ⟨fun m => ⟨wset_sets m, tset_sets m⟩, fun m => ⟨tinc_adds m, tinc_overflows m, trd_reads m⟩, tdec_consumes⟩,
    fun h o s m ht hp => ⟨fun he => ?_, fun hne hr => ?_⟩, fun h o s m ht => ?_, fun h o s marks hw m hr => join_ends hw m hr⟩
  · refine Raises.of_body m (.refl (execJoin h o s)) fun s1 _ => ?_
    simp only [m.fresh]
    rw [if_pos (by rw [Bool.or_eq_true, List.isEmpty_iff]; exact .inr he)]
    rfl
  · have := join_waits m ht hp hne hr
    rw [State.pushAll, List.foldl_map] at this
    exact this
  · refine Raises.of_body m (.refl (execJoin h o s)) fun s1 _ => ?_
    simp only [m.fresh]
    rw [if_pos (by rw [ht]; rfl)]
    rfl

end Sys2Proof.Machine
end


section
/-! PROOFS of the TileDescriptors statement (O11) and the PagesAndBuffers statement (O12): descriptor and tile-table words, page requests and circular buffers of the
control core. -/

set_option Elab.async false

namespace Sys2Proof.Machine

/-! ### Words that write scratchpad -/

/-- R186: a scratchpad write changes those bytes, and logs the granules that it touches. -/
theorem State.spadWrite_core (s : State) (n : Nat) (eng : Eng) (e : Word) (a : Nat) (bs : List Byte) :
    CoreOnly s (s.spadWrite n eng e a bs) n ∧
    (s.spadWrite n eng e a bs).core n = { s.core n with spad := putSpad (s.core n).spad a bs, peel := ((s.spadWrite n eng e a bs).core n).peel } ∧
    ((s.spadWrite n eng e a bs).core n).peel.length ≤ (s.core n).peel.length + (bs.length / 32 + 2) := by
  unfold State.spadWrite
  cases hb : bs with
  | nil => exact ⟨.refl s n, rfl, Nat.le_add_right _ _⟩
  | cons b t =>
    have l := State.logGranules_logged s n eng e a bs.length (a / 32) ((a + bs.length - 1) / 32 + 1 - a / 32)
    rw [hb] at l
    rw [if_neg (by simp)]
    generalize s.logGranules n eng e a (b :: t).length (a / 32) ((a + (b :: t).length - 1) / 32 + 1 - a / 32) = u at l
    refine ⟨l.only.trans (.modCore ..), by rw [State.core_modCore_self, l.core], ?_⟩
    rw [State.core_modCore_self]
    exact l.log.trans (by rw [List.length_cons]; omega)

/-- The effect of a word on its own core beside the peel log: `f` of the core, with `k` entries logged. -/
theorem CcIssued.coreEff {s s1 u : State} {e : Word} {ts : List (Nat × Nat)} {srcs : List (BitVec 6 × Bool)} {k : Nat} {base : Core} {f : Core → Core} {p : Word}
    (i : CcIssued s s1 e ts srcs) (ho : CoreOnly s1 u s.cur) (hc : u.core s.cur = { f (s1.core s.cur) with peel := (u.core s.cur).peel })
    (hl : (u.core s.cur).peel.length ≤ (s1.core s.cur).peel.length + k) (fm : FrameMap s.me base f) (hp : (f (s1.core s.cur)).pc = p) :
    CcEff s s1 u s.cur k base [] p := by
  refine ⟨i.only.trans ho, ?_, ?_, fun j _ => ?_, hl⟩
  · rw [hc]; exact ((fm.frame _ i.frame).peels base.peel _)
  · rw [hc]; exact hp
  · rw [hc]; exact congrArg (fun t => SMap.get {} t j) (fm.tok _)

section
variable {s : State} {h : Hdr} {srcs : List (BitVec 6 × Bool)} {i : Instr} {w : Word} {body : Word → State → Body} {r : Result}

/-- An instruction whose body changes its own core by `f`, with a few entries logged. -/
theorem CcDoes.of_core (m : CcMay s h srcs [] 0) (hr : r = ccWord h w srcs [] body s) {base : Core} (f : Core → Core) (hh : base.hold = s.me.hold)
    (fm : FrameMap s.me base f) (hs : ∀ x, (f x).s = x.s) (hp : ∀ x, (f x).pc = x.pc)
    (hb : ∀ s1, CcIssued s s1 (s.ccCrd h [] 0) (waitPresent (s.me.waitVal h) ++ []) srcs →
      ∃ u, body (s.ccCrd h [] 0) s1 = .done u ∧ CoreOnly s1 u s.cur ∧ u.core s.cur = { f (s1.core s.cur) with peel := (u.core s.cur).peel } ∧
        (u.core s.cur).peel.length ≤ (s1.core s.cur).peel.length + 8) (hi : exec i s = r := by rfl) :
    CcDoes i h [] base [] (s.me.pc + 8) s s := by
  obtain ⟨t, ht, x⟩ := ccDo_ran m w body (k := 8) (base := base) (tx := []) (p := s.me.pc + 8) (s0 := s) (by omega) (by have := m.room; rw [hh]; omega) (.inr (by simp)) rfl
    fun s1 iss => by
      obtain ⟨u, hd, ho, hc, hl⟩ := hb s1 iss
      exact ⟨u, hd, iss.coreEff ho hc hl fm ((hp _).trans iss.pc), by rw [hc]; exact (hs _).trans iss.regs⟩
  exact ⟨t, (hi.trans hr).trans ht, x⟩
/-- An instruction whose body writes scratchpad. -/
theorem CcDoes.of_spad (m : CcMay s h srcs [] 0) (hr : r = ccWord h w srcs [] body s) {eng : Eng} {a : Nat} {bs : List Byte} (hlen : bs.length ≤ 64)
    (hb : ∀ s1, body (s.ccCrd h [] 0) s1 = .done (s1.spadWrite s.cur eng (s.ccCrd h [] 0) a bs)) (hi : exec i s = r := by rfl) :
    CcDoes i h [] { s.me with spad := putSpad s.me.spad a bs } [] (s.me.pc + 8) s s :=
  .of_core m hr (fun c => { c with spad := putSpad c.spad a bs }) rfl ⟨fun x h => by unfold CcFrame at *; rw [h], fun _ => rfl, fun _ => rfl⟩ (fun _ => rfl)
    (fun _ => rfl) (hi := hi) fun s1 _ => by
      obtain ⟨h1, h2, h3⟩ := s1.spadWrite_core s.cur eng (s.ccCrd h [] 0) a bs
      exact ⟨_, hb s1, h1, h2, h3.trans (by omega)⟩
end

/-! ### Scratchpad operands (R185, R186) -/

/-- A range of `n` bytes that is aligned and inside the program area. -/
def SpadInside (a : Word) (n al : Nat) : Prop := a.toNat % al = 0 ∧ a.toNat + n ≤ 0x70000
/-- The value that SPAD_RANGE reports of a range. -/
def spadRangeVal (a : Word) (al : Nat) : Word := if a.toNat % al ≠ 0 then a else BitVec.ofNat 64 (Nat.max a.toNat spadEnd)

theorem State.spadChk_outside {s : State} {a : Word} {n al : Nat} (h : ¬SpadInside a n al) (read : Bool) :
    s.spadChk a n al read = some (.fault 0x05 (spadRangeVal a al)) := by
  unfold State.spadChk spadRangeVal
  by_cases ha : a.toNat % al = 0
  · rw [if_neg (by simpa using ha), if_pos (by unfold SpadInside at h; unfold spadEnd; omega), if_neg (by simpa using ha)]; rfl
  · rw [if_pos (by simpa using ha), if_pos ha]; rfl
theorem State.spadChk_inside {s : State} {a : Word} {n al : Nat} (h : SpadInside a n al) (read : Bool) (hp : read = true → s.me.pendingAt s.cycle a.toNat n = none) :
    s.spadChk a n al read = none := by
  obtain ⟨ha, hn⟩ := h
  unfold State.spadChk
  rw [if_neg (by simpa using ha), if_neg (by unfold spadEnd; omega)]
  cases read with
  | false => rfl
  | true => rw [if_pos rfl, hp rfl]

/-! ### Descriptor words (R340) -/

section
variable {s : State} {h : Hdr} {o : SY}

theorem tdWords_outside (m : CcMay s h [(o.a, o.la)] [] 0) (hn : ¬SpadInside (s.rdS o.a) 64 64) :
    Raises (.tdset h o) h 0x05 (spadRangeVal (s.rdS o.a) 64) s ∧ Raises (.tdrd h o) h 0x05 (spadRangeVal (s.rdS o.a) 64) s :=
  ⟨.of_body m (.refl (execTdset h o s)) fun s1 _ => by dsimp only; rw [State.spadChk_outside hn],
   .of_body m (.refl (execTdrd h o s)) fun s1 _ => by dsimp only; rw [State.spadChk_outside hn]⟩
theorem tdset_holds (m : CcMay s h [(o.a, o.la)] [] 0) (hn : SpadInside (s.rdS o.a) 64 64) (hp : s.me.pendingAt s.cycle (s.rdS o.a).toNat 64 = none)
    (hk : tdOk (bitsOf 512 (s.me.spadBytes (s.rdS o.a).toNat 64)) = true) :
    Holds (.tdset h o) h h 0 (.tdset (o.sel.setWidth 10) (bitsOf 512 (s.me.spadBytes (s.rdS o.a).toNat 64))) none none 0 s :=
  .of_done m (.refl (execTdset h o s)) fun s1 => by
    dsimp only
    rw [State.spadChk_inside hn true fun _ => hp, hk]
    rfl
theorem tdset_refused (m : CcMay s h [(o.a, o.la)] [] 0) (hn : SpadInside (s.rdS o.a) 64 64) (hp : s.me.pendingAt s.cycle (s.rdS o.a).toNat 64 = none)
    (hk : tdOk (bitsOf 512 (s.me.spadBytes (s.rdS o.a).toNat 64)) = false) : RaisesIllegal (.tdset h o) h s :=
  .of_body m (.refl (execTdset h o s)) fun s1 _ => by
    dsimp only
    rw [State.spadChk_inside hn true fun _ => hp, hk]
    rfl
theorem tdrd_writes (m : CcMay s h [(o.a, o.la)] [] 0) (hn : SpadInside (s.rdS o.a) 64 64) :
    CcDoes (.tdrd h o) h [] { s.me with spad := putSpad s.me.spad (s.rdS o.a).toNat (leBytes (s.tdBits s.cur (s.ccCrd h [] 0) (o.sel.setWidth 10)).toNat 64) } []
      (s.me.pc + 8) s s :=
  .of_spad m (.refl (execTdrd h o s)) (by rw [leBytes_length]) fun s1 => by
    dsimp only
    rw [State.spadChk_inside hn false (by simp)]


/-! ### Tile-table words (R341) -/

/-- A tile number that names no tile of a valid descriptor. -/
def TileOut (s : State) (e : Word) (tid : BitVec 10) (k : Nat) : Prop := ∀ d, s.tdesc s.cur e tid = some d → d.tiles ≤ k
theorem tileChk_out {e : Word} {tid : BitVec 10} {k : Word} (ho : TileOut s e tid k.toNat) :
    s.tileChk e tid k = .inr (.fault 0x08 (tid.setWidth 64)) := by
  unfold State.tileChk
  cases hd : s.tdesc s.cur e tid with
  | none => rfl
  | some d => exact if_pos (ho d hd)
theorem tileChk_in {e : Word} {tid : BitVec 10} {k : Word} {d : TDesc} (hd : s.tdesc s.cur e tid = some d) (hk : k.toNat < d.tiles) :
    s.tileChk e tid k = .inl d := by
  unfold State.tileChk
  rw [hd]
  exact if_neg (Nat.not_le.2 hk)
theorem tileOut_not {e : Word} {tid : BitVec 10} {k : Nat} (ho : ¬TileOut s e tid k) : ∃ d, s.tdesc s.cur e tid = some d ∧ k < d.tiles := by
  unfold TileOut at ho
  push Not at ho
  exact ho

theorem CoreOnly.pageOk {s t : State} {n : Nat} (h : CoreOnly s t n) (cid : BitVec 12) (gpa : Nat) : t.pageOk cid gpa = s.pageOk cid gpa := by
  rw [h.1]; rfl
theorem CoreOnly.entAt {s t : State} {n : Nat} (h : CoreOnly s t n) (cid : BitVec 12) (gpa : Nat) : t.entAt cid gpa = s.entAt cid gpa := by
  rw [h.1]; rfl
theorem CoreOnly.flying_eq {s t : State} {n : Nat} (h : CoreOnly s t n) : t.flying = s.flying := by rw [h.1]

/-- A translation reads the same, and fills the cache alike, before and after the issue of its word. -/
theorem CcIssued.entry {s1 : State} {e0 : Word} {ts : List (Nat × Nat)} {srcs : List (BitVec 6 × Bool)} (i : CcIssued s s1 e0 ts srcs) (e : Word) (d : TDesc)
    (tid : BitVec 10) (k : Nat) :
    (s.entry s.cur e d tid k = none ↔ s1.entry s.cur e d tid k = none) ∧
    ∀ y u, s.entry s.cur e d tid k = some (y, u) → ∃ u1, s1.entry s.cur e d tid k = some (y, u1) ∧ CoreOnly s1 u1 s.cur ∧
      u1.core s.cur = { s1.core s.cur with ttc := u.me.ttc } := by
  have hhit : (s1.core s.cur).ttcHit tid k = (s.core s.cur).ttcHit tid k := by rw [i.here, i.core]; rfl
  have hcid : (s1.core s.cur).cid = (s.core s.cur).cid := by rw [i.here, i.core]; rfl
  have hinc : (s1.core s.cur).inc = (s.core s.cur).inc := by rw [i.here, i.core]; rfl
  have httc : (s1.core s.cur).ttc = (s.core s.cur).ttc := by rw [i.here, i.core]; rfl
  have hheld : s1.heldEnt s.cur e tid k = s.heldEnt s.cur e tid k := by
    unfold State.heldEnt
    rw [i.only.flying_eq, show (s1.core s.cur).hold = (s.core s.cur).hold by rw [i.here, i.core]; rfl]
  unfold State.entry
  dsimp only
  rw [hhit, hcid, hheld, i.only.pageOk]
  by_cases hp : (((s.core s.cur).ttcHit tid k).isNone && !s.pageOk (s.core s.cur).cid (d.entAddr k)) = true
  · rw [if_pos hp, if_pos hp]
    exact ⟨Iff.rfl, fun y u h => by cases h⟩
  · rw [if_neg hp, if_neg hp]
    cases hh : s.heldEnt s.cur e tid k with
    | some x =>
      refine ⟨by simp, fun y u h => ?_⟩
      injection h with h
      injection h with hy hu
      subst hy hu
      exact ⟨s1, rfl, .refl .., congrArg (fun t => { s1.core s.cur with ttc := t }) httc⟩
    | none =>
      refine ⟨by simp, fun y u h => ?_⟩
      injection h with h
      unfold State.ttcRead at h ⊢
      dsimp only at h ⊢
      rw [hhit]
      cases hx : (s.core s.cur).ttcHit tid k with
      | some t =>
        rw [hx] at h
        injection h with hy hu
        subst hy hu
        exact ⟨_, rfl, .modCore .., by rw [State.core_modCore_self, State.me_modCore rfl, httc]⟩
      | none =>
        rw [hx] at h
        injection h with hy hu
        subst hy hu
        refine ⟨_, by rw [hcid, i.only.entAt], .modCore .., ?_⟩
        rw [State.core_modCore_self, State.me_modCore rfl]
        unfold Core.ttcPut
        rw [hcid, hinc, httc]

theorem ttref_out (m : CcMay s h [(o.a, o.la)] [] 0) (ho : TileOut s (s.ccCrd h [] 0) (o.sel.setWidth 10) (s.rdS o.a).toNat) :
    Raises (.ttref h o) h 0x08 ((o.sel.setWidth 10 : BitVec 10).setWidth 64) s ∧ Raises (.ttunref h o) h 0x08 ((o.sel.setWidth 10 : BitVec 10).setWidth 64) s := by
  have hr : ∀ w a, ccTileHold h w o a s = ccWord h w [(o.a, o.la)] [] _ s := fun w a => rfl
  exact ⟨.of_body m (hr _ _) (fun s1 _ => by unfold syTid; rw [tileChk_out ho]) (i := .ttref h o),
    .of_body m (hr _ _) (fun s1 _ => by unfold syTid; rw [tileChk_out ho]) (i := .ttunref h o)⟩
theorem ttref_holds (m : CcMay s h [(o.a, o.la)] [] 0) (ho : ¬TileOut s (s.ccCrd h [] 0) (o.sel.setWidth 10) (s.rdS o.a).toNat) :
    Holds (.ttref h o) h h 0 (.ttref (o.sel.setWidth 10) (s.rdS o.a).toNat) none none 0 s ∧
    Holds (.ttunref h o) h h 0 (.ttunref (o.sel.setWidth 10) (s.rdS o.a).toNat) none none 0 s := by
  obtain ⟨d, hd, hk⟩ := tileOut_not ho
  have hr : ∀ w a, ccTileHold h w o a s = ccWord h w [(o.a, o.la)] [] _ s := fun w a => rfl
  exact ⟨.of_done (w2 := packSY h 0x25 2 o) m (hr _ _) (fun s1 => by unfold syTid; rw [tileChk_in hd hk]; rfl) (i := .ttref h o),
    .of_done (w2 := packSY h 0x25 3 o) m (hr _ _) (fun s1 => by unfold syTid; rw [tileChk_in hd hk]; rfl) (i := .ttunref h o)⟩

theorem ttWords_out (m : CcMay s h [(o.a, o.la), (o.d, false)] [] 0) (ho : TileOut s (s.ccCrd h [] 0) (o.sel.setWidth 10) (s.rdS o.a).toNat) :
    Raises (.ttrd h o) h 0x08 ((o.sel.setWidth 10 : BitVec 10).setWidth 64) s ∧ Raises (.ttset h o) h 0x08 ((o.sel.setWidth 10 : BitVec 10).setWidth 64) s :=
  ⟨.of_body m (.refl (execTtrd h o s)) fun s1 _ => by unfold syTid; rw [tileChk_out ho],
   .of_body m (.refl (execTtset h o s)) fun s1 _ => by unfold syTid; rw [tileChk_out ho]⟩
theorem ttWords_outside (m : CcMay s h [(o.a, o.la), (o.d, false)] [] 0) (ho : ¬TileOut s (s.ccCrd h [] 0) (o.sel.setWidth 10) (s.rdS o.a).toNat)
    (hn : ¬SpadInside (s.rdS o.d) 16 16) :
    Raises (.ttrd h o) h 0x05 (spadRangeVal (s.rdS o.d) 16) s ∧ Raises (.ttset h o) h 0x05 (spadRangeVal (s.rdS o.d) 16) s := by
  obtain ⟨d, hd, hk⟩ := tileOut_not ho
  exact ⟨.of_body m (.refl (execTtrd h o s)) fun s1 _ => by unfold syTid; rw [tileChk_in hd hk]; dsimp only; rw [State.spadChk_outside hn],
    .of_body m (.refl (execTtset h o s)) fun s1 _ => by unfold syTid; rw [tileChk_in hd hk]; dsimp only; rw [State.spadChk_outside hn]⟩

section
variable {d : TDesc} (m : CcMay s h [(o.a, o.la), (o.d, false)] [] 0) (hd : s.tdesc s.cur (s.ccCrd h [] 0) (o.sel.setWidth 10) = some d)
  (hk : (s.rdS o.a).toNat < d.tiles) (hn : SpadInside (s.rdS o.d) 16 16)
include m hd hk hn

theorem ttrd_node (hh : s.me.ttcHit (o.sel.setWidth 10) (s.rdS o.a).toNat = none) (hp : s.pageOk s.me.cid (d.entAddr (s.rdS o.a).toNat) = false) :
    Raises (.ttrd h o) h 0x0A (BitVec.ofNat 64 (d.entAddr (s.rdS o.a).toNat)) s :=
  .of_body m (.refl (execTtrd h o s)) fun s1 i => by
    have he : s.entry s.cur (s.ccCrd h [] 0) d (o.sel.setWidth 10) (s.rdS o.a).toNat = none := by
      unfold State.entry
      exact if_pos (by rw [show (s.core s.cur).ttcHit _ _ = none from hh, show s.pageOk (s.core s.cur).cid _ = false from hp]; rfl)
    have he1 := (i.entry (s.ccCrd h [] 0) d (o.sel.setWidth 10) (s.rdS o.a).toNat).1.1 he
    unfold syTid
    rw [tileChk_in hd hk]
    dsimp only
    rw [State.spadChk_inside hn false (by simp)]
    dsimp only
    rw [he1]
    rfl
theorem ttrd_writes {y : BitVec 128} {u : State} (he : s.entry s.cur (s.ccCrd h [] 0) d (o.sel.setWidth 10) (s.rdS o.a).toNat = some (y, u)) :
    CcDoes (.ttrd h o) h [] { s.me with spad := putSpad s.me.spad (s.rdS o.d).toNat (leBytes y.toNat 16), ttc := u.me.ttc } [] (s.me.pc + 8) s s := by
  refine .of_core m (.refl (execTtrd h o s)) (fun c => { c with spad := putSpad c.spad (s.rdS o.d).toNat (leBytes y.toNat 16), ttc := u.me.ttc }) rfl
    ⟨fun x h => by unfold CcFrame at *; rw [h], fun _ => rfl, fun _ => rfl⟩ (fun _ => rfl) (fun _ => rfl) fun s1 i => ?_
  obtain ⟨u1, he1, ho, hc⟩ := (i.entry (s.ccCrd h [] 0) d (o.sel.setWidth 10) (s.rdS o.a).toNat).2 y u he
  obtain ⟨h1, h2, h3⟩ := u1.spadWrite_core s.cur .cc (s.ccCrd h [] 0) (s.rdS o.d).toNat (leBytes y.toNat 16)
  refine ⟨_, ?_, ho.trans h1, ?_, ?_⟩
  · unfold syTid
    rw [tileChk_in hd hk]
    dsimp only
    rw [State.spadChk_inside hn false (by simp)]
    dsimp only
    rw [he1]
  · rw [h2, hc]
  · rw [hc, leBytes_length] at h3
    exact h3.trans (Nat.add_le_add_left (by decide) _)
variable (hp : s.me.pendingAt s.cycle (s.rdS o.d).toNat 16 = none)
include hp
theorem ttset_holds (hx : entOk d.phased (bitsOf 128 (s.me.spadBytes (s.rdS o.d).toNat 16)) = true ∧ s.tierOk s.me.cid (bitsOf 128 (s.me.spadBytes (s.rdS o.d).toNat 16)) = true) :
    Holds (.ttset h o) h h 0 (.ttset (o.sel.setWidth 10) (s.rdS o.a).toNat (bitsOf 128 (s.me.spadBytes (s.rdS o.d).toNat 16))) none none 0 s :=
  .of_done (w2 := packSY h 0x25 1 o) m (.refl (execTtset h o s)) fun s1 => by
    unfold syTid
    rw [tileChk_in hd hk]
    dsimp only
    rw [State.spadChk_inside hn true fun _ => hp]
    dsimp only
    rw [if_neg (by rw [hx.1, hx.2]; simp)]
    rfl
theorem ttset_refused (hx : ¬(entOk d.phased (bitsOf 128 (s.me.spadBytes (s.rdS o.d).toNat 16)) = true ∧ s.tierOk s.me.cid (bitsOf 128 (s.me.spadBytes (s.rdS o.d).toNat 16)) = true)) :
    RaisesIllegal (.ttset h o) h s :=
  .of_body m (.refl (execTtset h o s)) fun s1 _ => by
    unfold syTid
    rw [tileChk_in hd hk]
    dsimp only
    rw [State.spadChk_inside hn true fun _ => hp]
    dsimp only
    rw [if_pos (by rw [← Bool.not_and, Bool.not_eq_true', Bool.eq_false_iff]; exact fun h => hx (Bool.and_eq_true_iff.1 h))]
    rfl
end
end

/-- Settles O11: descriptor and tile-table words check their operands, read to scratchpad, or are held. -/
theorem tileDescriptors : Obligations.TileDescriptors := by
  unfold Obligations.TileDescriptors
  refine ⟨⟨fun h o s m => ⟨fun hn => ⟨_, tdWords_outside m hn⟩, fun hn hp => ⟨tdset_holds m hn hp, tdset_refused m hn hp⟩, tdrd_writes m⟩,
    fun h o s m => .of_done m (.refl (execTdinv h o s)) fun s1 => rfl⟩, fun h o s => ⟨fun m => ⟨ttref_out m, ttref_holds m⟩,
    fun m => ⟨ttWords_out m, fun ho hn => ⟨_, ttWords_outside m ho hn⟩, fun d hd hk hn => ⟨ttrd_node m hd hk hn, fun y u => ttrd_writes m hd hk hn,
      fun hp => ⟨ttset_holds m hd hk hn hp, ttset_refused m hd hk hn hp⟩⟩⟩⟩⟩

/-! ### PGREQ (R219, R342) -/

section
variable {s : State} {h : Hdr} {srcs : List (BitVec 6 × Bool)} {i : Instr} {w : Word} {body : Word → State → Body} {r : Result}

/-- An instruction whose body changes the device beside the cores alone, by `g`. -/
theorem CcDoes.of_beside (m : CcMay s h srcs [] 0) (hr : r = ccWord h w srcs [] body s) (g : State → State) (hcur : (g s).cur = s.cur)
    (hg : ∀ s1, CoreOnly s s1 s.cur → CoreOnly (g s) (g s1) s.cur ∧ (g s1).core s.cur = s1.core s.cur)
    (hb : ∀ s1, CcIssued s s1 (s.ccCrd h [] 0) (waitPresent (s.me.waitVal h) ++ []) srcs → body (s.ccCrd h [] 0) s1 = .done (g s1)) (hi : exec i s = r := by rfl) :
    CcDoes i h [] s.me [] (s.me.pc + 8) (g s) s := by
  obtain ⟨t, ht, x⟩ := ccDo_ran m w body (k := 0) (base := s.me) (tx := []) (p := s.me.pc + 8) (s0 := g s) (by omega) (by have := m.room; omega) (.inr (by simp)) hcur
    fun s1 iss => by
      obtain ⟨ho, hc⟩ := hg s1 iss.only
      exact ⟨_, hb s1 iss, ⟨ho, by rw [hc]; exact iss.frame, by rw [hc]; exact iss.pc, fun _ _ => by rw [hc], by rw [hc]; exact Nat.le_refl _⟩, by rw [hc]; exact iss.regs⟩
  exact ⟨t, (hi.trans hr).trans ht, x⟩
end

/-- The request that PGREQ posts. -/
def State.pgRec (s : State) (e : Word) (tid : BitVec 10) (tile : Nat) : PgRec :=
  { cid := s.me.cid, inc := s.me.inc, tid := tid, tile := BitVec.ofNat 24 tile, crd := e, gts := s.gts, src := s.src s.cur }
/-- The device once a request is posted. -/
def State.posted (s : State) (r : PgRec) : State :=
  if s.pgq.any fun q => q.cid == r.cid && q.inc == r.inc && q.tid == r.tid && q.tile == r.tile then s
  else if 256 ≤ s.pgq.length then { s with pgdrop := if s.pgdrop == BitVec.allOnes 64 then s.pgdrop else s.pgdrop + 1 }
  else ({ s with pgq := s.pgq ++ [r] } : State).wake 2

theorem State.posted_cur (s : State) (r : PgRec) : (s.posted r).cur = s.cur := by
  unfold State.posted
  split
  · rfl
  split <;> rfl
theorem CoreOnly.posted {s t : State} {n : Nat} (h : CoreOnly s t n) (r : PgRec) : CoreOnly (s.posted r) (t.posted r) n ∧ (t.posted r).core n = t.core n := by
  have hq : t.pgq = s.pgq := by rw [h.1]
  have hd : t.pgdrop = s.pgdrop := by rw [h.1]
  unfold State.posted
  rw [hq, hd]
  split
  · exact ⟨h, rfl⟩
  split
  · exact ⟨⟨by conv_lhs => rw [h.1], h.2⟩, rfl⟩
  · refine ⟨⟨?_, h.2⟩, rfl⟩
    unfold State.wake
    conv_lhs => rw [h.1]
theorem CcIssued.postPage {s s1 : State} {e0 : Word} {ts : List (Nat × Nat)} {srcs : List (BitVec 6 × Bool)} (i : CcIssued s s1 e0 ts srcs) (e : Word)
    (tid : BitVec 10) (tile : Nat) : s1.postPage s.cur e tid tile = s1.posted (s.pgRec e tid tile) := by
  have hcid : (s1.core s.cur).cid = s.me.cid := by rw [i.here, i.core]; rfl
  have hinc : (s1.core s.cur).inc = s.me.inc := by rw [i.here, i.core]; rfl
  have hg : s1.gts = s.gts := by rw [i.only.1]
  have hs : s1.src s.cur = s.src s.cur := by rw [i.only.1]; rfl
  unfold State.postPage State.posted State.pgRec
  dsimp only
  rw [hcid, hinc, hg, hs]

section
variable {s : State} {h : Hdr} {o : TN}

theorem sBase_map {α : Type} (g : BitVec 6) (n : Nat) (f : BitVec 6 → α) : (sBase g n).map f = (List.range n).map fun i => f (g + BitVec.ofNat 6 i) := by
  rw [sBase, List.map_map]; rfl

/-- The registers that PGREQ reads. -/
def pgSrcs (s : State) (o : TN) : List (BitVec 6 × Bool) :=
  (sBase o.g (if 64 < o.g.toNat + ((s.tdesc s.cur (ccE s 0) o.tid).map (·.rank)).getD 0 then 0 else ((s.tdesc s.cur (ccE s 0) o.tid).map (·.rank)).getD 0)).map fun r => (r, false)

theorem pgreq_none (m : CcMay s h (pgSrcs s o) [] 0) (hd : s.tdesc s.cur (s.ccCrd h [] 0) o.tid = none) : Raises (.pgreq h o) h 0x08 (o.tid.setWidth 64) s :=
  .of_body (srcs := pgSrcs s o) m (.refl (execPgreq h o s)) fun s1 _ => by rw [hd]; rfl
variable {d : TDesc} (m : CcMay s h (pgSrcs s o) [] 0) (hd : s.tdesc s.cur (s.ccCrd h [] 0) o.tid = some d)
include m hd
theorem pgreq_outside (hx : 64 < o.g.toNat + d.rank ∨ d.locate ((List.range d.rank).map fun i => (s.rdS (o.g + BitVec.ofNat 6 i)).toNat) = none) :
    Raises (.pgreq h o) h 0x08 (o.tid.setWidth 64) s :=
  .of_body (srcs := pgSrcs s o) m (.refl (execPgreq h o s)) fun s1 _ => by
    rw [hd]
    dsimp only
    split
    · rfl
    · rename_i hn
      rw [sBase_map, hx.resolve_left hn]
      rfl
theorem pgreq_posts {tile off : Nat} (hn : o.g.toNat + d.rank ≤ 64)
    (hx : d.locate ((List.range d.rank).map fun i => (s.rdS (o.g + BitVec.ofNat 6 i)).toNat) = some (tile, off)) :
    CcDoes (.pgreq h o) h [] s.me [] (s.me.pc + 8) (s.posted (s.pgRec (s.ccCrd h [] 0) o.tid tile)) s :=
  .of_beside (srcs := pgSrcs s o) m (.refl (execPgreq h o s)) (fun u => u.posted (s.pgRec (s.ccCrd h [] 0) o.tid tile))
    (s.posted_cur _) (fun s1 ho => ho.posted _) fun s1 i => by
      rw [hd]
      dsimp only
      rw [if_neg (Nat.not_lt.2 hn), sBase_map, hx]
      dsimp only
      rw [i.postPage]
end

theorem State.posted_same {s : State} {r : PgRec} (h : ∃ q ∈ s.pgq, q.cid = r.cid ∧ q.inc = r.inc ∧ q.tid = r.tid ∧ q.tile = r.tile) : s.posted r = s := by
  refine if_pos ?_
  obtain ⟨q, hq, h1, h2, h3, h4⟩ := h
  exact List.any_eq_true.2 ⟨q, hq, by simp [h1, h2, h3, h4]⟩
theorem State.posted_new {s : State} {r : PgRec} (h : ¬∃ q ∈ s.pgq, q.cid = r.cid ∧ q.inc = r.inc ∧ q.tid = r.tid ∧ q.tile = r.tile) :
    s.posted r = if 256 ≤ s.pgq.length then { s with pgdrop := if s.pgdrop = BitVec.allOnes 64 then s.pgdrop else s.pgdrop + 1 }
      else { s with pgq := s.pgq ++ [r], wfe := s.wfe ||| 4 } := by
  unfold State.posted
  rw [if_neg]
  · simp only [beq_iff_eq]; rfl
  · intro hx
    obtain ⟨q, hq, hb⟩ := List.any_eq_true.1 hx
    simp only [Bool.and_eq_true, beq_iff_eq, and_assoc] at hb
    exact h ⟨q, hq, hb⟩

/-! ### Circular buffers (R189, R353) -/

section
variable {s : State} {h : Hdr} {o : SY}

theorem cbrst_ok (a : Word) : (a.extractLsb' 38 26 != 0 || cbBase a % 32 != 0 || spadEnd < cbBase a + cbSlotBytes a * cbSlots a : Bool) = true ↔
    ¬(a.toNat < 2 ^ 38 ∧ (a.extractLsb' 0 19).toNat % 32 = 0 ∧
      (a.extractLsb' 0 19).toNat + 32 * ((a.extractLsb' 19 11).toNat + 1) * ((a.extractLsb' 30 8).toNat + 1) ≤ 0x70000) := by
  have hz : a.extractLsb' 38 26 = 0 ↔ a.toNat < 2 ^ 38 := by
    rw [← BitVec.toNat_inj, BitVec.extractLsb'_toNat, Nat.shiftRight_eq_div_pow]
    have := a.isLt
    show a.toNat / 2 ^ 38 % 2 ^ 26 = 0 ↔ _
    omega
  rw [Bool.or_eq_true, Bool.or_eq_true, bne_iff_ne, bne_iff_ne, decide_eq_true_iff, ne_eq, hz]
  unfold cbBase cbSlotBytes cbSlots spadEnd
  rw [not_and_or, not_and_or, Nat.not_le, or_assoc]
theorem State.setCb_core (s : State) (n : Nat) (eng : Eng) (i : Nat) (e : Word) (x : Cb) :
    CoreOnly s (s.setCb n eng i e x) n ∧
    (s.setCb n eng i e x).core n = { s.core n with cbs := (s.core n).cbs.set none i (some x), peel := ((s.setCb n eng i e x).core n).peel } ∧
    ((s.setCb n eng i e x).core n).peel.length ≤ (s.core n).peel.length + 1 := by
  have l := s.log_logged n { kind := 6, eng := BitVec.ofNat 3 eng.num, addr := BitVec.ofNat 48 i, crd := e, old := cbBits ((s.core n).cbs.get none i), new := cbBits (some x) }
  unfold State.setCb
  refine ⟨l.only.trans (.modCore ..), by rw [State.core_modCore_self, l.core], ?_⟩
  rw [State.core_modCore_self]
  exact l.log

theorem cbrst_resets (m : CcMay s h [(o.a, o.la)] [] 0) (hk : ¬((s.rdS o.a).extractLsb' 38 26 != 0 || cbBase (s.rdS o.a) % 32 != 0 ||
      spadEnd < cbBase (s.rdS o.a) + cbSlotBytes (s.rdS o.a) * cbSlots (s.rdS o.a) : Bool) = true) :
    CcDoes (.cbrst h o) h [] { s.me with cbs := s.me.cbs.set none o.sel.toNat (some { w0 := s.rdS o.a, free := cbSlots (s.rdS o.a) }) } [] (s.me.pc + 8) s s := by
  refine .of_core m (.refl (execCbrst h o s)) (fun c => { c with cbs := c.cbs.set none o.sel.toNat (some { w0 := s.rdS o.a, free := cbSlots (s.rdS o.a) }) }) rfl
    ⟨fun x h => by unfold CcFrame at *; rw [h], fun _ => rfl, fun _ => rfl⟩ (fun _ => rfl) (fun _ => rfl) fun s1 i => ?_
  obtain ⟨old, hold⟩ : ∃ old : Word, old = ((s.me.cbs.get none o.sel.toNat).map fun x : Cb => x.w0).getD 0 := ⟨_, rfl⟩
  have l : Logged s1 (s1.log4 s.cur (0x3000 + o.sel.toNat) (s.ccCrd h [] 0) old) s.cur 1 := s1.log_logged ..
  obtain ⟨h1, h2, h3⟩ := State.setCb_core (s1.log4 s.cur (0x3000 + o.sel.toNat) (s.ccCrd h [] 0) old) s.cur .cc o.sel.toNat (s.ccCrd h [] 0)
    { w0 := s.rdS o.a, free := cbSlots (s.rdS o.a) }
  refine ⟨_, by dsimp only; rw [if_neg hk, ← hold], l.only.trans h1, ?_, h3.trans ?_⟩
  · refine h2.trans ?_
    rw [l.core]
  · have := l.log
    omega
end

/-- Settles O12: PGREQ posts its request once and without a wait, CBRST defines a buffer that CBSTAT reads. -/
theorem pagesAndBuffers : Obligations.PagesAndBuffers := by
  unfold Obligations.PagesAndBuffers
  refine ⟨fun h o s => ?_, fun h o s => ⟨fun m => ⟨fun hk => ?_, fun hk => ?_⟩, fun m => ⟨fun hb => ?_, fun b hb => ?_⟩⟩⟩
  · intro rank e x m
    have hsrc : pgSrcs s o = (List.range (if 64 < o.g.toNat + rank then 0 else rank)).map fun i => (o.g + BitVec.ofNat 6 i, false) := sBase_map ..
    rw [← hsrc] at m
    refine ⟨pgreq_none m, fun d hd => ⟨pgreq_outside m hd, fun tile off hn hx => ?_⟩⟩
    have hp := pgreq_posts m hd hn hx
    intro r same does
    have hr : s.pgRec (s.ccCrd h [] 0) o.tid tile = r := rfl
    rw [hr] at hp
    refine ⟨fun hs => ?_, fun hs hl => ?_, fun hs hl => ?_⟩
    · rwa [State.posted_same (show ∃ q ∈ s.pgq, _ from hs)] at hp
    · rwa [State.posted_new (show ¬∃ q ∈ s.pgq, _ from hs), if_neg (Nat.not_le.2 hl)] at hp
    · rwa [State.posted_new (show ¬∃ q ∈ s.pgq, _ from hs), if_pos hl] at hp
  · exact cbrst_resets m fun h => (cbrst_ok _).1 h hk
  · exact Raises.of_body m (.refl (execCbrst h o s)) fun s1 _ => if_pos ((cbrst_ok _).2 hk)
  · exact Raises.of_body m (.refl (execCbstat h o s)) fun s1 _ => by rw [hb]; rfl
  · exact Computes.of_body m (.refl (execCbstat h o s)) fun e s1 _ => by rw [hb]; simp only [beq_iff_eq]; rfl

end Sys2Proof.Machine
end

section
/-! PROOFS of the PhaserRules statement (O14): what an arrival, readiness and a release do to a phaser and its members. -/

set_option Elab.async false

namespace Sys2Proof.Machine

/-! ### Arrival, readiness and release (R112 to R114) -/

/-- A change of one task's member that keeps whose member it is. -/
theorem Phaser.member_modMember {p : Phaser} {t : Task} {m : PMember} {f : PMember → PMember} (hm : p.member t = some m)
    (hf : ∀ k, (f k).isTask t = k.isTask t) : (p.modMember t f).member t = some (f m) := by
  obtain ⟨l, r, hl, hno⟩ : ∃ l r, p.members = l ++ m :: r ∧ ∀ k ∈ l, k.isTask t = false := by
    obtain ⟨-, l, r, h, hno⟩ := List.find?_eq_some_iff_append.mp hm
    exact ⟨l, r, h, fun k hk => by simpa using hno k hk⟩
  have hmt : m.isTask t = true := List.find?_some (p := fun k : PMember => k.isTask t) hm
  have hkeep : (l.map fun k => if k.isTask t then f k else k) = l :=
    (List.map_congr_left fun k hk => by simp [hno k hk]).trans (List.map_id l)
  have hskip : l.find? (fun k => k.isTask t) = none := List.find?_eq_none.mpr fun k hk => by simp [hno k hk]
  simp [Phaser.member, Phaser.modMember, hl, hkeep, hskip, hmt, hf, List.find?_append]

theorem Phaser.mem_modMember {p : Phaser} {t : Task} {k : PMember} {f : PMember → PMember} (hk : k ∈ p.members) (ht : k.isTask t = false) :
    k ∈ (p.modMember t f).members :=
  List.mem_map.mpr ⟨k, hk, by simp [ht]⟩

/-- A member that stays makes the list of members after a release non-empty, so that the phaser stays too. -/
theorem Phaser.release_stays {p : Phaser} (h : ∃ m ∈ p.members, m.drop = false) :
    p.release.counter = p.counter + 1 ∧
    p.release.members = (p.members.filter fun m => !m.drop) ++ p.regs.map fun m => m.join (p.counter + 1) := by
  obtain ⟨m, hm, hd⟩ := h
  have hne : ((p.members.filter fun m => !m.drop) ++ p.regs.map fun m => m.join (p.counter + 1)).isEmpty = false := by
    rw [List.isEmpty_eq_false_iff_exists_mem]
    exact ⟨m, List.mem_append_left _ (List.mem_filter.mpr ⟨hm, by simp [hd]⟩)⟩
  constructor <;> simp only [Phaser.release, hne, Bool.false_and, Bool.false_eq_true, if_false]

/-- Settles O14: an arrival changes the one member, readiness asks each signalling member, and a release keeps who has not asked to drop. -/
theorem phaserRules : Obligations.PhaserRules := by
  unfold Obligations.PhaserRules
  refine ⟨fun p t m n e bytes b hm => ⟨rfl, rfl, Phaser.member_modMember hm fun _ => rfl, ?_, fun k hk ht => Phaser.mem_modMember hk ht⟩,
    fun p out h => ?_, fun p h => ?_⟩
  · simp only [Phaser.arrive, hm, Option.map_some, Option.getD_some]
  · simp only [Phaser.ready, Bool.and_eq_true, List.any_eq_true, List.all_eq_true, beq_iff_eq, List.mem_filter] at h
    obtain ⟨⟨⟨hany, hall⟩, hpend⟩, -⟩ := h
    exact ⟨hpend, fun m hm hs => by simpa [PMember.arrived] using hall m ⟨hm, hs⟩, hany⟩
  · obtain ⟨hc, hms⟩ := Phaser.release_stays h
    exact ⟨hc, fun m hm hd => hms ▸ List.mem_append_left _ (List.mem_filter.mpr ⟨hm, by simp [hd]⟩),
      fun m hm => hms ▸ List.mem_append_right _ (List.mem_map.mpr ⟨m, hm, rfl⟩)⟩

end Sys2Proof.Machine
end

section
/-! PROOFS of the PhaserWords statement (O13) and the SuperstepsSpawns statement (O15): arrivals and waits at phasers, supersteps, and child launches. -/

set_option Elab.async false

namespace Sys2Proof.Machine

/-! ### Effects built up step by step -/

section
variable {s s0 s1 u : State} {n k : Nat} {base base' : Core} {tx : List Nat} {p : Word}

/-- An effect after which its core changes by `f`. -/
theorem CcEff.mod (ef : CcEff s0 s1 u n k base tx p) (f : Core → Core) (fm : FrameMap base base' f) (hp : ∀ x, (f x).pc = x.pc) :
    CcEff s0 s1 (u.modCore n f) n k base' tx p := by
  refine ⟨ef.only.trans (.modCore ..), ?_, ?_, fun j hj => ?_, ?_⟩
  · rw [State.core_modCore_self]; exact fm.frame _ ef.frame
  · rw [State.core_modCore_self, hp]; exact ef.pc
  · rw [State.core_modCore_self, fm.tok]; exact ef.tok j hj
  · rw [State.core_modCore_self, fm.log]; exact ef.log
theorem CoreOnly.setPhaser {s t : State} {n : Nat} (h : CoreOnly s t n) (q : BitVec 12) (r : Phaser) : CoreOnly (s.setPhaser q r) (t.setPhaser q r) n :=
  ⟨by unfold State.setPhaser; conv_lhs => rw [h.1], h.2⟩
theorem CoreOnly.phaser {s t : State} {n : Nat} (h : CoreOnly s t n) (q : BitVec 12) : t.phaser q = s.phaser q := by rw [h.1]; rfl
/-- An effect after which a phaser changes. -/
theorem CcEff.setPhaser (ef : CcEff s0 s1 u n k base tx p) (q : BitVec 12) (r : Phaser) : CcEff (s0.setPhaser q r) s1 (u.setPhaser q r) n k base tx p :=
  ⟨ef.only.setPhaser q r, ef.frame, ef.pc, ef.tok, ef.log⟩
theorem CcIssued.self {e : Word} {ts : List (Nat × Nat)} {srcs : List (BitVec 6 × Bool)} (i : CcIssued s s1 e ts srcs) :
    CcEff s s1 s1 s.cur 0 s.me [] (s.me.pc + 8) := i.eff (.refl ..)
theorem CcEff.more (ef : CcEff s0 s1 u n k base tx p) {l : Nat} (h : k ≤ l) : CcEff s0 s1 u n l base tx p :=
  ⟨ef.only, ef.frame, ef.pc, ef.tok, ef.log.trans (by omega)⟩

end

/-! ### Words that end, wait, and go on after a wait -/

/-- `ccWordAt` of a word that takes no tokens but those of its wait set. -/
def ccAt (extra : Word) (h : Hdr) (w : Word) (srcs : List (BitVec 6 × Bool)) (body : Word → State → Body) (s : State) : Result :=
  ccWordAt extra h w srcs [] body s

section
variable {s s0 : State} {h : Hdr} {srcs : List (BitVec 6 × Bool)} {toks : List (Nat × Nat)} {extra : Word} {i : Instr} {w : Word}
  {body : Word → State → Body} {r : Result} {base : Core} {p : Word}

/-- An instruction whose body does `u`, with a few entries logged, retires. -/
theorem CcDoes.of_eff (m : CcMay s h srcs [] extra) (hr : r = ccAt extra h w srcs body s) (hh : base.hold.length ≤ 128) (hs0 : s0.cur = s.cur)
    (hb : ∀ s1, CcIssued s s1 (s.ccCrd h [] extra) (waitPresent (s.me.waitVal h) ++ []) srcs → s1.me.cc.before = mergeIds s.me.cc.before (s.ccIds h []) →
      ∃ u, body (s.ccCrd h [] extra) s1 = .done u ∧ CcEff s0 s1 u s.cur 8 base [] p ∧ (u.core s.cur).s = s.me.s) (hi : exec i s = r := by rfl) :
    CcDoes i h [] base [] p s0 s := by
  obtain ⟨s1, iss, hbf, -, hgo⟩ := ccWordAt_issues m
  obtain ⟨u, hd, ef, hs⟩ := hb s1 iss hbf
  have hroom := m.room
  obtain ⟨t, ht, rt, ran⟩ := ccFinish_done iss ef hs0 m.fresh (by simpa using hroom.1) hh (m.signal.imp id fun hc => by
    rw [ef.tok _ (by simp), iss.here]
    have := iss.count h.sig.toNat
    omega)
  exact ⟨t, by rw [hi, hr, ccAt, hgo, hd, ht], ran, by rw [rt.core]; exact hs⟩

/-- An instruction of no further coordinate whose body raises. -/
theorem Raises.of_at {code : BitVec 8} {val : Word} (hx : extra = 0) (m : CcMay s h srcs [] 0) (hr : r = ccAt extra h w srcs body s)
    (hb : ∀ s1, body (s.ccCrd h [] 0) s1 = .fault code val) (hi : exec i s = r := by rfl) : Raises i h code val s := by
  subst hx
  exact (hi.trans hr).trans (ccFault_ran m w body code val fun s1 _ => hb s1)

/-- An instruction whose body does `u` and then waits as `x` says. -/
theorem CcWaits.of_eff {x : CCWait} (m : CcMay s h srcs [] extra) (hr : r = ccAt extra h w srcs body s) (hh : base.hold.length ≤ 128)
    (hs0 : s0.cur = s.cur)
    (hb : ∀ s1, CcIssued s s1 (s.ccCrd h [] extra) (waitPresent (s.me.waitVal h) ++ []) srcs → s1.me.cc.before = mergeIds s.me.cc.before (s.ccIds h []) →
      ∃ u, body (s.ccCrd h [] extra) s1 = .wait (u.modCore s.cur fun c => { c with ccWait := some x }) ∧ CcEff s0 s1 u s.cur 8 base [] p ∧
        (u.core s.cur).s = s.me.s) (hi : exec i s = r := by rfl) :
    CcWaits i h base x s0 s := by
  obtain ⟨s1, iss, hbf, -, hgo⟩ := ccWordAt_issues m
  obtain ⟨u, hd, ef, hs⟩ := hb s1 iss hbf
  have ef2 := ef.mod (base' := { base with ccWait := some x }) (fun c => { c with ccWait := some x })
    ⟨fun y h => by unfold CcFrame at *; rw [h], fun _ => rfl, fun _ => rfl⟩ fun _ => rfl
  obtain ⟨t, ht, ran, hst⟩ := ccFinish_waits iss ef2 hs0 (by simpa using m.room.1) hh
  exact ⟨t, by rw [hi, hr, ccAt, hgo, hd, ht], ran, by rw [hst, State.core_modCore_self]; exact hs⟩

/-- A word that waits goes on at the coordinate that the core has reached, and that it inherits. -/
theorem ccWordAt_wakes (hw : s.me.ccWait.isSome = true) (extra : Word) :
    ∃ s1, CcIssued s s1 (maxW s.me.cc.elast extra) [] [] ∧ ∀ h w srcs toks body,
      ccWordAt extra h w srcs toks body s = ccFinish h (maxW s.me.cc.elast extra) s (body (maxW s.me.cc.elast extra) s1) := by
  have x := s.raiseElast_touch s.cur .cc (maxW s.me.cc.elast extra) s.me.pc
  obtain ⟨v, hv⟩ : ∃ v, v = s.raiseElast s.cur .cc (maxW s.me.cc.elast extra) s.me.pc := ⟨_, rfl⟩
  obtain ⟨s1, hs1⟩ : ∃ s1, s1 = v.modCore s.cur fun c => { c with pc := c.pc + 8, fetched := c.fetched.tail } := ⟨_, rfl⟩
  rw [← hv] at x
  have hme : s1.me = { v.core s.cur with pc := (v.core s.cur).pc + 8, fetched := (v.core s.cur).fetched.tail } := by
    rw [hs1]; exact State.me_modCore x.only.cur _
  refine ⟨s1, ⟨hs1 ▸ x.only.trans (.modCore ..), ?_, ?_, fun j _ => ?_, fun j => ?_⟩, fun h w srcs toks body => ?_⟩
  · rw [hme, x.core]; rfl
  · rw [hme]; exact x.log.trans (by simp [State.me])
  · rw [hme]; exact x.tokens j (by simp)
  · rw [hme]; exact congrArg (fun t : Tok => t.count.toNat) (x.tokens j (by simp))
  · unfold ccWordAt
    simp only [hw, if_true]
    rw [← hv, hs1]

section
variable {e : Word} (hw : s.me.ccWait.isSome = true) (me : CcMayEnd s h)
  (hr : r = ccAt extra h w srcs body s)
include hw me hr

/-- A waiting word whose body does `u` ends its wait. -/
theorem CcEnds.of_eff (hh : base.hold.length ≤ 128) (hs0 : s0.cur = s.cur) (hres : base.resumeAt = s.me.resumeAt)
    (hb : ∀ s1, CcIssued s s1 (maxW s.me.cc.elast extra) [] [] →
      ∃ u, body (maxW s.me.cc.elast extra) s1 = .done u ∧ CcEff s0 s1 u s.cur 8 base [] (s.me.pc + 8) ∧ (u.core s.cur).s = s.me.s) (hi : exec i s = r := by rfl) :
    CcEnds i h base s0 s := by
  obtain ⟨s1, iss, hgo⟩ := ccWordAt_wakes hw extra
  obtain ⟨u, hd, ef, hs⟩ := hb s1 iss
  obtain ⟨t, ht, ran, hst⟩ := ccFinish_ends hw iss ef hs0 me (by have := me.room; omega) hh
  rw [hres] at ran
  exact ⟨t, by rw [hi, hr, ccAt, hgo, hd, ht], ran, hst.trans hs⟩

/-- A waiting word whose wait is not over stays. -/
theorem CcDoes.of_wait (hb : ∀ s1, CcIssued s s1 (maxW s.me.cc.elast extra) [] [] → body (maxW s.me.cc.elast extra) s1 = .wait s1) (hi : exec i s = r := by rfl) :
    CcDoes i { h with wait := 0, sig := 0 } [] s.me [] s.me.pc s s := by
  obtain ⟨s1, iss, hgo⟩ := ccWordAt_wakes hw extra
  have hz : waitPresent (s.me.waitVal { h with wait := 0 }) ++ [] = [] := by
    show waitPresent 0 ++ [] = []
    decide
  obtain ⟨t, ht, ran, hst⟩ := ccFinish_waits (h := { h with wait := 0 }) (toks := []) (by rw [hz]; exact iss) iss.self rfl (by have := me.room; simp; omega)
    (by have := me.room; omega)
  refine ⟨t, ?_, ran, hst.trans iss.regs⟩
  rw [hi, hr, ccAt, hgo, hb s1 iss]
  exact ht
end

end

/-! ### Phaser words (R343) -/

theorem mem_mergeIds_left {a b : List Nat} {i : Nat} (h : i ∈ a) : i ∈ mergeIds a b := List.mem_append_left _ h

/-- The core once its phaser cache has learnt an owner. -/
def Core.learnt (c : Core) (ph : BitVec 12) (o : BitVec 12) : Core := { c with phOwn := c.phOwn.set 0 ph.toNat o }
theorem FrameMap.learnt (c : Core) (ph : BitVec 12) (o : BitVec 12) : FrameMap c (c.learnt ph o) fun x => x.learnt ph o :=
  ⟨fun x h => by unfold Core.learnt CcFrame at *; rw [h], fun _ => rfl, fun _ => rfl⟩

section
variable {s s1 : State} {h : Hdr} {o : SY} {e : Word} {ts : List (Nat × Nat)} {srcs : List (BitVec 6 × Bool)} {ph : BitVec 12}

/-- A phaser word that has learnt the owner of its phaser. -/
theorem CcIssued.learnEff (i : CcIssued s s1 e ts srcs) (ph : BitVec 12) :
    CcEff s s1 (s1.learnPh ph) s.cur 0 (s.me.learnt ph (((s.phaser ph).owner.map (·.1)).getD 0)) [] (s.me.pc + 8) ∧ ((s1.learnPh ph).core s.cur).s = s.me.s := by
  have hl : s1.learnPh ph = s1.modCore s.cur fun c => c.learnt ph (((s.phaser ph).owner.map (·.1)).getD 0) := by
    unfold State.learnPh Core.learnt
    rw [i.only.cur, i.only.phaser]
  rw [hl]
  exact ⟨i.self.mod _ (.learnt ..) fun _ => rfl, by rw [State.core_modCore_self]; exact i.regs⟩

theorem phPriv_iff : s.phPriv ph = true ↔ ph.toNat % 1024 < 64 ∨ (s.me.phOwn.get 0 ph.toNat ≠ 0 ∧ s.me.phOwn.get 0 ph.toNat ≠ s.me.cid) := by
  simp [State.phPriv]
theorem phChk_priv (hp : s.phPriv ph = true) (w : Word) (ok : PMember → Bool) : s.phChk w ph ok = .inr (.fault 0x14 w) := if_pos hp
/-- A member is what the tests of a phaser word look for, where its mode allows the form. -/
theorem phChk_member {t : Task} {m : PMember} (hp : s.phPriv ph = false) (hb : s.phBusy ph = false) (ht : s.me.task = some t)
    (ho : (s.phaser ph).owner = none ∨ (s.phaser ph).owner = some (t.cid, t.inc)) (hm : (s.phaser ph).member t = some m) (w : Word) (ok : PMember → Bool) :
    s.phChk w ph ok = if ok m = true then .inl (t, m) else .inr (.fault 0x01 w) := by
  unfold State.phChk
  rw [hp, hb, ht]
  simp only [Bool.false_eq_true, if_false]
  rw [if_neg (by rcases ho with h | h <;> rw [h] <;> simp), hm]
  rfl

end

section
variable {s : State} {h : Hdr} {o : SY}

/-- PHREG and PHDROP are held, or refused. -/
theorem phreg_priv (m : CcMay s h [(o.a, o.la)] [] 0) (hp : s.phPriv (phNum (s.rdS o.a)) = true) :
    Raises (.phreg h o) h 0x14 (Instr.phreg h o).word s ∧ Raises (.phdrop h o) h 0x14 (Instr.phdrop h o).word s ∧
      Raises (.phrd h o) h 0x14 (Instr.phrd h o).word s :=
  ⟨.of_body m (.refl (execPhreg h o s)) fun _ _ => if_pos hp, .of_body m (.refl (execPhdrop h o s)) fun _ _ => if_pos hp,
   .of_body m (.refl (execPhrd h o s)) fun s1 _ => by dsimp only; rw [phChk_priv hp]; rfl⟩
theorem phreg_holds (m : CcMay s h [(o.a, o.la)] [] 0) (hp : ¬s.phPriv (phNum (s.rdS o.a)) = true) :
    Holds (.phreg h o) h h 0 (.phreg (phNum (s.rdS o.a)) (o.imm.extractLsb' 0 2)) none none 0 s ∧
    Holds (.phdrop h o) h h 0 (.phdrop (phNum (s.rdS o.a))) none none 0 s :=
  ⟨.of_done m (.refl (execPhreg h o s)) fun s1 => if_neg hp, .of_done m (.refl (execPhdrop h o s)) fun s1 => if_neg hp⟩
theorem phsig_priv (m : CcMay s h [(o.a, o.la), (o.d, false)] [] 0) (hp : s.phPriv (phNum (s.rdS o.a)) = true) :
    Raises (.phsig h o) h 0x14 (Instr.phsig h o).word s ∧ Raises (.phexp h o) h 0x14 (Instr.phexp h o).word s :=
  ⟨.of_body m (.refl (execPhsig h o s)) fun s1 _ => by dsimp only; rw [phChk_priv hp]; rfl,
   .of_body m (.refl (execPhexp h o s)) fun s1 _ => by dsimp only; rw [phChk_priv hp]; rfl⟩

end

/-- Forms of a task that its phaser registers. -/
structure PhMine (s : State) (ph : BitVec 12) (t : Task) (m : PMember) : Prop where
  open' : s.phPriv ph = false
  idle : s.phBusy ph = false
  task : s.me.task = some t
  owner : (s.phaser ph).owner = none ∨ (s.phaser ph).owner = some (t.cid, t.inc)
  member : (s.phaser ph).member t = some m

/-- The phaser once a member goes on to its next phase. -/
def Phaser.passed (p : Phaser) (t : Task) : Phaser := p.modMember t fun m => { m with mw := m.mw + 1 }

section
variable {s : State} {h : Hdr} {o : SY} {t : Task} {m : PMember} {ph : BitVec 12}

theorem PhMine.chk (hm : PhMine s ph t m) (w : Word) {ok : PMember → Bool} (h : ok m = true) : s.phChk w ph ok = .inl (t, m) := by
  rw [phChk_member hm.open' hm.idle hm.task hm.owner hm.member, if_pos h]
theorem PhMine.refused (hm : PhMine s ph t m) (w : Word) {ok : PMember → Bool} (h : ok m = false) : s.phChk w ph ok = .inr (.fault 0x01 w) := by
  rw [phChk_member hm.open' hm.idle hm.task hm.owner hm.member, if_neg (by rw [h]; simp)]

theorem phrd_reads (hm : PhMine s (phNum (s.rdS o.a)) t m) (mm : CcMay s h [(o.a, o.la)] [] 0) :
    ∃ u, exec (.phrd h o) s = .next u ∧
      CcRan s u h [] (s.me.learnt (phNum (s.rdS o.a)) (((s.phaser (phNum (s.rdS o.a))).owner.map (·.1)).getD 0)) [] (s.me.pc + 8) s ∧
      Wrote s.me (u.core s.cur) o.d (if o.imm = 0 then (s.phaser (phNum (s.rdS o.a))).counter
        else if o.imm = 1 then (s.phaser (phNum (s.rdS o.a))).pending.setWidth 64 else (s.phaser (phNum (s.rdS o.a))).status s.outstanding) :=
  ccWriteAt_ran mm (packSY h 0x19 6 o) o.d _ (k := 0) (by omega) (by have := mm.room; show s.me.hold.length ≤ 128; omega) (.inr (by simp)) rfl
    (body := fun e s' => match s.phChk (packSY h 0x19 6 o) (phNum (s.rdS o.a)) (fun _ => true) with
      | .inr b => b
      | .inl _ => .done ((s'.learnPh (phNum (s.rdS o.a))).wrS o.d e (if o.imm == 0 then (s.phaser (phNum (s.rdS o.a))).counter
          else if o.imm == 1 then (s.phaser (phNum (s.rdS o.a))).pending.setWidth 64 else (s.phaser (phNum (s.rdS o.a))).status s.outstanding)))
    fun s1 i => by
      obtain ⟨ef, hs⟩ := i.learnEff (phNum (s.rdS o.a))
      exact ⟨_, by rw [hm.chk _ rfl]; simp only [beq_iff_eq], ef, hs⟩

/-- PHSIG and PHEXP of a member. -/
theorem phsig_arrives (hm : PhMine s (phNum (s.rdS o.a)) t m) (mm : CcMay s h [(o.a, o.la), (o.d, false)] [] 0) (hsig : m.signals = true)
    (hms : m.ms.toNat ≤ (s.phaser (phNum (s.rdS o.a))).counter.toNat) :
    CcDoes (.phsig h o) h [] (s.me.learnt (phNum (s.rdS o.a)) (((s.phaser (phNum (s.rdS o.a))).owner.map (·.1)).getD 0)) [] (s.me.pc + 8)
      (s.setPhaser (phNum (s.rdS o.a)) ((s.phaser (phNum (s.rdS o.a))).arrive t s.cur (s.ccCrd h [] 0) (phBytes s o)
        (mergeIds s.me.cc.before (s.ccIds h [])))) s :=
  .of_eff mm (.refl (execPhsig h o s)) (by have := mm.room; show s.me.hold.length ≤ 128; omega) rfl fun s1 i hb => by
    obtain ⟨ef, hs⟩ := i.learnEff (phNum (s.rdS o.a))
    refine ⟨_, ?_, (ef.setPhaser _ _).more (by omega), hs⟩
    dsimp only
    rw [hm.chk _ hsig]
    dsimp only
    rw [if_neg (by omega), hb]
theorem phexp_charges (hm : PhMine s (phNum (s.rdS o.a)) t m) (mm : CcMay s h [(o.a, o.la), (o.d, false)] [] 0) :
    CcDoes (.phexp h o) h [] (s.me.learnt (phNum (s.rdS o.a)) (((s.phaser (phNum (s.rdS o.a))).owner.map (·.1)).getD 0)) [] (s.me.pc + 8)
      (s.setPhaser (phNum (s.rdS o.a)) ((s.phaser (phNum (s.rdS o.a))).expect s.cur (s.ccCrd h [] 0) (phBytes s o))) s :=
  .of_eff mm (.refl (execPhexp h o s)) (by have := mm.room; show s.me.hold.length ≤ 128; omega) rfl fun s1 i _ => by
    obtain ⟨ef, hs⟩ := i.learnEff (phNum (s.rdS o.a))
    refine ⟨_, ?_, (ef.setPhaser _ _).more (by omega), hs⟩
    dsimp only
    rw [hm.chk _ rfl]

theorem phWake_fresh (hw : s.me.ccWait = none) : s.phWake = 0 := by rw [State.phWake, hw]
theorem phNow_mine (hm : PhMine s ph t m) : s.phNow ph = s.phInherit ph m.mw := by
  have : s.me.task.bind (s.phaser ph).member = some m := by rw [hm.task]; exact hm.member
  rw [State.phNow, this]

theorem phsw_waits (hw : s.me.ccWait = none) (hm : PhMine s (phNum (s.rdS o.a)) t m) (mm : CcMay s h [(o.a, o.la), (o.d, false)] [] 0)
    (hsig : m.signals = true) (hwt : m.waits = true) (hms : m.ms.toNat ≤ (s.phaser (phNum (s.rdS o.a))).counter.toNat) :
    CcWaits (.phsw h o) h (s.me.learnt (phNum (s.rdS o.a)) (((s.phaser (phNum (s.rdS o.a))).owner.map (·.1)).getD 0)) (.phw (phNum (s.rdS o.a)) m.mw none)
      (s.setPhaser (phNum (s.rdS o.a)) ((s.phaser (phNum (s.rdS o.a))).arrive t s.cur (s.ccCrd h [] 0) (phBytes s o)
        (mergeIds s.me.cc.before (s.ccIds h [])))) s := by
  have hk := phWake_fresh hw
  have mm' : CcMay s h [(o.a, o.la), (o.d, false)] [] s.phWake := by rw [hk]; exact mm
  refine .of_eff (p := s.me.pc + 8) mm' (.refl (execPhsw h o s)) (by have := mm.room; show s.me.hold.length ≤ 128; omega) rfl fun s1 i hb => ?_
  obtain ⟨ef, hs⟩ := i.learnEff (phNum (s.rdS o.a))
  refine ⟨_, ?_, (ef.setPhaser _ _).more (by omega), hs⟩
  rw [hw]
  dsimp only
  rw [hm.chk _ (by rw [hsig, hwt]; rfl)]
  dsimp only
  rw [if_neg (by omega), hb, hk, State.phHold]
  rw [show (State.setPhaser _ _ _ : State).cur = s.cur from (ef.setPhaser _ _).only.cur]

/-- PHWAIT of a member whose phase is released already, of one that waits, and of one that may not wait. -/
theorem phwait_passes (hw : s.me.ccWait = none) (hm : PhMine s (phNum (s.rdS o.a)) t m) (mm : CcMay s h [(o.a, o.la)] [] (s.phNow (phNum (s.rdS o.a))))
    (hwt : m.waits = true) (hlt : m.mw.toNat < (s.phaser (phNum (s.rdS o.a))).counter.toNat) :
    CcDoes (.phwait h o) h [] (s.me.learnt (phNum (s.rdS o.a)) (((s.phaser (phNum (s.rdS o.a))).owner.map (·.1)).getD 0)) [] (s.me.pc + 8)
      (s.setPhaser (phNum (s.rdS o.a)) ((s.phaser (phNum (s.rdS o.a))).passed t)) s :=
  .of_eff (extra := if s.me.ccWait.isSome = true then s.phWake else s.phNow (phNum (s.rdS o.a))) (by rw [hw]; exact mm) (.refl (execPhwait h o s))
    (by have := mm.room; show s.me.hold.length ≤ 128; omega) rfl fun s1 i _ => by
    obtain ⟨ef, hs⟩ := i.learnEff (phNum (s.rdS o.a))
    refine ⟨_, ?_, (ef.setPhaser _ _).more (by omega), hs⟩
    rw [hw]
    dsimp only
    rw [hm.chk _ hwt]
    dsimp only
    rw [if_neg (by omega), phAwait, ef.only.phaser, hm.member]
    dsimp only
    rw [if_neg (by simp; omega)]
    rfl
theorem phwait_waits (hw : s.me.ccWait = none) (hm : PhMine s (phNum (s.rdS o.a)) t m) (mm : CcMay s h [(o.a, o.la)] [] (s.phNow (phNum (s.rdS o.a))))
    (hwt : m.waits = true) (hle : (s.phaser (phNum (s.rdS o.a))).counter.toNat ≤ m.mw.toNat) :
    CcWaits (.phwait h o) h (s.me.learnt (phNum (s.rdS o.a)) (((s.phaser (phNum (s.rdS o.a))).owner.map (·.1)).getD 0)) (.phw (phNum (s.rdS o.a)) m.mw none) s s :=
  .of_eff (p := s.me.pc + 8) (extra := if s.me.ccWait.isSome = true then s.phWake else s.phNow (phNum (s.rdS o.a))) (by rw [hw]; exact mm)
    (.refl (execPhwait h o s)) (by have := mm.room; show s.me.hold.length ≤ 128; omega) rfl fun s1 i _ => by
    obtain ⟨ef, hs⟩ := i.learnEff (phNum (s.rdS o.a))
    refine ⟨_, ?_, ef.more (by omega), hs⟩
    rw [hw]
    dsimp only
    rw [hm.chk _ hwt]
    dsimp only
    rw [if_pos hle, State.phHold, ef.only.cur]
theorem phwait_refused (hw : s.me.ccWait = none) (hm : PhMine s (phNum (s.rdS o.a)) t m) (mm : CcMay s h [(o.a, o.la)] [] (s.phNow (phNum (s.rdS o.a))))
    (hwt : m.waits = false) :
    exec (.phwait h o) s = .next (s.raise s.cur .cc 0x01 (Instr.phwait h o).word (s.ccCrd h [] (s.phNow (phNum (s.rdS o.a)))) true 0) := by
  have hr : exec (.phwait h o) s = ccAt (if s.me.ccWait.isSome = true then s.phWake else s.phNow (phNum (s.rdS o.a))) h (packSY h 0x19 3 o) [(o.a, o.la)] _ s :=
    .refl (execPhwait h o s)
  rw [hr, hw]
  refine ccFault_ran mm _ _ 0x01 _ fun s1 _ => ?_
  dsimp only
  rw [hm.refused _ hwt]
  rfl

/-- Waiting words at a phaser: they go on at its release, or when their member is gone, and else stay. -/
theorem phAwait_goes {s1 : State} {q : BitVec 12} {n : Word} {woke : Option Word} (hc : CoreOnly s s1 s.cur) (hm : (s.phaser q).member t = some m)
    (hg : woke ≠ none ∨ n.toNat < (s.phaser q).counter.toNat) : phAwait q n woke t s1 = .done (s1.setPhaser q ((s.phaser q).passed t)) := by
  rw [phAwait, hc.phaser, hm]
  dsimp only
  rw [if_neg (by cases woke <;> simp at hg ⊢; omega)]
  rfl
theorem phAwait_stays {s1 : State} {q : BitVec 12} {n : Word} (hc : CoreOnly s s1 s.cur) (hm : (s.phaser q).member t = some m)
    (hg : (s.phaser q).counter.toNat ≤ n.toNat) : phAwait q n none t s1 = .wait s1 := by
  rw [phAwait, hc.phaser, hm]
  exact if_pos (by simpa using hg)
theorem phAwait_gone {s1 : State} {q : BitVec 12} {n : Word} {woke : Option Word} (hc : CoreOnly s s1 s.cur) (hm : (s.phaser q).member t = none) :
    phAwait q n woke t s1 = .done s1 := by
  rw [phAwait, hc.phaser, hm]

/-- What a word that waits at a phaser runs. -/
structure PhWaiting (i : Instr) (h : Hdr) (s : State) (t : Task) (q : BitVec 12) (n : Word) (woke : Option Word) : Prop where
  waits : s.me.ccWait.isSome = true
  runs : ∃ extra w srcs body, exec i s = ccAt extra h w srcs body s ∧ ∀ e s1, body e s1 = phAwait q n woke t s1

section
variable {i : Instr} {q : BitVec 12} {n : Word} {woke : Option Word}

theorem PhWaiting.phwait (hw : s.me.ccWait = some (.phw q n woke)) (ht : s.me.task = some t) : PhWaiting (.phwait h o) h s t q n woke :=
  ⟨by rw [hw]; rfl, _, _, _, _, .refl (execPhwait h o s), fun e s1 => by rw [hw, ht]⟩
theorem PhWaiting.phsw (hw : s.me.ccWait = some (.phw q n woke)) (ht : s.me.task = some t) : PhWaiting (.phsw h o) h s t q n woke :=
  ⟨by rw [hw]; rfl, _, _, _, _, .refl (execPhsw h o s), fun e s1 => by rw [hw, ht]⟩
theorem PhWaiting.goes (x : PhWaiting i h s t q n woke) (me : CcMayEnd s h) (hm : (s.phaser q).member t = some m)
    (hg : woke ≠ none ∨ n.toNat < (s.phaser q).counter.toNat) : CcEnds i h s.me (s.setPhaser q ((s.phaser q).passed t)) s := by
  obtain ⟨hw, extra, w, srcs, body, hr, hb⟩ := x
  exact .of_eff hw me hr (by have := me.room; omega) rfl rfl (hi := rfl) fun s1 i =>
    ⟨_, (hb ..).trans (phAwait_goes i.only hm hg), (i.self.setPhaser _ _).more (by omega), i.regs⟩
theorem PhWaiting.stays (x : PhWaiting i h s t q n none) (me : CcMayEnd s h) (hm : (s.phaser q).member t = some m)
    (hg : (s.phaser q).counter.toNat ≤ n.toNat) : CcDoes i { h with wait := 0, sig := 0 } [] s.me [] s.me.pc s s := by
  obtain ⟨hw, extra, w, srcs, body, hr, hb⟩ := x
  exact .of_wait hw me hr (hi := rfl) fun s1 i => (hb ..).trans (phAwait_stays i.only hm hg)
theorem PhWaiting.gone (x : PhWaiting i h s t q n woke) (me : CcMayEnd s h) (hm : (s.phaser q).member t = none) : CcEnds i h s.me s s := by
  obtain ⟨hw, extra, w, srcs, body, hr, hb⟩ := x
  exact .of_eff hw me hr (by have := me.room; omega) rfl rfl (hi := rfl) fun s1 i =>
    ⟨_, (hb ..).trans (phAwait_gone i.only hm), i.self.more (by omega), i.regs⟩
end

end

/-- Settles O13: each phaser word is refused, or learns the owner of its phaser and does to the phaser what R112 to R115 say; a wait ends at the release. -/
theorem phaserWords : Obligations.PhaserWords := by
  unfold Obligations.PhaserWords
  intro h o s ph e bytes p cached priv base wd mine pass
  have mineOf : ∀ t m, mine t m → PhMine s (phNum (s.rdS o.a)) t m := fun t m ⟨h1, h2, h3, h4, h5⟩ => ⟨by rw [← Bool.not_eq_true, phPriv_iff]; exact h1, h2, h3, h4, h5⟩
  refine ⟨fun mm => ⟨fun hp => ?_, fun hp => ?_, fun t m hm => ?_⟩, fun hw mm t m hm => ⟨fun hwt => ?_, fun hwt hlt => ⟨?_, ?_⟩, fun hwt hle => ?_⟩,
    fun mm => ⟨fun hp => ?_, fun t m hm => ⟨fun hs => ?_, fun hs hlt => ?_, fun hs hle => ?_, ?_, rfl, fun hw hs hwt hle => ?_⟩⟩, fun q n woke t hw ht me i hi => ?_⟩
  · exact phreg_priv mm (phPriv_iff.2 hp)
  · exact phreg_holds mm fun h => hp (phPriv_iff.1 h)
  · exact phrd_reads (mineOf t m hm) mm
  · exact phwait_refused hw (mineOf t m hm) mm hwt
  · exact (phNow_mine (mineOf t m hm)).trans (if_pos hlt)
  · exact phwait_passes hw (mineOf t m hm) mm hwt hlt
  · exact phwait_waits hw (mineOf t m hm) mm hwt hle
  · exact phsig_priv mm (phPriv_iff.2 hp)
  · exact .of_body mm (.refl (execPhsig h o s)) fun s1 _ => by dsimp only; rw [(mineOf t m hm).refused _ hs]; rfl
  · refine exec_stalls mm (.refl (execPhsig h o s)) fun e s1 => ?_
    dsimp only
    rw [(mineOf t m hm).chk _ hs]
    exact if_pos hlt
  · exact ⟨_, fun i hi => mem_mergeIds_left hi, phsig_arrives (mineOf t m hm) mm hs hle⟩
  · exact phexp_charges (mineOf t m hm) mm
  · exact ⟨_, fun i hi => mem_mergeIds_left hi, phsw_waits hw (mineOf t m hm) mm hs hwt hle⟩
  · obtain x : PhWaiting i h s t q n woke := by
      rcases List.mem_cons.1 hi with rfl | hi
      · exact .phwait hw ht
      · rw [List.mem_singleton.1 hi]; exact .phsw hw ht
    refine ⟨fun m hm => ⟨x.goes me hm, fun hn hle => ?_⟩, x.gone me⟩
    subst hn
    exact x.stays me hm hle

/-! ### PHASE (R110, R344) -/

theorem CcFrame.withCrd {c : Core} (v : Word) : FrameMap c { c with cc := { c.cc with crd := v } } fun x => { x with cc := { x.cc with crd := v } } :=
  ⟨fun x h => by unfold CcFrame at *; rw [h], fun _ => rfl, fun _ => rfl⟩
/-- CRD set inside an effect, with its log entry. -/
theorem CcIssued.crdEff {s s1 : State} {e : Word} {ts : List (Nat × Nat)} {srcs : List (BitVec 6 × Bool)} (i : CcIssued s s1 e ts srcs)
    (was : EngSt) (e' pc v : Word) :
    CcEff s s1 (s1.setCcCrd was e' pc v) s.cur 1 { s.me with cc := { s.me.cc with crd := v } } [] (s.me.pc + 8) ∧
      ((s1.setCcCrd was e' pc v).core s.cur).s = s.me.s ∧ (s1.setCcCrd was e' pc v).me.cc.before = s1.me.cc.before := by
  obtain ⟨p, hp⟩ : ∃ p : Peel, p = { kind := 9, crd := e', old := (was.crd ++ was.elast).setWidth 256, pc := pc } := ⟨_, rfl⟩
  have hset : s1.setCcCrd was e' pc v = (s1.log s.cur p).modCore s.cur fun c => { c with cc := { c.cc with crd := v } } := by
    rw [State.setCcCrd, hp, i.only.cur]
  have hl := s1.log_logged s.cur p
  rw [hset]
  refine ⟨(i.eff (s1.log_step s.cur p)).mod _ (CcFrame.withCrd v) fun _ => rfl, ?_, ?_⟩
  · rw [State.core_modCore_self, s1.log_s]; exact i.regs
  · rw [State.me, State.modCore_cur, hl.only.cur, i.only.cur, State.core_modCore_self, hl.core, State.me, i.only.cur]

section
variable {s : State} {h : Hdr} {o : SY} {t : Task} {m : PMember} {ph : BitVec 12}

/-- The next phase boundary is above the coordinate of no phase past the last. -/
theorem boundary_eq {n : Word} (h : n.toNat < 0xFFFF) : boundary n = BitVec.ofNat 64 ((n.toNat + 1) * 2 ^ 48) := by
  apply BitVec.eq_of_toNat_eq
  unfold boundary
  rw [BitVec.toNat_shiftLeft, BitVec.toNat_ofNat, Nat.shiftLeft_eq, BitVec.toNat_add]
  rw [show (1 : Word).toNat = 1 from rfl, Nat.mod_eq_of_lt (a := n.toNat + 1) (by omega)]

theorem phase_waits (ht : s.me.task = some t) (hp : t.superPh = some ph) (hm : (s.phaser ph).member t = some m) (hlt : (s.phaser ph).counter.toNat < 0xFFFF)
    (mm : CcMay s h [(o.a, o.la)] [] (boundary (s.phaser ph).counter)) (hms : m.ms.toNat ≤ (s.phaser ph).counter.toNat) :
    CcWaits (.phase h o) h
      { s.me with cc := { s.me.cc with crd := if s.me.cc.crd.ult (boundary (s.phaser ph).counter) then boundary (s.phaser ph).counter else s.me.cc.crd } }
      (.phw ph m.mw none)
      (s.setPhaser ph ((s.phaser ph).arrive t s.cur (s.ccCrd h [] (boundary (s.phaser ph).counter)) ((s.rdS o.a).extractLsb' 0 32)
        (mergeIds s.me.cc.before (s.ccIds h [])))) s := by
  have hph : s.me.task.bind (·.superPh) = some ph := by rw [ht]; exact hp
  have hne : ¬((s.phaser ph).counter == 0xFFFF) = true := by
    rw [beq_iff_eq]; intro h0; rw [h0] at hlt; exact absurd hlt (by decide)
  have hx : (if s.me.ccWait.isSome = true then s.phWake else if (Option.map (fun x : Phaser => x.counter) (Option.map s.phaser (s.me.task.bind (·.superPh)))).getD 0xFFFF == 0xFFFF
      then 0 else boundary ((Option.map (fun x : Phaser => x.counter) (Option.map s.phaser (s.me.task.bind (·.superPh)))).getD 0xFFFF)) = boundary (s.phaser ph).counter := by
    rw [mm.fresh, hph]
    exact if_neg hne
  refine .of_eff (p := s.me.pc + 8) (extra := _) (by rw [hx]; exact mm) (.refl (execPhase h o s)) (by have := mm.room; show s.me.hold.length ≤ 128; omega) rfl
    fun s1 i hb => ?_
  rw [hx] at i ⊢
  obtain ⟨u, hu, ef, hs, hbf⟩ : ∃ u, (if s.me.cc.crd.ult (boundary (s.phaser ph).counter) = true
      then s1.setCcCrd s.me.cc (s.ccCrd h [] (boundary (s.phaser ph).counter)) s.me.pc (boundary (s.phaser ph).counter) else s1) = u ∧
      CcEff s s1 u s.cur 1 { s.me with cc := { s.me.cc with crd := if s.me.cc.crd.ult (boundary (s.phaser ph).counter) then boundary (s.phaser ph).counter else s.me.cc.crd } }
        [] (s.me.pc + 8) ∧ (u.core s.cur).s = s.me.s ∧ u.me.cc.before = mergeIds s.me.cc.before (s.ccIds h []) := by
    cases hc : s.me.cc.crd.ult (boundary (s.phaser ph).counter)
    · exact ⟨s1, by simp, i.self.more (by omega), i.regs, hb⟩
    · obtain ⟨e1, e2, e3⟩ := i.crdEff s.me.cc (s.ccCrd h [] (boundary (s.phaser ph).counter)) s.me.pc (boundary (s.phaser ph).counter)
      exact ⟨_, if_pos rfl, e1, e2, e3.trans hb⟩
  refine ⟨_, ?_, (ef.setPhaser _ _).more (by omega), hs⟩
  rw [ht]
  dsimp only
  rw [Option.bind_some, hp]
  dsimp only [Option.map, Option.getD]
  rw [mm.fresh]
  dsimp only
  rw [if_neg hne, hm]
  dsimp only
  rw [if_neg (by omega)]
  rw [hu, hbf, State.phHold]
  rw [show (State.setPhaser _ _ _ : State).cur = s.cur from (ef.setPhaser _ _).only.cur]
end

section
variable {s : State} {h : Hdr} {o : SY}

theorem phase_ends {t : Task} {m : PMember} {q : BitVec 12} {n : Word} {woke : Option Word} (hw : s.me.ccWait = some (.phw q n woke)) (ht : s.me.task = some t)
    (hp : t.superPh ≠ none) (hm : (s.phaser q).member t = some m) (hg : woke ≠ none ∨ n.toNat < (s.phaser q).counter.toNat) (me : CcMayEnd s h) :
    CcEnds (.phase h o) h s.me (s.setPhaser q ((s.phaser q).passed t)) s := by
  obtain ⟨ph, hph⟩ := Option.ne_none_iff_exists'.1 hp
  refine PhWaiting.goes (n := n) (woke := woke) ⟨by rw [hw]; rfl, _, _, _, _, .refl (execPhase h o s), fun e s1 => ?_⟩ me hm hg
  rw [ht, hw]
  dsimp only
  rw [Option.bind_some, hph]
theorem phase_refused (m : CcMay s h [(o.a, o.la)] [] 0)
    (hn : ∀ t ph, s.me.task = some t → t.superPh = some ph → (s.phaser ph).counter = 0xFFFF) : RaisesIllegal (.phase h o) h s := by
  have hlast : ((s.me.task.bind (·.superPh)).map s.phaser |>.map (·.counter)).getD 0xFFFF = 0xFFFF := by
    cases ht : s.me.task with
    | none => rfl
    | some t =>
      rw [Option.bind_some]
      cases hp : t.superPh with
      | none => rfl
      | some ph => exact hn t ph ht hp
  refine .of_at (extra := _) ?_ m (.refl (execPhase h o s)) fun s1 => ?_
  · rw [m.fresh, hlast]; rfl
  · rw [m.fresh, hlast]
    cases s.me.task with
    | none => rfl
    | some t => rw [Option.bind_some]; cases t.superPh <;> rfl
end

/-! ### SPAWN and SPAWNW (R118, R345) -/

section
variable {s s0 s1 u : State} {n k : Nat} {base : Core} {tx : List Nat} {p : Word}

/-- An effect is one without the mark of an awaited register too. -/
theorem CcEff.unawait {d : BitVec 6} {id : Nat} (ef : CcEff s0 s1 (u.await d id) n k base tx p) (hc : u.cur = n) : CcEff s0 s1 u n k base tx p := by
  unfold State.await at ef
  split at ef
  · exact ef
  · rw [hc] at ef
    obtain ⟨ho, hf, hp, ht, hl⟩ := ef
    rw [State.core_modCore_self] at hf hp ht hl
    refine ⟨⟨?_, fun m hm => (u.core_modCore_ne _ hm).symm.trans (ho.2 m hm)⟩, ?_, hp, ht, hl⟩
    · have := ho.1
      exact congrArg (fun x : State => { x with cores := u.cores }) this
    · unfold CcFrame at *
      exact congrArg (fun c : Core => { c with sPend := (u.core n).sPend }) hf
end

section
variable {s : State} {h : Hdr} {o : SY}

theorem spawnChk_unaligned {a : Word} (h : a.toNat % 64 ≠ 0) : s.spawnChk a = some (.fault 0x07 a) := if_pos (by simpa using h)
theorem spawnChk_refused {a : Word} {f : BitVec 8} (h : a.toNat % 64 = 0) (hk : s.coreKeys s.cur a 64 .r = .inr f) : s.spawnChk a = some (.fault f a) := by
  rw [State.spawnChk, if_neg (by simpa using h), hk]
theorem spawnChk_granted {a : Word} {ks : List Nat} (h : a.toNat % 64 = 0) (hk : s.coreKeys s.cur a 64 .r = .inl ks) :
    s.spawnChk a = if s.me.spawnSlot.isSome then some .stall else none := by
  rw [State.spawnChk, if_neg (by simpa using h), hk]
/-- SPAWN and SPAWNW that a test of theirs stops. -/
theorem spawn_raises (m : CcMay s h [(o.a, o.la)] [] 0) {f : BitVec 8} (hc : s.spawnChk (s.rdS o.a) = some (.fault f (s.rdS o.a))) :
    Raises (.spawn h o) h f (s.rdS o.a) s ∧ Raises (.spawnw h o) h f (s.rdS o.a) s :=
  ⟨.of_body m (.refl (execSpawn h o s)) fun s1 _ => by rw [hc],
   .of_body m (.refl (execSpawnw h o s)) fun s1 _ => by rw [m.fresh]; dsimp only; rw [hc]⟩
theorem spawn_stalls (m : CcMay s h [(o.a, o.la)] [] 0) (hc : s.spawnChk (s.rdS o.a) = some .stall) :
    exec (.spawn h o) s = .next s ∧ exec (.spawnw h o) s = .next s :=
  ⟨exec_stalls m (.refl (execSpawn h o s)) fun e s1 => by rw [hc],
   exec_stalls m (.refl (execSpawnw h o s)) fun e s1 => by rw [m.fresh]; dsimp only; rw [hc]⟩
theorem spawn_holds (m : CcMay s h [(o.a, o.la)] [] 0) (hc : s.spawnChk (s.rdS o.a) = none) :
    Holds (.spawn h o) h h 0 (.spawn (s.rdS o.a) false) (some 3) none 0 s :=
  .of_done m (.refl (execSpawn h o s)) fun s1 => by rw [hc]; rfl
theorem spawnw_waits (m : CcMay s h [(o.a, o.la)] [] 0) (hc : s.spawnChk (s.rdS o.a) = none) :
    ∃ x, HeldAs s h x (s.ccCrd h [] 0) 0 (.spawn (s.rdS o.a) true) (some 3) none ∧
      CcWaits (.spawnw h o) h (s.heldBase x) (.spawnw none x.id) (s.withHeld x) s := by
  obtain ⟨s1, i, hbf, -, hgo⟩ := ccWordAt_issues m
  have hids : s.ccIds h [] = s.me.waitIds (s.me.waitVal h) := by simp [State.ccIds, mergeIds]
  obtain ⟨x, hh, ef, hs, hp⟩ := State.ccHold_eff (h := h) i (by rw [hbf, hids]; rfl) (s.ccCrd h [] 0) (packSY h 0x1B 1 o) 0 (.spawn (s.rdS o.a) true) (some 3) none 1
  have hc0 : (s.withHeld x).cur = s.cur := by unfold State.withHeld; split <;> rfl
  have hu : (s1.ccHold (s.ccCrd h [] 0) (packSY h 0x1B 1 o) 0 (.spawn (s.rdS o.a) true) (some 3) none).cur = s.cur := by
    have := ef.only.cur.trans hc0
    unfold State.await at this
    split at this
    · exact this
    · exact this
  have hid : s1.placedId = x.id := by
    have := hp (by decide)
    unfold State.await at this
    rw [if_neg (by decide), hu, State.core_modCore_self] at this
    rwa [SMap.get_set_self] at this
  have hroom := m.room
  have hbase : (s.heldBase x).hold.length ≤ 128 := by
    show (if isSup s.cur then s.me.hold else s.me.hold ++ [x]).length ≤ 128
    split
    · omega
    · rw [List.length_append]; show _ + 1 ≤ 128; omega
  have ef2 := (ef.unawait hu).mod (base' := { s.heldBase x with ccWait := some (.spawnw none x.id) }) (fun c => { c with ccWait := some (.spawnw none x.id) })
    ⟨fun y h => by unfold CcFrame at *; rw [h], fun _ => rfl, fun _ => rfl⟩ fun _ => rfl
  obtain ⟨t, ht, ran, hst⟩ := ccFinish_waits i ef2 hc0 (by simpa using (by omega : s.me.peel.length + 4 ≤ 1024)) hbase
  refine ⟨x, hh, t, ?_, ran, ?_⟩
  · have hr : exec (.spawnw h o) s = ccAt 0 h (packSY h 0x1B 1 o) [(o.a, o.la)] _ s := .refl (execSpawnw h o s)
    rw [hr, ccAt, hgo, m.fresh]
    dsimp only
    rw [hc]
    dsimp only
    rw [hid]
    exact ht
  · rw [hst, State.core_modCore_self]
    rw [show ∀ u : State, u.cur = s.cur → ((u.await 1 s1.placedId).core s.cur).s = (u.core s.cur).s from fun u hu => by
      unfold State.await; rw [if_neg (by decide), hu, State.core_modCore_self]] at hs
    · exact hs
    · exact hu
theorem spawnw_ends {w : Option Nat} {id k : Nat} {l : Launch} (hw : s.me.ccWait = some (.spawnw w id)) (hl : (k, some l) ∈ s.launches) (hid : l.spawnId = id)
    (hst : l.st = .complete) (me : CcMayEnd s h) : CcEnds (.spawnw h o) h s.me s s := by
  refine .of_eff (extra := 0) (by rw [hw]; rfl) me (.refl (execSpawnw h o s)) (by have := me.room; omega) rfl rfl fun s1 i => ⟨_, ?_, i.self.more (by omega), i.regs⟩
  rw [hw]
  dsimp only
  rw [if_pos]
  exact List.any_eq_true.2 ⟨_, hl, by simp [hid, hst]⟩
end

/-- Settles O15: PHASE raises CRD and waits at its superstep phaser, SPAWN and SPAWNW hold a launch that their tests let through. -/
theorem superstepsSpawns : Obligations.SuperstepsSpawns := by
  unfold Obligations.SuperstepsSpawns
  refine ⟨⟨?_, fun h o s t q n woke m hw ht hp hm hg me => phase_ends hw ht hp hm hg me, fun h o s m hn => phase_refused m hn⟩,
    fun h o s m => ?_, fun h o s w id k l hw hl hid hst me => spawnw_ends hw hl hid hst me⟩
  · intro h o s t ph m ht hp hm p b e hlt mm hms
    have hb : boundary p.counter = b := boundary_eq hlt
    rw [← hb] at mm
    have x := phase_waits ht hp hm hlt mm hms
    rw [show boundary (s.phaser ph).counter = b from hb] at x
    refine ⟨mergeIds s.me.cc.before (s.ccIds h []), fun i hi => mem_mergeIds_left hi, ?_⟩
    simpa only [BitVec.ult_eq_decide, decide_eq_true_iff] using x
  · intro a
    refine ⟨fun hx => spawn_raises m (spawnChk_unaligned hx), fun f hx hk => spawn_raises m (spawnChk_refused hx hk), fun ks hx hk => ⟨fun hs => ?_, fun hs => ?_⟩⟩
    · exact spawn_stalls m ((spawnChk_granted hx hk).trans (if_pos (by rw [Option.isSome_iff_ne_none]; exact hs)))
    · have hc : s.spawnChk (s.rdS o.a) = none := (spawnChk_granted hx hk).trans (if_neg (by rw [hs]; simp))
      exact ⟨spawn_holds m hc, spawnw_waits m hc⟩

end Sys2Proof.Machine
end

section
/-! PROOFS of the CacheWords statement (O16): words over a range of lines, the locks of the instruction cache, and the fetch barrier. -/

set_option Elab.async false

namespace Sys2Proof.Machine

/-! ### A word that writes a register, from the state after its issue -/

/-- What a word answers whose effect, from the state `s1` after its issue, does `u` and writes a register. -/
theorem ccAt_writes {s : State} {h : Hdr} {srcs : List (BitVec 6 × Bool)} {extra : Word} {i : Instr} {w : Word} {body : Word → State → Body} {r : Result}
    (m : CcMay s h srcs [] extra) (hr : r = ccAt extra h w srcs body s) (hi : exec i s = r := by rfl) :
    ∃ s1, CcIssued s s1 (s.ccCrd h [] extra) (waitPresent (s.me.waitVal h) ++ []) srcs ∧ s1.nextId = s.nextId ∧
      ∀ s0 u base c0 k p d v, body (s.ccCrd h [] extra) s1 = .done (u.wrS d (s.ccCrd h [] extra) v) → CcEff s0 s1 u s.cur k base [] p → k ≤ 7 → s0.cur = s.cur →
        base.hold.length ≤ 128 → (u.core s.cur).s = c0.s →
        ∃ t, exec i s = .next t ∧ CcRan s t h [] base [] p s0 ∧ Wrote c0 (t.core s.cur) d v := by
  obtain ⟨s1, iss, -, hid, hgo⟩ := ccWordAt_issues m
  refine ⟨s1, iss, hid, fun s0 u base c0 k p d v hb ef hk hs0 hh hs => ?_⟩
  have hroom := m.room
  have ef2 := ef.wrS hs0 d (s.ccCrd h [] extra) v
  obtain ⟨t, ht, rt, ran⟩ := ccFinish_done iss ef2 hs0 m.fresh (by simp; omega) hh (m.signal.imp id fun hc => by
    rw [ef2.tok _ (by simp), iss.here]
    have := iss.count h.sig.toNat
    omega)
  have w2 := (u.wrSOf_step s.cur d (s.ccCrd h [] extra) v).2
  have hu : u.wrS d (s.ccCrd h [] extra) v = u.wrSOf s.cur d (s.ccCrd h [] extra) v := by rw [State.wrS, ef.only.cur, hs0]
  have hts : (t.core s.cur).s = ((u.wrSOf s.cur d (s.ccCrd h [] extra) v).core s.cur).s := by rw [rt.core, hu]
  obtain ⟨w21, w22, w23⟩ := w2
  refine ⟨t, by rw [hi, hr, ccAt, hgo, hb, ht], ran, fun j hj => ?_, fun hd => ?_, fun hd => ?_⟩
  · rw [hts, w21 j hj, hs]
  · rw [hts, w22 hd]
  · rw [hts, w23 hd, hs]

/-! ### The locks of the instruction cache (R166) -/

/-- An operation on the instruction cache of core `n`, by which no line loses its lock. -/
structure Locks (s t : State) (n : Nat) : Prop where
  only : CoreOnly s t n
  core : t.core n = { s.core n with icache := (t.core n).icache }
  keeps : ∀ x, icLocked (s.core n).icache x = true → icLocked (t.core n).icache x = true

theorem Locks.refl (s : State) (n : Nat) : Locks s s n := ⟨.refl s n, rfl, fun _ => id⟩
theorem Locks.trans {s t u : State} {n : Nat} (a : Locks s t n) (b : Locks t u n) : Locks s u n :=
  ⟨a.only.trans b.only, by rw [b.core, a.core], fun x h => b.keeps x (a.keeps x h)⟩

theorem icLocked_iff {m : SMap ICLine} {a : Nat} :
    icLocked m a = true ↔ ∃ w < 4, (m.get {} (icSet a * 4 + w)).locked = true ∧ (m.get {} (icSet a * 4 + w)).addr = a / 64 := by
  simp [icLocked, List.any_eq_true]
/-- The cache once a line is locked in way `w`, out of way `old` if that is one. -/
def lockedAt (m : SMap ICLine) (a w old : Nat) (d : BitVec 512) : SMap ICLine :=
  (if old < 4 then m.set {} (icSet a * 4 + old) {} else m).set {} (icSet a * 4 + w) { addr := a / 64, valid := true, data := d, locked := true }
theorem lockedAt_locks {m : SMap ICLine} {a w old : Nat} {d : BitVec 512} (hw : w < 4) : icLocked (lockedAt m a w old d) a = true :=
  icLocked_iff.2 ⟨w, hw, by rw [lockedAt, SMap.get_set_self]; exact ⟨rfl, rfl⟩⟩
theorem icFind_addr {m : SMap ICLine} {a : Nat} (h : icFind m a < 4) : (m.get {} (icSet a * 4 + icFind m a)).addr = a / 64 := by
  unfold icFind at *
  cases hf : (List.range 4).find? fun w => let l := m.get {} (icSet a * 4 + w); l.valid && l.addr == a / 64 with
  | none => rw [hf] at h; exact absurd h (by decide)
  | some w =>
    have := List.find?_some (p := fun w => (m.get {} (icSet a * 4 + w)).valid && (m.get {} (icSet a * 4 + w)).addr == a / 64) hf
    simpa using (Bool.and_eq_true_iff.1 this).2
theorem lockedAt_keeps {m : SMap ICLine} {a w : Nat} {d : BitVec 512} (hn : icLocked m a = false) (hw : (m.get {} (icSet a * 4 + w)).locked = false)
    (x : Nat) (h : icLocked m x = true) : icLocked (lockedAt m a w (icFind m a) d) x = true := by
  obtain ⟨v, hv, hl, ha⟩ := icLocked_iff.1 h
  refine icLocked_iff.2 ⟨v, hv, ?_⟩
  have h1 : icSet x * 4 + v ≠ icSet a * 4 + w := fun he => by rw [he, hw] at hl; cases hl
  rw [lockedAt, SMap.get_set_ne _ _ _ h1]
  split
  case isFalse => exact ⟨hl, ha⟩
  case isTrue ho =>
    have h2 : icSet x * 4 + v ≠ icSet a * 4 + icFind m a := fun he => by
      rw [he] at hl
      rw [icLocked_iff.2 ⟨_, ho, hl, icFind_addr ho⟩] at hn
      cases hn
    rw [SMap.get_set_ne _ _ _ h2]
    exact ⟨hl, ha⟩

/-- R166: a line that is locked already, one that finds no way, and one that is locked now. -/
theorem State.lockLine_cases (s : State) (n a : Nat) :
    (icLocked (s.core n).icache a = true ∧ s.lockLine n a = s) ∨
    (icLocked (s.core n).icache a = false ∧ ((s.core n).icache.get {} (icSet a * 4 + 2)).locked = true ∧ s.lockLine n a = s) ∨
    ∃ w < 4, ∃ d, icLocked (s.core n).icache a = false ∧ ((s.core n).icache.get {} (icSet a * 4 + w)).locked = false ∧
      s.lockLine n a = s.modCore n fun c => { c with icache := lockedAt (s.core n).icache a w (icFind (s.core n).icache a) d } := by
  unfold State.lockLine
  dsimp only
  cases hl : icLocked (s.core n).icache a
  case true => exact .inl ⟨rfl, if_pos rfl⟩
  case false =>
    right
    rw [if_neg (by simp)]
    by_cases h2 : ((s.core n).icache.get {} (icSet a * 4 + 2)).locked = true
    · by_cases h3 : ((s.core n).icache.get {} (icSet a * 4 + 3)).locked = true
      · exact .inl ⟨rfl, h2, by rw [if_neg (by simpa using h2), if_neg (by simpa using h3)]⟩
      · exact .inr ⟨3, by omega, s.lineData n a, rfl, by simpa using h3, by rw [if_neg (by simpa using h2), if_pos (by simpa using h3)]; rfl⟩
    · exact .inr ⟨2, by omega, s.lineData n a, rfl, by simpa using h2, by rw [if_pos (by simpa using h2)]; rfl⟩
theorem State.lockLine_locks (s : State) (n a : Nat) : Locks s (s.lockLine n a) n := by
  obtain ⟨-, h⟩ | ⟨-, -, h⟩ | ⟨w, hw, d, hn, hf, h⟩ := s.lockLine_cases n a
  · rw [h]; exact .refl s n
  · rw [h]; exact .refl s n
  · rw [h]
    exact ⟨.modCore .., by rw [State.core_modCore_self], fun x hx => by rw [State.core_modCore_self]; exact lockedAt_keeps hn hf x hx⟩
theorem State.lockLines_locks (s : State) (n a k : Nat) : Locks s (s.lockLines n a k) n := by
  induction k generalizing s a with
  | zero => exact .refl s n
  | succ k ih => exact (s.lockLine_locks n a).trans (ih _ _)
/-- A line whose set has way 2 free is locked in the end. -/
theorem State.lockLine_free (s : State) (n a : Nat) (h : ((s.core n).icache.get {} (icSet a * 4 + 2)).locked = false) :
    icLocked ((s.lockLine n a).core n).icache a = true := by
  obtain ⟨hl, ht⟩ | ⟨-, hl, -⟩ | ⟨w, hw, d, -, -, ht⟩ := s.lockLine_cases n a
  · rw [ht]; exact hl
  · rw [h] at hl; cases hl
  · rw [ht, State.core_modCore_self]; exact lockedAt_locks hw

/-! ### The words (R346 to R348) -/

section
variable {s : State} {h : Hdr} {o : SY}

/-- A held cache word: refused, or held over its range. -/
theorem ccRangeHold_refused {i : Instr} {w : Word} {act : Word → Nat → Act} (m : CcMay s h [(o.a, o.la)] [] 0)
    (hr : s.rangeOk (lineRange o s).1 (64 * (lineRange o s).2) = false) (hi : exec i s = ccRangeHold h w o act s) : Raises i h 0x07 (s.rdS o.a) s :=
  have hn : (!s.rangeOk (lineRange o s).1 (64 * (lineRange o s).2)) = true := by rw [hr]; rfl
  .of_body m (.refl (ccRangeHold h w o act s)) (fun _ _ => if_pos hn) hi
theorem ccRangeHold_holds {i : Instr} {w : Word} {act : Word → Nat → Act} (m : CcMay s h [(o.a, o.la)] [] 0)
    (hr : s.rangeOk (lineRange o s).1 (64 * (lineRange o s).2) = true) (hi : exec i s = ccRangeHold h w o act s) :
    Holds i h h 0 (act (BitVec.ofNat 64 (lineRange o s).1) (lineRange o s).2) none none 0 s :=
  have hn : ¬(!s.rangeOk (lineRange o s).1 (64 * (lineRange o s).2)) = true := by rw [hr]; simp
  .of_done m (.refl (ccRangeHold h w o act s)) (fun _ => if_neg hn) hi

theorem cacheWords_refused (m : CcMay s h [(o.a, o.la)] [] 0) (hr : s.rangeOk (lineRange o s).1 (64 * (lineRange o s).2) = false) :
    Raises (.dwb h o) h 0x07 (s.rdS o.a) s ∧ Raises (.dinv h o) h 0x07 (s.rdS o.a) s ∧ Raises (.iinv h o) h 0x07 (s.rdS o.a) s ∧
      Raises (.ilock h o) h 0x07 (s.rdS o.a) s ∧ Raises (.iunlk h o) h 0x07 (s.rdS o.a) s := by
  have hn : (!s.rangeOk (lineRange o s).1 (64 * (lineRange o s).2)) = true := by rw [hr]; rfl
  exact ⟨ccRangeHold_refused m hr rfl, ccRangeHold_refused m hr rfl, ccRangeHold_refused m hr rfl,
    .of_body m (.refl (execIlock h o s)) fun _ _ => if_pos hn, .of_body m (.refl (execIunlk h o s)) fun _ _ => if_pos hn⟩

variable (m : CcMay s h [(o.a, o.la)] [] 0) (hr : s.rangeOk (lineRange o s).1 (64 * (lineRange o s).2) = true)
include m hr

theorem cacheWords_held : Holds (.dwb h o) h h 0 (.dwb (BitVec.ofNat 64 (lineRange o s).1) (lineRange o s).2) none none 0 s ∧
    Holds (.dinv h o) h h 0 (.dinv (BitVec.ofNat 64 (lineRange o s).1) (lineRange o s).2) none none 0 s ∧
    Holds (.iinv h o) h h 0 (.iinv (o.sel.extractLsb' 0 3) (BitVec.ofNat 64 (lineRange o s).1) (lineRange o s).2) none none 0 s :=
  ⟨ccRangeHold_holds m hr rfl, ccRangeHold_holds m hr rfl, ccRangeHold_holds m hr rfl⟩
theorem ilock_full (hf : 16 ≤ s.me.locks.length) : Computes (.ilock h o) h o.d 0 s :=
  .of_body m (.refl (execIlock h o s)) fun e s1 _ => by
    have hn : ¬(!s.rangeOk (lineRange o s).1 (64 * (lineRange o s).2)) = true := by rw [hr]; simp
    exact (if_neg hn).trans (if_pos hf)
theorem iunlk_unlocks : CcDoes (.iunlk h o) h [] { s.me with
      icache := unlockRange s.me.icache (lineRange o s).1 (lineRange o s).2
      locks := s.me.locks.filter fun r =>
        !(decide ((lineRange o s).1 ≤ r.addr) && decide (r.addr + 64 * r.lines ≤ (lineRange o s).1 + 64 * (lineRange o s).2)) } [] (s.me.pc + 8) s s := by
  have hn : ¬(!s.rangeOk (lineRange o s).1 (64 * (lineRange o s).2)) = true := by rw [hr]; simp
  refine .of_core m (.refl (execIunlk h o s)) (fun c => { c with
      icache := unlockRange c.icache (lineRange o s).1 (lineRange o s).2
      locks := c.locks.filter fun r =>
        !(decide ((lineRange o s).1 ≤ r.addr) && decide (r.addr + 64 * r.lines ≤ (lineRange o s).1 + 64 * (lineRange o s).2)) }) rfl
    ⟨fun x h => by unfold CcFrame at *; rw [h], fun _ => rfl, fun _ => rfl⟩ (fun _ => rfl) (fun _ => rfl) fun s1 i =>
    ⟨_, if_neg hn, .modCore .., by rw [State.core_modCore_self]; rfl, by rw [State.core_modCore_self]; exact Nat.le_add_right ..⟩

/-- ILOCK with room for its range. -/
theorem ilock_locks (hl : s.me.locks.length < 16) : ∃ (ic : SMap ICLine) (l : List LockRange) (t : State),
    exec (.ilock h o) s = .next t ∧ CcRan s t h [] { s.me with icache := ic, locks := l } [] (s.me.pc + 8) s ∧
    Wrote s.me (t.core s.cur) o.d (BitVec.ofNat 64 (lockedLines ic (lineRange o s).1 (lineRange o s).2)) ∧
    (∀ x, icLocked s.me.icache x = true → icLocked ic x = true) ∧
    (lockedLines ic (lineRange o s).1 (lineRange o s).2 = 0 → l = s.me.locks) ∧
    (lockedLines ic (lineRange o s).1 (lineRange o s).2 ≠ 0 → l = s.me.locks ++ [{ addr := (lineRange o s).1, lines := (lineRange o s).2 }]) ∧
    ((lineRange o s).2 = 1 → (s.me.icache.get {} (icSet (lineRange o s).1 * 4 + 2)).locked = false → lockedLines ic (lineRange o s).1 (lineRange o s).2 = 1) := by
  have hn : ¬(!s.rangeOk (lineRange o s).1 (64 * (lineRange o s).2)) = true := by rw [hr]; simp
  obtain ⟨s1, i, -, hw⟩ := ccAt_writes m (.refl (execIlock h o s)) (i := .ilock h o)
  generalize hra : (lineRange o s).1 = a at *
  generalize hrk : (lineRange o s).2 = k at *
  obtain ⟨v, hv⟩ : ∃ v, v = s1.lockLines s.cur a k := ⟨_, rfl⟩
  have lk : Locks s1 v s.cur := hv ▸ s1.lockLines_locks s.cur a k
  have hic : (s1.core s.cur).icache = s.me.icache := by rw [i.here, i.core]
  have hlk : (s1.core s.cur).locks = s.me.locks := by rw [i.here, i.core]
  have hvc : v.me = v.core s.cur := by rw [State.me, lk.only.cur, i.only.cur]
  obtain ⟨u, hu, ef, hus⟩ : ∃ u, (if (lockedLines v.me.icache a k == 0) = true then v else v.modCore s.cur fun c => { c with locks := c.locks ++ [{ addr := a, lines := k }] }) = u ∧
      CcEff s s1 u s.cur 0 { s.me with icache := (v.core s.cur).icache, locks := if (lockedLines (v.core s.cur).icache a k == 0) = true then s.me.locks else s.me.locks ++ [{ addr := a, lines := k }] } [] (s.me.pc + 8) ∧
      (u.core s.cur).s = s.me.s := by
    have hf := i.frame
    rw [hvc]
    cases lockedLines (v.core s.cur).icache a k == 0
    · refine ⟨_, if_neg (by simp), ⟨(i.only.trans lk.only).trans (.modCore ..), ?_, ?_, fun j _ => ?_, ?_⟩, ?_⟩ <;> rw [State.core_modCore_self, lk.core]
      · unfold CcFrame at *; rw [if_neg (by simp), hf]
      · exact i.pc
      · exact Nat.le_refl _
      · exact i.regs
    · refine ⟨v, if_pos rfl, ⟨i.only.trans lk.only, ?_, ?_, fun j _ => ?_, ?_⟩, ?_⟩ <;> rw [lk.core]
      · unfold CcFrame at *; rw [if_pos rfl, hf]
      · exact i.pc
      · exact Nat.le_refl _
      · exact i.regs
  obtain ⟨t, ht, ran, wr⟩ := hw s u _ s.me 0 _ o.d (BitVec.ofNat 64 (lockedLines (v.core s.cur).icache a k)) (by
    dsimp only
    rw [hra, hrk, if_neg hn, if_neg (by omega), ← hv, hu, hvc]) ef (by omega) rfl (by have := m.room; show s.me.hold.length ≤ 128; omega) hus
  refine ⟨(v.core s.cur).icache, _, t, ht, ran, wr, fun x hx => lk.keeps x (by rw [hic]; exact hx), fun h0 => if_pos (by rw [h0]; rfl),
    fun h0 => if_neg (by simpa using h0), fun hk1 h2 => ?_⟩
  have : icLocked (v.core s.cur).icache a = true := by
    rw [hv, hk1]
    exact State.lockLine_free s1 s.cur a (by rw [hic]; exact h2)
  rw [hk1]
  simp [lockedLines, this]
end

/-- FETCHB waits for the core's earlier IINVs. -/
theorem fetchb_iff {s : State} : (∃ x ∈ s.me.hold ++ s.flying, x.core = s.cur ∧ ∃ sc a n, x.act = .iinv sc a n) ↔
    (s.me.hold.any (fun x => x.core == s.cur && (match x.act with | .iinv _ _ _ => true | _ => false)) ||
      s.flying.any (fun x => x.core == s.cur && (match x.act with | .iinv _ _ _ => true | _ => false))) = true := by
  rw [← List.any_append, List.any_eq_true]
  refine exists_congr fun x => and_congr_right fun _ => ?_
  rw [Bool.and_eq_true, beq_iff_eq]
  refine and_congr_right fun _ => ⟨fun ⟨sc, a, n, hx⟩ => by rw [hx], fun hx => ?_⟩
  split at hx
  case h_1 sc a n ha => exact ⟨sc, a, n, ha⟩
  case h_2 => cases hx

/-- Settles O16: cache words are held over their range, or act on the core's instruction cache and its locks alone. -/
theorem cacheWords : Obligations.CacheWords := by
  unfold Obligations.CacheWords
  refine ⟨fun h o s m => ⟨fun hr => cacheWords_refused m hr, fun hr => ?_⟩, fun h o s m => ⟨fun hp => ?_, fun hp => ?_⟩⟩
  · obtain ⟨h1, h2, h3⟩ := cacheWords_held m hr
    exact ⟨h1, h2, h3, ilock_full m hr, ilock_locks m hr, iunlk_unlocks m hr⟩
  · exact exec_stalls m (.refl (execFetchb h o s)) fun e s1 => if_pos (fetchb_iff.1 hp)
  · obtain ⟨s1, s2, t, i, hd, ef, r, hn, ran⟩ := ccDone_ran m (packSY h 0x1E 0 o) (k := 0) (base := s.me) (tx := []) (p := s.me.pc + 8) (s0 := s)
      (body := fun _ s' => if s.me.hold.any (fun x => x.core == s.cur && (match x.act with | .iinv _ _ _ => true | _ => false)) ||
        s.flying.any (fun x => x.core == s.cur && (match x.act with | .iinv _ _ _ => true | _ => false)) then .stall
        else .done (s'.modCore s.cur fun c => { c with fetched := [] }))
      (by omega) (by have := m.room; omega) (.inr (by simp)) rfl fun s1 i =>
      ⟨_, if_neg (mt fetchb_iff.2 hp), i.self.mod _ ⟨fun x h => by unfold CcFrame at *; rw [h], fun _ => rfl, fun _ => rfl⟩ fun _ => rfl⟩
    rw [if_neg (mt fetchb_iff.2 hp)] at hd
    injection hd with hd
    refine ⟨t, hn, ran, ?_, ?_⟩ <;> rw [r.core, ← hd, State.core_modCore_self]
    exact i.regs

end Sys2Proof.Machine
end

section
/-! PROOFS of the EngineConfiguration statement (O17) and the SystemRegisters statement (O18): items and registers read and written. -/

set_option Elab.async false

namespace Sys2Proof.Machine

/-! ### Configuration items (R312, R349) -/

/-- Where a listed RW item lies. -/
inductive CfgKind (k : Nat) : Prop where
  | seed (h : k = 0x210)
  | qtemp (h : k = 0x211)
  | nest (h : 0x340 ≤ k ∧ k < 0x3C0)
  | slot (h : 0x440 ≤ k ∧ k < 0x4C0)

theorem cfgItem_ring {c : Core} {k : Nat} (h : k % 256 < 2) (h1 : 1 ≤ k / 256) (h5 : k / 256 ≤ 5) :
    c.cfgItem k = some (if k % 256 = 0 then (c.eng (engOfNum (k / 256))).ring.cfg else (c.eng (engOfNum (k / 256))).ring.ptrs) := by
  unfold Core.cfgItem
  dsimp only
  rw [if_neg (by simp; omega)]
  by_cases hz : k % 256 = 0
  · rw [if_pos (by simpa using hz), if_pos hz]
  · rw [if_neg (by simpa using hz), if_pos (by simp; omega), if_neg hz]
theorem cfgItem_seed (c : Core) : c.cfgItem 0x210 = some c.seed := rfl
theorem cfgItem_qtemp (c : Core) : c.cfgItem 0x211 = some (c.qtemp.setWidth 64) := rfl
theorem cfgItem_nest {c : Core} {k : Nat} (h : 0x340 ≤ k ∧ k < 0x3C0) : c.cfgItem k = some (c.mx.shadow.get 0 (k - 0x340)) := by
  have h1 : k / 256 = 3 := by omega
  have h2 : k % 256 = k - 0x300 := by omega
  unfold Core.cfgItem
  dsimp only
  rw [h1, h2, if_neg (by decide), if_neg (by simp; omega), if_neg (by simp; omega), if_neg (by simp), if_neg (by simp), if_pos (by simp; omega)]
  rw [Nat.sub_sub]
theorem cfgItem_slot {c : Core} {k : Nat} (h : 0x440 ≤ k ∧ k < 0x4C0) : c.cfgItem k = some (c.cslot.get 0 (k - 0x440)) := by
  have h1 : k / 256 = 4 := by omega
  have h2 : k % 256 = k - 0x400 := by omega
  unfold Core.cfgItem
  dsimp only
  rw [h1, h2, if_neg (by decide), if_neg (by simp; omega), if_neg (by simp; omega), if_neg (by simp), if_neg (by simp), if_neg (by simp), if_pos (by simp; omega)]
  rw [Nat.sub_sub]
/-- An item that is neither a ring's nor listed RW is not listed. -/
theorem cfgItem_none {c : Core} {k : Nat} (h : ¬(k % 256 < 2 ∧ 1 ≤ k / 256 ∧ k / 256 ≤ 5)) (hk : ¬CfgKind k) : c.cfgItem k = none := by
  have h1 : k ≠ 0x210 := fun e => hk (.seed e)
  have h2 : k ≠ 0x211 := fun e => hk (.qtemp e)
  have h3 : ¬(0x340 ≤ k ∧ k < 0x3C0) := fun e => hk (.nest e)
  have h4 : ¬(0x440 ≤ k ∧ k < 0x4C0) := fun e => hk (.slot e)
  unfold Core.cfgItem
  dsimp only
  by_cases h0 : (k / 256 == 0 || decide (5 < k / 256)) = true
  · rw [if_pos h0]
  · rw [if_neg h0]
    simp only [Bool.or_eq_true, beq_iff_eq, decide_eq_true_iff] at h0
    rw [if_neg (by simp; omega), if_neg (by simp; omega), if_neg (by simp; omega), if_neg (by simp; omega), if_neg (by simp; omega), if_neg (by simp; omega)]
theorem CfgKind.of_listed {c : Core} {k : Nat} (h : c.cfgItem k ≠ none) (h2 : 2 ≤ k % 256) : CfgKind k := by
  by_contra hk
  exact h (cfgItem_none (by omega) hk)

/-- What a write of an item makes of a core. -/
theorem putCfg_seed (c : Core) (v : Word) : c.putCfg 0x210 v = { c with seed := v } := rfl
theorem putCfg_qtemp (c : Core) (v : Word) : c.putCfg 0x211 v = { c with qtemp := v.setWidth 32 } := rfl
theorem putCfg_nest {c : Core} {k : Nat} (h : 0x340 ≤ k ∧ k < 0x3C0) (v : Word) :
    c.putCfg k v = { c with mx := { c.mx with shadow := c.mx.shadow.set 0 (k - 0x340) (if k % 16 = 0 then v &&& ~~~(0xF#64 <<< 60) else v) } } := by
  have h1 : k / 256 = 3 := by omega
  have h2 : k % 256 = k - 0x300 := by omega
  have h3 : ((k - 0x300 - 0x40) % 16 == 0) = decide (k % 16 = 0) := by
    rw [show k - 0x300 - 0x40 = k - 0x340 by omega, beq_eq_decide, decide_eq_decide]; omega
  unfold Core.putCfg
  dsimp only
  rw [h1, h2, if_neg (by simp), if_neg (by simp), if_pos (by simp; omega), h3, Nat.sub_sub]
  simp only [decide_eq_true_eq]
theorem putCfg_slot {c : Core} {k : Nat} (h : 0x440 ≤ k ∧ k < 0x4C0) (v : Word) : c.putCfg k v = { c with cslot := c.cslot.set 0 (k - 0x440) v } := by
  have h1 : k / 256 = 4 := by omega
  have h2 : k % 256 = k - 0x400 := by omega
  unfold Core.putCfg
  dsimp only
  rw [h1, h2, if_neg (by simp), if_neg (by simp), if_neg (by simp), if_pos (by simp; omega), Nat.sub_sub]

/-- What a write of a listed item keeps of a core. -/
theorem Core.putCfg_frame (c : Core) {k : Nat} (hk : CfgKind k) (v : Word) : FrameMap c (c.putCfg k v) fun x => x.putCfg k v := by
  cases hk with
  | seed h => subst h; exact ⟨fun x h => by rw [putCfg_seed, putCfg_seed]; unfold CcFrame at *; rw [h], fun _ => rfl, fun _ => rfl⟩
  | qtemp h => subst h; exact ⟨fun x h => by rw [putCfg_qtemp, putCfg_qtemp]; unfold CcFrame at *; rw [h], fun _ => rfl, fun _ => rfl⟩
  | nest h => exact ⟨fun x hx => by rw [putCfg_nest h, putCfg_nest h]; unfold CcFrame at *; rw [hx], fun _ => by rw [putCfg_nest h], fun _ => by rw [putCfg_nest h]⟩
  | slot h => exact ⟨fun x hx => by rw [putCfg_slot h, putCfg_slot h]; unfold CcFrame at *; rw [hx], fun _ => by rw [putCfg_slot h], fun _ => by rw [putCfg_slot h]⟩
theorem Core.putCfg_keeps (c : Core) {k : Nat} (hk : CfgKind k) (v : Word) :
    (c.putCfg k v).s = c.s ∧ (c.putCfg k v).pc = c.pc ∧ (c.putCfg k v).hold = c.hold ∧
      ∀ p, ({ c with peel := p } : Core).putCfg k v = { c.putCfg k v with peel := p } := by
  cases hk with
  | seed h => subst h; exact ⟨rfl, rfl, rfl, fun _ => rfl⟩
  | qtemp h => subst h; exact ⟨rfl, rfl, rfl, fun _ => rfl⟩
  | nest h => exact ⟨by rw [putCfg_nest h], by rw [putCfg_nest h], by rw [putCfg_nest h], fun p => by rw [putCfg_nest h, putCfg_nest h]⟩
  | slot h => exact ⟨by rw [putCfg_slot h], by rw [putCfg_slot h], by rw [putCfg_slot h], fun p => by rw [putCfg_slot h, putCfg_slot h]⟩

theorem and_low60 (v : Word) : v &&& ~~~(0xF#64 <<< 60) = (v.setWidth 60).setWidth 64 := by
  apply BitVec.eq_of_toNat_eq
  rw [show ~~~(0xF#64 <<< 60) = 0x0FFFFFFFFFFFFFFF#64 from rfl, BitVec.toNat_and]
  rw [show (0x0FFFFFFFFFFFFFFF#64).toNat = 2 ^ 60 - 1 from rfl, Nat.and_two_pow_sub_one_eq_mod, BitVec.toNat_setWidth, BitVec.toNat_setWidth]
  have := v.isLt
  omega

/-- An item reads what was written, and every other item stands. -/
theorem putCfg_reads (c : Core) {k : Nat} (hk : CfgKind k) (v : Word) :
    (c.putCfg k v).cfgItem k = some (if k = 0x211 then (v.setWidth 32).setWidth 64
      else if 0x340 ≤ k ∧ k < 0x3C0 ∧ k % 16 = 0 then (v.setWidth 60).setWidth 64 else v) := by
  cases hk with
  | seed h => subst h; rfl
  | qtemp h => subst h; rfl
  | nest h =>
    rw [cfgItem_nest h, putCfg_nest h, if_neg (show ¬k = 0x211 by omega)]
    dsimp only
    rw [SMap.get_set_self]
    by_cases h0 : k % 16 = 0
    · rw [if_pos h0, if_pos ⟨h.1, h.2, h0⟩, and_low60]
    · rw [if_neg h0, if_neg (fun h => h0 h.2.2)]
  | slot h =>
    rw [cfgItem_slot h, putCfg_slot h, if_neg (show ¬k = 0x211 by omega), if_neg (show ¬(0x340 ≤ k ∧ k < 0x3C0 ∧ k % 16 = 0) by omega)]
    dsimp only
    rw [SMap.get_set_self]
theorem putCfg_others (c : Core) {k j : Nat} (hk : CfgKind k) (v : Word) (hj : j ≠ k) : (c.putCfg k v).cfgItem j = c.cfgItem j := by
  have hring : ∀ e, ((c.putCfg k v).eng e).ring = (c.eng e).ring := fun e => by
    cases hk with
    | seed h => subst h; cases e <;> rfl
    | qtemp h => subst h; cases e <;> rfl
    | nest h => rw [putCfg_nest h]; cases e <;> rfl
    | slot h => rw [putCfg_slot h]; cases e <;> rfl
  by_cases hr : j % 256 < 2 ∧ 1 ≤ j / 256 ∧ j / 256 ≤ 5
  · rw [cfgItem_ring hr.1 hr.2.1 hr.2.2, cfgItem_ring hr.1 hr.2.1 hr.2.2, hring]
  by_cases hjk : CfgKind j
  · cases hjk with
    | seed h =>
      subst h
      rw [cfgItem_seed, cfgItem_seed]
      cases hk with
      | seed e => exact absurd e.symm hj
      | qtemp e => subst e; rfl
      | nest e => rw [putCfg_nest e]
      | slot e => rw [putCfg_slot e]
    | qtemp h =>
      subst h
      rw [cfgItem_qtemp, cfgItem_qtemp]
      cases hk with
      | seed e => subst e; rfl
      | qtemp e => exact absurd e.symm hj
      | nest e => rw [putCfg_nest e]
      | slot e => rw [putCfg_slot e]
    | nest h =>
      rw [cfgItem_nest h, cfgItem_nest h]
      cases hk with
      | seed e => subst e; rfl
      | qtemp e => subst e; rfl
      | nest e => rw [putCfg_nest e]; dsimp only; rw [SMap.get_set_ne _ _ _ (by omega)]
      | slot e => rw [putCfg_slot e]
    | slot h =>
      rw [cfgItem_slot h, cfgItem_slot h]
      cases hk with
      | seed e => subst e; rfl
      | qtemp e => subst e; rfl
      | nest e => rw [putCfg_nest e]
      | slot e => rw [putCfg_slot e]; dsimp only; rw [SMap.get_set_ne _ _ _ (by omega)]
  · rw [cfgItem_none hr hjk, cfgItem_none hr hjk]

section
variable {s : State} {h : Hdr} {o : SY}

theorem ecfgw_refused (m : CcMay s h [(o.a, o.la)] [] 0) (hr : s.me.cfgItem o.sel.toNat = none ∨ o.sel.toNat % 256 < 2) : RaisesIllegal (.ecfgw h o) h s :=
  .of_body m (.refl (execEcfgw h o s)) fun s1 _ => by
    cases hi : s.me.cfgItem o.sel.toNat with
    | none => rfl
    | some v => exact if_pos (hr.resolve_left (by rw [hi]; simp))
/-- A change of a core beside its peel log, with one log entry. -/
theorem log4_modCore (s : State) (n k : Nat) (e old : Word) (f : Core → Core) (hf : ∀ (c : Core) p, f { c with peel := p } = { f c with peel := p })
    (hl : ∀ c, (f c).peel = c.peel) :
    CoreOnly s ((s.log4 n k e old).modCore n f) n ∧
    ((s.log4 n k e old).modCore n f).core n = { f (s.core n) with peel := (((s.log4 n k e old).modCore n f).core n).peel } ∧
    (((s.log4 n k e old).modCore n f).core n).peel.length ≤ (s.core n).peel.length + 1 := by
  have l : Logged s (s.log4 n k e old) n 1 := s.log_logged ..
  refine ⟨l.only.trans (.modCore ..), ?_, ?_⟩
  · rw [State.core_modCore_self, hl]
    conv_lhs => rw [l.core, hf]
  · rw [State.core_modCore_self, hl]; exact l.log
theorem ecfgw_writes (m : CcMay s h [(o.a, o.la)] [] 0) (hi : s.me.cfgItem o.sel.toNat ≠ none) (h2 : 2 ≤ o.sel.toNat % 256) :
    CcDoes (.ecfgw h o) h [] (s.me.putCfg o.sel.toNat (s.rdS o.a)) [] (s.me.pc + 8) s s := by
  have hk := CfgKind.of_listed hi h2
  obtain ⟨old, hold⟩ := Option.ne_none_iff_exists'.1 hi
  refine .of_core m (.refl (execEcfgw h o s)) (fun c => c.putCfg o.sel.toNat (s.rdS o.a)) (s.me.putCfg_keeps hk _).2.2.1 (s.me.putCfg_frame hk _)
    (fun c => (c.putCfg_keeps hk _).1) (fun c => (c.putCfg_keeps hk _).2.1) fun s1 _ => ?_
  obtain ⟨h1, h3, h4⟩ := log4_modCore s1 s.cur (0x1000 + o.sel.toNat) (s.ccCrd h [] 0) old (fun c => c.putCfg o.sel.toNat (s.rdS o.a))
    (fun c p => (c.putCfg_keeps hk _).2.2.2 p) (fun c => (c.putCfg_frame hk _).log c)
  exact ⟨_, by rw [hold]; exact if_neg (by omega), h1, h3, h4.trans (by omega)⟩
end

/-- Settles O17: a listed RW item takes what ECFGW writes, and every item reads as it stands. -/
theorem engineConfiguration : Obligations.EngineConfiguration := by
  unfold Obligations.EngineConfiguration
  refine ⟨fun h o s => ⟨fun m => ⟨fun hr => ecfgw_refused m hr, fun hi h2 => ecfgw_writes m hi h2⟩, fun m => ⟨fun hi => ?_, fun v hv => ?_⟩⟩,
    fun c k v hi h2 => ⟨putCfg_reads c (.of_listed hi h2) v, fun j hj => putCfg_others c (.of_listed hi h2) v hj⟩,
    fun c i hi => ⟨?_, ?_⟩, fun c => ⟨rfl, rfl, rfl, ?_⟩⟩
  · exact .of_body m (.refl (execEcfgr h o s)) fun s1 _ => by rw [hi]; rfl
  · exact .of_body m (.refl (execEcfgr h o s)) fun e s1 _ => by rw [hv]
  · rw [cfgItem_nest (by omega), Nat.add_sub_cancel_left]
  · rw [cfgItem_slot (by omega), Nat.add_sub_cancel_left]
  · rw [cfgItem_ring (by omega) (by omega) (by omega)]
    show some ((c.acc.ring.ptrs).extractLsb' 16 16) = some c.acc.ring.head
    congr 1
    apply BitVec.eq_of_toNat_eq
    rw [BitVec.extractLsb'_toNat, Ring.ptrs, BitVec.toNat_ofNat, Nat.shiftRight_eq_div_pow]
    have h1 := c.acc.ring.tail.isLt
    have h2 := c.acc.ring.head.isLt
    have h3 := c.acc.ring.ret.isLt
    omega

/-! ### System registers (R310, R311, R350) -/

theorem Core.putSys_frame (c : Core) (k : Nat) (v : Word) : FrameMap c (c.putSys k v) fun x => x.putSys k v := by
  refine ⟨fun x h => ?_, fun x => ?_, fun x => ?_⟩ <;> unfold Core.putSys
  · unfold CcFrame at *
    repeat (split; · rw [h])
    exact h
  all_goals repeat (split; · rfl)
  all_goals rfl
theorem Core.putSys_keeps (c : Core) (k : Nat) (v : Word) : (c.putSys k v).s = c.s ∧ (c.putSys k v).hold = c.hold ∧ (c.putSys k v).pc = c.pc ∧
    ∀ p, ({ c with peel := p } : Core).putSys k v = { c.putSys k v with peel := p } := by
  refine ⟨?_, ?_, ?_, fun p => ?_⟩ <;> unfold Core.putSys
  all_goals repeat (split; · rfl)
  all_goals rfl

theorem State.turnPort_cur (s : State) (p : Nat) (f : Port → Port) : (s.turnPort p f).cur = s.cur := by
  unfold State.turnPort State.wake State.modPort
  dsimp only
  split <;> rfl
theorem CoreOnly.turnPort {s t : State} {n : Nat} (h : CoreOnly s t n) (p : Nat) (f : Port → Port) :
    CoreOnly (s.turnPort p f) (t.turnPort p f) n ∧ (t.turnPort p f).core n = t.core n := by
  have h1 : t.port p = s.port p := by rw [h.1]; rfl
  have h2 : CoreOnly (s.modPort p f) (t.modPort p f) n := ⟨by unfold State.modPort; conv_lhs => rw [h.1]; rfl, h.2⟩
  have h3 : (t.modPort p f).port p = (s.modPort p f).port p := by rw [h2.1]; rfl
  unfold State.turnPort
  dsimp only
  rw [h1, h3]
  split
  · exact ⟨⟨by unfold State.wake; conv_lhs => rw [h2.1], h2.2⟩, rfl⟩
  · exact ⟨h2, rfl⟩

section
variable {s : State} {h : Hdr} {o : SY} {i : Instr} {f : Word → Word → Word} {v : Word}

/-- A number of the supervisor cores' block, on a task's core. -/
theorem sysPriv_iff {n k : Nat} : (supReg k && !isSup n) = true ↔ 0x600 ≤ k ∧ k ≤ 0x704 ∧ isSup n = false := by
  unfold supReg
  cases isSup n <;> simp

variable (m : CcMay s h [(o.a, o.la)] [] 0) (hi : exec i s = ccSysPut h i.word o f s)
include m hi

theorem ccSysPut_priv (hp : (supReg o.sel.toNat && !isSup s.cur) = true) : Raises i h 0x14 i.word s :=
  .of_body m (.refl (ccSysPut h i.word o f s)) (fun _ _ => if_pos hp) hi
theorem ccSysPut_unassigned (hp : ¬(supReg o.sel.toNat && !isSup s.cur) = true) (hn : s.sysReg s.cur o.sel.toNat = none) : RaisesIllegal i h s :=
  .of_body m (.refl (ccSysPut h i.word o f s)) (fun _ _ => (if_neg hp).trans (by rw [hn]; rfl)) hi
variable (hp : ¬(supReg o.sel.toNat && !isSup s.cur) = true) (hv : s.sysReg s.cur o.sel.toNat = some v)
include hp hv
theorem ccSysPut_refused (hn : (sysRw s.cur o.sel.toNat && sysOk o.sel.toNat (f v (s.rdS o.a))) = false) : RaisesIllegal i h s :=
  .of_body m (.refl (ccSysPut h i.word o f s)) (fun _ _ => (if_neg hp).trans (by rw [hv]; exact if_neg (by rw [hn]; simp))) hi
variable (hy : (sysRw s.cur o.sel.toNat && sysOk o.sel.toNat (f v (s.rdS o.a))) = true)
include hy
theorem ccSysPut_own (hk : o.sel.toNat < 0x600) : CcDoes i h [] (s.me.putSys o.sel.toNat (f v (s.rdS o.a))) [] (s.me.pc + 8) s s := by
  refine .of_core m (.refl (ccSysPut h i.word o f s)) (fun c => c.putSys o.sel.toNat (f v (s.rdS o.a))) (s.me.putSys_keeps ..).2.1 (s.me.putSys_frame ..)
    (fun c => (c.putSys_keeps ..).1) (fun c => (c.putSys_keeps ..).2.2.1) (hi := hi) fun s1 _ => ?_
  obtain ⟨h1, h3, h4⟩ := log4_modCore s1 s.cur (0x800 + o.sel.toNat) (s.ccCrd h [] 0) ((s1.sysReg s.cur o.sel.toNat).getD 0)
    (fun c => c.putSys o.sel.toNat (f v (s.rdS o.a))) (fun c p => (c.putSys_keeps ..).2.2.2 p) (fun c => (c.putSys_frame ..).log c)
  refine ⟨_, (if_neg hp).trans ?_, h1, h3, h4.trans (by omega)⟩
  rw [hv]
  refine (if_pos hy).trans ?_
  rw [State.putSysReg, if_neg (by omega)]
theorem ccSysPut_port (hk : 0x600 ≤ o.sel.toNat) :
    CcDoes i h [] s.me [] (s.me.pc + 8)
      (if o.sel.toNat % 16 = 0 then s.turnPort ((o.sel.toNat - 0x600) / 16) fun p => p.setCtl (f v (s.rdS o.a)) else s) s := by
  refine .of_beside m (.refl (ccSysPut h i.word o f s)) (fun u => if o.sel.toNat % 16 = 0 then u.turnPort ((o.sel.toNat - 0x600) / 16) fun p => p.setCtl (f v (s.rdS o.a)) else u)
    ?_ (fun s1 ho => ?_) (hi := hi) fun s1 _ => ?_
  · split
    · exact State.turnPort_cur ..
    · rfl
  · split
    · exact ho.turnPort ..
    · exact ⟨ho, rfl⟩
  · refine (if_neg hp).trans ?_
    rw [hv]
    refine (if_pos hy).trans ?_
    rw [State.putSysReg, if_pos hk]
    simp only [beq_iff_eq]
end

/-- What sysRw and sysOk make of the registers below the supervisor cores' block, and of that block. -/
theorem sysRw_own {n k : Nat} {v : Word} (hk : k < 0x600) :
    (sysRw n k && sysOk k v) = true ↔ (k = 0 ∨ k = 1 ∨ k = 2 ∨ k = 0x11 ∨ k = 0x23) ∨ (k = 0x12 ∧ isSup n = true ∧ sysOk k v = true) := by
  have hw : sysRw n k = true ↔ (k = 0 ∨ k = 1 ∨ k = 2 ∨ k = 0x11 ∨ k = 0x23) ∨ (k = 0x12 ∧ isSup n = true) := by
    unfold sysRw
    simp only [Bool.or_eq_true, Bool.and_eq_true, beq_iff_eq, decide_eq_true_iff, or_assoc]
    by_cases hs : isSup n = true
    · simp only [hs, and_true]; omega
    · simp only [hs, Bool.false_eq_true, and_false, or_false, false_or]; omega
  rw [Bool.and_eq_true, hw]
  constructor
  · rintro ⟨h | ⟨h1, h2⟩, h3⟩
    · exact .inl h
    · exact .inr ⟨h1, h2, h3⟩
  · rintro (h | ⟨h1, h2, h3⟩)
    · refine ⟨.inl h, ?_⟩
      unfold sysOk
      rw [Bool.or_eq_true, Bool.or_eq_true, bne_iff_ne]
      exact .inl (.inl (by omega))
    · exact ⟨.inr ⟨h1, h2⟩, h3⟩
theorem sysRw_port {n k : Nat} {v : Word} (hk : 0x600 ≤ k) : (sysRw n k && sysOk k v) = true ↔ k ≤ 0x6FF ∧ (k % 16 = 0 ∨ 13 ≤ k % 16) := by
  have hs : sysOk k v = true := by
    unfold sysOk
    rw [Bool.or_eq_true, Bool.or_eq_true, bne_iff_ne]
    exact .inl (.inl (by omega))
  rw [hs, Bool.and_true]
  unfold sysRw
  simp only [Bool.or_eq_true, Bool.and_eq_true, beq_iff_eq, decide_eq_true_iff, or_assoc]
  omega
theorem putSys_cases (c : Core) (v : Word) :
    c.putSys 0 v = { c with tvec := v } ∧ c.putSys 2 v = { c with tepc := v } ∧ c.putSys 0x11 v = { c with dbgReg := v.extractLsb' 0 3 } ∧
    c.putSys 0x12 v = { c with hangt := v.toNat } ∧ c.putSys 0x23 v = { c with cutw := v } := by
  have : v.setWidth 3 = v.extractLsb' 0 3 := by apply BitVec.eq_of_toNat_eq; simp
  exact ⟨rfl, rfl, by rw [← this]; rfl, rfl, rfl⟩
/-- A write of TCAUSE changes SKIP alone. -/
theorem putSys_tcause (c : Core) (v : Word) :
    ∃ x : Word, c.putSys 1 v = { c with tcause := x } ∧ ∀ j, x.getLsbD j = if j = 12 then v.getLsbD 12 else c.tcause.getLsbD j := by
  refine ⟨_, rfl, fun j => ?_⟩
  rw [BitVec.getLsbD_or, BitVec.getLsbD_and, BitVec.getLsbD_and, BitVec.getLsbD_not, BitVec.getLsbD_shiftLeft]
  by_cases hj : j = 12
  · subst hj; simp
  · rw [if_neg hj]
    have h1 : (1#64).getLsbD (j - 12) = decide (j ≤ 12) := by
      rw [BitVec.getLsbD_one]; simp only [Nat.sub_eq_zero_iff_le, Nat.reduceLT, decide_true, Bool.true_and]
    by_cases hlt : j < 64
    · by_cases h12 : j < 12
      · simp [h12, hlt]
      · rw [h1]; simp [hlt, show ¬j ≤ 12 by omega]
    · rw [BitVec.getLsbD_of_ge _ _ (by omega), BitVec.getLsbD_of_ge v _ (by omega)]; simp

theorem sysReg_none {s : State} {n k : Nat} (h : (4 ≤ k ∧ k < 0x10) ∨ 0x704 < k) : s.sysReg n k = none := by
  unfold State.sysReg
  dsimp only
  repeat rw [if_neg (by simp only [Bool.and_eq_true, beq_iff_eq, decide_eq_true_iff]; omega)]

/-- What a write of a system register does or raises. -/
def SysPuts (i : Instr) (h : Hdr) (o : SY) (f : Word → Word → Word) (s : State) : Prop :=
  let k := o.sel.toNat
  let priv := 0x600 ≤ k ∧ k ≤ 0x704 ∧ isSup s.cur = false
  let rw := k = 0 ∨ k = 1 ∨ k = 2 ∨ k = 0x11 ∨ k = 0x23
  (priv → Raises i h 0x14 i.word s) ∧
  (¬priv → s.sysReg s.cur k = none → RaisesIllegal i h s) ∧
  (∀ v, ¬priv → s.sysReg s.cur k = some v →
    (rw → CcDoes i h [] (s.me.putSys k (f v (s.rdS o.a))) [] (s.me.pc + 8) s s) ∧
    (k < 0x600 → ¬rw → ¬(k = 0x12 ∧ isSup s.cur = true ∧ sysOk k (f v (s.rdS o.a)) = true) → RaisesIllegal i h s) ∧
    (k = 0x12 → isSup s.cur = true → sysOk k (f v (s.rdS o.a)) = true →
      CcDoes i h [] { s.me with hangt := (f v (s.rdS o.a)).toNat } [] (s.me.pc + 8) s s) ∧
    (0x600 ≤ k → k ≤ 0x6FF → 13 ≤ k % 16 → CcDoes i h [] s.me [] (s.me.pc + 8) s s) ∧
    (0x600 ≤ k → k % 16 ≠ 0 → k % 16 < 13 → RaisesIllegal i h s) ∧
    (0x600 ≤ k → k ≤ 0x6FF → k % 16 = 0 → CcDoes i h [] s.me [] (s.me.pc + 8) (s.turnPort ((k - 0x600) / 16) fun p => p.setCtl (f v (s.rdS o.a))) s))

theorem ccSysPut_puts {s : State} {h : Hdr} {o : SY} {i : Instr} {f : Word → Word → Word} (m : CcMay s h [(o.a, o.la)] [] 0)
    (hi : exec i s = ccSysPut h i.word o f s) : SysPuts i h o f s := by
  refine ⟨fun hp => ccSysPut_priv m hi (sysPriv_iff.2 hp), fun hp hn => ccSysPut_unassigned m hi (fun h => hp (sysPriv_iff.1 h)) hn, fun v hp hv => ?_⟩
  have hp' := fun h => hp (sysPriv_iff.1 h)
  refine ⟨fun hr => ?_, fun hk hr hn => ?_, fun hk hs ho => ?_, fun h1 h2 h3 => ?_, fun h1 h2 h3 => ?_, fun h1 h2 h3 => ?_⟩
  · have hk : o.sel.toNat < 0x600 := by rcases hr with h | h | h | h | h <;> omega
    exact ccSysPut_own m hi hp' hv ((sysRw_own hk).2 (.inl hr)) hk
  · exact ccSysPut_refused m hi hp' hv (by rw [← Bool.not_eq_true, sysRw_own hk]; exact fun h => h.elim hr hn)
  · have hk' : o.sel.toNat < 0x600 := by omega
    have := ccSysPut_own m hi hp' hv ((sysRw_own hk').2 (.inr ⟨hk, hs, ho⟩)) hk'
    rwa [hk, (putSys_cases ..).2.2.2.1] at this
  · have := ccSysPut_port m hi hp' hv ((sysRw_port h1).2 ⟨h2, .inr h3⟩) h1
    rwa [if_neg (by omega)] at this
  · exact ccSysPut_refused m hi hp' hv (by rw [← Bool.not_eq_true, sysRw_port h1]; omega)
  · have := ccSysPut_port m hi hp' hv ((sysRw_port h1).2 ⟨h2, .inl h3⟩) h1
    rwa [if_pos h3] at this
theorem sysWords_put {s : State} {h : Hdr} {o : SY} (m : CcMay s h [(o.a, o.la)] [] 0) :
    SysPuts (.wrsr h o) h o (fun _ a => a) s ∧ SysPuts (.setsr h o) h o (fun v a => v ||| a) s ∧ SysPuts (.clrsr h o) h o (fun v a => v &&& ~~~a) s :=
  ⟨ccSysPut_puts m (.refl (execWrsr h o s)), ccSysPut_puts m (.refl (execSetsr h o s)), ccSysPut_puts m (.refl (execClrsr h o s))⟩

/-- Settles O18: a register reads as it stands; a write changes the core's own register or a port control, is discarded, or is refused. -/
theorem systemRegisters : Obligations.SystemRegisters := by
  unfold Obligations.SystemRegisters
  refine ⟨fun h o s => ⟨fun m => ⟨fun hp => ?_, fun hp hn => ?_, fun v hp hv => ?_⟩, fun m => sysWords_put m⟩, fun s => ?_, fun c v => ?_⟩
  · exact .of_body m (.refl (execRdsr h o s)) fun s1 _ => if_pos (sysPriv_iff.2 hp)
  · exact .of_body m (.refl (execRdsr h o s)) fun s1 _ => (if_neg fun h => hp (sysPriv_iff.1 h)).trans (by rw [hn]; rfl)
  · exact .of_body m (.refl (execRdsr h o s)) fun e s1 _ => (if_neg fun h => hp (sysPriv_iff.1 h)).trans (by rw [hv])
  · refine ⟨rfl, rfl, rfl, rfl, rfl, rfl, rfl, rfl, rfl, rfl, rfl, fun hs => ?_, fun k h1 h2 => sysReg_none (.inl ⟨h1, h2⟩), fun k hk => sysReg_none (.inr hk)⟩
    constructor
    · show some (if isSup s.cur then 0 else (s.ctx (s.core s.cur).cid).horiz) = _
      rw [hs]; rfl
    · show some (if isSup s.cur then BitVec.allOnes 64 else (s.ctx (s.core s.cur).cid).cuteff) = _
      rw [hs]; rfl
  · obtain ⟨h0, h2, h11, -, h23⟩ := putSys_cases c v
    exact ⟨h0, h2, h11, h23, putSys_tcause c v⟩

end Sys2Proof.Machine
end

section
/-! PROOFS of the TrapsAndParks statement (O19) and the TrapWords statement (O20): entry to a handler, a parked engine and its record, and the return. -/

set_option Elab.async false

namespace Sys2Proof.Machine

/-! ### User-class faults (R148, R150) -/

/-- What delivers a user-class fault as partition class: no handler, one that runs, or no live task. -/
def State.undelivered (s : State) (n : Nat) : Bool :=
  (s.core n).tvec == 0 || tcInh (s.core n).tcause ||
    (!isSup n && (match (s.core n).task with | none => true | some t => t.ended || (s.ctx (s.core n).cid).st != .live))
/-- The buffer that a user-class fault of a core goes to. -/
def State.faultPid (s : State) (n : Nat) : BitVec 7 := if isSup n then 0 else (s.ctx (s.core n).cid).pid
/-- The record of a user-class fault. -/
def State.userRec (s : State) (n : Nat) (eng : Eng) (code : BitVec 8) (val e : Word) (slot : BitVec 16) : FRec :=
  { code := code, cls := 0, eng := BitVec.ofNat 3 eng.num, park := true, cid := (s.core n).cid, inc := (s.core n).inc, gts := s.gts,
    src := s.src n, crd := e, pc := (s.core n).faultPc eng slot, val := val }

section
variable {s : State} {n : Nat} {eng : Eng} {code : BitVec 8} {val e : Word} {before : Bool} {slot : BitVec 16}

theorem State.raise_user (hcls : faultClass code = 0) (hp : ¬(code = 0x14 ∧ isSup n = true)) :
    s.raise n eng code val e before slot = if s.undelivered n
      then s.park n eng (s.faultPid n) (s.userRec n eng code val e slot) before false false slot (tcInh (s.core n).tcause)
      else s.trapEnter n eng code val e before slot := by
  have hb : (code == fIncBusy) = false := by
    rw [beq_eq_false_iff_ne]
    rintro rfl
    exact absurd hcls (by decide)
  have hpb : (code == fPriv && isSup n) = false := by
    rw [Bool.and_eq_false_iff, beq_eq_false_iff_ne, ← Bool.not_eq_true]
    exact not_and_or.1 hp
  have h2 : ((0 : BitVec 2) == 2) = false := by decide
  have h1 : ((0 : BitVec 2) == 1) = false := by decide
  unfold State.raise State.raiseFrom
  simp only [hb, hpb, hcls, h1, h2, Bool.false_and, Bool.false_eq_true, if_false]
  rfl

theorem State.undelivered_false (hv : (s.core n).tvec ≠ 0) (hi : tcInh (s.core n).tcause = false)
    (ht : isSup n = true ∨ ∃ k, (s.core n).task = some k ∧ k.ended = false ∧ (s.ctx (s.core n).cid).st = .live) : s.undelivered n = false := by
  have hvb : ((s.core n).tvec == 0) = false := by simpa using hv
  unfold State.undelivered
  rw [hvb, hi, Bool.false_or, Bool.false_or]
  rcases ht with ht | ⟨k, hk, hend, hlive⟩
  · rw [ht]; rfl
  · rw [hk]; simp [hend, hlive]
theorem State.undelivered_true (h : (s.core n).tvec = 0 ∨ tcInh (s.core n).tcause = true) : s.undelivered n = true := by
  unfold State.undelivered
  rcases h with h | h
  · simp [h]
  · simp [h]

/-- TCAUSE of a trap (Table 7.2). -/
def trapCause (eng : Eng) (code : BitVec 8) (w : BitVec 12) : Word :=
  (code.setWidth 64) ||| (BitVec.ofNat 64 eng.num <<< 8) ||| (1#64 <<< 11) ||| (w.setWidth 64 <<< 16)
theorem eng_num_lt (eng : Eng) : eng.num < 8 := by cases eng <;> decide
theorem trapCause_bit (eng : Eng) (code : BitVec 8) (w : BitVec 12) (j : Nat) :
    (trapCause eng code w).getLsbD j =
      if j < 8 then code.getLsbD j else if j < 11 then eng.num.testBit (j - 8) else if j = 11 then true else if j < 16 then false else w.getLsbD (j - 16) := by
  have hn : ∀ i, 3 ≤ i → eng.num.testBit i = false := fun i hi =>
    Nat.testBit_lt_two_pow (Nat.lt_of_lt_of_le (eng_num_lt eng) (Nat.pow_le_pow_right (by omega) hi : 2 ^ 3 ≤ 2 ^ i))
  have hc : ∀ i, 8 ≤ i → code.getLsbD i = false := fun i hi => BitVec.getLsbD_of_ge _ _ hi
  have hw : ∀ i, 12 ≤ i → w.getLsbD i = false := fun i hi => BitVec.getLsbD_of_ge _ _ hi
  have h1 : (1#64).getLsbD (j - 11) = decide (j ≤ 11) := by
    rw [BitVec.getLsbD_one]; simp only [Nat.sub_eq_zero_iff_le, Nat.reduceLT, decide_true, Bool.true_and]
  unfold trapCause
  simp only [BitVec.getLsbD_or, BitVec.getLsbD_shiftLeft, BitVec.getLsbD_setWidth, BitVec.getLsbD_ofNat, h1]
  by_cases a1 : j < 8
  · simp [a1, show j < 64 by omega, show j < 11 by omega, show j < 16 by omega]
  by_cases a2 : j < 11
  · simp [a1, a2, show j < 64 by omega, show j < 16 by omega, hc j (by omega), show j - 8 < 64 by omega]
  by_cases a3 : j = 11
  · subst a3; simp
  by_cases a4 : j < 16
  · simp [a1, a2, a3, a4, hc j (by omega), hn (j - 8) (by omega), show ¬j ≤ 11 by omega]
  by_cases a5 : j < 64
  · simp [a1, a2, a3, a4, a5, hc j (by omega), hn (j - 8) (by omega), show ¬j ≤ 11 by omega, show j - 16 < 64 by omega]
  · simp [a1, a2, a3, a4, a5, hc j (by omega), hw (j - 16) (by omega)]
theorem trapCause_fields (eng : Eng) (code : BitVec 8) (w : BitVec 12) :
    (trapCause eng code w).extractLsb' 0 8 = code ∧ (trapCause eng code w).extractLsb' 8 3 = BitVec.ofNat 3 eng.num ∧
    (trapCause eng code w).getLsbD 11 = true ∧ (trapCause eng code w).getLsbD 12 = false ∧ (trapCause eng code w).extractLsb' 16 12 = w := by
  refine ⟨BitVec.eq_of_getLsbD_eq fun i hi => ?_, BitVec.eq_of_getLsbD_eq fun i hi => ?_, by rw [trapCause_bit]; rfl, by rw [trapCause_bit]; rfl,
    BitVec.eq_of_getLsbD_eq fun i hi => ?_⟩ <;> rw [BitVec.getLsbD_extractLsb', trapCause_bit]
  · simp [hi]
  · rw [if_neg (by omega), if_pos (by omega), BitVec.getLsbD_ofNat, Nat.add_sub_cancel_left]
  · rw [if_neg (by omega), if_neg (by omega), if_neg (by omega), if_neg (by omega), Nat.add_sub_cancel_left]
    simp [hi]

/-- The ring index of the word that faulted. -/
def trapWidx (c : Core) (eng : Eng) (slot : BitVec 16) : BitVec 12 :=
  if eng == .cc then 0 else (slot &&& BitVec.ofNat 16 (2 ^ (c.eng eng).ring.size.toNat - 1)).setWidth 12
theorem trapWidx_eq (c : Core) (eng : Eng) (slot : BitVec 16) :
    trapWidx c eng slot = if eng = .cc then 0 else BitVec.ofNat 12 (slot.toNat % 2 ^ (c.eng eng).ring.size.toNat) := by
  unfold trapWidx
  by_cases he : eng = .cc
  · rw [if_pos (by simpa using he), if_pos he]
  · rw [if_neg (by simpa using he), if_neg he]
    apply BitVec.eq_of_toNat_eq
    have hs : (c.eng eng).ring.size.toNat ≤ 15 := Nat.le_of_lt_succ (c.eng eng).ring.size.isLt
    have hp : 2 ^ (c.eng eng).ring.size.toNat ≤ 2 ^ 15 := Nat.pow_le_pow_right (by omega) hs
    rw [BitVec.toNat_setWidth, BitVec.toNat_and, BitVec.toNat_ofNat, BitVec.toNat_ofNat, Nat.mod_eq_of_lt (a := _ - 1) (by omega),
      Nat.and_two_pow_sub_one_eq_mod]
theorem State.trapEnter_eq (hw : (s.core n).ccWait = none) :
    CoreOnly s (s.trapEnter n eng code val e before slot) n ∧ (s.trapEnter n eng code val e before slot).nextId = s.nextId ∧
    (s.trapEnter n eng code val e before slot).core n =
      { s.core n with pc := (s.core n).tvec, tepc := (s.core n).pc, tval := val, tcause := trapCause eng code (trapWidx (s.core n) eng slot), capture := some s.cycle,
                      trapE := e, trapBefore := before, trapSlot := slot, trapLast := (s.core n).cc.elast, fetched := [], savedWait := none } := by
  unfold State.trapEnter
  refine ⟨.modCore .., rfl, ?_⟩
  rw [State.core_modCore_self]
  generalize s.core n = c at hw ⊢
  have hc : c = { c with ccWait := none } := by rw [← hw]
  rw [hc]
  rfl

/-- A record, written or held, leaves the cores as they stand. -/
theorem State.fbufPut_cores (s : State) (pid : BitVec 7) (off : Nat) (bs : List Byte) : (s.fbufPut pid off bs).cores = s.cores := by
  unfold State.fbufPut; split
  · exact State.putCells_cores ..
  · rfl
theorem State.sendTx_cores (s : State) (t : UeTx) : (s.sendTx t).cores = s.cores := by
  unfold State.sendTx; split <;> rfl
theorem State.record_cores (s : State) (pid : BitVec 7) (r : FRec) (m : Nat) (b : Bool) : (s.record pid r m b).cores = s.cores := by
  unfold State.record
  split
  · unfold State.setFheld
    dsimp only
    rw [State.fbufPut_cores]
    split <;> rfl
  · unfold State.writeRec
    dsimp only
    split
    · unfold State.wake; exact (State.fbufPut_cores ..).trans (State.fbufPut_cores ..)
    · exact (State.sendTx_cores ..).trans ((State.fbufPut_cores ..).trans (State.fbufPut_cores ..))
theorem State.core_of_cores {s t : State} (h : t.cores = s.cores) (m : Nat) : t.core m = s.core m := by unfold State.core; rw [h]
end

/-- Settles O19: a user-class fault enters the handler of its core, or parks its engine on a record. -/
theorem trapsAndParks : Obligations.TrapsAndParks := by
  unfold Obligations.TrapsAndParks
  refine ⟨?_, ?_⟩
  · intro s n eng code val e before slot c hcls hp hv hi hw ht t
    have hr : t = s.trapEnter n eng code val e before slot := (State.raise_user hcls hp).trans (by rw [State.undelivered_false hv hi ht]; rfl)
    obtain ⟨ho, hid, hc⟩ := State.trapEnter_eq (s := s) (n := n) (eng := eng) (code := code) (val := val) (e := e) (before := before) (slot := slot) hw
    rw [← hr] at ho hid hc
    obtain ⟨h1, h2, h3, h4, h5⟩ := trapCause_fields eng code (trapWidx (s.core n) eng slot)
    refine ⟨?_, ho.2, ?_⟩
    · conv_lhs => rw [ho.1, hid]
    intro c'
    have hcause : c'.tcause = trapCause eng code (trapWidx (s.core n) eng slot) := by show (t.core n).tcause = _; rw [hc]
    refine ⟨by rw [hcause]; exact hc, ?_, ?_, ?_, ?_, ?_⟩ <;> rw [hcause]
    · exact h1
    · exact h2
    · exact h3
    · exact h4
    · exact h5.trans (trapWidx_eq ..)
  · intro s n eng code val e before slot c pid hcls hp hn t
    have hr : t = s.park n eng (s.faultPid n) (s.userRec n eng code val e slot) before false false slot (tcInh (s.core n).tcause) :=
      (State.raise_user hcls hp).trans (by rw [State.undelivered_true hn]; rfl)
    obtain ⟨u, hu⟩ : ∃ u, u = s.record pid (s.userRec n eng code val e slot) n true := ⟨_, rfl⟩
    have hc : ∀ m, u.core m = s.core m := State.core_of_cores (hu ▸ State.record_cores ..)
    obtain ⟨p, hpk⟩ : ∃ p : Park, p = { frec := s.userRec n eng code val e slot, before := before, pid := pid.toNat, idx := s.prod pid, held := s.mustHold pid (s.userRec n eng code val e slot), slot := slot, core := tcInh c.tcause } := ⟨_, rfl⟩
    have ht : t = u.modCore n fun c => c.modEng eng fun x => { x with park := some p } := by rw [hr, hu, hpk]; rfl
    refine ⟨s.userRec n eng code val e slot, rfl, rfl, rfl, rfl, rfl, rfl, rfl, rfl, rfl, fun he => ?_, ?_, fun m hm => ?_, p, ?_, ?_⟩
    · subst he; rfl
    · rw [ht, hu]; rfl
    · rw [ht, State.core_modCore_ne _ _ hm, hc]
    · rw [ht, State.core_modCore_self, hc]; rfl
    · rw [hpk]; exact ⟨rfl, rfl, rfl, rfl, rfl, rfl⟩

end Sys2Proof.Machine
end

section
/-! PROOFS of the TrapWords statement (O20): TRAP, BRK and the return from a handler. -/

set_option Elab.async false

namespace Sys2Proof.Machine

/-! ### TRAP and BRK (R351) -/

/-- A word that retires with its signal and then raises. -/
theorem ccAfter_raises {s : State} {h : Hdr} {i : Instr} {w : Word} {body : Word → State → Body} {r : Result} {code : BitVec 8} {val : Word}
    (m : CcMay s h [] [] 0) (hr : r = ccWord h w [] [] body s) (hb : ∀ e s1, body e s1 = .after s1 code val) (hi : exec i s = r := by rfl) :
    ∃ u : State, CcRan s u h [] s.me [] (s.me.pc + 8) s ∧ (u.core s.cur).s = s.me.s ∧
      exec i s = .next (u.raise s.cur .cc code val (s.ccCrd h [] 0) false 0) := by
  obtain ⟨s1, iss, -, -, hgo⟩ := ccWordAt_issues m
  have hroom := m.room
  obtain ⟨t, ht, rt, ran⟩ := ccFinish_done iss iss.self rfl m.fresh (by simp; omega) (by omega) (m.signal.imp id fun hc => by
    rw [iss.here]
    have := iss.count h.sig.toNat
    omega)
  have hf : s1.me.fits = true := by
    by_contra hf
    have hw := waitPresent_length (s.me.waitVal h)
    exact hf (iss.self.fits iss rfl (by simp; omega) (by omega))
  have ht2 := (ccFinish_done_eq h (s.ccCrd h [] 0) s s1 hf).symm.trans ht
  injection ht2 with ht2
  refine ⟨t, ran, by rw [rt.core]; exact iss.regs, ?_⟩
  rw [hi, hr, ccWord, hgo, hb, ccFinish, if_pos hf, ht2, iss.only.cur]

/-! ### TRET (R151, R351) -/

/-- The core as it is given back, INH cleared. -/
def Core.returned (c : Core) (now : Nat) : Core := { c.reinject now with fetched := [], tcause := c.tcause &&& ~~~(1#64 <<< 11), savedWait := none }

theorem CcFrame.reinject {c x : Core} (h : CcFrame c x) (now : Nat) : CcFrame (c.reinject now) (x.reinject now) := by
  have hc : x.capture = c.capture := by rw [h]
  unfold Core.reinject
  rw [hc]
  unfold CcFrame at *
  cases c.capture with
  | none => exact h
  | some t => dsimp only; rw [h]
theorem Core.reinject_keeps (c : Core) (now : Nat) : (c.reinject now).tok = c.tok ∧ (c.reinject now).peel = c.peel ∧ (c.reinject now).s = c.s ∧
    (c.reinject now).hold = c.hold ∧ (c.reinject now).pc = c.pc ∧ (c.reinject now).tcause = c.tcause := by
  unfold Core.reinject
  split <;> exact ⟨rfl, rfl, rfl, rfl, rfl, rfl⟩
/-- Whether the word that faulted is passed at the return. -/
def Core.skips (c : Core) : Bool := c.trapBefore && tcSkip c.tcause
def Core.trapEng (c : Core) : Eng := engOfNum (c.tcause.extractLsb' 8 3).toNat
/-- The PC after the return, where no wait is taken up. -/
def Core.backPc (c : Core) : Word := if c.skips && c.trapEng == .cc then c.tepc + 8 else c.tepc
/-- The core after the return. -/
def Core.back (c : Core) (now : Nat) : Core :=
  match c.savedWait with
  | some (w, a) =>
    if c.skips && c.trapEng == .cc then { c.returned now with pc := c.backPc }
    else { c.returned now with ccWait := some w, pc := a, resumeAt := if c.backPc == a + 8 || c.backPc == a then none else some c.backPc }
  | none => { c.returned now with pc := c.backPc }

theorem State.trapReturn_eq (s : State) (n : Nat) :
    s.trapReturn n = if (s.core n).skips && (s.core n).trapEng != .cc
      then (s.modCore n fun c => c.back s.cycle).skipWord n (s.core n).trapEng ((s.core n).tcause.setWidth 8) (s.core n).trapSlot
      else s.modCore n fun c => c.back s.cycle := by
  have : (s.modCore n fun c =>
    let x := { c.reinject s.cycle with fetched := [], tcause := c.tcause &&& ~~~(1#64 <<< 11), savedWait := none }
    match (s.core n).savedWait with
    | some (w, a) =>
      if (s.core n).skips && (s.core n).trapEng == .cc then { x with pc := (s.core n).backPc }
      else { x with ccWait := some w, pc := a, resumeAt := if (s.core n).backPc == a + 8 || (s.core n).backPc == a then none else some (s.core n).backPc }
    | none => { x with pc := (s.core n).backPc }) = s.modCore n fun c => c.back s.cycle := rfl
  rw [← this]
  rfl

section
variable {s : State} {h : Hdr} {o : SY}

theorem tret_refused (m : CcMay s h [] [] 0) (hi : s.me.tcause.getLsbD 11 = false) : RaisesIllegal (.tret h o) h s :=
  .of_body m (.refl (execTret h o s)) fun s1 _ => if_pos (by show (!s.me.tcause.getLsbD 11) = true; rw [hi]; rfl)

/-- What the return reads of a core stands in the frame of a word. -/
theorem CcFrame.returns {c x : Core} (h : CcFrame c x) : x.skips = c.skips ∧ x.trapEng = c.trapEng ∧ x.backPc = c.backPc ∧ x.savedWait = c.savedWait := by
  have h1 : x.skips = c.skips := by rw [h]; rfl
  have h2 : x.trapEng = c.trapEng := by rw [h]; rfl
  have h3 : x.tepc = c.tepc := by rw [h]
  exact ⟨h1, h2, by unfold Core.backPc; rw [h1, h2, h3], by rw [h]⟩

theorem CcFrame.returned {c x : Core} (h : CcFrame c x) (now : Nat) : CcFrame (c.returned now) (x.returned now) := by
  have hr := h.reinject now
  have ht : x.tcause = c.tcause := by rw [h]
  unfold Core.returned
  rw [ht]
  unfold CcFrame at *
  exact congrArg (fun y : Core => { y with fetched := [], tcause := c.tcause &&& ~~~(1#64 <<< 11), savedWait := none }) hr
theorem CcFrame.back {c x : Core} (h : CcFrame c x) (now : Nat) : CcFrame (c.back now) (x.back now) ∧ (x.back now).pc = (c.back now).pc := by
  obtain ⟨h1, h2, h3, h4⟩ := h.returns
  have hr := h.returned now
  unfold Core.back
  rw [h1, h2, h3, h4]
  unfold CcFrame at hr ⊢
  cases c.savedWait with
  | none => exact ⟨congrArg (fun y : Core => { y with pc := c.backPc }) hr, rfl⟩
  | some wa =>
    dsimp only
    split
    · exact ⟨congrArg (fun y : Core => { y with pc := c.backPc }) hr, rfl⟩
    · exact ⟨congrArg (fun y : Core => { y with ccWait := some wa.1, pc := wa.2, resumeAt := if (c.backPc == wa.2 + 8 || c.backPc == wa.2) = true then none else some c.backPc }) hr, rfl⟩
theorem Core.back_keeps (c : Core) (now : Nat) : (c.back now).tok = c.tok ∧ (c.back now).peel = c.peel ∧ (c.back now).s = c.s ∧ (c.back now).hold = c.hold ∧
    (c.back now).tcause = c.tcause &&& ~~~(1#64 <<< 11) := by
  obtain ⟨h1, h2, h3, h4, -, -⟩ := c.reinject_keeps now
  unfold Core.back Core.returned
  split
  · split <;> exact ⟨h1, h2, h3, h4, rfl⟩
  · exact ⟨h1, h2, h3, h4, rfl⟩

/-- The effect of the return before a ring word is passed. -/
theorem CcIssued.backEff {s1 : State} {e : Word} {ts : List (Nat × Nat)} {srcs : List (BitVec 6 × Bool)} (i : CcIssued s s1 e ts srcs) :
    CcEff s s1 (s1.modCore s.cur fun c => c.back s1.cycle) s.cur 0 (s.me.back s.cycle) [] (s.me.back s.cycle).pc ∧
      ((s1.modCore s.cur fun c => c.back s1.cycle).core s.cur).s = s.me.s := by
  rw [i.only.cycle]
  refine ⟨i.modEff (.refl s1 s.cur 0) ⟨fun x hx => (hx.back _).1, fun x => (x.back_keeps _).1, fun x => (x.back_keeps _).2.1⟩ (i.frame.back _).2, ?_⟩
  rw [State.core_modCore_self, (Core.back_keeps ..).2.2.1]
  exact i.regs
theorem tret_returns (m : CcMay s h [] [] 0) (hi : s.me.tcause.getLsbD 11 = true) (hn : (s.me.skips && s.me.trapEng != .cc) = false) {base : Core}
    (hb : CcFrame base (s.me.back s.cycle)) : CcDoes (.tret h o) h [] base [] (s.me.back s.cycle).pc s s := by
  obtain ⟨t, ht, ran, hs⟩ := CcDoes.of_eff (s0 := s) (base := s.me.back s.cycle) (p := (s.me.back s.cycle).pc) (i := .tret h o) m (.refl (execTret h o s))
    (by rw [(Core.back_keeps ..).2.2.2.1]; have := m.room; omega) rfl fun s1 i _ => by
      obtain ⟨h1, h2, -⟩ := i.frame.returns
      obtain ⟨ef, hs⟩ := i.backEff
      refine ⟨_, (if_neg (by show ¬(!s.me.tcause.getLsbD 11) = true; rw [hi]; simp)).trans ?_, ef.more (by omega), hs⟩
      rw [State.trapReturn_eq, h1, h2, if_neg (by rw [hn]; simp)]
  exact ⟨t, ht, ⟨ran.only, hb.trans ran.frame, ran.tokens, ran.pc⟩, hs⟩

/-! ### The return past a ring word -/

/-- An operation on engine records and queues of core `n`: the core's trap registers, PC, tokens, peel log and egress hold stand. -/
structure EngSide (s t : State) (n : Nat) : Prop where
  only : CoreOnly s t n
  keeps : (t.core n).tcause = (s.core n).tcause ∧ (t.core n).pc = (s.core n).pc ∧ (t.core n).tok = (s.core n).tok ∧ (t.core n).peel = (s.core n).peel ∧
    (t.core n).hold = (s.core n).hold

theorem EngSide.refl (s : State) (n : Nat) : EngSide s s n := ⟨.refl s n, rfl, rfl, rfl, rfl, rfl⟩
theorem EngSide.trans {s t u : State} {n : Nat} (a : EngSide s t n) (b : EngSide t u n) : EngSide s u n :=
  ⟨a.only.trans b.only, b.keeps.1.trans a.keeps.1, b.keeps.2.1.trans a.keeps.2.1, b.keeps.2.2.1.trans a.keeps.2.2.1,
    b.keeps.2.2.2.1.trans a.keeps.2.2.2.1, b.keeps.2.2.2.2.trans a.keeps.2.2.2.2⟩
theorem EngSide.modCore (s : State) (n : Nat) (f : Core → Core)
    (hf : ∀ c, (f c).tcause = c.tcause ∧ (f c).pc = c.pc ∧ (f c).tok = c.tok ∧ (f c).peel = c.peel ∧ (f c).hold = c.hold) : EngSide s (s.modCore n f) n :=
  ⟨.modCore .., by rw [State.core_modCore_self]; exact hf _⟩
theorem EngSide.modEng (s : State) (n : Nat) (eng : Eng) (f : Core → EngSt → EngSt) : EngSide s (s.modCore n fun c => c.modEng eng (f c)) n :=
  .modCore s n _ fun c => by cases eng <;> exact ⟨rfl, rfl, rfl, rfl, rfl⟩
theorem State.trimEng_side (s : State) (n : Nat) (eng : Eng) : EngSide s (s.trimEng n eng) n := .modEng s n eng fun _ x => x.trim (eng == .mtx) (s.horizonOf n) (s.cutOf n)
theorem State.retired_side (s : State) (n : Nat) : EngSide s (s.retired n) n := .modCore s n _ fun _ => ⟨rfl, rfl, rfl, rfl, rfl⟩
theorem State.retireIss_side (s : State) (n : Nat) (eng : Eng) (id : Nat) : EngSide s (s.retireIss n eng id) n :=
  ((EngSide.modEng s n eng fun _ x => { x with iss := x.iss.map fun i => if i.id == id then { i with retired := true } else i }).trans
    (State.trimEng_side ..)).trans (State.retired_side ..)
theorem State.passWord_side (s : State) (n : Nat) (eng : Eng) (skip : Nat) : EngSide s (s.passWord n eng skip) n :=
  ((EngSide.modEng s n eng fun c x => EngSt.next c.cw { x with skip := skip }).trans (State.trimEng_side ..)).trans (State.retired_side ..)
theorem State.dropExe_side (s : State) (n : Nat) : EngSide s (s.dropExe n) n := by
  unfold State.dropExe
  split
  · exact .refl s n
  case h_2 x xs _ => exact (EngSide.modCore s n (fun c => { c with exeQ := xs }) fun _ => ⟨rfl, rfl, rfl, rfl, rfl⟩).trans (State.retireIss_side _ n .exe x.id)
theorem State.dropMtx_side (s : State) (n : Nat) (slot : BitVec 16) : EngSide s (s.dropMtx n slot) n := by
  unfold State.dropMtx
  dsimp only
  split
  case h_1 o _ =>
    exact (EngSide.modCore s n (fun c => { c with mx := { (s.core n).mx with ops := (s.core n).mx.ops.filter fun p => p.id != o.id } })
      fun _ => ⟨rfl, rfl, rfl, rfl, rfl⟩).trans (State.retireIss_side _ n .mtx o.id)
  case h_2 =>
    have h1 : EngSide s { s with nextId := s.nextId + 1 } n := ⟨(CoreOnly.refl s n).nextId _, rfl, rfl, rfl, rfl, rfl⟩
    have h2 := EngSide.modCore { s with nextId := s.nextId + 1 } n (fun c => { c with mtx := ({ c.mtx with
      iss := c.mtx.iss ++ [{ pos := slot, e := maxW c.mtx.elast c.mtx.crd, retired := true, snap := c.mtx.snap, id := s.nextId }] } : EngSt).passIssued 65536 })
      fun _ => ⟨rfl, rfl, rfl, rfl, rfl⟩
    exact (h1.trans h2).trans (State.trimEng_side _ n .mtx)
theorem State.dropCpy_side (s u : State) (n : Nat) (slot : BitVec 16) (h : s.dropCpy n slot = some u) : EngSide s u n := by
  unfold State.dropCpy at h
  obtain ⟨o, -, rfl⟩ := Option.map_eq_some_iff.1 h
  exact (EngSide.modCore s n (fun c => { c with cpyQ := c.cpyQ.filter fun p => p.id != o.id }) fun _ => ⟨rfl, rfl, rfl, rfl, rfl⟩).trans
    (State.retireIss_side _ n .cpy o.id)
theorem State.skipWord_side (s : State) (n : Nat) (eng : Eng) (code : BitVec 8) (slot : BitVec 16) : EngSide s (s.skipWord n eng code slot) n := by
  unfold State.skipWord
  split
  · exact s.dropExe_side n
  split
  · exact s.dropMtx_side n slot
  split
  case h_1 u hu =>
    split at hu
    · exact s.dropCpy_side _ n slot hu
    · cases hu
  case h_2 => exact s.passWord_side ..

theorem tret_skips (m : CcMay s h [] [] 0) (hi : s.me.tcause.getLsbD 11 = true) (hk : (s.me.skips && s.me.trapEng != .cc) = true) :
    ∃ t, exec (.tret h o) s = .next t ∧ (t.core s.cur).tcause = s.me.tcause &&& ~~~(1#64 <<< 11) ∧ (t.core s.cur).pc = (s.me.back s.cycle).pc := by
  obtain ⟨s1, i, -, -, hgo⟩ := ccWordAt_issues m
  obtain ⟨h1, h2, -⟩ := i.frame.returns
  obtain ⟨ef, -⟩ := i.backEff
  obtain ⟨u, hu⟩ : ∃ u, u = s1.trapReturn s.cur := ⟨_, rfl⟩
  have side : EngSide (s1.modCore s.cur fun c => c.back s1.cycle) u s.cur := by
    rw [hu, State.trapReturn_eq, h1, h2, if_pos hk]
    exact State.skipWord_side ..
  obtain ⟨k1, k2, k3, k4, k5⟩ := side.keeps
  have hcur : u.cur = s.cur := side.only.cur.trans ef.only.cur
  have hroom := m.room
  have hwl := waitPresent_length (s.me.waitVal h)
  have hf : u.me.fits = true := by
    have hl := ef.log
    have hl1 := i.log
    rw [i.here] at hl
    simp only [List.length_append, List.length_nil] at hl1
    unfold Core.fits
    rw [State.me, hcur, k4, k5, ef.frame.hold, (Core.back_keeps ..).2.2.2.1, Bool.and_eq_true, decide_eq_true_eq, decide_eq_true_eq]
    exact ⟨by omega, by omega⟩
  have hsig : h.sig = 0 ∨ (u.me.tok.get {} h.sig.toNat).count.toNat < 0xFFFF := m.signal.imp id fun hs => by
    have := i.count h.sig.toNat
    rw [State.me, hcur, k3, ef.tok _ (by simp), i.here]
    omega
  have r := u.ccRetire_retired h.sig (s.ccCrd h [] 0) hsig
  rw [hcur] at r
  have hfin := ccFinish_done_eq h (s.ccCrd h [] 0) s u hf
  rw [m.fresh] at hfin
  refine ⟨u.ccRetire false h.sig (s.ccCrd h [] 0), ?_, ?_, ?_⟩
  · have hr : exec (.tret h o) s = ccAt 0 h (packSY h 0x23 0 o) [] _ s := .refl (execTret h o s)
    rw [hr, ccAt, hgo, if_neg (by show ¬(!s.me.tcause.getLsbD 11) = true; rw [hi]; simp), ← hu]
    exact hfin
  · rw [r.core]
    show (u.core s.cur).tcause = _
    rw [k1, State.core_modCore_self, (Core.back_keeps ..).2.2.2.2, show (s1.core s.cur).tcause = s.me.tcause by rw [i.frame]]
  · rw [r.core]
    exact k2.trans ef.pc
end

/-- Settles O20: TRAP and BRK retire and raise, TRET gives the core back, with or without the word that faulted. -/
theorem trapWords : Obligations.TrapWords := by
  unfold Obligations.TrapWords
  intro h o s m traps eng skip back
  have hsk : s.me.skips = skip := rfl
  have heng : s.me.trapEng = eng := rfl
  refine ⟨ccAfter_raises m (.refl (execTrap h o s)) fun _ _ => rfl, ccAfter_raises m (.refl (execBrk h o s)) fun _ _ => rfl, fun hi => tret_refused m hi,
    fun hi hw hn => ?_, fun w a hi hw hk => ?_, fun hi hk hn => ?_⟩
  · have hn' : (s.me.skips && s.me.trapEng != .cc) = false := by
      rw [Bool.and_eq_false_iff, bne_eq_false_iff_eq, hsk, heng, ← Bool.not_eq_true]
      tauto
    have hb : s.me.back s.cycle = { s.me.returned s.cycle with pc := s.me.backPc } := by unfold Core.back; rw [hw]
    have x := tret_returns (o := o) m hi hn' (base := back) (by rw [hb]; exact rfl)
    have hpc : (s.me.back s.cycle).pc = if skip then s.me.tepc + 8 else s.me.tepc := by
      rw [hb]
      show (if (s.me.skips && s.me.trapEng == .cc) = true then _ else _) = _
      rw [hsk, heng]
      by_cases hs : skip = true
      · have he : eng = .cc := by tauto
        rw [he, hs]; rfl
      · rw [Bool.not_eq_true] at hs; rw [hs]; rfl
    rwa [hpc] at x
  · have hbp : s.me.backPc = s.me.tepc := if_neg (by rw [hsk, hk]; simp)
    have hb : s.me.back s.cycle = { s.me.returned s.cycle with ccWait := some w, pc := a, resumeAt := if s.me.backPc == a + 8 || s.me.backPc == a then none else some s.me.backPc } := by
      unfold Core.back; rw [hw]; exact if_neg (by rw [hsk, hk]; simp)
    have x := tret_returns (o := o) m hi (by rw [hsk, hk]; rfl)
      (base := { back with ccWait := some w, resumeAt := if s.me.tepc = a + 8 ∨ s.me.tepc = a then none else some s.me.tepc })
      (by rw [hb, hbp]; simp only [Bool.or_eq_true, beq_iff_eq]; exact rfl)
    rw [hb] at x
    exact x
  · obtain ⟨t, ht, h1, h2⟩ := tret_skips (o := o) m hi (by rw [hsk, heng, hk]; simpa using hn)
    refine ⟨t, ht, ?_, fun hw => ?_⟩
    · rw [h1, BitVec.getLsbD_and, BitVec.getLsbD_not, BitVec.getLsbD_shiftLeft]; simp
    · rw [h2]
      unfold Core.back
      rw [hw]
      exact if_neg (by rw [heng]; simpa using fun _ => hn)

end Sys2Proof.Machine
end

section
/-! PROOFS of the TaskEnd statement (O21): the flags joined to a context's word, and the end of a task. -/

set_option Elab.async false

namespace Sys2Proof.Machine

/-! ### Stage two and what it is read from (R197 to R199) -/

/-- Stage two places bytes in a partition's memory, never in supervisor memory, where its table lies. -/
theorem segPlace_lt {pid : BitVec 7} {p : Part} {ent : Word} {low k : Nat} (h : segPlace pid p ent low = some k) : k < memKey 3 0 0 := by
  have hch : ∀ (w : Nat) (b : BitVec w) (i : Nat), (channels b).getD i 0 < w ∨ (channels b).getD i 0 = 0 := fun w b i => by
    by_cases hi : i < (channels b).length
    · left
      rw [List.getD_eq_getElem _ _ hi]
      have := List.getElem_mem hi
      unfold channels at this
      exact List.mem_range.1 (List.mem_filter.1 this).1
    · right; rw [List.getD_eq_default _ _ (by omega)]
  unfold segPlace at h
  dsimp only at h
  obtain ⟨a, ha⟩ : ∃ a, a = (ent.extractLsb' 16 24).toNat * 2 ^ 21 + low := ⟨_, rfl⟩
  rw [← ha] at h
  split at h
  · cases h
  rename_i hlt
  rw [Bool.or_eq_true, not_or, decide_eq_true_iff, Nat.not_le] at hlt
  have hlt := hlt.2
  split at h
  · rename_i hk
    rw [beq_iff_eq] at hk
    have hu := (ent.extractLsb' 4 5).isLt
    have hp := pid.isLt
    have hm : p.vaultMiB (ent.extractLsb' 4 5).toNat < 256 := BitVec.isLt _
    unfold Part.kindBytes at hlt
    rw [if_pos (by rw [hk]; rfl)] at hlt
    rw [← Option.some.inj h]
    unfold memKey
    generalize p.vaultMiB (ent.extractLsb' 4 5).toNat = v at *
    have : v * 2 ^ 20 ≤ 255 * 2 ^ 20 := Nat.mul_le_mul_right _ (by omega)
    have : pid.toNat * 2 ^ 32 ≤ 127 * 2 ^ 32 := Nat.mul_le_mul_right _ (by omega)
    omega
  have inter : ∀ (w : Nat) (b : BitVec w) (c K B : Nat), a < (channels b).length * B → B + 1024 < 2 ^ 40 → K ≤ 2 → w ≤ 256 →
      (if (channels b).length == 0 then none else
        some (memKey K ((channels b).getD (a / 1024 % (channels b).length) 0) (a / 1024 / (channels b).length * 1024 + a % 1024))) = some k → k < memKey 3 0 0 := by
    intro w b c K B hab hB hK hw h
    split at h
    · cases h
    rename_i hl
    rw [beq_iff_eq] at hl
    rw [← Option.some.inj h]
    have h1 := hch w b (a / 1024 % (channels b).length)
    have h2 : a / 1024 / (channels b).length ≤ B / 1024 := by
      rw [Nat.div_div_eq_div_mul, Nat.mul_comm, ← Nat.div_div_eq_div_mul]
      exact Nat.div_le_div_right (Nat.le_of_lt (Nat.div_lt_of_lt_mul hab))
    unfold memKey
    have h3 : a % 1024 < 1024 := Nat.mod_lt _ (by omega)
    generalize a / 1024 / (channels b).length = q at *
    generalize (channels b).getD (a / 1024 % (channels b).length) 0 = c at *
    have : (K * 256 + c) * 2 ^ 40 ≤ (2 * 256 + 255) * 2 ^ 40 := Nat.mul_le_mul_right _ (by omega)
    omega
  split at h
  · rename_i hk0 hk
    rw [beq_iff_eq] at hk
    unfold Part.kindBytes at hlt
    rw [hk] at hlt
    exact inter 256 p.hbm 0 1 1500000000 hlt (by norm_num) (by omega) (by omega) h
  split at h
  · rename_i hk0 hk1 hk
    rw [beq_iff_eq] at hk
    unfold Part.kindBytes at hlt
    rw [hk] at hlt
    exact inter 32 p.lp 0 2 (2 ^ 35) hlt (by norm_num) (by omega) (by omega) h
  · cases h
theorem State.stage2_lt {s : State} {pid : BitVec 7} {a k : Nat} (h : s.stage2 pid a = some k) : k < memKey 3 0 0 := by
  unfold State.stage2 at h
  dsimp only at h
  split at h
  · exact segPlace_lt h
  · cases h

/-- Bytes written where stage two places them leave stage two as it stands. -/
theorem State.bytesAt_congr {s t : State} {k n : Nat} (h : ∀ j, k ≤ j → t.byte j = s.byte j) : t.bytesAt k n = s.bytesAt k n := by
  induction n generalizing k with
  | zero => rfl
  | succ n ih => rw [State.bytesAt, State.bytesAt, h k (Nat.le_refl _), ih fun j hj => h j (by omega)]
theorem State.stage2_putCells (s : State) {cs : List (Nat × Byte)} (hc : ∀ c ∈ cs, c.1 < memKey 3 0 0) (pid : BitVec 7) (a : Nat) :
    (s.putCells cs).stage2 pid a = s.stage2 pid a := by
  obtain ⟨m, hm⟩ := s.putCells_mem_only cs
  have ho : (s.putCells cs).own pid = s.own pid := by rw [hm]; rfl
  have he : ∀ p seg, (s.putCells cs).segEntry p seg = s.segEntry p seg := fun p seg => by
    unfold State.segEntry State.numAt
    rw [State.bytesAt_congr fun j hj => s.byte_putCells_of_notMem cs fun c hm => by
      have := hc c hm
      unfold memKey at *
      omega]
  unfold State.stage2
  dsimp only
  rw [ho, he]

/-! ### The flags of a context (R158) -/

/-- The cells of a context's flag word. -/
def State.flagCells (s : State) (cid : BitVec 12) (bs : List Byte) : List (Nat × Byte) :=
  ((List.range bs.length).zip bs).filterMap fun (i, b) => (s.stage2 (s.ctx cid).pid ((s.ctx cid).img.toNat + 16 + i)).map fun k => (k, b)
theorem State.flagCells_lt {s : State} {cid : BitVec 12} {bs : List Byte} {c : Nat × Byte} (h : c ∈ s.flagCells cid bs) : c.1 < memKey 3 0 0 := by
  obtain ⟨⟨i, b⟩, -, hx⟩ := List.mem_filterMap.1 h
  obtain ⟨k, hk, rfl⟩ := Option.map_eq_some_iff.1 hx
  exact State.stage2_lt hk

/-- The flags of a context read back, where the first byte of their word has a place of its own. -/
theorem State.imgFlags_putFlags {s : State} {cid : BitVec 12} {v : BitVec 8}
    (h0 : s.stage2 (s.ctx cid).pid ((s.ctx cid).img.toNat + 16 + 0) ≠ none)
    (hn : ∀ i, 0 < i → i < 8 → s.stage2 (s.ctx cid).pid ((s.ctx cid).img.toNat + 16 + i) ≠ s.stage2 (s.ctx cid).pid ((s.ctx cid).img.toNat + 16 + 0)) :
    (s.putFlags cid v).imgFlags cid = v := by
  obtain ⟨k, hk⟩ := Option.ne_none_iff_exists'.1 h0
  obtain ⟨rest, hrest⟩ : ∃ rest, s.flagCells cid (leBytes v.toNat 8) = (k, BitVec.ofNat 8 v.toNat) :: rest ∧ ∀ c ∈ rest, c.1 ≠ k := by
    refine ⟨([1, 2, 3, 4, 5, 6, 7].zip (leBytes (v.toNat / 256) 7)).filterMap fun (i, b) =>
      (s.stage2 (s.ctx cid).pid ((s.ctx cid).img.toNat + 16 + i)).map fun k => (k, b), ?_, fun c hc => ?_⟩
    · unfold State.flagCells
      rw [leBytes_length]
      show List.filterMap _ ((0, BitVec.ofNat 8 v.toNat) :: ([1, 2, 3, 4, 5, 6, 7].zip (leBytes (v.toNat / 256) 7))) = _
      rw [List.filterMap_cons_some (b := (k, BitVec.ofNat 8 v.toNat)) (by dsimp only; rw [hk]; rfl)]
    · obtain ⟨⟨i, b⟩, hm, hx⟩ := List.mem_filterMap.1 hc
      obtain ⟨j, hj, rfl⟩ := Option.map_eq_some_iff.1 hx
      have hi := (List.of_mem_zip hm).1
      intro he
      subst he
      refine hn i ?_ ?_ (hj.trans hk.symm)
      all_goals (simp at hi; omega)
  obtain ⟨hcells, hne⟩ := hrest
  have hput : s.putFlags cid v = s.putCells (s.flagCells cid (leBytes v.toNat 8)) := rfl
  have hst := s.stage2_putCells (cs := s.flagCells cid (leBytes v.toNat 8)) (fun c hc => State.flagCells_lt hc)
  have hctx : (s.putCells (s.flagCells cid (leBytes v.toNat 8))).ctx cid = s.ctx cid := by
    unfold State.ctx; rw [State.putCells_ctxs]
  have hbyte : (s.putCells (s.flagCells cid (leBytes v.toNat 8))).byte k = v := by
    rw [hcells]
    show ((s.setByte k (BitVec.ofNat 8 v.toNat)).putCells rest).byte k = v
    rw [State.byte_putCells_of_notMem _ _ hne, State.byte_setByte_self]
    exact BitVec.eq_of_toNat_eq (by simp)
  rw [hput]
  unfold State.imgFlags State.gpaBytes
  rw [hctx]
  show bitsOf 8 [match (s.putCells _).stage2 (s.ctx cid).pid ((s.ctx cid).img.toNat + 16 + 0) with | some k => (s.putCells _).byte k | none => 0] = v
  rw [hst, hk]
  dsimp only
  rw [hbyte]
  unfold bitsOf leNat leNat
  exact BitVec.eq_of_toNat_eq (by simp)
/-- R158: flags joined to a context's word read back. -/
theorem State.orFlags_imgFlags {s : State} {cid : BitVec 12} {f : BitVec 8}
    (h0 : s.stage2 (s.ctx cid).pid ((s.ctx cid).img.toNat + 16 + 0) ≠ none)
    (hn : ∀ i, 0 < i → i < 8 → s.stage2 (s.ctx cid).pid ((s.ctx cid).img.toNat + 16 + i) ≠ s.stage2 (s.ctx cid).pid ((s.ctx cid).img.toNat + 16 + 0)) :
    (s.orFlags cid f).imgFlags cid = s.imgFlags cid ||| f := State.imgFlags_putFlags h0 hn

/-! ### A word from the state after its issue, or after its wait -/

/-- What a word answers whose effect, from the state `s1` after its issue, does `u`. -/
theorem ccAt_does {s : State} {h : Hdr} {srcs : List (BitVec 6 × Bool)} {extra : Word} {i : Instr} {w : Word} {body : Word → State → Body} {r : Result}
    (m : CcMay s h srcs [] extra) (hr : r = ccAt extra h w srcs body s) (hi : exec i s = r := by rfl) :
    ∃ s1, CcIssued s s1 (s.ccCrd h [] extra) (waitPresent (s.me.waitVal h) ++ []) srcs ∧ s1.nextId = s.nextId ∧
      ∀ s0 u base p, body (s.ccCrd h [] extra) s1 = .done u → CcEff s0 s1 u s.cur 8 base [] p → s0.cur = s.cur →
        base.hold.length ≤ 128 → (u.core s.cur).s = s.me.s → CcDoes i h [] base [] p s0 s := by
  obtain ⟨s1, iss, -, hid, hgo⟩ := ccWordAt_issues m
  refine ⟨s1, iss, hid, fun s0 u base p hb ef hs0 hh hs => ?_⟩
  obtain ⟨t, ht, rt, ran⟩ := ccFinish_done iss ef hs0 m.fresh (by simpa using m.room.1) hh (m.signal.imp id fun hc => by
    rw [ef.tok _ (by simp), iss.here]
    have := iss.count h.sig.toNat
    omega)
  exact ⟨t, by rw [hi, hr, ccAt, hgo, hb, ht], ran, by rw [rt.core]; exact hs⟩
/-- What a waiting word answers whose effect, from the state `s1` in which it goes on, does `u`. -/
theorem ccAt_ends {s : State} {h : Hdr} {srcs : List (BitVec 6 × Bool)} {extra : Word} {i : Instr} {w : Word} {body : Word → State → Body} {r : Result}
    (hw : s.me.ccWait.isSome = true) (me : CcMayEnd s h) (hr : r = ccAt extra h w srcs body s) (hi : exec i s = r := by rfl) :
    ∃ s1, CcIssued s s1 (maxW s.me.cc.elast extra) [] [] ∧
      ∀ s0 u base, body (maxW s.me.cc.elast extra) s1 = .done u → CcEff s0 s1 u s.cur 8 base [] (s.me.pc + 8) → s0.cur = s.cur →
        base.hold.length ≤ 128 → base.resumeAt = s.me.resumeAt → (u.core s.cur).s = s.me.s → CcEnds i h base s0 s := by
  obtain ⟨s1, iss, hgo⟩ := ccWordAt_wakes hw extra
  refine ⟨s1, iss, fun s0 u base hb ef hs0 hh hres hs => ?_⟩
  obtain ⟨t, ht, ran, hst⟩ := ccFinish_ends hw iss ef hs0 me (by have := me.room; omega) hh
  rw [hres] at ran
  exact ⟨t, by rw [hi, hr, ccAt, hgo, hb, ht], ran, hst.trans hs⟩

/-! ### The end of a task (R106, R352) -/

/-- The core once its task has ended. -/
def Core.ended (c : Core) (k : Task) (z : Option EndSnap) : Core :=
  { c with task := some { k with ended := true, tending := true }, locks := [], flags := 0, endSnap := z, icache := unlockRange c.icache 0 (2 ^ 58) }
/-- The device beside the core once a task has ended. -/
def State.taskEnded (s : State) (k : Task) (f : BitVec 8) : State := ((s.orFlags k.cid f).modLaunch k.launch fun l => l.taskEnd k).dropTaskPhasers k

theorem CoreOnly.putCells {s t : State} {n : Nat} (h : CoreOnly s t n) (cs : List (Nat × Byte)) : CoreOnly (s.putCells cs) (t.putCells cs) n := by
  induction cs generalizing s t with
  | nil => exact h
  | cons c cs ih =>
    refine ih ⟨?_, h.2⟩
    show { t with mem := SMap.set 0 t.mem c.1 c.2 } = _
    rw [h.mem]
    conv_lhs => rw [h.1]
    rfl
theorem CoreOnly.taskEnded {s t : State} {n : Nat} (h : CoreOnly s t n) (k : Task) (f : BitVec 8) : CoreOnly (s.taskEnded k f) (t.taskEnded k f) n := by
  have ho : CoreOnly (s.orFlags k.cid f) (t.orFlags k.cid f) n := by
    have hc : t.flagCells k.cid (leBytes (t.imgFlags k.cid ||| f).toNat 8) = s.flagCells k.cid (leBytes (s.imgFlags k.cid ||| f).toNat 8) := by rw [h.1]; rfl
    show CoreOnly (s.putCells (s.flagCells k.cid (leBytes (s.imgFlags k.cid ||| f).toNat 8))) (t.putCells (t.flagCells k.cid (leBytes (t.imgFlags k.cid ||| f).toNat 8))) n
    rw [hc]
    exact h.putCells _
  unfold State.taskEnded
  generalize s.orFlags k.cid f = a at *
  generalize t.orFlags k.cid f = b at *
  exact ⟨by unfold State.modLaunch State.dropTaskPhasers; conv_lhs => rw [ho.1], ho.2⟩
theorem State.taskEnded_cores (s : State) (k : Task) (f : BitVec 8) : (s.taskEnded k f).cores = s.cores :=
  State.putCells_cores s (s.flagCells k.cid (leBytes (s.imgFlags k.cid ||| f).toNat 8))
theorem State.taskEnded_cur (s : State) (k : Task) (f : BitVec 8) : (s.taskEnded k f).cur = s.cur :=
  State.putCells_cur s (s.flagCells k.cid (leBytes (s.imgFlags k.cid ||| f).toNat 8))

section
variable {s s1 : State} {h : Hdr} {o : SY} {k : Task} {e : Word} {ts : List (Nat × Nat)} {srcs : List (BitVec 6 × Bool)}

theorem State.endTask_eq (s : State) (n : Nat) (e : Word) (t : Task) :
    ∃ z, s.endTask n e t = (s.taskEnded t (s.core n).flags).modCore n fun c => c.ended t z := ⟨_, rfl⟩
theorem CcIssued.endEff (i : CcIssued s s1 e ts srcs) (k : Task) : ∃ z, CcEff (s.taskEnded k s.me.flags) s1 (s1.endTask s.cur e k) s.cur 8 (s.me.ended k z) [] (s.me.pc + 8) ∧
    ((s1.endTask s.cur e k).core s.cur).s = s.me.s := by
  have hf : (s1.core s.cur).flags = s.me.flags := by rw [i.here, i.core]
  obtain ⟨z, hz⟩ := s1.endTask_eq s.cur e k
  rw [hf] at hz
  have hc : (s1.taskEnded k s.me.flags).core s.cur = s1.core s.cur := State.core_of_cores (s1.taskEnded_cores ..) _
  refine ⟨z, ?_, ?_⟩
  · rw [hz]
    refine ⟨(i.only.taskEnded k _).trans (.modCore ..), ?_, ?_, fun j _ => ?_, ?_⟩ <;> rw [State.core_modCore_self, hc]
    · have := i.frame; unfold CcFrame Core.ended at *; rw [this]
    · exact i.pc
    · rfl
    · exact Nat.le_add_right ..
  · rw [hz, State.core_modCore_self, hc]; exact i.regs

theorem tend_refused (m : CcMay s h [] [] 0) (hr : s.me.task = none ∨ tcInh s.me.tcause = true) : RaisesIllegal (.tend h o) h s :=
  .of_body m (.refl (execTend h o s)) fun s1 _ => by
    cases ht : s.me.task with
    | none => rfl
    | some t => exact if_pos (hr.resolve_left (by rw [ht]; simp))
theorem tend_ends (m : CcMay s h [] [] 0) (ht : s.me.task = some k) (hi : tcInh s.me.tcause = false) (hd : s.me.drained = true) :
    ∃ z, CcDoes (.tend h o) h [] (s.me.ended k z) [] (s.me.pc + 8) (s.taskEnded k s.me.flags) s := by
  obtain ⟨s1, i, -, hx⟩ := ccAt_does m (.refl (execTend h o s)) (i := .tend h o)
  obtain ⟨z, ef, hs⟩ := i.endEff k
  refine ⟨z, hx _ _ _ _ ?_ ef (s.taskEnded_cur ..) (by have := m.room; show s.me.hold.length ≤ 128; omega) hs⟩
  rw [ht]
  exact (if_neg (by rw [hi]; simp)).trans (if_pos hd)
theorem tend_waits (m : CcMay s h [] [] 0) (ht : s.me.task = some k) (hi : tcInh s.me.tcause = false) (hd : s.me.drained = false) :
    CcWaits (.tend h o) h { s.me with task := some { k with tending := true } } (.join [] []) s s := by
  refine .of_eff (p := s.me.pc + 8) m (.refl (execTend h o s)) (by have := m.room; show s.me.hold.length ≤ 128; omega) rfl fun s1 i _ =>
    ⟨s1.modCore s.cur fun c => { c with task := some { k with tending := true } }, ?_,
      (i.self.mod (base' := { s.me with task := some { k with tending := true } }) (fun c => { c with task := some { k with tending := true } }) ⟨fun x h => by unfold CcFrame at *; rw [h], fun _ => rfl, fun _ => rfl⟩
        fun _ => rfl).more (by omega), by rw [State.core_modCore_self]; exact i.regs⟩
  rw [ht]
  refine ((if_neg (by rw [hi]; simp)).trans (if_neg (by rw [hd]; simp))).trans ?_
  rw [State.modCore_modCore]
theorem tend_goes (hw : s.me.ccWait = some (.join [] [])) (me : CcMayEnd s h) (ht : s.me.task = some k) (hi : tcInh s.me.tcause = false) (hd : s.me.drained = true) :
    ∃ z, CcEnds (.tend h o) h (s.me.ended k z) (s.taskEnded k s.me.flags) s := by
  obtain ⟨s1, i, hx⟩ := ccAt_ends (i := .tend h o) (by rw [hw]; rfl) me (.refl (execTend h o s))
  obtain ⟨z, ef, hs⟩ := i.endEff k
  refine ⟨z, hx _ _ _ ?_ ef (s.taskEnded_cur ..) (by have := me.room; show s.me.hold.length ≤ 128; omega) rfl hs⟩
  rw [ht]
  exact (if_neg (by rw [hi]; simp)).trans (if_pos hd)
end

/-- Settles O21: TEND is refused, waits for the engines, or ends the task. -/
theorem taskEnd : Obligations.TaskEnd := by
  unfold Obligations.TaskEnd
  refine ⟨fun h o s m hr => tend_refused m hr, ?_⟩
  intro h o s k ht hi ended s0 at_
  exact ⟨fun h0 hn => State.orFlags_imgFlags h0 hn, fun m hd => tend_ends m ht hi hd, fun m hd => tend_waits m ht hi hd, fun hw me hd => tend_goes hw me ht hi hd⟩

end Sys2Proof.Machine
end

section
/-! PROOFS of the VectorFloats statement (O31) and the VectorIntegers statement (O32): the lanes, predicates and flags that floating and integer forms leave. -/

set_option Elab.async false

namespace Sys2Proof.Machine

/-! ### Floating forms of one, two and three sources (R382, R385) -/

section
variable {i : Instr} {h : Hdr} {w : Word} {o : RR} {x y z : BitVec 6 × Bool} {t mode : Nat} {sat : Bool} {s : State}

theorem ExeComputes.of_vFloat_one {g : Val → Val × Flags} (hi : exec i s = vFloat h w o [x] t mode sat (fun v => g (nthV v 0)) s) :
    ExeComputes i h o.q o.lat { vs := [x], d := o.d } (fun e xs => LaneRes s.me o.d e (tWidth t) fun l =>
      let r := g ((fmtOf t).decode (vLane (xs.getD 0 0) (tWidth t) l))
      let c := (fmtOf t).encode (rmAt mode sat s.me.seed e l) r.1
      (c.1, r.2 ||| c.2)) s :=
  .of_vFloat hi fun l xs hx => by rw [nthV_decode (n := 1) hx (by decide)]
theorem ExeComputes.of_vFloat_two {g : Val → Val → Val × Flags} (hi : exec i s = vFloat h w o [x, y] t mode sat (fun v => g (nthV v 0) (nthV v 1)) s) :
    ExeComputes i h o.q o.lat { vs := [x, y], d := o.d } (fun e xs => LaneRes s.me o.d e (tWidth t) fun l =>
      let r := g ((fmtOf t).decode (vLane (xs.getD 0 0) (tWidth t) l)) ((fmtOf t).decode (vLane (xs.getD 1 0) (tWidth t) l))
      let c := (fmtOf t).encode (rmAt mode sat s.me.seed e l) r.1
      (c.1, r.2 ||| c.2)) s :=
  .of_vFloat hi fun l xs hx => by rw [nthV_decode (n := 2) hx (by decide), nthV_decode (n := 2) hx (by decide)]
theorem ExeComputes.of_vFloat_three {g : Val → Val → Val → Val × Flags}
    (hi : exec i s = vFloat h w o [x, y, z] t mode sat (fun v => g (nthV v 0) (nthV v 1) (nthV v 2)) s) :
    ExeComputes i h o.q o.lat { vs := [x, y, z], d := o.d } (fun e xs => LaneRes s.me o.d e (tWidth t) fun l =>
      let r := g ((fmtOf t).decode (vLane (xs.getD 0 0) (tWidth t) l)) ((fmtOf t).decode (vLane (xs.getD 1 0) (tWidth t) l))
        ((fmtOf t).decode (vLane (xs.getD 2 0) (tWidth t) l))
      let c := (fmtOf t).encode (rmAt mode sat s.me.seed e l) r.1
      (c.1, r.2 ||| c.2)) s :=
  .of_vFloat hi fun l xs hx => by
    rw [nthV_decode (n := 3) hx (by decide), nthV_decode (n := 3) hx (by decide), nthV_decode (n := 3) hx (by decide)]

/-- A form that computes each lane from the lanes of its sources. -/
theorem ExeComputes.of_vLaneOp {vs : List (BitVec 6 × Bool)} {b : Nat} {g : Word → Nat → List Nat → Nat × Flags} {g' : Word → List Vec → Nat → Nat × Flags}
    (hi : exec i s = vLaneOp h w o vs b g s) (hg : ∀ e xs l, g e l (xs.map fun x => vLane x b l) = g' e xs l) :
    ExeComputes i h o.q o.lat { vs := vs, d := o.d } (fun e xs => LaneRes s.me o.d e b (g' e xs)) s := by
  unfold vLaneOp at hi
  refine .of_exeOp hi fun e xs _ => ?_
  simp only [hg]
  exact lanesOf_res ..

end

/-! ### The sign bit (R382) -/

theorem vLane_lt (v : Vec) (w l : Nat) : vLane v w l < 2 ^ (8 * w) := BitVec.isLt _
/-- The sign bit of a number inverted is the number half way round. -/
theorem xor_two_pow_eq {x n : Nat} (hx : x < 2 * 2 ^ n) : x ^^^ 2 ^ n = (x + 2 ^ n) % (2 * 2 ^ n) := by
  have low : ∀ y, y < 2 ^ n → y ^^^ 2 ^ n = y + 2 ^ n := fun y hy => by
    refine Nat.eq_of_testBit_eq fun j => ?_
    have hsum := Nat.testBit_two_pow_mul_add 1 hy j
    rw [Nat.mul_one, Nat.add_comm] at hsum
    rw [hsum, Nat.testBit_xor, Nat.testBit_two_pow]
    by_cases hj : j < n
    · simp [hj, Nat.ne_of_gt hj]
    · have hz : y.testBit j = false := Nat.testBit_lt_two_pow (hy.trans_le (Nat.pow_le_pow_right Nat.two_pos (Nat.le_of_not_lt hj)))
      have he : n = j ↔ j - n = 0 := by omega
      rw [Bool.eq_iff_iff]
      simp [hj, hz, he, Nat.testBit_one_eq_true_iff_self_eq_zero]
  rcases Nat.lt_or_ge x (2 ^ n) with hlt | hge
  · rw [low x hlt, Nat.mod_eq_of_lt (by omega)]
  · have hy := low (x - 2 ^ n) (by omega)
    rw [Nat.sub_add_cancel hge] at hy
    rw [← hy, Nat.xor_xor_cancel_right, hy, show x + 2 ^ n = (x - 2 ^ n) + 2 * 2 ^ n by omega, Nat.add_mod_right, Nat.mod_eq_of_lt (by omega)]
/-- The sign bit of formats 0 to 2 is the highest bit of a lane. -/
theorem signBit_eq (fx : BitVec 2) (hf : fx.toNat < 3) : (fmtOf fx.toNat).signBit = 2 ^ (8 * tWidth fx.toNat - 1) := by
  have all : ∀ fx : BitVec 2, fx.toNat < 3 → (fmtOf fx.toNat).signBit = 2 ^ (8 * tWidth fx.toNat - 1) := by decide
  exact all fx hf

theorem two_pow_lane (fx : BitVec 2) : 2 ^ (8 * tWidth fx.toNat) = 2 * 2 ^ (8 * tWidth fx.toNat - 1) := by
  have all : ∀ fx : BitVec 2, 2 ^ (8 * tWidth fx.toNat) = 2 * 2 ^ (8 * tWidth fx.toNat - 1) := by decide
  exact all fx

/-- Settles O31: each floating form issues as `ExeComputes.of_vFloat` says of its function; VABS and VNEG change the highest bit of each lane alone. -/
theorem vectorFloats : Obligations.VectorFloats := by
  unfold Obligations.VectorFloats
  intro h o s
  simp only [← tWidth_eq]
  refine ⟨fun fx => ⟨?_, ?_, ?_, ?_, ?_, ?_, ?_, ?_, ?_, ?_, ?_, ?_, fun hf => ⟨?_, ?_⟩⟩, ?_, ?_, ?_⟩
  · exact .of_vFloat_two (.refl (execVadd h fx o s))
  · exact .of_vFloat_two (.refl (execVsub h fx o s))
  · exact .of_vFloat_two (.refl (execVmul h fx o s))
  · exact .of_vFloat_two (.refl (execVmin h fx o s))
  · exact .of_vFloat_two (.refl (execVmax h fx o s))
  · exact .of_vFloat_three (.refl (execVfma h fx o s))
  · exact .of_vFloat_three (.refl (execVfms h fx o s))
  · exact .of_vFloat_three (.refl (execVfnma h fx o s))
  · exact .of_vFloat_two (.refl (execVdiv h fx o s))
  · exact .of_vFloat_one (.refl (execVsqrt h fx o s))
  · exact .of_vFloat_one (.refl (execVrcp h fx o s))
  · exact .of_vFloat_one (.refl (execVrsq h fx o s))
  · exact .of_vLaneOp (.refl (execVabs h fx o s)) fun e xs l => by
      rw [getD_map_vLane, signBit_eq fx hf]
  · exact .of_vLaneOp (.refl (execVneg h fx o s)) fun e xs l => by
      have hlt := vLane_lt (xs.getD 0 0) (tWidth fx.toNat) l
      rw [getD_map_vLane, signBit_eq fx hf]
      exact congrArg (·, 0) (xor_two_pow_eq (by rwa [← two_pow_lane fx]))
  · exact .of_vFloat_one (t := 0) (.refl (execVexp2 h o s))
  · exact .of_vFloat_one (t := 0) (.refl (execVlog2 h o s))
  · exact .of_vLaneOp (.refl (execVtanh h o s)) fun e xs l => by rw [getD_map_vLane]

/-! ### Integer lanes (R383, R384) -/

theorem laneInt_eq (u : Bool) (b x : Nat) : laneInt u b x = if u = false ∧ 2 ^ (b - 1) ≤ x then (x : Int) - 2 ^ b else x := by
  simp only [laneInt, Bool.and_eq_true, Bool.not_eq_true', decide_eq_true_eq]
/-- What R383 makes of an exact result: its residue, or the nearer end of the range with SAT. -/
theorem laneFit_eq (uns sat : Bool) (b : Nat) (x : Int) :
    laneFit uns sat b x =
      (let least : Int := if uns then 0 else -(2 ^ (b - 1) : Int)
       let most : Int := if uns then 2 ^ b - 1 else 2 ^ (b - 1) - 1
       if sat ∧ x < least then ((least % (2 ^ b : Int)).toNat, 0x20) else if sat ∧ most < x then ((most % (2 ^ b : Int)).toNat, 0x20)
       else ((x % (2 ^ b : Int)).toNat, 0)) := by
  simp only [laneFit, flSat, Bool.and_eq_true, decide_eq_true_eq]
theorem laneFit_wrap (uns : Bool) (b : Nat) (x : Int) : laneFit uns false b x = ((x % (2 ^ b : Int)).toNat, 0) := by
  simp [laneFit]
theorem condOf_eq (k : Nat) (x : Int) : condOf k x =
    decide (if k = 0 then x = 0 else if k = 1 then x ≠ 0 else if k = 2 then x < 0 else if k = 3 then x ≤ 0 else if k = 4 then 0 < x else 0 ≤ x) := by
  match k with
  | 0 | 2 | 3 | 4 => rfl
  | 1 => simp [condOf, bne, decide_not, beq_eq_decide]
  | k + 5 => rfl
theorem wWidth_eq (k : Nat) : wWidth k = if k = 0 then 4 else if k = 1 then 2 else 1 := by simp only [wWidth, beq_iff_eq]
theorem wWidth_pos (k : Nat) : 0 < wWidth k := by rw [wWidth_eq]; split_ifs <;> decide
theorem wWidth_lanes (k : Nat) : 256 ≤ 256 / wWidth k * wWidth k := by rw [wWidth_eq]; split_ifs <;> decide
theorem tWidth_pos (k : Nat) : 0 < tWidth k := by rw [tWidth]; split_ifs <;> decide
theorem tWidth_lanes (k : Nat) : 256 ≤ 256 / tWidth k * tWidth k := by rw [tWidth]; split_ifs <;> decide

/-- An integer form leaves its function of each lane (R383). -/
theorem ExeComputes.of_vInt {i : Instr} {h : Hdr} {w : Word} {o : RR} {wc : Nat} {g g' : Nat → Nat → Nat → Nat × Flags} {s : State}
    (hi : exec i s = vInt h w o wc g s) (hg : ∀ b x y, g b x y = g' b x y) :
    ExeComputes i h o.q o.lat { vs := [(o.a, o.la), (o.b, o.lb)], d := o.d } (fun e xs =>
      LaneRes s.me o.d e (wWidth wc) fun l => g' (8 * wWidth wc) (vLane (xs.getD 0 0) (wWidth wc) l) (vLane (xs.getD 1 0) (wWidth wc) l)) s := by
  unfold vInt srcAB at hi
  exact .of_vLaneOp hi fun e xs l => by rw [getD_map_vLane, getD_map_vLane, hg]

/-! ### Compares (R386) -/

/-- Lanes that a compare gives are a predicate bit by bit, with the flags of all lanes. -/
theorem predLanes_res (d : BitVec 6) {w n : Nat} (hw : 0 < w) (hn : 256 ≤ n * w) (g : Nat → Bool × Flags) :
    ∃ (x : Pred) (f : Flags), pOut d (predLanes w n g) = [.p d.toNat x, .flags f] ∧ (∀ j, j < 256 → x.getLsbD j = (g (j / w)).1) ∧
      ∀ b, f.getLsbD b = true ↔ ∃ l, l < n ∧ (g l).2.getLsbD b = true := by
  refine ⟨_, _, rfl, fun j hj => ?_, fun b => ?_⟩
  · have hl : j / w < n := (Nat.div_lt_iff_lt_mul hw).mpr (by omega)
    rw [predLanes, predOf_getLsbD hw _ hj]
    simp [hl]
  · rw [predLanes, foldl_or_bit]
    simp

/-- A compare leaves its function of each lane in a predicate. -/
theorem ExeComputes.of_compare {i : Instr} {h : Hdr} {w : Word} {o : RR} {b : Nat} {s : State} (g : Nat → Nat → Bool × Flags) (hb : 0 < b) (hn : 256 ≤ 256 / b * b)
    (hi : exec i s = exeOp h w o.q o.lat { vs := srcAB o }
      (fun _ xs => pOut o.d (predLanes b (256 / b) fun l => g (vLane (xs.getD 0 0) b l) (vLane (xs.getD 1 0) b l))) s) :
    ExeComputes i h o.q o.lat { vs := [(o.a, o.la), (o.b, o.lb)] } (fun _ xs fs => ∃ (x : Pred) (f : Flags), fs = [.p o.d.toNat x, .flags f] ∧
      (∀ j, j < 256 → x.getLsbD j = (g (vLane (xs.getD 0 0) b (j / b)) (vLane (xs.getD 1 0) b (j / b))).1) ∧
      ∀ k, f.getLsbD k = true ↔ ∃ l, l < 256 / b ∧ (g (vLane (xs.getD 0 0) b l) (vLane (xs.getD 1 0) b l)).2.getLsbD k = true) s :=
  .of_exeOp hi fun _ _ _ => predLanes_res _ hb hn _
theorem fcmp_eq (k : Nat) (a b : Val) : fcmp k a b =
    if a.isNan = true ∨ b.isNan = true then (decide (k = 1), if a.isSig = true ∨ b.isSig = true ∨ 2 ≤ k then 0x01 else 0) else (condOf k (cmpVal a b), 0) := by
  simp only [fcmp, Bool.or_eq_true, decide_eq_true_eq, flIf, flInvalid, or_assoc, beq_eq_decide]

/-- Settles O32: integer forms and dot products issue as `ExeComputes.of_vLaneOp` says of the lanes of their sources, and compares as `predLanes_res` says. -/
theorem vectorIntegers : Obligations.VectorIntegers := by
  unfold Obligations.VectorIntegers
  intro h o s uns sat width num low least most fit two form dot cmp cond
  have hnum : ∀ u b x, laneInt u b x = num u b x := laneInt_eq
  have hfit : ∀ b x, laneFit uns sat b x = fit b x := laneFit_eq uns sat
  have hcond : ∀ k x, condOf k x = cond k x := condOf_eq
  have hwidth : ∀ k, wWidth k = width k := wWidth_eq
  have hform : ∀ (fx : BitVec 2) (i : Instr) (w : Word) (g g' : Nat → Nat → Nat → Nat × Flags), exec i s = vInt h w o fx.toNat g s →
      (∀ b x y, g b x y = g' b x y) → form fx i g' := fun fx i w g g' hi hg => by
    simp only [form, ← hwidth]
    exact .of_vInt hi hg
  have hvw : ∀ fx : BitVec 5, (if fx.toNat / 8 = 0 then 4 else 2) = tWidth (fx.toNat / 8) := fun fx => by simp only [tWidth, beq_iff_eq]
  refine ⟨fun fx => ⟨?_, ?_, ?_, ?_, ?_, ?_, ?_, ?_⟩, ?_, ?_, fun fx => ?_, fun fx => ?_⟩
  · refine hform fx (.viadd h fx o) _ _ (fun b x y => fit b (num uns b x + num uns b y)) (.refl (execViadd h fx o s)) fun b x y => ?_
    show laneFit uns sat b (laneInt uns b x + laneInt uns b y) = _
    rw [hnum, hnum, hfit]
  · refine hform fx (.visub h fx o) _ _ (fun b x y => fit b (num uns b x - num uns b y)) (.refl (execVisub h fx o s)) fun b x y => ?_
    show laneFit uns sat b (laneInt uns b x - laneInt uns b y) = _
    rw [hnum, hnum, hfit]
  · refine hform fx (.vimul h fx o) _ _ (fun b x y => fit b (num uns b x * num uns b y)) (.refl (execVimul h fx o s)) fun b x y => ?_
    show laneFit uns sat b (laneInt uns b x * laneInt uns b y) = _
    rw [hnum, hnum, hfit]
  · exact hform fx (.vshl h fx o) _ _ _ (.refl (execVshl h fx o s)) fun b x y => rfl
  · refine hform fx (.vshr h fx o) _ _ (fun b x y => (low b (num uns b x / 2 ^ (y % b)), 0)) (.refl (execVshr h fx o s)) fun b x y => ?_
    rw [laneFit_wrap, ← hnum]
    rfl
  · exact hform fx (.vand h fx o) _ _ _ (.refl (execVand h fx o s)) fun b x y => rfl
  · exact hform fx (.vor h fx o) _ _ _ (.refl (execVor h fx o s)) fun b x y => rfl
  · exact hform fx (.vxor h fx o) _ _ _ (.refl (execVxor h fx o s)) fun b x y => rfl
  · exact .of_vLaneOp (.refl (execVdot4 h o s)) fun e xs l => by
      simp only [getD_map_vLane, laneFit_wrap, hnum]
      rfl
  · exact .of_vLaneOp (.refl (execVdot2 h o s)) fun e xs l => by
      simp only [getD_map_vLane, Nat.mul_zero, Nat.pow_zero, Nat.div_one, Nat.mul_one]
  · rw [hvw]
    have hf := ExeComputes.of_compare (b := tWidth (fx.toNat / 8)) (fun x y => fcmp (fx.toNat % 8) ((fmtOf (fx.toNat / 8)).decode x) ((fmtOf (fx.toNat / 8)).decode y))
      (tWidth_pos _) (tWidth_lanes _) (.refl (exec (.vcmp h fx o) s))
    simp only [fcmp_eq, hcond] at hf
    exact hf
  · simp only [← hwidth]
    have hf := ExeComputes.of_compare (fun x y => (condOf fx.toNat (laneInt uns (8 * wWidth (o.c.extractLsb' 4 2).toNat) x -
      laneInt uns (8 * wWidth (o.c.extractLsb' 4 2).toNat) y), 0)) (wWidth_pos _) (wWidth_lanes _) (.refl (exec (.vicmp h fx o) s))
    simp only [hnum, hcond] at hf
    exact hf

end Sys2Proof.Machine
end

section
/-! SUPPORT. Words of a ring engine that raise a fault of their own, and words that leave the engine changed in a way that names the state. -/

set_option Elab.async false

namespace Sys2Proof.Machine

section
variable {s : State} {eng : Eng} {h : Hdr} {guard : BitVec 4} {pops : List Nat} {bits : Nat} {extra : Word} {es : List (Nat × QEnt)} {c' : Core}

/-- A word that may issue comes to its own test, and behind it to its effect. -/
theorem engWord_reaches (m : EngMay s eng h guard pops bits extra es c') (w : Word) (chk : Word → Option Body)
    (body : Word → List QEnt → List OBit → Nat → State → Body) :
    engWord eng h w guard chk pops bits extra body s =
      (let e := s.engCrd eng h es bits extra
       let pos := (s.me.eng eng).ring.head
       let retire (s' : State) : State :=
         ((s'.ringNext s.cur eng).retireIss s.cur eng s.nextId).signal s.cur eng h.sig.toNat 1 e (s'.me.eng eng).before pos
       match chk e with
       | some (.fault code val) => .next (s.raise s.cur eng code val e true pos)
       | some (.wait s') => .next s'
       | some _ => .next s
       | none =>
         match body e (es.map (·.2)) ((s.me.boq eng).take bits) s.nextId (s.ringIssue eng e (waitPresent (s.me.waitVal h)) (s.me.waitIds (s.me.waitVal h)) es
             ((s.me.boq eng).take bits) (c'.dropBits eng bits)) with
         | .stall => .next s
         | .wait _ => .next s
         | .fault code val => .next (s.raise s.cur eng code val e true pos)
         | .done s' => if s'.me.fits then .next (retire s') else .next s
         | .quiet s' => if s'.me.fits then .next (s'.ringNext s.cur eng) else .next s
         | .after s' code val => if s'.me.fits then .next ((retire s').raise s.cur eng code val e false pos) else .next s) := by
  have hskip : ¬ 0 < (s.me.eng eng).skip := by have := m.here; omega
  have hmet : s.me.waitMet (s.me.waitVal h) = true := by
    unfold Core.waitMet
    rw [List.all_eq_true]
    intro x hx
    simpa using (mem_tokNeed _ x hx).trans (m.met x hx)
  have hval : (if h.wait == 0 then 0 else s.me.wset.get 0 h.wait.toNat) = s.me.waitVal h := rfl
  have hboq : (if eng == .acc then s.me.boqX else s.me.boqA) = s.me.boq eng := rfl
  have hdrop : (if bits == 0 then c' else if eng == .acc then { c' with boqX := (s.me.boq eng).drop bits } else { c' with boqA := (s.me.boq eng).drop bits })
      = c'.dropBits eng bits := by
    have hp := popAll_frame _ _ _ _ _ m.taken
    unfold Core.dropBits Core.boq
    by_cases hb : bits = 0
    · simp [hb]
    · cases eng <;> simp only [hb, beq_iff_eq, if_false, reduceCtorEq, if_true] <;> rw [hp]
  have hcrd : maxW (maxW (maxW (s.me.eng eng).elast (s.me.eng eng).crd)
      ((s.me.eng eng).ring.pushE.get 0 ((s.me.eng eng).ring.head.toNat % 2 ^ (s.me.eng eng).ring.size.toNat)))
      ((es.map (·.2.e) ++ ((s.me.boq eng).take bits).map (·.e)).foldl maxW (maxW (s.me.waitTag (s.me.waitVal h)) extra)) = s.engCrd eng h es bits extra := rfl
  unfold engWord
  simp only [hskip, if_false, m.on, Bool.false_eq_true, hval, m.legal, Bool.not_true, hmet, m.taken, hboq, Nat.not_lt.mpr m.avail, m.data, hdrop, hcrd,
    m.noStop, m.ungated, m.noWatch, Bool.or_false] <;> rfl
theorem engWord_raises (m : EngMay s eng h guard pops bits extra es c') (w : Word) (chk : Word → Option Body) {code : BitVec 8} {val : Word}
    (hchk : chk (s.engCrd eng h es bits extra) = some (.fault code val)) (body : Word → List QEnt → List OBit → Nat → State → Body) :
    engWord eng h w guard chk pops bits extra body s =
      .next (s.raise s.cur eng code val (s.engCrd eng h es bits extra) true (s.me.eng eng).ring.head) := by
  rw [engWord_reaches m w chk body]
  dsimp only
  rw [hchk]

end

/-- A word whose test finds a fault raises it (R148). -/
theorem EngRaises.of_test {i : Instr} {s : State} {eng : Eng} {h : Hdr} {guard : BitVec 4} {pops : List Nat} {bits : Nat} {extra : Word} {w : Word}
    {chk : Word → Option Body} {body : Word → List QEnt → List OBit → Nat → State → Body} {code : BitVec 8} {val : Word}
    (hi : exec i s = engWord eng h w guard chk pops bits extra body s)
    (hchk : ∀ es c', EngMay s eng h guard pops bits extra es c' → chk (s.engCrd eng h es bits extra) = some (.fault code val)) :
    EngRaises i eng h guard pops bits extra code val s :=
  fun es c' m => hi.trans (engWord_raises m w chk (hchk es c' m) body)
/-- A word whose body faults raises that fault, and nothing has happened. -/
theorem EngRaises.of_body {i : Instr} {s : State} {eng : Eng} {h : Hdr} {guard : BitVec 4} {pops : List Nat} {bits : Nat} {extra : Word} {w : Word}
    {chk : Word → Option Body} {body : Word → List QEnt → List OBit → Nat → State → Body} {code : BitVec 8} {val : Word}
    (hi : exec i s = engWord eng h w guard chk pops bits extra body s)
    (hchk : ∀ es c', EngMay s eng h guard pops bits extra es c' → chk (s.engCrd eng h es bits extra) = none)
    (hbody : ∀ es c' s1, EngMay s eng h guard pops bits extra es c' →
      body (s.engCrd eng h es bits extra) (es.map (·.2)) ((s.me.boq eng).take bits) s.nextId s1 = .fault code val) :
    EngRaises i eng h guard pops bits extra code val s := fun es c' m => by
  obtain ⟨ids, hgo⟩ := engWord_go m w chk (hchk es c' m) body
  rw [hi, hgo]
  simp only [hbody es c' _ m]

/-- What a word does to its engine may be said of the engine as it stood, but for ELAST, the issued words and what is ordered before later ones. -/
theorem EngRan.congr_post {s t : State} {eng : Eng} {hr : Hdr} {e : Word} {base : Core} {tx : List Nat} {post post' : EngSt → EngSt} {s0 : State}
    (r : EngRan s t eng hr e base tx post s0)
    (hp : ∀ y : EngSt, y = { s.me.eng eng with elast := e, iss := y.iss, before := y.before } → post y = post' y) :
    EngRan s t eng hr e base tx post' s0 := by
  obtain ⟨y, hy, ht⟩ := r.eng
  exact ⟨r.only, r.core, ⟨y, hy, hp y hy ▸ ht⟩, r.tokens⟩

/-! ### The loops and levels of an engine (R178, R375, R379) -/

theorem nestOk_iff (pos : BitVec 16) (len : Nat) (ls : List Loop) : nestOk pos len ls = true ↔
    (match ls with
      | [] => True
      | [l] => l.sloop = false ∧ l.stages = 1 ∧ l.epi = 0 ∧ (pos + 1 + BitVec.ofNat 16 len - l.start).toNat ≤ l.len
      | _ => False) := by
  match ls with
  | [] => simp [nestOk]
  | [l] => simp [nestOk, ptrDiff, and_assoc]
  | _ :: _ :: _ => simp [nestOk]
/-- The tests of a LOOP word. -/
theorem loopOk_iff (cw : List Nat) (x : EngSt) (o : RI) (lvl count : Nat) : loopOk cw x o lvl count = true ↔
    count ≤ 65535 ∧ (o.imm.extractLsb' 19 3).toNat < (o.imm.extractLsb' 16 3).toNat + 1 ∧ lvl ≤ 5 ∧
      (match x.loops with
        | [] => True
        | [l] => l.sloop = false ∧ l.stages = 1 ∧ l.epi = 0 ∧ (x.ring.head + 1 + BitVec.ofNat 16 (o.d.toNat + 1) - l.start).toNat ≤ l.len
        | _ => False) ∧
      (lvl = 0 ∨ lvlWidth cw lvl ≠ 0 ∧ lvlGet cw lvl x.crd + (count + (o.imm.extractLsb' 19 3).toNat) < 2 ^ lvlWidth cw lvl) := by
  rw [← nestOk_iff x.ring.head]
  simp only [loopOk, Bool.and_eq_true, Bool.or_eq_true, decide_eq_true_eq, beq_iff_eq, bne_iff_ne, ne_eq, and_assoc]
  rfl
/-- In its first iteration a loop's first stage alone runs. -/
theorem Loop.sp_first (l : Loop) (hs : l.sloop = false) (hk : l.k = 0) (hc : l.count ≠ 0) (hg : l.stages ≠ 0) : l.sp = 1 := by
  have hfilter : (List.range l.stages).filter (fun j => decide (j ≤ l.k) && decide (l.k < l.count + j)) = [0] := by
    obtain ⟨n, hn⟩ := Nat.exists_eq_succ_of_ne_zero hg
    rw [hn, List.range_succ_eq_map, List.filter_cons, hk]
    have hpos : 0 < l.count := Nat.pos_of_ne_zero hc
    simp [hpos]
  simp [Loop.sp, hs, hfilter]
theorem startLoop_zero (cw : List Nat) (o : RI) (lvl : Nat) (x : EngSt) :
    startLoop cw o lvl 0 x = { x with ring := { x.ring with head := x.ring.head + BitVec.ofNat 16 (o.d.toNat + 1) } } := rfl
/-- A loop that starts runs its first stage, its level bound from its present value. -/
theorem startLoop_pos (cw : List Nat) (o : RI) (lvl : Nat) {count : Nat} (hc : count ≠ 0) (x : EngSt) :
    startLoop cw o lvl count x = { x with
      sp := 1, crd := if lvl = 0 then x.crd else lvlSet cw lvl x.crd (lvlGet cw lvl x.crd)
      loops := { start := x.ring.head + 1, len := o.d.toNat + 1, lvl := lvl, lvl0 := lvlGet cw lvl x.crd, count := count,
                 stages := (o.imm.extractLsb' 16 3).toNat + 1, epi := (o.imm.extractLsb' 19 3).toNat } :: x.loops } := by
  rw [startLoop, if_neg (by simpa using hc)]
  dsimp only
  rw [Loop.sp_first _ rfl rfl hc (Nat.succ_ne_zero _)]
  simp only [Loop.crdAt, beq_iff_eq, Nat.add_zero]
  rfl
theorem lvlOk_iff (cw : List Nat) (l v : Nat) : lvlOk cw l v = true ↔ l ≤ 5 ∧ lvlWidth cw l ≠ 0 ∧ v < 2 ^ lvlWidth cw l := by
  simp only [lvlOk, Bool.and_eq_true, decide_eq_true_eq, bne_iff_ne, ne_eq, and_assoc]
theorem EngSt.skipRoom_eq (x : EngSt) : x.skipRoom =
    (let left := (x.ring.tail - (x.ring.head + 1)).toNat
     match x.loops with | [] => left | l :: _ => min left (l.start + BitVec.ofNat 16 l.len - (x.ring.head + 1)).toNat) := rfl

end Sys2Proof.Machine
end

section
/-! PROOFS of the VectorMovesControl statement (O34): moves and predicates, the deferral queue, loops, outcome bits and levels of the execute sequencer. -/

set_option Elab.async false

namespace Sys2Proof.Machine

/-! ### Moves and predicates (R390, R391) -/

section
variable {i : Instr} {h : Hdr} {w : Word} {o : RR} {s : State}

/-- A move leaves the lanes that its function names. -/
theorem ExeComputes.of_vMove {vs : List (BitVec 6 × Bool)} {wc : Nat} {g : Nat → List Vec → Nat → Nat × Nat} {g' : List Vec → Nat → Nat}
    (hi : exec i s = vMove h w o vs wc g s)
    (hg : ∀ xs l, vLane (xs.getD (g (256 / wWidth wc) xs l).1 0) (wWidth wc) (g (256 / wWidth wc) xs l).2 = g' xs l) :
    ExeComputes i h o.q o.lat { vs := vs, d := o.d } (fun e xs => LaneOut s.me o.d e (wWidth wc) (g' xs)) s := by
  unfold vMove at hi
  refine .of_exeOp hi fun e xs _ => ?_
  simp only [hg]
  exact ofLanes_out ..
/-- A constant form leaves its function of the lane number. -/
theorem ExeComputes.of_vConst {q lat : BitVec 4} {d : BitVec 6} {g : Nat → Nat} (hi : exec i s = vConst h w q lat d g s) :
    ExeComputes i h q lat { d := d } (fun e _ => LaneOut s.me d e 4 g) s :=
  .of_exeOp hi fun _ _ _ => ofLanes_out ..
/-- A predicate form leaves its predicate bit by bit. -/
theorem ExeComputes.of_pOp {ps : List (BitVec 6)} {x : Pred} {g : Nat → Bool} (hi : exec i s = pOp h w o ps x s) (hg : ∀ j, j < 256 → x.getLsbD j = g j) :
    ExeComputes i h o.q o.lat { ps := ps } (fun _ _ => PredRes o.d 1 g) s :=
  .of_exeOp hi fun _ _ _ => ⟨x, rfl, fun j hj => by rw [hg j hj, Nat.div_one]⟩
/-- A number of a predicate stands in every lane. -/
theorem ExeComputes.of_pNum {g : Pred → Nat} {v : Nat → Prop} (hi : exec i s = pNum h w o g s) (hv : v (g (s.rdP o.a))) :
    ExeComputes i h o.q o.lat { ps := [o.a], d := o.d } (fun e _ fs => ∃ n, v n ∧ LaneOut s.me o.d e 4 (fun _ => n) fs) s :=
  .of_exeOp hi fun e _ _ => ⟨_, hv, ofLanes_replicate_out s.me o.d e 4 _⟩

end

/-- The first number below 256 at which a test holds, 256 if there is none. -/
theorem find?_range_getD (p : Nat → Bool) :
    (((List.range 256).find? p).getD 256 < 256 ∧ p (((List.range 256).find? p).getD 256) = true ∨ ((List.range 256).find? p).getD 256 = 256) ∧
      ∀ j, j < ((List.range 256).find? p).getD 256 → p j = false := by
  rcases hf : (List.range 256).find? p with _ | n
  · exact ⟨.inr rfl, fun j hj => by simpa using List.find?_range_eq_none.mp hf j hj⟩
  · obtain ⟨hn, hmem, hlow⟩ := List.find?_range_eq_some.mp hf
    exact ⟨.inl ⟨List.mem_range.mp hmem, hn⟩, fun j hj => by simpa using hlow j hj⟩

/-! ### Words that also change the engine (R375, R377, R379) -/

section
variable {i : Instr} {h : Hdr} {w : Word} {guard lat : BitVec 4} {o : ExeOps} {bits : Nat} {extra : Word} {test : Word → Option Body}
  {f : Word → List Vec → List ExeEff} {post : List OBit → State → State} {s : State}

/-- A word whose test passes issues, with its effects and what it does to the engine. -/
theorem ExeIssues.of_exeWord {pf pf' : List OBit → EngSt → EngSt} {P : Word → List Vec → List ExeEff → Prop}
    (hi : exec i s = exeWord h w guard lat o bits extra test f post s) (ht : ∀ e, test e = none)
    (hp : ∀ bs u, u.cur = s.cur → (u.core s.cur).cw = s.me.cw → CoreOnly u (post bs u) s.cur ∧
      (post bs u).core s.cur = { u.core s.cur with exe := pf bs (u.core s.cur).exe })
    (hpf : bits ≤ s.me.boqA.length → ∀ y e, y = { s.me.exe with elast := e, iss := y.iss, before := y.before } → pf (s.me.boqA.take bits) y = pf' (s.me.boqA.take bits) y)
    (hP : ∀ e xs, xs.length = o.vs.length → P e xs (f e xs)) : ExeIssues i h guard lat o bits extra pf' P s := by
  intro es c' m r
  obtain ⟨t, x, base, hx, heff, hcore, hran⟩ := exeWord_ran m r w test (ht _) f post pf hp
  exact ⟨t, x, base, hi.trans hx, heff ▸ hP _ _ (by rw [exeVals_length, List.length_map]), hcore, hran.congr_post fun y hy => hpf m.avail y _ hy⟩
/-- A word whose test finds a fault raises it, once its operands are ready. -/
theorem EngRaises.of_exeWord {code : BitVec 8} {val : Word} (hi : exec i s = exeWord h w guard lat o bits extra test f post s)
    (ht : ∀ e, test e = some (.fault code val)) (hr : ExeReady s o) :
    EngRaises i .exe h guard (exePops (o.vs.map (·.1))) bits extra code val s := by
  unfold exeWord at hi
  exact .of_test hi fun es c' _ => (hr.chk w (test _)).trans (ht _)

end

theorem State.modExe_core (u : State) (n : Nat) (f : List Nat → EngSt → EngSt) (hn : u.cur = n) :
    CoreOnly u (u.modExe f) n ∧ (u.modExe f).core n = { u.core n with exe := f (u.core n).cw (u.core n).exe } := by
  subst hn
  exact ⟨.modCore .., u.core_modCore_self ..⟩

/-- A form without operands is ready. -/
theorem ExeReady.empty (s : State) : ExeReady s {} where
  landed := by simp [ExeOps.keys]
  aliveV := by simp
  aliveQ := by simp
  room := rfl

theorem loopExe_word (h : Hdr) (fx : BitVec 3) (o : RI) : (Instr.loopExe h fx o).word = packRI h 0x50 (fx.setWidth 3) o := by
  show packRI h 0x50 ((0 : BitVec 3) ||| (fx.setWidth 3 <<< 0)) o = _
  simp only [BitVec.shiftLeft_zero, BitVec.ofNat_eq_ofNat, BitVec.zero_or]
/-- LOOP on EXE (R375). -/
theorem loopExe_issues (h : Hdr) (fx : BitVec 3) (o : RI) (s : State) :
     let reg := o.imm.getLsbD 22
     let count := if reg then vLane (s.peekV o.a) 4 0 else (o.imm.extractLsb' 0 16).toNat
     let ops : ExeOps := { vs := if reg then [(o.a, o.la)] else [] }
     (loopOk s.me.cw s.me.exe o fx.toNat count = true → (count = 0 → o.d.toNat + 1 < (s.me.exe.ring.tail - s.me.exe.ring.head).toNat) →
       ExeIssues (.loopExe h fx o) h 0 0 ops 0 0 (fun _ y => if count = 0 then { y with ring := { y.ring with head := y.ring.head + BitVec.ofNat 16 (o.d.toNat + 1) } } else
           { y with sp := 1, crd := if fx.toNat = 0 then y.crd else lvlSet s.me.cw fx.toNat y.crd (lvlGet s.me.cw fx.toNat s.me.exe.crd)
                    loops := { start := y.ring.head + 1, len := o.d.toNat + 1, lvl := fx.toNat, lvl0 := lvlGet s.me.cw fx.toNat s.me.exe.crd, count := count,
                               stages := (o.imm.extractLsb' 16 3).toNat + 1, epi := (o.imm.extractLsb' 19 3).toNat } :: y.loops })
         (fun _ _ fs => fs = []) s) ∧
     (loopOk s.me.cw s.me.exe o fx.toNat count = false → ExeReady s ops →
       EngRaises (.loopExe h fx o) .exe h 0 (exePops (ops.vs.map (·.1))) 0 0 0x01 (Instr.loopExe h fx o).word s) := by
  intro reg count ops
  have hi : exec (.loopExe h fx o) s = exeWord h (Instr.loopExe h fx o).word 0 0 ops 0 0
    (fun _ => if loopOk s.me.cw s.me.exe o fx.toNat count then stallUnless (count != 0 || s.me.exe.bodyIn (o.d.toNat + 1)) else
      some (.fault fIllegal (Instr.loopExe h fx o).word))
    (fun _ _ => []) (fun _ s' => s'.modExe fun cw x => startLoop cw o fx.toNat count x) s := by
    rw [loopExe_word]
    exact .refl (execLoopExe h fx o s)
  refine ⟨fun hok hbody => ?_, fun hbad hr => ?_⟩
  rotate_left
  · refine EngRaises.of_exeWord hi (fun _ => ?_) hr
    rw [if_neg (Bool.eq_false_iff.mp hbad)]
    rfl
  refine .of_exeWord (pf := fun _ x => startLoop s.me.cw o fx.toNat count x) hi (fun _ => ?_) (fun _ u hu hcw => ?_) (fun _ y e hy => ?_) fun _ _ _ => rfl
  · rw [if_pos hok, stallUnless, if_pos]
    rw [Bool.or_eq_true, bne_iff_ne, EngSt.bodyIn, decide_eq_true_eq]
    by_cases hz : count = 0
    · exact .inr (hbody hz)
    · exact .inl hz
  · obtain ⟨ho, hc⟩ := u.modExe_core s.cur (fun cw x => startLoop cw o fx.toNat count x) hu
    exact ⟨ho, by rw [hc, hcw]⟩
  · have hcrd : y.crd = s.me.exe.crd := by rw [hy]
    by_cases hz : count = 0
    · rw [if_pos hz, hz, startLoop_zero]
    · rw [if_neg hz, startLoop_pos _ _ _ hz, hcrd]

/-- SETCL and INCCL on EXE (R379). -/
theorem exeLevel_issues {j : Instr} {h : Hdr} {o : RRI} {s : State} {f : Nat → Nat → Nat} (hj : exec j s = exeLevel h j.word o f s) (v : Nat)
    (hv : v = f (lvlGet s.me.cw (rriLvl o) s.me.exe.crd) ((if o.d = 1 then vLane (s.peekV o.a) 4 0 else 0) + (o.imm.extractLsb' 3 11).toNat)) :
     let lvl := (o.imm.extractLsb' 0 3).toNat
     let ops : ExeOps := { vs := if o.d = 1 then [(o.a, o.la)] else [] }
     let ok := lvl ≤ 5 ∧ lvlWidth s.me.cw lvl ≠ 0 ∧ v < 2 ^ lvlWidth s.me.cw lvl
     (ok → ExeIssues j h o.q o.lat ops 0 0 (fun _ y => { y with crd := lvlSet s.me.cw lvl y.crd v }) (fun _ _ fs => fs = []) s) ∧
     (¬ok → ExeReady s ops → EngRaises j .exe h o.q (exePops (ops.vs.map (·.1))) 0 0 0x01 j.word s) := by
  intro lvl ops ok
  have hi : exec j s = exeWord h j.word o.q o.lat ops 0 0 (fun _ => if lvlOk s.me.cw lvl v then none else some (.fault fIllegal j.word)) (fun _ _ => [])
      (fun _ s' => s'.modExe fun cw x => { x with crd := lvlSet cw lvl x.crd v }) s := by
    rw [hj, hv]
    unfold exeLevel
    simp only [beq_iff_eq]
    rfl
  refine ⟨fun hok => ?_, fun hbad hr => ?_⟩
  · refine .of_exeWord (pf := fun _ x => { x with crd := lvlSet s.me.cw lvl x.crd v }) hi (fun _ => if_pos ((lvlOk_iff ..).mpr hok)) (fun _ u hu hcw => ?_)
      (fun _ _ _ _ => rfl) fun _ _ _ => rfl
    obtain ⟨ho, hc⟩ := u.modExe_core s.cur (fun cw x => { x with crd := lvlSet cw lvl x.crd v }) hu
    exact ⟨ho, by rw [hc, hcw]⟩
  · exact .of_exeWord hi (fun _ => if_neg fun hl => hbad ((lvlOk_iff ..).mp hl)) hr

/-- BSKIP on EXE (R377). -/
theorem bskipExe_issues (h : Hdr) (o : RRI) (s : State) :
     let one := (s.me.boqA.head?.map (·.bit)).getD false
     (one = false ∨ o.imm.toNat ≤ s.me.exe.skipRoom →
       ExeIssues (.bskipExe h o) h o.q o.lat {} 1 0 (fun _ y => if one = true then { y with skip := o.imm.toNat } else y) (fun _ _ fs => fs = []) s) ∧
     (one = true → s.me.exe.skipRoom < o.imm.toNat → EngRaises (.bskipExe h o) .exe h o.q [] 1 0 0x01 (Instr.bskipExe h o).word s) := by
  intro one
  have hi : exec (.bskipExe h o) s = exeWord h (Instr.bskipExe h o).word o.q o.lat {} 1 0
    (fun _ => if one && s.me.exe.skipRoom < o.imm.toNat then some (.fault fIllegal (Instr.bskipExe h o).word) else none) (fun _ _ => [])
    (fun bs s' => if (bs.head?.map (·.bit)).getD false then s'.modExe fun _ x => { x with skip := o.imm.toNat } else s') s := .refl (execBskipExe h o s)
  refine ⟨fun hok => ?_, fun hone hroom => ?_⟩
  · refine .of_exeWord (pf := fun bs x => if (bs.head?.map (·.bit)).getD false = true then { x with skip := o.imm.toNat } else x) hi (fun _ => if_neg ?_)
      (fun bs u hu _ => ?_) (fun hb y _ _ => ?_) fun _ _ _ => rfl
    · rw [Bool.and_eq_true, decide_eq_true_eq]
      rintro ⟨hone, hlt⟩
      rcases hok with hz | hle
      · rw [hz] at hone; cases hone
      · omega
    · obtain ⟨ho, hc⟩ := u.modExe_core s.cur (fun _ x => { x with skip := o.imm.toNat }) hu
      split
      · exact ⟨ho, hc⟩
      · exact ⟨.refl .., rfl⟩
    · have htake : (s.me.boqA.take 1).head? = s.me.boqA.head? := by cases s.me.boqA <;> rfl
      show (if ((s.me.boqA.take 1).head?.map (·.bit)).getD false = true then { y with skip := o.imm.toNat } else y) = _
      rw [htake]
  · exact .of_exeWord hi (fun _ => if_pos (by rw [hone, Bool.true_and, decide_eq_true_eq]; exact hroom)) (.empty s)

/-! ### The deferral queue (R180, R392, R393) -/

/-- Marking granules pending changes the pending bits of its core alone, and without DEBUG.PENDTRAP nothing. -/
theorem State.setPend_core (u : State) (n a len v : Nat) : CoreOnly u (u.setPend n a len v) n ∧
    ∃ m, (u.setPend n a len v).core n = { u.core n with pendBits := m } ∧ ((u.core n).dbgReg.getLsbD 0 = false → m = (u.core n).pendBits) := by
  unfold State.setPend
  split
  · exact ⟨.refl .., _, rfl, fun _ => rfl⟩
  · rename_i hd
    exact ⟨.modCore .., _, u.core_modCore_self .., fun hz => absurd (by rw [hz]; rfl) hd⟩
theorem State.setPends_core (u : State) (at_ : Nat → Nat) (v : Nat) (ks : List Nat) :
    CoreOnly u (ks.foldl (fun u k => u.setPend u.cur (at_ k) 32 (u.cycle + v)) u) u.cur ∧
      ∃ m, (ks.foldl (fun u k => u.setPend u.cur (at_ k) 32 (u.cycle + v)) u).core u.cur = { u.core u.cur with pendBits := m } ∧
        ((u.core u.cur).dbgReg.getLsbD 0 = false → m = (u.core u.cur).pendBits) := by
  induction ks generalizing u with
  | nil => exact ⟨.refl .., _, rfl, fun _ => rfl⟩
  | cons k ks ih =>
    obtain ⟨ho, m, hm, hz⟩ := u.setPend_core u.cur (at_ k) 32 (u.cycle + v)
    obtain ⟨ho', m', hm', hz'⟩ := ih (u.setPend u.cur (at_ k) 32 (u.cycle + v))
    rw [ho.cur] at ho' hm' hz'
    exact ⟨ho.trans ho', m', by rw [List.foldl_cons, hm', hm], fun hd => by rw [hz' (by rw [hm]; exact hd), hm, hz hd]⟩
theorem State.deferPend_core (u : State) (lat : BitVec 4) : CoreOnly u (u.deferPend lat) u.cur ∧
    ∃ m, (u.deferPend lat).core u.cur = { u.core u.cur with pendBits := m } ∧ ((u.core u.cur).dbgReg.getLsbD 0 = false → m = (u.core u.cur).pendBits) := by
  unfold State.deferPend
  dsimp only
  split
  · exact u.setPends_core _ _ _
  · exact ⟨.refl .., _, rfl, fun _ => rfl⟩

theorem findSome?_range_first {α : Type} (f : Nat → Option α) {n j : Nat} {a : α} (hj : j < n) (ha : f j = some a) (hlow : ∀ k, k < j → f k = none) :
    (List.range n).findSome? f = some a := by
  induction n with
  | zero => cases hj
  | succ n ih =>
    rw [List.range_succ, List.findSome?_append]
    rcases Nat.lt_succ_iff_lt_or_eq.mp hj with hlt | rfl
    · rw [ih hlt]; rfl
    · rw [List.findSome?_eq_none_iff.mpr fun k hk => hlow k (List.mem_range.mp hk)]
      simp [ha]

/-- Word `j` of each record, and the lane of each record, as the vectors that a drain leaves (R393). -/
def drainWords (rs : List DefRec) (j : Nat) : Vec := ofLanes 4 (rs.map fun r => if j < r.nv.toNat then (r.v.extractLsb' (32 * j) 32).toNat else 0)
def drainLanes (rs : List DefRec) : Vec := ofLanes 4 (rs.map fun r => r.lane.toNat)
/-- The vectors of a drain with `nv` words, in the order of their registers. -/
def drainVecs (rs : List DefRec) (nv j : Nat) : Vec := if j < nv then drainWords rs j else drainLanes rs

theorem vLane_ofLanes_map {n : Nat} (hn : n ≤ 64) (r : Nat → DefRec) {g : DefRec → Nat} (hg : ∀ r, g r < 2 ^ (8 * 4)) (l : Nat) :
    vLane (ofLanes 4 (((List.range n).map r).map g)) 4 l = if l < n then g (r l) else 0 := by
  rw [ofLanes_lane _ _ _ (by simp only [List.length_map, List.length_range]; omega)]
  by_cases hl : l < n
  · simpa [hl] using hg (r l)
  · simp [hl]
theorem drainVecs_flatMap (c : Core) (e : Word) (d : BitVec 6) (rs : List DefRec) (nv : Nat) :
    ((List.range (nv + 1)).flatMap fun j => c.outV (d + BitVec.ofNat 6 j) e (drainVecs rs nv j)) =
      ((List.range nv).flatMap fun j => c.outV (d + BitVec.ofNat 6 j) e (drainWords rs j)) ++ c.outV (d + BitVec.ofNat 6 nv) e (drainLanes rs) := by
  rw [List.range_succ, List.flatMap_append, List.flatMap_singleton, drainVecs, if_neg (Nat.lt_irrefl nv)]
  congr 1
  exact List.flatMap_congr fun j hj => by rw [drainVecs, if_pos (List.mem_range.mp hj)]
/-- What a drain of `n` records leaves, lane by lane. -/
theorem drainVecs_res {n : Nat} (nv : Nat) (hn : n ≤ 64) (r : Nat → DefRec) :
    (∀ j l, j < nv → l < 64 → vLane (drainVecs ((List.range n).map r) nv j) 4 l =
        if l < n ∧ j < (r l).nv.toNat then ((r l).v.extractLsb' (32 * j) 32).toNat else 0) ∧
      (∀ l, l < 64 → vLane (drainVecs ((List.range n).map r) nv nv) 4 l = if l < n then (r l).lane.toNat else 0) ∧
      ∀ j, j < 256 → (predOf 4 (List.replicate n true)).getLsbD j = decide (j / 4 < n) := by
  refine ⟨fun j l hj hl => ?_, fun l hl => ?_, fun j hj => (predOf_getLsbD (w := 4) (by decide) _ hj).trans ?_⟩
  · rw [drainVecs, if_pos hj, drainWords, vLane_ofLanes_map hn r fun r => ?_]
    · by_cases hl : l < n <;> simp [hl]
    · split
      · exact BitVec.isLt _
      · decide
  · rw [drainVecs, if_neg (Nat.lt_irrefl nv), drainLanes, vLane_ofLanes_map hn r fun r => r.lane.isLt.trans (by decide)]
  · by_cases hl : j / 4 < n <;> simp [hl]

/-- DRAIN and DRAINF (R393). -/
theorem vDrain_issues {i : Instr} {h : Hdr} {o : RR} {s : State} {k : Nat → Nat} (hi : exec i s = vDrain h i.word o k s)
    (hk : k (s.me.defTail - s.me.defHead) ≤ 64) :
       let n := k (s.me.defTail - s.me.defHead)
       let nv := o.a.toNat + 1
       let r (j : Nat) : DefRec := DefRec.ofBits (bitsOf 256 (s.me.spadBytes (s.me.defBase.getD 0 + 32 * ((s.me.defHead + j) % 1024)) 32))
       let newest := ((List.range n).map fun j => (r j).crd).foldl maxW 0
       let pend (j : Nat) : Option Nat := s.me.pendingAt s.cycle (s.me.defBase.getD 0 + 32 * ((s.me.defHead + j) % 1024)) 32
       (s.me.defBase = none → EngRaises i .exe h o.q [] 0 newest 0x01 i.word s) ∧
       (s.me.defBase ≠ none → s.me.defPending = false → ∀ j g, j < n → pend j = some g → (∀ k, k < j → pend k = none) →
         EngRaises i .exe h o.q [] 0 newest 0x06 (BitVec.ofNat 64 g) s) ∧
       (s.me.defBase ≠ none → s.me.defPending = false → (∀ j, j < n → pend j = none) → ExeIssues i h o.q o.lat {} 0 newest (fun _ y => y) (fun e _ fs =>
         ∃ (x : Nat → Vec) (p : Pred), fs = ((List.range (nv + 1)).flatMap fun j => s.me.outV (o.d + BitVec.ofNat 6 j) e (x j)) ++ [.p o.b.toNat p, .deferHead n] ∧
           (∀ j l, j < nv → l < 64 → vLane (x j) 4 l = if l < n ∧ j < (r l).nv.toNat then ((r l).v.extractLsb' (32 * j) 32).toNat else 0) ∧
           (∀ l, l < 64 → vLane (x nv) 4 l = if l < n then (r l).lane.toNat else 0) ∧ ∀ j, j < 256 → p.getLsbD j = decide (j / 4 < n)) s) := by
  intro n nv r newest pend
  have hrecs : s.me.defRecs (s.me.defBase.getD 0) n = (List.range n).map r := rfl
  have hnew : (s.me.defRecs (s.me.defBase.getD 0) n).foldl (fun m r => maxW m r.crd) 0 = newest := by
    rw [hrecs, List.foldl_map]
    exact (List.foldl_map ..).symm
  have hi' : exec i s = exeWord h i.word o.q o.lat {} 0 newest
    (fun _ => match s.me.defBase with
      | none => some (.fault fIllegal i.word)
      | some b => orTest (stallUnless (!s.me.defPending))
          (((List.range n).findSome? fun i => s.me.pendingAt s.cycle (defAddr b (s.me.defHead + i)) 32).map fun g => .fault fSpadPending (BitVec.ofNat 64 g)))
    (fun e _ =>
      ((List.range nv).flatMap fun j => s.me.outV (o.d + BitVec.ofNat 6 j) e (ofLanes 4 (((List.range n).map r).map fun r =>
          if j < r.nv.toNat then (r.v.extractLsb' (32 * j) 32).toNat else 0)))
        ++ s.me.outV (o.d + BitVec.ofNat 6 nv) e (ofLanes 4 (((List.range n).map r).map fun r => r.lane.toNat))
        ++ [.p o.b.toNat (predOf 4 (List.replicate n true)), .deferHead n])
    (fun _ s => s) s := by
    rw [hi, ← hnew]
    rfl
  refine ⟨fun hb => ?_, fun hb hp j g hj hg hlow => ?_, fun hb hp hnone => ?_⟩
  · refine EngRaises.of_exeWord hi' (fun _ => ?_) (.empty s)
    rw [hb]
    rfl
  · obtain ⟨b, hb⟩ := Option.ne_none_iff_exists'.mp hb
    refine EngRaises.of_exeWord hi' (fun _ => ?_) (.empty s)
    have hfirst : (List.range n).findSome? (fun i => s.me.pendingAt s.cycle (defAddr b (s.me.defHead + i)) 32) = some g := by
      refine findSome?_range_first _ hj ?_ fun k hkj => ?_
      · rw [← hg]; simp only [pend, hb]; rfl
      · rw [← hlow k hkj]; simp only [pend, hb]; rfl
    simp only [hb, hp, hfirst]
    rfl
  · obtain ⟨b, hb⟩ := Option.ne_none_iff_exists'.mp hb
    refine .of_exeWord (pf := fun _ y => y) hi' (fun _ => ?_) (fun _ u _ _ => ⟨.refl .., rfl⟩) (fun _ _ _ _ => rfl) fun e xs _ => ?_
    · have hfree : (List.range n).findSome? (fun i => s.me.pendingAt s.cycle (defAddr b (s.me.defHead + i)) 32) = none := by
        rw [List.findSome?_eq_none_iff]
        intro j hj
        rw [← hnone j (List.mem_range.mp hj)]; simp only [pend, hb]; rfl
      simp only [hb, hp, hfree]
      rfl
    · exact ⟨drainVecs ((List.range n).map r) nv, _, by rw [drainVecs_flatMap]; rfl, drainVecs_res nv hk r⟩

theorem CoreOnly.symm {s t : State} {n : Nat} (a : CoreOnly s t n) : CoreOnly t s n :=
  ⟨by rw [a.1], fun k hk => (a.2 k hk).symm⟩

/-- An EXE word that also marks granules pending issues as one that does not (R187). -/
theorem exeWord_marks {s : State} {h : Hdr} {guard lat : BitVec 4} {o : ExeOps} {es : List (Nat × QEnt)} {c' : Core}
    (m : EngMay s .exe h guard (exePops (o.vs.map (·.1))) 0 0 es c') (r : ExeReady s o) (w : Word) (test : Word → Option Body)
    (ht : ∀ e, test e = none) (f : Word → List Vec → List ExeEff) (hf : ∀ e xs, ∃ rs, .defer rs ∈ f e xs) (post : State → State)
    (hp : ∀ u, CoreOnly u (post u) u.cur ∧ ∃ p, (post u).core u.cur = { u.core u.cur with pendBits := p } ∧
      ((u.core u.cur).dbgReg.getLsbD 0 = false → p = (u.core u.cur).pendBits)) :
    ∃ t x base, exeWord h w guard lat o 0 0 test f (fun _ => post) s = .next t ∧
      x.effs = f (s.engCrd .exe h es 0 0) (exeVals s (o.vs.map (·.1)) (es.map (·.2))) ∧
      ExeCore s (c'.dropBits .exe 0) base h (s.engCrd .exe h es 0 0) lat o x ∧
      EngRan s t .exe { h with sig := 0 } (s.engCrd .exe h es 0 0) base [] (fun y => y) s := by
  obtain ⟨t0, x, base, h0, hx, hcore, hran⟩ := exeWord_ran (lat := lat) m r w test (ht _) f (fun _ u => u) (fun _ y => y) fun _ u _ _ => ⟨.refl .., rfl⟩
  have hchk := r.chk w (test (s.engCrd .exe h es 0 0))
  rw [ht] at hchk
  have go := fun body => engWord_reaches m w (fun e => orTest (s.chkV w (o.vs.map (·.1))) (orTest (s.chkP w o.ps) (orTest (s.chkQ w (o.qs.map (·.1)))
    (orTest (test e) (stallUnless (s.me.exeRoom o.d)))))) body
  unfold exeWord at h0 ⊢
  dsimp only at h0 ⊢
  rw [go] at h0 ⊢
  dsimp only at h0 ⊢
  rw [ht, hchk] at h0 ⊢
  dsimp only at h0 ⊢
  generalize State.exePut _ _ _ _ _ _ _ _ = u at h0 ⊢
  have hdbg0 : (c'.dropBits .exe 0).dbgReg = s.me.dbgReg := by rw [c'.dropBits_frame, popAll_frame _ _ _ _ _ m.taken]
  by_cases hfit : u.me.fits = true
  · rw [if_pos hfit] at h0
    cases h0
    obtain ⟨ho, p, hpc, hz⟩ := hp u
    have hcur : u.cur = s.cur := ((CoreOnly.modCore ..).cur.symm).trans hran.only.cur
    rw [hcur] at ho hpc hz
    have hnext : (u.ringNext s.cur .exe).core s.cur = (u.core s.cur).modEng .exe fun y => EngSt.next (u.core s.cur).cw y := u.core_modCore_self ..
    have hmarked : ((post u).ringNext s.cur .exe).core s.cur = { (u.ringNext s.cur .exe).core s.cur with pendBits := p } := by
      rw [hnext, State.ringNext, State.core_modCore_self, hpc]
      rfl
    have hsame : (post u).me.fits = true := by
      rw [← hfit, State.me, ho.cur, hcur, hpc, State.me, hcur]
      rfl
    have hdbg : (u.core s.cur).dbgReg = s.me.dbgReg ∧ (u.core s.cur).pendBits = base.pendBits := by
      have hc := hran.core
      rw [hnext] at hc
      have hd := congrArg Core.dbgReg hc
      have hb := congrArg Core.pendBits hc
      refine ⟨hd.trans ?_, hb⟩
      show base.dbgReg = _
      rw [hcore.frame, ← hdbg0]
    refine ⟨(post u).ringNext s.cur .exe, x, { base with pendBits := p }, by rw [if_pos hsame], hx,
      { crd := hcore.crd, sig := hcore.sig, slot := hcore.slot, avail := hcore.avail, fault := hcore.fault, queue := hcore.queue, bound := hcore.bound,
        freedV := hcore.freedV, freedQ := hcore.freedQ, pend := ?_, frame := ?_ },
      { only := (hran.only.trans (CoreOnly.modCore ..).symm).trans (ho.trans (.modCore ..)), core := ?_, eng := ?_, tokens := ?_ }⟩
    · rintro (hd | hno)
      · rw [← hcore.pend (.inl hd)]
        exact (hz (by rw [hdbg.1]; exact hd)).trans hdbg.2
      · obtain ⟨rs, hrs⟩ := hf (s.engCrd .exe h es 0 0) (exeVals s (o.vs.map (·.1)) (es.map (·.2)))
        exact absurd (hx ▸ hrs) (hno rs)
    · exact congrArg (fun c : Core => { c with pendBits := p }) hcore.frame
    · rw [hmarked]
      exact congrArg (fun c : Core => { c with pendBits := p }) hran.core
    · rw [hmarked]
      exact hran.eng
    · rw [hmarked]
      exact ⟨hran.tokens.others, hran.tokens.counts⟩
  · rw [if_neg hfit] at h0
    cases h0
    have hq := congrArg Core.exeQ hran.core
    have hlen : s.me.exeQ.length = (s.me.exeQ ++ [x]).length := congrArg List.length (Eq.trans (b := base.exeQ) hq hcore.queue)
    simp at hlen

/-- The residency flags of an entry stand one per element, which is a byte at least. -/
theorem flagWidth (f : BitVec 5) : 0 < (if f = 5 then 1 else fmtBytes f.toNat) ∧
    256 ≤ 256 / (if f = 5 then 1 else fmtBytes f.toNat) * (if f = 5 then 1 else fmtBytes f.toNat) := by
  revert f
  decide

/-- Settles O34: moves and predicates issue as `ExeComputes.of_exeOp` says, drains as `vDrain_issues`, and the words that change the engine as `ExeIssues.of_exeWord`. -/
theorem vectorMovesControl : Obligations.VectorMovesControl := by
  unfold Obligations.VectorMovesControl
  refine ⟨⟨?moves, fun h o s => .of_vConst (.refl (execVmovi h o s))⟩, ?queue, fun h fx o s => ?loop, fun h o s => ?levels⟩
  case moves =>
    intro h o s one two move pred number pa pb
    have hw : ∀ fx : BitVec 2, wWidth fx.toNat = if fx = 0 then 4 else if fx = 1 then 2 else 1 := by decide
    refine ⟨fun fx => ?_, ?_, ?_, ?_, ?_, ?_, ?_, ?_, ?_, ?_, ?_⟩
    · simp only [move, ← hw]
      refine ⟨?_, ?_, ?_, ?_⟩
      · exact .of_vMove (.refl (execVperm h fx o s)) fun xs l => rfl
      · exact .of_vMove (.refl (execVbcast h fx o s)) fun xs l => rfl
      · exact .of_vMove (.refl (execVrot h fx o s)) fun xs l => rfl
      · exact .of_vMove (.refl (execVshuf h fx o s)) fun xs l => by dsimp only; split <;> rfl
    · exact .of_exeOp (.refl (execVmov h o s)) fun e xs _ => rfl
    · exact .of_vConst (.refl (execViota h o s))
    · exact .of_vConst (.refl (execVclv h o s))
    · exact .of_pOp (.refl (execPand h o s)) fun j hj => by rw [BitVec.getLsbD_and]
    · exact .of_pOp (.refl (execPor h o s)) fun j hj => by rw [BitVec.getLsbD_or]
    · exact .of_pOp (.refl (execPxor h o s)) fun j hj => by rw [BitVec.getLsbD_xor]
    · exact .of_pOp (.refl (execPnot h o s)) fun j hj => by rw [BitVec.getLsbD_not, decide_eq_true hj, Bool.true_and]
    · exact .of_pNum (.refl (execPffs h o s)) (find?_range_getD _)
    · have hz := find?_range_getD fun j => !pa.getLsbD j
      simp only [Bool.not_eq_true', Bool.not_eq_false'] at hz
      exact .of_pNum (.refl (execPffz h o s)) hz
    · exact .of_pNum (.refl (execPcnt h o s)) rfl
  case queue =>
    intro h o s dops drain
    have hd : exec (.defer h o) s = exeWord h (Instr.defer h o).word o.q o.lat dops 0 0
      (fun _ => if s.me.defBase.isNone then some (.fault fIllegal (Instr.defer h o).word) else none)
      (fun e xs => [.defer (((List.range 64).filter (active (s.rdP o.b) 4)).map fun i =>
        { v := BitVec.ofNat 128 (packLanes 4 (xs.map fun x => vLane x 4 i)), lane := BitVec.ofNat 8 i, nv := BitVec.ofNat 3 (o.d.toNat + 1), crd := e })])
      (fun _ s => s.deferPend o.lat) s := .refl (execDefer h o s)
    refine ⟨fun hb es c' m r => ?_, vDrain_issues (i := .drain h o) (k := fun m => if 64 ≤ m then 64 else 0) (.refl (execDrain h o s)) (by split <;> decide),
      vDrain_issues (i := .drainf h o) (k := fun m => Nat.min 64 m) (.refl (execDrainf h o s)) (Nat.min_le_left ..), fun hb hr => ?_, ?_, ?_, ?_, fun hlo hhi => ?_⟩
    · obtain ⟨t, x, base, ht, hx, hcore, hran⟩ := exeWord_marks m r (Instr.defer h o).word
        (fun _ => if s.me.defBase.isNone then some (.fault fIllegal (Instr.defer h o).word) else none)
        (fun _ => if_neg (by rw [Option.isNone_iff_eq_none]; exact hb)) (fun e xs => [.defer (((List.range 64).filter (active (s.rdP o.b) 4)).map fun i =>
          { v := BitVec.ofNat 128 (packLanes 4 (xs.map fun x => vLane x 4 i)), lane := BitVec.ofNat 8 i, nv := BitVec.ofNat 3 (o.d.toNat + 1), crd := e })])
        (fun _ _ => ⟨_, List.mem_singleton.mpr rfl⟩) (fun u => u.deferPend o.lat) (fun u => u.deferPend_core o.lat)
      exact ⟨t, x, base, hd.trans ht, hx, hcore, hran⟩
    · refine EngRaises.of_exeWord hd (fun _ => ?_) hr
      rw [hb]
      rfl
    · refine .of_exeOp (.refl (execVfrd h o s)) fun e _ _ => ?_
      simp only [Bool.or_eq_true, beq_iff_eq]
    · exact .of_exeOp (.refl (execVfclr h o s)) fun _ _ _ => rfl
    · exact .of_exeOp (.refl (execVfclrCtx h o s)) fun _ _ _ => rfl
    · refine .of_exeOp (.refl (execVrmask h o s)) fun _ _ _ => ?_
      obtain ⟨hpos, hlanes⟩ := flagWidth (s.me.lastPop.get (0, 0) (o.a.toNat - 56)).2
      simp only [beq_iff_eq]
      exact predOf_res _ hpos hlanes _
  case loop =>
    intro reg count stages epi len lvl x v legal ops
    obtain ⟨hgood, hbad⟩ := loopExe_issues h fx o s
    exact ⟨fun hl => hgood ((loopOk_iff ..).mpr hl), fun hl => hbad (Bool.eq_false_iff.mpr fun hk => hl ((loopOk_iff ..).mp hk))⟩
  case levels =>
    intro n left room one lvl a ops level
    refine ⟨fun hroom => ?_, (bskipExe_issues h o s).1, (bskipExe_issues h o s).2, exeLevel_issues (j := .setclExe h o) (.refl (execSetclExe h o s)) _ rfl,
      exeLevel_issues (j := .incclExe h o) (.refl (execIncclExe h o s)) _ rfl⟩
    exact .of_exeWord (pf := fun _ y => y) (.refl (execBpushExe h o s)) (fun _ => by rw [stallUnless, if_pos (by simpa using hroom)])
      (fun _ u _ _ => ⟨.refl .., rfl⟩) (fun _ _ _ _ => rfl) fun _ _ _ => rfl

end Sys2Proof.Machine
end

section
/-! SUPPORT. Effects of ring words built up step by step, and the operands of the access sequencer (R181 to R183, R373). -/

set_option Elab.async false

namespace Sys2Proof.Machine

/-! ### Effects of ring words -/

section
variable {s s0 s1 s2 : State} {eng : Eng} {n k : Nat} {base : Core} {tx : List Nat} {post : EngSt → EngSt}

/-- Issue itself has no effect of the word's own. -/
theorem EngIssued.eff {e : Word} {ts : List (Nat × Nat)} {c0 : Core} (i : EngIssued s s1 eng e ts c0) : EngEff s s1 s1 eng s.cur 0 c0 [] fun x => x :=
  ⟨i.only, i.core, fun _ _ => rfl, Nat.le_add_right ..⟩
/-- A change of the core beside its engine, its tokens and its log. -/
theorem EngEff.mod (ef : EngEff s0 s1 s2 eng n k base tx post) (f : Core → Core)
    (hf : ∀ c x tok peel, f { Core.setEng c eng x with tok := tok, peel := peel } = { Core.setEng (f c) eng x with tok := tok, peel := peel }) :
    EngEff s0 s1 (s2.modCore n f) eng n k (f base) tx post := by
  have hc : (s2.modCore n f).core n = { Core.setEng (f base) eng (post ((s1.core n).eng eng)) with tok := (s2.core n).tok, peel := (s2.core n).peel } := by
    rw [State.core_modCore_self, ef.core, hf]
  exact ⟨ef.only.trans (.modCore ..), by rw [hc], fun j hj => by rw [hc]; exact ef.tok j hj, by rw [hc]; exact ef.log⟩
/-- A change of the engine. -/
theorem EngEff.modEng (ef : EngEff s0 s1 s2 eng n k base tx post) (g : EngSt → EngSt) :
    EngEff s0 s1 (s2.modCore n fun c => c.modEng eng g) eng n k base tx fun x => g (post x) := by
  have hc : (s2.modCore n fun c => c.modEng eng g).core n =
      { base.setEng eng (g (post ((s1.core n).eng eng))) with tok := (s2.core n).tok, peel := (s2.core n).peel } := by
    rw [State.core_modCore_self, ef.core]
    cases eng <;> rfl
  exact ⟨ef.only.trans (.modCore ..), by rw [hc], fun j hj => by rw [hc]; exact ef.tok j hj, by rw [hc]; exact ef.log⟩
/-- An entry of the peel log. -/
theorem EngEff.logged (ef : EngEff s0 s1 s2 eng n k base tx post) (p : Peel) : EngEff s0 s1 (s2.log n p) eng n (k + 1) base tx post := by
  have hl := s2.log_touch n eng p
  refine ⟨ef.only.trans hl.only, ?_, fun j hj => (hl.tokens j (by simp)).trans (ef.tok j hj), hl.log.trans (by have := ef.log; omega)⟩
  have he : ((s2.log n p).core n).eng eng = (s2.core n).eng eng := s2.log_eng ..
  rw [hl.core, he, ef.core]
  cases eng <;> rfl
theorem EngEff.mono (ef : EngEff s0 s1 s2 eng n k base tx post) {k' : Nat} (h : k ≤ k') : EngEff s0 s1 s2 eng n k' base tx post :=
  ⟨ef.only, ef.core, ef.tok, ef.log.trans (by omega)⟩
/-- A step that leaves the device and the other cores, the tokens and the log alone, given what the core then is. -/
theorem EngEff.core_to (ef : EngEff s0 s1 s2 eng n k base tx post) {s3 : State} {base' : Core} {post' : EngSt → EngSt} (ho : CoreOnly s2 s3 n)
    (hc : s3.core n = { Core.setEng base' eng (post' ((s1.core n).eng eng)) with tok := (s2.core n).tok, peel := (s2.core n).peel }) :
    EngEff s0 s1 s3 eng n k base' tx post' :=
  ⟨ef.only.trans ho, by rw [hc], fun j hj => by rw [hc]; exact ef.tok j hj, by rw [hc]; exact ef.log⟩
theorem EngEff.cur (ef : EngEff s0 s1 s2 eng n k base tx post) : s2.cur = s0.cur := ef.only.cur

end

section
variable {i : Instr} {s : State} {eng : Eng} {h : Hdr} {guard : BitVec 4} {pops : List Nat} {bits : Nat} {extra : Word} {w : Word} {chk : Word → Option Body}
  {body : Word → List QEnt → List OBit → Nat → State → Body} {Q : Word → List (Nat × QEnt) → Core → Core → Prop} {post : List OBit → EngSt → EngSt}

/-- A word whose effect is done at issue, whichever way it retires. -/
theorem EngDoes.of_done (hi : exec i s = engWord eng h w guard chk pops bits extra body s)
    (hchk : ∀ es c', EngMay s eng h guard pops bits extra es c' → chk (s.engCrd eng h es bits extra) = none)
    (hd : ∀ es c' s1, EngMay s eng h guard pops bits extra es c' →
      EngIssued s s1 eng (s.engCrd eng h es bits extra) (waitPresent (s.me.waitVal h)) (c'.dropBits eng bits) →
      ∃ s2 k base, body (s.engCrd eng h es bits extra) (es.map (·.2)) ((s.me.boq eng).take bits) s.nextId s1 = .done s2 ∧
        EngEff s s1 s2 eng s.cur k base [] (post ((s.me.boq eng).take bits)) ∧ k ≤ 16 ∧ base.hold = s.me.hold ∧ base.task = s.me.task ∧
        Q (s.engCrd eng h es bits extra) es (c'.dropBits eng bits) base) :
    EngDoes i eng h h guard pops bits extra [] Q post s := by
  intro es c' m
  obtain ⟨s1, iss, hx⟩ := engWord_exit m w chk (hchk es c' m) body
  obtain ⟨s2, k, base, hbody, ef, hk, hhold, htask, hq⟩ := hd es c' s1 m iss
  obtain ⟨hdone, -⟩ := hx s2 s k base [] _ hk (by rw [hhold]; have := m.room; omega) htask (.inr (by simp)) rfl ef
  obtain ⟨t, ht, -, hran⟩ := hdone hbody
  exact ⟨t, base, hi.trans ht, hq, hran⟩
/-- A word that issues and retires at a later completion. -/
theorem EngDoes.of_quiet (hi : exec i s = engWord eng h w guard chk pops bits extra body s)
    (hchk : ∀ es c', EngMay s eng h guard pops bits extra es c' → chk (s.engCrd eng h es bits extra) = none)
    (hd : ∀ es c' s1, EngMay s eng h guard pops bits extra es c' →
      EngIssued s s1 eng (s.engCrd eng h es bits extra) (waitPresent (s.me.waitVal h)) (c'.dropBits eng bits) →
      ∃ s2 k base, body (s.engCrd eng h es bits extra) (es.map (·.2)) ((s.me.boq eng).take bits) s.nextId s1 = .quiet s2 ∧
        EngEff s s1 s2 eng s.cur k base [] (post ((s.me.boq eng).take bits)) ∧ k ≤ 16 ∧ base.hold = s.me.hold ∧ base.task = s.me.task ∧
        Q (s.engCrd eng h es bits extra) es (c'.dropBits eng bits) base) :
    EngDoes i eng h { h with sig := 0 } guard pops bits extra [] Q post s := by
  intro es c' m
  obtain ⟨s1, iss, hx⟩ := engWord_exit m w chk (hchk es c' m) body
  obtain ⟨s2, k, base, hbody, ef, hk, hhold, htask, hq⟩ := hd es c' s1 m iss
  obtain ⟨-, hquiet⟩ := hx s2 s k base [] _ hk (by rw [hhold]; have := m.room; omega) htask (.inr (by simp)) rfl ef
  obtain ⟨t, ht, -, hran⟩ := hquiet hbody
  exact ⟨t, base, hi.trans ht, hq, hran⟩
/-- What a ring word does to its engine may be said of the engine as it stood. -/
theorem EngDoes.congr_post {hr : Hdr} {tx : List Nat} {post' : List OBit → EngSt → EngSt} (d : EngDoes i eng h hr guard pops bits extra tx Q post s)
    (hp : bits ≤ (s.me.boq eng).length → ∀ e (y : EngSt), y = { s.me.eng eng with elast := e, iss := y.iss, before := y.before } →
      post ((s.me.boq eng).take bits) y = post' ((s.me.boq eng).take bits) y) :
    EngDoes i eng h hr guard pops bits extra tx Q post' s := fun es c' m => by
  obtain ⟨t, base, ht, hq, hran⟩ := d es c' m
  exact ⟨t, base, ht, hq, hran.congr_post (hp m.avail _)⟩

end

/-! ### The registers of the access sequencer (R181 to R183) -/

/-- Registers that are ready pass the operand tests. -/
theorem GReady.chkG {s : State} {rs : List (BitVec 6)} (r : GReady s rs) (w : Word) : s.chkG w rs = none := by
  induction rs with
  | nil => rfl
  | cons x rs ih =>
    have ih := ih fun y hy => r y (List.mem_cons_of_mem _ hy)
    unfold State.chkG
    dsimp only
    by_cases hx : 32 ≤ x.toNat
    · rw [if_pos hx, ih]
    · obtain ⟨halive, hlanded⟩ := r x (List.mem_cons_self ..) (by omega)
      rw [if_neg hx, if_neg, if_neg, ih]
      · simp only [Bool.and_eq_true, decide_eq_true_eq]
        rintro ⟨hw, ha⟩
        rw [hlanded ha] at hw
        cases hw
      · simp only [Bool.and_eq_true]
        rintro ⟨hd, hs⟩
        rw [halive hd] at hs
        cases hs
/-- Registers read with their last-use bit are freed (R183). -/
theorem State.freeG_core (u : State) (e : Word) (vs : List (BitVec 6 × Bool)) :
    CoreOnly u (u.freeG e vs) u.cur ∧ ∃ m, (u.freeG e vs).core u.cur = { u.core u.cur with deadG := m } ∧
      ∀ k, m.get none k = if ∃ y ∈ vs, y.2 = true ∧ y.1.toNat < 32 ∧ (u.core u.cur).gIdx y.1 = k then some e else (u.core u.cur).deadG.get none k := by
  induction vs generalizing u with
  | nil => exact ⟨.refl .., _, rfl, fun k => (if_neg (by simp)).symm⟩
  | cons x vs ih =>
    obtain ⟨r, l⟩ := x
    rw [State.freeG]
    by_cases hl : (l && r.toNat < 32) = true
    · rw [if_pos hl]
      have ho : CoreOnly u (u.modCore u.cur fun c => { c with deadG := c.deadG.set none (c.gIdx r) (some e) }) u.cur := .modCore ..
      have hc : (u.modCore u.cur fun c => { c with deadG := c.deadG.set none (c.gIdx r) (some e) }).core u.cur =
        { u.core u.cur with deadG := (u.core u.cur).deadG.set none ((u.core u.cur).gIdx r) (some e) } := u.core_modCore_self ..
      obtain ⟨ho', m, hm, hg⟩ := ih (u.modCore u.cur fun c => { c with deadG := c.deadG.set none (c.gIdx r) (some e) })
      rw [ho.cur] at ho' hm hg
      rw [hc] at hm hg
      refine ⟨ho.trans ho', m, hm, fun k => (hg k).trans ?_⟩
      rw [Bool.and_eq_true, decide_eq_true_eq] at hl
      simp only [List.mem_cons, exists_eq_or_imp, hl, true_and]
      show (if ∃ y ∈ vs, y.2 = true ∧ y.1.toNat < 32 ∧ (u.core u.cur).gIdx y.1 = k then some e else
        ((u.core u.cur).deadG.set none ((u.core u.cur).gIdx r) (some e)).get none k) = _
      by_cases hk : (u.core u.cur).gIdx r = k
      · subst hk
        rw [SMap.get_set_self, ite_self, if_pos (.inl rfl)]
      · rw [SMap.get_set_ne _ _ _ (Ne.symm hk)]
        simp only [hk, false_or]
    · rw [if_neg hl]
      obtain ⟨ho, m, hm, hg⟩ := ih u
      rw [Bool.and_eq_true, decide_eq_true_eq] at hl
      have hno : ∀ k, ¬(l = true ∧ r.toNat < 32 ∧ (u.core u.cur).gIdx r = k) := fun k h => hl ⟨h.1, h.2.1⟩
      refine ⟨ho, m, hm, fun k => (hg k).trans ?_⟩
      simp only [List.mem_cons, exists_eq_or_imp, hno, false_or]

/-- Issue leaves the registers' window where it was (R179). -/
theorem EngIssued.gIdx {s s1 : State} {e : Word} {ts : List (Nat × Nat)} {c0 : Core} (i : EngIssued s s1 .acc e ts c0) (h0 : c0.acc = s.me.acc) (r : BitVec 6) :
    (s1.core s.cur).gIdx r = s.me.gIdx r := by
  have he : (s1.core s.cur).acc = { c0.acc with elast := e, iss := (s1.core s.cur).acc.iss, before := (s1.core s.cur).acc.before } := i.eng
  unfold Core.gIdx
  rw [he, h0]
/-- What pops and bits leave of the core of an ACC word. -/
theorem EngMay.acc_popped {s : State} {h : Hdr} {guard : BitVec 4} {pops : List Nat} {bits : Nat} {extra : Word}
    {es : List (Nat × QEnt)} {c' : Core} (m : EngMay s .acc h guard pops bits extra es c') :
    c'.dropBits .acc bits = { s.me with dq := c'.dq, sq := c'.sq, lastPop := c'.lastPop, boqX := (c'.dropBits .acc bits).boqX } := by
  have h1 := popAll_frame _ _ _ _ _ m.taken
  unfold Core.dropBits
  split <;> rw [h1]
  rfl

/-- Registers freed by an ACC word after its issue. -/
theorem EngIssued.freed {s s1 : State} {e : Word} {ts : List (Nat × Nat)} {h : Hdr} {guard : BitVec 4} {pops : List Nat} {bits : Nat} {extra : Word}
    {es : List (Nat × QEnt)} {c' : Core} (i : EngIssued s s1 .acc e ts (c'.dropBits .acc bits)) (m : EngMay s .acc h guard pops bits extra es c')
    (srcs : List (BitVec 6 × Bool)) :
    ∃ g, EngEff s s1 (s1.freeG e srcs) .acc s.cur 0 { c'.dropBits .acc bits with deadG := g } [] (fun x => x) ∧
      FreedG s e srcs (c'.dropBits .acc bits).deadG g := by
  obtain ⟨ho, g, hg, hfree⟩ := s1.freeG_core e srcs
  have hacc : (c'.dropBits .acc bits).acc = s.me.acc := m.popped.2.2.1
  rw [i.only.cur] at ho hg hfree
  refine ⟨g, i.eff.core_to ho ?_, fun k => ?_⟩
  · rw [hg]
    exact congrArg (fun c : Core => { c with deadG := g }) i.core
  · rw [hfree]
    simp only [i.gIdx hacc]
    rw [i.core]
    rfl

/-! ### The destinations of a g form (R373) -/

/-- The first `n` slots of 64 bits with one value in each. -/
def slotsOf (v n : Nat) : Nat := (List.range n).foldl (fun m i => m + v * 2 ^ (64 * i)) 0
theorem slotsOf_succ (v n : Nat) : slotsOf v (n + 1) = slotsOf v n + v * 2 ^ (64 * n) := by
  rw [slotsOf, List.range_succ, List.foldl_append]
  rfl
theorem slotsOf_lt {v : Nat} (hv : v < 2 ^ 64) (n : Nat) : slotsOf v n < 2 ^ (64 * n) := by
  induction n with
  | zero => simp [slotsOf]
  | succ n ih =>
    rw [slotsOf_succ, Nat.mul_succ, Nat.pow_add]
    have hle := Nat.mul_le_mul_right (2 ^ (64 * n)) (Nat.succ_le_of_lt hv)
    rw [Nat.succ_mul] at hle
    rw [Nat.mul_comm (2 ^ (64 * n))]
    omega
theorem slotsOf_slot {v : Nat} (hv : v < 2 ^ 64) {n i : Nat} (hi : i < n) : slotsOf v n / 2 ^ (64 * i) % 2 ^ 64 = v := by
  induction n with
  | zero => omega
  | succ n ih =>
    rw [slotsOf_succ]
    rcases Nat.lt_succ_iff_lt_or_eq.mp hi with hlt | rfl
    · obtain ⟨k, rfl⟩ := Nat.exists_eq_add_of_lt hlt
      rw [show 64 * (i + k + 1) = 64 * i + (64 * k + 64) by ring, Nat.pow_add 2 (64 * i), ← Nat.mul_assoc, Nat.mul_right_comm,
        Nat.add_mul_div_right _ _ (Nat.two_pow_pos _), Nat.pow_add 2 (64 * k), ← Nat.mul_assoc, Nat.add_mul_mod_self_right]
      exact ih (by omega)
    · rw [Nat.add_mul_div_right _ _ (Nat.two_pow_pos _), Nat.div_eq_of_lt (slotsOf_lt hv i), Nat.zero_add, Nat.mod_eq_of_lt hv]
theorem splat64_slot (v : Word) {i : Nat} (hi : i < 32) : (splat64 v).extractLsb' (64 * i) 64 = v := by
  apply BitVec.eq_of_toNat_eq
  have he : splat64 v = BitVec.ofNat 2048 (slotsOf v.toNat 32) := rfl
  rw [he, BitVec.extractLsb'_toNat, BitVec.toNat_ofNat, Nat.mod_eq_of_lt (slotsOf_lt v.isLt 32), Nat.shiftRight_eq_div_pow]
  exact slotsOf_slot v.isLt hi

theorem Core.queue_setQueue_self (c : Core) (q : Nat) (l : List QEnt) : (c.setQueue q l).queue q = l := by
  unfold Core.setQueue Core.queue
  split <;> exact SMap.get_set_self ..
theorem Core.queue_setQueue_ne (c : Core) {q k : Nat} (h : k ≠ q) (l : List QEnt) : (c.setQueue q l).queue k = c.queue k := by
  unfold Core.setQueue Core.queue
  by_cases hq : q < 4 <;> by_cases hk : k < 4 <;> simp only [hq, hk, if_true, if_false]
  · exact SMap.get_set_ne _ _ _ h
  · exact SMap.get_set_ne _ _ _ (by omega)

theorem Core.setQueue_data (c : Core) {q : Nat} (hq : q < 4) (l : List QEnt) : c.setQueue q l = { c with dq := c.dq.set [] q l } := if_pos hq

section
variable {s : State} {c0 : Core} {g : SMap (Option Word)} {e : Word} {srcs : List (BitVec 6 × Bool)} (hg : FreedG s e srcs c0.deadG g) (d : BitVec 6) (v : Word)
  (lat : BitVec 4)
include hg

/-- A data queue takes the value in 32 slots. -/
theorem FreedG.queue_dest (id : Nat) (hlo : 32 ≤ d.toNat) (hhi : d.toNat < 36) :
    GDest s c0 (Core.setQueue { c0 with deadG := g } (d.toNat - 32) (c0.queue (d.toNat - 32) ++ [{ data := splat64 v, e := e, id := id }])) d e v lat srcs := by
  have hreg : ∀ k, ¬(d.toNat < 32 ∧ k = s.me.gIdx d) := fun k h => by omega
  have hbit : d ≠ 38 := fun h => by rw [h] at hhi; exact absurd hhi (by decide)
  have hset := Core.setQueue_data { c0 with deadG := g } (q := d.toNat - 32) (by omega) (c0.queue (d.toNat - 32) ++ [{ data := splat64 v, e := e, id := id }])
  exact {
    reg := fun h => by omega
    regs := fun k _ => by rw [hset]; exact ⟨rfl, rfl⟩
    freed := fun k _ => by rw [hset]; exact hg k
    queue := fun _ _ => ⟨_, Core.queue_setQueue_self .., rfl, rfl, rfl, fun i hi => splat64_slot v hi⟩
    queues := fun q _ hq => Core.queue_setQueue_ne _ (by omega) _
    bit := by rw [hset, if_neg hbit]
    frame := by rw [hset] }
/-- boq.a takes the low bit. -/
theorem FreedG.bit_dest (hd : d = 38) : GDest s c0 { c0 with deadG := g, boqA := c0.boqA ++ [{ bit := v.getLsbD 0, e := e }] } d e v lat srcs := by
  have hval : d.toNat = 38 := by rw [hd]; rfl
  exact {
    reg := fun h => by omega
    regs := fun k _ => ⟨rfl, rfl⟩
    freed := fun k _ => hg k
    queue := fun _ h => by omega
    queues := fun _ _ _ => rfl
    bit := by rw [if_pos hd]
    frame := rfl }
/-- A g register takes the value, readable from the end of its bound. -/
theorem FreedG.reg_dest (hd : d.toNat < 32) (w : SMap Bool) :
    GDest s c0 { c0 with g := c0.g.set 0 (s.me.gIdx d) v, deadG := g.set none (s.me.gIdx d) none,
                         gAvail := c0.gAvail.set 0 (s.me.gIdx d) (s.cycle + latBound lat), gWait := w } d e v lat srcs := by
  have hbit : d ≠ 38 := fun h => by rw [h] at hd; exact absurd hd (by decide)
  have hne : ∀ {k}, ¬(d.toNat < 32 ∧ k = s.me.gIdx d) → k ≠ s.me.gIdx d := fun h hk => h ⟨hd, hk⟩
  exact {
    reg := fun _ => ⟨SMap.get_set_self .., SMap.get_set_self .., SMap.get_set_self none g (s.me.gIdx d) none⟩
    regs := fun k h => ⟨SMap.get_set_ne _ _ _ (hne h), SMap.get_set_ne _ _ _ (hne h)⟩
    freed := fun k h => by
      rw [← hg k]
      exact SMap.get_set_ne none g none (hne h)
    queue := fun h _ => by omega
    queues := fun _ _ _ => rfl
    bit := by rw [if_neg hbit]
    frame := rfl }

end

/-- A g register written by its word, from the state in which the word has freed what it reads. -/
theorem EngEff.wrG {s s1 s2 : State} {k : Nat} {c0 : Core} (ef : EngEff s s1 s2 .acc s.cur k c0 [] fun x => x) (d : BitVec 6) (hidx : s2.me.gIdx d = s.me.gIdx d)
    (e v : Word) (lat : BitVec 4) :
    EngEff s s1 (s2.wrG d e v lat) .acc s.cur (k + 1)
      { c0 with g := c0.g.set 0 (s.me.gIdx d) v, deadG := c0.deadG.set none (s.me.gIdx d) none,
                gAvail := c0.gAvail.set 0 (s.me.gIdx d) (s.cycle + latBound lat), gWait := c0.gWait.set false (s.me.gIdx d) false } [] fun x => x := by
  have hcur : s2.cur = s.cur := ef.cur
  have hcyc : s2.cycle = s.cycle := ef.only.cycle
  unfold State.wrG
  rw [hidx, hcur, hcyc]
  exact (ef.logged _).mod (fun c => { c with
    g := c.g.set 0 (s.me.gIdx d) v, deadG := c.deadG.set none (s.me.gIdx d) none,
    gAvail := c.gAvail.set 0 (s.me.gIdx d) (s.cycle + latBound lat), gWait := c.gWait.set false (s.me.gIdx d) false }) fun _ _ _ _ => rfl

/-- The result of a g form reaches its destination. -/
theorem EngEff.accPut {s s1 s2 : State} {c0 : Core} {g : SMap (Option Word)} {e : Word} {srcs : List (BitVec 6 × Bool)}
    (ef : EngEff s s1 s2 .acc s.cur 0 { c0 with deadG := g } [] fun x => x) (hg : FreedG s e srcs c0.deadG g) (d : BitVec 6)
    (hidx : s2.me.gIdx d = s.me.gIdx d) (hd : d.toNat < 36 ∨ d = 38) (v : Word) (lat : BitVec 4) (id : Nat) :
    ∃ k base, EngEff s s1 (s2.accPut d e v lat id) .acc s.cur k base [] (fun x => x) ∧ k ≤ 1 ∧ base.hold = c0.hold ∧ base.task = c0.task ∧
      GDest s c0 base d e v lat srcs := by
  have hcur : s2.cur = s.cur := ef.cur
  unfold State.accPut
  by_cases hq : (32 ≤ d.toNat && d.toNat < 36) = true
  · rw [if_pos hq]
    rw [Bool.and_eq_true, decide_eq_true_eq, decide_eq_true_eq] at hq
    have hset := fun c : Core => c.setQueue_data (q := d.toNat - 32) (by omega) (c.queue (d.toNat - 32) ++ [{ data := splat64 v, e := e, id := id }])
    unfold State.pushQ
    rw [hcur]
    refine ⟨0, _, ef.mod (fun c => c.setQueue (d.toNat - 32) (c.queue (d.toNat - 32) ++ [{ data := splat64 v, e := e, id := id }])) fun c x tok peel => ?_,
      by omega, ?_, ?_, hg.queue_dest d v lat id hq.1 hq.2⟩
    · rw [hset, hset]
      rfl
    · rw [Core.setQueue_data (q := d.toNat - 32) _ (by omega)]
    · rw [Core.setQueue_data (q := d.toNat - 32) _ (by omega)]
  · rw [if_neg hq]
    by_cases hb : (d == 38) = true
    · rw [if_pos hb, hcur]
      exact ⟨0, _, ef.mod (fun c => { c with boqA := c.boqA ++ [{ bit := v.getLsbD 0, e := e }] }) fun _ _ _ _ => rfl, by omega, rfl, rfl,
        hg.bit_dest d v lat (beq_iff_eq.mp hb)⟩
    · rw [if_neg hb]
      rw [Bool.and_eq_true, decide_eq_true_eq, decide_eq_true_eq] at hq
      have hlt : d.toNat < 32 := by
        rcases hd with hd | hd
        · omega
        · exact absurd (beq_iff_eq.mpr hd) hb
      exact ⟨1, _, ef.wrG d hidx e v lat, le_refl _, rfl, rfl, hg.reg_dest d v lat hlt _⟩

/-- A g form computes its function of its sources (R373). -/
theorem AccComputes.of_gForm {i : Instr} {h : Hdr} {w : Word} {guard : BitVec 4} {d : BitVec 6} {srcs : List (BitVec 6 × Bool)} {lat : BitVec 4} {f f' : List Word → Word}
    {s : State} (hi : exec i s = gForm h w guard d srcs lat f s) (hf : ∀ v, f v = f' v) : AccComputes i h guard d srcs lat f' s := by
  intro hd hr hroom
  unfold gForm at hi
  refine .of_done hi (fun es c' _ => ?_) fun es c' s1 m iss => ?_
  · rw [hr.chkG, hroom]
    rfl
  · obtain ⟨g, ef, hg⟩ := iss.freed m srcs
    have hidx : ∀ r, (s1.freeG (s.engCrd .acc h es (accBits (srcs.map (·.1))) 0) srcs).me.gIdx r = s.me.gIdx r := fun r => by
      rw [State.me, ef.cur, ef.core]
      exact iss.gIdx m.popped.2.2.1 r
    obtain ⟨k, base, ef', hk, hhold, htask, hdest⟩ := ef.accPut hg d (hidx d) hd
      (f (accVals s (srcs.map (·.1)) (es.map (·.2)) (s.me.boqX.take (accBits (srcs.map (·.1)))))) lat s.nextId
    obtain ⟨-, -, -, hptask, hphold⟩ := m.popped
    exact ⟨_, k, base, rfl, ef', by omega, hhold.trans hphold, htask.trans hptask, hf _ ▸ hdest⟩

end Sys2Proof.Machine
end

section
/-! PROOFS of the AccessIntegers statement (O26): the g forms and GPARM. -/

set_option Elab.async false

namespace Sys2Proof.Machine

/-- A word that pops nothing takes no entry. -/
theorem EngMay.none_popped {s : State} {eng : Eng} {h : Hdr} {guard : BitVec 4} {bits : Nat} {extra : Word} {es : List (Nat × QEnt)} {c' : Core}
    (m : EngMay s eng h guard [] bits extra es c') : es = [] ∧ c' = s.me := by
  have ht := m.taken
  rw [popAll] at ht
  cases ht
  exact ⟨rfl, rfl⟩

/-- A form whose value comes from the state alone, or a fault in its stead. -/
theorem AccComputes.of_value {i : Instr} {h : Hdr} {w : Word} {d : BitVec 6} {g : Word → Word ⊕ Body} {v : Word} {s : State}
    (hi : exec i s = engWord .acc h w 0 (fun e => orTest (match g e with | .inr b => some b | .inl _ => none) (stallUnless (s.accRoom d))) [] 0 0
      (fun e _ _ id s' => match g e with | .inr b => b | .inl v => .done (s'.accPut d e v 0 id)) s)
    (hg : g (s.engCrd .acc h [] 0 0) = .inl v) : AccComputes i h 0 d [] 0 (fun _ => v) s := by
  intro hd _ hroom
  show EngDoes i .acc h h 0 [] 0 0 [] (fun e _ c0 c => GDest s c0 c d e v 0 []) (fun _ x => x) s
  refine .of_done hi (fun es c' m => ?_) fun es c' s1 m iss => ?_
  · obtain ⟨rfl, -⟩ := m.none_popped
    rw [hg, hroom]
    rfl
  · obtain ⟨rfl, -⟩ := m.none_popped
    obtain ⟨dead, ef, hfree⟩ := iss.freed m []
    have hidx : (s1.freeG (s.engCrd .acc h [] 0 0) []).me.gIdx d = s.me.gIdx d := by
      rw [State.me, ef.cur, ef.core]
      exact iss.gIdx m.popped.2.2.1 d
    obtain ⟨k, base, ef', hk, hhold, htask, hdest⟩ := ef.accPut hfree d hidx hd v 0 s.nextId
    obtain ⟨-, -, -, hptask, hphold⟩ := m.popped
    exact ⟨_, k, base, by rw [hg]; rfl, ef', by omega, hhold.trans hphold, htask.trans hptask, hdest⟩

theorem AccComputes.of_gOp {i : Instr} {h : Hdr} {w : Word} {o : RR} {f f' : Word → Word → Word} {s : State} (hi : exec i s = gOp h w o f s)
    (hf : ∀ a b, f a b = f' a b) : AccComputes i h o.q o.d [(o.a, o.la), (o.b, o.lb)] o.lat (fun v => f' (v.getD 0 0) (v.getD 1 0)) s :=
  .of_gForm hi fun _ => hf ..
theorem AccComputes.of_gOpi {i : Instr} {h : Hdr} {w : Word} {o : RRI} {f f' : Word → Word} {s : State} (hi : exec i s = gOpi h w o f s)
    (hf : ∀ a, f a = f' a) : AccComputes i h o.q o.d [(o.a, o.la)] o.lat (fun v => f' (v.getD 0 0)) s :=
  .of_gForm hi fun _ => hf _

/-- What GPARM answers (Table 15.6): a value of the task for the codes 0 to 4, -/
theorem State.gparm_task (s : State) (e : Word) (arg : Nat) {t : Task} (ht : s.me.task = some t) :
    s.gparm e 0 arg = .inl t.taskCrd ∧ s.gparm e 1 arg = .inl t.teamId ∧ s.gparm e 2 arg = .inl (t.desc.stage.setWidth 64) ∧
      s.gparm e 3 arg = .inl (t.launchId.setWidth 64) ∧ s.gparm e 4 arg = .inl t.desc.arg ∧ s.gparm e 7 arg = .inl ((s.me.inc ++ s.me.cid).setWidth 64) := by
  unfold State.gparm
  rw [ht]
  exact ⟨rfl, rfl, rfl, rfl, rfl, rfl⟩
/-- and a dimension of a tensor, or the fault of one that has none. -/
theorem State.gparm_dim (s : State) (e : Word) (arg : Nat) {code : Nat} (hc : code = 5 ∨ code = 6) :
    (∀ d, s.tdesc s.cur e (BitVec.ofNat 10 arg) = some d → arg / 1024 % 8 < d.rank →
      s.gparm e code arg = .inl (BitVec.ofNat 64 (if code = 5 then d.dims.getD (arg / 1024 % 8) 0 else 2 ^ d.tsh.getD (arg / 1024 % 8) 0))) ∧
    ((∀ d, s.tdesc s.cur e (BitVec.ofNat 10 arg) = some d → d.rank ≤ arg / 1024 % 8) →
      s.gparm e code arg = .inr (.fault 0x08 ((BitVec.ofNat 10 arg).setWidth 64))) := by
  refine ⟨fun d hd hlt => ?_, fun hno => ?_⟩
  · rcases hc with rfl | rfl <;> simp [State.gparm, hd, Nat.not_le.mpr hlt]
  · rcases hd : s.tdesc s.cur e (BitVec.ofNat 10 arg) with _ | d
    · rcases hc with rfl | rfl <;> simp [State.gparm, hd, fTensorBounds]
    · rcases hc with rfl | rfl <;> simp [State.gparm, hd, hno d hd, fTensorBounds]

/-- Settles O26: the g forms compute as `AccComputes.of_gForm` says, and GPARM as `AccComputes.of_value` does of Table 15.6. -/
theorem accessIntegers : Obligations.AccessIntegers := by
  unfold Obligations.AccessIntegers
  refine ⟨fun h o s => ?_, fun h o s => ?_, fun h o s => ?_, fun h o s t ht => ?_⟩
  · intro uns less form
    have hless : ∀ a b, ltOf (mUns o) a b = less a b := fun a b => ltOf_eq ..
    refine ⟨?_, ?_, ?_, ?_, ?_, ?_, ?_, ?_, ?_⟩
    · exact .of_gOp (i := .gadd h o) (.refl (execGadd h o s)) fun a b => rfl
    · exact .of_gOp (i := .gsub h o) (.refl (execGsub h o s)) fun a b => rfl
    · exact .of_gOp (i := .gmul h o) (.refl (execGmul h o s)) fun a b => rfl
    · exact .of_gOp (i := .gshl h o) (.refl (execGshl h o s)) fun a b => shiftLeft_eq_ofNat ..
    · exact .of_gOp (i := .gshr h o) (.refl (execGshr h o s)) fun a b => ushiftRight_eq_ofNat ..
    · exact .of_gOp (i := .gand h o) (.refl (execGand h o s)) fun a b => rfl
    · exact .of_gOp (i := .gor h o) (.refl (execGor h o s)) fun a b => rfl
    · exact .of_gOp (i := .gmin h o) (f' := fun a b => if less b a then b else a) (.refl (execGmin h o s)) fun a b => by simp only [hless]
    · exact .of_gOp (i := .gmax h o) (f' := fun a b => if less a b then b else a) (.refl (execGmax h o s)) fun a b => by simp only [hless]
  · intro i form
    refine ⟨?_, ?_, ?_⟩
    · exact .of_gOpi (i := .gaddi h o) (.refl (execGaddi h o s)) fun a => rfl
    · exact .of_gOpi (i := .gandi h o) (.refl (execGandi h o s)) fun a => rfl
    · exact .of_gOpi (i := .gshli h o) (.refl (execGshli h o s)) fun a => shiftLeft_eq_ofNat ..
  · refine ⟨?_, ?_, ?_⟩
    · exact .of_gForm (.refl (execGmovi h o s)) fun _ => rfl
    · exact .of_gForm (.refl (execGmovhi h o s)) fun v => by rw [← shiftLeft_eq_ofNat]
    · exact .of_gForm (.refl (execGcl h o s)) fun _ => rfl
  · intro code arg tid dim is
    have hi : exec (.gparm h o) s = engWord .acc h (Instr.gparm h o).word 0
      (fun e => orTest (match s.gparm e code arg with | .inr b => some b | .inl _ => none) (stallUnless (s.accRoom o.d))) [] 0 0
      (fun e _ _ id s' => match s.gparm e code arg with | .inr b => b | .inl v => .done (s'.accPut o.d e v 0 id)) s := .refl (execGparm h o s)
    obtain ⟨h0, h1, h2, h3, h4, h7⟩ := s.gparm_task (s.engCrd .acc h [] 0 0) arg ht
    have hdim := fun hc => s.gparm_dim (s.engCrd .acc h [] 0 0) arg (code := code) hc
    refine ⟨fun hc => ?_, fun hc => ?_, fun hc => ?_, fun hc => ?_, fun hc => ?_, fun hc => ?_, fun d hc hd hlt => ?_, fun hc hno => ?_⟩
    · exact .of_value (g := fun e => s.gparm e code arg) hi (by rw [← h0, ← hc])
    · exact .of_value (g := fun e => s.gparm e code arg) hi (by rw [← h1, ← hc])
    · exact .of_value (g := fun e => s.gparm e code arg) hi (by rw [← h2, ← hc])
    · exact .of_value (g := fun e => s.gparm e code arg) hi (by rw [← h3, ← hc])
    · exact .of_value (g := fun e => s.gparm e code arg) hi (by rw [← h4, ← hc])
    · exact .of_value (g := fun e => s.gparm e code arg) hi (by rw [← h7, ← hc])
    · exact .of_value (g := fun e => s.gparm e code arg) hi ((hdim hc).1 d hd hlt)
    · refine .of_test hi fun es c' m => ?_
      obtain ⟨rfl, -⟩ := m.none_popped
      have hf := (hdim hc).2 hno
      rw [hf]
      rfl

end Sys2Proof.Machine
end

section
/-! PROOFS of the AccessScratchpad statement (O27): scratchpad loads and stores of the access sequencer, and the bytes that are in flight. -/

set_option Elab.async false

namespace Sys2Proof.Machine

/-! ### Bytes of vectors and of scratchpad -/

/-- Byte `j` of a number of `w` bits from bytes. -/
theorem bitsOf_getByte {w : Nat} (bs : List Byte) {j : Nat} (hj : 8 * j + 8 ≤ w) : (bitsOf w bs).extractLsb' (8 * j) 8 = bs.getD j 0 := by
  apply BitVec.eq_of_toNat_eq
  rw [← leNat_byte, BitVec.extractLsb'_toNat, bitsOf, BitVec.toNat_ofNat, Nat.shiftRight_eq_div_pow]
  refine Nat.eq_of_testBit_eq fun i => ?_
  rw [show (256 : Nat) = 2 ^ 8 from rfl]
  simp only [Nat.testBit_mod_two_pow, Nat.testBit_div_two_pow]
  by_cases hi : i < 8
  · simp [hi, show i + 8 * j < w by omega]
  · simp [hi]
theorem getD_spadBytes (c : Core) (a : Nat) {n j : Nat} (hj : j < n) : (c.spadBytes a n).getD j 0 = c.spad.get 0 (a + j) := by
  induction n generalizing a j with
  | zero => omega
  | succ n ih =>
    rw [Core.spadBytes]
    cases j with
    | zero => rfl
    | succ j => rw [List.getD_cons_succ, ih _ (by omega), show a + 1 + j = a + (j + 1) by omega]
theorem getD_spadSeen (c : Core) (now a : Nat) (fs : List Flight) {n j : Nat} (hj : j < n) :
    (c.spadSeen fs now a n).getD j 0 = flightByte now (a + j) (c.spad.get 0 (a + j)) fs := by
  induction n generalizing a j with
  | zero => omega
  | succ n ih =>
    rw [Core.spadSeen]
    cases j with
    | zero => rfl
    | succ j => rw [List.getD_cons_succ, ih _ (by omega), show a + 1 + j = a + (j + 1) by omega]
/-- Byte `j` of a vector's bytes. -/
theorem getD_leBytes_vec {k : Nat} (v : BitVec k) {n j : Nat} (hj : j < n) : (leBytes v.toNat n).getD j 0 = v.extractLsb' (8 * j) 8 := by
  have hgen : ∀ w n j, j < n → (leBytes w n).getD j 0 = BitVec.ofNat 8 (w / 2 ^ (8 * j)) := fun w n => by
    induction n generalizing w with
    | zero => intro j hj; omega
    | succ n ih =>
      intro j hj
      rw [leBytes]
      cases j with
      | zero => simp
      | succ j =>
        rw [List.getD_cons_succ, ih _ _ (by omega), show 8 * (j + 1) = 8 + 8 * j by omega, Nat.pow_add, ← Nat.div_div_eq_div_mul]
  rw [hgen _ _ _ hj]
  apply BitVec.eq_of_toNat_eq
  rw [BitVec.toNat_ofNat, BitVec.extractLsb'_toNat, Nat.shiftRight_eq_div_pow]

/-! ### Stores in flight (R181) -/

/-- Every byte of a store stands in one of its flights, with what the store found. -/
theorem flights_byte (c : Core) (until_ a : Nat) (bs : List Byte) {j : Nat} (hj : j < bs.length) :
    ∃ f ∈ flights c until_ a bs, f.addr ≤ a + j ∧ a + j < f.addr + f.len ∧
      f.old.extractLsb' (8 * (a + j - f.addr)) 8 = c.spad.get 0 (a + j) := by
  refine ⟨_, List.mem_map.mpr ⟨j / 32, List.mem_range.mpr (by omega), rfl⟩, ?_, ?_, ?_⟩
  · dsimp only; omega
  · have hmin : j - 32 * (j / 32) < Nat.min 32 (bs.length - 32 * (j / 32)) := Nat.lt_min.mpr ⟨by omega, by omega⟩
    dsimp only; omega
  · have hmin : j - 32 * (j / 32) < Nat.min 32 (bs.length - 32 * (j / 32)) := Nat.lt_min.mpr ⟨by omega, by omega⟩
    dsimp only
    rw [bitsOf_getByte _ (by omega), getD_spadBytes _ _ (by omega)]
    congr 1
    omega
theorem flights_avail {c : Core} {until_ a : Nat} {bs : List Byte} {f : Flight} (hf : f ∈ flights c until_ a bs) : f.avail = until_ := by
  obtain ⟨i, -, rfl⟩ := List.mem_map.mp hf
  rfl
theorem flights_congr {c c' : Core} (h : c'.spad = c.spad) (until_ a : Nat) (bs : List Byte) : flights c' until_ a bs = flights c until_ a bs := by
  have hb : ∀ a n, c'.spadBytes a n = c.spadBytes a n := fun a n => by
    induction n generalizing a with
    | zero => rfl
    | succ n ih => rw [Core.spadBytes, Core.spadBytes, ih, h]
  simp only [flights, hb]

/-- A step that changes the core beside its engine, its tokens and its log, and logs some entries. -/
theorem EngEff.more {s0 s1 s2 s3 : State} {eng : Eng} {n k j : Nat} {base : Core} {tx : List Nat} {post : EngSt → EngSt}
    (ef : EngEff s0 s1 s2 eng n k base tx post) (ho : CoreOnly s2 s3 n) (f : Core → Core) (hc : s3.core n = { f (s2.core n) with peel := (s3.core n).peel })
    (hf : ∀ c x tok peel, f { Core.setEng c eng x with tok := tok, peel := peel } = { Core.setEng (f c) eng x with tok := tok, peel := peel })
    (hl : (s3.core n).peel.length ≤ (s2.core n).peel.length + j) : EngEff s0 s1 s3 eng n (k + j) (f base) tx post := by
  have htok : (s3.core n).tok = (s2.core n).tok := by rw [hc, ef.core, hf]
  refine ⟨ef.only.trans ho, ?_, fun i hi => by rw [htok]; exact ef.tok i hi, hl.trans (by have := ef.log; omega)⟩
  rw [htok, hc, ef.core, hf]

/-- A store of ACC writes its bytes, puts them in flight and marks its granules (R181, R186, R187). -/
theorem EngEff.accStore {s s1 s2 : State} {k : Nat} {c0 : Core} (ef : EngEff s s1 s2 .acc s.cur k c0 [] fun x => x) (e : Word) (a : Nat) (bs : List Byte) (lat : BitVec 4) :
    ∃ m, EngEff s s1 (s2.accStore e a bs lat) .acc s.cur (k + (bs.length / 32 + 2))
      { c0 with spad := putSpad c0.spad a bs, pendBits := m,
                accFlight := liveFlights s.cycle c0.accFlight ++ flights c0 (s.cycle + latBound lat) a bs } [] (fun x => x) ∧
      (c0.dbgReg.getLsbD 0 = false → m = c0.pendBits) := by
  have hcur : s2.cur = s.cur := ef.cur
  have hcyc : s2.cycle = s.cycle := ef.only.cycle
  have hspad : s2.me.spad = c0.spad := by rw [State.me, hcur, ef.core]; rfl
  obtain ⟨ho, hw, hl⟩ := s2.spadWrite_core s.cur .acc e a bs
  have ef2 := ef.more ho (fun c => { c with spad := putSpad c.spad a bs }) hw (fun _ _ _ _ => rfl) hl
  obtain ⟨ho3, m, hm, hz⟩ := (s2.spadWrite s.cur .acc e a bs).setPend_core s.cur a bs.length (s.cycle + latBound lat)
  have ef3 := ef2.more ho3 (j := 0) (fun c => { c with pendBits := m }) (by rw [hm]) (fun _ _ _ _ => rfl) (by rw [hm]; exact Nat.le_refl _)
  refine ⟨m, ?_, fun hd => ?_⟩
  · unfold State.accStore
    dsimp only
    rw [hcur, hcyc, flights_congr hspad]
    exact ef3.mod (fun c => { c with accFlight := liveFlights s.cycle c.accFlight ++ flights c0 (s.cycle + latBound lat) a bs }) fun _ _ _ _ => rfl
  · rw [hz (by rw [ef2.core]; exact hd), ef2.core]
    rfl

/-! ### The words (R372) -/

section
variable (h : Hdr) (o : RRI) (s : State)

/-- The window of g registers stands while a word frees what it reads. -/
theorem EngEff.gIdx {s s1 s2 : State} {e : Word} {ts : List (Nat × Nat)} {k bits : Nat} {c0 c' : Core} {h : Hdr} {guard : BitVec 4} {pops : List Nat}
    {extra : Word} {es : List (Nat × QEnt)} (ef : EngEff s s1 s2 .acc s.cur k c0 [] fun x => x)
    (iss : EngIssued s s1 .acc e ts (c'.dropBits .acc bits)) (m : EngMay s .acc h guard pops bits extra es c') (r : BitVec 6) : s2.me.gIdx r = s.me.gIdx r := by
  rw [State.me, ef.cur, ef.core]
  exact iss.gIdx m.popped.2.2.1 r

theorem lds_does (hr : GReady s [o.a]) (hin : SpadInside (accAddr s o) 256 32) (hp : s.me.pendingAt s.cycle (accAddr s o).toNat 256 = none)
    (hlo : 32 ≤ o.d.toNat) (hhi : o.d.toNat < 36) (hroom : s.accRoom o.d = true) :
    EngDoes (.lds h o) .acc h h o.q [] 0 0 [] (fun e _ c0 c => ∃ x : QEnt, x.e = e ∧ x.eos = false ∧ x.landed = true ∧
        (∀ j, j < 256 → x.data.extractLsb' (8 * j) 8 = flightByte s.cycle ((accAddr s o).toNat + j) (s.me.spad.get 0 ((accAddr s o).toNat + j)) s.me.accFlight) ∧
        FreedG s e [(o.a, o.la)] c0.deadG c.deadG ∧
        c = { c0.setQueue (o.d.toNat - 32) (c0.queue (o.d.toNat - 32) ++ [x]) with deadG := c.deadG }) (fun _ x => x) s := by
  have hi : exec (.lds h o) s = execLds h o s := rfl
  unfold execLds at hi
  refine .of_done hi (fun es c' m => ?_) fun es c' s1 m iss => ?_
  · rw [hr.chkG, State.spadChk_inside hin _ fun _ => hp, hroom]
    rfl
  · obtain ⟨g, ef, hg⟩ := iss.freed m [(o.a, o.la)]
    obtain ⟨-, -, -, hptask, hphold⟩ := m.popped
    have hq : o.d.toNat - 32 < 4 := by omega
    have hset := fun c x => Core.setQueue_data c hq (c.queue (o.d.toNat - 32) ++ [x])
    obtain ⟨x, hx⟩ : ∃ x : QEnt, x = { data := vOfBytes (s.me.spadSeen s.me.accFlight s.cycle (accAddr s o).toNat 256), e := s.engCrd .acc h es 0 0, id := s.nextId } :=
      ⟨_, rfl⟩
    have ef2 := ef.mod (fun c => c.setQueue (o.d.toNat - 32) (c.queue (o.d.toNat - 32) ++ [x])) fun c y tok peel => by
      rw [hset, hset]
      rfl
    refine ⟨_, 0, _, ?_, ef2, by omega, ?_, ?_, x, by rw [hx], by rw [hx], by rw [hx], fun j hj => ?_, ?_, ?_⟩
    · show Body.done (State.pushQ _ _ _) = _
      rw [State.pushQ, ef.cur, hx]
    · rw [hset]
      exact hphold
    · rw [hset]
      exact hptask
    · rw [hx]
      exact (bitsOf_getByte _ (by omega)).trans (getD_spadSeen _ _ _ _ hj)
    · rw [hset]
      exact hg
    · rw [hset, hset]
      rfl

theorem ldsb_does (hr : GReady s [o.a]) (hin : SpadInside (accAddr s o) 8 8) (hp : s.me.pendingAt s.cycle (accAddr s o).toNat 8 = none) :
    EngDoes (.ldsb h o) .acc h { h with sig := 0 } o.q [] 0 0 [] (fun e _ c0 c =>
        let k := s.me.gIdx o.d
        (∀ j, j < 8 → (c.g.get 0 k).extractLsb' (8 * j) 8 =
          flightByte s.cycle ((accAddr s o).toNat + j) (s.me.spad.get 0 ((accAddr s o).toNat + j)) s.me.accFlight) ∧
        c.gAvail.get 0 k = s.cycle + latBound o.lat ∧ c.gWait.get false k = true ∧
        (∀ j, j ≠ k → c.g.get 0 j = c0.g.get 0 j ∧ c.gAvail.get 0 j = c0.gAvail.get 0 j ∧ c.gWait.get false j = c0.gWait.get false j) ∧
        c.deadG.get none k = none ∧
        (∀ j, j ≠ k → c.deadG.get none j = if o.la = true ∧ o.a.toNat < 32 ∧ s.me.gIdx o.a = j then some e else c0.deadG.get none j) ∧
        (∃ l : Landing, c.landQ = c0.landQ ++ [l] ∧ l.g = some k ∧ l.sig = h.sig ∧ l.e = e) ∧
        c = { c0 with g := c.g, deadG := c.deadG, gAvail := c.gAvail, gWait := c.gWait, landQ := c.landQ }) (fun _ x => x) s := by
  have hi : exec (.ldsb h o) s = execLdsb h o s := rfl
  unfold execLdsb at hi
  refine .of_quiet hi (fun es c' m => ?_) fun es c' s1 m iss => ?_
  · rw [hr.chkG, State.spadChk_inside hin _ fun _ => hp]
    rfl
  · obtain ⟨g, ef, hg⟩ := iss.freed m [(o.a, o.la)]
    obtain ⟨-, -, -, hptask, hphold⟩ := m.popped
    obtain ⟨v, hv⟩ : ∃ v : Word, v = bitsOf 64 (s.me.spadSeen s.me.accFlight s.cycle (accAddr s o).toNat 8) := ⟨_, rfl⟩
    obtain ⟨l, hl⟩ : ∃ l : Landing, l = { e := s.engCrd .acc h es 0 0, sig := h.sig, slot := s.me.acc.ring.head, id := s.nextId, g := some (s.me.gIdx o.d) } :=
      ⟨_, rfl⟩
    have ef2 := (ef.wrG o.d (ef.gIdx iss m o.d) (s.engCrd .acc h es 0 0) v o.lat).mod
      (fun c => { c with gWait := c.gWait.set false (s.me.gIdx o.d) true, landQ := c.landQ ++ [l] }) fun _ _ _ _ => rfl
    refine ⟨_, _, _, ?_, ef2, by omega, hphold, hptask, ?_, ?_, ?_, ?_, ?_, ?_, ?_, ?_⟩
    all_goals dsimp only
    · rw [hv, hl]
    · intro j hj
      rw [SMap.get_set_self, hv]
      exact (bitsOf_getByte _ (by omega)).trans (getD_spadSeen _ _ _ _ hj)
    · exact SMap.get_set_self ..
    · exact SMap.get_set_self ..
    · intro j hj
      rw [SMap.get_set_ne _ _ _ hj, SMap.get_set_ne _ _ _ hj, SMap.get_set_ne _ _ _ hj, SMap.get_set_ne _ _ _ hj]
      exact ⟨rfl, rfl, rfl⟩
    · exact SMap.get_set_self ..
    · intro j hj
      rw [SMap.get_set_ne _ _ _ hj, hg j]
      simp only [List.mem_singleton, exists_eq_left]
    · exact ⟨l, rfl, by rw [hl], by rw [hl], by rw [hl]⟩

theorem sts_does (hr : GReady s [o.a, o.d]) :
    let len := if o.d.toNat < 32 then 8 else 256
    SpadInside (accAddr s o) len (if o.d.toNat < 32 then 8 else 32) →
      EngDoes (.sts h o) .acc h h o.q (accPops [o.d]) 0 0 [] (fun e es c0 c =>
        let v : Vec := if o.d.toNat < 32 then (s.rdG o.d).setWidth 2048 else ((es.head?.map (·.2.data)).getD 0)
        (∀ j, j < len → c.spad.get 0 ((accAddr s o).toNat + j) = v.extractLsb' (8 * j) 8) ∧
        (∀ x, x < (accAddr s o).toNat ∨ (accAddr s o).toNat + len ≤ x → c.spad.get 0 x = c0.spad.get 0 x) ∧
        (∃ fs : List Flight, c.accFlight = (c0.accFlight.dropWhile fun f => decide (f.avail ≤ s.cycle)) ++ fs ∧ (∀ f ∈ fs, f.avail = s.cycle + latBound o.lat) ∧
          ∀ j, j < len → ∃ f ∈ fs, f.addr ≤ (accAddr s o).toNat + j ∧ (accAddr s o).toNat + j < f.addr + f.len ∧
            f.old.extractLsb' (8 * ((accAddr s o).toNat + j - f.addr)) 8 = c0.spad.get 0 ((accAddr s o).toNat + j)) ∧
        FreedG s e [(o.a, o.la)] c0.deadG c.deadG ∧ (s.me.dbgReg.getLsbD 0 = false → c.pendBits = c0.pendBits) ∧
        c = { c0 with spad := c.spad, accFlight := c.accFlight, pendBits := c.pendBits, deadG := c.deadG }) (fun _ x => x) s := by
  intro len hin
  have hi : exec (.sts h o) s = execSts h o s := rfl
  unfold execSts at hi
  refine .of_done hi (fun es c' m => ?_) fun es c' s1 m iss => ?_
  · rw [hr.chkG, State.spadChk_inside hin _ fun hf => by cases hf]
    rfl
  · obtain ⟨g, ef, hg⟩ := iss.freed m [(o.a, o.la)]
    obtain ⟨-, -, -, hptask, hphold⟩ := m.popped
    have hdbg : (c'.dropBits .acc 0).dbgReg = s.me.dbgReg := by rw [m.acc_popped]
    obtain ⟨v, hv⟩ : ∃ v : Vec, v = if o.d.toNat < 32 then (s.rdG o.d).setWidth 2048 else ((es.head?.map (·.2.data)).getD 0) := ⟨_, rfl⟩
    have hpop : ((es.map (·.2)).head?.map (·.data)).getD 0 = (es.head?.map (·.2.data)).getD 0 := by cases es <;> rfl
    have hlen : (leBytes v.toNat len).length = len := leBytes_length ..
    have hle : len ≤ 256 := by dsimp only [len]; split <;> omega
    obtain ⟨pend, ef2, hz⟩ := ef.accStore (s.engCrd .acc h es 0 0) (accAddr s o).toNat (leBytes v.toNat len) o.lat
    refine ⟨_, _, _, ?_, ef2, by omega, hphold, hptask, ?_, ?_, ⟨_, rfl, fun f hf => flights_avail hf, fun j hj => ?_⟩, hg,
      fun hd => hz (by rw [← hdbg] at hd; exact hd), rfl⟩
    all_goals dsimp only
    · rw [hpop, ← hv]
    · intro j hj
      rw [get_putSpad, if_pos (by omega), Nat.add_sub_cancel_left, getD_leBytes_vec _ hj, hv]
    · intro x hx
      rw [get_putSpad, if_neg (by omega)]
    · exact flights_byte _ _ _ _ (by omega)

theorem lds_raises (hr : GReady s [o.a]) (hout : ¬SpadInside (accAddr s o) 256 32) :
    EngRaises (.lds h o) .acc h o.q [] 0 0 0x05 (spadRangeVal (accAddr s o) 32) s := by
  have hi : exec (.lds h o) s = execLds h o s := rfl
  unfold execLds at hi
  refine .of_test hi fun es c' m => ?_
  rw [hr.chkG, State.spadChk_outside hout]
  rfl
theorem ldsb_raises (hr : GReady s [o.a]) (hout : ¬SpadInside (accAddr s o) 8 8) :
    EngRaises (.ldsb h o) .acc h o.q [] 0 0 0x05 (spadRangeVal (accAddr s o) 8) s := by
  have hi : exec (.ldsb h o) s = execLdsb h o s := rfl
  unfold execLdsb at hi
  refine .of_test hi fun es c' m => ?_
  rw [hr.chkG, State.spadChk_outside hout]
  rfl
theorem sts_raises (hr : GReady s [o.a, o.d])
    (hout : ¬SpadInside (accAddr s o) (if o.d.toNat < 32 then 8 else 256) (if o.d.toNat < 32 then 8 else 32)) :
    EngRaises (.sts h o) .acc h o.q (accPops [o.d]) 0 0 0x05 (spadRangeVal (accAddr s o) (if o.d.toNat < 32 then 8 else 32)) s := by
  have hi : exec (.sts h o) s = execSts h o s := rfl
  unfold execSts at hi
  refine .of_test hi fun es c' m => ?_
  rw [hr.chkG, State.spadChk_outside hout]
  rfl

end

/-- Settles O27: scratchpad words read what is seen through the stores in flight (`getD_spadSeen`), and write as `EngEff.accStore` says. -/
theorem accessScratchpad : Obligations.AccessScratchpad := by
  unfold Obligations.AccessScratchpad
  intro h o s a inside out seen reg len
  exact ⟨fun hr hin hp hlo hhi hroom => lds_does h o s hr hin hp hlo hhi hroom, fun hr hin hp => ldsb_does h o s hr hin hp, fun hr hin => sts_does h o s hr hin,
    lds_raises h o s, ldsb_raises h o s, sts_raises h o s⟩

end Sys2Proof.Machine
end

section
/-! PROOFS of the AccessSequence statement (O30): loops, outcome bits, circular buffers, levels, queue control and page requests of the access sequencer. -/

set_option Elab.async false

namespace Sys2Proof.Machine

/-! ### Words that change the engine (R375 to R377, R379) -/

/-- A change of ACC's own state, by the coordinate levels of the core. -/
theorem EngEff.modAcc {s0 s1 s2 : State} {n k : Nat} {base : Core} {tx : List Nat} {post : EngSt → EngSt} (ef : EngEff s0 s1 s2 .acc n k base tx post)
    (g : List Nat → EngSt → EngSt) :
    EngEff s0 s1 (s2.modCore n fun c => { c with acc := g c.cw c.acc }) .acc n k base tx fun x => g base.cw (post x) :=
  ef.core_to (.modCore ..) (by rw [State.core_modCore_self, ef.core]; rfl)
theorem Core.cw_congr {c c' : Core} (h : c'.task = c.task) : c'.cw = c.cw := by unfold Core.cw; rw [h]

theorem loopAcc_word (h : Hdr) (fx : BitVec 3) (o : RI) : (Instr.loopAcc h fx o).word = packRI h 0x38 (fx.setWidth 3) o := by
  show packRI h 0x38 ((0 : BitVec 3) ||| (fx.setWidth 3 <<< 0)) o = _
  simp only [BitVec.shiftLeft_zero, BitVec.ofNat_eq_ofNat, BitVec.zero_or]

/-- A word of ACC that frees one register and changes the engine. -/
theorem EngDoes.of_modAcc {i : Instr} {h : Hdr} {w : Word} {guard : BitVec 4} {chk : Word → Option Body} {x : BitVec 6 × Bool} {g : List Nat → EngSt → EngSt}
    {post : EngSt → EngSt} {s : State}
    (hi : exec i s = engWord .acc h w guard chk [] 0 0 (fun e _ _ _ s' => .done ((s'.freeG e [x]).modCore s.cur fun c => { c with acc := g c.cw c.acc })) s)
    (hchk : ∀ e, chk e = none)
    (hpost : ∀ e y, y = { s.me.acc with elast := e, iss := y.iss, before := y.before } → g s.me.cw y = post y) :
    EngDoes i .acc h h guard [] 0 0 [] (fun e _ c0 c => FreedG s e [x] c0.deadG c.deadG ∧ c = { c0 with deadG := c.deadG }) (fun _ y => post y) s := by
  refine EngDoes.congr_post (post := fun _ y => g s.me.cw y) (.of_done hi (fun es c' m => hchk _) fun es c' s1 m iss => ?_) fun _ e y hy => hpost e y hy
  obtain ⟨dead, ef, hg⟩ := iss.freed m [x]
  obtain ⟨-, -, -, hptask, hphold⟩ := m.popped
  have ef2 := ef.modAcc g
  have hcw : Core.cw { c'.dropBits .acc 0 with deadG := dead } = s.me.cw := Core.cw_congr hptask
  rw [hcw] at ef2
  exact ⟨_, 0, _, rfl, ef2, by omega, hphold, hptask, hg, rfl⟩

theorem loopAcc_does (h : Hdr) (fx : BitVec 3) (o : RI) (s : State) :
     let reg := o.imm.getLsbD 22
     let count := if reg then (s.rdG o.a).toNat else (o.imm.extractLsb' 0 16).toNat
     (reg = true → GReady s [o.a]) →
     (loopOk s.me.cw s.me.acc o fx.toNat count = true → (count = 0 → o.d.toNat + 1 < (s.me.acc.ring.tail - s.me.acc.ring.head).toNat) →
       EngDoes (.loopAcc h fx o) .acc h h 0 [] 0 0 [] (fun e _ c0 c => FreedG s e [(o.a, o.la)] c0.deadG c.deadG ∧ c = { c0 with deadG := c.deadG })
         (fun _ y => if count = 0 then { y with ring := { y.ring with head := y.ring.head + BitVec.ofNat 16 (o.d.toNat + 1) } } else
           { y with sp := 1, crd := if fx.toNat = 0 then y.crd else lvlSet s.me.cw fx.toNat y.crd (lvlGet s.me.cw fx.toNat s.me.acc.crd)
                    loops := { start := y.ring.head + 1, len := o.d.toNat + 1, lvl := fx.toNat, lvl0 := lvlGet s.me.cw fx.toNat s.me.acc.crd, count := count,
                               stages := (o.imm.extractLsb' 16 3).toNat + 1, epi := (o.imm.extractLsb' 19 3).toNat } :: y.loops }) s) ∧
     (loopOk s.me.cw s.me.acc o fx.toNat count = false → EngRaises (.loopAcc h fx o) .acc h 0 [] 0 0 0x01 (Instr.loopAcc h fx o).word s) := by
  intro reg count hready
  have hi : exec (.loopAcc h fx o) s = engWord .acc h (Instr.loopAcc h fx o).word 0
    (fun _ => orTest (if reg = true then s.chkG (Instr.loopAcc h fx o).word [o.a] else none)
      (if loopOk s.me.cw s.me.acc o fx.toNat count then stallUnless (count != 0 || s.me.acc.bodyIn (o.d.toNat + 1)) else some (.fault fIllegal (Instr.loopAcc h fx o).word)))
      [] 0 0
    (fun e _ _ _ s' => .done ((s'.freeG e [(o.a, o.la)]).modCore s.cur fun c => { c with acc := startLoop c.cw o fx.toNat count c.acc })) s := by
    rw [loopAcc_word]
    exact .refl (execLoopAcc h fx o s)
  have hregs : (if reg = true then s.chkG (Instr.loopAcc h fx o).word [o.a] else none) = none := by
    split
    · exact (hready ‹_›).chkG _
    · rfl
  refine ⟨fun hok hbody => ?_, fun hbad => .of_test hi fun es c' m => ?_⟩
  · refine .of_modAcc (g := fun cw x => startLoop cw o fx.toNat count x) hi (fun e => ?_) fun e y hy => ?_
    · show orTest (if reg = true then s.chkG (Instr.loopAcc h fx o).word [o.a] else none) (if loopOk s.me.cw s.me.acc o fx.toNat count = true then
        stallUnless (count != 0 || s.me.acc.bodyIn (o.d.toNat + 1)) else _) = none
      rw [hregs, if_pos hok, stallUnless, if_pos]
      · rfl
      · rw [Bool.or_eq_true, bne_iff_ne, EngSt.bodyIn, decide_eq_true_eq]
        by_cases hz : count = 0
        · exact .inr (hbody hz)
        · exact .inl hz
    · have hcrd : y.crd = s.me.acc.crd := by rw [hy]
      show startLoop s.me.cw o fx.toNat count y = _
      by_cases hz : count = 0
      · rw [if_pos hz, hz, startLoop_zero]
      · rw [if_neg hz, startLoop_pos _ _ _ hz, hcrd]
  · show orTest (if reg = true then s.chkG (Instr.loopAcc h fx o).word [o.a] else none) (if loopOk s.me.cw s.me.acc o fx.toNat count = true then _ else _) = _
    rw [hregs, if_neg (Bool.eq_false_iff.mp hbad)]
    rfl

/-- SETCL and INCCL on ACC (R379). -/
theorem accLevel_does {j : Instr} {h : Hdr} {o : RRI} {s : State} {f : Nat → Nat → Nat} (hj : exec j s = accLevel h j.word o f s) (v : Nat)
    (hv : v = f (lvlGet s.me.cw (rriLvl o) s.me.acc.crd) ((if o.d = 1 then (s.rdG o.a).toNat else 0) + (o.imm.extractLsb' 3 11).toNat)) :
     let lvl := (o.imm.extractLsb' 0 3).toNat
     let ok := lvl ≤ 5 ∧ lvlWidth s.me.cw lvl ≠ 0 ∧ v < 2 ^ lvlWidth s.me.cw lvl
     (o.d = 1 → GReady s [o.a]) →
     (ok → EngDoes j .acc h h o.q [] 0 0 [] (fun e _ c0 c => FreedG s e [(o.a, o.la)] c0.deadG c.deadG ∧ c = { c0 with deadG := c.deadG })
       (fun _ y => { y with crd := lvlSet s.me.cw lvl y.crd v }) s) ∧
     (¬ok → EngRaises j .acc h o.q [] 0 0 0x01 j.word s) := by
  intro lvl ok hready
  have hi : exec j s = engWord .acc h j.word o.q
    (fun _ => orTest (if o.d = 1 then s.chkG j.word [o.a] else none) (if lvlOk s.me.cw lvl v then none else some (.fault fIllegal j.word))) [] 0 0
    (fun e _ _ _ s' => .done ((s'.freeG e [(o.a, o.la)]).modCore s.cur fun c => { c with acc := { c.acc with crd := lvlSet c.cw lvl c.acc.crd v } })) s := by
    rw [hj, hv]
    unfold accLevel
    simp only [beq_iff_eq]
    rfl
  have hregs : (if o.d = 1 then s.chkG j.word [o.a] else none) = none := by
    split
    · exact (hready ‹_›).chkG _
    · rfl
  refine ⟨fun hok => ?_, fun hbad => .of_test hi fun es c' m => ?_⟩
  · refine .of_modAcc (g := fun cw x => { x with crd := lvlSet cw lvl x.crd v }) hi (fun e => ?_) fun _ _ _ => rfl
    rw [hregs, if_pos ((lvlOk_iff ..).mpr hok)]
    rfl
  · rw [hregs, if_neg fun hl => hbad ((lvlOk_iff ..).mp hl)]
    rfl

theorem sloop_word (h : Hdr) (fx : BitVec 1) (o : RI) : (Instr.sloop h fx o).word = packRI h 0x39 (fx.setWidth 3) o := by
  show packRI h 0x39 ((0 : BitVec 3) ||| (fx.setWidth 3 <<< 0)) o = _
  simp only [BitVec.shiftLeft_zero, BitVec.ofNat_eq_ofNat, BitVec.zero_or]

/-- SLOOP (R376). -/
theorem sloop_does (h : Hdr) (fx : BitVec 1) (o : RI) (s : State) :
     (s.me.acc.loops = [] → EngDoes (.sloop h fx o) .acc h h 0 [] 0 0 [] (fun _ _ c0 c => c = c0)
       (fun _ y => { y with sp := 1, loops := [{ sloop := true, sq := fx.toNat, start := y.ring.head + 1, len := o.d.toNat + 1, count := 1 }] }) s) ∧
     (s.me.acc.loops ≠ [] → EngRaises (.sloop h fx o) .acc h 0 [] 0 0 0x01 (Instr.sloop h fx o).word s) := by
  have hi : exec (.sloop h fx o) s = engWord .acc h (Instr.sloop h fx o).word 0
    (fun _ => if s.me.acc.loops.isEmpty then none else some (.fault fIllegal (Instr.sloop h fx o).word)) [] 0 0
    (fun _ _ _ _ s' => .done (s'.modCore s.cur fun c => c.modEng .acc fun y =>
      { y with sp := 1, loops := [{ sloop := true, sq := fx.toNat, start := y.ring.head + 1, len := o.d.toNat + 1, count := 1 }] })) s := by
    rw [sloop_word]
    exact .refl (execSloop h fx o s)
  refine ⟨fun hl => .of_done hi (fun es c' m => ?_) fun es c' s1 m iss => ?_, fun hl => .of_test hi fun es c' m => ?_⟩
  · rw [hl]
    rfl
  · obtain ⟨-, -, -, hptask, hphold⟩ := m.popped
    exact ⟨_, 0, _, rfl, iss.eff.modEng fun y => { y with
      sp := 1, loops := [{ sloop := true, sq := fx.toNat, start := y.ring.head + 1, len := o.d.toNat + 1, count := 1 }] }, by omega, hphold, hptask, rfl⟩
  · rw [if_neg]
    · rfl
    · rwa [List.isEmpty_iff]

/-- BPUSH and BSKIP on ACC (R377). -/
theorem bpushAcc_does (h : Hdr) (o : RRI) (s : State) (hr : GReady s [o.a]) (hroom : s.me.boqA.length < 64) :
    EngDoes (.bpushAcc h o) .acc h h o.q [] 0 0 []
       (fun e _ c0 c => FreedG s e [(o.a, o.la)] c0.deadG c.deadG ∧
         c = { c0 with deadG := c.deadG, boqA := c0.boqA ++ [{ bit := (s.rdG o.a).getLsbD 0, e := e }] }) (fun _ y => y) s := by
  have hi : exec (.bpushAcc h o) s = execBpushAcc h o s := rfl
  unfold execBpushAcc at hi
  refine .of_done hi (fun es c' m => ?_) fun es c' s1 m iss => ?_
  · rw [hr.chkG]
    show stallUnless (s.accRoom 38) = none
    rw [show s.accRoom 38 = decide (s.me.boqA.length < 64) from rfl, decide_eq_true hroom]
    rfl
  · obtain ⟨dead, ef, hg⟩ := iss.freed m [(o.a, o.la)]
    obtain ⟨-, -, -, hptask, hphold⟩ := m.popped
    exact ⟨_, 0, _, rfl, ef.mod (fun c => { c with boqA := c.boqA ++ [{ bit := (s.rdG o.a).getLsbD 0, e := s.engCrd .acc h es 0 0 }] }) fun _ _ _ _ => rfl, by omega,
      hphold, hptask, hg, rfl⟩
theorem take_one_head? {α : Type} (l : List α) : (l.take 1).head? = l.head? := by cases l <;> rfl
theorem bskipAcc_does (h : Hdr) (o : RRI) (s : State) :
     let one := (s.me.boqX.head?.map (·.bit)).getD false
     (one = false ∨ o.imm.toNat ≤ s.me.acc.skipRoom → EngDoes (.bskipAcc h o) .acc h h o.q [] 1 0 [] (fun _ _ c0 c => c = c0)
       (fun _ y => if one = true then { y with skip := o.imm.toNat } else y) s) ∧
     (one = true → s.me.acc.skipRoom < o.imm.toNat → EngRaises (.bskipAcc h o) .acc h o.q [] 1 0 0x01 (Instr.bskipAcc h o).word s) := by
  intro one
  have hi : exec (.bskipAcc h o) s = execBskipAcc h o s := rfl
  unfold execBskipAcc at hi
  have hone : (((s.me.boq .acc).take 1).head?.map (·.bit)).getD false = one := by
    rw [take_one_head?]
    rfl
  refine ⟨fun hok => .of_done hi (fun _ _ _ => rfl) fun es c' s1 m iss => ?_, fun h1 hroom => .of_body hi (fun _ _ _ => rfl) fun es c' s1 m => ?_⟩
  · obtain ⟨-, -, -, hptask, hphold⟩ := m.popped
    rw [hone]
    rcases hb : one with _ | _
    · exact ⟨_, 0, _, rfl, iss.eff, by omega, hphold, hptask, rfl⟩
    · have hle : ¬s.me.acc.skipRoom < o.imm.toNat := Nat.not_lt.mpr (hok.resolve_left (by rw [hb]; exact Bool.noConfusion))
      rw [if_neg hle]
      exact ⟨_, 0, _, rfl, iss.eff.modEng fun y => { y with skip := o.imm.toNat }, by omega, hphold, hptask, rfl⟩
  · rw [hone, h1, if_pos hroom]
    rfl

/-! ### Circular buffers and queue control (R378, R380) -/

/-- A circular buffer changed and logged. -/
theorem EngEff.setCb {s s1 s2 : State} {k : Nat} {c0 : Core} (ef : EngEff s s1 s2 .acc s.cur k c0 [] fun x => x) (i : Nat) (e : Word) (x : Cb) :
    EngEff s s1 (s2.setCb s.cur .acc i e x) .acc s.cur (k + 1) { c0 with cbs := c0.cbs.set none i (some x) } [] fun x => x := by
  obtain ⟨ho, hc, hl⟩ := s2.setCb_core s.cur .acc i e x
  exact ef.more ho (fun c => { c with cbs := c.cbs.set none i (some x) }) hc (fun _ _ _ _ => rfl) hl

section
variable (h : Hdr) (o : RRI) {s : State} {b : Cb} (hb : s.me.cbs.get none (rriCb o) = some b)
include hb
theorem cbacq_does (hfull : b.filled ≠ 0) (hd : o.d.toNat < 32) : EngDoes (.cbacq h o) .acc h h o.q [] 0 b.tag [] (fun e _ c0 c =>
    GDest s { c0 with cbs := c0.cbs.set none (rriCb o) (some { b with filled := b.filled - 1, acquired := b.acquired + 1, ridx := (b.ridx + 1) % cbSlots b.w0 }) } c o.d e
      (BitVec.ofNat 64 (cbBase b.w0 + cbSlotBytes b.w0 * b.ridx)) o.lat []) (fun _ y => y) s := by
  have hi : exec (.cbacq h o) s = execCbacq h o s := rfl
  unfold execCbacq at hi
  dsimp only at hi
  rw [hb] at hi
  refine .of_done hi (fun _ _ _ => by dsimp only; rw [stallUnless, if_pos (by simpa using hfull)]) fun es c' s1 m iss => ?_
  have hidx := (iss.eff.setCb (rriCb o) (s.engCrd .acc h es 0 b.tag) { b with filled := b.filled - 1, acquired := b.acquired + 1, ridx := (b.ridx + 1) % cbSlots b.w0 }).gIdx iss m o.d
  obtain ⟨-, -, -, hptask, hphold⟩ := m.popped
  have ef := iss.eff.setCb (rriCb o) (s.engCrd .acc h es 0 b.tag) { b with filled := b.filled - 1, acquired := b.acquired + 1, ridx := (b.ridx + 1) % cbSlots b.w0 }
  obtain ⟨c0, hc0⟩ : ∃ c0 : Core, c0 = { c'.dropBits .acc 0 with
      cbs := (c'.dropBits .acc 0).cbs.set none (rriCb o) (some { b with filled := b.filled - 1, acquired := b.acquired + 1, ridx := (b.ridx + 1) % cbSlots b.w0 }) } := ⟨_, rfl⟩
  rw [← hc0] at ef
  have hfreed : FreedG s (s.engCrd .acc h es 0 b.tag) [] c0.deadG c0.deadG := fun k => (if_neg (by simp)).symm
  refine ⟨_, 2, _, rfl, ef.wrG o.d hidx _ _ o.lat, by omega, ?_, ?_, ?_⟩
  · rw [hc0]
    exact hphold
  · rw [hc0]
    exact hptask
  · rw [← hc0]
    exact hfreed.reg_dest o.d _ o.lat hd _
theorem cbrel_does (hacq : b.acquired ≠ 0) : EngDoes (.cbrel h o) .acc h h o.q [] 0 0 [] (fun _ _ c0 c =>
    c = { c0 with cbs := c0.cbs.set none (rriCb o) (some { b with acquired := b.acquired - 1, free := b.free + 1 }) }) (fun _ y => y) s := by
  have hi : exec (.cbrel h o) s = execCbrel h o s := rfl
  unfold execCbrel at hi
  dsimp only at hi
  rw [hb] at hi
  refine .of_done hi (fun _ _ _ => if_neg (by simpa using hacq)) fun es c' s1 m iss => ?_
  obtain ⟨-, -, -, hptask, hphold⟩ := m.popped
  exact ⟨_, 1, _, rfl, iss.eff.setCb (rriCb o) (s.engCrd .acc h es 0 0) { b with acquired := b.acquired - 1, free := b.free + 1 }, by omega, hphold, hptask, rfl⟩
theorem cbrel_raises (hacq : b.acquired = 0) : EngRaises (.cbrel h o) .acc h o.q [] 0 0 0x01 (Instr.cbrel h o).word s := by
  have hi : exec (.cbrel h o) s = execCbrel h o s := rfl
  unfold execCbrel at hi
  dsimp only at hi
  rw [hb] at hi
  exact .of_test hi fun _ _ _ => if_pos (by simpa using hacq)
end

/-- A queue of either kind changed. -/
theorem Core.setQueue_frame (c : Core) (q : Nat) (l : List QEnt) :
    c.setQueue q l = { c with dq := if q < 4 then c.dq.set [] q l else c.dq, sq := if q < 4 then c.sq else c.sq.set [] (q - 4) l } := by
  unfold Core.setQueue
  split <;> rfl

/-- DQFLUSH (R380): a discarded load lands nowhere. -/
theorem dqflush_does (h : Hdr) (o : RRI) (s : State) (hh : (s.engCrd .acc h [] 0 0).toNat ≤ (s.horizonOf s.cur).toNat) :
    EngDoes (.dqflush h o) .acc h h o.q [] 0 0 [] (fun _ _ c0 c =>
      c = { c0.setQueue (rriQueue o) [] with landQ := c0.landQ.map fun l => if l.queue.map (·.1) = some (rriQueue o) then { l with queue := none } else l }) (fun _ y => y) s := by
  have hi : exec (.dqflush h o) s = execDqflush h o s := rfl
  unfold execDqflush at hi
  dsimp only at hi
  refine .of_done hi (fun es c' m => ?_) fun es c' s1 m iss => ?_
  · have hstop := m.noStop
    obtain ⟨rfl, -⟩ := m.none_popped
    rw [hstop, BitVec.ule_eq_decide, decide_eq_true hh]
    rfl
  · obtain ⟨-, -, -, hptask, hphold⟩ := m.popped
    refine ⟨_, 0, _, rfl, iss.eff.mod (fun c => { c.setQueue (rriQueue o) [] with
      landQ := c.landQ.map fun l => if (l.queue.map (·.1)) == some (rriQueue o) then { l with queue := none } else l }) fun c x tok peel => ?_, by omega, ?_, ?_, ?_⟩
    · rw [c.setQueue_frame, Core.setQueue_frame]
      rfl
    · rw [Core.setQueue_frame]
      exact hphold
    · rw [Core.setQueue_frame]
      exact hptask
    · simp only [beq_iff_eq]
/-- DQEOS (R380). -/
theorem dqeos_does (h : Hdr) (o : RRI) (s : State) (hroom : (s.me.queue (rriQueue o)).length < 16) :
    EngDoes (.dqeos h o) .acc h h o.q [] 0 0 [] (fun e _ c0 c =>
      c = c0.setQueue (rriQueue o) (c0.queue (rriQueue o) ++ [{ eos := true, e := e, id := s.nextId }])) (fun _ y => y) s := by
  have hi : exec (.dqeos h o) s = execDqeos h o s := rfl
  unfold execDqeos at hi
  dsimp only at hi
  refine .of_done hi (fun _ _ _ => ?_) fun es c' s1 m iss => ?_
  · rw [stallUnless, if_pos]
    rw [Core.queueFull, decide_eq_false (p := queueCap ≤ _) (Nat.not_le.mpr hroom)]
    rfl
  · obtain ⟨-, -, -, hptask, hphold⟩ := m.popped
    have hcur : s1.cur = s.cur := iss.only.cur
    unfold State.pushQ
    rw [hcur]
    refine ⟨_, 0, _, rfl, iss.eff.mod (fun c => c.setQueue (rriQueue o) (c.queue (rriQueue o) ++ [{ eos := true, e := s.engCrd .acc h es 0 0, id := s.nextId }]))
      fun c x tok peel => ?_, by omega, ?_, ?_, rfl⟩
    · rw [Core.setQueue_frame, c.setQueue_frame]
      rfl
    · rw [Core.setQueue_frame]
      exact hphold
    · rw [Core.setQueue_frame]
      exact hptask

/-! ### Page requests (R381) -/

/-- A page request posted at the end of an ACC word names the core as it stood. -/
theorem EngIssued.postPage {s s1 : State} {e0 : Word} {ts : List (Nat × Nat)} (i : EngIssued s s1 .acc e0 ts s.me) (e : Word) (tid : BitVec 10) (tile : Nat) :
    s1.postPage s.cur e tid tile = s1.posted (s.pgRec e tid tile) := by
  have hcid : (s1.core s.cur).cid = s.me.cid := by rw [i.core]; rfl
  have hinc : (s1.core s.cur).inc = s.me.inc := by rw [i.core]; rfl
  have hg : s1.gts = s.gts := by rw [i.only.1]
  have hs : s1.src s.cur = s.src s.cur := by rw [i.only.1]; rfl
  unfold State.postPage State.posted State.pgRec
  dsimp only
  rw [hcid, hinc, hg, hs]

/-- The tile for which PGREQ posts, or the fault of coordinates that name none. -/
def State.accTile (s : State) (e w : Word) (o : TN) : Nat ⊕ Body :=
  match s.accTensor e o with
  | .inr b => .inr b
  | .inl (d, x) =>
    match s.chkBase e w o with
    | some b => .inr b
    | none => match d.locate x with | some (t, _) => .inl t | none => .inr (.fault fTensorBounds (o.tid.setWidth 64))

section
variable {s : State} {e : Word} {o : TN}

theorem State.accTile_none (w : Word) (hd : s.tdesc s.cur e o.tid = none) : s.accTile e w o = .inr (.fault fTensorBounds (o.tid.setWidth 64)) := by
  simp only [State.accTile, State.accTensor, hd]
variable {d : TDesc} (hd : s.tdesc s.cur e o.tid = some d)
include hd
theorem State.accTile_base (w : Word) (hn : 32 < o.g.toNat + d.rank) : s.accTile e w o = .inr (.fault fTensorBounds (o.tid.setWidth 64)) := by
  simp only [State.accTile, State.accTensor, hd, if_pos hn]
/-- Registers that are ready give the coordinates, which name a tile or none. -/
theorem State.accTile_ready (w : Word) (hn : o.g.toNat + d.rank ≤ 32) (hr : GReady s ((List.range d.rank).map fun i => o.g + BitVec.ofNat 6 i)) :
    s.accTile e w o = match d.locate ((List.range d.rank).map fun i => (s.rdG (o.g + BitVec.ofNat 6 i)).toNat) with
      | some (t, _) => .inl t
      | none => .inr (.fault fTensorBounds (o.tid.setWidth 64)) := by
  have hx : (gBase o.g d.rank).map (fun r => (s.rdG r).toNat) = (List.range d.rank).map fun i => (s.rdG (o.g + BitVec.ofNat 6 i)).toNat := List.map_map ..
  have hc : s.chkBase e w o = none := by
    simp only [State.chkBase, hd]
    exact hr.chkG w
  simp only [State.accTile, State.accTensor, hd, if_neg (Nat.not_lt.mpr hn), hc, hx]
end

section
variable {h : Hdr} {o : TN} {s : State}

theorem pgreqAcc_word (h : Hdr) (o : TN) (s : State) : exec (.pgreqAcc h o) s = engWord .acc h (packTN h 0x3E 0 o) (guardOf o.q)
    (fun e => match s.accTile e (packTN h 0x3E 0 o) o with | .inr b => some b | .inl _ => none) [] 0 0
    (fun e _ _ _ s' => match s.accTile e (packTN h 0x3E 0 o) o with | .inr b => b | .inl t => .done (s'.postPage s.cur e o.tid t)) s :=
  .refl (execPgreqAcc h o s)
theorem pgreqAcc_raises {v : Word} (ht : s.accTile (s.engCrd .acc h [] 0 0) (packTN h 0x3E 0 o) o = .inr (.fault 0x08 v)) :
    EngRaises (.pgreqAcc h o) .acc h (o.q.extractLsb' 0 4) [] 0 0 0x08 v s :=
  .of_test (pgreqAcc_word h o s) fun es c' m => by
    obtain ⟨rfl, -⟩ := m.none_popped
    rw [ht]
/-- The request is posted, merged or dropped (R219), and the word does not wait. -/
theorem pgreqAcc_posts {tile : Nat} (ht : s.accTile (s.engCrd .acc h [] 0 0) (packTN h 0x3E 0 o) o = .inl tile) (es : List (Nat × QEnt)) (c' : Core)
    (m : EngMay s .acc h (o.q.extractLsb' 0 4) [] 0 0 es c') :
    ∃ t, exec (.pgreqAcc h o) s = .next t ∧ EngRan s t .acc h (s.engCrd .acc h [] 0 0) s.me [] (fun y => y) (s.posted (s.pgRec (s.engCrd .acc h [] 0 0) o.tid tile)) := by
  obtain ⟨-, -, -, hptask, hphold⟩ := m.popped
  have hnone := m.none_popped
  obtain ⟨rfl, rfl⟩ := hnone
  obtain ⟨s1, iss, hx⟩ := engWord_exit m (packTN h 0x3E 0 o) (fun e => match s.accTile e (packTN h 0x3E 0 o) o with | .inr b => some b | .inl _ => none)
    (by rw [ht]) (fun e _ _ _ s' => match s.accTile e (packTN h 0x3E 0 o) o with | .inr b => b | .inl t => .done (s'.postPage s.cur e o.tid t))
  obtain ⟨ho, hc⟩ := iss.only.posted (s.pgRec (s.engCrd .acc h [] 0 0) o.tid tile)
  have ef : EngEff (s.posted (s.pgRec (s.engCrd .acc h [] 0 0) o.tid tile)) s1 (s1.posted (s.pgRec (s.engCrd .acc h [] 0 0) o.tid tile)) .acc s.cur 0 s.me [] fun y => y :=
    ⟨ho, by rw [hc]; exact iss.core, fun _ _ => by rw [hc], by rw [hc]; exact Nat.le_refl _⟩
  obtain ⟨hdone, -⟩ := hx _ _ 0 s.me [] (fun y => y) (by omega) (by have := m.room; omega) rfl (.inr (by simp)) (s.posted_cur _) ef
  obtain ⟨t, hexec, -, hran⟩ := hdone (by rw [ht]; exact congrArg Body.done (iss.postPage ..))
  exact ⟨t, (pgreqAcc_word h o s).trans hexec, hran⟩
end

/-- Settles O30: each word by its lemma, the loops and levels by what `loopOk` and `lvlOk` test. -/
theorem accessSequence : Obligations.AccessSequence := by
  unfold Obligations.AccessSequence
  refine ⟨⟨fun h fx o s => ?_, sloop_does, fun h o s => ?_⟩, fun h o s => ?_, fun h o s => ?_⟩
  · intro reg count stages epi len lvl x v legal hready
    obtain ⟨hgood, hbad⟩ := loopAcc_does h fx o s hready
    exact ⟨fun hl => hgood ((loopOk_iff ..).mpr hl), fun hl => hbad (Bool.eq_false_iff.mpr fun hk => hl ((loopOk_iff ..).mp hk))⟩
  · exact ⟨bpushAcc_does h o s, (bskipAcc_does h o s).1, (bskipAcc_does h o s).2⟩
  · intro i lvl q a level
    refine ⟨fun b hb => ?_, fun hnone => ?_, ?_, ?_, dqflush_does h o s, dqeos_does h o s⟩
    · exact ⟨cbacq_does h o hb, cbrel_does h o hb, cbrel_raises h o hb⟩
    · have hacq : exec (.cbacq h o) s = execCbacq h o s := rfl
      have hrel : exec (.cbrel h o) s = execCbrel h o s := rfl
      unfold execCbacq at hacq
      unfold execCbrel at hrel
      dsimp only at hacq hrel
      have hnone' : s.me.cbs.get none (rriCb o) = none := hnone
      rw [hnone'] at hacq hrel
      exact ⟨.of_test hacq fun _ _ _ => rfl, .of_test hrel fun _ _ _ => rfl⟩
    · exact accLevel_does (j := .setclAcc h o) (f := fun _ v => v) (.refl (execSetclAcc h o s)) _ rfl
    · exact accLevel_does (j := .incclAcc h o) (f := fun x v => x + v) (.refl (execIncclAcc h o s)) _ rfl
  · intro guard e x ready bad
    refine ⟨fun hd => pgreqAcc_raises (s.accTile_none _ hd), fun d hd => ⟨fun hn => pgreqAcc_raises (State.accTile_base hd _ hn), fun hn hr hx => ?_, fun tile off hn hr hx => ?_⟩⟩
    · refine pgreqAcc_raises ((State.accTile_ready hd _ hn hr).trans ?_)
      have hx' : d.locate ((List.range d.rank).map fun i => (s.rdG (o.g + BitVec.ofNat 6 i)).toNat) = none := hx
      rw [hx']
      rfl
    · intro r same does
      have ht : s.accTile e (packTN h 0x3E 0 o) o = .inl tile := by
        have hx' : d.locate ((List.range d.rank).map fun i => (s.rdG (o.g + BitVec.ofNat 6 i)).toNat) = some (tile, off) := hx
        rw [State.accTile_ready hd _ hn hr, hx']
      have hpost : does (s.posted r) := fun es c' m => pgreqAcc_posts ht es c' m
      refine ⟨fun hs => ?_, fun hs hlt => ?_, fun hs hge => ?_⟩
      · rw [State.posted_same hs] at hpost
        exact hpost
      · rw [State.posted_new hs, if_neg (Nat.not_le.mpr hlt)] at hpost
        exact hpost
      · rw [State.posted_new hs, if_pos hge] at hpost
        exact hpost

end Sys2Proof.Machine
end

section
/-! PROOFS of the ExecuteCommit statement (O36): the oldest issued word of the execute sequencer commits, its effects made in order (R251, R366, R368, R402). -/

set_option Elab.async false

namespace Sys2Proof.Machine

/-! ### Folds over the effects of a word -/

theorem foldl_last {α : Type} (l : List α) (a : α) : l.foldl (fun _ y => y) a = l.getLast?.getD a := by
  induction l generalizing a with
  | nil => rfl
  | cons b l ih => rw [List.foldl_cons, ih, List.getLast?_cons, Option.getD_some]
theorem foldl_append_one {α : Type} (l m : List α) : l.foldl (fun acc y => acc ++ [y]) m = m ++ l := by
  induction l generalizing m with
  | nil => rw [List.foldl_nil, List.append_nil]
  | cons b l ih => rw [List.foldl_cons, ih, List.append_assoc, List.singleton_append]
theorem foldl_add (l : List Nat) (a : Nat) : l.foldl (· + ·) a = a + l.sum := by
  induction l generalizing a with
  | nil => rfl
  | cons b l ih => rw [List.foldl_cons, ih, List.sum_cons, Nat.add_assoc]

/-- What a part of the state becomes under the effects of a word, when `pick` says of each effect what it adds to that part and `op` how. -/
theorem State.exeApplyAll_fold {α β : Type} {get : State → β} {pick : ExeEff → Option α} {op : β → α → β} {n : Nat} {fs : List ExeEff}
    (h : ∀ u, ∀ f ∈ fs, get (u.exeApply n f) = ((pick f).map (op (get u))).getD (get u)) (s : State) : get (s.exeApplyAll n fs) = (fs.filterMap pick).foldl op (get s) := by
  induction fs generalizing s with
  | nil => rfl
  | cons f fs ih =>
    rw [State.exeApplyAll, ih (fun u f hf => h u f (List.mem_cons_of_mem _ hf)), h s f (List.mem_cons_self ..), List.filterMap_cons]
    cases pick f <;> rfl
theorem State.exeApplyAll_keep {β : Type} {get : State → β} {n : Nat} {fs : List ExeEff} (h : ∀ u, ∀ f ∈ fs, get (u.exeApply n f) = get u) (s : State) :
    get (s.exeApplyAll n fs) = get s := by
  rw [State.exeApplyAll_fold (get := get) (pick := fun _ => (none : Option Unit)) (op := fun b _ => b) h, List.filterMap_none]
  rfl

/-! ### One effect -/

/-- What an effect does to its core, `seen` being the numeric flags that the core and its context hold. -/
def ExeEff.onCore (seen : BitVec 8) (c : Core) : ExeEff → Core
  | .v r x => { c with v := c.v.set 0 r x, deadV := c.deadV.set none r none }
  | .p r x => { c with p := c.p.set 0 r x }
  | .q r x => { c with q := c.q.set {} r x, deadQ := c.deadQ.set none r none }
  | .push sq x => c.setQueue (4 + sq) (c.queue (4 + sq) ++ [x])
  | .bit b => { c with boqX := c.boqX ++ [b] }
  | .flags f => { c with flags := c.flags ||| f }
  | .clearFlags _ => { c with flags := 0 }
  | .defer rs => match c.defBase with | some b => c.appendDef b rs | none => c
  | .deferHead k => { c with defHead := c.defHead + k }
  | .vflags r => { c with v := c.v.set 0 r (ofLanes 4 (List.replicate 64 seen.toNat)), deadV := c.deadV.set none r none }
  | .pushFlags sq e => c.setQueue (4 + sq) (c.queue (4 + sq) ++ [{ data := ofLanes 4 (List.replicate 64 seen.toNat), e := e }])

theorem State.putFlags_core (u : State) (cid : BitVec 12) (f : BitVec 8) (m : Nat) : (u.putFlags cid f).core m = u.core m := by
  unfold State.putFlags State.putGpa State.core
  rw [State.putCells_cores]
theorem State.exeApply_core (u : State) (n : Nat) (f : ExeEff) :
    (u.exeApply n f).core n = f.onCore ((u.core n).flags ||| u.imgFlags (u.core n).cid) (u.core n) := by
  cases f with
  | clearFlags b => cases b with
    | false => exact u.core_modCore_self n fun c => { c with flags := 0 }
    | true => exact (State.putFlags_core ..).trans (u.core_modCore_self ..)
  | _ => exact u.core_modCore_self ..
/-- But for the context's flag word an effect stays on its core. -/
theorem State.exeApply_only (u : State) (n : Nat) {f : ExeEff} (hf : f ≠ .clearFlags true) : CoreOnly u (u.exeApply n f) n := by
  cases f with
  | clearFlags b => cases b with
    | false => exact .modCore u n fun c => { c with flags := 0 }
    | true => exact absurd rfl hf
  | _ => unfold State.exeApply; exact .modCore ..
theorem State.exeApply_others (u : State) (n : Nat) (f : ExeEff) {m : Nat} (hm : m ≠ n) : (u.exeApply n f).core m = u.core m := by
  by_cases hf : f = .clearFlags true
  · subst hf
    exact (State.putFlags_core ..).trans (u.core_modCore_ne _ hm)
  · exact (u.exeApply_only n hf).2 m hm
theorem State.exeApplyAll_only {n : Nat} {fs : List ExeEff} (hf : ExeEff.clearFlags true ∉ fs) (s : State) : CoreOnly s (s.exeApplyAll n fs) n := by
  induction fs generalizing s with
  | nil => exact .refl ..
  | cons f fs ih =>
    rw [List.mem_cons, not_or] at hf
    exact (s.exeApply_only n (Ne.symm hf.1)).trans (ih hf.2 _)

theorem Core.appendDef_frame (c : Core) (b : Nat) (rs : List DefRec) :
    c.appendDef b rs = { c with spad := (c.appendDef b rs).spad, defTail := c.defTail + rs.length } := by
  induction rs generalizing c with
  | nil => rfl
  | cons r rs ih =>
    rw [Core.appendDef, ih]
    dsimp only [List.length_cons]
    rw [Nat.add_right_comm, Nat.add_assoc]
/-- The effects that reach a stream queue or the deferral queue. -/
def ExeEff.queues : ExeEff → Bool
  | .push .. | .pushFlags .. | .defer _ => true
  | _ => false
theorem ExeEff.onCore_queues (seen : BitVec 8) (c : Core) {f : ExeEff} (hf : f.queues = true) :
    f.onCore seen c = { c with sq := (f.onCore seen c).sq, spad := (f.onCore seen c).spad, defTail := (f.onCore seen c).defTail } := by
  cases f with
  | push sq x => rw [ExeEff.onCore, Core.setQueue, if_neg (by omega)]
  | pushFlags sq e => rw [ExeEff.onCore, Core.setQueue, if_neg (by omega)]
  | defer rs =>
    rw [ExeEff.onCore]
    split
    · rename_i b _
      obtain ⟨d, hd⟩ : ∃ d, d = c.appendDef b rs := ⟨_, rfl⟩
      have hf : d = { c with spad := d.spad, defTail := c.defTail + rs.length } := by
        rw [hd]
        exact c.appendDef_frame b rs
      rw [← hd, hf]
    · rfl
  | _ => cases hf
/-- What no effect but its own reaches of a core. -/
theorem ExeEff.onCore_frame (seen : BitVec 8) (c : Core) (f : ExeEff) :
    f.onCore seen c = { c with
      v := (f.onCore seen c).v, deadV := (f.onCore seen c).deadV, p := (f.onCore seen c).p, q := (f.onCore seen c).q,
      deadQ := (f.onCore seen c).deadQ, sq := (f.onCore seen c).sq, boqX := (f.onCore seen c).boqX, flags := (f.onCore seen c).flags,
      spad := (f.onCore seen c).spad, defTail := (f.onCore seen c).defTail, defHead := (f.onCore seen c).defHead } := by
  cases f with
  | push | pushFlags | defer => rw [ExeEff.onCore_queues seen c rfl]
  | _ => dsimp only [ExeEff.onCore]

/-- What a part of the core becomes under the effects of a word. -/
theorem State.exeApplyAll_core {α β : Type} {get : Core → β} {pick : ExeEff → Option α} {op : β → α → β} {fs : List ExeEff}
    (h : ∀ seen c, ∀ f ∈ fs, get (f.onCore seen c) = ((pick f).map (op (get c))).getD (get c)) (n : Nat) (s : State) :
    get ((s.exeApplyAll n fs).core n) = (fs.filterMap pick).foldl op (get (s.core n)) :=
  State.exeApplyAll_fold (get := fun u => get (u.core n)) (fun u f hf => by rw [State.exeApply_core, h _ _ f hf]) s
/-- A part of the core that no effect reaches. -/
theorem State.exeApplyAll_frame {β : Type} {get : Core → β}
    (h : ∀ c v deadV p q deadQ sq boqX flags spad defTail defHead, get { c with
      v := v, deadV := deadV, p := p, q := q, deadQ := deadQ, sq := sq, boqX := boqX,
      flags := flags, spad := spad, defTail := defTail, defHead := defHead } = get c) (n : Nat) (fs : List ExeEff) (s : State) :
    get ((s.exeApplyAll n fs).core n) = get (s.core n) :=
  State.exeApplyAll_keep (get := fun u => get (u.core n)) (fun u f _ => by
    rw [State.exeApply_core, ExeEff.onCore_frame, h]) s

/-! ### The deferral queue (R180, R392) -/

theorem DefRec.length_bytes (r : DefRec) : r.bytes.length = 32 := leBytes_length ..
/-- A field of a record's bits, from the number that they are. -/
theorem extract_of_toNat {w : Nat} {b : BitVec w} {x lo n : Nat} (hb : b.toNat = x) {y : BitVec n} (hx : x / 2 ^ lo % 2 ^ n = y.toNat) : b.extractLsb' lo n = y := by
  apply BitVec.eq_of_toNat_eq
  rw [BitVec.extractLsb'_toNat, hb, Nat.shiftRight_eq_div_pow, hx]
theorem DefRec.ofBits_bytes (r : DefRec) : DefRec.ofBits (bitsOf 256 r.bytes) = r := by
  obtain ⟨b, hb⟩ : ∃ b, b = bitsOf 256 r.bytes := ⟨_, rfl⟩
  have hv := r.v.isLt
  have hl := r.lane.isLt
  have hn := r.nv.isLt
  have hc := r.crd.isLt
  have hx : b.toNat = r.v.toNat + 2 ^ 128 * r.lane.toNat + 2 ^ 136 * r.nv.toNat + 2 ^ 192 * r.crd.toNat := by
    rw [hb, DefRec.bytes, bitsOf, leNat_leBytes, BitVec.toNat_ofNat]
    omega
  rw [← hb, DefRec.ofBits, extract_of_toNat (y := r.v) hx (by omega), extract_of_toNat (y := r.lane) hx (by omega), extract_of_toNat (y := r.nv) hx (by omega),
    extract_of_toNat (y := r.crd) hx (by omega)]

theorem defAddr_apart {b i j : Nat} (h : i < j) (hj : j < i + 1024) : defAddr b i + 32 ≤ defAddr b j ∨ defAddr b j + 32 ≤ defAddr b i := by
  unfold defAddr
  omega
/-- Records appended leave every other byte alone, -/
theorem Core.appendDef_out (b : Nat) (rs : List DefRec) (c : Core) {a : Nat}
    (ha : ∀ j, j < rs.length → a < defAddr b (c.defTail + j) ∨ defAddr b (c.defTail + j) + 32 ≤ a) : (c.appendDef b rs).spad.get 0 a = c.spad.get 0 a := by
  induction rs generalizing c with
  | nil => rfl
  | cons r rs ih =>
    rw [Core.appendDef, ih _ fun j hj => ?_]
    · have h0 := ha 0 (Nat.succ_pos _)
      rw [get_putSpad, r.length_bytes, if_neg (by rw [Nat.add_zero] at h0; omega)]
    · have hs := ha (j + 1) (Nat.succ_lt_succ hj)
      rwa [show c.defTail + (j + 1) = c.defTail + 1 + j by omega] at hs
/-- and stand in their places, as many as the queue holds. -/
theorem Core.appendDef_in (b : Nat) (rs : List DefRec) (c : Core) (hl : rs.length ≤ 1024) {j : Nat} (hj : j < rs.length) {i : Nat} (hi : i < 32) :
    (c.appendDef b rs).spad.get 0 (defAddr b (c.defTail + j) + i) = (rs.getD j default).bytes.getD i 0 := by
  induction rs generalizing c j with
  | nil => exact absurd hj (Nat.not_lt_zero j)
  | cons r rs ih =>
    rw [List.length_cons] at hl hj
    rw [Core.appendDef]
    cases j with
    | zero =>
      rw [Core.appendDef_out b rs _ fun k hk => ?_]
      · rw [get_putSpad, r.length_bytes, Nat.add_zero, if_pos (by omega), Nat.add_sub_cancel_left]
        rfl
      · have := defAddr_apart (b := b) (i := c.defTail) (j := c.defTail + 1 + k) (by omega) (by omega)
        rw [Nat.add_zero]
        dsimp only
        omega
    | succ j =>
      have hs := ih { c with spad := putSpad c.spad (defAddr b c.defTail) r.bytes, defTail := c.defTail + 1 } (by omega) (j := j) (by omega)
      rw [show c.defTail + (j + 1) = c.defTail + 1 + j by omega]
      exact hs
theorem length_spadBytes (c : Core) (a n : Nat) : (c.spadBytes a n).length = n := by
  induction n generalizing a with
  | zero => rfl
  | succ n ih => rw [Core.spadBytes, List.length_cons, ih]
theorem Core.appendDef_record (b : Nat) (rs : List DefRec) (c d : Core) (hd : d.spad = (c.appendDef b rs).spad) (hl : rs.length ≤ 1024) {j : Nat} (hj : j < rs.length) :
    DefRec.ofBits (bitsOf 256 (d.spadBytes (b + 32 * ((c.defTail + j) % 1024)) 32)) = rs.getD j default := by
  have hb : d.spadBytes (b + 32 * ((c.defTail + j) % 1024)) 32 = (rs.getD j default).bytes := by
    refine List.ext_getElem (by rw [length_spadBytes, DefRec.length_bytes]) fun i hi hi' => ?_
    rw [length_spadBytes] at hi
    rw [← List.getD_eq_getElem _ 0, ← List.getD_eq_getElem _ 0, getD_spadBytes _ _ hi, hd]
    exact c.appendDef_in b rs hl hj hi
  rw [hb, DefRec.ofBits_bytes]

/-! ### When a word commits, and with what fault (R251, R402) -/

/-- Whether the oldest issued word may commit. -/
def commitsNow (s : State) (n : Nat) (x : ExeOp) : Prop :=
  s.engRuns n .exe = true ∧ (x.effs = [] ∧ x.fault = none ∧ x.sig = 0 ∨ x.e.toNat ≤ (s.horizonOf n).toNat ∧ s.stopAtOrBelow n x.e = false)
theorem commitsNow_iff (s : State) (n : Nat) (x : ExeOp) :
    (!s.engRuns n .exe || (!x.idle && (!(x.e.ule (s.horizonOf n)) || s.stopAtOrBelow n x.e))) = false ↔ commitsNow s n x := by
  have hidle : x.idle = true ↔ x.effs = [] ∧ x.fault = none ∧ x.sig = 0 := by
    simp only [ExeOp.idle, Bool.and_eq_true, List.isEmpty_iff, Option.isNone_iff_eq_none, beq_iff_eq, and_assoc]
  rw [commitsNow, ← hidle, Bool.or_eq_false_iff, Bool.not_eq_false', Bool.and_eq_false_iff, Bool.not_eq_false', Bool.or_eq_false_iff, Bool.not_eq_false',
    BitVec.ule_eq_decide, decide_eq_true_iff]
/-- A word without a fault of its own raises DFQ_FULL for the first records that find no room. -/
theorem Core.commitFault_none {c : Core} {x : ExeOp} (h : x.fault = none) :
    (∃ rs, .defer rs ∈ x.effs ∧ c.commitFault x = if 1024 < c.defTail - c.defHead + rs.length then some (fDfqFull, BitVec.ofNat 64 rs.length) else none) ∨
      (∀ rs, .defer rs ∉ x.effs) ∧ c.commitFault x = none := by
  unfold Core.commitFault
  rw [h]
  dsimp only
  split
  · rename_i rs hf
    exact .inl ⟨rs, List.mem_of_find?_eq_some hf, rfl⟩
  · rename_i hf
    refine .inr ⟨fun rs hm => ?_, rfl⟩
    rcases hx : List.find? (fun f : ExeEff => match f with | .defer _ => true | _ => false) x.effs with _ | f
    · exact absurd (List.find?_eq_none.mp hx _ hm) (by simp)
    · have hp := List.find?_some hx
      cases f with
      | defer qs => exact hf qs hx
      | _ => cases hp
theorem State.commitExe_waits {s : State} {n : Nat} {x : ExeOp} {xs : List ExeOp} (hq : (s.core n).exeQ = x :: xs) (h : ¬commitsNow s n x) : s.commitExe n = s := by
  unfold State.commitExe
  rw [hq]
  dsimp only
  rw [if_pos (Bool.not_eq_false _ ▸ mt (commitsNow_iff s n x).mp h)]
theorem State.commitExe_raises {s : State} {n : Nat} {x : ExeOp} {xs : List ExeOp} (hq : (s.core n).exeQ = x :: xs) (h : commitsNow s n x) {code : BitVec 8} {val : Word}
    (hf : (s.core n).commitFault x = some (code, val)) : s.commitExe n = s.raise n .exe code val x.e true x.slot := by
  unfold State.commitExe
  rw [hq]
  dsimp only
  rw [if_neg (Bool.not_eq_true _ ▸ (commitsNow_iff s n x).mpr h), hf]
/-- The state once the effects of the oldest word are made. -/
def State.exeMade (s : State) (n : Nat) (x : ExeOp) (xs : List ExeOp) : State := (s.modCore n fun c => { c with exeQ := xs }).exeApplyAll n x.effs
theorem State.commitExe_made {s : State} {n : Nat} {x : ExeOp} {xs : List ExeOp} (hq : (s.core n).exeQ = x :: xs) (h : commitsNow s n x)
    (hf : (s.core n).commitFault x = none) : s.commitExe n =
      ((s.exeMade n x xs).retireIss n .exe x.id).signal n .exe x.sig.toNat 1 x.e ((s.exeMade n x xs).core n).exe.before x.slot := by
  unfold State.commitExe
  rw [hq]
  dsimp only
  rw [if_neg (Bool.not_eq_true _ ▸ (commitsNow_iff s n x).mpr h), hf]
  rfl

/-- Retirement and signal change the engine, tokens, the log and the time of the last retirement of their core alone. -/
theorem State.retire_signals {s : State} {n : Nat} (id : Nat) {sig : BitVec 8} (e : Word) (ids : List Nat) (slot : BitVec 16)
    (h : sig = 0 ∨ ((s.core n).tok.get {} sig.toNat).count.toNat < 0xFFFF) :
    ∃ t, (s.retireIss n .exe id).signal n .exe sig.toNat 1 e ids slot = t ∧ CoreOnly s t n ∧
      (∃ y tok peel idle hung, t.core n = { s.core n with exe := y, tok := tok, peel := peel, idle := idle, hung := hung }) ∧
      (sig ≠ 0 → ((t.core n).tok.get {} sig.toNat).count.toNat = ((s.core n).tok.get {} sig.toNat).count.toNat + 1) ∧
      ∀ k, k ≠ sig.toNat → (t.core n).tok.get {} k = (s.core n).tok.get {} k := by
  obtain ⟨ho, y, hc, -⟩ := s.retireIss_core n .exe id
  obtain ⟨s2, hs2⟩ : ∃ s2, s2 = s.retireIss n .exe id := ⟨_, rfl⟩
  rw [← hs2] at ho hc ⊢
  have htok : (s2.core n).tok = (s.core n).tok := by rw [hc]; rfl
  rw [← htok] at h ⊢
  have t := s2.signal_touch n .exe .exe sig.toNat e ids slot (h.imp (fun hz => by rw [hz]; rfl) fun hc => hc)
  refine ⟨_, rfl, ho.trans t.only, ⟨_, _, _, _, _, by rw [t.core, hc]; rfl⟩, fun hs => ?_, fun k hk => t.tokens k (by simpa using hk)⟩
  rw [s2.signal_count n .exe sig e ids slot h, if_pos ⟨hs, rfl⟩]

theorem State.exeMade_others (s : State) (n : Nat) (x : ExeOp) (xs : List ExeOp) {m : Nat} (hm : m ≠ n) : (s.exeMade n x xs).core m = s.core m :=
  (State.exeApplyAll_keep (get := fun u => u.core m) (fun u f _ => u.exeApply_others n f hm) _).trans (s.core_modCore_ne _ hm)

theorem CoreOnly.imgFlags {s t : State} {n : Nat} (h : CoreOnly s t n) (cid : BitVec 12) : t.imgFlags cid = s.imgFlags cid := by
  rw [h.1]
  rfl
theorem CoreOnly.putFlags {s t : State} {n : Nat} (h : CoreOnly s t n) (cid : BitVec 12) (f : BitVec 8) : CoreOnly (s.putFlags cid f) (t.putFlags cid f) n := by
  have hc : t.flagCells cid (leBytes f.toNat 8) = s.flagCells cid (leBytes f.toNat 8) := by rw [h.1]; rfl
  show CoreOnly (s.putCells (s.flagCells cid (leBytes f.toNat 8))) (t.putCells (t.flagCells cid (leBytes f.toNat 8))) n
  rw [hc]
  exact h.putCells _
theorem vLane_flags (f : BitVec 8) {l : Nat} (hl : l < 64) : vLane (ofLanes 4 (List.replicate 64 f.toNat)) 4 l = f.toNat := by
  have hf := f.isLt
  rw [ofLanes_lane _ _ _ (by rw [List.length_replicate]), List.getD_eq_getElem _ _ (by rwa [List.length_replicate]), List.getElem_replicate]
  omega

/-- A value set at a key of a map, as the last write of that key gives it. -/
theorem get_set_pick {α : Type} [DecidableEq α] (d : α) (m : SMap α) (k r : Nat) (w : α) :
    (m.set d k w).get d r = ((if k = r then some w else none).map fun y => y).getD (m.get d r) := by
  by_cases hk : k = r
  · subst hk
    rw [SMap.get_set_self, if_pos rfl]
    rfl
  · rw [SMap.get_set_ne _ _ _ (Ne.symm hk), if_neg hk]
    rfl

/-- Settles O36: when the word commits by `commitsNow_iff`, its fault by `Core.commitFault_none`, and each part of what it leaves by `State.exeApplyAll_fold`. -/
theorem executeCommit : Obligations.ExecuteCommit := by
  unfold Obligations.ExecuteCommit
  intro s n x xs hq c free wanted goes
  have hexec : exec (.exeCommit n) s = .next (s.commitExe n) := rfl
  rw [hexec]
  refine ⟨fun hn => by rw [State.commitExe_waits hq hn], fun hfree code val hf => ?_, fun hfree hnf rs hw hr => ?_, fun hfree hgoes hsig => ?_⟩
  · rw [State.commitExe_raises hq hfree (by rw [Core.commitFault, hf])]
  · obtain ⟨hmem, huniq⟩ := hw
    rcases Core.commitFault_none (c := s.core n) hnf with ⟨qs, hqs, hf⟩ | ⟨hno, -⟩
    · rw [huniq qs hqs, if_pos hr] at hf
      rw [State.commitExe_raises hq hfree hf]
      rfl
    · exact absurd hmem (hno rs)
  obtain ⟨hnf, hfits⟩ := hgoes
  have hcf : (s.core n).commitFault x = none := by
    rcases Core.commitFault_none (c := s.core n) hnf with ⟨qs, hqs, hf⟩ | ⟨-, hf⟩
    · rw [hf, if_neg (Nat.not_lt.mpr (hfits qs hqs))]
    · exact hf
  obtain ⟨s1, hs1⟩ : ∃ s1, s1 = s.modCore n fun c => { c with exeQ := xs } := ⟨_, rfl⟩
  have hc1 : s1.core n = { s.core n with exeQ := xs } := by rw [hs1]; exact s.core_modCore_self ..
  have ho1 : CoreOnly s s1 n := hs1 ▸ .modCore ..
  have hmade : s.exeMade n x xs = s1.exeApplyAll n x.effs := by rw [State.exeMade, ← hs1]
  have htok2 : ((s1.exeApplyAll n x.effs).core n).tok = (s.core n).tok :=
    (State.exeApplyAll_frame (get := fun c => c.tok) (fun _ _ _ _ _ _ _ _ _ _ _ _ => rfl) n x.effs s1).trans (by rw [hc1])
  obtain ⟨t, ht, hot, ⟨y, tok, peel, idle, hung, hd⟩, hcount, hothers⟩ :=
    State.retire_signals (s := s1.exeApplyAll n x.effs) (n := n) x.id x.e ((s1.exeApplyAll n x.effs).core n).exe.before x.slot (sig := x.sig) (by rw [htok2]; exact hsig)
  rw [htok2] at hcount hothers
  have hkeep : ∀ {β : Type} {get : Core → β} (_ : ∀ c y tok peel idle hung, get { c with exe := y, tok := tok, peel := peel, idle := idle, hung := hung } = get c),
      get (t.core n) = get ((s1.exeApplyAll n x.effs).core n) := fun h => by rw [hd, h]
  have hframe : ∀ {β : Type} {get : Core → β} (_ : ∀ c y tok peel idle hung, get { c with exe := y, tok := tok, peel := peel, idle := idle, hung := hung } = get c)
      (_ : ∀ c v deadV p q deadQ sq boqX flags spad defTail defHead, get { c with
        v := v, deadV := deadV, p := p, q := q, deadQ := deadQ, sq := sq, boqX := boqX, flags := flags, spad := spad, defTail := defTail, defHead := defHead } = get c),
      get (t.core n) = get { s.core n with exeQ := xs } :=
    fun h1 h2 => (hkeep h1).trans ((State.exeApplyAll_frame h2 n x.effs s1).trans (by rw [hc1]))
  have hfold : ∀ {α β : Type} {get : Core → β} {pick : ExeEff → Option α} {op : β → α → β}
      (_ : ∀ c y tok peel idle hung, get { c with exe := y, tok := tok, peel := peel, idle := idle, hung := hung } = get c)
      (_ : ∀ seen c, ∀ f ∈ x.effs, get (f.onCore seen c) = ((pick f).map (op (get c))).getD (get c)),
      get (t.core n) = (x.effs.filterMap pick).foldl op (get { s.core n with exeQ := xs }) :=
    fun h1 h2 => (hkeep h1).trans ((State.exeApplyAll_core h2 n s1).trans (by rw [hc1]))
  have hone : ∀ {β : Type} {get : Core → β} {f : ExeEff} (_ : ∀ c y tok peel idle hung, get { c with exe := y, tok := tok, peel := peel, idle := idle, hung := hung } = get c)
      (_ : x.effs = [f]), get (t.core n) = get (f.onCore ((s.core n).flags ||| s.imgFlags (s.core n).cid) { s.core n with exeQ := xs }) := fun {β get f} h hf => by
    have hcore : (s1.exeApplyAll n [f]).core n = f.onCore ((s.core n).flags ||| s.imgFlags (s.core n).cid) { s.core n with exeQ := xs } := by
      rw [State.exeApplyAll, State.exeApplyAll, State.exeApply_core, hc1, ho1.imgFlags]
      rfl
    rw [hkeep h, hf, hcore]
  refine ⟨t, by rw [State.commitExe_made hq hfree hcf, hmade, ht], ?_⟩
  intro d seen word
  refine ⟨?_, ?_, ?_, ?_, ?_, ?_, ?_, ?_, ?_, ?_, ?_, ?_, ?_, ?_, ?_, ?_, ?_, ?_, ?_, ?_, ?_, hcount, hothers⟩
  · exact hframe (get := fun c => c.exeQ) (fun _ _ _ _ _ _ => rfl) fun _ _ _ _ _ _ _ _ _ _ _ _ => rfl
  · exact fun hno => ((ho1.trans (State.exeApplyAll_only hno s1)).trans hot).mem
  · exact fun m hm => (hot.2 m hm).trans (hmade ▸ s.exeMade_others n x xs hm)
  · exact hframe (get := fun c => c.g) (fun _ _ _ _ _ _ => rfl) fun _ _ _ _ _ _ _ _ _ _ _ _ => rfl
  · exact hframe (get := fun c => c.s) (fun _ _ _ _ _ _ => rfl) fun _ _ _ _ _ _ _ _ _ _ _ _ => rfl
  · exact hframe (get := fun c => c.hold) (fun _ _ _ _ _ _ => rfl) fun _ _ _ _ _ _ _ _ _ _ _ _ => rfl
  · exact hframe (get := fun c => c.dq) (fun _ _ _ _ _ _ => rfl) fun _ _ _ _ _ _ _ _ _ _ _ _ => rfl
  · exact hframe (get := fun c => c.boqA) (fun _ _ _ _ _ _ => rfl) fun _ _ _ _ _ _ _ _ _ _ _ _ => rfl
  · intro r hno
    rw [← foldl_last]
    refine hfold (get := fun c => c.v.get 0 r) (fun _ _ _ _ _ _ => rfl) fun seen c f hf => ?_
    cases f with
    | v k w => exact get_set_pick ..
    | vflags k => exact absurd hf (hno k)
    | push | pushFlags | defer => rw [ExeEff.onCore_queues seen c rfl]; rfl
    | _ => rw [ExeEff.onCore]; rfl
  · intro r
    rw [← foldl_last]
    refine hfold (get := fun c => c.p.get 0 r) (fun _ _ _ _ _ _ => rfl) fun seen c f hf => ?_
    cases f with
    | p k w => exact get_set_pick ..
    | push | pushFlags | defer => rw [ExeEff.onCore_queues seen c rfl]; rfl
    | _ => rw [ExeEff.onCore]; rfl
  · intro r
    rw [← foldl_last]
    refine hfold (get := fun c => c.q.get {} r) (fun _ _ _ _ _ _ => rfl) fun seen c f hf => ?_
    cases f with
    | q k w => exact get_set_pick ..
    | push | pushFlags | defer => rw [ExeEff.onCore_queues seen c rfl]; rfl
    | _ => rw [ExeEff.onCore]; rfl
  · intro hno
    refine ⟨hfold (get := fun c => c.flags) (fun _ _ _ _ _ _ => rfl) fun seen c f hf => ?_,
      (((ho1.trans (State.exeApplyAll_only (hno true) s1)).trans hot).imgFlags _)⟩
    cases f with
    | clearFlags b => exact absurd hf (hno b)
    | push | pushFlags | defer => rw [ExeEff.onCore_queues seen c rfl]; rfl
    | _ => rw [ExeEff.onCore]; rfl
  · intro hno k hk
    rw [← foldl_append_one]
    refine hfold (get := fun c => c.queue (4 + k)) (fun _ _ _ _ _ _ => rfl) fun seen c f hf => ?_
    cases f with
    | push j w =>
      rw [ExeEff.onCore]
      by_cases hjk : j = k
      · subst hjk
        simp only [if_true, Core.queue_setQueue_self]
        rfl
      · rw [Core.queue_setQueue_ne _ (by omega)]
        simp only [hjk, if_false]
        rfl
    | pushFlags j e => exact absurd hf (hno j e)
    | defer =>
      rw [ExeEff.onCore]
      split
      · rw [Core.appendDef_frame]
        rfl
      · rfl
    | _ => rw [ExeEff.onCore]; rfl
  · rw [← foldl_append_one]
    refine hfold (get := fun c => c.boqX) (fun _ _ _ _ _ _ => rfl) fun seen c f hf => ?_
    cases f with
    | push | pushFlags | defer => rw [ExeEff.onCore_queues seen c rfl]; rfl
    | _ => rw [ExeEff.onCore]; rfl
  · intro hx
    have ho2 := (ho1.trans (State.exeApplyAll_only (fun hm => by rw [hx, List.mem_singleton] at hm; cases hm) s1)).trans hot
    exact ⟨hone (get := fun c => c.flags) (fun _ _ _ _ _ _ => rfl) hx, ho2.imgFlags _⟩
  · intro hx
    have hput : CoreOnly (s.putFlags (s.core n).cid 0) t n := by
      have ho2 : CoreOnly s (s1.modCore n fun c => { c with flags := 0 }) n := ho1.trans (.modCore ..)
      have hcid : ((s1.modCore n fun c => { c with flags := 0 }).core n).cid = (s.core n).cid := by
        rw [State.core_modCore_self, hc1]
        rfl
      have happ : s1.exeApplyAll n x.effs = (s1.modCore n fun c => { c with flags := 0 }).putFlags (s.core n).cid 0 := by
        rw [hx, ← hcid]
        rfl
      rw [happ] at hot
      exact (ho2.putFlags _ _).trans hot
    exact ⟨hone (get := fun c => c.flags) (fun _ _ _ _ _ _ => rfl) hx, hput.mem, fun h0 hn => (hput.imgFlags _).trans (State.imgFlags_putFlags h0 hn)⟩
  · intro r hx l hl
    have hv := hone (get := fun c => c.v.get 0 r) (fun _ _ _ _ _ _ => rfl) hx
    rw [hv, ExeEff.onCore, SMap.get_set_self, vLane_flags _ hl]
  · intro k e hk hx
    have hqk := hone (get := fun c => c.queue (4 + k)) (fun _ _ _ _ _ _ => rfl) hx
    rw [ExeEff.onCore, Core.queue_setQueue_self] at hqk
    exact ⟨_, hqk, rfl, fun l hl => vLane_flags _ hl⟩
  · intro hno
    have hdef : ∀ seen (c : Core), ∀ f ∈ x.effs, (f.onCore seen c).spad = c.spad ∧ (f.onCore seen c).defTail = c.defTail := fun seen c f hf => by
      cases f with
      | defer rs => exact absurd hf (hno rs)
      | push sq x => rw [ExeEff.onCore, Core.setQueue_frame]; exact ⟨rfl, rfl⟩
      | pushFlags sq e => rw [ExeEff.onCore, Core.setQueue_frame]; exact ⟨rfl, rfl⟩
      | _ => rw [ExeEff.onCore]; exact ⟨rfl, rfl⟩
    have hkeeps : (t.core n).spad = (s.core n).spad ∧ (t.core n).defTail = (s.core n).defTail := by
      have hs := hfold (get := fun c => (c.spad, c.defTail)) (pick := fun _ => (none : Option Unit)) (op := fun b _ => b) (fun _ _ _ _ _ _ => rfl)
        fun seen c f hf => Prod.ext (hdef seen c f hf).1 (hdef seen c f hf).2
      rw [List.filterMap_none] at hs
      exact Prod.ext_iff.mp hs
    exact hkeeps
  · intro rs base hx hb
    have happ : ∀ c : Core, c.defBase = some base → ∀ seen, (ExeEff.defer rs).onCore seen c = c.appendDef base rs := fun c hc seen => by rw [ExeEff.onCore, hc]
    have hs := hone (get := fun c => c.spad) (fun _ _ _ _ _ _ => rfl) hx
    have ht := hone (get := fun c => c.defTail) (fun _ _ _ _ _ _ => rfl) hx
    have hrun := happ { s.core n with exeQ := xs } hb ((s.core n).flags ||| s.imgFlags (s.core n).cid)
    rw [hrun] at hs ht
    refine ⟨ht.trans (by rw [Core.appendDef_frame]), fun j hj hl => ?_⟩
    exact Core.appendDef_record base rs { s.core n with exeQ := xs } (t.core n) hs hl hj
  · rw [← foldl_add]
    refine hfold (get := fun c => c.defHead) (fun _ _ _ _ _ _ => rfl) fun seen c f hf => ?_
    cases f with
    | push | pushFlags | defer => rw [ExeEff.onCore_queues seen c rfl]; rfl
    | _ => rw [ExeEff.onCore]; rfl

end Sys2Proof.Machine
end

section
/-! SUPPORT. Issue of a matrix word (R421): what it tests, and what it leaves. -/

set_option Elab.async false

namespace Sys2Proof.Machine

/-! ### Wait sets that are met (R172, R173) -/

theorem tokNeed_le_of_nodup {ts : List (Nat × Nat)} (hn : (ts.map (·.1)).Nodup) {j m : Nat} (h : ∀ x ∈ ts, x.1 = j → x.2 ≤ m) : tokNeed ts j ≤ m := by
  induction ts with
  | nil => exact Nat.zero_le _
  | cons x ts ih =>
    rw [List.map_cons, List.nodup_cons] at hn
    unfold tokNeed at *
    rw [List.filter_cons]
    split
    · rename_i hx
      have hrest : ts.filter (fun y => y.1 == j) = [] := List.filter_eq_nil_iff.mpr fun y hy hj =>
        hn.1 (List.mem_map.mpr ⟨y, hy, (beq_iff_eq.mp hj).trans (beq_iff_eq.mp hx).symm⟩)
      rw [hrest]
      exact h x (List.mem_cons_self ..) (beq_iff_eq.mp hx)
    · exact ih hn.2 fun y hy => h y (List.mem_cons_of_mem _ hy)
/-- A legal wait set that is met finds all that it consumes. -/
theorem Core.waitMet_need {c : Core} {w : Word} (hok : waitOk w = true) (hm : c.waitMet w = true) (j : Nat) :
    tokNeed (waitPresent w) j ≤ (c.tok.get {} j).count.toNat := by
  refine tokNeed_le_of_nodup ?_ fun x hx hj => ?_
  · simp only [waitOk, Bool.and_eq_true, decide_eq_true_eq] at hok
    obtain ⟨⟨⟨⟨-, hn⟩, -⟩, -⟩, -⟩ := hok
    rwa [List.filter_map] at hn
  · have := List.all_eq_true.mp hm x hx
    rw [← hj]
    simpa using this

/-! ### Issue (R421, R249) -/

/-- HEAD alone moves past issued words. -/
theorem EngSt.passIssued_frame (x : EngSt) (f : Nat) : x.passIssued f = { x with ring := { x.ring with head := (x.passIssued f).ring.head } } := by
  induction f generalizing x with
  | zero => rfl
  | succ f ih =>
    rw [EngSt.passIssued]
    split
    · rw [ih]
    · rfl

section
variable {s : State} {h : Hdr} {w : Word} {pos : BitVec 16} {pop : Option Nat} {es : List (Nat × QEnt)} {c' : Core} (m : MtxMay s h w pos pop es c')
include m

/-- A ready word finds its tokens. -/
theorem MtxMay.met (hw : hdrOf w = h) : s.me.waitMet (s.me.waitVal h) = true := by
  have hword : s.me.ringWord .mtx pos = w := by simpa using List.find?_some m.ready
  have hready : s.me.mtxReady pos = true := (List.mem_filter.mp (List.mem_of_find?_eq_some m.ready)).2
  have hval : (if h.wait == 0 then 0 else s.me.wset.get 0 h.wait.toNat) = s.me.waitVal h := rfl
  unfold Core.mtxReady at hready
  dsimp only at hready
  simp only [Bool.and_eq_true] at hready
  obtain ⟨⟨⟨⟨⟨hwait, -⟩, -⟩, -⟩, -⟩, -⟩ := hready
  rw [hword, hw, hval, m.legal] at hwait
  simpa using hwait

/-- The state in which a matrix word stands once it has issued. -/
def State.mtxIssued (s : State) (h : Hdr) (w : Word) (pos : BitVec 16) (es : List (Nat × QEnt)) (c' : Core) (t : MtxTake) : State :=
  ((({ s with nextId := s.nextId + 1 } : State).setCore s.cur c').consume s.cur .mtx (s.mtxCrd h pos es) (waitPresent (s.me.waitVal h))).modCore s.cur fun c =>
    let y : EngSt := { c.mtx with
      iss := c.mtx.iss ++ [{ pos := pos, e := s.mtxCrd h pos es, pops := es, snap := c.mtx.snap, id := s.nextId }], elast := maxW (s.mtxCrd h pos es) t.last,
      before := mergeIds c.mtx.before (c'.waitIds (s.me.waitVal h)) }
    { c with mtx := y.passIssued 16,
             mx := { t.fix c.mx with ops := c.mx.ops ++ [{ slot := pos, id := s.nextId, w := w, e := s.mtxCrd h pos es, pe := s.mtxCrd h pos es, nest := t.nest, seed := t.seed,
                                                           ents := es.map (·.2), after := c.barOf y.before }] } }

/-- A matrix word that may issue comes to its own test. -/
theorem mtxWord_reaches (chk : Word → MtxTake ⊕ Body) : mtxWord h w pop chk s =
    match chk (s.mtxCrd h pos es) with
    | .inr (.fault code val) => .next (s.raise s.cur .mtx code val (s.mtxCrd h pos es) true pos)
    | .inr _ => .next s
    | .inl t => if (s.mtxIssued h w pos es c' t).me.fits then .next (s.mtxIssued h w pos es c' t) else .next s := by
  have hval : (if h.wait == 0 then 0 else s.me.wset.get 0 h.wait.toNat) = s.me.waitVal h := rfl
  have hcrd : maxW (maxW (maxW s.me.mtx.elast s.me.mtx.crd) (s.me.mtx.ring.pushE.get 0 (pos.toNat % 2 ^ s.me.mtx.ring.size.toNat)))
      ((es.map (·.2.e)).foldl maxW (s.me.waitTag (s.me.waitVal h))) = s.mtxCrd h pos es := rfl
  unfold mtxWord
  simp only [m.ready, hval, m.legal, Bool.not_true, Bool.false_eq_true, if_false, m.taken, hcrd, m.noStop, m.ungated, m.noWatch, Bool.or_false]
  all_goals
    rcases chk (s.mtxCrd h pos es) with t | b
    · rfl
    · cases b <;> rfl
theorem mtxWord_raises {chk : Word → MtxTake ⊕ Body} {code : BitVec 8} {val : Word} (hchk : chk (s.mtxCrd h pos es) = .inr (.fault code val)) :
    mtxWord h w pop chk s = .next (s.raise s.cur .mtx code val (s.mtxCrd h pos es) true pos) := by
  rw [mtxWord_reaches m, hchk]

/-- What issue leaves. -/
theorem MtxMay.issued (hw : hdrOf w = h) (t : MtxTake) : (s.mtxIssued h w pos es c' t).me.fits = true ∧
    MtxRan s (s.mtxIssued h w pos es c' t) h w pos (s.mtxCrd h pos es) t.last es c' t.nest t.seed t.fix := by
  have hc' : c' = { s.me with dq := c'.dq, sq := c'.sq, lastPop := c'.lastPop } := popAll_frame _ _ _ _ _ m.taken
  obtain ⟨s0, hs0⟩ : ∃ s0, s0 = ({ s with nextId := s.nextId + 1 } : State).setCore s.cur c' := ⟨_, rfl⟩
  have hc0 : s0.core s.cur = c' := by
    rw [hs0]
    exact SMap.get_set_self ..
  have ho0 : CoreOnly s s0 s.cur := by
    rw [hs0]
    exact ⟨rfl, fun k hk => SMap.get_set_ne _ _ _ hk⟩
  have htok : (s0.core s.cur).tok = s.me.tok := by rw [hc0, hc']
  obtain ⟨s1, hs1⟩ : ∃ s1, s1 = s0.consume s.cur .mtx (s.mtxCrd h pos es) (waitPresent (s.me.waitVal h)) := ⟨_, rfl⟩
  have touch := s0.consume_touch s.cur .mtx .mtx (s.mtxCrd h pos es) (waitPresent (s.me.waitVal h))
  have heng := s0.consume_eng s.cur .mtx (s.mtxCrd h pos es) (waitPresent (s.me.waitVal h)) .mtx
  have hmet : ∀ j, tokNeed (waitPresent (s.me.waitVal h)) j ≤ ((s0.core s.cur).tok.get {} j).count.toNat := by
    rw [htok]
    exact Core.waitMet_need m.legal (m.met hw)
  have hcount := s0.consume_count s.cur .mtx (s.mtxCrd h pos es) (waitPresent (s.me.waitVal h)) hmet
  rw [← hs1] at touch heng hcount
  have hc1 : s1.core s.cur = { c' with tok := (s1.core s.cur).tok, peel := (s1.core s.cur).peel } := by
    have h1 := touch.core
    rw [heng, hc0] at h1
    exact h1
  have hlen : (s1.core s.cur).peel.length ≤ s.me.peel.length + 3 := by
    have h1 := touch.log
    rw [hc0] at h1
    have h2 : c'.peel = s.me.peel := by rw [hc']
    have h3 := waitPresent_length (s.me.waitVal h)
    rw [h2] at h1
    omega
  have hhold : c'.hold = s.me.hold := by rw [hc']
  have hmtx : c'.mtx = s.me.mtx := by rw [hc']
  have hmx : c'.mx = s.me.mx := by rw [hc']
  have hids : c'.waitIds (s.me.waitVal h) = s.me.waitIds (s.me.waitVal h) := by rw [hc']; rfl
  have hbar : ∀ ids, Core.barOf { c' with tok := (s1.core s.cur).tok, peel := (s1.core s.cur).peel } ids = s.me.barOf ids := fun ids => by rw [hc']; rfl
  obtain ⟨u, hu⟩ : ∃ u, u = s.mtxIssued h w pos es c' t := ⟨_, rfl⟩
  have ho : CoreOnly s u s.cur := by
    rw [hu]
    unfold State.mtxIssued
    rw [← hs0, ← hs1]
    exact (ho0.trans touch.only).trans (.modCore ..)
  obtain ⟨y, hy⟩ : ∃ y : EngSt, y = { s.me.mtx with
      iss := s.me.mtx.iss ++ [{ pos := pos, e := s.mtxCrd h pos es, pops := es, snap := s.me.mtx.snap, id := s.nextId }], elast := maxW (s.mtxCrd h pos es) t.last,
      before := mergeIds s.me.mtx.before (s.me.waitIds (s.me.waitVal h)) } := ⟨_, rfl⟩
  have hcu : u.core s.cur = { c' with
      mtx := y.passIssued 16, tok := (s1.core s.cur).tok, peel := (s1.core s.cur).peel
      mx := { t.fix s.me.mx with ops := s.me.mx.ops ++ [{ slot := pos, id := s.nextId, w := w, e := s.mtxCrd h pos es, pe := s.mtxCrd h pos es, nest := t.nest, seed := t.seed,
                                                          ents := es.map (·.2), after := s.engAfter .mtx h }] } } := by
    rw [hu]
    unfold State.mtxIssued
    rw [← hs0, ← hs1, State.core_modCore_self, hc1]
    dsimp only
    rw [hbar, hids, hmtx, hmx, hy]
    rfl
  rw [← hu]
  refine ⟨?_, ho, ?_, ⟨y.passIssued 16, ?_⟩, ?_, ?_, ?_⟩
  · rw [State.me, ho.cur, hcu, Core.fits, Bool.and_eq_true, decide_eq_true_iff, decide_eq_true_iff]
    dsimp only
    rw [hhold]
    have := m.room
    omega
  · rw [hcu]
  · rw [hcu]
    dsimp only
    rw [EngSt.passIssued_frame, hy]
  · rw [hcu]
  · intro k _ _ hk
    rw [hcu]
    refine (touch.tokens k fun hm => ?_).trans (by rw [htok])
    obtain ⟨x, hx, hxk⟩ := List.mem_map.mp hm
    exact hk x (List.mem_append_left _ hx) hxk
  · intro k _
    rw [hcu, List.append_nil]
    have h1 := hcount k
    rw [htok] at h1
    rw [if_neg (by simp)]
    exact h1
theorem mtxWord_issues (hw : hdrOf w = h) {chk : Word → MtxTake ⊕ Body} {t : MtxTake} (hchk : chk (s.mtxCrd h pos es) = .inl t) :
    ∃ u, mtxWord h w pop chk s = .next u ∧ MtxRan s u h w pos (s.mtxCrd h pos es) t.last es c' t.nest t.seed t.fix := by
  obtain ⟨hfits, hran⟩ := m.issued hw t
  refine ⟨_, ?_, hran⟩
  rw [mtxWord_reaches m, hchk]
  exact if_pos hfits
end

/-- A matrix word whose test passes issues, with what the test gives it. -/
theorem MtxIssues.of_mtxWord {i : Instr} {h : Hdr} {pop : Option Nat} {need : Word → Prop} {nest : List Word} {seed : Word} {last : Word → Word} {fix : Mtx → Mtx}
    {chk : Word → MtxTake ⊕ Body} {s : State} (hi : exec i s = mtxWord h i.word pop chk s) (hw : hdrOf i.word = h)
    (hchk : ∀ e, need e → ∃ ents, chk e = .inl { nest := nest, seed := seed, ents := ents, last := last e, fix := fix }) : MtxIssues i h pop need nest seed last fix s := by
  intro pos es c' m hn
  obtain ⟨ents, ht⟩ := hchk _ hn
  obtain ⟨u, hu, hran⟩ := mtxWord_issues m hw ht
  exact ⟨u, hi.trans hu, hran⟩
/-- A matrix word whose test finds a fault raises it. -/
theorem MtxRaises.of_mtxWord {i : Instr} {h : Hdr} {pop : Option Nat} {need : Word → Prop} {code : BitVec 8} {val : Word} {chk : Word → MtxTake ⊕ Body} {s : State}
    (hi : exec i s = mtxWord h i.word pop chk s) (hchk : ∀ e, need e → chk e = .inr (.fault code val)) : MtxRaises i h pop need code val s :=
  fun _ _ _ m hn => hi.trans (mtxWord_raises m (hchk _ hn))

end Sys2Proof.Machine
end

section
/-! PROOFS of the MatrixIssue statement (O37): what a matrix word tests and takes at issue. -/

set_option Elab.async false

namespace Sys2Proof.Machine

/-! ### The tensors of a slot (R419, R423) -/

section
variable {s : State} {e w : Word} {ws : List Word}

theorem State.pairAt_slot (hs : slotOk ws = false) : s.pairAt e w ws = .inr (.fault fIllegal w) := by
  simp [State.pairAt, hs]
theorem State.cAt_slot {clamp fmt : Bool} (hs : slotOk ws = false) : s.cAt e w ws clamp fmt = .inr (.fault fIllegal w) := by
  simp [State.cAt, hs]
variable (hs : slotOk ws = true)
include hs
theorem State.pairAt_noA (ha : s.tdesc s.cur e (Nest.of ws).tida = none) : s.pairAt e w ws = .inr (.fault fTensorBounds ((Nest.of ws).tida.setWidth 64)) := by
  simp [State.pairAt, hs, ha]
theorem State.pairAt_noB (ha : s.tdesc s.cur e (Nest.of ws).tida ≠ none) (hb : s.tdesc s.cur e (Nest.of ws).tidb = none) :
    s.pairAt e w ws = .inr (.fault fTensorBounds ((Nest.of ws).tidb.setWidth 64)) := by
  obtain ⟨a, ha⟩ := Option.ne_none_iff_exists'.mp ha
  simp [State.pairAt, hs, ha, hb]
theorem State.pairAt_both {a b : TDesc} (ha : s.tdesc s.cur e (Nest.of ws).tida = some a) (hb : s.tdesc s.cur e (Nest.of ws).tidb = some b) :
    s.pairAt e w ws = if pairOk (Nest.of ws) a b then .inl (Nest.of ws, a, b) else .inr (.fault fIllegal w) := by
  simp [State.pairAt, hs, ha, hb]
theorem State.cAt_noA {clamp fmt : Bool} (ha : s.tdesc s.cur e (Nest.of ws).tida = none) :
    s.cAt e w ws clamp fmt = .inr (.fault fTensorBounds ((Nest.of ws).tida.setWidth 64)) := by
  simp [State.cAt, hs, ha]
theorem State.cAt_noC {clamp fmt : Bool} (ha : s.tdesc s.cur e (Nest.of ws).tida ≠ none) (hc : s.tdesc s.cur e (Nest.of ws).tidc = none) :
    s.cAt e w ws clamp fmt = .inr (.fault fTensorBounds ((Nest.of ws).tidc.setWidth 64)) := by
  obtain ⟨a, ha⟩ := Option.ne_none_iff_exists'.mp ha
  simp [State.cAt, hs, ha, hc]
/-- The tile of C is written in a format that its kind allows, and no clamp is asked of an I32 tile. -/
theorem State.cAt_both {clamp fmt : Bool} {a c : TDesc} (ha : s.tdesc s.cur e (Nest.of ws).tida = some a) (hc : s.tdesc s.cur e (Nest.of ws).tidc = some c) :
    (((fmt = true → cFmtOk (a.fmt == 8) c.fmt = true) ∧ (clamp = true → a.fmt ≠ 8 ∧ (Nest.of ws).cle ≠ 0xFF)) →
      s.cAt e w ws clamp fmt = .inl (Nest.of ws, c, a.fmt == 8)) ∧
    (¬((fmt = true → cFmtOk (a.fmt == 8) c.fmt = true) ∧ (clamp = true → a.fmt ≠ 8 ∧ (Nest.of ws).cle ≠ 0xFF)) →
      s.cAt e w ws clamp fmt = .inr (.fault fIllegal w)) := by
  have hcond : ((fmt && !cFmtOk (a.fmt == 8) c.fmt) || (clamp && ((a.fmt == 8) || (Nest.of ws).cle == 0xFF))) = true ↔
      ¬((fmt = true → cFmtOk (a.fmt == 8) c.fmt = true) ∧ (clamp = true → a.fmt ≠ 8 ∧ (Nest.of ws).cle ≠ 0xFF)) := by
    cases fmt <;> cases clamp <;> simp [imp_iff_not_or]
  have hc' : s.cAt e w ws clamp fmt = if ((fmt && !cFmtOk (a.fmt == 8) c.fmt) || (clamp && ((a.fmt == 8) || (Nest.of ws).cle == 0xFF))) = true then .inr (.fault fIllegal w)
      else .inl (Nest.of ws, c, a.fmt == 8) := by
    simp only [State.cAt, hs, ha, hc, Bool.not_true, Bool.false_eq_true, if_false]
  rw [hc']
  exact ⟨fun h => if_neg fun hb => hcond.mp hb h, fun h => if_pos (hcond.mpr h)⟩
end

/-! ### Words that test a pair of tensors, and words that test the tile of C -/

/-- A matrix word that tests the tensors of A and B of its slot, and goes on as `f` says. -/
def PairWord (i : Instr) (h : Hdr) (o : MG) (f : Word → Nest × TDesc × TDesc → MtxTake ⊕ Body) (s : State) : Prop :=
  hdrOf i.word = h ∧ exec i s = mtxWord h i.word none (fun e => (s.pairAt e i.word (s.slotOf o)).elim (f e) .inr) s
/-- A matrix word that tests the tensor of C of its slot. -/
def TileWord (i : Instr) (h : Hdr) (o : MG) (f : Word → Nest × TDesc × Bool → MtxTake ⊕ Body) (s : State) : Prop :=
  hdrOf i.word = h ∧ exec i s = mtxWord h i.word none (fun e => (s.cAt e i.word (s.slotOf o) (o.q.getLsbD 4) true).elim (f e) .inr) s

/-- The test that follows for MINIT, -/
def minitTest (h : Hdr) (o : MG) (s : State) (e : Word) (_ : Nest × TDesc × TDesc) : MtxTake ⊕ Body :=
  (s.cAt e (packMG h 0x64 0 o) (s.slotOf o) false true).elim (fun _ => (.inl { nest := s.slotOf o } : MtxTake ⊕ Body)) Sum.inr
/-- for MLDB, -/
def mldbTest (h : Hdr) (o : MG) (s : State) (_ : Word) (y : Nest × TDesc × TDesc) : MtxTake ⊕ Body :=
  if 131072 < (o.q.toNat + 1) * panelBytes y.2.2.fmt y.1.bmode then .inr (.fault fIllegal (packMG h 0x60 0 o)) else .inl { nest := s.slotOf o }
/-- What MGO takes. -/
def mgoTake (o : MG) (s : State) (e : Word) (x : Nest) : MtxTake :=
  { nest := s.slotOf o, seed := s.drainSeed, last := if x.points == 0 then 0 else x.crd s.me.cw e (x.points - 1),
    fix := fun m => { m with active := (List.range 16).foldl (fun t i => t.set 0 (16 * o.nest.toNat + i) ((s.slotOf o).getD i 0)) m.active } }
/-- and for MGO. -/
def mgoTest (h : Hdr) (o : MG) (s : State) (e : Word) (y : Nest × TDesc × TDesc) : MtxTake ⊕ Body :=
  (s.cAt e (packMG h 0x62 0 o) (s.slotOf o) (o.q.getLsbD 6) (o.q.getLsbD 0)).elim
    (fun _ => if !mgoOk y.1 (groupOf y.2.1.fmt) s.me.cw e (o.q.getLsbD 0) then .inr (.fault fIllegal (packMG h 0x62 0 o)) else .inl (mgoTake o s e y.1)) .inr

section
variable (h : Hdr) (o : MG) (s : State)
theorem mlda_pair : PairWord (.mlda h o) h o (fun _ _ => .inl { nest := s.slotOf o }) s := by
  refine ⟨Laws.hdrOf_packMG .., ?_⟩
  show execMlda h o s = _
  unfold execMlda
  refine congrArg (fun f => mtxWord h (packMG h 0x6A 0 o) none f s) (funext fun e => ?_)
  show _ = (s.pairAt e (packMG h 0x6A 0 o) (s.slotOf o)).elim (fun _ => (.inl { nest := s.slotOf o } : MtxTake ⊕ Body)) Sum.inr
  rcases s.pairAt e (packMG h 0x6A 0 o) (s.slotOf o) with y | b <;> rfl
theorem mldb_pair : PairWord (.mldb h o) h o (mldbTest h o s) s := by
  refine ⟨Laws.hdrOf_packMG .., ?_⟩
  show execMldb h o s = _
  unfold execMldb
  refine congrArg (fun f => mtxWord h (packMG h 0x60 0 o) none f s) (funext fun e => ?_)
  show _ = (s.pairAt e (packMG h 0x60 0 o) (s.slotOf o)).elim (mldbTest h o s e) .inr
  rcases s.pairAt e (packMG h 0x60 0 o) (s.slotOf o) with y | b <;> rfl
theorem minit_pair : PairWord (.minit h o) h o (minitTest h o s) s := by
  refine ⟨Laws.hdrOf_packMG .., ?_⟩
  show execMinit h o s = _
  unfold execMinit
  refine congrArg (fun f => mtxWord h (packMG h 0x64 0 o) none f s) (funext fun e => ?_)
  show _ = (s.pairAt e (packMG h 0x64 0 o) (s.slotOf o)).elim (minitTest h o s e) .inr
  unfold minitTest
  rcases s.pairAt e (packMG h 0x64 0 o) (s.slotOf o) with y | b
  · rcases s.cAt e (packMG h 0x64 0 o) (s.slotOf o) false true with z | b <;> rfl
  · rfl
theorem mgo_pair : PairWord (.mgo h o) h o (mgoTest h o s) s := by
  refine ⟨Laws.hdrOf_packMG .., ?_⟩
  show execMgo h o s = _
  unfold execMgo
  refine congrArg (fun f => mtxWord h (packMG h 0x62 0 o) none f s) (funext fun e => ?_)
  show _ = (s.pairAt e (packMG h 0x62 0 o) (s.slotOf o)).elim (mgoTest h o s e) .inr
  unfold mgoTest
  rcases s.pairAt e (packMG h 0x62 0 o) (s.slotOf o) with ⟨x, a, y⟩ | b
  · dsimp only [Sum.elim_inl]
    rcases s.cAt e (packMG h 0x62 0 o) (s.slotOf o) (o.q.getLsbD 6) (o.q.getLsbD 0) with z | b <;> rfl
  · rfl
theorem mtxDrain_tile {i : Instr} {fn : BitVec 3} (hw : i.word = packMG h 0x63 fn o) (hi : exec i s = mtxDrain h (packMG h 0x63 fn o) o s) :
    TileWord i h o (fun _ _ => .inl { nest := s.slotOf o, seed := s.me.seed }) s := by
  refine ⟨hw ▸ Laws.hdrOf_packMG .., ?_⟩
  rw [hi, hw, mtxDrain]
  refine congrArg (fun f => mtxWord h (packMG h 0x63 fn o) none f s) (funext fun e => ?_)
  rcases s.cAt e (packMG h 0x63 fn o) (s.slotOf o) (o.q.getLsbD 4) true with y | b <;> rfl
end


section
variable {i : Instr} {h : Hdr} {o : MG} {s : State} {f : Word → Nest × TDesc × TDesc → MtxTake ⊕ Body} {g : Word → Nest × TDesc × Bool → MtxTake ⊕ Body}

/-- The faults of a pair that R419 does not accept. -/
theorem PairWord.faults (p : PairWord i h o f s) :
    let ws := s.slotOf o
    let x := Nest.of ws
    MtxRaises i h none (fun _ => slotOk ws = false) 0x01 i.word s ∧
    (MtxRaises i h none (fun e => slotOk ws = true ∧ s.tdesc s.cur e x.tida = none) 0x08 (x.tida.setWidth 64) s ∧
      (true = true → MtxRaises i h none (fun e => slotOk ws = true ∧ s.tdesc s.cur e x.tida ≠ none ∧ s.tdesc s.cur e x.tidb = none) 0x08 (x.tidb.setWidth 64) s) ∧
      (true = false → MtxRaises i h none (fun e => slotOk ws = true ∧ s.tdesc s.cur e x.tida ≠ none ∧ s.tdesc s.cur e x.tidc = none) 0x08 (x.tidc.setWidth 64) s)) ∧
    MtxRaises i h none (fun e => ∃ a b, slotOk ws = true ∧ s.tdesc s.cur e x.tida = some a ∧ s.tdesc s.cur e x.tidb = some b ∧ pairOk x a b = false) 0x01 i.word s := by
  obtain ⟨-, hi⟩ := p
  refine ⟨.of_mtxWord hi fun e hs => ?_, ⟨.of_mtxWord hi fun e ha => ?_, fun _ => .of_mtxWord hi fun e hb => ?_, fun hf => Bool.noConfusion hf⟩, .of_mtxWord hi fun e hp => ?_⟩
  · rw [State.pairAt_slot hs]
    rfl
  · rw [State.pairAt_noA ha.1 ha.2]
    rfl
  · rw [State.pairAt_noB hb.1 hb.2.1 hb.2.2]
    rfl
  · obtain ⟨a, b, hs, ha, hb, hk⟩ := hp
    rw [State.pairAt_both hs ha hb, hk]
    rfl
/-- What the word goes on to once the pair is one. -/
theorem PairWord.issues (p : PairWord i h o f s) {need : Word → Prop} {nest : List Word} {seed : Word} {last : Word → Word} {fix : Mtx → Mtx}
    (hf : ∀ e, need e → ∃ a b, slotOk (s.slotOf o) = true ∧ s.tdesc s.cur e (Nest.of (s.slotOf o)).tida = some a ∧ s.tdesc s.cur e (Nest.of (s.slotOf o)).tidb = some b ∧
      pairOk (Nest.of (s.slotOf o)) a b = true ∧
      f e (Nest.of (s.slotOf o), a, b) = .inl { nest := nest, seed := seed, last := last e, fix := fix }) : MtxIssues i h none need nest seed last fix s :=
  .of_mtxWord p.2 p.1 fun e hn => by
    obtain ⟨a, b, hs, ha, hb, hk, he⟩ := hf e hn
    rw [State.pairAt_both hs ha hb, hk]
    exact ⟨_, he⟩
theorem PairWord.raises (p : PairWord i h o f s) {need : Word → Prop} {code : BitVec 8} {val : Word}
    (hf : ∀ e, need e → ∃ a b, slotOk (s.slotOf o) = true ∧ s.tdesc s.cur e (Nest.of (s.slotOf o)).tida = some a ∧ s.tdesc s.cur e (Nest.of (s.slotOf o)).tidb = some b ∧
      pairOk (Nest.of (s.slotOf o)) a b = true ∧ f e (Nest.of (s.slotOf o), a, b) = .inr (.fault code val)) : MtxRaises i h none need code val s :=
  .of_mtxWord p.2 fun e hn => by
    obtain ⟨a, b, hs, ha, hb, hk, he⟩ := hf e hn
    rw [State.pairAt_both hs ha hb, hk]
    exact he
end

/-- Whether a drain finds its tile: the tensors of A and C, a format of C that the tile's kind allows, and no clamp of an I32 tile (R423, R432). -/
def TileFits (s : State) (ws : List Word) (clamp fmt : Bool) (e : Word) : Prop :=
  slotOk ws = true ∧ ∃ a c, s.tdesc s.cur e (Nest.of ws).tida = some a ∧ s.tdesc s.cur e (Nest.of ws).tidc = some c ∧
    (fmt = true → cFmtOk (a.fmt == 8) c.fmt = true) ∧ (clamp = true → a.fmt ≠ 8 ∧ (Nest.of ws).cle ≠ 0xFF)
theorem TileFits.cAt {s : State} {ws : List Word} {clamp fmt : Bool} {e : Word} (t : TileFits s ws clamp fmt e) (w : Word) : ∃ y, s.cAt e w ws clamp fmt = .inl y := by
  obtain ⟨hs, a, c, ha, hc, hok⟩ := t
  exact ⟨_, (State.cAt_both hs ha hc).1 hok⟩

section
variable {i : Instr} {h : Hdr} {o : MG} {s : State}
theorem TileWord.settles (p : TileWord i h o (fun _ _ => .inl { nest := s.slotOf o, seed := s.me.seed }) s) :
    let ws := s.slotOf o
    let x := Nest.of ws
    MtxIssues i h none (TileFits s ws (o.q.getLsbD 4) true) ws s.me.seed (fun _ => 0) id s ∧
    MtxRaises i h none (fun _ => slotOk ws = false) 0x01 i.word s ∧
    (MtxRaises i h none (fun e => slotOk ws = true ∧ s.tdesc s.cur e x.tida = none) 0x08 (x.tida.setWidth 64) s ∧
      (false = true → MtxRaises i h none (fun e => slotOk ws = true ∧ s.tdesc s.cur e x.tida ≠ none ∧ s.tdesc s.cur e x.tidb = none) 0x08 (x.tidb.setWidth 64) s) ∧
      (false = false → MtxRaises i h none (fun e => slotOk ws = true ∧ s.tdesc s.cur e x.tida ≠ none ∧ s.tdesc s.cur e x.tidc = none) 0x08 (x.tidc.setWidth 64) s)) ∧
    MtxRaises i h none (fun e => ∃ a c, slotOk ws = true ∧ s.tdesc s.cur e x.tida = some a ∧ s.tdesc s.cur e x.tidc = some c ∧
      ¬TileFits s ws (o.q.getLsbD 4) true e) 0x01 i.word s := by
  obtain ⟨hw, hi⟩ := p
  refine ⟨.of_mtxWord hi hw fun e ht => ?_, .of_mtxWord hi fun e hs => ?_, ⟨.of_mtxWord hi fun e ha => ?_, fun hf => Bool.noConfusion hf,
    fun _ => .of_mtxWord hi fun e hc => ?_⟩, .of_mtxWord hi fun e hp => ?_⟩
  · obtain ⟨y, hy⟩ := ht.cAt i.word
    rw [hy]
    exact ⟨_, rfl⟩
  · rw [State.cAt_slot hs]
    rfl
  · rw [State.cAt_noA ha.1 ha.2]
    rfl
  · rw [State.cAt_noC hc.1 hc.2.1 hc.2.2]
    rfl
  · obtain ⟨a, c, hs, ha, hc, hno⟩ := hp
    rw [(State.cAt_both hs ha hc).2 fun hok => hno ⟨hs, a, c, ha, hc, hok⟩]
    rfl
end

/-- Settles O37: each word by the test that it makes, of a pair of tensors (`PairWord`) or of the tile of C (`TileWord`). -/
theorem matrixIssue : Obligations.MatrixIssue := by
  unfold Obligations.MatrixIssue
  intro h o s ws x n pair out simple takes bad lost drn go
  have hsimple : ∀ {i : Instr} {pop : Option Nat}, exec i s = mtxWord h i.word pop (fun _ => .inl {}) s → hdrOf i.word = h → simple i pop :=
    fun hi hw => .of_mtxWord hi hw fun _ _ => ⟨_, rfl⟩
  have hout : ∀ {clamp fmt : Bool} {e : Word} (w : Word), out clamp fmt e → ∃ y, s.cAt e w ws clamp fmt = .inl y := fun w ht => TileFits.cAt ht w
  have hmdrain := (mtxDrain_tile h o s (i := .mdrain h o) rfl rfl).settles
  have hmdraina := (mtxDrain_tile h o s (i := .mdraina h o) rfl rfl).settles
  refine ⟨?_, ?_, ?_, ?_, ?_, ?_, ?_, ?_, ?_, ?_, hmdrain.1, hmdraina.1, ?_, ?_, ?_, ?_, ?_⟩
  · exact hsimple rfl (Laws.hdrOf_packMG ..)
  · exact hsimple rfl (Laws.hdrOf_packMG ..)
  · exact hsimple rfl (Laws.hdrOf_packMG ..)
  · exact hsimple rfl (Laws.hdrOf_packMG ..)
  · exact hsimple rfl (Laws.hdrOf_packMG ..)
  · exact hsimple rfl (Laws.hdrOf_packMG ..)
  · exact hsimple rfl (Laws.hdrOf_packMG ..)
  · exact (mlda_pair h o s).issues fun e ⟨a, b, hs, ha, hb, hk⟩ => ⟨a, b, hs, ha, hb, hk, rfl⟩
  · exact (mldb_pair h o s).issues fun e ⟨a, b, ⟨hs, ha, hb, hk⟩, hle⟩ => ⟨a, b, hs, ha, hb, hk, if_neg (Nat.not_lt.mpr hle)⟩
  · refine (minit_pair h o s).issues fun e ⟨⟨a, b, hs, ha, hb, hk⟩, ht⟩ => ⟨a, b, hs, ha, hb, hk, ?_⟩
    obtain ⟨y, hy⟩ := hout (packMG h 0x64 0 o) ht
    exact congrArg (Sum.elim _ _) hy
  · refine (mgo_pair h o s).issues fun e ⟨a, b, ⟨hs, ha, hb, hk⟩, ht, hgo⟩ => ⟨a, b, hs, ha, hb, hk, ?_⟩
    obtain ⟨y, hy⟩ := hout (packMG h 0x62 0 o) ht
    refine (congrArg (Sum.elim _ _) hy).trans ?_
    have hgo' : mgoOk (Nest.of (s.slotOf o)) (groupOf a.fmt) s.me.cw e (o.q.getLsbD 0) = true := hgo
    rw [Sum.elim_inl]
    refine (if_neg (by simpa using hgo')).trans ?_
    simp only [mgoTake, beq_iff_eq]
    rfl
  · intro i hi
    simp only [List.mem_cons, List.not_mem_nil, or_false] at hi
    rcases hi with rfl | rfl | rfl | rfl
    · exact (mlda_pair h o s).faults
    · exact (mldb_pair h o s).faults
    · exact (minit_pair h o s).faults
    · exact (mgo_pair h o s).faults
  · intro i hi
    simp only [List.mem_cons, List.not_mem_nil, or_false] at hi
    rcases hi with rfl | rfl
    · exact hmdrain.2
    · exact hmdraina.2
  · exact (mldb_pair h o s).raises fun e ⟨a, b, ⟨hs, ha, hb, hk⟩, hlt⟩ => ⟨a, b, hs, ha, hb, hk, if_pos hlt⟩
  · refine (mgo_pair h o s).raises fun e ⟨a, b, ⟨hs, ha, hb, hk⟩, ht, hgo⟩ => ⟨a, b, hs, ha, hb, hk, ?_⟩
    obtain ⟨y, hy⟩ := hout (packMG h 0x62 0 o) ht
    refine (congrArg (Sum.elim _ _) hy).trans ?_
    have hgo' : mgoOk (Nest.of (s.slotOf o)) (groupOf a.fmt) s.me.cw e (o.q.getLsbD 0) = false := hgo
    rw [Sum.elim_inl]
    exact if_pos (by simpa using hgo')

end Sys2Proof.Machine
end

section
/-! PROOFS of the CommonWords statement (O41): ILL on a supervisor core does not name a coordinate at or past ELAST. -/

set_option Elab.async false

namespace Sys2Proof.Machine

/-- The E0 supervisor core, with a trap handler and an ELAST that is not 0. -/
def supWithElast : State := { cores := [(256, { tvec := 8, cc := { elast := 1 } })], cur := 256, curEng := .cc }

/-- The coordinate that a trap of the core has captured. -/
def capturedCrd (r : Result) : Word :=
  match r with
  | .next t => (t.core 256).trapE
  | _ => 0

/-- Refutes O41: a word of a supervisor core stands at coordinate 0 (R323), whatever its ELAST; there ILL raises ILLEGAL at 0, below an ELAST of 1. -/
theorem not_commonWords : ¬ Obligations.CommonWords := by
  unfold Obligations.CommonWords
  rintro ⟨-, ill⟩
  obtain ⟨e, he, hle⟩ := ill 0 supWithElast
  have hcrd : capturedCrd (exec (.ill 0) supWithElast) = 0 := by decide
  have hcap : capturedCrd (.next (supWithElast.raise supWithElast.cur supWithElast.curEng 0x01 0 e true (supWithElast.me.eng supWithElast.curEng).ring.head)) = e := rfl
  rw [he, hcap] at hcrd
  rw [hcrd] at hle
  exact absurd hle (by decide)

end Sys2Proof.Machine
end

section
/-! PROOFS of the MatrixCommit statement (O38): one write further of the issued word of a core, and a point of MGO (R287, R424, R429 to R431, R434). -/

set_option Elab.async false

namespace Sys2Proof.Machine

/-! ### An engine with one issued word (R424) -/

theorem State.selfClear_unparked {s : State} {n : Nat} {eng : Eng} (h : ((s.core n).eng eng).park = none) : s.selfClear n eng = s := by
  unfold State.selfClear
  rw [h]
theorem State.commitMtx_stopped {s : State} {n : Nat} (hp : (s.core n).mtx.park = none) (h : ¬s.engRuns n .mtx = true) : s.commitMtx n = s := by
  unfold State.commitMtx
  rw [State.selfClear_unparked (eng := .mtx) hp]
  exact if_neg h
theorem State.engRuns_mtx {s : State} {n : Nat} (h : s.engRuns n .mtx = true) : (s.core n).mtx.park = none := by
  unfold State.engRuns at h
  simp only [Bool.and_eq_true] at h
  obtain ⟨⟨-, hpark⟩, -⟩ := h
  simpa [Core.eng] using hpark

section
variable {s : State} {n : Nat} {o : MtxOp} (ho : (s.core n).mx.ops = [o])
include ho
theorem Core.mtxAfter_one : (s.core n).mtxAfter o = false := by
  unfold Core.mtxAfter
  rw [ho]
  simp
theorem State.commitMtx_one (hr : s.engRuns n .mtx = true) : s.commitMtx n = (s.mtxTry n o).getD s := by
  unfold State.commitMtx
  rw [State.selfClear_unparked (eng := .mtx) (State.engRuns_mtx hr)]
  dsimp only
  rw [if_pos hr, ho, State.mtxPick]
  rcases s.mtxTry n o with _ | t <;> rfl
variable (hc : s.clear o.after = true) (hr : s.engRuns n .mtx = true)
include hc hr
theorem State.commitMtx_no (ha : s.mtxAdv n o = .no) : s.commitMtx n = s := by
  rw [State.commitMtx_one ho hr, State.mtxTry, hc, Core.mtxAfter_one ho, ha]
  rfl
theorem State.commitMtx_go {t : State} (ha : s.mtxAdv n o = .go t) : s.commitMtx n = t := by
  rw [State.commitMtx_one ho hr, State.mtxTry, hc, Core.mtxAfter_one ho, ha]
  rfl
end

/-! ### Writes and retirement (R424) -/

theorem State.writeOk_iff (s : State) (n : Nat) (c : Word) : s.writeOk n c = true ↔ c.toNat ≤ (s.horizonOf n).toNat ∧ s.stopAtOrBelow n c = false := by
  rw [State.writeOk, Bool.and_eq_true, BitVec.ule_eq_decide, decide_eq_true_iff, Bool.not_eq_true']

/-- What retirement of an issued word leaves of its core. -/
theorem State.mtxRetire_left {s : State} {n : Nat} {o : MtxOp} (hs : (hdrOf o.w).sig = 0 ∨ ((s.core n).tok.get {} (hdrOf o.w).sig.toNat).count.toNat < 0xFFFF) :
    CoreOnly s (s.mtxRetire n o) n ∧ ∃ y tok peel idle hung, (s.mtxRetire n o).core n = { s.core n with
      mtx := y, mx := { (s.core n).mx with ops := (s.core n).mx.ops.filter fun p => p.id != o.id }, tok := tok, peel := peel, idle := idle, hung := hung } := by
  obtain ⟨u, hu⟩ : ∃ u, u = s.modCore n fun c => { c with mx := { c.mx with ops := c.mx.ops.filter fun p => p.id != o.id } } := ⟨_, rfl⟩
  have hcu : u.core n = { s.core n with mx := { (s.core n).mx with ops := (s.core n).mx.ops.filter fun p => p.id != o.id } } := by
    rw [hu]
    exact s.core_modCore_self ..
  obtain ⟨hor, y, hr, -⟩ := u.retireIss_core n .mtx o.id
  have htok : ((u.retireIss n .mtx o.id).core n).tok = (s.core n).tok := by
    rw [hr, hcu]
    rfl
  have touch := (u.retireIss n .mtx o.id).signal_touch n .mtx .mtx (hdrOf o.w).sig.toNat o.pe (u.core n).mtx.before o.slot
    (by rw [htok]; exact hs.imp (fun hz => by rw [hz]; rfl) fun h => h)
  have he : s.mtxRetire n o = (u.retireIss n .mtx o.id).signal n .mtx (hdrOf o.w).sig.toNat 1 o.pe (u.core n).mtx.before o.slot := by
    rw [hu]
    rfl
  rw [he]
  exact ⟨((hu ▸ CoreOnly.modCore s n _).trans hor).trans touch.only, _, _, _, _, _, by rw [touch.core, hr, hcu]; rfl⟩

/-- What a commit leaves alone beside the matrix engine. -/
def MtxSame (s t : State) (n : Nat) : Prop :=
  t.mem = s.mem ∧ (∀ m, m ≠ n → t.core m = s.core m) ∧ (t.core n).v = (s.core n).v ∧ (t.core n).g = (s.core n).g ∧ (t.core n).s = (s.core n).s ∧
    (t.core n).spad = (s.core n).spad ∧ (t.core n).hold = (s.core n).hold ∧ t.flying = s.flying
theorem MtxSame.of_core {s t : State} {n : Nat} (ho : CoreOnly s t n) (hv : (t.core n).v = (s.core n).v) (hg : (t.core n).g = (s.core n).g)
    (hs : (t.core n).s = (s.core n).s) (hp : (t.core n).spad = (s.core n).spad) (hh : (t.core n).hold = (s.core n).hold) : MtxSame s t n :=
  ⟨ho.mem, ho.2, hv, hg, hs, hp, hh, by rw [ho.1]⟩

section
variable {s : State} {n : Nat} {o : MtxOp} (ho : (s.core n).mx.ops = [o])
  (hs : (hdrOf o.w).sig = 0 ∨ ((s.core n).tok.get {} (hdrOf o.w).sig.toNat).count.toNat < 0xFFFF)
include ho hs

/-- A word that writes nothing retires. -/
theorem State.mtxRetire_same : MtxSame s (s.mtxRetire n o) n ∧ ((s.mtxRetire n o).core n).mx = { (s.core n).mx with ops := [] } := by
  obtain ⟨hco, y, tok, peel, idle, hung, hc⟩ := State.mtxRetire_left hs
  refine ⟨.of_core hco ?_ ?_ ?_ ?_ ?_, ?_⟩
  all_goals rw [hc]
  dsimp only
  rw [ho]
  simp
/-- A word with one write makes it and retires. -/
theorem State.mtxWrite_retire (g : Mtx → Mtx) (hg : ∀ m, (g m).ops = m.ops) :
    MtxSame s ((s.mtxWrite n o.pe 0 g).mtxRetire n o) n ∧ (((s.mtxWrite n o.pe 0 g).mtxRetire n o).core n).dq = (s.core n).dq ∧
      (((s.mtxWrite n o.pe 0 g).mtxRetire n o).core n).mx = { g (s.core n).mx with lastc := o.pe, ops := [] } := by
  have hcw : (s.mtxWrite n o.pe 0 g).core n = { s.core n with
      flags := (s.core n).flags ||| 0, mx := { g (s.core n).mx with flags := (g (s.core n).mx).flags ||| 0, lastc := o.pe } } := s.core_modCore_self ..
  obtain ⟨hco, y, tok, peel, idle, hung, hc⟩ := State.mtxRetire_left (s := s.mtxWrite n o.pe 0 g) (n := n) (o := o) (by rw [hcw]; exact hs)
  have how : CoreOnly s (s.mtxWrite n o.pe 0 g) n := .modCore ..
  rw [hcw] at hc
  refine ⟨.of_core (how.trans hco) ?_ ?_ ?_ ?_ ?_, ?_, ?_⟩
  all_goals rw [hc]
  dsimp only
  rw [hg, ho]
  simp
end

/-! ### MSTAT (R434, Table 19.9) -/

/-- The four flags of the status vector, as a number. -/
def Mtx.statusBits (m : Mtx) : Nat :=
  (if m.front then 1 else 0) + (if (m.half m.front).valid then 2 else 0) + (if (m.half (!m.front)).valid then 4 else 0) + (if m.avalid then 8 else 0)
theorem Mtx.statusBits_testBit (m : Mtx) : m.statusBits.testBit 0 = m.front ∧ m.statusBits.testBit 1 = (m.half m.front).valid ∧
    m.statusBits.testBit 2 = (m.half (!m.front)).valid ∧ m.statusBits.testBit 3 = m.avalid ∧ m.statusBits < 2 ^ 4 := by
  unfold Mtx.statusBits
  generalize m.front = a, (m.half m.front).valid = b, (m.half (!m.front)).valid = c, m.avalid = d
  revert a b c d
  decide
theorem Mtx.status_bit (m : Mtx) {j : Nat} (hj : j < 2048) : m.status.getLsbD j =
    (m.points.getLsbD j || (!decide (j < 64) && m.lastc.getLsbD (j - 64)) || (!decide (j < 128) && m.flags.getLsbD (j - 128)) ||
      (!decide (j < 136) && m.statusBits.testBit (j - 136))) := by
  have hk : m.status = (m.points.setWidth 2048) ||| (m.lastc.setWidth 2048 <<< 64) ||| (m.flags.setWidth 2048 <<< 128) ||| (BitVec.ofNat 2048 m.statusBits <<< 136) := rfl
  have h1 : j - 64 < 2048 := by omega
  have h2 : j - 128 < 2048 := by omega
  have h3 : j - 136 < 2048 := by omega
  rw [hk]
  simp only [BitVec.getLsbD_or, BitVec.getLsbD_shiftLeft, BitVec.getLsbD_setWidth, BitVec.getLsbD_ofNat, hj, h1, h2, h3, decide_true, Bool.true_and]
/-- The fields of the status vector. -/
theorem Mtx.status_fields (m : Mtx) :
    m.status.extractLsb' 0 64 = m.points ∧ m.status.extractLsb' 64 64 = m.lastc ∧ m.status.extractLsb' 128 8 = m.flags ∧ m.status.getLsbD 136 = m.front ∧
      m.status.getLsbD 137 = (m.half m.front).valid ∧ m.status.getLsbD 138 = (m.half (!m.front)).valid ∧ m.status.getLsbD 139 = m.avalid ∧
      m.status.toNat < 2 ^ 140 := by
  obtain ⟨k0, k1, k2, k3, hk⟩ := m.statusBits_testBit
  have hp : ∀ j, 64 ≤ j → m.points.getLsbD j = false := fun j hj => BitVec.getLsbD_of_ge _ _ hj
  have hl : ∀ j, 64 ≤ j → m.lastc.getLsbD j = false := fun j hj => BitVec.getLsbD_of_ge _ _ hj
  have hf : ∀ j, 8 ≤ j → m.flags.getLsbD j = false := fun j hj => BitVec.getLsbD_of_ge _ _ hj
  refine ⟨?_, ?_, ?_, ?_, ?_, ?_, ?_, ?_⟩
  · refine BitVec.eq_of_getLsbD_eq fun i hi => ?_
    rw [BitVec.getLsbD_extractLsb', Nat.zero_add, m.status_bit (by omega)]
    simp [hi, show i < 128 by omega, show i < 136 by omega]
  · refine BitVec.eq_of_getLsbD_eq fun i hi => ?_
    rw [BitVec.getLsbD_extractLsb', m.status_bit (by omega), hp _ (by omega)]
    simp [hi, show 64 + i < 128 by omega, show 64 + i < 136 by omega]
  · refine BitVec.eq_of_getLsbD_eq fun i hi => ?_
    rw [BitVec.getLsbD_extractLsb', m.status_bit (by omega), hp _ (by omega), hl _ (by omega)]
    simp [hi, show 128 + i < 136 by omega]
  · rw [m.status_bit (by omega), hp _ (by omega), hl _ (by omega), hf _ (by omega)]
    simpa using k0
  · rw [m.status_bit (by omega), hp _ (by omega), hl _ (by omega), hf _ (by omega)]
    simpa using k1
  · rw [m.status_bit (by omega), hp _ (by omega), hl _ (by omega), hf _ (by omega)]
    simpa using k2
  · rw [m.status_bit (by omega), hp _ (by omega), hl _ (by omega), hf _ (by omega)]
    simpa using k3
  · refine Nat.lt_pow_two_of_testBit _ fun i hi => ?_
    show m.status.getLsbD i = false
    by_cases h : i < 2048
    · rw [m.status_bit h, hp _ (by omega), hl _ (by omega), hf _ (by omega)]
      have : m.statusBits.testBit (i - 136) = false := Nat.testBit_lt_two_pow (hk.trans_le (Nat.pow_le_pow_right (by omega) (by omega)))
      simp [this]
    · exact BitVec.getLsbD_of_ge _ _ (by omega)

section
variable {s : State} {n : Nat} {o : MtxOp} (ho : (s.core n).mx.ops = [o])
  (hs : (hdrOf o.w).sig = 0 ∨ ((s.core n).tok.get {} (hdrOf o.w).sig.toNat).count.toNat < 0xFFFF)
include ho hs
/-- MSTAT pushes its vector, and retires. -/
theorem State.mstat_left {q : Nat} (hq : q < 4) :
    let t := ((s.mtxPush n q o.pe (s.core n).mx.status).mtxWrite n o.pe 0 id).mtxRetire n o
    MtxSame s t n ∧ (t.core n).mx = { (s.core n).mx with lastc := o.pe, ops := [] } ∧
      (t.core n).queue q = (s.core n).queue q ++ [{ data := (s.core n).mx.status, e := o.pe, id := s.nextId }] := by
  intro t
  obtain ⟨u, hu⟩ : ∃ u, u = s.mtxPush n q o.pe (s.core n).mx.status := ⟨_, rfl⟩
  have hcu : u.core n = { s.core n with dq := (s.core n).dq.set [] q ((s.core n).queue q ++ [{ data := (s.core n).mx.status, e := o.pe, id := s.nextId }]) } := by
    rw [hu, ← Core.setQueue_data _ hq]
    exact s.core_modCore_self ..
  have hou : CoreOnly s u n := hu ▸ .modCore ..
  obtain ⟨hsame, hdq, hmx⟩ := State.mtxWrite_retire (s := u) (n := n) (o := o) (by rw [hcu]; exact ho) (by rw [hcu]; exact hs) id fun _ => rfl
  have ht : t = (u.mtxWrite n o.pe 0 id).mtxRetire n o := by rw [hu]
  rw [ht]
  obtain ⟨hmem, hothers, hv, hg, hss, hsp, hh, hf⟩ := hsame
  refine ⟨⟨hmem.trans hou.mem, fun m hm => (hothers m hm).trans (hou.2 m hm), ?_, ?_, ?_, ?_, ?_, hf.trans (by rw [hou.1])⟩, ?_, ?_⟩
  · rw [hv, hcu]
  · rw [hg, hcu]
  · rw [hss, hcu]
  · rw [hsp, hcu]
  · rw [hh, hcu]
  · rw [hmx, hcu]
    rfl
  · have hqueue : ∀ c : Core, c.queue q = c.dq.get [] q := fun c => if_pos hq
    rw [hqueue, hdq, hcu]
    exact SMap.get_set_self ..
end

/-! ### Lists in pieces of one length -/

theorem flatMap_piece {α β : Type} {l : List α} {f : α → List β} {g : Nat} (hf : ∀ x ∈ l, (f x).length = g) {i : Nat} (hi : i < l.length) (d : α) :
    ((l.flatMap f).drop (g * i)).take g = f (l.getD i d) := by
  induction l generalizing i with
  | nil => exact absurd hi (Nat.not_lt_zero i)
  | cons x l ih =>
    have hx := hf x (List.mem_cons_self ..)
    rw [List.flatMap_cons]
    cases i with
    | zero => rw [Nat.mul_zero, List.drop_zero, List.take_left' hx]; rfl
    | succ i =>
      rw [Nat.mul_succ, Nat.add_comm, ← List.drop_drop, List.drop_left' hx, ih (fun y hy => hf y (List.mem_cons_of_mem _ hy)) (Nat.lt_of_succ_lt_succ hi)]
      rfl
theorem zip_flatMap {α β γ : Type} {l : List α} {f : α → List β} {h : α → List γ} (hl : ∀ x, (f x).length = (h x).length) :
    (l.flatMap f).zip (l.flatMap h) = l.flatMap fun x => (f x).zip (h x) := by
  induction l with
  | nil => rfl
  | cons x l ih => rw [List.flatMap_cons, List.flatMap_cons, List.flatMap_cons, List.zip_append (hl x), ih]
theorem range_map_getD {α β : Type} (l : List α) (d : α) (f : α → β) : (List.range l.length).map (fun i => f (l.getD i d)) = l.map f := by
  refine List.ext_getElem (by simp) fun i hi _ => ?_
  rw [List.length_map, List.length_range] at hi
  rw [List.getElem_map, List.getElem_map, List.getElem_range, List.getD_eq_getElem _ _ hi]

theorem range_flatMap_getD {α β : Type} (l : List α) (d : α) (f : α → List β) : (List.range l.length).flatMap (fun i => f (l.getD i d)) = l.flatMap f := by
  rw [List.flatMap_def, List.flatMap_def, range_map_getD]

/-! ### The accumulators (R289) -/

theorem Mtx.acc_setAcc_other (x : Mtx) (t : Bool) (m n m' n' : Nat) (v : BitVec 32) : (x.setAcc t m n v).acc (!t) m' n' = x.acc (!t) m' n' := by
  cases t <;> rfl
theorem Mtx.acc_setAcc (x : Mtx) (t : Bool) (m : Nat) {n : Nat} (hn : n < 128) (m' : Nat) {n' : Nat} (hn' : n' < 128) (v : BitVec 32) :
    (x.setAcc t m n v).acc t m' n' = if m = m' ∧ n = n' then v else x.acc t m' n' := by
  have hkey : 128 * m' + n' = 128 * m + n ↔ m = m' ∧ n = n' := by omega
  cases t
  · show (SMap.set 0 x.acc0 (128 * m + n) v).get 0 (128 * m' + n') = _
    rw [SMap.get_set]
    simp only [hkey]
    rfl
  · show (SMap.set 0 x.acc1 (128 * m + n) v).get 0 (128 * m' + n') = _
    rw [SMap.get_set]
    simp only [hkey]
    rfl
/-- Outputs written one after the other. -/
def Mtx.putAccs (x : Mtx) (t : Bool) (outs : List (Nat × Nat × BitVec 32 × Flags)) : Mtx := outs.foldl (fun m r => m.setAcc t r.1 r.2.1 r.2.2.1) x
theorem Mtx.putAccs_frame (x : Mtx) (t : Bool) (outs : List (Nat × Nat × BitVec 32 × Flags)) :
    x.putAccs t outs = { x with acc0 := (x.putAccs t outs).acc0, acc1 := (x.putAccs t outs).acc1 } := by
  induction outs generalizing x with
  | nil => rfl
  | cons r outs ih =>
    have h1 : x.putAccs t (r :: outs) = (x.setAcc t r.1 r.2.1 r.2.2.1).putAccs t outs := rfl
    rw [h1, ih]
    cases t <;> rfl
theorem Mtx.acc_putAccs_other (x : Mtx) (t : Bool) (outs : List (Nat × Nat × BitVec 32 × Flags)) (m n : Nat) : (x.putAccs t outs).acc (!t) m n = x.acc (!t) m n := by
  induction outs generalizing x with
  | nil => rfl
  | cons r outs ih => exact (ih _).trans (x.acc_setAcc_other ..)
/-- An output that a word does not write stands, -/
theorem Mtx.acc_putAccs_out {t : Bool} {outs : List (Nat × Nat × BitVec 32 × Flags)} (hb : ∀ r ∈ outs, r.2.1 < 128) {m n : Nat} (hn : n < 128)
    (hno : ∀ r ∈ outs, ¬(r.1 = m ∧ r.2.1 = n)) (x : Mtx) : (x.putAccs t outs).acc t m n = x.acc t m n := by
  induction outs generalizing x with
  | nil => rfl
  | cons r outs ih =>
    refine (ih (fun y hy => hb y (List.mem_cons_of_mem _ hy)) (fun y hy => hno y (List.mem_cons_of_mem _ hy)) (x.setAcc t r.1 r.2.1 r.2.2.1)).trans ?_
    rw [x.acc_setAcc t r.1 (hb r (List.mem_cons_self ..)) m hn, if_neg (hno r (List.mem_cons_self ..))]
/-- and one that it writes is what the word gives. -/
theorem Mtx.acc_putAccs_in {t : Bool} {outs : List (Nat × Nat × BitVec 32 × Flags)} (hb : ∀ r ∈ outs, r.2.1 < 128) {m n : Nat} (hn : n < 128) {v : BitVec 32}
    (hv : ∀ r ∈ outs, r.1 = m → r.2.1 = n → r.2.2.1 = v) {x : Mtx} (h : (∃ r ∈ outs, r.1 = m ∧ r.2.1 = n) ∨ x.acc t m n = v) :
    (x.putAccs t outs).acc t m n = v := by
  induction outs generalizing x with
  | nil => exact h.resolve_left (by simp)
  | cons r outs ih =>
    refine ih (fun y hy => hb y (List.mem_cons_of_mem _ hy)) (fun y hy => hv y (List.mem_cons_of_mem _ hy)) (x := x.setAcc t r.1 r.2.1 r.2.2.1) ?_
    rw [x.acc_setAcc t r.1 (hb r (List.mem_cons_self ..)) m hn]
    by_cases hr : r.1 = m ∧ r.2.1 = n
    · rw [if_pos hr]
      exact .inr (hv r (List.mem_cons_self ..) hr.1 hr.2)
    · rw [if_neg hr]
      refine h.imp_left fun ⟨y, hy, hk⟩ => ?_
      rcases List.mem_cons.mp hy with rfl | hy
      · exact absurd hk hr
      · exact ⟨y, hy, hk⟩

/-! ### A point of MGO (R287, R418, R431) -/

/-- Element `i` of row `m` of a point's A operand, from the stage. -/
def Mtx.stageCode (mx : Mtx) (x : Nest) (d : TDesc) (oA : List Nat) (m i : Nat) : Option (BitVec 32) :=
  (blockAt d oA x.adm m x.adk i).map fun _ => stageElem d.fmt (mx.arow.get 0 m) (oA.getD x.adk 0 - mx.aK + i)
/-- Element `i` of column `j` of its B operand, from the panel. -/
def WRec.panelCode (r : WRec) (x : Nest) (oB : List Nat) (j i : Nat) : Option (BitVec 32) :=
  r.elems.get none (128 * (oB.getD x.bdk 0 - r.k0 + i) + j)
/-- The rows that a point writes, -/
def Mtx.pointRows (mx : Mtx) (x : Nest) (d : TDesc) (oA : List Nat) : List Nat :=
  mx.rows.filter fun m => oA.getD x.adm 0 + m < d.dims.getD x.adm 0 && !(x.asrc && mx.anop.get false m)
/-- and the columns. -/
def Mtx.pointCols (mx : Mtx) (x : Nest) (d : TDesc) (oB : List Nat) : List Nat :=
  mx.cols.filter fun j => oB.getD x.bdn 0 + j < d.dims.getD x.bdn 0

theorem Mtx.mem_pointRows {mx : Mtx} {x : Nest} {d : TDesc} {oA : List Nat} (ha : x.asrc = true) (m : Nat) : m ∈ mx.pointRows x d oA ↔
    m < 128 ∧ mx.rmask.getLsbD m = true ∧ oA.getD x.adm 0 + m < d.dims.getD x.adm 0 ∧ mx.anop.get false m = false := by
  rw [Mtx.pointRows, Mtx.rows, List.mem_filter, List.mem_filter, List.mem_range, ha, Bool.true_and, Bool.and_eq_true, decide_eq_true_iff, Bool.not_eq_true']
  tauto
theorem Mtx.mem_pointCols {mx : Mtx} {x : Nest} {d : TDesc} {oB : List Nat} (j : Nat) : j ∈ mx.pointCols x d oB ↔
    j < 128 ∧ mx.cmask.getLsbD j = true ∧ oB.getD x.bdn 0 + j < d.dims.getD x.bdn 0 := by
  rw [Mtx.pointCols, Mtx.cols, List.mem_filter, List.mem_filter, List.mem_range, decide_eq_true_iff]
  tauto

section
variable {s : State} {n : Nat} {o : MtxOp} {x : Nest} {d : TDesc} {g : Nat}

/-- Operands that stand in the stage are read there. -/
theorem State.pointA_stage {oA : List Nat} (ha : x.asrc = true) (hvalid : (s.core n).mx.avalid = true) (hlo : (s.core n).mx.aK ≤ oA.getD x.adk 0)
    (hhi : oA.getD x.adk 0 - (s.core n).mx.aK + g ≤ stageLen d.fmt) {rows : List Nat} (hrows : ∀ m ∈ rows, (s.core n).mx.anop.get false m = false)
    (k : List (Option (BitVec 32)) → State → Adv) :
    s.pointA n o x d oA g rows k = k (rows.flatMap fun m => (List.range g).map fun i => (s.core n).mx.stageCode x d oA m i) s := by
  unfold State.pointA
  dsimp only
  rw [if_pos ha, if_neg]
  · congr 1
    rw [zip_flatMap (fun m => by rw [List.length_map, List.length_map]), List.map_flatMap]
    refine List.flatMap_congr fun m hm => ?_
    rw [List.zip_map', List.map_map, hrows m hm]
    refine List.map_congr_left fun i _ => ?_
    have hk : ((oA.getD x.adk 0 : Int) - (s.core n).mx.aK).toNat = oA.getD x.adk 0 - (s.core n).mx.aK := by omega
    rw [Function.comp, hk]
    unfold Mtx.stageCode
    rcases blockAt d oA x.adm m x.adk i with _ | y <;> rfl
  · rw [hvalid]
    simp only [Bool.not_true, Bool.false_or, Bool.or_eq_true, decide_eq_true_iff]
    omega
/-- Operands that stand in the panel are read there. -/
theorem State.pointB_panel {oB : List Nat} (hb : x.bsrc = true) (hvalid : ((s.core n).mx.half (s.core n).mx.front).valid = true)
    (htid : ((s.core n).mx.half (s.core n).mx.front).tidb = x.tidb) (hmode : ((s.core n).mx.half (s.core n).mx.front).bmode = x.bmode)
    (hn : ((s.core n).mx.half (s.core n).mx.front).n0 = oB.getD x.bdn 0) (hlo : ((s.core n).mx.half (s.core n).mx.front).k0 ≤ oB.getD x.bdk 0)
    (hhi : oB.getD x.bdk 0 - ((s.core n).mx.half (s.core n).mx.front).k0 + g ≤ 32 * ((s.core n).mx.half (s.core n).mx.front).groups) {cols : List Nat}
    (k : List (Option (BitVec 32)) → State → Adv) :
    s.pointB n o x d oB g cols k =
      k (cols.flatMap fun j => (List.range g).map fun i => ((s.core n).mx.half (s.core n).mx.front).panelCode x oB j i) s := by
  unfold State.pointB
  dsimp only
  rw [if_pos hb, if_neg]
  · have hk : ((oB.getD x.bdk 0 : Int) - ((s.core n).mx.half (s.core n).mx.front).k0).toNat = oB.getD x.bdk 0 - ((s.core n).mx.half (s.core n).mx.front).k0 := by omega
    rw [hk]
    rfl
  · rw [hvalid, htid, hmode, hn]
    simp only [Bool.not_true, Bool.false_or, Bool.or_eq_true, decide_eq_true_iff, bne_self_eq_false]
    omega
end


/-- The pairs that contribute products to an output. -/
def pairCode (a b : Nat → Option (BitVec 32)) (i : Nat) : Option (BitVec 32 × BitVec 32) := (a i).bind fun u => (b i).map fun v => (u, v)
/-- What a point writes: an accumulation group for each output of its rows and columns. -/
def Mtx.pointOuts (mx : Mtx) (t i8 nbv : Bool) (fa fb g : Nat) (rows cols : List Nat) (a b : Nat → Nat → Option (BitVec 32)) : List (Nat × Nat × BitVec 32 × Flags) :=
  rows.flatMap fun m => cols.map fun j => (m, j, pointOut i8 nbv fa fb (mx.acc t m j) ((List.range g).map (pairCode (a m) (b j))))
theorem Mtx.mem_pointOuts {mx : Mtx} {t i8 nbv : Bool} {fa fb g : Nat} {rows cols : List Nat} {a b : Nat → Nat → Option (BitVec 32)}
    {r : Nat × Nat × BitVec 32 × Flags} : r ∈ mx.pointOuts t i8 nbv fa fb g rows cols a b ↔ r.1 ∈ rows ∧ r.2.1 ∈ cols ∧
      r.2.2 = pointOut i8 nbv fa fb (mx.acc t r.1 r.2.1) ((List.range g).map (pairCode (a r.1) (b r.2.1))) := by
  obtain ⟨m, j, v⟩ := r
  simp only [Mtx.pointOuts, List.mem_flatMap, List.mem_map, Prod.mk.injEq]
  constructor
  · rintro ⟨m', hm, j', hj, rfl, rfl, rfl⟩
    exact ⟨hm, hj, rfl⟩
  · rintro ⟨hm, hj, rfl⟩
    exact ⟨m, hm, j, hj, rfl, rfl, rfl⟩
/-- The outputs of a point, from the codes of its operands in pieces of `g`. -/
theorem Mtx.pointOuts_eq (mx : Mtx) (t i8 nbv : Bool) (fa fb g : Nat) (rows cols : List Nat) (a b : Nat → Nat → Option (BitVec 32))
    {φ : Option (BitVec 32) × Option (BitVec 32) → Option (BitVec 32 × BitVec 32)} (hφ : ∀ p, φ p = p.1.bind fun u => p.2.map fun v => (u, v)) :
    ((List.range rows.length).flatMap fun i => (List.range cols.length).map fun j =>
      (rows.getD i 0, cols.getD j 0, pointOut i8 nbv fa fb (mx.acc t (rows.getD i 0) (cols.getD j 0))
        (((((rows.flatMap fun m => (List.range g).map (a m)).drop (g * i)).take g).zip (((cols.flatMap fun j => (List.range g).map (b j)).drop (g * j)).take g)).map φ))) = mx.pointOuts t i8 nbv fa fb g rows cols a b := by
  refine Eq.trans (List.flatMap_congr fun i hi => ?_) (range_flatMap_getD rows 0 _)
  refine Eq.trans (List.map_congr_left fun j hj => ?_) (range_map_getD cols 0 _)
  rw [flatMap_piece (fun m _ => by simp) (List.mem_range.mp hi) 0, flatMap_piece (fun m _ => by simp) (List.mem_range.mp hj) 0, List.zip_map', List.map_map]
  exact congrArg (fun l => (rows.getD i 0, cols.getD j 0, pointOut i8 nbv fa fb (mx.acc t (rows.getD i 0) (cols.getD j 0)) l)) (List.map_congr_left fun k _ => hφ _)


section
variable {s : State} {n : Nat} {o : MtxOp} {x : Nest} {da db dc : TDesc}

/-- A point of MGO whose operands stand in the stage and the panel writes its outputs. -/
theorem State.advMgo_point (hx : x = Nest.of o.nest) (hk : o.k < x.points) (hw : (s.core n).watched o.pe = false) (hdr : o.draining = false) (hp : (s.core n).mx.apend = false)
    (hasrc : x.asrc = true) (hbsrc : x.bsrc = true) (hda : s.tdesc n o.pe x.tida = some da) (hdb : s.tdesc n o.pe x.tidb = some db) (hdc : s.tdesc n o.pe x.tidc = some dc)
    (hoA : originOk da (x.oA o.k) = true) (hoB : originOk db (x.oB o.k) = true) (hoC : originOk dc (x.oC o.k) = true) (hmay : s.writeOk n o.pe = true)
    (ha : (s.core n).mx.avalid = true ∧ (s.core n).mx.aK ≤ (x.oA o.k).getD x.adk 0 ∧ (x.oA o.k).getD x.adk 0 - (s.core n).mx.aK + groupOf da.fmt ≤ stageLen da.fmt)
    (hb : ((s.core n).mx.half (s.core n).mx.front).valid = true ∧ ((s.core n).mx.half (s.core n).mx.front).tidb = x.tidb ∧
      ((s.core n).mx.half (s.core n).mx.front).bmode = x.bmode ∧ ((s.core n).mx.half (s.core n).mx.front).n0 = (x.oB o.k).getD x.bdn 0 ∧
      ((s.core n).mx.half (s.core n).mx.front).k0 ≤ (x.oB o.k).getD x.bdk 0 ∧
      (x.oB o.k).getD x.bdk 0 - ((s.core n).mx.half (s.core n).mx.front).k0 + groupOf da.fmt ≤ 32 * ((s.core n).mx.half (s.core n).mx.front).groups) :
    ∃ f o', s.advMgo n o = .go ((s.mtxWrite n o.pe f fun m =>
      let m := (m.mark (o.w.getLsbD 11) (da.fmt == 8)).putAccs (o.w.getLsbD 11) ((s.core n).mx.pointOuts (o.w.getLsbD 11) (da.fmt == 8) (s.core n).nbv da.fmt db.fmt (groupOf da.fmt)
          ((s.core n).mx.pointRows x da (x.oA o.k)) ((s.core n).mx.pointCols x db (x.oB o.k)) ((s.core n).mx.stageCode x da (x.oA o.k))
          (((s.core n).mx.half (s.core n).mx.front).panelCode x (x.oB o.k)))
      { m with points := m.points + 1 }).setOp n o') := by
  obtain ⟨havalid, halo, hahi⟩ := ha
  obtain ⟨hbvalid, hbtid, hbmode, hbn, hblo, hbhi⟩ := hb
  unfold State.advMgo
  dsimp only
  rw [← hx, if_neg (Nat.not_le.mpr hk), hw, if_neg Bool.false_ne_true, hda, hdb, hdc]
  dsimp only
  rw [hdr, if_neg Bool.false_ne_true, hoA, hoB, hoC, hp]
  simp only [Bool.not_true, Bool.false_eq_true, if_false, Bool.false_and]
  have hrows : ∀ m ∈ (s.core n).mx.pointRows x da (x.oA o.k), (s.core n).mx.anop.get false m = false := fun m hm =>
    ((Mtx.mem_pointRows hasrc m).mp hm).2.2.2
  have hA := State.pointA_stage (g := groupOf da.fmt) (o := o) hasrc havalid halo hahi hrows
  have hB := State.pointB_panel (o := o) (d := db) (cols := (s.core n).mx.pointCols x db (x.oB o.k)) hbsrc hbvalid hbtid hbmode hbn hblo hbhi
  have hrw : (s.core n).mx.rows.filter (fun m => decide ((x.oA o.k).getD x.adm 0 + m < da.dims.getD x.adm 0) && !(x.asrc && (s.core n).mx.anop.get false m)) =
    (s.core n).mx.pointRows x da (x.oA o.k) := rfl
  have hcl : (s.core n).mx.cols.filter (fun j => decide ((x.oB o.k).getD x.bdn 0 + j < db.dims.getD x.bdn 0)) = (s.core n).mx.pointCols x db (x.oB o.k) := rfl
  rw [hrw, hcl, hA, hB, hmay]
  simp only [Bool.not_true, Bool.false_eq_true, if_false]
  refine ⟨_, _, congrArg (fun g => Adv.go ((s.mtxWrite n o.pe _ g).setOp n _)) (funext fun m => ?_)⟩
  refine congrArg (fun outs => let k := (m.mark (o.w.getLsbD 11) (da.fmt == 8)).putAccs (o.w.getLsbD 11) outs
    { k with points := k.points + 1 }) (Mtx.pointOuts_eq _ _ _ _ _ _ _ _ _ _ _ fun p => ?_)
  obtain ⟨_ | u, _ | v⟩ := p <;> rfl
end


/-- What a point leaves: its counter and coordinate, and its outputs. -/
theorem State.pointWrite_left (s : State) (n : Nat) (o o' : MtxOp) (f : Flags) (t i8 : Bool) (outs : List (Nat × Nat × BitVec 32 × Flags)) :
    let u := (s.mtxWrite n o.pe f fun m =>
      let m := (m.mark t i8).putAccs t outs
      { m with points := m.points + 1 }).setOp n o'
    MtxSame s u n ∧ (u.core n).mx.points = (s.core n).mx.points + 1 ∧ (u.core n).mx.lastc = o.pe ∧
      ∀ b m j, (u.core n).mx.acc b m j = ((((s.core n).mx).mark t i8).putAccs t outs).acc b m j := by
  intro u
  obtain ⟨m1, hm1⟩ : ∃ m1, m1 = (((s.core n).mx).mark t i8).putAccs t outs := ⟨_, rfl⟩
  have hpts : m1.points = (s.core n).mx.points := by
    rw [hm1, Mtx.putAccs_frame]
    cases t <;> rfl
  obtain ⟨v, hv⟩ : ∃ v, v = s.mtxWrite n o.pe f fun m =>
    let m := (m.mark t i8).putAccs t outs
    { m with points := m.points + 1 } := ⟨_, rfl⟩
  have hcv : v.core n = { s.core n with flags := (s.core n).flags ||| f, mx := { m1 with points := m1.points + 1, flags := m1.flags ||| f, lastc := o.pe } } := by
    rw [hv, hm1]
    exact s.core_modCore_self ..
  have hu : u = v.modCore n fun c => { c with mx := { c.mx with ops := c.mx.ops.map fun p => if p.id == o'.id then o' else p } } := by
    rw [hv]
    rfl
  have hou : CoreOnly s u n := by
    rw [hu, hv]
    exact (CoreOnly.modCore ..).trans (.modCore ..)
  have hcu := v.core_modCore_self n fun c => { c with mx := { c.mx with ops := c.mx.ops.map fun p => if p.id == o'.id then o' else p } }
  rw [← hu, hcv] at hcu
  rw [← hm1]
  refine ⟨.of_core hou ?_ ?_ ?_ ?_ ?_, ?_, ?_, fun b m j => ?_⟩
  all_goals rw [hcu]
  · rw [← hpts]
  · rfl

theorem Mtx.acc_mark (x : Mtx) (t i8 b : Bool) (m j : Nat) : (x.mark t i8).acc b m j = x.acc b m j := by
  cases t <;> rfl

section
variable {s : State} {n : Nat} {o : MtxOp}
/-- The words by their opcodes. -/
theorem State.mtxAdv_swap (h : (opcOf o.w).toNat = 0x65) : s.mtxAdv n o = s.mtxOnce n o 0 fun m => { m with front := !m.front } := by
  simp only [State.mtxAdv, h]
theorem State.mtxAdv_sel (h : (opcOf o.w).toNat = 0x6B) : s.mtxAdv n o = s.mtxOnce n o 0 fun m =>
    { m with rmask := ((o.ents.getD 0 {}).data).extractLsb' 0 128, cmask := ((o.ents.getD 0 {}).data).extractLsb' 128 128 } := by
  simp only [State.mtxAdv, h, State.advMsel]
theorem State.mtxAdv_clr (h : (opcOf o.w).toNat = 0x69) : s.mtxAdv n o = s.mtxOnce n o 0 fun m =>
    { m with acc0 := if (o.w.extractLsb' 11 2).toNat = 1 then m.acc0 else [], acc1 := if (o.w.extractLsb' 11 2).toNat = 0 then m.acc1 else [] } := by
  simp only [State.mtxAdv, h, State.advMclr]
  refine congrArg (s.mtxOnce n o 0) (funext fun m => ?_)
  by_cases h1 : (o.w.extractLsb' 11 2).toNat = 1
  · rw [h1]
    rfl
  · by_cases h0 : (o.w.extractLsb' 11 2).toNat = 0
    · rw [h0]
      rfl
    · rw [if_pos (by simpa using h0), if_pos (by simpa using h1), if_neg h1, if_neg h0]
theorem State.mtxAdv_stat (h : (opcOf o.w).toNat = 0x67) : s.mtxAdv n o = s.advMstat n o := by simp only [State.mtxAdv, h]
theorem State.mtxAdv_go (h : (opcOf o.w).toNat = 0x62) : s.mtxAdv n o = s.advMgo n o := by simp only [State.mtxAdv, h]
theorem State.mtxAdv_wait (h : (opcOf o.w).toNat = 0x66) : s.mtxAdv n o = if s.idleOk n o then .go (s.mtxRetire n o) else .no := by
  simp only [State.mtxAdv, h]
end

/-- Settles O38: the words with one write by `State.mtxWrite_retire`, and a point of MGO by `State.advMgo_point`. -/
theorem matrixCommit : Obligations.MatrixCommit := by
  unfold Obligations.MatrixCommit
  intro s n o ho hc c mx opc sig runs may calm same writes t0
  have hexec : exec (.mtxPointCommit n) s = .next (s.commitMtx n) := rfl
  have hok : may ↔ s.writeOk n o.pe = true := (s.writeOk_iff n o.pe).symm
  have hwrites : runs → ∀ {f : Mtx → Mtx}, s.mtxAdv n o = s.mtxOnce n o 0 f → (∀ m, (f m).ops = m.ops) → writes f := fun hr f ha hf hm hcalm => by
    obtain ⟨hsame, hdq, hmx⟩ := State.mtxWrite_retire ho hcalm f hf
    refine ⟨_, ?_, hsame, hdq, hmx⟩
    rw [hexec, State.commitMtx_go ho hc hr (ha.trans (if_pos (hok.mp hm)))]
  refine ⟨fun hp hr => ?_, fun hr hopc hm => ?_, fun hr h => ?_, fun hr h => ?_, fun hr h => ?_, fun hr h hm hcalm => ?_, fun hr h hm hcalm hroom => ?_, ?_⟩
  · rw [hexec, State.commitMtx_stopped hp hr]
  · have hno : s.writeOk n o.pe = false := Bool.eq_false_iff.mpr fun h => hm (hok.mpr h)
    have honce : ∀ f g, s.mtxOnce n o f g = .no := fun f g => by
      rw [State.mtxOnce, hno]
      rfl
    rw [hexec, State.commitMtx_no ho hc hr]
    simp only [List.mem_cons, List.not_mem_nil, or_false] at hopc
    rcases hopc with h | h | h | h
    · exact (State.mtxAdv_swap h).trans (honce ..)
    · rw [State.mtxAdv_stat h, State.advMstat, hno]
      rfl
    · exact (State.mtxAdv_clr h).trans (honce ..)
    · exact (State.mtxAdv_sel h).trans (honce ..)
  · exact hwrites hr (State.mtxAdv_swap h) fun _ => rfl
  · exact hwrites hr (State.mtxAdv_sel h) fun _ => rfl
  · exact hwrites hr (State.mtxAdv_clr h) fun _ => rfl
  · obtain ⟨hsame, hmx⟩ := State.mtxRetire_same ho hcalm
    have hidle : s.idleOk n o = true := by
      rw [State.idleOk, Bool.or_eq_true, beq_iff_eq]
      exact hm.imp_right hok.mp
    exact ⟨_, by rw [hexec, State.commitMtx_go ho hc hr ((State.mtxAdv_wait h).trans (if_pos hidle))], hsame, hmx⟩
  · obtain ⟨hsame, hmx, hqueue⟩ := State.mstat_left ho hcalm (o.w.extractLsb' 0 2).isLt
    have hroom' : (s.core n).queueFull (o.w.extractLsb' 0 2).toNat = false := hroom
    have hadv : s.mtxAdv n o = .go (((s.mtxPush n (o.w.extractLsb' 0 2).toNat o.pe (s.core n).mx.status).mtxWrite n o.pe 0 id).mtxRetire n o) := by
      rw [State.mtxAdv_stat h, State.advMstat, hok.mp hm, hroom']
      rfl
    exact ⟨_, _, by rw [hexec, State.commitMtx_go ho hc hr hadv], hsame, hmx, hqueue, rfl, Mtx.status_fields _⟩
  · intro x tile oA oB oC da db dc hr h hk hw hdr hp hasrc hbsrc hda hdb hdc hoA hoB hoC hm g r ka kb ha hb row col a b both
    obtain ⟨f, o', hadv⟩ := State.advMgo_point (x := x) rfl hk hw hdr hp hasrc hbsrc hda hdb hdc hoA hoB hoC (hok.mp hm) ha hb
    obtain ⟨hsame, hpts, hlast, hacc⟩ := s.pointWrite_left n o o' f (o.w.getLsbD 11) (da.fmt == 8) ((s.core n).mx.pointOuts (o.w.getLsbD 11) (da.fmt == 8) (s.core n).nbv
      da.fmt db.fmt (groupOf da.fmt) ((s.core n).mx.pointRows x da (x.oA o.k)) ((s.core n).mx.pointCols x db (x.oB o.k)) ((s.core n).mx.stageCode x da (x.oA o.k))
      (((s.core n).mx.half (s.core n).mx.front).panelCode x (x.oB o.k)))
    have hcols : ∀ r ∈ (s.core n).mx.pointOuts (o.w.getLsbD 11) (da.fmt == 8) (s.core n).nbv da.fmt db.fmt (groupOf da.fmt)
        ((s.core n).mx.pointRows x da (x.oA o.k)) ((s.core n).mx.pointCols x db (x.oB o.k)) ((s.core n).mx.stageCode x da (x.oA o.k))
        (((s.core n).mx.half (s.core n).mx.front).panelCode x (x.oB o.k)), r.2.1 < 128 := fun r hr =>
      ((Mtx.mem_pointCols r.2.1).mp (Mtx.mem_pointOuts.mp hr).2.1).1
    refine ⟨_, by rw [hexec, State.commitMtx_go ho hc hr ((State.mtxAdv_go h).trans hadv)], hsame, hpts, hlast, fun m j hm hj hrow hcol => ?_, fun m j hm hj hno => ?_, fun m j => ?_⟩
    · refine (hacc ..).trans (Mtx.acc_putAccs_in hcols hj (fun r hr h1 h2 => ?_) (.inl
        ⟨(m, j, pointOut (da.fmt == 8) (s.core n).nbv da.fmt db.fmt (mx.acc tile m j) ((List.range g).map (both m j))),
          Mtx.mem_pointOuts.mpr ⟨(Mtx.mem_pointRows hasrc m).mpr hrow, (Mtx.mem_pointCols j).mpr hcol, rfl⟩, rfl, rfl⟩))
      rw [(Mtx.mem_pointOuts.mp hr).2.2, h1, h2]
      rfl
    · refine (hacc ..).trans ((Mtx.acc_putAccs_out hcols hj (fun r hr hk => ?_) _).trans (Mtx.acc_mark ..))
      obtain ⟨hrow, hcol, -⟩ := Mtx.mem_pointOuts.mp hr
      rw [hk.1] at hrow
      rw [hk.2] at hcol
      exact hno ⟨(Mtx.mem_pointRows hasrc m).mp hrow, (Mtx.mem_pointCols j).mp hcol⟩
    · exact (hacc ..).trans ((Mtx.acc_putAccs_other ..).trans (Mtx.acc_mark ..))

end Sys2Proof.Machine
end

section
/-! PROOFS of the ContextLife statement (O23): what creation, kill and restart of a context leave of it (R130, R131, R134, R135, R137). -/

set_option Elab.async false

namespace Sys2Proof.Machine

/-- A state with the contexts, cores and time of another: what a kill makes of memory, of the fault buffers and of the endpoint's queue keeps them. -/
structure CtxSide (s t : State) : Prop where
  ctxs : t.ctxs = s.ctxs
  cores : t.cores = s.cores
  gts : t.gts = s.gts

theorem State.ctx_of_ctxs {s t : State} (h : t.ctxs = s.ctxs) (m : BitVec 12) : t.ctx m = s.ctx m := by rw [State.ctx, State.ctx, h]
theorem CtxSide.refl (s : State) : CtxSide s s := ⟨rfl, rfl, rfl⟩
theorem CtxSide.trans {s t u : State} (h : CtxSide s t) (g : CtxSide t u) : CtxSide s u :=
  ⟨g.ctxs.trans h.ctxs, g.cores.trans h.cores, g.gts.trans h.gts⟩
theorem CtxSide.putCells {s t : State} (h : CtxSide s t) (cs : List (Nat × Byte)) : CtxSide s (t.putCells cs) := h.trans ⟨by simp, by simp, by simp⟩
theorem CtxSide.ite {s t u : State} {p : Prop} [Decidable p] (h : CtxSide s t) (g : CtxSide s u) : CtxSide s (if p then t else u) := by
  split
  · exact h
  · exact g
theorem CtxSide.cutDone {s t : State} (h : CtxSide s t) (cid : BitVec 12) (inc : BitVec 10) (st : Nat) (r : BitVec 3) (l : List StopReq) :
    CtxSide s (t.cutDone cid inc st r l) := by
  induction l generalizing t with
  | nil => exact h
  | cons x xs ih =>
    refine ih (h.trans ?_)
    obtain ⟨q, hq⟩ := State.event_ueq_only t 7 (t.ctx cid).pid cid inc x.queue (t.ctx cid).cuteff (stopWord st r x)
    rw [hq]
    exact ⟨rfl, rfl, rfl⟩
theorem CtxSide.setFheld {s t : State} (h : CtxSide s t) (pid : BitVec 7) (l : List (FRec × Nat × Bool)) : CtxSide s (t.setFheld pid l) := by
  unfold State.setFheld State.fbufPut
  extract_lets u
  have hu : CtxSide s u := h.trans (.ite ⟨rfl, rfl, rfl⟩ ⟨rfl, rfl, rfl⟩)
  cases u.fbufKeys pid 16 (leBytes ((if l.isEmpty then 0 else 1) + 2 ^ 16 * l.length) 4).length with
  | none => exact hu
  | some ks => exact hu.putCells _

/-! ### The cores of a context that is killed -/

theorem State.foldl_setCore_keeps (l : List Nat) (s : State) (c : Nat → State → Core) :
    (l.foldl (fun s n => s.setCore n (c n s)) s).ctxs = s.ctxs ∧ (l.foldl (fun s n => s.setCore n (c n s)) s).gts = s.gts := by
  induction l generalizing s with
  | nil => exact ⟨rfl, rfl⟩
  | cons n l ih => exact ih (s.setCore n (c n s))
/-- A core that is on the list has lost its task, and no core gains one. -/
theorem State.foldl_halt_task (l : List Nat) (s : State) (m : Nat) {k : Task}
    (h : ((l.foldl (fun s n => s.setCore n { halted := (s.core n).halted }) s).core m).task = some k) : m ∉ l ∧ (s.core m).task = some k := by
  induction l generalizing s with
  | nil => exact ⟨by simp, h⟩
  | cons n l ih =>
    obtain ⟨hl, ht⟩ := ih _ h
    have hget : (s.setCore n { halted := (s.core n).halted }).core m = if m = n then { halted := (s.core n).halted } else s.core m := SMap.get_set ..
    rw [hget] at ht
    split at ht
    · cases ht
    · next hne => exact ⟨by simp [hne, hl], ht⟩
theorem State.mem_coresOf {s : State} {n : Nat} {k : Task} (hs : isSup n = false) (h : (s.core n).task = some k) : n ∈ s.coresOf k.cid := by
  have hmem : (n, s.core n) ∈ s.cores := SMap.mem_of_get rfl (by rintro he; rw [he] at h; cases h)
  unfold State.coresOf
  rw [List.mem_filterMap]
  exact ⟨_, hmem, by simp [h, hs]⟩
theorem SMap.get_map_snd {α : Type} (d : α) (m : SMap α) (f : α → α) (hd : f d = d) (k : Nat) :
    SMap.get d (m.map fun (n, v) => (n, f v)) k = f (m.get d k) := by
  induction m with
  | nil => exact hd.symm
  | cons x xs ih =>
    obtain ⟨n, v⟩ := x
    rw [List.map_cons, SMap.get, SMap.get]
    split
    · rfl
    · exact ih

/-! ### The kill of an incarnation -/

/-- What `State.killInc` leaves: the context without its stop and horizon, and nothing of the incarnation on the device. -/
structure Killed (s t : State) (cid : BitVec 12) : Prop where
  self : ∃ (q : BitVec 3 × StopReq) (h : Nat), t.ctx cid = { s.ctx cid with stop := none, result := q.1, lastReq := q.2, cq := [], cqHead := h, horiz := 0, bySlice := false }
  other : ∀ m, m ≠ cid → t.ctx m = s.ctx m
  tasks : ∀ n k, isSup n = false → (t.core n).task = some k → k.cid ≠ cid
  caches : ∀ n, ∀ x ∈ (t.core n).ttc, x.cid ≠ cid
  launches : ∀ k l, t.launches.get none k = some l → l.cid ≠ cid
  transfers : ∀ u ∈ t.ueOps, ¬(u.held.cid = cid ∧ u.held.inc = (s.ctx cid).inc)
  fence : ∃ f ∈ t.fences, f.cid = cid ∧ f.inc = (s.ctx cid).inc ∧ f.left = s.gts ∧ f.asked = false

theorem State.killInc_killed (s : State) (cid : BitVec 12) : Killed s (s.killInc cid) cid := by
  unfold State.killInc
  extract_lets c t1 t2 res t3 t4 alive faults t5 t6
  have h2 : CtxSide s t2 := by
    have h1 : CtxSide s t1 := .ite ((CtxSide.refl s).putCells _) (.refl s)
    unfold t2
    split
    · exact h1.cutDone ..
    · exact h1
  have h46 : CtxSide t4 t6 := by
    have h5 : CtxSide t4 t5 := .ite ((CtxSide.refl t4).setFheld ..) (.refl t4)
    exact .ite (h5.setFheld ..) h5
  obtain ⟨hctx, hgts⟩ := State.foldl_setCore_keeps (t3.coresOf cid) t3 fun n s => { halted := (s.core n).halted }
  have hctxs : t6.ctxs = t3.ctxs := h46.ctxs.trans hctx
  have htask (n : Nat) : SMap.get ({} : Core) (t6.cores.map fun (n, k) => (n, { k with ttc := k.ttc.filter fun t => t.cid != cid })) n =
      { t4.core n with ttc := (t4.core n).ttc.filter fun t => t.cid != cid } := by
    rw [h46.cores]
    exact SMap.get_map_snd ({} : Core) t4.cores (fun k => { k with ttc := k.ttc.filter fun t => t.cid != cid }) rfl n
  refine ⟨⟨res, c.cqTail, ?_⟩, ?_, ?_, ?_, ?_, ?_, ?_⟩
  · exact (State.ctx_of_ctxs hctxs cid).trans (State.ctx_setCtx_self ..)
  · exact fun m hm => (State.ctx_of_ctxs hctxs m).trans ((State.ctx_setCtx_ne t2 _ hm).trans (State.ctx_of_ctxs h2.ctxs m))
  · intro n k hs hk hcid
    have hk' : (t4.core n).task = some k := (congrArg Core.task (htask n)).symm.trans hk
    obtain ⟨hn, h3⟩ := State.foldl_halt_task _ _ _ hk'
    exact hn (hcid ▸ State.mem_coresOf hs h3)
  · intro n x hx
    have hx' : x ∈ (t4.core n).ttc.filter fun t => t.cid != cid := (congrArg (fun k : Core => x ∈ k.ttc) (htask n)).mp hx
    simpa using (List.mem_filter.1 hx').2
  · intro k l hl
    have := (List.mem_filter.1 (SMap.mem_of_get hl (by simp))).2
    simpa using this
  · intro u hu ⟨h1, h2⟩
    have := (List.mem_filter.1 hu).2
    simp [alive, h1, h2, c] at this
  · refine ⟨{ cid := cid, inc := c.inc, left := t6.gts }, List.mem_append_right _ (List.mem_singleton.2 rfl), rfl, rfl, ?_, rfl⟩
    exact h46.gts.trans (hgts.trans h2.gts)

/-- The parts of a kill that a change of the context's own record keeps, as the statement lists them. -/
theorem Killed.gone {s t : State} {cid : BitVec 12} (h : Killed s t cid) (f : Ctx → Ctx) (hf : ∀ c, (f c).horiz = c.horiz) :
    (∀ n k, isSup n = false → ((t.modCtx cid f).core n).task = some k → k.cid ≠ cid) ∧
    (∀ k l, (t.modCtx cid f).launches.get none k = some l → l.cid ≠ cid) ∧
    (∃ x ∈ (t.modCtx cid f).fences, x.cid = cid ∧ x.inc = (s.ctx cid).inc ∧ x.left = s.gts ∧ x.asked = false) ∧
    ((t.modCtx cid f).ctx cid).horiz = 0 ∧ (∀ u ∈ (t.modCtx cid f).ueOps, ¬(u.held.cid = cid ∧ u.held.inc = (s.ctx cid).inc)) ∧
    (∀ n, ∀ x ∈ ((t.modCtx cid f).core n).ttc, x.cid ≠ cid) ∧ ∀ m, m ≠ cid → (t.modCtx cid f).ctx m = s.ctx m := by
  refine ⟨h.tasks, h.launches, h.fence, ?_, h.transfers, h.caches, fun m hm => (State.ctx_setCtx_ne t _ hm).trans (h.other m hm)⟩
  obtain ⟨q, hd, hc⟩ := h.self
  rw [State.ctx_modCtx_self, hf, hc]

theorem State.ctx_newCtx (s : State) (cid : BitVec 12) (x : BitVec 512) :
    (s.newCtx cid x).ctx cid = { Ctx.ofBits x (s.winTab x) with st := .live, used := true, inc := (s.ctx cid).nextInc } :=
  (State.ctx_of_ctxs (State.putCells_ctxs ..) cid).trans (State.ctx_setCtx_self ..)

/-- Settles O23: a creation sets the context's whole record, and a kill and a restart are `State.killInc` followed by a change of that record. -/
theorem contextLife : Obligations.ContextLife := by
  unfold Obligations.ContextLife
  intro s cid c gone
  have hk := s.killInc_killed cid
  obtain ⟨q, hd, hc⟩ := hk.self
  refine ⟨fun x => ?_, hk.gone _ fun _ => rfl, ?_, ?_, hk.gone _ fun _ => rfl, ?_⟩
  · rw [State.ctx_newCtx]
    exact ⟨rfl, rfl, rfl, rfl, rfl⟩
  · rw [State.kill, State.ctx_modCtx_self]
  · rw [State.kill, State.ctx_modCtx_self, hc]
  · rw [State.incCtx, State.ctx_modCtx_self, hc]
    exact ⟨rfl, rfl, rfl, rfl, rfl, rfl, rfl, rfl⟩

end Sys2Proof.Machine
end

section
/-! PROOFS of the SupervisorPartitions statement (O24): the partition, segment-table, slice and budget forms (R140 to R144, R197, R198, R357 to R359). -/

set_option Elab.async false

namespace Sys2Proof.Machine

/-! ### What a supervisor form answers (R354) -/

/-- An effect that neither reads nor changes a core, nor the counter that numbers operations. -/
def Beside (g : State → State) : Prop := ∀ (s : State) cs k, g { s with cores := cs, nextId := k } = { g s with cores := cs, nextId := k }

theorem Beside.comp {f g : State → State} (hg : Beside g) (hf : Beside f) : Beside fun s => g (f s) := fun s cs k => by
  show g (f _) = _
  rw [hf s cs k, hg (f s) cs k]
theorem Beside.foldl {α : Type} {f : State → α → State} (hf : ∀ x, Beside fun s => f s x) (l : List α) : Beside fun s => l.foldl f s := by
  induction l with
  | nil => exact fun _ _ _ => rfl
  | cons x l ih => exact ih.comp (hf x)
theorem Beside.ite {f g : State → State} {p : State → Bool} (hp : ∀ (s : State) cs k, p { s with cores := cs, nextId := k } = p s) (hf : Beside f) (hg : Beside g) :
    Beside fun s => if p s then f s else g s := fun s cs k => by
  dsimp only
  rw [hp, hf s cs k, hg s cs k]
  cases p s <;> rfl
theorem Beside.core {g : State → State} (hg : Beside g) (s : State) (n : Nat) : (g s).core n = s.core n :=
  congrArg (·.core n) (hg s s.cores s.nextId)
theorem Beside.coreOnly {g : State → State} (hg : Beside g) {s s1 : State} {n : Nat} (h : CoreOnly s s1 n) : CoreOnly (g s) (g s1) n := by
  refine ⟨?_, fun m hm => by rw [hg.core, hg.core, h.2 m hm]⟩
  have h1 : g s1 = { g s with cores := s1.cores, nextId := s1.nextId } := (congrArg g h.1).trans (hg s s1.cores s1.nextId)
  rw [h1]
/-- A word that has issued, and then had an effect beside the cores. -/
theorem CcIssued.beside {s s1 : State} {e : Word} {ts : List (Nat × Nat)} {srcs : List (BitVec 6 × Bool)} (i : CcIssued s s1 e ts srcs)
    {g : State → State} (hg : Beside g) : CcEff (g s) s1 (g s1) s.cur 0 s.me [] (s.me.pc + 8) where
  only := hg.coreOnly i.only
  frame := by rw [hg.core]; exact i.frame
  pc := by rw [hg.core]; exact i.pc
  tok := fun _ _ => by rw [hg.core]
  log := by rw [hg.core]; exact Nat.le_refl _

section
variable {s : State} {h : Hdr} {srcs : List (BitVec 6 × Bool)} {d : BitVec 6} {i : Instr} {w : Word} {body : Word → State → Body} (m : CcMay s h srcs [] 0)
  (hi : exec i s = ccWord h w srcs [] body s)
include m hi
/-- A word that answers a value in D, with an effect on its own core or beside it. -/
theorem Answers.of_eff {s0 : State} {v : Word} (hcur : s0.cur = s.cur) (hh : s0.me.hold.length ≤ 128)
    (hb : ∀ e s1, CcIssued s s1 e (waitPresent (s.me.waitVal h) ++ []) srcs → s1.nextId = s.nextId →
      ∃ u, body e s1 = .done (u.wrS d e v) ∧ CcEff s0 s1 u s.cur 0 s0.me [] (s.me.pc + 8) ∧ (u.core s.cur).s = s0.me.s) : Answers i h d v s0 s := by
  obtain ⟨s1, iss, hid, hgo⟩ := ccAt_writes m rfl hi
  obtain ⟨u, hu, ef, hs⟩ := hb _ s1 iss hid
  exact hgo s0 u s0.me s0.me 0 _ d v hu ef (by omega) hcur hh hs
/-- A word whose effect stands beside the cores answers its value. -/
theorem Answers.of_beside {g : State → State} (hg : Beside g) (hcur : (g s).cur = s.cur) {v : Word} (hb : ∀ e s1, body e s1 = .done ((g s1).wrS d e v)) :
    Answers i h d v (g s) s := by
  have hme : (g s).me = s.me := by rw [State.me, hcur, hg.core, State.me]
  refine .of_eff m hi hcur (by have := m.room; rw [hme]; omega) fun e s1 iss _ => ⟨g s1, hb e s1, ?_, ?_⟩
  · rw [hme]
    exact iss.beside hg
  · rw [hme, hg.core]
    exact iss.regs
/-- A word that only reports a value. -/
theorem Answers.of_value {v : Word} (hb : ∀ e s1, body e s1 = .done (s1.wrS d e v)) : Answers i h d v s s :=
  .of_beside m hi (g := id) (fun _ _ _ => rfl) rfl hb
end

section
variable {s : State} {h : Hdr} {o : SY} {i : Instr} {w : Word} {body : Word → Word → State → Body} (m : CcMay s h [(o.a, o.la)] [] 0)
  (hi : exec i s = supForm h w o body s)
include m hi
/-- A supervisor form whose effect stands beside the cores, with its status. -/
theorem Answers.of_supForm {g : State → State} (hg : Beside g) (hcur : (g s).cur = s.cur) {v : Word}
    (hb : ∀ e s1, body e (s.rdS o.a) s1 = .done ((g s1).wrS o.d e v)) : Answers i h o.d v (g s) s :=
  .of_beside (body := fun e s' => body e (s.rdS o.a) s') m hi hg hcur hb
/-- A supervisor form that only reports a status. -/
theorem Answers.of_status {v : Word} (hb : ∀ e s1, body e (s.rdS o.a) s1 = .done (s1.wrS o.d e v)) : Answers i h o.d v s s :=
  .of_value (body := fun e s' => body e (s.rdS o.a) s') m hi hb
theorem Raises.of_supForm {code : BitVec 8} {v : Word} (hb : ∀ e s1, body e (s.rdS o.a) s1 = .fault code v) : Raises i h code v s :=
  .of_body (body := fun e s' => body e (s.rdS o.a) s') m rfl (fun s1 _ => hb _ s1) hi
end

section
variable {s : State} {a : Word} {n align : Nat} {p : Perm} {k : List Nat → Body}
theorem State.supDesc_unaligned (h : a.toNat % align ≠ 0) : s.supDesc a n align p k = .fault fRawWindow a := if_pos (by simpa using h)
theorem State.supDesc_refused {f : BitVec 8} (h : a.toNat % align = 0) (hk : s.coreKeys s.cur a n p = .inr f) : s.supDesc a n align p k = .fault fRawWindow a := by
  rw [State.supDesc, if_neg (by simpa using h), hk]
theorem State.supDesc_keys {ks : List Nat} (h : a.toNat % align = 0) (hk : s.coreKeys s.cur a n p = .inl ks) :
    s.supDesc a n align p k = if p == .r && s.anyPoison ks then .fault fEccUe a else k ks := by
  rw [State.supDesc, if_neg (by simpa using h), hk]
end

/-- The tests of a form whose operand names a descriptor. -/
theorem WithDescr.of_supForm {s : State} {h : Hdr} {o : SY} {i : Instr} {w : Word} {n align : Nat} {p : Perm} {k : Word → State → List Nat → Body}
    {K : List Nat → Prop} (m : CcMay s h [(o.a, o.la)] [] 0) (hi : exec i s = supForm h w o (fun e a s' => s.supDesc a n align p (k e s')) s)
    (hk : ∀ ks, (∀ e s1, s.supDesc (s.rdS o.a) n align p (k e s1) = k e s1 ks) → K ks) : WithDescr i h (s.rdS o.a) n align p K s := by
  refine ⟨fun h => .of_supForm m hi fun _ _ => State.supDesc_unaligned h, fun f h hf => .of_supForm m hi fun _ _ => State.supDesc_refused h hf,
    fun ks h hks => ⟨fun hp hx => .of_supForm m hi fun _ _ => ?_, fun hp => hk ks fun _ _ => ?_⟩⟩
  · rw [State.supDesc_keys h hks, hp, hx]
    rfl
  · rw [State.supDesc_keys h hks, if_neg]
    simpa using hp

/-! ### Partitions and their queues (R140 to R143, Table 14.18) -/

theorem dfld_toNat {w : Nat} (x : BitVec w) (lo n : Nat) : dfld x lo n = (x.extractLsb' lo n).toNat := by
  simp [dfld, BitVec.extractLsb'_toNat, Nat.shiftRight_eq_div_pow]

theorem Beside.event (ev : BitVec 8) (pid : BitVec 7) (cid : BitVec 12) (inc : BitVec 10) (q : Nat) (a0 a1 : Word) :
    Beside fun s => s.event ev pid cid inc q a0 a1 := fun s cs k => by
  simp only [State.event, State.send, State.sendTx]
  split <;> rfl
theorem Beside.qspace (pid q : Nat) : Beside fun s => s.qspace pid q := by
  exact .ite (p := fun s => (s.queue pid q).full && 16 ≤ (s.queue pid q).free) (fun _ _ _ => rfl)
    ((Beside.event 1 (BitVec.ofNat 7 pid) 0 0 q 0 0).comp (f := fun s => s.setQueue pid q { s.queue pid q with full := false }) fun _ _ _ => rfl) fun _ _ _ => rfl

/-- A queue of a partition enabled or disabled, with the event of its space. -/
def State.enableQ (en : Nat → Bool) (pid : Nat) (s : State) (q : Nat) : State := (s.setQueue pid q ((s.queue pid q).enable (en q))).qspace pid q
theorem Beside.enableQ (en : Nat → Bool) (pid q : Nat) : Beside fun s => State.enableQ en pid s q :=
  (Beside.qspace pid q).comp (f := fun s => s.setQueue pid q ((s.queue pid q).enable (en q))) fun _ _ _ => rfl

@[simp] theorem State.part_setPart (s : State) (pid : BitVec 7) (p : Part) : (s.setPart pid p).part pid = p := SMap.get_set_self ..
@[simp] theorem State.part_event (s : State) (ev : BitVec 8) (pid : BitVec 7) (cid : BitVec 12) (inc : BitVec 10) (q : Nat) (a0 a1 : Word) (k : BitVec 7) :
    (s.event ev pid cid inc q a0 a1).part k = s.part k := by
  obtain ⟨u, hu⟩ := State.event_ueq_only s ev pid cid inc q a0 a1
  rw [hu]
  rfl
theorem State.part_setQueue (s : State) (pid : BitVec 7) (q : Nat) (x : Queue) :
    (s.setQueue pid.toNat q x).part pid = { s.part pid with q := (s.part pid).q.set {} q x } := by
  have hn : BitVec.ofNat 7 pid.toNat = pid := by simp
  rw [State.setQueue, hn]
  exact State.part_setPart ..

/-- How one step of PSETQ leaves a partition: queue `q` enabled or disabled, perhaps no longer full, and everything else as it was. -/
theorem State.part_enableQ (en : Nat → Bool) (s : State) (pid : BitVec 7) (q : Nat) :
    ∃ b, (s.enableQ en pid.toNat q).part pid =
      { s.part pid with q := (s.part pid).q.set {} q { ((s.part pid).q.get {} q).enable (en q) with full := b } } := by
  have hn : BitVec.ofNat 7 pid.toNat = pid := by simp
  have hset := s.part_setQueue pid q ((s.queue pid.toNat q).enable (en q))
  have hq : s.queue pid.toNat q = (s.part pid).q.get {} q := by rw [State.queue, hn]
  rw [hq] at hset
  unfold State.enableQ State.qspace
  extract_lets x
  have hx : x = ((s.part pid).q.get {} q).enable (en q) := by
    show State.queue _ pid.toNat q = _
    rw [State.queue, hn, hq, hset]
    exact SMap.get_set_self ..
  split
  · refine ⟨false, ?_⟩
    rw [State.part_event, State.part_setQueue, hq, hset, hx]
    exact congrArg (fun m => { s.part pid with q := m }) (SMap.set_set ..)
  · exact ⟨x.full, by rw [hq, hset, hx]⟩

theorem State.enableQ_cur (en : Nat → Bool) (pid : Nat) (s : State) (q : Nat) : (s.enableQ en pid q).cur = s.cur := by
  unfold State.enableQ State.qspace
  extract_lets x
  split
  · obtain ⟨u, hu⟩ := State.event_ueq_only _ 1 (BitVec.ofNat 7 pid) 0 0 q 0 0
    rw [hu]
    rfl
  · rfl

/-- A partition as the first `k` steps of PSETQ leave it. -/
structure QueuesSet (en : Nat → Bool) (k : Nat) (p p' : Part) : Prop where
  rest : p' = { p with q := p'.q }
  set : ∀ j, j < k → ∃ b, p'.q.get {} j = { (p.q.get {} j).enable (en j) with full := b }
  kept : ∀ j, k ≤ j → p'.q.get {} j = p.q.get {} j

theorem State.enableQ_sets (en : Nat → Bool) (pid : BitVec 7) (s : State) (k : Nat) :
    QueuesSet en k (s.part pid) (((List.range k).foldl (State.enableQ en pid.toNat) s).part pid) := by
  induction k with
  | zero => exact ⟨rfl, fun j hj => absurd hj (by omega), fun _ _ => rfl⟩
  | succ k ih =>
    rw [List.range_succ, List.foldl_append, List.foldl_cons, List.foldl_nil]
    obtain ⟨b, hb⟩ := ((List.range k).foldl (State.enableQ en pid.toNat) s).part_enableQ en pid k
    rw [hb, ih.kept k (Nat.le_refl _)]
    refine ⟨by rw [ih.rest], fun j hj => ?_, fun j hj => ?_⟩
    · rcases Nat.lt_succ_iff_lt_or_eq.1 hj with hlt | rfl
      · obtain ⟨b', hb'⟩ := ih.set j hlt
        exact ⟨b', (SMap.get_set_ne _ _ _ (by omega)).trans hb'⟩
      · exact ⟨b, SMap.get_set_self ..⟩
    · exact (SMap.get_set_ne _ _ _ (by omega)).trans (ih.kept j (by omega))

/-- What a queue is enabled to. -/
theorem Queue.enable_spec (x : Queue) (en : Bool) : (x.enable en).en = en ∧ (x.enable en).cur = x.cur ∧
    (en = false → (x.enable en).pend = [] ∧ (x.cur ≠ none → (x.enable en).closing = true)) := by
  cases en
  · exact ⟨rfl, rfl, fun _ => ⟨rfl, fun hc => by simp [Queue.enable, Option.isSome_iff_ne_none, hc]⟩⟩
  · exact ⟨rfl, rfl, fun hc => by cases hc⟩

/-- The device as PSETQ leaves it. -/
def State.psetq (x : BitVec 256) (pid : BitVec 7) (s : State) : State :=
  (List.range 4).foldl (State.enableQ (fun q => x.getLsbD (8 + q)) pid.toNat)
    (s.modPart pid fun p => { p with evaddr := x.extractLsb' 64 128, ejob := x.extractLsb' 192 24, eproc := x.extractLsb' 216 32 })
theorem Beside.psetq (x : BitVec 256) (pid : BitVec 7) : Beside (State.psetq x pid) :=
  (Beside.foldl (Beside.enableQ (fun q => x.getLsbD (8 + q)) pid.toNat) (List.range 4)).comp
    (f := fun s => s.modPart pid fun p => { p with evaddr := x.extractLsb' 64 128, ejob := x.extractLsb' 192 24, eproc := x.extractLsb' 216 32 }) fun _ _ _ => rfl

theorem State.psetq_cur (x : BitVec 256) (pid : BitVec 7) (s : State) : (s.psetq x pid).cur = s.cur :=
  List.foldlRecOn _ _ (motive := fun t : State => t.cur = s.cur) rfl fun _ ht _ _ => (State.enableQ_cur ..).trans ht
/-- What PSETQ leaves of the partition. -/
theorem State.psetq_part (x : BitVec 256) (pid : BitVec 7) (s : State) :
    ((s.psetq x pid).part pid).evaddr = x.extractLsb' 64 128 ∧ ((s.psetq x pid).part pid).ejob = x.extractLsb' 192 24 ∧
    ((s.psetq x pid).part pid).eproc = x.extractLsb' 216 32 ∧
    ∀ q, q < 4 → ((s.psetq x pid).queue pid.toNat q).en = x.getLsbD (8 + q) ∧ ((s.psetq x pid).queue pid.toNat q).cur = (s.queue pid.toNat q).cur ∧
      (x.getLsbD (8 + q) = false → ((s.psetq x pid).queue pid.toNat q).pend = [] ∧
        ((s.queue pid.toNat q).cur ≠ none → ((s.psetq x pid).queue pid.toNat q).closing = true)) := by
  obtain ⟨hrest, hset, -⟩ := State.enableQ_sets (fun q => x.getLsbD (8 + q)) pid
    (s.modPart pid fun p => { p with evaddr := x.extractLsb' 64 128, ejob := x.extractLsb' 192 24, eproc := x.extractLsb' 216 32 }) 4
  have h0 : (s.modPart pid fun p => { p with evaddr := x.extractLsb' 64 128, ejob := x.extractLsb' 192 24, eproc := x.extractLsb' 216 32 }).part pid =
      { s.part pid with evaddr := x.extractLsb' 64 128, ejob := x.extractLsb' 192 24, eproc := x.extractLsb' 216 32 } := State.part_setPart ..
  rw [h0] at hrest hset
  change (s.psetq x pid).part pid = _ at hrest
  refine ⟨by rw [hrest], by rw [hrest], by rw [hrest], fun q hq => ?_⟩
  obtain ⟨b, hb⟩ := hset q hq
  have hn : BitVec.ofNat 7 pid.toNat = pid := by simp
  have hq' : (s.psetq x pid).queue pid.toNat q = { (s.queue pid.toNat q).enable (x.getLsbD (8 + q)) with full := b } := by
    rw [State.queue, State.queue, hn]
    exact hb
  rw [hq']
  exact (s.queue pid.toNat q).enable_spec (x.getLsbD (8 + q))

/-! ### Slice tables (R144) -/

/-- The table that SLICE installs: none where it lists no entry. -/
def newSlice (x : BitVec 576) (gts : BitVec 64) : List SliceTab :=
  if (sliceEnts x).isEmpty then [] else [{ pods := x.extractLsb' 0 32, ents := sliceEnts x, started := gts }]
theorem sliceEnts_length (x : BitVec 576) : (sliceEnts x).length = (x.extractLsb' 32 4).toNat := by simp [sliceEnts, dfld_toNat]
theorem newSlice_spec (x : BitVec 576) (gts : BitVec 64) :
    ((x.extractLsb' 32 4).toNat = 0 → newSlice x gts = []) ∧
    ((x.extractLsb' 32 4).toNat ≠ 0 → ∃ t, newSlice x gts = [t] ∧ t.pods = x.extractLsb' 0 32 ∧ t.cur = 0 ∧ t.started = gts ∧
      t.ents.length = (x.extractLsb' 32 4).toNat ∧
      ∀ i, i < t.ents.length → t.ents.getD i (0, 0) = (x.extractLsb' (64 * (i + 1)) 7, (x.extractLsb' (64 * (i + 1) + 8) 8).toNat)) := by
  have hlen := sliceEnts_length x
  refine ⟨fun h0 => if_pos ?_, fun h0 => ⟨{ pods := x.extractLsb' 0 32, ents := sliceEnts x, started := gts }, if_neg ?_, rfl, rfl, rfl, hlen, fun i hi => ?_⟩⟩
  · rw [List.isEmpty_iff, List.eq_nil_iff_length_eq_zero, hlen, h0]
  · rw [List.isEmpty_iff, List.eq_nil_iff_length_eq_zero, hlen]
    exact h0
  · change i < (sliceEnts x).length at hi
    show (sliceEnts x).getD i (0, 0) = _
    rw [List.getD_eq_getElem _ _ hi]
    simp [sliceEnts, dfld_toNat]

/-! ### The forms -/

section
variable {s : State} {h : Hdr} {o : SY} (m : CcMay s h [(o.a, o.la)] [] 0)
include m
theorem pcreate_answers : WithDescr (.pcreate h o) h (s.rdS o.a) 128 128 .r (fun ks =>
    let x : BitVec 1024 := bitsOf 1024 (ks.map s.byte)
    let n : BitVec 7 := x.extractLsb' 0 7
    ((s.part n).used = true → Answers (.pcreate h o) h o.d 2 s s) ∧
    ((s.part n).used = false → s.partBad n x = true → Answers (.pcreate h o) h o.d 3 s s) ∧
    ((s.part n).used = false → s.partBad n x = false → Answers (.pcreate h o) h o.d 0 (s.setPart n (Part.ofBits x)) s)) s := by
  have hi : exec (.pcreate h o) s = execPcreate h o s := rfl
  unfold execPcreate at hi
  refine .of_supForm m hi fun ks hk => ?_
  intro x n
  refine ⟨fun hu => .of_status m hi fun e s1 => ?_, fun hu hb => .of_status m hi fun e s1 => ?_,
    fun hu hb => .of_supForm m hi (g := fun s => s.setPart n (Part.ofBits x)) (fun _ _ _ => rfl) rfl fun e s1 => ?_⟩
  · exact (hk e s1).trans (if_pos hu)
  · exact (hk e s1).trans ((if_neg (ne_true_of_eq_false hu)).trans (if_pos hb))
  · exact (hk e s1).trans ((if_neg (ne_true_of_eq_false hu)).trans (if_neg (ne_true_of_eq_false hb)))
theorem psetq_answers : WithDescr (.psetq h o) h (s.rdS o.a) 32 32 .r (fun ks =>
    let x : BitVec 256 := bitsOf 256 (ks.map s.byte)
    let n : BitVec 7 := x.extractLsb' 0 7
    ((s.part n).used = false → Answers (.psetq h o) h o.d 3 s s) ∧
    (¬(s.part n).used = false → Answers (.psetq h o) h o.d 0 (s.psetq x n) s)) s := by
  have hi : exec (.psetq h o) s = execPsetq h o s := rfl
  unfold execPsetq at hi
  refine .of_supForm m hi fun ks hk => ?_
  intro x n
  refine ⟨fun hu => .of_status m hi fun e s1 => ?_, fun hu => .of_supForm m hi (Beside.psetq x n) (State.psetq_cur ..) fun e s1 => ?_⟩
  · exact (hk e s1).trans (if_pos (show (!(s.part n).used) = true by simpa using hu))
  · exact (hk e s1).trans (if_neg (show ¬(!(s.part n).used) = true by simpa using hu))
theorem chmap_answers : WithDescr (.chmap h o) h (s.rdS o.a) 16 16 .r (fun ks =>
    let x : BitVec 128 := bitsOf 128 (ks.map s.byte)
    let n := (x.extractLsb' 0 27).toNat
    let base : Word := x.extractLsb' 64 64
    let pid : BitVec 7 := o.sel.extractLsb' 0 7
    let ok := (s.part pid).used = true ∧ s.mapOk (s.own pid) base.toNat n = true
    (ok → Answers (.chmap h o) h o.d 0 (s.setPart pid { s.part pid with segn := n, segbase := base }) s) ∧ (¬ok → Answers (.chmap h o) h o.d 3 s s)) s := by
  have hi : exec (.chmap h o) s = execChmap h o s := rfl
  unfold execChmap at hi
  refine .of_supForm m hi fun ks hk => ?_
  intro x n base pid ok
  have hn : dfld x 0 27 = n := dfld_toNat x 0 27
  have hok : ((!(s.part pid).used || !s.mapOk (s.own pid) base.toNat (dfld x 0 27)) = true) ↔ ¬ok := by
    rw [hn]
    simp [ok, Classical.or_iff_not_imp_left]
  refine ⟨fun h1 => .of_supForm m hi (g := fun s => s.modPart pid fun p => { p with segn := n, segbase := base }) (fun _ _ _ => rfl) rfl fun e s1 => ?_,
    fun h1 => .of_status m hi fun e s1 => ?_⟩
  · refine (hk e s1).trans ((if_neg (fun h2 => hok.1 h2 h1)).trans ?_)
    rw [← hn]
    rfl
  · exact (hk e s1).trans (if_pos (hok.2 h1))
theorem slice_answers : WithDescr (.slice h o) h (s.rdS o.a) 72 8 .r (fun ks =>
    let x : BitVec 576 := bitsOf 576 (ks.map s.byte)
    (s.sliceBad x = true → Answers (.slice h o) h o.d 3 s s) ∧
    (s.sliceBad x = false →
      Answers (.slice h o) h o.d 0 { s with slices := s.slices.filter (fun t => t.pods != x.extractLsb' 0 32) ++ newSlice x s.gts } s)) s := by
  have hi : exec (.slice h o) s = execSlice h o s := rfl
  unfold execSlice at hi
  refine .of_supForm m hi fun ks hk => ?_
  intro x
  refine ⟨fun hb => .of_status m hi fun e s1 => (hk e s1).trans (if_pos hb), fun hb => .of_supForm m hi
    (g := fun t => { t with slices := t.slices.filter (fun t => t.pods != x.extractLsb' 0 32) ++ newSlice x s.gts }) (fun _ _ _ => rfl) rfl fun e s1 => ?_⟩
  exact (hk e s1).trans (if_neg (ne_true_of_eq_false hb))
theorem pdestroy_answers : let pid : BitVec 7 := o.sel.extractLsb' 0 7
    ((s.part pid).used = false → Answers (.pdestroy h o) h o.d 3 s s) ∧
    ((s.part pid).used = true → s.children pid ≠ [] ∨ s.ctxsOf pid ≠ [] → Answers (.pdestroy h o) h o.d 6 s s) ∧
    ((s.part pid).used = true → s.children pid = [] → s.ctxsOf pid = [] → Answers (.pdestroy h o) h o.d 0 (s.setPart pid {}) s) := by
  have hi : exec (.pdestroy h o) s = execPdestroy h o s := rfl
  unfold execPdestroy at hi
  intro pid
  have hbusy : ((!(s.children pid).isEmpty || !(s.ctxsOf pid).isEmpty) = true) ↔ s.children pid ≠ [] ∨ s.ctxsOf pid ≠ [] := by simp
  refine ⟨fun hu => .of_status m hi fun e s1 => if_pos (by simpa using hu),
    fun hu hb => .of_status m hi fun e s1 => (if_neg (by simpa using hu)).trans (if_pos (hbusy.2 hb)),
    fun hu hc hx => .of_supForm m hi (g := fun s => s.setPart pid {}) (fun _ _ _ => rfl) rfl fun e s1 =>
      (if_neg (by simpa using hu)).trans (if_neg fun hb => ?_)⟩
  exact (hbusy.1 hb).elim (· hc) (· hx)
theorem sbudget_answers : let pid : BitVec 7 := o.sel.extractLsb' 0 7
    let b : BitVec 32 := (s.rdS o.a).extractLsb' 0 32
    let ok := (s.part pid).used = true ∧ s.budgetOk pid b = true
    (ok → Answers (.sbudget h o) h o.d 0 (s.setPart pid { s.part pid with nextBudget := some b }) s) ∧ (¬ok → Answers (.sbudget h o) h o.d 3 s s) := by
  have hi : exec (.sbudget h o) s = execSbudget h o s := rfl
  unfold execSbudget at hi
  intro pid b ok
  have hok : ((!(s.part pid).used || !s.budgetOk pid b) = true) ↔ ¬ok := by simp [ok, Classical.or_iff_not_imp_left]
  exact ⟨fun h1 => .of_supForm m hi (g := fun s => s.modPart pid fun p => { p with nextBudget := some b }) (fun _ _ _ => rfl) rfl fun e s1 =>
    if_neg fun h2 => hok.1 h2 h1, fun h1 => .of_status m hi fun e s1 => if_pos (hok.2 h1)⟩
end

/-- What holds of every descriptor that a form may name, it answers for each. -/
theorem WithDescr.imp {i : Instr} {h : Hdr} {a : Word} {n align : Nat} {p : Perm} {k k' : List Nat → Prop} {s : State} (x : WithDescr i h a n align p k s)
    (hk : ∀ ks, k ks → k' ks) : WithDescr i h a n align p k' s := by
  obtain ⟨h1, h2, h3⟩ := x
  exact ⟨h1, h2, fun ks ha hks => ⟨(h3 ks ha hks).1, fun hp => hk ks ((h3 ks ha hks).2 hp)⟩⟩

/-- Settles O24: each form makes its tests on the state before it, and its effect stands beside the cores. -/
theorem supervisorPartitions : Obligations.SupervisorPartitions := by
  unfold Obligations.SupervisorPartitions
  intro h o s m _ a pid ends
  obtain ⟨habsent, hbusy, hgone⟩ := pdestroy_answers m
  refine ⟨pcreate_answers m, (psetq_answers m).imp fun ks ⟨hbad, hok⟩ => ⟨hbad, fun hu => ⟨_, hok hu, State.psetq_part _ _ s⟩⟩,
    habsent, hbusy, hgone, chmap_answers m,
    (slice_answers m).imp fun ks ⟨hbad, hok⟩ => ⟨hbad, fun hb => ⟨_, hok hb, newSlice_spec _ s.gts⟩⟩, sbudget_answers m⟩

end Sys2Proof.Machine
end

section
/-! PROOFS of the SupervisorBuffersPower statement (O25): FBPOP, PGPOP, FBREL, FBACT, FRZ, CAPRD, SLEEP and WFE on a supervisor core (R148, R154, R219,
R360 to R362). -/

set_option Elab.async false

namespace Sys2Proof.Machine

/-! ### Bytes of memory and the fault buffers, beside the cores -/

theorem Beside.putCells (cs : List (Nat × Byte)) : Beside fun s => s.putCells cs := by
  induction cs with
  | nil => exact fun _ _ _ => rfl
  | cons x cs ih =>
    obtain ⟨k, b⟩ := x
    exact ih.comp (f := fun s => s.setByte k b) fun _ _ _ => rfl
theorem Beside.writeBytes (cs : List (Nat × Byte)) : Beside fun s => s.writeBytes cs :=
  .ite (p := fun s => s.poison.isEmpty) (fun _ _ _ => rfl) (.putCells cs) (Beside.comp (g := fun s => s.cleanLines cs) (fun _ _ _ => rfl) (.putCells cs))
/-- Stage two does not read the cores. -/
theorem State.stage2s_cores (s : State) (cs : SMap Core) (k : Nat) (pid : BitVec 7) (gpa n : Nat) :
    ({ s with cores := cs, nextId := k } : State).stage2s pid gpa n = s.stage2s pid gpa n := by
  induction n generalizing gpa with
  | zero => rfl
  | succ n ih =>
    have h0 : ({ s with cores := cs, nextId := k } : State).stage2 pid gpa = s.stage2 pid gpa := rfl
    rw [State.stage2s, State.stage2s, h0, ih]
theorem State.fbufKeys_cores (s : State) (cs : SMap Core) (k : Nat) (pid : BitVec 7) (off n : Nat) :
    ({ s with cores := cs, nextId := k } : State).fbufKeys pid off n = s.fbufKeys pid off n := by
  unfold State.fbufKeys
  split
  · rfl
  · exact State.stage2s_cores s cs k ..
theorem State.fbufGet_cores (s : State) (cs : SMap Core) (k : Nat) (pid : BitVec 7) (off n : Nat) :
    ({ s with cores := cs, nextId := k } : State).fbufGet pid off n = s.fbufGet pid off n := by
  rw [State.fbufGet, State.fbufGet, State.fbufKeys_cores]
  rfl
theorem State.prod_cores (s : State) (cs : SMap Core) (k : Nat) (pid : BitVec 7) : ({ s with cores := cs, nextId := k } : State).prod pid = s.prod pid := by
  rw [State.prod, State.prod, State.fbufGet_cores]
theorem State.fbFull_cores (s : State) (cs : SMap Core) (k : Nat) (pid : BitVec 7) : ({ s with cores := cs, nextId := k } : State).fbFull pid = s.fbFull pid := by
  rw [State.fbFull, State.fbFull, State.prod_cores, State.cons, State.cons, State.fbufGet_cores]
theorem Beside.fbufPut (pid : BitVec 7) (off : Nat) (bs : List Byte) : Beside fun s => s.fbufPut pid off bs := fun s cs k => by
  dsimp only
  unfold State.fbufPut
  rw [State.fbufKeys_cores]
  cases s.fbufKeys pid off bs.length with
  | none => rfl
  | some ks => exact Beside.putCells _ s cs k
theorem Beside.writeRec (pid : BitVec 7) (r : FRec) : Beside fun s => s.writeRec pid r := fun s cs k => by
  have h2 := (Beside.fbufPut pid 0 (leBytes (s.prod pid + 1).toNat 4)).comp (Beside.fbufPut pid (4096 + 128 * ((s.prod pid).toNat % 256)) r.bytes) s cs k
  dsimp only at h2
  dsimp only [State.writeRec]
  rw [State.prod_cores, h2]
  split
  · rfl
  · exact Beside.event 6 pid r.cid r.inc 0 0 _ _ cs k
theorem Beside.setFheld (pid : BitVec 7) (l : List (FRec × Nat × Bool)) : Beside fun s => s.setFheld pid l :=
  (Beside.fbufPut pid 16 (leBytes ((if l.isEmpty then 0 else 1) + 2 ^ 16 * l.length) 4)).comp
    (Beside.ite (p := fun _ => pid == 0) (f := fun s => { s with devHeld := l }) (g := fun s => s.modPart pid fun p => { p with held := l })
      (fun _ _ _ => rfl) (fun _ _ _ => rfl) fun _ _ _ => rfl)

theorem State.writeBytes_cur (s : State) (cs : List (Nat × Byte)) : (s.writeBytes cs).cur = s.cur := by
  unfold State.writeBytes
  split
  · simp
  · exact State.putCells_cur ..
theorem State.fbufPut_cur (s : State) (pid : BitVec 7) (off : Nat) (bs : List Byte) : (s.fbufPut pid off bs).cur = s.cur := by
  unfold State.fbufPut
  split
  · simp
  · rfl
theorem State.setFheld_cur (s : State) (pid : BitVec 7) (l : List (FRec × Nat × Bool)) : (s.setFheld pid l).cur = s.cur := by
  unfold State.setFheld
  refine (State.fbufPut_cur ..).trans ?_
  split <;> rfl
theorem State.writeRec_cur (s : State) (pid : BitVec 7) (r : FRec) : (s.writeRec pid r).cur = s.cur := by
  unfold State.writeRec
  extract_lets i t u
  have hu : u.cur = s.cur := (State.fbufPut_cur ..).trans (State.fbufPut_cur ..)
  split
  · exact hu
  · obtain ⟨q, hq⟩ := State.event_ueq_only u 6 pid r.cid r.inc 0 0 (i.setWidth 64)
    rw [hq]
    exact hu

/-! ### The records of the device fault buffer and of the page-request queue (R154, R219) -/

theorem PgRec.length_bytes (r : PgRec) : r.bytes.length = 32 := by simp [PgRec.bytes, leBytes]
theorem PgRec.leNat_bytes (r : PgRec) : leNat r.bytes =
    r.cid.toNat + 2 ^ 12 * r.inc.toNat + 2 ^ 22 * r.tid.toNat + 2 ^ 32 * r.tile.toNat + 2 ^ 64 * r.crd.toNat + 2 ^ 128 * r.gts.toNat + 2 ^ 192 * r.src.toNat := by
  rw [PgRec.bytes, leNat_leBytes, Nat.mod_eq_of_lt]
  have := r.cid.isLt
  have := r.inc.isLt
  have := r.tid.isLt
  have := r.tile.isLt
  have := r.crd.isLt
  have := r.gts.isLt
  have := r.src.isLt
  omega

section
variable {s : State} {h : Hdr} {o : SY} (m : CcMay s h [(o.a, o.la)] [] 0)
include m
theorem fbpop_answers : WithDescr (.fbpop h o) h (s.rdS o.a) 128 128 .w (fun ks =>
    (s.prod 0 = s.cons 0 → Answers (.fbpop h o) h o.d 0 s s) ∧
    (∀ src, s.prod 0 ≠ s.cons 0 → s.fbufKeys 0 (4096 + 128 * ((s.cons 0).toNat % 256)) 128 = some src →
      Answers (.fbpop h o) h o.d 1 ((s.writeBytes (ks.zip (src.map s.byte))).fbufPut 0 8 (leBytes (s.cons 0 + 1).toNat 4)) s)) s := by
  have hi : exec (.fbpop h o) s = execFbpop h o s := rfl
  unfold execFbpop at hi
  refine .of_supForm m hi fun ks hk => ⟨fun he => .of_status m hi fun e s1 => (hk e s1).trans (if_pos (by simpa using he)), fun src hne hsrc => ?_⟩
  have hg := (Beside.fbufPut 0 8 (leBytes (s.cons 0 + 1).toNat 4)).comp (Beside.writeBytes (ks.zip (src.map s.byte)))
  refine .of_supForm m hi hg ((State.fbufPut_cur ..).trans (State.writeBytes_cur ..)) fun e s1 => (hk e s1).trans ((if_neg (by simpa using hne)).trans ?_)
  simp only [hsrc]
  rfl
theorem pgpop_answers : WithDescr (.pgpop h o) h (s.rdS o.a) 32 32 .w (fun ks =>
    (s.pgq = [] → Answers (.pgpop h o) h o.d 0 s s) ∧
    (∀ r rs, s.pgq = r :: rs → Answers (.pgpop h o) h o.d 1 (({ s with pgq := rs } : State).writeBytes (ks.zip r.bytes)) s)) s := by
  have hi : exec (.pgpop h o) s = execPgpop h o s := rfl
  unfold execPgpop at hi
  refine .of_supForm m hi fun ks hk => ⟨fun he => .of_status m hi fun e s1 => (hk e s1).trans ?_, fun r rs he => ?_⟩
  · simp only [he]
    rfl
  · refine .of_supForm m hi ((Beside.writeBytes (ks.zip r.bytes)).comp (f := fun s => { s with pgq := rs }) fun _ _ _ => rfl) (State.writeBytes_cur ..)
      fun e s1 => (hk e s1).trans ?_
    simp only [he]
    rfl
end

/-! ### Effects on cores, with the word's own core among them -/

/-- A change of a core that keeps to what an issued word left alone, and that the word's issue does not show in. -/
structure CoreRule (f : Core → Core) : Prop where
  frame : ∀ c c', CcFrame c c' → CcFrame (f c) (f c')
  pc : ∀ c, (f c).pc = c.pc
  tok : ∀ c, (f c).tok = c.tok
  peel : ∀ c, (f c).peel = c.peel
  regs : ∀ c, (f c).s = c.s
  hold : ∀ c, (f c).hold = c.hold

/-- Two states in which one effect has been had, the second after the word `s1` issued: they differ as that issue made them. -/
structure Follows (s1 s t : State) (n : Nat) : Prop where
  only : CoreOnly s t n
  frame : CcFrame (s.core n) (t.core n)
  nextId : t.nextId = s.nextId
  pc : (t.core n).pc = (s1.core n).pc
  tok : (t.core n).tok = (s1.core n).tok
  peel : (t.core n).peel = (s1.core n).peel
  regs : (t.core n).s = (s1.core n).s
  hold : (t.core n).hold = (s1.core n).hold
  base : (s.core n).s = (s1.core n).s

section
variable {s1 s t : State} {n : Nat} (x : Follows s1 s t n)
include x
theorem Follows.beside {g : State → State} (hg : Beside g) : Follows s1 (g s) (g t) n := by
  have hid : (g t).nextId = (g s).nextId := by
    have h1 := congrArg State.nextId (hg t t.cores s.nextId)
    have h2 := congrArg State.nextId (hg s s.cores s.nextId)
    rw [← x.nextId] at h1
    exact h1.trans (x.nextId.trans h2.symm)
  exact ⟨hg.coreOnly x.only, by rw [hg.core, hg.core]; exact x.frame, hid, by rw [hg.core]; exact x.pc, by rw [hg.core]; exact x.tok,
    by rw [hg.core]; exact x.peel, by rw [hg.core]; exact x.regs,
    by rw [hg.core]; exact x.hold,
    by rw [hg.core]; exact x.base⟩
theorem Follows.modCore (m : Nat) (f : Core → Core) (hf : m = n → CoreRule f) : Follows s1 (s.modCore m f) (t.modCore m f) n := by
  have ho : CoreOnly (s.modCore m f) (t.modCore m f) n := by
    refine ⟨?_, fun j hj => ?_⟩
    · show ({ t with cores := _ } : State) = _
      conv_lhs => rw [x.only.1]
      rfl
    · rw [State.core_modCore, State.core_modCore, x.only.2 j hj]
  by_cases hm : m = n
  · subst hm
    have r := hf rfl
    have hc (u : State) : (u.modCore m f).core m = f (u.core m) := State.core_modCore_self ..
    exact ⟨ho, by rw [hc, hc]; exact r.frame _ _ x.frame, x.nextId, by rw [hc, r.pc]; exact x.pc, by rw [hc, r.tok]; exact x.tok, by rw [hc, r.peel]; exact x.peel,
      by rw [hc, r.regs]; exact x.regs, by rw [hc, r.hold]; exact x.hold,
      by rw [hc, r.regs]; exact x.base⟩
  · have hc (u : State) : (u.modCore m f).core n = u.core n := State.core_modCore_ne _ _ fun e => hm e.symm
    exact ⟨ho, by rw [hc, hc]; exact x.frame, x.nextId, by rw [hc]; exact x.pc, by rw [hc]; exact x.tok, by rw [hc]; exact x.peel, by rw [hc]; exact x.regs,
      by rw [hc]; exact x.hold, by rw [hc]; exact x.base⟩
theorem Follows.eff : CcEff s s1 t n 0 (s.core n) [] (s1.core n).pc :=
  ⟨x.only, x.frame, x.pc, fun _ _ => by rw [x.tok], by rw [x.peel]; exact Nat.le_refl _⟩
/-- What a state says of a core's place in its context's horizon and cut. -/
theorem Follows.frame_at (m : Nat) : CcFrame (s.core m) (t.core m) := by
  by_cases hm : m = n
  · subst hm; exact x.frame
  · rw [x.only.2 m hm]; rfl
theorem Follows.task (m : Nat) : (t.core m).task = (s.core m).task := by rw [x.frame_at m]
theorem Follows.ctxs : t.ctxs = s.ctxs := by rw [x.only.1]
end
theorem CcIssued.follows {s s1 : State} {e : Word} {ts : List (Nat × Nat)} {srcs : List (BitVec 6 × Bool)} (i : CcIssued s s1 e ts srcs)
    (hid : s1.nextId = s.nextId) : Follows s1 s s1 s.cur :=
  ⟨i.only, i.frame, hid, rfl, rfl, rfl, rfl, rfl, i.regs.symm⟩
theorem Follows.refl (s : State) (n : Nat) : Follows s s s n := ⟨.refl s n, rfl, rfl, rfl, rfl, rfl, rfl, rfl, rfl⟩
/-- A word that answers a value in D, and whose effect is one before and after its issue. -/
theorem Answers.of_follows {s s0 : State} {h : Hdr} {srcs : List (BitVec 6 × Bool)} {d : BitVec 6} {i : Instr} {w : Word} {body : Word → State → Body}
    (m : CcMay s h srcs [] 0) (hi : exec i s = ccWord h w srcs [] body s) {v : Word} (hcur : s0.cur = s.cur)
    (hb : ∀ e s1, Follows s1 s s1 s.cur → ∃ u, body e s1 = .done (u.wrS d e v) ∧ Follows s1 s0 u s.cur) : Answers i h d v s0 s := by
  have hme : s0.me = s0.core s.cur := by rw [State.me, hcur]
  obtain ⟨u, -, x⟩ := hb 0 s (.refl s s.cur)
  have hh : (s0.core s.cur).hold = s.me.hold := by
    have h := x.hold
    rw [x.frame] at h
    exact h
  refine .of_eff m hi hcur (by have := m.room; rw [hme, hh]; omega) fun e s1 iss hid => ?_
  obtain ⟨u, hu, x⟩ := hb e s1 (iss.follows hid)
  refine ⟨u, hu, ?_, ?_⟩
  · rw [hme, ← iss.pc]
    exact x.eff
  · rw [hme, x.regs, x.base]

/-! ### FBREL (R154, R360) -/

theorem CoreRule.modEng {eng : Eng} (he : eng ≠ .cc) (f : EngSt → EngSt) : CoreRule fun c => c.modEng eng f := by
  constructor
  case frame =>
    intro c c' h
    unfold CcFrame at h ⊢
    rw [h]
    cases eng with
    | cc => exact absurd rfl he
    | _ => rfl
  all_goals
    intro c
    cases eng <;> rfl
theorem CoreRule.unhold (pid : BitVec 7) (r : FRec) (idx : BitVec 32) : CoreRule fun c => c.modEngs fun x => x.unhold pid r idx where
  frame := fun c c' h => by
    unfold CcFrame at h ⊢
    rw [h]
    rfl
  pc := fun _ => rfl
  tok := fun _ => rfl
  peel := fun _ => rfl
  regs := fun _ => rfl
  hold := fun _ => rfl

theorem State.releaseHeld_cur (pid : BitVec 7) (l : List (FRec × Nat × Bool)) (s : State) (k : Nat) : (s.releaseHeld pid l k).1.cur = s.cur := by
  induction l generalizing s k with
  | nil => rfl
  | cons x xs ih =>
    obtain ⟨r, n, parked⟩ := x
    unfold State.releaseHeld
    split
    · rfl
    · refine (ih ..).trans ?_
      split
      · exact State.writeRec_cur ..
      · exact State.writeRec_cur ..
/-- Held faults are released alike before a word's issue and after it. -/
theorem Follows.releaseHeld (pid : BitVec 7) (l : List (FRec × Nat × Bool)) {s1 s t : State} {n : Nat} (x : Follows s1 s t n) (k : Nat) :
    Follows s1 (s.releaseHeld pid l k).1 (t.releaseHeld pid l k).1 n ∧ (t.releaseHeld pid l k).2 = (s.releaseHeld pid l k).2 := by
  induction l generalizing s t k with
  | nil => exact ⟨x, rfl⟩
  | cons y ys ih =>
    obtain ⟨r, m, parked⟩ := y
    have hfull : t.fbFull pid = s.fbFull pid := by rw [x.only.1, State.fbFull_cores]
    have hprod : t.prod pid = s.prod pid := by rw [x.only.1, State.prod_cores]
    unfold State.releaseHeld
    rw [hfull, hprod]
    split
    · exact ⟨x, rfl⟩
    · have h1 := x.beside (Beside.writeRec pid r)
      cases parked with
      | false => exact ih h1 _
      | true => exact ih (h1.modCore m _ fun _ => .unhold ..) _

/-- What FBREL answers: how many faults it raised again. -/
theorem fbrel_answers {s : State} {h : Hdr} {o : SY} (m : CcMay s h [(o.a, o.la)] [] 0) : let pid : BitVec 7 := o.sel.extractLsb' 0 7
    let x := s.releaseHeld pid ((s.fheld pid).foldr heldInsert []) 0
    Answers (.fbrel h o) h o.d (BitVec.ofNat 64 x.2.1) (if x.2.1 = 0 then s else x.1.setFheld pid x.2.2) s := by
  intro pid x
  have hi : exec (.fbrel h o) s = execFbrel h o s := rfl
  unfold execFbrel at hi
  refine .of_follows m hi ?_ fun e s1 x1 => ?_
  · split
    · rfl
    · exact (State.setFheld_cur ..).trans (State.releaseHeld_cur ..)
  · have hheld : s1.fheld pid = s.fheld pid := by rw [x1.only.1]; rfl
    obtain ⟨x2, h2⟩ := x1.releaseHeld pid ((s.fheld pid).foldr heldInsert []) 0
    show ∃ u, ((if (s1.releaseHeld pid ((s1.fheld pid).foldr heldInsert []) 0).2.1 == 0 then s1 else
      (s1.releaseHeld pid ((s1.fheld pid).foldr heldInsert []) 0).1.setFheld pid (s1.releaseHeld pid ((s1.fheld pid).foldr heldInsert []) 0).2.2).status o e
        (s1.releaseHeld pid ((s1.fheld pid).foldr heldInsert []) 0).2.1) = _ ∧ _
    rw [hheld, h2]
    by_cases hk : x.2.1 = 0
    · rw [if_pos (by simpa using hk)]
      refine ⟨_, rfl, ?_⟩
      rw [if_pos hk]
      exact x1
    · rw [if_neg (by simpa using hk)]
      refine ⟨_, rfl, ?_⟩
      rw [if_neg hk]
      exact x2.beside (.setFheld pid x.2.2)

/-! ### FBACT (R148, R360) -/

/-- A change of an engine that also reads the level widths of the core's launch. -/
theorem CoreRule.modEng_cw {eng : Eng} (he : eng ≠ .cc) (f : List Nat → EngSt → EngSt) : CoreRule fun c => c.modEng eng (f c.cw) := by
  constructor
  case frame =>
    intro c c' h
    have hcw : c'.cw = c.cw := Core.cw_congr (by rw [h])
    have hf := (CoreRule.modEng he (f c.cw)).frame c c' h
    rw [hcw]
    exact hf
  all_goals
    intro c
    cases eng <;> rfl
theorem CoreRule.idle (now : Nat) : CoreRule fun c => { c with idle := now, hung := false } where
  frame := fun c c' h => by
    unfold CcFrame at h ⊢
    rw [h]
  pc := fun _ => rfl
  tok := fun _ => rfl
  peel := fun _ => rfl
  regs := fun _ => rfl
  hold := fun _ => rfl
theorem CoreRule.ops (fe : List ExeOp → List ExeOp) (fm : Mtx → Mtx) (fc : List CpyOp → List CpyOp) :
    CoreRule fun c => { c with exeQ := fe c.exeQ, mx := fm c.mx, cpyQ := fc c.cpyQ } where
  frame := fun c c' h => by
    unfold CcFrame at h ⊢
    rw [h]
  pc := fun _ => rfl
  tok := fun _ => rfl
  peel := fun _ => rfl
  regs := fun _ => rfl
  hold := fun _ => rfl

section
variable {s1 s t : State} {n : Nat} (x : Follows s1 s t n)
include x
theorem Follows.cycle : t.cycle = s.cycle := by rw [x.only.1]
theorem Follows.eng {m : Nat} {eng : Eng} (he : eng ≠ .cc) : (t.core m).eng eng = (s.core m).eng eng := by
  rw [x.frame_at m]
  cases eng with
  | cc => exact absurd rfl he
  | _ => rfl
theorem Follows.setNext (k : Nat) : Follows s1 { s with nextId := k } { t with nextId := k } n :=
  ⟨⟨by conv_lhs => rw [x.only.1], x.only.2⟩, x.frame, rfl, x.pc, x.tok, x.peel, x.regs, x.hold, x.base⟩
theorem Follows.retired (m : Nat) : Follows s1 (s.retired m) (t.retired m) n := by
  unfold State.retired
  rw [x.cycle]
  exact x.modCore m _ fun _ => .idle _
variable {eng : Eng} (he : eng ≠ .cc)
include he
theorem Follows.trimEng (m : Nat) : Follows s1 (s.trimEng m eng) (t.trimEng m eng) n := by
  have hcid : (t.core m).cid = (s.core m).cid := by rw [Core.cid, Core.cid, x.task]
  have hh : t.horizonOf m = s.horizonOf m := by rw [State.horizonOf, State.horizonOf, hcid, State.ctx, State.ctx, x.ctxs]
  have hc : t.cutOf m = s.cutOf m := by rw [State.cutOf, State.cutOf, hcid, State.ctx, State.ctx, x.ctxs]
  unfold State.trimEng
  rw [hh, hc]
  exact x.modCore m _ fun _ => .modEng he _
theorem Follows.passWord (m skip : Nat) : Follows s1 (s.passWord m eng skip) (t.passWord m eng skip) n :=
  ((x.modCore m _ fun _ => .modEng_cw he fun cw x => EngSt.next cw { x with skip := skip }).trimEng he m).retired m
theorem Follows.retireIss (m id : Nat) : Follows s1 (s.retireIss m eng id) (t.retireIss m eng id) n :=
  ((x.modCore m _ fun _ => .modEng he _).trimEng he m).retired m
end

section
variable {s1 s t : State} {n : Nat} (x : Follows s1 s t n) (m : Nat)
include x
theorem Follows.dropExe : Follows s1 (s.dropExe m) (t.dropExe m) n := by
  have hexe : (t.core m).exeQ = (s.core m).exeQ := by rw [x.frame_at m]
  unfold State.dropExe
  rw [hexe]
  cases (s.core m).exeQ with
  | nil => exact x
  | cons y ys =>
    exact (x.modCore m (fun c => { c with exeQ := ys }) fun _ => CoreRule.ops (fun _ => ys) (fun k => k) fun q => q).retireIss (eng := .exe) (by simp) m y.id
theorem Follows.dropMtx (slot : BitVec 16) : Follows s1 (s.dropMtx m slot) (t.dropMtx m slot) n := by
  have hmx : (t.core m).mx = (s.core m).mx := by rw [x.frame_at m]
  unfold State.dropMtx
  extract_lets c i d j
  have hj : j = i := x.nextId
  have hops : d.mx = c.mx := hmx
  rw [hops]
  cases c.mx.ops.find? fun o => o.slot == slot with
  | none =>
    dsimp only
    rw [hj]
    exact ((x.setNext (i + 1)).modCore m
      (fun c => { c with mtx := ({ c.mtx with iss := c.mtx.iss ++ [{ pos := slot, e := maxW c.mtx.elast c.mtx.crd, retired := true, snap := c.mtx.snap, id := i }] } : EngSt).passIssued 65536 })
      fun _ => .modEng (eng := .mtx) (by simp) fun y => EngSt.passIssued
        { y with iss := y.iss ++ [{ pos := slot, e := maxW y.elast y.crd, retired := true, snap := y.snap, id := i }] } 65536).trimEng (eng := .mtx) (by simp) m
  | some o =>
    exact (x.modCore m (fun c => { c with mx := { c.mx with ops := c.mx.ops.filter fun p => p.id != o.id } })
      fun _ => CoreRule.ops (fun q => q) (fun y => { y with ops := y.ops.filter fun p => p.id != o.id }) fun q => q).retireIss (eng := .mtx) (by simp) m o.id
theorem Follows.skipWord {eng : Eng} (he : eng ≠ .cc) (code : BitVec 8) (slot : BitVec 16) :
    Follows s1 (s.skipWord m eng code slot) (t.skipWord m eng code slot) n := by
  have hcpy : (t.core m).cpyQ = (s.core m).cpyQ := by rw [x.frame_at m]
  have hpass : Follows s1 (s.passWord m eng ((s.core m).eng eng).skip) (t.passWord m eng ((t.core m).eng eng).skip) n := by
    rw [x.eng he]
    exact x.passWord he m _
  unfold State.skipWord State.dropCpy
  rw [hcpy]
  split
  · exact x.dropExe m
  · split
    · exact x.dropMtx m slot
    · cases eng == .cpy with
      | false => exact hpass
      | true =>
        cases (s.core m).cpyQ.find? fun o => o.slot == slot && !o.done with
        | none => exact hpass
        | some o =>
          exact (x.modCore m (fun c => { c with cpyQ := c.cpyQ.filter fun p => p.id != o.id })
            fun _ => CoreRule.ops (fun q => q) (fun y => y) fun q => q.filter fun p => p.id != o.id).retireIss (eng := .cpy) (by simp) m o.id
end

theorem Follows.resolve {s1 s t : State} {n : Nat} (x : Follows s1 s t n) (m : Nat) (eng : Eng) (p : Park) (skip : Bool) (hne : ¬(m = n ∧ eng = .cc)) :
    Follows s1 (s.resolve m eng p skip) (t.resolve m eng p skip) n := by
  have h1 := x.modCore m (fun c => c.modEng eng fun x => { x with park := none }) fun hm => .modEng (fun he => hne ⟨hm, he⟩) _
  unfold State.resolve
  extract_lets u v
  split
  · exact h1
  · split
    · next hcc => exact (h1.modCore m _ fun hm => absurd ⟨hm, by simpa using hcc⟩ hne).retired m
    · next hcc => exact (h1.skipWord m (by simpa using hcc) p.frec.code p.slot).retired m

theorem State.resolve_cur (s : State) (n : Nat) (eng : Eng) (p : Park) (skip : Bool) : (s.resolve n eng p skip).cur = s.cur := by
  unfold State.resolve
  extract_lets u
  split
  · rfl
  · split
    · rfl
    · exact (State.skipWord_side u n eng p.frec.code p.slot).only.cur

theorem dfld_bit {w : Nat} (x : BitVec w) (i : Nat) : dfld x i 1 ≠ 0 ↔ x.getLsbD i = true := by
  rw [BitVec.getLsbD, Nat.testBit_eq_decide_div_mod_eq, decide_eq_true_iff, dfld]
  omega
theorem dfld_eq_zero {w lo n : Nat} {x : BitVec w} : dfld x lo n = 0 ↔ x.extractLsb' lo n = 0 := by
  rw [dfld_toNat, ← BitVec.toNat_inj]
  rfl

/-- What FBACT answers: 1 where its operand names no parked fault, else 0, with the engine gone on. -/
theorem fbact_answers {s : State} {h : Hdr} {o : SY} (m : CcMay s h [(o.a, o.la)] [] 0) : let a := s.rdS o.a
    let bad := a.getLsbD 7 = true ∨ a.extractLsb' 41 23 ≠ 0
    let rec_ := s.parkedOn (a.extractLsb' 0 7).toNat (a.extractLsb' 8 32)
    (bad ∨ rec_ = none → Answers (.fbact h o) h o.d 1 s s) ∧
    (∀ n eng p, ¬bad → rec_ = some (n, eng, p) → ¬(n = s.cur ∧ eng = .cc) → Answers (.fbact h o) h o.d 0 (s.resolve n eng p (a.getLsbD 40)) s) := by
  intro a bad rec_
  have hi : exec (.fbact h o) s = execFbact h o s := rfl
  unfold execFbact at hi
  have hrec : s.parkedOn (dfld a 0 7) (a.extractLsb' 8 32) = rec_ := by rw [dfld_toNat]
  have hbad : (dfld a 7 1 != 0 || dfld a 41 23 != 0) = true ↔ bad := by
    rw [Bool.or_eq_true, bne_iff_ne, bne_iff_ne, dfld_bit, Ne, dfld_eq_zero]
  refine ⟨fun hn => .of_status m hi fun e s1 => ?_, fun n eng p hn hr hne => .of_follows m hi (State.resolve_cur ..) fun e s1 x1 => ⟨_, ?_, x1.resolve n eng p _ hne⟩⟩
  · by_cases hb : bad
    · exact if_pos (hbad.2 hb)
    · exact (if_neg fun h => hb (hbad.1 h)).trans (by rw [hrec, hn.resolve_left hb]; rfl)
  · exact (if_neg fun h => hn (hbad.1 h)).trans (by rw [hrec, hr]; rfl)

/-! ### FRZ, CAPRD, WFE and SLEEP (R51, R52, R361, R362) -/

theorem wfe_answers {s : State} {h : Hdr} (o : SY) (m : CcMay s h [] [] 0) :
    (s.wfe = 0 → exec (.wfe h o) s = .next s) ∧ (s.wfe ≠ 0 → Answers (.wfe h o) h o.d (s.wfe.setWidth 64) { s with wfe := 0 } s) := by
  have hi : exec (.wfe h o) s = execWfe h o s := rfl
  unfold execWfe at hi
  refine ⟨fun h0 => ?_, fun h0 => .of_beside m hi (g := fun s => { s with wfe := 0 }) (fun _ _ _ => rfl) rfl fun e s1 => if_neg (by simpa using h0)⟩
  obtain ⟨s1, -, -, -, hgo⟩ := ccWordAt_issues m
  rw [hi, ccWord, hgo, if_pos (by simpa using h0), ccFinish]
theorem caprd_answers {s : State} {h : Hdr} {o : SY} (m : CcMay s h [(o.a, o.la)] [] 0) :
    let r := (s.rdS o.a).toNat % 2 ^ 16
    let isl := o.sel.toNat % 2 ^ 7
    (Config.capSize isl ≤ r → RaisesIllegal (.caprd h o) h s) ∧
    (r < Config.capSize isl → Computes (.caprd h o) h o.d (Config.capReg isl r s.freeCtr) s) := by
  intro r isl
  have hi : exec (.caprd h o) s = execCaprd h o s := rfl
  unfold execCaprd at hi
  have hr : dfld (s.rdS o.a) 0 16 = r := by simp [dfld, r]
  have hisl : dfld o.sel 0 7 = isl := by simp [dfld, isl]
  refine ⟨fun hle => .of_supForm m hi fun e s1 => ?_, fun hlt => .of_body (body := fun e s' => _) m rfl (fun e s1 _ => ?_) hi⟩
  · dsimp only
    rw [hr, hisl, if_pos hle]
    rfl
  · dsimp only
    rw [hr, hisl, if_neg (by omega)]

theorem State.awake_iff (s : State) : s.awake = true ↔
    (∃ x ∈ s.cores, x.2.task ≠ none) ∨ (∃ x ∈ s.parts, ∃ q ∈ x.2.q, q.2.pend ≠ [] ∨ q.2.cur ≠ none) ∨ s.oreqs ≠ [] ∨ s.ueOps ≠ [] := by
  simp only [State.awake, Bool.or_eq_true, List.any_eq_true, Option.isSome_iff_ne_none, Bool.not_eq_true', List.isEmpty_eq_false_iff, or_assoc]
theorem SMap.get_filter_key {α : Type} (d : α) (m : SMap α) (p : Nat → Bool) (k : Nat) : SMap.get d (m.filter fun x => p x.1) k = if p k then m.get d k else d := by
  induction m with
  | nil => cases p k <;> rfl
  | cons x m ih =>
    obtain ⟨j, v⟩ := x
    rw [List.filter_cons]
    by_cases hj : p j = true
    · rw [if_pos hj, SMap.get, SMap.get, ih]
      by_cases he : j = k
      · subst he
        simp [hj]
      · simp [he]
    · rw [if_neg hj, ih, SMap.get]
      by_cases he : j = k
      · subst he
        simp [hj]
      · simp [he]
theorem State.byte_toLowest (s : State) (k : Nat) : s.toLowest.byte k = if s.conf.retain = true ∧ isDram k = true then s.byte k else 0 := by
  show SMap.get 0 (if s.conf.retain then s.mem.filter (fun x => isDram x.1) else []) k = _
  cases s.conf.retain with
  | false => simp [SMap.get]
  | true => simp [SMap.get_filter_key, State.byte]

/-- What SLEEP answers. -/
theorem sleep_answers {s : State} {h : Hdr} (o : SY) (m : CcMay s h [] [] 0) :
    (s.awake = true → Answers (.sleep h o) h o.d 1 s s) ∧
    (¬s.awake = true → ∃ t, exec (.sleep h o) s = .next t ∧ t.pstate = .lowest ∧ t.ctxs = [] ∧ t.launches = [] ∧ t.out = s.out ∧
      (∀ n, n ≠ s.cur → t.core n = {}) ∧ ∀ k, t.byte k = if s.conf.retain = true ∧ isDram k = true then s.byte k else 0) := by
  have hi : exec (.sleep h o) s = execSleep h o s := rfl
  unfold execSleep at hi
  refine ⟨fun hw => .of_value m hi fun e s1 => if_pos hw, fun hw => ?_⟩
  obtain ⟨s1, iss, -, -, hgo⟩ := ccWordAt_issues m
  have hs1 : s1.toLowest.conf = s.toLowest.conf ∧ s1.toLowest.out = s.out ∧ s1.conf = s.conf ∧ ∀ k, s1.byte k = s.byte k := by
    rw [iss.only.1]
    exact ⟨rfl, rfl, rfl, fun _ => rfl⟩
  obtain ⟨-, hout, hconf, hbyte⟩ := hs1
  rw [hi, ccWord, hgo, if_neg hw, ccFinish_wait_eq _ _ _ _ rfl]
  refine ⟨_, rfl, rfl, rfl, rfl, hout, fun n hn => ?_, fun k => ?_⟩
  · have hcur : s1.toLowest.cur = s.cur := by rw [iss.only.1]; rfl
    exact State.core_modCore_ne _ _ (by rw [hcur]; exact hn)
  · exact (State.byte_toLowest s1 k).trans (by rw [hconf, hbyte])

/-- Settles O25: FBREL's and FBACT's effects on the cores are one before and after their own issue, and the other forms act beside the cores. -/
theorem supervisorBuffersPower : Obligations.SupervisorBuffersPower := by
  unfold Obligations.SupervisorBuffersPower
  refine ⟨fun h o s m _ => ?_, fun h o s m => ?_, fun h o s m => caprd_answers m⟩
  · intro a pid ends
    refine ⟨fbpop_answers m, (pgpop_answers m).imp fun ks ⟨hnil, hcons⟩ => ⟨hnil, fun r rs hr => ⟨r.bytes, r.length_bytes, r.leNat_bytes, hcons r rs hr⟩⟩,
      fbrel_answers m, fbact_answers m⟩
  · obtain ⟨hw0, hw1⟩ := wfe_answers o m
    obtain ⟨hawake, hasleep⟩ := sleep_answers o m
    rw [s.awake_iff] at hawake hasleep
    refine ⟨?_, hw0, hw1, hawake, hasleep⟩
    exact .of_beside m (.refl (execFrz h o s)) (fun s => { s with pstate := .frozen }) rfl
      (fun s1 ho => ⟨Beside.coreOnly (g := fun s => { s with pstate := .frozen }) (fun _ _ _ => rfl) ho, rfl⟩) fun s1 _ => rfl

end Sys2Proof.Machine
end

section
/-! PROOFS of the SupervisorContexts statement (O22): a counterexample to its clause of CTXSAVE (R145, R355). -/

set_option Elab.async false

namespace Sys2Proof.Machine

/-- The supervisor core holds a task of a stopped team of context 2, whose image area ends 41 bytes behind IMG, so that memory takes the header up to the low byte
of its length of the sections. -/
def supTasked : State :=
  { wSupDev { task := some {}, s := [(1, 2)] } with
    ctxs := [(2, { st := .stopped, used := true, pid := 8, img := 0x1FFFD7 })]
    launches := [(0, some { cid := 2, teams := [{ st := .stopped, cores := [256] }] })] }
/-- CTXSAVE of the context in s1, with its last use of s1. -/
def lastUse : SY := { d := 0, a := 1, la := true, sel := 0, imm := 0 }
/-- The memory key of that low byte. -/
def lenKey : Nat := 281474978807807
/-- A byte of memory in what an instruction answers. -/
def byteAfter (k : Nat) : Result → Option Byte
  | .next t => some (t.byte k)
  | _ => none

theorem supTasked_may : CcMay supTasked plainHdr [(lastUse.a, lastUse.la)] [] 0 where
  fresh := rfl
  legal := by decide
  met := fun x hx => by cases hx
  landed := fun x hx => by
    obtain rfl := List.mem_singleton.1 hx
    rfl
  alive := fun h => absurd h (by decide)
  noStop := rfl
  noWatch := by decide
  ungated := rfl
  room := ⟨by decide, by decide⟩
  signal := .inl rfl
theorem supTasked_saves : byteAfter lenKey (exec (.ctxsave plainHdr lastUse) supTasked) = some 117 := by decide +kernel
theorem supTasked_image : (supTasked.saveCtx 2).byte lenKey = 106 := by decide +kernel

/-- Refutes O22: CTXSAVE saves the tile tasks of the context's stopped teams as they stand after its own issue. Where such a team lists the supervisor core that
runs CTXSAVE, with a task of it, the issue's mark of a last use (R183) is in the image, and makes it longer than the image of the state before the word. -/
theorem not_supervisorContexts : ¬ Obligations.SupervisorContexts := by
  unfold Obligations.SupervisorContexts
  rintro ⟨hall, -⟩
  obtain ⟨-, -, -, -, -, hsave, -⟩ := hall plainHdr lastUse supTasked supTasked_may (by decide)
  obtain ⟨t, ht, ran, -⟩ := hsave (by decide +kernel) (by decide +kernel)
  have hcid : (supTasked.rdS lastUse.a).extractLsb' 0 12 = 2 := by decide
  have hkey : supTasked.imgKey 2 ≠ none := by decide +kernel
  rw [hcid, if_neg hkey] at ran
  have hbyte : t.byte lenKey = (supTasked.saveCtx 2).byte lenKey := by
    rw [State.byte, State.byte, ran.only.mem]
  have hsaves := supTasked_saves
  rw [ht, byteAfter, hbyte, supTasked_image] at hsaves
  exact absurd hsaves (by decide)

end Sys2Proof.Machine
end

section
/-! SUPPORT. What the issue of a ring word leaves, for words whose effect is not a fixed number of log entries: the operation numbers ordered before the
engine's later words (R226), and the state in which the word ends. -/

set_option Elab.async false

namespace Sys2Proof.Machine

theorem State.ringElast_nextId (s : State) (n : Nat) (eng : Eng) (e : Word) (p : Peel) (ahead : Bool) :
    (if ahead then (if ahead then s.log n p else s).raiseElast n eng e 0
      else (if ahead then s.log n p else s).modCore n fun c => c.modEng eng fun y => { y with elast := e }).nextId = s.nextId := by
  cases ahead with
  | true => exact (State.raiseElast_nextId ..).trans (State.log_nextId ..)
  | false => rfl
/-- The number that the next operation takes, and what is ordered before the engine's later words. -/
theorem State.ringIssue_order (s : State) (eng : Eng) (e : Word) (toks : List (Nat × Nat)) (ids : List Nat) (es : List (Nat × QEnt)) (bits : List OBit) (c' : Core)
    (he : (c'.eng eng).elast.toNat ≤ e.toNat) :
    (s.ringIssue eng e toks ids es bits c').nextId = s.nextId + 1 ∧
    (((s.ringIssue eng e toks ids es bits c').core s.cur).eng eng).before = mergeIds (c'.eng eng).before ids := by
  have hc0 : (s.setCore s.cur c').core s.cur = c' := s.core_setCore_self ..
  obtain ⟨p, hp⟩ : ∃ p : Peel, p = { kind := 7, eng := BitVec.ofNat 3 eng.num, addr := BitVec.ofNat 48 eng.num, crd := e, old := (c'.eng eng).ring.head.setWidth 256 } :=
    ⟨_, rfl⟩
  obtain ⟨u, hu, -, ue⟩ := (s.setCore s.cur c').ringElast s.cur eng e p (eng != .exe && eng != .mtx) (by rw [hc0]; exact he)
  have hid : u.nextId = s.nextId := by rw [hu]; exact State.ringElast_nextId ..
  have hform : s.ringIssue eng e toks ids es bits c' =
      (State.consume { u with nextId := u.nextId + 1 } s.cur eng e toks).modCore s.cur fun c => c.modEng eng fun y => { y with
        iss := y.iss ++ [{ pos := (c'.eng eng).ring.head, e := e, pops := es, bits := bits, id := u.nextId,
                           snap := { (c'.eng eng).snap with lastPop := if eng == .exe then (s.core s.cur).lastPop else [] } }],
        before := mergeIds y.before ids } := by
    rw [hu, hp]
    rfl
  rw [hform]
  refine ⟨?_, ?_⟩
  · show (State.consume { u with nextId := u.nextId + 1 } s.cur eng e toks).nextId = _
    rw [State.consume_nextId, hid]
  · rw [State.core_modCore_self, Core.modEng, Core.setEng_get, State.consume_eng]
    show mergeIds ((u.core s.cur).eng eng).before ids = _
    rw [ue, hc0]

/-- The list of the cores after changes of core `n` alone: core `n` stands there once at most, and the others as before. -/
structure ListsOnly (s t : State) (n : Nat) : Prop where
  mem : ∀ x ∈ t.cores, x ∈ s.cores ∧ x.1 ≠ n ∨ x = (n, t.core n)

theorem ListsOnly.setCore (s : State) (n : Nat) (c : Core) : ListsOnly s (s.setCore n c) n := .mk fun x hx => by
  rcases SMap.mem_set hx with rfl | h
  · exact .inr (by rw [State.core_setCore_self])
  · exact .inl h
section
variable {s t : State} {n : Nat} (l : ListsOnly s t n)
include l
theorem ListsOnly.modCore (f : Core → Core) : ListsOnly s (t.modCore n f) n := .mk fun x hx => by
  rcases SMap.mem_set hx with rfl | ⟨h, hn⟩
  · exact .inr (by rw [State.core_modCore_self])
  · rcases l.mem x h with h | h
    · exact .inl h
    · exact absurd (congrArg Prod.fst h) hn
theorem ListsOnly.log (p : Peel) : ListsOnly s (t.log n p) n := by
  unfold State.log
  split
  · exact l.modCore _
  · exact l
theorem ListsOnly.raiseElast (eng : Eng) (e pc : Word) : ListsOnly s (t.raiseElast n eng e pc) n := by
  unfold State.raiseElast
  split
  · exact ListsOnly.modCore (l.log _) _
  · exact l
theorem ListsOnly.consume (eng : Eng) (e : Word) (ts : List (Nat × Nat)) : ListsOnly s (t.consume n eng e ts) n := by
  induction ts generalizing t with
  | nil => exact l
  | cons x ts ih => exact ih (ListsOnly.modCore (l.log _) _)
end
theorem State.ringIssue_lists (s : State) (eng : Eng) (e : Word) (toks : List (Nat × Nat)) (ids : List Nat) (es : List (Nat × QEnt)) (bits : List OBit) (c' : Core) :
    ListsOnly s (s.ringIssue eng e toks ids es bits c') s.cur := by
  unfold State.ringIssue
  extract_lets n x lp t ahead t1 t2 id t3
  have h1 : ListsOnly s t1 n := by
    unfold t1
    split
    · exact (ListsOnly.setCore ..).log _
    · exact .setCore ..
  have h2 : ListsOnly s t2 n := by
    unfold t2
    split
    · exact h1.raiseElast ..
    · exact h1.modCore _
  have h3 : ListsOnly s t3 n := ⟨h2.mem⟩
  exact (h3.consume eng e toks).modCore _

/-- A word that may issue, from the state `s1` after its issue: where its body says so it goes on behind the word, or retires too. -/
theorem engWord_issues {s : State} {eng : Eng} {h : Hdr} {guard : BitVec 4} {pops : List Nat} {bits : Nat} {extra : Word}
    {es : List (Nat × QEnt)} {c' : Core} (m : EngMay s eng h guard pops bits extra es c') (w : Word) (chk : Word → Option Body)
    (hchk : chk (s.engCrd eng h es bits extra) = none) (body : Word → List QEnt → List OBit → Nat → State → Body) :
    ∃ s1, EngIssued s s1 eng (s.engCrd eng h es bits extra) (waitPresent (s.me.waitVal h)) (c'.dropBits eng bits) ∧ s1.nextId = s.nextId + 1 ∧
      ((s1.core s.cur).eng eng).before = mergeIds (s.me.eng eng).before (s.me.waitIds (s.me.waitVal h)) ∧ ListsOnly s s1 s.cur ∧
      ∀ s2, s2.me.fits = true →
        (body (s.engCrd eng h es bits extra) (es.map (·.2)) ((s.me.boq eng).take bits) s.nextId s1 = .quiet s2 →
          engWord eng h w guard chk pops bits extra body s = .next (s2.ringNext s.cur eng)) ∧
        (body (s.engCrd eng h es bits extra) (es.map (·.2)) ((s.me.boq eng).take bits) s.nextId s1 = .done s2 →
          (∀ j, (s2.core s.cur).tok.get {} j = (s1.core s.cur).tok.get {} j) →
          ∃ t, engWord eng h w guard chk pops bits extra body s = .next t ∧ EngLeft s2 t eng s.cur h.sig) := by
  obtain ⟨ptok, ppeel, peng, -, -⟩ := m.popped
  have hge : ((c'.dropBits eng bits).eng eng).elast.toNat ≤ (s.engCrd eng h es bits extra).toNat := by rw [peng]; exact s.engCrd_ge ..
  have hmet : ∀ j, tokNeed (waitPresent (s.me.waitVal h)) j ≤ (s.me.tok.get {} j).count.toNat := fun j => by
    by_cases hj : ∃ x ∈ waitPresent (s.me.waitVal h), x.1 = j
    · obtain ⟨x, hx, rfl⟩ := hj
      exact m.met x hx
    · have : (waitPresent (s.me.waitVal h)).filter (fun x => x.1 == j) = [] := by
        rw [List.filter_eq_nil_iff]
        exact fun x hx => by simpa using fun e => hj ⟨x, hx, e⟩
      simp [tokNeed, this]
  obtain ⟨ids, hids⟩ : ∃ ids, ids = s.me.waitIds (s.me.waitVal h) := ⟨_, rfl⟩
  have iss := s.ringIssue_issued eng (s.engCrd eng h es bits extra) (waitPresent (s.me.waitVal h)) ids es ((s.me.boq eng).take bits)
    (c'.dropBits eng bits) ptok ppeel hge hmet
  obtain ⟨hid, hbefore⟩ := s.ringIssue_order eng (s.engCrd eng h es bits extra) (waitPresent (s.me.waitVal h)) ids es ((s.me.boq eng).take bits)
    (c'.dropBits eng bits) hge
  have hlists := s.ringIssue_lists eng (s.engCrd eng h es bits extra) (waitPresent (s.me.waitVal h)) ids es ((s.me.boq eng).take bits) (c'.dropBits eng bits)
  have hgo := engWord_reaches m w chk body
  dsimp only at hgo
  rw [hchk, ← hids] at hgo
  dsimp only at hgo
  rw [← hids]
  generalize s.ringIssue eng (s.engCrd eng h es bits extra) (waitPresent (s.me.waitVal h)) ids es ((s.me.boq eng).take bits) (c'.dropBits eng bits) = s1 at *
  refine ⟨s1, iss, hid, by rw [hbefore, peng], hlists, fun s2 hf => ⟨fun hq => ?_, fun hd htok => ?_⟩⟩
  · rw [hgo, hq]
    exact if_pos hf
  · rw [hd] at hgo
    refine ⟨_, hgo.trans (if_pos hf), s2.ringRetire_left s.cur eng s.nextId h.sig _ _ _ (m.signal.imp id fun hs => ?_)⟩
    rw [htok]
    have := iss.count h.sig.toNat
    omega

end Sys2Proof.Machine
end

section
/-! SUPPORT. Tensor accesses before and after the issue of their word (R205 to R208): a translation reads and changes the same of both states. -/

set_option Elab.async false

namespace Sys2Proof.Machine

/-! ### Entries of a sparse map -/

theorem SMap.mem_erase_of {α : Type} {m : SMap α} {k : Nat} {x : Nat × α} (h : x ∈ m) (hk : x.1 ≠ k) : x ∈ m.erase k := by
  induction m with
  | nil => cases h
  | cons y t ih =>
    obtain ⟨j, v⟩ := y
    rw [SMap.erase]
    rcases List.mem_cons.1 h with rfl | h
    · rw [if_neg hk]
      exact List.mem_cons_self ..
    · split
      · exact ih h
      · exact List.mem_cons_of_mem _ (ih h)
theorem SMap.mem_insert_self {α : Type} (m : SMap α) (k : Nat) (v : α) : (k, v) ∈ m.insert k v := by
  induction m with
  | nil => simp [SMap.insert]
  | cons y t ih =>
    obtain ⟨j, w⟩ := y
    rw [SMap.insert]
    split
    · exact List.mem_cons_self ..
    · exact List.mem_cons_of_mem _ ih
theorem SMap.mem_insert_of {α : Type} {m : SMap α} {k : Nat} {v : α} {x : Nat × α} (h : x ∈ m) : x ∈ m.insert k v := by
  induction m with
  | nil => cases h
  | cons y t ih =>
    obtain ⟨j, w⟩ := y
    rw [SMap.insert]
    split
    · exact List.mem_cons_of_mem _ h
    · exact (List.mem_cons.1 h).elim (fun e => e ▸ List.mem_cons_self ..) fun h => List.mem_cons_of_mem _ (ih h)
theorem SMap.mem_set_self {α : Type} [DecidableEq α] {d v : α} (m : SMap α) (k : Nat) (hv : v ≠ d) : (k, v) ∈ m.set d k v := by
  rw [SMap.set, if_neg hv]
  exact SMap.mem_insert_self ..
theorem SMap.mem_set_of {α : Type} [DecidableEq α] {d v : α} {m : SMap α} {k : Nat} {x : Nat × α} (h : x ∈ m) (hk : x.1 ≠ k) : x ∈ m.set d k v := by
  rw [SMap.set]
  split
  · exact SMap.mem_erase_of h hk
  · exact SMap.mem_insert_of (SMap.mem_erase_of h hk)

/-! ### States that a tensor access reads alike -/

/-- A change of a core by a translation: of its cache of translations and its peel log alone, the log by the same entries on every core. -/
structure TransRule (f : Core → Core) : Prop where
  only : ∀ c, f c = { c with ttc := (f c).ttc, peel := (f c).peel }
  ttc : ∀ c c', c'.ttc = c.ttc → c'.task = c.task → (f c').ttc = (f c).ttc
  peel : ∃ j, ∀ c, (f c).peel.length = c.peel.length + j

/-- A core without the translations that a shootdown drops (R206). -/
def Core.dropTrans (cid : BitVec 12) (tid : BitVec 10) (tile : Option Nat) (c : Core) : Core :=
  { c with ttc := c.ttc.filter fun t => !(t.cid == cid && t.tid == tid && (match tile with | some k => t.tile == k | none => true)) }

/-- Two states that a tensor access of core `n` reads alike: `u`, before its word's issue, and `v`, after it. `v` comes from `s1` by translations, which write memory
only where `ph` is set. -/
structure TAlike (s1 : State) (ph : Bool) (n k : Nat) (u v : State) : Prop where
  only : CoreOnly u v n
  ttc : (v.core n).ttc = (u.core n).ttc
  task : (v.core n).task = (u.core n).task
  hold : (v.core n).hold = (u.core n).hold
  cpyQ : (v.core n).cpyQ = (u.core n).cpyQ
  peel : (v.core n).peel.length ≤ (u.core n).peel.length + k
  listed : ∀ x ∈ v.cores, x.2.cpyQ ≠ [] → ∃ y ∈ u.cores, y.1 = x.1 ∧ y.2.task = x.2.task ∧ y.2.cpyQ = x.2.cpyQ
  base : v.core n = { s1.core n with ttc := (v.core n).ttc, peel := (v.core n).peel }
  nextId : v.nextId = s1.nextId
  cur : v.cur = s1.cur
  mem : ph = false → v.mem = s1.mem

section
variable {s1 u v : State} {ph : Bool} {n k : Nat} (a : TAlike s1 ph n k u v)
include a
theorem TAlike.modCore {f : Core → Core} (r : TransRule f) : TAlike s1 ph n k (u.modCore n f) (v.modCore n f) := by
  have hu : (u.modCore n f).core n = f (u.core n) := State.core_modCore_self ..
  have hv : (v.modCore n f).core n = f (v.core n) := State.core_modCore_self ..
  have hf {α : Type} (g : Core → α) (hg : ∀ c t p, g { c with ttc := t, peel := p } = g c) (c : Core) : g (f c) = g c := by rw [r.only c, hg]
  obtain ⟨j, hj⟩ := r.peel
  constructor
  case only =>
    refine ⟨?_, fun m hm => by rw [State.core_modCore_ne _ _ hm, State.core_modCore_ne _ _ hm, a.only.2 m hm]⟩
    show ({ v with cores := _ } : State) = _
    conv_lhs => rw [a.only.1]
    rfl
  case ttc => rw [hu, hv]; exact r.ttc _ _ a.ttc a.task
  case task => rw [hu, hv, hf Core.task fun _ _ _ => rfl, hf Core.task fun _ _ _ => rfl, a.task]
  case hold => rw [hu, hv, hf Core.hold fun _ _ _ => rfl, hf Core.hold fun _ _ _ => rfl, a.hold]
  case cpyQ => rw [hu, hv, hf Core.cpyQ fun _ _ _ => rfl, hf Core.cpyQ fun _ _ _ => rfl, a.cpyQ]
  case peel =>
    have := a.peel
    rw [hu, hv, hj, hj]
    omega
  case listed =>
    intro x hx hq
    rcases SMap.mem_set hx with rfl | ⟨hx, hn⟩
    · have hq1 : (f (u.core n)).cpyQ ≠ [] := by
        rw [hf Core.cpyQ fun _ _ _ => rfl, ← a.cpyQ, ← hf Core.cpyQ fun _ _ _ => rfl]
        exact hq
      refine ⟨(n, f (u.core n)), SMap.mem_set_self _ _ fun h => hq1 (by rw [h]), rfl, ?_, ?_⟩
      · show (f (u.core n)).task = (f (v.core n)).task
        rw [hf Core.task fun _ _ _ => rfl, hf Core.task fun _ _ _ => rfl, a.task]
      · show (f (u.core n)).cpyQ = (f (v.core n)).cpyQ
        rw [hf Core.cpyQ fun _ _ _ => rfl, hf Core.cpyQ fun _ _ _ => rfl, a.cpyQ]
    · obtain ⟨y, hy, hk, ht⟩ := a.listed x hx hq
      exact ⟨y, SMap.mem_set_of hy (by rw [hk]; exact hn), hk, ht⟩
  case base =>
    rw [hv]
    refine (r.only _).trans ?_
    have b := a.base
    generalize v.core n = c at b ⊢
    rw [b]
  case nextId => exact a.nextId
  case cur => exact a.cur
  case mem => exact a.mem
theorem TAlike.beside {g : State → State} (hg : Beside g) (hcur : (g v).cur = v.cur) (hmem : ph = false → (g v).mem = v.mem) : TAlike s1 ph n k (g u) (g v) := by
  have hcores (w : State) : (g w).cores = w.cores := by
    have h := congrArg State.cores (hg w w.cores w.nextId)
    exact h
  have hid : (g v).nextId = v.nextId := by
    have h := congrArg State.nextId (hg v v.cores v.nextId)
    exact h
  have hc (w : State) (m : Nat) : (g w).core m = w.core m := hg.core w m
  exact ⟨hg.coreOnly a.only, by rw [hc, hc, a.ttc], by rw [hc, hc, a.task], by rw [hc, hc, a.hold], by rw [hc, hc, a.cpyQ], by rw [hc, hc]; exact a.peel,
    by rw [hcores, hcores]; exact a.listed, by rw [hc]; exact a.base, hid.trans a.nextId, hcur.trans a.cur, fun h => (hmem h).trans (a.mem h)⟩
theorem TAlike.shootdown (cid : BitVec 12) (tid : BitVec 10) (tile : Option Nat) : TAlike s1 ph n k (u.shootdown cid tid tile) (v.shootdown cid tid tile) := by
  have hc (w : State) (m : Nat) : (w.shootdown cid tid tile).core m = (w.core m).dropTrans cid tid tile := 
    SMap.get_map_snd ({} : Core) w.cores (Core.dropTrans cid tid tile) rfl m
  have hcores (w : State) : (w.shootdown cid tid tile).cores = w.cores.map fun x => (x.1, x.2.dropTrans cid tid tile) := rfl
  have hg {α : Type} (g : Core → α) (h : ∀ c t, g { c with ttc := t } = g c) (c : Core) : g (c.dropTrans cid tid tile) = g c := h c _
  constructor
  case only =>
    refine ⟨?_, fun m hm => by rw [hc, hc, a.only.2 m hm]⟩
    show ({ v with cores := _ } : State) = _
    conv_lhs => rw [a.only.1]
    rfl
  case ttc => rw [hc, hc, Core.dropTrans, Core.dropTrans, a.ttc]
  case task => rw [hc, hc, hg Core.task fun _ _ => rfl, hg Core.task fun _ _ => rfl, a.task]
  case hold => rw [hc, hc, hg Core.hold fun _ _ => rfl, hg Core.hold fun _ _ => rfl, a.hold]
  case cpyQ => rw [hc, hc, hg Core.cpyQ fun _ _ => rfl, hg Core.cpyQ fun _ _ => rfl, a.cpyQ]
  case peel => rw [hc, hc, hg Core.peel fun _ _ => rfl, hg Core.peel fun _ _ => rfl]; exact a.peel
  case listed =>
    intro x hx hq
    rw [hcores] at hx
    obtain ⟨x', hx', rfl⟩ := List.mem_map.1 hx
    have hq' : x'.2.cpyQ ≠ [] := fun h => hq ((hg Core.cpyQ (fun _ _ => rfl) x'.2).trans h)
    obtain ⟨y, hy, hk, ht, hcq⟩ := a.listed x' hx' hq'
    refine ⟨(y.1, y.2.dropTrans cid tid tile), by rw [hcores]; exact List.mem_map_of_mem hy, hk, ?_, ?_⟩
    · exact (hg Core.task (fun _ _ => rfl) y.2).trans (ht.trans (hg Core.task (fun _ _ => rfl) x'.2).symm)
    · exact (hg Core.cpyQ (fun _ _ => rfl) y.2).trans (hcq.trans (hg Core.cpyQ (fun _ _ => rfl) x'.2).symm)
  case base =>
    rw [hc]
    have b := a.base
    generalize v.core n = c at b ⊢
    rw [b]
    rfl
  case nextId => exact a.nextId
  case cur => exact a.cur
  case mem => exact a.mem

/-! ### What both read -/

theorem TAlike.cid : (v.core n).cid = (u.core n).cid := by rw [Core.cid, Core.cid, a.task]
theorem TAlike.inc : (v.core n).inc = (u.core n).inc := by rw [Core.inc, Core.inc, a.task]
theorem TAlike.ctx (c : BitVec 12) : v.ctx c = u.ctx c := by rw [a.only.1]; rfl
theorem TAlike.pageOk (c : BitVec 12) (gpa : Nat) : v.pageOk c gpa = u.pageOk c gpa := a.only.pageOk c gpa
theorem TAlike.entAt (c : BitVec 12) (gpa : Nat) : v.entAt c gpa = u.entAt c gpa := a.only.entAt c gpa
theorem TAlike.ttcHit (tid : BitVec 10) (tile : Nat) : (v.core n).ttcHit tid tile = (u.core n).ttcHit tid tile := by
  rw [Core.ttcHit, Core.ttcHit, a.ttc, a.cid, a.inc]
theorem TAlike.heldEnt (e : Word) (tid : BitVec 10) (tile : Nat) : v.heldEnt n e tid tile = u.heldEnt n e tid tile := by
  rw [State.heldEnt, State.heldEnt, a.hold, a.only.flying_eq]
theorem TAlike.logs (e : Word) : v.logs n e = u.logs n e := by
  rw [State.logs, State.logs, State.horizonOf, State.horizonOf, a.cid, a.ctx]
/-- An operation that writes a tile after the word's issue wrote it before. -/
theorem TAlike.writing {c : BitVec 12} {tid : BitVec 10} {tile : Nat} (h : u.writing c tid tile = false) : v.writing c tid tile = false := by
  unfold State.writing at h ⊢
  dsimp only at h ⊢
  rw [Bool.or_eq_false_iff] at h ⊢
  obtain ⟨hfly, hcores⟩ := h
  refine ⟨by rw [a.only.flying_eq]; exact hfly, ?_⟩
  rw [List.any_eq_false] at hcores ⊢
  intro x hx hw
  rw [Bool.and_eq_true] at hw
  obtain ⟨hcid, hq⟩ := hw
  obtain ⟨y, hy, -, htask, hcpy⟩ := a.listed x hx fun h0 => by rw [h0] at hq; exact absurd hq (by simp)
  refine hcores y hy ?_
  rw [Bool.and_eq_true, hcpy]
  refine ⟨?_, hq⟩
  rw [Core.cid, htask]
  exact hcid
end

/-! ### What both do -/

theorem TransRule.hit (t : TTCEnt) : TransRule fun c => { c with ttc := t :: c.ttc.erase t } :=
  ⟨fun _ => rfl, fun _ _ h _ => by dsimp only; rw [h], 0, fun _ => rfl⟩
theorem TransRule.fill (tid : BitVec 10) (tile : Nat) (x : BitVec 128) :
    TransRule fun c => c.ttcPut { cid := c.cid, inc := c.inc, tid := tid, tile := tile, ent := x } where
  only := fun _ => rfl
  ttc := fun c c' h ht => by
    have hcid : c'.cid = c.cid := by rw [Core.cid, Core.cid, ht]
    have hinc : c'.inc = c.inc := by rw [Core.inc, Core.inc, ht]
    dsimp only [Core.ttcPut]
    rw [h, hcid, hinc]
  peel := ⟨0, fun _ => rfl⟩
theorem TransRule.log (p : Peel) : TransRule fun c => { c with peel := p :: c.peel } :=
  ⟨fun _ => rfl, fun _ _ h _ => by dsimp only; exact h, 1, fun _ => rfl⟩

theorem Beside.gpaPut (cid : BitVec 12) (gpa n x : Nat) : Beside fun s => s.gpaPut cid gpa n x := fun s cs k => by
  dsimp only
  unfold State.gpaPut
  rw [State.stage2s_cores]
  have hctx : ({ s with cores := cs, nextId := k } : State).ctx cid = s.ctx cid := rfl
  rw [hctx]
  cases s.stage2s (s.ctx cid).pid gpa n with
  | none => rfl
  | some ks => exact Beside.putCells _ s cs k
theorem Beside.l2See (pid : BitVec 7) (alloc : Bool) (l : List (Nat × Nat)) : Beside fun s => s.l2See pid alloc l :=
  fun s cs k => s.l2See_cores cs k pid alloc l

section
variable {s1 u v : State} {ph : Bool} {n k : Nat} (a : TAlike s1 ph n k u v)
include a
theorem TAlike.log (p : Peel) : TAlike s1 ph n k (u.log n p) (v.log n p) := by
  rw [State.log, State.log, a.logs]
  split
  · exact a.modCore (.log p)
  · exact a
theorem TAlike.log3 (eng : Eng) (e : Word) (gpa : Nat) (old : BitVec 128) (tid : BitVec 10) (tile : Nat) :
    TAlike s1 ph n k (u.log3 n eng e gpa old tid tile) (v.log3 n eng e gpa old tid tile) := by
  rw [State.log3, State.log3]
  split
  · exact a
  · exact a.log _
theorem TAlike.putEnt (hp : ph = true) (cid : BitVec 12) (tid : BitVec 10) (tile gpa : Nat) (x : BitVec 128) :
    TAlike s1 ph n k (u.putEnt cid tid tile gpa x) (v.putEnt cid tid tile gpa x) := by
  obtain ⟨q, hq⟩ := v.gpaPut_mem_only cid gpa 16 x.toNat
  exact (a.beside (.gpaPut cid gpa 16 x.toNat) (by rw [hq]) fun h => by rw [hp] at h; cases h).shootdown cid tid (some tile)
theorem TAlike.ttcRead (tid : BitVec 10) (tile gpa : Nat) :
    (v.ttcRead n tid tile gpa).1 = (u.ttcRead n tid tile gpa).1 ∧ TAlike s1 ph n k (u.ttcRead n tid tile gpa).2 (v.ttcRead n tid tile gpa).2 := by
  unfold State.ttcRead
  dsimp only
  rw [a.ttcHit, a.cid, a.entAt]
  cases (u.core n).ttcHit tid tile with
  | some t => exact ⟨rfl, a.modCore (.hit t)⟩
  | none => exact ⟨rfl, a.modCore (.fill tid tile _)⟩
/-- A translation finds one entry, and leaves alike. -/
theorem TAlike.entry (e : Word) (d : TDesc) (tid : BitVec 10) (tile : Nat) :
    (u.entry n e d tid tile = none → v.entry n e d tid tile = none) ∧
    ∀ x u', u.entry n e d tid tile = some (x, u') → ∃ v', v.entry n e d tid tile = some (x, v') ∧ TAlike s1 ph n k u' v' := by
  unfold State.entry
  dsimp only
  rw [a.ttcHit, a.pageOk, a.cid, a.heldEnt]
  split
  · exact ⟨fun _ => rfl, fun _ _ h => nomatch h⟩
  · cases u.heldEnt n e tid tile with
    | some x => exact ⟨fun h => (nomatch h), fun x' u' h => by cases h; exact ⟨v, rfl, a⟩⟩
    | none =>
      refine ⟨fun h => (nomatch h), fun x' u' h => ?_⟩
      obtain ⟨h1, h2⟩ := a.ttcRead tid tile (d.entAddr tile)
      have hr : u.ttcRead n tid tile (d.entAddr tile) = (x', u') := Option.some.inj h
      rw [hr] at h1 h2
      exact ⟨(v.ttcRead n tid tile (d.entAddr tile)).2, congrArg some (Prod.ext h1 rfl), h2⟩

/-- What two translations answer alike: a run or an absent tile with states that are read alike, or the same fault; a tile that had to wait before the word's issue
is left open. -/
def TileAlike (s1 : State) (ph : Bool) (n k : Nat) : Tile → Tile → Prop
  | .run f u, .run g v => g = f ∧ TAlike s1 ph n k u v
  | .absent u, .absent v => TAlike s1 ph n k u v
  | .fault c x, .fault c' x' => c' = c ∧ x' = x
  | .stall _, _ => True
  | .noframe _ _, _ => True
  | _, _ => False

/-- A flip of a phased entry and its log entry. -/
theorem TAlike.flip (hp : ph = true) (eng : Eng) (e : Word) (cid : BitVec 12) (tid : BitVec 10) (tile gpa : Nat) (old new : BitVec 128) :
    (v.updateIfSame cid tid tile gpa old new).1 = (u.updateIfSame cid tid tile gpa old new).1 ∧
    TAlike s1 ph n k ((u.updateIfSame cid tid tile gpa old new).2.log3 n eng e gpa old tid tile) ((v.updateIfSame cid tid tile gpa old new).2.log3 n eng e gpa old tid tile) := by
  unfold State.updateIfSame
  rw [a.entAt]
  split
  · exact ⟨rfl, (a.putEnt hp ..).log3 ..⟩
  · exact ⟨rfl, a.log3 ..⟩

theorem TAlike.readTile (eng : Eng) (e : Word) (d : TDesc) (hph : ph = d.phased) (tid : BitVec 10) (tile : Nat) :
    TileAlike s1 ph n k (u.readTile n eng e d tid tile) (v.readTile n eng e d tid tile) := by
  obtain ⟨hnone, hsome⟩ := a.entry e d tid tile
  unfold State.readTile
  dsimp only
  cases hu : u.entry n e d tid tile with
  | none =>
    rw [hnone hu]
    exact ⟨rfl, rfl⟩
  | some x =>
    obtain ⟨x, u'⟩ := x
    obtain ⟨v', hv, b⟩ := hsome x u' hu
    rw [hv, a.cid]
    dsimp only
    rw [b.ctx]
    split
    · exact b
    split
    · exact ⟨rfl, b⟩
    next hphased =>
    have hp : ph = true := by
      rw [hph]
      cases hd : d.phased <;> simp [hd] at hphased ⊢
    split
    · cases hw : u'.writing (u.core n).cid tid tile with
      | true => exact trivial
      | false =>
        rw [b.writing hw]
        obtain ⟨h1, h2⟩ := b.flip hp eng e (u.core n).cid tid tile (d.entAddr tile) x (entFlip x)
        generalize u'.updateIfSame (u.core n).cid tid tile (d.entAddr tile) x (entFlip x) = y at h1 h2 ⊢
        generalize v'.updateIfSame (u.core n).cid tid tile (d.entAddr tile) x (entFlip x) = z at h1 h2 ⊢
        obtain ⟨f, u2⟩ := y
        obtain ⟨g, v2⟩ := z
        obtain rfl : g = f := h1
        cases g with
        | true => exact ⟨rfl, h2⟩
        | false => exact trivial
    · split
      · exact ⟨rfl, b⟩
      · exact ⟨rfl, b⟩

theorem TAlike.readTiles (eng : Eng) (e : Word) (d : TDesc) (hph : ph = d.phased) (tid : BitVec 10) (ab : Bool) (ts : List Nat) (acc : List (Nat × Option (BitVec 36)))
    {u' : State} {runs : List (Nat × Option (BitVec 36))} (h : u.readTiles n eng e d tid ab ts acc = .inr (u', runs)) :
    ∃ v', v.readTiles n eng e d tid ab ts acc = .inr (v', runs) ∧ TAlike s1 ph n k u' v' := by
  induction ts generalizing u v acc with
  | nil =>
    obtain ⟨rfl, rfl⟩ := Prod.mk.inj (Sum.inr.inj h)
    exact ⟨v, rfl, a⟩
  | cons t ts ih =>
    have ht := a.readTile eng e d hph tid t
    rw [State.readTiles] at h
    generalize hu : u.readTile n eng e d tid t = x at h ht
    generalize hv : v.readTile n eng e d tid t = y at ht
    rw [State.readTiles, hv]
    cases x with
    | run f u1 =>
      cases y with
      | run g v1 =>
        obtain ⟨rfl, b⟩ := ht
        exact ih b _ h
      | _ => exact ht.elim
    | absent u1 =>
      cases y with
      | absent v1 =>
        cases ab with
        | true => exact ih ht _ h
        | false => cases h
      | _ => exact ht.elim
    | _ => cases h
end

theorem State.sources_cores (s : State) (cs : SMap Core) (k : Nat) (cid : BitVec 12) (runs : List (Nat × Option (BitVec 36))) (bs : List (Option TByte)) :
    ({ s with cores := cs, nextId := k } : State).sources cid runs bs = s.sources cid runs bs := by
  induction bs with
  | nil => rfl
  | cons b bs ih =>
    have hk (b : TByte) : ({ s with cores := cs, nextId := k } : State).tbyteKey cid runs b = s.tbyteKey cid runs b := rfl
    rw [State.sources, State.sources, ih]
    cases b with
    | none => rfl
    | some b => simp only [hk]
theorem State.l2See_keeps (s : State) (pid : BitVec 7) (alloc : Bool) (l : List (Nat × Nat)) : (s.l2See pid alloc l).mem = s.mem ∧ (s.l2See pid alloc l).cur = s.cur := by
  obtain ⟨m, hm⟩ := s.l2See_l2_only pid alloc l
  rw [hm]
  exact ⟨rfl, rfl⟩

section
variable {s1 u v : State} {ph : Bool} {n k : Nat} (a : TAlike s1 ph n k u v)
include a
theorem TAlike.ownWrite (eng : Eng) (tid : BitVec 10) (cs : List (Nat × Nat)) (ks : List Nat) : v.ownWrite n eng tid cs ks = u.ownWrite n eng tid cs ks := by
  rw [State.ownWrite, State.ownWrite, State.releasedOf, State.releasedOf, a.only.flying_eq, a.cid, a.inc]
/-- A read that has resolved before its word's issue resolves alike after it. -/
theorem TAlike.tensorRead (eng : Eng) (e : Word) (d : TDesc) (hph : ph = d.phased) (tid : BitVec 10) (ab : Bool) (bs : List (Option TByte))
    {src : List (Option (Nat × Byte))} {runs : List (Nat × Option (BitVec 36))} {u' : State} (h : u.tensorRead n eng e d tid ab bs = .ok src runs u') :
    ∃ v', v.tensorRead n eng e d tid ab bs = .ok src runs v' ∧ TAlike s1 ph n k u' v' := by
  unfold State.tensorRead State.tensorReadAt at h ⊢
  dsimp only at h ⊢
  generalize hu : u.readTiles n eng e d tid ab _ _ = x at h
  match x with
  | .inl (.fault _ _) => cases h
  | .inl (.stall _) => cases h
  | .inl (.run _ _) => cases h
  | .inl (.absent _) => cases h
  | .inl (.noframe _ _) => cases h
  | .inr (w, rs) =>
    obtain ⟨v', hv, b⟩ := a.readTiles eng e d hph tid ab _ _ hu
    have hsrc : v'.sources (v'.core n).cid rs bs = w.sources (w.core n).cid rs bs := by
      rw [b.cid, b.only.1]
      exact State.sources_cores ..
    have hpois : ∀ k, v'.poisoned k = w.poisoned k := fun k => by rw [b.only.1]; rfl
    rw [hv]
    dsimp only at h ⊢
    rw [hsrc]
    generalize w.sources (w.core n).cid rs bs = y at h ⊢
    match y with
    | .inr t => cases h
    | .inl ks =>
      dsimp only at h ⊢
      simp only [hpois, b.ownWrite, b.cid, b.ctx]
      generalize List.find? (fun g : Nat × Nat => w.poisoned g.2) (gpaKeys rs bs ks) = z at h ⊢
      match z with
      | some g => cases h
      | none =>
        dsimp only at h ⊢
        split at h
        · cases h
        · next hown =>
          rw [if_neg hown]
          cases h
          exact ⟨_, rfl, b.beside (Beside.l2See _ true (lineHeads (gpaKeys runs bs src))) (State.l2See_keeps ..).2 fun _ => (State.l2See_keeps ..).1⟩
end

/-- After the issue of a word of an engine, which pops entries and bits, the state is read by a tensor access as the one before. -/
theorem EngIssued.talike {s s1 : State} {eng : Eng} {e : Word} {ts : List (Nat × Nat)} {h : Hdr} {guard : BitVec 4} {pops : List Nat} {bits : Nat} {extra : Word}
    {es : List (Nat × QEnt)} {c' : Core} (m : EngMay s eng h guard pops bits extra es c') (i : EngIssued s s1 eng e ts (c'.dropBits eng bits))
    (l : ListsOnly s s1 s.cur) (ph : Bool) : TAlike s1 ph s.cur (2 + ts.length) s s1 := by
  have h1 := popAll_frame _ _ _ _ _ m.taken
  have h2 := c'.dropBits_frame eng bits
  have hkeep : (s1.core s.cur).ttc = s.me.ttc ∧ (s1.core s.cur).task = s.me.task ∧ (s1.core s.cur).hold = s.me.hold ∧ (s1.core s.cur).cpyQ = s.me.cpyQ := by
    refine ⟨?_, ?_, ?_, ?_⟩ <;> rw [i.core, h2, h1] <;> cases eng <;> rfl
  obtain ⟨httc, htask, hhold, hcpyQ⟩ := hkeep
  refine ⟨i.only, httc, htask, hhold, hcpyQ, by have := i.log; rw [← State.me]; omega, fun x hx hq => ?_, rfl, rfl, rfl, fun _ => rfl⟩
  rcases l.mem x hx with ⟨h, -⟩ | rfl
  · exact ⟨x, h, rfl, rfl, rfl⟩
  · refine ⟨(s.cur, s.me), SMap.mem_of_get rfl fun h0 => hq (hcpyQ.trans (congrArg Core.cpyQ h0)), rfl, htask.symm, hcpyQ.symm⟩

end Sys2Proof.Machine
end

section
/-! PROOFS of the TensorLoads statement (O28): LDT, LDTR and GATH resolve their tiles at issue and push an entry whose bytes land later (R369 to R371). -/

set_option Elab.async false

namespace Sys2Proof.Machine

theorem EngSt.goTo_elast (cw : List Nat) (pos : BitVec 16) (x : EngSt) (ls : List Loop) : (EngSt.goTo cw pos x ls).elast = x.elast := by
  induction ls generalizing x with
  | nil => rfl
  | cons l ls ih =>
    rw [EngSt.goTo]
    dsimp only
    split
    · split
      · split
        · rfl
        · exact ih _
      · split
        · rfl
        · exact ih _
    · rfl

section
variable {s : State} {h : Hdr} {guard : BitVec 4} {pops : List Nat} {es : List (Nat × QEnt)} {c' : Core} (m : EngMay s .acc h guard pops 0 0 es c')
  {i : Instr} {w : Word} {chk : Word → Option Body} {body : Word → List QEnt → List OBit → Nat → State → Body}
  (hi : exec i s = engWord .acc h w guard chk pops 0 0 body s)
include m hi
/-- A load whose read resolves pushes its entry, with the landing that will bring its bytes. -/
theorem load_pushes {q fmt : Nat} {d : TDesc} {tid : BitVec 10} {ab : Bool} {bs : List (Option TByte)} {fl : Pred} {slot : BitVec 16}
    {src : List (Option (Nat × Byte))} {runs : List (Nat × Option (BitVec 36))} {u : State}
    (hchk : chk (s.engCrd .acc h es 0 0) = none) (hr : s.tensorRead s.cur .acc (s.engCrd .acc h es 0 0) d tid ab bs = .ok src runs u) (hu : u.me.peel.length + 24 ≤ 1024)
    (hb : ∀ s1 v, s1.tensorRead s.cur .acc (s.engCrd .acc h es 0 0) d tid ab bs = .ok src runs v →
      body (s.engCrd .acc h es 0 0) (es.map (·.2)) ((s.me.boq .acc).take 0) s.nextId s1 = .quiet (v.pushLoad h (s.engCrd .acc h es 0 0) q s.nextId fmt fl src slot)) :
    ∃ (t : State) (y : QEnt) (l : Landing), exec i s = .next t ∧
      (t.core s.cur).queue q = c'.queue q ++ [y] ∧ y.e = s.engCrd .acc h es 0 0 ∧ y.eos = false ∧ y.landed = false ∧ y.src = src ∧ y.fmt = BitVec.ofNat 5 fmt ∧
      y.flags = fl ∧ (t.core s.cur).landQ = s.me.landQ ++ [l] ∧ l.queue = some (q, y.id) ∧ l.sig = h.sig ∧ l.e = s.engCrd .acc h es 0 0 ∧
      l.after = s.engAfter .acc h ∧ (∀ k, k < 6 → k ≠ q → (t.core s.cur).queue k = c'.queue k) ∧ (t.core s.cur).g = s.me.g ∧ (t.core s.cur).spad = s.me.spad ∧
      (t.core s.cur).acc.elast = s.engCrd .acc h es 0 0 ∧ (d.phased = false → t.mem = s.mem) := by
  obtain ⟨s1, iss, -, hbefore, hlists, hgo⟩ := engWord_issues m w chk hchk body
  obtain ⟨v, hv, a⟩ := (iss.talike m hlists d.phased).tensorRead .acc _ d rfl tid ab bs hr
  have hvcur : v.cur = s.cur := a.cur.trans iss.only.cur
  have hucur : u.cur = s.cur := by rw [← a.only.cur, hvcur]
  obtain ⟨y, hy⟩ : ∃ y : QEnt, y = { e := s.engCrd .acc h es 0 0, flags := fl, fmt := BitVec.ofNat 5 fmt, landed := false, src := src, id := s.nextId } := ⟨_, rfl⟩
  obtain ⟨c, hc⟩ : ∃ c, c = (v.core s.cur).setQueue q ((v.core s.cur).queue q ++ [y]) := ⟨_, rfl⟩
  obtain ⟨l, hl⟩ : ∃ l : Landing, l = { e := s.engCrd .acc h es 0 0, sig := h.sig, slot := slot, id := s.nextId, queue := some (q, s.nextId), after := c.barOn .acc } := ⟨_, rfl⟩
  have hcore : (v.pushLoad h (s.engCrd .acc h es 0 0) q s.nextId fmt fl src slot).core s.cur = { c with landQ := c.landQ ++ [l] } := by
    rw [State.pushLoad, State.pushQ, hvcur, State.core_modCore_self, State.core_modCore_self, ← hy, ← hc, hl]
  have hcur2 : (v.pushLoad h (s.engCrd .acc h es 0 0) q s.nextId fmt fl src slot).cur = s.cur := hvcur
  have hmem2 : (v.pushLoad h (s.engCrd .acc h es 0 0) q s.nextId fmt fl src slot).mem = v.mem := rfl
  have hb2 := hb s1 v hv
  generalize v.pushLoad h (s.engCrd .acc h es 0 0) q s.nextId fmt fl src slot = s2 at hb2 hcore hcur2 hmem2
  have hpop := m.acc_popped
  have hissue := iss.core
  have heng := iss.eng
  rw [hpop] at hissue heng
  have hvc := a.base
  have hsetq := (v.core s.cur).setQueue_frame q ((v.core s.cur).queue q ++ [y])
  rw [← hc] at hsetq
  have hqueue (k : Nat) : (v.core s.cur).queue k = c'.queue k := by
    rw [Core.queue, Core.queue, hvc, hissue]
    rfl
  have hkeep : c.hold = s.me.hold ∧ c.g = s.me.g ∧ c.spad = s.me.spad ∧ c.landQ = s.me.landQ ∧ c.bars = s.me.bars ∧ c.peel = (v.core s.cur).peel ∧
      c.acc = (s1.core s.cur).acc := by
    refine ⟨?_, ?_, ?_, ?_, ?_, by rw [hsetq], ?_⟩ <;> rw [hsetq, hvc, hissue] <;> rfl
  obtain ⟨hhold, hg, hspad, hland, hbars, hpeel, hacc⟩ := hkeep
  have hfits : s2.me.fits = true := by
    have h1 := a.peel
    have h2 : (waitPresent (s.me.waitVal h)).length ≤ 3 := waitPresent_length _
    have h3 := m.room
    rw [State.me, hucur] at hu
    rw [Core.fits, State.me, hcur2, hcore]
    show (decide (c.peel.length ≤ 1024) && decide (c.hold.length ≤ 128)) = true
    rw [hpeel, hhold]
    simp only [Bool.and_eq_true, decide_eq_true_eq]
    omega
  have left := s2.ringNext_left s.cur .acc
  have hcw := left.core
  rw [hcore] at hcw
  have hq' (k : Nat) : ((s2.ringNext s.cur .acc).core s.cur).queue k = c.queue k := by
    rw [Core.queue, hcw]
    rfl
  have hafter : l.after = s.engAfter .acc h := by
    rw [hl]
    show c.barOf c.acc.before = _
    have hb1 : c.acc.before = mergeIds (s.me.eng .acc).before (s.me.waitIds (s.me.waitVal h)) := by rw [hacc]; exact hbefore
    rw [hb1, State.engAfter, Core.barOf, Core.barOf, hbars]
  have helast : ((s2.ringNext s.cur .acc).core s.cur).acc.elast = s.engCrd .acc h es 0 0 := by
    have h1 := congrArg EngSt.elast left.eng
    have h2 := congrArg EngSt.elast heng
    refine h1.trans ((EngSt.goTo_elast ..).trans ?_)
    rw [hcore]
    show c.acc.elast = _
    rw [hacc]
    exact h2
  refine ⟨s2.ringNext s.cur .acc, y, l, hi.trans ((hgo s2 hfits).1 hb2), ?_, by rw [hy], by rw [hy], by rw [hy], by rw [hy], by rw [hy], by rw [hy], ?_, by rw [hl, hy],
    by rw [hl], by rw [hl], hafter, fun k _ hk => ?_, ?_, ?_, helast, fun hp => ?_⟩
  · rw [hq', hc, Core.queue_setQueue_self, hqueue]
  · rw [hcw]
    show c.landQ ++ [l] = _
    rw [hland]
  · rw [hq', hc, Core.queue_setQueue_ne _ hk, hqueue]
  · rw [hcw]
    exact hg
  · rw [hcw]
    exact hspad
  · exact left.only.mem.trans (hmem2.trans ((a.mem hp).trans iss.only.mem))
end

/-- A load whose operands stand is read, and pushed or refused as its read says. -/
theorem accLoad_loads {h : Hdr} {o : TN} {s : State} {res : Bool} {i : Instr} {w : Word} {d : TDesc} {x : List Nat} (hi : exec i s = accLoad h w o res s)
    (hroom : s.accRoom o.x = true) (hrow : s.accRow (s.engCrd .acc h [] 0 0) w o = .inl (d, x))
    {es : List (Nat × QEnt)} {c' : Core} (m : EngMay s .acc h (o.q.extractLsb' 0 4) [] 0 0 es c') :
    let e := s.engCrd .acc h es 0 0
    (∀ src runs u, s.tensorRead s.cur .acc e d o.tid res (d.row x) = .ok src runs u → u.me.peel.length + 24 ≤ 1024 →
      ∃ (t : State) (y : QEnt) (l : Landing), exec i s = .next t ∧
        (t.core s.cur).queue (o.x.toNat - 32) = c'.queue (o.x.toNat - 32) ++ [y] ∧ y.e = e ∧ y.eos = false ∧ y.landed = false ∧ y.src = src ∧
        y.fmt = BitVec.ofNat 5 d.fmt ∧ y.flags = (if res then residency runs (d.rowTiles x) else 0) ∧ (t.core s.cur).landQ = s.me.landQ ++ [l] ∧
        l.queue = some (o.x.toNat - 32, y.id) ∧ l.sig = h.sig ∧ l.e = e ∧ l.after = s.engAfter .acc h ∧
        (∀ k, k < 6 → k ≠ o.x.toNat - 32 → (t.core s.cur).queue k = c'.queue k) ∧ (t.core s.cur).g = s.me.g ∧ (t.core s.cur).spad = s.me.spad ∧
        (t.core s.cur).acc.elast = e ∧ (d.phased = false → t.mem = s.mem)) ∧
    (∀ code val, s.tensorRead s.cur .acc e d o.tid res (d.row x) = .stop (.fault code val) →
      exec i s = .next (s.raise s.cur .acc code val e true s.me.acc.ring.head)) := by
  obtain ⟨rfl, -⟩ := m.none_popped
  have hi2 := hi
  unfold accLoad at hi2
  dsimp only at hi2
  refine ⟨fun src runs u hr hu => ?_, fun code val hr => ?_⟩
  · refine load_pushes m hi2 (slot := s.me.acc.ring.head) ?_ hr hu fun s1 v hv => ?_
    · simp only [hrow, hroom, hr] <;> rfl
    · simp only [hrow, hv]
  · rw [hi2]
    refine engWord_raises m w _ ?_ _
    simp only [hrow, hroom, hr] <;> rfl
/-- A load whose operands are refused raises the fault. -/
theorem accLoad_refused {h : Hdr} {o : TN} {s : State} {res : Bool} {i : Instr} {w : Word} (hi : exec i s = accLoad h w o res s) {code : BitVec 8} {val : Word}
    (hrow : s.accRow (s.engCrd .acc h [] 0 0) w o = .inr (.fault code val)) : EngRaises i .acc h (o.q.extractLsb' 0 4) [] 0 0 code val s := by
  unfold accLoad at hi
  dsimp only at hi
  refine .of_test hi fun es c' m => ?_
  obtain ⟨rfl, -⟩ := m.none_popped
  simp only [hrow]

/-- The pops of one word are the same however they were found. -/
theorem EngMay.same_pops {s : State} {eng : Eng} {h : Hdr} {guard : BitVec 4} {pops : List Nat} {bits : Nat} {extra : Word} {es es' : List (Nat × QEnt)} {c c' : Core}
    (m : EngMay s eng h guard pops bits extra es c) (m' : EngMay s eng h guard pops bits extra es' c') : es' = es ∧ c' = c := by
  have h1 := m.taken.symm.trans m'.taken
  cases h1
  exact ⟨rfl, rfl⟩

section
variable {h : Hdr} {o : TN} {s : State} {d : TDesc} {x : List Nat} {dim : Nat} {es : List (Nat × QEnt)} {c' : Core}
  (hroom : s.accRoom o.x = true) (hrow : s.accIndexed (s.engCrd .acc h es 0 0) (Instr.gath h o).word o = .inl (d, x, dim))
include hroom hrow
theorem gath_loads {bs : List (List (Option TByte))} (hbs : d.indexed x dim (s.idxHead o) = some bs)
    (m : EngMay s .acc h (o.q.extractLsb' 0 4) [idxQueue o] 0 0 es c') :
    let e := s.engCrd .acc h es 0 0
    (∀ src runs u, s.tensorRead s.cur .acc e d o.tid false bs.flatten = .ok src runs u → u.me.peel.length + 24 ≤ 1024 →
      ∃ (t : State) (y : QEnt) (l : Landing), exec (.gath h o) s = .next t ∧
        (t.core s.cur).queue (o.x.toNat - 32) = c'.queue (o.x.toNat - 32) ++ [y] ∧ y.e = e ∧ y.eos = false ∧ y.landed = false ∧ y.src = src ∧
        y.fmt = BitVec.ofNat 5 d.fmt ∧ y.flags = 0 ∧ (t.core s.cur).landQ = s.me.landQ ++ [l] ∧
        l.queue = some (o.x.toNat - 32, y.id) ∧ l.sig = h.sig ∧ l.e = e ∧ l.after = s.engAfter .acc h ∧
        (∀ k, k < 6 → k ≠ o.x.toNat - 32 → (t.core s.cur).queue k = c'.queue k) ∧ (t.core s.cur).g = s.me.g ∧ (t.core s.cur).spad = s.me.spad ∧
        (t.core s.cur).acc.elast = e ∧ (d.phased = false → t.mem = s.mem)) ∧
    (∀ code val, s.tensorRead s.cur .acc e d o.tid false bs.flatten = .stop (.fault code val) →
      exec (.gath h o) s = .next (s.raise s.cur .acc code val e true s.me.acc.ring.head)) := by
  have hi : exec (.gath h o) s = execGath h o s := rfl
  unfold execGath at hi
  dsimp only at hi
  have hrow' : s.accIndexed (s.engCrd .acc h es 0 0) (packTN h 0x34 0 o) o = .inl (d, x, dim) := hrow
  refine ⟨fun src runs u hr hu => ?_, fun code val hr => ?_⟩
  · refine load_pushes m hi (slot := s.me.acc.ring.head) ?_ hr hu fun s1 v hv => ?_
    · simp only [hrow', hbs, hroom, hr, Option.map_some] <;> rfl
    · simp only [hrow', hbs, hv, Option.map_some, Option.getD_some]
  · rw [hi]
    refine engWord_raises m _ _ ?_ _
    simp only [hrow', hbs, hroom, hr, Option.map_some] <;> rfl
theorem gath_outside (hbs : d.indexed x dim (s.idxHead o) = none) (m : EngMay s .acc h (o.q.extractLsb' 0 4) [idxQueue o] 0 0 es c') :
    exec (.gath h o) s = .next (s.raise s.cur .acc 0x08 (o.tid.setWidth 64) (s.engCrd .acc h es 0 0) true s.me.acc.ring.head) := by
  have hi : exec (.gath h o) s = execGath h o s := rfl
  unfold execGath at hi
  dsimp only at hi
  have hrow' : s.accIndexed (s.engCrd .acc h es 0 0) (packTN h 0x34 0 o) o = .inl (d, x, dim) := hrow
  rw [hi]
  refine engWord_raises m _ _ ?_ _
  simp only [hrow', hbs, hroom, Option.map_none] <;> rfl
end

/-- Settles O28: the read that a load makes before its issue it makes alike after it, and its entry waits for the bytes. -/
theorem tensorLoads : Obligations.TensorLoads := by
  unfold Obligations.TensorLoads
  intro h o s q guard loads _ _ hroom
  have hldt : exec (.ldt h o) s = accLoad h (packTN h 0x30 0 o) o false s := rfl
  have hldtr : exec (.ldtr h o) s = accLoad h (packTN h 0x30 1 o) o true s := rfl
  refine ⟨fun d x hrow es c' m => accLoad_loads hldt hroom hrow m, fun d x hrow es c' m => accLoad_loads hldtr hroom hrow m,
    fun code val hrow => accLoad_refused hldt hrow, fun es0 c0 m0 d x dim hrow => ⟨fun bs hbs es c' m => ?_, fun hbs => ?_⟩⟩
  · obtain ⟨rfl, rfl⟩ := m.same_pops m0
    exact gath_loads hroom hrow hbs m
  · exact gath_outside hroom hrow hbs m0

end Sys2Proof.Machine
end

section
/-! PROOFS of the TensorStores statement (O29): a counterexample to its clause of a phased store (R224, R369). -/

set_option Elab.async false

namespace Sys2Proof.Machine

/-- The entry at the head of sq0, and one behind it with the same number, which still has to read a byte of the store's tile. -/
def twinHead : QEnt := { id := 5 }
def twinNext : QEnt := { id := 5, landed := false, src := [some (memKey 1 0 0, 0xFF)] }
/-- A core whose tensor 0 is phased, with both entries in sq0 and the landing of number 5. -/
def twinEntries : State :=
  { wDev { wTens with sq := [(0, [twinHead, twinNext])], landQ := [{ id := 5, queue := some (4, 5) }] } with
    mem := (((({} : State).putBytes (memKey 3 0 0) (leBytes 3 8)).putBytes (memKey 1 0 0x1000) (leBytes (wDesc + 2 ^ 305) 64)).putBytes (memKey 1 0 0x2000) (leBytes 0x501 16)).mem
    nextId := 6 }
/-- STT of tensor 0 from sq0. -/
def popStore : TN := { wTn 1 with x := 36 }

theorem twinEntries_may : EngMay twinEntries .acc plainHdr 0 (accPops [36]) 0 0 [(4, twinHead)] { twinEntries.me with sq := [(0, [twinNext])] } where
  here := rfl
  on := by decide
  legal := by decide
  met := fun x hx => by cases hx
  taken := rfl
  data := by decide
  avail := by decide
  noStop := rfl
  noWatch := by decide
  ungated := rfl
  room := ⟨by decide, by decide⟩
  signal := .inl rfl

/-- Whether a store of zeros is written at once, from the state as it stands at coordinate `e`. -/
def storesNow (s : State) (e : Word) (o : TN) : Bool :=
  match s.accRow e (Instr.stt plainHdr o).word o with
  | .inl (d, x) => (match s.tensorWrite s.cur .acc e d o.tid (rowCells (d.row x) 0) with | .done u => decide (u.me.peel.length + 24 ≤ 1024) | _ => false)
  | .inr _ => false
theorem storesNow_done {s : State} {e : Word} {o : TN} (h : storesNow s e o = true) : ∃ d x u, s.accRow e (Instr.stt plainHdr o).word o = .inl (d, x) ∧
    s.tensorWrite s.cur .acc e d o.tid (rowCells (d.row x) 0) = .done u ∧ u.me.peel.length + 24 ≤ 1024 := by
  unfold storesNow at h
  split at h
  · next d x hrow =>
    split at h
    · next u hu => exact ⟨d, x, u, hrow, hu, of_decide_eq_true h⟩
    · cases h
  · cases h
/-- How many entries a queue of the moving core holds in what an instruction answers. -/
def entriesAfter (q : Nat) : Result → Nat
  | .next t => ((t.core 0).queue q).length
  | _ => 0
theorem twinEntries_writes : storesNow twinEntries (twinEntries.engCrd .acc plainHdr [(4, twinHead)] 0 0) popStore = true := by decide +kernel
theorem twinEntries_stays : entriesAfter 4 (exec (.stt plainHdr popStore) twinEntries) = 2 := by decide +kernel

/-- Refutes O29: a phased store waits for the loads of its engine that have still to read its granules, and finds a load's entry by its number in the queue. Where two
entries of sq0 bear one number, the first, which the word pops, hides the second: read before the issue, the store waits for nothing; after it, it finds the
second, and stays. -/
theorem not_tensorStores : ¬ Obligations.TensorStores := by
  unfold Obligations.TensorStores
  intro hall
  obtain ⟨hstt, -⟩ := hall plainHdr popStore twinEntries rfl
  obtain ⟨d, x, u, hrow, hu, hpeel⟩ := storesNow_done twinEntries_writes
  obtain ⟨-, hdone, -, -⟩ := hstt _ _ d x twinEntries_may hrow _ _ twinEntries_may
  obtain ⟨t, ht, -, -, -, -, hqueues, -⟩ := hdone u hu hpeel (by decide +kernel) (by decide +kernel)
  have hstays := twinEntries_stays
  rw [ht, entriesAfter] at hstays
  have hq : (t.core 0).queue 4 = [twinNext] := hqueues 4 (by decide)
  rw [hq] at hstays
  exact absurd hstays (by decide)

end Sys2Proof.Machine
end

section
/-! SUPPORT. Words of a ring engine whose effect is held (R226, R258, R319, R323). -/

set_option Elab.async false

namespace Sys2Proof.Machine

/-- What a ring word leaves once its effect is done: HEAD gone on, and by `sig` whether it has retired. -/
theorem EngLeft.ran {s s0 s1 s2 t : State} {eng : Eng} {h : Hdr} {guard : BitVec 4} {pops : List Nat} {bits : Nat} {extra : Word} {es : List (Nat × QEnt)} {c' : Core}
    {k : Nat} {base : Core} {post : EngSt → EngSt} {sig : BitVec 8} (r : EngLeft s2 t eng s.cur sig) (m : EngMay s eng h guard pops bits extra es c')
    (i : EngIssued s s1 eng (s.engCrd eng h es bits extra) (waitPresent (s.me.waitVal h)) (c'.dropBits eng bits))
    (ef : EngEff s0 s1 s2 eng s.cur k base [] post) (htask : base.task = s.me.task) :
    EngRan s t eng { h with sig := sig } (s.engCrd eng h es bits extra) base [] post s0 := by
  obtain ⟨-, -, peng, -, -⟩ := m.popped
  have hcw : (s2.core s.cur).cw = s.me.cw := Core.cw_congr (by rw [ef.core]; exact (Core.setEng_task ..).trans htask)
  have h2eng : (s2.core s.cur).eng eng = post ((s1.core s.cur).eng eng) := by
    have := congrArg (fun c => Core.eng c eng) ef.core
    refine this.trans ?_
    cases eng <;> rfl
  refine ⟨ef.only.trans r.only, ?_, ⟨(s1.core s.cur).eng eng, ?_, ?_⟩, ⟨fun j h1 hj hj2 => ?_, fun j h1 => ?_⟩⟩
  · have a := r.core
    have b := ef.core
    generalize (t.core s.cur).eng eng = X at a ⊢
    generalize post ((s1.core s.cur).eng eng) = Y at b
    rw [a, b]; cases eng <;> rfl
  · have := i.eng; rw [peng] at this; exact this
  · have := r.eng; rw [hcw, h2eng] at this; exact this
  · rw [r.tokens j hj, ef.tok j h1]
    exact i.tokens j fun x hx => hj2 x (List.mem_append_left _ hx)
  · rw [r.count j, ef.tok j h1]
    have fin : ∀ a b c d : Nat, a + c = d → a + b + c = d + b := by omega
    have := i.count j
    rw [List.append_nil]
    exact fin _ _ _ _ this

/-- What is ordered before an engine's later words (R226) is no part of what `EngRan` fixes. -/
theorem EngRan.of_before {s t s0 : State} {eng : Eng} {hr : Hdr} {e : Word} {base : Core} {tx : List Nat} {b : EngSt → List Nat}
    (r : EngRan s t eng hr e base tx (fun x => { x with before := b x }) s0) : EngRan s t eng hr e base tx (fun x => x) s0 := by
  obtain ⟨y, hy, hx⟩ := r.eng
  exact ⟨r.only, r.core, ⟨{ y with before := b y }, by rw [hy], hx⟩, r.tokens⟩

/-- HEAD goes on alike however the issued words stand. -/
theorem EngSt.goTo_iss (cw : List Nat) (pos : BitVec 16) (x : EngSt) (is : List Iss) (r : BitVec 16) (ls : List Loop) :
    EngSt.goTo cw pos { x with iss := is, ring := { x.ring with ret := r } } ls =
      { EngSt.goTo cw pos x ls with iss := is, ring := { (EngSt.goTo cw pos x ls).ring with ret := r } } := by
  induction ls generalizing x with
  | nil => rfl
  | cons l ls ih =>
    rw [EngSt.goTo, EngSt.goTo]
    split
    · dsimp only
      generalize (if l.sloop = true then x.rot else x.rot + 1) = rot
      generalize (if l.sloop = true then !l.eos else decide (l.k + 1 < l.total)) = again
      cases again with
      | true => rfl
      | false => exact ih { x with rot := rot, crd := l.crdAt cw x.crd l.total, loops := ls }
    · rfl

/-- A word that retires leaves its core alone but for its engine and the time. -/
theorem Core.setEng_retired (c : Core) (eng : Eng) (x y : EngSt) (k : Nat) (b : Bool) (t : SMap Tok) (p : List Peel) (k' : Nat) (b' : Bool) :
    ({ ({ c.setEng eng y with idle := k, hung := b } : Core).setEng eng x with tok := t, peel := p, idle := k', hung := b' } : Core) =
      { c.setEng eng x with tok := t, peel := p, idle := k', hung := b' } := by
  cases eng <;> rfl
theorem Core.retired_keeps (c : Core) (eng : Eng) (y : EngSt) (k : Nat) (b : Bool) : let d : Core := { c.setEng eng y with idle := k, hung := b }
    d.task = c.task ∧ d.eng eng = y ∧ d.tok = c.tok ∧ d.peel = c.peel ∧ d.hold = c.hold := by
  cases eng <;> exact ⟨rfl, rfl, rfl, rfl, rfl⟩
/-- A word that retires at once, without its signal (R438, R451). -/
theorem State.retireIss_left (s : State) (n : Nat) (eng : Eng) (id : Nat) :
    EngLeft s ((s.retireIss n eng id).ringNext n eng) eng n 0 ∧ ((s.core n).fits = true → ((s.retireIss n eng id).core n).fits = true) := by
  obtain ⟨bo, y, hb, hy⟩ := s.retireIss_core n eng id
  have left := (s.retireIss n eng id).ringNext_left n eng
  obtain ⟨htask, heng, htok, hpeel, hhold⟩ := (s.core n).retired_keeps eng y s.cycle false
  rw [← hb] at htask heng htok hpeel hhold
  have hnext := left.eng
  rw [Core.cw_congr htask, heng, hy, EngSt.next, EngSt.goTo_iss] at hnext
  refine ⟨⟨bo.trans left.only, ?_, hnext, fun j hj => by rw [left.tokens j hj, htok], fun j => by rw [left.count j, htok]⟩, fun hf => ?_⟩
  · have hc := left.core
    rw [hb, Core.setEng_retired] at hc
    exact hc
  · rw [Core.fits, hpeel, hhold]
    exact hf

/-- Holding the effect of a ring word, in a state `u` that has come from the state after its issue: the entry, and what it leaves. -/
theorem State.engHold_eff {s s1 u : State} {eng : Eng} {k : Nat} {base : Core} (ef : EngEff s s1 u eng s.cur k base [] fun x => x)
    {h : Hdr} (hb : ((s1.core s.cur).eng eng).before = mergeIds (s.me.eng eng).before (s.me.waitIds (s.me.waitVal h)))
    (hkeep : base.hold = s.me.hold ∧ base.bars = s.me.bars ∧ base.task = s.me.task) (e w : Word) (sig : BitVec 8) (slot : BitVec 16) {a : Act} (ha : a.isSpawn = false) :
    ∃ (y : Held) (b : EngSt → List Nat), (y.eng = eng ∧ y.act = a ∧ y.sig = sig ∧ y.e = e ∧ y.core = s.cur ∧ y.cid = s.me.cid ∧ y.inc = s.me.inc ∧ y.w = w ∧ y.after = s.engAfter eng h) ∧
      EngEff (s.withHeld y) s1 (u.engHold eng e w sig slot a) eng s.cur k { base with hold := if isSup s.cur then s.me.hold else s.me.hold ++ [y] } []
        (fun x => { x with before := b x }) := by
  have hc : u.cur = s.cur := ef.cur
  have hcore := ef.core
  obtain ⟨hhold, hbars, htask⟩ := hkeep
  have hue : (u.core s.cur).eng eng = (s1.core s.cur).eng eng := by rw [hcore]; cases eng <;> rfl
  have hut : (u.core s.cur).task = s.me.task := by rw [hcore]; cases eng <;> exact htask
  have hub : (u.core s.cur).bars = s.me.bars := by rw [hcore]; cases eng <;> exact hbars
  have huh : (u.core s.cur).hold = s.me.hold := by rw [hcore]; cases eng <;> exact hhold
  obtain ⟨x, hx⟩ : ∃ x : Held, x = { eng := eng, e := e, act := a, sig := sig, w := w, slot := slot, after := u.me.barOn eng } := ⟨_, rfl⟩
  obtain ⟨y, hy⟩ : ∃ y : Held, y = { x with id := u.nextId, core := u.cur, cid := u.me.cid, inc := u.me.inc } := ⟨_, rfl⟩
  obtain ⟨ho, hpc⟩ := u.place_held x y hy
  have hact : y.act = a := by rw [hy, hx]
  rw [hact, ha] at hpc
  simp only [Bool.and_false, Bool.false_eq_true, if_false] at hpc
  have hafter : y.after = s.engAfter eng h := by
    rw [hy, hx]
    show (u.me.eng eng |>.before |> u.me.barOf) = _
    rw [State.me, hc, hue, hb, Core.barOf, hub]
    rfl
  have hwith : CoreOnly (s.withHeld y) (u.withHeld y) s.cur := by
    have hbase := ef.only
    unfold State.withHeld
    rw [hc]
    split
    · exact ⟨by rw [hbase.1], hbase.2⟩
    · exact hbase
  rw [hc] at ho hpc
  have hform : u.engHold eng e w sig slot a = (u.place s.cur x).modCore s.cur fun c => c.modEng eng fun z => { z with before := mergeIds z.before [u.placedId] } := by
    unfold State.engHold
    rw [hc, hx]
  refine ⟨y, fun z => mergeIds z.before [u.placedId], ⟨by rw [hy, hx], hact, by rw [hy, hx], by rw [hy, hx], by rw [hy]; exact hc, ?_, ?_, by rw [hy, hx], hafter⟩, ?_⟩
  · rw [hy]
    show u.me.cid = _
    rw [State.me, hc, Core.cid, hut]
    rfl
  · rw [hy]
    show u.me.inc = _
    rw [State.me, hc, Core.inc, hut]
    rfl
  · have hfin : (u.engHold eng e w sig slot a).core s.cur = { ({ base with hold := if isSup s.cur then s.me.hold else s.me.hold ++ [y] } : Core).setEng eng
        { (s1.core s.cur).eng eng with before := mergeIds ((s1.core s.cur).eng eng).before [u.placedId] } with
          tok := (u.core s.cur).tok, peel := (u.core s.cur).peel } := by
      rw [hform, State.core_modCore_self, hpc, State.me, hc, huh, hcore]
      cases eng <;> rfl
    refine ⟨?_, by rw [hfin], fun j hj => ?_, ?_⟩
    · rw [hform]
      exact (hwith.trans ho).trans (.modCore ..)
    · rw [hfin]
      exact ef.tok j hj
    · rw [hfin]
      exact ef.log

section
variable {i : Instr} {s : State} {eng : Eng} {h : Hdr} {w : Word} {chk : Word → Option Body} {body : Word → List QEnt → List OBit → Nat → State → Body}
  {a : Act} {sig : BitVec 8} {slot : BitVec 16} {P : Core → Core → Prop}

/-- What a word that holds its effect has done before: it changed its core to `base`, beside its engine, and logged `k` entries. -/
structure HoldsFrom (s s1 u : State) (eng : Eng) (P : Core → Core → Prop) : Prop where
  eff : ∃ k base, EngEff s s1 u eng s.cur k base [] (fun x => x) ∧ k ≤ 16 ∧ base.hold = s.me.hold ∧ base.bars = s.me.bars ∧ base.task = s.me.task ∧ P s.me base

/-- A word that holds its effect, from the state that its own changes leave. -/
theorem EngHolds.of_eff {hr : Hdr} (hw : w = i.word) (ha : a.isSpawn = false)
    (hend : ∀ es c', EngMay s eng h 0 [] 0 0 es c' → ∃ s1 u, EngIssued s s1 eng (s.engCrd eng h [] 0 0) (waitPresent (s.me.waitVal h)) s.me ∧
      ((s1.core s.cur).eng eng).before = mergeIds (s.me.eng eng).before (s.me.waitIds (s.me.waitVal h)) ∧ HoldsFrom s s1 u eng P ∧
      ((u.engHold eng (s.engCrd eng h [] 0 0) w sig slot a).me.fits = true →
        (∀ j, ((u.engHold eng (s.engCrd eng h [] 0 0) w sig slot a).core s.cur).tok.get {} j = (s1.core s.cur).tok.get {} j) →
        ∃ t, exec i s = .next t ∧ EngLeft (u.engHold eng (s.engCrd eng h [] 0 0) w sig slot a) t eng s.cur hr.sig ∧ hr = { h with sig := hr.sig })) :
    EngHolds i eng h hr sig a P s := by
  intro es c' m
  obtain ⟨rfl, hc'⟩ := m.none_popped
  obtain ⟨s1, u, iss, hb, ⟨k, base, ef, hk, hhold, hbars, htask, hP⟩, hx⟩ := hend _ _ m
  obtain ⟨y, b, hy, ef2⟩ := State.engHold_eff ef hb ⟨hhold, hbars, htask⟩ (s.engCrd eng h [] 0 0) w sig slot ha
  have hcur : (u.engHold eng (s.engCrd eng h [] 0 0) w sig slot a).cur = s.cur := by
    rw [ef2.cur]; unfold State.withHeld; split <;> rfl
  have hfits : (u.engHold eng (s.engCrd eng h [] 0 0) w sig slot a).me.fits = true := by
    have h1 := ef2.log
    have h2 := iss.log
    have h3 : (waitPresent (s.me.waitVal h)).length ≤ 3 := waitPresent_length _
    obtain ⟨hpeel, hroom⟩ := m.room
    unfold Core.fits
    rw [State.me, hcur, Bool.and_eq_true, decide_eq_true_eq, decide_eq_true_eq]
    refine ⟨by omega, ?_⟩
    rw [ef2.core]
    show ((Core.setEng _ eng _).hold).length ≤ 128
    rw [Core.setEng_hold]
    show (if isSup s.cur then s.me.hold else s.me.hold ++ [y]).length ≤ 128
    split
    · omega
    · rw [List.length_append]
      exact hroom
  obtain ⟨t, ht, left, hhr⟩ := hx hfits fun j => ef2.tok j (by simp)
  refine ⟨t, y, { base with hold := if isSup s.cur then s.me.hold else s.me.hold ++ [y] }, ht, by rw [← hw]; exact hy, ?_, rfl, ?_⟩
  · rw [← hhold]
    exact hP
  · rw [hhr]
    exact (left.ran m (by rw [hc']; exact iss) ef2 htask).of_before
end

section
variable {i : Instr} {s : State} {eng : Eng} {h : Hdr} {w : Word} {chk : Word → Option Body} {body : Word → List QEnt → List OBit → Nat → State → Body}
  {a : Act} {sig : BitVec 8} {slot : BitVec 16} {P : Core → Core → Prop} {f : State → State}
  (hi : exec i s = engWord eng h w 0 chk [] 0 0 body s) (hw : w = i.word) (ha : a.isSpawn = false)
  (hchk : chk (s.engCrd eng h [] 0 0) = none)
  (hf : ∀ s1, EngIssued s s1 eng (s.engCrd eng h [] 0 0) (waitPresent (s.me.waitVal h)) s.me → HoldsFrom s s1 (f s1) eng P)
include hi hw ha hchk hf

/-- A word that holds its effect and retires by its signal. -/
theorem EngHolds.of_done
    (hbody : ∀ s1, EngIssued s s1 eng (s.engCrd eng h [] 0 0) (waitPresent (s.me.waitVal h)) s.me → body (s.engCrd eng h [] 0 0) [] [] s.nextId s1 = .done ((f s1).engHold eng (s.engCrd eng h [] 0 0) w sig slot a)) :
    EngHolds i eng h h sig a P s := by
  refine EngHolds.of_eff (w := w) (slot := slot) hw ha fun es c' m => ?_
  obtain ⟨rfl, rfl⟩ := m.none_popped
  obtain ⟨s1, iss, -, hb, -, hgo⟩ := engWord_issues m w chk hchk body
  refine ⟨s1, f s1, iss, hb, hf s1 iss, fun hfits htok => ?_⟩
  obtain ⟨t, ht, left⟩ := (hgo _ hfits).2 (hbody s1 iss) htok
  exact ⟨t, hi.trans ht, left, rfl⟩
/-- A word that holds its effect and retires without its signal, which follows at the completion (R438, R451). -/
theorem EngHolds.of_quiet (hbody : ∀ s1, EngIssued s s1 eng (s.engCrd eng h [] 0 0) (waitPresent (s.me.waitVal h)) s.me → body (s.engCrd eng h [] 0 0) [] [] s.nextId s1 =
      .quiet (((f s1).engHold eng (s.engCrd eng h [] 0 0) w sig slot a).retireIss s.cur eng s.nextId)) :
    EngHolds i eng h { h with sig := 0 } sig a P s := by
  refine EngHolds.of_eff (w := w) (slot := slot) hw ha fun es c' m => ?_
  obtain ⟨rfl, rfl⟩ := m.none_popped
  obtain ⟨s1, iss, -, hb, -, hgo⟩ := engWord_issues m w chk hchk body
  refine ⟨s1, f s1, iss, hb, hf s1 iss, fun hfits htok => ?_⟩
  have hcur : ((f s1).engHold eng (s.engCrd eng h [] 0 0) w sig slot a).cur = s.cur := by
    obtain ⟨k, base, ef, -, hhold, hbars, htask, -⟩ := (hf s1 iss).eff
    obtain ⟨y, b, -, ef2⟩ := State.engHold_eff ef hb ⟨hhold, hbars, htask⟩ (s.engCrd eng h [] 0 0) w sig slot ha
    rw [ef2.cur]; unfold State.withHeld; split <;> rfl
  have hbody1 := hbody s1 iss
  generalize (f s1).engHold eng (s.engCrd eng h [] 0 0) w sig slot a = v at *
  obtain ⟨left, hf2⟩ := v.retireIss_left s.cur eng s.nextId
  have hvfits : (v.retireIss s.cur eng s.nextId).me.fits = true := by
    have hcur2 : (v.retireIss s.cur eng s.nextId).cur = s.cur := (v.retireIss_core s.cur eng s.nextId).1.cur.trans hcur
    rw [State.me, hcur2]
    rw [State.me, hcur] at hfits
    exact hf2 hfits
  exact ⟨_, hi.trans ((hgo _ hvfits).1 hbody1), left, rfl⟩
end

end Sys2Proof.Machine
end

section
/-! PROOFS of the NetworkWords statement (O40): the words of the network engine. -/

set_option Elab.async false

namespace Sys2Proof.Machine

/-! ### Where SEL points (R450) -/

theorem netAddr_ofNat (o : SY) : (BitVec.ofNat 64 (netAddr o)).toNat = netAddr o := by
  have := o.sel.isLt
  unfold netAddr
  rw [BitVec.toNat_ofNat]
  omega
theorem netAddr_inside (o : SY) : SpadInside (BitVec.ofNat 64 (netAddr o)) 16 64 := by
  have := o.sel.isLt
  unfold SpadInside
  rw [netAddr_ofNat]
  unfold netAddr
  omega
/-- The bits above 55 of a counter's second word are reserved (Table 20.7). -/
theorem fld_high (x : Word) : fld x 56 8 = 0 ↔ x.toNat < 2 ^ 56 := by
  have := x.isLt
  rw [fld, BitVec.extractLsb'_toNat, Nat.shiftRight_eq_div_pow]
  omega

/-! ### The bytes that NCRD writes (R453) -/

/-- A counter's value, threshold and token side by side. -/
def NCtr.packed (x : NCtr) : BitVec 128 := 0#8 ++ (x.tok ++ (x.thresh ++ x.value))
theorem NCtr.packed_toNat (x : NCtr) : x.packed.toNat = x.value.toNat + 2 ^ 64 * x.thresh.toNat + 2 ^ 112 * x.tok.toNat := by
  have h1 := x.value.isLt
  have h2 := x.thresh.isLt
  have h3 := x.tok.isLt
  have app : ∀ {m n : Nat} (a : BitVec m) (b : BitVec n), (a ++ b).toNat = a.toNat * 2 ^ n + b.toNat := fun a b => by
    rw [BitVec.toNat_append, ← Nat.shiftLeft_add_eq_or_of_lt b.isLt, Nat.shiftLeft_eq]
  rw [NCtr.packed, app, app, app]
  simp only [BitVec.toNat_ofNat]
  omega
section
variable (x : NCtr) (i : Nat)
theorem NCtr.packed_getLsbD : x.packed.getLsbD i =
    if i < 112 then (if i < 64 then x.value.getLsbD i else x.thresh.getLsbD (i - 64)) else if i < 120 then x.tok.getLsbD (i - 112) else false := by
  simp only [NCtr.packed, BitVec.getLsbD_append]
  by_cases h1 : i < 112
  · rw [if_pos (by omega), if_pos h1, if_pos h1]
  · by_cases h2 : i < 120
    · rw [if_pos (by omega), if_neg h1, if_neg h1, if_pos h2]
    · rw [if_neg (by omega), if_neg h1, if_neg h2, BitVec.getLsbD_zero]
end
/-- A byte of the record, once each of its bits is known. -/
theorem NCtr.packed_byte (x : NCtr) {j : Nat} {b : Byte} (h : ∀ i, i < 8 → x.packed.getLsbD (8 * j + i) = b.getLsbD i) : x.packed.extractLsb' (8 * j) 8 = b := by
  apply BitVec.eq_of_getLsbD_eq
  intro i hi
  rw [BitVec.getLsbD_extractLsb', decide_eq_true hi, Bool.true_and]
  exact h i hi
theorem NCtr.packed_value (x : NCtr) {j : Nat} (h : j < 8) : x.packed.extractLsb' (8 * j) 8 = x.value.extractLsb' (8 * j) 8 := x.packed_byte fun i hi => by
  rw [x.packed_getLsbD, if_pos (by omega), if_pos (by omega), BitVec.getLsbD_extractLsb', decide_eq_true hi, Bool.true_and]
theorem NCtr.packed_thresh (x : NCtr) {j : Nat} (h : j < 6) : x.packed.extractLsb' (8 * (8 + j)) 8 = x.thresh.extractLsb' (8 * j) 8 := x.packed_byte fun i hi => by
  rw [x.packed_getLsbD, if_pos (by omega), if_neg (by omega), BitVec.getLsbD_extractLsb', decide_eq_true hi, Bool.true_and]
  exact congrArg _ (by omega)
theorem NCtr.packed_tok (x : NCtr) : x.packed.extractLsb' (8 * 14) 8 = x.tok := x.packed_byte fun i hi => by
  rw [x.packed_getLsbD, if_neg (by omega), if_pos (by omega), Nat.add_sub_cancel_left]
theorem NCtr.packed_top (x : NCtr) : x.packed.extractLsb' (8 * 15) 8 = 0 := x.packed_byte fun i hi => by
  rw [x.packed_getLsbD, if_neg (by omega), if_neg (by omega)]
  exact BitVec.getLsbD_zero.symm

/-! ### The words (R450 to R454) -/

section
variable {h : Hdr} {o : SY} {s : State}

/-- A word of the network engine that holds its effect, and changes nothing else at issue. -/
theorem HoldsFrom.same {s1 : State} {eng : Eng} {e : Word} {ts : List (Nat × Nat)} (i : EngIssued s s1 eng e ts s.me) :
    HoldsFrom s s1 s1 eng fun c d => d = c := ⟨0, s.me, i.eff, by omega, rfl, rfl, rfl, rfl⟩

/-- A transfer word: held where its tests pass, and else a fault (R450, R451). -/
theorem netTransfer_obeys {i : Instr} {k : Nat} (hi : exec i s = netTransfer k h i.word o s) :
    (s.netChk i.word k (netAddr o) = none →
      EngHolds i .net h { h with sig := 0 } h.sig (.net (BitVec.ofNat 3 k) (s.me.words (netAddr o) 8)) (fun c d => d = c) s) ∧
    (∀ code val, s.netChk i.word k (netAddr o) = some (.fault code val) → EngRaises i .net h 0 [] 0 0 code val s) := by
  unfold netTransfer at hi
  exact ⟨fun hn => .of_quiet (f := fun u => u) hi rfl rfl hn (fun s1 iss => .same iss) fun s1 _ => rfl, fun code val hf => .of_test hi fun _ _ _ => hf⟩

theorem ncset_obeys (hp : s.me.pendingAt s.cycle (netAddr o) 16 = none) :
    ((wd (s.me.words (netAddr o) 2) 1).toNat < 2 ^ 56 → EngHolds (.ncset h o) .net h h 0 (.net 4 (s.me.words (netAddr o) 2)) (fun c d => d = c) s) ∧
    (2 ^ 56 ≤ (wd (s.me.words (netAddr o) 2) 1).toNat → EngRaises (.ncset h o) .net h 0 [] 0 0 0x01 (Instr.ncset h o).word s) := by
  have hi : exec (.ncset h o) s = execNcset h o s := rfl
  unfold execNcset at hi
  dsimp only at hi
  have hspad : s.spadChk (BitVec.ofNat 64 (netAddr o)) 16 64 true = none := State.spadChk_inside (netAddr_inside o) _ fun _ => by rw [netAddr_ofNat]; exact hp
  refine ⟨fun hlow => .of_done (f := fun u => u) hi rfl rfl ?_ (fun s1 iss => .same iss) fun s1 _ => rfl, fun hhigh => .of_test hi fun _ _ _ => ?_⟩
  · rw [hspad, (fld_high _).2 hlow]
    rfl
  · have hne : fld (wd (s.me.words (netAddr o) 2) 1) 56 8 ≠ 0 := fun h0 => absurd ((fld_high _).1 h0) (Nat.not_lt.2 hhigh)
    rw [hspad, if_pos (by simpa using hne)]
    rfl

theorem ncrd_does : EngDoes (.ncrd h o) .net h h 0 [] 0 (s.me.nctr.get {} o.d.toNat).tag [] (fun _ _ c d => ∃ m, d = { c with spad := m } ∧
      m = putSpad c.spad (netAddr o) (leBytes (s.me.nctr.get {} o.d.toNat).packed.toNat 16)) (fun _ x => x) s := by
  have hi : exec (.ncrd h o) s = execNcrd h o s := rfl
  unfold execNcrd at hi
  dsimp only at hi
  rw [← NCtr.packed_toNat] at hi
  refine .of_done hi (fun _ _ _ => rfl) fun es c' s1 m iss => ?_
  obtain ⟨-, hc'⟩ := m.none_popped
  obtain ⟨ho, hw, hl⟩ := s1.spadWrite_core s.cur .net (s.engCrd .net h es 0 (s.me.nctr.get {} o.d.toNat).tag) (netAddr o)
    (leBytes (s.me.nctr.get {} o.d.toNat).packed.toNat 16)
  have ef := iss.eff.more ho (fun c => { c with spad := putSpad c.spad (netAddr o) (leBytes (s.me.nctr.get {} o.d.toNat).packed.toNat 16) }) hw (fun _ _ _ _ => rfl) hl
  rw [leBytes_length] at ef
  exact ⟨_, _, _, rfl, ef, by omega, by rw [hc']; rfl, by rw [hc']; rfl, _, rfl, rfl⟩

theorem nctlFlush_waits : EngDoes (.nctlFlush h o) .net h { h with sig := 0 } 0 [] 0 0 [] (fun e _ c d => ∃ x : WaitOp, x.eng = .net ∧ x.flush = true ∧ x.e = e ∧
      x.sig = h.sig ∧ x.slot = s.me.net.ring.head ∧ d = { c with waitQ := c.waitQ ++ [x] }) (fun _ x => x) s := by
  have hi : exec (.nctlFlush h o) s = execNctlFlush h o s := rfl
  unfold execNctlFlush at hi
  refine .of_quiet hi (fun _ _ _ => rfl) fun es c' s1 m iss => ?_
  obtain ⟨-, hc'⟩ := m.none_popped
  have hcur : s1.cur = s.cur := iss.only.cur
  obtain ⟨x, hx⟩ : ∃ x : WaitOp, x = { eng := .net, flush := true, slot := s.me.net.ring.head, id := s.nextId, e := s.engCrd .net h es 0 0, sig := h.sig } := ⟨_, rfl⟩
  have ef := iss.eff.mod (fun c => { c with waitQ := c.waitQ ++ [x] }) fun _ _ _ _ => rfl
  refine ⟨_, 0, _, ?_, ef, by omega, by rw [hc']; rfl, by rw [hc']; rfl, x, by rw [hx], by rw [hx], by rw [hx], by rw [hx], by rw [hx], rfl⟩
  rw [State.waitOp, hcur, hx]

theorem nctlCancel_holds : EngHolds (.nctlCancel h o) .net h h 0 (.net 5 []) (fun c d => d = c) s := by
  have hi : exec (.nctlCancel h o) s = execNctlCancel h o s := rfl
  unfold execNctlCancel at hi
  exact .of_done (f := fun u => u) hi rfl rfl rfl (fun _ iss => .same iss) fun _ _ => rfl
end

/-- Settles O40: a word of the network engine that passes its tests holds its transfer, its counter's record or its cancel, waits, or writes the counter's
record to scratchpad. -/
theorem networkWords : Obligations.NetworkWords := by
  unfold Obligations.NetworkWords
  intro h o s
  refine ⟨netTransfer_obeys rfl, netTransfer_obeys rfl, netTransfer_obeys rfl, netTransfer_obeys rfl, fun _ hp => ncset_obeys hp, fun es c' m => ?_, nctlFlush_waits,
    nctlCancel_holds⟩
  obtain ⟨t, base, ht, ⟨m', hbase, hm'⟩, ran⟩ := ncrd_does es c' m
  have hin {j : Nat} (hj : j < 16) : m'.get 0 (64 * o.sel.toNat + j) = (s.me.nctr.get {} o.d.toNat).packed.extractLsb' (8 * j) 8 := by
    rw [hm', get_putSpad, leBytes_length, netAddr, if_pos (by omega), Nat.add_sub_cancel_left, getD_leBytes_vec _ hj]
  refine ⟨t, base, ht, ⟨m', hbase, fun j hj => ?_, fun j hj => ?_, ?_, ?_, fun x hx => ?_⟩, ran⟩
  · rw [hin (by omega), NCtr.packed_value _ hj]
  · rw [Nat.add_assoc, hin (by omega), NCtr.packed_thresh _ hj]
  · rw [hin (by omega), NCtr.packed_tok]
  · rw [hin (by omega), NCtr.packed_top]
  · rw [hm', get_putSpad, leBytes_length, netAddr, if_neg (by omega)]

end Sys2Proof.Machine
end

section
/-! SUPPORT. Copy words at issue (R399, R435 to R449): tests in order, slots that advance, what is held and what is started, and prefetches. -/

set_option Elab.async false

namespace Sys2Proof.Machine

/-! ### Tests in order -/

theorem orTest_some {a : Option Body} {x : Body} (h : a = some x) (b : Option Body) : orTest a b = some x := by rw [h]; rfl
theorem orTest_first {a : Option Body} (h : a = none) (b : Option Body) : orTest a b = b := by rw [h]; rfl
theorem orTest_none_iff {a b : Option Body} : orTest a b = none ↔ a = none ∧ b = none := by cases a <;> simp [orTest]

/-! ### What ring words do, with what is ordered before them -/

section
variable {s s0 s1 s2 : State} {eng : Eng} {h : Hdr} {guard : BitVec 4} {pops : List Nat} {bits : Nat} {extra : Word} {es : List (Nat × QEnt)} {c' : Core}
  {k n : Nat} {base : Core} {post : EngSt → EngSt} {tx : List Nat}

/-- What has issued and logged little more fits (R255, R258). -/
theorem EngEff.fits (ef : EngEff s0 s1 s2 eng s.cur k base [] post) (hcur : s2.cur = s.cur) (m : EngMay s eng h guard pops bits extra es c') {e : Word}
    (i : EngIssued s s1 eng e (waitPresent (s.me.waitVal h)) (c'.dropBits eng bits)) (hk : k ≤ 16) (hhold : base.hold = s.me.hold) : s2.me.fits = true := by
  have h1 := ef.log
  have h2 := i.log
  have h3 : (waitPresent (s.me.waitVal h)).length ≤ 3 := waitPresent_length _
  obtain ⟨hpeel, hroom⟩ := m.room
  unfold Core.fits
  rw [State.me, hcur, Bool.and_eq_true, decide_eq_true_eq, decide_eq_true_eq]
  refine ⟨by omega, ?_⟩
  rw [ef.core]
  show ((Core.setEng _ eng _).hold).length ≤ 128
  rw [Core.setEng_hold, hhold]
  omega

/-- Pending bits set range after range (R187). -/
theorem EngEff.setPends (ef : EngEff s0 s1 s2 .cpy n k base tx post) (l : List (Nat × Nat)) (v : Nat) :
    ∃ m, EngEff s0 s1 (l.foldl (fun u x => u.setPend n x.1 x.2 v) s2) .cpy n k { base with pendBits := m } tx post ∧ (base.dbgReg.getLsbD 0 = false → m = base.pendBits) := by
  induction l generalizing s2 base with
  | nil => exact ⟨_, ef, fun _ => rfl⟩
  | cons x l ih =>
    obtain ⟨ho, m, hm, hz⟩ := s2.setPend_core n x.1 x.2 v
    have ef2 := ef.more ho (j := 0) (fun c => { c with pendBits := m }) (by rw [hm]) (fun _ _ _ _ => rfl) (by rw [hm]; exact Nat.le_refl _)
    obtain ⟨m2, ef3, hm2⟩ := ih ef2
    refine ⟨m2, ef3, fun hd => (hm2 hd).trans ?_⟩
    rw [hz (by rw [ef.core]; exact hd), ef.core]
    rfl
end

/-! ### Slots (R399, R437) -/

/-- Replacing the low field of a word leaves the high one alone. -/
theorem fld_setFld_low (w : Word) (v : Nat) : fld (setFld w 0 19 v) 32 19 = fld w 32 19 := by
  have hlt := w.isLt
  simp only [fld, setFld, BitVec.extractLsb'_toNat, BitVec.toNat_ofNat, Nat.shiftRight_eq_div_pow, Nat.pow_zero, Nat.mul_one, Nat.div_one]
  omega

/-- The slots after the advance of a word whose tiles have `g` granules (R437). -/
def CpyJob.slotsAfter (j : CpyJob) (g : Nat) (old : SMap Word) : SMap Word :=
  let k := 2 * j.o.dslot.toNat
  let i := 2 * (j.o.g.toNat + j.rdim / 4) + j.rdim % 4 / 2
  let lo := 32 * (j.rdim % 2)
  let rows := old.set 0 i (setFld (old.get 0 i) lo 32 (fld (old.get 0 i) lo 32 + j.rows))
  let w0 := old.get 0 k
  if j.mode = 0 then old.set 0 k (setFld (setFld w0 0 19 (fld w0 0 19 + j.step)) 32 19 (fld w0 32 19 + j.step))
  else if j.auto = false then old
  else if j.mode = 1 then rows.set 0 k (setFld (rows.get 0 k) 0 19 (fld (rows.get 0 k) 0 19 + j.rows * j.pitch))
  else if j.mode = 2 then (old.set 0 k (setFld (setFld w0 0 24 (fld w0 0 24 + j.nt)) 24 24 (fld w0 24 24 + j.nt))).set 0 (k + 1)
    (setFld (old.get 0 (k + 1)) 16 19 (fld (old.get 0 (k + 1)) 16 19 + 32 * j.nt * g))
  else (old.set 0 k (setFld w0 0 48 (fld w0 0 48 + j.len3))).set 0 (k + 1) (setFld (old.get 0 (k + 1)) 0 19 (fld (old.get 0 (k + 1)) 0 19 + j.len3))

section
variable {s0 s1 s2 : State} {n k0 : Nat} {base : Core} {tx : List Nat} {post : EngSt → EngSt} (ef : EngEff s0 s1 s2 .cpy n k0 base tx post)
include ef
theorem EngEff.setSlot (e : Word) (k i : Nat) (v : Word) :
    EngEff s0 s1 (s2.setSlot n e k i v) .cpy n (k0 + 1) { base with cslot := base.cslot.set 0 (2 * k + i) v } tx post :=
  (ef.logged _).mod (fun c => { c with cslot := c.cslot.set 0 (2 * k + i) v }) fun _ _ _ _ => rfl
theorem EngEff.slot (k i : Nat) : (s2.core n).slot k i = base.cslot.get 0 (2 * k + i) := by
  rw [ef.core]
  rfl
/-- The slots of a word that is no CCB advance. -/
theorem EngEff.autoAdvance (e : Word) {j : CpyJob} (hccb : j.opc ≠ 0x71) :
    EngEff s0 s1 (s2.autoAdvance n e j) .cpy n (k0 + 2) { base with cslot := j.slotsAfter (s2.lenDesc n e j).granules base.cslot } tx post := by
  have hno : (j.opc == 0x71) = false := by simpa using hccb
  have hne (m : SMap Word) (k : Nat) (v : Word) : (m.set 0 (2 * k + 0) v).get 0 (2 * k + 1) = m.get 0 (2 * k + 1) := SMap.get_set_ne _ _ _ (by omega)
  unfold State.autoAdvance CpyJob.slotsAfter
  simp only [hno, Bool.false_eq_true, if_false]
  split
  next h0 =>
    rw [if_pos h0, fld_setFld_low]
    have ef2 := ef.setSlot e j.o.dslot.toNat 0 (setFld (setFld (base.cslot.get 0 (2 * j.o.dslot.toNat)) 0 19 (fld (base.cslot.get 0 (2 * j.o.dslot.toNat)) 0 19 + j.step))
      32 19 (fld (base.cslot.get 0 (2 * j.o.dslot.toNat)) 32 19 + j.step))
    rw [ef.slot]
    exact ef2.mono (by omega)
  next h1 =>
    rw [if_neg (by omega : ¬j.mode = 0), if_pos h1]
    cases j.auto with
    | false => exact ef.mono (by omega)
    | true =>
      rw [if_neg (by simp), if_neg (by simp), ef.slot]
      have ef2 := ef.setSlot e (j.o.g.toNat + j.rdim / 4) (j.rdim % 4 / 2) (setFld (base.cslot.get 0 (2 * (j.o.g.toNat + j.rdim / 4) + j.rdim % 4 / 2)) (32 * (j.rdim % 2)) 32
        (fld (base.cslot.get 0 (2 * (j.o.g.toNat + j.rdim / 4) + j.rdim % 4 / 2)) (32 * (j.rdim % 2)) 32 + j.rows))
      rw [ef2.slot]
      exact ef2.setSlot e j.o.dslot.toNat 0 _
  next h2 =>
    rw [if_neg (by omega : ¬j.mode = 0), if_neg (by omega : ¬j.mode = 1), if_pos h2]
    cases j.auto with
    | false => exact ef.mono (by omega)
    | true =>
      rw [if_neg (by simp), if_neg (by simp), ef.slot]
      have ef2 := ef.setSlot e j.o.dslot.toNat 0 (setFld (setFld (base.cslot.get 0 (2 * j.o.dslot.toNat + 0)) 0 24 (fld (base.cslot.get 0 (2 * j.o.dslot.toNat + 0)) 0 24 + j.nt)) 24 24
        (fld (base.cslot.get 0 (2 * j.o.dslot.toNat + 0)) 24 24 + j.nt))
      rw [ef2.slot]
      dsimp only
      rw [hne]
      exact ef2.setSlot e j.o.dslot.toNat 1 _
  next h0 h1 h2 =>
    rw [if_neg h0, if_neg h1, if_neg h2]
    cases j.auto with
    | false => exact ef.mono (by omega)
    | true =>
      rw [if_neg (by simp), if_neg (by simp), ef.slot]
      have ef2 := ef.setSlot e j.o.dslot.toNat 0 (setFld (base.cslot.get 0 (2 * j.o.dslot.toNat + 0)) 0 48 (fld (base.cslot.get 0 (2 * j.o.dslot.toNat + 0)) 0 48 + j.len3))
      rw [ef2.slot]
      dsimp only
      rw [hne]
      exact ef2.setSlot e j.o.dslot.toNat 1 _
theorem EngEff.slotAdvance (e : Word) {j : CpyJob} (hccb : j.opc ≠ 0x71) (hfill : ¬(j.opc = 0x6D ∧ j.mode = 0)) :
    EngEff s0 s1 (s2.slotAdvance n e j) .cpy n (k0 + 2) { base with cslot := j.slotsAfter (s2.lenDesc n e j).granules base.cslot } tx post := by
  unfold State.slotAdvance
  rw [if_neg (by simpa using hfill)]
  exact ef.autoAdvance e hccb
end

/-! ### Descriptors before and after the issue -/

theorem CoreOnly.gpaNum {s t : State} {n : Nat} (a : CoreOnly s t n) (cid : BitVec 12) (x k : Nat) : t.gpaNum cid x k = s.gpaNum cid x k := by
  have hkeys : t.stage2s (s.ctx cid).pid x k = s.stage2s (s.ctx cid).pid x k := by
    rw [a.1]
    exact s.stage2s_cores ..
  have hbyte : t.byte = s.byte := funext a.byte
  rw [State.gpaNum, State.gpaNum, a.ctx, hkeys, hbyte]
theorem CoreOnly.tdesc {s t : State} {n : Nat} (a : CoreOnly s t n) (htask : (t.core n).task = (s.core n).task) (hhold : (t.core n).hold = (s.core n).hold) (e : Word)
    (tid : BitVec 10) : t.tdesc n e tid = s.tdesc n e tid := by
  have hcid : (t.core n).cid = (s.core n).cid := by rw [Core.cid, Core.cid, htask]
  have hgpa (c : BitVec 12) (x y : Nat) : t.gpaNum c x y = s.gpaNum c x y := a.gpaNum c x y
  rw [State.tdesc, State.tdesc, State.tdBits, State.tdBits]
  rw [hcid, hhold, a.flying_eq, a.ctx, hgpa]
theorem CoreOnly.lenDesc {s t : State} {n : Nat} (a : CoreOnly s t n) (htask : (t.core n).task = (s.core n).task) (hhold : (t.core n).hold = (s.core n).hold) (e : Word)
    (j : CpyJob) : t.lenDesc n e j = s.lenDesc n e j := by
  rw [State.lenDesc, State.lenDesc, a.tdesc htask hhold, a.tdesc htask hhold]
theorem EngIssued.lenDesc {s s1 : State} {eng : Eng} {e0 : Word} {ts : List (Nat × Nat)} (i : EngIssued s s1 eng e0 ts s.me) (e : Word) (j : CpyJob) :
    s1.lenDesc s.cur e j = s.lenDesc s.cur e j :=
  i.only.lenDesc (by rw [i.core]; cases eng <;> rfl) (by rw [i.core]; cases eng <;> rfl) e j

/-! ### Copy words -/

section
variable {i : Instr} {h : Hdr} {s : State} {test : Word → CpyJob → Option Body} {body : Word → CpyJob → Nat → State → Body}
  (hi : exec i s = cpyWord h i.word test body s) (hb : s.me.cpyBusy = false)
include hi hb

theorem cpyWord_raises {code : BitVec 8} {val : Word}
    (ht : orTest (test (s.engCrd .cpy h [] 0 0) (s.jobOf i.word)) (s.jobPend (s.engCrd .cpy h [] 0 0) (s.jobOf i.word)) = some (.fault code val)) :
    EngRaises i .cpy h 0 [] 0 0 code val s := by
  unfold cpyWord at hi
  refine .of_test hi fun es c' m => ?_
  obtain ⟨rfl, -⟩ := m.none_popped
  rw [if_neg (by rw [hb]; simp)]
  exact ht

variable (ht : orTest (test (s.engCrd .cpy h [] 0 0) (s.jobOf i.word)) (s.jobPend (s.engCrd .cpy h [] 0 0) (s.jobOf i.word)) = none)
  {j : CpyJob}
include ht

/-- A copy word that holds its effect: its slots advance, and its signal follows its completion (R437, R438). -/
theorem cpyWord_holds (hw : j.w = i.word) (hccb : j.opc ≠ 0x71) (hfill : ¬(j.opc = 0x6D ∧ j.mode = 0))
    (hbody : ∀ s1, body (s.engCrd .cpy h [] 0 0) (s.jobOf i.word) s.nextId s1 = s1.cpyHold h (s.engCrd .cpy h [] 0 0) s.me.cpy.ring.head j s.nextId) :
    EngHolds i .cpy h { h with sig := 0 } h.sig (.cpy j)
      (fun c d => ∃ m, m = j.slotsAfter (s.lenDesc s.cur (s.engCrd .cpy h [] 0 0) j).granules s.me.cslot ∧ d = { c with cslot := m }) s := by
  unfold cpyWord at hi
  have hfrom (s1 : State) (iss : EngIssued s s1 .cpy (s.engCrd .cpy h [] 0 0) (waitPresent (s.me.waitVal h)) s.me) :
      EngEff s s1 (s1.slotAdvance s1.cur (s.engCrd .cpy h [] 0 0) j) .cpy s.cur 2
        { s.me with cslot := j.slotsAfter (s.lenDesc s.cur (s.engCrd .cpy h [] 0 0) j).granules s.me.cslot } [] (fun x => x) := by
    have ef := iss.eff.slotAdvance (s.engCrd .cpy h [] 0 0) hccb hfill
    rw [iss.lenDesc] at ef
    rw [iss.only.cur]
    exact ef
  refine .of_quiet (f := fun u => u.slotAdvance u.cur (s.engCrd .cpy h [] 0 0) j) (slot := s.me.cpy.ring.head) hi rfl rfl ?_
    (fun s1 iss => ⟨2, _, hfrom s1 iss, by omega, rfl, rfl, rfl, _, rfl, rfl⟩) fun s1 iss => ?_
  · rw [if_neg (by rw [hb]; simp)]
    exact ht
  · rw [hbody, State.cpyHold, (hfrom s1 iss).cur, hw]

/-- A copy word that starts its issue-time part: it stands among the issued words, and what it writes of its scratchpad is pending (R187, R439). -/
theorem cpyWord_starts {g : State → State} {F : Core → Core} {k : Nat} {buf : List Byte} (hk : k ≤ 16) (hF : ∀ c, F c = { c with cbs := (F c).cbs })
    (hg : ∀ s1, EngIssued s s1 .cpy (s.engCrd .cpy h [] 0 0) (waitPresent (s.me.waitVal h)) s.me → EngEff s s1 (g s1) .cpy s.cur k (F s.me) [] fun x => x)
    (hbody : ∀ s1, body (s.engCrd .cpy h [] 0 0) (s.jobOf i.word) s.nextId s1 =
      .quiet ((g s1).cpyStart h (s.engCrd .cpy h [] 0 0) s.me.cpy.ring.head s.nextId j buf)) :
    EngDoes i .cpy h { h with sig := 0 } 0 [] 0 0 [] (fun e _ c d => ∃ x : CpyOp, x.slot = s.me.cpy.ring.head ∧ x.id = s.nextId ∧ x.e = e ∧ x.sig = h.sig ∧ x.job = j ∧
      x.buf = buf ∧ x.k = 0 ∧ x.done = false ∧ x.after = s.engAfter .cpy h ∧ (s.me.dbgReg.getLsbD 0 = false → d.pendBits = c.pendBits) ∧
      d = { F c with cpyQ := c.cpyQ ++ [x], pendBits := d.pendBits }) (fun _ x => x) s := by
  intro es c' m
  obtain ⟨rfl, rfl⟩ := m.none_popped
  unfold cpyWord at hi
  have hchk : (if s.me.cpyBusy then some Body.stall else
      orTest (test (s.engCrd .cpy h [] 0 0) (s.jobOf i.word)) (s.jobPend (s.engCrd .cpy h [] 0 0) (s.jobOf i.word))) = none := by
    rw [if_neg (by rw [hb]; simp)]
    exact ht
  obtain ⟨s1, iss, -, hbefore, -, hgo⟩ := engWord_issues m i.word (fun e => if s.me.cpyBusy then some Body.stall else orTest (test e (s.jobOf i.word)) (s.jobPend e (s.jobOf i.word))) hchk fun e _ _ id s' => body e (s.jobOf i.word) id s'
  have ef := hg s1 iss
  have hcur : (g s1).cur = s.cur := ef.cur
  obtain ⟨p, ef2, hp⟩ := ef.setPends (j.spadParts ((g s1).lenDesc s.cur (s.engCrd .cpy h [] 0 0) j)).2 (pendMark s.nextId)
  obtain ⟨u, hu⟩ : ∃ u, u = (j.spadParts ((g s1).lenDesc s.cur (s.engCrd .cpy h [] 0 0) j)).2.foldl (fun u x => u.setPend s.cur x.1 x.2 (pendMark s.nextId)) (g s1) := ⟨_, rfl⟩
  rw [← hu] at ef2
  obtain ⟨x, hx⟩ : ∃ x : CpyOp, x = { slot := s.me.cpy.ring.head, id := s.nextId, e := s.engCrd .cpy h [] 0 0, sig := h.sig, job := j, buf := buf,
                                      after := (u.core s.cur).barOn .cpy } := ⟨_, rfl⟩
  have hstart : (g s1).cpyStart h (s.engCrd .cpy h [] 0 0) s.me.cpy.ring.head s.nextId j buf = u.modCore s.cur fun c => { c with cpyQ := c.cpyQ ++ [x] } := by
    unfold State.cpyStart
    dsimp only
    rw [hcur, ← hu, hx]
    rfl
  have hafter : (u.core s.cur).barOn .cpy = s.engAfter .cpy h := by
    have hub : (u.core s.cur).bars = s.me.bars := by rw [ef2.core, hF]; rfl
    have hue : ((u.core s.cur).eng .cpy).before = ((s1.core s.cur).eng .cpy).before := by rw [ef2.core]; rfl
    rw [Core.barOn, hue, hbefore, Core.barOf, hub]
    rfl
  have ef3 := ef2.mod (fun c => { c with cpyQ := c.cpyQ ++ [x] }) fun _ _ _ _ => rfl
  rw [← hstart] at ef3
  have hfits := ef3.fits ef3.cur m iss hk (by rw [hF])
  have left := ((g s1).cpyStart h (s.engCrd .cpy h [] 0 0) s.me.cpy.ring.head s.nextId j buf).ringNext_left s.cur .cpy
  refine ⟨_, _, hi.trans ((hgo _ hfits).1 (hbody s1)), ⟨x, by rw [hx], by rw [hx], by rw [hx], by rw [hx], by rw [hx], by rw [hx], by rw [hx], by rw [hx],
    by rw [hx]; exact hafter, fun hd => ?_, ?_⟩, left.ran m iss ef3 (by rw [hF])⟩
  · exact (hp (by rw [hF]; exact hd)).trans (by rw [hF]; rfl)
  · have hcpy : (F s.me).cpyQ = s.me.cpyQ := by rw [hF]
    show ({ F s.me with pendBits := p, cpyQ := (F s.me).cpyQ ++ [x] } : Core) = _
    rw [hcpy]
    rfl
end

/-! ### Prefetches (R201, R449) -/

theorem State.l2See_only (s : State) (pid : BitVec 7) (alloc : Bool) (l : List (Nat × Nat)) : s.l2See pid alloc l = { s with l2 := (s.l2See pid alloc l).l2 } := by
  induction l generalizing s with
  | nil => rfl
  | cons x l ih =>
    rw [State.l2See]
    have step (t : State) (ht : t = { s with l2 := t.l2 }) : t.l2See pid alloc l = { s with l2 := (t.l2See pid alloc l).l2 } := by
      refine (ih t).trans ?_
      generalize (t.l2See pid alloc l).l2 = y
      rw [ht]
    refine step _ ?_
    split
    · rfl
    split
    · rfl
    split
    · unfold State.l2Put
      dsimp only
      repeat' split
      all_goals rfl
    · rfl

/-- What a prefetch of core `n` leaves: lines of the L2 and translations of the core alone have changed. -/
structure Prefetched (s u : State) (n : Nat) : Prop where
  only : u = { s with l2 := u.l2, oreqs := u.oreqs, cores := u.cores }
  core : u.core n = { s.core n with ttc := (u.core n).ttc }
  others : ∀ m, m ≠ n → u.core m = s.core m

section
variable {s u : State} {n : Nat} (p : Prefetched s u n)
include p
theorem Prefetched.l2See (pid : BitVec 7) (alloc : Bool) (l : List (Nat × Nat)) : Prefetched s (u.l2See pid alloc l) n := by
  have hc (m : Nat) : (u.l2See pid alloc l).core m = u.core m := by rw [State.l2See_only]; rfl
  refine ⟨?_, by rw [hc]; exact p.core, fun m hm => by rw [hc]; exact p.others m hm⟩
  have h1 := p.only
  have h2 := u.l2See_only pid alloc l
  generalize (u.l2See pid alloc l) = v at h2 ⊢
  rw [h2]
  generalize v.l2 = y
  rw [h1]
theorem Prefetched.modCore {f : Core → Core} (hf : ∀ c, f c = { c with ttc := (f c).ttc }) : Prefetched s (u.modCore n f) n := by
  refine ⟨?_, ?_, fun m hm => by rw [State.core_modCore_ne _ _ hm, p.others m hm]⟩
  · show ({ u with cores := _ } : State) = _
    conv_lhs => rw [p.only]
    rfl
  · rw [State.core_modCore_self]
    refine (hf _).trans ?_
    have h := p.core
    generalize u.core n = c at h ⊢
    rw [h]
theorem Prefetched.entry {e : Word} {d : TDesc} {tid : BitVec 10} {tile : Nat} {x : BitVec 128} {v : State} (h : u.entry n e d tid tile = some (x, v)) :
    Prefetched s v n := by
  unfold State.entry at h
  dsimp only at h
  split at h
  · cases h
  split at h
  · cases h
    exact p
  · have hv : (u.ttcRead n tid tile (d.entAddr tile)).2 = v := congrArg Prod.snd (Option.some.inj h)
    rw [← hv]
    unfold State.ttcRead
    dsimp only
    split
    next t _ => exact p.modCore (f := fun c => { c with ttc := t :: c.ttc.erase t }) fun _ => rfl
    · exact p.modCore (f := fun c => c.ttcPut { cid := c.cid, inc := c.inc, tid := tid, tile := tile, ent := u.entAt (u.core n).cid (d.entAddr tile) }) fun _ => rfl
theorem Prefetched.prefTile (e : Word) (d : TDesc) (tid : BitVec 10) (t : Nat) : Prefetched s (u.prefTile n e d tid t) n := by
  unfold State.prefTile
  split
  · exact p
  split
  · exact p
  next x v hv =>
    split
    · exact p.entry hv
    · exact (p.entry hv).l2See ..
theorem Prefetched.prefLine (i : Nat) : Prefetched s (u.prefLine n i) n := by
  unfold State.prefLine
  split
  · exact p
  · exact p.l2See ..
theorem Prefetched.foldl {f : State → Nat → State} (hf : ∀ v i, Prefetched s v n → Prefetched s (f v i) n) (l : List Nat) : Prefetched s (l.foldl f u) n := by
  induction l generalizing u with
  | nil => exact p
  | cons i l ih => exact ih (hf u i p)
end
theorem State.cpyPrefetch_prefetched (s : State) (n : Nat) (e : Word) (j : CpyJob) : Prefetched s (s.cpyPrefetch n e j) n := by
  have start : Prefetched s s n := ⟨rfl, rfl, fun _ _ => rfl⟩
  unfold State.cpyPrefetch
  split
  · split
    · exact start
    next d _ => exact start.foldl (fun u i hu => hu.prefTile e d j.tida (j.ta + i)) _
  · exact start.foldl (fun u i hu => hu.prefLine (j.raw / 64 + i)) _

section
variable {s1 u v : State} {n k : Nat} (a : TAlike s1 false n k u v)
include a
theorem TAlike.tdesc (e : Word) (tid : BitVec 10) : v.tdesc n e tid = u.tdesc n e tid := a.only.tdesc a.task a.hold e tid
theorem TAlike.l2See (pid : BitVec 7) (alloc : Bool) (l : List (Nat × Nat)) : TAlike s1 false n k (u.l2See pid alloc l) (v.l2See pid alloc l) :=
  a.beside (Beside.l2See pid alloc l) (State.l2See_keeps ..).2 fun _ => (State.l2See_keeps ..).1
theorem TAlike.prefTile (e : Word) (d : TDesc) (tid : BitVec 10) (t : Nat) : TAlike s1 false n k (u.prefTile n e d tid t) (v.prefTile n e d tid t) := by
  obtain ⟨hnone, hsome⟩ := a.entry e d tid t
  unfold State.prefTile
  split
  · exact a
  cases hu : u.entry n e d tid t with
  | none =>
    rw [hnone hu]
    exact a
  | some x =>
    obtain ⟨x, u'⟩ := x
    obtain ⟨v', hv, b⟩ := hsome x u' hu
    rw [hv]
    dsimp only
    split
    · exact b
    · have hstage (pid : BitVec 7) (i : Nat) : v'.stage2 pid i = u'.stage2 pid i := by rw [b.only.1]; rfl
      rw [b.cid, b.ctx]
      simp only [hstage]
      exact b.l2See ..
theorem TAlike.prefLine (i : Nat) : TAlike s1 false n k (u.prefLine n i) (v.prefLine n i) := by
  have hkeys (cid : BitVec 12) : v.rawKeys cid (BitVec.ofNat 64 (64 * i)) 64 .r = u.rawKeys cid (BitVec.ofNat 64 (64 * i)) 64 .r := by
    have hstage (pid : BitVec 7) : v.stage2s pid (BitVec.ofNat 64 (64 * i)).toNat 64 = u.stage2s pid (BitVec.ofNat 64 (64 * i)).toNat 64 := by
      rw [a.only.1]
      exact u.stage2s_cores ..
    rw [State.rawKeys, State.rawKeys, a.ctx, hstage]
  have hgpa : v.rawGpa n (BitVec.ofNat 64 (64 * i)) = u.rawGpa n (BitVec.ofNat 64 (64 * i)) := by
    rw [State.rawGpa, State.rawGpa, a.cid, a.ctx]
  unfold State.prefLine
  rw [a.cid, hkeys]
  split
  · exact a
  · rw [State.l2Raw, State.l2Raw, hgpa]
    exact a.l2See ..
theorem TAlike.cpyPrefetch (e : Word) (j : CpyJob) : TAlike s1 false n k (u.cpyPrefetch n e j) (v.cpyPrefetch n e j) := by
  have fold {f g : State → Nat → State} (l : List Nat) (h : ∀ x y i, TAlike s1 false n k x y → TAlike s1 false n k (f x i) (g y i)) :
      TAlike s1 false n k (l.foldl f u) (l.foldl g v) := by
    induction l generalizing u v with
    | nil => exact a
    | cons i l ih => exact ih (h u v i a)
  unfold State.cpyPrefetch
  rw [a.tdesc]
  split
  · split
    · exact a
    next d _ => exact fold _ fun x y i b => b.prefTile e d j.tida (j.ta + i)
  · exact fold _ fun x y i b => b.prefLine (j.raw / 64 + i)
end

end Sys2Proof.Machine
end

section
/-! PROOFS of the CopyWords statement (O39): the copy words, form by form. -/

set_option Elab.async false

namespace Sys2Proof.Machine

/-! ### Descriptors after a prefetch -/

theorem State.stage2s_lines (s : State) (l : List L2Line) (os : List OReq) (pid : BitVec 7) (gpa k : Nat) :
    ({ s with l2 := l, oreqs := os } : State).stage2s pid gpa k = s.stage2s pid gpa k := by
  induction k generalizing gpa with
  | zero => rfl
  | succ k ih =>
    rw [State.stage2s, State.stage2s, ih]
    rfl
theorem Prefetched.tdesc {s u : State} {n : Nat} (p : Prefetched s u n) (e : Word) (t : BitVec 10) : u.tdesc n e t = s.tdesc n e t := by
  obtain ⟨hcore, hflying⟩ : (u.core n).hold = (s.core n).hold ∧ u.flying = s.flying := ⟨by rw [p.core], by rw [p.only]⟩
  have hcid : (u.core n).cid = (s.core n).cid := by rw [p.core]; rfl
  have hgpa (c : BitVec 12) (x k : Nat) : u.gpaNum c x k = s.gpaNum c x k := by
    have h1 : CoreOnly s { s with cores := u.cores } n := ⟨rfl, p.others⟩
    rw [← h1.gpaNum]
    have h2 (pid : BitVec 7) : u.stage2s pid x k = ({ s with cores := u.cores } : State).stage2s pid x k := by
      rw [p.only]
      exact State.stage2s_lines { s with cores := u.cores } ..
    have h3 : u.ctx c = s.ctx c := by rw [p.only]; rfl
    have h4 : u.byte = ({ s with cores := u.cores } : State).byte := by rw [p.only]; rfl
    rw [State.gpaNum, State.gpaNum, h2, h3, h4]
    rfl
  have hctx : u.ctx (s.core n).cid = s.ctx (s.core n).cid := by rw [p.only]; rfl
  rw [State.tdesc, State.tdesc, State.tdBits, State.tdBits, hcid, hcore, hflying, hgpa, hctx]

/-! ### What a form answers -/

section
variable (i : Instr) (h : Hdr) (s : State)
/-- A copy word is held, its slots advanced (R437, R439). -/
def CpyHolds (j : CpyJob) : Prop := EngHolds i .cpy h { h with sig := 0 } h.sig (.cpy j)
  (fun c d => ∃ m, m = j.slotsAfter (s.lenDesc s.cur (s.engCrd .cpy h [] 0 0) j).granules s.me.cslot ∧ d = { c with cslot := m }) s
/-- A copy word starts its issue-time part (R439). -/
def CpyStarts (j : CpyJob) (buf : List Byte) : Prop := EngDoes i .cpy h { h with sig := 0 } 0 [] 0 0 [] (fun e _ c d => ∃ x : CpyOp, x.slot = s.me.cpy.ring.head ∧
  x.id = s.nextId ∧ x.e = e ∧ x.sig = h.sig ∧ x.job = j ∧ x.buf = buf ∧ x.k = 0 ∧ x.done = false ∧ x.after = s.engAfter .cpy h ∧
  (s.me.dbgReg.getLsbD 0 = false → d.pendBits = c.pendBits) ∧ d = { c with cpyQ := c.cpyQ ++ [x], pendBits := d.pendBits }) (fun _ x => x) s
/-- A word that moves bytes: held where they go to memory, started elsewhere. -/
def CpyMoves (j : CpyJob) (buf : List Byte) : Prop :=
  (s.toMemory s.cur (s.engCrd .cpy h [] 0 0) j = (true, false) → CpyHolds i h s j) ∧
  (s.toMemory s.cur (s.engCrd .cpy h [] 0 0) j ≠ (true, false) → s.logRoom s.cur (s.engCrd .cpy h [] 0 0) j = true → CpyStarts i h s j buf)
/-- A test of a form that fails raises its fault. -/
def CpyRaises (b : Option Body) : Prop := ∀ code val, b = some (.fault code val) → EngRaises i .cpy h 0 [] 0 0 code val s
end

/-! ### What tests and jobs say -/

section
variable (s : State) (h : Hdr) (opc : BitVec 7) (fn : BitVec 4) (o : CP)
@[simp] theorem jobOf_w (w : Word) : (s.jobOf w).w = w := rfl
@[simp] theorem jobOf_opc : (s.jobOf (packCP h opc fn o)).opc = opc.toNat := congrArg BitVec.toNat (Laws.opcOf_packCP ..)
@[simp] theorem jobOf_o : (s.jobOf (packCP h opc fn o)).o = o := Laws.unpackCP_packCP ..
@[simp] theorem jobOf_tida : (s.jobOf (packCP h opc fn o)).tida = o.tida := congrArg CP.tida (jobOf_o ..)
@[simp] theorem jobOf_tidb : (s.jobOf (packCP h opc fn o)).tidb = o.tidb := congrArg CP.tidb (jobOf_o ..)
end

theorem State.cpyCommon_mode {s : State} {w : Word} {j : CpyJob} {modes : List Nat} {a b : Bool} (h : s.cpyCommon w j modes a b = none) : j.mode ∈ modes := by
  unfold State.cpyCommon at h
  dsimp only at h
  split at h
  · cases h
  · next hm =>
    have hc : modes.contains j.mode = true := by
      by_contra hc
      exact hm (by simp only [Bool.not_eq_true] at hc; rw [hc]; rfl)
    simpa using hc
theorem State.toMemory_mode {s : State} {n : Nat} {e : Word} {j : CpyJob} (h : s.toMemory n e j = (true, false)) : j.mode ≠ 0 := fun h0 => by
  unfold State.toMemory at h
  dsimp only at h
  rw [h0] at h
  split at h <;> cases congrArg Prod.fst h
/-- A word whose bytes go to memory logs no granule (R255). -/
theorem State.logRoom_memory {s : State} {n : Nat} {e : Word} {j : CpyJob} (h : s.toMemory n e j = (true, false)) : s.logRoom n e j = true := by
  have h0 : s.logNeed n e j = 0 := by
    unfold State.logNeed
    split
    · rfl
    · rw [h]
      rfl
  rw [State.logRoom, h0]
  exact decide_eq_true (Nat.zero_le _)

/-- A word that reads no scratchpad finds none pending. -/
theorem State.jobPend_nothing {s : State} {e : Word} {j : CpyJob} (h : ∀ d, (j.spadParts d).1 = []) : s.jobPend e j = none := by
  rw [State.jobPend, h]
  rfl
theorem CpyJob.spadParts_entry {j : CpyJob} (h : 0x72 ≤ j.opc) (d : TDesc) : (j.spadParts d).1 = [] := by
  have hne {k : Nat} (hk : k < 0x72) : (j.opc == k) = false := by simpa using (by omega : j.opc ≠ k)
  unfold CpyJob.spadParts
  simp [hne]
theorem CpyJob.spadParts_fill {j : CpyJob} (h : j.opc = 0x6D) (hm : j.mode ≠ 2) (d : TDesc) : (j.spadParts d).1 = [] := by
  unfold CpyJob.spadParts
  rw [h]
  simp only [Nat.reduceBEq, Bool.false_eq_true, if_false, Bool.or_true, Bool.or_false, Bool.not_true, Bool.false_or, if_true]
  split
  · rfl
  · split <;> rfl
  · exact absurd ‹_› hm
  · split <;> rfl
theorem CpyJob.spadParts_pull {j : CpyJob} (h : j.opc = 0x6F) (hm : j.mode ∈ [2, 3]) (d : TDesc) : (j.spadParts d).1 = [] := by
  unfold CpyJob.spadParts
  rw [h]
  simp only [Nat.reduceBEq, Bool.false_eq_true, if_false, Bool.or_true, Bool.or_false, Bool.not_true, if_true, Bool.and_false]
  split
  · next h0 => rw [h0] at hm; simp at hm
  · next h1 => rw [h1] at hm; simp at hm
  · split <;> rfl
  · rfl
theorem State.jobPend_exchange {s : State} {e : Word} {j : CpyJob} (h : j.opc = 0x70) : s.jobPend e j = s.cpyPend j.src0 j.len0 := by
  have hp (d : TDesc) : (j.spadParts d).1 = [(j.src0, j.len0)] := by
    unfold CpyJob.spadParts
    rw [h]
    rfl
  rw [State.jobPend, hp]
  show orTest (s.cpyPend j.src0 j.len0) none = _
  cases s.cpyPend j.src0 j.len0 <;> rfl

/-! ### A circular buffer that changes (R189) -/

theorem CpyJob.ccbBytes_eq (j : CpyJob) : j.ccbBytes = if j.mode = 0 then j.len0 else if j.mode = 1 then j.rows * j.pitch else j.len3 := by
  simp only [CpyJob.ccbBytes, beq_iff_eq]

theorem EngEff.setCbCpy {s s1 s2 : State} {k : Nat} {c0 : Core} (ef : EngEff s s1 s2 .cpy s.cur k c0 [] fun x => x) (i : Nat) (e : Word) (x : Cb) :
    EngEff s s1 (s2.setCb s.cur .cpy i e x) .cpy s.cur (k + 1) { c0 with cbs := c0.cbs.set none i (some x) } [] fun x => x := by
  obtain ⟨ho, hc, hl⟩ := s2.setCb_core s.cur .cpy i e x
  exact ef.more ho (fun c => { c with cbs := c.cbs.set none i (some x) }) hc (fun _ _ _ _ => rfl) hl

/-! ### The forms (R442 to R448) -/

section
variable {h : Hdr} {o : CP} {s : State} (hb : s.me.cpyBusy = false)

/-- A moving word that passes its tests. -/
theorem cpyMoves_of {i : Instr} {test : Word → CpyJob → Option Body} {body : Word → CpyJob → Nat → State → Body} {j : CpyJob} {buf : List Byte}
    (hb : s.me.cpyBusy = false) (hi : exec i s = cpyWord h i.word test body s) (hw : j.w = i.word) (hccb : j.opc ≠ 0x71)
    (ht : s.logRoom s.cur (s.engCrd .cpy h [] 0 0) j = true →
      orTest (test (s.engCrd .cpy h [] 0 0) (s.jobOf i.word)) (s.jobPend (s.engCrd .cpy h [] 0 0) (s.jobOf i.word)) = none)
    (hbody : ∀ s1, body (s.engCrd .cpy h [] 0 0) (s.jobOf i.word) s.nextId s1 = s.cpyMover h (s.engCrd .cpy h [] 0 0) j buf s.nextId s1) : CpyMoves i h s j buf := by
  refine ⟨fun hmem => cpyWord_holds hi hb (ht (State.logRoom_memory hmem)) hw hccb (fun hx => State.toMemory_mode hmem hx.2) fun s1 => ?_, fun hmem hroom =>
    cpyWord_starts (g := fun u => u) (F := fun c => c) (k := 0) hi hb (ht hroom) (by omega) (fun _ => rfl) (fun s1 iss => iss.eff) fun s1 => ?_⟩
  · rw [hbody, State.cpyMover, hmem]
    rfl
  · rw [hbody, State.cpyMover]
    generalize s.toMemory s.cur (s.engCrd .cpy h [] 0 0) j = p at hmem ⊢
    obtain ⟨a, b⟩ := p
    cases a with
    | false => rfl
    | true =>
      cases b with
      | true => rfl
      | false => exact absurd rfl hmem

include hb
theorem copy_obeys {i : Instr} {fn : BitVec 4} (hw : i.word = packCP h 0x6C fn o) (hi : exec i s = cpyCopy h i.word s) :
    (s.cpyCommon i.word (s.jobOf i.word) [0, 1, 2, 3] false false = none → s.cpyMoves (s.engCrd .cpy h [] 0 0) i.word (s.jobOf i.word) false false = none →
      (s.logRoom s.cur (s.engCrd .cpy h [] 0 0) (s.jobOf i.word) = true → CpyRaises i h s (s.jobPend (s.engCrd .cpy h [] 0 0) (s.jobOf i.word))) ∧
      (s.jobPend (s.engCrd .cpy h [] 0 0) (s.jobOf i.word) = none → CpyMoves i h s (s.jobOf i.word)
        (if (s.jobOf i.word).mode = 0 then s.me.spadBytes (s.jobOf i.word).src0 (s.jobOf i.word).len0 else []))) ∧
    CpyRaises i h s (s.cpyCommon i.word (s.jobOf i.word) [0, 1, 2, 3] false false) ∧
    (s.cpyCommon i.word (s.jobOf i.word) [0, 1, 2, 3] false false = none →
      CpyRaises i h s (s.cpyMoves (s.engCrd .cpy h [] 0 0) i.word (s.jobOf i.word) false false)) := by
  unfold cpyCopy at hi
  have hopc : (s.jobOf i.word).opc = 0x6C := by rw [hw, jobOf_opc]; rfl
  refine ⟨fun h1 h2 => ⟨fun hroom code val hp => cpyWord_raises hi hb ?_, fun hp => cpyMoves_of hb hi rfl (by rw [hopc]; decide) (fun hroom => ?_) fun s1 => ?_⟩,
    fun code val h1 => cpyWord_raises hi hb (orTest_some (orTest_some h1 _) _), fun h1 code val h2 => cpyWord_raises hi hb (orTest_some ?_ _)⟩
  · rw [h1, h2, hroom]
    exact hp
  · rw [h1, h2, hroom]
    exact hp
  · simp only [beq_iff_eq]
  · rw [h1]
    exact orTest_some h2 _

theorem cfill_obeys (w : Word) (hw : w = packCP h 0x6D 0 o) (j : CpyJob) (hj : j = s.jobOf w) (e : Word) (he : e = s.engCrd .cpy h [] 0 0) (a : Nat)
    (ha : a = if j.mode = 0 then j.src0 else if j.mode = 1 then j.spa1 else j.spa3) :
    CpyRaises (.cfill h o) h s (s.cpyCommon w j [0, 1, 3] false false) ∧
    (s.cpyCommon w j [0, 1, 3] false false = none → spadRange a 32 = none → s.cpyPend a 32 = none → s.cpyMoves e w j true false = none →
      s.logRoom s.cur e j = true → CpyMoves (.cfill h o) h s { j with pat := s.me.spadBytes a 32 } []) := by
  have hi : exec (.cfill h o) s = execCfill h o s := rfl
  have hword : (Instr.cfill h o).word = w := hw.symm
  unfold execCfill at hi
  dsimp only at hi
  rw [← hw] at hi
  have hopc : j.opc = 0x6D := by rw [hj, hw, jobOf_opc]; rfl
  have hat : (if j.mode == 0 then j.src0 else if j.mode == 1 then j.spa1 else j.spa3) = a := by rw [ha]; simp only [beq_iff_eq]
  subst he
  rw [← hword] at hi
  refine ⟨fun code val h1 => cpyWord_raises hi hb (orTest_some (orTest_some ?_ _) _), fun h1 h2 h3 h4 h5 => cpyMoves_of hb hi ?_ ?_ (fun _ => ?_) fun s1 => ?_⟩
  · rw [hword, ← hj]
    exact h1
  · rw [hj, hword]; rfl
  · show j.opc ≠ 0x71
    rw [hopc]; decide
  · have hmode : j.mode ≠ 2 := fun h2 => by
      have := State.cpyCommon_mode h1
      rw [h2] at this
      exact absurd this (by decide)
    have hpend : s.jobPend (s.engCrd .cpy h [] 0 0) j = none := State.jobPend_nothing (CpyJob.spadParts_fill hopc hmode)
    rw [hword, ← hj, hat, h1, h2, h3, h4, h5, hpend]
    split <;> rfl
  · rw [hword, ← hj, hat]

/-- A transfer with another device whose tests pass is held (R446). -/
theorem cpyRemote_obeys {i : Instr} {pull : Bool} (hi : exec i s = cpyRemote h i.word pull s) (hopc : (s.jobOf i.word).opc = 0x6E ∨ (s.jobOf i.word).opc = 0x6F) :
    (s.cpyFar (s.engCrd .cpy h [] 0 0) i.word (s.jobOf i.word) pull = none →
      CpyRaises i h s (s.jobPend (s.engCrd .cpy h [] 0 0) (s.jobOf i.word)) ∧
      (s.jobPend (s.engCrd .cpy h [] 0 0) (s.jobOf i.word) = none → CpyHolds i h s (s.jobOf i.word))) ∧
    CpyRaises i h s (s.cpyFar (s.engCrd .cpy h [] 0 0) i.word (s.jobOf i.word) pull) := by
  unfold cpyRemote at hi
  refine ⟨fun h1 => ⟨fun code val h2 => cpyWord_raises hi hb ?_, fun h2 => cpyWord_holds hi hb ?_ rfl (by omega) (by omega) fun _ => rfl⟩,
    fun code val h1 => cpyWord_raises hi hb (orTest_some h1 _)⟩
  · rw [h1]
    exact h2
  · rw [h1]
    exact h2
theorem cpull_obeys {i : Instr} (hi : exec i s = cpyRemote h i.word true s) (hopc : (s.jobOf i.word).opc = 0x6F) :
    (s.cpyFar (s.engCrd .cpy h [] 0 0) i.word (s.jobOf i.word) true = none →
      s.jobPend (s.engCrd .cpy h [] 0 0) (s.jobOf i.word) = none ∧ CpyHolds i h s (s.jobOf i.word)) ∧
    CpyRaises i h s (s.cpyFar (s.engCrd .cpy h [] 0 0) i.word (s.jobOf i.word) true) := by
  obtain ⟨hheld, hraises⟩ := cpyRemote_obeys hb hi (.inr hopc)
  refine ⟨fun h1 => ?_, hraises⟩
  have hmode : (s.jobOf i.word).mode ∈ [2, 3] := State.cpyCommon_mode (orTest_none_iff.1 h1).1
  have hpend := State.jobPend_nothing (s := s) (e := s.engCrd .cpy h [] 0 0) (CpyJob.spadParts_pull hopc hmode)
  exact ⟨hpend, (hheld h1).2 hpend⟩

theorem cxch_obeys (w : Word) (hw : w = packCP h 0x70 0 o) (j : CpyJob) (hj : j = s.jobOf w) :
    CpyRaises (.cxch h o) h s (s.cpyCommon w j [0] true true) ∧
    (s.cpyCommon w j [0] true true = none → ¬((∃ t ph, s.me.task = some t ∧ t.superPh = some ph) ∧ o.tida.toNat < 256 ∧ o.tidb.toNat < 64) →
      EngRaises (.cxch h o) .cpy h 0 [] 0 0 0x01 w s) ∧
    (s.cpyCommon w j [0] true true = none → (∃ t ph, s.me.task = some t ∧ t.superPh = some ph) ∧ o.tida.toNat < 256 ∧ o.tidb.toNat < 64 →
      spadRange j.src0 j.len0 = none → s.cpyPend j.src0 j.len0 = none → CpyHolds (.cxch h o) h s j) := by
  have hi : exec (.cxch h o) s = execCxch h o s := rfl
  have hword : (Instr.cxch h o).word = w := hw.symm
  unfold execCxch at hi
  dsimp only at hi
  rw [← hw, ← hword] at hi
  have hopc : j.opc = 0x70 := by rw [hj, hw, jobOf_opc]; rfl
  have hsuper : ((s.me.task.bind (·.superPh)).isNone || decide (256 ≤ o.tida.toNat) || decide (64 ≤ o.tidb.toNat)) = true ↔
      ¬((∃ t ph, s.me.task = some t ∧ t.superPh = some ph) ∧ o.tida.toNat < 256 ∧ o.tidb.toNat < 64) := by
    have hnone : (s.me.task.bind (·.superPh)).isNone = true ↔ ¬∃ t ph, s.me.task = some t ∧ t.superPh = some ph := by
      cases s.me.task with
      | none => simp
      | some t => cases ht : t.superPh <;> simp [ht]
    rw [Bool.or_eq_true, Bool.or_eq_true, hnone, decide_eq_true_iff, decide_eq_true_iff, ← Nat.not_lt, ← Nat.not_lt, not_and_or, not_and_or, or_assoc]
  refine ⟨fun code val h1 => cpyWord_raises hi hb (orTest_some (orTest_some ?_ _) _), fun h1 h2 => cpyWord_raises hi hb (orTest_some ?_ _), fun h1 h2 h3 h4 => ?_⟩
  · rw [hword, ← hj]
    exact h1
  · rw [hword, ← hj, h1, if_pos (hsuper.2 h2)]
    rfl
  · subst hj
    rw [← hword] at *
    refine cpyWord_holds hi hb ?_ rfl (by omega) (by omega) fun _ => rfl
    rw [h1, if_neg (fun hc => hsuper.1 hc h2), h3, h4, State.jobPend_exchange hopc, h4]
    rfl

/-! ### Words on the entries of tiles (R216, R448) -/

theorem cpyEnts_holds {i : Instr} {two : Bool} (hi : exec i s = cpyWord h i.word (fun e j => s.cpyEnts e i.word j two)
      (fun e j id s' => s'.cpyHold h e s.me.cpy.ring.head j id) s) (hopc : 0x72 ≤ (s.jobOf i.word).opc) :
    (s.cpyEnts (s.engCrd .cpy h [] 0 0) i.word (s.jobOf i.word) two = none → CpyHolds i h s (s.jobOf i.word)) ∧
    CpyRaises i h s (s.cpyEnts (s.engCrd .cpy h [] 0 0) i.word (s.jobOf i.word) two) := by
  refine ⟨fun h1 => cpyWord_holds hi hb ?_ rfl (by omega) (by omega) fun _ => rfl, fun code val h1 => cpyWord_raises hi hb (orTest_some h1 _)⟩
  rw [h1, State.jobPend_nothing (CpyJob.spadParts_entry hopc)]
  rfl
/-- A word that starts and changes nothing else at its issue. -/
theorem cpyWord_startsPlain {i : Instr} {test : Word → CpyJob → Option Body} {body : Word → CpyJob → Nat → State → Body}
    (hi : exec i s = cpyWord h i.word test body s) (ht : test (s.engCrd .cpy h [] 0 0) (s.jobOf i.word) = none) (hopc : 0x72 ≤ (s.jobOf i.word).opc)
    (hbody : ∀ e j id s1, body e j id s1 = .quiet (s1.cpyStart h e s.me.cpy.ring.head id j [])) : CpyStarts i h s (s.jobOf i.word) [] := by
  refine cpyWord_starts (g := fun u => u) (F := fun c => c) (k := 0) hi hb ?_ (by omega) (fun _ => rfl) (fun s1 iss => iss.eff) fun s1 => hbody ..
  rw [ht, State.jobPend_nothing (CpyJob.spadParts_entry hopc)]
  rfl
theorem tcow_obeys (w : Word) (hw : w = packCP h 0x72 0 o) :
    (s.cpyEnts (s.engCrd .cpy h [] 0 0) w (s.jobOf w) false = none → CpyStarts (.tcow h o) h s (s.jobOf w) []) ∧
    CpyRaises (.tcow h o) h s (s.cpyEnts (s.engCrd .cpy h [] 0 0) w (s.jobOf w) false) := by
  subst hw
  have hi : exec (.tcow h o) s = execTcow h o s := rfl
  unfold execTcow at hi
  exact ⟨fun h1 => cpyWord_startsPlain (i := .tcow h o) hb hi h1 (by show 0x72 ≤ (s.jobOf (packCP h 0x72 0 o)).opc; rw [jobOf_opc]; decide) fun _ _ _ _ => rfl,
    fun code val h1 => cpyWord_raises (i := .tcow h o) hi hb (orTest_some h1 _)⟩
theorem tmig_obeys {i : Instr} {fn : BitVec 4} {promote : Bool} (hw : i.word = packCP h 0x73 fn o) (hi : exec i s = cpyMig h i.word promote s) {d : TDesc}
    (hd : s.tdesc s.cur (s.engCrd .cpy h [] 0 0) o.tida = some d) (h1 : s.cpyEnts (s.engCrd .cpy h [] 0 0) i.word (s.jobOf i.word) false = none) :
    ((if promote then d.noprom || decide (1 < o.q.toNat) else d.nodem) = false → CpyStarts i h s (s.jobOf i.word) []) ∧
    ((if promote then d.noprom || decide (1 < o.q.toNat) else d.nodem) = true → EngRaises i .cpy h 0 [] 0 0 0x01 i.word s) := by
  unfold cpyMig at hi
  have ho : (s.jobOf i.word).o = o := by rw [hw, jobOf_o]
  have htida : (s.jobOf i.word).tida = o.tida := by rw [hw, jobOf_tida]
  have hopc : 0x72 ≤ (s.jobOf i.word).opc := by rw [hw, jobOf_opc]; decide
  refine ⟨fun h2 => cpyWord_startsPlain hb hi ?_ hopc fun _ _ _ _ => rfl, fun h2 => cpyWord_raises hi hb (orTest_some ?_ _)⟩
  · rw [h1, htida, hd, ho]
    dsimp only
    rw [h2]
    rfl
  · rw [h1, htida, hd, ho]
    dsimp only
    rw [h2]
    rfl

/-! ### CCB (R189, R444) -/

/-- A circular buffer whose next slot a fill takes (R189). -/
def Cb.taken (b : Cb) : Cb := { b with free := b.free - 1, filling := b.filling + 1 }
/-- The slot that a fill takes, after those that are being filled. -/
def Cb.nextSlot (b : Cb) : Nat := (b.widx + b.filling) % cbSlots b.w0

section
variable (w : Word) (hw : w = packCP h 0x71 0 o) (j : CpyJob) (hj : j = s.jobOf w) (h1 : s.cpyCommon w j [0, 1, 3] false true = none)
include hw hj h1
theorem ccb_refused (hcb : ∀ b, s.me.cbs.get none (o.tidb.toNat % 32) = some b → 32 ≤ o.tidb.toNat ∨ j.ccbBytes ≠ cbSlotBytes b.w0) :
    EngRaises (.ccb h o) .cpy h 0 [] 0 0 0x01 w s := by
  have hi : exec (.ccb h o) s = execCcb h o s := rfl
  have hword : (Instr.ccb h o).word = w := hw.symm
  unfold execCcb at hi
  dsimp only at hi
  rw [← hw, ← hword] at hi
  refine cpyWord_raises hi hb (orTest_some ?_ _)
  rw [hword, ← hj, h1]
  cases hc : s.me.cbs.get none (o.tidb.toNat % 32) with
  | none => rfl
  | some b =>
    dsimp only
    rw [if_pos (by simpa using hcb b hc)]
    rfl

variable {b : Cb} (hcb : s.me.cbs.get none (o.tidb.toNat % 32) = some b) (hlt : o.tidb.toNat < 32) (hsize : j.ccbBytes = cbSlotBytes b.w0)
  (h2 : s.cpyMoves (s.engCrd .cpy h [] 0 0) w j false true = none) (hfree : b.free ≠ 0) (hroom : s.logRoom s.cur (s.engCrd .cpy h [] 0 0) j = true)
include hcb hlt hsize h2 hfree hroom
theorem ccb_obeys :
    CpyRaises (.ccb h o) h s (s.jobPend (s.engCrd .cpy h [] 0 0) j) ∧ (s.jobPend (s.engCrd .cpy h [] 0 0) j = none →
      EngDoes (.ccb h o) .cpy h { h with sig := 0 } 0 [] 0 0 [] (fun e _ c d => ∃ x : CpyOp, x.slot = s.me.cpy.ring.head ∧ x.id = s.nextId ∧ x.e = e ∧ x.sig = h.sig ∧
        x.job = { j with cbAddr := cbBase b.w0 + cbSlotBytes b.w0 * b.nextSlot, cbSlot := b.nextSlot } ∧
        x.buf = (if j.mode == 0 then s.me.spadBytes j.src0 j.len0 else []) ∧ x.k = 0 ∧ x.done = false ∧
        x.after = s.engAfter .cpy h ∧ (s.me.dbgReg.getLsbD 0 = false → d.pendBits = c.pendBits) ∧
        d = { ({ c with cbs := c.cbs.set none o.tidb.toNat (some b.taken) } : Core) with cpyQ := c.cpyQ ++ [x], pendBits := d.pendBits }) (fun _ x => x) s) := by
  have hi : exec (.ccb h o) s = execCcb h o s := rfl
  have hword : (Instr.ccb h o).word = w := hw.symm
  unfold execCcb at hi
  dsimp only at hi
  rw [← hw, ← hword] at hi
  have hmod : o.tidb.toNat % 32 = o.tidb.toNat := Nat.mod_eq_of_lt hlt
  have htest : orTest (s.cpyCommon w j [0, 1, 3] false true) (match s.me.cbs.get none (o.tidb.toNat % 32) with
       | none => some (.fault fIllegal w)
       | some b =>
         if 32 ≤ o.tidb.toNat || j.ccbBytes != cbSlotBytes b.w0 then some (.fault fIllegal w)
         else orTest (s.cpyMoves (s.engCrd .cpy h [] 0 0) w j false true) (stallUnless (b.free != 0 && s.logRoom s.cur (s.engCrd .cpy h [] 0 0) j))) = none := by
    rw [h1, hcb]
    dsimp only
    rw [if_neg (by rw [hsize]; simpa using hlt), h2, hroom, show (b.free != 0) = true by simpa using hfree]
    rfl
  refine ⟨fun code val hp => cpyWord_raises hi hb ?_, fun hp => ?_⟩
  · rw [hword, ← hj]
    exact (orTest_first htest _).trans hp
  · refine cpyWord_starts (F := fun c => { c with cbs := c.cbs.set none o.tidb.toNat (some b.taken) }) (k := 1)
      (g := fun u => u.setCb s.cur .cpy (o.tidb.toNat % 32) (s.engCrd .cpy h [] 0 0) b.taken) hi hb ?_ (by omega) (fun _ => rfl) (fun s1 iss => ?_) fun s1 => ?_
    · rw [hword, ← hj]
      exact (orTest_first htest _).trans hp
    · rw [hmod]
      exact iss.eff.setCbCpy _ _ _
    · rw [hcb, hword, ← hj]
      rfl
end

/-! ### CPREF and CSYNC (R449) -/

theorem csync_waits : EngDoes (.csync h o) .cpy h { h with sig := 0 } 0 [] 0 0 [] (fun e _ c d => ∃ x : CpyOp, x.slot = s.me.cpy.ring.head ∧ x.e = e ∧ x.sig = h.sig ∧
    x.done = true ∧ x.job = { w := (Instr.csync h o).word } ∧ d = { c with cpyQ := c.cpyQ ++ [x] }) (fun _ x => x) s := by
  have hi : exec (.csync h o) s = execCsync h o s := rfl
  unfold execCsync at hi
  refine .of_quiet hi (fun _ _ _ => if_neg (by rw [hb]; simp)) fun es c' s1 m iss => ?_
  obtain ⟨-, rfl⟩ := m.none_popped
  obtain ⟨x, hx⟩ : ∃ x : CpyOp, x = { slot := s.me.cpy.ring.head, id := s.nextId, e := s.engCrd .cpy h es 0 0, sig := h.sig, job := { w := packCP h 0x77 0 o },
                                      done := true } := ⟨_, rfl⟩
  have ef := iss.eff.mod (fun c => { c with cpyQ := c.cpyQ ++ [x] }) fun _ _ _ _ => rfl
  exact ⟨_, 0, _, by rw [hx], ef, by omega, rfl, rfl, x, by rw [hx], by rw [hx], by rw [hx], by rw [hx], by rw [hx]; rfl, rfl⟩

theorem cpref_obeys (w : Word) (hw : w = packCP h 0x76 0 o) (j : CpyJob) (hj : j = s.jobOf w) :
    CpyRaises (.cpref h o) h s (s.cpyCommon w j [2, 3] false false) ∧
    (s.cpyCommon w j [2, 3] false false = none → (j.mode = 2 → o.tidb = 0) → ∀ es c', EngMay s .cpy h 0 [] 0 0 es c' →
      ∃ t m, exec (.cpref h o) s = .next t ∧ m = j.slotsAfter (s.lenDesc s.cur (s.engCrd .cpy h [] 0 0) j).granules s.me.cslot ∧
        EngRan s t .cpy h (s.engCrd .cpy h [] 0 0) { c' with cslot := m, ttc := (s.cpyPrefetch s.cur (s.engCrd .cpy h [] 0 0) j).me.ttc } [] (fun y => y)
          (s.cpyPrefetch s.cur (s.engCrd .cpy h [] 0 0) j)) := by
  have hi : exec (.cpref h o) s = execCpref h o s := rfl
  have hword : (Instr.cpref h o).word = w := hw.symm
  unfold execCpref at hi
  dsimp only at hi
  rw [← hw, ← hword] at hi
  have hopc : j.opc = 0x76 := by rw [hj, hw, jobOf_opc]; rfl
  have htidb : j.tidb = o.tidb := by rw [hj, hw, jobOf_tidb]
  refine ⟨fun code val h1 => cpyWord_raises hi hb (orTest_some (orTest_some ?_ _) _), fun h1 h2 es c' m => ?_⟩
  · rw [hword, ← hj]
    exact h1
  obtain ⟨rfl, rfl⟩ := m.none_popped
  unfold cpyWord at hi
  rw [hword, ← hj] at hi
  dsimp only at hi
  have htest : (if s.me.cpyBusy then some Body.stall else
      orTest (orTest (s.cpyCommon w j [2, 3] false false) (if (j.mode == 2 && j.tidb != 0) = true then some (.fault fIllegal w) else none))
        (s.jobPend (s.engCrd .cpy h [] 0 0) j)) = none := by
    rw [if_neg (by rw [hb]; simp), h1, State.jobPend_nothing (CpyJob.spadParts_entry (by rw [hopc]; decide)), htidb, if_neg (by simpa using h2)]
    rfl
  obtain ⟨s1, iss, -, -, hlists, hgo⟩ := engWord_issues m w (fun e => if s.me.cpyBusy then some Body.stall else
      orTest (orTest (s.cpyCommon w j [2, 3] false false) (if (j.mode == 2 && j.tidb != 0) = true then some (.fault fIllegal w) else none)) (s.jobPend e j)) htest
    fun e _ _ _ s' => .done ((s'.cpyPrefetch s.cur e j).slotAdvance s.cur e j)
  obtain ⟨e, he⟩ : ∃ e, e = s.engCrd .cpy h [] 0 0 := ⟨_, rfl⟩
  rw [← he] at iss hgo ⊢
  have a := (iss.talike m hlists false).cpyPrefetch e j
  have p := s.cpyPrefetch_prefetched s.cur e j
  generalize s.cpyPrefetch s.cur e j = u at a p ⊢
  have hpeel : (u.core s.cur).peel.length = s.me.peel.length := by rw [p.core]; rfl
  have hucur : u.cur = s.cur := by rw [p.only]
  have hlen : (s1.cpyPrefetch s.cur e j).lenDesc s.cur e j = s.lenDesc s.cur e j := by
    have hdesc (t : BitVec 10) : (s1.cpyPrefetch s.cur e j).tdesc s.cur e t = s.tdesc s.cur e t := by
      have hs : u.tdesc s.cur e t = s.tdesc s.cur e t := p.tdesc e t
      rw [a.tdesc, hs]
    rw [State.lenDesc, State.lenDesc, hdesc, hdesc]
  generalize hv : s1.cpyPrefetch s.cur e j = v at a hlen hgo
  have ef : EngEff u s1 v .cpy s.cur v.me.peel.length { s.me with ttc := (u.core s.cur).ttc } [] fun x => x := by
    have hcore := a.base
    have hissue := iss.core
    refine ⟨a.only, ?_, fun k _ => by rw [hcore], ?_⟩
    · rw [hcore, a.ttc]
      generalize s1.core s.cur = c at hissue ⊢
      rw [hissue]
      rfl
    · rw [State.me, a.cur, iss.only.cur]
      omega
  have ef2 := ef.slotAdvance e (j := j) (by rw [hopc]; decide) (by rw [hopc]; omega)
  rw [hlen] at ef2
  have hcur : (v.slotAdvance s.cur e j).cur = s.cur := ef2.cur.trans hucur
  have hfits : (v.slotAdvance s.cur e j).me.fits = true := by
    have ef0 : EngEff v v v .cpy s.cur 0 (v.core s.cur) [] fun x => x := ⟨.refl .., rfl, fun _ _ => rfl, Nat.le_refl _⟩
    have hlog := (ef0.slotAdvance e (j := j) (by rw [hopc]; decide) (by rw [hopc]; omega)).log
    have h1 := a.peel
    have h2 : (waitPresent (s.me.waitVal h)).length ≤ 3 := waitPresent_length _
    obtain ⟨hroom, hhold⟩ := m.room
    unfold Core.fits
    rw [State.me, hcur, Bool.and_eq_true, decide_eq_true_eq, decide_eq_true_eq]
    refine ⟨by omega, ?_⟩
    rw [ef2.core]
    show s.me.hold.length ≤ 128
    omega
  obtain ⟨t, ht, left⟩ := (hgo _ hfits).2 rfl fun k => ef2.tok k (by simp)
  refine ⟨t, _, hi.trans ?_, rfl, ?_⟩
  · exact ht
  · have hran := left.ran m (he ▸ iss) ef2 rfl
    have hume : u.me = u.core s.cur := by rw [State.me, hucur]
    rw [← he] at hran
    rw [hume]
    exact hran
end

/-- Settles O39: a copy word that passes the tests of its form is held, its slots advanced, or starts its issue-time part; CPREF advances its slots and touches
only translations and lines of the L2; CSYNC waits; and a test that fails raises its fault. -/
theorem copyWords : Obligations.CopyWords := by
  unfold Obligations.CopyWords
  intro h o s hb
  refine ⟨fun i hi => ?_, ?_, fun i hi => ?_, ?_, ?_, ?_, tcow_obeys hb _ rfl, fun d hd => ⟨fun h1 => ?_, fun h1 => ?_⟩, ?_, ?_, ?_, csync_waits hb⟩
  · rcases List.mem_cons.1 hi with rfl | hi
    · exact copy_obeys hb (fn := 0) rfl rfl
    · rcases List.mem_singleton.1 hi with rfl
      exact copy_obeys hb (fn := 1) rfl rfl
  · exact cfill_obeys hb _ rfl _ rfl _ rfl _ rfl
  · rcases List.mem_cons.1 hi with rfl | hi
    · exact cpyRemote_obeys hb (pull := false) rfl (.inl (congrArg BitVec.toNat (Laws.opcOf_packCP ..)))
    · rcases List.mem_singleton.1 hi with rfl
      exact cpyRemote_obeys hb (pull := false) rfl (.inl (congrArg BitVec.toNat (Laws.opcOf_packCP ..)))
  · exact cpull_obeys hb rfl (congrArg BitVec.toNat (Laws.opcOf_packCP ..))
  · exact cxch_obeys hb _ rfl _ rfl
  · refine fun h1 => ⟨fun hn => ccb_refused hb _ rfl _ rfl h1 fun b hc => ?_, fun b hc => ⟨fun hbad => ccb_refused hb _ rfl _ rfl h1 fun b' hc' => ?_,
      fun hlt hsize h2 hfree hroom => ?_⟩⟩
    · rw [hn] at hc
      cases hc
    · cases hc.symm.trans hc'
      rw [CpyJob.ccbBytes_eq]
      exact hbad
    · obtain ⟨hraises, hdoes⟩ := ccb_obeys hb _ rfl _ rfl h1 hc hlt ((CpyJob.ccbBytes_eq _).trans hsize) h2 hfree hroom
      refine ⟨hraises, fun hp es c' m => ?_⟩
      obtain ⟨t, base, ht, ⟨x, hslot, -, he, hsig, hjob, -, hk, hdone, hafter, hpend, hbase⟩, ran⟩ := hdoes hp es c' m
      exact ⟨t, base, ht, ⟨x, hslot, he, hsig, hjob, hk, hdone, hafter, hpend, hbase⟩, ran⟩
  · obtain ⟨hstarts, hraises⟩ := tmig_obeys hb (i := .tmigDemote h o) (fn := 0) (promote := false) rfl rfl hd h1
    exact ⟨hstarts, hraises⟩
  · obtain ⟨hstarts, hraises⟩ := tmig_obeys hb (i := .tmigPromote h o) (fn := 1) (promote := true) rfl rfl hd h1
    refine ⟨fun ⟨hprom, hq⟩ => hstarts ?_, fun hbad => hraises ?_⟩
    · rw [if_pos rfl, hprom, Bool.false_or]
      exact decide_eq_false (by omega)
    · rw [if_pos rfl, Bool.or_eq_true, decide_eq_true_iff]
      exact hbad
  · exact cpyEnts_holds hb (two := true) rfl (by rw [show (s.jobOf (Instr.tshare h o).word).opc = 0x74 from congrArg BitVec.toNat (Laws.opcOf_packCP ..)]; decide)
  · exact cpyEnts_holds hb (two := false) rfl (by rw [show (s.jobOf (Instr.tfree h o).word).opc = 0x75 from congrArg BitVec.toNat (Laws.opcOf_packCP ..)]; decide)
  · obtain ⟨hraises, hdoes⟩ := cpref_obeys (o := o) hb _ rfl _ rfl
    have p := s.cpyPrefetch_prefetched s.cur (s.engCrd .cpy h [] 0 0) (s.jobOf (Instr.cpref h o).word)
    have hcur : (s.cpyPrefetch s.cur (s.engCrd .cpy h [] 0 0) (s.jobOf (Instr.cpref h o).word)).cur = s.cur := by rw [p.only]
    refine ⟨hraises, fun h1 h2 => ⟨p.only, ?_, p.others, fun es c' m => ?_⟩⟩
    · have hcore := p.core
      rw [State.me, hcur]
      exact hcore
    · exact hdoes h1 h2 es c' m

end Sys2Proof.Machine
end

section
/-! PROOFS of the PerformedAtHome statement (O42): entries at their homes. -/

set_option Elab.async false

namespace Sys2Proof.Machine

/-! ### Bytes stored (R149) -/

theorem State.byte_putCells_mem (s : State) {cs : List (Nat × Byte)} (hn : (cs.map (·.1)).Nodup) {x : Nat × Byte} (hx : x ∈ cs) : (s.putCells cs).byte x.1 = x.2 := by
  induction cs generalizing s with
  | nil => cases hx
  | cons c cs ih =>
    obtain ⟨hc, hn⟩ := List.nodup_cons.1 hn
    rw [State.putCells]
    rcases List.mem_cons.1 hx with rfl | hx
    · rw [State.byte_putCells_of_notMem _ _ (k := x.1) fun d hd hk => hc (List.mem_map.2 ⟨d, hd, hk⟩), State.byte_setByte_self]
    · exact ih _ hn hx
theorem State.writeBytes_stored (s : State) (cs : List (Nat × Byte)) : Stored s (s.writeBytes cs) cs := by
  obtain ⟨m, hm⟩ := s.putCells_mem_only cs
  have hbyte (k : Nat) : (s.writeBytes cs).byte k = (s.putCells cs).byte k := by
    unfold State.writeBytes
    split <;> rfl
  refine ⟨fun a ha => ?_, fun hn x hx => ?_, fun l => ?_, ?_⟩
  · rw [hbyte, State.byte_putCells_of_notMem _ _ ha]
  · rw [hbyte, State.byte_putCells_mem _ hn hx]
  · unfold State.writeBytes
    split
    next he =>
      have h0 : s.poison = [] := List.isEmpty_iff.1 he
      rw [State.putCells_poison, h0]
      simp [SMap.get]
    · have hf := SMap.get_filter_key false s.poison (fun l => !((List.range 64).all fun i => (cs.map (·.1)).contains (64 * l + i))) l
      show SMap.get false (List.filter _ (s.putCells cs).poison) l = _
      rw [State.putCells_poison, hf]
      cases (List.range 64).all fun i => (cs.map (·.1)).contains (64 * l + i) <;> rfl
  · unfold State.writeBytes
    split
    · rw [hm]
    · rw [hm]
      rfl

/-! ### An entry that may be performed -/

section
variable {s : State} {h : Held} (m : HomeMay s h)
include m
theorem HomeMay.keeps : (!isSup h.core && !s.live h.cid h.inc) = false := by
  rcases m.live with hs | hl
  · rw [hs]; rfl
  · rw [hl, Bool.not_true, Bool.and_false]
theorem HomeMay.goes : (!s.homeOn h || !s.heldReady h || s.blocked h []) = false := by rw [m.on, m.ready, m.free]; rfl
end

/-- The effects that leave their device or run on in the mesh: an entry that is sent. -/
def Act.isSent : Act → Bool
  | .atomic .. => true
  | .rload .. => true
  | .rstore .. => true
  | .ratomic .. => true
  | .net .. => true
  | _ => false
/-- A copy word whose packets go to another device. -/
def Act.farCopy (own : BitVec 8) : Act → Bool
  | .cpy j => j.isRemote && j.dev != own
  | _ => false

section
variable {s : State} {h : Held} (m : HomeMay s h)
include m
/-- What runs at its home on this device: every entry but those that are sent. -/
theorem HomeMay.performed (hsent : h.act.isSent = false) (hfar : h.act.farCopy s.conf.devnum = false) : exec (.performedAtHome h.id) s = .next (s.performHere h) := by
  show execPerformedAtHome h.id s = _
  unfold execPerformedAtHome
  rw [m.found]
  dsimp only
  rw [m.keeps, if_neg Bool.false_ne_true]
  cases ha : h.act <;> rw [ha] at hsent hfar
  case cpy j => exact if_neg (by rw [show (j.isRemote && j.dev != s.conf.devnum) = false from hfar]; exact Bool.false_ne_true)
  all_goals cases hsent
theorem HomeMay.sent (hsent : h.act.isSent = true) : exec (.performedAtHome h.id) s = .next (s.sendOne h) := by
  show execPerformedAtHome h.id s = _
  unfold execPerformedAtHome
  rw [m.found]
  dsimp only
  rw [m.keeps, if_neg Bool.false_ne_true]
  cases ha : h.act <;> rw [ha] at hsent
  all_goals cases hsent
end

/-! ### Stores, reads and tensor writes -/

section
variable {s : State} {h : Held} (m : HomeMay s h)

theorem State.heldSee_only (s : State) (h : Held) : s.heldSee h = { s with l2 := (s.heldSee h).l2 } := by
  unfold State.heldSee
  split
  · exact s.l2See_only ..
  · rfl

theorem State.dropFly_eq (s : State) (k : Nat) : s.dropFly k = { s with flying := s.flying.filter fun x => x.id ≠ k } := by
  have hf : (fun x : Held => x.id != k) = fun x => decide (x.id ≠ k) := funext fun x => by
    by_cases hx : x.id = k <;> simp [hx]
  rw [State.dropFly, hf]

/-- The bytes that a raw access of an entry reaches (R143). -/
theorem State.regrant_granted {ks g : List Nat} {a : Word} {n : Nat} {p : Perm} (hg : if isSup h.core = true then s.coreKeys h.core a n p = .inl g else g = ks) :
    ∃ x, s.regrant h a n p = .inl x ∧ x.getD ks = g := by
  unfold State.regrant
  split
  next hs =>
    rw [if_pos hs] at hg
    rw [hg]
    exact ⟨_, rfl, rfl⟩
  next hs =>
    rw [if_neg hs] at hg
    exact ⟨none, rfl, hg.symm⟩
theorem State.regrant_refused {a : Word} {n : Nat} {p : Perm} {code : BitVec 8} (hs : isSup h.core = true) (hc : s.coreKeys h.core a n p = .inr code) :
    s.regrant h a n p = .inr code := by
  unfold State.regrant
  rw [if_pos hs, hc]

include m
theorem HomeMay.store {a : Word} {n : Nat} {v : Word} {ks : List Nat} (ha : h.act = .store a n v ks) :
    (∀ g, (if isSup h.core = true then s.coreKeys h.core a n .w = .inl g else g = ks) →
      ∃ u, exec (.performedAtHome h.id) s = .next (u.finishFly h) ∧ Stored (s.heldSee h) u (g.zip (leBytes v.toNat n))) ∧
    ∀ code, isSup h.core = true → s.coreKeys h.core a n .w = .inr code → exec (.performedAtHome h.id) s = .next (s.failFly h code) := by
  rw [m.performed (by rw [ha]; rfl) (by rw [ha]; rfl), State.performHere, m.keeps, m.goes, if_neg Bool.false_ne_true, if_neg Bool.false_ne_true, ha]
  dsimp only
  refine ⟨fun g hg => ?_, fun code hs hc => ?_⟩
  · obtain ⟨x, hx, hxg⟩ := State.regrant_granted hg
    rw [hx]
    dsimp only
    rw [hxg]
    exact ⟨_, rfl, State.writeBytes_stored ..⟩
  · rw [State.regrant_refused hs hc]
theorem HomeMay.ldra {a : Word} {d : BitVec 6} {ks : List Nat} (ha : h.act = .ldra a d ks) :
    (∀ g, (if isSup h.core = true then s.coreKeys h.core a 8 .r = .inl g else g = ks) → s.anyPoison g = false → exec (.performedAtHome h.id) s = .next
      { s.heldSee h with flying := s.flying.filter fun x => x.id ≠ h.id, areqs := s.areqs ++ [{ tree := .one h, done := true, val := bitsOf 64 (g.map s.byte) }] }) ∧
    ∀ code, isSup h.core = true → s.coreKeys h.core a 8 .r = .inr code → exec (.performedAtHome h.id) s = .next (s.failFly h code) := by
  rw [m.performed (by rw [ha]; rfl) (by rw [ha]; rfl), State.performHere, m.keeps, m.goes, if_neg Bool.false_ne_true, if_neg Bool.false_ne_true, ha]
  dsimp only
  refine ⟨fun g hg hp => ?_, fun code hs hc => ?_⟩
  · obtain ⟨x, hx, hxg⟩ := State.regrant_granted hg
    rw [hx]
    dsimp only
    have hfly : (s.heldSee h).flying = s.flying := by rw [State.heldSee_only]
    rw [hxg, hp, if_neg Bool.false_ne_true, State.dropFly_eq, hfly]
  · rw [State.regrant_refused hs hc]
theorem HomeMay.twrite {t : BitVec 10} {cs : List TCell} {d : TDesc} {u : State} {runs : List (Nat × BitVec 36)} {ks : List (Nat × Byte)} (ha : h.act = .twrite t cs)
    (hd : s.tdesc h.core h.e t = some d) (known : List (Nat × BitVec 36)) (hknown : known = (runsOf (s.runHolder h).runs true t).filter fun r => (tilesOf cs).contains r.1)
    (hw : s.writeTiles h.core (claimKey h.id) h.eng h.e d t (coversRun d cs) ((tilesOf cs).filter fun k => !known.any fun r => r.1 == k) known = .inr (u, runs))
    (hks : u.cellKeys h.cid runs cs = some ks) :
    let waits := h.eng = .acc ∧ (u.core h.core).unlanded h.id (ks.map (·.1)) = true
    let w := u.l2See (u.ctx h.cid).pid true (lineHeads ((cellGpas runs cs).zip (ks.map (·.1))))
    let w' := if (s.runHolder h).id = h.id then w else w.setFly { s.runHolder h with runs := keepRuns (s.runHolder h).runs true t runs }
    (waits → exec (.performedAtHome h.id) s = .next u) ∧ (¬waits → ∃ v, exec (.performedAtHome h.id) s = .next (v.finishFly h) ∧
      Stored w' v ((ks.zip cs).map fun (k, c) => (k.1, mergeByte (u.byte k.1) c.v c.mask))) := by
  rw [m.performed (by rw [ha]; rfl) (by rw [ha]; rfl), State.performHere, m.keeps, m.goes, if_neg Bool.false_ne_true, if_neg Bool.false_ne_true, ha]
  dsimp only
  unfold State.performTwrite
  rw [hd]
  dsimp only
  rw [← hknown, hw]
  dsimp only
  rw [hks]
  dsimp only
  have hwait : (h.eng == .acc && (u.core h.core).unlanded h.id (ks.map (·.1))) = true ↔ h.eng = .acc ∧ (u.core h.core).unlanded h.id (ks.map (·.1)) = true := by
    rw [Bool.and_eq_true, beq_iff_eq]
  refine ⟨fun hn => by rw [if_pos (hwait.2 hn)], fun hn => ?_⟩
  rw [if_neg fun hc => hn (hwait.1 hc)]
  simp only [beq_iff_eq]
  have hbyte : (if (s.runHolder h).id = h.id then u.l2See (u.ctx h.cid).pid true (lineHeads ((cellGpas runs cs).zip (ks.map (·.1))))
      else (u.l2See (u.ctx h.cid).pid true (lineHeads ((cellGpas runs cs).zip (ks.map (·.1))))).setFly
        { s.runHolder h with runs := keepRuns (s.runHolder h).runs true t runs }).byte = u.byte := by
    rw [State.l2See_only]
    split <;> rfl
  refine ⟨_, rfl, ?_⟩
  simp only [hbyte]
  exact State.writeBytes_stored ..

/-! ### Table, phaser and cache words (R340, R341, R343, R346, R347) -/

theorem HomeMay.bytes {b : Bytes} (ha : h.act = .bytes b) : ∃ u, exec (.performedAtHome h.id) s = .next (u.finishFly h) ∧ Stored s u b := by
  rw [m.performed (by rw [ha]; rfl) (by rw [ha]; rfl), State.performHere, m.keeps, m.goes, if_neg Bool.false_ne_true, if_neg Bool.false_ne_true, ha]
  exact ⟨_, rfl, State.writeBytes_stored ..⟩
theorem HomeMay.tdset {t : BitVec 10} {x : BitVec 512} (ha : h.act = .tdset t x) : exec (.performedAtHome h.id) s = .next ((s.putDesc h t x).finishFly h) := by
  rw [m.performed (by rw [ha]; rfl) (by rw [ha]; rfl), State.performHere, m.keeps, m.goes, if_neg Bool.false_ne_true, if_neg Bool.false_ne_true, ha]
/-- TDINV clears bit 304, which is VALID (R203). -/
theorem HomeMay.tdinv {t : BitVec 10} (ha : h.act = .tdinv t) :
    let x : BitVec 512 := BitVec.ofNat 512 (s.gpaNum h.cid ((s.ctx h.cid).ttab.toNat + 64 * t.toNat) 64)
    ∃ y : BitVec 512, y.getLsbD 304 = false ∧ (∀ i, i ≠ 304 → y.getLsbD i = x.getLsbD i) ∧ exec (.performedAtHome h.id) s = .next ((s.putDesc h t y).finishFly h) := by
  intro x
  rw [m.performed (by rw [ha]; rfl) (by rw [ha]; rfl), State.performHere, m.keeps, m.goes, if_neg Bool.false_ne_true, if_neg Bool.false_ne_true, ha]
  have hbit : (1#512 <<< 304) = BitVec.twoPow 512 304 := rfl
  refine ⟨x &&& ~~~(1#512 <<< 304), by rw [hbit]; simp, fun i hi => ?_, rfl⟩
  rw [hbit, BitVec.getLsbD_and, BitVec.getLsbD_not, BitVec.getLsbD_twoPow, show decide (304 = i) = false from decide_eq_false hi.symm, Bool.and_false, Bool.not_false,
    Bool.and_true]
  by_cases hlt : i < 512
  · rw [decide_eq_true hlt, Bool.and_true]
  · rw [x.getLsbD_of_ge i (Nat.not_lt.1 hlt), Bool.false_and]
section
variable {t : BitVec 10} {k : Nat} {d : TDesc} (hd : s.homeDesc h t = some d) (hk : k < d.tiles) (hpage : s.pageOk h.cid (d.entAddr k) = true)
include hd hk hpage
theorem HomeMay.ttset {v : BitVec 128} (ha : h.act = .ttset t k v) :
    (¬(entMig (s.entAt h.cid (d.entAddr k)) = true ∨ s.writing h.cid t k = true) →
      exec (.performedAtHome h.id) s = .next ((s.putEnt h.cid t k (d.entAddr k) v).finishFly h)) ∧
    (entMig (s.entAt h.cid (d.entAddr k)) = true ∨ s.writing h.cid t k = true → exec (.performedAtHome h.id) s = .next s) := by
  rw [m.performed (by rw [ha]; rfl) (by rw [ha]; rfl), State.performHere, m.keeps, m.goes, if_neg Bool.false_ne_true, if_neg Bool.false_ne_true, ha]
  dsimp only
  unfold State.performTile
  rw [hd]
  dsimp only
  rw [if_neg (Nat.not_le.2 hk), hpage, Bool.not_true, if_neg Bool.false_ne_true, ha]
  refine ⟨fun hn => congrArg _ (if_neg ?_), fun hn => congrArg _ (if_pos ?_)⟩
  · rw [Bool.or_eq_true]
    exact hn
  · rw [Bool.or_eq_true]
    exact hn
theorem HomeMay.ttref (ha : h.act = .ttref t k) :
    let x := s.entAt h.cid (d.entAddr k)
    (d.phased = true ∨ entIdx x = 0 ∨ s.rc h.cid (entIdx x) = 0xFFFFFFFF → exec (.performedAtHome h.id) s = .next (s.failFly h 0x01)) ∧
    (d.phased = false → entIdx x ≠ 0 → s.rc h.cid (entIdx x) ≠ 0xFFFFFFFF →
      exec (.performedAtHome h.id) s = .next ((s.setRc h.cid (entIdx x) (s.rc h.cid (entIdx x) + 1)).finishFly h)) := by
  rw [m.performed (by rw [ha]; rfl) (by rw [ha]; rfl), State.performHere, m.keeps, m.goes, if_neg Bool.false_ne_true, if_neg Bool.false_ne_true, ha]
  dsimp only
  unfold State.performTile
  rw [hd]
  dsimp only
  rw [if_neg (Nat.not_le.2 hk), hpage, Bool.not_true, if_neg Bool.false_ne_true, ha]
  have hbad : (d.phased || entIdx (s.entAt h.cid (d.entAddr k)) == 0 || s.rc h.cid (entIdx (s.entAt h.cid (d.entAddr k))) == 0xFFFFFFFF) = true ↔
      d.phased = true ∨ entIdx (s.entAt h.cid (d.entAddr k)) = 0 ∨ s.rc h.cid (entIdx (s.entAt h.cid (d.entAddr k))) = 0xFFFFFFFF := by
    rw [Bool.or_eq_true, Bool.or_eq_true, beq_iff_eq, beq_iff_eq, or_assoc]
  refine ⟨fun hb => congrArg _ (if_pos (hbad.2 hb)), fun h1 h2 h3 => congrArg _ (if_neg fun hc => ?_)⟩
  rcases hbad.1 hc with h | h | h
  · exact absurd (h1.symm.trans h) Bool.false_ne_true
  · exact h2 h
  · exact h3 h
theorem HomeMay.ttunref (ha : h.act = .ttunref t k) :
    let x := s.entAt h.cid (d.entAddr k)
    let held := entMig x = true ∨ s.writing h.cid t k = true
    let bad := entSh x = true ∧ (entIdx x = 0 ∨ s.rc h.cid (entIdx x) = 0)
    (entAbsent x = true → exec (.performedAtHome h.id) s = .next (s.finishFly h)) ∧
    (entAbsent x = false → held → exec (.performedAtHome h.id) s = .next s) ∧
    (entAbsent x = false → ¬held →
      (bad → exec (.performedAtHome h.id) s = .next (s.failFly h 0x01)) ∧
      (¬bad → s.quarFits h.cid (s.dropAdds h.cid x) = false → exec (.performedAtHome h.id) s = .next s) ∧
      (¬bad → s.quarFits h.cid (s.dropAdds h.cid x) = true →
        exec (.performedAtHome h.id) s = .next (((s.putEnt h.cid t k (d.entAddr k) 0).dropRun h.cid h.e x (d.pool (entTier x))).finishFly h))) := by
  rw [m.performed (by rw [ha]; rfl) (by rw [ha]; rfl), State.performHere, m.keeps, m.goes, if_neg Bool.false_ne_true, if_neg Bool.false_ne_true, ha]
  dsimp only
  unfold State.performTile
  rw [hd]
  dsimp only
  rw [if_neg (Nat.not_le.2 hk), hpage, Bool.not_true, if_neg Bool.false_ne_true, ha]
  dsimp only
  generalize s.entAt h.cid (d.entAddr k) = x
  have hheld : (entMig x || s.writing h.cid t k) = true ↔ entMig x = true ∨ s.writing h.cid t k = true := by rw [Bool.or_eq_true]
  have hbad : (entSh x && (entIdx x == 0 || s.rc h.cid (entIdx x) == 0)) = true ↔ entSh x = true ∧ (entIdx x = 0 ∨ s.rc h.cid (entIdx x) = 0) := by
    rw [Bool.and_eq_true, Bool.or_eq_true, beq_iff_eq, beq_iff_eq]
  refine ⟨fun h0 => by rw [h0, if_pos rfl], fun h0 hh => by rw [h0, if_neg Bool.false_ne_true, if_pos (hheld.2 hh)], fun h0 hn => ?_⟩
  rw [h0, if_neg Bool.false_ne_true, if_neg fun hc => hn (hheld.1 hc)]
  unfold State.unref
  refine ⟨fun hb => by rw [if_pos (hbad.2 hb)]; rfl, fun hb hq => ?_, fun hb hq => ?_⟩
  · rw [if_neg fun hc => hb (hbad.1 hc), hq]
    rfl
  · rw [if_neg fun hc => hb (hbad.1 hc), hq]
    rfl
end

section
variable {ph : BitVec 12} {k : Task} (hk : (s.core h.core).task = some k)
include hk
theorem HomeMay.phreg {mode : BitVec 2} (ha : h.act = .phreg ph mode) :
    let r := (s.phaser ph).register h.cid h.inc { launch := k.launch, team := k.team, t := k.t, core := h.core, mode := mode } k
    (∀ p, r = .ok p → exec (.performedAtHome h.id) s = .next ((s.setPhaser ph p).finishFly h)) ∧
    (r = .priv → exec (.performedAtHome h.id) s = .next (s.failFly h 0x14)) ∧ (r = .illegal → exec (.performedAtHome h.id) s = .next (s.failFly h 0x01)) := by
  rw [m.performed (by rw [ha]; rfl) (by rw [ha]; rfl), State.performHere, m.keeps, m.goes, if_neg Bool.false_ne_true, if_neg Bool.false_ne_true, ha]
  dsimp only
  unfold State.performPhaser
  rw [hk]
  dsimp only
  rw [ha]
  dsimp only
  generalize (s.phaser ph).register h.cid h.inc { launch := k.launch, team := k.team, t := k.t, core := h.core, mode := mode } k = r
  exact ⟨fun p hr => by rw [hr], fun hr => by rw [hr]; rfl, fun hr => by rw [hr]; rfl⟩
theorem HomeMay.phdrop (ha : h.act = .phdrop ph) :
    ((s.phaser ph).owner ≠ some (h.cid, h.inc) → exec (.performedAtHome h.id) s = .next (s.failFly h 0x14)) ∧
    ((s.phaser ph).owner = some (h.cid, h.inc) → ((s.phaser ph).dropTask k = none → exec (.performedAtHome h.id) s = .next (s.failFly h 0x01)) ∧
      ∀ p, (s.phaser ph).dropTask k = some p → exec (.performedAtHome h.id) s = .next ((s.setPhaser ph p).finishFly h)) := by
  rw [m.performed (by rw [ha]; rfl) (by rw [ha]; rfl), State.performHere, m.keeps, m.goes, if_neg Bool.false_ne_true, if_neg Bool.false_ne_true, ha]
  dsimp only
  unfold State.performPhaser
  rw [hk]
  dsimp only
  rw [ha]
  dsimp only
  refine ⟨fun ho => by rw [if_pos (bne_iff_ne.2 ho)]; rfl, fun ho => ?_⟩
  rw [if_neg (by rw [ho]; simp)]
  exact ⟨fun hp => by rw [hp]; rfl, fun p hp => by rw [hp]⟩
end

theorem HomeMay.dinv {a : Word} {k : Nat} (ha : h.act = .dinv a k) : ∃ u : State, exec (.performedAtHome h.id) s = .next (u.finishFly h) ∧
    u = { s with l2 := u.l2, oreqs := u.oreqs } ∧ ∀ l, l ∈ u.l2 ↔ l ∈ s.l2 ∧
      ¬(l.dev.isSome = true ∧ l.pid = pidTag (s.ctx h.cid).pid ∧ a.toNat / 64 ≤ l.addr ∧ l.addr < a.toNat / 64 + k) := by
  rw [m.performed (by rw [ha]; rfl) (by rw [ha]; rfl), State.performHere, m.keeps, m.goes, if_neg Bool.false_ne_true, if_neg Bool.false_ne_true, ha]
  refine ⟨_, rfl, rfl, fun l => ?_⟩
  show l ∈ s.l2.filter _ ↔ _
  rw [List.mem_filter, Bool.not_eq_true', Bool.eq_false_iff, ne_eq, Bool.and_eq_true, Bool.and_eq_true, Bool.and_eq_true, beq_iff_eq, decide_eq_true_iff, decide_eq_true_iff,
    and_assoc]

/-! ### Copies (R440 to R448) -/

section
variable {j : CpyJob} (ha : h.act = .cpy j)
include ha
theorem HomeMay.here (hnear : j.isRemote = false ∨ j.dev = s.conf.devnum) : exec (.performedAtHome h.id) s = .next (s.performHere h) :=
  m.performed (by rw [ha]; rfl) (by
    rw [ha]
    show (j.isRemote && j.dev != s.conf.devnum) = false
    rcases hnear with hr | hd
    · rw [hr, Bool.false_and]
    · rw [hd, bne_self_eq_false, Bool.and_false])
theorem HomeMay.copy (hnear : j.isRemote = false ∨ j.dev = s.conf.devnum) (h0 : j.opc ≠ 0x70) (h4 : j.opc ≠ 0x74) (h5 : j.opc ≠ 0x75) :
    let n := j.total (s.lenDesc h.core h.e j)
    (n ≤ h.k → exec (.performedAtHome h.id) s = .next (s.finishFly h)) ∧
    (h.k < n → ∀ u, s.moveOne h.core (claimKey h.id) h.e j false h.runs (j.move h.core [] (s.lenDesc h.core h.e j) h.k)
      (fun runs u => .go (u.flyStep { h with runs := runs } n)) = .go u → exec (.performedAtHome h.id) s = .next u) := by
  have hfar : (j.isRemote && j.dev != s.conf.devnum) = false := by
    rcases hnear with hr | hd
    · rw [hr, Bool.false_and]
    · rw [hd, bne_self_eq_false, Bool.and_false]
  have hcopy : s.performHere h = s.performCopy h j := by
    rw [State.performHere, m.keeps, m.goes, if_neg Bool.false_ne_true, if_neg Bool.false_ne_true, ha]
    dsimp only
    rw [if_neg (by simpa using h4), if_neg (by simpa using h5), if_neg (by simpa using h0), hfar, if_neg Bool.false_ne_true]
  rw [m.here ha hnear, hcopy, State.performCopy]
  refine ⟨fun hn => by rw [if_pos hn], fun hn u hu => ?_⟩
  rw [if_neg (Nat.not_le.2 hn), hu]
theorem HomeMay.exchange : (j.opc = 0x74 → exec (.performedAtHome h.id) s = .next (s.performShare h j)) ∧
    (j.opc = 0x75 → exec (.performedAtHome h.id) s = .next (s.performFree h j)) ∧ (j.opc = 0x70 → exec (.performedAtHome h.id) s = .next (s.performExch h j)) := by
  have hnear {k : Nat} (hk : j.opc = k) (h1 : k ≠ 0x6E) (h2 : k ≠ 0x6F) : j.isRemote = false := by
    rw [CpyJob.isRemote, hk, Bool.or_eq_false_iff, beq_eq_false_iff_ne, beq_eq_false_iff_ne]
    exact ⟨h1, h2⟩
  refine ⟨fun ho => ?_, fun ho => ?_, fun ho => ?_⟩
  all_goals
    rw [m.here ha (.inl (hnear ho (by decide) (by decide))), State.performHere, m.keeps, m.goes, if_neg Bool.false_ne_true, if_neg Bool.false_ne_true, ha]
    dsimp only
    rw [ho]
    rfl
theorem HomeMay.packet (hr : j.isRemote = true) (hd : j.dev ≠ s.conf.devnum) : exec (.performedAtHome h.id) s = .next (s.sendPacket h j) := by
  show execPerformedAtHome h.id s = _
  unfold execPerformedAtHome
  rw [m.found]
  dsimp only
  rw [m.keeps, if_neg Bool.false_ne_true, ha]
  dsimp only
  rw [hr, if_pos (by simpa using hd), m.ready, m.free, Bool.and_false]
  rfl
end

/-! ### What is sent (R64, R237, R242) -/

theorem HomeMay.sends : (!s.heldReady h || (h.act.farLine.isSome && s.blocked h [])) = false := by rw [m.ready, m.free, Bool.and_false]; rfl
theorem HomeMay.atomic {op : AtomOp} {a : Word} {d : BitVec 6} {x y : Word} {nc : Bool} {ks : List Nat} (ha : h.act = .atomic op a d x y nc ks) :
    exec (.performedAtHome h.id) s = .next { s with flying := s.flying.filter fun x => x.id ≠ h.id, areqs := s.areqs ++
      [{ op := op, addr := a, x := x, y := y, nc := nc, ks := ks, tree := .one h, came := s.cycle }] } := by
  rw [m.sent (by rw [ha]; rfl), State.sendOne, m.sends, if_neg Bool.false_ne_true, State.dropFly_eq, ha]
theorem HomeMay.net {op : BitVec 3} {ws : List Word} (ha : h.act = .net op ws) :
    exec (.performedAtHome h.id) s = .next (({ s with flying := s.flying.filter fun x => x.id ≠ h.id } : State).netStart h op.toNat ws) := by
  rw [m.sent (by rw [ha]; rfl), State.sendOne, m.sends, if_neg Bool.false_ne_true, State.dropFly_eq, ha]

section
variable {dev : BitVec 8}
theorem HomeMay.rload {a : Word} {d : BitVec 6} (ha : h.act = .rload dev a d) :
    let gone : State := { s with flying := s.flying.filter fun x => x.id ≠ h.id }
    let line := s.l2Find (some dev) (s.ctx h.cid).pid a.toNat
    let coming := ∃ o ∈ s.oreqs, o.keep = true ∧ o.fetches dev (a.toNat / 64) = true ∧ pidTag (s.ctx o.held.cid).pid = pidTag (s.ctx h.cid).pid
    let asks (g : State) : Prop := s.seqRoom dev h.cid h.inc 0 = true → exec (.performedAtHome h.id) s = .next (g.request h { kind := 1, dstdev := dev, addr := a } [])
    (line = none → coming → exec (.performedAtHome h.id) s = .next s) ∧ (line = none → ¬coming → asks gone) ∧
    (∀ l, line = some l → Config.freeBit (s.freeCtr + h.id) = true → asks { gone with l2 := s.l2.erase l }) ∧
    (∀ l, line = some l → Config.freeBit (s.freeCtr + h.id) = false → exec (.performedAtHome h.id) s = .next { gone with
      l2 := l :: s.l2.erase l
      areqs := s.areqs ++ [{ tree := .one h, done := true, val := l.data.extractLsb' (8 * (a.toNat % 64)) 64 }] }) := by
  intro gone line coming asks
  have hline : gone.l2Find (some dev) (gone.heldPid h) a.toNat = line := rfl
  have hcoming : (gone.oreqs.any fun o => o.keep && o.fetches dev (a.toNat / 64) && pidTag (gone.heldPid o.held) == pidTag (gone.heldPid h)) = true ↔ coming := by
    rw [List.any_eq_true]
    refine exists_congr fun o => and_congr_right fun _ => ?_
    rw [Bool.and_eq_true, Bool.and_eq_true, beq_iff_eq, and_assoc]
    rfl
  unfold asks
  rw [m.sent (by rw [ha]; rfl), State.sendOne, m.sends, if_neg Bool.false_ne_true, State.dropFly_eq, ha]
  dsimp only
  rw [show State.remoteLine { s with flying := s.flying.filter fun x => x.id ≠ h.id } h dev a.toNat = gone.remoteLine h dev a.toNat from rfl, State.remoteLine, hline]
  refine ⟨fun hn hc => ?_, fun hn hc hroom => ?_, fun l hl hfree hroom => ?_, fun l hl hfree => ?_⟩
  · rw [hn]
    dsimp only
    rw [if_pos (hcoming.2 hc)]
  · rw [hn]
    dsimp only
    rw [if_neg fun hx => hc (hcoming.1 hx)]
    dsimp only
    rw [hroom, if_pos rfl]
  · rw [hl]
    dsimp only
    rw [show Config.freeBit (gone.freeCtr + h.id) = true from hfree, if_pos rfl]
    dsimp only
    rw [hroom, if_pos rfl]
  · rw [hl]
    dsimp only
    rw [show Config.freeBit (gone.freeCtr + h.id) = false from hfree, if_neg Bool.false_ne_true]
    rfl
variable (hroom : s.seqRoom dev h.cid h.inc 0 = true)
include hroom
theorem HomeMay.rstore {a v : Word} (ha : h.act = .rstore dev a v) :
    exec (.performedAtHome h.id) s = .next ((({ s with flying := s.flying.filter fun x => x.id ≠ h.id } : State).touchLine h dev a.toNat (some v)).request h
      { kind := 2, dstdev := dev, addr := a, opnd := v } []) := by
  rw [m.sent (by rw [ha]; rfl), State.sendOne, m.sends, if_neg Bool.false_ne_true, State.dropFly_eq, ha]
  dsimp only
  rw [hroom, if_pos rfl]
theorem HomeMay.ratomic {op : AtomOp} {a : Word} {d : BitVec 6} {x y : Word} {nc : Bool} (ha : h.act = .ratomic dev op a d x y nc) :
    exec (.performedAtHome h.id) s = .next ((({ s with flying := s.flying.filter fun x => x.id ≠ h.id } : State).touchLine h dev a.toNat none).request h
      { kind := 3, dstdev := dev, addr := a, opnd := x, opnd2 := y, aop := op.code.1, aq := op.code.2, nc := nc } []) := by
  rw [m.sent (by rw [ha]; rfl), State.sendOne, m.sends, if_neg Bool.false_ne_true, State.dropFly_eq, ha]
  dsimp only
  rw [hroom, if_pos rfl]
end
end

/-! ### Entries that are dropped, or that wait (R131, R226) -/

section
variable {s : State} {h : Held} (hfound : s.flying.find? (fun x => x.id == h.id) = some h)
include hfound
theorem performed_dropped (hs : isSup h.core = false) (hl : s.live h.cid h.inc = false) :
    exec (.performedAtHome h.id) s = .next { s with flying := s.flying.filter fun x => x.id ≠ h.id } := by
  show execPerformedAtHome h.id s = _
  unfold execPerformedAtHome
  rw [hfound]
  dsimp only
  rw [hs, hl, State.dropFly_eq]
  rfl
theorem performed_waits (hlive : isSup h.core = true ∨ s.live h.cid h.inc = true) (hready : s.heldReady h = false) : exec (.performedAtHome h.id) s = .next s := by
  have hkeep : (!isSup h.core && !s.live h.cid h.inc) = false := by
    rcases hlive with hs | hl
    · rw [hs]; rfl
    · rw [hl, Bool.not_true, Bool.and_false]
  have hhere : s.performHere h = s := by
    unfold State.performHere
    rw [hkeep, if_neg Bool.false_ne_true, hready, Bool.not_false, Bool.or_true, Bool.true_or, if_pos rfl]
  have hsend : s.sendOne h = s := by
    unfold State.sendOne
    rw [hready]
    rfl
  show execPerformedAtHome h.id s = _
  unfold execPerformedAtHome
  rw [hfound]
  dsimp only
  rw [hkeep, if_neg Bool.false_ne_true, hready, hhere, hsend]
  cases h.act
  case cpy j =>
    dsimp only
    split <;> rfl
  all_goals rfl
end

/-- Settles O42: an entry that may be performed has the effect of its kind, or is sent; one that may not waits, and one of an incarnation that is over is
dropped. -/
theorem performedAtHome : Obligations.PerformedAtHome := by
  unfold Obligations.PerformedAtHome
  refine ⟨fun s h hfound => ⟨performed_dropped hfound, performed_waits hfound⟩, fun s h m => ?_⟩
  have hfails (code : BitVec 8) : s.failFly h code =
      (((({ s with flying := s.flying.filter fun x => x.id ≠ h.id } : State).heldFail h code h.w 0).parentDone h).unparkOp h) := by
    rw [State.failFly, State.dropFly_eq]
  simp only [← hfails]
  refine ⟨?_, fun a n v ks ha => m.store ha, fun b ha => m.bytes ha, fun a d ks ha => m.ldra ha, fun t cs d u runs ks ha hd hw hks => m.twrite ha hd _ rfl hw hks,
    fun t x ha => m.tdset ha, fun t ha => m.tdinv ha, fun t d k hd hk hp => ⟨fun v ha => m.ttset hd hk hp ha, m.ttref hd hk hp, m.ttunref hd hk hp⟩,
    fun ph mode k ha hk => m.phreg hk ha, fun ph k ha hk => m.phdrop hk ha, ?_, fun a k ha => m.dinv ha, ?_, fun j ha => m.copy ha, fun j ha => m.exchange ha,
    fun j ha => m.packet ha, fun op a d x y nc ks ha => m.atomic ha, fun dev a d ha => m.rload ha, fun dev a v ha hroom => m.rstore hroom ha,
    fun dev op a d x y nc ha hroom => m.ratomic hroom ha, fun op ws ha => m.net ha⟩
  · have ho : (s.heldSee h).oreqs = s.oreqs := by rw [s.heldSee_only h]
    rw [ho]
    exact s.heldSee_only h
  · intro a k ha
    rw [m.performed (by rw [ha]; rfl) (by rw [ha]; rfl), State.performHere, m.keeps, m.goes, if_neg Bool.false_ne_true, if_neg Bool.false_ne_true, ha]
  · intro sc a k ha
    rw [m.performed (by rw [ha]; rfl) (by rw [ha]; rfl), State.performHere, m.keeps, m.goes, if_neg Bool.false_ne_true, if_neg Bool.false_ne_true, ha]

end Sys2Proof.Machine
end

section
/-! PROOFS of the TileCompletions statement (O44): copies, fills and migrations of tiles, landings, copy granules and circular-buffer fills. -/

set_option Elab.async false

namespace Sys2Proof.Machine

/-! ### Retirement with a signal (R170) -/

/-- A word that retires with its signal changes the engine, tokens, the log and the time of the last retirement of its core alone. -/
theorem State.retireIss_signal (s : State) (n : Nat) (eng : Eng) (id : Nat) {sig : BitVec 8} (e : Word) (ids : List Nat) (slot : BitVec 16)
    (h : sig = 0 ∨ ((s.core n).tok.get {} sig.toNat).count.toNat < 0xFFFF) :
    (∃ y tok peel idle hung, ((s.retireIss n eng id).signal n eng sig.toNat 1 e ids slot).core n =
      { (s.core n).setEng eng y with tok := tok, peel := peel, idle := idle, hung := hung }) ∧
    (sig ≠ 0 → ((((s.retireIss n eng id).signal n eng sig.toNat 1 e ids slot).core n).tok.get {} sig.toNat).count.toNat = ((s.core n).tok.get {} sig.toNat).count.toNat + 1) := by
  obtain ⟨-, y, hc, -⟩ := s.retireIss_core n eng id
  have htok : ((s.retireIss n eng id).core n).tok = (s.core n).tok := by rw [hc]; cases eng <;> rfl
  rw [← htok] at h ⊢
  have t := (s.retireIss n eng id).signal_touch n eng eng sig.toNat e ids slot (h.imp (fun hz => by rw [hz]; rfl) fun hc => hc)
  refine ⟨?_, fun hs => ?_⟩
  · have hcore := t.core
    generalize ((s.retireIss n eng id).signal n eng sig.toNat 1 e ids slot).core n = c at hcore ⊢
    rw [hc] at hcore
    refine ⟨{ y with elast := (c.eng eng).elast }, c.tok, c.peel, s.cycle, false, hcore.trans ?_⟩
    cases eng <;> rfl
  · rw [State.signal_count _ n eng sig e ids slot h, if_pos ⟨hs, rfl⟩]

/-! ### Operations on tiles (R214, R216, R235) -/

theorem State.dropTileOp_eq (s : State) (t : TileOp) : s.dropTileOp t = { s with tileOps := s.tileOps.filter fun o => o ≠ t } := by
  have hf : (fun o : TileOp => o != t) = fun o => decide (o ≠ t) := funext fun o => by
    by_cases ho : o = t <;> simp [ho]
  rw [State.dropTileOp, hf]
section
variable {s : State} {cid : BitVec 12} {tid : BitVec 10} {tile gpa : Nat} {old new : BitVec 128}
theorem State.updateIfSame_same (h : s.entAt cid gpa = old) : s.updateIfSame cid tid tile gpa old new = (true, s.putEnt cid tid tile gpa new) := if_pos (by rw [h, beq_self_eq_true])
theorem State.updateIfSame_changed (h : s.entAt cid gpa ≠ old) : s.updateIfSame cid tid tile gpa old new = (false, s) := if_neg (by rwa [beq_iff_eq])
end

section
variable {s : State} {i : Nat} {t : TileOp} (ht : s.tileOps[i]? = some t) (hp : s.tilePlaced t = true)
include ht hp

/-- What a copy on write leaves when its run is copied (R214). -/
theorem cowCopyDone_copied (hk : t.kind = 0)
    (hq : s.quarFits t.cid (if s.entAt t.cid t.entAddr.toNat = t.ent ∧ s.rc t.cid (entIdx t.ent) ≠ 1 then 0 else 1) = true) :
    let x := t.ent
    let gpa := t.entAddr.toNat
    let u := (s.copyWhole t.cid (entFrame x) t.frame t.run).dropTileOp t
    let n := s.rc t.cid (entIdx x)
    let v := (u.putEnt t.cid t.tid t.tile gpa (entWith x t.frame (entShadow x) (entOwner x) (entSph x) t.idx (entTier x) (entMig x) false true)).setRc t.cid (entIdx x) (n - 1)
    (u.entAt t.cid gpa = x → exec (.cowCopyDone i) s = .next (if n = 1 then v.quarantine t.cid t.e (some (entFrame x)) t.pool (entIdx x) else v)) ∧
    (u.entAt t.cid gpa ≠ x → exec (.cowCopyDone i) s = .next ((u.quarantine t.cid t.e (some t.frame) t.pool t.idx).shootdown t.cid t.tid (some t.tile))) := by
  intro x gpa u n v
  have hfits : s.quarFits t.cid (if s.tileSame t && n != 1 then 0 else 1) = true := by
    refine (congrArg (s.quarFits t.cid) (if_congr ?_ rfl rfl)).trans hq
    rw [Bool.and_eq_true, bne_iff_ne, State.tileSame, beq_iff_eq]
  have hi : exec (.cowCopyDone i) s = execCowCopyDone i s := rfl
  rw [hi, execCowCopyDone, ht]
  dsimp only
  rw [hp, hfits, hk, if_neg (by decide)]
  refine ⟨fun h => ?_, fun h => ?_⟩
  · rw [State.updateIfSame_same h]
    exact congrArg Host.Outcome.next (if_congr beq_iff_eq rfl rfl)
  · rw [State.updateIfSame_changed h]

/-- What a shadow fill leaves that is not logged (R235). -/
theorem shadowFillDone_filled (hk : t.kind = 1) :
    let x := t.ent
    let gpa := t.entAddr.toNat
    (s.entAt t.cid gpa = x → s.logs t.core t.e = false → exec (.shadowFillDone i) s = .next (((s.copyWhole t.cid (entFrame x) t.frame t.run).dropTileOp t).putEnt
      t.cid t.tid t.tile gpa (entWith x (entFrame x) (entShadow x) (BitVec.ofNat 8 t.core) t.phase t.epoch (entTier x) (entMig x) false false))) ∧
    (s.entAt t.cid gpa ≠ x → exec (.shadowFillDone i) s = .next ((s.dropTileOp t).shootdown t.cid t.tid (some t.tile))) := by
  intro x gpa
  have hi : exec (.shadowFillDone i) s = execShadowFillDone i s := rfl
  rw [hi, execShadowFillDone, ht]
  dsimp only
  rw [hp, hk, if_neg (by decide)]
  refine ⟨fun h hlog => ?_, fun h => ?_⟩
  · have hsame : s.tileSame t = true := beq_iff_eq.2 h
    rw [hsame, hlog, if_neg (by decide)]
    simp only [Bool.and_false, Bool.false_and, Bool.false_eq_true, if_false]
    rfl
  · have hsame : s.tileSame t = false := beq_eq_false_iff_ne.2 h
    rw [hsame]
    rfl
end

/-- A change of an entry, with its shootdown, leaves every core's task (R206). -/
theorem State.putEnt_task (s : State) (cid : BitVec 12) (tid : BitVec 10) (tile gpa : Nat) (x : BitVec 128) (n : Nat) : ((s.putEnt cid tid tile gpa x).core n).task = (s.core n).task := by
  have hc : (s.putEnt cid tid tile gpa x).core n = ((s.gpaPut cid gpa 16 x.toNat).core n).dropTrans cid tid (some tile) :=
    SMap.get_map_snd ({} : Core) (s.gpaPut cid gpa 16 x.toNat).cores (Core.dropTrans cid tid (some tile)) rfl n
  rw [hc, State.core_gpaPut]
  rfl
theorem State.core_quarantine (s : State) (cid : BitVec 12) (e : Word) (frame : Option (BitVec 36)) (pool : BitVec 8) (idx : BitVec 24) (n : Nat) :
    (s.quarantine cid e frame pool idx).core n = s.core n := by
  rw [State.quarantine, State.core_gpaPut, State.core_gpaPut]

/-- What a migration leaves (R216). -/
theorem migrationFlip_done {s : State} {i : Nat} {t : TileOp} (ht : s.tileOps[i]? = some t) (hp : s.tilePlaced t = true) (hk : t.kind = 2)
    (hq : s.quarFits t.cid (if s.runPoisoned t.cid (entFrame t.ent) t.run = false ∧ s.entAt t.cid t.entAddr.toNat = t.ent then s.dropAdds t.cid t.ent else 1) = true) :
    let x := t.ent
    let gpa := t.entAddr.toNat
    let u := (s.copyWhole t.cid (entFrame x) t.frame t.run).dropTileOp t
    let new := if entSh x = true then entWith x t.frame (entShadow x) (entOwner x) (entSph x) t.idx t.tier false false true
      else entWith x t.frame (entShadow x) (entOwner x) (entSph x) (entIdx x) t.tier false (entCow x) false
    let mine := ∃ k, (s.core t.core).task = some k ∧ k.cid = t.cid ∧ k.inc = t.inc
    let v := u.putEnt t.cid t.tid t.tile gpa new
    (s.runPoisoned t.cid (entFrame x) t.run = true → s.entAt t.cid gpa = x →
      let w := ((s.putEnt t.cid t.tid t.tile gpa (entSetMig x false)).dropTileOp t).quarantine t.cid t.e (some t.frame) t.toPool t.idx
      (mine → exec (.migrationFlip i) s = .next (w.raise t.core .cpy 0x13 (BitVec.ofNat 64 (frameAddr (entFrame x))) t.e false 0)) ∧
      (¬mine → exec (.migrationFlip i) s = .next w)) ∧
    (s.runPoisoned t.cid (entFrame x) t.run = false → u.entAt t.cid gpa = x → exec (.migrationFlip i) s =
      .next ((if entSh x = true then v.setRc t.cid t.idx 1 else v).dropRun t.cid t.e x t.pool)) ∧
    (s.runPoisoned t.cid (entFrame x) t.run = false → u.entAt t.cid gpa ≠ x → exec (.migrationFlip i) s =
      .next ((u.quarantine t.cid t.e (some t.frame) t.toPool t.idx).shootdown t.cid t.tid (some t.tile))) := by
  intro x gpa u new mine v
  have hfits : s.quarFits t.cid (if !s.runPoisoned t.cid (entFrame t.ent) t.run && s.tileSame t then s.dropAdds t.cid t.ent else 1) = true := by
    refine (congrArg (s.quarFits t.cid) (if_congr ?_ rfl rfl)).trans hq
    rw [Bool.and_eq_true, Bool.not_eq_true', State.tileSame, beq_iff_eq]
  have hi : exec (.migrationFlip i) s = execMigrationFlip i s := rfl
  rw [hi, execMigrationFlip, ht]
  dsimp only
  rw [hp, hfits, hk, if_neg (by decide)]
  refine ⟨fun hbad hent => ?_, fun hbad hent => ?_, fun hbad hent => ?_⟩
  · rw [hbad, if_pos rfl, State.updateIfSame_same hent]
    dsimp only
    generalize hw : ((s.putEnt t.cid t.tid t.tile gpa (entSetMig x false)).dropTileOp t).quarantine t.cid t.e (some t.frame) t.toPool t.idx = w
    have htask : (w.core t.core).task = (s.core t.core).task := by
      rw [← hw, State.core_quarantine]
      exact s.putEnt_task ..
    have hmine : (match (w.core t.core).task with | some k => k.cid == t.cid && k.inc == t.inc | none => false) = true ↔ mine := by
      rw [htask]
      cases hk : (s.core t.core).task with
      | none => exact ⟨fun h => (nomatch h), fun ⟨k, h, _⟩ => by rw [hk] at h; cases h⟩
      | some k => exact ⟨fun h => ⟨k, hk, by simpa using h⟩, fun ⟨k', h, he⟩ => by rw [hk] at h; cases h; simpa using he⟩
    exact ⟨fun h => congrArg Host.Outcome.next (if_pos (hmine.2 h)), fun h => congrArg Host.Outcome.next (if_neg fun hm => h (hmine.1 hm))⟩
  · rw [hbad, if_neg (by decide), State.updateIfSame_same hent]
  · rw [hbad, if_neg (by decide), State.updateIfSame_changed hent]

/-! ### Landings of ACC (R176, R223) -/

/-- A byte merged into a vector stands at its place, and at no other. -/
theorem Vec.byte_merged (v : Vec) (b : Byte) {i : Nat} (hi : i < 256) :
    (v ||| (b.setWidth 2048 <<< (8 * i)) : Vec).extractLsb' (8 * i) 8 = v.extractLsb' (8 * i) 8 ||| b := by
  apply BitVec.eq_of_getLsbD_eq
  intro k hk
  have hlt : 8 * i + k < 2048 := by omega
  simp [hk, hlt]
theorem Vec.byte_unmerged (v : Vec) (b : Byte) {i j : Nat} (h : j ≠ i) : (v ||| (b.setWidth 2048 <<< (8 * i)) : Vec).extractLsb' (8 * j) 8 = v.extractLsb' (8 * j) 8 := by
  apply BitVec.eq_of_getLsbD_eq
  intro k hk
  rw [BitVec.getLsbD_extractLsb', BitVec.getLsbD_or, BitVec.getLsbD_shiftLeft, BitVec.getLsbD_setWidth, BitVec.getLsbD_extractLsb']
  rcases Nat.lt_or_gt_of_ne h with h | h
  · have hlt : 8 * j + k < 8 * i := by omega
    simp [hlt]
  · have hge : 8 ≤ 8 * j + k - 8 * i := by omega
    simp [BitVec.getLsbD_of_ge b _ hge]

/-- Once every granule may land, nothing of an entry is awaited, and each byte stands in its place. -/
theorem landBytes_all (byte : Nat → Byte) {pick : Nat → Bool} (hp : ∀ g, pick g = true) (v : Vec) (j0 : Nat) (xs : List (Option (Nat × Byte))) :
    ((landBytes byte pick v j0 xs).2.all (·.isNone)) = true ∧
    (∀ j, j < j0 → (landBytes byte pick v j0 xs).1.extractLsb' (8 * j) 8 = v.extractLsb' (8 * j) 8) ∧
    ∀ j k m, j0 + j < 256 → xs[j]? = some (some (k, m)) →
      (landBytes byte pick v j0 xs).1.extractLsb' (8 * (j0 + j)) 8 = v.extractLsb' (8 * (j0 + j)) 8 ||| (byte k &&& m) := by
  induction xs generalizing v j0 with
  | nil => exact ⟨rfl, fun _ _ => rfl, fun j k m _ h => (nomatch h)⟩
  | cons x xs ih =>
    obtain ⟨v', hv⟩ : ∃ v' : Vec, v' = match x with | some (k, m) => v ||| ((byte k &&& m).setWidth 2048 <<< (8 * j0)) | none => v := ⟨_, rfl⟩
    have hstep : landBytes byte pick v j0 (x :: xs) = ((landBytes byte pick v' (j0 + 1) xs).1, none :: (landBytes byte pick v' (j0 + 1) xs).2) := by
      rw [hv]
      cases x with
      | none => rfl
      | some p => simp only [landBytes, hp, if_true]
    have hother {j : Nat} (hj : j ≠ j0) : v'.extractLsb' (8 * j) 8 = v.extractLsb' (8 * j) 8 := by
      rw [hv]
      cases x with
      | none => rfl
      | some p => exact Vec.byte_unmerged v _ hj
    obtain ⟨hall, hlow, hat⟩ := ih v' (j0 + 1)
    rw [hstep]
    refine ⟨hall, fun j hj => (hlow j (by omega)).trans (hother (by omega)), fun j k m hj hm => ?_⟩
    cases j with
    | zero =>
      obtain rfl : x = some (k, m) := Option.some.inj hm
      exact (hlow j0 (Nat.lt_succ_self _)).trans (by rw [hv]; exact Vec.byte_merged v _ hj)
    | succ j =>
      have h := hat j k m (by omega) hm
      rw [Nat.add_right_comm, Nat.add_assoc] at h
      exact h.trans (by rw [hother (by omega)])

/-- R170: a landing that ends retires its word, with its signal. -/
theorem State.finishLanding_core (u : State) {n : Nat} {l : Landing} (hl : (u.core n).landQ = [l])
    (hs : l.sig = 0 ∨ ((u.core n).tok.get {} l.sig.toNat).count.toNat < 0xFFFF) :
    (∃ y tok peel idle hung, (u.finishLanding n l).core n = { u.core n with landQ := [], acc := y, tok := tok, peel := peel, idle := idle, hung := hung }) ∧
    (l.sig ≠ 0 → (((u.finishLanding n l).core n).tok.get {} l.sig.toNat).count.toNat = ((u.core n).tok.get {} l.sig.toNat).count.toNat + 1) := by
  have hc : (u.modCore n fun c => { c with landQ := c.landQ.filter fun x => x.id != l.id }).core n = { u.core n with landQ := [] } := by
    rw [State.core_modCore_self, hl, List.filter_cons, bne_self_eq_false]
    rfl
  have h := State.retireIss_signal (u.modCore n fun c => { c with landQ := c.landQ.filter fun x => x.id != l.id }) n .acc l.id l.e (u.core n).acc.before l.slot
    (sig := l.sig) (by rw [hc]; exact hs)
  rw [hc] at h
  exact h

section
variable {s : State} {n : Nat} {l : Landing} (hl : (s.core n).landQ = [l]) (hon : s.coreOn n = true) (hc : s.clear l.after = true)
include hl hon hc
theorem State.landAcc_one : s.landAcc n = match l.queue with
    | some (q, id) =>
      let xs := ((s.core n).queue q).map fun x => if x.id == id then s.landEntry (s.core n) x else x
      let s := s.modCore n fun c => c.setQueue q xs
      if xs.any fun x => x.id == id && !x.landed then s else s.finishLanding n l
    | none =>
      (match l.g with
       | some k => s.modCore n fun c => { c with gWait := c.gWait.set false k false }
       | none => s).finishLanding n l := by
  unfold State.landAcc
  rw [hon, hl, List.filter_cons, if_pos hc]
  rfl
variable (hs : l.sig = 0 ∨ ((s.core n).tok.get {} l.sig.toNat).count.toNat < 0xFFFF)
include hs
theorem dataLanded_reg {k : Nat} (hq : l.queue = none) (hg : l.g = some k) :
    ∃ t, exec (.dataLanded n 1) s = .next t ∧ ((t.core n).landQ = [] ∧
      (l.sig ≠ 0 → ((t.core n).tok.get {} l.sig.toNat).count.toNat = ((s.core n).tok.get {} l.sig.toNat).count.toNat + 1)) ∧
      (t.core n).gWait.get false k = false ∧ (t.core n).g = (s.core n).g := by
  have hi : exec (.dataLanded n 1) s = .next (s.landAcc n) := rfl
  rw [hi, State.landAcc_one hl hon hc, hq]
  dsimp only
  rw [hg]
  dsimp only
  obtain ⟨u, hu⟩ : ∃ u : State, u = s.modCore n fun c => { c with gWait := c.gWait.set false k false } := ⟨_, rfl⟩
  rw [← hu]
  have huc : u.core n = { s.core n with gWait := (s.core n).gWait.set false k false } := by rw [hu, State.core_modCore_self]
  obtain ⟨⟨y, tok, peel, idle, hung, ht⟩, hcount⟩ := u.finishLanding_core (n := n) (l := l) (by rw [huc]; exact hl) (by rw [huc]; exact hs)
  refine ⟨_, rfl, ⟨by rw [ht], fun h => by rw [hcount h, huc]⟩, by rw [ht, huc]; exact SMap.get_set_self false (s.core n).gWait k false, by rw [ht, huc]⟩
theorem dataLanded_queue {q id : Nat} {x : QEnt} (hlq : l.queue = some (q, id)) (hx : (s.core n).queue q = [x]) (hxi : x.id = id) (hli : l.id = id)
    (hfree : Config.freeBit s.freeCtr = true) :
    ∃ t y, exec (.dataLanded n 1) s = .next t ∧ ((t.core n).landQ = [] ∧
      (l.sig ≠ 0 → ((t.core n).tok.get {} l.sig.toNat).count.toNat = ((s.core n).tok.get {} l.sig.toNat).count.toNat + 1)) ∧
      (t.core n).queue q = [y] ∧ y.landed = true ∧ y.e = x.e ∧ y.eos = x.eos ∧
      ∀ j k m, j < 256 → x.src[j]? = some (some (k, m)) → y.data.extractLsb' (8 * j) 8 = x.data.extractLsb' (8 * j) 8 ||| (s.byte k &&& m) := by
  have hnone (ks : List Nat) : (s.core n).unlanded x.id ks = false := by
    rw [Core.unlanded, hl, List.filterMap_cons, if_neg (by rw [hxi, hli]; exact Nat.lt_irrefl _)]
    rfl
  have hpick (g : Nat) : ((Config.freeBit s.freeCtr || Config.freeBit (s.freeCtr + 1 + g)) && !(s.core n).unlanded x.id [32 * g]) = true := by
    rw [hfree, hnone]
    rfl
  obtain ⟨hall, -, hbytes⟩ := landBytes_all s.byte hpick x.data 0 x.src
  obtain ⟨y, hy⟩ : ∃ y, y = s.landEntry (s.core n) x := ⟨_, rfl⟩
  have hland : y.landed = true := by rw [hy]; exact hall
  have hid : y.id = id := by rw [hy]; exact hxi
  have hi : exec (.dataLanded n 1) s = .next (s.landAcc n) := rfl
  rw [hi, State.landAcc_one hl hon hc, hlq]
  dsimp only
  rw [hx, List.map_cons, List.map_nil, hxi, if_pos (beq_self_eq_true _), ← hy, List.any_cons, hland, Bool.not_true, Bool.and_false, List.any_nil, Bool.or_false,
    if_neg Bool.false_ne_true]
  obtain ⟨u, hu⟩ : ∃ u : State, u = s.modCore n fun c => c.setQueue q [y] := ⟨_, rfl⟩
  rw [← hu]
  have huc : u.core n = (s.core n).setQueue q [y] := by rw [hu, State.core_modCore_self]
  have hframe := Core.setQueue_frame (s.core n) q [y]
  have hqueue := Core.queue_setQueue_self (s.core n) q [y]
  rw [← huc] at hframe hqueue
  obtain ⟨⟨z, tok, peel, idle, hung, ht⟩, hcount⟩ := u.finishLanding_core (n := n) (l := l) (by rw [hframe]; exact hl) (by rw [hframe]; exact hs)
  refine ⟨_, y, rfl, ⟨by rw [ht], fun h => by rw [hcount h, hframe]⟩, by rw [ht]; exact hqueue, hland, by rw [hy]; rfl, by rw [hy]; rfl, fun j k m hj hm => ?_⟩
  have h := hbytes j k m (by omega) hm
  rw [Nat.zero_add] at h
  rw [hy]
  exact h
end

/-! ### Copy words (R439, R440) -/

section
variable {s : State} {n : Nat} {o : CpyOp} {os : List CpyOp} (hr : s.engRuns n .cpy = true) (hq : (s.core n).cpyQ = o :: os)
include hr hq
/-- A word that may go on is carried one part further. -/
theorem dataLanded_goes {u : State} (hmay : o.done = true ∨ s.clear o.after = true ∧ s.cpyAfter n o = false) (hu : s.cpyAdv n o = .go u) :
    exec (.dataLanded n 4) s = .next u := by
  have hpark : (s.core n).cpy.park = none := by
    unfold State.engRuns at hr
    simp only [Bool.and_eq_true] at hr
    obtain ⟨⟨-, hpark⟩, -⟩ := hr
    simpa [Core.eng] using hpark
  have htry : s.cpyTry n o = some u := by
    unfold State.cpyTry
    rw [if_neg, hu]
    rcases hmay with hd | ⟨hc, ha⟩
    · simp [hd]
    · simp [hc, ha]
  have hi : exec (.dataLanded n 4) s = .next (s.landCpy n) := rfl
  rw [hi]
  unfold State.landCpy
  rw [State.selfClear_unparked (eng := .cpy) hpark]
  dsimp only
  rw [if_pos hr, hq, State.cpyPick, htry]
  rfl

/-- A granule of a COPY between places of scratchpad (R441). -/
theorem dataLanded_granule (hmay : s.clear o.after = true ∧ s.cpyAfter n o = false) (hopc : o.job.opc = 0x6C) (hfn : o.job.fn ≠ 1) (hmode : o.job.mode = 0)
    (hd : o.done = false) (hk : o.k < o.job.len0 / 32) (hbuf : 32 * o.k + 32 ≤ o.buf.length) (hpeel : (s.core n).peel.length + 2 ≤ 1024) (hids : ∀ p ∈ os, p.id ≠ o.id) :
    ∃ t, exec (.dataLanded n 4) s = .next t ∧ (t.core n).cpyQ = { o with k := o.k + 1, nres := none } :: os ∧
      (∀ a, a < 32 → (t.core n).spad.get 0 (o.job.dst0 + 32 * o.k + a) = o.buf.getD (32 * o.k + a) 0) ∧
      ∀ a, a < o.job.dst0 + 32 * o.k ∨ o.job.dst0 + 32 * o.k + 32 ≤ a → (t.core n).spad.get 0 a = (s.core n).spad.get 0 a := by
  obtain ⟨a, ha⟩ : ∃ a, a = o.job.dst0 + 32 * o.k := ⟨_, rfl⟩
  obtain ⟨bs, hbs⟩ : ∃ bs, bs = (o.buf.drop (32 * o.k)).take 32 := ⟨_, rfl⟩
  have hlen : bs.length = 32 := by rw [hbs, List.length_take, List.length_drop]; omega
  obtain ⟨u, hu⟩ : ∃ u, u = s.spadWrite n .cpy o.e a bs := ⟨_, rfl⟩
  have hcore : u.core n = { s.core n with spad := putSpad (s.core n).spad a bs, peel := (u.core n).peel } := by rw [hu]; exact (s.spadWrite_core n .cpy o.e a bs).2.1
  have hroom : (u.core n).peel.length ≤ 1024 := by
    have l := s.logGranules_logged n .cpy o.e a bs.length (a / 32) ((a + bs.length - 1) / 32 + 1 - a / 32)
    have hw : (u.core n).peel = ((s.logGranules n .cpy o.e a bs.length (a / 32) ((a + bs.length - 1) / 32 + 1 - a / 32)).core n).peel := by
      rw [hu, State.spadWrite, if_neg (by cases bs with | nil => cases hlen | cons => exact Bool.false_ne_true), State.core_modCore_self]
    rw [hw]
    exact l.log.trans (by rw [hlen]; omega)
  have hxor : o.job.xor = false := by simp [CpyJob.xor, hfn]
  have hmove (d : TDesc) : o.job.move n o.buf d o.k = (.data bs, .spad n a) := by
    unfold CpyJob.move
    simp only [hmode, hopc, ← ha, ← hbs]
    rfl
  have htotal (d : TDesc) : o.job.total d = o.job.len0 / 32 := by
    unfold CpyJob.total
    simp only [hmode]
  have hadv : s.cpyAdv n o = .go (u.setCpy n { o with k := o.k + 1, nres := none }) := by
    unfold State.cpyAdv
    dsimp only
    rw [hopc, hd, htotal, hmove, if_neg (by decide), if_neg (by decide), if_neg (by decide), if_neg (Nat.not_le.2 hk)]
    show (if (State.core (s.spadWrite n .cpy o.e a (mixBytes o.job.xor ((s.core n).spadBytes a 32) bs)) n).peel.length ≤ 1024 then _ else _) = _
    rw [hxor, show mixBytes false ((s.core n).spadBytes a 32) bs = bs from rfl, ← hu, if_pos hroom]
    rfl
  refine ⟨_, dataLanded_goes hr hq (.inr hmay) hadv, ?_, fun b hb => ?_, fun b hb => ?_⟩
  · rw [State.setCpy, State.core_modCore_self, hcore]
    dsimp only
    rw [hq, List.map_cons, if_pos (beq_self_eq_true _)]
    exact congrArg _ ((List.map_congr_left (g := id) fun p hp => if_neg (by simpa using hids p hp)).trans (List.map_id _))
  · rw [State.setCpy, State.core_modCore_self, hcore, ← ha]
    dsimp only
    rw [get_putSpad, if_pos (by omega), hbs, Nat.add_sub_cancel_left, List.getD_eq_getElem?_getD, List.getElem?_take_of_lt hb, List.getElem?_drop, ← List.getD_eq_getElem?_getD]
  · rw [State.setCpy, State.core_modCore_self, hcore]
    dsimp only
    rw [get_putSpad, if_neg (by omega)]
end

/-! ### Fills of circular buffers (R189) -/

/-- R170: a copy word that retires leaves the queue, with its signal. -/
theorem State.cpyRetire_core (u : State) (n : Nat) (o : CpyOp) (hs : o.sig = 0 ∨ ((u.core n).tok.get {} o.sig.toNat).count.toNat < 0xFFFF) :
    ((u.cpyRetire n o).core n).cpyQ = (u.core n).cpyQ.filter (fun p => p.id != o.id) ∧ ((u.cpyRetire n o).core n).cbs = (u.core n).cbs ∧
    (o.sig ≠ 0 → (((u.cpyRetire n o).core n).tok.get {} o.sig.toNat).count.toNat = ((u.core n).tok.get {} o.sig.toNat).count.toNat + 1) := by
  unfold State.cpyRetire
  dsimp only
  generalize hv : (u.modCore n fun c => { c with cpyQ := c.cpyQ.filter (fun p => p.id != o.id), pendBits := c.pendBits.filter fun x => x.2 != pendMark o.id }) = v
  have hvc : v.core n = { u.core n with cpyQ := (u.core n).cpyQ.filter (fun p => p.id != o.id), pendBits := (v.core n).pendBits } := by
    rw [← hv, State.core_modCore_self]
  have htok : (v.core n).tok = (u.core n).tok := by rw [hvc]
  obtain ⟨⟨y, tok, peel, idle, hung, ht⟩, hcount⟩ := v.retireIss_signal n .cpy o.id o.e (v.core n).cpy.before o.slot (sig := o.sig) (by rw [htok]; exact hs)
  rw [htok] at hcount
  refine ⟨?_, ?_, hcount⟩
  · rw [ht]
    show (v.core n).cpyQ = _
    rw [hvc]
  · rw [ht]
    show (v.core n).cbs = _
    rw [hvc]

section
variable {s : State} {n i : Nat} {b : Cb} {o : CpyOp} (hb : (s.core n).cbs.get none i = some b)
  (ho : ((s.core n).cpyQ.find? fun p => p.job.opc == 0x71 && p.done && p.job.tidb.toNat == i) = some o) (hr : s.engRuns n .cpy = true)
include hb ho
theorem ccbFillComplete_waits (h : o.job.cbSlot ≠ b.widx) : exec (.ccbFillComplete n i) s = .next s := by
  have hi : exec (.ccbFillComplete n i) s = execCcbFillComplete n i s := rfl
  rw [hi]
  unfold execCcbFillComplete
  dsimp only
  rw [hb, ho]
  exact if_pos (by simp [h])
include hr
theorem ccbFillComplete_fills (h : o.job.cbSlot = b.widx) (hs : o.sig = 0 ∨ ((s.core n).tok.get {} o.sig.toNat).count.toNat < 0xFFFF) :
    ∃ t, exec (.ccbFillComplete n i) s = .next t ∧ (∀ p ∈ (t.core n).cpyQ, p.id ≠ o.id) ∧ (t.core n).cbs.get none i = some (b.fillDone o.e) ∧
      (o.sig ≠ 0 → ((t.core n).tok.get {} o.sig.toNat).count.toNat = ((s.core n).tok.get {} o.sig.toNat).count.toNat + 1) := by
  obtain ⟨u, hu⟩ : ∃ u : State, u = s.setCb n .cpy i o.e (b.fillDone o.e) := ⟨_, rfl⟩
  have hexec : exec (.ccbFillComplete n i) s = .next (u.cpyRetire n o) := by
    have hi : exec (.ccbFillComplete n i) s = execCcbFillComplete n i s := rfl
    rw [hi]
    unfold execCcbFillComplete
    dsimp only
    rw [hb, ho]
    dsimp only
    rw [hr, if_neg (by simp [h]), ← hu]
  obtain ⟨-, huc, -⟩ := s.setCb_core n .cpy i o.e (b.fillDone o.e)
  rw [← hu] at huc
  have htok : (u.core n).tok = (s.core n).tok := by rw [huc]
  have hcbs : (u.core n).cbs = (s.core n).cbs.set none i (some (b.fillDone o.e)) := by rw [huc]
  obtain ⟨hq, hc, hcount⟩ := u.cpyRetire_core n o (by rw [htok]; exact hs)
  rw [htok] at hcount
  refine ⟨_, hexec, fun p hp => ?_, by rw [hc, hcbs, SMap.get_set_self], hcount⟩
  rw [hq] at hp
  simpa using (List.mem_filter.1 hp).2
end

/-- Settles O44: an operation that runs on after its word flips its entry, lands its bytes, moves its granule or fills its slot, as its kind says. -/
theorem tileCompletions : Obligations.TileCompletions := by
  unfold Obligations.TileCompletions
  refine ⟨fun s i t ht => ?_, fun s n l hl hon hc hs => ⟨fun k hq hg => dataLanded_reg hl hon hc hs hq hg, fun q id x hlq _ hx hxi hli hf => dataLanded_queue hl hon hc hs hlq hx hxi hli hf⟩,
    fun s n o os hr hq => ⟨fun u hmay hu => dataLanded_goes hr hq hmay hu,
      fun hmay hopc hfn hmode hd hk hbuf hpeel hids => dataLanded_granule hr hq hmay hopc hfn hmode hd hk hbuf hpeel hids⟩,
    fun s n i b o hb ho hr => ⟨ccbFillComplete_waits hb ho, ccbFillComplete_fills hb ho hr⟩⟩
  simp only [← State.dropTileOp_eq]
  exact ⟨fun hk hp hq => cowCopyDone_copied ht hp hk hq, fun hk hp => shadowFillDone_filled ht hp hk, fun hk hp hq => migrationFlip_done ht hp hk hq⟩

end Sys2Proof.Machine
end

section
/-! PROOFS of the FabricPorts statement (O45): a takeover that leaves a request to the number that it takes over. -/

set_option Elab.async false

namespace Sys2Proof.Machine

/-! ### Two requests to a device that has failed (R77) -/

/-- An atomic of core 0, an acquire at SYS (R228), that waits for its answer from device 9. -/
def sentAtomic : OReq where
  pkt := { head := { kind := 3, dstdev := 9, cid := 1, inc := 1, seq := 0 } }
  held := { id := 7, core := 0, cid := 1, inc := 1, act := .ratomic 9 .add 0 0 1 0 false, acq := some 4 }
  tx := true
/-- A load of core 0 from device 9, whose line the L2 will keep (R242). -/
def sentLoad : OReq where
  pkt := { head := { kind := 1, dstdev := 9, cid := 1, inc := 1, seq := 1 } }
  held := { id := 8, core := 0, cid := 1, inc := 1, act := .rload 9 0 0 }
  tx := true
  keep := true
/-- A device that waits for both at the start of rotor cycle 0. -/
def waitsForNine : State := { ctxs := [(1, { st := .live, inc := 1 })], cores := [(0, { task := some { cid := 1, inc := 1 } })], oreqs := [sentAtomic, sentLoad] }

/-- Whether an answer leaves a request to a device. -/
def asksAfter (dev : BitVec 8) : Result → Bool
  | .next t => t.oreqs.any fun o => o.pkt.head.dstdev == dev
  | _ => false
theorem waitsForNine_asks : asksAfter 9 (exec (.hotSpareTakeover 9 0 0) waitsForNine) = true := by decide +kernel

/-- Refutes O45: a takeover abandons the requests to the number, each as it stood before. The first, an acquire at SYS, drops the lines of other devices when it is
abandoned (R228), so that the second is no longer to be kept, and what is dropped for it is the request as it stood: it remains outstanding to the number that
the spare takes. -/
theorem not_fabricPorts : ¬ Obligations.FabricPorts := by
  unfold Obligations.FabricPorts
  rintro ⟨-, -, -, -, -, -, h⟩
  obtain ⟨-, htakes, -⟩ := h waitsForNine 9 0 0
  obtain ⟨t, ht, -, hgone, -⟩ := htakes rfl
  have hasks := waitsForNine_asks
  rw [ht] at hasks
  obtain ⟨o, ho, hdev⟩ := List.any_eq_true.1 (show (t.oreqs.any fun o => o.pkt.head.dstdev == 9) = true from hasks)
  exact hgone o ho (beq_iff_eq.1 hdev)

end Sys2Proof.Machine
end

section
/-! PROOFS of the FabricArrivals statement (O46): requests and responses that arrive. -/

set_option Elab.async false

namespace Sys2Proof.Machine

/-! ### What every arriving packet meets (R59, R64, R66, R69) -/

/-- The steps that take an arriving packet, each with the kind that it handles. -/
noncomputable def arrivals (p : Pkt) : List (BitVec 8 × Instr) :=
  [(1, .ldreq p), (2, .streq p), (3, .atreq p), (4, .push p), (5, .pullreq p)] ++ [(6, .data p), (7, .ack p), (8, .atresp p)]

theorem arrival_front (s : State) (p : Pkt) : ∀ x ∈ arrivals p, ∃ r, exec x.2 s =
    if malformed x.1 p = true then .next (s.countAt p Port.bad1) else if (p.head.dstdev != s.conf.devnum) = true then .next (s.takeRelay p) else r := by
  intro x hx
  fin_cases hx <;> exact ⟨_, rfl⟩

section
variable {s : State} {p : Pkt}
theorem arrival_malformed {x : BitVec 8 × Instr} (hx : x ∈ arrivals p) (h : malformed x.1 p = true) : exec x.2 s = .next (s.countAt p Port.bad1) := by
  obtain ⟨r, hr⟩ := arrival_front s p x hx
  rw [hr, if_pos h]
theorem arrival_far {x : BitVec 8 × Instr} (hx : x ∈ arrivals p) (h : malformed x.1 p = false) (hd : p.head.dstdev ≠ s.conf.devnum) : exec x.2 s = .next (s.takeRelay p) := by
  obtain ⟨r, hr⟩ := arrival_front s p x hx
  rw [hr, if_neg (by rw [h]; exact Bool.false_ne_true), if_pos (by simpa using hd)]
theorem overAge_iff : s.overAge p = true ↔ p.head.kind.toNat ≤ 5 ∧ 102400 < s.gts.toNat - p.head.gts.toNat := by
  rw [State.overAge, isReq, Bool.and_eq_true, decide_eq_true_eq, decide_eq_true_eq]
  rfl

/-- Whether a relay refuses a packet of another device: neither has a place, or it has not come here on its first hop, is too old, or finds no space. -/
def State.noRelay (s : State) (p : Pkt) : Prop :=
  s.pos s.conf.devnum = none ∨ s.pos p.head.dstdev = none ∨ p.head.rly = true ∨ p.head.rlydev ≠ s.conf.devnum ∨
    (p.head.kind.toNat ≤ 5 ∧ 102400 < s.gts.toNat - p.head.gts.toNat) ∨ s.relayLeft (portDie (s.arrPort p)) < 1 + p.head.nflit.toNat
/-- A packet that waits at `a` for its second hop, to `b` (R59). -/
def State.secondHop (s : State) (p : Pkt) (a b : Nat) : Tx where
  pkt := p
  port := (a ^^^ b) / 16 % 16
  slot := nextSlot (s.slotNo + 1) ((a ^^^ b) % 16)
  since := s.cycle
  buf := s.bufRoom p ((a ^^^ b) / 16 % 16)
  relayed := true
  from_ := s.arrPort p
theorem takeRelay_placed {a b : Nat} (ha : s.pos s.conf.devnum = some a) (hb : s.pos p.head.dstdev = some b) : s.takeRelay p =
    if (p.head.rly || p.head.rlydev != s.conf.devnum || s.overAge p || decide (s.relayLeft (portDie (s.arrPort p)) < pktSize p)) = true then s.countAt p Port.bad1
    else if (!s.live p.head.cid p.head.inc) = true then s.countAt p (if isReq p = true then Port.stale1 else Port.orph1)
    else { s with relay := s.relay ++ [s.secondHop p a b] } := by
  unfold State.takeRelay
  rw [show s.at_ = some a from ha, hb]
  rfl
theorem noRelay_iff {a b : Nat} (ha : s.pos s.conf.devnum = some a) (hb : s.pos p.head.dstdev = some b) : s.noRelay p ↔
    (p.head.rly || p.head.rlydev != s.conf.devnum || s.overAge p || decide (s.relayLeft (portDie (s.arrPort p)) < pktSize p)) = true := by
  rw [State.noRelay, ha, hb, Bool.or_eq_true, Bool.or_eq_true, Bool.or_eq_true, bne_iff_ne, overAge_iff, decide_eq_true_eq, pktSize, or_assoc, or_assoc]
  simp
theorem takeRelay_refused (h : s.noRelay p) : s.takeRelay p = s.countAt p Port.bad1 := by
  cases ha : s.pos s.conf.devnum with
  | none =>
    unfold State.takeRelay
    rw [show s.at_ = none from ha]
  | some a =>
    cases hb : s.pos p.head.dstdev with
    | none =>
      unfold State.takeRelay
      rw [show s.at_ = some a from ha, hb]
    | some b => rw [takeRelay_placed ha hb, if_pos ((noRelay_iff ha hb).1 h)]
theorem noRelay_of_none (h : s.pos s.conf.devnum = none ∨ s.pos p.head.dstdev = none) : s.noRelay p := by
  rcases h with h | h
  · exact .inl h
  · exact .inr (.inl h)
theorem takeRelay_stale (hn : ¬s.noRelay p) (hl : ¬s.live p.head.cid p.head.inc = true) :
    s.takeRelay p = if p.head.kind.toNat ≤ 5 then s.countAt p Port.stale1 else s.countAt p Port.orph1 := by
  obtain ⟨a, ha⟩ := Option.ne_none_iff_exists'.1 fun h => hn (noRelay_of_none (.inl h))
  obtain ⟨b, hb⟩ := Option.ne_none_iff_exists'.1 fun h => hn (noRelay_of_none (.inr h))
  rw [takeRelay_placed ha hb, if_neg fun h => hn ((noRelay_iff ha hb).2 h), if_pos (by simpa using hl), isReq]
  simp only [decide_eq_true_eq]
  split <;> rfl
theorem takeRelay_taken (hn : ¬s.noRelay p) (hl : s.live p.head.cid p.head.inc = true) {a b : Nat} (ha : s.pos s.conf.devnum = some a) (hb : s.pos p.head.dstdev = some b) :
    s.takeRelay p = { s with relay := s.relay ++ [s.secondHop p a b] } := by
  rw [takeRelay_placed ha hb, if_neg fun h => hn ((noRelay_iff ha hb).2 h), hl]
  rfl
end

/-! ### Requests at their destination (R66 to R69) -/

section
variable {s : State} {p : Pkt} {kind : BitVec 8} {marked fresh : State → State} (hg : malformed kind p = false) (hd : p.head.dstdev = s.conf.devnum)
include hg hd
theorem request_here : s.request_ kind p marked fresh = if s.overAge p = true then .next (s.countAt p Port.bad1)
    else if (p.head.cid == 0 || !s.live p.head.cid p.head.inc) = true then .next (s.countAt p Port.stale1)
    else if (p.members.isEmpty && (s.window_ p.head.srcdev p.head.cid p.head.inc).below p.head.seq) = true then .next (s.countAt p Port.dup1)
    else if (p.members.isEmpty && (s.window_ p.head.srcdev p.head.cid p.head.inc).marked p.head.seq) = true then .next (marked s)
    else if 4096 < s.freshCache.length + (recsOf p).length then .next (s.reply (respTo p (respKind kind) 3 0 []))
    else .next (fresh s) := by
  unfold State.request_
  rw [hg, if_neg Bool.false_ne_true, hd, bne_self_eq_false, if_neg Bool.false_ne_true]
theorem request_old (h : p.head.kind.toNat ≤ 5 ∧ 102400 < s.gts.toNat - p.head.gts.toNat) : s.request_ kind p marked fresh = .next (s.countAt p Port.bad1) := by
  rw [request_here hg hd, if_pos (overAge_iff.2 h)]
variable (hyoung : ¬(p.head.kind.toNat ≤ 5 ∧ 102400 < s.gts.toNat - p.head.gts.toNat))
include hyoung
theorem request_stale (h : p.head.cid = 0 ∨ ¬s.live p.head.cid p.head.inc = true) : s.request_ kind p marked fresh = .next (s.countAt p Port.stale1) := by
  rw [request_here hg hd, if_neg (fun h => hyoung (overAge_iff.1 h)), if_pos (by simpa using h)]
variable (hcid : p.head.cid ≠ 0) (hlive : s.live p.head.cid p.head.inc = true)
include hcid hlive
theorem request_meets : s.request_ kind p marked fresh =
    if (p.members.isEmpty && (s.window_ p.head.srcdev p.head.cid p.head.inc).below p.head.seq) = true then .next (s.countAt p Port.dup1)
    else if (p.members.isEmpty && (s.window_ p.head.srcdev p.head.cid p.head.inc).marked p.head.seq) = true then .next (marked s)
    else if 4096 < s.freshCache.length + (recsOf p).length then .next (s.reply (respTo p (respKind kind) 3 0 []))
    else .next (fresh s) := by
  rw [request_here hg hd, if_neg (fun h => hyoung (overAge_iff.1 h)), if_neg (by rw [hlive, Bool.not_true, Bool.or_false, beq_iff_eq]; exact hcid)]
theorem request_below (h1 : p.members = []) (hb : (s.window_ p.head.srcdev p.head.cid p.head.inc).below p.head.seq = true) :
    s.request_ kind p marked fresh = .next (s.countAt p Port.dup1) := by
  rw [request_meets hg hd hyoung hcid hlive, if_pos (by rw [h1, hb]; rfl)]
theorem request_again (h1 : p.members = []) (hb : (s.window_ p.head.srcdev p.head.cid p.head.inc).below p.head.seq = false)
    (hm : (s.window_ p.head.srcdev p.head.cid p.head.inc).marked p.head.seq = true) : s.request_ kind p marked fresh = .next (marked s) := by
  rw [request_meets hg hd hyoung hcid hlive, if_neg (by rw [hb, Bool.and_false]; exact Bool.false_ne_true), if_pos (by rw [h1, hm]; rfl)]
variable (hnew : p.members = [] → (s.window_ p.head.srcdev p.head.cid p.head.inc).below p.head.seq = false ∧ (s.window_ p.head.srcdev p.head.cid p.head.inc).marked p.head.seq = false)
include hnew
theorem request_new : s.request_ kind p marked fresh =
    if 4096 < s.freshCache.length + (recsOf p).length then .next (s.reply (respTo p (respKind kind) 3 0 [])) else .next (fresh s) := by
  rw [request_meets hg hd hyoung hcid hlive]
  by_cases h1 : p.members = []
  · obtain ⟨hb, hm⟩ := hnew h1
    rw [hb, hm, Bool.and_false, if_neg Bool.false_ne_true, if_neg Bool.false_ne_true]
  · have he : p.members.isEmpty = false := by simpa using h1
    rw [he, Bool.false_and, Bool.false_and, if_neg Bool.false_ne_true, if_neg Bool.false_ne_true]
theorem request_full (hf : 4096 < s.freshCache.length + (recsOf p).length) : s.request_ kind p marked fresh = .next (s.reply (respTo p (respKind kind) 3 0 [])) := by
  rw [request_new hg hd hyoung hcid hlive hnew, if_pos hf]
theorem request_fresh (hf : ¬4096 < s.freshCache.length + (recsOf p).length) : s.request_ kind p marked fresh = .next (fresh s) := by
  rw [request_new hg hd hyoung hcid hlive hnew, if_neg hf]
end

/-- A request of kind `kind` that is performed: it is for this device, of a live incarnation, neither too old nor performed before, and the response cache has room. -/
structure FreshReq (s : State) (p : Pkt) (kind : BitVec 8) : Prop where
  good : malformed kind p = false
  here : p.head.dstdev = s.conf.devnum
  young : ¬(p.head.kind.toNat ≤ 5 ∧ 102400 < s.gts.toNat - p.head.gts.toNat)
  cid : p.head.cid ≠ 0
  live : s.live p.head.cid p.head.inc = true
  new : p.members = [] → (s.window_ p.head.srcdev p.head.cid p.head.inc).below p.head.seq = false ∧ (s.window_ p.head.srcdev p.head.cid p.head.inc).marked p.head.seq = false
  room : ¬4096 < s.freshCache.length + (recsOf p).length

theorem FreshReq.does {s : State} {p : Pkt} {kind : BitVec 8} (m : FreshReq s p kind) {marked fresh : State → State} : s.request_ kind p marked fresh = .next (fresh s) :=
  request_fresh m.good m.here m.young m.cid m.live m.new m.room

theorem State.rawKeys_length {s : State} {cid : BitVec 12} {a : Word} {n : Nat} {p : Perm} {ks : List Nat} (h : s.rawKeys cid a n p = some ks) : ks.length = n := by
  unfold State.rawKeys at h
  dsimp only at h
  split at h
  · exact s.stage2s_length _ _ _ _ h
  · cases h

/-! ### LDREQ and STREQ (R65, R68) -/

section
variable {s : State} {p : Pkt}
theorem FreshReq.ldreq_refused (m : FreshReq s p 1)
    (h : p.head.addr.getLsbD 63 = true ∨ p.head.addr.toNat % 8 ≠ 0 ∨ s.rawKeys p.head.cid p.head.addr 8 .r = none ∨
      s.rawKeys p.head.cid (BitVec.ofNat 64 (p.head.addr.toNat / 64 * 64)) 64 .r = none) : exec (.ldreq p) s = .next (s.reply (respTo p 6 2 0 [])) := by
  show execLdreq p s = _
  unfold execLdreq
  rw [m.does]
  refine congrArg _ ?_
  dsimp only
  split
  · rfl
  next ha =>
    rw [Bool.or_eq_true, bne_iff_ne] at ha
    rcases h with h | h | h | h
    · exact absurd (.inl h) ha
    · exact absurd (.inr h) ha
    · rw [h]
    · rw [h]
      cases s.rawKeys p.head.cid p.head.addr 8 .r <;> rfl
theorem FreshReq.ldreq_reads (m : FreshReq s p 1) (h63 : p.head.addr.getLsbD 63 = false) (h8 : p.head.addr.toNat % 8 = 0) {ks ls : List Nat}
    (hk : s.rawKeys p.head.cid p.head.addr 8 .r = some ks) (hl : s.rawKeys p.head.cid (BitVec.ofNat 64 (p.head.addr.toNat / 64 * 64)) 64 .r = some ls) :
    let r := if s.anyPoison ks then respTo p 6 1 0 [] else respTo p 6 0 0 (ls.map s.byte)
    exec (.ldreq p) s = .next (((s.markSeq p.head.srcdev p.head.cid p.head.inc p.head.seq).cacheResp p.head.srcdev p p.head.seq r).reply r) := by
  intro r
  show execLdreq p s = _
  unfold execLdreq
  rw [m.does]
  refine congrArg _ ?_
  dsimp only
  rw [h63, h8, if_neg (by decide), hk, hl]
  dsimp only [r]
  split <;> rfl
theorem FreshReq.streq_refused (m : FreshReq s p 2)
    (h : p.head.addr.getLsbD 63 = true ∨ p.head.addr.toNat % 8 ≠ 0 ∨ s.rawKeys p.head.cid p.head.addr 8 .w = none) :
    exec (.streq p) s = .next (s.reply (respTo p 7 2 0 [])) := by
  show execStreq p s = _
  unfold execStreq
  rw [m.does]
  refine congrArg _ ?_
  dsimp only
  split
  · rfl
  next ha =>
    rw [Bool.or_eq_true, bne_iff_ne] at ha
    rcases h with h | h | h
    · exact absurd (.inl h) ha
    · exact absurd (.inr h) ha
    · rw [h]
theorem FreshReq.streq_writes (m : FreshReq s p 2) (h63 : p.head.addr.getLsbD 63 = false) (h8 : p.head.addr.toNat % 8 = 0) {ks : List Nat}
    (hk : s.rawKeys p.head.cid p.head.addr 8 .w = some ks) :
    ∃ u : State, exec (.streq p) s = .next ((u.markSeq p.head.srcdev p.head.cid p.head.inc p.head.seq).reply (respTo p 7 0 0 [])) ∧
      Stored s u (ks.zip (leBytes p.head.opnd.toNat 8)) := by
  refine ⟨_, ?_, s.writeBytes_stored _⟩
  show execStreq p s = _
  unfold execStreq
  rw [m.does]
  refine congrArg _ ?_
  dsimp only
  rw [h63, h8, if_neg (by decide), hk]
end

/-! ### ATREQ (R68, R73) -/

theorem State.window_src (s : State) (src : BitVec 8) (cid : BitVec 12) (inc : BitVec 10) :
    (s.window_ src cid inc).src = src ∧ (s.window_ src cid inc).cid = cid ∧ (s.window_ src cid inc).inc = inc := by
  unfold State.window_
  cases hf : s.dedup.find? fun d => d.src == src && d.cid == cid && d.inc == inc with
  | none => exact ⟨rfl, rfl, rfl⟩
  | some d => simpa [and_assoc] using List.find?_some hf
theorem State.window_markSeq (s : State) (src src' : BitVec 8) (cid : BitVec 12) (inc : BitVec 10) (q : BitVec 32) :
    (s.markSeq src cid inc q).window_ src' cid inc = if src' = src then (s.window_ src cid inc).mark q else s.window_ src' cid inc := by
  obtain ⟨hsrc, hcid, hinc⟩ := s.window_src src cid inc
  have hd : ((s.window_ src cid inc).mark q).src = src ∧ ((s.window_ src cid inc).mark q).cid = cid ∧ ((s.window_ src cid inc).mark q).inc = inc := ⟨hsrc, hcid, hinc⟩
  generalize hw : (s.window_ src cid inc).mark q = d at hd
  have hmark : (s.markSeq src cid inc q).dedup = s.dedup.filter (fun e => !(e.src == src && e.cid == cid && e.inc == inc)) ++ [d] := by rw [← hw]; rfl
  obtain ⟨h1, h2, h3⟩ := hd
  rw [State.window_, hmark, List.find?_append, List.find?_filter]
  split
  next he =>
    rw [he, List.find?_eq_none.2 fun x _ => by cases x.src == src && x.cid == cid && x.inc == inc <;> simp, List.find?_singleton, h1, h2, h3]
    simp
  next he =>
    have hsame : (fun a : Dedup => decide ((!(a.src == src && a.cid == cid && a.inc == inc)) = true ∧ (a.src == src' && a.cid == cid && a.inc == inc) = true)) =
        fun a => a.src == src' && a.cid == cid && a.inc == inc := funext fun a => by
      by_cases ha : a.src = src'
      · have hs : (a.src == src) = false := by simp [ha, he]
        rw [hs]
        simp only [Bool.false_and, Bool.not_false, true_and, Bool.decide_eq_true]
      · simp [ha]
    rw [hsame, List.find?_singleton, h1, if_neg (by simp [Ne.symm he]), Option.or_none]
    rfl
/-- Marking one SEQ leaves the others as they are. -/
theorem State.marked_markSeq {s : State} {src src' : BitVec 8} {cid : BitVec 12} {inc : BitVec 10} {q q' : BitVec 32} (h : (s.window_ src' cid inc).marked q' = false)
    (hne : (src', q') ≠ (src, q)) : ((s.markSeq src cid inc q).window_ src' cid inc).marked q' = false := by
  rw [State.window_markSeq]
  split
  next he =>
    rw [he] at h hne
    have hq : q' ≠ q := fun e => hne (by rw [e])
    have hm : q' ∉ (s.window_ src cid inc).marks := by simpa [Dedup.marked] using h
    simp [Dedup.marked, Dedup.mark, hq, hm]
  · exact h

/-- The value that a member finds when those before it have had their turn (R73). -/
def AtomOp.after (op : AtomOp) (y v : Word) (ms : List Member) : Word := ms.foldl (fun v m => op.result v m.opnd y) v

theorem State.atMembers_fresh (p : Pkt) (op : AtomOp) (ms : List Member) (s : State) (acc : Word) (hn : (ms.map fun m => (m.srcdev, m.seq)).Nodup)
    (hm : ∀ m ∈ ms, (s.window_ m.srcdev p.head.cid p.head.inc).marked m.seq = false) :
    ∃ u : State, s.atMembers p op false ms acc = (u, op.after p.head.opnd2 acc ms, (List.range ms.length).map fun i => op.after p.head.opnd2 acc (ms.take i)) ∧
      u = { s with dedup := u.dedup, rcache := u.rcache } := by
  induction ms generalizing s acc with
  | nil => exact ⟨s, rfl, rfl⟩
  | cons m ms ih =>
    obtain ⟨hfirst, hrest⟩ := List.nodup_cons.1 hn
    obtain ⟨r, hr⟩ : ∃ r, r = respTo { p with head := { p.head with srcdev := m.srcdev, seq := m.seq, srcagt := m.srcagt } } 8 0 acc [] := ⟨_, rfl⟩
    obtain ⟨s1, hs1⟩ : ∃ s1, s1 = (s.markSeq m.srcdev p.head.cid p.head.inc m.seq).cacheResp m.srcdev p m.seq r := ⟨_, rfl⟩
    obtain ⟨u, hu, hframe⟩ := ih s1 (op.result acc m.opnd p.head.opnd2) hrest fun k hk => by
      rw [hs1]
      exact State.marked_markSeq (hm k (List.mem_cons_of_mem _ hk)) fun he => hfirst (List.mem_map.2 ⟨k, hk, he⟩)
    refine ⟨u, ?_, ?_⟩
    · rw [State.atMembers]
      dsimp only
      rw [hm m List.mem_cons_self, if_neg Bool.false_ne_true, if_neg Bool.false_ne_true, if_neg Bool.false_ne_true, if_neg Bool.false_ne_true, ← hr, ← hs1, hu,
        List.length_cons, List.range_succ_eq_map, List.map_cons, List.map_map]
      rfl
    · rw [hframe, hs1]
      rfl

/-- The bytes of an atomic's word (R328). -/
def AtomOp.bytes : AtomOp → Nat
  | .fadd _ => 4
  | _ => 8
theorem AtomOp.bytes_eq (op : AtomOp) : op.bytes = if op = .fadd true ∨ op = .fadd false then 4 else 8 := by
  cases op with
  | fadd r => cases r <;> rfl
  | _ => rfl

/-- What an ATREQ does with the bytes of its word, found or refused (R73). -/
def State.atWord (s : State) (p : Pkt) (op : AtomOp) : Option (List Nat) → State
  | none => s.reply (respTo p 8 2 0 [])
  | some ks =>
    let x := s.atMembers p op (s.anyPoison ks) (recsOf p) (bitsOf 64 (ks.map s.byte))
    let r := respTo p 8 (if s.anyPoison ks then 1 else 0) (x.2.2.headD 0) []
    (if s.anyPoison ks then x.1 else x.1.putCells (ks.zip (leBytes x.2.1.toNat op.bytes))).reply
      { r with members := (p.members.zip x.2.2).map fun (m, v) => { m with opnd := v } }

section
variable {s : State} {p : Pkt} (m : FreshReq s p 3)
include m
theorem FreshReq.atreq_unknown (h : atomOfCode p.head.aop p.head.aq = none) : exec (.atreq p) s = .next (s.countAt p Port.bad1) := by
  show execAtreq p s = _
  unfold execAtreq
  rw [m.does]
  refine congrArg _ ?_
  dsimp only
  rw [h]
variable {op : AtomOp} (hop : atomOfCode p.head.aop p.head.aq = some op)
include hop
theorem FreshReq.atreq_word : exec (.atreq p) s = .next (if (p.head.addr.getLsbD 63 || p.head.addr.toNat % op.bytes != 0) = true then s.reply (respTo p 8 2 0 [])
    else s.atWord p op (s.rawKeys p.head.cid p.head.addr op.bytes .atomic)) := by
  show execAtreq p s = _
  unfold execAtreq
  rw [m.does]
  refine congrArg _ ?_
  dsimp only
  rw [hop]
  unfold State.atWord AtomOp.bytes
  rfl
theorem FreshReq.atreq_refused (h : p.head.addr.getLsbD 63 = true ∨ p.head.addr.toNat % op.bytes ≠ 0 ∨ s.rawKeys p.head.cid p.head.addr op.bytes .atomic = none) :
    exec (.atreq p) s = .next (s.reply (respTo p 8 2 0 [])) := by
  rw [m.atreq_word hop]
  split
  · rfl
  next ha =>
    rw [Bool.or_eq_true, bne_iff_ne] at ha
    rcases h with h | h | h
    · exact absurd (.inl h) ha
    · exact absurd (.inr h) ha
    · rw [h]
      rfl
theorem FreshReq.atreq_performs (h63 : p.head.addr.getLsbD 63 = false) (hal : p.head.addr.toNat % op.bytes = 0) {ks : List Nat}
    (hk : s.rawKeys p.head.cid p.head.addr op.bytes .atomic = some ks) (hp : s.anyPoison ks = false)
    (hn : ((recsOf p).map fun m => (m.srcdev, m.seq)).Nodup) (hm : ∀ m ∈ recsOf p, (s.window_ m.srcdev p.head.cid p.head.inc).marked m.seq = false) :
    let v (i : Nat) : Word := op.after p.head.opnd2 (bitsOf 64 (ks.map s.byte)) ((recsOf p).take i)
    ∃ u : State, exec (.atreq p) s = .next (u.reply { respTo p 8 0 (v 0) [] with members := (p.members.zip ((List.range (recsOf p).length).map v)).map fun (m, x) => { m with opnd := x } }) ∧
      u = { s with mem := u.mem, dedup := u.dedup, rcache := u.rcache } ∧ (∀ k, k ∉ ks → u.byte k = s.byte k) ∧
      (ks.Nodup → ∀ j, j < ks.length → u.byte (ks.getD j 0) = (v (recsOf p).length).extractLsb' (8 * j) 8) ∧
      (p.members = [] → u.dedup = (s.markSeq p.head.srcdev p.head.cid p.head.inc p.head.seq).dedup ∧
        u.rcache = (s.cacheResp p.head.srcdev p p.head.seq (respTo p 8 0 (v 0) [])).rcache) := by
  intro v
  obtain ⟨u, hu, hframe⟩ := s.atMembers_fresh p op (recsOf p) (bitsOf 64 (ks.map s.byte)) hn hm
  have hne : (recsOf p).length ≠ 0 := by
    unfold recsOf
    split
    · exact Nat.one_ne_zero
    next h => exact fun hl => h (by rw [List.length_eq_zero_iff.1 hl]; rfl)
  have hhead : ((List.range (recsOf p).length).map v).headD 0 = v 0 := by
    obtain ⟨k, hk⟩ := Nat.exists_eq_succ_of_ne_zero hne
    rw [hk, List.range_succ_eq_map]
    rfl
  have hlen := State.rawKeys_length hk
  have hall : op.after p.head.opnd2 (bitsOf 64 (ks.map s.byte)) (recsOf p) = v (recsOf p).length := by
    show _ = op.after _ _ _
    rw [List.take_length]
  obtain ⟨mem, hmem⟩ := u.putCells_mem_only (ks.zip (leBytes (v (recsOf p).length).toNat op.bytes))
  have hbyte (k : Nat) : u.byte k = s.byte k := by rw [hframe]; rfl
  refine ⟨u.putCells (ks.zip (leBytes (v (recsOf p).length).toNat op.bytes)), ?_, by rw [hmem, hframe], fun k hk => ?_, fun hnd j hj => ?_, fun h1 => ?_⟩
  · rw [m.atreq_word hop, h63, hal, if_neg (by decide), hk, State.atWord]
    dsimp only
    rw [hp, hu, hall, if_neg Bool.false_ne_true, if_neg Bool.false_ne_true, ← hhead]
  · rw [State.byte_putCells_zip_out _ _ hk, hbyte]
  · rw [State.byte_putCells_zip_in _ (by rw [leBytes_length, hlen]) hnd hj, leBytes_toNat_getD _ (hlen ▸ hj)]
  · have hrecs : recsOf p = [{ srcdev := p.head.srcdev, srcagt := p.head.srcagt, seq := p.head.seq, opnd := p.head.opnd }] := if_pos (by rw [h1]; rfl)
    have hw := hm _ (by rw [hrecs]; exact List.mem_singleton_self _)
    rw [hmem]
    rw [hrecs, State.atMembers] at hu
    dsimp only at hw hu
    rw [hw, if_neg Bool.false_ne_true, State.atMembers] at hu
    obtain ⟨hfst, -⟩ := Prod.ext_iff.1 hu
    show u.dedup = _ ∧ u.rcache = _
    rw [← show _ = u from hfst]
    exact ⟨rfl, rfl⟩
end

/-! ### PUSH and PULLREQ (R68, R459) -/

theorem mixBytes_eq (x : Bool) (old new : List Byte) : mixBytes x old new = if x then old.zipWith (· ^^^ ·) new else new := by
  rw [mixBytes]
  refine if_congr Iff.rfl ?_ rfl
  rw [List.zip, List.map_zipWith]
/-- The bytes of an address outside the tensors are those that the context's windows give (R459). -/
theorem State.reach_raw (s : State) {p : Pkt} (h : p.head.addr.getLsbD 63 = false) (len : Nat) (w : Bool) :
    s.reach p len w = match s.rawKeys p.head.cid p.head.addr len (if w then .w else .r) with | none => .range | some ks => .ok ks s := by
  unfold State.reach
  dsimp only
  rw [h]
  rfl

section
variable {s : State} {p : Pkt} (m : FreshReq s p 4)
include m
theorem FreshReq.push_writes {ks : List Nat} {u : State} (h : s.reach p p.bytes.length true = .ok ks u) :
    ∃ v : State, exec (.push p) s = .next ((v.markSeq p.head.srcdev p.head.cid p.head.inc p.head.seq).reply (respTo p 7 0 0 [])) ∧
      Stored u v (ks.zip (if p.head.xr then (ks.map u.byte).zipWith (· ^^^ ·) p.bytes else p.bytes)) := by
  refine ⟨_, ?_, u.writeBytes_stored _⟩
  show execPush p s = _
  unfold execPush
  rw [m.does]
  refine congrArg _ ?_
  dsimp only
  rw [h]
  dsimp only
  rw [mixBytes_eq]
theorem FreshReq.push_refused (h : s.reach p p.bytes.length true = .range) : exec (.push p) s = .next ((s.noEdge p).reply (respTo p 7 2 0 [])) := by
  show execPush p s = _
  unfold execPush
  rw [m.does]
  refine congrArg _ ?_
  dsimp only
  rw [h]
theorem FreshReq.push_busy {u : State} (h : s.reach p p.bytes.length true = .busy u) : exec (.push p) s = .next (u.reply (respTo p 7 3 0 [])) := by
  show execPush p s = _
  unfold execPush
  rw [m.does]
  refine congrArg _ ?_
  dsimp only
  rw [h]
end

section
variable {s : State} {p : Pkt}
theorem State.pulled_long (h : 4096 < p.head.opnd.toNat) : s.pulled p = s.reply (respTo p 6 2 0 []) := if_pos h
variable (hn : p.head.opnd.toNat ≤ 4096)
include hn
theorem State.pulled_refused (h : s.reach p p.head.opnd.toNat false = .range) : s.pulled p = (s.noEdge p).reply (respTo p 6 2 0 []) := by
  unfold State.pulled
  dsimp only
  rw [if_neg (Nat.not_lt.2 hn), h]
theorem State.pulled_busy {u : State} (h : s.reach p p.head.opnd.toNat false = .busy u) : s.pulled p = u.reply (respTo p 6 3 0 []) := by
  unfold State.pulled
  dsimp only
  rw [if_neg (Nat.not_lt.2 hn), h]
theorem State.pulled_reads {ks : List Nat} {u : State} (h : s.reach p p.head.opnd.toNat false = .ok ks u) :
    (u.anyPoison ks = false → s.pulled p = (u.markSeq p.head.srcdev p.head.cid p.head.inc p.head.seq).reply (respTo p 6 0 0 (ks.map u.byte))) ∧
    (u.anyPoison ks = true → s.pulled p = u.reply (respTo p 6 1 0 [])) := by
  unfold State.pulled
  dsimp only
  rw [if_neg (Nat.not_lt.2 hn), h]
  exact ⟨fun hp => if_neg (by rw [hp]; exact Bool.false_ne_true), fun hp => if_pos hp⟩
end

/-! ### Responses at their issuer (R65, R66, R70) -/

theorem State.dropReq_eq (s : State) (o : OReq) : s.dropReq o =
    { s with oreqs := s.oreqs.filter fun x => x ≠ o, txq := s.txq.filter fun t => ¬(t.pkt.members = [] ∧ s.isCopy t.pkt o = true) } := by
  have ho : (fun x : OReq => x != o) = fun x => decide (x ≠ o) := funext fun x => by
    by_cases hx : x = o <;> simp [hx]
  have ht : (fun t : Tx => !(t.pkt.members.isEmpty && s.isCopy t.pkt o)) = fun t => decide ¬(t.pkt.members = [] ∧ s.isCopy t.pkt o = true) := funext fun t => by
    cases t.pkt.members <;> cases s.isCopy t.pkt o <;> simp
  rw [State.dropReq, ho, ht]
theorem State.busyReq_eq (s : State) (o : OReq) : s.busyReq o = { s with oreqs := s.oreqs.map fun x => if x = o then { x with busy := true, start := s.gts } else x } := by
  have ho : (fun x : OReq => if x == o then { x with busy := true, start := s.gts } else x) = fun x => if x = o then { x with busy := true, start := s.gts } else x := 
    funext fun x => if_congr beq_iff_eq rfl rfl
  rw [State.busyReq, ho]
theorem not_mine {s : State} {h : Held} : (!isSup h.core && !s.live h.cid h.inc) = true ↔ ¬(isSup h.core = true ∨ s.live h.cid h.inc = true) := by
  cases isSup h.core <;> cases s.live h.cid h.inc <;> simp

section
variable {s : State} {p : Pkt} {kinds : List Nat} {ok : OReq → State → State}
theorem respond_none (h : s.answered p kinds = none) : s.respond p kinds ok = s.countAt p Port.orph1 := by
  unfold State.respond
  rw [h]
variable {o : OReq} (ho : s.answered p kinds = some o)
include ho
theorem respond_dead (h : ¬(isSup o.held.core = true ∨ s.live o.held.cid o.held.inc = true)) : s.respond p kinds ok = (s.dropReq o).countAt p Port.orph1 := by
  unfold State.respond
  rw [ho]
  exact if_pos (not_mine.2 h)
variable (hm : isSup o.held.core = true ∨ s.live o.held.cid o.held.inc = true)
include hm
theorem respond_mine : s.respond p kinds ok = match p.head.status.toNat with
    | 0 => ok o (s.dropReq o)
    | 3 => s.busyReq o
    | 2 => (s.dropReq o).reqFail o.held (rangeFault o.pkt.head.addr) (rangeVal o.held o.pkt.head.addr) 0
    | _ => (if s.reqTold o.held then s.dropReq o else (s.dropReq o).heldStop o.held fEccUe o.pkt.head.addr).reqEnd o.held := by
  unfold State.respond
  rw [ho]
  exact if_neg fun h => not_mine.1 h hm
theorem respond_ok (h : p.head.status = 0) : s.respond p kinds ok = ok o (s.dropReq o) := by
  rw [respond_mine ho hm, h]
  rfl
theorem respond_busy (h : p.head.status = 3) : s.respond p kinds ok = s.busyReq o := by
  rw [respond_mine ho hm, h]
  rfl
theorem respond_range (h : p.head.status = 2) :
    s.respond p kinds ok = (s.dropReq o).reqFail o.held (rangeFault o.pkt.head.addr) (rangeVal o.held o.pkt.head.addr) 0 := by
  rw [respond_mine ho hm, h]
  rfl
theorem respond_poison (h : p.head.status = 1) (ht : s.reqTold o.held = false) :
    s.respond p kinds ok = ((s.dropReq o).heldStop o.held fEccUe o.pkt.head.addr).reqEnd o.held := by
  rw [respond_mine ho hm, h, ht]
  rfl
end

section
variable {s : State} {p : Pkt} {v : Word} {status : Nat}
theorem atomAnswer_none (h : s.answered p [3] = none) : s.atomAnswer p status v = s.countAt p Port.orph1 := by
  unfold State.atomAnswer
  rw [h]
variable {o : OReq} (ho : s.answered p [3] = some o)
include ho
theorem atomAnswer_dead (h : ¬(isSup o.held.core = true ∨ s.live o.held.cid o.held.inc = true)) : s.atomAnswer p status v = (s.dropReq o).countAt p Port.orph1 := by
  unfold State.atomAnswer
  rw [ho]
  exact if_pos (not_mine.2 h)
theorem atomAnswer_mine (hm : isSup o.held.core = true ∨ s.live o.held.cid o.held.inc = true) : s.atomAnswer p status v =
    if status == 3 then s.busyReq o
    else if status == 2 then (s.dropReq o).reqFail o.held (rangeFault o.pkt.head.addr) o.pkt.head.addr 0
    else if status == 1 then ((s.dropReq o).deliver o.held 0 true).raise o.held.core .cc fAtomPoison o.pkt.head.addr o.held.e false 0
    else (s.dropReq o).deliver o.held v true := by
  unfold State.atomAnswer
  rw [ho]
  exact if_neg fun h => not_mine.1 h hm
end

/-- A line that the L2 will keep, and does not hold yet, is kept (R242). -/
def State.keepLine (u : State) (o : OReq) (bs : List Byte) : State :=
  let pid := u.heldPid o.held
  if o.keep = true ∧ u.l2Find (some o.pkt.head.dstdev) pid o.pkt.head.addr.toNat = none then
    u.l2Put pid { dev := some o.pkt.head.dstdev, pid := pidTag pid, addr := o.pkt.head.addr.toNat / 64, data := bitsOf 512 bs } else u
section
variable {s : State} {p : Pkt} {o : OReq}
/-- A response that refuses its request, or comes too late for it (R65, R66). -/
theorem response_refused {i : Instr} {kinds : List Nat} {ok : OReq → State → State} (hi : exec i s = .next (s.respond p kinds ok)) (ho : s.answered p kinds = some o) :
    let mine := isSup o.held.core = true ∨ s.live o.held.cid o.held.inc = true
    (¬mine → exec i s = .next ((s.dropReq o).countAt p Port.orph1)) ∧
    (mine → p.head.status = 2 → exec i s = .next ((s.dropReq o).reqFail o.held (rangeFault o.pkt.head.addr) (rangeVal o.held o.pkt.head.addr) 0)) ∧
    (mine → p.head.status = 3 → exec i s = .next (s.busyReq o)) ∧
    (mine → p.head.status = 1 → s.reqTold o.held = false → exec i s = .next (((s.dropReq o).heldStop o.held fEccUe o.pkt.head.addr).reqEnd o.held)) := by
  rw [hi]
  exact ⟨fun h => congrArg _ (respond_dead ho h), fun h hs => congrArg _ (respond_range ho h hs), fun h hs => congrArg _ (respond_busy ho h hs),
    fun h hs ht => congrArg _ (respond_poison ho h hs ht)⟩
variable (hd : p.head.dstdev = s.conf.devnum)
include hd
theorem arrive_here {kind : BitVec 8} (hg : malformed kind p = false) (k : State) : s.arrive kind p k = .next k := by
  rw [State.arrive, hg, if_neg Bool.false_ne_true, hd, bne_self_eq_false, if_neg Bool.false_ne_true]
theorem data_responds (hg : malformed 6 p = false) : ∃ ok, exec (.data p) s = .next (s.respond p [1, 5] ok) := ⟨_, arrive_here hd hg _⟩
theorem ack_responds (hg : malformed 7 p = false) : ∃ ok, exec (.ack p) s = .next (s.respond p [2, 4] ok) := ⟨_, arrive_here hd hg _⟩
theorem atresp_answers (hg : malformed 8 p = false) (hn : p.head.nmem = 0) : exec (.atresp p) s = .next (s.atomAnswer p p.head.status.toNat p.head.opnd) := by
  have hnone : s.combs.find? (fun c => c.tag == p.head.tag && p.head.nmem != 0) = none := by
    rw [List.find?_eq_none]
    intro c _
    rw [hn]
    simp
  show execAtresp p s = _
  unfold execAtresp
  rw [hnone, arrive_here hd hg]
theorem atresp_completes (hg : malformed 8 p = false) (hn : p.head.nmem = 0) (ho : s.answered p [3] = some o) :
    let mine := isSup o.held.core = true ∨ s.live o.held.cid o.held.inc = true
    let a := o.pkt.head.addr
    (¬mine → exec (.atresp p) s = .next ((s.dropReq o).countAt p Port.orph1)) ∧ (mine →
      (p.head.status = 0 → exec (.atresp p) s = .next ((s.dropReq o).deliver o.held p.head.opnd true)) ∧
      (p.head.status = 1 → exec (.atresp p) s = .next (((s.dropReq o).deliver o.held 0 true).raise o.held.core .cc 0x0F a o.held.e false 0)) ∧
      (p.head.status = 2 → exec (.atresp p) s = .next ((s.dropReq o).reqFail o.held (if a.getLsbD 63 then 0x08 else 0x07) a 0)) ∧
      (p.head.status = 3 → exec (.atresp p) s = .next (s.busyReq o))) := by
  rw [atresp_answers hd hg hn]
  refine ⟨fun hm => congrArg _ (atomAnswer_dead ho hm), fun hm => ?_⟩
  rw [atomAnswer_mine ho hm, show rangeFault o.pkt.head.addr = if o.pkt.head.addr.getLsbD 63 then 0x08 else 0x07 from rfl, show fAtomPoison = 0x0F from rfl]
  refine ⟨fun hs => ?_, fun hs => ?_, fun hs => ?_, fun hs => ?_⟩
  · rw [hs, if_neg (by decide), if_neg (by decide), if_neg (by decide)]
  · rw [hs, if_neg (by decide), if_neg (by decide), if_pos (by decide)]
  · rw [hs, if_neg (by decide), if_pos (by decide)]
  · rw [hs, if_pos (by decide)]
theorem atresp_splits (hg : malformed 8 p = false) {c : CombRec} (hc : s.combs.find? (fun c => c.tag == p.head.tag && p.head.nmem != 0) = some c) :
    exec (.atresp p) s = .next (({ s with combs := s.combs.filter fun x => x ≠ c } : State).splitResp p (p.members.map (·.opnd)) c.members) := by
  have hf : (fun x : CombRec => x != c) = fun x => decide (x ≠ c) := funext fun x => by
    by_cases hx : x = c <;> simp [hx]
  show execAtresp p s = _
  unfold execAtresp
  rw [hc, arrive_here hd hg]
  dsimp only
  rw [hf]
variable (hm : isSup o.held.core = true ∨ s.live o.held.cid o.held.inc = true) (h0 : p.head.status = 0)
include hm h0
theorem data_completes (hg : malformed 6 p = false) (ho : s.answered p [1, 5] = some o) (hc : ¬∃ j, o.held.act = .cpy j) :
    exec (.data p) s = .next (((s.dropReq o).keepLine o p.bytes).deliver o.held (bitsOf 64 ((p.bytes.drop (o.pkt.head.addr.toNat % 64)).take 8)) true) := by
  refine (arrive_here hd hg _).trans (congrArg _ ((respond_ok ho hm h0).trans ?_))
  have hkeep : (s.dropReq o).keepLine o p.bytes =
      if (o.keep && ((s.dropReq o).l2Find (some o.pkt.head.dstdev) ((s.dropReq o).heldPid o.held) o.pkt.head.addr.toNat).isNone) = true then (s.dropReq o).l2Put ((s.dropReq o).heldPid o.held)
        { dev := some o.pkt.head.dstdev, pid := pidTag ((s.dropReq o).heldPid o.held), addr := o.pkt.head.addr.toNat / 64, data := bitsOf 512 p.bytes } else s.dropReq o :=
    if_congr (by rw [Bool.and_eq_true, Option.isNone_iff_eq_none]) rfl rfl
  rw [hkeep]
  dsimp only
  split
  next j ha => exact absurd ⟨j, ha⟩ hc
  · rfl
theorem data_lands (hg : malformed 6 p = false) (ho : s.answered p [1, 5] = some o) {j : CpyJob} (hj : o.held.act = .cpy j) :
    exec (.data p) s = .next (((s.dropReq o).landPull o.held j o.pkt.head.addr p.bytes).parentDone { o.held with parent := some o.held.id }) := by
  refine (arrive_here hd hg _).trans (congrArg _ ((respond_ok ho hm h0).trans ?_))
  dsimp only
  rw [hj]
theorem ack_completes (hg : malformed 7 p = false) (ho : s.answered p [2, 4] = some o) :
    ((¬∃ j, o.held.act = .cpy j) → exec (.ack p) s = .next ((s.dropReq o).heldSig o.held)) ∧
    ((∃ j, o.held.act = .cpy j) → exec (.ack p) s = .next ((s.dropReq o).parentDone { o.held with parent := some o.held.id })) := by
  refine ⟨fun hc => ?_, fun ⟨j, hj⟩ => ?_⟩
  · refine (arrive_here hd hg _).trans (congrArg _ ((respond_ok ho hm h0).trans ?_))
    dsimp only
    split
    next j ha => exact absurd ⟨j, ha⟩ hc
    · rfl
  · refine (arrive_here hd hg _).trans (congrArg _ ((respond_ok ho hm h0).trans ?_))
    dsimp only
    rw [hj]
end

/-- One member's result leaves its combining point for another device, under that member's SEQ and TAG (R73). -/
theorem State.splitResp_one (u : State) (p : Pkt) (v : Word) (vs : List Word) {q : Pkt} (qs : List Pkt) (hq : q.members = []) (hd : q.head.srcdev ≠ u.conf.devnum) :
    u.splitResp p (v :: vs) (q :: qs) = (u.enqueue (partResp p q [v])).splitResp p vs qs := by
  have hr : recsOf q = [{ srcdev := q.head.srcdev, srcagt := q.head.srcagt, seq := q.head.seq, opnd := q.head.opnd }] := if_pos (by rw [hq]; rfl)
  rw [State.splitResp, hr]
  refine congrArg (fun t : State => t.splitResp p vs qs) (if_neg ?_)
  simp [hd]

theorem request_front (s : State) (p : Pkt) : ∀ x ∈ [((1 : BitVec 8), Instr.ldreq p), (2, .streq p), (3, .atreq p), (4, .push p), (5, .pullreq p)],
    ∃ marked fresh, exec x.2 s = s.request_ x.1 p marked fresh := by
  intro x hx
  fin_cases hx
  · exact ⟨_, _, execLdreq.eq_1 p s⟩
  · exact ⟨_, _, execStreq.eq_1 p s⟩
  · exact ⟨_, _, execAtreq.eq_1 p s⟩
  · exact ⟨_, _, execPush.eq_1 p s⟩
  · exact ⟨_, _, execPullreq.eq_1 p s⟩
theorem respKind_eq (k : BitVec 8) : respKind k = if k = 1 ∨ k = 5 then 6 else if k = 3 then 8 else 7 :=
  if_congr (by rw [Bool.or_eq_true, beq_iff_eq, beq_iff_eq]) rfl (if_congr beq_iff_eq rfl rfl)

/-- Settles O46: what an arriving packet meets, in its order, and what a request that is performed and a response that is expected do. -/
theorem fabricArrivals : Obligations.FabricArrivals := by
  unfold Obligations.FabricArrivals
  intro s p f count bad dup stale orph ends old live requests responses
  refine ⟨fun x hx => ?_, fun hd => ?_⟩
  · have hx : x ∈ arrivals p := hx
    exact ⟨arrival_malformed hx, fun hg hne => ⟨fun hno => (arrival_far hx hg hne).trans (congrArg _ (takeRelay_refused hno)),
      fun hno hl => (arrival_far hx hg hne).trans (congrArg _ (takeRelay_stale hno hl)),
      fun hno hl a b ha hb => (arrival_far hx hg hne).trans (congrArg _ (takeRelay_taken hno hl ha hb))⟩⟩
  intro win one meets again full fresh marks fromCache
  have hfresh {kind : BitVec 8} (h : fresh kind) : FreshReq s p kind := by
    obtain ⟨hg, ⟨hy, hc, hl⟩, hn, hf⟩ := h
    exact ⟨hg, hd, hy, hc, hl, hn, hf⟩
  refine ⟨fun x hx hg => ?_, fun ⟨⟨hy, hc, hl⟩, h1, hb, hm⟩ => ?_, fun h => ?_, fun h => ?_, fun h => ?_, fun len w h63 => s.reach_raw h63 len w, fun h => ?_, fun h => ?_, fun o => ?_,
    fun hg hn => ?_, fun hg hn => ?_, fun hg h0 hn => ?_, fun hg h0 c hc => ?_, fun u v vs q qs hq => ?_⟩
  · obtain ⟨mk, fr, hx⟩ := request_front s p x hx
    rw [show ends x.2 = fun t => s.request_ x.1 p mk fr = .next t from funext fun t => by rw [← hx]]
    refine ⟨fun ho => request_old hg hd ho, fun hy h => request_stale hg hd hy h, fun ⟨hy, hc, hl⟩ h1 hb => request_below hg hd hy hc hl h1 hb, fun ⟨hy, hc, hl⟩ hn hf => ?_⟩
    refine (request_full hg hd hy hc hl (fun h1 => ?_) hf).trans (by rw [respKind_eq])
    simpa using fun h => hn ⟨h1, h⟩
  · have hag {kind : BitVec 8} {marked fr : State → State} (hg : malformed kind p = false) : s.request_ kind p marked fr = .next (marked s) := request_again hg hd hy hc hl h1 hb hm
    have hcache {i : Instr} (hi : exec i s = .next (s.answerCached p)) : fromCache i := by
      refine ⟨fun r hr => hi.trans (congrArg _ ?_), fun hr => hi.trans (congrArg _ ?_)⟩
      · unfold State.answerCached
        rw [hr]
      · unfold State.answerCached
        rw [hr]
        rfl
    exact ⟨fun hg => hcache ((execLdreq.eq_1 p s).trans (hag hg)), fun hg => hcache ((execAtreq.eq_1 p s).trans (hag hg)), fun hg => (execStreq.eq_1 p s).trans (hag hg),
      fun hg => (execPush.eq_1 p s).trans (hag hg)⟩
  · exact ⟨fun hr => (hfresh h).ldreq_refused hr, fun h63 h8 ks ls hk hl => (hfresh h).ldreq_reads h63 h8 hk hl⟩
  · exact ⟨fun hr => (hfresh h).streq_refused hr, fun h63 h8 ks hk => (hfresh h).streq_writes h63 h8 hk⟩
  · refine ⟨fun hop => (hfresh h).atreq_unknown hop, fun op hop => ?_⟩
    rw [← op.bytes_eq]
    exact ⟨fun hr => (hfresh h).atreq_refused hop hr, fun h63 hal ks hk hp hn hm => (hfresh h).atreq_performs hop h63 hal hk hp hn hm⟩
  · exact ⟨fun ks u hr => (hfresh h).push_writes hr, fun hr => (hfresh h).push_refused hr, fun u hr => (hfresh h).push_busy hr⟩
  · have hi : exec (.pullreq p) s = .next (s.pulled p) := by
      rcases h with h | ⟨⟨⟨hy, hc, hl⟩, h1, hb, hm⟩, hg⟩
      · exact (execPullreq.eq_1 p s).trans (hfresh h).does
      · exact (execPullreq.eq_1 p s).trans (request_again hg hd hy hc hl h1 hb hm)
    exact ⟨fun hn => hi.trans (congrArg _ (State.pulled_long hn)), fun hn => ⟨fun ks u hr =>
      ⟨fun hp => hi.trans (congrArg _ ((State.pulled_reads hn hr).1 hp)), fun hp => hi.trans (congrArg _ ((State.pulled_reads hn hr).2 hp))⟩,
      fun hr => hi.trans (congrArg _ (State.pulled_refused hn hr)), fun u hr => hi.trans (congrArg _ (State.pulled_busy hn hr))⟩⟩
  · intro h a mine copy gone fails waits drops refused keep
    have hgone : gone = s.dropReq o := (s.dropReq_eq o).symm
    have href {i : Instr} {kinds : List Nat} {ok : OReq → State → State} (hi : exec i s = .next (s.respond p kinds ok)) (ho : s.answered p kinds = some o) : refused i := by
      obtain ⟨h1, h2, h3, h4⟩ := response_refused hi ho
      rw [State.dropReq_eq] at h1 h2 h4
      rw [State.busyReq_eq] at h3
      exact ⟨h1, h2, h3, h4⟩
    refine ⟨fun hg ho => ?_, fun hg ho => ?_, fun hg h0 ho => ?_⟩
    · obtain ⟨ok, hi⟩ := data_responds hd hg
      rw [hgone]
      exact ⟨href hi ho, fun hm hs hc => data_completes hd hm hs hg ho hc, fun j hm hs hj => data_lands hd hm hs hg ho hj⟩
    · obtain ⟨ok, hi⟩ := ack_responds hd hg
      rw [hgone]
      exact ⟨href hi ho, fun hm hs => (ack_completes hd hm hs hg ho).1, fun hm hs => (ack_completes hd hm hs hg ho).2⟩
    · obtain ⟨h1, h2⟩ := atresp_completes hd hg h0 ho
      rw [State.dropReq_eq, State.busyReq_eq] at h2
      rw [State.dropReq_eq] at h1
      exact ⟨h1, h2⟩
  · obtain ⟨ok, hi⟩ := data_responds hd hg
    exact hi.trans (congrArg _ (respond_none hn))
  · obtain ⟨ok, hi⟩ := ack_responds hd hg
    exact hi.trans (congrArg _ (respond_none hn))
  · exact (atresp_answers hd hg h0).trans (congrArg _ (atomAnswer_none hn))
  · exact atresp_splits hd hg hc
  · refine ⟨fun hne => (u.splitResp_one p v vs qs hq hne).trans ?_, rfl⟩
    rw [partResp, hq]
    rfl

end Sys2Proof.Machine
end

section
/-! PROOFS of the FabricRetries statement (O47): retransmission and abandonment, paths, combined atomics and second hops. -/

set_option Elab.async false

namespace Sys2Proof.Machine

/-! ### Requests sent again, and abandoned (R70) -/

section
variable {s : State} {o : OReq}
theorem pathFailed_iff : s.pathFailed o = true ↔ ∀ port relay, o.path = some (port, relay) → (s.port port).up = false ∨ ∃ d, relay = some d ∧ s.pos d = none := by
  unfold State.pathFailed
  cases hp : o.path with
  | none => exact ⟨fun _ _ _ h => (nomatch h), fun _ => rfl⟩
  | some k =>
    obtain ⟨port, relay⟩ := k
    have hone : (∀ q r, some (port, relay) = some (q, r) → (s.port q).up = false ∨ ∃ d, r = some d ∧ s.pos d = none) ↔
        ((s.port port).up = false ∨ ∃ d, relay = some d ∧ s.pos d = none) :=
      ⟨fun h => h port relay rfl, fun h q r he => by cases he; exact h⟩
    rw [hone]
    cases relay <;> simp
theorem retryDue_iff : s.retryDue o = true ↔ (o.tx = true ∧ (∀ t ∈ s.txq, s.isCopy t.pkt o = false) ∧
    (51200 ≤ s.gts.toNat - o.sent.toNat ∨ o.busy = true ∧ 25600 ≤ s.gts.toNat - o.start.toNat)) ∨ s.pathFailed o = true := by
  have hq : (!s.queued o) = true ↔ ∀ t ∈ s.txq, s.isCopy t.pkt o = false := by
    rw [Bool.not_eq_true', State.queued, List.any_eq_false]
    exact forall₂_congr fun t _ => Bool.not_eq_true _ ▸ Iff.rfl
  unfold State.retryDue
  dsimp only
  rw [Bool.or_eq_true, Bool.and_eq_true, Bool.and_eq_true, Bool.or_eq_true, Bool.and_eq_true, hq, decide_eq_true_eq, decide_eq_true_eq, and_assoc]
  rfl
theorem over_iff (now : Word) : o.over now = true ↔ o.tx = true ∧ 102400 < now.toNat - o.start.toNat := by
  rw [OReq.over, Bool.and_eq_true, decide_eq_true_eq]
  rfl
theorem dropCopies_eq (s : State) (o : OReq) : (fun t : Tx => !(t.pkt.members.isEmpty && s.isCopy t.pkt o)) = fun t => decide ¬(t.pkt.members = [] ∧ s.isCopy t.pkt o = true) :=
  funext fun t => by cases t.pkt.members <;> cases s.isCopy t.pkt o <;> simp

variable {i : Nat} (ho : s.oreqs[i]? = some o)
include ho
theorem fabricRetransmit_sends (hd : s.retryDue o = true) (hl : ¬o.over s.gts = true) : exec (.fabricRetransmit i) s = .next
    (({ s with txq := s.txq.filter fun t => ¬(t.pkt.members = [] ∧ s.isCopy t.pkt o = true), oreqs := s.oreqs.set i { o with busy := false } } : State).enqueueFor o.pkt o.tx o.path) := by
  show execFabricRetransmit i s = _
  unfold execFabricRetransmit
  rw [ho]
  dsimp only
  rw [if_neg (by rw [hd]; simpa using hl), dropCopies_eq]
theorem fabricRetransmit_waits (h : ¬s.retryDue o = true ∨ o.over s.gts = true) : exec (.fabricRetransmit i) s = .next s := by
  show execFabricRetransmit i s = _
  unfold execFabricRetransmit
  rw [ho]
  exact if_pos (by simpa using h)
theorem fabricAbandon_unsent (ht : o.tx = false) (hp : s.pos o.pkt.head.dstdev = none) :
    exec (.fabricAbandon i) s = .next ((s.dropReq o).reqFail o.held 0x11 o.held.w (flitBits o.pkt.head)) := by
  show execFabricAbandon i s = _
  unfold execFabricAbandon
  rw [ho]
  exact if_pos (by rw [ht, hp]; rfl)
variable (hs : o.tx = true ∨ s.pos o.pkt.head.dstdev ≠ none)
include hs
theorem fabricAbandon_sent : exec (.fabricAbandon i) s = if s.gts.toNat - o.sent.toNat < 103400 then .next s else .next (s.abandon o) := by
  show execFabricAbandon i s = _
  unfold execFabricAbandon
  rw [ho]
  refine if_neg ?_
  rw [Bool.and_eq_true, Option.isNone_iff_eq_none, Bool.not_eq_true']
  exact fun ⟨ht, hp⟩ => hs.elim (fun h => by rw [ht] at h; cases h) (· hp)
theorem fabricAbandon_late (h : 103400 ≤ s.gts.toNat - o.sent.toNat) :
    ((isSup o.held.core = true ∨ s.live o.held.cid o.held.inc = true) → exec (.fabricAbandon i) s =
      .next ((s.dropReq o).reqFail o.held (if o.pkt.head.kind = 1 ∨ o.pkt.head.kind = 5 then 0x11 else 0x10) o.held.w (flitBits o.pkt.head))) ∧
    (¬(isSup o.held.core = true ∨ s.live o.held.cid o.held.inc = true) → exec (.fabricAbandon i) s = .next (s.dropReq o)) := by
  have hfault : abandonFault o.pkt.head.kind = if o.pkt.head.kind = 1 ∨ o.pkt.head.kind = 5 then 0x11 else 0x10 :=
    if_congr (by rw [Bool.or_eq_true, beq_iff_eq, beq_iff_eq]) rfl rfl
  rw [fabricAbandon_sent ho hs, if_neg (Nat.not_lt.2 h), State.abandon, hfault]
  exact ⟨fun hm => congrArg _ (if_neg fun hn => not_mine.1 hn hm), fun hm => congrArg _ (if_pos (not_mine.2 hm))⟩
end

/-! ### Paths (R56, R58) -/

theorem nextSlot_mod (i t : Nat) : nextSlot i t % 16 = t % 16 := by
  unfold nextSlot
  omega

/-- A packet of this device that waits for the slot of a path. -/
def State.queuedTx (s : State) (p : Pkt) (retry : Bool) (k : Plan) : Tx :=
  let sent : Pkt := { p with head := { p.head with srcdev := s.conf.devnum, rly := false, rlydev := k.relay.getD 0, gts := s.gts } }
  { pkt := sent, port := k.port, slot := k.slot, since := s.cycle, retry := retry, hop := k.relay.isSome, buf := s.bufRoom sent k.port }
theorem mem_pathOrder_direct {a b now j : Nat} (h : (j, none) ∈ pathOrder a b now) : j % 16 = (a ^^^ b) % 16 := by
  unfold pathOrder at h
  dsimp only at h
  obtain ⟨t, -, h⟩ := List.mem_flatMap.1 h
  rcases List.mem_append.1 h with h | h
  · obtain ⟨c, -, hc⟩ := List.mem_map.1 (List.mem_filter.1 h).1
    obtain ⟨rfl, -⟩ := Prod.ext_iff.1 hc
    rw [Nat.add_mul_mod_self_left, nextSlot_mod, Nat.mod_mod]
  · obtain ⟨c, -, hc⟩ := List.mem_map.1 (List.mem_filter.1 h).1
    cases (Prod.ext_iff.1 hc).2

section
variable {s : State} {a b : Nat} {p : Pkt}
/-- What a path is: a direct meeting, or a relay that the first hop meets. -/
theorem mem_plans {k : Plan} (hk : k ∈ s.plans a b p) : (s.port k.port).up = true ∧ (k.relay = none → k.port = (a ^^^ b) / 16 ∧ k.slot % 16 = (a ^^^ b) % 16) ∧
    ∀ d, k.relay = some d → s.devAt (a ^^^ (16 * k.port + k.slot % 16)) = some d := by
  unfold State.plans at hk
  dsimp only at hk
  obtain ⟨⟨j, hop⟩, hc, hk⟩ := List.mem_flatMap.1 hk
  cases hop with
  | none =>
    dsimp only at hk
    split at hk
    next hup =>
      obtain rfl := List.mem_singleton.1 hk
      exact ⟨hup, fun _ => ⟨rfl, mem_pathOrder_direct hc⟩, fun d h => (nomatch h)⟩
    · cases hk
  | some i =>
    dsimp only at hk
    unfold State.relayPorts at hk
    obtain ⟨q, -, hq⟩ := List.mem_filterMap.1 hk
    dsimp only at hq
    split at hq
    next d hdev =>
      split at hq
      next hup =>
        cases hq
        rw [Bool.and_eq_true, Bool.and_eq_true] at hup
        obtain ⟨⟨hup, -⟩, -⟩ := hup
        exact ⟨hup, fun h => (nomatch h), fun d' h => by cases h; exact hdev⟩
      · cases hq
    · cases hq
/-- The path chosen: one that is not to be avoided, where there is one (R58, R70). -/
theorem plan_chooses (av : Option (Nat × Option (BitVec 8))) (h : s.plans a b p ≠ []) :
    ∃ k, k ∈ s.plans a b p ∧ s.plan a b p av = some k ∧ (some k.path = av → ∀ j ∈ s.plans a b p, some j.path = av) := by
  unfold State.plan
  dsimp only
  cases hf : (s.plans a b p).find? fun k => some k.path != av with
  | some k =>
    refine ⟨k, List.mem_of_find?_eq_some hf, rfl, fun he => ?_⟩
    have := List.find?_some hf
    rw [bne_iff_ne] at this
    exact absurd he this
  | none =>
    obtain ⟨k, ks, hk⟩ := List.exists_cons_of_ne_nil h
    rw [List.find?_eq_none] at hf
    refine ⟨k, by rw [hk]; exact List.mem_cons_self, by rw [hk]; rfl, fun _ j hj => ?_⟩
    simpa using hf j hj

variable (ha : s.pos s.conf.devnum = some a) (hb : s.pos p.head.dstdev = some b) {retry : Bool} {av : Option (Nat × Option (BitVec 8))}
include ha hb
theorem enqueueFor_none (h : s.plans a b p = []) : s.enqueueFor p retry av = s := by
  have hplan : s.plan a b p av = none := by rw [State.plan, h]; rfl
  have hplace : s.placeTx p retry av = none := by
    rw [State.placeTx, show s.at_ = some a from ha, hb]
    show (s.plan a b p av).bind _ = none
    rw [hplan]
    rfl
  rw [State.enqueueFor, hplace]
theorem placeTx_plan {k : Plan} (hk : s.plan a b p av = some k) :
    ∃ os, s.placeTx p retry av = some (k, { s with txq := s.txq ++ [s.queuedTx p retry k], oreqs := os }) := by
  have hat : s.at_ = some a := ha
  simp only [State.placeTx, hat, hb, hk, Option.bind_eq_bind, Option.bind_some]
  exact ⟨_, rfl⟩
/-- A packet on a path of a later slot waits for it. -/
theorem enqueueFor_waits {k : Plan} (hk : s.plan a b p av = some k) (hslot : k.slot ≠ s.slotNo) :
    ∃ t x, s.enqueueFor p retry av = t ∧ t = { s with txq := s.txq ++ [x], oreqs := t.oreqs } ∧ x.port = k.port ∧ x.slot = k.slot ∧ x.hop = k.relay.isSome ∧
      x.pkt = { p with head := { p.head with srcdev := s.conf.devnum, rly := false, rlydev := k.relay.getD 0, gts := s.gts } } := by
  obtain ⟨os, hplace⟩ := placeTx_plan ha hb (retry := retry) hk
  refine ⟨{ s with txq := s.txq ++ [s.queuedTx p retry k], oreqs := os }, s.queuedTx p retry k, ?_, rfl, rfl, rfl, rfl, rfl⟩
  rw [State.enqueueFor, hplace]
  exact if_neg (by simpa using hslot)
end

/-! ### Combined atomics (R72, R73) -/

theorem mayMerge_iff (a b : Tx) (h : mayMerge a b = true) :
    let f := a.pkt.head
    let g := b.pkt.head
    f.dstdev = g.dstdev ∧ f.addr = g.addr ∧ f.aop = g.aop ∧ f.aq = g.aq ∧ f.cid = g.cid ∧ f.inc = g.inc ∧ f.nc = false ∧ g.nc = false ∧
      f.aop ≠ 7 ∧ (f.aop ≠ 8 ∨ f.aq = true) ∧ (recsOf a.pkt ++ recsOf b.pkt).length ≤ 64 ∧ a.buf = true ∧ b.buf = true ∧ a.relayed = b.relayed ∧
      portDie a.port = portDie b.port ∧ a.since ≤ b.since := by
  intro f g
  unfold mayMerge at h
  dsimp only at h
  simp only [Bool.and_eq_true, beq_iff_eq, Bool.not_eq_true', decide_eq_true_eq] at h
  obtain ⟨⟨⟨⟨⟨⟨⟨⟨⟨⟨⟨⟨⟨⟨⟨⟨hf, hg⟩, h1⟩, h2⟩, h3⟩, h4⟩, h5⟩, h6⟩, h7⟩, h8⟩, hop⟩, hlen⟩, ha⟩, hb⟩, hr⟩, hdie⟩, hbef⟩ := h
  refine ⟨h1, h2, h3, h4, h5, h6, h7, h8, fun h => ?_, ?_, by rw [List.length_append]; exact hlen, ha, hb, hr, hdie, ?_⟩
  · rw [show atomOfCode a.pkt.head.aop a.pkt.head.aq = some .cas by rw [show a.pkt.head.aop = 7 from h]; rfl] at hop
    cases hop
  · by_contra hne
    obtain ⟨h, hq⟩ := not_or.1 hne
    rw [show atomOfCode a.pkt.head.aop a.pkt.head.aq = some (.fadd false) by rw [show a.pkt.head.aop = 8 from not_not.1 h, show a.pkt.head.aq = false from Bool.eq_false_of_not_eq_true hq]; rfl] at hop
    cases hop
  · unfold combBefore at hbef
    rw [Bool.or_eq_true, decide_eq_true_eq, Bool.and_eq_true, beq_iff_eq] at hbef
    exact hbef.elim Nat.le_of_lt fun h => h.1.le

/-- The packet that two combined ones become, where the first waits (R73). -/
def State.merged (s : State) (a b : Tx) : Tx :=
  let ms := recsOf a.pkt ++ recsOf b.pkt
  let head : Flit := { a.pkt.head with srcdev := s.conf.devnum, nmem := BitVec.ofNat 8 ms.length, nflit := BitVec.ofNat 7 ((ms.length + 3) / 4), tag := BitVec.ofNat 16 s.nextId }
  { a with pkt := { head := head, members := ms } }
/-- What a waiting packet becomes when two combine. -/
def State.mergeSub (s : State) (a b q : Tx) : Option Tx := if q == a then some (s.merged a b) else if q == b then none else some q

section
variable {s : State} {x y : Nat} {a b : Tx} (ha : s.waiting[x]? = some a) (hb : s.waiting[y]? = some b)
include ha hb
theorem atreqCombine_waits (h : x = y ∨ mayMerge a b = false) : exec (.atreqCombine x y) s = .next s := by
  show execAtreqCombine x y s = _
  unfold execAtreqCombine
  rw [ha, hb]
  exact if_pos (by simpa using h)
theorem atreqCombine_eq (hxy : x ≠ y) (hm : mayMerge a b = true) : ∃ keep : List CombRec, exec (.atreqCombine x y) s =
    .next (({ s with nextId := s.nextId + 1, txq := s.txq.filterMap (s.mergeSub a b), relay := s.relay.filterMap (s.mergeSub a b), combs := keep ++
      [{ tag := BitVec.ofNat 16 s.nextId, die := portDie a.port, members := s.partsOf a.pkt ++ s.partsOf b.pkt, made := s.gts }] } : State).modPort a.port Port.comb1) := by
  show ∃ keep : List CombRec, execAtreqCombine x y s = _
  unfold execAtreqCombine
  rw [ha, hb]
  exact ⟨_, if_neg (by simp [hxy, hm])⟩
theorem atreqCombine_combines (hxy : x ≠ y) (hm : mayMerge a b = true) :
    let ms := recsOf a.pkt ++ recsOf b.pkt
    ∃ t, exec (.atreqCombine x y) s = .next t ∧
      t = { s with nextId := s.nextId + 1, combs := t.combs, txq := t.txq, relay := t.relay, ports := t.ports } ∧
      (∀ q ∈ t.waiting, q ∈ s.waiting ∧ q ≠ a ∧ q ≠ b ∨ q = { a with pkt := { members := ms, head := { a.pkt.head with
        srcdev := s.conf.devnum, nmem := BitVec.ofNat 8 ms.length, nflit := BitVec.ofNat 7 ((ms.length + 3) / 4), tag := BitVec.ofNat 16 s.nextId } } }) ∧
      (∃ k ∈ t.combs, k.tag = BitVec.ofNat 16 s.nextId ∧ k.die = portDie a.port ∧ k.members = s.partsOf a.pkt ++ s.partsOf b.pkt) ∧
      (t.port a.port).comb = bump (s.port a.port).comb 1 := by
  intro ms
  obtain ⟨keep, he⟩ := atreqCombine_eq ha hb hxy hm
  refine ⟨_, he, rfl, fun q hq => ?_, ⟨_, List.mem_append_right _ (List.mem_singleton_self _), rfl, rfl, rfl⟩, ?_⟩
  · have hsub {q' : Tx} (h : s.mergeSub a b q' = some q) : q' = q ∧ q ≠ a ∧ q ≠ b ∨ q = s.merged a b := by
      unfold State.mergeSub at h
      split at h
      · exact .inr (Option.some.inj h).symm
      next h1 =>
        split at h
        · cases h
        next h2 =>
          obtain rfl := Option.some.inj h
          exact .inl ⟨rfl, by simpa using h1, by simpa using h2⟩
    have hq : q ∈ s.txq.filterMap (s.mergeSub a b) ++ s.relay.filterMap (s.mergeSub a b) := hq
    rw [← List.filterMap_append] at hq
    obtain ⟨q', hmem, hsome⟩ := List.mem_filterMap.1 hq
    rcases hsub hsome with ⟨rfl, h1, h2⟩ | h
    · exact .inl ⟨hmem, h1, h2⟩
    · exact .inr h
  · exact congrArg Port.comb (SMap.get_set_self ({} : Port) s.ports a.port ((s.port a.port).comb1))
end

/-! ### Second hops (R59) -/

theorem Port.send_length (p : Port) (xs : List (BitVec 2 × BitVec 512)) : (p.send xs).1.length = xs.length := by
  induction xs generalizing p with
  | nil => rfl
  | cons x xs ih =>
    rw [Port.send]
    exact congrArg Nat.succ (ih _)

section
variable {s : State} {i : Nat} {t : Tx} (ht : s.relay[i]? = some t)
include ht
theorem relayForward_early (h : s.slotNo < t.slot) : exec (.relayForward i) s = .next s := by
  show execRelayForward i s = _
  unfold execRelayForward
  rw [ht]
  exact if_pos h
variable (hn : t.slot ≤ s.slotNo)
include hn
theorem relayForward_stale (h : ¬s.live t.pkt.head.cid t.pkt.head.inc = true) : exec (.relayForward i) s =
    .next (({ s with relay := s.relay.eraseIdx i } : State).modPort t.from_ (if isReq t.pkt = true then Port.stale1 else Port.orph1)) := by
  show execRelayForward i s = _
  unfold execRelayForward
  rw [ht]
  exact (if_neg (Nat.not_lt.2 hn)).trans (if_pos (by simpa using h))
variable (hl : s.live t.pkt.head.cid t.pkt.head.inc = true)
include hl
theorem relayForward_live : exec (.relayForward i) s =
    if (s.overAge t.pkt || decide (t.slot < s.slotNo) || !s.fits t) = true then .next (({ s with relay := s.relay.eraseIdx i } : State).modPort t.port Port.bad1)
    else if ((s.ready t.port).head? == some t) = true then .next ((s.transmit t).portSend t.port (s.txq.length + 1)) else .next s := by
  show execRelayForward i s = _
  unfold execRelayForward
  rw [ht]
  exact (if_neg (Nat.not_lt.2 hn)).trans (if_neg (by rw [hl]; decide))
end

theorem State.transmit_relayed (s : State) {t : Tx} (h : t.relayed = true) : ∃ line : List LFlit, line.length = 1 + t.pkt.head.nflit.toNat ∧
    s.transmit t = { s with ports := (s.transmit t).ports, txq := s.txq.erase t, relay := s.relay.erase t,
                            out := s.out ++ [.pkt t.port { t.pkt with head := { t.pkt.head with rly := true } } line] } := by
  refine ⟨((s.port t.port).send (pktFlits (s.stamped t))).1, ?_, ?_⟩
  · rw [Port.send_length, pktFlits, List.length_cons, List.length_map, List.length_range, State.stamped, if_pos h, Nat.add_comm]
  · rw [State.transmit, State.stamped, if_pos h]
    dsimp only
    rw [if_pos h]

/-- Settles O47: when a request is sent again or abandoned, which path a packet takes, what combined atomics become, and when a second hop is made. -/
theorem fabricRetries : Obligations.FabricRetries := by
  unfold Obligations.FabricRetries
  refine ⟨fun s i o ho => ?_, fun s a b p retry av ha hb => ⟨enqueueFor_none ha hb, fun h => ?_, fun k hk => mem_plans hk⟩, fun s x y a b ha hb =>
    ⟨mayMerge_iff a b, atreqCombine_waits ha hb, atreqCombine_combines ha hb⟩, fun s i t ht => ?_⟩
  · intro h dst since period copies failed due late mine gone
    have hgone : gone = s.dropReq o := (s.dropReq_eq o).symm
    have hdue : due ↔ s.retryDue o = true := by rw [retryDue_iff, pathFailed_iff]
    have hlate : late ↔ o.over s.gts = true := (over_iff _).symm
    rw [hdue, hlate, hgone]
    exact ⟨fabricRetransmit_sends ho, fun h => fabricRetransmit_waits ho h, fabricAbandon_unsent ho, fun hs =>
      ⟨fun h => (fabricAbandon_sent ho hs).trans (if_pos h), fun h => (fabricAbandon_late ho hs h).1, fun h => (fabricAbandon_late ho hs h).2⟩⟩
  · obtain ⟨k, hk, hplan, hav⟩ := plan_chooses av h
    exact ⟨k, hk, hplan, hav, enqueueFor_waits ha hb hplan⟩
  · intro f live old no gone
    have hno : no ↔ (s.overAge t.pkt || decide (t.slot < s.slotNo) || !s.fits t) = true := by
      rw [Bool.or_eq_true, Bool.or_eq_true, overAge_iff, decide_eq_true_eq, Bool.not_eq_true', or_assoc]
    refine ⟨relayForward_early ht, fun hn hl => ?_, fun hn hl h => ?_, fun hn hl h hr => ?_, fun hn hl h hr hrel => ?_⟩
    · rw [relayForward_stale ht hn hl]
      refine congrArg (fun g => Host.Outcome.next (State.modPort _ t.from_ g)) (funext fun x => ?_)
      by_cases h5 : t.pkt.head.kind.toNat ≤ 5
      · exact (congrFun (if_pos (decide_eq_true h5)) x).trans (if_pos h5).symm
      · exact (congrFun (if_neg (by rw [isReq, decide_eq_true_eq]; exact h5)) x).trans (if_neg h5).symm
    · rw [relayForward_live ht hn hl, if_pos (hno.1 h)]
      rfl
    · rw [relayForward_live ht hn hl, if_neg fun hb => h (hno.2 hb), if_neg (by simpa using hr)]
    · obtain ⟨line, hlen, hu⟩ := s.transmit_relayed hrel
      exact ⟨s.transmit t, line, by rw [relayForward_live ht hn hl, if_neg fun hb => h (hno.2 hb), if_pos (by rw [hr]; exact beq_self_eq_true _)], hlen, hu⟩

end Sys2Proof.Machine
end

section
/-! SUPPORT. Operations and receives over Ultra Ethernet (R95, R452): what counts a packet or asks for it again. -/

set_option Elab.async false

namespace Sys2Proof.Machine

/-! ### What leaves operations, receives and counters alone -/

/-- The operations and receives of the network engine stand, and so do its counters. -/
structure NetSide (s t : State) : Prop where
  ops : t.ueOps = s.ueOps
  recvs : t.recvs = s.recvs
  nctr : ∀ n, (t.core n).nctr = (s.core n).nctr

theorem NetSide.refl (s : State) : NetSide s s := ⟨rfl, rfl, fun _ => rfl⟩
theorem NetSide.trans {s t u : State} (a : NetSide s t) (b : NetSide t u) : NetSide s u :=
  ⟨b.ops.trans a.ops, b.recvs.trans a.recvs, fun n => (b.nctr n).trans (a.nctr n)⟩
theorem NetSide.ite {s t u : State} {p : Prop} [Decidable p] (a : NetSide s t) (b : NetSide s u) : NetSide s (if p then t else u) := by
  split
  · exact a
  · exact b
theorem NetSide.modCore (s : State) (n : Nat) {f : Core → Core} (hf : ∀ c, (f c).nctr = c.nctr) : NetSide s (s.modCore n f) :=
  ⟨rfl, rfl, fun m => by rw [State.core_modCore]; split <;> simp [hf]⟩
theorem NetSide.putCells (s : State) (cs : List (Nat × Byte)) : NetSide s (s.putCells cs) := by
  obtain ⟨m, hm⟩ := s.putCells_mem_only cs
  rw [hm]
  exact ⟨rfl, rfl, fun _ => rfl⟩
theorem NetSide.fbufPut (s : State) (pid : BitVec 7) (off : Nat) (bs : List Byte) : NetSide s (s.fbufPut pid off bs) := by
  unfold State.fbufPut
  split
  · exact .putCells ..
  · exact .refl s
theorem NetSide.sendTx (s : State) (t : UeTx) : NetSide s (s.sendTx t) := by
  unfold State.sendTx
  split <;> exact ⟨rfl, rfl, fun _ => rfl⟩
theorem NetSide.writeRec (s : State) (pid : BitVec 7) (r : FRec) : NetSide s (s.writeRec pid r) := by
  unfold State.writeRec
  dsimp only
  have hput (a b : Nat) (x y : List Byte) : NetSide s ((s.fbufPut pid a x).fbufPut pid b y) := (NetSide.fbufPut s pid a x).trans (.fbufPut _ pid b y)
  split
  · exact (hput ..).trans ⟨rfl, rfl, fun _ => rfl⟩
  · exact (hput ..).trans (.sendTx ..)
theorem NetSide.record (s : State) (pid : BitVec 7) (r : FRec) (n : Nat) (b : Bool) : NetSide s (s.record pid r n b) := by
  unfold State.record
  split
  · unfold State.setFheld
    refine NetSide.trans ?_ (.fbufPut ..)
    split <;> exact ⟨rfl, rfl, fun _ => rfl⟩
  · exact .writeRec ..
theorem NetSide.modEng (s : State) (n : Nat) (eng : Eng) (f : EngSt → EngSt) : NetSide s (s.modCore n fun c => c.modEng eng f) :=
  .modCore s n fun c => by cases eng <;> rfl
theorem NetSide.park (s : State) (n : Nat) (eng : Eng) (pid : BitVec 7) (r : FRec) (b st p : Bool) (slot : BitVec 16) (core : Bool) (op : Nat) :
    NetSide s (s.park n eng pid r b st p slot core op) :=
  (NetSide.record s pid r n true).trans (.modEng ..)
theorem NetSide.recordOn (s : State) (pid : BitVec 7) (r : FRec) (n : Nat) (eng : Eng) : NetSide s (s.recordOn pid r n eng) := by
  unfold State.recordOn
  dsimp only
  split
  · exact .park ..
  · exact .record ..
theorem NetSide.requestStop (s : State) (cid : BitVec 12) (k : Word) (r : StopReq) (b : Bool) : NetSide s (s.requestStop cid k r b) := ⟨rfl, rfl, fun _ => rfl⟩
theorem NetSide.raise (s : State) (n : Nat) (eng : Eng) (code : BitVec 8) (val e : Word) (before : Bool) (slot : BitVec 16) : NetSide s (s.raise n eng code val e before slot) := by
  have henter (t : State) : NetSide t (t.trapEnter n eng code val e before slot) := .modCore _ n fun _ => rfl
  unfold State.raise State.raiseFrom
  dsimp only
  refine .ite (.ite (.recordOn ..) ((NetSide.recordOn ..).trans (henter _))) (.ite (.ite ?_ (.park ..)) (.ite (.ite (.park ..) (.record ..)) (.ite (.park ..) ?_)))
  · exact (NetSide.park ..).trans (.requestStop ..)
  · exact NetSide.trans (.ite (.record ..) (.refl s)) (henter _)
theorem NetSide.signal (s : State) (n : Nat) (eng : Eng) (t k : Nat) (e : Word) (ids : List Nat) (slot : BitVec 16) : NetSide s (s.signal n eng t k e ids slot) := by
  have hset (x : Tok) : NetSide s (s.setTok n eng t e x) := by
    unfold State.setTok State.log
    refine NetSide.trans ?_ (.modCore _ n fun _ => rfl)
    split
    · exact .modCore _ n fun _ => rfl
    · exact .refl s
  unfold State.signal
  dsimp only
  split
  · exact .refl s
  split
  · exact (hset _).trans (.raise ..)
  · exact hset _
theorem NetSide.modHome (s : State) (h : Held) {f : Core → Core} (hf : ∀ c, (f c).nctr = c.nctr) : NetSide s (s.modHome h f) := by
  unfold State.modHome
  split
  · exact .modCore s h.core hf
  split
  · exact .refl s
  split
  · exact .refl s
  · exact .putCells ..
theorem NetSide.heldSig (s : State) (h : Held) : NetSide s (s.heldSig h) := by
  unfold State.heldSig
  split
  · exact .refl s
  split
  · exact .signal ..
  · exact .modHome s h fun _ => rfl
theorem NetSide.lateFlags (s : State) (h : Held) (f : BitVec 8) : NetSide s (s.lateFlags h f) := by
  unfold State.lateFlags
  split
  · exact .refl s
  split
  · exact .modCore s h.core fun _ => rfl
  split
  · exact .putCells ..
  · exact .refl s

/-! ### Counters and completions (R95, R452) -/

/-- A counter after its bytes have been counted, and its token signalled where it has reached its threshold. -/
def NCtr.risen (x : NCtr) (v e : Word) : NCtr := { x with value := v, tag := maxW x.tag e, tok := if x.thresh.toNat ≤ v.toNat then 0 else x.tok }
theorem State.ctrRise_side (s : State) (h : Held) (bytes : Nat) : (s.ctrRise h bytes).ueOps = s.ueOps ∧ (s.ctrRise h bytes).recvs = s.recvs := by
  unfold State.ctrRise State.ctrTest
  dsimp only
  have hm (f : Core → Core) : (s.modHome h f).ueOps = s.ueOps ∧ (s.modHome h f).recvs = s.recvs := by
    unfold State.modHome
    split
    · exact ⟨rfl, rfl⟩
    split
    · exact ⟨rfl, rfl⟩
    split
    · exact ⟨rfl, rfl⟩
    next m _ => exact ⟨(NetSide.putCells ..).ops, (NetSide.putCells ..).recvs⟩
  split
  · split
    · exact hm _
    · exact ⟨(NetSide.signal ..).ops.trans (hm _).1, (NetSide.signal ..).recvs.trans (hm _).2⟩
  · exact hm _
theorem State.ctrRise_counts (s : State) (h : Held) (bytes : Nat) (ho : h.onCore (s.core h.core) = true) :
    ((s.ctrRise h bytes).core h.core).nctr.get {} h.ctr =
      ((s.core h.core).nctr.get {} h.ctr).risen (((s.core h.core).nctr.get {} h.ctr).value + BitVec.ofNat 64 bytes) h.e := by
  obtain ⟨y, hy⟩ : ∃ y, y = ((s.core h.core).nctr.get {} h.ctr).value + BitVec.ofNat 64 bytes := ⟨_, rfl⟩
  obtain ⟨x, hx⟩ : ∃ x : NCtr, x = { (s.core h.core).nctr.get {} h.ctr with value := y, tag := maxW ((s.core h.core).nctr.get {} h.ctr).tag h.e } := ⟨_, rfl⟩
  obtain ⟨u, hu⟩ : ∃ u, u = s.modHome h fun c => { c with nctr := c.nctr.modify {} h.ctr fun x => { x with value := x.value + BitVec.ofNat 64 bytes, tag := maxW x.tag h.e } } := ⟨_, rfl⟩
  have huc : u.core h.core = { s.core h.core with nctr := (s.core h.core).nctr.set {} h.ctr x } := by
    rw [hu, State.modHome, if_pos (by rw [ho, Bool.or_true]), State.core_modCore_self, hx, hy]
    rfl
  have hget : (u.core h.core).nctr.get {} h.ctr = x := by
    rw [huc]
    exact SMap.get_set_self ({} : NCtr) (s.core h.core).nctr h.ctr x
  have hon : h.onCore (u.core h.core) = true := by rw [huc]; exact ho
  unfold State.ctrRise
  rw [← hu, if_pos hon, ← hy, State.ctrTest]
  rw [hget]
  have hval : x.value = y ∧ x.thresh = ((s.core h.core).nctr.get {} h.ctr).thresh ∧ x.tok = ((s.core h.core).nctr.get {} h.ctr).tok := by rw [hx]; exact ⟨rfl, rfl, rfl⟩
  have hult : x.value.ult (x.thresh.setWidth 64) = true ↔ ¬((s.core h.core).nctr.get {} h.ctr).thresh.toNat ≤ y.toNat := by
    rw [hval.1, hval.2.1, BitVec.ult_iff_lt, BitVec.lt_def, BitVec.toNat_setWidth, Nat.not_le]
    have := ((s.core h.core).nctr.get {} h.ctr).thresh.isLt
    omega
  unfold NCtr.risen
  split
  next hz =>
    rw [hget, hx]
    rw [Bool.or_eq_true, beq_iff_eq, hult] at hz
    rcases hz with hz | hz
    · rw [hval.2.2] at hz
      rw [hz, ite_self]
      exact congrArg (fun k : BitVec 8 => ({ (s.core h.core).nctr.get {} h.ctr with value := y, tag := maxW ((s.core h.core).nctr.get {} h.ctr).tag h.e, tok := k } : NCtr)) hz
    · rw [if_neg hz]
  next hz =>
    rw [Bool.or_eq_true, beq_iff_eq, hult, not_or, not_not] at hz
    rw [(NetSide.signal ..).nctr, State.core_modCore_self, if_pos hz.2, hx]
    exact SMap.get_set_self ({} : NCtr) (u.core h.core).nctr h.ctr _

/-- NSCC changes the windows of the ports alone (R94). -/
theorem State.nscc_ports (s : State) (u : UeOp) (k : Nat) : s.nscc u k = { s with uePorts := (s.nscc u k).uePorts } := by
  unfold State.nscc
  split <;> rfl
theorem State.nscc_side (s : State) (u : UeOp) (k : Nat) : (s.nscc u k).ueOps = s.ueOps ∧ (s.nscc u k).recvs = s.recvs ∧ ∀ n, (s.nscc u k).core n = s.core n := by
  rw [s.nscc_ports]
  exact ⟨rfl, rfl, fun _ => rfl⟩
theorem State.ueFinish_done (s : State) {u : UeOp} (h : packets (nLen u.words) ≤ u.acked.length) :
    NetSide { s with ueOps := s.ueOps.filter fun v => v.held.id != u.held.id } (s.ueFinish u) := by
  rw [State.ueFinish, if_pos h]
  exact (NetSide.heldSig ..).trans (.lateFlags ..)
theorem State.ueFinish_more (s : State) {u : UeOp} (h : u.acked.length < packets (nLen u.words)) :
    s.ueFinish u = { s with ueOps := s.ueOps.map fun v => if v.held.id == u.held.id then u else v } := if_neg (Nat.not_le.2 h)
/-- A completion of an operation leaves the counters to `ctrRise`. -/
theorem State.ueFinish_nctr (s : State) (u : UeOp) (n : Nat) : ((s.ueFinish u).core n).nctr = (s.core n).nctr := by
  by_cases h : packets (nLen u.words) ≤ u.acked.length
  · exact (s.ueFinish_done h).nctr n
  · rw [s.ueFinish_more (Nat.not_le.1 h)]
    rfl

/-- An operation that stands in the list under its number. -/
theorem mem_of_find_id {us : List UeOp} {u : UeOp} (h : (us.find? fun v => v.held.id == u.held.id) = some u) (w : UeOp) :
    w ∈ us.map fun v => if v.held.id = u.held.id then w else v :=
  List.mem_map.2 ⟨u, List.mem_of_find?_eq_some h, if_pos rfl⟩

section
variable {s : State} {u : UeOp} {k : Nat} (hu : (s.ueOps.find? fun v => v.held.id == u.held.id) = some u)
include hu
theorem netCompletion_waits (h : packets (nLen u.words) ≤ k ∨ k ∈ u.acked) :
    exec (.netCompletion u.held.id k) s = .next s ∧ exec (.ueRetransmitTimeout u.held.id k) s = .next s ∧ exec (.ueNack u.held.id k) s = .next s := by
  have hb : (u.acked.contains k || decide (packets (nLen u.words) ≤ k)) = true := by simpa [or_comm] using h
  rw [Bool.or_eq_true] at hb
  refine ⟨?_, ?_, ?_⟩
  · show execNetCompletion u.held.id k s = _
    unfold execNetCompletion
    rw [hu]
    exact if_pos (by rw [Bool.or_eq_true, Bool.or_eq_true]; exact .inl hb)
  · show execUeRetransmitTimeout u.held.id k s = _
    unfold execUeRetransmitTimeout
    rw [hu]
    exact if_pos (by rw [Bool.or_eq_true, Bool.or_eq_true, or_right_comm]; exact .inl hb)
  · show execUeNack u.held.id k s = _
    unfold execUeNack
    rw [hu]
    exact if_pos (by rw [Bool.or_eq_true]; exact hb)
variable (hk : k < packets (nLen u.words)) (ha : k ∉ u.acked)
include hk ha
theorem netCompletion_counts (h3 : u.kind = 3 → k ∈ u.placed) :
    ∃ t, exec (.netCompletion u.held.id k) s = .next t ∧
      (u.held.onCore (s.core u.held.core) = true → (t.core u.held.core).nctr.get {} u.held.ctr = ((s.core u.held.core).nctr.get {} u.held.ctr).risen
        (((s.core u.held.core).nctr.get {} u.held.ctr).value + BitVec.ofNat 64 (min 4096 (nLen u.words - 4096 * k))) u.held.e) ∧
      (packets (nLen u.words) ≤ u.acked.length + 1 → ∀ v ∈ t.ueOps, v.held.id ≠ u.held.id) ∧
      (u.acked.length + 1 < packets (nLen u.words) → { u with acked := u.acked ++ [k], via := u.via.set 0 k 0 } ∈ t.ueOps) := by
  obtain ⟨w, hw⟩ : ∃ w : UeOp, w = { u with acked := u.acked ++ [k], via := u.via.set 0 k 0 } := ⟨_, rfl⟩
  obtain ⟨v, hv⟩ : ∃ v, v = (s.nscc u k).ctrRise u.held (u.packetLen k) := ⟨_, rfl⟩
  obtain ⟨hops, -, hcore⟩ := s.nscc_side u k
  have hvops : v.ueOps = s.ueOps := by rw [hv, (State.ctrRise_side ..).1, hops]
  have hlen : w.acked.length = u.acked.length + 1 := by rw [hw]; exact List.length_append
  have hwords : w.words = u.words ∧ w.held = u.held := by rw [hw]; exact ⟨rfl, rfl⟩
  obtain ⟨hwords, hheld⟩ := hwords
  refine ⟨v.ueFinish w, ?_, fun ho => ?_, fun hd => ?_, fun hd => ?_⟩
  · show execNetCompletion u.held.id k s = _
    unfold execNetCompletion
    rw [hu]
    dsimp only
    rw [if_neg, hv, hw]
    simp only [Bool.or_eq_true, Bool.and_eq_true, List.contains_iff_mem, decide_eq_true_eq, beq_iff_eq, Bool.not_eq_true', not_or, not_and]
    exact ⟨⟨ha, Nat.not_le.2 hk⟩, fun h => by simpa using h3 h⟩
  · rw [State.ueFinish_nctr, hv, State.ctrRise_counts _ _ _ (by rw [hcore]; exact ho), hcore]
    rfl
  · rw [(v.ueFinish_done (u := w) (by rw [hlen, hwords]; exact hd)).ops, hheld]
    intro x hx
    simpa using (List.mem_filter.1 hx).2
  · rw [v.ueFinish_more (u := w) (by rw [hlen, hwords]; exact hd), ← hw, hheld]
    dsimp only
    rw [hvops]
    simp only [beq_iff_eq]
    exact mem_of_find_id hu w
theorem ueNack_resends : exec (.ueNack u.held.id k) s = .next
    (({ s.nscc u k with ueOps := s.ueOps.map fun w => if w.held.id = u.held.id then { u with timeouts := u.timeouts.set 0 k 0, via := u.via.set 0 k 0 } else w } : State).sendUe
      { u with timeouts := u.timeouts.set 0 k 0, via := u.via.set 0 k 0 } k) := by
  show execUeNack u.held.id k s = _
  unfold execUeNack
  rw [hu]
  dsimp only
  rw [if_neg (by simpa [hk] using ha), (s.nscc_side u k).1]
  simp only [beq_iff_eq]
variable (hp : k ∉ u.placed)
include hp
theorem ueTimeout_resends (hn : u.timeouts.get 0 k + 1 < 8) : exec (.ueRetransmitTimeout u.held.id k) s = .next
    (({ s.nscc u k with ueOps := s.ueOps.map fun w => if w.held.id = u.held.id then
        { u with timeouts := u.timeouts.set 0 k (u.timeouts.get 0 k + 1), via := u.via.set 0 k 0 } else w } : State).sendUe
      { u with timeouts := u.timeouts.set 0 k (u.timeouts.get 0 k + 1), via := u.via.set 0 k 0 } k) := by
  show execUeRetransmitTimeout u.held.id k s = _
  unfold execUeRetransmitTimeout
  rw [hu]
  dsimp only
  rw [if_neg (by simpa [hk, hp] using ha), if_neg (Nat.not_le.2 hn), (s.nscc_side u k).1]
  simp only [beq_iff_eq]
theorem ueTimeout_abandons (hn : 8 ≤ u.timeouts.get 0 k + 1) : exec (.ueRetransmitTimeout u.held.id k) s =
    .next (({ s with ueOps := s.ueOps.filter fun v => v.held.id ≠ u.held.id } : State).heldFail u.held 0x11 u.held.w (nDetail u.words)) := by
  have hf : (fun v : UeOp => v.held.id != u.held.id) = fun v => decide (v.held.id ≠ u.held.id) := funext fun v => by
    by_cases hv : v.held.id = u.held.id <;> simp [hv]
  show execUeRetransmitTimeout u.held.id k s = _
  unfold execUeRetransmitTimeout
  rw [hu]
  dsimp only
  rw [if_neg (by simpa [hk, hp] using ha), if_pos hn, State.ueAbandon, hf]
  rfl
end

/-- The bytes that a receive has placed are counted, and it is complete once they are all of its message. -/
theorem netCompletion_recv {s : State} {r : Recv} (hn : (s.ueOps.find? fun v => v.held.id == r.held.id) = none) (hr : (s.recvs.find? fun q => q.held.id == r.held.id) = some r)
    (hd : r.done = false) (hm : r.msg ≠ none) : ∃ t, exec (.netCompletion r.held.id 0) s = .next t ∧
      { r with due := 0, done := decide (r.want ≤ (r.got.map (·.2)).sum) } ∈ t.recvs ∧ ∀ q ∈ s.recvs, q.held.id ≠ r.held.id → q ∈ t.recvs := by
  obtain ⟨w, hw⟩ : ∃ w : Recv, w = { r with due := 0, done := decide (r.want ≤ (r.got.map (·.2)).sum) } := ⟨_, rfl⟩
  have hrecvs : ((s.ctrRise r.held r.due).recvFinish { r with due := 0 }).recvs = s.recvs.map fun q => if q.held.id = r.held.id then w else q := by
    have hfin : ({ r with due := 0, done := r.done || (r.msg.isSome && decide (Recv.want { r with due := 0 } ≤ Recv.size { r with due := 0 }) && !r.done) } : Recv) = w := by
      rw [hd, hw, Option.isSome_iff_ne_none.2 hm, Bool.true_and, Bool.not_false, Bool.and_true, Bool.false_or]
      rfl
    unfold State.recvFinish
    dsimp only
    rw [hfin]
    have hside (t u : State) (p : Bool) (ht : t.recvs = s.recvs.map fun q => if q.held.id = r.held.id then w else q) (hu : u.recvs = t.recvs) : (if p = true then u else t).recvs = 
        s.recvs.map fun q => if q.held.id = r.held.id then w else q := by
      split
      · rw [hu, ht]
      · exact ht
    refine hside _ _ _ ?_ ((NetSide.heldSig ..).trans (.lateFlags ..)).recvs
    simp only [beq_iff_eq, (State.ctrRise_side ..).2]
  refine ⟨(s.ctrRise r.held r.due).recvFinish { r with due := 0 }, ?_, ?_, fun q hq hne => ?_⟩
  · show execNetCompletion r.held.id 0 s = _
    unfold execNetCompletion
    rw [hn]
    dsimp only
    rw [hr]
    exact if_neg (by simp [hd, hm])
  · rw [hrecvs, ← hw]
    exact List.mem_map.2 ⟨r, List.mem_of_find?_eq_some hr, if_pos rfl⟩
  · rw [hrecvs]
    exact List.mem_map.2 ⟨q, hq, if_neg hne⟩

end Sys2Proof.Machine
end

section
/-! PROOFS of the DeviceMessages statement (O48): what leaves by the Ultra Ethernet ports and what arrives there, and the messages of the host. -/

set_option Elab.async false

namespace Sys2Proof.Machine

/-! ### The ports (R50, R93, R94) -/

theorem ueInsert_last {t : UeTx} (h : t.msg.eventKey = none) (xs : List UeTx) : ueInsert t xs = xs ++ [t] := by
  induction xs with
  | nil => rfl
  | cons x xs ih =>
    have hstep : ueInsert t (x :: xs) = x :: ueInsert t xs := by
      rw [ueInsert, h]
    rw [hstep, ih, List.cons_append]
/-- An event goes before the first event of a higher key, and behind all else. -/
theorem ueInsert_event {t : UeTx} {k : Nat} (h : t.msg.eventKey = some k) (q : List UeTx) : ∃ xs ys, q = xs ++ ys ∧ ueInsert t q = xs ++ t :: ys ∧
    (∀ x ∈ xs, ∀ j, x.msg.eventKey = some j → j ≤ k) ∧ ∀ y, ys.head? = some y → ∃ j, y.msg.eventKey = some j ∧ k < j := by
  induction q with
  | nil => exact ⟨[], [], rfl, rfl, fun _ hx => absurd hx List.not_mem_nil, fun _ hy => nomatch hy⟩
  | cons x q ih =>
    obtain ⟨xs, ys, hq, hi, hle, hgt⟩ := ih
    have pass (hx : ∀ j, x.msg.eventKey = some j → j ≤ k) (hstep : ueInsert t (x :: q) = x :: ueInsert t q) : ∃ xs ys, x :: q = xs ++ ys ∧
        ueInsert t (x :: q) = xs ++ t :: ys ∧ (∀ x ∈ xs, ∀ j, x.msg.eventKey = some j → j ≤ k) ∧ ∀ y, ys.head? = some y → ∃ j, y.msg.eventKey = some j ∧ k < j :=
      ⟨x :: xs, ys, by rw [hq, List.cons_append], by rw [hstep, hi, List.cons_append], fun y hy => (List.mem_cons.1 hy).elim (fun e => e ▸ hx) (hle y), hgt⟩
    cases hj : x.msg.eventKey with
    | none =>
      refine pass (by rw [hj]; exact fun _ e => nomatch e) ?_
      rw [ueInsert, h, hj]
    | some j =>
      by_cases hk : k < j
      · refine ⟨[], x :: q, rfl, ?_, fun _ hx => absurd hx List.not_mem_nil, fun y hy => ?_⟩
        · rw [ueInsert, h, hj]
          exact if_pos hk
        · cases hy
          exact ⟨j, hj, hk⟩
      · refine pass (by rw [hj]; exact fun _ e => by cases e; exact Nat.not_lt.1 hk) ?_
        rw [ueInsert, h, hj]
        exact if_neg hk
theorem State.sendTx_none {s : State} (h : s.conf.egress = 0) (t : UeTx) : s.sendTx t = s := if_pos (beq_iff_eq.2 h)
theorem State.sendTx_some {s : State} (h : s.conf.egress ≠ 0) (t : UeTx) : s.sendTx t = { s with ueq := ueInsert t s.ueq } := if_neg (by simpa using h)
theorem State.sendTx_last {s : State} (h : s.conf.egress ≠ 0) {t : UeTx} (ht : t.msg.eventKey = none) : s.sendTx t = { s with ueq := s.ueq ++ [t] } := by
  rw [State.sendTx_some h, ueInsert_last ht]
/-- What an answer leaves: a packet for the port that the other came by, where packets leave at all. -/
theorem State.answerUe_eq (s : State) (a : UeAddr) {m : UeMsg} (hm : m.eventKey = none) :
    s.answerUe a m = if s.conf.egress = 0 then s else { s with ueq := s.ueq ++ [{ to_ := a.src, fixed := some a.port.toNat, msg := m }] } := by
  unfold State.answerUe
  split
  next h => exact State.sendTx_none h _
  next h => exact State.sendTx_last h hm
theorem State.sendUe_eq {s : State} (h : s.conf.egress ≠ 0) (u : UeOp) (k : Nat) : s.sendUe u k =
    { s with ueq := s.ueq ++ [{ to_ := nPeer u.words, fixed := if (wd u.words 1).getLsbD 32 then some (Config.rodPort (wd u.words 4) (nPeer u.words) % 4) else none
                                msg := .pkt u.held.id u.kind (4096 * k) (min 4096 (nLen u.words - 4096 * k)) u.words ((u.data.drop (4096 * k)).take 4096) }] } :=
  State.sendTx_last h rfl
/-- Of places in ascending order, the fold keeps the first of those with the most room. -/
theorem foldl_most (r : Nat → Nat) (ps : List Nat) (m : Nat) (h : (m :: ps).Pairwise (· < ·)) :
    let b := ps.foldl (fun m p => if r m < r p then p else m) m
    b ∈ m :: ps ∧ ∀ q ∈ m :: ps, r q ≤ r b ∧ (r q = r b → b ≤ q) := by
  induction ps generalizing m with
  | nil => exact ⟨List.mem_singleton_self m, fun q hq => by cases List.mem_singleton.1 hq; exact ⟨Nat.le_refl _, fun _ => Nat.le_refl _⟩⟩
  | cons p ps ih =>
    obtain ⟨hm, hps⟩ := List.pairwise_cons.1 h
    have hmp : m < p := hm p List.mem_cons_self
    intro b
    by_cases hr : r m < r p
    · have hb : b = ps.foldl (fun m p => if r m < r p then p else m) p := by simp only [b, List.foldl_cons, if_pos hr]
      obtain ⟨hin, hmax⟩ := ih p hps
      rw [← hb] at hin hmax
      refine ⟨List.mem_cons_of_mem _ hin, fun q hq => (List.mem_cons.1 hq).elim (fun e => ?_) (hmax q)⟩
      have := (hmax p List.mem_cons_self).1
      rw [e]
      omega
    · have hb : b = ps.foldl (fun m p => if r m < r p then p else m) m := by simp only [b, List.foldl_cons, if_neg hr]
      obtain ⟨hin, hmax⟩ := ih m (List.pairwise_cons.2 ⟨fun a ha => hm a (List.mem_cons_of_mem _ ha), (List.pairwise_cons.1 hps).2⟩)
      rw [← hb] at hin hmax
      refine ⟨(List.mem_cons.1 hin).elim (fun e => e ▸ List.mem_cons_self) fun hb => List.mem_cons_of_mem _ (List.mem_cons_of_mem _ hb), fun q hq => ?_⟩
      obtain ⟨hle, heq⟩ := hmax m List.mem_cons_self
      rcases List.mem_cons.1 hq with e | hq
      · exact e ▸ ⟨hle, heq⟩
      rcases List.mem_cons.1 hq with e | hq
      · rw [e]
        omega
      · exact hmax q (List.mem_cons_of_mem _ hq)
/-- The port with the most room, the lowest of those. -/
theorem State.uePick_best (s : State) (q : Nat) :
    s.uePick < 4 ∧ (q < 4 → (s.uePort q).room ≤ (s.uePort s.uePick).room ∧ ((s.uePort q).room = (s.uePort s.uePick).room → s.uePick ≤ q)) := by
  obtain ⟨hin, hmax⟩ := foldl_most (fun p => (s.uePort p).room) [1, 2, 3] 0 (by decide)
  have h4 (p : Nat) : p ∈ [0, 1, 2, 3] ↔ p < 4 := by simp; omega
  exact ⟨(h4 _).1 hin, fun hq => hmax q ((h4 q).2 hq)⟩
theorem State.depart_refused {s : State} {q : Nat} {t : UeTx} (h : s.permits q t.to_ = false) : s.depart q t = s.modUePort q fun x => { x with drops := x.drops + 1 } :=
  if_pos (by rw [h]; rfl)
theorem State.depart_leaves {s : State} {q : Nat} {t : UeTx} (h : s.permits q t.to_ = true) : (s.depart q t).out = s.out ++ [.ue q t.msg] ∧
    ((s.depart q t).uePort q).freeAt = s.gts.toNat + (8 * (t.msg.size + Config.ueOverhead) + 10 * s.conf.egress - 1) / (10 * s.conf.egress) := by
  obtain ⟨u, hu⟩ : ∃ u, u = s.modUePort q fun x => { x with
    freeAt := s.gts.toNat + (8 * (t.msg.size + Config.ueOverhead) + 10 * s.conf.egress - 1) / (10 * s.conf.egress)
    infl := x.infl + (if t.msg.op.isSome then t.msg.size else 0) } := ⟨_, rfl⟩
  have hside : (s.depart q t).out = s.out ++ [.ue q t.msg] ∧ (s.depart q t).uePorts = u.uePorts := by
    rw [hu]
    unfold State.depart
    rw [h, Bool.not_true, if_neg Bool.false_ne_true]
    dsimp only
    split <;> exact ⟨rfl, rfl⟩
  refine ⟨hside.1, ?_⟩
  rw [State.uePort, hside.2, hu]
  exact congrArg UePort.freeAt (SMap.get_set_self ..)

/-! ### Packets that arrive (R79, R80, R95, R451) -/

theorem State.ueOk_iff (s : State) (a : UeAddr) : s.ueOk a = true ↔ a.secure = true ∧ s.permits a.port.toNat a.src = true := Bool.and_eq_true_iff
theorem State.ueCtx_ok {s : State} {a : UeAddr} (h : s.ueCtx a ≠ none) : s.ueOk a = true := by
  by_contra hn
  exact h (if_neg hn)

section
variable {s : State} {p : UePkt}
theorem uePacket_refused (h : ¬(p.ue.secure = true ∧ s.permits p.ue.port.toNat p.ue.src = true)) : execUePacketReceive p s = .next (s.ueDrop p.ue) := by
  rw [← s.ueOk_iff, Bool.not_eq_true] at h
  rw [execUePacketReceive, h]
  rfl
variable (h : s.ueOk p.ue = true)
include h
theorem uePacket_connect (hc : p.connect = true) : execUePacketReceive p s = .next (if p.rudiOrUud then s.answerUe p.ue (.refuse p.ue) else s) := by
  rw [execUePacketReceive, h, hc]
  rfl
theorem uePacket_unknown (hc : p.connect = false) (hn : p.rudiOrUud = true ∨ s.ueCtx p.ue = none) : execUePacketReceive p s = .next (s.ueDrop p.ue) := by
  rw [execUePacketReceive, h, hc]
  refine congrArg _ ?_
  rw [Bool.not_true, if_neg Bool.false_ne_true, if_neg Bool.false_ne_true]
  split
  · rfl
  next hr =>
    rw [hn.resolve_left hr]
variable (hc : p.connect = false) (hr : p.rudiOrUud = false) {cid : BitVec 12} (hcid : s.ueCtx p.ue = some cid)
include hc hr hcid
theorem uePacket_eq : execUePacketReceive p s = .next (if p.unsupported then s.answerUe p.ue (.unsupported p.ue p.msg) else p.reply.elim (s.ueMessage cid p) fun op => s.ueReply op p) := by
  rw [execUePacketReceive, h, hc, hr, hcid]
  refine congrArg _ ?_
  rw [Bool.not_true, if_neg Bool.false_ne_true, if_neg Bool.false_ne_true, if_neg Bool.false_ne_true]
  dsimp only
  cases p.reply <;> rfl
end

/-! ### Bytes placed -/

theorem get_foldl_set_out (base : Nat) (cells : List (Nat × Byte)) (m : SMap Byte) {a : Nat} (h : ∀ x ∈ cells, a ≠ base + x.1) :
    (cells.foldl (fun m (i, b) => m.set 0 (base + i) b) m).get 0 a = m.get 0 a := by
  induction cells generalizing m with
  | nil => rfl
  | cons x xs ih =>
    rw [List.foldl_cons, ih _ fun y hy => h y (List.mem_cons_of_mem _ hy)]
    exact SMap.get_set_ne _ _ _ (h x List.mem_cons_self)
theorem get_foldl_set_in (base : Nat) (cells : List (Nat × Byte)) (m : SMap Byte) (hd : (cells.map (·.1)).Nodup) {x : Nat × Byte} (h : x ∈ cells) :
    (cells.foldl (fun m (i, b) => m.set 0 (base + i) b) m).get 0 (base + x.1) = x.2 := by
  induction cells generalizing m with
  | nil => exact absurd h List.not_mem_nil
  | cons y ys ih =>
    rw [List.map_cons, List.nodup_cons] at hd
    rw [List.foldl_cons]
    rcases List.mem_cons.1 h with rfl | h
    · rw [get_foldl_set_out]
      · exact SMap.get_set_self ..
      · exact fun z hz e => hd.1 (List.mem_map.2 ⟨z, hz, (Nat.add_left_cancel e).symm⟩)
    · exact ih _ hd.2 h
theorem mem_zip_range {bs : List Byte} {i : Nat} (h : i < bs.length) : (i, bs.getD i 0) ∈ (List.range bs.length).zip bs := by
  rw [List.mem_iff_getElem]
  exact ⟨i, by simpa using h, by simp [h]⟩
theorem zip_range_nodup (bs : List Byte) (p : Nat × Byte → Bool) : ((((List.range bs.length).zip bs).filter p).map (·.1)).Nodup := by
  refine List.Nodup.sublist (List.Sublist.map _ List.filter_sublist) ?_
  rw [List.map_fst_zip (by simp)]
  exact List.nodup_range
theorem mem_zip_range_lt {bs : List Byte} {x : Nat × Byte} (h : x ∈ (List.range bs.length).zip bs) : x.1 < bs.length :=
  List.mem_range.1 (List.of_mem_zip (a := x.1) (b := x.2) h).1

section
variable (s : State) (h : Held) (ws : List Word) (off : Nat) (bs : List Byte) (skip : Nat → Bool)
/-- Placed bytes change a scratchpad or memory alone. -/
theorem State.netPlace_frame : ∃ c m q, s.netPlace h ws off bs skip = { s with cores := c, mem := m, poison := q } := by
  unfold State.netPlace
  dsimp only
  split
  · split
    next ks _ =>
      have hf := (s.writeBytes_stored (((((List.range bs.length).zip bs).filter fun (i, _) => !skip (off + i) && decide (off + i < nLen ws)).map fun (i, b) => (ks.getD (off + i) 0, b)))).frame
      exact ⟨s.cores, _, _, hf⟩
    · exact ⟨s.cores, s.mem, s.poison, rfl⟩
  · unfold State.modHome
    split
    · exact ⟨_, s.mem, s.poison, rfl⟩
    split
    · exact ⟨s.cores, s.mem, s.poison, rfl⟩
    split
    · exact ⟨s.cores, s.mem, s.poison, rfl⟩
    · obtain ⟨m, hm⟩ := s.putCells_mem_only _
      exact ⟨s.cores, m, s.poison, hm⟩
variable (hr : nRaw ws = false) (ho : h.onCore (s.core h.core) = true)
include hr ho
theorem State.netPlace_core : ((s.netPlace h ws off bs skip).core h.core).spad =
    (((List.range bs.length).zip bs).filter fun (i, _) => !skip (off + i) && decide (off + i < nLen ws)).foldl (fun m (i, b) => m.set 0 (nLoc ws + off + i) b) (s.core h.core).spad := by
  unfold State.netPlace
  rw [hr]
  dsimp only
  rw [if_neg Bool.false_ne_true, State.modHome, if_pos (by rw [ho, Bool.or_true]), State.core_modCore_self]
theorem State.netPlace_in {i : Nat} (hi : i < bs.length) (hs : skip (off + i) = false) (hn : off + i < nLen ws) :
    ((s.netPlace h ws off bs skip).core h.core).spad.get 0 (nLoc ws + off + i) = bs.getD i 0 := by
  rw [s.netPlace_core h ws off bs skip hr ho]
  exact get_foldl_set_in _ _ _ (zip_range_nodup ..) (x := (i, bs.getD i 0)) (List.mem_filter.2 ⟨mem_zip_range hi, by simp [hs, hn]⟩)
theorem State.netPlace_out {a : Nat} (ha : ∀ i, i < bs.length → skip (off + i) = false → off + i < nLen ws → a ≠ nLoc ws + off + i) :
    ((s.netPlace h ws off bs skip).core h.core).spad.get 0 a = (s.core h.core).spad.get 0 a := by
  rw [s.netPlace_core h ws off bs skip hr ho]
  refine get_foldl_set_out _ _ _ fun x hx => ?_
  obtain ⟨hz, hc⟩ := List.mem_filter.1 hx
  simp only [Bool.and_eq_true, Bool.not_eq_true', decide_eq_true_eq] at hc
  exact ha x.1 (mem_zip_range_lt hz) hc.1 hc.2
end

/-! ### Replies and messages (R95, R451, R455) -/

section
variable {s : State} {op : Nat} {p : UePkt}
theorem ueReply_unknown (h : (s.ueOps.find? fun v => v.held.id == op) = none) : s.ueReply op p = s.ueDrop p.ue := by rw [State.ueReply, h]
variable {u : UeOp} (h : (s.ueOps.find? fun v => v.held.id == op) = some u)
include h
theorem ueReply_error (he : p.error = true) : s.ueReply op p = s.ueAbandon u fRawWindow := by
  rw [State.ueReply, h]
  exact if_pos he
theorem ueReply_abandons (he : p.error = true) :
    s.ueReply op p = ({ s with ueOps := s.ueOps.filter fun v => v.held.id ≠ u.held.id } : State).heldFail u.held 0x07 u.held.w (nDetail u.words) := by
  have hf : (fun v : UeOp => v.held.id != u.held.id) = fun v => decide (v.held.id ≠ u.held.id) := funext fun v => by
    by_cases hv : v.held.id = u.held.id <;> simp [hv]
  rw [ueReply_error h he, State.ueAbandon, hf]
  rfl
theorem ueReply_trimmed (he : p.error = false) (ht : p.trimmed = true) : s.ueReply op p = s.answerUe p.ue (.nack p.ue p.msg p.off) := by
  rw [State.ueReply, h]
  dsimp only
  rw [he, if_neg Bool.false_ne_true, if_pos ht]
theorem ueReply_places (he : p.error = false) (ht : p.trimmed = false) (hk : u.kind = 3) (ha : p.off % 4096 = 0) (hc : p.off / 4096 < packets (nLen u.words))
    (hl : p.bytes.length = min 4096 (nLen u.words - p.off)) (hn : p.off / 4096 ∉ u.placed) : s.ueReply op p =
      ({ s with ueOps := s.ueOps.map fun v => if v.held.id == op then { u with placed := u.placed ++ [p.off / 4096] } else v } : State).netPlace u.held u.words p.off p.bytes
        (fun _ => false) := by
  have hlen : u.packetLen (p.off / 4096) = p.bytes.length := by
    rw [UeOp.packetLen, hl, show 4096 * (p.off / 4096) = p.off by omega]
  rw [State.ueReply, h]
  dsimp only
  rw [he, if_neg Bool.false_ne_true, ht, if_neg Bool.false_ne_true, if_neg (by simp [hk, ha, hc, hlen]), if_neg (by simpa using hn)]
/-- The data of a get stand in its buffer at their offset, and the packet is placed. -/
theorem ueReply_data (he : p.error = false) (ht : p.trimmed = false) (hk : u.kind = 3) (ha : p.off % 4096 = 0) (hc : p.off / 4096 < packets (nLen u.words))
    (hl : p.bytes.length = min 4096 (nLen u.words - p.off)) (hn : p.off / 4096 ∉ u.placed) (hr : nRaw u.words = false) (ho : u.held.onCore (s.core u.held.core) = true) :
    (∀ i, i < p.bytes.length → ((s.ueReply op p).core u.held.core).spad.get 0 (nLoc u.words + p.off + i) = p.bytes.getD i 0) ∧
      { u with placed := u.placed ++ [p.off / 4096] } ∈ (s.ueReply op p).ueOps := by
  obtain ⟨v, hv⟩ : ∃ v : State, v = { s with ueOps := s.ueOps.map fun v => if v.held.id == op then { u with placed := u.placed ++ [p.off / 4096] } else v } := ⟨_, rfl⟩
  have hcore : v.core u.held.core = s.core u.held.core := by rw [hv]; rfl
  rw [ueReply_places h he ht hk ha hc hl hn, ← hv]
  refine ⟨fun i hi => v.netPlace_in _ _ _ _ _ hr (by rw [hcore]; exact ho) hi rfl (by omega), ?_⟩
  obtain ⟨c, m, q, hf⟩ := v.netPlace_frame u.held u.words p.off p.bytes fun _ => false
  rw [hf, hv]
  exact List.mem_map.2 ⟨u, List.mem_of_find?_eq_some h, if_pos (List.find?_some h :)⟩
end

/-- The bytes of a message's packet that its receive has not yet. -/
def Recv.fresh (r : Recv) (p : UePkt) : List Nat := (List.range p.bytes.length).filter fun i => covered r.got (p.off + i) = false ∧ p.off + i < nLen r.words
theorem Recv.mem_fresh {r : Recv} {p : UePkt} {i : Nat} : i ∈ r.fresh p ↔ i < p.bytes.length ∧ covered r.got (p.off + i) = false ∧ p.off + i < nLen r.words := by
  rw [Recv.fresh, List.mem_filter, List.mem_range, decide_eq_true_eq]
/-- A receive that has got them. -/
def Recv.took (r : Recv) (p : UePkt) : Recv :=
  { r with msg := some (p.ue, p.msg, p.total), got := r.got ++ (r.fresh p).map (fun i => (p.off + i, 1)), due := r.due + (r.fresh p).length }

section
variable {s : State} {cid : BitVec 12} {p : UePkt}
theorem ueMessage_nacked (h : p.trimmed = true ∨ s.matchRecv cid p = none) : s.ueMessage cid p = s.answerUe p.ue (.nack p.ue p.msg p.off) := by
  unfold State.ueMessage
  dsimp only
  split
  · rfl
  next ht => rw [h.resolve_left ht]
theorem ueMessage_takes (ht : p.trimmed = false) {r : Recv} (hr : s.matchRecv cid p = some r) : s.ueMessage cid p =
    ({ s.netPlace r.held r.words p.off p.bytes (covered r.got) with
      recvs := (s.netPlace r.held r.words p.off p.bytes (covered r.got)).recvs.map fun q => if q.held.id == r.held.id then r.took p else q } : State).answerUe p.ue (.ack p.ue p.msg p.off) := by
  have hfresh : ((List.range p.bytes.length).filter fun i => !covered r.got (p.off + i) && decide (p.off + i < nLen r.words)) = r.fresh p :=
    List.filter_congr fun i _ => by simp
  unfold State.ueMessage
  dsimp only
  rw [ht, if_neg Bool.false_ne_true, hr]
  dsimp only
  rw [hfresh]
  rfl
end

/-- A packet of a message for a posted receive: its new bytes are placed, each once, and it is acknowledged. -/
theorem ueMessage_places {s : State} {cid : BitVec 12} {p : UePkt} (ht : p.trimmed = false) {r : Recv} (hr : s.matchRecv cid p = some r) :
    (s.ueMessage cid p).ueq = (s.answerUe p.ue (.ack p.ue p.msg p.off)).ueq ∧ (r ∈ s.recvs → r.took p ∈ (s.ueMessage cid p).recvs) ∧
      (nRaw r.words = false → r.held.onCore (s.core r.held.core) = true →
        (∀ i ∈ r.fresh p, ((s.ueMessage cid p).core r.held.core).spad.get 0 (nLoc r.words + p.off + i) = p.bytes.getD i 0) ∧
        ∀ a, (∀ i ∈ r.fresh p, a ≠ nLoc r.words + p.off + i) → ((s.ueMessage cid p).core r.held.core).spad.get 0 a = (s.core r.held.core).spad.get 0 a) := by
  obtain ⟨v, hv⟩ : ∃ v, v = s.netPlace r.held r.words p.off p.bytes (covered r.got) := ⟨_, rfl⟩
  obtain ⟨w, hw⟩ : ∃ w : State, w = { v with recvs := v.recvs.map fun q => if q.held.id == r.held.id then r.took p else q } := ⟨_, rfl⟩
  obtain ⟨c, m, q, hf⟩ := s.netPlace_frame r.held r.words p.off p.bytes (covered r.got)
  rw [← hv] at hf
  have hmsg : s.ueMessage cid p = w.answerUe p.ue (.ack p.ue p.msg p.off) := by rw [ueMessage_takes ht hr, ← hv, ← hw]
  have hans : s.ueMessage cid p = { w with ueq := (s.ueMessage cid p).ueq } := by
    rw [hmsg, State.answerUe_eq _ _ rfl]
    split <;> rfl
  have hrecvs : (s.ueMessage cid p).recvs = s.recvs.map fun q => if q.held.id == r.held.id then r.took p else q := by rw [hans, hw, hf]
  have hcore (n : Nat) : (s.ueMessage cid p).core n = v.core n := by rw [hans, hw]; rfl
  refine ⟨?_, fun hin => ?_, fun hraw ho => ?_⟩
  · rw [hmsg, State.answerUe_eq _ _ rfl, State.answerUe_eq _ _ rfl, hw, hf]
    dsimp only
    split <;> rfl
  · rw [hrecvs]
    exact List.mem_map.2 ⟨r, hin, if_pos (beq_self_eq_true _)⟩
  · rw [hcore, hv]
    refine ⟨fun i hi => ?_, fun a ha => State.netPlace_out _ _ _ _ _ _ hraw ho fun i hi hs hn => ha i (Recv.mem_fresh.2 ⟨hi, hs, hn⟩)⟩
    obtain ⟨hi, hs, hn⟩ := Recv.mem_fresh.1 hi
    exact s.netPlace_in _ _ _ _ _ hraw ho hi hs hn

/-! ### The host's messages (R80 to R84, R86, R97) -/

section
variable {s : State} {m : SubmitMsg}
theorem submit_unknown (h : s.ueCtx m.ue = none) : execSubmit m s = .next (s.ueDrop m.ue) := by rw [execSubmit, h]
variable {cid : BitVec 12} (h : s.ueCtx m.ue = some cid)
include h
/-- A SUBMIT is answered with its status and the free entries that its queue then has. -/
theorem submit_answers {st : Nat} (hst : s.submitStatus (s.ctx cid).pid.toNat cid m = st) {u : State}
    (hu : u = if st = 0 then s.setQueue (s.ctx cid).pid.toNat m.queue.toNat { s.queue (s.ctx cid).pid.toNat m.queue.toNat with
        pend := (s.queue (s.ctx cid).pid.toNat m.queue.toNat).pend ++ [{ addr := m.list, stag := m.stag, doneev := m.doneev, cid := cid, inc := (s.ctx cid).inc }] }
      else if st = 1 then s.setQueue (s.ctx cid).pid.toNat m.queue.toNat { s.queue (s.ctx cid).pid.toNat m.queue.toNat with full := true } else s) :
    execSubmit m s = .next (u.send m.ue (.suback m.ue (BitVec.ofNat 8 st) m.stag (BitVec.ofNat 8 (u.queue (s.ctx cid).pid.toNat m.queue.toNat).free))) := by
  rw [execSubmit, h]
  dsimp only
  simp only [hst, beq_iff_eq]
  rw [hu]
end
theorem State.queue_setQueue (s : State) (pid : BitVec 7) (q : Nat) (x : Queue) : (s.setQueue pid.toNat q x).queue pid.toNat q = x := by
  have hn : BitVec.ofNat 7 pid.toNat = pid := by simp
  rw [State.queue, hn, State.part_setQueue]
  exact SMap.get_set_self ..
theorem Queue.free_eq (x : Queue) : x.free = 64 - (x.pend.length + if x.cur = none then 0 else 1) := by
  unfold Queue.free
  cases x.cur <;> rfl

section
variable {s : State} {m : RmaMsg}
theorem hostWrite_unknown (h : s.ueCtx m.ue = none) (bs : List Byte) : s.hostWrite m bs = s.ueDrop m.ue := by rw [State.hostWrite, h]
variable {cid : BitVec 12} (h : s.ueCtx m.ue = some cid)
include h
theorem hostWrite_refused {bs : List Byte} (hk : s.rawKeys cid m.addr bs.length .w = none) : s.hostWrite m bs = s.send m.ue (.rmaResp m.ue 1 []) := by
  rw [State.hostWrite, h]
  dsimp only
  rw [hk]
/-- A write of the host stands whole; it wakes the supervisor when it frees entries of a buffer that holds faults back. -/
theorem hostWrite_stores {bs : List Byte} {ks : List Nat} (hk : s.rawKeys cid m.addr bs.length .w = some ks) : ∃ u, Stored s u (ks.zip bs) ∧ s.hostWrite m bs =
    (if s.cons (s.ctx cid).pid ≠ u.cons (s.ctx cid).pid ∧ u.fheld (s.ctx cid).pid ≠ [] then { u with wfe := u.wfe ||| 8 } else u).send m.ue (.rmaResp m.ue 0 []) := by
  obtain ⟨u, hu⟩ : ∃ u, u = s.writeBytes (ks.zip bs) := ⟨_, rfl⟩
  have hst : Stored s u (ks.zip bs) := hu ▸ s.writeBytes_stored _
  have hheld : s.fheld (s.ctx cid).pid = u.fheld (s.ctx cid).pid := by rw [hst.frame]; rfl
  refine ⟨u, hst, ?_⟩
  rw [State.hostWrite, h]
  dsimp only
  rw [hk, ← hheld]
  dsimp only
  rw [← hu]
  refine congrArg (fun v : State => v.send m.ue (.rmaResp m.ue 0 [])) ?_
  by_cases hp : s.cons (s.ctx cid).pid ≠ u.cons (s.ctx cid).pid ∧ s.fheld (s.ctx cid).pid ≠ []
  · rw [if_pos hp, if_pos (by simpa using hp)]
    rfl
  · rw [if_neg hp, if_neg (by simpa using hp)]
end


section
variable {s : State} {m : RmaMsg}
theorem rmaRead_unknown (h : s.ueCtx m.ue = none) (n : Nat) : execRmaRead m n s = .next (s.ueDrop m.ue) := by rw [execRmaRead, h]
variable {cid : BitVec 12} (h : s.ueCtx m.ue = some cid) {n : Nat}
include h
theorem rmaRead_refused (hk : s.rawKeys cid m.addr n .r = none) : execRmaRead m n s = .next (s.send m.ue (.rmaResp m.ue 1 [])) := by
  rw [execRmaRead, h]
  dsimp only
  rw [hk]
theorem rmaRead_reads {ks : List Nat} (hk : s.rawKeys cid m.addr n .r = some ks) : execRmaRead m n s =
    if s.anyPoison ks then .next ((s.hostPoison cid 256 0 m.addr).send m.ue (.rmaResp m.ue 1 [])) else .next (s.send m.ue (.rmaResp m.ue 0 (ks.map s.byte))) := by
  rw [execRmaRead, h]
  dsimp only
  rw [hk]
end

section
variable {s : State} {m : AttestMsg}
theorem attest_unknown (h : ¬(m.ue.secure = true ∧ s.permits m.ue.port.toNat m.ue.src = true ∧ (s.jobPart m.ue.job).isSome = true)) :
    execAttestationRequest m s = .next (s.ueDrop m.ue) := by
  rw [← and_assoc, ← s.ueOk_iff] at h
  refine if_pos ?_
  rw [Bool.or_eq_true, Bool.not_eq_true', Option.isNone_iff_eq_none]
  by_contra hn
  rw [not_or, Bool.not_eq_false] at hn
  exact h ⟨hn.1, Option.isSome_iff_ne_none.2 hn.2⟩
variable (h : m.ue.secure = true ∧ s.permits m.ue.port.toNat m.ue.src = true ∧ (s.jobPart m.ue.job).isSome = true)
include h
theorem attest_eq : execAttestationRequest m s =
    if ¬(m.rsv = false ∧ m.payload.length = 32) then .next (s.send m.ue (.report m.ue (s.shortReport 2 m.payload)))
    else if 2 ^ 20 ≤ s.conf.xmssLeaf then .next (s.send m.ue (.report m.ue (s.shortReport 1 m.payload)))
    else .next (({ s with conf := { s.conf with xmssLeaf := s.conf.xmssLeaf + 1 } } : State).send m.ue
      (.report m.ue (s.report m.payload ++ Config.sign (BitVec.ofNat 20 s.conf.xmssLeaf) (s.report m.payload)))) := by
  obtain ⟨hs, hp, hj⟩ := h
  have hok : s.ueOk m.ue = true := s.ueOk_iff _ |>.2 ⟨hs, hp⟩
  unfold execAttestationRequest
  rw [hok, Bool.not_true, Bool.false_or, Option.isNone_eq_false_iff.2 hj, if_neg Bool.false_ne_true]
  refine ite_congr (propext ?_) (fun _ => rfl) fun _ => rfl
  rw [Bool.or_eq_true, bne_iff_ne]
  cases m.rsv <;> simp
end

/-- Settles O48: what leaves by the ports and what arrives, case by case along `uePacketReceive`, and each message of the host by its own lemma. -/
theorem deviceMessages : Obligations.DeviceMessages := by
  refine ⟨⟨fun s u k hu => ?_, fun s r hn hr hd hm => netCompletion_recv hn hr hd hm, fun s u k h => State.sendUe_eq h u k, fun s u k h => State.sendTx_none h _,
    fun s q => s.uePick_best q, fun s q t => ⟨State.depart_refused, State.depart_leaves⟩, fun s p => ?_⟩, fun s a m => ⟨fun h => State.sendTx_none h _, fun h => ⟨fun hm => ?_, fun k hk => ?_⟩⟩,
    fun s a h => s.ueOk_iff a |>.1 (State.ueCtx_ok h), fun s m => ⟨fun h => submit_unknown h, fun cid h => ?_⟩, fun s m v bs n => ⟨fun h i hi => ?_, fun cid h => ?_⟩, fun s m => ?_⟩
  · exact ⟨s.nscc_ports u k, fun hk ha h3 => netCompletion_counts hu hk ha h3, fun h => netCompletion_waits hu h,
      fun hk ha => ⟨ueNack_resends hu hk ha, fun hp hn => ueTimeout_resends hu hk ha hp hn, fun hp hn => ueTimeout_abandons hu hk ha hp hn⟩⟩
  · have hends {t : State} (h : execUePacketReceive p s = .next t) : exec (.uePacketReceive p) s = .next t := h
    have hans (m : UeMsg) (hm : m.eventKey = none) := s.answerUe_eq p.ue hm
    dsimp only
    refine ⟨fun h => hends (uePacket_refused h), fun h hc => ⟨fun hr => ?_, fun hr => ?_⟩, fun h hc hn => hends (uePacket_unknown (s.ueOk_iff _ |>.2 h) hc hn), fun h hc hr cid hcid => ?_⟩
    · rw [← hans (.refuse p.ue) rfl]
      exact hends ((uePacket_connect (s.ueOk_iff _ |>.2 h) hc).trans (by rw [if_pos hr]))
    · exact hends ((uePacket_connect (s.ueOk_iff _ |>.2 h) hc).trans (by rw [hr]; rfl))
    have heq := uePacket_eq (s.ueOk_iff _ |>.2 h) hc hr hcid
    rw [← hans (.unsupported p.ue p.msg) rfl, ← hans (.nack p.ue p.msg p.off) rfl, ← hans (.ack p.ue p.msg p.off) rfl]
    refine ⟨fun hu => hends (heq.trans (by rw [if_pos hu])), fun hu => ?_⟩
    rw [hu, if_neg Bool.false_ne_true] at heq
    refine ⟨fun op hop => ?_, fun hop => ?_⟩
    · have hrep : exec (.uePacketReceive p) s = .next (s.ueReply op p) := hends (heq.trans (by rw [hop]; rfl))
      refine ⟨fun hf => hrep.trans (congrArg _ (ueReply_unknown hf)), fun u hf => ⟨fun he => hrep.trans (congrArg _ (ueReply_abandons hf he)), fun he ht => hrep.trans (congrArg _ (ueReply_trimmed hf he ht)),
        fun he ht hk ha hcnt hl hp hraw ho => ⟨_, hrep, ueReply_data hf he ht hk ha hcnt hl hp hraw ho⟩⟩⟩
    · have hmes : exec (.uePacketReceive p) s = .next (s.ueMessage cid p) := hends (heq.trans (by rw [hop]; rfl))
      refine ⟨fun hn => hmes.trans (congrArg _ (ueMessage_nacked hn)), fun r ht hm => ?_⟩
      exact ⟨_, hmes, ueMessage_places ht hm⟩
  · exact State.sendTx_last h hm
  · obtain ⟨xs, ys, hq, hi, hle, hgt⟩ := ueInsert_event (t := { to_ := a.src, fixed := some (Config.rodPort (a.job.setWidth 64 ||| (a.proc.setWidth 64 <<< 24)) a.src % 4), msg := m }) hk s.ueq
    exact ⟨xs, ys, hq, by rw [← hi]; exact State.sendTx_some h _, hle, hgt⟩
  · have hbad (b : Bool) : (b = false ∨ m.rsv = true) ↔ (!b || m.rsv) = true := by cases b <;> simp
    have hout : (m.list.toNat % 64 ≠ 0 ∨ s.rawKeys cid m.list 64 .r = none) ↔ (m.list.toNat % 64 != 0 || (s.rawKeys cid m.list 64 .r).isNone) = true := by simp
    have hfree (x : Queue) : (x.free == 0) = true ↔ 64 ≤ x.pend.length + if x.cur = none then 0 else 1 := by
      rw [x.free_eq, beq_iff_eq]
      omega
    dsimp only
    rw [hbad, hout, ← Queue.free_eq]
    refine ⟨fun hb => ?_, fun hb ho => ?_, fun hb ho hu => ?_, fun hb ho hu => ?_⟩
    · exact submit_answers h (st := 2) (by rw [State.submitStatus, if_pos hb]) rfl
    · exact submit_answers h (st := 3) (by rw [State.submitStatus, if_neg hb, if_pos ho]) rfl
    · have hst : s.submitStatus (s.ctx cid).pid.toNat cid m = 1 := by rw [State.submitStatus, if_neg hb, if_neg ho, if_pos ((hfree _).2 hu)]
      refine (submit_answers h hst rfl).trans ?_
      rw [if_neg (by decide), if_pos rfl, State.queue_setQueue, show ∀ x : Queue, ({ x with full := true } : Queue).free = x.free from fun _ => rfl,
        beq_iff_eq.1 ((hfree _).2 hu)]
    · have hst : s.submitStatus (s.ctx cid).pid.toNat cid m = 0 := by
        rw [State.submitStatus, if_neg hb, if_neg ho, if_neg fun he => absurd hu (Nat.not_lt.2 ((hfree _).1 he))]
      refine (submit_answers h hst rfl).trans ?_
      rw [if_pos rfl, State.queue_setQueue, Queue.free_eq]
      dsimp only
      rw [List.length_append, List.length_singleton, show ∀ a b : Nat, 64 - (a + 1 + b) = 63 - (a + b) by omega]
  · have hw (b : List Byte) : s.hostWrite m b = s.ueDrop m.ue := hostWrite_unknown h b
    simp only [List.mem_cons, List.not_mem_nil, or_false] at hi
    rcases hi with rfl | rfl | rfl
    · exact congrArg _ (hw _)
    · exact congrArg _ (hw _)
    · exact rmaRead_unknown h n
  · have hw (b : List Byte) (i : Instr) (hi : exec i s = .next (s.hostWrite m b)) : (s.rawKeys cid m.addr b.length .w = none → exec i s = .next (s.send m.ue (.rmaResp m.ue 1 []))) ∧
        ∀ ks, s.rawKeys cid m.addr b.length .w = some ks → ∃ u, Stored s u (ks.zip b) ∧ exec i s =
          .next ((if s.cons (s.ctx cid).pid ≠ u.cons (s.ctx cid).pid ∧ u.fheld (s.ctx cid).pid ≠ [] then { u with wfe := u.wfe ||| 8 } else u).send m.ue (.rmaResp m.ue 0 [])) := by
      refine ⟨fun hk => hi.trans (congrArg _ (hostWrite_refused h hk)), fun ks hk => ?_⟩
      obtain ⟨u, hst, hu⟩ := hostWrite_stores h hk
      exact ⟨u, hst, hi.trans (congrArg _ hu)⟩
    exact ⟨hw _ _ rfl, hw _ _ rfl, fun hk => rmaRead_refused h hk, fun ks hk => ⟨fun hp => (rmaRead_reads h hk).trans (by rw [hp]; rfl), fun hp => (rmaRead_reads h hk).trans (if_pos hp)⟩⟩
  · refine ⟨fun h => attest_unknown h, fun h hg => (attest_eq h).trans (if_pos hg), fun h hg hl => ?_, fun h hg hl => ?_⟩
    · exact (attest_eq h).trans ((if_neg (not_not.2 hg)).trans (if_pos hl))
    · exact (attest_eq h).trans ((if_neg (not_not.2 hg)).trans (if_neg (Nat.not_le.2 hl)))

end Sys2Proof.Machine
end

section
/-! SUPPORT. The cut (R136, R144, R154, R156, R261 to R269): stops, the watch of a core, hangs, CONS, the reclaim fence and the end of a slice. -/

set_option Elab.async false

namespace Sys2Proof.Machine

/-! ### Stops (R261 to R264) -/

theorem State.ctx_modCores (s : State) (f : Core → Core) (ns : List Nat) (cid : BitVec 12) : (s.modCores f ns).ctx cid = s.ctx cid := by
  induction ns generalizing s with
  | nil => rfl
  | cons n ns ih => exact (ih _).trans rfl
theorem State.core_modCores_of_not_mem (s : State) (f : Core → Core) (ns : List Nat) {m : Nat} (h : m ∉ ns) : (s.modCores f ns).core m = s.core m := by
  induction ns generalizing s with
  | nil => rfl
  | cons n ns ih =>
    exact (ih _ (List.not_mem_of_not_mem_cons h)).trans (State.core_modCore_ne _ _ (List.ne_of_not_mem_cons h))
/-- The events of a stop change the endpoint's queue alone. -/
theorem State.cutDone_ueq (s : State) (cid : BitVec 12) (inc : BitVec 10) (st : Nat) (r : BitVec 3) (l : List StopReq) :
    ∃ q, s.cutDone cid inc st r l = { s with ueq := q } := by
  induction l generalizing s with
  | nil => exact ⟨s.ueq, rfl⟩
  | cons x xs ih =>
    obtain ⟨q, hq⟩ := State.event_ueq_only s 7 (s.ctx cid).pid cid inc x.queue (s.ctx cid).cuteff (stopWord st r x)
    obtain ⟨p, hp⟩ := ih (s.event 7 (s.ctx cid).pid cid inc x.queue (s.ctx cid).cuteff (stopWord st r x))
    exact ⟨p, by rw [State.cutDone, hp, hq]⟩
/-- No team of a context's launches is PLACED or RUNNING once its cores have stopped. -/
def stopTeam (t : TState) : TState := if t == .placed || t == .running then .stopped else t
theorem stopTeam_stops (t : TState) : stopTeam t ≠ .placed ∧ stopTeam t ≠ .running := by cases t <;> decide
theorem State.modTeams_stops {s : State} {cid : BitVec 12} {j : Nat} {l : Launch} (hl : (s.modTeams cid stopTeam).launches.get none j = some l) (hc : l.cid = cid) :
    ∀ m ∈ l.teams, m.st ≠ .placed ∧ m.st ≠ .running := by
  have hget := SMap.get_map_snd none s.launches (fun l : Option Launch => l.map fun l =>
    if l.cid == cid then { l with teams := l.teams.map fun t => { t with st := stopTeam t.st } } else l) rfl j
  rw [State.modTeams, hget] at hl
  obtain ⟨l', -, rfl⟩ := Option.map_eq_some_iff.1 hl
  by_cases h : l'.cid = cid
  · rw [if_pos (beq_iff_eq.2 h)]
    intro m hm
    obtain ⟨m', -, rfl⟩ := List.mem_map.1 hm
    exact stopTeam_stops _
  · rw [if_neg (by simpa using h)] at hc
    exact absurd hc h

theorem stopHolds_iff (c : Ctx) (st : Stop) (ls : List Launch) :
    (c.st != .live || !st.accepted || !(st.squashed || ls.isEmpty)) = true ↔ ¬(c.st = .live ∧ st.accepted = true ∧ (st.squashed = true ∨ ls = [])) := by
  rw [← Bool.not_eq_false', ← List.isEmpty_iff, ← Bool.or_eq_true]
  cases st.accepted <;> cases st.squashed || ls.isEmpty <;> simp

section
variable {s : State} {k : Nat}
theorem stop_none (h : (s.ctx (BitVec.ofNat 12 k)).stop = none) : exec (.stopAccept k) s = .next s ∧ exec (.stopComplete k) s = .next s := by
  constructor
  · show execStopAccept k s = _
    unfold execStopAccept
    dsimp only
    rw [h]
  · show execStopComplete k s = _
    unfold execStopComplete
    dsimp only
    rw [h]
variable {st : Stop} (h : (s.ctx (BitVec.ofNat 12 k)).stop = some st)
include h
theorem stopAccept_waits (hn : st.accepted = true ∨ (s.ctx (BitVec.ofNat 12 k)).st ≠ .live) : exec (.stopAccept k) s = .next s := by
  show execStopAccept k s = _
  unfold execStopAccept
  dsimp only
  rw [h]
  exact if_pos (by simpa using hn)
/-- A stop is accepted at its coordinate above the horizon, and LATE at the next one otherwise. -/
theorem stopAccept_accepts (ha : st.accepted = false) (hl : (s.ctx (BitVec.ofNat 12 k)).st = .live) : ∃ t, exec (.stopAccept k) s = .next t ∧
    t.ctx (BitVec.ofNat 12 k) = { s.ctx (BitVec.ofNat 12 k) with stop := some { st with
      accepted := true, cut := if (s.ctx (BitVec.ofNat 12 k)).horiz.ult st.k then st.k else s.nextCrd (BitVec.ofNat 12 k) (s.ctx (BitVec.ofNat 12 k)).horiz,
      late := !(s.ctx (BitVec.ofNat 12 k)).horiz.ult st.k } } := by
  obtain ⟨c, hc⟩ : ∃ c : Ctx, c = { s.ctx (BitVec.ofNat 12 k) with stop := some { st with
      accepted := true, cut := if (s.ctx (BitVec.ofNat 12 k)).horiz.ult st.k then st.k else s.nextCrd (BitVec.ofNat 12 k) (s.ctx (BitVec.ofNat 12 k)).horiz,
      late := !(s.ctx (BitVec.ofNat 12 k)).horiz.ult st.k } } := ⟨_, rfl⟩
  refine ⟨(s.setCtx (BitVec.ofNat 12 k) c).modCores Core.clearWaits (s.coresOf (BitVec.ofNat 12 k)), ?_, ?_⟩
  · show execStopAccept k s = _
    unfold execStopAccept
    dsimp only
    rw [h, hc]
    exact if_neg (by simp [ha, hl])
  · rw [State.ctx_modCores, State.ctx_setCtx_self, hc]
theorem stopComplete_waits (hn : ¬((s.ctx (BitVec.ofNat 12 k)).st = .live ∧ st.accepted = true ∧ (st.squashed = true ∨ s.openLaunches (BitVec.ofNat 12 k) = []))) :
    exec (.stopComplete k) s = .next s := by
  show execStopComplete k s = _
  unfold execStopComplete
  dsimp only
  rw [h]
  exact if_pos ((stopHolds_iff ..).2 hn)
/-- A stop is complete: the context is STOPPED at its cut, and none of its teams stands PLACED or RUNNING. -/
theorem stopComplete_stops (hl : (s.ctx (BitVec.ofNat 12 k)).st = .live) (ha : st.accepted = true) (hs : st.squashed = true ∨ s.openLaunches (BitVec.ofNat 12 k) = []) :
    ∃ t, exec (.stopComplete k) s = .next t ∧ t.ctx (BitVec.ofNat 12 k) = { s.ctx (BitVec.ofNat 12 k) with
        st := .stopped, cuteff := st.cut, stop := none, result := if st.late then 1 else 0, lastReq := st.reqs.headD {}, bySlice := !st.byCmd } ∧ t.cores = s.cores ∧
      ∀ j l, t.launches.get none j = some l → l.cid = BitVec.ofNat 12 k → ∀ m ∈ l.teams, m.st ≠ .placed ∧ m.st ≠ .running := by
  obtain ⟨c, hc⟩ : ∃ c : Ctx, c = { s.ctx (BitVec.ofNat 12 k) with
    st := .stopped, cuteff := st.cut, stop := none, result := if st.late then 1 else 0, lastReq := st.reqs.headD {}, bySlice := !st.byCmd } := ⟨_, rfl⟩
  obtain ⟨u, hu⟩ : ∃ u : State, u = { s with phasers := s.phasers.map fun (i, p) =>
    (i, if p.owner == some (BitVec.ofNat 12 k, (s.ctx (BitVec.ofNat 12 k)).inc) then p.restore st.cut else p) } := ⟨_, rfl⟩
  obtain ⟨q, hq⟩ := ((u.modTeams (BitVec.ofNat 12 k) stopTeam).setCtx (BitVec.ofNat 12 k) c).cutDone_ueq (BitVec.ofNat 12 k) (s.ctx (BitVec.ofNat 12 k)).inc 2
    (if st.late then 1 else 0) st.reqs
  refine ⟨{ (u.modTeams (BitVec.ofNat 12 k) stopTeam).setCtx (BitVec.ofNat 12 k) c with ueq := q }, ?_, ?_, ?_, fun j l hl hcid => ?_⟩
  · rw [← hq, hu, hc]
    show execStopComplete k s = _
    unfold execStopComplete
    dsimp only
    rw [h]
    exact if_neg fun hn => (stopHolds_iff ..).1 hn ⟨hl, ha, hs⟩
  · rw [← hc]
    exact State.ctx_setCtx_self ..
  · rw [hu]
    rfl
  · exact State.modTeams_stops (s := u) hl hcid
end

/-! ### The watch of a core, hangs, CONS (R154, R156, R263) -/

section
variable {s : State} {n e : Nat}
theorem watchFires_iff : (isSup n || (s.core n).cutw == BitVec.allOnes 64 || !((s.core n).eng (engOfNum e)).waitsStop) = true ↔
    ¬(isSup n = false ∧ (s.core n).cutw ≠ BitVec.allOnes 64 ∧ ((s.core n).eng (engOfNum e)).waitsStop = true) := by
  rw [Bool.or_eq_true, Bool.or_eq_true, beq_iff_eq, Bool.not_eq_true']
  cases isSup n <;> cases ((s.core n).eng (engOfNum e)).waitsStop <;> simp
theorem watchFire_waits (h : ¬(isSup n = false ∧ (s.core n).cutw ≠ BitVec.allOnes 64 ∧ ((s.core n).eng (engOfNum e)).waitsStop = true)) : exec (.watchFire n e) s = .next s := by
  show execWatchFire n e s = _
  exact if_pos (watchFires_iff.2 h)
/-- A watched core asks for a stop at its CUTW, which becomes all ones. -/
theorem watchFire_asks (h : isSup n = false ∧ (s.core n).cutw ≠ BitVec.allOnes 64 ∧ ((s.core n).eng (engOfNum e)).waitsStop = true) :
    ∃ t, exec (.watchFire n e) s = .next t ∧ (t.core n).cutw = BitVec.allOnes 64 ∧
      ((s.ctx (s.core n).cid).st = .live → (s.ctx (s.core n).cid).stop = none →
        (t.ctx (s.core n).cid).stop = some { k := (s.core n).cutw, reqs := [{ srck := 4, core := BitVec.ofNat 8 n }], byCmd := true }) ∧
      ∀ m, m ≠ n → t.core m = s.core m := by
  obtain ⟨u, hu⟩ : ∃ u, u = (s.requestStop (s.core n).cid (s.core n).cutw { srck := 4, core := BitVec.ofNat 8 n } true).modCore n fun c => { c with cutw := BitVec.allOnes 64 } := ⟨_, rfl⟩
  have hp : exec (.watchFire n e) s = .next (u.modCores Core.clearWaits [n]) ∨ exec (.watchFire n e) s = .next u := by
    show execWatchFire n e s = _ ∨ execWatchFire n e s = _
    unfold execWatchFire
    dsimp only
    rw [if_neg fun hn => watchFires_iff.1 hn h, ← hu]
    cases (u.ctx (s.core n).cid).stop with
    | none => exact .inl rfl
    | some st => exact (ite_eq_or_eq (st.accepted = true) (u.modCores Core.clearWaits [n]) u).imp (congrArg _) (congrArg _)
  have hn : (u.core n).cutw = BitVec.allOnes 64 := by rw [hu, State.core_modCore_self]
  have hm (m : Nat) (hm : m ≠ n) : u.core m = s.core m := by rw [hu, State.core_modCore_ne _ _ hm]; rfl
  have hstop (hl : (s.ctx (s.core n).cid).st = .live) (hs : (s.ctx (s.core n).cid).stop = none) :
      (u.ctx (s.core n).cid).stop = some { k := (s.core n).cutw, reqs := [{ srck := 4, core := BitVec.ofNat 8 n }], byCmd := true } := by
    rw [hu]
    show ((s.requestStop _ _ _ _).ctx _).stop = _
    rw [State.requestStop, State.ctx_modCtx_self, if_pos (beq_iff_eq.2 hl), hs]
  rcases hp with hp | hp
  · have hmod : u.modCores Core.clearWaits [n] = u.modCore n Core.clearWaits := rfl
    rw [hmod] at hp
    exact ⟨_, hp, by rw [State.core_modCore_self]; exact hn, hstop, fun m h => by rw [State.core_modCore_ne _ _ h, hm m h]⟩
  · exact ⟨u, hp, hn, hstop, hm⟩
end

section
variable {s : State} {n : Nat}
theorem hangs_iff : ((s.core n).hangt == 0 || (s.core n).hung || !(engines.any ((s.core n).unretired (isSup n))) || decide (s.cycle < (s.core n).idle + 2 ^ (s.core n).hangt)) = true ↔
    ¬((s.core n).hangt ≠ 0 ∧ (s.core n).hung = false ∧ (∃ eng ∈ engines, (s.core n).unretired (isSup n) eng = true) ∧ (s.core n).idle + 2 ^ (s.core n).hangt ≤ s.cycle) := by
  rw [Bool.or_eq_true, Bool.or_eq_true, Bool.or_eq_true, beq_iff_eq, Bool.not_eq_true', decide_eq_true_eq, ← List.any_eq_true]
  cases (s.core n).hung <;> cases engines.any ((s.core n).unretired (isSup n)) <;> simp [or_iff_not_imp_left]
theorem hang_eq : exec (.hang n) s =
    if (s.core n).hangt ≠ 0 ∧ (s.core n).hung = false ∧ (∃ eng ∈ engines, (s.core n).unretired (isSup n) eng = true) ∧ (s.core n).idle + 2 ^ (s.core n).hangt ≤ s.cycle then
      .next ((s.hangRecs n engines).modCore n fun c => { c with hung := true })
    else .next s := by
  show execHang n s = _
  unfold execHang
  dsimp only
  split
  next h => exact (if_neg (hangs_iff.1 h)).symm
  next h => exact (if_pos (by by_contra hn; exact h (hangs_iff.2 hn))).symm
end

section
variable {s : State} {k : Nat} {cons : BitVec 32}
theorem consWrite_eq : exec (.fbufConsWrite k cons) s =
    if BitVec.ofNat 7 k ≠ 0 ∧ (s.part (BitVec.ofNat 7 k)).used = false then .next s
    else .next (if s.cons (BitVec.ofNat 7 k) ≠ cons ∧ (s.fbufPut (BitVec.ofNat 7 k) 8 (leBytes cons.toNat 4)).fheld (BitVec.ofNat 7 k) ≠ [] then
        { s.fbufPut (BitVec.ofNat 7 k) 8 (leBytes cons.toNat 4) with wfe := (s.fbufPut (BitVec.ofNat 7 k) 8 (leBytes cons.toNat 4)).wfe ||| 8 }
      else s.fbufPut (BitVec.ofNat 7 k) 8 (leBytes cons.toNat 4)) := by
  show execFbufConsWrite k cons s = _
  unfold execFbufConsWrite
  dsimp only
  refine ite_congr (propext (by simp)) (fun _ => rfl) fun _ => congrArg _ ?_
  exact ite_congr (propext (by simp)) (fun _ => rfl) fun _ => rfl
end

/-! ### The reclaim fence and the end of a slice (R136, R144) -/

section
variable {s : State} {k j : Nat} {f : Fence} (hf : (s.fences.find? fun f => f.cid == BitVec.ofNat 12 k && f.inc == BitVec.ofNat 10 j) = some f)
include hf
theorem rcf_waits (h : ¬(f.asked = true ∧ f.left.toNat + 103400 ≤ s.gts.toNat ∧ s.holds (BitVec.ofNat 12 k) (BitVec.ofNat 10 j) = false)) : exec (.rcfComplete k j) s = .next s := by
  show execRcfComplete k j s = _
  unfold execRcfComplete
  dsimp only
  rw [hf]
  refine if_pos ?_
  by_contra hn
  simp only [Bool.or_eq_true, not_or, Bool.not_eq_true', Bool.not_eq_false, Bool.not_eq_true, decide_eq_true_eq, not_lt] at hn
  exact h ⟨hn.1.1, hn.1.2, hn.2⟩
/-- A complete fence frees the phasers of its incarnation, and a context in RECLAIM. -/
theorem rcf_completes (ha : f.asked = true) (hl : f.left.toNat + 103400 ≤ s.gts.toNat) (hh : s.holds (BitVec.ofNat 12 k) (BitVec.ofNat 10 j) = false) :
    ∃ t, exec (.rcfComplete k j) s = .next t ∧ t.fencePending (BitVec.ofNat 12 k) (BitVec.ofNat 10 j) = false ∧
      (∀ x ∈ t.phasers, x.2.owner ≠ some (BitVec.ofNat 12 k, BitVec.ofNat 10 j)) ∧ t.wfe = s.wfe ||| 2 ∧
      t.ctx (BitVec.ofNat 12 k) = (if (s.ctx (BitVec.ofNat 12 k)).st = .reclaim ∧ (s.ctx (BitVec.ofNat 12 k)).inc = BitVec.ofNat 10 j
        then { s.ctx (BitVec.ofNat 12 k) with st := .free } else s.ctx (BitVec.ofNat 12 k)) ∧ t.mem = s.mem ∧ t.cores = s.cores := by
  obtain ⟨u, hu⟩ : ∃ u, u = if (s.ctx (BitVec.ofNat 12 k)).st == .reclaim && (s.ctx (BitVec.ofNat 12 k)).inc == BitVec.ofNat 10 j
    then s.setCtx (BitVec.ofNat 12 k) { s.ctx (BitVec.ofNat 12 k) with st := .free } else s := ⟨_, rfl⟩
  have hside : u.fences = s.fences ∧ u.phasers = s.phasers ∧ u.wfe = s.wfe ∧ u.mem = s.mem ∧ u.cores = s.cores := by
    rw [hu]
    split <;> exact ⟨rfl, rfl, rfl, rfl, rfl⟩
  obtain ⟨h1, h2, h3, h4, h5⟩ := hside
  refine ⟨State.wake { u with
    fences := u.fences.filter (fun f => !(f.cid == BitVec.ofNat 12 k && f.inc == BitVec.ofNat 10 j))
    phasers := u.phasers.filter (fun x => x.2.owner != some (BitVec.ofNat 12 k, BitVec.ofNat 10 j))
    dedup := u.dedup.filter (fun d => !(d.cid == BitVec.ofNat 12 k && d.inc == BitVec.ofNat 10 j))
    rcache := u.rcache.filter (fun d => !(d.cid == BitVec.ofNat 12 k && d.inc == BitVec.ofNat 10 j))
    seqs := u.seqs.filter fun x => x.1 % (4096 * 1024) != (BitVec.ofNat 12 k).toNat * 1024 + (BitVec.ofNat 10 j).toNat } 1, ?_, ?_, fun x hx => ?_, by rw [← h3]; rfl, ?_, h4, h5⟩
  · rw [hu]
    show execRcfComplete k j s = _
    unfold execRcfComplete
    dsimp only
    rw [hf]
    exact if_neg (by simp [ha, hh]; omega)
  · refine List.any_eq_false.2 fun g hg => ?_
    have hkeep := (List.mem_filter.1 hg).2
    rw [Bool.not_eq_true'] at hkeep
    rw [hkeep]
    exact Bool.false_ne_true
  · simpa using (List.mem_filter.1 hx).2
  · show u.ctx _ = _
    rw [hu]
    by_cases hc : (s.ctx (BitVec.ofNat 12 k)).st = .reclaim ∧ (s.ctx (BitVec.ofNat 12 k)).inc = BitVec.ofNat 10 j
    · rw [if_pos hc, if_pos (by simpa using hc), State.ctx_setCtx_self]
    · rw [if_neg hc, if_neg (by simpa using hc)]
end

section
variable {s : State} {k : Nat} {x : SliceTab} {pid : BitVec 7} {len : Nat} (hx : s.slices[k]? = some x) (he : x.ents[x.cur]? = some (pid, len))
include hx he
theorem sliceEnd_waits (h : ¬(s.hasWork pid = false ∨ x.started.toNat + 100000 * len ≤ s.gts.toNat)) : exec (.sliceEnd k) s = .next s := by
  show execSliceEnd k s = _
  unfold execSliceEnd
  rw [hx]
  dsimp only
  rw [he]
  rw [not_or, Bool.not_eq_false, not_le] at h
  exact if_pos (by simp [h.1, h.2])
variable (hd : s.hasWork pid = false ∨ x.started.toNat + 100000 * len ≤ s.gts.toNat)
include hd
/-- At the end of an entry its contexts leave the pods first; then the next entry with work begins. -/
theorem sliceEnd_ends : exec (.sliceEnd k) s = if s.onPods pid x.pods ≠ [] then .next (s.preempt (s.onPods pid x.pods)) else
    (s.nextSlice x).elim (.next s) fun i => .next (({ s with slices := s.slices.set k { x with cur := i, started := s.gts } } : State).loadAll
      (({ s with slices := s.slices.set k { x with cur := i, started := s.gts } } : State).ctxsOf ((x.ents[i]?.map (·.1)).getD 0))) := by
  show execSliceEnd k s = _
  unfold execSliceEnd
  rw [hx]
  dsimp only
  rw [he]
  dsimp only
  rw [if_neg (by rw [Bool.and_eq_true, decide_eq_true_eq, not_and_or, Bool.not_eq_true, not_lt]; exact hd)]
  refine ite_congr (propext (by simp)) (fun _ => rfl) fun _ => ?_
  cases s.nextSlice x <;> rfl
end

end Sys2Proof.Machine
end

section
/-! SUPPORT. What a published horizon releases and retires (R253, R254, R259). -/

set_option Elab.async false

namespace Sys2Proof.Machine

/-! ### The order of release -/

theorem relInsert_perm (a : Held) (l : List Held) : (relInsert a l).Perm (a :: l) := by
  induction l with
  | nil => exact .refl _
  | cons b bs ih =>
    unfold relInsert
    split
    · exact .refl _
    · exact (List.Perm.cons b ih).trans (.swap a b bs)
theorem foldr_relInsert_perm (l : List Held) : (l.foldr relInsert []).Perm l := by
  induction l with
  | nil => exact .refl _
  | cons a l ih => exact (relInsert_perm a _).trans (.cons a ih)
theorem relBefore_le {a b : Held} (h : relBefore a b = true) : a.e.toNat ≤ b.e.toNat := by
  unfold relBefore at h
  rw [Bool.or_eq_true, Bool.and_eq_true, beq_iff_eq, BitVec.ult_iff_lt, BitVec.lt_def] at h
  rcases h with h | ⟨h, -⟩
  · exact Nat.le_of_lt h
  · rw [h]
theorem relBefore_ge {a b : Held} (h : ¬relBefore a b = true) : b.e.toNat ≤ a.e.toNat := by
  unfold relBefore at h
  rw [Bool.or_eq_true, not_or, BitVec.ult_iff_lt, BitVec.lt_def, Nat.not_lt] at h
  exact h.1
theorem relInsert_sorted (a : Held) {l : List Held} (h : l.Pairwise fun a b => a.e.toNat ≤ b.e.toNat) : (relInsert a l).Pairwise fun a b => a.e.toNat ≤ b.e.toNat := by
  induction l with
  | nil => exact List.pairwise_singleton ..
  | cons b bs ih =>
    obtain ⟨hb, hbs⟩ := List.pairwise_cons.1 h
    unfold relInsert
    split
    next hr =>
      exact List.pairwise_cons.2 ⟨fun x hx => (List.mem_cons.1 hx).elim (fun e => e ▸ relBefore_le hr) fun hx => (relBefore_le hr).trans (hb x hx), h⟩
    next hr =>
      refine List.pairwise_cons.2 ⟨fun x hx => ?_, ih hbs⟩
      rcases List.mem_cons.1 ((relInsert_perm a bs).mem_iff.1 hx) with rfl | hx
      · exact relBefore_ge hr
      · exact hb x hx
theorem foldr_relInsert_sorted (l : List Held) : (l.foldr relInsert []).Pairwise fun a b => a.e.toNat ≤ b.e.toNat := by
  induction l with
  | nil => exact .nil
  | cons a l ih => exact relInsert_sorted a ih

/-! ### Entries that leave -/

/-- An entry that leaves for its home in this device, and is no launch. -/
def Held.plain (h : Held) : Prop := h.act.dst = none ∧ ∀ a w, h.act ≠ .spawn a w
/-- A core whose entries of some numbers have left. -/
def Core.letGo (c : Core) (ids : List Nat) : Core := { c with hold := c.hold.filter fun x => !ids.contains x.id }
theorem Core.letGo_nil (c : Core) : c.letGo [] = c := by
  have h : (c.hold.filter fun x => !([] : List Nat).contains x.id) = c.hold := List.filter_eq_self.2 fun _ _ => rfl
  rw [Core.letGo, h]
theorem Core.letGo_cons (c : Core) (i : Nat) (ids : List Nat) : ({ c with hold := c.hold.filter fun x => x.id != i } : Core).letGo ids = c.letGo (i :: ids) := by
  have h : (c.hold.filter fun x => x.id != i).filter (fun x => !ids.contains x.id) = c.hold.filter fun x => !(i :: ids).contains x.id := by
    rw [List.filter_filter]
    refine List.filter_congr fun x _ => ?_
    rw [List.contains_cons, Bool.not_or, Bool.and_comm]
    rfl
  unfold Core.letGo
  rw [h]
/-- The state in which an entry has been released. -/
def State.letFly (s : State) (h : Held) : State :=
  { s.modCore h.core fun c => { c with hold := c.hold.filter fun x => x.id != h.id } with flying := s.flying ++ [h] }
theorem releaseAll_cons {h : Held} (hp : h.plain) (s : State) (hs : List Held) :
    s.releaseAll [] (h :: hs) = if s.routerOn h.core then (s.letFly h).releaseAll [] hs else s.releaseAll [] hs := by
  obtain ⟨hd, hsp⟩ := hp
  conv_lhs => unfold State.releaseAll
  dsimp only
  rw [List.contains_nil, Bool.false_or]
  cases hr : s.routerOn h.core with
  | false => rw [Bool.not_false, if_pos rfl, if_neg Bool.false_ne_true]
  | true =>
    rw [Bool.not_true, if_neg Bool.false_ne_true, if_pos rfl]
    split
    next a w ha => exact absurd ha (hsp a w)
    next a ha =>
      rw [hd]
      rfl
theorem State.letFly_core (s : State) (h : Held) (n : Nat) :
    (s.letFly h).core n = if n = h.core then { s.core n with hold := (s.core n).hold.filter fun x => x.id != h.id } else s.core n := by
  have hc : (s.letFly h).core n = (s.modCore h.core fun c => { c with hold := c.hold.filter fun x => x.id != h.id }).core n := rfl
  rw [hc, State.core_modCore]
theorem releaseAll_plain (hs : List Held) (hp : ∀ h ∈ hs, h.plain) (s : State) :
    s.releaseAll [] hs = { s with cores := (s.releaseAll [] hs).cores, flying := s.flying ++ hs.filter fun h => s.routerOn h.core } ∧
      ∀ n, (s.releaseAll [] hs).core n = (s.core n).letGo ((hs.filter fun h => s.routerOn h.core && h.core == n).map (·.id)) := by
  induction hs generalizing s with
  | nil => exact ⟨by rw [List.filter_nil, List.append_nil]; rfl, fun n => (Core.letGo_nil _).symm⟩
  | cons h hs ih =>
    rw [releaseAll_cons (hp h List.mem_cons_self)]
    have ih := ih fun x hx => hp x (List.mem_cons_of_mem _ hx)
    cases hr : s.routerOn h.core with
    | false =>
      rw [if_neg Bool.false_ne_true, List.filter_cons_of_neg (by rw [hr]; exact Bool.false_ne_true)]
      refine ⟨(ih s).1, fun n => ?_⟩
      rw [List.filter_cons_of_neg (by rw [hr, Bool.false_and]; exact Bool.false_ne_true)]
      exact (ih s).2 n
    | true =>
      obtain ⟨h1, h2⟩ := ih (s.letFly h)
      have hrout (m : Nat) : (s.letFly h).routerOn m = s.routerOn m := rfl
      rw [if_pos rfl, List.filter_cons_of_pos (by rw [hr])]
      simp only [hrout] at h1 h2
      refine ⟨?_, fun n => ?_⟩
      · rw [h1]
        show ({ s with cores := _, flying := (s.flying ++ [h]) ++ _ } : State) = _
        rw [List.append_assoc]
        rfl
      · rw [h2, State.letFly_core]
        by_cases hn : n = h.core
        · rw [if_pos hn, List.filter_cons_of_pos (by rw [hr, hn]; simp), List.map_cons, Core.letGo_cons]
        · rw [if_neg hn, List.filter_cons_of_neg (by rw [hr]; simpa using fun e => hn e.symm)]

/-! ### Entries of the peel log that retire -/

theorem retirePeel_splits (h : Word) (p : List Peel) : (∃ out, p = retirePeel h none p ++ out ∧ ∀ x ∈ out, x.crd.toNat ≤ h.toNat) ∧
    ∀ x, (retirePeel h none p).getLast? = some x → h.toNat < x.crd.toNat := by
  have hpass (x : Peel) : (x.crd.ule h && (match (none : Option Word) with | some c => x.crd.ult c | none => true)) = decide (x.crd.toNat ≤ h.toNat) := by
    simp [BitVec.ule]
  have heq : retirePeel h none p = (p.reverse.dropWhile fun x => decide (x.crd.toNat ≤ h.toNat)).reverse := by
    unfold retirePeel
    simp only [hpass]
  rw [heq]
  refine ⟨⟨(p.reverse.takeWhile fun x => decide (x.crd.toNat ≤ h.toNat)).reverse, ?_, fun x hx => ?_⟩, fun x hx => ?_⟩
  · rw [← List.reverse_append, List.takeWhile_append_dropWhile, List.reverse_reverse]
  · simpa using List.mem_takeWhile_imp (List.mem_reverse.1 hx)
  · rw [List.getLast?_reverse] at hx
    have := List.head?_dropWhile_not (fun x : Peel => decide (x.crd.toNat ≤ h.toNat)) p.reverse
    rw [hx] at this
    simpa using this
/-- What follows a publication on a core: of its log and egress hold, only the log entries that retire go. -/
theorem State.passHorizon_side (s : State) (h : Word) (n : Nat) : CoreOnly s (s.passHorizon h n) n ∧ ((s.passHorizon h n).core n).hold = (s.core n).hold ∧
    ((s.passHorizon h n).core n).peel = retirePeel h (s.cutOf n) (s.core n).peel := by
  obtain ⟨u, hu⟩ : ∃ u, u = s.modCore n fun c => { c with peel := retirePeel h (s.cutOf n) c.peel } := ⟨_, rfl⟩
  have hpass : s.passHorizon h n = [Eng.acc, .exe, .mtx, .cpy, .net].foldl (fun s e => s.trimEng n e) u := by rw [hu]; rfl
  have hside (l : List Eng) (v : State) (hv : EngSide u v n) : EngSide u (l.foldl (fun s e => s.trimEng n e) v) n := by
    induction l generalizing v with
    | nil => exact hv
    | cons e l ih => exact ih _ (hv.trans (State.trimEng_side ..))
  have htrim := hside [Eng.acc, .exe, .mtx, .cpy, .net] u (.refl u n)
  rw [← hpass] at htrim
  obtain ⟨honly, -, -, -, hpeel, hhold⟩ := htrim
  have hcu : CoreOnly s u n := hu ▸ .modCore s n _
  refine ⟨hcu.trans honly, hhold.trans ?_, hpeel.trans ?_⟩
  · rw [hu, State.core_modCore_self]
  · rw [hu, State.core_modCore_self]
theorem foldl_passHorizon (h : Word) (ns : List Nat) (hd : ns.Nodup) (s : State) :
    let t := ns.foldl (fun s n => s.passHorizon h n) s
    t.ctxs = s.ctxs ∧ t.flying = s.flying ∧ (∀ n, n ∉ ns → t.core n = s.core n) ∧
      ∀ n ∈ ns, (t.core n).hold = (s.core n).hold ∧ (t.core n).peel = retirePeel h (s.cutOf n) (s.core n).peel := by
  induction ns generalizing s with
  | nil => exact ⟨rfl, rfl, fun _ _ => rfl, fun _ h => absurd h List.not_mem_nil⟩
  | cons n ns ih =>
    obtain ⟨hn, hns⟩ := List.nodup_cons.1 hd
    obtain ⟨u, hu⟩ : ∃ u, u = s.passHorizon h n := ⟨_, rfl⟩
    obtain ⟨honly, hhold, hpeel⟩ := s.passHorizon_side h n
    obtain ⟨hctx, hfly, hout, hin⟩ := ih hns u
    rw [← hu] at honly hhold hpeel
    rw [List.foldl_cons, ← hu]
    have hsame : u.ctxs = s.ctxs ∧ u.flying = s.flying := by
      rw [show u = { s with cores := u.cores, nextId := u.nextId } from honly.1]
      exact ⟨rfl, rfl⟩
    refine ⟨hctx.trans hsame.1, hfly.trans hsame.2, fun m hm => ?_, fun m hm => ?_⟩
    · exact (hout m (List.not_mem_of_not_mem_cons hm)).trans (honly.2 m (List.ne_of_not_mem_cons hm))
    · rcases List.mem_cons.1 hm with rfl | hm
      · rw [hout m hn]
        exact ⟨hhold, hpeel⟩
      · have hne : m ≠ n := fun e => hn (e ▸ hm)
        have hcut : u.cutOf m = s.cutOf m := by rw [State.cutOf, State.cutOf, honly.2 m hne, honly.ctx]
        obtain ⟨h1, h2⟩ := hin m hm
        rw [h1, h2, hcut, honly.2 m hne]
        exact ⟨rfl, rfl⟩

/-! ### A publication with no stop pending (R253, R254) -/

/-- A core that runs a tile task of a context. -/
def State.onTile (s : State) (cid : BitVec 12) (n : Nat) : Prop := isSup n = false ∧ ∃ t, (s.core n).task = some t ∧ t.cid = cid
theorem State.onTile_cid {s : State} {cid : BitVec 12} {n : Nat} (h : s.onTile cid n) : (s.core n).cid = cid := by
  obtain ⟨-, t, ht, hc⟩ := h
  rw [Core.cid, ht]
  exact hc
theorem State.onTile_mem {s : State} {cid : BitVec 12} {n : Nat} (h : s.onTile cid n) : n ∈ s.coresOf cid := by
  obtain ⟨hs, t, ht, rfl⟩ := h
  exact State.mem_coresOf hs ht
theorem SMap.get_of_mem {α : Type} (d : α) {m : SMap α} (hd : (m.map (·.1)).Nodup) {k : Nat} {v : α} (h : (k, v) ∈ m) : m.get d k = v := by
  induction m with
  | nil => exact absurd h List.not_mem_nil
  | cons x xs ih =>
    obtain ⟨i, w⟩ := x
    obtain ⟨hn, hd⟩ := List.nodup_cons.1 hd
    rw [SMap.get]
    rcases List.mem_cons.1 h with e | h
    · cases e
      exact if_pos rfl
    · rw [if_neg, ih hd h]
      intro e
      exact hn (List.mem_map.2 ⟨(k, v), h, e.symm⟩)
theorem State.onTile_of_mem {s : State} (hi : CoresInv s) {cid : BitVec 12} {n : Nat} (h : n ∈ s.coresOf cid) : s.onTile cid n := by
  obtain ⟨⟨m, c⟩, hm, hc⟩ := List.mem_filterMap.1 h
  have hget : s.core m = c := SMap.get_of_mem _ hi hm
  dsimp only at hc
  split at hc
  next t ht =>
    rw [Option.ite_none_right_eq_some] at hc
    obtain ⟨hp, he⟩ := hc
    cases he
    rw [Bool.and_eq_true, beq_iff_eq, Bool.not_eq_true'] at hp
    exact ⟨hp.2, t, by rw [hget]; exact ht, hp.1⟩
  · cases hc
theorem State.coresOf_nodup {s : State} (hi : CoresInv s) (cid : BitVec 12) : (s.coresOf cid).Nodup := by
  have hsub (l : List (Nat × Core)) : (l.filterMap fun x => match x.2.task with | some t => if t.cid == cid && !isSup x.1 then some x.1 else none | none => none).Sublist (l.map (·.1)) := by
    induction l with
    | nil => exact .slnil
    | cons x xs ih =>
      rw [List.filterMap_cons, List.map_cons]
      split
      · exact ih.cons _
      next y hy =>
        have : y = x.1 := by
          split at hy
          · rw [Option.ite_none_right_eq_some] at hy
            exact (Option.some.inj hy.2).symm
          · cases hy
        exact this ▸ ih.cons_cons _
  exact List.Nodup.sublist (hsub s.cores) hi

/-- The state in which a published horizon has released and retired what it reaches, before the squash of a stop. -/
def State.settle (s : State) (cid : BitVec 12) (h : Word) : State :=
  let u := s.modCtx cid fun c => { c with horiz := h }
  let v := u.releaseAll [] (u.releasable cid h)
  let w := (v.coresOf cid).foldl (fun s n => s.passHorizon h n) v
  State.quarRelease { w with phasers := w.phasers.map fun (k, p) => (k, if p.owner == some (cid, (w.ctx cid).inc) then p.forget h else p) } cid 4096
section
variable {s : State} {cid : BitVec 12} {h : Word}
theorem State.settle_eq (s : State) (cid : BitVec 12) (h : Word) : ∃ ph m,
    let u := s.modCtx cid fun c => { c with horiz := h }
    let v := u.releaseAll [] (u.releasable cid h)
    s.settle cid h = { (v.coresOf cid).foldl (fun s n => s.passHorizon h n) v with phasers := ph, mem := m } := by
  unfold State.settle
  extract_lets u v w
  obtain ⟨m, hm⟩ := State.quarRelease_mem_only { w with phasers := w.phasers.map fun (k, p) => (k, if p.owner == some (cid, (w.ctx cid).inc) then p.forget h else p) } cid 4096
  exact ⟨_, m, hm⟩
theorem publish_eq (s : State) (cid : BitVec 12) (h : Word) : s.publish cid h =
    ((s.settle cid h).ctx cid).stop.elim (s.settle cid h) fun st => if st.accepted && !st.squashed && st.cut.ule h then
      ((s.settle cid h).squashAll st.cut ((s.settle cid h).coresOf cid)).modCtx cid fun c => { c with stop := c.stop.map fun st => { st with squashed := true } }
    else s.settle cid h := by
  obtain ⟨u, hu⟩ : ∃ u, u = s.settle cid h := ⟨_, rfl⟩
  have hp : s.publish cid h = match (u.ctx cid).stop with
    | some st => if st.accepted && !st.squashed && st.cut.ule h then
        (u.squashAll st.cut (u.coresOf cid)).modCtx cid fun c => { c with stop := c.stop.map fun st => { st with squashed := true } } else u
    | none => u := by
    rw [hu]
    unfold State.publish State.settle
    generalize (4096 : Nat) = q
    rfl
  rw [hp, ← hu]
  cases (u.ctx cid).stop <;> rfl
/-- With no stop pending the entries at or below the horizon leave in order, but where the router has no clock, and the log entries at or below it retire. -/
theorem publish_releases (hstop : (s.ctx cid).stop = none) (hi : CoresInv s) (hp : ∀ n, s.onTile cid n → ∀ x ∈ (s.core n).hold, x.core = n ∧ x.plain) :
    ∃ l : List Held, ((s.publish cid h).ctx cid).horiz = h ∧ (s.publish cid h).flying = s.flying ++ l ∧
      l.Perm ((s.coresOf cid).flatMap fun n => (s.core n).hold.filter fun x => s.routerOn n && decide (x.e.toNat ≤ h.toNat)) ∧
      l.Pairwise (fun a b => a.e.toNat ≤ b.e.toNat) ∧
      ∀ n, s.onTile cid n → (s.routerOn n = true → ∀ x ∈ ((s.publish cid h).core n).hold, h.toNat < x.e.toNat ∧ x ∈ (s.core n).hold) ∧
        (s.routerOn n = false → ((s.publish cid h).core n).hold = (s.core n).hold) ∧ ((s.publish cid h).core n).peel = retirePeel h none (s.core n).peel := by
  obtain ⟨u, hu⟩ : ∃ u, u = s.modCtx cid fun c => { c with horiz := h } := ⟨_, rfl⟩
  obtain ⟨hs, hhs⟩ : ∃ hs, hs = u.releasable cid h := ⟨_, rfl⟩
  obtain ⟨v, hv⟩ : ∃ v, v = u.releaseAll [] hs := ⟨_, rfl⟩
  obtain ⟨w, hw⟩ : ∃ w, w = (v.coresOf cid).foldl (fun s n => s.passHorizon h n) v := ⟨_, rfl⟩
  obtain ⟨ph, m, hset⟩ := s.settle_eq cid h
  dsimp only at hset
  rw [← hu, ← hhs, ← hv, ← hw] at hset
  have huc (n : Nat) : u.core n = s.core n := by rw [hu]; rfl
  have hucs : u.coresOf cid = s.coresOf cid := by rw [hu]; rfl
  have hur (n : Nat) : u.routerOn n = s.routerOn n := by rw [hu]; rfl
  have hctx : u.ctx cid = { s.ctx cid with horiz := h } := by rw [hu, State.ctx_modCtx_self]
  have huf : u.flying = s.flying := by rw [hu]; rfl
  have hmem : hs.Perm ((s.coresOf cid).flatMap fun n => (s.core n).hold.filter fun x => decide (x.e.toNat ≤ h.toNat)) := by
    rw [hhs, State.releasable, hucs]
    refine (foldr_relInsert_perm _).trans (.of_eq ?_)
    refine List.flatMap_congr fun n hn => ?_
    have hon := State.onTile_of_mem hi hn
    rw [huc]
    refine List.filter_congr fun x _ => ?_
    have hcut : u.cutOf n = none := by
      rw [State.cutOf, hon.1, huc, State.onTile_cid hon, hctx]
      show (if false = true then none else (s.ctx cid).stop.bind _) = none
      rw [hstop]
      rfl
    rw [State.stopAtOrBelow, hcut]
    simp [BitVec.ule]
  have hmem' (x : Held) : x ∈ hs ↔ ∃ n, s.onTile cid n ∧ x ∈ (s.core n).hold ∧ x.e.toNat ≤ h.toNat := by
    rw [hmem.mem_iff, List.mem_flatMap]
    constructor
    · rintro ⟨n, hn, hx⟩
      obtain ⟨hx, he⟩ := List.mem_filter.1 hx
      exact ⟨n, State.onTile_of_mem hi hn, hx, of_decide_eq_true he⟩
    · rintro ⟨n, hn, hx, he⟩
      exact ⟨n, State.onTile_mem hn, List.mem_filter.2 ⟨hx, decide_eq_true he⟩⟩
  have hplain (x : Held) (hx : x ∈ hs) : x.plain := by
    obtain ⟨n, hn, hxn, -⟩ := (hmem' x).1 hx
    exact (hp n hn x hxn).2
  obtain ⟨hvs, hvc⟩ := releaseAll_plain hs hplain u
  rw [← hv] at hvs hvc
  have hiv : CoresInv v := by
    rw [hv, hu]
    exact (Keeps.releaseAll (Keeps.modCtx (.refl s))).cores hi
  have hvctx : v.ctx cid = { s.ctx cid with horiz := h } := by rw [← hctx, hvs]; rfl
  obtain ⟨hwctx, hwfly, hwout, hwin⟩ := foldl_passHorizon h (v.coresOf cid) (State.coresOf_nodup hiv cid) v
  rw [← hw] at hwctx hwfly hwout hwin
  have hsctx : (s.settle cid h).ctx cid = { s.ctx cid with horiz := h } := by rw [← hvctx, hset]; exact State.ctx_of_ctxs hwctx cid
  have hpub : s.publish cid h = s.settle cid h := by
    have hnone : ((s.settle cid h).ctx cid).stop = none := by rw [hsctx]; exact hstop
    rw [publish_eq, hnone, Option.elim_none]
  have hcore (n : Nat) : (s.settle cid h).core n = w.core n := by rw [hset]; rfl
  refine ⟨hs.filter fun x => s.routerOn x.core, ?_, ?_, ?_, ?_, fun n hn => ?_⟩
  · rw [hpub, hsctx]
  · rw [hpub, hset]
    show w.flying = _
    rw [hwfly, hvs]
    dsimp only
    simp only [hur, huf]
  · refine (hmem.filter _).trans (.of_eq ?_)
    rw [List.filter_flatMap]
    refine List.flatMap_congr fun n hn => ?_
    rw [List.filter_filter]
    exact List.filter_congr fun x hx => by rw [(hp n (State.onTile_of_mem hi hn) x hx).1]
  · rw [hhs]
    exact (foldr_relInsert_sorted _).filter _
  · have hvn : v.core n = (s.core n).letGo ((hs.filter fun x => s.routerOn x.core && x.core == n).map (·.id)) := by
      rw [hvc, huc]
      simp only [hur]
    have hvon : v.onTile cid n := ⟨hn.1, by rw [hvn]; exact hn.2⟩
    obtain ⟨hhold, hpeel⟩ := hwin n (State.onTile_mem hvon)
    have hcut : v.cutOf n = none := by
      rw [State.cutOf, hn.1, State.onTile_cid hvon, hvctx]
      show (if false = true then none else (s.ctx cid).stop.bind _) = none
      rw [hstop]
      rfl
    rw [hpub, hcore, hhold, hpeel, hvn, hcut]
    refine ⟨fun hr x hx => ?_, fun hr => ?_, rfl⟩
    · obtain ⟨hxs, hxid⟩ := List.mem_filter.1 hx
      refine ⟨Nat.lt_of_not_le fun he => ?_, hxs⟩
      have hin : x.id ∈ (hs.filter fun x => s.routerOn x.core && x.core == n).map (·.id) :=
        List.mem_map.2 ⟨x, List.mem_filter.2 ⟨(hmem' x).2 ⟨n, hn, hxs, he⟩, by rw [(hp n hn x hxs).1, hr, beq_self_eq_true]; rfl⟩, rfl⟩
      rw [List.contains_iff_mem.2 hin] at hxid
      exact Bool.false_ne_true hxid
    · have hnone : (hs.filter fun x => s.routerOn x.core && x.core == n) = [] := by
        refine List.filter_eq_nil_iff.2 fun x _ hx => ?_
        rw [Bool.and_eq_true, beq_iff_eq] at hx
        rw [hx.2, hr] at hx
        exact Bool.false_ne_true hx.1
      rw [hnone]
      exact congrArg Core.hold (Core.letGo_nil _)
end

end Sys2Proof.Machine
end

section
/-! PROOFS of the CutEvents statement (O50): the squash at the cut of a stop, and the statement. -/

set_option Elab.async false

namespace Sys2Proof.Machine

/-! ### Faults recorded -/

theorem CtxSide.fbufPut (s : State) (pid : BitVec 7) (off : Nat) (bs : List Byte) : CtxSide s (s.fbufPut pid off bs) := by
  unfold State.fbufPut
  split
  · exact (CtxSide.refl s).putCells _
  · exact .refl s
theorem CtxSide.event (s : State) (ev : BitVec 8) (pid : BitVec 7) (cid : BitVec 12) (inc : BitVec 10) (q : Nat) (a b : Word) : CtxSide s (s.event ev pid cid inc q a b) := by
  obtain ⟨u, hu⟩ := s.event_ueq_only ev pid cid inc q a b
  rw [hu]
  exact ⟨rfl, rfl, rfl⟩
theorem CtxSide.writeRec (s : State) (pid : BitVec 7) (r : FRec) : CtxSide s (s.writeRec pid r) := by
  unfold State.writeRec
  dsimp only
  have hput (a b : Nat) (x y : List Byte) : CtxSide s ((s.fbufPut pid a x).fbufPut pid b y) := (CtxSide.fbufPut s pid a x).trans (.fbufPut _ pid b y)
  split
  · exact (hput ..).trans ⟨rfl, rfl, rfl⟩
  · exact (hput ..).trans (.event ..)
theorem CtxSide.record (s : State) (pid : BitVec 7) (r : FRec) (n : Nat) (b : Bool) : CtxSide s (s.record pid r n b) := by
  unfold State.record
  split
  · exact (CtxSide.refl s).setFheld ..
  · exact .writeRec ..

/-! ### What the release of entries leaves to the squash -/

/-- The published horizons and the stops of contexts stand, and so do the tasks of cores. -/
structure CutSide (s t : State) : Prop where
  cut : ∀ c, (t.ctx c).horiz = (s.ctx c).horiz ∧ (t.ctx c).stop = (s.ctx c).stop
  task : ∀ n, (t.core n).task = (s.core n).task

theorem CutSide.refl (s : State) : CutSide s s := ⟨fun _ => ⟨rfl, rfl⟩, fun _ => rfl⟩
theorem CutSide.trans {s t u : State} (a : CutSide s t) (b : CutSide t u) : CutSide s u :=
  ⟨fun c => ⟨(b.cut c).1.trans (a.cut c).1, (b.cut c).2.trans (a.cut c).2⟩, fun n => (b.task n).trans (a.task n)⟩
theorem CutSide.ite {s t u : State} {p : Prop} [Decidable p] (a : CutSide s t) (b : CutSide s u) : CutSide s (if p then t else u) := by
  split
  · exact a
  · exact b
theorem CutSide.of_ctxSide {s t : State} (a : CtxSide s t) : CutSide s t :=
  ⟨fun c => by rw [State.ctx_of_ctxs a.ctxs]; exact ⟨rfl, rfl⟩, fun n => by rw [State.core, State.core, a.cores]⟩
theorem CutSide.modCore (s : State) (n : Nat) {f : Core → Core} (hf : ∀ c, (f c).task = c.task) : CutSide s (s.modCore n f) :=
  ⟨fun _ => ⟨rfl, rfl⟩, fun m => by rw [State.core_modCore]; split <;> simp [hf]⟩
theorem CutSide.modEng (s : State) (n : Nat) (eng : Eng) (f : EngSt → EngSt) : CutSide s (s.modCore n fun c => c.modEng eng f) :=
  .modCore s n fun c => by cases eng <;> rfl
theorem CutSide.modCtx (s : State) (cid : BitVec 12) {f : Ctx → Ctx} (hf : ∀ c, (f c).horiz = c.horiz ∧ (f c).stop = c.stop) : CutSide s (s.modCtx cid f) :=
  ⟨fun c => Prod.mk.inj (State.ctx_modCtx_same s cid (fun x => (x.horiz, x.stop)) (by rw [(hf _).1, (hf _).2]) c), fun _ => rfl⟩
theorem CutSide.gpaPut (s : State) (cid : BitVec 12) (a n v : Nat) : CutSide s (s.gpaPut cid a n v) := by
  obtain ⟨m, hm⟩ := s.gpaPut_mem_only cid a n v
  rw [hm]
  exact ⟨fun _ => ⟨rfl, rfl⟩, fun _ => rfl⟩
theorem CutSide.park (s : State) (n : Nat) (eng : Eng) (pid : BitVec 7) (r : FRec) (b st p : Bool) (slot : BitVec 16) (core : Bool) (op : Nat) :
    CutSide s (s.park n eng pid r b st p slot core op) :=
  (CutSide.of_ctxSide (.record s pid r n true)).trans (.modEng ..)
theorem CutSide.recordOn (s : State) (pid : BitVec 7) (r : FRec) (n : Nat) (eng : Eng) : CutSide s (s.recordOn pid r n eng) := by
  unfold State.recordOn
  dsimp only
  split
  · exact .park ..
  · exact .of_ctxSide (.record ..)
/-- A user-class fault asks for no stop. -/
theorem CutSide.raiseUser (pc : Word) (s : State) (n : Nat) (eng : Eng) {code : BitVec 8} (hc : code = fIllegal ∨ code = fRawWindow) (val e : Word) (before : Bool) (slot : BitVec 16) :
    CutSide s (s.raiseFrom pc n eng code val e before slot) := by
  have hbusy : (code == fIncBusy) = false := by rcases hc with rfl | rfl <;> decide
  have hcls : (if (code == fPriv && isSup n) = true then (2 : BitVec 2) else faultClass code) = 0 := by
    rcases hc with rfl | rfl <;> exact if_neg (by rw [Bool.and_eq_true]; exact fun h => absurd h.1 (by decide))
  unfold State.raiseFrom
  dsimp only
  rw [hbusy, hcls, if_neg Bool.false_ne_true, if_neg (by simp), if_neg (by decide)]
  refine .ite (.park ..) ?_
  rw [if_neg (by decide)]
  exact .modCore s n fun _ => rfl
theorem State.ldesc_code {s : State} {cid : BitVec 12} {a : Word} {code : BitVec 8} (h : s.ldesc cid a = .inr code) : code = fIllegal ∨ code = fRawWindow := by
  unfold State.ldesc at h
  split at h
  · exact .inr (Sum.inr.inj h).symm
  split at h
  · exact .inr (Sum.inr.inj h).symm
  dsimp only at h
  split at h
  · exact .inl (Sum.inr.inj h).symm
  split at h
  · exact .inr (Sum.inr.inj h).symm
  · cases h
theorem CutSide.acceptChild (s : State) (h : Held) (die parent : Nat) : CutSide s (s.acceptChild h die parent) := by
  unfold State.acceptChild
  split
  next addr w ha =>
    split
    next code hcode =>
      unfold State.spawnRefused
      rw [ha]
      dsimp only
      refine .ite (.recordOn ..) (CutSide.trans ?_ (.raiseUser _ _ _ _ (State.ldesc_code hcode) ..))
      exact .ite (.modCore s h.core fun _ => rfl) (.refl s)
    next d _ =>
      unfold State.addLaunch
      dsimp only
      refine CutSide.trans ?_ (CutSide.modCtx _ _ fun c => ⟨rfl, rfl⟩)
      exact ⟨fun _ => ⟨rfl, rfl⟩, fun _ => rfl⟩
  · exact .refl s
theorem CutSide.cqAppend (s : State) (x : CqEnt) : CutSide s (s.cqAppend x) := by
  unfold State.cqAppend
  dsimp only
  exact (CutSide.gpaPut s ..).trans (CutSide.modCtx _ _ fun c => ⟨rfl, rfl⟩)
theorem CutSide.spawnRelease (s : State) (h : Held) : CutSide s (s.spawnRelease h) := by
  have hslot : CutSide s (s.modCore h.core fun c => { c with spawnSlot := some h }) := .modCore s h.core fun _ => rfl
  unfold State.spawnRelease
  dsimp only
  refine .ite (.refl s) (.ite hslot (.ite (.acceptChild ..) (.ite (.acceptChild ..) (.ite (.cqAppend ..) hslot))))
theorem CutSide.releaseAll (hs : List Held) (shut : List Nat) (s : State) : CutSide s (s.releaseAll shut hs) := by
  induction hs generalizing s shut with
  | nil => exact .refl s
  | cons h hs ih =>
    obtain ⟨u, hu⟩ : ∃ u, u = s.modCore h.core fun c => { c with hold := c.hold.filter fun x => x.id != h.id } := ⟨_, rfl⟩
    have hgone : CutSide s u := hu ▸ .modCore s h.core fun _ => rfl
    have hfly : CutSide s { u with flying := u.flying ++ [h] } := hgone.trans ⟨fun _ => ⟨rfl, rfl⟩, fun _ => rfl⟩
    unfold State.releaseAll
    dsimp only
    rw [← hu]
    refine .ite (ih ..) ?_
    split
    · exact .ite (ih ..) ((hgone.trans (.spawnRelease u h)).trans (ih ..))
    · split
      · exact .ite (hfly.trans (ih ..)) (ih ..)
      · exact hfly.trans (ih ..)
theorem CutSide.trimEngs (n : Nat) (l : List Eng) (s : State) : CutSide s (l.foldl (fun s e => s.trimEng n e) s) := by
  induction l generalizing s with
  | nil => exact .refl s
  | cons e l ih => exact (CutSide.modEng s n e fun x => x.trim (e == .mtx) (s.horizonOf n) (s.cutOf n)).trans (ih _)
theorem CutSide.passHorizon (s : State) (h : Word) (n : Nat) : CutSide s (s.passHorizon h n) := by
  obtain ⟨u, hu⟩ : ∃ u, u = s.modCore n fun c => { c with peel := retirePeel h (s.cutOf n) c.peel } := ⟨_, rfl⟩
  have hpass : s.passHorizon h n = [Eng.acc, .exe, .mtx, .cpy, .net].foldl (fun s e => s.trimEng n e) u := by rw [hu]; rfl
  rw [hpass]
  exact CutSide.trans (hu ▸ .modCore s n fun _ => rfl) (.trimEngs n _ u)
theorem CutSide.passHorizons (h : Word) (l : List Nat) (s : State) : CutSide s (l.foldl (fun s n => s.passHorizon h n) s) := by
  induction l generalizing s with
  | nil => exact .refl s
  | cons n l ih =>
    rw [List.foldl_cons]
    exact (CutSide.passHorizon s h n).trans (ih _)
theorem CutSide.settle (s : State) (cid : BitVec 12) (h : Word) : CutSide (s.modCtx cid fun c => { c with horiz := h }) (s.settle cid h) := by
  obtain ⟨u, hu⟩ : ∃ u, u = s.modCtx cid fun c => { c with horiz := h } := ⟨_, rfl⟩
  obtain ⟨ph, m, hset⟩ := s.settle_eq cid h
  dsimp only at hset
  rw [← hu] at hset ⊢
  rw [hset]
  exact ((CutSide.releaseAll _ _ u).trans (.passHorizons ..)).trans ⟨fun _ => ⟨rfl, rfl⟩, fun _ => rfl⟩

/-! ### The squash on a core (R264 step 3) -/

/-- The egress hold, the issued words and the peel log of a core. -/
def Core.queues (c : Core) : List Held × List ExeOp × List CpyOp × List MtxOp × List Peel := (c.hold, c.exeQ, c.cpyQ, c.mx.ops, c.peel)
/-- A core that holds nothing at or above a cut, and no log. -/
def Core.squashed (cut : Word) (c : Core) : Prop :=
  c.peel = [] ∧ (∀ x ∈ c.hold, x.e.toNat < cut.toNat) ∧ (∀ x ∈ c.exeQ, x.e.toNat < cut.toNat) ∧ (∀ x ∈ c.cpyQ, x.e.toNat < cut.toNat) ∧ ∀ x ∈ c.mx.ops, x.e.toNat < cut.toNat
theorem Core.squashed_of_queues {cut : Word} {c c' : Core} (hq : c'.queues = c.queues) (h : c.squashed cut) : c'.squashed cut := by
  simp only [Core.queues, Prod.mk.injEq] at hq
  obtain ⟨h1, h2, h3, h4, h5⟩ := hq
  unfold Core.squashed
  rw [h1, h2, h3, h4, h5]
  exact h
/-- The contexts stand, and so do what the cores hold and have issued, and their logs. -/
structure QueueSide (s t : State) : Prop where
  ctxs : t.ctxs = s.ctxs
  queues : ∀ n, (t.core n).queues = (s.core n).queues

theorem QueueSide.refl (s : State) : QueueSide s s := ⟨rfl, fun _ => rfl⟩
theorem QueueSide.trans {s t u : State} (a : QueueSide s t) (b : QueueSide t u) : QueueSide s u :=
  ⟨b.ctxs.trans a.ctxs, fun n => (b.queues n).trans (a.queues n)⟩
theorem QueueSide.ite {s t u : State} {p : Prop} [Decidable p] (a : QueueSide s t) (b : QueueSide s u) : QueueSide s (if p then t else u) := by
  split
  · exact a
  · exact b
theorem QueueSide.modCore (s : State) (n : Nat) {f : Core → Core} (hf : ∀ c, (f c).queues = c.queues) : QueueSide s (s.modCore n f) :=
  ⟨rfl, fun m => by rw [State.core_modCore]; split <;> simp [hf]⟩
theorem QueueSide.putCells (s : State) (cs : List (Nat × Byte)) : QueueSide s (s.putCells cs) := by
  obtain ⟨m, hm⟩ := s.putCells_mem_only cs
  rw [hm]
  exact ⟨rfl, fun _ => rfl⟩
theorem QueueSide.putEnt (s : State) (cid : BitVec 12) (tid : BitVec 10) (tile gpa : Nat) (x : BitVec 128) : QueueSide s (s.putEnt cid tid tile gpa x) := by
  obtain ⟨m, hm⟩ := s.gpaPut_mem_only cid gpa 16 x.toNat
  unfold State.putEnt
  rw [hm]
  refine ⟨rfl, fun n => ?_⟩
  have hcore : (State.shootdown { s with mem := m } cid tid (some tile)).core n = (s.core n).dropTrans cid tid (some tile) :=
    SMap.get_map_snd ({} : Core) s.cores (Core.dropTrans cid tid (some tile)) rfl n
  rw [hcore]
  rfl
theorem Core.queues_putCfg (c : Core) (k : Nat) (v : Word) : (c.putCfg k v).queues = c.queues := by
  unfold Core.putCfg
  dsimp only
  repeat' split
  all_goals rfl
theorem Core.queues_putSys (c : Core) (k : Nat) (v : Word) : (c.putSys k v).queues = c.queues := by
  unfold Core.putSys
  repeat' split
  all_goals rfl
theorem Core.queues_putItem (c : Core) (a : Nat) (v : Word) : (c.putItem a v).queues = c.queues := by
  unfold Core.putItem
  split
  · rfl
  split
  · split
    · rfl
    · exact c.queues_putSys ..
  split
  · exact c.queues_putCfg ..
  split
  · rfl
  split
  · rfl
  · cases engOfNum (a - 0x4000) <;> rfl
theorem QueueSide.undo (s : State) (n : Nat) (p : Peel) : QueueSide s (s.undo n p) := by
  unfold State.undo
  dsimp only
  split
  · exact .modCore s n fun _ => rfl
  · exact .putCells ..
  · exact .putEnt ..
  · exact .modCore s n fun c => c.queues_putItem ..
  · exact .modCore s n fun _ => rfl
  · exact .modCore s n fun _ => rfl
  · exact .modCore s n fun _ => rfl
  · exact .ite (.refl s) (.modCore s n fun _ => rfl)
  · exact .refl s
theorem QueueSide.peelAll (n : Nat) (cut : Word) (ps : List Peel) (s : State) : QueueSide s (s.peelAll n cut ps) := by
  induction ps generalizing s with
  | nil => exact .refl s
  | cons p ps ih => exact (QueueSide.ite (.undo s n p) (.refl s)).trans (ih _)
theorem QueueSide.relock (s : State) (n : Nat) (rs : List LockRange) : QueueSide s (s.relock n rs) := by
  obtain ⟨honly, m, hm⟩ := s.relock_icache n rs
  refine ⟨by rw [show s.relock n rs = { s with cores := (s.relock n rs).cores, nextId := (s.relock n rs).nextId } from honly.1], fun k => ?_⟩
  by_cases hk : k = n
  · rw [hk, hm]
    rfl
  · rw [honly.2 k hk]
theorem QueueSide.foldl {α : Type} {f : State → α → State} (hf : ∀ s a, QueueSide s (f s a)) (l : List α) (s : State) : QueueSide s (l.foldl f s) := by
  induction l generalizing s with
  | nil => exact .refl s
  | cons a l ih => exact (hf s a).trans (ih _)
theorem QueueSide.untend (s : State) (n : Nat) : QueueSide s (s.untend n) := by
  unfold State.untend
  dsimp only
  split
  · exact .refl s
  next t _ =>
    have hgo : QueueSide s (s.modCore n fun c => { c with task := some { t with ended := false, tending := false }, endSnap := none }) := .modCore s n fun _ => rfl
    refine .ite hgo (hgo.trans ?_)
    refine QueueSide.trans ?_ (.relock ..)
    refine QueueSide.trans ?_ (.modCore _ n fun _ => rfl)
    refine QueueSide.trans ?_ (QueueSide.foldl (fun u x => ?_) _ _)
    · exact ⟨rfl, fun _ => rfl⟩
    · exact ⟨rfl, fun _ => rfl⟩

theorem Core.squashEngines_below (c : Core) (cut : Word) : (∀ x ∈ (c.squashEngines cut).hold, x.e.toNat < cut.toNat) ∧ (∀ x ∈ (c.squashEngines cut).exeQ, x.e.toNat < cut.toNat) ∧
    (∀ x ∈ (c.squashEngines cut).cpyQ, x.e.toNat < cut.toNat) ∧ ∀ x ∈ (c.squashEngines cut).mx.ops, x.e.toNat < cut.toNat := by
  have hlt {e : Word} (h : e.ult cut = true) : e.toNat < cut.toNat := BitVec.ult_iff_lt.1 h
  refine ⟨fun x hx => hlt (List.mem_filter.1 hx).2, fun x hx => hlt (List.mem_filter.1 hx).2, fun x hx => hlt (List.mem_filter.1 hx).2, fun x hx => ?_⟩
  obtain ⟨o, ho, rfl⟩ := List.mem_map.1 (show x ∈ (c.mx.ops.filter fun o => o.e.ult cut).map fun o => o.cutTo c.cw cut from hx)
  have he : (o.cutTo c.cw cut).e = o.e := by
    unfold MtxOp.cutTo
    split <;> rfl
  rw [he]
  exact hlt (List.mem_filter.1 ho).2
theorem Core.squashHandler_queues (c old : Core) (cut : Word) : (c.squashHandler old cut).queues = c.queues := by
  unfold Core.squashHandler
  split
  · dsimp only
    split
    · split <;> rfl
    · rfl
  · rfl
theorem squashCore_squashes (s : State) (cut : Word) (n : Nat) : (s.squashCore cut n).ctxs = s.ctxs ∧ ((s.squashCore cut n).core n).squashed cut ∧
    ∀ m, m ≠ n → ((s.squashCore cut n).core m).queues = (s.core m).queues := by
  unfold State.squashCore
  extract_lets old waits stopc ended u v w
  obtain ⟨vctx, vq⟩ : QueueSide u v := .peelAll ..
  obtain ⟨tctx, tq⟩ : QueueSide w (if ended then w.untend n else w) := .ite (.untend w n) (.refl w)
  have hu : u.core n = old.squashEngines cut := State.core_modCore_self ..
  have hw : (w.core n).queues = ((v.core n).hold, (v.core n).exeQ, (v.core n).cpyQ, (v.core n).mx.ops, []) := by
    have hq := (((v.core n).undoTags cut old.peel).squashHandler_queues old cut)
    simp only [Core.queues, Prod.mk.injEq] at hq
    obtain ⟨h1, h2, h3, h4, -⟩ := hq
    have hwn : w.core n = _ := State.core_modCore_self ..
    rw [hwn]
    simp only [Core.queues, h1, h2, h3, h4]
    rfl
  refine ⟨tctx.trans vctx, ?_, fun m hm => (tq m).trans ?_⟩
  · refine Core.squashed_of_queues (tq n) ?_
    have hv := vq n
    rw [hu] at hv
    simp only [Core.queues, Prod.mk.injEq] at hv hw
    obtain ⟨v1, v2, v3, v4, -⟩ := hv
    obtain ⟨w1, w2, w3, w4, w5⟩ := hw
    unfold Core.squashed
    rw [w1, w2, w3, w4, w5, v1, v2, v3, v4]
    exact ⟨rfl, old.squashEngines_below cut⟩
  · have h1 : w.core m = v.core m := State.core_modCore_ne _ _ hm
    have h2 : u.core m = s.core m := State.core_modCore_ne _ _ hm
    rw [h1, vq m, h2]
theorem squashAll_squashes (cut : Word) (ns : List Nat) (s : State) : (s.squashAll cut ns).ctxs = s.ctxs ∧
    (∀ n, (s.core n).squashed cut → ((s.squashAll cut ns).core n).squashed cut) ∧ ∀ n ∈ ns, ((s.squashAll cut ns).core n).squashed cut := by
  induction ns generalizing s with
  | nil => exact ⟨rfl, fun _ => id, fun _ h => absurd h List.not_mem_nil⟩
  | cons n ns ih =>
    obtain ⟨hctx, hn, hout⟩ := squashCore_squashes s cut n
    obtain ⟨ictx, ikeep, iin⟩ := ih (s.squashCore cut n)
    refine ⟨ictx.trans hctx, fun m hm => ikeep m ?_, fun m hm => ?_⟩
    · by_cases h : m = n
      · exact h ▸ hn
      · exact Core.squashed_of_queues (hout m h) hm
    · rcases List.mem_cons.1 hm with rfl | hm
      · exact ikeep m hn
      · exact iin m hm


/-! ### A publication while a stop is pending (R253, R262, R264) -/

theorem maxW_eq (a b : Word) : maxW a b = if a.ult b then b else a := rfl
theorem minW_of_le {a b : Word} (h : a.toNat ≤ b.toNat) : minW a b = a := by
  unfold minW
  split
  · rfl
  next hn =>
    rw [BitVec.ult_iff_lt, BitVec.lt_def, Nat.not_lt] at hn
    exact BitVec.eq_of_toNat_eq (Nat.le_antisymm hn h)
theorem minW_of_ge {a b : Word} (h : b.toNat ≤ a.toNat) : minW a b = b := if_neg (by rw [BitVec.ult_iff_lt, BitVec.lt_def]; omega)

section
variable {s : State} {k : Nat}
theorem horizonPublish_waits (h : (s.ctx (BitVec.ofNat 12 k)).st ≠ .live ∨ s.openLaunches (BitVec.ofNat 12 k) = []) : exec (.horizonPublish k) s = .next s := by
  show execHorizonPublish k s = _
  exact if_pos (by simpa using h)
variable (hl : (s.ctx (BitVec.ofNat 12 k)).st = .live) (ho : s.openLaunches (BitVec.ofNat 12 k) ≠ [])
include hl ho
theorem horizonPublish_free (hs : (s.ctx (BitVec.ofNat 12 k)).stop = none) : exec (.horizonPublish k) s =
    .next (s.publish (BitVec.ofNat 12 k) (maxW (s.ctx (BitVec.ofNat 12 k)).horiz ((s.trueLow (BitVec.ofNat 12 k)).getD (s.ctx (BitVec.ofNat 12 k)).horiz))) := by
  show execHorizonPublish k s = _
  unfold execHorizonPublish
  dsimp only
  rw [if_neg (by simp [hl, ho]), hs]
  rfl
theorem horizonPublish_cut {st : Stop} (hs : (s.ctx (BitVec.ofNat 12 k)).stop = some st) (ha : st.accepted = true) (hc : (s.ctx (BitVec.ofNat 12 k)).horiz.toNat ≤ st.cut.toNat) :
    exec (.horizonPublish k) s = .next (s.publish (BitVec.ofNat 12 k)
      (minW (maxW (s.ctx (BitVec.ofNat 12 k)).horiz ((s.trueLow (BitVec.ofNat 12 k)).getD st.cut)) st.cut)) := by
  have hmax : maxW st.cut (s.ctx (BitVec.ofNat 12 k)).horiz = st.cut := by
    rw [maxW_eq, if_neg]
    rw [BitVec.ult_iff_lt, BitVec.lt_def]
    omega
  show execHorizonPublish k s = _
  unfold execHorizonPublish
  dsimp only
  rw [if_neg (by simp [hl, ho]), hs]
  dsimp only
  rw [ha, if_pos rfl, hmax]
  rfl
end
section
variable {s : State} {cid : BitVec 12} {h : Word}
theorem State.settle_cut (s : State) (cid : BitVec 12) (h : Word) : ((s.settle cid h).ctx cid).horiz = h ∧ ((s.settle cid h).ctx cid).stop = (s.ctx cid).stop := by
  obtain ⟨h1, h2⟩ := (CutSide.settle s cid h).cut cid
  rw [State.ctx_modCtx_self] at h1 h2
  exact ⟨h1, h2⟩
theorem publish_horiz (s : State) (cid : BitVec 12) (h : Word) : ((s.publish cid h).ctx cid).horiz = h := by
  obtain ⟨hh, -⟩ := s.settle_cut cid h
  rw [publish_eq]
  generalize s.settle cid h = u at hh ⊢
  cases (u.ctx cid).stop with
  | none => exact hh
  | some st =>
    rw [Option.elim_some]
    split
    · rw [State.ctx_modCtx_self]
      show ((State.squashAll _ _ _).ctx cid).horiz = h
      rw [State.ctx_of_ctxs (squashAll_squashes ..).1]
      exact hh
    · exact hh
/-- At the cut of a pending stop every core of the context squashes what lies at or above it. -/
theorem publish_squashes {st : Stop} (hs : (s.ctx cid).stop = some st) (ha : st.accepted = true) (hq : st.squashed = false) :
    ((s.publish cid st.cut).ctx cid).stop = some { st with squashed := true } ∧ ∀ n, s.onTile cid n → ((s.publish cid st.cut).core n).squashed st.cut := by
  obtain ⟨-, hstop⟩ := s.settle_cut cid st.cut
  obtain ⟨u, hu⟩ : ∃ u, u = s.settle cid st.cut := ⟨_, rfl⟩
  have htask := (CutSide.settle s cid st.cut).task
  rw [← hu] at hstop htask
  obtain ⟨hctx, -, hin⟩ := squashAll_squashes st.cut (u.coresOf cid) u
  have hpub : s.publish cid st.cut = (u.squashAll st.cut (u.coresOf cid)).modCtx cid fun c => { c with stop := c.stop.map fun st => { st with squashed := true } } := by
    rw [publish_eq, ← hu, hstop, hs, Option.elim_some, if_pos]
    rw [ha, hq]
    simp [BitVec.ule]
  rw [hpub]
  refine ⟨?_, fun n hn => hin n (State.onTile_mem ⟨hn.1, by rw [htask]; exact hn.2⟩)⟩
  rw [State.ctx_modCtx_self, State.ctx_of_ctxs hctx]
  show (u.ctx cid).stop.map _ = _
  rw [hstop, hs]
  rfl
end

/-- Settles O50: the publication by `publish_releases` and `publish_squashes`, and each other event by its own lemma. -/
theorem cutEvents : Obligations.CutEvents := by
  refine ⟨fun s k => ⟨horizonPublish_waits, fun hl ho => ⟨fun hs hi hp => ?_, fun st hs ha hq hc => ⟨fun hlow => ?_, fun hlow => ?_⟩⟩⟩,
    fun s k => ⟨stop_none, fun st hs => ⟨stopAccept_waits hs, stopAccept_accepts hs, stopComplete_waits hs, fun ⟨hl, ha, hd⟩ => stopComplete_stops hs hl ha hd⟩⟩,
    fun s n e => ⟨watchFire_waits, watchFire_asks⟩, fun s n => ⟨fun h => hang_eq.trans (if_neg h), fun h => hang_eq.trans (if_pos h)⟩, fun s k cons => ⟨fun h => ?_, fun h hu => ?_⟩,
    fun s k j f hf => ⟨rcf_waits hf, fun ⟨ha, hl, hh⟩ => rcf_completes hf ha hl hh⟩, fun s k x pid len hx he => ⟨sliceEnd_waits hx he, fun hd ho => ?_, fun hd ho hn => ?_, fun i q n hd ho hn hi => ?_⟩⟩
  · obtain ⟨l, hh, hf, hperm, hsort, hcore⟩ := publish_releases (h := maxW (s.ctx (BitVec.ofNat 12 k)).horiz ((s.trueLow (BitVec.ofNat 12 k)).getD (s.ctx (BitVec.ofNat 12 k)).horiz)) hs hi
      hp
    refine ⟨_, l, horizonPublish_free hl ho hs, hh, hf, hperm, hsort, fun n hn => ?_⟩
    obtain ⟨hgo, hstay, hpeel⟩ := hcore n hn
    obtain ⟨hout, hlast⟩ := retirePeel_splits (maxW (s.ctx (BitVec.ofNat 12 k)).horiz ((s.trueLow (BitVec.ofNat 12 k)).getD (s.ctx (BitVec.ofNat 12 k)).horiz)) (s.core n).peel
    rw [← hpeel] at hout hlast
    exact ⟨hgo, fun hn => hstay (Bool.eq_false_iff.2 hn), hout, hlast⟩
  · refine ⟨_, horizonPublish_cut hl ho hs ha hc, ?_⟩
    rw [publish_horiz, minW_of_le, maxW_eq]
    rw [maxW_toNat]
    exact Nat.max_le.2 ⟨hc, Nat.le_of_lt hlow⟩
  · have hcut : minW (maxW (s.ctx (BitVec.ofNat 12 k)).horiz ((s.trueLow (BitVec.ofNat 12 k)).getD st.cut)) st.cut = st.cut := by
      refine minW_of_ge ?_
      rw [maxW_toNat]
      exact hlow.trans (Nat.le_max_right ..)
    obtain ⟨hstop, hcore⟩ := publish_squashes hs ha hq
    refine ⟨_, (horizonPublish_cut hl ho hs ha hc).trans (by rw [hcut]), publish_horiz .., hstop, fun n hn => hcore n hn⟩
  · refine consWrite_eq.trans (if_neg fun hn => ?_)
    rcases h with h | h
    · exact hn.1 h
    · rw [h] at hn
      exact Bool.false_ne_true hn.2.symm
  · exact consWrite_eq.trans (if_pos ⟨h, hu⟩)
  · exact (sliceEnd_ends hx he hd).trans (if_pos ho)
  · exact (sliceEnd_ends hx he hd).trans ((if_neg (not_not.2 ho)).trans (by rw [hn]; rfl))
  · refine (sliceEnd_ends hx he hd).trans ((if_neg (not_not.2 ho)).trans ?_)
    rw [hn, Option.elim_some, hi]
    rfl

end Sys2Proof.Machine
end

section
/-! PROOFS of the ListEntries statement (O51): what each entry of a command list does for the list that walks it. -/

set_option Elab.async false

namespace Sys2Proof.Machine

/-! ### The reads of an entry (R88) -/

theorem condHolds_eq (c : Nat) (a b : Word) : condHolds c a b = if c = 0 then some (a == b) else if c = 1 then some (a != b) else if c = 2 then some (b.ule a)
    else if c = 3 then some (a.ult b) else if c = 4 then some (b.sle a) else if c = 5 then some (a.slt b) else none := by
  match c with
  | 0 => rfl
  | 1 => rfl
  | 2 => rfl
  | 3 => rfl
  | 4 => rfl
  | 5 => rfl
  | n + 6 => rw [if_neg (by omega), if_neg (by omega), if_neg (by omega), if_neg (by omega), if_neg (by omega), if_neg (by omega)]; rfl

section
variable {s : State} {x : Interp} {o : CL}
theorem entry_eq (hx : s.interp = some x) (f : Interp → State) : entry s f = .next (f x) := by rw [entry, hx]
theorem entryRead_none (h : o.w1.toNat % 8 ≠ 0 ∨ s.rawKeys x.lst.cid o.w1 8 .r = none) : s.entryWord x o.w1 [.r] = none := by
  unfold State.entryWord
  rcases h with h | h
  · exact if_pos (by simp [h])
  · exact if_pos (by simp [h])
theorem entryRead_some (ha : o.w1.toNat % 8 = 0) {ks : List Nat} (hk : s.rawKeys x.lst.cid o.w1 8 .r = some ks) : s.entryWord x o.w1 [.r] = some ks := by
  unfold State.entryWord
  rw [if_neg (by simp [ha, hk]), hk]
variable {f : List Nat → Bool → State → State}
/-- What TEST finds, in the order of its checks. -/
theorem entryTest_reads {ks : List Nat} (ha : o.w1.toNat % 8 = 0) (hk : s.rawKeys x.lst.cid o.w1 8 .r = some ks) : s.entryTest x o f =
    if s.anyPoison ks then (s.hostPoison x.lst.cid (256 + s.curQ.2 % 2) x.pc o.w1).listGone s.curQ.1 s.curQ.2
    else (condHolds o.w4.toNat (bitsOf 64 (ks.map s.byte) &&& o.w3) o.w2).elim (s.listFault x fIllegal 0) fun b => f ks b (s.dropRemote x.lst.cid) := by
  unfold State.entryTest
  rw [entryRead_some ha hk]
  dsimp only
  cases condHolds o.w4.toNat (bitsOf 64 (ks.map s.byte) &&& o.w3) o.w2 <;> rfl
/-- An entry that tests its word: refused, abandoned at a poisoned word or an illegal condition, or going by what TEST finds. -/
theorem entryTest_cases {i : Instr} (hi : exec i s = .next (s.entryTest x o f)) (yes : Prop) (no : Word → Prop)
    (hy : ∀ ks, exec i s = .next (f ks true (s.dropRemote x.lst.cid)) → yes)
    (hn : ∀ ks : List Nat, exec i s = .next (f ks false (s.dropRemote x.lst.cid)) → no (bitsOf 64 (ks.map s.byte))) :
    (o.w1.toNat % 8 ≠ 0 ∨ s.rawKeys x.lst.cid o.w1 8 .r = none → exec i s = .next (s.listFault x fRawWindow o.w1)) ∧
    ∀ ks, o.w1.toNat % 8 = 0 → s.rawKeys x.lst.cid o.w1 8 .r = some ks →
      (s.anyPoison ks = true → exec i s = .next ((s.hostPoison x.lst.cid (256 + s.curQ.2 % 2) x.pc o.w1).listGone s.curQ.1 s.curQ.2)) ∧
      (s.anyPoison ks = false →
        let c := condHolds o.w4.toNat (bitsOf 64 (ks.map s.byte) &&& o.w3) o.w2
        (c = none → exec i s = .next (s.listFault x fIllegal 0)) ∧ (c = some true → yes) ∧ (c = some false → no (bitsOf 64 (ks.map s.byte)))) := by
  refine ⟨fun h => ?_, fun ks ha hk => ?_⟩
  · rw [hi, State.entryTest, entryRead_none h]
  · rw [entryTest_reads ha hk] at hi
    refine ⟨fun hp => ?_, fun hp => ?_⟩
    · rw [hi, if_pos hp]
    · rw [if_neg (by rw [hp]; exact Bool.false_ne_true)] at hi
      refine ⟨fun hc => ?_, fun hc => hy ks ?_, fun hc => hn ks ?_⟩
      · rw [hi, hc, Option.elim_none]
      · rw [hi, hc, Option.elim_some]
      · rw [hi, hc, Option.elim_some]
end

/-! ### Writes and targets (R88) -/

section
variable {s : State} {x : Interp} {o : CL} (hx : s.interp = some x)
include hx
theorem entrySigv_refused {at_ : Bool} {g : Word → Word}
    (h : o.w1.toNat % 8 ≠ 0 ∨ s.rawKeys x.lst.cid o.w1 8 .r = none ∨ s.rawKeys x.lst.cid o.w1 8 .w = none) :
    entrySigv o at_ g s = .next (s.listFault x fRawWindow o.w1) := by
  have hnone : s.entryWord x o.w1 [.r, .w] = none := by
    unfold State.entryWord
    rcases h with h | h | h <;> exact if_pos (by simp [h])
  rw [entrySigv, entry_eq hx, hnone]
/-- A SIGV writes its word, whose bytes are not poisoned. -/
theorem entrySigv_writes {at_ : Bool} {g : Word → Word} {ks : List Nat} (ha : o.w1.toNat % 8 = 0) (hw : s.rawKeys x.lst.cid o.w1 8 .w ≠ none)
    (hk : s.rawKeys x.lst.cid o.w1 8 .r = some ks) (hp : s.anyPoison ks = false) :
    ∃ u, Stored s u (ks.zip (leBytes (g (bitsOf 64 (ks.map s.byte))).toNat 8)) ∧ entrySigv o at_ g s = .next (u.goEntry x x.nextPc) := by
  have hsome : s.entryWord x o.w1 [.r, .w] = some ks := by
    unfold State.entryWord
    rw [if_neg (by simp [ha, hk, hw]), hk]
  refine ⟨_, s.writeBytes_stored _, ?_⟩
  rw [entrySigv, entry_eq hx, hsome]
  dsimp only
  rw [hp, Bool.and_false, if_neg Bool.false_ne_true]
theorem cutEntry_eq {ask : BitVec 12 → State → State} {fin : State → BitVec 12 → Bool} (v : State) (hv : v = if x.wait = .cut then s else ask x.lst.cid s) :
    ((o.flg.getLsbD 0 = false ∨ fin v x.lst.cid = true) → entryCut o ask fin s = .next (v.goEntry x x.nextPc)) ∧
    (o.flg.getLsbD 0 = true → ¬fin v x.lst.cid = true → entryCut o ask fin s = .next (v.setInterp { x with wait := .cut })) := by
  have heq : entryCut o ask fin s = .next (if !o.flg.getLsbD 0 || fin v x.lst.cid then v.goEntry x x.nextPc else v.setInterp { x with wait := .cut }) := by
    rw [entryCut, entry_eq hx, hv]
    simp only [beq_iff_eq]
  refine ⟨fun h => heq.trans (congrArg _ (if_pos ?_)), fun hf hn => heq.trans (congrArg _ (if_neg ?_))⟩
  · rw [Bool.or_eq_true, Bool.not_eq_true']
    exact h
  · rw [Bool.or_eq_true, Bool.not_eq_true', not_or, Bool.not_eq_false]
    exact ⟨hf, hn⟩
end
theorem listRet_eq {s : State} {x : Interp} {o : CL} (hx : s.interp = some x) : execListRet o s =
    .next (x.stack.rec (s.listFault x fIllegal (BitVec.setWidth 64 (packCL 7 o))) fun a t _ => s.goEntry { x with stack := t } a) := by
  rw [execListRet, entry_eq hx]
  cases x.stack <;> rfl
theorem targetOk_iff {s : State} {x : Interp} {a : Word} : s.targetOk x a = true ↔ a.toNat % 64 = 0 ∧ s.rawKeys x.lst.cid a 64 .r ≠ none := by
  rw [State.targetOk, Bool.and_eq_true, beq_iff_eq, Option.isSome_iff_ne_none]
theorem targetOk_not {s : State} {x : Interp} {a : Word} (h : a.toNat % 64 ≠ 0 ∨ s.rawKeys x.lst.cid a 64 .r = none) : s.targetOk x a = false := by
  rw [← Bool.not_eq_true, targetOk_iff, not_and_or, not_not]
  exact h
theorem mem_fenceOf {s : State} {all : Bool} {k : Nat} : k ∈ s.fenceOf all ↔
    ∃ l, (k, some l) ∈ s.launches ∧ l.child = false ∧ l.st ≠ .complete ∧ (s.ctx l.cid).pid.toNat = s.curQ.1 ∧ (all = true ∨ l.queue = s.curQ.2) := by
  rw [State.fenceOf, List.mem_filterMap]
  constructor
  · rintro ⟨⟨j, l⟩, hm, hl⟩
    dsimp only at hl
    obtain ⟨l, rfl, hl⟩ := Option.bind_eq_some_iff.1 hl
    dsimp only [Option.bind_some] at hl
    rw [Option.ite_none_right_eq_some] at hl
    obtain ⟨hp, hj⟩ := hl
    cases hj
    simp only [Bool.and_eq_true, Bool.not_eq_true', bne_iff_ne, beq_iff_eq, Bool.or_eq_true] at hp
    exact ⟨l, hm, hp.1.1.1, hp.1.1.2, hp.1.2, hp.2⟩
  · rintro ⟨l, hm, hc, hs, hp, ha⟩
    refine ⟨(k, some l), hm, ?_⟩
    dsimp only [Option.bind_some]
    refine if_pos ?_
    simp only [Bool.and_eq_true, Bool.not_eq_true', bne_iff_ne, beq_iff_eq, Bool.or_eq_true]
    exact ⟨⟨⟨hc, hs⟩, hp⟩, ha⟩

/-- What a WAITV does with what its TEST finds (R88, R89). -/
def Interp.waitvTested (x : Interp) (o : CL) (ks : List Nat) (b : Bool) (s : State) : State :=
  match x.wait with
  | .waitv a c v m d _ _ =>
    if d.any fun d => d.ule s.gts then s.waitTo x
    else if b then s.goEntry x x.nextPc
    else s.setInterp { x with wait := .waitv a c v m d s.gts (bitsOf 64 (ks.map s.byte)) }
  | _ =>
    if b then s.goEntry x x.nextPc
    else s.setInterp { x with wait := .waitv o.w1 (o.w4.setWidth 3) o.w2 o.w3 (if o.w5 = 0 then none else some (s.gts + BitVec.ofNat 64 (1000 * o.w5.toNat))) s.gts (bitsOf 64 (ks.map s.byte)) }
theorem waitv_eq {s : State} {x : Interp} (hx : s.interp = some x) (o : CL) : execWaitv o s = .next (s.entryTest x o (x.waitvTested o)) := by
  have h := entry_eq hx fun i => s.entryTest i o (i.waitvTested o)
  rw [← h]
  unfold execWaitv
  refine congrArg (entry s) (funext fun i => congrArg (s.entryTest i o) (funext fun ks => funext fun b => funext fun u => ?_))
  unfold Interp.waitvTested
  cases i.wait with
  | waitv a c v m d t z => cases d <;> rfl
  | none => simp only [beq_iff_eq]
  | fence ks => simp only [beq_iff_eq]
  | cut => simp only [beq_iff_eq]
section
variable {x : Interp} {o : CL} {ks : List Nat} {b : Bool} {u : State}
theorem waitvTested_first (h : ∀ a c v m d r z, x.wait ≠ .waitv a c v m d r z) : x.waitvTested o ks b u = if b then u.goEntry x x.nextPc else u.setInterp { x with
    wait := .waitv o.w1 (o.w4.setWidth 3) o.w2 o.w3 (if o.w5 = 0 then none else some (u.gts + BitVec.ofNat 64 (1000 * o.w5.toNat))) u.gts (bitsOf 64 (ks.map u.byte)) } := by
  unfold Interp.waitvTested
  split
  next hw => exact absurd hw (h _ _ _ _ _ _ _)
  · rfl
variable {a v m z : Word} {c : BitVec 3} {d : Option Word} {r : Word} (h : x.wait = .waitv a c v m d r z)
include h
theorem waitvTested_late (hl : ∃ e, d = some e ∧ e.toNat ≤ u.gts.toNat) : x.waitvTested o ks b u = u.waitTo x := by
  obtain ⟨e, rfl, he⟩ := hl
  rw [Interp.waitvTested, h]
  exact if_pos (by simpa [BitVec.ule] using he)
theorem waitvTested_again (hl : ¬∃ e, d = some e ∧ e.toNat ≤ u.gts.toNat) : x.waitvTested o ks b u = if b then u.goEntry x x.nextPc else
    u.setInterp { x with wait := .waitv a c v m d u.gts (bitsOf 64 (ks.map u.byte)) } := by
  rw [Interp.waitvTested, h]
  refine if_neg fun hd => ?_
  obtain ⟨e, he, hle⟩ := (Option.any_eq_true _ _).1 hd
  exact hl ⟨e, he, by simpa [BitVec.ule] using hle⟩
end

/-- The launch that an entry starts (R102 to R104, R107). -/
def State.entryLaunch (s : State) (cid : BitVec 12) (o : CL) (d : LDesc) : Launch where
  cid := cid
  addr := o.w1
  desc := d
  base := s.launchBase cid
  die := (s.stageDie (s.ctx cid).pid d.stage).getD ((s.partDies (s.ctx cid).pid).headD 0)
  queue := s.curQ.2
  stag := o.w2.setWidth 32
  doneev := o.flg.getLsbD 0
  late := (s.ctx cid).st != .live || (s.ctx cid).stop.isSome

/-- Settles O51: an entry acts for the list that its interpreter walks, by the lemma of what it reads, writes or waits for. -/
theorem listEntries : Obligations.ListEntries := by
  intro s x o hx cid sets goes next agent rec_ fails ends cond see acq waitTo test word target cut
  have hcond (a b : Word) : cond a b = condHolds o.w4.toNat a b := (condHolds_eq ..).symm
  have hword (i : Instr) (at_ : Bool) (g : Word → Word) (hi : exec i s = entrySigv o at_ g s) : word i g :=
    ⟨fun h => hi.trans (entrySigv_refused hx h), fun ks ha hw hk hp => by
      obtain ⟨u, hst, hu⟩ := entrySigv_writes (at_ := at_) (g := g) hx ha hw hk hp
      exact ⟨u, hst, hi.trans hu⟩⟩
  have htarget (i : Instr) (u : State) (hi : exec i s = .next (if s.targetOk x o.w1 then u else s.listFault x fRawWindow o.w1)) : target i u :=
    ⟨fun ha hk => hi.trans (congrArg _ (if_pos (targetOk_iff.2 ⟨ha, hk⟩))), fun h => hi.trans (congrArg _ (if_neg (by rw [targetOk_not h]; exact Bool.false_ne_true)))⟩
  have htest (i : Instr) (f : List Nat → Bool → State → State) (hi : exec i s = .next (s.entryTest x o f)) (yes : Prop) (no : Word → Prop)
      (hy : ∀ ks, exec i s = .next (f ks true acq) → yes) (hn : ∀ ks : List Nat, exec i s = .next (f ks false acq) → no (see ks)) : test i yes no := by
    have h := entryTest_cases hi yes no hy hn
    simp only [← hcond] at h
    exact h
  clear_value test
  have hcut (i : Instr) (ask : BitVec 12 → State → State) (fin : State → BitVec 12 → Bool) (done : State → Prop) (hd : ∀ v, fin v cid = true ↔ done v)
      (hi : exec i s = entryCut o ask fin s) : cut i (ask cid s) done := by
    obtain ⟨h1, h2⟩ := cutEntry_eq (o := o) (ask := ask) (fin := fin) hx _ rfl
    exact ⟨fun h => hi.trans (h1 (h.imp id (hd _).2)), fun hf hn => hi.trans (h2 hf fun h => hn ((hd _).1 h))⟩
  have hpack (op : BitVec 8) : BitVec.setWidth 64 (packCL op o) = (packCL op o).extractLsb' 0 64 := by
    refine BitVec.eq_of_getLsbD_eq fun i hi => ?_
    rw [BitVec.getLsbD_setWidth, BitVec.getLsbD_extractLsb', Nat.zero_add]
  refine ⟨fun code hd => ?_, fun d hd => ?_, fun hw => ?_, hword _ false (fun _ => o.w2) rfl, hword _ true (fun v => v + o.w2) rfl, hword _ true (fun v => v ||| o.w2) rfl, ?_, ?_,
    fun h => ?_, fun h => ?_, fun h => ?_, fun a r h => ?_, hcut _ (fun cid s => s.requestStop cid o.w1 { srck := 0, queue := s.curQ.2 } true) (fun s cid => (s.ctx cid).stop.isNone) _ (fun v => Option.isNone_iff_eq_none) rfl,
    hcut _ (fun cid s => s.cancelStop cid) (fun s cid => (s.ctx cid).stop.isNone) _ (fun v => Option.isNone_iff_eq_none) rfl,
    hcut _ (fun cid s => s.resume cid) (fun s cid => (s.ctx cid).st == .live) _ (fun v => beq_iff_eq) rfl, ?_, fun all k => mem_fenceOf, entry_eq hx _, entry_eq hx _, fun c v m d r z hw h2 h3 h4 => ?_⟩
  · refine (entry_eq hx _).trans (congrArg _ ?_)
    dsimp only
    rw [hd]
    rfl
  · obtain ⟨l, hl⟩ : ∃ l, l = s.entryLaunch cid o d := ⟨_, rfl⟩
    have hlate : ((s.ctx cid).st != .live || (s.ctx cid).stop.isSome) = decide ((s.ctx cid).st ≠ .live ∨ (s.ctx cid).stop ≠ none) := by
      rw [Bool.eq_iff_iff, Bool.or_eq_true, bne_iff_ne, Option.isSome_iff_ne_none, decide_eq_true_iff]
    refine ⟨s.addLaunch l, _, (entry_eq hx _).trans (congrArg _ ?_), rfl, rfl, ?_, l.die, ?_⟩
    · dsimp only
      rw [hd, hl]
      rfl
    · have hc := s.addLaunch_ctx l
      rw [show l.cid = cid by rw [hl]; rfl] at hc
      rw [hc]
    · rw [s.addLaunch_get l, hl, ← hlate]
      rfl
  · refine htest (.waitv o) _ (waitv_eq hx o) _ _ (fun ks h => ?_) fun ks h => ?_
    · exact h.trans (congrArg _ (waitvTested_first hw))
    · exact h.trans (congrArg _ (waitvTested_first hw))
  · exact htest (.skipif o) _ (entry_eq hx fun i => s.entryTest i o fun _ b s => s.goEntry i (if b then i.nextPc + 64 * o.w5 else i.nextPc)) _ _ (fun ks h => h) fun ks h => h
  · exact htarget _ _ (entry_eq hx _)
  · exact (entry_eq hx _).trans (congrArg _ ((if_pos h).trans (congrArg _ (hpack 6))))
  · exact htarget _ _ ((entry_eq hx _).trans (congrArg _ (if_neg (Nat.not_le.2 h))))
  · refine (listRet_eq hx).trans (congrArg _ ?_)
    rw [h]
    exact congrArg (s.listFault x fIllegal) (hpack 7)
  · refine (listRet_eq hx).trans (congrArg _ ?_)
    rw [h]
    rfl
  · intro ks left
    have hleft : (ks.filter fun k => match s.launches.get none k with | some l => l.st != .complete | none => false) = left := by
      refine List.filter_congr fun k _ => ?_
      rw [Bool.eq_iff_iff, decide_eq_true_iff]
      cases s.launches.get none k <;> simp
    have heq : exec (.fence o) s = .next (if left.isEmpty then s.goEntry x x.nextPc else s.setInterp { x with wait := .fence left }) := by
      rw [← hleft]
      exact entry_eq hx _
    exact ⟨fun h => heq.trans (congrArg _ (if_pos (List.isEmpty_iff.2 h))), fun h => heq.trans (congrArg _ (if_neg (fun he => h (List.isEmpty_iff.1 he))))⟩
  · intro late reads
    obtain ⟨p, hp⟩ : ∃ p, p = waitvEntry o.w1 v m c := ⟨_, rfl⟩
    have hread : exec (.waitvReread s.curQ.1 s.curQ.2) s = execWaitv p s := by
      show execWaitvReread s.curQ.1 s.curQ.2 s = _
      unfold execWaitvReread
      dsimp only
      rw [hx, hp]
      dsimp only
      rw [hw]
    have htests (f : List Nat → Bool → State → State) : s.entryTest x p f = s.entryTest x o f := by
      rw [hp]
      unfold State.entryTest waitvEntry
      dsimp only
      rw [h2, h3, h4]
    have hi := hread.trans (waitv_eq hx p)
    rw [htests] at hi
    refine ⟨htest (.waitvReread s.curQ.1 s.curQ.2) _ hi _ _ (fun ks h => ?_) fun ks h => ?_, fun e he hg => ?_, fun e he hg => ?_⟩
    · exact ⟨fun hl => h.trans (congrArg _ (waitvTested_late hw hl)), fun hl => h.trans (congrArg _ (waitvTested_again hw hl))⟩
    · exact ⟨fun hl => h.trans (congrArg _ (waitvTested_late hw hl)), fun hl => h.trans (congrArg _ (waitvTested_again hw hl))⟩
    · show execWaitvTimeout s.curQ.1 s.curQ.2 s = _
      unfold execWaitvTimeout
      dsimp only
      rw [hx]
      dsimp only
      rw [hw, he]
      dsimp only
      rw [hg]
      rfl
    · show execWaitvTimeout s.curQ.1 s.curQ.2 s = _
      unfold execWaitvTimeout
      dsimp only
      rw [hx]
      dsimp only
      rw [hw, he]
      dsimp only
      rw [hg]
      rfl

end Sys2Proof.Machine
end

section
/-! PROOFS of the PowerEvents statement (O52): boot, the power states, the test port, the thermal steps and the debug interface. -/

set_option Elab.async false

namespace Sys2Proof.Machine

/-! ### Sparse data written place by place -/

theorem SMap.get_foldl_set {α : Type} [DecidableEq α] (d : α) (f : Nat → α) (l : List Nat) (m : SMap α) (k : Nat) :
    (l.foldl (fun m i => m.set d i (f i)) m).get d k = if k ∈ l then f k else m.get d k := by
  induction l generalizing m with
  | nil => rw [if_neg List.not_mem_nil]; rfl
  | cons i l ih =>
    rw [List.foldl_cons, ih, SMap.get_set]
    by_cases hl : k ∈ l
    · rw [if_pos hl, if_pos (List.mem_cons_of_mem _ hl)]
    · rw [if_neg hl]
      by_cases hi : k = i
      · rw [if_pos hi, if_pos (List.mem_cons.2 (.inl hi)), hi]
      · rw [if_neg hi, if_neg (by rw [List.mem_cons, not_or]; exact ⟨hi, hl⟩)]
theorem State.port_retrain (s : State) {p : Nat} (h : p < 16) : s.retrain.port p = (s.port p).retrain := by
  have hget := SMap.get_foldl_set {} (fun p => (s.port p).retrain) (List.range 16) s.ports p
  rw [if_pos (List.mem_range.2 h)] at hget
  exact hget
theorem Port.retrain_eq (p : Port) : p.retrain = if p.ctl.getLsbD 12 = true then p else { p with act := 0, trn := p.ctl.extractLsb' 4 8 } := rfl

/-! ### What is kept (R49, R51) -/

/-- The bytes of HBM and LPDDR-6 stand, and so does the absence of contexts, launches and partitions. -/
structure BootSide (s t : State) : Prop where
  ctxs : t.ctxs = s.ctxs
  launches : t.launches = s.launches
  parts : t.parts = s.parts
  dram : ∀ a, a / 2 ^ 48 = 1 ∨ a / 2 ^ 48 = 2 → t.byte a = s.byte a

theorem State.lose_dram (s : State) (keep : Bool) {a : Nat} (h : a / 2 ^ 48 = 1 ∨ a / 2 ^ 48 = 2) : (s.lose keep).byte a = if keep = true then s.byte a else 0 := by
  cases keep with
  | false => rfl
  | true =>
    have hd : isDram a = true := by
      unfold isDram keyKind
      rcases h with h | h <;> rw [h] <;> rfl
    have hget := SMap.get_filter_key (0 : Byte) s.mem isDram a
    rw [if_pos hd] at hget
    exact hget

/-! ### Boot (R45 to R48) -/

theorem recover_spec (s : State) (step cause : Nat) : (s.recover step cause).pstate = .recovery ∧ (s.recover step cause).conf.failStep = step ∧
    (s.recover step cause).out = s.out ++ [.mgmt step (s.recover step cause).conf.failCause 0] ∧
    ∀ e k, e < 2 → 2 ≤ k → k ≤ 6 → (s.recover step cause).islandOn (edgeIsland e k) = false := by
  refine ⟨rfl, rfl, rfl, fun e k he h2 h6 => ?_⟩
  have hget := SMap.get_foldl_set ({} : Island) (fun _ => { op := 5 }) ([0, 1].flatMap fun e => [2, 3, 4, 5, 6].map (edgeIsland e)) s.islands (edgeIsland e k)
  have hmem : edgeIsland e k ∈ [0, 1].flatMap fun e => [2, 3, 4, 5, 6].map (edgeIsland e) := by
    refine List.mem_flatMap.2 ⟨e, by simp; omega, List.mem_map.2 ⟨k, by simp; omega, rfl⟩⟩
  rw [if_pos hmem] at hget
  have hisl : (s.recover step cause).islands = ([0, 1].flatMap fun e => [2, 3, 4, 5, 6].map (edgeIsland e)).foldl (fun (m : SMap Island) i => m.set {} i { op := 5 }) s.islands := by
    unfold State.recover
    dsimp only
    rfl
  rw [State.islandOn, State.island, hisl, hget]
  rfl
theorem recover_side (s : State) (step cause : Nat) : BootSide s (s.recover step cause) := ⟨rfl, rfl, rfl, fun _ _ => rfl⟩
theorem startFirmware_side (s : State) (fw : List Byte) : BootSide s (s.startFirmware fw) := by
  obtain ⟨u, hu⟩ : ∃ u, u = ({ s with pstate := .running } : State).retrain := ⟨_, rfl⟩
  have hs : s.startFirmware fw = ((u.putBytes (memKey 3 0 0) fw).setCore 256 { pc := Config.fwEntry fw 0 }).setCore 257 { pc := Config.fwEntry fw 1 } := by rw [hu]; rfl
  have husd : u.ctxs = s.ctxs ∧ u.launches = s.launches ∧ u.parts = s.parts ∧ ∀ a, u.byte a = s.byte a := by rw [hu]; exact ⟨rfl, rfl, rfl, fun _ => rfl⟩
  obtain ⟨h1, h2, h3, h4⟩ := husd
  rw [hs]
  refine ⟨(State.putBytes_ctxs ..).trans h1, (State.putBytes_launches ..).trans h2, (State.putBytes_parts ..).trans h3, fun a ha => ?_⟩
  refine (State.byte_putBytes_out u (memKey 3 0 0) fw a (.inl ?_)).trans (h4 a)
  unfold memKey
  omega
/-- The supervisor cores stand at the firmware's entry points, its image is in supervisor memory, and every port trains. -/
theorem startFirmware_spec (s : State) (fw : List Byte) : (s.startFirmware fw).pstate = .running ∧ ((s.startFirmware fw).core 256).pc = Config.fwEntry fw 0 ∧
    ((s.startFirmware fw).core 257).pc = Config.fwEntry fw 1 ∧ (∀ j, j < fw.length → (s.startFirmware fw).byte (memKey 3 0 j) = fw.getD j 0) ∧
    (∀ p, p < 16 → (s.startFirmware fw).port p = (s.port p).retrain) ∧ (s.startFirmware fw).out = s.out ∧ (s.startFirmware fw).conf = s.conf := by
  obtain ⟨u, hu⟩ : ∃ u, u = ({ s with pstate := .running } : State).retrain := ⟨_, rfl⟩
  obtain ⟨v, hv⟩ : ∃ v, v = u.putBytes (memKey 3 0 0) fw := ⟨_, rfl⟩
  have hs : s.startFirmware fw = (v.setCore 256 { pc := Config.fwEntry fw 0 }).setCore 257 { pc := Config.fwEntry fw 1 } := by rw [hv, hu]; rfl
  rw [hs]
  refine ⟨?_, ?_, ?_, fun j hj => ?_, fun p hp => ?_, ?_, ?_⟩
  · show v.pstate = _
    rw [hv, State.putBytes_pstate, hu]
    rfl
  · rw [State.core_setCore_ne _ _ (by decide), State.core_setCore_self]
  · rw [State.core_setCore_self]
  · have hk : memKey 3 0 j = memKey 3 0 0 + j := by unfold memKey; omega
    show v.byte _ = _
    rw [hv, hk, State.byte_putBytes_in _ _ _ _ hj, List.getD_eq_getElem _ _ hj]
  · show v.port p = _
    have hport : v.port p = u.port p := by rw [State.port, State.port, hv, State.putBytes_ports]
    rw [hport, hu, State.port_retrain _ hp]
    rfl
  · show v.out = _
    rw [hv, State.putBytes_out, hu]
    rfl
  · show v.conf = _
    rw [hv, State.putBytes_conf, hu]
    rfl

/-- What the boot sequence accepts (R47 step 3). -/
def State.bootGood (s : State) (b : BootInput) : Prop :=
  b.readOk = true ∧ Config.fwValid b.fw b.fwSig = true ∧ Config.recordValid b.record = true ∧ recordOk b.record = true ∧ s.conf.seqFloor.toNat ≤ recFld b.record 64 32
/-- The state in which a good boot has latched its record, and reported the channels that are absent. -/
def State.bootLatched (s : State) (b : BootInput) : State := { s with conf := latched b s.conf.xmssLeaf }
def State.bootTrained (s : State) (b : BootInput) : State :=
  { if b.lpddr = BitVec.allOnes 32 then s.bootLatched b else (s.bootLatched b).bootReport 5 0 (~~~b.lpddr) with
    posTab := b.positions.foldl (fun (m : SMap Nat) (d, p) => m.set 0 d.toNat (p.toNat + 1)) [] }
section
variable {s : State} {b : BootInput}
theorem boot_unread (h : b.readOk = false) : s.boot b = s.recover 2 0 := if_pos (by rw [h]; rfl)
theorem boot_refused (h : b.readOk = true) (hn : ¬s.bootGood b) : ∃ cause, s.boot b = s.recover 3 cause := by
  unfold State.boot
  rw [h, Bool.not_true, if_neg Bool.false_ne_true]
  split
  · exact ⟨1, rfl⟩
  next h1 =>
    split
    · exact ⟨2, rfl⟩
    next h2 =>
      split
      · exact ⟨3, rfl⟩
      next h3 =>
        split
        · exact ⟨4, rfl⟩
        next h4 =>
          rw [Bool.not_eq_true', Bool.not_eq_false] at h1 h2 h3
          exact absurd ⟨h, h1, h2, h3, Nat.not_lt.1 h4⟩ hn
theorem boot_good (hg : s.bootGood b) : s.boot b = if b.trained = false then (s.bootLatched b).recover 5 0 else (s.bootTrained b).startFirmware b.fw := by
  obtain ⟨h1, h2, h3, h4, h5⟩ := hg
  unfold State.boot
  rw [h1, h2, h3, h4, Bool.not_true, if_neg Bool.false_ne_true, if_neg Bool.false_ne_true, if_neg Bool.false_ne_true, if_neg Bool.false_ne_true, if_neg (Nat.not_lt.2 h5)]
  dsimp only
  cases b.trained with
  | false => rfl
  | true =>
    rw [Bool.not_true, if_neg Bool.false_ne_true]
    simp only [beq_iff_eq]
    rfl
theorem boot_side : BootSide s (s.boot b) := by
  by_cases hr : b.readOk = true
  · by_cases hg : s.bootGood b
    · have ht : BootSide s (s.bootTrained b) := by
        unfold State.bootTrained
        split <;> exact ⟨rfl, rfl, rfl, fun _ _ => rfl⟩
      obtain ⟨t1, t2, t3, t4⟩ := ht
      obtain ⟨f1, f2, f3, f4⟩ := startFirmware_side (s.bootTrained b) b.fw
      rw [boot_good hg]
      split
      · exact ⟨rfl, rfl, rfl, fun _ _ => rfl⟩
      · exact ⟨f1.trans t1, f2.trans t2, f3.trans t3, fun a ha => (f4 a ha).trans (t4 a ha)⟩
    · obtain ⟨cause, hc⟩ := boot_refused hr hg
      rw [hc]
      exact recover_side ..
  · rw [boot_unread (Bool.eq_false_iff.2 hr)]
    exact recover_side ..
end

section
variable {s : State} {b : BootInput} (hg : s.bootGood b)
include hg
/-- A good boot has latched its record, whether training then fails or not. -/
theorem boot_conf : ∃ fs fc, (s.boot b).conf = { latched b s.conf.xmssLeaf with failStep := fs, failCause := fc } := by
  rw [boot_good hg]
  split
  · exact ⟨_, _, rfl⟩
  · obtain ⟨-, -, -, -, -, -, hconf⟩ := startFirmware_spec (s.bootTrained b) b.fw
    refine ⟨(latched b s.conf.xmssLeaf).failStep, (latched b s.conf.xmssLeaf).failCause, hconf.trans ?_⟩
    unfold State.bootTrained
    split <;> rfl
theorem boot_latches : (s.boot b).conf.devnum = (if recFld b.record 96 8 = 0 then b.straps.devnum else BitVec.ofNat 8 (recFld b.record 96 8)) ∧
    (s.boot b).conf.debugen = b.straps.debugen ∧ (s.boot b).conf.egress = recFld b.record 104 8 ∧ (s.boot b).conf.thermlim = recFld b.record 152 8 ∧
    (s.boot b).conf.modpwr = recFld b.record 128 16 ∧ (s.boot b).conf.retain = (recFld b.record 161 1 == 1) ∧ (s.boot b).conf.seqFloor.toNat = recFld b.record 64 32 ∧
    (s.boot b).conf.xmssLeaf = s.conf.xmssLeaf := by
  obtain ⟨fs, fc, hc⟩ := boot_conf hg
  have hnum : (latched b s.conf.xmssLeaf).devnum = if recFld b.record 96 8 = 0 then b.straps.devnum else BitVec.ofNat 8 (recFld b.record 96 8) := by
    unfold latched
    simp only [beq_iff_eq]
  have hseq : (BitVec.ofNat 32 (recFld b.record 64 32)).toNat = recFld b.record 64 32 := by
    rw [BitVec.toNat_ofNat]
    exact Nat.mod_mod _ _
  rw [hc]
  exact ⟨hnum, rfl, rfl, rfl, rfl, rfl, hseq, rfl⟩
theorem boot_runs (ht : b.trained = true) (hp : s.ports = []) :
    (s.boot b).out = s.out ++ (if b.lpddr = BitVec.allOnes 32 then [] else [.mgmt 5 0 (~~~b.lpddr)]) ∧ (s.boot b).pstate = .running ∧
      ((s.boot b).core 256).pc = Config.fwEntry b.fw 0 ∧ ((s.boot b).core 257).pc = Config.fwEntry b.fw 1 ∧
      (∀ j, j < b.fw.length → (s.boot b).byte (memKey 3 0 j) = b.fw.getD j 0) ∧ ∀ p, p < 16 → ((s.boot b).port p).act = 0 := by
  obtain ⟨h1, h2, h3, h4, h5, h6, -⟩ := startFirmware_spec (s.bootTrained b) b.fw
  rw [boot_good hg, if_neg (by rw [ht]; decide)]
  refine ⟨h6.trans ?_, h1, h2, h3, h4, fun p hpl => ?_⟩
  · unfold State.bootTrained
    by_cases hl : b.lpddr = BitVec.allOnes 32
    · rw [if_pos hl, if_pos hl, List.append_nil]
      rfl
    · rw [if_neg hl, if_neg hl]
      rfl
  · have hports : (s.bootTrained b).ports = [] := by
      unfold State.bootTrained
      split <;> exact hp
    have hdef : (({} : Port).retrain).act = 0 := by decide
    rw [h5 p hpl, State.port, hports]
    exact hdef
end

/-! ### Freeze, thaw and the test access port (R52 to R54) -/

theorem exposed_iff (s : State) : s.exposed = true ↔ s.conf.debugen = true ∧ s.conf.dbg = true := Bool.and_eq_true_iff
section
variable {s : State}
theorem thaw_runs {tap : Bool} (hf : s.pstate = .frozen) (ht : tap = false ∨ s.exposed = true) : ∃ t, execThaw tap s = .next t ∧
    t = { s with pstate := .running, tsok := 0, ports := t.ports } ∧ ∀ p, p < 16 → t.port p = (s.port p).retrain := by
  refine ⟨({ s with pstate := .running, tsok := 0 } : State).retrain, congrArg _ (if_neg ?_), rfl, fun p hp => State.port_retrain _ hp⟩
  rw [hf]
  rcases ht with rfl | ht
  · simp
  · simp [ht]
theorem thaw_stays {tap : Bool} (h : s.pstate ≠ .frozen ∨ tap = true ∧ ¬s.exposed = true) : execThaw tap s = .next s := by
  refine congrArg _ (if_pos ?_)
  rcases h with h | ⟨rfl, h⟩
  · simp [h]
  · simp [h]
theorem tap_stays {op : TapOp} (h : s.pstate ≠ .frozen ∨ ¬s.exposed = true) : execTapAccess op s = .next s :=
  congrArg _ (if_pos (by rcases h with h | h <;> simp [h]))
variable (hf : s.pstate = .frozen) (he : s.exposed = true)
include hf he
theorem tap_reads (r : TapReg) : execTapAccess (.read r) s = .next { s with out := s.out ++ [.tap (s.tapGet r)] } := congrArg _ (if_neg (by simp [hf, he]))
theorem tap_writes (r : TapReg) (v : Vec) : execTapAccess (.write r v) s = .next (s.tapPut r v) := congrArg _ (if_neg (by simp [hf, he]))
/-- A write to what a core holds. -/
theorem tap_puts {r : TapReg} {v : Vec} {n : Nat} {f : Core → Core} (h : s.tapPut r v = s.modCore n f) : ∃ t, exec (.tapAccess (.write r v)) s = .next t ∧ t = { s with cores := t.cores } ∧
    t.core n = f (s.core n) ∧ ∀ m, m ≠ n → t.core m = s.core m :=
  ⟨s.modCore n f, (tap_writes hf he r v).trans (congrArg _ h), rfl, State.core_modCore_self .., fun _ hm => State.core_modCore_ne _ _ hm⟩
end
theorem State.modCore_congr (s : State) (n : Nat) {f g : Core → Core} (h : f (s.core n) = g (s.core n)) : s.modCore n f = s.modCore n g := by
  rw [State.modCore, State.modCore, h]
theorem tapPut_spad (s : State) (n : Nat) {a : Nat} (ha : a < 0x70000) (v : Vec) :
    s.tapPut (.spad n a) v = s.modCore n fun c => { c with spad := c.spad.set 0 a (v.setWidth 8) } :=
  s.modCore_congr n (f := fun c => c.putSpadByte a (v.setWidth 8)) (if_pos ha)
theorem tapGet_spad (s : State) (n : Nat) {a : Nat} (ha : a < 0x70000) : s.tapGet (.spad n a) = ((s.core n).spad.get 0 a).setWidth 2048 :=
  congrArg (BitVec.setWidth 2048) (if_pos ha : (s.core n).spadByte a = _)
theorem tapPut_s (s : State) (n : Nat) {r : BitVec 6} (hr : r ≠ 0) (v : Vec) :
    s.tapPut (.s n r) v = s.modCore n fun c => { c with s := c.s.set 0 r.toNat (v.setWidth 64) } := by
  refine s.modCore_congr n (f := fun c => { c with s := if r == 0 then c.s else c.s.set 0 r.toNat (v.setWidth 64) }) ?_
  show ({ s.core n with s := if (r == 0) = true then (s.core n).s else (s.core n).s.set 0 r.toNat (v.setWidth 64) } : Core) = _
  rw [if_neg (beq_iff_eq.not.2 hr)]
theorem tapPut_s0 (s : State) (n : Nat) {r : BitVec 6} (hr : r = 0) (v : Vec) : s.tapPut (.s n r) v = s.modCore n fun c => c := by
  refine s.modCore_congr n (f := fun c => { c with s := if r == 0 then c.s else c.s.set 0 r.toNat (v.setWidth 64) }) ?_
  show ({ s.core n with s := if (r == 0) = true then (s.core n).s else (s.core n).s.set 0 r.toNat (v.setWidth 64) } : Core) = _
  rw [if_pos (beq_iff_eq.2 hr)]
/-- A byte of the peel log as the scratchpad's addresses past its end show it, newest entry last. -/
theorem Core.spadByte_log (c : Core) {i b : Nat} {p : Peel} (hb : b < 64) (hp : c.peel.reverse[i]? = some p) :
    c.spadByte (0x70000 + 64 * i + b) = BitVec.ofNat 8 (p.num / 2 ^ (8 * b)) := by
  have hi : (0x70000 + 64 * i + b - spadEnd) / 64 = i := by unfold spadEnd; omega
  have hm : (0x70000 + 64 * i + b) % 64 = b := by omega
  unfold Core.spadByte
  rw [if_neg (by unfold spadEnd; omega), hi, hp]
  dsimp only
  rw [hm]

/-! ### The debug interface (R184) -/

/-- A halted core that goes on: outside a handler its results in flight land as many cycles from now as remained. -/
def Core.goesOn (c : Core) (now : Nat) : Core :=
  if tcInh c.tcause then { c with halted := false } else ({ c with halted := false } : Core).reinject now
theorem Core.goesOn_keeps (c : Core) (now : Nat) : (c.goesOn now).halted = false ∧ (c.goesOn now).pc = c.pc ∧ (c.goesOn now).s = c.s := by
  obtain ⟨-, -, hs, -, hpc, -⟩ := Core.reinject_keeps { c with halted := false } now
  unfold Core.goesOn
  split
  · exact ⟨rfl, rfl, rfl⟩
  · refine ⟨?_, hpc, hs⟩
    unfold Core.reinject
    split <;> rfl
section
variable {s : State} {n : Nat}
theorem debugHalt (h : (s.core n).halted = false) : exec (.debugInterfaceRequest (.halt n)) s =
    .next (s.modCore n fun c => { c with halted := true, capture := if c.capture.isSome then c.capture else some s.cycle }) :=
  congrArg _ (if_neg (by rw [h]; exact Bool.false_ne_true))
variable (h : (s.core n).halted = true)
include h
theorem debugHalted : exec (.debugInterfaceRequest (.halt n)) s = .next s := congrArg _ (if_pos h)
theorem debugGo : exec (.debugInterfaceRequest (.go n)) s =
    .next (s.modCore n fun c => c.goesOn s.cycle) :=
  congrArg _ (if_neg (by rw [h]; exact Bool.false_ne_true))
end
/-- Settles O52: boot by its outcomes, and each other event by what its guard lets through. -/
theorem powerEvents : Obligations.PowerEvents := by
  refine ⟨fun s b => ?_, fun s => ?_, fun s k r => ?_, fun s k n w => ?_⟩
  · intro r good boots
    have hboots (i : Instr) (keep : Bool) (hi : exec i s = .next ((s.lose keep).boot b)) : boots i keep := by
      obtain ⟨h1, h2, h3, h4⟩ := boot_side (s := s.lose keep) (b := b)
      refine ⟨_, hi, fun h => ?_, fun hr hn => ?_, fun hg ht => ?_, fun hg ht => ?_, fun hg => ?_, fun hg ht => ?_, fun a ha => ?_, h1, h2, h3⟩
      · rw [boot_unread h]
        exact recover_spec ..
      · obtain ⟨cause, hc⟩ := boot_refused (s := s.lose keep) hr hn
        rw [hc]
        exact recover_spec ..
      · rw [boot_good (s := s.lose keep) hg, if_pos ht]
        exact recover_spec ..
      · exact (boot_runs (s := s.lose keep) hg ht rfl).1
      · exact boot_latches (s := s.lose keep) hg
      · exact (boot_runs (s := s.lose keep) hg ht rfl).2
      · rw [h4 a ha, s.lose_dram keep ha]
    refine ⟨hboots _ _ rfl, fun h => hboots _ _ ?_, fun h => ?_⟩
    · exact congrArg _ (if_pos (beq_iff_eq.2 h))
    · exact congrArg _ (if_neg (by simpa using h))
  · intro open_
    refine ⟨⟨_, rfl, rfl, rfl, rfl, rfl, rfl, ?_⟩, fun hr ho => ?_, fun h => ?_, fun tap hf ht => ?_, fun tap h => thaw_stays (by rw [exposed_iff]; exact h),
      fun op h => tap_stays (by rw [exposed_iff]; exact h), fun hf ho => ?_⟩
    · exact (ite_eq_or_eq (Config.freeBit s.freeCtr = true) (Nat.min xmssLeaves (s.conf.xmssLeaf + 1)) s.conf.xmssLeaf).symm
    · exact congrArg _ (if_pos (by rw [hr, (exposed_iff s).2 ho]; rfl))
    · refine congrArg _ (if_neg ?_)
      rw [Bool.and_eq_true, beq_iff_eq, exposed_iff]
      exact fun ⟨h1, h2⟩ => h.elim (fun h => h h1) fun h => h h2
    · exact thaw_runs hf (by rw [exposed_iff]; exact ht)
    · have he := (exposed_iff s).2 ho
      intro puts
      have hputs (r : TapReg) (v : Vec) (n : Nat) (f : Core → Core) (h : s.tapPut r v = s.modCore n f) : puts r v n f := tap_puts hf he h
      clear_value puts
      refine ⟨tap_reads hf he, tap_writes hf he, fun k v => ⟨rfl, _, tap_writes hf he _ v, rfl, State.byte_setByte_self .., fun j hj => State.byte_setByte_ne _ _ hj⟩, fun n a v =>
        ⟨fun ha => ⟨tapGet_spad s n ha, hputs _ _ _ _ (tapPut_spad s n ha v)⟩, fun i p b _ hb hp => ?_,
          fun r => ⟨rfl, fun hr => hputs _ _ _ _ (tapPut_s s n hr v), fun hr => hputs _ _ _ _ (tapPut_s0 s n hr v)⟩,
          fun r => ⟨rfl, hputs _ _ _ _ rfl⟩, fun r => ⟨rfl, hputs _ _ _ _ rfl⟩, fun r => ⟨rfl, hputs _ _ _ _ rfl⟩, rfl, hputs _ _ _ _ rfl⟩⟩
      show ((s.core n).spadByte _).setWidth 2048 = _
      rw [(s.core n).spadByte_log hb hp]
      refine BitVec.eq_of_toNat_eq ?_
      rw [BitVec.toNat_setWidth, BitVec.toNat_ofNat, BitVec.toNat_ofNat]
  · intro x hot down up hold free sets therm
    have hhot : s.hot r = true ↔ hot := by
      unfold State.hot
      rw [Bool.or_eq_true, Bool.or_eq_true, decide_eq_true_eq, decide_eq_true_eq, decide_eq_true_eq, or_assoc]
    have hhot' : s.hot r = false ↔ ¬hot := by rw [← hhot, Bool.not_eq_true]
    have hguard (i : Instr) (p : Bool) (q : Prop) (hq : p = true ↔ q) (u : State) (hi : exec i s = .next (if p then u else s)) : (q → exec i s = .next u) ∧ (¬q → exec i s = .next s) :=
      ⟨fun h => hi.trans (congrArg _ (if_pos (hq.2 h))), fun h => hi.trans (congrArg _ (if_neg fun hp => h (hq.1 hp)))⟩
    have hdown := hguard (.thermalStepDown k r) _ down (by simp only [Bool.and_eq_true, Bool.or_eq_true, decide_eq_true_eq, hhot, and_assoc]; rfl) _ rfl
    have hup := hguard (.thermalStepUp k r) _ up (by simp only [Bool.and_eq_true, Bool.not_eq_true', decide_eq_true_eq, hhot', and_assoc]; rfl) _ rfl
    have hhold := hguard (.thermalHold k r) _ hold (by simp only [Bool.and_eq_true, Bool.not_eq_true', decide_eq_true_eq, beq_iff_eq, and_assoc]; rfl) _ rfl
    have hfree := hguard (.thermalHoldEnd k r) _ free (by simp only [Bool.and_eq_true, decide_eq_true_eq]; rfl) _ rfl
    exact ⟨hdown.1, hdown.2, hup.1, hup.2, hhold.1, hhold.2, hfree.1, hfree.2⟩
  · refine ⟨rfl, rfl, rfl, rfl, fun h => ⟨_, debugHalt h, ?_, rfl, fun m hm => State.core_modCore_ne _ _ hm⟩, fun h => ⟨debugHalted h, _, debugGo h, ?_, ?_, ?_, rfl, fun m hm => State.core_modCore_ne _ _ hm⟩,
      fun h => congrArg _ (if_pos (by rw [h]; rfl))⟩
    · rw [State.core_modCore_self]
      cases (s.core n).capture <;> rfl
    · rw [State.core_modCore_self]
      exact (Core.goesOn_keeps ..).1
    · rw [State.core_modCore_self]
      exact (Core.goesOn_keeps ..).2.1
    · rw [State.core_modCore_self]
      exact (Core.goesOn_keeps ..).2.2

end Sys2Proof.Machine
end
